-- ==== Sys2Proof/Word.lean ====
section
/-! DEFINITION. The words the part computes with: fixed-width bit vectors, and bit-field reading and
splicing on natural numbers, which the register map uses. -/

namespace Sys2Proof

/-- One byte of memory, scratchpad or segment buffer. -/
abbrev Byte := BitVec 8

/-- A 64-bit register, token or command word (spec/00 conventions: registers are 64 bits wide). -/
abbrev Word64 := BitVec 64

/-- An IEEE 754 binary32 pattern (R26). -/
abbrev F32 := BitVec 32

/-- An S16 pattern: sign [15], exponent [14:7], fraction [6:0] (R21, R22). -/
abbrev S16 := BitVec 16

/-- Bits `[lo + width - 1 : lo]` of `x`. -/
def bits (x lo width : Nat) : Nat := (x >>> lo) % 2 ^ width

/-- `x` with bits `[lo + width - 1 : lo]` replaced by `v`. -/
def splice (x lo width v : Nat) : Nat :=
  x - bits x lo width * 2 ^ lo + (v % 2 ^ width) * 2 ^ lo

/-- Bit `i` of `x`. -/
def bitOf (x i : Nat) : Bool := (x >>> i) % 2 == 1

/-- 1 for true, 0 for false. -/
def b2n (b : Bool) : Nat := if b then 1 else 0

/-- A two's-complement reading of the low `width` bits of `x`. -/
def signedOf (x width : Nat) : Int :=
  let v := x % 2 ^ width
  if v < 2 ^ (width - 1) then (v : Int) else (v : Int) - (2 ^ width : Nat)

/-- The low `width` bits of an integer in two's complement. -/
def unsignedOf (x : Int) (width : Nat) : Nat := (x % ((2 ^ width : Nat) : Int)).toNat

/-- Ceiling of `a / b` for `b > 0`. -/
def ceilDiv (a b : Nat) : Nat := (a + b - 1) / b

end Sys2Proof
end

