-- ==== Sys2Proof/Syntax.lean ====
section
/-! DEFINITION. The commands of the block: one constructor for each row of the operation table
(spec/opcode_table.json), with the operands that the row's event carries. A stream command names the
sequencer whose next command it is: the command's own fields come from the image in the sequencer's
bin (R174). Readings of the analogue world, frames and host accesses are operands. -/

namespace Sys2Proof


/-- A sequencer: its digital die (0 to 3) and its number on the die (0 to 152, R169). -/
structure SeqId where
  die : Nat
  num : Nat
  deriving DecidableEq, Repr

/-- The two agents that write registers and staged fields (R358). -/
inductive Agent where
  | host | firmware
  deriving DecidableEq, Repr

/-- A received Rhazo frame without its payload (R301, R303): the port it came on, its source address and
tag, its size, the device time at which it crossed the internal sampling plane, in units of 2^-16 ns (R315), the fields of its
header, what the PCS reports since the frame before it: codewords corrected, codewords not correctable, and a high
bit-error ratio (R319) (DESIGN CHOICE, log 148), and the step number that a heartbeat carries (R312). -/
structure Frame where
  port : Nat
  mac : Nat
  tag : Option Nat
  size : Nat
  stamp : Nat
  srcRank : Nat
  dstRank : Nat
  gen : Nat
  ackValid : Bool
  session : Nat
  msgId : Nat
  ackMark : Nat
  ackMap : Nat
  serial : Nat
  fecFixed : Nat
  fecLost : Nat
  highBer : Bool
  beat : Nat := 0
  deriving DecidableEq, Repr

/-- Words of a storage unit corrected as they were read or received (R380): page type and instance of the unit. -/
structure Corrected where
  page : Nat
  inst : Nat
  singles : Nat
  doubles : Nat
  deriving DecidableEq, Repr

/-- What bit errors did to words by the end of a long operation (DESIGN CHOICE, log 147): words sent again over the fabric, by
the digital die that received them (R383, R393), corrections (R380), and words that went bad beyond correction, by space and
address, which the next read of them meets (R379, R381). -/
structure Met where
  retries : List (Nat × Nat) := []
  corrected : List Corrected := []
  broken : List (Nat × Nat) := []
  deriving DecidableEq, Repr

/-- An exchange operation (R235): its two header words and its payload. -/
structure XOp where
  w0 : Nat
  w1 : Nat
  data : List Byte
  deriving DecidableEq, Repr

/-- A MEMBERSHIP message after its word 0 (R313): its words, and the bytes that follow them. -/
structure Member where
  words : List Nat
  data : List Byte
  deriving DecidableEq, Repr

/-- Why a received frame is discarded (R301, R303, R313, R314); an unlisted SUBTYPE comes with the length of its payload. -/
inductive Discard where
  | fcs | size | address | etherType | header | subtype (len : Nat) | ptpType
  deriving DecidableEq, Repr

/-- A received PTP message (R314, R317): the port, frame size and domain, its source port identity, sequence number, the device
time at which it crossed the internal sampling plane (R315) and the time it carries with correctionField applied, both in
units of 2^-16 ns (of a Delay_Req its correctionField alone), whether a Follow_Up is to come, the interval it announces in
nanoseconds, and the port identity of the requester that a Delay_Resp names. -/
structure PtpMsg where
  port : Nat
  size : Nat
  domain : Nat
  source : Nat
  seq : Nat
  stamp : Nat
  time : Int
  twoStep : Bool
  interval : Nat
  requester : Nat := 0
  deriving DecidableEq, Repr

/-- An SMBus transaction of POWER_LIMIT (R341), or one with a command code that R341 does not list, for which the table has no
row of its own (R340) (DESIGN CHOICE, log 159). -/
inductive SmbusAccess where
  | read
  | write (value : Nat)
  | unlisted (code : Nat)
  deriving DecidableEq, Repr

/-- What an Announce says of a grandmaster, in the order in which the best master clock algorithm compares it. -/
structure Gm where
  priority1 : Nat
  clockClass : Nat
  accuracy : Nat
  variance : Nat
  priority2 : Nat
  identity : Nat
  steps : Nat
  deriving DecidableEq, Repr


/-- The commands the block takes, one for each row of spec/opcode_table.json (DESIGN CHOICE, log 10). -/
inductive Instr where
  /-- NOP (R181). Control command that has no effect beyond its issue. -/
  | nop (q : SeqId)
  /-- LOADI (R181). Loads the immediate into an address register. -/
  | loadi (q : SeqId)
  /-- ADD (R181). Control command that sets an address register to the sum of two registers modulo 2^48. -/
  | add (q : SeqId)
  /-- SUB (R181). Control command that sets an address register to the difference of two registers modulo 2^48. -/
  | sub (q : SeqId)
  /-- ADDI (R181). Control command that adds a signed immediate to an address register. -/
  | addi (q : SeqId)
  /-- MULI (R181). Control command that multiplies an address register by an unsigned immediate and keeps the low 48 bits. -/
  | muli (q : SeqId)
  /-- SHL (R181). Shifts an address register left by the immediate. -/
  | shl (q : SeqId)
  /-- SHR (R181). Shifts an address register right logically by the immediate. -/
  | shr (q : SeqId)
  /-- CMP (R181). Control command that sets a predicate flag from a comparison of two address registers. -/
  | cmp (q : SeqId)
  /-- CMPI (R181). Control command that sets a predicate flag from a comparison of an address register with the immediate. -/
  | cmpi (q : SeqId)
  /-- LOOP (R181). Decrements a register and branches to a bin index while the result is nonzero. -/
  | loop (q : SeqId)
  /-- JUMP (R181). Continues issue at an index of the same bin. -/
  | jump (q : SeqId)
  /-- PSTAT (R181). Sets a predicate flag from a status source and optionally clears the sticky RSTAT bits. -/
  | pstat (q : SeqId)
  /-- XLOAD (R181). Copies LAST_EXTENT into an address register. -/
  | xload (q : SeqId)
  /-- TOKEN (R185). Control command that produces a token joining popped status, with a format chosen by a predicate flag. -/
  | token (q : SeqId)
  /-- SWITCH (R194). Switches the sequencer to the other bin's ENTRY and leaves the old bin standby. -/
  | switchBin (q : SeqId)
  /-- HALT (R181). Makes the sequencer idle with both bins standby. -/
  | halt (q : SeqId)
  /-- REDCFG (R181). Loads the sequencer's reduction configuration. -/
  | redcfg (q : SeqId)
  /-- ROWCFG (R181). Loads the sequencer's row configuration. -/
  | rowcfg (q : SeqId)
  /-- MATRIX_PRODUCT (R177). Matrix engine tile product with F32 accumulation in the fixed order of R47. -/
  | matrixProduct (q : SeqId)
  /-- VEC_COPY (R159). Vector command that copies stream A to D with its bits unchanged. -/
  | vecCopy (q : SeqId)
  /-- CONVERT (R159). Converts stream A to the format of D. -/
  | convert (q : SeqId)
  /-- VEC_ADD (R159). Vector command that adds streams A and B lane by lane. -/
  | vecAdd (q : SeqId)
  /-- VEC_SUB (R159). Vector command that subtracts stream B from stream A lane by lane. -/
  | vecSub (q : SeqId)
  /-- MUL (R159). Multiplies streams A and B lane by lane. -/
  | mul (q : SeqId)
  /-- AXPY (R159). Computes (a times the immediate) plus b lane by lane. -/
  | axpy (q : SeqId)
  /-- VEC_ADDI (R159). Vector command that adds the F32 immediate to every lane. -/
  | vecAddi (q : SeqId)
  /-- VEC_MULI (R159). Vector command that multiplies every lane by the F32 immediate. -/
  | vecMuli (q : SeqId)
  /-- DIV (R159). Divides stream A by stream B lane by lane. -/
  | div (q : SeqId)
  /-- RECIP (R159). Computes the reciprocal of each lane. -/
  | recip (q : SeqId)
  /-- SQRT (R159). Computes the square root of each lane. -/
  | sqrt (q : SeqId)
  /-- RSQRT (R159). Computes the reciprocal square root of each lane. -/
  | rsqrt (q : SeqId)
  /-- MAX (R159). Takes the lane-wise maximum of A and B. -/
  | max (q : SeqId)
  /-- MIN (R159). Takes the lane-wise minimum of A and B. -/
  | min (q : SeqId)
  /-- CLAMP (R159). Clamps each lane between the immediate bounds. -/
  | clamp (q : SeqId)
  /-- ABS (R159). Takes the magnitude of each lane. -/
  | abs (q : SeqId)
  /-- NEG (R159). Negates each lane. -/
  | neg (q : SeqId)
  /-- RELU (R159). Takes the maximum of each lane and +0. -/
  | relu (q : SeqId)
  /-- EXP (R142). Evaluates exp32 on each lane. -/
  | exp (q : SeqId)
  /-- VEC_CMP (R159). Vector command that writes 1.0 or +0 from a lane-wise comparison of A and B. -/
  | vecCmp (q : SeqId)
  /-- VEC_CMPI (R159). Vector command that writes 1.0 or +0 from a comparison of A with the immediate. -/
  | vecCmpi (q : SeqId)
  /-- SELECT (R159). Writes b where a is nonzero, and the immediate elsewhere. -/
  | select (q : SeqId)
  /-- PERM (R163). Permutes elements within each window by an A8 index stream, with a fill value for stray indices. -/
  | perm (q : SeqId)
  /-- QUANT (R160). Quantises 512-element segments to A8 with scales, zero points and outlier values. -/
  | quant (q : SeqId)
  /-- LEVEL_SCALE (R161). Expands level codes by column scales into S16 weights. -/
  | levelScale (q : SeqId)
  /-- DRIFT (R162). Writes per-column drift and the largest master magnitude. -/
  | drift (q : SeqId)
  /-- HIST_THRESH (R167). Derives a top-k threshold record from a histogram. -/
  | histThresh (q : SeqId)
  /-- COMPACT (R167). Writes the finite elements at or above the threshold, with their global indices. -/
  | compact (q : SeqId)
  /-- NORM_FWD (R143). Forward normalisation of rows, optionally saving statistics to the larder and stashing x. -/
  | normFwd (q : SeqId)
  /-- NORM_BWD (R144). Backward normalisation of rows, with a larder hit or the fall-back of R148. -/
  | normBwd (q : SeqId)
  /-- SOFTMAX_FWD (R145). Forward soft-maximum of rows, optionally saving statistics. -/
  | softmaxFwd (q : SeqId)
  /-- SOFTMAX_BWD (R145). Backward soft-maximum of rows, re-merging merged rows on a larder miss. -/
  | softmaxBwd (q : SeqId)
  /-- MERGE (R150). Merges staged soft-maximum partials in ascending split rank. -/
  | merge (q : SeqId)
  /-- MERGE_C (R151). Sums staged partials c in ascending split rank. -/
  | mergeC (q : SeqId)
  /-- ARRAY_PRODUCT (R180). Issues a dense or sparse analogue product over arrays of one group, with optional fold and stash. -/
  | arrayProduct (q : SeqId) (codes : List (Nat × Int))
  /-- COPY (R208). Copy command that moves bytes unchanged between scratchpad, memory and segment buffers. -/
  | copy (q : SeqId)
  /-- SEND_DENSE (R229). Converts gradients to B8 at the agreed scale and sends dense accumulate operations. -/
  | sendDense (q : SeqId)
  /-- SEND_TOPK (R230). Sends compacted entries as scatter accumulates and rewrites the residual. -/
  | sendTopk (q : SeqId)
  /-- SEND_SIGN (R231). Sends sign bits with error feedback and writes the new residual plane. -/
  | sendSign (q : SeqId)
  /-- SEND_ORDERED (R232). Sends an ordered-form end operation and holds the source for pulls. -/
  | sendOrdered (q : SeqId)
  /-- DELTA_BCAST (R258). On the owner, converts the weight change to B8 deltas and broadcasts them; on the owner and partner, writes the moments. -/
  | deltaBcast (q : SeqId)
  /-- REMOTE_WRITE (R251). Exchange command that writes bytes into a peer's memory. -/
  | remoteWrite (q : SeqId)
  /-- BUCKET_WAIT (R251). Produces a token when the bucket's first NOTICE of the step arrives. -/
  | bucketWait (q : SeqId)
  /-- LONG_OP_COMPLETE (R184). A long operation's writes become visible, and its token and completion record are produced. -/
  | longOpComplete (die : Nat) (tag : Nat) (met : Met) (late : Nat) (lost : Bool)
  /-- TOKEN_TIMEOUT (R187). A token wait exceeds its limit and commits a program-fatal timeout. -/
  | tokenTimeout (q : SeqId)
  /-- DELAYED_START (R172). Under the expert policy, a collided command starts when its engine becomes free. -/
  | delayedStart (q : SeqId) (codes : List (Nat × Int))
  /-- PROGRAM_STOP (R173). After a program-fatal error, issue stops on every sequencer of the program at the next command boundary after an alignment-period boundary. -/
  | programStop
  /-- PROGRAM_DUMP (R388). Firmware writes a program dump after the long operations of a program-fatal stop complete. -/
  | programDump (fw : List Byte)
  /-- BIN_LOAD (R192). A write of BIN_LOAD.GO starts a whole-or-nothing bin load, or is refused. -/
  | binLoad (die : Nat) (seq : Nat) (bin : Nat)
  /-- BIN_LOAD_DONE (R192). The load finishes its checks and sets VALID or reports BIN_RESULT. -/
  | binLoadDone (die : Nat)
  /-- BIN_SWITCH_AT_BOUNDARY (R194). A committed SWITCH_STG bit switches a running sequencer at its next command boundary. -/
  | binSwitchAtBoundary (q : SeqId)
  /-- CLAIM (R358). An agent claims the staging area. -/
  | claim (agent : Agent)
  /-- RELEASE (R358). The holder releases the staging claim. -/
  | release (agent : Agent)
  /-- CLAIM_EXPIRED (R358). A claim held for CLAIM_LIMIT without a GO is released. -/
  | claimExpired
  /-- GO (R359). Starts a staged commit: snapshot, then check, or refusal. -/
  | go (agent : Agent) (when' : Nat)
  /-- DISCARD (R359). Resets staged values to current and empties the step-boundary set. -/
  | discard
  /-- COMMIT_CHECK_DONE (R359). The consistency check ends: the commit fails, becomes pending, or joins the step-boundary set. -/
  | commitCheckDone
  /-- COMMIT_APPLY (R360). A pending commit is checked again and applies in one alignment period. -/
  | commitApply
  /-- STEP_SET_APPLY (R361). A held step-boundary set applies at a package frame boundary, or as an immediate commit while no program runs. -/
  | stepSetApply
  /-- MEMBERSHIP_COMMIT (R285). A checked view applies and sets generation, ranks, owners, partners, rebuilds and rollbacks. -/
  | membershipCommit
  /-- VOTE (R261). The leader receives a vote and, once every vote is in, sends the decision. -/
  | vote (f : Frame) (m : Member)
  /-- DECISION (R261). A member receives the leader's decision and schedules the commit at T. -/
  | decision (f : Frame) (m : Member)
  /-- STEP_COMMIT (R263). At T the step commits or is vetoed: page flips, step number, tables, larders and the staged set. -/
  | stepCommit
  /-- PANTRY_REFRESH (R15). After the commit period, pantry values and sum registers are reloaded from the new masters and a completion token is enqueued. -/
  | pantryRefresh (inst : Nat) (ap : Nat) (rows : List (Nat × Nat))
  /-- DRIFT_CHECK (R16). The drift check for the new epoch starts, or restarts from the first column. -/
  | driftCheck
  /-- MIXER_TEST (R42). Runs the mixer self-test on both vectors. -/
  | mixerTest
  /-- RUN_CLEAR (R267). Clears ZERO_RUN and STARVED of every layer. -/
  | runClear
  /-- DETECTOR_RESET (R265). Resets the loss mean and sample count. -/
  | detectorReset
  /-- DENSE_ACC (R237). The owner adds received B8 elements into its integer accumulator. -/
  | denseAcc (f : Frame) (x : XOp)
  /-- SCATTER_ACC (R237). The owner adds positioned B8 entries into its accumulator. -/
  | scatterAcc (f : Frame) (x : XOp)
  /-- SIGN_ACC (R237). The owner adds plus or minus one per sign bit. -/
  | signAcc (f : Frame) (x : XOp)
  /-- ORDERED_ACC (R245). The owner takes pulled S16 data and adds it in ascending rank. -/
  | orderedAcc (f : Frame) (x : XOp)
  /-- CONTRIB_END (R241). The owner records a rank's reports and flags and its completeness. -/
  | contribEnd (f : Frame) (x : XOp)
  /-- BUCKET_DEADLINE (R241). The bucket deadline passes and the bucket closes if every begun rank is complete. -/
  | bucketDeadline (bucket : Nat)
  /-- BUCKET_REDUCED (R243). The reduction of R244 completes and the reduced token is enqueued. -/
  | bucketReduced (bucket : Nat) (addr : Nat)
  /-- PULL (R232). A contributor serves an owner's pull of ordered data or first sendings. -/
  | pull (f : Frame) (x : XOp)
  /-- REPLY (R251). A contributor receives the owner's answer to an end operation. -/
  | reply (f : Frame) (x : XOp)
  /-- NOTICE (R242). A member receives a bucket's closing notice, updating its step veto and BUCKET_WAIT. -/
  | notice (f : Frame) (x : XOp)
  /-- TABLE (R242). A member applies agreed-table changes to its next plane. -/
  | table (f : Frame) (x : XOp)
  /-- DELTA (R260). A member applies received B8 deltas to its alternate master half. -/
  | delta (f : Frame) (x : XOp)
  /-- CELLAR_DONE (R273). The partner receives the completion message of a reduced shard and enqueues its reduced token. -/
  | cellarDone (f : Frame) (m : Member)
  /-- CRC (R275). The partner compares the owner's moment CRCs with its own. -/
  | crc (f : Frame) (m : Member)
  /-- CRC_COMPUTE_DONE (R275). A device finishes its per-bucket CRCs and the owner sends them. -/
  | crcComputeDone
  /-- WRITE_STALE (R308). The sender learns that a step-bound remote write was discarded. -/
  | writeStale (f : Frame) (m : Member)
  /-- REMOTE_WRITE_MSG (R308). A received remote write makes its bytes visible, or is discarded as stale, and is acknowledged. -/
  | remoteWriteMsg (f : Frame) (addr : Nat) (bound : Bool) (step : Nat) (data : List Byte) (bad : List Nat)
  /-- TOKEN_FRAME (R308). A received token message is enqueued in order after earlier messages. -/
  | tokenFrame (f : Frame) (token : Nat) (queue : Nat) (die : Nat)
  /-- ACK (R306). A received acknowledgement frees window room and releases held messages. -/
  | ack (f : Frame)
  /-- ACK_DELAY (R306). No frame carried pending acknowledgements within ACK_DELAY, so an ACK frame is sent. -/
  | ackDelay (serial : Nat)
  /-- RETRANSMIT (R306). An unacknowledged reliable message is sent again after its timeout. -/
  | retransmit (serial : Nat) (id : Nat)
  /-- PAGE_WALK_SEND (R287). A paced page walk sends the next page by remote write. -/
  | pageWalkSend (bucket : Nat) (rank : Nat) (master : Bool) (first : Nat)
  /-- HEARTBEAT_SEND (R282). Every HB_PERIOD the device sends heartbeats on every port with link. -/
  | heartbeatSend
  /-- HEARTBEAT (R282). A received heartbeat refreshes its sender's time and clears suspicion, or triggers withdrawal. -/
  | heartbeat (f : Frame)
  /-- SUSPECT (R282). A member silent for HB_MISS_LIMIT periods becomes suspect. -/
  | suspect (rank : Nat)
  /-- QUERY_REQ (R218). A query request arrives and is admitted with a promised time or refused. -/
  | queryReq (f : Frame) (endpoint : Nat) (count : Nat) (clientTag : Nat) (input : List Nat)
  /-- QUERY_DESCRIPTOR (R332). A host query descriptor and its input have been read and the query passes admission. -/
  | queryDescriptor (q : Nat) (words : List Nat) (input : List Nat) (bad : Bool)
  /-- CHAIN_START (R218). A chain origin arrives and starts the chain of the next admitted query. -/
  | chainStart (ep : Nat)
  /-- CHAIN_ENTRY (R215). A chain entry issues at its offset on vector engine 15 or on its arrays. -/
  | chainEntry (ep : Nat) (k : Nat) (codes : List (Nat × Int))
  /-- QUERY_RESP (R220). A query completes: the response frame or host completion entry leaves with its status. -/
  | queryResp (ep : Nat) (k : Nat)
  /-- QUERY_UNDELIVERED (R311). At the promised time a response still without link is discarded with status 0xA. -/
  | queryUndelivered (ep : Nat) (k : Nat)
  /-- SYNC (R317). A PTP Sync is received and the servo updates INCR or steps time. -/
  | sync (m : PtpMsg)
  /-- FOLLOW_UP (R317). A PTP Follow_Up supplies t1 for a two-step Sync. -/
  | followUp (m : PtpMsg)
  /-- DELAY_REQ (R314). As master, the part answers a received Delay_Req. -/
  | delayReq (m : PtpMsg)
  /-- DELAY_RESP (R317). A Delay_Resp supplies t4 for the path delay. -/
  | delayResp (m : PtpMsg)
  /-- ANNOUNCE (R314). A received Announce feeds the best master clock algorithm. -/
  | announce (m : PtpMsg) (gm : Gm)
  /-- SYNC_LOSS (R317). Eight sync intervals pass with no Sync and LOCKED falls. -/
  | syncLoss
  /-- STEP_NS (R317). Steps device time by a signed amount while STEP_EN is set. -/
  | stepNs (amount : Int)
  /-- TIME_NS_READ (R316). Reading TIME_NS latches TIME_FRAC and ALIGN_AT_TIME. -/
  | timeNsRead
  /-- LINK_UP (R318). A port's link comes up, READY may rise and held traffic resumes. -/
  | linkUp (p : Nat)
  /-- LINK_DOWN (R314). A port's link falls and the PTP port may move. -/
  | linkDown (p : Nat)
  /-- HOST_INDEX (R328). A doorbell write moves a ring's host index, or is ignored as invalid. -/
  | hostIndex (ring : Nat) (value : Nat)
  /-- RING_ENABLE (R328). Enabling a ring zeroes its indices; disabling it stops new reads. -/
  | ringEnable (ring : Nat) (value : Bool)
  /-- FUNCTION_LEVEL_RESET (R323). Resets the host interface block only. -/
  | functionLevelReset
  /-- D3HOT (R323). Entry to D3hot resets the host interface block and suppresses host access. -/
  | d3hot
  /-- PERST_N_ASSERT (R370). PERST_N low resets the host endpoint. -/
  | perstNAssert
  /-- PERST_N_RELEASE (R370). PERST_N rises and the endpoint answers configuration within 100 ms. -/
  | perstNRelease
  /-- BAR0_HALF_READ (R348). A 4-byte read of a low half latches the high half for the next read. -/
  | bar0HalfRead (addr : Nat) (width : Nat)
  /-- REGISTER_WRITE (R349). A register write is applied by field type, expert rules and 4-byte latching. -/
  | registerWrite (agent : Agent) (addr : Nat) (width : Nat) (value : Nat)
  /-- CNT_CLEAR (R352). Clears every SAT counter of a page and its SAT bits. -/
  | cntClear (unit : Nat)
  /-- EXPERT_RESTORE (R355). Returns a page's expert and conditional fields to their reset values. -/
  | expertRestore (unit : Nat)
  /-- IDENT (R341). SMBus block read of the identity bytes. -/
  | ident
  /-- STATUS (R341). SMBus read of the status word. -/
  | status
  /-- TEMPS (R341). SMBus read of the hottest die temperatures. -/
  | temps
  /-- POWER (R341). SMBus read of package and feed power. -/
  | power
  /-- POWER_LIMIT (R341). SMBus read or write of the package power limit. -/
  | powerLimit (access : SmbusAccess) (pecOk : Bool)
  /-- FATAL_SUMMARY (R341). SMBus read of the fatal summary. -/
  | fatalSummary
  /-- AUX_3V3_UP (R369). AUX_3V3 in range starts the power controller and the SMBus target. -/
  | aux3v3Up
  /-- AUX_3V3_REMOVED (R370). Removal of AUX_3V3 resets every domain and releases the trip latch. -/
  | aux3v3Removed
  /-- FEED_GOOD (R369). A feed good for 10 ms starts the ordered rail ramp. -/
  | feedGood (feed : Nat)
  /-- PWR_OK (R369). All rails reach regulation and PWR_OK rises. -/
  | pwrOk
  /-- FEED_LOST (R367). A feed stays below 40 V for 20 us; with both lost, the rails are removed. -/
  | feedLost (feed : Nat)
  /-- RAIL_FAULT (R384). An on-package rail leaves regulation, a device-fatal error without dump. -/
  | railFault (page : Nat) (inst : Nat)
  /-- SYS_RESET_N_ASSERT (R370). SYS_RESET_N low resets the main domain. -/
  | sysResetNAssert
  /-- SYS_RESET_N_RELEASE (R372). SYS_RESET_N rises and the root PLL starts to lock. -/
  | sysResetNRelease (early : Bool)
  /-- RESET_KEY (R370). Writing 0xA5 resets the main domain. -/
  | resetKey (agent : Agent) (key : Nat)
  /-- PLL_LOCK (R372). The root PLL locks, the dividers start and device time starts at 0. -/
  | pllLock
  /-- PLL_LOCK_TIMEOUT (R372). The PLL fails to lock within 1 ms and every page reports reason 0x01. -/
  | pllLockTimeout
  /-- REFCLK_FAULT (R371). The clock monitor finds SYS_REFCLK off by more than 500 ppm or stopped. -/
  | refclkFault
  /-- BLOCK_READY (R373). A block finishes its bring-up and raises READY. -/
  | blockReady (unit : Nat) (info : List Nat)
  /-- ORDERLY_OFF (R369). Asks firmware to save the ledgers and flush the drives. -/
  | orderlyOff
  /-- OFF_READY (R369). Firmware has saved the ledgers and OFF_READY rises. -/
  | offReady
  /-- POWER_SAMPLE (R374). Package input is measured every 10 us. -/
  | powerSample (input : Nat) (feeds : List Nat) (domains : List Nat)
  /-- CAP_EVAL (R374). At each package frame boundary the power and thermal loops adjust throttle duties. -/
  | capEval
  /-- CAP_UNMET (R375). The average stays above the limit for 10 ms at full duty. -/
  | capUnmet
  /-- TEMP_SAMPLE (R376). Die sensors are read every 100 us and act on warning, limit and trip. -/
  | tempSample (temps : List Int)
  /-- MEMORY_STACK_LOST (R384). A memory controller loses its stack, a device-fatal error. -/
  | memoryStackLost (mc : Nat)
  /-- WATCHDOG_EXPIRY (R384). A control die's firmware watchdog expires, a device-fatal error. -/
  | watchdogExpiry (c : Nat)
  /-- DUMP_START (R387). Firmware starts the device-fatal dump once operations complete or 5 ms pass. -/
  | dumpStart
  /-- DUMP_READY (R387). The dump is written and DUMP_READY is set. -/
  | dumpReady (fw : List Byte)
  /-- DUMP_ON_SHELF (R387). All shelf copies of the dump are flushed. -/
  | dumpOnShelf
  /-- DUMP_ACK (R391). Acknowledges the held dump and frees the region. -/
  | dumpAck
  /-- DUMP_RESTORE (R391). Loads the shelf copy of a dump into the region. -/
  | dumpRestore
  /-- SCRUB (R380). The memory controller scrubs its stacks once per SCRUB_INTERVAL. -/
  | scrub (mc : Nat) (singles : Nat) (doubles : Nat) (bad : List Nat)
  /-- RESCAN (R337). Re-enumerates a root port and re-initialises its drive. -/
  | rescan (c : Nat)
  /-- NVME_COMPLETION (R337). An NVMe command completes, and an error status fails the drive. -/
  | nvmeCompletion (c : Nat) (ok : Bool) (k : Nat) (crit : Nat) (used : Nat)
  /-- NVME_TIMEOUT (R337). An NVMe command is not completed within NVME_TIMEOUT and the drive fails. -/
  | nvmeTimeout (c : Nat)
  /-- SWEEP_CONVERSION_START (R77). A sweep conversion starts at a free alignment-period boundary. -/
  | sweepConversionStart (die : Nat) (p : Nat) (ap : Nat)
  /-- SWEEP_CONVERSION_DONE (R75). A sweep conversion delivers readings, compares bands and raises events. -/
  | sweepConversionDone (die : Nat) (p : Nat) (codes : List (Nat × Int)) (tripped : List Nat)
  /-- TABLE_SWAP (R82). A complete standby table is swapped in at the next frame boundary. -/
  | tableSwap (die : Nat) (p : Nat) (ap : Nat)
  /-- SWEEP_STALE (R85). No sweep cycle completes within STALE_LIMIT. -/
  | sweepStale (die : Nat) (p : Nat)
  /-- VERIFY_REQ (R86). Starts a cupping verify of the group, or is refused. -/
  | verifyReq (inst : Nat)
  /-- VERIFY_COMPLETE (R86). A verify finishes, installs its tables and the group may become ready. -/
  | verifyComplete (inst : Nat) (loads : List (Nat × Nat))
  /-- LOAD_HOLD (R113). Holds the group not ready for loading, or on release starts a verify. -/
  | loadHold (inst : Nat) (value : Bool)
  /-- CLEAR_SEL (R89). Clears the selected converter's counters. -/
  | clearSel (inst : Nat)
  /-- AUDIT_CLEAR (R123). Clears AUDIT_SSE and AUDIT_SAMPLES. -/
  | auditClear (inst : Nat)
  /-- LOAD_PANTRY (R101). COL_CMD operation 0b001 loads a column's masters into a free pantry slot. -/
  | loadPantry (inst : Nat)
  /-- PANTRY_LOAD_DONE (R101). The pantry load completes and the column enters state 1. -/
  | pantryLoadDone (die : Nat) (p : Nat) (col : Nat)
  /-- EVICT (R101). COL_CMD operation 0b010 evicts a column into bypass, or is refused. -/
  | evict (inst : Nat)
  /-- EVICT_APPLY (R101). The eviction takes effect at the next product boundary. -/
  | evictApply (die : Nat) (p : Nat)
  /-- PROGRAM (R94). COL_CMD operation 0b011 issues a program-and-verify write, or is refused. -/
  | program (inst : Nat) (source : Nat) (scale : Nat) (exempt : Bool)
  /-- COLUMN_WRITE_START (R95). A queued column write starts once the verify ends, counting in the ledger. -/
  | columnWriteStart (die : Nat) (p : Nat)
  /-- COLUMN_WRITE_DONE (R94). A column write ends in success, failure or invalid target. -/
  | columnWriteDone (die : Nat) (p : Nat) (iters : List Nat) (held : List Int) (ap : Nat)
  /-- SLEEP (R112). Powers an array die down or up, or is refused. -/
  | sleep (die : Nat) (value : Bool)
  /-- LEDGER_SAVE (R96). Firmware copies the ledgers to the shelf at least every 60 s. -/
  | ledgerSave
  /-- LARDER_FLUSH (R147). Clears every valid bit of a row engine's larder. -/
  | larderFlush (inst : Nat)
  /-- STORE_ACK (R278). The driver acknowledges the storeroom image and frees the staging region. -/
  | storeAck
  /-- STAGING_LOADED (R294). The driver reports storeroom records loaded into staging for a rollback. -/
  | stagingLoaded
  /-- SHELF_STAGING_DONE (R276). The shelf image copy into staging completes and the held vote is released. -/
  | shelfStagingDone
  /-- SHELF_WRITE_DONE (R277). The shelf image write to flash completes or fails. -/
  | shelfWriteDone (ok : Bool)
  /-- RESTORE_DONE (R294). Firmware finishes loading epoch E for a rollback and sets RESTORE_DONE. -/
  | restoreDone (loads : List (Nat × List Byte))
  /-- SYNC_TX (R314). As PTP master, the part sends a two-step Sync and its Follow_Up at each sync interval. -/
  | syncTx (stamp : Nat)
  /-- ANNOUNCE_TX (R314). As PTP master under the best master clock algorithm, the part sends an Announce at each announce interval. -/
  | announceTx
  /-- DELAY_REQ_TX (R317). As PTP slave, the part sends a Delay_Req, recording t3 and counting DELAY_REQ_TX. -/
  | delayReqTx (stamp : Nat)
  /-- DISCARDED_FRAME (R301). A received frame is discarded and counted for a bad FCS, size, address, EtherType, or Rhazo header or subtype. -/
  | discardedFrame (f : Frame) (why : Discard)
  /-- ROOT_PLL_LOST_LOCK (R384). The root PLL loses lock after having locked, a device-fatal error with fatal code 0x4 and a dump timed by the on-package oscillator. -/
  | rootPllLostLock
  /-- RESET_KEY_RELEASE (R370). The 1 ms internal reset begun by RESET_KEY ends, and the main domain comes out of reset and brings itself up. -/
  | resetKeyRelease
  /-- BAR2_ACCESS (R326). A host access through the BAR2 window reaches device memory, counting window misses, returning poisoned data or clearing or keeping poison. -/
  | bar2Access (offset : Nat) (width : Nat) (data : Option Nat)
  /-- ARRAY_DIE_POWERED_DOWN (R112). Once firmware has copied the ledgers, the part stops the die's work and removes its array supply, and its groups report reason 0x0C. -/
  | arrayDiePoweredDown (die : Nat)
  /-- ARRAY_DIE_POWERED_UP (R112). The array supply is restored and the ledgers are restored, and the die's groups start the verify of R109. -/
  | arrayDiePoweredUp (die : Nat)
  /-- BUS_MASTER_ENABLE (R323). A configuration write changes Bus Master Enable, suppressing or restoring every read and write of host memory. -/
  | busMasterEnable (value : Bool)
  /-- D0_ENTRY (R323). The function returns from D3hot to D0, and host-memory access becomes possible again. -/
  | d0Entry
  deriving DecidableEq, Repr

end Sys2Proof
end

