-- ==== Sys2Proof/Decode.lean ====
section
/-! DEFINITION. The commands that a word spells. No row of spec/opcode_table.json gives its command bits of its own (its
rows carry no mask, no pattern and no length), so no word spells a command. The 256-bit command words that the
sequencers run (R174 to R180) stand in bins, in memory, and are read by the meanings of the stream commands. -/

namespace Sys2Proof

/-- The command that a word of `nbits` bits spells by the table's bits: none, since the table gives none
(DESIGN CHOICE, log 11). -/
def decodeTableWord (_nbits _w : Nat) : Option Instr := none

end Sys2Proof
end

