-- ==== Sys2Proof/Config.lean ====
section
/-! DEFINITION. What an implementation fixes and the values the spec leaves open. An `opaque` constant
has no body: nothing can evaluate it, so a statement holds for every value of it. -/

namespace Sys2Proof

/-- The three assembly variants (R1). -/
inductive Variant where
  | t64b | t64m | t64n
  deriving DecidableEq, Repr

/-- The variant code (R1, R3). -/
def Variant.code : Variant → Nat
  | .t64b => 0
  | .t64m => 1
  | .t64n => 2

/-- Memory stacks fitted (R1). -/
def Variant.stacks : Variant → Nat
  | .t64b => 16
  | .t64m => 20
  | .t64n => 12

/-- I/O dies, and so ports, fitted (R1). -/
def Variant.ports : Variant → Nat
  | .t64b => 8
  | .t64m => 4
  | .t64n => 12

/-- Memory-controller sites used on each digital die (R1). -/
def Variant.mcUsed : Variant → Nat
  | .t64b => 4
  | .t64m => 5
  | .t64n => 3

/-- Usable memory in bytes: 80 % of 64 GiB a stack (R1). Device memory is the addresses below it
(DESIGN CHOICE, log 6). -/
def Variant.memBytes (v : Variant) : Nat := v.stacks * (64 * 2 ^ 30) * 4 / 5

/-- A value the spec leaves open, the `n`-th the machine has met (DESIGN CHOICE, log 3). -/
opaque Config.freeValue : Nat → Nat

/-- What a byte outside the memory, scratchpad or segment buffer it is addressed in reads as: the spec
gives no result there (DESIGN CHOICE, log 7). -/
opaque Config.unbackedByte : Nat → Byte

/-- Which memory controller holds a device address: the spec does not give the interleaving (DESIGN CHOICE, log 8). -/
opaque Config.memController : Nat → Nat

/-- A membership rank is in the split group of a membership generation: the spec fixes the group at the membership commit
and gives no field that carries it (DESIGN CHOICE, log 12). -/
opaque Config.splitMember : Nat → Nat → Bool

/-- The owner of a bucket asks this device, in a membership generation, for its shelf record of the bucket: the spec has an
owner take a record from another device's shelf, and does not say how it asks (DESIGN CHOICE, log 142). -/
opaque Config.shelfAsked : Nat → Nat → Bool

/-- Where the buffer for the reduced shard of a bucket lies that a device allocates as its receiver (R273), in mirror mode the
same on every member: the spec leaves the place to firmware (DEDUCED, log 75). -/
opaque Config.shardBuffer : Nat → Nat

/-- The sum c of a merged row whose partials no MERGE_C has summed (DESIGN CHOICE, log 13). -/
opaque Config.unsummedC : Nat → BitVec 32

/-- Whether a cellar copy that this device neither owns nor holds is valid, by bucket + 65,536 × generation: no
message tells a member so (DESIGN CHOICE, log 26). -/
opaque Config.cellarElsewhere : Nat → Bool

/-- The integer a clamp of R79 is given where the value to round is a NaN: the spec states no result
(DESIGN CHOICE, log 127). -/
opaque Config.nanRound : Int

/-- Where firmware has the masters of column `j` of logical array `l` of an array die, and how many of the array's rows are
padding: the spec leaves the layout to firmware (DESIGN CHOICE, log 118). -/
opaque Config.columnMasters : Nat → Nat → Nat → Nat
opaque Config.paddingRows : Nat → Nat → Nat

/-- Scratchpad address of a query's buffer, by endpoint + 256 × the number of the query: the spec gives no place for
it (DESIGN CHOICE, log 27). -/
opaque Config.queryBuffer : Nat → Nat

end Sys2Proof
end

