-- ==== Sys2Proof/Machine/Fields.lean ====
section
/-! DEFINITION. The register map: every field of every page table of the spec, with its page type,
offset, bits, access type and reset value (R7, R69, R89, R114, R115, R128, R152, R153, R168, R201, R222,
R223, R254, R269, R270, R298, R319, R320, R342 to R344, R346 to R356, R364, R365, R378, R392, R393, R395).
A name is a page's two letters and the field's own name: `F.sq_GUARD_POLICY` is GUARD_POLICY of the
sequencer-and-queue page. -/

namespace Sys2Proof.Machine

/-- The access types of R7. -/
inductive Acc where
  | ro | rw | wo | w1c | st | sat
  deriving DecidableEq, Repr

/-- How a page's window registers choose the copy of a windowed field. `page`: one copy for a page.
`elem`: a packed table, one copy for an element. The others name the window of the field's own chapter. -/
inductive Win where
  | page | elem | arr | arrSlot | conv | slice | col | row | remap | seq | seqReg | queue
  | endpoint | bucket | bucketRank | layer | zone | ring | log | sensor | larder
  deriving DecidableEq, Repr

/-- One field of the register map. `page` 0 is the common layout of every page (R346). A packed table
has `regs` registers of `per` elements, `stride` bits apart. `only` 1: significant on instance 0 only;
16: on instances that are multiples of 16 only. -/
structure Field where
  fid : Nat
  page : Nat
  off : Nat
  lo : Nat
  width : Nat
  acc : Acc
  rst : Nat
  win : Win
  regs : Nat
  per : Nat
  stride : Nat
  only : Nat
  deriving DecidableEq, Repr

namespace F

/-- R346. -/
def com_TYPE : Field := ⟨0, 0x00, 0x000, 0, 8, .ro, 0, .page, 1, 1, 0, 0⟩
/-- R346. -/
def com_INSTANCE : Field := ⟨1, 0x00, 0x000, 8, 16, .ro, 0, .page, 1, 1, 0, 0⟩
/-- R346. -/
def com_LAYOUT : Field := ⟨2, 0x00, 0x000, 24, 8, .ro, 1, .page, 1, 1, 0, 0⟩
/-- R350. -/
def com_READY : Field := ⟨3, 0x00, 0x040, 0, 1, .ro, 0, .page, 1, 1, 0, 0⟩
/-- R350. -/
def com_FAULT : Field := ⟨4, 0x00, 0x040, 1, 1, .ro, 0, .page, 1, 1, 0, 0⟩
/-- R350. -/
def com_EXPERT_ACTIVE : Field := ⟨5, 0x00, 0x040, 2, 1, .ro, 0, .page, 1, 1, 0, 0⟩
/-- R350. -/
def com_EXPERT_DENIED : Field := ⟨6, 0x00, 0x040, 3, 1, .w1c, 0, .page, 1, 1, 0, 0⟩
/-- R351. -/
def com_REASON : Field := ⟨7, 0x00, 0x048, 0, 8, .ro, 1, .page, 1, 1, 0, 0⟩
/-- R351. -/
def com_DETAIL : Field := ⟨8, 0x00, 0x048, 8, 24, .ro, 0, .page, 1, 1, 0, 0⟩
/-- R353. -/
def com_SAT_LO : Field := ⟨9, 0x00, 0x050, 0, 64, .ro, 0, .page, 1, 1, 0, 0⟩
/-- R353. -/
def com_SAT_HI : Field := ⟨10, 0x00, 0x058, 0, 64, .ro, 0, .page, 1, 1, 0, 0⟩
/-- R353. -/
def com_SAT_TBL : Field := ⟨11, 0x00, 0x060, 0, 1, .ro, 0, .page, 1, 1, 0, 0⟩
/-- R355. -/
def com_EXPERT_EN : Field := ⟨12, 0x00, 0x0F0, 0, 1, .rw, 0, .page, 1, 1, 0, 0⟩
/-- R355. -/
def com_EXPERT_RESTORE : Field := ⟨13, 0x00, 0x0F0, 1, 1, .wo, 0, .page, 1, 1, 0, 0⟩
/-- R69. -/
def ag_ARRAY : Field := ⟨14, 0x11, 0x0A0, 0, 6, .rw, 0, .page, 1, 1, 0, 0⟩
/-- R69. -/
def ag_ROW_BLOCK : Field := ⟨15, 0x11, 0x0A0, 8, 2, .rw, 0, .page, 1, 1, 0, 0⟩
/-- R69. -/
def ag_RANGE_GAIN : Field := ⟨16, 0x11, 0x140, 0, 2, .st, 0, .elem, 2, 32, 2, 0⟩
/-- R69. -/
def ag_OUTLIER_ROW : Field := ⟨17, 0x11, 0x150, 0, 9, .st, 0, .arrSlot, 2, 4, 16, 0⟩
/-- R69. -/
def ag_OUTLIER_VALID : Field := ⟨18, 0x11, 0x150, 15, 1, .st, 0, .arrSlot, 2, 4, 16, 0⟩
/-- R69. -/
def ag_DENSE_BUSY : Field := ⟨19, 0x11, 0x280, 0, 64, .ro, 0, .page, 1, 1, 0, 0⟩
/-- R69. -/
def ag_SPARSE_BUSY : Field := ⟨20, 0x11, 0x288, 0, 64, .ro, 0, .page, 1, 1, 0, 0⟩
/-- R69. -/
def ag_SKIPPED_ROUNDS : Field := ⟨21, 0x11, 0x290, 0, 64, .ro, 0, .page, 1, 1, 0, 0⟩
/-- R69. -/
def ag_ZERO_INPUT_PRODUCTS : Field := ⟨22, 0x11, 0x298, 0, 32, .sat, 0, .page, 1, 1, 0, 0⟩
/-- R69. -/
def ag_CLIPPED_PRODUCTS : Field := ⟨23, 0x11, 0x298, 32, 32, .sat, 0, .page, 1, 1, 0, 0⟩
/-- R69. -/
def ag_ROW_GAIN_CUR : Field := ⟨24, 0x11, 0x600, 0, 8, .ro, 64, .row, 16, 8, 8, 0⟩
/-- R69. -/
def ag_ROW_GAIN_STG : Field := ⟨25, 0x11, 0x680, 0, 8, .st, 64, .row, 16, 8, 8, 0⟩
/-- R89. -/
def ag_CONVERTER : Field := ⟨26, 0x11, 0x0A8, 0, 7, .rw, 0, .page, 1, 1, 0, 0⟩
/-- R89. -/
def ag_COLUMN : Field := ⟨27, 0x11, 0x0A8, 8, 9, .rw, 0, .page, 1, 1, 0, 0⟩
/-- R89. -/
def ag_CLEAR_SEL : Field := ⟨28, 0x11, 0x0A8, 32, 1, .wo, 0, .page, 1, 1, 0, 0⟩
/-- R89. -/
def ag_BAND_PRESET : Field := ⟨29, 0x11, 0x0B0, 0, 2, .rw, 1, .page, 1, 1, 0, 0⟩
/-- R89. -/
def ag_VERIFY_REQ : Field := ⟨30, 0x11, 0x0B0, 8, 1, .wo, 0, .page, 1, 1, 0, 0⟩
/-- R89. -/
def ag_LOAD_HOLD : Field := ⟨31, 0x11, 0x0B0, 9, 1, .rw, 0, .page, 1, 1, 0, 0⟩
/-- R89. -/
def ag_BAND_EVENT_SEEN : Field := ⟨32, 0x11, 0x0B8, 0, 1, .w1c, 0, .page, 1, 1, 0, 0⟩
/-- R89. -/
def ag_REF_CELL_EVENT : Field := ⟨33, 0x11, 0x0B8, 1, 1, .w1c, 0, .page, 1, 1, 0, 0⟩
/-- R89. -/
def ag_TRIM_LIMIT : Field := ⟨34, 0x11, 0x0B8, 2, 1, .w1c, 0, .page, 1, 1, 0, 0⟩
/-- R89. -/
def ag_SWEEP_STALE : Field := ⟨35, 0x11, 0x0B8, 3, 1, .w1c, 0, .page, 1, 1, 0, 0⟩
/-- R89. -/
def ag_VERIFY_REFUSED : Field := ⟨36, 0x11, 0x0B8, 4, 1, .w1c, 0, .page, 1, 1, 0, 0⟩
/-- R89. -/
def ag_LOAD_REFUSED : Field := ⟨37, 0x11, 0x0B8, 5, 1, .w1c, 0, .page, 1, 1, 0, 0⟩
/-- R89. -/
def ag_STANDBY_READY : Field := ⟨38, 0x11, 0x0B8, 8, 1, .ro, 0, .arr, 1, 1, 0, 0⟩
/-- R89. -/
def ag_VERIFIED : Field := ⟨39, 0x11, 0x0B8, 9, 1, .ro, 0, .arr, 1, 1, 0, 0⟩
/-- R89. -/
def ag_VERIFY_RUNNING : Field := ⟨40, 0x11, 0x0B8, 10, 1, .ro, 0, .page, 1, 1, 0, 0⟩
/-- R89. -/
def ag_SWEEP_POS : Field := ⟨41, 0x11, 0x0B8, 16, 11, .ro, 0, .arr, 1, 1, 0, 0⟩
/-- R89. -/
def ag_SWEEP_DONE : Field := ⟨42, 0x11, 0x200, 0, 64, .ro, 0, .page, 1, 1, 0, 0⟩
/-- R89. -/
def ag_SWEEP_ABORTS : Field := ⟨43, 0x11, 0x208, 0, 32, .sat, 0, .page, 1, 1, 0, 0⟩
/-- R89. -/
def ag_BAND_EVENTS : Field := ⟨44, 0x11, 0x208, 32, 32, .sat, 0, .page, 1, 1, 0, 0⟩
/-- R89. -/
def ag_TABLE_SWAPS : Field := ⟨45, 0x11, 0x210, 0, 32, .sat, 0, .page, 1, 1, 0, 0⟩
/-- R89. -/
def ag_CYCLES_DONE : Field := ⟨46, 0x11, 0x210, 32, 32, .sat, 0, .page, 1, 1, 0, 0⟩
/-- R89. -/
def ag_CONVERSIONS : Field := ⟨47, 0x11, 0x218, 0, 32, .sat, 0, .conv, 1, 1, 0, 0⟩
/-- R89. -/
def ag_CLIPPED : Field := ⟨48, 0x11, 0x218, 32, 32, .sat, 0, .conv, 1, 1, 0, 0⟩
/-- R89. -/
def ag_RAIL_HITS : Field := ⟨49, 0x11, 0x220, 0, 32, .sat, 0, .page, 1, 1, 0, 0⟩
/-- R89. -/
def ag_AUDIT_SSE : Field := ⟨50, 0x11, 0x228, 0, 32, .ro, 0, .page, 1, 1, 0, 0⟩
/-- R89. -/
def ag_AUDIT_SAMPLES : Field := ⟨51, 0x11, 0x228, 32, 32, .sat, 0, .page, 1, 1, 0, 0⟩
/-- R89. -/
def ag_TRIM_CUR : Field := ⟨52, 0x11, 0x400, 0, 64, .ro, 0, .slice, 4, 1, 0, 0⟩
/-- R89. -/
def ag_TRIM_STBY : Field := ⟨53, 0x11, 0x420, 0, 64, .ro, 0, .slice, 4, 1, 0, 0⟩
/-- R89. -/
def ag_COLSUM_CUR : Field := ⟨54, 0x11, 0x440, 0, 32, .ro, 0, .col, 1, 1, 0, 0⟩
/-- R89. -/
def ag_COLSUM_STBY : Field := ⟨55, 0x11, 0x440, 32, 32, .ro, 0, .col, 1, 1, 0, 0⟩
/-- R89. -/
def ag_COLSUM_STG : Field := ⟨56, 0x11, 0x448, 0, 32, .ro, 0, .col, 1, 1, 0, 0⟩
/-- R89. -/
def ag_STG_VALID : Field := ⟨57, 0x11, 0x448, 32, 1, .ro, 0, .arr, 1, 1, 0, 0⟩
/-- R89. -/
def ag_STBY_MEASURED : Field := ⟨58, 0x11, 0x448, 33, 1, .ro, 0, .col, 1, 1, 0, 0⟩
/-- R89. -/
def ag_NOM_CUR : Field := ⟨59, 0x11, 0x450, 0, 32, .rw, 0, .col, 1, 1, 0, 0⟩
/-- R89. -/
def ag_NOM_STG : Field := ⟨60, 0x11, 0x450, 32, 32, .rw, 0, .col, 1, 1, 0, 0⟩
/-- R89. -/
def ag_OFFSET_BAND : Field := ⟨61, 0x11, 0x800, 0, 16, .rw, 128, .page, 1, 1, 0, 0⟩
/-- R89. -/
def ag_SKEW_BAND : Field := ⟨62, 0x11, 0x800, 16, 16, .rw, 128, .page, 1, 1, 0, 0⟩
/-- R89. -/
def ag_GAIN_BAND : Field := ⟨63, 0x11, 0x808, 0, 16, .rw, 655, .page, 1, 1, 0, 0⟩
/-- R89. -/
def ag_COLSUM_REL : Field := ⟨64, 0x11, 0x808, 16, 16, .rw, 1311, .page, 1, 1, 0, 0⟩
/-- R89. -/
def ag_COLSUM_ABS : Field := ⟨65, 0x11, 0x808, 32, 16, .rw, 64, .page, 1, 1, 0, 0⟩
/-- R89. -/
def ag_TRIM_FILTER : Field := ⟨66, 0x11, 0x810, 0, 2, .rw, 3, .page, 1, 1, 0, 0⟩
/-- R89. -/
def ag_SWEEP_HOLD : Field := ⟨67, 0x11, 0x810, 2, 1, .rw, 0, .page, 1, 1, 0, 0⟩
/-- R89. -/
def ag_STALE_LIMIT : Field := ⟨68, 0x11, 0x810, 32, 32, .rw, 100000, .page, 1, 1, 0, 0⟩
/-- R114. -/
def ag_COL_OP : Field := ⟨69, 0x11, 0x0C0, 0, 3, .wo, 0, .page, 1, 1, 0, 0⟩
/-- R114. -/
def ag_SOURCE : Field := ⟨70, 0x11, 0x0C0, 3, 1, .wo, 0, .page, 1, 1, 0, 0⟩
/-- R114. -/
def ag_WRITE_SCALE : Field := ⟨71, 0x11, 0x0C0, 8, 16, .wo, 0, .page, 1, 1, 0, 0⟩
/-- R114. -/
def ag_EXEMPT : Field := ⟨72, 0x11, 0x0C0, 24, 1, .wo, 0, .page, 1, 1, 0, 0⟩
/-- R114. -/
def ag_REFUSED : Field := ⟨73, 0x11, 0x0C0, 25, 1, .ro, 0, .page, 1, 1, 0, 0⟩
/-- R114. -/
def ag_REFUSE_CODE : Field := ⟨74, 0x11, 0x0C0, 26, 4, .ro, 0, .page, 1, 1, 0, 0⟩
/-- R114. -/
def ag_DATA_ADDR : Field := ⟨75, 0x11, 0x0C8, 0, 48, .rw, 0, .page, 1, 1, 0, 0⟩
/-- R114. -/
def ag_APPLIED_SCALE : Field := ⟨76, 0x11, 0x160, 0, 16, .st, 16256, .col, 1, 1, 0, 0⟩
/-- R114. -/
def ag_FOLD_EXP : Field := ⟨77, 0x11, 0x160, 16, 2, .st, 0, .col, 1, 1, 0, 0⟩
/-- R114. -/
def ag_READMIT : Field := ⟨78, 0x11, 0x160, 18, 1, .st, 0, .col, 1, 1, 0, 0⟩
/-- R114. -/
def ag_SRC_ARRAY : Field := ⟨79, 0x11, 0x168, 0, 14, .st, 0, .arr, 1, 1, 0, 0⟩
/-- R114. -/
def ag_SRC_VALID : Field := ⟨80, 0x11, 0x168, 15, 1, .st, 0, .arr, 1, 1, 0, 0⟩
/-- R114. -/
def ag_REWRITES : Field := ⟨81, 0x11, 0x230, 0, 32, .sat, 0, .page, 1, 1, 0, 0⟩
/-- R114. -/
def ag_WRITE_FAILS : Field := ⟨82, 0x11, 0x230, 32, 32, .sat, 0, .page, 1, 1, 0, 0⟩
/-- R114. -/
def ag_EVICT_REFUSED : Field := ⟨83, 0x11, 0x238, 0, 32, .sat, 0, .page, 1, 1, 0, 0⟩
/-- R114. -/
def ag_SCALE_LIMITED : Field := ⟨84, 0x11, 0x238, 32, 16, .sat, 0, .page, 1, 1, 0, 0⟩
/-- R114. -/
def ag_NONFINITE_COLS : Field := ⟨85, 0x11, 0x238, 48, 16, .sat, 0, .page, 1, 1, 0, 0⟩
/-- R114. -/
def ag_WRITE_SLOTS : Field := ⟨86, 0x11, 0x240, 0, 64, .ro, 0, .page, 1, 1, 0, 0⟩
/-- R114. -/
def ag_APPLIED_CUR : Field := ⟨87, 0x11, 0x458, 0, 16, .ro, 16256, .col, 1, 1, 0, 0⟩
/-- R114. -/
def ag_FOLD_CUR : Field := ⟨88, 0x11, 0x458, 16, 2, .ro, 0, .col, 1, 1, 0, 0⟩
/-- R114. -/
def ag_IN_BYPASS : Field := ⟨89, 0x11, 0x458, 18, 1, .ro, 0, .col, 1, 1, 0, 0⟩
/-- R114. -/
def ag_PERMANENT : Field := ⟨90, 0x11, 0x458, 19, 1, .ro, 0, .col, 1, 1, 0, 0⟩
/-- R114. -/
def ag_WRITE_STATE : Field := ⟨91, 0x11, 0x458, 20, 3, .ro, 0, .col, 1, 1, 0, 0⟩
/-- R114. -/
def ag_PROG_COUNT : Field := ⟨92, 0x11, 0x460, 0, 32, .rw, 0, .col, 1, 1, 0, 0⟩
/-- R114. -/
def ag_LAST_STEP : Field := ⟨93, 0x11, 0x460, 32, 32, .rw, 0, .col, 1, 1, 0, 0⟩
/-- R114. -/
def ag_BYPASSED : Field := ⟨94, 0x11, 0x468, 0, 6, .ro, 0, .arr, 1, 1, 0, 0⟩
/-- R114. -/
def ag_PERM_COUNT : Field := ⟨95, 0x11, 0x468, 6, 6, .ro, 0, .arr, 1, 1, 0, 0⟩
/-- R114. -/
def ag_BYPASS_LIMIT : Field := ⟨96, 0x11, 0x468, 12, 6, .ro, 24, .arr, 1, 1, 0, 0⟩
/-- R114. -/
def ag_QUEUE_DEPTH : Field := ⟨97, 0x11, 0x468, 18, 10, .ro, 0, .arr, 1, 1, 0, 0⟩
/-- R114. -/
def ag_DRIFT_MAX : Field := ⟨98, 0x11, 0x468, 32, 32, .ro, 0, .arr, 1, 1, 0, 0⟩
/-- R114. -/
def ag_ROW_GAIN_BASE : Field := ⟨99, 0x11, 0x700, 0, 8, .st, 64, .row, 16, 8, 8, 0⟩
/-- R115. -/
def ad_PRESET : Field := ⟨100, 0x10, 0x080, 0, 2, .rw, 1, .page, 1, 1, 0, 0⟩
/-- R115. -/
def ad_PAUSE : Field := ⟨101, 0x10, 0x080, 8, 1, .rw, 0, .page, 1, 1, 0, 0⟩
/-- R115. -/
def ad_LEDGER_UNKNOWN : Field := ⟨102, 0x10, 0x080, 9, 1, .w1c, 0, .page, 1, 1, 0, 0⟩
/-- R115. -/
def ad_SLEEP : Field := ⟨103, 0x10, 0x080, 10, 1, .rw, 0, .page, 1, 1, 0, 0⟩
/-- R115. -/
def ad_SLEEP_REFUSED : Field := ⟨104, 0x10, 0x080, 11, 1, .w1c, 0, .page, 1, 1, 0, 0⟩
/-- R115. -/
def ad_REMAP_BLOCK : Field := ⟨105, 0x10, 0x088, 0, 4, .rw, 0, .page, 1, 1, 0, 0⟩
/-- R115. -/
def ad_SPARE_PHYS : Field := ⟨106, 0x10, 0x090, 0, 11, .rw, 1024, .page, 1, 1, 0, 0⟩
/-- R115. -/
def ad_GROUP : Field := ⟨107, 0x10, 0x090, 16, 4, .rw, 0, .page, 1, 1, 0, 0⟩
/-- R115. -/
def ad_ENABLE : Field := ⟨108, 0x10, 0x090, 20, 1, .rw, 0, .page, 1, 1, 0, 0⟩
/-- R115. -/
def ad_REMAP_STG : Field := ⟨109, 0x10, 0x400, 0, 11, .st, 0, .remap, 16, 4, 16, 0⟩
/-- R115. -/
def ad_REMAP_CUR : Field := ⟨110, 0x10, 0x480, 0, 11, .ro, 0, .remap, 16, 4, 16, 0⟩
/-- R115. -/
def ad_SPARES_FREE : Field := ⟨111, 0x10, 0x500, 0, 5, .ro, 16, .page, 1, 1, 0, 0⟩
/-- R115. -/
def ad_RETIRED : Field := ⟨112, 0x10, 0x500, 16, 11, .ro, 0, .page, 1, 1, 0, 0⟩
/-- R115. -/
def ad_DRIFT_THRESH : Field := ⟨113, 0x10, 0x800, 0, 16, .rw, 192, .page, 1, 1, 0, 0⟩
/-- R115. -/
def ad_RATE_STEPS : Field := ⟨114, 0x10, 0x800, 16, 16, .rw, 50, .page, 1, 1, 0, 0⟩
/-- R115. -/
def ad_LIFE_BUDGET : Field := ⟨115, 0x10, 0x800, 32, 32, .rw, 80000, .page, 1, 1, 0, 0⟩
/-- R115. -/
def ad_RETRY_MAX : Field := ⟨116, 0x10, 0x808, 0, 4, .rw, 2, .page, 1, 1, 0, 0⟩
/-- R115. -/
def ad_RETIRE_LEVEL : Field := ⟨117, 0x10, 0x808, 4, 6, .rw, 30, .page, 1, 1, 0, 0⟩
/-- R115. -/
def ad_ITER_MAX : Field := ⟨118, 0x10, 0x808, 10, 6, .rw, 48, .page, 1, 1, 0, 0⟩
/-- R115. -/
def ad_LEDGER_LOSS_ADD : Field := ⟨119, 0x10, 0x808, 16, 16, .rw, 64, .page, 1, 1, 0, 0⟩
/-- R128. -/
def ag_AUDIT_EN : Field := ⟨120, 0x11, 0x0D0, 0, 1, .rw, 1, .page, 1, 1, 0, 0⟩
/-- R128. -/
def ag_AUDIT_CLEAR : Field := ⟨121, 0x11, 0x0D0, 1, 1, .wo, 0, .page, 1, 1, 0, 0⟩
/-- R128. -/
def ag_AUDIT_PAUSED : Field := ⟨122, 0x11, 0x0D0, 8, 1, .ro, 0, .arr, 1, 1, 0, 0⟩
/-- R128. -/
def ag_IMAGE_BASE : Field := ⟨123, 0x11, 0x170, 0, 48, .st, 0, .page, 1, 1, 0, 0⟩
/-- R128. -/
def ag_AUDIT_SKIPS : Field := ⟨124, 0x11, 0x248, 0, 32, .sat, 0, .page, 1, 1, 0, 0⟩
/-- R128. -/
def ag_OUTQ_CLIPS : Field := ⟨125, 0x11, 0x248, 32, 32, .sat, 0, .page, 1, 1, 0, 0⟩
/-- R128. -/
def ag_OUTQ_NONFINITE : Field := ⟨126, 0x11, 0x250, 0, 32, .sat, 0, .page, 1, 1, 0, 0⟩
/-- R128. -/
def ag_FOLD_STALE : Field := ⟨127, 0x11, 0x250, 32, 32, .sat, 0, .page, 1, 1, 0, 0⟩
/-- R128. -/
def ag_DRIFT_EPOCH : Field := ⟨128, 0x11, 0x470, 0, 64, .ro, 0, .arr, 1, 1, 0, 0⟩
/-- R128. -/
def ag_FOLD_GEN : Field := ⟨129, 0x11, 0x478, 0, 2, .ro, 0, .arr, 1, 1, 0, 0⟩
/-- R128. -/
def ag_AUDIT_STRIDE : Field := ⟨130, 0x11, 0x818, 0, 9, .rw, 1, .page, 1, 1, 0, 0⟩
/-- R152. -/
def mx_ENGINES : Field := ⟨131, 0x21, 0x008, 0, 8, .ro, 8, .page, 1, 1, 0, 0⟩
/-- R152. -/
def mx_TILE_DIM : Field := ⟨132, 0x21, 0x008, 8, 8, .ro, 128, .page, 1, 1, 0, 0⟩
/-- R152. -/
def mx_KBLOCK : Field := ⟨133, 0x21, 0x008, 16, 8, .ro, 32, .page, 1, 1, 0, 0⟩
/-- R152. -/
def mx_CNT_CLEAR : Field := ⟨134, 0x21, 0x0F8, 0, 1, .wo, 0, .page, 1, 1, 0, 0⟩
/-- R152. -/
def mx_TILES_DONE : Field := ⟨135, 0x21, 0x200, 0, 64, .ro, 0, .page, 1, 1, 0, 0⟩
/-- R152. -/
def mx_BUSY_CYCLES : Field := ⟨136, 0x21, 0x208, 0, 64, .ro, 0, .page, 1, 1, 0, 0⟩
/-- R152. -/
def mx_UNDERFLOWS : Field := ⟨137, 0x21, 0x210, 0, 32, .sat, 0, .page, 1, 1, 0, 0⟩
/-- R152. -/
def mx_OVERFLOW_ELEMS : Field := ⟨138, 0x21, 0x210, 32, 32, .sat, 0, .page, 1, 1, 0, 0⟩
/-- R152. -/
def mx_NONFINITE_CMDS : Field := ⟨139, 0x21, 0x218, 0, 32, .sat, 0, .page, 1, 1, 0, 0⟩
/-- R152. -/
def mx_MARKERS_READ : Field := ⟨140, 0x21, 0x218, 32, 32, .sat, 0, .page, 1, 1, 0, 0⟩
/-- R152. -/
def mx_TRANSPOSE_MISALIGN : Field := ⟨141, 0x21, 0x220, 0, 32, .sat, 0, .page, 1, 1, 0, 0⟩
/-- R153. -/
def re_LARDER_ENTRIES : Field := ⟨142, 0x23, 0x008, 0, 20, .ro, 524288, .page, 1, 1, 0, 0⟩
/-- R153. -/
def re_MAX_ROW : Field := ⟨143, 0x23, 0x008, 32, 17, .ro, 65536, .page, 1, 1, 0, 0⟩
/-- R153. -/
def re_ENTRY : Field := ⟨144, 0x23, 0x0A0, 0, 19, .rw, 0, .page, 1, 1, 0, 0⟩
/-- R153. -/
def re_CNT_CLEAR : Field := ⟨145, 0x23, 0x0F8, 0, 1, .wo, 0, .page, 1, 1, 0, 0⟩
/-- R153. -/
def re_ROWS_FWD : Field := ⟨146, 0x23, 0x200, 0, 64, .ro, 0, .page, 1, 1, 0, 0⟩
/-- R153. -/
def re_ROWS_BWD : Field := ⟨147, 0x23, 0x208, 0, 64, .ro, 0, .page, 1, 1, 0, 0⟩
/-- R153. -/
def re_LARDER_HITS : Field := ⟨148, 0x23, 0x210, 0, 32, .sat, 0, .page, 1, 1, 0, 0⟩
/-- R153. -/
def re_MISS_INVALID : Field := ⟨149, 0x23, 0x210, 32, 32, .sat, 0, .page, 1, 1, 0, 0⟩
/-- R153. -/
def re_MISS_KEY : Field := ⟨150, 0x23, 0x218, 0, 32, .sat, 0, .page, 1, 1, 0, 0⟩
/-- R153. -/
def re_FALLBACK_ELEMS : Field := ⟨151, 0x23, 0x218, 32, 32, .sat, 0, .page, 1, 1, 0, 0⟩
/-- R153. -/
def re_MERGE_MISS : Field := ⟨152, 0x23, 0x220, 0, 32, .sat, 0, .page, 1, 1, 0, 0⟩
/-- R153. -/
def re_MERGES : Field := ⟨153, 0x23, 0x220, 32, 32, .sat, 0, .page, 1, 1, 0, 0⟩
/-- R153. -/
def re_UNDERFLOWS : Field := ⟨154, 0x23, 0x228, 0, 32, .sat, 0, .page, 1, 1, 0, 0⟩
/-- R153. -/
def re_NONFINITE_CMDS : Field := ⟨155, 0x23, 0x228, 32, 32, .sat, 0, .page, 1, 1, 0, 0⟩
/-- R153. -/
def re_STAT_A : Field := ⟨156, 0x23, 0x400, 0, 32, .ro, 0, .larder, 1, 1, 0, 0⟩
/-- R153. -/
def re_STAT_B : Field := ⟨157, 0x23, 0x400, 32, 32, .ro, 0, .larder, 1, 1, 0, 0⟩
/-- R153. -/
def re_TAG_KEY : Field := ⟨158, 0x23, 0x408, 0, 16, .ro, 0, .larder, 1, 1, 0, 0⟩
/-- R153. -/
def re_TAG_VALID : Field := ⟨159, 0x23, 0x408, 16, 1, .ro, 0, .larder, 1, 1, 0, 0⟩
/-- R153. -/
def re_TAG_MERGED : Field := ⟨160, 0x23, 0x408, 17, 1, .ro, 0, .larder, 1, 1, 0, 0⟩
/-- R153. -/
def re_LARDER_FLUSH : Field := ⟨161, 0x23, 0x800, 0, 1, .wo, 0, .page, 1, 1, 0, 0⟩
/-- R168. -/
def ve_LANES : Field := ⟨162, 0x22, 0x008, 0, 9, .ro, 256, .page, 1, 1, 0, 0⟩
/-- R168. -/
def ve_MAX_STREAM : Field := ⟨163, 0x22, 0x008, 16, 17, .ro, 65536, .page, 1, 1, 0, 0⟩
/-- R168. -/
def ve_HIST_BINS : Field := ⟨164, 0x22, 0x008, 48, 9, .ro, 256, .page, 1, 1, 0, 0⟩
/-- R168. -/
def ve_CNT_CLEAR : Field := ⟨165, 0x22, 0x0F8, 0, 1, .wo, 0, .page, 1, 1, 0, 0⟩
/-- R168. -/
def ve_OUTLIER_MIRROR : Field := ⟨166, 0x22, 0x178, 0, 48, .st, 0, .page, 1, 1, 0, 16⟩
/-- R168. -/
def ve_ELEMENTS_DONE : Field := ⟨167, 0x22, 0x200, 0, 64, .ro, 0, .page, 1, 1, 0, 0⟩
/-- R168. -/
def ve_BUSY_CYCLES : Field := ⟨168, 0x22, 0x208, 0, 64, .ro, 0, .page, 1, 1, 0, 0⟩
/-- R168. -/
def ve_UNDERFLOWS : Field := ⟨169, 0x22, 0x210, 0, 32, .sat, 0, .page, 1, 1, 0, 0⟩
/-- R168. -/
def ve_OVERFLOW_ELEMS : Field := ⟨170, 0x22, 0x210, 32, 32, .sat, 0, .page, 1, 1, 0, 0⟩
/-- R168. -/
def ve_NONFINITE_CMDS : Field := ⟨171, 0x22, 0x218, 0, 32, .sat, 0, .page, 1, 1, 0, 0⟩
/-- R168. -/
def ve_MARKERS_READ : Field := ⟨172, 0x22, 0x218, 32, 32, .sat, 0, .page, 1, 1, 0, 0⟩
/-- R168. -/
def ve_CLIPS : Field := ⟨173, 0x22, 0x220, 0, 32, .sat, 0, .page, 1, 1, 0, 0⟩
/-- R168. -/
def ve_STRAY_INDEX : Field := ⟨174, 0x22, 0x220, 32, 32, .sat, 0, .page, 1, 1, 0, 0⟩
/-- R168. -/
def ve_LENGTH_CLAMPED : Field := ⟨175, 0x22, 0x228, 0, 32, .sat, 0, .page, 1, 1, 0, 0⟩
/-- R168. -/
def ve_COMPACT_WRITTEN : Field := ⟨176, 0x22, 0x228, 32, 32, .sat, 0, .page, 1, 1, 0, 0⟩
/-- R201. -/
def sq_SEQUENCERS : Field := ⟨177, 0x25, 0x008, 0, 8, .ro, 153, .page, 1, 1, 0, 0⟩
/-- R201. -/
def sq_QUEUES : Field := ⟨178, 0x25, 0x008, 8, 11, .ro, 1024, .page, 1, 1, 0, 0⟩
/-- R201. -/
def sq_QUEUE_DEPTH : Field := ⟨179, 0x25, 0x008, 19, 8, .ro, 64, .page, 1, 1, 0, 0⟩
/-- R201. -/
def sq_BIN_CMDS : Field := ⟨180, 0x25, 0x008, 27, 12, .ro, 2048, .page, 1, 1, 0, 0⟩
/-- R201. -/
def sq_TRACKER : Field := ⟨181, 0x25, 0x008, 39, 16, .ro, 32768, .page, 1, 1, 0, 0⟩
/-- R201. -/
def sq_SEQ_SEL : Field := ⟨182, 0x25, 0x080, 0, 8, .rw, 0, .page, 1, 1, 0, 0⟩
/-- R201. -/
def sq_GUARD_POLICY : Field := ⟨183, 0x25, 0x080, 8, 1, .rw, 0, .page, 1, 1, 0, 0⟩
/-- R201. -/
def sq_TRACE_ALL : Field := ⟨184, 0x25, 0x080, 9, 1, .rw, 0, .page, 1, 1, 0, 0⟩
/-- R201. -/
def sq_LOAD_SEQ : Field := ⟨185, 0x25, 0x088, 0, 8, .rw, 0, .page, 1, 1, 0, 0⟩
/-- R201. -/
def sq_LOAD_BIN : Field := ⟨186, 0x25, 0x088, 8, 1, .rw, 0, .page, 1, 1, 0, 0⟩
/-- R201. -/
def sq_LOAD_GO : Field := ⟨187, 0x25, 0x088, 9, 1, .wo, 0, .page, 1, 1, 0, 0⟩
/-- R201. -/
def sq_LOAD_BUSY : Field := ⟨188, 0x25, 0x088, 10, 1, .ro, 0, .page, 1, 1, 0, 0⟩
/-- R201. -/
def sq_BIN_ADDR : Field := ⟨189, 0x25, 0x090, 0, 48, .rw, 0, .page, 1, 1, 0, 0⟩
/-- R201. -/
def sq_CODE : Field := ⟨190, 0x25, 0x098, 0, 4, .ro, 0, .page, 1, 1, 0, 0⟩
/-- R201. -/
def sq_INDEX : Field := ⟨191, 0x25, 0x098, 4, 11, .ro, 0, .page, 1, 1, 0, 0⟩
/-- R201. -/
def sq_WAIT_TIMEOUT : Field := ⟨192, 0x25, 0x0A0, 0, 32, .rw, 100000, .page, 1, 1, 0, 0⟩
/-- R201. -/
def sq_EXCH_WAIT_EXTRA : Field := ⟨193, 0x25, 0x0A0, 32, 32, .ro, 0, .page, 1, 1, 0, 0⟩
/-- R201. -/
def sq_PROG_GEN : Field := ⟨194, 0x25, 0x0A8, 0, 8, .ro, 0, .page, 1, 1, 0, 0⟩
/-- R201. -/
def sq_RUNNING : Field := ⟨195, 0x25, 0x0B0, 0, 1, .ro, 0, .page, 1, 1, 0, 0⟩
/-- R201. -/
def sq_FATAL : Field := ⟨196, 0x25, 0x0B0, 1, 1, .w1c, 0, .page, 1, 1, 0, 0⟩
/-- R201. -/
def sq_FATAL_KIND : Field := ⟨197, 0x25, 0x0B0, 2, 4, .ro, 0, .page, 1, 1, 0, 0⟩
/-- R201. -/
def sq_FATAL_TAG : Field := ⟨198, 0x25, 0x0B0, 6, 20, .ro, 0, .page, 1, 1, 0, 0⟩
/-- R201. -/
def sq_CNT_CLEAR : Field := ⟨199, 0x25, 0x0F8, 0, 1, .wo, 0, .page, 1, 1, 0, 0⟩
/-- R201. -/
def sq_SWITCH_STG : Field := ⟨200, 0x25, 0x100, 0, 1, .st, 0, .elem, 3, 64, 1, 0⟩
/-- R201. -/
def sq_ISSUED : Field := ⟨201, 0x25, 0x200, 0, 64, .ro, 0, .page, 1, 1, 0, 0⟩
/-- R201. -/
def sq_SKIPPED : Field := ⟨202, 0x25, 0x208, 0, 64, .ro, 0, .page, 1, 1, 0, 0⟩
/-- R201. -/
def sq_BIN_WRITE_REFUSED : Field := ⟨203, 0x25, 0x210, 0, 32, .sat, 0, .page, 1, 1, 0, 0⟩
/-- R201. -/
def sq_STALE_TOKENS : Field := ⟨204, 0x25, 0x210, 32, 32, .sat, 0, .page, 1, 1, 0, 0⟩
/-- R201. -/
def sq_GUARD_ENTRIES : Field := ⟨205, 0x25, 0x218, 0, 32, .sat, 0, .page, 1, 1, 0, 0⟩
/-- R201. -/
def sq_CREC_DROPPED : Field := ⟨206, 0x25, 0x218, 32, 32, .sat, 0, .page, 1, 1, 0, 0⟩
/-- R201. -/
def sq_TRACKER_OUT : Field := ⟨207, 0x25, 0x220, 0, 16, .ro, 0, .page, 1, 1, 0, 0⟩
/-- R201. -/
def sq_TRACKER_HIGH : Field := ⟨208, 0x25, 0x220, 16, 16, .ro, 0, .page, 1, 1, 0, 0⟩
/-- R201. -/
def sq_PC_INDEX : Field := ⟨209, 0x25, 0x400, 0, 11, .ro, 0, .seq, 1, 1, 0, 0⟩
/-- R201. -/
def sq_PC_BIN : Field := ⟨210, 0x25, 0x400, 11, 1, .ro, 0, .seq, 1, 1, 0, 0⟩
/-- R201. -/
def sq_VALID_0 : Field := ⟨211, 0x25, 0x400, 12, 1, .ro, 0, .seq, 1, 1, 0, 0⟩
/-- R201. -/
def sq_VALID_1 : Field := ⟨212, 0x25, 0x400, 13, 1, .ro, 0, .seq, 1, 1, 0, 0⟩
/-- R201. -/
def sq_STATE : Field := ⟨213, 0x25, 0x400, 14, 2, .ro, 0, .seq, 1, 1, 0, 0⟩
/-- R201. -/
def sq_PRED : Field := ⟨214, 0x25, 0x400, 16, 16, .ro, 0, .seq, 1, 1, 0, 0⟩
/-- R201. -/
def sq_STICKY : Field := ⟨215, 0x25, 0x400, 32, 3, .ro, 0, .seq, 1, 1, 0, 0⟩
/-- R201. -/
def sq_LAST_SKIP : Field := ⟨216, 0x25, 0x400, 35, 1, .ro, 0, .seq, 1, 1, 0, 0⟩
/-- R201. -/
def sq_LAST_FMT : Field := ⟨217, 0x25, 0x400, 36, 4, .ro, 15, .seq, 1, 1, 0, 0⟩
/-- R201. -/
def sq_LAST_EXTENT : Field := ⟨218, 0x25, 0x400, 40, 24, .ro, 0, .seq, 1, 1, 0, 0⟩
/-- R201. -/
def sq_ISSUE_TIME : Field := ⟨219, 0x25, 0x408, 0, 64, .ro, 0, .seq, 1, 1, 0, 0⟩
/-- R201. -/
def sq_WAIT_QUEUE : Field := ⟨220, 0x25, 0x410, 0, 10, .ro, 0, .seq, 1, 1, 0, 0⟩
/-- R201. -/
def sq_WAITING : Field := ⟨221, 0x25, 0x410, 10, 1, .ro, 0, .seq, 1, 1, 0, 0⟩
/-- R201. -/
def sq_ADDR_SEL : Field := ⟨222, 0x25, 0x418, 0, 5, .rw, 0, .page, 1, 1, 0, 0⟩
/-- R201. -/
def sq_ADDR_VAL : Field := ⟨223, 0x25, 0x420, 0, 48, .ro, 0, .seqReg, 1, 1, 0, 0⟩
/-- R201. -/
def sq_QUEUE_SEL : Field := ⟨224, 0x25, 0x428, 0, 10, .rw, 0, .page, 1, 1, 0, 0⟩
/-- R201. -/
def sq_QUEUE_FILL : Field := ⟨225, 0x25, 0x430, 0, 7, .ro, 0, .queue, 1, 1, 0, 0⟩
/-- R201. -/
def sq_HEAD_TOKEN : Field := ⟨226, 0x25, 0x438, 0, 64, .ro, 0, .queue, 1, 1, 0, 0⟩
/-- R201. -/
def sq_CREC_BASE : Field := ⟨227, 0x25, 0x440, 0, 48, .rw, 0, .page, 1, 1, 0, 0⟩
/-- R201. -/
def sq_CREC_SIZE : Field := ⟨228, 0x25, 0x448, 0, 5, .rw, 12, .page, 1, 1, 0, 0⟩
/-- R201. -/
def sq_CREC_HEAD : Field := ⟨229, 0x25, 0x450, 0, 64, .ro, 0, .page, 1, 1, 0, 0⟩
/-- R201. -/
def sq_CREC_TAIL : Field := ⟨230, 0x25, 0x458, 0, 64, .rw, 0, .page, 1, 1, 0, 0⟩
/-- R222. -/
def ag_FRAME_PHASE : Field := ⟨231, 0x11, 0x178, 0, 3, .st, 0, .page, 1, 1, 0, 0⟩
/-- R222. -/
def ag_FRAME_MAP_STG : Field := ⟨232, 0x11, 0x180, 0, 16, .st, 0, .elem, 16, 4, 16, 0⟩
/-- R222. -/
def ag_FRAME_MAP_CUR : Field := ⟨233, 0x11, 0x480, 0, 16, .ro, 0, .elem, 16, 4, 16, 0⟩
/-- R223. -/
def qe_ENDPOINTS : Field := ⟨234, 0x62, 0x008, 0, 9, .ro, 256, .page, 1, 1, 0, 0⟩
/-- R223. -/
def qe_CHAIN_ENTRIES : Field := ⟨235, 0x62, 0x008, 16, 7, .ro, 64, .page, 1, 1, 0, 0⟩
/-- R223. -/
def qe_EP_SEL : Field := ⟨236, 0x62, 0x0A0, 0, 8, .rw, 0, .page, 1, 1, 0, 0⟩
/-- R223. -/
def qe_ADMIT_EN : Field := ⟨237, 0x62, 0x0A8, 0, 1, .rw, 0, .endpoint, 1, 1, 0, 0⟩
/-- R223. -/
def qe_DEFINED : Field := ⟨238, 0x62, 0x0B0, 0, 1, .ro, 0, .endpoint, 1, 1, 0, 0⟩
/-- R223. -/
def qe_GROUPS_READY : Field := ⟨239, 0x62, 0x0B0, 1, 1, .ro, 0, .endpoint, 1, 1, 0, 0⟩
/-- R223. -/
def qe_LATE_SEEN : Field := ⟨240, 0x62, 0x0B0, 2, 1, .w1c, 0, .endpoint, 1, 1, 0, 0⟩
/-- R223. -/
def qe_OUTSTANDING : Field := ⟨241, 0x62, 0x0B0, 8, 8, .ro, 0, .endpoint, 1, 1, 0, 0⟩
/-- R223. -/
def qe_PROMISE_AP : Field := ⟨242, 0x62, 0x0B8, 0, 16, .ro, 0, .endpoint, 1, 1, 0, 0⟩
/-- R223. -/
def qe_PIPELINE_AP : Field := ⟨243, 0x62, 0x0B8, 16, 16, .ro, 0, .endpoint, 1, 1, 0, 0⟩
/-- R223. -/
def qe_PROMISE_NS : Field := ⟨244, 0x62, 0x0B8, 32, 32, .ro, 0, .endpoint, 1, 1, 0, 0⟩
/-- R223. -/
def qe_CNT_CLEAR : Field := ⟨245, 0x62, 0x0F8, 0, 1, .wo, 0, .endpoint, 1, 1, 0, 0⟩
/-- R223. -/
def qe_ENTRIESM1 : Field := ⟨246, 0x62, 0x100, 0, 6, .st, 0, .endpoint, 1, 1, 0, 0⟩
/-- R223. -/
def qe_SPACING : Field := ⟨247, 0x62, 0x100, 6, 7, .st, 8, .endpoint, 1, 1, 0, 0⟩
/-- R223. -/
def qe_ORIGIN : Field := ⟨248, 0x62, 0x100, 13, 9, .st, 0, .endpoint, 1, 1, 0, 0⟩
/-- R223. -/
def qe_QUEUE_BOUND : Field := ⟨249, 0x62, 0x100, 22, 4, .st, 0, .endpoint, 1, 1, 0, 0⟩
/-- R223. -/
def qe_DIE : Field := ⟨250, 0x62, 0x100, 26, 2, .st, 0, .endpoint, 1, 1, 0, 0⟩
/-- R223. -/
def qe_CHAIN_ADDR : Field := ⟨251, 0x62, 0x108, 0, 48, .st, 0, .endpoint, 1, 1, 0, 0⟩
/-- R223. -/
def qe_ADMITTED : Field := ⟨252, 0x62, 0x200, 0, 32, .sat, 0, .endpoint, 1, 1, 0, 0⟩
/-- R223. -/
def qe_REFUSED : Field := ⟨253, 0x62, 0x200, 32, 32, .sat, 0, .endpoint, 1, 1, 0, 0⟩
/-- R223. -/
def qe_COMPLETED : Field := ⟨254, 0x62, 0x208, 0, 32, .sat, 0, .endpoint, 1, 1, 0, 0⟩
/-- R223. -/
def qe_LATE : Field := ⟨255, 0x62, 0x208, 32, 32, .sat, 0, .endpoint, 1, 1, 0, 0⟩
/-- R223. -/
def qe_UNAVAILABLE : Field := ⟨256, 0x62, 0x210, 0, 32, .sat, 0, .endpoint, 1, 1, 0, 0⟩
/-- R223. -/
def qe_STALE : Field := ⟨257, 0x62, 0x210, 32, 32, .sat, 0, .endpoint, 1, 1, 0, 0⟩
/-- R223. -/
def qe_WORST_NS : Field := ⟨258, 0x62, 0x218, 0, 32, .ro, 0, .endpoint, 1, 1, 0, 0⟩
/-- R223. -/
def qe_UNDELIVERED : Field := ⟨259, 0x62, 0x218, 32, 32, .sat, 0, .endpoint, 1, 1, 0, 0⟩
/-- R254. -/
def ex_MAX_RANKS : Field := ⟨260, 0x41, 0x008, 0, 13, .ro, 4095, .page, 1, 1, 0, 0⟩
/-- R254. -/
def ex_MAX_BUCKETS : Field := ⟨261, 0x41, 0x008, 16, 17, .ro, 65536, .page, 1, 1, 0, 0⟩
/-- R254. -/
def ex_OP_MAX_BYTES : Field := ⟨262, 0x41, 0x008, 48, 16, .ro, 8192, .page, 1, 1, 0, 0⟩
/-- R254. -/
def ex_RANK : Field := ⟨263, 0x41, 0x088, 0, 12, .ro, 0, .page, 1, 1, 0, 0⟩
/-- R254. -/
def ex_MEMBERS : Field := ⟨264, 0x41, 0x088, 12, 13, .ro, 0, .page, 1, 1, 0, 0⟩
/-- R254. -/
def ex_STEP_VETOED : Field := ⟨265, 0x41, 0x090, 0, 1, .ro, 0, .page, 1, 1, 0, 0⟩
/-- R254. -/
def ex_VETO_SEEN : Field := ⟨266, 0x41, 0x090, 1, 1, .w1c, 0, .page, 1, 1, 0, 0⟩
/-- R254. -/
def ex_EXCLUDED_SEEN : Field := ⟨267, 0x41, 0x090, 2, 1, .w1c, 0, .page, 1, 1, 0, 0⟩
/-- R254. -/
def ex_DEADLINE_SEEN : Field := ⟨268, 0x41, 0x090, 3, 1, .w1c, 0, .page, 1, 1, 0, 0⟩
/-- R254. -/
def ex_REPEAT_SEEN : Field := ⟨269, 0x41, 0x090, 4, 1, .w1c, 0, .page, 1, 1, 0, 0⟩
/-- R254. -/
def ex_BUCKET_SEL : Field := ⟨270, 0x41, 0x0A0, 0, 16, .rw, 0, .page, 1, 1, 0, 0⟩
/-- R254. -/
def ex_BUCKET_STATE : Field := ⟨271, 0x41, 0x0A8, 0, 3, .ro, 0, .bucket, 1, 1, 0, 0⟩
/-- R254. -/
def ex_OWNER_HERE : Field := ⟨272, 0x41, 0x0A8, 3, 1, .ro, 0, .bucket, 1, 1, 0, 0⟩
/-- R254. -/
def ex_AGREE_VALID : Field := ⟨273, 0x41, 0x0A8, 4, 1, .ro, 0, .bucket, 1, 1, 0, 0⟩
/-- R254. -/
def ex_OVERFLOW : Field := ⟨274, 0x41, 0x0A8, 5, 1, .ro, 0, .bucket, 1, 1, 0, 0⟩
/-- R254. -/
def ex_NONFINITE : Field := ⟨275, 0x41, 0x0A8, 6, 1, .ro, 0, .bucket, 1, 1, 0, 0⟩
/-- R254. -/
def ex_INCLUDED_SELF : Field := ⟨276, 0x41, 0x0A8, 7, 1, .ro, 0, .bucket, 1, 1, 0, 0⟩
/-- R254. -/
def ex_INCLUDED : Field := ⟨277, 0x41, 0x0A8, 8, 13, .ro, 0, .bucket, 1, 1, 0, 0⟩
/-- R254. -/
def ex_DEADLINE_TIME : Field := ⟨278, 0x41, 0x0B0, 0, 64, .ro, 0, .bucket, 1, 1, 0, 0⟩
/-- R254. -/
def ex_CNT_CLEAR : Field := ⟨279, 0x41, 0x0F8, 0, 1, .wo, 0, .page, 1, 1, 0, 0⟩
/-- R254. -/
def ex_BUCKET_TABLE : Field := ⟨280, 0x41, 0x100, 0, 48, .st, 0, .page, 1, 1, 0, 0⟩
/-- R254. -/
def ex_BUCKET_COUNT : Field := ⟨281, 0x41, 0x108, 0, 17, .st, 0, .page, 1, 1, 0, 0⟩
/-- R254. -/
def ex_STATE_ADDR : Field := ⟨282, 0x41, 0x110, 0, 48, .st, 0, .page, 1, 1, 0, 0⟩
/-- R254. -/
def ex_NF_POLICY : Field := ⟨283, 0x41, 0x118, 0, 1, .st, 0, .page, 1, 1, 0, 0⟩
/-- R254. -/
def ex_HEADROOM : Field := ⟨284, 0x41, 0x118, 1, 2, .st, 1, .page, 1, 1, 0, 0⟩
/-- R254. -/
def ex_OPS_RECEIVED : Field := ⟨285, 0x41, 0x200, 0, 64, .ro, 0, .page, 1, 1, 0, 0⟩
/-- R254. -/
def ex_ELEMS_ACCUMULATED : Field := ⟨286, 0x41, 0x208, 0, 64, .ro, 0, .page, 1, 1, 0, 0⟩
/-- R254. -/
def ex_CLOSED_FULL : Field := ⟨287, 0x41, 0x210, 0, 32, .sat, 0, .page, 1, 1, 0, 0⟩
/-- R254. -/
def ex_CLOSED_DEADLINE : Field := ⟨288, 0x41, 0x210, 32, 32, .sat, 0, .page, 1, 1, 0, 0⟩
/-- R254. -/
def ex_LATE_OPS : Field := ⟨289, 0x41, 0x218, 0, 32, .sat, 0, .page, 1, 1, 0, 0⟩
/-- R254. -/
def ex_STALE_OPS : Field := ⟨290, 0x41, 0x218, 32, 32, .sat, 0, .page, 1, 1, 0, 0⟩
/-- R254. -/
def ex_REPEATS : Field := ⟨291, 0x41, 0x220, 0, 32, .sat, 0, .page, 1, 1, 0, 0⟩
/-- R254. -/
def ex_VETOES : Field := ⟨292, 0x41, 0x220, 32, 32, .sat, 0, .page, 1, 1, 0, 0⟩
/-- R254. -/
def ex_DROPS : Field := ⟨293, 0x41, 0x228, 0, 32, .sat, 0, .page, 1, 1, 0, 0⟩
/-- R254. -/
def ex_REBUILDS : Field := ⟨294, 0x41, 0x228, 32, 32, .sat, 0, .page, 1, 1, 0, 0⟩
/-- R254. -/
def ex_EXCLUSIONS : Field := ⟨295, 0x41, 0x230, 0, 32, .sat, 0, .page, 1, 1, 0, 0⟩
/-- R254. -/
def ex_MARKERS_RECEIVED : Field := ⟨296, 0x41, 0x230, 32, 32, .sat, 0, .page, 1, 1, 0, 0⟩
/-- R254. -/
def ex_OVERFLOW_ELEMS : Field := ⟨297, 0x41, 0x238, 0, 32, .sat, 0, .page, 1, 1, 0, 0⟩
/-- R254. -/
def ex_UNDERFLOWS : Field := ⟨298, 0x41, 0x238, 32, 32, .sat, 0, .page, 1, 1, 0, 0⟩
/-- R254. -/
def ex_BAD_OPS : Field := ⟨299, 0x41, 0x240, 0, 32, .sat, 0, .page, 1, 1, 0, 0⟩
/-- R254. -/
def ex_INCLUDED_MAP : Field := ⟨300, 0x41, 0x400, 0, 1, .ro, 0, .bucketRank, 64, 64, 1, 0⟩
/-- R254. -/
def ex_DEADLINE_MULT : Field := ⟨301, 0x41, 0x800, 0, 16, .rw, 2, .page, 1, 1, 0, 0⟩
/-- R254. -/
def ex_DEADLINE_MIN : Field := ⟨302, 0x41, 0x800, 16, 32, .rw, 1000, .page, 1, 1, 0, 0⟩
/-- R254. -/
def ex_ORD_WINDOW : Field := ⟨303, 0x41, 0x808, 0, 5, .rw, 8, .page, 1, 1, 0, 0⟩
/-- R269. -/
def ex_VOTE_SENT : Field := ⟨304, 0x41, 0x0B8, 0, 1, .ro, 0, .page, 1, 1, 0, 0⟩
/-- R269. -/
def ex_COMMIT_LATE_SEEN : Field := ⟨305, 0x41, 0x0B8, 1, 1, .w1c, 0, .page, 1, 1, 0, 0⟩
/-- R269. -/
def ex_UPDATE_NONFINITE_SEEN : Field := ⟨306, 0x41, 0x0B8, 2, 1, .w1c, 0, .page, 1, 1, 0, 0⟩
/-- R269. -/
def ex_UPDATES_PENDING : Field := ⟨307, 0x41, 0x0B8, 3, 17, .ro, 0, .page, 1, 1, 0, 0⟩
/-- R269. -/
def ex_UPDATE_TABLE : Field := ⟨308, 0x41, 0x120, 0, 48, .st, 0, .page, 1, 1, 0, 1⟩
/-- R269. -/
def ex_MASTER_HALF0 : Field := ⟨309, 0x41, 0x128, 0, 48, .st, 0, .page, 1, 1, 0, 1⟩
/-- R269. -/
def ex_MASTER_HALF1 : Field := ⟨310, 0x41, 0x130, 0, 48, .st, 0, .page, 1, 1, 0, 1⟩
/-- R269. -/
def ex_MASTER_PAGES : Field := ⟨311, 0x41, 0x138, 0, 21, .st, 0, .page, 1, 1, 0, 1⟩
/-- R269. -/
def ex_STATE_HALF0 : Field := ⟨312, 0x41, 0x140, 0, 48, .st, 0, .page, 1, 1, 0, 1⟩
/-- R269. -/
def ex_STATE_HALF1 : Field := ⟨313, 0x41, 0x148, 0, 48, .st, 0, .page, 1, 1, 0, 1⟩
/-- R269. -/
def ex_STATE_PAGES : Field := ⟨314, 0x41, 0x150, 0, 21, .st, 0, .page, 1, 1, 0, 1⟩
/-- R269. -/
def ex_DELTAS_APPLIED : Field := ⟨315, 0x41, 0x248, 0, 32, .sat, 0, .page, 1, 1, 0, 0⟩
/-- R269. -/
def ex_COMMIT_LATE : Field := ⟨316, 0x41, 0x248, 32, 32, .sat, 0, .page, 1, 1, 0, 0⟩
/-- R269. -/
def ex_MASTER_NONFINITE : Field := ⟨317, 0x41, 0x250, 0, 32, .sat, 0, .page, 1, 1, 0, 0⟩
/-- R269. -/
def ex_COMMITS_VETOED : Field := ⟨318, 0x41, 0x250, 32, 32, .sat, 0, .page, 1, 1, 0, 0⟩
/-- R269. -/
def ex_COMMIT_LEAD : Field := ⟨319, 0x41, 0x810, 0, 32, .rw, 100, .page, 1, 1, 0, 1⟩
/-- R270. -/
def he_LAYERS : Field := ⟨320, 0x60, 0x008, 0, 11, .ro, 1024, .page, 1, 1, 0, 0⟩
/-- R270. -/
def he_SPIKE_EN : Field := ⟨321, 0x60, 0x080, 0, 1, .rw, 1, .page, 1, 1, 0, 0⟩
/-- R270. -/
def he_SPIKE_VETO : Field := ⟨322, 0x60, 0x080, 1, 1, .rw, 0, .page, 1, 1, 0, 0⟩
/-- R270. -/
def he_STARVE_VETO : Field := ⟨323, 0x60, 0x080, 2, 1, .rw, 0, .page, 1, 1, 0, 0⟩
/-- R270. -/
def he_MIXER_TEST : Field := ⟨324, 0x60, 0x080, 3, 1, .wo, 0, .page, 1, 1, 0, 0⟩
/-- R270. -/
def he_RUN_CLEAR : Field := ⟨325, 0x60, 0x080, 4, 1, .wo, 0, .page, 1, 1, 0, 0⟩
/-- R270. -/
def he_DETECTOR_RESET : Field := ⟨326, 0x60, 0x080, 5, 1, .wo, 0, .page, 1, 1, 0, 0⟩
/-- R270. -/
def he_STARVE_LIMIT : Field := ⟨327, 0x60, 0x080, 16, 16, .rw, 1000, .page, 1, 1, 0, 0⟩
/-- R270. -/
def he_LOSS_ADDR : Field := ⟨328, 0x60, 0x088, 0, 48, .rw, 0, .page, 1, 1, 0, 0⟩
/-- R270. -/
def he_LOSS_DIE : Field := ⟨329, 0x60, 0x088, 48, 2, .rw, 0, .page, 1, 1, 0, 0⟩
/-- R270. -/
def he_SPIKE_SEEN : Field := ⟨330, 0x60, 0x090, 0, 1, .w1c, 0, .page, 1, 1, 0, 0⟩
/-- R270. -/
def he_STARVED_SEEN : Field := ⟨331, 0x60, 0x090, 1, 1, .w1c, 0, .page, 1, 1, 0, 0⟩
/-- R270. -/
def he_NONFINITE_SEEN : Field := ⟨332, 0x60, 0x090, 2, 1, .w1c, 0, .page, 1, 1, 0, 0⟩
/-- R270. -/
def he_NO_LOSS_SEEN : Field := ⟨333, 0x60, 0x090, 3, 1, .w1c, 0, .page, 1, 1, 0, 0⟩
/-- R270. -/
def he_MIXER_OK : Field := ⟨334, 0x60, 0x090, 4, 1, .ro, 0, .page, 1, 1, 0, 0⟩
/-- R270. -/
def he_MIXER_FAIL : Field := ⟨335, 0x60, 0x090, 5, 1, .ro, 0, .page, 1, 1, 0, 0⟩
/-- R270. -/
def he_WARM : Field := ⟨336, 0x60, 0x090, 6, 1, .ro, 0, .page, 1, 1, 0, 0⟩
/-- R270. -/
def he_HEALTH_VETO_NOW : Field := ⟨337, 0x60, 0x090, 7, 1, .ro, 0, .page, 1, 1, 0, 0⟩
/-- R270. -/
def he_SPIKE_CAUSE : Field := ⟨338, 0x60, 0x090, 8, 2, .ro, 0, .page, 1, 1, 0, 0⟩
/-- R270. -/
def he_EWMA : Field := ⟨339, 0x60, 0x098, 0, 32, .ro, 0, .page, 1, 1, 0, 0⟩
/-- R270. -/
def he_LAST_LOSS : Field := ⟨340, 0x60, 0x098, 32, 32, .ro, 0, .page, 1, 1, 0, 0⟩
/-- R270. -/
def he_SPIKE_STEP : Field := ⟨341, 0x60, 0x0A0, 0, 64, .ro, 0, .page, 1, 1, 0, 0⟩
/-- R270. -/
def he_SPIKE_LOSS : Field := ⟨342, 0x60, 0x0A8, 0, 32, .ro, 0, .page, 1, 1, 0, 0⟩
/-- R270. -/
def he_SPIKE_EWMA : Field := ⟨343, 0x60, 0x0A8, 32, 32, .ro, 0, .page, 1, 1, 0, 0⟩
/-- R270. -/
def he_LAYER_SEL : Field := ⟨344, 0x60, 0x0B0, 0, 10, .rw, 0, .page, 1, 1, 0, 0⟩
/-- R270. -/
def he_CNT_CLEAR : Field := ⟨345, 0x60, 0x0F8, 0, 1, .wo, 0, .page, 1, 1, 0, 0⟩
/-- R270. -/
def he_SPIKES : Field := ⟨346, 0x60, 0x200, 0, 32, .sat, 0, .page, 1, 1, 0, 0⟩
/-- R270. -/
def he_NO_LOSS : Field := ⟨347, 0x60, 0x200, 32, 32, .sat, 0, .page, 1, 1, 0, 0⟩
/-- R270. -/
def he_HEALTH_VETOES : Field := ⟨348, 0x60, 0x208, 0, 32, .sat, 0, .page, 1, 1, 0, 0⟩
/-- R270. -/
def he_SAMPLES : Field := ⟨349, 0x60, 0x208, 32, 32, .sat, 0, .page, 1, 1, 0, 0⟩
/-- R270. -/
def he_STARVED_LAYERS : Field := ⟨350, 0x60, 0x210, 0, 11, .ro, 0, .page, 1, 1, 0, 0⟩
/-- R270. -/
def he_FIRST_STARVED : Field := ⟨351, 0x60, 0x210, 16, 10, .ro, 0, .page, 1, 1, 0, 0⟩
/-- R270. -/
def he_LAYER_NONFINITE : Field := ⟨352, 0x60, 0x400, 0, 32, .sat, 0, .layer, 1, 1, 0, 0⟩
/-- R270. -/
def he_ZERO_RUN : Field := ⟨353, 0x60, 0x400, 32, 16, .ro, 0, .layer, 1, 1, 0, 0⟩
/-- R270. -/
def he_STARVED : Field := ⟨354, 0x60, 0x400, 48, 1, .ro, 0, .layer, 1, 1, 0, 0⟩
/-- R270. -/
def he_SPIKE_K : Field := ⟨355, 0x60, 0x800, 0, 16, .rw, 128, .page, 1, 1, 0, 0⟩
/-- R270. -/
def he_EWMA_SHIFT : Field := ⟨356, 0x60, 0x800, 16, 4, .rw, 6, .page, 1, 1, 0, 0⟩
/-- R270. -/
def he_WARMUP : Field := ⟨357, 0x60, 0x800, 20, 16, .rw, 64, .page, 1, 1, 0, 0⟩
/-- R298. -/
def rs_MAX_MEMBERS : Field := ⟨358, 0x61, 0x008, 0, 13, .ro, 4095, .page, 1, 1, 0, 0⟩
/-- R298. -/
def rs_SHELF_SLOTS : Field := ⟨359, 0x61, 0x008, 16, 4, .ro, 2, .page, 1, 1, 0, 0⟩
/-- R298. -/
def rs_SHELF_EN : Field := ⟨360, 0x61, 0x080, 0, 1, .rw, 1, .page, 1, 1, 0, 0⟩
/-- R298. -/
def rs_STORE_ACK : Field := ⟨361, 0x61, 0x080, 1, 1, .wo, 0, .page, 1, 1, 0, 0⟩
/-- R298. -/
def rs_STAGING_LOADED : Field := ⟨362, 0x61, 0x080, 2, 1, .wo, 0, .page, 1, 1, 0, 0⟩
/-- R298. -/
def rs_GENERATION : Field := ⟨363, 0x61, 0x088, 0, 32, .ro, 0, .page, 1, 1, 0, 0⟩
/-- R298. -/
def rs_MEMBER : Field := ⟨364, 0x61, 0x088, 32, 1, .ro, 0, .page, 1, 1, 0, 0⟩
/-- R298. -/
def rs_JOINING : Field := ⟨365, 0x61, 0x088, 33, 1, .ro, 0, .page, 1, 1, 0, 0⟩
/-- R298. -/
def rs_WITHDRAWN : Field := ⟨366, 0x61, 0x088, 34, 1, .ro, 0, .page, 1, 1, 0, 0⟩
/-- R298. -/
def rs_MIRROR : Field := ⟨367, 0x61, 0x088, 35, 1, .ro, 0, .page, 1, 1, 0, 0⟩
/-- R298. -/
def rs_CORRELATED_WARN : Field := ⟨368, 0x61, 0x088, 36, 1, .ro, 0, .page, 1, 1, 0, 0⟩
/-- R298. -/
def rs_SHARED_DOMAIN : Field := ⟨369, 0x61, 0x088, 37, 1, .ro, 0, .page, 1, 1, 0, 0⟩
/-- R298. -/
def rs_ROLLBACK_NEEDED : Field := ⟨370, 0x61, 0x088, 38, 1, .ro, 0, .page, 1, 1, 0, 0⟩
/-- R298. -/
def rs_RESTORE_DONE : Field := ⟨371, 0x61, 0x088, 39, 1, .ro, 0, .page, 1, 1, 0, 0⟩
/-- R298. -/
def rs_STORE_READY : Field := ⟨372, 0x61, 0x088, 40, 1, .ro, 0, .page, 1, 1, 0, 0⟩
/-- R298. -/
def rs_STAGING_BUSY : Field := ⟨373, 0x61, 0x088, 41, 1, .ro, 0, .page, 1, 1, 0, 0⟩
/-- R298. -/
def rs_SUSPECT_SEEN : Field := ⟨374, 0x61, 0x090, 0, 1, .w1c, 0, .page, 1, 1, 0, 0⟩
/-- R298. -/
def rs_CRC_MISMATCH_SEEN : Field := ⟨375, 0x61, 0x090, 1, 1, .w1c, 0, .page, 1, 1, 0, 0⟩
/-- R298. -/
def rs_SHARD_LOST_SEEN : Field := ⟨376, 0x61, 0x090, 2, 1, .w1c, 0, .page, 1, 1, 0, 0⟩
/-- R298. -/
def rs_SHELF_FAIL_SEEN : Field := ⟨377, 0x61, 0x090, 3, 1, .w1c, 0, .page, 1, 1, 0, 0⟩
/-- R298. -/
def rs_WITHDREW_SEEN : Field := ⟨378, 0x61, 0x090, 4, 1, .w1c, 0, .page, 1, 1, 0, 0⟩
/-- R298. -/
def rs_VIEW_REJECTED : Field := ⟨379, 0x61, 0x090, 5, 1, .w1c, 0, .page, 1, 1, 0, 0⟩
/-- R298. -/
def rs_EFF_SHELF_INTERVAL : Field := ⟨380, 0x61, 0x098, 0, 16, .ro, 0, .page, 1, 1, 0, 0⟩
/-- R298. -/
def rs_STOREROOM_INTERVAL : Field := ⟨381, 0x61, 0x098, 16, 16, .ro, 0, .page, 1, 1, 0, 0⟩
/-- R298. -/
def rs_CRC_INTERVAL : Field := ⟨382, 0x61, 0x098, 32, 16, .ro, 0, .page, 1, 1, 0, 0⟩
/-- R298. -/
def rs_SHELF_EPOCH_0 : Field := ⟨383, 0x61, 0x0A0, 0, 64, .ro, 18446744073709551615, .page, 1, 1, 0, 0⟩
/-- R298. -/
def rs_SHELF_EPOCH_1 : Field := ⟨384, 0x61, 0x0A8, 0, 64, .ro, 18446744073709551615, .page, 1, 1, 0, 0⟩
/-- R298. -/
def rs_STORE_EPOCH : Field := ⟨385, 0x61, 0x0B0, 0, 64, .ro, 0, .page, 1, 1, 0, 0⟩
/-- R298. -/
def rs_ROLLBACK_EPOCH : Field := ⟨386, 0x61, 0x0B8, 0, 64, .ro, 0, .page, 1, 1, 0, 0⟩
/-- R298. -/
def rs_PAGES_LEFT : Field := ⟨387, 0x61, 0x0C0, 0, 32, .ro, 0, .page, 1, 1, 0, 0⟩
/-- R298. -/
def rs_CELLARS_INVALID : Field := ⟨388, 0x61, 0x0C0, 32, 17, .ro, 0, .page, 1, 1, 0, 0⟩
/-- R298. -/
def rs_LOST_BUCKETS : Field := ⟨389, 0x61, 0x0C8, 0, 17, .ro, 0, .page, 1, 1, 0, 0⟩
/-- R298. -/
def rs_CNT_CLEAR : Field := ⟨390, 0x61, 0x0F8, 0, 1, .wo, 0, .page, 1, 1, 0, 0⟩
/-- R298. -/
def rs_VIEW_ADDR : Field := ⟨391, 0x61, 0x100, 0, 48, .st, 0, .page, 1, 1, 0, 0⟩
/-- R298. -/
def rs_FEED : Field := ⟨392, 0x61, 0x108, 0, 16, .st, 0, .page, 1, 1, 0, 0⟩
/-- R298. -/
def rs_BOARD : Field := ⟨393, 0x61, 0x108, 16, 16, .st, 0, .page, 1, 1, 0, 0⟩
/-- R298. -/
def rs_RACK : Field := ⟨394, 0x61, 0x108, 32, 16, .st, 0, .page, 1, 1, 0, 0⟩
/-- R298. -/
def rs_STAGING_ADDR : Field := ⟨395, 0x61, 0x110, 0, 48, .st, 0, .page, 1, 1, 0, 0⟩
/-- R298. -/
def rs_STAGING_BYTES : Field := ⟨396, 0x61, 0x118, 0, 48, .st, 0, .page, 1, 1, 0, 0⟩
/-- R298. -/
def rs_SUSPECTS : Field := ⟨397, 0x61, 0x200, 0, 32, .sat, 0, .page, 1, 1, 0, 0⟩
/-- R298. -/
def rs_MEMBERSHIP_COMMITS : Field := ⟨398, 0x61, 0x200, 32, 32, .sat, 0, .page, 1, 1, 0, 0⟩
/-- R298. -/
def rs_CRC_CHECKS : Field := ⟨399, 0x61, 0x208, 0, 32, .sat, 0, .page, 1, 1, 0, 0⟩
/-- R298. -/
def rs_CRC_MISMATCH : Field := ⟨400, 0x61, 0x208, 32, 32, .sat, 0, .page, 1, 1, 0, 0⟩
/-- R298. -/
def rs_CRC_SKIPPED : Field := ⟨401, 0x61, 0x210, 0, 32, .sat, 0, .page, 1, 1, 0, 0⟩
/-- R298. -/
def rs_RECELLARS : Field := ⟨402, 0x61, 0x210, 32, 32, .sat, 0, .page, 1, 1, 0, 0⟩
/-- R298. -/
def rs_SHELF_WRITES : Field := ⟨403, 0x61, 0x218, 0, 32, .sat, 0, .page, 1, 1, 0, 0⟩
/-- R298. -/
def rs_SHELF_SKIPPED : Field := ⟨404, 0x61, 0x218, 32, 32, .sat, 0, .page, 1, 1, 0, 0⟩
/-- R298. -/
def rs_VOTE_HOLDS : Field := ⟨405, 0x61, 0x220, 0, 32, .sat, 0, .page, 1, 1, 0, 0⟩
/-- R298. -/
def rs_NONMEMBER_DISCARDS : Field := ⟨406, 0x61, 0x220, 32, 32, .sat, 0, .page, 1, 1, 0, 0⟩
/-- R298. -/
def rs_PAGES_SENT : Field := ⟨407, 0x61, 0x228, 0, 64, .ro, 0, .page, 1, 1, 0, 0⟩
/-- R298. -/
def rs_SUSPECT_MAP : Field := ⟨408, 0x61, 0x400, 0, 1, .ro, 0, .elem, 64, 64, 1, 0⟩
/-- R298. -/
def rs_HB_PERIOD : Field := ⟨409, 0x61, 0x800, 0, 16, .rw, 100, .page, 1, 1, 0, 0⟩
/-- R298. -/
def rs_HB_MISS_LIMIT : Field := ⟨410, 0x61, 0x800, 16, 4, .rw, 8, .page, 1, 1, 0, 0⟩
/-- R298. -/
def rs_RECELLAR_SHARE : Field := ⟨411, 0x61, 0x800, 20, 11, .rw, 9, .page, 1, 1, 0, 0⟩
/-- R298. -/
def rs_FEED_OVERRIDE : Field := ⟨412, 0x61, 0x800, 31, 1, .rw, 0, .page, 1, 1, 0, 0⟩
/-- R319. -/
def pt_LANES : Field := ⟨413, 0x40, 0x008, 0, 4, .ro, 8, .page, 1, 1, 0, 0⟩
/-- R319. -/
def pt_LANE_RATE : Field := ⟨414, 0x40, 0x008, 4, 16, .ro, 2125, .page, 1, 1, 0, 0⟩
/-- R319. -/
def pt_PORT_GBPS : Field := ⟨415, 0x40, 0x008, 20, 16, .ro, 1600, .page, 1, 1, 0, 0⟩
/-- R319. -/
def pt_MAX_FRAME : Field := ⟨416, 0x40, 0x008, 36, 14, .ro, 9216, .page, 1, 1, 0, 0⟩
/-- R319. -/
def pt_ENABLE : Field := ⟨417, 0x40, 0x080, 0, 1, .rw, 1, .page, 1, 1, 0, 0⟩
/-- R319. -/
def pt_MEDIA : Field := ⟨418, 0x40, 0x080, 1, 2, .rw, 0, .page, 1, 1, 0, 0⟩
/-- R319. -/
def pt_AN_EN : Field := ⟨419, 0x40, 0x080, 3, 1, .rw, 1, .page, 1, 1, 0, 0⟩
/-- R319. -/
def pt_LOOPBACK : Field := ⟨420, 0x40, 0x080, 4, 1, .rw, 0, .page, 1, 1, 0, 0⟩
/-- R319. -/
def pt_TAG_EN : Field := ⟨421, 0x40, 0x080, 8, 1, .rw, 0, .page, 1, 1, 0, 0⟩
/-- R319. -/
def pt_VID : Field := ⟨422, 0x40, 0x080, 9, 12, .rw, 0, .page, 1, 1, 0, 0⟩
/-- R319. -/
def pt_PCP_QUERY : Field := ⟨423, 0x40, 0x080, 21, 3, .rw, 6, .page, 1, 1, 0, 0⟩
/-- R319. -/
def pt_PCP_CONTROL : Field := ⟨424, 0x40, 0x080, 24, 3, .rw, 5, .page, 1, 1, 0, 0⟩
/-- R319. -/
def pt_PCP_BULK : Field := ⟨425, 0x40, 0x080, 27, 3, .rw, 1, .page, 1, 1, 0, 0⟩
/-- R319. -/
def pt_MAC_ADDR : Field := ⟨426, 0x40, 0x088, 0, 48, .ro, 0, .page, 1, 1, 0, 0⟩
/-- R319. -/
def pt_TX_DELAY_ADJ : Field := ⟨427, 0x40, 0x090, 0, 16, .rw, 0, .page, 1, 1, 0, 0⟩
/-- R319. -/
def pt_RX_DELAY_ADJ : Field := ⟨428, 0x40, 0x090, 16, 16, .rw, 0, .page, 1, 1, 0, 0⟩
/-- R319. -/
def pt_TX_DELAY_FACT : Field := ⟨429, 0x40, 0x090, 32, 16, .ro, 0, .page, 1, 1, 0, 0⟩
/-- R319. -/
def pt_RX_DELAY_FACT : Field := ⟨430, 0x40, 0x090, 48, 16, .ro, 0, .page, 1, 1, 0, 0⟩
/-- R319. -/
def pt_LINK_UP : Field := ⟨431, 0x40, 0x098, 0, 1, .ro, 0, .page, 1, 1, 0, 0⟩
/-- R319. -/
def pt_AN_DONE : Field := ⟨432, 0x40, 0x098, 1, 1, .ro, 0, .page, 1, 1, 0, 0⟩
/-- R319. -/
def pt_HIGH_BER : Field := ⟨433, 0x40, 0x098, 2, 1, .ro, 0, .page, 1, 1, 0, 0⟩
/-- R319. -/
def pt_LINK_DOWN_SEEN : Field := ⟨434, 0x40, 0x098, 3, 1, .w1c, 0, .page, 1, 1, 0, 0⟩
/-- R319. -/
def pt_PTP_ACTIVE : Field := ⟨435, 0x40, 0x098, 4, 1, .ro, 0, .page, 1, 1, 0, 0⟩
/-- R319. -/
def pt_ZONE_SEL : Field := ⟨436, 0x40, 0x0A0, 0, 6, .rw, 0, .page, 1, 1, 0, 1⟩
/-- R319. -/
def pt_CNT_CLEAR : Field := ⟨437, 0x40, 0x0F8, 0, 1, .wo, 0, .page, 1, 1, 0, 0⟩
/-- R319. -/
def pt_ROUTE_ADDR : Field := ⟨438, 0x40, 0x100, 0, 48, .st, 0, .page, 1, 1, 0, 1⟩
/-- R319. -/
def pt_ROUTE_ENTRIES : Field := ⟨439, 0x40, 0x108, 0, 14, .st, 0, .page, 1, 1, 0, 1⟩
/-- R319. -/
def pt_ZONE_EN : Field := ⟨440, 0x40, 0x110, 0, 1, .st, 0, .zone, 1, 1, 0, 1⟩
/-- R319. -/
def pt_ZONE_QUEUE : Field := ⟨441, 0x40, 0x110, 1, 10, .st, 0, .zone, 1, 1, 0, 1⟩
/-- R319. -/
def pt_ZONE_DIE : Field := ⟨442, 0x40, 0x110, 11, 2, .st, 0, .zone, 1, 1, 0, 1⟩
/-- R319. -/
def pt_ZONE_BASE : Field := ⟨443, 0x40, 0x118, 0, 48, .st, 0, .zone, 1, 1, 0, 1⟩
/-- R319. -/
def pt_ZONE_BYTES : Field := ⟨444, 0x40, 0x120, 0, 32, .st, 0, .zone, 1, 1, 0, 1⟩
/-- R319. -/
def pt_ZONE_EXPECT : Field := ⟨445, 0x40, 0x120, 32, 32, .st, 0, .zone, 1, 1, 0, 1⟩
/-- R319. -/
def pt_FRAMES_TX : Field := ⟨446, 0x40, 0x200, 0, 64, .ro, 0, .page, 1, 1, 0, 0⟩
/-- R319. -/
def pt_FRAMES_RX : Field := ⟨447, 0x40, 0x208, 0, 64, .ro, 0, .page, 1, 1, 0, 0⟩
/-- R319. -/
def pt_BYTES_TX : Field := ⟨448, 0x40, 0x210, 0, 64, .ro, 0, .page, 1, 1, 0, 0⟩
/-- R319. -/
def pt_BYTES_RX : Field := ⟨449, 0x40, 0x218, 0, 64, .ro, 0, .page, 1, 1, 0, 0⟩
/-- R319. -/
def pt_FEC_CORRECTED : Field := ⟨450, 0x40, 0x220, 0, 64, .ro, 0, .page, 1, 1, 0, 0⟩
/-- R319. -/
def pt_FEC_UNCORRECTED : Field := ⟨451, 0x40, 0x228, 0, 32, .sat, 0, .page, 1, 1, 0, 0⟩
/-- R319. -/
def pt_FCS_ERRORS : Field := ⟨452, 0x40, 0x228, 32, 32, .sat, 0, .page, 1, 1, 0, 0⟩
/-- R319. -/
def pt_FRAME_SIZE_ERRORS : Field := ⟨453, 0x40, 0x230, 0, 32, .sat, 0, .page, 1, 1, 0, 0⟩
/-- R319. -/
def pt_OTHER_ETHERTYPE : Field := ⟨454, 0x40, 0x230, 32, 32, .sat, 0, .page, 1, 1, 0, 0⟩
/-- R319. -/
def pt_BAD_FRAMES : Field := ⟨455, 0x40, 0x238, 0, 32, .sat, 0, .page, 1, 1, 0, 0⟩
/-- R319. -/
def pt_RETRANSMITS : Field := ⟨456, 0x40, 0x238, 32, 32, .sat, 0, .page, 1, 1, 0, 0⟩
/-- R319. -/
def pt_DUPLICATES : Field := ⟨457, 0x40, 0x240, 0, 32, .sat, 0, .page, 1, 1, 0, 0⟩
/-- R319. -/
def pt_WINDOW_DROPS : Field := ⟨458, 0x40, 0x240, 32, 32, .sat, 0, .page, 1, 1, 0, 0⟩
/-- R319. -/
def pt_LINK_DOWNS : Field := ⟨459, 0x40, 0x248, 0, 32, .sat, 0, .page, 1, 1, 0, 0⟩
/-- R319. -/
def pt_STALE_WRITES : Field := ⟨460, 0x40, 0x248, 32, 32, .sat, 0, .page, 1, 1, 0, 0⟩
/-- R319. -/
def pt_WINDOW_FULL : Field := ⟨461, 0x40, 0x250, 0, 32, .sat, 0, .page, 1, 1, 0, 1⟩
/-- R319. -/
def pt_ZONE_COUNT : Field := ⟨462, 0x40, 0x400, 0, 32, .ro, 0, .zone, 1, 1, 0, 1⟩
/-- R319. -/
def pt_RETX_TIMEOUT : Field := ⟨463, 0x40, 0x800, 0, 16, .rw, 25, .page, 1, 1, 0, 1⟩
/-- R319. -/
def pt_RETX_MAX : Field := ⟨464, 0x40, 0x800, 16, 16, .rw, 1000, .page, 1, 1, 0, 1⟩
/-- R319. -/
def pt_ACK_DELAY : Field := ⟨465, 0x40, 0x800, 32, 16, .rw, 2000, .page, 1, 1, 0, 1⟩
/-- R320. -/
def ck_REF_MHZ : Field := ⟨466, 0x03, 0x008, 0, 16, .ro, 100, .page, 1, 1, 0, 0⟩
/-- R320. -/
def ck_ROOT_MHZ : Field := ⟨467, 0x03, 0x008, 16, 16, .ro, 9600, .page, 1, 1, 0, 0⟩
/-- R320. -/
def ck_REG_MHZ : Field := ⟨468, 0x03, 0x008, 32, 16, .ro, 400, .page, 1, 1, 0, 0⟩
/-- R320. -/
def ck_SERVO_EN : Field := ⟨469, 0x03, 0x080, 0, 1, .rw, 1, .page, 1, 1, 0, 0⟩
/-- R320. -/
def ck_STEP_EN : Field := ⟨470, 0x03, 0x080, 1, 1, .rw, 1, .page, 1, 1, 0, 0⟩
/-- R320. -/
def ck_PTP_ROLE : Field := ⟨471, 0x03, 0x080, 2, 1, .rw, 0, .page, 1, 1, 0, 0⟩
/-- R320. -/
def ck_PTP_PORT : Field := ⟨472, 0x03, 0x080, 3, 4, .rw, 15, .page, 1, 1, 0, 0⟩
/-- R320. -/
def ck_DOMAIN : Field := ⟨473, 0x03, 0x080, 8, 8, .rw, 0, .page, 1, 1, 0, 0⟩
/-- R320. -/
def ck_PRIORITY1 : Field := ⟨474, 0x03, 0x080, 16, 8, .rw, 128, .page, 1, 1, 0, 0⟩
/-- R320. -/
def ck_PRIORITY2 : Field := ⟨475, 0x03, 0x080, 24, 8, .rw, 128, .page, 1, 1, 0, 0⟩
/-- R320. -/
def ck_TIME_NS : Field := ⟨476, 0x03, 0x088, 0, 64, .ro, 0, .page, 1, 1, 0, 0⟩
/-- R320. -/
def ck_TIME_FRAC : Field := ⟨477, 0x03, 0x090, 0, 32, .ro, 0, .page, 1, 1, 0, 0⟩
/-- R320. -/
def ck_ALIGN_COUNT : Field := ⟨478, 0x03, 0x098, 0, 64, .ro, 0, .page, 1, 1, 0, 0⟩
/-- R320. -/
def ck_ALIGN_AT_TIME : Field := ⟨479, 0x03, 0x0A0, 0, 64, .ro, 0, .page, 1, 1, 0, 0⟩
/-- R320. -/
def ck_INCR : Field := ⟨480, 0x03, 0x0A8, 0, 64, .ro, 10737418240, .page, 1, 1, 0, 0⟩
/-- R320. -/
def ck_STEP_NS : Field := ⟨481, 0x03, 0x0B0, 0, 64, .wo, 0, .page, 1, 1, 0, 0⟩
/-- R320. -/
def ck_LOCKED : Field := ⟨482, 0x03, 0x0B8, 0, 1, .ro, 0, .page, 1, 1, 0, 0⟩
/-- R320. -/
def ck_LOCK_LOST_SEEN : Field := ⟨483, 0x03, 0x0B8, 1, 1, .w1c, 0, .page, 1, 1, 0, 0⟩
/-- R320. -/
def ck_STEPPED_SEEN : Field := ⟨484, 0x03, 0x0B8, 2, 1, .w1c, 0, .page, 1, 1, 0, 0⟩
/-- R320. -/
def ck_PORT_STATE : Field := ⟨485, 0x03, 0x0B8, 3, 4, .ro, 1, .page, 1, 1, 0, 0⟩
/-- R320. -/
def ck_ACTIVE_PORT : Field := ⟨486, 0x03, 0x0B8, 7, 4, .ro, 0, .page, 1, 1, 0, 0⟩
/-- R320. -/
def ck_OFFSET_NS : Field := ⟨487, 0x03, 0x0C0, 0, 32, .ro, 0, .page, 1, 1, 0, 0⟩
/-- R320. -/
def ck_MEAN_PATH_NS : Field := ⟨488, 0x03, 0x0C0, 32, 32, .ro, 0, .page, 1, 1, 0, 0⟩
/-- R320. -/
def ck_ADJ_PPB : Field := ⟨489, 0x03, 0x0C8, 0, 32, .ro, 0, .page, 1, 1, 0, 0⟩
/-- R320. -/
def ck_GM_IDENTITY : Field := ⟨490, 0x03, 0x0D0, 0, 64, .ro, 0, .page, 1, 1, 0, 0⟩
/-- R320. -/
def ck_CNT_CLEAR : Field := ⟨491, 0x03, 0x0F8, 0, 1, .wo, 0, .page, 1, 1, 0, 0⟩
/-- R320. -/
def ck_SYNC_RX : Field := ⟨492, 0x03, 0x200, 0, 32, .sat, 0, .page, 1, 1, 0, 0⟩
/-- R320. -/
def ck_DELAY_REQ_TX : Field := ⟨493, 0x03, 0x200, 32, 32, .sat, 0, .page, 1, 1, 0, 0⟩
/-- R320. -/
def ck_ANNOUNCE_RX : Field := ⟨494, 0x03, 0x208, 0, 32, .sat, 0, .page, 1, 1, 0, 0⟩
/-- R320. -/
def ck_PTP_DISCARDS : Field := ⟨495, 0x03, 0x208, 32, 32, .sat, 0, .page, 1, 1, 0, 0⟩
/-- R320. -/
def ck_STEPS : Field := ⟨496, 0x03, 0x210, 0, 32, .sat, 0, .page, 1, 1, 0, 0⟩
/-- R320. -/
def ck_LOCK_LOSSES : Field := ⟨497, 0x03, 0x210, 32, 32, .sat, 0, .page, 1, 1, 0, 0⟩
/-- R320. -/
def ck_KP : Field := ⟨498, 0x03, 0x800, 0, 16, .rw, 128, .page, 1, 1, 0, 0⟩
/-- R320. -/
def ck_KI : Field := ⟨499, 0x03, 0x800, 16, 16, .rw, 32, .page, 1, 1, 0, 0⟩
/-- R320. -/
def ck_SLEW_MAX : Field := ⟨500, 0x03, 0x800, 32, 32, .rw, 100000, .page, 1, 1, 0, 0⟩
/-- R320. -/
def ck_LOCK_NS : Field := ⟨501, 0x03, 0x808, 0, 16, .rw, 50, .page, 1, 1, 0, 0⟩
/-- R320. -/
def ck_STEP_THRESHOLD : Field := ⟨502, 0x03, 0x808, 16, 32, .rw, 10000, .page, 1, 1, 0, 0⟩
/-- R342. -/
def hi_HCR_RINGS : Field := ⟨503, 0x51, 0x008, 0, 8, .ro, 4, .page, 1, 1, 0, 0⟩
/-- R342. -/
def hi_QUERY_RINGS : Field := ⟨504, 0x51, 0x008, 8, 8, .ro, 16, .page, 1, 1, 0, 0⟩
/-- R342. -/
def hi_HOST_QUERY_MAX : Field := ⟨505, 0x51, 0x008, 16, 16, .ro, 2048, .page, 1, 1, 0, 0⟩
/-- R342. -/
def hi_RING_SEL : Field := ⟨506, 0x51, 0x080, 0, 6, .rw, 0, .page, 1, 1, 0, 0⟩
/-- R342. -/
def hi_RING_BASE : Field := ⟨507, 0x51, 0x088, 0, 64, .rw, 0, .ring, 1, 1, 0, 0⟩
/-- R342. -/
def hi_RING_SIZE : Field := ⟨508, 0x51, 0x090, 0, 5, .rw, 6, .ring, 1, 1, 0, 0⟩
/-- R342. -/
def hi_RING_ENABLE : Field := ⟨509, 0x51, 0x090, 5, 1, .rw, 0, .ring, 1, 1, 0, 0⟩
/-- R342. -/
def hi_RING_IDLE : Field := ⟨510, 0x51, 0x090, 6, 1, .ro, 1, .ring, 1, 1, 0, 0⟩
/-- R342. -/
def hi_WIN_BASE : Field := ⟨511, 0x51, 0x098, 36, 12, .rw, 0, .page, 1, 1, 0, 0⟩
/-- R342. -/
def hi_BUS_MASTER : Field := ⟨512, 0x51, 0x0A0, 0, 1, .ro, 0, .page, 1, 1, 0, 0⟩
/-- R342. -/
def hi_DOORBELL_BAD_SEEN : Field := ⟨513, 0x51, 0x0A0, 1, 1, .w1c, 0, .page, 1, 1, 0, 0⟩
/-- R342. -/
def hi_RING_ERROR_SEEN : Field := ⟨514, 0x51, 0x0A0, 2, 1, .w1c, 0, .page, 1, 1, 0, 0⟩
/-- R342. -/
def hi_HOST_DROP_SEEN : Field := ⟨515, 0x51, 0x0A0, 3, 1, .w1c, 0, .page, 1, 1, 0, 0⟩
/-- R342. -/
def hi_CNT_CLEAR : Field := ⟨516, 0x51, 0x0F8, 0, 1, .wo, 0, .page, 1, 1, 0, 0⟩
/-- R342. -/
def hi_HCR_DROPPED : Field := ⟨517, 0x51, 0x200, 0, 32, .sat, 0, .page, 1, 1, 0, 0⟩
/-- R342. -/
def hi_DOORBELL_BAD : Field := ⟨518, 0x51, 0x200, 32, 32, .sat, 0, .page, 1, 1, 0, 0⟩
/-- R342. -/
def hi_BAR0_BAD_ACCESS : Field := ⟨519, 0x51, 0x208, 0, 32, .sat, 0, .page, 1, 1, 0, 0⟩
/-- R342. -/
def hi_WINDOW_MISSES : Field := ⟨520, 0x51, 0x208, 32, 32, .sat, 0, .page, 1, 1, 0, 0⟩
/-- R342. -/
def hi_HOST_WRITES_DROPPED : Field := ⟨521, 0x51, 0x210, 0, 32, .sat, 0, .page, 1, 1, 0, 0⟩
/-- R342. -/
def hi_RING_ERRORS : Field := ⟨522, 0x51, 0x210, 32, 32, .sat, 0, .page, 1, 1, 0, 0⟩
/-- R342. -/
def hi_HOST_INDEX : Field := ⟨523, 0x51, 0x400, 0, 32, .rw, 0, .elem, 36, 1, 0, 0⟩
/-- R342. -/
def hi_PART_INDEX : Field := ⟨524, 0x51, 0x400, 32, 32, .ro, 0, .elem, 36, 1, 0, 0⟩
/-- R343. -/
def sh_PCIE_GEN : Field := ⟨525, 0x52, 0x008, 0, 4, .ro, 5, .page, 1, 1, 0, 0⟩
/-- R343. -/
def sh_LANES : Field := ⟨526, 0x52, 0x008, 4, 4, .ro, 4, .page, 1, 1, 0, 0⟩
/-- R343. -/
def sh_RESCAN : Field := ⟨527, 0x52, 0x080, 0, 1, .wo, 0, .page, 1, 1, 0, 0⟩
/-- R343. -/
def sh_LINK_UP : Field := ⟨528, 0x52, 0x088, 0, 1, .ro, 0, .page, 1, 1, 0, 0⟩
/-- R343. -/
def sh_DRIVE_READY : Field := ⟨529, 0x52, 0x088, 1, 1, .ro, 0, .page, 1, 1, 0, 0⟩
/-- R343. -/
def sh_DRIVE_FAILED : Field := ⟨530, 0x52, 0x088, 2, 1, .ro, 0, .page, 1, 1, 0, 0⟩
/-- R343. -/
def sh_DRIVE_FAIL_SEEN : Field := ⟨531, 0x52, 0x088, 3, 1, .w1c, 0, .page, 1, 1, 0, 0⟩
/-- R343. -/
def sh_FAIL_REASON : Field := ⟨532, 0x52, 0x088, 4, 4, .ro, 0, .page, 1, 1, 0, 0⟩
/-- R343. -/
def sh_LBA_SHIFT : Field := ⟨533, 0x52, 0x088, 8, 4, .ro, 0, .page, 1, 1, 0, 0⟩
/-- R343. -/
def sh_CRIT_WARNING : Field := ⟨534, 0x52, 0x088, 16, 8, .ro, 0, .page, 1, 1, 0, 0⟩
/-- R343. -/
def sh_PERCENT_USED : Field := ⟨535, 0x52, 0x088, 24, 8, .ro, 0, .page, 1, 1, 0, 0⟩
/-- R343. -/
def sh_CAPACITY : Field := ⟨536, 0x52, 0x090, 0, 64, .ro, 0, .page, 1, 1, 0, 0⟩
/-- R343. -/
def sh_CNT_CLEAR : Field := ⟨537, 0x52, 0x0F8, 0, 1, .wo, 0, .page, 1, 1, 0, 0⟩
/-- R343. -/
def sh_SLOT_BYTES : Field := ⟨538, 0x52, 0x100, 0, 48, .st, 4294967296, .page, 1, 1, 0, 1⟩
/-- R343. -/
def sh_BYTES_WRITTEN : Field := ⟨539, 0x52, 0x200, 0, 64, .ro, 0, .page, 1, 1, 0, 0⟩
/-- R343. -/
def sh_BYTES_READ : Field := ⟨540, 0x52, 0x208, 0, 64, .ro, 0, .page, 1, 1, 0, 0⟩
/-- R343. -/
def sh_CMD_ERRORS : Field := ⟨541, 0x52, 0x210, 0, 32, .sat, 0, .page, 1, 1, 0, 0⟩
/-- R343. -/
def sh_TIMEOUTS : Field := ⟨542, 0x52, 0x210, 32, 32, .sat, 0, .page, 1, 1, 0, 0⟩
/-- R343. -/
def sh_NVME_TIMEOUT : Field := ⟨543, 0x52, 0x800, 0, 32, .rw, 2000, .page, 1, 1, 0, 0⟩
/-- R364. -/
def id_VARIANT : Field := ⟨544, 0x01, 0x008, 0, 4, .ro, 0, .page, 1, 1, 0, 0⟩
/-- R364. -/
def id_STEP_LETTER : Field := ⟨545, 0x01, 0x008, 8, 8, .ro, 65, .page, 1, 1, 0, 0⟩
/-- R364. -/
def id_STEP_DIGIT : Field := ⟨546, 0x01, 0x008, 16, 8, .ro, 49, .page, 1, 1, 0, 0⟩
/-- R364. -/
def id_DIGITAL_DIES : Field := ⟨547, 0x01, 0x008, 24, 8, .ro, 4, .page, 1, 1, 0, 0⟩
/-- R364. -/
def id_ARRAY_DIES : Field := ⟨548, 0x01, 0x008, 32, 8, .ro, 16, .page, 1, 1, 0, 0⟩
/-- R364. -/
def id_CONTROL_DIES : Field := ⟨549, 0x01, 0x008, 40, 8, .ro, 4, .page, 1, 1, 0, 0⟩
/-- R364. -/
def id_MEM_STACKS : Field := ⟨550, 0x01, 0x008, 48, 8, .ro, 16, .page, 1, 1, 0, 0⟩
/-- R364. -/
def id_IO_DIES : Field := ⟨551, 0x01, 0x008, 56, 8, .ro, 8, .page, 1, 1, 0, 0⟩
/-- R364. -/
def id_ARRAYS_PER_DIE : Field := ⟨552, 0x01, 0x010, 0, 16, .ro, 1024, .page, 1, 1, 0, 0⟩
/-- R364. -/
def id_SPARES_PER_DIE : Field := ⟨553, 0x01, 0x010, 16, 8, .ro, 16, .page, 1, 1, 0, 0⟩
/-- R364. -/
def id_GROUPS_PER_DIE : Field := ⟨554, 0x01, 0x010, 24, 8, .ro, 16, .page, 1, 1, 0, 0⟩
/-- R364. -/
def id_ARRAY_ROWS : Field := ⟨555, 0x01, 0x010, 32, 16, .ro, 512, .page, 1, 1, 0, 0⟩
/-- R364. -/
def id_ARRAY_COLS : Field := ⟨556, 0x01, 0x010, 48, 16, .ro, 512, .page, 1, 1, 0, 0⟩
/-- R364. -/
def id_MATRIX_PER_DIE : Field := ⟨557, 0x01, 0x018, 0, 16, .ro, 64, .page, 1, 1, 0, 0⟩
/-- R364. -/
def id_VECTOR_PER_DIE : Field := ⟨558, 0x01, 0x018, 16, 8, .ro, 16, .page, 1, 1, 0, 0⟩
/-- R364. -/
def id_ROW_PER_DIE : Field := ⟨559, 0x01, 0x018, 24, 8, .ro, 8, .page, 1, 1, 0, 0⟩
/-- R364. -/
def id_SCRATCH_MIB : Field := ⟨560, 0x01, 0x018, 32, 16, .ro, 192, .page, 1, 1, 0, 0⟩
/-- R364. -/
def id_MC_SITES : Field := ⟨561, 0x01, 0x018, 48, 8, .ro, 5, .page, 1, 1, 0, 0⟩
/-- R364. -/
def id_MC_USED : Field := ⟨562, 0x01, 0x018, 56, 8, .ro, 4, .page, 1, 1, 0, 0⟩
/-- R364. -/
def id_STACK_GIB : Field := ⟨563, 0x01, 0x020, 0, 16, .ro, 64, .page, 1, 1, 0, 0⟩
/-- R364. -/
def id_PORT_GBPS : Field := ⟨564, 0x01, 0x020, 16, 16, .ro, 1600, .page, 1, 1, 0, 0⟩
/-- R364. -/
def id_MAX_POWER_W : Field := ⟨565, 0x01, 0x020, 32, 16, .ro, 4200, .page, 1, 1, 0, 0⟩
/-- R364. -/
def id_SERIAL : Field := ⟨566, 0x01, 0x080, 0, 64, .ro, 0, .page, 1, 1, 0, 0⟩
/-- R364. -/
def id_SIGNATURE : Field := ⟨567, 0x01, 0x088, 0, 64, .ro, 0, .page, 1, 1, 0, 0⟩
/-- R364. -/
def id_ALL_READY : Field := ⟨568, 0x01, 0x090, 0, 1, .ro, 0, .page, 1, 1, 0, 0⟩
/-- R364. -/
def id_MEMORY_READY : Field := ⟨569, 0x01, 0x090, 1, 1, .ro, 0, .page, 1, 1, 0, 0⟩
/-- R364. -/
def id_ARRAYS_READY : Field := ⟨570, 0x01, 0x090, 2, 1, .ro, 0, .page, 1, 1, 0, 0⟩
/-- R364. -/
def id_PORTS_READY : Field := ⟨571, 0x01, 0x090, 3, 1, .ro, 0, .page, 1, 1, 0, 0⟩
/-- R364. -/
def id_TIME_LOCKED : Field := ⟨572, 0x01, 0x090, 4, 1, .ro, 0, .page, 1, 1, 0, 0⟩
/-- R364. -/
def id_ENGINES_READY : Field := ⟨573, 0x01, 0x090, 5, 1, .ro, 0, .page, 1, 1, 0, 0⟩
/-- R364. -/
def id_SHELF_READY : Field := ⟨574, 0x01, 0x090, 6, 1, .ro, 0, .page, 1, 1, 0, 0⟩
/-- R364. -/
def id_FIRMWARE_READY : Field := ⟨575, 0x01, 0x090, 7, 1, .ro, 0, .page, 1, 1, 0, 0⟩
/-- R364. -/
def id_NOT_READY_PAGES : Field := ⟨576, 0x01, 0x090, 16, 16, .ro, 457, .page, 1, 1, 0, 0⟩
/-- R364. -/
def id_EXPERT_PAGES : Field := ⟨577, 0x01, 0x090, 32, 16, .ro, 0, .page, 1, 1, 0, 0⟩
/-- R364. -/
def id_FIRST_TYPE : Field := ⟨578, 0x01, 0x098, 0, 8, .ro, 1, .page, 1, 1, 0, 0⟩
/-- R364. -/
def id_FIRST_INSTANCE : Field := ⟨579, 0x01, 0x098, 8, 16, .ro, 0, .page, 1, 1, 0, 0⟩
/-- R364. -/
def id_VENDOR_ID : Field := ⟨580, 0x01, 0x0A0, 0, 16, .ro, 8060, .page, 1, 1, 0, 0⟩
/-- R364. -/
def id_DEVICE_ID : Field := ⟨581, 0x01, 0x0A0, 16, 16, .ro, 0, .page, 1, 1, 0, 0⟩
/-- R364. -/
def id_FW_VERSION : Field := ⟨582, 0x01, 0x0A0, 32, 32, .ro, 0, .page, 1, 1, 0, 0⟩
/-- R364. -/
def id_SITE_IO : Field := ⟨583, 0x01, 0x400, 0, 1, .ro, 0, .elem, 24, 1, 0, 0⟩
/-- R364. -/
def id_SITE_PAGE : Field := ⟨584, 0x01, 0x400, 8, 8, .ro, 0, .elem, 24, 1, 0, 0⟩
/-- R364. -/
def id_SITE_DIE : Field := ⟨585, 0x01, 0x400, 16, 2, .ro, 0, .elem, 24, 1, 0, 0⟩
/-- R365. -/
def cm_CHECK_LIMIT_US : Field := ⟨586, 0x02, 0x008, 0, 16, .ro, 50, .page, 1, 1, 0, 0⟩
/-- R365. -/
def cm_GO : Field := ⟨587, 0x02, 0x080, 0, 1, .wo, 0, .page, 1, 1, 0, 0⟩
/-- R365. -/
def cm_WHEN : Field := ⟨588, 0x02, 0x080, 1, 2, .wo, 0, .page, 1, 1, 0, 0⟩
/-- R365. -/
def cm_DISCARD : Field := ⟨589, 0x02, 0x080, 3, 1, .wo, 0, .page, 1, 1, 0, 0⟩
/-- R365. -/
def cm_AT_TIME : Field := ⟨590, 0x02, 0x088, 0, 64, .rw, 0, .page, 1, 1, 0, 0⟩
/-- R365. -/
def cm_STATE : Field := ⟨591, 0x02, 0x090, 0, 3, .ro, 0, .page, 1, 1, 0, 0⟩
/-- R365. -/
def cm_RESULT : Field := ⟨592, 0x02, 0x090, 8, 4, .ro, 0, .page, 1, 1, 0, 0⟩
/-- R365. -/
def cm_MEMBERSHIP : Field := ⟨593, 0x02, 0x090, 12, 1, .ro, 0, .page, 1, 1, 0, 0⟩
/-- R365. -/
def cm_STEP_SET_HELD : Field := ⟨594, 0x02, 0x090, 13, 1, .ro, 0, .page, 1, 1, 0, 0⟩
/-- R365. -/
def cm_STEP_SET_FAILED : Field := ⟨595, 0x02, 0x090, 14, 1, .w1c, 0, .page, 1, 1, 0, 0⟩
/-- R365. -/
def cm_OWNER : Field := ⟨596, 0x02, 0x098, 0, 2, .ro, 0, .page, 1, 1, 0, 0⟩
/-- R365. -/
def cm_CLAIM : Field := ⟨597, 0x02, 0x098, 2, 1, .wo, 0, .page, 1, 1, 0, 0⟩
/-- R365. -/
def cm_RELEASE : Field := ⟨598, 0x02, 0x098, 3, 1, .wo, 0, .page, 1, 1, 0, 0⟩
/-- R365. -/
def cm_REJECT_INFO : Field := ⟨599, 0x02, 0x0A0, 0, 64, .ro, 0, .page, 1, 1, 0, 0⟩
/-- R365. -/
def cm_APPLIED_TIME : Field := ⟨600, 0x02, 0x0A8, 0, 64, .ro, 0, .page, 1, 1, 0, 0⟩
/-- R365. -/
def cm_APPLIED_ALIGN : Field := ⟨601, 0x02, 0x0B0, 0, 64, .ro, 0, .page, 1, 1, 0, 0⟩
/-- R365. -/
def cm_PENDING_AT : Field := ⟨602, 0x02, 0x0B8, 0, 64, .ro, 18446744073709551615, .page, 1, 1, 0, 0⟩
/-- R365. -/
def cm_STEP : Field := ⟨603, 0x02, 0x0C0, 0, 64, .ro, 0, .page, 1, 1, 0, 0⟩
/-- R365. -/
def cm_EPOCH : Field := ⟨604, 0x02, 0x0C8, 0, 64, .ro, 0, .page, 1, 1, 0, 0⟩
/-- R365. -/
def cm_CNT_CLEAR : Field := ⟨605, 0x02, 0x0F8, 0, 1, .wo, 0, .page, 1, 1, 0, 0⟩
/-- R365. -/
def cm_COMMITS_APPLIED : Field := ⟨606, 0x02, 0x200, 0, 32, .sat, 0, .page, 1, 1, 0, 0⟩
/-- R365. -/
def cm_COMMITS_FAILED : Field := ⟨607, 0x02, 0x200, 32, 32, .sat, 0, .page, 1, 1, 0, 0⟩
/-- R365. -/
def cm_COMMITS_BUSY : Field := ⟨608, 0x02, 0x208, 0, 32, .sat, 0, .page, 1, 1, 0, 0⟩
/-- R365. -/
def cm_STAGED_WRITES_DROPPED : Field := ⟨609, 0x02, 0x208, 32, 32, .sat, 0, .page, 1, 1, 0, 0⟩
/-- R365. -/
def cm_CLAIM_EXPIRED : Field := ⟨610, 0x02, 0x210, 0, 32, .sat, 0, .page, 1, 1, 0, 0⟩
/-- R365. -/
def cm_CLAIM_LIMIT : Field := ⟨611, 0x02, 0x800, 0, 32, .rw, 1000, .page, 1, 1, 0, 0⟩
/-- R395. -/
def cd_CORES : Field := ⟨612, 0x50, 0x008, 0, 8, .ro, 16, .page, 1, 1, 0, 0⟩
/-- R395. -/
def cd_CORE_MHZ : Field := ⟨613, 0x50, 0x008, 8, 16, .ro, 3200, .page, 1, 1, 0, 0⟩
/-- R395. -/
def cd_CACHE_MIB : Field := ⟨614, 0x50, 0x008, 24, 8, .ro, 32, .page, 1, 1, 0, 0⟩
/-- R395. -/
def cd_HOST_EP : Field := ⟨615, 0x50, 0x008, 32, 1, .ro, 0, .page, 1, 1, 0, 0⟩
/-- R395. -/
def cd_ROOT_PORT : Field := ⟨616, 0x50, 0x008, 33, 1, .ro, 1, .page, 1, 1, 0, 0⟩
/-- R395. -/
def cd_FW_VERSION : Field := ⟨617, 0x50, 0x088, 0, 32, .ro, 0, .page, 1, 1, 0, 0⟩
/-- R395. -/
def cd_CNT_CLEAR : Field := ⟨618, 0x50, 0x0F8, 0, 1, .wo, 0, .page, 1, 1, 0, 0⟩
/-- R395. -/
def cd_EVENTS : Field := ⟨619, 0x50, 0x200, 0, 64, .ro, 0, .page, 1, 1, 0, 0⟩
/-- R378. -/
def pw_MAX_POWER_W : Field := ⟨620, 0x04, 0x008, 0, 16, .ro, 4200, .page, 1, 1, 0, 0⟩
/-- R378. -/
def pw_SENSORS : Field := ⟨621, 0x04, 0x008, 16, 8, .ro, 48, .page, 1, 1, 0, 0⟩
/-- R378. -/
def pw_PKG_LIMIT : Field := ⟨622, 0x04, 0x080, 0, 16, .rw, 4200, .page, 1, 1, 0, 0⟩
/-- R378. -/
def pw_ORDERLY_OFF : Field := ⟨623, 0x04, 0x080, 16, 1, .wo, 0, .page, 1, 1, 0, 0⟩
/-- R378. -/
def pw_RESET_KEY : Field := ⟨624, 0x04, 0x080, 24, 8, .wo, 0, .page, 1, 1, 0, 0⟩
/-- R378. -/
def pw_CAP_ACTIVE : Field := ⟨625, 0x04, 0x088, 0, 1, .ro, 0, .page, 1, 1, 0, 0⟩
/-- R378. -/
def pw_CAP_UNMET_SEEN : Field := ⟨626, 0x04, 0x088, 1, 1, .w1c, 0, .page, 1, 1, 0, 0⟩
/-- R378. -/
def pw_THERM_WARN : Field := ⟨627, 0x04, 0x088, 2, 1, .ro, 0, .page, 1, 1, 0, 0⟩
/-- R378. -/
def pw_THERM_WARN_SEEN : Field := ⟨628, 0x04, 0x088, 3, 1, .w1c, 0, .page, 1, 1, 0, 0⟩
/-- R378. -/
def pw_FEED_A_OK : Field := ⟨629, 0x04, 0x088, 4, 1, .ro, 0, .page, 1, 1, 0, 0⟩
/-- R378. -/
def pw_FEED_B_OK : Field := ⟨630, 0x04, 0x088, 5, 1, .ro, 0, .page, 1, 1, 0, 0⟩
/-- R378. -/
def pw_FEED_A_LOST_SEEN : Field := ⟨631, 0x04, 0x088, 6, 1, .w1c, 0, .page, 1, 1, 0, 0⟩
/-- R378. -/
def pw_FEED_B_LOST_SEEN : Field := ⟨632, 0x04, 0x088, 7, 1, .w1c, 0, .page, 1, 1, 0, 0⟩
/-- R378. -/
def pw_OFF_READY : Field := ⟨633, 0x04, 0x088, 8, 1, .ro, 0, .page, 1, 1, 0, 0⟩
/-- R378. -/
def pw_EFFECTIVE_LIMIT : Field := ⟨634, 0x04, 0x088, 32, 16, .ro, 4200, .page, 1, 1, 0, 0⟩
/-- R378. -/
def pw_PKG_POWER : Field := ⟨635, 0x04, 0x090, 0, 32, .ro, 0, .page, 1, 1, 0, 0⟩
/-- R378. -/
def pw_FEED_A_MV : Field := ⟨636, 0x04, 0x098, 0, 16, .ro, 0, .page, 1, 1, 0, 0⟩
/-- R378. -/
def pw_FEED_A_MA : Field := ⟨637, 0x04, 0x098, 16, 16, .ro, 0, .page, 1, 1, 0, 0⟩
/-- R378. -/
def pw_FEED_B_MV : Field := ⟨638, 0x04, 0x098, 32, 16, .ro, 0, .page, 1, 1, 0, 0⟩
/-- R378. -/
def pw_FEED_B_MA : Field := ⟨639, 0x04, 0x098, 48, 16, .ro, 0, .page, 1, 1, 0, 0⟩
/-- R378. -/
def pw_SENSOR_SEL : Field := ⟨640, 0x04, 0x0A0, 0, 6, .rw, 0, .page, 1, 1, 0, 0⟩
/-- R378. -/
def pw_TEMP : Field := ⟨641, 0x04, 0x0A8, 0, 16, .ro, 0, .sensor, 1, 1, 0, 0⟩
/-- R378. -/
def pw_TEMP_MAX : Field := ⟨642, 0x04, 0x0A8, 16, 16, .ro, 0, .sensor, 1, 1, 0, 0⟩
/-- R378. -/
def pw_LIMIT_C : Field := ⟨643, 0x04, 0x0A8, 32, 8, .ro, 0, .sensor, 1, 1, 0, 0⟩
/-- R378. -/
def pw_DUTY : Field := ⟨644, 0x04, 0x0B0, 0, 7, .ro, 0, .elem, 1, 4, 8, 0⟩
/-- R378. -/
def pw_DIGITAL_W : Field := ⟨645, 0x04, 0x0B8, 0, 16, .ro, 0, .page, 1, 1, 0, 0⟩
/-- R378. -/
def pw_ARRAY_W : Field := ⟨646, 0x04, 0x0B8, 16, 16, .ro, 0, .page, 1, 1, 0, 0⟩
/-- R378. -/
def pw_MEMORY_W : Field := ⟨647, 0x04, 0x0B8, 32, 16, .ro, 0, .page, 1, 1, 0, 0⟩
/-- R378. -/
def pw_IO_W : Field := ⟨648, 0x04, 0x0B8, 48, 16, .ro, 0, .page, 1, 1, 0, 0⟩
/-- R378. -/
def pw_CONTROL_W : Field := ⟨649, 0x04, 0x0C0, 0, 16, .ro, 0, .page, 1, 1, 0, 0⟩
/-- R378. -/
def pw_CONVERSION_W : Field := ⟨650, 0x04, 0x0C0, 16, 16, .ro, 0, .page, 1, 1, 0, 0⟩
/-- R378. -/
def pw_CNT_CLEAR : Field := ⟨651, 0x04, 0x0F8, 0, 1, .wo, 0, .page, 1, 1, 0, 0⟩
/-- R378. -/
def pw_THROTTLED_FRAMES : Field := ⟨652, 0x04, 0x200, 0, 64, .ro, 0, .page, 1, 1, 0, 0⟩
/-- R378. -/
def pw_CAP_FRAMES : Field := ⟨653, 0x04, 0x208, 0, 32, .sat, 0, .page, 1, 1, 0, 0⟩
/-- R378. -/
def pw_THERM_FRAMES : Field := ⟨654, 0x04, 0x208, 32, 32, .sat, 0, .page, 1, 1, 0, 0⟩
/-- R378. -/
def pw_ARRAY_HOT_MS : Field := ⟨655, 0x04, 0x210, 0, 32, .sat, 0, .page, 1, 1, 0, 0⟩
/-- R378. -/
def pw_FEED_LOSSES : Field := ⟨656, 0x04, 0x210, 32, 32, .sat, 0, .page, 1, 1, 0, 0⟩
/-- R378. -/
def pw_CAP_HYST : Field := ⟨657, 0x04, 0x800, 0, 16, .rw, 82, .page, 1, 1, 0, 0⟩
/-- R378. -/
def pw_DUTY_MAX : Field := ⟨658, 0x04, 0x800, 16, 6, .rw, 56, .page, 1, 1, 0, 0⟩
/-- R392. -/
def fa_LOGS : Field := ⟨659, 0x70, 0x008, 0, 3, .ro, 4, .page, 1, 1, 0, 0⟩
/-- R392. -/
def fa_DUMP_MIB : Field := ⟨660, 0x70, 0x008, 16, 16, .ro, 1024, .page, 1, 1, 0, 0⟩
/-- R392. -/
def fa_LOG_SEL : Field := ⟨661, 0x70, 0x080, 0, 2, .rw, 0, .page, 1, 1, 0, 0⟩
/-- R392. -/
def fa_DUMP_ACK : Field := ⟨662, 0x70, 0x080, 8, 1, .wo, 0, .page, 1, 1, 0, 0⟩
/-- R392. -/
def fa_DUMP_RESTORE : Field := ⟨663, 0x70, 0x080, 9, 1, .wo, 0, .page, 1, 1, 0, 0⟩
/-- R392. -/
def fa_DEVICE_FATAL : Field := ⟨664, 0x70, 0x088, 0, 1, .ro, 0, .page, 1, 1, 0, 0⟩
/-- R392. -/
def fa_DUMP_READY : Field := ⟨665, 0x70, 0x088, 1, 1, .ro, 0, .page, 1, 1, 0, 0⟩
/-- R392. -/
def fa_DUMP_KIND : Field := ⟨666, 0x70, 0x088, 2, 2, .ro, 0, .page, 1, 1, 0, 0⟩
/-- R392. -/
def fa_DUMP_ON_SHELF : Field := ⟨667, 0x70, 0x088, 4, 1, .ro, 0, .page, 1, 1, 0, 0⟩
/-- R392. -/
def fa_DUMP_SHELF_VALID : Field := ⟨668, 0x70, 0x088, 5, 1, .ro, 0, .page, 1, 1, 0, 0⟩
/-- R392. -/
def fa_DUMP_FAILED : Field := ⟨669, 0x70, 0x088, 6, 1, .w1c, 0, .page, 1, 1, 0, 0⟩
/-- R392. -/
def fa_UNCORR_SEEN : Field := ⟨670, 0x70, 0x088, 7, 1, .w1c, 0, .page, 1, 1, 0, 0⟩
/-- R392. -/
def fa_CORR_ALARM_SEEN : Field := ⟨671, 0x70, 0x088, 8, 1, .w1c, 0, .page, 1, 1, 0, 0⟩
/-- R392. -/
def fa_FATAL_CODE : Field := ⟨672, 0x70, 0x088, 9, 4, .ro, 0, .page, 1, 1, 0, 0⟩
/-- R392. -/
def fa_CORR_ALARM_TYPE : Field := ⟨673, 0x70, 0x088, 16, 8, .ro, 0, .page, 1, 1, 0, 0⟩
/-- R392. -/
def fa_CORR_ALARM_INST : Field := ⟨674, 0x70, 0x088, 24, 16, .ro, 0, .page, 1, 1, 0, 0⟩
/-- R392. -/
def fa_FATAL_TIME : Field := ⟨675, 0x70, 0x090, 0, 64, .ro, 0, .page, 1, 1, 0, 0⟩
/-- R392. -/
def fa_FATAL_TYPE : Field := ⟨676, 0x70, 0x098, 0, 8, .ro, 0, .page, 1, 1, 0, 0⟩
/-- R392. -/
def fa_FATAL_INST : Field := ⟨677, 0x70, 0x098, 8, 16, .ro, 0, .page, 1, 1, 0, 0⟩
/-- R392. -/
def fa_DUMP_BASE : Field := ⟨678, 0x70, 0x0A0, 0, 48, .ro, 0, .page, 1, 1, 0, 0⟩
/-- R392. -/
def fa_LOG_BASE : Field := ⟨679, 0x70, 0x0B8, 0, 48, .rw, 0, .log, 1, 1, 0, 0⟩
/-- R392. -/
def fa_LOG_SIZE : Field := ⟨680, 0x70, 0x0C0, 0, 5, .rw, 14, .log, 1, 1, 0, 0⟩
/-- R392. -/
def fa_LOG_EN : Field := ⟨681, 0x70, 0x0C0, 5, 1, .rw, 0, .log, 1, 1, 0, 0⟩
/-- R392. -/
def fa_LOG_HEAD : Field := ⟨682, 0x70, 0x0C8, 0, 64, .ro, 0, .log, 1, 1, 0, 0⟩
/-- R392. -/
def fa_LOG_TAIL : Field := ⟨683, 0x70, 0x0D0, 0, 64, .rw, 0, .log, 1, 1, 0, 0⟩
/-- R392. -/
def fa_CNT_CLEAR : Field := ⟨684, 0x70, 0x0F8, 0, 1, .wo, 0, .page, 1, 1, 0, 0⟩
/-- R392. -/
def fa_UNCORRECTABLE : Field := ⟨685, 0x70, 0x200, 0, 32, .sat, 0, .page, 1, 1, 0, 0⟩
/-- R392. -/
def fa_PROGRAM_FATALS : Field := ⟨686, 0x70, 0x200, 32, 32, .sat, 0, .page, 1, 1, 0, 0⟩
/-- R392. -/
def fa_DUMPS_WRITTEN : Field := ⟨687, 0x70, 0x208, 0, 32, .sat, 0, .page, 1, 1, 0, 0⟩
/-- R392. -/
def fa_DUMPS_SKIPPED : Field := ⟨688, 0x70, 0x208, 32, 32, .sat, 0, .page, 1, 1, 0, 0⟩
/-- R392. -/
def fa_LOG_OVERWRITTEN : Field := ⟨689, 0x70, 0x210, 0, 32, .sat, 0, .log, 1, 1, 0, 0⟩
/-- R392. -/
def fa_CORR_ALARM_LIMIT : Field := ⟨690, 0x70, 0x800, 0, 32, .rw, 1000, .page, 1, 1, 0, 0⟩
/-- R393. -/
def dd_CORR_SINGLE : Field := ⟨691, 0x20, 0x200, 0, 64, .ro, 0, .page, 1, 1, 0, 0⟩
/-- R393. -/
def sp_CORR_SINGLE : Field := ⟨692, 0x24, 0x200, 0, 64, .ro, 0, .page, 1, 1, 0, 0⟩
/-- R393. -/
def mc_CORR_SINGLE : Field := ⟨693, 0x30, 0x200, 0, 64, .ro, 0, .page, 1, 1, 0, 0⟩
/-- R393. -/
def dd_CORR_DOUBLE : Field := ⟨694, 0x20, 0x208, 0, 64, .ro, 0, .page, 1, 1, 0, 0⟩
/-- R393. -/
def sp_CORR_DOUBLE : Field := ⟨695, 0x24, 0x208, 0, 64, .ro, 0, .page, 1, 1, 0, 0⟩
/-- R393. -/
def mc_CORR_DOUBLE : Field := ⟨696, 0x30, 0x208, 0, 64, .ro, 0, .page, 1, 1, 0, 0⟩
/-- R393. -/
def dd_UNCORR : Field := ⟨697, 0x20, 0x210, 0, 32, .sat, 0, .page, 1, 1, 0, 0⟩
/-- R393. -/
def sp_UNCORR : Field := ⟨698, 0x24, 0x210, 0, 32, .sat, 0, .page, 1, 1, 0, 0⟩
/-- R393. -/
def mc_UNCORR : Field := ⟨699, 0x30, 0x210, 0, 32, .sat, 0, .page, 1, 1, 0, 0⟩
/-- R393. -/
def dd_POISON_WRITES : Field := ⟨700, 0x20, 0x210, 32, 32, .sat, 0, .page, 1, 1, 0, 0⟩
/-- R393. -/
def sp_POISON_WRITES : Field := ⟨701, 0x24, 0x210, 32, 32, .sat, 0, .page, 1, 1, 0, 0⟩
/-- R393. -/
def mc_POISON_WRITES : Field := ⟨702, 0x30, 0x210, 32, 32, .sat, 0, .page, 1, 1, 0, 0⟩
/-- R393. -/
def dd_LAST_UNCORR_ADDR : Field := ⟨703, 0x20, 0x218, 0, 48, .ro, 0, .page, 1, 1, 0, 0⟩
/-- R393. -/
def sp_LAST_UNCORR_ADDR : Field := ⟨704, 0x24, 0x218, 0, 48, .ro, 0, .page, 1, 1, 0, 0⟩
/-- R393. -/
def mc_LAST_UNCORR_ADDR : Field := ⟨705, 0x30, 0x218, 0, 48, .ro, 0, .page, 1, 1, 0, 0⟩
/-- R393. -/
def mc_SCRUB_PASSES : Field := ⟨706, 0x30, 0x220, 0, 32, .sat, 0, .page, 1, 1, 0, 0⟩
/-- R393. -/
def dd_FABRIC_RETRIES : Field := ⟨707, 0x20, 0x220, 32, 32, .sat, 0, .page, 1, 1, 0, 0⟩
/-- R393. -/
def mc_SCRUB_INTERVAL : Field := ⟨708, 0x30, 0x800, 0, 16, .rw, 24, .page, 1, 1, 0, 0⟩
/-- R346. -/
def id_CNT_CLEAR : Field := ⟨709, 0x01, 0x0F8, 0, 1, .wo, 0, .page, 1, 1, 0, 0⟩
/-- R346. -/
def ad_CNT_CLEAR : Field := ⟨710, 0x10, 0x0F8, 0, 1, .wo, 0, .page, 1, 1, 0, 0⟩
/-- R346. -/
def ag_CNT_CLEAR : Field := ⟨711, 0x11, 0x0F8, 0, 1, .wo, 0, .page, 1, 1, 0, 0⟩
/-- R346. -/
def dd_CNT_CLEAR : Field := ⟨712, 0x20, 0x0F8, 0, 1, .wo, 0, .page, 1, 1, 0, 0⟩
/-- R346. -/
def sp_CNT_CLEAR : Field := ⟨713, 0x24, 0x0F8, 0, 1, .wo, 0, .page, 1, 1, 0, 0⟩
/-- R346. -/
def mc_CNT_CLEAR : Field := ⟨714, 0x30, 0x0F8, 0, 1, .wo, 0, .page, 1, 1, 0, 0⟩

end F

/-- The fields of page type 0x00. -/
def fieldsCommon : List Field :=
  [F.com_TYPE, F.com_INSTANCE, F.com_LAYOUT, F.com_READY, F.com_FAULT, F.com_EXPERT_ACTIVE, F.com_EXPERT_DENIED, F.com_REASON, F.com_DETAIL, F.com_SAT_LO, F.com_SAT_HI, F.com_SAT_TBL, F.com_EXPERT_EN, F.com_EXPERT_RESTORE]

/-- The fields of page type 0x01. -/
def fieldsIdentity : List Field :=
  [F.id_VARIANT, F.id_STEP_LETTER, F.id_STEP_DIGIT, F.id_DIGITAL_DIES, F.id_ARRAY_DIES, F.id_CONTROL_DIES, F.id_MEM_STACKS, F.id_IO_DIES, F.id_ARRAYS_PER_DIE, F.id_SPARES_PER_DIE, F.id_GROUPS_PER_DIE, F.id_ARRAY_ROWS, F.id_ARRAY_COLS, F.id_MATRIX_PER_DIE, F.id_VECTOR_PER_DIE, F.id_ROW_PER_DIE, F.id_SCRATCH_MIB, F.id_MC_SITES, F.id_MC_USED, F.id_STACK_GIB, F.id_PORT_GBPS, F.id_MAX_POWER_W, F.id_SERIAL, F.id_SIGNATURE, F.id_ALL_READY, F.id_MEMORY_READY, F.id_ARRAYS_READY, F.id_PORTS_READY, F.id_TIME_LOCKED, F.id_ENGINES_READY, F.id_SHELF_READY, F.id_FIRMWARE_READY, F.id_NOT_READY_PAGES, F.id_EXPERT_PAGES, F.id_FIRST_TYPE, F.id_FIRST_INSTANCE, F.id_VENDOR_ID, F.id_DEVICE_ID, F.id_FW_VERSION, F.id_SITE_IO] ++
  [F.id_SITE_PAGE, F.id_SITE_DIE, F.id_CNT_CLEAR]

/-- The fields of page type 0x02. -/
def fieldsCommit : List Field :=
  [F.cm_CHECK_LIMIT_US, F.cm_GO, F.cm_WHEN, F.cm_DISCARD, F.cm_AT_TIME, F.cm_STATE, F.cm_RESULT, F.cm_MEMBERSHIP, F.cm_STEP_SET_HELD, F.cm_STEP_SET_FAILED, F.cm_OWNER, F.cm_CLAIM, F.cm_RELEASE, F.cm_REJECT_INFO, F.cm_APPLIED_TIME, F.cm_APPLIED_ALIGN, F.cm_PENDING_AT, F.cm_STEP, F.cm_EPOCH, F.cm_CNT_CLEAR, F.cm_COMMITS_APPLIED, F.cm_COMMITS_FAILED, F.cm_COMMITS_BUSY, F.cm_STAGED_WRITES_DROPPED, F.cm_CLAIM_EXPIRED, F.cm_CLAIM_LIMIT]

/-- The fields of page type 0x03. -/
def fieldsClock : List Field :=
  [F.ck_REF_MHZ, F.ck_ROOT_MHZ, F.ck_REG_MHZ, F.ck_SERVO_EN, F.ck_STEP_EN, F.ck_PTP_ROLE, F.ck_PTP_PORT, F.ck_DOMAIN, F.ck_PRIORITY1, F.ck_PRIORITY2, F.ck_TIME_NS, F.ck_TIME_FRAC, F.ck_ALIGN_COUNT, F.ck_ALIGN_AT_TIME, F.ck_INCR, F.ck_STEP_NS, F.ck_LOCKED, F.ck_LOCK_LOST_SEEN, F.ck_STEPPED_SEEN, F.ck_PORT_STATE, F.ck_ACTIVE_PORT, F.ck_OFFSET_NS, F.ck_MEAN_PATH_NS, F.ck_ADJ_PPB, F.ck_GM_IDENTITY, F.ck_CNT_CLEAR, F.ck_SYNC_RX, F.ck_DELAY_REQ_TX, F.ck_ANNOUNCE_RX, F.ck_PTP_DISCARDS, F.ck_STEPS, F.ck_LOCK_LOSSES, F.ck_KP, F.ck_KI, F.ck_SLEW_MAX, F.ck_LOCK_NS, F.ck_STEP_THRESHOLD]

/-- The fields of page type 0x04. -/
def fieldsPower : List Field :=
  [F.pw_MAX_POWER_W, F.pw_SENSORS, F.pw_PKG_LIMIT, F.pw_ORDERLY_OFF, F.pw_RESET_KEY, F.pw_CAP_ACTIVE, F.pw_CAP_UNMET_SEEN, F.pw_THERM_WARN, F.pw_THERM_WARN_SEEN, F.pw_FEED_A_OK, F.pw_FEED_B_OK, F.pw_FEED_A_LOST_SEEN, F.pw_FEED_B_LOST_SEEN, F.pw_OFF_READY, F.pw_EFFECTIVE_LIMIT, F.pw_PKG_POWER, F.pw_FEED_A_MV, F.pw_FEED_A_MA, F.pw_FEED_B_MV, F.pw_FEED_B_MA, F.pw_SENSOR_SEL, F.pw_TEMP, F.pw_TEMP_MAX, F.pw_LIMIT_C, F.pw_DUTY, F.pw_DIGITAL_W, F.pw_ARRAY_W, F.pw_MEMORY_W, F.pw_IO_W, F.pw_CONTROL_W, F.pw_CONVERSION_W, F.pw_CNT_CLEAR, F.pw_THROTTLED_FRAMES, F.pw_CAP_FRAMES, F.pw_THERM_FRAMES, F.pw_ARRAY_HOT_MS, F.pw_FEED_LOSSES, F.pw_CAP_HYST, F.pw_DUTY_MAX]

/-- The fields of page type 0x10. -/
def fieldsArrayDie : List Field :=
  [F.ad_PRESET, F.ad_PAUSE, F.ad_LEDGER_UNKNOWN, F.ad_SLEEP, F.ad_SLEEP_REFUSED, F.ad_REMAP_BLOCK, F.ad_SPARE_PHYS, F.ad_GROUP, F.ad_ENABLE, F.ad_REMAP_STG, F.ad_REMAP_CUR, F.ad_SPARES_FREE, F.ad_RETIRED, F.ad_DRIFT_THRESH, F.ad_RATE_STEPS, F.ad_LIFE_BUDGET, F.ad_RETRY_MAX, F.ad_RETIRE_LEVEL, F.ad_ITER_MAX, F.ad_LEDGER_LOSS_ADD, F.ad_CNT_CLEAR]

/-- The fields of page type 0x11. -/
def fieldsArrayGroup : List Field :=
  [F.ag_ARRAY, F.ag_ROW_BLOCK, F.ag_RANGE_GAIN, F.ag_OUTLIER_ROW, F.ag_OUTLIER_VALID, F.ag_DENSE_BUSY, F.ag_SPARSE_BUSY, F.ag_SKIPPED_ROUNDS, F.ag_ZERO_INPUT_PRODUCTS, F.ag_CLIPPED_PRODUCTS, F.ag_ROW_GAIN_CUR, F.ag_ROW_GAIN_STG, F.ag_CONVERTER, F.ag_COLUMN, F.ag_CLEAR_SEL, F.ag_BAND_PRESET, F.ag_VERIFY_REQ, F.ag_LOAD_HOLD, F.ag_BAND_EVENT_SEEN, F.ag_REF_CELL_EVENT, F.ag_TRIM_LIMIT, F.ag_SWEEP_STALE, F.ag_VERIFY_REFUSED, F.ag_LOAD_REFUSED, F.ag_STANDBY_READY, F.ag_VERIFIED, F.ag_VERIFY_RUNNING, F.ag_SWEEP_POS, F.ag_SWEEP_DONE, F.ag_SWEEP_ABORTS, F.ag_BAND_EVENTS, F.ag_TABLE_SWAPS, F.ag_CYCLES_DONE, F.ag_CONVERSIONS, F.ag_CLIPPED, F.ag_RAIL_HITS, F.ag_AUDIT_SSE, F.ag_AUDIT_SAMPLES, F.ag_TRIM_CUR, F.ag_TRIM_STBY] ++
  [F.ag_COLSUM_CUR, F.ag_COLSUM_STBY, F.ag_COLSUM_STG, F.ag_STG_VALID, F.ag_STBY_MEASURED, F.ag_NOM_CUR, F.ag_NOM_STG, F.ag_OFFSET_BAND, F.ag_SKEW_BAND, F.ag_GAIN_BAND, F.ag_COLSUM_REL, F.ag_COLSUM_ABS, F.ag_TRIM_FILTER, F.ag_SWEEP_HOLD, F.ag_STALE_LIMIT, F.ag_COL_OP, F.ag_SOURCE, F.ag_WRITE_SCALE, F.ag_EXEMPT, F.ag_REFUSED, F.ag_REFUSE_CODE, F.ag_DATA_ADDR, F.ag_APPLIED_SCALE, F.ag_FOLD_EXP, F.ag_READMIT, F.ag_SRC_ARRAY, F.ag_SRC_VALID, F.ag_REWRITES, F.ag_WRITE_FAILS, F.ag_EVICT_REFUSED, F.ag_SCALE_LIMITED, F.ag_NONFINITE_COLS, F.ag_WRITE_SLOTS, F.ag_APPLIED_CUR, F.ag_FOLD_CUR, F.ag_IN_BYPASS, F.ag_PERMANENT, F.ag_WRITE_STATE, F.ag_PROG_COUNT, F.ag_LAST_STEP] ++
  [F.ag_BYPASSED, F.ag_PERM_COUNT, F.ag_BYPASS_LIMIT, F.ag_QUEUE_DEPTH, F.ag_DRIFT_MAX, F.ag_ROW_GAIN_BASE, F.ag_AUDIT_EN, F.ag_AUDIT_CLEAR, F.ag_AUDIT_PAUSED, F.ag_IMAGE_BASE, F.ag_AUDIT_SKIPS, F.ag_OUTQ_CLIPS, F.ag_OUTQ_NONFINITE, F.ag_FOLD_STALE, F.ag_DRIFT_EPOCH, F.ag_FOLD_GEN, F.ag_AUDIT_STRIDE, F.ag_FRAME_PHASE, F.ag_FRAME_MAP_STG, F.ag_FRAME_MAP_CUR, F.ag_CNT_CLEAR]

/-- The fields of page type 0x20. -/
def fieldsDigitalDie : List Field :=
  [F.dd_CORR_SINGLE, F.dd_CORR_DOUBLE, F.dd_UNCORR, F.dd_POISON_WRITES, F.dd_LAST_UNCORR_ADDR, F.dd_FABRIC_RETRIES, F.dd_CNT_CLEAR]

/-- The fields of page type 0x21. -/
def fieldsMatrix : List Field :=
  [F.mx_ENGINES, F.mx_TILE_DIM, F.mx_KBLOCK, F.mx_CNT_CLEAR, F.mx_TILES_DONE, F.mx_BUSY_CYCLES, F.mx_UNDERFLOWS, F.mx_OVERFLOW_ELEMS, F.mx_NONFINITE_CMDS, F.mx_MARKERS_READ, F.mx_TRANSPOSE_MISALIGN]

/-- The fields of page type 0x22. -/
def fieldsVector : List Field :=
  [F.ve_LANES, F.ve_MAX_STREAM, F.ve_HIST_BINS, F.ve_CNT_CLEAR, F.ve_OUTLIER_MIRROR, F.ve_ELEMENTS_DONE, F.ve_BUSY_CYCLES, F.ve_UNDERFLOWS, F.ve_OVERFLOW_ELEMS, F.ve_NONFINITE_CMDS, F.ve_MARKERS_READ, F.ve_CLIPS, F.ve_STRAY_INDEX, F.ve_LENGTH_CLAMPED, F.ve_COMPACT_WRITTEN]

/-- The fields of page type 0x23. -/
def fieldsRow : List Field :=
  [F.re_LARDER_ENTRIES, F.re_MAX_ROW, F.re_ENTRY, F.re_CNT_CLEAR, F.re_ROWS_FWD, F.re_ROWS_BWD, F.re_LARDER_HITS, F.re_MISS_INVALID, F.re_MISS_KEY, F.re_FALLBACK_ELEMS, F.re_MERGE_MISS, F.re_MERGES, F.re_UNDERFLOWS, F.re_NONFINITE_CMDS, F.re_STAT_A, F.re_STAT_B, F.re_TAG_KEY, F.re_TAG_VALID, F.re_TAG_MERGED, F.re_LARDER_FLUSH]

/-- The fields of page type 0x24. -/
def fieldsScratchpad : List Field :=
  [F.sp_CORR_SINGLE, F.sp_CORR_DOUBLE, F.sp_UNCORR, F.sp_POISON_WRITES, F.sp_LAST_UNCORR_ADDR, F.sp_CNT_CLEAR]

/-- The fields of page type 0x25. -/
def fieldsSequencer : List Field :=
  [F.sq_SEQUENCERS, F.sq_QUEUES, F.sq_QUEUE_DEPTH, F.sq_BIN_CMDS, F.sq_TRACKER, F.sq_SEQ_SEL, F.sq_GUARD_POLICY, F.sq_TRACE_ALL, F.sq_LOAD_SEQ, F.sq_LOAD_BIN, F.sq_LOAD_GO, F.sq_LOAD_BUSY, F.sq_BIN_ADDR, F.sq_CODE, F.sq_INDEX, F.sq_WAIT_TIMEOUT, F.sq_EXCH_WAIT_EXTRA, F.sq_PROG_GEN, F.sq_RUNNING, F.sq_FATAL, F.sq_FATAL_KIND, F.sq_FATAL_TAG, F.sq_CNT_CLEAR, F.sq_SWITCH_STG, F.sq_ISSUED, F.sq_SKIPPED, F.sq_BIN_WRITE_REFUSED, F.sq_STALE_TOKENS, F.sq_GUARD_ENTRIES, F.sq_CREC_DROPPED, F.sq_TRACKER_OUT, F.sq_TRACKER_HIGH, F.sq_PC_INDEX, F.sq_PC_BIN, F.sq_VALID_0, F.sq_VALID_1, F.sq_STATE, F.sq_PRED, F.sq_STICKY, F.sq_LAST_SKIP] ++
  [F.sq_LAST_FMT, F.sq_LAST_EXTENT, F.sq_ISSUE_TIME, F.sq_WAIT_QUEUE, F.sq_WAITING, F.sq_ADDR_SEL, F.sq_ADDR_VAL, F.sq_QUEUE_SEL, F.sq_QUEUE_FILL, F.sq_HEAD_TOKEN, F.sq_CREC_BASE, F.sq_CREC_SIZE, F.sq_CREC_HEAD, F.sq_CREC_TAIL]

/-- The fields of page type 0x30. -/
def fieldsMemCtl : List Field :=
  [F.mc_CORR_SINGLE, F.mc_CORR_DOUBLE, F.mc_UNCORR, F.mc_POISON_WRITES, F.mc_LAST_UNCORR_ADDR, F.mc_SCRUB_PASSES, F.mc_SCRUB_INTERVAL, F.mc_CNT_CLEAR]

/-- The fields of page type 0x40. -/
def fieldsPort : List Field :=
  [F.pt_LANES, F.pt_LANE_RATE, F.pt_PORT_GBPS, F.pt_MAX_FRAME, F.pt_ENABLE, F.pt_MEDIA, F.pt_AN_EN, F.pt_LOOPBACK, F.pt_TAG_EN, F.pt_VID, F.pt_PCP_QUERY, F.pt_PCP_CONTROL, F.pt_PCP_BULK, F.pt_MAC_ADDR, F.pt_TX_DELAY_ADJ, F.pt_RX_DELAY_ADJ, F.pt_TX_DELAY_FACT, F.pt_RX_DELAY_FACT, F.pt_LINK_UP, F.pt_AN_DONE, F.pt_HIGH_BER, F.pt_LINK_DOWN_SEEN, F.pt_PTP_ACTIVE, F.pt_ZONE_SEL, F.pt_CNT_CLEAR, F.pt_ROUTE_ADDR, F.pt_ROUTE_ENTRIES, F.pt_ZONE_EN, F.pt_ZONE_QUEUE, F.pt_ZONE_DIE, F.pt_ZONE_BASE, F.pt_ZONE_BYTES, F.pt_ZONE_EXPECT, F.pt_FRAMES_TX, F.pt_FRAMES_RX, F.pt_BYTES_TX, F.pt_BYTES_RX, F.pt_FEC_CORRECTED, F.pt_FEC_UNCORRECTED, F.pt_FCS_ERRORS] ++
  [F.pt_FRAME_SIZE_ERRORS, F.pt_OTHER_ETHERTYPE, F.pt_BAD_FRAMES, F.pt_RETRANSMITS, F.pt_DUPLICATES, F.pt_WINDOW_DROPS, F.pt_LINK_DOWNS, F.pt_STALE_WRITES, F.pt_WINDOW_FULL, F.pt_ZONE_COUNT, F.pt_RETX_TIMEOUT, F.pt_RETX_MAX, F.pt_ACK_DELAY]

/-- The fields of page type 0x41. -/
def fieldsExchange : List Field :=
  [F.ex_MAX_RANKS, F.ex_MAX_BUCKETS, F.ex_OP_MAX_BYTES, F.ex_RANK, F.ex_MEMBERS, F.ex_STEP_VETOED, F.ex_VETO_SEEN, F.ex_EXCLUDED_SEEN, F.ex_DEADLINE_SEEN, F.ex_REPEAT_SEEN, F.ex_BUCKET_SEL, F.ex_BUCKET_STATE, F.ex_OWNER_HERE, F.ex_AGREE_VALID, F.ex_OVERFLOW, F.ex_NONFINITE, F.ex_INCLUDED_SELF, F.ex_INCLUDED, F.ex_DEADLINE_TIME, F.ex_CNT_CLEAR, F.ex_BUCKET_TABLE, F.ex_BUCKET_COUNT, F.ex_STATE_ADDR, F.ex_NF_POLICY, F.ex_HEADROOM, F.ex_OPS_RECEIVED, F.ex_ELEMS_ACCUMULATED, F.ex_CLOSED_FULL, F.ex_CLOSED_DEADLINE, F.ex_LATE_OPS, F.ex_STALE_OPS, F.ex_REPEATS, F.ex_VETOES, F.ex_DROPS, F.ex_REBUILDS, F.ex_EXCLUSIONS, F.ex_MARKERS_RECEIVED, F.ex_OVERFLOW_ELEMS, F.ex_UNDERFLOWS, F.ex_BAD_OPS] ++
  [F.ex_INCLUDED_MAP, F.ex_DEADLINE_MULT, F.ex_DEADLINE_MIN, F.ex_ORD_WINDOW, F.ex_VOTE_SENT, F.ex_COMMIT_LATE_SEEN, F.ex_UPDATE_NONFINITE_SEEN, F.ex_UPDATES_PENDING, F.ex_UPDATE_TABLE, F.ex_MASTER_HALF0, F.ex_MASTER_HALF1, F.ex_MASTER_PAGES, F.ex_STATE_HALF0, F.ex_STATE_HALF1, F.ex_STATE_PAGES, F.ex_DELTAS_APPLIED, F.ex_COMMIT_LATE, F.ex_MASTER_NONFINITE, F.ex_COMMITS_VETOED, F.ex_COMMIT_LEAD]

/-- The fields of page type 0x50. -/
def fieldsControl : List Field :=
  [F.cd_CORES, F.cd_CORE_MHZ, F.cd_CACHE_MIB, F.cd_HOST_EP, F.cd_ROOT_PORT, F.cd_FW_VERSION, F.cd_CNT_CLEAR, F.cd_EVENTS]

/-- The fields of page type 0x51. -/
def fieldsHost : List Field :=
  [F.hi_HCR_RINGS, F.hi_QUERY_RINGS, F.hi_HOST_QUERY_MAX, F.hi_RING_SEL, F.hi_RING_BASE, F.hi_RING_SIZE, F.hi_RING_ENABLE, F.hi_RING_IDLE, F.hi_WIN_BASE, F.hi_BUS_MASTER, F.hi_DOORBELL_BAD_SEEN, F.hi_RING_ERROR_SEEN, F.hi_HOST_DROP_SEEN, F.hi_CNT_CLEAR, F.hi_HCR_DROPPED, F.hi_DOORBELL_BAD, F.hi_BAR0_BAD_ACCESS, F.hi_WINDOW_MISSES, F.hi_HOST_WRITES_DROPPED, F.hi_RING_ERRORS, F.hi_HOST_INDEX, F.hi_PART_INDEX]

/-- The fields of page type 0x52. -/
def fieldsShelf : List Field :=
  [F.sh_PCIE_GEN, F.sh_LANES, F.sh_RESCAN, F.sh_LINK_UP, F.sh_DRIVE_READY, F.sh_DRIVE_FAILED, F.sh_DRIVE_FAIL_SEEN, F.sh_FAIL_REASON, F.sh_LBA_SHIFT, F.sh_CRIT_WARNING, F.sh_PERCENT_USED, F.sh_CAPACITY, F.sh_CNT_CLEAR, F.sh_SLOT_BYTES, F.sh_BYTES_WRITTEN, F.sh_BYTES_READ, F.sh_CMD_ERRORS, F.sh_TIMEOUTS, F.sh_NVME_TIMEOUT]

/-- The fields of page type 0x60. -/
def fieldsHealth : List Field :=
  [F.he_LAYERS, F.he_SPIKE_EN, F.he_SPIKE_VETO, F.he_STARVE_VETO, F.he_MIXER_TEST, F.he_RUN_CLEAR, F.he_DETECTOR_RESET, F.he_STARVE_LIMIT, F.he_LOSS_ADDR, F.he_LOSS_DIE, F.he_SPIKE_SEEN, F.he_STARVED_SEEN, F.he_NONFINITE_SEEN, F.he_NO_LOSS_SEEN, F.he_MIXER_OK, F.he_MIXER_FAIL, F.he_WARM, F.he_HEALTH_VETO_NOW, F.he_SPIKE_CAUSE, F.he_EWMA, F.he_LAST_LOSS, F.he_SPIKE_STEP, F.he_SPIKE_LOSS, F.he_SPIKE_EWMA, F.he_LAYER_SEL, F.he_CNT_CLEAR, F.he_SPIKES, F.he_NO_LOSS, F.he_HEALTH_VETOES, F.he_SAMPLES, F.he_STARVED_LAYERS, F.he_FIRST_STARVED, F.he_LAYER_NONFINITE, F.he_ZERO_RUN, F.he_STARVED, F.he_SPIKE_K, F.he_EWMA_SHIFT, F.he_WARMUP]

/-- The fields of page type 0x61. -/
def fieldsResilience : List Field :=
  [F.rs_MAX_MEMBERS, F.rs_SHELF_SLOTS, F.rs_SHELF_EN, F.rs_STORE_ACK, F.rs_STAGING_LOADED, F.rs_GENERATION, F.rs_MEMBER, F.rs_JOINING, F.rs_WITHDRAWN, F.rs_MIRROR, F.rs_CORRELATED_WARN, F.rs_SHARED_DOMAIN, F.rs_ROLLBACK_NEEDED, F.rs_RESTORE_DONE, F.rs_STORE_READY, F.rs_STAGING_BUSY, F.rs_SUSPECT_SEEN, F.rs_CRC_MISMATCH_SEEN, F.rs_SHARD_LOST_SEEN, F.rs_SHELF_FAIL_SEEN, F.rs_WITHDREW_SEEN, F.rs_VIEW_REJECTED, F.rs_EFF_SHELF_INTERVAL, F.rs_STOREROOM_INTERVAL, F.rs_CRC_INTERVAL, F.rs_SHELF_EPOCH_0, F.rs_SHELF_EPOCH_1, F.rs_STORE_EPOCH, F.rs_ROLLBACK_EPOCH, F.rs_PAGES_LEFT, F.rs_CELLARS_INVALID, F.rs_LOST_BUCKETS, F.rs_CNT_CLEAR, F.rs_VIEW_ADDR, F.rs_FEED, F.rs_BOARD, F.rs_RACK, F.rs_STAGING_ADDR, F.rs_STAGING_BYTES, F.rs_SUSPECTS] ++
  [F.rs_MEMBERSHIP_COMMITS, F.rs_CRC_CHECKS, F.rs_CRC_MISMATCH, F.rs_CRC_SKIPPED, F.rs_RECELLARS, F.rs_SHELF_WRITES, F.rs_SHELF_SKIPPED, F.rs_VOTE_HOLDS, F.rs_NONMEMBER_DISCARDS, F.rs_PAGES_SENT, F.rs_SUSPECT_MAP, F.rs_HB_PERIOD, F.rs_HB_MISS_LIMIT, F.rs_RECELLAR_SHARE, F.rs_FEED_OVERRIDE]

/-- The fields of page type 0x62. -/
def fieldsQuery : List Field :=
  [F.qe_ENDPOINTS, F.qe_CHAIN_ENTRIES, F.qe_EP_SEL, F.qe_ADMIT_EN, F.qe_DEFINED, F.qe_GROUPS_READY, F.qe_LATE_SEEN, F.qe_OUTSTANDING, F.qe_PROMISE_AP, F.qe_PIPELINE_AP, F.qe_PROMISE_NS, F.qe_CNT_CLEAR, F.qe_ENTRIESM1, F.qe_SPACING, F.qe_ORIGIN, F.qe_QUEUE_BOUND, F.qe_DIE, F.qe_CHAIN_ADDR, F.qe_ADMITTED, F.qe_REFUSED, F.qe_COMPLETED, F.qe_LATE, F.qe_UNAVAILABLE, F.qe_STALE, F.qe_WORST_NS, F.qe_UNDELIVERED]

/-- The fields of page type 0x70. -/
def fieldsFault : List Field :=
  [F.fa_LOGS, F.fa_DUMP_MIB, F.fa_LOG_SEL, F.fa_DUMP_ACK, F.fa_DUMP_RESTORE, F.fa_DEVICE_FATAL, F.fa_DUMP_READY, F.fa_DUMP_KIND, F.fa_DUMP_ON_SHELF, F.fa_DUMP_SHELF_VALID, F.fa_DUMP_FAILED, F.fa_UNCORR_SEEN, F.fa_CORR_ALARM_SEEN, F.fa_FATAL_CODE, F.fa_CORR_ALARM_TYPE, F.fa_CORR_ALARM_INST, F.fa_FATAL_TIME, F.fa_FATAL_TYPE, F.fa_FATAL_INST, F.fa_DUMP_BASE, F.fa_LOG_BASE, F.fa_LOG_SIZE, F.fa_LOG_EN, F.fa_LOG_HEAD, F.fa_LOG_TAIL, F.fa_CNT_CLEAR, F.fa_UNCORRECTABLE, F.fa_PROGRAM_FATALS, F.fa_DUMPS_WRITTEN, F.fa_DUMPS_SKIPPED, F.fa_LOG_OVERWRITTEN, F.fa_CORR_ALARM_LIMIT]

/-- The fields a page of type `t` maps, the common layout first. -/
def pageFields (t : Nat) : List Field :=
  fieldsCommon ++ (match t with
    | 0x01 => fieldsIdentity
    | 0x02 => fieldsCommit
    | 0x03 => fieldsClock
    | 0x04 => fieldsPower
    | 0x10 => fieldsArrayDie
    | 0x11 => fieldsArrayGroup
    | 0x20 => fieldsDigitalDie
    | 0x21 => fieldsMatrix
    | 0x22 => fieldsVector
    | 0x23 => fieldsRow
    | 0x24 => fieldsScratchpad
    | 0x25 => fieldsSequencer
    | 0x30 => fieldsMemCtl
    | 0x40 => fieldsPort
    | 0x41 => fieldsExchange
    | 0x50 => fieldsControl
    | 0x51 => fieldsHost
    | 0x52 => fieldsShelf
    | 0x60 => fieldsHealth
    | 0x61 => fieldsResilience
    | 0x62 => fieldsQuery
    | 0x70 => fieldsFault
    | _ => [])

end Sys2Proof.Machine
end

