-- ==== Sys2Proof/Machine/Num.lean ====
section
/-! DEFINITION. The part's number formats and their arithmetic (R21 to R50, R141, R142): S16, F32, A8, B8,
level codes, both roundings, the keyed mixer, block scaling, exp32 and the two CRCs. Every operation
that can set a status bit or count an event does so in a `Fl` record it threads. -/

namespace Sys2Proof.Machine

/-- What a computation has met: the three status bits of a result token (R50) and the events its
engine counts. -/
structure Fl where
  nonfinite : Bool := false
  overflow : Bool := false
  clip : Bool := false
  /-- Underflows (R25). -/
  unders : Nat := 0
  /-- Elements overflowed (R44). -/
  overs : Nat := 0
  /-- A8 codes clipped (R28). -/
  clips : Nat := 0
  /-- Saturation markers read (R35). -/
  markers : Nat := 0
  /-- Permutation lanes given the fill value (R163). -/
  strays : Nat := 0
  deriving DecidableEq, Repr

/-- A computation that records what it meets. -/
abbrev Calc (α : Type) := StateM Fl α

/-- Sets non-finite status when `b`. -/
def noteNonfinite (b : Bool) : Calc Unit := modify fun f => { f with nonfinite := f.nonfinite || b }

/-- Sets overflow status and counts one element when `b` (R44). -/
def noteOverflow (b : Bool) : Calc Unit :=
  modify fun f => { f with overflow := f.overflow || b, overs := f.overs + b2n b }

/-- Counts one underflow when `b` (R25). -/
def noteUnder (b : Bool) : Calc Unit := modify fun f => { f with unders := f.unders + b2n b }

/-- Sets clip status and counts one clip when `b` (R28). -/
def noteClip (b : Bool) : Calc Unit := modify fun f => { f with clip := f.clip || b, clips := f.clips + b2n b }

/-- Counts a saturation marker read, with non-finite status (R35). -/
def noteMarker : Calc Unit := modify fun f => { f with nonfinite := true, markers := f.markers + 1 }

/-- Counts a stray permutation index (R163). -/
def noteStray : Calc Unit := modify fun f => { f with strays := f.strays + 1 }

/-! ### Values -/

/-- A value of a floating format: `fin neg m e` is (-1)^neg × m × 2^e. -/
inductive Ext where
  | nan
  | inf (neg : Bool)
  | fin (neg : Bool) (m : Nat) (e : Int)
  deriving DecidableEq, Repr

/-- The value of a pattern with an 8-bit exponent of bias 127 and `f` fraction bits (R22, R26). -/
def valueOf (f : Nat) (x : Nat) : Ext :=
  let frac := x % 2 ^ f
  let ex := bits x f 8
  let neg := bitOf x (f + 8)
  if ex = 255 then (if frac = 0 then .inf neg else .nan)
  else if ex = 0 then .fin neg frac (-126 - f)
  else .fin neg (2 ^ f + frac) ((ex : Int) - 127 - f)

/-- The value of an F32 pattern. -/
def f32Val (x : F32) : Ext := valueOf 23 x.toNat

/-- The value of an S16 pattern. -/
def s16Val (x : S16) : Ext := valueOf 7 x.toNat

/-- Canonical NaN of F32 (R23). -/
def f32Nan : F32 := 0x7FC00000#32

/-- Canonical NaN of S16 (R23). -/
def s16Nan : S16 := 0x7FC0#16

/-- ±0 in F32. -/
def f32Zero (neg : Bool) : F32 := if neg then 0x80000000#32 else 0#32

/-- ±∞ in F32. -/
def f32Inf (neg : Bool) : F32 := if neg then 0xFF800000#32 else 0x7F800000#32

def f32IsNan (x : F32) : Bool := bits x.toNat 23 8 == 255 && x.toNat % 2 ^ 23 != 0
def f32IsInf (x : F32) : Bool := bits x.toNat 23 8 == 255 && x.toNat % 2 ^ 23 == 0
def f32Finite (x : F32) : Bool := bits x.toNat 23 8 != 255
def s16Finite (x : S16) : Bool := bits x.toNat 7 8 != 255
def f32IsZero (x : F32) : Bool := x.toNat % 2 ^ 31 == 0
def f32Neg (x : F32) : Bool := bitOf x.toNat 31
/-- A positive normal S16 value, as a column or segment scale must be (R27, R90). -/
def s16PosNormal (x : S16) : Bool := !bitOf x.toNat 15 && bits x.toNat 7 8 != 255 && bits x.toNat 7 8 != 0

/-- S16 to F32: the pattern followed by 16 zero bits, exactly (R22). -/
def s16ToF32 (x : S16) : F32 := BitVec.ofNat 32 (x.toNat * 65536)

/-! ### Rounding -/

/-- `num / den` to the nearest integer, ties to even. -/
def roundNe (num den : Nat) : Nat :=
  let q := num / den
  let r := num % den
  if 2 * r < den then q else if den < 2 * r then q + 1 else q + q % 2

/-- `num / den` rounded with the random field `r` (R38). -/
def roundSt (r num den : Nat) : Nat := (num * 65536 / den + r) / 65536

/-- A rounding rule: nearest even, or stochastic with a random field. -/
inductive Rnd where
  | ne
  | st (r : Nat)
  deriving DecidableEq, Repr

/-- `num / den` rounded by `rd`. -/
def Rnd.apply (rd : Rnd) (num den : Nat) : Nat :=
  match rd with
  | .ne => roundNe num den
  | .st r => roundSt r num den

/-- `num / den * 2^e` as a ratio of naturals. -/
def scale2 (num den : Nat) (e : Int) : Nat × Nat :=
  if 0 ≤ e then (num * 2 ^ e.toNat, den) else (num, den * 2 ^ (-e).toNat)

/-- The exponent of the binade that holds `num / den`, for `num`, `den` > 0. -/
def ratioLog2 (num den : Nat) : Int :=
  let l : Int := (Nat.log2 num : Int) - (Nat.log2 den : Int)
  let r := scale2 num den (-l)
  if r.1 < r.2 then l - 1 else l

/-- The pattern, without sign, of `num / den * 2^e` in the format of `f` fraction bits; a result at or
beyond 255 × 2^f is an overflow (R38, R50). -/
def encodeMag (f : Nat) (rd : Rnd) (num den : Nat) (e : Int) : Nat :=
  if num = 0 then 0
  else
    let ex := max (ratioLog2 num den + e) (-126)
    let u := ex - f
    let r := scale2 num den (e - u)
    let m := rd.apply r.1 r.2
    min ((ex + 126).toNat * 2 ^ f + m) (255 * 2 ^ f)

/-- `num / den * 2^e` as F32: a finite value that overflows is ±∞ and non-finite (R26). -/
def mkF32 (neg : Bool) (num den : Nat) (e : Int) : Calc F32 := do
  let p := encodeMag 23 .ne num den e
  noteNonfinite (p == 255 * 2 ^ 23)
  noteUnder (num != 0 && p == 0)
  return BitVec.ofNat 32 (p + b2n neg * 2 ^ 31)

/-- F32 of a value; NaN and infinities set non-finite status. -/
def extToF32 : Ext → Calc F32
  | .nan => do noteNonfinite true; return f32Nan
  | .inf neg => do noteNonfinite true; return f32Inf neg
  | .fin neg m e => mkF32 neg m 1 e

/-- A value as S16 by rounding `rd`: overflow from a finite value sets overflow status only (R44, R50). -/
def extToS16 (rd : Rnd) : Ext → Calc S16
  | .nan => do noteNonfinite true; return s16Nan
  | .inf neg => do noteNonfinite true; return (if neg then 0xFF80#16 else 0x7F80#16)
  | .fin neg m e => do
    let p := encodeMag 7 rd m 1 e
    noteOverflow (p == 255 * 2 ^ 7)
    noteUnder (m != 0 && p == 0)
    return BitVec.ofNat 16 (p + b2n neg * 2 ^ 15)

/-- F32 to S16. -/
def f32ToS16 (rd : Rnd) (x : F32) : Calc S16 := extToS16 rd (f32Val x)

/-! ### F32 arithmetic (R26, R50) -/

/-- The sum of two values in F32, nearest even. -/
def extAdd (a b : Ext) : Calc F32 :=
  match a, b with
  | .nan, _ => extToF32 .nan
  | _, .nan => extToF32 .nan
  | .inf s, .inf t => if s = t then extToF32 (.inf s) else extToF32 .nan
  | .inf s, .fin .. => extToF32 (.inf s)
  | .fin .., .inf t => extToF32 (.inf t)
  | .fin s m e, .fin t n e' =>
    let lo := min e e'
    let x : Int := (if s then -1 else 1) * (m * 2 ^ (e - lo).toNat : Nat)
    let y : Int := (if t then -1 else 1) * (n * 2 ^ (e' - lo).toNat : Nat)
    if x + y = 0 then pure (f32Zero (s && t && m == 0 && n == 0))
    else mkF32 (decide (x + y < 0)) (x + y).natAbs 1 lo

def fadd (a b : F32) : Calc F32 := extAdd (f32Val a) (f32Val b)

/-- −a, every bit but the sign kept; a NaN becomes canonical. -/
def fneg (a : F32) : F32 := if f32IsNan a then f32Nan else a ^^^ 0x80000000#32

def fsub (a b : F32) : Calc F32 :=
  match f32Val b with
  | .nan => extToF32 .nan
  | .inf s => extAdd (f32Val a) (.inf !s)
  | .fin s m e => extAdd (f32Val a) (.fin (!s) m e)

/-- The product of two values in F32, nearest even. -/
def extMul (a b : Ext) : Calc F32 :=
  match a, b with
  | .nan, _ => extToF32 .nan
  | _, .nan => extToF32 .nan
  | .inf s, .inf t => extToF32 (.inf (s != t))
  | .inf s, .fin t n _ => if n = 0 then extToF32 .nan else extToF32 (.inf (s != t))
  | .fin s m _, .inf t => if m = 0 then extToF32 .nan else extToF32 (.inf (s != t))
  | .fin s m e, .fin t n e' => mkF32 (s != t) (m * n) 1 (e + e')

def fmul (a b : F32) : Calc F32 := extMul (f32Val a) (f32Val b)

/-- Division by R50. -/
def fdiv (a b : F32) : Calc F32 :=
  match f32Val a, f32Val b with
  | .nan, _ => extToF32 .nan
  | _, .nan => extToF32 .nan
  | .inf _, .inf _ => extToF32 .nan
  | .inf s, .fin t _ _ => extToF32 (.inf (s != t))
  | .fin s _ _, .inf t => pure (f32Zero (s != t))
  | .fin s m e, .fin t n e' =>
    if n = 0 then (if m = 0 then extToF32 .nan else extToF32 (.inf (s != t)))
    else mkF32 (s != t) m n (e - e')

/-- 1 ÷ a; the reciprocal of ±∞ is ±0 with non-finite status (R50). -/
def frecip (a : F32) : Calc F32 := do
  noteNonfinite (f32IsInf a)
  fdiv 0x3F800000#32 a

/-- The integer square root, bit by bit from bit `k`. -/
def isqrt (n : Nat) : Nat → Nat → Nat
  | 0, r => if (r + 1) * (r + 1) ≤ n then r + 1 else r
  | k + 1, r => isqrt n k (if (r + 2 ^ (k + 1)) * (r + 2 ^ (k + 1)) ≤ n then r + 2 ^ (k + 1) else r)

/-- √a by R50. -/
def fsqrt (a : F32) : Calc F32 :=
  match f32Val a with
  | .nan => extToF32 .nan
  | .inf neg => if neg then extToF32 .nan else extToF32 (.inf false)
  | .fin neg m e =>
    if m = 0 then pure (f32Zero neg)
    else if neg then extToF32 .nan
    else
      let odd := e % 2 != 0
      let n := (if odd then 2 * m else m) * 2 ^ 60
      let h := ((if odd then e - 1 else e) - 60) / 2
      let s := isqrt n 43 0
      mkF32 false (2 * s + b2n (s * s != n)) 2 h

/-- 1 ÷ √a (R159). -/
def frsqrt (a : F32) : Calc F32 := do
  let r ← fsqrt a
  fdiv 0x3F800000#32 r

/-- The order of two values that are not NaN: −1, 0 or 1. -/
def fcompare (a b : F32) : Int :=
  let key (x : F32) : Int := if f32Neg x then -((x.toNat % 2 ^ 31 : Nat) : Int) else (x.toNat % 2 ^ 31 : Nat)
  if key a < key b then -1 else if key a = key b then 0 else 1

/-- Maximum by R50: a NaN operand gives NaN; +0 beats −0. -/
def fmax (a b : F32) : Calc F32 :=
  if f32IsNan a || f32IsNan b then extToF32 .nan
  else do
    let r := if fcompare a b < 0 then b else if fcompare a b = 0 && f32Neg a then b else a
    noteNonfinite (f32IsInf r)
    return r

/-- Minimum by R50: −0 beats +0. -/
def fmin (a b : F32) : Calc F32 :=
  if f32IsNan a || f32IsNan b then extToF32 .nan
  else do
    let r := if fcompare b a < 0 then b else if fcompare a b = 0 && f32Neg b then b else a
    noteNonfinite (f32IsInf r)
    return r

/-- The comparisons of R159: 0 <, 1 ≤, 2 =, 3 ≥, 4 >, 5 ≠; with a NaN only ≠ holds (R50). -/
def fcmp (md : Nat) (a b : F32) : Bool :=
  if f32IsNan a || f32IsNan b then md == 5
  else
    let c := fcompare a b
    match md with
    | 0 => decide (c < 0)
    | 1 => decide (c ≤ 0)
    | 2 => decide (c = 0)
    | 3 => decide (0 ≤ c)
    | 4 => decide (0 < c)
    | _ => decide (c ≠ 0)

/-- |a|; ±∞ gives +∞ with non-finite status, a NaN the canonical NaN (R159). -/
def fabs (a : F32) : Calc F32 :=
  if f32IsNan a then extToF32 .nan
  else do noteNonfinite (f32IsInf a); return a &&& 0x7FFFFFFF#32

/-- A natural number as F32, nearest even. -/
def natToF32 (n : Nat) : F32 := ((mkF32 false n 1 0).run {}).1

/-- An integer as F32, nearest even. -/
def intToF32 (n : Int) : F32 := ((mkF32 (decide (n < 0)) n.natAbs 1 0).run {}).1

/-- The result of a computation whose events nothing counts. -/
def Calc.val {α : Type} (c : Calc α) : α := (c.run {}).1

/-- The nearest integer to a finite value, ties to even; 0 for the rest. -/
def extRound : Ext → Int
  | .fin neg m e =>
    let r := scale2 m 1 e
    (if neg then -1 else 1) * (roundNe r.1 r.2 : Int)
  | _ => 0

/-! ### exp32 (R142) -/

/-- c5 to c0 of R142. -/
def expCoeffs : List F32 :=
  [0x3C1D955B#32, 0x3D635847#32, 0x3E75FDF0#32, 0x3F317218#32, 0x3F800000#32]

/-- A value scaled by 2^n. -/
def scaleF32 (n : Int) : Ext → Calc F32
  | .fin neg m e => mkF32 neg m 1 (e + n)
  | v => extToF32 v

/-- exp32 of R142 with the status it reports. -/
def exp32 (x : F32) : Calc F32 :=
  match f32Val x with
  | .nan => extToF32 .nan
  | .inf true => pure (f32Zero false)
  | .inf false => extToF32 (.inf false)
  | .fin .. =>
    let t0 := (fmul x 0x3FB8AA3B#32).val
    let t := (fmin ((fmax t0 0xC3200000#32).val) 0x43020000#32).val
    let n := extRound (f32Val t)
    let f := (fsub t (intToF32 n)).val
    let p := expCoeffs.foldl (fun p c => (fadd ((fmul p f).val) c).val) 0x3AAEC3FF#32
    scaleF32 n (f32Val p)

/-! ### Fixed-order sums (R47, R141, R165) -/

/-- Sums of adjacent pairs. -/
def pairSums : List F32 → Calc (List F32)
  | a :: b :: rest => do
    let s ← fadd a b
    let r ← pairSums rest
    return s :: r
  | [a] => return [a]
  | [] => return []

/-- The fixed tree of `levels` levels over a list of 2^levels values. -/
def treeSum : Nat → List F32 → Calc F32
  | 0, xs => return xs.headD 0
  | k + 1, xs => do
    let ys ← pairSums xs
    treeSum k ys

/-- `xs` cut into pieces of `n`, the last padded with `pad`, at most `fuel` pieces. -/
def chunksPad {α : Type} (n : Nat) (pad : α) : Nat → List α → List (List α)
  | 0, _ => []
  | fuel + 1, xs =>
    match xs with
    | [] => []
    | _ => (xs.take n ++ List.replicate (n - xs.length) pad) :: chunksPad n pad fuel (xs.drop n)

/-- `acc` plus the tree sum of each chunk of 2^levels values, in order. -/
def chunkedSum (levels : Nat) (acc : F32) (xs : List F32) : Calc F32 :=
  (chunksPad (2 ^ levels) 0 xs.length xs).foldlM (fun a c => do fadd a (← treeSum levels c)) acc

/-! ### B8 (R29 to R35) and A8 (R27, R28) -/

/-- Block sizes 16, 32, 64, 128 (R31). -/
def blockSize (blk : Nat) : Nat := 16 * 2 ^ (blk % 4)

/-- The value of a numeric B8 element. -/
def b8Val (m : Byte) (ex : Nat) : Ext :=
  .fin (decide (m.toInt < 0)) m.toInt.natAbs ((ex : Int) - 133)

/-- A B8 element read into F32 (R35): the marker is NaN; a value beyond the largest finite S16 or F32
value is ±∞; both set non-finite status. -/
def b8ToF32 (m : Byte) (ex : Nat) : Calc F32 :=
  if m = 0x80#8 then do noteMarker; return f32Nan
  else if ex = 255 ∧ 64 ≤ m.toInt.natAbs then extToF32 (.inf (decide (m.toInt < 0)))
  else extToF32 (b8Val m ex)

/-- The exponent R32 chooses for a block whose largest finite magnitude has pattern `p` (sign clear). -/
def b8Exponent (p : F32) : Nat :=
  match f32Val p with
  | .fin _ m e =>
    if m = 0 then 0
    else ((List.range 256).find? fun (ex : Nat) =>
      let r := scale2 m 1 (e - ((ex : Int) - 133))
      decide (r.1 ≤ 127 * r.2)).getD 255
  | _ => 0

/-- The largest magnitude pattern among the finite values. -/
def maxFiniteMag (xs : List F32) : F32 :=
  xs.foldl (fun a x => if f32Finite x && decide ((x &&& 0x7FFFFFFF#32).toNat > a.toNat) then x &&& 0x7FFFFFFF#32 else a) 0

/-- A value written as a B8 element at exponent `ex` (R33, R34, R38); with `preset` a magnitude above 127
units is the marker and an overflow. -/
def f32ToB8 (rd : Rnd) (preset : Bool) (ex : Nat) (x : F32) : Calc Byte :=
  match f32Val x with
  | .fin neg m e =>
    let r := scale2 m 1 (e - ((ex : Int) - 133))
    if preset ∧ 127 * r.2 < r.1 then do noteOverflow true; return 0x80#8
    else do
      let q := min (rd.apply r.1 r.2) 127
      noteUnder (m != 0 && q == 0)
      return BitVec.ofInt 8 ((if neg then -1 else 1) * (q : Int))
  | _ => do noteNonfinite true; return 0x80#8

/-- A8 code of `x` at scale `s` and zero point `z` (R28, R50): `x / s` to the nearest integer, plus z,
clamped. A scale that is not positive and normal codes every element as z with non-finite status (R27). A nonzero
value that takes code z counts no underflow (DESIGN CHOICE, log 119). -/
def f32ToA8 (s : S16) (z : Nat) (x : F32) : Calc Byte :=
  if !s16PosNormal s then do noteNonfinite true; return BitVec.ofNat 8 z
  else match f32Val x, s16Val s with
  | .nan, _ => do noteNonfinite true; return BitVec.ofNat 8 z
  | .inf neg, _ => do noteNonfinite true; noteClip true; return (if neg then 0#8 else 255#8)
  | .fin neg m e, .fin _ n e' =>
    let r := scale2 m n (e - e')
    let q : Int := (if neg then -1 else 1) * (roundNe r.1 r.2 : Int) + z
    do
      noteClip (decide (q < 0) || decide (255 < q))
      return BitVec.ofInt 8 (max 0 (min q 255))
  | _, _ => return BitVec.ofNat 8 z

/-- An A8 code's value s × (q − z) in F32 (R157). -/
def a8ToF32 (s : S16) (z : Nat) (q : Byte) : Calc F32 :=
  fmul (s16ToF32 s) (intToF32 ((q.toNat : Int) - z))

/-- The smallest positive normal S16 value `s` with `k * s ≥ m * 2^e`, compared exactly (R90, R117). -/
def leastScale (k m : Nat) (e : Int) : S16 :=
  if m = 0 then 0x0080#16
  else
    -- m·2^e / k rounded up to 8 significant bits, at least 2^-126
    let l := max (ratioLog2 m k + e) (-126)
    let r := scale2 m k (e - (l - 7))
    let q := ceilDiv r.1 r.2
    let p := (l + 126).toNat * 128 + q
    BitVec.ofNat 16 (max (min p 0x7F7F) 0x0080)

/-! ### The keyed mixer (R40, R41) -/

/-- The rotation amounts of R41. -/
def mixRot : List Nat := [7, 11, 19, 5, 23, 13, 9, 17]

/-- The two output words of the mixer. -/
def mixer (step : BitVec 64) (stream : BitVec 16) (tensor index : BitVec 32) : BitVec 32 × BitVec 32 :=
  let k0 : BitVec 32 := step.truncate 32
  let k1 : BitVec 32 := (step >>> 32).truncate 32 ^^^ stream.zeroExtend 32
  let k2 : BitVec 32 := k0 ^^^ k1 ^^^ 0x9E3779B9#32
  let rounds := (mixRot.zipIdx).foldl (fun (p : BitVec 32 × BitVec 32) (ri : Nat × Nat) =>
    let x0 := p.1 + p.2
    let x1 := p.2.rotateLeft ri.1 ^^^ x0
    if ri.2 = 3 then (x0 + k1, x1 + k2 + 1#32) else (x0, x1)) (index + k0, tensor + k1)
  (rounds.1 + k2, rounds.2 + k0 + 2#32)

/-- The random field of a stochastic rounding: x0[31:16]. The stream is the kind of R37 and the instance
(R40). -/
def mixField (step kind inst tensor index : Nat) : Nat :=
  bits (mixer (BitVec.ofNat 64 step) (BitVec.ofNat 16 (kind * 4096 + inst % 4096))
    (BitVec.ofNat 32 tensor) (BitVec.ofNat 32 index)).1.toNat 16 16

/-! ### CRCs (R190, R191) -/

/-- One byte into a most-significant-bit-first CRC-64 with the ECMA-182 polynomial. -/
def crc64Byte (c : BitVec 64) (b : Byte) : BitVec 64 :=
  (List.range 8).foldl (fun c _ =>
    if c.getLsbD 63 then (c <<< 1) ^^^ 0x42F0E1EBA9EA3693#64 else c <<< 1) (c ^^^ (b.zeroExtend 64 <<< 56))

/-- CRC-64 with the polynomial of ECMA-182, from 0, no reflection and no final complement (DEDUCED, log 22). -/
def crc64 (bs : List Byte) : BitVec 64 := bs.foldl crc64Byte 0

/-- CRC-32 of IEEE 802.3. -/
def crc32 (bs : List Byte) : BitVec 32 :=
  (bs.foldl (fun (c : BitVec 32) b =>
    (List.range 8).foldl (fun (c : BitVec 32) _ =>
      if c.getLsbD 0 then (c >>> 1) ^^^ 0xEDB88320#32 else c >>> 1) (c ^^^ b.zeroExtend 32)) 0xFFFFFFFF#32) ^^^ 0xFFFFFFFF#32

end Sys2Proof.Machine
end

