-- ==== Sys2Proof/Machine/Store.lean ====
section
/-! DEFINITION. Sparse data by key: an association list kept in strictly rising key order. A key that
is not listed reads as the default its reader gives. Memory uses the canonical form, in which no
entry equals what an unlisted address reads as. -/

namespace Sys2Proof.Machine

/-- A sparse map. -/
abbrev SMap (κ α : Type) := List (κ × α)

/-- The value listed at `k`, or `d`. -/
def smGet {κ α : Type} [DecidableEq κ] (d : α) (k : κ) : SMap κ α → α
  | [] => d
  | (k', v) :: rest => if k' = k then v else smGet d k rest

/-- The value listed at `k`, if any. -/
def smFind {κ α : Type} [DecidableEq κ] (k : κ) : SMap κ α → Option α
  | [] => none
  | (k', v) :: rest => if k' = k then some v else smFind k rest

/-- Every entry but those at `k`. -/
def smErase {κ α : Type} [DecidableEq κ] (k : κ) : SMap κ α → SMap κ α
  | [] => []
  | (k', v) :: rest => if k' = k then smErase k rest else (k', v) :: smErase k rest

/-- `(k, v)` put before the first entry with a larger key. -/
def smInsert {κ α : Type} (lt : κ → κ → Bool) (k : κ) (v : α) : SMap κ α → SMap κ α
  | [] => [(k, v)]
  | (k', v') :: rest => if lt k k' then (k, v) :: (k', v') :: rest else (k', v') :: smInsert lt k v rest

/-- The map with `v` at `k`. -/
def smSet {κ α : Type} [DecidableEq κ] (lt : κ → κ → Bool) (k : κ) (v : α) (m : SMap κ α) : SMap κ α :=
  smInsert lt k v (smErase k m)

/-- Numeric keys in rising order. -/
def natLt (a b : Nat) : Bool := decide (a < b)

/-- A sparse map keyed by numbers. -/
abbrev NMap (α : Type) := SMap Nat α

/-- The value at `k`, or `d`. -/
def nmGet {α : Type} (d : α) (k : Nat) (m : NMap α) : α := smGet d k m

/-- The map with `v` at `k`. -/
def nmSet {α : Type} (k : Nat) (v : α) (m : NMap α) : NMap α := smSet natLt k v m

/-! ### Memory: `Host.Cell` lists in canonical form -/

/-- What an unlisted byte reads as. R373: scratchpad and memory are written with zeros at bring-up
(DESIGN CHOICE, log 112). -/
def blankByte : Byte := 0

/-- The byte at `a`. -/
def cellGet (a : Nat) (m : NMap Byte) : Byte := smGet blankByte a m

/-- `m` with `b` at `a`; writing the blank byte removes the entry. -/
def cellSet (a : Nat) (b : Byte) (m : NMap Byte) : NMap Byte :=
  if b = blankByte then smErase a m else smInsert natLt a b (smErase a m)

/-- Addresses rise strictly and no entry is the blank byte. -/
def cellsWf : NMap Byte → Bool
  | [] => true
  | [(_, b)] => b != blankByte
  | (a, b) :: (a', b') :: rest => b != blankByte && decide (a < a') && cellsWf ((a', b') :: rest)

end Sys2Proof.Machine
end

