-- ==== Sys2Proof/Machine/State.lean ====
section
/-! DEFINITION. The state of the part: the register fields of every page, the staged area, memory,
scratchpads and segment buffers, the bins, token queues and operation tracker, and the queues and
progress of every unit. Plain data throughout. -/

namespace Sys2Proof.Machine

open Sys2Proof

/-- A register field's place: its number in the register map, its unit and its window index. A page's
unit is its type × 65536 + instance (DESIGN CHOICE, log 114). -/
structure FKey where
  fid : Nat
  unit : Nat
  idx : Nat
  deriving DecidableEq, Repr

/-- Keys in rising order. -/
def FKey.lt (a b : FKey) : Bool :=
  decide (a.fid < b.fid) || (decide (a.fid = b.fid) && (decide (a.unit < b.unit) ||
    (decide (a.unit = b.unit) && decide (a.idx < b.idx))))

/-- The four words of a command (R174). -/
structure Cmd where
  w0 : Nat
  w1 : Nat
  w2 : Nat
  w3 : Nat
  deriving DecidableEq, Repr, Inhabited

/-- The issuer of a command as its engine sees it: a sequencer, or a query endpoint (R170, R215). -/
structure Ctx where
  die : Nat
  tag : Nat
  gen : Nat
  regs : List Nat
  red2 : Nat
  red3 : Nat
  row2 : Nat
  row3 : Nat
  step : Nat
  deriving DecidableEq, Repr

/-- A loaded bin: its header (R190) and its commands. `order` numbers the loads in the order they
completed (R193). -/
structure Bin where
  /-- GEN of the program, the entry command, the number of commands, and the bits and words of its header (R190). -/
  gen : Nat
  entry : Nat
  count : Nat
  piBackward : Bool
  order : Nat
  cmds : List Cmd
  /-- The eight header words. -/
  header : List Nat
  deriving DecidableEq, Repr

/-- A running bin load (R192). -/
structure BinLoad where
  /-- Sequencer, bin, and where the commands lie. -/
  seq : Nat
  bin : Nat
  addr : Nat
  deriving DecidableEq, Repr

/-- A token in a queue (R183) and the core cycle from which it can be popped (R209). -/
structure QTok where
  /-- The token word, and the core cycle from which it can be popped. -/
  word : Nat
  ready : Nat
  deriving DecidableEq, Repr

/-- An output that overflowed and that no overflow-log entry names yet (R46): its tensor identifier, its elements that
overflowed, and for an exchange command its bucket. -/
structure OverRec where
  tid : Nat
  n : Nat
  bucket : Option Nat
  deriving DecidableEq, Repr

/-- A predicate flag that PSTAT set from the overflow status (R46, R189) (DEDUCED, log 134). -/
structure OverflowFlag where
  /-- TAG and FORMAT of the token whose overflow it is, and once its region runs the tensor identifier of the output. -/
  tag : Nat
  fmt : Nat
  tid : Option Nat := none
  /-- Device time of the test. -/
  ns : Nat
  /-- The region's identifier in the log; the repeat region has run; an F32 repeat has ended non-finite. -/
  region : Nat := 0
  ran : Bool := false
  ended : Bool := false
  deriving DecidableEq, Repr

/-- What a sequencer holds beside its register fields (R170, R171, R194). Times are core cycles, but
`waitNs`, which is device time in nanoseconds. -/
structure SeqX where
  /-- GEN: program generation of the active bin (R170). -/
  gen : Nat := 0
  /-- Where the next offset counts from, in domain cycles: the last issue, or the origin of R193. -/
  base : Nat := 0
  /-- Words 2 and 3 of the reduction configuration. -/
  red2 : Nat := 0
  red3 : Nat := 0
  /-- Words 2 and 3 of the row configuration. -/
  row2 : Nat := 0
  row3 : Nat := 0
  /-- Token of WAIT_A already popped while WAIT_B is awaited. -/
  popA : Option Nat := none
  /-- Core cycle of the last pop of the command in hand. -/
  popAt : Option Nat := none
  /-- Device time at which the token wait began. -/
  waitNs : Option Nat := none
  /-- Core cycle of the alignment period of a committed switch (R194). -/
  switchAt : Option Nat := none
  /-- A command held by the expert policy until its engine is free: the core cycle it starts (R172). -/
  heldTill : Option Nat := none
  /-- Core cycle of the end of the last throttled frame: nothing issues before it (R375). -/
  floor : Nat := 0
  /-- The last token folded into RSTAT with overflow status since the sticky bits were cleared, and the predicate flags
  set from that status (R46, R189). -/
  overTok : Option Nat := none
  overFlags : NMap OverflowFlag := []
  deriving DecidableEq, Repr

/-- A write a long operation makes when it lands: `key` is the first byte's cell. -/
structure WriteBack where
  key : Nat
  bytes : List Byte
  deriving DecidableEq, Repr

/-- A larder entry's new content (R146, R147). -/
structure LarderWrite where
  /-- Larder unit and entry, its two statistics, its key word and TAG_MERGED. -/
  unit : Nat
  entry : Nat
  statA : Nat
  statB : Nat
  key : Nat
  merged : Nat
  /-- The sum c of a merged row that a MERGE_C forms for the entry, in place of new statistics (R151). -/
  sumC : Option Nat := none
  deriving DecidableEq, Repr

/-- An amount for a register count: a SAT field saturates, a latch is set, any other field wraps. -/
structure Count where
  /-- The field, its unit and window index, and the amount. -/
  f : Field
  unit : Nat
  idx : Nat
  n : Nat
  deriving DecidableEq, Repr

/-- What an A8 segment carries beside its planes: the outlier list it was quantised with, and for one from a
folded producer the producer's package-wide logical index and fold generation (R121, R160) (DEDUCED, log 35). -/
structure SegTag where
  slots : List Nat
  fold : Option (Nat × Nat) := none
  deriving DecidableEq, Repr

/-- One audit sample: the group page's instance, the difference d, the alignment period in which its product
completes, and the array (R123). -/
structure AuditSample where
  /-- Group page instance, d as an F32 pattern, alignment period, and array. -/
  inst : Nat
  d : Nat
  due : Nat
  arr : Nat
  deriving DecidableEq, Repr

/-- A copy still to start moving, or moving (R182, R208). -/
structure CopyJob where
  /-- Space, address and pitch of the source and of the destination; bytes of a row; rows. -/
  srcSpace : Nat
  src : Nat
  srcPitch : Nat
  dstSpace : Nat
  dst : Nat
  dstPitch : Nat
  rowBytes : Nat
  rows : Nat
  /-- Core cycles of its latency once it starts. -/
  lat : Nat
  /-- Core cycle of its issue. -/
  issued : Nat
  deriving DecidableEq, Repr

/-- One long operation in a tracker (R198). `land` is the core cycle its last write lands; none where
the spec gives no static latency. -/
structure PendingOp where
  /-- Die code and tag of its sequencer, and its program generation. -/
  die : Nat
  tag : Nat
  gen : Nat
  /-- Core cycle at which its last write lands, if it is fixed; it has landed. -/
  land : Option Nat
  landed : Bool
  /-- The token it produces. -/
  token : Nat
  /-- PRODUCE_EN, with PRODUCE_DIE and PRODUCE_QUEUE. -/
  produce : Option (Nat × Nat)
  notify : Bool
  /-- What it writes to memory and to larders when it lands. -/
  writes : List WriteBack
  larder : List LarderWrite
  /-- Outlier lists that A8 segments carry, by the cell of the segment's parameters (R160). -/
  tags : List (Nat × SegTag)
  /-- Register counts added and bits latched when the operation ends. -/
  counts : List Count
  /-- Audit samples of an array product (R123). -/
  audits : List AuditSample := []
  /-- A copy of the die's own scratchpad that waits for the one before it (R208). -/
  copy : Option CopyJob := none
  /-- Cells of words written as poisoned (R382). -/
  poisons : List Nat := []
  /-- What ends an exchange command (R251): false until it has happened. -/
  gate : Bool := true
  /-- Messages that must be acknowledged first: serial and MSG_ID. -/
  awaits : List (Nat × Nat) := []
  /-- Bucket of an exchange command, and of a BUCKET_WAIT the layer of its tensor identifier (R251, R266). -/
  bucket : Option Nat := none
  layer : Option Nat := none
  /-- Device time of its start (R390), and its number among the operations started. -/
  start : Nat := 0
  id : Nat := 0
  /-- It overflowed in so many elements; as an F32 repeat predicated on a flag it ended non-finite: the flag and its tensor
  identifier (R46). -/
  overs : Nat := 0
  failed : Option (Nat × Nat) := none
  /-- The tensor identifier of its output (R46). -/
  tid : Nat := 0
  /-- Partials of merged rows that it stages on the other ranks of the split group when it lands: address and bytes (R149). -/
  stage : List (Nat × List Byte) := []
  /-- No operation, but the token of a command that ended at its issue, which waits for an earlier one of its producer
  (R184): it takes no tracker entry. -/
  held : Bool := false
  deriving DecidableEq, Repr

/-- Bytes that a write replaced, kept for readers whose read cycle lies before it (R195, R207). -/
structure OldBytes where
  /-- Core cycle of the write, the space, the first address, and the bytes from before. -/
  at' : Nat
  space : Nat
  base : Nat
  bytes : List Byte
  deriving DecidableEq, Repr

/-- A larder entry that a save replaced in core cycle `at'`: its key and statistics fields, kept for a read of the same
cycle (R147). -/
structure OldLarder where
  at' : Nat
  vals : List (FKey × Nat)
  deriving DecidableEq, Repr

/-- What a 64-byte line of a scratchpad carries of its last issued write (R195): the core cycle it lands, none while that
is not fixed, and the number of the operation. -/
structure LineMark where
  land : Option Nat
  op : Nat
  deriving DecidableEq, Repr

/-- A bypass column's pantry slot: its column, where its masters came from, the 512 masters, whether they
are loaded, and the sum register (R51, R64, R101). -/
structure PantryCol where
  col : Nat
  addr : Nat
  vals : List Nat
  loaded : Bool
  sum : Nat
  deriving DecidableEq, Repr

/-- A prior set: row gains, column sums and sum registers from before a commit that changed the fold
exponents of the array's source (R121). -/
structure PriorSet where
  gains : List Nat
  colSums : List Nat
  sums : List (Nat × Nat)
  deriving DecidableEq, Repr

/-- An entry of an array's rewrite queue (R99): the column, its key as an F32 pattern, and whether a column-sum event
raised it. -/
structure Rewrite where
  col : Nat
  key : Nat
  event : Bool
  deriving DecidableEq, Repr

/-- A column write accepted on an array (R94, R95). `levels` are none for an invalid target. -/
structure ColWrite where
  col : Nat
  source : Nat
  scale : Nat
  exempt : Bool
  /-- State 0 before the write: its slot is loaded by the write itself (R101). -/
  fromZero : Bool
  running : Bool
  /-- The alignment periods in which the slots it has taken began, and the period up to which they are settled: a
  change of READY or of the slot map settles them under what held until then (R95). -/
  slots : List Nat := []
  upTo : Nat := 0
  /-- The target levels, and whether the clamp acted on any (R91, R94). -/
  levels : Option (List Int)
  limited : Bool
  deriving DecidableEq, Repr

/-- The sweep of an array: the conversion in progress and what the cycle has measured (R75 to R83). -/
structure SweepX where
  /-- Alignment period in which the conversion in progress started. -/
  run : Option Nat := none
  /-- The conversion in progress belongs to a verify. -/
  verify : Bool := false
  /-- A verify that waits for the column write running on the array (R86). -/
  verifyDue : Bool := false
  /-- The verify of a return from power-down: out-of-band columns enter bypass (R109). -/
  verifyWake : Bool := false
  /-- Offset samples: F32 sum and count by slice × 3 + range gain. -/
  offs : NMap (Nat × Nat) := []
  /-- Pair readings by (slice × 3 + range gain) × 4 + pair. -/
  refs : NMap Nat := []
  /-- Slices whose pair reading left its band in the cycle, by pair × 3 + range gain. -/
  refOut : NMap (List Nat) := []
  /-- Readings of the column-sum set in progress, by column × 4 + row group. -/
  vals : NMap Nat := []
  /-- Current-gain block values of the cycle, in block order, by column. -/
  blocks : NMap (List Nat) := []
  /-- Columns whose program operation completed after the block in progress started. -/
  skip : List Nat := []
  /-- Standby-gain sums and the number of sets (R81). -/
  stgSum : NMap Nat := []
  stgCount : Nat := 0
  /-- A staged write fell in the standby set in progress. -/
  stgBroken : Bool := false
  /-- Quantities out of band (R83). -/
  oob : List Nat := []
  /-- Device time of the last completed cycle or verify (R85). -/
  lastNs : Nat := 0
  staleSaid : Bool := false
  /-- Alignment period at which the standby table was complete (R82). -/
  readyAt : Nat := 0
  /-- Columns out of band in the verify of a return from power-down, still to enter bypass or to be written
  (R109). -/
  wakeCols : List Nat := []
  deriving DecidableEq, Repr

/-- What a physical array holds beside its register fields. Masters of an outlier slot never loaded read 0, and so do
the sum registers of columns never loaded (DESIGN CHOICE, log 120). -/
structure ArrX where
  /-- Pantry slots 0 to 7: the masters of the outlier rows, by outlier slot (R51, R63). -/
  outRows : NMap (List Nat) := []
  /-- Pantry slots 8 to 31, by slot (R51, R101). -/
  cols : NMap PantryCol := []
  /-- The prior set of a commit that changed the fold exponents of the source (R121). -/
  prior : Option PriorSet := none
  /-- Row-gain registers of the four reference rows' drivers, current and standby (R51, R74) (DESIGN CHOICE, log 121). -/
  refCur : List Nat := [64, 64, 64, 64]
  refStg : List Nat := [64, 64, 64, 64]
  /-- The audit pointer, the pantry slot that is the audit slot, the levels it holds by column, and the columns
  readmitted since their levels were loaded (R122, R124). -/
  auditPtr : Nat := 0
  auditIn : Nat := 0
  auditLevels : NMap (List Int) := []
  auditDrop : List Nat := []
  /-- Levels programmed into the cells, by column; a column never programmed holds level 0 (R52)
  (DESIGN CHOICE, log 122). -/
  cells : NMap (List Int) := []
  /-- Columns whose last write clamped its levels (R92). -/
  scaleLimited : List Nat := []
  /-- The rewrite queue, in order of arrival (R99). -/
  queue : List Rewrite := []
  /-- Firmware marked the array failed (R108). -/
  failed : Bool := false
  /-- The column write accepted on the array (R95). -/
  write : Option ColWrite := none
  /-- Failed writes since the last success, by column (R105). -/
  fails : NMap Nat := []
  /-- Columns whose eviction takes effect at the next product boundary (R101). -/
  evicting : List Nat := []
  /-- First integration period of the last product, and the alignment period its foreground use ends. -/
  fgFrom : Nat := 0
  fgUntil : Nat := 0
  /-- The array was replaced by a spare (R106). -/
  retired : Bool := false
  /-- A sweep cycle was completed since the array's last write (R107). -/
  swept : Bool := false
  /-- The sweep of the array (R75). -/
  sweep : SweepX := {}
  deriving DecidableEq, Repr

/-- A frame in transition (R212): up to `oldEnd` the old phase and map hold, from `newFrom` those of
FRAME_PHASE and FRAME_MAP_CUR. -/
structure FrameX where
  oldPhase : Nat
  oldMap : List Nat
  oldEnd : Nat
  newFrom : Nat
  deriving DecidableEq, Repr

/-- A reliable message a sender keeps until it is acknowledged (R306). -/
structure TxMsg where
  /-- MSG_ID, message type, payload, the offsets of poisoned words in it, and the bytes still to be read that it ends with,
  by space, address and length. -/
  id : Nat
  type : Nat
  payload : List Byte
  bad : List Nat
  source : Option (Nat × Nat × Nat) := none
  /-- It has been sent: the next sending is a retransmission (R306). -/
  again : Bool := false
  /-- Device time of the last sending; none while no port reaches the destination. -/
  sentNs : Option Nat
  /-- Retransmission interval in microseconds. -/
  intervalUs : Nat
  deriving DecidableEq, Repr

/-- The sender's side of one destination (R306, R307). -/
structure TxPeer where
  /-- The next MSG_ID, messages not acknowledged, and messages that wait for the window. -/
  nextId : Nat := 0
  unacked : List TxMsg := []
  held : List TxMsg := []
  deriving DecidableEq, Repr

/-- A token message that waits for a lower ID (R308). -/
structure HeldToken where
  id : Nat
  word : Nat
  queue : Nat
  die : Nat
  deriving DecidableEq, Repr

/-- The receiver's side of one sender (R306): the mark M, the IDs delivered after it, and the device time at
which the oldest delivery not yet acknowledged happened. -/
structure RxPeer where
  /-- SESSION of the sender, the mark M, and the IDs delivered after it. -/
  session : Nat
  mark : Nat := 2 ^ 32 - 1
  seen : List Nat := []
  ackDue : Option Nat := none
  /-- Token messages that wait for a lower ID (R308). -/
  tokens : List HeldToken := []
  deriving DecidableEq, Repr

/-- A send command whose operands are kept until commit (R234); `id` is the number of its operation. -/
structure SendRec where
  id : Nat := 0
  die : Nat
  tag : Nat
  op : Nat
  cmd : Cmd
  ctx : Ctx
  bucket : Nat
  first : Nat
  count : Nat
  /-- It acts as the ordered form (R228, R232). -/
  ordered : Bool
  nonfinite : Bool
  overflow : Bool
  /-- Elements of the bucket that its end operations cover, from `first`. -/
  span : Nat
  /-- Ranges of end operations that a REPLY has answered, and whether one was answered with code 0x1. -/
  answered : List (Nat × Nat) := []
  closed : Bool := false
  /-- Ranges pulled in the ordered form, and the elements or entries sent for them. -/
  pulled : List (Nat × Nat) := []
  sent : Nat := 0
  /-- The owner that its operations went to, and the FIRST and COUNT of those that it answered with REPLY code 0x2
  (R251). -/
  sentTo : Nat := 0xFFF
  refused : List (Nat × Nat) := []
  deriving DecidableEq, Repr

/-- A pull in the ordered path (R245): what it asks for and what has arrived. -/
structure OrdPull where
  rank : Nat
  first : Nat
  count : Nat
  got : List (Nat × Nat) := []
  /-- MSG_ID of the answer in top-k form that is marked as the last: the pull is complete once every lower ID of its
  sender is delivered too (DEDUCED, log 140). -/
  last : Option Nat := none
  done : Bool := false
  deriving DecidableEq, Repr

/-- A pull that a contributor holds until its source is there (R232, R245). -/
structure HeldPull where
  bucket : Nat
  owner : Nat
  first : Nat
  count : Nat
  deriving DecidableEq, Repr

/-- A reduced shard on its way to a device (R273, R297): the remote writes sent, and the completion message. -/
structure ShardTo where
  rank : Nat
  msgs : List (Nat × Nat)
  done : Option (Nat × Nat)
  deriving DecidableEq, Repr

/-- A bucket of the step in progress, on its owner and on a member (R239 to R250, R261). -/
structure BucketX where
  /-- BUCKET_STATE (R239). -/
  state : Nat := 0
  /-- Which plane of the agreed table is current: 0 the first. -/
  flip : Nat := 0
  /-- The agreed table is valid (R226). -/
  agreeValid : Bool := false
  /-- The table was not valid when the step opened: every send of the step is in the ordered form (R228). -/
  unbuilt : Bool := true
  /-- Device time of the deadline (R240). -/
  deadline : Option Nat := none
  /-- Ranks of which an operation has arrived by the deadline, and ranks whose first came after it. -/
  begun : List Nat := []
  late : List Nat := []
  /-- Elements covered by end operations, by rank. -/
  ended : NMap Nat := []
  /-- Saturation markers received, by rank (R46, R237). -/
  markers : NMap Nat := []
  /-- Ranks whose operations carried the non-finite or the overflow flag (R237). -/
  nonfin : List Nat := []
  ovf : List Nat := []
  /-- Merged reports, by block (R226). -/
  reports : NMap Nat := []
  /-- Ranks dropped and ranks included (R241), the close, and a close with every rank. -/
  dropped : List Nat := []
  included : List Nat := []
  closed : Bool := false
  full : Bool := false
  /-- Elements resent so far by each rank a resend is awaited from, and whether they are subtracted (R247,
  R249). -/
  redo : NMap Nat := []
  redoSub : Bool := false
  /-- While resends are awaited: the positions taken of each rank and opcode, by rank × 16 + opcode, as ranges
  (DEDUCED, log 70). -/
  taken : NMap (List (Nat × Nat)) := []
  /-- The ordered path: pulls still to send, and pulls sent, in order (R245). -/
  toPull : List OrdPull := []
  pulling : List OrdPull := []
  /-- The bucket closed on the ordered path, or repeats in F32 (R245), or was vetoed (R246). -/
  ordered : Bool := false
  repeated : Bool := false
  /-- The accumulator is complete and its reduction runs (R244). -/
  reducing : Bool := false
  vetoed : Bool := false
  /-- As a member: the notice in force (R242). -/
  noticed : Bool := false
  final : Bool := false
  nRepeat : Bool := false
  nVeto : Bool := false
  nCount : Nat := 0
  nMap : List Nat := []
  /-- Rank of the owner that sent it: another owner's replaces it (R289). -/
  nFrom : Nat := 0xFFF
  /-- Delta ranges applied, and LAST seen (R261). -/
  applied : List (Nat × Nat) := []
  lastSeen : Bool := false
  /-- The bucket is updated (R261). -/
  updated : Bool := false
  /-- As owner: elements sent as deltas; deltas held for the partner's
  acknowledgement, with the number of their command's operation (R259, R273). -/
  deltaSent : Nat := 0
  heldDeltas : List (Nat × XOp) := []
  /-- As owner: device time of the close, where the shard lies here and at its receivers, and its sendings. -/
  closeNs : Nat := 0
  shardFrom : Nat := 0
  shardAddr : Nat := 0
  shards : List ShardTo := []
  /-- The partner's cellar copy is valid, as owner or as partner (R274). -/
  cellarValid : Bool := false
  /-- As partner: ranges of the bucket's state pages that remote writes of the walk have filled, as byte offsets (R287). -/
  landed : List (Nat × Nat) := []
  /-- As partner: the reduced shard of the step arrived (R273). -/
  shardSeen : Bool := false
  /-- As partner: the notice contents of the completion message: count, REPEAT, VETO and bitmap. -/
  shardNotice : Option (Nat × Bool × Bool × List Nat) := none
  /-- A check of R275 is due or in progress: this device's values, and the peer's. -/
  crcOwn : Option Nat := none
  crcPeer : Option Nat := none
  crcDue : Bool := false
  /-- Pages flipped at the commit: the bucket's moments were written here (R263). -/
  momentsHere : Bool := false
  /-- The shard is lost (R292). -/
  lost : Bool := false
  deriving DecidableEq, Repr

/-- An entry of the view in force (R284). -/
structure ViewEntry where
  serial : Nat
  rank : Nat
  partner : Nat
  joining : Bool
  feed : Nat
  board : Nat
  rack : Nat
  deriving DecidableEq, Repr

/-- A checked view that waits to apply (R285). -/
structure PendingView where
  gen : Nat
  kind : Nat
  mirror : Bool
  applyTime : Nat
  shelf : Nat
  store : Nat
  crc : Nat
  rollback : Nat
  owners : List Nat
  entries : List ViewEntry
  deriving DecidableEq, Repr

/-- A page walk (R287, R294, R295, R297): the bucket, the rank it goes to, whether it carries masters or moments,
the pages still to send, and the messages of those sent: page, serial and MSG_ID. -/
structure PageWalk where
  bucket : Nat
  rank : Nat
  master : Bool
  left : List Nat
  sent : List (Nat × Nat × Nat)
  deriving DecidableEq, Repr

/-- A vote (R261). -/
structure Vote where
  rank : Nat
  exchangeVeto : Bool
  nonfinite : Bool
  health : Bool
  deriving DecidableEq, Repr

/-- A decision received: step, commit time, outcome (R261). -/
structure Decision where
  step : Nat
  at' : Nat
  vetoed : Bool
  deriving DecidableEq, Repr

/-- What the device holds as a member of a job. -/
structure JobX where
  /-- Bucket descriptors and update descriptors as the part read or rewrote them (R225, R256, R285), and the route
  table: serial, address and ports of the valid entries (R305). -/
  table : NMap (List Nat) := []
  upd : NMap (List Nat) := []
  routes : List (Nat × Nat × Nat) := []
  /-- The view in force, and a checked view that waits to apply (R284, R285). -/
  view : List ViewEntry := []
  /-- The split group of the membership in force, by split rank; empty outside sequence-split mode (R149, DESIGN CHOICE,
  log 12). -/
  split : List Nat := []
  /-- A view whose commit pends (R285, R286). -/
  pendingView : Option PendingView := none
  /-- Buckets of the step in progress, and the send commands kept until commit (R234). -/
  buckets : NMap BucketX := []
  sends : List SendRec := []
  /-- DELTA_BCAST commands issued, kept until commit (R273, R290). -/
  deltas : List SendRec := []
  /-- Pulls held (R232), votes and the decision received (R261). -/
  pulls : List HeldPull := []
  votes : List Vote := []
  decision : Option Decision := none
  /-- The member's update non-finite flag (R260). -/
  updNonfinite : Bool := false
  /-- The step's loss L, as it stood at the vote; it spiked there; a layer starved (R264, R265, R268). -/
  voteLoss : Option Nat := none
  spiked : Bool := false
  starvedNow : Bool := false
  /-- Layers of send commands in the step, and whether every value was ±0 (R267). -/
  layers : NMap Bool := []
  /-- Device time of the last heartbeat, by rank (R282). -/
  heard : NMap Nat := []
  /-- Page walks, and the device time from which the next page may leave (R288). -/
  walks : List PageWalk := []
  walkNs : Nat := 0
  /-- Heartbeats have stopped (R283, R387). -/
  silent : Bool := false
  nextBeat : Nat := 0
  /-- The copy of a shelf image into staging holds the next vote (R276). -/
  voteHeld : Bool := false
  voteWaiting : Bool := false
  /-- Alignment period of the last step commit (R263), and whether one has followed the APPLY_TIME of a rebalance view
  that waits (R285). -/
  stepAp : Option Nat := none
  rebalance : Bool := false
  /-- A rollback view is in force and its restore goes on (R294). -/
  restoring : Bool := false
  /-- A joining unit has not learnt the job's step number yet (R295). -/
  needStep : Bool := false
  /-- Membership generation and rank at the epoch of the image, and each of its buckets with its role then (R277). -/
  stagingGen : Nat := 0
  stagingRank : Nat := 0
  stagingRoles : List (Nat × Nat) := []
  /-- Epoch of the image in the staging region; the image is one for the storeroom; the drives are being written (R276 to R278). -/
  stagingEpoch : Option Nat := none
  stagingStore : Bool := false
  flashBusy : Bool := false
  /-- Slot written by the image in progress, and the drives that were ready when its write started (R339). -/
  slot : Nat := 0
  slotMask : List Nat := []
  /-- The SESSION of this device, and the reliable messages by peer (R303, R306). -/
  session : Nat := 0
  tx : NMap TxPeer := []
  rx : NMap RxPeer := []
  deriving DecidableEq, Repr

/-- The commands that firmware issues to an NVMe drive (R336): offsets and lengths in bytes of namespace 1. -/
inductive DriveCmd where
  | identify (cns : Nat)
  | setFeatures (fid : Nat)
  | createCq
  | createSq
  | deleteSq
  | deleteCq
  | getLog (page : Nat)
  | read (off len : Nat)
  | write (off len : Nat)
  | flush
  deriving DecidableEq, Repr

/-- The I/O queue pair of a drive: commands issued and not completed, oldest first, with the device time of their issue
(R337), and commands still to issue (R336). -/
structure DriveX where
  waiting : List (DriveCmd × Nat) := []
  todo : List DriveCmd := []
  deriving DecidableEq, Repr

/-- A capability of the PCI Express function (R322). -/
inductive PciCapability where
  | powerManagement (pmeSupport : Nat)
  | pciExpress
  | advancedErrorReporting
  | deviceSerialNumber (serial : Nat)
  | dataLinkFeature
  | physicalLayer16
  | physicalLayer32
  | physicalLayer64
  | laneMargining
  deriving DecidableEq, Repr

/-- A base address register pair (R324): the number of its first register, 64-bit addressing, prefetchable, its size. -/
structure PciBar where
  first : Nat
  wide : Bool
  prefetchable : Bool
  bytes : Nat
  deriving DecidableEq, Repr

/-- The configuration space of the function (R2, R322, R324): registers that no BAR of the list takes read 0. -/
structure ConfigSpace where
  vendor : Nat
  device : Nat
  classCode : Nat
  bars : List PciBar
  expansionRom : Bool
  capabilities : List PciCapability
  interruptPin : Nat
  interruptDisable : Bool
  busMaster : Bool
  deriving DecidableEq, Repr

/-- What leaves the part (DESIGN CHOICE, log 113). -/
inductive Output where
  /-- The configuration space that the endpoint presents as it comes out of PERST_N (R2, R322, R324, R370). -/
  | config (c : ConfigSpace)
  /-- A command to the NVMe drive of control die `c` (R336). -/
  | drive (c : Nat) (cmd : DriveCmd)
  /-- Bytes written to host memory (R329, R333). -/
  | hostWrite (addr : Nat) (bytes : List Byte)
  /-- A frame transmitted on a port: destination address, tag, EtherType, class (0 query response, 1 control,
  2 bulk), the bytes after the EtherType without the FCS, and the offsets of 64-bit words that travel as
  poisoned (R299, R302, R303, R314, R382). -/
  | frame (port : Nat) (dst : Nat) (tag : Option Nat) (etype cls : Nat) (bytes : List Byte) (bad : List Nat)
  /-- The value a register or BAR2 read returns, `bytes` wide. -/
  | readData (value : Nat) (bytes : Nat)
  /-- A BAR2 read of `bytes` bytes returns a poisoned completion (R326). -/
  | poisonedData (bytes : Nat)
  /-- The data of an SMBus command's answer (R341). -/
  | smbus (bytes : List Byte)
  /-- An SMBus command is not acknowledged (R340). -/
  | smbusNack
  /-- An event record for the event queue of a control die: its three words (R84). -/
  | event (controlDie w0 w1 w2 : Nat)
  /-- A pin driven: true is high (R369, R370, R376). -/
  | pin (name : String) (level : Bool)
  deriving DecidableEq, Repr

/-- The PTP clock and its servo (R314 to R318). Times are in units of 2^-16 ns. -/
structure PtpX where
  /-- The integral term i, in ppb. -/
  integral : Rat := 0
  /-- t1 and t2 of the last Sync whose times are known. -/
  last : Option (Int × Int) := none
  /-- A two-step Sync that waits for its Follow_Up: sequence number, t2 and interval. -/
  waiting : Option (Nat × Int × Nat) := none
  /-- The Delay_Req sent: sequence number and t3. -/
  asked : Option (Nat × Int) := none
  /-- The mean path delay. -/
  delay : Option Rat := none
  /-- Consecutive offsets within LOCK_NS. -/
  good : Nat := 0
  /-- The servo has locked since reset (R317). -/
  everLocked : Bool := false
  /-- Device time of the last Sync, and its interval in nanoseconds. -/
  lastNs : Nat := 0
  interval : Nat := 0
  /-- The best foreign master heard, with its source port identity. -/
  best : Option (Gm × Nat) := none
  /-- Device time of its last Announce, and the interval that announces, in nanoseconds. -/
  annNs : Nat := 0
  annInterval : Nat := 0
  /-- Sequence numbers of the next Sync, Announce and Delay_Req. -/
  seqSync : Nat := 0
  seqAnnounce : Nat := 0
  seqDelay : Nat := 0
  deriving DecidableEq, Repr

/-- The read and write latches of a page for 4-byte access (R348): the offset each belongs to. -/
structure Latch where
  readOff : Option Nat := none
  readHi : Nat := 0
  writeOff : Option Nat := none
  writeLo : Nat := 0
  deriving DecidableEq, Repr

/-- Where a query came from: a frame, or a submission ring of the host (R310, R331). -/
inductive QuerySrc where
  /-- Port, source address, tag, SRC_SERIAL and the ranks of the request's frame. -/
  | frame (port mac : Nat) (tag : Option Nat) (serial src dst : Nat)
  /-- Query ring pair, index of the descriptor and OUT_ADDR. -/
  | ring (q index out : Nat)
  deriving DecidableEq, Repr

/-- A query admitted and not completed (R218 to R220). `k` numbers its buffer, `origin` is its chain's alignment period,
`next` the entry that issues next, and `outAt` the cell and length of what the last entry wrote. -/
structure Query where
  /-- Endpoint, buffer number, source, CLIENT_TAG, and device times of arrival and promise. -/
  ep : Nat
  k : Nat
  src : QuerySrc
  clientTag : Nat
  arrival : Nat
  promised : Nat
  /-- STEP at admission and the input words. -/
  step : Nat
  input : List Nat
  origin : Nat
  started : Bool := false
  next : Nat := 0
  /-- A group was not ready since the admission; an array product met a stale fold generation (R121, R220). -/
  unready : Bool := false
  stale : Bool := false
  outAt : Option (Nat × Nat) := none
  /-- The response was ready and its port had no link: core cycle, status and output as they then were (R311). -/
  ready : Option (Nat × Nat × List Byte) := none
  deriving DecidableEq, Repr

/-- The power controller (R367 to R369, R374 to R376). -/
structure PowerX where
  /-- The package limit written over SMBus, in watts (R341). -/
  limit : Nat := 4200
  /-- The rails ramp. -/
  ramping : Bool := false
  /-- SYS_RESET_N rose when it could, and has not fallen since; the internal reset of RESET_KEY (R369, R370). -/
  resetHigh : Bool := false
  keyReset : Bool := false
  /-- ORDERLY_OFF was written; the last loss of power or reset was preceded by OFF_READY (R96, R369). -/
  offAsked : Bool := false
  orderly : Bool := true
  /-- Samples of the last millisecond, newest last: package input in 0.1 W, then the domains in watts. -/
  samples : List (List Nat) := []
  /-- Duties of the power loop and of the thermal loop, by digital die (R374, R376). -/
  capDuty : List Nat := [0, 0, 0, 0]
  thermDuty : List Nat := [0, 0, 0, 0]
  /-- Frame number of the last evaluation, and device time since which the average is above the limit at full duty. -/
  frame : Option Nat := none
  unmet : Option Nat := none
  /-- Microseconds with a hot array die not yet counted as a millisecond. -/
  hotUs : Nat := 0
  /-- Sensors read since their TEMP_MAX was last cleared (R378). -/
  tempSeen : List Nat := []
  deriving DecidableEq, Repr

/-- A copy of the ledgers or of the session count on a drive (R338): the drive, 0 for copy A, its place in the order of the
copies, whether every write of it has completed, so that its CRC-64 matches (DEDUCED, log 158), and what it holds. -/
structure ShelfCopy where
  drive : Nat
  copy : Nat
  order : Nat
  sound : Bool := false
  session : Nat := 0
  ledger : List (FKey × Nat) := []
  base : NMap Nat := []
  deriving DecidableEq, Repr

/-- A shelf slot on the drives (R339): the 64-byte header and the stripe word of each drive's header block, and the body. -/
structure SlotImage where
  heads : NMap (List Byte × Nat) := []
  body : List Byte := []
  deriving DecidableEq, Repr

/-- What the drives hold beside the dump, and this power-up's session count (R277, R303, R338, R339). -/
structure ShelfX where
  session : Nat := 0
  /-- The copy that is written next, 0 for A, of the ledgers and of the session count, and the copies by drive (R338). -/
  copy : Nat := 0
  sessionCopy : Nat := 0
  order : Nat := 0
  ledgers : List ShelfCopy := []
  sessions : List ShelfCopy := []
  /-- Labels by drive: device serial, drive index and SLOT_BYTES (R338). -/
  labels : NMap (Nat × Nat × Nat) := []
  /-- Slots. -/
  images : NMap SlotImage := []
  deriving DecidableEq, Repr

/-- A chain table as the commit that defined its endpoint read it (R215). -/
structure Chain where
  entries : List Cmd
  regs : List Nat
  red2 : Nat
  red3 : Nat
  deriving DecidableEq, Repr

/-- The commit controller (R358 to R361). -/
structure CommitCtl where
  /-- Fields and values of the commit in hand. -/
  snapshot : List (FKey × Nat) := []
  /-- WHEN of the commit in hand. -/
  when' : Nat := 0
  /-- The agent that gave GO. -/
  byFirmware : Bool := false
  /-- Core cycle at which the check ended. -/
  checkedAt : Nat := 0
  /-- The step-boundary set. -/
  stepSet : List (FKey × Nat) := []
  /-- The step-boundary set is pending as a whole (R361). -/
  setPending : Bool := false
  /-- The set awaits a package frame boundary (R361). -/
  setAtFrame : Bool := false
  /-- Device time at which the claim was taken. -/
  claimNs : Nat := 0
  /-- Staged fields written since the commit that held them (R357, R361). -/
  rewritten : List FKey := []
  /-- Alignment period of the last commit that applied by itself (R263). -/
  lastAp : Option Nat := none
  deriving DecidableEq, Repr

/-- The fatal summary of the auxiliary domain (R341, R370) and its thermal-trip latch (R376). -/
structure AuxX where
  /-- A device-fatal error, its dump is ready, the dump is on the shelf. -/
  fatal : Bool := false
  dumpReady : Bool := false
  onShelf : Bool := false
  /-- Page type and instance of the unit, time, step and code of the error. -/
  type : Nat := 0
  inst : Nat := 0
  time : Nat := 0
  step : Nat := 0
  code : Nat := 0
  /-- The thermal trip. -/
  tripped : Bool := false
  deriving DecidableEq, Repr

/-- A log entry of a register tick: its ring, the tick, its die and unit instance as one number, and its bytes (R385). -/
structure LogRec where
  ring : Nat
  tick : Nat
  key : Nat
  bytes : List Byte
  deriving DecidableEq, Repr

/-- What the fault logic and the dumps hold beside the fault page (R380, R385, R387 to R391). -/
structure FaultX where
  /-- Core cycle of the latched device-fatal error. -/
  at' : Nat := 0
  second : Nat := 0
  /-- STEP, EPOCH, device time and source page of the error that the next dump reports. -/
  step : Nat := 0
  epoch : Nat := 0
  time : Nat := 0
  src : Nat := 0
  /-- A program dump is due; a device-fatal dump is due, has started, and is to be copied to the drives. -/
  programDue : Bool := false
  fatalDue : Bool := false
  started : Bool := false
  copyDue : Bool := false
  /-- Bytes of the dump in the region. -/
  len : Nat := 0
  /-- The sections as their copies found them at the start of a device-fatal dump: type, bytes of a record, bytes (R390). -/
  sections : List (Nat × Nat × List Byte) := []
  /-- The drives a dump is being copied to, and its bytes. -/
  copying : List Nat := []
  copy : List Byte := []
  /-- The copy of a device-fatal dump on each drive that holds one (R387, R391). -/
  shelf : NMap (List Byte) := []
  /-- The log entries of the register tick in progress, ring by ring in their order (R385). -/
  logNow : List LogRec := []
  /-- Corrections of the last second by unit: device time and how many (R380). -/
  corr : NMap (List (Nat × Nat)) := []
  deriving DecidableEq, Repr

/-- The power and reset stages of the main domain (R369 to R373). -/
inductive Stage where
  /-- No supply: AUX_3V3 out of range. -/
  | noAux
  /-- AUX_3V3 in range; the main rails are off. -/
  | standby
  /-- The main rails are up and the main domain is held in reset. -/
  | inReset
  /-- Out of reset, the root PLL locking. -/
  | locking
  /-- Out of reset, but the root PLL did not lock (R372). -/
  | unlocked
  /-- The dividers run. -/
  | clocked
  deriving DecidableEq, Repr

structure State where
  /-- The commands that wait, first in, first out. -/
  pending : List Instr
  /-- The assembly variant. -/
  variant : Variant
  /-- Where the main domain stands in power-up and reset. -/
  stage : Stage
  /-- The host function is in D3hot (R323). -/
  d3hot : Bool
  /-- PERST_N is low: the host endpoint is in reset (R370). -/
  perst : Bool
  /-- Core cycles since the dividers started. -/
  core : Nat
  /-- Device time in units of 2^-32 ns (R316). -/
  time : Nat
  /-- Current values of register fields; an unlisted field is at its reset value. -/
  flds : SMap FKey Nat
  /-- Staged values of ST fields that differ from their current values or were written. -/
  stg : SMap FKey Nat
  /-- Table addresses written since the last commit that included them (R357). -/
  tblWritten : List FKey
  /-- The commit controller (R358). -/
  commit : CommitCtl
  /-- The 4-byte access latches of each page (R348). -/
  latches : NMap Latch
  /-- Device memory, scratchpads and segment buffers: cell = address × 64 + space. -/
  mem : List Host.Cell
  /-- Poisoned 64-bit words, each by the cell key of its first byte (R381). -/
  poison : List Nat
  /-- By port: device time, as in `time`, at which its line has carried every byte queued on it (R305). -/
  lineBusy : NMap Nat
  /-- The submission ring served last (R332). -/
  lastRing : Nat
  /-- Words that have become poisoned since the validity of cellar copies was last judged (R274). -/
  newPoison : List Nat
  /-- Words with bit errors that can only be detected (R379) and that no read has met since they went bad (R381, R386). -/
  unmet : List Nat
  /-- The outlier list each A8 segment was quantised with, by the cell of its parameters (R160). -/
  segTags : NMap SegTag
  /-- Recently replaced bytes of scratchpads and segment buffers. -/
  recent : List OldBytes
  /-- Lines by the cell of their first byte (R195). -/
  lines : NMap LineMark
  /-- Outputs that overflowed, by digital die × 2^20 + TAG of the command (R46). -/
  overs : NMap OverRec
  /-- Number of operations started. -/
  opCount : Nat
  /-- Physical arrays by array die × 2048 + array. -/
  arrs : NMap ArrX
  /-- Array dies without their array supply (R112), and the ledgers as the shelf holds them (R96). -/
  dark : List Nat
  ledger : List (FKey × Nat)
  /-- What an unlisted PROG_COUNT reads as, by array die, and as the shelf holds it: what firmware added to or set in
  every ledger entry (R96). -/
  progBase : NMap Nat
  ledgerBase : NMap Nat
  /-- The queue pairs of the NVMe drives, by control die (R336). -/
  drives : NMap DriveX
  /-- Chains of the defined endpoints, and the queries in progress. -/
  chains : NMap Chain
  /-- The queries in progress (R218). -/
  queries : List Query
  /-- What the device holds as a member of a job. -/
  job : JobX
  /-- The PTP clock and its servo. -/
  ptp : PtpX
  /-- The step at which a group's pantries were last refreshed, and groups whose row gains or fold exponents a commit
  changed since (R15, R51). -/
  refreshed : NMap Nat
  refreshDue : List Nat
  /-- The drift check in progress: its epoch and the columns it has compared (R16). -/
  drift : Option (Nat × Nat)
  /-- Frames in transition by array-group instance. -/
  frames : NMap FrameX
  /-- View pages whose master selector is 1, and whose state selector is 1 (R255). -/
  selMaster : List Nat
  selState : List Nat
  /-- Bins by (die × 153 + number) × 2 + bin. -/
  bins : NMap Bin
  /-- Running bin loads by die. -/
  loads : NMap BinLoad
  /-- Number of bin loads completed. -/
  loadCount : Nat
  /-- What each sequencer holds beside its registers. -/
  seqx : NMap SeqX
  /-- Token queues by die code × 1024 + queue. -/
  queues : NMap (List QTok)
  /-- The long operations in flight (R198). -/
  tracker : List PendingOp
  /-- The fatal summary and thermal trip of the auxiliary domain. -/
  aux : AuxX
  /-- What the fault logic and the dumps hold. -/
  fault : FaultX
  /-- The power controller. -/
  power : PowerX
  /-- What the drives hold (R277, R338). -/
  shelf : ShelfX
  /-- Sums c of merged rows with the larder key they belong to, by larder unit × 2^20 + entry (R151, DESIGN CHOICE,
  log 13), and the larder entries just replaced (R147). -/
  mergedC : NMap (Nat × Nat)
  oldLarder : List OldLarder
  /-- Core cycle from which an engine or array is free. -/
  busy : NMap Nat
  /-- Core cycle of the boundary after which a program-fatal error stops issue (R173). -/
  stopAt : Option Nat
  /-- A program-fatal error stopped the program: the step in progress does not commit (R173). -/
  programDied : Bool
  /-- Guard, uncorrectable and other log entries, and everything else that leaves the part. -/
  out : List Output
  /-- The step in progress has a loss sample (R264). -/
  lossSampled : Bool
  /-- Free values drawn so far (the model's own field, DESIGN CHOICE, log 3). -/
  freeCtr : Nat
  deriving DecidableEq, Repr

/-- The part of assembly variant `v` with its main domain unpowered or in reset at stage `g`: every register at its
reset value, every queue empty (R370). -/
def State.blank (v : Variant) (g : Stage) : State :=
  { pending := [], variant := v, stage := g, d3hot := false, perst := true, core := 0, time := 0, flds := [], stg := [],
    tblWritten := [], commit := {}, latches := [], mem := [], poison := [], newPoison := [], unmet := [], lineBusy := [], lastRing := 15, segTags := [], recent := [], lines := [], overs := [],
    opCount := 0, arrs := [],
    dark := [], ledger := [], progBase := [], ledgerBase := [], drives := [], chains := [], queries := [], job := {}, ptp := {},
    refreshed := [], refreshDue := [], drift := none, frames := [], selMaster := [], selState := [], bins := [],
    loads := [], loadCount := 0, seqx := [], queues := [], tracker := [], aux := {}, fault := {}, power := {},
    shelf := {}, mergedC := [], oldLarder := [], busy := [], stopAt := none, programDied := false, out := [], lossSampled := false,
    freeCtr := 0 }

/-- The part after the reset of every domain: AUX_3V3 out of range, PERST_N and SYS_RESET_N low (R366, R370). The
variant is T64B (DESIGN CHOICE, log 1) (DESIGN CHOICE, log 95). -/
def State.reset : State := State.blank .t64b .noAux

/-- Why a step can stop with a fault. No command of this block does: every event of the spec has an
effect or leaves the state as it is. -/
inductive Fault where
  /-- Raised by nothing at present; kept so that the type is inhabited. Safe. -/
  | none
  deriving DecidableEq, Repr

/-- Why a command is refused. -/
inductive Refusal where
  /-- A command whose meaning is not written; answered by the dispatch only. Safe. -/
  | notModelled (mnemonic : String)
  deriving DecidableEq, Repr

end Sys2Proof.Machine
end

