-- ==== Sys2Proof/Machine/Ops.lean ====
section
/-! DEFINITION. The named operations over the state: register fields and counters (R352, R353), time
(R6, R316), memory, scratchpads and segment buffers with their poison (R255, R381, R382), the log rings
(R385), guard entries and program-fatal errors (R173, R195 to R197), tokens (R183 to R186, R209) and
completion records (R199, R330). -/

namespace Sys2Proof.Machine

open Sys2Proof

/-! ### Register fields -/

/-- The unit of a page. -/
def unitOf (page inst : Nat) : Nat := page * 65536 + inst

/-- The page type of a unit. -/
def unitPage (u : Nat) : Nat := u / 65536

/-- The instance number of a unit. -/
def unitInst (u : Nat) : Nat := u % 65536

/-- READY_INFO's reason of a page that is not ready after the clocks start (R351, R373) (DEDUCED, log 97). -/
def bringUpReason (page : Nat) : Nat :=
  if page = 0x30 then 2
  else if page = 0x40 then 3
  else if page = 0x52 then 8
  else if page = 0x10 ∨ page = 0x11 ∨ page = 0x41 ∨ page = 0x50 ∨ page = 0x51 ∨ (0x60 ≤ page ∧ page ≤ 0x62) ∨ page = 0x70
  then 9
  else 1

/-- Reset value of a field in one place: the table's value, or the value a rule derives for the variant,
the page or the window (R3, R8, R115, R211, R345, R364, R395, DESIGN CHOICE, log 5). -/
def resetVal (v : Variant) (f : Field) (u idx : Nat) : Nat :=
  if f.fid = F.com_TYPE.fid then unitPage u
  else if f.fid = F.com_REASON.fid then bringUpReason (unitPage u)
  else if f.fid = F.com_INSTANCE.fid then unitInst u
  else if f.fid = F.id_VARIANT.fid then v.code
  else if f.fid = F.id_DEVICE_ID.fid then 0x7640 + v.code
  else if f.fid = F.id_MEM_STACKS.fid then v.stacks
  else if f.fid = F.id_IO_DIES.fid then v.ports
  else if f.fid = F.id_MC_USED.fid then v.mcUsed
  else if f.fid = F.id_SITE_DIE.fid then idx / 6
  else if f.fid = F.id_SITE_IO.fid then b2n (decide (v.mcUsed ≤ idx % 6))
  else if f.fid = F.id_SITE_PAGE.fid then
    (if v.mcUsed ≤ idx % 6 then (idx / 6) * (6 - v.mcUsed) + (idx % 6 - v.mcUsed)
     else (idx / 6) * v.mcUsed + idx % 6)
  else if f.fid = F.cd_HOST_EP.fid then b2n (unitInst u == 0)
  else if f.fid = F.ad_REMAP_STG.fid ∨ f.fid = F.ad_REMAP_CUR.fid then idx
  else if f.fid = F.ag_FRAME_MAP_STG.fid ∨ f.fid = F.ag_FRAME_MAP_CUR.fid then (if idx < 56 then 0x0100 else 0)
  else f.rst

/-- What a field reads as that has not been written since reset; PROG_COUNT reads what firmware set at bring-up
(R96). -/
def unwritten (s : State) (f : Field) (u idx : Nat) : Nat :=
  if f.fid = F.ag_PROG_COUNT.fid then nmGet 0 (unitInst u) s.progBase else resetVal s.variant f u idx

/-- The current value of a field. -/
def rdU (s : State) (f : Field) (u idx : Nat) : Nat :=
  smGet (unwritten s f u idx) ⟨f.fid, u, idx⟩ s.flds

/-- The state with a field's current value set, cut to the field's width. -/
def wrU (f : Field) (u idx v : Nat) (s : State) : State :=
  { s with flds := smSet FKey.lt ⟨f.fid, u, idx⟩ (v % 2 ^ f.width) s.flds }

/-- A field of the field's own page type. -/
def rd (s : State) (f : Field) (inst idx : Nat) : Nat := rdU s f (unitOf f.page inst) idx

/-- Sets a field of the field's own page type. -/
def wr (f : Field) (inst idx v : Nat) (s : State) : State := wrU f (unitOf f.page inst) idx v s

/-- A one-bit field. -/
def rdb (s : State) (f : Field) (inst idx : Nat) : Bool := rd s f inst idx == 1

/-- Sets a one-bit field. -/
def setb (f : Field) (inst idx : Nat) (b : Bool) (s : State) : State := wr f inst idx (b2n b) s

/-- Adds to a free-running count, which wraps at its width (R352). -/
def addW (f : Field) (inst idx n : Nat) (s : State) : State := wr f inst idx (rd s f inst idx + n) s

/-- The largest value of a field. -/
def fieldMax (f : Field) : Nat := 2 ^ f.width - 1

/-- Sets the SAT bit of a saturating field on page unit `pu` (R353). -/
def setSat (f : Field) (pu : Nat) (s : State) : State :=
  if 0x400 ≤ f.off then wrU F.com_SAT_TBL pu 0 1 s
  else
    let g := if f.lo = 0 then F.com_SAT_LO else F.com_SAT_HI
    wrU g pu 0 (rdU s g pu 0 ||| 2 ^ ((f.off - 0x200) / 8)) s

/-- Clears the SAT bit of a counter field on page unit `pu`, with the counter it belongs to (R353). -/
def clearSatBit (f : Field) (pu : Nat) (s : State) : State :=
  let g := if f.lo = 0 then F.com_SAT_LO else F.com_SAT_HI
  wrU g pu 0 (splice (rdU s g pu 0) ((f.off - 0x200) / 8) 1 0) s

/-- Adds to a SAT field in unit `u`, which stops at its maximum and then raises the SAT bit of page unit
`pu` (R352, R353). -/
def satU (f : Field) (u idx n pu : Nat) (s : State) : State :=
  let v := min (rdU s f u idx + n) (fieldMax f)
  let s' := wrU f u idx v s
  if v = fieldMax f then setSat f pu s' else s'

/-- Adds to a SAT field of its own page. -/
def sat (f : Field) (inst idx n : Nat) (s : State) : State :=
  satU f (unitOf f.page inst) idx n (unitOf f.page inst) s

/-- The staged value of an ST field: the value a read returns (R357). -/
def stgU (s : State) (f : Field) (u idx : Nat) : Nat :=
  smGet (rdU s f u idx) ⟨f.fid, u, idx⟩ s.stg

/-- The staged value on the field's own page. -/
def stg (s : State) (f : Field) (inst idx : Nat) : Nat := stgU s f (unitOf f.page inst) idx

/-! ### Time -/

/-- Device time in whole nanoseconds (R316). -/
def nowNs (s : State) : Nat := (s.time / 2 ^ 32) % 2 ^ 64

/-- Alignment periods since the dividers started (R6). -/
def nowAp (s : State) : Nat := s.core / 32

/-- The clock moved to core cycle `t`, no earlier than now; device time advances by INCR each register
tick, 4 core cycles (R6, R316). -/
def advanceTo (t : Nat) (s : State) : State :=
  let t' := max t s.core
  { s with core := t', time := (s.time + (t' / 4 - s.core / 4) * rd s F.ck_INCR 0 0) % 2 ^ 96 }

/-- Device time in nanoseconds at core cycle `c` in the past (R199). -/
def nsAt (s : State) (c : Nat) : Nat := ((s.time - (s.core / 4 - c / 4) * rd s F.ck_INCR 0 0) / 2 ^ 32) % 2 ^ 64

/-- Microseconds of device time since `ns`. -/
def usSince (s : State) (ns : Nat) : Nat := (nowNs s - ns) / 1000

/-- The next free value (DESIGN CHOICE, log 3). -/
def free (s : State) : Nat × State := (Config.freeValue s.freeCtr, { s with freeCtr := s.freeCtr + 1 })

/-- Sends something out of the part. -/
def emit (o : Output) (s : State) : State := { s with out := s.out ++ [o] }

/-! ### Memory, scratchpads and segment buffers -/

/-- Scratchpad bytes of a digital die: 192 MiB (R5). -/
def scratchBytes : Nat := 192 * 2 ^ 20

/-- The cell of byte `a` of a space. -/
def cell (space a : Nat) : Nat := a * 64 + space

/-- The space of a die's scratchpad (codes 0 to 3) or segment buffer (codes 8 to 23) (R182). -/
def dieSpace (code : Nat) : Nat := if code < 8 then code + 1 else code

/-- The space of device memory. -/
def memSpace : Nat := 0

/-- What a device address reaches. -/
inductive MemRef where
  /-- The byte of a memory stack at this address. -/
  | at (a : Nat)
  /-- A page at or beyond MASTER_PAGES or STATE_PAGES (R255). -/
  | beyondView
  /-- Neither memory nor a view window. -/
  | unbacked
  deriving DecidableEq, Repr

/-- A device address resolved through the view windows (R255). -/
def memRef (s : State) (a : Nat) : MemRef :=
  let w := a / 2 ^ 44
  let off := a % 2 ^ 44
  let p := off / 65536
  if 8 ≤ w ∧ w ≤ 11 ∧ a < 2 ^ 48 then
    let st := decide (10 ≤ w)
    let pages := if st then rd s F.ex_STATE_PAGES 0 0 else rd s F.ex_MASTER_PAGES 0 0
    let selv := b2n ((if st then s.selState else s.selMaster).contains p)
    let half := if w % 2 = 0 then selv else 1 - selv
    let base := match st, half with
      | false, 0 => rd s F.ex_MASTER_HALF0 0 0
      | false, _ => rd s F.ex_MASTER_HALF1 0 0
      | true, 0 => rd s F.ex_STATE_HALF0 0 0
      | true, _ => rd s F.ex_STATE_HALF1 0 0
    if p < pages then .at (base + off) else .beyondView
  else if a < s.variant.memBytes then .at a
  else .unbacked

/-- The cell of byte `a` of `space`, where there is one. -/
def cellAt (s : State) (space a : Nat) : Option Nat :=
  if space = memSpace then
    match memRef s a with
    | .at b => some (cell memSpace b)
    | _ => none
  else if space < 8 then (if a < scratchBytes then some (cell space a) else none)
  else some (cell space a)

/-- The byte at `a` of `space`. A byte of a view page beyond the view reads 0 (R255); a byte the space does
not have is a free value (DESIGN CHOICE, log 7). -/
def readByte (s : State) (space a : Nat) : Byte :=
  match cellAt s space a with
  | some k => cellGet k s.mem
  | none =>
    if space = memSpace ∧ memRef s a = .beyondView then 0#8 else Config.unbackedByte (cell space a)

/-- `n` bytes from `a`. -/
def readBytes (s : State) (space a n : Nat) : List Byte :=
  (List.range n).map fun i => readByte s space (a + i)

/-- Bytes as a little-endian number. -/
def leNat (bs : List Byte) : Nat := bs.foldr (fun b n => b.toNat + 256 * n) 0

/-- The `n` little-endian bytes of a number. -/
def natLe : Nat → Nat → List Byte
  | 0, _ => []
  | n + 1, v => BitVec.ofNat 8 v :: natLe n (v / 256)

/-- `n` bytes from `a` as a little-endian number. -/
def readNat (s : State) (space a n : Nat) : Nat := leNat (readBytes s space a n)

/-- The cell of the 64-bit word that holds a cell. -/
def wordOf (k : Nat) : Nat := (k / 512) * 512 + k % 64

/-- The 64-bit word that holds byte `a` is poisoned (R381). -/
def poisonedAt (s : State) (space a : Nat) : Bool :=
  match cellAt s space a with
  | some k => s.poison.contains (wordOf k)
  | none => false

/-- One byte written; a byte the space does not have is not written (R255, DESIGN CHOICE, log 7). -/
def writeByte (space a : Nat) (b : Byte) (s : State) : State :=
  match cellAt s space a with
  | some k => { s with mem := cellSet k b s.mem }
  | none => s

/-- Bytes written from `a`. -/
def writeBytes (space : Nat) : Nat → List Byte → State → State
  | _, [], s => s
  | a, b :: bs, s => writeBytes space (a + 1) bs (writeByte space a b s)

/-- Clears the poison of each 64-bit word that a write of `n` bytes at `a` covers whole (R382). -/
def clearPoison (space a n : Nat) (s : State) : State :=
  let kept (w : Nat) : Bool := !(w % 64 == space && (List.range (n / 8 + 1)).any fun i =>
    let b := (a + 7) / 8 * 8 + 8 * i
    decide (b + 8 ≤ a + n) && cellAt s space b == some w)
  { s with poison := s.poison.filter kept, unmet := s.unmet.filter kept }

/-- Core cycles for which a replaced byte is kept: no reader's read cycle lies further back (R207). -/
def keepCycles : Nat := 192

/-- Keeps the bytes that a write of `n` bytes at `a` replaces, and drops those no reader can ask for. -/
def keepOld (space a n : Nat) (land : Option Nat) (s : State) : State :=
  if space = memSpace then s
  else { s with recent := s.recent.filter (fun r => decide (s.core < r.at' + keepCycles)) ++
    [⟨land.getD s.core, space, a, readBytes s space a n⟩] }

/-- A write of `n` bytes at `a` that touches a segment's parameters leaves no outlier list with them (R160). -/
def dropTags (space a n : Nat) (s : State) : State :=
  { s with segTags := s.segTags.filter fun t =>
      !(t.1 % 64 == space && decide (a < t.1 / 64 + 4) && decide (t.1 / 64 < a + n)) }

/-- Bytes stored by an engine, a copy, a remote write, BAR2 or the part itself: whole words lose their poison
(R382), and overwritten segments their outlier lists. `land` is the landing cycle of a long operation's write. -/
def storeAs (land : Option Nat) (space a : Nat) (bs : List Byte) (s : State) : State :=
  clearPoison space a bs.length (writeBytes space a bs (keepOld space a bs.length land (dropTags space a bs.length s)))

/-- Bytes stored by anything but a long operation. -/
def store (space a : Nat) (bs : List Byte) (s : State) : State := storeAs none space a bs s

/-- The larder entries as a read in core cycle `c` finds them: as they were before a save in that cycle (R147). -/
def larderAsOf (c : Nat) (s : State) : State :=
  s.oldLarder.foldr (fun r s => if c ≤ r.at' then
    r.vals.foldl (fun s kv => { s with flds := smSet FKey.lt kv.1 kv.2 s.flds }) s else s) s

/-- The state with scratchpads, segment buffers and larders as a read in core cycle `c` finds them (R147, R195, R207). -/
def asOf (c : Nat) (s : State) : State :=
  s.recent.foldr (fun r s => if c < r.at' then writeBytes r.space r.base r.bytes s else s) (larderAsOf c s)

/-- Marks the word that holds byte `a` poisoned. -/
def poisonWord (space a : Nat) (s : State) : State :=
  match cellAt s space a with
  | some k => { s with
      poison := if s.poison.contains (wordOf k) then s.poison else s.poison ++ [wordOf k]
      newPoison := if s.newPoison.contains (wordOf k) then s.newPoison else s.newPoison ++ [wordOf k] }
  | none => s

/-- The word that holds byte `a` goes bad beyond correction; the next read meets it (R379, R381). -/
def breakWord (space a : Nat) (s : State) : State :=
  match cellAt s space a with
  | some k => if s.poison.contains (wordOf k) then s
    else { s with poison := s.poison ++ [wordOf k], unmet := s.unmet ++ [wordOf k] }
  | none => s

/-- Bytes of device memory written by the part. -/
def storeMem (a : Nat) (bs : List Byte) (s : State) : State := store memSpace a bs s

/-! ### Log rings (R385) -/

/-- A ring-size field: values outside 8 to 20 act as the nearer limit. -/
def ringLog (v : Nat) : Nat := min (max v 8) 20

/-- Four words as 32 bytes. -/
def words4 (a b c d : Nat) : List Byte := natLe 8 a ++ natLe 8 b ++ natLe 8 c ++ natLe 8 d

/-- The page types and how many pages each has. -/
def pageCounts (v : Variant) : List (Nat × Nat) :=
  [(0x01, 1), (0x02, 1), (0x03, 1), (0x04, 1), (0x10, 16), (0x11, 256), (0x20, 4), (0x21, 32), (0x22, 64), (0x23, 32),
   (0x24, 4), (0x25, 4), (0x30, v.stacks), (0x40, v.ports), (0x41, 4), (0x50, 4), (0x51, 1), (0x52, 4), (0x60, 1),
   (0x61, 1), (0x62, 1), (0x70, 1)]

/-- The die of a page in the numbers of PRODUCE_DIE (R183): an array die's, or the digital die that the page is on or is
associated with (R8, R385) (DEDUCED, log 160). -/
def pageDie (s : State) (type inst : Nat) : Nat :=
  if type = 0x10 then 8 + inst
  else if type = 0x11 then 8 + inst / 16
  else 4 * inst / (((pageCounts s.variant).find? fun tc => tc.1 == type).map (·.2)).getD 1

/-- The entries that ring `l` has taken in the register tick in progress, in their order. -/
def tickEntries (s : State) (l : Nat) : List LogRec :=
  s.fault.logNow.filter fun r => r.ring == l && r.tick == s.core / 4

/-- Writes one entry into log ring `l`. Entries of one register tick stand in ascending order of die, then of unit instance,
which `key` gives (R385). -/
def logEntry (l key : Nat) (bs : List Byte) (s : State) : State :=
  if rdb s F.fa_LOG_EN 0 l then
    let size := 2 ^ ringLog (rd s F.fa_LOG_SIZE 0 l)
    let head := rd s F.fa_LOG_HEAD 0 l
    let full := decide (size ≤ head) && decide (size ≤ (head + 2 ^ 64 - rd s F.fa_LOG_TAIL 0 l) % 2 ^ 64)
    let old := tickEntries s l
    let first := old.filter fun r => decide (r.key ≤ key)
    let later := ⟨l, s.core / 4, key, bs⟩ :: old.filter fun r => decide (key < r.key)
    let s := later.zipIdx.foldl (fun s ri =>
      storeMem (rd s F.fa_LOG_BASE 0 l + 32 * ((head - (later.length - 1) + ri.2) % size)) ri.1.bytes s) s
    let others := s.fault.logNow.filter fun r => r.ring != l && r.tick == s.core / 4
    let s := wr F.fa_LOG_HEAD 0 l (head + 1) { s with fault := { s.fault with logNow := others ++ first ++ later } }
    if full then sat F.fa_LOG_OVERWRITTEN 0 l 1 s else s
  else sat F.fa_LOG_OVERWRITTEN 0 l 1 s

/-- The place of an entry among those of its register tick: by die and unit instance (R385). -/
def logKey (dieCode inst : Nat) : Nat := dieCode * 2 ^ 16 + inst

/-- This device's rank. -/
def ownRank (s : State) : Nat := rd s F.ex_RANK 0 0

/-- The step number in progress (R40). -/
def stepNo (s : State) : Nat := rd s F.cm_STEP 0 0

/-- An error-log entry (R386). -/
def errorLog (unitType unitInst cls cause tag : Nat) (tagValid : Bool) (addr detail : Nat) (s : State) : State :=
  logEntry 0 (logKey (pageDie s unitType unitInst) unitInst) (words4 (nowNs s) (stepNo s)
    (unitType + unitInst * 2 ^ 8 + cls * 2 ^ 24 + cause * 2 ^ 26 + (tag % 2 ^ 20) * 2 ^ 32 + b2n tagValid * 2 ^ 52)
    (addr % 2 ^ 48 + (min detail 65535) * 2 ^ 48)) s

/-- A guard entry (R196). -/
def guardEntry (die tag gen kind lines dieCode addr cycles : Nat) (s : State) : State :=
  let s := sat F.sq_GUARD_ENTRIES die 0 1 s
  logEntry 1 (logKey dieCode (bits tag 12 8)) (words4 (nowNs s) (stepNo s)
    (tag % 2 ^ 20 + (gen % 256) * 2 ^ 20 + kind * 2 ^ 28 + (min lines 65535) * 2 ^ 32 + dieCode * 2 ^ 48)
    (addr % 2 ^ 48 + (min cycles 65535) * 2 ^ 48)) s

/-! ### Program-fatal errors (R173) -/

/-- A program dump is due after an error of digital die `die`: one for the errors of one stop. After a device-fatal error it is
skipped (R388) (DEDUCED, log 109). -/
def dueDump (die : Nat) (s : State) : State :=
  if rdb s F.fa_DEVICE_FATAL 0 0 then sat F.fa_DUMPS_SKIPPED 0 0 1 s
  else if s.fault.programDue then s
  else { s with fault := { s.fault with
    programDue := true, step := stepNo s, epoch := rd s F.cm_EPOCH 0 0, time := nowNs s, src := unitOf 0x25 die } }

/-- Records a program-fatal error of a command of digital die `die`: PROG_STATUS latches the first, and
issue stops at the first command boundary after the next alignment-period boundary (DEDUCED, log 16). -/
def programFatal (die kind tag : Nat) (s : State) : State :=
  let s := sat F.fa_PROGRAM_FATALS 0 0 1 s
  let s := if rdb s F.sq_FATAL die 0 then s
    else wr F.sq_FATAL_TAG die 0 tag (wr F.sq_FATAL_KIND die 0 kind (setb F.sq_FATAL die 0 true s))
  let s := dueDump die s
  match s.stopAt with
  | some _ => s
  | none => { s with stopAt := some ((s.core / 32 + 1) * 32) }

/-- A guard entry of a sequencer's command, program-fatal where R197 makes it so. -/
def guardFault (die tag gen kind lines dieCode addr cycles : Nat) (s : State) : State :=
  let s := guardEntry die tag gen kind lines dieCode addr cycles s
  if kind ≤ 2 ∧ rdb s F.sq_GUARD_POLICY die 0 then s else programFatal die kind tag s

/-! ### Device-fatal errors (R387): see Faults.lean. Uncorrectable words (R381) -/

/-- The unit that holds a byte: a scratchpad page, a memory-controller page, or the digital-die page of
the die associated with an array die's segment buffer (R381, R393, DESIGN CHOICE, log 8). -/
def holdingUnit (s : State) (space a : Nat) : Nat :=
  if space = memSpace then unitOf 0x30 (Config.memController a % s.variant.stacks)
  else if space < 8 then unitOf 0x24 (space - 1)
  else unitOf 0x20 ((space - 8) / 4)

/-- UNCORR and LAST_UNCORR_ADDR of a storage unit (R393). -/
def uncorrFields (u : Nat) : Field × Field :=
  if unitPage u = 0x30 then (F.mc_UNCORR, F.mc_LAST_UNCORR_ADDR)
  else if unitPage u = 0x24 then (F.sp_UNCORR, F.sp_LAST_UNCORR_ADDR)
  else (F.dd_UNCORR, F.dd_LAST_UNCORR_ADDR)

/-- One read that met the uncorrectable words at `ws` counts in each unit that holds one, and the last of a unit shows in its
LAST_UNCORR_ADDR (R381, R393). -/
def countUncorr (space : Nat) (ws : List Nat) (s : State) : State :=
  let s := (ws.map (holdingUnit s space)).dedup.foldl (fun s u => satU (uncorrFields u).1 u 0 1 u s) s
  ws.foldl (fun s w => wrU (uncorrFields (holdingUnit s space w)).2 (holdingUnit s space w) 0 w s) s

/-- The word at `a` has gone bad and no read has met it yet. -/
def unmetAt (s : State) (space a : Nat) : Bool :=
  match cellAt s space a with
  | some k => s.unmet.contains (wordOf k)
  | none => false

/-- CAUSE of a read that meets the words at `ws` (R386): the first read of a word that went bad in memory or in a scratchpad says
so, every later one reads a poisoned word (DEDUCED, log 43). -/
def readCause (s : State) (space : Nat) (ws : List Nat) (cause : Nat) : Nat :=
  if cause = 4 ∧ ws.any (unmetAt s space) then (if space = memSpace then 1 else 2) else cause

/-- The words at `ws` have been met: they are poisoned words from now on (R381). -/
def meetWords (space : Nat) (ws : List Nat) (s : State) : State :=
  let met (w : Nat) : Bool := ws.any fun a => (cellAt s space a).map wordOf == some w
  { s with unmet := s.unmet.filter fun w => !met w, newPoison := s.newPoison ++ s.unmet.filter met }

/-- One uncorrectable read of the words at `ws` (R381, R386): an entry with the address of the first and their number, which is
of the program-fatal class for a bin fetch (DEDUCED, log 43). -/
def uncorrectable (space : Nat) (ws : List Nat) (cause tag : Nat) (tagValid : Bool) (s : State) : State :=
  let a := ws.headD 0
  let u := holdingUnit s space a
  let cause := readCause s space ws cause
  let s := meetWords space ws s
  let s := setb F.fa_UNCORR_SEEN 0 0 true (sat F.fa_UNCORRECTABLE 0 0 1 (countUncorr space ws s))
  errorLog (unitPage u) (unitInst u) (if cause = 6 then 2 else 1) cause tag tagValid a ws.length s

/-- The poisoned words that `n` bytes at `a` touch, by address. -/
def poisonedWords (s : State) (space a n : Nat) : List Nat :=
  if s.poison.isEmpty then []
  else ((List.range (n / 8 + 2)).map fun i => a / 8 * 8 + 8 * i).filter fun b =>
    decide (b < a + n) && poisonedAt s space b

/-- A page of a view window beyond the view is met somewhere in `n` bytes at `a` (R255). -/
def beyondView (s : State) (space a n : Nat) : Bool :=
  decide (space = memSpace ∧ 2 ^ 47 ≤ a) && (List.range (n / 65536 + 2)).any fun i =>
    decide (a + 65536 * i < a + n + 65536) && decide (memRef s (min (a + 65536 * i) (a + n - 1)) = .beyondView)

/-- Reports an access to `n` bytes at `a` that meets a page beyond the view (R255), for the command `tag` if one makes it. -/
def viewReport (space a n : Nat) (tag : Option Nat) (s : State) : State :=
  if beyondView s space a n then uncorrectable space [a] 9 (tag.getD 0) tag.isSome s else s

/-- Reports what reading `n` bytes at `a` meets (R255, R381), for the command `tag` if one reads. -/
def readReportOf (space a n : Nat) (tag : Option Nat) (s : State) : State :=
  viewReport space a n tag (match poisonedWords s space a n with
    | [] => s
    | ws => uncorrectable space ws 4 (tag.getD 0) tag.isSome s)

/-- The same for a read of the command `tag`. -/
def readReport (space a n tag : Nat) (s : State) : State := readReportOf space a n (some tag) s

/-- The same for a read of device memory by the part itself: a pantry, a table, an image (R255, R381). -/
def partReport (a n : Nat) (s : State) : State := readReportOf memSpace a n none s

/-! ### Tokens (R183, R184, R186, R209) -/

/-- The token word of R183. -/
def tokenWord (tag gen : Nat) (skip nonfinite overflow clip : Bool) (fmt extent : Nat) : Nat :=
  tag % 2 ^ 20 + (gen % 256) * 2 ^ 20 + b2n skip * 2 ^ 28 + b2n nonfinite * 2 ^ 29 + b2n overflow * 2 ^ 30 +
    b2n clip * 2 ^ 31 + (fmt % 16) * 2 ^ 32 + (min extent (2 ^ 24 - 1)) * 2 ^ 40

def tokTag (w : Nat) : Nat := bits w 0 20
def tokGen (w : Nat) : Nat := bits w 20 8
def tokSkip (w : Nat) : Bool := bitOf w 28
/-- NONFINITE, OVERFLOW and CLIP as a 3-bit number, in the order of STICKY. -/
def tokStatus (w : Nat) : Nat := bits w 29 3
def tokFmt (w : Nat) : Nat := bits w 32 4
def tokExtent (w : Nat) : Nat := bits w 40 24

/-- The empty token of a skipped command. -/
def emptyToken (tag gen : Nat) : Nat := tokenWord tag gen true false false false 0xF 0

/-- The die code of a sequencer's own die: its digital die, or its array die (R169, R183). -/
def seqDieCode (q : SeqId) : Nat := if q.num < 89 then q.die else 8 + 4 * q.die + (q.num - 89) / 16

/-- The digital die a die code is on or associated with (R8). -/
def homeDie (code : Nat) : Nat := if code < 8 then code else (code - 8) / 4

/-- The core cycle from which a token enqueued at `e` can be popped (R209). `src` is the producer's die
code, none for port logic and firmware. -/
def poppableAt (src : Option Nat) (dst e : Nat) : Nat :=
  let ap (n : Nat) := (e / 32 + n) * 32
  match src with
  | none => e
  | some c =>
    if c = dst then (if c < 8 then e + 4 else ap 1)
    else if homeDie c = homeDie dst ∧ (c < 8 ∨ dst < 8) ∧ ¬(c < 8 ∧ dst < 8) then ap 2
    else ap 3

/-- The key of a queue. -/
def queueKey (dieCode q : Nat) : Nat := dieCode * 1024 + q

/-- The tokens of a queue, head first. -/
def queueOf (s : State) (dieCode q : Nat) : List QTok := nmGet [] (queueKey dieCode q) s.queues

/-- The state with a queue replaced. -/
def setQueue (dieCode q : Nat) (ts : List QTok) (s : State) : State :=
  { s with queues := nmSet (queueKey dieCode q) ts s.queues }

/-- The digital die and number of the sequencer that consumes queue `n` of a die (R169). -/
def consumerOf (dieCode n : Nat) : Option (Nat × Nat) :=
  if dieCode < 4 then
    (if n < 512 then some (dieCode, n / 8)
     else if n < 768 then some (dieCode, 64 + (n - 512) / 16)
     else if n < 896 then some (dieCode, 80 + (n - 768) / 16)
     else if n < 960 then some (dieCode, 88)
     else none)
  else if 8 ≤ dieCode ∧ dieCode < 24 ∧ n < 256 then
    some ((dieCode - 8) / 4, 89 + 16 * ((dieCode - 8) % 4) + n / 16)
  else none

/-- The tokens at the head of a queue whose GENERATION differs from `gen` are discarded and counted
(R186). -/
def dropStale (gen : Nat) : List QTok → List QTok × Nat
  | [] => ([], 0)
  | t :: ts => if tokGen t.word = gen then (t :: ts, 0) else
    let r := dropStale gen ts
    (r.1, r.2 + 1)

/-- What reaches the head of a queue with another GENERATION than its consumer's GEN is discarded (R186). -/
def settleHead (dieCode n : Nat) (s : State) : State :=
  match consumerOf dieCode n with
  | none => s
  | some q =>
    let r := dropStale (nmGet {} (q.1 * 153 + q.2) s.seqx).gen (queueOf s dieCode n)
    if r.2 = 0 then s else sat F.sq_STALE_TOKENS q.1 0 r.2 (setQueue dieCode n r.1 s)

/-- A token put behind every token that can be popped no later. -/
def insertTok (t : QTok) : List QTok → List QTok
  | [] => [t]
  | u :: us => if u.ready ≤ t.ready then u :: insertTok t us else t :: u :: us

/-- Enqueues a token at core cycle `e`; a full queue drops it and is program-fatal (R186). `die` is the
digital die that reports. -/
def enqueue (src : Option Nat) (die dieCode q word e : Nat) (s : State) : State :=
  let ts := queueOf s dieCode q
  if ts.length < 64 then settleHead dieCode q (setQueue dieCode q (insertTok ⟨word, poppableAt src dieCode e⟩ ts) s)
  else guardFault die (tokTag word) (tokGen word) 6 0 (src.getD die) q 0 s

/-! ### Completion records (R199, R200, R330) -/

/-- Writes to host memory are suppressed: Bus Master Enable is 0 or the function is in D3hot (R323). -/
def hostQuiet (s : State) : Bool := !(rdb s F.hi_BUS_MASTER 0 0) || s.d3hot

/-- Entries of a ring: 2^RING_SIZE, clamped to 6 to 16 (R342). -/
def hostRingSize (s : State) (r : Nat) : Nat := 2 ^ min (max (rd s F.hi_RING_SIZE 0 r) 6) 16

/-- PHASE of entry `i` of ring `r` (R329). -/
def hostPhase (s : State) (r i : Nat) : Nat := 1 - (i / hostRingSize s r) % 2

/-- Writes an entry of `n` bytes, whose PHASE bit the caller has set, at the part's index of ring `r`, and
advances the index. -/
def hostRingWrite (r n : Nat) (bs : List Byte) (s : State) : State :=
  let i := rd s F.hi_PART_INDEX 0 r
  let s := emit (.hostWrite (rd s F.hi_RING_BASE 0 r + n * (i % hostRingSize s r)) bs) s
  wr F.hi_PART_INDEX 0 r (i + 1) s

/-- A completion record of a NOTIFY command of die `d` in host completion ring `d` (R330). -/
def hostRecord (d token ns : Nat) (s : State) : State :=
  let i := rd s F.hi_PART_INDEX 0 d
  let full := decide ((i + 2 ^ 32 - rd s F.hi_HOST_INDEX 0 d) % 2 ^ 32 = hostRingSize s d)
  if full || !(rdb s F.hi_RING_ENABLE 0 d) || hostQuiet s then
    setb F.hi_HOST_DROP_SEEN 0 0 true (sat F.hi_HCR_DROPPED 0 0 1 s)
  else hostRingWrite d 32 (words4 token ns 0 (hostPhase s d i)) s

/-- The record in the die's own ring (R199). -/
def dieRecord (d token ns : Nat) (s : State) : State :=
  let size := 2 ^ ringLog (rd s F.sq_CREC_SIZE d 0)
  let head := rd s F.sq_CREC_HEAD d 0
  if (head + 2 ^ 64 - rd s F.sq_CREC_TAIL d 0) % 2 ^ 64 = size then sat F.sq_CREC_DROPPED d 0 1 s
  else wr F.sq_CREC_HEAD d 0 (head + 1)
    (storeMem (rd s F.sq_CREC_BASE d 0 + 16 * (head % size)) (natLe 8 token ++ natLe 8 ns) s)

/-- The completion record of a command that ends at core cycle `c` (R199, R200). -/
def completionRecord (d token : Nat) (notify : Bool) (c : Nat) (s : State) : State :=
  let ns := nsAt s c
  let s := if notify || rdb s F.sq_TRACE_ALL d 0 then dieRecord d token ns s else s
  if notify then hostRecord d token ns s else s

end Sys2Proof.Machine
end

