-- ==== Sys2Proof/Machine/Operands.lean ====
section
/-! DEFINITION. The fields of a command (R174) and its operand forms: address registers, offsets, lengths
and stream descriptors (R155, R176), and reading and writing streams of every element format (R154,
R157). -/

namespace Sys2Proof.Machine

open Sys2Proof

/-! ### The common header (R174) -/

def Cmd.cls (c : Cmd) : Nat := bits c.w0 0 4
def Cmd.op (c : Cmd) : Nat := bits c.w0 4 6
def Cmd.issueOffset (c : Cmd) : Nat := bits c.w0 10 16
def Cmd.predFlag (c : Cmd) : Nat := bits c.w0 26 4
def Cmd.predSense (c : Cmd) : Bool := bitOf c.w0 30
def Cmd.predEn (c : Cmd) : Bool := bitOf c.w0 31
def Cmd.waitA (c : Cmd) : Nat := bits c.w0 32 10
def Cmd.waitAEn (c : Cmd) : Bool := bitOf c.w0 42
def Cmd.waitB (c : Cmd) : Nat := bits c.w0 43 10
def Cmd.waitBEn (c : Cmd) : Bool := bitOf c.w0 53
def Cmd.skipFollow (c : Cmd) : Bool := bitOf c.w0 54
def Cmd.statusLoad (c : Cmd) : Bool := bitOf c.w0 55
def Cmd.produceEn (c : Cmd) : Bool := bitOf c.w0 56
def Cmd.notify (c : Cmd) : Bool := bitOf c.w0 57
def Cmd.produceQueue (c : Cmd) : Nat := bits c.w1 0 10
def Cmd.produceDie (c : Cmd) : Nat := bits c.w1 10 5
def Cmd.grad (c : Cmd) : Bool := bitOf c.w1 15
def Cmd.streamInst (c : Cmd) : Nat := bits c.w1 16 12
def Cmd.streamKind (c : Cmd) : Nat := bits c.w1 28 4
def Cmd.tidReg (c : Cmd) : Nat := bits c.w1 32 5
def Cmd.ebReg (c : Cmd) : Nat := bits c.w1 37 5

/-! ### What an engine is given with a command -/

/-- Address register `r`, 48 bits (R170). -/
def Ctx.reg (x : Ctx) (r : Nat) : Nat := x.regs.getD (r % 32) 0 % 2 ^ 48

/-- A 15-bit REG and OFF pair from bit `lo` of a word: base register plus 64 × the signed offset (R176). -/
def Ctx.addr (x : Ctx) (w lo : Nat) : Nat :=
  unsignedOf ((x.reg (bits w lo 5) : Int) + 64 * signedOf (bits w (lo + 5) 10) 10) 48

/-- The tensor identifier (R174). -/
def Ctx.tid (x : Ctx) (c : Cmd) : Nat := x.reg c.tidReg % 2 ^ 32

/-- ELEM_BASE (R174). -/
def Ctx.elemBase (x : Ctx) (c : Cmd) : Nat := x.reg c.ebReg % 2 ^ 32

/-- The row length of the tensor; 0 means 65,536 (R174). -/
def Ctx.rowLength (x : Ctx) (c : Cmd) : Nat :=
  let v := bits (x.reg c.ebReg) 32 16
  if v = 0 then 65536 else v

/-- A length field of R178 from bit `lo`: the length and whether a register value was clamped (R155). -/
def Ctx.len (x : Ctx) (w lo : Nat) : Nat × Bool :=
  if bitOf w (lo + 16) then
    let v := x.reg (bits w lo 5)
    (min v 65536, decide (65536 < v))
  else (bits w lo 16 + 1, false)

/-! ### Stream descriptors (R154, R176) -/

/-- Format codes of R21 used by streams. -/
def fmtB8 : Nat := 0
def fmtS16 : Nat := 1
def fmtF32 : Nat := 2
def fmtA8 : Nat := 3
def fmtLevel : Nat := 4
def fmtNone : Nat := 0xF

/-- A stream in a scratchpad or segment buffer: `aux` is the exponent or parameter plane. -/
structure Stream where
  space : Nat
  base : Nat
  fmt : Nat
  blk : Nat
  aux : Nat
  deriving DecidableEq, Repr

/-- The stream of the 21-bit descriptor at bit `lo` of `w`, on the issuer's own die (R176). -/
def Ctx.stream (x : Ctx) (w lo : Nat) : Stream :=
  { space := dieSpace x.die
    base := x.addr w lo
    fmt := bits w (lo + 15) 4
    blk := bits w (lo + 19) 2
    aux := x.reg (bits w lo 5 + 1) }

/-- Bytes of an element. -/
def elemBytes (fmt : Nat) : Nat := if fmt = fmtF32 then 4 else if fmt = fmtS16 then 2 else 1

/-- A range of bytes read or written. -/
structure Range where
  space : Nat
  base : Nat
  len : Nat
  deriving DecidableEq, Repr

/-- The ranges a stream of `n` elements covers: its elements and its auxiliary plane. -/
def Stream.ranges (d : Stream) (n : Nat) : List Range :=
  if n = 0 then []
  else ⟨d.space, d.base, n * elemBytes d.fmt⟩ ::
    (if d.fmt = fmtB8 then [⟨d.space, d.aux, ceilDiv n (blockSize d.blk)⟩]
     else if d.fmt = fmtA8 then [⟨d.space, d.aux, 4 * ceilDiv n 512⟩]
     else [])

/-- Two byte ranges share a byte. -/
def Range.overlaps (a b : Range) : Bool :=
  a.space == b.space && decide (a.base < b.base + b.len) && decide (b.base < a.base + a.len)

/-- An S16 operand at an address: a poisoned word reads as canonical NaN (R381). -/
def readS16 (s : State) (space a : Nat) : S16 :=
  if poisonedAt s space a then s16Nan else BitVec.ofNat 16 (readNat s space a 2)

/-- An F32 operand at an address. -/
def readF32 (s : State) (space a : Nat) : F32 :=
  if poisonedAt s space a then f32Nan else BitVec.ofNat 32 (readNat s space a 4)

/-- A B8 element byte: the saturation marker where the word is poisoned (R381). -/
def readB8 (s : State) (space a : Nat) : Byte := if poisonedAt s space a then 0x80#8 else readByte s space a

/-- A B8 exponent byte: 0xFF where the word is poisoned (R381). -/
def readExp (s : State) (space a : Nat) : Nat := if poisonedAt s space a then 255 else (readByte s space a).toNat

/-- A level code: 0x80, invalid, where the word is poisoned (R381). -/
def readLevel (s : State) (space a : Nat) : Byte := if poisonedAt s space a then 0x80#8 else readByte s space a

/-- A level code's value: outside −15 to +15 it is the canonical NaN (R157). -/
def levelToF32 (b : Byte) : Calc F32 :=
  if -15 ≤ b.toInt ∧ b.toInt ≤ 15 then return intToF32 b.toInt else extToF32 .nan

/-- Scale and zero point of A8 segment `i` of a parameter plane (R154). -/
def readParams (s : State) (space aux i : Nat) : S16 × Nat :=
  (readS16 s space (aux + 4 * i), (readByte s space (aux + 4 * i + 2)).toNat)

/-- Element `p` of a stream converted exactly to F32 (R157). -/
def Stream.elem (d : Stream) (s : State) (p : Nat) : Calc F32 :=
  if d.fmt = fmtB8 then
    b8ToF32 (readB8 s d.space (d.base + p)) (readExp s d.space (d.aux + p / blockSize d.blk))
  else if d.fmt = fmtS16 then do
    noteNonfinite (poisonedAt s d.space (d.base + 2 * p))
    return s16ToF32 (readS16 s d.space (d.base + 2 * p))
  else if d.fmt = fmtF32 then do
    noteNonfinite (poisonedAt s d.space (d.base + 4 * p))
    return readF32 s d.space (d.base + 4 * p)
  else if d.fmt = fmtA8 then
    let pr := readParams s d.space d.aux (p / 512)
    if poisonedAt s d.space (d.base + p) then extToF32 .nan
    else a8ToF32 pr.1 pr.2 (readByte s d.space (d.base + p))
  else levelToF32 (readLevel s d.space (d.base + p))

/-- The elements of a stream of length `n`. -/
def Stream.elems (d : Stream) (s : State) (n : Nat) : Calc (List F32) :=
  (List.range n).mapM fun p => d.elem s p

/-- The raw bytes of element `p`. -/
def Stream.rawElem (d : Stream) (s : State) (p : Nat) : List Byte :=
  readBytes s d.space (d.base + p * elemBytes d.fmt) (elemBytes d.fmt)

/-- How the elements of an output are rounded: nearest even, or by the mixer for a gradient (R38, R43). -/
structure Rounding where
  grad : Bool
  step : Nat
  kind : Nat
  inst : Nat
  tid : Nat
  deriving DecidableEq, Repr

/-- The rule for the element of index `i`. -/
def Rounding.at (r : Rounding) (i : Nat) : Rnd :=
  if r.grad then .st (mixField r.step r.kind r.inst (r.tid % 2 ^ 32) (i % 2 ^ 32)) else .ne

/-- What a stream output writes, and the values written, converted back to F32. -/
structure OutPlane where
  writes : List WriteBack
  back : List F32
  deriving DecidableEq, Repr

/-- Bytes of an S16. -/
def s16Le (x : S16) : List Byte := natLe 2 x.toNat

/-- Bytes of an F32. -/
def f32Le (x : F32) : List Byte := natLe 4 x.toNat

/-- The bytes of element `p` as a copy moves them: a poisoned word gives what R381 gives its reader. -/
def movedElem (d : Stream) (s : State) (p : Nat) : Calc (List Byte) := do
  let a := d.base + p * elemBytes d.fmt
  let bad := poisonedAt s d.space a
  noteNonfinite bad
  return (if !bad then d.rawElem s p
    else if d.fmt = fmtS16 then s16Le s16Nan
    else if d.fmt = fmtF32 then f32Le f32Nan
    else [0x80#8])

/-- One B8 block: its exponent and its elements (R32, R33, R34). -/
def encodeBlock (rd : Nat → Rnd) (preset : Option Nat) (xs : List F32) (i0 : Nat) : Calc (Nat × List Byte) := do
  let ex := match preset with
    | some e => e
    | none => b8Exponent (maxFiniteMag xs)
  let ms ← (xs.zipIdx i0).mapM fun xi => f32ToB8 (rd xi.2) preset.isSome ex xi.1
  return (ex, ms)

/-- `xs` cut into blocks of `n`, at most `fuel` of them. -/
def blocksOf {α : Type} (n : Nat) : Nat → List α → List (List α)
  | 0, _ => []
  | fuel + 1, xs =>
    match xs with
    | [] => []
    | _ => xs.take n :: blocksOf n fuel (xs.drop n)

/-- A value written as B8 and read back exactly (R164). -/
def b8Back (ex : Nat) (m : Byte) : F32 := (b8ToF32 m ex).val

/-- The values `xs` written to stream `d` (R157): element `i` rounds by `rd i`; `preset` takes the block
exponents from the exponent plane as they stand. -/
def Stream.write (d : Stream) (s : State) (rd : Nat → Rnd) (preset : Bool) (xs : List F32) : Calc OutPlane :=
  if d.fmt = fmtS16 then do
    let ys ← (xs.zipIdx).mapM fun xi => f32ToS16 (rd xi.2) xi.1
    return ⟨[⟨cell d.space d.base, ys.flatMap s16Le⟩], ys.map s16ToF32⟩
  else if d.fmt = fmtF32 then do
    let ys ← xs.mapM fun x => extToF32 (f32Val x)
    return ⟨[⟨cell d.space d.base, ys.flatMap f32Le⟩], ys⟩
  else do
    let b := blockSize d.blk
    let bl := (blocksOf b xs.length xs).zipIdx
    let es ← bl.mapM fun xj =>
      encodeBlock rd (if preset then some (readExp s d.space (d.aux + xj.2)) else none) xj.1 (b * xj.2)
    let elems := es.flatMap (fun e => e.2)
    let back := es.flatMap fun e => e.2.map (b8Back e.1)
    return ⟨⟨cell d.space d.base, elems⟩ ::
      (if preset then [] else [⟨cell d.space d.aux, es.map fun e => BitVec.ofNat 8 e.1⟩]), back⟩

end Sys2Proof.Machine
end

