-- ==== Sys2Proof/Machine/Flags.lean ====
section
/-! DEFINITION. The flags of a sequencer: predicate flags, RSTAT and the conditions that set them (R170,
R171, R181), and the status an operation's token carries (R50, R183). -/

namespace Sys2Proof.Machine

open Sys2Proof

/-- Predicate flag `i` of a sequencer (R170). -/
def predOf (s : State) (q : SeqId) (i : Nat) : Bool := bitOf (rd s F.sq_PRED q.die q.num) i

/-- Sets predicate flag `i`. -/
def setPred (q : SeqId) (i : Nat) (b : Bool) (s : State) : State :=
  wr F.sq_PRED q.die q.num (splice (rd s F.sq_PRED q.die q.num) i 1 (b2n b)) s

/-- The condition COND of CMP and CMPI on 48-bit values (R181); other codes are refused at load. -/
def cmpCond (cond a b : Nat) : Bool :=
  match cond with
  | 0 => decide (a < b)
  | 1 => decide (a ≤ b)
  | 2 => decide (a = b)
  | 3 => decide (b ≤ a)
  | 4 => decide (b < a)
  | 5 => decide (a ≠ b)
  | 6 => decide (signedOf a 48 < signedOf b 48)
  | _ => decide (signedOf b 48 ≤ signedOf a 48)

/-- Folds a popped token's status bits into RSTAT (R171). -/
def foldStatus (q : SeqId) (tok : Nat) (s : State) : State :=
  wr F.sq_STICKY q.die q.num (rd s F.sq_STICKY q.die q.num ||| tokStatus tok) s

/-- LAST_SKIP, LAST_FMT and LAST_EXTENT take those of a token (R170). -/
def setLast (q : SeqId) (tok : Nat) (s : State) : State :=
  wr F.sq_LAST_EXTENT q.die q.num (tokExtent tok)
    (wr F.sq_LAST_FMT q.die q.num (tokFmt tok) (setb F.sq_LAST_SKIP q.die q.num (tokSkip tok) s))

/-- STATUS_LOAD: every popped token's status is folded in, and the last one popped gives the rest. -/
def statusLoad (q : SeqId) (toks : List Nat) (s : State) : State :=
  toks.foldl (fun s t => setLast q t (foldStatus q t s)) s

/-- The step veto of the step in progress (R242), PSTAT COND 5. -/
def stepVeto (s : State) : Bool := rdb s F.ex_STEP_VETOED 0 0

/-- The unit of an array die, where array and column state is kept. -/
def arrayUnit (die : Nat) : Nat := unitOf 0x10 die

/-- The physical array that serves logical array `l` of an array die (R107, R115). -/
def physOf (s : State) (die l : Nat) : Nat := rd s F.ad_REMAP_CUR die l

/-- Place of element `sub` of physical array `p`. -/
def arrIdx (p sub : Nat) : Nat := p * 1024 + sub

/-- A field of physical array `p` of an array die. -/
def rdA (s : State) (f : Field) (die p sub : Nat) : Nat := rdU s f (arrayUnit die) (arrIdx p sub)

/-- Sets a field of a physical array. -/
def wrA (f : Field) (die p sub v : Nat) (s : State) : State := wrU f (arrayUnit die) (arrIdx p sub) v s

/-- Any column of logical array `a` of an array-group sequencer's group is in bypass, PSTAT COND 6. -/
def anyBypass (s : State) (q : SeqId) (a : Nat) : Bool :=
  let die := 4 * q.die + (q.num - 89) / 16
  let p := physOf s die (64 * ((q.num - 89) % 16) + a)
  decide (89 ≤ q.num) && (List.range 512).any fun c => rdA s F.ag_IN_BYPASS die p c == 1

/-- The status source COND of PSTAT (R181); other codes are refused at load. -/
def pstatCond (s : State) (q : SeqId) (cond imm : Nat) : Bool :=
  match cond with
  | 0 => bitOf (rd s F.sq_STICKY q.die q.num) 0
  | 1 => bitOf (rd s F.sq_STICKY q.die q.num) 1
  | 2 => bitOf (rd s F.sq_STICKY q.die q.num) 2
  | 3 => rdb s F.sq_LAST_SKIP q.die q.num
  | 4 => rd s F.sq_LAST_FMT q.die q.num == imm % 16
  | 5 => stepVeto s
  | 6 => anyBypass s q (imm % 64)
  | _ => bitOf imm 0

/-- A finished operation's token word (R183). -/
def resultToken (tag gen : Nat) (f : Fl) (fmt extent : Nat) : Nat :=
  tokenWord tag gen false f.nonfinite f.overflow f.clip fmt extent

end Sys2Proof.Machine
end

