-- ==== Sys2Proof/Machine/Sequencer.lean ====
section
/-! DEFINITION. The issue rule of R171, bins and switches (R193, R194), skipping (R188), and the start of a
long operation: the tracker (R198), occupancy (R172) and the timing guard (R195). -/

namespace Sys2Proof.Machine

open Sys2Proof

/-! ### The sequencer's own state -/

/-- The key of a sequencer. -/
def seqKey (q : SeqId) : Nat := q.die * 153 + q.num

/-- A sequencer that exists (R169). -/
def SeqId.ok (q : SeqId) : Bool := decide (q.die < 4) && decide (q.num < 153)

/-- What a sequencer holds beside its register fields. -/
def seqX (s : State) (q : SeqId) : SeqX := nmGet {} (seqKey q) s.seqx

/-- Replaces it. -/
def setSeqX (q : SeqId) (x : SeqX) (s : State) : State := { s with seqx := nmSet (seqKey q) x s.seqx }

/-- A bin, where one has been loaded. -/
def binOf (s : State) (q : SeqId) (b : Nat) : Option Bin :=
  smFind (seqKey q * 2 + b % 2) s.bins

/-- A bin's VALID bit. -/
def binValid (s : State) (q : SeqId) (b : Nat) : Bool :=
  if b % 2 = 0 then rdb s F.sq_VALID_0 q.die q.num else rdb s F.sq_VALID_1 q.die q.num

/-- STATE of a sequencer: 0 idle, 1 running, 2 waiting, 3 stopped (R201). -/
def seqState (s : State) (q : SeqId) : Nat := rd s F.sq_STATE q.die q.num

/-- Sets STATE. -/
def setSeqState (q : SeqId) (v : Nat) (s : State) : State := wr F.sq_STATE q.die q.num v s

/-- Running or waiting. -/
def seqBusy (s : State) (q : SeqId) : Bool := seqState s q == 1 || seqState s q == 2

/-- A sequencer that holds no active bin becomes idle, both bins standby (R171, R181). -/
def toIdle (q : SeqId) (s : State) : State := setSeqState q 0 s

/-- The active bin's number. -/
def activeBin (s : State) (q : SeqId) : Nat := rd s F.sq_PC_BIN q.die q.num

/-- The index of the next command. -/
def pcIndex (s : State) (q : SeqId) : Nat := rd s F.sq_PC_INDEX q.die q.num

/-- The next command of a running sequencer. -/
def nextCmd (s : State) (q : SeqId) : Option Cmd :=
  if seqBusy s q then
    match binOf s q (activeBin s q) with
    | some b => b.cmds[pcIndex s q]?
    | none => none
  else none

/-- The TAG of the next command (R183). -/
def seqTag (s : State) (q : SeqId) : Nat := pcIndex s q + activeBin s q * 2 ^ 11 + q.num * 2 ^ 12

/-- Core cycles in one cycle of a sequencer's domain (R6, R169). -/
def domCycles (q : SeqId) : Nat := if q.num < 89 then 1 else 2

/-- The die whose queues a sequencer consumes (R169). -/
def queueDie (q : SeqId) : Nat := seqDieCode q

/-- Moves to command `n` of the active bin; at or beyond COUNT the sequencer becomes idle (R171). -/
def setPc (q : SeqId) (n : Nat) (s : State) : State :=
  let count := ((binOf s q (activeBin s q)).map (·.count)).getD 0
  let s := wr F.sq_PC_INDEX q.die q.num n s
  if count ≤ n then toIdle q s else s

/-- Enters the other bin at its ENTRY; one that is not valid or of another generation is program-fatal
with a guard entry of kind invalid switch (R194). `base` is where its first offset counts from. -/
def enterOther (q : SeqId) (tag base : Nat) (s : State) : State :=
  let other := 1 - activeBin s q
  let x := seqX s q
  match binOf s q other with
  | some b =>
    if binValid s q other ∧ b.gen = x.gen then
      let s := wr F.sq_PC_INDEX q.die q.num b.entry (wr F.sq_PC_BIN q.die q.num other s)
      setSeqX q { x with base := base } s
    else guardFault q.die tag x.gen 5 0 (seqDieCode q) 0 0 (setSeqState q 3 s)
  | none => guardFault q.die tag x.gen 5 0 (seqDieCode q) 0 0 (setSeqState q 3 s)

/-! ### The issue rule (R171) -/

/-- What the issue of a command comes to. -/
inductive Prep where
  /-- The command does not issue now; the state may have entered a token wait. -/
  | hold (s : State)
  /-- The command issues at domain cycle `t` with the tokens it popped; `run` false skips it. -/
  | go (s : State) (cmd : Cmd) (t : Nat) (toks : List Nat) (run : Bool)
  deriving DecidableEq, Repr

/-- Pops queue `n` for a sequencer that has waited since core cycle `from'`: the token and the core cycle
of the pop, or none where the queue holds no token of its generation (R186). -/
def popQueue (q : SeqId) (n from' : Nat) (s : State) : Option (Nat × Nat) × State :=
  let s := settleHead (queueDie q) n s
  match queueOf s (queueDie q) n with
  | [] => (none, s)
  | t :: ts => (some (t.word, max t.ready from'), settleHead (queueDie q) n (setQueue (queueDie q) n ts s))

/-- Enters or stays in the wait on queue `n`, which began at core cycle `from'` (R170, R187). -/
def enterWait (q : SeqId) (n from' : Nat) (s : State) : State :=
  let x := seqX s q
  let s := setSeqX q { x with waitNs := some (x.waitNs.getD (nsAt s from')) } s
  setb F.sq_WAITING q.die q.num true (wr F.sq_WAIT_QUEUE q.die q.num n (setSeqState q 2 s))

/-- Ends a wait. -/
def leaveWait (q : SeqId) (s : State) : State :=
  if rdb s F.sq_WAITING q.die q.num then
    setb F.sq_WAITING q.die q.num false (setSeqState q 1 (setSeqX q { seqX s q with waitNs := none } s))
  else s

/-- The first domain cycle after core cycle `c`. -/
def cycleAfter (q : SeqId) (c : Nat) : Nat := c / domCycles q + 1

/-- The waits of a command: none where one of them is not over. The tokens, and the core cycle of the last
pop (DEDUCED, log 17). -/
def doWaits (q : SeqId) (c : Cmd) (s : State) : Option (List Nat × Option Nat) × State :=
  let x := seqX s q
  let start := x.base * domCycles q
  let ra : Option (List Nat × Option Nat) × State :=
    if !c.waitAEn then (some ([], none), s)
    else match x.popA with
      | some w => (some ([w], x.popAt), s)
      | none =>
        match popQueue q c.waitA start s with
        | (some (w, p), s) =>
          (some ([w], some p), setSeqX q { seqX s q with popA := some w, popAt := some p, waitNs := none } s)
        | (none, s) => (none, enterWait q c.waitA start s)
  match ra with
  | (none, s) => (none, s)
  | (some (ta, pa), s) =>
    if !c.waitBEn then (some (ta, pa), setSeqX q { seqX s q with popA := none, popAt := none } s)
    else
      match popQueue q c.waitB (max start (pa.getD start)) s with
      | (some (w, p), s) => (some (ta ++ [w], some p), setSeqX q { seqX s q with popA := none, popAt := none } s)
      | (none, s) => (none, enterWait q c.waitB (max start (pa.getD start)) s)

/-- The data planes of an array product's input lie this many alignment periods away (R207). -/
def planeDelay (arrayDie code : Nat) : Nat :=
  if code = 8 + arrayDie then 0 else if code = arrayDie / 4 then 2 else 3

/-- Every write that lands at or before core cycle `c` has landed. A command that reads at `c` issues after
the long operations that end before it (R195, DESIGN CHOICE, log 9). -/
def landedBy (s : State) (c : Nat) : Bool :=
  s.tracker.all fun p => p.landed || match p.land with
    | some l => decide (c < l)
    | none => true

/-- The domain cycle at which the command `c` of `q` issues when its last pop is at core cycle `pop` (R171, R207,
R375). -/
def issueAt (q : SeqId) (c : Cmd) (pop : Option Nat) (s : State) : Nat :=
  let x := seqX s q
  let t0 := x.base + c.issueOffset
  let t1 := match pop with
    | some p => max t0 (cycleAfter q p)
    | none => t0
  let t1 := max t1 (ceilDiv x.floor (domCycles q))
  if c.cls = 5 ∧ t0 < t1 then t1 + 16 * planeDelay (4 * q.die + (q.num - 89) / 16) (bits c.w2 0 5) else t1

/-- A sequencer came to the command in hand at or after the alignment period of a committed switch: the switch acts before
that command, whether or not it waits on a token (R194). -/
def switchNow (s : State) (q : SeqId) : Bool :=
  match (seqX s q).switchAt with
  | some w => decide (w ≤ (seqX s q).base * domCycles q)
  | none => false

/-- A committed switch replaces the command `c` of `q`, whose last pop is at core cycle `pop`: it would issue at or after
the commit's alignment period, and the sequencer does not wait for its token then (R194) (DEDUCED, log 135). -/
def switchFirst (q : SeqId) (c : Cmd) (pop : Option Nat) (s : State) : Bool :=
  match (seqX s q).switchAt with
  | some w => switchNow s q || (decide (w ≤ issueAt q c pop s * domCycles q) && (match pop with
      | some p => decide (p < w)
      | none => true))
  | none => false

/-- The status of popped tokens comes into RSTAT (R171); the last with overflow status is kept for the overflow log
(R46). -/
def loadStatus (q : SeqId) (toks : List Nat) (s : State) : State :=
  let s := statusLoad q toks s
  match (toks.filter fun t => bitOf t 30).getLast? with
  | some t => setSeqX q { seqX s q with overTok := some t } s
  | none => s

/-- R171 up to the issue cycle for the next command of `q`, when it is of class `cls` and operation `op`.
A command held by R172, one at or after the cycle that stops issue (R173), one that a committed switch
replaces (R194), and one whose time comes after a landing not yet taken, does not issue now (DEDUCED, log 40). -/
def prepare (q : SeqId) (cls op : Nat) (s : State) : Prep :=
  match nextCmd s q with
  | none => .hold s
  | some c =>
    if c.cls ≠ cls ∨ c.op ≠ op ∨ (seqX s q).heldTill.isSome ∨ switchNow s q then .hold s
    else
      match doWaits q c s with
      | (none, s) => .hold s
      | (some (toks, pop), s') =>
        let t := issueAt q c pop s
        let stopped := match s.stopAt with
          | some b => decide (b ≤ t * domCycles q)
          | none => false
        if stopped || switchFirst q c pop s || !landedBy s (t * domCycles q) then .hold s
        else
          let s' := advanceTo (t * domCycles q) (leaveWait q s')
          let s' := if c.statusLoad then loadStatus q toks s' else s'
          let run := !c.predEn || predOf s' q c.predFlag == c.predSense
          let skipTok := c.skipFollow && !(cls == 0 && op == 0x0E) && toks.any tokSkip
          .go s' c t toks (run && !skipTok)

/-- Counts an issue and sets ISSUE_TIME and the base of the next offset (R170, R171, R201). -/
def noteIssue (q : SeqId) (t : Nat) (s : State) : State :=
  let s := addW F.sq_ISSUED q.die 0 1 s
  wr F.sq_ISSUE_TIME q.die q.num t (setSeqX q { seqX s q with base := t } s)

/-- The producer and queue of an operation's token. -/
def PendingOp.route (p : PendingOp) : Option (Nat × Nat × Nat × Nat) :=
  p.produce.map fun r => (p.die, bits p.tag 12 8, r.1, r.2)

/-- Enqueues the token a command produces at its issue, where PRODUCE_EN is set (R188, R199); behind an earlier
operation of the sequencer for the same queue that has not ended, it waits (R184). -/
def produceAt (q : SeqId) (c : Cmd) (word e : Nat) (s : State) : State :=
  if !c.produceEn then s
  else
    let p : PendingOp :=
      { die := q.die, tag := seqTag s q, gen := (seqX s q).gen, land := none, landed := true, token := word
        produce := some (c.produceDie, c.produceQueue), notify := false, writes := [], larder := [], tags := []
        counts := [], held := true }
    if s.tracker.any fun r => r.route == p.route then { s with tracker := s.tracker ++ [p] }
    else enqueue (some (seqDieCode q)) q.die c.produceDie c.produceQueue word e s

/-- A skipped command (R188, R199) (DEDUCED, log 38). -/
def skipCmd (q : SeqId) (c : Cmd) (t : Nat) (s : State) : State :=
  let tok := emptyToken (seqTag s q) (seqX s q).gen
  let pc := pcIndex s q
  let s := addW F.sq_SKIPPED q.die 0 1 (noteIssue q t s)
  let s := completionRecord q.die tok c.notify (t * domCycles q) (produceAt q c tok (t * domCycles q) s)
  setPc q (pc + 1) s

/-- A stream command of class `cls` and operation `op`: what it does when it runs is `body`. -/
def streamCmd (q : SeqId) (cls op : Nat) (body : Cmd → Nat → List Nat → State → State) (s : State) : State :=
  match prepare q cls op s with
  | .hold s => s
  | .go s c t toks run => if run then body c t toks s else skipCmd q c t s

/-! ### Long operations -/

/-- The issuer of a sequencer's command as its engine sees it. -/
def ctxOf (s : State) (q : SeqId) : Ctx :=
  let x := seqX s q
  { die := q.die, tag := seqTag s q, gen := x.gen
    regs := (List.range 32).map fun r => rd s F.sq_ADDR_VAL q.die (q.num * 32 + r)
    red2 := x.red2, red3 := x.red3, row2 := x.row2, row3 := x.row3, step := stepNo s }

/-- What an engine makes of a command: how long it is occupied and when its last write lands, both in core
cycles from the issue (none: no static latency), what it reads, writes and counts, and its token. -/
structure OpResult where
  occ : Nat := 0
  lat : Option Nat := none
  reads : List Range := []
  writes : List WriteBack := []
  larder : List LarderWrite := []
  tags : List (Nat × SegTag) := []
  counts : List Count := []
  audits : List AuditSample := []
  fl : Fl := {}
  fmt : Nat := 0xF
  extent : Nat := 0
  /-- Partials staged on the other ranks of the split group (R149). -/
  stage : List (Nat × List Byte) := []
  /-- The command's written ranges overlap its read ranges (R156): program-fatal, nothing is written. -/
  overlap : Bool := false
  deriving DecidableEq, Repr

/-- The 64-byte lines of a scratchpad that a range touches, by the cell of their first byte (R195). -/
def Range.lines (r : Range) : List Nat :=
  if r.len = 0 ∨ r.space = memSpace ∨ 8 ≤ r.space then []
  else (List.range ((r.base + r.len - 1) / 64 + 1 - r.base / 64)).map fun i => cell r.space ((r.base / 64 + i) * 64)

/-- The lines of a range whose last issued write lands after core cycle `c`, or in a cycle not fixed, each with that
cycle (R195). -/
def earlyLines (s : State) (c : Nat) (r : Range) : List (Nat × Option Nat) :=
  r.lines.filterMap fun k =>
    match smFind k s.lines with
    | some m => if m.land.all fun l => decide (c < l) then some (k / 64, m.land) else none
    | none => none

/-- What an early read records: the lowest early address, the number of early lines and the largest L − t,
saturating where a landing has no fixed cycle (R195, R196). -/
def earlySummary (s : State) (c : Nat) (rs : List Range) : Option (Nat × Nat × Nat) :=
  let ls := rs.flatMap (earlyLines s c)
  match ls with
  | [] => none
  | l :: rest =>
    some (rest.foldl (fun m x => min m x.1) l.1, (ls.map (·.1)).dedup.length,
      ls.foldl (fun m x => max m (match x.2 with | some v => v - c | none => 65535)) 0)

/-- Entries of a die's tracker in use (R198). -/
def trackerCount (s : State) (die : Nat) : Nat := (s.tracker.filter fun p => p.die == die && !p.held).length

/-- The registers of a die's row-by-row copy in bytes: the words a copy reads and writes, by row (R182). -/
def CopyJob.moves (j : CopyJob) : List (Nat × Nat) :=
  (List.range j.rows).map fun r => ((j.src + r * j.srcPitch) % 2 ^ 48, (j.dst + r * j.dstPitch) % 2 ^ 48)

/-- The ranges an operation writes; those of a copy still to move are known from its issue. -/
def PendingOp.ranges (p : PendingOp) : List Range :=
  match p.copy with
  | some j => j.moves.map fun m => ⟨j.dstSpace, m.2, j.rowBytes⟩
  | none => p.writes.map fun w => ⟨w.key % 64, w.key / 64, w.bytes.length⟩

/-- Every line an operation writes carries its landing cycle (R195); marks that no reader can meet any more are
dropped. -/
def markLines (p : PendingOp) (s : State) : State :=
  let live := s.lines.filter fun e => e.2.land.all fun l => decide (s.core < l + keepCycles)
  { s with lines := (p.ranges.flatMap Range.lines).foldl (fun m k => nmSet k ⟨p.land, p.id⟩ m) live }

/-- The lines that still carry operation `p` carry another landing cycle; where that is none, no write is pending on
them any more. -/
def remarkLines (p : PendingOp) (land : Option Nat) (s : State) : State :=
  { s with lines := s.lines.filterMap fun e =>
      if e.2.op = p.id then land.map fun l => (e.1, ⟨some l, p.id⟩) else some e }

/-- Starts an operation: its number, its time and the lines it writes. -/
def addOp (p : PendingOp) (s : State) : State :=
  let p := { p with start := nowNs s, id := s.opCount }
  markLines p { s with tracker := s.tracker ++ [p], opCount := s.opCount + 1 }

/-- Adds one operation to a die's tracker. -/
def track (p : PendingOp) (s : State) : State :=
  let s := addOp p s
  let n := trackerCount s p.die
  let s := wr F.sq_TRACKER_OUT p.die 0 n s
  if rd s F.sq_TRACKER_HIGH p.die 0 < n then wr F.sq_TRACKER_HIGH p.die 0 n s else s

/-- The layer count of a command of layer `l` that ends, with non-finite status or not (R266). -/
def layerCount (l : Nat) (nonfinite : Bool) : List Count :=
  if nonfinite then
    [⟨F.he_LAYER_NONFINITE, unitOf 0x60 0, l, 1⟩, ⟨F.he_NONFINITE_SEEN, unitOf 0x60 0, 0, 1⟩]
  else []

/-- The layer of a command's tensor identifier (R266). -/
def Ctx.layer (x : Ctx) (c : Cmd) : Nat := bits (x.tid c) 22 10

/-- The layer count of a command that ends with status `f` (R266). -/
def layerCounts (x : Ctx) (c : Cmd) (f : Fl) : List Count := layerCount (x.layer c) f.nonfinite

/-- Reports a sequencer command's early read, if any (R195, R197). -/
def guardReads (q : SeqId) (tag gen c : Nat) (rs : List Range) (s : State) : State :=
  match earlySummary s c rs with
  | some (a, n, k) => guardFault q.die tag gen 1 n (seqDieCode q) a k s
  | none => s

/-- Reports the uncorrectable words a command reads (R381). -/
def reportReads (tag : Nat) (rs : List Range) (s : State) : State :=
  rs.foldl (fun s r => readReport r.space r.base r.len tag s) s

/-- The overflow flag that predicates a command of a repeat region (R45, R189). -/
def repeatFlag (s : State) (q : SeqId) (c : Cmd) : Option Nat :=
  if c.predEn && c.predSense && (smFind c.predFlag (seqX s q).overFlags).isSome then some c.predFlag else none

/-- UNIT_TYPE and UNIT_INSTANCE of the engine of sequencer `num` of a die (R46, R169); an array group's are those of its page
(DEDUCED, log 134). -/
def engineUnit (die num : Nat) : Nat :=
  if num < 64 then 8 * die + num / 8 + 0x21 * 256
  else if num < 80 then 16 * die + (num - 64) + 0x22 * 256
  else if num < 88 then 8 * die + (num - 80) + 0x23 * 256
  else if num = 88 then die + 0x41 * 256
  else 64 * die + (num - 89) + 0x11 * 256

/-- The outputs of a die recorded as overflowed under a tensor identifier. -/
def oversOf (s : State) (die tid : Nat) : NMap OverRec :=
  s.overs.filter fun r => r.1 / 2 ^ 20 == die && r.2.tid == tid

/-- An entry of the overflow log for the output `tid` (R46) (DEDUCED, log 134). -/
def layerOverflow (die tid wide cause frm : Nat) (o : OverflowFlag) (s : State) : State :=
  let num := bits o.tag 12 8
  let mine := oversOf s die tid
  let n := min (mine.map (·.2.n)).sum 65535
  logEntry 2 (logKey (seqDieCode ⟨die, num⟩) num) (words4 o.ns (stepNo s)
    (tid % 2 ^ 32 + (o.region % 2 ^ 16) * 2 ^ 32 + frm % 16 * 2 ^ 48 + wide % 16 * 2 ^ 52 + cause * 2 ^ 56)
    (n + engineUnit die num * 2 ^ 16)) { s with overs := s.overs.filter fun r => !mine.contains r }

/-- Changes the overflow flag `f` of a sequencer. -/
def setOverFlag (q : SeqId) (f : Nat) (o : OverflowFlag) (s : State) : State :=
  let x := seqX s q
  setSeqX q { x with overFlags := nmSet f o x.overFlags } s

/-- The format of the repeat of an output that overflowed in format `fmt`: the next wider one (R45). -/
def widerFmt (fmt : Nat) : Nat := if fmt = fmtB8 then fmtS16 else fmtF32

/-- A long operation of a repeat region starts: the first one writes the overflow-log entry, for the output whose overflow the
region repeats. REGION_ID is an exchange bucket's identifier, whose overflowed tier is B8; the one the compiler gave a layer's region
stands in no command and is free (R46) (DEDUCED, log 134). -/
def noteRepeat (q : SeqId) (c : Cmd) (s : State) : State :=
  match (repeatFlag s q c).bind fun f => (smFind f (seqX s q).overFlags).map fun o => (f, o) with
  | some (f, o) =>
    if o.ran then s
    else
      let r := smFind (q.die * 2 ^ 20 + o.tag) s.overs
      let tid := (r.map (·.tid)).getD ((ctxOf s q).tid c)
      let (region, s) := match r.bind (·.bucket) with
        | some b => (b, s)
        | none => free s
      let o := { o with region := region, ran := true, tid := some tid }
      let fmt := if (r.bind (·.bucket)).isSome then fmtB8 else o.fmt
      setOverFlag q f o (layerOverflow q.die tid (widerFmt fmt) (if fmt = fmtB8 then 1 else 2) fmt o s)
  | none => s

/-- The flag of a command that is the F32 repeat of the output whose overflow the flag stands for (R45, R46). -/
def lastTier (s : State) (q : SeqId) (c : Cmd) : Option Nat :=
  (repeatFlag s q c).filter fun f => (smFind f (seqX s q).overFlags).any fun o =>
    o.fmt == fmtS16 && o.tid == some ((ctxOf s q).tid c)

/-- An output overflowed: its elements add up under its command's TAG, anew where the TAG came to another output (R46). -/
def noteOver (p : PendingOp) (s : State) : State :=
  let k := p.die * 2 ^ 20 + p.tag
  let was := match smFind k s.overs with
    | some r => if r.tid = p.tid then r.n else 0
    | none => 0
  { s with overs := nmSet k ⟨p.tid, was + p.overs, p.bucket⟩ s.overs }

/-- An operation that overflowed, or an F32 repeat that ended non-finite, ends (R46). -/
def noteOverflowEnd (p : PendingOp) (s : State) : State :=
  let q : SeqId := ⟨p.die, bits p.tag 12 8⟩
  let s := if p.die < 4 && bitOf p.token 30 then noteOver p s else s
  match p.failed with
  | some (f, tid) =>
    match smFind f (seqX s q).overFlags with
    | some o => if o.ended then s else setOverFlag q f { o with ended := true } (layerOverflow p.die tid 0xF 3 fmtF32 o s)
    | none => s
  | none => s

/-- A die's tracker holds no free entry (R198). -/
def trackerFull (s : State) (die : Nat) : Bool := decide (32768 ≤ trackerCount s die)

/-- Starts a long operation whose result is `r` at core cycle `c`, which reads at core cycle `rc`: its tracker entry, or
the program-fatal errors of R156 and R198. An operation that finds no entry does nothing else. -/
def startOp (q : SeqId) (cmd : Cmd) (rc c : Nat) (r : OpResult) (s : State) : State :=
  let x := ctxOf s q
  if trackerFull s q.die then guardFault q.die x.tag x.gen 4 0 (seqDieCode q) 0 0 s
  else
    let s := reportReads x.tag r.reads (guardReads q x.tag x.gen rc r.reads s)
    if r.overlap then
      programFatal q.die 0 x.tag (errorLog 0x25 q.die 2 7 x.tag true 0 0 s)
    else
      let s := noteRepeat q cmd s
      track
      { die := q.die, tag := x.tag, gen := x.gen, land := r.lat.map (c + ·), landed := false
        token := resultToken x.tag x.gen r.fl r.fmt r.extent
        produce := if cmd.produceEn then some (cmd.produceDie, cmd.produceQueue) else none
        notify := cmd.notify, writes := r.writes, larder := r.larder, tags := r.tags
        counts := r.counts ++ layerCounts x cmd r.fl, audits := r.audits, overs := r.fl.overs, tid := x.tid cmd
        stage := r.stage
        failed := if r.fmt = fmtF32 ∧ r.fl.nonfinite then (lastTier s q cmd).map fun f => (f, x.tid cmd) else none } s

/-- The key of an engine: matrix, vector and row engines by die and sequencer number; array engines by array
die and physical array, beyond them. -/
def engineKey (die num : Nat) : Nat := die * 153 + num

/-- The core cycle from which an engine is free. -/
def busyUntil (s : State) (k : Nat) : Nat := nmGet 0 k s.busy

/-- Occupies an engine. -/
def setBusy (k c : Nat) (s : State) : State := { s with busy := nmSet k c s.busy }

/-- An occupancy collision at domain cycle `t` with an engine free from core cycle `free` (R172): under the
basic policy program-fatal, and the command does not start; under the expert policy it is held until
then. -/
def collide (q : SeqId) (t free : Nat) (s : State) : State :=
  let x := ctxOf s q
  let d := domCycles q
  let s := guardFault q.die x.tag x.gen 2 0 (seqDieCode q) 0 (ceilDiv free d - t) s
  if rdb s F.sq_GUARD_POLICY q.die 0 then
    setSeqX q { seqX s q with heldTill := some (ceilDiv free d) } s
  else setPc q (pcIndex s q + 1) (noteIssue q t s)

/-- Runs an engine command of a die's engine at domain cycle `t` (core cycles): the engine's occupancy, then
its work by `eng` on the state as it stands. -/
def engineCmd (q : SeqId) (eng : Ctx → Cmd → State → OpResult) (cmd : Cmd) (t : Nat) (s : State) : State :=
  let k := engineKey q.die q.num
  if t < busyUntil s k then collide q t (busyUntil s k) s
  else
    let r := eng (ctxOf s q) cmd (asOf t s)
    let pc := pcIndex s q
    let full := trackerFull s q.die
    let s := startOp q cmd t t r s
    setPc q (pc + 1) (noteIssue q t (if full then s else setBusy k (t + r.occ) s))

/-! ### The end of a long operation (R184, R198, R199) -/

/-- The logical array that physical array `p` of an array die serves, if any (R107). -/
def logicalOf (s : State) (die p : Nat) : Option Nat :=
  if p < 1024 ∧ physOf s die p = p then some p else (List.range 1024).find? fun l => physOf s die l == p

/-- The page that shows a field: an array's fields are on the page of the group it serves (R51). -/
def pageOf (s : State) (f : Field) (unit idx : Nat) : Nat :=
  if f.page = 0x11 ∧ unitPage unit = 0x10 then
    match logicalOf s (unitInst unit) (idx / 1024) with
    | some l => unitOf 0x11 (16 * unitInst unit + l / 64)
    | none => unitOf 0x11 (16 * unitInst unit + rd s F.ad_GROUP (unitInst unit) 0)
  else unit

/-- Adds one count, saturating, latching or wrapping by the field's type. -/
def applyCount (k : Count) (s : State) : State :=
  match k.f.acc with
  | .sat => satU k.f k.unit k.idx k.n (pageOf s k.f k.unit k.idx) s
  | .w1c => wrU k.f k.unit k.idx 1 s
  | _ => wrU k.f k.unit k.idx (rdU s k.f k.unit k.idx + k.n) s

/-- Keeps a larder entry that a save in core cycle `l` replaces (R147). -/
def keepLarder (l : Nat) (w : LarderWrite) (s : State) : State :=
  let old (f : Field) : FKey × Nat := (⟨f.fid, w.unit, w.entry⟩, rdU s f w.unit w.entry)
  { s with oldLarder := s.oldLarder.filter (fun r => decide (s.core ≤ r.at')) ++
      [⟨l, [F.re_STAT_A, F.re_STAT_B, F.re_TAG_KEY, F.re_TAG_VALID, F.re_TAG_MERGED].map old⟩] }

/-- Writes one larder entry in core cycle `l`, or the sum c that MERGE_C forms for it; new statistics leave no sum
(R146, R147, R151). -/
def applyLarder (l : Nat) (w : LarderWrite) (s : State) : State :=
  let k := w.unit * 2 ^ 20 + w.entry
  match w.sumC with
  | some c => { s with mergedC := nmSet k (w.key, c) s.mergedC }
  | none =>
    let s := keepLarder l w { s with mergedC := smErase k s.mergedC }
    wrU F.re_STAT_A w.unit w.entry w.statA (wrU F.re_STAT_B w.unit w.entry w.statB
      (wrU F.re_TAG_KEY w.unit w.entry w.key (wrU F.re_TAG_VALID w.unit w.entry 1
        (wrU F.re_TAG_MERGED w.unit w.entry w.merged s))))

/-- Bytes stored from a cell by a long operation that lands at core cycle `l`. -/
def applyWrite (l : Nat) (w : WriteBack) (s : State) : State := storeAs (some l) (w.key % 64) (w.key / 64) w.bytes s

/-- One audit sample: AUDIT_SSE and AUDIT_SAMPLES, which stop when the count saturates (R123). -/
def applyAudit (a : AuditSample) (s : State) : State :=
  if rd s F.ag_AUDIT_SAMPLES a.inst 0 = fieldMax F.ag_AUDIT_SAMPLES then s
  else
    let d := BitVec.ofNat 32 a.d
    let v := (fadd (BitVec.ofNat 32 (rd s F.ag_AUDIT_SSE a.inst 0)) ((fmul d d).val)).val
    sat F.ag_AUDIT_SAMPLES a.inst 0 1 (wr F.ag_AUDIT_SSE a.inst 0 v.toNat s)

/-- The loss word was written (R264): the detector samples it (DEDUCED, log 39). -/
def sampleLoss (ws : List WriteBack) (s : State) : State :=
  let a := rd s F.he_LOSS_ADDR 0 0
  let space := dieSpace (rd s F.he_LOSS_DIE 0 0)
  if rdb s F.he_SPIKE_EN 0 0 &&
      ws.any fun w => w.key % 64 == space && decide (w.key / 64 ≤ a ∧ a + 4 ≤ w.key / 64 + w.bytes.length)
  then { wr F.he_LAST_LOSS 0 0 (readF32 s space a).toNat s with lossSampled := true }
  else s

/-- A sample put behind those that are accumulated before it: product completion first, then the array (R123). -/
def insertAudit (a : AuditSample) : List AuditSample → List AuditSample
  | [] => [a]
  | b :: bs => if decide (b.due < a.due) || (b.due == a.due && decide (b.arr ≤ a.arr)) then b :: insertAudit a bs
    else a :: b :: bs

/-- Accumulates the samples of every product that has completed by alignment period `ap`, in order of completion
(R123). -/
def settleAudits (ap : Nat) (s : State) : State :=
  let due := (s.tracker.flatMap fun p => p.audits.filter fun a => decide (a.due ≤ ap)).foldr insertAudit []
  due.foldl (fun s a => applyAudit a s)
    { s with tracker := s.tracker.map fun p => { p with audits := p.audits.filter fun a => decide (ap < a.due) } }

/-- Lands the writes of an operation. -/
def landOp (p : PendingOp) (s : State) : State :=
  let s := p.writes.foldl (fun s w => applyWrite (p.land.getD s.core) w s) s
  let s := p.writes.foldl (fun s w => viewReport (w.key % 64) (w.key / 64) w.bytes.length (some p.tag) s) s
  let s := p.larder.foldl (fun s w => applyLarder (p.land.getD s.core) w s) s
  let s := { s with segTags := p.tags.foldl (fun m t => nmSet t.1 t.2 m) s.segTags }
  let s := p.poisons.foldl (fun s k => poisonWord (k % 64) (k / 64) s) s
  let s := settleAudits (s.core / 32) s
  let s := p.counts.foldl (fun s k => applyCount k s) s
  let s := noteOverflowEnd p s
  sampleLoss p.writes (if p.land.isNone then remarkLines p none s else s)

/-- The die code of the producer of a tag on digital die `die`. -/
def tagSource (die tag : Nat) : Nat := seqDieCode ⟨die, bits tag 12 8⟩

/-- Ends every landed operation that no earlier operation of the same producer and queue precedes (R184):
its token is enqueued, its record written and its tracker entry freed. `blocked` holds the routes of the
operations still going. -/
def releaseOps (e : Nat) : List PendingOp → List (Nat × Nat × Nat × Nat) → State → List PendingOp × State
  | [], _, s => ([], s)
  | p :: ps, blocked, s =>
    if p.landed && (match p.route with | some r => !blocked.contains r | none => true) then
      let s := match p.produce with
        | some r => enqueue (some (tagSource p.die p.tag)) p.die r.1 r.2 p.token e s
        | none => s
      releaseOps e ps blocked (if p.die < 4 ∧ p.held = false then completionRecord p.die p.token p.notify e s else s)
    else
      let r := releaseOps e ps (match p.route with | some r => r :: blocked | none => blocked) s
      (p :: r.1, r.2)

/-- Refreshes TRACKER_OUT of the four dies. -/
def refreshTracker (s : State) : State :=
  (List.range 4).foldl (fun s d => wr F.sq_TRACKER_OUT d 0 (trackerCount s d) s) s

/-- Marks the first operation of a die with a tag that has not landed. -/
def markLanded (die tag : Nat) : List PendingOp → List PendingOp
  | [] => []
  | p :: ps => if p.die = die ∧ p.tag = tag ∧ p.landed = false then { p with landed := true } :: ps
    else p :: markLanded die tag ps

/-- The first operation of die `die` with tag `tag` still to land (DEDUCED, log 36). -/
def findOp (s : State) (die tag : Nat) : Option PendingOp :=
  s.tracker.find? fun p => p.die == die && p.tag == tag && !p.landed

/-- An operation may end: its landing cycle is fixed or open, what its command waits for has happened (R251),
and no other operation lands before it (DESIGN CHOICE, log 9). -/
def canLand (s : State) (p : PendingOp) : Bool :=
  p.gate && p.awaits.isEmpty && (p.copy.isNone || p.land.isSome) && (match p.land with
    | some l => s.tracker.all fun q => q.landed || (match q.land with | some m => decide (l ≤ m) | none => true)
    | none => landedBy s s.core)

/-- What a copy moves as the bytes stand in `s`: the bytes, the words that move as poisoned, and the outlier
lists of segment parameters among them (R23, R160, R382). -/
def CopyJob.move (j : CopyJob) (s : State) : List WriteBack × List Nat × List (Nat × SegTag) :=
  let ms := j.moves
  (ms.map fun m => ⟨cell j.dstSpace m.2, readBytes s j.srcSpace m.1 j.rowBytes⟩,
   ms.flatMap fun m => (poisonedWords s j.srcSpace m.1 j.rowBytes).map fun a => cell j.dstSpace (a - m.1 + m.2),
   ms.flatMap fun m => s.segTags.filterMap fun t =>
     let a := t.1 / 64
     if t.1 % 64 = j.srcSpace ∧ m.1 ≤ a ∧ a < m.1 + j.rowBytes then some (cell j.dstSpace (a - m.1 + m.2), t.2) else none)

/-- The count of a word written as poisoned, on the unit that holds it (R382). -/
def poisonCount (s : State) (k : Nat) : Count :=
  let u := holdingUnit s (k % 64) (k / 64)
  ⟨if unitPage u = 0x30 then F.mc_POISON_WRITES else if unitPage u = 0x24 then F.sp_POISON_WRITES
    else F.dd_POISON_WRITES, u, 0, 1⟩

/-- The ranges a copy reads. -/
def CopyJob.reads (j : CopyJob) : List Range := j.moves.map fun m => ⟨j.srcSpace, m.1, j.rowBytes⟩

/-- A copy's operation once the bytes it moves are taken. -/
def CopyJob.fill (j : CopyJob) (s : State) (p : PendingOp) : PendingOp :=
  let mv := j.move s
  { p with
    writes := mv.1, poisons := mv.2.1, tags := mv.2.2
    token := if mv.2.1.isEmpty then p.token else splice p.token 29 1 1
    counts := p.counts ++ mv.2.1.map (poisonCount s) }

/-- A copy of a die's own scratchpad starts to move at core cycle `c` (R195, R208). -/
def CopyJob.start (j : CopyJob) (c : Nat) (s : State) (p : PendingOp) : PendingOp :=
  { j.fill s p with land := some (max c j.issued + j.lat) }

/-- Reports what a copy reads: early lines and uncorrectable words (R195, R381). -/
def CopyJob.report (j : CopyJob) (die tag gen c : Nat) (s : State) : State :=
  let q : SeqId := ⟨die, bits tag 12 8⟩
  reportReads tag j.reads (guardReads q tag gen c j.reads s)

/-- A copy in the scratchpad `space` of one die that waits for its turn (R208). -/
def PendingOp.waitsIn (space : Nat) (p : PendingOp) : Bool :=
  !p.landed && p.land.isNone && (match p.copy with
    | some j => j.srcSpace == space
    | none => false)

/-- The first copy that waits in `space` starts to move. -/
def startFirst (space c : Nat) (s : State) : List PendingOp → List PendingOp
  | [] => []
  | p :: ps =>
    match p.waitsIn space, p.copy with
    | true, some j => j.start c s p :: ps
    | _, _ => p :: startFirst space c s ps

/-- A copy of a die's own scratchpad ended at core cycle `c`: the next one in issue order starts (R208). -/
def nextCopy (space c : Nat) (s : State) : State :=
  match s.tracker.find? (·.waitsIn space) with
  | some p =>
    match p.copy with
    | some j =>
      let s' := j.report p.die p.tag p.gen c s
      remarkLines p (some (max c j.issued + j.lat)) { s' with tracker := startFirst space c s s.tracker }
    | none => s
  | none => s

/-- A long operation's last write lands and it ends (R184): time comes to its landing cycle (DESIGN CHOICE, log 4). -/
def completeOp (die tag : Nat) (s : State) : State :=
  match findOp s die tag with
  | none => s
  | some p =>
    if !canLand s p then s
    else
      let c := p.land.getD s.core
      let s := advanceTo c s
      let s := landOp p { s with tracker := markLanded die tag s.tracker }
      let r := releaseOps c s.tracker [] s
      let s := refreshTracker { r.2 with tracker := r.1 }
      match p.copy with
      | some j => nextCopy j.srcSpace c s
      | none => s

end Sys2Proof.Machine
end

