-- ==== Sys2Proof/Machine/Control.lean ====
section
/-! DEFINITION. The control commands (R181, R185, R194) and the events of a sequencer that no command of
its stream names: the committed bin switch (R194), the token timeout (R187) and the program stop (R173). -/

namespace Sys2Proof.Machine

open Sys2Proof

/-! ### Operand fields of control commands -/

def Cmd.dreg (c : Cmd) : Nat := bits c.w2 0 5
def Cmd.sreg (c : Cmd) : Nat := bits c.w2 5 5
def Cmd.treg (c : Cmd) : Nat := bits c.w2 10 5
def Cmd.flag (c : Cmd) : Nat := bits c.w2 15 4
def Cmd.cond (c : Cmd) : Nat := bits c.w2 19 4
def Cmd.clr (c : Cmd) : Bool := bitOf c.w2 23
def Cmd.imm (c : Cmd) : Nat := bits c.w3 0 48

/-- Address register `r` of a sequencer. -/
def regOf (s : State) (q : SeqId) (r : Nat) : Nat := rd s F.sq_ADDR_VAL q.die (q.num * 32 + r)

/-- Sets an address register, modulo 2^48. -/
def setReg (q : SeqId) (r v : Nat) (s : State) : State := wr F.sq_ADDR_VAL q.die (q.num * 32 + r) v s

/-- The token a control command other than TOKEN stands for (R199). -/
def controlToken (s : State) (q : SeqId) : Nat := tokenWord (seqTag s q) (seqX s q).gen false false false false 0xF 0

/-- A control command that issues: its token and record, then the next index, then its effect (R171,
R199). -/
def controlIssue (q : SeqId) (c : Cmd) (t tok : Nat) (effect : State → State) (s : State) : State :=
  let pc := pcIndex s q
  let s := completionRecord q.die tok c.notify (t * domCycles q) (produceAt q c tok (t * domCycles q) s)
  effect (setPc q (pc + 1) (noteIssue q t s))

/-- A control command whose effect is `effect`. -/
def controlCmd (q : SeqId) (op : Nat) (effect : Cmd → State → State) (s : State) : State :=
  streamCmd q 0 op (fun c t _ s => controlIssue q c t (controlToken s q) (effect c) s) s

/-- Sets DREG from a function of the register file (R181). -/
def setDreg (q : SeqId) (f : Cmd → State → Nat) (c : Cmd) (s : State) : State := setReg q c.dreg (f c s) s

/-- Jumps to index IMM[10:0] of the same bin. -/
def jumpTo (q : SeqId) (c : Cmd) (s : State) : State :=
  setPc q (c.imm % 2048) (setSeqState q 1 s)

/-- NOP (R181): no effect beyond its issue. -/
def execNop (q : SeqId) (s : State) : Host.Outcome State Fault Refusal :=
  .next (controlCmd q 0x00 (fun _ s => s) s)

/-- LOADI: DREG ← IMM. -/
def execLoadi (q : SeqId) (s : State) : Host.Outcome State Fault Refusal :=
  .next (controlCmd q 0x01 (setDreg q fun c _ => c.imm) s)

/-- ADD: DREG ← SREG + TREG. -/
def execAdd (q : SeqId) (s : State) : Host.Outcome State Fault Refusal :=
  .next (controlCmd q 0x02 (setDreg q fun c s => regOf s q c.sreg + regOf s q c.treg) s)

/-- SUB: DREG ← SREG − TREG. -/
def execSub (q : SeqId) (s : State) : Host.Outcome State Fault Refusal :=
  .next (controlCmd q 0x03 (setDreg q fun c s => regOf s q c.sreg + 2 ^ 48 - regOf s q c.treg) s)

/-- ADDI: DREG ← SREG + IMM; a signed 48-bit IMM adds modulo 2^48. -/
def execAddi (q : SeqId) (s : State) : Host.Outcome State Fault Refusal :=
  .next (controlCmd q 0x04 (setDreg q fun c s => regOf s q c.sreg + c.imm) s)

/-- MULI: DREG ← low 48 bits of SREG × IMM, unsigned. -/
def execMuli (q : SeqId) (s : State) : Host.Outcome State Fault Refusal :=
  .next (controlCmd q 0x05 (setDreg q fun c s => regOf s q c.sreg * c.imm) s)

/-- SHL: DREG ← SREG shifted left by IMM[5:0]; 48 or more gives 0. -/
def execShl (q : SeqId) (s : State) : Host.Outcome State Fault Refusal :=
  .next (controlCmd q 0x06 (setDreg q fun c s => regOf s q c.sreg * 2 ^ (c.imm % 64)) s)

/-- SHR: logical shift right, likewise. -/
def execShr (q : SeqId) (s : State) : Host.Outcome State Fault Refusal :=
  .next (controlCmd q 0x07 (setDreg q fun c s => regOf s q c.sreg / 2 ^ (c.imm % 64)) s)

/-- PRED[FLAG] ← a value; `o` says what overflow it stands for (R181, R189). -/
def setFlag (q : SeqId) (f : Nat) (b : Bool) (o : Option OverflowFlag) (s : State) : State :=
  let x := seqX s q
  setSeqX q { x with overFlags := match o with
    | some v => nmSet f v x.overFlags
    | none => smErase f x.overFlags } (setPred q f b s)

/-- CMP: PRED[FLAG] ← SREG COND TREG. -/
def execCmp (q : SeqId) (s : State) : Host.Outcome State Fault Refusal :=
  .next (controlCmd q 0x08 (fun c s =>
    setFlag q c.flag (cmpCond c.cond (regOf s q c.sreg) (regOf s q c.treg)) none s) s)

/-- CMPI: PRED[FLAG] ← SREG COND IMM. -/
def execCmpi (q : SeqId) (s : State) : Host.Outcome State Fault Refusal :=
  .next (controlCmd q 0x09 (fun c s => setFlag q c.flag (cmpCond c.cond (regOf s q c.sreg) c.imm) none s) s)

/-- LOOP: DREG ← DREG − 1; where the result is not 0, the next command is index IMM[10:0]. -/
def execLoop (q : SeqId) (s : State) : Host.Outcome State Fault Refusal :=
  .next (controlCmd q 0x0A (fun c s =>
    let v := (regOf s q c.dreg + 2 ^ 48 - 1) % 2 ^ 48
    let s := setReg q c.dreg v s
    if v ≠ 0 then jumpTo q c s else s) s)

/-- JUMP: the next command is index IMM[10:0] of the same bin. -/
def execJump (q : SeqId) (s : State) : Host.Outcome State Fault Refusal :=
  .next (controlCmd q 0x0B (fun c s => jumpTo q c s) s)

/-- The overflow that PSTAT puts into a flag: COND 1 with the overflow status set (R46, R189). -/
def overflowTested (s : State) (q : SeqId) (c : Cmd) : Option OverflowFlag :=
  if c.cond = 1 ∧ pstatCond s q c.cond c.imm then
    (seqX s q).overTok.map fun t => { tag := tokTag t, fmt := tokFmt t, ns := nowNs s }
  else none

/-- Clears the sticky bits of RSTAT. -/
def clearSticky (q : SeqId) (s : State) : State :=
  wr F.sq_STICKY q.die q.num 0 (setSeqX q { seqX s q with overTok := none } s)

/-- PSTAT: PRED[FLAG] ← the status source COND; with CLR the sticky bits are then cleared. -/
def execPstat (q : SeqId) (s : State) : Host.Outcome State Fault Refusal :=
  .next (controlCmd q 0x0C (fun c s =>
    let s := setFlag q c.flag (pstatCond s q c.cond c.imm) (overflowTested s q c) s
    if c.clr then clearSticky q s else s) s)

/-- XLOAD: DREG ← LAST_EXTENT. -/
def execXload (q : SeqId) (s : State) : Host.Outcome State Fault Refusal :=
  .next (controlCmd q 0x0D (setDreg q fun _ s => rd s F.sq_LAST_EXTENT q.die q.num) s)

/-- The token TOKEN produces (R185): the status of the tokens popped, FORMAT by the flag, and the extent of
the token popped from WAIT_A. -/
def tokenProduced (s : State) (q : SeqId) (c : Cmd) (toks : List Nat) : Nat :=
  let st := toks.foldl (fun a t => a ||| tokStatus t) 0
  let fmt := if predOf s q c.flag then bits c.imm 4 4 else bits c.imm 0 4
  let ext := if c.waitAEn then tokExtent (toks.headD 0) else 0
  tokenWord (seqTag s q) (seqX s q).gen false (bitOf st 0) (bitOf st 1) (bitOf st 2) fmt ext

/-- TOKEN: produces a token with no work (R185). -/
def execToken (q : SeqId) (s : State) : Host.Outcome State Fault Refusal :=
  .next (streamCmd q 0 0x0E (fun c t toks s => controlIssue q c t (tokenProduced s q c toks) (fun s => s) s) s)

/-- SWITCH: the next command is the other bin's ENTRY, its offset counted from this issue (R194). -/
def execSwitchBin (q : SeqId) (s : State) : Host.Outcome State Fault Refusal :=
  .next (streamCmd q 0 0x0F (fun c t _ s =>
    let tag := seqTag s q
    controlIssue q c t (controlToken s q) (fun s => enterOther q tag t (setSeqState q 1 s)) s) s)

/-- HALT: the sequencer becomes idle, both bins standby. -/
def execHalt (q : SeqId) (s : State) : Host.Outcome State Fault Refusal :=
  .next (controlCmd q 0x10 (fun _ s => toIdle q s) s)

/-- REDCFG: loads the reduction configuration. -/
def execRedcfg (q : SeqId) (s : State) : Host.Outcome State Fault Refusal :=
  .next (controlCmd q 0x11 (fun c s => setSeqX q { seqX s q with red2 := c.w2, red3 := c.w3 } s) s)

/-- ROWCFG: loads the row configuration. -/
def execRowcfg (q : SeqId) (s : State) : Host.Outcome State Fault Refusal :=
  .next (controlCmd q 0x12 (fun c s => setSeqX q { seqX s q with row2 := c.w2, row3 := c.w3 } s) s)

/-! ### Events of a sequencer -/

/-- The committed switch of a running sequencer acts at its next command boundary: the first command it
would issue at or after the commit's alignment period; a sequencer that waits on a token then finishes that command
first (R194). The timeline of the other bin does not advance in a throttled frame (R375). -/
def switchAtBoundary (q : SeqId) (s : State) : State :=
  let x := seqX s q
  match x.switchAt, nextCmd s q with
  | some w, some c =>
    let due := switchNow s q || (match (doWaits q c s).1 with
      | some (_, pop) => switchFirst q c pop s
      | none => false)
    if due && !x.heldTill.isSome then
      let s := advanceTo w s
      enterOther q (seqTag s q) (max x.base (ceilDiv (max w x.floor) (domCycles q)))
        (leaveWait q (setSeqX q { x with switchAt := none, popA := none, popAt := none } s))
    else s
  | _, _ => s

/-- BIN_SWITCH_AT_BOUNDARY (R194). -/
def execBinSwitchAtBoundary (q : SeqId) (s : State) : Host.Outcome State Fault Refusal :=
  .next (switchAtBoundary q s)

/-- The wait limit of a die's token waits, in microseconds of device time (R187). -/
def waitLimitUs (s : State) (die : Nat) : Nat :=
  rd s F.sq_WAIT_TIMEOUT die 0 +
    (if rd s F.ex_UPDATES_PENDING 0 0 = 0 then 0 else rd s F.sq_EXCH_WAIT_EXTRA die 0)

/-- The core cycle at which device time first exceeds `ns`, no earlier than now. -/
def coreAfterNs (s : State) (ns : Nat) : Nat :=
  if ns < nowNs s then s.core
  else
    let incr := max (rd s F.ck_INCR 0 0) 1
    (s.core / 4 + ceilDiv ((ns + 1) * 2 ^ 32 - s.time) incr) * 4

/-- The wait of `q` is not over by core cycle `c`: no token of its generation can be popped by then, and every landing up
to then has been taken (R187). -/
def waitsOn (q : SeqId) (c : Nat) (s : State) : Bool :=
  let n := rd s F.sq_WAIT_QUEUE q.die q.num
  rdb s F.sq_WAITING q.die q.num && landedBy s c && (s.stopAt.all fun b => decide (c < b)) &&
    (queueOf (settleHead (queueDie q) n s) (queueDie q) n).all fun t => decide (c < t.ready)

/-- A token wait exceeds its limit (R187): program-fatal, with the queue in the guard entry. Time comes to
the moment it does. -/
def tokenTimeout (q : SeqId) (s : State) : State :=
  let x := seqX s q
  match x.waitNs with
  | some w =>
    let c := coreAfterNs s (w + waitLimitUs s q.die * 1000)
    if waitsOn q c s then
      let s := setSeqX q { x with waitNs := none } (advanceTo c s)
      guardFault q.die (seqTag s q) x.gen 3 0 (seqDieCode q) (rd s F.sq_WAIT_QUEUE q.die q.num) 0
        (setb F.sq_WAITING q.die q.num false (setSeqState q 3 s))
    else s
  | none => s

/-- TOKEN_TIMEOUT (R187). -/
def execTokenTimeout (q : SeqId) (s : State) : Host.Outcome State Fault Refusal :=
  .next (tokenTimeout q s)

/-- Every sequencer of the part, by die and number. -/
def allSeqs : List SeqId := (List.range 4).flatMap fun d => (List.range 153).map fun n => ⟨d, n⟩

/-- A sequencer of the program stops: it holds no active bin and keeps the rest (R173). -/
def stopSeq (q : SeqId) (s : State) : State :=
  if seqBusy s q then
    setb F.sq_WAITING q.die q.num false (setSeqState q 3
      (setSeqX q { seqX s q with waitNs := none, switchAt := none, heldTill := none } s))
  else s

/-- After a program-fatal error issue stops on every sequencer running the program (R173). -/
def programStop (s : State) : State :=
  match s.stopAt with
  | some c => allSeqs.foldl (fun s q => stopSeq q s) { advanceTo c s with stopAt := none, programDied := true }
  | none => s

/-- PROGRAM_STOP (R173). -/
def execProgramStop (s : State) : Host.Outcome State Fault Refusal :=
  .next (programStop s)

end Sys2Proof.Machine
end

