-- ==== Sys2Proof/Machine/Due.lean ====
section
/-! DEFINITION. When a pending commit, a step commit and a step-boundary set apply (R212, R262, R263, R285, R360,
R361), and what must have applied before an array product starts (R55, R72). -/

namespace Sys2Proof.Machine

open Sys2Proof

/-- A field of a set, by kind. -/
def hasField (fs : List (FKey × Nat)) (f : Field) : Bool := fs.any fun kv => kv.1.fid == f.fid

/-- The sequencers whose SWITCH_STG bit a set has. -/
def switchedSeqs (fs : List (FKey × Nat)) : List SeqId :=
  (fs.filter fun kv => kv.1.fid == F.sq_SWITCH_STG.fid && kv.2 == 1).map fun kv => ⟨unitInst kv.1.unit, kv.1.idx⟩

/-- A set needs a package frame boundary (R212, R360, R361). -/
def needsFrame (fs : List (FKey × Nat)) : Bool :=
  hasField fs F.ag_FRAME_MAP_STG || hasField fs F.ag_FRAME_PHASE || (switchedSeqs fs).any fun q => decide (89 ≤ q.num)

/-- Device time at the start of alignment period `n` that is yet to come. -/
def apNs (s : State) (n : Nat) : Nat :=
  ((s.time + (32 * n / 4 - s.core / 4) * rd s F.ck_INCR 0 0) / 2 ^ 32) % 2 ^ 64

/-- The first alignment period at or after `n` that begins at or after device time `t`. -/
def apAtNs (s : State) (t n : Nat) : Nat := max n (ceilDiv (coreAfterNs s (t - 1)) 32)

/-- The first alignment period that is yet to begin, or begins now. -/
def nextAp (s : State) : Nat := ceilDiv s.core 32

/-- The next package frame boundary at or after alignment period `n` (R211). -/
def frameFrom (n : Nat) : Nat := ceilDiv n 512 * 512

/-- The part takes no part in exchange any more: it has withdrawn (R283). -/
def exchangeStopped (s : State) : Bool := rdb s F.rs_WITHDRAWN 0 0

/-- A program-fatal error has stopped the program, or stops it at the next boundary: its step does not commit (R173). -/
def programLost (s : State) : Bool := s.programDied || s.stopAt.isSome

/-- The decision in hand that the device will act on. -/
def liveDecision (s : State) : Option Decision :=
  s.job.decision.filter fun d => d.step == stepNo s && !exchangeStopped s && !programLost s

/-- The alignment period in which the decision in hand applies: the one that begins at device time T (R262), or the one
after where another commit has taken it (R263). -/
def stepAp (s : State) : Option Nat :=
  (liveDecision s).map fun d =>
    let n := apAtNs s d.at' (nextAp s)
    if s.commit.lastAp = some n then n + 1 else n

/-- Alignment period `n` is that of a step commit, past or to come (R263). -/
def stepTakes (s : State) (n : Nat) : Bool := s.job.stepAp == some n || stepAp s == some n

/-- The first alignment period from `n` on in which a set may apply: a package frame boundary where it needs one, and
not the period of a step commit (R360). -/
def freeAp (s : State) (fs : List (FKey × Nat)) (n : Nat) : Nat :=
  let n := if needsFrame fs then frameFrom n else n
  if stepTakes s n then (if needsFrame fs then frameFrom (n + 1) else n + 1) else n

/-- The alignment period in which a commit applies (R360). -/
def commitAp (s : State) (fs : List (FKey × Nat)) (when' : Nat) : Nat :=
  let n := max (s.commit.checkedAt / 32 + 1) (nextAp s)
  freeAp s fs (if when' = 1 then apAtNs s (rd s F.cm_AT_TIME 0 0) n else n)

/-- The alignment period in which a membership commit applies (R212, R263, R285, R360): none while a rebalance awaits its
step commit. -/
def memberAp (s : State) (v : PendingView) : Option Nat :=
  let n := max (s.commit.checkedAt / 32 + 1) (nextAp s)
  let n := if s.commit.when' = 1 then apAtNs s (rd s F.cm_AT_TIME 0 0) n else n
  let fs := s.commit.snapshot
  if v.kind = 2 then (if s.job.rebalance then s.job.stepAp.map fun a => freeAp s fs (max n (a + 1)) else none)
  else some (freeAp s fs (apAtNs s v.applyTime n))

/-- The alignment period in which the step-boundary set applies by itself (R361): none where it awaits a step commit. -/
def setAp (s : State) : Option Nat :=
  if s.commit.stepSet.isEmpty then none
  else if s.commit.setAtFrame then some (frameFrom (nextAp s))
  else if s.commit.setPending then
    some (freeAp s s.commit.stepSet (max (s.commit.checkedAt / 32 + 1) (nextAp s)))
  else none

/-- The alignment period of the commit in hand: a membership commit's, that of the step-boundary set where it is what pends
(R361), or another's. -/
def pendingAp (s : State) : Option Nat :=
  if rd s F.cm_STATE 0 0 ≠ 2 then none
  else if s.commit.setPending then setAp s
  else if rdb s F.cm_MEMBERSHIP 0 0 then s.job.pendingView.bind (memberAp s)
  else some (commitAp s s.commit.snapshot s.commit.when')

/-- PENDING_AT (R365): the device time at which the pending commit applies as things stand; all ones where none is pending, or
where it awaits a view's APPLY_TIME. -/
def pendingAtNs (s : State) : Nat :=
  if rdb s F.cm_MEMBERSHIP 0 0 then 2 ^ 64 - 1
  else match pendingAp s with
    | some n => apNs s n
    | none => 2 ^ 64 - 1

/-- A change of the arrays that alignment period `n` or an earlier one must see is still to apply (R55, R263, R360). -/
def changeDue (s : State) (n : Nat) : Bool :=
  [pendingAp s, setAp s, stepAp s].any fun a => match a with
    | some m => decide (m ≤ n)
    | none => false

end Sys2Proof.Machine
end

