-- ==== Sys2Proof/Machine/Arrays.lean ====
section
/-! DEFINITION. An analogue array and the array product (R51 to R68, R70 to R73, R116, R119 to R124, R160,
R180, R207, R211 to R213). The charge of every conversion is computed from the cells, the row gains and the driven
nibbles; by how many steps a converter's raw code departs from it is the analogue world's and comes with the command
(DESIGN CHOICE, log 20). -/

namespace Sys2Proof.Machine

open Sys2Proof

/-! ### Arrays and groups -/

/-- The key of a physical array. -/
def arrKey (die p : Nat) : Nat := die * 2048 + p

/-- What physical array `p` of an array die holds beside its fields. -/
def arrX (s : State) (die p : Nat) : ArrX := nmGet {} (arrKey die p) s.arrs

/-- Sets what a physical array holds. -/
def setArrX (die p : Nat) (x : ArrX) (s : State) : State := { s with arrs := nmSet (arrKey die p) x s.arrs }

/-- The unit of an array group's page, by instance. -/
def groupUnit (inst : Nat) : Nat := unitOf 0x11 inst

/-- A page is ready (R350). -/
def pageReady (s : State) (u : Nat) : Bool := rdU s F.com_READY u 0 == 1

/-- An array group is ready. -/
def groupReady (s : State) (inst : Nat) : Bool := pageReady s (groupUnit inst)

/-- The chain the part holds of an endpoint names group `inst` (R215). -/
def chainNames (s : State) (e inst : Nat) : Bool :=
  (nmGet ⟨[], [], 0, 0⟩ e s.chains).entries.any fun c => c.cls == 5 && c.waitA == inst

/-- A group is not ready any more: the queries admitted to the endpoints that name it complete so (R220). -/
def markUnready (inst : Nat) (s : State) : State :=
  { s with queries := s.queries.map fun q => if chainNames s q.ep inst then { q with unready := true } else q }


/-- The rows marked as outliers by slot, of the current set or of the staged one (R63, R69). -/
def outlierSlots (s : State) (staged : Bool) (die p : Nat) : List (Option Nat) :=
  (List.range 8).map fun m =>
    let g (f : Field) := if staged then stgU s f (arrayUnit die) (arrIdx p m) else rdA s f die p m
    if g F.ag_OUTLIER_VALID = 1 then some (g F.ag_OUTLIER_ROW) else none

/-- The current marks. -/
def marks (s : State) (die p : Nat) : List (Option Nat) := outlierSlots s false die p

/-- A slot's 16-bit word as OUTLIER_ROWS lays it out (R69, R160). -/
def slotWord (o : Option Nat) : Nat :=
  match o with
  | some r => r + 2 ^ 15
  | none => 0

/-- A carried slot word names the same mark. -/
def sameMark (w : Nat) (o : Option Nat) : Bool :=
  match o with
  | some r => bitOf w 15 && bits w 0 9 == r
  | none => !bitOf w 15

/-- Row gain of a code, in F32: (code + 64) / 128, exact (R53). -/
def gainF32 (code : Nat) : F32 := ((mkF32 false (code + 64) 1 (-7)).run {}).1

/-- e of a column's current fold exponent (R92). -/
def foldCur (s : State) (die p j : Nat) : Int := (foldExpOf (rdA s F.ag_FOLD_CUR die p j)).getD 0
where
  /-- The value of a fold exponent code (R114). -/
  foldExpOf (code : Nat) : Option Int :=
    match code % 4 with
    | 0 => some 0
    | 1 => some 1
    | 3 => some (-1)
    | _ => none

/-- 2^e in F32. -/
def pow2F32 (e : Int) : F32 := ((mkF32 false 1 1 e).run {}).1

/-- Bypass columns with their pantry entries. -/
def bypassCol (x : ArrX) (j : Nat) : Option PantryCol := (x.cols.find? fun c => c.2.col == j).map (·.2)

/-- Column `j` is in bypass. -/
def inBypass (s : State) (die p j : Nat) : Bool := rdA s F.ag_IN_BYPASS die p j == 1

/-! ### Frames and slots (R211, R212) -/

/-- Where alignment period `n` lies in a frame of phase `φ`: the slot and the period its slot began. -/
def slotIn (φ n : Nat) : Nat × Nat :=
  let k := (n % 512 + 512 - φ) % 512
  (k / 8, n - k % 8)

/-- The slot that alignment period `n` belongs to in group `inst`: its first period and its entry; none in the
gap of a change of phase. -/
def slotAt (s : State) (inst n : Nat) : Option (Nat × Nat) :=
  let u := groupUnit inst
  let cur := slotIn (rdU s F.ag_FRAME_PHASE u 0) n
  let now := some (cur.2, rdU s F.ag_FRAME_MAP_CUR u cur.1)
  match smFind inst s.frames with
  | none => now
  | some x =>
    if n < x.oldEnd then
      let o := slotIn x.oldPhase n
      some (o.2, x.oldMap.getD o.1 0)
    else if n < x.newFrom ∨ cur.2 < x.newFrom then none
    else now

/-- Entry `k` of the slot map in force in a group (R212, R222). -/
def mapInForce (s : State) (inst k : Nat) : Nat :=
  let cur := rd s F.ag_FRAME_MAP_CUR inst k
  match smFind inst s.frames with
  | some x => if nowAp s < x.newFrom then x.oldMap.getD k 0 else cur
  | none => cur

/-- Alignment period `n` is the start of a slot of the kind and endpoint given (R212). -/
def slotStarts (s : State) (inst n kind ep : Nat) : Bool :=
  match slotAt s inst n with
  | some (start, e) => decide (start = n) && bits e 8 2 == kind && bits e 0 8 == ep
  | none => false

/-- The group a physical array serves, if any. -/
def groupFor (s : State) (die p : Nat) : Option Nat := (logicalOf s die p).map fun l => 16 * die + l / 64

/-- Alignment period `n` starts a slot that a column write may take, as the group's READY and slot map stand: a free slot
of a ready group, any slot of a group that is not ready, and every slot of a spare (R95, R111). -/
def writeSlotOpen (s : State) (die p n : Nat) : Bool :=
  match groupFor s die p with
  | none => n % 8 == 0
  | some g =>
    if groupReady s g then slotStarts s g n 0 0
    else match slotAt s g n with
      | some (start, _) => start == n
      | none => false

/-- The starts of the slots that a running write takes from its settled period up to before period `n`, with those it has
taken (R95). -/
def slotsTaken (s : State) (die p : Nat) (w : ColWrite) (n : Nat) : List Nat :=
  w.slots ++ ((List.range (n - w.upTo)).map (· + w.upTo)).filter (writeSlotOpen s die p)

/-- A running write's slots that have begun are settled under the conditions that held until now (R95). -/
def settleWrite (s : State) (die p : Nat) (x : ArrX) : ArrX :=
  match x.write with
  | some w =>
    if w.running then
      { x with write := some { w with slots := slotsTaken s die p w (nextAp s), upTo := max w.upTo (nextAp s) } }
    else x
  | none => x

/-- The slots of every running column write are settled: READY, a slot map or a remap is about to change (R95, R212). -/
def settleWrites (s : State) : State :=
  { s with arrs := s.arrs.map fun a => (a.1, settleWrite s (a.1 / 2048) (a.1 % 2048) a.2) }

/-- A group may not become ready: a device-fatal error keeps it at reason 0x0B until the next reset (R387). -/
def heldUnready (s : State) (u : Nat) : Bool := unitPage u == 0x11 && rdb s F.fa_DEVICE_FATAL 0 0

/-- Sets READY and READY_INFO of a page (R350, R351). -/
def setReady (u : Nat) (ready : Bool) (reason detail : Nat) (s : State) : State :=
  let held := ready && heldUnready s u
  let ready := ready && !held
  let reason := if held then 0x0B else reason
  let s := if unitPage u = 0x11 ∧ pageReady s u ≠ ready then settleWrites s else s
  wrU F.com_DETAIL u 0 detail (wrU F.com_REASON u 0 reason (wrU F.com_READY u 0 (b2n ready)
    (if unitPage u = 0x11 ∧ ready = false then markUnready (unitInst u) s else s)))

/-! ### Pantries between a commit and their refresh (R15) -/

/-- A group's pantries are still to be refreshed after the last step commit, or after a commit that changed its row gains or
fold exponents (R15, R51). -/
def refreshOwed (s : State) (inst : Nat) : Bool :=
  nmGet 0 inst s.refreshed != stepNo s || s.refreshDue.contains inst

/-- The pantry of a physical array still holds values from before a commit (R15). -/
def pantryOwed (s : State) (die p : Nat) : Bool :=
  match groupFor s die p with
  | some g => refreshOwed s g
  | none => false

/-! ### Conversions (R52, R54, R59, R60, R72) -/

/-- The signed charge of a column in a round, in 1/128 charge units: Σ g_i × n_i × L_ij over the driven rows (R52, R54).
`rows` gives each driven row with its nibble. -/
def charge (gains : List Nat) (cells : List Int) (rows : List (Nat × Nat)) : Int :=
  if cells.isEmpty then 0
  else rows.foldl (fun a im => a + ((gains.getD im.1 64 + 64) * im.2 : Nat) * cells.getD im.1 0) 0

/-- The charge lies beyond the full range 57,600 / G at range gain code `g` (R59). -/
def beyondRange (g : Nat) (y : Int) : Bool := decide (57600 * 128 < y.natAbs * 2 ^ g)

/-- `n / d` to the nearest integer, ties to even, with the sign of `n`. -/
def roundInt (n : Int) (d : Nat) : Int := (if n < 0 then -1 else 1) * (roundNe n.natAbs d : Int)

/-- Offset trim at a range gain, in 1/16 step (R73). -/
def trimOff (trim g : Nat) : Int := signedOf (bits trim (8 + 18 * g) 8) 8

/-- Gain trim at a range gain (R73). -/
def trimGain (trim g : Nat) : Nat := bits trim (16 + 18 * g) 10

/-- The raw code, in 1/`u` step, whose corrected code is `n / d` steps under a trim (R59, R72, R75). -/
def nominalCode (trim g u : Nat) (n : Int) (d : Nat) : Int :=
  roundInt (n * (4096 * 16 * u) + trimOff trim g * (u * d * (3584 + trimGain trim g) : Nat))
    (16 * d * (3584 + trimGain trim g))

/-- A conversion's corrected code, whether it is clipped and whether it is a rail hit (R59, R72). `y` is the charge in
1/128 charge units and `err` by how many steps the raw code departs from its nominal value (DESIGN CHOICE, log 20).
At ×2 and ×4 the comparator trips on a charge beyond the full range; at ×1 it is not armed. -/
def correctCode (trim g : Nat) (y err : Int) : F32 × Bool × Bool :=
  if g ≠ 0 ∧ beyondRange g y then (intToF32 (if y < 0 then -127 else 127), true, false)
  else
    let raw := max (-128) (min 127 (nominalCode trim g 1 (y * (127 * 2 ^ g : Nat)) (57600 * 128) + err))
    let off := trimOff trim g
    let f := ((mkF32 false (3584 + trimGain trim g) 1 (-12)).run {}).1
    let d := ((mkF32 (decide (16 * raw - off < 0)) (16 * raw - off).natAbs 1 (-4)).run {}).1
    ((fmul d f).val, false, decide (raw = -128 ∨ raw = 127))

/-! ### One array's result -/

/-- A segment as an array reads it (R116, R180). -/
structure SegIn where
  codes : List Nat
  scale : S16
  zero : Nat
  values : List S16
  tag : Option SegTag
  poisoned : Bool
  deriving DecidableEq, Repr

/-- What one array product comes to. -/
structure ArrRes where
  res : List F32 := []
  /-- a_j by column, for the audit. -/
  analogue : List F32 := []
  fl : Fl := {}
  phases : Nat := 0
  work : Nat := 0
  skipped : Nat := 0
  zero : Bool := false
  clips : List (Nat × Nat) := []
  convs : List (Nat × Nat) := []
  rails : Nat := 0
  stale : Bool := false
  /-- Alignment periods from the first integration to the end of the last conversion. -/
  convEnd : Nat := 10
  deriving DecidableEq, Repr

/-- The rounds of a product: the weight and the driven rows with their nibbles (R54 to R58). -/
def rounds (sparse : Bool) (out : List (Option Nat)) (codes : List Nat) : List (Nat × List (Nat × Nat)) :=
  let live := (List.range 512).filter fun i => !out.contains (some i)
  let rows := if sparse then live.filter (fun i => codes.getD i 0 != 0) else live
  let groups := if sparse then blocksOf 128 4 rows
    else (List.range 4).map fun p => rows.filter fun i => i / 128 == p
  groups.flatMap fun g =>
    [(16, g.filterMap fun i => let n := codes.getD i 0 / 16; if n = 0 then none else some (i, n)),
     (1, g.filterMap fun i => let n := codes.getD i 0 % 16; if n = 0 then none else some (i, n))]

/-- The fold generation of a package-wide logical array (R121). -/
def foldGen (s : State) (i : Nat) : Nat := rdA s F.ag_FOLD_GEN (i / 1024) (physOf s (i / 1024) (i % 1024)) 0

/-- The set of row gains and column sums a segment selects (R121): the current one, the prior one, or none for
a stale segment. A segment of the preceding generation is stale on an array that holds no prior set
(DESIGN CHOICE, log 123). -/
def foldSet (s : State) (x : ArrX) (tag : Option SegTag) : Option (Option PriorSet) :=
  match tag.bind (·.fold) with
  | none => some none
  | some (src, g) =>
    let cur := foldGen s src
    if g = cur then some none
    else if (g + 1) % 4 = cur then x.prior.map some
    else none

/-- The exact sum of a bypass column: Σ g_i × M_ij over rows that are not outliers, ascending, each term × 2^−e (R64,
R92). -/
def sumWith (gain : Nat → F32) (out : List (Option Nat)) (e : Int) (ms : List Nat) : F32 :=
  (List.range 512).foldl (fun a i =>
    if out.contains (some i) then a
    else
      let t := (fmul ((fmul (gain i) (s16ToF32 (BitVec.ofNat 16 (ms.getD i 0)))).val) (pow2F32 (-e))).val
      (fadd a t).val) (0 : F32)

/-- The outlier term of column `j` (R63, R92): rows ascending, values that are not zero. -/
def outlierTerm (x : ArrX) (gain : Nat → F32) (out : List (Option Nat)) (vals : List S16) (e : Int) (j : Nat) :
    Calc F32 := do
  let rows := (List.range 512).filterMap fun i =>
    (out.zipIdx.find? fun om => om.1 == some i).map fun om => (i, om.2)
  rows.foldlM (fun o im => do
    let v := s16ToF32 (vals.getD im.2 0)
    if f32IsZero v then return o
    else
      let m := s16ToF32 (BitVec.ofNat 16 ((nmGet [] im.2 x.outRows).getD j 0))
      fadd o (← fmul (← fmul (← fmul (gain im.1) v) m) (pow2F32 (-e)))) (0 : F32)

/-- Every column of a stale or poisoned product: canonical NaN and non-finite status (R121, R160, R381). -/
def nanResult (stale : Bool) (r : ArrRes) : ArrRes :=
  { r with res := List.replicate 512 f32Nan, fl := { r.fl with nonfinite := true }, stale := stale }

/-- The product of physical array `p` with a segment (R54 to R65). `g` is the range gain; `rdg r j` by how many steps
the raw code of round `r`, column `j`, departs from its nominal value. A bypass column that holds no sum from before
the change of fold exponents sums its masters under the prior row gains (DESIGN CHOICE, log 123). -/
def arrayResult (s : State) (die p g : Nat) (sparse : Bool) (seg : SegIn) (rdg : Nat → Nat → Int) : ArrRes :=
  let x := arrX s die p
  let out := marks s die p
  let rs := (rounds sparse out seg.codes).zipIdx
  let nz := (List.range 512).filter fun i => !out.contains (some i) && seg.codes.getD i 0 != 0
  let byp := (List.range 512).filter (inBypass s die p)
  let set := foldSet s x seg.tag
  let prior := set.getD none
  let gains := match prior with
    | some ps => ps.gains
    | none => (List.range 512).map fun i => rdA s F.ag_ROW_GAIN_CUR die p i
  let gain (i : Nat) := gainF32 (gains.getD i 64)
  let sc := s16ToF32 seg.scale
  let z := natToF32 seg.zero
  let nvals := out.zipIdx.filter fun om => om.1.isSome && !f32IsZero (s16ToF32 (seg.values.getD om.2 0))
  let base : ArrRes :=
    { phases := if sparse then ceilDiv nz.length 128 else 4
      work := 512 * nvals.length + byp.length * nz.length
      skipped := (rs.filter fun r => r.1.2.isEmpty).length
      zero := nz.isEmpty
      convEnd := if sparse then (rs.filter fun r => !r.1.2.isEmpty).foldl (fun _ r => r.2 + 3) 0 else 10
      convs := (List.range 128).map fun c =>
        (c, ((List.range 4).filter fun k => !byp.contains (4 * c + k)).length *
          (rs.filter fun r => !r.1.2.isEmpty).length) }
  let colRun (j : Nat) : (F32 × F32 × List Bool × Nat) × Fl :=
    let e := foldCur s die p j
    let work : Calc (F32 × F32 × List Bool × Nat) := do
      let o ← outlierTerm x gain out seg.values e j
      if byp.contains j then
        let pc := bypassCol x j
        let ms := (pc.map (·.vals)).getD []
        let b ← nz.foldlM (fun b i => do
          let m := s16ToF32 (BitVec.ofNat 16 (ms.getD i 0))
          fadd b (← fmul (← fmul (← fmul (gain i) (natToF32 (seg.codes.getD i 0))) m) (pow2F32 (-e)))) (0 : F32)
        let sum := match prior with
          | some ps => ((ps.sums.find? (·.1 == j)).map (·.2)).getD (sumWith gain out e ms).toNat
          | none => (pc.map (·.sum)).getD 0
        let r ← fadd (← fmul sc (← fsub b (← fmul z (BitVec.ofNat 32 sum)))) o
        return (r, (0 : F32), [], 0)
      else
        let trim := rdA s F.ag_TRIM_CUR die p j
        let lv := nmGet [] j x.cells
        let cs := rs.filterMap fun r =>
          if r.1.2.isEmpty then none else some (r.1.1, correctCode trim g (charge gains lv r.1.2) (rdg r.2 j))
        let c ← cs.foldlM (fun c wc => do fadd c (← fmul (natToF32 wc.1) wc.2.1)) (0 : F32)
        let a ← fdiv (← fmul c (natToF32 57600)) (natToF32 (127 * 2 ^ g))
        let ch := match prior with
          | some ps => ps.colSums.getD j 0
          | none => rdA s F.ag_COLSUM_CUR die p j
        let t ← fsub a (← fmul z (BitVec.ofNat 32 ch))
        let r ← fadd (← fmul (← fmul t (s16ToF32 (BitVec.ofNat 16 (rdA s F.ag_APPLIED_CUR die p j)))) sc) o
        return (r, a, cs.map (·.2.2.1), (cs.filter (·.2.2.2)).length)
    work.run {}
  let cols := (List.range 512).map colRun
  let clipOf (j : Nat) : Nat := ((cols.map (·.1.2.2.1)).getD j []).count true
  let clips := ((List.range 128).map fun c =>
    (c, ((List.range 4).map fun k => clipOf (4 * c + k)).sum)).filter (·.2 != 0)
  let r : ArrRes :=
    { base with
      res := cols.map (·.1.1), analogue := cols.map (·.1.2.1)
      fl := { nonfinite := cols.any (·.2.nonfinite), clip := !clips.isEmpty }
      clips := clips, rails := (cols.map (·.1.2.2.2)).sum }
  if set.isNone || !(match seg.tag with
      | some t => (t.slots.zip out).all fun wo => sameMark wo.1 wo.2
      | none => true) then nanResult true r
  else if seg.poisoned then nanResult false r
  else r

/-- The analogue path and the side path of R68, in alignment periods. -/
def pathTimes (sparse : Bool) (r : ArrRes) : Nat × Nat :=
  if sparse then (if r.phases = 0 then 0 else 2 * r.phases + 3, ceilDiv r.work 2048) else (11, 8)

/-- Occupancy and latency of one array's product in alignment periods (R68). -/
def arrTimes (sparse : Bool) (r : ArrRes) : Nat × Nat :=
  if sparse then
    let t := pathTimes sparse r
    (max (max (2 * r.phases) t.2) 1, max t.1 t.2 + 1)
  else (8, 12)

/-! ### The audit (R122 to R124) -/

/-- The audit slot: the lowest pantry slot that holds neither an outlier row nor a bypass column (R124). -/
def auditSlot (s : State) (die p : Nat) : Option Nat :=
  let out := marks s die p
  let x := arrX s die p
  (List.range 32).find? fun k => if k < 8 then (out.getD k none).isNone else (smFind k x.cols).isNone

/-- A pantry slot is free for the audit (R124). -/
def auditSlotFree (s : State) (die p : Nat) : Bool := (auditSlot s die p).isSome

/-- The next audit column: AUDIT_STRIDE further, even values acting as the next odd value. -/
def auditNext (stride p : Nat) : Nat := (p + (stride + 1 - stride % 2)) % 512

/-- Column `j`'s level codes in the programmed image of logical array `l` of a die (R93). -/
def imageLevels (s : State) (die l j : Nat) : List Byte :=
  let a := rd s F.ag_IMAGE_BASE (16 * die + l / 64) 0 + 263360 * (l % 64) + 512 * j
  readBytes s memSpace a 512

/-- The audit sample of a dense product, if it takes one (R122): the audit slot must hold the column's levels. -/
def auditSample (s : State) (die p : Nat) (seg : SegIn) (r : ArrRes) : Option F32 :=
  let x := arrX s die p
  let j := x.auditPtr
  let out := marks s die p
  let nz := (List.range 512).filter fun i => !out.contains (some i) && seg.codes.getD i 0 != 0
  if inBypass s die p j || rdA s F.ag_WRITE_STATE die p j != 0 || auditSlot s die p != some x.auditIn ||
      (smFind j x.auditLevels).isNone || x.auditDrop.contains j || decide (16384 < r.work + nz.length) then none
  else
    let lv := nmGet [] j x.auditLevels
    let gain (i : Nat) : Nat := match foldSet s x seg.tag with
      | some (some ps) => ps.gains.getD i 64
      | _ => rdA s F.ag_ROW_GAIN_CUR die p i
    let ref := nz.foldl (fun (a : Int) i =>
      a + ((gain i + 64) * seg.codes.getD i 0 : Nat) * lv.getD i 0) 0
    let f := (fdiv (intToF32 ref) (natToF32 128)).val
    some ((fsub (r.analogue.getD j 0) f).val)

/-- After a dense product the audit pointer advances, and the audit slot comes to hold the levels of the column it then
names and of the next one: what it lacks is loaded from the image (R122, R124) (DESIGN CHOICE, log 124). -/
def advanceAudit (inst die p l : Nat) (s : State) : State :=
  let x := arrX s die p
  let stride := rd s F.ag_AUDIT_STRIDE inst 0
  let j := auditNext stride x.auditPtr
  match auditSlot s die p with
  | none => setArrX die p { x with auditPtr := j, auditLevels := [], auditDrop := [] } s
  | some k =>
    if !rdb s F.ag_AUDIT_EN inst 0 then setArrX die p { x with auditPtr := j } s
    else
      let held := if k = x.auditIn then x.auditLevels else []
      let load (c : Nat) : List Int := match smFind c held with
        | some lv => lv
        | none => (imageLevels s die l c).map (·.toInt)
      let n := auditNext stride j
      setArrX die p { x with
        auditPtr := j, auditIn := k, auditLevels := nmSet n (load n) (nmSet j (load j) [])
        auditDrop := x.auditDrop.filter fun c => (c == j || c == n) && (smFind c held).isSome } s

/-! ### Planes of a product (R180) -/

/-- A plane of a product: its space, its base and its register number. -/
structure Plane where
  die : Nat
  space : Nat
  base : Nat
  reg : Nat
  deriving DecidableEq, Repr

/-- The plane of the DIE, REG and OFF field at bit `lo` of a word. -/
def Ctx.plane (x : Ctx) (w lo : Nat) : Plane :=
  { die := bits w lo 5, space := dieSpace (bits w lo 5), base := x.addr w (lo + 5), reg := bits w (lo + 5) 5 }

/-- The parameter plane, at the next register. -/
def Ctx.auxOf (x : Ctx) (p : Plane) : Nat := x.reg (p.reg + 1)

/-- The outlier value plane, at the register after. -/
def Ctx.valuesOf (x : Ctx) (p : Plane) : Nat := x.reg (p.reg + 2)

def Cmd.aFirst (c : Cmd) : Nat := bits c.w1 43 6
def Cmd.aCount (c : Cmd) : Nat := bits c.w1 49 6 + 1
def Cmd.aKseg (c : Cmd) : Nat := bits c.w1 55 6 + 1
def Cmd.aSparse (c : Cmd) : Bool := bitOf c.w1 61
def Cmd.aFold (c : Cmd) : Bool := bitOf c.w1 62
def Cmd.aRelu (c : Cmd) : Bool := bitOf c.w1 63
def Cmd.aStash (c : Cmd) : Bool := bitOf c.w3 20
def Cmd.aStashBlk (c : Cmd) : Nat := bits c.w3 21 2

/-- Input segment `k` as the planes stand in `s`. -/
def readSeg (s : State) (x : Ctx) (p : Plane) (k : Nat) : SegIn :=
  let ca := p.base + 512 * k
  let pa := x.auxOf p + 4 * k
  let va := x.valuesOf p + 16 * k
  let pr := readParams s p.space pa 0
  { codes := (readBytes s p.space ca 512).map (·.toNat), scale := pr.1, zero := pr.2
    values := (List.range 8).map fun m => BitVec.ofNat 16 (readNat s p.space (va + 2 * m) 2)
    tag := smFind (cell p.space pa) s.segTags
    poisoned := !(poisonedWords s p.space ca 512 ++ poisonedWords s p.space pa 4 ++
      poisonedWords s p.space va 16).isEmpty }

/-- The ranges of input segment `k`. -/
def segRanges (x : Ctx) (p : Plane) (k : Nat) : List Range :=
  [⟨p.space, p.base + 512 * k, 512⟩, ⟨p.space, x.auxOf p + 4 * k, 4⟩, ⟨p.space, x.valuesOf p + 16 * k, 16⟩]

/-! ### The folded output stage (R119) -/

/-- The physical arrays in service whose FOLD_SRC names one of the package-wide logical indices `srcs` (R92), by die: a
retired array serves no logical number and consumes nothing (R106). -/
def consumers (s : State) (srcs : List Nat) : List (Nat × Nat) :=
  s.flds.filterMap fun kv =>
    if kv.1.fid = F.ag_SRC_VALID.fid ∧ kv.2 = 1 ∧ unitPage kv.1.unit = 0x10 ∧
        srcs.contains (rdU s F.ag_SRC_ARRAY kv.1.unit kv.1.idx) ∧
        (logicalOf s (unitInst kv.1.unit) (kv.1.idx / 1024)).isSome then some (unitInst kv.1.unit, kv.1.idx / 1024)
    else none

/-- One folded block: v by column, its codes and its outlier values. -/
structure FoldOut where
  vs : List F32
  codes : List Byte
  values : List S16
  nonfinites : Nat
  deriving DecidableEq, Repr

/-- The output stage on a block's column results (R119). -/
def foldStage (relu : Bool) (e : Nat → Int) (bias : Nat → S16) (out : List (Option Nat)) (sc : S16) (z : Nat)
    (rs : List F32) : Calc FoldOut := do
  let vs ← (rs.zipIdx).mapM fun rj => do
    let v ← fadd rj.1 (← fmul (s16ToF32 (bias rj.2)) (pow2F32 (-(e rj.2))))
    if relu then fmax v 0 else return v
  let codes ← (vs.zipIdx).mapM fun vj =>
    if out.contains (some vj.2) then pure (BitVec.ofNat 8 z) else f32ToA8 sc z vj.1
  let values ← out.mapM fun o => match o with
    | some i => f32ToS16 .ne (vs.getD i 0)
    | none => pure 0#16
  return { vs := vs, codes := codes, values := values, nonfinites := (vs.filter fun v => !f32Finite v).length }

/-! ### The product command -/

/-- What a product command comes to, in alignment periods from its first integration period. -/
structure ProdOut where
  /-- Logical array of the group, its physical array, its result, its segment. -/
  arrays : List (Nat × Nat × ArrRes × SegIn) := []
  /-- P + C + F + D of R207. -/
  land : Nat := 0
  res : OpResult := {}
  stale : Bool := false
  deriving DecidableEq, Repr

/-- The largest delay of the planes a product writes (R207). -/
def outDelay (die : Nat) (x : Ctx) (c : Cmd) : Nat :=
  let d := planeDelay die (x.plane c.w2 20).die
  if c.aStash then max d (planeDelay die (x.plane c.w3 0).die) else d

/-- By how many steps the raw code of array `k`, round `r`, column `j` departs from its nominal value, in the list a
command carries; 0 where none is listed. -/
def readingAt (codes : List (Nat × Int)) (k r j : Nat) : Int := smGet 0 ((k * 8 + r) * 512 + j) codes

/-- Register counts of one array's product in group `inst`. -/
def arrCounts (inst die p : Nat) (sparse : Bool) (r : ArrRes) : List Count :=
  let u := groupUnit inst
  let au := arrayUnit die
  [⟨if sparse then F.ag_SPARSE_BUSY else F.ag_DENSE_BUSY, u, 0, (arrTimes sparse r).1⟩,
   ⟨F.ag_SKIPPED_ROUNDS, u, 0, r.skipped⟩, ⟨F.ag_ZERO_INPUT_PRODUCTS, u, 0, b2n r.zero⟩,
   ⟨F.ag_CLIPPED_PRODUCTS, u, 0, b2n (!r.clips.isEmpty)⟩, ⟨F.ag_RAIL_HITS, u, 0, r.rails⟩,
   ⟨F.ag_FOLD_STALE, u, 0, b2n r.stale⟩] ++
  (r.convs.filter (·.2 != 0)).map (fun c => ⟨F.ag_CONVERSIONS, au, arrIdx p c.1, c.2⟩) ++
  r.clips.map fun c => ⟨F.ag_CLIPPED, au, arrIdx p c.1, c.2⟩

/-- The output block `b` of a product from its column results. The outlier rows are those of the first consumer by die and
physical array, none where there is no consumer; the bias plane lies in the segment buffer of the command's array die; and
with KSEG > 1 the block's first array gives the fold exponents of the bias and the generation the segment carries
(DESIGN CHOICE, log 150). -/
def blockOut (s : State) (x : Ctx) (c : Cmd) (die inst b : Nat) (rs : List F32) :
    Calc (List WriteBack × List (Nat × SegTag) × List Count) := do
  let o := x.plane c.w2 20
  let l0 := 64 * (inst % 16) + c.aFirst + c.aKseg * b
  let p0 := physOf s die l0
  let stash (vs : List F32) : Calc (List WriteBack) := do
    if c.aStash then
      let t := x.plane c.w3 0
      let bs := blockSize c.aStashBlk
      let blks ← (blocksOf bs 512 vs).mapM fun blk => encodeBlock (fun _ => .ne) none blk 0
      return [⟨cell t.space (t.base + 512 * b), blks.flatMap (·.2)⟩,
              ⟨cell t.space (x.auxOf t + 512 / bs * b), blks.map fun e => BitVec.ofNat 8 e.1⟩]
    else return []
  if c.aFold then
    let cons := consumers s ((List.range c.aKseg).map fun k => 1024 * die + l0 + k)
    let out := match cons with
      | [] => List.replicate 8 none
      | dp :: _ => marks s dp.1 dp.2
    let pr := readParams s o.space (x.auxOf o + 4 * b) 0
    let ba := x.addr c.w2 40 + 1024 * b
    let f ← foldStage c.aRelu (foldCur s die p0)
      (fun j => readS16 s (dieSpace (8 + die)) (ba + 2 * j)) out pr.1 pr.2 rs
    let fl ← get
    let st ← stash f.vs
    return (⟨cell o.space (o.base + 512 * b), f.codes⟩ ::
        ⟨cell o.space (x.valuesOf o + 16 * b), f.values.flatMap s16Le⟩ :: st,
      [(cell o.space (x.auxOf o + 4 * b),
        ⟨out.map slotWord, some (1024 * die + l0, rdA s F.ag_FOLD_GEN die p0 0)⟩)],
      [⟨F.ag_OUTQ_CLIPS, groupUnit inst, 0, fl.clips⟩, ⟨F.ag_OUTQ_NONFINITE, groupUnit inst, 0, f.nonfinites⟩])
  else
    let st ← stash rs
    return (⟨cell o.space (o.base + 2048 * b), rs.flatMap f32Le⟩ :: st, [], [])

/-- A product on group `inst` of array die `die` whose first integration period is `ap` (R55, R207). `sr` is the state
as the planes stood in the read cycle, `s` the state the arrays are in when that period begins. -/
def productWork (x : Ctx) (c : Cmd) (die inst ap : Nat) (codes : List (Nat × Int)) (sr s : State) : ProdOut :=
  let i := x.plane c.w2 0
  let segs := (List.range c.aKseg).map fun k => readSeg sr x i k
  let arrs := (List.range c.aCount).map fun k =>
    let l := c.aFirst + k
    let p := physOf s die (64 * (inst % 16) + l)
    let seg := segs.getD (k % c.aKseg) ⟨[], 0, 0, [], none, false⟩
    (l, p, arrayResult s die p (rdU s F.ag_RANGE_GAIN (groupUnit inst) l) c.aSparse seg
      (fun r j => readingAt codes k r j), seg)
  let nblk := c.aCount / c.aKseg
  let run : Calc (List (List WriteBack × List (Nat × SegTag) × List Count)) :=
    (List.range nblk).mapM fun b => do
      let rs := (arrs.drop (c.aKseg * b)).take c.aKseg
      let sum ← match rs with
        | [] => pure []
        | r :: rest => rest.foldlM (fun acc q => (acc.zip q.2.2.1.res).mapM fun ab => fadd ab.1 ab.2) r.2.2.1.res
      modify fun f => { f with clips := 0 }
      blockOut s x c die inst b sum
  let r := run.run { nonfinite := arrs.any (·.2.2.1.fl.nonfinite), clip := arrs.any (·.2.2.1.fl.clip) }
  let p := arrs.foldl (fun m a => max m (arrTimes c.aSparse a.2.2.1).2) 0
  let land := p + ceilDiv (c.aKseg - 1) 8 + b2n c.aFold + outDelay die x c
  let u := groupUnit inst
  let auditOn := rdU s F.ag_AUDIT_EN u 0 == 1 && !c.aSparse
  let samples := arrs.map fun a => (a.1, if auditOn then auditSample s die a.2.1 a.2.2.2 a.2.2.1 else none)
  { arrays := arrs, land := land, stale := arrs.any (·.2.2.1.stale)
    res :=
      { occ := 0, lat := none
        reads := (List.range c.aKseg).flatMap fun k => segRanges x i k
        writes := r.1.flatMap (·.1), tags := r.1.flatMap (·.2.1)
        counts := arrs.flatMap (fun a => arrCounts inst die a.2.1 c.aSparse a.2.2.1) ++ r.1.flatMap (·.2.2) ++
          [⟨F.ag_AUDIT_SKIPS, u, 0, if c.aSparse then 0 else (samples.filter (·.2.isNone)).length⟩]
        audits := samples.filterMap fun d => d.2.map fun v => ⟨inst, v.toNat, ap + 12, 64 * inst + d.1⟩
        fl := r.2, fmt := if c.aFold then fmtA8 else fmtF32, extent := 512 * nblk } }

/-- Aborts an array's sweep conversion at the foreground request of alignment period `t` (R78). One that was to start in
that period does not start there, so that nothing is aborted (R77). -/
def abortSweep (inst die p t : Nat) (s : State) : State :=
  let x := arrX s die p
  let y := { x with sweep := { x.sweep with run := none } }
  match x.sweep.run with
  | some n =>
    if n = t then setArrX die p y s
    else if n < t ∧ t < n + 5 then sat F.ag_SWEEP_ABORTS inst 0 1 (setArrX die p y s)
    else s
  | none => s

/-- What a product leaves on the arrays it names: their occupancy and foreground use from the issue in
alignment period `t`, the audit pointers, and any sweep conversion aborted. -/
def occupyArrays (inst die t : Nat) (sparse : Bool) (arrs : List (Nat × Nat × ArrRes × SegIn)) (s : State) : State :=
  arrs.foldl (fun s a =>
    let p := a.2.1
    let s := abortSweep inst die p t s
    let x := arrX s die p
    let tm := arrTimes sparse a.2.2.1
    let s := setArrX die p { x with
      fgFrom := t + 1, fgUntil := max x.fgUntil (t + 1 + max tm.1 a.2.2.1.convEnd) }
      (setBusy (engineKey 4 (arrKey die p)) (32 * (t + 1 + tm.1)) s)
    if sparse then s else advanceAudit inst die p (64 * (inst % 16) + a.1) s) s

/-- The array die and the group page instance of an array-group sequencer (R169). -/
def groupOf (q : SeqId) : Nat × Nat :=
  let die := 4 * q.die + (q.num - 89) / 16
  (die, 16 * die + (q.num - 89) % 16)

/-- The first alignment period from `n` on at which every array of the list is free and a training slot
starts (R172, R213), within `fuel` periods. -/
def nextTraining (s : State) (inst : Nat) (freeAp : Nat) : Nat → Nat → Nat
  | 0, n => n
  | fuel + 1, n => if freeAp ≤ n ∧ slotStarts s inst n 1 0 then n else nextTraining s inst freeAp fuel (n + 1)

/-- The alignment period from which every array a product names is free: none holds two products in one slot
(R68, R213). -/
def arraysFreeAp (s : State) (die inst : Nat) (c : Cmd) : Nat :=
  (List.range c.aCount).foldl (fun m k =>
    let p := physOf s die (64 * (inst % 16) + c.aFirst + k)
    max m (ceilDiv (busyUntil s (engineKey 4 (arrKey die p))) 32)) 0

/-- The core cycle in which a product issued in alignment period `ap` reads its input planes (R207). -/
def readCycle (die : Nat) (x : Ctx) (c : Cmd) (ap : Nat) : Nat :=
  32 * (ap - planeDelay die (x.plane c.w2 0).die) + 31

/-- A product issued in alignment period `ap` cannot be taken yet: a write that its read cycle sees has still to land, or
a commit that its first integration period sees has still to apply (R55, R207, DESIGN CHOICE, log 125). -/
def productHeld (s : State) (die : Nat) (x : Ctx) (c : Cmd) (ap : Nat) : Bool :=
  !landedBy s (readCycle die x c ap) || changeDue s (ap + 1)

/-- A training product at array tick `t` (R113, R180, R207, R213). Its arrays are taken as they stand when its first
integration period begins, to which time comes (R55, R72). -/
def productCmd (q : SeqId) (codes : List (Nat × Int)) (c : Cmd) (t : Nat) (s : State) : State :=
  let (die, inst) := groupOf q
  let x := ctxOf s q
  let ap := t / 16
  let pc := pcIndex s q
  if !groupReady s inst then
    setPc q (pc + 1) (noteIssue q t (programFatal q.die 0 x.tag (errorLog 0x11 inst 2 8 x.tag true 0 0 s)))
  else
    let freeAp := arraysFreeAp s die inst c
    if ap + 1 < freeAp ∨ !slotStarts s inst (ap + 1) 1 0 then
      collide q t (32 * (nextTraining s inst freeAp 2048 (ap + 1) - 1)) s
    else if trackerFull s q.die then setPc q (pc + 1) (noteIssue q t (startOp q c 0 0 {} s))
    else
      let rc := readCycle die x c ap
      let o := productWork x c die inst (ap + 1) codes (asOf rc s) s
      let land := 32 * (ap + 1 + o.land)
      let s := startOp q c rc (2 * t) { o.res with lat := some (land - 2 * t) } s
      advanceTo (32 * (ap + 1)) (setPc q (pc + 1) (noteIssue q t (occupyArrays inst die ap c.aSparse o.arrays s)))

/-- The next command of `q` is a product that would issue but cannot be taken yet (DESIGN CHOICE, log 125). -/
def arrayHeld (q : SeqId) (s : State) : Bool :=
  match prepare q 5 0 s with
  | .go s' c t _ true => productHeld s' (groupOf q).1 (ctxOf s' q) c (t / 16)
  | _ => false

/-- ARRAY_PRODUCT (R180). `codes` says by how many steps each raw code departs from its nominal value, by array, round
and column (DESIGN CHOICE, log 20). -/
def execArrayProduct (q : SeqId) (codes : List (Nat × Int)) (s : State) : Host.Outcome State Fault Refusal :=
  .next (if arrayHeld q s then s else streamCmd q 5 0 (fun c t _ s => productCmd q codes c t s) s)

end Sys2Proof.Machine
end

