-- ==== Sys2Proof/Machine/Matrix.lean ====
section
/-! DEFINITION. The matrix engine and its transposing load path (R47, R48, R129 to R135, R177, R204). -/

namespace Sys2Proof.Machine

open Sys2Proof

/-! ### Payload fields (R177) -/

def Cmd.mK (c : Cmd) : Nat := bits c.w1 43 16 + 1
def Cmd.mPitchA (c : Cmd) : Nat := 64 * bits c.w2 38 12
def Cmd.mPitchB (c : Cmd) : Nat := 64 * bits c.w2 50 12
/-- OUT: 0 F32, 1 S16. -/
def Cmd.mOut (c : Cmd) : Nat := bits c.w3 15 2
/-- ACC_FMT: 0 none, 1 S16, 2 F32. -/
def Cmd.mAccFmt (c : Cmd) : Nat := bits c.w3 32 2
def Cmd.mPitchC (c : Cmd) : Nat := 64 * bits c.w3 34 12
def Cmd.mRows (c : Cmd) : Nat := bits c.w3 46 7 + 1
def Cmd.mCols (c : Cmd) : Nat := bits c.w3 53 7 + 1

/-- An operand as stored: the field at bit `lo` of word 2, with its row pitch in bytes. A transposed base has
its low six bits taken as 0 (R135). -/
structure MatOperand where
  space : Nat
  base : Nat
  b8 : Bool
  blk : Nat
  trans : Bool
  aux : Nat
  pitch : Nat
  misaligned : Bool
  deriving DecidableEq, Repr

/-- The operand of a command at bit `lo`. -/
def matOperand (x : Ctx) (c : Cmd) (lo pitch : Nat) : MatOperand :=
  let a := x.addr c.w2 lo
  let tr := bitOf c.w2 (lo + 18)
  { space := dieSpace x.die, base := if tr then a / 64 * 64 else a, b8 := bitOf c.w2 (lo + 15)
    blk := bits c.w2 (lo + 16) 2, trans := tr, aux := x.reg (bits c.w2 lo 5 + 1), pitch := pitch
    misaligned := tr && decide (a % 64 ≠ 0) }

/-- Stored element (r, k) of an operand as F32 (R131, R176, R177): each stored row starts a new block. -/
def MatOperand.elem (o : MatOperand) (s : State) (r k : Nat) : Calc F32 :=
  if o.b8 then
    let b := blockSize o.blk
    b8ToF32 (readB8 s o.space (o.base + r * o.pitch + k)) (readExp s o.space (o.aux + r * (o.pitch / b) + k / b))
  else do
    let a := o.base + r * o.pitch + 2 * k
    noteNonfinite (poisonedAt s o.space a)
    return s16ToF32 (readS16 s o.space a)

/-- The operand presented as `rows` × `cols`, through the transposing path where TRANS is set (R48, R134). -/
def MatOperand.present (o : MatOperand) (s : State) (rows cols : Nat) : Calc (List (List F32)) := do
  if o.trans then
    let st ← (List.range cols).mapM fun r => (List.range rows).mapM fun k => o.elem s r k
    return (List.range rows).map fun i => st.map fun row => row.getD i 0
  else (List.range rows).mapM fun r => (List.range cols).mapM fun k => o.elem s r k

/-- The ranges an operand presented as `rows` × `cols` reads. -/
def MatOperand.ranges (o : MatOperand) (rows cols : Nat) : List Range :=
  let sr := if o.trans then cols else rows
  let sc := if o.trans then rows else cols
  (List.range sr).flatMap fun r =>
    ⟨o.space, o.base + r * o.pitch, sc * (if o.b8 then 1 else 2)⟩ ::
      (if o.b8 then [⟨o.space, o.aux + r * (o.pitch / blockSize o.blk), ceilDiv sc (blockSize o.blk)⟩] else [])

/-- One output element: the accumulate input plus the tree sums of blocks of 32 products, in ascending k
(R47). -/
def dotProduct (acc : F32) (as bs : List F32) : Calc F32 := do
  let ps ← (as.zip bs).mapM fun ab => fmul ab.1 ab.2
  chunkedSum 5 acc ps

/-- Occupancy and latency of a product (R204). -/
def matTimes (k : Nat) (f32 trans : Bool) : Nat × Nat :=
  let n := 32 * ceilDiv k 32
  (n, n + (if f32 then 72 else 56) + (if trans then 8 else 0))

/-- A matrix product (R47, R131, R177). -/
def matrixWork (x : Ctx) (c : Cmd) (s : State) : OpResult :=
  let a := matOperand x c 0 c.mPitchA
  let b := matOperand x c 19 c.mPitchB
  let f32 := c.mOut == 0
  let sp := dieSpace x.die
  let cBase := x.addr c.w3 0
  let accBase := x.addr c.w3 17
  let run : Calc (List WriteBack) := do
    let am ← a.present s c.mRows c.mK
    let bm ← b.present s c.mK c.mCols
    let bcols := (List.range c.mCols).map fun j => bm.map fun row => row.getD j 0
    (am.zipIdx).mapM fun ri => do
      let i := ri.2
      let row ← (bcols.zipIdx).mapM fun cj => do
        let j := cj.2
        let ea := accBase + i * c.mPitchC + j * (if c.mAccFmt = 1 then 2 else 4)
        noteNonfinite (c.mAccFmt != 0 && poisonedAt s sp ea)
        let acc := if c.mAccFmt = 0 then 0 else if c.mAccFmt = 1 then s16ToF32 (readS16 s sp ea) else readF32 s sp ea
        let v ← dotProduct acc ri.1 cj.1
        if f32 then return f32Le v
        else
          let r := (Rounding.mk c.grad x.step 1 c.streamInst (x.tid c)).at (x.elemBase c + i * x.rowLength c + j)
          return s16Le (← f32ToS16 r v)
      return ⟨cell sp (cBase + i * c.mPitchC), row.flatten⟩
  let r := run.run {}
  let fl := r.2
  let tm := matTimes c.mK f32 (a.trans || b.trans)
  let u := unitOf 0x21 (8 * x.die + bits x.tag 12 8 / 8)
  { occ := tm.1, lat := some tm.2
    reads := a.ranges c.mRows c.mK ++ b.ranges c.mK c.mCols ++
      (if c.mAccFmt = 0 then [] else (List.range c.mRows).map fun i =>
        ⟨sp, accBase + i * c.mPitchC, c.mCols * (if c.mAccFmt = 1 then 2 else 4)⟩)
    writes := r.1, fl := fl, fmt := if f32 then fmtF32 else fmtS16, extent := c.mRows * c.mCols
    counts := [⟨F.mx_TILES_DONE, u, 0, 1⟩, ⟨F.mx_BUSY_CYCLES, u, 0, tm.1⟩, ⟨F.mx_UNDERFLOWS, u, 0, fl.unders⟩,
      ⟨F.mx_OVERFLOW_ELEMS, u, 0, fl.overs⟩, ⟨F.mx_NONFINITE_CMDS, u, 0, b2n fl.nonfinite⟩,
      ⟨F.mx_MARKERS_READ, u, 0, fl.markers⟩, ⟨F.mx_TRANSPOSE_MISALIGN, u, 0, b2n (a.misaligned || b.misaligned)⟩] }

/-- MATRIX_PRODUCT (R177). -/
def execMatrixProduct (q : SeqId) (s : State) : Host.Outcome State Fault Refusal :=
  .next (streamCmd q 2 0 (fun c t _ s => engineCmd q matrixWork c t s) s)

end Sys2Proof.Machine
end

