-- ==== Sys2Proof/Machine/Pages.lean ====
section
/-! DEFINITION. The register pages: the directory (R344, R345), which copy of a field a register shows
(R346, the window fields of each page), the clears of R352 and R353, and expert control (R355, R356). -/

namespace Sys2Proof.Machine

open Sys2Proof

/-! ### The directory (R345) -/

/-- Every listed page in directory order. -/
def allPages (v : Variant) : List Nat :=
  (pageCounts v).flatMap fun tc => (List.range tc.2).map fun i => unitOf tc.1 i

/-- The page at a BAR0 offset: entry e stands at page index e + 1 (R344, R345, DEDUCED, log 21). -/
def pageAt (v : Variant) (off : Nat) : Option Nat :=
  if off < 4096 then none else (allPages v)[off / 4096 - 1]?

/-- A register of the directory page. -/
def dirWord (v : Variant) (off : Nat) : Nat :=
  if off = 0 then (allPages v).length + 2 ^ 16
  else if off < 0x40 then 0
  else
    let e := (off - 0x40) / 8
    match (allPages v)[e]? with
    | some u => unitPage u + unitInst u * 2 ^ 8 + (e + 1) * 2 ^ 24 + 2 ^ 63
    | none => 0

/-! ### Commands that are accesses to a page (R325, R348, R370) -/

/-- The host reaches the part's BARs: the endpoint is powered, out of PERST_N and in D0. -/
def hostUp (s : State) : Bool := decide (s.stage ≠ .noAux) && decide (s.stage ≠ .standby) && !s.perst && !s.d3hot

/-- The main domain is out of reset. -/
def mainRuns (s : State) : Bool :=
  decide (s.stage = .locking) || decide (s.stage = .clocked) || decide (s.stage = .unlocked)

/-- A listed page of a part whose clocks run. -/
def livePage (s : State) (u : Nat) : Bool := decide (s.stage = .clocked) && (allPages s.variant).contains u

/-- A register write of an agent reaches page `u`: the host's only while its BARs answer. -/
def agentReaches (s : State) (a : Agent) (u : Nat) : Bool := livePage s u && (decide (a = .firmware) || hostUp s)

/-- An access to page `u`: what its 4-byte latches hold ends (R348). -/
def pageAccess (u : Nat) (s : State) : State :=
  { s with latches := s.latches.filter fun kv => kv.1 != (allPages s.variant).idxOf u + 1 }

/-! ### Fields by number -/

/-- Every field of the map. -/
def allFields : List Field :=
  fieldsCommon ++ fieldsIdentity ++ fieldsCommit ++ fieldsClock ++ fieldsPower ++ fieldsArrayDie ++ fieldsArrayGroup ++
  fieldsDigitalDie ++ fieldsMatrix ++ fieldsVector ++ fieldsRow ++ fieldsScratchpad ++ fieldsSequencer ++ fieldsMemCtl ++
  fieldsPort ++ fieldsExchange ++ fieldsControl ++ fieldsHost ++ fieldsShelf ++ fieldsHealth ++ fieldsResilience ++
  fieldsQuery ++ fieldsFault

/-- The field of a number. -/
def fieldOf (fid : Nat) : Option Field := allFields.find? fun f => f.fid == fid

/-! ### Which copy a register shows -/

/-- The physical array that the windows of a group page address: the one ARRAY names, or the spare that SPARE_SEL
puts in its place (R114, R115). -/
def arraySel (s : State) (inst : Nat) : Nat × Nat :=
  let die := inst / 16
  if rdb s F.ad_ENABLE die 0 && rd s F.ad_GROUP die 0 == inst % 16 then (die, rd s F.ad_SPARE_PHYS die 0)
  else (die, physOf s die (64 * (inst % 16) + rd s F.ag_ARRAY inst 0))

/-- The place of element `e` of register `r` of field `f` on page `u`, as the page's windows stand. -/
def place (s : State) (f : Field) (u r e : Nat) : Nat × Nat :=
  let i := unitInst u
  let a := arraySel s i
  let inArr (sub : Nat) : Nat × Nat := (arrayUnit a.1, arrIdx a.2 sub)
  match f.win with
  | .page => (u, 0)
  | .elem => (u, r * f.per + e)
  | .arr => inArr 0
  | .arrSlot => inArr (r * f.per + e)
  | .conv => inArr (rd s F.ag_CONVERTER i 0)
  | .slice => inArr (4 * rd s F.ag_CONVERTER i 0 + r)
  | .col => inArr (rd s F.ag_COLUMN i 0)
  | .row => inArr (128 * rd s F.ag_ROW_BLOCK i 0 + r * f.per + e)
  | .remap => (u, 64 * rd s F.ad_REMAP_BLOCK i 0 + r * f.per + e)
  | .seq => (u, rd s F.sq_SEQ_SEL i 0)
  | .seqReg => (u, 32 * rd s F.sq_SEQ_SEL i 0 + rd s F.sq_ADDR_SEL i 0)
  | .queue => (u, rd s F.sq_QUEUE_SEL i 0)
  | .endpoint => (u, rd s F.qe_EP_SEL i 0)
  | .bucket => (u, rd s F.ex_BUCKET_SEL i 0)
  | .bucketRank => (u, 64 * r + e)
  | .layer => (u, rd s F.he_LAYER_SEL i 0)
  | .zone => (u, rd s F.pt_ZONE_SEL i 0)
  | .ring => (u, rd s F.hi_RING_SEL i 0)
  | .log => (u, rd s F.fa_LOG_SEL i 0)
  | .sensor => (u, rd s F.pw_SENSOR_SEL i 0)
  | .larder => (u, rd s F.re_ENTRY i 0)

/-- A field shown by a register: the field, its bit and its place. -/
structure Slot where
  f : Field
  bit : Nat
  unit : Nat
  idx : Nat
  deriving DecidableEq, Repr

/-- The fields of the register at offset `off` of page `u`. -/
def slotsAt (s : State) (u off : Nat) : List Slot :=
  (pageFields (unitPage u)).flatMap fun f =>
    if f.off ≤ off ∧ off < f.off + 8 * f.regs then
      let r := (off - f.off) / 8
      (List.range f.per).filterMap fun e =>
        let p := place s f u r e
        if f.fid = F.sq_SWITCH_STG.fid ∧ 153 ≤ p.2 then none else some ⟨f, f.lo + e * f.stride, p.1, p.2⟩
    else []

/-! ### Counter clears (R352, R353) -/

/-- A stored field belongs to page `u`: to the page itself, or for an array's field to the group the array
serves (R51). -/
def onPage (s : State) (u : Nat) (k : FKey) : Bool :=
  k.unit == u || (unitPage u == 0x11 && unitPage k.unit == 0x10 && (match fieldOf k.fid with
    | some f => f.page == 0x11 && pageOf s f k.unit k.idx == u
    | none => false))

/-- Clears the fields of page `u` that `p` picks, back to their reset value. -/
def clearFields (u : Nat) (p : Field → FKey → Bool) (s : State) : State :=
  { s with flds := s.flds.filter fun kv => match fieldOf kv.1.fid with
    | some f => !(p f kv.1 && onPage s u kv.1)
    | none => true }

/-- The SAT bits of the counters of page `u` that still stand at their maximum (R353). -/
def keepSat (u : Nat) (s : State) : State :=
  s.flds.foldl (fun s kv => match fieldOf kv.1.fid with
    | some f => if kv.1.unit = u ∧ f.acc = .sat ∧ kv.2 = fieldMax f then setSat f u s else s
    | none => s) s

/-- CNT_CLEAR of a page: every SAT field in every window, and the SAT bits (R352, R353); on the query endpoint
page of every endpoint, the selected one among them (R223, R352) (DEDUCED, log 77). -/
def cntClear (u : Nat) (s : State) : State :=
  let s := clearFields u (fun f _ => f.acc == .sat) s
  let s := keepSat u (wrU F.com_SAT_LO u 0 0 (wrU F.com_SAT_HI u 0 0 (wrU F.com_SAT_TBL u 0 0 s)))
  if unitPage u = 0x25 then wr F.sq_TRACKER_HIGH (unitInst u) 0 (rd s F.sq_TRACKER_OUT (unitInst u) 0) s else s

/-! ### Expert control (R355, R356) -/

/-- A basic field's value that is an expert encoding: PRESET and BAND_PRESET 0b11 (R89, R97). -/
def expertCode (f : Field) (v : Nat) : Bool :=
  (f.fid == F.ad_PRESET.fid || f.fid == F.ag_BAND_PRESET.fid) && v == 3

/-- A field other chapters make conditional on EXPERT_EN: GUARD_POLICY (R197). -/
def conditional (f : Field) : Bool := f.fid == F.sq_GUARD_POLICY.fid

/-- An expert tuning field: RW at 0x800 to 0xFFF. -/
def expertField (f : Field) : Bool := decide (0x800 ≤ f.off)

/-- A bin of the die runs in PI_BACKWARD (R127). -/
def piRunning (s : State) (die : Nat) : Bool :=
  (List.range 153).any fun n =>
    (rd s F.sq_STATE die n == 1 || rd s F.sq_STATE die n == 2) &&
      (match smFind ((die * 153 + n) * 2 + rd s F.sq_PC_BIN die n) s.bins with
        | some b => b.piBackward
        | none => false)

/-- EXPERT_ACTIVE of a page (R356) (DEDUCED, log 45). -/
def expertActive (s : State) (u : Nat) : Bool :=
  rdU s F.com_EXPERT_EN u 0 == 1 ||
  s.flds.any (fun kv => kv.1.unit == u && (match fieldOf kv.1.fid with
    | some f => ((expertField f || conditional f) && kv.2 != resetVal s.variant f kv.1.unit kv.1.idx) || expertCode f kv.2
    | none => false)) ||
  (unitPage u == 0x20 && piRunning s (unitInst u))

/-- EXPERT_RESTORE (R355): the expert fields, the basic fields that hold an expert encoding and the conditional
fields return to their reset values. -/
def expertRestore (u : Nat) (s : State) : State :=
  { s with flds := s.flds.filter fun kv => match fieldOf kv.1.fid with
    | some f => !(kv.1.unit == u && f.acc == .rw && (expertField f || conditional f || expertCode f kv.2))
    | none => true }

/-! ### Register words -/

/-- The value of a register from the stored current values. -/
def storedWord (s : State) (u off : Nat) : Nat :=
  (slotsAt s u off).foldl (fun w x => w + (rdU s x.f x.unit x.idx % 2 ^ x.f.width) * 2 ^ x.bit) 0

/-- The shape signature (R191). -/
def signature (s : State) : Nat :=
  (crc64 ((allPages s.variant).flatMap fun u =>
    [0x08, 0x10, 0x18, 0x20].flatMap fun off => natLe 8 (storedWord s u off))).toNat

end Sys2Proof.Machine
end

