-- ==== Sys2Proof/Machine/Row.lean ====
section
/-! DEFINITION. The row engines and the larder (R140 to R151, R179, R181, R206): normalisation and
soft-maximum rows forward and backward, and merged rows of sequence-split mode. -/

namespace Sys2Proof.Machine

open Sys2Proof

/-! ### Payload fields (R179) and the row configuration (R181) -/

def Cmd.rLen (c : Cmd) : Nat := bits c.w1 43 16 + 1
def Cmd.rSave (c : Cmd) : Bool := bitOf c.w1 59
def Cmd.rRms (c : Cmd) : Bool := bitOf c.w1 60
def Cmd.rStash (c : Cmd) : Bool := bitOf c.w1 61
def Cmd.rRows (c : Cmd) : Nat := bits c.w2 42 16 + 1
def Cmd.rKey (c : Cmd) : Nat := bits c.w3 21 16
def Cmd.rEntry (c : Cmd) : Nat := bits c.w3 37 19

/-- ε (R143). -/
def Ctx.rowEps (x : Ctx) : F32 := BitVec.ofNat 32 (bits x.row2 0 32)

/-- The row engine's page unit. -/
def rowUnit (x : Ctx) : Nat := unitOf 0x23 (8 * x.die + (bits x.tag 12 8 - 80))

/-- The larder entry of row `r` (R146). -/
def larderIdx (c : Cmd) (r : Nat) : Nat := (c.rEntry + r) % 524288

/-- Row `r` of a stream of rows of `n` elements: rows lie at a pitch of their length rounded up to 64 bytes
(R179). The exponent plane's pitch is that of as many elements (DEDUCED, log 14). -/
def Stream.row (d : Stream) (n r : Nat) : Stream :=
  let pitch := ceilDiv (n * elemBytes d.fmt) 64 * 64
  { d with base := d.base + r * pitch, aux := d.aux + r * ceilDiv pitch (blockSize d.blk) }

/-- The ranges of `rows` rows. -/
def Stream.rowRanges (d : Stream) (n rows : Nat) : List Range := (List.range rows).flatMap fun r => (d.row n r).ranges n

/-- The sum of a row in its fixed order (R141). -/
def rowSum (xs : List F32) : Calc F32 := chunkedSum 7 0 xs

/-- A sum divided by the row length. -/
def rowMean (xs : List F32) : Calc F32 := do fdiv (← rowSum xs) (natToF32 xs.length)

/-- μ and ρ of a normalisation row (R143). -/
def normStats (rms : Bool) (eps : F32) (xs : List F32) : Calc (F32 × F32) := do
  let mu ← if rms then pure 0 else rowMean xs
  let sq ← xs.mapM fun v => do
    let d ← if rms then pure v else fsub v mu
    fmul d d
  let v ← rowMean sq
  let rho ← frsqrt (← fadd v eps)
  return (mu, rho)

/-- The largest of a row, exact and without status (R141). -/
def rowMax (xs : List F32) : F32 := xs.foldl (fun m v => (fmax m v).val) 0xFF800000#32

/-- exp32(x − m); a masked element, at −∞ under a finite maximum, gives +0 and no status (R142). -/
def expTerm (m v : F32) : Calc F32 :=
  if v = 0xFF800000#32 ∧ f32Finite m then return 0 else do exp32 (← fsub v m)

/-- A fully masked row: every element is −∞ (R145). -/
def fullyMasked (xs : List F32) : Bool := xs.all (· == 0xFF800000#32)

/-- m and s of a soft-maximum row (R145). -/
def softStats (xs : List F32) : Calc (F32 × F32) := do
  if fullyMasked xs then return (0xFF800000#32, 0)
  else
    let m := rowMax xs
    let s ← rowSum (← xs.mapM (expTerm m))
    return (m, s)

/-- p_i of a soft-maximum row; a row with statistics (−∞, +0) gives +0 throughout (R145). -/
def softProbs (st : F32 × F32) (xs : List F32) : Calc (List F32) :=
  if st.1 = 0xFF800000#32 ∧ st.2 = 0 then return xs.map fun _ => 0
  else xs.mapM fun v => do fdiv (← expTerm st.1 v) st.2

/-- Ranks in the split group in force: 2 to 256 (R149, DESIGN CHOICE, log 12). -/
def splitRanks (s : State) : Nat := min (max s.job.split.length 2) 256

/-- The merge of a row's staged partials in ascending split rank (R150). -/
def mergeFold : List (F32 × F32) → F32 × F32 → Calc (F32 × F32)
  | [], ms => return ms
  | (mr, sr) :: rest, (m, s) =>
    if f32IsZero sr then mergeFold rest (m, s)
    else if m = 0xFF800000#32 then mergeFold rest (mr, sr)
    else do
      let mn := (fmax m mr).val
      let a ← fmul s (← exp32 (← fsub m mn))
      let b ← fmul sr (← exp32 (← fsub mr mn))
      mergeFold rest (mn, ← fadd a b)

/-- The staged partials of row `r` (R149): 8 bytes each at 8 × (R × row + rank) of the staging region, which lies in device
memory, where remote writes land (DEDUCED, log 138). -/
def stagedPartials (s : State) (x : Ctx) (r : Nat) : List (F32 × F32) :=
  let n := splitRanks s
  let base := x.addr x.row3 21
  (List.range n).map fun k =>
    let a := base + 8 * (n * r + k)
    (readF32 s memSpace a, readF32 s memSpace (a + 4))

/-- The staging region a command of `rows` rows reads. -/
def stagingRange (s : State) (x : Ctx) (rows : Nat) : Range :=
  ⟨memSpace, x.addr x.row3 21, 8 * splitRanks s * rows⟩

/-! ### A row's work -/

/-- What one row comes to. -/
structure RowOut where
  writes : List WriteBack := []
  larder : List LarderWrite := []
  passes : Nat := 0
  /-- Cycles of a re-merge in place of extra passes (R206). -/
  remerge : Nat := 0
  hit : Bool := false
  missInvalid : Bool := false
  missKey : Bool := false
  mergeMiss : Bool := false
  merges : Nat := 0
  fallback : Nat := 0
  dgamma : List F32 := []
  dbeta : List F32 := []
  /-- The row's partial for the staging regions (R149). -/
  stage : Option (F32 × F32) := none
  deriving DecidableEq, Repr

/-- A saved larder entry (R146). -/
def saved (x : Ctx) (c : Cmd) (r : Nat) (st : F32 × F32) (merged : Nat) : LarderWrite :=
  { unit := rowUnit x, entry := larderIdx c r, statA := st.1.toNat, statB := st.2.toNat, key := c.rKey, merged := merged }

/-- A stash in the source format: the bits are moved (R23, R143). -/
def stashMove (a d : Stream) (s : State) (n : Nat) : List WriteBack :=
  ⟨cell d.space d.base, (((List.range n).mapM (movedElem a s)).run {}).1.flatten⟩ ::
    (if a.fmt = fmtB8 then
      [⟨cell d.space d.aux, (List.range (ceilDiv n (blockSize a.blk))).map fun i =>
        BitVec.ofNat 8 (readExp s a.space (a.aux + i))⟩] else [])

/-- A stash in another format: the values converted, and what is written. An element at −∞ that the format keeps sets no
status where `masked` says that the row is one of a soft maximum (R142, R145). -/
def stashConvert (d : Stream) (s : State) (masked : Bool) (xs : List F32) : Calc (List F32 × List WriteBack) := do
  let quiet := masked && d.fmt != fmtB8
  let ys := if quiet then xs.map fun v => if v = 0xFF800000#32 then 0 else v else xs
  let o ← d.write s (fun _ => .ne) false ys
  let p := if quiet then ((d.write s (fun _ => .ne) false xs).run {}).1 else o
  return (p.back, p.writes)

/-- x of row `r`, converted to its stash format first where the command stashes it (R143); `soft`: the row is one of a
soft maximum. -/
def rowInput (x : Ctx) (c : Cmd) (s : State) (soft : Bool) (r : Nat) : Calc (List F32 × List WriteBack) := do
  let n := c.rLen
  let a := (x.stream c.w2 0).row n r
  let d := (x.stream x.row3 0).row n r
  let xs ← a.elems s n
  if !c.rStash then return (xs, [])
  else if d.fmt = a.fmt ∧ (a.fmt ≠ fmtB8 ∨ a.blk = d.blk) then return (xs, stashMove a d s n)
  else stashConvert d s soft xs

/-- γ and β of column `i` (R181). -/
def gammaAt (x : Ctx) (s : State) (n i : Nat) : F32 × F32 :=
  let a := x.addr x.row2 32
  (s16ToF32 (readS16 s (dieSpace x.die) (a + 2 * i)), s16ToF32 (readS16 s (dieSpace x.die) (a + 2 * n + 2 * i)))

/-- NORM_FWD of a row (R143). -/
def normFwdRow (x : Ctx) (c : Cmd) (s : State) (r : Nat) : Calc RowOut := do
  let n := c.rLen
  let (xs, sw) ← rowInput x c s false r
  let st ← normStats c.rRms x.rowEps xs
  let ys ← xs.zipIdx.mapM fun vi => do
    let g := gammaAt x s n vi.2
    fadd (← fmul (← fmul (← fsub vi.1 st.1) st.2) g.1) g.2
  let o ← ((x.stream c.w2 21).row n r).write s (fun _ => .ne) false ys
  return { writes := sw ++ o.writes, larder := if c.rSave then [saved x c r st 0] else []
           passes := if c.rRms then 2 else 3 }

/-- A soft-maximum command stages the partials of its rows (R149): a split group is in force and the row configuration names a
staging region that does not hold the forward's partials for a re-merge (DEDUCED, log 138). -/
def stages (x : Ctx) (s : State) : Bool := !s.job.split.isEmpty && bits x.row3 21 15 != 0 && !bitOf x.row3 36

/-- SOFTMAX_FWD of a row (R145), with its partial statistics where they are saved for a merge (R149). -/
def softFwdRow (x : Ctx) (c : Cmd) (s : State) (r : Nat) : Calc RowOut := do
  let n := c.rLen
  let (xs, sw) ← rowInput x c s true r
  let st ← softStats xs
  let ps ← softProbs st xs
  let o ← ((x.stream c.w2 21).row n r).write s (fun _ => .ne) false ps
  return { writes := sw ++ o.writes, larder := if c.rSave then [saved x c r st 0] else [], passes := 3
           stage := if c.rSave && stages x s then some st else none }

/-- The larder entry of row `r`: its statistics, whether it hits, and whether it is merged (R148). -/
structure LarderRead where
  hit : Bool
  valid : Bool
  merged : Bool
  stats : F32 × F32
  deriving DecidableEq, Repr

/-- Reads it. -/
def larderRead (x : Ctx) (c : Cmd) (s : State) (r : Nat) : LarderRead :=
  let u := rowUnit x
  let e := larderIdx c r
  let v := rdU s F.re_TAG_VALID u e == 1
  { valid := v, hit := v && rdU s F.re_TAG_KEY u e == c.rKey, merged := rdU s F.re_TAG_MERGED u e == 1
    stats := (BitVec.ofNat 32 (rdU s F.re_STAT_A u e), BitVec.ofNat 32 (rdU s F.re_STAT_B u e)) }

/-- The rounding of a row engine's gradient output: kind 0x2 (R37, R144). -/
def rowRound (x : Ctx) (c : Cmd) (r i : Nat) : Rnd :=
  (Rounding.mk c.grad x.step 2 c.streamInst (x.tid c)).at (x.elemBase c + r * x.rowLength c + i)

/-- NORM_BWD of a row (R144), with the fall-back of R148. -/
def normBwdRow (x : Ctx) (c : Cmd) (s : State) (dg db : List F32) (r : Nat) : Calc RowOut := do
  let n := c.rLen
  let xs ← ((x.stream c.w2 0).row n r).elems s n
  let dy ← ((x.stream c.w3 0).row n r).elems s n
  let l := larderRead x c s r
  let st ← if l.hit then pure l.stats else normStats c.rRms x.rowEps xs
  let xh ← xs.mapM fun v => do fmul (← fsub v st.1) st.2
  let g ← dy.zipIdx.mapM fun vi => fmul vi.1 (gammaAt x s n vi.2).1
  let a ← if c.rRms then pure 0 else rowMean g
  let b ← rowMean (← (g.zip xh).mapM fun p => fmul p.1 p.2)
  let dx ← (g.zip xh).mapM fun p => do fmul st.2 (← fsub (← fsub p.1 a) (← fmul p.2 b))
  let dg' ← (dg.zip (dy.zip xh)).mapM fun p => do fadd p.1 (← fmul p.2.1 p.2.2)
  let db' ← if c.rRms then pure db else (db.zip dy).mapM fun p => fadd p.1 p.2
  let o ← ((x.stream c.w2 21).row n r).write s (rowRound x c r) false dx
  return { writes := o.writes, passes := 2 + (if l.hit then 0 else if c.rRms then 1 else 2), hit := l.hit
           missInvalid := !l.valid, missKey := l.valid && !l.hit, fallback := if l.hit then 0 else n
           dgamma := dg', dbeta := db' }

/-- The sum that MERGE_C left for row `r`'s entry under the command's key (R151, DESIGN CHOICE, log 13). -/
def heldSum (x : Ctx) (c : Cmd) (s : State) (r : Nat) : Option F32 :=
  (smFind (rowUnit x * 2 ^ 20 + larderIdx c r) s.mergedC).bind fun v =>
    if v.1 = c.rKey then some (BitVec.ofNat 32 v.2) else none

/-- The sum c a merged row is formed with (R151, DESIGN CHOICE, log 13). -/
def mergedSum (x : Ctx) (c : Cmd) (s : State) (r : Nat) (own : F32) : F32 :=
  (heldSum x c s r).getD (Config.unsummedC own.toNat)

/-- SOFTMAX_BWD of a row (R145), with the fall-back of R148 and the merged rows of R151. A row that hits is merged when
its entry says so; one that misses is merged when the command names a retained staging region or a split group is in
force (DEDUCED, log 139). A merged row without its sum yet stages its own c_r (R149, R151). -/
def softBwdRow (x : Ctx) (c : Cmd) (s : State) (r : Nat) : Calc RowOut := do
  let n := c.rLen
  let xs ← ((x.stream c.w2 0).row n r).elems s n
  let dp ← ((x.stream c.w3 0).row n r).elems s n
  let l := larderRead x c s r
  let retained := bitOf x.row3 36
  let base : RowOut := { hit := l.hit, missInvalid := !l.valid, missKey := l.valid && !l.hit }
  if !l.hit ∧ !s.job.split.isEmpty ∧ !retained then do
    noteNonfinite true
    let o ← ((x.stream c.w2 21).row n r).write s (rowRound x c r) false (xs.map fun _ => f32Nan)
    return { base with writes := o.writes, passes := 2, mergeMiss := true }
  else do
    let remerge := !l.hit && retained
    let st ← if l.hit then pure l.stats
      else if remerge then mergeFold (stagedPartials s x r) (0xFF800000#32, 0) else softStats xs
    let ps ← softProbs st xs
    let masked := st.1 == 0xFF800000#32 && st.2 == 0
    let merged := if l.hit then l.merged else remerge
    let own ← if masked then pure (0 : F32) else rowSum (← (ps.zip dp).mapM fun p => fmul p.1 p.2)
    let dx ← if masked then pure (xs.map fun _ => (0 : F32)) else do
      let cc := if merged then mergedSum x c s r own else own
      (ps.zip dp).mapM fun p => do fmul p.1 (← fsub p.2 cc)
    let o ← ((x.stream c.w2 21).row n r).write s (rowRound x c r) false dx
    return { base with writes := o.writes, passes := if l.hit ∨ remerge then 2 else 4
                       stage := if merged && stages x s && (heldSum x c s r).isNone then some (own, 0) else none
                       remerge := if remerge then 4 * splitRanks s + 8 else 0
                       merges := b2n remerge, fallback := if l.hit ∨ remerge then 0 else n }

/-- MERGE of a row (R150). -/
def mergeRow (x : Ctx) (c : Cmd) (s : State) (r : Nat) : Calc RowOut := do
  let st ← mergeFold (stagedPartials s x r) (0xFF800000#32, 0)
  return { larder := [saved x c r st 1], merges := 1 }

/-- MERGE_C of a row: the staged partials c summed in ascending split rank, kept for the entry (R151,
DESIGN CHOICE, log 13). -/
def mergeCRow (x : Ctx) (c : Cmd) (s : State) (r : Nat) : Calc RowOut := do
  let cs := (stagedPartials s x r).map (·.1)
  let v ← cs.foldlM fadd (0 : F32)
  return { larder := [{ saved x c r (0, 0) 1 with sumC := some v.toNat }] }

/-! ### The whole command -/

/-- The accumulators dγ and dβ at the start of a command (R144, R181): F32, or S16. -/
def readAccums (x : Ctx) (s : State) (n k : Nat) : List F32 :=
  let a := x.addr x.row2 47
  let sp := dieSpace x.die
  (List.range n).map fun i =>
    if bits x.row2 62 2 = 1 then s16ToF32 (readS16 s sp (a + 2 * (n * k + i))) else readF32 s sp (a + 4 * (n * k + i))

/-- The bytes of the accumulators at the end: dβ follows dγ. In S16, dγ takes the mixer's element indices of row 0 and dβ those
of row 1, with dx's tensor identifier (DEDUCED, log 15). -/
def writeAccums (x : Ctx) (c : Cmd) (k : Nat) (vs : List F32) : Calc WriteBack := do
  let a := x.addr x.row2 47
  let sp := dieSpace x.die
  let n := vs.length
  if bits x.row2 62 2 = 1 then
    let ys ← vs.zipIdx.mapM fun vi => f32ToS16 (rowRound x c k vi.2) vi.1
    return ⟨cell sp (a + 2 * (n * k)), ys.flatMap s16Le⟩
  else return ⟨cell sp (a + 4 * (n * k)), vs.flatMap f32Le⟩

/-- The rows of NORM_BWD, accumulators running over them in ascending order. -/
def normBwdRows (x : Ctx) (c : Cmd) (s : State) : Calc (List RowOut) := do
  let n := c.rLen
  let dg0 := readAccums x s n 0
  let db0 := readAccums x s n 1
  let r ← (List.range c.rRows).foldlM (fun (acc : List RowOut × List F32 × List F32) i => do
    let o ← normBwdRow x c s acc.2.1 acc.2.2 i
    return (acc.1 ++ [{ o with dgamma := [], dbeta := [] }], o.dgamma, o.dbeta)) ([], dg0, db0)
  let wg ← writeAccums x c 0 r.2.1
  let wb ← if c.rRms then pure [] else do pure [← writeAccums x c 1 r.2.2]
  return r.1 ++ [{ writes := wg :: wb }]

/-- The ranges a row command reads. -/
def rowReads (op : Nat) (x : Ctx) (c : Cmd) (s : State) : List Range :=
  let n := c.rLen
  let sp := dieSpace x.die
  let xr := (x.stream c.w2 0).rowRanges n c.rRows
  let dr := (x.stream c.w3 0).rowRanges n c.rRows
  let gr : List Range := [⟨sp, x.addr x.row2 32, if c.rRms ∧ op = 1 then 2 * n else 4 * n⟩]
  let ar : List Range := [⟨sp, x.addr x.row2 47, (if bits x.row2 62 2 = 1 then 2 else 4) * n * (if c.rRms then 1 else 2)⟩]
  match op with
  | 0 => xr ++ gr
  | 1 => xr ++ dr ++ gr ++ ar
  | 2 => xr
  | 3 => xr ++ dr ++ (if bitOf x.row3 36 then [stagingRange s x c.rRows] else [])
  | _ => [stagingRange s x c.rRows]

/-- The rows of operation `op` (R179). -/
def rowOuts (op : Nat) (x : Ctx) (c : Cmd) (s : State) : Calc (List RowOut) :=
  match op with
  | 0 => (List.range c.rRows).mapM (normFwdRow x c s)
  | 1 => normBwdRows x c s
  | 2 => (List.range c.rRows).mapM (softFwdRow x c s)
  | 3 => (List.range c.rRows).mapM (softBwdRow x c s)
  | 4 => (List.range c.rRows).mapM (mergeRow x c s)
  | _ => (List.range c.rRows).mapM (mergeCRow x c s)

/-- Occupancy of a row command (R206). -/
def rowOccupancy (op : Nat) (c : Cmd) (s : State) (rows : List RowOut) : Nat :=
  let p := ceilDiv c.rLen 128
  let ranks := splitRanks s
  if op = 4 then c.rRows * (8 + 4 * ranks)
  else if op = 5 then c.rRows * (8 + ranks)
  else ((rows.take c.rRows).map fun r => r.passes * p + 8 + r.remerge).sum

/-- The place of row `r`'s partial of this rank in a staging region (R149). -/
def stageAddr (s : State) (x : Ctx) (r : Nat) : Nat :=
  x.addr x.row3 21 + 8 * (splitRanks s * r + s.job.split.idxOf (ownRank s))

/-- The partials that a command's rows stage, by address (R149, R151). -/
def stagedRows (s : State) (x : Ctx) (rows : List RowOut) : List (Nat × List Byte) :=
  rows.zipIdx.filterMap fun or => or.1.stage.map fun st => (stageAddr s x or.2, f32Le st.1 ++ f32Le st.2)

/-- The work of row operation `op` (DEDUCED, log 37). A row engine's page has no count of overflows, so they show in the token
alone (DESIGN CHOICE, log 161). -/
def rowWork (op : Nat) (x : Ctx) (c : Cmd) (s : State) : OpResult :=
  let r := (rowOuts op x c s).run {}
  let rows := r.1
  let staged := stagedRows s x rows
  let fl := r.2
  let occ := rowOccupancy op c s rows
  let u := rowUnit x
  let y := x.stream c.w2 21
  let count (f : RowOut → Bool) := (rows.filter f).length
  { occ := occ, lat := some (occ + 32), reads := rowReads op x c s
    writes := rows.flatMap (·.writes) ++ staged.map fun w => ⟨cell memSpace w.1, w.2⟩
    stage := staged
    larder := rows.flatMap (·.larder), fl := fl, fmt := if op < 4 then y.fmt else 0xF
    extent := if op < 4 then c.rRows * c.rLen else 0
    counts := [⟨F.re_ROWS_FWD, u, 0, if op = 0 ∨ op = 2 then c.rRows else 0⟩,
      ⟨F.re_ROWS_BWD, u, 0, if op = 1 ∨ op = 3 then c.rRows else 0⟩,
      ⟨F.re_LARDER_HITS, u, 0, count (·.hit)⟩, ⟨F.re_MISS_INVALID, u, 0, count (·.missInvalid)⟩,
      ⟨F.re_MISS_KEY, u, 0, count (·.missKey)⟩, ⟨F.re_FALLBACK_ELEMS, u, 0, (rows.map (·.fallback)).sum⟩,
      ⟨F.re_MERGE_MISS, u, 0, count (·.mergeMiss)⟩, ⟨F.re_MERGES, u, 0, (rows.map (·.merges)).sum⟩,
      ⟨F.re_UNDERFLOWS, u, 0, fl.unders⟩, ⟨F.re_NONFINITE_CMDS, u, 0, b2n fl.nonfinite⟩] }

/-- A row command of a row sequencer. -/
def rowCmd (q : SeqId) (op : Nat) (s : State) : State :=
  streamCmd q 4 op (fun c t _ s => engineCmd q (rowWork op) c t s) s

/-- NORM_FWD (R143). -/
def execNormFwd (q : SeqId) (s : State) : Host.Outcome State Fault Refusal := .next (rowCmd q 0 s)
/-- NORM_BWD (R144). -/
def execNormBwd (q : SeqId) (s : State) : Host.Outcome State Fault Refusal := .next (rowCmd q 1 s)
/-- SOFTMAX_FWD (R145). -/
def execSoftmaxFwd (q : SeqId) (s : State) : Host.Outcome State Fault Refusal := .next (rowCmd q 2 s)
/-- SOFTMAX_BWD (R145, R151). -/
def execSoftmaxBwd (q : SeqId) (s : State) : Host.Outcome State Fault Refusal := .next (rowCmd q 3 s)
/-- MERGE (R150). -/
def execMerge (q : SeqId) (s : State) : Host.Outcome State Fault Refusal := .next (rowCmd q 4 s)
/-- MERGE_C (R151). -/
def execMergeC (q : SeqId) (s : State) : Host.Outcome State Fault Refusal := .next (rowCmd q 5 s)

/-- LARDER_FLUSH (R147): clears every valid bit of a row engine's larder. -/
def larderFlush (unit : Nat) (s : State) : State :=
  { s with flds := s.flds.filter fun e => !(e.1.fid == F.re_TAG_VALID.fid && e.1.unit == unit)
           mergedC := s.mergedC.filter fun e => e.1 / 2 ^ 20 != unit
           oldLarder := s.oldLarder.map fun r => { r with vals := r.vals.filter fun kv => kv.1.unit != unit } }

/-- The larders of every row engine cleared (R147). -/
def larderFlushAll (s : State) : State :=
  { s with flds := s.flds.filter fun e => !(e.1.fid == F.re_TAG_VALID.fid), mergedC := [], oldLarder := [] }

end Sys2Proof.Machine
end

