-- ==== Sys2Proof/Machine/Vector.lean ====
section
/-! DEFINITION. The vector engines and reduction units (R154 to R168): one meaning for each operation code
of R159, over shared streams, permutation, segment operations, reduction, histogram and threshold. -/

namespace Sys2Proof.Machine

open Sys2Proof

/-! ### Payload fields (R178) -/

def Cmd.vMod (c : Cmd) : Nat := bits c.w1 60 4
def Cmd.vPreset (c : Cmd) : Bool := bitOf c.w3 21
def Cmd.vRedEn (c : Cmd) : Bool := bitOf c.w3 22
def Cmd.vTap (c : Cmd) : Bool := bitOf c.w3 23
def Cmd.vHistEn (c : Cmd) : Bool := bitOf c.w3 24
def Cmd.vImm (c : Cmd) : Nat := bits c.w3 32 32
/-- The immediate as F32 (R158). -/
def Cmd.vImmF (c : Cmd) : F32 := BitVec.ofNat 32 c.vImm

/-- The streams of a vector command. -/
def vA (x : Ctx) (c : Cmd) : Stream := x.stream c.w2 0
def vB (x : Ctx) (c : Cmd) : Stream := x.stream c.w2 21
def vC (x : Ctx) (c : Cmd) : Stream := x.stream c.w2 42
def vD (x : Ctx) (c : Cmd) : Stream := x.stream c.w3 0

/-- The length of a vector command and whether it was clamped (R155). -/
def vLen (x : Ctx) (c : Cmd) : Nat × Bool := x.len c.w1 43

/-- Rounding of a vector output: kind 0x2 for a gradient, else nearest even (R37, R157). -/
def vRound (x : Ctx) (c : Cmd) (p : Nat) : Rnd :=
  (Rounding.mk c.grad x.step 2 c.streamInst (x.tid c)).at (x.elemBase c + p)

/-! ### Times (R205) -/

/-- Occupancy and latency of vector operation `op` over `n` elements. -/
def vTimes (op n : Nat) (red hist : Bool) : Nat × Nat :=
  let w := ceilDiv n 256
  let add := (if red then 8 else 0) + (if hist then 16 else 0)
  if op = 0x1A then (1, 40)
  else if op = 0x1B then (w + 1, w + 44)
  else if n = 0 then (1, 20 + add)
  else if op = 0x09 ∨ op = 0x0A ∨ op = 0x0B ∨ op = 0x12 then (w, w + 28 + add)
  else if op = 0x17 ∨ op = 0x18 ∨ op = 0x19 then (w, w + 24 + add)
  else (w, w + 20 + add)

/-! ### What an operation delivers -/

/-- The planes an operation reads and writes, labelled for R156: 0 and 1 are the elements and auxiliary
plane of A, 2 and 3 of B, 4 and 5 of C, 6 and 7 of D, 8 a record, 9 a histogram. -/
structure VOut where
  tap0 : List F32 := []
  back : List F32 := []
  reads : List (Nat × Range) := []
  writes : List (Nat × WriteBack) := []
  tags : List (Nat × SegTag) := []
  extent : Nat := 0
  written : Nat := 0
  deriving DecidableEq, Repr

/-- The labelled ranges of a stream whose elements are label `l`. -/
def planes (l : Nat) (d : Stream) (n : Nat) : List (Nat × Range) :=
  (d.ranges n).zipIdx.map fun ri => (l + ri.2, ri.1)

/-- Labelled writes of an output plane. -/
def labelled (l : Nat) (ws : List WriteBack) : List (Nat × WriteBack) := ws.zipIdx.map fun wi => (l + wi.2, wi.1)

/-- The preset exponents that a B8 destination reads. -/
def presetRead (c : Cmd) (d : Stream) (n : Nat) : List (Nat × Range) :=
  if c.vPreset ∧ d.fmt = fmtB8 ∧ n ≠ 0 then [(7, ⟨d.space, d.aux, ceilDiv n (blockSize d.blk)⟩)] else []

/-- Results `ys` of a lane-by-lane operation stored to D (R157). -/
def storeLanes (x : Ctx) (c : Cmd) (s : State) (n : Nat) (reads : List (Nat × Range)) (tap0 ys : List F32) : Calc VOut := do
  let d := vD x c
  let o ← d.write s (vRound x c) c.vPreset ys
  return { tap0 := tap0, back := o.back, reads := reads ++ presetRead c d n
           writes := if n = 0 then [] else labelled 6 o.writes, extent := n }

/-- An operation of one source. -/
def lane1 (f : F32 → Calc F32) (x : Ctx) (c : Cmd) (s : State) (n : Nat) : Calc VOut := do
  let as ← (vA x c).elems s n
  let ys ← as.mapM f
  storeLanes x c s n (planes 0 (vA x c) n) as ys

/-- An operation of two sources. -/
def lane2 (f : F32 → F32 → Calc F32) (x : Ctx) (c : Cmd) (s : State) (n : Nat) : Calc VOut := do
  let as ← (vA x c).elems s n
  let bs ← (vB x c).elems s n
  let ys ← (as.zip bs).mapM fun ab => f ab.1 ab.2
  storeLanes x c s n (planes 0 (vA x c) n ++ planes 2 (vB x c) n) as ys

/-- SELECT (R159): b where a is not 0, else the immediate. The selection sets no status, and an F32
destination takes the value unconverted (DEDUCED, log 18). -/
def vSelect (x : Ctx) (c : Cmd) (s : State) (n : Nat) : Calc VOut := do
  let as ← (vA x c).elems s n
  let bs ← (vB x c).elems s n
  let ys := (as.zip bs).map fun ab =>
    let v := if f32IsZero ab.1 then c.vImmF else ab.2
    if f32IsNan v then f32Nan else v
  let reads := planes 0 (vA x c) n ++ planes 2 (vB x c) n
  let d := vD x c
  if d.fmt = fmtF32 then
    return { tap0 := as, back := ys, reads := reads
             writes := if n = 0 then [] else [(6, ⟨cell d.space d.base, ys.flatMap f32Le⟩)], extent := n }
  else storeLanes x c s n reads as ys

/-! ### Operations that move bits -/

/-- The outlier lists of the segments whose parameters lie in `n` bytes at `a`, for bytes moved to `b`. -/
def movedTags (s : State) (spaceA a n spaceB b : Nat) : List (Nat × SegTag) :=
  s.segTags.filterMap fun t =>
    if t.1 % 64 = spaceA ∧ a ≤ t.1 / 64 ∧ t.1 / 64 < a + n then some (cell spaceB (b + (t.1 / 64 - a)), t.2) else none

/-- COPY: A's bits unchanged, its auxiliary plane with them; no status of the values (R159). -/
def vCopy (x : Ctx) (c : Cmd) (s : State) (n : Nat) : Calc VOut := do
  let a := vA x c
  let d := vD x c
  let bytes ← (List.range n).mapM (movedElem a s)
  let vals := ((a.elems s n).run {}).1
  let auxLen := if a.fmt = fmtB8 then ceilDiv n (blockSize a.blk) else if a.fmt = fmtA8 then 4 * ceilDiv n 512 else 0
  let aux := readBytes s a.space a.aux auxLen
  return { tap0 := vals, back := vals, reads := planes 0 a n
           writes := if n = 0 then [] else
             labelled 6 (⟨cell d.space d.base, bytes.flatten⟩ :: (if auxLen = 0 then [] else [⟨cell d.space d.aux, aux⟩]))
           tags := if a.fmt = fmtA8 then movedTags s a.space a.aux auxLen d.space d.aux else [], extent := n }

/-- The index of lane `p` of a permutation: its source element, or none (R163). -/
def permSource (s : State) (b : Stream) (n p : Nat) : Option Nat :=
  let src := p / 256 * 256 + (readByte s b.space (b.base + p)).toNat
  if src < n then some src else none

/-- PERM (R163). -/
def vPerm (x : Ctx) (c : Cmd) (s : State) (n : Nat) : Calc VOut := do
  let a := vA x c
  let b := vB x c
  let d := vD x c
  let as ← a.elems s n
  let picks := (List.range n).map (permSource s b n)
  let reads := planes 0 a n ++ (if n = 0 then [] else [(2, ⟨b.space, b.base, n⟩)])
  picks.forM fun p => if p.isNone then noteStray else pure ()
  if a.fmt = d.fmt ∧ (a.fmt = fmtS16 ∨ a.fmt = fmtF32) then do
    let rows ← picks.mapM fun p => match p with
      | some i => movedElem a s i
      | none => if d.fmt = fmtS16 then do return s16Le (← f32ToS16 .ne c.vImmF)
        else do return f32Le (← extToF32 (f32Val c.vImmF))
    let back := rows.map fun r => if d.fmt = fmtS16 then s16ToF32 (BitVec.ofNat 16 (leNat r)) else BitVec.ofNat 32 (leNat r)
    return { tap0 := as, back := back, reads := reads
             writes := if n = 0 then [] else [(6, ⟨cell d.space d.base, rows.flatten⟩)], extent := n }
  else do
    let ys := picks.map fun p => match p with | some i => as.getD i 0 | none => c.vImmF
    let isFill (i : Nat) := (picks.getD i none).isNone
    let o ← d.write s (fun i => if isFill i then .ne else vRound x c i) c.vPreset ys
    return { tap0 := as, back := o.back, reads := reads ++ presetRead c d n
             writes := if n = 0 then [] else labelled 6 o.writes, extent := n }

/-! ### Segment operations (R160 to R162) -/

/-- A finite F32 value in units of 2^-149. -/
def units149 (x : F32) : Int :=
  match f32Val x with
  | .fin neg m e => (if neg then -1 else 1) * ((m * 2 ^ (e + 149).toNat : Nat) : Int)
  | _ => 0

/-- The scale and zero point R117 chooses for the finite values `xs`. -/
def chooseScale (xs : List F32) : S16 × Nat :=
  let vs := (xs.filter f32Finite).map units149
  let lo := vs.foldl min 0
  let hi := vs.foldl max 0
  let sc := leastScale 254 (hi - lo).toNat (-149)
  match s16Val sc with
  | .fin _ n e =>
    let r := scale2 (-lo).toNat n (-149 - e)
    (sc, roundNe r.1 r.2)
  | _ => (sc, 0)

/-- The row of an outlier slot word: [8:0], valid when [15] is 1 (R69). -/
def slotRow (w : Nat) : Option Nat := if bitOf w 15 then some (w % 512) else none

/-- One quantised segment (R116, R117): scale, zero point, codes and the 8 outlier values. Rows beyond the
values given are padding. -/
def quantSegment (preset : Option (S16 × Nat)) (slots : List Nat) (xs : List F32) :
    Calc ((S16 × Nat) × List Byte × List S16) := do
  let rows := slots.map slotRow
  let isOut (i : Nat) := rows.contains (some i)
  let pr := match preset with
    | some p => p
    | none => chooseScale ((xs.zipIdx.filter fun xi => !isOut xi.2).map (·.1))
  noteNonfinite (!s16PosNormal pr.1 && !xs.isEmpty)
  let codes ← xs.zipIdx.mapM fun xi => if isOut xi.2 then pure (BitVec.ofNat 8 pr.2) else f32ToA8 pr.1 pr.2 xi.1
  let outs ← rows.mapM fun r => match r with
    | some i => if i < xs.length then f32ToS16 .ne (xs.getD i 0) else pure 0#16
    | none => pure 0#16
  return (pr, codes, outs)

/-- The 8 slot words at an address: OUTLIER_ROWS_A then OUTLIER_ROWS_B (R69, R160). -/
def readSlots (s : State) (space a : Nat) : List Nat := (List.range 8).map fun m => readNat s space (a + 2 * m) 2

/-- The bytes of a parameter plane entry (R154). -/
def paramBytes (p : S16 × Nat) : List Byte := s16Le p.1 ++ [BitVec.ofNat 8 p.2, 0#8]

/-- QUANT (R160). -/
def vQuant (x : Ctx) (c : Cmd) (s : State) (n : Nat) : Calc VOut := do
  let a := vA x c
  let b := vB x c
  let cc := vC x c
  let d := vD x c
  let as ← a.elems s n
  let segs := (blocksOf 512 n as).zipIdx
  let preset := if c.vMod % 2 = 1 then some (BitVec.ofNat 16 (bits c.vImm 16 16), c.vImm % 256) else none
  let qs ← segs.mapM fun xk => quantSegment preset (readSlots s b.space (b.base + 16 * xk.2)) xk.1
  let back ← pure ((qs.map fun q => q.2.1.map fun k => (a8ToF32 q.1.1 q.1.2 k).val).flatten)
  let m := segs.length
  return { tap0 := as, back := back
           reads := planes 0 a n ++ (if m = 0 then [] else [(2, ⟨b.space, b.base, 16 * m⟩)])
           writes := if n = 0 then [] else
             [(6, ⟨cell d.space d.base, qs.flatMap (·.2.1)⟩), (7, ⟨cell d.space d.aux, qs.flatMap fun q => paramBytes q.1⟩),
              (4, ⟨cell cc.space cc.base, qs.flatMap fun q => q.2.2.flatMap s16Le⟩)]
           tags := (List.range m).map fun k => (cell d.space (d.aux + 4 * k), ⟨readSlots s b.space (b.base + 16 * k), none⟩)
           extent := n }

/-- The value of a fold exponent code: 0b00 0, 0b01 +1, 0b11 −1, 0b10 invalid (R92, R93, R114). -/
def foldExp (code : Nat) : Option Int :=
  match code % 4 with
  | 0 => some 0
  | 1 => some 1
  | 3 => some (-1)
  | _ => none

/-- σ_j of column `j` of the scales in stream C (R161, R162). -/
def columnScale (s : State) (c : Cmd) (cc : Stream) (j : Nat) : Ext :=
  let v := s16Val (readS16 s cc.space (cc.base + 2 * j))
  if c.vMod % 2 = 1 then
    match v, foldExp (bits (readByte s cc.space (cc.base + 1024 + j / 4)).toNat (2 * (j % 4)) 2) with
    | .fin neg m e, some k => .fin neg m (e + k)
    | v, some _ => v
    | _, none => .nan
  else v

/-- The scales' ranges. -/
def scaleRanges (c : Cmd) (cc : Stream) (cols : Nat) : List (Nat × Range) :=
  if cols = 0 then []
  else (4, ⟨cc.space, cc.base, 2 * cols⟩) ::
    (if c.vMod % 2 = 1 then [(5, ⟨cc.space, cc.base + 1024, ceilDiv cols 4⟩)] else [])

/-- A level times a column scale, rounded to nearest even in S16 (R36, R161). -/
def levelWeight (code : Byte) (sc : Ext) : Calc S16 :=
  if code.toInt < -15 ∨ 15 < code.toInt then extToS16 .ne .nan
  else match sc with
    | .fin neg m e => extToS16 .ne (.fin (neg != decide (code.toInt < 0)) (m * code.toInt.natAbs) e)
    | .inf neg => if code = 0 then extToS16 .ne .nan else extToS16 .ne (.inf (neg != decide (code.toInt < 0)))
    | .nan => extToS16 .ne .nan

/-- LEVEL_SCALE (R161). -/
def vLevelScale (x : Ctx) (c : Cmd) (s : State) (n : Nat) : Calc VOut := do
  let a := vA x c
  let cc := vC x c
  let d := vD x c
  let ys ← (List.range n).mapM fun p => levelWeight (readLevel s a.space (a.base + p)) (columnScale s c cc (p / 512))
  return { tap0 := ((a.elems s n).run {}).1, back := ys.map s16ToF32
           reads := planes 0 a n ++ scaleRanges c cc (ceilDiv n 512)
           writes := if n = 0 then [] else [(6, ⟨cell d.space d.base, ys.flatMap s16Le⟩)], extent := n }

/-- D_j and m_j of one column from its masters and level codes on rows that are not padding (R90, R98,
R162): none where a master is not finite or a code is invalid. -/
def driftColumn (sc : Ext) (rows : List (S16 × Byte)) : Calc (Option (F32 × F32)) := do
  let bad := (match sc with | .fin _ m e => decide (m = 0) || decide (m * 2 ^ (e + 149).toNat < 2 ^ 23) | _ => true) ||
    rows.any fun r => !s16Finite r.1 || decide (r.2.toInt < -15) || decide (15 < r.2.toInt)
  if bad then return none
  else do
    let sf ← extToF32 sc
    if !f32Finite sf then return none
    let dm ← rows.foldlM (fun acc r => do
      let v ← fsub (← fdiv (s16ToF32 r.1) sf) (intToF32 r.2.toInt)
      return (fmax acc ((fabs v).val)).val) (0 : F32)
    let mm := rows.foldl (fun acc r => (fmax acc ((fabs (s16ToF32 r.1)).val)).val) (0 : F32)
    return some (dm, mm)

/-- DRIFT (R162): two F32 words a column (DEDUCED, log 19). -/
def vDrift (x : Ctx) (c : Cmd) (s : State) (n : Nat) : Calc VOut := do
  let a := vA x c
  let b := vB x c
  let cc := vC x c
  let d := vD x c
  let cols := ceilDiv n 512
  let live := 512 - min c.vImm 512
  let rs ← (List.range cols).mapM fun j => do
    let m := min live (n - 512 * j)
    let r ← driftColumn (columnScale s c cc j) ((List.range m).map fun i =>
      (readS16 s a.space (a.base + 2 * (512 * j + i)), readLevel s b.space (b.base + 512 * j + i)))
    match r with
    | some v => return v
    | none => do noteNonfinite true; return (f32Nan, f32Nan)
  return { tap0 := ((a.elems s n).run {}).1, back := rs.map (·.1)
           reads := planes 0 a n ++ planes 2 b n ++ scaleRanges c cc cols
           writes := if n = 0 then [] else [(6, ⟨cell d.space d.base, rs.flatMap fun r => f32Le r.1 ++ f32Le r.2⟩)]
           extent := cols }

/-! ### Histograms and thresholds (R166, R167) -/

/-- HIST_BASE: values above 764 act as 764. -/
def Ctx.histBase (x : Ctx) : Nat := min (bits x.red3 0 10) 764

/-- The walk of R167 down the bins: the bin it stops at and the count so far, saturating. -/
def threshWalk (k : Nat) : List (Nat × Nat) → Nat → Nat × Nat
  | [], cum => (0, cum)
  | (b, h) :: rest, cum =>
    let cum' := min (cum + h) (2 ^ 32 - 1)
    if k ≤ cum' then (b, cum') else threshWalk k rest cum'

/-- T and kk of R167 from 256 bins. -/
def threshold (base k : Nat) (h : List Nat) : F32 × Nat :=
  if k = 0 then (0x7F800000#32, 0)
  else
    let r := threshWalk k ((List.range 256).zip h).reverse 0
    (if k ≤ r.2 ∧ 1 ≤ r.1 then BitVec.ofNat 32 ((base + r.1) * 2 ^ 21) else 0, r.2)

/-- A histogram of 256 counts at an address. -/
def readHist (s : State) (space a : Nat) : List Nat := (List.range 256).map fun i => readNat s space (a + 4 * i) 4

/-- Four 32-bit words. -/
def quad (a b c d : Nat) : List Byte := natLe 4 a ++ natLe 4 b ++ natLe 4 c ++ natLe 4 d

/-- HIST_THRESH (R167): the threshold record to D. -/
def vHistThresh (x : Ctx) (c : Cmd) (s : State) : Calc VOut := do
  let a := vA x c
  let d := vD x c
  let r := threshold x.histBase c.vImm (readHist s a.space a.base)
  return { reads := [(0, ⟨a.space, a.base, 1024⟩)]
           writes := [(6, ⟨cell d.space d.base, quad r.1.toNat r.2 0 0⟩)], extent := r.2 }

/-- COMPACT (R167): the record, then the selected elements and their global indices. -/
def vCompact (x : Ctx) (c : Cmd) (s : State) (n : Nat) : Calc VOut := do
  let a := vA x c
  let b := vB x c
  let cc := vC x c
  let d := vD x c
  let r := threshold x.histBase c.vImm (readHist s b.space b.base)
  let as ← a.elems s n
  let sel := (as.zipIdx).filter fun xi => f32Finite xi.1 && decide (0 ≤ fcompare ((fabs xi.1).val) r.1)
  let idx := sel.map (·.2)
  let o ← d.write s (fun i => vRound x c (idx.getD i 0)) c.vPreset (sel.map (·.1))
  let m := sel.length
  return { reads := planes 0 a n ++ [(2, ⟨b.space, b.base, 1024⟩)] ++ presetRead c d m
           writes := (8, ⟨cell (dieSpace x.die) (x.addr x.red2 0), quad r.1.toNat r.2 m 0⟩) ::
             (if m = 0 then [] else labelled 6 o.writes ++
               [(4, ⟨cell cc.space cc.base, idx.flatMap fun p => natLe 4 (x.elemBase c + p)⟩)])
           extent := m, written := m }

/-! ### The reduction unit (R164 to R166) -/

/-- A reduction record (R164). -/
structure RedRec where
  sum : F32 := 0
  sumsq : F32 := 0
  max : F32 := 0xFF800000#32
  min : F32 := 0x7F800000#32
  maxabs : F32 := 0
  arg : Nat := 2 ^ 32 - 1
  nonfinite : Nat := 0
  elements : Nat := 0
  deriving DecidableEq, Repr

/-- The record at an address. -/
def readRec (s : State) (space a : Nat) : RedRec :=
  { sum := readF32 s space a, sumsq := readF32 s space (a + 4), max := readF32 s space (a + 8)
    min := readF32 s space (a + 12), maxabs := readF32 s space (a + 16), arg := readNat s space (a + 20) 4
    nonfinite := readNat s space (a + 24) 4, elements := readNat s space (a + 28) 4 }

/-- The record's 32 bytes. -/
def RedRec.bytes (r : RedRec) : List Byte :=
  quad r.sum.toNat r.sumsq.toNat r.max.toNat r.min.toNat ++ quad r.maxabs.toNat r.arg r.nonfinite r.elements

/-- MAX, MIN, MAXABS and the counts take one tapped value of global index `g`. -/
def RedRec.take (r : RedRec) (g : Nat) (v : F32) : RedRec :=
  let r := { r with elements := Nat.min (r.elements + 1) (2 ^ 32 - 1)
                    nonfinite := if f32Finite v then r.nonfinite else Nat.min (r.nonfinite + 1) (2 ^ 32 - 1) }
  if f32IsNan v then r
  else
    let m := (fabs v).val
    let c := fcompare m r.maxabs
    let better := decide (0 < c) || (decide (c = 0) && decide (r.arg = 2 ^ 32 - 1))
    { r with max := (fmax r.max v).val, min := (fmin r.min v).val
             maxabs := if better then m else r.maxabs, arg := if better then g % 2 ^ 32 else r.arg }

/-- The record over the tapped values (R165). -/
def reduce (acc : RedRec) (eb : Nat) (tap : List F32) : Calc RedRec := do
  let sum ← chunkedSum 8 acc.sum tap
  let sq ← tap.mapM fun v => fmul v v
  let sumsq ← chunkedSum 8 acc.sumsq sq
  let r := tap.zipIdx.foldl (fun r vi => r.take (eb + vi.2) vi.1) acc
  return { r with sum := sum, sumsq := sumsq }

/-- The histogram bin of a value that is not NaN or infinite (R166). -/
def histBin (base : Nat) (v : F32) : Nat := min (bits v.toNat 21 10 - base) 255

/-- The histogram over the tapped values (R166). -/
def histogram (base : Nat) (h : List Nat) (tap : List F32) : List Nat :=
  tap.foldl (fun h v => if f32Finite v then h.modify (histBin base v) (fun n => min (n + 1) (2 ^ 32 - 1)) else h) h

/-- The record and histogram a command with them enabled writes. -/
def reductionUnit (x : Ctx) (c : Cmd) (s : State) (o : VOut) : Calc VOut := do
  let tap := if c.vTap then o.back else o.tap0
  let sp := dieSpace x.die
  let red : List (Nat × Range) × List (Nat × WriteBack) ←
    if c.vRedEn then do
      let accA := x.addr x.red2 15
      let en := bitOf x.red2 30
      let r ← reduce (if en then readRec s sp accA else {}) (x.elemBase c) tap
      pure (if en then [(8, ⟨sp, accA, 32⟩)] else [], [(8, ⟨cell sp (x.addr x.red2 0), r.bytes⟩)])
    else pure ([], [])
  let hist : List (Nat × Range) × List (Nat × WriteBack) :=
    if c.vHistEn then
      let accA := x.addr x.red2 46
      let en := bitOf x.red2 61
      let h := histogram x.histBase (if en then readHist s sp accA else List.replicate 256 0) tap
      (if en then [(9, ⟨sp, accA, 1024⟩)] else [], [(9, ⟨cell sp (x.addr x.red2 31), h.flatMap fun n => natLe 4 n⟩)])
    else ([], [])
  return { o with reads := o.reads ++ red.1 ++ hist.1, writes := o.writes ++ red.2 ++ hist.2 }

/-! ### Overlap (R156) and the whole command -/

/-- A destination works in place on a source: same base, format, length and exponent base. -/
def inPlace (a d : Stream) : Bool :=
  a.base == d.base && a.fmt == d.fmt && (a.fmt != fmtB8 || a.aux == d.aux)

/-- A range a command writes overlaps one it reads, other than in place (R156). DRIFT and HIST_THRESH write records and read
whole streams, and the B of QUANT and COMPACT is a list or a record, so that these never work in place. -/
def vOverlap (x : Ctx) (c : Cmd) (op : Nat) (o : VOut) : Bool :=
  let ipA := !([0x19, 0x1A].contains op) && inPlace (vA x c) (vD x c)
  let ipB := !([0x17, 0x18, 0x19, 0x1A, 0x1B].contains op) && inPlace (vB x c) (vD x c)
  o.writes.any fun w => o.reads.any fun r =>
    let wr : Range := ⟨w.2.key % 64, w.2.key / 64, w.2.bytes.length⟩
    wr.overlaps r.2 &&
      !((ipA && r.1 + 6 == w.1 && decide (r.1 < 2)) || (ipB && r.1 + 4 == w.1 && decide (2 ≤ r.1 ∧ r.1 < 4)) ||
        (decide (8 ≤ r.1) && r.1 == w.1 && decide (wr = r.2)))

/-- The length a vector operation works on and whether it was clamped: HIST_THRESH uses none, and its histogram is one
window of 256 elements (R155, R168) (DEDUCED, log 133). -/
def opLen (op : Nat) (x : Ctx) (c : Cmd) : Nat × Bool := if op = 0x1A then (256, false) else vLen x c

/-- A vector operation: `f` is what it computes over its length. -/
def vecOp (op : Nat) (f : Ctx → Cmd → State → Nat → Calc VOut) (x : Ctx) (c : Cmd) (s : State) : OpResult :=
  let ln := opLen op x c
  let n := ln.1
  let taps := op < 0x1A
  let run : Calc VOut := do
    let o ← f x c s n
    if taps then reductionUnit x c s o else return o
  let r := run.run {}
  let o := r.1
  let fl := r.2
  let tm := vTimes op n (c.vRedEn && decide taps) (c.vHistEn && decide taps)
  { occ := tm.1, lat := some tm.2, reads := o.reads.map (·.2), writes := o.writes.map (·.2), tags := o.tags
    fl := fl, fmt := (vD x c).fmt, extent := o.extent, overlap := vOverlap x c op o
    counts :=
      let u := unitOf 0x22 (16 * x.die + (if bits x.tag 12 8 = 0xFB then 15 else bits x.tag 12 8 - 64))
      [⟨F.ve_ELEMENTS_DONE, u, 0, n⟩, ⟨F.ve_BUSY_CYCLES, u, 0, ceilDiv n 256⟩, ⟨F.ve_UNDERFLOWS, u, 0, fl.unders⟩,
        ⟨F.ve_OVERFLOW_ELEMS, u, 0, fl.overs⟩, ⟨F.ve_NONFINITE_CMDS, u, 0, b2n fl.nonfinite⟩,
        ⟨F.ve_MARKERS_READ, u, 0, fl.markers⟩, ⟨F.ve_CLIPS, u, 0, fl.clips⟩, ⟨F.ve_STRAY_INDEX, u, 0, fl.strays⟩,
        ⟨F.ve_LENGTH_CLAMPED, u, 0, b2n ln.2⟩, ⟨F.ve_COMPACT_WRITTEN, u, 0, o.written⟩] }

/-- What operation code `op` computes (R159). -/
def vecFn (op : Nat) : Ctx → Cmd → State → Nat → Calc VOut :=
  match op with
  | 0x00 => vCopy
  | 0x01 => lane1 pure
  | 0x02 => lane2 fadd
  | 0x03 => lane2 fsub
  | 0x04 => lane2 fmul
  | 0x05 => fun x c s n => lane2 (fun a b => do fadd (← fmul a c.vImmF) b) x c s n
  | 0x06 => fun x c s n => lane1 (fun a => fadd a c.vImmF) x c s n
  | 0x07 => fun x c s n => lane1 (fun a => fmul a c.vImmF) x c s n
  | 0x08 => lane2 fdiv
  | 0x09 => lane1 frecip
  | 0x0A => lane1 fsqrt
  | 0x0B => lane1 frsqrt
  | 0x0C => lane2 fmax
  | 0x0D => lane2 fmin
  | 0x0E => fun x c s n => lane1 (fun a =>
      fmin ((fmax a (s16ToF32 (BitVec.ofNat 16 (bits c.vImm 16 16)))).val) (s16ToF32 (BitVec.ofNat 16 (c.vImm % 2 ^ 16)))) x c s n
  | 0x0F => lane1 fabs
  | 0x10 => lane1 fun a => extToF32 (f32Val (fneg a))
  | 0x11 => lane1 fun a => fmax a 0
  | 0x12 => lane1 exp32
  | 0x13 => fun x c s n => lane2 (fun a b => pure (if fcmp c.vMod a b then 0x3F800000#32 else 0)) x c s n
  | 0x14 => fun x c s n => lane1 (fun a => pure (if fcmp c.vMod a c.vImmF then 0x3F800000#32 else 0)) x c s n
  | 0x15 => vSelect
  | 0x16 => vPerm
  | 0x17 => vQuant
  | 0x18 => vLevelScale
  | 0x19 => vDrift
  | 0x1A => fun x c s _ => vHistThresh x c s
  | _ => vCompact

/-- The work of vector operation `op`. -/
def vectorWork (op : Nat) : Ctx → Cmd → State → OpResult := vecOp op (vecFn op)

/-- A vector command of a vector sequencer. -/
def vectorCmd (q : SeqId) (op : Nat) (s : State) : State :=
  streamCmd q 3 op (fun c t _ s => engineCmd q (vectorWork op) c t s) s

/-- VEC_COPY (R159, code 0x00). -/
def execVecCopy (q : SeqId) (s : State) : Host.Outcome State Fault Refusal := .next (vectorCmd q 0x00 s)
/-- CONVERT (R159). -/
def execConvert (q : SeqId) (s : State) : Host.Outcome State Fault Refusal := .next (vectorCmd q 0x01 s)
/-- VEC_ADD (R159). -/
def execVecAdd (q : SeqId) (s : State) : Host.Outcome State Fault Refusal := .next (vectorCmd q 0x02 s)
/-- VEC_SUB (R159). -/
def execVecSub (q : SeqId) (s : State) : Host.Outcome State Fault Refusal := .next (vectorCmd q 0x03 s)
/-- MUL (R159). -/
def execMul (q : SeqId) (s : State) : Host.Outcome State Fault Refusal := .next (vectorCmd q 0x04 s)
/-- AXPY (R159). -/
def execAxpy (q : SeqId) (s : State) : Host.Outcome State Fault Refusal := .next (vectorCmd q 0x05 s)
/-- VEC_ADDI (R159). -/
def execVecAddi (q : SeqId) (s : State) : Host.Outcome State Fault Refusal := .next (vectorCmd q 0x06 s)
/-- VEC_MULI (R159). -/
def execVecMuli (q : SeqId) (s : State) : Host.Outcome State Fault Refusal := .next (vectorCmd q 0x07 s)
/-- DIV (R159). -/
def execDiv (q : SeqId) (s : State) : Host.Outcome State Fault Refusal := .next (vectorCmd q 0x08 s)
/-- RECIP (R159). -/
def execRecip (q : SeqId) (s : State) : Host.Outcome State Fault Refusal := .next (vectorCmd q 0x09 s)
/-- SQRT (R159). -/
def execSqrt (q : SeqId) (s : State) : Host.Outcome State Fault Refusal := .next (vectorCmd q 0x0A s)
/-- RSQRT (R159). -/
def execRsqrt (q : SeqId) (s : State) : Host.Outcome State Fault Refusal := .next (vectorCmd q 0x0B s)
/-- MAX (R159). -/
def execMax (q : SeqId) (s : State) : Host.Outcome State Fault Refusal := .next (vectorCmd q 0x0C s)
/-- MIN (R159). -/
def execMin (q : SeqId) (s : State) : Host.Outcome State Fault Refusal := .next (vectorCmd q 0x0D s)
/-- CLAMP (R159). -/
def execClamp (q : SeqId) (s : State) : Host.Outcome State Fault Refusal := .next (vectorCmd q 0x0E s)
/-- ABS (R159). -/
def execAbs (q : SeqId) (s : State) : Host.Outcome State Fault Refusal := .next (vectorCmd q 0x0F s)
/-- NEG (R159). -/
def execNeg (q : SeqId) (s : State) : Host.Outcome State Fault Refusal := .next (vectorCmd q 0x10 s)
/-- RELU (R159). -/
def execRelu (q : SeqId) (s : State) : Host.Outcome State Fault Refusal := .next (vectorCmd q 0x11 s)
/-- EXP (R142, R159). -/
def execExp (q : SeqId) (s : State) : Host.Outcome State Fault Refusal := .next (vectorCmd q 0x12 s)
/-- VEC_CMP (R159). -/
def execVecCmp (q : SeqId) (s : State) : Host.Outcome State Fault Refusal := .next (vectorCmd q 0x13 s)
/-- VEC_CMPI (R159). -/
def execVecCmpi (q : SeqId) (s : State) : Host.Outcome State Fault Refusal := .next (vectorCmd q 0x14 s)
/-- SELECT (R159). -/
def execSelect (q : SeqId) (s : State) : Host.Outcome State Fault Refusal := .next (vectorCmd q 0x15 s)
/-- PERM (R163). -/
def execPerm (q : SeqId) (s : State) : Host.Outcome State Fault Refusal := .next (vectorCmd q 0x16 s)
/-- QUANT (R160). -/
def execQuant (q : SeqId) (s : State) : Host.Outcome State Fault Refusal := .next (vectorCmd q 0x17 s)
/-- LEVEL_SCALE (R161). -/
def execLevelScale (q : SeqId) (s : State) : Host.Outcome State Fault Refusal := .next (vectorCmd q 0x18 s)
/-- DRIFT (R162). -/
def execDrift (q : SeqId) (s : State) : Host.Outcome State Fault Refusal := .next (vectorCmd q 0x19 s)
/-- HIST_THRESH (R167). -/
def execHistThresh (q : SeqId) (s : State) : Host.Outcome State Fault Refusal := .next (vectorCmd q 0x1A s)
/-- COMPACT (R167). -/
def execCompact (q : SeqId) (s : State) : Host.Outcome State Fault Refusal := .next (vectorCmd q 0x1B s)

end Sys2Proof.Machine
end

