-- ==== Sys2Proof/Machine/Bins.lean ====
section
/-! DEFINITION. Bin loads (R190 to R192) with every check of a header and a command (R159, R174 to R182, R185,
R186), and the occupancy check of R394. -/

namespace Sys2Proof.Machine

open Sys2Proof

/-! ### Checks of one command -/

/-- A class a sequencer may hold (R175). -/
def classAllowed (n cls : Nat) : Bool :=
  match cls with
  | 0 => true
  | 2 => decide (n < 64)
  | 3 => decide (64 ≤ n ∧ n < 80)
  | 4 => decide (80 ≤ n ∧ n < 88)
  | 5 => decide (89 ≤ n)
  | 6 => decide (n < 89)
  | 7 => n == 88
  | _ => false

/-- How many operations a class has: its OP values run from 0 (R159, R177 to R182). -/
def classOps (cls : Nat) : Nat :=
  match cls with
  | 0 => 0x13
  | 2 => 1
  | 3 => 0x1C
  | 4 => 6
  | 5 => 1
  | 6 => 1
  | 7 => 7
  | _ => 0

/-- A bit mask from fields given as (lowest bit, width). -/
def maskOf (fs : List (Nat × Nat)) : Nat := fs.foldl (fun m f => m ||| (2 ^ f.2 - 1) * 2 ^ f.1) 0

/-- The named bits of words 0 to 3 (R174, R177 to R182). -/
def namedBits (cls op : Nat) : List Nat :=
  let w0 := maskOf [(0, 58)]
  let w1 (pay : List (Nat × Nat)) := maskOf ((0, 42) :: pay)
  match cls with
  | 0 =>
    if op = 0x11 then [w0, w1 [], maskOf [(0, 62)], maskOf [(0, 10)]]
    else if op = 0x12 then [w0, w1 [], maskOf [(0, 64)], maskOf [(0, 37)]]
    else [w0, w1 [], maskOf [(0, 24)], maskOf [(0, 48)]]
  | 2 => [w0, w1 [(43, 16)], maskOf [(0, 62)], maskOf [(0, 60)]]
  | 3 => [w0, w1 [(43, 21)], maskOf [(0, 63)], maskOf [(0, 25), (32, 32)]]
  | 4 => [w0, w1 [(43, 19)], maskOf [(0, 58)], maskOf [(0, 56)]]
  | 5 => [w0, w1 [(43, 21)], maskOf [(0, 55)], maskOf [(0, 23)]]
  | 6 => [w0, w1 [(43, 12)], maskOf [(0, 60)], maskOf [(0, 44)]]
  | _ => [w0, w1 [(43, 16)], maskOf [(0, 59)], maskOf [(0, 64)]]

/-- A reserved bit of the command is set. -/
def reservedBits (c : Cmd) : Bool :=
  ([c.w0, c.w1, c.w2, c.w3].zip (namedBits c.cls c.op)).any fun wm => wm.1 &&& wm.2 != wm.1 % 2 ^ 64

/-- The queues a sequencer consumes: the first and how many (R169). -/
def ownQueues (n : Nat) : Nat × Nat :=
  if n < 64 then (8 * n, 8)
  else if n < 80 then (512 + 16 * (n - 64), 16)
  else if n < 88 then (768 + 16 * (n - 80), 16)
  else if n = 88 then (896, 64)
  else (16 * ((n - 89) % 16), 16)

/-- Sequencer `n` consumes queue `w`. -/
def ownsQueue (n w : Nat) : Bool :=
  let r := ownQueues n
  decide (r.1 ≤ w ∧ w < r.1 + r.2)

/-- A die code that names a digital die or an array die (DEDUCED, log 46). -/
def dieCodeOk (d : Nat) : Bool := decide (d < 4 ∨ (8 ≤ d ∧ d < 24))

/-- The FMT of the stream descriptor at bit `lo` of a word. -/
def fmtAt (w lo : Nat) : Nat := bits w (lo + 15) 4

/-- The streams a vector operation uses, as word, bit and place (0 A, 1 B, 2 C, 3 D) (R159). -/
def vStreams (op : Nat) (c : Cmd) : List (Nat × Nat) :=
  let a := (0, fmtAt c.w2 0)
  let b := (1, fmtAt c.w2 21)
  let cc := (2, fmtAt c.w2 42)
  let d := (3, fmtAt c.w3 0)
  if [0x02, 0x03, 0x04, 0x05, 0x08, 0x0C, 0x0D, 0x13, 0x15, 0x16].contains op then [a, b, d]
  else if op = 0x18 then [a, cc, d]
  else if op = 0x17 ∨ op = 0x19 ∨ op = 0x1B then [a, b, cc, d]
  else [a, d]

/-- The format a stream of an operation must have (R160 to R163). -/
def vFixed (op place : Nat) : Option Nat :=
  match op, place with
  | 0x16, 1 => some fmtA8
  | 0x17, 3 => some fmtA8
  | 0x18, 0 => some fmtLevel
  | 0x18, 2 => some fmtS16
  | 0x18, 3 => some fmtS16
  | 0x19, 0 => some fmtS16
  | 0x19, 1 => some fmtLevel
  | 0x19, 2 => some fmtS16
  | _, _ => none

/-- Format none is allowed: the operation fixes the layout (R157). -/
def vNoneOk (op place : Nat) : Bool :=
  (op == 0x1A && (place == 0 || place == 3)) || (op == 0x1B && place == 1) || (op == 0x19 && place == 3)

/-- A vector command's refused formats (R157, R159, R160). -/
def badVector (c : Cmd) : Bool :=
  (vStreams c.op c).any (fun pf =>
    (pf.2 > 4 && pf.2 != fmtNone) || (pf.2 == fmtNone && !vNoneOk c.op pf.1) ||
    (match vFixed c.op pf.1 with | some f => f != pf.2 | none => false) ||
    (pf.1 == 3 && (pf.2 == fmtLevel || (pf.2 == fmtA8 && c.op != 0x17)))) ||
  (c.op == 0 && fmtAt c.w2 0 != fmtAt c.w3 0) ||
  (c.op == 0x17 && !bitOf c.w1 59 && (bits c.w1 43 16 + 1) % 512 != 0)

/-- A row command's refused formats: the streams it reads and writes are S16, F32 or B8 (R140) (DEDUCED, log 44). -/
def badRow (c : Cmd) : Bool :=
  let used := if c.op = 0 ∨ c.op = 2 then [fmtAt c.w2 0, fmtAt c.w2 21]
    else if c.op < 4 then [fmtAt c.w2 0, fmtAt c.w2 21, fmtAt c.w3 0] else []
  used.any fun f => f > 2

/-- An array product's refused fields (R180). -/
def badArray (c : Cmd) : Bool :=
  c.aCount % c.aKseg != 0 || decide (64 < c.aFirst + c.aCount) || !dieCodeOk (bits c.w2 0 5) ||
  !dieCodeOk (bits c.w2 20 5) || (c.aStash && !dieCodeOk (bits c.w3 0 5))

/-- An end of a copy that names no scratchpad, buffer or memory (R182). -/
def badEnd (w : Nat) : Bool :=
  let sp := bits w 0 2
  let d := bits w 2 5
  sp == 3 || (sp == 0 && !decide (d < 4)) || (sp == 2 && !decide (8 ≤ d ∧ d < 24))

/-- Fields refused with code 0x7 beside reserved bits (R140, R157, R174, R177 to R182, R185). -/
def badFields (c : Cmd) : Bool :=
  !dieCodeOk c.produceDie ||
  (match c.cls with
    | 0 => (c.op == 0x0E && !c.produceEn) ||
        (c.op == 0x12 && (decide (1 < bits c.w2 62 2) || (fmtAt c.w3 0 > 2)))
    | 2 => decide (1 < bits c.w3 15 2) || bits c.w3 32 2 == 3
    | 3 => badVector c
    | 4 => badRow c
    | 5 => badArray c
    | 6 => badEnd c.w2 || badEnd c.w3
    | _ => false)

/-- A B8 operand of block size 128 with an odd pitch (R177). -/
def oddPitch (c : Cmd) : Bool :=
  (bitOf c.w2 15 && bits c.w2 16 2 == 3 && bitOf c.w2 38) || (bitOf c.w2 34 && bits c.w2 35 2 == 3 && bitOf c.w2 50)

/-- The result code of one command's checks, the lowest that applies; 0 when it passes (R192). -/
def cmdCode (n count : Nat) (c : Cmd) : Nat :=
  if !classAllowed n c.cls || decide (classOps c.cls ≤ c.op) then 0x5
  else if c.cls = 3 ∧ (c.op = 0x13 ∨ c.op = 0x14) ∧ 5 < bits c.w1 60 4 then 0x5
  else if c.cls = 0 ∧ (c.op = 0x08 ∨ c.op = 0x09 ∨ c.op = 0x0C) ∧ 7 < bits c.w2 19 4 then 0x5
  else if c.cls = 0 ∧ c.op = 0x0C ∧ bits c.w2 19 4 = 6 ∧ n < 89 then 0x5
  else if 8 ≤ c.streamKind then 0x6
  else if reservedBits c || badFields c then 0x7
  else if c.cls = 2 ∧ oddPitch c then 0x8
  else if (c.waitAEn && !ownsQueue n c.waitA) || (c.waitBEn && !ownsQueue n c.waitB) then 0x9
  else if c.cls = 0 ∧ (c.op = 0x0A ∨ c.op = 0x0B) ∧ count ≤ bits c.w3 0 11 then 0xC
  else 0

/-! ### The occupancy check (R394) -/

/-- The smallest occupancy of a command's units: unit, start and end in domain cycles from the issue, which
stands `ph` ticks into an alignment period. -/
def minOccupancy (c : Cmd) (ph : Nat) : List (Nat × Nat × Nat) :=
  match c.cls with
  | 2 => [(0, 0, (matTimes (bits c.w1 43 16 + 1) (bits c.w3 15 2 == 0) (bitOf c.w2 18 || bitOf c.w2 37)).1)]
  | 3 => [(0, 0, (vTimes c.op (if bitOf c.w1 59 then 0 else bits c.w1 43 16 + 1) c.vRedEn c.vHistEn).1)]
  | 4 =>
    let p := ceilDiv c.rLen 128
    let passes := if c.op = 0 then (if c.rRms then 2 else 3) else if c.op = 2 then 3 else 2
    [(0, 0, c.rRows * (if c.op = 4 then 16 else if c.op = 5 then 10 else passes * p + 8))]
  | 5 =>
    let first := 16 - ph
    (List.range c.aCount).map fun k => (c.aFirst + k, first, first + 16 * (if c.aSparse then 1 else 8))
  | _ => []

/-- A path still to walk: the next index, the ticks of its phase at the last issue, how long each unit is still
busy from then, and the last command with the state before it. -/
structure Walk where
  i : Nat
  ph : Nat
  busy : NMap Nat
  prev : Option Cmd
  before : NMap Nat
  deriving DecidableEq, Repr

/-- Busy times `o` cycles later. -/
def busyAfter (o : Nat) (b : NMap Nat) : NMap Nat := b.filterMap fun u => if o < u.2 then some (u.1, u.2 - o) else none

/-- No unit of `a` is busy longer than in `b`. -/
def busyLe (a b : NMap Nat) : Bool := a.all fun u => decide (u.2 ≤ nmGet 0 u.1 b)

/-- The later of two busy states. -/
def busyMax (a b : NMap Nat) : NMap Nat := a.foldl (fun m u => nmSet u.1 (max u.2 (nmGet 0 u.1 m)) m) b

/-- Consecutive commands on one flag with opposite senses (R189). -/
def exclusive (a b : Cmd) : Bool :=
  a.predEn && b.predEn && a.predFlag == b.predFlag && a.predSense != b.predSense

/-- More commands than the walk of R394 can try: each one it goes on from raises the busy time of a unit in one of the
states it keeps, 130 times for each index, phase and branch (DEDUCED, log 23). -/
def walkFuel (cmds : List Cmd) : Nat :=
  let longest := ((cmds.flatMap fun c => (minOccupancy c 0).map (·.2.2)).foldl max 0) + 16
  2 * (32 * cmds.length * (130 * longest + 1)) + 2

/-- The walk of R394, until the state kept grows no longer; `fuel` is no fewer than the commands it tries: the index of a
collision. -/
def occupancyWalk (cmds : List Cmd) : Nat → List Walk → NMap (NMap Nat × NMap Nat) → Option Nat
  | 0, _, _ => none
  | _, [], _ => none
  | fuel + 1, w :: ws, seen =>
    match cmds[w.i]? with
    | none => occupancyWalk cmds fuel ws seen
    | some c =>
      let o := c.issueOffset
      let ph := (w.ph + o) % 16
      let excl := match w.prev with | some p => exclusive p c | none => false
      let busy := busyAfter o w.busy
      let base := if excl then busyAfter o w.before else busy
      let key := (w.i * 16 + ph) * 2 + b2n excl
      let old := smFind key seen
      let known := match old with
        | some (b, r) => busyLe base b && busyLe busy r
        | none => false
      if known then occupancyWalk cmds fuel ws seen
      else
        let seen := nmSet key (match old with
          | some (b, r) => (busyMax base b, busyMax busy r)
          | none => (base, busy)) seen
        let need := minOccupancy c ph
        if need.any fun u => decide (u.2.1 < nmGet 0 u.1 base) then some w.i
        else
          let nb := need.foldl (fun m u => nmSet u.1 (max u.2.2 (nmGet 0 u.1 m)) m) busy
          let target : Walk := ⟨bits c.w3 0 11, ph, nb, none, []⟩
          let next : Walk := ⟨w.i + 1, ph, nb, some c, busy⟩
          if c.cls = 0 ∧ (c.op = 0x10 ∨ c.op = 0x0F) then occupancyWalk cmds fuel ws seen
          else if c.cls = 0 ∧ c.op = 0x0B then occupancyWalk cmds fuel (target :: ws) seen
          else if c.cls = 0 ∧ c.op = 0x0A then occupancyWalk cmds fuel (next :: target :: ws) seen
          else occupancyWalk cmds fuel (next :: ws) seen

/-! ### The image and the load (R190, R192) -/

/-- A command from its 32 bytes. -/
def cmdOf (bs : List Byte) : Cmd :=
  ⟨leNat (bs.take 8), leNat ((bs.drop 8).take 8), leNat ((bs.drop 16).take 8), leNat ((bs.drop 24).take 8)⟩

/-- The eight header words of an image. -/
def headerOf (bs : List Byte) : List Nat := (List.range 8).map fun i => leNat ((bs.drop (8 * i)).take 8)

/-- The first failure of an image for sequencer `n`: its code and index; code 0 when it passes (R192). -/
def imageCode (sig : Nat) (expert : Bool) (n : Nat) (hdr : List Nat) (body : List Byte) : Nat × Nat :=
  let w1 := hdr.getD 1 0
  let count := bits w1 27 12
  let cmds := (List.range count).map fun i => cmdOf ((body.drop (32 * i)).take 32)
  if count = 0 ∨ 2048 < count then (0x7, 0x7FF)
  else if hdr.getD 0 0 ≠ sig then (0x2, 0x7FF)
  else if bits w1 0 8 ≠ n then (0x3, 0x7FF)
  else if (crc32 body).toNat ≠ bits (hdr.getD 2 0) 0 32 then (0x4, 0x7FF)
  else if bitOf w1 39 && !expert then (0xB, 0x7FF)
  else if count ≤ bits w1 16 11 then (0xC, 0x7FF)
  else if bits w1 40 24 ≠ 0 ∨ bits (hdr.getD 2 0) 32 32 ≠ 0 ∨ (hdr.drop 4).any (· != 0) then (0x7, 0x7FF)
  else match (cmds.zipIdx.map fun ci => (cmdCode n count ci.1, ci.2)).find? (·.1 != 0) with
    | some r => r
    | none =>
      match occupancyWalk cmds (walkFuel cmds) [⟨bits w1 16 11, 0, [], none, []⟩] [] with
      | some i => (0xA, i)
      | none => (0, 0)

/-- Sets BIN_RESULT. -/
def binResult (die code index : Nat) (s : State) : State :=
  wr F.sq_CODE die 0 code (wr F.sq_INDEX die 0 index s)

/-- Sets a bin's VALID bit. -/
def setValid (q : SeqId) (b : Nat) (v : Bool) (s : State) : State :=
  if b % 2 = 0 then setb F.sq_VALID_0 q.die q.num v s else setb F.sq_VALID_1 q.die q.num v s

/-- A write of 1 to BIN_LOAD.GO with SEQ and BIN in the same word (R192) (DEDUCED, log 47). -/
def binLoad (die seq bin : Nat) (s : State) : State :=
  let q : SeqId := ⟨die, seq % 256⟩
  let s := wr F.sq_LOAD_SEQ die 0 seq (wr F.sq_LOAD_BIN die 0 bin s)
  if rdb s F.sq_LOAD_BUSY die 0 || (decide (q.num < 153) && seqBusy s q && activeBin s q == bin % 2) then
    binResult die 0x1 0x7FF (sat F.sq_BIN_WRITE_REFUSED die 0 1 s)
  else if 153 ≤ q.num then binResult die 0x3 0x7FF s
  else
    let s := setb F.sq_LOAD_BUSY die 0 true (setValid q bin false s)
    { s with loads := nmSet die ⟨q.num, bin % 2, rd s F.sq_BIN_ADDR die 0⟩ s.loads }

/-- BIN_LOAD (R192): the write of BIN_LOAD.GO on digital die `die`. -/
def execBinLoad (die seq bin : Nat) (s : State) : Host.Outcome State Fault Refusal :=
  .next (if livePage s (unitOf 0x25 die) then binLoad die seq bin (pageAccess (unitOf 0x25 die) s) else s)

/-- The load of a die ends: the checks, then VALID or BIN_RESULT. An uncorrectable fetch is program-fatal and the
bin stays invalid; the spec gives BIN_RESULT no code for it (R381, R384, DEDUCED, log 24). -/
def binLoadDone (die : Nat) (s : State) : State :=
  match smFind die s.loads with
  | none => s
  | some l =>
    let q : SeqId := ⟨die, l.seq⟩
    let s := setb F.sq_LOAD_BUSY die 0 false { s with loads := smErase die s.loads }
    let hdr := headerOf (readBytes s memSpace l.addr 64)
    let count := bits (hdr.getD 1 0) 27 12
    let n := if count = 0 ∨ 2048 < count then 0 else 32 * count
    let body := readBytes s memSpace (l.addr + 64) n
    let s := viewReport memSpace l.addr (64 + n) none s
    match poisonedWords s memSpace l.addr (64 + n) with
    | a :: as =>
      let s := uncorrectable memSpace (a :: as) 6 0 false s
      let (x, s) := free s
      let (y, s) := free s
      programFatal die 0 0 (binResult die x y s)
    | [] =>
      let expert := rdU s F.com_EXPERT_EN (unitOf 0x20 die) 0 == 1
      let r := imageCode (signature s) expert l.seq hdr body
      let s := binResult die r.1 r.2 s
      if r.1 ≠ 0 then s
      else
        let w1 := hdr.getD 1 0
        let b : Bin :=
          { gen := bits w1 8 8, entry := bits w1 16 11, count := count, piBackward := bitOf w1 39
            order := s.loadCount + 1, header := hdr
            cmds := (List.range count).map fun i => cmdOf ((body.drop (32 * i)).take 32) }
        setValid q l.bin true
          { s with bins := nmSet (seqKey q * 2 + l.bin) b s.bins, loadCount := s.loadCount + 1 }

/-- BIN_LOAD_DONE (R192). -/
def execBinLoadDone (die : Nat) (s : State) : Host.Outcome State Fault Refusal :=
  .next (binLoadDone die s)

end Sys2Proof.Machine
end

