-- ==== Sys2Proof/Machine/Faults.lean ====
section
/-! DEFINITION. Device-fatal errors (R371, R384, R387), withdrawal from a job (R283), fabric retries (R383) and the
scrubbing of memory (R380). -/

namespace Sys2Proof.Machine

open Sys2Proof

/-- The 256 array groups. -/
def allGroups : List Nat := List.range 256

/-- Issue stops on every sequencer at the first command boundary after the next alignment-period boundary, as
after a program-fatal error (R173). -/
def stopIssue (s : State) : State :=
  match s.stopAt with
  | some _ => s
  | none => { s with stopAt := some ((s.core / 32 + 1) * 32) }

/-- The device withdraws (R283): issue stops without committing, heartbeats and exchange traffic stop. -/
def withdraw (s : State) : State :=
  let s := setb F.rs_WITHDRAWN 0 0 true (setb F.rs_WITHDREW_SEEN 0 0 true s)
  stopIssue { s with job := { s.job with silent := true }, programDied := true }

/-- A pending commit and the step-boundary set are discarded (R387). -/
def discardCommits (s : State) : State :=
  let st := rd s F.cm_STATE 0 0
  let s := { s with commit := { s.commit with
    snapshot := [], stepSet := [], setPending := false, setAtFrame := false, rewritten := [] } }
  let s := setb F.cm_MEMBERSHIP 0 0 false (setb F.cm_STEP_SET_HELD 0 0 false s)
  if st = 1 ∨ st = 2 then wr F.cm_STATE 0 0 0 s else s

/-- The part's response to the first device-fatal error (R387) (DEDUCED, log 94). A program dump not yet written is skipped
(R388). -/
def latchFatal (code type inst : Nat) (s : State) : State :=
  let s := if s.fault.programDue then sat F.fa_DUMPS_SKIPPED 0 0 1 s else s
  let s := setb F.fa_DEVICE_FATAL 0 0 true (wr F.fa_FATAL_CODE 0 0 code (wr F.fa_FATAL_TIME 0 0 (nowNs s)
    (wr F.fa_FATAL_TYPE 0 0 type (wr F.fa_FATAL_INST 0 0 inst s))))
  { wrU F.com_FAULT (unitOf type inst) 0 1 (wrU F.com_FAULT (unitOf 0x70 0) 0 1 s) with
    aux := { s.aux with
      fatal := true, type := type, inst := inst, time := nowNs s, step := stepNo s, code := code, dumpReady := false
      onShelf := false }
    fault := { s.fault with
      at' := s.core, step := stepNo s, epoch := rd s F.cm_EPOCH 0 0, time := nowNs s, src := unitOf type inst
      started := false, copyDue := false, programDue := false, fatalDue := code != 6 && code != 7 } }

/-- A device-fatal cause of unit `u` that is not the latched one: it goes to the error log and to SECOND_CODE (R387). -/
def laterFatal (u code : Nat) (s : State) : State :=
  errorLog (unitPage u) (unitInst u) 3 0x0A 0 false 0 code { s with fault := { s.fault with second := code } }

/-- A device-fatal error of fatal code `code` at page `type`, `inst` (R387). Of two in one register tick the lower
code is latched; the other goes to the error log, under its own unit, and to SECOND_CODE. -/
def deviceFatal (code type inst : Nat) (s : State) : State :=
  if rdb s F.fa_DEVICE_FATAL 0 0 then
    let old := rd s F.fa_FATAL_CODE 0 0
    if s.fault.at' / 4 = s.core / 4 ∧ code < old then laterFatal s.fault.src old (latchFatal code type inst s)
    else wrU F.com_FAULT (unitOf type inst) 0 1 (laterFatal (unitOf type inst) code s)
  else
    let s := latchFatal code type inst s
    let s := allGroups.foldl (fun s g => setReady (groupUnit g) false 0x0B 0 s) s
    withdraw (discardCommits s)

/-- MEMORY_STACK_LOST (R384): a memory controller lost its stack, fatal code 0x2. -/
def execMemoryStackLost (mc : Nat) (s : State) : Host.Outcome State Fault Refusal :=
  .next (if mc < s.variant.stacks ∧ mainRuns s then deviceFatal 0x2 0x30 mc s else s)

/-- WATCHDOG_EXPIRY (R384, R395): the firmware watchdog of control die `c` expires, fatal code 0x5; firmware no
longer runs there. -/
def execWatchdogExpiry (c : Nat) (s : State) : Host.Outcome State Fault Refusal :=
  .next (if c < 4 ∧ mainRuns s then deviceFatal 0x5 0x50 c (setReady (unitOf 0x50 c) false 0x09 0 s) else s)

/-- ROOT_PLL_LOST_LOCK (R384): fatal code 0x4. -/
def execRootPllLostLock (s : State) : Host.Outcome State Fault Refusal :=
  .next (if s.stage = .clocked then deviceFatal 0x4 0x03 0 s else s)

/-- REFCLK_FAULT (R371): fatal code 0x3, whether the root PLL has locked or not. -/
def execRefclkFault (s : State) : Host.Outcome State Fault Refusal :=
  .next (if mainRuns s then deviceFatal 0x3 0x03 0 s else s)

/-! ### Corrections and scrubbing (R380) -/

/-- The alarm of a unit's corrections (R380). -/
def corrAlarm (u : Nat) (s : State) : State :=
  setb F.fa_CORR_ALARM_SEEN 0 0 true (wr F.fa_CORR_ALARM_TYPE 0 0 (unitPage u) (wr F.fa_CORR_ALARM_INST 0 0 (unitInst u) s))

/-- CORR_SINGLE and CORR_DOUBLE of a unit rise (R380, R393). -/
def addCorrected (u singles doubles : Nat) (s : State) : State :=
  let fs := if unitPage u = 0x30 then (F.mc_CORR_SINGLE, F.mc_CORR_DOUBLE)
    else if unitPage u = 0x24 then (F.sp_CORR_SINGLE, F.sp_CORR_DOUBLE) else (F.dd_CORR_SINGLE, F.dd_CORR_DOUBLE)
  wrU fs.1 u 0 (rdU s fs.1 u 0 + singles) (wrU fs.2 u 0 (rdU s fs.2 u 0 + doubles) s)

/-- Words of a unit corrected now, with those of its last second, and the alarm (R380). -/
def noteCorrected (u singles doubles : Nat) (s : State) : State :=
  let now := nowNs s
  let s := addCorrected u singles doubles s
  let recent := ((nmGet [] u s.fault.corr).filter fun x => decide (now < x.1 + 1000000000)) ++ [(now, singles + doubles)]
  let s := { s with fault := { s.fault with corr := nmSet u recent s.fault.corr } }
  let limit := rd s F.fa_CORR_ALARM_LIMIT 0 0
  if limit ≠ 0 ∧ limit < (recent.map (·.2)).sum then corrAlarm u s else s

/-- The corrections of a whole scrub pass: whether more than the limit fell into one second is free where there were so many
(R380) (DESIGN CHOICE, log 147). -/
def noteScrubbed (u singles doubles : Nat) (s : State) : State :=
  let s := addCorrected u singles doubles s
  let limit := rd s F.fa_CORR_ALARM_LIMIT 0 0
  if limit ≠ 0 ∧ limit < singles + doubles then
    let r := free s
    if r.1 % 2 = 1 then corrAlarm u r.2 else r.2
  else s

/-- A unit that stores words or receives them over the fabric: a digital die, a scratchpad or a memory controller (R393). -/
def storageUnit (s : State) (page inst : Nat) : Bool :=
  (page == 0x20 || page == 0x24) && decide (inst < 4) || page == 0x30 && decide (inst < s.variant.stacks)

/-- A scrub pass of memory controller `mc` ends: the words it corrected, and the addresses of the words it found
uncorrectable, which are logged and marked poisoned (R380, R381). -/
def scrub (mc singles doubles : Nat) (bad : List Nat) (s : State) : State :=
  if s.variant.stacks ≤ mc ∨ rd s F.mc_SCRUB_INTERVAL mc 0 = 0 then s
  else
    let u := unitOf 0x30 mc
    let s := noteScrubbed u singles doubles s
    let s := bad.foldl (fun s a =>
      let s := wr F.mc_LAST_UNCORR_ADDR mc 0 a (sat F.mc_UNCORR mc 0 1 s)
      let s := setb F.fa_UNCORR_SEEN 0 0 true (sat F.fa_UNCORRECTABLE 0 0 1 s)
      poisonWord memSpace a (errorLog 0x30 mc 1 5 0 false a 1 (meetWords memSpace [a] s))) s
    sat F.mc_SCRUB_PASSES mc 0 1 s

/-! ### The end of a long operation over the fabric (R383) -/

/-- Delays the first operation of a die with a tag that has not landed. -/
def delayFirst (die tag late : Nat) : List PendingOp → List PendingOp
  | [] => []
  | p :: ps => if p.die = die ∧ p.tag = tag ∧ p.landed = false then { p with land := p.land.map (· + late) } :: ps
    else p :: delayFirst die tag late ps

/-- The tag that logs name an operation of the tracker by: a chain entry of endpoint e, tracked under die 16 + e, shows 0xFB and
e (R195). -/
def opTag (die tag : Nat) : Nat := if die < 4 then tag else 0xFB * 2 ^ 12 + (die - 16)

/-- What bit errors did: retries count on the digital die that received the words, corrections on the unit that holds the word,
and words that went bad are uncorrectable from now on (R379, R380, R383, R393) (DEDUCED, log 48). -/
def noteMet (m : Met) (s : State) : State :=
  let s := m.retries.foldl (fun s r => if r.1 < 4 then sat F.dd_FABRIC_RETRIES r.1 0 r.2 s else s) s
  let s := m.corrected.foldl (fun s c =>
    if storageUnit s c.page c.inst then noteCorrected (unitOf c.page c.inst) c.singles c.doubles s else s) s
  m.broken.foldl (fun s b => breakWord b.1 b.2 s) s

/-- A long operation whose fabric words were sent again lands `late` core cycles after its landing cycle (R383). -/
def retryOp (die tag late : Nat) (s : State) : State :=
  let s := match findOp s die tag with
    | some p => if p.land.isSome then remarkLines p (p.land.map (· + late)) s else s
    | none => s
  { s with tracker := delayFirst die tag late s.tracker }

end Sys2Proof.Machine
end

