-- ==== Sys2Proof/Machine/Drives.lean ====
section
/-! DEFINITION. Commands to the NVMe drives (R336, R338, R339): the I/O queue pair of each control die, the transfers of
the shelf, the ledgers and the dump, and the commands that make a drive ready. -/

namespace Sys2Proof.Machine

open Sys2Proof

/-- The drives in use. -/
def readyDrives (s : State) : List Nat := (List.range 4).filter fun c => rdb s F.sh_DRIVE_READY c 0

/-- What a control die has issued to its drive and what waits to be issued. -/
def driveX (s : State) (c : Nat) : DriveX := nmGet {} c s.drives

/-- Replaces it. -/
def setDrive (c : Nat) (d : DriveX) (s : State) : State := { s with drives := nmSet c d s.drives }

/-- A transfer of `n` bytes at byte `off` of namespace 1: whole data blocks, at most 1 MiB each (R336). -/
def transfer (op : Nat → Nat → DriveCmd) (off n : Nat) : List DriveCmd :=
  let len := ceilDiv n 4096 * 4096
  (List.range (ceilDiv len (2 ^ 20))).map fun k => op (off + 2 ^ 20 * k) (min (2 ^ 20) (len - 2 ^ 20 * k))

/-- Commands that can be issued now: the queue pair has 64 entries, and a flush waits for everything before it and holds
back what follows (R277, R336) (DEDUCED, log 145). -/
def issuable (d : DriveX) : List DriveCmd :=
  if d.waiting.any fun o => o.1 == .flush then []
  else match d.todo with
    | .flush :: _ => if d.waiting.isEmpty then [.flush] else []
    | _ => (d.todo.takeWhile (· != .flush)).take (64 - d.waiting.length)

/-- What can be issued to a drive leaves. -/
def drivePump (c : Nat) (s : State) : State :=
  let d := driveX s c
  let go := issuable d
  go.foldl (fun s o => emit (.drive c o) s)
    (setDrive c { waiting := d.waiting ++ go.map fun o => (o, nowNs s), todo := d.todo.drop go.length } s)

/-- Commands for a drive in use. -/
def driveIssue (c : Nat) (os : List DriveCmd) (s : State) : State :=
  if rdb s F.sh_DRIVE_READY c 0 then drivePump c (setDrive c { driveX s c with todo := (driveX s c).todo ++ os } s) else s

/-- The same commands for every drive in use. -/
def driveAll (os : List DriveCmd) (s : State) : State := (readyDrives s).foldl (fun s c => driveIssue c os s) s

/-- Places on namespace 1 of the ledger copies and the session count (R338). -/
def ledgerPlace (copy : Nat) : Nat := (64 + 128 * copy) * 2 ^ 20
def sessionPlace : Nat := 320 * 2 ^ 20

/-- The command writes to `[a, b)` of namespace 1. -/
def DriveCmd.writesIn (a b : Nat) : DriveCmd → Bool
  | .write off _ => decide (a ≤ off ∧ off < b)
  | _ => false

/-- No write to `[a, b)` of drive `c` and no flush is left: what was written there is on the drive. -/
def driveSettled (s : State) (c a b : Nat) : Bool :=
  let d := driveX s c
  !((d.waiting.map (·.1) ++ d.todo).any fun o => o == .flush || o.writesIn a b)

/-- Copies on drive `c` whose writes have all completed are sound (R338). -/
def noteSound (c : Nat) (s : State) : State :=
  let mark (a b : Nat) (l : List ShelfCopy) : List ShelfCopy :=
    if driveSettled s c a b then l.map fun x => if x.drive = c then { x with sound := true } else x else l
  { s with shelf := { s.shelf with
    ledgers := mark (ledgerPlace 0) (ledgerPlace 2) s.shelf.ledgers
    sessions := mark sessionPlace (sessionPlace + 4096) s.shelf.sessions } }

/-- The `k`-th oldest command that waits on a drive is complete. -/
def driveDone (c k : Nat) (s : State) : State :=
  noteSound c (drivePump c (setDrive c { driveX s c with waiting := (driveX s c).waiting.eraseIdx k } s))

/-- Drive `c` has done everything that was asked of it. -/
def driveIdle (s : State) (c : Nat) : Bool := (driveX s c).waiting.isEmpty && (driveX s c).todo.isEmpty

/-- The drives in use have done everything that was asked of them. -/
def drivesIdle (s : State) : Bool :=
  (readyDrives s).all (driveIdle s)

/-! ### Copies of a dump (R389, R391) -/

/-- Word `i` of some bytes. -/
def wordAt (bs : List Byte) (i : Nat) : Nat := leNat ((bs.drop (8 * i)).take 8)

/-- A dump whose magic number, header CRC and section CRCs all match (R389). -/
def dumpSound (bs : List Byte) : Bool :=
  let n := wordAt bs 8 % 2 ^ 16
  let table := (bs.drop 256).take (32 * n)
  wordAt bs 0 % 2 ^ 32 == 0x504D5544 && wordAt bs 11 == (crc64 (bs.take 88 ++ table)).toNat &&
    (List.range n).all fun i =>
      let e := table.drop (32 * i)
      wordAt e 3 == (crc64 ((bs.drop (wordAt e 1)).take (wordAt e 2))).toNat

/-- The ready drives that hold a sound copy of a dump, and the copies (R391). -/
def shelfDumps (s : State) : List (Nat × List Byte) :=
  (readyDrives s).filterMap fun c => ((smFind c s.fault.shelf).filter dumpSound).map fun bs => (c, bs)

/-- The copy that a restore would load. -/
def shelfDump (s : State) : Option (Nat × List Byte) := (shelfDumps s).head?

/-- The newest of some copies whose CRC matches (R338). -/
def newestCopy (l : List ShelfCopy) : Option ShelfCopy :=
  l.foldl (fun a c => if c.sound && (match a with
    | some b => decide (b.order < c.order)
    | none => true) then some c else a) none

/-- The newest copy of the ledgers on the drives in use (R338). -/
def newestLedger (s : State) : Option ShelfCopy :=
  newestCopy (s.shelf.ledgers.filter fun c => (readyDrives s).contains c.drive)

/-- Copies whose writing was cut off have no matching CRC, and are as good as none (R338). -/
def dropTorn (p : Nat → Bool) (s : State) : State :=
  let keep (l : List ShelfCopy) : List ShelfCopy := l.filter fun x => x.sound || !p x.drive
  { s with shelf := { s.shelf with ledgers := keep s.shelf.ledgers, sessions := keep s.shelf.sessions } }

/-- A drive is given up: what was asked of it is dropped. -/
def driveStop (c : Nat) (s : State) : State := dropTorn (· == c) (setDrive c {} s)

/-- The commands that make a drive ready (R336) (DEDUCED, log 145): identification, the write cache and the number of
queues, and the queue pair. -/
def driveStart : List DriveCmd := [.identify 1, .identify 0, .setFeatures 6, .setFeatures 7, .createCq, .createSq]

/-- What a completed command moved, on the shelf page (R343) (DEDUCED, log 110). -/
def driveCount (c : Nat) (o : DriveCmd) (s : State) : State :=
  match o with
  | .read _ n => addW F.sh_BYTES_READ c 0 n s
  | .write _ n => addW F.sh_BYTES_WRITTEN c 0 n s
  | _ => s

/-- Places on namespace 1 of the dump area and of shelf slot `k` (R338). -/
def dumpPlace : Nat := 2 ^ 30
def slotPlace (s : State) (k : Nat) : Nat := 4 * 2 ^ 30 + k * rd s F.sh_SLOT_BYTES 0 0

/-- Bytes of the ledgers, and of one array die's share of them (R338). -/
def ledgerBytes : Nat := 16640 * 512 * 8
def dieLedgerBytes : Nat := 1040 * 512 * 8

/-- The ledgers are written to the copies alternately, on every drive in use, each ending in its CRC (R338). -/
def driveLedgers (s : State) : State :=
  let k := s.shelf.copy
  let news := (readyDrives s).map fun c =>
    ({ drive := c, copy := k, order := s.shelf.order, ledger := s.ledger, base := s.ledgerBase } : ShelfCopy)
  let kept := s.shelf.ledgers.filter fun x => !(x.copy == k && (readyDrives s).contains x.drive)
  driveAll (transfer .write (ledgerPlace k) (ledgerBytes + 8) ++ [.flush])
    { s with shelf := { s.shelf with copy := 1 - k, order := s.shelf.order + 1, ledgers := kept ++ news } }

/-- The session count is written to drive `c` in the same way, within its one block (R338) (DEDUCED, log 158). -/
def driveSession (c : Nat) (s : State) : State :=
  let k := s.shelf.sessionCopy
  let new : ShelfCopy := { drive := c, copy := k, order := s.shelf.order, session := s.shelf.session }
  driveIssue c [.write sessionPlace 4096, .flush]
    { s with shelf := { s.shelf with
      sessionCopy := 1 - k, order := s.shelf.order + 1
      sessions := s.shelf.sessions.filter (fun x => !(x.copy == k && x.drive == c)) ++ [new] } }

/-- The label of drive `c` (R338). -/
def driveLabel (s : State) (c : Nat) : Nat × Nat × Nat := (rd s F.id_SERIAL 0 0, c, rd s F.sh_SLOT_BYTES 0 0)

/-- Firmware writes the label of a drive that does not hold it (R338) (DEDUCED, log 158). -/
def writeLabel (c : Nat) (s : State) : State :=
  if smFind c s.shelf.labels = some (driveLabel s c) then s
  else driveIssue c [.write 0 4096, .flush] { s with shelf := { s.shelf with labels := nmSet c (driveLabel s c) s.shelf.labels } }

/-- The share of an array die is read from both copies of the ledgers (R338). -/
def driveReadLedger (die : Nat) (s : State) : State :=
  match readyDrives s with
  | [] => s
  | c :: _ => driveIssue c ([0, 1].flatMap fun k => transfer .read (ledgerPlace k + die * dieLedgerBytes) dieLedgerBytes) s

/-- The stripes of an image body of `n` bytes that the drive in place `j` of `m` holds (R339): byte place and length, for
slot `k`. -/
def stripes (s : State) (k j m n : Nat) : List (Nat × Nat) :=
  ((List.range (ceilDiv n (2 ^ 20))).filter fun i => i % m == j).map fun i =>
    (slotPlace s k + 2 ^ 20 * (1 + i / m), min (2 ^ 20) (n - 2 ^ 20 * i))

/-- An image with a body of `n` bytes is written to slot `k`: the body, a flush, the header block, a flush (R277, R339). -/
def driveImage (k n : Nat) (s : State) : State :=
  let ds := readyDrives s
  ds.zipIdx.foldl (fun s cj => driveIssue cj.1
    (((stripes s k cj.2 ds.length n).flatMap fun p => transfer .write p.1 p.2) ++ [.flush] ++
      transfer .write (slotPlace s k) (2 ^ 20) ++ [.flush, .getLog 2]) s) s

/-- The image of slot `k`, striped over `ds` with a body of `n` bytes, is read (R339). -/
def driveReadImage (k n : Nat) (ds : List Nat) (s : State) : State :=
  ds.zipIdx.foldl (fun s cj => driveIssue cj.1
    (transfer .read (slotPlace s k) (2 ^ 20) ++ (stripes s k cj.2 ds.length n).flatMap fun p => transfer .read p.1 p.2) s) s

end Sys2Proof.Machine
end

