-- ==== Sys2Proof/Machine/Sweep.lean ====
section
/-! DEFINITION. The cupping sweep (R73 to R85, R87): sweep conversions, window comparators and events, the rebuilt
tables and their swap, and the cupping verify (R86, R109, R112, R113). The nominal fine code of every conversion is
computed from what it measures; by how much a converter's fine code departs from it is the analogue world's and comes
with the command (DESIGN CHOICE, log 20). -/

namespace Sys2Proof.Machine

open Sys2Proof

/-! ### Where an array stands -/


/-- The group page that shows an array: its group's, or for a spare the one SPARE_SEL.GROUP names. A spare's events,
bands, latches and limits are that page's (DESIGN CHOICE, log 126). -/
def pageInst (s : State) (die p : Nat) : Nat := (groupFor s die p).getD (16 * die + rd s F.ad_GROUP die 0)

/-- A spare that no logical array names. -/
def isSpare (s : State) (die p : Nat) : Bool := (logicalOf s die p).isNone

/-- An array that exists, is not retired and whose die has its supply. -/
def arrayLive (s : State) (die p : Nat) : Bool :=
  decide (die < 16) && decide (p < 1040) && !(arrX s die p).retired && !s.dark.contains die

/-- Changes what an array holds for its sweep. -/
def modSweep (die p : Nat) (f : SweepX → SweepX) (s : State) : State :=
  let x := arrX s die p
  setArrX die p { x with sweep := f x.sweep } s

/-- The sweep of an array. -/
def sweepOf (s : State) (die p : Nat) : SweepX := (arrX s die p).sweep

/-- Alignment period `n` starts a slot that the column write running on an array takes (R95): one of its settled slots, or
one that is open to it as things stand. -/
def writeSlotStart (s : State) (die p n : Nat) : Bool :=
  match (arrX s die p).write with
  | some w => w.running && (if n < w.upTo then w.slots.contains n else writeSlotOpen s die p n)
  | none => false

/-- A write slot or the request before it takes alignment period `n` (R95). -/
def writeTakes (s : State) (die p n : Nat) : Bool := (List.range 9).any fun k =>
  decide (k ≤ n + 1) && writeSlotStart s die p (n + 1 - k)

/-- No product occupies the array, converts on it or is issued to it in alignment period `n` (R77). -/
def foregroundFree (s : State) (die p n : Nat) : Bool :=
  let x := arrX s die p
  !(decide (x.fgFrom ≤ n + 1) && decide (n < x.fgUntil))

/-! ### Events (R83, R84) -/

/-- An event; what the spec gives its kind no value for is none. -/
structure BandEvent where
  kind : Nat
  conv : Option Nat := none
  slice : Option Nat := none
  col : Nat := 0
  rg : Nat := 3
  reading : Option F32 := none
  expected : Option F32 := none
  deriving DecidableEq, Repr

/-- A value where there is one, and a free value where the spec gives none (DESIGN CHOICE, log 3). -/
def orFree (v : Option Nat) (s : State) : Nat × State :=
  match v with
  | some n => (n, s)
  | none => free s

/-- The latch an event kind sets. -/
def eventLatch (kind : Nat) : Option Field :=
  if kind ≤ 5 then some F.ag_BAND_EVENT_SEEN
  else if kind = 6 then some F.ag_REF_CELL_EVENT
  else if kind = 7 then some F.ag_TRIM_LIMIT
  else if kind = 8 then some F.ag_SWEEP_STALE
  else none

/-- QUEUE_DEPTH and DRIFT_MAX of an array, which firmware writes from its rewrite queue (R99). -/
def showQueue (die p : Nat) (s : State) : State :=
  let q := (arrX s die p).queue
  let top := q.foldl (fun m e => max m e.key) 0
  wrA F.ag_DRIFT_MAX die p 0 top (wrA F.ag_QUEUE_DEPTH die p 0 q.length s)

/-- A column queued for rewrite with key `key` (R99): one queued already keeps its place and takes the larger key. Keys
are never negative, so that their patterns order as their values do. -/
def queueColumn (die p j key : Nat) (event : Bool) (s : State) : State :=
  let x := arrX s die p
  let q := if x.queue.any (·.col == j) then
      x.queue.map fun e => if e.col = j then { e with key := max e.key key } else e
    else x.queue ++ [⟨j, key, event⟩]
  showQueue die p (setArrX die p { x with queue := q } s)

/-- A column leaves the rewrite queue. -/
def dequeueColumn (die p j : Nat) (s : State) : State :=
  let x := arrX s die p
  if x.queue.any (·.col == j) then showQueue die p (setArrX die p { x with queue := x.queue.filter (·.col != j) } s) else s

/-- An event of kind 0x4 queues its column for rewrite, unless the column is in bypass (R99, R104). -/
def queueEvent (die p : Nat) (e : BandEvent) (s : State) : State :=
  if e.kind == 4 && !inBypass s die p e.col && rdA s F.ag_PERMANENT die p e.col == 0 then queueColumn die p e.col 0 true s
  else s

/-- Raises an event of an array: the record for the control die of the array die, the count and the latch. -/
def raiseEvent (die p : Nat) (e : BandEvent) (s : State) : State :=
  let inst := pageInst s die p
  let (arr, s) := orFree ((logicalOf s die p).map (· % 64)) s
  let (conv, s) := orFree e.conv s
  let (slice, s) := orFree e.slice s
  let (rdg, s) := orFree (e.reading.map (·.toNat)) s
  let (ex, s) := orFree (e.expected.map (·.toNat)) s
  let w1 := arr % 64 + (conv % 128) * 2 ^ 6 + (slice % 4) * 2 ^ 13 + e.col * 2 ^ 15 + e.kind * 2 ^ 24 + e.rg * 2 ^ 28 +
    (rdg % 2 ^ 32) * 2 ^ 32
  let s := emit (.event (die / 4) (nowNs s) w1 (ex % 2 ^ 32 + inst * 2 ^ 32)) s
  let s := addW F.cd_EVENTS (die / 4) 0 1 s
  let s := if e.kind ≤ 6 then sat F.ag_BAND_EVENTS inst 0 1 s else s
  let s := queueEvent die p e s
  match eventLatch e.kind with
  | some f => setb f inst 0 true s
  | none => s

/-- Raises events in order. -/
def raiseEvents (die p : Nat) (es : List BandEvent) (s : State) : State :=
  es.foldl (fun s e => raiseEvent die p e s) s

/-! ### Bands (R83) -/

/-- A finite value × 2^149, an integer; none for the rest. -/
def fixedOf (x : F32) : Option Int :=
  match f32Val x with
  | .fin neg m e => some ((if neg then -1 else 1) * (m * 2 ^ (e + 149).toNat : Nat))
  | _ => none

/-- `v` lies within `bn / bd` of `en / ed`, compared exactly (DEDUCED, log 51). -/
def within (v : F32) (en : Int) (ed bn bd : Nat) : Bool :=
  match fixedOf v with
  | some x => decide ((x * ed - en * 2 ^ 149).natAbs * bd ≤ bn * 2 ^ 149 * ed)
  | none => false

/-- `v` lies within a share `rn / rd` of the nominal's magnitude plus `add` of the nominal. -/
def withinNominal (v nom : F32) (rn rd add : Nat) : Bool :=
  match fixedOf v, fixedOf nom with
  | some x, some n => decide ((x - n).natAbs * rd ≤ n.natAbs * rn + add * 2 ^ 149 * rd)
  | _, _ => false

/-- The band preset of a group, with the three standard settings and the expert field. -/
def bandOf (s : State) (inst : Nat) (narrow std wide : Nat) (expert : Field) : Nat :=
  match rd s F.ag_BAND_PRESET inst 0 with
  | 0 => narrow
  | 1 => std
  | 2 => wide
  | _ => rd s expert inst 0

/-- Offset and skew bands in 1/256 step. -/
def offsetBand (s : State) (inst : Nat) : Nat := bandOf s inst 64 128 256 F.ag_OFFSET_BAND
def skewBand (s : State) (inst : Nat) : Nat := bandOf s inst 64 128 256 F.ag_SKEW_BAND

/-- The gain band as a share of the expected value: numerator and denominator. -/
def gainBand (s : State) (inst : Nat) : Nat × Nat :=
  match rd s F.ag_BAND_PRESET inst 0 with
  | 0 => (5, 1000)
  | 1 => (10, 1000)
  | 2 => (20, 1000)
  | _ => (rd s F.ag_GAIN_BAND inst 0, 65536)

/-- The column-sum band: share and addend. -/
def sumBand (s : State) (inst : Nat) : Nat × Nat × Nat :=
  match rd s F.ag_BAND_PRESET inst 0 with
  | 0 => (1, 100, 32)
  | 1 => (2, 100, 64)
  | 2 => (4, 100, 128)
  | _ => (rd s F.ag_COLSUM_REL inst 0, 65536, rd s F.ag_COLSUM_ABS inst 0)

/-- A column sum is in the band of a nominal. -/
def inSumBand (s : State) (inst : Nat) (v nom : F32) : Bool :=
  let b := sumBand s inst
  withinNominal v nom b.1 b.2.1 b.2.2

/-- The expected reading of a pair at slice `k`, as a fraction (R74). -/
def expectedReading (pair k : Nat) : Int × Nat :=
  match pair with
  | 0 => (1016, 10)
  | 1 => (-1016, 10)
  | 2 => (1016, 15)
  | _ => (1016 - 40 * (k : Int), 10)

/-- The expected reading in F32. -/
def expectedF32 (pair k : Nat) : F32 :=
  let e := expectedReading pair k
  (mkF32 (decide (e.1 < 0)) e.1.natAbs e.2 0).val

/-- A quantity's out-of-band state after a reading; an event where it moves out of band. -/
def judge (key : Nat) (ok : Bool) (e : BandEvent) (acc : SweepX × List BandEvent) : SweepX × List BandEvent :=
  let (x, es) := acc
  if ok then ({ x with oob := x.oob.filter (· != key) }, es)
  else if x.oob.contains key then (x, es)
  else ({ x with oob := x.oob ++ [key] }, es ++ [e])

/-! ### Readings (R75, R76) -/

/-- Factor of a trim word at a range gain (R72). -/
def trimFactor (trim g : Nat) : F32 := (mkF32 false (3584 + bits trim (16 + 18 * g) 10) 1 (-12)).val

/-- Offset trim in 1/16 step. -/
def trimOffset (trim g : Nat) : Int := signedOf (bits trim (8 + 18 * g) 8) 8

/-- A slice's reading from its fine code (R75). -/
def sweepReading (trim g : Nat) (fine : Int) : F32 :=
  let d := max (-2048) (min 2047 fine) - trimOffset trim g
  (fmul (mkF32 (decide (d < 0)) d.natAbs 1 (-4)).val (trimFactor trim g)).val

/-- What sweep conversion `pos` measures: the block, and within it the conversion (R76). -/
def sweepPlace (pos : Nat) : Nat × Nat := (pos / 200, pos % 200)

/-- Keys of the out-of-band states. -/
def offsetKey (j g : Nat) : Nat := j * 3 + g
def gainKey (j g pair : Nat) : Nat := 2000 + (j * 3 + g) * 3 + pair
def skewKey (j : Nat) : Nat := 10000 + j
def sumKey (standby : Bool) (j : Nat) : Nat := 11000 + 512 * b2n standby + j

/-- The table trims in force, by slice. -/
def trimAt (s : State) (die p j : Nat) : Nat := rdA s F.ag_TRIM_CUR die p j

/-- The readings of a conversion by slice, with whether the comparator tripped. `nominal j` is the reading that slice
`j` should give, in steps, as a fraction; `codes` says by how much each fine code departs from its nominal value. -/
def readings (s : State) (die p g : Nat) (nominal : Nat → Int × Nat) (codes : List (Nat × Int)) (tripped : List Nat) :
    List (Nat × F32 × Bool) :=
  (List.range 512).map fun j =>
    let trim := trimAt s die p j
    let n := nominal j
    (j, sweepReading trim g (nominalCode trim g 16 n.1 n.2 + smGet 0 j codes), tripped.contains j)

/-- Row-gain code of the reference rows in a reference conversion (R74). -/
def refGainCode (g : Nat) : Nat := [192, 64, 0].getD g 0

/-- A reading of an offset (R76, R83). -/
def offsetReading (band g : Nat) (r : Nat × F32 × Bool) (acc : SweepX × List BandEvent) : SweepX × List BandEvent :=
  let (j, v, trip) := r
  let (x, es) := judge (offsetKey j g) (!trip && within v 0 1 band 256)
    { kind := 1, conv := some (j / 4), slice := some (j % 4), rg := g, reading := some v, expected := some 0 } acc
  let old := nmGet ((0 : Nat), 0) (offsetKey j g) x.offs
  let sum := ((fadd (BitVec.ofNat 32 old.1) v).val.toNat, old.2 + 1)
  (if trip then x else { x with offs := nmSet (offsetKey j g) sum x.offs }, es)

/-- A reading of a reference pair (R76, R80, R83). -/
def pairReading (gb : Nat × Nat) (sb g rho : Nat) (r : Nat × F32 × Bool) (acc : SweepX × List BandEvent) :
    SweepX × List BandEvent :=
  let (j, v, trip) := r
  let k := j % 4
  let pair := (k + rho) % 4
  let en := expectedReading pair k
  let ok := !trip && (if pair = 3 then within v en.1 en.2 sb 256
    else within v en.1 en.2 (en.1.natAbs * gb.1) (en.2 * gb.2))
  let e : BandEvent :=
    { kind := if pair = 3 then 3 else 2, conv := some (j / 4), slice := some k, rg := g, reading := some v
      expected := some (expectedF32 pair k) }
  let (x, es) := judge (if pair = 3 then skewKey j else gainKey j g pair) ok e acc
  let x := if trip then x else { x with refs := nmSet ((j * 3 + g) * 4 + pair) v.toNat x.refs }
  let out := nmGet [] (pair * 3 + g) x.refOut
  if ok || out.contains (j / 4) then (x, es)
  else
    ({ x with refOut := nmSet (pair * 3 + g) (out ++ [j / 4]) x.refOut },
     if out.length = 64 then es ++ [{ e with kind := 6 }] else es)

/-- A reference conversion (R76). -/
def referenceConversion (s : State) (die p n : Nat) (codes : List (Nat × Int)) (tripped : List Nat) (x : SweepX) :
    SweepX × List BandEvent :=
  let inst := pageInst s die p
  let g := n / 512
  let c := (n % 512) / 4
  let nominal (j : Nat) : Int × Nat :=
    if j / 4 = c then expectedReading ((j % 4 + n % 4) % 4) (j % 4) else (0, 1)
  (readings s die p g nominal codes tripped).foldl (fun acc r =>
    if r.1 / 4 = c then pairReading (gainBand s inst) (skewBand s inst) g (n % 4) r acc
    else offsetReading (offsetBand s inst) g r acc) (x, [])

/-- The charge of column `j` in a column-sum conversion of row group `rg`, in 1/128 charge units: every row of the group
outside the applicable outlier set at code 1 and its row gain (R76). -/
def groupCharge (s : State) (die p rg : Nat) (standby : Bool) (j : Nat) : Int :=
  let out := outlierSlots s standby die p
  let gain (i : Nat) : Nat := if standby then stgU s F.ag_ROW_GAIN_STG (arrayUnit die) (arrIdx p i)
    else rdA s F.ag_ROW_GAIN_CUR die p i
  let lv := nmGet [] j (arrX s die p).cells
  if lv.isEmpty then 0
  else ((List.range 128).map (· + 128 * rg)).foldl (fun a i =>
    if out.contains (some i) then a else a + (gain i + 64 : Nat) * lv.getD i 0) 0

/-- One block value: ((((v0 + v1) + v2) + v3) × 14400) / 127 (R81). -/
def blockValue (vs : List F32) : F32 :=
  let sum := match vs with
    | v :: rest => rest.foldl (fun a b => (fadd a b).val) v
    | [] => 0
  (fdiv ((fmul sum (natToF32 14400)).val) (natToF32 127)).val

/-- A column-sum conversion of row group `rg`: readings are kept, and at the last group of a set each column's block
value is formed and compared (R76, R81, R83). A reading whose comparator tripped makes its block value out of band
and unused by the table. -/
def columnConversion (s : State) (die p rg : Nat) (standby : Bool) (codes : List (Nat × Int)) (tripped : List Nat)
    (x : SweepX) : SweepX × List BandEvent :=
  let inst := pageInst s die p
  let nominal (j : Nat) : Int × Nat := (groupCharge s die p rg standby j * 508, 57600 * 128)
  let rs := readings s die p 2 nominal codes tripped
  let keep (x : SweepX) (r : Nat × F32 × Bool) : SweepX :=
    { x with vals := nmSet (r.1 * 4 + rg) (r.2.1.toNat + b2n r.2.2 * 2 ^ 32) x.vals }
  let x := rs.foldl keep x
  if rg < 3 then (x, [])
  else
    let spare := isSpare s die p
    let (x, es) := (List.range 512).foldl (fun (acc : SweepX × List BandEvent) j =>
      let vs := (List.range 4).map fun q => nmGet 0 (j * 4 + q) acc.1.vals
      let trip := vs.any fun v => bitOf v 32
      let b := blockValue (vs.map fun v => BitVec.ofNat 32 v)
      let nom : F32 := BitVec.ofNat 32 (rdA s (if standby then F.ag_NOM_STG else F.ag_NOM_CUR) die p j)
      let (x, es) := judge (sumKey standby j) (!trip && inSumBand s inst b nom)
        { kind := if standby then 5 else 4, conv := some (j / 4), slice := some (j % 4), col := j, rg := 2
          reading := some b, expected := some nom } acc
      let x :=
        if standby then
          (if x.stgBroken then x
           else { x with stgSum := nmSet j ((fadd (BitVec.ofNat 32 (nmGet 0 j x.stgSum)) b).val.toNat) x.stgSum })
        else if trip || x.skip.contains j then x
        else { x with blocks := nmSet j (nmGet [] j x.blocks ++ [b.toNat]) x.blocks }
      (x, es)) (x, [])
    ({ x with vals := [] }, if spare then [] else es)

/-- A complete standby-gain set: COLSUM_STG and STG_VALID (R81). -/
def standbySet (die p : Nat) (s : State) : State :=
  let x := sweepOf s die p
  if x.stgBroken then s
  else
    let n := x.stgCount + 1
    let s := modSweep die p (fun x => { x with stgCount := n }) s
    let s := (List.range 512).foldl (fun s j =>
      wrA F.ag_COLSUM_STG die p j (fdiv (BitVec.ofNat 32 (nmGet 0 j x.stgSum)) (natToF32 n)).val.toNat s) s
    wrA F.ag_STG_VALID die p 0 1 s

/-- A staged write to ROW_GAIN_STG or the outlier fields of an array, or a DISCARD that changes them, restarts the
standby-gain sums (R81). -/
def stagedGainWrite (die p : Nat) (s : State) : State :=
  wrA F.ag_STG_VALID die p 0 0
    (modSweep die p (fun x => { x with stgSum := [], stgCount := 0, stgBroken := true }) s)

/-! ### The rebuilt table (R79 to R81) -/

/-- The mean of F32 values: their F32 sum in the order of the conversions, divided by their number, each operation
rounded to nearest even (DESIGN CHOICE, log 50). -/
def meanF32 (vs : List F32) : Option F32 :=
  match vs with
  | [] => none
  | _ => some (fdiv (vs.foldl (fun a b => (fadd a b).val) 0) (natToF32 vs.length)).val

/-- The nearest integer of an F32 value; an infinity lies beyond every limit that a clamp holds, and of a NaN the spec
states no result (DESIGN CHOICE, log 127). -/
def roundF32 (v : F32) : Int :=
  match f32Val v with
  | .nan => Config.nanRound
  | .inf neg => if neg then -(2 ^ 160) else 2 ^ 160
  | e => extRound e

/-- A pair's readings at a range gain are used in the rebuild (R80). -/
def pairUsed (x : SweepX) (pair g : Nat) : Bool := decide ((nmGet [] (pair * 3 + g) x.refOut).length ≤ 64)

/-- ρ of slice `j` at a range gain: the mean of reading ÷ expected of pairs 0 to 2 (R79). -/
def rhoOf (x : SweepX) (j g : Nat) : Option F32 :=
  meanF32 ((List.range 3).filterMap fun pair =>
    if pairUsed x pair g then
      (smFind ((j * 3 + g) * 4 + pair) x.refs).map fun v =>
        (fdiv (BitVec.ofNat 32 v) (expectedF32 pair (j % 4))).val
    else none)

/-- A value clamped, with whether the clamp acted. -/
def clampInt (v lo hi : Int) : Int × Bool := (max lo (min v hi), decide (v < lo ∨ hi < v))

/-- 2^F in F32. -/
def pow2Filter (f : Nat) : F32 := natToF32 (2 ^ f)

/-- The new offset and gain of slice `j` at range gain `g`, and whether each was clamped. A slice without a usable reading at
the gain keeps its trim there (DESIGN CHOICE, log 50). -/
def rebuildGain (x : SweepX) (filt j g trim : Nat) : (Int × Bool) × (Int × Bool) :=
  let f := trimFactor trim g
  let off0 := trimOffset trim g
  let o := nmGet ((0 : Nat), 0) (offsetKey j g) x.offs
  let off := if o.2 = 0 then (off0, false)
    else
      let e := (fdiv (BitVec.ofNat 32 o.1) (natToF32 o.2)).val
      let d := (fdiv ((fmul (natToF32 16) e).val) ((fmul f (pow2Filter filt)).val)).val
      clampInt (off0 + roundF32 d) (-128) 127
  let gain := match rhoOf x j g with
    | none => ((bits trim (16 + 18 * g) 10 : Int), false)
    | some rho =>
      let f' := (fadd f ((fdiv ((fsub ((fdiv f rho).val) f).val) (pow2Filter filt)).val)).val
      clampInt (roundF32 ((fmul (natToF32 4096) f').val) - 3584) 0 1023
  (off, gain)

/-- The new skew of slice `j`, and whether it was clamped. A range gain for which ρ or the reading of pair 3 has no value
is left out of the mean (DESIGN CHOICE, log 50). -/
def rebuildSkew (x : SweepX) (filt j trim : Nat) : Int × Bool :=
  let ts := (List.range 3).filterMap fun g =>
    if pairUsed x 3 g then
      match smFind ((j * 3 + g) * 4 + 3) x.refs, rhoOf x j g with
      | some v, some rho => some ((fsub (expectedF32 3 (j % 4)) ((fdiv (BitVec.ofNat 32 v) rho).val)).val)
      | _, _ => none
    else none
  let skew := signedOf (bits trim 0 6) 6
  match meanF32 ts with
  | none => (skew, false)
  | some tau => clampInt (skew - roundF32 ((fdiv ((fmul (natToF32 32) tau).val) (pow2Filter filt)).val)) (-32) 31

/-- The standby trim word of slice `j` and the trim-limit events it raises. -/
def rebuildTrim (x : SweepX) (filt j trim : Nat) : Nat × List BandEvent :=
  let gs := (List.range 3).map fun g => rebuildGain x filt j g trim
  let sk := rebuildSkew x filt j trim
  let w := gs.zipIdx.foldl (fun w gi =>
    splice (splice w (8 + 18 * gi.2) 8 (unsignedOf gi.1.1.1 8)) (16 + 18 * gi.2) 10 (unsignedOf gi.1.2.1 10)) trim
  let ev (g : Nat) : BandEvent := { kind := 7, conv := some (j / 4), slice := some (j % 4), rg := g }
  (splice w 0 6 (unsignedOf sk.1 6),
   gs.zipIdx.flatMap (fun gi => (if gi.1.1.2 then [ev gi.2] else []) ++ (if gi.1.2.2 then [ev gi.2] else [])) ++
     (if sk.2 then [ev 3] else []))

/-- The standby column sum of column `j` (R81): none where no block counts. -/
def rebuildSum (x : SweepX) (j : Nat) : Option F32 :=
  match nmGet [] j x.blocks with
  | [] => none
  | bs =>
    let sum := bs.foldl (fun a b => (fadd a (BitVec.ofNat 32 b)).val) (0 : F32)
    some (fdiv ((fmul sum ((fdiv (natToF32 8) (natToF32 bs.length)).val)).val) (natToF32 8)).val

/-- Builds the standby table of an array from its cycle (R79, R81). -/
def buildTable (die p : Nat) (s : State) : State :=
  let x := sweepOf s die p
  let inst := pageInst s die p
  let filt := if x.verify then 0 else rd s F.ag_TRIM_FILTER inst 0
  let trims := (List.range 512).map fun j => rebuildTrim x filt j (trimAt s die p j)
  let s := (trims.zipIdx).foldl (fun s tj => wrA F.ag_TRIM_STBY die p tj.2 tj.1.1 s) s
  let s := (List.range 512).foldl (fun s j =>
    match rebuildSum x j with
    | some v => wrA F.ag_STBY_MEASURED die p j 1 (wrA F.ag_COLSUM_STBY die p j v.toNat s)
    | none => wrA F.ag_STBY_MEASURED die p j 0 (wrA F.ag_COLSUM_STBY die p j (rdA s F.ag_COLSUM_CUR die p j) s)) s
  raiseEvents die p (trims.flatMap (·.2)) s

/-- Confirms the columns in state 4 that a table with their measured sums brings into band (R101). -/
def confirmColumns (die p : Nat) (s : State) : State :=
  let inst := pageInst s die p
  (List.range 512).foldl (fun s j =>
    if rdA s F.ag_WRITE_STATE die p j = 4 ∧ rdA s F.ag_PERMANENT die p j = 0 ∧ rdA s F.ag_STBY_MEASURED die p j = 1 ∧
        inSumBand s inst (BitVec.ofNat 32 (rdA s F.ag_COLSUM_CUR die p j)) (BitVec.ofNat 32 (rdA s F.ag_NOM_CUR die p j))
    then wrA F.ag_WRITE_STATE die p j 5 s else s) s

/-- Installs the standby table (R82). A column no block measured keeps its current sum. A spare's swap counts on the page
SPARE_SEL.GROUP names (DESIGN CHOICE, log 126). -/
def installTable (die p : Nat) (s : State) : State :=
  let s := (List.range 512).foldl (fun s j =>
    let s := wrA F.ag_TRIM_CUR die p j (rdA s F.ag_TRIM_STBY die p j) s
    if rdA s F.ag_STBY_MEASURED die p j = 1 then
      wrA F.ag_COLSUM_CUR die p j (rdA s F.ag_COLSUM_STBY die p j) s
    else s) s
  let s := confirmColumns die p s
  sat F.ag_TABLE_SWAPS (pageInst s die p) 0 1 (wrA F.ag_STANDBY_READY die p 0 0 s)

/-- What the cycle in progress has measured is cleared. -/
def SweepX.freshCycle (x : SweepX) : SweepX := { x with offs := [], refs := [], refOut := [], vals := [], blocks := [] }

/-- A count of a group page that sums over the group's arrays: a spare is none of them (R89, R111). -/
def countGroup (f : Field) (die p : Nat) (s : State) : State :=
  match groupFor s die p with
  | some g => match f.acc with
    | .sat => sat f g 0 1 s
    | _ => addW f g 0 1 s
  | none => s

/-- The physical arrays of a group. -/
def groupArrays (s : State) (inst : Nat) : List Nat := (List.range 64).map fun l => physOf s (inst / 16) (64 * (inst % 16) + l)

/-- Arrays of a group whose verify is not over. -/
def verifyLeft (s : State) (inst : Nat) : Nat :=
  ((groupArrays s inst).filter fun p => let x := sweepOf s (inst / 16) p; x.verify || x.verifyDue).length

/-- Arrays of a group with columns still to be written after a return from power-down (R109). -/
def wakeLeft (s : State) (inst : Nat) : Nat :=
  ((groupArrays s inst).filter fun p => !(sweepOf s (inst / 16) p).wakeCols.isEmpty).length

/-- Arrays outstanding in a group that is not ready for reason 0x05 or 0x07 (R351): under LOAD_HOLD all of them, since the
verify of its release is still to come (DESIGN CHOICE, log 151). -/
def arraysLeft (s : State) (inst : Nat) : Nat :=
  if rdU s F.com_REASON (groupUnit inst) 0 = 5 then verifyLeft s inst
  else if rdb s F.ag_LOAD_HOLD inst 0 then 64
  else wakeLeft s inst

/-- DETAIL of a group's READY_INFO follows the arrays still outstanding (R351). -/
def showOutstanding (inst : Nat) (s : State) : State :=
  if !groupReady s inst && [5, 7].contains (rdU s F.com_REASON (groupUnit inst) 0) then
    wrU F.com_DETAIL (groupUnit inst) 0 (arraysLeft s inst) s
  else s

/-- The same for the group an array serves. -/
def showOutstandingOf (die p : Nat) (s : State) : State :=
  match groupFor s die p with
  | some g => showOutstanding g s
  | none => s

/-- A completed cycle (R79, R82, R85, R86, R87). A verify ends on each array with an event of its own
(DESIGN CHOICE, log 128). A cycle that ends during a column write is not one since the last write (R107). -/
def endCycle (die p n : Nat) (s : State) : State :=
  let x := sweepOf s die p
  let s := countGroup F.ag_CYCLES_DONE die p (buildTable die p s)
  let ax := arrX s die p
  let s := setArrX die p { ax with swept := !ax.write.any (·.running) } s
  let s := modSweep die p (fun x =>
    { x.freshCycle with readyAt := n + 5, lastNs := nowNs s, staleSaid := false, verify := false }) s
  if x.verify then
    let s := wrA F.ag_VERIFIED die p 0 1 (installTable die p s)
    showOutstandingOf die p (raiseEvent die p { kind := 9 } s)
  else if isSpare s die p then installTable die p s
  else wrA F.ag_STANDBY_READY die p 0 1 s

/-! ### Conversions -/

/-- New sweep conversions of an array may start: SWEEP_HOLD stops those of the group's arrays, a verify's and a
spare's excepted (R86, R89). -/
def sweepAllowed (s : State) (die p : Nat) : Bool :=
  (sweepOf s die p).verify || (match groupFor s die p with
    | some g => !rdb s F.ag_SWEEP_HOLD g 0
    | none => true)

/-- The sweep position of an array. -/
def sweepPos (s : State) (die p : Nat) : Nat := rdA s F.ag_SWEEP_POS die p 0

/-- SWEEP_CONVERSION_START (R76, R77): a conversion of physical array `p` starts in alignment period `ap`, if one may
start there. -/
def execSweepConversionStart (die p ap : Nat) (s : State) : Host.Outcome State Fault Refusal :=
  .next (
    if arrayLive s die p && decide (s.core ≤ 32 * ap) && (sweepOf s die p).run.isNone && sweepAllowed s die p &&
        foregroundFree s die p ap && !writeTakes s die p ap then
      let k := sweepPos s die p % 200
      advanceTo (32 * ap) (modSweep die p (fun x => { x with
        run := some ap
        skip := if k = 0 then [] else x.skip
        stgBroken := if k = 196 then false else x.stgBroken
        stgSum := if k = 196 ∧ x.stgCount = 0 then [] else x.stgSum }) s)
    else s)

/-- A conversion of an array in its last stage: its readings, the comparisons, and the next position. -/
def finishConversion (die p n : Nat) (codes : List (Nat × Int)) (tripped : List Nat) (s : State) : State :=
  let pos := sweepPos s die p
  let (b, k) := sweepPlace pos
  let x := sweepOf s die p
  let (x, es) :=
    if k < 192 then referenceConversion s die p (192 * b + k) codes tripped x
    else columnConversion s die p ((k - 192) % 4) (decide (196 ≤ k)) codes tripped x
  let s := modSweep die p (fun _ => { x with run := none }) s
  let s := if k < 192 then
      let a := arrX s die p
      setArrX die p { a with refCur := List.replicate 4 (refGainCode ((192 * b + k) / 512)) } s
    else s
  let wake := if x.verifyWake && k == 195 then es.filter (·.kind == 4) else []
  let s := modSweep die p (fun x => { x with wakeCols := wake.foldl (fun ws e => insertNew e.col ws) x.wakeCols }) s
  let s := raiseEvents die p es s
  let s := if k = 199 then standbySet die p s else s
  let s := countGroup F.ag_SWEEP_DONE die p (wrA F.ag_SWEEP_POS die p 0 ((pos + 1) % 1600) s)
  if pos = 1599 then endCycle die p n s else s
where
  /-- A list with an element added if it is new. -/
  insertNew (a : Nat) (as : List Nat) : List Nat := if as.contains a then as else as ++ [a]

/-- SWEEP_CONVERSION_DONE (R75, R76, R78 to R84): the conversion in progress on an array ends, five alignment periods
after it started. `codes` says by how much each slice's fine code departs from its nominal value; the slices whose
comparator tripped are listed. A write slot that began meanwhile aborts it. -/
def execSweepConversionDone (die p : Nat) (codes : List (Nat × Int)) (tripped : List Nat) (s : State) :
    Host.Outcome State Fault Refusal :=
  .next (match (sweepOf s die p).run with
    | none => s
    | some n =>
      let s := advanceTo (32 * (n + 5)) s
      if (List.range 5).any fun k => writeSlotStart s die p (n + k + 1) then
        sat F.ag_SWEEP_ABORTS (pageInst s die p) 0 1 (modSweep die p (fun x => { x with run := none }) s)
      else finishConversion die p n codes tripped s)

/-- TABLE_SWAP (R82): a complete standby table is swapped in at the array's frame boundary in alignment period
`ap`, after a commit of that period and before a product that starts in it (DESIGN CHOICE, log 125). -/
def execTableSwap (die p ap : Nat) (s : State) : Host.Outcome State Fault Refusal :=
  .next (match groupFor s die p with
    | none => s
    | some g =>
      let boundary := match slotAt s g ap with
        | some (start, _) => start == ap && (slotIn (rd s F.ag_FRAME_PHASE g 0) ap).1 % 64 == 0
        | none => false
      let x := arrX s die p
      let begun := x.fgFrom == ap && decide (ap < x.fgUntil)
      if rdA s F.ag_STANDBY_READY die p 0 = 1 ∧ (sweepOf s die p).readyAt ≤ ap ∧ boundary = true ∧ s.core ≤ 32 * ap ∧
          !begun ∧ !changeDue s ap then
        installTable die p (advanceTo (32 * ap) s)
      else s)

/-- SWEEP_STALE (R85): no cycle of the array was completed within STALE_LIMIT, which counts from device time 0 where none has
been completed since reset (DESIGN CHOICE, log 149). -/
def execSweepStale (die p : Nat) (s : State) : Host.Outcome State Fault Refusal :=
  .next (
    let x := sweepOf s die p
    if arrayLive s die p && !x.staleSaid && decide (rd s F.ag_STALE_LIMIT (pageInst s die p) 0 ≤ usSince s x.lastNs) then
      raiseEvent die p { kind := 8 } (modSweep die p (fun x => { x with staleSaid := true }) s)
    else s)

/-! ### The cupping verify (R86, R109, R112, R113) -/

/-- The endpoints whose chain names group `inst` (R215). -/
def endpointsOn (s : State) (inst : Nat) : List Nat :=
  s.chains.filterMap fun kc =>
    if kc.2.entries.any fun c => c.cls == 5 && c.waitA == inst then some kc.1 else none

/-- Work of the group that forbids a verify, a load hold or a power-down: a sequencer of the group runs or waits, or
an endpoint that names it admits queries or has some outstanding (R86, R112, R113). -/
def groupInUse (s : State) (inst : Nat) : Bool :=
  seqBusy s ⟨inst / 64, 89 + inst % 64⟩ ||
  (endpointsOn s inst).any fun e => rdb s F.qe_ADMIT_EN 0 e || rd s F.qe_OUTSTANDING 0 e != 0

/-- A verify starts on one array: the conversion in progress and the partial cycle are abandoned, every state is in
band (R83, R86). A complete standby table that awaits its swap is dropped (DESIGN CHOICE, log 128). -/
def beginVerify (die p : Nat) (wake : Bool) (s : State) : State :=
  wrA F.ag_SWEEP_POS die p 0 0 (wrA F.ag_STANDBY_READY die p 0 0
    (modSweep die p (fun x => { x.freshCycle with
      run := none, verify := true, verifyDue := false, verifyWake := wake, wakeCols := [], oob := [], skip := [] }) s))

/-- A verify is due on an array: it waits for the column write that runs there. -/
def dueVerify (die p : Nat) (wake : Bool) (s : State) : State :=
  match (arrX s die p).write with
  | some w =>
    if w.running then modSweep die p (fun x => { x with verifyDue := true, verifyWake := wake, oob := [] }) s
    else beginVerify die p wake s
  | none => beginVerify die p wake s

/-- A verify of a group starts; READY falls with reason 0x05 and the number of arrays outstanding (R86, R351). -/
def startVerify (inst : Nat) (wake : Bool) (s : State) : State :=
  let s := (groupArrays s inst).foldl (fun s p => dueVerify (inst / 16) p wake s) s
  setb F.ag_VERIFY_RUNNING inst 0 true (setReady (groupUnit inst) false 0x05 64 s)

/-- A write of 1 to VERIFY_REQ (R86). One for a group of a powered-down die is refused as well
(DESIGN CHOICE, log 128). -/
def verifyReq (inst : Nat) (s : State) : State :=
  if groupInUse s inst || s.dark.contains (inst / 16) then setb F.ag_VERIFY_REFUSED inst 0 true s
  else startVerify inst false s

/-- VERIFY_REQ (R86). -/
def execVerifyReq (inst : Nat) (s : State) : Host.Outcome State Fault Refusal :=
  .next (if livePage s (groupUnit inst) then verifyReq inst (pageAccess (groupUnit inst) s) else s)

/-- A write of LOAD_HOLD (R113). -/
def loadHold (inst : Nat) (v : Bool) (s : State) : State :=
  if v then
    if groupInUse s inst then setb F.ag_LOAD_REFUSED inst 0 true s
    else setb F.ag_LOAD_HOLD inst 0 true
      (if rdb s F.ag_LOAD_HOLD inst 0 || s.dark.contains (inst / 16) then s
       else setReady (groupUnit inst) false 0x07 64 s)
  else if rdb s F.ag_LOAD_HOLD inst 0 then
    let s := setb F.ag_LOAD_HOLD inst 0 false s
    if s.dark.contains (inst / 16) then s else startVerify inst false s
  else s

/-- LOAD_HOLD (R113). -/
def execLoadHold (inst : Nat) (value : Bool) (s : State) : Host.Outcome State Fault Refusal :=
  .next (if livePage s (groupUnit inst) then loadHold inst value (pageAccess (groupUnit inst) s) else s)

/-- The bypass limit of an array (R100). -/
def bypassLimit (s : State) (die p : Nat) : Nat := min 24 (32 - ((marks s die p).filter (·.isSome)).length)

/-- Columns of an array in bypass (R100). -/
def bypassed (s : State) (die p : Nat) : List Nat := (List.range 512).filter (inBypass s die p)

/-- A column that the array has accepted for bypass, which it enters at a product boundary or with its write (R101). -/
def entersBypass (x : ArrX) (j : Nat) : Bool := x.evicting.contains j || x.write.any (·.col == j)

/-- Columns that count against the bypass limit: those in bypass and those accepted for it (R100). -/
def limitCols (s : State) (die p : Nat) : List Nat :=
  let x := arrX s die p
  bypassed s die p ++ (x.evicting.filter fun j => !inBypass s die p j) ++
    ((x.write.toList.map (·.col)).filter fun j => !inBypass s die p j && !x.evicting.contains j)

/-- Their number. -/
def limitCount (s : State) (die p : Nat) : Nat := (limitCols s die p).length

/-- The lowest free pantry slot for a column. -/
def freeSlot (x : ArrX) : Option Nat := ((List.range 24).map (· + 8)).find? fun k => (smFind k x.cols).isNone

/-- Masters at an address: 512 S16 values (R101) (DEDUCED, log 55). -/
def mastersAt (s : State) (a : Nat) : List Nat := (List.range 512).map fun i => (readS16 s memSpace (a + 2 * i)).toNat

/-- The sum register of a column under the current row gains and marks (R64, R92). -/
def sumRegister (s : State) (die p j : Nat) (ms : List Nat) : F32 :=
  sumWith (fun i => gainF32 (rdA s F.ag_ROW_GAIN_CUR die p i)) (marks s die p) (foldCur s die p j) ms

/-- A column's pantry entry from masters at an address. -/
def pantryEntry (s : State) (die p j addr : Nat) : PantryCol :=
  let ms := mastersAt s addr
  ⟨j, addr, ms, true, (sumRegister s die p j ms).toNat⟩

/-- The pantry slot a column has. -/
def slotOfCol (x : ArrX) (j : Nat) : Option Nat := (x.cols.find? fun c => c.2.col == j).map (·.1)

/-- The slot for a column: its own, or the lowest free one. -/
def slotFor (x : ArrX) (j : Nat) : Option Nat := (slotOfCol x j).or (freeSlot x)

/-- Pantry slots that hold no bypass column. -/
def slotsFree (x : ArrX) : Nat := (((List.range 24).map (· + 8)).filter fun k => (smFind k x.cols).isNone).length

/-- A column enters bypass with its pantry loaded from `addr`: state 2 (R101, R109). -/
def enterBypass (die p j addr : Nat) (s : State) : State :=
  let x := arrX s die p
  match slotFor x j with
  | some k =>
    wrA F.ag_IN_BYPASS die p j 1 (wrA F.ag_WRITE_STATE die p j 2
      (setArrX die p { x with cols := nmSet k (pantryEntry s die p j addr) x.cols } (partReport addr 1024 s)))
  | none => s

/-- The columns a verify found out of band enter bypass where the array's limit and its pantry allow it (R109). `loads` gives
the address of each column's masters, by array × 512 + column. -/
def wakeArray (die p : Nat) (loads : List (Nat × Nat)) (s : State) : State :=
  let ws := (sweepOf s die p).wakeCols.filter fun j => !inBypass s die p j
  let new := ws.filter fun j => (slotOfCol (arrX s die p) j).isNone
  let more := ws.filter fun j => !entersBypass (arrX s die p) j
  if limitCount s die p + more.length ≤ bypassLimit s die p ∧ new.length ≤ slotsFree (arrX s die p) then
    modSweep die p (fun x => { x with wakeCols := [], verifyWake := false })
      (ws.foldl (fun s j => enterBypass die p j (smGet 0 (p * 512 + j) loads) s) s)
  else s

/-- A group's pantries would hold values of two epochs if it became ready now: they are still to be refreshed, and columns
are in bypass or about to enter it (R15) (DEDUCED, log 152). -/
def epochsMixed (s : State) (inst : Nat) : Bool :=
  refreshOwed s inst && (groupArrays s inst).any fun p =>
    !(bypassed s (inst / 16) p).isEmpty || !(sweepOf s (inst / 16) p).wakeCols.isEmpty

/-- VERIFY_COMPLETE (R86, R109, R113): the verify of group `inst` is over on every array, or the columns a wake left
to be written fit the limit. Where its pantries would hold two epochs it waits for their refresh (R15). -/
def verifyComplete (inst : Nat) (loads : List (Nat × Nat)) (s : State) : State :=
  let die := inst / 16
  let arrs := groupArrays s inst
  if verifyLeft s inst ≠ 0 ∨ !(rdb s F.ag_VERIFY_RUNNING inst 0 || wakeLeft s inst != 0) ∨ epochsMixed s inst then s
  else
    let s := setb F.ag_VERIFY_RUNNING inst 0 false (arrs.foldl (fun s p => wakeArray die p loads s) s)
    let left := wakeLeft s inst
    let failed := arrs.zipIdx.find? fun pl => (arrX s die pl.1).failed
    if rdb s F.fa_DEVICE_FATAL 0 0 then s
    else if s.dark.contains die then setReady (groupUnit inst) false 0x0C 0 s
    else if rdb s F.ag_LOAD_HOLD inst 0 then setReady (groupUnit inst) false 0x07 64 s
    else if left ≠ 0 then setReady (groupUnit inst) false 0x07 left s
    else match failed with
    | some pl => setReady (groupUnit inst) false 0x06 (64 * inst + pl.2) s
    | none => setReady (groupUnit inst) true 0 0 s

/-- VERIFY_COMPLETE. -/
def execVerifyComplete (inst : Nat) (loads : List (Nat × Nat)) (s : State) : Host.Outcome State Fault Refusal :=
  .next (if inst < 256 then verifyComplete inst loads s else s)

/-! ### Power-down of an array die (R112) -/

/-- The groups of an array die. -/
def dieGroups (die : Nat) : List Nat := (List.range 16).map (· + 16 * die)

/-- A write of SLEEP (R112): refused while a group of the die is in use. -/
def sleep (die : Nat) (v : Bool) (s : State) : State :=
  if v && (dieGroups die).any (groupInUse s) then setb F.ad_SLEEP_REFUSED die 0 true s
  else setb F.ad_SLEEP die 0 v s

/-- SLEEP (R112). -/
def execSleep (die : Nat) (value : Bool) (s : State) : Host.Outcome State Fault Refusal :=
  .next (if livePage s (unitOf 0x10 die) then sleep die value (pageAccess (unitOf 0x10 die) s) else s)

/-- The ledger fields (R96). -/
def ledgerField (k : FKey) : Bool := k.fid == F.ag_PROG_COUNT.fid || k.fid == F.ag_LAST_STEP.fid

/-- The ledgers of the array dies that `p` picks, copied to the shelf. -/
def saveLedgers (p : Nat → Bool) (s : State) : State :=
  let mine (k : FKey) : Bool := ledgerField k && p (unitInst k.unit)
  driveLedgers { s with
    ledger := s.ledger.filter (fun kv => !mine kv.1) ++ s.flds.filter fun kv => mine kv.1
    ledgerBase := s.ledgerBase.filter (fun kv => !p kv.1) ++ s.progBase.filter fun kv => p kv.1 }

/-- The ledgers of the array dies that `p` picks, restored from the shelf. -/
def restoreLedgers (p : Nat → Bool) (s : State) : State :=
  let mine (k : FKey) : Bool := ledgerField k && p (unitInst k.unit)
  let s : State := { s with
    flds := s.flds.filter fun kv => !mine kv.1
    progBase := s.progBase.filter (fun kv => !p kv.1) ++ s.ledgerBase.filter fun kv => p kv.1 }
  (s.ledger.filter fun kv => mine kv.1).foldl (fun s kv => { s with flds := smSet FKey.lt kv.1 kv.2 s.flds }) s


/-- LEDGER_SAVE (R96): firmware writes every ledger to the shelf, those it has restored from what the dies hold. Without a ready
drive nothing is saved (DEDUCED, log 34). -/
def execLedgerSave (s : State) : Host.Outcome State Fault Refusal :=
  .next (if (readyDrives s).isEmpty then s else saveLedgers (fun d => !s.dark.contains d && pageReady s (unitOf 0x10 d)) s)

/-- ARRAY_DIE_POWERED_DOWN (R112): the ledgers are on the shelf; sweep, column writes and products stop and the
supply goes. A write that is stopped leaves its column in the state of a failed one, and counts neither in WRITE_FAILS nor
among its tries (DEDUCED, log 52). The pantry, the bypass states and WRITE_STATE are kept (DESIGN CHOICE, log 129). -/
def diePoweredDown (die : Nat) (s : State) : State :=
  let s := saveLedgers (· == die) s
  let s := s.arrs.foldl (fun s a => match a.2.write with
    | some w => if a.1 / 2048 = die && w.running then wrA F.ag_WRITE_STATE die (a.1 % 2048) w.col 6 s else s
    | none => s) s
  let s := { s with
    dark := s.dark ++ [die]
    arrs := s.arrs.map fun a => if a.1 / 2048 = die then
      (a.1, { a.2 with
        write := none, swept := a.2.swept && !a.2.write.any (·.running)
        sweep := { a.2.sweep.freshCycle with run := none, verify := false, verifyDue := false } })
      else a }
  (dieGroups die).foldl (fun s g =>
    setb F.ag_VERIFY_RUNNING g 0 false (setReady (groupUnit g) false 0x0C 0 s)) s

/-- ARRAY_DIE_POWERED_DOWN. -/
def execArrayDiePoweredDown (die : Nat) (s : State) : Host.Outcome State Fault Refusal :=
  .next (if die < 16 ∧ rdb s F.ad_SLEEP die 0 ∧ !s.dark.contains die then diePoweredDown die s else s)

/-- ARRAY_DIE_POWERED_UP (R109, R112): the supply is back, the ledgers are restored and the groups start the
verify. The tables in force stay as they were; the factory trims are not loaded anew (DESIGN CHOICE, log 129). -/
def execArrayDiePoweredUp (die : Nat) (s : State) : Host.Outcome State Fault Refusal :=
  .next (
    if s.dark.contains die && !rdb s F.ad_SLEEP die 0 then
      let s := restoreLedgers (· == die) { s with dark := s.dark.filter (· != die) }
      (dieGroups die).foldl (fun s g => startVerify g true s) s
    else s)

end Sys2Proof.Machine
end

