-- ==== Sys2Proof/Machine/Writes.lean ====
section
/-! DEFINITION. Writing the arrays (R90 to R97, R99 to R106, R108, R111): the pantry, eviction, program-and-verify column
writes, the rewrite queue, the endurance ledger and the condition for retiring an array. How many pulses a batch of
cells needs is the analogue world's and comes with the command (DESIGN CHOICE, log 20). -/

namespace Sys2Proof.Machine

open Sys2Proof

/-- No product runs on the array: it is a spare or its group is not ready (R95, R101, R111, DEDUCED, log 25). -/
def arrayIdle (s : State) (die p : Nat) : Bool :=
  match groupFor s die p with
  | none => true
  | some g => !groupReady s g

/-- RATE_STEPS and LIFE_BUDGET of an array die (R97). -/
def writeLimits (s : State) (die : Nat) : Nat × Nat :=
  match rd s F.ad_PRESET die 0 with
  | 0 => (100, 80000)
  | 1 => (50, 80000)
  | 2 => (25, 80000)
  | _ => (rd s F.ad_RATE_STEPS die 0, rd s F.ad_LIFE_BUDGET die 0)

/-- WRITE_STATE of a column (R101). -/
def colState (s : State) (die p j : Nat) : Nat := rdA s F.ag_WRITE_STATE die p j

/-- Sets WRITE_STATE. -/
def setColState (die p j v : Nat) (s : State) : State := wrA F.ag_WRITE_STATE die p j v s

/-- Frees a column's pantry slot. -/
def freePantry (die p j : Nat) (s : State) : State :=
  let x := arrX s die p
  match slotOfCol x j with
  | some k => setArrX die p { x with cols := smErase k x.cols } s
  | none => s

/-! ### Permanent columns and failed arrays (R105, R106, R108) -/

/-- Columns of an array that are permanently bypassed. -/
def permanentCount (s : State) (die p : Nat) : Nat :=
  ((List.range 512).filter fun j => rdA s F.ag_PERMANENT die p j == 1).length

/-- Firmware retires the array (R106): its permanent columns and outlier rows reach RETIRE_LEVEL, above 32 acting as 32
(R115), or one more permanent column would exceed the bypass limit. -/
def mustRetire (s : State) (die p : Nat) : Bool :=
  let n := permanentCount s die p
  decide (min 32 (rd s F.ad_RETIRE_LEVEL die 0) ≤ n + ((marks s die p).filter (·.isSome)).length) ||
    decide (bypassLimit s die p < n + 1)

/-- Spare arrays of a die that serve no logical array and are not retired (R106, R107). -/
def sparesFree (s : State) (die : Nat) : Nat :=
  ((List.range 16).filter fun k => !(arrX s die (1024 + k)).retired && (logicalOf s die (1024 + k)).isNone).length

/-- Firmware marks an array failed that must be retired while its die has no free spare: its group's READY falls with
reason 0x06 and the package-wide logical array (R108, R351). -/
def failCheck (die p : Nat) (s : State) : State :=
  match logicalOf s die p with
  | none => s
  | some l =>
    if (arrX s die p).failed || sparesFree s die != 0 || !mustRetire s die p then s
    else
      let g := 16 * die + l / 64
      let s := setArrX die p { arrX s die p with failed := true } s
      if groupReady s g then setReady (groupUnit g) false 0x06 (1024 * die + l) s else s

/-- Every array of a die that must be retired is marked failed once the die has no free spare: a remap took the last one, or
RETIRE_LEVEL fell (R108). -/
def failDie (die : Nat) (s : State) : State :=
  if sparesFree s die != 0 then s
  else (List.range 1024).foldl (fun s l => failCheck die (physOf s die l) s) s

/-- A column whose masters the pantry holds enters bypass where the limit allows it (R100, R105); while the pantry awaits its
refresh it would hold values of two epochs, and the refresh then does it (R15) (DEDUCED, log 152). -/
def bypassLoaded (die p j : Nat) (s : State) : State :=
  let x := arrX s die p
  if !pantryOwed s die p && !inBypass s die p j && (bypassCol x j).any (·.loaded) &&
      decide (limitCount s die p + b2n (!entersBypass x j) ≤ bypassLimit s die p) then
    wrA F.ag_IN_BYPASS die p j 1 (setColState die p j 2
      (setArrX die p { x with evicting := x.evicting.filter (· != j) } s))
  else s

/-- A column becomes permanently bypassed (R97, R105). One in analogue service enters bypass once the pantry holds its
masters, as the limit allows; its WRITE_STATE stays as it is until then (DESIGN CHOICE, log 130). -/
def makePermanent (die p j : Nat) (s : State) : State :=
  failCheck die p (bypassLoaded die p j (dequeueColumn die p j (wrA F.ag_PERMANENT die p j 1 s)))

/-! ### The rewrite queue (R99) -/

/-- PROG_COUNT of a column. -/
def progCount (s : State) (die p j : Nat) : Nat := rdA s F.ag_PROG_COUNT die p j

/-- Fewer than RATE_STEPS steps have passed since a column's last write (R97); a column never written has none
(DEDUCED, log 54). -/
def rateCapped (s : State) (die p j : Nat) : Bool :=
  decide (0 < progCount s die p j) &&
    decide ((stepNo s + 2 ^ 32 - rdA s F.ag_LAST_STEP die p j) % 2 ^ 32 < (writeLimits s die).1)

/-- The write of a queued column is exempt from the rate cap: an event queued it, or no product runs on the array (R97). -/
def rewriteExempt (s : State) (die p : Nat) (e : Rewrite) : Bool := e.event || arrayIdle s die p

/-- A queued column can be taken (R99): it has a bypass slot or one is free, R97 allows the write and no write runs on the
array. PAUSE holds back the writes that are not exempt (R115). -/
def rewriteAllowed (s : State) (die p : Nat) (e : Rewrite) : Bool :=
  let x := arrX s die p
  (slotFor x e.col).isSome && x.write.isNone &&
    (inBypass s die p e.col || entersBypass x e.col || decide (limitCount s die p < bypassLimit s die p)) &&
    decide (progCount s die p e.col < (writeLimits s die).2) &&
    (rewriteExempt s die p e || (!rateCapped s die p e.col && !rdb s F.ad_PAUSE die 0))

/-- `a` is taken before `b`: entries of events in order of arrival, then drift entries, the largest key first and ties by
ascending column. -/
def Rewrite.before (a b : Rewrite) : Bool :=
  a.event || (!b.event && (decide (b.key < a.key) || (a.key == b.key && decide (a.col < b.col))))

/-- An entry put where it is taken. -/
def insertRewrite (e : Rewrite) : List Rewrite → List Rewrite
  | [] => [e]
  | x :: xs => if x.event || (!e.event && x.before e) then x :: insertRewrite e xs else e :: x :: xs

/-- The queue in the order in which firmware takes it. -/
def rewriteOrder (q : List Rewrite) : List Rewrite := q.foldl (fun l e => insertRewrite e l) []

/-- The column firmware takes next (R99): entries that are not eligible do not block those behind them. -/
def nextRewrite (s : State) (die p : Nat) : Option Nat :=
  ((rewriteOrder (arrX s die p).queue).find? (rewriteAllowed s die p)).map (·.col)

/-- The first reason that holds, in R102's order; 0 where none does. -/
def firstReason (rs : List (Nat × Bool)) : Nat := ((rs.find? (·.2)).map (·.1)).getD 0

/-- REFUSED and REFUSE_CODE of a group page (R102, R114). -/
def setRefused (inst code : Nat) (s : State) : State :=
  setb F.ag_REFUSED inst 0 (code != 0) (wr F.ag_REFUSE_CODE inst 0 code s)

/-! ### Pantry and eviction -/

/-- COL_CMD operation 0b001 on group page `inst`: load pantry (R101, R102). -/
def loadPantry (inst : Nat) (s : State) : State :=
  let (die, p) := arraySel s inst
  let j := rd s F.ag_COLUMN inst 0
  let x := arrX s die p
  let code := firstReason [(3, colState s die p j != 0 || (slotOfCol x j).isSome), (1, (freeSlot x).isNone)]
  let s := setRefused inst code s
  match code, freeSlot x with
  | 0, some k =>
    let s := if nextRewrite s die p = some j then dequeueColumn die p j s else s
    let x := arrX s die p
    setArrX die p { x with cols := nmSet k ⟨j, rd s F.ag_DATA_ADDR inst 0, [], false, 0⟩ x.cols } s
  | _, _ => s

/-- LOAD_PANTRY (R101). -/
def execLoadPantry (inst : Nat) (s : State) : Host.Outcome State Fault Refusal :=
  .next (if livePage s (groupUnit inst) then loadPantry inst (pageAccess (groupUnit inst) s) else s)

/-- PANTRY_LOAD_DONE (R101): column `col`'s masters are in its slot: state 1. A permanent column enters bypass with it
(R105, DESIGN CHOICE, log 130). -/
def execPantryLoadDone (die p col : Nat) (s : State) : Host.Outcome State Fault Refusal :=
  .next (
    let x := arrX s die p
    match slotOfCol x col, bypassCol x col with
    | some k, some c =>
      if c.loaded then s
      else
        let s := setColState die p col 1
          (setArrX die p { x with cols := nmSet k (pantryEntry s die p col c.addr) x.cols } (partReport c.addr 1024 s))
        if rdA s F.ag_PERMANENT die p col = 1 then bypassLoaded die p col s else s
    | _, _ => s)

/-- COL_CMD operation 0b010: evict (R100 to R102). A second one before the first takes effect finds the wrong state
(DESIGN CHOICE, log 153). -/
def evict (inst : Nat) (s : State) : State :=
  let (die, p) := arraySel s inst
  let j := rd s F.ag_COLUMN inst 0
  let x := arrX s die p
  let code := firstReason [(3, colState s die p j != 1 || x.evicting.contains j),
    (2, !entersBypass x j && decide (bypassLimit s die p < limitCount s die p + 1))]
  let s := setRefused inst code s
  if code = 0 then setArrX die p { x with evicting := x.evicting ++ [j] } s
  else if code = 2 then sat F.ag_EVICT_REFUSED inst 0 1 s
  else s

/-- EVICT (R101). -/
def execEvict (inst : Nat) (s : State) : Host.Outcome State Fault Refusal :=
  .next (if livePage s (groupUnit inst) then evict inst (pageAccess (groupUnit inst) s) else s)

/-- EVICT_APPLY (R101): at a product boundary of the array the accepted evictions take effect, on the columns that are
still in state 1. While the pantry awaits its refresh they wait, since a column loaded at the new epoch would be served
beside others of the old one (R15) (DEDUCED, log 152). -/
def execEvictApply (die p : Nat) (s : State) : Host.Outcome State Fault Refusal :=
  .next (
    if pantryOwed s die p then s
    else
      let x := arrX s die p
      (x.evicting.filter fun j => colState s die p j == 1).foldl
        (fun s j => wrA F.ag_IN_BYPASS die p j 1 (setColState die p j 2 s))
        (setArrX die p { x with evicting := [] } s))

/-! ### Targets (R90 to R92, R94) -/

/-- M ÷ σ to the nearest integer, ties to even, exactly; none for a value that is not finite. -/
def levelOf (m sigma : S16) : Option Int :=
  match s16Val m, s16Val sigma with
  | .fin neg a e, .fin _ b e' =>
    if b = 0 then none
    else
      let r := scale2 a b (e - e')
      some ((if neg then -1 else 1) * (roundNe r.1 r.2 : Int))
  | _, _ => none

/-- The target levels from masters and a column scale, and whether the clamp acted on any; none for an invalid
target (R91, R94). The last `pad` rows are padding and take level 0 (DEDUCED, log 55). -/
def targetLevels (pad : Nat) (ms : List Nat) (sigma : S16) : Option (List Int × Bool) :=
  if !s16PosNormal sigma then none
  else
    match ms.zipIdx.mapM fun mi =>
        if ms.length - pad ≤ mi.2 then some 0 else levelOf (BitVec.ofNat 16 mi.1) sigma with
    | none => none
    | some ls => some (ls.map fun l => max (-15) (min 15 l), ls.any fun l => decide (l < -15 ∨ 15 < l))

/-- Level codes at an address; none where a code is invalid (R36, R94). -/
def codedLevels (s : State) (a : Nat) : Option (List Int) :=
  let cs := (List.range 512).map fun i => (readLevel s memSpace (a + i)).toInt
  if cs.all fun c => decide (-15 ≤ c ∧ c ≤ 15) then some cs else none

/-! ### Column writes -/

/-- A column write of an array starts (R94, R96, R101): the ledger, state 3 and the targets. -/
def startWrite (die p : Nat) (w : ColWrite) (s : State) : State :=
  let inst := pageInst s die p
  let x := arrX s die p
  let ms := ((bypassCol x w.col).map (·.vals)).getD []
  let pad := Config.paddingRows die ((logicalOf s die p).getD p)
  let tgt := if w.source = 0 then targetLevels pad ms (BitVec.ofNat 16 w.scale)
    else w.levels.map fun l => (l, false)
  let limited := (tgt.map (·.2)).getD false
  let first := nextAp s
  let s := wrA F.ag_LAST_STEP die p w.col (stepNo s % 2 ^ 32)
    (wrA F.ag_PROG_COUNT die p w.col (rdA s F.ag_PROG_COUNT die p w.col + 1) s)
  let s := sat F.ag_REWRITES inst 0 1 s
  let s := if limited then sat F.ag_SCALE_LIMITED inst 0 1 s else s
  let s := wrA F.ag_IN_BYPASS die p w.col 1 (setColState die p w.col 3 s)
  let x := arrX s die p
  setArrX die p { x with
    evicting := x.evicting.filter (· != w.col), swept := false
    scaleLimited := x.scaleLimited.filter (· != w.col) ++ (if limited then [w.col] else [])
    write := some { w with running := true, upTo := first, levels := tgt.map (·.1), limited := limited } } s

/-- A column write of an array may start: no verify runs or is due on it (R86), and its die has its supply (R112). -/
def mayStartWrite (s : State) (die p : Nat) : Bool :=
  let x := arrX s die p
  !x.sweep.verify && !x.sweep.verifyDue && !s.dark.contains die

/-- COL_CMD operation 0b011: program (R94, R95, R97, R101, R102). The column leaves the rewrite queue (R99). The level codes
of SOURCE = 1 are read when the operation is accepted (DESIGN CHOICE, log 131). -/
def programCol (inst source scale : Nat) (exempt : Bool) (s : State) : State :=
  let (die, p) := arraySel s inst
  let j := rd s F.ag_COLUMN inst 0
  let x := arrX s die p
  let st := colState s die p j
  let idle := arrayIdle s die p
  let lim := writeLimits s die
  let okState := [2, 4, 6].contains st || (idle && (st == 1 || (st == 0 && source == 0)))
  let fromZero := st == 0
  let code := firstReason
    [(7, source == 1 && rdU s F.com_EXPERT_EN (groupUnit inst) 0 == 0),
     (3, !okState),
     (1, fromZero && (slotOfCol x j).isNone && (freeSlot x).isNone),
     (2, !inBypass s die p j && !entersBypass x j && decide (bypassLimit s die p < limitCount s die p + 1)),
     (6, x.write.isSome),
     (5, decide (lim.2 ≤ progCount s die p j)),
     (4, !(exempt || idle) && rateCapped s die p j)]
  let s := setRefused inst code s
  if code ≠ 0 then s
  else
    let addr := rd s F.ag_DATA_ADDR inst 0
    let s := dequeueColumn die p j s
    let s := if source = 1 then partReport addr 512 s else if fromZero then partReport addr 1024 s else s
    let x := arrX s die p
    let x := if fromZero then
        match slotFor x j with
        | some k => { x with cols := nmSet k (pantryEntry s die p j addr) x.cols }
        | none => x
      else x
    let w : ColWrite :=
      { col := j, source := source, scale := scale % 2 ^ 16, exempt := exempt, fromZero := fromZero, running := false
        levels := if source = 1 then codedLevels s addr else none, limited := false }
    let s := setArrX die p { x with write := some w } s
    if mayStartWrite s die p then startWrite die p w s else s

/-- PROGRAM (R94, R101) (DEDUCED, log 53). -/
def execProgram (inst source scale : Nat) (exempt : Bool) (s : State) : Host.Outcome State Fault Refusal :=
  .next (if livePage s (groupUnit inst) then programCol inst (source % 2) scale exempt (pageAccess (groupUnit inst) s)
    else s)

/-- COLUMN_WRITE_START (R95, R112): a write accepted during a verify, or while the die had no supply, starts once that is
over. -/
def execColumnWriteStart (die p : Nat) (s : State) : Host.Outcome State Fault Refusal :=
  .next (
    match (arrX s die p).write with
    | some w => if w.running || !mayStartWrite s die p then s else startWrite die p w s
    | none => s)

/-- The measurements of column `j` that a completed program operation makes void (R81, R82, R107). -/
def voidColumn (die p j : Nat) (s : State) : State :=
  let pos := sweepPos s die p
  let x := arrX s die p
  let sw := x.sweep
  let mid := pos % 200 != 0 || sw.run.isSome
  let s := setArrX die p { x with
    swept := false
    sweep := { sw with blocks := smErase j sw.blocks, skip := if mid && !sw.skip.contains j then sw.skip ++ [j] else sw.skip } } s
  if rdA s F.ag_STANDBY_READY die p 0 = 1 then wrA F.ag_STBY_MEASURED die p j 0 s else s

/-- Batches of a column write, and the iterations a batch may take: ITER_MAX, where 0 acts as 1 (R94, R115). -/
def writeBatches : Nat := 16
def iterMax (s : State) (die : Nat) : Nat := max 1 (rd s F.ad_ITER_MAX die 0)

/-- The program-and-verify loop of R94 over the iterations each batch needs until no cell is active: the slots it takes,
and the batch at which it fails. -/
def verifyLoop (lim : Nat) : Nat → List Nat → Nat × Option Nat
  | _, [] => (0, none)
  | b, n :: ns =>
    if lim < n then (1 + lim, some b)
    else
      let r := verifyLoop lim (b + 1) ns
      (1 + n + r.1, r.2)

/-- The slots a column write takes and the batch it fails at, given the iterations its batches need; a write with an
invalid target programs no cell (R94). -/
def writeRun (s : State) (die : Nat) (w : ColWrite) (iters : List Nat) : Nat × Option Nat :=
  if w.levels.isNone then (0, none)
  else verifyLoop (iterMax s die) 0 ((List.range writeBatches).map fun b => iters.getD b 0)

/-- A write that takes `n` slots ends with alignment period `ap`: the `n`-th slot open to it since its start ends there, each
slot judged as the group stood when it began (R95) (DEDUCED, log 132). -/
def writeEnds (s : State) (die p : Nat) (w : ColWrite) (n ap : Nat) : Bool :=
  if n = 0 then decide (s.core ≤ 32 * (ap + 1))
  else decide (7 ≤ ap) && (slotsTaken s die p w (ap - 7 + 1))[n - 1]? == some (ap - 7)

/-- The levels a column's cells hold after a write (R94): its targets; where it failed at a batch, its targets up to that
batch, in the batch the levels `held` at which its cells stopped, and the old ones after it. -/
def cellsAfter (old target held : List Int) (failed : Option Nat) : List Int :=
  match failed with
  | none => target
  | some b => (List.range 512).map fun i =>
    if i < 32 * b then target.getD i 0
    else if i < 32 * (b + 1) then max (-15) (min 15 (held.getD (i - 32 * b) 0))
    else old.getD i 0

/-- Where a write leaves its column (R94, R101, R105) (DEDUCED, log 49). -/
def settleColumn (die p : Nat) (w : ColWrite) (held : List Int) (failed : Option Nat) (s : State) : State :=
  let x := arrX s die p
  let j := w.col
  let fails := nmGet 0 j x.fails + 1
  let spent := decide ((writeLimits s die).2 ≤ progCount s die p j)
  let ok := w.levels.isSome && failed.isNone
  let x := match w.levels with
    | some t => { x with cells := nmSet j (cellsAfter (nmGet [] j x.cells) t held failed) x.cells }
    | none => x
  if ok then
    let s := setArrX die p { x with fails := smErase j x.fails } s
    if spent || rdA s F.ag_PERMANENT die p j == 1 then makePermanent die p j (setColState die p j 4 s)
    else if arrayIdle s die p then
      freePantry die p j (wrA F.ag_IN_BYPASS die p j 0 (setColState die p j 0 s))
    else setColState die p j 4 s
  else
    let s := setArrX die p { x with fails := nmSet j fails x.fails } s
    let s := sat F.ag_WRITE_FAILS (pageInst s die p) 0 1 (setColState die p j 6 s)
    if spent || decide (rd s F.ad_RETRY_MAX die 0 < fails) then makePermanent die p j s else s

/-- COLUMN_WRITE_DONE (R94, R95, R101, R105): the write running on an array ends with alignment period `ap`. `iters`
gives the iterations each batch needs until every cell has reached its target, and `held` the levels at which the cells of
a batch that fails stop; the loop's bound, the slots and the outcome follow from them. -/
def execColumnWriteDone (die p : Nat) (iters : List Nat) (held : List Int) (ap : Nat) (s : State) :
    Host.Outcome State Fault Refusal :=
  .next (match (arrX s die p).write with
    | none => s
    | some w =>
      let run := writeRun s die w iters
      if !w.running || s.dark.contains die || !writeEnds s die p w run.1 ap then s
      else
        let ok := w.levels.isSome && run.2.isNone
        let s := advanceTo (32 * (ap + 1)) s
        let s := setArrX die p { arrX s die p with write := none } s
        let s := addW F.ag_WRITE_SLOTS (pageInst s die p) 0 run.1 s
        let s := settleColumn die p w held run.2 s
        let s := voidColumn die p w.col s
        let s := modSweep die p (fun x => { x with wakeCols := x.wakeCols.filter fun j => !(j == w.col && ok) }) s
        let x := sweepOf s die p
        showOutstandingOf die p (if x.verifyDue then beginVerify die p x.verifyWake s else s))

/-! ### The selection clears of a group page -/

/-- CLEAR_SEL (R89): clears CONVERSIONS and CLIPPED of the selected converter and their SAT bits. -/
def clearSel (inst : Nat) (s : State) : State :=
  let (die, p) := arraySel s inst
  let c := rd s F.ag_CONVERTER inst 0
  let s := wrA F.ag_CONVERSIONS die p c 0 (wrA F.ag_CLIPPED die p c 0 s)
  clearSatBit F.ag_CONVERSIONS (groupUnit inst) (clearSatBit F.ag_CLIPPED (groupUnit inst) s)

/-- CLEAR_SEL. -/
def execClearSel (inst : Nat) (s : State) : Host.Outcome State Fault Refusal :=
  .next (if livePage s (groupUnit inst) then clearSel inst (pageAccess (groupUnit inst) s) else s)

/-- AUDIT_CLEAR (R123): clears AUDIT_SSE and AUDIT_SAMPLES. -/
def auditClear (inst : Nat) (s : State) : State :=
  wr F.ag_AUDIT_SSE inst 0 0 (wr F.ag_AUDIT_SAMPLES inst 0 0 (clearSatBit F.ag_AUDIT_SAMPLES (groupUnit inst) s))

/-- AUDIT_CLEAR. -/
def execAuditClear (inst : Nat) (s : State) : Host.Outcome State Fault Refusal :=
  .next (if livePage s (groupUnit inst) then auditClear inst (pageAccess (groupUnit inst) s) else s)

end Sys2Proof.Machine
end

