-- ==== Sys2Proof/Machine/Buckets.lean ====
section
/-! DEFINITION. The tables a member of a job holds: bucket descriptors (R225), update descriptors (R256) and routes
(R305); deadlines (R240), bucket states (R239), the agreed table's planes (R226) and the exchange log (R253). -/

namespace Sys2Proof.Machine

open Sys2Proof

/-! ### Ranks -/

/-- The rank value that means none (R224). -/
def noRank : Nat := 0xFFF

/-- Ranks of the membership in force, joining ranks apart. -/
def memberRanks (s : State) : List Nat := (s.job.view.filter fun e => !e.joining).map (·.rank)

/-- This device is a member of the view in force. -/
def isMember (s : State) : Bool := rdb s F.rs_MEMBER 0 0

/-- The view in force lists this device, as a member or as a joining rank. -/
def inView (s : State) : Bool := isMember s || rdb s F.rs_JOINING 0 0

/-- The commit leader: the lowest rank (R261). -/
def leaderRank (s : State) : Nat := (memberRanks s).foldl min noRank

/-- An entry of the view in force by rank, and by serial. -/
def entryOf (s : State) (rank : Nat) : Option ViewEntry := s.job.view.find? fun e => e.rank == rank
def entryOfSerial (s : State) (serial : Nat) : Option ViewEntry := s.job.view.find? fun e => e.serial == serial

/-! ### Bucket descriptors (R225) -/

/-- Buckets defined. -/
def bucketCount (s : State) : Nat := rd s F.ex_BUCKET_COUNT 0 0

/-- Word `i` of bucket `b`'s descriptor. -/
def descWord (s : State) (b i : Nat) : Nat := (nmGet [] b s.job.table).getD i 0

def bElems (s : State) (b : Nat) : Nat := bits (descWord s b 0) 0 32
def bBlk (s : State) (b : Nat) : Nat := bits (descWord s b 0) 32 2
/-- 0 dense, 1 top-k, 2 sign, 3 ordered only. -/
def bMode (s : State) (b : Nat) : Nat := bits (descWord s b 0) 34 2
def bOwner (s : State) (b : Nat) : Nat := bits (descWord s b 0) 36 12
def bPartner (s : State) (b : Nat) : Nat := bits (descWord s b 0) 48 12
def bAcc (s : State) (b : Nat) : Nat := bits (descWord s b 1) 0 48
def bAgree (s : State) (b : Nat) : Nat := bits (descWord s b 2) 0 48
def bResid (s : State) (b : Nat) : Nat := bits (descWord s b 3) 0 48
def bMinRanks (s : State) (b : Nat) : Nat := max 1 (bits (descWord s b 4) 32 12)
def bQueue (s : State) (b : Nat) : Nat := bits (descWord s b 4) 44 10
def bQueueDie (s : State) (b : Nat) : Nat := bits (descWord s b 4) 54 2

/-- Elements in a block. -/
def bBlock (s : State) (b : Nat) : Nat := blockSize (bBlk s b)

/-- Blocks of a bucket. -/
def bBlocks (s : State) (b : Nat) : Nat := ceilDiv (bElems s b) (bBlock s b)

/-- The bucket is defined. -/
def bucketDefined (s : State) (b : Nat) : Bool := decide (b < bucketCount s)

/-- This device owns the bucket, or is its partner. -/
def ownerHere (s : State) (b : Nat) : Bool := isMember s && bucketDefined s b && bOwner s b == ownRank s
def partnerHere (s : State) (b : Nat) : Bool := isMember s && bucketDefined s b && bPartner s b == ownRank s

/-- The exchange page that serves a bucket: the one of the die whose memory controller holds the accumulator
(R254). -/
def serveInst (s : State) (b : Nat) : Nat :=
  Config.memController (bAcc s b) % s.variant.stacks / s.variant.mcUsed

/-- What a device holds of a bucket for the step in progress. -/
def bx (s : State) (b : Nat) : BucketX := nmGet {} b s.job.buckets

/-- Replaces it. -/
def setBx (b : Nat) (x : BucketX) (s : State) : State :=
  { s with job := { s.job with buckets := nmSet b x s.job.buckets } }

/-- Changes it. -/
def modBx (b : Nat) (f : BucketX → BucketX) (s : State) : State := setBx b (f (bx s b)) s

/-- Changes what a device holds as a member of a job. -/
def modJob (f : JobX → JobX) (s : State) : State := { s with job := f s.job }

/-! ### The agreed table (R226) -/

/-- Where plane `k` of the agreed table lies. -/
def agreePlane (s : State) (b k : Nat) : Nat :=
  if k = 0 then bAgree s b else bAgree s b + ceilDiv (bBlocks s b) 64 * 64

/-- The current and the next plane. -/
def agreeCur (s : State) (b : Nat) : Nat := agreePlane s b (bx s b).flip
def agreeNext (s : State) (b : Nat) : Nat := agreePlane s b (1 - (bx s b).flip)

/-- The agreed exponent of block `k`. -/
def agreedExp (s : State) (b k : Nat) : Nat := readExp s memSpace (agreeCur s b + k)

/-! ### Deadlines (R187, R240) -/

/-- The length of a bucket's deadline in nanoseconds. -/
def deadlineLen (s : State) (b : Nat) : Nat :=
  let own := bits (descWord s b 4) 0 32
  if own ≠ 0 then own * 1000
  else
    let r := rd s F.ex_MEMBERS 0 0
    let bs := bBlock s b
    let x := ceilDiv ((r - 1) * bElems s b * (bs + 1)) (bs * (200 * s.variant.ports))
    let i := serveInst s b
    max (max 1 (rd s F.ex_DEADLINE_MULT i 0) * x) (rd s F.ex_DEADLINE_MIN i 0 * 1000)

/-- EXCH_WAIT_EXTRA of every die: the longest deadline length, in microseconds (R187). -/
def setWaitExtra (s : State) : State :=
  let longest := (List.range (bucketCount s)).foldl (fun m b => max m (deadlineLen s b)) 0
  (List.range 4).foldl (fun s d => wr F.sq_EXCH_WAIT_EXTRA d 0 (min (ceilDiv longest 1000) (2 ^ 32 - 1)) s) s

/-! ### State records (R225) -/

/-- Writes a bucket's record at STATE_ADDR: 64 bytes of state, whose layout the spec does not give, and the bitmap of
included ranks (DESIGN CHOICE, log 28). -/
def writeRecord (b : Nat) (s : State) : State :=
  let inc := (bx s b).included
  let (v, s) := free s
  let map := (List.range 512).map fun i =>
    BitVec.ofNat 8 ((List.range 8).foldl (fun a k => a + b2n (inc.contains (8 * i + k)) * 2 ^ k) 0)
  storeMem (rd s F.ex_STATE_ADDR 0 0 + 576 * b) (natLe 64 v ++ map) s

/-- Sets the included ranks of a bucket. -/
def setIncluded (b : Nat) (ranks : List Nat) (s : State) : State :=
  writeRecord b (modBx b (fun x => { x with included := ranks }) s)

/-! ### Logs (R253) -/

/-- An exchange-log entry of bucket `b` (R253). -/
def exchangeLog (b cause rank : Nat) (byOwner : Bool) (s : State) : State :=
  let x := bx s b
  let dl := match x.deadline with
    | some d => d
    | none => 0
  logEntry 3 (logKey (serveInst s b) 0) (words4 (nowNs s) (stepNo s)
    (b + x.included.length * 2 ^ 16 + rd s F.ex_MEMBERS 0 0 * 2 ^ 29 + cause * 2 ^ 42 + (rank % 4096) * 2 ^ 46 +
      b2n byOwner * 2 ^ 58) dl) s

/-! ### Updates pending (R187, R269) -/

/-- Sets UPDATES_PENDING of all four pages. -/
def refreshPending (s : State) : State :=
  let n := ((List.range (bucketCount s)).filter fun b => !(bx s b).updated).length
  (List.range 4).foldl (fun s d => wr F.ex_UPDATES_PENDING d 0 n s) s

/-- The step veto of the step in progress on every page: true while any notice in force vetoes (R242). -/
def refreshVeto (s : State) : State :=
  let v := (List.range (bucketCount s)).any fun b => (bx s b).nVeto
  let s := if v && !rdb s F.ex_STEP_VETOED 0 0 then
      (List.range 4).foldl (fun s d => setb F.ex_VETO_SEEN d 0 true s) s
    else s
  (List.range 4).foldl (fun s d => setb F.ex_STEP_VETOED d 0 v s) s

/-- Accumulators of an owned bucket are zeroed as integers, or as F32 +0: the same bytes (R237, R245). -/
def zeroAcc (b : Nat) (s : State) : State :=
  if ownerHere s b then storeMem (bAcc s b) (List.replicate (4 * bElems s b) 0#8) s else s

/-- A bucket opens for the step in progress (R239). -/
def openBucket (b : Nat) (s : State) : State :=
  let x := bx s b
  zeroAcc b (setIncluded b [] (setBx b
    { flip := x.flip, agreeValid := x.agreeValid, unbuilt := !x.agreeValid, cellarValid := x.cellarValid, state := 1, lost := x.lost
      crcDue := x.crcDue, crcOwn := x.crcOwn, crcPeer := x.crcPeer, landed := x.landed } s))

/-- Every bucket opens. -/
def openAll (s : State) : State := refreshVeto (refreshPending ((List.range (bucketCount s)).foldl (fun s b => openBucket b s) s))

/-! ### Loading the tables at a commit -/

/-- Word at a memory address. -/
def memWord (s : State) (a : Nat) : Nat := readNat s memSpace a 8

/-- The next plane of a bucket's agreed table takes what is current, so that a block without a change keeps its exponent
(R226, R242) (DEDUCED, log 71). -/
def copyPlane (b : Nat) (s : State) : State :=
  storeMem (agreeNext s b) (readBytes s memSpace (agreeCur s b) (bBlocks s b)) s

/-- The bucket table is read (R225, R228): agreed tables are not valid until the first closure. What the device knows of
the buckets' cellars is not the table's, and stays (R294). -/
def loadBuckets (s : State) : State :=
  let a := rd s F.ex_BUCKET_TABLE 0 0
  let n := bucketCount s
  let t := (List.range n).map fun b => (b, (List.range 8).map fun i => memWord s (a + 64 * b + 8 * i))
  let s := modJob (fun j =>
    { j with
      table := t, sends := [], pulls := []
      buckets := j.buckets.map fun kb => (kb.1, { kb.2 with flip := 0, agreeValid := false }) }) s
  setWaitExtra ((List.range n).foldl (fun s b => copyPlane b s) (openAll s))

/-- The update table is read (R256). -/
def loadUpdates (s : State) : State :=
  let a := rd s F.ex_UPDATE_TABLE 0 0
  let t := (List.range (bucketCount s)).map fun b => (b, (List.range 4).map fun i => memWord s (a + 32 * b + 8 * i))
  modJob (fun j => { j with upd := t }) s

/-- The route table is read (R305). -/
def loadRoutes (s : State) : State :=
  let a := rd s F.pt_ROUTE_ADDR 0 0
  let rs := (List.range (rd s F.pt_ROUTE_ENTRIES 0 0)).filterMap fun i =>
    let e := memWord s (a + 16 * i + 8)
    if bitOf e 63 then some (memWord s (a + 16 * i), bits e 0 48, bits e 48 12) else none
  modJob (fun j => { j with routes := rs }) s

/-! ### Update descriptors (R256) -/

def uWord (s : State) (b i : Nat) : Nat := (nmGet [] b s.job.upd).getD i 0
def uMPage (s : State) (b : Nat) : Nat := bits (uWord s b 0) 0 20
def uSPage (s : State) (b : Nat) : Nat := bits (uWord s b 0) 20 20
def uMoments (s : State) (b : Nat) : Nat := min 2 (bits (uWord s b 0) 40 2)
def uMasterTid (s : State) (b : Nat) : Nat := bits (uWord s b 1) 0 32
def uMasterInst (s : State) (b : Nat) : Nat := bits (uWord s b 1) 32 12
def uMomentInst (s : State) (b : Nat) : Nat := bits (uWord s b 1) 44 12
def uMomentTid (s : State) (b : Nat) : Nat := bits (uWord s b 2) 0 32

/-- View pages of a bucket in one plane. -/
def bPages (s : State) (b : Nat) : Nat := ceilDiv (bElems s b) 32768

/-- Bases of the four view windows (R255). -/
def curMaster : Nat := 0x800000000000
def altMaster : Nat := 0x900000000000
def curState : Nat := 0xA00000000000
def altState : Nat := 0xB00000000000

/-- Address of bucket position `pos` in a master view. -/
def masterAddr (s : State) (win b pos : Nat) : Nat := win + 65536 * uMPage s b + 2 * pos

/-- Address of position `pos` of moment plane `j` in a state view. -/
def momentAddr (s : State) (win b j pos : Nat) : Nat := win + 65536 * (uSPage s b + j * bPages s b) + 2 * pos

end Sys2Proof.Machine
end

