-- ==== Sys2Proof/Machine/Chains.lean ====
section
/-! DEFINITION. Query endpoints as staged configuration: the chain table (R215), the checks of R216 and the published
latencies (R217). -/

namespace Sys2Proof.Machine

open Sys2Proof

/-- An endpoint is defined: its QUEUE_BOUND is not 0 (R223). -/
def epDefined (s : State) (e : Nat) : Bool := rd s F.qe_QUEUE_BOUND 0 e != 0

/-- The defined endpoints. -/
def definedEps (s : State) : List Nat := (List.range 256).filter (epDefined s)

/-- The digital die of an endpoint. -/
def epDie (s : State) (e : Nat) : Nat := rd s F.qe_DIE 0 e

/-- Reads the chain table of endpoint `e` (R215). -/
def readChain (s : State) (e : Nat) : Chain :=
  let a := rd s F.qe_CHAIN_ADDR 0 e
  { entries := (List.range (rd s F.qe_ENTRIESM1 0 e + 1)).map fun i => cmdOf (readBytes s memSpace (a + 32 * i) 32)
    regs := (List.range 32).map fun r => memWord s (a + 2048 + 8 * r)
    red2 := memWord s (a + 2304), red3 := memWord s (a + 2312) }

/-- The chain the part holds of an endpoint. -/
def chainOf (s : State) (e : Nat) : Chain := nmGet ⟨[], [], 0, 0⟩ e s.chains

/-- What an endpoint's chain is run with: register 0 holds the base of the buffer of the endpoint's `k`-th query. -/
def chainCtx (s : State) (e k : Nat) (ch : Chain) : Ctx :=
  { die := epDie s e, tag := 0, gen := 0, regs := (Config.queryBuffer (e + 256 * k) % 2 ^ 48) :: ch.regs.drop 1
    red2 := ch.red2, red3 := ch.red3, row2 := 0, row3 := 0, step := stepNo s }

/-- The chain breaks R215. -/
def badChain (s : State) (e : Nat) (ch : Chain) : Bool :=
  let es := ch.entries
  let offs := es.map Cmd.issueOffset
  let last := es.length - 1
  decide (64 < es.length) || ch.regs.any (fun r => r / 2 ^ 48 != 0) ||
  (match es.head? with
    | some c => !(c.cls == 3 && c.op == 0x17)
    | none => true) ||
  (offs.zip (offs.drop 1)).any (fun ab => decide (ab.2 < ab.1)) ||
  es.zipIdx.any fun ci =>
    let c := ci.1
    if c.cls = 3 then decide (classOps 3 ≤ c.op) || badVector c
    else if c.cls = 5 then
      decide (256 ≤ c.waitA) || c.op != 0 || badArray c ||
        (ci.2 != last && !c.aFold && bits c.w2 20 5 != epDie s e)
    else true

/-- What a chain entry reads and writes, and when, in core cycles from 8 alignment periods before the chain origin (R204,
R205, R207, R216). -/
structure Shape where
  reads : List Range
  writes : List Range
  readAt : Nat
  landAt : Nat
  occ : Nat
  deriving DecidableEq, Repr

/-- What a COMPACT may write: its record, and every element it reads to D and C (R167, R216) (DEDUCED, log 137). -/
def compactWrites (x : Ctx) (c : Cmd) : List Range :=
  let n := (vLen x c).1
  let cc := vC x c
  ⟨dieSpace x.die, x.addr x.red2 0, 16⟩ :: (vD x c).ranges n ++ (if n = 0 then [] else [⟨cc.space, cc.base, 4 * n⟩])

/-- The shape of an entry; products take P = 12. -/
def entryShape (s : State) (x : Ctx) (c : Cmd) : Shape :=
  let off := c.issueOffset + 8
  if c.cls = 3 then
    let r := vectorWork c.op x c s
    { reads := r.reads
      writes := if c.op = 0x1B then compactWrites x c
        else r.writes.map fun w => ⟨w.key % 64, w.key / 64, w.bytes.length⟩
      readAt := 32 * off, landAt := 32 * off + r.lat.getD 0, occ := r.occ }
  else
    let inst := c.waitA
    let die := inst / 16
    let o := productWork x c die inst 0 [] s s
    { reads := o.res.reads, writes := o.res.writes.map fun w => ⟨w.key % 64, w.key / 64, w.bytes.length⟩
      readAt := 32 * (off - 1 - planeDelay die (x.plane c.w2 0).die) + 31
      landAt := 32 * (off + 12 + ceilDiv (c.aKseg - 1) 8 + b2n c.aFold + outDelay die x c), occ := 0 }

/-- Elements of an endpoint's input: the length of its QUANT (R215). -/
def epInput (s : State) (e : Nat) : Nat :=
  let ch := chainOf s e
  match ch.entries.head? with
  | some c => (vLen (chainCtx s e 0 ch) c).1
  | none => 0

/-- The query input: the endpoint logic writes it at the chain origin, before any entry may read it (R216, R218). -/
def inputShape (s : State) (e : Nat) (ch : Chain) : Shape :=
  { reads := [], writes := [⟨dieSpace (epDie s e), (chainCtx s e 0 ch).reg 0, 2 * epInput s e⟩]
    readAt := 0, landAt := 32 * 8, occ := 0 }

/-- An entry reads bytes that an earlier entry of the chain has not landed yet (R216, check 2). -/
def readsEarly (shapes : List Shape) : Bool :=
  shapes.zipIdx.any fun si => (shapes.take si.2).any fun w =>
    decide (si.1.readAt < w.landAt) && si.1.reads.any fun r => w.writes.any fun v => r.overlaps v

/-- The chain starts of an endpoint within a frame (R216). -/
def chainStarts (s : State) (e : Nat) : List Nat :=
  let sp := rd s F.qe_SPACING 0 e
  if sp = 0 then [] else (List.range (64 / sp)).map fun k => (rd s F.qe_ORIGIN 0 e + 8 * sp * k) % 512

/-- The slots of groups an endpoint claims: group instance and frame period of the first integration. -/
def claims (s : State) (e : Nat) (ch : Chain) : List (Nat × Nat) :=
  (chainStarts s e).flatMap fun c => ch.entries.filterMap fun en =>
    if en.cls = 5 then some (en.waitA, (c + en.issueOffset) % 512) else none

/-- Frame period `n` starts a slot of group `inst` reserved to endpoint `e`, under the map and phase of the state. -/
def reservedTo (s : State) (inst n e : Nat) : Bool :=
  let k := (n + 512 - rd s F.ag_FRAME_PHASE inst 0) % 512
  let entry := rd s F.ag_FRAME_MAP_STG inst (k / 8)
  k % 8 == 0 && bits entry 8 2 == 2 && bits entry 0 8 == e

/-- Core cycles of a frame in which vector engine 15 of a die runs entries of endpoint `e`: start and occupancy. -/
def engineUse (s : State) (e : Nat) (ch : Chain) (shapes : List Shape) : List (Nat × Nat) :=
  (chainStarts s e).flatMap fun c => (ch.entries.zip shapes).filterMap fun es =>
    if es.1.cls = 3 then some (32 * ((c + es.1.issueOffset) % 512), es.2.occ) else none

/-- Two uses of one engine share a core cycle of the frame. -/
def useOverlaps (a b : Nat × Nat) : Bool :=
  let d := (b.1 + 16384 - a.1) % 16384
  decide (d < a.2) || decide (16384 < d + b.2)

/-- Two of a list of uses overlap. -/
def anyOverlap : List (Nat × Nat) → Bool
  | [] => false
  | a :: rest => rest.any (useOverlaps a) || anyOverlap rest

/-- The shapes of an endpoint's entries. -/
def chainShapes (s : State) (e : Nat) (ch : Chain) : List Shape := ch.entries.map (entryShape s (chainCtx s e 0 ch))

/-- SPACING and QUEUE_BOUND are in range (R216, check 5). -/
def epRangeOk (s : State) (e : Nat) : Bool :=
  [1, 2, 4, 8, 16, 32, 64].contains (rd s F.qe_SPACING 0 e) && decide (rd s F.qe_QUEUE_BOUND 0 e ≤ 15)

/-- Sequencer 79 of a die runs (R216, check 4). -/
def seq79Runs (s : State) (die : Nat) : Bool := seqBusy s ⟨die, 79⟩

/-- The failures of endpoint `e` by rule code and register offset, in the state a commit would leave. -/
def epFailures (s : State) (e : Nat) : List (Nat × Nat) :=
  let ch := chainOf s e
  let chain : List (Nat × Nat) :=
    if badChain s e ch then [(0x26, 0x108)]
    else
      let shapes := chainShapes s e ch
      let cl := claims s e ch
      let others := (definedEps s).filter fun f => f != e && epDie s f == epDie s e
      let mine := engineUse s e ch shapes
      let theirs := others.flatMap fun f =>
        let c := chainOf s f
        if badChain s f c then [] else engineUse s f c (chainShapes s f c)
      (if cl.any (fun c => !reservedTo s c.1 c.2 e) || decide (cl.dedup.length ≠ cl.length) then [(0x20, 0x108)] else []) ++
      (if readsEarly (inputShape s e ch :: shapes) then [(0x21, 0x108)] else []) ++
      (if anyOverlap mine || mine.any (fun a => theirs.any (useOverlaps a)) then [(0x22, 0x108)] else [])
  chain ++ (if seq79Runs s (epDie s e) then [(0x23, 0x100)] else []) ++
    (if epRangeOk s e then [] else [(0x24, 0x100)])

/-- Π and Λ of an endpoint in alignment periods (R217). -/
def epLatency (s : State) (e : Nat) (ch : Chain) : Nat × Nat :=
  let last := ((chainShapes s e ch).getLast?.map (·.landAt)).getD 0
  let pi := last / 32 - 8 + 1 + 3
  (pi, 2 + 8 * rd s F.qe_SPACING 0 e * rd s F.qe_QUEUE_BOUND 0 e + pi)

/-- The chain tables of changed endpoints are read. -/
def takeChains (es : List Nat) (s : State) : State :=
  es.foldl (fun s e =>
    let cs := if epDefined s e then nmSet e (readChain s e) s.chains else smErase e s.chains
    { s with chains := cs }) s

/-- Publishes an endpoint at the commit that defines or changes it (R217). -/
def publishEndpoint (e : Nat) (s : State) : State :=
  if epDefined s e then
    let l := epLatency s e (chainOf s e)
    setb F.qe_DEFINED 0 e true (wr F.qe_PIPELINE_AP 0 e l.1 (wr F.qe_PROMISE_AP 0 e l.2
      (wr F.qe_PROMISE_NS 0 e (20 * l.2) s)))
  else
    setb F.qe_DEFINED 0 e false (wr F.qe_PIPELINE_AP 0 e 0 (wr F.qe_PROMISE_AP 0 e 0 (wr F.qe_PROMISE_NS 0 e 0 s)))

end Sys2Proof.Machine
end

