-- ==== Sys2Proof/Machine/View.lean ====
section
/-! DEFINITION. Membership views (R280, R281, R284 to R286): reading a view, the checks of its commit, and the owners
and partners it derives. -/

namespace Sys2Proof.Machine

open Sys2Proof

/-- A view in memory: the eight header words and the four words of each entry. -/
structure ViewImage where
  hdr : List Nat
  entries : List (List Nat)
  deriving DecidableEq, Repr

/-- Reads a view. -/
def readView (s : State) (a : Nat) : ViewImage :=
  let hdr := (List.range 8).map fun i => memWord s (a + 8 * i)
  { hdr := hdr
    entries := (List.range (bits (hdr.getD 0 0) 32 13)).map fun e =>
      (List.range 4).map fun i => memWord s (a + 64 + 32 * e + 8 * i) }

def ViewImage.word (v : ViewImage) (i : Nat) : Nat := v.hdr.getD i 0
def ViewImage.gen (v : ViewImage) : Nat := bits (v.word 0) 0 32
def ViewImage.kind (v : ViewImage) : Nat := bits (v.word 0) 45 2

/-- An entry's fields. -/
def viewEntry (w : List Nat) : ViewEntry :=
  let a := w.getD 1 0
  let t := w.getD 2 0
  { serial := w.getD 0 0, rank := bits a 0 12, partner := bits a 12 12, joining := bits a 24 2 == 1
    feed := bits t 0 16, board := bits t 16 16, rack := bits t 32 16 }

/-- The entries of a view. -/
def ViewImage.list (v : ViewImage) : List ViewEntry := v.entries.map viewEntry

/-- What a rebalance view says of each bucket's owner: 0xFFFF keeps it (R284). -/
def ownership (s : State) (v : ViewImage) : List Nat :=
  if v.kind = 2 then (List.range (bucketCount s)).map fun b => readNat s memSpace (bits (v.word 4) 0 48 + 2 * b) 2
  else []

/-- A bucket's cellar copy is valid, as far as this device knows (R274, DESIGN CHOICE, log 26). -/
def cellarKnown (s : State) (b : Nat) : Bool :=
  if ownerHere s b || partnerHere s b then (bx s b).cellarValid
  else Config.cellarElsewhere (b + 65536 * rd s F.rs_GENERATION 0 0)

/-- A rank is a member, not a joining rank, of a list of entries. -/
def isMemberOf (es : List ViewEntry) (rank : Nat) : Bool := es.any fun e => e.rank == rank && !e.joining

/-- The partner a list of entries gives a rank. -/
def partnerOf (es : List ViewEntry) (rank : Nat) : Nat :=
  ((es.find? fun e => e.rank == rank).map (·.partner)).getD noRank

/-- The owner of bucket `b` under new entries: none where the bucket is lost (R286). `owners` is what a rebalance
view names. In mirror mode a bucket is lost only with every member: where the owner and its partner both go, the lowest
rank owns it (R297, DEDUCED, log 30). -/
def newOwner (s : State) (es : List ViewEntry) (owners : List Nat) (b : Nat) : Option Nat :=
  let o := bOwner s b
  let p := bPartner s b
  if isMemberOf es o then
    let w := owners.getD b 0xFFFF
    if w == p && cellarKnown s b && isMemberOf es p then some p else some o
  else if isMemberOf es p && (cellarKnown s b || rdb s F.rs_MIRROR 0 0) then some p
  else if rdb s F.rs_MIRROR 0 0 then ((es.filter fun e => !e.joining).map (·.rank)).min?
  else none

/-- The effective shelf interval of a view (R281). -/
def effInterval (es : List ViewEntry) (shelf : Nat) : Nat :=
  let shared := es.any fun e => e.partner != noRank && (es.any fun f => f.rank == e.partner && f.feed == e.feed)
  if shared then min shelf 20 else shelf

/-- Any pair of partners shares FEED (R281). -/
def sharedFeed (es : List ViewEntry) : Bool :=
  es.any fun e => e.partner != noRank && (es.any fun f => f.rank == e.partner && f.feed == e.feed)

/-- A program runs on the device: a sequencer of any digital die is running or waiting (R361). -/
def programRuns (s : State) : Bool :=
  s.flds.any fun kv => kv.1.fid == F.sq_STATE.fid && (kv.2 == 1 || kv.2 == 2)

/-- The failures of a view commit: window and rule, of which `firstReject` takes the first (R285, R362, R363)
(DEDUCED, log 57). -/
def viewFailures (s : State) (v : ViewImage) : List (Nat × Nat) :=
  let es := v.list
  let hdr := 0xFFFF
  let n := v.entries.length
  let alone := (es.filter fun e => !e.joining).length == 1
  let w := v.word
  let reserved := bits (w 0) 48 16 != 0 || bits (w 2) 48 16 != 0 || bits (w 4) 48 16 != 0 || w 5 != 0 || w 6 != 0 ||
    w 7 != 0 || (v.kind != 1 && w 3 != 0) || (v.kind != 2 && w 4 != 0)
  let serial := rd s F.id_SERIAL 0 0
  let mine := es.zipIdx.filter fun ei => ei.1.serial == serial
  let tags (e : ViewEntry) : Bool :=
    e.feed == rd s F.rs_FEED 0 0 && e.board == rd s F.rs_BOARD 0 0 && e.rack == rd s F.rs_RACK 0 0
  let owners := ownership s v
  let own := (List.range (bucketCount s)).filterMap fun b => newOwner s es owners b
  let partnerBad (e : ViewEntry) : Bool :=
    (e.partner != noRank && (!isMemberOf es e.partner || e.partner == e.rank ||
      (!rdb s F.rs_FEED_OVERRIDE 0 0 && (es.any fun f => f.rank == e.partner && f.feed == e.feed)))) ||
    (e.partner == noRank && own.contains e.rank && !alone) ||
    decide (2 < (es.filter fun f => f.partner == e.rank).length)
  let eff := effInterval es (bits (w 2) 0 16)
  let store := bits (w 2) 16 16
  let rebalanceBad := (List.range (bucketCount s)).any fun b =>
    let o := owners.getD b 0xFFFF
    o != 0xFFFF && o != bOwner s b && !(o == bPartner s b && cellarKnown s b)
  (if reserved || v.kind == 3 || n == 0 || decide (4095 < n) || decide (v.gen ≤ rd s F.rs_GENERATION 0 0)
    then [(hdr, 0x30)] else []) ++
  (if mine.isEmpty then [(hdr, 0x31)] else []) ++
  (if eff != 0 && store != 0 && store % eff != 0 then [(hdr, 0x34)] else []) ++
  (if (v.kind == 1 && programRuns s) || (v.kind != 1 && rdb s F.rs_ROLLBACK_NEEDED 0 0) then [(hdr, 0x35)] else []) ++
  (if v.kind == 2 && rebalanceBad then [(hdr, 0x36)] else []) ++
  (es.zip v.entries).zipIdx.flatMap fun ewi =>
    let e := ewi.1.1
    let ws := ewi.1.2
    let i := ewi.2
    let before := es.take i
    (if bits (ws.getD 1 0) 26 38 != 0 || bits (ws.getD 2 0) 48 16 != 0 || ws.getD 3 0 != 0 || e.rank == noRank ||
        decide (1 < bits (ws.getD 1 0) 24 2) then [(i, 0x30)] else []) ++
    (if e.serial == serial && (!tags e || (before.any fun f => f.serial == serial)) then [(i, 0x31)] else []) ++
    (if before.any fun f => f.rank == e.rank || f.serial == e.serial then [(i, 0x32)] else []) ++
    (if partnerBad e then [(i, 0x33)] else [])

/-- The checked view that waits to apply (DEDUCED, log 85). -/
def pendingOf (s : State) (v : ViewImage) : PendingView :=
  { gen := v.gen, kind := v.kind, mirror := bitOf (v.word 0) 47, applyTime := v.word 1
    shelf := bits (v.word 2) 0 16, store := bits (v.word 2) 16 16, crc := bits (v.word 2) 32 16
    rollback := v.word 3, owners := ownership s v, entries := v.list }

end Sys2Proof.Machine
end

