-- ==== Sys2Proof/Machine/Network.lean ====
section
/-! DEFINITION. The network ports and the Rhazo transport (R299 to R309): sending and receiving frames, reliable
delivery, landing zones, and links. -/

namespace Sys2Proof.Machine

open Sys2Proof

/-! ### Ports (R299 to R302) -/

/-- A fitted port. -/
def portFitted (s : State) (p : Nat) : Bool := decide (p < s.variant.ports)

/-- A port that carries frames: the clocks run, it is enabled and its link is up. -/
def portCarries (s : State) (p : Nat) : Bool :=
  decide (s.stage = .clocked) && portFitted s p && rdb s F.pt_ENABLE p 0 && rdb s F.pt_LINK_UP p 0

/-- A port that receives what comes on its line: not one in near-end loopback, whose receiver hears its own transmitter
(R319) (DEDUCED, log 157). -/
def portHears (s : State) (p : Nat) : Bool := portCarries s p && !rdb s F.pt_LOOPBACK p 0

/-- The frame classes of R302. -/
def classQuery : Nat := 0
def classControl : Nat := 1
def classBulk : Nat := 2

/-- The tag of a frame the part forms itself (R301): VID and the PCP of its class. -/
def classTag (s : State) (p cls : Nat) : Option Nat :=
  if rdb s F.pt_TAG_EN p 0 then
    let pcp := if cls = classQuery then rd s F.pt_PCP_QUERY p 0
      else if cls = classControl then rd s F.pt_PCP_CONTROL p 0 else rd s F.pt_PCP_BULK p 0
    some (rd s F.pt_VID p 0 + pcp * 2 ^ 13)
  else none

/-- Bytes of a frame from destination address through FCS; short frames are padded to 64 (R299). -/
def frameBytes (tag : Option Nat) (n : Nat) : Nat := max 64 (18 + (if tag.isSome then 4 else 0) + n)

/-- A frame arrived on port `p`: every frame is counted, discarded or not (DEDUCED, log 63). -/
def countRx (p size : Nat) (s : State) : State := addW F.pt_BYTES_RX p 0 size (addW F.pt_FRAMES_RX p 0 1 s)

/-- Bytes queued on port `p` (R305): what its line, at 200 bytes a nanosecond (R299), has not carried yet
(DEDUCED, log 42). -/
def queuedBytes (s : State) (p : Nat) : Nat := ceilDiv ((nmGet 0 p s.lineBusy - s.time) * 200) (2 ^ 32)

/-- `n` bytes are queued on port `p`. -/
def occupyLine (p n : Nat) (s : State) : State :=
  { s with lineBusy := nmSet p (max s.time (nmGet 0 p s.lineBusy) + n * 2 ^ 32 / 200) s.lineBusy }

/-- A frame leaves on port `p` (DEDUCED, log 42). In near-end loopback it comes back to the port and not on the line: it is
counted as received and has no further effect, for it does not bear the port's address, or this clock sent it
(DEDUCED, log 157). -/
def transmit (p dst : Nat) (tag : Option Nat) (etype cls : Nat) (bytes : List Byte) (bad : List Nat) (s : State) : State :=
  let n := frameBytes tag bytes.length
  let s := occupyLine p n (addW F.pt_BYTES_TX p 0 n (addW F.pt_FRAMES_TX p 0 1 s))
  if rdb s F.pt_LOOPBACK p 0 then countRx p n s else emit (.frame p dst tag etype cls bytes bad) s

/-- Picoseconds in units of 2^-32 ns, rounded down. -/
def psUnits (ps : Int) : Int := ps * 2 ^ 32 / 1000

/-- The transmit timestamp of a frame that leaves on port `p` now, in nanoseconds (R315). -/
def txStamp (s : State) (p : Nat) : Nat :=
  let ps : Int := (rd s F.pt_TX_DELAY_FACT p 0 : Int) + signedOf (rd s F.pt_TX_DELAY_ADJ p 0) 16
  ((((s.time : Int) + psUnits ps) / 2 ^ 32) % 2 ^ 64).toNat

/-- A time in units of 2^-16 ns at the resolution of timestamps, 1/16 ns (R315). -/
def stampAt (t : Int) : Nat := (t / 4096 * 4096).toNat

/-- The receive timestamp of what crossed the sampling plane of port `p` at `raw`, in units of 2^-16 ns: RX_DELAY_FACT and
RX_DELAY_ADJ are taken off (R315). -/
def rxTime (s : State) (p raw : Nat) : Nat :=
  stampAt ((raw : Int) -
    ((rd s F.pt_RX_DELAY_FACT p 0 : Int) + signedOf (rd s F.pt_RX_DELAY_ADJ p 0) 16) * 65536 / 1000)

/-- The transmit timestamp of what crossed the sampling plane of port `p` at `raw` (R315). -/
def txTime (s : State) (p raw : Nat) : Nat :=
  stampAt ((raw : Int) +
    ((rd s F.pt_TX_DELAY_FACT p 0 : Int) + signedOf (rd s F.pt_TX_DELAY_ADJ p 0) 16) * 65536 / 1000)

/-- The receive timestamp of a frame, in nanoseconds: its arrival (R308, R315). -/
def rxNs (s : State) (f : Frame) : Nat := rxTime s f.port f.stamp / 65536

/-- A Rhazo frame arrived: it is counted, with what the PCS reports of the codewords before it (R319). -/
def countFrame (f : Frame) (s : State) : State :=
  setb F.pt_HIGH_BER f.port 0 f.highBer (sat F.pt_FEC_UNCORRECTED f.port 0 f.fecLost
    (addW F.pt_FEC_CORRECTED f.port 0 f.fecFixed (countRx f.port f.size s)))

/-! ### Reaching members (R305) -/

/-- The station of a serial: its address and ports. -/
def stationOf (s : State) (serial : Nat) : Option (Nat × Nat) := (s.job.routes.find? fun r => r.1 == serial).map (·.2)

/-- The port of a list with the fewest bytes queued, the first on a tie (R305). -/
def leastQueued (s : State) (ps : List Nat) : Option Nat := ps.find? fun p => ps.all fun q => decide (queuedBytes s p ≤ queuedBytes s q)

/-- The port and address by which a serial is reached (R305). -/
def reach (s : State) (serial : Nat) : Option (Nat × Nat) :=
  match stationOf s serial with
  | none => none
  | some st => (leastQueued s ((List.range 12).filter fun p => bitOf st.2 p && portCarries s p)).map fun p => (p, st.1)

/-- The serial of a rank in the view in force. -/
def serialOf (s : State) (rank : Nat) : Option Nat := (entryOf s rank).map (·.serial)

/-! ### Frames (R303) -/

/-- The receiver's state for a sender. -/
def rxPeer (s : State) (serial : Nat) : Option RxPeer := smFind serial s.job.rx

/-- Replaces it. -/
def setRx (serial : Nat) (r : RxPeer) (s : State) : State := modJob (fun j => { j with rx := nmSet serial r j.rx }) s

/-- The sender's state for a destination. -/
def txPeer (s : State) (serial : Nat) : TxPeer := nmGet {} serial s.job.tx

/-- Replaces it. -/
def setTx (serial : Nat) (t : TxPeer) (s : State) : State := modJob (fun j => { j with tx := nmSet serial t j.tx }) s

/-- ACK_MAP: bit i for ACK_MARK + 1 + i (R303). -/
def ackMapOf (r : RxPeer) : Nat :=
  (List.range 32).foldl (fun a i => a + b2n (r.seen.contains ((r.mark + 1 + i) % 2 ^ 32)) * 2 ^ i) 0

/-- The rank a device sends under: none where it is no member and does not join. -/
def srcRank (s : State) : Nat := if inView s then ownRank s else noRank

/-- The bytes of a Rhazo frame after the EtherType (R303). -/
def rhazoBytes (type src dst gen len : Nat) (ack : Option RxPeer) (session id serial : Nat) (payload : List Byte) :
    List Byte :=
  let a := match ack with
    | some r => (1, r.mark % 2 ^ 32 + ackMapOf r * 2 ^ 32)
    | none => (0, 0)
  words4 (1 + type * 2 ^ 4 + (src % 4096) * 2 ^ 8 + (dst % 4096) * 2 ^ 20 + (gen % 2 ^ 32) * 2 ^ 32)
    (len % 2 ^ 14 + a.1 * 2 ^ 14 + (session % 2 ^ 16) * 2 ^ 16 + (id % 2 ^ 32) * 2 ^ 32) a.2 serial ++ payload

/-- The class of a message type (R302). -/
def typeClass (type : Nat) : Nat :=
  if type = 6 then classQuery else if type = 4 ∨ type = 7 ∨ type = 8 ∨ type = 9 then classControl else classBulk

/-- A Rhazo frame to a station, with the acknowledgement of what came from it (R306). -/
def sendRhazo (p mac type rank serial id : Nat) (payload : List Byte) (bad : List Nat) (s : State) : State :=
  let ack := rxPeer s serial
  let bytes := rhazoBytes type (srcRank s) rank (rd s F.rs_GENERATION 0 0) payload.length ack s.job.session id
    (rd s F.id_SERIAL 0 0) payload
  let cls := typeClass type
  let s := transmit p mac (classTag s p cls) 0x88B5 cls bytes (bad.map (· + 32)) s
  match ack with
  | some r => setRx serial { r with ackDue := none } s
  | none => s

/-! ### Reliable messages (R306, R307) -/

/-- Message types of R304. -/
def typeAcc : Nat := 1
def typeDelta : Nat := 2
def typeWrite : Nat := 3
def typeToken : Nat := 4
def typeMember : Nat := 8

/-- A message of this type does not take effect on a device that has withdrawn (R283) (DEDUCED, log 65). -/
def barred (s : State) (type : Nat) : Bool := exchangeStopped s && (type == typeAcc || type == typeDelta)

/-- A message of this type does not leave a device that has withdrawn: operations, deltas, the remote writes of shards and
walks, and membership messages (R283) (DEDUCED, log 65). -/
def mute (s : State) (type : Nat) : Bool := exchangeStopped s && type != typeToken

/-- The rank under which the view in force lists a serial. -/
def rankOf (s : State) (serial : Nat) : Nat := ((entryOfSerial s serial).map (·.rank)).getD noRank

/-- Sends a message to a serial where a port reaches it, with the header fields as they now are: the message as it then
stands. One that has been sent before is retransmitted, and counts (R306). -/
def trySend (serial : Nat) (m : TxMsg) (s : State) : TxMsg × State :=
  match reach s serial, mute s m.type with
  | some pm, false =>
    let s := sendRhazo pm.1 pm.2 m.type (rankOf s serial) serial m.id m.payload m.bad s
    ({ m with sentNs := some (nowNs s), again := true }, if m.again then sat F.pt_RETRANSMITS pm.1 0 1 s else s)
  | _, _ => ({ m with sentNs := none }, s)

/-- RETX_TIMEOUT and RETX_MAX in microseconds. -/
def retxTimeout (s : State) : Nat := max 1 (rd s F.pt_RETX_TIMEOUT 0 0)

/-- Offsets from `base` of the poisoned words that `n` bytes there touch. -/
def badOffsets (s : State) (space base n : Nat) : List Nat := (poisonedWords s space base n).map fun a => a - base

/-- A message is produced: the bytes that it moves are read, poisoned words as poisoned (R307, R382). -/
def TxMsg.produced (s : State) (m : TxMsg) : TxMsg :=
  match m.source with
  | none => m
  | some r =>
    { m with
      payload := m.payload ++ readBytes s r.1 r.2.1 r.2.2
      bad := m.bad ++ (badOffsets s r.1 r.2.1 r.2.2).map (· + m.payload.length), source := none }

/-- Puts a message into the window of a destination and sends it (R306); WINDOW_FULL counts when the window fills
(R307). -/
def windowSend (serial : Nat) (m : TxMsg) (s : State) : State :=
  let (m, s) := trySend serial (m.produced s) s
  let t := txPeer s serial
  let s := setTx serial { t with unacked := t.unacked ++ [m] } s
  if t.unacked.length + 1 = 1024 then sat F.pt_WINDOW_FULL 0 0 1 s else s

/-- The window of a rank has no room (R307). -/
def windowFull (s : State) (rank : Nat) : Bool :=
  match serialOf s rank with
  | some serial => decide (1024 ≤ (txPeer s serial).unacked.length) || !(txPeer s serial).held.isEmpty
  | none => false

/-- A reliable message to a rank of the view in force, not the device's own: the serial and MSG_ID that its
acknowledgement names, none where the view does not list the rank. `source` are bytes, by space, address and length, that
its payload ends with. While the window is full the message is held: it stands for what its unit has not produced yet, and
those bytes are read when room frees (R307); the operations of a send keep their operands till the commit (R234). -/
def sendMsg (rank type : Nat) (payload : List Byte) (bad : List Nat) (source : Option (Nat × Nat × Nat)) (s : State) :
    Option (Nat × Nat) × State :=
  match serialOf s rank with
  | none => (none, s)
  | some serial =>
    let t := txPeer s serial
    let m : TxMsg :=
      { id := t.nextId, type := type, payload := payload, bad := bad, source := source, sentNs := none
        intervalUs := retxTimeout s }
    let s := setTx serial { t with nextId := (t.nextId + 1) % 2 ^ 32 } s
    if t.unacked.length < 1024 ∧ t.held.isEmpty then (some (serial, m.id), windowSend serial m s)
    else
      let t := txPeer s serial
      (some (serial, m.id), setTx serial { t with held := t.held ++ [m] } s)

/-- A reliable message whose payload is at hand. -/
def sendReliable (rank type : Nat) (payload : List Byte) (bad : List Nat) (s : State) : Option (Nat × Nat) × State :=
  sendMsg rank type payload bad none s

/-- A remote write of `n` bytes at `base` to address `addr` of a rank, for step `step`: word 0 of its payload may carry
STEP_BOUND (R304). -/
def sendWrite (rank addr step space base n : Nat) (s : State) : Option (Nat × Nat) × State :=
  sendMsg rank typeWrite (natLe 8 addr ++ natLe 8 step) [] (some (space, base, n)) s

/-- A message is not acknowledged yet. -/
def outstanding (s : State) (w : Nat × Nat) : Bool :=
  let t := txPeer s w.1
  (t.unacked.any fun m => m.id == w.2) || t.held.any fun m => m.id == w.2

/-- An ID that a mark and map acknowledge, modulo 2^32. -/
def ackCovers (mark map id : Nat) : Bool :=
  let d := (mark + 2 ^ 32 - id % 2 ^ 32) % 2 ^ 32
  let i := (id + 2 ^ 33 - mark - 1) % 2 ^ 32
  decide (d < 2 ^ 31) || (decide (i < 32) && bitOf map i)

/-- Held messages that room in the window lets out, in MSG_ID order (R307). -/
def releaseHeld (serial : Nat) (s : State) : State :=
  let t := txPeer s serial
  let n := 1024 - t.unacked.length
  let s := setTx serial { t with held := t.held.drop n } s
  (t.held.take n).foldl (fun s m => windowSend serial m s) s

/-- Long operations no longer wait for the messages that `gone` names. -/
def dropAwaits (gone : Nat × Nat → Bool) (s : State) : State :=
  { s with tracker := s.tracker.map fun p => { p with awaits := p.awaits.filter fun w => !gone w } }

/-- An acknowledgement from a serial (R306). -/
def ackFrom (serial mark map : Nat) (s : State) : State :=
  let t := txPeer s serial
  let done := (t.unacked.filter fun m => ackCovers mark map m.id).map (·.id)
  if done.isEmpty then s
  else
    let s := setTx serial { t with unacked := t.unacked.filter fun m => !done.contains m.id } s
    releaseHeld serial (dropAwaits (fun w => w.1 == serial && done.contains w.2) s)

/-- RETRANSMIT (R306): the retransmission interval of a message has passed; its interval doubles up to RETX_MAX. -/
def retransmit (serial id : Nat) (s : State) : State :=
  let t := txPeer s serial
  match t.unacked.find? fun m => m.id == id with
  | none => s
  | some m =>
    match m.sentNs with
    | none => s
    | some ns =>
      let s := advanceTo (coreAfterNs s (ns + 1000 * m.intervalUs - 1)) s
      let (m, s) := trySend serial m s
      let m := { m with intervalUs := min (2 * m.intervalUs) (max (rd s F.pt_RETX_MAX 0 0) m.intervalUs) }
      let t := txPeer s serial
      setTx serial { t with unacked := t.unacked.map fun o => if o.id = id then m else o } s

/-- RETRANSMIT. -/
def execRetransmit (serial id : Nat) (s : State) : Host.Outcome State Fault Refusal := .next (retransmit serial id s)

/-- ACK_DELAY (R306): no frame to the sender has carried the acknowledgement. -/
def ackDelay (serial : Nat) (s : State) : State :=
  match rxPeer s serial with
  | none => s
  | some r =>
    match r.ackDue with
    | none => s
    | some ns =>
      let s := advanceTo (coreAfterNs s (ns + rd s F.pt_ACK_DELAY 0 0 - 1)) s
      match reach s serial with
      | none => s
      | some pm =>
        sendRhazo pm.1 pm.2 9 (rankOf s serial) serial 0 [] [] s

/-- ACK_DELAY. -/
def execAckDelay (serial : Nat) (s : State) : Host.Outcome State Fault Refusal := .next (ackDelay serial s)

/-! ### Receiving (R301, R306, R308) -/

/-- The receiver's state for the sender of a frame: anew where its session changed (R306). -/
def rxOf (s : State) (f : Frame) : RxPeer :=
  match rxPeer s f.serial with
  | some r => if r.session = f.session then r else { session := f.session }
  | none => { session := f.session }

/-- How a message ID stands to the mark and bitmap (R306): 0 duplicate, 1 deliverable, 2 beyond the window. -/
def rxCase (r : RxPeer) (id : Nat) : Nat :=
  let d := (id + 2 ^ 32 - r.mark) % 2 ^ 32
  if d = 0 ∨ 2 ^ 31 ≤ d ∨ r.seen.contains id then 0
  else if d ≤ 1024 then 1
  else 2

/-- The mark advanced over every leading set bit. -/
def advanceMark : Nat → Nat → List Nat → Nat × List Nat
  | 0, mark, seen => (mark, seen)
  | n + 1, mark, seen =>
    let m := (mark + 1) % 2 ^ 32
    if seen.contains m then advanceMark n m (seen.erase m) else (mark, seen)

/-- An ID is delivered: its bit is set and its acknowledgement is due. -/
def noteDelivered (id ns : Nat) (r : RxPeer) : RxPeer :=
  let seen := r.seen ++ [id]
  let a := advanceMark seen.length r.mark seen
  { r with mark := a.1, seen := a.2, ackDue := some (r.ackDue.getD ns) }

/-- A token enqueued by the port logic on a digital die, with that die's program generation (R308, R309). -/
def portToken (die queue word : Nat) (s : State) : State :=
  let gen := rd s F.sq_PROG_GEN (homeDie die) 0
  enqueue none (homeDie die) die queue (splice word 20 8 gen) s.core s

/-- Token messages that every lower ID from their sender has reached are delivered, in order (R308). -/
def deliverTokens : Nat → Nat → State → State
  | 0, _, s => s
  | n + 1, serial, s =>
    match rxPeer s serial with
    | none => s
    | some r =>
      match r.tokens.find? fun t => t.id == (r.mark + 1) % 2 ^ 32 with
      | none => s
      | some t =>
        let r := noteDelivered t.id (nowNs s) { r with tokens := r.tokens.filter fun o => o.id != t.id }
        deliverTokens n serial (portToken t.die t.queue t.word (setRx serial r s))

/-- A frame's sender is listed in the view in force (R283) (DEDUCED, log 64). -/
def fromMember (s : State) (f : Frame) : Bool := (entryOfSerial s f.serial).isSome

/-- A frame is no shorter than 64 and no longer than 9,216 bytes (R301). -/
def sizeAllowed (n : Nat) : Bool := decide (64 ≤ n ∧ n ≤ 9216)

/-- The size of a frame is that of a Rhazo frame with `n` bytes of payload, which its LENGTH gives (R299, R303). -/
def sizeFits (f : Frame) (n : Nat) : Bool := f.size == frameBytes f.tag (32 + n)

/-- A message of another session ends what the receiver keeps of its sender (R306). -/
def dropSession (f : Frame) (s : State) : State := if (rxPeer s f.serial).isSome then setRx f.serial (rxOf s f) s else s

/-- A frame arrives in a Rhazo message with `n` bytes of payload and is not discarded: its acknowledgement is taken. None
where the port hears nothing, the size is wrong (R301, R303) or the sender is no member (R283). -/
def arrive (f : Frame) (n : Nat) (always : Bool) (s : State) : Option State × State :=
  if !portHears s f.port then (none, s)
  else
    let s := countFrame f s
    if !sizeAllowed f.size then (none, sat F.pt_FRAME_SIZE_ERRORS f.port 0 1 s)
    else if !sizeFits f n then (none, sat F.pt_BAD_FRAMES f.port 0 1 s)
    else if !always && !fromMember s f then (none, sat F.rs_NONMEMBER_DISCARDS 0 0 1 s)
    else
      let s := dropSession f s
      let s := if f.ackValid then ackFrom f.serial f.ackMark f.ackMap s else s
      (some s, s)

/-- A reliable message that was not discarded, against the mark and bitmap `r` of its sender: a duplicate or a message
beyond the window is discarded, another is delivered by `act` (R306, R308). Exchange operations and deltas that come to
a device that has withdrawn are discarded unacknowledged (R283). -/
def takeMessage (f : Frame) (type : Nat) (act after : State → State) (r : RxPeer) (s : State) : State :=
  match rxCase r f.msgId with
  | 0 => sat F.pt_DUPLICATES f.port 0 1 (setRx f.serial { r with ackDue := some (r.ackDue.getD (nowNs s)) } s)
  | 1 =>
    if barred s type then s
    else after (deliverTokens 1024 f.serial (act (setRx f.serial (noteDelivered f.msgId (nowNs s) r) s)))
  | _ => sat F.pt_WINDOW_DROPS f.port 0 1 s

/-- A reliable message with `n` bytes of payload is received (R306): `act` is its effect, `after` what the delivery lets
happen. -/
def receive (f : Frame) (n type : Nat) (act after : State → State) (s : State) : State :=
  match arrive f n (type == typeMember) s with
  | (none, s) => s
  | (some s, _) => takeMessage f type act after (rxOf s f) s

/-- A token message against the mark and bitmap of its sender: held until every lower ID is delivered (R308). -/
def takeToken (f : Frame) (word queue die : Nat) (after : State → State) (r : RxPeer) (s : State) : State :=
  match rxCase r f.msgId with
  | 0 => sat F.pt_DUPLICATES f.port 0 1 (setRx f.serial { r with ackDue := some (r.ackDue.getD (nowNs s)) } s)
  | 1 =>
    after (deliverTokens 1024 f.serial (setRx f.serial { r with
      tokens := (r.tokens.filter fun o => o.id != f.msgId) ++ [⟨f.msgId, word, queue, die⟩] } s))
  | _ => sat F.pt_WINDOW_DROPS f.port 0 1 s

/-- A token message is received (R308). -/
def receiveToken (f : Frame) (word queue die : Nat) (after : State → State) (s : State) : State :=
  match arrive f 16 false s with
  | (none, s) => s
  | (some s, _) => takeToken f word queue die after (rxOf s f) s

/-! ### Remote writes and landing zones (R308, R309, R382) -/

/-- Bytes that `n` bytes at `a` have in common with a zone. -/
def zoneShare (s : State) (z a n : Nat) : Nat :=
  let b := rd s F.pt_ZONE_BASE 0 z
  min (a + n) (b + rd s F.pt_ZONE_BYTES 0 z) - max a b

/-- A write of another device made `n` bytes at `a` visible: zone `z` counts them and produces its tokens (R309). -/
def countZone (a n z : Nat) (s : State) : State :=
  if !rdb s F.pt_ZONE_EN 0 z then s
  else
    let expect := max 1 (rd s F.pt_ZONE_EXPECT 0 z)
    let c := rd s F.pt_ZONE_COUNT 0 z + zoneShare s z a n
    let word := tokenWord (0xFC * 2 ^ 12) 0 false false false false 0xF (expect / 64)
    (List.range (c / expect)).foldl (fun s _ => portToken (rd s F.pt_ZONE_DIE 0 z) (rd s F.pt_ZONE_QUEUE 0 z) word s)
      (wr F.pt_ZONE_COUNT 0 z (c % expect) s)

/-- Bytes written to memory, the words at some offsets as poisoned ones, which POISON_WRITES counts (R382). -/
def storePoisoned (a : Nat) (bytes : List Byte) (bad : List Nat) (s : State) : State :=
  bad.foldl (fun s o =>
    let s := poisonWord memSpace (a + o) s
    let u := holdingUnit s memSpace (a + o)
    satU F.mc_POISON_WRITES u 0 1 u s) (storeMem a bytes s)

/-- The bytes of a remote write become visible; 64-bit words that travelled as poisoned are written so (R382), and a
view page beyond the view is reported (R255) (DEDUCED, log 41). -/
def remoteStore (a : Nat) (bytes : List Byte) (bad : List Nat) (s : State) : State :=
  viewReport memSpace a bytes.length none (storePoisoned a bytes bad s)

/-- The bytes of a MEMBERSHIP message (R313). -/
def memberBytes (sub : Nat) (words : List Nat) (data : List Byte) : List Byte :=
  natLe 8 sub ++ words.flatMap (natLe 8) ++ data

/-- A step-bound write filled a range of a state page of a bucket whose cellar copy this device is building (R287)
(DEDUCED, log 79). -/
def noteLanded (addr n : Nat) (s : State) : State :=
  match (List.range (bucketCount s)).find? fun b =>
      partnerHere s b && !(bx s b).cellarValid && decide (curState + 65536 * uSPage s b ≤ addr ∧
        addr < curState + 65536 * (uSPage s b + uMoments s b * bPages s b)) with
  | some b =>
    let r := (addr - (curState + 65536 * uSPage s b), n)
    modBx b (fun x => if x.landed.contains r then x else { x with landed := x.landed ++ [r] }) s
  | none => s

/-- A received remote write takes effect (R308). -/
def takeWrite (f : Frame) (addr : Nat) (bound : Bool) (step : Nat) (data : List Byte) (bad : List Nat) (s : State) :
    State :=
  if bound && step != stepNo s then
    let s := sat F.pt_STALE_WRITES f.port 0 1 s
    (sendReliable f.srcRank typeMember (memberBytes 5 [f.msgId, addr] []) [] s).2
  else
    let s := remoteStore addr data bad s
    let s := if bound then noteLanded addr data.length s else s
    (List.range 64).foldl (fun s z => countZone addr data.length z s) s

/-- The PTP port (R314): none where no port serves. -/
def ptpPort (s : State) : Option Nat :=
  let p := rd s F.ck_PTP_PORT 0 0
  if p = 0xF then (List.range s.variant.ports).find? (portCarries s)
  else if portFitted s p then some p else none

/-- DISCARDED_FRAME (R301, R303, R313, R314). -/
def discardFrame (f : Frame) (why : Discard) (after : State → State) (s : State) : State :=
  match why with
  | .subtype n => receive f n typeMember (sat F.pt_BAD_FRAMES f.port 0 1) after s
  | _ =>
    if !portHears s f.port then s
    else
      let s := countFrame f s
      match why with
      | .fcs => sat F.pt_FCS_ERRORS f.port 0 1 s
      | .size => sat F.pt_FRAME_SIZE_ERRORS f.port 0 1 s
      | .etherType => sat F.pt_OTHER_ETHERTYPE f.port 0 1 s
      | .header => sat F.pt_BAD_FRAMES f.port 0 1 s
      | .ptpType => if ptpPort s != some f.port then sat F.ck_PTP_DISCARDS 0 0 1 s else s
      | _ => s


/-! ### Links (R306, R314, R318) -/

/-- Lists taken one element of each in turn (R302). -/
def inTurns {α : Type} : Nat → List (List α) → List α
  | 0, _ => []
  | n + 1, ls => ls.filterMap List.head? ++ inTurns n (ls.map List.tail)

/-- The messages of class `cls` that wait for a port, by destination. -/
def waitingIn (s : State) (cls : Nat) : List (List (Nat × TxMsg)) :=
  s.job.tx.map fun kv => (kv.2.unacked.filter fun m => m.sentNs.isNone && typeClass m.type == cls).map fun m => (kv.1, m)

/-- The messages that wait for a port in the order in which the classes let them leave: control before bulk, and bulk frames
round-robin across destinations (R302). -/
def waitOrder (s : State) : List (Nat × TxMsg) :=
  let bulk := waitingIn s classBulk
  (waitingIn s classControl).flatten ++ inTurns (bulk.map List.length).sum bulk

/-- Messages that wait for a port leave, where one reaches their destination now (R305). -/
def sendWaiting (s : State) : State :=
  (waitOrder s).foldl (fun s km =>
    let (m', s) := trySend km.1 km.2 s
    let t := txPeer s km.1
    setTx km.1 { t with unacked := t.unacked.map fun o => if o.id = km.2.id then m' else o } s) s

/-- ACTIVE_PORT and PTP_ACTIVE follow the PTP port; the clock listens from the first one on (R320). -/
def showPtpPort (s : State) : State :=
  let a := ptpPort s
  let s := (List.range s.variant.ports).foldl (fun s p => setb F.pt_PTP_ACTIVE p 0 (a == some p) s) s
  match a with
  | some p => wr F.ck_ACTIVE_PORT 0 0 p (if rd s F.ck_PORT_STATE 0 0 = 1 then wr F.ck_PORT_STATE 0 0 4 s else s)
  | none => s

/-- READY of a port (R318, R351). -/
def portReady (p : Nat) (s : State) : State :=
  let u := unitOf 0x40 p
  if !rdb s F.pt_ENABLE p 0 then setReady u false 0x0A 0 s
  else if !rdb s F.pt_LINK_UP p 0 then setReady u false 0x03 0 s
  else if !s.ptp.everLocked then setReady u false 0x04 0 s
  else setReady u true 0 0 s

/-- The link of an enabled port comes up; negotiation and training of a CR8 or KR8 link are complete. -/
def linkRises (p : Nat) (s : State) : State :=
  let s := setb F.pt_AN_DONE p 0 (rd s F.pt_MEDIA p 0 != 0 && rdb s F.pt_AN_EN p 0) (setb F.pt_LINK_UP p 0 true s)
  showPtpPort (portReady p s)

/-- The link of a port falls (R314, R318). -/
def linkDown (p : Nat) (s : State) : State :=
  if s.stage = .clocked ∧ portFitted s p ∧ rdb s F.pt_LINK_UP p 0 then
    let s := setb F.pt_HIGH_BER p 0 false (setb F.pt_AN_DONE p 0 false (setb F.pt_LINK_UP p 0 false s))
    let s := setb F.pt_LINK_DOWN_SEEN p 0 true (sat F.pt_LINK_DOWNS p 0 1 s)
    showPtpPort (portReady p s)
  else s

/-- LINK_DOWN. -/
def execLinkDown (p : Nat) (s : State) : Host.Outcome State Fault Refusal := .next (linkDown p s)

/-! ### Heartbeats (R282, R283, R312) -/

/-- HB_PERIOD in nanoseconds. -/
def beatNs (s : State) : Nat := 1000 * max 1 (rd s F.rs_HB_PERIOD 0 0)

/-- Heartbeats on every port with link, to every valid station the port reaches (R312) (DEDUCED, log 101). -/
def heartbeatSend (s : State) : State :=
  if s.job.silent || decide (s.stage ≠ .clocked) then s
  else
    let s := advanceTo (coreAfterNs s (s.job.nextBeat - 1)) s
    let s := modJob (fun j => { j with nextBeat := max s.job.nextBeat (nowNs s) + beatNs s }) s
    let payload := natLe 8 (stepNo s) ++ natLe 8 (nowNs s)
    ((List.range s.variant.ports).filter (portCarries s)).foldl (fun s p =>
      (s.job.routes.filter fun r => bitOf r.2.2 p && r.1 != rd s F.id_SERIAL 0 0).foldl (fun s r =>
        sendRhazo p r.2.1 7 (rankOf s r.1) r.1 0 payload [] s) s) s

/-- HEARTBEAT_SEND. -/
def execHeartbeatSend (s : State) : Host.Outcome State Fault Refusal := .next (heartbeatSend s)

/-- A joining unit takes the job's step number from the first heartbeat of a member in its own generation, which carries the
member's step in progress (R295, R312) (DEDUCED, log 155). -/
def learnStep (f : Frame) (e : ViewEntry) (s : State) : State :=
  if s.job.needStep && rdb s F.rs_JOINING 0 0 && !e.joining && f.gen == rd s F.rs_GENERATION 0 0 then
    let s := if f.beat = 0 then s else wr F.cm_EPOCH 0 0 (f.beat - 1) s
    modJob (fun j => { j with needStep := false }) (wr F.cm_STEP 0 0 f.beat s)
  else s

/-- A received heartbeat (R282, R283, R312). -/
def heartbeat (f : Frame) (s : State) : State :=
  match arrive f 16 true s with
  | (none, s) => s
  | (some s, _) =>
    let s := match entryOfSerial s f.serial with
      | some e => learnStep f e (wr F.rs_SUSPECT_MAP 0 e.rank 0 (modJob (fun j => { j with heard := nmSet e.rank (nowNs s) j.heard }) s))
      | none => s
    if rd s F.rs_GENERATION 0 0 < f.gen ∧ f.dstRank = noRank ∧ inView s ∧ !rdb s F.rs_WITHDRAWN 0 0 then withdraw s
    else s

/-- SUSPECT (R282): nothing was heard of a member for HB_MISS_LIMIT periods. -/
def suspect (rank : Nat) (s : State) : State :=
  if (isMember s || rdb s F.rs_JOINING 0 0) && (memberRanks s).contains rank && rank != ownRank s &&
      rd s F.rs_SUSPECT_MAP 0 rank == 0 then
    let t := nmGet 0 rank s.job.heard + max 1 (rd s F.rs_HB_MISS_LIMIT 0 0) * beatNs s
    let s := advanceTo (coreAfterNs s (t - 1)) s
    sat F.rs_SUSPECTS 0 0 1 (setb F.rs_SUSPECT_SEEN 0 0 true (wr F.rs_SUSPECT_MAP 0 rank 1 s))
  else s

/-- SUSPECT. -/
def execSuspect (rank : Nat) (s : State) : Host.Outcome State Fault Refusal := .next (suspect rank s)

end Sys2Proof.Machine
end

