-- ==== Sys2Proof/Machine/Exchange.lean ====
section
/-! DEFINITION. Exchange operations (R235, R236), what a contributor sends and keeps (R227 to R234), and what a member
does with replies, notices and table changes (R242, R250, R251). -/

namespace Sys2Proof

open Sys2Proof.Machine

/-! ### Operations (R235, R236) -/

def XOp.opcode (x : XOp) : Nat := bits x.w0 0 4
def XOp.bucket (x : XOp) : Nat := bits x.w0 8 16
def XOp.rank (x : XOp) : Nat := bits x.w0 24 12
def XOp.stepLo (x : XOp) : Nat := bits x.w0 40 24
def XOp.first (x : XOp) : Nat := bits x.w1 0 32
def XOp.count (x : XOp) : Nat := bits x.w1 32 16
def XOp.flags (x : XOp) : Nat := bits x.w1 48 16

/-- The bytes of an operation. -/
def XOp.bytes (x : XOp) : List Byte := natLe 8 x.w0 ++ natLe 8 x.w1 ++ x.data

/-- Word `i` of a payload of 4-byte words. -/
def XOp.word4 (x : XOp) (i : Nat) : Nat := leNat ((x.data.drop (4 * i)).take 4)

/-- Entry `i` of a payload of 8-byte entries. -/
def XOp.word8 (x : XOp) (i : Nat) : Nat := leNat ((x.data.drop (8 * i)).take 8)

/-- The delta block size of a DELTA operation (R259). -/
def XOp.deltaBlock (x : XOp) : Nat := blockSize (bits x.flags 2 2)

/-- Bytes of the exponents of a DELTA operation, padded to a multiple of 8. -/
def XOp.deltaExps (x : XOp) : Nat := ceilDiv (ceilDiv x.count x.deltaBlock) 8 * 8

/-- The payload an operation must carry, in bytes. -/
def XOp.payload (s : State) (x : XOp) : Nat :=
  match x.opcode with
  | 1 => x.count
  | 2 => 4 * x.count
  | 3 => ceilDiv x.count 8
  | 4 => if bitOf x.flags 0 then 8 * x.count else 2 * x.count
  | 5 => ceilDiv x.count (bBlock s x.bucket)
  | 8 => 512
  | 9 => 4 * x.count
  | 0xA => x.deltaExps + x.count
  | _ => 0

/-- The largest COUNT of an opcode, by the form of an ordered answer. -/
def XOp.countMax (x : XOp) : Nat :=
  match x.opcode with
  | 1 => 8192
  | 2 => 2048
  | 4 => if bitOf x.flags 0 then 1024 else 4096
  | 9 => 2048
  | 0xA => 7680
  | _ => 32768

end Sys2Proof

namespace Sys2Proof.Machine

open Sys2Proof

/-- An operation of this device in the step in progress. -/
def mkOp (s : State) (op b first count flags : Nat) (data : List Byte) : XOp :=
  { w0 := op + b * 2 ^ 8 + (ownRank s % 4096) * 2 ^ 24 + (stepNo s % 2 ^ 24) * 2 ^ 40
    w1 := first % 2 ^ 32 + (count % 2 ^ 16) * 2 ^ 32 + (flags % 2 ^ 16) * 2 ^ 48, data := data }

/-- Flag bits that R236 and R259 name for an opcode. -/
def flagBits (op : Nat) : Nat :=
  match op with
  | 4 => 2
  | 5 => 3
  | 6 => 2
  | 7 => 4
  | 8 => 3
  | 0xA => 4
  | _ => 0

/-- An operation that R235 discards: an unlisted opcode, a reserved bit set, or a range outside the bucket
(DEDUCED, log 67). -/
def badOp (s : State) (x : XOp) : Bool :=
  let b := x.bucket
  let n := bElems s b
  let bs := bBlock s b
  x.opcode == 0 || decide (10 < x.opcode) || bits x.w0 4 4 != 0 || bits x.w0 36 4 != 0 ||
  x.flags / 2 ^ flagBits x.opcode != 0 || !bucketDefined s b || x.data.length != x.payload s ||
  (match x.opcode with
    | 1 | 3 => x.count == 0 || decide (x.countMax < x.count) || x.first % bs != 0 || decide (n < x.first + x.count)
    | 2 => x.count == 0 || decide (x.countMax < x.count) ||
        (List.range x.count).any fun i => decide (n ≤ x.first + x.word4 i / 256)
    | 4 => decide (x.countMax < x.count) || (if bitOf x.flags 0 then
        (List.range x.count).any fun i => decide (n ≤ bits (x.word8 i) 0 32) || bits (x.word8 i) 48 16 != 0
      else decide (n < x.first + x.count))
    | 5 | 6 => x.count == 0 || decide (x.countMax < x.count) || decide (n < x.first + x.count)
    | 9 => decide (x.countMax < x.count) ||
        (List.range x.count).any fun i => decide (bBlocks s b ≤ x.word4 i % 2 ^ 24)
    | 0xA => x.count == 0 || decide (x.countMax < x.count) || decide (n < x.first + x.count) ||
        x.first % x.deltaBlock != 0 || (x.count % x.deltaBlock != 0 && x.first + x.count != n)
    | _ => false)

/-- An operation is received (R235): it is counted, and one of another step or a bad one is discarded. `op` is what the
operation is taken as. -/
def takeOp (op : Nat) (x : XOp) (act : State → State) (s : State) : State :=
  let i := serveInst s x.bucket
  if x.opcode ≠ op ∧ 1 ≤ x.opcode ∧ x.opcode ≤ 10 then s
  else
    let s := addW F.ex_OPS_RECEIVED i 0 1 s
    if x.stepLo ≠ stepNo s % 2 ^ 24 then sat F.ex_STALE_OPS i 0 1 s
    else if badOp s x then sat F.ex_BAD_OPS i 0 1 s
    else act s

/-- Ranks of a bitmap of bytes. -/
def mapRanks (bs : List Byte) : List Nat :=
  bs.zipIdx.flatMap fun bi => (List.range 8).filterMap fun k => if bi.1.getLsbD k then some (8 * bi.2 + k) else none

/-- The 512-byte bitmap of ranks (R236). -/
def rankMap (ranks : List Nat) : List Byte :=
  (List.range 512).map fun i =>
    BitVec.ofNat 8 ((List.range 8).foldl (fun a k => a + b2n (ranks.contains (8 * i + k)) * 2 ^ k) 0)

/-- Every rank of the view in force but the device's own: NOTICE, TABLE and DELTA operations reach joining ranks
too (R295) (DEDUCED, log 66). -/
def otherRanks (s : State) : List Nat := (s.job.view.map (·.rank)).filter fun r => r != ownRank s

/-- An operation to one other rank. -/
def sendOp (rank type : Nat) (x : XOp) (s : State) : Option (Nat × Nat) × State := sendReliable rank type x.bytes [] s

/-- An operation to every other rank: the messages sent. -/
def sendAll (type : Nat) (x : XOp) (s : State) : List (Nat × Nat) × State :=
  (otherRanks s).foldl (fun (acc : List (Nat × Nat) × State) r =>
    let (w, s) := sendOp r type x acc.2
    (acc.1 ++ w.toList, s)) ([], s)

/-! ### What a contributor keeps (R228 to R234) -/

/-- The bucket of an exchange command (R182). -/
def Cmd.xBucket (c : Cmd) : Nat := bits c.w1 43 16

/-- The source stream, the second stream and the count of an exchange command. -/
def xSrc (x : Ctx) (c : Cmd) : Stream := x.stream c.w2 0
def xAux (x : Ctx) (c : Cmd) : Stream := x.stream c.w2 21
def xCount (x : Ctx) (c : Cmd) : Nat := (x.len c.w2 42).1

/-- The S16 source value of element `i` of a send command. -/
def SendRec.src (r : SendRec) (s : State) (i : Nat) : S16 :=
  let d := xSrc r.ctx r.cmd
  readS16 s d.space (d.base + 2 * i)

/-- The bucket position of entry `i` of a compacted source (R167, R230). -/
def SendRec.pos (r : SendRec) (s : State) (i : Nat) : Nat :=
  let d := xAux r.ctx r.cmd
  readNat s d.space (d.base + 4 * i) 4

/-- Planes of the residual buffer of a bucket (R225, R230, R231): S16, one after another. -/
def residAddr (s : State) (b plane pos : Nat) : Nat := bResid s b + 2 * (plane * bElems s b + pos)

/-- The residual of the previous step that element `i` of a SEND_SIGN reads (R231). -/
def SendRec.oldResid (r : SendRec) (s : State) (i : Nat) : S16 :=
  readS16 s memSpace (residAddr s r.bucket ((r.ctx.step + 1) % 2) (r.first + i))

/-- The value v of element `i` of a SEND_SIGN: gradient plus the residual of the previous step (R231)
(DEDUCED, log 72). -/
def SendRec.signV (r : SendRec) (s : State) (i : Nat) : F32 :=
  (fadd (s16ToF32 (r.src s i)) (s16ToF32 (r.oldResid s i))).val

/-- The element `i` of a send command as the values its mode sends, in F32. -/
def SendRec.val (r : SendRec) (s : State) (i : Nat) : F32 :=
  if r.op = 2 then r.signV s i else s16ToF32 (r.src s i)

/-- A compacted source: SEND_TOPK, and SEND_ORDERED on a top-k bucket. -/
def SendRec.compacted (r : SendRec) (s : State) : Bool := r.op == 1 || (r.op == 3 && bMode s r.bucket == 1)

/-- The mixer inputs of a send's conversions (R229 to R231, R37). -/
def SendRec.round (r : SendRec) (pos : Nat) : Rnd :=
  Rounding.at { grad := true, step := r.ctx.step, kind := if r.op = 0 then 3 else 4, inst := r.cmd.streamInst
                tid := r.ctx.tid r.cmd } pos

/-- The unit 2^(E − 133) of a block as F32 operand, with sign and multiple. -/
def unitVal (m : Int) (ex : Nat) : F32 := (mkF32 (decide (m < 0)) m.natAbs 1 ((ex : Int) - 133)).val

/-- A B8 element at the agreed exponent of its position (R229, R230). -/
def SendRec.b8 (r : SendRec) (s : State) (i pos : Nat) : Calc Byte := do
  let d := xSrc r.ctx r.cmd
  noteNonfinite (poisonedAt s d.space (d.base + 2 * i))
  f32ToB8 (r.round pos) true (agreedExp s r.bucket (pos / bBlock s r.bucket)) (r.val s i)

/-- `[a, b)` cut at multiples of `n` counted from `a`: starts and lengths. -/
def pieces (n a b : Nat) : List (Nat × Nat) :=
  (List.range (ceilDiv (b - a) n)).map fun k => (a + n * k, min n (b - (a + n * k)))

/-- The report bytes of a send for the range from `lo` of `len` elements: E_obs of each block (R226, R227). -/
def SendRec.reports (r : SendRec) (s : State) (lo len : Nat) : List Nat :=
  let bs := bBlock s r.bucket
  let vals (a n : Nat) : List F32 :=
    if r.compacted s then (List.range r.count).filterMap fun i =>
      let p := r.pos s i
      if a ≤ p ∧ p < a + n then some (r.val s i) else none
    else (List.range n).map fun k => r.val s (a + k - r.first)
  (pieces bs lo (lo + len)).map fun p =>
    let vs := (vals p.1 p.2).filter f32Finite
    if bMode s r.bucket = 2 then
      let sum := vs.foldl (fun a v => (fadd a ((fabs v).val)).val) (f32Zero false)
      let a := (fdiv sum (natToF32 vs.length)).val
      if vs.isEmpty then 0
      else match f32Val a with
        | .fin _ m e => if m = 0 then 0 else (max 0 (min (ratioLog2 m 1 + e + 133) 255)).toNat
        | _ => 255
    else b8Exponent (maxFiniteMag vs)

/-- Entries in ascending position cut where 2,048 are reached, or where the position leaves the 24 bits that its distance
from the first has (R236). -/
def scatterGroups (es : List (Nat × Nat)) : List (List (Nat × Nat)) :=
  es.foldl (fun gs e => match gs.getLast? with
    | some g => if g.length < 2048 ∧ e.1 - ((g.head?).map (·.1)).getD 0 < 2 ^ 24 then gs.dropLast ++ [g ++ [e]] else gs ++ [[e]]
    | none => [[e]]) []

/-- The end operations of a send for the part of its range in `[lo, hi)` (R236). -/
def SendRec.ends (r : SendRec) (s : State) (lo hi : Nat) : List XOp :=
  let fl := b2n r.nonfinite + 2 * b2n r.overflow + 4 * b2n r.ordered
  (pieces 32768 (max lo r.first) (min hi (r.first + r.span))).map fun p =>
    mkOp s 5 r.bucket p.1 p.2 fl ((r.reports s p.1 p.2).map (BitVec.ofNat 8))

/-- The data operations of a send for the part of its range in `[lo, hi)`: dense, scatter or sign accumulates. -/
def SendRec.ops (r : SendRec) (s : State) (lo hi : Nat) : List XOp :=
  if r.ordered then []
  else if r.op = 1 then
    let es := ((List.range r.count).map fun i => (r.pos s i, i)).filter fun pi => decide (lo ≤ pi.1 ∧ pi.1 < hi)
    (scatterGroups es).map fun g =>
      let f := ((g.head?).map (·.1)).getD 0
      mkOp s 2 r.bucket f g.length 0
        (g.flatMap fun pi => natLe 4 (((r.b8 s pi.2 pi.1).val).toNat + 256 * (pi.1 - f)))
  else
    let a := max lo r.first
    let z := min hi (r.first + r.count)
    if r.op = 2 then
      (pieces 32768 a z).map fun p => mkOp s 3 r.bucket p.1 p.2 0
        ((List.range (ceilDiv p.2 8)).map fun k => BitVec.ofNat 8 ((List.range 8).foldl (fun w i =>
          w + b2n (decide (8 * k + i < p.2) && f32Neg (r.signV s (p.1 + 8 * k + i - r.first))) * 2 ^ i) 0))
    else
      (pieces 8192 a z).map fun p => mkOp s 1 r.bucket p.1 p.2 0
        ((List.range p.2).map fun k => (r.b8 s (p.1 + k - r.first) (p.1 + k)).val)

/-- The send commands that can serve ordered pulls of a bucket. -/
def ordSources (s : State) (b : Nat) : List SendRec := s.job.sends.filter fun r => r.bucket == b && r.ordered

/-- Every element of `[first, first + count)` is covered by an ordered source of bucket `b`: the pull can be served. -/
def ordReady (s : State) (b first count : Nat) : Bool :=
  let rs := ordSources s b
  let covered := (rs.map fun r => min (first + count) (r.first + r.span) - max first r.first).sum
  decide (count ≤ covered)

/-- What an ordered pull of a range gives: positions and S16 values in ascending position (R232). A value of sign mode is
v rounded to nearest even. -/
def ordValues (s : State) (b first count : Nat) : List (Nat × Nat) :=
  List.mergeSort (le := fun a c => decide (a.1 ≤ c.1)) <| (ordSources s b).flatMap fun r =>
    if r.compacted s then (List.range r.count).filterMap fun i =>
      let p := r.pos s i
      if first ≤ p ∧ p < first + count then some (p, (r.src s i).toNat) else none
    else
      let a := max first r.first
      let z := min (first + count) (r.first + r.count)
      (List.range (z - a)).map fun k =>
        let i := a + k - r.first
        (a + k, if r.op = 2 then ((f32ToS16 .ne (r.signV s i)).val).toNat else (r.src s i).toNat)

/-- Changes the send records that `p` picks. -/
def modSends (p : SendRec → Bool) (f : SendRec → SendRec) (s : State) : State :=
  modJob (fun j => { j with sends := j.sends.map fun r => if p r then f r else r }) s

/-- Changes the tracker entry of the exchange command with operation number `id` that has not ended. -/
def modOp (id : Nat) (f : PendingOp → PendingOp) (s : State) : State :=
  { s with tracker := s.tracker.map fun p => if p.id = id ∧ p.bucket.isSome ∧ p.landed = false then f p else p }

/-- A token's EXTENT replaced. -/
def withExtent (tok n : Nat) : Nat := splice tok 40 24 (min n (2 ^ 24 - 1))

/-- An ordered pull of a range was served: the sources remember it, SEND_ORDERED of a top-k bucket writes +0 to the
residual of each entry sent (R245), and commands whose pulls are all served may end (R251). -/
def noteServed (b first count : Nat) (s : State) : State :=
  (ordSources s b).foldl (fun s r =>
    let a := max first r.first
    let z := min (first + count) (r.first + r.span)
    if z ≤ a then s
    else
      let es := if r.compacted s then ((List.range r.count).map (r.pos s)).filter fun p => decide (a ≤ p ∧ p < z) else []
      let s := if r.op = 3 then es.foldl (fun s p => storeMem (residAddr s b 0 p) (s16Le 0#16) s) s else s
      let n := if r.compacted s then es.length else z - a
      let r' := if r.pulled.contains (a, z - a) then r
        else { r with pulled := r.pulled ++ [(a, z - a)], sent := r.sent + n }
      let s := modSends (·.id == r.id) (fun _ => r') s
      if decide (r.span ≤ (r'.pulled.map (·.2)).sum) then
        modOp r.id (fun p => { p with gate := true, token := withExtent p.token (if r.op = 3 then r'.sent else r.count) }) s
      else s) s

/-! ### Replies, notices and table changes at a member -/

/-- A REPLY (R251): code 0 accepted, 1 closed. The send ends when all its end operations are answered. -/
def onReply (b code first count : Nat) (s : State) : State :=
  (s.job.sends.filter fun r => r.bucket == b && r.op != 3).foldl (fun s r =>
    let isEnd := (r.ends s 0 (2 ^ 32)).any fun e => e.first == first && e.count == count
    let r' := { r with
      answered := if isEnd && !r.answered.contains (first, count) then r.answered ++ [(first, count)] else r.answered
      closed := r.closed || (code == 1 && decide (r.first ≤ first ∧ first < r.first + r.span)) }
    let s := modSends (·.id == r.id) (fun _ => r') s
    if r.span ≤ (r'.answered.map (·.2)).sum then
      modOp r.id (fun p => { p with gate := true, token := withExtent p.token (if r'.closed then 0 else r.count) }) s
    else s) s


/-- The token of a BUCKET_WAIT whose bucket has a notice (R251). -/
def waitToken (s : State) (b tag gen : Nat) : Nat :=
  let x := bx s b
  tokenWord tag gen false x.nVeto x.nRepeat false 0xF x.nCount

/-- Ends commands that a bucket's notice ends: every BUCKET_WAIT, and at the FINAL notice every SEND_ORDERED (R251). A
wait that ends with a veto counts as non-finite for its layer (R266). -/
def noticeGates (b : Nat) (s : State) : State :=
  let x := bx s b
  let ords := s.job.sends.filter fun r => r.bucket == b && r.op == 3
  { s with tracker := s.tracker.map fun p =>
      if p.bucket = some b ∧ p.landed = false ∧ p.gate = false then
        match p.layer, ords.find? (·.id == p.id) with
        | some l, _ => { p with gate := true, token := waitToken s b p.tag p.gen, counts := layerCount l x.nVeto }
        | none, some r => if x.final then { p with gate := true, token := withExtent p.token r.sent } else p
        | none, none => p
      else p }

/-- Every element of a bucket has had its delta on this member, with the last one seen (R261). -/
def deltasDone (s : State) (b : Nat) (x : BucketX) : Bool :=
  x.lastSeen && decide (bElems s b ≤ (x.applied.map (·.2)).sum)

/-- A member takes a NOTICE of bucket `b` from the owner `rank`: bitmap, included count and flags (R239, R242, R250,
R261). One of another owner than before replaces what was noticed (R289). Notices of one owner may come in any order: their
vetoes are joined, and one that is not FINAL changes nothing else after the FINAL one (DEDUCED, log 73). -/
def onNotice (rank b : Nat) (ranks : List Nat) (count : Nat) (rep veto final : Bool) (s : State) : State :=
  let old := bx s b
  let same := old.noticed && old.nFrom == rank
  let own := ownerHere s b
  let late := same && old.final && !final
  let veto := veto || (same && old.nVeto)
  let x := if late then { old with nVeto := veto }
    else { old with
      noticed := true, final := final, nRepeat := rep, nVeto := veto, nCount := count, nMap := ranks, nFrom := rank
      agreeValid := old.agreeValid || final
      updated := (if same then old.updated else deltasDone s b old) || (final && veto)
      state := if own then old.state else if final then (if veto then 5 else 4) else 3 }
  let s := setBx b x s
  let s := if own || late then s else setIncluded b ranks s
  let s := noticeGates b (refreshPending (refreshVeto s))
  let out := isMember s && !ranks.contains (ownRank s)
  if final && out && !(old.noticed && old.final && !old.nMap.contains (ownRank s)) then
    let i := serveInst s b
    exchangeLog b 5 (ownRank s) own (setb F.ex_EXCLUDED_SEEN i 0 true (sat F.ex_EXCLUSIONS i 0 1 s))
  else s

/-- A member applies table changes to its next plane (R242). -/
def onTable (b : Nat) (changes : List (Nat × Nat)) (s : State) : State :=
  changes.foldl (fun s c => storeMem (agreeNext s b + c.1) [BitVec.ofNat 8 c.2] s) s

end Sys2Proof.Machine
end

