-- ==== Sys2Proof/Machine/Owner.lean ====
section
/-! DEFINITION. The owner of a bucket: the adders (R237), closing (R239 to R242), the reduction (R243, R244), the
ordered path (R245), vetoes and drops (R246, R247), rebuilds (R249) and the reduced shard (R273, R297). -/

namespace Sys2Proof.Machine

open Sys2Proof

/-! ### Adders (R237) -/

/-- The signed 32-bit accumulator of a position. -/
def accInt (s : State) (b pos : Nat) : Int := signedOf (readNat s memSpace (bAcc s b + 4 * pos) 4) 32

/-- The bytes of a 32-bit integer. -/
def i32Le (v : Int) : List Byte := natLe 4 (unsignedOf v 32)

/-- Adds to accumulators from a position on, one element each: a read-modify-write of four bytes, which leaves a poisoned
word poisoned (R382). -/
def accAdd (b pos : Nat) (ds : List Int) (s : State) : State :=
  writeBytes memSpace (bAcc s b + 4 * pos) (ds.zipIdx.flatMap fun di => i32Le (accInt s b (pos + di.2) + di.1)) s

/-- Counts of the adders: elements of a rank accumulated and markers received. -/
def accCount (b rank added markers : Nat) (s : State) : State :=
  let i := serveInst s b
  let s := addW F.ex_ELEMS_ACCUMULATED i 0 added s
  if markers = 0 then s
  else sat F.ex_MARKERS_RECEIVED i 0 markers
    (modBx b (fun x => { x with markers := nmSet rank (nmGet 0 rank x.markers + markers) x.markers }) s)

/-- The elements of an operation count for the rank: those that are values, and those that are markers (R238). -/
def countElems (x : XOp) (sub : Bool) (skip : Nat → Bool) (ms : List (Nat × Byte)) (s : State) : State :=
  let marks := (ms.filter fun m => m.2 == 0x80#8 && !skip m.1).length
  accCount x.bucket x.rank (ms.filter fun m => m.2 != 0x80#8 && !skip m.1).length (if sub then 0 else marks) s

/-- A contribution is added to the accumulator of its bucket, or, for a drop, subtracted (R237, R247). Positions that
`skip` picks are left: an earlier operation brought them. -/
def accumulate (x : XOp) (sub : Bool) (skip : Nat → Bool) (s : State) : State :=
  let b := x.bucket
  let sg : Int := if sub then -1 else 1
  match x.opcode with
  | 1 =>
    let ms := x.data.zipIdx.map fun mi => (x.first + mi.2, mi.1)
    countElems x sub skip ms (accAdd b x.first (ms.map fun m => if m.2 = 0x80#8 ∨ skip m.1 then (0 : Int) else sg * m.2.toInt) s)
  | 2 =>
    let ms := (List.range x.count).map fun i => (x.first + x.word4 i / 256, BitVec.ofNat 8 (x.word4 i % 256))
    countElems x sub skip ms (ms.foldl (fun s (m : Nat × Byte) =>
      if m.2 = 0x80#8 ∨ skip m.1 then s else accAdd b m.1 [sg * m.2.toInt] s) s)
  | 3 =>
    let ds := (List.range x.count).map fun k =>
      if skip (x.first + k) then (0 : Int) else if (x.data.getD (k / 8) 0#8).getLsbD (k % 8) then -sg else sg
    accCount b x.rank ((List.range x.count).filter fun k => !skip (x.first + k)).length 0 (accAdd b x.first ds s)
  | _ => s

/-- While resends are awaited, an original that is still under way and a resend count once: the ranges that earlier
operations of the rank and opcode brought (DEDUCED, log 70). -/
def takenOf (s : State) (x : XOp) : List (Nat × Nat) := nmGet [] (16 * x.rank + x.opcode) (bx s x.bucket).taken

/-- An earlier operation brought a position. -/
def isTaken (rs : List (Nat × Nat)) (pos : Nat) : Bool := rs.any fun r => decide (r.1 ≤ pos ∧ pos < r.1 + r.2)

/-- Elements of an end operation's range that no earlier one covered. -/
def freshCount (s : State) (x : XOp) : Nat :=
  ((List.range x.count).filter fun k => !isTaken (takenOf s x) (x.first + k)).length

/-- The ranges an operation brings are noted while resends are awaited. -/
def noteTaken (x : XOp) (s : State) : State :=
  let y := bx s x.bucket
  if y.state = 6 ∨ !y.redo.isEmpty then
    let rs := if x.opcode = 2 then (List.range x.count).map fun i => (x.first + x.word4 i / 256, 1) else [(x.first, x.count)]
    modBx x.bucket (fun y => { y with taken := nmSet (16 * x.rank + x.opcode) (takenOf s x ++ rs) y.taken }) s
  else s

/-- A contribution is accumulated, each position of it once while resends are awaited. -/
def addOnce (x : XOp) (sub : Bool) (s : State) : State := noteTaken x (accumulate x sub (isTaken (takenOf s x)) s)

/-! ### Notices (R242) -/

/-- The next exponents of the blocks that reports were merged for, where they differ from the current ones (R226,
R227, R242) (DEDUCED, log 71). -/
def tableChanges (s : State) (b : Nat) : List (Nat × Nat) :=
  let h := if bMode s b = 2 then 0 else rd s F.ex_HEADROOM (serveInst s b) 0
  (bx s b).reports.filterMap fun kv =>
    let e := min 255 (kv.2 + h)
    if e = agreedExp s b kv.1 then none else some (kv.1, e)

/-- A NOTICE of bucket `b` to every member, the device included. -/
def sendNotice (b changes : Nat) (rep veto final : Bool) (s : State) : State :=
  let inc := (bx s b).included
  let x := mkOp s 8 b changes inc.length (b2n rep + 2 * b2n veto + 4 * b2n final) (rankMap inc)
  onNotice (ownRank s) b inc inc.length rep veto final (sendAll typeAcc x s).2

/-- The closing NOTICE and the TABLE operations that follow it (R242). -/
def announce (b : Nat) (rep veto final : Bool) (s : State) : State :=
  let cs := tableChanges s b
  let s := sendNotice b cs.length rep veto final s
  let s := (blocksOf 2048 cs.length cs).foldl (fun s g =>
    (sendAll typeAcc (mkOp s 9 b 0 g.length 0 (g.flatMap fun c => natLe 4 (c.1 + c.2 * 2 ^ 24))) s).2) s
  onTable b cs s

/-! ### The reduced shard (R273, R297) -/

/-- The partner of an owned bucket, where it has one. -/
def partnerOfBucket (s : State) (b : Nat) : Option Nat :=
  let p := bPartner s b
  if p = noRank ∨ p = ownRank s ∨ (serialOf s p).isNone then none else some p

/-- The shard's remote writes to a rank: the F32 mean, in writes of 8,192 bytes (R273). -/
def sendShard (b rank : Nat) (data : Bool) (s : State) : State :=
  let (ms, s) := (if data then pieces 8192 0 (4 * bElems s b) else []).foldl
    (fun (acc : List (Nat × Nat) × State) p =>
      let s := acc.2
      let (w, s) := sendWrite rank ((bx s b).shardAddr + p.1) (stepNo s) memSpace ((bx s b).shardFrom + p.1) p.2 s
      (acc.1 ++ w.toList, s)) ([], s)
  modBx b (fun x => { x with shards := x.shards ++ [⟨rank, ms, none⟩] }) s

/-- The reduced shard goes to the partner (R273) (DEDUCED, log 75). -/
def shardOut (b : Nat) (data : Bool) (s : State) : State :=
  match partnerOfBucket s b with
  | some p => sendShard b p data s
  | none => s

/-- Messages of page walks of bucket `b` that are not acknowledged; `all` false: those to one rank. -/
def walkBusy (s : State) (b : Nat) (p : PageWalk → Bool) : Bool :=
  s.job.walks.any fun w => w.bucket == b && p w && w.sent.any fun m => outstanding s (m.2.1, m.2.2)

/-- Sends the completion message of each shard whose writes, and for the partner whose pages of the step, are all
acknowledged; in mirror mode the other members' shards follow the partner's acknowledgement (R273, R287, R297)
(DEDUCED, log 74). -/
def settleShards (b : Nat) (s : State) : State :=
  let s := (bx s b).shards.foldl (fun s t =>
    if t.done.isSome || t.msgs.any (outstanding s) || (t.rank == bPartner s b && walkBusy s b fun w => w.rank == t.rank) then s
    else
      let x := bx s b
      let w2 := b + x.included.length * 2 ^ 16 + b2n x.repeated * 2 ^ 29 + b2n x.nVeto * 2 ^ 30
      let (w, s) := sendReliable t.rank typeMember (memberBytes 4 [stepNo s, w2] (rankMap x.included)) [] s
      modBx b (fun x => { x with shards := x.shards.map fun u => if u.rank == t.rank then { u with done := w } else u }) s) s
  let x := bx s b
  if rdb s F.rs_MIRROR 0 0 && x.shards.length == 1 && (x.shards.all fun t => match t.done with
      | some w => !outstanding s w
      | none => false) then
    ((otherRanks s).filter fun r => some r != partnerOfBucket s b).foldl (fun s r => sendShard b r (!x.nVeto) s) s
  else s

/-! ### Reduced tokens (R243) -/

/-- The reduced token of a bucket on this device's REDUCED_QUEUE, with `n` included ranks. -/
def reducedToken (b n : Nat) (veto : Bool) (s : State) : State :=
  portToken (bQueueDie s b) (bQueue s b) (tokenWord (0xFC * 2 ^ 12) 0 false veto false false 0xF n) s

/-- A bucket is vetoed with exchange-log cause `cause` (R244, R246): state 5, a FINAL notice with VETO, the token. -/
def vetoBucket (b cause rank : Nat) (again : Bool) (s : State) : State :=
  let i := serveInst s b
  let s := modBx b (fun x => { x with state := 5, vetoed := true, reducing := false, toPull := [], pulling := [] }) s
  let s := exchangeLog b cause rank true (sat F.ex_VETOES i 0 1 s)
  let s := if again then sendNotice b 0 (bx s b).repeated true true s else announce b false true true s
  shardOut b false (reducedToken b (bx s b).included.length true s)

/-! ### The ordered path (R245) -/

/-- ORD_WINDOW: 0 acts as 1, values above 16 as 16. -/
def ordWindow (s : State) (b : Nat) : Nat := min 16 (max 1 (rd s F.ex_ORD_WINDOW (serveInst s b) 0))

/-- Adds the values of one rank's pull, in F32 (R245). -/
def ordAdd (b : Nat) (vs : List (Nat × Nat)) (s : State) : State :=
  let s := accCount b 0 vs.length 0 s
  vs.foldl (fun s v =>
    let a := bAcc s b + 4 * v.1
    writeBytes memSpace a (f32Le ((fadd (readF32 s memSpace a) (s16ToF32 (BitVec.ofNat 16 v.2))).val)) s) s

/-- An ID of a sender is delivered with every lower one (R306). -/
def markCovers (s : State) (rank id : Nat) : Bool :=
  match (serialOf s rank).bind (rxPeer s) with
  | some r => decide ((r.mark + 2 ^ 32 - id % 2 ^ 32) % 2 ^ 32 < 2 ^ 31)
  | none => false

/-- Every answer to a pull has arrived: its elements are all there, or the operations before the last one of the top-k
form are (R245, R308) (DEDUCED, log 140). -/
def OrdPull.complete (p : OrdPull) (s : State) : Bool :=
  p.done || (match p.last with
    | some id => markCovers s p.rank id
    | none => false)

/-- The pulls whose answers are complete at the head of the line are added in order. -/
def ordAbsorb (b : Nat) : List OrdPull → State → List OrdPull × State
  | [], s => ([], s)
  | p :: ps, s => if p.complete s then ordAbsorb b ps (ordAdd b p.got s) else (p :: ps, s)

/-- A pull leaves: to another rank as a PULL operation; to the device itself it is served when the source is there. -/
def issuePull (b : Nat) (p : OrdPull) (s : State) : OrdPull × State :=
  if p.rank = ownRank s then
    if ordReady s b p.first p.count then ({ p with got := ordValues s b p.first p.count, done := true }, noteServed b p.first p.count s)
    else (p, s)
  else (p, (sendOp p.rank typeAcc (mkOp s 6 b p.first p.count 1 []) s).2)

/-- Pulls leave while room in the window lasts; complete ones at the head are added. -/
def ordPump (b : Nat) : Nat → State → State
  | 0, s => s
  | n + 1, s =>
    let (ps, s) := ordAbsorb b (bx s b).pulling s
    let s := modBx b (fun x => { x with pulling := ps }) s
    match (bx s b).toPull with
    | [] => s
    | p :: rest =>
      if ordWindow s b ≤ ps.length then s
      else
        let (p, s) := issuePull b p s
        ordPump b n (modBx b (fun x => { x with toPull := rest, pulling := x.pulling ++ [p] }) s)

/-- The ordered path goes on as far as it can; at its end the reduction may run. -/
def ordGo (b : Nat) (s : State) : State :=
  let s := ordPump b ((bx s b).toPull.length + 1) s
  let (ps, s) := ordAbsorb b (bx s b).pulling s
  modBx b (fun x => { x with pulling := ps, reducing := x.reducing || (ps.isEmpty && x.toPull.isEmpty) }) s

/-- The ordered path starts: the accumulator is +0, and every included rank is pulled range by range (R245). -/
def ordStart (b : Nat) (s : State) : State :=
  let ranks := (bx s b).included.mergeSort
  let pulls := (pieces 8192 0 (bElems s b)).flatMap fun p => ranks.map fun r =>
    ({ rank := r, first := p.1, count := p.2 } : OrdPull)
  ordGo b (modBx b (fun x => { x with state := 3, toPull := pulls, pulling := [] }) (zeroAcc b s))

/-! ### Closing (R241 to R247) -/

/-- The deadline of a bucket has passed. -/
def deadlinePassed (s : State) (b : Nat) : Bool :=
  match (bx s b).deadline with
  | some d => decide (d < nowNs s)
  | none => false

/-- A rank's end operations cover the bucket. -/
def rankDone (s : State) (b r : Nat) : Bool := decide (bElems s b ≤ nmGet 0 r (bx s b).ended)

/-- The lowest rank of a list. -/
def lowest (rs : List Nat) : Nat := rs.foldl min noRank

/-- The rest of a close, with the ranks that reduce settled (R242, R244, R245). -/
def closeOn (b : Nat) (s : State) : State :=
  let i := serveInst s b
  let x := bx s b
  if x.included.length < bMinRanks s b then
    vetoBucket b 6 (lowest ((memberRanks s).filter fun r => !x.included.contains r)) false s
  else if x.ordered then ordStart b (announce b false false true s)
  else if x.included.any x.ovf.contains then
    let s := modBx b (fun x => { x with repeated := true }) s
    let s := setb F.ex_REPEAT_SEEN i 0 true (sat F.ex_REPEATS i 0 1 s)
    ordStart b (announce b true false false s)
  else modBx b (fun x => { x with reducing := true }) (announce b false false true s)

/-- First sendings of the whole bucket are asked of a rank other than the device (R247, R249). -/
def pullFirst (b rank : Nat) (s : State) : State :=
  (pieces 32768 0 (bElems s b)).foldl (fun s p => (sendOp rank typeAcc (mkOp s 6 b p.1 p.2 2 []) s).2) s

/-- The device's own first sendings to a bucket it owns. -/
def ownFirst (s : State) (b : Nat) : List XOp :=
  (s.job.sends.filter fun r => r.bucket == b && !(r.op == 3)).flatMap fun r => r.ops s 0 (2 ^ 32)

/-- The end operations of the device's own first sendings. -/
def ownEnds (s : State) (b : Nat) : List XOp :=
  (s.job.sends.filter fun r => r.bucket == b && !(r.op == 3)).flatMap fun r => r.ends s 0 (2 ^ 32)

/-- A rank's contribution is out of the accumulator (R247). -/
def dropRank (b rank : Nat) (s : State) : State :=
  let s := setIncluded b ((bx s b).included.filter (· != rank)) s
  exchangeLog b 2 rank true (sat F.ex_DROPS (serveInst s b) 0 1 s)

/-- The non-finite policy, applied at the close (R246, R247). -/
def judgeBucket (b : Nat) (s : State) : State :=
  let x := bx s b
  let bad := x.nonfin.mergeSort
  if bad.isEmpty then closeOn b s
  else if !rdb s F.ex_NF_POLICY (serveInst s b) 0 then vetoBucket b 3 (lowest bad) false s
  else
    let drop := bad.filter x.included.contains
    if x.ordered then closeOn b (drop.foldl (fun s r => dropRank b r s) s)
    else
      let s := if drop.contains (ownRank s) then
          dropRank b (ownRank s) ((ownFirst s b).foldl (fun s o => accumulate o true (fun _ => false) s) s)
        else s
      let others := drop.filter (· != ownRank s)
      let s := modBx b (fun x => { x with redo := others.map fun r => (r, 0), redoSub := true, taken := [] }) s
      let s := others.foldl (fun s r => pullFirst b r s) s
      if others.isEmpty then closeOn b s else s

/-- The reports of an end operation, merged block by block (R226). -/
def mergeReports (s : State) (x : XOp) (m : NMap Nat) : NMap Nat :=
  let bs := bBlock s x.bucket
  x.data.zipIdx.foldl (fun m bi =>
    let k := x.first / bs + bi.2
    nmSet k (max bi.1.toNat (nmGet 0 k m)) m) m

/-- What an end operation tells of its rank: its reports, and whether it was non-finite or overflowed (R226, R233). -/
def noteEnd (x : XOp) (s : State) : State :=
  modBx x.bucket (fun y =>
    { y with
      reports := mergeReports s x y.reports
      nonfin := if bitOf x.flags 0 && !y.nonfin.contains x.rank then y.nonfin ++ [x.rank] else y.nonfin
      ovf := if bitOf x.flags 1 && !y.ovf.contains x.rank then y.ovf ++ [x.rank] else y.ovf }) s

/-! ### Rebuilding (R249) -/

/-- A rebuild over `ranks`, which were or would have been included: the accumulator is zeroed and their first sendings
are pulled, unless they come unasked (R289). `gone` are the ranks whose loss causes it. -/
def rebuild (b : Nat) (ranks gone : List Nat) (pull : Bool) (s : State) : State :=
  let i := serveInst s b
  let s := exchangeLog b 4 (lowest gone) true (sat F.ex_REBUILDS i 0 1 s)
  let others := ranks.filter (· != ownRank s)
  let s := setIncluded b ranks s
  let s := modBx b (fun x => { x with
    state := 6, closed := true, reducing := false, toPull := [], pulling := [], redoSub := false, repeated := false
    ordered := x.unbuilt || bMode s b == 3, shards := [], taken := [], markers := []
    redo := others.map fun r => (r, 0), nonfin := x.nonfin.filter ranks.contains, ovf := x.ovf.filter ranks.contains }) (zeroAcc b s)
  let s := if ranks.contains (ownRank s) then
      (ownEnds s b).foldl (fun s o => noteEnd o s)
        ((ownFirst s b).foldl (fun s o => accumulate o false (fun _ => false) s) s)
    else s
  let s := if pull then others.foldl (fun s r => pullFirst b r s) s else s
  if others.isEmpty then judgeBucket b s else s

/-- Ranks that a resend or a pull of bucket `b` is asked of and that the membership no longer holds: what is asked of them
cannot be served (R249). -/
def goneAsked (s : State) (b : Nat) : List Nat :=
  let x := bx s b
  ((x.redo.map (·.1) ++ (x.toPull ++ x.pulling).map (·.rank)).filter fun r => !(memberRanks s).contains r).dedup

/-- A bucket that waits for a rank that was removed is rebuilt over the remaining ranks (R249). -/
def mendPulls (b : Nat) (s : State) : State :=
  let gone := goneAsked s b
  if gone.isEmpty then s else rebuild b ((bx s b).included.filter (memberRanks s).contains) gone true s

/-! ### The close (R241) -/

/-- A bucket closes with the complete ranks (R241): a rank that a membership commit removed after it was complete stays in
the sum and counts (DEDUCED, log 69), until something is asked of it. -/
def closeBucket (b : Nat) (s : State) : State :=
  let i := serveInst s b
  let ranks := memberRanks s
  let past := ((bx s b).ended.map (·.1)).filter fun r => !ranks.contains r && rankDone s b r
  let full := ranks.all (rankDone s b)
  let inc := ranks.filter (rankDone s b) ++ past
  let s := setIncluded b inc s
  let s := modBx b (fun x => { x with closed := true, full := full, closeNs := nowNs s, ordered := x.unbuilt || bMode s b == 3 }) s
  let s := if full then sat F.ex_CLOSED_FULL i 0 1 s
    else exchangeLog b 1 (lowest (ranks.filter fun r => !inc.contains r)) true
      (setb F.ex_DEADLINE_SEEN i 0 true (sat F.ex_CLOSED_DEADLINE i 0 1 s))
  mendPulls b (judgeBucket b s)

/-- The bucket closes if it may (R241). -/
def tryClose (b : Nat) (s : State) : State :=
  let x := bx s b
  if ownerHere s b && !x.closed && (x.state == 1 || x.state == 2 || x.state == 6) then
    let ranks := memberRanks s
    if ranks.all (rankDone s b) then closeBucket b s
    else if deadlinePassed s b && x.begun.all (rankDone s b) then closeBucket b s
    else s
  else s

/-- BUCKET_DEADLINE (R241): the deadline of an owned bucket passes. -/
def bucketDeadline (b : Nat) (s : State) : State :=
  let x := bx s b
  match x.deadline with
  | some d => if ownerHere s b && !x.closed then tryClose b (advanceTo (coreAfterNs s d) s) else s
  | none => s

/-! ### Operations that arrive at the owner -/

/-- An operation from `rank` answered with REPLY code `code`: to another rank as an operation. -/
def sendReply (rank code : Nat) (x : XOp) (s : State) : State :=
  if rank = ownRank s then (if code = 2 then s else onReply x.bucket code x.first x.count s)
  else (sendOp rank typeAcc (mkOp s 7 x.bucket x.first x.count code []) s).2

/-- An operation too late to count (R241). -/
def lateOp (x : XOp) (s : State) : State :=
  sendReply x.rank 1 x (sat F.ex_LATE_OPS (serveInst s x.bucket) 0 1 s)

/-- A resend that a drop or a rebuild asked for (R247, R249): data is subtracted or added, end operations count its
elements, and with the last of them the close goes on (DEDUCED, log 70). -/
def takeResend (x : XOp) (s : State) : State :=
  let b := x.bucket
  if x.opcode = 5 then
    let bxx := bx s b
    let n := nmGet 0 x.rank bxx.redo + freshCount s x
    let s := modBx b (fun y => { y with redo := nmSet x.rank n y.redo }) (noteTaken x (noteEnd x s))
    if n < bElems s b then s
    else
      let s := modBx b (fun y => { y with redo := smErase x.rank y.redo }) s
      let s := if bxx.redoSub then dropRank b x.rank s else s
      if (bx s b).redo.isEmpty then
        let s := modBx b (fun y => { y with redoSub := false }) s
        mendPulls b (if bxx.redoSub then closeOn b s else judgeBucket b s)
      else s
  else addOnce x (bx s b).redoSub s

/-- The first operation of any rank opens the collection: the deadline starts (R239, R240). -/
def beginBucket (b stamp rank : Nat) (s : State) : State :=
  let x := bx s b
  let dl := x.deadline.getD (stamp + deadlineLen s b)
  let late := decide (dl < stamp)
  let known := x.begun.contains rank || x.late.contains rank
  setBx b { x with
    deadline := some dl, state := if x.state = 1 then 2 else x.state
    begun := if known || late then x.begun else x.begun ++ [rank]
    late := if known || !late then x.late else x.late ++ [rank] } s

/-- A contribution arrives at the owner, with its receive timestamp (R237 to R241) (DEDUCED, log 68). -/
def ownerTake (x : XOp) (stamp : Nat) (s : State) : State :=
  let b := x.bucket
  if !ownerHere s b then sendReply x.rank 2 x s
  else
    let y := bx s b
    if (smFind x.rank y.redo).isSome then takeResend x s
    else if y.closed then
      if x.opcode = 5 && bitOf x.flags 2 && y.state == 3 && y.included.contains x.rank then sendReply x.rank 0 x s
      else lateOp x s
    else if !(memberRanks s).contains x.rank then lateOp x s
    else
      let s := beginBucket b stamp x.rank s
      if (bx s b).late.contains x.rank then lateOp x s
      else if x.opcode = 5 then
        let n := freshCount s x
        let s := noteTaken x (noteEnd x (modBx b (fun y =>
          { y with ended := nmSet x.rank (nmGet 0 x.rank y.ended + n) y.ended }) s))
        tryClose b (sendReply x.rank 0 x s)
      else addOnce x false s

/-- An answer to an ordered pull arrives in message `id` (R245): it waits in its slot until its turn. The last of a pull in
top-k form may overtake others, which then still count (R308) (DEDUCED, log 140). -/
def ordArrive (id : Nat) (x : XOp) (s : State) : State :=
  let b := x.bucket
  let y := bx s b
  if !ownerHere s b then sendReply x.rank 2 x s
  else if !(y.pulling.any fun p => p.rank == x.rank && !p.done) then lateOp x s
  else
    let vals := if bitOf x.flags 0 then
        (List.range x.count).map fun i => (bits (x.word8 i) 0 32, bits (x.word8 i) 32 16)
      else (List.range x.count).map fun i => (x.first + i, leNat ((x.data.drop (2 * i)).take 2))
    let top := bitOf x.flags 0
    let hit (p : OrdPull) : Bool := p.rank == x.rank && !p.done && decide (p.first ≤ x.first ∧ x.first < p.first + p.count)
    let put (p : OrdPull) : OrdPull :=
      if hit p then
        let got := p.got ++ vals
        { p with got := got, last := if top && bitOf x.flags 1 then some id else p.last, done := !top && decide (p.count ≤ got.length) }
      else p
    ordGo b (modBx b (fun y => { y with pulling := y.pulling.map put }) s)

/-- The device's own sources may now serve pulls of buckets it owns. -/
def ownPulls (b : Nat) (s : State) : State :=
  let y := bx s b
  let served := y.pulling.filter fun p => p.rank == ownRank s && !p.done && ordReady s b p.first p.count
  if !served.isEmpty then
    let put (p : OrdPull) : OrdPull :=
      if served.contains p then { p with got := ordValues s b p.first p.count, done := true } else p
    let s := modBx b (fun y => { y with pulling := y.pulling.map put }) s
    ordGo b (served.foldl (fun s p => noteServed b p.first p.count s) s)
  else s

/-! ### The reduction (R244) -/

/-- The mean of the included ranks at a position. -/
def meanAt (s : State) (b pos k : Nat) (ordered : Bool) : F32 :=
  let a := bAcc s b + 4 * pos
  if poisonedAt s memSpace a then f32Nan
  else
    let sum := if ordered then readF32 s memSpace a else unitVal (accInt s b pos) (agreedExp s b (pos / bBlock s b))
    (fdiv sum (natToF32 k)).val

/-- The tensor identifier of a bucket, as this device's send commands name it; the owner that sent nothing does not know
it, and it is free (DESIGN CHOICE, log 3). -/
def bucketTid (b : Nat) (s : State) : Nat × State :=
  match s.job.sends.find? (·.bucket == b) with
  | some r => (r.ctx.tid r.cmd, s)
  | none => free s

/-- The overflow-log entry of a repeat (R46, R245): the overflowed elements are the saturation markers of the included
ranks (DEDUCED, log 81). -/
def repeatEntry (b : Nat) (s : State) : State :=
  let (tid, s) := bucketTid b s
  let x := bx s b
  let n := (x.included.map fun r => nmGet 0 r x.markers).sum
  logEntry 2 (logKey (serveInst s b) 0) (words4 x.closeNs (stepNo s) (tid % 2 ^ 32 + b * 2 ^ 32 + 0x1 * 2 ^ 52 + 0x1 * 2 ^ 56)
    (min n 65535 + serveInst s b * 2 ^ 16 + 0x41 * 2 ^ 24)) s

/-- BUCKET_REDUCED (R243, R244): the reduction of a closed bucket completes. `addr` is where its shard lies at the
partner (R273). -/
def bucketReduced (b addr : Nat) (s : State) : State :=
  let x := bx s b
  if ownerHere s b && x.reducing then
    let k := x.included.length
    let n := bElems s b
    let s := match poisonedWords s memSpace (bAcc s b) (4 * n) with
      | [] => s
      | ws => uncorrectable memSpace ws 4 0 false s
    let vs := (List.range n).map fun p => meanAt s b p k (x.ordered || x.repeated)
    let s := writeBytes memSpace (bAcc s b) (vs.flatMap f32Le) s
    let s := if x.repeated then repeatEntry b s else s
    let s := modBx b (fun y => { y with reducing := false, shardFrom := bAcc s b, shardAddr := addr }) s
    if vs.all f32Finite then
      shardOut b true (reducedToken b k false (modBx b (fun y => { y with state := 4 }) (
        if x.repeated then sendNotice b 0 true false true s else s)))
    else vetoBucket b 7 noRank true s
  else s

/-! ### Serving pulls (R232, R245, R247, R249) -/

/-- The answers to an ordered pull, at most 4,096 elements or 1,024 entries each, the last marked. -/
def pullAnswers (s : State) (b first count : Nat) : List XOp :=
  let vs := ordValues s b first count
  let top := (ordSources s b).any fun r => r.compacted s
  let gs := if top then blocksOf 1024 vs.length vs else blocksOf 4096 vs.length vs
  let gs := if gs.isEmpty then [[]] else gs
  gs.zipIdx.map fun gi =>
    let f := ((gi.1.head?).map (·.1)).getD first
    mkOp s 4 b f gi.1.length (b2n top + 2 * b2n (decide (gi.2 + 1 = gs.length)))
      (gi.1.flatMap fun v => if top then natLe 8 (v.1 + v.2 * 2 ^ 32) else natLe 2 v.2)

/-- Pulls that a contributor holds and can now serve (R232, R245). -/
def servePulls (s : State) : State :=
  s.job.pulls.foldl (fun s p =>
    if ordReady s p.bucket p.first p.count then
      let ans := pullAnswers s p.bucket p.first p.count
      let s := ans.foldl (fun s o => (sendOp p.owner typeAcc o s).2) s
      noteServed p.bucket p.first p.count
        (modJob (fun j => { j with pulls := j.pulls.filter fun q => q != p }) s)
    else s) s

/-- A PULL arrives at a contributor: ordered data is held until its source is there; first sendings are sent again
(R234). -/
def onPull (x : XOp) (s : State) : State :=
  let b := x.bucket
  let s := if bitOf x.flags 0 then
      servePulls (modJob (fun j => { j with pulls := j.pulls ++ [⟨b, x.rank, x.first, x.count⟩] }) s)
    else s
  if bitOf x.flags 1 then
    (s.job.sends.filter fun r => r.bucket == b && r.op != 3).foldl (fun s r =>
      (r.ops s x.first (x.first + x.count) ++ r.ends s x.first (x.first + x.count)).foldl (fun s o =>
        (sendOp x.rank typeAcc o s).2) s) s
  else s

/-! ### Page walks and cellar copies (R272, R274, R287) -/

/-- PAGES_LEFT (R287). -/
def refreshCellar (s : State) : State := wr F.rs_PAGES_LEFT 0 0 (s.job.walks.map fun w => w.left.length).sum s

/-- CELLARS_INVALID (R298): owned buckets without a valid cellar copy. -/
def cellarsInvalid (s : State) : Nat :=
  ((List.range (bucketCount s)).filter fun b => ownerHere s b && !(bx s b).cellarValid).length

/-- Pages of a walk of bucket `b`: master pages, or every moment plane. -/
def walkPages (s : State) (b : Nat) (master : Bool) : List Nat :=
  List.range (if master then bPages s b else uMoments s b * bPages s b)

/-- A page walk of a bucket towards a rank starts, anew if one was in progress. -/
def startWalk (b rank : Nat) (master : Bool) (s : State) : State :=
  let w : PageWalk := ⟨b, rank, master, walkPages s b master, []⟩
  refreshCellar (modJob (fun j =>
    { j with walks := (j.walks.filter fun v => !(v.bucket == b && v.rank == rank && v.master == master)) ++ [w] }) s)

/-- Re-cellaring of an owned bucket starts where its partner holds no valid copy (R274, R287); mirror mode has none
(R297). -/
def recellar (b : Nat) (s : State) : State :=
  let s := modBx b (fun x => { x with cellarValid := false }) s
  match partnerOfBucket s b with
  | some p => if ownerHere s b && !rdb s F.rs_MIRROR 0 0 then startWalk b p false s else refreshCellar s
  | none => refreshCellar s

/-- Zeros of `n` view pages at a window address. -/
def zeroPages (win p n : Nat) (s : State) : State := storeMem (win + 65536 * p) (List.replicate (65536 * n) 0#8) s

/-- A partner's copy is not valid: its firmware zeroes both halves of the bucket's state pages for the re-cellaring
(R274, R287). -/
def freshCellar (b : Nat) (s : State) : State :=
  let n := uMoments s b * bPages s b
  let s := modBx b (fun x => { x with cellarValid := false, landed := [] }) s
  zeroPages altState (uSPage s b) n (zeroPages curState (uSPage s b) n s)

/-- A page of a bucket's cellar copy holds an uncorrectable word, in either half (R274, R381). -/
def cellarPoisoned (s : State) (b : Nat) : Bool :=
  [curState, altState].any fun win => (List.range (uMoments s b)).any fun j =>
    !(poisonedWords s memSpace (momentAddr s win b j 0) (2 * bElems s b)).isEmpty

/-- An uncorrectable error in a page ends the validity of the copies that this device holds as partner, also where the word
was written again since (R274). -/
def cellarScan (s : State) : State :=
  let p : State := { s with poison := s.poison ++ s.newPoison, newPoison := [] }
  (List.range (bucketCount s)).foldl (fun t b =>
    if partnerHere s b && (bx s b).cellarValid && cellarPoisoned p b then freshCellar b t else t) { s with newPoison := [] }

/-- The scan, where a word has become poisoned since the last one. -/
def cellarStruck (s : State) : State := if s.newPoison.isEmpty then s else cellarScan s

/-- A new partner's firmware allocates state pages for the bucket: SPAGE_FIRST of its update table, which the spec leaves
to firmware, is a free value (R272) (DESIGN CHOICE, log 142). -/
def allocPages (b : Nat) (s : State) : State :=
  if uMoments s b = 0 then s
  else
    let (v, s) := free s
    let ws := nmGet (List.replicate 4 0) b s.job.upd
    let w := splice (ws.getD 0 0) 20 20 (v % 2 ^ 20)
    storeMem (rd s F.ex_UPDATE_TABLE 0 0 + 32 * b) (natLe 8 w)
      (modJob (fun j => { j with upd := nmSet b (w :: ws.drop 1) j.upd }) s)

/-- A new partner's firmware allocates the bucket's state pages and zeroes both halves of them (R272, R287). -/
def newPartner (b : Nat) (s : State) : State :=
  freshCellar b (allocPages b (modBx b (fun x => { x with shardSeen := false, shardNotice := none }) s))

/-- The bucket table was loaded on a member: re-cellaring starts wherever it is due (R287). `old` is the state before. -/
def cellarsLoaded (old s : State) : State :=
  if !isMember s || rdb s F.rs_MIRROR 0 0 then s
  else (List.range (bucketCount s)).foldl (fun s b =>
    if (bx s b).cellarValid then s
    else if partnerHere s b && !partnerHere old b then newPartner b s
    else if ownerHere s b && !(s.job.walks.any fun w => w.bucket == b && w.rank == bPartner s b && !w.master) then recellar b s
    else s) s

end Sys2Proof.Machine
end

