-- ==== Sys2Proof/Machine/Commit.lean ====
section
/-! DEFINITION. The staging area and the commit controller (R357 to R363): what a commit includes, every consistency
rule of R362, and what applying its fields does (R55, R63, R81, R82, R92, R93, R101, R107, R121, R160, R186, R193,
R194, R212). -/

namespace Sys2Proof.Machine

open Sys2Proof

/-! ### What a commit includes (R357, R361) -/

/-- A field's current value by its key. -/
def curOf (s : State) (k : FKey) : Nat :=
  match fieldOf k.fid with
  | some f => rdU s f k.unit k.idx
  | none => 0

/-- The tables the part reads from memory at a commit, by the field that gives the address (R357). -/
def tableAddress (fid : Nat) : Bool :=
  [F.rs_VIEW_ADDR.fid, F.qe_CHAIN_ADDR.fid, F.ex_BUCKET_TABLE.fid, F.ex_UPDATE_TABLE.fid, F.pt_ROUTE_ADDR.fid].contains fid

/-- Action fields (R357). -/
def actionField (fid : Nat) : Bool := fid == F.sq_SWITCH_STG.fid || fid == F.ag_READMIT.fid

/-- A field held in the step-boundary set and not written since (R361). -/
def heldField (s : State) (k : FKey) : Bool :=
  (s.commit.stepSet.any fun kv => kv.1 == k) && !s.commit.rewritten.contains k

/-- The fields a commit includes (DEDUCED, log 61). -/
def included (s : State) : List (FKey × Nat) :=
  s.stg.filter fun kv => (kv.2 != curOf s kv.1 || s.tblWritten.contains kv.1) && !heldField s kv.1

/-- The value a set gives a field, or its current value. -/
def newVal (fs : List (FKey × Nat)) (s : State) (f : Field) (u idx : Nat) : Nat :=
  match fs.find? fun kv => kv.1 == ⟨f.fid, u, idx⟩ with
  | some kv => kv.2
  | none => rdU s f u idx

/-! ### Where a field is (R363) -/

/-- The register offset of a field's place. -/
def regOffset (f : Field) (idx : Nat) : Nat :=
  match f.win with
  | .elem => f.off + 8 * (idx / f.per)
  | .arrSlot => f.off + 8 * (idx % 1024 / f.per)
  | .row => f.off + 8 * (idx % 128 / f.per)
  | .remap => f.off + 8 * (idx % 64 / f.per)
  | _ => f.off

/-- The page, offset and window of a field (R363) (DEDUCED, log 62). -/
def locate (s : State) (k : FKey) : Nat × Nat × Nat :=
  match fieldOf k.fid with
  | none => (k.unit, 0, 0)
  | some f =>
    let u := pageOf s f k.unit k.idx
    let win :=
      if f.page = 0x11 ∧ unitPage k.unit = 0x10 then
        let a := match logicalOf s (unitInst k.unit) (k.idx / 1024) with
          | some l => l % 64
          | none => rd s F.ag_ARRAY (unitInst u) 0
        a + (match f.win with | .col => 64 * (k.idx % 1024) | _ => 0)
      else match f.win with
        | .remap => k.idx / 64
        | .endpoint => k.idx
        | _ => 0
    (u, regOffset f k.idx, win)

/-- A failed rule: page, offset, window and code. -/
structure Reject where
  unit : Nat
  off : Nat
  win : Nat
  rule : Nat
  deriving DecidableEq, Repr

/-- A rule failed by a field. -/
def rejectAt (s : State) (k : FKey) (rule : Nat) : Reject :=
  let l := locate s k
  ⟨l.1, l.2.1, l.2.2, rule⟩

/-- The order in which rules are tried (R362): pages in directory order, offsets, windows, codes, each ascending: a view's
header, window 0xFFFF, comes after its entries. -/
def Reject.before (s : State) (a b : Reject) : Bool :=
  let pages := allPages s.variant
  let key (r : Reject) : List Nat :=
    [pages.idxOf r.unit, r.off, r.win, r.rule]
  decide (key a < key b)

/-- The first failure. -/
def firstReject (s : State) : List Reject → Option Reject
  | [] => none
  | r :: rest => some (rest.foldl (fun a b => if b.before s a then b else a) r)

/-- REJECT_INFO of a failure. -/
def Reject.info (r : Reject) : Nat :=
  unitPage r.unit + unitInst r.unit * 2 ^ 8 + r.off * 2 ^ 24 + r.rule * 2 ^ 40 + r.win * 2 ^ 48

/-! ### The state that would hold -/

/-- The field that shows an ST field's current value. -/
def shownAs (fid : Nat) : Option Field :=
  if fid = F.ag_ROW_GAIN_STG.fid then some F.ag_ROW_GAIN_CUR
  else if fid = F.ag_APPLIED_SCALE.fid then some F.ag_APPLIED_CUR
  else if fid = F.ag_FOLD_EXP.fid then some F.ag_FOLD_CUR
  else if fid = F.ad_REMAP_STG.fid then some F.ad_REMAP_CUR
  else if fid = F.ag_FRAME_MAP_STG.fid then some F.ag_FRAME_MAP_CUR
  else none

/-- One field becomes current. Action fields read 0 again. -/
def makeCurrent (s : State) (kv : FKey × Nat) : State :=
  match fieldOf kv.1.fid with
  | none => s
  | some f =>
    if actionField f.fid then s
    else
      let s := wrU f kv.1.unit kv.1.idx kv.2 s
      match shownAs f.fid with
      | some g => wrU g kv.1.unit kv.1.idx kv.2 s
      | none => s

/-- Endpoints with an included field. -/
def changedEps (fs : List (FKey × Nat)) : List Nat :=
  ((fs.filter fun kv => unitPage kv.1.unit == 0x62).map (·.1.idx)).dedup

/-- Every field of a set becomes current, and the chain tables of changed endpoints are read. -/
def afterFields (fs : List (FKey × Nat)) (s : State) : State := takeChains (changedEps fs) (fs.foldl makeCurrent s)

/-! ### Rules on one field -/

/-- A value its field's table does not allow (rule 0x01) (DEDUCED, log 58). -/
def badEncoding (kv : FKey × Nat) : Bool :=
  let v := kv.2
  let is (f : Field) : Bool := kv.1.fid == f.fid
  (is F.ag_RANGE_GAIN && v == 3) || ((is F.ag_ROW_GAIN_STG || is F.ag_ROW_GAIN_BASE) && decide (192 < v)) ||
  (is F.ag_FOLD_EXP && v == 2) ||
  (is F.ag_FRAME_MAP_STG && (bits v 8 2 == 3 || bits v 10 6 != 0 || (bits v 8 2 != 2 && bits v 0 8 != 0)))

/-- Array die and physical array of an array field's key. -/
def arrOf (k : FKey) : Nat × Nat := (unitInst k.unit, k.idx / 1024)

/-- The package-wide index of the logical array a physical array serves (R51). -/
def packageIdx (s : State) (die p : Nat) : Option Nat := (logicalOf s die p).map (· + 1024 * die)

/-- An array is folded: some consumer names it. -/
def isFolded (s : State) (die p : Nat) : Bool :=
  match packageIdx s die p with
  | some i => !(consumers s [i]).isEmpty
  | none => false

/-- Fields that change only at a step boundary while a program runs (R269). -/
def stepField (fid : Nat) : Bool :=
  [F.ex_UPDATE_TABLE.fid, F.ex_MASTER_HALF0.fid, F.ex_MASTER_HALF1.fid, F.ex_MASTER_PAGES.fid, F.ex_STATE_HALF0.fid,
    F.ex_STATE_HALF1.fid, F.ex_STATE_PAGES.fid].contains fid

/-- An endpoint whose definition may not change now (R221). -/
def epBusy (s : State) (e : Nat) : Bool := rdb s F.qe_ADMIT_EN 0 e || rd s F.qe_OUTSTANDING 0 e != 0

/-- The endpoint a slot entry reserves. -/
def slotEndpoint (v : Nat) : List Nat := if bits v 8 2 = 2 then [bits v 0 8] else []

/-- The rules one included field breaks, in the commit of `fs` on `s` that leaves `post`. -/
def fieldRules (fs : List (FKey × Nat)) (when' : Nat) (s post : State) (kv : FKey × Nat) : List Nat :=
  let k := kv.1
  let is (f : Field) : Bool := k.fid == f.fid
  let (die, p) := arrOf k
  let j := k.idx % 1024
  let readmits := newVal fs s F.ag_READMIT k.unit k.idx == 1
  let gains := is F.ag_ROW_GAIN_STG || is F.ag_OUTLIER_ROW || is F.ag_OUTLIER_VALID
  let st := rdA s F.ag_WRITE_STATE die p j
  let slotEps := if is F.ag_FRAME_MAP_STG then slotEndpoint kv.2 ++ slotEndpoint (curOf s k)
    else if is F.ag_FRAME_PHASE then (List.range 64).flatMap fun i =>
      slotEndpoint (rdU s F.ag_FRAME_MAP_STG k.unit i)
    else []
  let remapBad (p : ArrX → Bool) : Bool := is F.ad_REMAP_STG && p (arrX s die kv.2)
  ([(0x01, badEncoding kv),
    (0x03, gains && rdA s F.ag_STG_VALID die p 0 == 0),
    (0x05, is F.ag_READMIT && kv.2 == 1 &&
      (!(st == 5 || (st == 0 && arrayIdle s die p)) || rdA s F.ag_PERMANENT die p j == 1)),
    (0x06, (is F.ag_APPLIED_SCALE || is F.ag_FOLD_EXP) && !readmits),
    (0x07, is F.ag_APPLIED_SCALE && !s16PosNormal (BitVec.ofNat 16 kv.2)),
    (0x08, is F.ag_FOLD_EXP && kv.2 != 0 && !isFolded post die p),
    (0x0A, is F.ag_APPLIED_SCALE && isFolded post die p),
    (0x11, remapBad (·.retired)),
    (0x12, remapBad (!·.swept)),
    (0x25, (unitPage k.unit == 0x62 && epBusy s k.idx) || slotEps.any (epBusy s)),
    (0x37, is F.rs_VIEW_ADDR && when' == 2),
    (0x40, stepField k.fid && when' != 2 && programRuns s),
    (0x41, is F.sh_SLOT_BYTES && kv.2 % 2 ^ 20 != 0),
    (0x42, when' != 2 && (s.commit.stepSet.any fun h => h.1 == k))].filter (·.2)).map (·.1)

/-! ### Rules across fields -/

/-- The arrays whose row gains or outlier marks a set changes (DEDUCED, log 60). -/
def gainArrays (fs : List (FKey × Nat)) : List (Nat × Nat) :=
  ((fs.filter fun kv => [F.ag_ROW_GAIN_STG.fid, F.ag_OUTLIER_ROW.fid, F.ag_OUTLIER_VALID.fid].contains kv.1.fid).map
    fun kv => arrOf kv.1).dedup

/-- The arrays whose outlier marks a set changes. -/
def markArrays (fs : List (FKey × Nat)) : List (Nat × Nat) :=
  ((fs.filter fun kv => [F.ag_OUTLIER_ROW.fid, F.ag_OUTLIER_VALID.fid].contains kv.1.fid).map fun kv => arrOf kv.1).dedup

/-- Columns a set readmits on an array. -/
def readmitted (fs : List (FKey × Nat)) (die p : Nat) : List Nat :=
  (fs.filter fun kv => kv.1.fid == F.ag_READMIT.fid && kv.2 == 1 && arrOf kv.1 == (die, p)).map (·.1.idx % 1024)

/-- The key of an array field. -/
def arrFieldKey (f : Field) (die p sub : Nat) : FKey := ⟨f.fid, arrayUnit die, arrIdx p sub⟩

/-- Outlier rules of an array: two slots name one row, or the bypass limit is exceeded (0x02, 0x04). -/
def markRejects (fs : List (FKey × Nat)) (s post : State) (dp : Nat × Nat) : List Reject :=
  let (die, p) := dp
  let ms := marks post die p
  let dup := (List.range 8).find? fun m => (ms.getD m none).isSome && (List.range 8).any fun n =>
    n != m && ms.getD n none == ms.getD m none
  let left := (limitCols s die p).filter fun j => !(readmitted fs die p).contains j
  (match dup with
    | some m => [rejectAt s (arrFieldKey F.ag_OUTLIER_ROW die p m) 0x02]
    | none => []) ++
  (if bypassLimit post die p < left.length then [rejectAt s (arrFieldKey F.ag_OUTLIER_ROW die p 0) 0x04] else [])

/-- The code R92 derives from a base code and a fold exponent code. -/
def derivedGain (base fold : Nat) : Option Nat :=
  match fold with
  | 0 => some base
  | 1 => if base ≤ 64 then some (2 * base + 64) else none
  | 3 => if 64 ≤ base ∧ base % 2 = 0 then some ((base - 64) / 2) else none
  | _ => none

/-- Consumers whose row gains differ from what R92 derives (0x09) (DEDUCED, log 56). -/
def consumerRejects (s post : State) : List Reject :=
  post.flds.flatMap fun kv =>
    if kv.1.fid = F.ag_SRC_VALID.fid ∧ kv.2 = 1 then
      let (die, p) := arrOf kv.1
      let src := rdA post F.ag_SRC_ARRAY die p 0
      let sd := src / 1024
      let sp := physOf post sd (src % 1024)
      if isSpare post die p then []
      else (List.range 512).filterMap fun j =>
        if derivedGain (rdA post F.ag_ROW_GAIN_BASE die p j) (rdA post F.ag_FOLD_EXP sd sp j) =
            some (rdA post F.ag_ROW_GAIN_STG die p j) then none
        else some (rejectAt s (arrFieldKey F.ag_ROW_GAIN_STG die p j) 0x09)
    else []

/-- A nonzero fold exponent is left on an array that no consumer names any more (0x08). -/
def orphanRejects (fs : List (FKey × Nat)) (s post : State) : List Reject :=
  if hasField fs F.ag_SRC_ARRAY || hasField fs F.ag_SRC_VALID then
    post.flds.filterMap fun kv =>
      if kv.1.fid = F.ag_FOLD_EXP.fid ∧ kv.2 ≠ 0 ∧ !isFolded post (arrOf kv.1).1 (arrOf kv.1).2 ∧
          !isSpare post (arrOf kv.1).1 (arrOf kv.1).2 then some (rejectAt s kv.1 0x08) else none
  else []

/-- Remap entries that name one physical array (0x10). -/
def remapRejects (fs : List (FKey × Nat)) (s post : State) : List Reject :=
  (fs.filter fun kv => kv.1.fid == F.ad_REMAP_STG.fid).filterMap fun kv =>
    let die := unitInst kv.1.unit
    match (List.range 1024).find? fun l => l != kv.1.idx && physOf post die l == kv.2 with
    | some l => some (rejectAt s ⟨kv.1.fid, kv.1.unit, min l kv.1.idx⟩ 0x10)
    | none => none

/-- The valid bin whose load completed most recently (R193). -/
def lastBin (s : State) (q : SeqId) : Option (Nat × Bin) :=
  let bs := [0, 1].filterMap fun b => if binValid s q b then (binOf s q b).map fun x => (b, x) else none
  bs.foldl (fun (m : Option (Nat × Bin)) bx => match m with
    | none => some bx
    | some my => if my.2.order < bx.2.order then some bx else m) none

/-- SWITCH_STG rules: one generation for all sequencers started (0x18), and no endpoint on a die whose sequencer 79
starts (0x23). -/
def switchRejects (fs : List (FKey × Nat)) (s post : State) : List Reject :=
  let started := (switchedSeqs fs).filter fun q => !seqBusy s q
  let key (q : SeqId) : FKey := ⟨F.sq_SWITCH_STG.fid, unitOf 0x25 q.die, q.num⟩
  let gens := started.filterMap fun q => (lastBin s q).map fun b => (q, b.2.gen)
  (match gens with
    | [] => []
    | g :: rest => (rest.filter fun h => h.2 != g.2).map fun h => rejectAt s (key h.1) 0x18) ++
  (started.filter fun q => q.num == 79 && (definedEps post).any fun e => epDie post e == q.die).map fun q =>
    rejectAt s (key q) 0x23

/-- Endpoint rules (0x20 to 0x26): tried where a set touches an endpoint, a slot map or a phase. -/
def endpointRejects (fs : List (FKey × Nat)) (post : State) : List Reject :=
  if (fs.any fun kv => unitPage kv.1.unit == 0x62) || hasField fs F.ag_FRAME_MAP_STG || hasField fs F.ag_FRAME_PHASE then
    (definedEps post).flatMap fun e => (epFailures post e).map fun r => ⟨unitOf 0x62 0, r.2, e, r.1⟩
  else []

/-- View rules (0x30 to 0x36): the owners come from the bucket table the commit leaves. -/
def viewRejects (fs : List (FKey × Nat)) (post : State) : List Reject :=
  if hasField fs F.rs_VIEW_ADDR then
    let post := if hasField fs F.ex_BUCKET_TABLE || hasField fs F.ex_BUCKET_COUNT then loadBuckets post else post
    (viewFailures post (readView post (rd post F.rs_VIEW_ADDR 0 0))).map fun r =>
      ⟨unitOf 0x61 0, F.rs_VIEW_ADDR.off, r.1, r.2⟩
  else []

/-- Every failure of a commit of `fs` with WHEN `when'` (R362). -/
def rejects (fs : List (FKey × Nat)) (when' : Nat) (s : State) : List Reject :=
  let post := afterFields fs s
  fs.flatMap (fun kv => (fieldRules fs when' s post kv).map (rejectAt s kv.1)) ++
  (markArrays fs).flatMap (markRejects fs s post) ++ consumerRejects s post ++ orphanRejects fs s post ++
  remapRejects fs s post ++ switchRejects fs s post ++ endpointRejects fs post ++ viewRejects fs post

/-- The check of a commit. -/
def checkCommit (fs : List (FKey × Nat)) (when' : Nat) (s : State) : Option Reject := firstReject s (rejects fs when' s)

/-! ### Applying -/

/-- The arrays whose fold exponents a set changes. -/
def foldArrays (fs : List (FKey × Nat)) (s : State) : List (Nat × Nat) :=
  ((fs.filter fun kv => kv.1.fid == F.ag_FOLD_EXP.fid && kv.2 != curOf s kv.1).map fun kv => arrOf kv.1).dedup

/-- The package-wide logical arrays whose fold exponents a set may change: by FOLD_EXP, or by a remap (R121). -/
def foldLogical (fs : List (FKey × Nat)) (s : State) : List Nat :=
  (fs.filterMap fun kv =>
    if kv.1.fid = F.ag_FOLD_EXP.fid then packageIdx s (arrOf kv.1).1 (arrOf kv.1).2
    else if kv.1.fid = F.ad_REMAP_STG.fid then some (1024 * unitInst kv.1.unit + kv.1.idx)
    else none).dedup

/-- The set a physical array works with in `old`, to be kept as a prior set. A bypass column's sum stays that over the masters
of before the commit, while its products take the pantry as it stands (DESIGN CHOICE, log 123). -/
def currentSet (old : State) (die p : Nat) : PriorSet :=
  { gains := (List.range 512).map fun r => rdA old F.ag_ROW_GAIN_CUR die p r
    colSums := (List.range 512).map fun j => rdA old F.ag_COLSUM_CUR die p j
    sums := (arrX old die p).cols.map fun kc => (kc.2.col, kc.2.sum) }

/-- The fold generation of logical array `i` after a commit on `old` that left the fields of `s`: it advances where a
fold exponent changed, and the consumers then keep the sets they had as prior sets (R121). A remap carries the
generation to the array that now serves the number. -/
def advanceFold (old : State) (i : Nat) (s : State) : State :=
  let die := i / 1024
  let p0 := physOf old die (i % 1024)
  let p1 := physOf s die (i % 1024)
  let changed := (List.range 512).any fun j => rdA old F.ag_FOLD_CUR die p0 j != rdA s F.ag_FOLD_CUR die p1 j
  let g := rdA old F.ag_FOLD_GEN die p0 0
  let s := wrA F.ag_FOLD_GEN die p1 0 (if changed then (g + 1) % 4 else g) s
  if changed then
    (consumers s [i]).foldl (fun s c =>
      let was := match logicalOf s c.1 c.2 with
        | some l => physOf old c.1 l
        | none => c.2
      setArrX c.1 c.2 { arrX s c.1 c.2 with prior := some (currentSet old c.1 was) } s) s
  else s

/-- The mirrors of an array's outlier list on the four digital dies (R160). -/
def writeMirror (dp : Nat × Nat) (s : State) : State :=
  match packageIdx s dp.1 dp.2 with
  | none => s
  | some i =>
    let bytes := (marks s dp.1 dp.2).flatMap fun o => natLe 2 (slotWord o)
    (List.range 4).foldl (fun s d => store (dieSpace d) (rd s F.ve_OUTLIER_MIRROR (16 * d) 0 + 16 * i) bytes s) s

/-- Row gains or marks of an array were installed: the standby sums become current (R62, R82). -/
def installGains (dp : Nat × Nat) (s : State) : State :=
  let (die, p) := dp
  let s := (List.range 512).foldl (fun s j =>
    let v := rdA s F.ag_COLSUM_STG die p j
    let s := wrA F.ag_COLSUM_CUR die p j v s
    if rdA s F.ag_STANDBY_READY die p 0 = 1 then wrA F.ag_COLSUM_STBY die p j v s else s) s
  let k := sweepPos s die p % 200
  modSweep die p (fun x =>
    let part := decide (192 ≤ k ∧ k < 196) && (k != 192 || x.run.isSome)
    { x with blocks := [], skip := if part then List.range 512 else x.skip }) s

/-- The image entry of a readmitted column (R93). -/
def writeImage (die p j : Nat) (s : State) : State :=
  match logicalOf s die p with
  | none => s
  | some l =>
    let base := rd s F.ag_IMAGE_BASE (16 * die + l / 64) 0 + 263360 * (l % 64)
    let levels := (nmGet [] j (arrX s die p).cells) ++ List.replicate 512 0
    let s := storeMem (base + 512 * j) ((levels.take 512).map (BitVec.ofInt 8)) s
    let s := storeMem (base + 262144 + 2 * j) (natLe 2 (rdA s F.ag_APPLIED_CUR die p j)) s
    let a := base + 263168 + j / 4
    storeMem a [BitVec.ofNat 8 (splice (readByte s memSpace a).toNat (2 * (j % 4)) 2 (rdA s F.ag_FOLD_CUR die p j))] s

/-- A column is readmitted (R101): its bypass ends, its slot is freed and its image entry updated. -/
def readmitColumn (die p j : Nat) (s : State) : State :=
  let s := wrA F.ag_IN_BYPASS die p j 0 (wrA F.ag_WRITE_STATE die p j 0 (freePantry die p j s))
  let x := arrX s die p
  writeImage die p j (setArrX die p { x with auditDrop := x.auditDrop ++ [j] } s)

/-- Arrays that a remap leaves without a logical number are retired: the sweep stops and running work is dropped
(R106). -/
def retireArrays (die : Nat) (old : State) (s : State) : State :=
  (List.range 1024).foldl (fun s l =>
    let p := physOf old die l
    if (logicalOf s die p).isSome then s
    else
      let x := arrX s die p
      setArrX die p { x with retired := true, write := none, evicting := [], sweep := { x.sweep with run := none } } s) s

/-- The next period at or after `n` that starts slot 0 of a frame of phase `φ`. -/
def nextFrame (φ n : Nat) : Nat := n + (φ + 512 - n % 512) % 512

/-- The next slot start of phase `φ` at or after `n`. -/
def nextSlot (φ n : Nat) : Nat := n + (φ + 8 - n % 8) % 8

/-- Frames of a group change at alignment period `ap` (R212). -/
def changeFrame (inst ap : Nat) (old s : State) : State :=
  let φ0 := rd old F.ag_FRAME_PHASE inst 0
  let φ1 := rd s F.ag_FRAME_PHASE inst 0
  let e := nextFrame φ0 ap
  let x : FrameX :=
      { oldPhase := φ0, oldMap := (List.range 64).map fun i => rd old F.ag_FRAME_MAP_STG inst i, oldEnd := e
        newFrom := if φ0 = φ1 then e else nextSlot φ1 e }
  { s with frames := nmSet inst x s.frames }

/-- The groups whose frames a set changes. -/
def frameGroups (fs : List (FKey × Nat)) : List Nat :=
  ((fs.filter fun kv => kv.1.fid == F.ag_FRAME_MAP_STG.fid || kv.1.fid == F.ag_FRAME_PHASE.fid).map
    fun kv => unitInst kv.1.unit).dedup

/-- Resets the loss detector, with the SAT bit of its sample count (R265, R353). -/
def detectorReset (s : State) : State :=
  wr F.he_EWMA 0 0 0 (wr F.he_SAMPLES 0 0 0 (clearSatBit F.he_SAMPLES (unitOf 0x60 0) s))

/-- The address registers, flags and RSTAT of a sequencer cleared, each to its reset value (R193) (DEDUCED, log 136). -/
def clearRegs (q : SeqId) (s : State) : State :=
  let s := (List.range 32).foldl (fun s r => setReg q r 0 s) s
  let s := wr F.sq_PRED q.die q.num 0 (wr F.sq_STICKY q.die q.num 0 s)
  setb F.sq_LAST_SKIP q.die q.num false (wr F.sq_LAST_FMT q.die q.num F.sq_LAST_FMT.rst (wr F.sq_LAST_EXTENT q.die q.num 0 s))

/-- A sequencer starts with the alignment period that begins at core cycle `c` as its origin (R193); in a throttled frame its
timeline stands still until the frame's end (R375). -/
def startSeq (q : SeqId) (c : Nat) (s : State) : State :=
  match lastBin s q with
  | none => guardFault q.die (seqTag s q) (seqX s q).gen 5 0 (seqDieCode q) 0 0 s
  | some (b, x) =>
    let old := seqX s q
    let s := setSeqX q { old with
      gen := x.gen, base := max c old.floor / domCycles q, popA := none, popAt := none, waitNs := none, switchAt := none
      heldTill := none, overTok := none, overFlags := [] } s
    let s := clearRegs q (wr F.sq_PROG_GEN q.die 0 x.gen s)
    let r := ownQueues q.num
    (List.range r.2).foldl (fun s i => settleHead (queueDie q) (r.1 + i) s)
      (wr F.sq_PC_INDEX q.die q.num x.entry (wr F.sq_PC_BIN q.die q.num b
        (setb F.sq_WAITING q.die q.num false (setSeqState q 1 s))))

/-- The program starts: the queues its sequencers consume are emptied and the loss detector is reset (R186, R265)
(DEDUCED, log 59). -/
def programStart (qs : List SeqId) (s : State) : State :=
  let s := qs.foldl (fun s q =>
    let r := ownQueues q.num
    (List.range r.2).foldl (fun s i => setQueue (queueDie q) (r.1 + i) [] s) s) s
  detectorReset { s with programDied := false }

/-- Starts and switches of a commit at core cycle `c` (R193, R194): none after a device-fatal error, which stops issue until the
next reset (R387). -/
def switchSeqs (qs : List SeqId) (c : Nat) (s : State) : State :=
  let qs := if rdb s F.fa_DEVICE_FATAL 0 0 then [] else qs
  let starts := qs.filter fun q => !seqBusy s q
  let s := if !starts.isEmpty && !programRuns s then programStart starts s else s
  let busy := qs.filter fun q => seqBusy s q
  let s := busy.foldl (fun s q => setSeqX q { seqX s q with switchAt := some c } s) s
  starts.foldl (fun s q => startSeq q c s) s

/-- Staged values that were applied are staged no longer; action fields are 0 again (R357). -/
def unstage (fs : List (FKey × Nat)) (s : State) : State :=
  { s with stg := s.stg.filter fun kv => !(fs.contains kv) }

/-- The tables that the fields of a set make the part read from memory, each by address and bytes (R357). -/
def tableReads (fs : List (FKey × Nat)) (s : State) : List (Nat × Nat) :=
  let n := bucketCount s
  (if hasField fs F.ex_BUCKET_TABLE || hasField fs F.ex_BUCKET_COUNT then [(rd s F.ex_BUCKET_TABLE 0 0, 64 * n)] else []) ++
  (if hasField fs F.ex_UPDATE_TABLE || hasField fs F.ex_BUCKET_COUNT then [(rd s F.ex_UPDATE_TABLE 0 0, 32 * n)] else []) ++
  (if hasField fs F.pt_ROUTE_ADDR || hasField fs F.pt_ROUTE_ENTRIES then
    [(rd s F.pt_ROUTE_ADDR 0 0, 16 * rd s F.pt_ROUTE_ENTRIES 0 0)] else []) ++
  (if hasField fs F.rs_VIEW_ADDR then
    [(rd s F.rs_VIEW_ADDR 0 0, 64 + 32 * bits (memWord s (rd s F.rs_VIEW_ADDR 0 0)) 32 13)] else []) ++
  ((changedEps fs).filter (epDefined s)).map fun e => (rd s F.qe_CHAIN_ADDR 0 e, 2320)

/-- Applies the fields of a commit in the alignment period that begins now. -/
def applyFields (fs : List (FKey × Nat)) (s : State) : State :=
  let ap := s.core / 32
  let s := settleWrites s
  let old := s
  let s := fs.foldl makeCurrent s
  let s := (foldLogical fs s).foldl (fun s i => advanceFold old i s) s
  let s := (gainArrays fs).foldl (fun s dp => installGains dp s) s
  let due := ((gainArrays fs ++ foldArrays fs old).filterMap fun dp =>
    (logicalOf old dp.1 dp.2).map fun l => 16 * dp.1 + l / 64).dedup
  let s := { s with refreshDue := (s.refreshDue ++ due).dedup }
  let remapped := ((fs.filter fun kv => kv.1.fid == F.ad_REMAP_STG.fid).map fun kv => unitInst kv.1.unit).dedup
  let s := remapped.foldl (fun s d => retireArrays d old s) s
  let s := (markArrays fs).foldl (fun s dp => failCheck dp.1 dp.2 s) s
  let s := remapped.foldl (fun s d => failDie d s) s
  let s := (fs.filter fun kv => kv.1.fid == F.ag_READMIT.fid && kv.2 == 1).foldl (fun s kv =>
    readmitColumn (arrOf kv.1).1 (arrOf kv.1).2 (kv.1.idx % 1024) s) s
  let moved := (fs.filter fun kv => kv.1.fid == F.ad_REMAP_STG.fid).map fun kv => (unitInst kv.1.unit, kv.2)
  let s := ((markArrays fs) ++ moved).dedup.foldl (fun s dp => writeMirror dp s) s
  let s := (frameGroups fs).foldl (fun s g => changeFrame g ap old s) s
  let s := takeChains (changedEps fs) s
  let s := (changedEps fs).foldl (fun s e => publishEndpoint e s) s
  let s := (tableReads fs s).foldl (fun s t => partReport t.1 t.2 s) s
  let buckets := hasField fs F.ex_BUCKET_TABLE || hasField fs F.ex_BUCKET_COUNT
  let s := if buckets then loadBuckets s else s
  let s := if hasField fs F.ex_UPDATE_TABLE || hasField fs F.ex_BUCKET_COUNT then loadUpdates s else s
  let s := if buckets then cellarsLoaded old s else s
  let s := if hasField fs F.pt_ROUTE_ADDR || hasField fs F.pt_ROUTE_ENTRIES then sendWaiting (loadRoutes s) else s
  switchSeqs (switchedSeqs fs) (32 * ap) (unstage fs s)

/-! ### The controller -/

/-- The commit page. -/
def commitUnit : Nat := unitOf 0x02 0

/-- OWNER of an agent (R358). -/
def agentCode : Agent → Nat
  | .host => 1
  | .firmware => 2

/-- Another agent holds the claim. -/
def claimOther (s : State) (a : Agent) : Bool :=
  let o := rd s F.cm_OWNER 0 0
  o != 0 && o != (agentCode a)

/-- STATE and RESULT. -/
def setCommit (st res : Nat) (s : State) : State := wr F.cm_STATE 0 0 st (wr F.cm_RESULT 0 0 res s)

/-- A write of CLAIM = 1 (R358). -/
def claim (a : Agent) (s : State) : State :=
  if rd s F.cm_OWNER 0 0 = 0 then
    let s := wr F.cm_OWNER 0 0 (agentCode a) s
    { s with commit := { s.commit with claimNs := nowNs s } }
  else s

/-- CLAIM (R358). -/
def execClaim (agent : Agent) (s : State) : Host.Outcome State Fault Refusal :=
  .next (if agentReaches s agent commitUnit then claim agent (pageAccess commitUnit s) else s)

/-- A write of RELEASE = 1: it acts only for the holder (R358, R365). -/
def releaseClaim (a : Agent) (s : State) : State :=
  if rd s F.cm_OWNER 0 0 = (agentCode a) then wr F.cm_OWNER 0 0 0 s else s

/-- RELEASE (R358). -/
def execRelease (agent : Agent) (s : State) : Host.Outcome State Fault Refusal :=
  .next (if agentReaches s agent commitUnit then releaseClaim agent (pageAccess commitUnit s) else s)

/-- OWNER of the agent whose GO is in hand. -/
def goHolder (s : State) : Nat := if s.commit.byFirmware then 2 else 1

/-- The check of a GO from the holder runs: its end releases the claim (R358). -/
def holderChecks (s : State) : Bool := rd s F.cm_STATE 0 0 == 1 && rd s F.cm_OWNER 0 0 == goHolder s

/-- The claim in hand can still expire: it is held, and no GO of its holder is being checked (R358). -/
def claimIdle (s : State) : Bool := rd s F.cm_OWNER 0 0 != 0 && !holderChecks s

/-- The holder has held the claim for CLAIM_LIMIT without a GO: time comes to that moment, and the claim ends (R358). -/
def expireClaim (s : State) : State :=
  let t := s.commit.claimNs + 1000 * max 1 (rd s F.cm_CLAIM_LIMIT 0 0)
  let s := advanceTo (coreAfterNs s (t - 1)) s
  sat F.cm_CLAIM_EXPIRED 0 0 1 (wr F.cm_OWNER 0 0 0 s)

/-- CLAIM_EXPIRED (R358). -/
def execClaimExpired (s : State) : Host.Outcome State Fault Refusal := .next (if claimIdle s then expireClaim s else s)

/-- A write of GO = 1 (R359, R360): the snapshot, or a refusal. -/
def commitGo (a : Agent) (when' : Nat) (s : State) : State :=
  let st := rd s F.cm_STATE 0 0
  if st = 1 ∨ st = 2 then sat F.cm_COMMITS_BUSY 0 0 1 (wr F.cm_RESULT 0 0 2 s)
  else if claimOther s a then sat F.cm_COMMITS_BUSY 0 0 1 (wr F.cm_RESULT 0 0 3 s)
  else if when' = 3 then sat F.cm_COMMITS_BUSY 0 0 1 (setCommit 4 6 s)
  else
    let fs := included s
    let s := setCommit 1 (rd s F.cm_RESULT 0 0) s
    { s with
      tblWritten := s.tblWritten.filter fun k => !(fs.any fun kv => kv.1 == k)
      commit := { s.commit with
        snapshot := fs, when' := when', byFirmware := a == .firmware
        rewritten := s.commit.rewritten.filter fun k => !(fs.any fun kv => kv.1 == k) } }

/-- GO (R359). -/
def execGo (agent : Agent) (when' : Nat) (s : State) : Host.Outcome State Fault Refusal :=
  .next (if agentReaches s agent commitUnit then commitGo agent (when' % 4) (pageAccess commitUnit s) else s)

/-- A write of DISCARD = 1 (R359): staged values equal current values, no held marks, an empty step-boundary set. A
change of staged row gains or marks restarts the standby sums (R81), and where the step-boundary set itself was pending nothing
pends any more (DEDUCED, log 116). -/
def discard (s : State) : State :=
  let touched := gainArrays (s.stg.filter fun kv => kv.2 != curOf s kv.1)
  let s := touched.foldl (fun s dp => stagedGainWrite dp.1 dp.2 s) s
  let s := if s.commit.setPending then wr F.cm_STATE 0 0 0 s else s
  let s := { s with stg := [], tblWritten := [], commit := { s.commit with
    stepSet := [], setPending := false, setAtFrame := false, rewritten := [] } }
  setb F.cm_STEP_SET_HELD 0 0 false s

/-- DISCARD (R359). -/
def execDiscard (s : State) : Host.Outcome State Fault Refusal :=
  .next (if livePage s commitUnit then discard (pageAccess commitUnit s) else s)

/-- A failed check or application: the tables it included count as still to be taken in, and the held fields it included as
written since (R357). -/
def failCommit (r : Reject) (res : Nat) (s : State) : State :=
  let ks := s.commit.snapshot.map (·.1)
  let back := ks.filter fun k => tableAddress k.fid && !s.tblWritten.contains k
  let again := ks.filter fun k => (s.commit.stepSet.any fun kv => kv.1 == k) && !s.commit.rewritten.contains k
  let s := setCommit 4 res (wr F.cm_REJECT_INFO 0 0 r.info (sat F.cm_COMMITS_FAILED 0 0 1 s))
  let s := setb F.cm_MEMBERSHIP 0 0 false s
  { s with
    tblWritten := s.tblWritten ++ back
    commit := { s.commit with snapshot := [], rewritten := s.commit.rewritten ++ again } }

/-- A view's check failed on this device: it withdraws (R283, R285). -/
def rejectView (r : Reject) (s : State) : State :=
  if 0x30 ≤ r.rule ∧ r.rule ≤ 0x36 then withdraw (setb F.rs_VIEW_REJECTED 0 0 true s) else s

/-- The step-boundary set with the fields of a set joined (R361). -/
def joinSet (fs : List (FKey × Nat)) (s : State) : State :=
  let old := s.commit.stepSet.filter fun kv => !(fs.any fun k => k.1 == kv.1)
  setb F.cm_STEP_SET_HELD 0 0 (!(old ++ fs).isEmpty)
    { s with commit := { s.commit with stepSet := old ++ fs, snapshot := [] } }

/-- COMMIT_CHECK_DONE (R359, R361): the check of the commit in hand ends (DEDUCED, log 117). -/
def checkDone (s : State) : State :=
  if rd s F.cm_STATE 0 0 ≠ 1 then s
  else
    let fs := s.commit.snapshot
    let w := s.commit.when'
    let s := if rd s F.cm_OWNER 0 0 = goHolder s then wr F.cm_OWNER 0 0 0 s else s
    let s := { s with commit := { s.commit with checkedAt := s.core } }
    match checkCommit fs w s with
    | some r => rejectView r (failCommit r 1 s)
    | none =>
      if w = 2 then
        let s := setCommit 0 5 (joinSet fs s)
        if programRuns s then s else wr F.cm_STATE 0 0 2 { s with commit := { s.commit with setPending := true } }
      else if hasField fs F.rs_VIEW_ADDR then
        let s := setb F.cm_MEMBERSHIP 0 0 true (setCommit 2 (rd s F.cm_RESULT 0 0) s)
        let post := afterFields fs s
        modJob (fun j => { j with pendingView := some (pendingOf post (readView post (rd post F.rs_VIEW_ADDR 0 0))) }) s
      else setCommit 2 (rd s F.cm_RESULT 0 0) s

/-- COMMIT_CHECK_DONE. -/
def execCommitCheckDone (s : State) : Host.Outcome State Fault Refusal := .next (checkDone s)

/-- A commit applied in the alignment period that begins now (R360). -/
def noteApplied (s : State) : State :=
  sat F.cm_COMMITS_APPLIED 0 0 1 (wr F.cm_APPLIED_TIME 0 0 (nowNs s) (wr F.cm_APPLIED_ALIGN 0 0 (nowAp s) s))

/-- The commit in hand applies now, or fails its second check (R360). -/
def applyCommit (s : State) : State :=
  let fs := s.commit.snapshot
  match checkCommit fs s.commit.when' s with
  | some r => rejectView r (failCommit r 4 s)
  | none =>
    let s := noteApplied (setb F.cm_MEMBERSHIP 0 0 false (setCommit 3 0 s))
    applyFields fs { s with commit := { s.commit with snapshot := [], lastAp := some (nowAp s) } }

/-- A step commit is due no later than alignment period `n`: it applies first (R263). -/
def stepFirst (s : State) (n : Nat) : Bool :=
  match stepAp s with
  | some m => decide (m ≤ n)
  | none => false

/-- COMMIT_APPLY (R360): a pending commit that is no membership commit applies in the first alignment period that
allows it. -/
def commitApply (s : State) : State :=
  let n := commitAp s s.commit.snapshot s.commit.when'
  if rd s F.cm_STATE 0 0 = 2 ∧ !s.commit.setPending ∧ !rdb s F.cm_MEMBERSHIP 0 0 ∧ !stepFirst s n then applyCommit (advanceTo (32 * n) s)
  else s

/-- COMMIT_APPLY. -/
def execCommitApply (s : State) : Host.Outcome State Fault Refusal := .next (commitApply s)

/-- The step-boundary set is empty. Where it was itself the pending commit, STATE and RESULT say how that ended (R361, R365). -/
def endSet (st res : Nat) (s : State) : State :=
  let s := if s.commit.setPending then setCommit st res s else s
  setb F.cm_STEP_SET_HELD 0 0 false
    { s with commit := { s.commit with stepSet := [], setPending := false, setAtFrame := false } }

/-- The step-boundary set fails as a whole and is discarded (R361). -/
def failSet (r : Reject) (s : State) : State :=
  endSet 4 4 (setb F.cm_STEP_SET_FAILED 0 0 true (wr F.cm_REJECT_INFO 0 0 r.info (sat F.cm_COMMITS_FAILED 0 0 1 s)))

/-- The step-boundary set is checked and applied as a whole in the alignment period that begins now, or discarded
(R361). -/
def applySet (s : State) : State :=
  let fs := s.commit.stepSet
  match checkCommit fs 2 s with
  | some r => failSet r s
  | none => endSet 3 0 (applyFields fs (noteApplied s))

/-- STEP_SET_APPLY (R361): the held set applies at a package frame boundary after a step commit, or as an immediate
commit while no program runs. -/
def stepSetApply (s : State) : State :=
  match setAp s with
  | some n => applySet (advanceTo (32 * n) s)
  | none => s

/-- STEP_SET_APPLY. -/
def execStepSetApply (s : State) : Host.Outcome State Fault Refusal := .next (stepSetApply s)

end Sys2Proof.Machine
end

