-- ==== Sys2Proof/Machine/Send.lean ====
section
/-! DEFINITION. The exchange commands of the exchange sequencer but DELTA_BCAST (R182, R229 to R234, R251, R308). -/

namespace Sys2Proof.Machine

open Sys2Proof

/-- A contribution goes to the owner of its bucket: the device's own adders, which take it as one received (R235), or a
message. -/
def toOwner (x : XOp) (s : State) : State :=
  let o := bOwner s x.bucket
  if o = ownRank s then takeOp x.opcode x (ownerTake x (nowNs s)) s
  else (sendOp o typeAcc x s).2

/-- The operations of a send, data first. -/
def SendRec.all (r : SendRec) (s : State) : List XOp := r.ops s 0 (2 ^ 32) ++ r.ends s 0 (2 ^ 32)

/-- The operations of a send go to the owner of its bucket (R229 to R232). -/
def sendOwner (r : SendRec) (s : State) : State :=
  let s := modSends (·.id == r.id) (fun r => { r with sentTo := bOwner s r.bucket, refused := [] }) s
  (r.all s).foldl (fun s o => toOwner o s) s

/-- This device's first sendings of a bucket go to its owner, again (R234, R251, R289). -/
def resendOwn (b : Nat) (s : State) : State :=
  (s.job.sends.filter fun r => r.bucket == b && r.op != 3).foldl (fun s r => sendOwner r s) s

/-- A device that this device takes for the owner answers with REPLY code 0x2: the operation it answers is sent to it again,
for its part of the commit that makes it the owner is under way (R251). Where a data operation and an end operation have the
same FIRST and COUNT, the answers to them are taken in turn. A send that has gone to another owner since is not sent again;
one that the commit of this device will give another owner is sent whole then (DEDUCED, log 156). -/
def resendMoved (x : XOp) (s : State) : State :=
  (s.job.sends.filter fun r => r.bucket == x.bucket && r.op != 3 && r.sentTo == x.rank).foldl (fun s r =>
    let k := (r.refused.filter fun p => p == (x.first, x.count)).length
    let os := (r.all s).filter fun o => o.first == x.first && o.count == x.count
    match os[k % os.length]? with
    | some o => toOwner o (modSends (·.id == r.id) (fun r => { r with refused := r.refused ++ [(x.first, x.count)] }) s)
    | none => s) s

/-- What a send command keeps (R234), before its flags are known. A SEND_TOPK covers the bucket from its ELEM_BASE to the
end (DEDUCED, log 29). Where the agreed table is not valid, or the bucket is ordered only, a send acts as the ordered form
(R228). -/
def sendRec (x : Ctx) (cmd : Cmd) (op : Nat) (s : State) : SendRec :=
  let b := cmd.xBucket
  let n := xCount x cmd
  let first := x.elemBase cmd
  let r : SendRec :=
    { id := s.opCount, die := x.die, tag := x.tag, op := op, cmd := cmd, ctx := x, bucket := b, first := first, count := n
      ordered := op == 3 || (bx s b).unbuilt || bMode s b == 3, nonfinite := false, overflow := false, span := n }
  if r.compacted s then { r with span := bElems s b - first } else r

/-- What a send command meets as it converts its elements (R233). -/
def sendFlags (r : SendRec) (s : State) : Fl :=
  let each (i : Nat) : Calc Unit := do
    let v := r.val s i
    noteNonfinite (!f32Finite v || !s16Finite (r.src s i))
    if !r.ordered && r.op != 2 then
      let _ ← r.b8 s i (if r.op = 1 then r.pos s i else r.first + i)
    else pure ()
  (((List.range r.count).forM each).run {}).2

/-- The residual writes of a send command (R228, R230, R231), and what they meet. An S16 overflow in them counts as an
overflowed element of the command and in its token's status, and not in its contribution's flag (R44, R233) (DEDUCED, log 141). -/
def sendResidual (r : SendRec) (s : State) : Calc (List WriteBack) :=
  let put (plane p : Nat) (v : S16) : WriteBack := ⟨cell memSpace (residAddr s r.bucket plane p), s16Le v⟩
  if r.op = 1 then
    (List.range r.count).filterMapM fun i => do
      let p := r.pos s i
      let m := (r.b8 s i p).val
      if r.ordered then return some (put 0 p 0#16)
      else if m = 0x80#8 then return none
      else
        let d := unitVal m.toInt (agreedExp s r.bucket (p / bBlock s r.bucket))
        let v ← f32ToS16 .ne ((fsub (s16ToF32 (r.src s i)) d).val)
        return some (put 0 p v)
  else if r.op = 2 then
    (List.range r.count).mapM fun i => do
      let p := r.first + i
      let v := r.signV s i
      if r.ordered || !f32Finite v then return put (r.ctx.step % 2) p 0#16
      else
        let d := unitVal (if f32Neg v then -1 else 1) (agreedExp s r.bucket (p / bBlock s r.bucket))
        let w ← f32ToS16 .ne ((fsub v d).val)
        return put (r.ctx.step % 2) p w
  else return []

/-- Every value that a send command reads was ±0 so far in the step for its layer, or not (R267): the source, and for
SEND_SIGN the residual of the step before. -/
def noteLayer (r : SendRec) (s : State) : State :=
  if r.op = 3 then s
  else
    let l := r.ctx.layer r.cmd
    let zero := (List.range r.count).all fun i => (r.src s i).toNat % 2 ^ 15 == 0 &&
      (r.op != 2 || (r.oldResid s i).toNat % 2 ^ 15 == 0)
    modJob (fun j => { j with layers := nmSet l (nmGet true l j.layers && zero) j.layers }) s

/-- The tracker entry of an exchange command: it has no static latency (R208). -/
def xOpEntry (x : Ctx) (cmd : Cmd) (f : Fl) (fmt extent : Nat) : PendingOp :=
  { die := x.die, tag := x.tag, gen := x.gen, land := none, landed := false
    token := resultToken x.tag x.gen f fmt extent
    produce := if cmd.produceEn then some (cmd.produceDie, cmd.produceQueue) else none
    notify := cmd.notify, writes := [], larder := [], tags := [], counts := [] }

/-- Issues an exchange command: `act` starts it, given its issuer, unless the tracker is full (R198). -/
def xIssue (q : SeqId) (t : Nat) (act : Ctx → State → State) (s : State) : State :=
  let x := ctxOf s q
  let pc := pcIndex s q
  let s' := if 32768 ≤ trackerCount s q.die then guardFault q.die x.tag x.gen 4 0 (seqDieCode q) 0 0 s else act x s
  setPc q (pc + 1) (noteIssue q t s')

/-- A send command starts: its source is kept, its operations go to the owner (R229 to R234). -/
def startSend (q : SeqId) (cmd : Cmd) (op t : Nat) (x : Ctx) (s : State) : State :=
  let r := sendRec x cmd op s
  let reads := (xSrc x cmd).ranges r.count ++ (if r.compacted s then [⟨(xAux x cmd).space, (xAux x cmd).base, 4 * r.count⟩] else [])
  let f := sendFlags r s
  let (ws, g) := if bucketDefined s r.bucket then (sendResidual r s).run {} else ([], {})
  let r := { r with nonfinite := f.nonfinite || bitOf (rd s F.sq_STICKY q.die q.num) 0, overflow := f.overflow }
  let f := { f with
    nonfinite := r.nonfinite, overflow := f.overflow || g.overflow, unders := f.unders + g.unders, overs := f.overs + g.overs }
  let u := unitOf 0x41 q.die
  let p := xOpEntry x cmd f (if op = 3 then 1 else 0) 0
  let p := { p with
    gate := false, bucket := some r.bucket, writes := ws, overs := f.overs, tid := x.tid cmd
    counts := [⟨F.ex_OVERFLOW_ELEMS, u, 0, f.overs⟩, ⟨F.ex_UNDERFLOWS, u, 0, f.unders⟩] ++ layerCounts x cmd f }
  let s := reportReads x.tag reads (guardReads q x.tag x.gen t reads s)
  let s := modJob (fun j => { j with sends := j.sends ++ [r] }) (track p (noteLayer r s))
  if isMember s && bucketDefined s r.bucket && !exchangeStopped s then
    let s := sendOwner r s
    let s := ownPulls r.bucket (servePulls s)
    if r.op = 3 && (bx s r.bucket).final then noticeGates r.bucket s else s
  else s

/-- A send command (R171). -/
def sendCmd (q : SeqId) (op : Nat) (s : State) : State :=
  streamCmd q 7 op (fun c t _ s => xIssue q t (startSend q c op t) s) s

/-- SEND_DENSE (R229). -/
def execSendDense (q : SeqId) (s : State) : Host.Outcome State Fault Refusal := .next (sendCmd q 0 s)

/-- SEND_TOPK (R230). -/
def execSendTopk (q : SeqId) (s : State) : Host.Outcome State Fault Refusal := .next (sendCmd q 1 s)

/-- SEND_SIGN (R231). -/
def execSendSign (q : SeqId) (s : State) : Host.Outcome State Fault Refusal := .next (sendCmd q 2 s)

/-- SEND_ORDERED (R232). -/
def execSendOrdered (q : SeqId) (s : State) : Host.Outcome State Fault Refusal := .next (sendCmd q 3 s)

/-- A BUCKET_WAIT starts: it ends with the bucket's first notice of the step (R251). -/
def startWait (cmd : Cmd) (x : Ctx) (s : State) : State :=
  let b := cmd.xBucket
  let p := xOpEntry x cmd {} 0xF 0
  let s := track { p with gate := false, bucket := some b, layer := some (x.layer cmd), tid := x.tid cmd } s
  if (bx s b).noticed then noticeGates b s else s

/-- BUCKET_WAIT (R251). -/
def execBucketWait (q : SeqId) (s : State) : Host.Outcome State Fault Refusal :=
  .next (streamCmd q 7 6 (fun c t _ s => xIssue q t (startWait c) s) s)

/-- REMOTE_WRITE (R251, R308): COUNT elements of SRC, as bytes, to RADDR of rank PEER, in messages of 8,192 bytes;
poisoned words travel as poisoned (R382). -/
def startRemoteWrite (q : SeqId) (cmd : Cmd) (t : Nat) (x : Ctx) (s : State) : State :=
  let d := xSrc x cmd
  let n := xCount x cmd * elemBytes d.fmt
  let peer := bits cmd.w3 0 16
  let raddr := bits cmd.w3 16 48
  let r : Range := ⟨d.space, d.base, n⟩
  let s := reportReads x.tag [r] (guardReads q x.tag x.gen t [r] s)
  let f : Fl := { nonfinite := !(poisonedWords s d.space d.base n).isEmpty }
  let p := { xOpEntry x cmd f 0xF (ceilDiv n 64) with counts := layerCounts x cmd f }
  if peer = ownRank s && isMember s then
    let s := (pieces 8192 0 n).foldl (fun s o => remoteStore (raddr + o.1) (readBytes s d.space (d.base + o.1) o.2)
      (badOffsets s d.space (d.base + o.1) o.2) s) s
    track p (cellarStruck s)
  else
    let (ws, s) := (pieces 8192 0 n).foldl (fun (acc : List (Nat × Nat) × State) o =>
      let s := acc.2
      let (w, s) := sendWrite peer (raddr + o.1) (stepNo s) d.space (d.base + o.1) o.2 s
      (acc.1 ++ w.toList, s)) ([], s)
    track { p with gate := (serialOf s peer).isSome, awaits := ws } s

/-- REMOTE_WRITE. -/
def execRemoteWrite (q : SeqId) (s : State) : Host.Outcome State Fault Refusal :=
  .next (streamCmd q 7 5 (fun c t _ s => xIssue q t (startRemoteWrite q c t) s) s)

end Sys2Proof.Machine
end

