-- ==== Sys2Proof/Machine/Update.lean ====
section
/-! DEFINITION. The weight update (R255 to R260), votes and decisions (R261, R262), the detectors of training health
(R42, R264 to R268), the pantry refresh (R15) and the start of the drift check (R16). -/

namespace Sys2Proof.Machine

open Sys2Proof

/-! ### Delta application (R260) -/

/-- The result of one delta element on the current master at a position (R257, R260). -/
def deltaElem (s : State) (b pos : Nat) (m : Byte) (ex : Nat) : S16 :=
  if m = 0x80#8 then s16Nan
  else
    let d := (b8ToF32 m ex).val
    let x := (fadd (s16ToF32 (readS16 s memSpace (masterAddr s curMaster b pos))) d).val
    let r := Rounding.at { grad := true, step := stepNo s, kind := 6, inst := uMasterInst s b, tid := uMasterTid s b } pos
    (f32ToS16 r x).val

/-- The bucket's update may be complete on this member (R261). -/
def checkUpdated (b : Nat) (s : State) : State :=
  let x := bx s b
  if !x.updated && deltasDone s b x then
    refreshPending (sat F.ex_DELTAS_APPLIED (serveInst s b) 0 1 (modBx b (fun x => { x with updated := true }) s))
  else s

/-- A member applies a DELTA operation to its alternate master half. -/
def applyDelta (x : XOp) (s : State) : State :=
  let b := x.bucket
  let bs := x.deltaBlock
  let ys := (List.range x.count).map fun k =>
    deltaElem s b (x.first + k) (x.data.getD (x.deltaExps + k) 0#8) (x.data.getD (k / bs) 0#8).toNat
  let cur := masterAddr s curMaster b x.first
  let alt := masterAddr s altMaster b x.first
  let s := partReport cur (2 * x.count) s
  let s := viewReport memSpace alt (2 * x.count) none (storeMem alt (ys.flatMap s16Le) s)
  let bad := (ys.filter fun y => !s16Finite y).length
  let i := serveInst s b
  let s := if bad = 0 then s else
    let s := sat F.ex_MASTER_NONFINITE i 0 bad (setb F.ex_UPDATE_NONFINITE_SEEN i 0 true s)
    modJob (fun j => { j with updNonfinite := true }) s
  let y := bx s b
  let seen := y.applied.contains (x.first, x.count)
  checkUpdated b (setBx b { y with
    applied := if seen then y.applied else y.applied ++ [(x.first, x.count)]
    lastSeen := y.lastSeen || bitOf x.flags 0 } s)

/-! ### DELTA_BCAST (R257 to R259, R273, R297) -/

/-- The weight change at index `i` of a DELTA_BCAST. -/
def deltaSrc (x : Ctx) (cmd : Cmd) (s : State) (i : Nat) : F32 :=
  let d := xSrc x cmd
  readF32 s d.space (d.base + 4 * i)

/-- `[a, b)` cut at multiples of `n`: starts and lengths. -/
def alignedPieces (n a b : Nat) : List (Nat × Nat) :=
  (pieces n (a / n * n) b).map fun p => (max p.1 a, p.1 + p.2 - max p.1 a)

/-- The DELTA operations of a DELTA_BCAST (R258, R259), without LAST, and what their conversions meet: delta blocks begin
at multiples of their size from bucket position 0. -/
def deltaOps (x : Ctx) (cmd : Cmd) (s : State) : Calc (List XOp) := do
  let b := cmd.xBucket
  let first := x.elemBase cmd
  let blk := (xSrc x cmd).blk
  let bs := blockSize blk
  let rnd (p : Nat) : Rnd := Rounding.at
    { grad := true, step := x.step, kind := 5, inst := cmd.streamInst, tid := x.tid cmd } p
  let cuts := (pieces 7680 (first / bs * bs) (first + xCount x cmd)).map fun p => (max p.1 first, p.1 + p.2 - max p.1 first)
  (cuts.filter (·.2 != 0)).mapM fun pc => do
    let es ← (alignedPieces bs pc.1 (pc.1 + pc.2)).mapM fun g =>
      encodeBlock rnd none ((List.range g.2).map fun k => deltaSrc x cmd s (g.1 + k - first)) g.1
    let exps := es.map fun e => BitVec.ofNat 8 e.1
    let ms := es.flatMap (·.2)
    let pad := List.replicate (ceilDiv exps.length 8 * 8 - exps.length) 0#8
    return mkOp s 0xA b pc.1 pc.2 (2 * b2n (ms.contains 0x80#8) + 4 * blk) (exps ++ pad ++ ms)

/-- The moment planes of a DELTA_BCAST, rounded to S16 and written through the alternate state view (R258). A moment of a
finite value beyond the S16 range is an overflow alone (R44); one of a NaN or an infinity has become non-finite (R258)
(DEDUCED, log 115). -/
def momentWrites (x : Ctx) (cmd : Cmd) (s : State) : Calc (List (Nat × List Byte)) := do
  let b := cmd.xBucket
  let first := x.elemBase cmd
  let n := xCount x cmd
  let d := xAux x cmd
  (List.range (uMoments s b)).mapM fun j => do
    let base := d.base + ceilDiv (4 * n * j) 64 * 64
    let ys ← (List.range n).mapM fun i => do
      let r := Rounding.at { grad := true, step := x.step, kind := 7, inst := uMomentInst s b, tid := uMomentTid s b + j }
        (first + i)
      f32ToS16 r (readF32 s d.space (base + 4 * i))
    return (momentAddr s altState b j first, ys.flatMap s16Le)

/-- An owner may send deltas of a bucket: a partner with a valid cellar has acknowledged the completion message, and the
pages sent to joining ranks in the step are acknowledged (R273, R295). -/
def mayDelta (s : State) (b : Nat) : Bool :=
  let x := bx s b
  let partnerOk := match partnerOfBucket s b with
    | some p => !x.cellarValid || x.shards.any fun t => t.rank == p && (match t.done with
        | some w => !outstanding s w
        | none => false)
    | none => true
  partnerOk && !walkBusy s b (·.master)

/-- The owner's own DELTA operation, which it takes as every member does (R235, R258). -/
def ownDelta (o : XOp) (s : State) : State :=
  if badOp s o then sat F.ex_BAD_OPS (serveInst s o.bucket) 0 1 s else applyDelta o s

/-- Held DELTA operations of a bucket leave, to this device too; their commands wait for the acknowledgements (R258,
R273). -/
def flushDeltas (b : Nat) (s : State) : State :=
  let held := (bx s b).heldDeltas
  if held.isEmpty || !mayDelta s b then s
  else
    let s := held.foldl (fun s h =>
      let (ws, s) := sendAll typeDelta h.2 (ownDelta h.2 s)
      modOp h.1 (fun p => { p with awaits := p.awaits ++ ws }) s) s
    let s := modBx b (fun x => { x with heldDeltas := [] }) s
    held.foldl (fun s h => modOp h.1 (fun p => { p with gate := true }) s) s

/-- Marks the operation that brings a bucket's sent elements to ELEMENTS with LAST (R259). -/
def markLast (b : Nat) (o : XOp) (s : State) : XOp × State :=
  let n := (bx s b).deltaSent + o.count
  let s := modBx b (fun x => { x with deltaSent := n }) s
  (if bElems s b ≤ n then { o with w1 := splice o.w1 48 1 1 } else o, s)

/-- The deltas of the owner's operation `id` wait to go to every member (R258); in mirror mode every member applies its own
and sends none (R297). -/
def ownDeltas (id b : Nat) (os : List XOp) (send : Bool) (s : State) : State :=
  os.foldl (fun s o =>
    let (o, s) := markLast b o s
    if send then modBx b (fun x => { x with heldDeltas := x.heldDeltas ++ [(id, o)] }) s else ownDelta o s) s

/-- A DELTA_BCAST starts, by the role of the device for its bucket (R258) (DEDUCED, log 115). -/
def startDelta (q : SeqId) (cmd : Cmd) (t : Nat) (x : Ctx) (s : State) : State :=
  let b := cmd.xBucket
  let n := xCount x cmd
  let mirror := rdb s F.rs_MIRROR 0 0 && isMember s && bucketDefined s b
  let owner := ownerHere s b
  let acts := owner || partnerHere s b || mirror
  let d := xSrc x cmd
  let a := xAux x cmd
  let reads : List Range := if acts then
      [⟨d.space, d.base, 4 * n⟩, ⟨a.space, a.base, ceilDiv (4 * n) 64 * 64 * uMoments s b⟩]
    else []
  let s := reportReads x.tag reads (guardReads q x.tag x.gen t reads s)
  let (os, f) := if owner || mirror then (deltaOps x cmd s).run {} else ([], {})
  let (ms, g) := if acts then (momentWrites x cmd s).run {} else ([], {})
  let f : Fl := { nonfinite := f.nonfinite || g.nonfinite, overflow := g.overflow, overs := g.overs, unders := f.unders + g.unders }
  let p := xOpEntry x cmd f 0 (if owner && !mirror then n else 0)
  let p := { p with
    gate := os.isEmpty || mirror || exchangeStopped s, bucket := some b, overs := f.overs, tid := x.tid cmd
    counts := [⟨F.ex_OVERFLOW_ELEMS, unitOf 0x41 q.die, 0, f.overs⟩, ⟨F.ex_UNDERFLOWS, unitOf 0x41 q.die, 0, f.unders⟩] ++
      layerCounts x cmd f }
  let id := s.opCount
  let s := track p s
  if acts then
    let rec' : SendRec :=
      { id := id, die := x.die, tag := x.tag, op := 4, cmd := cmd, ctx := x, bucket := b, first := x.elemBase cmd, count := n
        ordered := owner, nonfinite := false, overflow := false, span := n }
    let s := modJob (fun j => { j with deltas := j.deltas ++ [rec'] }) s
    let s := ms.foldl (fun s w => viewReport memSpace w.1 w.2.length (some x.tag) (storeMem w.1 w.2 s)) s
    let s := modBx b (fun y => { y with momentsHere := true }) s
    flushDeltas b (ownDeltas id b os (!mirror) s)
  else s

/-- DELTA_BCAST (R258). -/
def execDeltaBcast (q : SeqId) (s : State) : Host.Outcome State Fault Refusal :=
  .next (streamCmd q 7 4 (fun c t _ s => xIssue q t (startDelta q c t) s) s)

/-! ### The detectors at the vote (R264, R265, R267, R268) -/

/-- k × |E| + E as R265 forms it, with k = SPIKE_K / 256. -/
def spikeLimit (s : State) : F32 :=
  let e : F32 := BitVec.ofNat 32 (rd s F.he_EWMA 0 0)
  let k := (mkF32 false (rd s F.he_SPIKE_K 0 0) 1 (-8)).val
  (fadd e (fmul k (fabs e).val).val).val

/-- A spike of cause `c` (R265). -/
def noteSpike (c : Nat) (s : State) : State :=
  let s := sat F.he_SPIKES 0 0 1 (setb F.he_SPIKE_SEEN 0 0 true (wr F.he_SPIKE_CAUSE 0 0 c s))
  let s := wr F.he_SPIKE_STEP 0 0 (stepNo s) (wr F.he_SPIKE_LOSS 0 0 (rd s F.he_LAST_LOSS 0 0)
    (wr F.he_SPIKE_EWMA 0 0 (rd s F.he_EWMA 0 0) s))
  modJob (fun j => { j with spiked := true }) s

/-- The spike test, when the member votes (R265). -/
def spikeTest (s : State) : State :=
  if !rdb s F.he_SPIKE_EN 0 0 then s
  else if !s.lossSampled then sat F.he_NO_LOSS 0 0 1 (setb F.he_NO_LOSS_SEEN 0 0 true s)
  else
    let l : F32 := BitVec.ofNat 32 (rd s F.he_LAST_LOSS 0 0)
    if !f32Finite l then noteSpike 2 s
    else if rd s F.he_WARMUP 0 0 ≤ rd s F.he_SAMPLES 0 0 ∧ fcmp 4 l (spikeLimit s) then noteSpike 1 s
    else s

/-- STARVED_LAYERS and FIRST_STARVED (R270). -/
def refreshStarved (s : State) : State :=
  let ls := (List.range 1024).filter fun l => rd s F.he_STARVED 0 l == 1
  wr F.he_STARVED_LAYERS 0 0 ls.length (wr F.he_FIRST_STARVED 0 0 (ls.head?.getD 0) s)

/-- STARVED rises for the layers whose run the step brings to STARVE_LIMIT (R267, R268) (DEDUCED, log 76). -/
def starveTest (s : State) : State :=
  let lim := rd s F.he_STARVE_LIMIT 0 0
  let up := (s.job.layers.filter fun kv => kv.2 && lim != 0 && decide (lim ≤ rd s F.he_ZERO_RUN 0 kv.1 + 1) &&
    rd s F.he_STARVED 0 kv.1 == 0).map (·.1)
  if up.isEmpty then s
  else
    let s := up.foldl (fun s l => wr F.he_STARVED 0 l 1 s) s
    modJob (fun j => { j with starvedNow := true }) (refreshStarved (setb F.he_STARVED_SEEN 0 0 true s))

/-! ### Votes and decisions (R261, R262) -/

/-- Sets VOTE_SENT of all four pages. -/
def setVoteSent (v : Bool) (s : State) : State := (List.range 4).foldl (fun s d => setb F.ex_VOTE_SENT d 0 v s) s

/-- A member takes the leader's decision (R261), and a joining unit, whose masters go from step to step as the members' do
(R295) (DEDUCED, log 66). -/
def onDecision (step at' : Nat) (vetoed : Bool) (s : State) : State :=
  if step = stepNo s ∧ inView s ∧ !exchangeStopped s then
    modJob (fun j => { j with decision := some ⟨step, at', vetoed⟩ }) s
  else s

/-- The leader sends its decision once every member's vote is in (R261), to joining units too (R295) (DEDUCED, log 66). -/
def tryDecide (s : State) : State :=
  let ranks := memberRanks s
  let vs := s.job.votes
  if isMember s && leaderRank s == ownRank s && s.job.decision.isNone && !ranks.isEmpty && !exchangeStopped s &&
      (ranks.all fun r => vs.any fun v => v.rank == r) then
    let n := apAtNs s (nowNs s + 1000 * max 1 (rd s F.ex_COMMIT_LEAD 0 0)) (nowAp s + 1)
    let t := apNs s n
    let veto := (vs.filter fun v => ranks.contains v.rank).any fun v => v.exchangeVeto || v.nonfinite || v.health
    let s := (otherRanks s).foldl (fun s r =>
      (sendReliable r typeMember (memberBytes 2 [stepNo s, t, b2n veto] []) [] s).2) s
    onDecision (stepNo s) t veto s
  else s

/-- The leader receives a vote (R261). -/
def onVote (rank step flags : Nat) (s : State) : State :=
  if step = stepNo s then
    let v : Vote := ⟨rank, bitOf flags 0, bitOf flags 1, bitOf flags 2⟩
    tryDecide (modJob (fun j => { j with votes := (j.votes.filter fun w => w.rank != rank) ++ [v] }) s)
  else s

/-- Every bucket's update is complete on this member, and its step may commit. -/
def voteDue (s : State) : Bool :=
  isMember s && !exchangeStopped s && !s.programDied && !rdb s F.ex_VOTE_SENT 0 0 && bucketCount s != 0 &&
    (List.range (bucketCount s)).all fun b => (bx s b).updated

/-- The flags of this member's vote. -/
def voteFlags (s : State) : Nat :=
  b2n (stepVeto s) + 2 * b2n s.job.updNonfinite + 4 * b2n (rdb s F.he_HEALTH_VETO_NOW 0 0)

/-- The vote goes to the leader. -/
def sendVote (s : State) : State :=
  if leaderRank s = ownRank s then onVote (ownRank s) (stepNo s) (voteFlags s) s
  else (sendReliable (leaderRank s) typeMember (memberBytes 1 [stepNo s, voteFlags s] []) [] s).2

/-- The member votes: the detectors are tested first (R264, R268); a shelf copy holds the vote (R276). -/
def castVote (s : State) : State :=
  if !voteDue s then s
  else if s.job.voteHeld then
    if s.job.voteWaiting then s else sat F.rs_VOTE_HOLDS 0 0 1 (modJob (fun j => { j with voteWaiting := true }) s)
  else
    let s := starveTest (spikeTest s)
    let l := if s.lossSampled then some (rd s F.he_LAST_LOSS 0 0) else none
    let s := modJob (fun j => { j with voteLoss := l }) s
    let hv := (rdb s F.he_SPIKE_VETO 0 0 && s.job.spiked) || (rdb s F.he_STARVE_VETO 0 0 && s.job.starvedNow)
    let s := if hv then sat F.he_HEALTH_VETOES 0 0 1 (setb F.he_HEALTH_VETO_NOW 0 0 true s) else s
    sendVote (setVoteSent true (modJob (fun j => { j with voteWaiting := false }) s))

/-- What follows from an event of the exchange: shards and held deltas leave, pulls are served, the vote goes out. -/
def settle (s : State) : State :=
  let s := servePulls s
  let s := (List.range (bucketCount s)).foldl (fun s b => flushDeltas b (settleShards b s)) s
  castVote s

/-! ### Health commands (R42, R265, R267) -/

/-- The mixer self-test: both vectors of R42. -/
def mixerTest (s : State) : State :=
  let ok := decide (mixer 0 0 0 0 = (0x7F9019DC#32, 0x80308352#32)) && decide (mixer 1 0 0 0 = (0x6A774A4D#32, 0xFD3F986F#32))
  let s := setb F.he_MIXER_OK 0 0 ok (setb F.he_MIXER_FAIL 0 0 (!ok) s)
  if ok then s else wrU F.com_FAULT (unitOf 0x60 0) 0 1 s

/-- MIXER_TEST (R42, R270). -/
def execMixerTest (s : State) : Host.Outcome State Fault Refusal :=
  .next (if livePage s (unitOf 0x60 0) then mixerTest (pageAccess (unitOf 0x60 0) s) else s)

/-- RUN_CLEAR (R267): ZERO_RUN and STARVED of every layer. -/
def runClear (s : State) : State :=
  refreshStarved { s with flds := s.flds.filter fun kv =>
    !(kv.1.fid == F.he_ZERO_RUN.fid || kv.1.fid == F.he_STARVED.fid) }

/-- RUN_CLEAR. -/
def execRunClear (s : State) : Host.Outcome State Fault Refusal :=
  .next (if livePage s (unitOf 0x60 0) then runClear (pageAccess (unitOf 0x60 0) s) else s)

/-- DETECTOR_RESET (R265). -/
def execDetectorReset (s : State) : Host.Outcome State Fault Refusal :=
  .next (if livePage s (unitOf 0x60 0) then detectorReset (pageAccess (unitOf 0x60 0) s) else s)

/-! ### The pantry refresh and the drift check (R15, R16) -/

/-- The pantry of an array at the masters of the current epoch: outlier rows from the addresses that `rows` gives by
logical array × 8 + slot, bypass columns from where they were loaded; sum registers anew (R15, R51). -/
def refreshArray (die l p : Nat) (rows : List (Nat × Nat)) (s : State) : State :=
  let x := arrX s die p
  let outs := (marks s die p).zipIdx.foldl (fun m om => match om.1, smFind (l * 8 + om.2) rows with
    | some _, some a => nmSet om.2 (mastersAt s a) m
    | _, _ => m) []
  let cols := x.cols.map fun kc => if kc.2.loaded then (kc.1, pantryEntry s die p kc.2.col kc.2.addr) else kc
  let s := (marks s die p).zipIdx.foldl (fun s om => match om.1, smFind (l * 8 + om.2) rows with
    | some _, some a => partReport a 1024 s
    | _, _ => s) s
  let s := cols.foldl (fun s kc => if kc.2.loaded then partReport kc.2.addr 1024 s else s) s
  setArrX die p { x with outRows := outs, cols := cols } s

/-- The permanent columns of an array whose masters are loaded enter bypass, as the limit allows (R105). -/
def bypassPermanent (die p : Nat) (s : State) : State :=
  (arrX s die p).cols.foldl (fun s kc =>
    if rdA s F.ag_PERMANENT die p kc.2.col = 1 then bypassLoaded die p kc.2.col s else s) s

/-- A refresh lists the masters of every outlier row of the group, so that no array is left with values of two epochs
(R15). -/
def rowsGiven (s : State) (inst : Nat) (rows : List (Nat × Nat)) : Bool :=
  (groupArrays s inst).zipIdx.all fun pl => (marks s (inst / 16) pl.1).zipIdx.all fun om =>
    om.1.isNone || (smFind (pl.2 * 8 + om.2) rows).isSome

/-- A product of the group has its first integration period in alignment period `ap`. -/
def productBegun (s : State) (inst ap : Nat) : Bool :=
  (groupArrays s inst).any fun p =>
    let x := arrX s (inst / 16) p
    x.fgFrom == ap && decide (ap < x.fgUntil)

/-- The alignment period of the last step commit has ended before `ap` begins (R263). -/
def afterCommit (s : State) (ap : Nat) : Bool := match s.job.stepAp with
  | some n => decide (n < ap)
  | none => true

/-- PANTRY_REFRESH (R15, R169): group `inst`, between two product slots: at the start of a slot of its frame, before a
product that starts there and after every commit due by then. The completion token goes to queue 16g + 15 of the array
die while the group's sequencer runs (DEDUCED, log 78). -/
def pantryRefresh (inst ap : Nat) (rows : List (Nat × Nat)) (s : State) : State :=
  if inst < 256 ∧ refreshOwed s inst ∧ nextAp s ≤ ap ∧ ((slotAt s inst ap).map (·.1) == some ap) ∧ rowsGiven s inst rows ∧
      !productBegun s inst ap ∧ afterCommit s ap ∧ !changeDue s ap then
    let die := inst / 16
    let g := inst % 16
    let s := advanceTo (32 * ap) s
    let s := ((groupArrays s inst).zipIdx).foldl (fun s pl => refreshArray die pl.2 pl.1 rows s) s
    let s : State := { s with refreshed := nmSet inst (stepNo s) s.refreshed, refreshDue := s.refreshDue.filter (· != inst) }
    let s := (groupArrays s inst).foldl (fun s p => bypassPermanent die p s) s
    if seqBusy s ⟨die / 4, 89 + 16 * (die % 4) + g⟩ then
      portToken (8 + die) (16 * g + 15) (tokenWord (0xFD * 2 ^ 12) 0 false false false false 0xF 0) s
    else s
  else s

/-- PANTRY_REFRESH. -/
def execPantryRefresh (inst ap : Nat) (rows : List (Nat × Nat)) (s : State) : Host.Outcome State Fault Refusal :=
  .next (pantryRefresh inst ap rows s)

/-- τ of an array die in 1/256 level (R97, R115). -/
def driftThreshold (s : State) (die : Nat) : Nat :=
  match rd s F.ad_PRESET die 0 with
  | 0 => 256
  | 1 => 192
  | 2 => 128
  | _ => rd s F.ad_DRIFT_THRESH die 0

/-- `k × a ≤ b` for two values that are finite and not negative. -/
def extLe (k : Nat) (a b : Ext) : Bool :=
  match a, b with
  | .fin _ m e, .fin _ n e' =>
    let lo := min e e'
    decide (k * (m * 2 ^ (e - lo).toNat) ≤ n * 2 ^ (e' - lo).toNat)
  | _, _ => false

/-- The column scale of a programmed column: its applied scale times 2^e, as the image holds them (R92, R93, R98). -/
def programmedScale (s : State) (die l j : Nat) : Ext :=
  let a := rd s F.ag_IMAGE_BASE (16 * die + l / 64) 0 + 263360 * (l % 64) + 262144
  match s16Val (readS16 s memSpace (a + 2 * j)),
    foldExp (bits (readByte s memSpace (a + 1024 + j / 4)).toNat (2 * (j % 4)) 2) with
  | .fin neg m e, some k => .fin neg m (e + k)
  | v, some _ => v
  | _, none => .nan

/-- The fold exponents of column `j` that are valid for every consumer of its array, in rising order (R92). -/
def validExps (s : State) (die p j : Nat) : List (Int × Nat) :=
  let cons := match packageIdx s die p with
    | some i => consumers s [i]
    | none => []
  [((-1 : Int), 3), (0, 0), (1, 1)].filter fun ec =>
    cons.all fun c => (derivedGain (rdA s F.ag_ROW_GAIN_BASE c.1 c.2 j) ec.2).isSome

/-- The target scale of a column whose largest master magnitude is `m`, and whether its levels are then representable:
R90's of an unfolded column, and σ_L × 2^e of R92's target e of a folded one. -/
def targetScale (s : State) (die p j : Nat) (m : F32) : Ext × Bool :=
  if isFolded s die p then
    let at' (e : Int) : Ext := match s16Val (BitVec.ofNat 16 (rdA s F.ag_APPLIED_CUR die p j)) with
      | .fin neg a b => .fin neg a (b + e)
      | v => v
    let holds (e : Int) : Bool := match at' e with
      | .fin neg a b => extLe 1 (f32Val m) (.fin neg (15 * a) b)
      | _ => false
    let es := (validExps s die p j).map (·.1)
    match es.find? holds with
    | some e => (at' e, true)
    | none => (at' (es.getLast?.getD 0), false)
  else match f32Val m with
    | .fin _ a e => (s16Val (leastScale 15 a e), true)
    | v => (v, true)

/-- What the drift check finds of a column (R98). -/
inductive DriftOf where
  | passed
  | nonfinite
  | inBounds
  | queued (key : Nat)
  deriving DecidableEq, Repr

/-- The drift check of column `j` of a physical array that serves logical array `l`, with its masters at `addr` and `pad`
padding rows (R98). -/
def driftOf (s : State) (die p l pad j addr : Nat) : DriftOf :=
  let x := arrX s die p
  let lv := imageLevels s die l j
  let sc := programmedScale s die l j
  let rows := (List.range (512 - pad)).map fun i => (readS16 s memSpace (addr + 2 * i), lv.getD i 0)
  if inBypass s die p j || rdA s F.ag_PERMANENT die p j == 1 || x.write.any (·.col == j) then .passed
  else match (driftColumn sc rows).val with
    | none => .nonfinite
    | some (d, m) =>
      let tgt := targetScale s die p j m
      let tau := (mkF32 false (driftThreshold s die) 256 0).val
      if x.scaleLimited.contains j && !tgt.2 then .passed
      else if extLe 2 tgt.1 sc then .queued ((fmax d tau).val.toNat)
      else if 0 ≤ fcompare d tau then .queued d.toNat
      else .inBounds

/-- One column of the drift check: it is queued, or counted in NONFINITE_COLS, or left (R98, R99). -/
def driftStep (die p l pad : Nat) (s : State) (ja : Nat × Nat) : State :=
  let found := driftOf s die p l pad ja.1 ja.2
  let s := if found = .passed then s else partReport ja.2 (2 * (512 - pad)) s
  match found with
  | .queued key => queueColumn die p ja.1 key false s
  | .nonfinite => sat F.ag_NONFINITE_COLS (16 * die + l / 64) 0 1 s
  | _ => s

/-- DRIFT_CHECK (R16, R98, R99, R125): the check for the current epoch compares its next column, the first one where the epoch
is new. It starts after the period of a step commit and takes the logical arrays in order; an array whose last column is
compared reports the epoch in DRIFT_EPOCH (DESIGN CHOICE, log 118). -/
def driftCheck (s : State) : State :=
  match s.job.stepAp with
  | none => s
  | some n =>
    let s := advanceTo (32 * (n + 1)) s
    let e := rd s F.cm_EPOCH 0 0
    let k := match s.drift with
      | some (e', k) => if e' = e then k else 0
      | none => 0
    let die := k / 524288
    let l := k / 512 % 1024
    let j := k % 512
    if 16 ≤ die then s
    else
      let p := physOf s die l
      let s := driftStep die p l (Config.paddingRows die l) s (j, Config.columnMasters die l j)
      let s := { s with drift := some (e, k + 1) }
      if j = 511 then wrA F.ag_DRIFT_EPOCH die p 0 e s else s

/-- DRIFT_CHECK. -/
def execDriftCheck (s : State) : Host.Outcome State Fault Refusal := .next (driftCheck s)

end Sys2Proof.Machine
end

