-- ==== Sys2Proof/Machine/Epoch.lean ====
section
/-! DEFINITION. The step commit (R14, R226, R263, R265, R267), and what follows it on a member: re-cellaring that ends
(R274, R287), the CRC check (R275) and shelf images (R276 to R278). -/

namespace Sys2Proof.Machine

open Sys2Proof

/-! ### Page walks (R287, R288) -/

/-- Walks whose pages have all landed end with the commit: a cellar copy becomes valid, and is checked in the next step
(R287). -/
def finishWalks (s : State) : State :=
  let walked (w : PageWalk) : Bool := w.left.isEmpty && !(w.sent.any fun m => outstanding s (m.2.1, m.2.2))
  let done := s.job.walks.filter walked
  let s := modJob (fun j => { j with walks := j.walks.filter fun w => !done.contains w }) s
  let s := done.foldl (fun s w =>
    if w.master || !ownerHere s w.bucket || w.rank != bPartner s w.bucket then s
    else sat F.rs_RECELLARS 0 0 1 (modBx w.bucket (fun x => { x with cellarValid := true, crcDue := true, crcOwn := none }) s)) s
  let s := (List.range (bucketCount s)).foldl (fun s b =>
    let x := bx s b
    if partnerHere s b && !x.cellarValid && !x.landed.isEmpty &&
        decide (65536 * (walkPages s b false).length ≤ (x.landed.map (·.2)).sum) && !cellarPoisoned s b then
      modBx b (fun x => { x with cellarValid := true, crcDue := true, crcOwn := none, crcPeer := none, landed := [] }) s
    else s) s
  refreshCellar s

/-! ### Validity of cellar copies (R274) -/

/-- SCRUB (R380): the words it finds uncorrectable may lie in a cellar copy (R274) (DESIGN CHOICE, log 147). -/
def execScrub (mc singles doubles : Nat) (bad : List Nat) (s : State) : Host.Outcome State Fault Refusal :=
  .next (cellarStruck (scrub mc singles doubles bad s))

/-- The commit of a step whose reduced shard the partner did not receive ends a copy's validity, where the bucket was
updated; so does an uncorrectable word in the partner's copy (R274). -/
def cellarCommit (vetoed : Bool) (old s : State) : State :=
  let s := cellarStruck s
  (List.range (bucketCount s)).foldl (fun s b =>
    let x := bx old b
    if !x.cellarValid || rdb s F.rs_MIRROR 0 0 then s
    else if ownerHere s b then
      let got := match partnerOfBucket s b with
        | some p => x.shards.any fun t => t.rank == p && (match t.done with
            | some w => !outstanding s w
            | none => false)
        | none => false
      if vetoed || got then s else recellar b s
    else if partnerHere s b && !vetoed && !x.shardSeen then freshCellar b s
    else s) s

/-- Buckets that are lost (R292): where one is lost now, a member stops issue and needs a rollback. -/
def loseBuckets (lost : List Nat) (s : State) : State :=
  let news := lost.filter fun b => !(bx s b).lost
  let s := lost.foldl (fun s b => modBx b (fun x => { x with lost := true }) s) s
  let s := wr F.rs_LOST_BUCKETS 0 0 ((List.range (bucketCount s)).filter fun b => (bx s b).lost).length s
  if news.isEmpty || !isMember s then s
  else
    let s := setb F.rs_ROLLBACK_NEEDED 0 0 true (setb F.rs_SHARD_LOST_SEEN 0 0 true s)
    stopIssue { s with programDied := true }

/-- A page of the current state view of bucket `b` holds a word that a read has found uncorrectable (R381). -/
def statePoisoned (s : State) (b : Nat) : Bool :=
  (List.range (uMoments s b)).any fun j =>
    (poisonedWords s memSpace (momentAddr s curState b j 0) (2 * bElems s b)).any fun a => !unmetAt s memSpace a

/-- Owned buckets whose current state view holds an uncorrectable word and that have no valid cellar copy to rebuild it
from are lost (R381, R292) (DESIGN CHOICE, log 146). -/
def stateScan (s : State) : State :=
  let lost := (List.range (bucketCount s)).filter fun b =>
    ownerHere s b && !(bx s b).cellarValid && !rdb s F.rs_MIRROR 0 0 && statePoisoned s b
  if lost.isEmpty then s else loseBuckets lost s

/-! ### The CRC check (R275) -/

/-- The CRC-64 of a bucket's moment planes in the current state half. -/
def momentCrc (s : State) (b : Nat) : Nat :=
  (crc64 ((List.range (uMoments s b)).flatMap fun j => readBytes s memSpace (momentAddr s curState b j 0) (2 * bElems s b))).toNat

/-- The uncorrectable reads of a bucket's CRC (R381). -/
def momentReads (b : Nat) (s : State) : State :=
  (List.range (uMoments s b)).foldl (fun s j => partReport (momentAddr s curState b j 0) (2 * bElems s b) s) s

/-- The check of a bucket shared with a partner is due at the commit of epoch `e`; one still open is skipped. -/
def crcCommit (e : Nat) (s : State) : State :=
  let iv := rd s F.rs_CRC_INTERVAL 0 0
  (List.range (bucketCount s)).foldl (fun s b =>
    let x := bx s b
    let shared := (ownerHere s b || partnerHere s b) && x.cellarValid && !rdb s F.rs_MIRROR 0 0
    let s := if x.crcDue then
        sat F.rs_CRC_SKIPPED 0 0 1 (modBx b (fun x => { x with crcDue := false, crcOwn := none, crcPeer := none }) s)
      else s
    if shared && iv != 0 && e % iv == 0 then modBx b (fun x => { x with crcDue := true, crcOwn := none, crcPeer := none }) s
    else s) s

/-- The partner compares the two values of a bucket once it has both. -/
def crcCompare (b : Nat) (s : State) : State :=
  let x := bx s b
  match x.crcOwn, x.crcPeer with
  | some a, some c =>
    if !partnerHere s b || !x.crcDue then s
    else
      let s := modBx b (fun x => { x with crcDue := false, crcOwn := none, crcPeer := none }) s
      if a = c then sat F.rs_CRC_CHECKS 0 0 1 s
      else sat F.rs_CRC_MISMATCH 0 0 1 (setb F.rs_CRC_MISMATCH_SEEN 0 0 true (freshCellar b s))
  | _, _ => s

/-- The bytes of a CRC message: the epoch, then bucket and value in turn (R313). -/
def crcWords (e : Nat) (ps : List (Nat × Nat)) : List Nat := e :: ps.flatMap fun p => [p.1, p.2]

/-- CRC_COMPUTE_DONE (R275): the values of every bucket whose check is due; the owner sends its own. -/
def crcComputeDone (s : State) : State :=
  let s := cellarStruck s
  let due := (List.range (bucketCount s)).filter fun b =>
    (bx s b).crcDue && (bx s b).crcOwn.isNone && (ownerHere s b || partnerHere s b)
  let s := due.foldl (fun s b => momentReads b s) s
  let vals := due.map fun b => (b, momentCrc s b)
  let s := vals.foldl (fun s v => modBx v.1 (fun x => { x with crcOwn := some v.2 }) s) s
  let own := vals.filter fun v => ownerHere s v.1
  let s := (own.map fun v => bPartner s v.1).dedup.foldl (fun s p =>
    let mine := own.filter fun v => bPartner s v.1 == p
    (blocksOf 500 mine.length mine).foldl (fun s g =>
      (sendReliable p typeMember (memberBytes 3 (crcWords (rd s F.cm_EPOCH 0 0) g) []) [] s).2) s) s
  let s := own.foldl (fun s v => modBx v.1 (fun x => { x with crcDue := false, crcOwn := none }) s) s
  due.foldl (fun s b => crcCompare b s) s

/-- CRC_COMPUTE_DONE. -/
def execCrcComputeDone (s : State) : Host.Outcome State Fault Refusal := .next (crcComputeDone s)

/-! ### Shelf and storeroom images (R276 to R278) -/

/-- Bytes padded with zeros to a multiple of 64. -/
def pad64 (bs : List Byte) : List Byte := bs ++ List.replicate (ceilDiv bs.length 64 * 64 - bs.length) 0#8

/-- The planes of a bucket's record: masters, then each moment plane (R277). -/
def shelfPlanes (s : State) (b : Nat) : List Nat :=
  masterAddr s curMaster b 0 :: (List.range (uMoments s b)).map fun j => momentAddr s curState b j 0

/-- One bucket's record of a shelf image, with the device's role for it (R277). -/
def shelfRecord (s : State) (b role : Nat) : List Byte :=
  let n := 2 * bElems s b
  natLe 8 (b + role * 2 ^ 16 + uMoments s b * 2 ^ 18) ++ natLe 8 (bElems s b) ++
    (shelfPlanes s b).flatMap fun a => pad64 (readBytes s memSpace a n)

/-- Bytes of a bucket's record. -/
def recordBytes (s : State) (b : Nat) : Nat := 16 + (1 + uMoments s b) * (ceilDiv (2 * bElems s b) 64 * 64)

/-- The buckets a shelf image holds, with their roles: 1 those the device owns, 2 those it holds in its cellar (R271, R277). -/
def shelfRoles (s : State) : List (Nat × Nat) := (List.range (bucketCount s)).filterMap fun b =>
  if ownerHere s b then some (b, 1) else if partnerHere s b then some (b, 2) else none

/-- Bytes of the image: header and body. -/
def shelfBytes (s : State) : Nat :=
  64 + ((shelfRoles s).map fun r => recordBytes s r.1).sum

/-- The shelf image of epoch `e`, with the generation, rank and roles of its commit (R277) (DEDUCED, log 80). -/
def shelfImage (s : State) (e : Nat) (store : Bool) : List Byte :=
  let rs := s.job.stagingRoles
  let body := rs.flatMap fun r => shelfRecord s r.1 r.2
  natLe 8 e ++ natLe 8 (s.job.stagingGen + s.job.stagingRank * 2 ^ 32 + rs.length * 2 ^ 44) ++
    natLe 8 (rd s F.id_SERIAL 0 0) ++ natLe 8 body.length ++ natLe 8 (crc64 body).toNat ++ natLe 8 (b2n store) ++
    natLe 16 0 ++ body

/-- Offsets in the image of words that are poisoned where it is read from (R382). -/
def shelfBad (s : State) : List Nat :=
  (s.job.stagingRoles.foldl (fun (acc : Nat × List Nat) r =>
    let n := 2 * bElems s r.1
    (acc.1 + recordBytes s r.1, acc.2 ++ (shelfPlanes s r.1).zipIdx.flatMap fun ak =>
      (badOffsets s memSpace ak.1 n).map (· + acc.1 + 16 + ceilDiv n 64 * 64 * ak.2))) (64, [])).2

/-- The uncorrectable reads of the copy into staging (R381). -/
def shelfReads (s : State) : State :=
  s.job.stagingRoles.foldl (fun s r => (shelfPlanes s r.1).foldl (fun s a => partReport a (2 * bElems s r.1) s) s) s

/-- STAGING_BUSY: the region is in use (R276). -/
def refreshStaging (s : State) : State :=
  setb F.rs_STAGING_BUSY 0 0 (s.job.stagingEpoch.isSome || s.job.flashBusy || rdb s F.rs_STORE_READY 0 0) s

/-- The commit of epoch `e` starts a shelf image, or skips it (R276). -/
def shelfCommit (e : Nat) (s : State) : State :=
  let iv := rd s F.rs_EFF_SHELF_INTERVAL 0 0
  if iv = 0 ∨ e % iv ≠ 0 ∨ !rdb s F.rs_SHELF_EN 0 0 ∨ !isMember s then s
  else if rdb s F.rs_STAGING_BUSY 0 0 ∨ rd s F.rs_STAGING_BYTES 0 0 < shelfBytes s then sat F.rs_SHELF_SKIPPED 0 0 1 s
  else
    let st := rd s F.rs_STOREROOM_INTERVAL 0 0
    refreshStaging (modJob (fun j =>
      { j with
        stagingEpoch := some e, stagingStore := st != 0 && e % st == 0, voteHeld := true
        stagingGen := rd s F.rs_GENERATION 0 0, stagingRank := ownRank s, stagingRoles := shelfRoles s }) s)

/-- The slot an image is written to: the one that does not hold the newest valid image (R277). -/
def shelfSlot (s : State) : Nat :=
  let a := rd s F.rs_SHELF_EPOCH_0 0 0
  let b := rd s F.rs_SHELF_EPOCH_1 0 0
  let none' := 2 ^ 64 - 1
  if a = none' then 0 else if b = none' then 1 else if a < b then 0 else 1

/-- Sets the epoch of a slot. -/
def setShelfEpoch (k e : Nat) (s : State) : State :=
  if k = 0 then wr F.rs_SHELF_EPOCH_0 0 0 e s else wr F.rs_SHELF_EPOCH_1 0 0 e s

/-- An image of `n` bytes fits a slot of every ready drive: the header block and the drive's stripes of 1 MiB (R339). -/
def imageFits (s : State) (n : Nat) : Bool :=
  let k := (readyDrives s).length
  k != 0 && decide (2 ^ 20 * (1 + ceilDiv (ceilDiv n (2 ^ 20)) k) ≤ rd s F.sh_SLOT_BYTES 0 0)

/-- The body of an image has the length and the CRC-64 that its header gives (R277). -/
def imageSound (header body : List Byte) : Bool :=
  leNat ((header.drop 24).take 8) == body.length && leNat ((header.drop 32).take 8) == (crc64 body).toNat

/-- The stripe word of an image over some drives: DRIVE_MASK, and the stripe size of 1 MiB (R339). -/
def stripeWord (ds : List Nat) : Nat := (ds.map (2 ^ ·)).sum + 2 ^ 20 * 2 ^ 32

/-- The drives of a stripe word. -/
def maskDrives (w : Nat) : List Nat := (List.range 4).filter (bitOf w)

/-- The header block under which a slot is valid, if there is one (R339): every drive of its mask is readable, the header copies
on those drives agree, and BODY_CRC matches (R277). -/
def slotHead (s : State) (m : SlotImage) : Option (List Byte × Nat) :=
  (m.heads.map (·.2)).find? fun h =>
    let ds := maskDrives h.2
    !ds.isEmpty && (ds.all fun c => (readyDrives s).contains c && smFind c m.heads == some h) && imageSound h.1 m.body

/-- EPOCH of a valid slot. -/
def slotEpoch (s : State) (m : SlotImage) : Option Nat := (slotHead s m).map fun h => leNat (h.1.take 8)

/-- SHELF_EPOCH of both slots (R277, R339). -/
def showSlots (s : State) : State :=
  [0, 1].foldl (fun s k => setShelfEpoch k (((smFind k s.shelf.images).bind (slotEpoch s)).getD (2 ^ 64 - 1)) s) s

/-- A flash write that cannot be made, or that failed, ends the image (R277, R339). -/
def shelfFail (s : State) : State :=
  refreshStaging (setb F.rs_SHELF_FAIL_SEEN 0 0 true (modJob (fun j => { j with flashBusy := false, stagingEpoch := none, slotMask := [] }) s))

/-- SHELF_STAGING_DONE (R276 to R278): the image stands in the staging region; its flash write starts, the storeroom is
offered it, and a held vote goes out. -/
def shelfStagingDone (s : State) : State :=
  match s.job.stagingEpoch with
  | none => s
  | some e =>
    if s.job.flashBusy then s
    else
      let img := shelfImage s e s.job.stagingStore
      let bad := shelfBad s
      let s := storePoisoned (rd s F.rs_STAGING_ADDR 0 0) img bad (shelfReads s)
      let k := shelfSlot s
      let s := if s.job.stagingStore then setb F.rs_STORE_READY 0 0 true (wr F.rs_STORE_EPOCH 0 0 e s) else s
      let s := modJob (fun j => { j with voteHeld := false }) s
      castVote (if imageFits s (img.length - 64) then
          let m := (smFind k s.shelf.images).getD {}
          let s := setShelfEpoch k (2 ^ 64 - 1)
            { s with shelf := { s.shelf with images := nmSet k { m with body := [] } s.shelf.images } }
          refreshStaging (modJob (fun j => { j with flashBusy := true, slot := k, slotMask := readyDrives s })
            (driveImage k (img.length - 64) s))
        else shelfFail s)

/-- SHELF_STAGING_DONE. -/
def execShelfStagingDone (s : State) : Host.Outcome State Fault Refusal := .next (shelfStagingDone s)

/-- SHELF_WRITE_DONE (R277): the image's flash write, with both flushes, ends or fails. What is written is what the staging
region holds. -/
def shelfWriteDone (ok : Bool) (s : State) : State :=
  match s.job.stagingEpoch, s.job.flashBusy with
  | some _, true =>
    if ok then
      let a := rd s F.rs_STAGING_ADDR 0 0
      let img := readBytes s memSpace a (64 + readNat s memSpace (a + 24) 8)
      let k := s.job.slot
      let ds := s.job.slotMask
      let old := ((smFind k s.shelf.images).getD {}).heads
      let m : SlotImage := { heads := ds.foldl (fun h c => nmSet c (img.take 64, stripeWord ds) h) old, body := img.drop 64 }
      let s := modJob (fun j => { j with flashBusy := false, stagingEpoch := none, slotMask := [] }) s
      refreshStaging (sat F.rs_SHELF_WRITES 0 0 1 (showSlots
        { s with shelf := { s.shelf with images := nmSet k m s.shelf.images } }))
    else shelfFail s
  | _, _ => s

/-- SHELF_WRITE_DONE. -/
def execShelfWriteDone (ok : Bool) (s : State) : Host.Outcome State Fault Refusal := .next (shelfWriteDone ok s)

/-- STORE_ACK (R278). -/
def storeAck (s : State) : State := refreshStaging (setb F.rs_STORE_READY 0 0 false s)

/-- STORE_ACK. -/
def execStoreAck (s : State) : Host.Outcome State Fault Refusal :=
  .next (if livePage s (unitOf 0x61 0) then storeAck (pageAccess (unitOf 0x61 0) s) else s)

/-! ### The step commit (R263) -/

/-- Selector bits of `n` pages from `p` flip. -/
def flipSel (p n : Nat) (sel : List Nat) : List Nat :=
  (List.range n).foldl (fun l k => if l.contains (p + k) then l.filter (· != p + k) else l ++ [p + k]) sel

/-- Step 1: the pages of updated buckets flip (R255, R263, R272). -/
def flipUpdated (s : State) : State :=
  (List.range (bucketCount s)).foldl (fun s b =>
    let x := bx s b
    if x.updated && !x.nVeto then
      let s := { s with selMaster := flipSel (uMPage s b) (bPages s b) s.selMaster }
      if x.momentsHere then { s with selState := flipSel (uSPage s b) (uMoments s b * bPages s b) s.selState } else s
    else s) s

/-- Step 3: the planes of a bucket's agreed table exchange roles, and the next plane takes what is now current (R226). -/
def swapPlanes (b : Nat) (s : State) : State := copyPlane b (modBx b (fun x => { x with flip := 1 - x.flip }) s)

/-- The drift check of the epoch before stops at a column boundary; what it has queued stays queued (R16). -/
def stopDrift (s : State) : State := { s with drift := none }

/-- What a member holds for one step only is dropped. -/
def freshStep (s : State) : State :=
  let s := modJob (fun j => { j with
    sends := [], deltas := [], pulls := [], votes := [], decision := none, updNonfinite := false, voteLoss := none
    spiked := false
    starvedNow := false, layers := [], voteWaiting := false }) s
  setb F.he_HEALTH_VETO_NOW 0 0 false (setVoteSent false { s with lossSampled := false })

/-- The running mean E and the count of samples (R265). -/
def lossCommit (vetoed : Bool) (s : State) : State :=
  match s.job.voteLoss with
  | none => s
  | some v =>
    if !rdb s F.he_SPIKE_EN 0 0 || s.job.spiked || vetoed then s else
    let l : F32 := BitVec.ofNat 32 v
    let e : F32 := BitVec.ofNat 32 (rd s F.he_EWMA 0 0)
    let w := (mkF32 false 1 1 (-(rd s F.he_EWMA_SHIFT 0 0 : Int))).val
    let e' := if rd s F.he_SAMPLES 0 0 = 0 then l else (fadd e (fmul (fsub l e).val w).val).val
    sat F.he_SAMPLES 0 0 1 (wr F.he_EWMA 0 0 e'.toNat s)

/-- ZERO_RUN and STARVED of the layers that sent in the step (R267). -/
def runCommit (vetoed : Bool) (s : State) : State :=
  if vetoed then s
  else refreshStarved (s.job.layers.foldl (fun s kv =>
    if kv.2 then wr F.he_ZERO_RUN 0 kv.1 (min 65535 (rd s F.he_ZERO_RUN 0 kv.1 + 1)) s
    else wr F.he_ZERO_RUN 0 kv.1 0 (wr F.he_STARVED 0 kv.1 0 s)) s)

/-- Step 5: the step-boundary set is checked as a whole and applies, or waits for a package frame boundary (R263, R361). -/
def setCommitStep (s : State) : State :=
  if s.commit.stepSet.isEmpty then s
  else if needsFrame s.commit.stepSet ∧ nowAp s % 512 ≠ 0 then
    match checkCommit s.commit.stepSet 2 s with
    | some r => failSet r s
    | none => { s with commit := { s.commit with setAtFrame := true } }
  else applySet s

/-- A rebalance view whose APPLY_TIME has come applies in the next alignment period (R285). -/
def noteRebalance (s : State) : State :=
  match s.job.pendingView with
  | some v => if v.kind = 2 ∧ v.applyTime ≤ nowNs s then modJob (fun j => { j with rebalance := true }) s else s
  | none => s

/-- The step commits, or is vetoed, in the alignment period that begins now (R263). -/
def applyStep (vetoed : Bool) (s : State) : State :=
  let old := s
  let n := stepNo s
  let s := if vetoed then
      (List.range 4).foldl (fun s d => setb F.ex_VETO_SEEN d 0 true s) (sat F.ex_COMMITS_VETOED 0 0 1 s)
    else flipUpdated s
  let s := wr F.cm_STEP 0 0 (n + 1) (wr F.cm_EPOCH 0 0 n s)
  let s := (List.range (bucketCount s)).foldl (fun s b => swapPlanes b s) s
  let s := runCommit vetoed (lossCommit vetoed s)
  let s := openAll (freshStep s)
  let s := setCommitStep (stopDrift (larderFlushAll s))
  let s := crcCommit n (stateScan (cellarCommit vetoed old s))
  let s := shelfCommit n (finishWalks s)
  noteRebalance (modJob (fun j => { j with stepAp := some (nowAp s) }) s)

/-- STEP_COMMIT (R173, R262, R263): the decision in hand applies in the alignment period that begins at device time T. -/
def stepCommit (s : State) : State :=
  match liveDecision s, stepAp s with
  | some d, some n => settle (applyStep d.vetoed (cellarStruck (advanceTo (32 * n) s)))
  | _, _ => s

/-- STEP_COMMIT. -/
def execStepCommit (s : State) : Host.Outcome State Fault Refusal := .next (stepCommit s)

/-- A decision that came after T: it applies at once, and the member withdraws (R262). -/
def lateCommit (d : Decision) (s : State) : State :=
  let s := advanceTo (32 * ceilDiv s.core 32) s
  let s := applyStep d.vetoed (cellarStruck s)
  withdraw (setb F.ex_COMMIT_LATE_SEEN 0 0 true (sat F.ex_COMMIT_LATE 0 0 1 s))

/-! ### The end of a long operation (R149, R184, R383) -/

/-- An operation that has landed sends the partials it stages to the other ranks of its split group, each as a remote write to
the same address there (R149) (DEDUCED, log 138). -/
def sendStage (p : PendingOp) (s : State) : State :=
  (s.job.split.filter (· != ownRank s)).foldl (fun s r => p.stage.foldl (fun s w =>
    (sendReliable r typeWrite (natLe 8 w.1 ++ natLe 8 (stepNo s) ++ w.2) [] s).2) s) s

/-- The operation of die `die` with tag `tag` ends where it can (R184), and its partials leave. -/
def endOp (p : PendingOp) (s : State) : State :=
  let t := completeOp p.die p.tag s
  if canLand s p && !p.stage.isEmpty then sendStage p t else t

/-- A digital die's tracker holds more operations than it has entries, which no operation can bring about: its internal
inconsistency (R198, R384) (DESIGN CHOICE, log 147). -/
def trackerBroken (s : State) (die : Nat) : Bool :=
  decide (die < 4) && decide (32768 < trackerCount s die)

/-- LONG_OP_COMPLETE (R184, R383): the operation of digital die `die` whose tag is `tag`, or, with `die` 16 + e, entry
`tag` mod 64 of endpoint e's query `tag` div 64. `met` says what bit errors did by then; words sent again over the fabric may,
with `late`, delay a statically timed landing by that many core cycles; `lost` says that a word stayed uncorrectable after its
third retry, fatal code 0x1. A tracker found inconsistent is fatal code 0x8 (R384). -/
def execLongOpComplete (die tag : Nat) (met : Met) (late : Nat) (lost : Bool) (s : State) :
    Host.Outcome State Fault Refusal :=
  .next (match findOp s die tag with
    | none => s
    | some p =>
      let s := noteMet met s
      let d := (met.retries.head?.map (·.1)).getD (if die < 4 then die else rd s F.qe_DIE 0 (die - 16))
      if trackerBroken s die then deviceFatal 0x8 0x25 die s
      else if lost then deviceFatal 0x1 0x20 d (errorLog 0x20 d 3 3 (opTag die tag) true 0 1 s)
      else if late ≠ 0 ∧ p.land.isSome then retryOp die tag late s
      else cellarStruck (endOp p s))

end Sys2Proof.Machine
end

