-- ==== Sys2Proof/Machine/Member.lean ====
section
/-! DEFINITION. The membership commit (R280, R281, R285, R286) and what it does to the step in progress (R289 to R292),
page walks (R287, R288, R295), and the restore of a rollback (R294). -/

namespace Sys2Proof.Machine

open Sys2Proof

/-! ### Page walks (R287, R288) -/

/-- Nanoseconds between two pages of the walks of a device (R288): a port carries 200 bytes a nanosecond. -/
def pageNs (s : State) : Nat :=
  let share := if rdb s F.rs_ROLLBACK_NEEDED 0 0 || !programRuns s then 1024
    else min 1024 (max 1 (rd s F.rs_RECELLAR_SHARE 0 0))
  ceilDiv (65536 * 1024) (200 * share)

/-- The eight step-bound remote writes of one page to a rank (R287): the serial and MSG_ID of each. -/
def sendPage (rank dst src : Nat) (s : State) : List (Nat × Nat) × State :=
  (List.range 8).foldl (fun (acc : List (Nat × Nat) × State) k =>
    let s := acc.2
    let (w, s) := sendWrite rank ((dst + 8192 * k) % 2 ^ 48 + 2 ^ 48) (stepNo s) memSpace (src + 8192 * k) 8192 s
    (acc.1 ++ w.toList, s)) ([], s)

/-- A walk of a bucket towards a rank. -/
def findWalk (s : State) (b rank : Nat) (master : Bool) : Option PageWalk :=
  s.job.walks.find? fun w => w.bucket == b && w.rank == rank && w.master == master

/-- A walk may send a page of bucket `b` now: the bucket's step is open and its shard has not left (R287). -/
def walkOpen (s : State) (b : Nat) : Bool :=
  ownerHere s b && !(bx s b).closed && !exchangeStopped s && decide (s.stage = .clocked)

/-- PAGE_WALK_SEND (R287, R288): the next page of a walk leaves once the pace and the window (R307) allow it. `first` is the first state page
of the bucket at the receiver (DESIGN CHOICE, log 31). Where no walk of an owned bucket towards its partner is in progress, one starts:
the partner's firmware found its copy not valid (DEDUCED, log 86). -/
def pageWalkSend (b rank : Nat) (master : Bool) (first : Nat) (s : State) : State :=
  if !walkOpen s b ∨ windowFull s rank then s
  else
    let s := if (findWalk s b rank master).isNone && !master && rank == bPartner s b && !rdb s F.rs_MIRROR 0 0 then
        recellar b s
      else s
    match findWalk s b rank master with
    | none => s
    | some w =>
      match w.left with
      | [] => s
      | p :: rest =>
        let s := advanceTo (coreAfterNs s (s.job.walkNs - 1)) s
        let dst := if master then curMaster + 65536 * (uMPage s b + p) else curState + 65536 * (first + p)
        let src := if master then curMaster + 65536 * (uMPage s b + p) else curState + 65536 * (uSPage s b + p)
        let (ws, s) := sendPage rank dst src s
        let w' := { w with left := rest, sent := w.sent ++ ws.map fun m => (p, m) }
        let s := modJob (fun j =>
          { j with
            walks := j.walks.map fun v => if v == w then w' else v
            walkNs := nowNs s + pageNs s }) s
        refreshCellar (addW F.rs_PAGES_SENT 0 0 1 s)

/-- PAGE_WALK_SEND. -/
def execPageWalkSend (bucket rank : Nat) (master : Bool) (first : Nat) (s : State) : Host.Outcome State Fault Refusal :=
  .next (pageWalkSend bucket rank master first s)

/-- A step-bound write of a walk was discarded at its receiver (R287, R308): its page is sent again. -/
def pageStale (serial id : Nat) (s : State) : State :=
  let put (w : PageWalk) : PageWalk :=
    match w.sent.find? fun m => m.2 == (serial, id) with
    | some m => { w with left := if w.left.contains m.1 then w.left else m.1 :: w.left, sent := w.sent.filter fun n => n.1 != m.1 }
    | none => w
  refreshCellar (modJob (fun j => { j with walks := j.walks.map put }) s)

/-! ### What a membership commit sets (R280, R281, R285) -/

/-- The pairs of partners that this device is of. -/
def ownPairs (es : List ViewEntry) (me : ViewEntry) : List ViewEntry :=
  es.filter fun e => e.rank != me.rank && (e.rank == me.partner || e.partner == me.rank)

/-- The split group of the members of a view, in rank order, where this device is in it (R149, DESIGN CHOICE, log 12). -/
def splitGroup (v : PendingView) (me : ViewEntry) : List Nat :=
  let ranks := (v.entries.filter fun e => !e.joining).map (·.rank)
  let rs := (ranks.filter (Config.splitMember v.gen)).mergeSort
  if rs.length < 2 ∨ 256 < rs.length ∨ !rs.contains me.rank then [] else rs

/-- Step 1: generation, ranks, MEMBERS and what the view sets (R281, R285). A device that withdrew is taken back only as
a joining unit (R283, DEDUCED, log 32). -/
def viewFields (v : PendingView) (me : ViewEntry) (s : State) : State :=
  let es := v.entries
  let joins := me.joining && !rdb s F.rs_JOINING 0 0
  let n := (es.filter fun e => !e.joining).length
  let s := modJob (fun j => { j with
    view := es, split := splitGroup v me, pendingView := none, rebalance := false, restoring := v.kind == 1
    needStep := me.joining && (joins || j.needStep) }) s
  let s := (List.range 4).foldl (fun s d => wr F.ex_RANK d 0 me.rank (wr F.ex_MEMBERS d 0 n s)) s
  let s := wr F.rs_GENERATION 0 0 v.gen (setb F.rs_MEMBER 0 0 (!me.joining) (setb F.rs_JOINING 0 0 me.joining s))
  let s := setb F.rs_MIRROR 0 0 v.mirror (setb F.rs_CORRELATED_WARN 0 0 (sharedFeed es) s)
  let shares := (ownPairs es me).any fun e => e.board == me.board || e.rack == me.rack
  let s := setb F.rs_SHARED_DOMAIN 0 0 shares s
  let s := wr F.rs_EFF_SHELF_INTERVAL 0 0 (effInterval es v.shelf) (wr F.rs_STOREROOM_INTERVAL 0 0 v.store
    (wr F.rs_CRC_INTERVAL 0 0 v.crc s))
  let s := wr F.rs_ROLLBACK_EPOCH 0 0 (if v.kind = 1 then v.rollback else 0) s
  let s := setb F.ck_STEP_EN 0 0 false s
  let s := if me.joining then
      modJob (fun j => { j with silent := false }) (setb F.rs_WITHDRAWN 0 0 false { s with programDied := s.programDied && !joins })
    else s
  modJob (fun j => { j with heard := es.map fun e => (e.rank, nowNs s) }) s

/-- The owner and partner of a bucket, in the table the part holds and in memory (R225, R286). -/
def setOwner (b owner partner : Nat) (s : State) : State :=
  let ws := nmGet (List.replicate 8 0) b s.job.table
  let w := splice (splice (ws.getD 0 0) 36 12 owner) 48 12 partner
  storeMem (rd s F.ex_BUCKET_TABLE 0 0 + 64 * b) (natLe 8 w)
    (modJob (fun j => { j with table := nmSet b (w :: ws.drop 1) j.table }) s)

/-- What becomes of the transport with the membership: messages to serials that are gone are abandoned, and what was
known of their senders is dropped (DEDUCED, log 33). -/
def dropSerials (s : State) : State :=
  let listed (serial : Nat) : Bool := s.job.view.any fun e => e.serial == serial
  let s := dropAwaits (fun w => !listed w.1) s
  let fresh (t : TxPeer) : TxPeer := { t with unacked := [], held := [] }
  modJob (fun j => { j with
    tx := j.tx.map fun kv => if listed kv.1 then kv else (kv.1, fresh kv.2)
    rx := j.rx.filter fun kv => listed kv.1 }) s


/-- A joining unit zeroes both master halves (R295). -/
def joinZero (s : State) : State :=
  let n := rd s F.ex_MASTER_PAGES 0 0
  zeroPages altMaster 0 n (zeroPages curMaster 0 n s)

/-! ### The step in progress (R249, R289 to R291) -/

/-- A rebuild of a bucket that has not closed: the sums start again over the remaining ranks that have begun, whose first
sendings are pulled; other ranks may still contribute (R249). Reports that end operations brought stay merged (R226). -/
def rebuildOpen (b : Nat) (gone : List Nat) (s : State) : State :=
  let ranks := memberRanks s
  let stay := (bx s b).begun.filter ranks.contains
  let s := exchangeLog b 4 (lowest gone) true (sat F.ex_REBUILDS (serveInst s b) 0 1 s)
  let s := zeroAcc b (modBx b (fun x => { x with
    state := 6, begun := stay, late := x.late.filter ranks.contains, ended := [], nonfin := [], ovf := []
    markers := [], taken := [] }) s)
  let s := (stay.filter (· != ownRank s)).foldl (fun s r => pullFirst b r s) s
  if stay.contains (ownRank s) then resendOwn b s else s

/-- An owner that stays: ranks that left may force a rebuild, or complete the set (R241, R249, R291). -/
def ownerStays (b : Nat) (gone : List Nat) (s : State) : State :=
  let x := bx s b
  let s := modBx b (fun y => { y with shards := y.shards.filter fun t => !gone.contains t.rank }) s
  if x.closed then
    let asked := x.redo.map (·.1) ++ (x.toPull ++ x.pulling).map (·.rank)
    if asked.any gone.contains && (x.state == 3 || x.state == 6 || !x.redo.isEmpty) then
      rebuild b (x.included.filter fun r => !gone.contains r) gone true s
    else if rdb s F.rs_MIRROR 0 0 && (x.state == 4 || x.state == 5) then
      match partnerOfBucket s b with
      | some p => if (bx s b).shards.any fun t => t.rank == p then s else sendShard b p (!x.nVeto) s
      | none => s
    else s
  else if x.begun.any fun r => gone.contains r && !rankDone s b r then rebuildOpen b gone s
  else tryClose b s

/-- The former partner owns a bucket whose completion message it has not acknowledged (R289) (DEDUCED, log 82). -/
def rollForward (b : Nat) (s : State) : State :=
  let x := bx s b
  let dl := nowNs s + deadlineLen s b
  let inc := x.nMap.filter (memberRanks s).contains
  let noticed := x.noticed
  let s := modBx b (fun x => { x with
    state := 2, deadline := some dl, begun := [], late := [], ended := [], nonfin := [], ovf := [], reports := []
    closed := false, repeated := false, reducing := false, vetoed := false, redo := [], toPull := [], pulling := []
    markers := [], taken := [], shards := [], deltaSent := 0, heldDeltas := [] }) s
  if noticed then rebuild b inc (x.nMap.filter fun r => !inc.contains r) false s else resendOwn b (zeroAcc b s)

/-- The DELTA_BCASTs of a bucket that this device issued as partner, in the owner role (R290). -/
def replayDeltas (b : Nat) (s : State) : State :=
  let mirror := rdb s F.rs_MIRROR 0 0
  (s.job.deltas.filter fun r => r.bucket == b && !r.ordered).foldl (fun s r =>
    let (os, _) := (deltaOps r.ctx r.cmd s).run {}
    let s := modJob (fun j => { j with deltas := j.deltas.map fun q => if q == r then { q with ordered := true } else q }) s
    if mirror then s else ownDeltas r.id b os true s) s

/-- The former partner owns a bucket whose reduced shard it holds (R290). In mirror mode the shard goes on, from the buffer it
lies in, to the new owner's partner and then to every other member (R297) (DEDUCED, log 75). -/
def rollDeltas (b : Nat) (s : State) : State :=
  match (bx s b).shardNotice with
  | none => s
  | some (_, rep, veto, ranks) =>
    let s := setIncluded b ranks (modBx b (fun x => { x with
      state := if veto then 5 else 4, closed := true, repeated := rep, vetoed := veto, shards := []
      shardFrom := Config.shardBuffer b, shardAddr := Config.shardBuffer b, deltaSent := 0, heldDeltas := [] }) s)
    let s := sendNotice b 0 rep veto true s
    let s := if rdb s F.rs_MIRROR 0 0 then shardOut b (!veto) s else s
    flushDeltas b (replayDeltas b s)

/-- What a commit does to a bucket of the step in progress: `old` is the owner before it. -/
def stepBucket (b old : Nat) (gone : List Nat) (s : State) : State :=
  let o := bOwner s b
  let s := modJob (fun j => { j with pulls := j.pulls.filter fun p => !(p.bucket == b && gone.contains p.owner) }) s
  if !isMember s ∨ o = noRank then s
  else if o = old then (if o = ownRank s then ownerStays b gone s else s)
  else if o = ownRank s then
    if (bx s b).shardSeen then rollDeltas b s else rollForward b s
  else resendOwn b s

/-- Votes after a commit: those of the new membership count, and a new leader gets them again (R261). -/
def moveVotes (leader : Nat) (s : State) : State :=
  let ranks := memberRanks s
  let s := modJob (fun j => { j with votes := j.votes.filter fun v => ranks.contains v.rank }) s
  if leader = leaderRank s then tryDecide s
  else if rdb s F.ex_VOTE_SENT 0 0 ∧ s.job.decision = none ∧ isMember s ∧ !exchangeStopped s then sendVote s
  else s

/-! ### Owners and cellars (R286, R287, R296) -/

/-- Owner and partner of every bucket before a commit. -/
def ownersOf (s : State) : List (Nat × Nat) := (List.range (bucketCount s)).map fun b => (bOwner s b, bPartner s b)

/-- Step 2: owners and partners by the new view (R286). -/
def deriveOwners (v : PendingView) (s : State) : State :=
  let news := (List.range (bucketCount s)).map fun b => newOwner s v.entries v.owners b
  news.zipIdx.foldl (fun s ob =>
    match ob.1 with
    | some o => setOwner ob.2 o (partnerOf v.entries o) s
    | none => setOwner ob.2 noRank noRank s) s

/-- A bucket that a rebalance moved, or that did: its new owner opens it, and the former owner's pages are a valid copy
where it is the partner (R286, R296). -/
def moveBucket (b old : Nat) (s : State) : State :=
  let mine := ownerHere s b
  let part := partnerHere s b
  let valid := bPartner s b == old
  let s := modBx b (fun x => { x with cellarValid := valid && (mine || part), landed := [] }) s
  if mine then zeroAcc b s else s

/-- Step 5 for one bucket: re-cellaring where it is due, and the walks to joining ranks (R287, R295, R297). `was`: the device
was its partner before. -/
def cellarWalks (b : Nat) (old : Nat × Nat) (was : Bool) (joined : List Nat) (s : State) : State :=
  let mirror := rdb s F.rs_MIRROR 0 0
  let fresh := old.1 != bOwner s b
  let s := if partnerHere s b && (!was || fresh) && !(bx s b).cellarValid && !mirror then newPartner b s else s
  if !ownerHere s b && !partnerHere s b then modBx b (fun x => { x with cellarValid := false, landed := [] }) s
  else if !ownerHere s b then s
  else
    let s := if mirror then s
      else if (bx s b).cellarValid && old.2 == bPartner s b && !fresh then s
      else if (bx s b).cellarValid && fresh && bPartner s b == old.1 then s
      else if (findWalk s b (bPartner s b) false).isSome && !fresh then s
      else recellar b s
    let them := if fresh then (s.job.view.filter (·.joining)).map (·.rank) else joined
    them.foldl (fun s r =>
      let s := startWalk b r true s
      if mirror then startWalk b r false s else s) s

/-- Walks that no longer have a receiver, or are no longer this device's (R291). -/
def dropWalks (s : State) : State :=
  let keep (w : PageWalk) : Bool := ownerHere s w.bucket && (serialOf s w.rank).isSome &&
    (w.master || rdb s F.rs_MIRROR 0 0 || w.rank == bPartner s w.bucket)
  refreshCellar (modJob (fun j => { j with walks := j.walks.filter keep }) s)

/-- The buckets lost at this commit (R292). -/
def noteLost (s : State) : State :=
  loseBuckets ((List.range (bucketCount s)).filter fun b => bOwner s b == noRank) s

/-- A device whose mixer self-test fails does not join the membership (R42). -/
def noJoin (s : State) : State := withdraw (setb F.rs_MEMBER 0 0 false (setb F.rs_JOINING 0 0 false s))

/-- The records of a shelf image's body (R277). -/
def bodyRecords : Nat → List Byte → List (Nat × List Byte)
  | 0, _ => []
  | k + 1, bs =>
    let h := leNat (bs.take 8)
    let n := 2 * leNat ((bs.drop 8).take 4)
    let len := (1 + min 2 (bits h 18 2)) * (ceilDiv n 64 * 64)
    (bits h 0 16, (bs.drop 16).take len) :: bodyRecords k (bs.drop (16 + len))

/-- This device's own valid image of epoch `e`, with its slot, if it has one. -/
def ownImage (e : Nat) (s : State) : Option (Nat × SlotImage) := s.shelf.images.find? fun m => slotEpoch s m.2 == some e

/-- The records of that image. -/
def ownRecords (e : Nat) (s : State) : List (Nat × List Byte) :=
  match (ownImage e s).bind fun m => (slotHead s m.2).map fun h => (h, m.2) with
  | some hm => bodyRecords (bits (leNat ((hm.1.1.drop 8).take 8)) 44 17) hm.2.body
  | none => []

/-- Firmware reads this device's own valid image of epoch `e` from the drives (R294, R336). -/
def readRecords (e : Nat) (s : State) : State :=
  match (ownImage e s).bind fun m => (slotHead s m.2).map fun h => (m, maskDrives h.2) with
  | some md => driveReadImage md.1.1 md.1.2.body.length md.2 s
  | none => s

/-- Bytes go to a rank by remote writes that are not step-bound (R294). -/
def sendBytes (rank addr : Nat) (bytes : List Byte) (s : State) : State :=
  (pieces 8192 0 bytes.length).foldl (fun s p =>
    (sendReliable rank typeWrite (natLe 8 (addr + p.1) ++ natLe 8 0 ++ (bytes.drop p.1).take p.2) [] s).2) s

/-- A shelf record of bucket `b` goes to its owner's current views (R294). Where the owner keeps the bucket's state pages
is not known here: a free value (DESIGN CHOICE, log 142). -/
def sendRecord (b : Nat) (planes : List Byte) (s : State) : State :=
  let n := 2 * bElems s b
  let w := ceilDiv n 64 * 64
  let (v, s) := free s
  let s := sendBytes (bOwner s b) (masterAddr s curMaster b 0) (planes.take n) s
  (List.range (uMoments s b)).foldl (fun s j =>
    sendBytes (bOwner s b) (curState + 65536 * (v % 2 ^ 20 + j * bPages s b)) ((planes.drop (w * (j + 1))).take n) s) s

/-- The records of epoch `e` that other owners ask this device's shelf for go to them (R294). How an owner asks is not
given: whether it does is an opaque function (DESIGN CHOICE, log 142). -/
def shelfSend (e : Nat) (s : State) : State :=
  (ownRecords e s).foldl (fun s r =>
    if bucketDefined s r.1 && bOwner s r.1 != ownRank s && Config.shelfAsked r.1 (rd s F.rs_GENERATION 0 0) then
      sendRecord r.1 r.2 s
    else s) (readRecords e s)

/-- The effects of a view in their order (R285). -/
def applyView (v : PendingView) (me : ViewEntry) (s : State) : State :=
  let before := memberRanks s
  let wasJoining := (s.job.view.filter (·.joining)).map (·.rank)
  let leader := leaderRank s
  let ranks := (v.entries.filter fun e => !e.joining).map (·.rank)
  let gone := before.filter fun r => !ranks.contains r
  let joined := ((v.entries.filter (·.joining)).map (·.rank)).filter fun r => !wasJoining.contains r
  let joins := me.joining && !rdb s F.rs_JOINING 0 0
  let s := cellarStruck s
  let old := ownersOf s
  let was := (List.range (bucketCount s)).map (partnerHere s)
  let owned := deriveOwners v s
  let s := viewFields v me owned
  let s := mixerTest (larderFlushAll s)
  let s := if rdb s F.he_MIXER_FAIL 0 0 then noJoin s else s
  let s := noteLost (dropSerials s)
  let s := if v.kind = 1 then setb F.rs_RESTORE_DONE 0 0 false s else s
  let moved := (old.zipIdx.filter fun ob => bOwner s ob.2 != ob.1.1 && ranks.contains ob.1.1).map fun ob => (ob.2, ob.1.1)
  let s := moved.foldl (fun s m => moveBucket m.1 m.2 s) s
  let s := if v.kind = 1 then s
    else old.zipIdx.foldl (fun s ob =>
      if moved.any fun m => m.1 == ob.2 then resendOwn ob.2 s else stepBucket ob.2 ob.1.1 gone s) s
  let s := dropWalks s
  let s := if v.kind = 1 then shelfSend v.rollback s else old.zipIdx.foldl (fun s ob => cellarWalks ob.2 ob.1 (was.getD ob.2 false) joined s) s
  let s := if joins then joinZero s else s
  let s := gone.foldl (fun s r => wr F.rs_SUSPECT_MAP 0 r 0 s) s
  let s := sat F.rs_MEMBERSHIP_COMMITS 0 0 1 (setWaitExtra s)
  settle (moveVotes leader (refreshCellar (refreshVeto s)))


/-- MEMBERSHIP_COMMIT (R285): the commit that holds a checked view applies, with its second check (R360). -/
def membershipCommit (s : State) : State :=
  if rd s F.cm_STATE 0 0 ≠ 2 ∨ !rdb s F.cm_MEMBERSHIP 0 0 then s
  else
    match s.job.pendingView with
    | none => s
    | some v =>
      match memberAp s v, v.entries.find? fun e => e.serial == rd s F.id_SERIAL 0 0 with
      | some n, some me =>
        if stepFirst s n then s else
        let s := applyCommit (advanceTo (32 * n) s)
        if rd s F.cm_STATE 0 0 = 3 then applyView v me s
        else modJob (fun j => { j with pendingView := none }) s
      | _, _ => s

/-- MEMBERSHIP_COMMIT. -/
def execMembershipCommit (s : State) : Host.Outcome State Fault Refusal := .next (membershipCommit s)

/-! ### The restore of a rollback (R294) -/

/-- A rollback view is in force and its restore goes on. -/
def restoring (s : State) : Bool := s.job.restoring && isMember s

/-- The masters and moments of an owned bucket, as bytes in the form of a shelf record's planes, go into the current
views (R277, R294). -/
def loadBucket (b : Nat) (planes : List Byte) (s : State) : State :=
  let n := 2 * bElems s b
  let w := ceilDiv n 64 * 64
  if !ownerHere s b then s
  else
    let s := storeMem (masterAddr s curMaster b 0) (planes.take n) s
    (List.range (uMoments s b)).foldl (fun s j =>
      storeMem (momentAddr s curState b j 0) ((planes.drop (w * (j + 1))).take n) s) s

/-- The records of a shelf image from address `a` on: bucket and the bytes of its planes (R277). -/
def imageRecords (s : State) : Nat → Nat → List (Nat × List Byte)
  | 0, _ => []
  | k + 1, a =>
    let h := readNat s memSpace a 8
    let n := 2 * (readNat s memSpace (a + 8) 4)
    let len := (1 + min 2 (bits h 18 2)) * (ceilDiv n 64 * 64)
    (bits h 0 16, readBytes s memSpace (a + 16) len) :: imageRecords s k (a + 16 + len)

/-- STAGING_LOADED (R294): the image that the driver wrote into the staging region is loaded, bucket by bucket the device
owns. -/
def stagingLoaded (s : State) : State :=
  if !restoring s then s
  else
    let a := rd s F.rs_STAGING_ADDR 0 0
    let k := bits (readNat s memSpace (a + 8) 8) 44 17
    (imageRecords s k (a + 64)).foldl (fun s r => loadBucket r.1 r.2 s) s

/-- STAGING_LOADED. -/
def execStagingLoaded (s : State) : Host.Outcome State Fault Refusal :=
  .next (if livePage s (unitOf 0x61 0) then stagingLoaded (pageAccess (unitOf 0x61 0) s) else s)

/-- The masters of an owned bucket go to every member's current master view, by remote writes (R294). -/
def sendMasters (b : Nat) (s : State) : State :=
  let ranks := (memberRanks s).filter (· != ownRank s)
  let a := masterAddr s curMaster b 0
  ranks.foldl (fun s r => (pieces 8192 0 (2 * bElems s b)).foldl (fun s p =>
    (sendWrite r (a + p.1) 0 memSpace (a + p.1) p.2 s).2) s) s

/-- The residual buffers of a bucket are zeroed: one plane for a top-k bucket, two for a sign bucket (R230, R231). -/
def zeroResidual (b : Nat) (s : State) : State :=
  let planes := if bMode s b = 1 then 1 else if bMode s b = 2 then 2 else 0
  storeMem (bResid s b) (List.replicate (2 * bElems s b * planes) 0#8) s

/-- RESTORE_DONE (R294): firmware has the masters and moments of epoch E for the buckets the device owns, from its own
shelf first; `loads` holds those that came from another device's shelf. Masters go out, epoch E is current, residuals are zero, re-cellaring starts
(DEDUCED, log 83) (DEDUCED, log 84). -/
def restoreDone (loads : List (Nat × List Byte)) (s : State) : State :=
  if !restoring s then s
  else
    let e := rd s F.rs_ROLLBACK_EPOCH 0 0
    let bs := List.range (bucketCount s)
    let own := ownRecords e s
    let s := readRecords e s
    let s := (loads.filter fun l => !(own.any fun r => r.1 == l.1)).foldl (fun s l => loadBucket l.1 l.2 s) s
    let s := own.foldl (fun s l => loadBucket l.1 l.2 s) s
    let s := (bs.filter (ownerHere s)).foldl (fun s b => sendMasters b s) s
    let s := wr F.cm_STEP 0 0 (e + 1) (wr F.cm_EPOCH 0 0 e s)
    let s := bs.foldl (fun s b => zeroResidual b (modBx b (fun x => { x with lost := false, cellarValid := false }) s)) s
    let s := openAll (freshStep s)
    let s := modJob (fun j => { j with restoring := false }) s
    let s := wr F.rs_LOST_BUCKETS 0 0 0 (setb F.rs_RESTORE_DONE 0 0 true (setb F.rs_ROLLBACK_NEEDED 0 0 false s))
    let s := bs.foldl (fun s b =>
      let s := if partnerHere s b && !rdb s F.rs_MIRROR 0 0 then newPartner b s else s
      if ownerHere s b then recellar b s else s) s
    refreshCellar s

/-- RESTORE_DONE. -/
def execRestoreDone (loads : List (Nat × List Byte)) (s : State) : Host.Outcome State Fault Refusal :=
  .next (restoreDone loads s)

end Sys2Proof.Machine
end

