-- ==== Sys2Proof/Machine/Ptp.lean ====
section
/-! DEFINITION. IEEE 1588 operation: the PTP port, the best master clock, the servo of device time (R314 to R318, R320).
Times of messages are in units of 2^-16 ns. -/

namespace Sys2Proof.Machine

open Sys2Proof

/-! ### Numbers -/

/-- A number rounded to the nearest integer, ties to even. -/
def ratRound (x : Rat) : Int :=
  let f := x.floor
  let r := x - f
  if r < 1 / 2 then f else if 1 / 2 < r then f + 1 else if f % 2 = 0 then f else f + 1

/-- A number kept within plus and minus `m`. -/
def clampRat (x m : Rat) : Rat := max (-m) (min x m)

/-- The magnitude of a number. -/
def absRat (x : Rat) : Rat := if x < 0 then -x else x

/-- The nominal increment of a register tick (R316). -/
def nominalIncr : Nat := 0x280000000

/-! ### Device time steps (R316, R317) -/

/-- Device time moved by units of 2^-32 ns at the next register tick. -/
def stepTime (units : Int) (s : State) : State :=
  let s := advanceTo ((s.core / 4 + 1) * 4) s
  setb F.ck_STEPPED_SEEN 0 0 true { s with time := (((s.time : Int) + units) % 2 ^ 96).toNat }

/-- STEP_NS (R317): acts only while STEP_EN is 1. -/
def stepNs (amount : Int) (s : State) : State :=
  if s.stage = .clocked ∧ rdb s F.ck_STEP_EN 0 0 then stepTime (amount * 2 ^ 32) s else s

/-- STEP_NS (DEDUCED, log 93). -/
def execStepNs (amount : Int) (s : State) : Host.Outcome State Fault Refusal :=
  .next (if livePage s (unitOf 0x03 0) then stepNs amount (pageAccess (unitOf 0x03 0) s) else s)

/-- A read of TIME_NS latches TIME_FRAC and ALIGN_AT_TIME (R316). -/
def latchTime (s : State) : State :=
  wr F.ck_TIME_FRAC 0 0 (s.time % 2 ^ 32) (wr F.ck_ALIGN_AT_TIME 0 0 (nowAp s) (wr F.ck_TIME_NS 0 0 (nowNs s) s))

/-- TIME_NS_READ (R316). -/
def timeNsRead (s : State) : State :=
  if s.stage = .clocked then emit (.readData (nowNs s) 8) (latchTime s) else s

/-- TIME_NS_READ. -/
def execTimeNsRead (s : State) : Host.Outcome State Fault Refusal :=
  .next (if livePage s (unitOf 0x03 0) then timeNsRead (pageAccess (unitOf 0x03 0) s) else s)

/-! ### Lock (R317, R318) -/

/-- READY of every fitted port. -/
def portsReady (s : State) : State := (List.range s.variant.ports).foldl (fun s p => portReady p s) s

/-- LOCKED falls. -/
def lockLost (s : State) : State :=
  let s := setb F.ck_LOCKED 0 0 false (setb F.ck_LOCK_LOST_SEEN 0 0 true (sat F.ck_LOCK_LOSSES 0 0 1 s))
  if rd s F.ck_PORT_STATE 0 0 = 9 then wr F.ck_PORT_STATE 0 0 8 s else s

/-- LOCKED rises: 16 consecutive offsets lie within LOCK_NS. -/
def lockWon (s : State) : State :=
  let s := setb F.ck_LOCKED 0 0 true { s with ptp := { s.ptp with everLocked := true } }
  portsReady (if rd s F.ck_PORT_STATE 0 0 = 8 then wr F.ck_PORT_STATE 0 0 9 s else s)

/-- An offset counts towards lock, or ends it: the state, and whether lock was lost by it. -/
def judgeOffset (off : Rat) (s : State) : Bool × State :=
  let lim : Rat := (rd s F.ck_LOCK_NS 0 0 : Nat)
  if absRat off ≤ lim then
    let n := min 16 (s.ptp.good + 1)
    let s := { s with ptp := { s.ptp with good := n } }
    (false, if n = 16 ∧ !rdb s F.ck_LOCKED 0 0 then lockWon s else s)
  else
    let s := { s with ptp := { s.ptp with good := 0 } }
    if 4 * lim < absRat off ∧ rdb s F.ck_LOCKED 0 0 then (true, lockLost s) else (false, s)

/-! ### The servo (R317) -/

/-- A time in units of 2^-16 ns as nanoseconds. -/
def ptpNs (t : Int) : Rat := (t : Rat) / 65536

/-- The servo's step: i, adj and INCR from e, nanoseconds per second (DEDUCED, log 91). -/
def servoStep (e : Rat) (hold : Bool) (s : State) : State :=
  let m : Rat := (rd s F.ck_SLEW_MAX 0 0 : Nat)
  let i := clampRat (s.ptp.integral + (rd s F.ck_KI 0 0 : Nat) / 256 * e) m
  let adj := -clampRat ((rd s F.ck_KP 0 0 : Nat) / 256 * e + i) m
  let s := { s with ptp := { s.ptp with integral := i } }
  let s := wr F.ck_ADJ_PPB 0 0 (unsignedOf (ratRound adj) 32) s
  if hold || !rdb s F.ck_SERVO_EN 0 0 then s
  else wr F.ck_INCR 0 0 ((nominalIncr : Int) + ratRound ((nominalIncr : Nat) * adj / 1000000000)).toNat s

/-- The servo runs for a Sync whose t1 and t2 are known, once the path delay is. -/
def servo (t1 t2 : Int) (s : State) : State :=
  let prev := s.ptp.last
  let s := sat F.ck_SYNC_RX 0 0 1 { s with ptp := { s.ptp with last := some (t1, t2) } }
  match s.ptp.delay with
  | none => s
  | some d =>
    let off := ptpNs (t2 - t1) - d
    let s := wr F.ck_OFFSET_NS 0 0 (unsignedOf (ratRound off) 32) s
    let (lost, s) := judgeOffset off s
    let limit : Rat := (rd s F.ck_STEP_THRESHOLD 0 0 : Nat)
    if rdb s F.ck_STEP_EN 0 0 ∧ limit < absRat off then
      let s := stepTime (-(ratRound (off * 2 ^ 32))) s
      sat F.ck_STEPS 0 0 1 { s with ptp := { s.ptp with
        integral := 0, last := some (t1, t2 - ratRound (off * 65536)) } }
    else
      match prev with
      | none => s
      | some p => if t1 = p.1 then s else servoStep (off * 1000000000 / ptpNs (t1 - p.1)) lost s

/-! ### The best master clock (R314) -/

/-- The clock identity: the EUI-64 formed from the MAC address of port 0. -/
def clockIdentity (s : State) : Nat :=
  let m := rd s F.pt_MAC_ADDR 0 0
  (m / 2 ^ 24) * 2 ^ 40 + 0xFFFE * 2 ^ 24 + m % 2 ^ 24

/-- What this clock announces of itself. -/
def ownGm (s : State) : Gm :=
  { priority1 := rd s F.ck_PRIORITY1 0 0, clockClass := if rdb s F.ck_PTP_ROLE 0 0 then 248 else 255, accuracy := 0xFE
    variance := 0xFFFF, priority2 := rd s F.ck_PRIORITY2 0 0, identity := clockIdentity s, steps := 0 }

/-- Lists of numbers in order, the first difference deciding. -/
def lexLt : List Nat → List Nat → Bool
  | a :: as, b :: bs => decide (a < b) || (decide (a = b) && lexLt as bs)
  | _, _ => false

/-- The order in which data sets of masters are compared: the lesser is the better. -/
def gmKey (g : Gm) (source : Nat) : List Nat :=
  [g.priority1, g.clockClass, g.accuracy, g.variance, g.priority2, g.identity, g.steps, source]

/-- The best foreign master of which an Announce came within the announce receipt timeout, three announce intervals
(PRESUMED, log 92). -/
def liveBest (s : State) : Option (Gm × Nat) :=
  if s.ptp.annInterval = 0 ∨ nowNs s ≤ s.ptp.annNs + 3 * s.ptp.annInterval then s.ptp.best else none

/-- This clock is master: its role allows it, and no better master is known. -/
def isMaster (s : State) : Bool :=
  rdb s F.ck_PTP_ROLE 0 0 && (match liveBest s with
    | none => true
    | some b => lexLt (gmKey (ownGm s) (clockIdentity s)) (gmKey b.1 b.2))

/-- The master this clock follows. -/
def parent (s : State) : Option Nat := if isMaster s then none else (liveBest s).map (·.2)

/-- PORT_STATE and GM_IDENTITY by the data sets. -/
def showMaster (s : State) : State :=
  if isMaster s then
    (if (liveBest s).isSome then wr F.ck_PORT_STATE 0 0 6 (wr F.ck_GM_IDENTITY 0 0 (clockIdentity s) s) else s)
  else match liveBest s with
    | some b => wr F.ck_PORT_STATE 0 0 (if rdb s F.ck_LOCKED 0 0 then 9 else 8) (wr F.ck_GM_IDENTITY 0 0 b.1.identity s)
    | none => wr F.ck_PORT_STATE 0 0 4 s

/-! ### Received messages (R314, R317) -/

/-- A PTP message arrives: it is counted, and acts on the PTP port and in the part's domain. -/
def ptpTake (m : PtpMsg) (act : State → State) (s : State) : State :=
  if !portHears s m.port then s
  else
    let s := countRx m.port m.size s
    if !sizeAllowed m.size then sat F.pt_FRAME_SIZE_ERRORS m.port 0 1 s
    else if ptpPort s != some m.port then sat F.ck_PTP_DISCARDS 0 0 1 s
    else if m.domain ≠ rd s F.ck_DOMAIN 0 0 then s
    else act s

/-- A Sync of the master this clock follows. -/
def onSync (m : PtpMsg) (s : State) : State :=
  if parent s != some m.source then s
  else
    let s := { s with ptp := { s.ptp with lastNs := nowNs s, interval := m.interval } }
    let t2 := rxTime s m.port m.stamp
    if m.twoStep then { s with ptp := { s.ptp with waiting := some (m.seq, t2, m.interval) } }
    else servo m.time t2 { s with ptp := { s.ptp with waiting := none } }

/-- SYNC. -/
def execSync (m : PtpMsg) (s : State) : Host.Outcome State Fault Refusal := .next (ptpTake m (onSync m) s)

/-- A Follow_Up supplies t1 of the Sync it names. -/
def onFollowUp (m : PtpMsg) (s : State) : State :=
  match s.ptp.waiting with
  | some (seq, t2, _) =>
    if parent s == some m.source && seq == m.seq then servo m.time t2 { s with ptp := { s.ptp with waiting := none } } else s
  | none => s

/-- FOLLOW_UP. -/
def execFollowUp (m : PtpMsg) (s : State) : Host.Outcome State Fault Refusal := .next (ptpTake m (onFollowUp m) s)

/-- A Delay_Resp to this clock's port supplies t4, and with it the mean path delay. -/
def onDelayResp (m : PtpMsg) (s : State) : State :=
  match s.ptp.asked, s.ptp.last with
  | some (seq, t3), some (t1, t2) =>
    if parent s == some m.source && seq == m.seq && m.requester == clockIdentity s * 2 ^ 16 + 1 then
      let d := (ptpNs (t2 - t1) + ptpNs (m.time - t3)) / 2
      wr F.ck_MEAN_PATH_NS 0 0 (unsignedOf (ratRound d) 32) { s with ptp := { s.ptp with asked := none, delay := some d } }
    else s
  | _, _ => s

/-- DELAY_RESP. -/
def execDelayResp (m : PtpMsg) (s : State) : Host.Outcome State Fault Refusal := .next (ptpTake m (onDelayResp m) s)

/-- An Announce feeds the best master clock algorithm. -/
def onAnnounce (m : PtpMsg) (gm : Gm) (s : State) : State :=
  let s := sat F.ck_ANNOUNCE_RX 0 0 1 s
  let better := match liveBest s with
    | none => true
    | some b => b.2 == m.source || lexLt (gmKey gm m.source) (gmKey b.1 b.2)
  let changed := match liveBest s with
    | some b => b.2 != m.source
    | none => true
  let p := s.ptp
  let p := if better then { p with best := some (gm, m.source), annNs := nowNs s, annInterval := m.interval } else p
  let p := if better && changed then { p with last := none, waiting := none, asked := none, delay := none, good := 0 } else p
  showMaster { s with ptp := p }

/-- ANNOUNCE. -/
def execAnnounce (m : PtpMsg) (gm : Gm) (s : State) : Host.Outcome State Fault Refusal := .next (ptpTake m (onAnnounce m gm) s)

/-- SYNC_LOSS (R317): eight intervals pass with no Sync. -/
def syncLoss (s : State) : State :=
  if s.ptp.best.isNone || s.ptp.interval == 0 || isMaster s then s
  else
    let s := advanceTo (coreAfterNs s (s.ptp.lastNs + 8 * s.ptp.interval - 1)) s
    let s := if rdb s F.ck_LOCKED 0 0 then lockLost s else s
    showMaster { s with ptp := { s.ptp with
      best := none, interval := 0, last := none, waiting := none, asked := none, delay := none, good := 0 } }

/-- SYNC_LOSS. -/
def execSyncLoss (s : State) : Host.Outcome State Fault Refusal := .next (syncLoss s)

/-! ### Messages the part sends (R301, R314), laid out as IEEE 1588-2019 does -/

/-- The `n` big-endian bytes of a number. -/
def natBe (n v : Nat) : List Byte := (natLe n v).reverse

/-- The multicast address of PTP frames (R299). -/
def ptpMac : Nat := 0x011B19000000

/-- A port identity: clock identity and port number 1. -/
def portIdentity (id : Nat) : List Byte := natBe 8 id ++ natBe 2 1

/-- The header of a message (PRESUMED, log 92). -/
def ptpHeader (s : State) (kind len flags corr seq ctl log : Nat) : List Byte :=
  natBe 1 kind ++ natBe 1 0x12 ++ natBe 2 len ++ natBe 1 (rd s F.ck_DOMAIN 0 0) ++ natBe 1 0 ++ natBe 2 flags ++ natBe 8 corr ++
    natBe 4 0 ++ portIdentity (clockIdentity s) ++ natBe 2 seq ++ natBe 1 ctl ++ natBe 1 log

/-- A timestamp of a time in units of 2^-16 ns: seconds and nanoseconds. -/
def ptpStamp (t : Nat) : List Byte := natBe 6 (t / 65536 / 1000000000) ++ natBe 4 (t / 65536 % 1000000000)

/-- A PTP frame leaves the PTP port. -/
def sendPtp (p : Nat) (bytes : List Byte) (s : State) : State :=
  transmit p ptpMac (classTag s p classControl) 0x88F7 classControl bytes [] s

/-- SYNC_TX (R314): the master's two-step Sync, which crossed the sampling plane at `stamp`, and its Follow_Up. -/
def syncTx (stamp : Nat) (s : State) : State :=
  match ptpPort s with
  | none => s
  | some p =>
    if !portCarries s p || !isMaster s then s
    else
      let n := s.ptp.seqSync
      let s := wr F.ck_PORT_STATE 0 0 6 (wr F.ck_GM_IDENTITY 0 0 (clockIdentity s) s)
      let s := sendPtp p (ptpHeader s 0 44 0x0200 0 n 0 0 ++ natBe 10 0) s
      let t := txTime s p stamp
      let s := sendPtp p (ptpHeader s 8 44 0 (t % 65536) n 2 0 ++ ptpStamp t) s
      { s with ptp := { s.ptp with seqSync := (n + 1) % 65536 } }

/-- SYNC_TX. -/
def execSyncTx (stamp : Nat) (s : State) : Host.Outcome State Fault Refusal := .next (syncTx stamp s)

/-- ANNOUNCE_TX (R314). -/
def announceTx (s : State) : State :=
  match ptpPort s with
  | none => s
  | some p =>
    if !portCarries s p || !isMaster s then s
    else
      let n := s.ptp.seqAnnounce
      let g := ownGm s
      let s := wr F.ck_PORT_STATE 0 0 6 (wr F.ck_GM_IDENTITY 0 0 (clockIdentity s) s)
      let s := sendPtp p (ptpHeader s 0xB 64 0 0 n 5 1 ++ natBe 10 0 ++ natBe 2 0 ++ natBe 1 0 ++ natBe 1 g.priority1 ++
        natBe 1 g.clockClass ++ natBe 1 g.accuracy ++ natBe 2 g.variance ++ natBe 1 g.priority2 ++ natBe 8 g.identity ++
        natBe 2 0 ++ natBe 1 0xA0) s
      { s with ptp := { s.ptp with seqAnnounce := (n + 1) % 65536 } }

/-- ANNOUNCE_TX. -/
def execAnnounceTx (s : State) : Host.Outcome State Fault Refusal := .next (announceTx s)

/-- DELAY_REQ_TX (R317): the slave's Delay_Req crosses the sampling plane at `stamp`; its transmit timestamp is t3. -/
def delayReqTx (stamp : Nat) (s : State) : State :=
  match ptpPort s, parent s with
  | some p, some _ =>
    if !portCarries s p then s
    else
      let n := s.ptp.seqDelay
      let s := sat F.ck_DELAY_REQ_TX 0 0 1 (sendPtp p (ptpHeader s 1 44 0 0 n 1 0x7F ++ natBe 10 0) s)
      { s with ptp := { s.ptp with seqDelay := (n + 1) % 65536, asked := some (n, (txTime s p stamp : Int)) } }
  | _, _ => s

/-- DELAY_REQ_TX. -/
def execDelayReqTx (stamp : Nat) (s : State) : Host.Outcome State Fault Refusal := .next (delayReqTx stamp s)

/-- As master, the part answers a Delay_Req: to the port identity it came from, with its correctionField less the part of
the receive time below a nanosecond (PRESUMED, log 92). -/
def onDelayReq (m : PtpMsg) (s : State) : State :=
  let t := rxTime s m.port m.stamp
  if isMaster s then
    sendPtp m.port (ptpHeader s 9 54 0 (unsignedOf (m.time - (t % 65536 : Nat)) 64) m.seq 3 0 ++ ptpStamp t ++ natBe 10 m.source) s
  else s

/-- DELAY_REQ. -/
def execDelayReq (m : PtpMsg) (s : State) : Host.Outcome State Fault Refusal := .next (ptpTake m (onDelayReq m) s)

end Sys2Proof.Machine
end

