-- ==== Sys2Proof/Machine/Query.lean ====
section
/-! DEFINITION. Queries: admission (R218), chains (R214 to R216), completion (R219, R220), query frames (R310, R311) and the
query rings of the host (R331 to R334). -/

namespace Sys2Proof.Machine

open Sys2Proof

/-! ### Endpoints -/

/-- Groups that a chain names. -/
def chainGroups (ch : Chain) : List Nat := ((ch.entries.filter fun c => c.cls == 5).map (·.waitA)).dedup

/-- Every group of an endpoint is ready (R218, R387). -/
def epGroupsReady (s : State) (e : Nat) : Bool :=
  !rdb s F.fa_DEVICE_FATAL 0 0 && (chainGroups (chainOf s e)).all (groupReady s)

/-- Elements of an endpoint's output: the length of its last entry. -/
def epOutput (s : State) (e : Nat) : Nat :=
  let ch := chainOf s e
  match ch.entries.getLast? with
  | some c => if c.cls = 5 then 512 * (c.aCount / c.aKseg) else (vLen (chainCtx s e 0 ch) c).1
  | none => 0

/-! ### The list of queries -/

/-- Queries admitted to endpoint `e` and not completed. -/
def epQueries (s : State) (e : Nat) : List Query := s.queries.filter fun q => q.ep == e

/-- The list replaced, with OUTSTANDING of endpoint `e`. -/
def setQueries (e : Nat) (qs : List Query) (s : State) : State :=
  wr F.qe_OUTSTANDING 0 e (min 255 (qs.filter fun q => q.ep == e).length) { s with queries := qs }

/-- Query `k` of endpoint `e`. -/
def findQuery (s : State) (e k : Nat) : Option Query := s.queries.find? fun q => q.ep == e && q.k == k

/-- A query changed. -/
def putQuery (q : Query) (s : State) : State :=
  setQueries q.ep (s.queries.map fun r => if r.ep = q.ep ∧ r.k = q.k then q else r) s

/-! ### Admission (R218) -/

/-- The first reason to refuse a query, if any; `malformed` is reason 0x6 of a host descriptor. -/
def refusal (s : State) (e count : Nat) (malformed : Bool) : Option Nat :=
  if !epDefined s e then some 1
  else if !rdb s F.qe_ADMIT_EN 0 e then some 2
  else if rd s F.qe_QUEUE_BOUND 0 e ≤ ((epQueries s e).filter fun q => !q.started).length then some 3
  else if !epGroupsReady s e then some 4
  else if count ≠ epInput s e then some 5
  else if malformed then some 6
  else none

/-- The first chain origin of endpoint `e` from alignment period `n` on that no query has taken (R216, R218)
(DEDUCED, log 87). -/
def nextOrigin (s : State) (e : Nat) : Nat → Nat → Nat
  | 0, n => n
  | fuel + 1, n =>
    if (chainStarts s e).contains (n % 512) && !((epQueries s e).any fun q => q.origin == n) then n
    else nextOrigin s e fuel (n + 1)

/-- An admitted query (R218): its origin, its promise, its buffer. -/
def admitQuery (e clientTag arrival : Nat) (src : QuerySrc) (input : List Nat) (s : State) : State :=
  let n := apAtNs' s (arrival + 40)
  let used := (epQueries s e).map (·.k)
  let k := ((List.range (used.length + 1)).find? fun k => !used.contains k).getD 0
  let q : Query :=
    { ep := e, k := k, src := src, clientTag := clientTag, arrival := arrival
      promised := (arrival + rd s F.qe_PROMISE_NS 0 e) % 2 ^ 64, step := rd s F.cm_EPOCH 0 0, input := input
      origin := nextOrigin s e (512 * (used.length + 1)) n }
  setQueries e (s.queries ++ [q]) (sat F.qe_ADMITTED 0 e 1 s)
where
  /-- The first alignment period that begins at or after a device time. -/
  apAtNs' (s : State) (t : Nat) : Nat := ceilDiv (coreAfterNs s (t - 1)) 32

/-! ### Responses (R219, R220, R310, R333) -/

/-- Words 0 to 4 of a response or of a completion entry. -/
def respWords (e status count clientTag arrival promised completion step : Nat) : List Byte :=
  natLe 8 (e + status * 2 ^ 8 + count * 2 ^ 16 + (clientTag % 2 ^ 32) * 2 ^ 32) ++ natLe 8 arrival ++ natLe 8 promised ++
    natLe 8 completion ++ natLe 8 step

/-- A response frame, on the port its request came on, with a copy of the request's tag (R301); the port inserts COMPLETION
(R310). -/
def respFrame (p mac : Nat) (tag : Option Nat) (serial src dst e status clientTag arrival promised step : Nat) (out : List Byte) (s : State) :
    State :=
  let payload := respWords e status (out.length / 2) clientTag arrival promised (txStamp s p) step ++ out
  let bytes := rhazoBytes 6 dst src (rd s F.rs_GENERATION 0 0) payload.length none s.job.session 0 serial payload
  transmit p mac tag 0x88B5 classQuery bytes [] s

/-- The part may write a completion of ring pair `q` (R323, R328). -/
def ringWritable (s : State) (q : Nat) : Bool := !hostQuiet s && rdb s F.hi_RING_ENABLE 0 (20 + q)

/-- Output and completion entry of a host query (R329, R333), or their drop (R323). -/
def respRing (q index out e status clientTag arrival promised step : Nat) (data : List Byte) (s : State) : State :=
  if ringWritable s q then
    let s := if data.isEmpty then s else emit (.hostWrite out data) s
    let i := rd s F.hi_PART_INDEX 0 (20 + q)
    hostRingWrite (20 + q) 64 (respWords e status (data.length / 2) clientTag arrival promised (nowNs s) step ++
      natLe 8 (index % 2 ^ 32) ++ natLe 8 0 ++ natLe 8 (hostPhase s (20 + q) i)) s
  else sat F.hi_HOST_WRITES_DROPPED 0 0 1 s

/-- What a query leaves on the endpoint page when it completes at device time `done` (R220). -/
def countQuery (q : Query) (status done : Nat) (s : State) : State :=
  let e := q.ep
  let s := setQueries e (s.queries.filter fun r => !(r.ep == e && r.k == q.k)) s
  if status = 0xA then sat F.qe_UNDELIVERED 0 e 1 s
  else
    let s := sat (if status = 8 then F.qe_UNAVAILABLE else if status = 9 then F.qe_STALE else F.qe_COMPLETED) 0 e 1 s
    let s := wr F.qe_WORST_NS 0 e (max (rd s F.qe_WORST_NS 0 e) (min (done - q.arrival) (2 ^ 32 - 1))) s
    if q.promised < done then sat F.qe_LATE 0 e 1 (setb F.qe_LATE_SEEN 0 e true s) else s

/-- Every entry of the query's chain has run and landed. -/
def queryRan (s : State) (q : Query) : Bool :=
  q.started && decide ((chainOf s q.ep).entries.length ≤ q.next) &&
    !(s.tracker.any fun p => p.die == 16 + q.ep && p.tag / 64 == q.k)

/-- The status a query would complete with now, where it can complete (R220): `unready` says that a group of the chain
became not ready since the admission (DEDUCED, log 88). -/
def queryStatus (s : State) (q : Query) : Option Nat :=
  if q.unready || !epGroupsReady s q.ep then some 8
  else if queryRan s q then some (if q.stale then 9 else 0)
  else none

/-- The output bytes: what the last entry wrote (R215). -/
def queryBytes (s : State) (q : Query) (status : Nat) : List Byte :=
  if status = 8 then []
  else match q.outAt with
    | some o => readBytes s (o.1 % 64) (o.1 / 64) o.2
    | none => []

/-- A response that is ready leaves, with status `st` and output `out`; on a port without link it waits as it then stands
(R311). -/
def sendResp (q : Query) (st : Nat) (out : List Byte) (s : State) : State :=
  match q.src with
  | .frame p mac tag serial src dst =>
    if portCarries s p then
      countQuery q st (txStamp s p)
        (respFrame p mac tag serial src dst q.ep st q.clientTag q.arrival q.promised q.step out s)
    else if q.ready.isSome then s
    else putQuery { q with ready := some (s.core, st, out) } s
  | .ring r i o => countQuery q st (nowNs s) (respRing r i o q.ep st q.clientTag q.arrival q.promised q.step out s)

/-- QUERY_RESP (R219, R220, R311, R333): the response of query `k` of endpoint `e` is ready. One that waits for its port's link
leaves with it. -/
def queryResp (e k : Nat) (s : State) : State :=
  match findQuery s e k with
  | none => s
  | some q =>
    match q.ready, queryStatus s q with
    | none, some st => sendResp q st (queryBytes s q st) s
    | _, _ => s

/-- QUERY_RESP. -/
def execQueryResp (ep k : Nat) (s : State) : Host.Outcome State Fault Refusal := .next (queryResp ep k s)

/-- The responses that wait for the link of port `p`, the first to be ready first. -/
def readyOn (s : State) (p : Nat) : List Query :=
  let at' (q : Query) : Nat := (q.ready.map (·.1)).getD 0
  (s.queries.filter fun q => q.ready.isSome && match q.src with
    | .frame p' _ _ _ _ _ => p' == p
    | .ring _ _ _ => false).mergeSort (le := fun a b => decide (at' a ≤ at' b))

/-- LINK_UP (R302, R305, R311, R318): the link of an enabled port comes up; what waits for it leaves, responses first, but for
those whose promised time has passed. -/
def linkUp (p : Nat) (s : State) : State :=
  if s.stage = .clocked ∧ portFitted s p ∧ rdb s F.pt_ENABLE p 0 ∧ !rdb s F.pt_LINK_UP p 0 then
    let s := linkRises p s
    sendWaiting ((readyOn s p).foldl (fun s q => match q.ready with
      | some r => if q.promised < nowNs s then countQuery q 0xA (nowNs s) s else sendResp q r.2.1 r.2.2 s
      | none => s) s)
  else s

/-- LINK_UP. -/
def execLinkUp (p : Nat) (s : State) : Host.Outcome State Fault Refusal := .next (linkUp p s)

/-- QUERY_UNDELIVERED (R220, R311): the promised time comes with the response's port still without link. -/
def queryUndelivered (e k : Nat) (s : State) : State :=
  match findQuery s e k with
  | none => s
  | some q =>
    match q.src, q.ready.isSome || (queryStatus s q).isSome with
    | .frame p _ _ _ _ _, true =>
      if portCarries s p then s
      else
        let s := advanceTo (coreAfterNs s (q.promised - 1)) s
        countQuery q 0xA (nowNs s) s
    | _, _ => s

/-- QUERY_UNDELIVERED. -/
def execQueryUndelivered (ep k : Nat) (s : State) : Host.Outcome State Fault Refusal := .next (queryUndelivered ep k s)

/-! ### Requests -/

/-- QUERY_REQ (R218, R310): a request frame arrives. -/
def queryReq (f : Frame) (e count clientTag : Nat) (input : List Nat) (s : State) : State :=
  match arrive f (8 + 2 * input.length) true s with
  | (none, s) => s
  | (some s, _) =>
    match refusal s e count false with
    | some code =>
      respFrame f.port f.mac f.tag f.serial f.srcRank f.dstRank e code clientTag (rxNs s f) 0 (rd s F.cm_EPOCH 0 0) []
        (sat F.qe_REFUSED 0 e 1 s)
    | none => admitQuery e clientTag (rxNs s f) (.frame f.port f.mac f.tag f.serial f.srcRank f.dstRank) input s

/-- QUERY_REQ. -/
def execQueryReq (f : Frame) (endpoint count clientTag : Nat) (input : List Nat) (s : State) :
    Host.Outcome State Fault Refusal :=
  .next (queryReq f (endpoint % 256) count clientTag input s)

/-- Queries of ring pair `q` read and not completed. -/
def ringQueries (s : State) (q : Nat) : Nat := (s.queries.filter fun r => match r.src with
  | .ring p _ _ => p == q
  | _ => false).length

/-- A descriptor of submission ring `q` may be read: the rings are enabled, one waits, and the completion ring has room
(R332). -/
def ringHasNext (s : State) (q : Nat) : Bool :=
  let part (r : Nat) := rd s F.hi_PART_INDEX 0 r
  let host (r : Nat) := rd s F.hi_HOST_INDEX 0 r
  let sub := 4 + q
  let cmp := 20 + q
  decide (q < 16) && rdb s F.hi_RING_ENABLE 0 sub && rdb s F.hi_RING_ENABLE 0 cmp && decide (part sub ≠ host sub) &&
    decide ((part cmp + 2 ^ 32 - host cmp) % 2 ^ 32 + ringQueries s q < hostRingSize s cmp)

/-- Ring `q` is served next: the first after the one served last that has something to read (R332). -/
def ringReads (s : State) (q : Nat) : Bool :=
  !hostQuiet s && !s.perst && decide (s.stage = .clocked) &&
    ((List.range 16).map fun i => (s.lastRing + 1 + i) % 16).find? (ringHasNext s) == some q

/-- A descriptor is malformed: reason 0x6 (R218, R332). -/
def badDescriptor (s : State) (w : List Nat) : Bool :=
  let w0 := w.getD 0 0
  let n := bits w0 16 16
  bits w0 8 8 != 0 || (w.drop 3).any (· != 0) || w.getD 1 0 % 64 != 0 || w.getD 2 0 % 64 != 0 || n == 0 ||
    decide (2048 < n) || decide (2048 < epOutput s (bits w0 0 8))

/-- QUERY_DESCRIPTOR (R331, R332): a descriptor of ring `q` and its input are read, or the read fails. -/
def queryDescriptor (q : Nat) (w input : List Nat) (bad : Bool) (s : State) : State :=
  if !ringReads s q then s
  else if bad then
    setb F.hi_RING_ERROR_SEEN 0 0 true (sat F.hi_RING_ERRORS 0 0 1 (setb F.hi_RING_ENABLE 0 (4 + q) false
      { s with lastRing := q }))
  else
    let s : State := { s with lastRing := q }
    let i := rd s F.hi_PART_INDEX 0 (4 + q)
    let s := wr F.hi_PART_INDEX 0 (4 + q) (i + 1) s
    let w0 := w.getD 0 0
    let e := bits w0 0 8
    let ns := nowNs s
    match refusal s e (bits w0 16 16) (badDescriptor s w) with
    | some code =>
      respRing q i (w.getD 2 0) e code (bits w0 32 32) ns 0 (rd s F.cm_EPOCH 0 0) [] (sat F.qe_REFUSED 0 e 1 s)
    | none => admitQuery e (bits w0 32 32) ns (.ring q i (w.getD 2 0)) input s

/-- QUERY_DESCRIPTOR (DESIGN CHOICE, log 90): at the sender's time. -/
def execQueryDescriptor (q : Nat) (words input : List Nat) (bad : Bool) (s : State) : Host.Outcome State Fault Refusal :=
  .next (queryDescriptor q words input bad s)

/-! ### Chains (R195, R214, R215) -/

/-- The query of endpoint `e` whose chain starts next. -/
def nextStart (s : State) (e : Nat) : Option Query :=
  let qs := (epQueries s e).filter fun q => !q.started
  qs.find? fun q => qs.all fun r => decide (q.origin ≤ r.origin)

/-- CHAIN_START (R215, R218): a chain origin comes; the query's input lies in its buffer. -/
def chainStart (e : Nat) (s : State) : State :=
  match nextStart s e with
  | none => s
  | some q =>
    if !landedBy s (32 * q.origin) then s
    else
      let s := advanceTo (32 * q.origin) s
      let a := Config.queryBuffer (e + 256 * q.k) % 2 ^ 48
      let bytes := (List.range (epInput s e)).flatMap fun i => natLe 2 (q.input.getD i 0)
      putQuery { q with started := true } (store (dieSpace (epDie s e)) a bytes s)

/-- CHAIN_START. -/
def execChainStart (ep : Nat) (s : State) : Host.Outcome State Fault Refusal := .next (chainStart ep s)

/-- The tag that guard and error-log entries of an endpoint carry (R195). -/
def epTag (e : Nat) : Nat := 0xFB * 2 ^ 12 + e

/-- An early read of a chain entry is recorded and no more (R195, R197). -/
def guardEntryOf (e c : Nat) (rs : List Range) (s : State) : State :=
  match earlySummary s c rs with
  | some (a, n, d) => guardEntry (epDie s e) (epTag e) 0 1 n (epDie s e) a d s
  | none => s

/-- The tracker entry of a chain entry that lands at core cycle `land` (DEDUCED, log 89). -/
def chainOp (e k i land : Nat) (r : OpResult) : PendingOp :=
  { die := 16 + e, tag := k * 64 + i, gen := 0, land := some land, landed := false, token := 0, produce := none
    notify := false, writes := r.writes, larder := r.larder, tags := r.tags, counts := r.counts, audits := r.audits }

/-- A chain entry starts: what it reads is checked, its writes land later. -/
def chainIssue (q : Query) (i rc land : Nat) (r : OpResult) (s : State) : State :=
  addOp (chainOp q.ep q.k i land r) (reportReads (epTag q.ep) r.reads (guardEntryOf q.ep rc r.reads s))

/-- An entry whose writes overlap its reads writes nothing (R156). -/
def OpResult.unlessOverlap (r : OpResult) : OpResult :=
  if r.overlap then { r with writes := [], larder := [], tags := [], counts := [] } else r

/-- Such an entry is a program-fatal error, with the tag of its endpoint (R156, R173). -/
def chainOverlap (e : Nat) (r : OpResult) (s : State) : State :=
  if r.overlap then
    programFatal (epDie s e) 0 (epTag e) (errorLog 0x25 (epDie s e) 2 7 (epTag e) true 0 0 s)
  else s

/-- The place of what an entry writes to its destination. -/
def resultAt (r : OpResult) : Option (Nat × Nat) := (r.writes.head?).map fun w => (w.key, w.bytes.length)

/-- CHAIN_ENTRY (R215): the next entry of query `k` of endpoint `e`. `codes` says by how many steps the raw codes of a
product depart from their nominal values (DESIGN CHOICE, log 20). A product takes its arrays as they stand when its first
integration period begins, to which time comes (R55, R72). An entry whose group is not ready does not run, and the
query completes with status 0x8. -/
def chainEntry (e k : Nat) (codes : List (Nat × Int)) (s : State) : State :=
  match findQuery s e k with
  | none => s
  | some q =>
    let ch := chainOf s e
    match ch.entries[q.next]?, q.started with
    | some c, true =>
      let off := q.origin + c.issueOffset
      let ap := if c.cls = 5 then off - 1 else off
      let t := 32 * ap
      let x := { chainCtx s e k ch with tag := epTag e }
      let last := decide (q.next + 1 = ch.entries.length)
      let die := c.waitA / 16
      if !landedBy s t || (c.cls == 5 && productHeld s die x c ap) then s
      else if c.cls = 5 ∧ !groupReady s c.waitA then putQuery { q with unready := true } (advanceTo t s)
      else
        let s := advanceTo t s
        let q' := { q with next := q.next + 1 }
        if c.cls = 5 then
          let rc := readCycle die x c ap
          let o := productWork x c die c.waitA off codes (asOf rc s) s
          let s := chainIssue q q.next rc (32 * (off + o.land)) o.res s
          advanceTo (32 * off)
            (putQuery { q' with stale := q.stale || o.stale, outAt := if last then resultAt o.res else none }
              (occupyArrays c.waitA die ap c.aSparse o.arrays s))
        else
          let w := vectorWork c.op x c (asOf t s)
          let r := w.unlessOverlap
          let s := chainOverlap e w (chainIssue q q.next t (t + r.lat.getD 0) r s)
          putQuery { q' with outAt := if last then resultAt r else none } (setBusy (engineKey (epDie s e) 79) (t + r.occ) s)
    | _, _ => s

/-- CHAIN_ENTRY. -/
def execChainEntry (ep k : Nat) (codes : List (Nat × Int)) (s : State) : Host.Outcome State Fault Refusal :=
  .next (chainEntry ep k codes s)

end Sys2Proof.Machine
end

