-- ==== Sys2Proof/Machine/Regs.lean ====
section
/-! DEFINITION. What a register read returns: stored fields, staged fields (R357), and the fields the part works out from
its state (R201, R222, R239, R254, R350, R351, R356, R364, R374 to R378). -/

namespace Sys2Proof.Machine

open Sys2Proof

/-! ### Readiness (R350, R351, R364) -/

/-- A port page whose port is disabled. -/
def portDisabled (s : State) (u : Nat) : Bool := unitPage u == 0x40 && !rdb s F.pt_ENABLE (unitInst u) 0

/-- READY of a page other than the identity page. -/
def blockReady (s : State) (u : Nat) : Bool := decide (s.stage = .clocked) && pageReady s u

/-- Every page but the identity page is ready or a disabled port: READY of the identity page (R350, R364). -/
def allReady (s : State) : Bool :=
  (allPages s.variant).all fun u => unitPage u == 0x01 || portDisabled s u || blockReady s u

/-- READY as a page's STATUS shows it. -/
def shownReady (s : State) (u : Nat) : Bool := if unitPage u = 0x01 then allReady s else blockReady s u

/-- The pages not ready, disabled ports excluded, in directory order. -/
def notReady (s : State) : List Nat := (allPages s.variant).filter fun u => !portDisabled s u && !shownReady s u

/-- The first page in directory order with READY = 0, a disabled port's among them (R364). -/
def firstNotReady (s : State) : Nat := ((allPages s.variant).filter fun u => !shownReady s u).headD 0

/-- Every listed page whose type `p` picks is ready, disabled ports excluded. -/
def typesReady (s : State) (p : Nat → Bool) : Bool :=
  (allPages s.variant).all fun u => !p (unitPage u) || portDisabled s u || blockReady s u

/-- A field of the readiness summary (R364). -/
def summaryField (s : State) (fid : Nat) : Option Nat :=
  if fid = F.id_ALL_READY.fid then some (b2n (allReady s))
  else if fid = F.id_MEMORY_READY.fid then some (b2n (typesReady s (· == 0x30)))
  else if fid = F.id_ARRAYS_READY.fid then some (b2n (typesReady s (· == 0x11)))
  else if fid = F.id_PORTS_READY.fid then some (b2n (typesReady s (· == 0x40)))
  else if fid = F.id_TIME_LOCKED.fid then some (rd s F.ck_LOCKED 0 0)
  else if fid = F.id_ENGINES_READY.fid then some (b2n (typesReady s fun t => decide (0x20 ≤ t ∧ t ≤ 0x25 ∧ t ≠ 0x24)))
  else if fid = F.id_SHELF_READY.fid then some (b2n (!(readyDrives s).isEmpty))
  else if fid = F.id_FIRMWARE_READY.fid then some (b2n (typesReady s (· == 0x50)))
  else if fid = F.id_NOT_READY_PAGES.fid then some (notReady s).length
  else if fid = F.id_EXPERT_PAGES.fid then some ((allPages s.variant).filter (expertActive s)).length
  else if fid = F.id_FIRST_TYPE.fid then some (unitPage (firstNotReady s))
  else if fid = F.id_FIRST_INSTANCE.fid then some (unitInst (firstNotReady s))
  else if fid = F.id_SIGNATURE.fid then some (signature s)
  else none

/-! ### Temperature and power (R374, R376, R378) -/

/-- The outer site of a sensor holds an I/O die. -/
def siteIo (s : State) (site : Nat) : Bool := rd s F.id_SITE_IO 0 site == 1

/-- Warning, limit and trip of a sensor's die, in degrees (R376). -/
def thermLimits (s : State) (k : Nat) : Int × Int × Int :=
  if k < 4 then (90, 95, 110)
  else if k < 20 then (80, 85, 100)
  else if k < 44 then (if siteIo s (k - 20) then (95, 100, 115) else (90, 95, 105))
  else (95, 100, 115)

/-- The digital die associated with a sensor's die (R8, R378). -/
def sensorDie (k : Nat) : Nat :=
  if k < 4 then k else if k < 20 then (k - 4) / 4 else if k < 44 then (k - 20) / 6 else k - 44

/-- A sensor's last reading, in 1/8 of a degree. -/
def tempOf (s : State) (k : Nat) : Int := signedOf (rd s F.pw_TEMP 0 k) 16

/-- A sensor stands at or above a threshold in degrees. -/
def tempAtLeast (s : State) (k : Nat) (t : Int) : Bool := decide (8 * t ≤ tempOf s k)

/-- The 48 sensors. -/
def sensors : List Nat := List.range 48

/-- THERM_WARN (R376). -/
def thermWarn (s : State) : Bool := sensors.any fun k => tempAtLeast s k (thermLimits s k).1

/-- The power limit in force, in watts (R374). -/
def effectiveLimit (s : State) : Nat :=
  min 4200 (min s.power.limit (min (max (rd s F.pw_PKG_LIMIT 0 0) 1500) 4200))

/-- The largest duty (R378): DUTY_MAX bounds both loops, also a duty that it was lowered below. -/
def dutyMax (s : State) : Nat := min 56 (rd s F.pw_DUTY_MAX 0 0)

/-- The duty in force on digital die `b` (R376). -/
def dutyOf (s : State) (b : Nat) : Nat := min (dutyMax s) (max (s.power.capDuty.getD b 0) (s.power.thermDuty.getD b 0))

/-- Throttling acts for power reasons (R375). -/
def capActive (s : State) : Bool := s.power.capDuty.any (· != 0)

/-! ### Buckets (R239, R254) -/

/-- BUCKET_STATE of a bucket on its owner and on any other device. -/
def bucketState (s : State) (b : Nat) : Nat :=
  let x := bx s b
  if !bucketDefined s b then 0
  else if ownerHere s b then x.state
  else if !x.noticed then 1
  else if x.final then (if x.nVeto then 5 else 4)
  else 3

/-- The ranks of a bucket's bitmap: what the owner has included, or what the notice says. -/
def bucketRanks (s : State) (b : Nat) : List Nat := if ownerHere s b then (bx s b).included else (bx s b).nMap

/-- A field of the exchange page's bucket window, for bucket `b`; `idx` is the rank for the bitmap. -/
def bucketField (s : State) (fid b idx : Nat) : Option Nat :=
  let x := bx s b
  if fid = F.ex_BUCKET_STATE.fid then some (bucketState s b)
  else if fid = F.ex_OWNER_HERE.fid then some (b2n (ownerHere s b))
  else if fid = F.ex_AGREE_VALID.fid then some (b2n x.agreeValid)
  else if fid = F.ex_OVERFLOW.fid then some (b2n (x.ovf.any x.included.contains))
  else if fid = F.ex_NONFINITE.fid then some (b2n (!x.nonfin.isEmpty))
  else if fid = F.ex_INCLUDED_SELF.fid then some (b2n ((bucketRanks s b).contains (ownRank s)))
  else if fid = F.ex_INCLUDED.fid then some (bucketRanks s b).length
  else if fid = F.ex_DEADLINE_TIME.fid then some (x.deadline.getD 0)
  else if fid = F.ex_INCLUDED_MAP.fid then some (b2n ((bucketRanks s b).contains idx))
  else none

/-! ### Sequencers and queues (R201) -/

/-- The die whose queues a sequencer page shows: its own, or the array die of the selected array-group sequencer. -/
def shownQueueDie (s : State) (die : Nat) : Nat :=
  let n := rd s F.sq_SEQ_SEL die 0
  if n < 89 then die else 8 + 4 * die + (n - 89) / 16

/-- QUEUE_SEL as it reads: bits [9:8] are reserved while an array-group sequencer is selected (R201). -/
def queueSel (s : State) (die : Nat) : Nat :=
  let n := rd s F.sq_QUEUE_SEL die 0
  if rd s F.sq_SEQ_SEL die 0 < 89 then n else n % 256

/-- The queue a sequencer page shows: the one QUEUE_SEL names, which for an array-group sequencer lies among the 16 of its
group (R201) (DEDUCED, log 154). -/
def shownQueueNo (s : State) (die : Nat) : Nat :=
  let n := rd s F.sq_SEQ_SEL die 0
  if n < 89 then queueSel s die else 16 * ((n - 89) % 16) + queueSel s die % 16

/-- The tokens of the queue a sequencer page shows. -/
def shownQueue (s : State) (die : Nat) : List QTok := queueOf s (shownQueueDie s die) (shownQueueNo s die)

/-- A sequencer of the die is running or waiting. -/
def dieRunning (s : State) (die : Nat) : Bool := (List.range 153).any fun n => seqBusy s ⟨die, n⟩

/-- A field of the sequencer-and-queue page that follows the state. -/
def seqField (s : State) (fid die : Nat) : Option Nat :=
  if fid = F.sq_RUNNING.fid then some (b2n (dieRunning s die))
  else if fid = F.sq_QUEUE_SEL.fid then some (queueSel s die)
  else if fid = F.sq_QUEUE_FILL.fid then some (shownQueue s die).length
  else if fid = F.sq_HEAD_TOKEN.fid then some (((shownQueue s die).head?.map (·.word)).getD 0)
  else none

/-! ### Array pages -/

/-- Retired arrays of a die. -/
def retiredCount (s : State) (die : Nat) : Nat := ((List.range 1040).filter fun p => (arrX s die p).retired).length

/-- A field of an array-group or array-die page that follows the state; `p` is the selected array. -/
def arrayField (s : State) (fid die p : Nat) : Option Nat :=
  if fid = F.ag_BYPASSED.fid then some (bypassed s die p).length
  else if fid = F.ag_PERM_COUNT.fid then some ((bypassed s die p).filter fun j => rdA s F.ag_PERMANENT die p j == 1).length
  else if fid = F.ag_BYPASS_LIMIT.fid then some (bypassLimit s die p)
  else if fid = F.ag_AUDIT_PAUSED.fid then some (b2n (!auditSlotFree s die p))
  else if fid = F.ad_SPARES_FREE.fid then some (sparesFree s die)
  else if fid = F.ad_RETIRED.fid then some (retiredCount s die)
  else none

/-! ### Rings -/

/-- RING_IDLE (R328): the ring is disabled and nothing read from it is outstanding. -/
def ringIdle (s : State) (r : Nat) : Bool :=
  !rdb s F.hi_RING_ENABLE 0 r && (r < 4 || ringQueries s ((r - 4) % 16) == 0)

/-! ### A field as a read shows it -/

/-- A field that follows the state, if `x` is one on page `u` (DEDUCED, log 106). -/
def derivedField (s : State) (u : Nat) (x : Slot) : Option Nat :=
  let fid := x.f.fid
  let i := unitInst u
  if fid = F.com_READY.fid then some (b2n (shownReady s u))
  else if fid = F.com_REASON.fid then
    some (if shownReady s u then 0
      else if s.stage ≠ .clocked ∨ unitPage u = 0x01 then 1
      else if portDisabled s u then 0x0A else rdU s x.f x.unit x.idx)
  else if fid = F.com_EXPERT_ACTIVE.fid then some (b2n (expertActive s u))
  else
    match unitPage u with
    | 0x01 => summaryField s fid
    | 0x02 => if fid = F.cm_PENDING_AT.fid then some (pendingAtNs s) else none
    | 0x03 =>
      if fid = F.ck_TIME_NS.fid then some (nowNs s)
      else if fid = F.ck_ALIGN_COUNT.fid then some (nowAp s) else none
    | 0x04 =>
      if fid = F.pw_LIMIT_C.fid then some (thermLimits s x.idx).2.1.toNat
      else if fid = F.pw_EFFECTIVE_LIMIT.fid then some (effectiveLimit s)
      else if fid = F.pw_CAP_ACTIVE.fid then some (b2n (capActive s))
      else if fid = F.pw_THERM_WARN.fid then some (b2n (thermWarn s))
      else if fid = F.pw_DUTY.fid then some (dutyOf s x.idx) else none
    | 0x10 => arrayField s fid i 0
    | 0x11 =>
      if fid = F.ag_FRAME_MAP_CUR.fid then some (mapInForce s i x.idx)
      else arrayField s fid (arraySel s i).1 (arraySel s i).2
    | 0x25 => seqField s fid i
    | 0x41 => bucketField s fid (rd s F.ex_BUCKET_SEL i 0) x.idx
    | 0x51 => if fid = F.hi_RING_IDLE.fid then some (b2n (ringIdle s x.idx)) else none
    | 0x60 => if fid = F.he_WARM.fid then some (b2n (decide (rd s F.he_WARMUP 0 0 ≤ rd s F.he_SAMPLES 0 0))) else none
    | 0x61 => if fid = F.rs_CELLARS_INVALID.fid then some (cellarsInvalid s) else none
    | 0x62 => if fid = F.qe_GROUPS_READY.fid then some (b2n (epDefined s x.idx && epGroupsReady s x.idx)) else none
    | _ => none

/-- A field is significant on this page's instance number only. -/
def elsewhere (f : Field) (i : Nat) : Bool := (f.only == 1 && i != 0) || (f.only == 16 && i % 16 != 0)

/-- The value a read of page `u` shows for a field: WO bits read 0, ST fields their staged value (R349, R357). -/
def shown (s : State) (u : Nat) (x : Slot) : Nat :=
  if elsewhere x.f (unitInst u) then 0
  else match x.f.acc with
    | .wo => 0
    | .st => stgU s x.f x.unit x.idx
    | _ => (derivedField s u x).getD (rdU s x.f x.unit x.idx)

/-- The register at offset `off` of page `u`. -/
def regWord (s : State) (u off : Nat) : Nat :=
  (slotsAt s u off).foldl (fun w x => w + (shown s u x % 2 ^ x.f.width) * 2 ^ x.bit) 0

/-! ### BAR0 (R344, R370) -/

/-- A page answers register reads: always once the main domain is out of reset, its clocks running, starting or failed to
start, and the directory and the identity page also in reset (R370, R372, R373). -/
def pageReadable (s : State) (addr : Nat) : Bool :=
  mainRuns s || decide (addr < 8192)

/-- All ones, `n` bytes wide. -/
def allOnes (n : Nat) : Nat := 2 ^ (8 * n) - 1

/-- The 64-bit register at a BAR0 address, where a page maps it. -/
def bar0Word (s : State) (addr : Nat) : Option Nat :=
  if !pageReadable s addr then none
  else if addr < 4096 then some (dirWord s.variant (addr / 8 * 8))
  else (pageAt s.variant addr).map fun u => regWord s u (addr % 4096 / 8 * 8)

end Sys2Proof.Machine
end

