-- ==== Sys2Proof/Machine/Power.lean ====
section
/-! DEFINITION. Supplies, resets and bring-up (R366 to R373), orderly power-down (R369), power capping and thermal limits
(R374 to R376), and the SMBus target (R340, R341). -/

namespace Sys2Proof.Machine

open Sys2Proof

/-! ### Reset (R370) -/

/-- Fields that a main reset keeps: Bus Master Enable of the host endpoint, and the state of the feeds. -/
def keptFields : List Nat := [F.hi_BUS_MASTER.fid, F.pw_FEED_A_OK.fid, F.pw_FEED_B_OK.fid]

/-- The levels of the cells, which no reset changes (R373). -/
def keptCells (m : NMap ArrX) : NMap ArrX := m.map fun a => (a.1, { cells := a.2.cells })

/-- The reset of the main domain, which comes to stage `g` (R370): the auxiliary domain, the host endpoint, what the drives
hold and the levels of the cells are kept (DEDUCED, log 99). -/
def mainReset (g : Stage) (s : State) : State :=
  let s := dropTorn (fun _ => true) s
  let saved := newestCopy s.shelf.ledgers
  { State.blank s.variant g with
    pending := s.pending, d3hot := s.d3hot, perst := s.perst, flds := s.flds.filter fun kv => keptFields.contains kv.1.fid
    arrs := keptCells s.arrs, ledger := (saved.map (·.ledger)).getD [], ledgerBase := (saved.map (·.base)).getD []
    aux := s.aux
    fault := { shelf := s.fault.shelf }
    power := { limit := s.power.limit, resetHigh := s.power.resetHigh, keyReset := s.power.keyReset, orderly := s.power.orderly }
    shelf := s.shelf, out := s.out, freeCtr := s.freeCtr }

/-- The main rails are up. -/
def railsUp (s : State) : Bool := decide (s.stage ≠ .noAux) && decide (s.stage ≠ .standby)

/-- A main reset while the rails stay up; whether OFF_READY came before it decides about the ledgers (R96, R370). -/
def holdReset (s : State) : State :=
  if mainRuns s then mainReset .inReset { s with power := { s.power with orderly := rdb s F.pw_OFF_READY 0 0 } } else s

/-- The main rails are removed (R368): the main domain and the host endpoint lose their state, and PWR_OK falls. -/
def railsOff (s : State) : State :=
  let s' := mainReset .standby { s with power := { s.power with
    orderly := s.power.orderly && !mainRuns s, resetHigh := false, keyReset := false } }
  let s' := setb F.hi_BUS_MASTER 0 0 false { s' with d3hot := false }
  if railsUp s then emit (.pin "PWR_OK" false) s' else s'

/-- SYS_RESET_N_ASSERT (R370): SYS_RESET_N falls. -/
def sysResetAssert (s : State) : State := holdReset { s with power := { s.power with resetHigh := false } }

/-- SYS_RESET_N_ASSERT. -/
def execSysResetNAssert (s : State) : Host.Outcome State Fault Refusal := .next (sysResetAssert s)

/-- The main domain leaves reset: the root PLL starts to lock (R372). -/
def leaveReset (s : State) : State :=
  if s.stage = .inReset ∧ s.power.resetHigh ∧ !s.power.keyReset then { s with stage := .locking } else s

/-- SYS_RESET_N_RELEASE (R369): SYS_RESET_N rises; `early` says that PWR_OK has not been high for 1 ms, and then the release
is ignored until SYS_RESET_N has fallen and risen again. -/
def sysResetRelease (early : Bool) (s : State) : State :=
  if s.stage = .inReset ∧ !early then leaveReset { s with power := { s.power with resetHigh := true } } else s

/-- SYS_RESET_N_RELEASE. -/
def execSysResetNRelease (early : Bool) (s : State) : Host.Outcome State Fault Refusal := .next (sysResetRelease early s)

/-- A write of RESET_KEY (R370): 0xA5 holds the internal reset low for 1 ms. -/
def resetKey (key : Nat) (s : State) : State :=
  if key = 0xA5 ∧ mainRuns s then
    let s := holdReset s
    { s with power := { s.power with keyReset := true } }
  else s

/-- RESET_KEY (R370). -/
def execResetKey (agent : Agent) (key : Nat) (s : State) : Host.Outcome State Fault Refusal :=
  .next (if agentReaches s agent (unitOf 0x04 0) then resetKey key (pageAccess (unitOf 0x04 0) s) else s)

/-- RESET_KEY_RELEASE (R370): the internal reset ends. -/
def resetKeyRelease (s : State) : State := leaveReset { s with power := { s.power with keyReset := false } }

/-- RESET_KEY_RELEASE. -/
def execResetKeyRelease (s : State) : Host.Outcome State Fault Refusal := .next (resetKeyRelease s)

/-! ### Supplies (R367 to R369) -/

/-- AUX_3V3_UP (R369): the auxiliary domain starts. -/
def execAux3v3Up (s : State) : Host.Outcome State Fault Refusal :=
  .next (if s.stage = .noAux then { s with stage := .standby } else s)

/-- AUX_3V3_REMOVED (R370): every domain is reset; POWER_LIMIT is back at 4,200 W, THERM_TRIP_N is released and the fatal
summary is cleared. -/
def aux3v3Removed (s : State) : State :=
  if s.stage = .noAux then s
  else
    let s' := if s.aux.tripped then emit (.pin "THERM_TRIP_N" true) (railsOff s) else railsOff s
    { s' with stage := .noAux, flds := [], aux := {}, power := { orderly := s'.power.orderly } }

/-- AUX_3V3_REMOVED. -/
def execAux3v3Removed (s : State) : Host.Outcome State Fault Refusal := .next (aux3v3Removed s)

/-- FEED_x_OK, FEED_x_LOST_SEEN of feed A (0) or B. -/
def feedOk (feed : Nat) : Field := if feed = 0 then F.pw_FEED_A_OK else F.pw_FEED_B_OK
def feedLostSeen (feed : Nat) : Field := if feed = 0 then F.pw_FEED_A_LOST_SEEN else F.pw_FEED_B_LOST_SEEN

/-- A feed is good. -/
def powered (s : State) : Bool := rdb s F.pw_FEED_A_OK 0 0 || rdb s F.pw_FEED_B_OK 0 0

/-- FEED_GOOD (R369): a feed has been good for 10 ms; the rails ramp, unless a thermal trip holds them off (R376). -/
def feedGood (feed : Nat) (s : State) : State :=
  if s.stage = .noAux then s
  else
    let s := setb (feedOk feed) 0 0 true s
    if s.stage = .standby ∧ !s.aux.tripped then { s with power := { s.power with ramping := true } } else s

/-- FEED_GOOD. -/
def execFeedGood (feed : Nat) (s : State) : Host.Outcome State Fault Refusal := .next (feedGood feed s)

/-- FEED_LOST (R367, R368): a feed has stayed below 40 V for 20 µs; the loss of both removes the rails. -/
def feedLost (feed : Nat) (s : State) : State :=
  if !rdb s (feedOk feed) 0 0 then s
  else
    let s := setb (feedOk feed) 0 0 false (setb (feedLostSeen feed) 0 0 true (sat F.pw_FEED_LOSSES 0 0 1 s))
    if powered s then s else railsOff s

/-- FEED_LOST. -/
def execFeedLost (feed : Nat) (s : State) : Host.Outcome State Fault Refusal := .next (feedLost feed s)

/-- PWR_OK (R369): every rail is in regulation. -/
def pwrOk (s : State) : State :=
  if s.stage = .standby ∧ s.power.ramping then
    emit (.pin "PWR_OK" true) { s with stage := .inReset, power := { s.power with ramping := false } }
  else s

/-- PWR_OK. -/
def execPwrOk (s : State) : Host.Outcome State Fault Refusal := .next (pwrOk s)

/-- RAIL_FAULT (R384, R387): a rail of the unit named leaves regulation, fatal code 0x6; no dump. -/
def railFault (page inst : Nat) (s : State) : State := if railsUp s then railsOff (deviceFatal 0x6 page inst s) else s

/-- RAIL_FAULT. -/
def execRailFault (page inst : Nat) (s : State) : Host.Outcome State Fault Refusal := .next (railFault page inst s)

/-! ### Clocks and bring-up (R372, R373) -/

/-- The pages that are ready once the clocks run, the identity page apart. -/
def clockPages : List Nat := [unitOf 0x02 0, unitOf 0x03 0, unitOf 0x04 0]

/-- A page becomes ready. -/
def raiseReady (u : Nat) (s : State) : State := setReady u true 0 0 s

/-- PLL_LOCK (R372): the dividers start; ALIGN_COUNT and device time count from 0, and the mixer self-test of a reset runs
(R42) (DEDUCED, log 144). -/
def pllLock (s : State) : State :=
  if s.stage = .locking then
    mixerTest (clockPages.foldl (fun s u => raiseReady u s) { s with stage := .clocked, core := 0, time := 0 })
  else s

/-- PLL_LOCK. -/
def execPllLock (s : State) : Host.Outcome State Fault Refusal := .next (pllLock s)

/-- PLL_LOCK_TIMEOUT (R372): every page goes on reporting reason 0x01, and the power-and-thermal page reports FAULT. -/
def pllLockTimeout (s : State) : State :=
  if s.stage = .locking then wrU F.com_FAULT (unitOf 0x04 0) 0 1 { s with stage := .unlocked } else s

/-- PLL_LOCK_TIMEOUT. -/
def execPllLockTimeout (s : State) : Host.Outcome State Fault Refusal := .next (pllLockTimeout s)

/-- Feuno firmware runs on some control die. -/
def firmwareRuns (s : State) : Bool := (List.range 4).any fun c => pageReady s (unitOf 0x50 c)

/-- PROG_COUNT at or above the LIFE_BUDGET in force makes a column permanently bypassed (R97, R105, DESIGN CHOICE, log 130). -/
def lifeCheck (k : FKey) (s : State) : State :=
  if k.fid = F.ag_PROG_COUNT.fid ∧ (writeLimits s (unitInst k.unit)).2 ≤ rdU s F.ag_PROG_COUNT k.unit k.idx ∧
      rdU s F.ag_PERMANENT k.unit k.idx = 0 then
    makePermanent (unitInst k.unit) (k.idx / 1024) (k.idx % 1024) s
  else s

/-- The columns of an array die whose counts the budget in force has come down to are permanently bypassed, but those
that a write runs on: their write's end does it (R97, R105). -/
def lifeAll (die : Nat) (s : State) : State :=
  let mine (k : FKey) : Bool := k.fid == F.ag_PROG_COUNT.fid && k.unit == arrayUnit die
  let keys : List FKey := if (writeLimits s die).2 ≤ nmGet 0 die s.progBase then
      (List.range 1040).flatMap fun p => (List.range 512).map fun j => ⟨F.ag_PROG_COUNT.fid, arrayUnit die, arrIdx p j⟩
    else (s.flds.filter fun kv => mine kv.1).map (·.1)
  let runs (k : FKey) : Bool := (arrX s die (k.idx / 1024)).write.any fun w => w.running && w.col == k.idx % 1024
  (keys.filter fun k => !runs k).foldl (fun s k => lifeCheck k s) s

/-- PROG_COUNT of every column of an array die raised by `n`, up to its largest value. -/
def addCounts (die n : Nat) (s : State) : State :=
  let top (v : Nat) : Nat := min (v + n) (fieldMax F.ag_PROG_COUNT)
  let mine (k : FKey) : Bool := k.fid == F.ag_PROG_COUNT.fid && unitInst k.unit == die
  { s with
    progBase := nmSet die (top (nmGet 0 die s.progBase)) s.progBase
    flds := s.flds.map fun kv => if mine kv.1 then (kv.1, top kv.2) else kv }

/-- Firmware's copy of the ledgers of an array die is that of a copy on the shelf. -/
def loadLedger (die : Nat) (l : ShelfCopy) (s : State) : State :=
  let mine (k : FKey) : Bool := unitInst k.unit == die
  { s with
    ledger := s.ledger.filter (fun kv => !mine kv.1) ++ l.ledger.filter fun kv => mine kv.1
    ledgerBase := s.ledgerBase.filter (fun kv => kv.1 != die) ++ l.base.filter fun kv => kv.1 == die }

/-- Firmware restores the ledgers of an array die at power-up (R96): from the newest copy on the shelf whose CRC matches (R338),
with LEDGER_LOSS_ADD after a power loss without orderly shutdown; with no drive that holds one, every count is half of
LIFE_BUDGET (DEDUCED, log 98). -/
def bootLedgers (die : Nat) (s : State) : State :=
  let mine (k : FKey) : Bool := k.fid == F.ag_PROG_COUNT.fid && unitInst k.unit == die
  let s := match newestLedger s with
    | none =>
      setb F.ad_LEDGER_UNKNOWN die 0 true { s with
        progBase := nmSet die ((writeLimits s die).2 / 2) s.progBase, flds := s.flds.filter fun kv => !mine kv.1 }
    | some l =>
      let s := restoreLedgers (· == die) (loadLedger die l (driveReadLedger die s))
      if s.power.orderly then s else addCounts die (rd s F.ad_LEDGER_LOSS_ADD die 0) s
  raiseReady (unitOf 0x10 die) (s.flds.foldl (fun t kv => if mine kv.1 then lifeCheck kv.1 t else t) s)

/-- An array group's bring-up (R373): the ledgers of its die, then the cupping verify; the verify's end makes it ready. -/
def bringUpGroup (g : Nat) (s : State) : State :=
  if rdU s F.com_REASON (groupUnit g) 0 = 9 then
    startVerify g false (if pageReady s (unitOf 0x10 (g / 16)) then s else bootLedgers (g / 16) s)
  else if rdb s F.ag_VERIFY_RUNNING g 0 ∧ verifyLeft s g = 0 then verifyComplete g [] s
  else s

/-- DUMP_SHELF_VALID (R391): a ready drive holds a copy of a dump whose CRCs match. -/
def showShelfDump (s : State) : State :=
  if (shelfDump s).isSome then setb F.fa_DUMP_SHELF_VALID 0 0 true s else s

/-- A drive could not be used, for the reason FAIL_REASON names (R335, R343). -/
def driveRefused (c reason : Nat) (s : State) : State :=
  wr F.sh_FAIL_REASON c 0 reason (setb F.sh_LINK_UP c 0 (reason != 1) s)

/-- What enumeration and identification of a drive found (R335), in this order: the link is up, a switch stands below the
port, the controller's version register, it has the NVM command set, namespace 1 is present, the binary logarithm of its data
block, bytes of metadata per block, its protection information, and its size in bytes (DESIGN CHOICE, log 96). -/
def driveFault (slotBytes : Nat) (info : List Nat) : Nat :=
  let v (i : Nat) : Nat := info.getD i 0
  if v 0 = 0 then 1
  else if v 1 ≠ 0 then 2
  else if v 2 / 65536 ≠ 2 ∨ v 3 = 0 then 3
  else if v 4 = 0 ∨ !([9, 12].contains (v 5)) ∨ v 6 ≠ 0 ∨ v 7 ≠ 0 then 4
  else if v 8 < 4 * 2 ^ 30 + 2 * slotBytes then 5
  else 0

/-- A drive was enumerated and identified (R335): one that meets every condition is used. -/
def bringUpDrive (c : Nat) (info : List Nat) (s : State) : State :=
  if rdb s F.sh_DRIVE_FAILED c 0 then s
  else
    let code := driveFault (rd s F.sh_SLOT_BYTES 0 0) info
    let s := if code = 0 ∨ code = 5 then wr F.sh_LBA_SHIFT c 0 (info.getD 5 0) (wr F.sh_CAPACITY c 0 (info.getD 8 0) s) else s
    let s := driveRefused c code s
    if code ≠ 0 then s
    else
      let s := driveIssue c (driveStart ++ [.getLog 2, .read 0 4096, .read sessionPlace 4096]) (setb F.sh_DRIVE_READY c 0 true s)
      let s := driveSession c (writeLabel c s)
      showShelfDump (showSlots (raiseReady (unitOf 0x52 c) s))

/-- Firmware starts on a control die (R373): `info` holds its version. The first to start counts the session (R303). -/
def bringUpFirmware (c : Nat) (info : List Nat) (s : State) : State :=
  let v := info.getD 0 0
  let s := if firmwareRuns s then s
    else
      let n := ((newestCopy s.shelf.sessions).map (·.session)).getD 0 + 1
      let job := { s.job with session := n % 65536 }
      { s with shelf := { s.shelf with session := n }, job := job }
  raiseReady (unitOf 0x50 c) (wr F.cd_FW_VERSION c 0 v (wr F.id_FW_VERSION 0 0 v s))

/-- The fault page's bring-up (R385, R392): `info` holds DUMP_BASE and the places of the four log rings. -/
def bringUpFaults (info : List Nat) (s : State) : State :=
  let s := wr F.fa_DUMP_BASE 0 0 (info.getD 0 0) s
  let s := (List.range 4).foldl (fun s l =>
    setb F.fa_LOG_EN 0 l true (wr F.fa_LOG_SIZE 0 l 14 (wr F.fa_LOG_BASE 0 l (info.getD (l + 1) 0) s))) s
  showShelfDump (raiseReady (unitOf 0x70 0) s)

/-- A block finishes its bring-up (R373) (DESIGN CHOICE, log 96). -/
def blockUp (u : Nat) (info : List Nat) (s : State) : State :=
  let i := unitInst u
  match unitPage u with
  | 0x10 => if firmwareRuns s then bootLedgers i s else s
  | 0x11 => if firmwareRuns s then bringUpGroup i s else s
  | 0x40 => portReady i s
  | 0x50 => bringUpFirmware i info s
  | 0x52 => if pageReady s (unitOf 0x50 i) then bringUpDrive i info s else s
  | 0x70 => if firmwareRuns s then bringUpFaults info s else s
  | p => if p ≤ 0x04 ∨ (bringUpReason p = 9 ∧ firmwareRuns s = false) then s else raiseReady u s

/-- BLOCK_READY (R373): the block of page `unit` finishes a part of its bring-up. -/
def blockReadyEvent (u : Nat) (info : List Nat) (s : State) : State :=
  if s.stage = .clocked ∧ (allPages s.variant).contains u ∧ !pageReady s u then blockUp u info s else s

/-- BLOCK_READY. -/
def execBlockReady (unit : Nat) (info : List Nat) (s : State) : Host.Outcome State Fault Refusal :=
  .next (blockReadyEvent unit info s)

/-! ### Orderly power-down (R369) -/

/-- ORDERLY_OFF (R369): firmware is asked, and writes every ledger to the shelf; with no ready drive OFF_READY rises at once and
the ledgers are not saved. -/
def orderlyOff (s : State) : State :=
  if (readyDrives s).isEmpty then setb F.pw_OFF_READY 0 0 true s
  else saveLedgers (fun d => !s.dark.contains d && pageReady s (unitOf 0x10 d)) { s with power := { s.power with offAsked := true } }

/-- ORDERLY_OFF. -/
def execOrderlyOff (s : State) : Host.Outcome State Fault Refusal :=
  .next (if livePage s (unitOf 0x04 0) then orderlyOff (pageAccess (unitOf 0x04 0) s) else s)

/-- OFF_READY (R369): every ledger is on the shelf and the drives are closed by their flush. -/
def offReady (s : State) : State :=
  if s.power.offAsked ∧ drivesIdle s then
    setb F.pw_OFF_READY 0 0 true { s with power := { s.power with offAsked := false } }
  else s

/-- OFF_READY. -/
def execOffReady (s : State) : Host.Outcome State Fault Refusal := .next (offReady s)

/-! ### Power capping (R374, R375) -/

/-- The mean of column `i` of the samples, downwards. -/
def sampleMean (ss : List (List Nat)) (i : Nat) : Nat :=
  if ss.isEmpty then 0 else (ss.map fun l => l.getD i 0).sum / ss.length

/-- The fields that show the 1 ms averages, in the order of a sample. -/
def averageFields : List Field :=
  [F.pw_PKG_POWER, F.pw_DIGITAL_W, F.pw_ARRAY_W, F.pw_MEMORY_W, F.pw_IO_W, F.pw_CONTROL_W, F.pw_CONVERSION_W]

/-- POWER_SAMPLE (R374): package input in 0.1 W, the feeds' voltages and currents as the page holds them, and the domains'
power in watts, every 10 µs. -/
def powerSample (input : Nat) (feeds domains : List Nat) (s : State) : State :=
  if !railsUp s then s
  else
    let ss := s.power.samples ++ [input :: domains]
    let ss := ss.drop (ss.length - 100)
    let s := { s with power := { s.power with samples := ss } }
    let s := averageFields.zipIdx.foldl (fun s fi => wr fi.1 0 0 (sampleMean ss fi.2) s) s
    [F.pw_FEED_A_MV, F.pw_FEED_A_MA, F.pw_FEED_B_MV, F.pw_FEED_B_MA].zipIdx.foldl (fun s fi =>
      wr fi.1 0 0 (feeds.getD fi.2 0) s) s

/-- POWER_SAMPLE. -/
def execPowerSample (input : Nat) (feeds domains : List Nat) (s : State) : Host.Outcome State Fault Refusal :=
  .next (powerSample input feeds domains s)

/-- One more frame in 64 on the first die with the smallest duty; one less on the last with the largest (R374). -/
def raiseDuty (m : Nat) (ds : List Nat) : List Nat :=
  let low := ds.foldl min 64
  if m ≤ low then ds else ds.modify (((List.range 4).find? fun i => ds.getD i 0 == low).getD 0) (· + 1)
def lowerDuty (ds : List Nat) : List Nat :=
  let high := ds.foldl max 0
  if high = 0 then ds else ds.modify (((List.range 4).reverse.find? fun i => ds.getD i 0 == high).getD 0) (· - 1)

/-- The 1 ms average stands above the limit. -/
def aboveLimit (s : State) : Bool := decide (10 * effectiveLimit s < rd s F.pw_PKG_POWER 0 0)

/-- The power loop's duties after an evaluation (R374). -/
def capLoop (s : State) : List Nat :=
  let lim := effectiveLimit s
  let ds := s.power.capDuty.map (min (dutyMax s))
  if aboveLimit s then raiseDuty (dutyMax s) ds
  else if rd s F.pw_PKG_POWER 0 0 * 4096 < 10 * lim * (4096 - rd s F.pw_CAP_HYST 0 0) then lowerDuty ds
  else ds

/-- The thermal loop's duty of digital die `b` after an evaluation (R376). -/
def thermLoop (s : State) (b : Nat) : Nat :=
  let d := min (dutyMax s) (s.power.thermDuty.getD b 0)
  let mine := sensors.filter fun k => sensorDie k == b
  if mine.any fun k => tempAtLeast s k (thermLimits s k).2.1 then min (d + 1) (dutyMax s)
  else if mine.all fun k => !tempAtLeast s k (thermLimits s k).1 then d - 1
  else d

/-- Frame `n` of a die with duty `d` is throttled: the throttled frames lie evenly in each 64 (R375)
(DEDUCED, log 104). -/
def throttled (d n : Nat) : Bool := decide (n * d / 64 < (n + 1) * d / 64)

/-- A throttled frame of digital die `b` (R375): the issue timelines of its sequencers stop up to core cycle `e`. -/
def throttleDie (b e : Nat) (s : State) : State :=
  (List.range 153).foldl (fun s n =>
    let q : SeqId := ⟨b, n⟩
    let x := seqX s q
    setSeqX q { x with base := x.base + 16384 / domCycles q, floor := e } s) s

/-- The frame that starts now, on digital die `b`: throttled or not, and by which loop (R375, R376). -/
def startFrame (n : Nat) (s : State) (b : Nat) : State :=
  let c := s.power.capDuty.getD b 0
  let h := s.power.thermDuty.getD b 0
  if throttled (max c h) n then
    let s := addW F.pw_THROTTLED_FRAMES 0 0 1 (throttleDie b (16384 * (n + 1)) s)
    let s := if h ≤ c then sat F.pw_CAP_FRAMES 0 0 1 s else s
    if c ≤ h then sat F.pw_THERM_FRAMES 0 0 1 s else s
  else s

/-- CAP_EVAL (R374 to R376): the next package frame boundary. -/
def capEval (s : State) : State :=
  if s.stage ≠ .clocked then s
  else
    let n := s.core / 16384
    let n := if s.core % 16384 = 0 ∧ s.power.frame ≠ some n then n else n + 1
    let s := advanceTo (16384 * n) s
    let cap := capLoop s
    let therm := (List.range 4).map (thermLoop s)
    let full := aboveLimit s && cap.all fun d => decide (dutyMax s ≤ d)
    let since := if full then some (s.power.unmet.getD (nowNs s)) else none
    let s := { s with power := { s.power with capDuty := cap, thermDuty := therm, frame := some n, unmet := since } }
    (List.range 4).foldl (startFrame n) s

/-- CAP_EVAL. -/
def execCapEval (s : State) : Host.Outcome State Fault Refusal := .next (capEval s)

/-- CAP_UNMET (R375): the average has been above the limit for 10 ms at full duty. -/
def capUnmet (s : State) : State :=
  match s.power.unmet with
  | none => s
  | some t => setb F.pw_CAP_UNMET_SEEN 0 0 true (advanceTo (coreAfterNs s (t + 10000000 - 1)) s)

/-- CAP_UNMET. -/
def execCapUnmet (s : State) : Host.Outcome State Fault Refusal := .next (capUnmet s)

/-! ### Temperatures (R376) -/

/-- The page type and number of a sensor's die. -/
def sensorPage (s : State) (k : Nat) : Nat × Nat :=
  if k < 4 then (0x20, k)
  else if k < 20 then (0x10, k - 4)
  else if k < 44 then (if siteIo s (k - 20) then 0x40 else 0x30, rd s F.id_SITE_PAGE 0 (k - 20))
  else (0x50, k - 44)

/-- One reading, and the highest since the last clear. -/
def noteTemp (k : Nat) (t : Int) (s : State) : State :=
  let top := if s.power.tempSeen.contains k then max t (signedOf (rd s F.pw_TEMP_MAX 0 k) 16) else t
  wr F.pw_TEMP 0 k (unsignedOf t 16) (wr F.pw_TEMP_MAX 0 k (unsignedOf top 16)
    { s with power := { s.power with tempSeen := k :: s.power.tempSeen.filter (· != k) } })

/-- Time with an array die at or above its limit (R376). -/
def countHot (s : State) : State :=
  if ((List.range 16).map (· + 4)).any fun k => tempAtLeast s k (thermLimits s k).2.1 then
    let us := s.power.hotUs + 100
    let s := { s with power := { s.power with hotUs := us % 1000 } }
    if 1000 ≤ us then sat F.pw_ARRAY_HOT_MS 0 0 1 s else s
  else s

/-- A thermal trip of a sensor's die (R376): fatal code 0x7 in the fatal summary, the rails removed, THERM_TRIP_N low
(DEDUCED, log 105). -/
def thermTrip (k : Nat) (s : State) : State :=
  let p := sensorPage s k
  let t := nowNs s
  let step := stepNo s
  let s := railsOff (deviceFatal 0x7 p.1 p.2 s)
  emit (.pin "THERM_TRIP_N" false) { s with aux := { s.aux with
    fatal := true, dumpReady := false, onShelf := false, type := p.1, inst := p.2, time := t, step := step, code := 7
    tripped := true } }

/-- TEMP_SAMPLE (R376): the 48 sensors are read, in 1/8 of a degree. -/
def tempSample (temps : List Int) (s : State) : State :=
  if !railsUp s then s
  else
    let s := (temps.take 48).zipIdx.foldl (fun s tk => noteTemp tk.2 tk.1 s) s
    let s := if thermWarn s then setb F.pw_THERM_WARN_SEEN 0 0 true s else s
    let s := countHot s
    match sensors.find? fun k => tempAtLeast s k (thermLimits s k).2.2 with
    | some k => thermTrip k s
    | none => s

/-- TEMP_SAMPLE. -/
def execTempSample (temps : List Int) (s : State) : Host.Outcome State Fault Refusal := .next (tempSample temps s)

/-! ### SMBus (R340, R341) -/

/-- An answer of the target, where the command is answered: `always` with AUX_3V3 alone, the others only with the rails
up. -/
def smbusAnswer (always : Bool) (bs : State → List Byte) (s : State) : State :=
  if s.stage = .noAux then s
  else if always || railsUp s then emit (.smbus (bs s)) s
  else emit .smbusNack s

/-- The bytes of IDENT. -/
def identBytes (s : State) : List Byte :=
  natLe 2 (rd s F.id_VENDOR_ID 0 0) ++ natLe 2 (rd s F.id_DEVICE_ID 0 0) ++ natLe 1 (rd s F.id_STEP_LETTER 0 0) ++
    natLe 1 (rd s F.id_STEP_DIGIT 0 0) ++ natLe 1 s.variant.code ++ natLe 1 0 ++ natLe 8 (rd s F.id_SERIAL 0 0)

/-- IDENT (R341). -/
def execIdent (s : State) : Host.Outcome State Fault Refusal := .next (smbusAnswer true identBytes s)

/-- Some page holds a fault. -/
def anyFault (s : State) : Bool := s.flds.any fun kv => kv.1.fid == F.com_FAULT.fid && kv.2 == 1

/-- The word of STATUS (DEDUCED, log 103). -/
def statusWord (s : State) : Nat :=
  b2n (powered s) + 2 * b2n (allReady s) + 4 * b2n (anyFault s) + 8 * rd s F.fa_DEVICE_FATAL 0 0 +
    16 * rd s F.fa_DUMP_READY 0 0 + 32 * b2n (capActive s) + 64 * b2n (thermWarn s)

/-- STATUS (R341). -/
def execStatus (s : State) : Host.Outcome State Fault Refusal := .next (smbusAnswer true (fun s => natLe 2 (statusWord s)) s)

/-- The hottest of some sensors, in whole degrees downwards, as a byte. -/
def hottest (s : State) (ks : List Nat) : Nat :=
  match ks.map (tempOf s) with
  | [] => 0
  | t :: ts => unsignedOf ((ts.foldl max t).fdiv 8) 8

/-- The bytes of TEMPS. -/
def tempBytes (s : State) : List Byte :=
  let sites (io : Bool) : List Nat := ((List.range 24).filter fun n => siteIo s n == io).map (· + 20)
  [List.range 4, (List.range 16).map (· + 4), sites false, sites true, (List.range 4).map (· + 44)].flatMap
    (fun ks => natLe 1 (hottest s ks)) ++ natLe 3 0

/-- TEMPS (R341). -/
def execTemps (s : State) : Host.Outcome State Fault Refusal := .next (smbusAnswer false tempBytes s)

/-- The bytes of POWER. -/
def powerBytes (s : State) : List Byte :=
  natLe 2 (rd s F.pw_PKG_POWER 0 0) ++ natLe 2 (rd s F.pw_FEED_A_MV 0 0) ++ natLe 2 (rd s F.pw_FEED_A_MA 0 0) ++
    natLe 2 (rd s F.pw_FEED_B_MV 0 0) ++ natLe 2 (rd s F.pw_FEED_B_MA 0 0)

/-- POWER (R341). -/
def execPower (s : State) : Host.Outcome State Fault Refusal := .next (smbusAnswer false powerBytes s)

/-- The command codes of R341. -/
def smbusCodes : List Nat := [0x00, 0x01, 0x10, 0x11, 0x20, 0x30]

/-- POWER_LIMIT (R340, R341): a read or a write; a write with a wrong PEC is discarded, one outside the range is not
acknowledged, nor is a command whose code R341 does not list. -/
def powerLimit (access : SmbusAccess) (pecOk : Bool) (s : State) : State :=
  match access with
  | .read => smbusAnswer false (fun s => natLe 2 s.power.limit) s
  | .write v =>
    if s.stage = .noAux then s
    else if !railsUp s then emit .smbusNack s
    else if !pecOk then s
    else if 1500 ≤ v ∧ v ≤ 4200 then { s with power := { s.power with limit := v } }
    else emit .smbusNack s
  | .unlisted code => if s.stage = .noAux ∨ smbusCodes.contains code then s else emit .smbusNack s

/-- POWER_LIMIT. -/
def execPowerLimit (access : SmbusAccess) (pecOk : Bool) (s : State) : Host.Outcome State Fault Refusal :=
  .next (powerLimit access pecOk s)

/-- The bytes of FATAL_SUMMARY. -/
def fatalBytes (s : State) : List Byte :=
  let a := s.aux
  natLe 1 (b2n a.fatal + 2 * b2n a.dumpReady + 4 * b2n a.onShelf) ++ natLe 1 a.type ++ natLe 2 a.inst ++ natLe 8 a.time ++
    natLe 8 a.step ++ natLe 4 a.code ++ natLe 8 0

/-- FATAL_SUMMARY (R341). -/
def execFatalSummary (s : State) : Host.Outcome State Fault Refusal := .next (smbusAnswer false fatalBytes s)

end Sys2Proof.Machine
end

