-- ==== Sys2Proof/Machine/Host.lean ====
section
/-! DEFINITION. The host endpoint: its resets and power states (R323, R370), rings and doorbells (R327, R328, R342), and the
drives behind the root ports (R335 to R337). -/

namespace Sys2Proof.Machine

open Sys2Proof

/-! ### Resets of the endpoint (R323, R370) -/

/-- Every ring is disabled, its indices read 0, and WIN_BASE reads 0 (R323). -/
def hostBlockReset (s : State) : State :=
  let s := (List.range 36).foldl (fun s r =>
    setb F.hi_RING_ENABLE 0 r false (wr F.hi_HOST_INDEX 0 r 0 (wr F.hi_PART_INDEX 0 r 0 s))) s
  wr F.hi_WIN_BASE 0 0 0 s

/-- The endpoint answers configuration requests: it is powered and out of PERST_N (R370). -/
def endpointUp (s : State) : Bool := railsUp s && !s.perst

/-- FUNCTION_LEVEL_RESET (R323): the host interface block only (PRESUMED, log 102). -/
def execFunctionLevelReset (s : State) : Host.Outcome State Fault Refusal :=
  .next (if endpointUp s then hostBlockReset s else s)

/-- D3HOT (R323): entry to D3hot. -/
def execD3hot (s : State) : Host.Outcome State Fault Refusal :=
  .next (if endpointUp s then hostBlockReset { s with d3hot := true } else s)

/-- D0_ENTRY (R323): the function is back in D0. -/
def execD0Entry (s : State) : Host.Outcome State Fault Refusal :=
  .next (if endpointUp s then { s with d3hot := false } else s)

/-- PERST_N_ASSERT (R370): configuration space goes to its defaults, with the effects of R323. -/
def perstAssert (s : State) : State := setb F.hi_BUS_MASTER 0 0 false (hostBlockReset { s with perst := true, d3hot := false })

/-- PERST_N_ASSERT. -/
def execPerstNAssert (s : State) : Host.Outcome State Fault Refusal := .next (perstAssert s)

/-- The capabilities of the function, and no others (R322). -/
def pciCapabilities (s : State) : List PciCapability :=
  [.powerManagement 0, .pciExpress, .advancedErrorReporting, .deviceSerialNumber (rd s F.id_SERIAL 0 0), .dataLinkFeature,
    .physicalLayer16, .physicalLayer32, .physicalLayer64, .laneMargining]

/-- The configuration space that the function presents: the class code of a processing accelerator (R2) (PRESUMED, log 143),
R322's capabilities and R324's base address registers; no interrupt is ever requested (R322). -/
def configSpace (s : State) : ConfigSpace :=
  { vendor := rd s F.id_VENDOR_ID 0 0, device := rd s F.id_DEVICE_ID 0 0, classCode := 0x120000
    bars := [⟨0, true, false, 64 * 2 ^ 20⟩, ⟨2, true, true, 64 * 2 ^ 30⟩], expansionRom := false
    capabilities := pciCapabilities s, interruptPin := 0, interruptDisable := true
    busMaster := rdb s F.hi_BUS_MASTER 0 0 }

/-- PERST_N_RELEASE (R370): the endpoint, where it is powered, answers configuration requests from now on. -/
def perstRelease (s : State) : State :=
  if railsUp s && s.perst then emit (.config (configSpace s)) { s with perst := false } else { s with perst := false }

/-- PERST_N_RELEASE. -/
def execPerstNRelease (s : State) : Host.Outcome State Fault Refusal := .next (perstRelease s)

/-- BUS_MASTER_ENABLE (R323, R342): a configuration write. -/
def execBusMasterEnable (value : Bool) (s : State) : Host.Outcome State Fault Refusal :=
  .next (if endpointUp s then setb F.hi_BUS_MASTER 0 0 value s else s)

/-! ### Rings (R327, R328) -/

/-- A write of RING_ENABLE: setting it sets both indices to 0 (R328). -/
def ringEnable (r : Nat) (v : Bool) (s : State) : State :=
  if v = rdb s F.hi_RING_ENABLE 0 r then s
  else
    let s := setb F.hi_RING_ENABLE 0 r v s
    if v then wr F.hi_HOST_INDEX 0 r 0 (wr F.hi_PART_INDEX 0 r 0 s) else s

/-- The host reaches the registers: its endpoint is up and in D0, and the clocks run. -/
def hostRegs (s : State) : Bool := decide (s.stage = .clocked) && hostUp s

/-- RING_ENABLE. -/
def execRingEnable (ring : Nat) (value : Bool) (s : State) : Host.Outcome State Fault Refusal :=
  .next (if ring < 36 ∧ hostRegs s then ringEnable ring value (pageAccess (unitOf 0x51 0) s) else s)

/-- A submission ring (R327). -/
def isSubmission (r : Nat) : Bool := decide (4 ≤ r ∧ r < 20)

/-- A doorbell value is valid (R328): modulo 2^32, it does not move the index backwards, and leaves a submission ring no
fuller than it is, or does not pass PART_INDEX of a completion ring. -/
def doorbellValid (s : State) (r v : Nat) : Bool :=
  let old := rd s F.hi_HOST_INDEX 0 r
  let part := rd s F.hi_PART_INDEX 0 r
  let ahead := (v + 2 ^ 32 - old) % 2 ^ 32
  if isSubmission r then
    decide (ahead < 2 ^ 31) && decide ((v + 2 ^ 32 - part) % 2 ^ 32 ≤ hostRingSize s r)
  else decide (ahead ≤ (part + 2 ^ 32 - old) % 2 ^ 32)

/-- A write of a doorbell (R328). -/
def doorbell (r v : Nat) (s : State) : State :=
  let v := v % 2 ^ 32
  if rdb s F.hi_RING_ENABLE 0 r && doorbellValid s r v then wr F.hi_HOST_INDEX 0 r v s
  else setb F.hi_DOORBELL_BAD_SEEN 0 0 true (sat F.hi_DOORBELL_BAD 0 0 1 s)

/-- HOST_INDEX. -/
def execHostIndex (ring value : Nat) (s : State) : Host.Outcome State Fault Refusal :=
  .next (if ring < 36 ∧ hostRegs s then doorbell ring value (pageAccess (unitOf 0x51 0) s) else s)

/-! ### Drives (R335 to R337, R343) -/

/-- A drive stops being used; a shelf image in flight that is striped over it fails (R277, R337). -/
def dropDrive (c : Nat) (s : State) : State :=
  let used := s.job.slotMask.contains c
  let s := setb F.sh_DRIVE_READY c 0 false (setReady (unitOf 0x52 c) false 0x08 0 (driveStop c s))
  let s := if used && s.job.flashBusy then shelfFail s else s
  showSlots s

/-- A drive fails (R337). -/
def failDrive (c reason : Nat) (s : State) : State :=
  let s := setb F.sh_DRIVE_FAILED c 0 true (setb F.sh_DRIVE_FAIL_SEEN c 0 true (wr F.sh_FAIL_REASON c 0 reason s))
  dropDrive c s

/-- A write of 1 to RESCAN (R337, R343): the port is enumerated again and the drive initialised again. -/
def rescan (c : Nat) (s : State) : State :=
  setb F.sh_DRIVE_FAILED c 0 false (setb F.sh_LINK_UP c 0 false (wr F.sh_FAIL_REASON c 0 0 (dropDrive c s)))

/-- RESCAN. -/
def execRescan (c : Nat) (s : State) : Host.Outcome State Fault Refusal :=
  .next (if livePage s (unitOf 0x52 c) then rescan c (pageAccess (unitOf 0x52 c) s) else s)

/-- NVME_COMPLETION (R337, R343): the `k`-th oldest command that waits on drive `c` completes; `crit` and `used` are the
Critical Warning and Percentage Used that a SMART log gives. -/
def nvmeCompletion (c : Nat) (ok : Bool) (k crit used : Nat) (s : State) : State :=
  match (driveX s c).waiting[k]? with
  | none => s
  | some o =>
    if !rdb s F.sh_DRIVE_READY c 0 then s
    else if !ok then failDrive c 6 (sat F.sh_CMD_ERRORS c 0 1 s)
    else
      let s := driveDone c k (driveCount c o.1 s)
      match o.1 with
      | .getLog 2 => wr F.sh_CRIT_WARNING c 0 crit (wr F.sh_PERCENT_USED c 0 used s)
      | _ => s

/-- NVME_COMPLETION (DEDUCED, log 110). -/
def execNvmeCompletion (c : Nat) (ok : Bool) (k crit used : Nat) (s : State) : Host.Outcome State Fault Refusal :=
  .next (if c < 4 then nvmeCompletion c ok k crit used s else s)

/-- NVME_TIMEOUT (R337): the oldest command of drive `c` is not completed within NVME_TIMEOUT milliseconds. -/
def nvmeTimeout (c : Nat) (s : State) : State :=
  match (driveX s c).waiting with
  | [] => s
  | o :: _ =>
    if !rdb s F.sh_DRIVE_READY c 0 then s
    else
      let t := o.2 + 1000000 * max 1 (rd s F.sh_NVME_TIMEOUT c 0)
      failDrive c 7 (sat F.sh_TIMEOUTS c 0 1 (advanceTo (coreAfterNs s (t - 1)) s))

/-- NVME_TIMEOUT. -/
def execNvmeTimeout (c : Nat) (s : State) : Host.Outcome State Fault Refusal :=
  .next (if c < 4 then nvmeTimeout c s else s)

end Sys2Proof.Machine
end

