-- ==== Sys2Proof/Machine/Dump.lean ====
section
/-! DEFINITION. The fatal dump and the program dump (R387 to R391). -/

namespace Sys2Proof.Machine

open Sys2Proof

/-! ### Sections (R390) -/

/-- The registers of a page as bytes. -/
def pageBytes (s : State) (u : Nat) : List Byte := (List.range 512).flatMap fun i => natLe 8 (regWord s u (8 * i))

/-- Section 0x01: the directory and every listed page. -/
def pagesSection (s : State) : List Byte :=
  ((List.range 512).flatMap fun i => natLe 8 (dirWord s.variant (8 * i))) ++ (allPages s.variant).flatMap (pageBytes s)

/-- The header of a bin, or zeros where none is held. -/
def binHeader (s : State) (q : SeqId) (b : Nat) : List Byte :=
  match binOf s q b with
  | some x => x.header.flatMap (natLe 8)
  | none => natLe 64 0

/-- One record of section 0x02. -/
def seqRecord (s : State) (q : SeqId) : List Byte :=
  let t := wr F.sq_SEQ_SEL q.die 0 q.num s
  let u := unitOf 0x25 q.die
  let x := seqX s q
  natLe 8 (q.die + q.num * 2 ^ 8) ++ [0x400, 0x408, 0x410].flatMap (fun o => natLe 8 (regWord t u o)) ++
    (List.range 32).flatMap (fun r => natLe 8 (regOf s q r)) ++
    [x.red2, x.red3, x.row2, x.row3].flatMap (natLe 8) ++ binHeader s q 0 ++ binHeader s q 1 ++ natLe 64 0

/-- Section 0x03: the valid bins, each padded with zeros to 64 KiB. -/
def binsSection (s : State) : List Byte :=
  allSeqs.flatMap fun q => [0, 1].flatMap fun b => match binOf s q b with
    | some x =>
      if binValid s q b then
        let bs := x.cmds.flatMap fun c => words4 c.w0 c.w1 c.w2 c.w3
        bs ++ List.replicate (65536 - bs.length) 0#8
      else []
    | none => []

/-- One record of section 0x04. -/
def queueRecord (s : State) (die q : Nat) : List Byte :=
  let ts := queueOf s die q
  natLe 8 (die + q * 2 ^ 8 + ts.length * 2 ^ 18) ++ natLe 56 0 ++
    (List.range 64).flatMap fun i => natLe 8 ((ts[i]?.map (·.word)).getD 0)

/-- Section 0x04: the queues of the digital dies, then of the array dies. -/
def queuesSection (s : State) : List Byte :=
  ((List.range 4).flatMap fun d => (List.range 1024).flatMap (queueRecord s d)) ++
    (List.range 16).flatMap fun a => (List.range 256).flatMap (queueRecord s (8 + a))

/-- Section 0x05: the tracker entries in use. -/
def trackerSection (s : State) : List Byte :=
  (s.tracker.filter fun p => p.die < 4 && !p.held).flatMap fun p => natLe 8 p.token ++ natLe 8 p.start

/-- Sections 0x06 to 0x09: the newest entries of log ring `l`, oldest first. -/
def logSection (s : State) (l : Nat) : List Byte :=
  let size := 2 ^ ringLog (rd s F.fa_LOG_SIZE 0 l)
  let head := rd s F.fa_LOG_HEAD 0 l
  let n := min head size
  (List.range n).flatMap fun i => readBytes s memSpace (rd s F.fa_LOG_BASE 0 l + 32 * ((head - n + i) % size)) 32

/-- The sections that the part's own state gives, in order: type, bytes of a record, and bytes. -/
def dumpSections (s : State) : List (Nat × Nat × List Byte) :=
  [(1, 4096, pagesSection s), (2, 512, allSeqs.flatMap (seqRecord s)), (3, 65536, binsSection s),
    (4, 576, queuesSection s), (5, 16, trackerSection s), (6, 32, logSection s 0), (7, 32, logSection s 1),
    (8, 32, logSection s 2), (9, 32, logSection s 3),
    (10, 576, readBytes s memSpace (rd s F.ex_STATE_ADDR 0 0) (576 * bucketCount s))]

/-- Section 0x0B: firmware's own, up to 256 MiB. -/
def firmwareSection (fw : List Byte) : Nat × Nat × List Byte :=
  let bs := fw.take (2 ^ 28)
  (11, max 1 bs.length, bs)

/-! ### Layout (R389) -/

/-- Bytes of the dump region. -/
def dumpRegion : Nat := 2 ^ 30

/-- A section in its place: its table entry's word 0, its offset and its bytes. -/
structure PlacedSection where
  word0 : Nat
  off : Nat
  bytes : List Byte
  deriving DecidableEq, Repr

/-- Sections from offset `off` on: one that would pass the end of the region is cut at a record boundary, and those after
it are omitted. Whether one was cut. -/
def placeSections (off : Nat) : List (Nat × Nat × List Byte) → List PlacedSection × Bool
  | [] => ([], false)
  | (type, rec, bs) :: rest =>
    if off + bs.length ≤ dumpRegion then
      let r := placeSections (off + ceilDiv bs.length 4096 * 4096) rest
      (⟨type + (bs.length / rec) * 2 ^ 16, off, bs⟩ :: r.1, r.2)
    else
      let n := (dumpRegion - off) / rec
      ([⟨type + 2 ^ 8 + n * 2 ^ 16, off, bs.take (n * rec)⟩], true)

/-- The header of a dump of kind `kind` (R389). -/
def dumpHeader (s : State) (kind : Nat) (secs : List PlacedSection) (cut : Bool) : List Byte :=
  let x := s.fault
  let fatal := decide (kind = 1)
  let total := (secs.getLast?.map fun p => p.off + p.bytes.length).getD 4096
  let table := secs.flatMap fun p =>
    words4 p.word0 p.off p.bytes.length (crc64 p.bytes).toNat
  let w0 := 0x504D5544 + 2 ^ 32 + kind * 2 ^ 48 + b2n (!cut) * 2 ^ 50 + b2n cut * 2 ^ 51 +
    (if fatal then rd s F.fa_FATAL_CODE 0 0 * 2 ^ 52 + x.second * 2 ^ 56 else 0)
  let head := [w0, x.time, x.step, x.epoch, rd s F.id_SERIAL 0 0, signature s,
    rd s F.rs_GENERATION 0 0 + ownRank s * 2 ^ 32, unitPage x.src + unitInst x.src * 2 ^ 8 + rd s F.id_FW_VERSION 0 0 * 2 ^ 32,
    secs.length, total, nowNs s].flatMap (natLe 8)
  head ++ natLe 8 (crc64 (head ++ table)).toNat ++ natLe 160 0 ++ table ++ List.replicate (3840 - table.length) 0#8

/-- A dump of the sections `secs` is written into the region (R389, R390) (DEDUCED, log 109). -/
def writeDump (kind : Nat) (secs : List (Nat × Nat × List Byte)) (s : State) : State :=
  let base := rd s F.fa_DUMP_BASE 0 0
  let p := placeSections 4096 secs
  let total := (p.1.getLast?.map fun x => x.off + x.bytes.length).getD 4096
  let head := dumpHeader s kind p.1 p.2
  let t := p.1.foldl (fun t x => storeMem (base + x.off) x.bytes t) (storeMem base head s)
  { t with fault := { t.fault with len := total } }

/-- A dump is held: DUMP_READY, DUMP_KIND and the fatal summary show it. -/
def holdDump (kind : Nat) (s : State) : State :=
  let s := setb F.fa_DUMP_READY 0 0 true (wr F.fa_DUMP_KIND 0 0 kind s)
  { s with aux := { s.aux with dumpReady := true } }

/-- No dump is held. -/
def freeDump (s : State) : State :=
  let s := setb F.fa_DUMP_READY 0 0 false (wr F.fa_DUMP_KIND 0 0 0 s)
  { s with aux := { s.aux with dumpReady := false } }

/-! ### Events -/

/-- PROGRAM_DUMP (R388): the long operations of the stop are over; `fw` is the firmware's own section. A dump that is held
and not acknowledged makes firmware skip this one. -/
def programDump (fw : List Byte) (s : State) : State :=
  if !s.fault.programDue || s.stopAt.isSome || (s.tracker.any fun p => p.die < 4) || !firmwareRuns s then s
  else
    let s := { s with fault := { s.fault with programDue := false } }
    if rdb s F.fa_DUMP_READY 0 0 then sat F.fa_DUMPS_SKIPPED 0 0 1 s
    else holdDump 2 (sat F.fa_DUMPS_WRITTEN 0 0 1 (writeDump 2 (dumpSections s ++ [firmwareSection fw]) s))

/-- PROGRAM_DUMP. -/
def execProgramDump (fw : List Byte) (s : State) : Host.Outcome State Fault Refusal := .next (programDump fw s)

/-- DUMP_START (R387): every started long operation has completed, or 5 ms have passed since detection. The part's sections are
copied as they then stand (R390) (DEDUCED, log 109). Without firmware no dump is written. -/
def dumpStart (s : State) : State :=
  if !s.fault.fatalDue then s
  else if !firmwareRuns s then
    setb F.fa_DUMP_FAILED 0 0 true { s with fault := { s.fault with fatalDue := false } }
  else
    let s := if s.tracker.isEmpty then s else advanceTo (coreAfterNs s (s.fault.time + 5000000 - 1)) s
    freeDump { s with fault := { s.fault with fatalDue := false, started := true, sections := dumpSections s } }

/-- DUMP_START. -/
def execDumpStart (s : State) : Host.Outcome State Fault Refusal := .next (dumpStart s)

/-- DUMP_READY (R387): the device-fatal dump is written; `fw` is the firmware's own section. Its copies to the ready drives start,
and what those drives held of an earlier dump goes. -/
def dumpReady (fw : List Byte) (s : State) : State :=
  if s.fault.started then
    let s := sat F.fa_DUMPS_WRITTEN 0 0 1 (writeDump 1 (s.fault.sections ++ [firmwareSection fw]) s)
    let bs := readBytes s memSpace (rd s F.fa_DUMP_BASE 0 0) s.fault.len
    let cs := readyDrives s
    let s := driveAll (transfer .write dumpPlace s.fault.len ++ [.flush]) s
    holdDump 1 { s with fault := { s.fault with
      started := false, copyDue := true, sections := [], copying := cs, copy := bs
      shelf := s.fault.shelf.filter fun kv => !cs.contains kv.1 } }
  else s

/-- DUMP_READY. -/
def execDumpReady (fw : List Byte) (s : State) : Host.Outcome State Fault Refusal := .next (dumpReady fw s)

/-- The drives a dump is being copied to that are still in use. -/
def copyDrives (s : State) : List Nat := s.fault.copying.filter fun c => rdb s F.sh_DRIVE_READY c 0

/-- DUMP_ON_SHELF (R387): the copies on all the drives that were ready are flushed. -/
def dumpOnShelf (s : State) : State :=
  let cs := copyDrives s
  if s.fault.copyDue && !cs.isEmpty && cs.all (driveIdle s) then
    let s := { s with
      fault := { s.fault with
        copyDue := false, copying := [], copy := []
        shelf := cs.foldl (fun m c => nmSet c s.fault.copy m) s.fault.shelf }
      aux := { s.aux with onShelf := true } }
    setb F.fa_DUMP_ON_SHELF 0 0 true s
  else s

/-- DUMP_ON_SHELF. -/
def execDumpOnShelf (s : State) : Host.Outcome State Fault Refusal := .next (dumpOnShelf s)

/-- DUMP_ACK (R391): DUMP_READY falls, and the region may receive the next program dump. -/
def dumpAck (s : State) : State := if rdb s F.fa_DUMP_READY 0 0 then freeDump s else s

/-- DUMP_ACK. -/
def execDumpAck (s : State) : Host.Outcome State Fault Refusal :=
  .next (if livePage s (unitOf 0x70 0) then dumpAck (pageAccess (unitOf 0x70 0) s) else s)

/-- DUMP_RESTORE (R391): the copy on the drives is loaded into the region, unless a dump is held and not acknowledged. -/
def dumpRestore (s : State) : State :=
  match shelfDump s with
  | none => s
  | some (c, bs) =>
    if rdb s F.fa_DUMP_READY 0 0 || s.fault.started || !firmwareRuns s then s
    else
      let s := driveIssue c (transfer .read dumpPlace bs.length) s
      let s := storeMem (rd s F.fa_DUMP_BASE 0 0) bs s
      holdDump (bits (leNat (bs.take 8)) 48 2) { s with fault := { s.fault with len := bs.length } }

/-- DUMP_RESTORE. -/
def execDumpRestore (s : State) : Host.Outcome State Fault Refusal :=
  .next (if livePage s (unitOf 0x70 0) then dumpRestore (pageAccess (unitOf 0x70 0) s) else s)

end Sys2Proof.Machine
end

