-- ==== Sys2Proof/Machine/Messages.lean ====
section
/-! DEFINITION. Received exchange operations, deltas and membership messages (R234 to R245, R260, R261, R273, R275, R287,
R308, R313), acknowledgements and heartbeats. -/

namespace Sys2Proof.Machine

open Sys2Proof

/-! ### Exchange operations (R235, R236) -/

/-- A message of a sender is delivered: pulls in the ordered path whose last answer had overtaken it may be complete
(R245, R308). -/
def ordResume (serial : Nat) (s : State) : State :=
  (List.range (bucketCount s)).foldl (fun s b =>
    if (bx s b).pulling.any fun p => p.last.isSome && serialOf s p.rank == some serial then ordGo b s else s) s

/-- What a delivered message of the exchange lets happen. -/
def afterMessage (f : Frame) (s : State) : State := settle (ordResume f.serial s)

/-- A received exchange operation taken as opcode `op`. -/
def opMessage (f : Frame) (type op : Nat) (x : XOp) (act : State → State) (s : State) : State :=
  receive f (16 + x.data.length) type (takeOp op x act) (afterMessage f) s

/-- A contribution acts at the owner with its receive timestamp as its arrival (R240, R308). -/
def contribution (f : Frame) (x : XOp) (s : State) : State := ownerTake x (rxNs s f) s

/-- DENSE_ACC (R237). -/
def execDenseAcc (f : Frame) (x : XOp) (s : State) : Host.Outcome State Fault Refusal :=
  .next (opMessage f typeAcc 1 x (contribution f x) s)

/-- SCATTER_ACC (R237). -/
def execScatterAcc (f : Frame) (x : XOp) (s : State) : Host.Outcome State Fault Refusal :=
  .next (opMessage f typeAcc 2 x (contribution f x) s)

/-- SIGN_ACC (R237). -/
def execSignAcc (f : Frame) (x : XOp) (s : State) : Host.Outcome State Fault Refusal :=
  .next (opMessage f typeAcc 3 x (contribution f x) s)

/-- ORDERED_ACC (R245). -/
def execOrderedAcc (f : Frame) (x : XOp) (s : State) : Host.Outcome State Fault Refusal :=
  .next (opMessage f typeAcc 4 x (ordArrive f.msgId x) s)

/-- CONTRIB_END (R236, R241). -/
def execContribEnd (f : Frame) (x : XOp) (s : State) : Host.Outcome State Fault Refusal :=
  .next (opMessage f typeAcc 5 x (contribution f x) s)

/-- PULL (R232, R234, R245). -/
def execPull (f : Frame) (x : XOp) (s : State) : Host.Outcome State Fault Refusal :=
  .next (opMessage f typeAcc 6 x (onPull x) s)

/-- A REPLY (R251). -/
def takeReply (x : XOp) (s : State) : State :=
  if x.flags % 16 = 2 then resendMoved x s else onReply x.bucket (x.flags % 16) x.first x.count s

/-- REPLY. -/
def execReply (f : Frame) (x : XOp) (s : State) : Host.Outcome State Fault Refusal :=
  .next (opMessage f typeAcc 7 x (takeReply x) s)

/-- NOTICE (R242, R250). -/
def execNotice (f : Frame) (x : XOp) (s : State) : Host.Outcome State Fault Refusal :=
  .next (opMessage f typeAcc 8 x
    (onNotice x.rank x.bucket (mapRanks x.data) x.count (bitOf x.flags 0) (bitOf x.flags 1) (bitOf x.flags 2)) s)

/-- TABLE (R226, R242). -/
def execTable (f : Frame) (x : XOp) (s : State) : Host.Outcome State Fault Refusal :=
  .next (opMessage f typeAcc 9 x
    (onTable x.bucket ((List.range x.count).map fun i => (x.word4 i % 2 ^ 24, x.word4 i / 2 ^ 24))) s)

/-- DELTA (R259, R260). -/
def execDelta (f : Frame) (x : XOp) (s : State) : Host.Outcome State Fault Refusal :=
  .next (opMessage f typeDelta 10 x (applyDelta x) s)

/-- BUCKET_DEADLINE (R241). -/
def execBucketDeadline (bucket : Nat) (s : State) : Host.Outcome State Fault Refusal :=
  .next (settle (bucketDeadline bucket s))

/-- BUCKET_REDUCED (R243, R244). -/
def execBucketReduced (bucket addr : Nat) (s : State) : Host.Outcome State Fault Refusal :=
  .next (settle (bucketReduced bucket addr s))

/-! ### Membership messages (R313) -/

/-- A received membership message. -/
def memberMessage (f : Frame) (m : Member) (act : State → State) (s : State) : State :=
  receive f (8 + 8 * m.words.length + m.data.length) typeMember act (afterMessage f) s

/-- Word `i` of a membership message, word 0 being its subtype. -/
def Member.at' (m : Member) (i : Nat) : Nat := m.words.getD (i - 1) 0

/-- VOTE (R261). A vote counts from a member of the view in force. -/
def takeVote (f : Frame) (m : Member) (s : State) : State :=
  if (memberRanks s).contains f.srcRank then onVote f.srcRank (Member.at' m 1) (Member.at' m 2) s else s

/-- VOTE. -/
def execVote (f : Frame) (m : Member) (s : State) : Host.Outcome State Fault Refusal :=
  .next (memberMessage f m (takeVote f m) s)

/-- DECISION (R261, R262): a decision for the step in progress; one that comes after T applies at once, unless a program-fatal
error has ended the step (R173). -/
def takeDecision (m : Member) (s : State) : State :=
  let d : Decision := ⟨Member.at' m 1, Member.at' m 2, bitOf (Member.at' m 3) 0⟩
  if d.step = stepNo s ∧ inView s ∧ !exchangeStopped s ∧ !programLost s ∧ d.at' < nowNs s then lateCommit d s
  else onDecision d.step d.at' d.vetoed s

/-- DECISION. -/
def execDecision (f : Frame) (m : Member) (s : State) : Host.Outcome State Fault Refusal :=
  .next (memberMessage f m (takeDecision m) s)

/-- Pairs of a CRC message (R313). -/
def crcPairs : List Nat → List (Nat × Nat)
  | b :: c :: rest => (b % 65536, c) :: crcPairs rest
  | _ => []

/-- CRC (R275): the partner compares the owner's values of the epoch with its own. -/
def takeCrc (m : Member) (s : State) : State :=
  if Member.at' m 1 ≠ rd s F.cm_EPOCH 0 0 then s
  else (crcPairs (m.words.drop 1)).foldl (fun s p =>
    if partnerHere s p.1 && (bx s p.1).crcDue then
      crcCompare p.1 (modBx p.1 (fun x => { x with crcPeer := some p.2 }) s)
    else s) s

/-- CRC. -/
def execCrc (f : Frame) (m : Member) (s : State) : Host.Outcome State Fault Refusal :=
  .next (memberMessage f m (takeCrc m) s)

/-- CELLAR_DONE (R273, R297): the completion message of a reduced shard of the step in progress. A second one, which a new
owner sends in mirror mode, enqueues no second token (DEDUCED, log 75). -/
def takeCellar (m : Member) (s : State) : State :=
  let w := Member.at' m 2
  let b := bits w 0 16
  if Member.at' m 1 ≠ stepNo s ∨ !bucketDefined s b ∨ !isMember s then s
  else
    let n := bits w 16 13
    let veto := bitOf w 30
    let again := (bx s b).shardSeen
    let s := modBx b (fun x => { x with
      shardSeen := true, shardNotice := some (n, bitOf w 29, veto, mapRanks m.data) }) s
    if again then s else reducedToken b n veto s

/-- CELLAR_DONE. -/
def execCellarDone (f : Frame) (m : Member) (s : State) : Host.Outcome State Fault Refusal :=
  .next (memberMessage f m (takeCellar m) s)

/-- WRITE_STALE (R287, R308). -/
def execWriteStale (f : Frame) (m : Member) (s : State) : Host.Outcome State Fault Refusal :=
  .next (memberMessage f m (pageStale f.serial (Member.at' m 1)) s)

/-! ### Tokens, remote writes and discarded messages (R308) -/

/-- TOKEN_FRAME (R308). A token for a die that PRODUCE_DIE does not name goes nowhere. -/
def execTokenFrame (f : Frame) (token queue die : Nat) (s : State) : Host.Outcome State Fault Refusal :=
  .next (receiveToken f token (queue % 1024) (die % 32) (ordResume f.serial) s)

/-- REMOTE_WRITE_MSG (R308). -/
def execRemoteWriteMsg (f : Frame) (addr : Nat) (bound : Bool) (step : Nat) (data : List Byte) (bad : List Nat)
    (s : State) : Host.Outcome State Fault Refusal :=
  .next (receive f (16 + data.length) typeWrite (fun s => cellarStruck (takeWrite f (addr % 2 ^ 48) bound step data bad s)) (ordResume f.serial) s)

/-- DISCARDED_FRAME. -/
def execDiscardedFrame (f : Frame) (why : Discard) (s : State) : Host.Outcome State Fault Refusal :=
  .next (discardFrame f why (ordResume f.serial) s)

/-! ### Unreliable messages -/

/-- ACK (R306): nothing but the acknowledgement in its word 2. -/
def takeAck (f : Frame) (s : State) : State := settle (arrive f 0 false s).2

/-- ACK. -/
def execAck (f : Frame) (s : State) : Host.Outcome State Fault Refusal := .next (takeAck f s)

/-- HEARTBEAT (R282, R283, R312). -/
def execHeartbeat (f : Frame) (s : State) : Host.Outcome State Fault Refusal := .next (heartbeat f s)

end Sys2Proof.Machine
end

