-- ==== Sys2Proof/Machine/Access.lean ====
section
/-! DEFINITION. Register accesses (R325, R347 to R349, R352, R355, R357, R358) and accesses through BAR2 (R326, R382). -/

namespace Sys2Proof.Machine

open Sys2Proof

/-! ### Latches and reads (R325, R348) -/

/-- The latches of the page at a BAR0 address. -/
def latchOf (s : State) (addr : Nat) : Latch := nmGet {} (addr / 4096) s.latches

/-- Replaces them. -/
def setLatch (addr : Nat) (l : Latch) (s : State) : State := { s with latches := nmSet (addr / 4096) l s.latches }

/-- An access of 4 or 8 bytes, naturally aligned, within BAR0's 64 MiB, to the directory or a listed page (R325, R344). -/
def goodAccess (s : State) (addr width : Nat) : Bool :=
  (width == 4 || width == 8) && addr % width == 0 && decide (addr < 2 ^ 26) &&
    (decide (addr < 4096) || (pageAt s.variant addr).isSome)

/-- A bad access is counted (R325). -/
def badAccess (s : State) : State := sat F.hi_BAR0_BAD_ACCESS 0 0 1 s

/-- A read of TIME_NS latches the fields beside it (R316). -/
def readEffect (u off : Nat) (s : State) : State := if u = unitOf 0x03 0 ∧ off = 0x88 then latchTime s else s

/-- The current value of a register, with the effect of reading it. -/
def takeWord (addr : Nat) (s : State) : Nat × State :=
  let w := (bar0Word s addr).getD 0
  (w, match pageAt s.variant addr with
    | some u => if s.stage = .clocked then readEffect u (addr % 4096 / 8 * 8) s else s
    | none => s)

/-- A read of BAR0: 8 bytes, the low half, which captures the high half, or the high half (R348). -/
def bar0Read (addr width : Nat) (s : State) : State :=
  if !hostUp s then s
  else if !pageReadable s addr then emit (.readData (allOnes width) width) s
  else if !goodAccess s addr width then emit (.readData (allOnes width) width) (badAccess (setLatch addr {} s))
  else
    let off := addr % 4096 / 8 * 8
    let l := latchOf s addr
    if addr % 8 = 4 ∧ l.readOff = some off then emit (.readData l.readHi 4) (setLatch addr {} s)
    else
      let (w, s) := takeWord addr s
      if width = 8 then emit (.readData w 8) (setLatch addr {} s)
      else if addr % 8 = 4 then emit (.readData (w / 2 ^ 32) 4) (setLatch addr {} s)
      else emit (.readData (w % 2 ^ 32) 4) (setLatch addr { readOff := some off, readHi := w / 2 ^ 32 } s)

/-- BAR0_HALF_READ. -/
def execBar0HalfRead (addr width : Nat) (s : State) : Host.Outcome State Fault Refusal := .next (bar0Read addr width s)

/-! ### Clears (R352, R355) -/

/-- CNT_CLEAR of a page, with what its page adds: TEMP_MAX of every sensor, WORST_NS of every endpoint (R223,
R378). -/
def clearPage (u : Nat) (s : State) : State :=
  let s := cntClear u s
  if unitPage u = 0x04 then
    clearFields u (fun f _ => f.fid == F.pw_TEMP_MAX.fid) { s with power := { s.power with tempSeen := [] } }
  else if unitPage u = 0x62 then clearFields u (fun f _ => f.fid == F.qe_WORST_NS.fid) s
  else s

/-- CNT_CLEAR (R346, R352). -/
def execCntClear (unit : Nat) (s : State) : Host.Outcome State Fault Refusal :=
  .next (if livePage s unit then clearPage unit (pageAccess unit s) else s)

/-- EXPERT_RESTORE of a page (R355); that of an array-die page can bring a write budget down (R97). -/
def restorePage (u : Nat) (s : State) : State :=
  let s := expertRestore u s
  if unitPage u = 0x10 then lifeAll (unitInst u) s else s

/-- EXPERT_RESTORE (R355). -/
def execExpertRestore (unit : Nat) (s : State) : Host.Outcome State Fault Refusal :=
  .next (if livePage s unit then restorePage unit (pageAccess unit s) else s)

/-- LARDER_FLUSH (R147): an expert write, which EXPERT_EN = 0 drops (R355). -/
def execLarderFlush (inst : Nat) (s : State) : Host.Outcome State Fault Refusal :=
  .next (
    let u := unitOf 0x23 inst
    if !livePage s u then s
    else if rdU s F.com_EXPERT_EN u 0 = 0 then wrU F.com_EXPERT_DENIED u 0 1 (pageAccess u s)
    else larderFlush u (pageAccess u s))

/-! ### Staged writes (R357, R358) -/

/-- A value that an ST field's table allows, or whose refusal is the commit's (rule 0x01): any other is ignored (R349). -/
def stageAllowed (f : Field) (v : Nat) : Bool :=
  if f.fid = F.ad_REMAP_STG.fid then decide (v < 1040)
  else if f.fid = F.ex_BUCKET_COUNT.fid then decide (v ≤ 65536)
  else if f.fid = F.ex_MASTER_PAGES.fid ∨ f.fid = F.ex_STATE_PAGES.fid then decide (v ≤ 2 ^ 20)
  else if f.fid = F.pt_ROUTE_ENTRIES.fid then decide (v ≤ 8192)
  else true

/-- A staged write of one field. -/
def stageField (x : Slot) (v : Nat) (s : State) : State :=
  let k : FKey := ⟨x.f.fid, x.unit, x.idx⟩
  let s := { s with stg := smSet FKey.lt k (v % 2 ^ x.f.width) s.stg }
  let s := if tableAddress k.fid && !s.tblWritten.contains k then { s with tblWritten := s.tblWritten ++ [k] } else s
  let s := if s.commit.stepSet.any (fun kv => kv.1 == k) && !s.commit.rewritten.contains k then
      { s with commit := { s.commit with rewritten := s.commit.rewritten ++ [k] } }
    else s
  if [F.ag_ROW_GAIN_STG.fid, F.ag_OUTLIER_ROW.fid, F.ag_OUTLIER_VALID.fid].contains k.fid then
    stagedGainWrite (unitInst x.unit) (x.idx / 1024) s
  else s

/-! ### Live writes (R349) -/

/-- RO fields that firmware writes (R99, R114, R125) (DEDUCED, log 100). -/
def firmwareField (f : Field) : Bool :=
  [F.ag_QUEUE_DEPTH.fid, F.ag_DRIFT_MAX.fid, F.ag_DRIFT_EPOCH.fid].contains f.fid

/-- A field that an agent's write changes at once. -/
def liveField (a : Agent) (f : Field) : Bool := f.acc == .rw || (decide (a = .firmware) && firmwareField f)

/-- A selector value that names something the part has; other values are ignored (R349). -/
def valueAllowed (f : Field) (v : Nat) : Bool :=
  if f.fid = F.hi_RING_SEL.fid then decide (v < 36)
  else if f.fid = F.pw_SENSOR_SEL.fid then decide (v < 48)
  else if f.fid = F.sq_SEQ_SEL.fid then decide (v < 153)
  else if f.fid = F.ad_SPARE_PHYS.fid then decide (1024 ≤ v ∧ v < 1040)
  else if f.fid = F.pt_MEDIA.fid then decide (v ≠ 3)
  else true

/-- A write of a port's ENABLE: a disabled port's link falls (R299, R351). -/
def portEnable (p : Nat) (v : Bool) (s : State) : State :=
  let s := if v then s else linkDown p s
  portReady p (setb F.pt_ENABLE p 0 v s)

/-- A write of a live field on page `u`. -/
def liveWrite (u : Nat) (x : Slot) (v : Nat) (s : State) : State :=
  let fid := x.f.fid
  let i := unitInst u
  let plain := wrU x.f x.unit x.idx v s
  if !valueAllowed x.f v then s
  else if fid = F.hi_RING_BASE.fid then
    (if rdb s F.hi_RING_ENABLE 0 x.idx then s else wrU x.f x.unit x.idx (v / 4096 * 4096) s)
  else if fid = F.hi_RING_SIZE.fid then (if rdb s F.hi_RING_ENABLE 0 x.idx then s else plain)
  else if fid = F.hi_RING_ENABLE.fid then ringEnable x.idx (v == 1) s
  else if fid = F.hi_HOST_INDEX.fid then doorbell x.idx v s
  else if fid = F.ck_STEP_EN.fid then
    (if v = 1 ∧ (rdb s F.rs_MEMBER 0 0 || programRuns s) then s else plain)
  else if fid = F.ck_PTP_PORT.fid then showPtpPort plain
  else if fid = F.ck_PTP_ROLE.fid then showMaster plain
  else if fid = F.pt_ENABLE.fid then portEnable i (v == 1) s
  else if fid = F.ag_LOAD_HOLD.fid then loadHold i (v == 1) s
  else if fid = F.ad_SLEEP.fid then sleep i (v == 1) s
  else if fid = F.ag_PROG_COUNT.fid ∨ fid = F.ag_LAST_STEP.fid then
    (if rdU s F.com_READY u 0 = 0 ∧ rdU s F.com_REASON u 0 = 9 then lifeCheck ⟨fid, x.unit, x.idx⟩ plain else s)
  else if fid = F.ad_PRESET.fid ∨ fid = F.ad_LIFE_BUDGET.fid then lifeAll i plain
  else if fid = F.ad_RETIRE_LEVEL.fid then failDie i plain
  else if fid = F.sq_QUEUE_SEL.fid then
    (if rd s F.sq_SEQ_SEL i 0 < 89 then plain else wrU x.f x.unit x.idx (v % 256) s)
  else plain

/-- A write of a W1C field: 1 clears it (R349). -/
def w1cWrite (x : Slot) (v : Nat) (s : State) : State := if v = 1 then wrU x.f x.unit x.idx 0 s else s

/-! ### Actions of WO fields -/

/-- COL_CMD of a group page: `w` is the whole word (R101, R114). -/
def colCmd (i op w : Nat) (s : State) : State :=
  match op with
  | 1 => loadPantry i s
  | 2 => evict i s
  | 3 => programCol i (bits w 3 1) (bits w 8 16) (bitOf w 24) s
  | _ => s

/-- What a WO field of page `u` does when it is written `v`; `w` is the whole word written (DEDUCED, log 107). -/
def woAction (a : Agent) (u : Nat) (x : Slot) (v w : Nat) (s : State) : State :=
  let fid := x.f.fid
  let i := unitInst u
  if fid = F.ck_STEP_NS.fid then stepNs (signedOf v 64) s
  else if v = 0 then s
  else if fid = F.com_EXPERT_RESTORE.fid then restorePage u s
  else if x.f.off = 0xF8 then clearPage u s
  else if fid = F.cm_GO.fid then commitGo a (bits w 1 2) (if bitOf w 3 then discard s else s)
  else if fid = F.cm_DISCARD.fid then (if bitOf w 0 then s else discard s)
  else if fid = F.cm_CLAIM.fid then claim a s
  else if fid = F.cm_RELEASE.fid then releaseClaim a s
  else if fid = F.sq_LOAD_GO.fid then binLoad i (rd s F.sq_LOAD_SEQ i 0) (rd s F.sq_LOAD_BIN i 0) s
  else if fid = F.ag_COL_OP.fid then colCmd i v w s
  else if fid = F.ag_VERIFY_REQ.fid then verifyReq i s
  else if fid = F.ag_CLEAR_SEL.fid then clearSel i s
  else if fid = F.ag_AUDIT_CLEAR.fid then auditClear i s
  else if fid = F.re_LARDER_FLUSH.fid then larderFlush u s
  else if fid = F.he_MIXER_TEST.fid then mixerTest s
  else if fid = F.he_RUN_CLEAR.fid then runClear s
  else if fid = F.he_DETECTOR_RESET.fid then detectorReset s
  else if fid = F.rs_STORE_ACK.fid then storeAck s
  else if fid = F.rs_STAGING_LOADED.fid then stagingLoaded s
  else if fid = F.sh_RESCAN.fid then rescan i s
  else if fid = F.fa_DUMP_ACK.fid then dumpAck s
  else if fid = F.fa_DUMP_RESTORE.fid then dumpRestore s
  else if fid = F.pw_ORDERLY_OFF.fid then orderlyOff s
  else if fid = F.pw_RESET_KEY.fid then resetKey v s
  else s

/-! ### A register write -/

/-- The part of a written word that falls on a field. -/
def slotBits (x : Slot) (w : Nat) : Nat := bits w x.bit x.f.width

/-- A write changes something that EXPERT_EN = 0 protects (R355). -/
def expertBlocked (s : State) (x : Slot) (w : Nat) : Bool :=
  let v := slotBits x w
  match x.f.acc with
  | .rw => (expertField x.f || conditional x.f || expertCode x.f v) && v != rdU s x.f x.unit x.idx
  | .wo => expertField x.f && v != 0
  | _ => false

/-- A word written whole to register `off` of page `u` (R349, R355, R358). -/
def writeWord (a : Agent) (u off w : Nat) (s : State) : State :=
  let slots := (slotsAt s u off).filter fun x => !elsewhere x.f (unitInst u)
  let denied := rdU s F.com_EXPERT_EN u 0 == 0 && slots.any (expertBlocked s · w)
  if denied then wrU F.com_EXPERT_DENIED u 0 1 s
  else
    let staged := slots.filter fun x => x.f.acc == .st
    let s := if staged.isEmpty then s
      else if claimOther s a then sat F.cm_STAGED_WRITES_DROPPED 0 0 1 s
      else (staged.filter fun x => stageAllowed x.f (slotBits x w)).foldl (fun s x => stageField x (slotBits x w) s) s
    let s := (slots.filter fun x => liveField a x.f).foldl (fun s x => liveWrite u x (slotBits x w) s) s
    let s := (slots.filter fun x => x.f.acc == .w1c).foldl (fun s x => w1cWrite x (slotBits x w) s) s
    (slots.filter fun x => x.f.acc == .wo).foldl (fun s x => woAction a u x (slotBits x w) w s) s

/-- A whole word arrives at a BAR0 address. -/
def writeAt (a : Agent) (addr w : Nat) (s : State) : State :=
  match pageAt s.variant addr with
  | some u => writeWord a u (addr % 4096 / 8 * 8) w s
  | none => s

/-- A register write (R325, R347, R348): 8 bytes, or a low half followed by the high half of the same register. -/
def registerWrite (a : Agent) (addr width value : Nat) (s : State) : State :=
  if s.stage ≠ .clocked ∨ (a = .host ∧ hostUp s = false) then s
  else if !goodAccess s addr width then (let s := setLatch addr {} s; if a = .host then badAccess s else s)
  else
    let off := addr % 4096 / 8 * 8
    let l := latchOf s addr
    let s := setLatch addr {} s
    if width = 8 then writeAt a addr (value % 2 ^ 64) s
    else if addr % 8 = 0 then setLatch addr { writeOff := some off, writeLo := value % 2 ^ 32 } s
    else if l.writeOff = some off then writeAt a addr (l.writeLo + (value % 2 ^ 32) * 2 ^ 32) s
    else badAccess s

/-- REGISTER_WRITE. -/
def execRegisterWrite (agent : Agent) (addr width value : Nat) (s : State) : Host.Outcome State Fault Refusal :=
  .next (registerWrite agent addr width value s)

/-! ### BAR2 (R326, R381, R382) -/

/-- The device address of a BAR2 offset. -/
def bar2Addr (s : State) (offset : Nat) : Nat := rd s F.hi_WIN_BASE 0 0 * 2 ^ 36 + offset % 2 ^ 36

/-- Some byte of an access is backed by neither memory nor a view window. -/
def bar2Miss (s : State) (a n : Nat) : Bool := (List.range n).any fun i => memRef s (a + i) = .unbacked

/-- A page beyond the view is met: an uncorrectable error of the access (R255). -/
def bar2Beyond (a n : Nat) (s : State) : State := viewReport memSpace a n none s

/-- A read of `n` bytes at device address `a`: a poisoned word makes the completion poisoned. -/
def bar2Read (a n : Nat) (s : State) : State :=
  match poisonedWords s memSpace a n with
  | [] => emit (.readData (readNat s memSpace a n) n) (bar2Beyond a n s)
  | ws => emit (.poisonedData n) (uncorrectable memSpace ws 4 0 false s)

/-- A write to a poisoned word that does not cover it is dropped and counted (R382). -/
def poisonWrite (a : Nat) (s : State) : State :=
  let u := holdingUnit s memSpace a
  satU F.mc_POISON_WRITES u 0 1 u s

/-- A write of bytes at device address `a`, word by word (DEDUCED, log 108). -/
def bar2Write (a : Nat) (bs : List Byte) (s : State) : State :=
  let n := bs.length
  let words := (List.range (n / 8 + 2)).map fun i => a / 8 * 8 + 8 * i
  words.foldl (fun s w =>
    let lo := max a w
    let hi := min (a + n) (w + 8)
    if hi ≤ lo then s
    else if hi - lo < 8 ∧ poisonedAt s memSpace w then poisonWrite w s
    else storeMem lo ((bs.drop (lo - a)).take (hi - lo)) s) (bar2Beyond a n s)

/-- BAR2_ACCESS (R326): a read of `width` bytes at `offset`, or a write of `data`. -/
def bar2Access (offset width : Nat) (data : Option Nat) (s : State) : State :=
  if !hostUp s then s
  else if s.stage ≠ .clocked then
    (match data with
      | none => emit (.readData (allOnes width) width) s
      | some _ => s)
  else
    let a := bar2Addr s offset
    if bar2Miss s a width then
      let s := sat F.hi_WINDOW_MISSES 0 0 1 s
      (match data with
        | none => emit (.readData (allOnes width) width) s
        | some _ => s)
    else match data with
      | none => bar2Read a width s
      | some v => bar2Write a (natLe width v) s

/-- BAR2_ACCESS. -/
def execBar2Access (offset width : Nat) (data : Option Nat) (s : State) : Host.Outcome State Fault Refusal :=
  .next (bar2Access offset width data s)

end Sys2Proof.Machine
end

