-- ==== Sys2Proof/Machine/Copy.lean ====
section
/-! DEFINITION. The copy command (R182, R208, R382). -/

namespace Sys2Proof.Machine

open Sys2Proof

/-! ### Operand fields (R182) -/

def Cmd.copySpace (w : Nat) : Nat := bits w 0 2
def Cmd.copyDie (w : Nat) : Nat := bits w 2 5

/-- The address of a copy's end: REG at bit 7, OFF at bit 12, in 64-byte units. -/
def Ctx.copyAddr (x : Ctx) (w : Nat) : Nat :=
  unsignedOf ((x.reg (bits w 7 5) : Int) + 64 * signedOf (bits w 12 16) 16) 48

/-- The space a copy's end names. -/
def copySpaceOf (w : Nat) : Nat := if Cmd.copySpace w = 1 then memSpace else dieSpace (Cmd.copyDie w)

/-- The copy a command asks for, issued at core cycle `c`. -/
def copyJob (x : Ctx) (cmd : Cmd) (c : Nat) : CopyJob :=
  let rows := bits cmd.w1 43 12 + 1
  let lines := bits cmd.w2 44 16
  { srcSpace := copySpaceOf cmd.w2, src := x.copyAddr cmd.w2, srcPitch := 64 * bits cmd.w2 28 16
    dstSpace := copySpaceOf cmd.w3, dst := x.copyAddr cmd.w3, dstPitch := 64 * bits cmd.w3 28 16
    rowBytes := 64 * lines, rows := rows, lat := 16 + ceilDiv (lines * rows) 32, issued := c }

/-- Both ends lie in the scratchpad of one digital die (R208). -/
def CopyJob.own (j : CopyJob) : Bool := decide (j.srcSpace = j.dstSpace ∧ 1 ≤ j.srcSpace ∧ j.srcSpace < 8)

/-- A copy within the scratchpad `space` of one die is moving or waits (R208). -/
def copyGoing (s : State) (space : Nat) : Bool :=
  s.tracker.any fun p => !p.landed && (match p.copy with
    | some j => j.srcSpace == space
    | none => false)

/-- The tracker entry of a copy before it takes its bytes. -/
def copyOp (x : Ctx) (cmd : Cmd) (j : CopyJob) : PendingOp :=
  { die := x.die, tag := x.tag, gen := x.gen, land := none, landed := false
    token := resultToken x.tag x.gen {} 0xF (j.rows * j.rowBytes / 64)
    produce := if cmd.produceEn then some (cmd.produceDie, cmd.produceQueue) else none
    notify := cmd.notify, writes := [], larder := [], tags := [], counts := []
    copy := if j.own then some j else none }

/-- COPY at core cycle `t`. -/
def copyCmd (q : SeqId) (cmd : Cmd) (t : Nat) (s : State) : State :=
  let x := ctxOf s q
  let j := copyJob x cmd t
  let pc := pcIndex s q
  let s' :=
    if 32768 ≤ trackerCount s q.die then guardFault q.die x.tag x.gen 4 0 (seqDieCode q) 0 0 s
    else if j.own && copyGoing s j.srcSpace then track (copyOp x cmd j) s
    else
      let p := copyOp x cmd j
      let p := if j.own then j.start t s p else j.fill s p
      track p (j.report q.die x.tag x.gen t s)
  setPc q (pc + 1) (noteIssue q t s')

/-- COPY (R182, R208). -/
def execCopy (q : SeqId) (s : State) : Host.Outcome State Fault Refusal :=
  .next (streamCmd q 6 0 (fun c t _ s => copyCmd q c t s) s)

end Sys2Proof.Machine
end

