-- ==== Sys2Proof/Machine/Delayed.lean ====
section
/-! DEFINITION. The delayed start of a command that the expert guard policy holds until its engine is free (R172). -/

namespace Sys2Proof.Machine

open Sys2Proof

/-- The command in hand starts at domain cycle `t`. -/
def startHeld (q : SeqId) (codes : List (Nat × Int)) (c : Cmd) (t : Nat) (s : State) : State :=
  match c.cls with
  | 2 => engineCmd q matrixWork c t s
  | 3 => engineCmd q (vectorWork c.op) c t s
  | 4 => engineCmd q (rowWork c.op) c t s
  | 5 => productCmd q codes c t s
  | _ => s

/-- DELAYED_START (R172): a held command starts in the first cycle in which its engine is free; every later offset counts from
this issue. `codes` are the converters' readings of a product. A command that the stop of the program forestalls does not
start (R173) (DEDUCED, log 111). -/
def delayedStart (q : SeqId) (codes : List (Nat × Int)) (s : State) : State :=
  let x := seqX s q
  match x.heldTill, nextCmd s q with
  | some h, some c =>
    let d := domCycles q
    let t := max h (ceilDiv x.floor d)
    let stopped := match s.stopAt with
      | some b => decide (b ≤ t * d)
      | none => false
    if stopped || !landedBy s (t * d) ||
        (c.cls == 5 && productHeld s (groupOf q).1 (ctxOf s q) c (t / 16)) then s
    else startHeld q codes c t (setSeqX q { x with heldTill := none } (advanceTo (t * d) s))
  | _, _ => s

/-- DELAYED_START. -/
def execDelayedStart (q : SeqId) (codes : List (Nat × Int)) (s : State) : Host.Outcome State Fault Refusal :=
  .next (delayedStart q codes s)

end Sys2Proof.Machine
end

