-- ==== Sys2Proof/Machine/Dispatch.lean ====
section
/-! DEFINITION. One arm for each constructor of `Instr`: the meaning it calls. -/

namespace Sys2Proof.Machine

open Sys2Proof

/-- The effect of a command on everything but the queue. -/
def exec (i : Instr) (s : State) : Host.Outcome State Fault Refusal :=
  match i with
  | .nop q => Sys2Proof.Machine.execNop q s
  | .loadi q => Sys2Proof.Machine.execLoadi q s
  | .add q => Sys2Proof.Machine.execAdd q s
  | .sub q => Sys2Proof.Machine.execSub q s
  | .addi q => Sys2Proof.Machine.execAddi q s
  | .muli q => Sys2Proof.Machine.execMuli q s
  | .shl q => Sys2Proof.Machine.execShl q s
  | .shr q => Sys2Proof.Machine.execShr q s
  | .cmp q => Sys2Proof.Machine.execCmp q s
  | .cmpi q => Sys2Proof.Machine.execCmpi q s
  | .loop q => Sys2Proof.Machine.execLoop q s
  | .jump q => Sys2Proof.Machine.execJump q s
  | .pstat q => Sys2Proof.Machine.execPstat q s
  | .xload q => Sys2Proof.Machine.execXload q s
  | .token q => Sys2Proof.Machine.execToken q s
  | .switchBin q => Sys2Proof.Machine.execSwitchBin q s
  | .halt q => Sys2Proof.Machine.execHalt q s
  | .redcfg q => Sys2Proof.Machine.execRedcfg q s
  | .rowcfg q => Sys2Proof.Machine.execRowcfg q s
  | .matrixProduct q => Sys2Proof.Machine.execMatrixProduct q s
  | .vecCopy q => Sys2Proof.Machine.execVecCopy q s
  | .convert q => Sys2Proof.Machine.execConvert q s
  | .vecAdd q => Sys2Proof.Machine.execVecAdd q s
  | .vecSub q => Sys2Proof.Machine.execVecSub q s
  | .mul q => Sys2Proof.Machine.execMul q s
  | .axpy q => Sys2Proof.Machine.execAxpy q s
  | .vecAddi q => Sys2Proof.Machine.execVecAddi q s
  | .vecMuli q => Sys2Proof.Machine.execVecMuli q s
  | .div q => Sys2Proof.Machine.execDiv q s
  | .recip q => Sys2Proof.Machine.execRecip q s
  | .sqrt q => Sys2Proof.Machine.execSqrt q s
  | .rsqrt q => Sys2Proof.Machine.execRsqrt q s
  | .max q => Sys2Proof.Machine.execMax q s
  | .min q => Sys2Proof.Machine.execMin q s
  | .clamp q => Sys2Proof.Machine.execClamp q s
  | .abs q => Sys2Proof.Machine.execAbs q s
  | .neg q => Sys2Proof.Machine.execNeg q s
  | .relu q => Sys2Proof.Machine.execRelu q s
  | .exp q => Sys2Proof.Machine.execExp q s
  | .vecCmp q => Sys2Proof.Machine.execVecCmp q s
  | .vecCmpi q => Sys2Proof.Machine.execVecCmpi q s
  | .select q => Sys2Proof.Machine.execSelect q s
  | .perm q => Sys2Proof.Machine.execPerm q s
  | .quant q => Sys2Proof.Machine.execQuant q s
  | .levelScale q => Sys2Proof.Machine.execLevelScale q s
  | .drift q => Sys2Proof.Machine.execDrift q s
  | .histThresh q => Sys2Proof.Machine.execHistThresh q s
  | .compact q => Sys2Proof.Machine.execCompact q s
  | .normFwd q => Sys2Proof.Machine.execNormFwd q s
  | .normBwd q => Sys2Proof.Machine.execNormBwd q s
  | .softmaxFwd q => Sys2Proof.Machine.execSoftmaxFwd q s
  | .softmaxBwd q => Sys2Proof.Machine.execSoftmaxBwd q s
  | .merge q => Sys2Proof.Machine.execMerge q s
  | .mergeC q => Sys2Proof.Machine.execMergeC q s
  | .arrayProduct q codes => Sys2Proof.Machine.execArrayProduct q codes s
  | .copy q => Sys2Proof.Machine.execCopy q s
  | .sendDense q => Sys2Proof.Machine.execSendDense q s
  | .sendTopk q => Sys2Proof.Machine.execSendTopk q s
  | .sendSign q => Sys2Proof.Machine.execSendSign q s
  | .sendOrdered q => Sys2Proof.Machine.execSendOrdered q s
  | .deltaBcast q => Sys2Proof.Machine.execDeltaBcast q s
  | .remoteWrite q => Sys2Proof.Machine.execRemoteWrite q s
  | .bucketWait q => Sys2Proof.Machine.execBucketWait q s
  | .longOpComplete die tag met late lost => Sys2Proof.Machine.execLongOpComplete die tag met late lost s
  | .tokenTimeout q => Sys2Proof.Machine.execTokenTimeout q s
  | .delayedStart q codes => Sys2Proof.Machine.execDelayedStart q codes s
  | .programStop => Sys2Proof.Machine.execProgramStop s
  | .programDump fw => Sys2Proof.Machine.execProgramDump fw s
  | .binLoad die seq bin => Sys2Proof.Machine.execBinLoad die seq bin s
  | .binLoadDone die => Sys2Proof.Machine.execBinLoadDone die s
  | .binSwitchAtBoundary q => Sys2Proof.Machine.execBinSwitchAtBoundary q s
  | .claim agent => Sys2Proof.Machine.execClaim agent s
  | .release agent => Sys2Proof.Machine.execRelease agent s
  | .claimExpired => Sys2Proof.Machine.execClaimExpired s
  | .go agent when' => Sys2Proof.Machine.execGo agent when' s
  | .discard => Sys2Proof.Machine.execDiscard s
  | .commitCheckDone => Sys2Proof.Machine.execCommitCheckDone s
  | .commitApply => Sys2Proof.Machine.execCommitApply s
  | .stepSetApply => Sys2Proof.Machine.execStepSetApply s
  | .membershipCommit => Sys2Proof.Machine.execMembershipCommit s
  | .vote f m => Sys2Proof.Machine.execVote f m s
  | .decision f m => Sys2Proof.Machine.execDecision f m s
  | .stepCommit => Sys2Proof.Machine.execStepCommit s
  | .pantryRefresh inst ap rows => Sys2Proof.Machine.execPantryRefresh inst ap rows s
  | .driftCheck => Sys2Proof.Machine.execDriftCheck s
  | .mixerTest => Sys2Proof.Machine.execMixerTest s
  | .runClear => Sys2Proof.Machine.execRunClear s
  | .detectorReset => Sys2Proof.Machine.execDetectorReset s
  | .denseAcc f x => Sys2Proof.Machine.execDenseAcc f x s
  | .scatterAcc f x => Sys2Proof.Machine.execScatterAcc f x s
  | .signAcc f x => Sys2Proof.Machine.execSignAcc f x s
  | .orderedAcc f x => Sys2Proof.Machine.execOrderedAcc f x s
  | .contribEnd f x => Sys2Proof.Machine.execContribEnd f x s
  | .bucketDeadline bucket => Sys2Proof.Machine.execBucketDeadline bucket s
  | .bucketReduced bucket addr => Sys2Proof.Machine.execBucketReduced bucket addr s
  | .pull f x => Sys2Proof.Machine.execPull f x s
  | .reply f x => Sys2Proof.Machine.execReply f x s
  | .notice f x => Sys2Proof.Machine.execNotice f x s
  | .table f x => Sys2Proof.Machine.execTable f x s
  | .delta f x => Sys2Proof.Machine.execDelta f x s
  | .cellarDone f m => Sys2Proof.Machine.execCellarDone f m s
  | .crc f m => Sys2Proof.Machine.execCrc f m s
  | .crcComputeDone => Sys2Proof.Machine.execCrcComputeDone s
  | .writeStale f m => Sys2Proof.Machine.execWriteStale f m s
  | .remoteWriteMsg f addr bound step data bad => Sys2Proof.Machine.execRemoteWriteMsg f addr bound step data bad s
  | .tokenFrame f token queue die => Sys2Proof.Machine.execTokenFrame f token queue die s
  | .ack f => Sys2Proof.Machine.execAck f s
  | .ackDelay serial => Sys2Proof.Machine.execAckDelay serial s
  | .retransmit serial id => Sys2Proof.Machine.execRetransmit serial id s
  | .pageWalkSend bucket rank master first => Sys2Proof.Machine.execPageWalkSend bucket rank master first s
  | .heartbeatSend => Sys2Proof.Machine.execHeartbeatSend s
  | .heartbeat f => Sys2Proof.Machine.execHeartbeat f s
  | .suspect rank => Sys2Proof.Machine.execSuspect rank s
  | .queryReq f endpoint count clientTag input => Sys2Proof.Machine.execQueryReq f endpoint count clientTag input s
  | .queryDescriptor q words input bad => Sys2Proof.Machine.execQueryDescriptor q words input bad s
  | .chainStart ep => Sys2Proof.Machine.execChainStart ep s
  | .chainEntry ep k codes => Sys2Proof.Machine.execChainEntry ep k codes s
  | .queryResp ep k => Sys2Proof.Machine.execQueryResp ep k s
  | .queryUndelivered ep k => Sys2Proof.Machine.execQueryUndelivered ep k s
  | .sync m => Sys2Proof.Machine.execSync m s
  | .followUp m => Sys2Proof.Machine.execFollowUp m s
  | .delayReq m => Sys2Proof.Machine.execDelayReq m s
  | .delayResp m => Sys2Proof.Machine.execDelayResp m s
  | .announce m gm => Sys2Proof.Machine.execAnnounce m gm s
  | .syncLoss => Sys2Proof.Machine.execSyncLoss s
  | .stepNs amount => Sys2Proof.Machine.execStepNs amount s
  | .timeNsRead => Sys2Proof.Machine.execTimeNsRead s
  | .linkUp p => Sys2Proof.Machine.execLinkUp p s
  | .linkDown p => Sys2Proof.Machine.execLinkDown p s
  | .hostIndex ring value => Sys2Proof.Machine.execHostIndex ring value s
  | .ringEnable ring value => Sys2Proof.Machine.execRingEnable ring value s
  | .functionLevelReset => Sys2Proof.Machine.execFunctionLevelReset s
  | .d3hot => Sys2Proof.Machine.execD3hot s
  | .perstNAssert => Sys2Proof.Machine.execPerstNAssert s
  | .perstNRelease => Sys2Proof.Machine.execPerstNRelease s
  | .bar0HalfRead addr width => Sys2Proof.Machine.execBar0HalfRead addr width s
  | .registerWrite agent addr width value => Sys2Proof.Machine.execRegisterWrite agent addr width value s
  | .cntClear unit => Sys2Proof.Machine.execCntClear unit s
  | .expertRestore unit => Sys2Proof.Machine.execExpertRestore unit s
  | .ident => Sys2Proof.Machine.execIdent s
  | .status => Sys2Proof.Machine.execStatus s
  | .temps => Sys2Proof.Machine.execTemps s
  | .power => Sys2Proof.Machine.execPower s
  | .powerLimit access pecOk => Sys2Proof.Machine.execPowerLimit access pecOk s
  | .fatalSummary => Sys2Proof.Machine.execFatalSummary s
  | .aux3v3Up => Sys2Proof.Machine.execAux3v3Up s
  | .aux3v3Removed => Sys2Proof.Machine.execAux3v3Removed s
  | .feedGood feed => Sys2Proof.Machine.execFeedGood feed s
  | .pwrOk => Sys2Proof.Machine.execPwrOk s
  | .feedLost feed => Sys2Proof.Machine.execFeedLost feed s
  | .railFault page inst => Sys2Proof.Machine.execRailFault page inst s
  | .sysResetNAssert => Sys2Proof.Machine.execSysResetNAssert s
  | .sysResetNRelease early => Sys2Proof.Machine.execSysResetNRelease early s
  | .resetKey agent key => Sys2Proof.Machine.execResetKey agent key s
  | .pllLock => Sys2Proof.Machine.execPllLock s
  | .pllLockTimeout => Sys2Proof.Machine.execPllLockTimeout s
  | .refclkFault => Sys2Proof.Machine.execRefclkFault s
  | .blockReady unit info => Sys2Proof.Machine.execBlockReady unit info s
  | .orderlyOff => Sys2Proof.Machine.execOrderlyOff s
  | .offReady => Sys2Proof.Machine.execOffReady s
  | .powerSample input feeds domains => Sys2Proof.Machine.execPowerSample input feeds domains s
  | .capEval => Sys2Proof.Machine.execCapEval s
  | .capUnmet => Sys2Proof.Machine.execCapUnmet s
  | .tempSample temps => Sys2Proof.Machine.execTempSample temps s
  | .memoryStackLost mc => Sys2Proof.Machine.execMemoryStackLost mc s
  | .watchdogExpiry c => Sys2Proof.Machine.execWatchdogExpiry c s
  | .dumpStart => Sys2Proof.Machine.execDumpStart s
  | .dumpReady fw => Sys2Proof.Machine.execDumpReady fw s
  | .dumpOnShelf => Sys2Proof.Machine.execDumpOnShelf s
  | .dumpAck => Sys2Proof.Machine.execDumpAck s
  | .dumpRestore => Sys2Proof.Machine.execDumpRestore s
  | .scrub mc singles doubles bad => Sys2Proof.Machine.execScrub mc singles doubles bad s
  | .rescan c => Sys2Proof.Machine.execRescan c s
  | .nvmeCompletion c ok k crit used => Sys2Proof.Machine.execNvmeCompletion c ok k crit used s
  | .nvmeTimeout c => Sys2Proof.Machine.execNvmeTimeout c s
  | .sweepConversionStart die p ap => Sys2Proof.Machine.execSweepConversionStart die p ap s
  | .sweepConversionDone die p codes tripped => Sys2Proof.Machine.execSweepConversionDone die p codes tripped s
  | .tableSwap die p ap => Sys2Proof.Machine.execTableSwap die p ap s
  | .sweepStale die p => Sys2Proof.Machine.execSweepStale die p s
  | .verifyReq inst => Sys2Proof.Machine.execVerifyReq inst s
  | .verifyComplete inst loads => Sys2Proof.Machine.execVerifyComplete inst loads s
  | .loadHold inst value => Sys2Proof.Machine.execLoadHold inst value s
  | .clearSel inst => Sys2Proof.Machine.execClearSel inst s
  | .auditClear inst => Sys2Proof.Machine.execAuditClear inst s
  | .loadPantry inst => Sys2Proof.Machine.execLoadPantry inst s
  | .pantryLoadDone die p col => Sys2Proof.Machine.execPantryLoadDone die p col s
  | .evict inst => Sys2Proof.Machine.execEvict inst s
  | .evictApply die p => Sys2Proof.Machine.execEvictApply die p s
  | .program inst source scale exempt => Sys2Proof.Machine.execProgram inst source scale exempt s
  | .columnWriteStart die p => Sys2Proof.Machine.execColumnWriteStart die p s
  | .columnWriteDone die p iters held ap => Sys2Proof.Machine.execColumnWriteDone die p iters held ap s
  | .sleep die value => Sys2Proof.Machine.execSleep die value s
  | .ledgerSave => Sys2Proof.Machine.execLedgerSave s
  | .larderFlush inst => Sys2Proof.Machine.execLarderFlush inst s
  | .storeAck => Sys2Proof.Machine.execStoreAck s
  | .stagingLoaded => Sys2Proof.Machine.execStagingLoaded s
  | .shelfStagingDone => Sys2Proof.Machine.execShelfStagingDone s
  | .shelfWriteDone ok => Sys2Proof.Machine.execShelfWriteDone ok s
  | .restoreDone loads => Sys2Proof.Machine.execRestoreDone loads s
  | .syncTx stamp => Sys2Proof.Machine.execSyncTx stamp s
  | .announceTx => Sys2Proof.Machine.execAnnounceTx s
  | .delayReqTx stamp => Sys2Proof.Machine.execDelayReqTx stamp s
  | .discardedFrame f why => Sys2Proof.Machine.execDiscardedFrame f why s
  | .rootPllLostLock => Sys2Proof.Machine.execRootPllLostLock s
  | .resetKeyRelease => Sys2Proof.Machine.execResetKeyRelease s
  | .bar2Access offset width data => Sys2Proof.Machine.execBar2Access offset width data s
  | .arrayDiePoweredDown die => Sys2Proof.Machine.execArrayDiePoweredDown die s
  | .arrayDiePoweredUp die => Sys2Proof.Machine.execArrayDiePoweredUp die s
  | .busMasterEnable value => Sys2Proof.Machine.execBusMasterEnable value s
  | .d0Entry => Sys2Proof.Machine.execD0Entry s

end Sys2Proof.Machine
end

