-- ==== Sys2Proof/Machine/Step.lean ====
section
/-! DEFINITION. One step: the command at the front of the queue, or one register tick when no command waits. -/

namespace Sys2Proof.Machine

open Sys2Proof

/-- What the block does when no command waits: a register tick of 4 core cycles passes once the clocks run (R6, R316,
DESIGN CHOICE, log 2). -/
def idle (s : State) : State := if s.stage = .clocked then advanceTo (s.core + 4) s else s

/-- The command at the front is taken from the queue and has its effect. -/
def step (s : State) : Host.Outcome State Fault Refusal :=
  match s.pending with
  | [] => .next (idle s)
  | c :: rest => exec c { s with pending := rest }

/-- The state with the command that a table word spells put at the front of the queue. -/
def State.withFetchWord (s : State) (nbits w : Nat) : State :=
  match decodeTableWord nbits w with
  | some c => { s with pending := c :: s.pending }
  | none => s

end Sys2Proof.Machine
end

