-- ==== Sys2Proof/Safety.lean ====
section
/-! DEFINITION. What every step keeps, in the terms that statements use. -/

namespace Sys2Proof

open Sys2Proof.Machine

/-- The memory is in its canonical form: addresses rise strictly and no byte listed is what an unlisted one reads as. -/
def Memory.wf (m : List Host.Cell) : Bool := cellsWf m

/-- No token queue holds more than its 64 tokens (R186). -/
def QueuesBounded (s : State) : Prop := ∀ e ∈ s.queues, e.2.length ≤ 64

/-- A sound state: memory canonical, token queues within their capacity, device time within its 96 bits (R183, R186,
R316). -/
def Sound (s : State) : Prop := Memory.wf s.mem = true ∧ QueuesBounded s ∧ s.time < 2 ^ 96

/-- What the meaning of every command keeps from state `s` to state `t`: the commands that wait, the assembly variant,
and soundness. -/
structure Kept (s t : State) : Prop where
  pending : t.pending = s.pending
  variant : t.variant = s.variant
  sound : Sound s → Sound t

/-- Register field number `n` holds in `t`, in every unit and place, what it holds in `s`. -/
structure FieldKept (n : Nat) (s t : State) : Prop where
  same : ∀ k : FKey, k.fid = n → smFind k t.flds = smFind k s.flds

/-- Every byte of device memory, scratchpads and segment buffers reads in `t` what it reads in `s`. -/
structure MemKept (s t : State) : Prop where
  same : ∀ k, cellGet k t.mem = cellGet k s.mem

/-- The meaning of command `i` in state `s` answers a next state, of which `P` holds. -/
def Completes (i : Instr) (s : State) (P : State → Prop) : Prop := ∃ t, exec i s = .next t ∧ P t

/-- The next command `c` of sequencer `q`, of class `cls` and operation `op`, issues at domain cycle `n` having popped
`toks`, and runs; `s1` is the state in which it runs (R171). -/
def Issues (q : SeqId) (cls op : Nat) (s s1 : State) (c : Cmd) (n : Nat) (toks : List Nat) : Prop :=
  prepare q cls op s = .go s1 c n toks true

/-- A control command leaves no trace beside its effect: it produces no token and no completion record. -/
def Quiet (q : SeqId) (c : Cmd) (s : State) : Prop :=
  c.produceEn = false ∧ c.notify = false ∧ rdb s F.sq_TRACE_ALL q.die 0 = false

/-- The register fields that the issue of any control command may change (R170, R171, R186): where the sequencer
stands and waits, its issue count and time, the status that STATUS_LOAD loads, and the count of stale tokens. -/
def issueFields : List Field :=
  [F.sq_PC_INDEX, F.sq_STATE, F.sq_ISSUED, F.sq_ISSUE_TIME, F.sq_WAITING, F.sq_WAIT_QUEUE, F.sq_STICKY, F.sq_LAST_SKIP,
   F.sq_LAST_FMT, F.sq_LAST_EXTENT, F.sq_STALE_TOKENS, F.com_SAT_LO, F.com_SAT_HI, F.com_SAT_TBL]

/-- Every register field but those listed holds in `t` what it holds in `s`. -/
def FieldsKept (except : List Field) (s t : State) : Prop := ∀ n, n ∉ except.map (·.fid) → FieldKept n s t

/-- The address registers, predicate flags and configuration of every sequencer stay as they are. -/
structure SequencersKept (s t : State) : Prop where
  regs : ∀ q r, regOf t q r = regOf s q r
  preds : ∀ q k, predOf t q k = predOf s q k

/-- Reading the ranges `rs` for a command meets no poisoned word and no page beyond a view. -/
def CleanReads (rs : List Range) (s : State) : Prop :=
  ∀ r ∈ rs, poisonedWords s r.space r.base r.len = [] ∧ beyondView s r.space r.base r.len = false

/-- The commands of a sequencer's stream with their class and operation codes (R177 to R182). `codes` are the converters'
readings of an array product. -/
def streamCommands (q : SeqId) (codes : List (Nat × Int)) : List (Instr × Nat × Nat) :=
  [(.nop q, 0, 0x00), (.loadi q, 0, 0x01), (.add q, 0, 0x02), (.sub q, 0, 0x03), (.addi q, 0, 0x04), (.muli q, 0, 0x05),
   (.shl q, 0, 0x06), (.shr q, 0, 0x07), (.cmp q, 0, 0x08), (.cmpi q, 0, 0x09), (.loop q, 0, 0x0A), (.jump q, 0, 0x0B),
   (.pstat q, 0, 0x0C), (.xload q, 0, 0x0D), (.token q, 0, 0x0E), (.switchBin q, 0, 0x0F), (.halt q, 0, 0x10),
   (.redcfg q, 0, 0x11), (.rowcfg q, 0, 0x12), (.matrixProduct q, 2, 0), (.arrayProduct q codes, 5, 0), (.copy q, 6, 0)] ++
  [(.vecCopy q, 3, 0x00), (.convert q, 3, 0x01), (.vecAdd q, 3, 0x02), (.vecSub q, 3, 0x03), (.mul q, 3, 0x04),
   (.axpy q, 3, 0x05), (.vecAddi q, 3, 0x06), (.vecMuli q, 3, 0x07), (.div q, 3, 0x08), (.recip q, 3, 0x09),
   (.sqrt q, 3, 0x0A), (.rsqrt q, 3, 0x0B), (.max q, 3, 0x0C), (.min q, 3, 0x0D), (.clamp q, 3, 0x0E), (.abs q, 3, 0x0F),
   (.neg q, 3, 0x10), (.relu q, 3, 0x11), (.exp q, 3, 0x12), (.vecCmp q, 3, 0x13), (.vecCmpi q, 3, 0x14),
   (.select q, 3, 0x15), (.perm q, 3, 0x16), (.quant q, 3, 0x17), (.levelScale q, 3, 0x18), (.drift q, 3, 0x19),
   (.histThresh q, 3, 0x1A), (.compact q, 3, 0x1B)] ++
  [(.normFwd q, 4, 0), (.normBwd q, 4, 1), (.softmaxFwd q, 4, 2), (.softmaxBwd q, 4, 3), (.merge q, 4, 4),
   (.mergeC q, 4, 5), (.sendDense q, 7, 0), (.sendTopk q, 7, 1), (.sendSign q, 7, 2), (.sendOrdered q, 7, 3),
   (.deltaBcast q, 7, 4), (.remoteWrite q, 7, 5), (.bucketWait q, 7, 6)]

/-- The work of the matrix, vector and row engines, by class and operation code. -/
def engineWork (cls op : Nat) : Ctx → Cmd → State → OpResult :=
  if cls = 2 then matrixWork else if cls = 3 then vectorWork op else rowWork op

/-- What the reset of the main domain leaves in `t` of state `s` (R370): memory, queues, tracker, bins and programs are
gone and every register field but Bus Master Enable and the state of the feeds reads its reset value; the auxiliary domain, what the
drives hold, the levels of the cells and the commands that wait stay. -/
structure MainReset (s t : State) : Prop where
  memory : t.mem = [] ∧ t.poison = []
  programs : t.bins = [] ∧ t.queues = [] ∧ t.tracker = [] ∧ t.busy = [] ∧ ∀ q r, regOf t q r = 0 ∧ predOf t q r = false
  fields : ∀ f ∈ allFields, f.fid ∉ [F.hi_BUS_MASTER, F.pw_FEED_A_OK, F.pw_FEED_B_OK].map (·.fid) →
    ∀ u i, rdU t f u i = resetVal s.variant f u i
  staged : t.stg = [] ∧ t.commit.snapshot = [] ∧ t.commit.stepSet = []
  kept : t.pending = s.pending ∧ t.variant = s.variant ∧ t.shelf = (dropTorn (fun _ => true) s).shelf ∧
    t.fault.shelf = s.fault.shelf ∧
    t.ledger = ((newestCopy (dropTorn (fun _ => true) s).shelf.ledgers).map (·.ledger)).getD []
  levels : ∀ a, (nmGet {} a t.arrs).cells = (nmGet {} a s.arrs).cells

/-- The ledger entries of the array dies that `p` picks are on the shelf as the registers hold them (R96). -/
def LedgersSaved (p : Nat → Bool) (s t : State) : Prop :=
  ∀ k : FKey, k.fid = F.ag_PROG_COUNT.fid ∨ k.fid = F.ag_LAST_STEP.fid →
    smFind k t.ledger = if p (unitInst k.unit) then smFind k s.flds else smFind k s.ledger

/-- The fields whose commit does more than make them current (R357). -/
def specialFields : List Field :=
  [F.ag_ROW_GAIN_STG, F.ag_OUTLIER_ROW, F.ag_OUTLIER_VALID, F.ag_READMIT, F.ag_APPLIED_SCALE, F.ag_FOLD_EXP,
   F.ad_REMAP_STG, F.ag_FRAME_MAP_STG, F.ag_FRAME_PHASE, F.sq_SWITCH_STG, F.ex_BUCKET_TABLE, F.ex_BUCKET_COUNT,
   F.ex_UPDATE_TABLE, F.pt_ROUTE_ADDR, F.pt_ROUTE_ENTRIES, F.rs_VIEW_ADDR]

/-- A set holds staged fields alone, as every commit's does (R357). -/
def StagedOnly (fs : List (FKey × Nat)) : Prop := ∀ kv ∈ fs, ∃ f, fieldOf kv.1.fid = some f ∧ f.acc = .st

/-- The staged fields of a set, but the action fields, hold in `t` the values that the set gives them, and every staged field
that it does not name what it holds in `s` (R357). -/
def TakenIn (fs : List (FKey × Nat)) (s t : State) : Prop :=
  (∀ (f : Field) (u i v : Nat), fieldOf f.fid = some f → actionField f.fid = false →
    (fs.filter fun kv => kv.1 == ⟨f.fid, u, i⟩) = [(⟨f.fid, u, i⟩, v)] → rdU t f u i = v % 2 ^ f.width) ∧
  ∀ f : Field, fieldOf f.fid = some f → f.acc = .st → (∀ kv ∈ fs, kv.1.fid ≠ f.fid) → FieldKept f.fid s t

/-- The fields in which an applied commit shows (R360). -/
def commitFields : List Field :=
  [F.cm_STATE, F.cm_RESULT, F.cm_COMMITS_APPLIED, F.cm_APPLIED_TIME, F.cm_APPLIED_ALIGN, F.cm_MEMBERSHIP,
   F.cm_STEP_SET_HELD, F.com_SAT_LO, F.com_SAT_HI, F.com_SAT_TBL]

/-- The tokens of queue `n` of a die once those at its head with another GENERATION than their consumer's are discarded
(R186). -/
def settled (s : State) (dieCode n : Nat) (ts : List QTok) : List QTok :=
  match consumerOf dieCode n with
  | none => ts
  | some k => (dropStale (seqX s ⟨k.1, k.2⟩).gen ts).1

/-- The port on which a PTP message arrives hears it and is the PTP port, and the message is of a frame's size and of the part's
domain. -/
def PtpTaken (m : PtpMsg) (s : State) : Prop :=
  portHears s m.port = true ∧ sizeAllowed m.size = true ∧ ptpPort s = some m.port ∧ m.domain = rd s F.ck_DOMAIN 0 0

/-- The messages to a serial that are not acknowledged yet, in MSG_ID order: type and payload, of a held one what its unit would
now produce (R306, R307). -/
def queuedTo (s : State) (serial : Nat) : List (Nat × List Byte) :=
  ((txPeer s serial).unacked ++ (txPeer s serial).held).map fun m => (m.type, (m.produced s).payload)

/-- The same messages as they stand: their types, the bytes at hand, and what is still to be read for them (R306, R307). -/
def linedUp (s : State) (serial : Nat) : List (Nat × List Byte × Option (Nat × Nat × Nat)) :=
  ((txPeer s serial).unacked ++ (txPeer s serial).held).map fun m => (m.type, m.payload, m.source)

/-- Messages of type `type` with these payloads follow, for a serial, what was lined up for it; `more` may follow them. -/
def LinesUp (s t : State) (serial type : Nat) (ps : List (List Byte)) (more : Prop) : Prop :=
  ∃ rest, linedUp t serial = linedUp s serial ++ (ps.map fun p => (type, p, none)) ++ rest ∧ (rest ≠ [] → more)

/-- One rank of the view alone, among those named, is reached by this serial. -/
def ReachedAs (s : State) (ranks : List Nat) (rank serial : Nat) : Prop :=
  ranks.Nodup ∧ rank ∈ ranks ∧ serialOf s rank = some serial ∧ ∀ r ∈ ranks, serialOf s r = some serial → r = rank

/-- No ordered pull waits for operations that its last answer has overtaken (R245, R308). -/
def PullsSettled (s : State) : Prop := ∀ b < bucketCount s, ∀ p ∈ (bx s b).pulling ++ (bx s b).toPull, p.last = none

/-- Nothing of the exchange waits to follow from the next event: no pull is held, no shard or delta waits to leave, no
ordered pull waits for what its last answer overtook, and this member does not vote. -/
def ExchangeQuiet (s : State) : Prop :=
  s.job.pulls = [] ∧ (∀ b < bucketCount s, (bx s b).shards = [] ∧ (bx s b).heldDeltas = []) ∧ PullsSettled s ∧
  voteDue s = false

/-- The fields in which the arrival of a frame shows (R303, R319). -/
def rxFields : List Field :=
  [F.pt_FRAMES_RX, F.pt_BYTES_RX, F.pt_FEC_CORRECTED, F.pt_FEC_UNCORRECTED, F.pt_HIGH_BER, F.com_SAT_LO, F.com_SAT_HI,
   F.com_SAT_TBL]

/-- The state in which a frame that arrived is examined: it is counted, what was kept of another session of its sender ends, and
the acknowledgement it carries is taken (R303, R306). -/
def arrived (f : Frame) (s : State) : State :=
  let c := dropSession f (countFrame f s)
  if f.ackValid then ackFrom f.serial f.ackMark f.ackMap c else c

/-- The frame of a message of type `type` with `n` bytes of payload comes from a member or in a membership message, on a port
that hears it and in the size that its LENGTH gives, and the message has not been delivered before (R283, R301, R303, R306). -/
structure Delivers (f : Frame) (n type : Nat) (s : State) : Prop where
  carried : portHears s f.port = true
  sized : sizeAllowed f.size = true ∧ sizeFits f n = true
  sender : type = 8 ∨ fromMember s f = true
  fresh : rxCase (rxOf s f) f.msgId = 1
  wanted : barred s type = false

/-- The state in which a delivered message has its effect: its MSG_ID is noted (R306). -/
def delivered (f : Frame) (s : State) : State :=
  let a := arrived f s
  setRx f.serial (noteDelivered f.msgId (nowNs a) (rxOf a f)) a

/-- What follows from the effect of an exchange or membership message: token messages that waited for it, pulls whose
last answer had overtaken it, and what an event of the exchange lets happen (R245, R308). -/
def followMessage (f : Frame) (u : State) : State := afterMessage f (deliverTokens 1024 f.serial u)

/-- What follows from the effect of a remote write (R245, R308). -/
def followWrite (f : Frame) (u : State) : State := ordResume f.serial (deliverTokens 1024 f.serial u)

/-- Nothing but its effect follows from a message: the frame acknowledges nothing, no token message of its sender waits,
and the exchange is quiet. -/
def QuietFrame (f : Frame) (s : State) : Prop := ExchangeQuiet s ∧ f.ackValid = false ∧ (rxOf s f).tokens = []

/-- The same for a remote write. -/
def QuietWrite (f : Frame) (s : State) : Prop := PullsSettled s ∧ f.ackValid = false ∧ (rxOf s f).tokens = []

/-- The meaning of `i` in `s` answers a next state: a state of which `P` holds, with what follows after it. Where `quiet`
holds nothing does, and `P` holds of the next state itself. -/
def TakesEffect (after : State → State) (quiet : Prop) (i : Instr) (s : State) (P : State → Prop) : Prop :=
  Completes i s fun t => (∃ u, t = after u ∧ P u) ∧ (quiet → P t)

/-- Bytes of payload of a membership message (R313). -/
def memberLen (m : Member) : Nat := 8 + 8 * m.words.length + m.data.length

/-- The messages that go through reliable delivery, with the bytes of their payload and their types (R304, R306). -/
def reliableMessages (f : Frame) (x : XOp) (m : Member) (a w q d step : Nat) (bound : Bool) (data : List Byte)
    (bad : List Nat) : List (Instr × Nat × Nat) :=
  let n := 16 + x.data.length
  let k := memberLen m
  [(.denseAcc f x, n, 1), (.scatterAcc f x, n, 1), (.signAcc f x, n, 1), (.orderedAcc f x, n, 1), (.contribEnd f x, n, 1),
   (.pull f x, n, 1), (.reply f x, n, 1), (.notice f x, n, 1), (.table f x, n, 1), (.delta f x, n, 2),
   (.remoteWriteMsg f a bound step data bad, 16 + data.length, 3), (.tokenFrame f w q d, 16, 4), (.vote f m, k, 8),
   (.decision f m, k, 8), (.crc f m, k, 8), (.cellarDone f m, k, 8), (.writeStale f m, k, 8), (.discardedFrame f (.subtype k), k, 8)]

/-- An operation of the step in progress that is not discarded (R235). -/
def GoodOp (s : State) (op : Nat) (x : XOp) : Prop :=
  x.opcode = op ∧ x.stepLo = stepNo s % 2 ^ 24 ∧ badOp s x = false

/-- What an accumulate adds at a position: B8 values, a signed 8-bit integer each, and +1 or −1 for signs (R237). A marker
adds nothing. -/
def addend (x : XOp) (pos : Nat) : Int :=
  let val (m : Byte) : Int := if m = 0x80#8 then 0 else m.toInt
  match x.opcode with
  | 1 => if x.first ≤ pos ∧ pos < x.first + x.count then val (x.data.getD (pos - x.first) 0#8) else 0
  | 2 => ((List.range x.count).map fun i =>
      if x.first + x.word4 i / 256 = pos then val (BitVec.ofNat 8 (x.word4 i % 256)) else 0).sum
  | _ => if x.first ≤ pos ∧ pos < x.first + x.count then
      (if (x.data.getD ((pos - x.first) / 8) 0#8).getLsbD ((pos - x.first) % 8) then -1 else 1) else 0

/-- The owner takes a contribution of `x`'s rank now: the bucket is open, the rank is a member and in time, and no resend
of it is awaited (R239 to R241). -/
def Collects (s : State) (f : Frame) (x : XOp) : Prop :=
  let y := bx s x.bucket
  ownerHere s x.bucket = true ∧ smFind x.rank y.redo = none ∧ y.closed = false ∧ (memberRanks s).contains x.rank = true ∧
  y.late.contains x.rank = false ∧ rxNs s f ≤ y.deadline.getD (rxNs s f)

/-- The verify of a group has started on each of its arrays, or is due there after the column write that runs (R86). -/
def VerifyStarted (inst : Nat) (t : State) : Prop :=
  rdb t F.ag_VERIFY_RUNNING inst 0 = true ∧ groupReady t inst = false ∧
  rdU t F.com_REASON (groupUnit inst) 0 = 5 ∧
  ∀ p ∈ groupArrays t inst, (sweepOf t (inst / 16) p).verify = true ∨ (sweepOf t (inst / 16) p).verifyDue = true

end Sys2Proof
end

