-- ==== Sys2Proof/Certificates/Slice0/Obligations.lean ====
section
/-! DEFINITION. The statements about the model, for the provers. Each names the rules of the spec that it rests on; `OBLIGATIONS.json` lists
them. `Completes i s P` concludes that `exec i s` answers a next state, of which `P` holds. -/

open Sys2Proof Sys2Proof.Machine

/-! ### The machine -/

/-- A step takes the command at the front of the queue and is `exec` of it on the state with the queue's rest. -/
def Obligations.StepRunsFrontCommand : Prop :=
  ∀ (s : State) (c : Instr) (rest : List Instr), s.pending = c :: rest → step s = exec c { s with pending := rest }

/-- R6, R316, log 2 (the model's choice of what a step is that finds no command). With no command waiting and the
clocks running, one register tick of 4 core cycles passes: device time advances by INCR, and nothing else changes.
With the clocks stopped nothing changes. -/
def Obligations.EmptyQueueIdles : Prop :=
  ∀ s : State, s.pending = [] →
    (s.stage ≠ .clocked → step s = .next s) ∧
    (s.stage = .clocked → step s = .next { s with
      core := s.core + 4, time := (s.time + rd s F.ck_INCR 0 0) % 2 ^ 96 })

/-- R5, R186, R316, R370. The state after reset: the memory lists nothing, every token queue and the tracker are
empty, device time is 0, every register field reads its reset value (where the spec gives none the model's own, log 5,
in the variant the model chose, log 1), no command waits, and the state is sound. -/
def Obligations.ResetIsSound : Prop :=
  State.reset.pending = [] ∧ State.reset.mem = [] ∧ (∀ die k, queueOf State.reset die k = []) ∧ State.reset.tracker = [] ∧
  State.reset.time = 0 ∧ (∀ q r, regOf State.reset q r = 0) ∧ (∀ q k, predOf State.reset q k = false) ∧
  (∀ f ∈ allFields, f.fid ≠ F.ag_PROG_COUNT.fid → ∀ u i, rdU State.reset f u i = resetVal .t64b f u i) ∧
  (∀ f ∈ allFields, ∀ u i, stgU State.reset f u i = rdU State.reset f u i) ∧ Sound State.reset

/-- R186, R316. Every step keeps soundness: from any state, reachable or not, whose memory is canonical, whose token
queues hold at most 64 tokens and whose time is within 96 bits, a step leads to such a state, and leaves the assembly
variant as it is. -/
def Obligations.StepKeepsSound : Prop :=
  ∀ s t : State, Sound s → step s = .next t → Sound t ∧ t.variant = s.variant

/-- A command does not touch the commands that wait, whatever it is: a step takes one command from the front and adds
none. -/
def Obligations.StepConsumesQueue : Prop :=
  ∀ s t : State, step s = .next t → t.pending = s.pending.tail

/-- Log 4 (the model's choice of what an event does that cannot happen in a state: the state stays). No command of the
table stops the model: whatever the state, sound or not, and whatever the operands, it answers a next state. -/
def Obligations.EveryCommandCompletes : Prop :=
  ∀ (i : Instr) (s : State), ∃ t, exec i s = .next t

/-- R198. Every step keeps the trackers within their entries: from any state in which no digital die's tracker holds
more than 32,768 operations, a step leads to such a state. R306, R307. Every step keeps the windows of reliable
delivery: from any state in which no destination has more than 1,024 messages that are sent and not acknowledged, a
step leads to such a state. R67, R100. No column command takes an array beyond its bypass limit: where the columns in
bypass and those accepted for it are within the limit of an array, they are after the command too. -/
def Obligations.BoundsKept : Prop :=
  (∀ s t : State, (∀ die < 4, trackerCount s die ≤ 32768) → step s = .next t → ∀ die < 4, trackerCount t die ≤ 32768) ∧
  (∀ s t : State, (∀ serial, (txPeer s serial).unacked.length ≤ 1024) → step s = .next t →
    ∀ serial, (txPeer t serial).unacked.length ≤ 1024) ∧
  (∀ (inst die p col source scale ap : Nat) (exempt : Bool) (iters : List Nat) (held : List Int) (i : Instr),
    i ∈ ([.loadPantry inst, .pantryLoadDone die p col, .evict inst, .evictApply die p, .program inst source scale exempt,
      .columnWriteStart die p, .columnWriteDone die p iters held ap] : List Instr) →
    inst < 256 → die < 16 → p < 1040 → col < 512 →
    ∀ s t : State, rd s F.ag_COLUMN inst 0 < 512 → (arraySel s inst).1 < 16 → (arraySel s inst).2 < 1040 →
      (∀ d a, (∀ j ∈ (arrX s d a).evicting, j < 512) ∧ ∀ w, (arrX s d a).write = some w → w.col < 512) →
      exec i s = .next t → ∀ d < 16, ∀ a < 1040, limitCount s d a ≤ bypassLimit s d a → limitCount t d a ≤ bypassLimit t d a)

/-- R5, R255, R382. A byte stored is read back where its address has a cell of its own, every other byte stays, and
the canonical form of memory is kept. -/
def Obligations.MemoryReadBack : Prop :=
  ∀ (s : State) (space a n : Nat) (bs : List Byte), bs.length = n →
    (∀ i < n, ∃ k, cellAt s space (a + i) = some k) →
    (∀ i j, i < n → j < n → cellAt s space (a + i) = cellAt s space (a + j) → i = j) →
    readBytes (store space a bs s) space a n = bs ∧
    (∀ k, (∀ i < n, cellAt s space (a + i) ≠ some k) → cellGet k (store space a bs s).mem = cellGet k s.mem) ∧
    (Memory.wf s.mem = true → Memory.wf (store space a bs s).mem = true)

/-! ### Sequencers: issue and control commands -/

/-- R181. A command that computes an address register sets DREG to its value modulo 2^48 and leaves the other address
registers and the predicate flags; the next command is the one after it. Where it leaves no trace, memory and every
field outside the issue's own stay as they are. -/
def Obligations.AddressCommands : Prop :=
  ∀ (q : SeqId) (op : Nat) (i : Instr) (f : Cmd → State → Nat),
    (i, op, f) ∈ ([
      (.loadi q, 0x01, fun c _ => c.imm),
      (.add q, 0x02, fun c s => regOf s q c.sreg + regOf s q c.treg),
      (.sub q, 0x03, fun c s => regOf s q c.sreg + 2 ^ 48 - regOf s q c.treg),
      (.addi q, 0x04, fun c s => regOf s q c.sreg + c.imm),
      (.muli q, 0x05, fun c s => regOf s q c.sreg * c.imm),
      (.shl q, 0x06, fun c s => regOf s q c.sreg * 2 ^ (c.imm % 64)),
      (.shr q, 0x07, fun c s => regOf s q c.sreg / 2 ^ (c.imm % 64)),
      (.xload q, 0x0D, fun _ s => rd s F.sq_LAST_EXTENT q.die q.num)] : List (Instr × Nat × (Cmd → State → Nat))) →
    ∀ (s s1 : State) (c : Cmd) (n : Nat) (toks : List Nat), Issues q 0 op s s1 c n toks →
      Completes i s fun t =>
        regOf t q c.dreg = f c s1 % 2 ^ 48 ∧
        (∀ q' r, ¬(q'.die = q.die ∧ q'.num * 32 + r = q.num * 32 + c.dreg) → regOf t q' r = regOf s q' r) ∧
        (∀ q' k, predOf t q' k = predOf s q' k) ∧
        pcIndex t q = (pcIndex s q + 1) % 2 ^ 11 ∧
        (Quiet q c s → MemKept s t ∧
          ∀ g ∈ allFields, g.fid ≠ F.sq_ADDR_VAL.fid → g.fid ∉ issueFields.map (·.fid) → FieldKept g.fid s t)

/-- R171, R170. A command of the stream that waits for no token issues at the base of its offsets plus its
ISSUE_OFFSET, whatever its class, once nothing holds it: no throttled frame, no held engine, no committed switch and
no stop. Time comes to that cycle; it runs unless its predicate forbids it. R171, R186, R207. A command of any class
that waits for a token of one queue, or of two, with tokens left at their heads once the stale ones there are
discarded, pops them and issues at its own time or in the first domain cycle after the last pop; an array product that
this delays issues later still by the time its input planes need. A pop is at the time the token could first be
popped, or the last issue where that is later, so that a token already there delays the command to the cycle after the
last issue (DEDUCED, log 17). -/
def Obligations.IssueOfCommands : Prop :=
  (∀ (q : SeqId) (cls op : Nat) (s : State) (c : Cmd), nextCmd s q = some c → c.cls = cls → c.op = op →
    c.waitAEn = false → c.waitBEn = false → (seqX s q).heldTill = none → (seqX s q).switchAt = none → s.stopAt = none →
    let n := (seqX s q).base + c.issueOffset
    (seqX s q).floor ≤ n * domCycles q → landedBy s (n * domCycles q) = true →
    ∃ s1 run, prepare q cls op s = .go s1 c n [] run ∧
      (run = true ↔ (c.predEn = true → predOf s q c.predFlag = c.predSense)) ∧
      s1.core = max s.core (n * domCycles q) ∧ MemKept s s1 ∧ FieldsKept issueFields s s1) ∧
  (∀ (q : SeqId) (cls op : Nat) (s : State) (c : Cmd), nextCmd s q = some c → c.cls = cls → c.op = op →
    (seqX s q).popA = none → (seqX s q).heldTill = none → (seqX s q).switchAt = none → (seqX s q).floor = 0 → s.stopAt = none →
    let start := (seqX s q).base * domCycles q
    let own := (seqX s q).base + c.issueOffset
    let queue (k : Nat) := settled s (queueDie q) k (queueOf s (queueDie q) k)
    let issue (pop : Nat) := let n := max own (pop / domCycles q + 1)
      if cls = 5 ∧ own < n then n + 16 * planeDelay (4 * q.die + (q.num - 89) / 16) (bits c.w2 0 5) else n
    (∀ (k : Nat) (tok : QTok) (rest : List QTok), queue k = tok :: rest →
      (c.waitAEn = true ∧ c.waitBEn = false ∧ k = c.waitA) ∨ (c.waitAEn = false ∧ c.waitBEn = true ∧ k = c.waitB) →
      let n := issue (max tok.ready start)
      landedBy s (n * domCycles q) = true →
      ∃ s1 run, prepare q cls op s = .go s1 c n [tok.word] run ∧ queueOf s1 (queueDie q) k = settled s (queueDie q) k rest ∧
        s1.core = max s.core (n * domCycles q) ∧ MemKept s s1) ∧
    (∀ (ta tb : QTok) (ra rb : List QTok), c.waitAEn = true → c.waitBEn = true → c.waitA ≠ c.waitB →
      queue c.waitA = ta :: ra → queue c.waitB = tb :: rb →
      let n := issue (max tb.ready (max ta.ready start))
      landedBy s (n * domCycles q) = true →
      ∃ s1 run, prepare q cls op s = .go s1 c n [ta.word, tb.word] run ∧
        queueOf s1 (queueDie q) c.waitA = settled s (queueDie q) c.waitA ra ∧
        queueOf s1 (queueDie q) c.waitB = settled s (queueDie q) c.waitB rb ∧
        s1.core = max s.core (n * domCycles q) ∧ MemKept s s1))

/-- R170, R171, R187. A command of any class that waits for a token of an empty queue, WAIT_A or WAIT_B alone, does
not issue: its sequencer enters the waiting state and names the queue; its position, registers, flags and memory stay
as they are. -/
def Obligations.WaitForToken : Prop :=
  ∀ (q : SeqId) (codes : List (Nat × Int)) (i : Instr) (cls op : Nat), (i, cls, op) ∈ streamCommands q codes →
    ∀ (s : State) (c : Cmd) (k : Nat), nextCmd s q = some c → c.cls = cls → c.op = op →
    (c.waitAEn = true ∧ k = c.waitA) ∨ (c.waitAEn = false ∧ c.waitBEn = true ∧ k = c.waitB) →
    (seqX s q).popA = none → (seqX s q).heldTill = none → (seqX s q).switchAt = none →
    queueOf s (queueDie q) k = [] →
    Completes i s fun t =>
      seqState t q = 2 ∧ rdb t F.sq_WAITING q.die q.num = true ∧ rd t F.sq_WAIT_QUEUE q.die q.num = k ∧
      pcIndex t q = pcIndex s q ∧ SequencersKept s t ∧ MemKept s t ∧
      FieldsKept [F.sq_STATE, F.sq_WAITING, F.sq_WAIT_QUEUE] s t

/-- R184, R188. A skipped command of any class moves to the next index, counts in SKIPPED and changes no register and
no flag, and no tracker entry unless its token waits behind an earlier operation's for the same queue; where it
produces no token and no record, no byte of memory either. -/
def Obligations.SkippedCommand : Prop :=
  ∀ (q : SeqId) (codes : List (Nat × Int)) (i : Instr) (cls op : Nat), (i, cls, op) ∈ streamCommands q codes →
    ∀ (s s1 : State) (c : Cmd) (n : Nat) (toks : List Nat), prepare q cls op s = .go s1 c n toks false →
    Completes i s fun t =>
      pcIndex t q = (pcIndex s q + 1) % 2 ^ 11 ∧
      rd t F.sq_SKIPPED q.die 0 = (rd s F.sq_SKIPPED q.die 0 + 1) % 2 ^ F.sq_SKIPPED.width ∧
      SequencersKept s t ∧ t.busy = s.busy ∧
      ((c.produceEn = true → ∀ r ∈ s1.tracker,
        r.route ≠ some (q.die, bits (seqTag s1 q) 12 8, c.produceDie, c.produceQueue)) → t.tracker = s.tracker) ∧
      (Quiet q c s → MemKept s t ∧ FieldsKept (F.sq_SKIPPED :: issueFields) s t)

/-- R181. CMP and CMPI set predicate flag FLAG from the condition COND, PSTAT from the status source COND; the other
flags and every address register stay. PSTAT with CLR clears the sticky bits. R181. The conditions of CMP and CMPI on
48-bit values, signed and unsigned. -/
def Obligations.PredicateCommands : Prop :=
  (∀ (q : SeqId) (op : Nat) (i : Instr) (f : Cmd → State → Bool),
    (i, op, f) ∈ ([
      (.cmp q, 0x08, fun c s => cmpCond c.cond (regOf s q c.sreg) (regOf s q c.treg)),
      (.cmpi q, 0x09, fun c s => cmpCond c.cond (regOf s q c.sreg) c.imm),
      (.pstat q, 0x0C, fun c s => pstatCond s q c.cond c.imm)] : List (Instr × Nat × (Cmd → State → Bool))) →
    ∀ (s s1 : State) (c : Cmd) (n : Nat) (toks : List Nat), Issues q 0 op s s1 c n toks →
      Completes i s fun t =>
        predOf t q c.flag = f c s1 ∧
        (∀ q' k, k < 16 → ¬(q' = q ∧ k = c.flag) → predOf t q' k = predOf s q' k) ∧
        (∀ q' r, regOf t q' r = regOf s q' r) ∧
        rd t F.sq_STICKY q.die q.num =
          (if i = .pstat q ∧ c.clr = true then 0 else rd s1 F.sq_STICKY q.die q.num) ∧
        pcIndex t q = (pcIndex s q + 1) % 2 ^ 11 ∧
        (Quiet q c s → MemKept s t ∧ FieldsKept (F.sq_PRED :: issueFields) s t)) ∧
  (∀ a b : BitVec 48,
    (cmpCond 0 a.toNat b.toNat = true ↔ a < b) ∧ (cmpCond 1 a.toNat b.toNat = true ↔ a ≤ b) ∧
    (cmpCond 2 a.toNat b.toNat = true ↔ a = b) ∧ (cmpCond 3 a.toNat b.toNat = true ↔ b ≤ a) ∧
    (cmpCond 4 a.toNat b.toNat = true ↔ b < a) ∧ (cmpCond 5 a.toNat b.toNat = true ↔ a ≠ b) ∧
    (cmpCond 6 a.toNat b.toNat = true ↔ a.toInt < b.toInt) ∧ (cmpCond 7 a.toNat b.toNat = true ↔ b.toInt ≤ a.toInt))

/-- R181, R194. Where the control commands that change no data go on: NOP, REDCFG and ROWCFG at the next index, JUMP
at IMM, LOOP at IMM while the decremented register is not 0, HALT nowhere, SWITCH at the other bin's ENTRY. Registers
but LOOP's and every predicate flag stay. -/
def Obligations.FlowCommands : Prop :=
  ∀ (q : SeqId) (op : Nat) (i : Instr),
    (i, op) ∈ ([(.nop q, 0x00), (.loop q, 0x0A), (.jump q, 0x0B), (.switchBin q, 0x0F), (.halt q, 0x10),
      (.redcfg q, 0x11), (.rowcfg q, 0x12)] : List (Instr × Nat)) →
    ∀ (s s1 : State) (c : Cmd) (n : Nat) (toks : List Nat), Issues q 0 op s s1 c n toks →
      Completes i s fun t =>
        let next := (pcIndex s q + 1) % 2 ^ 11
        let left := (regOf s q c.dreg + 2 ^ 48 - 1) % 2 ^ 48
        (∀ q' k, predOf t q' k = predOf s q' k) ∧
        (∀ q' r, ¬(i = .loop q ∧ q'.die = q.die ∧ q'.num * 32 + r = q.num * 32 + c.dreg) → regOf t q' r = regOf s q' r) ∧
        (i = .nop q → pcIndex t q = next) ∧
        (i = .jump q → pcIndex t q = c.imm % 2048) ∧
        (i = .loop q → regOf t q c.dreg = left ∧ pcIndex t q = if left = 0 then next else c.imm % 2048) ∧
        (i = .halt q → seqState t q = 0) ∧
        (i = .redcfg q → pcIndex t q = next ∧ (seqX t q).red2 = c.w2 ∧ (seqX t q).red3 = c.w3 ∧
          (seqX t q).row2 = (seqX s q).row2 ∧ (seqX t q).row3 = (seqX s q).row3) ∧
        (i = .rowcfg q → pcIndex t q = next ∧ (seqX t q).row2 = c.w2 ∧ (seqX t q).row3 = c.w3 ∧
          (seqX t q).red2 = (seqX s q).red2 ∧ (seqX t q).red3 = (seqX s q).red3) ∧
        (i = .switchBin q → ∀ b, binOf s q (1 - activeBin s q) = some b →
          binValid s q (1 - activeBin s q) = true → b.gen = (seqX s q).gen →
          activeBin t q = (1 - activeBin s q) ∧ pcIndex t q = b.entry % 2 ^ 11 ∧ seqState t q = 1 ∧ (seqX t q).base = n) ∧
        (Quiet q c s → (i = .nop q ∨ i = .jump q ∨ i = .halt q ∨ i = .redcfg q ∨ i = .rowcfg q) →
          MemKept s t ∧ FieldsKept issueFields s t)

/-- R185. Where no operation of its sequencer for the same queue is under way, TOKEN enqueues, behind the tokens that
can be popped no later, a token whose status is the OR of those it popped, whose FORMAT the flag chooses, whose EXTENT
is that of the token popped from WAIT_A and whose SKIP is 0; a bin that holds one without PRODUCE_EN is refused with
code 0x7; and no popped token makes it a skipped command. -/
def Obligations.TokenCommand : Prop :=
  (∀ (q : SeqId) (s s1 : State) (c : Cmd) (n : Nat) (toks : List Nat), Issues q 0 0x0E s s1 c n toks →
    c.produceEn = true → (queueOf s1 c.produceDie c.produceQueue).length < 64 →
    (∀ r ∈ s1.tracker, r.route ≠ some (q.die, bits (seqTag s1 q) 12 8, c.produceDie, c.produceQueue)) →
    Completes (.token q) s fun t =>
      let any (k : Nat) := toks.any fun w => bitOf w (29 + k)
      let word := tokenWord (seqTag s1 q) (seqX s1 q).gen false (any 0) (any 1) (any 2)
        (if predOf s1 q c.flag then bits c.imm 4 4 else bits c.imm 0 4) (if c.waitAEn then tokExtent (toks.headD 0) else 0)
      queueOf t c.produceDie c.produceQueue =
        settled s1 c.produceDie c.produceQueue (insertTok ⟨word, poppableAt (some (seqDieCode q)) c.produceDie (n * domCycles q)⟩
          (queueOf s1 c.produceDie c.produceQueue)) ∧
      pcIndex t q = (pcIndex s q + 1) % 2 ^ 11 ∧ SequencersKept s t ∧
      (c.notify = false → rdb s F.sq_TRACE_ALL q.die 0 = false → MemKept s t ∧ FieldsKept issueFields s t)) ∧
  (∀ (n count : Nat) (c : Cmd), c.cls = 0 → c.op = 0x0E → c.produceEn = false → c.streamKind < 8 → cmdCode n count c = 7) ∧
  (∀ (q : SeqId) (s s1 : State) (c : Cmd) (n : Nat) (toks : List Nat) (run : Bool),
    prepare q 0 0x0E s = .go s1 c n toks run →
    (run = true ↔ (c.predEn = true → predOf s q c.predFlag = c.predSense)))

/-! ### Long operations -/

/-- R32, R33, R36, R37, R155, R157, R158, R159. What the vector engine writes for the operations that work lane by
lane, where neither the reduction nor the histogram taps them: lane `p` of the result is the function of the sources'
lanes `p` and of the immediate, written to D in D's format: as F32, rounded to S16, or rounded to B8 in blocks with a
preset or a new exponent each. R69, R116, R117, R159 to R163, R167. What SELECT, PERM, QUANT, LEVEL_SCALE, DRIFT,
HIST_THRESH and COMPACT write, where neither the reduction nor the histogram taps them. SELECT and PERM, to a
destination of F32 and of the source's own format: the lane picked, the immediate elsewhere (that SELECT moves an F32
value unconverted is log 18, DEDUCED). QUANT: the codes, the parameters and the outlier values of each segment of 512.
LEVEL_SCALE: S16 products of levels and column scales. DRIFT: D_j and m_j of each column, on its live rows (their
layout is log 19, DEDUCED). HIST_THRESH: the threshold record. COMPACT: the record, and the elements at or above the
threshold with their global indices. R50. A NaN operand of an F32 addition, subtraction, multiplication or division
gives the canonical NaN and sets non-finite status, whatever status was set before. -/
def Obligations.VectorArithmetic : Prop :=
  (∀ (op : Nat) (f : Cmd → F32 → F32 → Calc F32), (op, f) ∈ ([
      (0x01, fun _ a _ => pure a), (0x02, fun _ a b => fadd a b), (0x03, fun _ a b => fsub a b), (0x04, fun _ a b => fmul a b),
      (0x05, fun c a b => do fadd (← fmul a c.vImmF) b), (0x06, fun c a _ => fadd a c.vImmF),
      (0x07, fun c a _ => fmul a c.vImmF), (0x08, fun _ a b => fdiv a b), (0x09, fun _ a _ => frecip a),
      (0x0A, fun _ a _ => fsqrt a), (0x0B, fun _ a _ => frsqrt a), (0x0C, fun _ a b => fmax a b), (0x0D, fun _ a b => fmin a b),
      (0x0E, fun c a _ => fmin ((fmax a (s16ToF32 (BitVec.ofNat 16 (bits c.vImm 16 16)))).val)
        (s16ToF32 (BitVec.ofNat 16 (c.vImm % 2 ^ 16)))),
      (0x0F, fun _ a _ => fabs a), (0x10, fun _ a _ => extToF32 (f32Val (fneg a))), (0x11, fun _ a _ => fmax a 0),
      (0x12, fun _ a _ => exp32 a), (0x13, fun c a b => pure (if fcmp c.vMod a b then 0x3F800000#32 else 0)),
      (0x14, fun c a _ => pure (if fcmp c.vMod a c.vImmF then 0x3F800000#32 else 0))] :
      List (Nat × (Cmd → F32 → F32 → Calc F32))) →
    ∀ (x : Ctx) (c : Cmd) (s : State) (n : Nat), c.vRedEn = false → c.vHistEn = false → (vLen x c).1 = n → 0 < n →
      let d := vD x c
      let ys := (List.range n).map fun p => (f c ((vA x c).elem s p).val ((vB x c).elem s p).val).val
      let r := vectorWork op x c s
      r.extent = n ∧ r.fmt = d.fmt ∧
      (d.fmt = fmtF32 → r.writes = [⟨cell d.space d.base, ys.flatMap fun y => f32Le (extToF32 (f32Val y)).val⟩]) ∧
      (d.fmt = fmtS16 → r.writes = [⟨cell d.space d.base, ys.zipIdx.flatMap fun yp => s16Le (f32ToS16 (vRound x c yp.2) yp.1).val⟩]) ∧
      (d.fmt = fmtB8 →
        let es := (blocksOf (blockSize d.blk) n ys).zipIdx.map fun bj => (encodeBlock (vRound x c)
          (if c.vPreset then some (readExp s d.space (d.aux + bj.2)) else none) bj.1 (blockSize d.blk * bj.2)).val
        r.writes = ⟨cell d.space d.base, es.flatMap (·.2)⟩ ::
          (if c.vPreset then [] else [⟨cell d.space d.aux, es.map fun e => BitVec.ofNat 8 e.1⟩]))) ∧
  (∀ (x : Ctx) (c : Cmd) (s : State) (n : Nat), c.vRedEn = false → c.vHistEn = false → (vLen x c).1 = n → 0 < n →
    let a := vA x c
    let b := vB x c
    let cc := vC x c
    let d := vD x c
    let at' (k : Nat) := cell d.space (d.base + k)
    let xs := (List.range n).map fun p => (a.elem s p).val
    let cols := ceilDiv n 512
    (d.fmt = fmtF32 → (vectorWork 0x15 x c s).writes = [⟨at' 0, (List.range n).flatMap fun p =>
      let v := if f32IsZero (xs.getD p 0) then c.vImmF else (b.elem s p).val
      f32Le (if f32IsNan v then f32Nan else v)⟩]) ∧
    (a.fmt = fmtS16 → d.fmt = fmtS16 → (vectorWork 0x16 x c s).writes = [⟨at' 0, (List.range n).flatMap fun p =>
      match permSource s b n p with
      | some i => (movedElem a s i).val
      | none => s16Le ((f32ToS16 .ne c.vImmF).val)⟩]) ∧
    (a.fmt = fmtF32 → d.fmt = fmtF32 → (vectorWork 0x16 x c s).writes = [⟨at' 0, (List.range n).flatMap fun p =>
      match permSource s b n p with
      | some i => (movedElem a s i).val
      | none => f32Le (extToF32 (f32Val c.vImmF)).val⟩]) ∧
    (let preset := if c.vMod % 2 = 1 then some (BitVec.ofNat 16 (bits c.vImm 16 16), c.vImm % 256) else none
     let qs := (blocksOf 512 n xs).zipIdx.map fun sk =>
        (quantSegment preset (readSlots s b.space (b.base + 16 * sk.2)) sk.1).val
     (vectorWork 0x17 x c s).writes = [⟨at' 0, qs.flatMap fun r => r.2.1⟩, ⟨cell d.space d.aux, qs.flatMap fun r => paramBytes r.1⟩,
        ⟨cell cc.space cc.base, qs.flatMap fun r => r.2.2.flatMap s16Le⟩]) ∧
    (vectorWork 0x18 x c s).writes = [⟨at' 0, (List.range n).flatMap fun p =>
      s16Le (levelWeight (readLevel s a.space (a.base + p)) (columnScale s c cc (p / 512))).val⟩] ∧
    (vectorWork 0x19 x c s).writes = [⟨at' 0, (List.range cols).flatMap fun j =>
      let rows := (List.range (min (512 - min c.vImm 512) (n - 512 * j))).map fun i =>
        (readS16 s a.space (a.base + 2 * (512 * j + i)), readLevel s b.space (b.base + 512 * j + i))
      match (driftColumn (columnScale s c cc j) rows).val with
      | some v => f32Le v.1 ++ f32Le v.2
      | none => f32Le f32Nan ++ f32Le f32Nan⟩] ∧
    (let r := threshold x.histBase c.vImm (readHist s a.space a.base)
     (vectorWork 0x1A x c s).writes = [⟨at' 0, quad r.1.toNat r.2 0 0⟩]) ∧
    (d.fmt = fmtF32 →
      let r := threshold x.histBase c.vImm (readHist s b.space b.base)
      let sel := xs.zipIdx.filter fun xi => f32Finite xi.1 && decide (0 ≤ fcompare ((fabs xi.1).val) r.1)
      (vectorWork 0x1B x c s).writes =
        ⟨cell (dieSpace x.die) (x.addr x.red2 0), quad r.1.toNat r.2 sel.length 0⟩ :: (if sel.length = 0 then [] else
          [⟨at' 0, sel.flatMap fun xi => f32Le (extToF32 (f32Val xi.1)).val⟩,
            ⟨cell cc.space cc.base, sel.flatMap fun xi => natLe 4 (x.elemBase c + xi.2)⟩]))) ∧
  (∀ f ∈ ([fadd, fsub, fmul, fdiv] : List (F32 → F32 → Calc F32)), ∀ (a b : F32) (fl : Fl),
    f32IsNan a = true ∨ f32IsNan b = true → ((f a b).run fl).1 = f32Nan ∧ ((f a b).run fl).2.nonfinite = true)

/-- R171, R172, R198, R204 to R206. A matrix, vector or row command whose engine is free, that reads nothing early and
overlaps nothing of its own starts: the die's tracker gains one entry that holds the writes the engine computed from
the state as it stands, to land after the operation's latency, and its token; the engine is occupied; the next command
is the next index. Registers and predicate flags stay, and until the landing, outside the repeat of an overflowed
output (whose entry in the overflow log is R46's), so does every byte of memory. R172. A matrix, vector or row command
that issues while its engine is occupied starts nothing: under the basic guard policy the program stops at the next
boundary with FATAL latched, under the expert policy the command is held until the first cycle in which the engine is
free. -/
def Obligations.EngineCommands : Prop :=
  (∀ (q : SeqId) (i : Instr) (cls op : Nat), (i, cls, op) ∈ streamCommands q [] → cls = 2 ∨ cls = 3 ∨ cls = 4 →
    ∀ (s s1 : State) (c : Cmd) (n : Nat) (toks : List Nat), Issues q cls op s s1 c n toks →
    busyUntil s1 (engineKey q.die q.num) ≤ n → trackerCount s1 q.die < 32768 →
    let r := engineWork cls op (ctxOf s1 q) c (asOf n s1)
    r.overlap = false → earlySummary s1 n r.reads = none → CleanReads r.reads s1 →
    Completes i s fun t =>
      (∃ p, t.tracker = s.tracker ++ [p] ∧ p.die = q.die ∧ p.tag = seqTag s1 q ∧ p.gen = (seqX s1 q).gen ∧
        p.landed = false ∧ p.land = r.lat.map (n + ·) ∧ p.writes = r.writes ∧
        p.token = resultToken (seqTag s1 q) (seqX s1 q).gen r.fl r.fmt r.extent ∧
        p.produce = (if c.produceEn then some (c.produceDie, c.produceQueue) else none) ∧ p.notify = c.notify) ∧
      busyUntil t (engineKey q.die q.num) = n + r.occ ∧ pcIndex t q = (pcIndex s q + 1) % 2 ^ 11 ∧
      SequencersKept s t ∧
      (repeatFlag s1 q c = none → MemKept s t ∧ FieldsKept ([F.sq_TRACKER_OUT, F.sq_TRACKER_HIGH] ++ issueFields) s t)) ∧
  (∀ (q : SeqId) (i : Instr) (cls op : Nat), (i, cls, op) ∈ streamCommands q [] → cls = 2 ∨ cls = 3 ∨ cls = 4 →
    ∀ (s s1 : State) (c : Cmd) (n : Nat) (toks : List Nat), Issues q cls op s s1 c n toks →
    n < busyUntil s1 (engineKey q.die q.num) →
    Completes i s fun t =>
      t.tracker = s.tracker ∧ t.busy = s.busy ∧ SequencersKept s t ∧
      (rdb s F.sq_GUARD_POLICY q.die 0 = true → pcIndex t q = pcIndex s q ∧
        (seqX t q).heldTill = some (ceilDiv (busyUntil s1 (engineKey q.die q.num)) (domCycles q))) ∧
      (rdb s F.sq_GUARD_POLICY q.die 0 = false → t.stopAt.isSome ∧ rdb t F.sq_FATAL q.die 0 = true))

/-- R55, R113, R180, R207. An array product that issues at array tick `n` on a ready group whose named arrays are
free, in a slot that starts a training product, with nothing left to land before its read cycle and no commit before
its first integration period (DESIGN CHOICE, log 125), starts: time comes to that period, and the tracker gains one
entry that holds the writes of the product on the arrays as they stand there and on the input planes as they stood in
its read cycle, to land in the alignment period that R207 gives. R182, R195, R198, R208. A copy between memories that
no earlier copy of the same scratchpad holds up starts: its tracker entry takes the bytes as they stand, and one that
stays in its die's scratchpad lands after its latency. One that an earlier copy of the same scratchpad holds up waits
in the tracker without a landing cycle; when that copy ends, it starts then. -/
def Obligations.ArrayAndCopyCommands : Prop :=
  (∀ (q : SeqId) (codes : List (Nat × Int)) (s s1 : State) (c : Cmd) (n : Nat) (toks : List Nat),
    Issues q 5 0 s s1 c n toks →
    let die := (groupOf q).1
    let inst := (groupOf q).2
    let ap := n / 16
    let rc := readCycle die (ctxOf s1 q) c ap
    let o := productWork (ctxOf s1 q) c die inst (ap + 1) codes (asOf rc s1) s1
    productHeld s1 die (ctxOf s1 q) c ap = false → groupReady s1 inst = true → arraysFreeAp s1 die inst c ≤ ap + 1 → slotStarts s1 inst (ap + 1) 1 0 = true →
    trackerCount s1 q.die < 32768 → o.res.overlap = false → earlySummary s1 rc o.res.reads = none →
    CleanReads o.res.reads s1 → 2 * n ≤ 32 * (ap + 1 + o.land) →
    Completes (.arrayProduct q codes) s fun t =>
      (∃ p, t.tracker = s.tracker ++ [p] ∧ p.die = q.die ∧ p.tag = seqTag s1 q ∧ p.landed = false ∧
        p.land = some (32 * (ap + 1 + o.land)) ∧ p.writes = o.res.writes ∧ p.audits = o.res.audits) ∧
      t.core = max s1.core (32 * (ap + 1)) ∧ pcIndex t q = (pcIndex s q + 1) % 2 ^ 11 ∧ SequencersKept s t ∧
      (repeatFlag s1 q c = none → MemKept s t)) ∧
  ((∀ (q : SeqId) (s s1 : State) (c : Cmd) (n : Nat) (toks : List Nat), Issues q 6 0 s s1 c n toks →
    let j := copyJob (ctxOf s1 q) c n
    trackerCount s1 q.die < 32768 →
    (copyGoing s1 j.srcSpace = false → earlySummary s1 n j.reads = none → CleanReads j.reads s1 → Completes (.copy q) s fun t =>
      (∃ p, t.tracker = s.tracker ++ [p] ∧ p.die = q.die ∧ p.tag = seqTag s1 q ∧ p.landed = false ∧
        p.writes = (List.range j.rows).map (fun r => ⟨cell j.dstSpace ((j.dst + r * j.dstPitch) % 2 ^ 48),
          readBytes s1 j.srcSpace ((j.src + r * j.srcPitch) % 2 ^ 48) j.rowBytes⟩) ∧
        p.land = if j.own then some (n + j.lat) else none) ∧
      pcIndex t q = (pcIndex s q + 1) % 2 ^ 11 ∧ SequencersKept s t ∧ MemKept s t) ∧
    (copyGoing s1 j.srcSpace = true → j.own = true → Completes (.copy q) s fun t =>
      (∃ p, t.tracker = s.tracker ++ [p] ∧ p.die = q.die ∧ p.tag = seqTag s1 q ∧ p.landed = false ∧ p.land = none ∧
        p.copy = some j ∧ p.writes = []) ∧
      pcIndex t q = (pcIndex s q + 1) % 2 ^ 11 ∧ SequencersKept s t ∧ MemKept s t)) ∧
  (∀ (s : State) (p r : PendingOp) (j k : CopyJob) (l : Nat), s.tracker = [p, r] → p.die < 4 → p.landed = false →
    p.land = some l → s.core ≤ l → p.gate = true → p.awaits = [] → p.copy = some j → p.audits = [] → p.failed = none →
    r.landed = false → r.land = none → r.copy = some k → k.srcSpace = j.srcSpace → r.audits = [] → s.newPoison = [] →
    Completes (.longOpComplete p.die p.tag {} 0 false) s fun t =>
      ∃ r', t.tracker = [r'] ∧ r'.die = r.die ∧ r'.tag = r.tag ∧ r'.copy = some k ∧
        r'.land = some (max l k.issued + k.lat) ∧ SequencersKept s t))

/-- R184, R198, R199, R200. The end of a long operation that no other operation's landing precedes: time comes to its
landing cycle, its bytes stand at their places in the order of its writes, its tracker entry alone is gone, and its
token waits in the queue it names, where no earlier operation of its sequencer for that queue still goes. With NOTIFY,
or where every command is traced, its completion record stands at the head of its die's ring. Every other byte stays.
-/
def Obligations.LongOpLands : Prop :=
  ∀ (s : State) (p : PendingOp) (before after : List PendingOp) (l : Nat),
    s.tracker = before ++ p :: after → p.die < 4 → p.landed = false → p.land = some l → s.core ≤ l → p.gate = true →
    p.awaits = [] → p.copy = none → p.poisons = [] → p.audits = [] → p.failed = none → p.stage = [] →
    (∀ r ∈ before ++ after, r.landed = false ∧ r.audits = [] ∧ (r.die = p.die → r.tag ≠ p.tag) ∧
      (∀ x, p.route = some x → r.route ≠ some x) ∧ ∀ m, r.land = some m → l ≤ m) →
    trackerCount s p.die ≤ 32768 → s.newPoison = [] →
    (∀ w ∈ p.writes, (w.key % 64 = memSpace → w.key / 64 + w.bytes.length ≤ s.variant.memBytes) ∧
      (w.key % 64 ≠ memSpace → w.key % 64 < 8 → w.key / 64 + w.bytes.length ≤ scratchBytes)) →
    (∀ c ∈ p.counts, c.f.fid ∉ [F.sq_CREC_HEAD, F.sq_CREC_TAIL, F.sq_CREC_SIZE, F.sq_CREC_BASE, F.sq_TRACE_ALL].map (·.fid)) →
    let record := p.notify || rdb s F.sq_TRACE_ALL p.die 0
    let size := 2 ^ ringLog (rd s F.sq_CREC_SIZE p.die 0)
    let head := rd s F.sq_CREC_HEAD p.die 0
    let entry := rd s F.sq_CREC_BASE p.die 0 + 16 * (head % size)
    let stands (k : Nat) := p.writes.foldl (fun b w => if k % 64 = w.key % 64 ∧ w.key / 64 ≤ k / 64 ∧
      k / 64 < w.key / 64 + w.bytes.length then w.bytes.getD (k / 64 - w.key / 64) 0 else b) (cellGet k s.mem)
    Completes (.longOpComplete p.die p.tag {} 0 false) s fun t =>
      t.core = l ∧ t.tracker = before ++ after ∧ SequencersKept s t ∧
      ((∀ x, p.produce = some x → (queueOf s x.1 x.2).length < 64) →
        (record = false → ∀ k, cellGet k t.mem = stands k) ∧
        (record = true → (head + 2 ^ 64 - rd s F.sq_CREC_TAIL p.die 0) % 2 ^ 64 ≠ size → entry + 16 ≤ s.variant.memBytes →
          rd t F.sq_CREC_HEAD p.die 0 = (head + 1) % 2 ^ F.sq_CREC_HEAD.width ∧
          ∀ k, cellGet k t.mem = if k % 64 = memSpace ∧ entry ≤ k / 64 ∧ k / 64 < entry + 16
            then (natLe 8 p.token ++ natLe 8 (nsAt (advanceTo l s) l)).getD (k / 64 - entry) 0 else stands k)) ∧
      ∀ d queue, p.produce = some (d, queue) → (queueOf s d queue).length < 64 → queueOf t d queue =
        settled s d queue (insertTok ⟨p.token, poppableAt (some (tagSource p.die p.tag)) d l⟩ (queueOf s d queue))

/-- R172. A command that the expert policy holds starts in the cycle in which its engine is free, from which its next
command's offset counts: a matrix, vector or row command then gains its tracker entry and occupies the engine from
that cycle; an array product whose input has landed by its read cycle starts on its arrays in the next alignment
period. Copies and exchange commands occupy no engine and are never held so. -/
def Obligations.DelayedStart : Prop :=
  (∀ (q : SeqId) (codes : List (Nat × Int)) (s : State) (c : Cmd) (h : Nat), nextCmd s q = some c →
    (c.cls = 2 ∧ c.op = 0) ∨ c.cls = 3 ∨ c.cls = 4 → q.num < 89 →
    (seqX s q).heldTill = some h → (seqX s q).floor ≤ h → s.stopAt = none → landedBy s h = true →
    busyUntil s (engineKey q.die q.num) ≤ h → trackerCount s q.die < 32768 →
    let s1 := setSeqX q { seqX s q with heldTill := none } (advanceTo h s)
    let r := engineWork c.cls c.op (ctxOf s1 q) c (asOf h s1)
    r.overlap = false → earlySummary s1 h r.reads = none → CleanReads r.reads s1 →
    Completes (.delayedStart q codes) s fun t =>
      (∃ p, t.tracker = s.tracker ++ [p] ∧ p.die = q.die ∧ p.tag = seqTag s q ∧ p.land = r.lat.map (h + ·) ∧
        p.writes = r.writes) ∧
      busyUntil t (engineKey q.die q.num) = h + r.occ ∧ (seqX t q).base = h ∧ (seqX t q).heldTill = none ∧
      pcIndex t q = (pcIndex s q + 1) % 2 ^ 11 ∧ SequencersKept s t) ∧
  (∀ (q : SeqId) (codes : List (Nat × Int)) (s : State) (c : Cmd) (h : Nat), nextCmd s q = some c → c.cls = 5 → 89 ≤ q.num →
    (seqX s q).heldTill = some h → (seqX s q).floor ≤ 2 * h → s.stopAt = none → landedBy s (2 * h) = true →
    let s1 := setSeqX q { seqX s q with heldTill := none } (advanceTo (2 * h) s)
    let die := (groupOf q).1
    let inst := (groupOf q).2
    let ap := h / 16
    let rc := readCycle die (ctxOf s1 q) c ap
    let o := productWork (ctxOf s1 q) c die inst (ap + 1) codes (asOf rc s1) s1
    productHeld s die (ctxOf s q) c ap = false → groupReady s1 inst = true → arraysFreeAp s1 die inst c ≤ ap + 1 →
    slotStarts s1 inst (ap + 1) 1 0 = true → trackerCount s1 q.die < 32768 → o.res.overlap = false →
    earlySummary s1 rc o.res.reads = none → CleanReads o.res.reads s1 → 2 * h ≤ 32 * (ap + 1 + o.land) →
    Completes (.delayedStart q codes) s fun t =>
      (∃ p, t.tracker = s.tracker ++ [p] ∧ p.die = q.die ∧ p.tag = seqTag s q ∧ p.land = some (32 * (ap + 1 + o.land)) ∧
        p.writes = o.res.writes) ∧
      (seqX t q).base = h ∧ (seqX t q).heldTill = none ∧ t.core = max s1.core (32 * (ap + 1)) ∧
      pcIndex t q = (pcIndex s q + 1) % 2 ^ 11 ∧ SequencersKept s t)

/-! ### Sequencer events, bin loads and dumps -/

/-- R173, R187, R196. A token wait that goes on to its limit, with no token of its queue that could be popped by then,
stops its sequencer: the wait ends, FATAL is latched with kind 3 and the tag of the waiting command where nothing was
latched before, and issue stops at a later boundary. Registers and flags stay. R194. A committed switch acts at the
first command boundary at or after its alignment period, where the command there has not waited for a token beyond it
(by which cycle the wait is judged is log 135, DEDUCED): the next command is the ENTRY of the other bin, whose offset
counts from the commit's period where that is later than the last issue. R173. At the boundary after a program-fatal
error every running or waiting sequencer of the four dies stops where it stands and the others stay as they are; no
tracker entry, token, register or byte of memory is lost. -/
def Obligations.SequencerEvents : Prop :=
  (∀ (q : SeqId) (s : State) (w : Nat), (seqX s q).waitNs = some w → rdb s F.sq_WAITING q.die q.num = true →
    let n := rd s F.sq_WAIT_QUEUE q.die q.num
    let c := coreAfterNs s (w + waitLimitUs s q.die * 1000)
    landedBy s c = true → (∀ b, s.stopAt = some b → c < b) →
    (∀ tok ∈ settled s (queueDie q) n (queueOf s (queueDie q) n), c < tok.ready) →
    Completes (.tokenTimeout q) s fun t =>
      seqState t q = 3 ∧ rdb t F.sq_WAITING q.die q.num = false ∧ pcIndex t q = pcIndex s q ∧ t.core = max s.core c ∧
      rdb t F.sq_FATAL q.die 0 = true ∧ t.stopAt.isSome = true ∧
      (rdb s F.sq_FATAL q.die 0 = false → rd t F.sq_FATAL_KIND q.die 0 = 3 ∧
        rd t F.sq_FATAL_TAG q.die 0 = seqTag s q % 2 ^ F.sq_FATAL_TAG.width) ∧
      SequencersKept s t) ∧
  (∀ (q : SeqId) (s : State) (w : Nat) (c : Cmd) (b : Bin) (toks : List Nat) (pop : Option Nat),
    (seqX s q).switchAt = some w → nextCmd s q = some c → (seqX s q).popA = none → (seqX s q).heldTill = none →
    (doWaits q c s).1 = some (toks, pop) → (∀ p, pop = some p → p < w) → w ≤ issueAt q c pop s * domCycles q → binOf s q (1 - activeBin s q) = some b →
    binValid s q (1 - activeBin s q) = true → b.gen = (seqX s q).gen →
    Completes (.binSwitchAtBoundary q) s fun t =>
      activeBin t q = 1 - activeBin s q ∧ pcIndex t q = b.entry % 2 ^ 11 ∧ (seqX t q).switchAt = none ∧
      (seqX t q).base = max (seqX s q).base (ceilDiv w (domCycles q)) ∧ t.core = max s.core w ∧
      rdb t F.sq_WAITING q.die q.num = false ∧
      SequencersKept s t ∧ MemKept s t ∧ FieldsKept [F.sq_PC_INDEX, F.sq_PC_BIN, F.sq_WAITING, F.sq_STATE] s t) ∧
  (∀ (s : State) (c : Nat), s.stopAt = some c →
    Completes .programStop s fun t =>
      t.stopAt = none ∧ t.programDied = true ∧ t.core = max s.core c ∧ t.tracker = s.tracker ∧ t.queues = s.queues ∧
      (∀ q : SeqId, q.die < 4 → q.num < 153 → seqState t q = (if seqBusy s q then 3 else seqState s q) ∧ pcIndex t q = pcIndex s q) ∧
      SequencersKept s t ∧ MemKept s t ∧ FieldsKept [F.sq_STATE, F.sq_WAITING] s t)

/-- R192. A write of BIN_LOAD.GO for a sequencer of the die, while no load runs there and the bin is not active, makes
that bin invalid and starts the load; for an active bin, or while a load runs, it is refused with code 0x1 and
counted. For a SEQ above 152, with no load running, the code is 0x3. A result that no command of the image gave has
INDEX 0x7FF, and such a SEQ is told at the write (DEDUCED, log 47). R190, R192, R193. The end of a bin load that meets
no poisoned word: with the code of the first check that fails the bin stays as it was; where every check passes it
becomes valid and holds the image's commands, entry and generation. -/
def Obligations.BinLoads : Prop :=
  (∀ (die seq bin : Nat) (s : State), die < 4 → seq < 256 → bin < 2 → livePage s (unitOf 0x25 die) = true →
    let q : SeqId := ⟨die, seq⟩
    let refused := rdb s F.sq_LOAD_BUSY die 0 || (decide (seq < 153) && seqBusy s q && activeBin s q == bin)
    Completes (.binLoad die seq bin) s fun t =>
      (refused = false → seq < 153 → rdb t F.sq_LOAD_BUSY die 0 = true ∧ binValid t q bin = false ∧
        binValid t q (1 - bin) = binValid s q (1 - bin) ∧
        smFind die t.loads = some ⟨seq, bin, rd s F.sq_BIN_ADDR die 0⟩ ∧
        FieldsKept [F.sq_LOAD_SEQ, F.sq_LOAD_BIN, F.sq_LOAD_BUSY, F.sq_VALID_0, F.sq_VALID_1] s t) ∧
      (refused = true → rd t F.sq_CODE die 0 = 1 ∧ rd t F.sq_INDEX die 0 = 0x7FF ∧ t.loads = s.loads ∧
        rd t F.sq_BIN_WRITE_REFUSED die 0 = min (rd s F.sq_BIN_WRITE_REFUSED die 0 + 1) (fieldMax F.sq_BIN_WRITE_REFUSED) ∧
        (∀ q b, binValid t q b = binValid s q b)) ∧
      (refused = false → 153 ≤ seq → rd t F.sq_CODE die 0 = 3 ∧ rd t F.sq_INDEX die 0 = 0x7FF ∧ t.loads = s.loads ∧
        FieldsKept [F.sq_LOAD_SEQ, F.sq_LOAD_BIN, F.sq_CODE, F.sq_INDEX] s t) ∧
      t.bins = s.bins ∧ MemKept s t ∧ SequencersKept s t) ∧
  (∀ (die : Nat) (s : State) (l : BinLoad), smFind die s.loads = some l → l.bin < 2 →
    let hdr := headerOf (readBytes s memSpace l.addr 64)
    let count := bits (hdr.getD 1 0) 27 12
    let n := if count = 0 ∨ 2048 < count then 0 else 32 * count
    let body := readBytes s memSpace (l.addr + 64) n
    let r := imageCode (signature s) (rdU s F.com_EXPERT_EN (unitOf 0x20 die) 0 == 1) l.seq hdr body
    let q : SeqId := ⟨die, l.seq⟩
    poisonedWords s memSpace l.addr (64 + n) = [] → beyondView s memSpace l.addr (64 + n) = false →
    Completes (.binLoadDone die) s fun t =>
      rdb t F.sq_LOAD_BUSY die 0 = false ∧ smFind die t.loads = none ∧
      rd t F.sq_CODE die 0 = r.1 % 2 ^ F.sq_CODE.width ∧ rd t F.sq_INDEX die 0 = r.2 % 2 ^ F.sq_INDEX.width ∧
      (r.1 ≠ 0 → t.bins = s.bins ∧ ∀ q b, binValid t q b = binValid s q b) ∧
      (r.1 = 0 → binValid t q l.bin = true ∧ ∃ b, binOf t q l.bin = some b ∧ b.gen = bits (hdr.getD 1 0) 8 8 ∧
        b.entry = bits (hdr.getD 1 0) 16 11 ∧ b.count = count ∧ b.order = s.loadCount + 1 ∧
        b.cmds = (List.range count).map fun i => cmdOf ((body.drop (32 * i)).take 32)) ∧
      MemKept s t ∧ SequencersKept s t ∧
      FieldsKept [F.sq_LOAD_BUSY, F.sq_CODE, F.sq_INDEX, F.sq_VALID_0, F.sq_VALID_1] s t)

/-- R388, R389. Once the long operations of a program-fatal stop are over, firmware writes the program dump into the
dump region, or, while a dump is held and not acknowledged, skips it and counts it. One dump is due for the errors of
one stop (DEDUCED, log 109). R387, R389, R390, R391. A device-fatal dump from its start to its acknowledgement: the
start frees the region and takes the part's own sections as they stand (DEDUCED, log 109); the end of the writing
shows the dump as kind 1 and starts its copies to the drives that are ready; once those of them still in use have done
everything, each holds the dump's bytes; the acknowledgement frees the region; and a restore puts a sound copy of a
ready drive back where no dump is held. -/
def Obligations.Dumps : Prop :=
  (∀ (fw : List Byte) (s : State), s.fault.programDue = true → s.stopAt = none → (∀ p ∈ s.tracker, ¬p.die < 4) →
    firmwareRuns s = true →
    let base := rd s F.fa_DUMP_BASE 0 0
    Completes (.programDump fw) s fun t =>
      t.fault.programDue = false ∧
      (rdb s F.fa_DUMP_READY 0 0 = false → rdb t F.fa_DUMP_READY 0 0 = true ∧ rd t F.fa_DUMP_KIND 0 0 = 2 ∧
        t.aux.dumpReady = true ∧
        rd t F.fa_DUMPS_WRITTEN 0 0 = min (rd s F.fa_DUMPS_WRITTEN 0 0 + 1) (fieldMax F.fa_DUMPS_WRITTEN) ∧
        (base + 2 ^ 30 ≤ s.variant.memBytes → readNat t memSpace base 4 = 0x504D5544 ∧
          ∀ k, ¬(k % 64 = memSpace ∧ base ≤ k / 64 ∧ k / 64 < base + 2 ^ 30) → cellGet k t.mem = cellGet k s.mem)) ∧
      (rdb s F.fa_DUMP_READY 0 0 = true → MemKept s t ∧ rd t F.fa_DUMP_KIND 0 0 = rd s F.fa_DUMP_KIND 0 0 ∧
        rd t F.fa_DUMPS_SKIPPED 0 0 = min (rd s F.fa_DUMPS_SKIPPED 0 0 + 1) (fieldMax F.fa_DUMPS_SKIPPED)) ∧
      SequencersKept s t) ∧
  ((∀ s : State, s.fault.fatalDue = true → firmwareRuns s = true →
    Completes .dumpStart s fun t => t.fault.started = true ∧ t.fault.fatalDue = false ∧
      rdb t F.fa_DUMP_READY 0 0 = false ∧ rd t F.fa_DUMP_KIND 0 0 = 0 ∧ t.aux.dumpReady = false ∧
      (s.tracker = [] → t.fault.sections = dumpSections s) ∧ MemKept s t ∧ FieldsKept [F.fa_DUMP_READY, F.fa_DUMP_KIND] s t) ∧
  (∀ (fw : List Byte) (s : State), s.fault.started = true →
    Completes (.dumpReady fw) s fun t => t.fault.started = false ∧ t.fault.copyDue = true ∧ t.fault.copying = readyDrives s ∧
      t.fault.copy = readBytes t memSpace (rd s F.fa_DUMP_BASE 0 0) t.fault.len ∧
      (∀ c, c ∉ readyDrives s → smFind c t.fault.shelf = smFind c s.fault.shelf) ∧
      (∀ c ∈ readyDrives s, smFind c t.fault.shelf = none) ∧
      rdb t F.fa_DUMP_READY 0 0 = true ∧ rd t F.fa_DUMP_KIND 0 0 = 1 ∧ t.aux.dumpReady = true ∧
      rd t F.fa_DUMPS_WRITTEN 0 0 = min (rd s F.fa_DUMPS_WRITTEN 0 0 + 1) (fieldMax F.fa_DUMPS_WRITTEN) ∧ SequencersKept s t) ∧
  (∀ s : State, s.fault.copyDue = true → copyDrives s ≠ [] → (∀ c ∈ copyDrives s, driveIdle s c = true) →
    Completes .dumpOnShelf s fun t => rdb t F.fa_DUMP_ON_SHELF 0 0 = true ∧ t.aux.onShelf = true ∧
      (∀ c ∈ copyDrives s, smFind c t.fault.shelf = some s.fault.copy) ∧
      (∀ c, c ∉ copyDrives s → smFind c t.fault.shelf = smFind c s.fault.shelf) ∧ t.fault.copyDue = false ∧
      MemKept s t ∧ FieldsKept [F.fa_DUMP_ON_SHELF] s t) ∧
  (∀ s : State, livePage s (unitOf 0x70 0) = true → rdb s F.fa_DUMP_READY 0 0 = true →
    Completes .dumpAck s fun t => rdb t F.fa_DUMP_READY 0 0 = false ∧ rd t F.fa_DUMP_KIND 0 0 = 0 ∧
      t.aux.dumpReady = false ∧ MemKept s t ∧ FieldsKept [F.fa_DUMP_READY, F.fa_DUMP_KIND] s t) ∧
  (∀ (s : State) (c : Nat) (bs : List Byte), livePage s (unitOf 0x70 0) = true → shelfDump s = some (c, bs) →
    rdb s F.fa_DUMP_READY 0 0 = false → s.fault.started = false → firmwareRuns s = true →
    rd s F.fa_DUMP_BASE 0 0 + bs.length ≤ s.variant.memBytes →
    Completes .dumpRestore s fun t => rdb t F.fa_DUMP_READY 0 0 = true ∧ dumpSound bs = true ∧ c ∈ readyDrives s ∧
      rd t F.fa_DUMP_KIND 0 0 = bits (leNat (bs.take 8)) 48 2 % 2 ^ F.fa_DUMP_KIND.width ∧ t.fault.len = bs.length ∧
      (∀ k, cellGet k t.mem = if k % 64 = memSpace ∧ rd s F.fa_DUMP_BASE 0 0 ≤ k / 64 ∧
          k / 64 < rd s F.fa_DUMP_BASE 0 0 + bs.length
        then bs.getD (k / 64 - rd s F.fa_DUMP_BASE 0 0) 0 else cellGet k s.mem) ∧
      SequencersKept s t))

/-! ### The commit controller -/

/-- R358. A claim by an agent that reaches the page is taken where nobody holds one; while one is held it is ignored.
Its holder's RELEASE ends it, another's does nothing. One held for CLAIM_LIMIT with no GO of its holder being checked
ends and is counted; while such a GO is checked it does not expire. Nothing else changes. R357, R359, R360. GO of an
agent that reaches the page and that no other agent's claim keeps out, with WHEN 0 to 2 and no commit in hand, takes a
snapshot of the staged fields that a commit includes: those that differ from their current values, the tables written
again, and not those that the step-boundary set holds and that were not written since (what counts as written is log
61, DEDUCED). Otherwise it is refused: COMMITS_BUSY rises, RESULT says why, and the commit in hand stays. No field
becomes current and no byte of memory changes. R81, R359. DISCARD makes every staged value the current value again and
empties the step-boundary set; it leaves a commit in hand and every current value but the standby sums' readiness. A
set that was itself pending no longer is, and STATE is idle (DEDUCED, log 116). -/
def Obligations.ClaimAndGo : Prop :=
  ((∀ (a : Agent) (s : State), agentReaches s a commitUnit = true → rd s F.cm_OWNER 0 0 = 0 → Completes (.claim a) s fun t =>
    rd t F.cm_OWNER 0 0 = agentCode a ∧ t.commit.claimNs = nowNs s ∧ t.stg = s.stg ∧ MemKept s t ∧ FieldsKept [F.cm_OWNER] s t) ∧
  (∀ (a : Agent) (s : State), agentReaches s a commitUnit = true → rd s F.cm_OWNER 0 0 = agentCode a →
    Completes (.release a) s fun t =>
      rd t F.cm_OWNER 0 0 = 0 ∧ t.stg = s.stg ∧ t.commit = s.commit ∧ MemKept s t ∧ FieldsKept [F.cm_OWNER] s t) ∧
  (∀ s : State, rd s F.cm_OWNER 0 0 ≠ 0 → (rd s F.cm_STATE 0 0 = 1 → rd s F.cm_OWNER 0 0 ≠ goHolder s) →
    Completes .claimExpired s fun t =>
      rd t F.cm_OWNER 0 0 = 0 ∧ s.core ≤ t.core ∧ t.stg = s.stg ∧
      rd t F.cm_CLAIM_EXPIRED 0 0 = min (rd s F.cm_CLAIM_EXPIRED 0 0 + 1) (fieldMax F.cm_CLAIM_EXPIRED) ∧
      MemKept s t ∧ FieldsKept [F.cm_OWNER, F.cm_CLAIM_EXPIRED, F.com_SAT_LO, F.com_SAT_HI, F.com_SAT_TBL] s t) ∧
  (∀ s : State, rd s F.cm_STATE 0 0 = 1 → rd s F.cm_OWNER 0 0 = goHolder s → exec .claimExpired s = .next s) ∧
  (∀ (a : Agent) (s : State), (rd s F.cm_OWNER 0 0 ≠ 0 → Completes (.claim a) s fun t => t.commit = s.commit ∧ MemKept s t ∧ FieldsKept [] s t) ∧
    (rd s F.cm_OWNER 0 0 ≠ agentCode a → Completes (.release a) s fun t => t.commit = s.commit ∧ MemKept s t ∧ FieldsKept [] s t))) ∧
  (∀ (a : Agent) (w : Nat) (s : State), w < 4 → agentReaches s a commitUnit = true →
    let st := rd s F.cm_STATE 0 0
    let busy : Prop := st = 1 ∨ st = 2
    let refused (result state : Nat) : Prop := Completes (.go a w) s fun t =>
      rd t F.cm_RESULT 0 0 = result ∧ rd t F.cm_STATE 0 0 = state ∧ t.commit = s.commit ∧ t.stg = s.stg ∧
      rd t F.cm_COMMITS_BUSY 0 0 = min (rd s F.cm_COMMITS_BUSY 0 0 + 1) (fieldMax F.cm_COMMITS_BUSY) ∧ MemKept s t ∧
      FieldsKept [F.cm_STATE, F.cm_RESULT, F.cm_COMMITS_BUSY, F.com_SAT_LO, F.com_SAT_HI, F.com_SAT_TBL] s t
    (¬busy → claimOther s a = false → w ≠ 3 → Completes (.go a w) s fun t =>
      rd t F.cm_STATE 0 0 = 1 ∧ t.commit.snapshot = included s ∧ t.commit.when' = w ∧ t.commit.byFirmware = (a == .firmware) ∧
      rd t F.cm_RESULT 0 0 = rd s F.cm_RESULT 0 0 % 2 ^ F.cm_RESULT.width ∧ t.commit.stepSet = s.commit.stepSet ∧
      t.stg = s.stg ∧ MemKept s t ∧ FieldsKept [F.cm_STATE, F.cm_RESULT] s t) ∧
    (busy → refused 2 st) ∧
    (¬busy → claimOther s a = true → refused 3 st) ∧
    (¬busy → claimOther s a = false → w = 3 → refused 6 4)) ∧
  (∀ s : State, livePage s commitUnit = true → Completes .discard s fun t =>
    t.stg = [] ∧ t.tblWritten = [] ∧ t.commit.stepSet = [] ∧ t.commit.setPending = false ∧
    rdb t F.cm_STEP_SET_HELD 0 0 = false ∧ t.commit.snapshot = s.commit.snapshot ∧
    rd t F.cm_STATE 0 0 = (if s.commit.setPending then 0 else rd s F.cm_STATE 0 0) ∧
    (∀ (f : Field) (u i : Nat), f.fid ∉ [F.cm_STEP_SET_HELD, F.cm_STATE, F.ag_STG_VALID, F.ag_PROG_COUNT].map (·.fid) →
      stgU t f u i = rdU s f u i) ∧
    MemKept s t ∧ FieldsKept [F.cm_STEP_SET_HELD, F.cm_STATE, F.ag_STG_VALID] s t)

/-- R357, R358, R359, R361, R365. The check of a commit ends, and with it the claim of the agent whose GO it was. A
failed rule fails the commit with REJECT_INFO and leaves it to be given again. A passed one of WHEN 2 joins the
step-boundary set, which where no program runs itself becomes pending; any other becomes pending, and PENDING_AT gives
the device time of its alignment period. That the state checked is the one at the end of the check is log 117
(DEDUCED). -/
def Obligations.CommitCheck : Prop :=
  ∀ s : State, rd s F.cm_STATE 0 0 = 1 →
    let mine : Prop := rd s F.cm_OWNER 0 0 = goHolder s
    let s0 := if rd s F.cm_OWNER 0 0 = goHolder s then wr F.cm_OWNER 0 0 0 s else s
    let s1 : State := { s0 with commit := { s0.commit with checkedAt := s.core } }
    let fs := s.commit.snapshot
    let w := s.commit.when'
    Completes .commitCheckDone s fun t =>
      (mine → rd t F.cm_OWNER 0 0 = 0) ∧ (¬mine → rd t F.cm_OWNER 0 0 = rd s F.cm_OWNER 0 0) ∧
      (∀ r, checkCommit fs w s1 = some r → rd t F.cm_STATE 0 0 = 4 ∧ rd t F.cm_RESULT 0 0 = 1 ∧
        rd t F.cm_REJECT_INFO 0 0 = r.info % 2 ^ 64 ∧ t.commit.snapshot = [] ∧
        rd t F.cm_COMMITS_FAILED 0 0 = min (rd s F.cm_COMMITS_FAILED 0 0 + 1) (fieldMax F.cm_COMMITS_FAILED)) ∧
      (checkCommit fs w s1 = none → w = 2 → rd t F.cm_RESULT 0 0 = 5 ∧ t.commit.snapshot = [] ∧
        rd t F.cm_STATE 0 0 = (if programRuns s then 0 else 2) ∧
        t.commit.stepSet = (s.commit.stepSet.filter fun kv => !(fs.any fun k => k.1 == kv.1)) ++ fs ∧
        rdb t F.cm_STEP_SET_HELD 0 0 = !t.commit.stepSet.isEmpty ∧
        t.commit.setPending = (s.commit.setPending || !programRuns s)) ∧
      (checkCommit fs w s1 = none → w ≠ 2 → hasField fs F.rs_VIEW_ADDR = false → rd t F.cm_STATE 0 0 = 2 ∧
        t.commit.snapshot = fs ∧ (rdb s F.cm_MEMBERSHIP 0 0 = false → s.commit.setPending = false →
          pendingAtNs t = apNs s (commitAp s1 fs w))) ∧
      t.stg = s.stg ∧ SequencersKept s t ∧ MemKept s t

/-- R263, R357, R360. A pending commit of staged fields, with no step commit to come before it, applies at the
beginning of its alignment period where its second check passes: STATE, RESULT and the counts show it, each staged
field takes its committed value, every staged field that it does not name stays; where no field of it has an effect of
its own, every other field and the memory stay too. One that fails is not applied. R361. A step-boundary set of staged
fields that is to apply by itself, at a frame boundary or while no program runs, applies as a whole in its alignment
period or, where its check fails, is discarded as a whole with STEP_SET_FAILED; either way the set is empty
afterwards, and where it was itself the pending commit, STATE and RESULT say how that ended. -/
def Obligations.CommitsApply : Prop :=
  (∀ s : State, rd s F.cm_STATE 0 0 = 2 → s.commit.setPending = false → rdb s F.cm_MEMBERSHIP 0 0 = false →
    let fs := s.commit.snapshot
    let n := commitAp s fs s.commit.when'
    stepFirst s n = false → StagedOnly fs →
    let s1 := advanceTo (32 * n) s
    Completes .commitApply s fun t =>
      (checkCommit fs s.commit.when' s1 = none → rd t F.cm_STATE 0 0 = 3 ∧ rd t F.cm_RESULT 0 0 = 0 ∧
        rd t F.cm_APPLIED_ALIGN 0 0 = nowAp s1 % 2 ^ 64 ∧ t.commit.snapshot = [] ∧
        rd t F.cm_COMMITS_APPLIED 0 0 = min (rd s F.cm_COMMITS_APPLIED 0 0 + 1) (fieldMax F.cm_COMMITS_APPLIED) ∧
        TakenIn fs s t ∧
        ((∀ kv ∈ fs, unitPage kv.1.unit ≠ 0x62 ∧ kv.1.fid ∉ specialFields.map (·.fid)) →
          (∀ m, m ∉ commitFields.map (·.fid) → (∀ kv ∈ fs, kv.1.fid ≠ m) → FieldKept m s t) ∧ MemKept s t)) ∧
      (∀ r, checkCommit fs s.commit.when' s1 = some r → rd t F.cm_STATE 0 0 = 4 ∧ rd t F.cm_RESULT 0 0 = 4 ∧
        rd t F.cm_REJECT_INFO 0 0 = r.info % 2 ^ 64 ∧ t.commit.snapshot = [] ∧ MemKept s t)) ∧
  (∀ (s : State) (n : Nat), setAp s = some n →
    let fs := s.commit.stepSet
    StagedOnly fs →
    let s1 := advanceTo (32 * n) s
    Completes .stepSetApply s fun t =>
      t.commit.stepSet = [] ∧ rdb t F.cm_STEP_SET_HELD 0 0 = false ∧ t.commit.snapshot = s.commit.snapshot ∧
      t.commit.setPending = false ∧
      (checkCommit fs 2 s1 = none →
        (s.commit.setPending = true → rd t F.cm_STATE 0 0 = 3 ∧ rd t F.cm_RESULT 0 0 = 0) ∧
        rd t F.cm_COMMITS_APPLIED 0 0 = min (rd s F.cm_COMMITS_APPLIED 0 0 + 1) (fieldMax F.cm_COMMITS_APPLIED) ∧
        rd t F.cm_APPLIED_ALIGN 0 0 = nowAp s1 % 2 ^ 64 ∧ TakenIn fs s t ∧
        ((∀ kv ∈ fs, unitPage kv.1.unit ≠ 0x62 ∧ kv.1.fid ∉ specialFields.map (·.fid)) → MemKept s t)) ∧
      (∀ r, checkCommit fs 2 s1 = some r → rdb t F.cm_STEP_SET_FAILED 0 0 = true ∧
        (s.commit.setPending = true → rd t F.cm_STATE 0 0 = 4 ∧ rd t F.cm_RESULT 0 0 = 4) ∧
        rd t F.cm_REJECT_INFO 0 0 = r.info % 2 ^ 64 ∧ MemKept s t ∧
        ∀ m, m ∉ ([F.cm_STEP_SET_FAILED, F.cm_REJECT_INFO, F.cm_COMMITS_FAILED] ++ commitFields).map (·.fid) → FieldKept m s t))

/-! ### Supplies, resets and clocks -/

/-- R367, R368, R369. The supplies: AUX_3V3 starts the auxiliary domain; a good feed lets the rails ramp where nothing
holds them off; PWR_OK ends the ramp; the loss of one of two feeds is recorded, the loss of the last one removes the
rails, and the loss of AUX_3V3 resets every domain. R369, R370. SYS_RESET_N and RESET_KEY: a fall of SYS_RESET_N and
the key 0xA5 reset the main domain and hold it in reset with the rails up; it leaves reset when both let it, and
starts to lock its PLL. -/
def Obligations.SupplyAndReset : Prop :=
  ((∀ s : State, s.stage = .noAux → exec .aux3v3Up s = .next { s with stage := .standby }) ∧
  (∀ (feed : Nat) (s : State), feed < 2 → s.stage ≠ .noAux → Completes (.feedGood feed) s fun t =>
    rdb t (feedOk feed) 0 0 = true ∧ t.stage = s.stage ∧ t.out = s.out ∧
    (t.power.ramping = true ↔ s.power.ramping = true ∨ (s.stage = .standby ∧ s.aux.tripped = false)) ∧
    MemKept s t ∧ FieldsKept [feedOk feed] s t) ∧
  (∀ s : State, s.stage = .standby → s.power.ramping = true → exec .pwrOk s = .next { s with
    stage := .inReset, power := { s.power with ramping := false }, out := s.out ++ [.pin "PWR_OK" true] }) ∧
  (∀ (feed : Nat) (s : State), feed < 2 → rdb s (feedOk feed) 0 0 = true → Completes (.feedLost feed) s fun t =>
    (rdb s (feedOk (1 - feed)) 0 0 = true →
      rdb t (feedOk feed) 0 0 = false ∧ rdb t (feedLostSeen feed) 0 0 = true ∧ t.stage = s.stage ∧
      rd t F.pw_FEED_LOSSES 0 0 = min (rd s F.pw_FEED_LOSSES 0 0 + 1) (fieldMax F.pw_FEED_LOSSES) ∧ MemKept s t ∧
      FieldsKept [feedOk feed, feedLostSeen feed, F.pw_FEED_LOSSES, F.com_SAT_LO, F.com_SAT_HI, F.com_SAT_TBL] s t) ∧
    (rdb s (feedOk (1 - feed)) 0 0 = false → MainReset s t ∧ t.stage = .standby ∧ rdb t (feedOk feed) 0 0 = false ∧
      rdb t F.hi_BUS_MASTER 0 0 = false ∧ t.aux = s.aux ∧ t.power.limit = s.power.limit ∧
      (railsUp s = true → t.out = s.out ++ [.pin "PWR_OK" false]))) ∧
  (∀ s : State, s.stage ≠ .noAux → Completes .aux3v3Removed s fun t =>
    MainReset s t ∧ t.stage = .noAux ∧ t.flds = [] ∧ t.aux = {} ∧ t.power.limit = 4200 ∧
    t.out = s.out ++ (if railsUp s then [.pin "PWR_OK" false] else []) ++
      (if s.aux.tripped then [.pin "THERM_TRIP_N" true] else []))) ∧
  ((∀ s : State, mainRuns s = true → Completes .sysResetNAssert s fun t => MainReset s t ∧ t.stage = .inReset ∧
    t.power.resetHigh = false ∧ t.aux = s.aux ∧ ∀ n ∈ keptFields, FieldKept n s t) ∧
  (∀ s : State, mainRuns s = false →
    exec .sysResetNAssert s = .next { s with power := { s.power with resetHigh := false } }) ∧
  (∀ s : State, s.stage = .inReset → exec (.sysResetNRelease false) s = .next { s with
    stage := if s.power.keyReset then .inReset else .locking, power := { s.power with resetHigh := true } }) ∧
  (∀ s : State, exec (.sysResetNRelease true) s = .next s) ∧
  (∀ (a : Agent) (s : State), agentReaches s a (unitOf 0x04 0) = true → Completes (.resetKey a 0xA5) s fun t => MainReset s t ∧ t.stage = .inReset ∧ t.power.keyReset = true ∧
      t.power.resetHigh = s.power.resetHigh ∧ t.aux = s.aux ∧
      ∀ n ∈ keptFields, FieldKept n s t) ∧
  (∀ (a : Agent) (key : Nat) (s : State), key ≠ 0xA5 ∨ agentReaches s a (unitOf 0x04 0) = false →
    Completes (.resetKey a key) s fun t => t.stage = s.stage ∧ t.power = s.power ∧ t.out = s.out ∧ MemKept s t ∧ FieldsKept [] s t) ∧
  (∀ s : State, exec .resetKeyRelease s = .next { s with
    stage := if s.stage = .inReset ∧ s.power.resetHigh = true then .locking else s.stage
    power := { s.power with keyReset := false } }))

/-- R42, R372, R373. The lock of the root PLL starts the clocks with ALIGN_COUNT and device time at 0, makes the clock
pages ready and runs the mixer self-test, which passes (that it always does is log 144, DEDUCED); a lock that does not
come leaves every page not ready and the power-and-thermal page in FAULT. R303, R335, R336, R373, R385. A block whose
bring-up ends becomes ready (what the command says of it is log 96, DESIGN CHOICE): engines, memory controllers and
the other blocks of their kind at once, blocks that firmware brings up while firmware runs on some control die;
firmware itself with its version, which counts the session over from its newest sound copy where none ran before; the
fault page with DUMP_BASE and the log rings enabled; a drive that meets every condition of R335 with its size, after
the commands that set up its queues, and another one with the first condition it fails as its reason. -/
def Obligations.LockAndBringUp : Prop :=
  ((∀ s : State, s.stage = .locking → Completes .pllLock s fun t => t.stage = .clocked ∧ t.core = 0 ∧ nowNs t = 0 ∧
    (∀ u ∈ [unitOf 0x02 0, unitOf 0x03 0, unitOf 0x04 0], rdU t F.com_READY u 0 = 1) ∧
    rdb t F.he_MIXER_OK 0 0 = true ∧ rdb t F.he_MIXER_FAIL 0 0 = false ∧ MemKept s t ∧
    FieldsKept [F.com_READY, F.com_REASON, F.com_DETAIL, F.he_MIXER_OK, F.he_MIXER_FAIL] s t) ∧
  (∀ s : State, s.stage = .locking → Completes .pllLockTimeout s fun t => t.stage = .unlocked ∧
    rdU t F.com_FAULT (unitOf 0x04 0) 0 = 1 ∧ (∀ u, blockReady t u = false) ∧ MemKept s t ∧ FieldsKept [F.com_FAULT] s t)) ∧
  (∀ (u : Nat) (info : List Nat) (s : State), s.stage = .clocked → (allPages s.variant).contains u = true →
    pageReady s u = false →
    (0x04 < unitPage u → unitPage u ∉ [0x10, 0x11, 0x40, 0x50, 0x52, 0x70] →
      bringUpReason (unitPage u) ≠ 9 ∨ firmwareRuns s = true → Completes (.blockReady u info) s fun t =>
        pageReady t u = true ∧ rdU t F.com_REASON u 0 = 0 ∧ MemKept s t ∧
        FieldsKept [F.com_READY, F.com_REASON, F.com_DETAIL] s t ∧
        ∀ u' i, u' ≠ u → rdU t F.com_READY u' i = rdU s F.com_READY u' i) ∧
    (unitPage u = 0x50 → Completes (.blockReady u info) s fun t =>
        pageReady t u = true ∧ rd t F.cd_FW_VERSION (unitInst u) 0 = info.getD 0 0 % 2 ^ 32 ∧
        rd t F.id_FW_VERSION 0 0 = info.getD 0 0 % 2 ^ 32 ∧
        t.shelf.session = (if firmwareRuns s then s.shelf.session
          else ((newestCopy s.shelf.sessions).map (·.session)).getD 0 + 1) ∧ MemKept s t ∧
        FieldsKept [F.com_READY, F.com_REASON, F.com_DETAIL, F.id_FW_VERSION, F.cd_FW_VERSION] s t) ∧
    (u = unitOf 0x70 0 → firmwareRuns s = true → Completes (.blockReady u info) s fun t =>
        pageReady t u = true ∧ rd t F.fa_DUMP_BASE 0 0 = info.getD 0 0 % 2 ^ F.fa_DUMP_BASE.width ∧
        (∀ l < 4, rdb t F.fa_LOG_EN 0 l = true ∧ rd t F.fa_LOG_BASE 0 l = info.getD (l + 1) 0 % 2 ^ F.fa_LOG_BASE.width) ∧
        MemKept s t) ∧
    (unitPage u = 0x52 → pageReady s (unitOf 0x50 (unitInst u)) = true → rdb s F.sh_DRIVE_FAILED (unitInst u) 0 = false →
      let c := unitInst u
      let v (i : Nat) := info.getD i 0
      let up : Prop := v 0 ≠ 0
      let direct : Prop := v 1 = 0
      let nvme : Prop := v 2 / 65536 = 2 ∧ v 3 ≠ 0
      let space : Prop := v 4 ≠ 0 ∧ (v 5 = 9 ∨ v 5 = 12) ∧ v 6 = 0 ∧ v 7 = 0
      let room : Prop := 4 * 2 ^ 30 + 2 * rd s F.sh_SLOT_BYTES 0 0 ≤ v 8
      Completes (.blockReady u info) s fun t => MemKept s t ∧
        (∀ reason, (reason = 1 ∧ ¬up) ∨ (reason = 2 ∧ up ∧ ¬direct) ∨ (reason = 3 ∧ up ∧ direct ∧ ¬nvme) ∨
            (reason = 4 ∧ up ∧ direct ∧ nvme ∧ ¬space) ∨ (reason = 5 ∧ up ∧ direct ∧ nvme ∧ space ∧ ¬room) →
          pageReady t u = false ∧ rdb t F.sh_DRIVE_READY c 0 = rdb s F.sh_DRIVE_READY c 0 ∧ rd t F.sh_FAIL_REASON c 0 = reason) ∧
        (up → direct → nvme → space → room →
          pageReady t u = true ∧ rdb t F.sh_DRIVE_READY c 0 = true ∧ rd t F.sh_FAIL_REASON c 0 = 0 ∧
          rd t F.sh_CAPACITY c 0 = v 8 % 2 ^ F.sh_CAPACITY.width ∧ rd t F.sh_LBA_SHIFT c 0 = v 5 ∧
          (driveX s c = {} → ∀ o ∈ driveStart, .drive c o ∈ t.out ∧ ∃ ns, (o, ns) ∈ (driveX t c).waiting))))

/-- R371, R384, R387, R388. The first device-fatal error, whether the clocks run or not: its code, page and time are
latched in the fault page and in the fatal summary, FAULT rises on the page and on the fault page, no array group is
ready, a commit in hand and the step-boundary set are discarded, a program dump that was due is skipped, issue stops
and the device withdraws (how it does is log 94, DEDUCED). R368, R384. A rail that leaves regulation as the first
device-fatal error: the fatal summary keeps code 0x6 and the unit, and the rails are removed. -/
def Obligations.FatalErrors : Prop :=
  (∀ (s : State) (mc c : Nat), mainRuns s = true → mc < s.variant.stacks → c < 4 → rdb s F.fa_DEVICE_FATAL 0 0 = false →
    ∀ (i : Instr) (code page inst : Nat), (i, code, page, inst) ∈
      ([(.memoryStackLost mc, 2, 0x30, mc), (.refclkFault, 3, 0x03, 0), (.rootPllLostLock, 4, 0x03, 0),
        (.watchdogExpiry c, 5, 0x50, c)] : List (Instr × Nat × Nat × Nat)) → (code = 4 → s.stage = .clocked) →
    Completes i s fun t =>
      rdb t F.fa_DEVICE_FATAL 0 0 = true ∧ rd t F.fa_FATAL_CODE 0 0 = code ∧ rd t F.fa_FATAL_TYPE 0 0 = page ∧
      rd t F.fa_FATAL_INST 0 0 = inst ∧ rd t F.fa_FATAL_TIME 0 0 = nowNs s ∧
      rdU t F.com_FAULT (unitOf page inst) 0 = 1 ∧ rdU t F.com_FAULT (unitOf 0x70 0) 0 = 1 ∧
      (∀ g < 256, pageReady t (groupUnit g) = false) ∧
      rdb t F.rs_WITHDRAWN 0 0 = true ∧ t.stopAt.isSome ∧ t.programDied = true ∧ t.job.silent = true ∧
      t.commit.snapshot = [] ∧ t.commit.stepSet = [] ∧ t.fault.fatalDue = true ∧ t.fault.programDue = false ∧
      (s.fault.programDue = true →
        rd t F.fa_DUMPS_SKIPPED 0 0 = min (rd s F.fa_DUMPS_SKIPPED 0 0 + 1) (fieldMax F.fa_DUMPS_SKIPPED)) ∧
      t.aux.fatal = true ∧ t.aux.code = code ∧ t.aux.type = page ∧ t.aux.inst = inst ∧ t.aux.time = nowNs s ∧
      MemKept s t ∧ SequencersKept s t ∧
      FieldsKept [F.com_READY, F.com_FAULT, F.com_REASON, F.com_DETAIL, F.rs_WITHDRAWN, F.rs_WITHDREW_SEEN, F.cm_STATE,
        F.cm_MEMBERSHIP, F.cm_STEP_SET_HELD, F.com_SAT_LO, F.com_SAT_HI, F.com_SAT_TBL, F.fa_DUMPS_SKIPPED, F.fa_DEVICE_FATAL, F.fa_FATAL_CODE, F.fa_FATAL_TIME,
        F.fa_FATAL_TYPE, F.fa_FATAL_INST] s t) ∧
  (∀ (page inst : Nat) (s : State), railsUp s = true → rdb s F.fa_DEVICE_FATAL 0 0 = false →
    Completes (.railFault page inst) s fun t =>
      MainReset s t ∧ t.stage = .standby ∧ t.aux.fatal = true ∧ t.aux.code = 6 ∧ t.aux.type = page ∧ t.aux.inst = inst ∧
      t.aux.time = nowNs s ∧ t.aux.dumpReady = false ∧ .pin "PWR_OK" false ∈ t.out)

/-! ### Power and temperature -/

/-- R96, R338, R369. An orderly power-down: with no ready drive OFF_READY rises at once, else firmware is asked and
writes the ledgers of every powered array die whose ledgers it holds; OFF_READY rises once the drives have done
everything, their flush included. LEDGER_SAVE writes the ledgers at other times. (What is done without a drive is log
34, and how a copy is held log 158, DEDUCED.) -/
def Obligations.OrderlyOff : Prop :=
  (∀ s : State, livePage s (unitOf 0x04 0) = true → readyDrives s = [] → Completes .orderlyOff s fun t =>
    rdb t F.pw_OFF_READY 0 0 = true ∧ t.ledger = s.ledger ∧ MemKept s t ∧ FieldsKept [F.pw_OFF_READY] s t) ∧
  (∀ s : State, livePage s (unitOf 0x04 0) = true → readyDrives s ≠ [] → Completes .orderlyOff s fun t =>
    t.power.offAsked = true ∧ LedgersSaved (fun d => !s.dark.contains d && pageReady s (unitOf 0x10 d)) s t ∧
    MemKept s t ∧ FieldsKept [] s t) ∧
  (∀ s : State, s.power.offAsked = true → drivesIdle s = true → Completes .offReady s fun t =>
    rdb t F.pw_OFF_READY 0 0 = true ∧ t.power.offAsked = false ∧ t.ledger = s.ledger ∧ t.shelf = s.shelf ∧
    MemKept s t ∧ FieldsKept [F.pw_OFF_READY] s t) ∧
  (∀ s : State, s.power.offAsked = true → drivesIdle s = false → exec .offReady s = .next s) ∧
  (∀ s : State, readyDrives s ≠ [] → Completes .ledgerSave s fun t =>
    LedgersSaved (fun d => !s.dark.contains d && pageReady s (unitOf 0x10 d)) s t ∧
    (∀ c ∈ readyDrives s, ∃ x ∈ t.shelf.ledgers, x.drive = c ∧ x.copy = s.shelf.copy ∧ x.ledger = t.ledger ∧ x.sound = false) ∧
    t.shelf.copy = 1 - s.shelf.copy ∧ MemKept s t ∧ FieldsKept [] s t)

/-- R374. A power sample joins those of the last millisecond; the page shows the mean of up to 100 samples of the
package input and of each domain, downwards, and the feeds as they were measured, from when the rails are up. R374,
R375. An evaluation of the power loop at the next package frame boundary: a mean above the limit gives the first die
of least duty one throttled frame more, a mean below it by the hysteresis takes one from the last die of greatest
duty, and a mean between leaves them, all within DUTY_MAX; CAP_UNMET_SEEN follows 10 ms above the limit at full duty.
R376. A reading of the 48 sensors with none at its trip point: TEMP holds each reading, TEMP_MAX the highest since its
clear, which is this one where none came before; with one at its trip point the rails are removed, THERM_TRIP_N falls
and the summary holds code 0x7 (log 105, DEDUCED). -/
def Obligations.PowerAndTemperature : Prop :=
  (∀ (input : Nat) (feeds domains : List Nat) (s : State), railsUp s = true →
    Completes (.powerSample input feeds domains) s fun t =>
      let ss := s.power.samples ++ [input :: domains]
      t.power.samples = ss.drop (ss.length - 100) ∧
      (∀ f k, (f, k) ∈ ([(F.pw_PKG_POWER, 0), (F.pw_DIGITAL_W, 1), (F.pw_ARRAY_W, 2), (F.pw_MEMORY_W, 3), (F.pw_IO_W, 4),
          (F.pw_CONTROL_W, 5), (F.pw_CONVERSION_W, 6)] : List (Field × Nat)) →
        rd t f 0 0 = ((t.power.samples.map fun l => l.getD k 0).sum / t.power.samples.length) % 2 ^ f.width) ∧
      (∀ f k, (f, k) ∈ ([(F.pw_FEED_A_MV, 0), (F.pw_FEED_A_MA, 1), (F.pw_FEED_B_MV, 2), (F.pw_FEED_B_MA, 3)] :
          List (Field × Nat)) → rd t f 0 0 = feeds.getD k 0 % 2 ^ f.width) ∧
      MemKept s t ∧
      FieldsKept [F.pw_PKG_POWER, F.pw_FEED_A_MV, F.pw_FEED_A_MA, F.pw_FEED_B_MV, F.pw_FEED_B_MA, F.pw_DIGITAL_W,
        F.pw_ARRAY_W, F.pw_MEMORY_W, F.pw_IO_W, F.pw_CONTROL_W, F.pw_CONVERSION_W] s t) ∧
  ((∀ s : State, s.stage = .clocked → Completes .capEval s fun t =>
    ∃ n, t.core = 16384 * n ∧ s.core ≤ t.core ∧ t.core < s.core + 2 * 16384 ∧ t.power.frame = some n ∧
    (let p := rd s F.pw_PKG_POWER 0 0
     let lim := 10 * effectiveLimit s
     let duties := s.power.capDuty.map (min (dutyMax s))
     (lim < p → t.power.capDuty = raiseDuty (dutyMax s) duties) ∧
     (p ≤ lim → lim * (4096 - rd s F.pw_CAP_HYST 0 0) ≤ p * 4096 → t.power.capDuty = duties) ∧
     (p ≤ lim → p * 4096 < lim * (4096 - rd s F.pw_CAP_HYST 0 0) → t.power.capDuty = lowerDuty duties)) ∧
    MemKept s t ∧ SequencersKept s t ∧
    FieldsKept [F.pw_THROTTLED_FRAMES, F.pw_CAP_FRAMES, F.pw_THERM_FRAMES, F.com_SAT_LO, F.com_SAT_HI, F.com_SAT_TBL] s t) ∧
  (∀ (s : State) (t0 : Nat), s.power.unmet = some t0 → Completes .capUnmet s fun t =>
    rdb t F.pw_CAP_UNMET_SEEN 0 0 = true ∧ s.core ≤ t.core ∧ MemKept s t ∧ FieldsKept [F.pw_CAP_UNMET_SEEN] s t)) ∧
  (∀ (temps : List Int) (s : State), railsUp s = true → temps.length = 48 → (∀ x ∈ temps, -32768 ≤ x ∧ x < 32768) →
    Completes (.tempSample temps) s fun t =>
      ((∀ k < 48, temps.getD k 0 < 8 * (thermLimits s k).2.2) → t.stage = s.stage ∧
        (∀ k < 48, tempOf t k = temps.getD k 0 ∧
          signedOf (rd t F.pw_TEMP_MAX 0 k) 16 = if s.power.tempSeen.contains k
            then max (temps.getD k 0) (signedOf (rd s F.pw_TEMP_MAX 0 k) 16) else temps.getD k 0) ∧
        ((∃ k < 48, 8 * (thermLimits s k).1 ≤ temps.getD k 0) → rdb t F.pw_THERM_WARN_SEEN 0 0 = true) ∧
        MemKept s t ∧ FieldsKept [F.pw_TEMP, F.pw_TEMP_MAX, F.pw_THERM_WARN_SEEN, F.pw_ARRAY_HOT_MS, F.com_SAT_LO,
          F.com_SAT_HI, F.com_SAT_TBL] s t) ∧
      ((∃ k < 48, 8 * (thermLimits s k).2.2 ≤ temps.getD k 0) → MainReset s t ∧ t.stage = .standby ∧
        t.aux.tripped = true ∧ t.aux.fatal = true ∧ t.aux.code = 7 ∧ .pin "THERM_TRIP_N" false ∈ t.out))

/-- R340, R341. The SMBus target: without AUX_3V3 no command is answered; IDENT and STATUS are answered from AUX_3V3
alone, the others are not acknowledged while the rails are down; a POWER_LIMIT write with a good PEC and a value of
1,500 W to 4,200 W sets the limit. A command code that R341 does not list is not acknowledged (that this command
stands for it is log 159, DESIGN CHOICE). The bits of STATUS are the model's reading (log 103). Nothing but the answer
and the limit changes. -/
def Obligations.SmbusCommands : Prop :=
  (∀ (s : State) (v : SmbusAccess) (ok : Bool), s.stage = .noAux →
    ∀ i ∈ ([.ident, .status, .temps, .power, .powerLimit v ok, .fatalSummary] : List Instr), exec i s = .next s) ∧
  (∀ s : State, s.stage ≠ .noAux →
    exec .ident s = .next { s with out := s.out ++ [.smbus (natLe 2 (rd s F.id_VENDOR_ID 0 0) ++
      natLe 2 (rd s F.id_DEVICE_ID 0 0) ++ natLe 1 (rd s F.id_STEP_LETTER 0 0) ++ natLe 1 (rd s F.id_STEP_DIGIT 0 0) ++
      natLe 1 s.variant.code ++ natLe 1 0 ++ natLe 8 (rd s F.id_SERIAL 0 0))] } ∧
    exec .status s = .next { s with out := s.out ++ [.smbus (natLe 2 (b2n (powered s) + 2 * b2n (allReady s) +
      4 * b2n (anyFault s) + 8 * rd s F.fa_DEVICE_FATAL 0 0 + 16 * rd s F.fa_DUMP_READY 0 0 + 32 * b2n (capActive s) +
      64 * b2n (thermWarn s)))] }) ∧
  (∀ (s : State) (v : Nat) (ok : Bool), s.stage = .standby →
    ∀ i ∈ ([.temps, .power, .powerLimit .read ok, .powerLimit (.write v) ok, .fatalSummary] : List Instr), exec i s = .next { s with out := s.out ++ [.smbusNack] }) ∧
  (∀ s : State, railsUp s = true →
    exec .temps s = .next { s with out := s.out ++ [.smbus (tempBytes s)] } ∧ (tempBytes s).length = 8 ∧
    exec .power s = .next { s with out := s.out ++ [.smbus (natLe 2 (rd s F.pw_PKG_POWER 0 0) ++
      natLe 2 (rd s F.pw_FEED_A_MV 0 0) ++ natLe 2 (rd s F.pw_FEED_A_MA 0 0) ++ natLe 2 (rd s F.pw_FEED_B_MV 0 0) ++
      natLe 2 (rd s F.pw_FEED_B_MA 0 0))] } ∧
    exec .fatalSummary s = .next { s with out := s.out ++ [.smbus (natLe 1 (b2n s.aux.fatal + 2 * b2n s.aux.dumpReady +
      4 * b2n s.aux.onShelf) ++ natLe 1 s.aux.type ++ natLe 2 s.aux.inst ++ natLe 8 s.aux.time ++ natLe 8 s.aux.step ++
      natLe 4 s.aux.code ++ natLe 8 0)] } ∧
    ∀ ok, exec (.powerLimit .read ok) s = .next { s with out := s.out ++ [.smbus (natLe 2 s.power.limit)] }) ∧
  (∀ (v : Nat) (s : State), railsUp s = true →
    (1500 ≤ v → v ≤ 4200 →
      exec (.powerLimit (.write v) true) s = .next { s with power := { s.power with limit := v } }) ∧
    (v < 1500 ∨ 4200 < v →
      exec (.powerLimit (.write v) true) s = .next { s with out := s.out ++ [.smbusNack] }) ∧
    exec (.powerLimit (.write v) false) s = .next s) ∧
  (∀ (code : Nat) (ok : Bool) (s : State), s.stage ≠ .noAux → code ∉ [0x00, 0x01, 0x10, 0x11, 0x20, 0x30] →
    exec (.powerLimit (.unlisted code) ok) s = .next { s with out := s.out ++ [.smbusNack] })

/-! ### The host interface -/

/-- R322, R323, R324, R342, R370. Resets and power states of the host endpoint: a function-level reset (log 102,
PRESUMED), entry to D3hot and a fall of PERST_N disable every ring, set both indices of each and WIN_BASE to 0 and
leave the rest of the device alone; PERST_N also clears Bus Master Enable and brings the function back to D0. Where it
rises on a powered part the function presents its configuration space: its identity, two 64-bit BARs of 64 MiB and,
prefetchable, 64 GiB, no expansion ROM, the listed capabilities with no power state that raises PME, and no interrupt
pin, interrupts disabled (its class code is log 143, PRESUMED). R327, R328. A doorbell of an enabled ring takes a
value that does not move the index backwards and leaves the ring no fuller than it is; any other value changes no
index, latches DOORBELL_BAD_SEEN and is counted. Enabling a ring sets both its indices to 0, disabling it keeps them.
-/
def Obligations.HostEndpointAndRings : Prop :=
  ((∀ (i : Instr) (s : State), i ∈ ([.functionLevelReset, .d3hot, .perstNAssert] : List Instr) →
    i = .perstNAssert ∨ endpointUp s = true → Completes i s fun t =>
      (∀ r < 36, rdb t F.hi_RING_ENABLE 0 r = false ∧ rd t F.hi_HOST_INDEX 0 r = 0 ∧ rd t F.hi_PART_INDEX 0 r = 0) ∧
      rd t F.hi_WIN_BASE 0 0 = 0 ∧ t.stage = s.stage ∧
      (i = .functionLevelReset → t.d3hot = s.d3hot ∧ t.perst = s.perst) ∧
      (i = .d3hot → t.d3hot = true ∧ t.perst = s.perst) ∧
      (i = .perstNAssert → t.d3hot = false ∧ t.perst = true ∧ rdb t F.hi_BUS_MASTER 0 0 = false) ∧
      (i ≠ .perstNAssert → rd t F.hi_BUS_MASTER 0 0 = rd s F.hi_BUS_MASTER 0 0) ∧ MemKept s t ∧
      FieldsKept [F.hi_RING_ENABLE, F.hi_HOST_INDEX, F.hi_PART_INDEX, F.hi_WIN_BASE, F.hi_BUS_MASTER] s t) ∧
  (∀ s : State, railsUp s = true → s.perst = true → exec .perstNRelease s = .next { s with
    perst := false
    out := s.out ++ [.config {
      vendor := rd s F.id_VENDOR_ID 0 0, device := rd s F.id_DEVICE_ID 0 0, classCode := 0x120000
      bars := [⟨0, true, false, 64 * 2 ^ 20⟩, ⟨2, true, true, 64 * 2 ^ 30⟩], expansionRom := false
      capabilities := [.powerManagement 0, .pciExpress, .advancedErrorReporting, .deviceSerialNumber (rd s F.id_SERIAL 0 0),
        .dataLinkFeature, .physicalLayer16, .physicalLayer32, .physicalLayer64, .laneMargining]
      interruptPin := 0, interruptDisable := true, busMaster := rdb s F.hi_BUS_MASTER 0 0 }] }) ∧
  (∀ s : State, railsUp s = false ∨ s.perst = false → exec .perstNRelease s = .next { s with perst := false }) ∧
  (∀ s : State, endpointUp s = true → exec .d0Entry s = .next { s with d3hot := false }) ∧
  (∀ (v : Bool) (s : State), endpointUp s = true → Completes (.busMasterEnable v) s fun t =>
    rdb t F.hi_BUS_MASTER 0 0 = v ∧ MemKept s t ∧ FieldsKept [F.hi_BUS_MASTER] s t)) ∧
  (∀ (r : Nat) (s : State), r < 36 → hostRegs s = true →
    (∀ v, Completes (.hostIndex r v) s fun t =>
      let old := rd s F.hi_HOST_INDEX 0 r
      let part := rd s F.hi_PART_INDEX 0 r
      let ahead := (v % 2 ^ 32 + 2 ^ 32 - old) % 2 ^ 32
      let good : Prop := rdb s F.hi_RING_ENABLE 0 r = true ∧
        if 4 ≤ r ∧ r < 20 then ahead < 2 ^ 31 ∧ (v % 2 ^ 32 + 2 ^ 32 - part) % 2 ^ 32 ≤ hostRingSize s r
        else ahead ≤ (part + 2 ^ 32 - old) % 2 ^ 32
      (good → rd t F.hi_HOST_INDEX 0 r = v % 2 ^ 32 ∧ (∀ r', r' ≠ r → rd t F.hi_HOST_INDEX 0 r' = rd s F.hi_HOST_INDEX 0 r') ∧
        FieldsKept [F.hi_HOST_INDEX] s t) ∧
      (¬good → rdb t F.hi_DOORBELL_BAD_SEEN 0 0 = true ∧
        rd t F.hi_DOORBELL_BAD 0 0 = min (rd s F.hi_DOORBELL_BAD 0 0 + 1) (fieldMax F.hi_DOORBELL_BAD) ∧
        FieldsKept [F.hi_DOORBELL_BAD, F.hi_DOORBELL_BAD_SEEN, F.com_SAT_LO, F.com_SAT_HI, F.com_SAT_TBL] s t) ∧
      MemKept s t) ∧
    (∀ v : Bool, Completes (.ringEnable r v) s fun t =>
      rdb t F.hi_RING_ENABLE 0 r = v ∧
      (v = true → rdb s F.hi_RING_ENABLE 0 r = false → rd t F.hi_HOST_INDEX 0 r = 0 ∧ rd t F.hi_PART_INDEX 0 r = 0) ∧
      (v = false ∨ rdb s F.hi_RING_ENABLE 0 r = true → FieldsKept [F.hi_RING_ENABLE] s t) ∧
      (∀ r', r' ≠ r → rd t F.hi_RING_ENABLE 0 r' = rd s F.hi_RING_ENABLE 0 r' ∧
        rd t F.hi_HOST_INDEX 0 r' = rd s F.hi_HOST_INDEX 0 r' ∧ rd t F.hi_PART_INDEX 0 r' = rd s F.hi_PART_INDEX 0 r') ∧
      MemKept s t ∧ FieldsKept [F.hi_RING_ENABLE, F.hi_HOST_INDEX, F.hi_PART_INDEX] s t))

/-- R335, R336, R337, R338, R343. The drives: a command of a drive that succeeds leaves its queue, adds the bytes it
moved, and shows the SMART data it asked for (which command completes is log 110, DEDUCED); what can be issued then
leaves, so that no more than 64 wait (log 145, DEDUCED). Once no write and no flush is left, the drive's copies of the
ledgers are whole (log 158, DEDUCED). A transfer is cut into commands of whole data blocks of at most 1 MiB. RESCAN
drops the drive and clears its failure. -/
def Obligations.DriveCommands : Prop :=
  (∀ (c : Nat) (o : DriveCmd) (ns k crit used : Nat) (s : State), c < 4 →
    rdb s F.sh_DRIVE_READY c 0 = true → (driveX s c).waiting[k]? = some (o, ns) →
    let rest := (driveX s c).waiting.eraseIdx k
    let go := issuable { driveX s c with waiting := rest }
    Completes (.nvmeCompletion c true k crit used) s fun t =>
      (∀ a n, o = .write a n → rd t F.sh_BYTES_WRITTEN c 0 = (rd s F.sh_BYTES_WRITTEN c 0 + n) % 2 ^ F.sh_BYTES_WRITTEN.width ∧
        FieldsKept [F.sh_BYTES_WRITTEN] s t) ∧
      (∀ a n, o = .read a n → rd t F.sh_BYTES_READ c 0 = (rd s F.sh_BYTES_READ c 0 + n) % 2 ^ F.sh_BYTES_READ.width ∧
        FieldsKept [F.sh_BYTES_READ] s t) ∧
      (o = .getLog 2 → rd t F.sh_CRIT_WARNING c 0 = crit % 2 ^ F.sh_CRIT_WARNING.width ∧
        rd t F.sh_PERCENT_USED c 0 = used % 2 ^ F.sh_PERCENT_USED.width ∧
        FieldsKept [F.sh_CRIT_WARNING, F.sh_PERCENT_USED] s t) ∧
      (driveSettled t c (ledgerPlace 0) (ledgerPlace 2) = true → ∀ x ∈ t.shelf.ledgers, x.drive = c → x.sound = true) ∧
      driveX t c = ⟨rest ++ go.map (fun o => (o, nowNs s)), (driveX s c).todo.drop go.length⟩ ∧
      t.out = s.out ++ go.map (.drive c) ∧ (rest.length ≤ 64 → (driveX t c).waiting.length ≤ 64) ∧
      (∀ d, d ≠ c → driveX t d = driveX s d) ∧ MemKept s t ∧
      FieldsKept [F.sh_BYTES_WRITTEN, F.sh_BYTES_READ, F.sh_CRIT_WARNING, F.sh_PERCENT_USED] s t) ∧
  (∀ off n : Nat, ∀ o ∈ transfer .write off n ++ transfer .read off n, ∃ a len, (o = .write a len ∨ o = .read a len) ∧
    0 < len ∧ len ≤ 2 ^ 20 ∧ len % 4096 = 0) ∧
  (∀ (c : Nat) (s : State), livePage s (unitOf 0x52 c) = true → Completes (.rescan c) s fun t =>
      rdb t F.sh_DRIVE_FAILED c 0 = false ∧ rd t F.sh_FAIL_REASON c 0 = 0 ∧ rdb t F.sh_DRIVE_READY c 0 = false ∧
      pageReady t (unitOf 0x52 c) = false ∧ driveX t c = {} ∧ MemKept s t ∧ SequencersKept s t)

/-- R337, R338. A drive in use of which a command completes with a status other than success, or is not completed
within NVME_TIMEOUT, fails: it is marked failed with the reason, DRIVE_READY falls, DRIVE_FAIL_SEEN is latched, the
failure is counted, no other drive falls, and a shelf write under way that is striped over it fails with
SHELF_FAIL_SEEN; one on other drives goes on. The images stay; a copy of the ledgers that was not yet whole there is
lost. A failed drive is used no more: no bring-up makes it ready and no command of it counts, until RESCAN clears the
failure. -/
def Obligations.DriveFails : Prop :=
  ∀ (c : Nat) (s : State), c < 4 →
    (∀ (i : Instr) (count : Field) (reason : Nat), (∃ k crit used, k < (driveX s c).waiting.length ∧
          (i, count, reason) = (.nvmeCompletion c false k crit used, F.sh_CMD_ERRORS, 6)) ∨
        (i, count, reason) = (.nvmeTimeout c, F.sh_TIMEOUTS, 7) → rdb s F.sh_DRIVE_READY c 0 = true → (driveX s c).waiting ≠ [] →
      Completes i s fun t =>
        rd t count c 0 = min (rd s count c 0 + 1) (fieldMax count) ∧ rdb t F.sh_DRIVE_FAILED c 0 = true ∧
        rdb t F.sh_DRIVE_FAIL_SEEN c 0 = true ∧ rd t F.sh_FAIL_REASON c 0 = reason ∧
        rdb t F.sh_DRIVE_READY c 0 = false ∧ pageReady t (unitOf 0x52 c) = false ∧ driveX t c = {} ∧
        (∀ d < 4, d ≠ c → rdb t F.sh_DRIVE_READY d 0 = rdb s F.sh_DRIVE_READY d 0) ∧
        (s.job.flashBusy = true → c ∈ s.job.slotMask → t.job.flashBusy = false ∧ rdb t F.rs_SHELF_FAIL_SEEN 0 0 = true) ∧
        (c ∉ s.job.slotMask → t.job.flashBusy = s.job.flashBusy ∧ rdb t F.rs_SHELF_FAIL_SEEN 0 0 = rdb s F.rs_SHELF_FAIL_SEEN 0 0) ∧
        t.shelf = (dropTorn (· == c) s).shelf ∧ t.shelf.images = s.shelf.images ∧ s.core ≤ t.core ∧ MemKept s t ∧ SequencersKept s t) ∧
    (rdb s F.sh_DRIVE_FAILED c 0 = true → rdb s F.sh_DRIVE_READY c 0 = false →
      (∀ info, exec (.blockReady (unitOf 0x52 c) info) s = .next s) ∧
      (∀ ok k crit used, exec (.nvmeCompletion c ok k crit used) s = .next s) ∧ exec (.nvmeTimeout c) s = .next s ∧
      (livePage s (unitOf 0x52 c) = true → Completes (.rescan c) s fun t => rdb t F.sh_DRIVE_FAILED c 0 = false))

/-- R347, R348, R349, R355, R357, R358. A register write by an agent that reaches the registers, in 8 bytes or as a
low half and then the high half of the same register. A low half alone changes nothing but the page's latch. What a
whole word does is said for a register with one field: a read-only field stays, a read-write field without an effect
of its own takes its bits, a staged field takes them as its staged value alone, unless another agent holds the claim,
a value that the field's table does not allow is ignored; where EXPERT_EN is 0, a write that would change an expert
field changes nothing but EXPERT_DENIED. In a register of read-only, counting and W1C fields each W1C field is cleared
by a 1 and every other field stays. -/
def Obligations.RegisterWrites : Prop :=
  ∀ (a : Agent) (addr width value : Nat) (s : State), s.stage = .clocked → a = .firmware ∨ hostUp s = true →
    goodAccess s addr width = true →
    let off := addr % 4096 / 8 * 8
    let whole : Prop := width = 8 ∨ (addr % 8 = 4 ∧ (latchOf s addr).writeOff = some off)
    let w := if width = 8 then value % 2 ^ 64 else (latchOf s addr).writeLo + (value % 2 ^ 32) * 2 ^ 32
    (width = 4 → addr % 8 = 0 → Completes (.registerWrite a addr width value) s fun t =>
      (latchOf t addr).writeOff = some off ∧ (latchOf t addr).writeLo = value % 2 ^ 32 ∧ t.flds = s.flds ∧ t.stg = s.stg ∧
      MemKept s t) ∧
    (∀ (u : Nat) (x : Slot), whole → pageAt s.variant addr = some u → slotsAt s u off = [x] →
      elsewhere x.f (unitInst u) = false →
      let v := w / 2 ^ x.bit % 2 ^ x.f.width
      Completes (.registerWrite a addr width value) s fun t =>
        ((x.f.acc = .ro ∨ x.f.acc = .sat) → (a = .host ∨ firmwareField x.f = false) → t.flds = s.flds ∧ t.stg = s.stg ∧ MemKept s t) ∧
        (x.f.acc = .rw → expertField x.f = false → conditional x.f = false → expertCode x.f v = false →
          valueAllowed x.f v = true →
          x.f.fid ∉ [F.hi_RING_BASE, F.hi_RING_SIZE, F.hi_RING_ENABLE, F.hi_HOST_INDEX, F.ck_STEP_EN, F.ck_PTP_PORT,
            F.ck_PTP_ROLE, F.pt_ENABLE, F.ag_LOAD_HOLD, F.ad_SLEEP, F.ag_PROG_COUNT, F.ag_LAST_STEP, F.ad_PRESET, F.ad_LIFE_BUDGET,
            F.ad_RETIRE_LEVEL, F.sq_QUEUE_SEL].map (·.fid) →
          rdU t x.f x.unit x.idx = v ∧ t.stg = s.stg ∧ MemKept s t ∧ FieldsKept [x.f] s t) ∧
        (x.f.acc = .rw → expertField x.f = true → rdU s F.com_EXPERT_EN u 0 = 0 → v ≠ rdU s x.f x.unit x.idx →
          rdU t F.com_EXPERT_DENIED u 0 = 1 ∧ t.stg = s.stg ∧ MemKept s t ∧ FieldsKept [F.com_EXPERT_DENIED] s t) ∧
        (x.f.acc = .rw → valueAllowed x.f v = false → rdU s F.com_EXPERT_EN u 0 = 1 → t.flds = s.flds ∧ t.stg = s.stg ∧ MemKept s t) ∧
        (x.f.acc = .st → claimOther s a = false → stageAllowed x.f v = true →
          stgU t x.f x.unit x.idx = v ∧ MemKept s t ∧ FieldsKept [F.ag_STG_VALID] s t ∧
          (x.f.fid ∉ [F.ag_ROW_GAIN_STG, F.ag_OUTLIER_ROW, F.ag_OUTLIER_VALID].map (·.fid) → t.flds = s.flds)) ∧
        (x.f.acc = .st → claimOther s a = false → stageAllowed x.f v = false → t.stg = s.stg ∧ t.flds = s.flds ∧ MemKept s t) ∧
        (x.f.acc = .st → claimOther s a = true → t.stg = s.stg ∧ MemKept s t ∧
          rd t F.cm_STAGED_WRITES_DROPPED 0 0 =
            min (rd s F.cm_STAGED_WRITES_DROPPED 0 0 + 1) (fieldMax F.cm_STAGED_WRITES_DROPPED) ∧
          FieldsKept [F.cm_STAGED_WRITES_DROPPED, F.com_SAT_LO, F.com_SAT_HI, F.com_SAT_TBL] s t)) ∧
    (∀ (u : Nat) (x : Slot), whole → pageAt s.variant addr = some u → x ∈ slotsAt s u off → x.f.acc = .w1c →
      elsewhere x.f (unitInst u) = false →
      (∀ y ∈ slotsAt s u off, (y.f.acc = .ro ∨ y.f.acc = .sat ∨ y.f.acc = .w1c) ∧ (a = .host ∨ firmwareField y.f = false) ∧
        (y.f.fid = x.f.fid → y = x)) →
      Completes (.registerWrite a addr width value) s fun t =>
        rdU t x.f x.unit x.idx = (if w / 2 ^ x.bit % 2 ^ x.f.width = 1 then 0 else rdU s x.f x.unit x.idx) ∧ t.stg = s.stg ∧
        MemKept s t ∧ FieldsKept (((slotsAt s u off).map (·.f)).filter fun f => decide (f.acc = .w1c)) s t)

/-- R147, R223, R346, R352, R353, R355. The page-wide writes: CNT_CLEAR sets every saturating count of the page, in
every window, and its SAT bits to 0 and leaves those of other pages; EXPERT_RESTORE brings its expert tuning fields,
the fields that other rules make conditional on EXPERT_EN, and the basic fields that hold an expert encoding to their
reset values, leaves every other basic field, and on an array-die page bypasses the columns that this leaves no write
budget; LARDER_FLUSH with EXPERT_EN = 1 clears every valid bit of a row engine's larder and no other's. Memory and the
sequencers stay. (On the query endpoint page all endpoints are cleared: log 77, DEDUCED.) -/
def Obligations.PageClears : Prop :=
  ∀ (u : Nat) (s : State), livePage s u = true →
    (Completes (.cntClear u) s fun t =>
      (∀ f ∈ allFields, f.acc = .sat → ∀ u' i, rdU t f u' i =
        if onPage s u ⟨f.fid, u', i⟩ then resetVal s.variant f u' i else rdU s f u' i) ∧
      (∀ f ∈ [F.com_SAT_LO, F.com_SAT_HI, F.com_SAT_TBL], rdU t f u 0 = 0) ∧
      (∀ f ∈ allFields, f.acc = .rw ∨ f.acc = .st → ∀ u' i, rdU t f u' i = rdU s f u' i) ∧
      t.stg = s.stg ∧ MemKept s t ∧ SequencersKept s t) ∧
    (Completes (.expertRestore u) s fun t =>
      (∀ f ∈ allFields, f.acc = .rw → f.fid ≠ F.ag_PROG_COUNT.fid → ∀ i,
        rdU t f u i = if expertField f || conditional f || expertCode f (rdU s f u i) then resetVal s.variant f u i else rdU s f u i) ∧
      (unitPage u ≠ 0x10 → (∀ f ∈ allFields, f.acc ≠ .rw → ∀ i, rdU t f u i = rdU s f u i) ∧
        ∀ (f : Field) (u' i : Nat), u' ≠ u → rdU t f u' i = rdU s f u' i) ∧
      (unitPage u = 0x10 → ∀ f ∈ allFields, f.fid ∉ [F.ag_PERMANENT, F.ag_IN_BYPASS, F.ag_WRITE_STATE, F.ag_PROG_COUNT, F.ag_QUEUE_DEPTH,
          F.ag_DRIFT_MAX, F.com_READY, F.com_REASON, F.com_DETAIL].map (·.fid) →
        ∀ u' i, f.acc ≠ .rw ∨ u' ≠ u → rdU t f u' i = rdU s f u' i) ∧
      t.stg = s.stg ∧ MemKept s t ∧ SequencersKept s t) ∧
    (∀ inst, u = unitOf 0x23 inst → rdU s F.com_EXPERT_EN u 0 = 1 → Completes (.larderFlush inst) s fun t =>
      (∀ i, rdU t F.re_TAG_VALID u i = 0) ∧ (∀ u' i, u' ≠ u → rdU t F.re_TAG_VALID u' i = rdU s F.re_TAG_VALID u' i) ∧
      MemKept s t ∧ FieldsKept [F.re_TAG_VALID] s t)

/-- R325, R348, R370. A read of BAR0: a good 8-byte read answers the register, a read of a low half answers it and
captures the high half, which the read of that high half then answers; a bad access and a page in reset answer all
ones. Every access that the page answers ends what its latch held. R326, R381, R382. An access through BAR2 that the
memory stacks and view windows back, and that meets no poisoned word and no page beyond a view: a read answers the
bytes, a write stores them and leaves every other byte; one that a byte is not backed for answers all ones, stores
nothing and is counted. -/
def Obligations.HostAccesses : Prop :=
  (∀ (addr width : Nat) (s : State), hostUp s = true →
    (pageReadable s addr = true → goodAccess s addr width = true →
      let off := addr % 4096 / 8 * 8
      let w := (bar0Word s addr).getD 0
      Completes (.bar0HalfRead addr width) s fun t =>
        (width = 8 → t.out = s.out ++ [.readData w 8] ∧ latchOf t addr = {}) ∧
        (width = 4 → addr % 8 = 0 → t.out = s.out ++ [.readData (w % 2 ^ 32) 4] ∧
          (latchOf t addr).readOff = some off ∧ (latchOf t addr).readHi = w / 2 ^ 32) ∧
        (width = 4 → addr % 8 = 4 → (latchOf s addr).readOff = some off →
          t.out = s.out ++ [.readData (latchOf s addr).readHi 4] ∧ (latchOf t addr).readOff = none) ∧
        MemKept s t ∧ SequencersKept s t ∧ FieldsKept [F.ck_TIME_NS, F.ck_TIME_FRAC, F.ck_ALIGN_AT_TIME] s t) ∧
    (pageReadable s addr = false → exec (.bar0HalfRead addr width) s = .next { s with
      out := s.out ++ [.readData (2 ^ (8 * width) - 1) width] }) ∧
    (pageReadable s addr = true → goodAccess s addr width = false → Completes (.bar0HalfRead addr width) s fun t =>
      t.out = s.out ++ [.readData (2 ^ (8 * width) - 1) width] ∧ latchOf t addr = {} ∧
      rd t F.hi_BAR0_BAD_ACCESS 0 0 = min (rd s F.hi_BAR0_BAD_ACCESS 0 0 + 1) (fieldMax F.hi_BAR0_BAD_ACCESS) ∧ MemKept s t ∧
      FieldsKept [F.hi_BAR0_BAD_ACCESS, F.com_SAT_LO, F.com_SAT_HI, F.com_SAT_TBL] s t)) ∧
  (∀ (offset width : Nat) (s : State), hostUp s = true → s.stage = .clocked →
    let a := bar2Addr s offset
    (bar2Miss s a width = false → poisonedWords s memSpace a width = [] → beyondView s memSpace a width = false →
      exec (.bar2Access offset width none) s = .next { s with out := s.out ++ [.readData (readNat s memSpace a width) width] }) ∧
    (∀ v, bar2Miss s a width = false → poisonedWords s memSpace (a / 8 * 8) (width + 8) = [] → beyondView s memSpace a width = false →
      a + width ≤ s.variant.memBytes →
      Completes (.bar2Access offset width (some v)) s fun t =>
        readBytes t memSpace a width = natLe width v ∧
        (∀ k, ¬(k % 64 = memSpace ∧ a ≤ k / 64 ∧ k / 64 < a + width) → cellGet k t.mem = cellGet k s.mem) ∧
        t.flds = s.flds ∧ t.out = s.out) ∧
    (∀ d, bar2Miss s a width = true → Completes (.bar2Access offset width d) s fun t =>
      t.out = s.out ++ (if d = none then [.readData (2 ^ (8 * width) - 1) width] else []) ∧
      rd t F.hi_WINDOW_MISSES 0 0 = min (rd s F.hi_WINDOW_MISSES 0 0 + 1) (fieldMax F.hi_WINDOW_MISSES) ∧ MemKept s t ∧
      FieldsKept [F.hi_WINDOW_MISSES, F.com_SAT_LO, F.com_SAT_HI, F.com_SAT_TBL] s t))

/-! ### Device time and PTP -/

/-- R316. A read of TIME_NS on a live page answers device time and latches TIME_FRAC and ALIGN_AT_TIME beside it.
R316, R317. STEP_NS with STEP_EN moves device time at the next register tick by whole nanoseconds and latches
STEPPED_SEEN (log 93, DEDUCED); without STEP_EN it moves nothing. The loss of the master ends lock, which is counted,
and the clock no longer follows it. -/
def Obligations.DeviceTime : Prop :=
  (∀ s : State, livePage s (unitOf 0x03 0) = true → Completes .timeNsRead s fun t =>
    t.out = s.out ++ [.readData (nowNs s) 8] ∧ rd t F.ck_TIME_FRAC 0 0 = s.time % 2 ^ 32 ∧
    rd t F.ck_ALIGN_AT_TIME 0 0 = nowAp s % 2 ^ F.ck_ALIGN_AT_TIME.width ∧ t.time = s.time ∧ MemKept s t ∧
    FieldsKept [F.ck_TIME_NS, F.ck_TIME_FRAC, F.ck_ALIGN_AT_TIME] s t) ∧
  ((∀ (amount : Int) (s : State), livePage s (unitOf 0x03 0) = true → rdb s F.ck_STEP_EN 0 0 = true → Completes (.stepNs amount) s fun t =>
    t.core = (s.core / 4 + 1) * 4 ∧ rdb t F.ck_STEPPED_SEEN 0 0 = true ∧
    (t.time : Int) = (((s.time + rd s F.ck_INCR 0 0) % 2 ^ 96 : Nat) + amount * 2 ^ 32) % 2 ^ 96 ∧
    MemKept s t ∧ FieldsKept [F.ck_STEPPED_SEEN] s t) ∧
  (∀ (amount : Int) (s : State), rdb s F.ck_STEP_EN 0 0 = false → Completes (.stepNs amount) s fun t =>
    t.time = s.time ∧ t.core = s.core ∧ MemKept s t ∧ FieldsKept [] s t) ∧
  (∀ (s : State) (b : Gm × Nat), s.ptp.best = some b → s.ptp.interval ≠ 0 → isMaster s = false →
    Completes .syncLoss s fun t =>
      t.ptp.best = none ∧ t.ptp.interval = 0 ∧ t.ptp.last = none ∧ t.ptp.delay = none ∧ t.ptp.good = 0 ∧
      (rdb s F.ck_LOCKED 0 0 = true → rdb t F.ck_LOCKED 0 0 = false ∧ rdb t F.ck_LOCK_LOST_SEEN 0 0 = true ∧
        rd t F.ck_LOCK_LOSSES 0 0 = min (rd s F.ck_LOCK_LOSSES 0 0 + 1) (fieldMax F.ck_LOCK_LOSSES)) ∧
      s.core ≤ t.core ∧ MemKept s t ∧ SequencersKept s t))

/-- R314, R317. A Sync of the master that this clock follows: a two-step one waits for its Follow_Up; a one-step one,
or the Follow_Up of the Sync that waits, counts in SYNC_RX and, where the path delay is known, sets OFFSET_NS to t2 −
t1 − delay, rounded to the nearest nanosecond (ties to even: log 91, DEDUCED); t2 is the receive timestamp of the Sync
(R315). R317. The servo, where steps of time are not enabled: from e, the last offset in ns/s over the interval
between the two Syncs, the integral term, ADJ_PPB and, with SERVO_EN and lock not lost by this offset, INCR (what the
rule's terms are in numbers is log 91, DEDUCED). R317. Lock and steps, for a one-step Sync whose path delay is known:
an offset within LOCK_NS counts, up to 16, and the sixteenth in a row raises LOCKED; one beyond it starts the count
again, and up to four times LOCK_NS leaves LOCKED. With STEP_EN, one beyond STEP_THRESHOLD steps device time by it at
the next register tick, clears the integral term, is counted (log 93, DEDUCED), and leaves INCR; the stored receipt
time moves with it (log 91, DEDUCED). -/
def Obligations.PtpSync : Prop :=
  (∀ (m : PtpMsg) (s : State), PtpTaken m s → parent s = some m.source →
    (m.twoStep = true → Completes (.sync m) s fun t =>
      t.ptp = { s.ptp with lastNs := nowNs s, interval := m.interval, waiting := some (m.seq, (rxTime s m.port m.stamp : Int), m.interval) } ∧
      t.time = s.time ∧ MemKept s t ∧ FieldsKept [F.pt_FRAMES_RX, F.pt_BYTES_RX] s t) ∧
    (∀ (i : Instr) (t2 : Int), (i = .sync m ∧ m.twoStep = false ∧ t2 = rxTime s m.port m.stamp) ∨
        (i = .followUp m ∧ ∃ iv, s.ptp.waiting = some (m.seq, t2, iv)) →
      Completes i s fun t =>
        t.ptp.waiting = none ∧ MemKept s t ∧ SequencersKept s t ∧
        rd t F.ck_SYNC_RX 0 0 = min (rd s F.ck_SYNC_RX 0 0 + 1) (fieldMax F.ck_SYNC_RX) ∧
        (s.ptp.delay = none → t.ptp.last = some (m.time, t2) ∧ rd t F.ck_OFFSET_NS 0 0 = rd s F.ck_OFFSET_NS 0 0 ∧
          rd t F.ck_INCR 0 0 = rd s F.ck_INCR 0 0 ∧ t.time = s.time) ∧
        (∀ d, s.ptp.delay = some d →
          rd t F.ck_OFFSET_NS 0 0 = unsignedOf (ratRound (ptpNs (t2 - m.time) - d)) 32))) ∧
  (∀ (m : PtpMsg) (s : State) (d : Rat) (p : Int × Int), PtpTaken m s → parent s = some m.source → m.twoStep = false →
    s.ptp.delay = some d → s.ptp.last = some p → m.time ≠ p.1 → rdb s F.ck_STEP_EN 0 0 = false →
    let t2 : Int := rxTime s m.port m.stamp
    let off := ptpNs (t2 - m.time) - d
    let e := off * 1000000000 / ptpNs (m.time - p.1)
    let lim : Rat := (rd s F.ck_SLEW_MAX 0 0 : Nat)
    let i := clampRat (s.ptp.integral + (rd s F.ck_KI 0 0 : Nat) / 256 * e) lim
    let adj := -clampRat ((rd s F.ck_KP 0 0 : Nat) / 256 * e + i) lim
    let lockNs : Rat := (rd s F.ck_LOCK_NS 0 0 : Nat)
    let lost : Prop := 4 * lockNs < absRat off ∧ rdb s F.ck_LOCKED 0 0 = true
    Completes (.sync m) s fun t =>
      t.ptp.integral = i ∧ t.ptp.last = some (m.time, t2) ∧ t.time = s.time ∧
      rd t F.ck_ADJ_PPB 0 0 = unsignedOf (ratRound adj) 32 ∧
      (rdb s F.ck_SERVO_EN 0 0 = true → ¬lost → rd t F.ck_INCR 0 0 =
        ((0x280000000 : Int) + ratRound ((0x280000000 : Nat) * adj / 1000000000)).toNat % 2 ^ F.ck_INCR.width) ∧
      (rdb s F.ck_SERVO_EN 0 0 = false ∨ lost → rd t F.ck_INCR 0 0 = rd s F.ck_INCR 0 0) ∧
      (lost → rdb t F.ck_LOCKED 0 0 = false ∧ rdb t F.ck_LOCK_LOST_SEEN 0 0 = true) ∧ MemKept s t ∧ SequencersKept s t) ∧
  (∀ (m : PtpMsg) (s : State) (d : Rat), PtpTaken m s → parent s = some m.source → m.twoStep = false → s.ptp.delay = some d →
    let t2 : Int := rxTime s m.port m.stamp
    let off := ptpNs (t2 - m.time) - d
    let lockNs : Rat := (rd s F.ck_LOCK_NS 0 0 : Nat)
    Completes (.sync m) s fun t =>
      (absRat off ≤ lockNs → t.ptp.good = min 16 (s.ptp.good + 1) ∧ (15 ≤ s.ptp.good → rdb t F.ck_LOCKED 0 0 = true) ∧
        (s.ptp.good < 15 → rdb t F.ck_LOCKED 0 0 = rdb s F.ck_LOCKED 0 0)) ∧
      (lockNs < absRat off → t.ptp.good = 0 ∧
        (absRat off ≤ 4 * lockNs → rdb t F.ck_LOCKED 0 0 = rdb s F.ck_LOCKED 0 0)) ∧
      (rdb s F.ck_STEP_EN 0 0 = true → (rd s F.ck_STEP_THRESHOLD 0 0 : Nat) < absRat off →
        t.core = (s.core / 4 + 1) * 4 ∧
        (t.time : Int) = (((s.time + rd s F.ck_INCR 0 0) % 2 ^ 96 : Nat) - ratRound (off * 2 ^ 32)) % 2 ^ 96 ∧
        rdb t F.ck_STEPPED_SEEN 0 0 = true ∧ rd t F.ck_STEPS 0 0 = min (rd s F.ck_STEPS 0 0 + 1) (fieldMax F.ck_STEPS) ∧
        t.ptp.integral = 0 ∧ t.ptp.last = some (m.time, t2 - ratRound (off * 65536)) ∧
        rd t F.ck_INCR 0 0 = rd s F.ck_INCR 0 0) ∧
      MemKept s t ∧ SequencersKept s t)

/-- R301, R314, R317. The other PTP messages and what the part sends (laid out as in IEEE 1588, log 92, PRESUMED): a
Delay_Req leaves with its t3 kept, a Delay_Resp to this clock's port gives the mean path delay and one to another is
ignored, an Announce of a better or the first live master makes it the one followed, a master answers a Delay_Req to
the port it came from and sends two-step Syncs and Announces with rising sequence numbers (in near-end loopback
nothing goes out, log 157, DEDUCED); a message of a wrong size or on another port than the PTP port is counted and
discarded. -/
def Obligations.PtpMessages : Prop :=
  (∀ (stamp p src : Nat) (s : State), ptpPort s = some p → portCarries s p = true → parent s = some src →
    Completes (.delayReqTx stamp) s fun t =>
      t.ptp = { s.ptp with seqDelay := (s.ptp.seqDelay + 1) % 65536, asked := some (s.ptp.seqDelay, (txTime s p stamp : Int)) } ∧
      rd t F.ck_DELAY_REQ_TX 0 0 = min (rd s F.ck_DELAY_REQ_TX 0 0 + 1) (fieldMax F.ck_DELAY_REQ_TX) ∧
      (rdb s F.pt_LOOPBACK p 0 = true → t.out = s.out) ∧
      (rdb s F.pt_LOOPBACK p 0 = false → ∃ tag bs, t.out = s.out ++ [.frame p ptpMac tag 0x88F7 1 bs []] ∧ bs.length = 44 ∧
        bs.take 1 = natBe 1 1 ∧ (bs.drop 30).take 2 = natBe 2 s.ptp.seqDelay) ∧ MemKept s t ∧ SequencersKept s t) ∧
  (∀ (m : PtpMsg) (t3 t1 t2 : Int) (s : State), PtpTaken m s → parent s = some m.source →
    s.ptp.asked = some (m.seq, t3) → s.ptp.last = some (t1, t2) → Completes (.delayResp m) s fun t =>
      let d := (ptpNs (t2 - t1) + ptpNs (m.time - t3)) / 2
      (m.requester = clockIdentity s * 2 ^ 16 + 1 → t.ptp = { s.ptp with asked := none, delay := some d } ∧
        rd t F.ck_MEAN_PATH_NS 0 0 = unsignedOf (ratRound d) 32) ∧
      (m.requester ≠ clockIdentity s * 2 ^ 16 + 1 → t.ptp = s.ptp ∧ rd t F.ck_MEAN_PATH_NS 0 0 = rd s F.ck_MEAN_PATH_NS 0 0) ∧
      t.time = s.time ∧ MemKept s t ∧ FieldsKept [F.ck_MEAN_PATH_NS, F.pt_FRAMES_RX, F.pt_BYTES_RX] s t) ∧
  (∀ (m : PtpMsg) (g : Gm) (s : State), PtpTaken m s → Completes (.announce m g) s fun t =>
      let followed : Prop := t.ptp.best = some (g, m.source) ∧ t.ptp.annNs = nowNs s ∧ t.ptp.annInterval = m.interval
      (liveBest s = none → followed ∧ t.ptp.delay = none ∧ t.ptp.last = none) ∧
      (∀ b, liveBest s = some b → b.2 = m.source → t.ptp = { s.ptp with
        best := some (g, m.source), annNs := nowNs s, annInterval := m.interval }) ∧
      (∀ b, liveBest s = some b → b.2 ≠ m.source → lexLt (gmKey g m.source) (gmKey b.1 b.2) = true →
        followed ∧ t.ptp.delay = none ∧ t.ptp.last = none ∧ t.ptp.good = 0) ∧
      (∀ b, liveBest s = some b → b.2 ≠ m.source → lexLt (gmKey g m.source) (gmKey b.1 b.2) = false → t.ptp = s.ptp) ∧
      rd t F.ck_ANNOUNCE_RX 0 0 = min (rd s F.ck_ANNOUNCE_RX 0 0 + 1) (fieldMax F.ck_ANNOUNCE_RX) ∧
      MemKept s t ∧ SequencersKept s t) ∧
  (∀ (m : PtpMsg) (s : State), PtpTaken m s → isMaster s = true → Completes (.delayReq m) s fun t =>
      (∃ tag bs, t.out = s.out ++ [.frame m.port ptpMac tag 0x88F7 1 bs []] ∧ bs.length = 54 ∧ bs.take 1 = natBe 1 9 ∧
        (bs.drop 8).take 8 = natBe 8 (unsignedOf (m.time - (rxTime s m.port m.stamp % 65536 : Nat)) 64) ∧
        (bs.drop 30).take 2 = natBe 2 m.seq ∧
        bs.drop 34 = ptpStamp (rxTime s m.port m.stamp) ++ natBe 10 m.source) ∧ t.ptp = s.ptp ∧ MemKept s t ∧ SequencersKept s t) ∧
  (∀ (stamp p : Nat) (s : State), ptpPort s = some p → portCarries s p = true → isMaster s = true →
    (Completes (.syncTx stamp) s fun t =>
      t.ptp = { s.ptp with seqSync := (s.ptp.seqSync + 1) % 65536 } ∧ (rdb s F.pt_LOOPBACK p 0 = true → t.out = s.out) ∧
      (rdb s F.pt_LOOPBACK p 0 = false →
        ∃ tag b1 b2, t.out = s.out ++ [.frame p ptpMac tag 0x88F7 1 b1 [], .frame p ptpMac tag 0x88F7 1 b2 []] ∧
        b1.length = 44 ∧ b1.take 1 = natBe 1 0 ∧ (b1.drop 30).take 2 = natBe 2 s.ptp.seqSync ∧
        b2.take 1 = natBe 1 8 ∧ (b2.drop 8).take 8 = natBe 8 (txTime s p stamp % 65536) ∧
        (b2.drop 30).take 2 = natBe 2 s.ptp.seqSync ∧ b2.drop 34 = ptpStamp (txTime s p stamp)) ∧
      MemKept s t ∧ SequencersKept s t) ∧
    (Completes .announceTx s fun t =>
      t.ptp = { s.ptp with seqAnnounce := (s.ptp.seqAnnounce + 1) % 65536 } ∧ (rdb s F.pt_LOOPBACK p 0 = true → t.out = s.out) ∧
      (rdb s F.pt_LOOPBACK p 0 = false →
        ∃ tag bs, t.out = s.out ++ [.frame p ptpMac tag 0x88F7 1 bs []] ∧ bs.length = 64 ∧ bs.take 1 = natBe 1 0xB ∧
        (bs.drop 30).take 2 = natBe 2 s.ptp.seqAnnounce) ∧ MemKept s t ∧ SequencersKept s t)) ∧
  (∀ (m : PtpMsg) (i : Instr) (s : State), portHears s m.port = true →
    (i ∈ ([.sync m, .followUp m, .delayReq m, .delayResp m] : List Instr) ∨ ∃ g, i = .announce m g) → Completes i s fun t =>
      rd t F.pt_FRAMES_RX m.port 0 = (rd s F.pt_FRAMES_RX m.port 0 + 1) % 2 ^ F.pt_FRAMES_RX.width ∧
      (sizeAllowed m.size = true → ptpPort s ≠ some m.port → t.ptp = s.ptp ∧
        rd t F.ck_PTP_DISCARDS 0 0 = min (rd s F.ck_PTP_DISCARDS 0 0 + 1) (fieldMax F.ck_PTP_DISCARDS) ∧ MemKept s t ∧
        FieldsKept [F.ck_PTP_DISCARDS, F.pt_FRAMES_RX, F.pt_BYTES_RX, F.com_SAT_LO, F.com_SAT_HI, F.com_SAT_TBL] s t) ∧
      (sizeAllowed m.size = false → t.ptp = s.ptp ∧
        rd t F.pt_FRAME_SIZE_ERRORS m.port 0 = min (rd s F.pt_FRAME_SIZE_ERRORS m.port 0 + 1) (fieldMax F.pt_FRAME_SIZE_ERRORS) ∧
        MemKept s t ∧
        FieldsKept [F.pt_FRAME_SIZE_ERRORS, F.pt_FRAMES_RX, F.pt_BYTES_RX, F.com_SAT_LO, F.com_SAT_HI, F.com_SAT_TBL] s t))

/-! ### The exchange and the transport -/

/-- R182, R229 to R234. A send command that reads nothing early and no poisoned word: the die's tracker gains an entry
of the exchange, and the operands are kept under its number; where the device takes no part, or the bucket's owner is
another member, the entry waits, and the command's data and end operations go to that owner in messages of type
ACCUMULATE, in order. -/
def Obligations.SendCommands : Prop :=
  ∀ (q : SeqId) (i : Instr) (op : Nat),
    (i, op) ∈ ([(.sendDense q, 0), (.sendTopk q, 1), (.sendSign q, 2), (.sendOrdered q, 3)] : List (Instr × Nat)) →
    ∀ (s s1 : State) (c : Cmd) (n : Nat) (toks : List Nat), Issues q 7 op s s1 c n toks → trackerCount s1 q.die < 32768 →
    let x := ctxOf s1 q
    let r0 := sendRec x c op s1
    let reads := (xSrc x c).ranges r0.count ++
      (if r0.compacted s1 then [⟨(xAux x c).space, (xAux x c).base, 4 * r0.count⟩] else [])
    let b := c.xBucket
    let elsewhere : Prop := isMember s1 = false ∨ bucketDefined s1 b = false ∨ exchangeStopped s1 = true ∨
      (bOwner s1 b ≠ ownRank s1 ∧ s1.job.pulls = [] ∧ (bx s1 b).pulling = [] ∧ (bx s1 b).final = false)
    let entry (p : PendingOp) : Prop := p.id = s1.opCount ∧ p.die = q.die ∧ p.tag = seqTag s1 q ∧ p.land = none ∧
      p.landed = false ∧ p.bucket = some b ∧
      p.produce = (if c.produceEn then some (c.produceDie, c.produceQueue) else none) ∧ p.notify = c.notify
    let kept (r : SendRec) : Prop := r.id = s1.opCount ∧ r.op = op ∧ r.cmd = c ∧ r.ctx = x ∧ r.bucket = b ∧ r.first = r0.first ∧
      r.count = r0.count ∧ r.span = r0.span ∧ r.ordered = r0.ordered
    CleanReads reads s1 → earlySummary s1 n reads = none → Completes i s fun t =>
      (∃ p, t.tracker.getLast? = some p ∧ entry p) ∧ t.tracker.length = s.tracker.length + 1 ∧
      ((∀ r ∈ s1.job.sends, r.id ≠ s1.opCount) → ∃ r, t.job.sends.getLast? = some r ∧ kept r) ∧
      t.job.sends.length = s.job.sends.length + 1 ∧
      pcIndex t q = (pcIndex s q + 1) % 2 ^ 11 ∧ SequencersKept s t ∧
      (elsewhere →
        (∃ p, t.tracker = s.tracker ++ [p] ∧ entry p ∧ p.gate = false) ∧
        (∃ r, t.job.sends = s.job.sends ++ [r] ∧ kept r ∧
          (isMember s1 = true → bucketDefined s1 b = true → exchangeStopped s1 = false → ∀ serial,
            serialOf s1 (bOwner s1 b) = some serial →
            queuedTo t serial = queuedTo s1 serial ++
              (r.ops s1 0 (2 ^ 32) ++ r.ends s1 0 (2 ^ 32)).map fun o => (1, o.bytes))) ∧
        (isMember s1 = false → t.job.tx = s1.job.tx) ∧ MemKept s t)

/-- R182, R251, R258, R308. The other exchange commands that read nothing early and no poisoned word. BUCKET_WAIT
waits for its bucket's notice, or ends with it at once. A REMOTE_WRITE to another listed member sends the source's
bytes in writes of 8,192 bytes to RADDR on; one to the device's own rank stores them. A DELTA_BCAST of a device that
is neither the bucket's owner nor its partner does nothing; of one that is, it is kept until the commit, writes its
moments through the alternate state view, and as owner, or in mirror mode, counts its elements as sent (log 115).
R258, R259, R273. When an owner's moments and deltas leave is the model's reading (log 115). Which deltas an owner's
DELTA_BCAST sends: where it may send them (a partner with a valid copy has acknowledged the completion message of the
shard, and no page that the step sent to a joining rank waits), the DELTA operations of its range go to every other
rank of the view, joining ranks too (log 66), in order, and the one that brings the elements sent to ELEMENTS carries
LAST; where it may not yet, they are held with the command's number. -/
def Obligations.ExchangeCommands : Prop :=
  (∀ (q : SeqId) (s s1 : State) (c : Cmd) (n : Nat) (toks : List Nat), trackerCount s1 q.die < 32768 →
    let x := ctxOf s1 q
    let b := c.xBucket
    let d := xSrc x c
    (Issues q 7 6 s s1 c n toks → Completes (.bucketWait q) s fun t =>
      ((bx s1 b).noticed = false → ∃ p, t.tracker = s.tracker ++ [p] ∧ p.tag = seqTag s1 q ∧ p.gate = false ∧
        p.bucket = some b ∧ p.land = none) ∧
      ((bx s1 b).noticed = true → ∃ p, t.tracker.getLast? = some p ∧ t.tracker.length = s.tracker.length + 1 ∧ p.tag = seqTag s1 q ∧
        p.gate = true ∧ p.token = waitToken s1 b (seqTag s1 q) (seqX s1 q).gen) ∧
      pcIndex t q = (pcIndex s q + 1) % 2 ^ 11 ∧ SequencersKept s t ∧ MemKept s t) ∧
    (let len := xCount x c * elemBytes d.fmt
     let peer := bits c.w3 0 16
     let raddr := bits c.w3 16 48
     let reads : List Range := [⟨d.space, d.base, len⟩]
     Issues q 7 5 s s1 c n toks → CleanReads reads s1 → earlySummary s1 n reads = none → Completes (.remoteWrite q) s fun t =>
      (∃ p, t.tracker = s.tracker ++ [p] ∧ p.tag = seqTag s1 q ∧ p.land = none ∧
        p.gate = ((peer = ownRank s1 ∧ isMember s1 = true) ∨ (serialOf s1 peer).isSome : Bool)) ∧
      (peer ≠ ownRank s1 ∨ isMember s1 = false → MemKept s t ∧ ∀ serial, serialOf s1 peer = some serial →
        queuedTo t serial = queuedTo s1 serial ++ (pieces 8192 0 len).map fun o =>
          (3, natLe 8 (raddr + o.1) ++ natLe 8 (stepNo s1) ++ readBytes s1 d.space (d.base + o.1) o.2)) ∧
      (peer = ownRank s1 → isMember s1 = true → raddr + len ≤ s1.variant.memBytes → len ≤ 8192 → s1.newPoison = [] →
        readBytes t memSpace raddr len = readBytes s1 d.space d.base len ∧
        ∀ k, ¬(k % 64 = memSpace ∧ raddr ≤ k / 64 ∧ k / 64 < raddr + len) → cellGet k t.mem = cellGet k s.mem) ∧
      pcIndex t q = (pcIndex s q + 1) % 2 ^ 11 ∧ SequencersKept s t) ∧
    (let a := xAux x c
     let count := xCount x c
     let reads : List Range :=
       [⟨d.space, d.base, 4 * count⟩, ⟨a.space, a.base, ceilDiv (4 * count) 64 * 64 * uMoments s1 b⟩]
     let ms := ((momentWrites x c s1).run {}).1
     let mirror : Bool := rdb s1 F.rs_MIRROR 0 0 && isMember s1 && bucketDefined s1 b
     let acts : Bool := ownerHere s1 b || partnerHere s1 b || mirror
     Issues q 7 4 s s1 c n toks → (acts = true → CleanReads reads s1 ∧ earlySummary s1 n reads = none) →
     Completes (.deltaBcast q) s fun t =>
      t.tracker.length = s.tracker.length + 1 ∧ (∃ p, t.tracker.getLast? = some p ∧ p.tag = seqTag s1 q ∧ p.land = none) ∧
      (acts = false → (∃ p, t.tracker = s.tracker ++ [p] ∧ p.gate = true) ∧ t.job.deltas = s.job.deltas ∧ MemKept s t) ∧
      (acts = true → (∃ r, t.job.deltas = s.job.deltas ++ [r] ∧ r.cmd = c ∧ r.ctx = x ∧ r.ordered = ownerHere s1 b) ∧
        (bx t b).momentsHere = true ∧
        (bx t b).deltaSent = (bx s1 b).deltaSent + (if ownerHere s1 b || mirror then count else 0)) ∧
      (partnerHere s1 b = true → ownerHere s1 b = false → mirror = false → (bx s1 b).heldDeltas = [] →
        (∀ w ∈ ms, beyondView s1 memSpace w.1 w.2.length = false) →
        (∃ p, t.tracker = s.tracker ++ [p] ∧ p.gate = true) ∧
        (∀ k, (∀ w ∈ ms, ∀ i < w.2.length, cellAt s1 memSpace (w.1 + i) ≠ some k) → cellGet k t.mem = cellGet k s.mem) ∧
        ∀ w, ms = [w] → (∀ i < w.2.length, ∃ k, cellAt s1 memSpace (w.1 + i) = some k) →
          (∀ i j, i < w.2.length → j < w.2.length → cellAt s1 memSpace (w.1 + i) = cellAt s1 memSpace (w.1 + j) → i = j) →
          readBytes t memSpace w.1 w.2.length = w.2) ∧
      pcIndex t q = (pcIndex s q + 1) % 2 ^ 11 ∧ SequencersKept s t)) ∧
  (∀ (q : SeqId) (s s1 : State) (c : Cmd) (n : Nat) (toks : List Nat), trackerCount s1 q.die < 32768 → Issues q 7 4 s s1 c n toks →
    let x := ctxOf s1 q
    let b := c.xBucket
    let d := xSrc x c
    let a := xAux x c
    let count := xCount x c
    let reads : List Range :=
      [⟨d.space, d.base, 4 * count⟩, ⟨a.space, a.base, ceilDiv (4 * count) 64 * 64 * uMoments s1 b⟩]
    let ops := ((deltaOps x c s1).run {}).1
    let sentBy (i : Nat) := (bx s1 b).deltaSent + ((ops.take (i + 1)).map (·.count)).sum
    let marked := ops.zipIdx.map fun oi =>
      if bElems s1 b ≤ sentBy oi.2 then { oi.1 with w1 := splice oi.1.w1 48 1 1 } else oi.1
    let ms := ((momentWrites x c s1).run {}).1
    CleanReads reads s1 → earlySummary s1 n reads = none → ownerHere s1 b = true → rdb s1 F.rs_MIRROR 0 0 = false →
    (bx s1 b).heldDeltas = [] → (∀ w ∈ ms, beyondView s1 memSpace w.1 w.2.length = false) →
    Completes (.deltaBcast q) s fun t =>
      (mayDelta s1 b = false → (bx t b).heldDeltas = marked.map (fun o => (s1.opCount, o)) ∧ t.job.tx = s1.job.tx) ∧
      (mayDelta s1 b = true → (bx t b).heldDeltas = [] ∧
        ∀ r serial, ReachedAs s1 (otherRanks s1) r serial → LinesUp s1 t serial 2 (marked.map (·.bytes)) False) ∧
      SequencersKept s t)

/-- R283, R301, R303, R306. What reliable delivery makes of a message that does not take effect, whatever it is: on a
port that hears no frames (down, or in loopback, log 157) nothing arrives; a frame out of the bounds of size is
counted as such, and one whose size is not what its LENGTH gives as a bad frame; one from a sender that the view does
not list is counted and discarded, membership messages apart (log 64); a repeat is counted and acknowledged again; one
beyond the window is counted. A changed session ends what was kept of the sender. Memory and the sequencers stay. That
a discarded frame still counts as received is the model's reading (log 63). -/
def Obligations.MessageReceipt : Prop :=
  ∀ (f : Frame) (x : XOp) (m : Member) (a w q d step : Nat) (bound : Bool) (data : List Byte) (bad : List Nat)
    (i : Instr) (n type : Nat), (i, n, type) ∈ reliableMessages f x m a w q d step bound data bad →
  ∀ s : State,
    let count (k : Field) (t : State) : Prop := rd t k f.port 0 = min (rd s k f.port 0 + 1) (fieldMax k)
    let quiet (k : Field) (t : State) : Prop := t.job = s.job ∧ t.tracker = s.tracker ∧ t.out = s.out ∧
      rd t F.pt_FRAMES_RX f.port 0 = (rd s F.pt_FRAMES_RX f.port 0 + 1) % 2 ^ F.pt_FRAMES_RX.width ∧ MemKept s t ∧
      FieldsKept (k :: rxFields) s t
    let sized : Prop := sizeAllowed f.size = true ∧ sizeFits f n = true
    (portHears s f.port = false → exec i s = .next s) ∧
    (portHears s f.port = true →
      (sizeAllowed f.size = false → Completes i s fun t =>
        count F.pt_FRAME_SIZE_ERRORS t ∧ quiet F.pt_FRAME_SIZE_ERRORS t) ∧
      (sizeAllowed f.size = true → sizeFits f n = false → Completes i s fun t =>
        count F.pt_BAD_FRAMES t ∧ quiet F.pt_BAD_FRAMES t) ∧
      (sized → type ≠ 8 → fromMember s f = false → Completes i s fun t =>
        rd t F.rs_NONMEMBER_DISCARDS 0 0 = min (rd s F.rs_NONMEMBER_DISCARDS 0 0 + 1) (fieldMax F.rs_NONMEMBER_DISCARDS) ∧
        quiet F.rs_NONMEMBER_DISCARDS t) ∧
      (sized → type = 8 ∨ fromMember s f = true → f.ackValid = false →
        (rxCase (rxOf s f) f.msgId = 0 → Completes i s fun t =>
          count F.pt_DUPLICATES t ∧ t.job.tx = s.job.tx ∧ t.tracker = s.tracker ∧ t.out = s.out ∧
          (∃ r, rxPeer t f.serial = some r ∧ r.mark = (rxOf s f).mark ∧ r.seen = (rxOf s f).seen ∧ r.ackDue.isSome) ∧
          MemKept s t ∧ FieldsKept (F.pt_DUPLICATES :: rxFields) s t) ∧
        (rxCase (rxOf s f) f.msgId = 2 → Completes i s fun t =>
          count F.pt_WINDOW_DROPS t ∧ t.job = (dropSession f s).job ∧ t.tracker = s.tracker ∧ t.out = s.out ∧ MemKept s t ∧
          FieldsKept (F.pt_WINDOW_DROPS :: rxFields) s t)))

/-- R306, R308, R309. The token messages and remote writes that are delivered. A token message waits until every lower
MSG_ID of its sender is delivered; one whose MSG_ID is the next is enqueued on its queue with the program generation
of its die, after which the mark stands at it. A remote write that is not stale stores its bytes and nothing else, and
counts its share in every landing zone; one zone that it fills produces its token. A step-bound write of another step
is counted and answered. -/
def Obligations.DeliveredWrites : Prop :=
  (∀ (f : Frame) (word queue die : Nat) (s : State), portHears s f.port = true → sizeAllowed f.size = true →
    sizeFits f 16 = true → fromMember s f = true → rxCase (rxOf s f) f.msgId = 1 → die < 32 → queue < 1024 →
    Completes (.tokenFrame f word queue die) s fun t =>
      let a := arrived f s
      let r := rxOf s f
      t = followWrite f (setRx f.serial { rxOf a f with
        tokens := ((rxOf a f).tokens.filter fun o => o.id != f.msgId) ++ [⟨f.msgId, word, queue, die⟩] } a) ∧
      (QuietWrite f s →
        (f.msgId = (r.mark + 1) % 2 ^ 32 → r.seen = [] → (queueOf s die queue).length < 64 →
          queueOf t die queue = settled s die queue (insertTok
            ⟨splice word 20 8 (rd s F.sq_PROG_GEN (homeDie die) 0), s.core⟩ (queueOf s die queue)) ∧
          (rxPeer t f.serial).map (·.mark) = some f.msgId ∧ MemKept s t) ∧
        (f.msgId ≠ (r.mark + 1) % 2 ^ 32 → t.queues = s.queues ∧ MemKept s t ∧
          rxPeer t f.serial = some { r with tokens := [⟨f.msgId, word, queue, die⟩] }))) ∧
  (∀ (f : Frame) (addr : Nat) (bound : Bool) (step : Nat) (data : List Byte) (s : State), Delivers f (16 + data.length) 3 s →
    addr < 2 ^ 48 → bound = false ∨ step = stepNo s → s.newPoison = [] →
    let share (z : Nat) := zoneShare s z addr data.length
    let expect (z : Nat) := max 1 (rd s F.pt_ZONE_EXPECT 0 z)
    (∀ z < 64, rdb s F.pt_ZONE_EN 0 z = true → rd s F.pt_ZONE_COUNT 0 z + share z < expect z) →
    TakesEffect (followWrite f) (QuietWrite f s) (.remoteWriteMsg f addr bound step data []) s fun t =>
      (addr + data.length ≤ s.variant.memBytes → readBytes t memSpace addr data.length = data ∧
        (∀ k, ¬(k % 64 = memSpace ∧ addr ≤ k / 64 ∧ k / 64 < addr + data.length) → cellGet k t.mem = cellGet k s.mem) ∧
        (f.ackValid = false → FieldsKept (F.pt_ZONE_COUNT :: rxFields) s t)) ∧
      (∀ z < 64, rd t F.pt_ZONE_COUNT 0 z = if rdb s F.pt_ZONE_EN 0 z then
        (rd s F.pt_ZONE_COUNT 0 z + share z) % 2 ^ F.pt_ZONE_COUNT.width else rd s F.pt_ZONE_COUNT 0 z) ∧
      t.queues = s.queues ∧ SequencersKept s t) ∧
  (∀ (f : Frame) (addr : Nat) (data : List Byte) (z : Nat) (s : State), Delivers f (16 + data.length) 3 s → z < 64 →
    addr + data.length ≤ s.variant.memBytes → (∀ y < 64, rdb s F.pt_ZONE_EN 0 y = true → y = z) → rdb s F.pt_ZONE_EN 0 z = true →
    let expect := max 1 (rd s F.pt_ZONE_EXPECT 0 z)
    let n := rd s F.pt_ZONE_COUNT 0 z + zoneShare s z addr data.length
    let die := rd s F.pt_ZONE_DIE 0 z
    let queue := rd s F.pt_ZONE_QUEUE 0 z
    expect ≤ n → n < 2 * expect → (queueOf s die queue).length < 64 →
    TakesEffect (followWrite f) (QuietWrite f s) (.remoteWriteMsg f addr false 0 data []) s fun t =>
      rd t F.pt_ZONE_COUNT 0 z = (n - expect) % 2 ^ F.pt_ZONE_COUNT.width ∧
      queueOf t die queue = settled s die queue (insertTok
        ⟨splice (tokenWord (0xFC * 2 ^ 12) 0 false false false false 0xF (expect / 64)) 20 8
          (rd s F.sq_PROG_GEN (homeDie die) 0), s.core⟩ (queueOf s die queue))) ∧
  (∀ (f : Frame) (addr step : Nat) (data : List Byte) (bad : List Nat) (s : State), Delivers f (16 + data.length) 3 s → step ≠ stepNo s →
    s.newPoison = [] →
    TakesEffect (followWrite f) (QuietWrite f s) (.remoteWriteMsg f addr true step data bad) s fun t =>
      rd t F.pt_STALE_WRITES f.port 0 = min (rd s F.pt_STALE_WRITES f.port 0 + 1) (fieldMax F.pt_STALE_WRITES) ∧
      (∀ serial, serialOf s f.srcRank = some serial → queuedTo t serial = queuedTo (arrived f s) serial ++
        [(8, memberBytes 5 [f.msgId, addr % 2 ^ 48] [])]) ∧ MemKept s t ∧ SequencersKept s t)

/-- R237, R240, R241, R245, R247, R249. What the owner of a bucket does with the operations that reach it: an
accumulate adds to the accumulators of its positions that no earlier operation brought (that each position counts once
while resends are awaited is the model's reading, log 70), and to no others; an end operation counts its elements,
notes its flags, is answered with code 0, and closes the bucket where it completes the last member; operations that
come after the close, or from no member, are counted late and answered with code 1 (log 68); a resend that a drop
asked for is subtracted, and with its last element the rank is out and the drop counted; an ordered answer waits in
its pull's slot until it is complete, and complete pulls are added in order (log 140); operations for a bucket owned
elsewhere are answered with code 2; a PULL is held until its source is there and then answered, and one for first
sendings has them sent again. -/
def Obligations.OwnerMessages : Prop :=
  ∀ (f : Frame) (x : XOp) (s : State), Delivers f (16 + x.data.length) 1 s →
    let b := x.bucket
    let a := arrived f s
    (∀ (i : Instr) (op : Nat), (i, op) ∈ ([(.denseAcc f x, 1), (.scatterAcc f x, 2), (.signAcc f x, 3)] : List (Instr × Nat)) →
      GoodOp s op x → Collects s f x → TakesEffect (followMessage f) (QuietFrame f s) i s fun t =>
        let adds (pos : Nat) : Int := if isTaken (takenOf s x) pos then 0 else addend x pos
        (bAcc s b + 4 * bElems s b ≤ s.variant.memBytes →
          (∀ pos < bElems s b, readNat t memSpace (bAcc s b + 4 * pos) 4 = unsignedOf (accInt s b pos + adds pos) 32) ∧
          (∀ k, ¬(k % 64 = memSpace ∧ bAcc s b ≤ k / 64 ∧ k / 64 < bAcc s b + 4 * bElems s b) →
            cellGet k t.mem = cellGet k s.mem)) ∧
        (bx t b).deadline = some ((bx s b).deadline.getD (rxNs s f + deadlineLen s b)) ∧
        ((bx s b).state = 1 → (bx t b).state = 2) ∧ x.rank ∈ (bx t b).begun ∧ t.job.tx = a.job.tx ∧
        SequencersKept s t) ∧
    (GoodOp s 5 x → Collects s f x → x.rank ≠ ownRank s →
      let done (r : Nat) : Bool :=
        decide (bElems s b ≤ nmGet 0 r (bx s b).ended + if r = x.rank then freshCount s x else 0)
      let open' : Prop := deadlinePassed s b = false ∧ rxNs s f + deadlineLen s b ≥ nowNs s ∧
        ∃ r, (memberRanks s).contains r = true ∧ done r = false
      TakesEffect (followMessage f) (QuietFrame f s ∧ open') (.contribEnd f x) s fun t =>
        nmGet 0 x.rank (bx t b).ended = nmGet 0 x.rank (bx s b).ended + freshCount s x ∧
        (bitOf x.flags 0 = true → x.rank ∈ (bx t b).nonfin) ∧ (bitOf x.flags 1 = true → x.rank ∈ (bx t b).ovf) ∧
        ((memberRanks s).all done = true → (bx s b).state ∈ [1, 2, 6] → (bx t b).closed = true) ∧
        (∀ serial, serialOf s x.rank = some serial →
          LinesUp a t serial 1 [(mkOp s 7 b x.first x.count 0 []).bytes] (¬open')) ∧
        (open' → (bx t b).closed = false ∧ MemKept s t) ∧ SequencersKept s t) ∧
    (GoodOp s 4 x → ownerHere s b = true → ((bx s b).pulling.any fun p => p.rank == x.rank && !p.done) = true →
      let top := bitOf x.flags 0
      let vals := (List.range x.count).map fun i => if top then (bits (x.word8 i) 0 32, bits (x.word8 i) 32 16)
        else (x.first + i, leNat ((x.data.drop (2 * i)).take 2))
      let put (p : OrdPull) : OrdPull :=
        if p.rank = x.rank ∧ p.done = false ∧ p.first ≤ x.first ∧ x.first < p.first + p.count then
          { p with got := p.got ++ vals, last := if top && bitOf x.flags 1 then some f.msgId else p.last
                   done := !top && decide (p.count ≤ p.got.length + vals.length) }
        else p
      let line := (bx s b).pulling.map put
      TakesEffect (followMessage f) (QuietFrame f s ∧ top = false) (.orderedAcc f x) s fun t =>
        (∃ k new, (bx t b).pulling = (line ++ new).drop k ∧ ∀ p ∈ line.take k, p.complete (delivered f s) = true) ∧
        (∀ p, line = [p] → (bx s b).toPull = [] →
          (p.complete (delivered f s) = false → (bx t b).pulling = [p] ∧ (bx t b).reducing = (bx s b).reducing ∧ MemKept s t) ∧
          (p.complete (delivered f s) = true → (bx t b).pulling = [] ∧ (bx t b).reducing = true)) ∧
        SequencersKept s t) ∧
    (∀ (i : Instr) (op : Nat), (i, op) ∈ ([(.denseAcc f x, 1), (.scatterAcc f x, 2), (.signAcc f x, 3), (.orderedAcc f x, 4),
        (.contribEnd f x, 5)] : List (Instr × Nat)) → GoodOp s op x → ownerHere s b = false → x.rank ≠ ownRank s →
      TakesEffect (followMessage f) (QuietFrame f s) i s fun t =>
        (∀ serial, serialOf s x.rank = some serial → queuedTo t serial = queuedTo a serial ++
          [(1, (mkOp s 7 b x.first x.count 2 []).bytes)]) ∧ t.job.buckets = s.job.buckets ∧
        MemKept s t ∧ SequencersKept s t) ∧
    (∀ (i : Instr) (op : Nat), (i, op) ∈ ([(.denseAcc f x, 1), (.scatterAcc f x, 2), (.signAcc f x, 3),
        (.contribEnd f x, 5)] : List (Instr × Nat)) → GoodOp s op x → ownerHere s b = true → smFind x.rank (bx s b).redo = none →
      (bx s b).closed = true ∨ (memberRanks s).contains x.rank = false → x.rank ≠ ownRank s →
      (op = 5 → bitOf x.flags 2 = true → (bx s b).state ≠ 3) →
      TakesEffect (followMessage f) (QuietFrame f s) i s fun t =>
        rd t F.ex_LATE_OPS (serveInst s b) 0 = min (rd s F.ex_LATE_OPS (serveInst s b) 0 + 1) (fieldMax F.ex_LATE_OPS) ∧
        (∀ serial, serialOf s x.rank = some serial → LinesUp a t serial 1 [(mkOp s 7 b x.first x.count 1 []).bytes] False) ∧
        t.job.buckets = s.job.buckets ∧ MemKept s t ∧ SequencersKept s t) ∧
    (∀ (i : Instr) (op n : Nat), (i, op) ∈ ([(.denseAcc f x, 1), (.scatterAcc f x, 2), (.signAcc f x, 3)] : List (Instr × Nat)) →
      GoodOp s op x → ownerHere s b = true → smFind x.rank (bx s b).redo = some n →
      TakesEffect (followMessage f) (QuietFrame f s) i s fun t =>
        let adds (pos : Nat) : Int := if isTaken (takenOf s x) pos then 0 else if (bx s b).redoSub then -addend x pos else addend x pos
        (bAcc s b + 4 * bElems s b ≤ s.variant.memBytes →
          (∀ pos < bElems s b, readNat t memSpace (bAcc s b + 4 * pos) 4 = unsignedOf (accInt s b pos + adds pos) 32) ∧
          (∀ k, ¬(k % 64 = memSpace ∧ bAcc s b ≤ k / 64 ∧ k / 64 < bAcc s b + 4 * bElems s b) →
            cellGet k t.mem = cellGet k s.mem)) ∧
        t.job.tx = a.job.tx ∧ SequencersKept s t) ∧
    (∀ n, GoodOp s 5 x → ownerHere s b = true → smFind x.rank (bx s b).redo = some n → bElems s b ≤ n + freshCount s x →
      (bx s b).redoSub = true →
      TakesEffect (followMessage f) False (.contribEnd f x) s fun t =>
        smFind x.rank (bx t b).redo = none ∧ x.rank ∉ (bx t b).included ∧
        (rd s F.ex_DROPS (serveInst s b) 0 < fieldMax F.ex_DROPS →
          rd s F.ex_DROPS (serveInst s b) 0 < rd t F.ex_DROPS (serveInst s b) 0) ∧ SequencersKept s t) ∧
    (GoodOp s 6 x → TakesEffect (followMessage f) (QuietFrame f s) (.pull f x) s fun t =>
      let ordered := bitOf x.flags 0
      let again := bitOf x.flags 1
      let first := (s.job.sends.filter fun r => r.bucket == b && r.op != 3).flatMap fun r =>
        r.ops s x.first (x.first + x.count) ++ r.ends s x.first (x.first + x.count)
      let sent (os : List XOp) : Prop := ∀ serial, serialOf s x.rank = some serial →
        LinesUp a t serial 1 (os.map (·.bytes)) False
      (ordered = true → again = false → ordReady s b x.first x.count = false →
        (∀ p ∈ s.job.pulls, ordReady s p.bucket p.first p.count = false) →
        t.job.pulls = s.job.pulls ++ [⟨b, x.rank, x.first, x.count⟩] ∧ t.job.tx = a.job.tx ∧ MemKept s t) ∧
      (ordered = true → again = false → ordReady s b x.first x.count = true → s.job.pulls = [] →
        t.job.pulls = [] ∧ sent (pullAnswers s b x.first x.count)) ∧
      (ordered = false → again = true → t.job.pulls = s.job.pulls ∧ sent first ∧ MemKept s t) ∧ SequencersKept s t)

/-- R241, R244. A deadline that passes closes its bucket with the ranks that are complete, where every rank that began
is, and does nothing to it otherwise; the reduction of a closed bucket that meets no poisoned word leaves the F32
means of the included ranks in the accumulators, state 4 and the reduced token where every mean is finite, and state 5
where one is not. R226, R240, R241, R242, R244, R245, R246, R247. What an owner does and sends at a close whose ranks
are members. Without a non-finite rank: with too few ranks it vetoes the bucket, counted, in state 5; in the ordered
form it starts the ordered path after a FINAL notice; where an included rank overflowed it notices REPEAT, counts it
and starts the ordered path; else it notices FINAL and the reduction runs. With a non-finite rank the policy vetoes
the bucket, or drops the included ranks among them: in the ordered form, and where only the device's own is dropped,
at once, each counted; else first sendings are pulled again of the others. The NOTICE goes to every other rank of the
view with the bitmap and the count of the included ranks and the number of table changes, followed by the TABLE
operations of the changes. -/
def Obligations.OwnerEvents : Prop :=
  ((∀ (b d : Nat) (s : State), (bx s b).deadline = some d → ownerHere s b = true → (bx s b).closed = false →
    let s1 := advanceTo (coreAfterNs s d) s
    Completes (.bucketDeadline b) s fun t =>
      t.core = s1.core ∧
      ((bx s b).state ∈ [1, 2, 6] → ((memberRanks s).all (rankDone s b) = true ∨
          deadlinePassed s1 b = true ∧ ∀ r ∈ (bx s b).begun, rankDone s b r = true) →
        (bx t b).closed = true ∧
        (∀ k, k = (if (memberRanks s).all (rankDone s b) then F.ex_CLOSED_FULL else F.ex_CLOSED_DEADLINE) →
          rd t k (serveInst s b) 0 = min (rd s k (serveInst s b) 0 + 1) (fieldMax k)) ∧
        ((memberRanks s).all (rankDone s b) = false → rdb t F.ex_DEADLINE_SEEN (serveInst s b) 0 = true)) ∧
      ((memberRanks s).all (rankDone s b) = false → (∃ r ∈ (bx s b).begun, rankDone s b r = false) → t = settle s1)) ∧
  (∀ (b d : Nat) (s : State), (bx s b).deadline = some d → ownerHere s b = true → (bx s b).closed = false →
    (bx s b).state ∈ [1, 2, 6] → (∀ r ∈ (bx s b).begun, rankDone s b r = true) → s.stage = .clocked → Sound s → d < 2 ^ 62 →
    nowNs s < 2 ^ 62 → 0 < rd s F.ck_INCR 0 0 → rd s F.ck_INCR 0 0 < 2 ^ 64 →
    Completes (.bucketDeadline b) s fun t =>
      s.core ≤ t.core ∧ d < nowNs t ∧
      (∀ k, k = (if (memberRanks s).all (rankDone s b) then F.ex_CLOSED_FULL else F.ex_CLOSED_DEADLINE) →
        rd t k (serveInst s b) 0 = min (rd s k (serveInst s b) 0 + 1) (fieldMax k)) ∧
      ((memberRanks s).all (rankDone s b) = false → rdb t F.ex_DEADLINE_SEEN (serveInst s b) 0 = true)) ∧
  (∀ (b addr : Nat) (s : State), ownerHere s b = true → (bx s b).reducing = true →
    poisonedWords s memSpace (bAcc s b) (4 * bElems s b) = [] →
    let again := (bx s b).repeated
    let mean (pos : Nat) := meanAt s b pos (bx s b).included.length ((bx s b).ordered || again)
    let finite : Prop := ∀ pos < bElems s b, f32Finite (mean pos) = true
    TakesEffect settle (ExchangeQuiet s ∧ finite ∧ again = false ∧ partnerOfBucket s b = none) (.bucketReduced b addr) s fun t =>
      (finite → (bx t b).state = 4) ∧ (¬finite → (bx t b).state = 5 ∧ (bx t b).vetoed = true) ∧ (bx t b).reducing = false ∧
      (finite → again = false → bAcc s b + 4 * bElems s b ≤ s.variant.memBytes → (queueOf s (bQueueDie s b) (bQueue s b)).length < 64 →
        (∀ pos < bElems s b, readF32 t memSpace (bAcc s b + 4 * pos) = mean pos) ∧
        (∀ k, ¬(k % 64 = memSpace ∧ bAcc s b ≤ k / 64 ∧ k / 64 < bAcc s b + 4 * bElems s b) →
          cellGet k t.mem = cellGet k s.mem)) ∧
      (finite → again = false → (queueOf s (bQueueDie s b) (bQueue s b)).length < 64 →
        queueOf t (bQueueDie s b) (bQueue s b) = settled s (bQueueDie s b) (bQueue s b) (insertTok
          ⟨splice (tokenWord (0xFC * 2 ^ 12) 0 false false false false 0xF (bx s b).included.length) 20 8
            (rd s F.sq_PROG_GEN (homeDie (bQueueDie s b)) 0), s.core⟩ (queueOf s (bQueueDie s b) (bQueue s b)))) ∧
      SequencersKept s t)) ∧
  (∀ (b d : Nat) (s : State), (bx s b).deadline = some d → ownerHere s b = true → (bx s b).closed = false →
    (bx s b).state ∈ [1, 2, 6] →
    let s1 := advanceTo (coreAfterNs s d) s
    let x := bx s b
    let i := serveInst s b
    let full : Prop := (memberRanks s).all (rankDone s b) = true
    full ∨ (deadlinePassed s1 b = true ∧ ∀ r ∈ x.begun, rankDone s b r = true) →
    (∀ e ∈ x.ended, (memberRanks s).contains e.1 = true ∨ rankDone s b e.1 = false) → x.redo = [] → x.toPull = [] → x.pulling = [] →
    let inc := (memberRanks s).filter (rankDone s b)
    let ordered := x.unbuilt || bMode s b == 3
    let drop := x.nonfin.mergeSort.filter inc.contains
    let others := drop.filter (· != ownRank s)
    let counts (k : Field) (u : State) : Prop := rd u k i 0 = min (rd s k i 0 + 1) (fieldMax k)
    let announces (ranks : List Nat) (rep veto final : Bool) (more : Prop) (u : State) : Prop :=
      ∃ cs : List (Nat × Nat), (full → veto = false → x.nonfin = [] →
        (∀ k, agreedExp (setIncluded b inc s1) b k = agreedExp s b k) → cs = tableChanges s b) ∧
        ∀ r serial, ReachedAs s (otherRanks s) r serial →
          LinesUp s u serial 1 ((mkOp s 8 b cs.length ranks.length (b2n rep + 2 * b2n veto + 4 * b2n final) (rankMap ranks)).bytes ::
            (blocksOf 2048 cs.length cs).map fun g =>
              (mkOp s 9 b 0 g.length 0 (g.flatMap fun c => natLe 4 (c.1 + c.2 * 2 ^ 24))).bytes) more
    TakesEffect settle False (.bucketDeadline b) s fun u =>
      (bx u b).closed = true ∧
      (x.nonfin = [] →
        (inc.length < bMinRanks s b → (bx u b).state = 5 ∧ (bx u b).vetoed = true ∧ counts F.ex_VETOES u ∧
          announces inc false true true False u) ∧
        (bMinRanks s b ≤ inc.length → (bx u b).included = inc ∧
          (ordered = true → (bx u b).state = 3 ∧ announces inc false false true True u) ∧
          (ordered = false → inc.any x.ovf.contains = true → (bx u b).state = 3 ∧ (bx u b).repeated = true ∧
            counts F.ex_REPEATS u ∧ rdb u F.ex_REPEAT_SEEN i 0 = true ∧ announces inc true false false True u) ∧
          (ordered = false → inc.any x.ovf.contains = false → (bx u b).reducing = true ∧ announces inc false false true False u))) ∧
      (x.nonfin ≠ [] → rdb s F.ex_NF_POLICY i 0 = false → (bx u b).state = 5 ∧ (bx u b).vetoed = true ∧ counts F.ex_VETOES u ∧
        announces inc false true true False u) ∧
      (x.nonfin ≠ [] → rdb s F.ex_NF_POLICY i 0 = true →
        (ordered = true ∨ others = [] → (bx u b).included = inc.filter (fun r => !drop.contains r) ∧
          ∀ k, k = (if ordered then drop.length else b2n (drop.contains (ownRank s))) → 0 < k →
            rd u F.ex_DROPS i 0 = min (rd s F.ex_DROPS i 0 + k) (fieldMax F.ex_DROPS)) ∧
        (ordered = false → others ≠ [] → (bx u b).redo = others.map (fun r => (r, 0)) ∧ (bx u b).redoSub = true ∧
          ∀ r serial, ReachedAs s others r serial →
            LinesUp s u serial 1 ((pieces 32768 0 (bElems s b)).map fun p => (mkOp s 6 b p.1 p.2 2 []).bytes) False)))

/-- R242, R250, R251, R259, R260. What a member does with an owner's messages. A REPLY answers the end operation it
names, and one with code 2 has the operation it answers sent again where its send went to that device (how the
operation is found is the model's reading, log 156); a NOTICE is noted with its count, flags and bitmap, its VETO
joined with those before, and moves the state of a bucket owned elsewhere, but changes nothing more where a FINAL one
came before it (log 73); a TABLE operation sets next exponents; a DELTA writes its elements, added to the current
masters, in the alternate master view and is noted once; a completion message of the step is noted, with the reduced
token the first time (log 75). -/
def Obligations.MemberMessages : Prop :=
  ∀ (f : Frame) (x : XOp) (s : State),
    let n := 16 + x.data.length
    let b := x.bucket
    let a := arrived f s
    let waits : Prop := ∃ b' < bucketCount s, b' ≠ b ∧ (bx s b').updated = false
    (Delivers f n 1 s → GoodOp s 7 x → x.flags ≠ 2 → TakesEffect (followMessage f) (QuietFrame f s) (.reply f x) s fun t =>
        let ends (r : SendRec) : Bool := (r.ends s 0 (2 ^ 32)).any fun e => e.first == x.first && e.count == x.count
        let put (r : SendRec) : SendRec := { r with
          answered := if ends r && !r.answered.contains (x.first, x.count) then r.answered ++ [(x.first, x.count)] else r.answered
          closed := r.closed || (x.flags == 1 && decide (r.first ≤ x.first ∧ x.first < r.first + r.span)) }
        (∀ r' ∈ t.job.sends, r' ∈ s.job.sends ∨ ∃ r ∈ s.job.sends, r.bucket = b ∧ r.op ≠ 3 ∧ r' = put r) ∧
        (∀ r, (s.job.sends.filter fun r => r.bucket == b && r.op != 3) = [r] → put r ∈ t.job.sends) ∧
        t.job.sends.length = s.job.sends.length ∧ t.job.tx = a.job.tx ∧ MemKept s t ∧ SequencersKept s t) ∧
    (Delivers f n 1 s → GoodOp s 7 x → x.flags = 2 → bOwner s b ≠ ownRank s →
      let again := s.job.sends.filter fun r => r.bucket == b && r.op != 3 && r.sentTo == x.rank
      TakesEffect (followMessage f) (QuietFrame f s) (.reply f x) s fun t =>
        (again = [] → t.job.sends = s.job.sends ∧ t.job.tx = a.job.tx) ∧
        (∀ r o, again = [r] →
          (let os := (r.all s).filter fun o => o.first == x.first && o.count == x.count
           os[(r.refused.filter fun p => p == (x.first, x.count)).length % os.length]? = some o) →
          (∀ r' ∈ s.job.sends, r'.id = r.id → r' = r) →
          t.job.sends = (s.job.sends.map fun r' =>
            if r' = r then { r with refused := r.refused ++ [(x.first, x.count)] } else r') ∧
          ∀ serial, serialOf s (bOwner s b) = some serial → LinesUp a t serial 1 [o.bytes] False) ∧
        MemKept s t ∧ SequencersKept s t) ∧
    (Delivers f n 1 s → GoodOp s 8 x → TakesEffect (followMessage f) (QuietFrame f s ∧ waits) (.notice f x) s fun t =>
        let old := bx s b
        let same := old.noticed && old.nFrom == x.rank
        let final := bitOf x.flags 2
        let veto := bitOf x.flags 1 || (same && old.nVeto)
        let late := same && old.final && !final
        (bx t b).nVeto = veto ∧ (late = true → bx t b = { old with nVeto := veto }) ∧
        (late = false → (bx t b).noticed = true ∧ (bx t b).final = final ∧ (bx t b).nRepeat = bitOf x.flags 0 ∧
          (bx t b).nCount = x.count ∧ (bx t b).nMap = mapRanks x.data ∧ (bx t b).nFrom = x.rank ∧
          (bx t b).agreeValid = (old.agreeValid || final) ∧
          (ownerHere s b = false → (bx t b).included = mapRanks x.data ∧
            (bx t b).state = (if final then (if veto then 5 else 4) else 3))) ∧
        (veto = true → rdb t F.ex_STEP_VETOED 0 0 = true) ∧ t.job.tx = a.job.tx ∧ SequencersKept s t) ∧
    (Delivers f n 1 s → GoodOp s 9 x → TakesEffect (followMessage f) (QuietFrame f s) (.table f x) s fun t =>
        (agreeNext s b + bBlocks s b ≤ s.variant.memBytes →
          (∀ i < x.count, (∀ j < x.count, x.word4 j % 2 ^ 24 = x.word4 i % 2 ^ 24 → j = i) →
            readExp t memSpace (agreeNext s b + x.word4 i % 2 ^ 24) = x.word4 i / 2 ^ 24 % 256) ∧
          (∀ k, ¬(k % 64 = memSpace ∧ agreeNext s b ≤ k / 64 ∧ k / 64 < agreeNext s b + bBlocks s b) →
            cellGet k t.mem = cellGet k s.mem)) ∧
        t.job.buckets = s.job.buckets ∧ t.job.tx = a.job.tx ∧ SequencersKept s t) ∧
    (Delivers f n 2 s → GoodOp s 0xA x → TakesEffect (followMessage f) (QuietFrame f s ∧ waits) (.delta f x) s fun t =>
      let c := masterAddr s curMaster b x.first
      let d := masterAddr s altMaster b x.first
      (poisonedWords s memSpace c (2 * x.count) = [] → beyondView s memSpace c (2 * x.count) = false →
        beyondView s memSpace d (2 * x.count) = false →
        (∀ k, (∀ i < 2 * x.count, cellAt s memSpace (d + i) ≠ some k) → cellGet k t.mem = cellGet k s.mem) ∧
        ((∀ i < 2 * x.count, ∃ k, cellAt s memSpace (d + i) = some k) →
          (∀ i j, i < 2 * x.count → j < 2 * x.count → cellAt s memSpace (d + i) = cellAt s memSpace (d + j) → i = j) →
          ∀ k < x.count, readS16 t memSpace (d + 2 * k) =
            deltaElem s b (x.first + k) (x.data.getD (x.deltaExps + k) 0#8) (x.data.getD (k / x.deltaBlock) 0#8).toNat)) ∧
      (bx t b).applied = (if (bx s b).applied.contains (x.first, x.count) then (bx s b).applied
        else (bx s b).applied ++ [(x.first, x.count)]) ∧
      (bx t b).lastSeen = ((bx s b).lastSeen || bitOf x.flags 0) ∧ t.job.tx = a.job.tx ∧ SequencersKept s t) ∧
    (∀ m : Member, Delivers f (memberLen m) 8 s → Member.at' m 1 = stepNo s → isMember s = true →
      let w := Member.at' m 2
      let c := bits w 0 16
      bucketDefined s c = true → TakesEffect (followMessage f) (QuietFrame f s) (.cellarDone f m) s fun t =>
        (bx t c).shardSeen = true ∧ (bx t c).shardNotice = some (bits w 16 13, bitOf w 29, bitOf w 30, mapRanks m.data) ∧
        ((bx s c).shardSeen = true → t.queues = s.queues ∧ MemKept s t) ∧
        ((bx s c).shardSeen = false → (queueOf s (bQueueDie s c) (bQueue s c)).length < 64 →
          queueOf t (bQueueDie s c) (bQueue s c) = settled s (bQueueDie s c) (bQueue s c) (insertTok
            ⟨splice (tokenWord (0xFC * 2 ^ 12) 0 false (bitOf w 30) false false 0xF (bits w 16 13)) 20 8
              (rd s F.sq_PROG_GEN (homeDie (bQueueDie s c)) 0), s.core⟩ (queueOf s (bQueueDie s c) (bQueue s c))) ∧
          MemKept s t) ∧ SequencersKept s t)

/-- R261, R262, R275. Votes, decisions and CRC messages. The leader keeps a member's vote of the step until every
member has voted, and then decides: a veto where any vote carries a flag, and T the first alignment boundary at or
after device time plus COMMIT_LEAD, which a DECISION message gives to every other rank of the view, joining units too
(log 66). A member keeps a decision of its step that comes in time, and applies one that comes late at once, counts
and latches it and withdraws. The partner compares two values of a bucket and counts the check, or ends the copy's
validity; the computation of the values keeps the partner's own and sends the owner's. -/
def Obligations.VotesAndChecks : Prop :=
  (∀ (f : Frame) (m : Member) (s : State), Delivers f (memberLen m) 8 s → (memberRanks s).contains f.srcRank = true →
    Member.at' m 1 = stepNo s →
    let v : Vote := ⟨f.srcRank, bitOf (Member.at' m 2) 0, bitOf (Member.at' m 2) 1, bitOf (Member.at' m 2) 2⟩
    let vs := (s.job.votes.filter fun w => w.rank != f.srcRank) ++ [v]
    let all := (memberRanks s).all fun r => vs.any fun w => w.rank == r
    let veto := (vs.filter fun v => (memberRanks s).contains v.rank).any fun v => v.exchangeVeto || v.nonfinite || v.health
    let a := arrived f s
    let bound := nowNs s + 1000 * max 1 (rd s F.ex_COMMIT_LEAD 0 0)
    TakesEffect (followMessage f) (QuietFrame f s) (.vote f m) s fun t =>
      t.job.votes = vs ∧
      (all = false ∨ leaderRank s ≠ ownRank s → t.job.decision = s.job.decision ∧ t.job.tx = a.job.tx) ∧
      (all = true → leaderRank s = ownRank s → isMember s = true → s.job.decision = none → exchangeStopped s = false →
        memberRanks s ≠ [] →
        ∃ n, t.job.decision = some ⟨stepNo s, apNs s n, veto⟩ ∧
          (∀ r serial, ReachedAs s (otherRanks s) r serial →
            LinesUp a t serial 8 [memberBytes 2 [stepNo s, apNs s n, b2n veto] []] False) ∧
          (s.stage = .clocked → Sound s → nowNs s < 2 ^ 62 → 0 < rd s F.ck_INCR 0 0 → rd s F.ck_INCR 0 0 < 2 ^ 64 →
            nowAp s < n ∧ bound ≤ apNs s n ∧ ∀ m, nowAp s < m → m < n → apNs s m < bound)) ∧
      MemKept s t ∧ SequencersKept s t) ∧
  (∀ (f : Frame) (m : Member) (s : State), Delivers f (memberLen m) 8 s → Member.at' m 1 = stepNo s → inView s = true →
    exchangeStopped s = false →
    let at' := Member.at' m 2
    let vetoed := bitOf (Member.at' m 3) 0
    (nowNs s ≤ at' → TakesEffect (followMessage f) (QuietFrame f s) (.decision f m) s fun t =>
      t.job.decision = some ⟨stepNo s, at', vetoed⟩ ∧ t.job.tx = (arrived f s).job.tx ∧ MemKept s t ∧ SequencersKept s t) ∧
    (at' < nowNs s → programLost s = false → s.commit.stepSet = [] →
      TakesEffect (followMessage f) False (.decision f m) s fun t =>
        let flips (p : Nat) := ((List.range (bucketCount s)).filter fun b => (bx s b).updated && !(bx s b).nVeto &&
          decide (uMPage s b ≤ p ∧ p < uMPage s b + bPages s b)).length
        rd t F.ex_COMMIT_LATE 0 0 = min (rd s F.ex_COMMIT_LATE 0 0 + 1) (fieldMax F.ex_COMMIT_LATE) ∧
        rdb t F.ex_COMMIT_LATE_SEEN 0 0 = true ∧ rdb t F.rs_WITHDRAWN 0 0 = true ∧ rdb t F.rs_WITHDREW_SEEN 0 0 = true ∧
        t.job.silent = true ∧ t.stopAt.isSome ∧
        t.core = 32 * nextAp s ∧ t.job.stepAp = some (nextAp s) ∧
        rd t F.cm_STEP 0 0 = (stepNo s + 1) % 2 ^ F.cm_STEP.width ∧ rd t F.cm_EPOCH 0 0 = stepNo s % 2 ^ F.cm_EPOCH.width ∧
        (vetoed = true → t.selMaster = s.selMaster ∧ t.selState = s.selState) ∧
        (vetoed = false → ∀ p, (flips p = 0 → t.selMaster.contains p = s.selMaster.contains p) ∧
          (flips p = 1 → t.selMaster.contains p = !s.selMaster.contains p)) ∧
        t.job.decision = none ∧ t.job.votes = [] ∧ t.job.sends = [])) ∧
  (∀ (f : Frame) (m : Member) (ps : List (Nat × Nat)) (s : State), Delivers f (memberLen m) 8 s →
    m.words = crcWords (rd s F.cm_EPOCH 0 0) ps → (ps.map (·.1)).Nodup → (∀ p ∈ ps, p.1 < 65536) →
    let due (p : Nat × Nat) : Bool := partnerHere s p.1 && (bx s p.1).crcDue && (bx s p.1).crcOwn.isSome
    let agrees (p : Nat × Nat) : Bool := (bx s p.1).crcOwn == some p.2
    let good := ps.countP fun p => due p && agrees p
    let bad := ps.countP fun p => due p && !agrees p
    TakesEffect (followMessage f) (QuietFrame f s) (.crc f m) s fun t =>
      (∀ p ∈ ps, due p = true → (bx t p.1).crcDue = false ∧
        (agrees p = true → (bx t p.1).cellarValid = (bx s p.1).cellarValid) ∧
        (agrees p = false → (bx t p.1).cellarValid = false)) ∧
      (0 < good → rd t F.rs_CRC_CHECKS 0 0 = min (rd s F.rs_CRC_CHECKS 0 0 + good) (fieldMax F.rs_CRC_CHECKS)) ∧
      (0 < bad → rd t F.rs_CRC_MISMATCH 0 0 = min (rd s F.rs_CRC_MISMATCH 0 0 + bad) (fieldMax F.rs_CRC_MISMATCH) ∧
        rdb t F.rs_CRC_MISMATCH_SEEN 0 0 = true) ∧
      (bad = 0 → MemKept s t) ∧ SequencersKept s t) ∧
  (∀ s : State,
    let due := (List.range (bucketCount s)).filter fun b => (bx s b).crcDue && (bx s b).crcOwn.isNone &&
      (ownerHere s b || partnerHere s b)
    let mine (rank : Nat) := (due.filter fun b => ownerHere s b && bPartner s b == rank).map fun b => (b, momentCrc s b)
    s.newPoison = [] → (∀ b ∈ due, ∀ j < uMoments s b,
      poisonedWords s memSpace (momentAddr s curState b j 0) (2 * bElems s b) = [] ∧
      beyondView s memSpace (momentAddr s curState b j 0) (2 * bElems s b) = false) →
    Completes .crcComputeDone s fun t =>
      (∀ b ∈ due, (ownerHere s b = true → (bx t b).crcDue = false) ∧
        (ownerHere s b = false → (bx s b).crcPeer = none →
          (bx t b).crcOwn = some (momentCrc s b) ∧ (bx t b).crcDue = true)) ∧
      (∀ rank serial, mine rank ≠ [] → serialOf s rank = some serial →
        (∀ b ∈ due, ownerHere s b = true → serialOf s (bPartner s b) = some serial → bPartner s b = rank) →
        LinesUp s t serial 8 ((blocksOf 500 (mine rank).length (mine rank)).map fun g =>
          memberBytes 3 (crcWords (rd s F.cm_EPOCH 0 0) g) []) False) ∧
      ((∀ b ∈ due, (bx s b).crcPeer = none) → MemKept s t) ∧ SequencersKept s t)

/-- R287, R288, R306, R307, R308. Acknowledgements, retransmissions and page walks (where a walk's pages go at the
receiver is the model's operand, log 31). An ACK takes the messages that its mark and map cover from the window, and
those that wait behind it follow in order; an acknowledgement that is due leaves in a frame of its own; a message
whose interval has passed is sent again with its interval doubled up to RETX_MAX; the next page of a walk leaves in
eight step-bound writes; a page whose write was stale is to be sent again. R301, R303, R314, R318. The links and what
a port discards. A link that comes up carries frames; with a clock that has locked, its port is ready; one that falls
is latched and counted and its port is not ready. A discarded frame is counted by its cause, and as received (log 63),
and changes nothing else; an unlisted PTP message off the PTP port is among the PTP discards. R282, R283, R295, R312.
Heartbeats. One leaves on every port with link, and not in loopback (log 157), to each station that the port reaches
and that is not the device (log 101), and to no other; one that is heard gives a joining unit the job's step (log
155), clears its sender's suspicion, and, where it names a later generation that has no place for this device, makes
it withdraw; a member not heard of is suspected, latched and counted. -/
def Obligations.TransportTimers : Prop :=
  ((∀ (f : Frame) (s : State), portHears s f.port = true → sizeAllowed f.size = true → sizeFits f 0 = true →
    fromMember s f = true → f.ackValid = true → TakesEffect settle (ExchangeQuiet s) (.ack f) s fun t =>
      let rest := (txPeer s f.serial).unacked.filter fun m => !ackCovers f.ackMark f.ackMap m.id
      queuedTo t f.serial = (rest ++ (txPeer s f.serial).held).map (fun m => (m.type, (m.produced s).payload)) ∧
      ((txPeer s f.serial).held = [] → (txPeer s f.serial).unacked.length ≤ 1024 →
        (txPeer t f.serial).unacked = rest ∧ (txPeer t f.serial).held = [] ∧ t.out = s.out ∧ FieldsKept rxFields s t) ∧
      MemKept s t ∧ SequencersKept s t) ∧
  (∀ (serial ns : Nat) (r : RxPeer) (pm : Nat × Nat) (s : State), rxPeer s serial = some r → r.ackDue = some ns →
    reach (advanceTo (coreAfterNs s (ns + rd s F.pt_ACK_DELAY 0 0 - 1)) s) serial = some pm →
    rdb s F.pt_LOOPBACK pm.1 0 = false → Completes (.ackDelay serial) s fun t =>
      (rxPeer t serial).map (·.ackDue) = some none ∧ (rxPeer t serial).map (·.mark) = some r.mark ∧ s.core ≤ t.core ∧
      (∃ tag bs, t.out = s.out ++ [.frame pm.1 pm.2 tag 0x88B5 1 bs []] ∧ bs.length = 32 ∧
        (bs.drop 16).take 8 = natLe 8 (r.mark % 2 ^ 32 + ackMapOf r * 2 ^ 32)) ∧ MemKept s t ∧ SequencersKept s t) ∧
  (∀ (serial id ns : Nat) (m : TxMsg) (pm : Nat × Nat) (s : State), (txPeer s serial).unacked.filter (fun m => m.id == id) = [m] →
    m.sentNs = some ns → m.again = true →
    reach (advanceTo (coreAfterNs s (ns + 1000 * m.intervalUs - 1)) s) serial = some pm →
    rdb s F.pt_LOOPBACK pm.1 0 = false → mute s m.type = false → Completes (.retransmit serial id) s fun t =>
      rd t F.pt_RETRANSMITS pm.1 0 = min (rd s F.pt_RETRANSMITS pm.1 0 + 1) (fieldMax F.pt_RETRANSMITS) ∧
      (∃ m', (txPeer t serial).unacked.find? (fun m => m.id == id) = some m' ∧ m'.payload = m.payload ∧
        m'.sentNs = some (nowNs t) ∧ m'.intervalUs = min (2 * m.intervalUs) (max (rd s F.pt_RETX_MAX 0 0) m.intervalUs)) ∧
      (∃ tag bs, t.out = s.out ++ [.frame pm.1 pm.2 tag 0x88B5 (typeClass m.type) bs (m.bad.map (· + 32))] ∧
        bs.drop 32 = m.payload) ∧ s.core ≤ t.core ∧ MemKept s t ∧ SequencersKept s t) ∧
  (∀ (b rank first p : Nat) (master : Bool) (rest : List Nat) (w : PageWalk) (s : State), walkOpen s b = true →
    windowFull s rank = false → findWalk s b rank master = some w → w.left = p :: rest →
    Completes (.pageWalkSend b rank master first) s fun t =>
      let dst := if master then curMaster + 65536 * (uMPage s b + p) else curState + 65536 * (first + p)
      let src := if master then curMaster + 65536 * (uMPage s b + p) else curState + 65536 * (uSPage s b + p)
      (∀ serial, serialOf s rank = some serial → queuedTo t serial = queuedTo s serial ++ (List.range 8).map fun k =>
        (3, natLe 8 ((dst + 8192 * k) % 2 ^ 48 + 2 ^ 48) ++ natLe 8 (stepNo s) ++
          readBytes s memSpace (src + 8192 * k) 8192)) ∧
      (findWalk t b rank master).map (·.left) = some rest ∧
      rd t F.rs_PAGES_SENT 0 0 = (rd s F.rs_PAGES_SENT 0 0 + 1) % 2 ^ F.rs_PAGES_SENT.width ∧ s.core ≤ t.core ∧
      MemKept s t ∧ SequencersKept s t) ∧
  (∀ (f : Frame) (m : Member) (s : State), Delivers f (memberLen m) 8 s →
    let put (w : PageWalk) : PageWalk :=
      match w.sent.find? fun n => n.2 == (f.serial, Member.at' m 1) with
      | some p => { w with left := if w.left.contains p.1 then w.left else p.1 :: w.left, sent := w.sent.filter fun n => n.1 != p.1 }
      | none => w
    TakesEffect (followMessage f) (QuietFrame f s) (.writeStale f m) s fun t =>
      t.job.walks = s.job.walks.map put ∧ t.job.tx = (arrived f s).job.tx ∧ MemKept s t ∧ SequencersKept s t)) ∧
  ((∀ (p : Nat) (s : State), s.stage = .clocked → p < s.variant.ports → rdb s F.pt_ENABLE p 0 = true →
    rdb s F.pt_LINK_UP p 0 = false → Completes (.linkUp p) s fun t =>
      rdb t F.pt_LINK_UP p 0 = true ∧ portCarries t p = true ∧
      rdb t F.pt_AN_DONE p 0 = (rd s F.pt_MEDIA p 0 != 0 && rdb s F.pt_AN_EN p 0) ∧
      pageReady t (unitOf 0x40 p) = s.ptp.everLocked ∧
      (∀ p', p' ≠ p → rdb t F.pt_LINK_UP p' 0 = rdb s F.pt_LINK_UP p' 0) ∧ MemKept s t ∧ SequencersKept s t) ∧
  (∀ (p : Nat) (s : State), s.stage = .clocked → p < s.variant.ports → rdb s F.pt_LINK_UP p 0 = true →
    Completes (.linkDown p) s fun t =>
      rdb t F.pt_LINK_UP p 0 = false ∧ rdb t F.pt_AN_DONE p 0 = false ∧ rdb t F.pt_LINK_DOWN_SEEN p 0 = true ∧
      rd t F.pt_LINK_DOWNS p 0 = min (rd s F.pt_LINK_DOWNS p 0 + 1) (fieldMax F.pt_LINK_DOWNS) ∧
      pageReady t (unitOf 0x40 p) = false ∧ portCarries t p = false ∧ t.job = s.job ∧ t.out = s.out ∧ MemKept s t ∧
      SequencersKept s t) ∧
  (∀ (f : Frame) (why : Discard) (k : Field) (s : State), portHears s f.port = true →
    (why, k) ∈ ([(.fcs, F.pt_FCS_ERRORS), (.size, F.pt_FRAME_SIZE_ERRORS), (.etherType, F.pt_OTHER_ETHERTYPE),
      (.header, F.pt_BAD_FRAMES)] : List (Discard × Field)) → Completes (.discardedFrame f why) s fun t =>
      rd t k f.port 0 = min (rd s k f.port 0 + 1) (fieldMax k) ∧ t.job = s.job ∧ t.out = s.out ∧ MemKept s t ∧
      FieldsKept (k :: rxFields) s t) ∧
  (∀ (f : Frame) (why : Discard) (s : State), portHears s f.port = true →
    why = .address ∨ (why = .ptpType ∧ ptpPort s = some f.port) →
    Completes (.discardedFrame f why) s fun t => t.job = s.job ∧ t.out = s.out ∧ MemKept s t ∧
      FieldsKept rxFields s t) ∧
  (∀ (f : Frame) (s : State), portHears s f.port = true → ptpPort s ≠ some f.port →
    Completes (.discardedFrame f .ptpType) s fun t =>
      rd t F.ck_PTP_DISCARDS 0 0 = min (rd s F.ck_PTP_DISCARDS 0 0 + 1) (fieldMax F.ck_PTP_DISCARDS) ∧
      t.job = s.job ∧ t.out = s.out ∧ MemKept s t ∧ FieldsKept (F.ck_PTP_DISCARDS :: rxFields) s t) ∧
  (∀ (f : Frame) (n : Nat) (s : State), Delivers f n 8 s →
    TakesEffect (followWrite f) (QuietWrite f s) (.discardedFrame f (.subtype n)) s fun t =>
      rd t F.pt_BAD_FRAMES f.port 0 = min (rd s F.pt_BAD_FRAMES f.port 0 + 1) (fieldMax F.pt_BAD_FRAMES) ∧
      t.job.tx = (arrived f s).job.tx ∧ MemKept s t ∧ SequencersKept s t)) ∧
  ((∀ s : State, s.job.silent = false → s.stage = .clocked → Completes .heartbeatSend s fun t =>
    let goes := ((List.range s.variant.ports).filter fun p => portCarries s p && !rdb s F.pt_LOOPBACK p 0).flatMap fun p =>
      (s.job.routes.filter fun r => bitOf r.2.2 p && r.1 != rd s F.id_SERIAL 0 0).map fun r => (p, r.2.1)
    let dest (e : Output) : Option (Nat × Nat) := match e with
      | .frame p mac _ _ _ _ _ => some (p, mac)
      | _ => none
    (∃ fs : List Output, t.out = s.out ++ fs ∧ fs.map dest = goes.map some ∧
      (∀ e ∈ fs, ∃ p mac tag bs, e = .frame p mac tag 0x88B5 1 bs [] ∧
        bs.drop 32 = natLe 8 (stepNo s) ++ natLe 8 (nowNs t))) ∧
    t.job.nextBeat = max s.job.nextBeat (nowNs t) + beatNs s ∧ s.core ≤ t.core ∧ MemKept s t ∧ SequencersKept s t) ∧
  (∀ (f : Frame) (e : ViewEntry) (s : State), portHears s f.port = true → sizeAllowed f.size = true → sizeFits f 16 = true →
    entryOfSerial s f.serial = some e → s.job.needStep = false → Completes (.heartbeat f) s fun t =>
      rd t F.rs_SUSPECT_MAP 0 e.rank = 0 ∧ nmGet 0 e.rank t.job.heard = nowNs s ∧
      (rd s F.rs_GENERATION 0 0 < f.gen → f.dstRank = noRank → 
        rdb s F.rs_MEMBER 0 0 = true ∨ rdb s F.rs_JOINING 0 0 = true → rdb s F.rs_WITHDRAWN 0 0 = false →
        rdb t F.rs_WITHDRAWN 0 0 = true ∧ rdb t F.rs_WITHDREW_SEEN 0 0 = true ∧ t.job.silent = true ∧ t.stopAt.isSome) ∧
      (f.gen ≤ rd s F.rs_GENERATION 0 0 → t.stopAt = s.stopAt ∧
        (f.ackValid = false → FieldsKept (F.rs_SUSPECT_MAP :: rxFields) s t)) ∧ MemKept s t ∧ SequencersKept s t) ∧
  (∀ (f : Frame) (e : ViewEntry) (s : State), portHears s f.port = true → sizeAllowed f.size = true → sizeFits f 16 = true →
    entryOfSerial s f.serial = some e → s.job.needStep = true → rdb s F.rs_JOINING 0 0 = true → e.joining = false →
    f.gen = rd s F.rs_GENERATION 0 0 → f.ackValid = false → Completes (.heartbeat f) s fun t =>
      rd t F.cm_STEP 0 0 = f.beat % 2 ^ F.cm_STEP.width ∧ t.job.needStep = false ∧
      (f.beat ≠ 0 → rd t F.cm_EPOCH 0 0 = (f.beat - 1) % 2 ^ F.cm_EPOCH.width) ∧ MemKept s t ∧
      FieldsKept ([F.rs_SUSPECT_MAP, F.cm_STEP, F.cm_EPOCH] ++ rxFields) s t) ∧
  (∀ (rank : Nat) (s : State), isMember s = true ∨ rdb s F.rs_JOINING 0 0 = true → (memberRanks s).contains rank = true → rank ≠ ownRank s →
    rd s F.rs_SUSPECT_MAP 0 rank = 0 → Completes (.suspect rank) s fun t =>
      rd t F.rs_SUSPECT_MAP 0 rank = 1 ∧ rdb t F.rs_SUSPECT_SEEN 0 0 = true ∧ s.core ≤ t.core ∧
      rd t F.rs_SUSPECTS 0 0 = min (rd s F.rs_SUSPECTS 0 0 + 1) (fieldMax F.rs_SUSPECTS) ∧ MemKept s t ∧
      FieldsKept [F.rs_SUSPECT_MAP, F.rs_SUSPECT_SEEN, F.rs_SUSPECTS, F.com_SAT_LO, F.com_SAT_HI, F.com_SAT_TBL] s t))

/-! ### Training steps, membership and queries -/

/-- R15, R16, R42, R98, R99, R265, R267. The health commands, on a live page: both vectors of the mixer test agree and
MIXER_OK shows it; RUN_CLEAR ends the runs and starvation of every layer; DETECTOR_RESET empties the running mean.
After the period of a step commit the drift check compares its next column, from the first of a new epoch on, array by
array (the order of the arrays and the places of the masters are the model's choice, log 118): a column past its
threshold is queued with its key, one whose drift is not finite is counted, no other is touched, and the last column
of an array reports the epoch. The pantry of a group is refreshed from memory at the start of a slot of its frame,
once a step or when it is due, before a product that starts there and after every commit due by then, with a token
while the group's sequencer runs (log 78). -/
def Obligations.TrainingEvents : Prop :=
  (∀ s : State, livePage s (unitOf 0x60 0) = true → Completes .mixerTest s fun t => rdb t F.he_MIXER_OK 0 0 = true ∧ rdb t F.he_MIXER_FAIL 0 0 = false ∧
    MemKept s t ∧ FieldsKept [F.he_MIXER_OK, F.he_MIXER_FAIL] s t) ∧
  (∀ s : State, livePage s (unitOf 0x60 0) = true → Completes .runClear s fun t => (∀ l, rd t F.he_ZERO_RUN 0 l = 0 ∧ rd t F.he_STARVED 0 l = 0) ∧
    rd t F.he_STARVED_LAYERS 0 0 = 0 ∧ rd t F.he_FIRST_STARVED 0 0 = 0 ∧ MemKept s t ∧
    FieldsKept [F.he_ZERO_RUN, F.he_STARVED, F.he_STARVED_LAYERS, F.he_FIRST_STARVED] s t) ∧
  (∀ s : State, livePage s (unitOf 0x60 0) = true → Completes .detectorReset s fun t => rd t F.he_SAMPLES 0 0 = 0 ∧ rd t F.he_EWMA 0 0 = 0 ∧
    (∀ x : Slot, x.f = F.he_WARM → derivedField t (unitOf 0x60 0) x = some (b2n (decide (rd s F.he_WARMUP 0 0 = 0)))) ∧
    MemKept s t ∧ FieldsKept [F.he_SAMPLES, F.he_EWMA, F.com_SAT_LO, F.com_SAT_HI] s t) ∧
  (∀ (s : State) (n : Nat), s.job.stepAp = some n →
    let s1 := advanceTo (32 * (n + 1)) s
    let e := rd s F.cm_EPOCH 0 0
    let k := match s.drift with
      | some (e', k) => if e' = e then k else 0
      | none => 0
    let die := k / 524288
    let l := k / 512 % 1024
    let j := k % 512
    let p := physOf s die l
    (16 ≤ die → exec .driftCheck s = .next s1) ∧
    let found := driftOf s1 die p l (Config.paddingRows die l) j (Config.columnMasters die l j)
    (die < 16 → Completes .driftCheck s fun t =>
      t.core = s1.core ∧ t.drift = some (e, k + 1) ∧
      (∀ key, found = .queued key → ∃ r ∈ (arrX t die p).queue, r.col = j ∧ key ≤ r.key) ∧
      (∀ c, c ≠ j ∨ (∀ key, found ≠ .queued key) →
        (arrX t die p).queue.filter (·.col == c) = (arrX s die p).queue.filter (·.col == c)) ∧
      (found = .nonfinite → rd t F.ag_NONFINITE_COLS (16 * die + l / 64) 0 =
        min (rd s F.ag_NONFINITE_COLS (16 * die + l / 64) 0 + 1) (fieldMax F.ag_NONFINITE_COLS)) ∧
      (j = 511 → rdA t F.ag_DRIFT_EPOCH die p 0 = e % 2 ^ F.ag_DRIFT_EPOCH.width) ∧
      (CleanReads [⟨memSpace, Config.columnMasters die l j, 2 * (512 - Config.paddingRows die l)⟩] s → MemKept s t ∧
        FieldsKept [F.ag_QUEUE_DEPTH, F.ag_DRIFT_MAX, F.ag_NONFINITE_COLS, F.ag_DRIFT_EPOCH, F.com_SAT_LO, F.com_SAT_HI,
          F.com_SAT_TBL] s t))) ∧
  (∀ s : State, s.job.stepAp = none → exec .driftCheck s = .next s) ∧
  (∀ (inst ap : Nat) (rows : List (Nat × Nat)) (s : State), inst < 256 →
    nmGet 0 inst s.refreshed ≠ stepNo s ∨ s.refreshDue.contains inst = true → nextAp s ≤ ap →
    (slotAt s inst ap).map (·.1) = some ap → rowsGiven s inst rows = true → productBegun s inst ap = false →
    afterCommit s ap = true → changeDue s ap = false → (∀ e ∈ rows, CleanReads [⟨memSpace, e.2, 1024⟩] s) →
    (∀ p ∈ groupArrays s inst, ∀ e ∈ (arrX s (inst / 16) p).cols, CleanReads [⟨memSpace, e.2.addr, 1024⟩] s) →
    Completes (.pantryRefresh inst ap rows) s fun t =>
      let die := inst / 16
      let seq : SeqId := ⟨die / 4, 89 + 16 * (die % 4) + inst % 16⟩
      let queue := 16 * (inst % 16) + 15
      t.core = 32 * ap ∧ nmGet 0 inst t.refreshed = stepNo s ∧ t.refreshDue.contains inst = false ∧
      (∀ l < 64, let p := physOf s die (64 * (inst % 16) + l)
        (∀ l' < 64, physOf s die (64 * (inst % 16) + l') = p → l' = l) →
        (∀ k r a, (marks s die p)[k]? = some (some r) → smFind (l * 8 + k) rows = some a →
          nmGet [] k (arrX t die p).outRows = mastersAt s a) ∧
        (arrX t die p).cols = (arrX s die p).cols.map fun kc =>
          if kc.2.loaded then (kc.1, pantryEntry s die p kc.2.col kc.2.addr) else kc) ∧
      (seqBusy s seq = false → t.queues = s.queues ∧ MemKept s t ∧ FieldsKept [F.ag_IN_BYPASS, F.ag_WRITE_STATE] s t) ∧
      (seqBusy s seq = true → (queueOf s (8 + die) queue).length < 64 →
        queueOf t (8 + die) queue = settled s (8 + die) queue (insertTok
          ⟨splice (tokenWord (0xFD * 2 ^ 12) 0 false false false false 0xF 0) 20 8
            (rd s F.sq_PROG_GEN (homeDie (8 + die)) 0), 32 * ap⟩ (queueOf s (8 + die) queue)) ∧
        MemKept s t) ∧ SequencersKept s t)

/-- R14, R255, R261, R263. The step commit, with no step-boundary set held: in an alignment period that begins, STEP
advances and the step is EPOCH; where it is not vetoed the master pages of the updated buckets change halves and no
others, where it is vetoed none does and the veto is counted; every bucket opens and no vote, decision or kept send of
the step remains. -/
def Obligations.StepCommit : Prop :=
  ∀ (s : State) (d : Decision) (n : Nat), s.job.decision = some d → d.step = stepNo s → exchangeStopped s = false →
    programLost s = false → stepAp s = some n → s.commit.stepSet = [] → Completes .stepCommit s fun t =>
      let flips (p : Nat) := ((List.range (bucketCount s)).filter fun b => (bx s b).updated && !(bx s b).nVeto &&
        decide (uMPage s b ≤ p ∧ p < uMPage s b + bPages s b)).length
      s.core ≤ t.core ∧ t.core = 32 * n ∧ t.job.stepAp = some n ∧
      rd t F.cm_STEP 0 0 = (stepNo s + 1) % 2 ^ F.cm_STEP.width ∧ rd t F.cm_EPOCH 0 0 = stepNo s % 2 ^ F.cm_EPOCH.width ∧
      (d.vetoed = true → t.selMaster = s.selMaster ∧ t.selState = s.selState ∧
        rd t F.ex_COMMITS_VETOED 0 0 = min (rd s F.ex_COMMITS_VETOED 0 0 + 1) (fieldMax F.ex_COMMITS_VETOED) ∧
        rdb t F.ex_VETO_SEEN 0 0 = true) ∧
      (d.vetoed = false → rd t F.ex_COMMITS_VETOED 0 0 = rd s F.ex_COMMITS_VETOED 0 0 ∧
        ∀ p, (flips p = 0 → t.selMaster.contains p = s.selMaster.contains p) ∧
          (flips p = 1 → t.selMaster.contains p = !s.selMaster.contains p)) ∧
      (∀ b < bucketCount s, (bx t b).state = 1 ∧ (bx t b).updated = false ∧ (bx t b).included = []) ∧
      t.job.decision = none ∧ t.job.votes = [] ∧ t.job.sends = [] ∧ rdb t F.ex_VOTE_SENT 0 0 = false ∧
      SequencersKept s t

/-- R212, R263, R280, R281, R285, R360. A membership commit in its alignment period, with no step commit to come
before it, whose second check passes is applied: the generation, MEMBER and JOINING, the rank, MEMBERS and the
effective intervals are the view's, the commit is counted on both pages, and the staged fields it holds take their
values. One whose second check fails changes none of these. -/
def Obligations.MembershipCommit : Prop :=
  ∀ (s : State) (v : PendingView) (me : ViewEntry) (n : Nat), rd s F.cm_STATE 0 0 = 2 → rdb s F.cm_MEMBERSHIP 0 0 = true →
    s.job.pendingView = some v → v.entries.find? (fun e => e.serial == rd s F.id_SERIAL 0 0) = some me →
    memberAp s v = some n → stepFirst s n = false → StagedOnly s.commit.snapshot →
    let check := checkCommit s.commit.snapshot s.commit.when' (advanceTo (32 * n) s)
    Completes .membershipCommit s fun t =>
      t.core = max s.core (32 * n) ∧
      (check = none → rd t F.cm_STATE 0 0 = 3 ∧ rd t F.rs_GENERATION 0 0 = v.gen % 2 ^ F.rs_GENERATION.width ∧
        rdb t F.rs_MEMBER 0 0 = !me.joining ∧ rdb t F.rs_JOINING 0 0 = me.joining ∧
        (∀ d < 4, rd t F.ex_RANK d 0 = me.rank % 2 ^ F.ex_RANK.width ∧
          rd t F.ex_MEMBERS d 0 = (v.entries.filter fun e => !e.joining).length % 2 ^ F.ex_MEMBERS.width) ∧
        rdb t F.rs_MIRROR 0 0 = v.mirror ∧
        rd t F.rs_EFF_SHELF_INTERVAL 0 0 = effInterval v.entries v.shelf % 2 ^ F.rs_EFF_SHELF_INTERVAL.width ∧
        rd t F.rs_CRC_INTERVAL 0 0 = v.crc % 2 ^ F.rs_CRC_INTERVAL.width ∧
        rd t F.rs_MEMBERSHIP_COMMITS 0 0 = min (rd s F.rs_MEMBERSHIP_COMMITS 0 0 + 1) (fieldMax F.rs_MEMBERSHIP_COMMITS) ∧
        rd t F.cm_COMMITS_APPLIED 0 0 = min (rd s F.cm_COMMITS_APPLIED 0 0 + 1) (fieldMax F.cm_COMMITS_APPLIED) ∧
        TakenIn s.commit.snapshot s t) ∧
      (check ≠ none → rd t F.cm_STATE 0 0 = 4 ∧ rd t F.cm_RESULT 0 0 = 4 ∧ t.job.pendingView = none ∧ t.job.view = s.job.view ∧
        rd t F.rs_GENERATION 0 0 = rd s F.rs_GENERATION 0 0 ∧
        rd t F.cm_COMMITS_FAILED 0 0 = min (rd s F.cm_COMMITS_FAILED 0 0 + 1) (fieldMax F.cm_COMMITS_FAILED) ∧ MemKept s t)

/-- R218, R310, R331, R332. A query request: the first reason to refuse it is answered on its port and counted;
without one it joins the endpoint's queries with its arrival, its promised time and its input. A descriptor of the
submission ring whose turn it is likewise, of which a failed read disables the ring; it arrives at the sender's time
(log 90). -/
def Obligations.QueryRequests : Prop :=
  (∀ (f : Frame) (ep count tag : Nat) (input : List Nat) (s : State), portHears s f.port = true → sizeAllowed f.size = true →
    sizeFits f (8 + 2 * input.length) = true → ep < 256 →
    let a := arrived f s
    Completes (.queryReq f ep count tag input) s fun t =>
      (∀ code, refusal s ep count false = some code → t.queries = s.queries ∧
        rd t F.qe_REFUSED 0 ep = min (rd s F.qe_REFUSED 0 ep + 1) (fieldMax F.qe_REFUSED) ∧
        ∃ bs, t.out = a.out ++ [.frame f.port f.mac f.tag 0x88B5 0 bs []] ∧
          bs.drop 32 = respWords ep code 0 tag (rxNs s f) 0 (txStamp s f.port) (rd s F.cm_EPOCH 0 0)) ∧
      (refusal s ep count false = none → t.out = a.out ∧
        rd t F.qe_ADMITTED 0 ep = min (rd s F.qe_ADMITTED 0 ep + 1) (fieldMax F.qe_ADMITTED) ∧
        ∃ q, t.queries = s.queries ++ [q] ∧ q.ep = ep ∧ q.clientTag = tag ∧ q.arrival = rxNs s f ∧ q.input = input ∧
          q.promised = (rxNs s f + rd s F.qe_PROMISE_NS 0 ep) % 2 ^ 64 ∧ q.started = false ∧ q.next = 0 ∧
          q.src = .frame f.port f.mac f.tag f.serial f.srcRank f.dstRank ∧ (∀ r ∈ s.queries, r.ep = ep → r.k ≠ q.k)) ∧
      MemKept s t ∧ SequencersKept s t) ∧
  (∀ (r : Nat) (w input : List Nat) (bad : Bool) (s : State), ringReads s r = true →
    let w0 := w.getD 0 0
    let ep := bits w0 0 8
    let why := refusal s ep (bits w0 16 16) (badDescriptor s w)
    Completes (.queryDescriptor r w input bad) s fun t => t.lastRing = r ∧
      (bad = true → rdb t F.hi_RING_ENABLE 0 (4 + r) = false ∧ rdb t F.hi_RING_ERROR_SEEN 0 0 = true ∧
        rd t F.hi_RING_ERRORS 0 0 = min (rd s F.hi_RING_ERRORS 0 0 + 1) (fieldMax F.hi_RING_ERRORS) ∧ t.queries = s.queries) ∧
      (bad = false → rd t F.hi_PART_INDEX 0 (4 + r) = (rd s F.hi_PART_INDEX 0 (4 + r) + 1) % 2 ^ F.hi_PART_INDEX.width) ∧
      (bad = false → why.isSome = true → t.queries = s.queries ∧
        rd t F.qe_REFUSED 0 ep = min (rd s F.qe_REFUSED 0 ep + 1) (fieldMax F.qe_REFUSED)) ∧
      (bad = false → why = none → rd t F.qe_ADMITTED 0 ep = min (rd s F.qe_ADMITTED 0 ep + 1) (fieldMax F.qe_ADMITTED) ∧
        ∃ q, t.queries = s.queries ++ [q] ∧ q.ep = ep ∧ q.clientTag = bits w0 32 32 ∧ q.arrival = nowNs s ∧ q.input = input ∧
          q.src = .ring r (rd s F.hi_PART_INDEX 0 (4 + r)) (w.getD 2 0) ∧ q.started = false) ∧
      MemKept s t ∧ SequencersKept s t)

/-- R156, R215, R216, R218. A chain: at its origin the query's input lies in its buffer (whose place is opaque, log
27); a vector entry that reads nothing early and no poisoned word computes from the state at its issue and its writes
are to land, and one whose writes overlap its reads writes nothing and is a program-fatal error; a product entry whose
group is not ready does not run; one whose group is ready, with nothing left to land before its read cycle and no
commit before its first integration period, brings time to that period, and its writes are to land in the period that
R207 gives. -/
def Obligations.ChainCommands : Prop :=
  (∀ (e : Nat) (q : Query) (s : State), nextStart s e = some q → landedBy s (32 * q.origin) = true →
    let a := Config.queryBuffer (e + 256 * q.k) % 2 ^ 48
    let bytes := (List.range (epInput s e)).flatMap fun i => natLe 2 (q.input.getD i 0)
    let space := dieSpace (epDie s e)
    Completes (.chainStart e) s fun t =>
      t.core = max s.core (32 * q.origin) ∧
      (epDie s e < 4 → a + bytes.length ≤ scratchBytes → readBytes t space a bytes.length = bytes ∧
        ∀ k, ¬(k % 64 = space ∧ a ≤ k / 64 ∧ k / 64 < a + bytes.length) → cellGet k t.mem = cellGet k s.mem) ∧
      (∃ q' ∈ t.queries, q'.ep = e ∧ q'.k = q.k ∧ q'.started = true ∧ q'.input = q.input) ∧
      FieldsKept [F.qe_OUTSTANDING] s t) ∧
  (∀ (e k : Nat) (codes : List (Nat × Int)) (q : Query) (c : Cmd) (s : State), findQuery s e k = some q → q.started = true →
    (chainOf s e).entries[q.next]? = some c →
    (c.cls ≠ 5 → let at' := 32 * (q.origin + c.issueOffset)
      let r := vectorWork c.op { chainCtx s e k (chainOf s e) with tag := epTag e } c (asOf at' (advanceTo at' s))
      landedBy s at' = true → earlySummary (advanceTo at' s) at' r.reads = none → CleanReads r.reads (advanceTo at' s) →
      (r.overlap = true → Completes (.chainEntry e k codes) s fun t =>
        (∃ p, t.tracker = s.tracker ++ [p] ∧ p.die = 16 + e ∧ p.tag = k * 64 + q.next ∧ p.writes = []) ∧
        t.stopAt.isSome ∧ (∃ q' ∈ t.queries, q'.ep = e ∧ q'.k = k ∧ q'.next = q.next + 1)) ∧
      (r.overlap = false → Completes (.chainEntry e k codes) s fun t =>
        (∃ p, t.tracker = s.tracker ++ [p] ∧ p.die = 16 + e ∧ p.tag = k * 64 + q.next ∧ p.writes = r.writes ∧
          p.land = some (at' + r.lat.getD 0) ∧ p.landed = false) ∧
        busyUntil t (engineKey (epDie s e) 79) = at' + r.occ ∧
        (∃ q' ∈ t.queries, q'.ep = e ∧ q'.k = k ∧ q'.next = q.next + 1) ∧ MemKept s t ∧ SequencersKept s t)) ∧
    (c.cls = 5 → let off := q.origin + c.issueOffset
      let ap := off - 1
      let x := { chainCtx s e k (chainOf s e) with tag := epTag e }
      landedBy s (32 * ap) = true → productHeld s (c.waitA / 16) x c ap = false →
      (groupReady s c.waitA = false → Completes (.chainEntry e k codes) s fun t =>
        (∃ q' ∈ t.queries, q'.ep = e ∧ q'.k = k ∧ q'.next = q.next ∧ q'.unready = true) ∧ t.tracker = s.tracker ∧
        MemKept s t ∧ SequencersKept s t) ∧
      (groupReady s c.waitA = true → Completes (.chainEntry e k codes) s fun t =>
        let s1 := advanceTo (32 * ap) s
        let o := productWork x c (c.waitA / 16) c.waitA off codes (asOf (readCycle (c.waitA / 16) x c ap) s1) s1
        t.core = max s.core (32 * off) ∧ t.tracker.length = s.tracker.length + 1 ∧
        (∃ p ∈ t.tracker, p.die = 16 + e ∧ p.tag = k * 64 + q.next ∧ p.landed = false ∧ p.land = some (32 * (off + o.land)) ∧
          p.writes = o.res.writes) ∧
        (∃ q' ∈ t.queries, q'.ep = e ∧ q'.k = k ∧ q'.next = q.next + 1) ∧ SequencersKept s t)))

/-- R219, R220, R310, R311, R333. A query that may complete: its response leaves on its port, or its output and
completion entry go to the host's memory, it leaves the endpoint's queries and is counted by its status; where its
port has no link the response waits as it then stands, leaves when the link comes up by the promised time, and is
counted as undelivered when that time passes. -/
def Obligations.QueryCompletion : Prop :=
  (∀ (e k p mac serial src dst c st : Nat) (tag : Option Nat) (out : List Byte) (q : Query) (s : State),
    findQuery s e k = some q → q.src = .frame p mac tag serial src dst → q.ready = some (c, st, out) → readyOn s p = [q] →
    nowNs s ≤ q.promised → s.stage = .clocked → p < s.variant.ports → rdb s F.pt_ENABLE p 0 = true → rdb s F.pt_LINK_UP p 0 = false →
    rdb s F.pt_LOOPBACK p 0 = false → Completes (.linkUp p) s fun t =>
      (∃ bs rest, t.out = s.out ++ [.frame p mac tag 0x88B5 0 bs []] ++ rest ∧ bs.drop 32 =
        respWords e st (out.length / 2) q.clientTag q.arrival q.promised (txStamp s p) q.step ++ out) ∧
      findQuery t e k = none ∧ MemKept s t ∧ SequencersKept s t) ∧
  ∀ (e k : Nat) (q : Query) (st : Nat) (s : State), findQuery s e k = some q → q.ready = none → queryStatus s q = some st →
    let out := queryBytes s q st
    let count := if st = 8 then F.qe_UNAVAILABLE else if st = 9 then F.qe_STALE else F.qe_COMPLETED
    let counted (t : State) : Prop := rd t count 0 e = min (rd s count 0 e + 1) (fieldMax count) ∧ findQuery t e k = none ∧
      (∀ e' k', ¬(e' = e ∧ k' = k) → findQuery t e' k' = findQuery s e' k')
    (∀ p mac tag serial src dst, q.src = .frame p mac tag serial src dst →
      (portCarries s p = false → Completes (.queryResp e k) s fun t =>
        findQuery t e k = some { q with ready := some (s.core, st, out) } ∧ t.out = s.out ∧ MemKept s t ∧
        FieldsKept [F.qe_OUTSTANDING] s t) ∧
      (portCarries s p = true → rdb s F.pt_LOOPBACK p 0 = false → Completes (.queryResp e k) s fun t =>
        (∃ bs, t.out = s.out ++ [.frame p mac tag 0x88B5 0 bs []] ∧ bs.drop 32 =
          respWords e st (out.length / 2) q.clientTag q.arrival q.promised (txStamp s p) q.step ++ out) ∧
        counted t ∧ (q.promised < txStamp s p → rdb t F.qe_LATE_SEEN 0 e = true ∧
          rd t F.qe_LATE 0 e = min (rd s F.qe_LATE 0 e + 1) (fieldMax F.qe_LATE)) ∧ MemKept s t ∧ SequencersKept s t) ∧
      (portCarries s p = false → Completes (.queryUndelivered e k) s fun t =>
        rd t F.qe_UNDELIVERED 0 e = min (rd s F.qe_UNDELIVERED 0 e + 1) (fieldMax F.qe_UNDELIVERED) ∧ findQuery t e k = none ∧
        t.out = s.out ∧ s.core ≤ t.core ∧ MemKept s t ∧ SequencersKept s t)) ∧
    (∀ r i o, q.src = .ring r i o → ringWritable s r = true → Completes (.queryResp e k) s fun t =>
      let n := rd s F.hi_PART_INDEX 0 (20 + r)
      let place := rd s F.hi_RING_BASE 0 (20 + r) + 64 * (n % hostRingSize s (20 + r))
      t.out = s.out ++ (if out = [] then [] else [.hostWrite o out]) ++ [.hostWrite place
        (respWords e st (out.length / 2) q.clientTag q.arrival q.promised (nowNs s) q.step ++ natLe 8 (i % 2 ^ 32) ++ natLe 8 0 ++
          natLe 8 (hostPhase s (20 + r) n))] ∧
      rd t F.hi_PART_INDEX 0 (20 + r) = (n + 1) % 2 ^ F.hi_PART_INDEX.width ∧ counted t ∧ MemKept s t ∧ SequencersKept s t)

/-! ### The arrays, memory and the shelf -/

/-- R76, R77, R78, R82, R84, R85. The sweep of an array (that time comes to the period that an event names is the
model's choice, log 125, and so is the page that shows a spare's counts, log 126). A conversion starts where the array
is idle and none is in progress; at its end, five alignment periods later, the position moves on and an array of a
group counts the conversion, unless a write slot began and aborts it. A complete standby table of an array in service
becomes the current one at its group's frame boundary, where no commit is due first and no product has begun. An array
not swept within STALE_LIMIT, which counts from device time 0 where no cycle was completed since reset (the model's
choice, log 149), raises the event, its latch and its count. -/
def Obligations.SweepConversions : Prop :=
  (∀ (die p ap : Nat) (s : State), arrayLive s die p = true → s.core ≤ 32 * ap → (sweepOf s die p).run = none →
    sweepAllowed s die p = true → foregroundFree s die p ap = true → writeTakes s die p ap = false →
    Completes (.sweepConversionStart die p ap) s fun t =>
      t.core = 32 * ap ∧ (sweepOf t die p).run = some ap ∧ MemKept s t ∧ FieldsKept [] s t) ∧
  (∀ (die p n : Nat) (codes : List (Nat × Int)) (tripped : List Nat) (s : State), (sweepOf s die p).run = some n →
    die < 16 → p < 1040 →
    let aborted := (List.range 5).any fun k => writeSlotStart s die p (n + k + 1)
    Completes (.sweepConversionDone die p codes tripped) s fun t =>
      t.core = max s.core (32 * (n + 5)) ∧ (sweepOf t die p).run = none ∧
      (aborted = true → rd t F.ag_SWEEP_ABORTS (pageInst s die p) 0 =
          min (rd s F.ag_SWEEP_ABORTS (pageInst s die p) 0 + 1) (fieldMax F.ag_SWEEP_ABORTS) ∧
        sweepPos t die p = sweepPos s die p) ∧
      (aborted = false → sweepPos t die p = (sweepPos s die p + 1) % 1600 ∧
        (∀ g, groupFor s die p = some g →
          rd t F.ag_SWEEP_DONE g 0 = (rd s F.ag_SWEEP_DONE g 0 + 1) % 2 ^ F.ag_SWEEP_DONE.width) ∧
        (groupFor s die p = none → FieldKept F.ag_SWEEP_DONE.fid s t)) ∧ MemKept s t ∧ SequencersKept s t) ∧
  (∀ (die p g ap e : Nat) (s : State), groupFor s die p = some g → rdA s F.ag_STANDBY_READY die p 0 = 1 →
    (sweepOf s die p).readyAt ≤ ap → slotAt s g ap = some (ap, e) → (slotIn (rd s F.ag_FRAME_PHASE g 0) ap).1 % 64 = 0 →
    s.core ≤ 32 * ap → changeDue s ap = false → ((arrX s die p).fgFrom = ap → (arrX s die p).fgUntil ≤ ap) → die < 16 →
    p < 1040 → Completes (.tableSwap die p ap) s fun t =>
      t.core = 32 * ap ∧ rdA t F.ag_STANDBY_READY die p 0 = 0 ∧
      (∀ j < 512, rdA t F.ag_TRIM_CUR die p j = rdA s F.ag_TRIM_STBY die p j % 2 ^ F.ag_TRIM_CUR.width ∧
        rdA t F.ag_COLSUM_CUR die p j = if rdA s F.ag_STBY_MEASURED die p j = 1 then
          rdA s F.ag_COLSUM_STBY die p j % 2 ^ F.ag_COLSUM_CUR.width else rdA s F.ag_COLSUM_CUR die p j) ∧
      rd t F.ag_TABLE_SWAPS (pageInst s die p) 0 =
        min (rd s F.ag_TABLE_SWAPS (pageInst s die p) 0 + 1) (fieldMax F.ag_TABLE_SWAPS) ∧ MemKept s t ∧
      FieldsKept [F.ag_TRIM_CUR, F.ag_COLSUM_CUR, F.ag_WRITE_STATE, F.ag_STANDBY_READY, F.ag_TABLE_SWAPS, F.com_SAT_LO,
        F.com_SAT_HI, F.com_SAT_TBL] s t) ∧
  (∀ (die p : Nat) (s : State), arrayLive s die p = true → (sweepOf s die p).staleSaid = false →
    rd s F.ag_STALE_LIMIT (pageInst s die p) 0 ≤ usSince s (sweepOf s die p).lastNs → Completes (.sweepStale die p) s fun t =>
      rdb t F.ag_SWEEP_STALE (pageInst s die p) 0 = true ∧ (sweepOf t die p).staleSaid = true ∧
      rd t F.cd_EVENTS (die / 4) 0 = (rd s F.cd_EVENTS (die / 4) 0 + 1) % 2 ^ F.cd_EVENTS.width ∧
      (∃ w1 w2, t.out = s.out ++ [.event (die / 4) (nowNs s) w1 w2] ∧ w1 / 2 ^ 24 % 16 = 8) ∧ MemKept s t ∧
      FieldsKept [F.ag_SWEEP_STALE, F.cd_EVENTS] s t)

/-- R86, R112, R113. The cupping verify, load hold and the power-down of an array die, on live pages. A verify of a
group not in use starts on every array of the group, whose page is not ready until it is over; in use it is refused,
and so is one for a die without supply (the model's choice, log 128). LOAD_HOLD holds a group that is not in use and
ends in a verify. SLEEP is refused while a group of the die is in use; a die whose supply goes has its ledgers on the
shelf and no ready group, and after its return its groups verify. -/
def Obligations.VerifyAndSleep : Prop :=
  (∀ (inst : Nat) (s : State), inst < 256 → livePage s (groupUnit inst) = true →
    (groupInUse s inst = true ∨ s.dark.contains (inst / 16) = true → Completes (.verifyReq inst) s fun t =>
      rdb t F.ag_VERIFY_REFUSED inst 0 = true ∧ t.arrs = s.arrs ∧ MemKept s t ∧ FieldsKept [F.ag_VERIFY_REFUSED] s t) ∧
    (groupInUse s inst = false → s.dark.contains (inst / 16) = false → Completes (.verifyReq inst) s fun t =>
      VerifyStarted inst t ∧ MemKept s t ∧ SequencersKept s t)) ∧
  (∀ (inst : Nat) (loads : List (Nat × Nat)) (s : State), inst < 256 → verifyLeft s inst = 0 →
    rdb s F.ag_VERIFY_RUNNING inst 0 = true → (∀ p ∈ groupArrays s inst, (sweepOf s (inst / 16) p).wakeCols = [] ∧
      (arrX s (inst / 16) p).failed = false) → rdb s F.fa_DEVICE_FATAL 0 0 = false → s.dark.contains (inst / 16) = false →
    rdb s F.ag_LOAD_HOLD inst 0 = false → epochsMixed s inst = false → Completes (.verifyComplete inst loads) s fun t =>
      groupReady t inst = true ∧ rdb t F.ag_VERIFY_RUNNING inst 0 = false ∧ MemKept s t ∧
      FieldsKept [F.ag_VERIFY_RUNNING, F.com_READY, F.com_REASON, F.com_DETAIL] s t) ∧
  (∀ (inst : Nat) (s : State), inst < 256 → livePage s (groupUnit inst) = true →
    (groupInUse s inst = true → Completes (.loadHold inst true) s fun t =>
      rdb t F.ag_LOAD_REFUSED inst 0 = true ∧ MemKept s t ∧ FieldsKept [F.ag_LOAD_REFUSED] s t) ∧
    (groupInUse s inst = false → rdb s F.ag_LOAD_HOLD inst 0 = false → Completes (.loadHold inst true) s fun t =>
      rdb t F.ag_LOAD_HOLD inst 0 = true ∧
      (s.dark.contains (inst / 16) = false → groupReady t inst = false ∧ rdU t F.com_REASON (groupUnit inst) 0 = 7) ∧
      MemKept s t ∧ FieldsKept (F.ag_LOAD_HOLD :: if s.dark.contains (inst / 16) then [] else
        [F.com_READY, F.com_REASON, F.com_DETAIL]) s t) ∧
    (rdb s F.ag_LOAD_HOLD inst 0 = true → Completes (.loadHold inst false) s fun t =>
      rdb t F.ag_LOAD_HOLD inst 0 = false ∧ (s.dark.contains (inst / 16) = false → VerifyStarted inst t) ∧ MemKept s t ∧
      SequencersKept s t)) ∧
  (∀ (die : Nat) (v : Bool) (s : State), die < 16 → livePage s (unitOf 0x10 die) = true →
    (v = true → (dieGroups die).any (groupInUse s) = true → Completes (.sleep die v) s fun t =>
      rdb t F.ad_SLEEP_REFUSED die 0 = true ∧ MemKept s t ∧ FieldsKept [F.ad_SLEEP_REFUSED] s t) ∧
    (v = false ∨ (dieGroups die).any (groupInUse s) = false → Completes (.sleep die v) s fun t =>
      rdb t F.ad_SLEEP die 0 = v ∧ MemKept s t ∧ FieldsKept [F.ad_SLEEP] s t)) ∧
  (∀ (die : Nat) (s : State), die < 16 →
    (rdb s F.ad_SLEEP die 0 = true → s.dark.contains die = false → Completes (.arrayDiePoweredDown die) s fun t =>
      t.dark = s.dark ++ [die] ∧ LedgersSaved (· == die) s t ∧ (∀ g ∈ dieGroups die, groupReady t g = false) ∧
      (∀ p < 2048, (arrX t die p).write = none ∧ (sweepOf t die p).run = none ∧ (arrX t die p).cells = (arrX s die p).cells) ∧
      MemKept s t ∧ SequencersKept s t) ∧
    (rdb s F.ad_SLEEP die 0 = false → s.dark.contains die = true → Completes (.arrayDiePoweredUp die) s fun t =>
      t.dark.contains die = false ∧ (∀ g ∈ dieGroups die, VerifyStarted g t) ∧ MemKept s t ∧ SequencersKept s t))

/-- R89, R94, R96, R97, R100, R101, R102, R105, R123. The column commands of an array, on a live page: a pantry load
takes a free slot and ends in state 1, a permanent column in bypass; an eviction that is not refused takes effect at a
product boundary, in bypass and state 2; a program command that is not refused starts the write: state 3, in bypass,
one more in the ledger with the step in progress. The write ends with the slots its batches take, its cells at their
targets up to the batch that failed, where they hold the levels they stopped at. A refused command changes nothing but
what says so. The model's choices and readings: a permanent column waits for its masters, and for the pantry's
refresh, before it enters bypass (logs 130, 152); an eviction of a column whose eviction waits finds the wrong state
(log 153); a column never written is not rate-capped (log 54); a write that waits for its start counts as running (log
53); a spare's counts are on the page that SPARE_SEL names (log 126); how a write leaves its column (log 49) and which
slots are open to it (log 132). -/
def Obligations.ColumnCommands : Prop :=
  (∀ (inst : Nat) (s : State), inst < 256 → livePage s (groupUnit inst) = true →
    let a := arraySel s inst
    let j := rd s F.ag_COLUMN inst 0
    let x := arrX s a.1 a.2
    let refused (i : Instr) (code : Nat) : Prop := Completes i s fun t =>
      rdb t F.ag_REFUSED inst 0 = true ∧ rd t F.ag_REFUSE_CODE inst 0 = code ∧ t.arrs = s.arrs ∧ MemKept s t ∧
      FieldsKept [F.ag_REFUSED, F.ag_REFUSE_CODE, F.ag_EVICT_REFUSED, F.com_SAT_LO, F.com_SAT_HI, F.com_SAT_TBL] s t
    (colState s a.1 a.2 j ≠ 0 ∨ (slotOfCol x j).isSome = true → refused (.loadPantry inst) 3) ∧
    (colState s a.1 a.2 j = 0 → slotOfCol x j = none → freeSlot x = none → refused (.loadPantry inst) 1) ∧
    (∀ k, colState s a.1 a.2 j = 0 → slotOfCol x j = none → freeSlot x = some k → Completes (.loadPantry inst) s fun t =>
      smFind k (arrX t a.1 a.2).cols = some ⟨j, rd s F.ag_DATA_ADDR inst 0, [], false, 0⟩ ∧ rdb t F.ag_REFUSED inst 0 = false ∧
      (nextRewrite s a.1 a.2 = some j → ∀ e ∈ (arrX t a.1 a.2).queue, e.col ≠ j) ∧
      MemKept s t ∧ FieldsKept [F.ag_REFUSED, F.ag_REFUSE_CODE, F.ag_QUEUE_DEPTH, F.ag_DRIFT_MAX] s t) ∧
    (colState s a.1 a.2 j ≠ 1 ∨ x.evicting.contains j = true → refused (.evict inst) 3) ∧
    (colState s a.1 a.2 j = 1 → x.evicting.contains j = false →
      (entersBypass x j = false → bypassLimit s a.1 a.2 < limitCount s a.1 a.2 + 1 → refused (.evict inst) 2) ∧
      (entersBypass x j = true ∨ limitCount s a.1 a.2 + 1 ≤ bypassLimit s a.1 a.2 → Completes (.evict inst) s fun t =>
        (arrX t a.1 a.2).evicting = x.evicting ++ [j] ∧ rdb t F.ag_REFUSED inst 0 = false ∧ MemKept s t ∧
        FieldsKept [F.ag_REFUSED, F.ag_REFUSE_CODE] s t)) ∧
    (∀ scale exempt, x.write = none → mayStartWrite s a.1 a.2 = true → colState s a.1 a.2 j ∈ [2, 4, 6] →
      a.1 < 16 → a.2 < 1040 → j < 512 →
      inBypass s a.1 a.2 j = true ∨ x.evicting.contains j = true ∨ limitCount s a.1 a.2 + 1 ≤ bypassLimit s a.1 a.2 →
      rdA s F.ag_PROG_COUNT a.1 a.2 j < (writeLimits s a.1).2 →
      exempt = true ∨ arrayIdle s a.1 a.2 = true ∨ rdA s F.ag_PROG_COUNT a.1 a.2 j = 0 ∨
        (writeLimits s a.1).1 ≤ (stepNo s + 2 ^ 32 - rdA s F.ag_LAST_STEP a.1 a.2 j) % 2 ^ 32 →
      Completes (.program inst 0 scale exempt) s fun t =>
        colState t a.1 a.2 j = 3 ∧ inBypass t a.1 a.2 j = true ∧
        rdA t F.ag_PROG_COUNT a.1 a.2 j = (rdA s F.ag_PROG_COUNT a.1 a.2 j + 1) % 2 ^ F.ag_PROG_COUNT.width ∧
        rdA t F.ag_LAST_STEP a.1 a.2 j = stepNo s % 2 ^ 32 ∧ rdb t F.ag_REFUSED inst 0 = false ∧
        (∃ w, (arrX t a.1 a.2).write = some w ∧ w.col = j ∧ w.running = true) ∧ (arrX t a.1 a.2).cells = x.cells ∧ MemKept s t ∧
        SequencersKept s t) ∧
    (x.write.isSome = true → colState s a.1 a.2 j ∈ [2, 4, 6] → inBypass s a.1 a.2 j = true →
      ∀ scale exempt, refused (.program inst 0 scale exempt) 6) ∧
    (Completes (.clearSel inst) s fun t =>
      rdA t F.ag_CONVERSIONS a.1 a.2 (rd s F.ag_CONVERTER inst 0) = 0 ∧ rdA t F.ag_CLIPPED a.1 a.2 (rd s F.ag_CONVERTER inst 0) = 0 ∧
      MemKept s t ∧ FieldsKept [F.ag_CONVERSIONS, F.ag_CLIPPED, F.com_SAT_LO, F.com_SAT_HI] s t) ∧
    (Completes (.auditClear inst) s fun t =>
      rd t F.ag_AUDIT_SSE inst 0 = 0 ∧ rd t F.ag_AUDIT_SAMPLES inst 0 = 0 ∧ MemKept s t ∧
      FieldsKept [F.ag_AUDIT_SSE, F.ag_AUDIT_SAMPLES, F.com_SAT_HI] s t)) ∧
  (∀ (die p : Nat) (s : State), die < 16 → p < 1040 →
    (∀ (col k : Nat) (c : PantryCol), col < 512 → slotOfCol (arrX s die p) col = some k → bypassCol (arrX s die p) col = some c →
      c.loaded = false → (∀ e ∈ (arrX s die p).cols, e.2.col = col → e.1 = k) →
      let enters := rdA s F.ag_PERMANENT die p col = 1 ∧ inBypass s die p col = false ∧
        pantryOwed s die p = false ∧ limitCount s die p + b2n (!entersBypass (arrX s die p) col) ≤ bypassLimit s die p
      CleanReads [⟨memSpace, c.addr, 1024⟩] s → Completes (.pantryLoadDone die p col) s fun t =>
        smFind k (arrX t die p).cols = some (pantryEntry s die p col c.addr) ∧
        (enters → colState t die p col = 2 ∧ inBypass t die p col = true) ∧
        (¬enters → colState t die p col = 1 ∧ FieldKept F.ag_IN_BYPASS.fid s t) ∧ MemKept s t ∧
        FieldsKept [F.ag_WRITE_STATE, F.ag_IN_BYPASS] s t) ∧
    ((∀ j ∈ (arrX s die p).evicting, j < 512) → pantryOwed s die p = false → Completes (.evictApply die p) s fun t =>
      (∀ j ∈ (arrX s die p).evicting, colState s die p j = 1 → colState t die p j = 2 ∧ inBypass t die p j = true) ∧
      (∀ j < 512, j ∉ (arrX s die p).evicting ∨ colState s die p j ≠ 1 →
        colState t die p j = colState s die p j ∧ inBypass t die p j = inBypass s die p j) ∧ (arrX t die p).evicting = [] ∧
      MemKept s t ∧ FieldsKept [F.ag_WRITE_STATE, F.ag_IN_BYPASS] s t) ∧
    (∀ w, (arrX s die p).write = some w → w.col < 512 → w.running = false → mayStartWrite s die p = true →
      Completes (.columnWriteStart die p) s fun t =>
        colState t die p w.col = 3 ∧ (∃ w', (arrX t die p).write = some w' ∧ w'.col = w.col ∧ w'.running = true) ∧
        rdA t F.ag_PROG_COUNT die p w.col = (rdA s F.ag_PROG_COUNT die p w.col + 1) % 2 ^ F.ag_PROG_COUNT.width ∧ MemKept s t ∧
        SequencersKept s t) ∧
    (∀ (w : ColWrite) (iters : List Nat) (held : List Int) (ap : Nat), (arrX s die p).write = some w → w.running = true → w.col < 512 →
      s.dark.contains die = false →
      let run := writeRun s die w iters
      let good := w.levels.isSome && run.2.isNone
      let spent := (writeLimits s die).2 ≤ progCount s die p w.col
      let fails := nmGet 0 w.col (arrX s die p).fails + 1
      writeEnds s die p w run.1 ap = true → Completes (.columnWriteDone die p iters held ap) s fun t =>
        t.core = max s.core (32 * (ap + 1)) ∧ (arrX t die p).write = none ∧ (arrX t die p).swept = false ∧
        rd t F.ag_WRITE_SLOTS (pageInst s die p) 0 =
          (rd s F.ag_WRITE_SLOTS (pageInst s die p) 0 + run.1) % 2 ^ F.ag_WRITE_SLOTS.width ∧
        (∀ ls, w.levels = some ls → nmGet [] w.col (arrX t die p).cells =
          cellsAfter (nmGet [] w.col (arrX s die p).cells) ls held run.2) ∧
        (∀ j, j ≠ w.col ∨ w.levels = none → nmGet [] j (arrX t die p).cells = nmGet [] j (arrX s die p).cells) ∧
        (good = true → ¬spent → rdA s F.ag_PERMANENT die p w.col ≠ 1 → if arrayIdle s die p = true then
            colState t die p w.col = 0 ∧ inBypass t die p w.col = false
          else colState t die p w.col = 4) ∧
        (good = true → inBypass s die p w.col = true → spent ∨ rdA s F.ag_PERMANENT die p w.col = 1 →
          colState t die p w.col = 4 ∧ inBypass t die p w.col = true) ∧
        (good = false → (inBypass s die p w.col = true → colState t die p w.col = 6) ∧
          rd t F.ag_WRITE_FAILS (pageInst s die p) 0 =
            min (rd s F.ag_WRITE_FAILS (pageInst s die p) 0 + 1) (fieldMax F.ag_WRITE_FAILS)) ∧
        (spent ∨ (good = false ∧ rd s F.ad_RETRY_MAX die 0 < fails) → rdA t F.ag_PERMANENT die p w.col = 1) ∧
        MemKept s t ∧ SequencersKept s t))

/-- R274, R380, R381. A scrub pass of a memory controller that scrubs: its corrections are counted, a word it found
uncorrectable is counted, latched and marked poisoned, and the pass is counted. A cellar copy held as partner in which
it finds such a word is not valid. R276, R277, R278, R294, R339. The shelf. A staged image lies in the staging region
and, where it fits the drives in use, its flash write starts over the drives that are ready then, with its slot not
valid meanwhile; the end of the write puts what the region holds, and its header on each of those drives, into the
slot, which is valid where the body matches its header, a failure is latched; the acknowledgement of the storeroom
frees its offer. In a rollback the image that the driver wrote is loaded, and the end of the restore makes epoch E
current and clears ROLLBACK_NEEDED. -/
def Obligations.ScrubAndShelf : Prop :=
  (∀ (mc singles doubles : Nat) (bad : List Nat) (s : State), mc < s.variant.stacks → rd s F.mc_SCRUB_INTERVAL mc 0 ≠ 0 →
    Completes (.scrub mc singles doubles bad) s fun t =>
      rd t F.mc_CORR_SINGLE mc 0 = (rd s F.mc_CORR_SINGLE mc 0 + singles) % 2 ^ F.mc_CORR_SINGLE.width ∧
      rd t F.mc_CORR_DOUBLE mc 0 = (rd s F.mc_CORR_DOUBLE mc 0 + doubles) % 2 ^ F.mc_CORR_DOUBLE.width ∧
      rd t F.mc_SCRUB_PASSES mc 0 = min (rd s F.mc_SCRUB_PASSES mc 0 + 1) (fieldMax F.mc_SCRUB_PASSES) ∧
      (bad ≠ [] → rd t F.mc_UNCORR mc 0 = min (rd s F.mc_UNCORR mc 0 + bad.length) (fieldMax F.mc_UNCORR) ∧
        rdb t F.fa_UNCORR_SEEN 0 0 = true) ∧
      (∀ b < bucketCount s, bad ≠ [] → (∀ a ∈ bad, a < s.variant.memBytes) → partnerHere s b = true →
        (bx s b).cellarValid = true → cellarPoisoned s b = true →
        (∀ b' < bucketCount s, b' ≠ b → partnerHere s b' = false) → (bx t b).cellarValid = false ∧ (bx t b).landed = []) ∧
      ((∀ b < bucketCount s, partnerHere s b = true → (bx s b).cellarValid = false) →
        (∀ a, bad = [a] → a < s.variant.memBytes → poisonedAt t memSpace a = true) ∧
        (bad = [] → MemKept s t ∧ t.poison = s.poison)) ∧ SequencersKept s t) ∧
  ((∀ s : State, livePage s (unitOf 0x61 0) = true → Completes .storeAck s fun t => rdb t F.rs_STORE_READY 0 0 = false ∧
    rdb t F.rs_STAGING_BUSY 0 0 = (s.job.stagingEpoch.isSome || s.job.flashBusy) ∧ MemKept s t ∧
    FieldsKept [F.rs_STORE_READY, F.rs_STAGING_BUSY] s t) ∧
  (∀ (e : Nat) (s : State), s.job.stagingEpoch = some e → s.job.flashBusy = false → voteDue s = false →
    let img := shelfImage s e s.job.stagingStore
    let a := rd s F.rs_STAGING_ADDR 0 0
    a + img.length ≤ s.variant.memBytes → shelfBad s = [] → (∀ r ∈ s.job.stagingRoles, ∀ m ∈ shelfPlanes s r.1,
      CleanReads [⟨memSpace, m, 2 * bElems s r.1⟩] s) → Completes .shelfStagingDone s fun t =>
      readBytes t memSpace a img.length = img ∧
      (∀ k, ¬(k % 64 = memSpace ∧ a ≤ k / 64 ∧ k / 64 < a + img.length) → cellGet k t.mem = cellGet k s.mem) ∧
      (s.job.stagingStore = true → rdb t F.rs_STORE_READY 0 0 = true ∧
        rd t F.rs_STORE_EPOCH 0 0 = e % 2 ^ F.rs_STORE_EPOCH.width) ∧
      t.job.voteHeld = false ∧
      (imageFits s (img.length - 64) = true → t.job.flashBusy = true ∧ t.job.slot = shelfSlot s ∧
        t.job.slotMask = readyDrives s ∧ ((smFind (shelfSlot s) t.shelf.images).map (·.body)) = some [] ∧
        rd t (if shelfSlot s = 0 then F.rs_SHELF_EPOCH_0 else F.rs_SHELF_EPOCH_1) 0 0 = 2 ^ 64 - 1) ∧
      (imageFits s (img.length - 64) = false → rdb t F.rs_SHELF_FAIL_SEEN 0 0 = true ∧ t.job.stagingEpoch = none) ∧
      SequencersKept s t) ∧
  (∀ (e : Nat) (ok : Bool) (s : State), s.job.stagingEpoch = some e → s.job.flashBusy = true → s.job.slot < 2 →
    Completes (.shelfWriteDone ok) s fun t =>
      t.job.flashBusy = false ∧ t.job.stagingEpoch = none ∧
      (ok = true →
        let a := rd s F.rs_STAGING_ADDR 0 0
        let img := readBytes s memSpace a (64 + readNat s memSpace (a + 24) 8)
        let ds := s.job.slotMask
        let old := ((smFind s.job.slot s.shelf.images).getD {}).heads
        (∃ m, smFind s.job.slot t.shelf.images = some m ∧ m.body = img.drop 64 ∧
          (∀ c ∈ ds, smFind c m.heads = some (img.take 64, stripeWord ds)) ∧ ∀ c, c ∉ ds → smFind c m.heads = smFind c old) ∧
        (old = [] → ds ≠ [] → ds.Nodup → (∀ c ∈ ds, c < 4 ∧ (readyDrives s).contains c = true) →
          rd t (if s.job.slot = 0 then F.rs_SHELF_EPOCH_0 else F.rs_SHELF_EPOCH_1) 0 0 =
            (if imageSound (img.take 64) (img.drop 64) = true then leNat (img.take 8) else 2 ^ 64 - 1)) ∧
        rd t F.rs_SHELF_WRITES 0 0 = min (rd s F.rs_SHELF_WRITES 0 0 + 1) (fieldMax F.rs_SHELF_WRITES)) ∧
      (ok = false → rdb t F.rs_SHELF_FAIL_SEEN 0 0 = true ∧ t.shelf = s.shelf) ∧ MemKept s t ∧ SequencersKept s t) ∧
  (∀ s : State, restoring s = true → livePage s (unitOf 0x61 0) = true →
    let a := rd s F.rs_STAGING_ADDR 0 0
    let k := bits (readNat s memSpace (a + 8) 8) 44 17
    (∀ b planes, imageRecords s k (a + 64) = [(b, planes)] → ownerHere s b = true → uMoments s b = 0 →
      let n := 2 * bElems s b
      n ≤ planes.length →
      let m := masterAddr s curMaster b 0
      (∀ i < n, ∃ c, cellAt s memSpace (m + i) = some c) →
      (∀ i j, i < n → j < n → cellAt s memSpace (m + i) = cellAt s memSpace (m + j) → i = j) →
      Completes .stagingLoaded s fun t => readBytes t memSpace m n = planes.take n ∧
        (∀ c, (∀ i < n, cellAt s memSpace (m + i) ≠ some c) → cellGet c t.mem = cellGet c s.mem) ∧
        FieldsKept [] s t) ∧
    (∀ loads, Completes (.restoreDone loads) s fun t =>
      rd t F.cm_EPOCH 0 0 = rd s F.rs_ROLLBACK_EPOCH 0 0 % 2 ^ F.cm_EPOCH.width ∧
      rd t F.cm_STEP 0 0 = (rd s F.rs_ROLLBACK_EPOCH 0 0 + 1) % 2 ^ F.cm_STEP.width ∧
      rdb t F.rs_RESTORE_DONE 0 0 = true ∧ rdb t F.rs_ROLLBACK_NEEDED 0 0 = false ∧ rd t F.rs_LOST_BUCKETS 0 0 = 0 ∧
      SequencersKept s t)))
end

