-- ==== Sys2Proof/Laws/Memory.lean ====
section
/-! SUPPORT. The laws of sparse maps and of memory: a read after a write at the same key gives the value written, a
write leaves every other key alone, and memory keeps its canonical form. -/

namespace Sys2Proof.Machine

open Sys2Proof

section Maps

variable {κ α : Type} [DecidableEq κ]

theorem smGet_insert_self (lt : κ → κ → Bool) (d : α) (k : κ) (v : α) (m : SMap κ α)
    (h : ∀ e ∈ m, e.1 ≠ k) : smGet d k (smInsert lt k v m) = v := by
  induction m with
  | nil => simp [smInsert, smGet]
  | cons e m ih =>
    obtain ⟨k', v'⟩ := e
    have h1 : k' ≠ k := h (k', v') (by simp)
    unfold smInsert
    split
    · simp [smGet]
    · simp only [smGet, h1, if_false]
      exact ih fun e he => h e (by simp [he])

theorem smGet_insert_other (lt : κ → κ → Bool) (d : α) (k k' : κ) (v : α) (m : SMap κ α) (hk : k' ≠ k) :
    smGet d k' (smInsert lt k v m) = smGet d k' m := by
  induction m with
  | nil => simp [smInsert, smGet, hk.symm]
  | cons e m ih =>
    obtain ⟨a, b⟩ := e
    unfold smInsert
    split
    · simp [smGet, hk.symm]
    · simp only [smGet]
      split <;> simp_all

theorem mem_smErase (k : κ) (m : SMap κ α) (e : κ × α) : e ∈ smErase k m ↔ e ∈ m ∧ e.1 ≠ k := by
  induction m with
  | nil => simp [smErase]
  | cons a m ih =>
    obtain ⟨a, b⟩ := a
    unfold smErase
    split
    · rename_i h
      subst h
      rw [ih]
      constructor
      · rintro ⟨h1, h2⟩
        exact ⟨List.mem_cons_of_mem _ h1, h2⟩
      · rintro ⟨h1, h2⟩
        rcases List.mem_cons.1 h1 with rfl | h1
        · exact absurd rfl h2
        · exact ⟨h1, h2⟩
    · rename_i h
      rw [List.mem_cons, List.mem_cons, ih]
      constructor
      · rintro (rfl | ⟨h1, h2⟩)
        · exact ⟨.inl rfl, h⟩
        · exact ⟨.inr h1, h2⟩
      · rintro ⟨rfl | h1, h2⟩
        · exact .inl rfl
        · exact .inr ⟨h1, h2⟩

theorem smGet_erase_other (d : α) (k k' : κ) (m : SMap κ α) (hk : k' ≠ k) : smGet d k' (smErase k m) = smGet d k' m := by
  induction m with
  | nil => simp [smErase, smGet]
  | cons e m ih =>
    obtain ⟨a, b⟩ := e
    unfold smErase
    split
    · subst_vars
      simp [smGet, hk.symm, ih]
    · simp only [smGet, ih]

theorem smGet_erase_self (d : α) (k : κ) (m : SMap κ α) : smGet d k (smErase k m) = d := by
  induction m with
  | nil => simp [smErase, smGet]
  | cons e m ih =>
    obtain ⟨a, b⟩ := e
    unfold smErase
    split
    · exact ih
    · simp_all [smGet]

/-- A read after a write at the same key gives the value written. -/
@[simp] theorem smGet_set_self (lt : κ → κ → Bool) (d : α) (k : κ) (v : α) (m : SMap κ α) :
    smGet d k (smSet lt k v m) = v :=
  smGet_insert_self lt d k v _ fun e he => ((mem_smErase k m e).1 he).2

/-- A write leaves every other key alone. -/
theorem smGet_set_other (lt : κ → κ → Bool) (d : α) (k k' : κ) (v : α) (m : SMap κ α) (hk : k' ≠ k) :
    smGet d k' (smSet lt k v m) = smGet d k' m := by
  rw [smSet, smGet_insert_other lt d k k' v _ hk, smGet_erase_other d k k' m hk]

theorem smGet_set (lt : κ → κ → Bool) (d : α) (k k' : κ) (v : α) (m : SMap κ α) :
    smGet d k' (smSet lt k v m) = if k' = k then v else smGet d k' m := by
  split
  · subst_vars
    simp
  · rename_i h
    exact smGet_set_other lt d k k' v m h

theorem mem_smInsert (lt : κ → κ → Bool) (k : κ) (v : α) (m : SMap κ α) (e : κ × α) :
    e ∈ smInsert lt k v m ↔ e = (k, v) ∨ e ∈ m := by
  induction m with
  | nil => simp [smInsert]
  | cons a m ih =>
    obtain ⟨a, b⟩ := a
    unfold smInsert
    split
    · simp
    · simp only [List.mem_cons, ih]
      tauto

theorem mem_smSet (lt : κ → κ → Bool) (k : κ) (v : α) (m : SMap κ α) (e : κ × α) :
    e ∈ smSet lt k v m ↔ e = (k, v) ∨ (e ∈ m ∧ e.1 ≠ k) := by
  rw [smSet, mem_smInsert, mem_smErase]

end Maps

@[simp] theorem nmGet_set_self {α : Type} (d : α) (k : Nat) (v : α) (m : NMap α) : nmGet d k (nmSet k v m) = v :=
  smGet_set_self _ _ _ _ _

theorem nmGet_set {α : Type} (d : α) (k k' : Nat) (v : α) (m : NMap α) :
    nmGet d k' (nmSet k v m) = if k' = k then v else nmGet d k' m :=
  smGet_set _ _ _ _ _ _

/-! ### Memory -/

/-- A byte read after it is written is the byte written. -/
@[simp] theorem cellGet_set_self (a : Nat) (b : Byte) (m : NMap Byte) : cellGet a (cellSet a b m) = b := by
  unfold cellGet cellSet
  split
  · rename_i h
    rw [h]
    exact smGet_erase_self _ _ _
  · exact smGet_set_self natLt blankByte a b m

/-- A byte written leaves every other byte alone. -/
theorem cellGet_set_other (a a' : Nat) (b : Byte) (m : NMap Byte) (h : a' ≠ a) :
    cellGet a' (cellSet a b m) = cellGet a' m := by
  unfold cellGet cellSet
  split
  · exact smGet_erase_other _ _ _ _ h
  · exact smGet_set_other natLt blankByte a a' b m h

theorem cellGet_set (a a' : Nat) (b : Byte) (m : NMap Byte) :
    cellGet a' (cellSet a b m) = if a' = a then b else cellGet a' m := by
  split
  · subst_vars
    simp
  · rename_i h
    exact cellGet_set_other a a' b m h

/-- The canonical form, said of the entries: no blank byte, and addresses that rise strictly. -/
theorem cellsWf_iff (m : NMap Byte) :
    cellsWf m = true ↔ (∀ e ∈ m, e.2 ≠ blankByte) ∧ m.Pairwise (fun x y => x.1 < y.1) := by
  induction m with
  | nil => simp [cellsWf]
  | cons e m ih =>
    obtain ⟨a, b⟩ := e
    cases m with
    | nil => simp [cellsWf]
    | cons e' m =>
      obtain ⟨a', b'⟩ := e'
      rw [cellsWf, Bool.and_eq_true, Bool.and_eq_true, ih, decide_eq_true_eq, List.pairwise_cons (a := (a, b))]
      constructor
      · rintro ⟨⟨h1, h2⟩, h3, h4⟩
        refine ⟨?_, ?_, h4⟩
        · intro e he
          rcases List.mem_cons.1 he with rfl | he
          · simpa using h1
          · exact h3 e he
        · intro e he
          rcases List.mem_cons.1 he with rfl | he
          · exact h2
          · exact Nat.lt_trans h2 ((List.pairwise_cons.1 h4).1 e he)
      · rintro ⟨h1, h2, h3⟩
        exact ⟨⟨by simpa using h1 (a, b) (by simp), h2 (a', b') (by simp)⟩,
          fun e he => h1 e (List.mem_cons_of_mem _ he), h3⟩

theorem pairwise_erase (k : Nat) (m : NMap Byte) (h : m.Pairwise (fun x y => x.1 < y.1)) :
    (smErase k m).Pairwise (fun x y => x.1 < y.1) := by
  induction m with
  | nil => simp [smErase]
  | cons e m ih =>
    obtain ⟨a, b⟩ := e
    rw [List.pairwise_cons] at h
    unfold smErase
    split
    · exact ih h.2
    · rw [List.pairwise_cons]
      exact ⟨fun e he => h.1 e ((mem_smErase k m e).1 he).1, ih h.2⟩

theorem pairwise_insert (k : Nat) (v : Byte) (m : NMap Byte) (h : m.Pairwise (fun x y => x.1 < y.1))
    (hk : ∀ e ∈ m, e.1 ≠ k) : (smInsert natLt k v m).Pairwise (fun x y => x.1 < y.1) := by
  induction m with
  | nil => simp [smInsert]
  | cons e m ih =>
    obtain ⟨a, b⟩ := e
    rw [List.pairwise_cons] at h
    unfold smInsert
    split
    · rename_i hlt
      have hlt : k < a := by simpa [natLt] using hlt
      rw [List.pairwise_cons, List.pairwise_cons]
      refine ⟨fun e he => ?_, h⟩
      rcases List.mem_cons.1 he with rfl | he
      · exact hlt
      · exact Nat.lt_trans hlt (h.1 e he)
    · rename_i hlt
      have hak : a < k := by
        have h1 := hk (a, b) (by simp)
        simp [natLt] at hlt h1
        omega
      rw [List.pairwise_cons]
      refine ⟨fun e he => ?_, ih h.2 fun e he => hk e (by simp [he])⟩
      rcases (mem_smInsert natLt k v m e).1 he with rfl | he
      · exact hak
      · exact h.1 e he

/-- A write keeps the canonical form. -/
theorem cellsWf_set (a : Nat) (b : Byte) (m : NMap Byte) (h : cellsWf m = true) : cellsWf (cellSet a b m) = true := by
  rw [cellsWf_iff] at h ⊢
  unfold cellSet
  split
  · exact ⟨fun e he => h.1 e ((mem_smErase a m e).1 he).1, pairwise_erase a m h.2⟩
  · rename_i hb
    refine ⟨fun e he => ?_, pairwise_insert a b _ (pairwise_erase a m h.2) fun e he => ((mem_smErase a m e).1 he).2⟩
    rcases (mem_smInsert natLt a b _ e).1 he with rfl | he
    · exact hb
    · exact h.1 e ((mem_smErase a m e).1 he).1

end Sys2Proof.Machine
end

