-- ==== Sys2Proof/Laws/Kept.lean ====
section
/-! SUPPORT. The laws of `Kept` for the steps that every meaning is made of: a change of a field that soundness does not
speak of, branches, folds, and the writes of memory, queues and time. -/

namespace Sys2Proof

open Sys2Proof.Machine

variable {s0 s t : State}

theorem Kept.refl (s : State) : Kept s s := ⟨rfl, rfl, id⟩

theorem Kept.trans {a b c : State} (h : Kept a b) (k : Kept b c) : Kept a c :=
  ⟨k.1.trans h.1, k.2.trans h.2, fun x => k.3 (h.3 x)⟩

/-- A change of fields that `Kept` does not speak of. -/
theorem Kept.of_eq (h : Kept s0 s) (hp : t.pending = s.pending) (hv : t.variant = s.variant) (hm : t.mem = s.mem)
    (hq : t.queues = s.queues) (ht : t.time = s.time) : Kept s0 t := by
  refine ⟨hp.trans h.1, hv.trans h.2, fun x => ?_⟩
  obtain ⟨h1, h2, h3⟩ := h.3 x
  refine ⟨by rw [hm]; exact h1, ?_, by rw [ht]; exact h3⟩
  unfold QueuesBounded
  rw [hq]
  exact h2

/-- A change of fields that `Kept` does not speak of, said of the constructor. -/
theorem Kept.upd (h : Kept s0 s)
    (stage_ : Stage) (d3hot_ : Bool) (perst_ : Bool) (core_ : Nat) (flds_ : SMap FKey Nat) (stg_ : SMap FKey Nat)
    (tblWritten_ : List FKey) (commit_ : CommitCtl) (latches_ : NMap Latch) (poison_ : List Nat)
    (lineBusy_ : NMap Nat) (lastRing_ : Nat) (newPoison_ : List Nat) (unmet_ : List Nat) (segTags_ : NMap SegTag)
    (recent_ : List OldBytes) (lines_ : NMap LineMark) (overs_ : NMap OverRec) (opCount_ : Nat) (arrs_ : NMap ArrX)
    (dark_ : List Nat) (ledger_ : List (FKey × Nat)) (progBase_ : NMap Nat) (ledgerBase_ : NMap Nat)
    (drives_ : NMap DriveX) (chains_ : NMap Chain) (queries_ : List Query) (job_ : JobX) (ptp_ : PtpX)
    (refreshed_ : NMap Nat) (refreshDue_ : List Nat) (drift_ : Option (Nat × Nat)) (frames_ : NMap FrameX)
    (selMaster_ : List Nat) (selState_ : List Nat) (bins_ : NMap Bin) (loads_ : NMap BinLoad) (loadCount_ : Nat)
    (seqx_ : NMap SeqX) (tracker_ : List PendingOp) (aux_ : AuxX) (fault_ : FaultX) (power_ : PowerX)
    (shelf_ : ShelfX) (mergedC_ : NMap (Nat × Nat)) (oldLarder_ : List OldLarder) (busy_ : NMap Nat)
    (stopAt_ : Option Nat) (programDied_ : Bool) (out_ : List Output) (lossSampled_ : Bool) (freeCtr_ : Nat) :
    Kept s0 (State.mk
      s.pending s.variant stage_ d3hot_ perst_ core_ s.time flds_ stg_ tblWritten_ commit_ latches_ s.mem poison_
      lineBusy_ lastRing_ newPoison_ unmet_ segTags_ recent_ lines_ overs_ opCount_ arrs_ dark_ ledger_ progBase_
      ledgerBase_ drives_ chains_ queries_ job_ ptp_ refreshed_ refreshDue_ drift_ frames_ selMaster_ selState_ bins_
      loads_ loadCount_ seqx_ s.queues tracker_ aux_ fault_ power_ shelf_ mergedC_ oldLarder_ busy_ stopAt_
      programDied_ out_ lossSampled_ freeCtr_) :=
  h.of_eq rfl rfl rfl rfl rfl

theorem Kept.ite {c : Prop} [Decidable c] {a b : State} (ha : Kept s0 a) (hb : Kept s0 b) :
    Kept s0 (if c then a else b) := by
  split
  · exact ha
  · exact hb

theorem Kept.foldl {α : Type} {f : State → α → State} (l : List α)
    (hf : ∀ s x, Kept s0 s → Kept s0 (f s x)) (h : Kept s0 s) : Kept s0 (l.foldl f s) := by
  induction l generalizing s with
  | nil => exact h
  | cons a l ih => exact ih (hf s a h)

theorem Kept.foldr {α : Type} {f : α → State → State} (l : List α)
    (hf : ∀ x s, Kept s0 s → Kept s0 (f x s)) (h : Kept s0 s) : Kept s0 (l.foldr f s) := by
  induction l with
  | nil => exact h
  | cons a l ih => exact hf a _ ih

theorem Kept.foldl_snd {α β : Type} {f : β × State → α → β × State} (l : List α) (b : β × State)
    (hf : ∀ b x, Kept s0 b.2 → Kept s0 (f b x).2) (h : Kept s0 b.2) : Kept s0 (l.foldl f b).2 := by
  induction l generalizing b with
  | nil => exact h
  | cons a l ih => exact ih (f b a) (hf b a h)

theorem Kept.foldl_fst {α β : Type} {f : State × β → α → State × β} (l : List α) (b : State × β)
    (hf : ∀ b x, Kept s0 b.1 → Kept s0 (f b x).1) (h : Kept s0 b.1) : Kept s0 (l.foldl f b).1 := by
  induction l generalizing b with
  | nil => exact h
  | cons a l ih => exact ih (f b a) (hf b a h)

/-- The state of a pair that a function answered. -/
theorem Kept.snd {β : Type} {p : β × State} {b : β} (e : p = (b, t)) (h : Kept s0 p.2) : Kept s0 t := by
  rw [e] at h
  exact h

/-- The bytes of memory change by one write. -/
theorem Kept.mem (h : Kept s0 s) (k : Nat) (b : Byte) : Kept s0 { s with mem := cellSet k b s.mem } :=
  ⟨h.1, h.2, fun x => let ⟨h1, h2, h3⟩ := h.3 x; ⟨cellsWf_set k b s.mem h1, h2, h3⟩⟩

/-- A queue is replaced by one of no more than 64 tokens. -/
theorem Kept.queue (h : Kept s0 s) (d q : Nat) (ts : List QTok) (hl : Sound s → ts.length ≤ 64) :
    Kept s0 (setQueue d q ts s) := by
  refine ⟨h.1, h.2, fun x => ?_⟩
  have hs := h.3 x
  refine ⟨hs.1, fun e he => ?_, hs.2.2⟩
  rcases (mem_smSet natLt _ _ _ e).1 he with rfl | he
  · exact hl hs
  · exact hs.2.1 e he.1

/-- Device time is replaced by a time within its 96 bits. -/
theorem Kept.timed (h : Kept s0 s) (hp : t.pending = s.pending) (hv : t.variant = s.variant) (hm : t.mem = s.mem)
    (hq : t.queues = s.queues) (ht : t.time < 2 ^ 96) : Kept s0 t := by
  refine ⟨hp.trans h.1, hv.trans h.2, fun x => ?_⟩
  obtain ⟨h1, h2, h3⟩ := h.3 x
  refine ⟨by rw [hm]; exact h1, ?_, ht⟩
  unfold QueuesBounded
  rw [hq]
  exact h2

theorem queueOf_le (h : Sound s) (d q : Nat) : (queueOf s d q).length ≤ 64 := by
  have : ∀ m : NMap (List QTok), (∀ e ∈ m, e.2.length ≤ 64) → (smGet [] (queueKey d q) m).length ≤ 64 := by
    intro m
    induction m with
    | nil => intro _; simp [smGet]
    | cons e m ih =>
      intro hm
      unfold smGet
      split
      · exact hm e (by simp)
      · exact ih fun e he => hm e (by simp [he])
  exact this _ h.2.1

theorem insertTok_length (t : QTok) (ts : List QTok) : (insertTok t ts).length = ts.length + 1 := by
  induction ts with
  | nil => rfl
  | cons u us ih =>
    unfold insertTok
    split <;> simp [ih]

theorem dropStale_le (g : Nat) (ts : List QTok) : (dropStale g ts).1.length ≤ ts.length := by
  induction ts with
  | nil => simp [dropStale]
  | cons u us ih =>
    unfold dropStale
    split
    · simp
    · simpa using Nat.le_succ_of_le ih

end Sys2Proof
end

