-- ==== Sys2Proof/Laws/FieldKept.lean ====
section
/-! SUPPORT. The laws of register fields: a read after a write, and what leaves a field alone. -/

namespace Sys2Proof.Machine

open Sys2Proof

section Find

variable {κ α : Type} [DecidableEq κ]

theorem smFind_insert_other (lt : κ → κ → Bool) (k k' : κ) (v : α) (m : SMap κ α) (hk : k' ≠ k) :
    smFind k' (smInsert lt k v m) = smFind k' m := by
  induction m with
  | nil => simp [smInsert, smFind, hk.symm]
  | cons e m ih =>
    obtain ⟨a, b⟩ := e
    unfold smInsert
    split
    · simp [smFind, hk.symm]
    · simp only [smFind]
      split <;> simp_all

theorem smFind_erase_other (k k' : κ) (m : SMap κ α) (hk : k' ≠ k) : smFind k' (smErase k m) = smFind k' m := by
  induction m with
  | nil => simp [smErase, smFind]
  | cons e m ih =>
    obtain ⟨a, b⟩ := e
    unfold smErase
    split
    · subst_vars
      simp [smFind, hk.symm, ih]
    · simp only [smFind, ih]

theorem smFind_set_other (lt : κ → κ → Bool) (k k' : κ) (v : α) (m : SMap κ α) (hk : k' ≠ k) :
    smFind k' (smSet lt k v m) = smFind k' m := by
  rw [smSet, smFind_insert_other lt k k' v _ hk, smFind_erase_other k k' m hk]

theorem smGet_eq_find (d : α) (k : κ) (m : SMap κ α) : smGet d k m = (smFind k m).getD d := by
  induction m with
  | nil => rfl
  | cons e m ih =>
    obtain ⟨a, b⟩ := e
    unfold smGet smFind
    split
    · rfl
    · exact ih

theorem smFind_filter (p : κ × α → Bool) (k : κ) (m : SMap κ α) (hp : ∀ v, p (k, v) = true) :
    smFind k (m.filter p) = smFind k m := by
  induction m with
  | nil => rfl
  | cons e m ih =>
    obtain ⟨a, b⟩ := e
    by_cases ha : a = k
    · subst ha
      simp [List.filter, hp, smFind]
    · by_cases hq : p (a, b)
      · simp [List.filter, hq, smFind, ha, ih]
      · simp [List.filter, hq, smFind, ha, ih]

end Find

/-! ### A read after a write -/

@[simp] theorem rdU_wrU_self (f : Field) (u idx v : Nat) (s : State) : rdU (wrU f u idx v s) f u idx = v % 2 ^ f.width :=
  smGet_set_self _ _ _ _ _

theorem rdU_wrU_other (f g : Field) (u u' idx idx' v : Nat) (s : State)
    (h : g.fid ≠ f.fid ∨ u' ≠ u ∨ idx' ≠ idx) : rdU (wrU f u idx v s) g u' idx' = rdU s g u' idx' := by
  unfold rdU wrU unwritten
  refine smGet_set_other _ _ _ _ _ _ fun e => ?_
  injection e with h1 h2 h3
  rcases h with h | h | h
  · exact h h1
  · exact h h2
  · exact h h3

@[simp] theorem rd_wr_self (f : Field) (inst idx v : Nat) (s : State) : rd (wr f inst idx v s) f inst idx = v % 2 ^ f.width :=
  rdU_wrU_self _ _ _ _ _

theorem rd_wr_other (f g : Field) (inst inst' idx idx' v : Nat) (s : State) (h : g.fid ≠ f.fid) :
    rd (wr f inst idx v s) g inst' idx' = rd s g inst' idx' :=
  rdU_wrU_other _ _ _ _ _ _ _ _ (.inl h)

@[simp] theorem rdb_setb_self (f : Field) (inst idx : Nat) (b : Bool) (s : State) (h : 1 ≤ f.width) :
    rdb (setb f inst idx b s) f inst idx = b := by
  have h2 : 1 < 2 ^ f.width := Nat.one_lt_two_pow (by omega)
  unfold rdb setb
  rw [rd_wr_self]
  cases b
  · simp [b2n]
  · simp [b2n, Nat.mod_eq_of_lt h2]

end Sys2Proof.Machine

namespace Sys2Proof

open Sys2Proof.Machine

/-! ### What leaves a field alone -/

variable {n : Nat} {s0 s t : State}

theorem FieldKept.refl (n : Nat) (s : State) : FieldKept n s s := ⟨fun _ _ => rfl⟩

theorem FieldKept.trans {a b c : State} (h : FieldKept n a b) (k : FieldKept n b c) : FieldKept n a c :=
  ⟨fun x hx => (k.same x hx).trans (h.same x hx)⟩

/-- A field that is kept reads the same, in a state of the same variant and ledger base. -/
theorem FieldKept.rdU {f : Field} (h : FieldKept f.fid s t) (hv : t.variant = s.variant) (hp : t.progBase = s.progBase)
    (u idx : Nat) : rdU t f u idx = rdU s f u idx := by
  unfold Machine.rdU unwritten
  rw [smGet_eq_find, smGet_eq_find, h.same ⟨f.fid, u, idx⟩ rfl, hv, hp]

/-- A kept field other than PROG_COUNT reads the same. -/
theorem FieldKept.rdU' {f : Field} (h : FieldKept f.fid s t) (hv : t.variant = s.variant)
    (hf : f.fid ≠ F.ag_PROG_COUNT.fid) (u idx : Nat) : Machine.rdU t f u idx = Machine.rdU s f u idx := by
  unfold Machine.rdU unwritten
  rw [smGet_eq_find, smGet_eq_find, h.same ⟨f.fid, u, idx⟩ rfl, hv, if_neg hf, if_neg hf]

theorem FieldKept.of_eq (h : FieldKept n s0 s) (hf : t.flds = s.flds) : FieldKept n s0 t := by
  refine ⟨?_⟩
  rw [hf]
  exact h.same

/-- A change of what is no register field, said of the constructor. -/
theorem FieldKept.upd (h : FieldKept n s0 s)
    (pending_ : List Instr) (variant_ : Variant) (stage_ : Stage) (d3hot_ : Bool) (perst_ : Bool) (core_ : Nat)
    (time_ : Nat) (stg_ : SMap FKey Nat) (tblWritten_ : List FKey) (commit_ : CommitCtl) (latches_ : NMap Latch)
    (mem_ : List Host.Cell) (poison_ : List Nat) (lineBusy_ : NMap Nat) (lastRing_ : Nat) (newPoison_ : List Nat)
    (unmet_ : List Nat) (segTags_ : NMap SegTag) (recent_ : List OldBytes) (lines_ : NMap LineMark)
    (overs_ : NMap OverRec) (opCount_ : Nat) (arrs_ : NMap ArrX) (dark_ : List Nat) (ledger_ : List (FKey × Nat))
    (progBase_ : NMap Nat) (ledgerBase_ : NMap Nat) (drives_ : NMap DriveX) (chains_ : NMap Chain)
    (queries_ : List Query) (job_ : JobX) (ptp_ : PtpX) (refreshed_ : NMap Nat) (refreshDue_ : List Nat)
    (drift_ : Option (Nat × Nat)) (frames_ : NMap FrameX) (selMaster_ : List Nat) (selState_ : List Nat)
    (bins_ : NMap Bin) (loads_ : NMap BinLoad) (loadCount_ : Nat) (seqx_ : NMap SeqX) (queues_ : NMap (List QTok))
    (tracker_ : List PendingOp) (aux_ : AuxX) (fault_ : FaultX) (power_ : PowerX) (shelf_ : ShelfX)
    (mergedC_ : NMap (Nat × Nat)) (oldLarder_ : List OldLarder) (busy_ : NMap Nat) (stopAt_ : Option Nat)
    (programDied_ : Bool) (out_ : List Output) (lossSampled_ : Bool) (freeCtr_ : Nat) :
    FieldKept n s0 (State.mk
      pending_ variant_ stage_ d3hot_ perst_ core_ time_ s.flds stg_ tblWritten_ commit_ latches_ mem_ poison_
      lineBusy_ lastRing_ newPoison_ unmet_ segTags_ recent_ lines_ overs_ opCount_ arrs_ dark_ ledger_ progBase_
      ledgerBase_ drives_ chains_ queries_ job_ ptp_ refreshed_ refreshDue_ drift_ frames_ selMaster_ selState_ bins_
      loads_ loadCount_ seqx_ queues_ tracker_ aux_ fault_ power_ shelf_ mergedC_ oldLarder_ busy_ stopAt_
      programDied_ out_ lossSampled_ freeCtr_) :=
  ⟨h.same⟩

theorem FieldKept.ite {c : Prop} [Decidable c] {a b : State} (ha : FieldKept n s0 a) (hb : FieldKept n s0 b) :
    FieldKept n s0 (if c then a else b) := by
  split
  · exact ha
  · exact hb

theorem FieldKept.foldl {α : Type} {f : State → α → State} (l : List α)
    (hf : ∀ s x, FieldKept n s0 s → FieldKept n s0 (f s x)) (h : FieldKept n s0 s) : FieldKept n s0 (l.foldl f s) := by
  induction l generalizing s with
  | nil => exact h
  | cons a l ih => exact ih (hf s a h)

theorem FieldKept.foldl_mem {α : Type} {f : State → α → State} (l : List α)
    (hf : ∀ s x, x ∈ l → FieldKept n s0 s → FieldKept n s0 (f s x)) (h : FieldKept n s0 s) :
    FieldKept n s0 (l.foldl f s) := by
  induction l generalizing s with
  | nil => exact h
  | cons a l ih => exact ih (fun s x hx => hf s x (List.mem_cons_of_mem _ hx)) (hf s a List.mem_cons_self h)

theorem FieldKept.foldr {α : Type} {f : α → State → State} (l : List α)
    (hf : ∀ x s, FieldKept n s0 s → FieldKept n s0 (f x s)) (h : FieldKept n s0 s) : FieldKept n s0 (l.foldr f s) := by
  induction l with
  | nil => exact h
  | cons a l ih => exact hf a _ ih

theorem FieldKept.foldl_snd {α β : Type} {f : β × State → α → β × State} (l : List α) (b : β × State)
    (hf : ∀ b x, FieldKept n s0 b.2 → FieldKept n s0 (f b x).2) (h : FieldKept n s0 b.2) :
    FieldKept n s0 (l.foldl f b).2 := by
  induction l generalizing b with
  | nil => exact h
  | cons a l ih => exact ih (f b a) (hf b a h)

theorem FieldKept.foldl_fst {α β : Type} {f : State × β → α → State × β} (l : List α) (b : State × β)
    (hf : ∀ b x, FieldKept n s0 b.1 → FieldKept n s0 (f b x).1) (h : FieldKept n s0 b.1) :
    FieldKept n s0 (l.foldl f b).1 := by
  induction l generalizing b with
  | nil => exact h
  | cons a l ih => exact ih (f b a) (hf b a h)

/-- The state of a pair that a function answered. -/
theorem FieldKept.snd {β : Type} {p : β × State} {b : β} (e : p = (b, t)) (h : FieldKept n s0 p.2) : FieldKept n s0 t := by
  rw [e] at h
  exact h

end Sys2Proof

namespace Sys2Proof.Machine

/-- A number that is not in a list is not in any part of it. -/
theorem sub_ne {n : Nat} (l m : List Nat) (hs : l.all (fun x => m.contains x) = true) (h : m.contains n = false) :
    l.contains n = false := by
  by_contra hc
  simp only [Bool.not_eq_false, List.contains_iff_mem] at hc
  have := List.all_eq_true.1 hs n hc
  rw [this] at h
  exact absurd h (by decide)

end Sys2Proof.Machine
end

