-- ==== Sys2Proof/Laws/FieldsOps.lean ====
section
/-! SUPPORT. Which register fields the operations of Machine/Ops.lean may write: one lemma for each, which names the field numbers it can change. -/

set_option linter.unusedTactic false
set_option linter.unreachableTactic false
set_option linter.unusedVariables false

namespace Sys2Proof.Machine

open Sys2Proof

variable {n : Nat} {s0 : State}

theorem wrU_fld (f : Field) (u idx v : Nat) (s : State) (hf : f.fid ≠ n) (h : FieldKept n s0 s) :
    FieldKept n s0 (wrU f u idx v s) := by
  refine ⟨fun k hk => ?_⟩
  rw [← h.same k hk]
  refine smFind_set_other _ _ _ _ _ fun e => hf ?_
  rw [e] at hk
  exact hk

theorem wr_fld (f : Field) (inst idx v : Nat) (s : State) (hf : f.fid ≠ n) (h : FieldKept n s0 s) :
    FieldKept n s0 (wr f inst idx v s) :=
  wrU_fld _ _ _ _ _ hf h

theorem setb_fld (f : Field) (inst idx : Nat) (b : Bool) (s : State) (hf : f.fid ≠ n) (h : FieldKept n s0 s) :
    FieldKept n s0 (setb f inst idx b s) :=
  wrU_fld _ _ _ _ _ hf h

theorem addW_fld (f : Field) (inst idx k : Nat) (s : State) (hf : f.fid ≠ n) (h : FieldKept n s0 s) :
    FieldKept n s0 (addW f inst idx k s) :=
  wrU_fld _ _ _ _ _ hf h

theorem setSat_fld (f : Field) (pu : Nat) (s : State) (hn : [9, 10, 11].contains n = false) (h : FieldKept n s0 s) :
    FieldKept n s0 (setSat f pu s) := by
  unfold setSat
  split
  · exact wrU_fld _ _ _ _ _ (fun e => by subst e; exact absurd hn (by decide)) h
  · refine wrU_fld _ _ _ _ _ (fun e => ?_) h
    subst e
    revert hn
    split <;> decide

theorem clearSatBit_fld (f : Field) (pu : Nat) (s : State) (hn : [9, 10].contains n = false)
    (h : FieldKept n s0 s) : FieldKept n s0 (clearSatBit f pu s) := by
  unfold clearSatBit
  refine wrU_fld _ _ _ _ _ (fun e => ?_) h
  subst e
  revert hn
  split <;> decide

theorem satU_fld (f : Field) (u idx k pu : Nat) (s : State) (hf : f.fid ≠ n) (hn : [9, 10, 11].contains n = false)
    (h : FieldKept n s0 s) : FieldKept n s0 (satU f u idx k pu s) := by
  unfold satU
  extract_lets v s'
  split
  · exact setSat_fld _ _ _ hn (wrU_fld _ _ _ _ _ hf h)
  · exact wrU_fld _ _ _ _ _ hf h

theorem sat_fld (f : Field) (inst idx k : Nat) (s : State) (hf : f.fid ≠ n) (hn : [9, 10, 11].contains n = false)
    (h : FieldKept n s0 s) : FieldKept n s0 (sat f inst idx k s) :=
  satU_fld _ _ _ _ _ _ hf hn h

theorem advanceTo_fld (t : Nat) (s : State) (n : Nat) (h : FieldKept n s0 s) : FieldKept n s0 (advanceTo t s) := by
  unfold advanceTo
  repeat' first
    | with_reducible assumption
    | (extract_lets +onlyGivenNames x; refine (fun (hx : FieldKept n s0 x) => ?_) (?_ : FieldKept n s0 x) <;> [clear_value x; subst x])
    | (extract_lets +onlyGivenNames x; clear_value x)
    | (with_reducible apply FieldKept.upd; first | with_reducible assumption)

theorem free_fld (s : State) (n : Nat) (h : FieldKept n s0 s) : FieldKept n s0 (free s).2 := by
  unfold free
  repeat' first
    | with_reducible assumption
    | (with_reducible apply FieldKept.upd; first | with_reducible assumption)

theorem emit_fld (o : Output) (s : State) (n : Nat) (h : FieldKept n s0 s) : FieldKept n s0 (emit o s) := by
  unfold emit
  repeat' first
    | with_reducible assumption
    | (with_reducible apply FieldKept.upd; first | with_reducible assumption)

theorem writeByte_fld (space a : Nat) (b : Byte) (s : State) (n : Nat)
    (h : FieldKept n s0 s) : FieldKept n s0 (writeByte space a b s) := by
  unfold writeByte
  repeat' first
    | with_reducible assumption
    | with_reducible apply FieldKept.ite
    | split
    | (with_reducible apply FieldKept.upd; first | with_reducible assumption)

theorem writeBytes_fld (space a : Nat) (bs : List Byte) (s : State) (n : Nat) (h : FieldKept n s0 s) :
    FieldKept n s0 (writeBytes space a bs s) := by
  induction bs generalizing a s with
  | nil => exact h
  | cons b bs ih => exact ih _ _ (writeByte_fld _ _ _ _ _ h)

theorem clearPoison_fld (space a n : Nat) (s : State) (m : Nat)
    (h : FieldKept m s0 s) : FieldKept m s0 (clearPoison space a n s) := by
  unfold clearPoison
  repeat' first
    | with_reducible assumption
    | (extract_lets +onlyGivenNames x; refine (fun (hx : FieldKept m s0 x) => ?_) (?_ : FieldKept m s0 x) <;> [clear_value x; subst x])
    | (extract_lets +onlyGivenNames x; clear_value x)
    | (with_reducible apply FieldKept.upd; first | with_reducible assumption)

theorem keepOld_fld (space a n : Nat) (land : Option Nat) (s : State) (m : Nat)
    (h : FieldKept m s0 s) : FieldKept m s0 (keepOld space a n land s) := by
  unfold keepOld
  repeat' first
    | with_reducible assumption
    | with_reducible apply FieldKept.ite
    | split
    | (with_reducible apply FieldKept.upd; first | with_reducible assumption)

theorem dropTags_fld (space a n : Nat) (s : State) (m : Nat)
    (h : FieldKept m s0 s) : FieldKept m s0 (dropTags space a n s) := by
  unfold dropTags
  repeat' first
    | with_reducible assumption
    | (with_reducible apply FieldKept.upd; first | with_reducible assumption)

theorem storeAs_fld (land : Option Nat) (space a : Nat) (bs : List Byte) (s : State) (n : Nat)
    (h : FieldKept n s0 s) : FieldKept n s0 (storeAs land space a bs s) := by
  unfold storeAs
  repeat' first
    | with_reducible assumption
    | with_reducible apply clearPoison_fld
    | with_reducible apply writeBytes_fld
    | with_reducible apply keepOld_fld
    | with_reducible apply dropTags_fld

theorem store_fld (space a : Nat) (bs : List Byte) (s : State) (n : Nat)
    (h : FieldKept n s0 s) : FieldKept n s0 (store space a bs s) := by
  unfold store
  repeat' first
    | with_reducible assumption
    | with_reducible apply storeAs_fld

theorem poisonWord_fld (space a : Nat) (s : State) (n : Nat)
    (h : FieldKept n s0 s) : FieldKept n s0 (poisonWord space a s) := by
  unfold poisonWord
  repeat' first
    | with_reducible assumption
    | with_reducible apply FieldKept.ite
    | split
    | (with_reducible apply FieldKept.upd; first | with_reducible assumption)

theorem breakWord_fld (space a : Nat) (s : State) (n : Nat)
    (h : FieldKept n s0 s) : FieldKept n s0 (breakWord space a s) := by
  unfold breakWord
  repeat' first
    | with_reducible assumption
    | with_reducible apply FieldKept.ite
    | split
    | (with_reducible apply FieldKept.upd; first | with_reducible assumption)

theorem storeMem_fld (a : Nat) (bs : List Byte) (s : State) (n : Nat)
    (h : FieldKept n s0 s) : FieldKept n s0 (storeMem a bs s) := by
  unfold storeMem
  repeat' first
    | with_reducible assumption
    | with_reducible apply store_fld

theorem logEntry_fld (l key : Nat) (bs : List Byte) (s : State) (hn : [9, 10, 11, 682, 689].contains n = false)
    (h : FieldKept n s0 s) : FieldKept n s0 (logEntry l key bs s) := by
  unfold logEntry
  repeat' first
    | with_reducible assumption
    | (exact sub_ne _ _ (by decide) hn)
    | (intro e; subst e; exact absurd hn (by decide))
    | (intro x; beta_reduce)
    | (extract_lets +onlyGivenNames x; refine (fun (hx : FieldKept n s0 x) => ?_) (?_ : FieldKept n s0 x) <;> [clear_value x; subst x])
    | (extract_lets +onlyGivenNames x; refine (fun (hx : FieldKept n s0 x.2) => ?_) (?_ : FieldKept n s0 x.2) <;> [clear_value x; subst x])
    | (extract_lets +onlyGivenNames x; clear_value x)
    | with_reducible apply FieldKept.ite
    | split
    | with_reducible apply storeMem_fld
    | with_reducible apply wr_fld
    | with_reducible apply sat_fld
    | with_reducible apply FieldKept.foldl
    | with_reducible apply FieldKept.foldl_snd
    | with_reducible apply FieldKept.foldl_fst
    | (with_reducible apply FieldKept.upd; first | with_reducible assumption | with_reducible apply storeMem_fld | with_reducible apply wr_fld | with_reducible apply sat_fld | with_reducible apply FieldKept.foldl | with_reducible apply FieldKept.foldl_snd | with_reducible apply FieldKept.foldl_fst)

theorem errorLog_fld (unitType unitInst cls cause tag : Nat) (tagValid : Bool) (addr detail : Nat) (s : State)
    (hn : [9, 10, 11, 682, 689].contains n = false)
    (h : FieldKept n s0 s) : FieldKept n s0 (errorLog unitType unitInst cls cause tag tagValid addr detail s) := by
  unfold errorLog
  repeat' first
    | with_reducible assumption
    | (exact sub_ne _ _ (by decide) hn)
    | (intro e; subst e; exact absurd hn (by decide))
    | with_reducible apply logEntry_fld

theorem guardEntry_fld (die tag gen kind lines dieCode addr cycles : Nat) (s : State)
    (hn : [9, 10, 11, 205, 682, 689].contains n = false)
    (h : FieldKept n s0 s) : FieldKept n s0 (guardEntry die tag gen kind lines dieCode addr cycles s) := by
  unfold guardEntry
  repeat' first
    | with_reducible assumption
    | (exact sub_ne _ _ (by decide) hn)
    | (intro e; subst e; exact absurd hn (by decide))
    | (extract_lets +onlyGivenNames x; refine (fun (hx : FieldKept n s0 x) => ?_) (?_ : FieldKept n s0 x) <;> [clear_value x; subst x])
    | (extract_lets +onlyGivenNames x; clear_value x)
    | with_reducible apply sat_fld
    | with_reducible apply logEntry_fld

theorem dueDump_fld (die : Nat) (s : State) (hn : [9, 10, 11, 688].contains n = false)
    (h : FieldKept n s0 s) : FieldKept n s0 (dueDump die s) := by
  unfold dueDump
  repeat' first
    | with_reducible assumption
    | (exact sub_ne _ _ (by decide) hn)
    | (intro e; subst e; exact absurd hn (by decide))
    | with_reducible apply FieldKept.ite
    | split
    | with_reducible apply sat_fld
    | (with_reducible apply FieldKept.upd; first | with_reducible assumption | with_reducible apply sat_fld)

theorem programFatal_fld (die kind tag : Nat) (s : State)
    (hn : [9, 10, 11, 196, 197, 198, 686, 688].contains n = false)
    (h : FieldKept n s0 s) : FieldKept n s0 (programFatal die kind tag s) := by
  unfold programFatal
  repeat' first
    | with_reducible assumption
    | (exact sub_ne _ _ (by decide) hn)
    | (intro e; subst e; exact absurd hn (by decide))
    | (extract_lets +onlyGivenNames x; refine (fun (hx : FieldKept n s0 x) => ?_) (?_ : FieldKept n s0 x) <;> [clear_value x; subst x])
    | (extract_lets +onlyGivenNames x; refine (fun (hx : FieldKept n s0 x.2) => ?_) (?_ : FieldKept n s0 x.2) <;> [clear_value x; subst x])
    | (extract_lets +onlyGivenNames x; clear_value x)
    | with_reducible apply FieldKept.ite
    | split
    | with_reducible apply sat_fld
    | with_reducible apply wr_fld
    | with_reducible apply setb_fld
    | with_reducible apply dueDump_fld
    | (with_reducible apply FieldKept.upd; first | with_reducible assumption | with_reducible apply sat_fld | with_reducible apply wr_fld | with_reducible apply setb_fld | with_reducible apply dueDump_fld)

theorem guardFault_fld (die tag gen kind lines dieCode addr cycles : Nat) (s : State)
    (hn : [9, 10, 11, 196, 197, 198, 205, 682, 686, 688, 689].contains n = false)
    (h : FieldKept n s0 s) : FieldKept n s0 (guardFault die tag gen kind lines dieCode addr cycles s) := by
  unfold guardFault
  repeat' first
    | with_reducible assumption
    | (exact sub_ne _ _ (by decide) hn)
    | (intro e; subst e; exact absurd hn (by decide))
    | (extract_lets +onlyGivenNames x; refine (fun (hx : FieldKept n s0 x) => ?_) (?_ : FieldKept n s0 x) <;> [clear_value x; subst x])
    | (extract_lets +onlyGivenNames x; clear_value x)
    | with_reducible apply FieldKept.ite
    | split
    | with_reducible apply guardEntry_fld
    | with_reducible apply programFatal_fld

theorem uncorrFields_ne {m : Nat} (u : Nat) (hn : [9, 10, 11, 697, 698, 699, 703, 704, 705].contains m = false) :
    (uncorrFields u).1.fid ≠ m ∧ (uncorrFields u).2.fid ≠ m := by
  unfold uncorrFields
  repeat' first
    | split
    | (constructor <;> (intro e; subst e; exact absurd hn (by decide)))

theorem countUncorr_fld {m : Nat} (space : Nat) (ws : List Nat) (s : State)
    (hn : [9, 10, 11, 697, 698, 699, 703, 704, 705].contains m = false) (h : FieldKept m s0 s) : FieldKept m s0 (countUncorr space ws s) := by
  unfold countUncorr
  refine FieldKept.foldl _ (fun _ _ h => wrU_fld _ _ _ _ _ (uncorrFields_ne _ hn).2 h)
    (FieldKept.foldl _ (fun _ _ h => satU_fld _ _ _ _ _ _ (uncorrFields_ne _ hn).1 (sub_ne _ _ (by decide) hn) h) h)

theorem meetWords_fld (space : Nat) (ws : List Nat) (s : State) (n : Nat)
    (h : FieldKept n s0 s) : FieldKept n s0 (meetWords space ws s) := by
  unfold meetWords
  repeat' first
    | with_reducible assumption
    | (extract_lets +onlyGivenNames x; refine (fun (hx : FieldKept n s0 x) => ?_) (?_ : FieldKept n s0 x) <;> [clear_value x; subst x])
    | (extract_lets +onlyGivenNames x; clear_value x)
    | (with_reducible apply FieldKept.upd; first | with_reducible assumption)

theorem uncorrectable_fld (space : Nat) (ws : List Nat) (cause tag : Nat) (tagValid : Bool) (s : State)
    (hn : [9, 10, 11, 670, 682, 685, 689, 697, 698, 699, 703, 704, 705].contains n = false)
    (h : FieldKept n s0 s) : FieldKept n s0 (uncorrectable space ws cause tag tagValid s) := by
  unfold uncorrectable
  repeat' first
    | with_reducible assumption
    | (exact sub_ne _ _ (by decide) hn)
    | (intro e; subst e; exact absurd hn (by decide))
    | (extract_lets +onlyGivenNames x; refine (fun (hx : FieldKept n s0 x) => ?_) (?_ : FieldKept n s0 x) <;> [clear_value x; subst x])
    | (extract_lets +onlyGivenNames x; clear_value x)
    | with_reducible apply FieldKept.ite
    | split
    | with_reducible apply meetWords_fld
    | with_reducible apply setb_fld
    | with_reducible apply sat_fld
    | with_reducible apply countUncorr_fld
    | with_reducible apply errorLog_fld

theorem viewReport_fld {m : Nat} (space a n : Nat) (tag : Option Nat) (s : State)
    (hn : [9, 10, 11, 670, 682, 685, 689, 697, 698, 699, 703, 704, 705].contains m = false)
    (h : FieldKept m s0 s) : FieldKept m s0 (viewReport space a n tag s) := by
  unfold viewReport
  repeat' first
    | with_reducible assumption
    | (exact sub_ne _ _ (by decide) hn)
    | (intro e; subst e; exact absurd hn (by decide))
    | with_reducible apply FieldKept.ite
    | split
    | with_reducible apply uncorrectable_fld

theorem readReportOf_fld {m : Nat} (space a n : Nat) (tag : Option Nat) (s : State)
    (hn : [9, 10, 11, 670, 682, 685, 689, 697, 698, 699, 703, 704, 705].contains m = false)
    (h : FieldKept m s0 s) : FieldKept m s0 (readReportOf space a n tag s) := by
  unfold readReportOf
  repeat' first
    | with_reducible assumption
    | (exact sub_ne _ _ (by decide) hn)
    | (intro e; subst e; exact absurd hn (by decide))
    | with_reducible apply FieldKept.ite
    | split
    | with_reducible apply viewReport_fld
    | with_reducible apply uncorrectable_fld

theorem readReport_fld {m : Nat} (space a n tag : Nat) (s : State)
    (hn : [9, 10, 11, 670, 682, 685, 689, 697, 698, 699, 703, 704, 705].contains m = false)
    (h : FieldKept m s0 s) : FieldKept m s0 (readReport space a n tag s) := by
  unfold readReport
  repeat' first
    | with_reducible assumption
    | (exact sub_ne _ _ (by decide) hn)
    | (intro e; subst e; exact absurd hn (by decide))
    | with_reducible apply readReportOf_fld

theorem partReport_fld {m : Nat} (a n : Nat) (s : State)
    (hn : [9, 10, 11, 670, 682, 685, 689, 697, 698, 699, 703, 704, 705].contains m = false)
    (h : FieldKept m s0 s) : FieldKept m s0 (partReport a n s) := by
  unfold partReport
  repeat' first
    | with_reducible assumption
    | (exact sub_ne _ _ (by decide) hn)
    | (intro e; subst e; exact absurd hn (by decide))
    | with_reducible apply readReportOf_fld

theorem setQueue_fld (dieCode q : Nat) (ts : List QTok) (s : State) (n : Nat)
    (h : FieldKept n s0 s) : FieldKept n s0 (setQueue dieCode q ts s) := by
  unfold setQueue
  repeat' first
    | with_reducible assumption
    | (with_reducible apply FieldKept.upd; first | with_reducible assumption)

theorem settleHead_fld {m : Nat} (dieCode n : Nat) (s : State) (hn : [9, 10, 11, 204].contains m = false) (h : FieldKept m s0 s) :
    FieldKept m s0 (settleHead dieCode n s) := by
  unfold settleHead
  split
  · exact h
  · extract_lets r
    split
    · exact h
    · exact sat_fld _ _ _ _ _ (by intro e; subst e; exact absurd hn (by decide)) (sub_ne _ _ (by decide) hn)
        (setQueue_fld _ _ _ _ _ h)

theorem enqueue_fld (src : Option Nat) (die dieCode q word e : Nat) (s : State)
    (hn : [9, 10, 11, 196, 197, 198, 204, 205, 682, 686, 688, 689].contains n = false)
    (h : FieldKept n s0 s) : FieldKept n s0 (enqueue src die dieCode q word e s) := by
  unfold enqueue
  repeat' first
    | with_reducible assumption
    | (exact sub_ne _ _ (by decide) hn)
    | (intro e; subst e; exact absurd hn (by decide))
    | (extract_lets +onlyGivenNames x; refine (fun (hx : FieldKept n s0 x) => ?_) (?_ : FieldKept n s0 x) <;> [clear_value x; subst x])
    | (extract_lets +onlyGivenNames x; clear_value x)
    | with_reducible apply FieldKept.ite
    | split
    | with_reducible apply settleHead_fld
    | with_reducible apply setQueue_fld
    | with_reducible apply guardFault_fld

theorem hostRingWrite_fld {m : Nat} (r n : Nat) (bs : List Byte) (s : State) (hn : [524].contains m = false)
    (h : FieldKept m s0 s) : FieldKept m s0 (hostRingWrite r n bs s) := by
  unfold hostRingWrite
  repeat' first
    | with_reducible assumption
    | (exact sub_ne _ _ (by decide) hn)
    | (intro e; subst e; exact absurd hn (by decide))
    | (extract_lets +onlyGivenNames x; refine (fun (hx : FieldKept m s0 x) => ?_) (?_ : FieldKept m s0 x) <;> [clear_value x; subst x])
    | (extract_lets +onlyGivenNames x; clear_value x)
    | with_reducible apply emit_fld
    | with_reducible apply wr_fld

theorem hostRecord_fld (d token ns : Nat) (s : State) (hn : [9, 10, 11, 515, 517, 524].contains n = false)
    (h : FieldKept n s0 s) : FieldKept n s0 (hostRecord d token ns s) := by
  unfold hostRecord
  repeat' first
    | with_reducible assumption
    | (exact sub_ne _ _ (by decide) hn)
    | (intro e; subst e; exact absurd hn (by decide))
    | (extract_lets +onlyGivenNames x; refine (fun (hx : FieldKept n s0 x) => ?_) (?_ : FieldKept n s0 x) <;> [clear_value x; subst x])
    | (extract_lets +onlyGivenNames x; clear_value x)
    | with_reducible apply FieldKept.ite
    | split
    | with_reducible apply setb_fld
    | with_reducible apply sat_fld
    | with_reducible apply hostRingWrite_fld

theorem dieRecord_fld (d token ns : Nat) (s : State) (hn : [9, 10, 11, 206, 229].contains n = false)
    (h : FieldKept n s0 s) : FieldKept n s0 (dieRecord d token ns s) := by
  unfold dieRecord
  repeat' first
    | with_reducible assumption
    | (exact sub_ne _ _ (by decide) hn)
    | (intro e; subst e; exact absurd hn (by decide))
    | (extract_lets +onlyGivenNames x; refine (fun (hx : FieldKept n s0 x) => ?_) (?_ : FieldKept n s0 x) <;> [clear_value x; subst x])
    | (extract_lets +onlyGivenNames x; clear_value x)
    | with_reducible apply FieldKept.ite
    | split
    | with_reducible apply sat_fld
    | with_reducible apply wr_fld
    | with_reducible apply storeMem_fld

theorem completionRecord_fld (d token : Nat) (notify : Bool) (c : Nat) (s : State)
    (hn : [9, 10, 11, 206, 229, 515, 517, 524].contains n = false)
    (h : FieldKept n s0 s) : FieldKept n s0 (completionRecord d token notify c s) := by
  unfold completionRecord
  repeat' first
    | with_reducible assumption
    | (exact sub_ne _ _ (by decide) hn)
    | (intro e; subst e; exact absurd hn (by decide))
    | (extract_lets +onlyGivenNames x; refine (fun (hx : FieldKept n s0 x) => ?_) (?_ : FieldKept n s0 x) <;> [clear_value x; subst x])
    | (extract_lets +onlyGivenNames x; clear_value x)
    | with_reducible apply FieldKept.ite
    | split
    | with_reducible apply dieRecord_fld
    | with_reducible apply hostRecord_fld

end Sys2Proof.Machine
end

