-- ==== Sys2Proof/Laws/FieldsFlags.lean ====
section
/-! SUPPORT. Which register fields the operations of Machine/Flags.lean may write: one lemma for each, which names the field numbers it can change. -/

set_option linter.unusedTactic false
set_option linter.unreachableTactic false
set_option linter.unusedVariables false

namespace Sys2Proof.Machine

open Sys2Proof

variable {n : Nat} {s0 : State}

theorem setPred_fld (q : SeqId) (i : Nat) (b : Bool) (s : State) (hn : [214].contains n = false)
    (h : FieldKept n s0 s) : FieldKept n s0 (setPred q i b s) := by
  unfold setPred
  repeat' first
    | with_reducible assumption
    | (exact sub_ne _ _ (by decide) hn)
    | (intro e; subst e; exact absurd hn (by decide))
    | with_reducible apply wr_fld

theorem foldStatus_fld (q : SeqId) (tok : Nat) (s : State) (hn : [215].contains n = false)
    (h : FieldKept n s0 s) : FieldKept n s0 (foldStatus q tok s) := by
  unfold foldStatus
  repeat' first
    | with_reducible assumption
    | (exact sub_ne _ _ (by decide) hn)
    | (intro e; subst e; exact absurd hn (by decide))
    | with_reducible apply wr_fld

theorem setLast_fld (q : SeqId) (tok : Nat) (s : State) (hn : [216, 217, 218].contains n = false)
    (h : FieldKept n s0 s) : FieldKept n s0 (setLast q tok s) := by
  unfold setLast
  repeat' first
    | with_reducible assumption
    | (exact sub_ne _ _ (by decide) hn)
    | (intro e; subst e; exact absurd hn (by decide))
    | with_reducible apply wr_fld
    | with_reducible apply setb_fld

theorem statusLoad_fld (q : SeqId) (toks : List Nat) (s : State) (hn : [215, 216, 217, 218].contains n = false)
    (h : FieldKept n s0 s) : FieldKept n s0 (statusLoad q toks s) := by
  unfold statusLoad
  repeat' first
    | with_reducible assumption
    | (exact sub_ne _ _ (by decide) hn)
    | (intro e; subst e; exact absurd hn (by decide))
    | (intro x; beta_reduce)
    | with_reducible apply setLast_fld
    | with_reducible apply foldStatus_fld
    | with_reducible apply FieldKept.foldl
    | with_reducible apply FieldKept.foldl_snd
    | with_reducible apply FieldKept.foldl_fst

theorem wrA_fld (f : Field) (die p sub v : Nat) (s : State) (hf : f.fid ≠ n) (h : FieldKept n s0 s) :
    FieldKept n s0 (wrA f die p sub v s) :=
  wrU_fld _ _ _ _ _ hf h

end Sys2Proof.Machine
end

