-- ==== Sys2Proof/Laws/FieldsSequencer.lean ====
section
/-! SUPPORT. Which register fields the operations of Machine/Sequencer.lean may write: one lemma for each, which names the field numbers it can change. -/

set_option linter.unusedTactic false
set_option linter.unreachableTactic false
set_option linter.unusedVariables false

namespace Sys2Proof.Machine

open Sys2Proof

variable {n : Nat} {s0 : State}

theorem setSeqX_fld (q : SeqId) (x : SeqX) (s : State) (n : Nat)
    (h : FieldKept n s0 s) : FieldKept n s0 (setSeqX q x s) := by
  unfold setSeqX
  repeat' first
    | with_reducible assumption
    | (with_reducible apply FieldKept.upd; first | with_reducible assumption)

theorem setSeqState_fld (q : SeqId) (v : Nat) (s : State) (hn : [213].contains n = false)
    (h : FieldKept n s0 s) : FieldKept n s0 (setSeqState q v s) := by
  unfold setSeqState
  repeat' first
    | with_reducible assumption
    | (exact sub_ne _ _ (by decide) hn)
    | (intro e; subst e; exact absurd hn (by decide))
    | with_reducible apply wr_fld

theorem toIdle_fld (q : SeqId) (s : State) (hn : [213].contains n = false)
    (h : FieldKept n s0 s) : FieldKept n s0 (toIdle q s) := by
  unfold toIdle
  repeat' first
    | with_reducible assumption
    | (exact sub_ne _ _ (by decide) hn)
    | (intro e; subst e; exact absurd hn (by decide))
    | with_reducible apply setSeqState_fld

theorem setPc_fld {m : Nat} (q : SeqId) (n : Nat) (s : State) (hn : [209, 213].contains m = false)
    (h : FieldKept m s0 s) : FieldKept m s0 (setPc q n s) := by
  unfold setPc
  repeat' first
    | with_reducible assumption
    | (exact sub_ne _ _ (by decide) hn)
    | (intro e; subst e; exact absurd hn (by decide))
    | (extract_lets +onlyGivenNames x; refine (fun (hx : FieldKept m s0 x) => ?_) (?_ : FieldKept m s0 x) <;> [clear_value x; subst x])
    | (extract_lets +onlyGivenNames x; clear_value x)
    | with_reducible apply FieldKept.ite
    | split
    | with_reducible apply wr_fld
    | with_reducible apply toIdle_fld

theorem enterOther_fld (q : SeqId) (tag base : Nat) (s : State)
    (hn : [9, 10, 11, 196, 197, 198, 205, 209, 210, 213, 682, 686, 688, 689].contains n = false)
    (h : FieldKept n s0 s) : FieldKept n s0 (enterOther q tag base s) := by
  unfold enterOther
  repeat' first
    | with_reducible assumption
    | (exact sub_ne _ _ (by decide) hn)
    | (intro e; subst e; exact absurd hn (by decide))
    | (extract_lets +onlyGivenNames x; refine (fun (hx : FieldKept n s0 x) => ?_) (?_ : FieldKept n s0 x) <;> [clear_value x; subst x])
    | (extract_lets +onlyGivenNames x; refine (fun (hx : FieldKept n s0 x.2) => ?_) (?_ : FieldKept n s0 x.2) <;> [clear_value x; subst x])
    | (extract_lets +onlyGivenNames x; clear_value x)
    | with_reducible apply FieldKept.ite
    | split
    | with_reducible apply wr_fld
    | with_reducible apply setSeqX_fld
    | with_reducible apply guardFault_fld
    | with_reducible apply setSeqState_fld
    | (with_reducible apply FieldKept.upd; first | with_reducible assumption | with_reducible apply wr_fld | with_reducible apply setSeqX_fld | with_reducible apply guardFault_fld | with_reducible apply setSeqState_fld)

theorem popQueue_fld {m : Nat} (q : SeqId) (n from' : Nat) (s : State) (hn : [9, 10, 11, 204].contains m = false) (h : FieldKept m s0 s) :
    FieldKept m s0 (popQueue q n from' s).2 := by
  unfold popQueue
  extract_lets s'
  have h' : FieldKept m s0 s' := settleHead_fld _ _ _ (sub_ne _ _ (by decide) hn) h
  clear_value s'
  split
  · exact h'
  · exact settleHead_fld _ _ _ (sub_ne _ _ (by decide) hn) (setQueue_fld _ _ _ _ _ h')

theorem enterWait_fld {m : Nat} (q : SeqId) (n from' : Nat) (s : State) (hn : [213, 220, 221].contains m = false)
    (h : FieldKept m s0 s) : FieldKept m s0 (enterWait q n from' s) := by
  unfold enterWait
  repeat' first
    | with_reducible assumption
    | (exact sub_ne _ _ (by decide) hn)
    | (intro e; subst e; exact absurd hn (by decide))
    | (extract_lets +onlyGivenNames x; refine (fun (hx : FieldKept m s0 x) => ?_) (?_ : FieldKept m s0 x) <;> [clear_value x; subst x])
    | (extract_lets +onlyGivenNames x; clear_value x)
    | with_reducible apply setSeqX_fld
    | with_reducible apply setb_fld
    | with_reducible apply wr_fld
    | with_reducible apply setSeqState_fld
    | (with_reducible apply FieldKept.upd; first | with_reducible assumption | with_reducible apply setSeqX_fld | with_reducible apply setb_fld | with_reducible apply wr_fld | with_reducible apply setSeqState_fld)

theorem leaveWait_fld (q : SeqId) (s : State) (hn : [213, 221].contains n = false)
    (h : FieldKept n s0 s) : FieldKept n s0 (leaveWait q s) := by
  unfold leaveWait
  repeat' first
    | with_reducible assumption
    | (exact sub_ne _ _ (by decide) hn)
    | (intro e; subst e; exact absurd hn (by decide))
    | with_reducible apply FieldKept.ite
    | split
    | with_reducible apply setb_fld
    | with_reducible apply setSeqState_fld
    | with_reducible apply setSeqX_fld
    | (with_reducible apply FieldKept.upd; first | with_reducible assumption | with_reducible apply setb_fld | with_reducible apply setSeqState_fld | with_reducible apply setSeqX_fld)

theorem doWaits_fld (q : SeqId) (c : Cmd) (s : State) (hn : [9, 10, 11, 204, 213, 220, 221].contains n = false) (h : FieldKept n s0 s) :
    FieldKept n s0 (doWaits q c s).2 := by
  unfold doWaits
  extract_lets x start ra
  have hra : FieldKept n s0 ra.2 := by
    show FieldKept n s0 (ite _ _ _ : Option (List Nat × Option Nat) × State).2
    repeat' first
      | with_reducible assumption
      | split
      | (exact sub_ne _ _ (by decide) hn)
      | with_reducible apply setSeqX_fld
      | with_reducible apply enterWait_fld
      | (refine FieldKept.snd (by with_reducible assumption) ?_; apply popQueue_fld)
  clear_value ra
  obtain ⟨o, s'⟩ := ra
  cases o with
  | none => exact hra
  | some o =>
    obtain ⟨o1, o2⟩ := o
    show FieldKept n s0 (ite _ _ _ : Option (List Nat × Option Nat) × State).2
    replace hra : FieldKept n s0 s' := hra
    repeat' first
      | with_reducible assumption
      | split
      | (exact sub_ne _ _ (by decide) hn)
      | with_reducible apply setSeqX_fld
      | with_reducible apply enterWait_fld
      | (refine FieldKept.snd (by with_reducible assumption) ?_; apply popQueue_fld)

theorem loadStatus_fld (q : SeqId) (toks : List Nat) (s : State) (hn : [215, 216, 217, 218].contains n = false)
    (h : FieldKept n s0 s) : FieldKept n s0 (loadStatus q toks s) := by
  unfold loadStatus
  repeat' first
    | with_reducible assumption
    | (exact sub_ne _ _ (by decide) hn)
    | (intro e; subst e; exact absurd hn (by decide))
    | (extract_lets +onlyGivenNames x; refine (fun (hx : FieldKept n s0 x) => ?_) (?_ : FieldKept n s0 x) <;> [clear_value x; subst x])
    | (extract_lets +onlyGivenNames x; refine (fun (hx : FieldKept n s0 x.2) => ?_) (?_ : FieldKept n s0 x.2) <;> [clear_value x; subst x])
    | (extract_lets +onlyGivenNames x; clear_value x)
    | with_reducible apply FieldKept.ite
    | split
    | with_reducible apply statusLoad_fld
    | with_reducible apply setSeqX_fld
    | (with_reducible apply FieldKept.upd; first | with_reducible assumption | with_reducible apply statusLoad_fld | with_reducible apply setSeqX_fld)

theorem noteIssue_fld (q : SeqId) (t : Nat) (s : State) (hn : [201, 219].contains n = false)
    (h : FieldKept n s0 s) : FieldKept n s0 (noteIssue q t s) := by
  unfold noteIssue
  repeat' first
    | with_reducible assumption
    | (exact sub_ne _ _ (by decide) hn)
    | (intro e; subst e; exact absurd hn (by decide))
    | (extract_lets +onlyGivenNames x; refine (fun (hx : FieldKept n s0 x) => ?_) (?_ : FieldKept n s0 x) <;> [clear_value x; subst x])
    | (extract_lets +onlyGivenNames x; clear_value x)
    | with_reducible apply addW_fld
    | with_reducible apply wr_fld
    | with_reducible apply setSeqX_fld
    | (with_reducible apply FieldKept.upd; first | with_reducible assumption | with_reducible apply addW_fld | with_reducible apply wr_fld | with_reducible apply setSeqX_fld)

theorem produceAt_fld (q : SeqId) (c : Cmd) (word e : Nat) (s : State)
    (hn : [9, 10, 11, 196, 197, 198, 204, 205, 682, 686, 688, 689].contains n = false)
    (h : FieldKept n s0 s) : FieldKept n s0 (produceAt q c word e s) := by
  unfold produceAt
  repeat' first
    | with_reducible assumption
    | (exact sub_ne _ _ (by decide) hn)
    | (intro e; subst e; exact absurd hn (by decide))
    | (extract_lets +onlyGivenNames x; refine (fun (hx : FieldKept n s0 x) => ?_) (?_ : FieldKept n s0 x) <;> [clear_value x; subst x])
    | (extract_lets +onlyGivenNames x; clear_value x)
    | with_reducible apply FieldKept.ite
    | split
    | with_reducible apply enqueue_fld
    | (with_reducible apply FieldKept.upd; first | with_reducible assumption | with_reducible apply enqueue_fld)

theorem skipCmd_fld (q : SeqId) (c : Cmd) (t : Nat) (s : State)
    (hn : [9, 10, 11, 196, 197, 198, 201, 202, 204, 205, 206, 209, 213, 219, 229, 515, 517, 524, 682, 686, 688,
    689].contains n = false) (h : FieldKept n s0 s) : FieldKept n s0 (skipCmd q c t s) := by
  unfold skipCmd
  repeat' first
    | with_reducible assumption
    | (exact sub_ne _ _ (by decide) hn)
    | (intro e; subst e; exact absurd hn (by decide))
    | (extract_lets +onlyGivenNames x; refine (fun (hx : FieldKept n s0 x) => ?_) (?_ : FieldKept n s0 x) <;> [clear_value x; subst x])
    | (extract_lets +onlyGivenNames x; clear_value x)
    | with_reducible apply addW_fld
    | with_reducible apply noteIssue_fld
    | with_reducible apply completionRecord_fld
    | with_reducible apply produceAt_fld
    | with_reducible apply setPc_fld

/-- The state in which a command that issues runs. -/
theorem prepare_fld (q : SeqId) (cls op : Nat) (s : State) (hn : [9, 10, 11, 204, 213, 215, 216, 217, 218, 220, 221].contains n = false)
    (h : FieldKept n s0 s) : (∀ t, prepare q cls op s = .hold t → FieldKept n s0 t) ∧
      ∀ t c k ts b, prepare q cls op s = .go t c k ts b → FieldKept n s0 t := by
  have hw := fun c s (h : FieldKept n s0 s) => doWaits_fld q c s (sub_ne _ _ (by decide) hn) h
  unfold prepare
  split
  · simp [h]
  · rename_i c _
    split
    · simp [h]
    · split
      · rename_i e
        have := FieldKept.snd e (hw c s h)
        simp [this]
      · rename_i toks pop s' e
        have hs := FieldKept.snd e (hw c s h)
        extract_lets t1 stopped s1 s2
        split
        · simp [h]
        · refine ⟨by simp, fun t c' k ts b e => ?_⟩
          have : t = s2 := by
            injection e with e
            exact e.symm
          subst this
          have h1 : FieldKept n s0 s1 := advanceTo_fld _ _ _ (leaveWait_fld _ _ (sub_ne _ _ (by decide) hn) hs)
          show FieldKept n s0 (if c.statusLoad then loadStatus q toks s1 else s1)
          split
          · exact loadStatus_fld _ _ _ (sub_ne _ _ (by decide) hn) h1
          · exact h1

theorem streamCmd_fld (q : SeqId) (cls op : Nat) (body : Cmd → Nat → List Nat → State → State) (s : State)
    (hn : [9, 10, 11, 196, 197, 198, 201, 202, 204, 205, 206, 209, 213, 215, 216, 217, 218, 219, 220, 221, 229, 515, 517, 524, 682, 686, 688, 689].contains n = false)
    (hbody : ∀ c t toks s, FieldKept n s0 s → FieldKept n s0 (body c t toks s)) (h : FieldKept n s0 s) :
    FieldKept n s0 (streamCmd q cls op body s) := by
  unfold streamCmd
  split
  · rename_i e
    exact (prepare_fld q cls op s (sub_ne _ _ (by decide) hn) h).1 _ e
  · rename_i e
    have := (prepare_fld q cls op s (sub_ne _ _ (by decide) hn) h).2 _ _ _ _ _ e
    split
    · exact hbody _ _ _ _ this
    · exact skipCmd_fld _ _ _ _ (sub_ne _ _ (by decide) hn) this

theorem markLines_fld (p : PendingOp) (s : State) (n : Nat)
    (h : FieldKept n s0 s) : FieldKept n s0 (markLines p s) := by
  unfold markLines
  repeat' first
    | with_reducible assumption
    | (intro x; beta_reduce)
    | (extract_lets +onlyGivenNames x; refine (fun (hx : FieldKept n s0 x) => ?_) (?_ : FieldKept n s0 x) <;> [clear_value x; subst x])
    | (extract_lets +onlyGivenNames x; refine (fun (hx : FieldKept n s0 x.2) => ?_) (?_ : FieldKept n s0 x.2) <;> [clear_value x; subst x])
    | (extract_lets +onlyGivenNames x; clear_value x)
    | with_reducible apply FieldKept.foldl
    | with_reducible apply FieldKept.foldl_snd
    | with_reducible apply FieldKept.foldl_fst
    | (with_reducible apply FieldKept.upd; first | with_reducible assumption | with_reducible apply FieldKept.foldl | with_reducible apply FieldKept.foldl_snd | with_reducible apply FieldKept.foldl_fst)

theorem remarkLines_fld (p : PendingOp) (land : Option Nat) (s : State) (n : Nat)
    (h : FieldKept n s0 s) : FieldKept n s0 (remarkLines p land s) := by
  unfold remarkLines
  repeat' first
    | with_reducible assumption
    | with_reducible apply FieldKept.ite
    | split
    | (with_reducible apply FieldKept.upd; first | with_reducible assumption)

theorem addOp_fld (p : PendingOp) (s : State) (n : Nat) (h : FieldKept n s0 s) : FieldKept n s0 (addOp p s) := by
  unfold addOp
  repeat' first
    | with_reducible assumption
    | (extract_lets +onlyGivenNames x; refine (fun (hx : FieldKept n s0 x) => ?_) (?_ : FieldKept n s0 x) <;> [clear_value x; subst x])
    | (extract_lets +onlyGivenNames x; clear_value x)
    | with_reducible apply markLines_fld
    | (with_reducible apply FieldKept.upd; first | with_reducible assumption | with_reducible apply markLines_fld)

theorem track_fld (p : PendingOp) (s : State) (hn : [207, 208].contains n = false)
    (h : FieldKept n s0 s) : FieldKept n s0 (track p s) := by
  unfold track
  repeat' first
    | with_reducible assumption
    | (exact sub_ne _ _ (by decide) hn)
    | (intro e; subst e; exact absurd hn (by decide))
    | (extract_lets +onlyGivenNames x; refine (fun (hx : FieldKept n s0 x) => ?_) (?_ : FieldKept n s0 x) <;> [clear_value x; subst x])
    | (extract_lets +onlyGivenNames x; clear_value x)
    | with_reducible apply FieldKept.ite
    | split
    | with_reducible apply addOp_fld
    | with_reducible apply wr_fld

theorem guardReads_fld (q : SeqId) (tag gen c : Nat) (rs : List Range) (s : State)
    (hn : [9, 10, 11, 196, 197, 198, 205, 682, 686, 688, 689].contains n = false)
    (h : FieldKept n s0 s) : FieldKept n s0 (guardReads q tag gen c rs s) := by
  unfold guardReads
  repeat' first
    | with_reducible assumption
    | (exact sub_ne _ _ (by decide) hn)
    | (intro e; subst e; exact absurd hn (by decide))
    | with_reducible apply FieldKept.ite
    | split
    | with_reducible apply guardFault_fld

theorem reportReads_fld (tag : Nat) (rs : List Range) (s : State)
    (hn : [9, 10, 11, 670, 682, 685, 689, 697, 698, 699, 703, 704, 705].contains n = false)
    (h : FieldKept n s0 s) : FieldKept n s0 (reportReads tag rs s) := by
  unfold reportReads
  repeat' first
    | with_reducible assumption
    | (exact sub_ne _ _ (by decide) hn)
    | (intro e; subst e; exact absurd hn (by decide))
    | (intro x; beta_reduce)
    | with_reducible apply readReport_fld
    | with_reducible apply FieldKept.foldl
    | with_reducible apply FieldKept.foldl_snd
    | with_reducible apply FieldKept.foldl_fst

theorem layerOverflow_fld (die tid wide cause frm : Nat) (o : OverflowFlag) (s : State)
    (hn : [9, 10, 11, 682, 689].contains n = false)
    (h : FieldKept n s0 s) : FieldKept n s0 (layerOverflow die tid wide cause frm o s) := by
  unfold layerOverflow
  repeat' first
    | with_reducible assumption
    | (exact sub_ne _ _ (by decide) hn)
    | (intro e; subst e; exact absurd hn (by decide))
    | (extract_lets +onlyGivenNames x; refine (fun (hx : FieldKept n s0 x) => ?_) (?_ : FieldKept n s0 x) <;> [clear_value x; subst x])
    | (extract_lets +onlyGivenNames x; clear_value x)
    | with_reducible apply logEntry_fld
    | (with_reducible apply FieldKept.upd; first | with_reducible assumption | with_reducible apply logEntry_fld)

theorem setOverFlag_fld (q : SeqId) (f : Nat) (o : OverflowFlag) (s : State) (n : Nat)
    (h : FieldKept n s0 s) : FieldKept n s0 (setOverFlag q f o s) := by
  unfold setOverFlag
  repeat' first
    | with_reducible assumption
    | (extract_lets +onlyGivenNames x; refine (fun (hx : FieldKept n s0 x) => ?_) (?_ : FieldKept n s0 x) <;> [clear_value x; subst x])
    | (extract_lets +onlyGivenNames x; clear_value x)
    | with_reducible apply setSeqX_fld
    | (with_reducible apply FieldKept.upd; first | with_reducible assumption | with_reducible apply setSeqX_fld)

theorem noteRepeat_fld (q : SeqId) (c : Cmd) (s : State) (hn : [9, 10, 11, 682, 689].contains n = false)
    (h : FieldKept n s0 s) : FieldKept n s0 (noteRepeat q c s) := by
  unfold noteRepeat
  repeat' first
    | with_reducible assumption
    | (exact sub_ne _ _ (by decide) hn)
    | (intro e; subst e; exact absurd hn (by decide))
    | (extract_lets +onlyGivenNames x; refine (fun (hx : FieldKept n s0 x) => ?_) (?_ : FieldKept n s0 x) <;> [clear_value x; subst x])
    | (extract_lets +onlyGivenNames x; refine (fun (hx : FieldKept n s0 x.2) => ?_) (?_ : FieldKept n s0 x.2) <;> [clear_value x; subst x])
    | (extract_lets +onlyGivenNames x; clear_value x)
    | with_reducible apply FieldKept.ite
    | split
    | with_reducible apply free_fld
    | with_reducible apply setOverFlag_fld
    | with_reducible apply layerOverflow_fld
    | refine FieldKept.snd (by with_reducible assumption) ?_
    | (with_reducible apply FieldKept.upd; first | with_reducible assumption | with_reducible apply free_fld | with_reducible apply setOverFlag_fld | with_reducible apply layerOverflow_fld | refine FieldKept.snd (by with_reducible assumption) ?_)

theorem noteOver_fld (p : PendingOp) (s : State) (n : Nat)
    (h : FieldKept n s0 s) : FieldKept n s0 (noteOver p s) := by
  unfold noteOver
  repeat' first
    | with_reducible assumption
    | (extract_lets +onlyGivenNames x; refine (fun (hx : FieldKept n s0 x) => ?_) (?_ : FieldKept n s0 x) <;> [clear_value x; subst x])
    | (extract_lets +onlyGivenNames x; refine (fun (hx : FieldKept n s0 x.2) => ?_) (?_ : FieldKept n s0 x.2) <;> [clear_value x; subst x])
    | (extract_lets +onlyGivenNames x; clear_value x)
    | with_reducible apply FieldKept.ite
    | split
    | (with_reducible apply FieldKept.upd; first | with_reducible assumption)

theorem noteOverflowEnd_fld (p : PendingOp) (s : State) (hn : [9, 10, 11, 682, 689].contains n = false)
    (h : FieldKept n s0 s) : FieldKept n s0 (noteOverflowEnd p s) := by
  unfold noteOverflowEnd
  repeat' first
    | with_reducible assumption
    | (exact sub_ne _ _ (by decide) hn)
    | (intro e; subst e; exact absurd hn (by decide))
    | (extract_lets +onlyGivenNames x; refine (fun (hx : FieldKept n s0 x) => ?_) (?_ : FieldKept n s0 x) <;> [clear_value x; subst x])
    | (extract_lets +onlyGivenNames x; refine (fun (hx : FieldKept n s0 x.2) => ?_) (?_ : FieldKept n s0 x.2) <;> [clear_value x; subst x])
    | (extract_lets +onlyGivenNames x; clear_value x)
    | with_reducible apply FieldKept.ite
    | split
    | with_reducible apply noteOver_fld
    | with_reducible apply setOverFlag_fld
    | with_reducible apply layerOverflow_fld
    | (with_reducible apply FieldKept.upd; first | with_reducible assumption | with_reducible apply noteOver_fld | with_reducible apply setOverFlag_fld | with_reducible apply layerOverflow_fld)

theorem startOp_fld (q : SeqId) (cmd : Cmd) (rc c : Nat) (r : OpResult) (s : State)
    (hn : [9, 10, 11, 196, 197, 198, 205, 207, 208, 670, 682, 685, 686, 688, 689, 697, 698, 699, 703, 704, 705].contains
    n = false) (h : FieldKept n s0 s) : FieldKept n s0 (startOp q cmd rc c r s) := by
  unfold startOp
  repeat' first
    | with_reducible assumption
    | (exact sub_ne _ _ (by decide) hn)
    | (intro e; subst e; exact absurd hn (by decide))
    | (extract_lets +onlyGivenNames x; refine (fun (hx : FieldKept n s0 x) => ?_) (?_ : FieldKept n s0 x) <;> [clear_value x; subst x])
    | (extract_lets +onlyGivenNames x; clear_value x)
    | with_reducible apply FieldKept.ite
    | split
    | with_reducible apply guardFault_fld
    | with_reducible apply reportReads_fld
    | with_reducible apply guardReads_fld
    | with_reducible apply programFatal_fld
    | with_reducible apply errorLog_fld
    | with_reducible apply noteRepeat_fld
    | with_reducible apply track_fld

theorem setBusy_fld (k c : Nat) (s : State) (n : Nat) (h : FieldKept n s0 s) : FieldKept n s0 (setBusy k c s) := by
  unfold setBusy
  repeat' first
    | with_reducible assumption
    | (with_reducible apply FieldKept.upd; first | with_reducible assumption)

theorem collide_fld (q : SeqId) (t free : Nat) (s : State)
    (hn : [9, 10, 11, 196, 197, 198, 201, 205, 209, 213, 219, 682, 686, 688, 689].contains n = false)
    (h : FieldKept n s0 s) : FieldKept n s0 (collide q t free s) := by
  unfold collide
  repeat' first
    | with_reducible assumption
    | (exact sub_ne _ _ (by decide) hn)
    | (intro e; subst e; exact absurd hn (by decide))
    | (extract_lets +onlyGivenNames x; refine (fun (hx : FieldKept n s0 x) => ?_) (?_ : FieldKept n s0 x) <;> [clear_value x; subst x])
    | (extract_lets +onlyGivenNames x; refine (fun (hx : FieldKept n s0 x.2) => ?_) (?_ : FieldKept n s0 x.2) <;> [clear_value x; subst x])
    | (extract_lets +onlyGivenNames x; clear_value x)
    | with_reducible apply FieldKept.ite
    | split
    | with_reducible apply guardFault_fld
    | with_reducible apply free_fld
    | with_reducible apply setSeqX_fld
    | with_reducible apply setPc_fld
    | with_reducible apply noteIssue_fld
    | refine FieldKept.snd (by with_reducible assumption) ?_
    | (with_reducible apply FieldKept.upd; first | with_reducible assumption | with_reducible apply guardFault_fld | with_reducible apply free_fld | with_reducible apply setSeqX_fld | with_reducible apply setPc_fld | with_reducible apply noteIssue_fld | refine FieldKept.snd (by with_reducible assumption) ?_)

theorem keepLarder_fld (l : Nat) (w : LarderWrite) (s : State) (hn : [156, 157, 158, 159, 160].contains n = false)
    (h : FieldKept n s0 s) : FieldKept n s0 (keepLarder l w s) := by
  unfold keepLarder
  repeat' first
    | with_reducible assumption
    | (exact sub_ne _ _ (by decide) hn)
    | (intro e; subst e; exact absurd hn (by decide))
    | (extract_lets +onlyGivenNames x; refine (fun (hx : FieldKept n s0 x) => ?_) (?_ : FieldKept n s0 x) <;> [clear_value x; subst x])
    | (extract_lets +onlyGivenNames x; clear_value x)
    | (with_reducible apply FieldKept.upd; first | with_reducible assumption)

theorem applyLarder_fld (l : Nat) (w : LarderWrite) (s : State) (hn : [156, 157, 158, 159, 160].contains n = false)
    (h : FieldKept n s0 s) : FieldKept n s0 (applyLarder l w s) := by
  unfold applyLarder
  repeat' first
    | with_reducible assumption
    | (exact sub_ne _ _ (by decide) hn)
    | (intro e; subst e; exact absurd hn (by decide))
    | (extract_lets +onlyGivenNames x; refine (fun (hx : FieldKept n s0 x) => ?_) (?_ : FieldKept n s0 x) <;> [clear_value x; subst x])
    | (extract_lets +onlyGivenNames x; refine (fun (hx : FieldKept n s0 x.2) => ?_) (?_ : FieldKept n s0 x.2) <;> [clear_value x; subst x])
    | (extract_lets +onlyGivenNames x; clear_value x)
    | with_reducible apply FieldKept.ite
    | split
    | with_reducible apply keepLarder_fld
    | with_reducible apply wrU_fld
    | (with_reducible apply FieldKept.upd; first | with_reducible assumption | with_reducible apply keepLarder_fld | with_reducible apply wrU_fld)

theorem applyWrite_fld (l : Nat) (w : WriteBack) (s : State) (n : Nat)
    (h : FieldKept n s0 s) : FieldKept n s0 (applyWrite l w s) := by
  unfold applyWrite
  repeat' first
    | with_reducible assumption
    | with_reducible apply storeAs_fld

theorem applyAudit_fld (a : AuditSample) (s : State) (hn : [9, 10, 11, 50, 51].contains n = false)
    (h : FieldKept n s0 s) : FieldKept n s0 (applyAudit a s) := by
  unfold applyAudit
  repeat' first
    | with_reducible assumption
    | (exact sub_ne _ _ (by decide) hn)
    | (intro e; subst e; exact absurd hn (by decide))
    | (extract_lets +onlyGivenNames x; refine (fun (hx : FieldKept n s0 x) => ?_) (?_ : FieldKept n s0 x) <;> [clear_value x; subst x])
    | (extract_lets +onlyGivenNames x; clear_value x)
    | with_reducible apply FieldKept.ite
    | split
    | with_reducible apply sat_fld
    | with_reducible apply wr_fld

theorem sampleLoss_fld (ws : List WriteBack) (s : State) (hn : [340].contains n = false)
    (h : FieldKept n s0 s) : FieldKept n s0 (sampleLoss ws s) := by
  unfold sampleLoss
  repeat' first
    | with_reducible assumption
    | (exact sub_ne _ _ (by decide) hn)
    | (intro e; subst e; exact absurd hn (by decide))
    | (extract_lets +onlyGivenNames x; refine (fun (hx : FieldKept n s0 x) => ?_) (?_ : FieldKept n s0 x) <;> [clear_value x; subst x])
    | (extract_lets +onlyGivenNames x; clear_value x)
    | with_reducible apply FieldKept.ite
    | split
    | with_reducible apply wr_fld
    | (with_reducible apply FieldKept.upd; first | with_reducible assumption | with_reducible apply wr_fld)

theorem settleAudits_fld (ap : Nat) (s : State) (hn : [9, 10, 11, 50, 51].contains n = false)
    (h : FieldKept n s0 s) : FieldKept n s0 (settleAudits ap s) := by
  unfold settleAudits
  repeat' first
    | with_reducible assumption
    | (exact sub_ne _ _ (by decide) hn)
    | (intro e; subst e; exact absurd hn (by decide))
    | (intro x; beta_reduce)
    | (extract_lets +onlyGivenNames x; refine (fun (hx : FieldKept n s0 x) => ?_) (?_ : FieldKept n s0 x) <;> [clear_value x; subst x])
    | (extract_lets +onlyGivenNames x; refine (fun (hx : FieldKept n s0 x.2) => ?_) (?_ : FieldKept n s0 x.2) <;> [clear_value x; subst x])
    | (extract_lets +onlyGivenNames x; clear_value x)
    | with_reducible apply applyAudit_fld
    | with_reducible apply FieldKept.foldl
    | with_reducible apply FieldKept.foldl_snd
    | with_reducible apply FieldKept.foldl_fst
    | with_reducible apply FieldKept.foldr
    | (with_reducible apply FieldKept.upd; first | with_reducible assumption | with_reducible apply applyAudit_fld | with_reducible apply FieldKept.foldl | with_reducible apply FieldKept.foldl_snd | with_reducible apply FieldKept.foldl_fst | with_reducible apply FieldKept.foldr)

theorem releaseOps_fld (e : Nat) (ps : List PendingOp) (bl : List (Nat × Nat × Nat × Nat)) (s : State)
    (hn : [9, 10, 11, 196, 197, 198, 204, 205, 206, 229, 515, 517, 524, 682, 686, 688, 689].contains n = false) (h : FieldKept n s0 s) :
    FieldKept n s0 (releaseOps e ps bl s).2 := by
  induction ps generalizing bl s with
  | nil => exact h
  | cons p ps ih =>
    unfold releaseOps
    repeat' first
      | with_reducible assumption
      | (extract_lets +onlyGivenNames x; refine (fun (hx : FieldKept n s0 x) => ?_) (?_ : FieldKept n s0 x) <;> [clear_value x; subst x])
      | (extract_lets +onlyGivenNames x; refine (fun (hx : FieldKept n s0 x.2) => ?_) (?_ : FieldKept n s0 x.2) <;> [clear_value x; subst x])
      | split
      | apply ih
      | (exact sub_ne _ _ (by decide) hn)
      | with_reducible apply enqueue_fld
      | with_reducible apply completionRecord_fld

theorem refreshTracker_fld (s : State) (hn : [207].contains n = false)
    (h : FieldKept n s0 s) : FieldKept n s0 (refreshTracker s) := by
  unfold refreshTracker
  repeat' first
    | with_reducible assumption
    | (exact sub_ne _ _ (by decide) hn)
    | (intro e; subst e; exact absurd hn (by decide))
    | (intro x; beta_reduce)
    | with_reducible apply wr_fld
    | with_reducible apply FieldKept.foldl
    | with_reducible apply FieldKept.foldl_snd
    | with_reducible apply FieldKept.foldl_fst

theorem CopyJob.report_fld (j : CopyJob) (die tag gen c : Nat) (s : State)
    (hn : [9, 10, 11, 196, 197, 198, 205, 670, 682, 685, 686, 688, 689, 697, 698, 699, 703, 704, 705].contains n = false)
    (h : FieldKept n s0 s) : FieldKept n s0 (CopyJob.report j die tag gen c s) := by
  unfold CopyJob.report
  repeat' first
    | with_reducible assumption
    | (exact sub_ne _ _ (by decide) hn)
    | (intro e; subst e; exact absurd hn (by decide))
    | (extract_lets +onlyGivenNames x; refine (fun (hx : FieldKept n s0 x) => ?_) (?_ : FieldKept n s0 x) <;> [clear_value x; subst x])
    | (extract_lets +onlyGivenNames x; clear_value x)
    | with_reducible apply reportReads_fld
    | with_reducible apply guardReads_fld

theorem nextCopy_fld (space c : Nat) (s : State)
    (hn : [9, 10, 11, 196, 197, 198, 205, 670, 682, 685, 686, 688, 689, 697, 698, 699, 703, 704, 705].contains n = false)
    (h : FieldKept n s0 s) : FieldKept n s0 (nextCopy space c s) := by
  unfold nextCopy
  repeat' first
    | with_reducible assumption
    | (exact sub_ne _ _ (by decide) hn)
    | (intro e; subst e; exact absurd hn (by decide))
    | (extract_lets +onlyGivenNames x; refine (fun (hx : FieldKept n s0 x) => ?_) (?_ : FieldKept n s0 x) <;> [clear_value x; subst x])
    | (extract_lets +onlyGivenNames x; refine (fun (hx : FieldKept n s0 x.2) => ?_) (?_ : FieldKept n s0 x.2) <;> [clear_value x; subst x])
    | (extract_lets +onlyGivenNames x; clear_value x)
    | with_reducible apply FieldKept.ite
    | split
    | with_reducible apply CopyJob.report_fld
    | with_reducible apply remarkLines_fld
    | (with_reducible apply FieldKept.upd; first | with_reducible assumption | with_reducible apply CopyJob.report_fld | with_reducible apply remarkLines_fld)

end Sys2Proof.Machine
end

