-- ==== Sys2Proof/Laws/FieldsControl.lean ====
section
/-! SUPPORT. Which register fields the operations of Machine/Control.lean may write: one lemma for each, which names the field numbers it can change. -/

set_option linter.unusedTactic false
set_option linter.unreachableTactic false
set_option linter.unusedVariables false

namespace Sys2Proof.Machine

open Sys2Proof

variable {n : Nat} {s0 : State}

theorem setReg_fld (q : SeqId) (r v : Nat) (s : State) (hn : [223].contains n = false)
    (h : FieldKept n s0 s) : FieldKept n s0 (setReg q r v s) := by
  unfold setReg
  repeat' first
    | with_reducible assumption
    | (exact sub_ne _ _ (by decide) hn)
    | (intro e; subst e; exact absurd hn (by decide))
    | with_reducible apply wr_fld

theorem controlIssue_fld (q : SeqId) (c : Cmd) (t tok : Nat) (effect : State → State) (s : State)
    (hn : [9, 10, 11, 196, 197, 198, 201, 204, 205, 206, 209, 213, 219, 229, 515, 517, 524, 682, 686, 688, 689].contains
    n = false) (heffect : ∀ s, FieldKept n s0 s → FieldKept n s0 (effect s))
    (h : FieldKept n s0 s) : FieldKept n s0 (controlIssue q c t tok effect s) := by
  unfold controlIssue
  repeat' first
    | with_reducible assumption
    | (exact sub_ne _ _ (by decide) hn)
    | (intro e; subst e; exact absurd hn (by decide))
    | (intro x; beta_reduce)
    | (extract_lets +onlyGivenNames x; refine (fun (hx : FieldKept n s0 x) => ?_) (?_ : FieldKept n s0 x) <;> [clear_value x; subst x])
    | (extract_lets +onlyGivenNames x; clear_value x)
    | with_reducible apply heffect
    | with_reducible apply completionRecord_fld
    | with_reducible apply produceAt_fld
    | with_reducible apply setPc_fld
    | with_reducible apply noteIssue_fld

theorem controlCmd_fld (q : SeqId) (op : Nat) (effect : Cmd → State → State) (s : State)
    (hn : [9, 10, 11, 196, 197, 198, 201, 202, 204, 205, 206, 209, 213, 215, 216, 217, 218, 219, 220, 221, 229, 515, 517,
    524, 682, 686, 688, 689].contains n = false) (heffect : ∀ x0 s, FieldKept n s0 s → FieldKept n s0 (effect x0 s))
    (h : FieldKept n s0 s) : FieldKept n s0 (controlCmd q op effect s) := by
  unfold controlCmd
  repeat' first
    | with_reducible assumption
    | (exact sub_ne _ _ (by decide) hn)
    | (intro e; subst e; exact absurd hn (by decide))
    | (intro x; beta_reduce)
    | with_reducible apply heffect
    | with_reducible apply streamCmd_fld
    | with_reducible apply controlIssue_fld

theorem setDreg_fld (q : SeqId) (f : Cmd → State → Nat) (c : Cmd) (s : State) (hn : [223].contains n = false)
    (h : FieldKept n s0 s) : FieldKept n s0 (setDreg q f c s) := by
  unfold setDreg
  repeat' first
    | with_reducible assumption
    | (exact sub_ne _ _ (by decide) hn)
    | (intro e; subst e; exact absurd hn (by decide))
    | with_reducible apply setReg_fld

theorem jumpTo_fld (q : SeqId) (c : Cmd) (s : State) (hn : [209, 213].contains n = false)
    (h : FieldKept n s0 s) : FieldKept n s0 (jumpTo q c s) := by
  unfold jumpTo
  repeat' first
    | with_reducible assumption
    | (exact sub_ne _ _ (by decide) hn)
    | (intro e; subst e; exact absurd hn (by decide))
    | with_reducible apply setPc_fld
    | with_reducible apply setSeqState_fld

theorem setFlag_fld (q : SeqId) (f : Nat) (b : Bool) (o : Option OverflowFlag) (s : State)
    (hn : [214].contains n = false) (h : FieldKept n s0 s) : FieldKept n s0 (setFlag q f b o s) := by
  unfold setFlag
  repeat' first
    | with_reducible assumption
    | (exact sub_ne _ _ (by decide) hn)
    | (intro e; subst e; exact absurd hn (by decide))
    | (extract_lets +onlyGivenNames x; refine (fun (hx : FieldKept n s0 x) => ?_) (?_ : FieldKept n s0 x) <;> [clear_value x; subst x])
    | (extract_lets +onlyGivenNames x; refine (fun (hx : FieldKept n s0 x.2) => ?_) (?_ : FieldKept n s0 x.2) <;> [clear_value x; subst x])
    | (extract_lets +onlyGivenNames x; clear_value x)
    | with_reducible apply FieldKept.ite
    | split
    | with_reducible apply setSeqX_fld
    | with_reducible apply setPred_fld
    | (with_reducible apply FieldKept.upd; first | with_reducible assumption | with_reducible apply setSeqX_fld | with_reducible apply setPred_fld)

theorem clearSticky_fld (q : SeqId) (s : State) (hn : [215].contains n = false)
    (h : FieldKept n s0 s) : FieldKept n s0 (clearSticky q s) := by
  unfold clearSticky
  repeat' first
    | with_reducible assumption
    | (exact sub_ne _ _ (by decide) hn)
    | (intro e; subst e; exact absurd hn (by decide))
    | with_reducible apply wr_fld
    | with_reducible apply setSeqX_fld
    | (with_reducible apply FieldKept.upd; first | with_reducible assumption | with_reducible apply wr_fld | with_reducible apply setSeqX_fld)

theorem switchAtBoundary_fld (q : SeqId) (s : State)
    (hn : [9, 10, 11, 196, 197, 198, 204, 205, 209, 210, 213, 220, 221, 682, 686, 688, 689].contains n = false)
    (h : FieldKept n s0 s) : FieldKept n s0 (switchAtBoundary q s) := by
  unfold switchAtBoundary
  repeat' first
    | with_reducible assumption
    | (exact sub_ne _ _ (by decide) hn)
    | (intro e; subst e; exact absurd hn (by decide))
    | (extract_lets +onlyGivenNames x; refine (fun (hx : FieldKept n s0 x) => ?_) (?_ : FieldKept n s0 x) <;> [clear_value x; subst x])
    | (extract_lets +onlyGivenNames x; refine (fun (hx : FieldKept n s0 x.2) => ?_) (?_ : FieldKept n s0 x.2) <;> [clear_value x; subst x])
    | (extract_lets +onlyGivenNames x; clear_value x)
    | with_reducible apply FieldKept.ite
    | split
    | with_reducible apply doWaits_fld
    | with_reducible apply advanceTo_fld
    | with_reducible apply enterOther_fld
    | with_reducible apply leaveWait_fld
    | with_reducible apply setSeqX_fld
    | refine FieldKept.snd (by with_reducible assumption) ?_
    | (with_reducible apply FieldKept.upd; first | with_reducible assumption | with_reducible apply doWaits_fld | with_reducible apply advanceTo_fld | with_reducible apply enterOther_fld | with_reducible apply leaveWait_fld | with_reducible apply setSeqX_fld | refine FieldKept.snd (by with_reducible assumption) ?_)

theorem tokenTimeout_fld (q : SeqId) (s : State)
    (hn : [9, 10, 11, 196, 197, 198, 205, 213, 221, 682, 686, 688, 689].contains n = false)
    (h : FieldKept n s0 s) : FieldKept n s0 (tokenTimeout q s) := by
  unfold tokenTimeout
  repeat' first
    | with_reducible assumption
    | (exact sub_ne _ _ (by decide) hn)
    | (intro e; subst e; exact absurd hn (by decide))
    | (extract_lets +onlyGivenNames x; refine (fun (hx : FieldKept n s0 x) => ?_) (?_ : FieldKept n s0 x) <;> [clear_value x; subst x])
    | (extract_lets +onlyGivenNames x; refine (fun (hx : FieldKept n s0 x.2) => ?_) (?_ : FieldKept n s0 x.2) <;> [clear_value x; subst x])
    | (extract_lets +onlyGivenNames x; clear_value x)
    | with_reducible apply FieldKept.ite
    | split
    | with_reducible apply setSeqX_fld
    | with_reducible apply advanceTo_fld
    | with_reducible apply guardFault_fld
    | with_reducible apply setb_fld
    | with_reducible apply setSeqState_fld
    | (with_reducible apply FieldKept.upd; first | with_reducible assumption | with_reducible apply setSeqX_fld | with_reducible apply advanceTo_fld | with_reducible apply guardFault_fld | with_reducible apply setb_fld | with_reducible apply setSeqState_fld)

theorem stopSeq_fld (q : SeqId) (s : State) (hn : [213, 221].contains n = false)
    (h : FieldKept n s0 s) : FieldKept n s0 (stopSeq q s) := by
  unfold stopSeq
  repeat' first
    | with_reducible assumption
    | (exact sub_ne _ _ (by decide) hn)
    | (intro e; subst e; exact absurd hn (by decide))
    | with_reducible apply FieldKept.ite
    | split
    | with_reducible apply setb_fld
    | with_reducible apply setSeqState_fld
    | with_reducible apply setSeqX_fld
    | (with_reducible apply FieldKept.upd; first | with_reducible assumption | with_reducible apply setb_fld | with_reducible apply setSeqState_fld | with_reducible apply setSeqX_fld)

theorem programStop_fld (s : State) (hn : [213, 221].contains n = false)
    (h : FieldKept n s0 s) : FieldKept n s0 (programStop s) := by
  unfold programStop
  repeat' first
    | with_reducible assumption
    | (exact sub_ne _ _ (by decide) hn)
    | (intro e; subst e; exact absurd hn (by decide))
    | (intro x; beta_reduce)
    | with_reducible apply FieldKept.ite
    | split
    | with_reducible apply stopSeq_fld
    | with_reducible apply advanceTo_fld
    | with_reducible apply FieldKept.foldl
    | with_reducible apply FieldKept.foldl_snd
    | with_reducible apply FieldKept.foldl_fst
    | (with_reducible apply FieldKept.upd; first | with_reducible assumption | with_reducible apply stopSeq_fld | with_reducible apply advanceTo_fld | with_reducible apply FieldKept.foldl | with_reducible apply FieldKept.foldl_snd | with_reducible apply FieldKept.foldl_fst)

end Sys2Proof.Machine
end

