-- ==== Sys2Proof/Laws/FieldsArrays.lean ====
section
/-! SUPPORT. Which register fields the operations of Machine/Arrays.lean may write: one lemma for each, which names the field numbers it can change. -/

set_option linter.unusedTactic false
set_option linter.unreachableTactic false
set_option linter.unusedVariables false

namespace Sys2Proof.Machine

open Sys2Proof

variable {n : Nat} {s0 : State}

theorem setArrX_fld (die p : Nat) (x : ArrX) (s : State) (n : Nat)
    (h : FieldKept n s0 s) : FieldKept n s0 (setArrX die p x s) := by
  unfold setArrX
  repeat' first
    | with_reducible assumption
    | (with_reducible apply FieldKept.upd; first | with_reducible assumption)

theorem markUnready_fld (inst : Nat) (s : State) (n : Nat)
    (h : FieldKept n s0 s) : FieldKept n s0 (markUnready inst s) := by
  unfold markUnready
  repeat' first
    | with_reducible assumption
    | with_reducible apply FieldKept.ite
    | split
    | (with_reducible apply FieldKept.upd; first | with_reducible assumption)

theorem settleWrites_fld (s : State) (n : Nat) (h : FieldKept n s0 s) : FieldKept n s0 (settleWrites s) := by
  unfold settleWrites
  repeat' first
    | with_reducible assumption
    | (with_reducible apply FieldKept.upd; first | with_reducible assumption)

theorem setReady_fld (u : Nat) (ready : Bool) (reason detail : Nat) (s : State) (hn : [3, 7, 8].contains n = false)
    (h : FieldKept n s0 s) : FieldKept n s0 (setReady u ready reason detail s) := by
  unfold setReady
  repeat' first
    | with_reducible assumption
    | (exact sub_ne _ _ (by decide) hn)
    | (intro e; subst e; exact absurd hn (by decide))
    | (extract_lets +onlyGivenNames x; refine (fun (hx : FieldKept n s0 x) => ?_) (?_ : FieldKept n s0 x) <;> [clear_value x; subst x])
    | (extract_lets +onlyGivenNames x; clear_value x)
    | with_reducible apply FieldKept.ite
    | split
    | with_reducible apply settleWrites_fld
    | with_reducible apply wrU_fld
    | with_reducible apply markUnready_fld

theorem advanceAudit_fld (inst die p l : Nat) (s : State) (n : Nat)
    (h : FieldKept n s0 s) : FieldKept n s0 (advanceAudit inst die p l s) := by
  unfold advanceAudit
  repeat' first
    | with_reducible assumption
    | (extract_lets +onlyGivenNames x; refine (fun (hx : FieldKept n s0 x) => ?_) (?_ : FieldKept n s0 x) <;> [clear_value x; subst x])
    | (extract_lets +onlyGivenNames x; refine (fun (hx : FieldKept n s0 x.2) => ?_) (?_ : FieldKept n s0 x.2) <;> [clear_value x; subst x])
    | (extract_lets +onlyGivenNames x; clear_value x)
    | with_reducible apply FieldKept.ite
    | split
    | with_reducible apply setArrX_fld
    | (with_reducible apply FieldKept.upd; first | with_reducible assumption | with_reducible apply setArrX_fld)

theorem abortSweep_fld (inst die p t : Nat) (s : State) (hn : [9, 10, 11, 43].contains n = false)
    (h : FieldKept n s0 s) : FieldKept n s0 (abortSweep inst die p t s) := by
  unfold abortSweep
  repeat' first
    | with_reducible assumption
    | (exact sub_ne _ _ (by decide) hn)
    | (intro e; subst e; exact absurd hn (by decide))
    | (extract_lets +onlyGivenNames x; refine (fun (hx : FieldKept n s0 x) => ?_) (?_ : FieldKept n s0 x) <;> [clear_value x; subst x])
    | (extract_lets +onlyGivenNames x; refine (fun (hx : FieldKept n s0 x.2) => ?_) (?_ : FieldKept n s0 x.2) <;> [clear_value x; subst x])
    | (extract_lets +onlyGivenNames x; clear_value x)
    | with_reducible apply FieldKept.ite
    | split
    | with_reducible apply setArrX_fld
    | with_reducible apply sat_fld
    | (with_reducible apply FieldKept.upd; first | with_reducible assumption | with_reducible apply setArrX_fld | with_reducible apply sat_fld)

theorem occupyArrays_fld (inst die t : Nat) (sparse : Bool) (arrs : List (Nat × Nat × ArrRes × SegIn)) (s : State)
    (hn : [9, 10, 11, 43].contains n = false)
    (h : FieldKept n s0 s) : FieldKept n s0 (occupyArrays inst die t sparse arrs s) := by
  unfold occupyArrays
  repeat' first
    | with_reducible assumption
    | (exact sub_ne _ _ (by decide) hn)
    | (intro e; subst e; exact absurd hn (by decide))
    | (intro x; beta_reduce)
    | (extract_lets +onlyGivenNames x; refine (fun (hx : FieldKept n s0 x) => ?_) (?_ : FieldKept n s0 x) <;> [clear_value x; subst x])
    | (extract_lets +onlyGivenNames x; refine (fun (hx : FieldKept n s0 x.2) => ?_) (?_ : FieldKept n s0 x.2) <;> [clear_value x; subst x])
    | (extract_lets +onlyGivenNames x; clear_value x)
    | with_reducible apply FieldKept.ite
    | split
    | with_reducible apply abortSweep_fld
    | with_reducible apply setArrX_fld
    | with_reducible apply setBusy_fld
    | with_reducible apply advanceAudit_fld
    | with_reducible apply FieldKept.foldl
    | with_reducible apply FieldKept.foldl_snd
    | with_reducible apply FieldKept.foldl_fst
    | (with_reducible apply FieldKept.upd; first | with_reducible assumption | with_reducible apply abortSweep_fld | with_reducible apply setArrX_fld | with_reducible apply setBusy_fld | with_reducible apply advanceAudit_fld | with_reducible apply FieldKept.foldl | with_reducible apply FieldKept.foldl_snd | with_reducible apply FieldKept.foldl_fst)

end Sys2Proof.Machine
end

