-- ==== Sys2Proof/Laws/FieldsPages.lean ====
section
/-! SUPPORT. Which register fields the operations of Machine/Pages.lean may write: one lemma for each, which names the field numbers it can change. -/

set_option linter.unusedTactic false
set_option linter.unreachableTactic false
set_option linter.unusedVariables false

namespace Sys2Proof.Machine

open Sys2Proof

variable {n : Nat} {s0 : State}

theorem pageAccess_fld (u : Nat) (s : State) (n : Nat) (h : FieldKept n s0 s) : FieldKept n s0 (pageAccess u s) := by
  unfold pageAccess
  repeat' first
    | with_reducible assumption
    | (with_reducible apply FieldKept.upd; first | with_reducible assumption)

theorem keepSat_fld (u : Nat) (s : State) (hn : [9, 10, 11].contains n = false)
    (h : FieldKept n s0 s) : FieldKept n s0 (keepSat u s) := by
  unfold keepSat
  repeat' first
    | with_reducible assumption
    | (exact sub_ne _ _ (by decide) hn)
    | (intro e; subst e; exact absurd hn (by decide))
    | (intro x; beta_reduce)
    | with_reducible apply FieldKept.ite
    | split
    | with_reducible apply sat_fld
    | with_reducible apply setSat_fld
    | with_reducible apply FieldKept.foldl
    | with_reducible apply FieldKept.foldl_snd
    | with_reducible apply FieldKept.foldl_fst

end Sys2Proof.Machine
end

