-- ==== Sys2Proof/Laws/FieldsRow.lean ====
section
/-! SUPPORT. Which register fields the operations of Machine/Row.lean may write: one lemma for each, which names the field numbers it can change. -/

set_option linter.unusedTactic false
set_option linter.unreachableTactic false
set_option linter.unusedVariables false

namespace Sys2Proof.Machine

open Sys2Proof

variable {n : Nat} {s0 : State}

theorem larderFlush_fld (unit : Nat) (s : State) (hn : [159].contains n = false) (h : FieldKept n s0 s) :
    FieldKept n s0 (larderFlush unit s) := by
  refine ⟨fun k hk => ?_⟩
  rw [← h.same k hk]
  refine smFind_filter _ k s.flds fun v => ?_
  have : k.fid ≠ F.re_TAG_VALID.fid := fun e => by
    rw [e] at hk
    subst hk
    exact absurd hn (by decide)
  simp [this]

theorem larderFlushAll_fld (s : State) (hn : [159].contains n = false) (h : FieldKept n s0 s) :
    FieldKept n s0 (larderFlushAll s) := by
  refine ⟨fun k hk => ?_⟩
  rw [← h.same k hk]
  refine smFind_filter _ k s.flds fun v => ?_
  have : k.fid ≠ F.re_TAG_VALID.fid := fun e => by
    rw [e] at hk
    subst hk
    exact absurd hn (by decide)
  simp [this]

end Sys2Proof.Machine
end

