-- ==== Sys2Proof/Laws/FieldsBins.lean ====
section
/-! SUPPORT. Which register fields the operations of Machine/Bins.lean may write: one lemma for each, which names the field numbers it can change. -/

set_option linter.unusedTactic false
set_option linter.unreachableTactic false
set_option linter.unusedVariables false

namespace Sys2Proof.Machine

open Sys2Proof

variable {n : Nat} {s0 : State}

theorem binResult_fld (die code index : Nat) (s : State) (hn : [190, 191].contains n = false)
    (h : FieldKept n s0 s) : FieldKept n s0 (binResult die code index s) := by
  unfold binResult
  repeat' first
    | with_reducible assumption
    | (exact sub_ne _ _ (by decide) hn)
    | (intro e; subst e; exact absurd hn (by decide))
    | with_reducible apply wr_fld

theorem setValid_fld (q : SeqId) (b : Nat) (v : Bool) (s : State) (hn : [211, 212].contains n = false)
    (h : FieldKept n s0 s) : FieldKept n s0 (setValid q b v s) := by
  unfold setValid
  repeat' first
    | with_reducible assumption
    | (exact sub_ne _ _ (by decide) hn)
    | (intro e; subst e; exact absurd hn (by decide))
    | with_reducible apply FieldKept.ite
    | split
    | with_reducible apply setb_fld

theorem binLoad_fld (die seq bin : Nat) (s : State)
    (hn : [9, 10, 11, 185, 186, 188, 190, 191, 203, 211, 212].contains n = false)
    (h : FieldKept n s0 s) : FieldKept n s0 (binLoad die seq bin s) := by
  unfold binLoad
  repeat' first
    | with_reducible assumption
    | (exact sub_ne _ _ (by decide) hn)
    | (intro e; subst e; exact absurd hn (by decide))
    | (extract_lets +onlyGivenNames x; refine (fun (hx : FieldKept n s0 x) => ?_) (?_ : FieldKept n s0 x) <;> [clear_value x; subst x])
    | (extract_lets +onlyGivenNames x; clear_value x)
    | with_reducible apply FieldKept.ite
    | split
    | with_reducible apply wr_fld
    | with_reducible apply binResult_fld
    | with_reducible apply sat_fld
    | with_reducible apply setb_fld
    | with_reducible apply setValid_fld
    | (with_reducible apply FieldKept.upd; first | with_reducible assumption | with_reducible apply wr_fld | with_reducible apply binResult_fld | with_reducible apply sat_fld | with_reducible apply setb_fld | with_reducible apply setValid_fld)

theorem binLoadDone_fld (die : Nat) (s : State)
    (hn : [9, 10, 11, 188, 190, 191, 196, 197, 198, 211, 212, 670, 682, 685, 686, 688, 689, 697, 698, 699, 703, 704,
    705].contains n = false) (h : FieldKept n s0 s) : FieldKept n s0 (binLoadDone die s) := by
  unfold binLoadDone
  repeat' first
    | with_reducible assumption
    | (exact sub_ne _ _ (by decide) hn)
    | (intro e; subst e; exact absurd hn (by decide))
    | (extract_lets +onlyGivenNames x; refine (fun (hx : FieldKept n s0 x) => ?_) (?_ : FieldKept n s0 x) <;> [clear_value x; subst x])
    | (extract_lets +onlyGivenNames x; refine (fun (hx : FieldKept n s0 x.2) => ?_) (?_ : FieldKept n s0 x.2) <;> [clear_value x; subst x])
    | (extract_lets +onlyGivenNames x; clear_value x)
    | with_reducible apply FieldKept.ite
    | split
    | with_reducible apply setb_fld
    | with_reducible apply viewReport_fld
    | with_reducible apply uncorrectable_fld
    | with_reducible apply free_fld
    | with_reducible apply programFatal_fld
    | with_reducible apply binResult_fld
    | with_reducible apply setValid_fld
    | refine FieldKept.snd (by with_reducible assumption) ?_
    | (with_reducible apply FieldKept.upd; first | with_reducible assumption | with_reducible apply setb_fld | with_reducible apply viewReport_fld | with_reducible apply uncorrectable_fld | with_reducible apply free_fld | with_reducible apply programFatal_fld | with_reducible apply binResult_fld | with_reducible apply setValid_fld | refine FieldKept.snd (by with_reducible assumption) ?_)

end Sys2Proof.Machine
end

