-- ==== Sys2Proof/Laws/FieldsFaults.lean ====
section
/-! SUPPORT. Which register fields the operations of Machine/Faults.lean may write: one lemma for each, which names the field numbers it can change. -/

set_option linter.unusedTactic false
set_option linter.unreachableTactic false
set_option linter.unusedVariables false

namespace Sys2Proof.Machine

open Sys2Proof

variable {n : Nat} {s0 : State}

theorem stopIssue_fld (s : State) (n : Nat) (h : FieldKept n s0 s) : FieldKept n s0 (stopIssue s) := by
  unfold stopIssue
  repeat' first
    | with_reducible assumption
    | with_reducible apply FieldKept.ite
    | split
    | (with_reducible apply FieldKept.upd; first | with_reducible assumption)

theorem withdraw_fld (s : State) (hn : [366, 378].contains n = false)
    (h : FieldKept n s0 s) : FieldKept n s0 (withdraw s) := by
  unfold withdraw
  repeat' first
    | with_reducible assumption
    | (exact sub_ne _ _ (by decide) hn)
    | (intro e; subst e; exact absurd hn (by decide))
    | (extract_lets +onlyGivenNames x; refine (fun (hx : FieldKept n s0 x) => ?_) (?_ : FieldKept n s0 x) <;> [clear_value x; subst x])
    | (extract_lets +onlyGivenNames x; clear_value x)
    | with_reducible apply setb_fld
    | with_reducible apply stopIssue_fld
    | (with_reducible apply FieldKept.upd; first | with_reducible assumption | with_reducible apply setb_fld | with_reducible apply stopIssue_fld)

theorem discardCommits_fld (s : State) (hn : [591, 593, 594].contains n = false)
    (h : FieldKept n s0 s) : FieldKept n s0 (discardCommits s) := by
  unfold discardCommits
  repeat' first
    | with_reducible assumption
    | (exact sub_ne _ _ (by decide) hn)
    | (intro e; subst e; exact absurd hn (by decide))
    | (extract_lets +onlyGivenNames x; refine (fun (hx : FieldKept n s0 x) => ?_) (?_ : FieldKept n s0 x) <;> [clear_value x; subst x])
    | (extract_lets +onlyGivenNames x; clear_value x)
    | with_reducible apply FieldKept.ite
    | split
    | with_reducible apply setb_fld
    | with_reducible apply wr_fld
    | (with_reducible apply FieldKept.upd; first | with_reducible assumption | with_reducible apply setb_fld | with_reducible apply wr_fld)

theorem latchFatal_fld (code type inst : Nat) (s : State)
    (hn : [4, 9, 10, 11, 664, 672, 675, 676, 677, 688].contains n = false)
    (h : FieldKept n s0 s) : FieldKept n s0 (latchFatal code type inst s) := by
  unfold latchFatal
  repeat' first
    | with_reducible assumption
    | (exact sub_ne _ _ (by decide) hn)
    | (intro e; subst e; exact absurd hn (by decide))
    | (extract_lets +onlyGivenNames x; refine (fun (hx : FieldKept n s0 x) => ?_) (?_ : FieldKept n s0 x) <;> [clear_value x; subst x])
    | (extract_lets +onlyGivenNames x; clear_value x)
    | with_reducible apply FieldKept.ite
    | split
    | with_reducible apply sat_fld
    | with_reducible apply setb_fld
    | with_reducible apply wr_fld
    | with_reducible apply wrU_fld
    | (with_reducible apply FieldKept.upd; first | with_reducible assumption | with_reducible apply sat_fld | with_reducible apply setb_fld | with_reducible apply wr_fld | with_reducible apply wrU_fld)

theorem laterFatal_fld (u code : Nat) (s : State) (hn : [9, 10, 11, 682, 689].contains n = false)
    (h : FieldKept n s0 s) : FieldKept n s0 (laterFatal u code s) := by
  unfold laterFatal
  repeat' first
    | with_reducible assumption
    | (exact sub_ne _ _ (by decide) hn)
    | (intro e; subst e; exact absurd hn (by decide))
    | with_reducible apply errorLog_fld
    | (with_reducible apply FieldKept.upd; first | with_reducible assumption | with_reducible apply errorLog_fld)

theorem deviceFatal_fld (code type inst : Nat) (s : State)
    (hn : [3, 4, 7, 8, 9, 10, 11, 366, 378, 591, 593, 594, 664, 672, 675, 676, 677, 682, 688, 689].contains n = false)
    (h : FieldKept n s0 s) : FieldKept n s0 (deviceFatal code type inst s) := by
  unfold deviceFatal
  repeat' first
    | with_reducible assumption
    | (exact sub_ne _ _ (by decide) hn)
    | (intro e; subst e; exact absurd hn (by decide))
    | (intro x; beta_reduce)
    | (extract_lets +onlyGivenNames x; refine (fun (hx : FieldKept n s0 x) => ?_) (?_ : FieldKept n s0 x) <;> [clear_value x; subst x])
    | (extract_lets +onlyGivenNames x; refine (fun (hx : FieldKept n s0 x.2) => ?_) (?_ : FieldKept n s0 x.2) <;> [clear_value x; subst x])
    | (extract_lets +onlyGivenNames x; clear_value x)
    | with_reducible apply FieldKept.ite
    | split
    | with_reducible apply laterFatal_fld
    | with_reducible apply latchFatal_fld
    | with_reducible apply wrU_fld
    | with_reducible apply setReady_fld
    | with_reducible apply withdraw_fld
    | with_reducible apply discardCommits_fld
    | with_reducible apply FieldKept.foldl
    | with_reducible apply FieldKept.foldl_snd
    | with_reducible apply FieldKept.foldl_fst

theorem corrAlarm_fld (u : Nat) (s : State) (hn : [671, 673, 674].contains n = false)
    (h : FieldKept n s0 s) : FieldKept n s0 (corrAlarm u s) := by
  unfold corrAlarm
  repeat' first
    | with_reducible assumption
    | (exact sub_ne _ _ (by decide) hn)
    | (intro e; subst e; exact absurd hn (by decide))
    | with_reducible apply setb_fld
    | with_reducible apply wr_fld

theorem addCorrected_fld (u singles doubles : Nat) (s : State) (hn : [691, 692, 693, 694, 695, 696].contains n = false)
    (h : FieldKept n s0 s) : FieldKept n s0 (addCorrected u singles doubles s) := by
  unfold addCorrected
  extract_lets fs
  have hf : fs.1.fid ≠ n ∧ fs.2.fid ≠ n := by
    show (ite _ _ _ : Field × Field).1.fid ≠ n ∧ (ite _ _ _ : Field × Field).2.fid ≠ n
    repeat' first
      | split
      | (constructor <;> (intro e; subst e; exact absurd hn (by decide)))
  exact wrU_fld _ _ _ _ _ hf.1 (wrU_fld _ _ _ _ _ hf.2 h)

theorem noteCorrected_fld (u singles doubles : Nat) (s : State)
    (hn : [671, 673, 674, 691, 692, 693, 694, 695, 696].contains n = false)
    (h : FieldKept n s0 s) : FieldKept n s0 (noteCorrected u singles doubles s) := by
  unfold noteCorrected
  repeat' first
    | with_reducible assumption
    | (exact sub_ne _ _ (by decide) hn)
    | (intro e; subst e; exact absurd hn (by decide))
    | (extract_lets +onlyGivenNames x; refine (fun (hx : FieldKept n s0 x) => ?_) (?_ : FieldKept n s0 x) <;> [clear_value x; subst x])
    | (extract_lets +onlyGivenNames x; clear_value x)
    | with_reducible apply FieldKept.ite
    | split
    | with_reducible apply addCorrected_fld
    | with_reducible apply corrAlarm_fld
    | (with_reducible apply FieldKept.upd; first | with_reducible assumption | with_reducible apply addCorrected_fld | with_reducible apply corrAlarm_fld)

theorem noteScrubbed_fld (u singles doubles : Nat) (s : State)
    (hn : [671, 673, 674, 691, 692, 693, 694, 695, 696].contains n = false)
    (h : FieldKept n s0 s) : FieldKept n s0 (noteScrubbed u singles doubles s) := by
  unfold noteScrubbed
  repeat' first
    | with_reducible assumption
    | (exact sub_ne _ _ (by decide) hn)
    | (intro e; subst e; exact absurd hn (by decide))
    | (extract_lets +onlyGivenNames x; refine (fun (hx : FieldKept n s0 x) => ?_) (?_ : FieldKept n s0 x) <;> [clear_value x; subst x])
    | (extract_lets +onlyGivenNames x; refine (fun (hx : FieldKept n s0 x.2) => ?_) (?_ : FieldKept n s0 x.2) <;> [clear_value x; subst x])
    | (extract_lets +onlyGivenNames x; clear_value x)
    | with_reducible apply FieldKept.ite
    | split
    | with_reducible apply addCorrected_fld
    | with_reducible apply free_fld
    | with_reducible apply corrAlarm_fld
    | refine FieldKept.snd (by with_reducible assumption) ?_

theorem scrub_fld (mc singles doubles : Nat) (bad : List Nat) (s : State)
    (hn : [9, 10, 11, 670, 671, 673, 674, 682, 685, 689, 691, 692, 693, 694, 695, 696, 699, 705, 706].contains n = false)
    (h : FieldKept n s0 s) : FieldKept n s0 (scrub mc singles doubles bad s) := by
  unfold scrub
  repeat' first
    | with_reducible assumption
    | (exact sub_ne _ _ (by decide) hn)
    | (intro e; subst e; exact absurd hn (by decide))
    | (intro x; beta_reduce)
    | (extract_lets +onlyGivenNames x; refine (fun (hx : FieldKept n s0 x) => ?_) (?_ : FieldKept n s0 x) <;> [clear_value x; subst x])
    | (extract_lets +onlyGivenNames x; refine (fun (hx : FieldKept n s0 x.2) => ?_) (?_ : FieldKept n s0 x.2) <;> [clear_value x; subst x])
    | (extract_lets +onlyGivenNames x; clear_value x)
    | with_reducible apply FieldKept.ite
    | split
    | with_reducible apply noteScrubbed_fld
    | with_reducible apply wr_fld
    | with_reducible apply sat_fld
    | with_reducible apply setb_fld
    | with_reducible apply poisonWord_fld
    | with_reducible apply errorLog_fld
    | with_reducible apply meetWords_fld
    | with_reducible apply FieldKept.foldl
    | with_reducible apply FieldKept.foldl_snd
    | with_reducible apply FieldKept.foldl_fst

theorem noteMet_fld (m : Met) (s : State)
    (hn : [9, 10, 11, 671, 673, 674, 691, 692, 693, 694, 695, 696, 707].contains n = false)
    (h : FieldKept n s0 s) : FieldKept n s0 (noteMet m s) := by
  unfold noteMet
  repeat' first
    | with_reducible assumption
    | (exact sub_ne _ _ (by decide) hn)
    | (intro e; subst e; exact absurd hn (by decide))
    | (intro x; beta_reduce)
    | (extract_lets +onlyGivenNames x; refine (fun (hx : FieldKept n s0 x) => ?_) (?_ : FieldKept n s0 x) <;> [clear_value x; subst x])
    | (extract_lets +onlyGivenNames x; refine (fun (hx : FieldKept n s0 x.2) => ?_) (?_ : FieldKept n s0 x.2) <;> [clear_value x; subst x])
    | (extract_lets +onlyGivenNames x; clear_value x)
    | with_reducible apply FieldKept.ite
    | split
    | with_reducible apply sat_fld
    | with_reducible apply noteCorrected_fld
    | with_reducible apply breakWord_fld
    | with_reducible apply FieldKept.foldl
    | with_reducible apply FieldKept.foldl_snd
    | with_reducible apply FieldKept.foldl_fst

theorem retryOp_fld (die tag late : Nat) (s : State) (n : Nat)
    (h : FieldKept n s0 s) : FieldKept n s0 (retryOp die tag late s) := by
  unfold retryOp
  repeat' first
    | with_reducible assumption
    | (extract_lets +onlyGivenNames x; refine (fun (hx : FieldKept n s0 x) => ?_) (?_ : FieldKept n s0 x) <;> [clear_value x; subst x])
    | (extract_lets +onlyGivenNames x; refine (fun (hx : FieldKept n s0 x.2) => ?_) (?_ : FieldKept n s0 x.2) <;> [clear_value x; subst x])
    | (extract_lets +onlyGivenNames x; clear_value x)
    | with_reducible apply FieldKept.ite
    | split
    | with_reducible apply remarkLines_fld
    | (with_reducible apply FieldKept.upd; first | with_reducible assumption | with_reducible apply remarkLines_fld)

end Sys2Proof.Machine
end

