-- ==== Sys2Proof/Laws/FieldsDrives.lean ====
section
/-! SUPPORT. Which register fields the operations of Machine/Drives.lean may write: one lemma for each, which names the field numbers it can change. -/

set_option linter.unusedTactic false
set_option linter.unreachableTactic false
set_option linter.unusedVariables false

namespace Sys2Proof.Machine

open Sys2Proof

variable {n : Nat} {s0 : State}

theorem setDrive_fld (c : Nat) (d : DriveX) (s : State) (n : Nat)
    (h : FieldKept n s0 s) : FieldKept n s0 (setDrive c d s) := by
  unfold setDrive
  repeat' first
    | with_reducible assumption
    | (with_reducible apply FieldKept.upd; first | with_reducible assumption)

theorem drivePump_fld (c : Nat) (s : State) (n : Nat) (h : FieldKept n s0 s) : FieldKept n s0 (drivePump c s) := by
  unfold drivePump
  repeat' first
    | with_reducible assumption
    | (intro x; beta_reduce)
    | (extract_lets +onlyGivenNames x; refine (fun (hx : FieldKept n s0 x) => ?_) (?_ : FieldKept n s0 x) <;> [clear_value x; subst x])
    | (extract_lets +onlyGivenNames x; refine (fun (hx : FieldKept n s0 x.2) => ?_) (?_ : FieldKept n s0 x.2) <;> [clear_value x; subst x])
    | (extract_lets +onlyGivenNames x; clear_value x)
    | with_reducible apply emit_fld
    | with_reducible apply setDrive_fld
    | with_reducible apply FieldKept.foldl
    | with_reducible apply FieldKept.foldl_snd
    | with_reducible apply FieldKept.foldl_fst

theorem driveIssue_fld (c : Nat) (os : List DriveCmd) (s : State) (n : Nat)
    (h : FieldKept n s0 s) : FieldKept n s0 (driveIssue c os s) := by
  unfold driveIssue
  repeat' first
    | with_reducible assumption
    | with_reducible apply FieldKept.ite
    | split
    | with_reducible apply drivePump_fld
    | with_reducible apply setDrive_fld
    | (with_reducible apply FieldKept.upd; first | with_reducible assumption | with_reducible apply drivePump_fld | with_reducible apply setDrive_fld)

theorem driveAll_fld (os : List DriveCmd) (s : State) (n : Nat)
    (h : FieldKept n s0 s) : FieldKept n s0 (driveAll os s) := by
  unfold driveAll
  repeat' first
    | with_reducible assumption
    | (intro x; beta_reduce)
    | with_reducible apply driveIssue_fld
    | with_reducible apply FieldKept.foldl
    | with_reducible apply FieldKept.foldl_snd
    | with_reducible apply FieldKept.foldl_fst

theorem noteSound_fld (c : Nat) (s : State) (n : Nat) (h : FieldKept n s0 s) : FieldKept n s0 (noteSound c s) := by
  unfold noteSound
  repeat' first
    | with_reducible assumption
    | (extract_lets +onlyGivenNames x; refine (fun (hx : FieldKept n s0 x) => ?_) (?_ : FieldKept n s0 x) <;> [clear_value x; subst x])
    | (extract_lets +onlyGivenNames x; clear_value x)
    | with_reducible apply FieldKept.ite
    | split
    | (with_reducible apply FieldKept.upd; first | with_reducible assumption)

theorem driveDone_fld (c k : Nat) (s : State) (n : Nat)
    (h : FieldKept n s0 s) : FieldKept n s0 (driveDone c k s) := by
  unfold driveDone
  repeat' first
    | with_reducible assumption
    | with_reducible apply noteSound_fld
    | with_reducible apply drivePump_fld
    | with_reducible apply setDrive_fld
    | (with_reducible apply FieldKept.upd; first | with_reducible assumption | with_reducible apply noteSound_fld | with_reducible apply drivePump_fld | with_reducible apply setDrive_fld)

theorem dropTorn_fld (p : Nat → Bool) (s : State) (n : Nat)
    (h : FieldKept n s0 s) : FieldKept n s0 (dropTorn p s) := by
  unfold dropTorn
  repeat' first
    | with_reducible assumption
    | (extract_lets +onlyGivenNames x; refine (fun (hx : FieldKept n s0 x) => ?_) (?_ : FieldKept n s0 x) <;> [clear_value x; subst x])
    | (extract_lets +onlyGivenNames x; clear_value x)
    | (with_reducible apply FieldKept.upd; first | with_reducible assumption)

theorem driveStop_fld (c : Nat) (s : State) (n : Nat) (h : FieldKept n s0 s) : FieldKept n s0 (driveStop c s) := by
  unfold driveStop
  repeat' first
    | with_reducible assumption
    | (intro x; beta_reduce)
    | with_reducible apply dropTorn_fld
    | with_reducible apply setDrive_fld

theorem driveCount_fld (c : Nat) (o : DriveCmd) (s : State) (hn : [539, 540].contains n = false)
    (h : FieldKept n s0 s) : FieldKept n s0 (driveCount c o s) := by
  unfold driveCount
  repeat' first
    | with_reducible assumption
    | (exact sub_ne _ _ (by decide) hn)
    | (intro e; subst e; exact absurd hn (by decide))
    | with_reducible apply FieldKept.ite
    | split
    | with_reducible apply addW_fld

theorem driveLedgers_fld (s : State) (n : Nat) (h : FieldKept n s0 s) : FieldKept n s0 (driveLedgers s) := by
  unfold driveLedgers
  repeat' first
    | with_reducible assumption
    | (extract_lets +onlyGivenNames x; refine (fun (hx : FieldKept n s0 x) => ?_) (?_ : FieldKept n s0 x) <;> [clear_value x; subst x])
    | (extract_lets +onlyGivenNames x; clear_value x)
    | with_reducible apply driveAll_fld
    | (with_reducible apply FieldKept.upd; first | with_reducible assumption | with_reducible apply driveAll_fld)

theorem driveSession_fld (c : Nat) (s : State) (n : Nat)
    (h : FieldKept n s0 s) : FieldKept n s0 (driveSession c s) := by
  unfold driveSession
  repeat' first
    | with_reducible assumption
    | (extract_lets +onlyGivenNames x; refine (fun (hx : FieldKept n s0 x) => ?_) (?_ : FieldKept n s0 x) <;> [clear_value x; subst x])
    | (extract_lets +onlyGivenNames x; clear_value x)
    | with_reducible apply driveIssue_fld
    | (with_reducible apply FieldKept.upd; first | with_reducible assumption | with_reducible apply driveIssue_fld)

theorem writeLabel_fld (c : Nat) (s : State) (n : Nat) (h : FieldKept n s0 s) : FieldKept n s0 (writeLabel c s) := by
  unfold writeLabel
  repeat' first
    | with_reducible assumption
    | with_reducible apply FieldKept.ite
    | split
    | with_reducible apply driveIssue_fld
    | (with_reducible apply FieldKept.upd; first | with_reducible assumption | with_reducible apply driveIssue_fld)

theorem driveReadLedger_fld (die : Nat) (s : State) (n : Nat)
    (h : FieldKept n s0 s) : FieldKept n s0 (driveReadLedger die s) := by
  unfold driveReadLedger
  repeat' first
    | with_reducible assumption
    | with_reducible apply FieldKept.ite
    | split
    | with_reducible apply driveIssue_fld

theorem driveImage_fld (k n : Nat) (s : State) (m : Nat)
    (h : FieldKept m s0 s) : FieldKept m s0 (driveImage k n s) := by
  unfold driveImage
  repeat' first
    | with_reducible assumption
    | (intro x; beta_reduce)
    | (extract_lets +onlyGivenNames x; refine (fun (hx : FieldKept m s0 x) => ?_) (?_ : FieldKept m s0 x) <;> [clear_value x; subst x])
    | (extract_lets +onlyGivenNames x; refine (fun (hx : FieldKept m s0 x.2) => ?_) (?_ : FieldKept m s0 x.2) <;> [clear_value x; subst x])
    | (extract_lets +onlyGivenNames x; clear_value x)
    | with_reducible apply driveIssue_fld
    | with_reducible apply FieldKept.foldl
    | with_reducible apply FieldKept.foldl_snd
    | with_reducible apply FieldKept.foldl_fst

theorem driveReadImage_fld (k n : Nat) (ds : List Nat) (s : State) (m : Nat)
    (h : FieldKept m s0 s) : FieldKept m s0 (driveReadImage k n ds s) := by
  unfold driveReadImage
  repeat' first
    | with_reducible assumption
    | (intro x; beta_reduce)
    | with_reducible apply driveIssue_fld
    | with_reducible apply FieldKept.foldl
    | with_reducible apply FieldKept.foldl_snd
    | with_reducible apply FieldKept.foldl_fst

end Sys2Proof.Machine
end

