-- ==== Sys2Proof/Laws/FieldsSweep.lean ====
section
/-! SUPPORT. Which register fields the operations of Machine/Sweep.lean may write: one lemma for each, which names the field numbers it can change. -/

set_option linter.unusedTactic false
set_option linter.unreachableTactic false
set_option linter.unusedVariables false

namespace Sys2Proof.Machine

open Sys2Proof

variable {n : Nat} {s0 : State}

theorem modSweep_fld (die p : Nat) (f : SweepX → SweepX) (s : State) (n : Nat)
    (h : FieldKept n s0 s) : FieldKept n s0 (modSweep die p f s) := by
  unfold modSweep
  repeat' first
    | with_reducible assumption
    | (extract_lets +onlyGivenNames x; refine (fun (hx : FieldKept n s0 x) => ?_) (?_ : FieldKept n s0 x) <;> [clear_value x; subst x])
    | (extract_lets +onlyGivenNames x; clear_value x)
    | with_reducible apply setArrX_fld
    | (with_reducible apply FieldKept.upd; first | with_reducible assumption | with_reducible apply setArrX_fld)

theorem orFree_fld (v : Option Nat) (s : State) (n : Nat) (h : FieldKept n s0 s) : FieldKept n s0 (orFree v s).2 := by
  unfold orFree
  repeat' first
    | with_reducible assumption
    | with_reducible apply FieldKept.ite
    | split
    | with_reducible apply free_fld
    | refine FieldKept.snd (by with_reducible assumption) ?_

theorem showQueue_fld (die p : Nat) (s : State) (hn : [97, 98].contains n = false)
    (h : FieldKept n s0 s) : FieldKept n s0 (showQueue die p s) := by
  unfold showQueue
  repeat' first
    | with_reducible assumption
    | (exact sub_ne _ _ (by decide) hn)
    | (intro e; subst e; exact absurd hn (by decide))
    | (intro x; beta_reduce)
    | (extract_lets +onlyGivenNames x; refine (fun (hx : FieldKept n s0 x) => ?_) (?_ : FieldKept n s0 x) <;> [clear_value x; subst x])
    | (extract_lets +onlyGivenNames x; refine (fun (hx : FieldKept n s0 x.2) => ?_) (?_ : FieldKept n s0 x.2) <;> [clear_value x; subst x])
    | (extract_lets +onlyGivenNames x; clear_value x)
    | with_reducible apply wrA_fld
    | with_reducible apply FieldKept.foldl
    | with_reducible apply FieldKept.foldl_snd
    | with_reducible apply FieldKept.foldl_fst

theorem queueColumn_fld (die p j key : Nat) (event : Bool) (s : State) (hn : [97, 98].contains n = false)
    (h : FieldKept n s0 s) : FieldKept n s0 (queueColumn die p j key event s) := by
  unfold queueColumn
  repeat' first
    | with_reducible assumption
    | (exact sub_ne _ _ (by decide) hn)
    | (intro e; subst e; exact absurd hn (by decide))
    | (extract_lets +onlyGivenNames x; refine (fun (hx : FieldKept n s0 x) => ?_) (?_ : FieldKept n s0 x) <;> [clear_value x; subst x])
    | (extract_lets +onlyGivenNames x; clear_value x)
    | with_reducible apply FieldKept.ite
    | split
    | with_reducible apply showQueue_fld
    | with_reducible apply setArrX_fld
    | (with_reducible apply FieldKept.upd; first | with_reducible assumption | with_reducible apply showQueue_fld | with_reducible apply setArrX_fld)

theorem dequeueColumn_fld (die p j : Nat) (s : State) (hn : [97, 98].contains n = false)
    (h : FieldKept n s0 s) : FieldKept n s0 (dequeueColumn die p j s) := by
  unfold dequeueColumn
  repeat' first
    | with_reducible assumption
    | (exact sub_ne _ _ (by decide) hn)
    | (intro e; subst e; exact absurd hn (by decide))
    | (extract_lets +onlyGivenNames x; refine (fun (hx : FieldKept n s0 x) => ?_) (?_ : FieldKept n s0 x) <;> [clear_value x; subst x])
    | (extract_lets +onlyGivenNames x; clear_value x)
    | with_reducible apply FieldKept.ite
    | split
    | with_reducible apply showQueue_fld
    | with_reducible apply setArrX_fld
    | (with_reducible apply FieldKept.upd; first | with_reducible assumption | with_reducible apply showQueue_fld | with_reducible apply setArrX_fld)

theorem queueEvent_fld (die p : Nat) (e : BandEvent) (s : State) (hn : [97, 98].contains n = false)
    (h : FieldKept n s0 s) : FieldKept n s0 (queueEvent die p e s) := by
  unfold queueEvent
  repeat' first
    | with_reducible assumption
    | (exact sub_ne _ _ (by decide) hn)
    | (intro e; subst e; exact absurd hn (by decide))
    | with_reducible apply FieldKept.ite
    | split
    | with_reducible apply queueColumn_fld

theorem raiseEvent_fld (die p : Nat) (e : BandEvent) (s : State) (hn : [9, 10, 11, 32, 33, 34, 35, 44, 97, 98, 619].contains n = false)
    (h : FieldKept n s0 s) : FieldKept n s0 (raiseEvent die p e s) := by
  have hl : ∀ k f, eventLatch k = some f → f.fid ≠ n := by
    intro k f
    unfold eventLatch
    intro e1 e2
    subst e2
    revert e1
    repeat' split
    all_goals
      intro e1
      first
        | (simp at e1; done)
        | (injection e1 with e1; subst e1; exact absurd hn (by decide))
  unfold raiseEvent
  repeat' first
    | with_reducible assumption
    | (exact hl _ _ (by with_reducible assumption))
    | (exact sub_ne _ _ (by decide) hn)
    | (intro e; subst e; exact absurd hn (by decide))
    | (extract_lets +onlyGivenNames x; refine (fun (hx : FieldKept n s0 x) => ?_) (?_ : FieldKept n s0 x) <;> [clear_value x; subst x])
    | (extract_lets +onlyGivenNames x; clear_value x)
    | with_reducible apply FieldKept.ite
    | split
    | with_reducible apply orFree_fld
    | with_reducible apply queueEvent_fld
    | with_reducible apply emit_fld
    | with_reducible apply addW_fld
    | with_reducible apply sat_fld
    | with_reducible apply setb_fld
    | refine FieldKept.snd (by with_reducible assumption) ?_

theorem raiseEvents_fld (die p : Nat) (es : List BandEvent) (s : State)
    (hn : [9, 10, 11, 32, 33, 34, 35, 44, 97, 98, 619].contains n = false)
    (h : FieldKept n s0 s) : FieldKept n s0 (raiseEvents die p es s) := by
  unfold raiseEvents
  repeat' first
    | with_reducible assumption
    | (exact sub_ne _ _ (by decide) hn)
    | (intro e; subst e; exact absurd hn (by decide))
    | (intro x; beta_reduce)
    | with_reducible apply raiseEvent_fld
    | with_reducible apply FieldKept.foldl
    | with_reducible apply FieldKept.foldl_snd
    | with_reducible apply FieldKept.foldl_fst

theorem standbySet_fld (die p : Nat) (s : State) (hn : [56, 57].contains n = false)
    (h : FieldKept n s0 s) : FieldKept n s0 (standbySet die p s) := by
  unfold standbySet
  repeat' first
    | with_reducible assumption
    | (exact sub_ne _ _ (by decide) hn)
    | (intro e; subst e; exact absurd hn (by decide))
    | (intro x; beta_reduce)
    | (extract_lets +onlyGivenNames x; refine (fun (hx : FieldKept n s0 x) => ?_) (?_ : FieldKept n s0 x) <;> [clear_value x; subst x])
    | (extract_lets +onlyGivenNames x; refine (fun (hx : FieldKept n s0 x.2) => ?_) (?_ : FieldKept n s0 x.2) <;> [clear_value x; subst x])
    | (extract_lets +onlyGivenNames x; clear_value x)
    | with_reducible apply FieldKept.ite
    | split
    | with_reducible apply modSweep_fld
    | with_reducible apply wrA_fld
    | with_reducible apply FieldKept.foldl
    | with_reducible apply FieldKept.foldl_snd
    | with_reducible apply FieldKept.foldl_fst
    | (with_reducible apply FieldKept.upd; first | with_reducible assumption | with_reducible apply modSweep_fld | with_reducible apply wrA_fld | with_reducible apply FieldKept.foldl | with_reducible apply FieldKept.foldl_snd | with_reducible apply FieldKept.foldl_fst)

theorem stagedGainWrite_fld (die p : Nat) (s : State) (hn : [57].contains n = false)
    (h : FieldKept n s0 s) : FieldKept n s0 (stagedGainWrite die p s) := by
  unfold stagedGainWrite
  repeat' first
    | with_reducible assumption
    | (exact sub_ne _ _ (by decide) hn)
    | (intro e; subst e; exact absurd hn (by decide))
    | (intro x; beta_reduce)
    | with_reducible apply wrA_fld
    | with_reducible apply modSweep_fld
    | (with_reducible apply FieldKept.upd; first | with_reducible assumption | with_reducible apply wrA_fld | with_reducible apply modSweep_fld)

theorem buildTable_fld (die p : Nat) (s : State)
    (hn : [9, 10, 11, 32, 33, 34, 35, 44, 53, 55, 58, 97, 98, 619].contains n = false)
    (h : FieldKept n s0 s) : FieldKept n s0 (buildTable die p s) := by
  unfold buildTable
  repeat' first
    | with_reducible assumption
    | (exact sub_ne _ _ (by decide) hn)
    | (intro e; subst e; exact absurd hn (by decide))
    | (intro x; beta_reduce)
    | (extract_lets +onlyGivenNames x; refine (fun (hx : FieldKept n s0 x) => ?_) (?_ : FieldKept n s0 x) <;> [clear_value x; subst x])
    | (extract_lets +onlyGivenNames x; refine (fun (hx : FieldKept n s0 x.2) => ?_) (?_ : FieldKept n s0 x.2) <;> [clear_value x; subst x])
    | (extract_lets +onlyGivenNames x; clear_value x)
    | with_reducible apply FieldKept.ite
    | split
    | with_reducible apply wrA_fld
    | with_reducible apply raiseEvents_fld
    | with_reducible apply FieldKept.foldl
    | with_reducible apply FieldKept.foldl_snd
    | with_reducible apply FieldKept.foldl_fst

theorem confirmColumns_fld (die p : Nat) (s : State) (hn : [91].contains n = false)
    (h : FieldKept n s0 s) : FieldKept n s0 (confirmColumns die p s) := by
  unfold confirmColumns
  repeat' first
    | with_reducible assumption
    | (exact sub_ne _ _ (by decide) hn)
    | (intro e; subst e; exact absurd hn (by decide))
    | (intro x; beta_reduce)
    | (extract_lets +onlyGivenNames x; refine (fun (hx : FieldKept n s0 x) => ?_) (?_ : FieldKept n s0 x) <;> [clear_value x; subst x])
    | (extract_lets +onlyGivenNames x; refine (fun (hx : FieldKept n s0 x.2) => ?_) (?_ : FieldKept n s0 x.2) <;> [clear_value x; subst x])
    | (extract_lets +onlyGivenNames x; clear_value x)
    | with_reducible apply FieldKept.ite
    | split
    | with_reducible apply wrA_fld
    | with_reducible apply FieldKept.foldl
    | with_reducible apply FieldKept.foldl_snd
    | with_reducible apply FieldKept.foldl_fst

theorem installTable_fld (die p : Nat) (s : State) (hn : [9, 10, 11, 38, 45, 52, 54, 91].contains n = false)
    (h : FieldKept n s0 s) : FieldKept n s0 (installTable die p s) := by
  unfold installTable
  repeat' first
    | with_reducible assumption
    | (exact sub_ne _ _ (by decide) hn)
    | (intro e; subst e; exact absurd hn (by decide))
    | (intro x; beta_reduce)
    | (extract_lets +onlyGivenNames x; refine (fun (hx : FieldKept n s0 x) => ?_) (?_ : FieldKept n s0 x) <;> [clear_value x; subst x])
    | (extract_lets +onlyGivenNames x; refine (fun (hx : FieldKept n s0 x.2) => ?_) (?_ : FieldKept n s0 x.2) <;> [clear_value x; subst x])
    | (extract_lets +onlyGivenNames x; clear_value x)
    | with_reducible apply FieldKept.ite
    | split
    | with_reducible apply wrA_fld
    | with_reducible apply confirmColumns_fld
    | with_reducible apply sat_fld
    | with_reducible apply FieldKept.foldl
    | with_reducible apply FieldKept.foldl_snd
    | with_reducible apply FieldKept.foldl_fst

theorem countGroup_fld (f : Field) (die p : Nat) (s : State) (hf : f.fid ≠ n) (hn : [9, 10, 11].contains n = false)
    (h : FieldKept n s0 s) : FieldKept n s0 (countGroup f die p s) := by
  unfold countGroup
  repeat' first
    | with_reducible assumption
    | (exact sub_ne _ _ (by decide) hn)
    | with_reducible apply FieldKept.ite
    | split
    | with_reducible apply sat_fld
    | with_reducible apply addW_fld

theorem showOutstanding_fld (inst : Nat) (s : State) (hn : [8].contains n = false)
    (h : FieldKept n s0 s) : FieldKept n s0 (showOutstanding inst s) := by
  unfold showOutstanding
  repeat' first
    | with_reducible assumption
    | (exact sub_ne _ _ (by decide) hn)
    | (intro e; subst e; exact absurd hn (by decide))
    | with_reducible apply FieldKept.ite
    | split
    | with_reducible apply wrU_fld

theorem showOutstandingOf_fld (die p : Nat) (s : State) (hn : [8].contains n = false)
    (h : FieldKept n s0 s) : FieldKept n s0 (showOutstandingOf die p s) := by
  unfold showOutstandingOf
  repeat' first
    | with_reducible assumption
    | (exact sub_ne _ _ (by decide) hn)
    | (intro e; subst e; exact absurd hn (by decide))
    | with_reducible apply FieldKept.ite
    | split
    | with_reducible apply showOutstanding_fld

theorem endCycle_fld {m : Nat} (die p n : Nat) (s : State)
    (hn : [8, 9, 10, 11, 32, 33, 34, 35, 38, 39, 44, 45, 46, 52, 53, 54, 55, 58, 91, 97, 98, 619].contains m = false)
    (h : FieldKept m s0 s) : FieldKept m s0 (endCycle die p n s) := by
  unfold endCycle
  repeat' first
    | with_reducible assumption
    | (exact sub_ne _ _ (by decide) hn)
    | (intro e; subst e; exact absurd hn (by decide))
    | (intro x; beta_reduce)
    | (extract_lets +onlyGivenNames x; refine (fun (hx : FieldKept m s0 x) => ?_) (?_ : FieldKept m s0 x) <;> [clear_value x; subst x])
    | (extract_lets +onlyGivenNames x; clear_value x)
    | with_reducible apply FieldKept.ite
    | split
    | with_reducible apply countGroup_fld
    | with_reducible apply buildTable_fld
    | with_reducible apply setArrX_fld
    | with_reducible apply modSweep_fld
    | with_reducible apply wrA_fld
    | with_reducible apply installTable_fld
    | with_reducible apply showOutstandingOf_fld
    | with_reducible apply raiseEvent_fld
    | (with_reducible apply FieldKept.upd; first | with_reducible assumption | with_reducible apply countGroup_fld | with_reducible apply buildTable_fld | with_reducible apply setArrX_fld | with_reducible apply modSweep_fld | with_reducible apply wrA_fld | with_reducible apply installTable_fld | with_reducible apply showOutstandingOf_fld | with_reducible apply raiseEvent_fld)

theorem finishConversion_fld {m : Nat} (die p n : Nat) (codes : List (Nat × Int)) (tripped : List Nat) (s : State)
    (hn : [8, 9, 10, 11, 32, 33, 34, 35, 38, 39, 41, 42, 44, 45, 46, 52, 53, 54, 55, 56, 57, 58, 91, 97, 98,
    619].contains m = false) (h : FieldKept m s0 s) : FieldKept m s0 (finishConversion die p n codes tripped s) := by
  unfold finishConversion
  repeat' first
    | with_reducible assumption
    | (exact sub_ne _ _ (by decide) hn)
    | (intro e; subst e; exact absurd hn (by decide))
    | (intro x; beta_reduce)
    | (extract_lets +onlyGivenNames x; refine (fun (hx : FieldKept m s0 x) => ?_) (?_ : FieldKept m s0 x) <;> [clear_value x; subst x])
    | (extract_lets +onlyGivenNames x; refine (fun (hx : FieldKept m s0 x.2) => ?_) (?_ : FieldKept m s0 x.2) <;> [clear_value x; subst x])
    | (extract_lets +onlyGivenNames x; clear_value x)
    | with_reducible apply FieldKept.ite
    | split
    | with_reducible apply modSweep_fld
    | with_reducible apply setArrX_fld
    | with_reducible apply raiseEvents_fld
    | with_reducible apply standbySet_fld
    | with_reducible apply countGroup_fld
    | with_reducible apply wrA_fld
    | with_reducible apply endCycle_fld
    | with_reducible apply FieldKept.foldl
    | with_reducible apply FieldKept.foldl_snd
    | with_reducible apply FieldKept.foldl_fst
    | (with_reducible apply FieldKept.upd; first | with_reducible assumption | with_reducible apply modSweep_fld | with_reducible apply setArrX_fld | with_reducible apply raiseEvents_fld | with_reducible apply standbySet_fld | with_reducible apply countGroup_fld | with_reducible apply wrA_fld | with_reducible apply endCycle_fld | with_reducible apply FieldKept.foldl | with_reducible apply FieldKept.foldl_snd | with_reducible apply FieldKept.foldl_fst)

theorem beginVerify_fld (die p : Nat) (wake : Bool) (s : State) (hn : [38, 41].contains n = false)
    (h : FieldKept n s0 s) : FieldKept n s0 (beginVerify die p wake s) := by
  unfold beginVerify
  repeat' first
    | with_reducible assumption
    | (exact sub_ne _ _ (by decide) hn)
    | (intro e; subst e; exact absurd hn (by decide))
    | (intro x; beta_reduce)
    | with_reducible apply wrA_fld
    | with_reducible apply modSweep_fld
    | (with_reducible apply FieldKept.upd; first | with_reducible assumption | with_reducible apply wrA_fld | with_reducible apply modSweep_fld)

theorem dueVerify_fld (die p : Nat) (wake : Bool) (s : State) (hn : [38, 41].contains n = false)
    (h : FieldKept n s0 s) : FieldKept n s0 (dueVerify die p wake s) := by
  unfold dueVerify
  repeat' first
    | with_reducible assumption
    | (exact sub_ne _ _ (by decide) hn)
    | (intro e; subst e; exact absurd hn (by decide))
    | (intro x; beta_reduce)
    | with_reducible apply FieldKept.ite
    | split
    | with_reducible apply modSweep_fld
    | with_reducible apply beginVerify_fld
    | (with_reducible apply FieldKept.upd; first | with_reducible assumption | with_reducible apply modSweep_fld | with_reducible apply beginVerify_fld)

theorem startVerify_fld (inst : Nat) (wake : Bool) (s : State) (hn : [3, 7, 8, 38, 40, 41].contains n = false)
    (h : FieldKept n s0 s) : FieldKept n s0 (startVerify inst wake s) := by
  unfold startVerify
  repeat' first
    | with_reducible assumption
    | (exact sub_ne _ _ (by decide) hn)
    | (intro e; subst e; exact absurd hn (by decide))
    | (intro x; beta_reduce)
    | (extract_lets +onlyGivenNames x; refine (fun (hx : FieldKept n s0 x) => ?_) (?_ : FieldKept n s0 x) <;> [clear_value x; subst x])
    | (extract_lets +onlyGivenNames x; refine (fun (hx : FieldKept n s0 x.2) => ?_) (?_ : FieldKept n s0 x.2) <;> [clear_value x; subst x])
    | (extract_lets +onlyGivenNames x; clear_value x)
    | with_reducible apply dueVerify_fld
    | with_reducible apply setb_fld
    | with_reducible apply setReady_fld
    | with_reducible apply FieldKept.foldl
    | with_reducible apply FieldKept.foldl_snd
    | with_reducible apply FieldKept.foldl_fst

theorem verifyReq_fld (inst : Nat) (s : State) (hn : [3, 7, 8, 36, 38, 40, 41].contains n = false)
    (h : FieldKept n s0 s) : FieldKept n s0 (verifyReq inst s) := by
  unfold verifyReq
  repeat' first
    | with_reducible assumption
    | (exact sub_ne _ _ (by decide) hn)
    | (intro e; subst e; exact absurd hn (by decide))
    | with_reducible apply FieldKept.ite
    | split
    | with_reducible apply setb_fld
    | with_reducible apply startVerify_fld

theorem loadHold_fld (inst : Nat) (v : Bool) (s : State) (hn : [3, 7, 8, 31, 37, 38, 40, 41].contains n = false)
    (h : FieldKept n s0 s) : FieldKept n s0 (loadHold inst v s) := by
  unfold loadHold
  repeat' first
    | with_reducible assumption
    | (exact sub_ne _ _ (by decide) hn)
    | (intro e; subst e; exact absurd hn (by decide))
    | (extract_lets +onlyGivenNames x; refine (fun (hx : FieldKept n s0 x) => ?_) (?_ : FieldKept n s0 x) <;> [clear_value x; subst x])
    | (extract_lets +onlyGivenNames x; clear_value x)
    | with_reducible apply FieldKept.ite
    | split
    | with_reducible apply setb_fld
    | with_reducible apply setReady_fld
    | with_reducible apply startVerify_fld

theorem enterBypass_fld (die p j addr : Nat) (s : State)
    (hn : [9, 10, 11, 89, 91, 670, 682, 685, 689, 697, 698, 699, 703, 704, 705].contains n = false)
    (h : FieldKept n s0 s) : FieldKept n s0 (enterBypass die p j addr s) := by
  unfold enterBypass
  repeat' first
    | with_reducible assumption
    | (exact sub_ne _ _ (by decide) hn)
    | (intro e; subst e; exact absurd hn (by decide))
    | (extract_lets +onlyGivenNames x; refine (fun (hx : FieldKept n s0 x) => ?_) (?_ : FieldKept n s0 x) <;> [clear_value x; subst x])
    | (extract_lets +onlyGivenNames x; refine (fun (hx : FieldKept n s0 x.2) => ?_) (?_ : FieldKept n s0 x.2) <;> [clear_value x; subst x])
    | (extract_lets +onlyGivenNames x; clear_value x)
    | with_reducible apply FieldKept.ite
    | split
    | with_reducible apply wrA_fld
    | with_reducible apply setArrX_fld
    | with_reducible apply partReport_fld
    | (with_reducible apply FieldKept.upd; first | with_reducible assumption | with_reducible apply wrA_fld | with_reducible apply setArrX_fld | with_reducible apply partReport_fld)

theorem wakeArray_fld (die p : Nat) (loads : List (Nat × Nat)) (s : State)
    (hn : [9, 10, 11, 89, 91, 670, 682, 685, 689, 697, 698, 699, 703, 704, 705].contains n = false)
    (h : FieldKept n s0 s) : FieldKept n s0 (wakeArray die p loads s) := by
  unfold wakeArray
  repeat' first
    | with_reducible assumption
    | (exact sub_ne _ _ (by decide) hn)
    | (intro e; subst e; exact absurd hn (by decide))
    | (intro x; beta_reduce)
    | (extract_lets +onlyGivenNames x; refine (fun (hx : FieldKept n s0 x) => ?_) (?_ : FieldKept n s0 x) <;> [clear_value x; subst x])
    | (extract_lets +onlyGivenNames x; refine (fun (hx : FieldKept n s0 x.2) => ?_) (?_ : FieldKept n s0 x.2) <;> [clear_value x; subst x])
    | (extract_lets +onlyGivenNames x; clear_value x)
    | with_reducible apply FieldKept.ite
    | split
    | with_reducible apply modSweep_fld
    | with_reducible apply enterBypass_fld
    | with_reducible apply FieldKept.foldl
    | with_reducible apply FieldKept.foldl_snd
    | with_reducible apply FieldKept.foldl_fst
    | (with_reducible apply FieldKept.upd; first | with_reducible assumption | with_reducible apply modSweep_fld | with_reducible apply enterBypass_fld | with_reducible apply FieldKept.foldl | with_reducible apply FieldKept.foldl_snd | with_reducible apply FieldKept.foldl_fst)

theorem verifyComplete_fld (inst : Nat) (loads : List (Nat × Nat)) (s : State)
    (hn : [3, 7, 8, 9, 10, 11, 40, 89, 91, 670, 682, 685, 689, 697, 698, 699, 703, 704, 705].contains n = false)
    (h : FieldKept n s0 s) : FieldKept n s0 (verifyComplete inst loads s) := by
  unfold verifyComplete
  repeat' first
    | with_reducible assumption
    | (exact sub_ne _ _ (by decide) hn)
    | (intro e; subst e; exact absurd hn (by decide))
    | (intro x; beta_reduce)
    | (extract_lets +onlyGivenNames x; refine (fun (hx : FieldKept n s0 x) => ?_) (?_ : FieldKept n s0 x) <;> [clear_value x; subst x])
    | (extract_lets +onlyGivenNames x; refine (fun (hx : FieldKept n s0 x.2) => ?_) (?_ : FieldKept n s0 x.2) <;> [clear_value x; subst x])
    | (extract_lets +onlyGivenNames x; clear_value x)
    | with_reducible apply FieldKept.ite
    | split
    | with_reducible apply setb_fld
    | with_reducible apply wakeArray_fld
    | with_reducible apply setReady_fld
    | with_reducible apply FieldKept.foldl
    | with_reducible apply FieldKept.foldl_snd
    | with_reducible apply FieldKept.foldl_fst

theorem sleep_fld (die : Nat) (v : Bool) (s : State) (hn : [103, 104].contains n = false)
    (h : FieldKept n s0 s) : FieldKept n s0 (sleep die v s) := by
  unfold sleep
  repeat' first
    | with_reducible assumption
    | (exact sub_ne _ _ (by decide) hn)
    | (intro e; subst e; exact absurd hn (by decide))
    | with_reducible apply FieldKept.ite
    | split
    | with_reducible apply setb_fld

theorem saveLedgers_fld (p : Nat → Bool) (s : State) (n : Nat)
    (h : FieldKept n s0 s) : FieldKept n s0 (saveLedgers p s) := by
  unfold saveLedgers
  repeat' first
    | with_reducible assumption
    | (extract_lets +onlyGivenNames x; refine (fun (hx : FieldKept n s0 x) => ?_) (?_ : FieldKept n s0 x) <;> [clear_value x; subst x])
    | (extract_lets +onlyGivenNames x; clear_value x)
    | with_reducible apply driveLedgers_fld
    | (with_reducible apply FieldKept.upd; first | with_reducible assumption | with_reducible apply driveLedgers_fld)

theorem diePoweredDown_fld (die : Nat) (s : State) (hn : [3, 7, 8, 40, 91].contains n = false)
    (h : FieldKept n s0 s) : FieldKept n s0 (diePoweredDown die s) := by
  unfold diePoweredDown
  repeat' first
    | with_reducible assumption
    | (exact sub_ne _ _ (by decide) hn)
    | (intro e; subst e; exact absurd hn (by decide))
    | (intro x; beta_reduce)
    | (extract_lets +onlyGivenNames x; refine (fun (hx : FieldKept n s0 x) => ?_) (?_ : FieldKept n s0 x) <;> [clear_value x; subst x])
    | (extract_lets +onlyGivenNames x; refine (fun (hx : FieldKept n s0 x.2) => ?_) (?_ : FieldKept n s0 x.2) <;> [clear_value x; subst x])
    | (extract_lets +onlyGivenNames x; clear_value x)
    | with_reducible apply FieldKept.ite
    | split
    | with_reducible apply saveLedgers_fld
    | with_reducible apply wrA_fld
    | with_reducible apply setb_fld
    | with_reducible apply setReady_fld
    | with_reducible apply FieldKept.foldl
    | with_reducible apply FieldKept.foldl_snd
    | with_reducible apply FieldKept.foldl_fst
    | (with_reducible apply FieldKept.upd; first | with_reducible assumption | with_reducible apply saveLedgers_fld | with_reducible apply wrA_fld | with_reducible apply setb_fld | with_reducible apply setReady_fld | with_reducible apply FieldKept.foldl | with_reducible apply FieldKept.foldl_snd | with_reducible apply FieldKept.foldl_fst)

end Sys2Proof.Machine
end

