-- ==== Sys2Proof/Laws/FieldsWrites.lean ====
section
/-! SUPPORT. Which register fields the operations of Machine/Writes.lean may write: one lemma for each, which names the field numbers it can change. -/

set_option linter.unusedTactic false
set_option linter.unreachableTactic false
set_option linter.unusedVariables false

namespace Sys2Proof.Machine

open Sys2Proof

variable {n : Nat} {s0 : State}

theorem setColState_fld (die p j v : Nat) (s : State) (hn : [91].contains n = false)
    (h : FieldKept n s0 s) : FieldKept n s0 (setColState die p j v s) := by
  unfold setColState
  repeat' first
    | with_reducible assumption
    | (exact sub_ne _ _ (by decide) hn)
    | (intro e; subst e; exact absurd hn (by decide))
    | with_reducible apply wrA_fld

theorem freePantry_fld (die p j : Nat) (s : State) (n : Nat)
    (h : FieldKept n s0 s) : FieldKept n s0 (freePantry die p j s) := by
  unfold freePantry
  repeat' first
    | with_reducible assumption
    | (extract_lets +onlyGivenNames x; refine (fun (hx : FieldKept n s0 x) => ?_) (?_ : FieldKept n s0 x) <;> [clear_value x; subst x])
    | (extract_lets +onlyGivenNames x; refine (fun (hx : FieldKept n s0 x.2) => ?_) (?_ : FieldKept n s0 x.2) <;> [clear_value x; subst x])
    | (extract_lets +onlyGivenNames x; clear_value x)
    | with_reducible apply FieldKept.ite
    | split
    | with_reducible apply setArrX_fld
    | (with_reducible apply FieldKept.upd; first | with_reducible assumption | with_reducible apply setArrX_fld)

theorem failCheck_fld (die p : Nat) (s : State) (hn : [3, 7, 8].contains n = false)
    (h : FieldKept n s0 s) : FieldKept n s0 (failCheck die p s) := by
  unfold failCheck
  repeat' first
    | with_reducible assumption
    | (exact sub_ne _ _ (by decide) hn)
    | (intro e; subst e; exact absurd hn (by decide))
    | (extract_lets +onlyGivenNames x; refine (fun (hx : FieldKept n s0 x) => ?_) (?_ : FieldKept n s0 x) <;> [clear_value x; subst x])
    | (extract_lets +onlyGivenNames x; refine (fun (hx : FieldKept n s0 x.2) => ?_) (?_ : FieldKept n s0 x.2) <;> [clear_value x; subst x])
    | (extract_lets +onlyGivenNames x; clear_value x)
    | with_reducible apply FieldKept.ite
    | split
    | with_reducible apply setArrX_fld
    | with_reducible apply setReady_fld
    | (with_reducible apply FieldKept.upd; first | with_reducible assumption | with_reducible apply setArrX_fld | with_reducible apply setReady_fld)

theorem failDie_fld (die : Nat) (s : State) (hn : [3, 7, 8].contains n = false)
    (h : FieldKept n s0 s) : FieldKept n s0 (failDie die s) := by
  unfold failDie
  repeat' first
    | with_reducible assumption
    | (exact sub_ne _ _ (by decide) hn)
    | (intro e; subst e; exact absurd hn (by decide))
    | (intro x; beta_reduce)
    | with_reducible apply FieldKept.ite
    | split
    | with_reducible apply failCheck_fld
    | with_reducible apply FieldKept.foldl
    | with_reducible apply FieldKept.foldl_snd
    | with_reducible apply FieldKept.foldl_fst

theorem bypassLoaded_fld (die p j : Nat) (s : State) (hn : [89, 91].contains n = false)
    (h : FieldKept n s0 s) : FieldKept n s0 (bypassLoaded die p j s) := by
  unfold bypassLoaded
  repeat' first
    | with_reducible assumption
    | (exact sub_ne _ _ (by decide) hn)
    | (intro e; subst e; exact absurd hn (by decide))
    | (extract_lets +onlyGivenNames x; refine (fun (hx : FieldKept n s0 x) => ?_) (?_ : FieldKept n s0 x) <;> [clear_value x; subst x])
    | (extract_lets +onlyGivenNames x; clear_value x)
    | with_reducible apply FieldKept.ite
    | split
    | with_reducible apply wrA_fld
    | with_reducible apply setColState_fld
    | with_reducible apply setArrX_fld
    | (with_reducible apply FieldKept.upd; first | with_reducible assumption | with_reducible apply wrA_fld | with_reducible apply setColState_fld | with_reducible apply setArrX_fld)

theorem makePermanent_fld (die p j : Nat) (s : State) (hn : [3, 7, 8, 89, 90, 91, 97, 98].contains n = false)
    (h : FieldKept n s0 s) : FieldKept n s0 (makePermanent die p j s) := by
  unfold makePermanent
  repeat' first
    | with_reducible assumption
    | (exact sub_ne _ _ (by decide) hn)
    | (intro e; subst e; exact absurd hn (by decide))
    | with_reducible apply failCheck_fld
    | with_reducible apply bypassLoaded_fld
    | with_reducible apply dequeueColumn_fld
    | with_reducible apply wrA_fld

theorem setRefused_fld (inst code : Nat) (s : State) (hn : [73, 74].contains n = false)
    (h : FieldKept n s0 s) : FieldKept n s0 (setRefused inst code s) := by
  unfold setRefused
  repeat' first
    | with_reducible assumption
    | (exact sub_ne _ _ (by decide) hn)
    | (intro e; subst e; exact absurd hn (by decide))
    | with_reducible apply setb_fld
    | with_reducible apply wr_fld

theorem loadPantry_fld (inst : Nat) (s : State) (hn : [73, 74, 97, 98].contains n = false)
    (h : FieldKept n s0 s) : FieldKept n s0 (loadPantry inst s) := by
  unfold loadPantry
  repeat' first
    | with_reducible assumption
    | (exact sub_ne _ _ (by decide) hn)
    | (intro e; subst e; exact absurd hn (by decide))
    | (extract_lets +onlyGivenNames x; refine (fun (hx : FieldKept n s0 x) => ?_) (?_ : FieldKept n s0 x) <;> [clear_value x; subst x])
    | (extract_lets +onlyGivenNames x; refine (fun (hx : FieldKept n s0 x.2) => ?_) (?_ : FieldKept n s0 x.2) <;> [clear_value x; subst x])
    | (extract_lets +onlyGivenNames x; clear_value x)
    | with_reducible apply FieldKept.ite
    | split
    | with_reducible apply setRefused_fld
    | with_reducible apply dequeueColumn_fld
    | with_reducible apply setArrX_fld
    | (with_reducible apply FieldKept.upd; first | with_reducible assumption | with_reducible apply setRefused_fld | with_reducible apply dequeueColumn_fld | with_reducible apply setArrX_fld)

theorem evict_fld (inst : Nat) (s : State) (hn : [9, 10, 11, 73, 74, 83].contains n = false)
    (h : FieldKept n s0 s) : FieldKept n s0 (evict inst s) := by
  unfold evict
  repeat' first
    | with_reducible assumption
    | (exact sub_ne _ _ (by decide) hn)
    | (intro e; subst e; exact absurd hn (by decide))
    | (extract_lets +onlyGivenNames x; refine (fun (hx : FieldKept n s0 x) => ?_) (?_ : FieldKept n s0 x) <;> [clear_value x; subst x])
    | (extract_lets +onlyGivenNames x; clear_value x)
    | with_reducible apply FieldKept.ite
    | split
    | with_reducible apply setRefused_fld
    | with_reducible apply setArrX_fld
    | with_reducible apply sat_fld
    | (with_reducible apply FieldKept.upd; first | with_reducible assumption | with_reducible apply setRefused_fld | with_reducible apply setArrX_fld | with_reducible apply sat_fld)

theorem startWrite_fld (die p : Nat) (w : ColWrite) (s : State)
    (hn : [9, 10, 11, 81, 84, 89, 91, 92, 93].contains n = false)
    (h : FieldKept n s0 s) : FieldKept n s0 (startWrite die p w s) := by
  unfold startWrite
  repeat' first
    | with_reducible assumption
    | (exact sub_ne _ _ (by decide) hn)
    | (intro e; subst e; exact absurd hn (by decide))
    | (extract_lets +onlyGivenNames x; refine (fun (hx : FieldKept n s0 x) => ?_) (?_ : FieldKept n s0 x) <;> [clear_value x; subst x])
    | (extract_lets +onlyGivenNames x; clear_value x)
    | with_reducible apply FieldKept.ite
    | split
    | with_reducible apply wrA_fld
    | with_reducible apply sat_fld
    | with_reducible apply setColState_fld
    | with_reducible apply setArrX_fld
    | (with_reducible apply FieldKept.upd; first | with_reducible assumption | with_reducible apply wrA_fld | with_reducible apply sat_fld | with_reducible apply setColState_fld | with_reducible apply setArrX_fld)

theorem programCol_fld (inst source scale : Nat) (exempt : Bool) (s : State)
    (hn : [9, 10, 11, 73, 74, 81, 84, 89, 91, 92, 93, 97, 98, 670, 682, 685, 689, 697, 698, 699, 703, 704, 705].contains
    n = false) (h : FieldKept n s0 s) : FieldKept n s0 (programCol inst source scale exempt s) := by
  unfold programCol
  repeat' first
    | with_reducible assumption
    | (exact sub_ne _ _ (by decide) hn)
    | (intro e; subst e; exact absurd hn (by decide))
    | (extract_lets +onlyGivenNames x; refine (fun (hx : FieldKept n s0 x) => ?_) (?_ : FieldKept n s0 x) <;> [clear_value x; subst x])
    | (extract_lets +onlyGivenNames x; refine (fun (hx : FieldKept n s0 x.2) => ?_) (?_ : FieldKept n s0 x.2) <;> [clear_value x; subst x])
    | (extract_lets +onlyGivenNames x; clear_value x)
    | with_reducible apply FieldKept.ite
    | split
    | with_reducible apply setRefused_fld
    | with_reducible apply dequeueColumn_fld
    | with_reducible apply partReport_fld
    | with_reducible apply setArrX_fld
    | with_reducible apply startWrite_fld
    | (with_reducible apply FieldKept.upd; first | with_reducible assumption | with_reducible apply setRefused_fld | with_reducible apply dequeueColumn_fld | with_reducible apply partReport_fld | with_reducible apply setArrX_fld | with_reducible apply startWrite_fld)

theorem voidColumn_fld (die p j : Nat) (s : State) (hn : [58].contains n = false)
    (h : FieldKept n s0 s) : FieldKept n s0 (voidColumn die p j s) := by
  unfold voidColumn
  repeat' first
    | with_reducible assumption
    | (exact sub_ne _ _ (by decide) hn)
    | (intro e; subst e; exact absurd hn (by decide))
    | (extract_lets +onlyGivenNames x; refine (fun (hx : FieldKept n s0 x) => ?_) (?_ : FieldKept n s0 x) <;> [clear_value x; subst x])
    | (extract_lets +onlyGivenNames x; clear_value x)
    | with_reducible apply FieldKept.ite
    | split
    | with_reducible apply setArrX_fld
    | with_reducible apply wrA_fld
    | (with_reducible apply FieldKept.upd; first | with_reducible assumption | with_reducible apply setArrX_fld | with_reducible apply wrA_fld)

theorem settleColumn_fld (die p : Nat) (w : ColWrite) (held : List Int) (failed : Option Nat) (s : State)
    (hn : [3, 7, 8, 9, 10, 11, 82, 89, 90, 91, 97, 98].contains n = false)
    (h : FieldKept n s0 s) : FieldKept n s0 (settleColumn die p w held failed s) := by
  unfold settleColumn
  repeat' first
    | with_reducible assumption
    | (exact sub_ne _ _ (by decide) hn)
    | (intro e; subst e; exact absurd hn (by decide))
    | (extract_lets +onlyGivenNames x; refine (fun (hx : FieldKept n s0 x) => ?_) (?_ : FieldKept n s0 x) <;> [clear_value x; subst x])
    | (extract_lets +onlyGivenNames x; refine (fun (hx : FieldKept n s0 x.2) => ?_) (?_ : FieldKept n s0 x.2) <;> [clear_value x; subst x])
    | (extract_lets +onlyGivenNames x; clear_value x)
    | with_reducible apply FieldKept.ite
    | split
    | with_reducible apply setArrX_fld
    | with_reducible apply makePermanent_fld
    | with_reducible apply setColState_fld
    | with_reducible apply freePantry_fld
    | with_reducible apply wrA_fld
    | with_reducible apply sat_fld
    | (with_reducible apply FieldKept.upd; first | with_reducible assumption | with_reducible apply setArrX_fld | with_reducible apply makePermanent_fld | with_reducible apply setColState_fld | with_reducible apply freePantry_fld | with_reducible apply wrA_fld | with_reducible apply sat_fld)

theorem clearSel_fld (inst : Nat) (s : State) (hn : [9, 10, 47, 48].contains n = false)
    (h : FieldKept n s0 s) : FieldKept n s0 (clearSel inst s) := by
  unfold clearSel
  repeat' first
    | with_reducible assumption
    | (exact sub_ne _ _ (by decide) hn)
    | (intro e; subst e; exact absurd hn (by decide))
    | (extract_lets +onlyGivenNames x; refine (fun (hx : FieldKept n s0 x) => ?_) (?_ : FieldKept n s0 x) <;> [clear_value x; subst x])
    | (extract_lets +onlyGivenNames x; clear_value x)
    | with_reducible apply FieldKept.ite
    | split
    | with_reducible apply wrA_fld
    | with_reducible apply clearSatBit_fld

theorem auditClear_fld (inst : Nat) (s : State) (hn : [9, 10, 50, 51].contains n = false)
    (h : FieldKept n s0 s) : FieldKept n s0 (auditClear inst s) := by
  unfold auditClear
  repeat' first
    | with_reducible assumption
    | (exact sub_ne _ _ (by decide) hn)
    | (intro e; subst e; exact absurd hn (by decide))
    | with_reducible apply wr_fld
    | with_reducible apply clearSatBit_fld

end Sys2Proof.Machine
end

