-- ==== Sys2Proof/Laws/FieldsBuckets.lean ====
section
/-! SUPPORT. Which register fields the operations of Machine/Buckets.lean may write: one lemma for each, which names the field numbers it can change. -/

set_option linter.unusedTactic false
set_option linter.unreachableTactic false
set_option linter.unusedVariables false

namespace Sys2Proof.Machine

open Sys2Proof

variable {n : Nat} {s0 : State}

theorem setBx_fld (b : Nat) (x : BucketX) (s : State) (n : Nat)
    (h : FieldKept n s0 s) : FieldKept n s0 (setBx b x s) := by
  unfold setBx
  repeat' first
    | with_reducible assumption
    | (with_reducible apply FieldKept.upd; first | with_reducible assumption)

theorem modBx_fld (b : Nat) (f : BucketX → BucketX) (s : State) (n : Nat)
    (h : FieldKept n s0 s) : FieldKept n s0 (modBx b f s) := by
  unfold modBx
  repeat' first
    | with_reducible assumption
    | with_reducible apply setBx_fld

theorem modJob_fld (f : JobX → JobX) (s : State) (n : Nat) (h : FieldKept n s0 s) : FieldKept n s0 (modJob f s) := by
  unfold modJob
  repeat' first
    | with_reducible assumption
    | (with_reducible apply FieldKept.upd; first | with_reducible assumption)

theorem setWaitExtra_fld (s : State) (hn : [193].contains n = false)
    (h : FieldKept n s0 s) : FieldKept n s0 (setWaitExtra s) := by
  unfold setWaitExtra
  repeat' first
    | with_reducible assumption
    | (exact sub_ne _ _ (by decide) hn)
    | (intro e; subst e; exact absurd hn (by decide))
    | (intro x; beta_reduce)
    | (extract_lets +onlyGivenNames x; refine (fun (hx : FieldKept n s0 x) => ?_) (?_ : FieldKept n s0 x) <;> [clear_value x; subst x])
    | (extract_lets +onlyGivenNames x; refine (fun (hx : FieldKept n s0 x.2) => ?_) (?_ : FieldKept n s0 x.2) <;> [clear_value x; subst x])
    | (extract_lets +onlyGivenNames x; clear_value x)
    | with_reducible apply wr_fld
    | with_reducible apply FieldKept.foldl
    | with_reducible apply FieldKept.foldl_snd
    | with_reducible apply FieldKept.foldl_fst

theorem writeRecord_fld (b : Nat) (s : State) (n : Nat)
    (h : FieldKept n s0 s) : FieldKept n s0 (writeRecord b s) := by
  unfold writeRecord
  repeat' first
    | with_reducible assumption
    | (intro x; beta_reduce)
    | (extract_lets +onlyGivenNames x; refine (fun (hx : FieldKept n s0 x) => ?_) (?_ : FieldKept n s0 x) <;> [clear_value x; subst x])
    | (extract_lets +onlyGivenNames x; refine (fun (hx : FieldKept n s0 x.2) => ?_) (?_ : FieldKept n s0 x.2) <;> [clear_value x; subst x])
    | (extract_lets +onlyGivenNames x; clear_value x)
    | with_reducible apply FieldKept.ite
    | split
    | with_reducible apply free_fld
    | with_reducible apply storeMem_fld
    | with_reducible apply FieldKept.foldl
    | with_reducible apply FieldKept.foldl_snd
    | with_reducible apply FieldKept.foldl_fst
    | refine FieldKept.snd (by with_reducible assumption) ?_

theorem setIncluded_fld (b : Nat) (ranks : List Nat) (s : State) (n : Nat)
    (h : FieldKept n s0 s) : FieldKept n s0 (setIncluded b ranks s) := by
  unfold setIncluded
  repeat' first
    | with_reducible assumption
    | (intro x; beta_reduce)
    | with_reducible apply writeRecord_fld
    | with_reducible apply modBx_fld
    | (with_reducible apply FieldKept.upd; first | with_reducible assumption | with_reducible apply writeRecord_fld | with_reducible apply modBx_fld)

theorem exchangeLog_fld (b cause rank : Nat) (byOwner : Bool) (s : State)
    (hn : [9, 10, 11, 682, 689].contains n = false)
    (h : FieldKept n s0 s) : FieldKept n s0 (exchangeLog b cause rank byOwner s) := by
  unfold exchangeLog
  repeat' first
    | with_reducible assumption
    | (exact sub_ne _ _ (by decide) hn)
    | (intro e; subst e; exact absurd hn (by decide))
    | (extract_lets +onlyGivenNames x; refine (fun (hx : FieldKept n s0 x) => ?_) (?_ : FieldKept n s0 x) <;> [clear_value x; subst x])
    | (extract_lets +onlyGivenNames x; refine (fun (hx : FieldKept n s0 x.2) => ?_) (?_ : FieldKept n s0 x.2) <;> [clear_value x; subst x])
    | (extract_lets +onlyGivenNames x; clear_value x)
    | with_reducible apply FieldKept.ite
    | split
    | with_reducible apply logEntry_fld

theorem refreshPending_fld (s : State) (hn : [307].contains n = false)
    (h : FieldKept n s0 s) : FieldKept n s0 (refreshPending s) := by
  unfold refreshPending
  repeat' first
    | with_reducible assumption
    | (exact sub_ne _ _ (by decide) hn)
    | (intro e; subst e; exact absurd hn (by decide))
    | (intro x; beta_reduce)
    | (extract_lets +onlyGivenNames x; refine (fun (hx : FieldKept n s0 x) => ?_) (?_ : FieldKept n s0 x) <;> [clear_value x; subst x])
    | (extract_lets +onlyGivenNames x; refine (fun (hx : FieldKept n s0 x.2) => ?_) (?_ : FieldKept n s0 x.2) <;> [clear_value x; subst x])
    | (extract_lets +onlyGivenNames x; clear_value x)
    | with_reducible apply wr_fld
    | with_reducible apply FieldKept.foldl
    | with_reducible apply FieldKept.foldl_snd
    | with_reducible apply FieldKept.foldl_fst

theorem refreshVeto_fld (s : State) (hn : [265, 266].contains n = false)
    (h : FieldKept n s0 s) : FieldKept n s0 (refreshVeto s) := by
  unfold refreshVeto
  repeat' first
    | with_reducible assumption
    | (exact sub_ne _ _ (by decide) hn)
    | (intro e; subst e; exact absurd hn (by decide))
    | (intro x; beta_reduce)
    | (extract_lets +onlyGivenNames x; refine (fun (hx : FieldKept n s0 x) => ?_) (?_ : FieldKept n s0 x) <;> [clear_value x; subst x])
    | (extract_lets +onlyGivenNames x; refine (fun (hx : FieldKept n s0 x.2) => ?_) (?_ : FieldKept n s0 x.2) <;> [clear_value x; subst x])
    | (extract_lets +onlyGivenNames x; clear_value x)
    | with_reducible apply FieldKept.ite
    | split
    | with_reducible apply setb_fld
    | with_reducible apply FieldKept.foldl
    | with_reducible apply FieldKept.foldl_snd
    | with_reducible apply FieldKept.foldl_fst

theorem zeroAcc_fld (b : Nat) (s : State) (n : Nat) (h : FieldKept n s0 s) : FieldKept n s0 (zeroAcc b s) := by
  unfold zeroAcc
  repeat' first
    | with_reducible assumption
    | with_reducible apply FieldKept.ite
    | split
    | with_reducible apply storeMem_fld

theorem openBucket_fld (b : Nat) (s : State) (n : Nat) (h : FieldKept n s0 s) : FieldKept n s0 (openBucket b s) := by
  unfold openBucket
  repeat' first
    | with_reducible assumption
    | (extract_lets +onlyGivenNames x; refine (fun (hx : FieldKept n s0 x) => ?_) (?_ : FieldKept n s0 x) <;> [clear_value x; subst x])
    | (extract_lets +onlyGivenNames x; clear_value x)
    | with_reducible apply zeroAcc_fld
    | with_reducible apply setIncluded_fld
    | with_reducible apply setBx_fld

theorem openAll_fld (s : State) (hn : [265, 266, 307].contains n = false)
    (h : FieldKept n s0 s) : FieldKept n s0 (openAll s) := by
  unfold openAll
  repeat' first
    | with_reducible assumption
    | (exact sub_ne _ _ (by decide) hn)
    | (intro e; subst e; exact absurd hn (by decide))
    | (intro x; beta_reduce)
    | with_reducible apply refreshVeto_fld
    | with_reducible apply refreshPending_fld
    | with_reducible apply openBucket_fld
    | with_reducible apply FieldKept.foldl
    | with_reducible apply FieldKept.foldl_snd
    | with_reducible apply FieldKept.foldl_fst

theorem copyPlane_fld (b : Nat) (s : State) (n : Nat) (h : FieldKept n s0 s) : FieldKept n s0 (copyPlane b s) := by
  unfold copyPlane
  repeat' first
    | with_reducible assumption
    | with_reducible apply storeMem_fld

theorem loadBuckets_fld (s : State) (hn : [193, 265, 266, 307].contains n = false)
    (h : FieldKept n s0 s) : FieldKept n s0 (loadBuckets s) := by
  unfold loadBuckets
  repeat' first
    | with_reducible assumption
    | (exact sub_ne _ _ (by decide) hn)
    | (intro e; subst e; exact absurd hn (by decide))
    | (intro x; beta_reduce)
    | (extract_lets +onlyGivenNames x; refine (fun (hx : FieldKept n s0 x) => ?_) (?_ : FieldKept n s0 x) <;> [clear_value x; subst x])
    | (extract_lets +onlyGivenNames x; refine (fun (hx : FieldKept n s0 x.2) => ?_) (?_ : FieldKept n s0 x.2) <;> [clear_value x; subst x])
    | (extract_lets +onlyGivenNames x; clear_value x)
    | with_reducible apply modJob_fld
    | with_reducible apply setWaitExtra_fld
    | with_reducible apply copyPlane_fld
    | with_reducible apply openAll_fld
    | with_reducible apply FieldKept.foldl
    | with_reducible apply FieldKept.foldl_snd
    | with_reducible apply FieldKept.foldl_fst
    | (with_reducible apply FieldKept.upd; first | with_reducible assumption | with_reducible apply modJob_fld | with_reducible apply setWaitExtra_fld | with_reducible apply copyPlane_fld | with_reducible apply openAll_fld | with_reducible apply FieldKept.foldl | with_reducible apply FieldKept.foldl_snd | with_reducible apply FieldKept.foldl_fst)

theorem loadUpdates_fld (s : State) (n : Nat) (h : FieldKept n s0 s) : FieldKept n s0 (loadUpdates s) := by
  unfold loadUpdates
  repeat' first
    | with_reducible assumption
    | (intro x; beta_reduce)
    | (extract_lets +onlyGivenNames x; refine (fun (hx : FieldKept n s0 x) => ?_) (?_ : FieldKept n s0 x) <;> [clear_value x; subst x])
    | (extract_lets +onlyGivenNames x; clear_value x)
    | with_reducible apply modJob_fld
    | (with_reducible apply FieldKept.upd; first | with_reducible assumption | with_reducible apply modJob_fld)

theorem loadRoutes_fld (s : State) (n : Nat) (h : FieldKept n s0 s) : FieldKept n s0 (loadRoutes s) := by
  unfold loadRoutes
  repeat' first
    | with_reducible assumption
    | (intro x; beta_reduce)
    | (extract_lets +onlyGivenNames x; refine (fun (hx : FieldKept n s0 x) => ?_) (?_ : FieldKept n s0 x) <;> [clear_value x; subst x])
    | (extract_lets +onlyGivenNames x; clear_value x)
    | with_reducible apply FieldKept.ite
    | split
    | with_reducible apply modJob_fld
    | (with_reducible apply FieldKept.upd; first | with_reducible assumption | with_reducible apply modJob_fld)

end Sys2Proof.Machine
end

