-- ==== Sys2Proof/Laws/FieldsNetwork.lean ====
section
/-! SUPPORT. Which register fields the operations of Machine/Network.lean may write: one lemma for each, which names the field numbers it can change. -/

set_option linter.unusedTactic false
set_option linter.unreachableTactic false
set_option linter.unusedVariables false

namespace Sys2Proof.Machine

open Sys2Proof

variable {n : Nat} {s0 : State}

theorem countRx_fld (p size : Nat) (s : State) (hn : [447, 449].contains n = false)
    (h : FieldKept n s0 s) : FieldKept n s0 (countRx p size s) := by
  unfold countRx
  repeat' first
    | with_reducible assumption
    | (exact sub_ne _ _ (by decide) hn)
    | (intro e; subst e; exact absurd hn (by decide))
    | with_reducible apply addW_fld

theorem occupyLine_fld (p n : Nat) (s : State) (m : Nat)
    (h : FieldKept m s0 s) : FieldKept m s0 (occupyLine p n s) := by
  unfold occupyLine
  repeat' first
    | with_reducible assumption
    | (with_reducible apply FieldKept.upd; first | with_reducible assumption)

theorem transmit_fld (p dst : Nat) (tag : Option Nat) (etype cls : Nat) (bytes : List Byte) (bad : List Nat)
    (s : State) (hn : [446, 447, 448, 449].contains n = false)
    (h : FieldKept n s0 s) : FieldKept n s0 (transmit p dst tag etype cls bytes bad s) := by
  unfold transmit
  repeat' first
    | with_reducible assumption
    | (exact sub_ne _ _ (by decide) hn)
    | (intro e; subst e; exact absurd hn (by decide))
    | (extract_lets +onlyGivenNames x; refine (fun (hx : FieldKept n s0 x) => ?_) (?_ : FieldKept n s0 x) <;> [clear_value x; subst x])
    | (extract_lets +onlyGivenNames x; clear_value x)
    | with_reducible apply FieldKept.ite
    | split
    | with_reducible apply occupyLine_fld
    | with_reducible apply addW_fld
    | with_reducible apply countRx_fld
    | with_reducible apply emit_fld

theorem countFrame_fld (f : Frame) (s : State) (hn : [9, 10, 11, 433, 447, 449, 450, 451].contains n = false)
    (h : FieldKept n s0 s) : FieldKept n s0 (countFrame f s) := by
  unfold countFrame
  repeat' first
    | with_reducible assumption
    | (exact sub_ne _ _ (by decide) hn)
    | (intro e; subst e; exact absurd hn (by decide))
    | with_reducible apply setb_fld
    | with_reducible apply sat_fld
    | with_reducible apply addW_fld
    | with_reducible apply countRx_fld

theorem setRx_fld (serial : Nat) (r : RxPeer) (s : State) (n : Nat)
    (h : FieldKept n s0 s) : FieldKept n s0 (setRx serial r s) := by
  unfold setRx
  repeat' first
    | with_reducible assumption
    | (intro x; beta_reduce)
    | with_reducible apply modJob_fld
    | (with_reducible apply FieldKept.upd; first | with_reducible assumption | with_reducible apply modJob_fld)

theorem setTx_fld (serial : Nat) (t : TxPeer) (s : State) (n : Nat)
    (h : FieldKept n s0 s) : FieldKept n s0 (setTx serial t s) := by
  unfold setTx
  repeat' first
    | with_reducible assumption
    | (intro x; beta_reduce)
    | with_reducible apply modJob_fld
    | (with_reducible apply FieldKept.upd; first | with_reducible assumption | with_reducible apply modJob_fld)

theorem sendRhazo_fld (p mac type rank serial id : Nat) (payload : List Byte) (bad : List Nat) (s : State)
    (hn : [446, 447, 448, 449].contains n = false)
    (h : FieldKept n s0 s) : FieldKept n s0 (sendRhazo p mac type rank serial id payload bad s) := by
  unfold sendRhazo
  repeat' first
    | with_reducible assumption
    | (exact sub_ne _ _ (by decide) hn)
    | (intro e; subst e; exact absurd hn (by decide))
    | (extract_lets +onlyGivenNames x; refine (fun (hx : FieldKept n s0 x) => ?_) (?_ : FieldKept n s0 x) <;> [clear_value x; subst x])
    | (extract_lets +onlyGivenNames x; refine (fun (hx : FieldKept n s0 x.2) => ?_) (?_ : FieldKept n s0 x.2) <;> [clear_value x; subst x])
    | (extract_lets +onlyGivenNames x; clear_value x)
    | with_reducible apply FieldKept.ite
    | split
    | with_reducible apply transmit_fld
    | with_reducible apply setRx_fld
    | (with_reducible apply FieldKept.upd; first | with_reducible assumption | with_reducible apply transmit_fld | with_reducible apply setRx_fld)

theorem trySend_fld (serial : Nat) (m : TxMsg) (s : State)
    (hn : [9, 10, 11, 446, 447, 448, 449, 456].contains n = false)
    (h : FieldKept n s0 s) : FieldKept n s0 (trySend serial m s).2 := by
  unfold trySend
  repeat' first
    | with_reducible assumption
    | (exact sub_ne _ _ (by decide) hn)
    | (intro e; subst e; exact absurd hn (by decide))
    | (extract_lets +onlyGivenNames x; refine (fun (hx : FieldKept n s0 x) => ?_) (?_ : FieldKept n s0 x) <;> [clear_value x; subst x])
    | (extract_lets +onlyGivenNames x; refine (fun (hx : FieldKept n s0 x.2) => ?_) (?_ : FieldKept n s0 x.2) <;> [clear_value x; subst x])
    | (extract_lets +onlyGivenNames x; clear_value x)
    | with_reducible apply FieldKept.ite
    | split
    | with_reducible apply sendRhazo_fld
    | with_reducible apply sat_fld
    | (with_reducible apply FieldKept.upd; first | with_reducible assumption | with_reducible apply sendRhazo_fld | with_reducible apply sat_fld)

theorem windowSend_fld (serial : Nat) (m : TxMsg) (s : State)
    (hn : [9, 10, 11, 446, 447, 448, 449, 456, 461].contains n = false)
    (h : FieldKept n s0 s) : FieldKept n s0 (windowSend serial m s) := by
  unfold windowSend
  repeat' first
    | with_reducible assumption
    | (exact sub_ne _ _ (by decide) hn)
    | (intro e; subst e; exact absurd hn (by decide))
    | (extract_lets +onlyGivenNames x; refine (fun (hx : FieldKept n s0 x) => ?_) (?_ : FieldKept n s0 x) <;> [clear_value x; subst x])
    | (extract_lets +onlyGivenNames x; refine (fun (hx : FieldKept n s0 x.2) => ?_) (?_ : FieldKept n s0 x.2) <;> [clear_value x; subst x])
    | (extract_lets +onlyGivenNames x; clear_value x)
    | with_reducible apply FieldKept.ite
    | split
    | with_reducible apply trySend_fld
    | with_reducible apply setTx_fld
    | with_reducible apply sat_fld
    | refine FieldKept.snd (by with_reducible assumption) ?_
    | (with_reducible apply FieldKept.upd; first | with_reducible assumption | with_reducible apply trySend_fld | with_reducible apply setTx_fld | with_reducible apply sat_fld | refine FieldKept.snd (by with_reducible assumption) ?_)

theorem sendMsg_fld (rank type : Nat) (payload : List Byte) (bad : List Nat) (source : Option (Nat × Nat × Nat))
    (s : State) (hn : [9, 10, 11, 446, 447, 448, 449, 456, 461].contains n = false)
    (h : FieldKept n s0 s) : FieldKept n s0 (sendMsg rank type payload bad source s).2 := by
  unfold sendMsg
  repeat' first
    | with_reducible assumption
    | (exact sub_ne _ _ (by decide) hn)
    | (intro e; subst e; exact absurd hn (by decide))
    | (extract_lets +onlyGivenNames x; refine (fun (hx : FieldKept n s0 x) => ?_) (?_ : FieldKept n s0 x) <;> [clear_value x; subst x])
    | (extract_lets +onlyGivenNames x; refine (fun (hx : FieldKept n s0 x.2) => ?_) (?_ : FieldKept n s0 x.2) <;> [clear_value x; subst x])
    | (extract_lets +onlyGivenNames x; clear_value x)
    | with_reducible apply FieldKept.ite
    | split
    | with_reducible apply setTx_fld
    | with_reducible apply windowSend_fld
    | (with_reducible apply FieldKept.upd; first | with_reducible assumption | with_reducible apply setTx_fld | with_reducible apply windowSend_fld)

theorem sendReliable_fld (rank type : Nat) (payload : List Byte) (bad : List Nat) (s : State)
    (hn : [9, 10, 11, 446, 447, 448, 449, 456, 461].contains n = false)
    (h : FieldKept n s0 s) : FieldKept n s0 (sendReliable rank type payload bad s).2 := by
  unfold sendReliable
  repeat' first
    | with_reducible assumption
    | (exact sub_ne _ _ (by decide) hn)
    | (intro e; subst e; exact absurd hn (by decide))
    | with_reducible apply sendMsg_fld
    | refine FieldKept.snd (by with_reducible assumption) ?_

theorem sendWrite_fld {m : Nat} (rank addr step space base n : Nat) (s : State)
    (hn : [9, 10, 11, 446, 447, 448, 449, 456, 461].contains m = false)
    (h : FieldKept m s0 s) : FieldKept m s0 (sendWrite rank addr step space base n s).2 := by
  unfold sendWrite
  repeat' first
    | with_reducible assumption
    | (exact sub_ne _ _ (by decide) hn)
    | (intro e; subst e; exact absurd hn (by decide))
    | with_reducible apply sendMsg_fld
    | refine FieldKept.snd (by with_reducible assumption) ?_

theorem releaseHeld_fld (serial : Nat) (s : State)
    (hn : [9, 10, 11, 446, 447, 448, 449, 456, 461].contains n = false)
    (h : FieldKept n s0 s) : FieldKept n s0 (releaseHeld serial s) := by
  unfold releaseHeld
  repeat' first
    | with_reducible assumption
    | (exact sub_ne _ _ (by decide) hn)
    | (intro e; subst e; exact absurd hn (by decide))
    | (intro x; beta_reduce)
    | (extract_lets +onlyGivenNames x; refine (fun (hx : FieldKept n s0 x) => ?_) (?_ : FieldKept n s0 x) <;> [clear_value x; subst x])
    | (extract_lets +onlyGivenNames x; refine (fun (hx : FieldKept n s0 x.2) => ?_) (?_ : FieldKept n s0 x.2) <;> [clear_value x; subst x])
    | (extract_lets +onlyGivenNames x; clear_value x)
    | with_reducible apply setTx_fld
    | with_reducible apply windowSend_fld
    | with_reducible apply FieldKept.foldl
    | with_reducible apply FieldKept.foldl_snd
    | with_reducible apply FieldKept.foldl_fst
    | (with_reducible apply FieldKept.upd; first | with_reducible assumption | with_reducible apply setTx_fld | with_reducible apply windowSend_fld | with_reducible apply FieldKept.foldl | with_reducible apply FieldKept.foldl_snd | with_reducible apply FieldKept.foldl_fst)

theorem dropAwaits_fld (gone : Nat × Nat → Bool) (s : State) (n : Nat)
    (h : FieldKept n s0 s) : FieldKept n s0 (dropAwaits gone s) := by
  unfold dropAwaits
  repeat' first
    | with_reducible assumption
    | (with_reducible apply FieldKept.upd; first | with_reducible assumption)

theorem ackFrom_fld (serial mark map : Nat) (s : State)
    (hn : [9, 10, 11, 446, 447, 448, 449, 456, 461].contains n = false)
    (h : FieldKept n s0 s) : FieldKept n s0 (ackFrom serial mark map s) := by
  unfold ackFrom
  repeat' first
    | with_reducible assumption
    | (exact sub_ne _ _ (by decide) hn)
    | (intro e; subst e; exact absurd hn (by decide))
    | (intro x; beta_reduce)
    | (extract_lets +onlyGivenNames x; refine (fun (hx : FieldKept n s0 x) => ?_) (?_ : FieldKept n s0 x) <;> [clear_value x; subst x])
    | (extract_lets +onlyGivenNames x; clear_value x)
    | with_reducible apply FieldKept.ite
    | split
    | with_reducible apply setTx_fld
    | with_reducible apply releaseHeld_fld
    | with_reducible apply dropAwaits_fld
    | (with_reducible apply FieldKept.upd; first | with_reducible assumption | with_reducible apply setTx_fld | with_reducible apply releaseHeld_fld | with_reducible apply dropAwaits_fld)

theorem retransmit_fld (serial id : Nat) (s : State) (hn : [9, 10, 11, 446, 447, 448, 449, 456].contains n = false)
    (h : FieldKept n s0 s) : FieldKept n s0 (retransmit serial id s) := by
  unfold retransmit
  repeat' first
    | with_reducible assumption
    | (exact sub_ne _ _ (by decide) hn)
    | (intro e; subst e; exact absurd hn (by decide))
    | (extract_lets +onlyGivenNames x; refine (fun (hx : FieldKept n s0 x) => ?_) (?_ : FieldKept n s0 x) <;> [clear_value x; subst x])
    | (extract_lets +onlyGivenNames x; refine (fun (hx : FieldKept n s0 x.2) => ?_) (?_ : FieldKept n s0 x.2) <;> [clear_value x; subst x])
    | (extract_lets +onlyGivenNames x; clear_value x)
    | with_reducible apply FieldKept.ite
    | split
    | with_reducible apply advanceTo_fld
    | with_reducible apply trySend_fld
    | with_reducible apply setTx_fld
    | refine FieldKept.snd (by with_reducible assumption) ?_
    | (with_reducible apply FieldKept.upd; first | with_reducible assumption | with_reducible apply advanceTo_fld | with_reducible apply trySend_fld | with_reducible apply setTx_fld | refine FieldKept.snd (by with_reducible assumption) ?_)

theorem ackDelay_fld (serial : Nat) (s : State) (hn : [446, 447, 448, 449].contains n = false)
    (h : FieldKept n s0 s) : FieldKept n s0 (ackDelay serial s) := by
  unfold ackDelay
  repeat' first
    | with_reducible assumption
    | (exact sub_ne _ _ (by decide) hn)
    | (intro e; subst e; exact absurd hn (by decide))
    | (extract_lets +onlyGivenNames x; refine (fun (hx : FieldKept n s0 x) => ?_) (?_ : FieldKept n s0 x) <;> [clear_value x; subst x])
    | (extract_lets +onlyGivenNames x; refine (fun (hx : FieldKept n s0 x.2) => ?_) (?_ : FieldKept n s0 x.2) <;> [clear_value x; subst x])
    | (extract_lets +onlyGivenNames x; clear_value x)
    | with_reducible apply FieldKept.ite
    | split
    | with_reducible apply advanceTo_fld
    | with_reducible apply sendRhazo_fld

theorem portToken_fld (die queue word : Nat) (s : State)
    (hn : [9, 10, 11, 196, 197, 198, 204, 205, 682, 686, 688, 689].contains n = false)
    (h : FieldKept n s0 s) : FieldKept n s0 (portToken die queue word s) := by
  unfold portToken
  repeat' first
    | with_reducible assumption
    | (exact sub_ne _ _ (by decide) hn)
    | (intro e; subst e; exact absurd hn (by decide))
    | (extract_lets +onlyGivenNames x; refine (fun (hx : FieldKept n s0 x) => ?_) (?_ : FieldKept n s0 x) <;> [clear_value x; subst x])
    | (extract_lets +onlyGivenNames x; clear_value x)
    | with_reducible apply enqueue_fld

theorem deliverTokens_fld (k serial : Nat) (s : State) (hn : [9, 10, 11, 196, 197, 198, 204, 205, 682, 686, 688, 689].contains n = false) (h : FieldKept n s0 s) :
    FieldKept n s0 (deliverTokens k serial s) := by
  induction k generalizing s with
  | zero => exact h
  | succ k ih =>
    unfold deliverTokens
    repeat' first
      | with_reducible assumption
      | (exact sub_ne _ _ (by decide) hn)
      | (extract_lets +onlyGivenNames x; clear_value x)
      | split
      | with_reducible apply ih
      | with_reducible apply portToken_fld
      | with_reducible apply setRx_fld

theorem dropSession_fld (f : Frame) (s : State) (n : Nat)
    (h : FieldKept n s0 s) : FieldKept n s0 (dropSession f s) := by
  unfold dropSession
  repeat' first
    | with_reducible assumption
    | with_reducible apply FieldKept.ite
    | split
    | with_reducible apply setRx_fld

theorem arrive_fld {n : Nat} (f : Frame) (k : Nat) (always : Bool) (s : State) (hn : [9, 10, 11, 406, 433, 446, 447, 448, 449, 450, 451, 453, 455, 456, 461].contains n = false)
    (h : FieldKept n s0 s) :
    FieldKept n s0 (arrive f k always s).2 ∧ ∀ t u, arrive f k always s = (some t, u) → FieldKept n s0 t := by
  unfold arrive
  split
  · simp [h]
  · extract_lets s1 s2 s3
    have h1 : FieldKept n s0 s1 := countFrame_fld _ _ (sub_ne _ _ (by decide) hn) h
    split
    · simp [sat_fld F.pt_FRAME_SIZE_ERRORS _ 0 1 _ (by intro e; subst e; exact absurd hn (by decide))
          (sub_ne _ _ (by decide) hn) h1]
    · split
      · simp [sat_fld F.pt_BAD_FRAMES _ 0 1 _ (by intro e; subst e; exact absurd hn (by decide))
          (sub_ne _ _ (by decide) hn) h1]
      · split
        · simp [sat_fld F.rs_NONMEMBER_DISCARDS _ 0 1 _ (by intro e; subst e; exact absurd hn (by decide))
          (sub_ne _ _ (by decide) hn) h1]
        · have h2 : FieldKept n s0 s2 := by
            first
              | exact dropSession_fld _ _ _ h1
              | exact dropSession_fld _ _ h1
          have h3 : FieldKept n s0 s3 := by
            show FieldKept n s0 (if f.ackValid then ackFrom f.serial f.ackMark f.ackMap s2 else s2)
            split
            · exact ackFrom_fld _ _ _ _ (sub_ne _ _ (by decide) hn) h2
            · exact h2
          simp [h3]

theorem takeMessage_fld (f : Frame) (type : Nat) (act after : State → State) (r : RxPeer) (s : State)
    (hn : [9, 10, 11, 196, 197, 198, 204, 205, 457, 458, 682, 686, 688, 689].contains n = false)
    (hact : ∀ s, FieldKept n s0 s → FieldKept n s0 (act s)) (hafter : ∀ s, FieldKept n s0 s → FieldKept n s0 (after s))
    (h : FieldKept n s0 s) : FieldKept n s0 (takeMessage f type act after r s) := by
  unfold takeMessage
  repeat' first
    | with_reducible assumption
    | (exact sub_ne _ _ (by decide) hn)
    | (intro e; subst e; exact absurd hn (by decide))
    | (intro x; beta_reduce)
    | with_reducible apply FieldKept.ite
    | split
    | with_reducible apply hact
    | with_reducible apply hafter
    | with_reducible apply sat_fld
    | with_reducible apply setRx_fld
    | with_reducible apply deliverTokens_fld
    | (with_reducible apply FieldKept.upd; first | with_reducible assumption | with_reducible apply hact | with_reducible apply hafter | with_reducible apply sat_fld | with_reducible apply setRx_fld | with_reducible apply deliverTokens_fld)

theorem receive_fld {m : Nat} (f : Frame) (n type : Nat) (act after : State → State) (s : State)
    (hn : [9, 10, 11, 196, 197, 198, 204, 205, 406, 433, 446, 447, 448, 449, 450, 451, 453, 455, 456, 457, 458, 461, 682,
    686, 688, 689].contains m = false) (hact : ∀ s, FieldKept m s0 s → FieldKept m s0 (act s))
    (hafter : ∀ s, FieldKept m s0 s → FieldKept m s0 (after s))
    (h : FieldKept m s0 s) : FieldKept m s0 (receive f n type act after s) := by
  unfold receive
  repeat' first
    | with_reducible assumption
    | (exact sub_ne _ _ (by decide) hn)
    | (intro e; subst e; exact absurd hn (by decide))
    | (intro x; beta_reduce)
    | with_reducible apply FieldKept.ite
    | split
    | with_reducible apply hact
    | with_reducible apply hafter
    | exact (arrive_fld _ _ _ _ (sub_ne _ _ (by decide) hn) (by with_reducible assumption)).1
    | exact FieldKept.snd (by with_reducible assumption) (arrive_fld _ _ _ _ (sub_ne _ _ (by decide) hn) (by with_reducible assumption)).1
    | exact (arrive_fld _ _ _ _ (sub_ne _ _ (by decide) hn) (by with_reducible assumption)).2 _ _ (by with_reducible assumption)
    | with_reducible apply takeMessage_fld
    | refine FieldKept.snd (by with_reducible assumption) ?_

theorem takeToken_fld (f : Frame) (word queue die : Nat) (after : State → State) (r : RxPeer) (s : State)
    (hn : [9, 10, 11, 196, 197, 198, 204, 205, 457, 458, 682, 686, 688, 689].contains n = false)
    (hafter : ∀ s, FieldKept n s0 s → FieldKept n s0 (after s))
    (h : FieldKept n s0 s) : FieldKept n s0 (takeToken f word queue die after r s) := by
  unfold takeToken
  repeat' first
    | with_reducible assumption
    | (exact sub_ne _ _ (by decide) hn)
    | (intro e; subst e; exact absurd hn (by decide))
    | (intro x; beta_reduce)
    | with_reducible apply FieldKept.ite
    | split
    | with_reducible apply hafter
    | with_reducible apply sat_fld
    | with_reducible apply setRx_fld
    | with_reducible apply deliverTokens_fld
    | (with_reducible apply FieldKept.upd; first | with_reducible assumption | with_reducible apply hafter | with_reducible apply sat_fld | with_reducible apply setRx_fld | with_reducible apply deliverTokens_fld)

theorem receiveToken_fld (f : Frame) (word queue die : Nat) (after : State → State) (s : State)
    (hn : [9, 10, 11, 196, 197, 198, 204, 205, 406, 433, 446, 447, 448, 449, 450, 451, 453, 455, 456, 457, 458, 461, 682,
    686, 688, 689].contains n = false) (hafter : ∀ s, FieldKept n s0 s → FieldKept n s0 (after s))
    (h : FieldKept n s0 s) : FieldKept n s0 (receiveToken f word queue die after s) := by
  unfold receiveToken
  repeat' first
    | with_reducible assumption
    | (exact sub_ne _ _ (by decide) hn)
    | (intro e; subst e; exact absurd hn (by decide))
    | (intro x; beta_reduce)
    | with_reducible apply FieldKept.ite
    | split
    | with_reducible apply hafter
    | exact (arrive_fld _ _ _ _ (sub_ne _ _ (by decide) hn) (by with_reducible assumption)).1
    | exact FieldKept.snd (by with_reducible assumption) (arrive_fld _ _ _ _ (sub_ne _ _ (by decide) hn) (by with_reducible assumption)).1
    | exact (arrive_fld _ _ _ _ (sub_ne _ _ (by decide) hn) (by with_reducible assumption)).2 _ _ (by with_reducible assumption)
    | with_reducible apply takeToken_fld
    | refine FieldKept.snd (by with_reducible assumption) ?_

theorem countZone_fld {m : Nat} (a n z : Nat) (s : State)
    (hn : [9, 10, 11, 196, 197, 198, 204, 205, 462, 682, 686, 688, 689].contains m = false)
    (h : FieldKept m s0 s) : FieldKept m s0 (countZone a n z s) := by
  unfold countZone
  repeat' first
    | with_reducible assumption
    | (exact sub_ne _ _ (by decide) hn)
    | (intro e; subst e; exact absurd hn (by decide))
    | (intro x; beta_reduce)
    | (extract_lets +onlyGivenNames x; refine (fun (hx : FieldKept m s0 x) => ?_) (?_ : FieldKept m s0 x) <;> [clear_value x; subst x])
    | (extract_lets +onlyGivenNames x; refine (fun (hx : FieldKept m s0 x.2) => ?_) (?_ : FieldKept m s0 x.2) <;> [clear_value x; subst x])
    | (extract_lets +onlyGivenNames x; clear_value x)
    | with_reducible apply FieldKept.ite
    | split
    | with_reducible apply portToken_fld
    | with_reducible apply wr_fld
    | with_reducible apply FieldKept.foldl
    | with_reducible apply FieldKept.foldl_snd
    | with_reducible apply FieldKept.foldl_fst

theorem storePoisoned_fld (a : Nat) (bytes : List Byte) (bad : List Nat) (s : State)
    (hn : [9, 10, 11, 702].contains n = false) (h : FieldKept n s0 s) : FieldKept n s0 (storePoisoned a bytes bad s) := by
  unfold storePoisoned
  repeat' first
    | with_reducible assumption
    | (exact sub_ne _ _ (by decide) hn)
    | (intro e; subst e; exact absurd hn (by decide))
    | (intro x; beta_reduce)
    | (extract_lets +onlyGivenNames x; refine (fun (hx : FieldKept n s0 x) => ?_) (?_ : FieldKept n s0 x) <;> [clear_value x; subst x])
    | (extract_lets +onlyGivenNames x; refine (fun (hx : FieldKept n s0 x.2) => ?_) (?_ : FieldKept n s0 x.2) <;> [clear_value x; subst x])
    | (extract_lets +onlyGivenNames x; clear_value x)
    | with_reducible apply poisonWord_fld
    | with_reducible apply satU_fld
    | with_reducible apply storeMem_fld
    | with_reducible apply FieldKept.foldl
    | with_reducible apply FieldKept.foldl_snd
    | with_reducible apply FieldKept.foldl_fst

theorem remoteStore_fld (a : Nat) (bytes : List Byte) (bad : List Nat) (s : State)
    (hn : [9, 10, 11, 670, 682, 685, 689, 697, 698, 699, 702, 703, 704, 705].contains n = false)
    (h : FieldKept n s0 s) : FieldKept n s0 (remoteStore a bytes bad s) := by
  unfold remoteStore
  repeat' first
    | with_reducible assumption
    | (exact sub_ne _ _ (by decide) hn)
    | (intro e; subst e; exact absurd hn (by decide))
    | with_reducible apply viewReport_fld
    | with_reducible apply storePoisoned_fld

theorem noteLanded_fld (addr n : Nat) (s : State) (m : Nat)
    (h : FieldKept m s0 s) : FieldKept m s0 (noteLanded addr n s) := by
  unfold noteLanded
  repeat' first
    | with_reducible assumption
    | (intro x; beta_reduce)
    | (extract_lets +onlyGivenNames x; refine (fun (hx : FieldKept m s0 x) => ?_) (?_ : FieldKept m s0 x) <;> [clear_value x; subst x])
    | (extract_lets +onlyGivenNames x; refine (fun (hx : FieldKept m s0 x.2) => ?_) (?_ : FieldKept m s0 x.2) <;> [clear_value x; subst x])
    | (extract_lets +onlyGivenNames x; clear_value x)
    | with_reducible apply FieldKept.ite
    | split
    | with_reducible apply modBx_fld
    | (with_reducible apply FieldKept.upd; first | with_reducible assumption | with_reducible apply modBx_fld)

theorem takeWrite_fld (f : Frame) (addr : Nat) (bound : Bool) (step : Nat) (data : List Byte) (bad : List Nat)
    (s : State)
    (hn : [9, 10, 11, 196, 197, 198, 204, 205, 446, 447, 448, 449, 456, 460, 461, 462, 670, 682, 685, 686, 688, 689, 697,
    698, 699, 702, 703, 704, 705].contains n = false)
    (h : FieldKept n s0 s) : FieldKept n s0 (takeWrite f addr bound step data bad s) := by
  unfold takeWrite
  repeat' first
    | with_reducible assumption
    | (exact sub_ne _ _ (by decide) hn)
    | (intro e; subst e; exact absurd hn (by decide))
    | (intro x; beta_reduce)
    | (extract_lets +onlyGivenNames x; refine (fun (hx : FieldKept n s0 x) => ?_) (?_ : FieldKept n s0 x) <;> [clear_value x; subst x])
    | (extract_lets +onlyGivenNames x; refine (fun (hx : FieldKept n s0 x.2) => ?_) (?_ : FieldKept n s0 x.2) <;> [clear_value x; subst x])
    | (extract_lets +onlyGivenNames x; clear_value x)
    | with_reducible apply FieldKept.ite
    | split
    | with_reducible apply sat_fld
    | with_reducible apply sendReliable_fld
    | with_reducible apply remoteStore_fld
    | with_reducible apply noteLanded_fld
    | with_reducible apply countZone_fld
    | with_reducible apply FieldKept.foldl
    | with_reducible apply FieldKept.foldl_snd
    | with_reducible apply FieldKept.foldl_fst
    | refine FieldKept.snd (by with_reducible assumption) ?_

theorem discardFrame_fld (f : Frame) (why : Discard) (after : State → State) (s : State)
    (hn : [9, 10, 11, 196, 197, 198, 204, 205, 406, 433, 446, 447, 448, 449, 450, 451, 452, 453, 454, 455, 456, 457, 458,
    461, 495, 682, 686, 688, 689].contains n = false) (hafter : ∀ s, FieldKept n s0 s → FieldKept n s0 (after s))
    (h : FieldKept n s0 s) : FieldKept n s0 (discardFrame f why after s) := by
  unfold discardFrame
  repeat' first
    | with_reducible assumption
    | (exact sub_ne _ _ (by decide) hn)
    | (intro e; subst e; exact absurd hn (by decide))
    | (intro x; beta_reduce)
    | (extract_lets +onlyGivenNames x; refine (fun (hx : FieldKept n s0 x) => ?_) (?_ : FieldKept n s0 x) <;> [clear_value x; subst x])
    | (extract_lets +onlyGivenNames x; refine (fun (hx : FieldKept n s0 x.2) => ?_) (?_ : FieldKept n s0 x.2) <;> [clear_value x; subst x])
    | (extract_lets +onlyGivenNames x; clear_value x)
    | with_reducible apply FieldKept.ite
    | split
    | with_reducible apply hafter
    | with_reducible apply receive_fld
    | with_reducible apply sat_fld
    | with_reducible apply countFrame_fld

theorem sendWaiting_fld (s : State) (hn : [9, 10, 11, 446, 447, 448, 449, 456].contains n = false)
    (h : FieldKept n s0 s) : FieldKept n s0 (sendWaiting s) := by
  unfold sendWaiting
  repeat' first
    | with_reducible assumption
    | (exact sub_ne _ _ (by decide) hn)
    | (intro e; subst e; exact absurd hn (by decide))
    | (intro x; beta_reduce)
    | (extract_lets +onlyGivenNames x; refine (fun (hx : FieldKept n s0 x) => ?_) (?_ : FieldKept n s0 x) <;> [clear_value x; subst x])
    | (extract_lets +onlyGivenNames x; refine (fun (hx : FieldKept n s0 x.2) => ?_) (?_ : FieldKept n s0 x.2) <;> [clear_value x; subst x])
    | (extract_lets +onlyGivenNames x; clear_value x)
    | with_reducible apply FieldKept.ite
    | split
    | with_reducible apply trySend_fld
    | with_reducible apply setTx_fld
    | with_reducible apply FieldKept.foldl
    | with_reducible apply FieldKept.foldl_snd
    | with_reducible apply FieldKept.foldl_fst
    | refine FieldKept.snd (by with_reducible assumption) ?_
    | (with_reducible apply FieldKept.upd; first | with_reducible assumption | with_reducible apply trySend_fld | with_reducible apply setTx_fld | with_reducible apply FieldKept.foldl | with_reducible apply FieldKept.foldl_snd | with_reducible apply FieldKept.foldl_fst | refine FieldKept.snd (by with_reducible assumption) ?_)

theorem showPtpPort_fld (s : State) (hn : [435, 485, 486].contains n = false)
    (h : FieldKept n s0 s) : FieldKept n s0 (showPtpPort s) := by
  unfold showPtpPort
  repeat' first
    | with_reducible assumption
    | (exact sub_ne _ _ (by decide) hn)
    | (intro e; subst e; exact absurd hn (by decide))
    | (intro x; beta_reduce)
    | (extract_lets +onlyGivenNames x; refine (fun (hx : FieldKept n s0 x) => ?_) (?_ : FieldKept n s0 x) <;> [clear_value x; subst x])
    | (extract_lets +onlyGivenNames x; refine (fun (hx : FieldKept n s0 x.2) => ?_) (?_ : FieldKept n s0 x.2) <;> [clear_value x; subst x])
    | (extract_lets +onlyGivenNames x; clear_value x)
    | with_reducible apply FieldKept.ite
    | split
    | with_reducible apply setb_fld
    | with_reducible apply wr_fld
    | with_reducible apply FieldKept.foldl
    | with_reducible apply FieldKept.foldl_snd
    | with_reducible apply FieldKept.foldl_fst

theorem portReady_fld (p : Nat) (s : State) (hn : [3, 7, 8].contains n = false)
    (h : FieldKept n s0 s) : FieldKept n s0 (portReady p s) := by
  unfold portReady
  repeat' first
    | with_reducible assumption
    | (exact sub_ne _ _ (by decide) hn)
    | (intro e; subst e; exact absurd hn (by decide))
    | (extract_lets +onlyGivenNames x; refine (fun (hx : FieldKept n s0 x) => ?_) (?_ : FieldKept n s0 x) <;> [clear_value x; subst x])
    | (extract_lets +onlyGivenNames x; clear_value x)
    | with_reducible apply FieldKept.ite
    | split
    | with_reducible apply setReady_fld

theorem linkRises_fld (p : Nat) (s : State) (hn : [3, 7, 8, 431, 432, 435, 485, 486].contains n = false)
    (h : FieldKept n s0 s) : FieldKept n s0 (linkRises p s) := by
  unfold linkRises
  repeat' first
    | with_reducible assumption
    | (exact sub_ne _ _ (by decide) hn)
    | (intro e; subst e; exact absurd hn (by decide))
    | (extract_lets +onlyGivenNames x; refine (fun (hx : FieldKept n s0 x) => ?_) (?_ : FieldKept n s0 x) <;> [clear_value x; subst x])
    | (extract_lets +onlyGivenNames x; clear_value x)
    | with_reducible apply setb_fld
    | with_reducible apply showPtpPort_fld
    | with_reducible apply portReady_fld

theorem linkDown_fld (p : Nat) (s : State)
    (hn : [3, 7, 8, 9, 10, 11, 431, 432, 433, 434, 435, 459, 485, 486].contains n = false)
    (h : FieldKept n s0 s) : FieldKept n s0 (linkDown p s) := by
  unfold linkDown
  repeat' first
    | with_reducible assumption
    | (exact sub_ne _ _ (by decide) hn)
    | (intro e; subst e; exact absurd hn (by decide))
    | (extract_lets +onlyGivenNames x; refine (fun (hx : FieldKept n s0 x) => ?_) (?_ : FieldKept n s0 x) <;> [clear_value x; subst x])
    | (extract_lets +onlyGivenNames x; clear_value x)
    | with_reducible apply FieldKept.ite
    | split
    | with_reducible apply setb_fld
    | with_reducible apply sat_fld
    | with_reducible apply showPtpPort_fld
    | with_reducible apply portReady_fld

theorem heartbeatSend_fld (s : State) (hn : [446, 447, 448, 449].contains n = false)
    (h : FieldKept n s0 s) : FieldKept n s0 (heartbeatSend s) := by
  unfold heartbeatSend
  repeat' first
    | with_reducible assumption
    | (exact sub_ne _ _ (by decide) hn)
    | (intro e; subst e; exact absurd hn (by decide))
    | (intro x; beta_reduce)
    | (extract_lets +onlyGivenNames x; refine (fun (hx : FieldKept n s0 x) => ?_) (?_ : FieldKept n s0 x) <;> [clear_value x; subst x])
    | (extract_lets +onlyGivenNames x; refine (fun (hx : FieldKept n s0 x.2) => ?_) (?_ : FieldKept n s0 x.2) <;> [clear_value x; subst x])
    | (extract_lets +onlyGivenNames x; clear_value x)
    | with_reducible apply FieldKept.ite
    | split
    | with_reducible apply advanceTo_fld
    | with_reducible apply modJob_fld
    | with_reducible apply sendRhazo_fld
    | with_reducible apply FieldKept.foldl
    | with_reducible apply FieldKept.foldl_snd
    | with_reducible apply FieldKept.foldl_fst
    | (with_reducible apply FieldKept.upd; first | with_reducible assumption | with_reducible apply advanceTo_fld | with_reducible apply modJob_fld | with_reducible apply sendRhazo_fld | with_reducible apply FieldKept.foldl | with_reducible apply FieldKept.foldl_snd | with_reducible apply FieldKept.foldl_fst)

theorem learnStep_fld (f : Frame) (e : ViewEntry) (s : State) (hn : [603, 604].contains n = false)
    (h : FieldKept n s0 s) : FieldKept n s0 (learnStep f e s) := by
  unfold learnStep
  repeat' first
    | with_reducible assumption
    | (exact sub_ne _ _ (by decide) hn)
    | (intro e; subst e; exact absurd hn (by decide))
    | (intro x; beta_reduce)
    | (extract_lets +onlyGivenNames x; refine (fun (hx : FieldKept n s0 x) => ?_) (?_ : FieldKept n s0 x) <;> [clear_value x; subst x])
    | (extract_lets +onlyGivenNames x; clear_value x)
    | with_reducible apply FieldKept.ite
    | split
    | with_reducible apply wr_fld
    | with_reducible apply modJob_fld
    | (with_reducible apply FieldKept.upd; first | with_reducible assumption | with_reducible apply wr_fld | with_reducible apply modJob_fld)

theorem heartbeat_fld (f : Frame) (s : State)
    (hn : [9, 10, 11, 366, 378, 406, 408, 433, 446, 447, 448, 449, 450, 451, 453, 455, 456, 461, 603, 604].contains n =
    false) (h : FieldKept n s0 s) : FieldKept n s0 (heartbeat f s) := by
  unfold heartbeat
  repeat' first
    | with_reducible assumption
    | (exact sub_ne _ _ (by decide) hn)
    | (intro e; subst e; exact absurd hn (by decide))
    | (intro x; beta_reduce)
    | (extract_lets +onlyGivenNames x; refine (fun (hx : FieldKept n s0 x) => ?_) (?_ : FieldKept n s0 x) <;> [clear_value x; subst x])
    | (extract_lets +onlyGivenNames x; refine (fun (hx : FieldKept n s0 x.2) => ?_) (?_ : FieldKept n s0 x.2) <;> [clear_value x; subst x])
    | (extract_lets +onlyGivenNames x; clear_value x)
    | with_reducible apply FieldKept.ite
    | split
    | exact (arrive_fld _ _ _ _ (sub_ne _ _ (by decide) hn) (by with_reducible assumption)).1
    | exact FieldKept.snd (by with_reducible assumption) (arrive_fld _ _ _ _ (sub_ne _ _ (by decide) hn) (by with_reducible assumption)).1
    | exact (arrive_fld _ _ _ _ (sub_ne _ _ (by decide) hn) (by with_reducible assumption)).2 _ _ (by with_reducible assumption)
    | with_reducible apply learnStep_fld
    | with_reducible apply wr_fld
    | with_reducible apply modJob_fld
    | with_reducible apply withdraw_fld
    | refine FieldKept.snd (by with_reducible assumption) ?_
    | (with_reducible apply FieldKept.upd; first | with_reducible assumption | exact (arrive_fld _ _ _ _ (sub_ne _ _ (by decide) hn) (by with_reducible assumption)).1 | exact FieldKept.snd (by with_reducible assumption) (arrive_fld _ _ _ _ (sub_ne _ _ (by decide) hn) (by with_reducible assumption)).1 | exact (arrive_fld _ _ _ _ (sub_ne _ _ (by decide) hn) (by with_reducible assumption)).2 _ _ (by with_reducible assumption) | with_reducible apply learnStep_fld | with_reducible apply wr_fld | with_reducible apply modJob_fld | with_reducible apply withdraw_fld | refine FieldKept.snd (by with_reducible assumption) ?_)

theorem suspect_fld (rank : Nat) (s : State) (hn : [9, 10, 11, 374, 397, 408].contains n = false)
    (h : FieldKept n s0 s) : FieldKept n s0 (suspect rank s) := by
  unfold suspect
  repeat' first
    | with_reducible assumption
    | (exact sub_ne _ _ (by decide) hn)
    | (intro e; subst e; exact absurd hn (by decide))
    | (extract_lets +onlyGivenNames x; refine (fun (hx : FieldKept n s0 x) => ?_) (?_ : FieldKept n s0 x) <;> [clear_value x; subst x])
    | (extract_lets +onlyGivenNames x; clear_value x)
    | with_reducible apply FieldKept.ite
    | split
    | with_reducible apply advanceTo_fld
    | with_reducible apply sat_fld
    | with_reducible apply setb_fld
    | with_reducible apply wr_fld

end Sys2Proof.Machine
end

