-- ==== Sys2Proof/Laws/FieldsExchange.lean ====
section
/-! SUPPORT. Which register fields the operations of Machine/Exchange.lean may write: one lemma for each, which names the field numbers it can change. -/

set_option linter.unusedTactic false
set_option linter.unreachableTactic false
set_option linter.unusedVariables false

namespace Sys2Proof.Machine

open Sys2Proof

variable {n : Nat} {s0 : State}

theorem takeOp_fld (op : Nat) (x : XOp) (act : State → State) (s : State)
    (hn : [9, 10, 11, 285, 290, 299].contains n = false) (hact : ∀ s, FieldKept n s0 s → FieldKept n s0 (act s))
    (h : FieldKept n s0 s) : FieldKept n s0 (takeOp op x act s) := by
  unfold takeOp
  repeat' first
    | with_reducible assumption
    | (exact sub_ne _ _ (by decide) hn)
    | (intro e; subst e; exact absurd hn (by decide))
    | (intro x; beta_reduce)
    | (extract_lets +onlyGivenNames x; refine (fun (hx : FieldKept n s0 x) => ?_) (?_ : FieldKept n s0 x) <;> [clear_value x; subst x])
    | (extract_lets +onlyGivenNames x; clear_value x)
    | with_reducible apply FieldKept.ite
    | split
    | with_reducible apply hact
    | with_reducible apply addW_fld
    | with_reducible apply sat_fld

theorem sendOp_fld (rank type : Nat) (x : XOp) (s : State)
    (hn : [9, 10, 11, 446, 447, 448, 449, 456, 461].contains n = false)
    (h : FieldKept n s0 s) : FieldKept n s0 (sendOp rank type x s).2 := by
  unfold sendOp
  repeat' first
    | with_reducible assumption
    | (exact sub_ne _ _ (by decide) hn)
    | (intro e; subst e; exact absurd hn (by decide))
    | with_reducible apply sendReliable_fld
    | refine FieldKept.snd (by with_reducible assumption) ?_

theorem sendAll_fld (type : Nat) (x : XOp) (s : State)
    (hn : [9, 10, 11, 446, 447, 448, 449, 456, 461].contains n = false)
    (h : FieldKept n s0 s) : FieldKept n s0 (sendAll type x s).2 := by
  unfold sendAll
  repeat' first
    | with_reducible assumption
    | (exact sub_ne _ _ (by decide) hn)
    | (intro e; subst e; exact absurd hn (by decide))
    | (intro x; beta_reduce)
    | (extract_lets +onlyGivenNames x; refine (fun (hx : FieldKept n s0 x) => ?_) (?_ : FieldKept n s0 x) <;> [clear_value x; subst x])
    | (extract_lets +onlyGivenNames x; refine (fun (hx : FieldKept n s0 x.2) => ?_) (?_ : FieldKept n s0 x.2) <;> [clear_value x; subst x])
    | (extract_lets +onlyGivenNames x; clear_value x)
    | with_reducible apply FieldKept.ite
    | split
    | with_reducible apply sendOp_fld
    | with_reducible apply FieldKept.foldl
    | with_reducible apply FieldKept.foldl_snd
    | with_reducible apply FieldKept.foldl_fst
    | refine FieldKept.snd (by with_reducible assumption) ?_

theorem modSends_fld (p : SendRec → Bool) (f : SendRec → SendRec) (s : State) (n : Nat)
    (h : FieldKept n s0 s) : FieldKept n s0 (modSends p f s) := by
  unfold modSends
  repeat' first
    | with_reducible assumption
    | (intro x; beta_reduce)
    | with_reducible apply FieldKept.ite
    | split
    | with_reducible apply modJob_fld
    | (with_reducible apply FieldKept.upd; first | with_reducible assumption | with_reducible apply modJob_fld)

theorem modOp_fld (id : Nat) (f : PendingOp → PendingOp) (s : State) (n : Nat)
    (h : FieldKept n s0 s) : FieldKept n s0 (modOp id f s) := by
  unfold modOp
  repeat' first
    | with_reducible assumption
    | with_reducible apply FieldKept.ite
    | split
    | (with_reducible apply FieldKept.upd; first | with_reducible assumption)

theorem noteServed_fld (b first count : Nat) (s : State) (n : Nat)
    (h : FieldKept n s0 s) : FieldKept n s0 (noteServed b first count s) := by
  unfold noteServed
  repeat' first
    | with_reducible assumption
    | (intro x; beta_reduce)
    | (extract_lets +onlyGivenNames x; refine (fun (hx : FieldKept n s0 x) => ?_) (?_ : FieldKept n s0 x) <;> [clear_value x; subst x])
    | (extract_lets +onlyGivenNames x; refine (fun (hx : FieldKept n s0 x.2) => ?_) (?_ : FieldKept n s0 x.2) <;> [clear_value x; subst x])
    | (extract_lets +onlyGivenNames x; clear_value x)
    | with_reducible apply FieldKept.ite
    | split
    | with_reducible apply storeMem_fld
    | with_reducible apply modSends_fld
    | with_reducible apply modOp_fld
    | with_reducible apply FieldKept.foldl
    | with_reducible apply FieldKept.foldl_snd
    | with_reducible apply FieldKept.foldl_fst
    | (with_reducible apply FieldKept.upd; first | with_reducible assumption | with_reducible apply storeMem_fld | with_reducible apply modSends_fld | with_reducible apply modOp_fld | with_reducible apply FieldKept.foldl | with_reducible apply FieldKept.foldl_snd | with_reducible apply FieldKept.foldl_fst)

theorem onReply_fld (b code first count : Nat) (s : State) (n : Nat)
    (h : FieldKept n s0 s) : FieldKept n s0 (onReply b code first count s) := by
  unfold onReply
  repeat' first
    | with_reducible assumption
    | (intro x; beta_reduce)
    | (extract_lets +onlyGivenNames x; refine (fun (hx : FieldKept n s0 x) => ?_) (?_ : FieldKept n s0 x) <;> [clear_value x; subst x])
    | (extract_lets +onlyGivenNames x; refine (fun (hx : FieldKept n s0 x.2) => ?_) (?_ : FieldKept n s0 x.2) <;> [clear_value x; subst x])
    | (extract_lets +onlyGivenNames x; clear_value x)
    | with_reducible apply FieldKept.ite
    | split
    | with_reducible apply modSends_fld
    | with_reducible apply modOp_fld
    | with_reducible apply FieldKept.foldl
    | with_reducible apply FieldKept.foldl_snd
    | with_reducible apply FieldKept.foldl_fst
    | (with_reducible apply FieldKept.upd; first | with_reducible assumption | with_reducible apply modSends_fld | with_reducible apply modOp_fld | with_reducible apply FieldKept.foldl | with_reducible apply FieldKept.foldl_snd | with_reducible apply FieldKept.foldl_fst)

theorem noticeGates_fld (b : Nat) (s : State) (n : Nat)
    (h : FieldKept n s0 s) : FieldKept n s0 (noticeGates b s) := by
  unfold noticeGates
  repeat' first
    | with_reducible assumption
    | (extract_lets +onlyGivenNames x; refine (fun (hx : FieldKept n s0 x) => ?_) (?_ : FieldKept n s0 x) <;> [clear_value x; subst x])
    | (extract_lets +onlyGivenNames x; refine (fun (hx : FieldKept n s0 x.2) => ?_) (?_ : FieldKept n s0 x.2) <;> [clear_value x; subst x])
    | (extract_lets +onlyGivenNames x; clear_value x)
    | with_reducible apply FieldKept.ite
    | split
    | (with_reducible apply FieldKept.upd; first | with_reducible assumption)

theorem onNotice_fld (rank b : Nat) (ranks : List Nat) (count : Nat) (rep veto final : Bool) (s : State)
    (hn : [9, 10, 11, 265, 266, 267, 295, 307, 682, 689].contains n = false)
    (h : FieldKept n s0 s) : FieldKept n s0 (onNotice rank b ranks count rep veto final s) := by
  unfold onNotice
  repeat' first
    | with_reducible assumption
    | (exact sub_ne _ _ (by decide) hn)
    | (intro e; subst e; exact absurd hn (by decide))
    | (extract_lets +onlyGivenNames x; refine (fun (hx : FieldKept n s0 x) => ?_) (?_ : FieldKept n s0 x) <;> [clear_value x; subst x])
    | (extract_lets +onlyGivenNames x; clear_value x)
    | with_reducible apply FieldKept.ite
    | split
    | with_reducible apply setBx_fld
    | with_reducible apply setIncluded_fld
    | with_reducible apply noticeGates_fld
    | with_reducible apply refreshPending_fld
    | with_reducible apply refreshVeto_fld
    | with_reducible apply exchangeLog_fld
    | with_reducible apply setb_fld
    | with_reducible apply sat_fld
    | (with_reducible apply FieldKept.upd; first | with_reducible assumption | with_reducible apply setBx_fld | with_reducible apply setIncluded_fld | with_reducible apply noticeGates_fld | with_reducible apply refreshPending_fld | with_reducible apply refreshVeto_fld | with_reducible apply exchangeLog_fld | with_reducible apply setb_fld | with_reducible apply sat_fld)

theorem onTable_fld (b : Nat) (changes : List (Nat × Nat)) (s : State) (n : Nat)
    (h : FieldKept n s0 s) : FieldKept n s0 (onTable b changes s) := by
  unfold onTable
  repeat' first
    | with_reducible assumption
    | (intro x; beta_reduce)
    | with_reducible apply storeMem_fld
    | with_reducible apply FieldKept.foldl
    | with_reducible apply FieldKept.foldl_snd
    | with_reducible apply FieldKept.foldl_fst

end Sys2Proof.Machine
end

