-- ==== Sys2Proof/Laws/FieldsOwner.lean ====
section
/-! SUPPORT. Which register fields the operations of Machine/Owner.lean may write: one lemma for each, which names the field numbers it can change. -/

set_option linter.unusedTactic false
set_option linter.unreachableTactic false
set_option linter.unusedVariables false

namespace Sys2Proof.Machine

open Sys2Proof

variable {n : Nat} {s0 : State}

theorem accAdd_fld (b pos : Nat) (ds : List Int) (s : State) (n : Nat)
    (h : FieldKept n s0 s) : FieldKept n s0 (accAdd b pos ds s) := by
  unfold accAdd
  repeat' first
    | with_reducible assumption
    | with_reducible apply writeBytes_fld

theorem accCount_fld (b rank added markers : Nat) (s : State) (hn : [9, 10, 11, 286, 296].contains n = false)
    (h : FieldKept n s0 s) : FieldKept n s0 (accCount b rank added markers s) := by
  unfold accCount
  repeat' first
    | with_reducible assumption
    | (exact sub_ne _ _ (by decide) hn)
    | (intro e; subst e; exact absurd hn (by decide))
    | (intro x; beta_reduce)
    | (extract_lets +onlyGivenNames x; refine (fun (hx : FieldKept n s0 x) => ?_) (?_ : FieldKept n s0 x) <;> [clear_value x; subst x])
    | (extract_lets +onlyGivenNames x; clear_value x)
    | with_reducible apply FieldKept.ite
    | split
    | with_reducible apply addW_fld
    | with_reducible apply sat_fld
    | with_reducible apply modBx_fld
    | (with_reducible apply FieldKept.upd; first | with_reducible assumption | with_reducible apply addW_fld | with_reducible apply sat_fld | with_reducible apply modBx_fld)

theorem countElems_fld (x : XOp) (sub : Bool) (skip : Nat → Bool) (ms : List (Nat × Byte)) (s : State)
    (hn : [9, 10, 11, 286, 296].contains n = false)
    (h : FieldKept n s0 s) : FieldKept n s0 (countElems x sub skip ms s) := by
  unfold countElems
  repeat' first
    | with_reducible assumption
    | (exact sub_ne _ _ (by decide) hn)
    | (intro e; subst e; exact absurd hn (by decide))
    | (extract_lets +onlyGivenNames x; refine (fun (hx : FieldKept n s0 x) => ?_) (?_ : FieldKept n s0 x) <;> [clear_value x; subst x])
    | (extract_lets +onlyGivenNames x; clear_value x)
    | with_reducible apply FieldKept.ite
    | split
    | with_reducible apply accCount_fld

theorem accumulate_fld (x : XOp) (sub : Bool) (skip : Nat → Bool) (s : State)
    (hn : [9, 10, 11, 286, 296].contains n = false)
    (h : FieldKept n s0 s) : FieldKept n s0 (accumulate x sub skip s) := by
  unfold accumulate
  repeat' first
    | with_reducible assumption
    | (exact sub_ne _ _ (by decide) hn)
    | (intro e; subst e; exact absurd hn (by decide))
    | (intro x; beta_reduce)
    | (extract_lets +onlyGivenNames x; refine (fun (hx : FieldKept n s0 x) => ?_) (?_ : FieldKept n s0 x) <;> [clear_value x; subst x])
    | (extract_lets +onlyGivenNames x; refine (fun (hx : FieldKept n s0 x.2) => ?_) (?_ : FieldKept n s0 x.2) <;> [clear_value x; subst x])
    | (extract_lets +onlyGivenNames x; clear_value x)
    | with_reducible apply FieldKept.ite
    | split
    | with_reducible apply countElems_fld
    | with_reducible apply accAdd_fld
    | with_reducible apply accCount_fld
    | with_reducible apply FieldKept.foldl
    | with_reducible apply FieldKept.foldl_snd
    | with_reducible apply FieldKept.foldl_fst

theorem noteTaken_fld (x : XOp) (s : State) (n : Nat) (h : FieldKept n s0 s) : FieldKept n s0 (noteTaken x s) := by
  unfold noteTaken
  repeat' first
    | with_reducible assumption
    | (intro x; beta_reduce)
    | (extract_lets +onlyGivenNames x; refine (fun (hx : FieldKept n s0 x) => ?_) (?_ : FieldKept n s0 x) <;> [clear_value x; subst x])
    | (extract_lets +onlyGivenNames x; clear_value x)
    | with_reducible apply FieldKept.ite
    | split
    | with_reducible apply modBx_fld
    | (with_reducible apply FieldKept.upd; first | with_reducible assumption | with_reducible apply modBx_fld)

theorem addOnce_fld (x : XOp) (sub : Bool) (s : State) (hn : [9, 10, 11, 286, 296].contains n = false)
    (h : FieldKept n s0 s) : FieldKept n s0 (addOnce x sub s) := by
  unfold addOnce
  repeat' first
    | with_reducible assumption
    | (exact sub_ne _ _ (by decide) hn)
    | (intro e; subst e; exact absurd hn (by decide))
    | (intro x; beta_reduce)
    | with_reducible apply noteTaken_fld
    | with_reducible apply accumulate_fld

theorem sendNotice_fld (b changes : Nat) (rep veto final : Bool) (s : State)
    (hn : [9, 10, 11, 265, 266, 267, 295, 307, 446, 447, 448, 449, 456, 461, 682, 689].contains n = false)
    (h : FieldKept n s0 s) : FieldKept n s0 (sendNotice b changes rep veto final s) := by
  unfold sendNotice
  repeat' first
    | with_reducible assumption
    | (exact sub_ne _ _ (by decide) hn)
    | (intro e; subst e; exact absurd hn (by decide))
    | (extract_lets +onlyGivenNames x; refine (fun (hx : FieldKept n s0 x) => ?_) (?_ : FieldKept n s0 x) <;> [clear_value x; subst x])
    | (extract_lets +onlyGivenNames x; refine (fun (hx : FieldKept n s0 x.2) => ?_) (?_ : FieldKept n s0 x.2) <;> [clear_value x; subst x])
    | (extract_lets +onlyGivenNames x; clear_value x)
    | with_reducible apply onNotice_fld
    | with_reducible apply sendAll_fld
    | refine FieldKept.snd (by with_reducible assumption) ?_

theorem announce_fld (b : Nat) (rep veto final : Bool) (s : State)
    (hn : [9, 10, 11, 265, 266, 267, 295, 307, 446, 447, 448, 449, 456, 461, 682, 689].contains n = false)
    (h : FieldKept n s0 s) : FieldKept n s0 (announce b rep veto final s) := by
  unfold announce
  repeat' first
    | with_reducible assumption
    | (exact sub_ne _ _ (by decide) hn)
    | (intro e; subst e; exact absurd hn (by decide))
    | (intro x; beta_reduce)
    | (extract_lets +onlyGivenNames x; refine (fun (hx : FieldKept n s0 x) => ?_) (?_ : FieldKept n s0 x) <;> [clear_value x; subst x])
    | (extract_lets +onlyGivenNames x; refine (fun (hx : FieldKept n s0 x.2) => ?_) (?_ : FieldKept n s0 x.2) <;> [clear_value x; subst x])
    | (extract_lets +onlyGivenNames x; clear_value x)
    | with_reducible apply sendNotice_fld
    | with_reducible apply sendAll_fld
    | with_reducible apply onTable_fld
    | with_reducible apply FieldKept.foldl
    | with_reducible apply FieldKept.foldl_snd
    | with_reducible apply FieldKept.foldl_fst
    | refine FieldKept.snd (by with_reducible assumption) ?_

theorem sendShard_fld (b rank : Nat) (data : Bool) (s : State)
    (hn : [9, 10, 11, 446, 447, 448, 449, 456, 461].contains n = false)
    (h : FieldKept n s0 s) : FieldKept n s0 (sendShard b rank data s) := by
  unfold sendShard
  repeat' first
    | with_reducible assumption
    | (exact sub_ne _ _ (by decide) hn)
    | (intro e; subst e; exact absurd hn (by decide))
    | (intro x; beta_reduce)
    | (extract_lets +onlyGivenNames x; refine (fun (hx : FieldKept n s0 x) => ?_) (?_ : FieldKept n s0 x) <;> [clear_value x; subst x])
    | (extract_lets +onlyGivenNames x; refine (fun (hx : FieldKept n s0 x.2) => ?_) (?_ : FieldKept n s0 x.2) <;> [clear_value x; subst x])
    | (extract_lets +onlyGivenNames x; clear_value x)
    | with_reducible apply FieldKept.ite
    | split
    | with_reducible apply sendWrite_fld
    | with_reducible apply modBx_fld
    | with_reducible apply FieldKept.foldl
    | with_reducible apply FieldKept.foldl_snd
    | with_reducible apply FieldKept.foldl_fst
    | refine FieldKept.snd (by with_reducible assumption) ?_
    | (with_reducible apply FieldKept.upd; first | with_reducible assumption | with_reducible apply sendWrite_fld | with_reducible apply modBx_fld | with_reducible apply FieldKept.foldl | with_reducible apply FieldKept.foldl_snd | with_reducible apply FieldKept.foldl_fst | refine FieldKept.snd (by with_reducible assumption) ?_)

theorem shardOut_fld (b : Nat) (data : Bool) (s : State)
    (hn : [9, 10, 11, 446, 447, 448, 449, 456, 461].contains n = false)
    (h : FieldKept n s0 s) : FieldKept n s0 (shardOut b data s) := by
  unfold shardOut
  repeat' first
    | with_reducible assumption
    | (exact sub_ne _ _ (by decide) hn)
    | (intro e; subst e; exact absurd hn (by decide))
    | with_reducible apply FieldKept.ite
    | split
    | with_reducible apply sendShard_fld

theorem settleShards_fld (b : Nat) (s : State) (hn : [9, 10, 11, 446, 447, 448, 449, 456, 461].contains n = false)
    (h : FieldKept n s0 s) : FieldKept n s0 (settleShards b s) := by
  unfold settleShards
  repeat' first
    | with_reducible assumption
    | (exact sub_ne _ _ (by decide) hn)
    | (intro e; subst e; exact absurd hn (by decide))
    | (intro x; beta_reduce)
    | (extract_lets +onlyGivenNames x; refine (fun (hx : FieldKept n s0 x) => ?_) (?_ : FieldKept n s0 x) <;> [clear_value x; subst x])
    | (extract_lets +onlyGivenNames x; refine (fun (hx : FieldKept n s0 x.2) => ?_) (?_ : FieldKept n s0 x.2) <;> [clear_value x; subst x])
    | (extract_lets +onlyGivenNames x; clear_value x)
    | with_reducible apply FieldKept.ite
    | split
    | with_reducible apply sendReliable_fld
    | with_reducible apply modBx_fld
    | with_reducible apply sendShard_fld
    | with_reducible apply FieldKept.foldl
    | with_reducible apply FieldKept.foldl_snd
    | with_reducible apply FieldKept.foldl_fst
    | refine FieldKept.snd (by with_reducible assumption) ?_
    | (with_reducible apply FieldKept.upd; first | with_reducible assumption | with_reducible apply sendReliable_fld | with_reducible apply modBx_fld | with_reducible apply sendShard_fld | with_reducible apply FieldKept.foldl | with_reducible apply FieldKept.foldl_snd | with_reducible apply FieldKept.foldl_fst | refine FieldKept.snd (by with_reducible assumption) ?_)

theorem reducedToken_fld {m : Nat} (b n : Nat) (veto : Bool) (s : State)
    (hn : [9, 10, 11, 196, 197, 198, 204, 205, 682, 686, 688, 689].contains m = false)
    (h : FieldKept m s0 s) : FieldKept m s0 (reducedToken b n veto s) := by
  unfold reducedToken
  repeat' first
    | with_reducible assumption
    | (exact sub_ne _ _ (by decide) hn)
    | (intro e; subst e; exact absurd hn (by decide))
    | with_reducible apply portToken_fld

theorem vetoBucket_fld (b cause rank : Nat) (again : Bool) (s : State)
    (hn : [9, 10, 11, 196, 197, 198, 204, 205, 265, 266, 267, 292, 295, 307, 446, 447, 448, 449, 456, 461, 682, 686, 688,
    689].contains n = false) (h : FieldKept n s0 s) : FieldKept n s0 (vetoBucket b cause rank again s) := by
  unfold vetoBucket
  repeat' first
    | with_reducible assumption
    | (exact sub_ne _ _ (by decide) hn)
    | (intro e; subst e; exact absurd hn (by decide))
    | (intro x; beta_reduce)
    | (extract_lets +onlyGivenNames x; refine (fun (hx : FieldKept n s0 x) => ?_) (?_ : FieldKept n s0 x) <;> [clear_value x; subst x])
    | (extract_lets +onlyGivenNames x; clear_value x)
    | with_reducible apply FieldKept.ite
    | split
    | with_reducible apply modBx_fld
    | with_reducible apply exchangeLog_fld
    | with_reducible apply sat_fld
    | with_reducible apply sendNotice_fld
    | with_reducible apply announce_fld
    | with_reducible apply shardOut_fld
    | with_reducible apply reducedToken_fld
    | (with_reducible apply FieldKept.upd; first | with_reducible assumption | with_reducible apply modBx_fld | with_reducible apply exchangeLog_fld | with_reducible apply sat_fld | with_reducible apply sendNotice_fld | with_reducible apply announce_fld | with_reducible apply shardOut_fld | with_reducible apply reducedToken_fld)

theorem ordAdd_fld (b : Nat) (vs : List (Nat × Nat)) (s : State) (hn : [9, 10, 11, 286, 296].contains n = false)
    (h : FieldKept n s0 s) : FieldKept n s0 (ordAdd b vs s) := by
  unfold ordAdd
  repeat' first
    | with_reducible assumption
    | (exact sub_ne _ _ (by decide) hn)
    | (intro e; subst e; exact absurd hn (by decide))
    | (intro x; beta_reduce)
    | (extract_lets +onlyGivenNames x; refine (fun (hx : FieldKept n s0 x) => ?_) (?_ : FieldKept n s0 x) <;> [clear_value x; subst x])
    | (extract_lets +onlyGivenNames x; refine (fun (hx : FieldKept n s0 x.2) => ?_) (?_ : FieldKept n s0 x.2) <;> [clear_value x; subst x])
    | (extract_lets +onlyGivenNames x; clear_value x)
    | with_reducible apply accCount_fld
    | with_reducible apply writeBytes_fld
    | with_reducible apply FieldKept.foldl
    | with_reducible apply FieldKept.foldl_snd
    | with_reducible apply FieldKept.foldl_fst

theorem ordAbsorb_fld (b : Nat) (ps : List OrdPull) (s : State) (hn : [9, 10, 11, 286, 296].contains n = false) (h : FieldKept n s0 s) :
    FieldKept n s0 (ordAbsorb b ps s).2 := by
  induction ps generalizing s with
  | nil => exact h
  | cons p ps ih =>
    unfold ordAbsorb
    split
    · exact ih _ (ordAdd_fld _ _ _ (sub_ne _ _ (by decide) hn) h)
    · exact h

theorem issuePull_fld (b : Nat) (p : OrdPull) (s : State)
    (hn : [9, 10, 11, 446, 447, 448, 449, 456, 461].contains n = false)
    (h : FieldKept n s0 s) : FieldKept n s0 (issuePull b p s).2 := by
  unfold issuePull
  repeat' first
    | with_reducible assumption
    | (exact sub_ne _ _ (by decide) hn)
    | (intro e; subst e; exact absurd hn (by decide))
    | with_reducible apply FieldKept.ite
    | split
    | with_reducible apply noteServed_fld
    | with_reducible apply sendOp_fld
    | refine FieldKept.snd (by with_reducible assumption) ?_
    | (with_reducible apply FieldKept.upd; first | with_reducible assumption | with_reducible apply noteServed_fld | with_reducible apply sendOp_fld | refine FieldKept.snd (by with_reducible assumption) ?_)

theorem ordPump_fld (b k : Nat) (s : State) (hn : [9, 10, 11, 286, 296, 446, 447, 448, 449, 456, 461].contains n = false) (h : FieldKept n s0 s) :
    FieldKept n s0 (ordPump b k s) := by
  induction k generalizing s with
  | zero => exact h
  | succ k ih =>
    unfold ordPump
    repeat' first
      | with_reducible assumption
      | (exact sub_ne _ _ (by decide) hn)
      | (extract_lets +onlyGivenNames x; refine (fun (hx : FieldKept n s0 x) => ?_) (?_ : FieldKept n s0 x) <;> [clear_value x; subst x])
      | split
      | with_reducible apply ih
      | with_reducible apply modBx_fld
      | with_reducible apply ordAbsorb_fld
      | with_reducible apply issuePull_fld
      | refine FieldKept.snd (by with_reducible assumption) ?_

theorem ordGo_fld (b : Nat) (s : State)
    (hn : [9, 10, 11, 286, 296, 446, 447, 448, 449, 456, 461].contains n = false)
    (h : FieldKept n s0 s) : FieldKept n s0 (ordGo b s) := by
  unfold ordGo
  repeat' first
    | with_reducible assumption
    | (exact sub_ne _ _ (by decide) hn)
    | (intro e; subst e; exact absurd hn (by decide))
    | (intro x; beta_reduce)
    | (extract_lets +onlyGivenNames x; refine (fun (hx : FieldKept n s0 x) => ?_) (?_ : FieldKept n s0 x) <;> [clear_value x; subst x])
    | (extract_lets +onlyGivenNames x; refine (fun (hx : FieldKept n s0 x.2) => ?_) (?_ : FieldKept n s0 x.2) <;> [clear_value x; subst x])
    | (extract_lets +onlyGivenNames x; clear_value x)
    | with_reducible apply FieldKept.ite
    | split
    | with_reducible apply ordPump_fld
    | with_reducible apply ordAbsorb_fld
    | with_reducible apply modBx_fld
    | refine FieldKept.snd (by with_reducible assumption) ?_
    | (with_reducible apply FieldKept.upd; first | with_reducible assumption | with_reducible apply ordPump_fld | with_reducible apply ordAbsorb_fld | with_reducible apply modBx_fld | refine FieldKept.snd (by with_reducible assumption) ?_)

theorem ordStart_fld (b : Nat) (s : State)
    (hn : [9, 10, 11, 286, 296, 446, 447, 448, 449, 456, 461].contains n = false)
    (h : FieldKept n s0 s) : FieldKept n s0 (ordStart b s) := by
  unfold ordStart
  repeat' first
    | with_reducible assumption
    | (exact sub_ne _ _ (by decide) hn)
    | (intro e; subst e; exact absurd hn (by decide))
    | (intro x; beta_reduce)
    | (extract_lets +onlyGivenNames x; refine (fun (hx : FieldKept n s0 x) => ?_) (?_ : FieldKept n s0 x) <;> [clear_value x; subst x])
    | (extract_lets +onlyGivenNames x; clear_value x)
    | with_reducible apply ordGo_fld
    | with_reducible apply modBx_fld
    | with_reducible apply zeroAcc_fld
    | (with_reducible apply FieldKept.upd; first | with_reducible assumption | with_reducible apply ordGo_fld | with_reducible apply modBx_fld | with_reducible apply zeroAcc_fld)

theorem closeOn_fld (b : Nat) (s : State)
    (hn : [9, 10, 11, 196, 197, 198, 204, 205, 265, 266, 267, 269, 286, 291, 292, 295, 296, 307, 446, 447, 448, 449, 456,
    461, 682, 686, 688, 689].contains n = false) (h : FieldKept n s0 s) : FieldKept n s0 (closeOn b s) := by
  unfold closeOn
  repeat' first
    | with_reducible assumption
    | (exact sub_ne _ _ (by decide) hn)
    | (intro e; subst e; exact absurd hn (by decide))
    | (intro x; beta_reduce)
    | (extract_lets +onlyGivenNames x; refine (fun (hx : FieldKept n s0 x) => ?_) (?_ : FieldKept n s0 x) <;> [clear_value x; subst x])
    | (extract_lets +onlyGivenNames x; clear_value x)
    | with_reducible apply FieldKept.ite
    | split
    | with_reducible apply vetoBucket_fld
    | with_reducible apply ordStart_fld
    | with_reducible apply announce_fld
    | with_reducible apply modBx_fld
    | with_reducible apply setb_fld
    | with_reducible apply sat_fld
    | (with_reducible apply FieldKept.upd; first | with_reducible assumption | with_reducible apply vetoBucket_fld | with_reducible apply ordStart_fld | with_reducible apply announce_fld | with_reducible apply modBx_fld | with_reducible apply setb_fld | with_reducible apply sat_fld)

theorem pullFirst_fld (b rank : Nat) (s : State) (hn : [9, 10, 11, 446, 447, 448, 449, 456, 461].contains n = false)
    (h : FieldKept n s0 s) : FieldKept n s0 (pullFirst b rank s) := by
  unfold pullFirst
  repeat' first
    | with_reducible assumption
    | (exact sub_ne _ _ (by decide) hn)
    | (intro e; subst e; exact absurd hn (by decide))
    | (intro x; beta_reduce)
    | with_reducible apply sendOp_fld
    | with_reducible apply FieldKept.foldl
    | with_reducible apply FieldKept.foldl_snd
    | with_reducible apply FieldKept.foldl_fst
    | refine FieldKept.snd (by with_reducible assumption) ?_

theorem dropRank_fld (b rank : Nat) (s : State) (hn : [9, 10, 11, 293, 682, 689].contains n = false)
    (h : FieldKept n s0 s) : FieldKept n s0 (dropRank b rank s) := by
  unfold dropRank
  repeat' first
    | with_reducible assumption
    | (exact sub_ne _ _ (by decide) hn)
    | (intro e; subst e; exact absurd hn (by decide))
    | (extract_lets +onlyGivenNames x; refine (fun (hx : FieldKept n s0 x) => ?_) (?_ : FieldKept n s0 x) <;> [clear_value x; subst x])
    | (extract_lets +onlyGivenNames x; clear_value x)
    | with_reducible apply setIncluded_fld
    | with_reducible apply exchangeLog_fld
    | with_reducible apply sat_fld

theorem judgeBucket_fld (b : Nat) (s : State)
    (hn : [9, 10, 11, 196, 197, 198, 204, 205, 265, 266, 267, 269, 286, 291, 292, 293, 295, 296, 307, 446, 447, 448, 449,
    456, 461, 682, 686, 688, 689].contains n = false) (h : FieldKept n s0 s) : FieldKept n s0 (judgeBucket b s) := by
  unfold judgeBucket
  repeat' first
    | with_reducible assumption
    | (exact sub_ne _ _ (by decide) hn)
    | (intro e; subst e; exact absurd hn (by decide))
    | (intro x; beta_reduce)
    | (extract_lets +onlyGivenNames x; refine (fun (hx : FieldKept n s0 x) => ?_) (?_ : FieldKept n s0 x) <;> [clear_value x; subst x])
    | (extract_lets +onlyGivenNames x; refine (fun (hx : FieldKept n s0 x.2) => ?_) (?_ : FieldKept n s0 x.2) <;> [clear_value x; subst x])
    | (extract_lets +onlyGivenNames x; clear_value x)
    | with_reducible apply FieldKept.ite
    | split
    | with_reducible apply closeOn_fld
    | with_reducible apply vetoBucket_fld
    | with_reducible apply dropRank_fld
    | with_reducible apply accumulate_fld
    | with_reducible apply modBx_fld
    | with_reducible apply pullFirst_fld
    | with_reducible apply FieldKept.foldl
    | with_reducible apply FieldKept.foldl_snd
    | with_reducible apply FieldKept.foldl_fst
    | (with_reducible apply FieldKept.upd; first | with_reducible assumption | with_reducible apply closeOn_fld | with_reducible apply vetoBucket_fld | with_reducible apply dropRank_fld | with_reducible apply accumulate_fld | with_reducible apply modBx_fld | with_reducible apply pullFirst_fld | with_reducible apply FieldKept.foldl | with_reducible apply FieldKept.foldl_snd | with_reducible apply FieldKept.foldl_fst)

theorem noteEnd_fld (x : XOp) (s : State) (n : Nat) (h : FieldKept n s0 s) : FieldKept n s0 (noteEnd x s) := by
  unfold noteEnd
  repeat' first
    | with_reducible assumption
    | (intro x; beta_reduce)
    | with_reducible apply FieldKept.ite
    | split
    | with_reducible apply modBx_fld
    | (with_reducible apply FieldKept.upd; first | with_reducible assumption | with_reducible apply modBx_fld)

theorem rebuild_fld (b : Nat) (ranks gone : List Nat) (pull : Bool) (s : State)
    (hn : [9, 10, 11, 196, 197, 198, 204, 205, 265, 266, 267, 269, 286, 291, 292, 293, 294, 295, 296, 307, 446, 447, 448,
    449, 456, 461, 682, 686, 688, 689].contains n = false)
    (h : FieldKept n s0 s) : FieldKept n s0 (rebuild b ranks gone pull s) := by
  unfold rebuild
  repeat' first
    | with_reducible assumption
    | (exact sub_ne _ _ (by decide) hn)
    | (intro e; subst e; exact absurd hn (by decide))
    | (intro x; beta_reduce)
    | (extract_lets +onlyGivenNames x; refine (fun (hx : FieldKept n s0 x) => ?_) (?_ : FieldKept n s0 x) <;> [clear_value x; subst x])
    | (extract_lets +onlyGivenNames x; refine (fun (hx : FieldKept n s0 x.2) => ?_) (?_ : FieldKept n s0 x.2) <;> [clear_value x; subst x])
    | (extract_lets +onlyGivenNames x; clear_value x)
    | with_reducible apply FieldKept.ite
    | split
    | with_reducible apply exchangeLog_fld
    | with_reducible apply sat_fld
    | with_reducible apply setIncluded_fld
    | with_reducible apply modBx_fld
    | with_reducible apply zeroAcc_fld
    | with_reducible apply noteEnd_fld
    | with_reducible apply accumulate_fld
    | with_reducible apply pullFirst_fld
    | with_reducible apply judgeBucket_fld
    | with_reducible apply FieldKept.foldl
    | with_reducible apply FieldKept.foldl_snd
    | with_reducible apply FieldKept.foldl_fst
    | (with_reducible apply FieldKept.upd; first | with_reducible assumption | with_reducible apply exchangeLog_fld | with_reducible apply sat_fld | with_reducible apply setIncluded_fld | with_reducible apply modBx_fld | with_reducible apply zeroAcc_fld | with_reducible apply noteEnd_fld | with_reducible apply accumulate_fld | with_reducible apply pullFirst_fld | with_reducible apply judgeBucket_fld | with_reducible apply FieldKept.foldl | with_reducible apply FieldKept.foldl_snd | with_reducible apply FieldKept.foldl_fst)

theorem mendPulls_fld (b : Nat) (s : State)
    (hn : [9, 10, 11, 196, 197, 198, 204, 205, 265, 266, 267, 269, 286, 291, 292, 293, 294, 295, 296, 307, 446, 447, 448,
    449, 456, 461, 682, 686, 688, 689].contains n = false) (h : FieldKept n s0 s) : FieldKept n s0 (mendPulls b s) := by
  unfold mendPulls
  repeat' first
    | with_reducible assumption
    | (exact sub_ne _ _ (by decide) hn)
    | (intro e; subst e; exact absurd hn (by decide))
    | (extract_lets +onlyGivenNames x; refine (fun (hx : FieldKept n s0 x) => ?_) (?_ : FieldKept n s0 x) <;> [clear_value x; subst x])
    | (extract_lets +onlyGivenNames x; clear_value x)
    | with_reducible apply FieldKept.ite
    | split
    | with_reducible apply rebuild_fld

theorem closeBucket_fld (b : Nat) (s : State)
    (hn : [9, 10, 11, 196, 197, 198, 204, 205, 265, 266, 267, 268, 269, 286, 287, 288, 291, 292, 293, 294, 295, 296, 307,
    446, 447, 448, 449, 456, 461, 682, 686, 688, 689].contains n = false)
    (h : FieldKept n s0 s) : FieldKept n s0 (closeBucket b s) := by
  unfold closeBucket
  repeat' first
    | with_reducible assumption
    | (exact sub_ne _ _ (by decide) hn)
    | (intro e; subst e; exact absurd hn (by decide))
    | (intro x; beta_reduce)
    | (extract_lets +onlyGivenNames x; refine (fun (hx : FieldKept n s0 x) => ?_) (?_ : FieldKept n s0 x) <;> [clear_value x; subst x])
    | (extract_lets +onlyGivenNames x; clear_value x)
    | with_reducible apply FieldKept.ite
    | split
    | with_reducible apply setIncluded_fld
    | with_reducible apply modBx_fld
    | with_reducible apply sat_fld
    | with_reducible apply exchangeLog_fld
    | with_reducible apply setb_fld
    | with_reducible apply mendPulls_fld
    | with_reducible apply judgeBucket_fld
    | (with_reducible apply FieldKept.upd; first | with_reducible assumption | with_reducible apply setIncluded_fld | with_reducible apply modBx_fld | with_reducible apply sat_fld | with_reducible apply exchangeLog_fld | with_reducible apply setb_fld | with_reducible apply mendPulls_fld | with_reducible apply judgeBucket_fld)

theorem tryClose_fld (b : Nat) (s : State)
    (hn : [9, 10, 11, 196, 197, 198, 204, 205, 265, 266, 267, 268, 269, 286, 287, 288, 291, 292, 293, 294, 295, 296, 307,
    446, 447, 448, 449, 456, 461, 682, 686, 688, 689].contains n = false)
    (h : FieldKept n s0 s) : FieldKept n s0 (tryClose b s) := by
  unfold tryClose
  repeat' first
    | with_reducible assumption
    | (exact sub_ne _ _ (by decide) hn)
    | (intro e; subst e; exact absurd hn (by decide))
    | (extract_lets +onlyGivenNames x; refine (fun (hx : FieldKept n s0 x) => ?_) (?_ : FieldKept n s0 x) <;> [clear_value x; subst x])
    | (extract_lets +onlyGivenNames x; clear_value x)
    | with_reducible apply FieldKept.ite
    | split
    | with_reducible apply closeBucket_fld

theorem bucketDeadline_fld (b : Nat) (s : State)
    (hn : [9, 10, 11, 196, 197, 198, 204, 205, 265, 266, 267, 268, 269, 286, 287, 288, 291, 292, 293, 294, 295, 296, 307,
    446, 447, 448, 449, 456, 461, 682, 686, 688, 689].contains n = false)
    (h : FieldKept n s0 s) : FieldKept n s0 (bucketDeadline b s) := by
  unfold bucketDeadline
  repeat' first
    | with_reducible assumption
    | (exact sub_ne _ _ (by decide) hn)
    | (intro e; subst e; exact absurd hn (by decide))
    | (extract_lets +onlyGivenNames x; refine (fun (hx : FieldKept n s0 x) => ?_) (?_ : FieldKept n s0 x) <;> [clear_value x; subst x])
    | (extract_lets +onlyGivenNames x; refine (fun (hx : FieldKept n s0 x.2) => ?_) (?_ : FieldKept n s0 x.2) <;> [clear_value x; subst x])
    | (extract_lets +onlyGivenNames x; clear_value x)
    | with_reducible apply FieldKept.ite
    | split
    | with_reducible apply tryClose_fld
    | with_reducible apply advanceTo_fld

theorem sendReply_fld (rank code : Nat) (x : XOp) (s : State)
    (hn : [9, 10, 11, 446, 447, 448, 449, 456, 461].contains n = false)
    (h : FieldKept n s0 s) : FieldKept n s0 (sendReply rank code x s) := by
  unfold sendReply
  repeat' first
    | with_reducible assumption
    | (exact sub_ne _ _ (by decide) hn)
    | (intro e; subst e; exact absurd hn (by decide))
    | with_reducible apply FieldKept.ite
    | split
    | with_reducible apply onReply_fld
    | with_reducible apply sendOp_fld
    | refine FieldKept.snd (by with_reducible assumption) ?_

theorem lateOp_fld (x : XOp) (s : State) (hn : [9, 10, 11, 289, 446, 447, 448, 449, 456, 461].contains n = false)
    (h : FieldKept n s0 s) : FieldKept n s0 (lateOp x s) := by
  unfold lateOp
  repeat' first
    | with_reducible assumption
    | (exact sub_ne _ _ (by decide) hn)
    | (intro e; subst e; exact absurd hn (by decide))
    | with_reducible apply sendReply_fld
    | with_reducible apply sat_fld

theorem takeResend_fld (x : XOp) (s : State)
    (hn : [9, 10, 11, 196, 197, 198, 204, 205, 265, 266, 267, 269, 286, 291, 292, 293, 294, 295, 296, 307, 446, 447, 448,
    449, 456, 461, 682, 686, 688, 689].contains n = false) (h : FieldKept n s0 s) : FieldKept n s0 (takeResend x s) := by
  unfold takeResend
  repeat' first
    | with_reducible assumption
    | (exact sub_ne _ _ (by decide) hn)
    | (intro e; subst e; exact absurd hn (by decide))
    | (intro x; beta_reduce)
    | (extract_lets +onlyGivenNames x; refine (fun (hx : FieldKept n s0 x) => ?_) (?_ : FieldKept n s0 x) <;> [clear_value x; subst x])
    | (extract_lets +onlyGivenNames x; clear_value x)
    | with_reducible apply FieldKept.ite
    | split
    | with_reducible apply modBx_fld
    | with_reducible apply noteTaken_fld
    | with_reducible apply noteEnd_fld
    | with_reducible apply dropRank_fld
    | with_reducible apply mendPulls_fld
    | with_reducible apply closeOn_fld
    | with_reducible apply judgeBucket_fld
    | with_reducible apply addOnce_fld
    | (with_reducible apply FieldKept.upd; first | with_reducible assumption | with_reducible apply modBx_fld | with_reducible apply noteTaken_fld | with_reducible apply noteEnd_fld | with_reducible apply dropRank_fld | with_reducible apply mendPulls_fld | with_reducible apply closeOn_fld | with_reducible apply judgeBucket_fld | with_reducible apply addOnce_fld)

theorem beginBucket_fld (b stamp rank : Nat) (s : State) (n : Nat)
    (h : FieldKept n s0 s) : FieldKept n s0 (beginBucket b stamp rank s) := by
  unfold beginBucket
  repeat' first
    | with_reducible assumption
    | (extract_lets +onlyGivenNames x; refine (fun (hx : FieldKept n s0 x) => ?_) (?_ : FieldKept n s0 x) <;> [clear_value x; subst x])
    | (extract_lets +onlyGivenNames x; clear_value x)
    | with_reducible apply FieldKept.ite
    | split
    | with_reducible apply setBx_fld
    | (with_reducible apply FieldKept.upd; first | with_reducible assumption | with_reducible apply setBx_fld)

theorem ownerTake_fld (x : XOp) (stamp : Nat) (s : State)
    (hn : [9, 10, 11, 196, 197, 198, 204, 205, 265, 266, 267, 268, 269, 286, 287, 288, 289, 291, 292, 293, 294, 295, 296,
    307, 446, 447, 448, 449, 456, 461, 682, 686, 688, 689].contains n = false)
    (h : FieldKept n s0 s) : FieldKept n s0 (ownerTake x stamp s) := by
  unfold ownerTake
  repeat' first
    | with_reducible assumption
    | (exact sub_ne _ _ (by decide) hn)
    | (intro e; subst e; exact absurd hn (by decide))
    | (intro x; beta_reduce)
    | (extract_lets +onlyGivenNames x; refine (fun (hx : FieldKept n s0 x) => ?_) (?_ : FieldKept n s0 x) <;> [clear_value x; subst x])
    | (extract_lets +onlyGivenNames x; clear_value x)
    | with_reducible apply FieldKept.ite
    | split
    | with_reducible apply sendReply_fld
    | with_reducible apply takeResend_fld
    | with_reducible apply lateOp_fld
    | with_reducible apply beginBucket_fld
    | with_reducible apply noteTaken_fld
    | with_reducible apply noteEnd_fld
    | with_reducible apply modBx_fld
    | with_reducible apply tryClose_fld
    | with_reducible apply addOnce_fld
    | (with_reducible apply FieldKept.upd; first | with_reducible assumption | with_reducible apply sendReply_fld | with_reducible apply takeResend_fld | with_reducible apply lateOp_fld | with_reducible apply beginBucket_fld | with_reducible apply noteTaken_fld | with_reducible apply noteEnd_fld | with_reducible apply modBx_fld | with_reducible apply tryClose_fld | with_reducible apply addOnce_fld)

theorem ordArrive_fld (id : Nat) (x : XOp) (s : State)
    (hn : [9, 10, 11, 286, 289, 296, 446, 447, 448, 449, 456, 461].contains n = false)
    (h : FieldKept n s0 s) : FieldKept n s0 (ordArrive id x s) := by
  unfold ordArrive
  repeat' first
    | with_reducible assumption
    | (exact sub_ne _ _ (by decide) hn)
    | (intro e; subst e; exact absurd hn (by decide))
    | (intro x; beta_reduce)
    | (extract_lets +onlyGivenNames x; refine (fun (hx : FieldKept n s0 x) => ?_) (?_ : FieldKept n s0 x) <;> [clear_value x; subst x])
    | (extract_lets +onlyGivenNames x; clear_value x)
    | with_reducible apply FieldKept.ite
    | split
    | with_reducible apply sendReply_fld
    | with_reducible apply lateOp_fld
    | with_reducible apply ordGo_fld
    | with_reducible apply modBx_fld
    | (with_reducible apply FieldKept.upd; first | with_reducible assumption | with_reducible apply sendReply_fld | with_reducible apply lateOp_fld | with_reducible apply ordGo_fld | with_reducible apply modBx_fld)

theorem ownPulls_fld (b : Nat) (s : State)
    (hn : [9, 10, 11, 286, 296, 446, 447, 448, 449, 456, 461].contains n = false)
    (h : FieldKept n s0 s) : FieldKept n s0 (ownPulls b s) := by
  unfold ownPulls
  repeat' first
    | with_reducible assumption
    | (exact sub_ne _ _ (by decide) hn)
    | (intro e; subst e; exact absurd hn (by decide))
    | (intro x; beta_reduce)
    | (extract_lets +onlyGivenNames x; refine (fun (hx : FieldKept n s0 x) => ?_) (?_ : FieldKept n s0 x) <;> [clear_value x; subst x])
    | (extract_lets +onlyGivenNames x; refine (fun (hx : FieldKept n s0 x.2) => ?_) (?_ : FieldKept n s0 x.2) <;> [clear_value x; subst x])
    | (extract_lets +onlyGivenNames x; clear_value x)
    | with_reducible apply FieldKept.ite
    | split
    | with_reducible apply modBx_fld
    | with_reducible apply ordGo_fld
    | with_reducible apply noteServed_fld
    | with_reducible apply FieldKept.foldl
    | with_reducible apply FieldKept.foldl_snd
    | with_reducible apply FieldKept.foldl_fst
    | (with_reducible apply FieldKept.upd; first | with_reducible assumption | with_reducible apply modBx_fld | with_reducible apply ordGo_fld | with_reducible apply noteServed_fld | with_reducible apply FieldKept.foldl | with_reducible apply FieldKept.foldl_snd | with_reducible apply FieldKept.foldl_fst)

theorem bucketTid_fld (b : Nat) (s : State) (n : Nat) (h : FieldKept n s0 s) : FieldKept n s0 (bucketTid b s).2 := by
  unfold bucketTid
  repeat' first
    | with_reducible assumption
    | with_reducible apply FieldKept.ite
    | split
    | with_reducible apply free_fld
    | refine FieldKept.snd (by with_reducible assumption) ?_

theorem repeatEntry_fld (b : Nat) (s : State) (hn : [9, 10, 11, 682, 689].contains n = false)
    (h : FieldKept n s0 s) : FieldKept n s0 (repeatEntry b s) := by
  unfold repeatEntry
  repeat' first
    | with_reducible assumption
    | (exact sub_ne _ _ (by decide) hn)
    | (intro e; subst e; exact absurd hn (by decide))
    | (extract_lets +onlyGivenNames x; refine (fun (hx : FieldKept n s0 x) => ?_) (?_ : FieldKept n s0 x) <;> [clear_value x; subst x])
    | (extract_lets +onlyGivenNames x; refine (fun (hx : FieldKept n s0 x.2) => ?_) (?_ : FieldKept n s0 x.2) <;> [clear_value x; subst x])
    | (extract_lets +onlyGivenNames x; clear_value x)
    | with_reducible apply FieldKept.ite
    | split
    | with_reducible apply bucketTid_fld
    | with_reducible apply logEntry_fld
    | refine FieldKept.snd (by with_reducible assumption) ?_

theorem bucketReduced_fld (b addr : Nat) (s : State)
    (hn : [9, 10, 11, 196, 197, 198, 204, 205, 265, 266, 267, 292, 295, 307, 446, 447, 448, 449, 456, 461, 670, 682, 685,
    686, 688, 689, 697, 698, 699, 703, 704, 705].contains n = false)
    (h : FieldKept n s0 s) : FieldKept n s0 (bucketReduced b addr s) := by
  unfold bucketReduced
  repeat' first
    | with_reducible assumption
    | (exact sub_ne _ _ (by decide) hn)
    | (intro e; subst e; exact absurd hn (by decide))
    | (intro x; beta_reduce)
    | (extract_lets +onlyGivenNames x; refine (fun (hx : FieldKept n s0 x) => ?_) (?_ : FieldKept n s0 x) <;> [clear_value x; subst x])
    | (extract_lets +onlyGivenNames x; refine (fun (hx : FieldKept n s0 x.2) => ?_) (?_ : FieldKept n s0 x.2) <;> [clear_value x; subst x])
    | (extract_lets +onlyGivenNames x; clear_value x)
    | with_reducible apply FieldKept.ite
    | split
    | with_reducible apply uncorrectable_fld
    | with_reducible apply writeBytes_fld
    | with_reducible apply repeatEntry_fld
    | with_reducible apply modBx_fld
    | with_reducible apply shardOut_fld
    | with_reducible apply reducedToken_fld
    | with_reducible apply sendNotice_fld
    | with_reducible apply vetoBucket_fld
    | (with_reducible apply FieldKept.upd; first | with_reducible assumption | with_reducible apply uncorrectable_fld | with_reducible apply writeBytes_fld | with_reducible apply repeatEntry_fld | with_reducible apply modBx_fld | with_reducible apply shardOut_fld | with_reducible apply reducedToken_fld | with_reducible apply sendNotice_fld | with_reducible apply vetoBucket_fld)

theorem servePulls_fld (s : State) (hn : [9, 10, 11, 446, 447, 448, 449, 456, 461].contains n = false)
    (h : FieldKept n s0 s) : FieldKept n s0 (servePulls s) := by
  unfold servePulls
  repeat' first
    | with_reducible assumption
    | (exact sub_ne _ _ (by decide) hn)
    | (intro e; subst e; exact absurd hn (by decide))
    | (intro x; beta_reduce)
    | (extract_lets +onlyGivenNames x; refine (fun (hx : FieldKept n s0 x) => ?_) (?_ : FieldKept n s0 x) <;> [clear_value x; subst x])
    | (extract_lets +onlyGivenNames x; refine (fun (hx : FieldKept n s0 x.2) => ?_) (?_ : FieldKept n s0 x.2) <;> [clear_value x; subst x])
    | (extract_lets +onlyGivenNames x; clear_value x)
    | with_reducible apply FieldKept.ite
    | split
    | with_reducible apply sendOp_fld
    | with_reducible apply noteServed_fld
    | with_reducible apply modJob_fld
    | with_reducible apply FieldKept.foldl
    | with_reducible apply FieldKept.foldl_snd
    | with_reducible apply FieldKept.foldl_fst
    | refine FieldKept.snd (by with_reducible assumption) ?_
    | (with_reducible apply FieldKept.upd; first | with_reducible assumption | with_reducible apply sendOp_fld | with_reducible apply noteServed_fld | with_reducible apply modJob_fld | with_reducible apply FieldKept.foldl | with_reducible apply FieldKept.foldl_snd | with_reducible apply FieldKept.foldl_fst | refine FieldKept.snd (by with_reducible assumption) ?_)

theorem onPull_fld (x : XOp) (s : State) (hn : [9, 10, 11, 446, 447, 448, 449, 456, 461].contains n = false)
    (h : FieldKept n s0 s) : FieldKept n s0 (onPull x s) := by
  unfold onPull
  repeat' first
    | with_reducible assumption
    | (exact sub_ne _ _ (by decide) hn)
    | (intro e; subst e; exact absurd hn (by decide))
    | (intro x; beta_reduce)
    | (extract_lets +onlyGivenNames x; refine (fun (hx : FieldKept n s0 x) => ?_) (?_ : FieldKept n s0 x) <;> [clear_value x; subst x])
    | (extract_lets +onlyGivenNames x; refine (fun (hx : FieldKept n s0 x.2) => ?_) (?_ : FieldKept n s0 x.2) <;> [clear_value x; subst x])
    | (extract_lets +onlyGivenNames x; clear_value x)
    | with_reducible apply FieldKept.ite
    | split
    | with_reducible apply servePulls_fld
    | with_reducible apply modJob_fld
    | with_reducible apply sendOp_fld
    | with_reducible apply FieldKept.foldl
    | with_reducible apply FieldKept.foldl_snd
    | with_reducible apply FieldKept.foldl_fst
    | refine FieldKept.snd (by with_reducible assumption) ?_
    | (with_reducible apply FieldKept.upd; first | with_reducible assumption | with_reducible apply servePulls_fld | with_reducible apply modJob_fld | with_reducible apply sendOp_fld | with_reducible apply FieldKept.foldl | with_reducible apply FieldKept.foldl_snd | with_reducible apply FieldKept.foldl_fst | refine FieldKept.snd (by with_reducible assumption) ?_)

theorem refreshCellar_fld (s : State) (hn : [387].contains n = false)
    (h : FieldKept n s0 s) : FieldKept n s0 (refreshCellar s) := by
  unfold refreshCellar
  repeat' first
    | with_reducible assumption
    | (exact sub_ne _ _ (by decide) hn)
    | (intro e; subst e; exact absurd hn (by decide))
    | with_reducible apply wr_fld

theorem startWalk_fld (b rank : Nat) (master : Bool) (s : State) (hn : [387].contains n = false)
    (h : FieldKept n s0 s) : FieldKept n s0 (startWalk b rank master s) := by
  unfold startWalk
  repeat' first
    | with_reducible assumption
    | (exact sub_ne _ _ (by decide) hn)
    | (intro e; subst e; exact absurd hn (by decide))
    | (intro x; beta_reduce)
    | (extract_lets +onlyGivenNames x; refine (fun (hx : FieldKept n s0 x) => ?_) (?_ : FieldKept n s0 x) <;> [clear_value x; subst x])
    | (extract_lets +onlyGivenNames x; clear_value x)
    | with_reducible apply refreshCellar_fld
    | with_reducible apply modJob_fld
    | (with_reducible apply FieldKept.upd; first | with_reducible assumption | with_reducible apply refreshCellar_fld | with_reducible apply modJob_fld)

theorem recellar_fld (b : Nat) (s : State) (hn : [387].contains n = false)
    (h : FieldKept n s0 s) : FieldKept n s0 (recellar b s) := by
  unfold recellar
  repeat' first
    | with_reducible assumption
    | (exact sub_ne _ _ (by decide) hn)
    | (intro e; subst e; exact absurd hn (by decide))
    | (intro x; beta_reduce)
    | (extract_lets +onlyGivenNames x; refine (fun (hx : FieldKept n s0 x) => ?_) (?_ : FieldKept n s0 x) <;> [clear_value x; subst x])
    | (extract_lets +onlyGivenNames x; refine (fun (hx : FieldKept n s0 x.2) => ?_) (?_ : FieldKept n s0 x.2) <;> [clear_value x; subst x])
    | (extract_lets +onlyGivenNames x; clear_value x)
    | with_reducible apply FieldKept.ite
    | split
    | with_reducible apply modBx_fld
    | with_reducible apply startWalk_fld
    | with_reducible apply refreshCellar_fld
    | (with_reducible apply FieldKept.upd; first | with_reducible assumption | with_reducible apply modBx_fld | with_reducible apply startWalk_fld | with_reducible apply refreshCellar_fld)

theorem zeroPages_fld (win p n : Nat) (s : State) (m : Nat)
    (h : FieldKept m s0 s) : FieldKept m s0 (zeroPages win p n s) := by
  unfold zeroPages
  repeat' first
    | with_reducible assumption
    | with_reducible apply storeMem_fld

theorem freshCellar_fld (b : Nat) (s : State) (n : Nat)
    (h : FieldKept n s0 s) : FieldKept n s0 (freshCellar b s) := by
  unfold freshCellar
  repeat' first
    | with_reducible assumption
    | (intro x; beta_reduce)
    | (extract_lets +onlyGivenNames x; refine (fun (hx : FieldKept n s0 x) => ?_) (?_ : FieldKept n s0 x) <;> [clear_value x; subst x])
    | (extract_lets +onlyGivenNames x; clear_value x)
    | with_reducible apply modBx_fld
    | with_reducible apply zeroPages_fld
    | (with_reducible apply FieldKept.upd; first | with_reducible assumption | with_reducible apply modBx_fld | with_reducible apply zeroPages_fld)

theorem cellarScan_fld (s : State) (n : Nat) (h : FieldKept n s0 s) : FieldKept n s0 (cellarScan s) := by
  unfold cellarScan
  repeat' first
    | with_reducible assumption
    | (intro x; beta_reduce)
    | (extract_lets +onlyGivenNames x; refine (fun (hx : FieldKept n s0 x) => ?_) (?_ : FieldKept n s0 x) <;> [clear_value x; subst x])
    | (extract_lets +onlyGivenNames x; refine (fun (hx : FieldKept n s0 x.2) => ?_) (?_ : FieldKept n s0 x.2) <;> [clear_value x; subst x])
    | (extract_lets +onlyGivenNames x; clear_value x)
    | with_reducible apply FieldKept.ite
    | split
    | with_reducible apply freshCellar_fld
    | with_reducible apply FieldKept.foldl
    | with_reducible apply FieldKept.foldl_snd
    | with_reducible apply FieldKept.foldl_fst
    | (with_reducible apply FieldKept.upd; first | with_reducible assumption | with_reducible apply freshCellar_fld | with_reducible apply FieldKept.foldl | with_reducible apply FieldKept.foldl_snd | with_reducible apply FieldKept.foldl_fst)

theorem cellarStruck_fld (s : State) (n : Nat) (h : FieldKept n s0 s) : FieldKept n s0 (cellarStruck s) := by
  unfold cellarStruck
  repeat' first
    | with_reducible assumption
    | with_reducible apply FieldKept.ite
    | split
    | with_reducible apply cellarScan_fld

theorem allocPages_fld (b : Nat) (s : State) (n : Nat) (h : FieldKept n s0 s) : FieldKept n s0 (allocPages b s) := by
  unfold allocPages
  repeat' first
    | with_reducible assumption
    | (intro x; beta_reduce)
    | (extract_lets +onlyGivenNames x; refine (fun (hx : FieldKept n s0 x) => ?_) (?_ : FieldKept n s0 x) <;> [clear_value x; subst x])
    | (extract_lets +onlyGivenNames x; refine (fun (hx : FieldKept n s0 x.2) => ?_) (?_ : FieldKept n s0 x.2) <;> [clear_value x; subst x])
    | (extract_lets +onlyGivenNames x; clear_value x)
    | with_reducible apply FieldKept.ite
    | split
    | with_reducible apply free_fld
    | with_reducible apply storeMem_fld
    | with_reducible apply modJob_fld
    | refine FieldKept.snd (by with_reducible assumption) ?_
    | (with_reducible apply FieldKept.upd; first | with_reducible assumption | with_reducible apply free_fld | with_reducible apply storeMem_fld | with_reducible apply modJob_fld | refine FieldKept.snd (by with_reducible assumption) ?_)

theorem newPartner_fld (b : Nat) (s : State) (n : Nat) (h : FieldKept n s0 s) : FieldKept n s0 (newPartner b s) := by
  unfold newPartner
  repeat' first
    | with_reducible assumption
    | (intro x; beta_reduce)
    | with_reducible apply freshCellar_fld
    | with_reducible apply allocPages_fld
    | with_reducible apply modBx_fld
    | (with_reducible apply FieldKept.upd; first | with_reducible assumption | with_reducible apply freshCellar_fld | with_reducible apply allocPages_fld | with_reducible apply modBx_fld)

theorem cellarsLoaded_fld (old s : State) (hn : [387].contains n = false)
    (h : FieldKept n s0 s) : FieldKept n s0 (cellarsLoaded old s) := by
  unfold cellarsLoaded
  repeat' first
    | with_reducible assumption
    | (exact sub_ne _ _ (by decide) hn)
    | (intro e; subst e; exact absurd hn (by decide))
    | (intro x; beta_reduce)
    | with_reducible apply FieldKept.ite
    | split
    | with_reducible apply newPartner_fld
    | with_reducible apply recellar_fld
    | with_reducible apply FieldKept.foldl
    | with_reducible apply FieldKept.foldl_snd
    | with_reducible apply FieldKept.foldl_fst

end Sys2Proof.Machine
end

