-- ==== Sys2Proof/Laws/FieldsCommit.lean ====
section
/-! SUPPORT. Which register fields the operations of Machine/Commit.lean may write: one lemma for each, which names the field numbers it can change. -/

set_option linter.unusedTactic false
set_option linter.unreachableTactic false
set_option linter.unusedVariables false

namespace Sys2Proof.Machine

open Sys2Proof

variable {n : Nat} {s0 : State}

theorem advanceFold_fld (old : State) (i : Nat) (s : State) (hn : [88, 129].contains n = false)
    (h : FieldKept n s0 s) : FieldKept n s0 (advanceFold old i s) := by
  unfold advanceFold
  repeat' first
    | with_reducible assumption
    | (exact sub_ne _ _ (by decide) hn)
    | (intro e; subst e; exact absurd hn (by decide))
    | (intro x; beta_reduce)
    | (extract_lets +onlyGivenNames x; refine (fun (hx : FieldKept n s0 x) => ?_) (?_ : FieldKept n s0 x) <;> [clear_value x; subst x])
    | (extract_lets +onlyGivenNames x; refine (fun (hx : FieldKept n s0 x.2) => ?_) (?_ : FieldKept n s0 x.2) <;> [clear_value x; subst x])
    | (extract_lets +onlyGivenNames x; clear_value x)
    | with_reducible apply FieldKept.ite
    | split
    | with_reducible apply wrA_fld
    | with_reducible apply setArrX_fld
    | with_reducible apply FieldKept.foldl
    | with_reducible apply FieldKept.foldl_snd
    | with_reducible apply FieldKept.foldl_fst
    | (with_reducible apply FieldKept.upd; first | with_reducible assumption | with_reducible apply wrA_fld | with_reducible apply setArrX_fld | with_reducible apply FieldKept.foldl | with_reducible apply FieldKept.foldl_snd | with_reducible apply FieldKept.foldl_fst)

theorem writeMirror_fld (dp : Nat × Nat) (s : State) (n : Nat)
    (h : FieldKept n s0 s) : FieldKept n s0 (writeMirror dp s) := by
  unfold writeMirror
  repeat' first
    | with_reducible assumption
    | (intro x; beta_reduce)
    | (extract_lets +onlyGivenNames x; refine (fun (hx : FieldKept n s0 x) => ?_) (?_ : FieldKept n s0 x) <;> [clear_value x; subst x])
    | (extract_lets +onlyGivenNames x; refine (fun (hx : FieldKept n s0 x.2) => ?_) (?_ : FieldKept n s0 x.2) <;> [clear_value x; subst x])
    | (extract_lets +onlyGivenNames x; clear_value x)
    | with_reducible apply FieldKept.ite
    | split
    | with_reducible apply store_fld
    | with_reducible apply FieldKept.foldl
    | with_reducible apply FieldKept.foldl_snd
    | with_reducible apply FieldKept.foldl_fst

theorem installGains_fld (dp : Nat × Nat) (s : State) (hn : [54, 55].contains n = false)
    (h : FieldKept n s0 s) : FieldKept n s0 (installGains dp s) := by
  unfold installGains
  repeat' first
    | with_reducible assumption
    | (exact sub_ne _ _ (by decide) hn)
    | (intro e; subst e; exact absurd hn (by decide))
    | (intro x; beta_reduce)
    | (extract_lets +onlyGivenNames x; refine (fun (hx : FieldKept n s0 x) => ?_) (?_ : FieldKept n s0 x) <;> [clear_value x; subst x])
    | (extract_lets +onlyGivenNames x; refine (fun (hx : FieldKept n s0 x.2) => ?_) (?_ : FieldKept n s0 x.2) <;> [clear_value x; subst x])
    | (extract_lets +onlyGivenNames x; clear_value x)
    | with_reducible apply FieldKept.ite
    | split
    | with_reducible apply wrA_fld
    | with_reducible apply modSweep_fld
    | with_reducible apply FieldKept.foldl
    | with_reducible apply FieldKept.foldl_snd
    | with_reducible apply FieldKept.foldl_fst
    | (with_reducible apply FieldKept.upd; first | with_reducible assumption | with_reducible apply wrA_fld | with_reducible apply modSweep_fld | with_reducible apply FieldKept.foldl | with_reducible apply FieldKept.foldl_snd | with_reducible apply FieldKept.foldl_fst)

theorem writeImage_fld (die p j : Nat) (s : State) (n : Nat)
    (h : FieldKept n s0 s) : FieldKept n s0 (writeImage die p j s) := by
  unfold writeImage
  repeat' first
    | with_reducible assumption
    | (extract_lets +onlyGivenNames x; refine (fun (hx : FieldKept n s0 x) => ?_) (?_ : FieldKept n s0 x) <;> [clear_value x; subst x])
    | (extract_lets +onlyGivenNames x; refine (fun (hx : FieldKept n s0 x.2) => ?_) (?_ : FieldKept n s0 x.2) <;> [clear_value x; subst x])
    | (extract_lets +onlyGivenNames x; clear_value x)
    | with_reducible apply FieldKept.ite
    | split
    | with_reducible apply storeMem_fld

theorem readmitColumn_fld (die p j : Nat) (s : State) (hn : [89, 91].contains n = false)
    (h : FieldKept n s0 s) : FieldKept n s0 (readmitColumn die p j s) := by
  unfold readmitColumn
  repeat' first
    | with_reducible assumption
    | (exact sub_ne _ _ (by decide) hn)
    | (intro e; subst e; exact absurd hn (by decide))
    | (extract_lets +onlyGivenNames x; refine (fun (hx : FieldKept n s0 x) => ?_) (?_ : FieldKept n s0 x) <;> [clear_value x; subst x])
    | (extract_lets +onlyGivenNames x; clear_value x)
    | with_reducible apply wrA_fld
    | with_reducible apply freePantry_fld
    | with_reducible apply writeImage_fld
    | with_reducible apply setArrX_fld
    | (with_reducible apply FieldKept.upd; first | with_reducible assumption | with_reducible apply wrA_fld | with_reducible apply freePantry_fld | with_reducible apply writeImage_fld | with_reducible apply setArrX_fld)

theorem retireArrays_fld (die : Nat) (old : State) (s : State) (n : Nat)
    (h : FieldKept n s0 s) : FieldKept n s0 (retireArrays die old s) := by
  unfold retireArrays
  repeat' first
    | with_reducible assumption
    | (intro x; beta_reduce)
    | (extract_lets +onlyGivenNames x; refine (fun (hx : FieldKept n s0 x) => ?_) (?_ : FieldKept n s0 x) <;> [clear_value x; subst x])
    | (extract_lets +onlyGivenNames x; refine (fun (hx : FieldKept n s0 x.2) => ?_) (?_ : FieldKept n s0 x.2) <;> [clear_value x; subst x])
    | (extract_lets +onlyGivenNames x; clear_value x)
    | with_reducible apply FieldKept.ite
    | split
    | with_reducible apply setArrX_fld
    | with_reducible apply FieldKept.foldl
    | with_reducible apply FieldKept.foldl_snd
    | with_reducible apply FieldKept.foldl_fst
    | (with_reducible apply FieldKept.upd; first | with_reducible assumption | with_reducible apply setArrX_fld | with_reducible apply FieldKept.foldl | with_reducible apply FieldKept.foldl_snd | with_reducible apply FieldKept.foldl_fst)

theorem changeFrame_fld (inst ap : Nat) (old s : State) (hn : [231, 232].contains n = false)
    (h : FieldKept n s0 s) : FieldKept n s0 (changeFrame inst ap old s) := by
  unfold changeFrame
  repeat' first
    | with_reducible assumption
    | (exact sub_ne _ _ (by decide) hn)
    | (intro e; subst e; exact absurd hn (by decide))
    | (extract_lets +onlyGivenNames x; refine (fun (hx : FieldKept n s0 x) => ?_) (?_ : FieldKept n s0 x) <;> [clear_value x; subst x])
    | (extract_lets +onlyGivenNames x; clear_value x)
    | with_reducible apply FieldKept.ite
    | split
    | (with_reducible apply FieldKept.upd; first | with_reducible assumption)

theorem detectorReset_fld (s : State) (hn : [9, 10, 339, 349].contains n = false)
    (h : FieldKept n s0 s) : FieldKept n s0 (detectorReset s) := by
  unfold detectorReset
  repeat' first
    | with_reducible assumption
    | (exact sub_ne _ _ (by decide) hn)
    | (intro e; subst e; exact absurd hn (by decide))
    | with_reducible apply wr_fld
    | with_reducible apply clearSatBit_fld

theorem clearRegs_fld (q : SeqId) (s : State) (hn : [214, 215, 216, 217, 218, 223].contains n = false)
    (h : FieldKept n s0 s) : FieldKept n s0 (clearRegs q s) := by
  unfold clearRegs
  repeat' first
    | with_reducible assumption
    | (exact sub_ne _ _ (by decide) hn)
    | (intro e; subst e; exact absurd hn (by decide))
    | (intro x; beta_reduce)
    | (extract_lets +onlyGivenNames x; refine (fun (hx : FieldKept n s0 x) => ?_) (?_ : FieldKept n s0 x) <;> [clear_value x; subst x])
    | (extract_lets +onlyGivenNames x; refine (fun (hx : FieldKept n s0 x.2) => ?_) (?_ : FieldKept n s0 x.2) <;> [clear_value x; subst x])
    | (extract_lets +onlyGivenNames x; clear_value x)
    | with_reducible apply setReg_fld
    | with_reducible apply wr_fld
    | with_reducible apply setb_fld
    | with_reducible apply FieldKept.foldl
    | with_reducible apply FieldKept.foldl_snd
    | with_reducible apply FieldKept.foldl_fst

theorem startSeq_fld (q : SeqId) (c : Nat) (s : State)
    (hn : [9, 10, 11, 194, 196, 197, 198, 204, 205, 209, 210, 213, 214, 215, 216, 217, 218, 221, 223, 682, 686, 688,
    689].contains n = false) (h : FieldKept n s0 s) : FieldKept n s0 (startSeq q c s) := by
  unfold startSeq
  repeat' first
    | with_reducible assumption
    | (exact sub_ne _ _ (by decide) hn)
    | (intro e; subst e; exact absurd hn (by decide))
    | (intro x; beta_reduce)
    | (extract_lets +onlyGivenNames x; refine (fun (hx : FieldKept n s0 x) => ?_) (?_ : FieldKept n s0 x) <;> [clear_value x; subst x])
    | (extract_lets +onlyGivenNames x; refine (fun (hx : FieldKept n s0 x.2) => ?_) (?_ : FieldKept n s0 x.2) <;> [clear_value x; subst x])
    | (extract_lets +onlyGivenNames x; clear_value x)
    | with_reducible apply FieldKept.ite
    | split
    | with_reducible apply guardFault_fld
    | with_reducible apply setSeqX_fld
    | with_reducible apply clearRegs_fld
    | with_reducible apply wr_fld
    | with_reducible apply settleHead_fld
    | with_reducible apply setb_fld
    | with_reducible apply setSeqState_fld
    | with_reducible apply FieldKept.foldl
    | with_reducible apply FieldKept.foldl_snd
    | with_reducible apply FieldKept.foldl_fst
    | (with_reducible apply FieldKept.upd; first | with_reducible assumption | with_reducible apply guardFault_fld | with_reducible apply setSeqX_fld | with_reducible apply clearRegs_fld | with_reducible apply wr_fld | with_reducible apply settleHead_fld | with_reducible apply setb_fld | with_reducible apply setSeqState_fld | with_reducible apply FieldKept.foldl | with_reducible apply FieldKept.foldl_snd | with_reducible apply FieldKept.foldl_fst)

theorem programStart_fld (qs : List SeqId) (s : State) (hn : [9, 10, 339, 349].contains n = false)
    (h : FieldKept n s0 s) : FieldKept n s0 (programStart qs s) := by
  unfold programStart
  repeat' first
    | with_reducible assumption
    | (exact sub_ne _ _ (by decide) hn)
    | (intro e; subst e; exact absurd hn (by decide))
    | (intro x; beta_reduce)
    | (extract_lets +onlyGivenNames x; refine (fun (hx : FieldKept n s0 x) => ?_) (?_ : FieldKept n s0 x) <;> [clear_value x; subst x])
    | (extract_lets +onlyGivenNames x; refine (fun (hx : FieldKept n s0 x.2) => ?_) (?_ : FieldKept n s0 x.2) <;> [clear_value x; subst x])
    | (extract_lets +onlyGivenNames x; clear_value x)
    | with_reducible apply setQueue_fld
    | with_reducible apply detectorReset_fld
    | with_reducible apply FieldKept.foldl
    | with_reducible apply FieldKept.foldl_snd
    | with_reducible apply FieldKept.foldl_fst
    | (with_reducible apply FieldKept.upd; first | with_reducible assumption | with_reducible apply setQueue_fld | with_reducible apply detectorReset_fld | with_reducible apply FieldKept.foldl | with_reducible apply FieldKept.foldl_snd | with_reducible apply FieldKept.foldl_fst)

theorem switchSeqs_fld (qs : List SeqId) (c : Nat) (s : State)
    (hn : [9, 10, 11, 194, 196, 197, 198, 204, 205, 209, 210, 213, 214, 215, 216, 217, 218, 221, 223, 339, 349, 682, 686,
    688, 689].contains n = false) (h : FieldKept n s0 s) : FieldKept n s0 (switchSeqs qs c s) := by
  unfold switchSeqs
  repeat' first
    | with_reducible assumption
    | (exact sub_ne _ _ (by decide) hn)
    | (intro e; subst e; exact absurd hn (by decide))
    | (intro x; beta_reduce)
    | (extract_lets +onlyGivenNames x; refine (fun (hx : FieldKept n s0 x) => ?_) (?_ : FieldKept n s0 x) <;> [clear_value x; subst x])
    | (extract_lets +onlyGivenNames x; refine (fun (hx : FieldKept n s0 x.2) => ?_) (?_ : FieldKept n s0 x.2) <;> [clear_value x; subst x])
    | (extract_lets +onlyGivenNames x; clear_value x)
    | with_reducible apply FieldKept.ite
    | split
    | with_reducible apply programStart_fld
    | with_reducible apply setSeqX_fld
    | with_reducible apply startSeq_fld
    | with_reducible apply FieldKept.foldl
    | with_reducible apply FieldKept.foldl_snd
    | with_reducible apply FieldKept.foldl_fst
    | (with_reducible apply FieldKept.upd; first | with_reducible assumption | with_reducible apply programStart_fld | with_reducible apply setSeqX_fld | with_reducible apply startSeq_fld | with_reducible apply FieldKept.foldl | with_reducible apply FieldKept.foldl_snd | with_reducible apply FieldKept.foldl_fst)

theorem unstage_fld (fs : List (FKey × Nat)) (s : State) (n : Nat)
    (h : FieldKept n s0 s) : FieldKept n s0 (unstage fs s) := by
  unfold unstage
  repeat' first
    | with_reducible assumption
    | (with_reducible apply FieldKept.upd; first | with_reducible assumption)

theorem setCommit_fld (st res : Nat) (s : State) (hn : [591, 592].contains n = false)
    (h : FieldKept n s0 s) : FieldKept n s0 (setCommit st res s) := by
  unfold setCommit
  repeat' first
    | with_reducible assumption
    | (exact sub_ne _ _ (by decide) hn)
    | (intro e; subst e; exact absurd hn (by decide))
    | with_reducible apply wr_fld

theorem claim_fld (a : Agent) (s : State) (hn : [596].contains n = false)
    (h : FieldKept n s0 s) : FieldKept n s0 (claim a s) := by
  unfold claim
  repeat' first
    | with_reducible assumption
    | (exact sub_ne _ _ (by decide) hn)
    | (intro e; subst e; exact absurd hn (by decide))
    | (extract_lets +onlyGivenNames x; refine (fun (hx : FieldKept n s0 x) => ?_) (?_ : FieldKept n s0 x) <;> [clear_value x; subst x])
    | (extract_lets +onlyGivenNames x; clear_value x)
    | with_reducible apply FieldKept.ite
    | split
    | with_reducible apply wr_fld
    | (with_reducible apply FieldKept.upd; first | with_reducible assumption | with_reducible apply wr_fld)

theorem releaseClaim_fld (a : Agent) (s : State) (hn : [596].contains n = false)
    (h : FieldKept n s0 s) : FieldKept n s0 (releaseClaim a s) := by
  unfold releaseClaim
  repeat' first
    | with_reducible assumption
    | (exact sub_ne _ _ (by decide) hn)
    | (intro e; subst e; exact absurd hn (by decide))
    | with_reducible apply FieldKept.ite
    | split
    | with_reducible apply wr_fld

theorem expireClaim_fld (s : State) (hn : [9, 10, 11, 596, 610].contains n = false)
    (h : FieldKept n s0 s) : FieldKept n s0 (expireClaim s) := by
  unfold expireClaim
  repeat' first
    | with_reducible assumption
    | (exact sub_ne _ _ (by decide) hn)
    | (intro e; subst e; exact absurd hn (by decide))
    | (extract_lets +onlyGivenNames x; refine (fun (hx : FieldKept n s0 x) => ?_) (?_ : FieldKept n s0 x) <;> [clear_value x; subst x])
    | (extract_lets +onlyGivenNames x; clear_value x)
    | with_reducible apply advanceTo_fld
    | with_reducible apply sat_fld
    | with_reducible apply wr_fld

theorem commitGo_fld (a : Agent) (when' : Nat) (s : State) (hn : [9, 10, 11, 591, 592, 608].contains n = false)
    (h : FieldKept n s0 s) : FieldKept n s0 (commitGo a when' s) := by
  unfold commitGo
  repeat' first
    | with_reducible assumption
    | (exact sub_ne _ _ (by decide) hn)
    | (intro e; subst e; exact absurd hn (by decide))
    | (extract_lets +onlyGivenNames x; refine (fun (hx : FieldKept n s0 x) => ?_) (?_ : FieldKept n s0 x) <;> [clear_value x; subst x])
    | (extract_lets +onlyGivenNames x; clear_value x)
    | with_reducible apply FieldKept.ite
    | split
    | with_reducible apply sat_fld
    | with_reducible apply wr_fld
    | with_reducible apply setCommit_fld
    | (with_reducible apply FieldKept.upd; first | with_reducible assumption | with_reducible apply sat_fld | with_reducible apply wr_fld | with_reducible apply setCommit_fld)

theorem discard_fld (s : State) (hn : [57, 591, 594].contains n = false)
    (h : FieldKept n s0 s) : FieldKept n s0 (discard s) := by
  unfold discard
  repeat' first
    | with_reducible assumption
    | (exact sub_ne _ _ (by decide) hn)
    | (intro e; subst e; exact absurd hn (by decide))
    | (intro x; beta_reduce)
    | (extract_lets +onlyGivenNames x; refine (fun (hx : FieldKept n s0 x) => ?_) (?_ : FieldKept n s0 x) <;> [clear_value x; subst x])
    | (extract_lets +onlyGivenNames x; refine (fun (hx : FieldKept n s0 x.2) => ?_) (?_ : FieldKept n s0 x.2) <;> [clear_value x; subst x])
    | (extract_lets +onlyGivenNames x; clear_value x)
    | with_reducible apply FieldKept.ite
    | split
    | with_reducible apply stagedGainWrite_fld
    | with_reducible apply wr_fld
    | with_reducible apply setb_fld
    | with_reducible apply FieldKept.foldl
    | with_reducible apply FieldKept.foldl_snd
    | with_reducible apply FieldKept.foldl_fst
    | (with_reducible apply FieldKept.upd; first | with_reducible assumption | with_reducible apply stagedGainWrite_fld | with_reducible apply wr_fld | with_reducible apply setb_fld | with_reducible apply FieldKept.foldl | with_reducible apply FieldKept.foldl_snd | with_reducible apply FieldKept.foldl_fst)

theorem failCommit_fld (r : Reject) (res : Nat) (s : State)
    (hn : [9, 10, 11, 591, 592, 593, 599, 607].contains n = false)
    (h : FieldKept n s0 s) : FieldKept n s0 (failCommit r res s) := by
  unfold failCommit
  repeat' first
    | with_reducible assumption
    | (exact sub_ne _ _ (by decide) hn)
    | (intro e; subst e; exact absurd hn (by decide))
    | (extract_lets +onlyGivenNames x; refine (fun (hx : FieldKept n s0 x) => ?_) (?_ : FieldKept n s0 x) <;> [clear_value x; subst x])
    | (extract_lets +onlyGivenNames x; clear_value x)
    | with_reducible apply setCommit_fld
    | with_reducible apply wr_fld
    | with_reducible apply sat_fld
    | with_reducible apply setb_fld
    | (with_reducible apply FieldKept.upd; first | with_reducible assumption | with_reducible apply setCommit_fld | with_reducible apply wr_fld | with_reducible apply sat_fld | with_reducible apply setb_fld)

theorem rejectView_fld (r : Reject) (s : State) (hn : [366, 378, 379].contains n = false)
    (h : FieldKept n s0 s) : FieldKept n s0 (rejectView r s) := by
  unfold rejectView
  repeat' first
    | with_reducible assumption
    | (exact sub_ne _ _ (by decide) hn)
    | (intro e; subst e; exact absurd hn (by decide))
    | with_reducible apply FieldKept.ite
    | split
    | with_reducible apply withdraw_fld
    | with_reducible apply setb_fld

theorem joinSet_fld (fs : List (FKey × Nat)) (s : State) (hn : [594].contains n = false)
    (h : FieldKept n s0 s) : FieldKept n s0 (joinSet fs s) := by
  unfold joinSet
  repeat' first
    | with_reducible assumption
    | (exact sub_ne _ _ (by decide) hn)
    | (intro e; subst e; exact absurd hn (by decide))
    | (extract_lets +onlyGivenNames x; refine (fun (hx : FieldKept n s0 x) => ?_) (?_ : FieldKept n s0 x) <;> [clear_value x; subst x])
    | (extract_lets +onlyGivenNames x; clear_value x)
    | with_reducible apply setb_fld
    | (with_reducible apply FieldKept.upd; first | with_reducible assumption | with_reducible apply setb_fld)

theorem noteApplied_fld (s : State) (hn : [9, 10, 11, 600, 601, 606].contains n = false)
    (h : FieldKept n s0 s) : FieldKept n s0 (noteApplied s) := by
  unfold noteApplied
  repeat' first
    | with_reducible assumption
    | (exact sub_ne _ _ (by decide) hn)
    | (intro e; subst e; exact absurd hn (by decide))
    | with_reducible apply sat_fld
    | with_reducible apply wr_fld

theorem endSet_fld (st res : Nat) (s : State) (hn : [591, 592, 594].contains n = false)
    (h : FieldKept n s0 s) : FieldKept n s0 (endSet st res s) := by
  unfold endSet
  repeat' first
    | with_reducible assumption
    | (exact sub_ne _ _ (by decide) hn)
    | (intro e; subst e; exact absurd hn (by decide))
    | (extract_lets +onlyGivenNames x; refine (fun (hx : FieldKept n s0 x) => ?_) (?_ : FieldKept n s0 x) <;> [clear_value x; subst x])
    | (extract_lets +onlyGivenNames x; clear_value x)
    | with_reducible apply FieldKept.ite
    | split
    | with_reducible apply setCommit_fld
    | with_reducible apply setb_fld
    | (with_reducible apply FieldKept.upd; first | with_reducible assumption | with_reducible apply setCommit_fld | with_reducible apply setb_fld)

theorem failSet_fld (r : Reject) (s : State) (hn : [9, 10, 11, 591, 592, 594, 595, 599, 607].contains n = false)
    (h : FieldKept n s0 s) : FieldKept n s0 (failSet r s) := by
  unfold failSet
  repeat' first
    | with_reducible assumption
    | (exact sub_ne _ _ (by decide) hn)
    | (intro e; subst e; exact absurd hn (by decide))
    | with_reducible apply endSet_fld
    | with_reducible apply setb_fld
    | with_reducible apply wr_fld
    | with_reducible apply sat_fld

end Sys2Proof.Machine
end

