-- ==== Sys2Proof/Laws/FieldsSend.lean ====
section
/-! SUPPORT. Which register fields the operations of Machine/Send.lean may write: one lemma for each, which names the field numbers it can change. -/

set_option linter.unusedTactic false
set_option linter.unreachableTactic false
set_option linter.unusedVariables false

namespace Sys2Proof.Machine

open Sys2Proof

variable {n : Nat} {s0 : State}

theorem toOwner_fld (x : XOp) (s : State)
    (hn : [9, 10, 11, 196, 197, 198, 204, 205, 265, 266, 267, 268, 269, 285, 286, 287, 288, 289, 290, 291, 292, 293, 294,
    295, 296, 299, 307, 446, 447, 448, 449, 456, 461, 682, 686, 688, 689].contains n = false)
    (h : FieldKept n s0 s) : FieldKept n s0 (toOwner x s) := by
  unfold toOwner
  repeat' first
    | with_reducible assumption
    | (exact sub_ne _ _ (by decide) hn)
    | (intro e; subst e; exact absurd hn (by decide))
    | (intro x; beta_reduce)
    | (extract_lets +onlyGivenNames x; refine (fun (hx : FieldKept n s0 x) => ?_) (?_ : FieldKept n s0 x) <;> [clear_value x; subst x])
    | (extract_lets +onlyGivenNames x; refine (fun (hx : FieldKept n s0 x.2) => ?_) (?_ : FieldKept n s0 x.2) <;> [clear_value x; subst x])
    | (extract_lets +onlyGivenNames x; clear_value x)
    | with_reducible apply FieldKept.ite
    | split
    | with_reducible apply takeOp_fld
    | with_reducible apply ownerTake_fld
    | with_reducible apply sendOp_fld
    | refine FieldKept.snd (by with_reducible assumption) ?_

theorem sendOwner_fld (r : SendRec) (s : State)
    (hn : [9, 10, 11, 196, 197, 198, 204, 205, 265, 266, 267, 268, 269, 285, 286, 287, 288, 289, 290, 291, 292, 293, 294,
    295, 296, 299, 307, 446, 447, 448, 449, 456, 461, 682, 686, 688, 689].contains n = false)
    (h : FieldKept n s0 s) : FieldKept n s0 (sendOwner r s) := by
  unfold sendOwner
  repeat' first
    | with_reducible assumption
    | (exact sub_ne _ _ (by decide) hn)
    | (intro e; subst e; exact absurd hn (by decide))
    | (intro x; beta_reduce)
    | (extract_lets +onlyGivenNames x; refine (fun (hx : FieldKept n s0 x) => ?_) (?_ : FieldKept n s0 x) <;> [clear_value x; subst x])
    | (extract_lets +onlyGivenNames x; refine (fun (hx : FieldKept n s0 x.2) => ?_) (?_ : FieldKept n s0 x.2) <;> [clear_value x; subst x])
    | (extract_lets +onlyGivenNames x; clear_value x)
    | with_reducible apply modSends_fld
    | with_reducible apply toOwner_fld
    | with_reducible apply FieldKept.foldl
    | with_reducible apply FieldKept.foldl_snd
    | with_reducible apply FieldKept.foldl_fst
    | (with_reducible apply FieldKept.upd; first | with_reducible assumption | with_reducible apply modSends_fld | with_reducible apply toOwner_fld | with_reducible apply FieldKept.foldl | with_reducible apply FieldKept.foldl_snd | with_reducible apply FieldKept.foldl_fst)

theorem resendOwn_fld (b : Nat) (s : State)
    (hn : [9, 10, 11, 196, 197, 198, 204, 205, 265, 266, 267, 268, 269, 285, 286, 287, 288, 289, 290, 291, 292, 293, 294,
    295, 296, 299, 307, 446, 447, 448, 449, 456, 461, 682, 686, 688, 689].contains n = false)
    (h : FieldKept n s0 s) : FieldKept n s0 (resendOwn b s) := by
  unfold resendOwn
  repeat' first
    | with_reducible assumption
    | (exact sub_ne _ _ (by decide) hn)
    | (intro e; subst e; exact absurd hn (by decide))
    | (intro x; beta_reduce)
    | with_reducible apply sendOwner_fld
    | with_reducible apply FieldKept.foldl
    | with_reducible apply FieldKept.foldl_snd
    | with_reducible apply FieldKept.foldl_fst

theorem resendMoved_fld (x : XOp) (s : State)
    (hn : [9, 10, 11, 196, 197, 198, 204, 205, 265, 266, 267, 268, 269, 285, 286, 287, 288, 289, 290, 291, 292, 293, 294,
    295, 296, 299, 307, 446, 447, 448, 449, 456, 461, 682, 686, 688, 689].contains n = false)
    (h : FieldKept n s0 s) : FieldKept n s0 (resendMoved x s) := by
  unfold resendMoved
  repeat' first
    | with_reducible assumption
    | (exact sub_ne _ _ (by decide) hn)
    | (intro e; subst e; exact absurd hn (by decide))
    | (intro x; beta_reduce)
    | (extract_lets +onlyGivenNames x; refine (fun (hx : FieldKept n s0 x) => ?_) (?_ : FieldKept n s0 x) <;> [clear_value x; subst x])
    | (extract_lets +onlyGivenNames x; refine (fun (hx : FieldKept n s0 x.2) => ?_) (?_ : FieldKept n s0 x.2) <;> [clear_value x; subst x])
    | (extract_lets +onlyGivenNames x; clear_value x)
    | with_reducible apply FieldKept.ite
    | split
    | with_reducible apply toOwner_fld
    | with_reducible apply modSends_fld
    | with_reducible apply FieldKept.foldl
    | with_reducible apply FieldKept.foldl_snd
    | with_reducible apply FieldKept.foldl_fst
    | (with_reducible apply FieldKept.upd; first | with_reducible assumption | with_reducible apply toOwner_fld | with_reducible apply modSends_fld | with_reducible apply FieldKept.foldl | with_reducible apply FieldKept.foldl_snd | with_reducible apply FieldKept.foldl_fst)

theorem noteLayer_fld (r : SendRec) (s : State) (n : Nat)
    (h : FieldKept n s0 s) : FieldKept n s0 (noteLayer r s) := by
  unfold noteLayer
  repeat' first
    | with_reducible assumption
    | (intro x; beta_reduce)
    | (extract_lets +onlyGivenNames x; refine (fun (hx : FieldKept n s0 x) => ?_) (?_ : FieldKept n s0 x) <;> [clear_value x; subst x])
    | (extract_lets +onlyGivenNames x; clear_value x)
    | with_reducible apply FieldKept.ite
    | split
    | with_reducible apply modJob_fld
    | (with_reducible apply FieldKept.upd; first | with_reducible assumption | with_reducible apply modJob_fld)

theorem xIssue_fld (q : SeqId) (t : Nat) (act : Ctx → State → State) (s : State)
    (hn : [9, 10, 11, 196, 197, 198, 201, 205, 209, 213, 219, 682, 686, 688, 689].contains n = false)
    (hact : ∀ x0 s, FieldKept n s0 s → FieldKept n s0 (act x0 s))
    (h : FieldKept n s0 s) : FieldKept n s0 (xIssue q t act s) := by
  unfold xIssue
  repeat' first
    | with_reducible assumption
    | (exact sub_ne _ _ (by decide) hn)
    | (intro e; subst e; exact absurd hn (by decide))
    | (intro x; beta_reduce)
    | (extract_lets +onlyGivenNames x; refine (fun (hx : FieldKept n s0 x) => ?_) (?_ : FieldKept n s0 x) <;> [clear_value x; subst x])
    | (extract_lets +onlyGivenNames x; clear_value x)
    | with_reducible apply FieldKept.ite
    | split
    | with_reducible apply hact
    | with_reducible apply guardFault_fld
    | with_reducible apply setPc_fld
    | with_reducible apply noteIssue_fld

theorem startSend_fld (q : SeqId) (cmd : Cmd) (op t : Nat) (x : Ctx) (s : State)
    (hn : [9, 10, 11, 196, 197, 198, 204, 205, 207, 208, 265, 266, 267, 268, 269, 285, 286, 287, 288, 289, 290, 291, 292,
    293, 294, 295, 296, 297, 298, 299, 307, 446, 447, 448, 449, 456, 461, 670, 682, 685, 686, 688, 689, 697, 698, 699,
    703, 704, 705].contains n = false) (h : FieldKept n s0 s) : FieldKept n s0 (startSend q cmd op t x s) := by
  unfold startSend
  repeat' first
    | with_reducible assumption
    | (exact sub_ne _ _ (by decide) hn)
    | (intro e; subst e; exact absurd hn (by decide))
    | (intro x; beta_reduce)
    | (extract_lets +onlyGivenNames x; refine (fun (hx : FieldKept n s0 x) => ?_) (?_ : FieldKept n s0 x) <;> [clear_value x; subst x])
    | (extract_lets +onlyGivenNames x; clear_value x)
    | with_reducible apply FieldKept.ite
    | split
    | with_reducible apply reportReads_fld
    | with_reducible apply guardReads_fld
    | with_reducible apply modJob_fld
    | with_reducible apply track_fld
    | with_reducible apply noteLayer_fld
    | with_reducible apply sendOwner_fld
    | with_reducible apply ownPulls_fld
    | with_reducible apply servePulls_fld
    | with_reducible apply noticeGates_fld
    | (with_reducible apply FieldKept.upd; first | with_reducible assumption | with_reducible apply reportReads_fld | with_reducible apply guardReads_fld | with_reducible apply modJob_fld | with_reducible apply track_fld | with_reducible apply noteLayer_fld | with_reducible apply sendOwner_fld | with_reducible apply ownPulls_fld | with_reducible apply servePulls_fld | with_reducible apply noticeGates_fld)

theorem sendCmd_fld (q : SeqId) (op : Nat) (s : State)
    (hn : [9, 10, 11, 196, 197, 198, 201, 202, 204, 205, 206, 207, 208, 209, 213, 215, 216, 217, 218, 219, 220, 221, 229,
    265, 266, 267, 268, 269, 285, 286, 287, 288, 289, 290, 291, 292, 293, 294, 295, 296, 297, 298, 299, 307, 446, 447,
    448, 449, 456, 461, 515, 517, 524, 670, 682, 685, 686, 688, 689, 697, 698, 699, 703, 704, 705].contains n = false)
    (h : FieldKept n s0 s) : FieldKept n s0 (sendCmd q op s) := by
  unfold sendCmd
  repeat' first
    | with_reducible assumption
    | (exact sub_ne _ _ (by decide) hn)
    | (intro e; subst e; exact absurd hn (by decide))
    | (intro x; beta_reduce)
    | with_reducible apply streamCmd_fld
    | with_reducible apply xIssue_fld
    | with_reducible apply startSend_fld

theorem startWait_fld (cmd : Cmd) (x : Ctx) (s : State) (hn : [207, 208].contains n = false)
    (h : FieldKept n s0 s) : FieldKept n s0 (startWait cmd x s) := by
  unfold startWait
  repeat' first
    | with_reducible assumption
    | (exact sub_ne _ _ (by decide) hn)
    | (intro e; subst e; exact absurd hn (by decide))
    | (extract_lets +onlyGivenNames x; refine (fun (hx : FieldKept n s0 x) => ?_) (?_ : FieldKept n s0 x) <;> [clear_value x; subst x])
    | (extract_lets +onlyGivenNames x; clear_value x)
    | with_reducible apply FieldKept.ite
    | split
    | with_reducible apply track_fld
    | with_reducible apply noticeGates_fld
    | (with_reducible apply FieldKept.upd; first | with_reducible assumption | with_reducible apply track_fld | with_reducible apply noticeGates_fld)

theorem startRemoteWrite_fld (q : SeqId) (cmd : Cmd) (t : Nat) (x : Ctx) (s : State)
    (hn : [9, 10, 11, 196, 197, 198, 205, 207, 208, 446, 447, 448, 449, 456, 461, 670, 682, 685, 686, 688, 689, 697, 698,
    699, 702, 703, 704, 705].contains n = false)
    (h : FieldKept n s0 s) : FieldKept n s0 (startRemoteWrite q cmd t x s) := by
  unfold startRemoteWrite
  repeat' first
    | with_reducible assumption
    | (exact sub_ne _ _ (by decide) hn)
    | (intro e; subst e; exact absurd hn (by decide))
    | (intro x; beta_reduce)
    | (extract_lets +onlyGivenNames x; refine (fun (hx : FieldKept n s0 x) => ?_) (?_ : FieldKept n s0 x) <;> [clear_value x; subst x])
    | (extract_lets +onlyGivenNames x; refine (fun (hx : FieldKept n s0 x.2) => ?_) (?_ : FieldKept n s0 x.2) <;> [clear_value x; subst x])
    | (extract_lets +onlyGivenNames x; clear_value x)
    | with_reducible apply FieldKept.ite
    | split
    | with_reducible apply reportReads_fld
    | with_reducible apply guardReads_fld
    | with_reducible apply remoteStore_fld
    | with_reducible apply track_fld
    | with_reducible apply cellarStruck_fld
    | with_reducible apply sendWrite_fld
    | with_reducible apply FieldKept.foldl
    | with_reducible apply FieldKept.foldl_snd
    | with_reducible apply FieldKept.foldl_fst
    | refine FieldKept.snd (by with_reducible assumption) ?_
    | (with_reducible apply FieldKept.upd; first | with_reducible assumption | with_reducible apply reportReads_fld | with_reducible apply guardReads_fld | with_reducible apply remoteStore_fld | with_reducible apply track_fld | with_reducible apply cellarStruck_fld | with_reducible apply sendWrite_fld | with_reducible apply FieldKept.foldl | with_reducible apply FieldKept.foldl_snd | with_reducible apply FieldKept.foldl_fst | refine FieldKept.snd (by with_reducible assumption) ?_)

end Sys2Proof.Machine
end

