-- ==== Sys2Proof/Laws/FieldsUpdate.lean ====
section
/-! SUPPORT. Which register fields the operations of Machine/Update.lean may write: one lemma for each, which names the field numbers it can change. -/

set_option linter.unusedTactic false
set_option linter.unreachableTactic false
set_option linter.unusedVariables false

namespace Sys2Proof.Machine

open Sys2Proof

variable {n : Nat} {s0 : State}

theorem checkUpdated_fld (b : Nat) (s : State) (hn : [9, 10, 11, 307, 315].contains n = false)
    (h : FieldKept n s0 s) : FieldKept n s0 (checkUpdated b s) := by
  unfold checkUpdated
  repeat' first
    | with_reducible assumption
    | (exact sub_ne _ _ (by decide) hn)
    | (intro e; subst e; exact absurd hn (by decide))
    | (intro x; beta_reduce)
    | (extract_lets +onlyGivenNames x; refine (fun (hx : FieldKept n s0 x) => ?_) (?_ : FieldKept n s0 x) <;> [clear_value x; subst x])
    | (extract_lets +onlyGivenNames x; clear_value x)
    | with_reducible apply FieldKept.ite
    | split
    | with_reducible apply refreshPending_fld
    | with_reducible apply sat_fld
    | with_reducible apply modBx_fld
    | (with_reducible apply FieldKept.upd; first | with_reducible assumption | with_reducible apply refreshPending_fld | with_reducible apply sat_fld | with_reducible apply modBx_fld)

theorem applyDelta_fld (x : XOp) (s : State)
    (hn : [9, 10, 11, 306, 307, 315, 317, 670, 682, 685, 689, 697, 698, 699, 703, 704, 705].contains n = false)
    (h : FieldKept n s0 s) : FieldKept n s0 (applyDelta x s) := by
  unfold applyDelta
  repeat' first
    | with_reducible assumption
    | (exact sub_ne _ _ (by decide) hn)
    | (intro e; subst e; exact absurd hn (by decide))
    | (intro x; beta_reduce)
    | (extract_lets +onlyGivenNames x; refine (fun (hx : FieldKept n s0 x) => ?_) (?_ : FieldKept n s0 x) <;> [clear_value x; subst x])
    | (extract_lets +onlyGivenNames x; clear_value x)
    | with_reducible apply FieldKept.ite
    | split
    | with_reducible apply partReport_fld
    | with_reducible apply viewReport_fld
    | with_reducible apply storeMem_fld
    | with_reducible apply sat_fld
    | with_reducible apply setb_fld
    | with_reducible apply modJob_fld
    | with_reducible apply checkUpdated_fld
    | with_reducible apply setBx_fld
    | (with_reducible apply FieldKept.upd; first | with_reducible assumption | with_reducible apply partReport_fld | with_reducible apply viewReport_fld | with_reducible apply storeMem_fld | with_reducible apply sat_fld | with_reducible apply setb_fld | with_reducible apply modJob_fld | with_reducible apply checkUpdated_fld | with_reducible apply setBx_fld)

theorem ownDelta_fld (o : XOp) (s : State)
    (hn : [9, 10, 11, 299, 306, 307, 315, 317, 670, 682, 685, 689, 697, 698, 699, 703, 704, 705].contains n = false)
    (h : FieldKept n s0 s) : FieldKept n s0 (ownDelta o s) := by
  unfold ownDelta
  repeat' first
    | with_reducible assumption
    | (exact sub_ne _ _ (by decide) hn)
    | (intro e; subst e; exact absurd hn (by decide))
    | with_reducible apply FieldKept.ite
    | split
    | with_reducible apply sat_fld
    | with_reducible apply applyDelta_fld

theorem flushDeltas_fld (b : Nat) (s : State)
    (hn : [9, 10, 11, 299, 306, 307, 315, 317, 446, 447, 448, 449, 456, 461, 670, 682, 685, 689, 697, 698, 699, 703, 704,
    705].contains n = false) (h : FieldKept n s0 s) : FieldKept n s0 (flushDeltas b s) := by
  unfold flushDeltas
  repeat' first
    | with_reducible assumption
    | (exact sub_ne _ _ (by decide) hn)
    | (intro e; subst e; exact absurd hn (by decide))
    | (intro x; beta_reduce)
    | (extract_lets +onlyGivenNames x; refine (fun (hx : FieldKept n s0 x) => ?_) (?_ : FieldKept n s0 x) <;> [clear_value x; subst x])
    | (extract_lets +onlyGivenNames x; refine (fun (hx : FieldKept n s0 x.2) => ?_) (?_ : FieldKept n s0 x.2) <;> [clear_value x; subst x])
    | (extract_lets +onlyGivenNames x; clear_value x)
    | with_reducible apply FieldKept.ite
    | split
    | with_reducible apply sendAll_fld
    | with_reducible apply ownDelta_fld
    | with_reducible apply modOp_fld
    | with_reducible apply modBx_fld
    | with_reducible apply FieldKept.foldl
    | with_reducible apply FieldKept.foldl_snd
    | with_reducible apply FieldKept.foldl_fst
    | refine FieldKept.snd (by with_reducible assumption) ?_
    | (with_reducible apply FieldKept.upd; first | with_reducible assumption | with_reducible apply sendAll_fld | with_reducible apply ownDelta_fld | with_reducible apply modOp_fld | with_reducible apply modBx_fld | with_reducible apply FieldKept.foldl | with_reducible apply FieldKept.foldl_snd | with_reducible apply FieldKept.foldl_fst | refine FieldKept.snd (by with_reducible assumption) ?_)

theorem markLast_fld (b : Nat) (o : XOp) (s : State) (n : Nat)
    (h : FieldKept n s0 s) : FieldKept n s0 (markLast b o s).2 := by
  unfold markLast
  repeat' first
    | with_reducible assumption
    | (intro x; beta_reduce)
    | (extract_lets +onlyGivenNames x; refine (fun (hx : FieldKept n s0 x) => ?_) (?_ : FieldKept n s0 x) <;> [clear_value x; subst x])
    | (extract_lets +onlyGivenNames x; clear_value x)
    | with_reducible apply FieldKept.ite
    | split
    | with_reducible apply modBx_fld
    | (with_reducible apply FieldKept.upd; first | with_reducible assumption | with_reducible apply modBx_fld)

theorem ownDeltas_fld (id b : Nat) (os : List XOp) (send : Bool) (s : State)
    (hn : [9, 10, 11, 299, 306, 307, 315, 317, 670, 682, 685, 689, 697, 698, 699, 703, 704, 705].contains n = false)
    (h : FieldKept n s0 s) : FieldKept n s0 (ownDeltas id b os send s) := by
  unfold ownDeltas
  repeat' first
    | with_reducible assumption
    | (exact sub_ne _ _ (by decide) hn)
    | (intro e; subst e; exact absurd hn (by decide))
    | (intro x; beta_reduce)
    | (extract_lets +onlyGivenNames x; refine (fun (hx : FieldKept n s0 x) => ?_) (?_ : FieldKept n s0 x) <;> [clear_value x; subst x])
    | (extract_lets +onlyGivenNames x; refine (fun (hx : FieldKept n s0 x.2) => ?_) (?_ : FieldKept n s0 x.2) <;> [clear_value x; subst x])
    | (extract_lets +onlyGivenNames x; clear_value x)
    | with_reducible apply FieldKept.ite
    | split
    | with_reducible apply markLast_fld
    | with_reducible apply modBx_fld
    | with_reducible apply ownDelta_fld
    | with_reducible apply FieldKept.foldl
    | with_reducible apply FieldKept.foldl_snd
    | with_reducible apply FieldKept.foldl_fst
    | refine FieldKept.snd (by with_reducible assumption) ?_
    | (with_reducible apply FieldKept.upd; first | with_reducible assumption | with_reducible apply markLast_fld | with_reducible apply modBx_fld | with_reducible apply ownDelta_fld | with_reducible apply FieldKept.foldl | with_reducible apply FieldKept.foldl_snd | with_reducible apply FieldKept.foldl_fst | refine FieldKept.snd (by with_reducible assumption) ?_)

theorem startDelta_fld (q : SeqId) (cmd : Cmd) (t : Nat) (x : Ctx) (s : State)
    (hn : [9, 10, 11, 196, 197, 198, 205, 207, 208, 297, 298, 299, 306, 307, 315, 317, 446, 447, 448, 449, 456, 461, 670,
    682, 685, 686, 688, 689, 697, 698, 699, 703, 704, 705].contains n = false)
    (h : FieldKept n s0 s) : FieldKept n s0 (startDelta q cmd t x s) := by
  unfold startDelta
  repeat' first
    | with_reducible assumption
    | (exact sub_ne _ _ (by decide) hn)
    | (intro e; subst e; exact absurd hn (by decide))
    | (intro x; beta_reduce)
    | (extract_lets +onlyGivenNames x; refine (fun (hx : FieldKept n s0 x) => ?_) (?_ : FieldKept n s0 x) <;> [clear_value x; subst x])
    | (extract_lets +onlyGivenNames x; refine (fun (hx : FieldKept n s0 x.2) => ?_) (?_ : FieldKept n s0 x.2) <;> [clear_value x; subst x])
    | (extract_lets +onlyGivenNames x; clear_value x)
    | with_reducible apply FieldKept.ite
    | split
    | with_reducible apply reportReads_fld
    | with_reducible apply guardReads_fld
    | with_reducible apply track_fld
    | with_reducible apply modJob_fld
    | with_reducible apply viewReport_fld
    | with_reducible apply storeMem_fld
    | with_reducible apply modBx_fld
    | with_reducible apply flushDeltas_fld
    | with_reducible apply ownDeltas_fld
    | with_reducible apply FieldKept.foldl
    | with_reducible apply FieldKept.foldl_snd
    | with_reducible apply FieldKept.foldl_fst
    | (with_reducible apply FieldKept.upd; first | with_reducible assumption | with_reducible apply reportReads_fld | with_reducible apply guardReads_fld | with_reducible apply track_fld | with_reducible apply modJob_fld | with_reducible apply viewReport_fld | with_reducible apply storeMem_fld | with_reducible apply modBx_fld | with_reducible apply flushDeltas_fld | with_reducible apply ownDeltas_fld | with_reducible apply FieldKept.foldl | with_reducible apply FieldKept.foldl_snd | with_reducible apply FieldKept.foldl_fst)

theorem noteSpike_fld (c : Nat) (s : State) (hn : [9, 10, 11, 330, 338, 341, 342, 343, 346].contains n = false)
    (h : FieldKept n s0 s) : FieldKept n s0 (noteSpike c s) := by
  unfold noteSpike
  repeat' first
    | with_reducible assumption
    | (exact sub_ne _ _ (by decide) hn)
    | (intro e; subst e; exact absurd hn (by decide))
    | (intro x; beta_reduce)
    | (extract_lets +onlyGivenNames x; refine (fun (hx : FieldKept n s0 x) => ?_) (?_ : FieldKept n s0 x) <;> [clear_value x; subst x])
    | (extract_lets +onlyGivenNames x; clear_value x)
    | with_reducible apply sat_fld
    | with_reducible apply setb_fld
    | with_reducible apply wr_fld
    | with_reducible apply modJob_fld
    | (with_reducible apply FieldKept.upd; first | with_reducible assumption | with_reducible apply sat_fld | with_reducible apply setb_fld | with_reducible apply wr_fld | with_reducible apply modJob_fld)

theorem spikeTest_fld (s : State) (hn : [9, 10, 11, 330, 333, 338, 341, 342, 343, 346, 347].contains n = false)
    (h : FieldKept n s0 s) : FieldKept n s0 (spikeTest s) := by
  unfold spikeTest
  repeat' first
    | with_reducible assumption
    | (exact sub_ne _ _ (by decide) hn)
    | (intro e; subst e; exact absurd hn (by decide))
    | (extract_lets +onlyGivenNames x; refine (fun (hx : FieldKept n s0 x) => ?_) (?_ : FieldKept n s0 x) <;> [clear_value x; subst x])
    | (extract_lets +onlyGivenNames x; clear_value x)
    | with_reducible apply FieldKept.ite
    | split
    | with_reducible apply sat_fld
    | with_reducible apply setb_fld
    | with_reducible apply noteSpike_fld

theorem refreshStarved_fld (s : State) (hn : [350, 351].contains n = false)
    (h : FieldKept n s0 s) : FieldKept n s0 (refreshStarved s) := by
  unfold refreshStarved
  repeat' first
    | with_reducible assumption
    | (exact sub_ne _ _ (by decide) hn)
    | (intro e; subst e; exact absurd hn (by decide))
    | (extract_lets +onlyGivenNames x; refine (fun (hx : FieldKept n s0 x) => ?_) (?_ : FieldKept n s0 x) <;> [clear_value x; subst x])
    | (extract_lets +onlyGivenNames x; clear_value x)
    | with_reducible apply wr_fld

theorem starveTest_fld (s : State) (hn : [331, 350, 351, 354].contains n = false)
    (h : FieldKept n s0 s) : FieldKept n s0 (starveTest s) := by
  unfold starveTest
  repeat' first
    | with_reducible assumption
    | (exact sub_ne _ _ (by decide) hn)
    | (intro e; subst e; exact absurd hn (by decide))
    | (intro x; beta_reduce)
    | (extract_lets +onlyGivenNames x; refine (fun (hx : FieldKept n s0 x) => ?_) (?_ : FieldKept n s0 x) <;> [clear_value x; subst x])
    | (extract_lets +onlyGivenNames x; refine (fun (hx : FieldKept n s0 x.2) => ?_) (?_ : FieldKept n s0 x.2) <;> [clear_value x; subst x])
    | (extract_lets +onlyGivenNames x; clear_value x)
    | with_reducible apply FieldKept.ite
    | split
    | with_reducible apply wr_fld
    | with_reducible apply modJob_fld
    | with_reducible apply refreshStarved_fld
    | with_reducible apply setb_fld
    | with_reducible apply FieldKept.foldl
    | with_reducible apply FieldKept.foldl_snd
    | with_reducible apply FieldKept.foldl_fst
    | (with_reducible apply FieldKept.upd; first | with_reducible assumption | with_reducible apply wr_fld | with_reducible apply modJob_fld | with_reducible apply refreshStarved_fld | with_reducible apply setb_fld | with_reducible apply FieldKept.foldl | with_reducible apply FieldKept.foldl_snd | with_reducible apply FieldKept.foldl_fst)

theorem setVoteSent_fld (v : Bool) (s : State) (hn : [304].contains n = false)
    (h : FieldKept n s0 s) : FieldKept n s0 (setVoteSent v s) := by
  unfold setVoteSent
  repeat' first
    | with_reducible assumption
    | (exact sub_ne _ _ (by decide) hn)
    | (intro e; subst e; exact absurd hn (by decide))
    | (intro x; beta_reduce)
    | with_reducible apply setb_fld
    | with_reducible apply FieldKept.foldl
    | with_reducible apply FieldKept.foldl_snd
    | with_reducible apply FieldKept.foldl_fst

theorem onDecision_fld (step at' : Nat) (vetoed : Bool) (s : State) (n : Nat)
    (h : FieldKept n s0 s) : FieldKept n s0 (onDecision step at' vetoed s) := by
  unfold onDecision
  repeat' first
    | with_reducible assumption
    | (intro x; beta_reduce)
    | with_reducible apply FieldKept.ite
    | split
    | with_reducible apply modJob_fld
    | (with_reducible apply FieldKept.upd; first | with_reducible assumption | with_reducible apply modJob_fld)

theorem tryDecide_fld (s : State) (hn : [9, 10, 11, 446, 447, 448, 449, 456, 461].contains n = false)
    (h : FieldKept n s0 s) : FieldKept n s0 (tryDecide s) := by
  unfold tryDecide
  repeat' first
    | with_reducible assumption
    | (exact sub_ne _ _ (by decide) hn)
    | (intro e; subst e; exact absurd hn (by decide))
    | (intro x; beta_reduce)
    | (extract_lets +onlyGivenNames x; refine (fun (hx : FieldKept n s0 x) => ?_) (?_ : FieldKept n s0 x) <;> [clear_value x; subst x])
    | (extract_lets +onlyGivenNames x; refine (fun (hx : FieldKept n s0 x.2) => ?_) (?_ : FieldKept n s0 x.2) <;> [clear_value x; subst x])
    | (extract_lets +onlyGivenNames x; clear_value x)
    | with_reducible apply FieldKept.ite
    | split
    | with_reducible apply sendReliable_fld
    | with_reducible apply onDecision_fld
    | with_reducible apply FieldKept.foldl
    | with_reducible apply FieldKept.foldl_snd
    | with_reducible apply FieldKept.foldl_fst
    | refine FieldKept.snd (by with_reducible assumption) ?_

theorem onVote_fld (rank step flags : Nat) (s : State)
    (hn : [9, 10, 11, 446, 447, 448, 449, 456, 461].contains n = false)
    (h : FieldKept n s0 s) : FieldKept n s0 (onVote rank step flags s) := by
  unfold onVote
  repeat' first
    | with_reducible assumption
    | (exact sub_ne _ _ (by decide) hn)
    | (intro e; subst e; exact absurd hn (by decide))
    | (intro x; beta_reduce)
    | (extract_lets +onlyGivenNames x; refine (fun (hx : FieldKept n s0 x) => ?_) (?_ : FieldKept n s0 x) <;> [clear_value x; subst x])
    | (extract_lets +onlyGivenNames x; clear_value x)
    | with_reducible apply FieldKept.ite
    | split
    | with_reducible apply tryDecide_fld
    | with_reducible apply modJob_fld
    | (with_reducible apply FieldKept.upd; first | with_reducible assumption | with_reducible apply tryDecide_fld | with_reducible apply modJob_fld)

theorem sendVote_fld (s : State) (hn : [9, 10, 11, 446, 447, 448, 449, 456, 461].contains n = false)
    (h : FieldKept n s0 s) : FieldKept n s0 (sendVote s) := by
  unfold sendVote
  repeat' first
    | with_reducible assumption
    | (exact sub_ne _ _ (by decide) hn)
    | (intro e; subst e; exact absurd hn (by decide))
    | with_reducible apply FieldKept.ite
    | split
    | with_reducible apply onVote_fld
    | with_reducible apply sendReliable_fld
    | refine FieldKept.snd (by with_reducible assumption) ?_

theorem castVote_fld (s : State)
    (hn : [9, 10, 11, 304, 330, 331, 333, 337, 338, 341, 342, 343, 346, 347, 348, 350, 351, 354, 405, 446, 447, 448, 449,
    456, 461].contains n = false) (h : FieldKept n s0 s) : FieldKept n s0 (castVote s) := by
  unfold castVote
  repeat' first
    | with_reducible assumption
    | (exact sub_ne _ _ (by decide) hn)
    | (intro e; subst e; exact absurd hn (by decide))
    | (intro x; beta_reduce)
    | (extract_lets +onlyGivenNames x; refine (fun (hx : FieldKept n s0 x) => ?_) (?_ : FieldKept n s0 x) <;> [clear_value x; subst x])
    | (extract_lets +onlyGivenNames x; clear_value x)
    | with_reducible apply FieldKept.ite
    | split
    | with_reducible apply sat_fld
    | with_reducible apply modJob_fld
    | with_reducible apply starveTest_fld
    | with_reducible apply spikeTest_fld
    | with_reducible apply setb_fld
    | with_reducible apply sendVote_fld
    | with_reducible apply setVoteSent_fld
    | (with_reducible apply FieldKept.upd; first | with_reducible assumption | with_reducible apply sat_fld | with_reducible apply modJob_fld | with_reducible apply starveTest_fld | with_reducible apply spikeTest_fld | with_reducible apply setb_fld | with_reducible apply sendVote_fld | with_reducible apply setVoteSent_fld)

theorem settle_fld (s : State)
    (hn : [9, 10, 11, 299, 304, 306, 307, 315, 317, 330, 331, 333, 337, 338, 341, 342, 343, 346, 347, 348, 350, 351, 354,
    405, 446, 447, 448, 449, 456, 461, 670, 682, 685, 689, 697, 698, 699, 703, 704, 705].contains n = false)
    (h : FieldKept n s0 s) : FieldKept n s0 (settle s) := by
  unfold settle
  repeat' first
    | with_reducible assumption
    | (exact sub_ne _ _ (by decide) hn)
    | (intro e; subst e; exact absurd hn (by decide))
    | (intro x; beta_reduce)
    | (extract_lets +onlyGivenNames x; refine (fun (hx : FieldKept n s0 x) => ?_) (?_ : FieldKept n s0 x) <;> [clear_value x; subst x])
    | (extract_lets +onlyGivenNames x; refine (fun (hx : FieldKept n s0 x.2) => ?_) (?_ : FieldKept n s0 x.2) <;> [clear_value x; subst x])
    | (extract_lets +onlyGivenNames x; clear_value x)
    | with_reducible apply servePulls_fld
    | with_reducible apply flushDeltas_fld
    | with_reducible apply settleShards_fld
    | with_reducible apply castVote_fld
    | with_reducible apply FieldKept.foldl
    | with_reducible apply FieldKept.foldl_snd
    | with_reducible apply FieldKept.foldl_fst

theorem mixerTest_fld (s : State) (hn : [4, 334, 335].contains n = false)
    (h : FieldKept n s0 s) : FieldKept n s0 (mixerTest s) := by
  unfold mixerTest
  repeat' first
    | with_reducible assumption
    | (exact sub_ne _ _ (by decide) hn)
    | (intro e; subst e; exact absurd hn (by decide))
    | (extract_lets +onlyGivenNames x; refine (fun (hx : FieldKept n s0 x) => ?_) (?_ : FieldKept n s0 x) <;> [clear_value x; subst x])
    | (extract_lets +onlyGivenNames x; clear_value x)
    | with_reducible apply FieldKept.ite
    | split
    | with_reducible apply setb_fld
    | with_reducible apply wrU_fld

theorem refreshArray_fld (die l p : Nat) (rows : List (Nat × Nat)) (s : State)
    (hn : [9, 10, 11, 670, 682, 685, 689, 697, 698, 699, 703, 704, 705].contains n = false)
    (h : FieldKept n s0 s) : FieldKept n s0 (refreshArray die l p rows s) := by
  unfold refreshArray
  repeat' first
    | with_reducible assumption
    | (exact sub_ne _ _ (by decide) hn)
    | (intro e; subst e; exact absurd hn (by decide))
    | (intro x; beta_reduce)
    | (extract_lets +onlyGivenNames x; refine (fun (hx : FieldKept n s0 x) => ?_) (?_ : FieldKept n s0 x) <;> [clear_value x; subst x])
    | (extract_lets +onlyGivenNames x; refine (fun (hx : FieldKept n s0 x.2) => ?_) (?_ : FieldKept n s0 x.2) <;> [clear_value x; subst x])
    | (extract_lets +onlyGivenNames x; clear_value x)
    | with_reducible apply FieldKept.ite
    | split
    | with_reducible apply partReport_fld
    | with_reducible apply setArrX_fld
    | with_reducible apply FieldKept.foldl
    | with_reducible apply FieldKept.foldl_snd
    | with_reducible apply FieldKept.foldl_fst
    | (with_reducible apply FieldKept.upd; first | with_reducible assumption | with_reducible apply partReport_fld | with_reducible apply setArrX_fld | with_reducible apply FieldKept.foldl | with_reducible apply FieldKept.foldl_snd | with_reducible apply FieldKept.foldl_fst)

theorem bypassPermanent_fld (die p : Nat) (s : State) (hn : [89, 91].contains n = false)
    (h : FieldKept n s0 s) : FieldKept n s0 (bypassPermanent die p s) := by
  unfold bypassPermanent
  repeat' first
    | with_reducible assumption
    | (exact sub_ne _ _ (by decide) hn)
    | (intro e; subst e; exact absurd hn (by decide))
    | (intro x; beta_reduce)
    | with_reducible apply FieldKept.ite
    | split
    | with_reducible apply bypassLoaded_fld
    | with_reducible apply FieldKept.foldl
    | with_reducible apply FieldKept.foldl_snd
    | with_reducible apply FieldKept.foldl_fst

theorem pantryRefresh_fld (inst ap : Nat) (rows : List (Nat × Nat)) (s : State)
    (hn : [9, 10, 11, 89, 91, 196, 197, 198, 204, 205, 670, 682, 685, 686, 688, 689, 697, 698, 699, 703, 704,
    705].contains n = false) (h : FieldKept n s0 s) : FieldKept n s0 (pantryRefresh inst ap rows s) := by
  unfold pantryRefresh
  repeat' first
    | with_reducible assumption
    | (exact sub_ne _ _ (by decide) hn)
    | (intro e; subst e; exact absurd hn (by decide))
    | (intro x; beta_reduce)
    | (extract_lets +onlyGivenNames x; refine (fun (hx : FieldKept n s0 x) => ?_) (?_ : FieldKept n s0 x) <;> [clear_value x; subst x])
    | (extract_lets +onlyGivenNames x; refine (fun (hx : FieldKept n s0 x.2) => ?_) (?_ : FieldKept n s0 x.2) <;> [clear_value x; subst x])
    | (extract_lets +onlyGivenNames x; clear_value x)
    | with_reducible apply FieldKept.ite
    | split
    | with_reducible apply advanceTo_fld
    | with_reducible apply refreshArray_fld
    | with_reducible apply bypassPermanent_fld
    | with_reducible apply portToken_fld
    | with_reducible apply FieldKept.foldl
    | with_reducible apply FieldKept.foldl_snd
    | with_reducible apply FieldKept.foldl_fst
    | (with_reducible apply FieldKept.upd; first | with_reducible assumption | with_reducible apply advanceTo_fld | with_reducible apply refreshArray_fld | with_reducible apply bypassPermanent_fld | with_reducible apply portToken_fld | with_reducible apply FieldKept.foldl | with_reducible apply FieldKept.foldl_snd | with_reducible apply FieldKept.foldl_fst)

theorem driftStep_fld (die p l pad : Nat) (s : State) (ja : Nat × Nat)
    (hn : [9, 10, 11, 85, 97, 98, 670, 682, 685, 689, 697, 698, 699, 703, 704, 705].contains n = false)
    (h : FieldKept n s0 s) : FieldKept n s0 (driftStep die p l pad s ja) := by
  unfold driftStep
  repeat' first
    | with_reducible assumption
    | (exact sub_ne _ _ (by decide) hn)
    | (intro e; subst e; exact absurd hn (by decide))
    | (extract_lets +onlyGivenNames x; refine (fun (hx : FieldKept n s0 x) => ?_) (?_ : FieldKept n s0 x) <;> [clear_value x; subst x])
    | (extract_lets +onlyGivenNames x; refine (fun (hx : FieldKept n s0 x.2) => ?_) (?_ : FieldKept n s0 x.2) <;> [clear_value x; subst x])
    | (extract_lets +onlyGivenNames x; clear_value x)
    | with_reducible apply FieldKept.ite
    | split
    | with_reducible apply partReport_fld
    | with_reducible apply queueColumn_fld
    | with_reducible apply sat_fld

theorem driftCheck_fld (s : State)
    (hn : [9, 10, 11, 85, 97, 98, 128, 670, 682, 685, 689, 697, 698, 699, 703, 704, 705].contains n = false)
    (h : FieldKept n s0 s) : FieldKept n s0 (driftCheck s) := by
  unfold driftCheck
  repeat' first
    | with_reducible assumption
    | (exact sub_ne _ _ (by decide) hn)
    | (intro e; subst e; exact absurd hn (by decide))
    | (extract_lets +onlyGivenNames x; refine (fun (hx : FieldKept n s0 x) => ?_) (?_ : FieldKept n s0 x) <;> [clear_value x; subst x])
    | (extract_lets +onlyGivenNames x; refine (fun (hx : FieldKept n s0 x.2) => ?_) (?_ : FieldKept n s0 x.2) <;> [clear_value x; subst x])
    | (extract_lets +onlyGivenNames x; clear_value x)
    | with_reducible apply FieldKept.ite
    | split
    | with_reducible apply advanceTo_fld
    | with_reducible apply driftStep_fld
    | with_reducible apply wrA_fld
    | (with_reducible apply FieldKept.upd; first | with_reducible assumption | with_reducible apply advanceTo_fld | with_reducible apply driftStep_fld | with_reducible apply wrA_fld)

end Sys2Proof.Machine
end

