-- ==== Sys2Proof/Laws/FieldsEpoch.lean ====
section
/-! SUPPORT. Which register fields the operations of Machine/Epoch.lean may write: one lemma for each, which names the field numbers it can change. -/

set_option linter.unusedTactic false
set_option linter.unreachableTactic false
set_option linter.unusedVariables false

namespace Sys2Proof.Machine

open Sys2Proof

variable {n : Nat} {s0 : State}

theorem finishWalks_fld (s : State) (hn : [9, 10, 11, 387, 402].contains n = false)
    (h : FieldKept n s0 s) : FieldKept n s0 (finishWalks s) := by
  unfold finishWalks
  repeat' first
    | with_reducible assumption
    | (exact sub_ne _ _ (by decide) hn)
    | (intro e; subst e; exact absurd hn (by decide))
    | (intro x; beta_reduce)
    | (extract_lets +onlyGivenNames x; refine (fun (hx : FieldKept n s0 x) => ?_) (?_ : FieldKept n s0 x) <;> [clear_value x; subst x])
    | (extract_lets +onlyGivenNames x; refine (fun (hx : FieldKept n s0 x.2) => ?_) (?_ : FieldKept n s0 x.2) <;> [clear_value x; subst x])
    | (extract_lets +onlyGivenNames x; clear_value x)
    | with_reducible apply FieldKept.ite
    | split
    | with_reducible apply modJob_fld
    | with_reducible apply sat_fld
    | with_reducible apply modBx_fld
    | with_reducible apply refreshCellar_fld
    | with_reducible apply FieldKept.foldl
    | with_reducible apply FieldKept.foldl_snd
    | with_reducible apply FieldKept.foldl_fst
    | (with_reducible apply FieldKept.upd; first | with_reducible assumption | with_reducible apply modJob_fld | with_reducible apply sat_fld | with_reducible apply modBx_fld | with_reducible apply refreshCellar_fld | with_reducible apply FieldKept.foldl | with_reducible apply FieldKept.foldl_snd | with_reducible apply FieldKept.foldl_fst)

theorem cellarCommit_fld (vetoed : Bool) (old s : State) (hn : [387].contains n = false)
    (h : FieldKept n s0 s) : FieldKept n s0 (cellarCommit vetoed old s) := by
  unfold cellarCommit
  repeat' first
    | with_reducible assumption
    | (exact sub_ne _ _ (by decide) hn)
    | (intro e; subst e; exact absurd hn (by decide))
    | (intro x; beta_reduce)
    | (extract_lets +onlyGivenNames x; refine (fun (hx : FieldKept n s0 x) => ?_) (?_ : FieldKept n s0 x) <;> [clear_value x; subst x])
    | (extract_lets +onlyGivenNames x; refine (fun (hx : FieldKept n s0 x.2) => ?_) (?_ : FieldKept n s0 x.2) <;> [clear_value x; subst x])
    | (extract_lets +onlyGivenNames x; clear_value x)
    | with_reducible apply FieldKept.ite
    | split
    | with_reducible apply cellarStruck_fld
    | with_reducible apply recellar_fld
    | with_reducible apply freshCellar_fld
    | with_reducible apply FieldKept.foldl
    | with_reducible apply FieldKept.foldl_snd
    | with_reducible apply FieldKept.foldl_fst

theorem loseBuckets_fld (lost : List Nat) (s : State) (hn : [370, 376, 389].contains n = false)
    (h : FieldKept n s0 s) : FieldKept n s0 (loseBuckets lost s) := by
  unfold loseBuckets
  repeat' first
    | with_reducible assumption
    | (exact sub_ne _ _ (by decide) hn)
    | (intro e; subst e; exact absurd hn (by decide))
    | (intro x; beta_reduce)
    | (extract_lets +onlyGivenNames x; refine (fun (hx : FieldKept n s0 x) => ?_) (?_ : FieldKept n s0 x) <;> [clear_value x; subst x])
    | (extract_lets +onlyGivenNames x; refine (fun (hx : FieldKept n s0 x.2) => ?_) (?_ : FieldKept n s0 x.2) <;> [clear_value x; subst x])
    | (extract_lets +onlyGivenNames x; clear_value x)
    | with_reducible apply FieldKept.ite
    | split
    | with_reducible apply modBx_fld
    | with_reducible apply wr_fld
    | with_reducible apply setb_fld
    | with_reducible apply stopIssue_fld
    | with_reducible apply FieldKept.foldl
    | with_reducible apply FieldKept.foldl_snd
    | with_reducible apply FieldKept.foldl_fst
    | (with_reducible apply FieldKept.upd; first | with_reducible assumption | with_reducible apply modBx_fld | with_reducible apply wr_fld | with_reducible apply setb_fld | with_reducible apply stopIssue_fld | with_reducible apply FieldKept.foldl | with_reducible apply FieldKept.foldl_snd | with_reducible apply FieldKept.foldl_fst)

theorem stateScan_fld (s : State) (hn : [370, 376, 389].contains n = false)
    (h : FieldKept n s0 s) : FieldKept n s0 (stateScan s) := by
  unfold stateScan
  repeat' first
    | with_reducible assumption
    | (exact sub_ne _ _ (by decide) hn)
    | (intro e; subst e; exact absurd hn (by decide))
    | (extract_lets +onlyGivenNames x; refine (fun (hx : FieldKept n s0 x) => ?_) (?_ : FieldKept n s0 x) <;> [clear_value x; subst x])
    | (extract_lets +onlyGivenNames x; clear_value x)
    | with_reducible apply FieldKept.ite
    | split
    | with_reducible apply loseBuckets_fld

theorem momentReads_fld (b : Nat) (s : State)
    (hn : [9, 10, 11, 670, 682, 685, 689, 697, 698, 699, 703, 704, 705].contains n = false)
    (h : FieldKept n s0 s) : FieldKept n s0 (momentReads b s) := by
  unfold momentReads
  repeat' first
    | with_reducible assumption
    | (exact sub_ne _ _ (by decide) hn)
    | (intro e; subst e; exact absurd hn (by decide))
    | (intro x; beta_reduce)
    | with_reducible apply partReport_fld
    | with_reducible apply FieldKept.foldl
    | with_reducible apply FieldKept.foldl_snd
    | with_reducible apply FieldKept.foldl_fst

theorem crcCommit_fld (e : Nat) (s : State) (hn : [9, 10, 11, 401].contains n = false)
    (h : FieldKept n s0 s) : FieldKept n s0 (crcCommit e s) := by
  unfold crcCommit
  repeat' first
    | with_reducible assumption
    | (exact sub_ne _ _ (by decide) hn)
    | (intro e; subst e; exact absurd hn (by decide))
    | (intro x; beta_reduce)
    | (extract_lets +onlyGivenNames x; refine (fun (hx : FieldKept n s0 x) => ?_) (?_ : FieldKept n s0 x) <;> [clear_value x; subst x])
    | (extract_lets +onlyGivenNames x; refine (fun (hx : FieldKept n s0 x.2) => ?_) (?_ : FieldKept n s0 x.2) <;> [clear_value x; subst x])
    | (extract_lets +onlyGivenNames x; clear_value x)
    | with_reducible apply FieldKept.ite
    | split
    | with_reducible apply sat_fld
    | with_reducible apply modBx_fld
    | with_reducible apply FieldKept.foldl
    | with_reducible apply FieldKept.foldl_snd
    | with_reducible apply FieldKept.foldl_fst
    | (with_reducible apply FieldKept.upd; first | with_reducible assumption | with_reducible apply sat_fld | with_reducible apply modBx_fld | with_reducible apply FieldKept.foldl | with_reducible apply FieldKept.foldl_snd | with_reducible apply FieldKept.foldl_fst)

theorem crcCompare_fld (b : Nat) (s : State) (hn : [9, 10, 11, 375, 399, 400].contains n = false)
    (h : FieldKept n s0 s) : FieldKept n s0 (crcCompare b s) := by
  unfold crcCompare
  repeat' first
    | with_reducible assumption
    | (exact sub_ne _ _ (by decide) hn)
    | (intro e; subst e; exact absurd hn (by decide))
    | (intro x; beta_reduce)
    | (extract_lets +onlyGivenNames x; refine (fun (hx : FieldKept n s0 x) => ?_) (?_ : FieldKept n s0 x) <;> [clear_value x; subst x])
    | (extract_lets +onlyGivenNames x; refine (fun (hx : FieldKept n s0 x.2) => ?_) (?_ : FieldKept n s0 x.2) <;> [clear_value x; subst x])
    | (extract_lets +onlyGivenNames x; clear_value x)
    | with_reducible apply FieldKept.ite
    | split
    | with_reducible apply modBx_fld
    | with_reducible apply sat_fld
    | with_reducible apply setb_fld
    | with_reducible apply freshCellar_fld
    | (with_reducible apply FieldKept.upd; first | with_reducible assumption | with_reducible apply modBx_fld | with_reducible apply sat_fld | with_reducible apply setb_fld | with_reducible apply freshCellar_fld)

theorem crcComputeDone_fld (s : State)
    (hn : [9, 10, 11, 375, 399, 400, 446, 447, 448, 449, 456, 461, 670, 682, 685, 689, 697, 698, 699, 703, 704,
    705].contains n = false) (h : FieldKept n s0 s) : FieldKept n s0 (crcComputeDone s) := by
  unfold crcComputeDone
  repeat' first
    | with_reducible assumption
    | (exact sub_ne _ _ (by decide) hn)
    | (intro e; subst e; exact absurd hn (by decide))
    | (intro x; beta_reduce)
    | (extract_lets +onlyGivenNames x; refine (fun (hx : FieldKept n s0 x) => ?_) (?_ : FieldKept n s0 x) <;> [clear_value x; subst x])
    | (extract_lets +onlyGivenNames x; refine (fun (hx : FieldKept n s0 x.2) => ?_) (?_ : FieldKept n s0 x.2) <;> [clear_value x; subst x])
    | (extract_lets +onlyGivenNames x; clear_value x)
    | with_reducible apply cellarStruck_fld
    | with_reducible apply momentReads_fld
    | with_reducible apply modBx_fld
    | with_reducible apply sendReliable_fld
    | with_reducible apply crcCompare_fld
    | with_reducible apply FieldKept.foldl
    | with_reducible apply FieldKept.foldl_snd
    | with_reducible apply FieldKept.foldl_fst
    | refine FieldKept.snd (by with_reducible assumption) ?_
    | (with_reducible apply FieldKept.upd; first | with_reducible assumption | with_reducible apply cellarStruck_fld | with_reducible apply momentReads_fld | with_reducible apply modBx_fld | with_reducible apply sendReliable_fld | with_reducible apply crcCompare_fld | with_reducible apply FieldKept.foldl | with_reducible apply FieldKept.foldl_snd | with_reducible apply FieldKept.foldl_fst | refine FieldKept.snd (by with_reducible assumption) ?_)

theorem shelfReads_fld (s : State)
    (hn : [9, 10, 11, 670, 682, 685, 689, 697, 698, 699, 703, 704, 705].contains n = false)
    (h : FieldKept n s0 s) : FieldKept n s0 (shelfReads s) := by
  unfold shelfReads
  repeat' first
    | with_reducible assumption
    | (exact sub_ne _ _ (by decide) hn)
    | (intro e; subst e; exact absurd hn (by decide))
    | (intro x; beta_reduce)
    | with_reducible apply partReport_fld
    | with_reducible apply FieldKept.foldl
    | with_reducible apply FieldKept.foldl_snd
    | with_reducible apply FieldKept.foldl_fst

theorem refreshStaging_fld (s : State) (hn : [373].contains n = false)
    (h : FieldKept n s0 s) : FieldKept n s0 (refreshStaging s) := by
  unfold refreshStaging
  repeat' first
    | with_reducible assumption
    | (exact sub_ne _ _ (by decide) hn)
    | (intro e; subst e; exact absurd hn (by decide))
    | with_reducible apply setb_fld

theorem shelfCommit_fld (e : Nat) (s : State) (hn : [9, 10, 11, 373, 404].contains n = false)
    (h : FieldKept n s0 s) : FieldKept n s0 (shelfCommit e s) := by
  unfold shelfCommit
  repeat' first
    | with_reducible assumption
    | (exact sub_ne _ _ (by decide) hn)
    | (intro e; subst e; exact absurd hn (by decide))
    | (intro x; beta_reduce)
    | (extract_lets +onlyGivenNames x; refine (fun (hx : FieldKept n s0 x) => ?_) (?_ : FieldKept n s0 x) <;> [clear_value x; subst x])
    | (extract_lets +onlyGivenNames x; clear_value x)
    | with_reducible apply FieldKept.ite
    | split
    | with_reducible apply sat_fld
    | with_reducible apply refreshStaging_fld
    | with_reducible apply modJob_fld
    | (with_reducible apply FieldKept.upd; first | with_reducible assumption | with_reducible apply sat_fld | with_reducible apply refreshStaging_fld | with_reducible apply modJob_fld)

theorem setShelfEpoch_fld (k e : Nat) (s : State) (hn : [383, 384].contains n = false)
    (h : FieldKept n s0 s) : FieldKept n s0 (setShelfEpoch k e s) := by
  unfold setShelfEpoch
  repeat' first
    | with_reducible assumption
    | (exact sub_ne _ _ (by decide) hn)
    | (intro e; subst e; exact absurd hn (by decide))
    | with_reducible apply FieldKept.ite
    | split
    | with_reducible apply wr_fld

theorem showSlots_fld (s : State) (hn : [383, 384].contains n = false)
    (h : FieldKept n s0 s) : FieldKept n s0 (showSlots s) := by
  unfold showSlots
  repeat' first
    | with_reducible assumption
    | (exact sub_ne _ _ (by decide) hn)
    | (intro e; subst e; exact absurd hn (by decide))
    | (intro x; beta_reduce)
    | with_reducible apply setShelfEpoch_fld
    | with_reducible apply FieldKept.foldl
    | with_reducible apply FieldKept.foldl_snd
    | with_reducible apply FieldKept.foldl_fst

theorem shelfFail_fld (s : State) (hn : [373, 377].contains n = false)
    (h : FieldKept n s0 s) : FieldKept n s0 (shelfFail s) := by
  unfold shelfFail
  repeat' first
    | with_reducible assumption
    | (exact sub_ne _ _ (by decide) hn)
    | (intro e; subst e; exact absurd hn (by decide))
    | (intro x; beta_reduce)
    | with_reducible apply refreshStaging_fld
    | with_reducible apply setb_fld
    | with_reducible apply modJob_fld
    | (with_reducible apply FieldKept.upd; first | with_reducible assumption | with_reducible apply refreshStaging_fld | with_reducible apply setb_fld | with_reducible apply modJob_fld)

theorem shelfStagingDone_fld (s : State)
    (hn : [9, 10, 11, 304, 330, 331, 333, 337, 338, 341, 342, 343, 346, 347, 348, 350, 351, 354, 372, 373, 377, 383, 384,
    385, 405, 446, 447, 448, 449, 456, 461, 670, 682, 685, 689, 697, 698, 699, 702, 703, 704, 705].contains n = false)
    (h : FieldKept n s0 s) : FieldKept n s0 (shelfStagingDone s) := by
  unfold shelfStagingDone
  repeat' first
    | with_reducible assumption
    | (exact sub_ne _ _ (by decide) hn)
    | (intro e; subst e; exact absurd hn (by decide))
    | (intro x; beta_reduce)
    | (extract_lets +onlyGivenNames x; refine (fun (hx : FieldKept n s0 x) => ?_) (?_ : FieldKept n s0 x) <;> [clear_value x; subst x])
    | (extract_lets +onlyGivenNames x; refine (fun (hx : FieldKept n s0 x.2) => ?_) (?_ : FieldKept n s0 x.2) <;> [clear_value x; subst x])
    | (extract_lets +onlyGivenNames x; clear_value x)
    | with_reducible apply FieldKept.ite
    | split
    | with_reducible apply storePoisoned_fld
    | with_reducible apply shelfReads_fld
    | with_reducible apply setb_fld
    | with_reducible apply wr_fld
    | with_reducible apply modJob_fld
    | with_reducible apply castVote_fld
    | with_reducible apply setShelfEpoch_fld
    | with_reducible apply refreshStaging_fld
    | with_reducible apply driveImage_fld
    | with_reducible apply shelfFail_fld
    | (with_reducible apply FieldKept.upd; first | with_reducible assumption | with_reducible apply storePoisoned_fld | with_reducible apply shelfReads_fld | with_reducible apply setb_fld | with_reducible apply wr_fld | with_reducible apply modJob_fld | with_reducible apply castVote_fld | with_reducible apply setShelfEpoch_fld | with_reducible apply refreshStaging_fld | with_reducible apply driveImage_fld | with_reducible apply shelfFail_fld)

theorem shelfWriteDone_fld (ok : Bool) (s : State) (hn : [9, 10, 11, 373, 377, 383, 384, 403].contains n = false)
    (h : FieldKept n s0 s) : FieldKept n s0 (shelfWriteDone ok s) := by
  unfold shelfWriteDone
  repeat' first
    | with_reducible assumption
    | (exact sub_ne _ _ (by decide) hn)
    | (intro e; subst e; exact absurd hn (by decide))
    | (intro x; beta_reduce)
    | (extract_lets +onlyGivenNames x; refine (fun (hx : FieldKept n s0 x) => ?_) (?_ : FieldKept n s0 x) <;> [clear_value x; subst x])
    | (extract_lets +onlyGivenNames x; refine (fun (hx : FieldKept n s0 x.2) => ?_) (?_ : FieldKept n s0 x.2) <;> [clear_value x; subst x])
    | (extract_lets +onlyGivenNames x; clear_value x)
    | with_reducible apply FieldKept.ite
    | split
    | with_reducible apply modJob_fld
    | with_reducible apply refreshStaging_fld
    | with_reducible apply sat_fld
    | with_reducible apply showSlots_fld
    | with_reducible apply shelfFail_fld
    | with_reducible apply FieldKept.foldl
    | with_reducible apply FieldKept.foldl_snd
    | with_reducible apply FieldKept.foldl_fst
    | (with_reducible apply FieldKept.upd; first | with_reducible assumption | with_reducible apply modJob_fld | with_reducible apply refreshStaging_fld | with_reducible apply sat_fld | with_reducible apply showSlots_fld | with_reducible apply shelfFail_fld | with_reducible apply FieldKept.foldl | with_reducible apply FieldKept.foldl_snd | with_reducible apply FieldKept.foldl_fst)

theorem storeAck_fld (s : State) (hn : [372, 373].contains n = false)
    (h : FieldKept n s0 s) : FieldKept n s0 (storeAck s) := by
  unfold storeAck
  repeat' first
    | with_reducible assumption
    | (exact sub_ne _ _ (by decide) hn)
    | (intro e; subst e; exact absurd hn (by decide))
    | with_reducible apply refreshStaging_fld
    | with_reducible apply setb_fld

theorem flipUpdated_fld (s : State) (n : Nat) (h : FieldKept n s0 s) : FieldKept n s0 (flipUpdated s) := by
  unfold flipUpdated
  repeat' first
    | with_reducible assumption
    | (intro x; beta_reduce)
    | (extract_lets +onlyGivenNames x; refine (fun (hx : FieldKept n s0 x) => ?_) (?_ : FieldKept n s0 x) <;> [clear_value x; subst x])
    | (extract_lets +onlyGivenNames x; refine (fun (hx : FieldKept n s0 x.2) => ?_) (?_ : FieldKept n s0 x.2) <;> [clear_value x; subst x])
    | (extract_lets +onlyGivenNames x; clear_value x)
    | with_reducible apply FieldKept.ite
    | split
    | with_reducible apply FieldKept.foldl
    | with_reducible apply FieldKept.foldl_snd
    | with_reducible apply FieldKept.foldl_fst
    | (with_reducible apply FieldKept.upd; first | with_reducible assumption | with_reducible apply FieldKept.foldl | with_reducible apply FieldKept.foldl_snd | with_reducible apply FieldKept.foldl_fst)

theorem swapPlanes_fld (b : Nat) (s : State) (n : Nat) (h : FieldKept n s0 s) : FieldKept n s0 (swapPlanes b s) := by
  unfold swapPlanes
  repeat' first
    | with_reducible assumption
    | (intro x; beta_reduce)
    | with_reducible apply copyPlane_fld
    | with_reducible apply modBx_fld
    | (with_reducible apply FieldKept.upd; first | with_reducible assumption | with_reducible apply copyPlane_fld | with_reducible apply modBx_fld)

theorem stopDrift_fld (s : State) (n : Nat) (h : FieldKept n s0 s) : FieldKept n s0 (stopDrift s) := by
  unfold stopDrift
  repeat' first
    | with_reducible assumption
    | (with_reducible apply FieldKept.upd; first | with_reducible assumption)

theorem freshStep_fld (s : State) (hn : [304, 337].contains n = false)
    (h : FieldKept n s0 s) : FieldKept n s0 (freshStep s) := by
  unfold freshStep
  repeat' first
    | with_reducible assumption
    | (exact sub_ne _ _ (by decide) hn)
    | (intro e; subst e; exact absurd hn (by decide))
    | (intro x; beta_reduce)
    | (extract_lets +onlyGivenNames x; refine (fun (hx : FieldKept n s0 x) => ?_) (?_ : FieldKept n s0 x) <;> [clear_value x; subst x])
    | (extract_lets +onlyGivenNames x; clear_value x)
    | with_reducible apply modJob_fld
    | with_reducible apply setb_fld
    | with_reducible apply setVoteSent_fld
    | (with_reducible apply FieldKept.upd; first | with_reducible assumption | with_reducible apply modJob_fld | with_reducible apply setb_fld | with_reducible apply setVoteSent_fld)

theorem lossCommit_fld (vetoed : Bool) (s : State) (hn : [9, 10, 11, 339, 349].contains n = false)
    (h : FieldKept n s0 s) : FieldKept n s0 (lossCommit vetoed s) := by
  unfold lossCommit
  repeat' first
    | with_reducible assumption
    | (exact sub_ne _ _ (by decide) hn)
    | (intro e; subst e; exact absurd hn (by decide))
    | (extract_lets +onlyGivenNames x; refine (fun (hx : FieldKept n s0 x) => ?_) (?_ : FieldKept n s0 x) <;> [clear_value x; subst x])
    | (extract_lets +onlyGivenNames x; refine (fun (hx : FieldKept n s0 x.2) => ?_) (?_ : FieldKept n s0 x.2) <;> [clear_value x; subst x])
    | (extract_lets +onlyGivenNames x; clear_value x)
    | with_reducible apply FieldKept.ite
    | split
    | with_reducible apply sat_fld
    | with_reducible apply wr_fld

theorem runCommit_fld (vetoed : Bool) (s : State) (hn : [350, 351, 353, 354].contains n = false)
    (h : FieldKept n s0 s) : FieldKept n s0 (runCommit vetoed s) := by
  unfold runCommit
  repeat' first
    | with_reducible assumption
    | (exact sub_ne _ _ (by decide) hn)
    | (intro e; subst e; exact absurd hn (by decide))
    | (intro x; beta_reduce)
    | with_reducible apply FieldKept.ite
    | split
    | with_reducible apply refreshStarved_fld
    | with_reducible apply wr_fld
    | with_reducible apply FieldKept.foldl
    | with_reducible apply FieldKept.foldl_snd
    | with_reducible apply FieldKept.foldl_fst

theorem noteRebalance_fld (s : State) (n : Nat) (h : FieldKept n s0 s) : FieldKept n s0 (noteRebalance s) := by
  unfold noteRebalance
  repeat' first
    | with_reducible assumption
    | (intro x; beta_reduce)
    | with_reducible apply FieldKept.ite
    | split
    | with_reducible apply modJob_fld
    | (with_reducible apply FieldKept.upd; first | with_reducible assumption | with_reducible apply modJob_fld)

theorem sendStage_fld (p : PendingOp) (s : State)
    (hn : [9, 10, 11, 446, 447, 448, 449, 456, 461].contains n = false)
    (h : FieldKept n s0 s) : FieldKept n s0 (sendStage p s) := by
  unfold sendStage
  repeat' first
    | with_reducible assumption
    | (exact sub_ne _ _ (by decide) hn)
    | (intro e; subst e; exact absurd hn (by decide))
    | (intro x; beta_reduce)
    | with_reducible apply sendReliable_fld
    | with_reducible apply FieldKept.foldl
    | with_reducible apply FieldKept.foldl_snd
    | with_reducible apply FieldKept.foldl_fst
    | refine FieldKept.snd (by with_reducible assumption) ?_

end Sys2Proof.Machine
end

