-- ==== Sys2Proof/Laws/FieldsMember.lean ====
section
/-! SUPPORT. Which register fields the operations of Machine/Member.lean may write: one lemma for each, which names the field numbers it can change. -/

set_option linter.unusedTactic false
set_option linter.unreachableTactic false
set_option linter.unusedVariables false

namespace Sys2Proof.Machine

open Sys2Proof

variable {n : Nat} {s0 : State}

theorem sendPage_fld (rank dst src : Nat) (s : State)
    (hn : [9, 10, 11, 446, 447, 448, 449, 456, 461].contains n = false)
    (h : FieldKept n s0 s) : FieldKept n s0 (sendPage rank dst src s).2 := by
  unfold sendPage
  repeat' first
    | with_reducible assumption
    | (exact sub_ne _ _ (by decide) hn)
    | (intro e; subst e; exact absurd hn (by decide))
    | (intro x; beta_reduce)
    | (extract_lets +onlyGivenNames x; refine (fun (hx : FieldKept n s0 x) => ?_) (?_ : FieldKept n s0 x) <;> [clear_value x; subst x])
    | (extract_lets +onlyGivenNames x; refine (fun (hx : FieldKept n s0 x.2) => ?_) (?_ : FieldKept n s0 x.2) <;> [clear_value x; subst x])
    | (extract_lets +onlyGivenNames x; clear_value x)
    | with_reducible apply FieldKept.ite
    | split
    | with_reducible apply sendWrite_fld
    | with_reducible apply FieldKept.foldl
    | with_reducible apply FieldKept.foldl_snd
    | with_reducible apply FieldKept.foldl_fst
    | refine FieldKept.snd (by with_reducible assumption) ?_

theorem pageWalkSend_fld (b rank : Nat) (master : Bool) (first : Nat) (s : State)
    (hn : [9, 10, 11, 387, 407, 446, 447, 448, 449, 456, 461].contains n = false)
    (h : FieldKept n s0 s) : FieldKept n s0 (pageWalkSend b rank master first s) := by
  unfold pageWalkSend
  repeat' first
    | with_reducible assumption
    | (exact sub_ne _ _ (by decide) hn)
    | (intro e; subst e; exact absurd hn (by decide))
    | (intro x; beta_reduce)
    | (extract_lets +onlyGivenNames x; refine (fun (hx : FieldKept n s0 x) => ?_) (?_ : FieldKept n s0 x) <;> [clear_value x; subst x])
    | (extract_lets +onlyGivenNames x; refine (fun (hx : FieldKept n s0 x.2) => ?_) (?_ : FieldKept n s0 x.2) <;> [clear_value x; subst x])
    | (extract_lets +onlyGivenNames x; clear_value x)
    | with_reducible apply FieldKept.ite
    | split
    | with_reducible apply recellar_fld
    | with_reducible apply advanceTo_fld
    | with_reducible apply sendPage_fld
    | with_reducible apply modJob_fld
    | with_reducible apply refreshCellar_fld
    | with_reducible apply addW_fld
    | refine FieldKept.snd (by with_reducible assumption) ?_
    | (with_reducible apply FieldKept.upd; first | with_reducible assumption | with_reducible apply recellar_fld | with_reducible apply advanceTo_fld | with_reducible apply sendPage_fld | with_reducible apply modJob_fld | with_reducible apply refreshCellar_fld | with_reducible apply addW_fld | refine FieldKept.snd (by with_reducible assumption) ?_)

theorem pageStale_fld (serial id : Nat) (s : State) (hn : [387].contains n = false)
    (h : FieldKept n s0 s) : FieldKept n s0 (pageStale serial id s) := by
  unfold pageStale
  repeat' first
    | with_reducible assumption
    | (exact sub_ne _ _ (by decide) hn)
    | (intro e; subst e; exact absurd hn (by decide))
    | (intro x; beta_reduce)
    | (extract_lets +onlyGivenNames x; refine (fun (hx : FieldKept n s0 x) => ?_) (?_ : FieldKept n s0 x) <;> [clear_value x; subst x])
    | (extract_lets +onlyGivenNames x; refine (fun (hx : FieldKept n s0 x.2) => ?_) (?_ : FieldKept n s0 x.2) <;> [clear_value x; subst x])
    | (extract_lets +onlyGivenNames x; clear_value x)
    | with_reducible apply FieldKept.ite
    | split
    | with_reducible apply refreshCellar_fld
    | with_reducible apply modJob_fld
    | (with_reducible apply FieldKept.upd; first | with_reducible assumption | with_reducible apply refreshCellar_fld | with_reducible apply modJob_fld)

theorem viewFields_fld (v : PendingView) (me : ViewEntry) (s : State)
    (hn : [263, 264, 363, 364, 365, 366, 367, 368, 369, 380, 381, 382, 386, 470].contains n = false)
    (h : FieldKept n s0 s) : FieldKept n s0 (viewFields v me s) := by
  unfold viewFields
  repeat' first
    | with_reducible assumption
    | (exact sub_ne _ _ (by decide) hn)
    | (intro e; subst e; exact absurd hn (by decide))
    | (intro x; beta_reduce)
    | (extract_lets +onlyGivenNames x; refine (fun (hx : FieldKept n s0 x) => ?_) (?_ : FieldKept n s0 x) <;> [clear_value x; subst x])
    | (extract_lets +onlyGivenNames x; refine (fun (hx : FieldKept n s0 x.2) => ?_) (?_ : FieldKept n s0 x.2) <;> [clear_value x; subst x])
    | (extract_lets +onlyGivenNames x; clear_value x)
    | with_reducible apply FieldKept.ite
    | split
    | with_reducible apply modJob_fld
    | with_reducible apply wr_fld
    | with_reducible apply setb_fld
    | with_reducible apply FieldKept.foldl
    | with_reducible apply FieldKept.foldl_snd
    | with_reducible apply FieldKept.foldl_fst
    | (with_reducible apply FieldKept.upd; first | with_reducible assumption | with_reducible apply modJob_fld | with_reducible apply wr_fld | with_reducible apply setb_fld | with_reducible apply FieldKept.foldl | with_reducible apply FieldKept.foldl_snd | with_reducible apply FieldKept.foldl_fst)

theorem setOwner_fld (b owner partner : Nat) (s : State) (n : Nat)
    (h : FieldKept n s0 s) : FieldKept n s0 (setOwner b owner partner s) := by
  unfold setOwner
  repeat' first
    | with_reducible assumption
    | (intro x; beta_reduce)
    | (extract_lets +onlyGivenNames x; refine (fun (hx : FieldKept n s0 x) => ?_) (?_ : FieldKept n s0 x) <;> [clear_value x; subst x])
    | (extract_lets +onlyGivenNames x; clear_value x)
    | with_reducible apply storeMem_fld
    | with_reducible apply modJob_fld
    | (with_reducible apply FieldKept.upd; first | with_reducible assumption | with_reducible apply storeMem_fld | with_reducible apply modJob_fld)

theorem dropSerials_fld (s : State) (n : Nat) (h : FieldKept n s0 s) : FieldKept n s0 (dropSerials s) := by
  unfold dropSerials
  repeat' first
    | with_reducible assumption
    | (intro x; beta_reduce)
    | (extract_lets +onlyGivenNames x; refine (fun (hx : FieldKept n s0 x) => ?_) (?_ : FieldKept n s0 x) <;> [clear_value x; subst x])
    | (extract_lets +onlyGivenNames x; clear_value x)
    | with_reducible apply FieldKept.ite
    | split
    | with_reducible apply dropAwaits_fld
    | with_reducible apply modJob_fld
    | (with_reducible apply FieldKept.upd; first | with_reducible assumption | with_reducible apply dropAwaits_fld | with_reducible apply modJob_fld)

theorem joinZero_fld (s : State) (n : Nat) (h : FieldKept n s0 s) : FieldKept n s0 (joinZero s) := by
  unfold joinZero
  repeat' first
    | with_reducible assumption
    | (extract_lets +onlyGivenNames x; refine (fun (hx : FieldKept n s0 x) => ?_) (?_ : FieldKept n s0 x) <;> [clear_value x; subst x])
    | (extract_lets +onlyGivenNames x; clear_value x)
    | with_reducible apply zeroPages_fld

theorem rebuildOpen_fld (b : Nat) (gone : List Nat) (s : State)
    (hn : [9, 10, 11, 196, 197, 198, 204, 205, 265, 266, 267, 268, 269, 285, 286, 287, 288, 289, 290, 291, 292, 293, 294,
    295, 296, 299, 307, 446, 447, 448, 449, 456, 461, 682, 686, 688, 689].contains n = false)
    (h : FieldKept n s0 s) : FieldKept n s0 (rebuildOpen b gone s) := by
  unfold rebuildOpen
  repeat' first
    | with_reducible assumption
    | (exact sub_ne _ _ (by decide) hn)
    | (intro e; subst e; exact absurd hn (by decide))
    | (intro x; beta_reduce)
    | (extract_lets +onlyGivenNames x; refine (fun (hx : FieldKept n s0 x) => ?_) (?_ : FieldKept n s0 x) <;> [clear_value x; subst x])
    | (extract_lets +onlyGivenNames x; refine (fun (hx : FieldKept n s0 x.2) => ?_) (?_ : FieldKept n s0 x.2) <;> [clear_value x; subst x])
    | (extract_lets +onlyGivenNames x; clear_value x)
    | with_reducible apply FieldKept.ite
    | split
    | with_reducible apply exchangeLog_fld
    | with_reducible apply sat_fld
    | with_reducible apply zeroAcc_fld
    | with_reducible apply modBx_fld
    | with_reducible apply pullFirst_fld
    | with_reducible apply resendOwn_fld
    | with_reducible apply FieldKept.foldl
    | with_reducible apply FieldKept.foldl_snd
    | with_reducible apply FieldKept.foldl_fst
    | (with_reducible apply FieldKept.upd; first | with_reducible assumption | with_reducible apply exchangeLog_fld | with_reducible apply sat_fld | with_reducible apply zeroAcc_fld | with_reducible apply modBx_fld | with_reducible apply pullFirst_fld | with_reducible apply resendOwn_fld | with_reducible apply FieldKept.foldl | with_reducible apply FieldKept.foldl_snd | with_reducible apply FieldKept.foldl_fst)

theorem ownerStays_fld (b : Nat) (gone : List Nat) (s : State)
    (hn : [9, 10, 11, 196, 197, 198, 204, 205, 265, 266, 267, 268, 269, 285, 286, 287, 288, 289, 290, 291, 292, 293, 294,
    295, 296, 299, 307, 446, 447, 448, 449, 456, 461, 682, 686, 688, 689].contains n = false)
    (h : FieldKept n s0 s) : FieldKept n s0 (ownerStays b gone s) := by
  unfold ownerStays
  repeat' first
    | with_reducible assumption
    | (exact sub_ne _ _ (by decide) hn)
    | (intro e; subst e; exact absurd hn (by decide))
    | (intro x; beta_reduce)
    | (extract_lets +onlyGivenNames x; refine (fun (hx : FieldKept n s0 x) => ?_) (?_ : FieldKept n s0 x) <;> [clear_value x; subst x])
    | (extract_lets +onlyGivenNames x; refine (fun (hx : FieldKept n s0 x.2) => ?_) (?_ : FieldKept n s0 x.2) <;> [clear_value x; subst x])
    | (extract_lets +onlyGivenNames x; clear_value x)
    | with_reducible apply FieldKept.ite
    | split
    | with_reducible apply modBx_fld
    | with_reducible apply rebuild_fld
    | with_reducible apply sendShard_fld
    | with_reducible apply rebuildOpen_fld
    | with_reducible apply tryClose_fld
    | (with_reducible apply FieldKept.upd; first | with_reducible assumption | with_reducible apply modBx_fld | with_reducible apply rebuild_fld | with_reducible apply sendShard_fld | with_reducible apply rebuildOpen_fld | with_reducible apply tryClose_fld)

theorem rollForward_fld (b : Nat) (s : State)
    (hn : [9, 10, 11, 196, 197, 198, 204, 205, 265, 266, 267, 268, 269, 285, 286, 287, 288, 289, 290, 291, 292, 293, 294,
    295, 296, 299, 307, 446, 447, 448, 449, 456, 461, 682, 686, 688, 689].contains n = false)
    (h : FieldKept n s0 s) : FieldKept n s0 (rollForward b s) := by
  unfold rollForward
  repeat' first
    | with_reducible assumption
    | (exact sub_ne _ _ (by decide) hn)
    | (intro e; subst e; exact absurd hn (by decide))
    | (intro x; beta_reduce)
    | (extract_lets +onlyGivenNames x; refine (fun (hx : FieldKept n s0 x) => ?_) (?_ : FieldKept n s0 x) <;> [clear_value x; subst x])
    | (extract_lets +onlyGivenNames x; clear_value x)
    | with_reducible apply FieldKept.ite
    | split
    | with_reducible apply modBx_fld
    | with_reducible apply rebuild_fld
    | with_reducible apply resendOwn_fld
    | with_reducible apply zeroAcc_fld
    | (with_reducible apply FieldKept.upd; first | with_reducible assumption | with_reducible apply modBx_fld | with_reducible apply rebuild_fld | with_reducible apply resendOwn_fld | with_reducible apply zeroAcc_fld)

theorem replayDeltas_fld (b : Nat) (s : State)
    (hn : [9, 10, 11, 299, 306, 307, 315, 317, 670, 682, 685, 689, 697, 698, 699, 703, 704, 705].contains n = false)
    (h : FieldKept n s0 s) : FieldKept n s0 (replayDeltas b s) := by
  unfold replayDeltas
  repeat' first
    | with_reducible assumption
    | (exact sub_ne _ _ (by decide) hn)
    | (intro e; subst e; exact absurd hn (by decide))
    | (intro x; beta_reduce)
    | (extract_lets +onlyGivenNames x; refine (fun (hx : FieldKept n s0 x) => ?_) (?_ : FieldKept n s0 x) <;> [clear_value x; subst x])
    | (extract_lets +onlyGivenNames x; refine (fun (hx : FieldKept n s0 x.2) => ?_) (?_ : FieldKept n s0 x.2) <;> [clear_value x; subst x])
    | (extract_lets +onlyGivenNames x; clear_value x)
    | with_reducible apply FieldKept.ite
    | split
    | with_reducible apply modJob_fld
    | with_reducible apply ownDeltas_fld
    | with_reducible apply FieldKept.foldl
    | with_reducible apply FieldKept.foldl_snd
    | with_reducible apply FieldKept.foldl_fst
    | (with_reducible apply FieldKept.upd; first | with_reducible assumption | with_reducible apply modJob_fld | with_reducible apply ownDeltas_fld | with_reducible apply FieldKept.foldl | with_reducible apply FieldKept.foldl_snd | with_reducible apply FieldKept.foldl_fst)

theorem rollDeltas_fld (b : Nat) (s : State)
    (hn : [9, 10, 11, 265, 266, 267, 295, 299, 306, 307, 315, 317, 446, 447, 448, 449, 456, 461, 670, 682, 685, 689, 697,
    698, 699, 703, 704, 705].contains n = false) (h : FieldKept n s0 s) : FieldKept n s0 (rollDeltas b s) := by
  unfold rollDeltas
  repeat' first
    | with_reducible assumption
    | (exact sub_ne _ _ (by decide) hn)
    | (intro e; subst e; exact absurd hn (by decide))
    | (intro x; beta_reduce)
    | (extract_lets +onlyGivenNames x; refine (fun (hx : FieldKept n s0 x) => ?_) (?_ : FieldKept n s0 x) <;> [clear_value x; subst x])
    | (extract_lets +onlyGivenNames x; refine (fun (hx : FieldKept n s0 x.2) => ?_) (?_ : FieldKept n s0 x.2) <;> [clear_value x; subst x])
    | (extract_lets +onlyGivenNames x; clear_value x)
    | with_reducible apply FieldKept.ite
    | split
    | with_reducible apply setIncluded_fld
    | with_reducible apply modBx_fld
    | with_reducible apply sendNotice_fld
    | with_reducible apply shardOut_fld
    | with_reducible apply flushDeltas_fld
    | with_reducible apply replayDeltas_fld
    | (with_reducible apply FieldKept.upd; first | with_reducible assumption | with_reducible apply setIncluded_fld | with_reducible apply modBx_fld | with_reducible apply sendNotice_fld | with_reducible apply shardOut_fld | with_reducible apply flushDeltas_fld | with_reducible apply replayDeltas_fld)

theorem stepBucket_fld (b old : Nat) (gone : List Nat) (s : State)
    (hn : [9, 10, 11, 196, 197, 198, 204, 205, 265, 266, 267, 268, 269, 285, 286, 287, 288, 289, 290, 291, 292, 293, 294,
    295, 296, 299, 306, 307, 315, 317, 446, 447, 448, 449, 456, 461, 670, 682, 685, 686, 688, 689, 697, 698, 699, 703,
    704, 705].contains n = false) (h : FieldKept n s0 s) : FieldKept n s0 (stepBucket b old gone s) := by
  unfold stepBucket
  repeat' first
    | with_reducible assumption
    | (exact sub_ne _ _ (by decide) hn)
    | (intro e; subst e; exact absurd hn (by decide))
    | (intro x; beta_reduce)
    | (extract_lets +onlyGivenNames x; refine (fun (hx : FieldKept n s0 x) => ?_) (?_ : FieldKept n s0 x) <;> [clear_value x; subst x])
    | (extract_lets +onlyGivenNames x; clear_value x)
    | with_reducible apply FieldKept.ite
    | split
    | with_reducible apply modJob_fld
    | with_reducible apply ownerStays_fld
    | with_reducible apply rollDeltas_fld
    | with_reducible apply rollForward_fld
    | with_reducible apply resendOwn_fld
    | (with_reducible apply FieldKept.upd; first | with_reducible assumption | with_reducible apply modJob_fld | with_reducible apply ownerStays_fld | with_reducible apply rollDeltas_fld | with_reducible apply rollForward_fld | with_reducible apply resendOwn_fld)

theorem moveVotes_fld (leader : Nat) (s : State) (hn : [9, 10, 11, 446, 447, 448, 449, 456, 461].contains n = false)
    (h : FieldKept n s0 s) : FieldKept n s0 (moveVotes leader s) := by
  unfold moveVotes
  repeat' first
    | with_reducible assumption
    | (exact sub_ne _ _ (by decide) hn)
    | (intro e; subst e; exact absurd hn (by decide))
    | (intro x; beta_reduce)
    | (extract_lets +onlyGivenNames x; refine (fun (hx : FieldKept n s0 x) => ?_) (?_ : FieldKept n s0 x) <;> [clear_value x; subst x])
    | (extract_lets +onlyGivenNames x; clear_value x)
    | with_reducible apply FieldKept.ite
    | split
    | with_reducible apply modJob_fld
    | with_reducible apply tryDecide_fld
    | with_reducible apply sendVote_fld
    | (with_reducible apply FieldKept.upd; first | with_reducible assumption | with_reducible apply modJob_fld | with_reducible apply tryDecide_fld | with_reducible apply sendVote_fld)

theorem deriveOwners_fld (v : PendingView) (s : State) (n : Nat)
    (h : FieldKept n s0 s) : FieldKept n s0 (deriveOwners v s) := by
  unfold deriveOwners
  repeat' first
    | with_reducible assumption
    | (intro x; beta_reduce)
    | (extract_lets +onlyGivenNames x; refine (fun (hx : FieldKept n s0 x) => ?_) (?_ : FieldKept n s0 x) <;> [clear_value x; subst x])
    | (extract_lets +onlyGivenNames x; refine (fun (hx : FieldKept n s0 x.2) => ?_) (?_ : FieldKept n s0 x.2) <;> [clear_value x; subst x])
    | (extract_lets +onlyGivenNames x; clear_value x)
    | with_reducible apply FieldKept.ite
    | split
    | with_reducible apply setOwner_fld
    | with_reducible apply FieldKept.foldl
    | with_reducible apply FieldKept.foldl_snd
    | with_reducible apply FieldKept.foldl_fst

theorem moveBucket_fld (b old : Nat) (s : State) (n : Nat)
    (h : FieldKept n s0 s) : FieldKept n s0 (moveBucket b old s) := by
  unfold moveBucket
  repeat' first
    | with_reducible assumption
    | (intro x; beta_reduce)
    | (extract_lets +onlyGivenNames x; refine (fun (hx : FieldKept n s0 x) => ?_) (?_ : FieldKept n s0 x) <;> [clear_value x; subst x])
    | (extract_lets +onlyGivenNames x; clear_value x)
    | with_reducible apply FieldKept.ite
    | split
    | with_reducible apply modBx_fld
    | with_reducible apply zeroAcc_fld
    | (with_reducible apply FieldKept.upd; first | with_reducible assumption | with_reducible apply modBx_fld | with_reducible apply zeroAcc_fld)

theorem cellarWalks_fld (b : Nat) (old : Nat × Nat) (was : Bool) (joined : List Nat) (s : State)
    (hn : [387].contains n = false) (h : FieldKept n s0 s) : FieldKept n s0 (cellarWalks b old was joined s) := by
  unfold cellarWalks
  repeat' first
    | with_reducible assumption
    | (exact sub_ne _ _ (by decide) hn)
    | (intro e; subst e; exact absurd hn (by decide))
    | (intro x; beta_reduce)
    | (extract_lets +onlyGivenNames x; refine (fun (hx : FieldKept n s0 x) => ?_) (?_ : FieldKept n s0 x) <;> [clear_value x; subst x])
    | (extract_lets +onlyGivenNames x; refine (fun (hx : FieldKept n s0 x.2) => ?_) (?_ : FieldKept n s0 x.2) <;> [clear_value x; subst x])
    | (extract_lets +onlyGivenNames x; clear_value x)
    | with_reducible apply FieldKept.ite
    | split
    | with_reducible apply newPartner_fld
    | with_reducible apply modBx_fld
    | with_reducible apply recellar_fld
    | with_reducible apply startWalk_fld
    | with_reducible apply FieldKept.foldl
    | with_reducible apply FieldKept.foldl_snd
    | with_reducible apply FieldKept.foldl_fst
    | (with_reducible apply FieldKept.upd; first | with_reducible assumption | with_reducible apply newPartner_fld | with_reducible apply modBx_fld | with_reducible apply recellar_fld | with_reducible apply startWalk_fld | with_reducible apply FieldKept.foldl | with_reducible apply FieldKept.foldl_snd | with_reducible apply FieldKept.foldl_fst)

theorem dropWalks_fld (s : State) (hn : [387].contains n = false)
    (h : FieldKept n s0 s) : FieldKept n s0 (dropWalks s) := by
  unfold dropWalks
  repeat' first
    | with_reducible assumption
    | (exact sub_ne _ _ (by decide) hn)
    | (intro e; subst e; exact absurd hn (by decide))
    | (intro x; beta_reduce)
    | (extract_lets +onlyGivenNames x; refine (fun (hx : FieldKept n s0 x) => ?_) (?_ : FieldKept n s0 x) <;> [clear_value x; subst x])
    | (extract_lets +onlyGivenNames x; clear_value x)
    | with_reducible apply refreshCellar_fld
    | with_reducible apply modJob_fld
    | (with_reducible apply FieldKept.upd; first | with_reducible assumption | with_reducible apply refreshCellar_fld | with_reducible apply modJob_fld)

theorem noteLost_fld (s : State) (hn : [370, 376, 389].contains n = false)
    (h : FieldKept n s0 s) : FieldKept n s0 (noteLost s) := by
  unfold noteLost
  repeat' first
    | with_reducible assumption
    | (exact sub_ne _ _ (by decide) hn)
    | (intro e; subst e; exact absurd hn (by decide))
    | with_reducible apply loseBuckets_fld

theorem noJoin_fld (s : State) (hn : [364, 365, 366, 378].contains n = false)
    (h : FieldKept n s0 s) : FieldKept n s0 (noJoin s) := by
  unfold noJoin
  repeat' first
    | with_reducible assumption
    | (exact sub_ne _ _ (by decide) hn)
    | (intro e; subst e; exact absurd hn (by decide))
    | with_reducible apply withdraw_fld
    | with_reducible apply setb_fld

theorem readRecords_fld (e : Nat) (s : State) (n : Nat)
    (h : FieldKept n s0 s) : FieldKept n s0 (readRecords e s) := by
  unfold readRecords
  repeat' first
    | with_reducible assumption
    | with_reducible apply FieldKept.ite
    | split
    | with_reducible apply driveReadImage_fld

theorem sendBytes_fld (rank addr : Nat) (bytes : List Byte) (s : State)
    (hn : [9, 10, 11, 446, 447, 448, 449, 456, 461].contains n = false)
    (h : FieldKept n s0 s) : FieldKept n s0 (sendBytes rank addr bytes s) := by
  unfold sendBytes
  repeat' first
    | with_reducible assumption
    | (exact sub_ne _ _ (by decide) hn)
    | (intro e; subst e; exact absurd hn (by decide))
    | (intro x; beta_reduce)
    | with_reducible apply sendReliable_fld
    | with_reducible apply FieldKept.foldl
    | with_reducible apply FieldKept.foldl_snd
    | with_reducible apply FieldKept.foldl_fst
    | refine FieldKept.snd (by with_reducible assumption) ?_

theorem sendRecord_fld (b : Nat) (planes : List Byte) (s : State)
    (hn : [9, 10, 11, 446, 447, 448, 449, 456, 461].contains n = false)
    (h : FieldKept n s0 s) : FieldKept n s0 (sendRecord b planes s) := by
  unfold sendRecord
  repeat' first
    | with_reducible assumption
    | (exact sub_ne _ _ (by decide) hn)
    | (intro e; subst e; exact absurd hn (by decide))
    | (intro x; beta_reduce)
    | (extract_lets +onlyGivenNames x; refine (fun (hx : FieldKept n s0 x) => ?_) (?_ : FieldKept n s0 x) <;> [clear_value x; subst x])
    | (extract_lets +onlyGivenNames x; refine (fun (hx : FieldKept n s0 x.2) => ?_) (?_ : FieldKept n s0 x.2) <;> [clear_value x; subst x])
    | (extract_lets +onlyGivenNames x; clear_value x)
    | with_reducible apply FieldKept.ite
    | split
    | with_reducible apply free_fld
    | with_reducible apply sendBytes_fld
    | with_reducible apply FieldKept.foldl
    | with_reducible apply FieldKept.foldl_snd
    | with_reducible apply FieldKept.foldl_fst
    | refine FieldKept.snd (by with_reducible assumption) ?_

theorem shelfSend_fld (e : Nat) (s : State) (hn : [9, 10, 11, 446, 447, 448, 449, 456, 461].contains n = false)
    (h : FieldKept n s0 s) : FieldKept n s0 (shelfSend e s) := by
  unfold shelfSend
  repeat' first
    | with_reducible assumption
    | (exact sub_ne _ _ (by decide) hn)
    | (intro e; subst e; exact absurd hn (by decide))
    | (intro x; beta_reduce)
    | with_reducible apply FieldKept.ite
    | split
    | with_reducible apply sendRecord_fld
    | with_reducible apply readRecords_fld
    | with_reducible apply FieldKept.foldl
    | with_reducible apply FieldKept.foldl_snd
    | with_reducible apply FieldKept.foldl_fst

theorem applyView_fld (v : PendingView) (me : ViewEntry) (s : State)
    (hn : [4, 9, 10, 11, 159, 193, 196, 197, 198, 204, 205, 263, 264, 265, 266, 267, 268, 269, 285, 286, 287, 288, 289,
    290, 291, 292, 293, 294, 295, 296, 299, 304, 306, 307, 315, 317, 330, 331, 333, 334, 335, 337, 338, 341, 342, 343,
    346, 347, 348, 350, 351, 354, 363, 364, 365, 366, 367, 368, 369, 370, 371, 376, 378, 380, 381, 382, 386, 387, 389,
    398, 405, 408, 446, 447, 448, 449, 456, 461, 470, 670, 682, 685, 686, 688, 689, 697, 698, 699, 703, 704,
    705].contains n = false) (h : FieldKept n s0 s) : FieldKept n s0 (applyView v me s) := by
  unfold applyView
  repeat' first
    | with_reducible assumption
    | (exact sub_ne _ _ (by decide) hn)
    | (intro e; subst e; exact absurd hn (by decide))
    | (intro x; beta_reduce)
    | (extract_lets +onlyGivenNames x; refine (fun (hx : FieldKept n s0 x) => ?_) (?_ : FieldKept n s0 x) <;> [clear_value x; subst x])
    | (extract_lets +onlyGivenNames x; refine (fun (hx : FieldKept n s0 x.2) => ?_) (?_ : FieldKept n s0 x.2) <;> [clear_value x; subst x])
    | (extract_lets +onlyGivenNames x; clear_value x)
    | with_reducible apply FieldKept.ite
    | split
    | with_reducible apply cellarStruck_fld
    | with_reducible apply deriveOwners_fld
    | with_reducible apply viewFields_fld
    | with_reducible apply mixerTest_fld
    | with_reducible apply larderFlushAll_fld
    | with_reducible apply noJoin_fld
    | with_reducible apply noteLost_fld
    | with_reducible apply dropSerials_fld
    | with_reducible apply setb_fld
    | with_reducible apply moveBucket_fld
    | with_reducible apply resendOwn_fld
    | with_reducible apply stepBucket_fld
    | with_reducible apply dropWalks_fld
    | with_reducible apply shelfSend_fld
    | with_reducible apply cellarWalks_fld
    | with_reducible apply joinZero_fld
    | with_reducible apply wr_fld
    | with_reducible apply sat_fld
    | with_reducible apply setWaitExtra_fld
    | with_reducible apply settle_fld
    | with_reducible apply moveVotes_fld
    | with_reducible apply refreshCellar_fld
    | with_reducible apply refreshVeto_fld
    | with_reducible apply FieldKept.foldl
    | with_reducible apply FieldKept.foldl_snd
    | with_reducible apply FieldKept.foldl_fst

theorem loadBucket_fld (b : Nat) (planes : List Byte) (s : State) (n : Nat)
    (h : FieldKept n s0 s) : FieldKept n s0 (loadBucket b planes s) := by
  unfold loadBucket
  repeat' first
    | with_reducible assumption
    | (intro x; beta_reduce)
    | (extract_lets +onlyGivenNames x; refine (fun (hx : FieldKept n s0 x) => ?_) (?_ : FieldKept n s0 x) <;> [clear_value x; subst x])
    | (extract_lets +onlyGivenNames x; refine (fun (hx : FieldKept n s0 x.2) => ?_) (?_ : FieldKept n s0 x.2) <;> [clear_value x; subst x])
    | (extract_lets +onlyGivenNames x; clear_value x)
    | with_reducible apply FieldKept.ite
    | split
    | with_reducible apply storeMem_fld
    | with_reducible apply FieldKept.foldl
    | with_reducible apply FieldKept.foldl_snd
    | with_reducible apply FieldKept.foldl_fst

theorem stagingLoaded_fld (s : State) (n : Nat) (h : FieldKept n s0 s) : FieldKept n s0 (stagingLoaded s) := by
  unfold stagingLoaded
  repeat' first
    | with_reducible assumption
    | (intro x; beta_reduce)
    | (extract_lets +onlyGivenNames x; refine (fun (hx : FieldKept n s0 x) => ?_) (?_ : FieldKept n s0 x) <;> [clear_value x; subst x])
    | (extract_lets +onlyGivenNames x; refine (fun (hx : FieldKept n s0 x.2) => ?_) (?_ : FieldKept n s0 x.2) <;> [clear_value x; subst x])
    | (extract_lets +onlyGivenNames x; clear_value x)
    | with_reducible apply FieldKept.ite
    | split
    | with_reducible apply loadBucket_fld
    | with_reducible apply FieldKept.foldl
    | with_reducible apply FieldKept.foldl_snd
    | with_reducible apply FieldKept.foldl_fst

theorem sendMasters_fld (b : Nat) (s : State) (hn : [9, 10, 11, 446, 447, 448, 449, 456, 461].contains n = false)
    (h : FieldKept n s0 s) : FieldKept n s0 (sendMasters b s) := by
  unfold sendMasters
  repeat' first
    | with_reducible assumption
    | (exact sub_ne _ _ (by decide) hn)
    | (intro e; subst e; exact absurd hn (by decide))
    | (intro x; beta_reduce)
    | (extract_lets +onlyGivenNames x; refine (fun (hx : FieldKept n s0 x) => ?_) (?_ : FieldKept n s0 x) <;> [clear_value x; subst x])
    | (extract_lets +onlyGivenNames x; refine (fun (hx : FieldKept n s0 x.2) => ?_) (?_ : FieldKept n s0 x.2) <;> [clear_value x; subst x])
    | (extract_lets +onlyGivenNames x; clear_value x)
    | with_reducible apply sendWrite_fld
    | with_reducible apply FieldKept.foldl
    | with_reducible apply FieldKept.foldl_snd
    | with_reducible apply FieldKept.foldl_fst
    | refine FieldKept.snd (by with_reducible assumption) ?_

theorem zeroResidual_fld (b : Nat) (s : State) (n : Nat)
    (h : FieldKept n s0 s) : FieldKept n s0 (zeroResidual b s) := by
  unfold zeroResidual
  repeat' first
    | with_reducible assumption
    | (extract_lets +onlyGivenNames x; refine (fun (hx : FieldKept n s0 x) => ?_) (?_ : FieldKept n s0 x) <;> [clear_value x; subst x])
    | (extract_lets +onlyGivenNames x; clear_value x)
    | with_reducible apply FieldKept.ite
    | split
    | with_reducible apply storeMem_fld

theorem restoreDone_fld (loads : List (Nat × List Byte)) (s : State)
    (hn : [9, 10, 11, 265, 266, 304, 307, 337, 370, 371, 387, 389, 446, 447, 448, 449, 456, 461, 603, 604].contains n =
    false) (h : FieldKept n s0 s) : FieldKept n s0 (restoreDone loads s) := by
  unfold restoreDone
  repeat' first
    | with_reducible assumption
    | (exact sub_ne _ _ (by decide) hn)
    | (intro e; subst e; exact absurd hn (by decide))
    | (intro x; beta_reduce)
    | (extract_lets +onlyGivenNames x; refine (fun (hx : FieldKept n s0 x) => ?_) (?_ : FieldKept n s0 x) <;> [clear_value x; subst x])
    | (extract_lets +onlyGivenNames x; refine (fun (hx : FieldKept n s0 x.2) => ?_) (?_ : FieldKept n s0 x.2) <;> [clear_value x; subst x])
    | (extract_lets +onlyGivenNames x; clear_value x)
    | with_reducible apply FieldKept.ite
    | split
    | with_reducible apply readRecords_fld
    | with_reducible apply loadBucket_fld
    | with_reducible apply sendMasters_fld
    | with_reducible apply wr_fld
    | with_reducible apply zeroResidual_fld
    | with_reducible apply modBx_fld
    | with_reducible apply openAll_fld
    | with_reducible apply freshStep_fld
    | with_reducible apply modJob_fld
    | with_reducible apply setb_fld
    | with_reducible apply newPartner_fld
    | with_reducible apply recellar_fld
    | with_reducible apply refreshCellar_fld
    | with_reducible apply FieldKept.foldl
    | with_reducible apply FieldKept.foldl_snd
    | with_reducible apply FieldKept.foldl_fst
    | (with_reducible apply FieldKept.upd; first | with_reducible assumption | with_reducible apply readRecords_fld | with_reducible apply loadBucket_fld | with_reducible apply sendMasters_fld | with_reducible apply wr_fld | with_reducible apply zeroResidual_fld | with_reducible apply modBx_fld | with_reducible apply openAll_fld | with_reducible apply freshStep_fld | with_reducible apply modJob_fld | with_reducible apply setb_fld | with_reducible apply newPartner_fld | with_reducible apply recellar_fld | with_reducible apply refreshCellar_fld | with_reducible apply FieldKept.foldl | with_reducible apply FieldKept.foldl_snd | with_reducible apply FieldKept.foldl_fst)

end Sys2Proof.Machine
end

