-- ==== Sys2Proof/Laws/FieldsPtp.lean ====
section
/-! SUPPORT. Which register fields the operations of Machine/Ptp.lean may write: one lemma for each, which names the field numbers it can change. -/

set_option linter.unusedTactic false
set_option linter.unreachableTactic false
set_option linter.unusedVariables false

namespace Sys2Proof.Machine

open Sys2Proof

variable {n : Nat} {s0 : State}

theorem stepTime_fld (units : Int) (s : State) (hn : [484].contains n = false)
    (h : FieldKept n s0 s) : FieldKept n s0 (stepTime units s) := by
  unfold stepTime
  repeat' first
    | with_reducible assumption
    | (exact sub_ne _ _ (by decide) hn)
    | (intro e; subst e; exact absurd hn (by decide))
    | (extract_lets +onlyGivenNames x; refine (fun (hx : FieldKept n s0 x) => ?_) (?_ : FieldKept n s0 x) <;> [clear_value x; subst x])
    | (extract_lets +onlyGivenNames x; clear_value x)
    | with_reducible apply advanceTo_fld
    | with_reducible apply setb_fld
    | (with_reducible apply FieldKept.upd; first | with_reducible assumption | with_reducible apply advanceTo_fld | with_reducible apply setb_fld)

theorem stepNs_fld (amount : Int) (s : State) (hn : [484].contains n = false)
    (h : FieldKept n s0 s) : FieldKept n s0 (stepNs amount s) := by
  unfold stepNs
  repeat' first
    | with_reducible assumption
    | (exact sub_ne _ _ (by decide) hn)
    | (intro e; subst e; exact absurd hn (by decide))
    | with_reducible apply FieldKept.ite
    | split
    | with_reducible apply stepTime_fld

theorem latchTime_fld (s : State) (hn : [476, 477, 479].contains n = false)
    (h : FieldKept n s0 s) : FieldKept n s0 (latchTime s) := by
  unfold latchTime
  repeat' first
    | with_reducible assumption
    | (exact sub_ne _ _ (by decide) hn)
    | (intro e; subst e; exact absurd hn (by decide))
    | with_reducible apply wr_fld

theorem timeNsRead_fld (s : State) (hn : [476, 477, 479].contains n = false)
    (h : FieldKept n s0 s) : FieldKept n s0 (timeNsRead s) := by
  unfold timeNsRead
  repeat' first
    | with_reducible assumption
    | (exact sub_ne _ _ (by decide) hn)
    | (intro e; subst e; exact absurd hn (by decide))
    | with_reducible apply FieldKept.ite
    | split
    | with_reducible apply emit_fld
    | with_reducible apply latchTime_fld

theorem portsReady_fld (s : State) (hn : [3, 7, 8].contains n = false)
    (h : FieldKept n s0 s) : FieldKept n s0 (portsReady s) := by
  unfold portsReady
  repeat' first
    | with_reducible assumption
    | (exact sub_ne _ _ (by decide) hn)
    | (intro e; subst e; exact absurd hn (by decide))
    | (intro x; beta_reduce)
    | with_reducible apply portReady_fld
    | with_reducible apply FieldKept.foldl
    | with_reducible apply FieldKept.foldl_snd
    | with_reducible apply FieldKept.foldl_fst

theorem lockLost_fld (s : State) (hn : [9, 10, 11, 482, 483, 485, 497].contains n = false)
    (h : FieldKept n s0 s) : FieldKept n s0 (lockLost s) := by
  unfold lockLost
  repeat' first
    | with_reducible assumption
    | (exact sub_ne _ _ (by decide) hn)
    | (intro e; subst e; exact absurd hn (by decide))
    | (extract_lets +onlyGivenNames x; refine (fun (hx : FieldKept n s0 x) => ?_) (?_ : FieldKept n s0 x) <;> [clear_value x; subst x])
    | (extract_lets +onlyGivenNames x; clear_value x)
    | with_reducible apply FieldKept.ite
    | split
    | with_reducible apply setb_fld
    | with_reducible apply sat_fld
    | with_reducible apply wr_fld

theorem lockWon_fld (s : State) (hn : [3, 7, 8, 482, 485].contains n = false)
    (h : FieldKept n s0 s) : FieldKept n s0 (lockWon s) := by
  unfold lockWon
  repeat' first
    | with_reducible assumption
    | (exact sub_ne _ _ (by decide) hn)
    | (intro e; subst e; exact absurd hn (by decide))
    | (extract_lets +onlyGivenNames x; refine (fun (hx : FieldKept n s0 x) => ?_) (?_ : FieldKept n s0 x) <;> [clear_value x; subst x])
    | (extract_lets +onlyGivenNames x; clear_value x)
    | with_reducible apply FieldKept.ite
    | split
    | with_reducible apply setb_fld
    | with_reducible apply portsReady_fld
    | with_reducible apply wr_fld
    | (with_reducible apply FieldKept.upd; first | with_reducible assumption | with_reducible apply setb_fld | with_reducible apply portsReady_fld | with_reducible apply wr_fld)

theorem judgeOffset_fld (off : Rat) (s : State) (hn : [3, 7, 8, 9, 10, 11, 482, 483, 485, 497].contains n = false)
    (h : FieldKept n s0 s) : FieldKept n s0 (judgeOffset off s).2 := by
  unfold judgeOffset
  repeat' first
    | with_reducible assumption
    | (exact sub_ne _ _ (by decide) hn)
    | (intro e; subst e; exact absurd hn (by decide))
    | (extract_lets +onlyGivenNames x; refine (fun (hx : FieldKept n s0 x) => ?_) (?_ : FieldKept n s0 x) <;> [clear_value x; subst x])
    | (extract_lets +onlyGivenNames x; clear_value x)
    | with_reducible apply FieldKept.ite
    | split
    | with_reducible apply lockWon_fld
    | with_reducible apply lockLost_fld
    | (with_reducible apply FieldKept.upd; first | with_reducible assumption | with_reducible apply lockWon_fld | with_reducible apply lockLost_fld)

theorem servoStep_fld (e : Rat) (hold : Bool) (s : State) (hn : [480, 489].contains n = false)
    (h : FieldKept n s0 s) : FieldKept n s0 (servoStep e hold s) := by
  unfold servoStep
  repeat' first
    | with_reducible assumption
    | (exact sub_ne _ _ (by decide) hn)
    | (intro e; subst e; exact absurd hn (by decide))
    | (extract_lets +onlyGivenNames x; refine (fun (hx : FieldKept n s0 x) => ?_) (?_ : FieldKept n s0 x) <;> [clear_value x; subst x])
    | (extract_lets +onlyGivenNames x; clear_value x)
    | with_reducible apply FieldKept.ite
    | split
    | with_reducible apply wr_fld
    | (with_reducible apply FieldKept.upd; first | with_reducible assumption | with_reducible apply wr_fld)

theorem servo_fld (t1 t2 : Int) (s : State)
    (hn : [3, 7, 8, 9, 10, 11, 480, 482, 483, 484, 485, 487, 489, 492, 496, 497].contains n = false)
    (h : FieldKept n s0 s) : FieldKept n s0 (servo t1 t2 s) := by
  unfold servo
  repeat' first
    | with_reducible assumption
    | (exact sub_ne _ _ (by decide) hn)
    | (intro e; subst e; exact absurd hn (by decide))
    | (extract_lets +onlyGivenNames x; refine (fun (hx : FieldKept n s0 x) => ?_) (?_ : FieldKept n s0 x) <;> [clear_value x; subst x])
    | (extract_lets +onlyGivenNames x; refine (fun (hx : FieldKept n s0 x.2) => ?_) (?_ : FieldKept n s0 x.2) <;> [clear_value x; subst x])
    | (extract_lets +onlyGivenNames x; clear_value x)
    | with_reducible apply FieldKept.ite
    | split
    | with_reducible apply sat_fld
    | with_reducible apply wr_fld
    | with_reducible apply judgeOffset_fld
    | with_reducible apply stepTime_fld
    | with_reducible apply servoStep_fld
    | refine FieldKept.snd (by with_reducible assumption) ?_
    | (with_reducible apply FieldKept.upd; first | with_reducible assumption | with_reducible apply sat_fld | with_reducible apply wr_fld | with_reducible apply judgeOffset_fld | with_reducible apply stepTime_fld | with_reducible apply servoStep_fld | refine FieldKept.snd (by with_reducible assumption) ?_)

theorem showMaster_fld (s : State) (hn : [485, 490].contains n = false)
    (h : FieldKept n s0 s) : FieldKept n s0 (showMaster s) := by
  unfold showMaster
  repeat' first
    | with_reducible assumption
    | (exact sub_ne _ _ (by decide) hn)
    | (intro e; subst e; exact absurd hn (by decide))
    | with_reducible apply FieldKept.ite
    | split
    | with_reducible apply wr_fld

theorem ptpTake_fld (m : PtpMsg) (act : State → State) (s : State)
    (hn : [9, 10, 11, 447, 449, 453, 495].contains n = false) (hact : ∀ s, FieldKept n s0 s → FieldKept n s0 (act s))
    (h : FieldKept n s0 s) : FieldKept n s0 (ptpTake m act s) := by
  unfold ptpTake
  repeat' first
    | with_reducible assumption
    | (exact sub_ne _ _ (by decide) hn)
    | (intro e; subst e; exact absurd hn (by decide))
    | (intro x; beta_reduce)
    | (extract_lets +onlyGivenNames x; refine (fun (hx : FieldKept n s0 x) => ?_) (?_ : FieldKept n s0 x) <;> [clear_value x; subst x])
    | (extract_lets +onlyGivenNames x; clear_value x)
    | with_reducible apply FieldKept.ite
    | split
    | with_reducible apply hact
    | with_reducible apply countRx_fld
    | with_reducible apply sat_fld

theorem onSync_fld (m : PtpMsg) (s : State)
    (hn : [3, 7, 8, 9, 10, 11, 480, 482, 483, 484, 485, 487, 489, 492, 496, 497].contains n = false)
    (h : FieldKept n s0 s) : FieldKept n s0 (onSync m s) := by
  unfold onSync
  repeat' first
    | with_reducible assumption
    | (exact sub_ne _ _ (by decide) hn)
    | (intro e; subst e; exact absurd hn (by decide))
    | (extract_lets +onlyGivenNames x; refine (fun (hx : FieldKept n s0 x) => ?_) (?_ : FieldKept n s0 x) <;> [clear_value x; subst x])
    | (extract_lets +onlyGivenNames x; clear_value x)
    | with_reducible apply FieldKept.ite
    | split
    | with_reducible apply servo_fld
    | (with_reducible apply FieldKept.upd; first | with_reducible assumption | with_reducible apply servo_fld)

theorem onFollowUp_fld (m : PtpMsg) (s : State)
    (hn : [3, 7, 8, 9, 10, 11, 480, 482, 483, 484, 485, 487, 489, 492, 496, 497].contains n = false)
    (h : FieldKept n s0 s) : FieldKept n s0 (onFollowUp m s) := by
  unfold onFollowUp
  repeat' first
    | with_reducible assumption
    | (exact sub_ne _ _ (by decide) hn)
    | (intro e; subst e; exact absurd hn (by decide))
    | with_reducible apply FieldKept.ite
    | split
    | with_reducible apply servo_fld
    | (with_reducible apply FieldKept.upd; first | with_reducible assumption | with_reducible apply servo_fld)

theorem onDelayResp_fld (m : PtpMsg) (s : State) (hn : [488].contains n = false)
    (h : FieldKept n s0 s) : FieldKept n s0 (onDelayResp m s) := by
  unfold onDelayResp
  repeat' first
    | with_reducible assumption
    | (exact sub_ne _ _ (by decide) hn)
    | (intro e; subst e; exact absurd hn (by decide))
    | (extract_lets +onlyGivenNames x; refine (fun (hx : FieldKept n s0 x) => ?_) (?_ : FieldKept n s0 x) <;> [clear_value x; subst x])
    | (extract_lets +onlyGivenNames x; refine (fun (hx : FieldKept n s0 x.2) => ?_) (?_ : FieldKept n s0 x.2) <;> [clear_value x; subst x])
    | (extract_lets +onlyGivenNames x; clear_value x)
    | with_reducible apply FieldKept.ite
    | split
    | with_reducible apply wr_fld
    | (with_reducible apply FieldKept.upd; first | with_reducible assumption | with_reducible apply wr_fld)

theorem onAnnounce_fld (m : PtpMsg) (gm : Gm) (s : State) (hn : [9, 10, 11, 485, 490, 494].contains n = false)
    (h : FieldKept n s0 s) : FieldKept n s0 (onAnnounce m gm s) := by
  unfold onAnnounce
  repeat' first
    | with_reducible assumption
    | (exact sub_ne _ _ (by decide) hn)
    | (intro e; subst e; exact absurd hn (by decide))
    | (extract_lets +onlyGivenNames x; refine (fun (hx : FieldKept n s0 x) => ?_) (?_ : FieldKept n s0 x) <;> [clear_value x; subst x])
    | (extract_lets +onlyGivenNames x; refine (fun (hx : FieldKept n s0 x.2) => ?_) (?_ : FieldKept n s0 x.2) <;> [clear_value x; subst x])
    | (extract_lets +onlyGivenNames x; clear_value x)
    | with_reducible apply FieldKept.ite
    | split
    | with_reducible apply sat_fld
    | with_reducible apply showMaster_fld
    | (with_reducible apply FieldKept.upd; first | with_reducible assumption | with_reducible apply sat_fld | with_reducible apply showMaster_fld)

theorem syncLoss_fld (s : State) (hn : [9, 10, 11, 482, 483, 485, 490, 497].contains n = false)
    (h : FieldKept n s0 s) : FieldKept n s0 (syncLoss s) := by
  unfold syncLoss
  repeat' first
    | with_reducible assumption
    | (exact sub_ne _ _ (by decide) hn)
    | (intro e; subst e; exact absurd hn (by decide))
    | (extract_lets +onlyGivenNames x; refine (fun (hx : FieldKept n s0 x) => ?_) (?_ : FieldKept n s0 x) <;> [clear_value x; subst x])
    | (extract_lets +onlyGivenNames x; clear_value x)
    | with_reducible apply FieldKept.ite
    | split
    | with_reducible apply advanceTo_fld
    | with_reducible apply lockLost_fld
    | with_reducible apply showMaster_fld
    | (with_reducible apply FieldKept.upd; first | with_reducible assumption | with_reducible apply advanceTo_fld | with_reducible apply lockLost_fld | with_reducible apply showMaster_fld)

theorem sendPtp_fld (p : Nat) (bytes : List Byte) (s : State) (hn : [446, 447, 448, 449].contains n = false)
    (h : FieldKept n s0 s) : FieldKept n s0 (sendPtp p bytes s) := by
  unfold sendPtp
  repeat' first
    | with_reducible assumption
    | (exact sub_ne _ _ (by decide) hn)
    | (intro e; subst e; exact absurd hn (by decide))
    | with_reducible apply transmit_fld

theorem syncTx_fld (stamp : Nat) (s : State) (hn : [446, 447, 448, 449, 485, 490].contains n = false)
    (h : FieldKept n s0 s) : FieldKept n s0 (syncTx stamp s) := by
  unfold syncTx
  repeat' first
    | with_reducible assumption
    | (exact sub_ne _ _ (by decide) hn)
    | (intro e; subst e; exact absurd hn (by decide))
    | (extract_lets +onlyGivenNames x; refine (fun (hx : FieldKept n s0 x) => ?_) (?_ : FieldKept n s0 x) <;> [clear_value x; subst x])
    | (extract_lets +onlyGivenNames x; refine (fun (hx : FieldKept n s0 x.2) => ?_) (?_ : FieldKept n s0 x.2) <;> [clear_value x; subst x])
    | (extract_lets +onlyGivenNames x; clear_value x)
    | with_reducible apply FieldKept.ite
    | split
    | with_reducible apply wr_fld
    | with_reducible apply sendPtp_fld
    | (with_reducible apply FieldKept.upd; first | with_reducible assumption | with_reducible apply wr_fld | with_reducible apply sendPtp_fld)

theorem announceTx_fld (s : State) (hn : [446, 447, 448, 449, 485, 490].contains n = false)
    (h : FieldKept n s0 s) : FieldKept n s0 (announceTx s) := by
  unfold announceTx
  repeat' first
    | with_reducible assumption
    | (exact sub_ne _ _ (by decide) hn)
    | (intro e; subst e; exact absurd hn (by decide))
    | (extract_lets +onlyGivenNames x; refine (fun (hx : FieldKept n s0 x) => ?_) (?_ : FieldKept n s0 x) <;> [clear_value x; subst x])
    | (extract_lets +onlyGivenNames x; refine (fun (hx : FieldKept n s0 x.2) => ?_) (?_ : FieldKept n s0 x.2) <;> [clear_value x; subst x])
    | (extract_lets +onlyGivenNames x; clear_value x)
    | with_reducible apply FieldKept.ite
    | split
    | with_reducible apply wr_fld
    | with_reducible apply sendPtp_fld
    | (with_reducible apply FieldKept.upd; first | with_reducible assumption | with_reducible apply wr_fld | with_reducible apply sendPtp_fld)

theorem delayReqTx_fld (stamp : Nat) (s : State) (hn : [9, 10, 11, 446, 447, 448, 449, 493].contains n = false)
    (h : FieldKept n s0 s) : FieldKept n s0 (delayReqTx stamp s) := by
  unfold delayReqTx
  repeat' first
    | with_reducible assumption
    | (exact sub_ne _ _ (by decide) hn)
    | (intro e; subst e; exact absurd hn (by decide))
    | (extract_lets +onlyGivenNames x; refine (fun (hx : FieldKept n s0 x) => ?_) (?_ : FieldKept n s0 x) <;> [clear_value x; subst x])
    | (extract_lets +onlyGivenNames x; refine (fun (hx : FieldKept n s0 x.2) => ?_) (?_ : FieldKept n s0 x.2) <;> [clear_value x; subst x])
    | (extract_lets +onlyGivenNames x; clear_value x)
    | with_reducible apply FieldKept.ite
    | split
    | with_reducible apply sat_fld
    | with_reducible apply sendPtp_fld
    | (with_reducible apply FieldKept.upd; first | with_reducible assumption | with_reducible apply sat_fld | with_reducible apply sendPtp_fld)

theorem onDelayReq_fld (m : PtpMsg) (s : State) (hn : [446, 447, 448, 449].contains n = false)
    (h : FieldKept n s0 s) : FieldKept n s0 (onDelayReq m s) := by
  unfold onDelayReq
  repeat' first
    | with_reducible assumption
    | (exact sub_ne _ _ (by decide) hn)
    | (intro e; subst e; exact absurd hn (by decide))
    | (extract_lets +onlyGivenNames x; refine (fun (hx : FieldKept n s0 x) => ?_) (?_ : FieldKept n s0 x) <;> [clear_value x; subst x])
    | (extract_lets +onlyGivenNames x; clear_value x)
    | with_reducible apply FieldKept.ite
    | split
    | with_reducible apply sendPtp_fld

end Sys2Proof.Machine
end

