-- ==== Sys2Proof/Laws/FieldsQuery.lean ====
section
/-! SUPPORT. Which register fields the operations of Machine/Query.lean may write: one lemma for each, which names the field numbers it can change. -/

set_option linter.unusedTactic false
set_option linter.unreachableTactic false
set_option linter.unusedVariables false

namespace Sys2Proof.Machine

open Sys2Proof

variable {n : Nat} {s0 : State}

theorem setQueries_fld (e : Nat) (qs : List Query) (s : State) (hn : [241].contains n = false)
    (h : FieldKept n s0 s) : FieldKept n s0 (setQueries e qs s) := by
  unfold setQueries
  repeat' first
    | with_reducible assumption
    | (exact sub_ne _ _ (by decide) hn)
    | (intro e; subst e; exact absurd hn (by decide))
    | with_reducible apply wr_fld
    | (with_reducible apply FieldKept.upd; first | with_reducible assumption | with_reducible apply wr_fld)

theorem putQuery_fld (q : Query) (s : State) (hn : [241].contains n = false)
    (h : FieldKept n s0 s) : FieldKept n s0 (putQuery q s) := by
  unfold putQuery
  repeat' first
    | with_reducible assumption
    | (exact sub_ne _ _ (by decide) hn)
    | (intro e; subst e; exact absurd hn (by decide))
    | with_reducible apply FieldKept.ite
    | split
    | with_reducible apply setQueries_fld

theorem admitQuery_fld (e clientTag arrival : Nat) (src : QuerySrc) (input : List Nat) (s : State)
    (hn : [9, 10, 11, 241, 252].contains n = false)
    (h : FieldKept n s0 s) : FieldKept n s0 (admitQuery e clientTag arrival src input s) := by
  unfold admitQuery
  repeat' first
    | with_reducible assumption
    | (exact sub_ne _ _ (by decide) hn)
    | (intro e; subst e; exact absurd hn (by decide))
    | (extract_lets +onlyGivenNames x; refine (fun (hx : FieldKept n s0 x) => ?_) (?_ : FieldKept n s0 x) <;> [clear_value x; subst x])
    | (extract_lets +onlyGivenNames x; clear_value x)
    | with_reducible apply setQueries_fld
    | with_reducible apply sat_fld

theorem respFrame_fld (p mac : Nat) (tag : Option Nat)
    (serial src dst e status clientTag arrival promised step : Nat) (out : List Byte) (s : State)
    (hn : [446, 447, 448, 449].contains n = false)
    (h : FieldKept n s0 s) : FieldKept n s0
    (respFrame p mac tag serial src dst e status clientTag arrival promised step out s) := by
  unfold respFrame
  repeat' first
    | with_reducible assumption
    | (exact sub_ne _ _ (by decide) hn)
    | (intro e; subst e; exact absurd hn (by decide))
    | (extract_lets +onlyGivenNames x; refine (fun (hx : FieldKept n s0 x) => ?_) (?_ : FieldKept n s0 x) <;> [clear_value x; subst x])
    | (extract_lets +onlyGivenNames x; clear_value x)
    | with_reducible apply transmit_fld

theorem respRing_fld (q index out e status clientTag arrival promised step : Nat) (data : List Byte) (s : State)
    (hn : [9, 10, 11, 521, 524].contains n = false)
    (h : FieldKept n s0 s) : FieldKept n s0 (respRing q index out e status clientTag arrival promised step data s) := by
  unfold respRing
  repeat' first
    | with_reducible assumption
    | (exact sub_ne _ _ (by decide) hn)
    | (intro e; subst e; exact absurd hn (by decide))
    | (extract_lets +onlyGivenNames x; refine (fun (hx : FieldKept n s0 x) => ?_) (?_ : FieldKept n s0 x) <;> [clear_value x; subst x])
    | (extract_lets +onlyGivenNames x; clear_value x)
    | with_reducible apply FieldKept.ite
    | split
    | with_reducible apply emit_fld
    | with_reducible apply hostRingWrite_fld
    | with_reducible apply sat_fld

theorem countQuery_fld (q : Query) (status done : Nat) (s : State)
    (hn : [9, 10, 11, 240, 241, 254, 255, 256, 257, 258, 259].contains n = false)
    (h : FieldKept n s0 s) : FieldKept n s0 (countQuery q status done s) := by
  unfold countQuery
  repeat' first
    | with_reducible assumption
    | (exact sub_ne _ _ (by decide) hn)
    | (intro e; subst e; exact absurd hn (by decide))
    | (extract_lets +onlyGivenNames x; refine (fun (hx : FieldKept n s0 x) => ?_) (?_ : FieldKept n s0 x) <;> [clear_value x; subst x])
    | (extract_lets +onlyGivenNames x; clear_value x)
    | with_reducible apply FieldKept.ite
    | split
    | with_reducible apply setQueries_fld
    | with_reducible apply sat_fld
    | with_reducible apply wr_fld
    | with_reducible apply setb_fld

theorem sendResp_fld (q : Query) (st : Nat) (out : List Byte) (s : State)
    (hn : [9, 10, 11, 240, 241, 254, 255, 256, 257, 258, 259, 446, 447, 448, 449, 521, 524].contains n = false)
    (h : FieldKept n s0 s) : FieldKept n s0 (sendResp q st out s) := by
  unfold sendResp
  repeat' first
    | with_reducible assumption
    | (exact sub_ne _ _ (by decide) hn)
    | (intro e; subst e; exact absurd hn (by decide))
    | with_reducible apply FieldKept.ite
    | split
    | with_reducible apply countQuery_fld
    | with_reducible apply respFrame_fld
    | with_reducible apply putQuery_fld
    | with_reducible apply respRing_fld
    | (with_reducible apply FieldKept.upd; first | with_reducible assumption | with_reducible apply countQuery_fld | with_reducible apply respFrame_fld | with_reducible apply putQuery_fld | with_reducible apply respRing_fld)

theorem queryResp_fld (e k : Nat) (s : State)
    (hn : [9, 10, 11, 240, 241, 254, 255, 256, 257, 258, 259, 446, 447, 448, 449, 521, 524].contains n = false)
    (h : FieldKept n s0 s) : FieldKept n s0 (queryResp e k s) := by
  unfold queryResp
  repeat' first
    | with_reducible assumption
    | (exact sub_ne _ _ (by decide) hn)
    | (intro e; subst e; exact absurd hn (by decide))
    | with_reducible apply FieldKept.ite
    | split
    | with_reducible apply sendResp_fld

theorem linkUp_fld (p : Nat) (s : State)
    (hn : [3, 7, 8, 9, 10, 11, 240, 241, 254, 255, 256, 257, 258, 259, 431, 432, 435, 446, 447, 448, 449, 456, 485, 486,
    521, 524].contains n = false) (h : FieldKept n s0 s) : FieldKept n s0 (linkUp p s) := by
  unfold linkUp
  repeat' first
    | with_reducible assumption
    | (exact sub_ne _ _ (by decide) hn)
    | (intro e; subst e; exact absurd hn (by decide))
    | (intro x; beta_reduce)
    | (extract_lets +onlyGivenNames x; refine (fun (hx : FieldKept n s0 x) => ?_) (?_ : FieldKept n s0 x) <;> [clear_value x; subst x])
    | (extract_lets +onlyGivenNames x; refine (fun (hx : FieldKept n s0 x.2) => ?_) (?_ : FieldKept n s0 x.2) <;> [clear_value x; subst x])
    | (extract_lets +onlyGivenNames x; clear_value x)
    | with_reducible apply FieldKept.ite
    | split
    | with_reducible apply linkRises_fld
    | with_reducible apply sendWaiting_fld
    | with_reducible apply countQuery_fld
    | with_reducible apply sendResp_fld
    | with_reducible apply FieldKept.foldl
    | with_reducible apply FieldKept.foldl_snd
    | with_reducible apply FieldKept.foldl_fst

theorem queryUndelivered_fld (e k : Nat) (s : State)
    (hn : [9, 10, 11, 240, 241, 254, 255, 256, 257, 258, 259].contains n = false)
    (h : FieldKept n s0 s) : FieldKept n s0 (queryUndelivered e k s) := by
  unfold queryUndelivered
  repeat' first
    | with_reducible assumption
    | (exact sub_ne _ _ (by decide) hn)
    | (intro e; subst e; exact absurd hn (by decide))
    | (extract_lets +onlyGivenNames x; refine (fun (hx : FieldKept n s0 x) => ?_) (?_ : FieldKept n s0 x) <;> [clear_value x; subst x])
    | (extract_lets +onlyGivenNames x; refine (fun (hx : FieldKept n s0 x.2) => ?_) (?_ : FieldKept n s0 x.2) <;> [clear_value x; subst x])
    | (extract_lets +onlyGivenNames x; clear_value x)
    | with_reducible apply FieldKept.ite
    | split
    | with_reducible apply advanceTo_fld
    | with_reducible apply countQuery_fld

theorem queryReq_fld (f : Frame) (e count clientTag : Nat) (input : List Nat) (s : State)
    (hn : [9, 10, 11, 241, 252, 253, 406, 433, 446, 447, 448, 449, 450, 451, 453, 455, 456, 461].contains n = false)
    (h : FieldKept n s0 s) : FieldKept n s0 (queryReq f e count clientTag input s) := by
  unfold queryReq
  repeat' first
    | with_reducible assumption
    | (exact sub_ne _ _ (by decide) hn)
    | (intro e; subst e; exact absurd hn (by decide))
    | with_reducible apply FieldKept.ite
    | split
    | exact (arrive_fld _ _ _ _ (sub_ne _ _ (by decide) hn) (by with_reducible assumption)).1
    | exact FieldKept.snd (by with_reducible assumption) (arrive_fld _ _ _ _ (sub_ne _ _ (by decide) hn) (by with_reducible assumption)).1
    | exact (arrive_fld _ _ _ _ (sub_ne _ _ (by decide) hn) (by with_reducible assumption)).2 _ _ (by with_reducible assumption)
    | with_reducible apply respFrame_fld
    | with_reducible apply sat_fld
    | with_reducible apply admitQuery_fld
    | refine FieldKept.snd (by with_reducible assumption) ?_

theorem queryDescriptor_fld (q : Nat) (w input : List Nat) (bad : Bool) (s : State)
    (hn : [9, 10, 11, 241, 252, 253, 509, 514, 521, 522, 524].contains n = false)
    (h : FieldKept n s0 s) : FieldKept n s0 (queryDescriptor q w input bad s) := by
  unfold queryDescriptor
  repeat' first
    | with_reducible assumption
    | (exact sub_ne _ _ (by decide) hn)
    | (intro e; subst e; exact absurd hn (by decide))
    | (extract_lets +onlyGivenNames x; refine (fun (hx : FieldKept n s0 x) => ?_) (?_ : FieldKept n s0 x) <;> [clear_value x; subst x])
    | (extract_lets +onlyGivenNames x; refine (fun (hx : FieldKept n s0 x.2) => ?_) (?_ : FieldKept n s0 x.2) <;> [clear_value x; subst x])
    | (extract_lets +onlyGivenNames x; clear_value x)
    | with_reducible apply FieldKept.ite
    | split
    | with_reducible apply setb_fld
    | with_reducible apply sat_fld
    | with_reducible apply wr_fld
    | with_reducible apply respRing_fld
    | with_reducible apply admitQuery_fld
    | (with_reducible apply FieldKept.upd; first | with_reducible assumption | with_reducible apply setb_fld | with_reducible apply sat_fld | with_reducible apply wr_fld | with_reducible apply respRing_fld | with_reducible apply admitQuery_fld)

theorem chainStart_fld (e : Nat) (s : State) (hn : [241].contains n = false)
    (h : FieldKept n s0 s) : FieldKept n s0 (chainStart e s) := by
  unfold chainStart
  repeat' first
    | with_reducible assumption
    | (exact sub_ne _ _ (by decide) hn)
    | (intro e; subst e; exact absurd hn (by decide))
    | (extract_lets +onlyGivenNames x; refine (fun (hx : FieldKept n s0 x) => ?_) (?_ : FieldKept n s0 x) <;> [clear_value x; subst x])
    | (extract_lets +onlyGivenNames x; refine (fun (hx : FieldKept n s0 x.2) => ?_) (?_ : FieldKept n s0 x.2) <;> [clear_value x; subst x])
    | (extract_lets +onlyGivenNames x; clear_value x)
    | with_reducible apply FieldKept.ite
    | split
    | with_reducible apply advanceTo_fld
    | with_reducible apply putQuery_fld
    | with_reducible apply store_fld
    | (with_reducible apply FieldKept.upd; first | with_reducible assumption | with_reducible apply advanceTo_fld | with_reducible apply putQuery_fld | with_reducible apply store_fld)

theorem guardEntryOf_fld (e c : Nat) (rs : List Range) (s : State)
    (hn : [9, 10, 11, 205, 682, 689].contains n = false)
    (h : FieldKept n s0 s) : FieldKept n s0 (guardEntryOf e c rs s) := by
  unfold guardEntryOf
  repeat' first
    | with_reducible assumption
    | (exact sub_ne _ _ (by decide) hn)
    | (intro e; subst e; exact absurd hn (by decide))
    | with_reducible apply FieldKept.ite
    | split
    | with_reducible apply guardEntry_fld

theorem chainIssue_fld (q : Query) (i rc land : Nat) (r : OpResult) (s : State)
    (hn : [9, 10, 11, 205, 670, 682, 685, 689, 697, 698, 699, 703, 704, 705].contains n = false)
    (h : FieldKept n s0 s) : FieldKept n s0 (chainIssue q i rc land r s) := by
  unfold chainIssue
  repeat' first
    | with_reducible assumption
    | (exact sub_ne _ _ (by decide) hn)
    | (intro e; subst e; exact absurd hn (by decide))
    | with_reducible apply addOp_fld
    | with_reducible apply reportReads_fld
    | with_reducible apply guardEntryOf_fld

theorem chainOverlap_fld (e : Nat) (r : OpResult) (s : State)
    (hn : [9, 10, 11, 196, 197, 198, 682, 686, 688, 689].contains n = false)
    (h : FieldKept n s0 s) : FieldKept n s0 (chainOverlap e r s) := by
  unfold chainOverlap
  repeat' first
    | with_reducible assumption
    | (exact sub_ne _ _ (by decide) hn)
    | (intro e; subst e; exact absurd hn (by decide))
    | with_reducible apply FieldKept.ite
    | split
    | with_reducible apply programFatal_fld
    | with_reducible apply errorLog_fld

end Sys2Proof.Machine
end

