-- ==== Sys2Proof/Laws/FieldsPower.lean ====
section
/-! SUPPORT. Which register fields the operations of Machine/Power.lean may write: one lemma for each, which names the field numbers it can change. -/

set_option linter.unusedTactic false
set_option linter.unreachableTactic false
set_option linter.unusedVariables false

namespace Sys2Proof.Machine

open Sys2Proof

variable {n : Nat} {s0 : State}

theorem leaveReset_fld (s : State) (n : Nat) (h : FieldKept n s0 s) : FieldKept n s0 (leaveReset s) := by
  unfold leaveReset
  repeat' first
    | with_reducible assumption
    | with_reducible apply FieldKept.ite
    | split
    | (with_reducible apply FieldKept.upd; first | with_reducible assumption)

theorem sysResetRelease_fld (early : Bool) (s : State) (n : Nat)
    (h : FieldKept n s0 s) : FieldKept n s0 (sysResetRelease early s) := by
  unfold sysResetRelease
  repeat' first
    | with_reducible assumption
    | with_reducible apply FieldKept.ite
    | split
    | with_reducible apply leaveReset_fld
    | (with_reducible apply FieldKept.upd; first | with_reducible assumption | with_reducible apply leaveReset_fld)

theorem resetKeyRelease_fld (s : State) (n : Nat) (h : FieldKept n s0 s) : FieldKept n s0 (resetKeyRelease s) := by
  unfold resetKeyRelease
  repeat' first
    | with_reducible assumption
    | with_reducible apply leaveReset_fld
    | (with_reducible apply FieldKept.upd; first | with_reducible assumption | with_reducible apply leaveReset_fld)

theorem feedGood_fld (feed : Nat) (s : State) (hn : [629, 630].contains n = false) (h : FieldKept n s0 s) :
    FieldKept n s0 (feedGood feed s) := by
  have hf : (feedOk feed).fid ≠ n := by
    unfold feedOk
    split <;> (intro e; subst e; exact absurd hn (by decide))
  unfold feedGood
  split
  · exact h
  · extract_lets s1
    have h1 : FieldKept n s0 s1 := setb_fld _ _ _ _ _ hf h
    split
    · exact ⟨h1.same⟩
    · exact h1

theorem pwrOk_fld (s : State) (n : Nat) (h : FieldKept n s0 s) : FieldKept n s0 (pwrOk s) := by
  unfold pwrOk
  repeat' first
    | with_reducible assumption
    | with_reducible apply FieldKept.ite
    | split
    | with_reducible apply emit_fld
    | (with_reducible apply FieldKept.upd; first | with_reducible assumption | with_reducible apply emit_fld)

theorem raiseReady_fld (u : Nat) (s : State) (hn : [3, 7, 8].contains n = false)
    (h : FieldKept n s0 s) : FieldKept n s0 (raiseReady u s) := by
  unfold raiseReady
  repeat' first
    | with_reducible assumption
    | (exact sub_ne _ _ (by decide) hn)
    | (intro e; subst e; exact absurd hn (by decide))
    | with_reducible apply setReady_fld

theorem pllLock_fld (s : State) (hn : [3, 4, 7, 8, 334, 335].contains n = false)
    (h : FieldKept n s0 s) : FieldKept n s0 (pllLock s) := by
  unfold pllLock
  repeat' first
    | with_reducible assumption
    | (exact sub_ne _ _ (by decide) hn)
    | (intro e; subst e; exact absurd hn (by decide))
    | (intro x; beta_reduce)
    | with_reducible apply FieldKept.ite
    | split
    | with_reducible apply mixerTest_fld
    | with_reducible apply raiseReady_fld
    | with_reducible apply FieldKept.foldl
    | with_reducible apply FieldKept.foldl_snd
    | with_reducible apply FieldKept.foldl_fst
    | (with_reducible apply FieldKept.upd; first | with_reducible assumption | with_reducible apply mixerTest_fld | with_reducible apply raiseReady_fld | with_reducible apply FieldKept.foldl | with_reducible apply FieldKept.foldl_snd | with_reducible apply FieldKept.foldl_fst)

theorem pllLockTimeout_fld (s : State) (hn : [4].contains n = false)
    (h : FieldKept n s0 s) : FieldKept n s0 (pllLockTimeout s) := by
  unfold pllLockTimeout
  repeat' first
    | with_reducible assumption
    | (exact sub_ne _ _ (by decide) hn)
    | (intro e; subst e; exact absurd hn (by decide))
    | with_reducible apply FieldKept.ite
    | split
    | with_reducible apply wrU_fld
    | (with_reducible apply FieldKept.upd; first | with_reducible assumption | with_reducible apply wrU_fld)

theorem lifeCheck_fld (k : FKey) (s : State) (hn : [3, 7, 8, 89, 90, 91, 92, 97, 98].contains n = false)
    (h : FieldKept n s0 s) : FieldKept n s0 (lifeCheck k s) := by
  unfold lifeCheck
  repeat' first
    | with_reducible assumption
    | (exact sub_ne _ _ (by decide) hn)
    | (intro e; subst e; exact absurd hn (by decide))
    | with_reducible apply FieldKept.ite
    | split
    | with_reducible apply makePermanent_fld

theorem lifeAll_fld (die : Nat) (s : State) (hn : [3, 7, 8, 89, 90, 91, 92, 97, 98].contains n = false)
    (h : FieldKept n s0 s) : FieldKept n s0 (lifeAll die s) := by
  unfold lifeAll
  repeat' first
    | with_reducible assumption
    | (exact sub_ne _ _ (by decide) hn)
    | (intro e; subst e; exact absurd hn (by decide))
    | (intro x; beta_reduce)
    | (extract_lets +onlyGivenNames x; refine (fun (hx : FieldKept n s0 x) => ?_) (?_ : FieldKept n s0 x) <;> [clear_value x; subst x])
    | (extract_lets +onlyGivenNames x; refine (fun (hx : FieldKept n s0 x.2) => ?_) (?_ : FieldKept n s0 x.2) <;> [clear_value x; subst x])
    | (extract_lets +onlyGivenNames x; clear_value x)
    | with_reducible apply FieldKept.ite
    | split
    | with_reducible apply lifeCheck_fld
    | with_reducible apply FieldKept.foldl
    | with_reducible apply FieldKept.foldl_snd
    | with_reducible apply FieldKept.foldl_fst

theorem loadLedger_fld (die : Nat) (l : ShelfCopy) (s : State) (n : Nat)
    (h : FieldKept n s0 s) : FieldKept n s0 (loadLedger die l s) := by
  unfold loadLedger
  repeat' first
    | with_reducible assumption
    | (extract_lets +onlyGivenNames x; refine (fun (hx : FieldKept n s0 x) => ?_) (?_ : FieldKept n s0 x) <;> [clear_value x; subst x])
    | (extract_lets +onlyGivenNames x; clear_value x)
    | (with_reducible apply FieldKept.upd; first | with_reducible assumption)

theorem showShelfDump_fld (s : State) (hn : [668].contains n = false)
    (h : FieldKept n s0 s) : FieldKept n s0 (showShelfDump s) := by
  unfold showShelfDump
  repeat' first
    | with_reducible assumption
    | (exact sub_ne _ _ (by decide) hn)
    | (intro e; subst e; exact absurd hn (by decide))
    | with_reducible apply FieldKept.ite
    | split
    | with_reducible apply setb_fld

theorem driveRefused_fld (c reason : Nat) (s : State) (hn : [528, 532].contains n = false)
    (h : FieldKept n s0 s) : FieldKept n s0 (driveRefused c reason s) := by
  unfold driveRefused
  repeat' first
    | with_reducible assumption
    | (exact sub_ne _ _ (by decide) hn)
    | (intro e; subst e; exact absurd hn (by decide))
    | with_reducible apply wr_fld
    | with_reducible apply setb_fld

theorem bringUpDrive_fld (c : Nat) (info : List Nat) (s : State)
    (hn : [3, 7, 8, 383, 384, 528, 529, 532, 533, 536, 668].contains n = false)
    (h : FieldKept n s0 s) : FieldKept n s0 (bringUpDrive c info s) := by
  unfold bringUpDrive
  repeat' first
    | with_reducible assumption
    | (exact sub_ne _ _ (by decide) hn)
    | (intro e; subst e; exact absurd hn (by decide))
    | (extract_lets +onlyGivenNames x; refine (fun (hx : FieldKept n s0 x) => ?_) (?_ : FieldKept n s0 x) <;> [clear_value x; subst x])
    | (extract_lets +onlyGivenNames x; clear_value x)
    | with_reducible apply FieldKept.ite
    | split
    | with_reducible apply wr_fld
    | with_reducible apply driveRefused_fld
    | with_reducible apply driveIssue_fld
    | with_reducible apply setb_fld
    | with_reducible apply driveSession_fld
    | with_reducible apply writeLabel_fld
    | with_reducible apply showShelfDump_fld
    | with_reducible apply showSlots_fld
    | with_reducible apply raiseReady_fld

theorem bringUpFirmware_fld (c : Nat) (info : List Nat) (s : State) (hn : [3, 7, 8, 582, 617].contains n = false)
    (h : FieldKept n s0 s) : FieldKept n s0 (bringUpFirmware c info s) := by
  unfold bringUpFirmware
  repeat' first
    | with_reducible assumption
    | (exact sub_ne _ _ (by decide) hn)
    | (intro e; subst e; exact absurd hn (by decide))
    | (extract_lets +onlyGivenNames x; refine (fun (hx : FieldKept n s0 x) => ?_) (?_ : FieldKept n s0 x) <;> [clear_value x; subst x])
    | (extract_lets +onlyGivenNames x; clear_value x)
    | with_reducible apply FieldKept.ite
    | split
    | with_reducible apply raiseReady_fld
    | with_reducible apply wr_fld
    | (with_reducible apply FieldKept.upd; first | with_reducible assumption | with_reducible apply raiseReady_fld | with_reducible apply wr_fld)

theorem bringUpFaults_fld (info : List Nat) (s : State) (hn : [3, 7, 8, 668, 678, 679, 680, 681].contains n = false)
    (h : FieldKept n s0 s) : FieldKept n s0 (bringUpFaults info s) := by
  unfold bringUpFaults
  repeat' first
    | with_reducible assumption
    | (exact sub_ne _ _ (by decide) hn)
    | (intro e; subst e; exact absurd hn (by decide))
    | (intro x; beta_reduce)
    | (extract_lets +onlyGivenNames x; refine (fun (hx : FieldKept n s0 x) => ?_) (?_ : FieldKept n s0 x) <;> [clear_value x; subst x])
    | (extract_lets +onlyGivenNames x; refine (fun (hx : FieldKept n s0 x.2) => ?_) (?_ : FieldKept n s0 x.2) <;> [clear_value x; subst x])
    | (extract_lets +onlyGivenNames x; clear_value x)
    | with_reducible apply wr_fld
    | with_reducible apply setb_fld
    | with_reducible apply showShelfDump_fld
    | with_reducible apply raiseReady_fld
    | with_reducible apply FieldKept.foldl
    | with_reducible apply FieldKept.foldl_snd
    | with_reducible apply FieldKept.foldl_fst

theorem orderlyOff_fld (s : State) (hn : [633].contains n = false)
    (h : FieldKept n s0 s) : FieldKept n s0 (orderlyOff s) := by
  unfold orderlyOff
  repeat' first
    | with_reducible assumption
    | (exact sub_ne _ _ (by decide) hn)
    | (intro e; subst e; exact absurd hn (by decide))
    | (intro x; beta_reduce)
    | with_reducible apply FieldKept.ite
    | split
    | with_reducible apply setb_fld
    | with_reducible apply saveLedgers_fld
    | (with_reducible apply FieldKept.upd; first | with_reducible assumption | with_reducible apply setb_fld | with_reducible apply saveLedgers_fld)

theorem offReady_fld (s : State) (hn : [633].contains n = false)
    (h : FieldKept n s0 s) : FieldKept n s0 (offReady s) := by
  unfold offReady
  repeat' first
    | with_reducible assumption
    | (exact sub_ne _ _ (by decide) hn)
    | (intro e; subst e; exact absurd hn (by decide))
    | with_reducible apply FieldKept.ite
    | split
    | with_reducible apply setb_fld
    | (with_reducible apply FieldKept.upd; first | with_reducible assumption | with_reducible apply setb_fld)

theorem powerSample_fld (input : Nat) (feeds domains : List Nat) (s : State) (hn : [635, 636, 637, 638, 639, 645, 646, 647, 648, 649, 650].contains n = false)
    (h : FieldKept n s0 s) : FieldKept n s0 (powerSample input feeds domains s) := by
  unfold powerSample
  split
  · exact h
  · extract_lets ss ss' px s1 s2
    have h1 : FieldKept n s0 s1 := ⟨h.same⟩
    have key : ∀ (l : List Field) (g : Field × Nat → Nat) (s : State), (∀ f ∈ l, f.fid ≠ n) → FieldKept n s0 s →
        FieldKept n s0 (l.zipIdx.foldl (fun s fi => wr fi.1 0 0 (g fi) s) s) := by
      intro l g s hl hs
      refine FieldKept.foldl_mem _ (fun s x hx h => ?_) hs
      exact wr_fld _ _ _ _ _ (hl _ (List.fst_mem_of_mem_zipIdx hx)) h
    have ne : ∀ l : List Field, (∀ f ∈ l, ([635, 636, 637, 638, 639, 645, 646, 647, 648, 649, 650]).contains f.fid = true) → ∀ f ∈ l, f.fid ≠ n := by
      intro l hl f hf e
      subst e
      rw [hl f hf] at hn
      exact absurd hn (by decide)
    refine key _ (fun fi => feeds.getD fi.2 0) _ (ne _ (by decide)) ?_
    exact key averageFields (fun fi => sampleMean ss' fi.2) _ (ne _ (by decide)) h1

theorem throttleDie_fld (b e : Nat) (s : State) (n : Nat)
    (h : FieldKept n s0 s) : FieldKept n s0 (throttleDie b e s) := by
  unfold throttleDie
  repeat' first
    | with_reducible assumption
    | (intro x; beta_reduce)
    | (extract_lets +onlyGivenNames x; refine (fun (hx : FieldKept n s0 x) => ?_) (?_ : FieldKept n s0 x) <;> [clear_value x; subst x])
    | (extract_lets +onlyGivenNames x; refine (fun (hx : FieldKept n s0 x.2) => ?_) (?_ : FieldKept n s0 x.2) <;> [clear_value x; subst x])
    | (extract_lets +onlyGivenNames x; clear_value x)
    | with_reducible apply setSeqX_fld
    | with_reducible apply FieldKept.foldl
    | with_reducible apply FieldKept.foldl_snd
    | with_reducible apply FieldKept.foldl_fst
    | (with_reducible apply FieldKept.upd; first | with_reducible assumption | with_reducible apply setSeqX_fld | with_reducible apply FieldKept.foldl | with_reducible apply FieldKept.foldl_snd | with_reducible apply FieldKept.foldl_fst)

theorem startFrame_fld {m : Nat} (n : Nat) (s : State) (b : Nat)
    (hn : [9, 10, 11, 652, 653, 654].contains m = false) (h : FieldKept m s0 s) : FieldKept m s0 (startFrame n s b) := by
  unfold startFrame
  repeat' first
    | with_reducible assumption
    | (exact sub_ne _ _ (by decide) hn)
    | (intro e; subst e; exact absurd hn (by decide))
    | (extract_lets +onlyGivenNames x; refine (fun (hx : FieldKept m s0 x) => ?_) (?_ : FieldKept m s0 x) <;> [clear_value x; subst x])
    | (extract_lets +onlyGivenNames x; clear_value x)
    | with_reducible apply FieldKept.ite
    | split
    | with_reducible apply addW_fld
    | with_reducible apply throttleDie_fld
    | with_reducible apply sat_fld

theorem capEval_fld (s : State) (hn : [9, 10, 11, 652, 653, 654].contains n = false)
    (h : FieldKept n s0 s) : FieldKept n s0 (capEval s) := by
  unfold capEval
  repeat' first
    | with_reducible assumption
    | (exact sub_ne _ _ (by decide) hn)
    | (intro e; subst e; exact absurd hn (by decide))
    | (intro x; beta_reduce)
    | (extract_lets +onlyGivenNames x; refine (fun (hx : FieldKept n s0 x) => ?_) (?_ : FieldKept n s0 x) <;> [clear_value x; subst x])
    | (extract_lets +onlyGivenNames x; refine (fun (hx : FieldKept n s0 x.2) => ?_) (?_ : FieldKept n s0 x.2) <;> [clear_value x; subst x])
    | (extract_lets +onlyGivenNames x; clear_value x)
    | with_reducible apply FieldKept.ite
    | split
    | with_reducible apply advanceTo_fld
    | with_reducible apply startFrame_fld
    | with_reducible apply FieldKept.foldl
    | with_reducible apply FieldKept.foldl_snd
    | with_reducible apply FieldKept.foldl_fst
    | (with_reducible apply FieldKept.upd; first | with_reducible assumption | with_reducible apply advanceTo_fld | with_reducible apply startFrame_fld | with_reducible apply FieldKept.foldl | with_reducible apply FieldKept.foldl_snd | with_reducible apply FieldKept.foldl_fst)

theorem capUnmet_fld (s : State) (hn : [626].contains n = false)
    (h : FieldKept n s0 s) : FieldKept n s0 (capUnmet s) := by
  unfold capUnmet
  repeat' first
    | with_reducible assumption
    | (exact sub_ne _ _ (by decide) hn)
    | (intro e; subst e; exact absurd hn (by decide))
    | with_reducible apply FieldKept.ite
    | split
    | with_reducible apply setb_fld
    | with_reducible apply advanceTo_fld

theorem noteTemp_fld (k : Nat) (t : Int) (s : State) (hn : [641, 642].contains n = false)
    (h : FieldKept n s0 s) : FieldKept n s0 (noteTemp k t s) := by
  unfold noteTemp
  repeat' first
    | with_reducible assumption
    | (exact sub_ne _ _ (by decide) hn)
    | (intro e; subst e; exact absurd hn (by decide))
    | (extract_lets +onlyGivenNames x; refine (fun (hx : FieldKept n s0 x) => ?_) (?_ : FieldKept n s0 x) <;> [clear_value x; subst x])
    | (extract_lets +onlyGivenNames x; clear_value x)
    | with_reducible apply FieldKept.ite
    | split
    | with_reducible apply wr_fld
    | (with_reducible apply FieldKept.upd; first | with_reducible assumption | with_reducible apply wr_fld)

theorem countHot_fld (s : State) (hn : [9, 10, 11, 655].contains n = false)
    (h : FieldKept n s0 s) : FieldKept n s0 (countHot s) := by
  unfold countHot
  repeat' first
    | with_reducible assumption
    | (exact sub_ne _ _ (by decide) hn)
    | (intro e; subst e; exact absurd hn (by decide))
    | (extract_lets +onlyGivenNames x; refine (fun (hx : FieldKept n s0 x) => ?_) (?_ : FieldKept n s0 x) <;> [clear_value x; subst x])
    | (extract_lets +onlyGivenNames x; clear_value x)
    | with_reducible apply FieldKept.ite
    | split
    | with_reducible apply sat_fld
    | (with_reducible apply FieldKept.upd; first | with_reducible assumption | with_reducible apply sat_fld)

theorem smbusAnswer_fld (always : Bool) (bs : State → List Byte) (s : State) (n : Nat)
    (h : FieldKept n s0 s) : FieldKept n s0 (smbusAnswer always bs s) := by
  unfold smbusAnswer
  repeat' first
    | with_reducible assumption
    | with_reducible apply FieldKept.ite
    | split
    | with_reducible apply emit_fld

theorem powerLimit_fld (access : SmbusAccess) (pecOk : Bool) (s : State) (n : Nat)
    (h : FieldKept n s0 s) : FieldKept n s0 (powerLimit access pecOk s) := by
  unfold powerLimit
  repeat' first
    | with_reducible assumption
    | (intro x; beta_reduce)
    | with_reducible apply FieldKept.ite
    | split
    | with_reducible apply smbusAnswer_fld
    | with_reducible apply emit_fld
    | (with_reducible apply FieldKept.upd; first | with_reducible assumption | with_reducible apply smbusAnswer_fld | with_reducible apply emit_fld)

end Sys2Proof.Machine
end

