-- ==== Sys2Proof/Laws/FieldsHost.lean ====
section
/-! SUPPORT. Which register fields the operations of Machine/Host.lean may write: one lemma for each, which names the field numbers it can change. -/

set_option linter.unusedTactic false
set_option linter.unreachableTactic false
set_option linter.unusedVariables false

namespace Sys2Proof.Machine

open Sys2Proof

variable {n : Nat} {s0 : State}

theorem hostBlockReset_fld (s : State) (hn : [509, 511, 523, 524].contains n = false)
    (h : FieldKept n s0 s) : FieldKept n s0 (hostBlockReset s) := by
  unfold hostBlockReset
  repeat' first
    | with_reducible assumption
    | (exact sub_ne _ _ (by decide) hn)
    | (intro e; subst e; exact absurd hn (by decide))
    | (intro x; beta_reduce)
    | (extract_lets +onlyGivenNames x; refine (fun (hx : FieldKept n s0 x) => ?_) (?_ : FieldKept n s0 x) <;> [clear_value x; subst x])
    | (extract_lets +onlyGivenNames x; refine (fun (hx : FieldKept n s0 x.2) => ?_) (?_ : FieldKept n s0 x.2) <;> [clear_value x; subst x])
    | (extract_lets +onlyGivenNames x; clear_value x)
    | with_reducible apply setb_fld
    | with_reducible apply wr_fld
    | with_reducible apply FieldKept.foldl
    | with_reducible apply FieldKept.foldl_snd
    | with_reducible apply FieldKept.foldl_fst

theorem perstAssert_fld (s : State) (hn : [509, 511, 512, 523, 524].contains n = false)
    (h : FieldKept n s0 s) : FieldKept n s0 (perstAssert s) := by
  unfold perstAssert
  repeat' first
    | with_reducible assumption
    | (exact sub_ne _ _ (by decide) hn)
    | (intro e; subst e; exact absurd hn (by decide))
    | with_reducible apply setb_fld
    | with_reducible apply hostBlockReset_fld
    | (with_reducible apply FieldKept.upd; first | with_reducible assumption | with_reducible apply setb_fld | with_reducible apply hostBlockReset_fld)

theorem perstRelease_fld (s : State) (n : Nat) (h : FieldKept n s0 s) : FieldKept n s0 (perstRelease s) := by
  unfold perstRelease
  repeat' first
    | with_reducible assumption
    | with_reducible apply FieldKept.ite
    | split
    | with_reducible apply emit_fld
    | (with_reducible apply FieldKept.upd; first | with_reducible assumption | with_reducible apply emit_fld)

theorem ringEnable_fld (r : Nat) (v : Bool) (s : State) (hn : [509, 523, 524].contains n = false)
    (h : FieldKept n s0 s) : FieldKept n s0 (ringEnable r v s) := by
  unfold ringEnable
  repeat' first
    | with_reducible assumption
    | (exact sub_ne _ _ (by decide) hn)
    | (intro e; subst e; exact absurd hn (by decide))
    | (extract_lets +onlyGivenNames x; refine (fun (hx : FieldKept n s0 x) => ?_) (?_ : FieldKept n s0 x) <;> [clear_value x; subst x])
    | (extract_lets +onlyGivenNames x; clear_value x)
    | with_reducible apply FieldKept.ite
    | split
    | with_reducible apply setb_fld
    | with_reducible apply wr_fld

theorem doorbell_fld (r v : Nat) (s : State) (hn : [9, 10, 11, 513, 518, 523].contains n = false)
    (h : FieldKept n s0 s) : FieldKept n s0 (doorbell r v s) := by
  unfold doorbell
  repeat' first
    | with_reducible assumption
    | (exact sub_ne _ _ (by decide) hn)
    | (intro e; subst e; exact absurd hn (by decide))
    | (extract_lets +onlyGivenNames x; refine (fun (hx : FieldKept n s0 x) => ?_) (?_ : FieldKept n s0 x) <;> [clear_value x; subst x])
    | (extract_lets +onlyGivenNames x; clear_value x)
    | with_reducible apply FieldKept.ite
    | split
    | with_reducible apply wr_fld
    | with_reducible apply setb_fld
    | with_reducible apply sat_fld

theorem dropDrive_fld (c : Nat) (s : State) (hn : [3, 7, 8, 373, 377, 383, 384, 529].contains n = false)
    (h : FieldKept n s0 s) : FieldKept n s0 (dropDrive c s) := by
  unfold dropDrive
  repeat' first
    | with_reducible assumption
    | (exact sub_ne _ _ (by decide) hn)
    | (intro e; subst e; exact absurd hn (by decide))
    | (extract_lets +onlyGivenNames x; refine (fun (hx : FieldKept n s0 x) => ?_) (?_ : FieldKept n s0 x) <;> [clear_value x; subst x])
    | (extract_lets +onlyGivenNames x; clear_value x)
    | with_reducible apply FieldKept.ite
    | split
    | with_reducible apply setb_fld
    | with_reducible apply setReady_fld
    | with_reducible apply driveStop_fld
    | with_reducible apply shelfFail_fld
    | with_reducible apply showSlots_fld

theorem failDrive_fld (c reason : Nat) (s : State)
    (hn : [3, 7, 8, 373, 377, 383, 384, 529, 530, 531, 532].contains n = false)
    (h : FieldKept n s0 s) : FieldKept n s0 (failDrive c reason s) := by
  unfold failDrive
  repeat' first
    | with_reducible assumption
    | (exact sub_ne _ _ (by decide) hn)
    | (intro e; subst e; exact absurd hn (by decide))
    | (extract_lets +onlyGivenNames x; refine (fun (hx : FieldKept n s0 x) => ?_) (?_ : FieldKept n s0 x) <;> [clear_value x; subst x])
    | (extract_lets +onlyGivenNames x; clear_value x)
    | with_reducible apply setb_fld
    | with_reducible apply wr_fld
    | with_reducible apply dropDrive_fld

theorem rescan_fld (c : Nat) (s : State) (hn : [3, 7, 8, 373, 377, 383, 384, 528, 529, 530, 532].contains n = false)
    (h : FieldKept n s0 s) : FieldKept n s0 (rescan c s) := by
  unfold rescan
  repeat' first
    | with_reducible assumption
    | (exact sub_ne _ _ (by decide) hn)
    | (intro e; subst e; exact absurd hn (by decide))
    | with_reducible apply setb_fld
    | with_reducible apply wr_fld
    | with_reducible apply dropDrive_fld

theorem nvmeCompletion_fld (c : Nat) (ok : Bool) (k crit used : Nat) (s : State)
    (hn : [3, 7, 8, 9, 10, 11, 373, 377, 383, 384, 529, 530, 531, 532, 534, 535, 539, 540, 541].contains n = false)
    (h : FieldKept n s0 s) : FieldKept n s0 (nvmeCompletion c ok k crit used s) := by
  unfold nvmeCompletion
  repeat' first
    | with_reducible assumption
    | (exact sub_ne _ _ (by decide) hn)
    | (intro e; subst e; exact absurd hn (by decide))
    | (extract_lets +onlyGivenNames x; refine (fun (hx : FieldKept n s0 x) => ?_) (?_ : FieldKept n s0 x) <;> [clear_value x; subst x])
    | (extract_lets +onlyGivenNames x; refine (fun (hx : FieldKept n s0 x.2) => ?_) (?_ : FieldKept n s0 x.2) <;> [clear_value x; subst x])
    | (extract_lets +onlyGivenNames x; clear_value x)
    | with_reducible apply FieldKept.ite
    | split
    | with_reducible apply failDrive_fld
    | with_reducible apply sat_fld
    | with_reducible apply driveDone_fld
    | with_reducible apply driveCount_fld
    | with_reducible apply wr_fld

theorem nvmeTimeout_fld (c : Nat) (s : State)
    (hn : [3, 7, 8, 9, 10, 11, 373, 377, 383, 384, 529, 530, 531, 532, 542].contains n = false)
    (h : FieldKept n s0 s) : FieldKept n s0 (nvmeTimeout c s) := by
  unfold nvmeTimeout
  repeat' first
    | with_reducible assumption
    | (exact sub_ne _ _ (by decide) hn)
    | (intro e; subst e; exact absurd hn (by decide))
    | (extract_lets +onlyGivenNames x; refine (fun (hx : FieldKept n s0 x) => ?_) (?_ : FieldKept n s0 x) <;> [clear_value x; subst x])
    | (extract_lets +onlyGivenNames x; refine (fun (hx : FieldKept n s0 x.2) => ?_) (?_ : FieldKept n s0 x.2) <;> [clear_value x; subst x])
    | (extract_lets +onlyGivenNames x; clear_value x)
    | with_reducible apply FieldKept.ite
    | split
    | with_reducible apply failDrive_fld
    | with_reducible apply sat_fld
    | with_reducible apply advanceTo_fld

end Sys2Proof.Machine
end

