-- ==== Sys2Proof/Laws/FieldsDump.lean ====
section
/-! SUPPORT. Which register fields the operations of Machine/Dump.lean may write: one lemma for each, which names the field numbers it can change. -/

set_option linter.unusedTactic false
set_option linter.unreachableTactic false
set_option linter.unusedVariables false

namespace Sys2Proof.Machine

open Sys2Proof

variable {n : Nat} {s0 : State}

theorem writeDump_fld (kind : Nat) (secs : List (Nat × Nat × List Byte)) (s : State) (n : Nat)
    (h : FieldKept n s0 s) : FieldKept n s0 (writeDump kind secs s) := by
  unfold writeDump
  repeat' first
    | with_reducible assumption
    | (intro x; beta_reduce)
    | (extract_lets +onlyGivenNames x; refine (fun (hx : FieldKept n s0 x) => ?_) (?_ : FieldKept n s0 x) <;> [clear_value x; subst x])
    | (extract_lets +onlyGivenNames x; refine (fun (hx : FieldKept n s0 x.2) => ?_) (?_ : FieldKept n s0 x.2) <;> [clear_value x; subst x])
    | (extract_lets +onlyGivenNames x; clear_value x)
    | with_reducible apply storeMem_fld
    | with_reducible apply FieldKept.foldl
    | with_reducible apply FieldKept.foldl_snd
    | with_reducible apply FieldKept.foldl_fst
    | (with_reducible apply FieldKept.upd; first | with_reducible assumption | with_reducible apply storeMem_fld | with_reducible apply FieldKept.foldl | with_reducible apply FieldKept.foldl_snd | with_reducible apply FieldKept.foldl_fst)

theorem holdDump_fld (kind : Nat) (s : State) (hn : [665, 666].contains n = false)
    (h : FieldKept n s0 s) : FieldKept n s0 (holdDump kind s) := by
  unfold holdDump
  repeat' first
    | with_reducible assumption
    | (exact sub_ne _ _ (by decide) hn)
    | (intro e; subst e; exact absurd hn (by decide))
    | (extract_lets +onlyGivenNames x; refine (fun (hx : FieldKept n s0 x) => ?_) (?_ : FieldKept n s0 x) <;> [clear_value x; subst x])
    | (extract_lets +onlyGivenNames x; clear_value x)
    | with_reducible apply setb_fld
    | with_reducible apply wr_fld
    | (with_reducible apply FieldKept.upd; first | with_reducible assumption | with_reducible apply setb_fld | with_reducible apply wr_fld)

theorem freeDump_fld (s : State) (hn : [665, 666].contains n = false)
    (h : FieldKept n s0 s) : FieldKept n s0 (freeDump s) := by
  unfold freeDump
  repeat' first
    | with_reducible assumption
    | (exact sub_ne _ _ (by decide) hn)
    | (intro e; subst e; exact absurd hn (by decide))
    | (extract_lets +onlyGivenNames x; refine (fun (hx : FieldKept n s0 x) => ?_) (?_ : FieldKept n s0 x) <;> [clear_value x; subst x])
    | (extract_lets +onlyGivenNames x; clear_value x)
    | with_reducible apply setb_fld
    | with_reducible apply wr_fld
    | (with_reducible apply FieldKept.upd; first | with_reducible assumption | with_reducible apply setb_fld | with_reducible apply wr_fld)

theorem programDump_fld (fw : List Byte) (s : State) (hn : [9, 10, 11, 665, 666, 687, 688].contains n = false)
    (h : FieldKept n s0 s) : FieldKept n s0 (programDump fw s) := by
  unfold programDump
  repeat' first
    | with_reducible assumption
    | (exact sub_ne _ _ (by decide) hn)
    | (intro e; subst e; exact absurd hn (by decide))
    | (extract_lets +onlyGivenNames x; refine (fun (hx : FieldKept n s0 x) => ?_) (?_ : FieldKept n s0 x) <;> [clear_value x; subst x])
    | (extract_lets +onlyGivenNames x; clear_value x)
    | with_reducible apply FieldKept.ite
    | split
    | with_reducible apply sat_fld
    | with_reducible apply holdDump_fld
    | with_reducible apply writeDump_fld
    | (with_reducible apply FieldKept.upd; first | with_reducible assumption | with_reducible apply sat_fld | with_reducible apply holdDump_fld | with_reducible apply writeDump_fld)

theorem dumpStart_fld (s : State) (hn : [665, 666, 669].contains n = false)
    (h : FieldKept n s0 s) : FieldKept n s0 (dumpStart s) := by
  unfold dumpStart
  repeat' first
    | with_reducible assumption
    | (exact sub_ne _ _ (by decide) hn)
    | (intro e; subst e; exact absurd hn (by decide))
    | (extract_lets +onlyGivenNames x; refine (fun (hx : FieldKept n s0 x) => ?_) (?_ : FieldKept n s0 x) <;> [clear_value x; subst x])
    | (extract_lets +onlyGivenNames x; clear_value x)
    | with_reducible apply FieldKept.ite
    | split
    | with_reducible apply setb_fld
    | with_reducible apply advanceTo_fld
    | with_reducible apply freeDump_fld
    | (with_reducible apply FieldKept.upd; first | with_reducible assumption | with_reducible apply setb_fld | with_reducible apply advanceTo_fld | with_reducible apply freeDump_fld)

theorem dumpReady_fld (fw : List Byte) (s : State) (hn : [9, 10, 11, 665, 666, 687].contains n = false)
    (h : FieldKept n s0 s) : FieldKept n s0 (dumpReady fw s) := by
  unfold dumpReady
  repeat' first
    | with_reducible assumption
    | (exact sub_ne _ _ (by decide) hn)
    | (intro e; subst e; exact absurd hn (by decide))
    | (extract_lets +onlyGivenNames x; refine (fun (hx : FieldKept n s0 x) => ?_) (?_ : FieldKept n s0 x) <;> [clear_value x; subst x])
    | (extract_lets +onlyGivenNames x; clear_value x)
    | with_reducible apply FieldKept.ite
    | split
    | with_reducible apply sat_fld
    | with_reducible apply writeDump_fld
    | with_reducible apply driveAll_fld
    | with_reducible apply holdDump_fld
    | (with_reducible apply FieldKept.upd; first | with_reducible assumption | with_reducible apply sat_fld | with_reducible apply writeDump_fld | with_reducible apply driveAll_fld | with_reducible apply holdDump_fld)

theorem dumpOnShelf_fld (s : State) (hn : [667].contains n = false)
    (h : FieldKept n s0 s) : FieldKept n s0 (dumpOnShelf s) := by
  unfold dumpOnShelf
  repeat' first
    | with_reducible assumption
    | (exact sub_ne _ _ (by decide) hn)
    | (intro e; subst e; exact absurd hn (by decide))
    | (intro x; beta_reduce)
    | (extract_lets +onlyGivenNames x; refine (fun (hx : FieldKept n s0 x) => ?_) (?_ : FieldKept n s0 x) <;> [clear_value x; subst x])
    | (extract_lets +onlyGivenNames x; refine (fun (hx : FieldKept n s0 x.2) => ?_) (?_ : FieldKept n s0 x.2) <;> [clear_value x; subst x])
    | (extract_lets +onlyGivenNames x; clear_value x)
    | with_reducible apply FieldKept.ite
    | split
    | with_reducible apply setb_fld
    | with_reducible apply FieldKept.foldl
    | with_reducible apply FieldKept.foldl_snd
    | with_reducible apply FieldKept.foldl_fst
    | (with_reducible apply FieldKept.upd; first | with_reducible assumption | with_reducible apply setb_fld | with_reducible apply FieldKept.foldl | with_reducible apply FieldKept.foldl_snd | with_reducible apply FieldKept.foldl_fst)

theorem dumpAck_fld (s : State) (hn : [665, 666].contains n = false)
    (h : FieldKept n s0 s) : FieldKept n s0 (dumpAck s) := by
  unfold dumpAck
  repeat' first
    | with_reducible assumption
    | (exact sub_ne _ _ (by decide) hn)
    | (intro e; subst e; exact absurd hn (by decide))
    | with_reducible apply FieldKept.ite
    | split
    | with_reducible apply freeDump_fld

theorem dumpRestore_fld (s : State) (hn : [665, 666].contains n = false)
    (h : FieldKept n s0 s) : FieldKept n s0 (dumpRestore s) := by
  unfold dumpRestore
  repeat' first
    | with_reducible assumption
    | (exact sub_ne _ _ (by decide) hn)
    | (intro e; subst e; exact absurd hn (by decide))
    | (extract_lets +onlyGivenNames x; refine (fun (hx : FieldKept n s0 x) => ?_) (?_ : FieldKept n s0 x) <;> [clear_value x; subst x])
    | (extract_lets +onlyGivenNames x; refine (fun (hx : FieldKept n s0 x.2) => ?_) (?_ : FieldKept n s0 x.2) <;> [clear_value x; subst x])
    | (extract_lets +onlyGivenNames x; clear_value x)
    | with_reducible apply FieldKept.ite
    | split
    | with_reducible apply driveIssue_fld
    | with_reducible apply storeMem_fld
    | with_reducible apply holdDump_fld
    | (with_reducible apply FieldKept.upd; first | with_reducible assumption | with_reducible apply driveIssue_fld | with_reducible apply storeMem_fld | with_reducible apply holdDump_fld)

end Sys2Proof.Machine
end

