-- ==== Sys2Proof/Laws/FieldsMessages.lean ====
section
/-! SUPPORT. Which register fields the operations of Machine/Messages.lean may write: one lemma for each, which names the field numbers it can change. -/

set_option linter.unusedTactic false
set_option linter.unreachableTactic false
set_option linter.unusedVariables false

namespace Sys2Proof.Machine

open Sys2Proof

variable {n : Nat} {s0 : State}

theorem ordResume_fld (serial : Nat) (s : State)
    (hn : [9, 10, 11, 286, 296, 446, 447, 448, 449, 456, 461].contains n = false)
    (h : FieldKept n s0 s) : FieldKept n s0 (ordResume serial s) := by
  unfold ordResume
  repeat' first
    | with_reducible assumption
    | (exact sub_ne _ _ (by decide) hn)
    | (intro e; subst e; exact absurd hn (by decide))
    | (intro x; beta_reduce)
    | with_reducible apply FieldKept.ite
    | split
    | with_reducible apply ordGo_fld
    | with_reducible apply FieldKept.foldl
    | with_reducible apply FieldKept.foldl_snd
    | with_reducible apply FieldKept.foldl_fst

theorem afterMessage_fld (f : Frame) (s : State)
    (hn : [9, 10, 11, 286, 296, 299, 304, 306, 307, 315, 317, 330, 331, 333, 337, 338, 341, 342, 343, 346, 347, 348, 350,
    351, 354, 405, 446, 447, 448, 449, 456, 461, 670, 682, 685, 689, 697, 698, 699, 703, 704, 705].contains n = false)
    (h : FieldKept n s0 s) : FieldKept n s0 (afterMessage f s) := by
  unfold afterMessage
  repeat' first
    | with_reducible assumption
    | (exact sub_ne _ _ (by decide) hn)
    | (intro e; subst e; exact absurd hn (by decide))
    | with_reducible apply settle_fld
    | with_reducible apply ordResume_fld

theorem opMessage_fld (f : Frame) (type op : Nat) (x : XOp) (act : State → State) (s : State)
    (hn : [9, 10, 11, 196, 197, 198, 204, 205, 285, 286, 290, 296, 299, 304, 306, 307, 315, 317, 330, 331, 333, 337, 338,
    341, 342, 343, 346, 347, 348, 350, 351, 354, 405, 406, 433, 446, 447, 448, 449, 450, 451, 453, 455, 456, 457, 458,
    461, 670, 682, 685, 686, 688, 689, 697, 698, 699, 703, 704, 705].contains n = false)
    (hact : ∀ s, FieldKept n s0 s → FieldKept n s0 (act s))
    (h : FieldKept n s0 s) : FieldKept n s0 (opMessage f type op x act s) := by
  unfold opMessage
  repeat' first
    | with_reducible assumption
    | (exact sub_ne _ _ (by decide) hn)
    | (intro e; subst e; exact absurd hn (by decide))
    | (intro x; beta_reduce)
    | with_reducible apply hact
    | with_reducible apply receive_fld
    | with_reducible apply takeOp_fld
    | with_reducible apply afterMessage_fld

theorem contribution_fld (f : Frame) (x : XOp) (s : State)
    (hn : [9, 10, 11, 196, 197, 198, 204, 205, 265, 266, 267, 268, 269, 286, 287, 288, 289, 291, 292, 293, 294, 295, 296,
    307, 446, 447, 448, 449, 456, 461, 682, 686, 688, 689].contains n = false)
    (h : FieldKept n s0 s) : FieldKept n s0 (contribution f x s) := by
  unfold contribution
  repeat' first
    | with_reducible assumption
    | (exact sub_ne _ _ (by decide) hn)
    | (intro e; subst e; exact absurd hn (by decide))
    | with_reducible apply ownerTake_fld

theorem takeReply_fld (x : XOp) (s : State)
    (hn : [9, 10, 11, 196, 197, 198, 204, 205, 265, 266, 267, 268, 269, 285, 286, 287, 288, 289, 290, 291, 292, 293, 294,
    295, 296, 299, 307, 446, 447, 448, 449, 456, 461, 682, 686, 688, 689].contains n = false)
    (h : FieldKept n s0 s) : FieldKept n s0 (takeReply x s) := by
  unfold takeReply
  repeat' first
    | with_reducible assumption
    | (exact sub_ne _ _ (by decide) hn)
    | (intro e; subst e; exact absurd hn (by decide))
    | with_reducible apply FieldKept.ite
    | split
    | with_reducible apply resendMoved_fld
    | with_reducible apply onReply_fld

theorem memberMessage_fld (f : Frame) (m : Member) (act : State → State) (s : State)
    (hn : [9, 10, 11, 196, 197, 198, 204, 205, 286, 296, 299, 304, 306, 307, 315, 317, 330, 331, 333, 337, 338, 341, 342,
    343, 346, 347, 348, 350, 351, 354, 405, 406, 433, 446, 447, 448, 449, 450, 451, 453, 455, 456, 457, 458, 461, 670,
    682, 685, 686, 688, 689, 697, 698, 699, 703, 704, 705].contains n = false)
    (hact : ∀ s, FieldKept n s0 s → FieldKept n s0 (act s))
    (h : FieldKept n s0 s) : FieldKept n s0 (memberMessage f m act s) := by
  unfold memberMessage
  repeat' first
    | with_reducible assumption
    | (exact sub_ne _ _ (by decide) hn)
    | (intro e; subst e; exact absurd hn (by decide))
    | (intro x; beta_reduce)
    | with_reducible apply hact
    | with_reducible apply receive_fld
    | with_reducible apply afterMessage_fld

theorem takeVote_fld (f : Frame) (m : Member) (s : State)
    (hn : [9, 10, 11, 446, 447, 448, 449, 456, 461].contains n = false)
    (h : FieldKept n s0 s) : FieldKept n s0 (takeVote f m s) := by
  unfold takeVote
  repeat' first
    | with_reducible assumption
    | (exact sub_ne _ _ (by decide) hn)
    | (intro e; subst e; exact absurd hn (by decide))
    | with_reducible apply FieldKept.ite
    | split
    | with_reducible apply onVote_fld

theorem takeCrc_fld (m : Member) (s : State) (hn : [9, 10, 11, 375, 399, 400].contains n = false)
    (h : FieldKept n s0 s) : FieldKept n s0 (takeCrc m s) := by
  unfold takeCrc
  repeat' first
    | with_reducible assumption
    | (exact sub_ne _ _ (by decide) hn)
    | (intro e; subst e; exact absurd hn (by decide))
    | (intro x; beta_reduce)
    | with_reducible apply FieldKept.ite
    | split
    | with_reducible apply crcCompare_fld
    | with_reducible apply modBx_fld
    | with_reducible apply FieldKept.foldl
    | with_reducible apply FieldKept.foldl_snd
    | with_reducible apply FieldKept.foldl_fst
    | (with_reducible apply FieldKept.upd; first | with_reducible assumption | with_reducible apply crcCompare_fld | with_reducible apply modBx_fld | with_reducible apply FieldKept.foldl | with_reducible apply FieldKept.foldl_snd | with_reducible apply FieldKept.foldl_fst)

theorem takeCellar_fld (m : Member) (s : State)
    (hn : [9, 10, 11, 196, 197, 198, 204, 205, 682, 686, 688, 689].contains n = false)
    (h : FieldKept n s0 s) : FieldKept n s0 (takeCellar m s) := by
  unfold takeCellar
  repeat' first
    | with_reducible assumption
    | (exact sub_ne _ _ (by decide) hn)
    | (intro e; subst e; exact absurd hn (by decide))
    | (intro x; beta_reduce)
    | (extract_lets +onlyGivenNames x; refine (fun (hx : FieldKept n s0 x) => ?_) (?_ : FieldKept n s0 x) <;> [clear_value x; subst x])
    | (extract_lets +onlyGivenNames x; clear_value x)
    | with_reducible apply FieldKept.ite
    | split
    | with_reducible apply modBx_fld
    | with_reducible apply reducedToken_fld
    | (with_reducible apply FieldKept.upd; first | with_reducible assumption | with_reducible apply modBx_fld | with_reducible apply reducedToken_fld)

theorem takeAck_fld (f : Frame) (s : State)
    (hn : [9, 10, 11, 299, 304, 306, 307, 315, 317, 330, 331, 333, 337, 338, 341, 342, 343, 346, 347, 348, 350, 351, 354,
    405, 406, 433, 446, 447, 448, 449, 450, 451, 453, 455, 456, 461, 670, 682, 685, 689, 697, 698, 699, 703, 704,
    705].contains n = false) (h : FieldKept n s0 s) : FieldKept n s0 (takeAck f s) := by
  unfold takeAck
  repeat' first
    | with_reducible assumption
    | (exact sub_ne _ _ (by decide) hn)
    | (intro e; subst e; exact absurd hn (by decide))
    | with_reducible apply settle_fld
    | exact (arrive_fld _ _ _ _ (sub_ne _ _ (by decide) hn) (by with_reducible assumption)).1
    | exact FieldKept.snd (by with_reducible assumption) (arrive_fld _ _ _ _ (sub_ne _ _ (by decide) hn) (by with_reducible assumption)).1
    | exact (arrive_fld _ _ _ _ (sub_ne _ _ (by decide) hn) (by with_reducible assumption)).2 _ _ (by with_reducible assumption)
    | refine FieldKept.snd (by with_reducible assumption) ?_

end Sys2Proof.Machine
end

