-- ==== Sys2Proof/Laws/FieldsAccess.lean ====
section
/-! SUPPORT. Which register fields the operations of Machine/Access.lean may write: one lemma for each, which names the field numbers it can change. -/

set_option linter.unusedTactic false
set_option linter.unreachableTactic false
set_option linter.unusedVariables false

namespace Sys2Proof.Machine

open Sys2Proof

variable {n : Nat} {s0 : State}

theorem setLatch_fld (addr : Nat) (l : Latch) (s : State) (n : Nat)
    (h : FieldKept n s0 s) : FieldKept n s0 (setLatch addr l s) := by
  unfold setLatch
  repeat' first
    | with_reducible assumption
    | (with_reducible apply FieldKept.upd; first | with_reducible assumption)

theorem badAccess_fld (s : State) (hn : [9, 10, 11, 519].contains n = false)
    (h : FieldKept n s0 s) : FieldKept n s0 (badAccess s) := by
  unfold badAccess
  repeat' first
    | with_reducible assumption
    | (exact sub_ne _ _ (by decide) hn)
    | (intro e; subst e; exact absurd hn (by decide))
    | with_reducible apply sat_fld

theorem readEffect_fld (u off : Nat) (s : State) (hn : [476, 477, 479].contains n = false)
    (h : FieldKept n s0 s) : FieldKept n s0 (readEffect u off s) := by
  unfold readEffect
  repeat' first
    | with_reducible assumption
    | (exact sub_ne _ _ (by decide) hn)
    | (intro e; subst e; exact absurd hn (by decide))
    | with_reducible apply FieldKept.ite
    | split
    | with_reducible apply latchTime_fld

theorem takeWord_fld (addr : Nat) (s : State) (hn : [476, 477, 479].contains n = false)
    (h : FieldKept n s0 s) : FieldKept n s0 (takeWord addr s).2 := by
  unfold takeWord
  repeat' first
    | with_reducible assumption
    | (exact sub_ne _ _ (by decide) hn)
    | (intro e; subst e; exact absurd hn (by decide))
    | (extract_lets +onlyGivenNames x; refine (fun (hx : FieldKept n s0 x) => ?_) (?_ : FieldKept n s0 x) <;> [clear_value x; subst x])
    | (extract_lets +onlyGivenNames x; refine (fun (hx : FieldKept n s0 x.2) => ?_) (?_ : FieldKept n s0 x.2) <;> [clear_value x; subst x])
    | (extract_lets +onlyGivenNames x; clear_value x)
    | with_reducible apply FieldKept.ite
    | split
    | with_reducible apply readEffect_fld

theorem bar0Read_fld (addr width : Nat) (s : State) (hn : [9, 10, 11, 476, 477, 479, 519].contains n = false)
    (h : FieldKept n s0 s) : FieldKept n s0 (bar0Read addr width s) := by
  unfold bar0Read
  repeat' first
    | with_reducible assumption
    | (exact sub_ne _ _ (by decide) hn)
    | (intro e; subst e; exact absurd hn (by decide))
    | (extract_lets +onlyGivenNames x; refine (fun (hx : FieldKept n s0 x) => ?_) (?_ : FieldKept n s0 x) <;> [clear_value x; subst x])
    | (extract_lets +onlyGivenNames x; refine (fun (hx : FieldKept n s0 x.2) => ?_) (?_ : FieldKept n s0 x.2) <;> [clear_value x; subst x])
    | (extract_lets +onlyGivenNames x; clear_value x)
    | with_reducible apply FieldKept.ite
    | split
    | with_reducible apply emit_fld
    | with_reducible apply badAccess_fld
    | with_reducible apply setLatch_fld
    | with_reducible apply takeWord_fld
    | refine FieldKept.snd (by with_reducible assumption) ?_

theorem stageField_fld (x : Slot) (v : Nat) (s : State) (hn : [17, 18, 25, 57].contains n = false)
    (h : FieldKept n s0 s) : FieldKept n s0 (stageField x v s) := by
  unfold stageField
  repeat' first
    | with_reducible assumption
    | (exact sub_ne _ _ (by decide) hn)
    | (intro e; subst e; exact absurd hn (by decide))
    | (extract_lets +onlyGivenNames x; refine (fun (hx : FieldKept n s0 x) => ?_) (?_ : FieldKept n s0 x) <;> [clear_value x; subst x])
    | (extract_lets +onlyGivenNames x; clear_value x)
    | with_reducible apply FieldKept.ite
    | split
    | with_reducible apply stagedGainWrite_fld
    | (with_reducible apply FieldKept.upd; first | with_reducible assumption | with_reducible apply stagedGainWrite_fld)

theorem portEnable_fld (p : Nat) (v : Bool) (s : State)
    (hn : [3, 7, 8, 9, 10, 11, 417, 431, 432, 433, 434, 435, 459, 485, 486].contains n = false)
    (h : FieldKept n s0 s) : FieldKept n s0 (portEnable p v s) := by
  unfold portEnable
  repeat' first
    | with_reducible assumption
    | (exact sub_ne _ _ (by decide) hn)
    | (intro e; subst e; exact absurd hn (by decide))
    | (extract_lets +onlyGivenNames x; refine (fun (hx : FieldKept n s0 x) => ?_) (?_ : FieldKept n s0 x) <;> [clear_value x; subst x])
    | (extract_lets +onlyGivenNames x; clear_value x)
    | with_reducible apply FieldKept.ite
    | split
    | with_reducible apply linkDown_fld
    | with_reducible apply portReady_fld
    | with_reducible apply setb_fld

theorem colCmd_fld (i op w : Nat) (s : State)
    (hn : [9, 10, 11, 73, 74, 81, 83, 84, 89, 91, 92, 93, 97, 98, 670, 682, 685, 689, 697, 698, 699, 703, 704,
    705].contains n = false) (h : FieldKept n s0 s) : FieldKept n s0 (colCmd i op w s) := by
  unfold colCmd
  repeat' first
    | with_reducible assumption
    | (exact sub_ne _ _ (by decide) hn)
    | (intro e; subst e; exact absurd hn (by decide))
    | with_reducible apply FieldKept.ite
    | split
    | with_reducible apply loadPantry_fld
    | with_reducible apply evict_fld
    | with_reducible apply programCol_fld

theorem bar2Beyond_fld {m : Nat} (a n : Nat) (s : State)
    (hn : [9, 10, 11, 670, 682, 685, 689, 697, 698, 699, 703, 704, 705].contains m = false)
    (h : FieldKept m s0 s) : FieldKept m s0 (bar2Beyond a n s) := by
  unfold bar2Beyond
  repeat' first
    | with_reducible assumption
    | (exact sub_ne _ _ (by decide) hn)
    | (intro e; subst e; exact absurd hn (by decide))
    | with_reducible apply viewReport_fld

theorem bar2Read_fld {m : Nat} (a n : Nat) (s : State)
    (hn : [9, 10, 11, 670, 682, 685, 689, 697, 698, 699, 703, 704, 705].contains m = false)
    (h : FieldKept m s0 s) : FieldKept m s0 (bar2Read a n s) := by
  unfold bar2Read
  repeat' first
    | with_reducible assumption
    | (exact sub_ne _ _ (by decide) hn)
    | (intro e; subst e; exact absurd hn (by decide))
    | with_reducible apply FieldKept.ite
    | split
    | with_reducible apply emit_fld
    | with_reducible apply bar2Beyond_fld
    | with_reducible apply uncorrectable_fld

theorem poisonWrite_fld (a : Nat) (s : State) (hn : [9, 10, 11, 702].contains n = false)
    (h : FieldKept n s0 s) : FieldKept n s0 (poisonWrite a s) := by
  unfold poisonWrite
  repeat' first
    | with_reducible assumption
    | (exact sub_ne _ _ (by decide) hn)
    | (intro e; subst e; exact absurd hn (by decide))
    | (extract_lets +onlyGivenNames x; refine (fun (hx : FieldKept n s0 x) => ?_) (?_ : FieldKept n s0 x) <;> [clear_value x; subst x])
    | (extract_lets +onlyGivenNames x; clear_value x)
    | with_reducible apply satU_fld

theorem bar2Write_fld (a : Nat) (bs : List Byte) (s : State)
    (hn : [9, 10, 11, 670, 682, 685, 689, 697, 698, 699, 702, 703, 704, 705].contains n = false)
    (h : FieldKept n s0 s) : FieldKept n s0 (bar2Write a bs s) := by
  unfold bar2Write
  repeat' first
    | with_reducible assumption
    | (exact sub_ne _ _ (by decide) hn)
    | (intro e; subst e; exact absurd hn (by decide))
    | (intro x; beta_reduce)
    | (extract_lets +onlyGivenNames x; refine (fun (hx : FieldKept n s0 x) => ?_) (?_ : FieldKept n s0 x) <;> [clear_value x; subst x])
    | (extract_lets +onlyGivenNames x; refine (fun (hx : FieldKept n s0 x.2) => ?_) (?_ : FieldKept n s0 x.2) <;> [clear_value x; subst x])
    | (extract_lets +onlyGivenNames x; clear_value x)
    | with_reducible apply FieldKept.ite
    | split
    | with_reducible apply poisonWrite_fld
    | with_reducible apply storeMem_fld
    | with_reducible apply bar2Beyond_fld
    | with_reducible apply FieldKept.foldl
    | with_reducible apply FieldKept.foldl_snd
    | with_reducible apply FieldKept.foldl_fst

theorem bar2Access_fld (offset width : Nat) (data : Option Nat) (s : State)
    (hn : [9, 10, 11, 520, 670, 682, 685, 689, 697, 698, 699, 702, 703, 704, 705].contains n = false)
    (h : FieldKept n s0 s) : FieldKept n s0 (bar2Access offset width data s) := by
  unfold bar2Access
  repeat' first
    | with_reducible assumption
    | (exact sub_ne _ _ (by decide) hn)
    | (intro e; subst e; exact absurd hn (by decide))
    | (extract_lets +onlyGivenNames x; refine (fun (hx : FieldKept n s0 x) => ?_) (?_ : FieldKept n s0 x) <;> [clear_value x; subst x])
    | (extract_lets +onlyGivenNames x; refine (fun (hx : FieldKept n s0 x.2) => ?_) (?_ : FieldKept n s0 x.2) <;> [clear_value x; subst x])
    | (extract_lets +onlyGivenNames x; clear_value x)
    | with_reducible apply FieldKept.ite
    | split
    | with_reducible apply emit_fld
    | with_reducible apply sat_fld
    | with_reducible apply bar2Read_fld
    | with_reducible apply bar2Write_fld

end Sys2Proof.Machine
end

