-- ==== Sys2Proof/Laws/FieldsCopy.lean ====
section
/-! SUPPORT. Which register fields the operations of Machine/Copy.lean may write: one lemma for each, which names the field numbers it can change. -/

set_option linter.unusedTactic false
set_option linter.unreachableTactic false
set_option linter.unusedVariables false

namespace Sys2Proof.Machine

open Sys2Proof

variable {n : Nat} {s0 : State}

theorem copyCmd_fld (q : SeqId) (cmd : Cmd) (t : Nat) (s : State)
    (hn : [9, 10, 11, 196, 197, 198, 201, 205, 207, 208, 209, 213, 219, 670, 682, 685, 686, 688, 689, 697, 698, 699, 703,
    704, 705].contains n = false) (h : FieldKept n s0 s) : FieldKept n s0 (copyCmd q cmd t s) := by
  unfold copyCmd
  repeat' first
    | with_reducible assumption
    | (exact sub_ne _ _ (by decide) hn)
    | (intro e; subst e; exact absurd hn (by decide))
    | (extract_lets +onlyGivenNames x; refine (fun (hx : FieldKept n s0 x) => ?_) (?_ : FieldKept n s0 x) <;> [clear_value x; subst x])
    | (extract_lets +onlyGivenNames x; clear_value x)
    | with_reducible apply FieldKept.ite
    | split
    | with_reducible apply guardFault_fld
    | with_reducible apply track_fld
    | with_reducible apply CopyJob.report_fld
    | with_reducible apply setPc_fld
    | with_reducible apply noteIssue_fld

end Sys2Proof.Machine
end

