-- ==== Sys2Proof/Laws/KeptOps.lean ====
section
/-! SUPPORT. What the operations of Machine/Ops.lean keep of the queue, the variant and soundness: one lemma for each, cited instead of its unfolding. -/

set_option linter.unusedTactic false
set_option linter.unreachableTactic false
set_option linter.unusedVariables false

namespace Sys2Proof.Machine

open Sys2Proof

variable {s0 : State}

theorem wrU_kept (f : Field) (u idx v : Nat) (s : State) (h : Kept s0 s) : Kept s0 (wrU f u idx v s) := by
  unfold wrU
  repeat' first
    | with_reducible assumption
    | (intro x; beta_reduce)
    | (with_reducible apply Kept.upd; first | with_reducible assumption)

theorem wr_kept (f : Field) (inst idx v : Nat) (s : State) (h : Kept s0 s) : Kept s0 (wr f inst idx v s) := by
  unfold wr
  repeat' first
    | with_reducible assumption
    | (intro x; beta_reduce)
    | with_reducible apply wrU_kept

theorem setb_kept (f : Field) (inst idx : Nat) (b : Bool) (s : State)
    (h : Kept s0 s) : Kept s0 (setb f inst idx b s) := by
  unfold setb
  repeat' first
    | with_reducible assumption
    | (intro x; beta_reduce)
    | with_reducible apply wr_kept

theorem addW_kept (f : Field) (inst idx n : Nat) (s : State) (h : Kept s0 s) : Kept s0 (addW f inst idx n s) := by
  unfold addW
  repeat' first
    | with_reducible assumption
    | (intro x; beta_reduce)
    | with_reducible apply wr_kept

theorem setSat_kept (f : Field) (pu : Nat) (s : State) (h : Kept s0 s) : Kept s0 (setSat f pu s) := by
  unfold setSat
  repeat' first
    | with_reducible assumption
    | (intro x; beta_reduce)
    | (extract_lets +onlyGivenNames x; refine (fun (hx : Kept s0 x) => ?_) (?_ : Kept s0 x) <;> [clear_value x; subst x])
    | (extract_lets +onlyGivenNames x; clear_value x)
    | with_reducible apply Kept.ite
    | split
    | with_reducible apply wrU_kept

theorem clearSatBit_kept (f : Field) (pu : Nat) (s : State) (h : Kept s0 s) : Kept s0 (clearSatBit f pu s) := by
  unfold clearSatBit
  repeat' first
    | with_reducible assumption
    | (intro x; beta_reduce)
    | (extract_lets +onlyGivenNames x; refine (fun (hx : Kept s0 x) => ?_) (?_ : Kept s0 x) <;> [clear_value x; subst x])
    | (extract_lets +onlyGivenNames x; clear_value x)
    | with_reducible apply Kept.ite
    | split
    | with_reducible apply wrU_kept

theorem satU_kept (f : Field) (u idx n pu : Nat) (s : State) (h : Kept s0 s) : Kept s0 (satU f u idx n pu s) := by
  unfold satU
  repeat' first
    | with_reducible assumption
    | (intro x; beta_reduce)
    | (extract_lets +onlyGivenNames x; refine (fun (hx : Kept s0 x) => ?_) (?_ : Kept s0 x) <;> [clear_value x; subst x])
    | (extract_lets +onlyGivenNames x; clear_value x)
    | with_reducible apply Kept.ite
    | split
    | with_reducible apply wrU_kept
    | with_reducible apply setSat_kept

theorem sat_kept (f : Field) (inst idx n : Nat) (s : State) (h : Kept s0 s) : Kept s0 (sat f inst idx n s) := by
  unfold sat
  repeat' first
    | with_reducible assumption
    | (intro x; beta_reduce)
    | with_reducible apply satU_kept

theorem advanceTo_kept (t : Nat) (s : State) (h : Kept s0 s) : Kept s0 (advanceTo t s) :=
  h.timed rfl rfl rfl rfl (Nat.mod_lt _ (by decide))

theorem free_kept (s : State) (h : Kept s0 s) : Kept s0 (free s).2 := by
  unfold free
  repeat' first
    | with_reducible assumption
    | (intro x; beta_reduce)
    | (with_reducible apply Kept.upd; first | with_reducible assumption)

theorem emit_kept (o : Output) (s : State) (h : Kept s0 s) : Kept s0 (emit o s) := by
  unfold emit
  repeat' first
    | with_reducible assumption
    | (intro x; beta_reduce)
    | (with_reducible apply Kept.upd; first | with_reducible assumption)

theorem writeByte_kept (space a : Nat) (b : Byte) (s : State) (h : Kept s0 s) : Kept s0 (writeByte space a b s) := by
  unfold writeByte
  split
  · exact h.mem _ _
  · exact h

theorem writeBytes_kept (space a : Nat) (bs : List Byte) (s : State) (h : Kept s0 s) :
    Kept s0 (writeBytes space a bs s) := by
  induction bs generalizing a s with
  | nil => exact h
  | cons b bs ih => exact ih _ _ (writeByte_kept _ _ _ _ h)

theorem clearPoison_kept (space a n : Nat) (s : State) (h : Kept s0 s) : Kept s0 (clearPoison space a n s) := by
  unfold clearPoison
  repeat' first
    | with_reducible assumption
    | (intro x; beta_reduce)
    | (extract_lets +onlyGivenNames x; refine (fun (hx : Kept s0 x) => ?_) (?_ : Kept s0 x) <;> [clear_value x; subst x])
    | (extract_lets +onlyGivenNames x; clear_value x)
    | (with_reducible apply Kept.upd; first | with_reducible assumption)

theorem keepOld_kept (space a n : Nat) (land : Option Nat) (s : State)
    (h : Kept s0 s) : Kept s0 (keepOld space a n land s) := by
  unfold keepOld
  repeat' first
    | with_reducible assumption
    | (intro x; beta_reduce)
    | with_reducible apply Kept.ite
    | split
    | (with_reducible apply Kept.upd; first | with_reducible assumption)

theorem dropTags_kept (space a n : Nat) (s : State) (h : Kept s0 s) : Kept s0 (dropTags space a n s) := by
  unfold dropTags
  repeat' first
    | with_reducible assumption
    | (intro x; beta_reduce)
    | (with_reducible apply Kept.upd; first | with_reducible assumption)

theorem storeAs_kept (land : Option Nat) (space a : Nat) (bs : List Byte) (s : State)
    (h : Kept s0 s) : Kept s0 (storeAs land space a bs s) := by
  unfold storeAs
  repeat' first
    | with_reducible assumption
    | (intro x; beta_reduce)
    | with_reducible apply clearPoison_kept
    | with_reducible apply writeBytes_kept
    | with_reducible apply keepOld_kept
    | with_reducible apply dropTags_kept

theorem store_kept (space a : Nat) (bs : List Byte) (s : State) (h : Kept s0 s) : Kept s0 (store space a bs s) := by
  unfold store
  repeat' first
    | with_reducible assumption
    | (intro x; beta_reduce)
    | with_reducible apply storeAs_kept

theorem larderAsOf_kept (c : Nat) (s : State) (h : Kept s0 s) : Kept s0 (larderAsOf c s) := by
  unfold larderAsOf
  repeat' first
    | with_reducible assumption
    | (intro x; beta_reduce)
    | with_reducible apply Kept.ite
    | split
    | with_reducible apply Kept.foldl
    | with_reducible apply Kept.foldl_snd
    | with_reducible apply Kept.foldl_fst
    | with_reducible apply Kept.foldr
    | (with_reducible apply Kept.upd; first | with_reducible assumption | with_reducible apply Kept.foldl | with_reducible apply Kept.foldl_snd | with_reducible apply Kept.foldl_fst | with_reducible apply Kept.foldr)

theorem asOf_kept (c : Nat) (s : State) (h : Kept s0 s) : Kept s0 (asOf c s) := by
  unfold asOf
  repeat' first
    | with_reducible assumption
    | (intro x; beta_reduce)
    | with_reducible apply Kept.ite
    | split
    | with_reducible apply writeBytes_kept
    | with_reducible apply larderAsOf_kept
    | with_reducible apply Kept.foldr

theorem poisonWord_kept (space a : Nat) (s : State) (h : Kept s0 s) : Kept s0 (poisonWord space a s) := by
  unfold poisonWord
  repeat' first
    | with_reducible assumption
    | (intro x; beta_reduce)
    | with_reducible apply Kept.ite
    | split
    | (with_reducible apply Kept.upd; first | with_reducible assumption)

theorem breakWord_kept (space a : Nat) (s : State) (h : Kept s0 s) : Kept s0 (breakWord space a s) := by
  unfold breakWord
  repeat' first
    | with_reducible assumption
    | (intro x; beta_reduce)
    | with_reducible apply Kept.ite
    | split
    | (with_reducible apply Kept.upd; first | with_reducible assumption)

theorem storeMem_kept (a : Nat) (bs : List Byte) (s : State) (h : Kept s0 s) : Kept s0 (storeMem a bs s) := by
  unfold storeMem
  repeat' first
    | with_reducible assumption
    | (intro x; beta_reduce)
    | with_reducible apply store_kept

theorem logEntry_kept (l key : Nat) (bs : List Byte) (s : State) (h : Kept s0 s) : Kept s0 (logEntry l key bs s) := by
  unfold logEntry
  repeat' first
    | with_reducible assumption
    | (intro x; beta_reduce)
    | (extract_lets +onlyGivenNames x; refine (fun (hx : Kept s0 x) => ?_) (?_ : Kept s0 x) <;> [clear_value x; subst x])
    | (extract_lets +onlyGivenNames x; refine (fun (hx : Kept s0 x.2) => ?_) (?_ : Kept s0 x.2) <;> [clear_value x; subst x])
    | (extract_lets +onlyGivenNames x; clear_value x)
    | with_reducible apply Kept.ite
    | split
    | with_reducible apply storeMem_kept
    | with_reducible apply wr_kept
    | with_reducible apply sat_kept
    | with_reducible apply Kept.foldl
    | with_reducible apply Kept.foldl_snd
    | with_reducible apply Kept.foldl_fst
    | (with_reducible apply Kept.upd; first | with_reducible assumption | with_reducible apply storeMem_kept | with_reducible apply wr_kept | with_reducible apply sat_kept | with_reducible apply Kept.foldl | with_reducible apply Kept.foldl_snd | with_reducible apply Kept.foldl_fst)

theorem errorLog_kept (unitType unitInst cls cause tag : Nat) (tagValid : Bool) (addr detail : Nat) (s : State)
    (h : Kept s0 s) : Kept s0 (errorLog unitType unitInst cls cause tag tagValid addr detail s) := by
  unfold errorLog
  repeat' first
    | with_reducible assumption
    | (intro x; beta_reduce)
    | with_reducible apply logEntry_kept

theorem guardEntry_kept (die tag gen kind lines dieCode addr cycles : Nat) (s : State)
    (h : Kept s0 s) : Kept s0 (guardEntry die tag gen kind lines dieCode addr cycles s) := by
  unfold guardEntry
  repeat' first
    | with_reducible assumption
    | (intro x; beta_reduce)
    | (extract_lets +onlyGivenNames x; refine (fun (hx : Kept s0 x) => ?_) (?_ : Kept s0 x) <;> [clear_value x; subst x])
    | (extract_lets +onlyGivenNames x; clear_value x)
    | with_reducible apply sat_kept
    | with_reducible apply logEntry_kept

theorem dueDump_kept (die : Nat) (s : State) (h : Kept s0 s) : Kept s0 (dueDump die s) := by
  unfold dueDump
  repeat' first
    | with_reducible assumption
    | (intro x; beta_reduce)
    | with_reducible apply Kept.ite
    | split
    | with_reducible apply sat_kept
    | (with_reducible apply Kept.upd; first | with_reducible assumption | with_reducible apply sat_kept)

theorem programFatal_kept (die kind tag : Nat) (s : State)
    (h : Kept s0 s) : Kept s0 (programFatal die kind tag s) := by
  unfold programFatal
  repeat' first
    | with_reducible assumption
    | (intro x; beta_reduce)
    | (extract_lets +onlyGivenNames x; refine (fun (hx : Kept s0 x) => ?_) (?_ : Kept s0 x) <;> [clear_value x; subst x])
    | (extract_lets +onlyGivenNames x; refine (fun (hx : Kept s0 x.2) => ?_) (?_ : Kept s0 x.2) <;> [clear_value x; subst x])
    | (extract_lets +onlyGivenNames x; clear_value x)
    | with_reducible apply Kept.ite
    | split
    | with_reducible apply sat_kept
    | with_reducible apply wr_kept
    | with_reducible apply setb_kept
    | with_reducible apply dueDump_kept
    | (with_reducible apply Kept.upd; first | with_reducible assumption | with_reducible apply sat_kept | with_reducible apply wr_kept | with_reducible apply setb_kept | with_reducible apply dueDump_kept)

theorem guardFault_kept (die tag gen kind lines dieCode addr cycles : Nat) (s : State)
    (h : Kept s0 s) : Kept s0 (guardFault die tag gen kind lines dieCode addr cycles s) := by
  unfold guardFault
  repeat' first
    | with_reducible assumption
    | (intro x; beta_reduce)
    | (extract_lets +onlyGivenNames x; refine (fun (hx : Kept s0 x) => ?_) (?_ : Kept s0 x) <;> [clear_value x; subst x])
    | (extract_lets +onlyGivenNames x; clear_value x)
    | with_reducible apply Kept.ite
    | split
    | with_reducible apply guardEntry_kept
    | with_reducible apply programFatal_kept

theorem countUncorr_kept (space : Nat) (ws : List Nat) (s : State)
    (h : Kept s0 s) : Kept s0 (countUncorr space ws s) := by
  unfold countUncorr
  repeat' first
    | with_reducible assumption
    | (intro x; beta_reduce)
    | (extract_lets +onlyGivenNames x; refine (fun (hx : Kept s0 x) => ?_) (?_ : Kept s0 x) <;> [clear_value x; subst x])
    | (extract_lets +onlyGivenNames x; refine (fun (hx : Kept s0 x.2) => ?_) (?_ : Kept s0 x.2) <;> [clear_value x; subst x])
    | (extract_lets +onlyGivenNames x; clear_value x)
    | with_reducible apply satU_kept
    | with_reducible apply wrU_kept
    | with_reducible apply Kept.foldl
    | with_reducible apply Kept.foldl_snd
    | with_reducible apply Kept.foldl_fst

theorem meetWords_kept (space : Nat) (ws : List Nat) (s : State)
    (h : Kept s0 s) : Kept s0 (meetWords space ws s) := by
  unfold meetWords
  repeat' first
    | with_reducible assumption
    | (intro x; beta_reduce)
    | (extract_lets +onlyGivenNames x; refine (fun (hx : Kept s0 x) => ?_) (?_ : Kept s0 x) <;> [clear_value x; subst x])
    | (extract_lets +onlyGivenNames x; clear_value x)
    | (with_reducible apply Kept.upd; first | with_reducible assumption)

theorem uncorrectable_kept (space : Nat) (ws : List Nat) (cause tag : Nat) (tagValid : Bool) (s : State)
    (h : Kept s0 s) : Kept s0 (uncorrectable space ws cause tag tagValid s) := by
  unfold uncorrectable
  repeat' first
    | with_reducible assumption
    | (intro x; beta_reduce)
    | (extract_lets +onlyGivenNames x; refine (fun (hx : Kept s0 x) => ?_) (?_ : Kept s0 x) <;> [clear_value x; subst x])
    | (extract_lets +onlyGivenNames x; clear_value x)
    | with_reducible apply Kept.ite
    | split
    | with_reducible apply meetWords_kept
    | with_reducible apply setb_kept
    | with_reducible apply sat_kept
    | with_reducible apply countUncorr_kept
    | with_reducible apply errorLog_kept

theorem viewReport_kept (space a n : Nat) (tag : Option Nat) (s : State)
    (h : Kept s0 s) : Kept s0 (viewReport space a n tag s) := by
  unfold viewReport
  repeat' first
    | with_reducible assumption
    | (intro x; beta_reduce)
    | with_reducible apply Kept.ite
    | split
    | with_reducible apply uncorrectable_kept

theorem readReportOf_kept (space a n : Nat) (tag : Option Nat) (s : State)
    (h : Kept s0 s) : Kept s0 (readReportOf space a n tag s) := by
  unfold readReportOf
  repeat' first
    | with_reducible assumption
    | (intro x; beta_reduce)
    | with_reducible apply Kept.ite
    | split
    | with_reducible apply viewReport_kept
    | with_reducible apply uncorrectable_kept

theorem readReport_kept (space a n tag : Nat) (s : State) (h : Kept s0 s) : Kept s0 (readReport space a n tag s) := by
  unfold readReport
  repeat' first
    | with_reducible assumption
    | (intro x; beta_reduce)
    | with_reducible apply readReportOf_kept

theorem partReport_kept (a n : Nat) (s : State) (h : Kept s0 s) : Kept s0 (partReport a n s) := by
  unfold partReport
  repeat' first
    | with_reducible assumption
    | (intro x; beta_reduce)
    | with_reducible apply readReportOf_kept

theorem setQueue_kept (d q : Nat) (ts : List QTok) (s : State) (hl : Sound s → ts.length ≤ 64) (h : Kept s0 s) :
    Kept s0 (setQueue d q ts s) :=
  h.queue d q ts hl

theorem settleHead_kept (dieCode n : Nat) (s : State) (h : Kept s0 s) : Kept s0 (settleHead dieCode n s) := by
  unfold settleHead
  split
  · exact h
  · extract_lets r
    split
    · exact h
    · refine sat_kept _ _ _ _ _ ⟨h.1, h.2, fun hs => ?_⟩
      have hs' := h.3 hs
      exact ((Kept.refl s).queue _ _ _ fun hs => (dropStale_le _ _).trans (queueOf_le hs _ _)).3 hs'

theorem enqueue_kept (src : Option Nat) (die dieCode q word e : Nat) (s : State) (h : Kept s0 s) :
    Kept s0 (enqueue src die dieCode q word e s) := by
  unfold enqueue
  extract_lets ts
  split
  · exact settleHead_kept _ _ _ (setQueue_kept _ _ _ _ (fun _ => by rw [insertTok_length]; omega) h)
  · exact guardFault_kept _ _ _ _ _ _ _ _ _ h

theorem hostRingWrite_kept (r n : Nat) (bs : List Byte) (s : State)
    (h : Kept s0 s) : Kept s0 (hostRingWrite r n bs s) := by
  unfold hostRingWrite
  repeat' first
    | with_reducible assumption
    | (intro x; beta_reduce)
    | (extract_lets +onlyGivenNames x; refine (fun (hx : Kept s0 x) => ?_) (?_ : Kept s0 x) <;> [clear_value x; subst x])
    | (extract_lets +onlyGivenNames x; clear_value x)
    | with_reducible apply emit_kept
    | with_reducible apply wr_kept

theorem hostRecord_kept (d token ns : Nat) (s : State) (h : Kept s0 s) : Kept s0 (hostRecord d token ns s) := by
  unfold hostRecord
  repeat' first
    | with_reducible assumption
    | (intro x; beta_reduce)
    | (extract_lets +onlyGivenNames x; refine (fun (hx : Kept s0 x) => ?_) (?_ : Kept s0 x) <;> [clear_value x; subst x])
    | (extract_lets +onlyGivenNames x; clear_value x)
    | with_reducible apply Kept.ite
    | split
    | with_reducible apply setb_kept
    | with_reducible apply sat_kept
    | with_reducible apply hostRingWrite_kept

theorem dieRecord_kept (d token ns : Nat) (s : State) (h : Kept s0 s) : Kept s0 (dieRecord d token ns s) := by
  unfold dieRecord
  repeat' first
    | with_reducible assumption
    | (intro x; beta_reduce)
    | (extract_lets +onlyGivenNames x; refine (fun (hx : Kept s0 x) => ?_) (?_ : Kept s0 x) <;> [clear_value x; subst x])
    | (extract_lets +onlyGivenNames x; clear_value x)
    | with_reducible apply Kept.ite
    | split
    | with_reducible apply sat_kept
    | with_reducible apply wr_kept
    | with_reducible apply storeMem_kept

theorem completionRecord_kept (d token : Nat) (notify : Bool) (c : Nat) (s : State)
    (h : Kept s0 s) : Kept s0 (completionRecord d token notify c s) := by
  unfold completionRecord
  repeat' first
    | with_reducible assumption
    | (intro x; beta_reduce)
    | (extract_lets +onlyGivenNames x; refine (fun (hx : Kept s0 x) => ?_) (?_ : Kept s0 x) <;> [clear_value x; subst x])
    | (extract_lets +onlyGivenNames x; clear_value x)
    | with_reducible apply Kept.ite
    | split
    | with_reducible apply dieRecord_kept
    | with_reducible apply hostRecord_kept

end Sys2Proof.Machine
end

