-- ==== Sys2Proof/Laws/KeptFlags.lean ====
section
/-! SUPPORT. What the operations of Machine/Flags.lean keep of the queue, the variant and soundness: one lemma for each, cited instead of its unfolding. -/

set_option linter.unusedTactic false
set_option linter.unreachableTactic false
set_option linter.unusedVariables false

namespace Sys2Proof.Machine

open Sys2Proof

variable {s0 : State}

theorem setPred_kept (q : SeqId) (i : Nat) (b : Bool) (s : State) (h : Kept s0 s) : Kept s0 (setPred q i b s) := by
  unfold setPred
  repeat' first
    | with_reducible assumption
    | (intro x; beta_reduce)
    | with_reducible apply wr_kept

theorem foldStatus_kept (q : SeqId) (tok : Nat) (s : State) (h : Kept s0 s) : Kept s0 (foldStatus q tok s) := by
  unfold foldStatus
  repeat' first
    | with_reducible assumption
    | (intro x; beta_reduce)
    | with_reducible apply wr_kept

theorem setLast_kept (q : SeqId) (tok : Nat) (s : State) (h : Kept s0 s) : Kept s0 (setLast q tok s) := by
  unfold setLast
  repeat' first
    | with_reducible assumption
    | (intro x; beta_reduce)
    | with_reducible apply wr_kept
    | with_reducible apply setb_kept

theorem statusLoad_kept (q : SeqId) (toks : List Nat) (s : State)
    (h : Kept s0 s) : Kept s0 (statusLoad q toks s) := by
  unfold statusLoad
  repeat' first
    | with_reducible assumption
    | (intro x; beta_reduce)
    | with_reducible apply setLast_kept
    | with_reducible apply foldStatus_kept
    | with_reducible apply Kept.foldl
    | with_reducible apply Kept.foldl_snd
    | with_reducible apply Kept.foldl_fst

theorem wrA_kept (f : Field) (die p sub v : Nat) (s : State) (h : Kept s0 s) : Kept s0 (wrA f die p sub v s) := by
  unfold wrA
  repeat' first
    | with_reducible assumption
    | (intro x; beta_reduce)
    | with_reducible apply wrU_kept

end Sys2Proof.Machine
end

