-- ==== Sys2Proof/Laws/KeptSequencer.lean ====
section
/-! SUPPORT. What the operations of Machine/Sequencer.lean keep of the queue, the variant and soundness: one lemma for each, cited instead of its unfolding. -/

set_option linter.unusedTactic false
set_option linter.unreachableTactic false
set_option linter.unusedVariables false

namespace Sys2Proof.Machine

open Sys2Proof

variable {s0 : State}

theorem setSeqX_kept (q : SeqId) (x : SeqX) (s : State) (h : Kept s0 s) : Kept s0 (setSeqX q x s) := by
  unfold setSeqX
  repeat' first
    | with_reducible assumption
    | (intro x; beta_reduce)
    | (with_reducible apply Kept.upd; first | with_reducible assumption)

theorem setSeqState_kept (q : SeqId) (v : Nat) (s : State) (h : Kept s0 s) : Kept s0 (setSeqState q v s) := by
  unfold setSeqState
  repeat' first
    | with_reducible assumption
    | (intro x; beta_reduce)
    | with_reducible apply wr_kept

theorem toIdle_kept (q : SeqId) (s : State) (h : Kept s0 s) : Kept s0 (toIdle q s) := by
  unfold toIdle
  repeat' first
    | with_reducible assumption
    | (intro x; beta_reduce)
    | with_reducible apply setSeqState_kept

theorem setPc_kept (q : SeqId) (n : Nat) (s : State) (h : Kept s0 s) : Kept s0 (setPc q n s) := by
  unfold setPc
  repeat' first
    | with_reducible assumption
    | (intro x; beta_reduce)
    | (extract_lets +onlyGivenNames x; refine (fun (hx : Kept s0 x) => ?_) (?_ : Kept s0 x) <;> [clear_value x; subst x])
    | (extract_lets +onlyGivenNames x; clear_value x)
    | with_reducible apply Kept.ite
    | split
    | with_reducible apply wr_kept
    | with_reducible apply toIdle_kept

theorem enterOther_kept (q : SeqId) (tag base : Nat) (s : State)
    (h : Kept s0 s) : Kept s0 (enterOther q tag base s) := by
  unfold enterOther
  repeat' first
    | with_reducible assumption
    | (intro x; beta_reduce)
    | (extract_lets +onlyGivenNames x; refine (fun (hx : Kept s0 x) => ?_) (?_ : Kept s0 x) <;> [clear_value x; subst x])
    | (extract_lets +onlyGivenNames x; refine (fun (hx : Kept s0 x.2) => ?_) (?_ : Kept s0 x.2) <;> [clear_value x; subst x])
    | (extract_lets +onlyGivenNames x; clear_value x)
    | with_reducible apply Kept.ite
    | split
    | with_reducible apply wr_kept
    | with_reducible apply setSeqX_kept
    | with_reducible apply guardFault_kept
    | with_reducible apply setSeqState_kept
    | (with_reducible apply Kept.upd; first | with_reducible assumption | with_reducible apply wr_kept | with_reducible apply setSeqX_kept | with_reducible apply guardFault_kept | with_reducible apply setSeqState_kept)

theorem popQueue_kept (q : SeqId) (n from' : Nat) (s : State) (h : Kept s0 s) : Kept s0 (popQueue q n from' s).2 := by
  unfold popQueue
  extract_lets s'
  have h' : Kept s0 s' := settleHead_kept _ _ _ h
  clear_value s'
  split
  · exact h'
  · rename_i t ts e
    refine settleHead_kept _ _ _ ⟨h'.1, h'.2, fun hs => ?_⟩
    have hs' := h'.3 hs
    exact ((Kept.refl s').queue _ _ ts fun hs => by
      have := queueOf_le hs (queueDie q) n
      rw [e] at this
      simp at this
      omega).3 hs'

theorem enterWait_kept (q : SeqId) (n from' : Nat) (s : State) (h : Kept s0 s) : Kept s0 (enterWait q n from' s) := by
  unfold enterWait
  repeat' first
    | with_reducible assumption
    | (intro x; beta_reduce)
    | (extract_lets +onlyGivenNames x; refine (fun (hx : Kept s0 x) => ?_) (?_ : Kept s0 x) <;> [clear_value x; subst x])
    | (extract_lets +onlyGivenNames x; clear_value x)
    | with_reducible apply setSeqX_kept
    | with_reducible apply setb_kept
    | with_reducible apply wr_kept
    | with_reducible apply setSeqState_kept
    | (with_reducible apply Kept.upd; first | with_reducible assumption | with_reducible apply setSeqX_kept | with_reducible apply setb_kept | with_reducible apply wr_kept | with_reducible apply setSeqState_kept)

theorem leaveWait_kept (q : SeqId) (s : State) (h : Kept s0 s) : Kept s0 (leaveWait q s) := by
  unfold leaveWait
  repeat' first
    | with_reducible assumption
    | (intro x; beta_reduce)
    | with_reducible apply Kept.ite
    | split
    | with_reducible apply setb_kept
    | with_reducible apply setSeqState_kept
    | with_reducible apply setSeqX_kept
    | (with_reducible apply Kept.upd; first | with_reducible assumption | with_reducible apply setb_kept | with_reducible apply setSeqState_kept | with_reducible apply setSeqX_kept)

theorem doWaits_kept (q : SeqId) (c : Cmd) (s : State) (h : Kept s0 s) : Kept s0 (doWaits q c s).2 := by
  unfold doWaits
  extract_lets x start ra
  have hra : Kept s0 ra.2 := by
    show Kept s0 (ite _ _ _ : Option (List Nat × Option Nat) × State).2
    repeat' first
      | with_reducible assumption
      | split
      | with_reducible apply setSeqX_kept
      | with_reducible apply enterWait_kept
      | (refine Kept.snd (by with_reducible assumption) ?_; apply popQueue_kept)
  clear_value ra
  obtain ⟨o, s'⟩ := ra
  cases o with
  | none => exact hra
  | some o =>
    obtain ⟨o1, o2⟩ := o
    show Kept s0 (ite _ _ _ : Option (List Nat × Option Nat) × State).2
    replace hra : Kept s0 s' := hra
    repeat' first
      | with_reducible assumption
      | split
      | with_reducible apply setSeqX_kept
      | with_reducible apply enterWait_kept
      | (refine Kept.snd (by with_reducible assumption) ?_; apply popQueue_kept)

theorem loadStatus_kept (q : SeqId) (toks : List Nat) (s : State)
    (h : Kept s0 s) : Kept s0 (loadStatus q toks s) := by
  unfold loadStatus
  repeat' first
    | with_reducible assumption
    | (intro x; beta_reduce)
    | (extract_lets +onlyGivenNames x; refine (fun (hx : Kept s0 x) => ?_) (?_ : Kept s0 x) <;> [clear_value x; subst x])
    | (extract_lets +onlyGivenNames x; refine (fun (hx : Kept s0 x.2) => ?_) (?_ : Kept s0 x.2) <;> [clear_value x; subst x])
    | (extract_lets +onlyGivenNames x; clear_value x)
    | with_reducible apply Kept.ite
    | split
    | with_reducible apply statusLoad_kept
    | with_reducible apply setSeqX_kept
    | (with_reducible apply Kept.upd; first | with_reducible assumption | with_reducible apply statusLoad_kept | with_reducible apply setSeqX_kept)

theorem noteIssue_kept (q : SeqId) (t : Nat) (s : State) (h : Kept s0 s) : Kept s0 (noteIssue q t s) := by
  unfold noteIssue
  repeat' first
    | with_reducible assumption
    | (intro x; beta_reduce)
    | (extract_lets +onlyGivenNames x; refine (fun (hx : Kept s0 x) => ?_) (?_ : Kept s0 x) <;> [clear_value x; subst x])
    | (extract_lets +onlyGivenNames x; clear_value x)
    | with_reducible apply addW_kept
    | with_reducible apply wr_kept
    | with_reducible apply setSeqX_kept
    | (with_reducible apply Kept.upd; first | with_reducible assumption | with_reducible apply addW_kept | with_reducible apply wr_kept | with_reducible apply setSeqX_kept)

theorem produceAt_kept (q : SeqId) (c : Cmd) (word e : Nat) (s : State)
    (h : Kept s0 s) : Kept s0 (produceAt q c word e s) := by
  unfold produceAt
  repeat' first
    | with_reducible assumption
    | (intro x; beta_reduce)
    | (extract_lets +onlyGivenNames x; refine (fun (hx : Kept s0 x) => ?_) (?_ : Kept s0 x) <;> [clear_value x; subst x])
    | (extract_lets +onlyGivenNames x; clear_value x)
    | with_reducible apply Kept.ite
    | split
    | with_reducible apply enqueue_kept
    | (with_reducible apply Kept.upd; first | with_reducible assumption | with_reducible apply enqueue_kept)

theorem skipCmd_kept (q : SeqId) (c : Cmd) (t : Nat) (s : State) (h : Kept s0 s) : Kept s0 (skipCmd q c t s) := by
  unfold skipCmd
  repeat' first
    | with_reducible assumption
    | (intro x; beta_reduce)
    | (extract_lets +onlyGivenNames x; refine (fun (hx : Kept s0 x) => ?_) (?_ : Kept s0 x) <;> [clear_value x; subst x])
    | (extract_lets +onlyGivenNames x; clear_value x)
    | with_reducible apply addW_kept
    | with_reducible apply noteIssue_kept
    | with_reducible apply completionRecord_kept
    | with_reducible apply produceAt_kept
    | with_reducible apply setPc_kept

/-- The state in which a command that issues runs. -/
theorem prepare_kept (q : SeqId) (cls op : Nat) (s : State) (h : Kept s0 s) :
    (∀ t, prepare q cls op s = .hold t → Kept s0 t) ∧
      ∀ t c n ts b, prepare q cls op s = .go t c n ts b → Kept s0 t := by
  have hw := doWaits_kept (s0 := s0) q
  unfold prepare
  split
  · simp [h]
  · rename_i c _
    split
    · simp [h]
    · split
      · rename_i e
        have := Kept.snd e (hw c s h)
        simp [this]
      · rename_i toks pop s' e
        have hs := Kept.snd e (hw c s h)
        extract_lets t1 stopped s1 s2
        split
        · simp [h]
        · refine ⟨by simp, fun t c' n ts b e => ?_⟩
          have : t = s2 := by
            injection e with e
            exact e.symm
          subst this
          have h1 : Kept s0 s1 := advanceTo_kept _ _ (leaveWait_kept _ _ hs)
          show Kept s0 (if c.statusLoad then loadStatus q toks s1 else s1)
          split
          · exact loadStatus_kept _ _ _ h1
          · exact h1

theorem streamCmd_kept (q : SeqId) (cls op : Nat) (body : Cmd → Nat → List Nat → State → State) (s : State)
    (hbody : ∀ c t toks s, Kept s0 s → Kept s0 (body c t toks s)) (h : Kept s0 s) :
    Kept s0 (streamCmd q cls op body s) := by
  unfold streamCmd
  split
  · rename_i e
    exact (prepare_kept q cls op s h).1 _ e
  · rename_i e
    have := (prepare_kept q cls op s h).2 _ _ _ _ _ e
    split
    · exact hbody _ _ _ _ this
    · exact skipCmd_kept _ _ _ _ this

theorem markLines_kept (p : PendingOp) (s : State) (h : Kept s0 s) : Kept s0 (markLines p s) := by
  unfold markLines
  repeat' first
    | with_reducible assumption
    | (intro x; beta_reduce)
    | (extract_lets +onlyGivenNames x; refine (fun (hx : Kept s0 x) => ?_) (?_ : Kept s0 x) <;> [clear_value x; subst x])
    | (extract_lets +onlyGivenNames x; refine (fun (hx : Kept s0 x.2) => ?_) (?_ : Kept s0 x.2) <;> [clear_value x; subst x])
    | (extract_lets +onlyGivenNames x; clear_value x)
    | with_reducible apply Kept.foldl
    | with_reducible apply Kept.foldl_snd
    | with_reducible apply Kept.foldl_fst
    | (with_reducible apply Kept.upd; first | with_reducible assumption | with_reducible apply Kept.foldl | with_reducible apply Kept.foldl_snd | with_reducible apply Kept.foldl_fst)

theorem remarkLines_kept (p : PendingOp) (land : Option Nat) (s : State)
    (h : Kept s0 s) : Kept s0 (remarkLines p land s) := by
  unfold remarkLines
  repeat' first
    | with_reducible assumption
    | (intro x; beta_reduce)
    | with_reducible apply Kept.ite
    | split
    | (with_reducible apply Kept.upd; first | with_reducible assumption)

theorem addOp_kept (p : PendingOp) (s : State) (h : Kept s0 s) : Kept s0 (addOp p s) := by
  unfold addOp
  repeat' first
    | with_reducible assumption
    | (intro x; beta_reduce)
    | (extract_lets +onlyGivenNames x; refine (fun (hx : Kept s0 x) => ?_) (?_ : Kept s0 x) <;> [clear_value x; subst x])
    | (extract_lets +onlyGivenNames x; clear_value x)
    | with_reducible apply markLines_kept
    | (with_reducible apply Kept.upd; first | with_reducible assumption | with_reducible apply markLines_kept)

theorem track_kept (p : PendingOp) (s : State) (h : Kept s0 s) : Kept s0 (track p s) := by
  unfold track
  repeat' first
    | with_reducible assumption
    | (intro x; beta_reduce)
    | (extract_lets +onlyGivenNames x; refine (fun (hx : Kept s0 x) => ?_) (?_ : Kept s0 x) <;> [clear_value x; subst x])
    | (extract_lets +onlyGivenNames x; clear_value x)
    | with_reducible apply Kept.ite
    | split
    | with_reducible apply addOp_kept
    | with_reducible apply wr_kept

theorem guardReads_kept (q : SeqId) (tag gen c : Nat) (rs : List Range) (s : State)
    (h : Kept s0 s) : Kept s0 (guardReads q tag gen c rs s) := by
  unfold guardReads
  repeat' first
    | with_reducible assumption
    | (intro x; beta_reduce)
    | with_reducible apply Kept.ite
    | split
    | with_reducible apply guardFault_kept

theorem reportReads_kept (tag : Nat) (rs : List Range) (s : State)
    (h : Kept s0 s) : Kept s0 (reportReads tag rs s) := by
  unfold reportReads
  repeat' first
    | with_reducible assumption
    | (intro x; beta_reduce)
    | with_reducible apply readReport_kept
    | with_reducible apply Kept.foldl
    | with_reducible apply Kept.foldl_snd
    | with_reducible apply Kept.foldl_fst

theorem layerOverflow_kept (die tid wide cause frm : Nat) (o : OverflowFlag) (s : State)
    (h : Kept s0 s) : Kept s0 (layerOverflow die tid wide cause frm o s) := by
  unfold layerOverflow
  repeat' first
    | with_reducible assumption
    | (intro x; beta_reduce)
    | (extract_lets +onlyGivenNames x; refine (fun (hx : Kept s0 x) => ?_) (?_ : Kept s0 x) <;> [clear_value x; subst x])
    | (extract_lets +onlyGivenNames x; clear_value x)
    | with_reducible apply logEntry_kept
    | (with_reducible apply Kept.upd; first | with_reducible assumption | with_reducible apply logEntry_kept)

theorem setOverFlag_kept (q : SeqId) (f : Nat) (o : OverflowFlag) (s : State)
    (h : Kept s0 s) : Kept s0 (setOverFlag q f o s) := by
  unfold setOverFlag
  repeat' first
    | with_reducible assumption
    | (intro x; beta_reduce)
    | (extract_lets +onlyGivenNames x; refine (fun (hx : Kept s0 x) => ?_) (?_ : Kept s0 x) <;> [clear_value x; subst x])
    | (extract_lets +onlyGivenNames x; clear_value x)
    | with_reducible apply setSeqX_kept
    | (with_reducible apply Kept.upd; first | with_reducible assumption | with_reducible apply setSeqX_kept)

theorem noteRepeat_kept (q : SeqId) (c : Cmd) (s : State) (h : Kept s0 s) : Kept s0 (noteRepeat q c s) := by
  unfold noteRepeat
  repeat' first
    | with_reducible assumption
    | (intro x; beta_reduce)
    | (extract_lets +onlyGivenNames x; refine (fun (hx : Kept s0 x) => ?_) (?_ : Kept s0 x) <;> [clear_value x; subst x])
    | (extract_lets +onlyGivenNames x; refine (fun (hx : Kept s0 x.2) => ?_) (?_ : Kept s0 x.2) <;> [clear_value x; subst x])
    | (extract_lets +onlyGivenNames x; clear_value x)
    | with_reducible apply Kept.ite
    | split
    | with_reducible apply free_kept
    | with_reducible apply setOverFlag_kept
    | with_reducible apply layerOverflow_kept
    | refine Kept.snd (by with_reducible assumption) ?_
    | (with_reducible apply Kept.upd; first | with_reducible assumption | with_reducible apply free_kept | with_reducible apply setOverFlag_kept | with_reducible apply layerOverflow_kept | refine Kept.snd (by with_reducible assumption) ?_)

theorem noteOver_kept (p : PendingOp) (s : State) (h : Kept s0 s) : Kept s0 (noteOver p s) := by
  unfold noteOver
  repeat' first
    | with_reducible assumption
    | (intro x; beta_reduce)
    | (extract_lets +onlyGivenNames x; refine (fun (hx : Kept s0 x) => ?_) (?_ : Kept s0 x) <;> [clear_value x; subst x])
    | (extract_lets +onlyGivenNames x; refine (fun (hx : Kept s0 x.2) => ?_) (?_ : Kept s0 x.2) <;> [clear_value x; subst x])
    | (extract_lets +onlyGivenNames x; clear_value x)
    | with_reducible apply Kept.ite
    | split
    | (with_reducible apply Kept.upd; first | with_reducible assumption)

theorem noteOverflowEnd_kept (p : PendingOp) (s : State) (h : Kept s0 s) : Kept s0 (noteOverflowEnd p s) := by
  unfold noteOverflowEnd
  repeat' first
    | with_reducible assumption
    | (intro x; beta_reduce)
    | (extract_lets +onlyGivenNames x; refine (fun (hx : Kept s0 x) => ?_) (?_ : Kept s0 x) <;> [clear_value x; subst x])
    | (extract_lets +onlyGivenNames x; refine (fun (hx : Kept s0 x.2) => ?_) (?_ : Kept s0 x.2) <;> [clear_value x; subst x])
    | (extract_lets +onlyGivenNames x; clear_value x)
    | with_reducible apply Kept.ite
    | split
    | with_reducible apply noteOver_kept
    | with_reducible apply setOverFlag_kept
    | with_reducible apply layerOverflow_kept
    | (with_reducible apply Kept.upd; first | with_reducible assumption | with_reducible apply noteOver_kept | with_reducible apply setOverFlag_kept | with_reducible apply layerOverflow_kept)

theorem startOp_kept (q : SeqId) (cmd : Cmd) (rc c : Nat) (r : OpResult) (s : State)
    (h : Kept s0 s) : Kept s0 (startOp q cmd rc c r s) := by
  unfold startOp
  repeat' first
    | with_reducible assumption
    | (intro x; beta_reduce)
    | (extract_lets +onlyGivenNames x; refine (fun (hx : Kept s0 x) => ?_) (?_ : Kept s0 x) <;> [clear_value x; subst x])
    | (extract_lets +onlyGivenNames x; clear_value x)
    | with_reducible apply Kept.ite
    | split
    | with_reducible apply guardFault_kept
    | with_reducible apply reportReads_kept
    | with_reducible apply guardReads_kept
    | with_reducible apply programFatal_kept
    | with_reducible apply errorLog_kept
    | with_reducible apply noteRepeat_kept
    | with_reducible apply track_kept

theorem setBusy_kept (k c : Nat) (s : State) (h : Kept s0 s) : Kept s0 (setBusy k c s) := by
  unfold setBusy
  repeat' first
    | with_reducible assumption
    | (intro x; beta_reduce)
    | (with_reducible apply Kept.upd; first | with_reducible assumption)

theorem collide_kept (q : SeqId) (t free : Nat) (s : State) (h : Kept s0 s) : Kept s0 (collide q t free s) := by
  unfold collide
  repeat' first
    | with_reducible assumption
    | (intro x; beta_reduce)
    | (extract_lets +onlyGivenNames x; refine (fun (hx : Kept s0 x) => ?_) (?_ : Kept s0 x) <;> [clear_value x; subst x])
    | (extract_lets +onlyGivenNames x; refine (fun (hx : Kept s0 x.2) => ?_) (?_ : Kept s0 x.2) <;> [clear_value x; subst x])
    | (extract_lets +onlyGivenNames x; clear_value x)
    | with_reducible apply Kept.ite
    | split
    | with_reducible apply guardFault_kept
    | with_reducible apply free_kept
    | with_reducible apply setSeqX_kept
    | with_reducible apply setPc_kept
    | with_reducible apply noteIssue_kept
    | refine Kept.snd (by with_reducible assumption) ?_
    | (with_reducible apply Kept.upd; first | with_reducible assumption | with_reducible apply guardFault_kept | with_reducible apply free_kept | with_reducible apply setSeqX_kept | with_reducible apply setPc_kept | with_reducible apply noteIssue_kept | refine Kept.snd (by with_reducible assumption) ?_)

theorem engineCmd_kept (q : SeqId) (eng : Ctx → Cmd → State → OpResult) (cmd : Cmd) (t : Nat) (s : State)
    (h : Kept s0 s) : Kept s0 (engineCmd q eng cmd t s) := by
  unfold engineCmd
  repeat' first
    | with_reducible assumption
    | (intro x; beta_reduce)
    | (extract_lets +onlyGivenNames x; refine (fun (hx : Kept s0 x) => ?_) (?_ : Kept s0 x) <;> [clear_value x; subst x])
    | (extract_lets +onlyGivenNames x; clear_value x)
    | with_reducible apply Kept.ite
    | split
    | with_reducible apply collide_kept
    | with_reducible apply asOf_kept
    | with_reducible apply startOp_kept
    | with_reducible apply setPc_kept
    | with_reducible apply noteIssue_kept
    | with_reducible apply setBusy_kept

theorem applyCount_kept (k : Count) (s : State) (h : Kept s0 s) : Kept s0 (applyCount k s) := by
  unfold applyCount
  repeat' first
    | with_reducible assumption
    | (intro x; beta_reduce)
    | with_reducible apply Kept.ite
    | split
    | with_reducible apply sat_kept
    | with_reducible apply satU_kept
    | with_reducible apply wrU_kept

theorem keepLarder_kept (l : Nat) (w : LarderWrite) (s : State) (h : Kept s0 s) : Kept s0 (keepLarder l w s) := by
  unfold keepLarder
  repeat' first
    | with_reducible assumption
    | (intro x; beta_reduce)
    | (extract_lets +onlyGivenNames x; refine (fun (hx : Kept s0 x) => ?_) (?_ : Kept s0 x) <;> [clear_value x; subst x])
    | (extract_lets +onlyGivenNames x; clear_value x)
    | (with_reducible apply Kept.upd; first | with_reducible assumption)

theorem applyLarder_kept (l : Nat) (w : LarderWrite) (s : State) (h : Kept s0 s) : Kept s0 (applyLarder l w s) := by
  unfold applyLarder
  repeat' first
    | with_reducible assumption
    | (intro x; beta_reduce)
    | (extract_lets +onlyGivenNames x; refine (fun (hx : Kept s0 x) => ?_) (?_ : Kept s0 x) <;> [clear_value x; subst x])
    | (extract_lets +onlyGivenNames x; refine (fun (hx : Kept s0 x.2) => ?_) (?_ : Kept s0 x.2) <;> [clear_value x; subst x])
    | (extract_lets +onlyGivenNames x; clear_value x)
    | with_reducible apply Kept.ite
    | split
    | with_reducible apply keepLarder_kept
    | with_reducible apply wrU_kept
    | (with_reducible apply Kept.upd; first | with_reducible assumption | with_reducible apply keepLarder_kept | with_reducible apply wrU_kept)

theorem applyWrite_kept (l : Nat) (w : WriteBack) (s : State) (h : Kept s0 s) : Kept s0 (applyWrite l w s) := by
  unfold applyWrite
  repeat' first
    | with_reducible assumption
    | (intro x; beta_reduce)
    | with_reducible apply storeAs_kept

theorem applyAudit_kept (a : AuditSample) (s : State) (h : Kept s0 s) : Kept s0 (applyAudit a s) := by
  unfold applyAudit
  repeat' first
    | with_reducible assumption
    | (intro x; beta_reduce)
    | (extract_lets +onlyGivenNames x; refine (fun (hx : Kept s0 x) => ?_) (?_ : Kept s0 x) <;> [clear_value x; subst x])
    | (extract_lets +onlyGivenNames x; clear_value x)
    | with_reducible apply Kept.ite
    | split
    | with_reducible apply sat_kept
    | with_reducible apply wr_kept

theorem sampleLoss_kept (ws : List WriteBack) (s : State) (h : Kept s0 s) : Kept s0 (sampleLoss ws s) := by
  unfold sampleLoss
  repeat' first
    | with_reducible assumption
    | (intro x; beta_reduce)
    | (extract_lets +onlyGivenNames x; refine (fun (hx : Kept s0 x) => ?_) (?_ : Kept s0 x) <;> [clear_value x; subst x])
    | (extract_lets +onlyGivenNames x; clear_value x)
    | with_reducible apply Kept.ite
    | split
    | with_reducible apply wr_kept
    | (with_reducible apply Kept.upd; first | with_reducible assumption | with_reducible apply wr_kept)

theorem settleAudits_kept (ap : Nat) (s : State) (h : Kept s0 s) : Kept s0 (settleAudits ap s) := by
  unfold settleAudits
  repeat' first
    | with_reducible assumption
    | (intro x; beta_reduce)
    | (extract_lets +onlyGivenNames x; refine (fun (hx : Kept s0 x) => ?_) (?_ : Kept s0 x) <;> [clear_value x; subst x])
    | (extract_lets +onlyGivenNames x; refine (fun (hx : Kept s0 x.2) => ?_) (?_ : Kept s0 x.2) <;> [clear_value x; subst x])
    | (extract_lets +onlyGivenNames x; clear_value x)
    | with_reducible apply applyAudit_kept
    | with_reducible apply Kept.foldl
    | with_reducible apply Kept.foldl_snd
    | with_reducible apply Kept.foldl_fst
    | with_reducible apply Kept.foldr
    | (with_reducible apply Kept.upd; first | with_reducible assumption | with_reducible apply applyAudit_kept | with_reducible apply Kept.foldl | with_reducible apply Kept.foldl_snd | with_reducible apply Kept.foldl_fst | with_reducible apply Kept.foldr)

theorem landOp_kept (p : PendingOp) (s : State) (h : Kept s0 s) : Kept s0 (landOp p s) := by
  unfold landOp
  repeat' first
    | with_reducible assumption
    | (intro x; beta_reduce)
    | (extract_lets +onlyGivenNames x; refine (fun (hx : Kept s0 x) => ?_) (?_ : Kept s0 x) <;> [clear_value x; subst x])
    | (extract_lets +onlyGivenNames x; refine (fun (hx : Kept s0 x.2) => ?_) (?_ : Kept s0 x.2) <;> [clear_value x; subst x])
    | (extract_lets +onlyGivenNames x; clear_value x)
    | with_reducible apply Kept.ite
    | split
    | with_reducible apply applyWrite_kept
    | with_reducible apply viewReport_kept
    | with_reducible apply applyLarder_kept
    | with_reducible apply poisonWord_kept
    | with_reducible apply settleAudits_kept
    | with_reducible apply applyCount_kept
    | with_reducible apply noteOverflowEnd_kept
    | with_reducible apply sampleLoss_kept
    | with_reducible apply remarkLines_kept
    | with_reducible apply Kept.foldl
    | with_reducible apply Kept.foldl_snd
    | with_reducible apply Kept.foldl_fst
    | (with_reducible apply Kept.upd; first | with_reducible assumption | with_reducible apply applyWrite_kept | with_reducible apply viewReport_kept | with_reducible apply applyLarder_kept | with_reducible apply poisonWord_kept | with_reducible apply settleAudits_kept | with_reducible apply applyCount_kept | with_reducible apply noteOverflowEnd_kept | with_reducible apply sampleLoss_kept | with_reducible apply remarkLines_kept | with_reducible apply Kept.foldl | with_reducible apply Kept.foldl_snd | with_reducible apply Kept.foldl_fst)

theorem releaseOps_kept (e : Nat) (ps : List PendingOp) (bl : List (Nat × Nat × Nat × Nat)) (s : State) (h : Kept s0 s) :
    Kept s0 (releaseOps e ps bl s).2 := by
  induction ps generalizing bl s with
  | nil => exact h
  | cons p ps ih =>
    unfold releaseOps
    repeat' first
      | with_reducible assumption
      | (extract_lets +onlyGivenNames x; refine (fun (hx : Kept s0 x) => ?_) (?_ : Kept s0 x) <;> [clear_value x; subst x])
      | (extract_lets +onlyGivenNames x; refine (fun (hx : Kept s0 x.2) => ?_) (?_ : Kept s0 x.2) <;> [clear_value x; subst x])
      | split
      | apply ih
      | with_reducible apply enqueue_kept
      | with_reducible apply completionRecord_kept

theorem refreshTracker_kept (s : State) (h : Kept s0 s) : Kept s0 (refreshTracker s) := by
  unfold refreshTracker
  repeat' first
    | with_reducible assumption
    | (intro x; beta_reduce)
    | with_reducible apply wr_kept
    | with_reducible apply Kept.foldl
    | with_reducible apply Kept.foldl_snd
    | with_reducible apply Kept.foldl_fst

theorem CopyJob.report_kept (j : CopyJob) (die tag gen c : Nat) (s : State)
    (h : Kept s0 s) : Kept s0 (CopyJob.report j die tag gen c s) := by
  unfold CopyJob.report
  repeat' first
    | with_reducible assumption
    | (intro x; beta_reduce)
    | (extract_lets +onlyGivenNames x; refine (fun (hx : Kept s0 x) => ?_) (?_ : Kept s0 x) <;> [clear_value x; subst x])
    | (extract_lets +onlyGivenNames x; clear_value x)
    | with_reducible apply reportReads_kept
    | with_reducible apply guardReads_kept

theorem nextCopy_kept (space c : Nat) (s : State) (h : Kept s0 s) : Kept s0 (nextCopy space c s) := by
  unfold nextCopy
  repeat' first
    | with_reducible assumption
    | (intro x; beta_reduce)
    | (extract_lets +onlyGivenNames x; refine (fun (hx : Kept s0 x) => ?_) (?_ : Kept s0 x) <;> [clear_value x; subst x])
    | (extract_lets +onlyGivenNames x; refine (fun (hx : Kept s0 x.2) => ?_) (?_ : Kept s0 x.2) <;> [clear_value x; subst x])
    | (extract_lets +onlyGivenNames x; clear_value x)
    | with_reducible apply Kept.ite
    | split
    | with_reducible apply CopyJob.report_kept
    | with_reducible apply remarkLines_kept
    | (with_reducible apply Kept.upd; first | with_reducible assumption | with_reducible apply CopyJob.report_kept | with_reducible apply remarkLines_kept)

theorem completeOp_kept (die tag : Nat) (s : State) (h : Kept s0 s) : Kept s0 (completeOp die tag s) := by
  unfold completeOp
  repeat' first
    | with_reducible assumption
    | (intro x; beta_reduce)
    | (extract_lets +onlyGivenNames x; refine (fun (hx : Kept s0 x) => ?_) (?_ : Kept s0 x) <;> [clear_value x; subst x])
    | (extract_lets +onlyGivenNames x; refine (fun (hx : Kept s0 x.2) => ?_) (?_ : Kept s0 x.2) <;> [clear_value x; subst x])
    | (extract_lets +onlyGivenNames x; clear_value x)
    | with_reducible apply Kept.ite
    | split
    | with_reducible apply advanceTo_kept
    | with_reducible apply landOp_kept
    | with_reducible apply releaseOps_kept
    | with_reducible apply refreshTracker_kept
    | with_reducible apply nextCopy_kept
    | refine Kept.snd (by with_reducible assumption) ?_
    | (with_reducible apply Kept.upd; first | with_reducible assumption | with_reducible apply advanceTo_kept | with_reducible apply landOp_kept | with_reducible apply releaseOps_kept | with_reducible apply refreshTracker_kept | with_reducible apply nextCopy_kept | refine Kept.snd (by with_reducible assumption) ?_)

end Sys2Proof.Machine
end

