-- ==== Sys2Proof/Laws/KeptControl.lean ====
section
/-! SUPPORT. What the operations of Machine/Control.lean keep of the queue, the variant and soundness: one lemma for each, cited instead of its unfolding. -/

set_option linter.unusedTactic false
set_option linter.unreachableTactic false
set_option linter.unusedVariables false

namespace Sys2Proof.Machine

open Sys2Proof

variable {s0 : State}

theorem setReg_kept (q : SeqId) (r v : Nat) (s : State) (h : Kept s0 s) : Kept s0 (setReg q r v s) := by
  unfold setReg
  repeat' first
    | with_reducible assumption
    | (intro x; beta_reduce)
    | with_reducible apply wr_kept

theorem controlIssue_kept (q : SeqId) (c : Cmd) (t tok : Nat) (effect : State → State) (s : State)
    (heffect : ∀ s, Kept s0 s → Kept s0 (effect s)) (h : Kept s0 s) : Kept s0 (controlIssue q c t tok effect s) := by
  unfold controlIssue
  repeat' first
    | with_reducible assumption
    | (intro x; beta_reduce)
    | (extract_lets +onlyGivenNames x; refine (fun (hx : Kept s0 x) => ?_) (?_ : Kept s0 x) <;> [clear_value x; subst x])
    | (extract_lets +onlyGivenNames x; clear_value x)
    | with_reducible apply heffect
    | with_reducible apply completionRecord_kept
    | with_reducible apply produceAt_kept
    | with_reducible apply setPc_kept
    | with_reducible apply noteIssue_kept

theorem controlCmd_kept (q : SeqId) (op : Nat) (effect : Cmd → State → State) (s : State)
    (heffect : ∀ x0 s, Kept s0 s → Kept s0 (effect x0 s)) (h : Kept s0 s) : Kept s0 (controlCmd q op effect s) := by
  unfold controlCmd
  repeat' first
    | with_reducible assumption
    | (intro x; beta_reduce)
    | with_reducible apply heffect
    | with_reducible apply streamCmd_kept
    | with_reducible apply controlIssue_kept

theorem setDreg_kept (q : SeqId) (f : Cmd → State → Nat) (c : Cmd) (s : State)
    (h : Kept s0 s) : Kept s0 (setDreg q f c s) := by
  unfold setDreg
  repeat' first
    | with_reducible assumption
    | (intro x; beta_reduce)
    | with_reducible apply setReg_kept

theorem jumpTo_kept (q : SeqId) (c : Cmd) (s : State) (h : Kept s0 s) : Kept s0 (jumpTo q c s) := by
  unfold jumpTo
  repeat' first
    | with_reducible assumption
    | (intro x; beta_reduce)
    | with_reducible apply setPc_kept
    | with_reducible apply setSeqState_kept

theorem setFlag_kept (q : SeqId) (f : Nat) (b : Bool) (o : Option OverflowFlag) (s : State)
    (h : Kept s0 s) : Kept s0 (setFlag q f b o s) := by
  unfold setFlag
  repeat' first
    | with_reducible assumption
    | (intro x; beta_reduce)
    | (extract_lets +onlyGivenNames x; refine (fun (hx : Kept s0 x) => ?_) (?_ : Kept s0 x) <;> [clear_value x; subst x])
    | (extract_lets +onlyGivenNames x; refine (fun (hx : Kept s0 x.2) => ?_) (?_ : Kept s0 x.2) <;> [clear_value x; subst x])
    | (extract_lets +onlyGivenNames x; clear_value x)
    | with_reducible apply Kept.ite
    | split
    | with_reducible apply setSeqX_kept
    | with_reducible apply setPred_kept
    | (with_reducible apply Kept.upd; first | with_reducible assumption | with_reducible apply setSeqX_kept | with_reducible apply setPred_kept)

theorem clearSticky_kept (q : SeqId) (s : State) (h : Kept s0 s) : Kept s0 (clearSticky q s) := by
  unfold clearSticky
  repeat' first
    | with_reducible assumption
    | (intro x; beta_reduce)
    | with_reducible apply wr_kept
    | with_reducible apply setSeqX_kept
    | (with_reducible apply Kept.upd; first | with_reducible assumption | with_reducible apply wr_kept | with_reducible apply setSeqX_kept)

theorem switchAtBoundary_kept (q : SeqId) (s : State) (h : Kept s0 s) : Kept s0 (switchAtBoundary q s) := by
  unfold switchAtBoundary
  repeat' first
    | with_reducible assumption
    | (intro x; beta_reduce)
    | (extract_lets +onlyGivenNames x; refine (fun (hx : Kept s0 x) => ?_) (?_ : Kept s0 x) <;> [clear_value x; subst x])
    | (extract_lets +onlyGivenNames x; refine (fun (hx : Kept s0 x.2) => ?_) (?_ : Kept s0 x.2) <;> [clear_value x; subst x])
    | (extract_lets +onlyGivenNames x; clear_value x)
    | with_reducible apply Kept.ite
    | split
    | with_reducible apply doWaits_kept
    | with_reducible apply advanceTo_kept
    | with_reducible apply enterOther_kept
    | with_reducible apply leaveWait_kept
    | with_reducible apply setSeqX_kept
    | refine Kept.snd (by with_reducible assumption) ?_
    | (with_reducible apply Kept.upd; first | with_reducible assumption | with_reducible apply doWaits_kept | with_reducible apply advanceTo_kept | with_reducible apply enterOther_kept | with_reducible apply leaveWait_kept | with_reducible apply setSeqX_kept | refine Kept.snd (by with_reducible assumption) ?_)

theorem tokenTimeout_kept (q : SeqId) (s : State) (h : Kept s0 s) : Kept s0 (tokenTimeout q s) := by
  unfold tokenTimeout
  repeat' first
    | with_reducible assumption
    | (intro x; beta_reduce)
    | (extract_lets +onlyGivenNames x; refine (fun (hx : Kept s0 x) => ?_) (?_ : Kept s0 x) <;> [clear_value x; subst x])
    | (extract_lets +onlyGivenNames x; refine (fun (hx : Kept s0 x.2) => ?_) (?_ : Kept s0 x.2) <;> [clear_value x; subst x])
    | (extract_lets +onlyGivenNames x; clear_value x)
    | with_reducible apply Kept.ite
    | split
    | with_reducible apply setSeqX_kept
    | with_reducible apply advanceTo_kept
    | with_reducible apply guardFault_kept
    | with_reducible apply setb_kept
    | with_reducible apply setSeqState_kept
    | (with_reducible apply Kept.upd; first | with_reducible assumption | with_reducible apply setSeqX_kept | with_reducible apply advanceTo_kept | with_reducible apply guardFault_kept | with_reducible apply setb_kept | with_reducible apply setSeqState_kept)

theorem stopSeq_kept (q : SeqId) (s : State) (h : Kept s0 s) : Kept s0 (stopSeq q s) := by
  unfold stopSeq
  repeat' first
    | with_reducible assumption
    | (intro x; beta_reduce)
    | with_reducible apply Kept.ite
    | split
    | with_reducible apply setb_kept
    | with_reducible apply setSeqState_kept
    | with_reducible apply setSeqX_kept
    | (with_reducible apply Kept.upd; first | with_reducible assumption | with_reducible apply setb_kept | with_reducible apply setSeqState_kept | with_reducible apply setSeqX_kept)

theorem programStop_kept (s : State) (h : Kept s0 s) : Kept s0 (programStop s) := by
  unfold programStop
  repeat' first
    | with_reducible assumption
    | (intro x; beta_reduce)
    | with_reducible apply Kept.ite
    | split
    | with_reducible apply stopSeq_kept
    | with_reducible apply advanceTo_kept
    | with_reducible apply Kept.foldl
    | with_reducible apply Kept.foldl_snd
    | with_reducible apply Kept.foldl_fst
    | (with_reducible apply Kept.upd; first | with_reducible assumption | with_reducible apply stopSeq_kept | with_reducible apply advanceTo_kept | with_reducible apply Kept.foldl | with_reducible apply Kept.foldl_snd | with_reducible apply Kept.foldl_fst)

end Sys2Proof.Machine
end

