-- ==== Sys2Proof/Laws/KeptArrays.lean ====
section
/-! SUPPORT. What the operations of Machine/Arrays.lean keep of the queue, the variant and soundness: one lemma for each, cited instead of its unfolding. -/

set_option linter.unusedTactic false
set_option linter.unreachableTactic false
set_option linter.unusedVariables false

namespace Sys2Proof.Machine

open Sys2Proof

variable {s0 : State}

theorem setArrX_kept (die p : Nat) (x : ArrX) (s : State) (h : Kept s0 s) : Kept s0 (setArrX die p x s) := by
  unfold setArrX
  repeat' first
    | with_reducible assumption
    | (intro x; beta_reduce)
    | (with_reducible apply Kept.upd; first | with_reducible assumption)

theorem markUnready_kept (inst : Nat) (s : State) (h : Kept s0 s) : Kept s0 (markUnready inst s) := by
  unfold markUnready
  repeat' first
    | with_reducible assumption
    | (intro x; beta_reduce)
    | with_reducible apply Kept.ite
    | split
    | (with_reducible apply Kept.upd; first | with_reducible assumption)

theorem settleWrites_kept (s : State) (h : Kept s0 s) : Kept s0 (settleWrites s) := by
  unfold settleWrites
  repeat' first
    | with_reducible assumption
    | (intro x; beta_reduce)
    | (with_reducible apply Kept.upd; first | with_reducible assumption)

theorem setReady_kept (u : Nat) (ready : Bool) (reason detail : Nat) (s : State)
    (h : Kept s0 s) : Kept s0 (setReady u ready reason detail s) := by
  unfold setReady
  repeat' first
    | with_reducible assumption
    | (intro x; beta_reduce)
    | (extract_lets +onlyGivenNames x; refine (fun (hx : Kept s0 x) => ?_) (?_ : Kept s0 x) <;> [clear_value x; subst x])
    | (extract_lets +onlyGivenNames x; clear_value x)
    | with_reducible apply Kept.ite
    | split
    | with_reducible apply settleWrites_kept
    | with_reducible apply wrU_kept
    | with_reducible apply markUnready_kept

theorem advanceAudit_kept (inst die p l : Nat) (s : State)
    (h : Kept s0 s) : Kept s0 (advanceAudit inst die p l s) := by
  unfold advanceAudit
  repeat' first
    | with_reducible assumption
    | (intro x; beta_reduce)
    | (extract_lets +onlyGivenNames x; refine (fun (hx : Kept s0 x) => ?_) (?_ : Kept s0 x) <;> [clear_value x; subst x])
    | (extract_lets +onlyGivenNames x; refine (fun (hx : Kept s0 x.2) => ?_) (?_ : Kept s0 x.2) <;> [clear_value x; subst x])
    | (extract_lets +onlyGivenNames x; clear_value x)
    | with_reducible apply Kept.ite
    | split
    | with_reducible apply setArrX_kept
    | (with_reducible apply Kept.upd; first | with_reducible assumption | with_reducible apply setArrX_kept)

theorem abortSweep_kept (inst die p t : Nat) (s : State) (h : Kept s0 s) : Kept s0 (abortSweep inst die p t s) := by
  unfold abortSweep
  repeat' first
    | with_reducible assumption
    | (intro x; beta_reduce)
    | (extract_lets +onlyGivenNames x; refine (fun (hx : Kept s0 x) => ?_) (?_ : Kept s0 x) <;> [clear_value x; subst x])
    | (extract_lets +onlyGivenNames x; refine (fun (hx : Kept s0 x.2) => ?_) (?_ : Kept s0 x.2) <;> [clear_value x; subst x])
    | (extract_lets +onlyGivenNames x; clear_value x)
    | with_reducible apply Kept.ite
    | split
    | with_reducible apply setArrX_kept
    | with_reducible apply sat_kept
    | (with_reducible apply Kept.upd; first | with_reducible assumption | with_reducible apply setArrX_kept | with_reducible apply sat_kept)

theorem occupyArrays_kept (inst die t : Nat) (sparse : Bool) (arrs : List (Nat × Nat × ArrRes × SegIn)) (s : State)
    (h : Kept s0 s) : Kept s0 (occupyArrays inst die t sparse arrs s) := by
  unfold occupyArrays
  repeat' first
    | with_reducible assumption
    | (intro x; beta_reduce)
    | (extract_lets +onlyGivenNames x; refine (fun (hx : Kept s0 x) => ?_) (?_ : Kept s0 x) <;> [clear_value x; subst x])
    | (extract_lets +onlyGivenNames x; refine (fun (hx : Kept s0 x.2) => ?_) (?_ : Kept s0 x.2) <;> [clear_value x; subst x])
    | (extract_lets +onlyGivenNames x; clear_value x)
    | with_reducible apply Kept.ite
    | split
    | with_reducible apply abortSweep_kept
    | with_reducible apply setArrX_kept
    | with_reducible apply setBusy_kept
    | with_reducible apply advanceAudit_kept
    | with_reducible apply Kept.foldl
    | with_reducible apply Kept.foldl_snd
    | with_reducible apply Kept.foldl_fst
    | (with_reducible apply Kept.upd; first | with_reducible assumption | with_reducible apply abortSweep_kept | with_reducible apply setArrX_kept | with_reducible apply setBusy_kept | with_reducible apply advanceAudit_kept | with_reducible apply Kept.foldl | with_reducible apply Kept.foldl_snd | with_reducible apply Kept.foldl_fst)

theorem productCmd_kept (q : SeqId) (codes : List (Nat × Int)) (c : Cmd) (t : Nat) (s : State)
    (h : Kept s0 s) : Kept s0 (productCmd q codes c t s) := by
  unfold productCmd
  repeat' first
    | with_reducible assumption
    | (intro x; beta_reduce)
    | (extract_lets +onlyGivenNames x; refine (fun (hx : Kept s0 x) => ?_) (?_ : Kept s0 x) <;> [clear_value x; subst x])
    | (extract_lets +onlyGivenNames x; clear_value x)
    | with_reducible apply Kept.ite
    | split
    | with_reducible apply setPc_kept
    | with_reducible apply noteIssue_kept
    | with_reducible apply programFatal_kept
    | with_reducible apply errorLog_kept
    | with_reducible apply collide_kept
    | with_reducible apply startOp_kept
    | with_reducible apply asOf_kept
    | with_reducible apply advanceTo_kept
    | with_reducible apply occupyArrays_kept
    | (with_reducible apply Kept.upd; first | with_reducible assumption | with_reducible apply setPc_kept | with_reducible apply noteIssue_kept | with_reducible apply programFatal_kept | with_reducible apply errorLog_kept | with_reducible apply collide_kept | with_reducible apply startOp_kept | with_reducible apply asOf_kept | with_reducible apply advanceTo_kept | with_reducible apply occupyArrays_kept)

end Sys2Proof.Machine
end

