-- ==== Sys2Proof/Laws/KeptPages.lean ====
section
/-! SUPPORT. What the operations of Machine/Pages.lean keep of the queue, the variant and soundness: one lemma for each, cited instead of its unfolding. -/

set_option linter.unusedTactic false
set_option linter.unreachableTactic false
set_option linter.unusedVariables false

namespace Sys2Proof.Machine

open Sys2Proof

variable {s0 : State}

theorem pageAccess_kept (u : Nat) (s : State) (h : Kept s0 s) : Kept s0 (pageAccess u s) := by
  unfold pageAccess
  repeat' first
    | with_reducible assumption
    | (intro x; beta_reduce)
    | (with_reducible apply Kept.upd; first | with_reducible assumption)

theorem clearFields_kept (u : Nat) (p : Field → FKey → Bool) (s : State)
    (h : Kept s0 s) : Kept s0 (clearFields u p s) := by
  unfold clearFields
  repeat' first
    | with_reducible assumption
    | (intro x; beta_reduce)
    | with_reducible apply Kept.ite
    | split
    | (with_reducible apply Kept.upd; first | with_reducible assumption)

theorem keepSat_kept (u : Nat) (s : State) (h : Kept s0 s) : Kept s0 (keepSat u s) := by
  unfold keepSat
  repeat' first
    | with_reducible assumption
    | (intro x; beta_reduce)
    | with_reducible apply Kept.ite
    | split
    | with_reducible apply sat_kept
    | with_reducible apply setSat_kept
    | with_reducible apply Kept.foldl
    | with_reducible apply Kept.foldl_snd
    | with_reducible apply Kept.foldl_fst

theorem cntClear_kept (u : Nat) (s : State) (h : Kept s0 s) : Kept s0 (cntClear u s) := by
  unfold cntClear
  repeat' first
    | with_reducible assumption
    | (intro x; beta_reduce)
    | (extract_lets +onlyGivenNames x; refine (fun (hx : Kept s0 x) => ?_) (?_ : Kept s0 x) <;> [clear_value x; subst x])
    | (extract_lets +onlyGivenNames x; clear_value x)
    | with_reducible apply Kept.ite
    | split
    | with_reducible apply clearFields_kept
    | with_reducible apply sat_kept
    | with_reducible apply keepSat_kept
    | with_reducible apply wrU_kept
    | with_reducible apply wr_kept

theorem expertRestore_kept (u : Nat) (s : State) (h : Kept s0 s) : Kept s0 (expertRestore u s) := by
  unfold expertRestore
  repeat' first
    | with_reducible assumption
    | (intro x; beta_reduce)
    | with_reducible apply Kept.ite
    | split
    | (with_reducible apply Kept.upd; first | with_reducible assumption)

end Sys2Proof.Machine
end

