-- ==== Sys2Proof/Laws/KeptRow.lean ====
section
/-! SUPPORT. What the operations of Machine/Row.lean keep of the queue, the variant and soundness: one lemma for each, cited instead of its unfolding. -/

set_option linter.unusedTactic false
set_option linter.unreachableTactic false
set_option linter.unusedVariables false

namespace Sys2Proof.Machine

open Sys2Proof

variable {s0 : State}

theorem rowCmd_kept (q : SeqId) (op : Nat) (s : State) (h : Kept s0 s) : Kept s0 (rowCmd q op s) := by
  unfold rowCmd
  repeat' first
    | with_reducible assumption
    | (intro x; beta_reduce)
    | with_reducible apply streamCmd_kept
    | with_reducible apply engineCmd_kept

theorem larderFlush_kept (unit : Nat) (s : State) (h : Kept s0 s) : Kept s0 (larderFlush unit s) := by
  unfold larderFlush
  repeat' first
    | with_reducible assumption
    | (intro x; beta_reduce)
    | (with_reducible apply Kept.upd; first | with_reducible assumption)

theorem larderFlushAll_kept (s : State) (h : Kept s0 s) : Kept s0 (larderFlushAll s) := by
  unfold larderFlushAll
  repeat' first
    | with_reducible assumption
    | (intro x; beta_reduce)
    | (with_reducible apply Kept.upd; first | with_reducible assumption)

end Sys2Proof.Machine
end

