-- ==== Sys2Proof/Laws/KeptVector.lean ====
section
/-! SUPPORT. What the operations of Machine/Vector.lean keep of the queue, the variant and soundness: one lemma for each, cited instead of its unfolding. -/

set_option linter.unusedTactic false
set_option linter.unreachableTactic false
set_option linter.unusedVariables false

namespace Sys2Proof.Machine

open Sys2Proof

variable {s0 : State}

theorem vectorCmd_kept (q : SeqId) (op : Nat) (s : State) (h : Kept s0 s) : Kept s0 (vectorCmd q op s) := by
  unfold vectorCmd
  repeat' first
    | with_reducible assumption
    | (intro x; beta_reduce)
    | with_reducible apply streamCmd_kept
    | with_reducible apply engineCmd_kept

end Sys2Proof.Machine
end

