-- ==== Sys2Proof/Laws/KeptBins.lean ====
section
/-! SUPPORT. What the operations of Machine/Bins.lean keep of the queue, the variant and soundness: one lemma for each, cited instead of its unfolding. -/

set_option linter.unusedTactic false
set_option linter.unreachableTactic false
set_option linter.unusedVariables false

namespace Sys2Proof.Machine

open Sys2Proof

variable {s0 : State}

theorem binResult_kept (die code index : Nat) (s : State) (h : Kept s0 s) : Kept s0 (binResult die code index s) := by
  unfold binResult
  repeat' first
    | with_reducible assumption
    | (intro x; beta_reduce)
    | with_reducible apply wr_kept

theorem setValid_kept (q : SeqId) (b : Nat) (v : Bool) (s : State) (h : Kept s0 s) : Kept s0 (setValid q b v s) := by
  unfold setValid
  repeat' first
    | with_reducible assumption
    | (intro x; beta_reduce)
    | with_reducible apply Kept.ite
    | split
    | with_reducible apply setb_kept

theorem binLoad_kept (die seq bin : Nat) (s : State) (h : Kept s0 s) : Kept s0 (binLoad die seq bin s) := by
  unfold binLoad
  repeat' first
    | with_reducible assumption
    | (intro x; beta_reduce)
    | (extract_lets +onlyGivenNames x; refine (fun (hx : Kept s0 x) => ?_) (?_ : Kept s0 x) <;> [clear_value x; subst x])
    | (extract_lets +onlyGivenNames x; clear_value x)
    | with_reducible apply Kept.ite
    | split
    | with_reducible apply wr_kept
    | with_reducible apply binResult_kept
    | with_reducible apply sat_kept
    | with_reducible apply setb_kept
    | with_reducible apply setValid_kept
    | (with_reducible apply Kept.upd; first | with_reducible assumption | with_reducible apply wr_kept | with_reducible apply binResult_kept | with_reducible apply sat_kept | with_reducible apply setb_kept | with_reducible apply setValid_kept)

theorem binLoadDone_kept (die : Nat) (s : State) (h : Kept s0 s) : Kept s0 (binLoadDone die s) := by
  unfold binLoadDone
  repeat' first
    | with_reducible assumption
    | (intro x; beta_reduce)
    | (extract_lets +onlyGivenNames x; refine (fun (hx : Kept s0 x) => ?_) (?_ : Kept s0 x) <;> [clear_value x; subst x])
    | (extract_lets +onlyGivenNames x; refine (fun (hx : Kept s0 x.2) => ?_) (?_ : Kept s0 x.2) <;> [clear_value x; subst x])
    | (extract_lets +onlyGivenNames x; clear_value x)
    | with_reducible apply Kept.ite
    | split
    | with_reducible apply setb_kept
    | with_reducible apply viewReport_kept
    | with_reducible apply uncorrectable_kept
    | with_reducible apply free_kept
    | with_reducible apply programFatal_kept
    | with_reducible apply binResult_kept
    | with_reducible apply setValid_kept
    | refine Kept.snd (by with_reducible assumption) ?_
    | (with_reducible apply Kept.upd; first | with_reducible assumption | with_reducible apply setb_kept | with_reducible apply viewReport_kept | with_reducible apply uncorrectable_kept | with_reducible apply free_kept | with_reducible apply programFatal_kept | with_reducible apply binResult_kept | with_reducible apply setValid_kept | refine Kept.snd (by with_reducible assumption) ?_)

end Sys2Proof.Machine
end

