-- ==== Sys2Proof/Laws/KeptFaults.lean ====
section
/-! SUPPORT. What the operations of Machine/Faults.lean keep of the queue, the variant and soundness: one lemma for each, cited instead of its unfolding. -/

set_option linter.unusedTactic false
set_option linter.unreachableTactic false
set_option linter.unusedVariables false

namespace Sys2Proof.Machine

open Sys2Proof

variable {s0 : State}

theorem stopIssue_kept (s : State) (h : Kept s0 s) : Kept s0 (stopIssue s) := by
  unfold stopIssue
  repeat' first
    | with_reducible assumption
    | (intro x; beta_reduce)
    | with_reducible apply Kept.ite
    | split
    | (with_reducible apply Kept.upd; first | with_reducible assumption)

theorem withdraw_kept (s : State) (h : Kept s0 s) : Kept s0 (withdraw s) := by
  unfold withdraw
  repeat' first
    | with_reducible assumption
    | (intro x; beta_reduce)
    | (extract_lets +onlyGivenNames x; refine (fun (hx : Kept s0 x) => ?_) (?_ : Kept s0 x) <;> [clear_value x; subst x])
    | (extract_lets +onlyGivenNames x; clear_value x)
    | with_reducible apply setb_kept
    | with_reducible apply stopIssue_kept
    | (with_reducible apply Kept.upd; first | with_reducible assumption | with_reducible apply setb_kept | with_reducible apply stopIssue_kept)

theorem discardCommits_kept (s : State) (h : Kept s0 s) : Kept s0 (discardCommits s) := by
  unfold discardCommits
  repeat' first
    | with_reducible assumption
    | (intro x; beta_reduce)
    | (extract_lets +onlyGivenNames x; refine (fun (hx : Kept s0 x) => ?_) (?_ : Kept s0 x) <;> [clear_value x; subst x])
    | (extract_lets +onlyGivenNames x; clear_value x)
    | with_reducible apply Kept.ite
    | split
    | with_reducible apply setb_kept
    | with_reducible apply wr_kept
    | (with_reducible apply Kept.upd; first | with_reducible assumption | with_reducible apply setb_kept | with_reducible apply wr_kept)

theorem latchFatal_kept (code type inst : Nat) (s : State)
    (h : Kept s0 s) : Kept s0 (latchFatal code type inst s) := by
  unfold latchFatal
  repeat' first
    | with_reducible assumption
    | (intro x; beta_reduce)
    | (extract_lets +onlyGivenNames x; refine (fun (hx : Kept s0 x) => ?_) (?_ : Kept s0 x) <;> [clear_value x; subst x])
    | (extract_lets +onlyGivenNames x; clear_value x)
    | with_reducible apply Kept.ite
    | split
    | with_reducible apply sat_kept
    | with_reducible apply setb_kept
    | with_reducible apply wr_kept
    | with_reducible apply wrU_kept
    | (with_reducible apply Kept.upd; first | with_reducible assumption | with_reducible apply sat_kept | with_reducible apply setb_kept | with_reducible apply wr_kept | with_reducible apply wrU_kept)

theorem laterFatal_kept (u code : Nat) (s : State) (h : Kept s0 s) : Kept s0 (laterFatal u code s) := by
  unfold laterFatal
  repeat' first
    | with_reducible assumption
    | (intro x; beta_reduce)
    | with_reducible apply errorLog_kept
    | (with_reducible apply Kept.upd; first | with_reducible assumption | with_reducible apply errorLog_kept)

theorem deviceFatal_kept (code type inst : Nat) (s : State)
    (h : Kept s0 s) : Kept s0 (deviceFatal code type inst s) := by
  unfold deviceFatal
  repeat' first
    | with_reducible assumption
    | (intro x; beta_reduce)
    | (extract_lets +onlyGivenNames x; refine (fun (hx : Kept s0 x) => ?_) (?_ : Kept s0 x) <;> [clear_value x; subst x])
    | (extract_lets +onlyGivenNames x; refine (fun (hx : Kept s0 x.2) => ?_) (?_ : Kept s0 x.2) <;> [clear_value x; subst x])
    | (extract_lets +onlyGivenNames x; clear_value x)
    | with_reducible apply Kept.ite
    | split
    | with_reducible apply laterFatal_kept
    | with_reducible apply latchFatal_kept
    | with_reducible apply wrU_kept
    | with_reducible apply setReady_kept
    | with_reducible apply withdraw_kept
    | with_reducible apply discardCommits_kept
    | with_reducible apply Kept.foldl
    | with_reducible apply Kept.foldl_snd
    | with_reducible apply Kept.foldl_fst

theorem corrAlarm_kept (u : Nat) (s : State) (h : Kept s0 s) : Kept s0 (corrAlarm u s) := by
  unfold corrAlarm
  repeat' first
    | with_reducible assumption
    | (intro x; beta_reduce)
    | with_reducible apply setb_kept
    | with_reducible apply wr_kept

theorem addCorrected_kept (u singles doubles : Nat) (s : State)
    (h : Kept s0 s) : Kept s0 (addCorrected u singles doubles s) := by
  unfold addCorrected
  repeat' first
    | with_reducible assumption
    | (intro x; beta_reduce)
    | (extract_lets +onlyGivenNames x; refine (fun (hx : Kept s0 x) => ?_) (?_ : Kept s0 x) <;> [clear_value x; subst x])
    | (extract_lets +onlyGivenNames x; clear_value x)
    | with_reducible apply Kept.ite
    | split
    | with_reducible apply wrU_kept

theorem noteCorrected_kept (u singles doubles : Nat) (s : State)
    (h : Kept s0 s) : Kept s0 (noteCorrected u singles doubles s) := by
  unfold noteCorrected
  repeat' first
    | with_reducible assumption
    | (intro x; beta_reduce)
    | (extract_lets +onlyGivenNames x; refine (fun (hx : Kept s0 x) => ?_) (?_ : Kept s0 x) <;> [clear_value x; subst x])
    | (extract_lets +onlyGivenNames x; clear_value x)
    | with_reducible apply Kept.ite
    | split
    | with_reducible apply addCorrected_kept
    | with_reducible apply corrAlarm_kept
    | (with_reducible apply Kept.upd; first | with_reducible assumption | with_reducible apply addCorrected_kept | with_reducible apply corrAlarm_kept)

theorem noteScrubbed_kept (u singles doubles : Nat) (s : State)
    (h : Kept s0 s) : Kept s0 (noteScrubbed u singles doubles s) := by
  unfold noteScrubbed
  repeat' first
    | with_reducible assumption
    | (intro x; beta_reduce)
    | (extract_lets +onlyGivenNames x; refine (fun (hx : Kept s0 x) => ?_) (?_ : Kept s0 x) <;> [clear_value x; subst x])
    | (extract_lets +onlyGivenNames x; refine (fun (hx : Kept s0 x.2) => ?_) (?_ : Kept s0 x.2) <;> [clear_value x; subst x])
    | (extract_lets +onlyGivenNames x; clear_value x)
    | with_reducible apply Kept.ite
    | split
    | with_reducible apply addCorrected_kept
    | with_reducible apply free_kept
    | with_reducible apply corrAlarm_kept
    | refine Kept.snd (by with_reducible assumption) ?_

theorem scrub_kept (mc singles doubles : Nat) (bad : List Nat) (s : State)
    (h : Kept s0 s) : Kept s0 (scrub mc singles doubles bad s) := by
  unfold scrub
  repeat' first
    | with_reducible assumption
    | (intro x; beta_reduce)
    | (extract_lets +onlyGivenNames x; refine (fun (hx : Kept s0 x) => ?_) (?_ : Kept s0 x) <;> [clear_value x; subst x])
    | (extract_lets +onlyGivenNames x; refine (fun (hx : Kept s0 x.2) => ?_) (?_ : Kept s0 x.2) <;> [clear_value x; subst x])
    | (extract_lets +onlyGivenNames x; clear_value x)
    | with_reducible apply Kept.ite
    | split
    | with_reducible apply noteScrubbed_kept
    | with_reducible apply wr_kept
    | with_reducible apply sat_kept
    | with_reducible apply setb_kept
    | with_reducible apply poisonWord_kept
    | with_reducible apply errorLog_kept
    | with_reducible apply meetWords_kept
    | with_reducible apply Kept.foldl
    | with_reducible apply Kept.foldl_snd
    | with_reducible apply Kept.foldl_fst

theorem noteMet_kept (m : Met) (s : State) (h : Kept s0 s) : Kept s0 (noteMet m s) := by
  unfold noteMet
  repeat' first
    | with_reducible assumption
    | (intro x; beta_reduce)
    | (extract_lets +onlyGivenNames x; refine (fun (hx : Kept s0 x) => ?_) (?_ : Kept s0 x) <;> [clear_value x; subst x])
    | (extract_lets +onlyGivenNames x; refine (fun (hx : Kept s0 x.2) => ?_) (?_ : Kept s0 x.2) <;> [clear_value x; subst x])
    | (extract_lets +onlyGivenNames x; clear_value x)
    | with_reducible apply Kept.ite
    | split
    | with_reducible apply sat_kept
    | with_reducible apply noteCorrected_kept
    | with_reducible apply breakWord_kept
    | with_reducible apply Kept.foldl
    | with_reducible apply Kept.foldl_snd
    | with_reducible apply Kept.foldl_fst

theorem retryOp_kept (die tag late : Nat) (s : State) (h : Kept s0 s) : Kept s0 (retryOp die tag late s) := by
  unfold retryOp
  repeat' first
    | with_reducible assumption
    | (intro x; beta_reduce)
    | (extract_lets +onlyGivenNames x; refine (fun (hx : Kept s0 x) => ?_) (?_ : Kept s0 x) <;> [clear_value x; subst x])
    | (extract_lets +onlyGivenNames x; refine (fun (hx : Kept s0 x.2) => ?_) (?_ : Kept s0 x.2) <;> [clear_value x; subst x])
    | (extract_lets +onlyGivenNames x; clear_value x)
    | with_reducible apply Kept.ite
    | split
    | with_reducible apply remarkLines_kept
    | (with_reducible apply Kept.upd; first | with_reducible assumption | with_reducible apply remarkLines_kept)

end Sys2Proof.Machine
end

