-- ==== Sys2Proof/Laws/KeptDrives.lean ====
section
/-! SUPPORT. What the operations of Machine/Drives.lean keep of the queue, the variant and soundness: one lemma for each, cited instead of its unfolding. -/

set_option linter.unusedTactic false
set_option linter.unreachableTactic false
set_option linter.unusedVariables false

namespace Sys2Proof.Machine

open Sys2Proof

variable {s0 : State}

theorem setDrive_kept (c : Nat) (d : DriveX) (s : State) (h : Kept s0 s) : Kept s0 (setDrive c d s) := by
  unfold setDrive
  repeat' first
    | with_reducible assumption
    | (intro x; beta_reduce)
    | (with_reducible apply Kept.upd; first | with_reducible assumption)

theorem drivePump_kept (c : Nat) (s : State) (h : Kept s0 s) : Kept s0 (drivePump c s) := by
  unfold drivePump
  repeat' first
    | with_reducible assumption
    | (intro x; beta_reduce)
    | (extract_lets +onlyGivenNames x; refine (fun (hx : Kept s0 x) => ?_) (?_ : Kept s0 x) <;> [clear_value x; subst x])
    | (extract_lets +onlyGivenNames x; refine (fun (hx : Kept s0 x.2) => ?_) (?_ : Kept s0 x.2) <;> [clear_value x; subst x])
    | (extract_lets +onlyGivenNames x; clear_value x)
    | with_reducible apply emit_kept
    | with_reducible apply setDrive_kept
    | with_reducible apply Kept.foldl
    | with_reducible apply Kept.foldl_snd
    | with_reducible apply Kept.foldl_fst

theorem driveIssue_kept (c : Nat) (os : List DriveCmd) (s : State) (h : Kept s0 s) : Kept s0 (driveIssue c os s) := by
  unfold driveIssue
  repeat' first
    | with_reducible assumption
    | (intro x; beta_reduce)
    | with_reducible apply Kept.ite
    | split
    | with_reducible apply drivePump_kept
    | with_reducible apply setDrive_kept
    | (with_reducible apply Kept.upd; first | with_reducible assumption | with_reducible apply drivePump_kept | with_reducible apply setDrive_kept)

theorem driveAll_kept (os : List DriveCmd) (s : State) (h : Kept s0 s) : Kept s0 (driveAll os s) := by
  unfold driveAll
  repeat' first
    | with_reducible assumption
    | (intro x; beta_reduce)
    | with_reducible apply driveIssue_kept
    | with_reducible apply Kept.foldl
    | with_reducible apply Kept.foldl_snd
    | with_reducible apply Kept.foldl_fst

theorem noteSound_kept (c : Nat) (s : State) (h : Kept s0 s) : Kept s0 (noteSound c s) := by
  unfold noteSound
  repeat' first
    | with_reducible assumption
    | (intro x; beta_reduce)
    | (extract_lets +onlyGivenNames x; refine (fun (hx : Kept s0 x) => ?_) (?_ : Kept s0 x) <;> [clear_value x; subst x])
    | (extract_lets +onlyGivenNames x; clear_value x)
    | with_reducible apply Kept.ite
    | split
    | (with_reducible apply Kept.upd; first | with_reducible assumption)

theorem driveDone_kept (c k : Nat) (s : State) (h : Kept s0 s) : Kept s0 (driveDone c k s) := by
  unfold driveDone
  repeat' first
    | with_reducible assumption
    | (intro x; beta_reduce)
    | with_reducible apply noteSound_kept
    | with_reducible apply drivePump_kept
    | with_reducible apply setDrive_kept
    | (with_reducible apply Kept.upd; first | with_reducible assumption | with_reducible apply noteSound_kept | with_reducible apply drivePump_kept | with_reducible apply setDrive_kept)

theorem dropTorn_kept (p : Nat → Bool) (s : State) (h : Kept s0 s) : Kept s0 (dropTorn p s) := by
  unfold dropTorn
  repeat' first
    | with_reducible assumption
    | (intro x; beta_reduce)
    | (extract_lets +onlyGivenNames x; refine (fun (hx : Kept s0 x) => ?_) (?_ : Kept s0 x) <;> [clear_value x; subst x])
    | (extract_lets +onlyGivenNames x; clear_value x)
    | (with_reducible apply Kept.upd; first | with_reducible assumption)

theorem driveStop_kept (c : Nat) (s : State) (h : Kept s0 s) : Kept s0 (driveStop c s) := by
  unfold driveStop
  repeat' first
    | with_reducible assumption
    | (intro x; beta_reduce)
    | with_reducible apply dropTorn_kept
    | with_reducible apply setDrive_kept

theorem driveCount_kept (c : Nat) (o : DriveCmd) (s : State) (h : Kept s0 s) : Kept s0 (driveCount c o s) := by
  unfold driveCount
  repeat' first
    | with_reducible assumption
    | (intro x; beta_reduce)
    | with_reducible apply Kept.ite
    | split
    | with_reducible apply addW_kept

theorem driveLedgers_kept (s : State) (h : Kept s0 s) : Kept s0 (driveLedgers s) := by
  unfold driveLedgers
  repeat' first
    | with_reducible assumption
    | (intro x; beta_reduce)
    | (extract_lets +onlyGivenNames x; refine (fun (hx : Kept s0 x) => ?_) (?_ : Kept s0 x) <;> [clear_value x; subst x])
    | (extract_lets +onlyGivenNames x; clear_value x)
    | with_reducible apply driveAll_kept
    | (with_reducible apply Kept.upd; first | with_reducible assumption | with_reducible apply driveAll_kept)

theorem driveSession_kept (c : Nat) (s : State) (h : Kept s0 s) : Kept s0 (driveSession c s) := by
  unfold driveSession
  repeat' first
    | with_reducible assumption
    | (intro x; beta_reduce)
    | (extract_lets +onlyGivenNames x; refine (fun (hx : Kept s0 x) => ?_) (?_ : Kept s0 x) <;> [clear_value x; subst x])
    | (extract_lets +onlyGivenNames x; clear_value x)
    | with_reducible apply driveIssue_kept
    | (with_reducible apply Kept.upd; first | with_reducible assumption | with_reducible apply driveIssue_kept)

theorem writeLabel_kept (c : Nat) (s : State) (h : Kept s0 s) : Kept s0 (writeLabel c s) := by
  unfold writeLabel
  repeat' first
    | with_reducible assumption
    | (intro x; beta_reduce)
    | with_reducible apply Kept.ite
    | split
    | with_reducible apply driveIssue_kept
    | (with_reducible apply Kept.upd; first | with_reducible assumption | with_reducible apply driveIssue_kept)

theorem driveReadLedger_kept (die : Nat) (s : State) (h : Kept s0 s) : Kept s0 (driveReadLedger die s) := by
  unfold driveReadLedger
  repeat' first
    | with_reducible assumption
    | (intro x; beta_reduce)
    | with_reducible apply Kept.ite
    | split
    | with_reducible apply driveIssue_kept

theorem driveImage_kept (k n : Nat) (s : State) (h : Kept s0 s) : Kept s0 (driveImage k n s) := by
  unfold driveImage
  repeat' first
    | with_reducible assumption
    | (intro x; beta_reduce)
    | (extract_lets +onlyGivenNames x; refine (fun (hx : Kept s0 x) => ?_) (?_ : Kept s0 x) <;> [clear_value x; subst x])
    | (extract_lets +onlyGivenNames x; refine (fun (hx : Kept s0 x.2) => ?_) (?_ : Kept s0 x.2) <;> [clear_value x; subst x])
    | (extract_lets +onlyGivenNames x; clear_value x)
    | with_reducible apply driveIssue_kept
    | with_reducible apply Kept.foldl
    | with_reducible apply Kept.foldl_snd
    | with_reducible apply Kept.foldl_fst

theorem driveReadImage_kept (k n : Nat) (ds : List Nat) (s : State)
    (h : Kept s0 s) : Kept s0 (driveReadImage k n ds s) := by
  unfold driveReadImage
  repeat' first
    | with_reducible assumption
    | (intro x; beta_reduce)
    | with_reducible apply driveIssue_kept
    | with_reducible apply Kept.foldl
    | with_reducible apply Kept.foldl_snd
    | with_reducible apply Kept.foldl_fst

end Sys2Proof.Machine
end

