-- ==== Sys2Proof/Laws/KeptSweep.lean ====
section
/-! SUPPORT. What the operations of Machine/Sweep.lean keep of the queue, the variant and soundness: one lemma for each, cited instead of its unfolding. -/

set_option linter.unusedTactic false
set_option linter.unreachableTactic false
set_option linter.unusedVariables false

namespace Sys2Proof.Machine

open Sys2Proof

variable {s0 : State}

theorem modSweep_kept (die p : Nat) (f : SweepX → SweepX) (s : State)
    (h : Kept s0 s) : Kept s0 (modSweep die p f s) := by
  unfold modSweep
  repeat' first
    | with_reducible assumption
    | (intro x; beta_reduce)
    | (extract_lets +onlyGivenNames x; refine (fun (hx : Kept s0 x) => ?_) (?_ : Kept s0 x) <;> [clear_value x; subst x])
    | (extract_lets +onlyGivenNames x; clear_value x)
    | with_reducible apply setArrX_kept
    | (with_reducible apply Kept.upd; first | with_reducible assumption | with_reducible apply setArrX_kept)

theorem orFree_kept (v : Option Nat) (s : State) (h : Kept s0 s) : Kept s0 (orFree v s).2 := by
  unfold orFree
  repeat' first
    | with_reducible assumption
    | (intro x; beta_reduce)
    | with_reducible apply Kept.ite
    | split
    | with_reducible apply free_kept
    | refine Kept.snd (by with_reducible assumption) ?_

theorem showQueue_kept (die p : Nat) (s : State) (h : Kept s0 s) : Kept s0 (showQueue die p s) := by
  unfold showQueue
  repeat' first
    | with_reducible assumption
    | (intro x; beta_reduce)
    | (extract_lets +onlyGivenNames x; refine (fun (hx : Kept s0 x) => ?_) (?_ : Kept s0 x) <;> [clear_value x; subst x])
    | (extract_lets +onlyGivenNames x; refine (fun (hx : Kept s0 x.2) => ?_) (?_ : Kept s0 x.2) <;> [clear_value x; subst x])
    | (extract_lets +onlyGivenNames x; clear_value x)
    | with_reducible apply wrA_kept
    | with_reducible apply Kept.foldl
    | with_reducible apply Kept.foldl_snd
    | with_reducible apply Kept.foldl_fst

theorem queueColumn_kept (die p j key : Nat) (event : Bool) (s : State)
    (h : Kept s0 s) : Kept s0 (queueColumn die p j key event s) := by
  unfold queueColumn
  repeat' first
    | with_reducible assumption
    | (intro x; beta_reduce)
    | (extract_lets +onlyGivenNames x; refine (fun (hx : Kept s0 x) => ?_) (?_ : Kept s0 x) <;> [clear_value x; subst x])
    | (extract_lets +onlyGivenNames x; clear_value x)
    | with_reducible apply Kept.ite
    | split
    | with_reducible apply showQueue_kept
    | with_reducible apply setArrX_kept
    | (with_reducible apply Kept.upd; first | with_reducible assumption | with_reducible apply showQueue_kept | with_reducible apply setArrX_kept)

theorem dequeueColumn_kept (die p j : Nat) (s : State) (h : Kept s0 s) : Kept s0 (dequeueColumn die p j s) := by
  unfold dequeueColumn
  repeat' first
    | with_reducible assumption
    | (intro x; beta_reduce)
    | (extract_lets +onlyGivenNames x; refine (fun (hx : Kept s0 x) => ?_) (?_ : Kept s0 x) <;> [clear_value x; subst x])
    | (extract_lets +onlyGivenNames x; clear_value x)
    | with_reducible apply Kept.ite
    | split
    | with_reducible apply showQueue_kept
    | with_reducible apply setArrX_kept
    | (with_reducible apply Kept.upd; first | with_reducible assumption | with_reducible apply showQueue_kept | with_reducible apply setArrX_kept)

theorem queueEvent_kept (die p : Nat) (e : BandEvent) (s : State)
    (h : Kept s0 s) : Kept s0 (queueEvent die p e s) := by
  unfold queueEvent
  repeat' first
    | with_reducible assumption
    | (intro x; beta_reduce)
    | with_reducible apply Kept.ite
    | split
    | with_reducible apply queueColumn_kept

theorem raiseEvent_kept (die p : Nat) (e : BandEvent) (s : State)
    (h : Kept s0 s) : Kept s0 (raiseEvent die p e s) := by
  unfold raiseEvent
  repeat' first
    | with_reducible assumption
    | (intro x; beta_reduce)
    | (extract_lets +onlyGivenNames x; refine (fun (hx : Kept s0 x) => ?_) (?_ : Kept s0 x) <;> [clear_value x; subst x])
    | (extract_lets +onlyGivenNames x; refine (fun (hx : Kept s0 x.2) => ?_) (?_ : Kept s0 x.2) <;> [clear_value x; subst x])
    | (extract_lets +onlyGivenNames x; clear_value x)
    | with_reducible apply Kept.ite
    | split
    | with_reducible apply orFree_kept
    | with_reducible apply emit_kept
    | with_reducible apply addW_kept
    | with_reducible apply sat_kept
    | with_reducible apply queueEvent_kept
    | with_reducible apply setb_kept
    | refine Kept.snd (by with_reducible assumption) ?_

theorem raiseEvents_kept (die p : Nat) (es : List BandEvent) (s : State)
    (h : Kept s0 s) : Kept s0 (raiseEvents die p es s) := by
  unfold raiseEvents
  repeat' first
    | with_reducible assumption
    | (intro x; beta_reduce)
    | with_reducible apply raiseEvent_kept
    | with_reducible apply Kept.foldl
    | with_reducible apply Kept.foldl_snd
    | with_reducible apply Kept.foldl_fst

theorem standbySet_kept (die p : Nat) (s : State) (h : Kept s0 s) : Kept s0 (standbySet die p s) := by
  unfold standbySet
  repeat' first
    | with_reducible assumption
    | (intro x; beta_reduce)
    | (extract_lets +onlyGivenNames x; refine (fun (hx : Kept s0 x) => ?_) (?_ : Kept s0 x) <;> [clear_value x; subst x])
    | (extract_lets +onlyGivenNames x; refine (fun (hx : Kept s0 x.2) => ?_) (?_ : Kept s0 x.2) <;> [clear_value x; subst x])
    | (extract_lets +onlyGivenNames x; clear_value x)
    | with_reducible apply Kept.ite
    | split
    | with_reducible apply modSweep_kept
    | with_reducible apply wrA_kept
    | with_reducible apply Kept.foldl
    | with_reducible apply Kept.foldl_snd
    | with_reducible apply Kept.foldl_fst
    | (with_reducible apply Kept.upd; first | with_reducible assumption | with_reducible apply modSweep_kept | with_reducible apply wrA_kept | with_reducible apply Kept.foldl | with_reducible apply Kept.foldl_snd | with_reducible apply Kept.foldl_fst)

theorem stagedGainWrite_kept (die p : Nat) (s : State) (h : Kept s0 s) : Kept s0 (stagedGainWrite die p s) := by
  unfold stagedGainWrite
  repeat' first
    | with_reducible assumption
    | (intro x; beta_reduce)
    | with_reducible apply wrA_kept
    | with_reducible apply modSweep_kept
    | (with_reducible apply Kept.upd; first | with_reducible assumption | with_reducible apply wrA_kept | with_reducible apply modSweep_kept)

theorem buildTable_kept (die p : Nat) (s : State) (h : Kept s0 s) : Kept s0 (buildTable die p s) := by
  unfold buildTable
  repeat' first
    | with_reducible assumption
    | (intro x; beta_reduce)
    | (extract_lets +onlyGivenNames x; refine (fun (hx : Kept s0 x) => ?_) (?_ : Kept s0 x) <;> [clear_value x; subst x])
    | (extract_lets +onlyGivenNames x; refine (fun (hx : Kept s0 x.2) => ?_) (?_ : Kept s0 x.2) <;> [clear_value x; subst x])
    | (extract_lets +onlyGivenNames x; clear_value x)
    | with_reducible apply Kept.ite
    | split
    | with_reducible apply wrA_kept
    | with_reducible apply raiseEvents_kept
    | with_reducible apply Kept.foldl
    | with_reducible apply Kept.foldl_snd
    | with_reducible apply Kept.foldl_fst

theorem confirmColumns_kept (die p : Nat) (s : State) (h : Kept s0 s) : Kept s0 (confirmColumns die p s) := by
  unfold confirmColumns
  repeat' first
    | with_reducible assumption
    | (intro x; beta_reduce)
    | (extract_lets +onlyGivenNames x; refine (fun (hx : Kept s0 x) => ?_) (?_ : Kept s0 x) <;> [clear_value x; subst x])
    | (extract_lets +onlyGivenNames x; refine (fun (hx : Kept s0 x.2) => ?_) (?_ : Kept s0 x.2) <;> [clear_value x; subst x])
    | (extract_lets +onlyGivenNames x; clear_value x)
    | with_reducible apply Kept.ite
    | split
    | with_reducible apply wrA_kept
    | with_reducible apply Kept.foldl
    | with_reducible apply Kept.foldl_snd
    | with_reducible apply Kept.foldl_fst

theorem installTable_kept (die p : Nat) (s : State) (h : Kept s0 s) : Kept s0 (installTable die p s) := by
  unfold installTable
  repeat' first
    | with_reducible assumption
    | (intro x; beta_reduce)
    | (extract_lets +onlyGivenNames x; refine (fun (hx : Kept s0 x) => ?_) (?_ : Kept s0 x) <;> [clear_value x; subst x])
    | (extract_lets +onlyGivenNames x; refine (fun (hx : Kept s0 x.2) => ?_) (?_ : Kept s0 x.2) <;> [clear_value x; subst x])
    | (extract_lets +onlyGivenNames x; clear_value x)
    | with_reducible apply Kept.ite
    | split
    | with_reducible apply wrA_kept
    | with_reducible apply confirmColumns_kept
    | with_reducible apply sat_kept
    | with_reducible apply Kept.foldl
    | with_reducible apply Kept.foldl_snd
    | with_reducible apply Kept.foldl_fst

theorem countGroup_kept (f : Field) (die p : Nat) (s : State) (h : Kept s0 s) : Kept s0 (countGroup f die p s) := by
  unfold countGroup
  repeat' first
    | with_reducible assumption
    | (intro x; beta_reduce)
    | with_reducible apply Kept.ite
    | split
    | with_reducible apply sat_kept
    | with_reducible apply addW_kept

theorem showOutstanding_kept (inst : Nat) (s : State) (h : Kept s0 s) : Kept s0 (showOutstanding inst s) := by
  unfold showOutstanding
  repeat' first
    | with_reducible assumption
    | (intro x; beta_reduce)
    | with_reducible apply Kept.ite
    | split
    | with_reducible apply wrU_kept

theorem showOutstandingOf_kept (die p : Nat) (s : State) (h : Kept s0 s) : Kept s0 (showOutstandingOf die p s) := by
  unfold showOutstandingOf
  repeat' first
    | with_reducible assumption
    | (intro x; beta_reduce)
    | with_reducible apply Kept.ite
    | split
    | with_reducible apply showOutstanding_kept

theorem endCycle_kept (die p n : Nat) (s : State) (h : Kept s0 s) : Kept s0 (endCycle die p n s) := by
  unfold endCycle
  repeat' first
    | with_reducible assumption
    | (intro x; beta_reduce)
    | (extract_lets +onlyGivenNames x; refine (fun (hx : Kept s0 x) => ?_) (?_ : Kept s0 x) <;> [clear_value x; subst x])
    | (extract_lets +onlyGivenNames x; clear_value x)
    | with_reducible apply Kept.ite
    | split
    | with_reducible apply countGroup_kept
    | with_reducible apply buildTable_kept
    | with_reducible apply setArrX_kept
    | with_reducible apply modSweep_kept
    | with_reducible apply wrA_kept
    | with_reducible apply installTable_kept
    | with_reducible apply showOutstandingOf_kept
    | with_reducible apply raiseEvent_kept
    | (with_reducible apply Kept.upd; first | with_reducible assumption | with_reducible apply countGroup_kept | with_reducible apply buildTable_kept | with_reducible apply setArrX_kept | with_reducible apply modSweep_kept | with_reducible apply wrA_kept | with_reducible apply installTable_kept | with_reducible apply showOutstandingOf_kept | with_reducible apply raiseEvent_kept)

theorem finishConversion_kept (die p n : Nat) (codes : List (Nat × Int)) (tripped : List Nat) (s : State)
    (h : Kept s0 s) : Kept s0 (finishConversion die p n codes tripped s) := by
  unfold finishConversion
  repeat' first
    | with_reducible assumption
    | (intro x; beta_reduce)
    | (extract_lets +onlyGivenNames x; refine (fun (hx : Kept s0 x) => ?_) (?_ : Kept s0 x) <;> [clear_value x; subst x])
    | (extract_lets +onlyGivenNames x; refine (fun (hx : Kept s0 x.2) => ?_) (?_ : Kept s0 x.2) <;> [clear_value x; subst x])
    | (extract_lets +onlyGivenNames x; clear_value x)
    | with_reducible apply Kept.ite
    | split
    | with_reducible apply modSweep_kept
    | with_reducible apply setArrX_kept
    | with_reducible apply raiseEvents_kept
    | with_reducible apply standbySet_kept
    | with_reducible apply countGroup_kept
    | with_reducible apply wrA_kept
    | with_reducible apply endCycle_kept
    | with_reducible apply Kept.foldl
    | with_reducible apply Kept.foldl_snd
    | with_reducible apply Kept.foldl_fst
    | (with_reducible apply Kept.upd; first | with_reducible assumption | with_reducible apply modSweep_kept | with_reducible apply setArrX_kept | with_reducible apply raiseEvents_kept | with_reducible apply standbySet_kept | with_reducible apply countGroup_kept | with_reducible apply wrA_kept | with_reducible apply endCycle_kept | with_reducible apply Kept.foldl | with_reducible apply Kept.foldl_snd | with_reducible apply Kept.foldl_fst)

theorem beginVerify_kept (die p : Nat) (wake : Bool) (s : State)
    (h : Kept s0 s) : Kept s0 (beginVerify die p wake s) := by
  unfold beginVerify
  repeat' first
    | with_reducible assumption
    | (intro x; beta_reduce)
    | with_reducible apply wrA_kept
    | with_reducible apply modSweep_kept
    | (with_reducible apply Kept.upd; first | with_reducible assumption | with_reducible apply wrA_kept | with_reducible apply modSweep_kept)

theorem dueVerify_kept (die p : Nat) (wake : Bool) (s : State)
    (h : Kept s0 s) : Kept s0 (dueVerify die p wake s) := by
  unfold dueVerify
  repeat' first
    | with_reducible assumption
    | (intro x; beta_reduce)
    | with_reducible apply Kept.ite
    | split
    | with_reducible apply modSweep_kept
    | with_reducible apply beginVerify_kept
    | (with_reducible apply Kept.upd; first | with_reducible assumption | with_reducible apply modSweep_kept | with_reducible apply beginVerify_kept)

theorem startVerify_kept (inst : Nat) (wake : Bool) (s : State)
    (h : Kept s0 s) : Kept s0 (startVerify inst wake s) := by
  unfold startVerify
  repeat' first
    | with_reducible assumption
    | (intro x; beta_reduce)
    | (extract_lets +onlyGivenNames x; refine (fun (hx : Kept s0 x) => ?_) (?_ : Kept s0 x) <;> [clear_value x; subst x])
    | (extract_lets +onlyGivenNames x; refine (fun (hx : Kept s0 x.2) => ?_) (?_ : Kept s0 x.2) <;> [clear_value x; subst x])
    | (extract_lets +onlyGivenNames x; clear_value x)
    | with_reducible apply dueVerify_kept
    | with_reducible apply setb_kept
    | with_reducible apply setReady_kept
    | with_reducible apply Kept.foldl
    | with_reducible apply Kept.foldl_snd
    | with_reducible apply Kept.foldl_fst

theorem verifyReq_kept (inst : Nat) (s : State) (h : Kept s0 s) : Kept s0 (verifyReq inst s) := by
  unfold verifyReq
  repeat' first
    | with_reducible assumption
    | (intro x; beta_reduce)
    | with_reducible apply Kept.ite
    | split
    | with_reducible apply setb_kept
    | with_reducible apply startVerify_kept

theorem loadHold_kept (inst : Nat) (v : Bool) (s : State) (h : Kept s0 s) : Kept s0 (loadHold inst v s) := by
  unfold loadHold
  repeat' first
    | with_reducible assumption
    | (intro x; beta_reduce)
    | (extract_lets +onlyGivenNames x; refine (fun (hx : Kept s0 x) => ?_) (?_ : Kept s0 x) <;> [clear_value x; subst x])
    | (extract_lets +onlyGivenNames x; clear_value x)
    | with_reducible apply Kept.ite
    | split
    | with_reducible apply setb_kept
    | with_reducible apply setReady_kept
    | with_reducible apply startVerify_kept

theorem enterBypass_kept (die p j addr : Nat) (s : State) (h : Kept s0 s) : Kept s0 (enterBypass die p j addr s) := by
  unfold enterBypass
  repeat' first
    | with_reducible assumption
    | (intro x; beta_reduce)
    | (extract_lets +onlyGivenNames x; refine (fun (hx : Kept s0 x) => ?_) (?_ : Kept s0 x) <;> [clear_value x; subst x])
    | (extract_lets +onlyGivenNames x; refine (fun (hx : Kept s0 x.2) => ?_) (?_ : Kept s0 x.2) <;> [clear_value x; subst x])
    | (extract_lets +onlyGivenNames x; clear_value x)
    | with_reducible apply Kept.ite
    | split
    | with_reducible apply wrA_kept
    | with_reducible apply setArrX_kept
    | with_reducible apply partReport_kept
    | (with_reducible apply Kept.upd; first | with_reducible assumption | with_reducible apply wrA_kept | with_reducible apply setArrX_kept | with_reducible apply partReport_kept)

theorem wakeArray_kept (die p : Nat) (loads : List (Nat × Nat)) (s : State)
    (h : Kept s0 s) : Kept s0 (wakeArray die p loads s) := by
  unfold wakeArray
  repeat' first
    | with_reducible assumption
    | (intro x; beta_reduce)
    | (extract_lets +onlyGivenNames x; refine (fun (hx : Kept s0 x) => ?_) (?_ : Kept s0 x) <;> [clear_value x; subst x])
    | (extract_lets +onlyGivenNames x; refine (fun (hx : Kept s0 x.2) => ?_) (?_ : Kept s0 x.2) <;> [clear_value x; subst x])
    | (extract_lets +onlyGivenNames x; clear_value x)
    | with_reducible apply Kept.ite
    | split
    | with_reducible apply modSweep_kept
    | with_reducible apply enterBypass_kept
    | with_reducible apply Kept.foldl
    | with_reducible apply Kept.foldl_snd
    | with_reducible apply Kept.foldl_fst
    | (with_reducible apply Kept.upd; first | with_reducible assumption | with_reducible apply modSweep_kept | with_reducible apply enterBypass_kept | with_reducible apply Kept.foldl | with_reducible apply Kept.foldl_snd | with_reducible apply Kept.foldl_fst)

theorem verifyComplete_kept (inst : Nat) (loads : List (Nat × Nat)) (s : State)
    (h : Kept s0 s) : Kept s0 (verifyComplete inst loads s) := by
  unfold verifyComplete
  repeat' first
    | with_reducible assumption
    | (intro x; beta_reduce)
    | (extract_lets +onlyGivenNames x; refine (fun (hx : Kept s0 x) => ?_) (?_ : Kept s0 x) <;> [clear_value x; subst x])
    | (extract_lets +onlyGivenNames x; refine (fun (hx : Kept s0 x.2) => ?_) (?_ : Kept s0 x.2) <;> [clear_value x; subst x])
    | (extract_lets +onlyGivenNames x; clear_value x)
    | with_reducible apply Kept.ite
    | split
    | with_reducible apply setb_kept
    | with_reducible apply wakeArray_kept
    | with_reducible apply setReady_kept
    | with_reducible apply Kept.foldl
    | with_reducible apply Kept.foldl_snd
    | with_reducible apply Kept.foldl_fst

theorem sleep_kept (die : Nat) (v : Bool) (s : State) (h : Kept s0 s) : Kept s0 (sleep die v s) := by
  unfold sleep
  repeat' first
    | with_reducible assumption
    | (intro x; beta_reduce)
    | with_reducible apply Kept.ite
    | split
    | with_reducible apply setb_kept

theorem saveLedgers_kept (p : Nat → Bool) (s : State) (h : Kept s0 s) : Kept s0 (saveLedgers p s) := by
  unfold saveLedgers
  repeat' first
    | with_reducible assumption
    | (intro x; beta_reduce)
    | (extract_lets +onlyGivenNames x; refine (fun (hx : Kept s0 x) => ?_) (?_ : Kept s0 x) <;> [clear_value x; subst x])
    | (extract_lets +onlyGivenNames x; clear_value x)
    | with_reducible apply driveLedgers_kept
    | (with_reducible apply Kept.upd; first | with_reducible assumption | with_reducible apply driveLedgers_kept)

theorem restoreLedgers_kept (p : Nat → Bool) (s : State) (h : Kept s0 s) : Kept s0 (restoreLedgers p s) := by
  unfold restoreLedgers
  repeat' first
    | with_reducible assumption
    | (intro x; beta_reduce)
    | (extract_lets +onlyGivenNames x; refine (fun (hx : Kept s0 x) => ?_) (?_ : Kept s0 x) <;> [clear_value x; subst x])
    | (extract_lets +onlyGivenNames x; refine (fun (hx : Kept s0 x.2) => ?_) (?_ : Kept s0 x.2) <;> [clear_value x; subst x])
    | (extract_lets +onlyGivenNames x; clear_value x)
    | with_reducible apply Kept.foldl
    | with_reducible apply Kept.foldl_snd
    | with_reducible apply Kept.foldl_fst
    | (with_reducible apply Kept.upd; first | with_reducible assumption | with_reducible apply Kept.foldl | with_reducible apply Kept.foldl_snd | with_reducible apply Kept.foldl_fst)

theorem diePoweredDown_kept (die : Nat) (s : State) (h : Kept s0 s) : Kept s0 (diePoweredDown die s) := by
  unfold diePoweredDown
  repeat' first
    | with_reducible assumption
    | (intro x; beta_reduce)
    | (extract_lets +onlyGivenNames x; refine (fun (hx : Kept s0 x) => ?_) (?_ : Kept s0 x) <;> [clear_value x; subst x])
    | (extract_lets +onlyGivenNames x; refine (fun (hx : Kept s0 x.2) => ?_) (?_ : Kept s0 x.2) <;> [clear_value x; subst x])
    | (extract_lets +onlyGivenNames x; clear_value x)
    | with_reducible apply Kept.ite
    | split
    | with_reducible apply saveLedgers_kept
    | with_reducible apply wrA_kept
    | with_reducible apply setb_kept
    | with_reducible apply setReady_kept
    | with_reducible apply Kept.foldl
    | with_reducible apply Kept.foldl_snd
    | with_reducible apply Kept.foldl_fst
    | (with_reducible apply Kept.upd; first | with_reducible assumption | with_reducible apply saveLedgers_kept | with_reducible apply wrA_kept | with_reducible apply setb_kept | with_reducible apply setReady_kept | with_reducible apply Kept.foldl | with_reducible apply Kept.foldl_snd | with_reducible apply Kept.foldl_fst)

end Sys2Proof.Machine
end

