-- ==== Sys2Proof/Laws/KeptWrites.lean ====
section
/-! SUPPORT. What the operations of Machine/Writes.lean keep of the queue, the variant and soundness: one lemma for each, cited instead of its unfolding. -/

set_option linter.unusedTactic false
set_option linter.unreachableTactic false
set_option linter.unusedVariables false

namespace Sys2Proof.Machine

open Sys2Proof

variable {s0 : State}

theorem setColState_kept (die p j v : Nat) (s : State) (h : Kept s0 s) : Kept s0 (setColState die p j v s) := by
  unfold setColState
  repeat' first
    | with_reducible assumption
    | (intro x; beta_reduce)
    | with_reducible apply wrA_kept

theorem freePantry_kept (die p j : Nat) (s : State) (h : Kept s0 s) : Kept s0 (freePantry die p j s) := by
  unfold freePantry
  repeat' first
    | with_reducible assumption
    | (intro x; beta_reduce)
    | (extract_lets +onlyGivenNames x; refine (fun (hx : Kept s0 x) => ?_) (?_ : Kept s0 x) <;> [clear_value x; subst x])
    | (extract_lets +onlyGivenNames x; refine (fun (hx : Kept s0 x.2) => ?_) (?_ : Kept s0 x.2) <;> [clear_value x; subst x])
    | (extract_lets +onlyGivenNames x; clear_value x)
    | with_reducible apply Kept.ite
    | split
    | with_reducible apply setArrX_kept
    | (with_reducible apply Kept.upd; first | with_reducible assumption | with_reducible apply setArrX_kept)

theorem failCheck_kept (die p : Nat) (s : State) (h : Kept s0 s) : Kept s0 (failCheck die p s) := by
  unfold failCheck
  repeat' first
    | with_reducible assumption
    | (intro x; beta_reduce)
    | (extract_lets +onlyGivenNames x; refine (fun (hx : Kept s0 x) => ?_) (?_ : Kept s0 x) <;> [clear_value x; subst x])
    | (extract_lets +onlyGivenNames x; refine (fun (hx : Kept s0 x.2) => ?_) (?_ : Kept s0 x.2) <;> [clear_value x; subst x])
    | (extract_lets +onlyGivenNames x; clear_value x)
    | with_reducible apply Kept.ite
    | split
    | with_reducible apply setArrX_kept
    | with_reducible apply setReady_kept
    | (with_reducible apply Kept.upd; first | with_reducible assumption | with_reducible apply setArrX_kept | with_reducible apply setReady_kept)

theorem failDie_kept (die : Nat) (s : State) (h : Kept s0 s) : Kept s0 (failDie die s) := by
  unfold failDie
  repeat' first
    | with_reducible assumption
    | (intro x; beta_reduce)
    | with_reducible apply Kept.ite
    | split
    | with_reducible apply failCheck_kept
    | with_reducible apply Kept.foldl
    | with_reducible apply Kept.foldl_snd
    | with_reducible apply Kept.foldl_fst

theorem bypassLoaded_kept (die p j : Nat) (s : State) (h : Kept s0 s) : Kept s0 (bypassLoaded die p j s) := by
  unfold bypassLoaded
  repeat' first
    | with_reducible assumption
    | (intro x; beta_reduce)
    | (extract_lets +onlyGivenNames x; refine (fun (hx : Kept s0 x) => ?_) (?_ : Kept s0 x) <;> [clear_value x; subst x])
    | (extract_lets +onlyGivenNames x; clear_value x)
    | with_reducible apply Kept.ite
    | split
    | with_reducible apply wrA_kept
    | with_reducible apply setColState_kept
    | with_reducible apply setArrX_kept
    | (with_reducible apply Kept.upd; first | with_reducible assumption | with_reducible apply wrA_kept | with_reducible apply setColState_kept | with_reducible apply setArrX_kept)

theorem makePermanent_kept (die p j : Nat) (s : State) (h : Kept s0 s) : Kept s0 (makePermanent die p j s) := by
  unfold makePermanent
  repeat' first
    | with_reducible assumption
    | (intro x; beta_reduce)
    | with_reducible apply failCheck_kept
    | with_reducible apply bypassLoaded_kept
    | with_reducible apply dequeueColumn_kept
    | with_reducible apply wrA_kept

theorem setRefused_kept (inst code : Nat) (s : State) (h : Kept s0 s) : Kept s0 (setRefused inst code s) := by
  unfold setRefused
  repeat' first
    | with_reducible assumption
    | (intro x; beta_reduce)
    | with_reducible apply setb_kept
    | with_reducible apply wr_kept

theorem loadPantry_kept (inst : Nat) (s : State) (h : Kept s0 s) : Kept s0 (loadPantry inst s) := by
  unfold loadPantry
  repeat' first
    | with_reducible assumption
    | (intro x; beta_reduce)
    | (extract_lets +onlyGivenNames x; refine (fun (hx : Kept s0 x) => ?_) (?_ : Kept s0 x) <;> [clear_value x; subst x])
    | (extract_lets +onlyGivenNames x; refine (fun (hx : Kept s0 x.2) => ?_) (?_ : Kept s0 x.2) <;> [clear_value x; subst x])
    | (extract_lets +onlyGivenNames x; clear_value x)
    | with_reducible apply Kept.ite
    | split
    | with_reducible apply setRefused_kept
    | with_reducible apply dequeueColumn_kept
    | with_reducible apply setArrX_kept
    | (with_reducible apply Kept.upd; first | with_reducible assumption | with_reducible apply setRefused_kept | with_reducible apply dequeueColumn_kept | with_reducible apply setArrX_kept)

theorem evict_kept (inst : Nat) (s : State) (h : Kept s0 s) : Kept s0 (evict inst s) := by
  unfold evict
  repeat' first
    | with_reducible assumption
    | (intro x; beta_reduce)
    | (extract_lets +onlyGivenNames x; refine (fun (hx : Kept s0 x) => ?_) (?_ : Kept s0 x) <;> [clear_value x; subst x])
    | (extract_lets +onlyGivenNames x; clear_value x)
    | with_reducible apply Kept.ite
    | split
    | with_reducible apply setRefused_kept
    | with_reducible apply setArrX_kept
    | with_reducible apply sat_kept
    | (with_reducible apply Kept.upd; first | with_reducible assumption | with_reducible apply setRefused_kept | with_reducible apply setArrX_kept | with_reducible apply sat_kept)

theorem startWrite_kept (die p : Nat) (w : ColWrite) (s : State)
    (h : Kept s0 s) : Kept s0 (startWrite die p w s) := by
  unfold startWrite
  repeat' first
    | with_reducible assumption
    | (intro x; beta_reduce)
    | (extract_lets +onlyGivenNames x; refine (fun (hx : Kept s0 x) => ?_) (?_ : Kept s0 x) <;> [clear_value x; subst x])
    | (extract_lets +onlyGivenNames x; clear_value x)
    | with_reducible apply Kept.ite
    | split
    | with_reducible apply wrA_kept
    | with_reducible apply sat_kept
    | with_reducible apply setColState_kept
    | with_reducible apply setArrX_kept
    | (with_reducible apply Kept.upd; first | with_reducible assumption | with_reducible apply wrA_kept | with_reducible apply sat_kept | with_reducible apply setColState_kept | with_reducible apply setArrX_kept)

theorem programCol_kept (inst source scale : Nat) (exempt : Bool) (s : State)
    (h : Kept s0 s) : Kept s0 (programCol inst source scale exempt s) := by
  unfold programCol
  repeat' first
    | with_reducible assumption
    | (intro x; beta_reduce)
    | (extract_lets +onlyGivenNames x; refine (fun (hx : Kept s0 x) => ?_) (?_ : Kept s0 x) <;> [clear_value x; subst x])
    | (extract_lets +onlyGivenNames x; refine (fun (hx : Kept s0 x.2) => ?_) (?_ : Kept s0 x.2) <;> [clear_value x; subst x])
    | (extract_lets +onlyGivenNames x; clear_value x)
    | with_reducible apply Kept.ite
    | split
    | with_reducible apply setRefused_kept
    | with_reducible apply dequeueColumn_kept
    | with_reducible apply partReport_kept
    | with_reducible apply setArrX_kept
    | with_reducible apply startWrite_kept
    | (with_reducible apply Kept.upd; first | with_reducible assumption | with_reducible apply setRefused_kept | with_reducible apply dequeueColumn_kept | with_reducible apply partReport_kept | with_reducible apply setArrX_kept | with_reducible apply startWrite_kept)

theorem voidColumn_kept (die p j : Nat) (s : State) (h : Kept s0 s) : Kept s0 (voidColumn die p j s) := by
  unfold voidColumn
  repeat' first
    | with_reducible assumption
    | (intro x; beta_reduce)
    | (extract_lets +onlyGivenNames x; refine (fun (hx : Kept s0 x) => ?_) (?_ : Kept s0 x) <;> [clear_value x; subst x])
    | (extract_lets +onlyGivenNames x; clear_value x)
    | with_reducible apply Kept.ite
    | split
    | with_reducible apply setArrX_kept
    | with_reducible apply wrA_kept
    | (with_reducible apply Kept.upd; first | with_reducible assumption | with_reducible apply setArrX_kept | with_reducible apply wrA_kept)

theorem settleColumn_kept (die p : Nat) (w : ColWrite) (held : List Int) (failed : Option Nat) (s : State)
    (h : Kept s0 s) : Kept s0 (settleColumn die p w held failed s) := by
  unfold settleColumn
  repeat' first
    | with_reducible assumption
    | (intro x; beta_reduce)
    | (extract_lets +onlyGivenNames x; refine (fun (hx : Kept s0 x) => ?_) (?_ : Kept s0 x) <;> [clear_value x; subst x])
    | (extract_lets +onlyGivenNames x; refine (fun (hx : Kept s0 x.2) => ?_) (?_ : Kept s0 x.2) <;> [clear_value x; subst x])
    | (extract_lets +onlyGivenNames x; clear_value x)
    | with_reducible apply Kept.ite
    | split
    | with_reducible apply setArrX_kept
    | with_reducible apply makePermanent_kept
    | with_reducible apply setColState_kept
    | with_reducible apply freePantry_kept
    | with_reducible apply wrA_kept
    | with_reducible apply sat_kept
    | (with_reducible apply Kept.upd; first | with_reducible assumption | with_reducible apply setArrX_kept | with_reducible apply makePermanent_kept | with_reducible apply setColState_kept | with_reducible apply freePantry_kept | with_reducible apply wrA_kept | with_reducible apply sat_kept)

theorem clearSel_kept (inst : Nat) (s : State) (h : Kept s0 s) : Kept s0 (clearSel inst s) := by
  unfold clearSel
  repeat' first
    | with_reducible assumption
    | (intro x; beta_reduce)
    | (extract_lets +onlyGivenNames x; refine (fun (hx : Kept s0 x) => ?_) (?_ : Kept s0 x) <;> [clear_value x; subst x])
    | (extract_lets +onlyGivenNames x; clear_value x)
    | with_reducible apply Kept.ite
    | split
    | with_reducible apply wrA_kept
    | with_reducible apply clearSatBit_kept

theorem auditClear_kept (inst : Nat) (s : State) (h : Kept s0 s) : Kept s0 (auditClear inst s) := by
  unfold auditClear
  repeat' first
    | with_reducible assumption
    | (intro x; beta_reduce)
    | with_reducible apply wr_kept
    | with_reducible apply clearSatBit_kept

end Sys2Proof.Machine
end

