-- ==== Sys2Proof/Laws/KeptBuckets.lean ====
section
/-! SUPPORT. What the operations of Machine/Buckets.lean keep of the queue, the variant and soundness: one lemma for each, cited instead of its unfolding. -/

set_option linter.unusedTactic false
set_option linter.unreachableTactic false
set_option linter.unusedVariables false

namespace Sys2Proof.Machine

open Sys2Proof

variable {s0 : State}

theorem setBx_kept (b : Nat) (x : BucketX) (s : State) (h : Kept s0 s) : Kept s0 (setBx b x s) := by
  unfold setBx
  repeat' first
    | with_reducible assumption
    | (intro x; beta_reduce)
    | (with_reducible apply Kept.upd; first | with_reducible assumption)

theorem modBx_kept (b : Nat) (f : BucketX → BucketX) (s : State) (h : Kept s0 s) : Kept s0 (modBx b f s) := by
  unfold modBx
  repeat' first
    | with_reducible assumption
    | (intro x; beta_reduce)
    | with_reducible apply setBx_kept

theorem modJob_kept (f : JobX → JobX) (s : State) (h : Kept s0 s) : Kept s0 (modJob f s) := by
  unfold modJob
  repeat' first
    | with_reducible assumption
    | (intro x; beta_reduce)
    | (with_reducible apply Kept.upd; first | with_reducible assumption)

theorem setWaitExtra_kept (s : State) (h : Kept s0 s) : Kept s0 (setWaitExtra s) := by
  unfold setWaitExtra
  repeat' first
    | with_reducible assumption
    | (intro x; beta_reduce)
    | (extract_lets +onlyGivenNames x; refine (fun (hx : Kept s0 x) => ?_) (?_ : Kept s0 x) <;> [clear_value x; subst x])
    | (extract_lets +onlyGivenNames x; refine (fun (hx : Kept s0 x.2) => ?_) (?_ : Kept s0 x.2) <;> [clear_value x; subst x])
    | (extract_lets +onlyGivenNames x; clear_value x)
    | with_reducible apply wr_kept
    | with_reducible apply Kept.foldl
    | with_reducible apply Kept.foldl_snd
    | with_reducible apply Kept.foldl_fst

theorem writeRecord_kept (b : Nat) (s : State) (h : Kept s0 s) : Kept s0 (writeRecord b s) := by
  unfold writeRecord
  repeat' first
    | with_reducible assumption
    | (intro x; beta_reduce)
    | (extract_lets +onlyGivenNames x; refine (fun (hx : Kept s0 x) => ?_) (?_ : Kept s0 x) <;> [clear_value x; subst x])
    | (extract_lets +onlyGivenNames x; refine (fun (hx : Kept s0 x.2) => ?_) (?_ : Kept s0 x.2) <;> [clear_value x; subst x])
    | (extract_lets +onlyGivenNames x; clear_value x)
    | with_reducible apply Kept.ite
    | split
    | with_reducible apply free_kept
    | with_reducible apply storeMem_kept
    | with_reducible apply Kept.foldl
    | with_reducible apply Kept.foldl_snd
    | with_reducible apply Kept.foldl_fst
    | refine Kept.snd (by with_reducible assumption) ?_

theorem setIncluded_kept (b : Nat) (ranks : List Nat) (s : State)
    (h : Kept s0 s) : Kept s0 (setIncluded b ranks s) := by
  unfold setIncluded
  repeat' first
    | with_reducible assumption
    | (intro x; beta_reduce)
    | with_reducible apply writeRecord_kept
    | with_reducible apply modBx_kept
    | (with_reducible apply Kept.upd; first | with_reducible assumption | with_reducible apply writeRecord_kept | with_reducible apply modBx_kept)

theorem exchangeLog_kept (b cause rank : Nat) (byOwner : Bool) (s : State)
    (h : Kept s0 s) : Kept s0 (exchangeLog b cause rank byOwner s) := by
  unfold exchangeLog
  repeat' first
    | with_reducible assumption
    | (intro x; beta_reduce)
    | (extract_lets +onlyGivenNames x; refine (fun (hx : Kept s0 x) => ?_) (?_ : Kept s0 x) <;> [clear_value x; subst x])
    | (extract_lets +onlyGivenNames x; refine (fun (hx : Kept s0 x.2) => ?_) (?_ : Kept s0 x.2) <;> [clear_value x; subst x])
    | (extract_lets +onlyGivenNames x; clear_value x)
    | with_reducible apply Kept.ite
    | split
    | with_reducible apply logEntry_kept

theorem refreshPending_kept (s : State) (h : Kept s0 s) : Kept s0 (refreshPending s) := by
  unfold refreshPending
  repeat' first
    | with_reducible assumption
    | (intro x; beta_reduce)
    | (extract_lets +onlyGivenNames x; refine (fun (hx : Kept s0 x) => ?_) (?_ : Kept s0 x) <;> [clear_value x; subst x])
    | (extract_lets +onlyGivenNames x; refine (fun (hx : Kept s0 x.2) => ?_) (?_ : Kept s0 x.2) <;> [clear_value x; subst x])
    | (extract_lets +onlyGivenNames x; clear_value x)
    | with_reducible apply wr_kept
    | with_reducible apply Kept.foldl
    | with_reducible apply Kept.foldl_snd
    | with_reducible apply Kept.foldl_fst

theorem refreshVeto_kept (s : State) (h : Kept s0 s) : Kept s0 (refreshVeto s) := by
  unfold refreshVeto
  repeat' first
    | with_reducible assumption
    | (intro x; beta_reduce)
    | (extract_lets +onlyGivenNames x; refine (fun (hx : Kept s0 x) => ?_) (?_ : Kept s0 x) <;> [clear_value x; subst x])
    | (extract_lets +onlyGivenNames x; refine (fun (hx : Kept s0 x.2) => ?_) (?_ : Kept s0 x.2) <;> [clear_value x; subst x])
    | (extract_lets +onlyGivenNames x; clear_value x)
    | with_reducible apply Kept.ite
    | split
    | with_reducible apply setb_kept
    | with_reducible apply Kept.foldl
    | with_reducible apply Kept.foldl_snd
    | with_reducible apply Kept.foldl_fst

theorem zeroAcc_kept (b : Nat) (s : State) (h : Kept s0 s) : Kept s0 (zeroAcc b s) := by
  unfold zeroAcc
  repeat' first
    | with_reducible assumption
    | (intro x; beta_reduce)
    | with_reducible apply Kept.ite
    | split
    | with_reducible apply storeMem_kept

theorem openBucket_kept (b : Nat) (s : State) (h : Kept s0 s) : Kept s0 (openBucket b s) := by
  unfold openBucket
  repeat' first
    | with_reducible assumption
    | (intro x; beta_reduce)
    | (extract_lets +onlyGivenNames x; refine (fun (hx : Kept s0 x) => ?_) (?_ : Kept s0 x) <;> [clear_value x; subst x])
    | (extract_lets +onlyGivenNames x; clear_value x)
    | with_reducible apply zeroAcc_kept
    | with_reducible apply setIncluded_kept
    | with_reducible apply setBx_kept

theorem openAll_kept (s : State) (h : Kept s0 s) : Kept s0 (openAll s) := by
  unfold openAll
  repeat' first
    | with_reducible assumption
    | (intro x; beta_reduce)
    | with_reducible apply refreshVeto_kept
    | with_reducible apply refreshPending_kept
    | with_reducible apply openBucket_kept
    | with_reducible apply Kept.foldl
    | with_reducible apply Kept.foldl_snd
    | with_reducible apply Kept.foldl_fst

theorem copyPlane_kept (b : Nat) (s : State) (h : Kept s0 s) : Kept s0 (copyPlane b s) := by
  unfold copyPlane
  repeat' first
    | with_reducible assumption
    | (intro x; beta_reduce)
    | with_reducible apply storeMem_kept

theorem loadBuckets_kept (s : State) (h : Kept s0 s) : Kept s0 (loadBuckets s) := by
  unfold loadBuckets
  repeat' first
    | with_reducible assumption
    | (intro x; beta_reduce)
    | (extract_lets +onlyGivenNames x; refine (fun (hx : Kept s0 x) => ?_) (?_ : Kept s0 x) <;> [clear_value x; subst x])
    | (extract_lets +onlyGivenNames x; refine (fun (hx : Kept s0 x.2) => ?_) (?_ : Kept s0 x.2) <;> [clear_value x; subst x])
    | (extract_lets +onlyGivenNames x; clear_value x)
    | with_reducible apply modJob_kept
    | with_reducible apply setWaitExtra_kept
    | with_reducible apply copyPlane_kept
    | with_reducible apply openAll_kept
    | with_reducible apply Kept.foldl
    | with_reducible apply Kept.foldl_snd
    | with_reducible apply Kept.foldl_fst
    | (with_reducible apply Kept.upd; first | with_reducible assumption | with_reducible apply modJob_kept | with_reducible apply setWaitExtra_kept | with_reducible apply copyPlane_kept | with_reducible apply openAll_kept | with_reducible apply Kept.foldl | with_reducible apply Kept.foldl_snd | with_reducible apply Kept.foldl_fst)

theorem loadUpdates_kept (s : State) (h : Kept s0 s) : Kept s0 (loadUpdates s) := by
  unfold loadUpdates
  repeat' first
    | with_reducible assumption
    | (intro x; beta_reduce)
    | (extract_lets +onlyGivenNames x; refine (fun (hx : Kept s0 x) => ?_) (?_ : Kept s0 x) <;> [clear_value x; subst x])
    | (extract_lets +onlyGivenNames x; clear_value x)
    | with_reducible apply modJob_kept
    | (with_reducible apply Kept.upd; first | with_reducible assumption | with_reducible apply modJob_kept)

theorem loadRoutes_kept (s : State) (h : Kept s0 s) : Kept s0 (loadRoutes s) := by
  unfold loadRoutes
  repeat' first
    | with_reducible assumption
    | (intro x; beta_reduce)
    | (extract_lets +onlyGivenNames x; refine (fun (hx : Kept s0 x) => ?_) (?_ : Kept s0 x) <;> [clear_value x; subst x])
    | (extract_lets +onlyGivenNames x; clear_value x)
    | with_reducible apply Kept.ite
    | split
    | with_reducible apply modJob_kept
    | (with_reducible apply Kept.upd; first | with_reducible assumption | with_reducible apply modJob_kept)

end Sys2Proof.Machine
end

