-- ==== Sys2Proof/Laws/KeptNetwork.lean ====
section
/-! SUPPORT. What the operations of Machine/Network.lean keep of the queue, the variant and soundness: one lemma for each, cited instead of its unfolding. -/

set_option linter.unusedTactic false
set_option linter.unreachableTactic false
set_option linter.unusedVariables false

namespace Sys2Proof.Machine

open Sys2Proof

variable {s0 : State}

theorem countRx_kept (p size : Nat) (s : State) (h : Kept s0 s) : Kept s0 (countRx p size s) := by
  unfold countRx
  repeat' first
    | with_reducible assumption
    | (intro x; beta_reduce)
    | with_reducible apply addW_kept

theorem occupyLine_kept (p n : Nat) (s : State) (h : Kept s0 s) : Kept s0 (occupyLine p n s) := by
  unfold occupyLine
  repeat' first
    | with_reducible assumption
    | (intro x; beta_reduce)
    | (with_reducible apply Kept.upd; first | with_reducible assumption)

theorem transmit_kept (p dst : Nat) (tag : Option Nat) (etype cls : Nat) (bytes : List Byte) (bad : List Nat)
    (s : State) (h : Kept s0 s) : Kept s0 (transmit p dst tag etype cls bytes bad s) := by
  unfold transmit
  repeat' first
    | with_reducible assumption
    | (intro x; beta_reduce)
    | (extract_lets +onlyGivenNames x; refine (fun (hx : Kept s0 x) => ?_) (?_ : Kept s0 x) <;> [clear_value x; subst x])
    | (extract_lets +onlyGivenNames x; clear_value x)
    | with_reducible apply Kept.ite
    | split
    | with_reducible apply occupyLine_kept
    | with_reducible apply addW_kept
    | with_reducible apply countRx_kept
    | with_reducible apply emit_kept

theorem countFrame_kept (f : Frame) (s : State) (h : Kept s0 s) : Kept s0 (countFrame f s) := by
  unfold countFrame
  repeat' first
    | with_reducible assumption
    | (intro x; beta_reduce)
    | with_reducible apply setb_kept
    | with_reducible apply sat_kept
    | with_reducible apply addW_kept
    | with_reducible apply countRx_kept

theorem setRx_kept (serial : Nat) (r : RxPeer) (s : State) (h : Kept s0 s) : Kept s0 (setRx serial r s) := by
  unfold setRx
  repeat' first
    | with_reducible assumption
    | (intro x; beta_reduce)
    | with_reducible apply modJob_kept
    | (with_reducible apply Kept.upd; first | with_reducible assumption | with_reducible apply modJob_kept)

theorem setTx_kept (serial : Nat) (t : TxPeer) (s : State) (h : Kept s0 s) : Kept s0 (setTx serial t s) := by
  unfold setTx
  repeat' first
    | with_reducible assumption
    | (intro x; beta_reduce)
    | with_reducible apply modJob_kept
    | (with_reducible apply Kept.upd; first | with_reducible assumption | with_reducible apply modJob_kept)

theorem sendRhazo_kept (p mac type rank serial id : Nat) (payload : List Byte) (bad : List Nat) (s : State)
    (h : Kept s0 s) : Kept s0 (sendRhazo p mac type rank serial id payload bad s) := by
  unfold sendRhazo
  repeat' first
    | with_reducible assumption
    | (intro x; beta_reduce)
    | (extract_lets +onlyGivenNames x; refine (fun (hx : Kept s0 x) => ?_) (?_ : Kept s0 x) <;> [clear_value x; subst x])
    | (extract_lets +onlyGivenNames x; refine (fun (hx : Kept s0 x.2) => ?_) (?_ : Kept s0 x.2) <;> [clear_value x; subst x])
    | (extract_lets +onlyGivenNames x; clear_value x)
    | with_reducible apply Kept.ite
    | split
    | with_reducible apply transmit_kept
    | with_reducible apply setRx_kept
    | (with_reducible apply Kept.upd; first | with_reducible assumption | with_reducible apply transmit_kept | with_reducible apply setRx_kept)

theorem trySend_kept (serial : Nat) (m : TxMsg) (s : State) (h : Kept s0 s) : Kept s0 (trySend serial m s).2 := by
  unfold trySend
  repeat' first
    | with_reducible assumption
    | (intro x; beta_reduce)
    | (extract_lets +onlyGivenNames x; refine (fun (hx : Kept s0 x) => ?_) (?_ : Kept s0 x) <;> [clear_value x; subst x])
    | (extract_lets +onlyGivenNames x; refine (fun (hx : Kept s0 x.2) => ?_) (?_ : Kept s0 x.2) <;> [clear_value x; subst x])
    | (extract_lets +onlyGivenNames x; clear_value x)
    | with_reducible apply Kept.ite
    | split
    | with_reducible apply sendRhazo_kept
    | with_reducible apply sat_kept
    | (with_reducible apply Kept.upd; first | with_reducible assumption | with_reducible apply sendRhazo_kept | with_reducible apply sat_kept)

theorem windowSend_kept (serial : Nat) (m : TxMsg) (s : State) (h : Kept s0 s) : Kept s0 (windowSend serial m s) := by
  unfold windowSend
  repeat' first
    | with_reducible assumption
    | (intro x; beta_reduce)
    | (extract_lets +onlyGivenNames x; refine (fun (hx : Kept s0 x) => ?_) (?_ : Kept s0 x) <;> [clear_value x; subst x])
    | (extract_lets +onlyGivenNames x; refine (fun (hx : Kept s0 x.2) => ?_) (?_ : Kept s0 x.2) <;> [clear_value x; subst x])
    | (extract_lets +onlyGivenNames x; clear_value x)
    | with_reducible apply Kept.ite
    | split
    | with_reducible apply trySend_kept
    | with_reducible apply setTx_kept
    | with_reducible apply sat_kept
    | refine Kept.snd (by with_reducible assumption) ?_
    | (with_reducible apply Kept.upd; first | with_reducible assumption | with_reducible apply trySend_kept | with_reducible apply setTx_kept | with_reducible apply sat_kept | refine Kept.snd (by with_reducible assumption) ?_)

theorem sendMsg_kept (rank type : Nat) (payload : List Byte) (bad : List Nat) (source : Option (Nat × Nat × Nat))
    (s : State) (h : Kept s0 s) : Kept s0 (sendMsg rank type payload bad source s).2 := by
  unfold sendMsg
  repeat' first
    | with_reducible assumption
    | (intro x; beta_reduce)
    | (extract_lets +onlyGivenNames x; refine (fun (hx : Kept s0 x) => ?_) (?_ : Kept s0 x) <;> [clear_value x; subst x])
    | (extract_lets +onlyGivenNames x; refine (fun (hx : Kept s0 x.2) => ?_) (?_ : Kept s0 x.2) <;> [clear_value x; subst x])
    | (extract_lets +onlyGivenNames x; clear_value x)
    | with_reducible apply Kept.ite
    | split
    | with_reducible apply setTx_kept
    | with_reducible apply windowSend_kept
    | (with_reducible apply Kept.upd; first | with_reducible assumption | with_reducible apply setTx_kept | with_reducible apply windowSend_kept)

theorem sendReliable_kept (rank type : Nat) (payload : List Byte) (bad : List Nat) (s : State)
    (h : Kept s0 s) : Kept s0 (sendReliable rank type payload bad s).2 := by
  unfold sendReliable
  repeat' first
    | with_reducible assumption
    | (intro x; beta_reduce)
    | with_reducible apply sendMsg_kept
    | refine Kept.snd (by with_reducible assumption) ?_

theorem sendWrite_kept (rank addr step space base n : Nat) (s : State)
    (h : Kept s0 s) : Kept s0 (sendWrite rank addr step space base n s).2 := by
  unfold sendWrite
  repeat' first
    | with_reducible assumption
    | (intro x; beta_reduce)
    | with_reducible apply sendMsg_kept
    | refine Kept.snd (by with_reducible assumption) ?_

theorem releaseHeld_kept (serial : Nat) (s : State) (h : Kept s0 s) : Kept s0 (releaseHeld serial s) := by
  unfold releaseHeld
  repeat' first
    | with_reducible assumption
    | (intro x; beta_reduce)
    | (extract_lets +onlyGivenNames x; refine (fun (hx : Kept s0 x) => ?_) (?_ : Kept s0 x) <;> [clear_value x; subst x])
    | (extract_lets +onlyGivenNames x; refine (fun (hx : Kept s0 x.2) => ?_) (?_ : Kept s0 x.2) <;> [clear_value x; subst x])
    | (extract_lets +onlyGivenNames x; clear_value x)
    | with_reducible apply setTx_kept
    | with_reducible apply windowSend_kept
    | with_reducible apply Kept.foldl
    | with_reducible apply Kept.foldl_snd
    | with_reducible apply Kept.foldl_fst
    | (with_reducible apply Kept.upd; first | with_reducible assumption | with_reducible apply setTx_kept | with_reducible apply windowSend_kept | with_reducible apply Kept.foldl | with_reducible apply Kept.foldl_snd | with_reducible apply Kept.foldl_fst)

theorem dropAwaits_kept (gone : Nat × Nat → Bool) (s : State) (h : Kept s0 s) : Kept s0 (dropAwaits gone s) := by
  unfold dropAwaits
  repeat' first
    | with_reducible assumption
    | (intro x; beta_reduce)
    | (with_reducible apply Kept.upd; first | with_reducible assumption)

theorem ackFrom_kept (serial mark map : Nat) (s : State) (h : Kept s0 s) : Kept s0 (ackFrom serial mark map s) := by
  unfold ackFrom
  repeat' first
    | with_reducible assumption
    | (intro x; beta_reduce)
    | (extract_lets +onlyGivenNames x; refine (fun (hx : Kept s0 x) => ?_) (?_ : Kept s0 x) <;> [clear_value x; subst x])
    | (extract_lets +onlyGivenNames x; clear_value x)
    | with_reducible apply Kept.ite
    | split
    | with_reducible apply setTx_kept
    | with_reducible apply releaseHeld_kept
    | with_reducible apply dropAwaits_kept
    | (with_reducible apply Kept.upd; first | with_reducible assumption | with_reducible apply setTx_kept | with_reducible apply releaseHeld_kept | with_reducible apply dropAwaits_kept)

theorem retransmit_kept (serial id : Nat) (s : State) (h : Kept s0 s) : Kept s0 (retransmit serial id s) := by
  unfold retransmit
  repeat' first
    | with_reducible assumption
    | (intro x; beta_reduce)
    | (extract_lets +onlyGivenNames x; refine (fun (hx : Kept s0 x) => ?_) (?_ : Kept s0 x) <;> [clear_value x; subst x])
    | (extract_lets +onlyGivenNames x; refine (fun (hx : Kept s0 x.2) => ?_) (?_ : Kept s0 x.2) <;> [clear_value x; subst x])
    | (extract_lets +onlyGivenNames x; clear_value x)
    | with_reducible apply Kept.ite
    | split
    | with_reducible apply advanceTo_kept
    | with_reducible apply trySend_kept
    | with_reducible apply setTx_kept
    | refine Kept.snd (by with_reducible assumption) ?_
    | (with_reducible apply Kept.upd; first | with_reducible assumption | with_reducible apply advanceTo_kept | with_reducible apply trySend_kept | with_reducible apply setTx_kept | refine Kept.snd (by with_reducible assumption) ?_)

theorem ackDelay_kept (serial : Nat) (s : State) (h : Kept s0 s) : Kept s0 (ackDelay serial s) := by
  unfold ackDelay
  repeat' first
    | with_reducible assumption
    | (intro x; beta_reduce)
    | (extract_lets +onlyGivenNames x; refine (fun (hx : Kept s0 x) => ?_) (?_ : Kept s0 x) <;> [clear_value x; subst x])
    | (extract_lets +onlyGivenNames x; refine (fun (hx : Kept s0 x.2) => ?_) (?_ : Kept s0 x.2) <;> [clear_value x; subst x])
    | (extract_lets +onlyGivenNames x; clear_value x)
    | with_reducible apply Kept.ite
    | split
    | with_reducible apply advanceTo_kept
    | with_reducible apply sendRhazo_kept

theorem portToken_kept (die queue word : Nat) (s : State) (h : Kept s0 s) : Kept s0 (portToken die queue word s) := by
  unfold portToken
  repeat' first
    | with_reducible assumption
    | (intro x; beta_reduce)
    | (extract_lets +onlyGivenNames x; refine (fun (hx : Kept s0 x) => ?_) (?_ : Kept s0 x) <;> [clear_value x; subst x])
    | (extract_lets +onlyGivenNames x; clear_value x)
    | with_reducible apply enqueue_kept

theorem deliverTokens_kept (n serial : Nat) (s : State) (h : Kept s0 s) : Kept s0 (deliverTokens n serial s) := by
  induction n generalizing s with
  | zero => exact h
  | succ n ih =>
    unfold deliverTokens
    repeat' first
      | with_reducible assumption
      | (extract_lets +onlyGivenNames x; clear_value x)
      | split
      | with_reducible apply ih
      | with_reducible apply portToken_kept
      | with_reducible apply setRx_kept

theorem dropSession_kept (f : Frame) (s : State) (h : Kept s0 s) : Kept s0 (dropSession f s) := by
  unfold dropSession
  repeat' first
    | with_reducible assumption
    | (intro x; beta_reduce)
    | with_reducible apply Kept.ite
    | split
    | with_reducible apply setRx_kept

theorem arrive_kept (f : Frame) (n : Nat) (always : Bool) (s : State) (h : Kept s0 s) :
    Kept s0 (arrive f n always s).2 ∧ ∀ t u, arrive f n always s = (some t, u) → Kept s0 t := by
  unfold arrive
  split
  · simp [h]
  · extract_lets s1 s2 s3
    have h1 : Kept s0 s1 := countFrame_kept _ _ h
    split
    · simp [sat_kept _ _ _ _ _ h1]
    · split
      · simp [sat_kept _ _ _ _ _ h1]
      · split
        · simp [sat_kept _ _ _ _ _ h1]
        · have h2 : Kept s0 s2 := dropSession_kept _ _ h1
          have h3 : Kept s0 s3 := by
            show Kept s0 (if f.ackValid then ackFrom f.serial f.ackMark f.ackMap s2 else s2)
            split
            · exact ackFrom_kept _ _ _ _ h2
            · exact h2
          simp [h3]

theorem takeMessage_kept (f : Frame) (type : Nat) (act after : State → State) (r : RxPeer) (s : State)
    (hact : ∀ s, Kept s0 s → Kept s0 (act s)) (hafter : ∀ s, Kept s0 s → Kept s0 (after s))
    (h : Kept s0 s) : Kept s0 (takeMessage f type act after r s) := by
  unfold takeMessage
  repeat' first
    | with_reducible assumption
    | (intro x; beta_reduce)
    | with_reducible apply Kept.ite
    | split
    | with_reducible apply hact
    | with_reducible apply hafter
    | with_reducible apply sat_kept
    | with_reducible apply setRx_kept
    | with_reducible apply deliverTokens_kept
    | (with_reducible apply Kept.upd; first | with_reducible assumption | with_reducible apply hact | with_reducible apply hafter | with_reducible apply sat_kept | with_reducible apply setRx_kept | with_reducible apply deliverTokens_kept)

theorem receive_kept (f : Frame) (n type : Nat) (act after : State → State) (s : State)
    (hact : ∀ s, Kept s0 s → Kept s0 (act s)) (hafter : ∀ s, Kept s0 s → Kept s0 (after s))
    (h : Kept s0 s) : Kept s0 (receive f n type act after s) := by
  unfold receive
  repeat' first
    | with_reducible assumption
    | (intro x; beta_reduce)
    | with_reducible apply Kept.ite
    | split
    | with_reducible apply hact
    | with_reducible apply hafter
    | exact Kept.snd (by with_reducible assumption) (arrive_kept _ _ _ _ (by with_reducible assumption)).1
    | exact (arrive_kept _ _ _ _ (by with_reducible assumption)).1
    | exact (arrive_kept _ _ _ _ (by with_reducible assumption)).2 _ _ (by with_reducible assumption)
    | with_reducible apply takeMessage_kept
    | refine Kept.snd (by with_reducible assumption) ?_

theorem takeToken_kept (f : Frame) (word queue die : Nat) (after : State → State) (r : RxPeer) (s : State)
    (hafter : ∀ s, Kept s0 s → Kept s0 (after s)) (h : Kept s0 s) : Kept s0 (takeToken f word queue die after r s) := by
  unfold takeToken
  repeat' first
    | with_reducible assumption
    | (intro x; beta_reduce)
    | with_reducible apply Kept.ite
    | split
    | with_reducible apply hafter
    | with_reducible apply sat_kept
    | with_reducible apply setRx_kept
    | with_reducible apply deliverTokens_kept
    | (with_reducible apply Kept.upd; first | with_reducible assumption | with_reducible apply hafter | with_reducible apply sat_kept | with_reducible apply setRx_kept | with_reducible apply deliverTokens_kept)

theorem receiveToken_kept (f : Frame) (word queue die : Nat) (after : State → State) (s : State)
    (hafter : ∀ s, Kept s0 s → Kept s0 (after s)) (h : Kept s0 s) : Kept s0 (receiveToken f word queue die after s) := by
  unfold receiveToken
  repeat' first
    | with_reducible assumption
    | (intro x; beta_reduce)
    | with_reducible apply Kept.ite
    | split
    | with_reducible apply hafter
    | exact Kept.snd (by with_reducible assumption) (arrive_kept _ _ _ _ (by with_reducible assumption)).1
    | exact (arrive_kept _ _ _ _ (by with_reducible assumption)).1
    | exact (arrive_kept _ _ _ _ (by with_reducible assumption)).2 _ _ (by with_reducible assumption)
    | with_reducible apply takeToken_kept
    | refine Kept.snd (by with_reducible assumption) ?_

theorem countZone_kept (a n z : Nat) (s : State) (h : Kept s0 s) : Kept s0 (countZone a n z s) := by
  unfold countZone
  repeat' first
    | with_reducible assumption
    | (intro x; beta_reduce)
    | (extract_lets +onlyGivenNames x; refine (fun (hx : Kept s0 x) => ?_) (?_ : Kept s0 x) <;> [clear_value x; subst x])
    | (extract_lets +onlyGivenNames x; refine (fun (hx : Kept s0 x.2) => ?_) (?_ : Kept s0 x.2) <;> [clear_value x; subst x])
    | (extract_lets +onlyGivenNames x; clear_value x)
    | with_reducible apply Kept.ite
    | split
    | with_reducible apply portToken_kept
    | with_reducible apply wr_kept
    | with_reducible apply Kept.foldl
    | with_reducible apply Kept.foldl_snd
    | with_reducible apply Kept.foldl_fst

theorem storePoisoned_kept (a : Nat) (bytes : List Byte) (bad : List Nat) (s : State)
    (h : Kept s0 s) : Kept s0 (storePoisoned a bytes bad s) := by
  unfold storePoisoned
  repeat' first
    | with_reducible assumption
    | (intro x; beta_reduce)
    | (extract_lets +onlyGivenNames x; refine (fun (hx : Kept s0 x) => ?_) (?_ : Kept s0 x) <;> [clear_value x; subst x])
    | (extract_lets +onlyGivenNames x; refine (fun (hx : Kept s0 x.2) => ?_) (?_ : Kept s0 x.2) <;> [clear_value x; subst x])
    | (extract_lets +onlyGivenNames x; clear_value x)
    | with_reducible apply poisonWord_kept
    | with_reducible apply satU_kept
    | with_reducible apply storeMem_kept
    | with_reducible apply Kept.foldl
    | with_reducible apply Kept.foldl_snd
    | with_reducible apply Kept.foldl_fst

theorem remoteStore_kept (a : Nat) (bytes : List Byte) (bad : List Nat) (s : State)
    (h : Kept s0 s) : Kept s0 (remoteStore a bytes bad s) := by
  unfold remoteStore
  repeat' first
    | with_reducible assumption
    | (intro x; beta_reduce)
    | with_reducible apply viewReport_kept
    | with_reducible apply storePoisoned_kept

theorem noteLanded_kept (addr n : Nat) (s : State) (h : Kept s0 s) : Kept s0 (noteLanded addr n s) := by
  unfold noteLanded
  repeat' first
    | with_reducible assumption
    | (intro x; beta_reduce)
    | (extract_lets +onlyGivenNames x; refine (fun (hx : Kept s0 x) => ?_) (?_ : Kept s0 x) <;> [clear_value x; subst x])
    | (extract_lets +onlyGivenNames x; refine (fun (hx : Kept s0 x.2) => ?_) (?_ : Kept s0 x.2) <;> [clear_value x; subst x])
    | (extract_lets +onlyGivenNames x; clear_value x)
    | with_reducible apply Kept.ite
    | split
    | with_reducible apply modBx_kept
    | (with_reducible apply Kept.upd; first | with_reducible assumption | with_reducible apply modBx_kept)

theorem takeWrite_kept (f : Frame) (addr : Nat) (bound : Bool) (step : Nat) (data : List Byte) (bad : List Nat)
    (s : State) (h : Kept s0 s) : Kept s0 (takeWrite f addr bound step data bad s) := by
  unfold takeWrite
  repeat' first
    | with_reducible assumption
    | (intro x; beta_reduce)
    | (extract_lets +onlyGivenNames x; refine (fun (hx : Kept s0 x) => ?_) (?_ : Kept s0 x) <;> [clear_value x; subst x])
    | (extract_lets +onlyGivenNames x; refine (fun (hx : Kept s0 x.2) => ?_) (?_ : Kept s0 x.2) <;> [clear_value x; subst x])
    | (extract_lets +onlyGivenNames x; clear_value x)
    | with_reducible apply Kept.ite
    | split
    | with_reducible apply sat_kept
    | with_reducible apply sendReliable_kept
    | with_reducible apply remoteStore_kept
    | with_reducible apply noteLanded_kept
    | with_reducible apply countZone_kept
    | with_reducible apply Kept.foldl
    | with_reducible apply Kept.foldl_snd
    | with_reducible apply Kept.foldl_fst
    | refine Kept.snd (by with_reducible assumption) ?_

theorem discardFrame_kept (f : Frame) (why : Discard) (after : State → State) (s : State)
    (hafter : ∀ s, Kept s0 s → Kept s0 (after s)) (h : Kept s0 s) : Kept s0 (discardFrame f why after s) := by
  unfold discardFrame
  repeat' first
    | with_reducible assumption
    | (intro x; beta_reduce)
    | (extract_lets +onlyGivenNames x; refine (fun (hx : Kept s0 x) => ?_) (?_ : Kept s0 x) <;> [clear_value x; subst x])
    | (extract_lets +onlyGivenNames x; refine (fun (hx : Kept s0 x.2) => ?_) (?_ : Kept s0 x.2) <;> [clear_value x; subst x])
    | (extract_lets +onlyGivenNames x; clear_value x)
    | with_reducible apply Kept.ite
    | split
    | with_reducible apply hafter
    | with_reducible apply receive_kept
    | with_reducible apply sat_kept
    | with_reducible apply countFrame_kept

theorem sendWaiting_kept (s : State) (h : Kept s0 s) : Kept s0 (sendWaiting s) := by
  unfold sendWaiting
  repeat' first
    | with_reducible assumption
    | (intro x; beta_reduce)
    | (extract_lets +onlyGivenNames x; refine (fun (hx : Kept s0 x) => ?_) (?_ : Kept s0 x) <;> [clear_value x; subst x])
    | (extract_lets +onlyGivenNames x; refine (fun (hx : Kept s0 x.2) => ?_) (?_ : Kept s0 x.2) <;> [clear_value x; subst x])
    | (extract_lets +onlyGivenNames x; clear_value x)
    | with_reducible apply Kept.ite
    | split
    | with_reducible apply trySend_kept
    | with_reducible apply setTx_kept
    | with_reducible apply Kept.foldl
    | with_reducible apply Kept.foldl_snd
    | with_reducible apply Kept.foldl_fst
    | refine Kept.snd (by with_reducible assumption) ?_
    | (with_reducible apply Kept.upd; first | with_reducible assumption | with_reducible apply trySend_kept | with_reducible apply setTx_kept | with_reducible apply Kept.foldl | with_reducible apply Kept.foldl_snd | with_reducible apply Kept.foldl_fst | refine Kept.snd (by with_reducible assumption) ?_)

theorem showPtpPort_kept (s : State) (h : Kept s0 s) : Kept s0 (showPtpPort s) := by
  unfold showPtpPort
  repeat' first
    | with_reducible assumption
    | (intro x; beta_reduce)
    | (extract_lets +onlyGivenNames x; refine (fun (hx : Kept s0 x) => ?_) (?_ : Kept s0 x) <;> [clear_value x; subst x])
    | (extract_lets +onlyGivenNames x; refine (fun (hx : Kept s0 x.2) => ?_) (?_ : Kept s0 x.2) <;> [clear_value x; subst x])
    | (extract_lets +onlyGivenNames x; clear_value x)
    | with_reducible apply Kept.ite
    | split
    | with_reducible apply setb_kept
    | with_reducible apply wr_kept
    | with_reducible apply Kept.foldl
    | with_reducible apply Kept.foldl_snd
    | with_reducible apply Kept.foldl_fst

theorem portReady_kept (p : Nat) (s : State) (h : Kept s0 s) : Kept s0 (portReady p s) := by
  unfold portReady
  repeat' first
    | with_reducible assumption
    | (intro x; beta_reduce)
    | (extract_lets +onlyGivenNames x; refine (fun (hx : Kept s0 x) => ?_) (?_ : Kept s0 x) <;> [clear_value x; subst x])
    | (extract_lets +onlyGivenNames x; clear_value x)
    | with_reducible apply Kept.ite
    | split
    | with_reducible apply setReady_kept

theorem linkRises_kept (p : Nat) (s : State) (h : Kept s0 s) : Kept s0 (linkRises p s) := by
  unfold linkRises
  repeat' first
    | with_reducible assumption
    | (intro x; beta_reduce)
    | (extract_lets +onlyGivenNames x; refine (fun (hx : Kept s0 x) => ?_) (?_ : Kept s0 x) <;> [clear_value x; subst x])
    | (extract_lets +onlyGivenNames x; clear_value x)
    | with_reducible apply setb_kept
    | with_reducible apply showPtpPort_kept
    | with_reducible apply portReady_kept

theorem linkDown_kept (p : Nat) (s : State) (h : Kept s0 s) : Kept s0 (linkDown p s) := by
  unfold linkDown
  repeat' first
    | with_reducible assumption
    | (intro x; beta_reduce)
    | (extract_lets +onlyGivenNames x; refine (fun (hx : Kept s0 x) => ?_) (?_ : Kept s0 x) <;> [clear_value x; subst x])
    | (extract_lets +onlyGivenNames x; clear_value x)
    | with_reducible apply Kept.ite
    | split
    | with_reducible apply setb_kept
    | with_reducible apply sat_kept
    | with_reducible apply showPtpPort_kept
    | with_reducible apply portReady_kept

theorem heartbeatSend_kept (s : State) (h : Kept s0 s) : Kept s0 (heartbeatSend s) := by
  unfold heartbeatSend
  repeat' first
    | with_reducible assumption
    | (intro x; beta_reduce)
    | (extract_lets +onlyGivenNames x; refine (fun (hx : Kept s0 x) => ?_) (?_ : Kept s0 x) <;> [clear_value x; subst x])
    | (extract_lets +onlyGivenNames x; refine (fun (hx : Kept s0 x.2) => ?_) (?_ : Kept s0 x.2) <;> [clear_value x; subst x])
    | (extract_lets +onlyGivenNames x; clear_value x)
    | with_reducible apply Kept.ite
    | split
    | with_reducible apply advanceTo_kept
    | with_reducible apply modJob_kept
    | with_reducible apply sendRhazo_kept
    | with_reducible apply Kept.foldl
    | with_reducible apply Kept.foldl_snd
    | with_reducible apply Kept.foldl_fst
    | (with_reducible apply Kept.upd; first | with_reducible assumption | with_reducible apply advanceTo_kept | with_reducible apply modJob_kept | with_reducible apply sendRhazo_kept | with_reducible apply Kept.foldl | with_reducible apply Kept.foldl_snd | with_reducible apply Kept.foldl_fst)

theorem learnStep_kept (f : Frame) (e : ViewEntry) (s : State) (h : Kept s0 s) : Kept s0 (learnStep f e s) := by
  unfold learnStep
  repeat' first
    | with_reducible assumption
    | (intro x; beta_reduce)
    | (extract_lets +onlyGivenNames x; refine (fun (hx : Kept s0 x) => ?_) (?_ : Kept s0 x) <;> [clear_value x; subst x])
    | (extract_lets +onlyGivenNames x; clear_value x)
    | with_reducible apply Kept.ite
    | split
    | with_reducible apply wr_kept
    | with_reducible apply modJob_kept
    | (with_reducible apply Kept.upd; first | with_reducible assumption | with_reducible apply wr_kept | with_reducible apply modJob_kept)

theorem heartbeat_kept (f : Frame) (s : State) (h : Kept s0 s) : Kept s0 (heartbeat f s) := by
  unfold heartbeat
  repeat' first
    | with_reducible assumption
    | (intro x; beta_reduce)
    | (extract_lets +onlyGivenNames x; refine (fun (hx : Kept s0 x) => ?_) (?_ : Kept s0 x) <;> [clear_value x; subst x])
    | (extract_lets +onlyGivenNames x; refine (fun (hx : Kept s0 x.2) => ?_) (?_ : Kept s0 x.2) <;> [clear_value x; subst x])
    | (extract_lets +onlyGivenNames x; clear_value x)
    | with_reducible apply Kept.ite
    | split
    | exact Kept.snd (by with_reducible assumption) (arrive_kept _ _ _ _ (by with_reducible assumption)).1
    | exact (arrive_kept _ _ _ _ (by with_reducible assumption)).1
    | exact (arrive_kept _ _ _ _ (by with_reducible assumption)).2 _ _ (by with_reducible assumption)
    | with_reducible apply learnStep_kept
    | with_reducible apply wr_kept
    | with_reducible apply modJob_kept
    | with_reducible apply withdraw_kept
    | refine Kept.snd (by with_reducible assumption) ?_
    | (with_reducible apply Kept.upd; first | with_reducible assumption | exact Kept.snd (by with_reducible assumption) (arrive_kept _ _ _ _ (by with_reducible assumption)).1 | exact (arrive_kept _ _ _ _ (by with_reducible assumption)).1 | exact (arrive_kept _ _ _ _ (by with_reducible assumption)).2 _ _ (by with_reducible assumption) | with_reducible apply learnStep_kept | with_reducible apply wr_kept | with_reducible apply modJob_kept | with_reducible apply withdraw_kept | refine Kept.snd (by with_reducible assumption) ?_)

theorem suspect_kept (rank : Nat) (s : State) (h : Kept s0 s) : Kept s0 (suspect rank s) := by
  unfold suspect
  repeat' first
    | with_reducible assumption
    | (intro x; beta_reduce)
    | (extract_lets +onlyGivenNames x; refine (fun (hx : Kept s0 x) => ?_) (?_ : Kept s0 x) <;> [clear_value x; subst x])
    | (extract_lets +onlyGivenNames x; clear_value x)
    | with_reducible apply Kept.ite
    | split
    | with_reducible apply advanceTo_kept
    | with_reducible apply sat_kept
    | with_reducible apply setb_kept
    | with_reducible apply wr_kept

end Sys2Proof.Machine
end

