-- ==== Sys2Proof/Laws/KeptExchange.lean ====
section
/-! SUPPORT. What the operations of Machine/Exchange.lean keep of the queue, the variant and soundness: one lemma for each, cited instead of its unfolding. -/

set_option linter.unusedTactic false
set_option linter.unreachableTactic false
set_option linter.unusedVariables false

namespace Sys2Proof.Machine

open Sys2Proof

variable {s0 : State}

theorem takeOp_kept (op : Nat) (x : XOp) (act : State → State) (s : State) (hact : ∀ s, Kept s0 s → Kept s0 (act s))
    (h : Kept s0 s) : Kept s0 (takeOp op x act s) := by
  unfold takeOp
  repeat' first
    | with_reducible assumption
    | (intro x; beta_reduce)
    | (extract_lets +onlyGivenNames x; refine (fun (hx : Kept s0 x) => ?_) (?_ : Kept s0 x) <;> [clear_value x; subst x])
    | (extract_lets +onlyGivenNames x; clear_value x)
    | with_reducible apply Kept.ite
    | split
    | with_reducible apply hact
    | with_reducible apply addW_kept
    | with_reducible apply sat_kept

theorem sendOp_kept (rank type : Nat) (x : XOp) (s : State) (h : Kept s0 s) : Kept s0 (sendOp rank type x s).2 := by
  unfold sendOp
  repeat' first
    | with_reducible assumption
    | (intro x; beta_reduce)
    | with_reducible apply sendReliable_kept
    | refine Kept.snd (by with_reducible assumption) ?_

theorem sendAll_kept (type : Nat) (x : XOp) (s : State) (h : Kept s0 s) : Kept s0 (sendAll type x s).2 := by
  unfold sendAll
  repeat' first
    | with_reducible assumption
    | (intro x; beta_reduce)
    | (extract_lets +onlyGivenNames x; refine (fun (hx : Kept s0 x) => ?_) (?_ : Kept s0 x) <;> [clear_value x; subst x])
    | (extract_lets +onlyGivenNames x; refine (fun (hx : Kept s0 x.2) => ?_) (?_ : Kept s0 x.2) <;> [clear_value x; subst x])
    | (extract_lets +onlyGivenNames x; clear_value x)
    | with_reducible apply Kept.ite
    | split
    | with_reducible apply sendOp_kept
    | with_reducible apply Kept.foldl
    | with_reducible apply Kept.foldl_snd
    | with_reducible apply Kept.foldl_fst
    | refine Kept.snd (by with_reducible assumption) ?_

theorem modSends_kept (p : SendRec → Bool) (f : SendRec → SendRec) (s : State)
    (h : Kept s0 s) : Kept s0 (modSends p f s) := by
  unfold modSends
  repeat' first
    | with_reducible assumption
    | (intro x; beta_reduce)
    | with_reducible apply Kept.ite
    | split
    | with_reducible apply modJob_kept
    | (with_reducible apply Kept.upd; first | with_reducible assumption | with_reducible apply modJob_kept)

theorem modOp_kept (id : Nat) (f : PendingOp → PendingOp) (s : State) (h : Kept s0 s) : Kept s0 (modOp id f s) := by
  unfold modOp
  repeat' first
    | with_reducible assumption
    | (intro x; beta_reduce)
    | with_reducible apply Kept.ite
    | split
    | (with_reducible apply Kept.upd; first | with_reducible assumption)

theorem noteServed_kept (b first count : Nat) (s : State) (h : Kept s0 s) : Kept s0 (noteServed b first count s) := by
  unfold noteServed
  repeat' first
    | with_reducible assumption
    | (intro x; beta_reduce)
    | (extract_lets +onlyGivenNames x; refine (fun (hx : Kept s0 x) => ?_) (?_ : Kept s0 x) <;> [clear_value x; subst x])
    | (extract_lets +onlyGivenNames x; refine (fun (hx : Kept s0 x.2) => ?_) (?_ : Kept s0 x.2) <;> [clear_value x; subst x])
    | (extract_lets +onlyGivenNames x; clear_value x)
    | with_reducible apply Kept.ite
    | split
    | with_reducible apply storeMem_kept
    | with_reducible apply modSends_kept
    | with_reducible apply modOp_kept
    | with_reducible apply Kept.foldl
    | with_reducible apply Kept.foldl_snd
    | with_reducible apply Kept.foldl_fst
    | (with_reducible apply Kept.upd; first | with_reducible assumption | with_reducible apply storeMem_kept | with_reducible apply modSends_kept | with_reducible apply modOp_kept | with_reducible apply Kept.foldl | with_reducible apply Kept.foldl_snd | with_reducible apply Kept.foldl_fst)

theorem onReply_kept (b code first count : Nat) (s : State)
    (h : Kept s0 s) : Kept s0 (onReply b code first count s) := by
  unfold onReply
  repeat' first
    | with_reducible assumption
    | (intro x; beta_reduce)
    | (extract_lets +onlyGivenNames x; refine (fun (hx : Kept s0 x) => ?_) (?_ : Kept s0 x) <;> [clear_value x; subst x])
    | (extract_lets +onlyGivenNames x; refine (fun (hx : Kept s0 x.2) => ?_) (?_ : Kept s0 x.2) <;> [clear_value x; subst x])
    | (extract_lets +onlyGivenNames x; clear_value x)
    | with_reducible apply Kept.ite
    | split
    | with_reducible apply modSends_kept
    | with_reducible apply modOp_kept
    | with_reducible apply Kept.foldl
    | with_reducible apply Kept.foldl_snd
    | with_reducible apply Kept.foldl_fst
    | (with_reducible apply Kept.upd; first | with_reducible assumption | with_reducible apply modSends_kept | with_reducible apply modOp_kept | with_reducible apply Kept.foldl | with_reducible apply Kept.foldl_snd | with_reducible apply Kept.foldl_fst)

theorem noticeGates_kept (b : Nat) (s : State) (h : Kept s0 s) : Kept s0 (noticeGates b s) := by
  unfold noticeGates
  repeat' first
    | with_reducible assumption
    | (intro x; beta_reduce)
    | (extract_lets +onlyGivenNames x; refine (fun (hx : Kept s0 x) => ?_) (?_ : Kept s0 x) <;> [clear_value x; subst x])
    | (extract_lets +onlyGivenNames x; refine (fun (hx : Kept s0 x.2) => ?_) (?_ : Kept s0 x.2) <;> [clear_value x; subst x])
    | (extract_lets +onlyGivenNames x; clear_value x)
    | with_reducible apply Kept.ite
    | split
    | (with_reducible apply Kept.upd; first | with_reducible assumption)

theorem onNotice_kept (rank b : Nat) (ranks : List Nat) (count : Nat) (rep veto final : Bool) (s : State)
    (h : Kept s0 s) : Kept s0 (onNotice rank b ranks count rep veto final s) := by
  unfold onNotice
  repeat' first
    | with_reducible assumption
    | (intro x; beta_reduce)
    | (extract_lets +onlyGivenNames x; refine (fun (hx : Kept s0 x) => ?_) (?_ : Kept s0 x) <;> [clear_value x; subst x])
    | (extract_lets +onlyGivenNames x; clear_value x)
    | with_reducible apply Kept.ite
    | split
    | with_reducible apply setBx_kept
    | with_reducible apply setIncluded_kept
    | with_reducible apply noticeGates_kept
    | with_reducible apply refreshPending_kept
    | with_reducible apply refreshVeto_kept
    | with_reducible apply exchangeLog_kept
    | with_reducible apply setb_kept
    | with_reducible apply sat_kept
    | (with_reducible apply Kept.upd; first | with_reducible assumption | with_reducible apply setBx_kept | with_reducible apply setIncluded_kept | with_reducible apply noticeGates_kept | with_reducible apply refreshPending_kept | with_reducible apply refreshVeto_kept | with_reducible apply exchangeLog_kept | with_reducible apply setb_kept | with_reducible apply sat_kept)

theorem onTable_kept (b : Nat) (changes : List (Nat × Nat)) (s : State)
    (h : Kept s0 s) : Kept s0 (onTable b changes s) := by
  unfold onTable
  repeat' first
    | with_reducible assumption
    | (intro x; beta_reduce)
    | with_reducible apply storeMem_kept
    | with_reducible apply Kept.foldl
    | with_reducible apply Kept.foldl_snd
    | with_reducible apply Kept.foldl_fst

end Sys2Proof.Machine
end

