-- ==== Sys2Proof/Laws/KeptOwner.lean ====
section
/-! SUPPORT. What the operations of Machine/Owner.lean keep of the queue, the variant and soundness: one lemma for each, cited instead of its unfolding. -/

set_option linter.unusedTactic false
set_option linter.unreachableTactic false
set_option linter.unusedVariables false

namespace Sys2Proof.Machine

open Sys2Proof

variable {s0 : State}

theorem accAdd_kept (b pos : Nat) (ds : List Int) (s : State) (h : Kept s0 s) : Kept s0 (accAdd b pos ds s) := by
  unfold accAdd
  repeat' first
    | with_reducible assumption
    | (intro x; beta_reduce)
    | with_reducible apply writeBytes_kept

theorem accCount_kept (b rank added markers : Nat) (s : State)
    (h : Kept s0 s) : Kept s0 (accCount b rank added markers s) := by
  unfold accCount
  repeat' first
    | with_reducible assumption
    | (intro x; beta_reduce)
    | (extract_lets +onlyGivenNames x; refine (fun (hx : Kept s0 x) => ?_) (?_ : Kept s0 x) <;> [clear_value x; subst x])
    | (extract_lets +onlyGivenNames x; clear_value x)
    | with_reducible apply Kept.ite
    | split
    | with_reducible apply addW_kept
    | with_reducible apply sat_kept
    | with_reducible apply modBx_kept
    | (with_reducible apply Kept.upd; first | with_reducible assumption | with_reducible apply addW_kept | with_reducible apply sat_kept | with_reducible apply modBx_kept)

theorem countElems_kept (x : XOp) (sub : Bool) (skip : Nat → Bool) (ms : List (Nat × Byte)) (s : State)
    (h : Kept s0 s) : Kept s0 (countElems x sub skip ms s) := by
  unfold countElems
  repeat' first
    | with_reducible assumption
    | (intro x; beta_reduce)
    | (extract_lets +onlyGivenNames x; refine (fun (hx : Kept s0 x) => ?_) (?_ : Kept s0 x) <;> [clear_value x; subst x])
    | (extract_lets +onlyGivenNames x; clear_value x)
    | with_reducible apply Kept.ite
    | split
    | with_reducible apply accCount_kept

theorem accumulate_kept (x : XOp) (sub : Bool) (skip : Nat → Bool) (s : State)
    (h : Kept s0 s) : Kept s0 (accumulate x sub skip s) := by
  unfold accumulate
  repeat' first
    | with_reducible assumption
    | (intro x; beta_reduce)
    | (extract_lets +onlyGivenNames x; refine (fun (hx : Kept s0 x) => ?_) (?_ : Kept s0 x) <;> [clear_value x; subst x])
    | (extract_lets +onlyGivenNames x; refine (fun (hx : Kept s0 x.2) => ?_) (?_ : Kept s0 x.2) <;> [clear_value x; subst x])
    | (extract_lets +onlyGivenNames x; clear_value x)
    | with_reducible apply Kept.ite
    | split
    | with_reducible apply countElems_kept
    | with_reducible apply accAdd_kept
    | with_reducible apply accCount_kept
    | with_reducible apply Kept.foldl
    | with_reducible apply Kept.foldl_snd
    | with_reducible apply Kept.foldl_fst

theorem noteTaken_kept (x : XOp) (s : State) (h : Kept s0 s) : Kept s0 (noteTaken x s) := by
  unfold noteTaken
  repeat' first
    | with_reducible assumption
    | (intro x; beta_reduce)
    | (extract_lets +onlyGivenNames x; refine (fun (hx : Kept s0 x) => ?_) (?_ : Kept s0 x) <;> [clear_value x; subst x])
    | (extract_lets +onlyGivenNames x; clear_value x)
    | with_reducible apply Kept.ite
    | split
    | with_reducible apply modBx_kept
    | (with_reducible apply Kept.upd; first | with_reducible assumption | with_reducible apply modBx_kept)

theorem addOnce_kept (x : XOp) (sub : Bool) (s : State) (h : Kept s0 s) : Kept s0 (addOnce x sub s) := by
  unfold addOnce
  repeat' first
    | with_reducible assumption
    | (intro x; beta_reduce)
    | with_reducible apply noteTaken_kept
    | with_reducible apply accumulate_kept

theorem sendNotice_kept (b changes : Nat) (rep veto final : Bool) (s : State)
    (h : Kept s0 s) : Kept s0 (sendNotice b changes rep veto final s) := by
  unfold sendNotice
  repeat' first
    | with_reducible assumption
    | (intro x; beta_reduce)
    | (extract_lets +onlyGivenNames x; refine (fun (hx : Kept s0 x) => ?_) (?_ : Kept s0 x) <;> [clear_value x; subst x])
    | (extract_lets +onlyGivenNames x; refine (fun (hx : Kept s0 x.2) => ?_) (?_ : Kept s0 x.2) <;> [clear_value x; subst x])
    | (extract_lets +onlyGivenNames x; clear_value x)
    | with_reducible apply onNotice_kept
    | with_reducible apply sendAll_kept
    | refine Kept.snd (by with_reducible assumption) ?_

theorem announce_kept (b : Nat) (rep veto final : Bool) (s : State)
    (h : Kept s0 s) : Kept s0 (announce b rep veto final s) := by
  unfold announce
  repeat' first
    | with_reducible assumption
    | (intro x; beta_reduce)
    | (extract_lets +onlyGivenNames x; refine (fun (hx : Kept s0 x) => ?_) (?_ : Kept s0 x) <;> [clear_value x; subst x])
    | (extract_lets +onlyGivenNames x; refine (fun (hx : Kept s0 x.2) => ?_) (?_ : Kept s0 x.2) <;> [clear_value x; subst x])
    | (extract_lets +onlyGivenNames x; clear_value x)
    | with_reducible apply sendNotice_kept
    | with_reducible apply sendAll_kept
    | with_reducible apply onTable_kept
    | with_reducible apply Kept.foldl
    | with_reducible apply Kept.foldl_snd
    | with_reducible apply Kept.foldl_fst
    | refine Kept.snd (by with_reducible assumption) ?_

theorem sendShard_kept (b rank : Nat) (data : Bool) (s : State)
    (h : Kept s0 s) : Kept s0 (sendShard b rank data s) := by
  unfold sendShard
  repeat' first
    | with_reducible assumption
    | (intro x; beta_reduce)
    | (extract_lets +onlyGivenNames x; refine (fun (hx : Kept s0 x) => ?_) (?_ : Kept s0 x) <;> [clear_value x; subst x])
    | (extract_lets +onlyGivenNames x; refine (fun (hx : Kept s0 x.2) => ?_) (?_ : Kept s0 x.2) <;> [clear_value x; subst x])
    | (extract_lets +onlyGivenNames x; clear_value x)
    | with_reducible apply Kept.ite
    | split
    | with_reducible apply sendWrite_kept
    | with_reducible apply modBx_kept
    | with_reducible apply Kept.foldl
    | with_reducible apply Kept.foldl_snd
    | with_reducible apply Kept.foldl_fst
    | refine Kept.snd (by with_reducible assumption) ?_
    | (with_reducible apply Kept.upd; first | with_reducible assumption | with_reducible apply sendWrite_kept | with_reducible apply modBx_kept | with_reducible apply Kept.foldl | with_reducible apply Kept.foldl_snd | with_reducible apply Kept.foldl_fst | refine Kept.snd (by with_reducible assumption) ?_)

theorem shardOut_kept (b : Nat) (data : Bool) (s : State) (h : Kept s0 s) : Kept s0 (shardOut b data s) := by
  unfold shardOut
  repeat' first
    | with_reducible assumption
    | (intro x; beta_reduce)
    | with_reducible apply Kept.ite
    | split
    | with_reducible apply sendShard_kept

theorem settleShards_kept (b : Nat) (s : State) (h : Kept s0 s) : Kept s0 (settleShards b s) := by
  unfold settleShards
  repeat' first
    | with_reducible assumption
    | (intro x; beta_reduce)
    | (extract_lets +onlyGivenNames x; refine (fun (hx : Kept s0 x) => ?_) (?_ : Kept s0 x) <;> [clear_value x; subst x])
    | (extract_lets +onlyGivenNames x; refine (fun (hx : Kept s0 x.2) => ?_) (?_ : Kept s0 x.2) <;> [clear_value x; subst x])
    | (extract_lets +onlyGivenNames x; clear_value x)
    | with_reducible apply Kept.ite
    | split
    | with_reducible apply sendReliable_kept
    | with_reducible apply modBx_kept
    | with_reducible apply sendShard_kept
    | with_reducible apply Kept.foldl
    | with_reducible apply Kept.foldl_snd
    | with_reducible apply Kept.foldl_fst
    | refine Kept.snd (by with_reducible assumption) ?_
    | (with_reducible apply Kept.upd; first | with_reducible assumption | with_reducible apply sendReliable_kept | with_reducible apply modBx_kept | with_reducible apply sendShard_kept | with_reducible apply Kept.foldl | with_reducible apply Kept.foldl_snd | with_reducible apply Kept.foldl_fst | refine Kept.snd (by with_reducible assumption) ?_)

theorem reducedToken_kept (b n : Nat) (veto : Bool) (s : State)
    (h : Kept s0 s) : Kept s0 (reducedToken b n veto s) := by
  unfold reducedToken
  repeat' first
    | with_reducible assumption
    | (intro x; beta_reduce)
    | with_reducible apply portToken_kept

theorem vetoBucket_kept (b cause rank : Nat) (again : Bool) (s : State)
    (h : Kept s0 s) : Kept s0 (vetoBucket b cause rank again s) := by
  unfold vetoBucket
  repeat' first
    | with_reducible assumption
    | (intro x; beta_reduce)
    | (extract_lets +onlyGivenNames x; refine (fun (hx : Kept s0 x) => ?_) (?_ : Kept s0 x) <;> [clear_value x; subst x])
    | (extract_lets +onlyGivenNames x; clear_value x)
    | with_reducible apply Kept.ite
    | split
    | with_reducible apply modBx_kept
    | with_reducible apply exchangeLog_kept
    | with_reducible apply sat_kept
    | with_reducible apply sendNotice_kept
    | with_reducible apply announce_kept
    | with_reducible apply shardOut_kept
    | with_reducible apply reducedToken_kept
    | (with_reducible apply Kept.upd; first | with_reducible assumption | with_reducible apply modBx_kept | with_reducible apply exchangeLog_kept | with_reducible apply sat_kept | with_reducible apply sendNotice_kept | with_reducible apply announce_kept | with_reducible apply shardOut_kept | with_reducible apply reducedToken_kept)

theorem ordAdd_kept (b : Nat) (vs : List (Nat × Nat)) (s : State) (h : Kept s0 s) : Kept s0 (ordAdd b vs s) := by
  unfold ordAdd
  repeat' first
    | with_reducible assumption
    | (intro x; beta_reduce)
    | (extract_lets +onlyGivenNames x; refine (fun (hx : Kept s0 x) => ?_) (?_ : Kept s0 x) <;> [clear_value x; subst x])
    | (extract_lets +onlyGivenNames x; refine (fun (hx : Kept s0 x.2) => ?_) (?_ : Kept s0 x.2) <;> [clear_value x; subst x])
    | (extract_lets +onlyGivenNames x; clear_value x)
    | with_reducible apply accCount_kept
    | with_reducible apply writeBytes_kept
    | with_reducible apply Kept.foldl
    | with_reducible apply Kept.foldl_snd
    | with_reducible apply Kept.foldl_fst

theorem ordAbsorb_kept (b : Nat) (ps : List OrdPull) (s : State) (h : Kept s0 s) : Kept s0 (ordAbsorb b ps s).2 := by
  induction ps generalizing s with
  | nil => exact h
  | cons p ps ih =>
    unfold ordAbsorb
    split
    · exact ih _ (ordAdd_kept _ _ _ h)
    · exact h

theorem issuePull_kept (b : Nat) (p : OrdPull) (s : State) (h : Kept s0 s) : Kept s0 (issuePull b p s).2 := by
  unfold issuePull
  repeat' first
    | with_reducible assumption
    | (intro x; beta_reduce)
    | with_reducible apply Kept.ite
    | split
    | with_reducible apply noteServed_kept
    | with_reducible apply sendOp_kept
    | refine Kept.snd (by with_reducible assumption) ?_
    | (with_reducible apply Kept.upd; first | with_reducible assumption | with_reducible apply noteServed_kept | with_reducible apply sendOp_kept | refine Kept.snd (by with_reducible assumption) ?_)

theorem ordPump_kept (b n : Nat) (s : State) (h : Kept s0 s) : Kept s0 (ordPump b n s) := by
  induction n generalizing s with
  | zero => exact h
  | succ n ih =>
    unfold ordPump
    repeat' first
      | with_reducible assumption
      | (extract_lets +onlyGivenNames x; refine (fun (hx : Kept s0 x) => ?_) (?_ : Kept s0 x) <;> [clear_value x; subst x])
      | split
      | with_reducible apply ih
      | with_reducible apply modBx_kept
      | with_reducible apply ordAbsorb_kept
      | with_reducible apply issuePull_kept
      | refine Kept.snd (by with_reducible assumption) ?_

theorem ordGo_kept (b : Nat) (s : State) (h : Kept s0 s) : Kept s0 (ordGo b s) := by
  unfold ordGo
  repeat' first
    | with_reducible assumption
    | (intro x; beta_reduce)
    | (extract_lets +onlyGivenNames x; refine (fun (hx : Kept s0 x) => ?_) (?_ : Kept s0 x) <;> [clear_value x; subst x])
    | (extract_lets +onlyGivenNames x; refine (fun (hx : Kept s0 x.2) => ?_) (?_ : Kept s0 x.2) <;> [clear_value x; subst x])
    | (extract_lets +onlyGivenNames x; clear_value x)
    | with_reducible apply Kept.ite
    | split
    | with_reducible apply ordPump_kept
    | with_reducible apply ordAbsorb_kept
    | with_reducible apply modBx_kept
    | refine Kept.snd (by with_reducible assumption) ?_
    | (with_reducible apply Kept.upd; first | with_reducible assumption | with_reducible apply ordPump_kept | with_reducible apply ordAbsorb_kept | with_reducible apply modBx_kept | refine Kept.snd (by with_reducible assumption) ?_)

theorem ordStart_kept (b : Nat) (s : State) (h : Kept s0 s) : Kept s0 (ordStart b s) := by
  unfold ordStart
  repeat' first
    | with_reducible assumption
    | (intro x; beta_reduce)
    | (extract_lets +onlyGivenNames x; refine (fun (hx : Kept s0 x) => ?_) (?_ : Kept s0 x) <;> [clear_value x; subst x])
    | (extract_lets +onlyGivenNames x; clear_value x)
    | with_reducible apply ordGo_kept
    | with_reducible apply modBx_kept
    | with_reducible apply zeroAcc_kept
    | (with_reducible apply Kept.upd; first | with_reducible assumption | with_reducible apply ordGo_kept | with_reducible apply modBx_kept | with_reducible apply zeroAcc_kept)

theorem closeOn_kept (b : Nat) (s : State) (h : Kept s0 s) : Kept s0 (closeOn b s) := by
  unfold closeOn
  repeat' first
    | with_reducible assumption
    | (intro x; beta_reduce)
    | (extract_lets +onlyGivenNames x; refine (fun (hx : Kept s0 x) => ?_) (?_ : Kept s0 x) <;> [clear_value x; subst x])
    | (extract_lets +onlyGivenNames x; clear_value x)
    | with_reducible apply Kept.ite
    | split
    | with_reducible apply vetoBucket_kept
    | with_reducible apply ordStart_kept
    | with_reducible apply announce_kept
    | with_reducible apply modBx_kept
    | with_reducible apply setb_kept
    | with_reducible apply sat_kept
    | (with_reducible apply Kept.upd; first | with_reducible assumption | with_reducible apply vetoBucket_kept | with_reducible apply ordStart_kept | with_reducible apply announce_kept | with_reducible apply modBx_kept | with_reducible apply setb_kept | with_reducible apply sat_kept)

theorem pullFirst_kept (b rank : Nat) (s : State) (h : Kept s0 s) : Kept s0 (pullFirst b rank s) := by
  unfold pullFirst
  repeat' first
    | with_reducible assumption
    | (intro x; beta_reduce)
    | with_reducible apply sendOp_kept
    | with_reducible apply Kept.foldl
    | with_reducible apply Kept.foldl_snd
    | with_reducible apply Kept.foldl_fst
    | refine Kept.snd (by with_reducible assumption) ?_

theorem dropRank_kept (b rank : Nat) (s : State) (h : Kept s0 s) : Kept s0 (dropRank b rank s) := by
  unfold dropRank
  repeat' first
    | with_reducible assumption
    | (intro x; beta_reduce)
    | (extract_lets +onlyGivenNames x; refine (fun (hx : Kept s0 x) => ?_) (?_ : Kept s0 x) <;> [clear_value x; subst x])
    | (extract_lets +onlyGivenNames x; clear_value x)
    | with_reducible apply setIncluded_kept
    | with_reducible apply exchangeLog_kept
    | with_reducible apply sat_kept

theorem judgeBucket_kept (b : Nat) (s : State) (h : Kept s0 s) : Kept s0 (judgeBucket b s) := by
  unfold judgeBucket
  repeat' first
    | with_reducible assumption
    | (intro x; beta_reduce)
    | (extract_lets +onlyGivenNames x; refine (fun (hx : Kept s0 x) => ?_) (?_ : Kept s0 x) <;> [clear_value x; subst x])
    | (extract_lets +onlyGivenNames x; refine (fun (hx : Kept s0 x.2) => ?_) (?_ : Kept s0 x.2) <;> [clear_value x; subst x])
    | (extract_lets +onlyGivenNames x; clear_value x)
    | with_reducible apply Kept.ite
    | split
    | with_reducible apply closeOn_kept
    | with_reducible apply vetoBucket_kept
    | with_reducible apply dropRank_kept
    | with_reducible apply accumulate_kept
    | with_reducible apply modBx_kept
    | with_reducible apply pullFirst_kept
    | with_reducible apply Kept.foldl
    | with_reducible apply Kept.foldl_snd
    | with_reducible apply Kept.foldl_fst
    | (with_reducible apply Kept.upd; first | with_reducible assumption | with_reducible apply closeOn_kept | with_reducible apply vetoBucket_kept | with_reducible apply dropRank_kept | with_reducible apply accumulate_kept | with_reducible apply modBx_kept | with_reducible apply pullFirst_kept | with_reducible apply Kept.foldl | with_reducible apply Kept.foldl_snd | with_reducible apply Kept.foldl_fst)

theorem noteEnd_kept (x : XOp) (s : State) (h : Kept s0 s) : Kept s0 (noteEnd x s) := by
  unfold noteEnd
  repeat' first
    | with_reducible assumption
    | (intro x; beta_reduce)
    | with_reducible apply Kept.ite
    | split
    | with_reducible apply modBx_kept
    | (with_reducible apply Kept.upd; first | with_reducible assumption | with_reducible apply modBx_kept)

theorem rebuild_kept (b : Nat) (ranks gone : List Nat) (pull : Bool) (s : State)
    (h : Kept s0 s) : Kept s0 (rebuild b ranks gone pull s) := by
  unfold rebuild
  repeat' first
    | with_reducible assumption
    | (intro x; beta_reduce)
    | (extract_lets +onlyGivenNames x; refine (fun (hx : Kept s0 x) => ?_) (?_ : Kept s0 x) <;> [clear_value x; subst x])
    | (extract_lets +onlyGivenNames x; refine (fun (hx : Kept s0 x.2) => ?_) (?_ : Kept s0 x.2) <;> [clear_value x; subst x])
    | (extract_lets +onlyGivenNames x; clear_value x)
    | with_reducible apply Kept.ite
    | split
    | with_reducible apply exchangeLog_kept
    | with_reducible apply sat_kept
    | with_reducible apply setIncluded_kept
    | with_reducible apply modBx_kept
    | with_reducible apply zeroAcc_kept
    | with_reducible apply noteEnd_kept
    | with_reducible apply accumulate_kept
    | with_reducible apply pullFirst_kept
    | with_reducible apply judgeBucket_kept
    | with_reducible apply Kept.foldl
    | with_reducible apply Kept.foldl_snd
    | with_reducible apply Kept.foldl_fst
    | (with_reducible apply Kept.upd; first | with_reducible assumption | with_reducible apply exchangeLog_kept | with_reducible apply sat_kept | with_reducible apply setIncluded_kept | with_reducible apply modBx_kept | with_reducible apply zeroAcc_kept | with_reducible apply noteEnd_kept | with_reducible apply accumulate_kept | with_reducible apply pullFirst_kept | with_reducible apply judgeBucket_kept | with_reducible apply Kept.foldl | with_reducible apply Kept.foldl_snd | with_reducible apply Kept.foldl_fst)

theorem mendPulls_kept (b : Nat) (s : State) (h : Kept s0 s) : Kept s0 (mendPulls b s) := by
  unfold mendPulls
  repeat' first
    | with_reducible assumption
    | (intro x; beta_reduce)
    | (extract_lets +onlyGivenNames x; refine (fun (hx : Kept s0 x) => ?_) (?_ : Kept s0 x) <;> [clear_value x; subst x])
    | (extract_lets +onlyGivenNames x; clear_value x)
    | with_reducible apply Kept.ite
    | split
    | with_reducible apply rebuild_kept

theorem closeBucket_kept (b : Nat) (s : State) (h : Kept s0 s) : Kept s0 (closeBucket b s) := by
  unfold closeBucket
  repeat' first
    | with_reducible assumption
    | (intro x; beta_reduce)
    | (extract_lets +onlyGivenNames x; refine (fun (hx : Kept s0 x) => ?_) (?_ : Kept s0 x) <;> [clear_value x; subst x])
    | (extract_lets +onlyGivenNames x; clear_value x)
    | with_reducible apply Kept.ite
    | split
    | with_reducible apply setIncluded_kept
    | with_reducible apply modBx_kept
    | with_reducible apply sat_kept
    | with_reducible apply exchangeLog_kept
    | with_reducible apply setb_kept
    | with_reducible apply mendPulls_kept
    | with_reducible apply judgeBucket_kept
    | (with_reducible apply Kept.upd; first | with_reducible assumption | with_reducible apply setIncluded_kept | with_reducible apply modBx_kept | with_reducible apply sat_kept | with_reducible apply exchangeLog_kept | with_reducible apply setb_kept | with_reducible apply mendPulls_kept | with_reducible apply judgeBucket_kept)

theorem tryClose_kept (b : Nat) (s : State) (h : Kept s0 s) : Kept s0 (tryClose b s) := by
  unfold tryClose
  repeat' first
    | with_reducible assumption
    | (intro x; beta_reduce)
    | (extract_lets +onlyGivenNames x; refine (fun (hx : Kept s0 x) => ?_) (?_ : Kept s0 x) <;> [clear_value x; subst x])
    | (extract_lets +onlyGivenNames x; clear_value x)
    | with_reducible apply Kept.ite
    | split
    | with_reducible apply closeBucket_kept

theorem bucketDeadline_kept (b : Nat) (s : State) (h : Kept s0 s) : Kept s0 (bucketDeadline b s) := by
  unfold bucketDeadline
  repeat' first
    | with_reducible assumption
    | (intro x; beta_reduce)
    | (extract_lets +onlyGivenNames x; refine (fun (hx : Kept s0 x) => ?_) (?_ : Kept s0 x) <;> [clear_value x; subst x])
    | (extract_lets +onlyGivenNames x; refine (fun (hx : Kept s0 x.2) => ?_) (?_ : Kept s0 x.2) <;> [clear_value x; subst x])
    | (extract_lets +onlyGivenNames x; clear_value x)
    | with_reducible apply Kept.ite
    | split
    | with_reducible apply tryClose_kept
    | with_reducible apply advanceTo_kept

theorem sendReply_kept (rank code : Nat) (x : XOp) (s : State)
    (h : Kept s0 s) : Kept s0 (sendReply rank code x s) := by
  unfold sendReply
  repeat' first
    | with_reducible assumption
    | (intro x; beta_reduce)
    | with_reducible apply Kept.ite
    | split
    | with_reducible apply onReply_kept
    | with_reducible apply sendOp_kept
    | refine Kept.snd (by with_reducible assumption) ?_

theorem lateOp_kept (x : XOp) (s : State) (h : Kept s0 s) : Kept s0 (lateOp x s) := by
  unfold lateOp
  repeat' first
    | with_reducible assumption
    | (intro x; beta_reduce)
    | with_reducible apply sendReply_kept
    | with_reducible apply sat_kept

theorem takeResend_kept (x : XOp) (s : State) (h : Kept s0 s) : Kept s0 (takeResend x s) := by
  unfold takeResend
  repeat' first
    | with_reducible assumption
    | (intro x; beta_reduce)
    | (extract_lets +onlyGivenNames x; refine (fun (hx : Kept s0 x) => ?_) (?_ : Kept s0 x) <;> [clear_value x; subst x])
    | (extract_lets +onlyGivenNames x; clear_value x)
    | with_reducible apply Kept.ite
    | split
    | with_reducible apply modBx_kept
    | with_reducible apply noteTaken_kept
    | with_reducible apply noteEnd_kept
    | with_reducible apply dropRank_kept
    | with_reducible apply mendPulls_kept
    | with_reducible apply closeOn_kept
    | with_reducible apply judgeBucket_kept
    | with_reducible apply addOnce_kept
    | (with_reducible apply Kept.upd; first | with_reducible assumption | with_reducible apply modBx_kept | with_reducible apply noteTaken_kept | with_reducible apply noteEnd_kept | with_reducible apply dropRank_kept | with_reducible apply mendPulls_kept | with_reducible apply closeOn_kept | with_reducible apply judgeBucket_kept | with_reducible apply addOnce_kept)

theorem beginBucket_kept (b stamp rank : Nat) (s : State) (h : Kept s0 s) : Kept s0 (beginBucket b stamp rank s) := by
  unfold beginBucket
  repeat' first
    | with_reducible assumption
    | (intro x; beta_reduce)
    | (extract_lets +onlyGivenNames x; refine (fun (hx : Kept s0 x) => ?_) (?_ : Kept s0 x) <;> [clear_value x; subst x])
    | (extract_lets +onlyGivenNames x; clear_value x)
    | with_reducible apply Kept.ite
    | split
    | with_reducible apply setBx_kept
    | (with_reducible apply Kept.upd; first | with_reducible assumption | with_reducible apply setBx_kept)

theorem ownerTake_kept (x : XOp) (stamp : Nat) (s : State) (h : Kept s0 s) : Kept s0 (ownerTake x stamp s) := by
  unfold ownerTake
  repeat' first
    | with_reducible assumption
    | (intro x; beta_reduce)
    | (extract_lets +onlyGivenNames x; refine (fun (hx : Kept s0 x) => ?_) (?_ : Kept s0 x) <;> [clear_value x; subst x])
    | (extract_lets +onlyGivenNames x; clear_value x)
    | with_reducible apply Kept.ite
    | split
    | with_reducible apply sendReply_kept
    | with_reducible apply takeResend_kept
    | with_reducible apply lateOp_kept
    | with_reducible apply beginBucket_kept
    | with_reducible apply noteTaken_kept
    | with_reducible apply noteEnd_kept
    | with_reducible apply modBx_kept
    | with_reducible apply tryClose_kept
    | with_reducible apply addOnce_kept
    | (with_reducible apply Kept.upd; first | with_reducible assumption | with_reducible apply sendReply_kept | with_reducible apply takeResend_kept | with_reducible apply lateOp_kept | with_reducible apply beginBucket_kept | with_reducible apply noteTaken_kept | with_reducible apply noteEnd_kept | with_reducible apply modBx_kept | with_reducible apply tryClose_kept | with_reducible apply addOnce_kept)

theorem ordArrive_kept (id : Nat) (x : XOp) (s : State) (h : Kept s0 s) : Kept s0 (ordArrive id x s) := by
  unfold ordArrive
  repeat' first
    | with_reducible assumption
    | (intro x; beta_reduce)
    | (extract_lets +onlyGivenNames x; refine (fun (hx : Kept s0 x) => ?_) (?_ : Kept s0 x) <;> [clear_value x; subst x])
    | (extract_lets +onlyGivenNames x; clear_value x)
    | with_reducible apply Kept.ite
    | split
    | with_reducible apply sendReply_kept
    | with_reducible apply lateOp_kept
    | with_reducible apply ordGo_kept
    | with_reducible apply modBx_kept
    | (with_reducible apply Kept.upd; first | with_reducible assumption | with_reducible apply sendReply_kept | with_reducible apply lateOp_kept | with_reducible apply ordGo_kept | with_reducible apply modBx_kept)

theorem ownPulls_kept (b : Nat) (s : State) (h : Kept s0 s) : Kept s0 (ownPulls b s) := by
  unfold ownPulls
  repeat' first
    | with_reducible assumption
    | (intro x; beta_reduce)
    | (extract_lets +onlyGivenNames x; refine (fun (hx : Kept s0 x) => ?_) (?_ : Kept s0 x) <;> [clear_value x; subst x])
    | (extract_lets +onlyGivenNames x; refine (fun (hx : Kept s0 x.2) => ?_) (?_ : Kept s0 x.2) <;> [clear_value x; subst x])
    | (extract_lets +onlyGivenNames x; clear_value x)
    | with_reducible apply Kept.ite
    | split
    | with_reducible apply modBx_kept
    | with_reducible apply ordGo_kept
    | with_reducible apply noteServed_kept
    | with_reducible apply Kept.foldl
    | with_reducible apply Kept.foldl_snd
    | with_reducible apply Kept.foldl_fst
    | (with_reducible apply Kept.upd; first | with_reducible assumption | with_reducible apply modBx_kept | with_reducible apply ordGo_kept | with_reducible apply noteServed_kept | with_reducible apply Kept.foldl | with_reducible apply Kept.foldl_snd | with_reducible apply Kept.foldl_fst)

theorem bucketTid_kept (b : Nat) (s : State) (h : Kept s0 s) : Kept s0 (bucketTid b s).2 := by
  unfold bucketTid
  repeat' first
    | with_reducible assumption
    | (intro x; beta_reduce)
    | with_reducible apply Kept.ite
    | split
    | with_reducible apply free_kept
    | refine Kept.snd (by with_reducible assumption) ?_

theorem repeatEntry_kept (b : Nat) (s : State) (h : Kept s0 s) : Kept s0 (repeatEntry b s) := by
  unfold repeatEntry
  repeat' first
    | with_reducible assumption
    | (intro x; beta_reduce)
    | (extract_lets +onlyGivenNames x; refine (fun (hx : Kept s0 x) => ?_) (?_ : Kept s0 x) <;> [clear_value x; subst x])
    | (extract_lets +onlyGivenNames x; refine (fun (hx : Kept s0 x.2) => ?_) (?_ : Kept s0 x.2) <;> [clear_value x; subst x])
    | (extract_lets +onlyGivenNames x; clear_value x)
    | with_reducible apply Kept.ite
    | split
    | with_reducible apply bucketTid_kept
    | with_reducible apply logEntry_kept
    | refine Kept.snd (by with_reducible assumption) ?_

theorem bucketReduced_kept (b addr : Nat) (s : State) (h : Kept s0 s) : Kept s0 (bucketReduced b addr s) := by
  unfold bucketReduced
  repeat' first
    | with_reducible assumption
    | (intro x; beta_reduce)
    | (extract_lets +onlyGivenNames x; refine (fun (hx : Kept s0 x) => ?_) (?_ : Kept s0 x) <;> [clear_value x; subst x])
    | (extract_lets +onlyGivenNames x; refine (fun (hx : Kept s0 x.2) => ?_) (?_ : Kept s0 x.2) <;> [clear_value x; subst x])
    | (extract_lets +onlyGivenNames x; clear_value x)
    | with_reducible apply Kept.ite
    | split
    | with_reducible apply uncorrectable_kept
    | with_reducible apply writeBytes_kept
    | with_reducible apply repeatEntry_kept
    | with_reducible apply modBx_kept
    | with_reducible apply shardOut_kept
    | with_reducible apply reducedToken_kept
    | with_reducible apply sendNotice_kept
    | with_reducible apply vetoBucket_kept
    | (with_reducible apply Kept.upd; first | with_reducible assumption | with_reducible apply uncorrectable_kept | with_reducible apply writeBytes_kept | with_reducible apply repeatEntry_kept | with_reducible apply modBx_kept | with_reducible apply shardOut_kept | with_reducible apply reducedToken_kept | with_reducible apply sendNotice_kept | with_reducible apply vetoBucket_kept)

theorem servePulls_kept (s : State) (h : Kept s0 s) : Kept s0 (servePulls s) := by
  unfold servePulls
  repeat' first
    | with_reducible assumption
    | (intro x; beta_reduce)
    | (extract_lets +onlyGivenNames x; refine (fun (hx : Kept s0 x) => ?_) (?_ : Kept s0 x) <;> [clear_value x; subst x])
    | (extract_lets +onlyGivenNames x; refine (fun (hx : Kept s0 x.2) => ?_) (?_ : Kept s0 x.2) <;> [clear_value x; subst x])
    | (extract_lets +onlyGivenNames x; clear_value x)
    | with_reducible apply Kept.ite
    | split
    | with_reducible apply sendOp_kept
    | with_reducible apply noteServed_kept
    | with_reducible apply modJob_kept
    | with_reducible apply Kept.foldl
    | with_reducible apply Kept.foldl_snd
    | with_reducible apply Kept.foldl_fst
    | refine Kept.snd (by with_reducible assumption) ?_
    | (with_reducible apply Kept.upd; first | with_reducible assumption | with_reducible apply sendOp_kept | with_reducible apply noteServed_kept | with_reducible apply modJob_kept | with_reducible apply Kept.foldl | with_reducible apply Kept.foldl_snd | with_reducible apply Kept.foldl_fst | refine Kept.snd (by with_reducible assumption) ?_)

theorem onPull_kept (x : XOp) (s : State) (h : Kept s0 s) : Kept s0 (onPull x s) := by
  unfold onPull
  repeat' first
    | with_reducible assumption
    | (intro x; beta_reduce)
    | (extract_lets +onlyGivenNames x; refine (fun (hx : Kept s0 x) => ?_) (?_ : Kept s0 x) <;> [clear_value x; subst x])
    | (extract_lets +onlyGivenNames x; refine (fun (hx : Kept s0 x.2) => ?_) (?_ : Kept s0 x.2) <;> [clear_value x; subst x])
    | (extract_lets +onlyGivenNames x; clear_value x)
    | with_reducible apply Kept.ite
    | split
    | with_reducible apply servePulls_kept
    | with_reducible apply modJob_kept
    | with_reducible apply sendOp_kept
    | with_reducible apply Kept.foldl
    | with_reducible apply Kept.foldl_snd
    | with_reducible apply Kept.foldl_fst
    | refine Kept.snd (by with_reducible assumption) ?_
    | (with_reducible apply Kept.upd; first | with_reducible assumption | with_reducible apply servePulls_kept | with_reducible apply modJob_kept | with_reducible apply sendOp_kept | with_reducible apply Kept.foldl | with_reducible apply Kept.foldl_snd | with_reducible apply Kept.foldl_fst | refine Kept.snd (by with_reducible assumption) ?_)

theorem refreshCellar_kept (s : State) (h : Kept s0 s) : Kept s0 (refreshCellar s) := by
  unfold refreshCellar
  repeat' first
    | with_reducible assumption
    | (intro x; beta_reduce)
    | with_reducible apply wr_kept

theorem startWalk_kept (b rank : Nat) (master : Bool) (s : State)
    (h : Kept s0 s) : Kept s0 (startWalk b rank master s) := by
  unfold startWalk
  repeat' first
    | with_reducible assumption
    | (intro x; beta_reduce)
    | (extract_lets +onlyGivenNames x; refine (fun (hx : Kept s0 x) => ?_) (?_ : Kept s0 x) <;> [clear_value x; subst x])
    | (extract_lets +onlyGivenNames x; clear_value x)
    | with_reducible apply refreshCellar_kept
    | with_reducible apply modJob_kept
    | (with_reducible apply Kept.upd; first | with_reducible assumption | with_reducible apply refreshCellar_kept | with_reducible apply modJob_kept)

theorem recellar_kept (b : Nat) (s : State) (h : Kept s0 s) : Kept s0 (recellar b s) := by
  unfold recellar
  repeat' first
    | with_reducible assumption
    | (intro x; beta_reduce)
    | (extract_lets +onlyGivenNames x; refine (fun (hx : Kept s0 x) => ?_) (?_ : Kept s0 x) <;> [clear_value x; subst x])
    | (extract_lets +onlyGivenNames x; refine (fun (hx : Kept s0 x.2) => ?_) (?_ : Kept s0 x.2) <;> [clear_value x; subst x])
    | (extract_lets +onlyGivenNames x; clear_value x)
    | with_reducible apply Kept.ite
    | split
    | with_reducible apply modBx_kept
    | with_reducible apply startWalk_kept
    | with_reducible apply refreshCellar_kept
    | (with_reducible apply Kept.upd; first | with_reducible assumption | with_reducible apply modBx_kept | with_reducible apply startWalk_kept | with_reducible apply refreshCellar_kept)

theorem zeroPages_kept (win p n : Nat) (s : State) (h : Kept s0 s) : Kept s0 (zeroPages win p n s) := by
  unfold zeroPages
  repeat' first
    | with_reducible assumption
    | (intro x; beta_reduce)
    | with_reducible apply storeMem_kept

theorem freshCellar_kept (b : Nat) (s : State) (h : Kept s0 s) : Kept s0 (freshCellar b s) := by
  unfold freshCellar
  repeat' first
    | with_reducible assumption
    | (intro x; beta_reduce)
    | (extract_lets +onlyGivenNames x; refine (fun (hx : Kept s0 x) => ?_) (?_ : Kept s0 x) <;> [clear_value x; subst x])
    | (extract_lets +onlyGivenNames x; clear_value x)
    | with_reducible apply modBx_kept
    | with_reducible apply zeroPages_kept
    | (with_reducible apply Kept.upd; first | with_reducible assumption | with_reducible apply modBx_kept | with_reducible apply zeroPages_kept)

theorem cellarScan_kept (s : State) (h : Kept s0 s) : Kept s0 (cellarScan s) := by
  unfold cellarScan
  repeat' first
    | with_reducible assumption
    | (intro x; beta_reduce)
    | (extract_lets +onlyGivenNames x; refine (fun (hx : Kept s0 x) => ?_) (?_ : Kept s0 x) <;> [clear_value x; subst x])
    | (extract_lets +onlyGivenNames x; refine (fun (hx : Kept s0 x.2) => ?_) (?_ : Kept s0 x.2) <;> [clear_value x; subst x])
    | (extract_lets +onlyGivenNames x; clear_value x)
    | with_reducible apply Kept.ite
    | split
    | with_reducible apply freshCellar_kept
    | with_reducible apply Kept.foldl
    | with_reducible apply Kept.foldl_snd
    | with_reducible apply Kept.foldl_fst
    | (with_reducible apply Kept.upd; first | with_reducible assumption | with_reducible apply freshCellar_kept | with_reducible apply Kept.foldl | with_reducible apply Kept.foldl_snd | with_reducible apply Kept.foldl_fst)

theorem cellarStruck_kept (s : State) (h : Kept s0 s) : Kept s0 (cellarStruck s) := by
  unfold cellarStruck
  repeat' first
    | with_reducible assumption
    | (intro x; beta_reduce)
    | with_reducible apply Kept.ite
    | split
    | with_reducible apply cellarScan_kept

theorem allocPages_kept (b : Nat) (s : State) (h : Kept s0 s) : Kept s0 (allocPages b s) := by
  unfold allocPages
  repeat' first
    | with_reducible assumption
    | (intro x; beta_reduce)
    | (extract_lets +onlyGivenNames x; refine (fun (hx : Kept s0 x) => ?_) (?_ : Kept s0 x) <;> [clear_value x; subst x])
    | (extract_lets +onlyGivenNames x; refine (fun (hx : Kept s0 x.2) => ?_) (?_ : Kept s0 x.2) <;> [clear_value x; subst x])
    | (extract_lets +onlyGivenNames x; clear_value x)
    | with_reducible apply Kept.ite
    | split
    | with_reducible apply free_kept
    | with_reducible apply storeMem_kept
    | with_reducible apply modJob_kept
    | refine Kept.snd (by with_reducible assumption) ?_
    | (with_reducible apply Kept.upd; first | with_reducible assumption | with_reducible apply free_kept | with_reducible apply storeMem_kept | with_reducible apply modJob_kept | refine Kept.snd (by with_reducible assumption) ?_)

theorem newPartner_kept (b : Nat) (s : State) (h : Kept s0 s) : Kept s0 (newPartner b s) := by
  unfold newPartner
  repeat' first
    | with_reducible assumption
    | (intro x; beta_reduce)
    | with_reducible apply freshCellar_kept
    | with_reducible apply allocPages_kept
    | with_reducible apply modBx_kept
    | (with_reducible apply Kept.upd; first | with_reducible assumption | with_reducible apply freshCellar_kept | with_reducible apply allocPages_kept | with_reducible apply modBx_kept)

theorem cellarsLoaded_kept (old s : State) (h : Kept s0 s) : Kept s0 (cellarsLoaded old s) := by
  unfold cellarsLoaded
  repeat' first
    | with_reducible assumption
    | (intro x; beta_reduce)
    | with_reducible apply Kept.ite
    | split
    | with_reducible apply newPartner_kept
    | with_reducible apply recellar_kept
    | with_reducible apply Kept.foldl
    | with_reducible apply Kept.foldl_snd
    | with_reducible apply Kept.foldl_fst

end Sys2Proof.Machine
end

