-- ==== Sys2Proof/Laws/KeptCommit.lean ====
section
/-! SUPPORT. What the operations of Machine/Commit.lean keep of the queue, the variant and soundness: one lemma for each, cited instead of its unfolding. -/

set_option linter.unusedTactic false
set_option linter.unreachableTactic false
set_option linter.unusedVariables false

namespace Sys2Proof.Machine

open Sys2Proof

variable {s0 : State}

theorem makeCurrent_kept (s : State) (kv : FKey × Nat) (h : Kept s0 s) : Kept s0 (makeCurrent s kv) := by
  unfold makeCurrent
  repeat' first
    | with_reducible assumption
    | (intro x; beta_reduce)
    | (extract_lets +onlyGivenNames x; refine (fun (hx : Kept s0 x) => ?_) (?_ : Kept s0 x) <;> [clear_value x; subst x])
    | (extract_lets +onlyGivenNames x; refine (fun (hx : Kept s0 x.2) => ?_) (?_ : Kept s0 x.2) <;> [clear_value x; subst x])
    | (extract_lets +onlyGivenNames x; clear_value x)
    | with_reducible apply Kept.ite
    | split
    | with_reducible apply wrU_kept

theorem afterFields_kept (fs : List (FKey × Nat)) (s : State) (h : Kept s0 s) : Kept s0 (afterFields fs s) := by
  unfold afterFields
  repeat' first
    | with_reducible assumption
    | (intro x; beta_reduce)
    | with_reducible apply takeChains_kept
    | with_reducible apply makeCurrent_kept
    | with_reducible apply Kept.foldl
    | with_reducible apply Kept.foldl_snd
    | with_reducible apply Kept.foldl_fst

theorem advanceFold_kept (old : State) (i : Nat) (s : State) (h : Kept s0 s) : Kept s0 (advanceFold old i s) := by
  unfold advanceFold
  repeat' first
    | with_reducible assumption
    | (intro x; beta_reduce)
    | (extract_lets +onlyGivenNames x; refine (fun (hx : Kept s0 x) => ?_) (?_ : Kept s0 x) <;> [clear_value x; subst x])
    | (extract_lets +onlyGivenNames x; refine (fun (hx : Kept s0 x.2) => ?_) (?_ : Kept s0 x.2) <;> [clear_value x; subst x])
    | (extract_lets +onlyGivenNames x; clear_value x)
    | with_reducible apply Kept.ite
    | split
    | with_reducible apply wrA_kept
    | with_reducible apply setArrX_kept
    | with_reducible apply Kept.foldl
    | with_reducible apply Kept.foldl_snd
    | with_reducible apply Kept.foldl_fst
    | (with_reducible apply Kept.upd; first | with_reducible assumption | with_reducible apply wrA_kept | with_reducible apply setArrX_kept | with_reducible apply Kept.foldl | with_reducible apply Kept.foldl_snd | with_reducible apply Kept.foldl_fst)

theorem writeMirror_kept (dp : Nat × Nat) (s : State) (h : Kept s0 s) : Kept s0 (writeMirror dp s) := by
  unfold writeMirror
  repeat' first
    | with_reducible assumption
    | (intro x; beta_reduce)
    | (extract_lets +onlyGivenNames x; refine (fun (hx : Kept s0 x) => ?_) (?_ : Kept s0 x) <;> [clear_value x; subst x])
    | (extract_lets +onlyGivenNames x; refine (fun (hx : Kept s0 x.2) => ?_) (?_ : Kept s0 x.2) <;> [clear_value x; subst x])
    | (extract_lets +onlyGivenNames x; clear_value x)
    | with_reducible apply Kept.ite
    | split
    | with_reducible apply store_kept
    | with_reducible apply Kept.foldl
    | with_reducible apply Kept.foldl_snd
    | with_reducible apply Kept.foldl_fst

theorem installGains_kept (dp : Nat × Nat) (s : State) (h : Kept s0 s) : Kept s0 (installGains dp s) := by
  unfold installGains
  repeat' first
    | with_reducible assumption
    | (intro x; beta_reduce)
    | (extract_lets +onlyGivenNames x; refine (fun (hx : Kept s0 x) => ?_) (?_ : Kept s0 x) <;> [clear_value x; subst x])
    | (extract_lets +onlyGivenNames x; refine (fun (hx : Kept s0 x.2) => ?_) (?_ : Kept s0 x.2) <;> [clear_value x; subst x])
    | (extract_lets +onlyGivenNames x; clear_value x)
    | with_reducible apply Kept.ite
    | split
    | with_reducible apply wrA_kept
    | with_reducible apply modSweep_kept
    | with_reducible apply Kept.foldl
    | with_reducible apply Kept.foldl_snd
    | with_reducible apply Kept.foldl_fst
    | (with_reducible apply Kept.upd; first | with_reducible assumption | with_reducible apply wrA_kept | with_reducible apply modSweep_kept | with_reducible apply Kept.foldl | with_reducible apply Kept.foldl_snd | with_reducible apply Kept.foldl_fst)

theorem writeImage_kept (die p j : Nat) (s : State) (h : Kept s0 s) : Kept s0 (writeImage die p j s) := by
  unfold writeImage
  repeat' first
    | with_reducible assumption
    | (intro x; beta_reduce)
    | (extract_lets +onlyGivenNames x; refine (fun (hx : Kept s0 x) => ?_) (?_ : Kept s0 x) <;> [clear_value x; subst x])
    | (extract_lets +onlyGivenNames x; refine (fun (hx : Kept s0 x.2) => ?_) (?_ : Kept s0 x.2) <;> [clear_value x; subst x])
    | (extract_lets +onlyGivenNames x; clear_value x)
    | with_reducible apply Kept.ite
    | split
    | with_reducible apply storeMem_kept

theorem readmitColumn_kept (die p j : Nat) (s : State) (h : Kept s0 s) : Kept s0 (readmitColumn die p j s) := by
  unfold readmitColumn
  repeat' first
    | with_reducible assumption
    | (intro x; beta_reduce)
    | (extract_lets +onlyGivenNames x; refine (fun (hx : Kept s0 x) => ?_) (?_ : Kept s0 x) <;> [clear_value x; subst x])
    | (extract_lets +onlyGivenNames x; clear_value x)
    | with_reducible apply wrA_kept
    | with_reducible apply freePantry_kept
    | with_reducible apply writeImage_kept
    | with_reducible apply setArrX_kept
    | (with_reducible apply Kept.upd; first | with_reducible assumption | with_reducible apply wrA_kept | with_reducible apply freePantry_kept | with_reducible apply writeImage_kept | with_reducible apply setArrX_kept)

theorem retireArrays_kept (die : Nat) (old : State) (s : State)
    (h : Kept s0 s) : Kept s0 (retireArrays die old s) := by
  unfold retireArrays
  repeat' first
    | with_reducible assumption
    | (intro x; beta_reduce)
    | (extract_lets +onlyGivenNames x; refine (fun (hx : Kept s0 x) => ?_) (?_ : Kept s0 x) <;> [clear_value x; subst x])
    | (extract_lets +onlyGivenNames x; refine (fun (hx : Kept s0 x.2) => ?_) (?_ : Kept s0 x.2) <;> [clear_value x; subst x])
    | (extract_lets +onlyGivenNames x; clear_value x)
    | with_reducible apply Kept.ite
    | split
    | with_reducible apply setArrX_kept
    | with_reducible apply Kept.foldl
    | with_reducible apply Kept.foldl_snd
    | with_reducible apply Kept.foldl_fst
    | (with_reducible apply Kept.upd; first | with_reducible assumption | with_reducible apply setArrX_kept | with_reducible apply Kept.foldl | with_reducible apply Kept.foldl_snd | with_reducible apply Kept.foldl_fst)

theorem changeFrame_kept (inst ap : Nat) (old s : State) (h : Kept s0 s) : Kept s0 (changeFrame inst ap old s) := by
  unfold changeFrame
  repeat' first
    | with_reducible assumption
    | (intro x; beta_reduce)
    | (extract_lets +onlyGivenNames x; refine (fun (hx : Kept s0 x) => ?_) (?_ : Kept s0 x) <;> [clear_value x; subst x])
    | (extract_lets +onlyGivenNames x; clear_value x)
    | with_reducible apply Kept.ite
    | split
    | (with_reducible apply Kept.upd; first | with_reducible assumption)

theorem detectorReset_kept (s : State) (h : Kept s0 s) : Kept s0 (detectorReset s) := by
  unfold detectorReset
  repeat' first
    | with_reducible assumption
    | (intro x; beta_reduce)
    | with_reducible apply wr_kept
    | with_reducible apply clearSatBit_kept

theorem clearRegs_kept (q : SeqId) (s : State) (h : Kept s0 s) : Kept s0 (clearRegs q s) := by
  unfold clearRegs
  repeat' first
    | with_reducible assumption
    | (intro x; beta_reduce)
    | (extract_lets +onlyGivenNames x; refine (fun (hx : Kept s0 x) => ?_) (?_ : Kept s0 x) <;> [clear_value x; subst x])
    | (extract_lets +onlyGivenNames x; refine (fun (hx : Kept s0 x.2) => ?_) (?_ : Kept s0 x.2) <;> [clear_value x; subst x])
    | (extract_lets +onlyGivenNames x; clear_value x)
    | with_reducible apply setReg_kept
    | with_reducible apply wr_kept
    | with_reducible apply setb_kept
    | with_reducible apply Kept.foldl
    | with_reducible apply Kept.foldl_snd
    | with_reducible apply Kept.foldl_fst

theorem startSeq_kept (q : SeqId) (c : Nat) (s : State) (h : Kept s0 s) : Kept s0 (startSeq q c s) := by
  unfold startSeq
  repeat' first
    | with_reducible assumption
    | (intro x; beta_reduce)
    | (extract_lets +onlyGivenNames x; refine (fun (hx : Kept s0 x) => ?_) (?_ : Kept s0 x) <;> [clear_value x; subst x])
    | (extract_lets +onlyGivenNames x; refine (fun (hx : Kept s0 x.2) => ?_) (?_ : Kept s0 x.2) <;> [clear_value x; subst x])
    | (extract_lets +onlyGivenNames x; clear_value x)
    | with_reducible apply Kept.ite
    | split
    | with_reducible apply guardFault_kept
    | with_reducible apply setSeqX_kept
    | with_reducible apply clearRegs_kept
    | with_reducible apply wr_kept
    | with_reducible apply settleHead_kept
    | with_reducible apply setb_kept
    | with_reducible apply setSeqState_kept
    | with_reducible apply Kept.foldl
    | with_reducible apply Kept.foldl_snd
    | with_reducible apply Kept.foldl_fst
    | (with_reducible apply Kept.upd; first | with_reducible assumption | with_reducible apply guardFault_kept | with_reducible apply setSeqX_kept | with_reducible apply clearRegs_kept | with_reducible apply wr_kept | with_reducible apply settleHead_kept | with_reducible apply setb_kept | with_reducible apply setSeqState_kept | with_reducible apply Kept.foldl | with_reducible apply Kept.foldl_snd | with_reducible apply Kept.foldl_fst)

theorem programStart_kept (qs : List SeqId) (s : State) (h : Kept s0 s) : Kept s0 (programStart qs s) := by
  unfold programStart
  repeat' first
    | with_reducible assumption
    | (intro; show List.length [] ≤ 64; decide)
    | (intro x; beta_reduce)
    | (extract_lets +onlyGivenNames x; refine (fun (hx : Kept s0 x) => ?_) (?_ : Kept s0 x) <;> [clear_value x; subst x])
    | (extract_lets +onlyGivenNames x; refine (fun (hx : Kept s0 x.2) => ?_) (?_ : Kept s0 x.2) <;> [clear_value x; subst x])
    | (extract_lets +onlyGivenNames x; clear_value x)
    | with_reducible apply setQueue_kept
    | (intro; simp; done)
    | with_reducible apply detectorReset_kept
    | with_reducible apply Kept.foldl
    | with_reducible apply Kept.foldl_snd
    | with_reducible apply Kept.foldl_fst
    | (with_reducible apply Kept.upd; first | with_reducible assumption | with_reducible apply setQueue_kept | with_reducible apply detectorReset_kept | with_reducible apply Kept.foldl | with_reducible apply Kept.foldl_snd | with_reducible apply Kept.foldl_fst)

theorem switchSeqs_kept (qs : List SeqId) (c : Nat) (s : State) (h : Kept s0 s) : Kept s0 (switchSeqs qs c s) := by
  unfold switchSeqs
  repeat' first
    | with_reducible assumption
    | (intro x; beta_reduce)
    | (extract_lets +onlyGivenNames x; refine (fun (hx : Kept s0 x) => ?_) (?_ : Kept s0 x) <;> [clear_value x; subst x])
    | (extract_lets +onlyGivenNames x; refine (fun (hx : Kept s0 x.2) => ?_) (?_ : Kept s0 x.2) <;> [clear_value x; subst x])
    | (extract_lets +onlyGivenNames x; clear_value x)
    | with_reducible apply Kept.ite
    | split
    | with_reducible apply programStart_kept
    | with_reducible apply setSeqX_kept
    | with_reducible apply startSeq_kept
    | with_reducible apply Kept.foldl
    | with_reducible apply Kept.foldl_snd
    | with_reducible apply Kept.foldl_fst
    | (with_reducible apply Kept.upd; first | with_reducible assumption | with_reducible apply programStart_kept | with_reducible apply setSeqX_kept | with_reducible apply startSeq_kept | with_reducible apply Kept.foldl | with_reducible apply Kept.foldl_snd | with_reducible apply Kept.foldl_fst)

theorem unstage_kept (fs : List (FKey × Nat)) (s : State) (h : Kept s0 s) : Kept s0 (unstage fs s) := by
  unfold unstage
  repeat' first
    | with_reducible assumption
    | (intro x; beta_reduce)
    | (with_reducible apply Kept.upd; first | with_reducible assumption)

theorem applyFields_kept (fs : List (FKey × Nat)) (s : State) (h : Kept s0 s) : Kept s0 (applyFields fs s) := by
  unfold applyFields
  repeat' first
    | with_reducible assumption
    | (intro x; beta_reduce)
    | (extract_lets +onlyGivenNames x; refine (fun (hx : Kept s0 x) => ?_) (?_ : Kept s0 x) <;> [clear_value x; subst x])
    | (extract_lets +onlyGivenNames x; refine (fun (hx : Kept s0 x.2) => ?_) (?_ : Kept s0 x.2) <;> [clear_value x; subst x])
    | (extract_lets +onlyGivenNames x; clear_value x)
    | with_reducible apply Kept.ite
    | split
    | with_reducible apply settleWrites_kept
    | with_reducible apply makeCurrent_kept
    | with_reducible apply advanceFold_kept
    | with_reducible apply installGains_kept
    | with_reducible apply retireArrays_kept
    | with_reducible apply failCheck_kept
    | with_reducible apply failDie_kept
    | with_reducible apply readmitColumn_kept
    | with_reducible apply writeMirror_kept
    | with_reducible apply changeFrame_kept
    | with_reducible apply takeChains_kept
    | with_reducible apply publishEndpoint_kept
    | with_reducible apply partReport_kept
    | with_reducible apply loadBuckets_kept
    | with_reducible apply loadUpdates_kept
    | with_reducible apply cellarsLoaded_kept
    | with_reducible apply sendWaiting_kept
    | with_reducible apply loadRoutes_kept
    | with_reducible apply switchSeqs_kept
    | with_reducible apply unstage_kept
    | with_reducible apply Kept.foldl
    | with_reducible apply Kept.foldl_snd
    | with_reducible apply Kept.foldl_fst
    | (with_reducible apply Kept.upd; first | with_reducible assumption | with_reducible apply settleWrites_kept | with_reducible apply makeCurrent_kept | with_reducible apply advanceFold_kept | with_reducible apply installGains_kept | with_reducible apply retireArrays_kept | with_reducible apply failCheck_kept | with_reducible apply failDie_kept | with_reducible apply readmitColumn_kept | with_reducible apply writeMirror_kept | with_reducible apply changeFrame_kept | with_reducible apply takeChains_kept | with_reducible apply publishEndpoint_kept | with_reducible apply partReport_kept | with_reducible apply loadBuckets_kept | with_reducible apply loadUpdates_kept | with_reducible apply cellarsLoaded_kept | with_reducible apply sendWaiting_kept | with_reducible apply loadRoutes_kept | with_reducible apply switchSeqs_kept | with_reducible apply unstage_kept | with_reducible apply Kept.foldl | with_reducible apply Kept.foldl_snd | with_reducible apply Kept.foldl_fst)

theorem setCommit_kept (st res : Nat) (s : State) (h : Kept s0 s) : Kept s0 (setCommit st res s) := by
  unfold setCommit
  repeat' first
    | with_reducible assumption
    | (intro x; beta_reduce)
    | with_reducible apply wr_kept

theorem claim_kept (a : Agent) (s : State) (h : Kept s0 s) : Kept s0 (claim a s) := by
  unfold claim
  repeat' first
    | with_reducible assumption
    | (intro x; beta_reduce)
    | (extract_lets +onlyGivenNames x; refine (fun (hx : Kept s0 x) => ?_) (?_ : Kept s0 x) <;> [clear_value x; subst x])
    | (extract_lets +onlyGivenNames x; clear_value x)
    | with_reducible apply Kept.ite
    | split
    | with_reducible apply wr_kept
    | (with_reducible apply Kept.upd; first | with_reducible assumption | with_reducible apply wr_kept)

theorem releaseClaim_kept (a : Agent) (s : State) (h : Kept s0 s) : Kept s0 (releaseClaim a s) := by
  unfold releaseClaim
  repeat' first
    | with_reducible assumption
    | (intro x; beta_reduce)
    | with_reducible apply Kept.ite
    | split
    | with_reducible apply wr_kept

theorem expireClaim_kept (s : State) (h : Kept s0 s) : Kept s0 (expireClaim s) := by
  unfold expireClaim
  repeat' first
    | with_reducible assumption
    | (intro x; beta_reduce)
    | (extract_lets +onlyGivenNames x; refine (fun (hx : Kept s0 x) => ?_) (?_ : Kept s0 x) <;> [clear_value x; subst x])
    | (extract_lets +onlyGivenNames x; clear_value x)
    | with_reducible apply advanceTo_kept
    | with_reducible apply sat_kept
    | with_reducible apply wr_kept

theorem commitGo_kept (a : Agent) (when' : Nat) (s : State) (h : Kept s0 s) : Kept s0 (commitGo a when' s) := by
  unfold commitGo
  repeat' first
    | with_reducible assumption
    | (intro x; beta_reduce)
    | (extract_lets +onlyGivenNames x; refine (fun (hx : Kept s0 x) => ?_) (?_ : Kept s0 x) <;> [clear_value x; subst x])
    | (extract_lets +onlyGivenNames x; clear_value x)
    | with_reducible apply Kept.ite
    | split
    | with_reducible apply sat_kept
    | with_reducible apply wr_kept
    | with_reducible apply setCommit_kept
    | (with_reducible apply Kept.upd; first | with_reducible assumption | with_reducible apply sat_kept | with_reducible apply wr_kept | with_reducible apply setCommit_kept)

theorem discard_kept (s : State) (h : Kept s0 s) : Kept s0 (discard s) := by
  unfold discard
  repeat' first
    | with_reducible assumption
    | (intro x; beta_reduce)
    | (extract_lets +onlyGivenNames x; refine (fun (hx : Kept s0 x) => ?_) (?_ : Kept s0 x) <;> [clear_value x; subst x])
    | (extract_lets +onlyGivenNames x; refine (fun (hx : Kept s0 x.2) => ?_) (?_ : Kept s0 x.2) <;> [clear_value x; subst x])
    | (extract_lets +onlyGivenNames x; clear_value x)
    | with_reducible apply Kept.ite
    | split
    | with_reducible apply stagedGainWrite_kept
    | with_reducible apply wr_kept
    | with_reducible apply setb_kept
    | with_reducible apply Kept.foldl
    | with_reducible apply Kept.foldl_snd
    | with_reducible apply Kept.foldl_fst
    | (with_reducible apply Kept.upd; first | with_reducible assumption | with_reducible apply stagedGainWrite_kept | with_reducible apply wr_kept | with_reducible apply setb_kept | with_reducible apply Kept.foldl | with_reducible apply Kept.foldl_snd | with_reducible apply Kept.foldl_fst)

theorem failCommit_kept (r : Reject) (res : Nat) (s : State) (h : Kept s0 s) : Kept s0 (failCommit r res s) := by
  unfold failCommit
  repeat' first
    | with_reducible assumption
    | (intro x; beta_reduce)
    | (extract_lets +onlyGivenNames x; refine (fun (hx : Kept s0 x) => ?_) (?_ : Kept s0 x) <;> [clear_value x; subst x])
    | (extract_lets +onlyGivenNames x; clear_value x)
    | with_reducible apply setCommit_kept
    | with_reducible apply wr_kept
    | with_reducible apply sat_kept
    | with_reducible apply setb_kept
    | (with_reducible apply Kept.upd; first | with_reducible assumption | with_reducible apply setCommit_kept | with_reducible apply wr_kept | with_reducible apply sat_kept | with_reducible apply setb_kept)

theorem rejectView_kept (r : Reject) (s : State) (h : Kept s0 s) : Kept s0 (rejectView r s) := by
  unfold rejectView
  repeat' first
    | with_reducible assumption
    | (intro x; beta_reduce)
    | with_reducible apply Kept.ite
    | split
    | with_reducible apply withdraw_kept
    | with_reducible apply setb_kept

theorem joinSet_kept (fs : List (FKey × Nat)) (s : State) (h : Kept s0 s) : Kept s0 (joinSet fs s) := by
  unfold joinSet
  repeat' first
    | with_reducible assumption
    | (intro x; beta_reduce)
    | (extract_lets +onlyGivenNames x; refine (fun (hx : Kept s0 x) => ?_) (?_ : Kept s0 x) <;> [clear_value x; subst x])
    | (extract_lets +onlyGivenNames x; clear_value x)
    | with_reducible apply setb_kept
    | (with_reducible apply Kept.upd; first | with_reducible assumption | with_reducible apply setb_kept)

theorem checkDone_kept (s : State) (h : Kept s0 s) : Kept s0 (checkDone s) := by
  unfold checkDone
  repeat' first
    | with_reducible assumption
    | (intro x; beta_reduce)
    | (extract_lets +onlyGivenNames x; refine (fun (hx : Kept s0 x) => ?_) (?_ : Kept s0 x) <;> [clear_value x; subst x])
    | (extract_lets +onlyGivenNames x; refine (fun (hx : Kept s0 x.2) => ?_) (?_ : Kept s0 x.2) <;> [clear_value x; subst x])
    | (extract_lets +onlyGivenNames x; clear_value x)
    | with_reducible apply Kept.ite
    | split
    | with_reducible apply wr_kept
    | with_reducible apply rejectView_kept
    | with_reducible apply failCommit_kept
    | with_reducible apply setCommit_kept
    | with_reducible apply joinSet_kept
    | with_reducible apply setb_kept
    | with_reducible apply afterFields_kept
    | with_reducible apply modJob_kept
    | (with_reducible apply Kept.upd; first | with_reducible assumption | with_reducible apply wr_kept | with_reducible apply rejectView_kept | with_reducible apply failCommit_kept | with_reducible apply setCommit_kept | with_reducible apply joinSet_kept | with_reducible apply setb_kept | with_reducible apply afterFields_kept | with_reducible apply modJob_kept)

theorem noteApplied_kept (s : State) (h : Kept s0 s) : Kept s0 (noteApplied s) := by
  unfold noteApplied
  repeat' first
    | with_reducible assumption
    | (intro x; beta_reduce)
    | with_reducible apply sat_kept
    | with_reducible apply wr_kept

theorem applyCommit_kept (s : State) (h : Kept s0 s) : Kept s0 (applyCommit s) := by
  unfold applyCommit
  repeat' first
    | with_reducible assumption
    | (intro x; beta_reduce)
    | (extract_lets +onlyGivenNames x; refine (fun (hx : Kept s0 x) => ?_) (?_ : Kept s0 x) <;> [clear_value x; subst x])
    | (extract_lets +onlyGivenNames x; refine (fun (hx : Kept s0 x.2) => ?_) (?_ : Kept s0 x.2) <;> [clear_value x; subst x])
    | (extract_lets +onlyGivenNames x; clear_value x)
    | with_reducible apply Kept.ite
    | split
    | with_reducible apply rejectView_kept
    | with_reducible apply failCommit_kept
    | with_reducible apply noteApplied_kept
    | with_reducible apply setb_kept
    | with_reducible apply setCommit_kept
    | with_reducible apply applyFields_kept
    | (with_reducible apply Kept.upd; first | with_reducible assumption | with_reducible apply rejectView_kept | with_reducible apply failCommit_kept | with_reducible apply noteApplied_kept | with_reducible apply setb_kept | with_reducible apply setCommit_kept | with_reducible apply applyFields_kept)

theorem commitApply_kept (s : State) (h : Kept s0 s) : Kept s0 (commitApply s) := by
  unfold commitApply
  repeat' first
    | with_reducible assumption
    | (intro x; beta_reduce)
    | (extract_lets +onlyGivenNames x; refine (fun (hx : Kept s0 x) => ?_) (?_ : Kept s0 x) <;> [clear_value x; subst x])
    | (extract_lets +onlyGivenNames x; clear_value x)
    | with_reducible apply Kept.ite
    | split
    | with_reducible apply applyCommit_kept
    | with_reducible apply advanceTo_kept

theorem endSet_kept (st res : Nat) (s : State) (h : Kept s0 s) : Kept s0 (endSet st res s) := by
  unfold endSet
  repeat' first
    | with_reducible assumption
    | (intro x; beta_reduce)
    | (extract_lets +onlyGivenNames x; refine (fun (hx : Kept s0 x) => ?_) (?_ : Kept s0 x) <;> [clear_value x; subst x])
    | (extract_lets +onlyGivenNames x; clear_value x)
    | with_reducible apply Kept.ite
    | split
    | with_reducible apply setCommit_kept
    | with_reducible apply setb_kept
    | (with_reducible apply Kept.upd; first | with_reducible assumption | with_reducible apply setCommit_kept | with_reducible apply setb_kept)

theorem failSet_kept (r : Reject) (s : State) (h : Kept s0 s) : Kept s0 (failSet r s) := by
  unfold failSet
  repeat' first
    | with_reducible assumption
    | (intro x; beta_reduce)
    | with_reducible apply endSet_kept
    | with_reducible apply setb_kept
    | with_reducible apply wr_kept
    | with_reducible apply sat_kept

theorem applySet_kept (s : State) (h : Kept s0 s) : Kept s0 (applySet s) := by
  unfold applySet
  repeat' first
    | with_reducible assumption
    | (intro x; beta_reduce)
    | (extract_lets +onlyGivenNames x; refine (fun (hx : Kept s0 x) => ?_) (?_ : Kept s0 x) <;> [clear_value x; subst x])
    | (extract_lets +onlyGivenNames x; refine (fun (hx : Kept s0 x.2) => ?_) (?_ : Kept s0 x.2) <;> [clear_value x; subst x])
    | (extract_lets +onlyGivenNames x; clear_value x)
    | with_reducible apply Kept.ite
    | split
    | with_reducible apply failSet_kept
    | with_reducible apply endSet_kept
    | with_reducible apply applyFields_kept
    | with_reducible apply noteApplied_kept

theorem stepSetApply_kept (s : State) (h : Kept s0 s) : Kept s0 (stepSetApply s) := by
  unfold stepSetApply
  repeat' first
    | with_reducible assumption
    | (intro x; beta_reduce)
    | with_reducible apply Kept.ite
    | split
    | with_reducible apply applySet_kept
    | with_reducible apply advanceTo_kept

end Sys2Proof.Machine
end

