-- ==== Sys2Proof/Laws/KeptSend.lean ====
section
/-! SUPPORT. What the operations of Machine/Send.lean keep of the queue, the variant and soundness: one lemma for each, cited instead of its unfolding. -/

set_option linter.unusedTactic false
set_option linter.unreachableTactic false
set_option linter.unusedVariables false

namespace Sys2Proof.Machine

open Sys2Proof

variable {s0 : State}

theorem toOwner_kept (x : XOp) (s : State) (h : Kept s0 s) : Kept s0 (toOwner x s) := by
  unfold toOwner
  repeat' first
    | with_reducible assumption
    | (intro x; beta_reduce)
    | (extract_lets +onlyGivenNames x; refine (fun (hx : Kept s0 x) => ?_) (?_ : Kept s0 x) <;> [clear_value x; subst x])
    | (extract_lets +onlyGivenNames x; refine (fun (hx : Kept s0 x.2) => ?_) (?_ : Kept s0 x.2) <;> [clear_value x; subst x])
    | (extract_lets +onlyGivenNames x; clear_value x)
    | with_reducible apply Kept.ite
    | split
    | with_reducible apply takeOp_kept
    | with_reducible apply ownerTake_kept
    | with_reducible apply sendOp_kept
    | refine Kept.snd (by with_reducible assumption) ?_

theorem sendOwner_kept (r : SendRec) (s : State) (h : Kept s0 s) : Kept s0 (sendOwner r s) := by
  unfold sendOwner
  repeat' first
    | with_reducible assumption
    | (intro x; beta_reduce)
    | (extract_lets +onlyGivenNames x; refine (fun (hx : Kept s0 x) => ?_) (?_ : Kept s0 x) <;> [clear_value x; subst x])
    | (extract_lets +onlyGivenNames x; refine (fun (hx : Kept s0 x.2) => ?_) (?_ : Kept s0 x.2) <;> [clear_value x; subst x])
    | (extract_lets +onlyGivenNames x; clear_value x)
    | with_reducible apply modSends_kept
    | with_reducible apply toOwner_kept
    | with_reducible apply Kept.foldl
    | with_reducible apply Kept.foldl_snd
    | with_reducible apply Kept.foldl_fst
    | (with_reducible apply Kept.upd; first | with_reducible assumption | with_reducible apply modSends_kept | with_reducible apply toOwner_kept | with_reducible apply Kept.foldl | with_reducible apply Kept.foldl_snd | with_reducible apply Kept.foldl_fst)

theorem resendOwn_kept (b : Nat) (s : State) (h : Kept s0 s) : Kept s0 (resendOwn b s) := by
  unfold resendOwn
  repeat' first
    | with_reducible assumption
    | (intro x; beta_reduce)
    | with_reducible apply sendOwner_kept
    | with_reducible apply Kept.foldl
    | with_reducible apply Kept.foldl_snd
    | with_reducible apply Kept.foldl_fst

theorem resendMoved_kept (x : XOp) (s : State) (h : Kept s0 s) : Kept s0 (resendMoved x s) := by
  unfold resendMoved
  repeat' first
    | with_reducible assumption
    | (intro x; beta_reduce)
    | (extract_lets +onlyGivenNames x; refine (fun (hx : Kept s0 x) => ?_) (?_ : Kept s0 x) <;> [clear_value x; subst x])
    | (extract_lets +onlyGivenNames x; refine (fun (hx : Kept s0 x.2) => ?_) (?_ : Kept s0 x.2) <;> [clear_value x; subst x])
    | (extract_lets +onlyGivenNames x; clear_value x)
    | with_reducible apply Kept.ite
    | split
    | with_reducible apply toOwner_kept
    | with_reducible apply modSends_kept
    | with_reducible apply Kept.foldl
    | with_reducible apply Kept.foldl_snd
    | with_reducible apply Kept.foldl_fst
    | (with_reducible apply Kept.upd; first | with_reducible assumption | with_reducible apply toOwner_kept | with_reducible apply modSends_kept | with_reducible apply Kept.foldl | with_reducible apply Kept.foldl_snd | with_reducible apply Kept.foldl_fst)

theorem noteLayer_kept (r : SendRec) (s : State) (h : Kept s0 s) : Kept s0 (noteLayer r s) := by
  unfold noteLayer
  repeat' first
    | with_reducible assumption
    | (intro x; beta_reduce)
    | (extract_lets +onlyGivenNames x; refine (fun (hx : Kept s0 x) => ?_) (?_ : Kept s0 x) <;> [clear_value x; subst x])
    | (extract_lets +onlyGivenNames x; clear_value x)
    | with_reducible apply Kept.ite
    | split
    | with_reducible apply modJob_kept
    | (with_reducible apply Kept.upd; first | with_reducible assumption | with_reducible apply modJob_kept)

theorem xIssue_kept (q : SeqId) (t : Nat) (act : Ctx → State → State) (s : State)
    (hact : ∀ x0 s, Kept s0 s → Kept s0 (act x0 s)) (h : Kept s0 s) : Kept s0 (xIssue q t act s) := by
  unfold xIssue
  repeat' first
    | with_reducible assumption
    | (intro x; beta_reduce)
    | (extract_lets +onlyGivenNames x; refine (fun (hx : Kept s0 x) => ?_) (?_ : Kept s0 x) <;> [clear_value x; subst x])
    | (extract_lets +onlyGivenNames x; clear_value x)
    | with_reducible apply Kept.ite
    | split
    | with_reducible apply hact
    | with_reducible apply guardFault_kept
    | with_reducible apply setPc_kept
    | with_reducible apply noteIssue_kept

theorem startSend_kept (q : SeqId) (cmd : Cmd) (op t : Nat) (x : Ctx) (s : State)
    (h : Kept s0 s) : Kept s0 (startSend q cmd op t x s) := by
  unfold startSend
  repeat' first
    | with_reducible assumption
    | (intro x; beta_reduce)
    | (extract_lets +onlyGivenNames x; refine (fun (hx : Kept s0 x) => ?_) (?_ : Kept s0 x) <;> [clear_value x; subst x])
    | (extract_lets +onlyGivenNames x; clear_value x)
    | with_reducible apply Kept.ite
    | split
    | with_reducible apply reportReads_kept
    | with_reducible apply guardReads_kept
    | with_reducible apply modJob_kept
    | with_reducible apply track_kept
    | with_reducible apply noteLayer_kept
    | with_reducible apply sendOwner_kept
    | with_reducible apply ownPulls_kept
    | with_reducible apply servePulls_kept
    | with_reducible apply noticeGates_kept
    | (with_reducible apply Kept.upd; first | with_reducible assumption | with_reducible apply reportReads_kept | with_reducible apply guardReads_kept | with_reducible apply modJob_kept | with_reducible apply track_kept | with_reducible apply noteLayer_kept | with_reducible apply sendOwner_kept | with_reducible apply ownPulls_kept | with_reducible apply servePulls_kept | with_reducible apply noticeGates_kept)

theorem sendCmd_kept (q : SeqId) (op : Nat) (s : State) (h : Kept s0 s) : Kept s0 (sendCmd q op s) := by
  unfold sendCmd
  repeat' first
    | with_reducible assumption
    | (intro x; beta_reduce)
    | with_reducible apply streamCmd_kept
    | with_reducible apply xIssue_kept
    | with_reducible apply startSend_kept

theorem startWait_kept (cmd : Cmd) (x : Ctx) (s : State) (h : Kept s0 s) : Kept s0 (startWait cmd x s) := by
  unfold startWait
  repeat' first
    | with_reducible assumption
    | (intro x; beta_reduce)
    | (extract_lets +onlyGivenNames x; refine (fun (hx : Kept s0 x) => ?_) (?_ : Kept s0 x) <;> [clear_value x; subst x])
    | (extract_lets +onlyGivenNames x; clear_value x)
    | with_reducible apply Kept.ite
    | split
    | with_reducible apply track_kept
    | with_reducible apply noticeGates_kept
    | (with_reducible apply Kept.upd; first | with_reducible assumption | with_reducible apply track_kept | with_reducible apply noticeGates_kept)

theorem startRemoteWrite_kept (q : SeqId) (cmd : Cmd) (t : Nat) (x : Ctx) (s : State)
    (h : Kept s0 s) : Kept s0 (startRemoteWrite q cmd t x s) := by
  unfold startRemoteWrite
  repeat' first
    | with_reducible assumption
    | (intro x; beta_reduce)
    | (extract_lets +onlyGivenNames x; refine (fun (hx : Kept s0 x) => ?_) (?_ : Kept s0 x) <;> [clear_value x; subst x])
    | (extract_lets +onlyGivenNames x; refine (fun (hx : Kept s0 x.2) => ?_) (?_ : Kept s0 x.2) <;> [clear_value x; subst x])
    | (extract_lets +onlyGivenNames x; clear_value x)
    | with_reducible apply Kept.ite
    | split
    | with_reducible apply reportReads_kept
    | with_reducible apply guardReads_kept
    | with_reducible apply remoteStore_kept
    | with_reducible apply track_kept
    | with_reducible apply cellarStruck_kept
    | with_reducible apply sendWrite_kept
    | with_reducible apply Kept.foldl
    | with_reducible apply Kept.foldl_snd
    | with_reducible apply Kept.foldl_fst
    | refine Kept.snd (by with_reducible assumption) ?_
    | (with_reducible apply Kept.upd; first | with_reducible assumption | with_reducible apply reportReads_kept | with_reducible apply guardReads_kept | with_reducible apply remoteStore_kept | with_reducible apply track_kept | with_reducible apply cellarStruck_kept | with_reducible apply sendWrite_kept | with_reducible apply Kept.foldl | with_reducible apply Kept.foldl_snd | with_reducible apply Kept.foldl_fst | refine Kept.snd (by with_reducible assumption) ?_)

end Sys2Proof.Machine
end

