-- ==== Sys2Proof/Laws/KeptUpdate.lean ====
section
/-! SUPPORT. What the operations of Machine/Update.lean keep of the queue, the variant and soundness: one lemma for each, cited instead of its unfolding. -/

set_option linter.unusedTactic false
set_option linter.unreachableTactic false
set_option linter.unusedVariables false

namespace Sys2Proof.Machine

open Sys2Proof

variable {s0 : State}

theorem checkUpdated_kept (b : Nat) (s : State) (h : Kept s0 s) : Kept s0 (checkUpdated b s) := by
  unfold checkUpdated
  repeat' first
    | with_reducible assumption
    | (intro x; beta_reduce)
    | (extract_lets +onlyGivenNames x; refine (fun (hx : Kept s0 x) => ?_) (?_ : Kept s0 x) <;> [clear_value x; subst x])
    | (extract_lets +onlyGivenNames x; clear_value x)
    | with_reducible apply Kept.ite
    | split
    | with_reducible apply refreshPending_kept
    | with_reducible apply sat_kept
    | with_reducible apply modBx_kept
    | (with_reducible apply Kept.upd; first | with_reducible assumption | with_reducible apply refreshPending_kept | with_reducible apply sat_kept | with_reducible apply modBx_kept)

theorem applyDelta_kept (x : XOp) (s : State) (h : Kept s0 s) : Kept s0 (applyDelta x s) := by
  unfold applyDelta
  repeat' first
    | with_reducible assumption
    | (intro x; beta_reduce)
    | (extract_lets +onlyGivenNames x; refine (fun (hx : Kept s0 x) => ?_) (?_ : Kept s0 x) <;> [clear_value x; subst x])
    | (extract_lets +onlyGivenNames x; clear_value x)
    | with_reducible apply Kept.ite
    | split
    | with_reducible apply partReport_kept
    | with_reducible apply viewReport_kept
    | with_reducible apply storeMem_kept
    | with_reducible apply sat_kept
    | with_reducible apply setb_kept
    | with_reducible apply modJob_kept
    | with_reducible apply checkUpdated_kept
    | with_reducible apply setBx_kept
    | (with_reducible apply Kept.upd; first | with_reducible assumption | with_reducible apply partReport_kept | with_reducible apply viewReport_kept | with_reducible apply storeMem_kept | with_reducible apply sat_kept | with_reducible apply setb_kept | with_reducible apply modJob_kept | with_reducible apply checkUpdated_kept | with_reducible apply setBx_kept)

theorem ownDelta_kept (o : XOp) (s : State) (h : Kept s0 s) : Kept s0 (ownDelta o s) := by
  unfold ownDelta
  repeat' first
    | with_reducible assumption
    | (intro x; beta_reduce)
    | with_reducible apply Kept.ite
    | split
    | with_reducible apply sat_kept
    | with_reducible apply applyDelta_kept

theorem flushDeltas_kept (b : Nat) (s : State) (h : Kept s0 s) : Kept s0 (flushDeltas b s) := by
  unfold flushDeltas
  repeat' first
    | with_reducible assumption
    | (intro x; beta_reduce)
    | (extract_lets +onlyGivenNames x; refine (fun (hx : Kept s0 x) => ?_) (?_ : Kept s0 x) <;> [clear_value x; subst x])
    | (extract_lets +onlyGivenNames x; refine (fun (hx : Kept s0 x.2) => ?_) (?_ : Kept s0 x.2) <;> [clear_value x; subst x])
    | (extract_lets +onlyGivenNames x; clear_value x)
    | with_reducible apply Kept.ite
    | split
    | with_reducible apply sendAll_kept
    | with_reducible apply ownDelta_kept
    | with_reducible apply modOp_kept
    | with_reducible apply modBx_kept
    | with_reducible apply Kept.foldl
    | with_reducible apply Kept.foldl_snd
    | with_reducible apply Kept.foldl_fst
    | refine Kept.snd (by with_reducible assumption) ?_
    | (with_reducible apply Kept.upd; first | with_reducible assumption | with_reducible apply sendAll_kept | with_reducible apply ownDelta_kept | with_reducible apply modOp_kept | with_reducible apply modBx_kept | with_reducible apply Kept.foldl | with_reducible apply Kept.foldl_snd | with_reducible apply Kept.foldl_fst | refine Kept.snd (by with_reducible assumption) ?_)

theorem markLast_kept (b : Nat) (o : XOp) (s : State) (h : Kept s0 s) : Kept s0 (markLast b o s).2 := by
  unfold markLast
  repeat' first
    | with_reducible assumption
    | (intro x; beta_reduce)
    | (extract_lets +onlyGivenNames x; refine (fun (hx : Kept s0 x) => ?_) (?_ : Kept s0 x) <;> [clear_value x; subst x])
    | (extract_lets +onlyGivenNames x; clear_value x)
    | with_reducible apply Kept.ite
    | split
    | with_reducible apply modBx_kept
    | (with_reducible apply Kept.upd; first | with_reducible assumption | with_reducible apply modBx_kept)

theorem ownDeltas_kept (id b : Nat) (os : List XOp) (send : Bool) (s : State)
    (h : Kept s0 s) : Kept s0 (ownDeltas id b os send s) := by
  unfold ownDeltas
  repeat' first
    | with_reducible assumption
    | (intro x; beta_reduce)
    | (extract_lets +onlyGivenNames x; refine (fun (hx : Kept s0 x) => ?_) (?_ : Kept s0 x) <;> [clear_value x; subst x])
    | (extract_lets +onlyGivenNames x; refine (fun (hx : Kept s0 x.2) => ?_) (?_ : Kept s0 x.2) <;> [clear_value x; subst x])
    | (extract_lets +onlyGivenNames x; clear_value x)
    | with_reducible apply Kept.ite
    | split
    | with_reducible apply markLast_kept
    | with_reducible apply modBx_kept
    | with_reducible apply ownDelta_kept
    | with_reducible apply Kept.foldl
    | with_reducible apply Kept.foldl_snd
    | with_reducible apply Kept.foldl_fst
    | refine Kept.snd (by with_reducible assumption) ?_
    | (with_reducible apply Kept.upd; first | with_reducible assumption | with_reducible apply markLast_kept | with_reducible apply modBx_kept | with_reducible apply ownDelta_kept | with_reducible apply Kept.foldl | with_reducible apply Kept.foldl_snd | with_reducible apply Kept.foldl_fst | refine Kept.snd (by with_reducible assumption) ?_)

theorem startDelta_kept (q : SeqId) (cmd : Cmd) (t : Nat) (x : Ctx) (s : State)
    (h : Kept s0 s) : Kept s0 (startDelta q cmd t x s) := by
  unfold startDelta
  repeat' first
    | with_reducible assumption
    | (intro x; beta_reduce)
    | (extract_lets +onlyGivenNames x; refine (fun (hx : Kept s0 x) => ?_) (?_ : Kept s0 x) <;> [clear_value x; subst x])
    | (extract_lets +onlyGivenNames x; refine (fun (hx : Kept s0 x.2) => ?_) (?_ : Kept s0 x.2) <;> [clear_value x; subst x])
    | (extract_lets +onlyGivenNames x; clear_value x)
    | with_reducible apply Kept.ite
    | split
    | with_reducible apply reportReads_kept
    | with_reducible apply guardReads_kept
    | with_reducible apply track_kept
    | with_reducible apply modJob_kept
    | with_reducible apply viewReport_kept
    | with_reducible apply storeMem_kept
    | with_reducible apply modBx_kept
    | with_reducible apply flushDeltas_kept
    | with_reducible apply ownDeltas_kept
    | with_reducible apply Kept.foldl
    | with_reducible apply Kept.foldl_snd
    | with_reducible apply Kept.foldl_fst
    | (with_reducible apply Kept.upd; first | with_reducible assumption | with_reducible apply reportReads_kept | with_reducible apply guardReads_kept | with_reducible apply track_kept | with_reducible apply modJob_kept | with_reducible apply viewReport_kept | with_reducible apply storeMem_kept | with_reducible apply modBx_kept | with_reducible apply flushDeltas_kept | with_reducible apply ownDeltas_kept | with_reducible apply Kept.foldl | with_reducible apply Kept.foldl_snd | with_reducible apply Kept.foldl_fst)

theorem noteSpike_kept (c : Nat) (s : State) (h : Kept s0 s) : Kept s0 (noteSpike c s) := by
  unfold noteSpike
  repeat' first
    | with_reducible assumption
    | (intro x; beta_reduce)
    | (extract_lets +onlyGivenNames x; refine (fun (hx : Kept s0 x) => ?_) (?_ : Kept s0 x) <;> [clear_value x; subst x])
    | (extract_lets +onlyGivenNames x; clear_value x)
    | with_reducible apply sat_kept
    | with_reducible apply setb_kept
    | with_reducible apply wr_kept
    | with_reducible apply modJob_kept
    | (with_reducible apply Kept.upd; first | with_reducible assumption | with_reducible apply sat_kept | with_reducible apply setb_kept | with_reducible apply wr_kept | with_reducible apply modJob_kept)

theorem spikeTest_kept (s : State) (h : Kept s0 s) : Kept s0 (spikeTest s) := by
  unfold spikeTest
  repeat' first
    | with_reducible assumption
    | (intro x; beta_reduce)
    | (extract_lets +onlyGivenNames x; refine (fun (hx : Kept s0 x) => ?_) (?_ : Kept s0 x) <;> [clear_value x; subst x])
    | (extract_lets +onlyGivenNames x; clear_value x)
    | with_reducible apply Kept.ite
    | split
    | with_reducible apply sat_kept
    | with_reducible apply setb_kept
    | with_reducible apply noteSpike_kept

theorem refreshStarved_kept (s : State) (h : Kept s0 s) : Kept s0 (refreshStarved s) := by
  unfold refreshStarved
  repeat' first
    | with_reducible assumption
    | (intro x; beta_reduce)
    | (extract_lets +onlyGivenNames x; refine (fun (hx : Kept s0 x) => ?_) (?_ : Kept s0 x) <;> [clear_value x; subst x])
    | (extract_lets +onlyGivenNames x; clear_value x)
    | with_reducible apply wr_kept

theorem starveTest_kept (s : State) (h : Kept s0 s) : Kept s0 (starveTest s) := by
  unfold starveTest
  repeat' first
    | with_reducible assumption
    | (intro x; beta_reduce)
    | (extract_lets +onlyGivenNames x; refine (fun (hx : Kept s0 x) => ?_) (?_ : Kept s0 x) <;> [clear_value x; subst x])
    | (extract_lets +onlyGivenNames x; refine (fun (hx : Kept s0 x.2) => ?_) (?_ : Kept s0 x.2) <;> [clear_value x; subst x])
    | (extract_lets +onlyGivenNames x; clear_value x)
    | with_reducible apply Kept.ite
    | split
    | with_reducible apply wr_kept
    | with_reducible apply modJob_kept
    | with_reducible apply refreshStarved_kept
    | with_reducible apply setb_kept
    | with_reducible apply Kept.foldl
    | with_reducible apply Kept.foldl_snd
    | with_reducible apply Kept.foldl_fst
    | (with_reducible apply Kept.upd; first | with_reducible assumption | with_reducible apply wr_kept | with_reducible apply modJob_kept | with_reducible apply refreshStarved_kept | with_reducible apply setb_kept | with_reducible apply Kept.foldl | with_reducible apply Kept.foldl_snd | with_reducible apply Kept.foldl_fst)

theorem setVoteSent_kept (v : Bool) (s : State) (h : Kept s0 s) : Kept s0 (setVoteSent v s) := by
  unfold setVoteSent
  repeat' first
    | with_reducible assumption
    | (intro x; beta_reduce)
    | with_reducible apply setb_kept
    | with_reducible apply Kept.foldl
    | with_reducible apply Kept.foldl_snd
    | with_reducible apply Kept.foldl_fst

theorem onDecision_kept (step at' : Nat) (vetoed : Bool) (s : State)
    (h : Kept s0 s) : Kept s0 (onDecision step at' vetoed s) := by
  unfold onDecision
  repeat' first
    | with_reducible assumption
    | (intro x; beta_reduce)
    | with_reducible apply Kept.ite
    | split
    | with_reducible apply modJob_kept
    | (with_reducible apply Kept.upd; first | with_reducible assumption | with_reducible apply modJob_kept)

theorem tryDecide_kept (s : State) (h : Kept s0 s) : Kept s0 (tryDecide s) := by
  unfold tryDecide
  repeat' first
    | with_reducible assumption
    | (intro x; beta_reduce)
    | (extract_lets +onlyGivenNames x; refine (fun (hx : Kept s0 x) => ?_) (?_ : Kept s0 x) <;> [clear_value x; subst x])
    | (extract_lets +onlyGivenNames x; refine (fun (hx : Kept s0 x.2) => ?_) (?_ : Kept s0 x.2) <;> [clear_value x; subst x])
    | (extract_lets +onlyGivenNames x; clear_value x)
    | with_reducible apply Kept.ite
    | split
    | with_reducible apply sendReliable_kept
    | with_reducible apply onDecision_kept
    | with_reducible apply Kept.foldl
    | with_reducible apply Kept.foldl_snd
    | with_reducible apply Kept.foldl_fst
    | refine Kept.snd (by with_reducible assumption) ?_

theorem onVote_kept (rank step flags : Nat) (s : State) (h : Kept s0 s) : Kept s0 (onVote rank step flags s) := by
  unfold onVote
  repeat' first
    | with_reducible assumption
    | (intro x; beta_reduce)
    | (extract_lets +onlyGivenNames x; refine (fun (hx : Kept s0 x) => ?_) (?_ : Kept s0 x) <;> [clear_value x; subst x])
    | (extract_lets +onlyGivenNames x; clear_value x)
    | with_reducible apply Kept.ite
    | split
    | with_reducible apply tryDecide_kept
    | with_reducible apply modJob_kept
    | (with_reducible apply Kept.upd; first | with_reducible assumption | with_reducible apply tryDecide_kept | with_reducible apply modJob_kept)

theorem sendVote_kept (s : State) (h : Kept s0 s) : Kept s0 (sendVote s) := by
  unfold sendVote
  repeat' first
    | with_reducible assumption
    | (intro x; beta_reduce)
    | with_reducible apply Kept.ite
    | split
    | with_reducible apply onVote_kept
    | with_reducible apply sendReliable_kept
    | refine Kept.snd (by with_reducible assumption) ?_

theorem castVote_kept (s : State) (h : Kept s0 s) : Kept s0 (castVote s) := by
  unfold castVote
  repeat' first
    | with_reducible assumption
    | (intro x; beta_reduce)
    | (extract_lets +onlyGivenNames x; refine (fun (hx : Kept s0 x) => ?_) (?_ : Kept s0 x) <;> [clear_value x; subst x])
    | (extract_lets +onlyGivenNames x; clear_value x)
    | with_reducible apply Kept.ite
    | split
    | with_reducible apply sat_kept
    | with_reducible apply modJob_kept
    | with_reducible apply starveTest_kept
    | with_reducible apply spikeTest_kept
    | with_reducible apply setb_kept
    | with_reducible apply sendVote_kept
    | with_reducible apply setVoteSent_kept
    | (with_reducible apply Kept.upd; first | with_reducible assumption | with_reducible apply sat_kept | with_reducible apply modJob_kept | with_reducible apply starveTest_kept | with_reducible apply spikeTest_kept | with_reducible apply setb_kept | with_reducible apply sendVote_kept | with_reducible apply setVoteSent_kept)

theorem settle_kept (s : State) (h : Kept s0 s) : Kept s0 (settle s) := by
  unfold settle
  repeat' first
    | with_reducible assumption
    | (intro x; beta_reduce)
    | (extract_lets +onlyGivenNames x; refine (fun (hx : Kept s0 x) => ?_) (?_ : Kept s0 x) <;> [clear_value x; subst x])
    | (extract_lets +onlyGivenNames x; refine (fun (hx : Kept s0 x.2) => ?_) (?_ : Kept s0 x.2) <;> [clear_value x; subst x])
    | (extract_lets +onlyGivenNames x; clear_value x)
    | with_reducible apply servePulls_kept
    | with_reducible apply flushDeltas_kept
    | with_reducible apply settleShards_kept
    | with_reducible apply castVote_kept
    | with_reducible apply Kept.foldl
    | with_reducible apply Kept.foldl_snd
    | with_reducible apply Kept.foldl_fst

theorem mixerTest_kept (s : State) (h : Kept s0 s) : Kept s0 (mixerTest s) := by
  unfold mixerTest
  repeat' first
    | with_reducible assumption
    | (intro x; beta_reduce)
    | (extract_lets +onlyGivenNames x; refine (fun (hx : Kept s0 x) => ?_) (?_ : Kept s0 x) <;> [clear_value x; subst x])
    | (extract_lets +onlyGivenNames x; clear_value x)
    | with_reducible apply Kept.ite
    | split
    | with_reducible apply setb_kept
    | with_reducible apply wrU_kept

theorem runClear_kept (s : State) (h : Kept s0 s) : Kept s0 (runClear s) := by
  unfold runClear
  repeat' first
    | with_reducible assumption
    | (intro x; beta_reduce)
    | with_reducible apply refreshStarved_kept
    | (with_reducible apply Kept.upd; first | with_reducible assumption | with_reducible apply refreshStarved_kept)

theorem refreshArray_kept (die l p : Nat) (rows : List (Nat × Nat)) (s : State)
    (h : Kept s0 s) : Kept s0 (refreshArray die l p rows s) := by
  unfold refreshArray
  repeat' first
    | with_reducible assumption
    | (intro x; beta_reduce)
    | (extract_lets +onlyGivenNames x; refine (fun (hx : Kept s0 x) => ?_) (?_ : Kept s0 x) <;> [clear_value x; subst x])
    | (extract_lets +onlyGivenNames x; refine (fun (hx : Kept s0 x.2) => ?_) (?_ : Kept s0 x.2) <;> [clear_value x; subst x])
    | (extract_lets +onlyGivenNames x; clear_value x)
    | with_reducible apply Kept.ite
    | split
    | with_reducible apply partReport_kept
    | with_reducible apply setArrX_kept
    | with_reducible apply Kept.foldl
    | with_reducible apply Kept.foldl_snd
    | with_reducible apply Kept.foldl_fst
    | (with_reducible apply Kept.upd; first | with_reducible assumption | with_reducible apply partReport_kept | with_reducible apply setArrX_kept | with_reducible apply Kept.foldl | with_reducible apply Kept.foldl_snd | with_reducible apply Kept.foldl_fst)

theorem bypassPermanent_kept (die p : Nat) (s : State) (h : Kept s0 s) : Kept s0 (bypassPermanent die p s) := by
  unfold bypassPermanent
  repeat' first
    | with_reducible assumption
    | (intro x; beta_reduce)
    | with_reducible apply Kept.ite
    | split
    | with_reducible apply bypassLoaded_kept
    | with_reducible apply Kept.foldl
    | with_reducible apply Kept.foldl_snd
    | with_reducible apply Kept.foldl_fst

theorem pantryRefresh_kept (inst ap : Nat) (rows : List (Nat × Nat)) (s : State)
    (h : Kept s0 s) : Kept s0 (pantryRefresh inst ap rows s) := by
  unfold pantryRefresh
  repeat' first
    | with_reducible assumption
    | (intro x; beta_reduce)
    | (extract_lets +onlyGivenNames x; refine (fun (hx : Kept s0 x) => ?_) (?_ : Kept s0 x) <;> [clear_value x; subst x])
    | (extract_lets +onlyGivenNames x; refine (fun (hx : Kept s0 x.2) => ?_) (?_ : Kept s0 x.2) <;> [clear_value x; subst x])
    | (extract_lets +onlyGivenNames x; clear_value x)
    | with_reducible apply Kept.ite
    | split
    | with_reducible apply advanceTo_kept
    | with_reducible apply refreshArray_kept
    | with_reducible apply bypassPermanent_kept
    | with_reducible apply portToken_kept
    | with_reducible apply Kept.foldl
    | with_reducible apply Kept.foldl_snd
    | with_reducible apply Kept.foldl_fst
    | (with_reducible apply Kept.upd; first | with_reducible assumption | with_reducible apply advanceTo_kept | with_reducible apply refreshArray_kept | with_reducible apply bypassPermanent_kept | with_reducible apply portToken_kept | with_reducible apply Kept.foldl | with_reducible apply Kept.foldl_snd | with_reducible apply Kept.foldl_fst)

theorem driftStep_kept (die p l pad : Nat) (s : State) (ja : Nat × Nat)
    (h : Kept s0 s) : Kept s0 (driftStep die p l pad s ja) := by
  unfold driftStep
  repeat' first
    | with_reducible assumption
    | (intro x; beta_reduce)
    | (extract_lets +onlyGivenNames x; refine (fun (hx : Kept s0 x) => ?_) (?_ : Kept s0 x) <;> [clear_value x; subst x])
    | (extract_lets +onlyGivenNames x; refine (fun (hx : Kept s0 x.2) => ?_) (?_ : Kept s0 x.2) <;> [clear_value x; subst x])
    | (extract_lets +onlyGivenNames x; clear_value x)
    | with_reducible apply Kept.ite
    | split
    | with_reducible apply partReport_kept
    | with_reducible apply queueColumn_kept
    | with_reducible apply sat_kept

theorem driftCheck_kept (s : State) (h : Kept s0 s) : Kept s0 (driftCheck s) := by
  unfold driftCheck
  repeat' first
    | with_reducible assumption
    | (intro x; beta_reduce)
    | (extract_lets +onlyGivenNames x; refine (fun (hx : Kept s0 x) => ?_) (?_ : Kept s0 x) <;> [clear_value x; subst x])
    | (extract_lets +onlyGivenNames x; refine (fun (hx : Kept s0 x.2) => ?_) (?_ : Kept s0 x.2) <;> [clear_value x; subst x])
    | (extract_lets +onlyGivenNames x; clear_value x)
    | with_reducible apply Kept.ite
    | split
    | with_reducible apply advanceTo_kept
    | with_reducible apply driftStep_kept
    | with_reducible apply wrA_kept
    | (with_reducible apply Kept.upd; first | with_reducible assumption | with_reducible apply advanceTo_kept | with_reducible apply driftStep_kept | with_reducible apply wrA_kept)

end Sys2Proof.Machine
end

