-- ==== Sys2Proof/Laws/KeptEpoch.lean ====
section
/-! SUPPORT. What the operations of Machine/Epoch.lean keep of the queue, the variant and soundness: one lemma for each, cited instead of its unfolding. -/

set_option linter.unusedTactic false
set_option linter.unreachableTactic false
set_option linter.unusedVariables false

namespace Sys2Proof.Machine

open Sys2Proof

variable {s0 : State}

theorem finishWalks_kept (s : State) (h : Kept s0 s) : Kept s0 (finishWalks s) := by
  unfold finishWalks
  repeat' first
    | with_reducible assumption
    | (intro x; beta_reduce)
    | (extract_lets +onlyGivenNames x; refine (fun (hx : Kept s0 x) => ?_) (?_ : Kept s0 x) <;> [clear_value x; subst x])
    | (extract_lets +onlyGivenNames x; refine (fun (hx : Kept s0 x.2) => ?_) (?_ : Kept s0 x.2) <;> [clear_value x; subst x])
    | (extract_lets +onlyGivenNames x; clear_value x)
    | with_reducible apply Kept.ite
    | split
    | with_reducible apply modJob_kept
    | with_reducible apply sat_kept
    | with_reducible apply modBx_kept
    | with_reducible apply refreshCellar_kept
    | with_reducible apply Kept.foldl
    | with_reducible apply Kept.foldl_snd
    | with_reducible apply Kept.foldl_fst
    | (with_reducible apply Kept.upd; first | with_reducible assumption | with_reducible apply modJob_kept | with_reducible apply sat_kept | with_reducible apply modBx_kept | with_reducible apply refreshCellar_kept | with_reducible apply Kept.foldl | with_reducible apply Kept.foldl_snd | with_reducible apply Kept.foldl_fst)

theorem cellarCommit_kept (vetoed : Bool) (old s : State) (h : Kept s0 s) : Kept s0 (cellarCommit vetoed old s) := by
  unfold cellarCommit
  repeat' first
    | with_reducible assumption
    | (intro x; beta_reduce)
    | (extract_lets +onlyGivenNames x; refine (fun (hx : Kept s0 x) => ?_) (?_ : Kept s0 x) <;> [clear_value x; subst x])
    | (extract_lets +onlyGivenNames x; refine (fun (hx : Kept s0 x.2) => ?_) (?_ : Kept s0 x.2) <;> [clear_value x; subst x])
    | (extract_lets +onlyGivenNames x; clear_value x)
    | with_reducible apply Kept.ite
    | split
    | with_reducible apply cellarStruck_kept
    | with_reducible apply recellar_kept
    | with_reducible apply freshCellar_kept
    | with_reducible apply Kept.foldl
    | with_reducible apply Kept.foldl_snd
    | with_reducible apply Kept.foldl_fst

theorem loseBuckets_kept (lost : List Nat) (s : State) (h : Kept s0 s) : Kept s0 (loseBuckets lost s) := by
  unfold loseBuckets
  repeat' first
    | with_reducible assumption
    | (intro x; beta_reduce)
    | (extract_lets +onlyGivenNames x; refine (fun (hx : Kept s0 x) => ?_) (?_ : Kept s0 x) <;> [clear_value x; subst x])
    | (extract_lets +onlyGivenNames x; refine (fun (hx : Kept s0 x.2) => ?_) (?_ : Kept s0 x.2) <;> [clear_value x; subst x])
    | (extract_lets +onlyGivenNames x; clear_value x)
    | with_reducible apply Kept.ite
    | split
    | with_reducible apply modBx_kept
    | with_reducible apply wr_kept
    | with_reducible apply setb_kept
    | with_reducible apply stopIssue_kept
    | with_reducible apply Kept.foldl
    | with_reducible apply Kept.foldl_snd
    | with_reducible apply Kept.foldl_fst
    | (with_reducible apply Kept.upd; first | with_reducible assumption | with_reducible apply modBx_kept | with_reducible apply wr_kept | with_reducible apply setb_kept | with_reducible apply stopIssue_kept | with_reducible apply Kept.foldl | with_reducible apply Kept.foldl_snd | with_reducible apply Kept.foldl_fst)

theorem stateScan_kept (s : State) (h : Kept s0 s) : Kept s0 (stateScan s) := by
  unfold stateScan
  repeat' first
    | with_reducible assumption
    | (intro x; beta_reduce)
    | (extract_lets +onlyGivenNames x; refine (fun (hx : Kept s0 x) => ?_) (?_ : Kept s0 x) <;> [clear_value x; subst x])
    | (extract_lets +onlyGivenNames x; clear_value x)
    | with_reducible apply Kept.ite
    | split
    | with_reducible apply loseBuckets_kept

theorem momentReads_kept (b : Nat) (s : State) (h : Kept s0 s) : Kept s0 (momentReads b s) := by
  unfold momentReads
  repeat' first
    | with_reducible assumption
    | (intro x; beta_reduce)
    | with_reducible apply partReport_kept
    | with_reducible apply Kept.foldl
    | with_reducible apply Kept.foldl_snd
    | with_reducible apply Kept.foldl_fst

theorem crcCommit_kept (e : Nat) (s : State) (h : Kept s0 s) : Kept s0 (crcCommit e s) := by
  unfold crcCommit
  repeat' first
    | with_reducible assumption
    | (intro x; beta_reduce)
    | (extract_lets +onlyGivenNames x; refine (fun (hx : Kept s0 x) => ?_) (?_ : Kept s0 x) <;> [clear_value x; subst x])
    | (extract_lets +onlyGivenNames x; refine (fun (hx : Kept s0 x.2) => ?_) (?_ : Kept s0 x.2) <;> [clear_value x; subst x])
    | (extract_lets +onlyGivenNames x; clear_value x)
    | with_reducible apply Kept.ite
    | split
    | with_reducible apply sat_kept
    | with_reducible apply modBx_kept
    | with_reducible apply Kept.foldl
    | with_reducible apply Kept.foldl_snd
    | with_reducible apply Kept.foldl_fst
    | (with_reducible apply Kept.upd; first | with_reducible assumption | with_reducible apply sat_kept | with_reducible apply modBx_kept | with_reducible apply Kept.foldl | with_reducible apply Kept.foldl_snd | with_reducible apply Kept.foldl_fst)

theorem crcCompare_kept (b : Nat) (s : State) (h : Kept s0 s) : Kept s0 (crcCompare b s) := by
  unfold crcCompare
  repeat' first
    | with_reducible assumption
    | (intro x; beta_reduce)
    | (extract_lets +onlyGivenNames x; refine (fun (hx : Kept s0 x) => ?_) (?_ : Kept s0 x) <;> [clear_value x; subst x])
    | (extract_lets +onlyGivenNames x; refine (fun (hx : Kept s0 x.2) => ?_) (?_ : Kept s0 x.2) <;> [clear_value x; subst x])
    | (extract_lets +onlyGivenNames x; clear_value x)
    | with_reducible apply Kept.ite
    | split
    | with_reducible apply modBx_kept
    | with_reducible apply sat_kept
    | with_reducible apply setb_kept
    | with_reducible apply freshCellar_kept
    | (with_reducible apply Kept.upd; first | with_reducible assumption | with_reducible apply modBx_kept | with_reducible apply sat_kept | with_reducible apply setb_kept | with_reducible apply freshCellar_kept)

theorem crcComputeDone_kept (s : State) (h : Kept s0 s) : Kept s0 (crcComputeDone s) := by
  unfold crcComputeDone
  repeat' first
    | with_reducible assumption
    | (intro x; beta_reduce)
    | (extract_lets +onlyGivenNames x; refine (fun (hx : Kept s0 x) => ?_) (?_ : Kept s0 x) <;> [clear_value x; subst x])
    | (extract_lets +onlyGivenNames x; refine (fun (hx : Kept s0 x.2) => ?_) (?_ : Kept s0 x.2) <;> [clear_value x; subst x])
    | (extract_lets +onlyGivenNames x; clear_value x)
    | with_reducible apply cellarStruck_kept
    | with_reducible apply momentReads_kept
    | with_reducible apply modBx_kept
    | with_reducible apply sendReliable_kept
    | with_reducible apply crcCompare_kept
    | with_reducible apply Kept.foldl
    | with_reducible apply Kept.foldl_snd
    | with_reducible apply Kept.foldl_fst
    | refine Kept.snd (by with_reducible assumption) ?_
    | (with_reducible apply Kept.upd; first | with_reducible assumption | with_reducible apply cellarStruck_kept | with_reducible apply momentReads_kept | with_reducible apply modBx_kept | with_reducible apply sendReliable_kept | with_reducible apply crcCompare_kept | with_reducible apply Kept.foldl | with_reducible apply Kept.foldl_snd | with_reducible apply Kept.foldl_fst | refine Kept.snd (by with_reducible assumption) ?_)

theorem shelfReads_kept (s : State) (h : Kept s0 s) : Kept s0 (shelfReads s) := by
  unfold shelfReads
  repeat' first
    | with_reducible assumption
    | (intro x; beta_reduce)
    | with_reducible apply partReport_kept
    | with_reducible apply Kept.foldl
    | with_reducible apply Kept.foldl_snd
    | with_reducible apply Kept.foldl_fst

theorem refreshStaging_kept (s : State) (h : Kept s0 s) : Kept s0 (refreshStaging s) := by
  unfold refreshStaging
  repeat' first
    | with_reducible assumption
    | (intro x; beta_reduce)
    | with_reducible apply setb_kept

theorem shelfCommit_kept (e : Nat) (s : State) (h : Kept s0 s) : Kept s0 (shelfCommit e s) := by
  unfold shelfCommit
  repeat' first
    | with_reducible assumption
    | (intro x; beta_reduce)
    | (extract_lets +onlyGivenNames x; refine (fun (hx : Kept s0 x) => ?_) (?_ : Kept s0 x) <;> [clear_value x; subst x])
    | (extract_lets +onlyGivenNames x; clear_value x)
    | with_reducible apply Kept.ite
    | split
    | with_reducible apply sat_kept
    | with_reducible apply refreshStaging_kept
    | with_reducible apply modJob_kept
    | (with_reducible apply Kept.upd; first | with_reducible assumption | with_reducible apply sat_kept | with_reducible apply refreshStaging_kept | with_reducible apply modJob_kept)

theorem setShelfEpoch_kept (k e : Nat) (s : State) (h : Kept s0 s) : Kept s0 (setShelfEpoch k e s) := by
  unfold setShelfEpoch
  repeat' first
    | with_reducible assumption
    | (intro x; beta_reduce)
    | with_reducible apply Kept.ite
    | split
    | with_reducible apply wr_kept

theorem showSlots_kept (s : State) (h : Kept s0 s) : Kept s0 (showSlots s) := by
  unfold showSlots
  repeat' first
    | with_reducible assumption
    | (intro x; beta_reduce)
    | with_reducible apply setShelfEpoch_kept
    | with_reducible apply Kept.foldl
    | with_reducible apply Kept.foldl_snd
    | with_reducible apply Kept.foldl_fst

theorem shelfFail_kept (s : State) (h : Kept s0 s) : Kept s0 (shelfFail s) := by
  unfold shelfFail
  repeat' first
    | with_reducible assumption
    | (intro x; beta_reduce)
    | with_reducible apply refreshStaging_kept
    | with_reducible apply setb_kept
    | with_reducible apply modJob_kept
    | (with_reducible apply Kept.upd; first | with_reducible assumption | with_reducible apply refreshStaging_kept | with_reducible apply setb_kept | with_reducible apply modJob_kept)

theorem shelfStagingDone_kept (s : State) (h : Kept s0 s) : Kept s0 (shelfStagingDone s) := by
  unfold shelfStagingDone
  repeat' first
    | with_reducible assumption
    | (intro x; beta_reduce)
    | (extract_lets +onlyGivenNames x; refine (fun (hx : Kept s0 x) => ?_) (?_ : Kept s0 x) <;> [clear_value x; subst x])
    | (extract_lets +onlyGivenNames x; refine (fun (hx : Kept s0 x.2) => ?_) (?_ : Kept s0 x.2) <;> [clear_value x; subst x])
    | (extract_lets +onlyGivenNames x; clear_value x)
    | with_reducible apply Kept.ite
    | split
    | with_reducible apply storePoisoned_kept
    | with_reducible apply shelfReads_kept
    | with_reducible apply setb_kept
    | with_reducible apply wr_kept
    | with_reducible apply modJob_kept
    | with_reducible apply castVote_kept
    | with_reducible apply setShelfEpoch_kept
    | with_reducible apply refreshStaging_kept
    | with_reducible apply driveImage_kept
    | with_reducible apply shelfFail_kept
    | (with_reducible apply Kept.upd; first | with_reducible assumption | with_reducible apply storePoisoned_kept | with_reducible apply shelfReads_kept | with_reducible apply setb_kept | with_reducible apply wr_kept | with_reducible apply modJob_kept | with_reducible apply castVote_kept | with_reducible apply setShelfEpoch_kept | with_reducible apply refreshStaging_kept | with_reducible apply driveImage_kept | with_reducible apply shelfFail_kept)

theorem shelfWriteDone_kept (ok : Bool) (s : State) (h : Kept s0 s) : Kept s0 (shelfWriteDone ok s) := by
  unfold shelfWriteDone
  repeat' first
    | with_reducible assumption
    | (intro x; beta_reduce)
    | (extract_lets +onlyGivenNames x; refine (fun (hx : Kept s0 x) => ?_) (?_ : Kept s0 x) <;> [clear_value x; subst x])
    | (extract_lets +onlyGivenNames x; refine (fun (hx : Kept s0 x.2) => ?_) (?_ : Kept s0 x.2) <;> [clear_value x; subst x])
    | (extract_lets +onlyGivenNames x; clear_value x)
    | with_reducible apply Kept.ite
    | split
    | with_reducible apply modJob_kept
    | with_reducible apply refreshStaging_kept
    | with_reducible apply sat_kept
    | with_reducible apply showSlots_kept
    | with_reducible apply shelfFail_kept
    | with_reducible apply Kept.foldl
    | with_reducible apply Kept.foldl_snd
    | with_reducible apply Kept.foldl_fst
    | (with_reducible apply Kept.upd; first | with_reducible assumption | with_reducible apply modJob_kept | with_reducible apply refreshStaging_kept | with_reducible apply sat_kept | with_reducible apply showSlots_kept | with_reducible apply shelfFail_kept | with_reducible apply Kept.foldl | with_reducible apply Kept.foldl_snd | with_reducible apply Kept.foldl_fst)

theorem storeAck_kept (s : State) (h : Kept s0 s) : Kept s0 (storeAck s) := by
  unfold storeAck
  repeat' first
    | with_reducible assumption
    | (intro x; beta_reduce)
    | with_reducible apply refreshStaging_kept
    | with_reducible apply setb_kept

theorem flipUpdated_kept (s : State) (h : Kept s0 s) : Kept s0 (flipUpdated s) := by
  unfold flipUpdated
  repeat' first
    | with_reducible assumption
    | (intro x; beta_reduce)
    | (extract_lets +onlyGivenNames x; refine (fun (hx : Kept s0 x) => ?_) (?_ : Kept s0 x) <;> [clear_value x; subst x])
    | (extract_lets +onlyGivenNames x; refine (fun (hx : Kept s0 x.2) => ?_) (?_ : Kept s0 x.2) <;> [clear_value x; subst x])
    | (extract_lets +onlyGivenNames x; clear_value x)
    | with_reducible apply Kept.ite
    | split
    | with_reducible apply Kept.foldl
    | with_reducible apply Kept.foldl_snd
    | with_reducible apply Kept.foldl_fst
    | (with_reducible apply Kept.upd; first | with_reducible assumption | with_reducible apply Kept.foldl | with_reducible apply Kept.foldl_snd | with_reducible apply Kept.foldl_fst)

theorem swapPlanes_kept (b : Nat) (s : State) (h : Kept s0 s) : Kept s0 (swapPlanes b s) := by
  unfold swapPlanes
  repeat' first
    | with_reducible assumption
    | (intro x; beta_reduce)
    | with_reducible apply copyPlane_kept
    | with_reducible apply modBx_kept
    | (with_reducible apply Kept.upd; first | with_reducible assumption | with_reducible apply copyPlane_kept | with_reducible apply modBx_kept)

theorem stopDrift_kept (s : State) (h : Kept s0 s) : Kept s0 (stopDrift s) := by
  unfold stopDrift
  repeat' first
    | with_reducible assumption
    | (intro x; beta_reduce)
    | (with_reducible apply Kept.upd; first | with_reducible assumption)

theorem freshStep_kept (s : State) (h : Kept s0 s) : Kept s0 (freshStep s) := by
  unfold freshStep
  repeat' first
    | with_reducible assumption
    | (intro x; beta_reduce)
    | (extract_lets +onlyGivenNames x; refine (fun (hx : Kept s0 x) => ?_) (?_ : Kept s0 x) <;> [clear_value x; subst x])
    | (extract_lets +onlyGivenNames x; clear_value x)
    | with_reducible apply modJob_kept
    | with_reducible apply setb_kept
    | with_reducible apply setVoteSent_kept
    | (with_reducible apply Kept.upd; first | with_reducible assumption | with_reducible apply modJob_kept | with_reducible apply setb_kept | with_reducible apply setVoteSent_kept)

theorem lossCommit_kept (vetoed : Bool) (s : State) (h : Kept s0 s) : Kept s0 (lossCommit vetoed s) := by
  unfold lossCommit
  repeat' first
    | with_reducible assumption
    | (intro x; beta_reduce)
    | (extract_lets +onlyGivenNames x; refine (fun (hx : Kept s0 x) => ?_) (?_ : Kept s0 x) <;> [clear_value x; subst x])
    | (extract_lets +onlyGivenNames x; refine (fun (hx : Kept s0 x.2) => ?_) (?_ : Kept s0 x.2) <;> [clear_value x; subst x])
    | (extract_lets +onlyGivenNames x; clear_value x)
    | with_reducible apply Kept.ite
    | split
    | with_reducible apply sat_kept
    | with_reducible apply wr_kept

theorem runCommit_kept (vetoed : Bool) (s : State) (h : Kept s0 s) : Kept s0 (runCommit vetoed s) := by
  unfold runCommit
  repeat' first
    | with_reducible assumption
    | (intro x; beta_reduce)
    | with_reducible apply Kept.ite
    | split
    | with_reducible apply refreshStarved_kept
    | with_reducible apply wr_kept
    | with_reducible apply Kept.foldl
    | with_reducible apply Kept.foldl_snd
    | with_reducible apply Kept.foldl_fst

theorem setCommitStep_kept (s : State) (h : Kept s0 s) : Kept s0 (setCommitStep s) := by
  unfold setCommitStep
  repeat' first
    | with_reducible assumption
    | (intro x; beta_reduce)
    | with_reducible apply Kept.ite
    | split
    | with_reducible apply failSet_kept
    | with_reducible apply applySet_kept
    | (with_reducible apply Kept.upd; first | with_reducible assumption | with_reducible apply failSet_kept | with_reducible apply applySet_kept)

theorem noteRebalance_kept (s : State) (h : Kept s0 s) : Kept s0 (noteRebalance s) := by
  unfold noteRebalance
  repeat' first
    | with_reducible assumption
    | (intro x; beta_reduce)
    | with_reducible apply Kept.ite
    | split
    | with_reducible apply modJob_kept
    | (with_reducible apply Kept.upd; first | with_reducible assumption | with_reducible apply modJob_kept)

theorem applyStep_kept (vetoed : Bool) (s : State) (h : Kept s0 s) : Kept s0 (applyStep vetoed s) := by
  unfold applyStep
  repeat' first
    | with_reducible assumption
    | (intro x; beta_reduce)
    | (extract_lets +onlyGivenNames x; refine (fun (hx : Kept s0 x) => ?_) (?_ : Kept s0 x) <;> [clear_value x; subst x])
    | (extract_lets +onlyGivenNames x; refine (fun (hx : Kept s0 x.2) => ?_) (?_ : Kept s0 x.2) <;> [clear_value x; subst x])
    | (extract_lets +onlyGivenNames x; clear_value x)
    | with_reducible apply Kept.ite
    | split
    | with_reducible apply setb_kept
    | with_reducible apply sat_kept
    | with_reducible apply flipUpdated_kept
    | with_reducible apply wr_kept
    | with_reducible apply swapPlanes_kept
    | with_reducible apply runCommit_kept
    | with_reducible apply lossCommit_kept
    | with_reducible apply openAll_kept
    | with_reducible apply freshStep_kept
    | with_reducible apply setCommitStep_kept
    | with_reducible apply stopDrift_kept
    | with_reducible apply larderFlushAll_kept
    | with_reducible apply crcCommit_kept
    | with_reducible apply stateScan_kept
    | with_reducible apply cellarCommit_kept
    | with_reducible apply shelfCommit_kept
    | with_reducible apply finishWalks_kept
    | with_reducible apply noteRebalance_kept
    | with_reducible apply modJob_kept
    | with_reducible apply Kept.foldl
    | with_reducible apply Kept.foldl_snd
    | with_reducible apply Kept.foldl_fst
    | (with_reducible apply Kept.upd; first | with_reducible assumption | with_reducible apply setb_kept | with_reducible apply sat_kept | with_reducible apply flipUpdated_kept | with_reducible apply wr_kept | with_reducible apply swapPlanes_kept | with_reducible apply runCommit_kept | with_reducible apply lossCommit_kept | with_reducible apply openAll_kept | with_reducible apply freshStep_kept | with_reducible apply setCommitStep_kept | with_reducible apply stopDrift_kept | with_reducible apply larderFlushAll_kept | with_reducible apply crcCommit_kept | with_reducible apply stateScan_kept | with_reducible apply cellarCommit_kept | with_reducible apply shelfCommit_kept | with_reducible apply finishWalks_kept | with_reducible apply noteRebalance_kept | with_reducible apply modJob_kept | with_reducible apply Kept.foldl | with_reducible apply Kept.foldl_snd | with_reducible apply Kept.foldl_fst)

theorem stepCommit_kept (s : State) (h : Kept s0 s) : Kept s0 (stepCommit s) := by
  unfold stepCommit
  repeat' first
    | with_reducible assumption
    | (intro x; beta_reduce)
    | with_reducible apply Kept.ite
    | split
    | with_reducible apply settle_kept
    | with_reducible apply applyStep_kept
    | with_reducible apply cellarStruck_kept
    | with_reducible apply advanceTo_kept

theorem lateCommit_kept (d : Decision) (s : State) (h : Kept s0 s) : Kept s0 (lateCommit d s) := by
  unfold lateCommit
  repeat' first
    | with_reducible assumption
    | (intro x; beta_reduce)
    | (extract_lets +onlyGivenNames x; refine (fun (hx : Kept s0 x) => ?_) (?_ : Kept s0 x) <;> [clear_value x; subst x])
    | (extract_lets +onlyGivenNames x; clear_value x)
    | with_reducible apply advanceTo_kept
    | with_reducible apply applyStep_kept
    | with_reducible apply cellarStruck_kept
    | with_reducible apply withdraw_kept
    | with_reducible apply setb_kept
    | with_reducible apply sat_kept

theorem sendStage_kept (p : PendingOp) (s : State) (h : Kept s0 s) : Kept s0 (sendStage p s) := by
  unfold sendStage
  repeat' first
    | with_reducible assumption
    | (intro x; beta_reduce)
    | with_reducible apply sendReliable_kept
    | with_reducible apply Kept.foldl
    | with_reducible apply Kept.foldl_snd
    | with_reducible apply Kept.foldl_fst
    | refine Kept.snd (by with_reducible assumption) ?_

theorem endOp_kept (p : PendingOp) (s : State) (h : Kept s0 s) : Kept s0 (endOp p s) := by
  unfold endOp
  repeat' first
    | with_reducible assumption
    | (intro x; beta_reduce)
    | (extract_lets +onlyGivenNames x; refine (fun (hx : Kept s0 x) => ?_) (?_ : Kept s0 x) <;> [clear_value x; subst x])
    | (extract_lets +onlyGivenNames x; clear_value x)
    | with_reducible apply Kept.ite
    | split
    | with_reducible apply completeOp_kept
    | with_reducible apply sendStage_kept

end Sys2Proof.Machine
end

