-- ==== Sys2Proof/Laws/KeptMember.lean ====
section
/-! SUPPORT. What the operations of Machine/Member.lean keep of the queue, the variant and soundness: one lemma for each, cited instead of its unfolding. -/

set_option linter.unusedTactic false
set_option linter.unreachableTactic false
set_option linter.unusedVariables false

namespace Sys2Proof.Machine

open Sys2Proof

variable {s0 : State}

theorem sendPage_kept (rank dst src : Nat) (s : State) (h : Kept s0 s) : Kept s0 (sendPage rank dst src s).2 := by
  unfold sendPage
  repeat' first
    | with_reducible assumption
    | (intro x; beta_reduce)
    | (extract_lets +onlyGivenNames x; refine (fun (hx : Kept s0 x) => ?_) (?_ : Kept s0 x) <;> [clear_value x; subst x])
    | (extract_lets +onlyGivenNames x; refine (fun (hx : Kept s0 x.2) => ?_) (?_ : Kept s0 x.2) <;> [clear_value x; subst x])
    | (extract_lets +onlyGivenNames x; clear_value x)
    | with_reducible apply Kept.ite
    | split
    | with_reducible apply sendWrite_kept
    | with_reducible apply Kept.foldl
    | with_reducible apply Kept.foldl_snd
    | with_reducible apply Kept.foldl_fst
    | refine Kept.snd (by with_reducible assumption) ?_

theorem pageWalkSend_kept (b rank : Nat) (master : Bool) (first : Nat) (s : State)
    (h : Kept s0 s) : Kept s0 (pageWalkSend b rank master first s) := by
  unfold pageWalkSend
  repeat' first
    | with_reducible assumption
    | (intro x; beta_reduce)
    | (extract_lets +onlyGivenNames x; refine (fun (hx : Kept s0 x) => ?_) (?_ : Kept s0 x) <;> [clear_value x; subst x])
    | (extract_lets +onlyGivenNames x; refine (fun (hx : Kept s0 x.2) => ?_) (?_ : Kept s0 x.2) <;> [clear_value x; subst x])
    | (extract_lets +onlyGivenNames x; clear_value x)
    | with_reducible apply Kept.ite
    | split
    | with_reducible apply recellar_kept
    | with_reducible apply advanceTo_kept
    | with_reducible apply sendPage_kept
    | with_reducible apply modJob_kept
    | with_reducible apply refreshCellar_kept
    | with_reducible apply addW_kept
    | refine Kept.snd (by with_reducible assumption) ?_
    | (with_reducible apply Kept.upd; first | with_reducible assumption | with_reducible apply recellar_kept | with_reducible apply advanceTo_kept | with_reducible apply sendPage_kept | with_reducible apply modJob_kept | with_reducible apply refreshCellar_kept | with_reducible apply addW_kept | refine Kept.snd (by with_reducible assumption) ?_)

theorem pageStale_kept (serial id : Nat) (s : State) (h : Kept s0 s) : Kept s0 (pageStale serial id s) := by
  unfold pageStale
  repeat' first
    | with_reducible assumption
    | (intro x; beta_reduce)
    | (extract_lets +onlyGivenNames x; refine (fun (hx : Kept s0 x) => ?_) (?_ : Kept s0 x) <;> [clear_value x; subst x])
    | (extract_lets +onlyGivenNames x; refine (fun (hx : Kept s0 x.2) => ?_) (?_ : Kept s0 x.2) <;> [clear_value x; subst x])
    | (extract_lets +onlyGivenNames x; clear_value x)
    | with_reducible apply Kept.ite
    | split
    | with_reducible apply refreshCellar_kept
    | with_reducible apply modJob_kept
    | (with_reducible apply Kept.upd; first | with_reducible assumption | with_reducible apply refreshCellar_kept | with_reducible apply modJob_kept)

theorem viewFields_kept (v : PendingView) (me : ViewEntry) (s : State)
    (h : Kept s0 s) : Kept s0 (viewFields v me s) := by
  unfold viewFields
  repeat' first
    | with_reducible assumption
    | (intro x; beta_reduce)
    | (extract_lets +onlyGivenNames x; refine (fun (hx : Kept s0 x) => ?_) (?_ : Kept s0 x) <;> [clear_value x; subst x])
    | (extract_lets +onlyGivenNames x; refine (fun (hx : Kept s0 x.2) => ?_) (?_ : Kept s0 x.2) <;> [clear_value x; subst x])
    | (extract_lets +onlyGivenNames x; clear_value x)
    | with_reducible apply Kept.ite
    | split
    | with_reducible apply modJob_kept
    | with_reducible apply wr_kept
    | with_reducible apply setb_kept
    | with_reducible apply Kept.foldl
    | with_reducible apply Kept.foldl_snd
    | with_reducible apply Kept.foldl_fst
    | (with_reducible apply Kept.upd; first | with_reducible assumption | with_reducible apply modJob_kept | with_reducible apply wr_kept | with_reducible apply setb_kept | with_reducible apply Kept.foldl | with_reducible apply Kept.foldl_snd | with_reducible apply Kept.foldl_fst)

theorem setOwner_kept (b owner partner : Nat) (s : State) (h : Kept s0 s) : Kept s0 (setOwner b owner partner s) := by
  unfold setOwner
  repeat' first
    | with_reducible assumption
    | (intro x; beta_reduce)
    | (extract_lets +onlyGivenNames x; refine (fun (hx : Kept s0 x) => ?_) (?_ : Kept s0 x) <;> [clear_value x; subst x])
    | (extract_lets +onlyGivenNames x; clear_value x)
    | with_reducible apply storeMem_kept
    | with_reducible apply modJob_kept
    | (with_reducible apply Kept.upd; first | with_reducible assumption | with_reducible apply storeMem_kept | with_reducible apply modJob_kept)

theorem dropSerials_kept (s : State) (h : Kept s0 s) : Kept s0 (dropSerials s) := by
  unfold dropSerials
  repeat' first
    | with_reducible assumption
    | (intro x; beta_reduce)
    | (extract_lets +onlyGivenNames x; refine (fun (hx : Kept s0 x) => ?_) (?_ : Kept s0 x) <;> [clear_value x; subst x])
    | (extract_lets +onlyGivenNames x; clear_value x)
    | with_reducible apply Kept.ite
    | split
    | with_reducible apply dropAwaits_kept
    | with_reducible apply modJob_kept
    | (with_reducible apply Kept.upd; first | with_reducible assumption | with_reducible apply dropAwaits_kept | with_reducible apply modJob_kept)

theorem joinZero_kept (s : State) (h : Kept s0 s) : Kept s0 (joinZero s) := by
  unfold joinZero
  repeat' first
    | with_reducible assumption
    | (intro x; beta_reduce)
    | (extract_lets +onlyGivenNames x; refine (fun (hx : Kept s0 x) => ?_) (?_ : Kept s0 x) <;> [clear_value x; subst x])
    | (extract_lets +onlyGivenNames x; clear_value x)
    | with_reducible apply zeroPages_kept

theorem rebuildOpen_kept (b : Nat) (gone : List Nat) (s : State)
    (h : Kept s0 s) : Kept s0 (rebuildOpen b gone s) := by
  unfold rebuildOpen
  repeat' first
    | with_reducible assumption
    | (intro x; beta_reduce)
    | (extract_lets +onlyGivenNames x; refine (fun (hx : Kept s0 x) => ?_) (?_ : Kept s0 x) <;> [clear_value x; subst x])
    | (extract_lets +onlyGivenNames x; refine (fun (hx : Kept s0 x.2) => ?_) (?_ : Kept s0 x.2) <;> [clear_value x; subst x])
    | (extract_lets +onlyGivenNames x; clear_value x)
    | with_reducible apply Kept.ite
    | split
    | with_reducible apply exchangeLog_kept
    | with_reducible apply sat_kept
    | with_reducible apply zeroAcc_kept
    | with_reducible apply modBx_kept
    | with_reducible apply pullFirst_kept
    | with_reducible apply resendOwn_kept
    | with_reducible apply Kept.foldl
    | with_reducible apply Kept.foldl_snd
    | with_reducible apply Kept.foldl_fst
    | (with_reducible apply Kept.upd; first | with_reducible assumption | with_reducible apply exchangeLog_kept | with_reducible apply sat_kept | with_reducible apply zeroAcc_kept | with_reducible apply modBx_kept | with_reducible apply pullFirst_kept | with_reducible apply resendOwn_kept | with_reducible apply Kept.foldl | with_reducible apply Kept.foldl_snd | with_reducible apply Kept.foldl_fst)

theorem ownerStays_kept (b : Nat) (gone : List Nat) (s : State) (h : Kept s0 s) : Kept s0 (ownerStays b gone s) := by
  unfold ownerStays
  repeat' first
    | with_reducible assumption
    | (intro x; beta_reduce)
    | (extract_lets +onlyGivenNames x; refine (fun (hx : Kept s0 x) => ?_) (?_ : Kept s0 x) <;> [clear_value x; subst x])
    | (extract_lets +onlyGivenNames x; refine (fun (hx : Kept s0 x.2) => ?_) (?_ : Kept s0 x.2) <;> [clear_value x; subst x])
    | (extract_lets +onlyGivenNames x; clear_value x)
    | with_reducible apply Kept.ite
    | split
    | with_reducible apply modBx_kept
    | with_reducible apply rebuild_kept
    | with_reducible apply sendShard_kept
    | with_reducible apply rebuildOpen_kept
    | with_reducible apply tryClose_kept
    | (with_reducible apply Kept.upd; first | with_reducible assumption | with_reducible apply modBx_kept | with_reducible apply rebuild_kept | with_reducible apply sendShard_kept | with_reducible apply rebuildOpen_kept | with_reducible apply tryClose_kept)

theorem rollForward_kept (b : Nat) (s : State) (h : Kept s0 s) : Kept s0 (rollForward b s) := by
  unfold rollForward
  repeat' first
    | with_reducible assumption
    | (intro x; beta_reduce)
    | (extract_lets +onlyGivenNames x; refine (fun (hx : Kept s0 x) => ?_) (?_ : Kept s0 x) <;> [clear_value x; subst x])
    | (extract_lets +onlyGivenNames x; clear_value x)
    | with_reducible apply Kept.ite
    | split
    | with_reducible apply modBx_kept
    | with_reducible apply rebuild_kept
    | with_reducible apply resendOwn_kept
    | with_reducible apply zeroAcc_kept
    | (with_reducible apply Kept.upd; first | with_reducible assumption | with_reducible apply modBx_kept | with_reducible apply rebuild_kept | with_reducible apply resendOwn_kept | with_reducible apply zeroAcc_kept)

theorem replayDeltas_kept (b : Nat) (s : State) (h : Kept s0 s) : Kept s0 (replayDeltas b s) := by
  unfold replayDeltas
  repeat' first
    | with_reducible assumption
    | (intro x; beta_reduce)
    | (extract_lets +onlyGivenNames x; refine (fun (hx : Kept s0 x) => ?_) (?_ : Kept s0 x) <;> [clear_value x; subst x])
    | (extract_lets +onlyGivenNames x; refine (fun (hx : Kept s0 x.2) => ?_) (?_ : Kept s0 x.2) <;> [clear_value x; subst x])
    | (extract_lets +onlyGivenNames x; clear_value x)
    | with_reducible apply Kept.ite
    | split
    | with_reducible apply modJob_kept
    | with_reducible apply ownDeltas_kept
    | with_reducible apply Kept.foldl
    | with_reducible apply Kept.foldl_snd
    | with_reducible apply Kept.foldl_fst
    | (with_reducible apply Kept.upd; first | with_reducible assumption | with_reducible apply modJob_kept | with_reducible apply ownDeltas_kept | with_reducible apply Kept.foldl | with_reducible apply Kept.foldl_snd | with_reducible apply Kept.foldl_fst)

theorem rollDeltas_kept (b : Nat) (s : State) (h : Kept s0 s) : Kept s0 (rollDeltas b s) := by
  unfold rollDeltas
  repeat' first
    | with_reducible assumption
    | (intro x; beta_reduce)
    | (extract_lets +onlyGivenNames x; refine (fun (hx : Kept s0 x) => ?_) (?_ : Kept s0 x) <;> [clear_value x; subst x])
    | (extract_lets +onlyGivenNames x; refine (fun (hx : Kept s0 x.2) => ?_) (?_ : Kept s0 x.2) <;> [clear_value x; subst x])
    | (extract_lets +onlyGivenNames x; clear_value x)
    | with_reducible apply Kept.ite
    | split
    | with_reducible apply setIncluded_kept
    | with_reducible apply modBx_kept
    | with_reducible apply sendNotice_kept
    | with_reducible apply shardOut_kept
    | with_reducible apply flushDeltas_kept
    | with_reducible apply replayDeltas_kept
    | (with_reducible apply Kept.upd; first | with_reducible assumption | with_reducible apply setIncluded_kept | with_reducible apply modBx_kept | with_reducible apply sendNotice_kept | with_reducible apply shardOut_kept | with_reducible apply flushDeltas_kept | with_reducible apply replayDeltas_kept)

theorem stepBucket_kept (b old : Nat) (gone : List Nat) (s : State)
    (h : Kept s0 s) : Kept s0 (stepBucket b old gone s) := by
  unfold stepBucket
  repeat' first
    | with_reducible assumption
    | (intro x; beta_reduce)
    | (extract_lets +onlyGivenNames x; refine (fun (hx : Kept s0 x) => ?_) (?_ : Kept s0 x) <;> [clear_value x; subst x])
    | (extract_lets +onlyGivenNames x; clear_value x)
    | with_reducible apply Kept.ite
    | split
    | with_reducible apply modJob_kept
    | with_reducible apply ownerStays_kept
    | with_reducible apply rollDeltas_kept
    | with_reducible apply rollForward_kept
    | with_reducible apply resendOwn_kept
    | (with_reducible apply Kept.upd; first | with_reducible assumption | with_reducible apply modJob_kept | with_reducible apply ownerStays_kept | with_reducible apply rollDeltas_kept | with_reducible apply rollForward_kept | with_reducible apply resendOwn_kept)

theorem moveVotes_kept (leader : Nat) (s : State) (h : Kept s0 s) : Kept s0 (moveVotes leader s) := by
  unfold moveVotes
  repeat' first
    | with_reducible assumption
    | (intro x; beta_reduce)
    | (extract_lets +onlyGivenNames x; refine (fun (hx : Kept s0 x) => ?_) (?_ : Kept s0 x) <;> [clear_value x; subst x])
    | (extract_lets +onlyGivenNames x; clear_value x)
    | with_reducible apply Kept.ite
    | split
    | with_reducible apply modJob_kept
    | with_reducible apply tryDecide_kept
    | with_reducible apply sendVote_kept
    | (with_reducible apply Kept.upd; first | with_reducible assumption | with_reducible apply modJob_kept | with_reducible apply tryDecide_kept | with_reducible apply sendVote_kept)

theorem deriveOwners_kept (v : PendingView) (s : State) (h : Kept s0 s) : Kept s0 (deriveOwners v s) := by
  unfold deriveOwners
  repeat' first
    | with_reducible assumption
    | (intro x; beta_reduce)
    | (extract_lets +onlyGivenNames x; refine (fun (hx : Kept s0 x) => ?_) (?_ : Kept s0 x) <;> [clear_value x; subst x])
    | (extract_lets +onlyGivenNames x; refine (fun (hx : Kept s0 x.2) => ?_) (?_ : Kept s0 x.2) <;> [clear_value x; subst x])
    | (extract_lets +onlyGivenNames x; clear_value x)
    | with_reducible apply Kept.ite
    | split
    | with_reducible apply setOwner_kept
    | with_reducible apply Kept.foldl
    | with_reducible apply Kept.foldl_snd
    | with_reducible apply Kept.foldl_fst

theorem moveBucket_kept (b old : Nat) (s : State) (h : Kept s0 s) : Kept s0 (moveBucket b old s) := by
  unfold moveBucket
  repeat' first
    | with_reducible assumption
    | (intro x; beta_reduce)
    | (extract_lets +onlyGivenNames x; refine (fun (hx : Kept s0 x) => ?_) (?_ : Kept s0 x) <;> [clear_value x; subst x])
    | (extract_lets +onlyGivenNames x; clear_value x)
    | with_reducible apply Kept.ite
    | split
    | with_reducible apply modBx_kept
    | with_reducible apply zeroAcc_kept
    | (with_reducible apply Kept.upd; first | with_reducible assumption | with_reducible apply modBx_kept | with_reducible apply zeroAcc_kept)

theorem cellarWalks_kept (b : Nat) (old : Nat × Nat) (was : Bool) (joined : List Nat) (s : State)
    (h : Kept s0 s) : Kept s0 (cellarWalks b old was joined s) := by
  unfold cellarWalks
  repeat' first
    | with_reducible assumption
    | (intro x; beta_reduce)
    | (extract_lets +onlyGivenNames x; refine (fun (hx : Kept s0 x) => ?_) (?_ : Kept s0 x) <;> [clear_value x; subst x])
    | (extract_lets +onlyGivenNames x; refine (fun (hx : Kept s0 x.2) => ?_) (?_ : Kept s0 x.2) <;> [clear_value x; subst x])
    | (extract_lets +onlyGivenNames x; clear_value x)
    | with_reducible apply Kept.ite
    | split
    | with_reducible apply newPartner_kept
    | with_reducible apply modBx_kept
    | with_reducible apply recellar_kept
    | with_reducible apply startWalk_kept
    | with_reducible apply Kept.foldl
    | with_reducible apply Kept.foldl_snd
    | with_reducible apply Kept.foldl_fst
    | (with_reducible apply Kept.upd; first | with_reducible assumption | with_reducible apply newPartner_kept | with_reducible apply modBx_kept | with_reducible apply recellar_kept | with_reducible apply startWalk_kept | with_reducible apply Kept.foldl | with_reducible apply Kept.foldl_snd | with_reducible apply Kept.foldl_fst)

theorem dropWalks_kept (s : State) (h : Kept s0 s) : Kept s0 (dropWalks s) := by
  unfold dropWalks
  repeat' first
    | with_reducible assumption
    | (intro x; beta_reduce)
    | (extract_lets +onlyGivenNames x; refine (fun (hx : Kept s0 x) => ?_) (?_ : Kept s0 x) <;> [clear_value x; subst x])
    | (extract_lets +onlyGivenNames x; clear_value x)
    | with_reducible apply refreshCellar_kept
    | with_reducible apply modJob_kept
    | (with_reducible apply Kept.upd; first | with_reducible assumption | with_reducible apply refreshCellar_kept | with_reducible apply modJob_kept)

theorem noteLost_kept (s : State) (h : Kept s0 s) : Kept s0 (noteLost s) := by
  unfold noteLost
  repeat' first
    | with_reducible assumption
    | (intro x; beta_reduce)
    | with_reducible apply loseBuckets_kept

theorem noJoin_kept (s : State) (h : Kept s0 s) : Kept s0 (noJoin s) := by
  unfold noJoin
  repeat' first
    | with_reducible assumption
    | (intro x; beta_reduce)
    | with_reducible apply withdraw_kept
    | with_reducible apply setb_kept

theorem readRecords_kept (e : Nat) (s : State) (h : Kept s0 s) : Kept s0 (readRecords e s) := by
  unfold readRecords
  repeat' first
    | with_reducible assumption
    | (intro x; beta_reduce)
    | with_reducible apply Kept.ite
    | split
    | with_reducible apply driveReadImage_kept

theorem sendBytes_kept (rank addr : Nat) (bytes : List Byte) (s : State)
    (h : Kept s0 s) : Kept s0 (sendBytes rank addr bytes s) := by
  unfold sendBytes
  repeat' first
    | with_reducible assumption
    | (intro x; beta_reduce)
    | with_reducible apply sendReliable_kept
    | with_reducible apply Kept.foldl
    | with_reducible apply Kept.foldl_snd
    | with_reducible apply Kept.foldl_fst
    | refine Kept.snd (by with_reducible assumption) ?_

theorem sendRecord_kept (b : Nat) (planes : List Byte) (s : State)
    (h : Kept s0 s) : Kept s0 (sendRecord b planes s) := by
  unfold sendRecord
  repeat' first
    | with_reducible assumption
    | (intro x; beta_reduce)
    | (extract_lets +onlyGivenNames x; refine (fun (hx : Kept s0 x) => ?_) (?_ : Kept s0 x) <;> [clear_value x; subst x])
    | (extract_lets +onlyGivenNames x; refine (fun (hx : Kept s0 x.2) => ?_) (?_ : Kept s0 x.2) <;> [clear_value x; subst x])
    | (extract_lets +onlyGivenNames x; clear_value x)
    | with_reducible apply Kept.ite
    | split
    | with_reducible apply free_kept
    | with_reducible apply sendBytes_kept
    | with_reducible apply Kept.foldl
    | with_reducible apply Kept.foldl_snd
    | with_reducible apply Kept.foldl_fst
    | refine Kept.snd (by with_reducible assumption) ?_

theorem shelfSend_kept (e : Nat) (s : State) (h : Kept s0 s) : Kept s0 (shelfSend e s) := by
  unfold shelfSend
  repeat' first
    | with_reducible assumption
    | (intro x; beta_reduce)
    | with_reducible apply Kept.ite
    | split
    | with_reducible apply sendRecord_kept
    | with_reducible apply readRecords_kept
    | with_reducible apply Kept.foldl
    | with_reducible apply Kept.foldl_snd
    | with_reducible apply Kept.foldl_fst

theorem applyView_kept (v : PendingView) (me : ViewEntry) (s : State)
    (h : Kept s0 s) : Kept s0 (applyView v me s) := by
  unfold applyView
  repeat' first
    | with_reducible assumption
    | (intro x; beta_reduce)
    | (extract_lets +onlyGivenNames x; refine (fun (hx : Kept s0 x) => ?_) (?_ : Kept s0 x) <;> [clear_value x; subst x])
    | (extract_lets +onlyGivenNames x; refine (fun (hx : Kept s0 x.2) => ?_) (?_ : Kept s0 x.2) <;> [clear_value x; subst x])
    | (extract_lets +onlyGivenNames x; clear_value x)
    | with_reducible apply Kept.ite
    | split
    | with_reducible apply cellarStruck_kept
    | with_reducible apply deriveOwners_kept
    | with_reducible apply viewFields_kept
    | with_reducible apply mixerTest_kept
    | with_reducible apply larderFlushAll_kept
    | with_reducible apply noJoin_kept
    | with_reducible apply noteLost_kept
    | with_reducible apply dropSerials_kept
    | with_reducible apply setb_kept
    | with_reducible apply moveBucket_kept
    | with_reducible apply resendOwn_kept
    | with_reducible apply stepBucket_kept
    | with_reducible apply dropWalks_kept
    | with_reducible apply shelfSend_kept
    | with_reducible apply cellarWalks_kept
    | with_reducible apply joinZero_kept
    | with_reducible apply wr_kept
    | with_reducible apply sat_kept
    | with_reducible apply setWaitExtra_kept
    | with_reducible apply settle_kept
    | with_reducible apply moveVotes_kept
    | with_reducible apply refreshCellar_kept
    | with_reducible apply refreshVeto_kept
    | with_reducible apply Kept.foldl
    | with_reducible apply Kept.foldl_snd
    | with_reducible apply Kept.foldl_fst

theorem membershipCommit_kept (s : State) (h : Kept s0 s) : Kept s0 (membershipCommit s) := by
  unfold membershipCommit
  repeat' first
    | with_reducible assumption
    | (intro x; beta_reduce)
    | (extract_lets +onlyGivenNames x; refine (fun (hx : Kept s0 x) => ?_) (?_ : Kept s0 x) <;> [clear_value x; subst x])
    | (extract_lets +onlyGivenNames x; refine (fun (hx : Kept s0 x.2) => ?_) (?_ : Kept s0 x.2) <;> [clear_value x; subst x])
    | (extract_lets +onlyGivenNames x; clear_value x)
    | with_reducible apply Kept.ite
    | split
    | with_reducible apply applyCommit_kept
    | with_reducible apply advanceTo_kept
    | with_reducible apply applyView_kept
    | with_reducible apply modJob_kept
    | (with_reducible apply Kept.upd; first | with_reducible assumption | with_reducible apply applyCommit_kept | with_reducible apply advanceTo_kept | with_reducible apply applyView_kept | with_reducible apply modJob_kept)

theorem loadBucket_kept (b : Nat) (planes : List Byte) (s : State)
    (h : Kept s0 s) : Kept s0 (loadBucket b planes s) := by
  unfold loadBucket
  repeat' first
    | with_reducible assumption
    | (intro x; beta_reduce)
    | (extract_lets +onlyGivenNames x; refine (fun (hx : Kept s0 x) => ?_) (?_ : Kept s0 x) <;> [clear_value x; subst x])
    | (extract_lets +onlyGivenNames x; refine (fun (hx : Kept s0 x.2) => ?_) (?_ : Kept s0 x.2) <;> [clear_value x; subst x])
    | (extract_lets +onlyGivenNames x; clear_value x)
    | with_reducible apply Kept.ite
    | split
    | with_reducible apply storeMem_kept
    | with_reducible apply Kept.foldl
    | with_reducible apply Kept.foldl_snd
    | with_reducible apply Kept.foldl_fst

theorem stagingLoaded_kept (s : State) (h : Kept s0 s) : Kept s0 (stagingLoaded s) := by
  unfold stagingLoaded
  repeat' first
    | with_reducible assumption
    | (intro x; beta_reduce)
    | (extract_lets +onlyGivenNames x; refine (fun (hx : Kept s0 x) => ?_) (?_ : Kept s0 x) <;> [clear_value x; subst x])
    | (extract_lets +onlyGivenNames x; refine (fun (hx : Kept s0 x.2) => ?_) (?_ : Kept s0 x.2) <;> [clear_value x; subst x])
    | (extract_lets +onlyGivenNames x; clear_value x)
    | with_reducible apply Kept.ite
    | split
    | with_reducible apply loadBucket_kept
    | with_reducible apply Kept.foldl
    | with_reducible apply Kept.foldl_snd
    | with_reducible apply Kept.foldl_fst

theorem sendMasters_kept (b : Nat) (s : State) (h : Kept s0 s) : Kept s0 (sendMasters b s) := by
  unfold sendMasters
  repeat' first
    | with_reducible assumption
    | (intro x; beta_reduce)
    | (extract_lets +onlyGivenNames x; refine (fun (hx : Kept s0 x) => ?_) (?_ : Kept s0 x) <;> [clear_value x; subst x])
    | (extract_lets +onlyGivenNames x; refine (fun (hx : Kept s0 x.2) => ?_) (?_ : Kept s0 x.2) <;> [clear_value x; subst x])
    | (extract_lets +onlyGivenNames x; clear_value x)
    | with_reducible apply sendWrite_kept
    | with_reducible apply Kept.foldl
    | with_reducible apply Kept.foldl_snd
    | with_reducible apply Kept.foldl_fst
    | refine Kept.snd (by with_reducible assumption) ?_

theorem zeroResidual_kept (b : Nat) (s : State) (h : Kept s0 s) : Kept s0 (zeroResidual b s) := by
  unfold zeroResidual
  repeat' first
    | with_reducible assumption
    | (intro x; beta_reduce)
    | (extract_lets +onlyGivenNames x; refine (fun (hx : Kept s0 x) => ?_) (?_ : Kept s0 x) <;> [clear_value x; subst x])
    | (extract_lets +onlyGivenNames x; clear_value x)
    | with_reducible apply Kept.ite
    | split
    | with_reducible apply storeMem_kept

theorem restoreDone_kept (loads : List (Nat × List Byte)) (s : State)
    (h : Kept s0 s) : Kept s0 (restoreDone loads s) := by
  unfold restoreDone
  repeat' first
    | with_reducible assumption
    | (intro x; beta_reduce)
    | (extract_lets +onlyGivenNames x; refine (fun (hx : Kept s0 x) => ?_) (?_ : Kept s0 x) <;> [clear_value x; subst x])
    | (extract_lets +onlyGivenNames x; refine (fun (hx : Kept s0 x.2) => ?_) (?_ : Kept s0 x.2) <;> [clear_value x; subst x])
    | (extract_lets +onlyGivenNames x; clear_value x)
    | with_reducible apply Kept.ite
    | split
    | with_reducible apply readRecords_kept
    | with_reducible apply loadBucket_kept
    | with_reducible apply sendMasters_kept
    | with_reducible apply wr_kept
    | with_reducible apply zeroResidual_kept
    | with_reducible apply modBx_kept
    | with_reducible apply openAll_kept
    | with_reducible apply freshStep_kept
    | with_reducible apply modJob_kept
    | with_reducible apply setb_kept
    | with_reducible apply newPartner_kept
    | with_reducible apply recellar_kept
    | with_reducible apply refreshCellar_kept
    | with_reducible apply Kept.foldl
    | with_reducible apply Kept.foldl_snd
    | with_reducible apply Kept.foldl_fst
    | (with_reducible apply Kept.upd; first | with_reducible assumption | with_reducible apply readRecords_kept | with_reducible apply loadBucket_kept | with_reducible apply sendMasters_kept | with_reducible apply wr_kept | with_reducible apply zeroResidual_kept | with_reducible apply modBx_kept | with_reducible apply openAll_kept | with_reducible apply freshStep_kept | with_reducible apply modJob_kept | with_reducible apply setb_kept | with_reducible apply newPartner_kept | with_reducible apply recellar_kept | with_reducible apply refreshCellar_kept | with_reducible apply Kept.foldl | with_reducible apply Kept.foldl_snd | with_reducible apply Kept.foldl_fst)

end Sys2Proof.Machine
end

