-- ==== Sys2Proof/Laws/KeptPtp.lean ====
section
/-! SUPPORT. What the operations of Machine/Ptp.lean keep of the queue, the variant and soundness: one lemma for each, cited instead of its unfolding. -/

set_option linter.unusedTactic false
set_option linter.unreachableTactic false
set_option linter.unusedVariables false

namespace Sys2Proof.Machine

open Sys2Proof

variable {s0 : State}

theorem stepTime_kept (units : Int) (s : State) (h : Kept s0 s) : Kept s0 (stepTime units s) := by
  unfold stepTime
  apply setb_kept
  exact (advanceTo_kept ((s.core / 4 + 1) * 4) _ h).timed rfl rfl rfl rfl (by
    show (((_ : Int) + units) % 2 ^ 96).toNat < 2 ^ 96
    omega)

theorem stepNs_kept (amount : Int) (s : State) (h : Kept s0 s) : Kept s0 (stepNs amount s) := by
  unfold stepNs
  repeat' first
    | with_reducible assumption
    | (intro x; beta_reduce)
    | with_reducible apply Kept.ite
    | split
    | with_reducible apply stepTime_kept

theorem latchTime_kept (s : State) (h : Kept s0 s) : Kept s0 (latchTime s) := by
  unfold latchTime
  repeat' first
    | with_reducible assumption
    | (intro x; beta_reduce)
    | with_reducible apply wr_kept

theorem timeNsRead_kept (s : State) (h : Kept s0 s) : Kept s0 (timeNsRead s) := by
  unfold timeNsRead
  repeat' first
    | with_reducible assumption
    | (intro x; beta_reduce)
    | with_reducible apply Kept.ite
    | split
    | with_reducible apply emit_kept
    | with_reducible apply latchTime_kept

theorem portsReady_kept (s : State) (h : Kept s0 s) : Kept s0 (portsReady s) := by
  unfold portsReady
  repeat' first
    | with_reducible assumption
    | (intro x; beta_reduce)
    | with_reducible apply portReady_kept
    | with_reducible apply Kept.foldl
    | with_reducible apply Kept.foldl_snd
    | with_reducible apply Kept.foldl_fst

theorem lockLost_kept (s : State) (h : Kept s0 s) : Kept s0 (lockLost s) := by
  unfold lockLost
  repeat' first
    | with_reducible assumption
    | (intro x; beta_reduce)
    | (extract_lets +onlyGivenNames x; refine (fun (hx : Kept s0 x) => ?_) (?_ : Kept s0 x) <;> [clear_value x; subst x])
    | (extract_lets +onlyGivenNames x; clear_value x)
    | with_reducible apply Kept.ite
    | split
    | with_reducible apply setb_kept
    | with_reducible apply sat_kept
    | with_reducible apply wr_kept

theorem lockWon_kept (s : State) (h : Kept s0 s) : Kept s0 (lockWon s) := by
  unfold lockWon
  repeat' first
    | with_reducible assumption
    | (intro x; beta_reduce)
    | (extract_lets +onlyGivenNames x; refine (fun (hx : Kept s0 x) => ?_) (?_ : Kept s0 x) <;> [clear_value x; subst x])
    | (extract_lets +onlyGivenNames x; clear_value x)
    | with_reducible apply Kept.ite
    | split
    | with_reducible apply setb_kept
    | with_reducible apply portsReady_kept
    | with_reducible apply wr_kept
    | (with_reducible apply Kept.upd; first | with_reducible assumption | with_reducible apply setb_kept | with_reducible apply portsReady_kept | with_reducible apply wr_kept)

theorem judgeOffset_kept (off : Rat) (s : State) (h : Kept s0 s) : Kept s0 (judgeOffset off s).2 := by
  unfold judgeOffset
  repeat' first
    | with_reducible assumption
    | (intro x; beta_reduce)
    | (extract_lets +onlyGivenNames x; refine (fun (hx : Kept s0 x) => ?_) (?_ : Kept s0 x) <;> [clear_value x; subst x])
    | (extract_lets +onlyGivenNames x; clear_value x)
    | with_reducible apply Kept.ite
    | split
    | with_reducible apply lockWon_kept
    | with_reducible apply lockLost_kept
    | (with_reducible apply Kept.upd; first | with_reducible assumption | with_reducible apply lockWon_kept | with_reducible apply lockLost_kept)

theorem servoStep_kept (e : Rat) (hold : Bool) (s : State) (h : Kept s0 s) : Kept s0 (servoStep e hold s) := by
  unfold servoStep
  repeat' first
    | with_reducible assumption
    | (intro x; beta_reduce)
    | (extract_lets +onlyGivenNames x; refine (fun (hx : Kept s0 x) => ?_) (?_ : Kept s0 x) <;> [clear_value x; subst x])
    | (extract_lets +onlyGivenNames x; clear_value x)
    | with_reducible apply Kept.ite
    | split
    | with_reducible apply wr_kept
    | (with_reducible apply Kept.upd; first | with_reducible assumption | with_reducible apply wr_kept)

theorem servo_kept (t1 t2 : Int) (s : State) (h : Kept s0 s) : Kept s0 (servo t1 t2 s) := by
  unfold servo
  repeat' first
    | with_reducible assumption
    | (intro x; beta_reduce)
    | (extract_lets +onlyGivenNames x; refine (fun (hx : Kept s0 x) => ?_) (?_ : Kept s0 x) <;> [clear_value x; subst x])
    | (extract_lets +onlyGivenNames x; refine (fun (hx : Kept s0 x.2) => ?_) (?_ : Kept s0 x.2) <;> [clear_value x; subst x])
    | (extract_lets +onlyGivenNames x; clear_value x)
    | with_reducible apply Kept.ite
    | split
    | with_reducible apply sat_kept
    | with_reducible apply wr_kept
    | with_reducible apply judgeOffset_kept
    | with_reducible apply stepTime_kept
    | with_reducible apply servoStep_kept
    | refine Kept.snd (by with_reducible assumption) ?_
    | (with_reducible apply Kept.upd; first | with_reducible assumption | with_reducible apply sat_kept | with_reducible apply wr_kept | with_reducible apply judgeOffset_kept | with_reducible apply stepTime_kept | with_reducible apply servoStep_kept | refine Kept.snd (by with_reducible assumption) ?_)

theorem showMaster_kept (s : State) (h : Kept s0 s) : Kept s0 (showMaster s) := by
  unfold showMaster
  repeat' first
    | with_reducible assumption
    | (intro x; beta_reduce)
    | with_reducible apply Kept.ite
    | split
    | with_reducible apply wr_kept

theorem ptpTake_kept (m : PtpMsg) (act : State → State) (s : State) (hact : ∀ s, Kept s0 s → Kept s0 (act s))
    (h : Kept s0 s) : Kept s0 (ptpTake m act s) := by
  unfold ptpTake
  repeat' first
    | with_reducible assumption
    | (intro x; beta_reduce)
    | (extract_lets +onlyGivenNames x; refine (fun (hx : Kept s0 x) => ?_) (?_ : Kept s0 x) <;> [clear_value x; subst x])
    | (extract_lets +onlyGivenNames x; clear_value x)
    | with_reducible apply Kept.ite
    | split
    | with_reducible apply hact
    | with_reducible apply countRx_kept
    | with_reducible apply sat_kept

theorem onSync_kept (m : PtpMsg) (s : State) (h : Kept s0 s) : Kept s0 (onSync m s) := by
  unfold onSync
  repeat' first
    | with_reducible assumption
    | (intro x; beta_reduce)
    | (extract_lets +onlyGivenNames x; refine (fun (hx : Kept s0 x) => ?_) (?_ : Kept s0 x) <;> [clear_value x; subst x])
    | (extract_lets +onlyGivenNames x; clear_value x)
    | with_reducible apply Kept.ite
    | split
    | with_reducible apply servo_kept
    | (with_reducible apply Kept.upd; first | with_reducible assumption | with_reducible apply servo_kept)

theorem onFollowUp_kept (m : PtpMsg) (s : State) (h : Kept s0 s) : Kept s0 (onFollowUp m s) := by
  unfold onFollowUp
  repeat' first
    | with_reducible assumption
    | (intro x; beta_reduce)
    | with_reducible apply Kept.ite
    | split
    | with_reducible apply servo_kept
    | (with_reducible apply Kept.upd; first | with_reducible assumption | with_reducible apply servo_kept)

theorem onDelayResp_kept (m : PtpMsg) (s : State) (h : Kept s0 s) : Kept s0 (onDelayResp m s) := by
  unfold onDelayResp
  repeat' first
    | with_reducible assumption
    | (intro x; beta_reduce)
    | (extract_lets +onlyGivenNames x; refine (fun (hx : Kept s0 x) => ?_) (?_ : Kept s0 x) <;> [clear_value x; subst x])
    | (extract_lets +onlyGivenNames x; refine (fun (hx : Kept s0 x.2) => ?_) (?_ : Kept s0 x.2) <;> [clear_value x; subst x])
    | (extract_lets +onlyGivenNames x; clear_value x)
    | with_reducible apply Kept.ite
    | split
    | with_reducible apply wr_kept
    | (with_reducible apply Kept.upd; first | with_reducible assumption | with_reducible apply wr_kept)

theorem onAnnounce_kept (m : PtpMsg) (gm : Gm) (s : State) (h : Kept s0 s) : Kept s0 (onAnnounce m gm s) := by
  unfold onAnnounce
  repeat' first
    | with_reducible assumption
    | (intro x; beta_reduce)
    | (extract_lets +onlyGivenNames x; refine (fun (hx : Kept s0 x) => ?_) (?_ : Kept s0 x) <;> [clear_value x; subst x])
    | (extract_lets +onlyGivenNames x; refine (fun (hx : Kept s0 x.2) => ?_) (?_ : Kept s0 x.2) <;> [clear_value x; subst x])
    | (extract_lets +onlyGivenNames x; clear_value x)
    | with_reducible apply Kept.ite
    | split
    | with_reducible apply sat_kept
    | with_reducible apply showMaster_kept
    | (with_reducible apply Kept.upd; first | with_reducible assumption | with_reducible apply sat_kept | with_reducible apply showMaster_kept)

theorem syncLoss_kept (s : State) (h : Kept s0 s) : Kept s0 (syncLoss s) := by
  unfold syncLoss
  repeat' first
    | with_reducible assumption
    | (intro x; beta_reduce)
    | (extract_lets +onlyGivenNames x; refine (fun (hx : Kept s0 x) => ?_) (?_ : Kept s0 x) <;> [clear_value x; subst x])
    | (extract_lets +onlyGivenNames x; clear_value x)
    | with_reducible apply Kept.ite
    | split
    | with_reducible apply advanceTo_kept
    | with_reducible apply lockLost_kept
    | with_reducible apply showMaster_kept
    | (with_reducible apply Kept.upd; first | with_reducible assumption | with_reducible apply advanceTo_kept | with_reducible apply lockLost_kept | with_reducible apply showMaster_kept)

theorem sendPtp_kept (p : Nat) (bytes : List Byte) (s : State) (h : Kept s0 s) : Kept s0 (sendPtp p bytes s) := by
  unfold sendPtp
  repeat' first
    | with_reducible assumption
    | (intro x; beta_reduce)
    | with_reducible apply transmit_kept

theorem syncTx_kept (stamp : Nat) (s : State) (h : Kept s0 s) : Kept s0 (syncTx stamp s) := by
  unfold syncTx
  repeat' first
    | with_reducible assumption
    | (intro x; beta_reduce)
    | (extract_lets +onlyGivenNames x; refine (fun (hx : Kept s0 x) => ?_) (?_ : Kept s0 x) <;> [clear_value x; subst x])
    | (extract_lets +onlyGivenNames x; refine (fun (hx : Kept s0 x.2) => ?_) (?_ : Kept s0 x.2) <;> [clear_value x; subst x])
    | (extract_lets +onlyGivenNames x; clear_value x)
    | with_reducible apply Kept.ite
    | split
    | with_reducible apply wr_kept
    | with_reducible apply sendPtp_kept
    | (with_reducible apply Kept.upd; first | with_reducible assumption | with_reducible apply wr_kept | with_reducible apply sendPtp_kept)

theorem announceTx_kept (s : State) (h : Kept s0 s) : Kept s0 (announceTx s) := by
  unfold announceTx
  repeat' first
    | with_reducible assumption
    | (intro x; beta_reduce)
    | (extract_lets +onlyGivenNames x; refine (fun (hx : Kept s0 x) => ?_) (?_ : Kept s0 x) <;> [clear_value x; subst x])
    | (extract_lets +onlyGivenNames x; refine (fun (hx : Kept s0 x.2) => ?_) (?_ : Kept s0 x.2) <;> [clear_value x; subst x])
    | (extract_lets +onlyGivenNames x; clear_value x)
    | with_reducible apply Kept.ite
    | split
    | with_reducible apply wr_kept
    | with_reducible apply sendPtp_kept
    | (with_reducible apply Kept.upd; first | with_reducible assumption | with_reducible apply wr_kept | with_reducible apply sendPtp_kept)

theorem delayReqTx_kept (stamp : Nat) (s : State) (h : Kept s0 s) : Kept s0 (delayReqTx stamp s) := by
  unfold delayReqTx
  repeat' first
    | with_reducible assumption
    | (intro x; beta_reduce)
    | (extract_lets +onlyGivenNames x; refine (fun (hx : Kept s0 x) => ?_) (?_ : Kept s0 x) <;> [clear_value x; subst x])
    | (extract_lets +onlyGivenNames x; refine (fun (hx : Kept s0 x.2) => ?_) (?_ : Kept s0 x.2) <;> [clear_value x; subst x])
    | (extract_lets +onlyGivenNames x; clear_value x)
    | with_reducible apply Kept.ite
    | split
    | with_reducible apply sat_kept
    | with_reducible apply sendPtp_kept
    | (with_reducible apply Kept.upd; first | with_reducible assumption | with_reducible apply sat_kept | with_reducible apply sendPtp_kept)

theorem onDelayReq_kept (m : PtpMsg) (s : State) (h : Kept s0 s) : Kept s0 (onDelayReq m s) := by
  unfold onDelayReq
  repeat' first
    | with_reducible assumption
    | (intro x; beta_reduce)
    | (extract_lets +onlyGivenNames x; refine (fun (hx : Kept s0 x) => ?_) (?_ : Kept s0 x) <;> [clear_value x; subst x])
    | (extract_lets +onlyGivenNames x; clear_value x)
    | with_reducible apply Kept.ite
    | split
    | with_reducible apply sendPtp_kept

end Sys2Proof.Machine
end

