-- ==== Sys2Proof/Laws/KeptQuery.lean ====
section
/-! SUPPORT. What the operations of Machine/Query.lean keep of the queue, the variant and soundness: one lemma for each, cited instead of its unfolding. -/

set_option linter.unusedTactic false
set_option linter.unreachableTactic false
set_option linter.unusedVariables false

namespace Sys2Proof.Machine

open Sys2Proof

variable {s0 : State}

theorem setQueries_kept (e : Nat) (qs : List Query) (s : State) (h : Kept s0 s) : Kept s0 (setQueries e qs s) := by
  unfold setQueries
  repeat' first
    | with_reducible assumption
    | (intro x; beta_reduce)
    | with_reducible apply wr_kept
    | (with_reducible apply Kept.upd; first | with_reducible assumption | with_reducible apply wr_kept)

theorem putQuery_kept (q : Query) (s : State) (h : Kept s0 s) : Kept s0 (putQuery q s) := by
  unfold putQuery
  repeat' first
    | with_reducible assumption
    | (intro x; beta_reduce)
    | with_reducible apply Kept.ite
    | split
    | with_reducible apply setQueries_kept

theorem admitQuery_kept (e clientTag arrival : Nat) (src : QuerySrc) (input : List Nat) (s : State)
    (h : Kept s0 s) : Kept s0 (admitQuery e clientTag arrival src input s) := by
  unfold admitQuery
  repeat' first
    | with_reducible assumption
    | (intro x; beta_reduce)
    | (extract_lets +onlyGivenNames x; refine (fun (hx : Kept s0 x) => ?_) (?_ : Kept s0 x) <;> [clear_value x; subst x])
    | (extract_lets +onlyGivenNames x; clear_value x)
    | with_reducible apply setQueries_kept
    | with_reducible apply sat_kept

theorem respFrame_kept (p mac : Nat) (tag : Option Nat)
    (serial src dst e status clientTag arrival promised step : Nat) (out : List Byte) (s : State)
    (h : Kept s0 s) : Kept s0 (respFrame p mac tag serial src dst e status clientTag arrival promised step out s) := by
  unfold respFrame
  repeat' first
    | with_reducible assumption
    | (intro x; beta_reduce)
    | (extract_lets +onlyGivenNames x; refine (fun (hx : Kept s0 x) => ?_) (?_ : Kept s0 x) <;> [clear_value x; subst x])
    | (extract_lets +onlyGivenNames x; clear_value x)
    | with_reducible apply transmit_kept

theorem respRing_kept (q index out e status clientTag arrival promised step : Nat) (data : List Byte) (s : State)
    (h : Kept s0 s) : Kept s0 (respRing q index out e status clientTag arrival promised step data s) := by
  unfold respRing
  repeat' first
    | with_reducible assumption
    | (intro x; beta_reduce)
    | (extract_lets +onlyGivenNames x; refine (fun (hx : Kept s0 x) => ?_) (?_ : Kept s0 x) <;> [clear_value x; subst x])
    | (extract_lets +onlyGivenNames x; clear_value x)
    | with_reducible apply Kept.ite
    | split
    | with_reducible apply emit_kept
    | with_reducible apply hostRingWrite_kept
    | with_reducible apply sat_kept

theorem countQuery_kept (q : Query) (status done : Nat) (s : State)
    (h : Kept s0 s) : Kept s0 (countQuery q status done s) := by
  unfold countQuery
  repeat' first
    | with_reducible assumption
    | (intro x; beta_reduce)
    | (extract_lets +onlyGivenNames x; refine (fun (hx : Kept s0 x) => ?_) (?_ : Kept s0 x) <;> [clear_value x; subst x])
    | (extract_lets +onlyGivenNames x; clear_value x)
    | with_reducible apply Kept.ite
    | split
    | with_reducible apply setQueries_kept
    | with_reducible apply sat_kept
    | with_reducible apply wr_kept
    | with_reducible apply setb_kept

theorem sendResp_kept (q : Query) (st : Nat) (out : List Byte) (s : State)
    (h : Kept s0 s) : Kept s0 (sendResp q st out s) := by
  unfold sendResp
  repeat' first
    | with_reducible assumption
    | (intro x; beta_reduce)
    | with_reducible apply Kept.ite
    | split
    | with_reducible apply countQuery_kept
    | with_reducible apply respFrame_kept
    | with_reducible apply putQuery_kept
    | with_reducible apply respRing_kept
    | (with_reducible apply Kept.upd; first | with_reducible assumption | with_reducible apply countQuery_kept | with_reducible apply respFrame_kept | with_reducible apply putQuery_kept | with_reducible apply respRing_kept)

theorem queryResp_kept (e k : Nat) (s : State) (h : Kept s0 s) : Kept s0 (queryResp e k s) := by
  unfold queryResp
  repeat' first
    | with_reducible assumption
    | (intro x; beta_reduce)
    | with_reducible apply Kept.ite
    | split
    | with_reducible apply sendResp_kept

theorem linkUp_kept (p : Nat) (s : State) (h : Kept s0 s) : Kept s0 (linkUp p s) := by
  unfold linkUp
  repeat' first
    | with_reducible assumption
    | (intro x; beta_reduce)
    | (extract_lets +onlyGivenNames x; refine (fun (hx : Kept s0 x) => ?_) (?_ : Kept s0 x) <;> [clear_value x; subst x])
    | (extract_lets +onlyGivenNames x; refine (fun (hx : Kept s0 x.2) => ?_) (?_ : Kept s0 x.2) <;> [clear_value x; subst x])
    | (extract_lets +onlyGivenNames x; clear_value x)
    | with_reducible apply Kept.ite
    | split
    | with_reducible apply linkRises_kept
    | with_reducible apply sendWaiting_kept
    | with_reducible apply countQuery_kept
    | with_reducible apply sendResp_kept
    | with_reducible apply Kept.foldl
    | with_reducible apply Kept.foldl_snd
    | with_reducible apply Kept.foldl_fst

theorem queryUndelivered_kept (e k : Nat) (s : State) (h : Kept s0 s) : Kept s0 (queryUndelivered e k s) := by
  unfold queryUndelivered
  repeat' first
    | with_reducible assumption
    | (intro x; beta_reduce)
    | (extract_lets +onlyGivenNames x; refine (fun (hx : Kept s0 x) => ?_) (?_ : Kept s0 x) <;> [clear_value x; subst x])
    | (extract_lets +onlyGivenNames x; refine (fun (hx : Kept s0 x.2) => ?_) (?_ : Kept s0 x.2) <;> [clear_value x; subst x])
    | (extract_lets +onlyGivenNames x; clear_value x)
    | with_reducible apply Kept.ite
    | split
    | with_reducible apply advanceTo_kept
    | with_reducible apply countQuery_kept

theorem queryReq_kept (f : Frame) (e count clientTag : Nat) (input : List Nat) (s : State)
    (h : Kept s0 s) : Kept s0 (queryReq f e count clientTag input s) := by
  unfold queryReq
  repeat' first
    | with_reducible assumption
    | (intro x; beta_reduce)
    | with_reducible apply Kept.ite
    | split
    | exact Kept.snd (by with_reducible assumption) (arrive_kept _ _ _ _ (by with_reducible assumption)).1
    | exact (arrive_kept _ _ _ _ (by with_reducible assumption)).1
    | exact (arrive_kept _ _ _ _ (by with_reducible assumption)).2 _ _ (by with_reducible assumption)
    | with_reducible apply respFrame_kept
    | with_reducible apply sat_kept
    | with_reducible apply admitQuery_kept
    | refine Kept.snd (by with_reducible assumption) ?_

theorem queryDescriptor_kept (q : Nat) (w input : List Nat) (bad : Bool) (s : State)
    (h : Kept s0 s) : Kept s0 (queryDescriptor q w input bad s) := by
  unfold queryDescriptor
  repeat' first
    | with_reducible assumption
    | (intro x; beta_reduce)
    | (extract_lets +onlyGivenNames x; refine (fun (hx : Kept s0 x) => ?_) (?_ : Kept s0 x) <;> [clear_value x; subst x])
    | (extract_lets +onlyGivenNames x; refine (fun (hx : Kept s0 x.2) => ?_) (?_ : Kept s0 x.2) <;> [clear_value x; subst x])
    | (extract_lets +onlyGivenNames x; clear_value x)
    | with_reducible apply Kept.ite
    | split
    | with_reducible apply setb_kept
    | with_reducible apply sat_kept
    | with_reducible apply wr_kept
    | with_reducible apply respRing_kept
    | with_reducible apply admitQuery_kept
    | (with_reducible apply Kept.upd; first | with_reducible assumption | with_reducible apply setb_kept | with_reducible apply sat_kept | with_reducible apply wr_kept | with_reducible apply respRing_kept | with_reducible apply admitQuery_kept)

theorem chainStart_kept (e : Nat) (s : State) (h : Kept s0 s) : Kept s0 (chainStart e s) := by
  unfold chainStart
  repeat' first
    | with_reducible assumption
    | (intro x; beta_reduce)
    | (extract_lets +onlyGivenNames x; refine (fun (hx : Kept s0 x) => ?_) (?_ : Kept s0 x) <;> [clear_value x; subst x])
    | (extract_lets +onlyGivenNames x; refine (fun (hx : Kept s0 x.2) => ?_) (?_ : Kept s0 x.2) <;> [clear_value x; subst x])
    | (extract_lets +onlyGivenNames x; clear_value x)
    | with_reducible apply Kept.ite
    | split
    | with_reducible apply advanceTo_kept
    | with_reducible apply putQuery_kept
    | with_reducible apply store_kept
    | (with_reducible apply Kept.upd; first | with_reducible assumption | with_reducible apply advanceTo_kept | with_reducible apply putQuery_kept | with_reducible apply store_kept)

theorem guardEntryOf_kept (e c : Nat) (rs : List Range) (s : State)
    (h : Kept s0 s) : Kept s0 (guardEntryOf e c rs s) := by
  unfold guardEntryOf
  repeat' first
    | with_reducible assumption
    | (intro x; beta_reduce)
    | with_reducible apply Kept.ite
    | split
    | with_reducible apply guardEntry_kept

theorem chainIssue_kept (q : Query) (i rc land : Nat) (r : OpResult) (s : State)
    (h : Kept s0 s) : Kept s0 (chainIssue q i rc land r s) := by
  unfold chainIssue
  repeat' first
    | with_reducible assumption
    | (intro x; beta_reduce)
    | with_reducible apply addOp_kept
    | with_reducible apply reportReads_kept
    | with_reducible apply guardEntryOf_kept

theorem chainOverlap_kept (e : Nat) (r : OpResult) (s : State) (h : Kept s0 s) : Kept s0 (chainOverlap e r s) := by
  unfold chainOverlap
  repeat' first
    | with_reducible assumption
    | (intro x; beta_reduce)
    | with_reducible apply Kept.ite
    | split
    | with_reducible apply programFatal_kept
    | with_reducible apply errorLog_kept

theorem chainEntry_kept (e k : Nat) (codes : List (Nat × Int)) (s : State)
    (h : Kept s0 s) : Kept s0 (chainEntry e k codes s) := by
  unfold chainEntry
  repeat' first
    | with_reducible assumption
    | (intro x; beta_reduce)
    | (extract_lets +onlyGivenNames x; refine (fun (hx : Kept s0 x) => ?_) (?_ : Kept s0 x) <;> [clear_value x; subst x])
    | (extract_lets +onlyGivenNames x; refine (fun (hx : Kept s0 x.2) => ?_) (?_ : Kept s0 x.2) <;> [clear_value x; subst x])
    | (extract_lets +onlyGivenNames x; clear_value x)
    | with_reducible apply Kept.ite
    | split
    | with_reducible apply putQuery_kept
    | with_reducible apply advanceTo_kept
    | with_reducible apply asOf_kept
    | with_reducible apply chainIssue_kept
    | with_reducible apply occupyArrays_kept
    | with_reducible apply chainOverlap_kept
    | with_reducible apply setBusy_kept
    | (with_reducible apply Kept.upd; first | with_reducible assumption | with_reducible apply putQuery_kept | with_reducible apply advanceTo_kept | with_reducible apply asOf_kept | with_reducible apply chainIssue_kept | with_reducible apply occupyArrays_kept | with_reducible apply chainOverlap_kept | with_reducible apply setBusy_kept)

end Sys2Proof.Machine
end

