-- ==== Sys2Proof/Laws/KeptPower.lean ====
section
/-! SUPPORT. What the operations of Machine/Power.lean keep of the queue, the variant and soundness: one lemma for each, cited instead of its unfolding. -/

set_option linter.unusedTactic false
set_option linter.unreachableTactic false
set_option linter.unusedVariables false

namespace Sys2Proof.Machine

open Sys2Proof

variable {s0 : State}

theorem mainReset_kept (g : Stage) (s : State) (h : Kept s0 s) : Kept s0 (mainReset g s) := by
  refine ⟨h.1, h.2, fun _ => ⟨rfl, ?_, ?_⟩⟩
  · intro e he
    exact absurd he (by simp [mainReset, State.blank])
  · show (0 : Nat) < 2 ^ 96
    decide

theorem holdReset_kept (s : State) (h : Kept s0 s) : Kept s0 (holdReset s) := by
  unfold holdReset
  repeat' first
    | with_reducible assumption
    | (intro x; beta_reduce)
    | with_reducible apply Kept.ite
    | split
    | with_reducible apply mainReset_kept
    | (with_reducible apply Kept.upd; first | with_reducible assumption | with_reducible apply mainReset_kept)

theorem railsOff_kept (s : State) (h : Kept s0 s) : Kept s0 (railsOff s) := by
  unfold railsOff
  repeat' first
    | with_reducible assumption
    | (intro x; beta_reduce)
    | (extract_lets +onlyGivenNames x; refine (fun (hx : Kept s0 x) => ?_) (?_ : Kept s0 x) <;> [clear_value x; subst x])
    | (extract_lets +onlyGivenNames x; clear_value x)
    | with_reducible apply Kept.ite
    | split
    | with_reducible apply mainReset_kept
    | with_reducible apply setb_kept
    | with_reducible apply emit_kept
    | (with_reducible apply Kept.upd; first | with_reducible assumption | with_reducible apply mainReset_kept | with_reducible apply setb_kept | with_reducible apply emit_kept)

theorem sysResetAssert_kept (s : State) (h : Kept s0 s) : Kept s0 (sysResetAssert s) := by
  unfold sysResetAssert
  repeat' first
    | with_reducible assumption
    | (intro x; beta_reduce)
    | with_reducible apply holdReset_kept
    | (with_reducible apply Kept.upd; first | with_reducible assumption | with_reducible apply holdReset_kept)

theorem leaveReset_kept (s : State) (h : Kept s0 s) : Kept s0 (leaveReset s) := by
  unfold leaveReset
  repeat' first
    | with_reducible assumption
    | (intro x; beta_reduce)
    | with_reducible apply Kept.ite
    | split
    | (with_reducible apply Kept.upd; first | with_reducible assumption)

theorem sysResetRelease_kept (early : Bool) (s : State) (h : Kept s0 s) : Kept s0 (sysResetRelease early s) := by
  unfold sysResetRelease
  repeat' first
    | with_reducible assumption
    | (intro x; beta_reduce)
    | with_reducible apply Kept.ite
    | split
    | with_reducible apply leaveReset_kept
    | (with_reducible apply Kept.upd; first | with_reducible assumption | with_reducible apply leaveReset_kept)

theorem resetKey_kept (key : Nat) (s : State) (h : Kept s0 s) : Kept s0 (resetKey key s) := by
  unfold resetKey
  repeat' first
    | with_reducible assumption
    | (intro x; beta_reduce)
    | (extract_lets +onlyGivenNames x; refine (fun (hx : Kept s0 x) => ?_) (?_ : Kept s0 x) <;> [clear_value x; subst x])
    | (extract_lets +onlyGivenNames x; clear_value x)
    | with_reducible apply Kept.ite
    | split
    | with_reducible apply holdReset_kept
    | (with_reducible apply Kept.upd; first | with_reducible assumption | with_reducible apply holdReset_kept)

theorem resetKeyRelease_kept (s : State) (h : Kept s0 s) : Kept s0 (resetKeyRelease s) := by
  unfold resetKeyRelease
  repeat' first
    | with_reducible assumption
    | (intro x; beta_reduce)
    | with_reducible apply leaveReset_kept
    | (with_reducible apply Kept.upd; first | with_reducible assumption | with_reducible apply leaveReset_kept)

theorem aux3v3Removed_kept (s : State) (h : Kept s0 s) : Kept s0 (aux3v3Removed s) := by
  unfold aux3v3Removed
  repeat' first
    | with_reducible assumption
    | (intro x; beta_reduce)
    | (extract_lets +onlyGivenNames x; refine (fun (hx : Kept s0 x) => ?_) (?_ : Kept s0 x) <;> [clear_value x; subst x])
    | (extract_lets +onlyGivenNames x; clear_value x)
    | with_reducible apply Kept.ite
    | split
    | with_reducible apply emit_kept
    | with_reducible apply railsOff_kept
    | (with_reducible apply Kept.upd; first | with_reducible assumption | with_reducible apply emit_kept | with_reducible apply railsOff_kept)

theorem feedGood_kept (feed : Nat) (s : State) (h : Kept s0 s) : Kept s0 (feedGood feed s) := by
  unfold feedGood
  repeat' first
    | with_reducible assumption
    | (intro x; beta_reduce)
    | (extract_lets +onlyGivenNames x; refine (fun (hx : Kept s0 x) => ?_) (?_ : Kept s0 x) <;> [clear_value x; subst x])
    | (extract_lets +onlyGivenNames x; clear_value x)
    | with_reducible apply Kept.ite
    | split
    | with_reducible apply setb_kept
    | (with_reducible apply Kept.upd; first | with_reducible assumption | with_reducible apply setb_kept)

theorem feedLost_kept (feed : Nat) (s : State) (h : Kept s0 s) : Kept s0 (feedLost feed s) := by
  unfold feedLost
  repeat' first
    | with_reducible assumption
    | (intro x; beta_reduce)
    | (extract_lets +onlyGivenNames x; refine (fun (hx : Kept s0 x) => ?_) (?_ : Kept s0 x) <;> [clear_value x; subst x])
    | (extract_lets +onlyGivenNames x; clear_value x)
    | with_reducible apply Kept.ite
    | split
    | with_reducible apply setb_kept
    | with_reducible apply sat_kept
    | with_reducible apply railsOff_kept

theorem pwrOk_kept (s : State) (h : Kept s0 s) : Kept s0 (pwrOk s) := by
  unfold pwrOk
  repeat' first
    | with_reducible assumption
    | (intro x; beta_reduce)
    | with_reducible apply Kept.ite
    | split
    | with_reducible apply emit_kept
    | (with_reducible apply Kept.upd; first | with_reducible assumption | with_reducible apply emit_kept)

theorem railFault_kept (page inst : Nat) (s : State) (h : Kept s0 s) : Kept s0 (railFault page inst s) := by
  unfold railFault
  repeat' first
    | with_reducible assumption
    | (intro x; beta_reduce)
    | with_reducible apply Kept.ite
    | split
    | with_reducible apply railsOff_kept
    | with_reducible apply deviceFatal_kept

theorem raiseReady_kept (u : Nat) (s : State) (h : Kept s0 s) : Kept s0 (raiseReady u s) := by
  unfold raiseReady
  repeat' first
    | with_reducible assumption
    | (intro x; beta_reduce)
    | with_reducible apply setReady_kept

theorem pllLock_kept (s : State) (h : Kept s0 s) : Kept s0 (pllLock s) := by
  unfold pllLock
  split
  · refine mixerTest_kept _ (Kept.foldl _ (fun s u h => raiseReady_kept _ _ h) ?_)
    exact h.timed rfl rfl rfl rfl (by
      show (0 : Nat) < 2 ^ 96
      decide)
  · exact h

theorem pllLockTimeout_kept (s : State) (h : Kept s0 s) : Kept s0 (pllLockTimeout s) := by
  unfold pllLockTimeout
  repeat' first
    | with_reducible assumption
    | (intro x; beta_reduce)
    | with_reducible apply Kept.ite
    | split
    | with_reducible apply wrU_kept
    | (with_reducible apply Kept.upd; first | with_reducible assumption | with_reducible apply wrU_kept)

theorem lifeCheck_kept (k : FKey) (s : State) (h : Kept s0 s) : Kept s0 (lifeCheck k s) := by
  unfold lifeCheck
  repeat' first
    | with_reducible assumption
    | (intro x; beta_reduce)
    | with_reducible apply Kept.ite
    | split
    | with_reducible apply makePermanent_kept

theorem lifeAll_kept (die : Nat) (s : State) (h : Kept s0 s) : Kept s0 (lifeAll die s) := by
  unfold lifeAll
  repeat' first
    | with_reducible assumption
    | (intro x; beta_reduce)
    | (extract_lets +onlyGivenNames x; refine (fun (hx : Kept s0 x) => ?_) (?_ : Kept s0 x) <;> [clear_value x; subst x])
    | (extract_lets +onlyGivenNames x; refine (fun (hx : Kept s0 x.2) => ?_) (?_ : Kept s0 x.2) <;> [clear_value x; subst x])
    | (extract_lets +onlyGivenNames x; clear_value x)
    | with_reducible apply Kept.ite
    | split
    | with_reducible apply lifeCheck_kept
    | with_reducible apply Kept.foldl
    | with_reducible apply Kept.foldl_snd
    | with_reducible apply Kept.foldl_fst

theorem addCounts_kept (die n : Nat) (s : State) (h : Kept s0 s) : Kept s0 (addCounts die n s) := by
  unfold addCounts
  repeat' first
    | with_reducible assumption
    | (intro x; beta_reduce)
    | (extract_lets +onlyGivenNames x; refine (fun (hx : Kept s0 x) => ?_) (?_ : Kept s0 x) <;> [clear_value x; subst x])
    | (extract_lets +onlyGivenNames x; clear_value x)
    | with_reducible apply Kept.ite
    | split
    | (with_reducible apply Kept.upd; first | with_reducible assumption)

theorem loadLedger_kept (die : Nat) (l : ShelfCopy) (s : State) (h : Kept s0 s) : Kept s0 (loadLedger die l s) := by
  unfold loadLedger
  repeat' first
    | with_reducible assumption
    | (intro x; beta_reduce)
    | (extract_lets +onlyGivenNames x; refine (fun (hx : Kept s0 x) => ?_) (?_ : Kept s0 x) <;> [clear_value x; subst x])
    | (extract_lets +onlyGivenNames x; clear_value x)
    | (with_reducible apply Kept.upd; first | with_reducible assumption)

theorem bootLedgers_kept (die : Nat) (s : State) (h : Kept s0 s) : Kept s0 (bootLedgers die s) := by
  unfold bootLedgers
  repeat' first
    | with_reducible assumption
    | (intro x; beta_reduce)
    | (extract_lets +onlyGivenNames x; refine (fun (hx : Kept s0 x) => ?_) (?_ : Kept s0 x) <;> [clear_value x; subst x])
    | (extract_lets +onlyGivenNames x; refine (fun (hx : Kept s0 x.2) => ?_) (?_ : Kept s0 x.2) <;> [clear_value x; subst x])
    | (extract_lets +onlyGivenNames x; clear_value x)
    | with_reducible apply Kept.ite
    | split
    | with_reducible apply setb_kept
    | with_reducible apply restoreLedgers_kept
    | with_reducible apply loadLedger_kept
    | with_reducible apply driveReadLedger_kept
    | with_reducible apply addCounts_kept
    | with_reducible apply raiseReady_kept
    | with_reducible apply lifeCheck_kept
    | with_reducible apply Kept.foldl
    | with_reducible apply Kept.foldl_snd
    | with_reducible apply Kept.foldl_fst
    | (with_reducible apply Kept.upd; first | with_reducible assumption | with_reducible apply setb_kept | with_reducible apply restoreLedgers_kept | with_reducible apply loadLedger_kept | with_reducible apply driveReadLedger_kept | with_reducible apply addCounts_kept | with_reducible apply raiseReady_kept | with_reducible apply lifeCheck_kept | with_reducible apply Kept.foldl | with_reducible apply Kept.foldl_snd | with_reducible apply Kept.foldl_fst)

theorem bringUpGroup_kept (g : Nat) (s : State) (h : Kept s0 s) : Kept s0 (bringUpGroup g s) := by
  unfold bringUpGroup
  repeat' first
    | with_reducible assumption
    | (intro x; beta_reduce)
    | (extract_lets +onlyGivenNames x; refine (fun (hx : Kept s0 x) => ?_) (?_ : Kept s0 x) <;> [clear_value x; subst x])
    | (extract_lets +onlyGivenNames x; clear_value x)
    | with_reducible apply Kept.ite
    | split
    | with_reducible apply startVerify_kept
    | with_reducible apply bootLedgers_kept
    | with_reducible apply verifyComplete_kept

theorem showShelfDump_kept (s : State) (h : Kept s0 s) : Kept s0 (showShelfDump s) := by
  unfold showShelfDump
  repeat' first
    | with_reducible assumption
    | (intro x; beta_reduce)
    | with_reducible apply Kept.ite
    | split
    | with_reducible apply setb_kept

theorem driveRefused_kept (c reason : Nat) (s : State) (h : Kept s0 s) : Kept s0 (driveRefused c reason s) := by
  unfold driveRefused
  repeat' first
    | with_reducible assumption
    | (intro x; beta_reduce)
    | with_reducible apply wr_kept
    | with_reducible apply setb_kept

theorem bringUpDrive_kept (c : Nat) (info : List Nat) (s : State)
    (h : Kept s0 s) : Kept s0 (bringUpDrive c info s) := by
  unfold bringUpDrive
  repeat' first
    | with_reducible assumption
    | (intro x; beta_reduce)
    | (extract_lets +onlyGivenNames x; refine (fun (hx : Kept s0 x) => ?_) (?_ : Kept s0 x) <;> [clear_value x; subst x])
    | (extract_lets +onlyGivenNames x; clear_value x)
    | with_reducible apply Kept.ite
    | split
    | with_reducible apply wr_kept
    | with_reducible apply driveRefused_kept
    | with_reducible apply driveIssue_kept
    | with_reducible apply setb_kept
    | with_reducible apply driveSession_kept
    | with_reducible apply writeLabel_kept
    | with_reducible apply showShelfDump_kept
    | with_reducible apply showSlots_kept
    | with_reducible apply raiseReady_kept

theorem bringUpFirmware_kept (c : Nat) (info : List Nat) (s : State)
    (h : Kept s0 s) : Kept s0 (bringUpFirmware c info s) := by
  unfold bringUpFirmware
  repeat' first
    | with_reducible assumption
    | (intro x; beta_reduce)
    | (extract_lets +onlyGivenNames x; refine (fun (hx : Kept s0 x) => ?_) (?_ : Kept s0 x) <;> [clear_value x; subst x])
    | (extract_lets +onlyGivenNames x; clear_value x)
    | with_reducible apply Kept.ite
    | split
    | with_reducible apply raiseReady_kept
    | with_reducible apply wr_kept
    | (with_reducible apply Kept.upd; first | with_reducible assumption | with_reducible apply raiseReady_kept | with_reducible apply wr_kept)

theorem bringUpFaults_kept (info : List Nat) (s : State) (h : Kept s0 s) : Kept s0 (bringUpFaults info s) := by
  unfold bringUpFaults
  repeat' first
    | with_reducible assumption
    | (intro x; beta_reduce)
    | (extract_lets +onlyGivenNames x; refine (fun (hx : Kept s0 x) => ?_) (?_ : Kept s0 x) <;> [clear_value x; subst x])
    | (extract_lets +onlyGivenNames x; refine (fun (hx : Kept s0 x.2) => ?_) (?_ : Kept s0 x.2) <;> [clear_value x; subst x])
    | (extract_lets +onlyGivenNames x; clear_value x)
    | with_reducible apply wr_kept
    | with_reducible apply setb_kept
    | with_reducible apply showShelfDump_kept
    | with_reducible apply raiseReady_kept
    | with_reducible apply Kept.foldl
    | with_reducible apply Kept.foldl_snd
    | with_reducible apply Kept.foldl_fst

theorem blockUp_kept (u : Nat) (info : List Nat) (s : State) (h : Kept s0 s) : Kept s0 (blockUp u info s) := by
  unfold blockUp
  repeat' first
    | with_reducible assumption
    | (intro x; beta_reduce)
    | (extract_lets +onlyGivenNames x; refine (fun (hx : Kept s0 x) => ?_) (?_ : Kept s0 x) <;> [clear_value x; subst x])
    | (extract_lets +onlyGivenNames x; refine (fun (hx : Kept s0 x.2) => ?_) (?_ : Kept s0 x.2) <;> [clear_value x; subst x])
    | (extract_lets +onlyGivenNames x; clear_value x)
    | with_reducible apply Kept.ite
    | split
    | with_reducible apply bootLedgers_kept
    | with_reducible apply bringUpGroup_kept
    | with_reducible apply portReady_kept
    | with_reducible apply bringUpFirmware_kept
    | with_reducible apply bringUpDrive_kept
    | with_reducible apply bringUpFaults_kept
    | with_reducible apply raiseReady_kept

theorem blockReadyEvent_kept (u : Nat) (info : List Nat) (s : State)
    (h : Kept s0 s) : Kept s0 (blockReadyEvent u info s) := by
  unfold blockReadyEvent
  repeat' first
    | with_reducible assumption
    | (intro x; beta_reduce)
    | with_reducible apply Kept.ite
    | split
    | with_reducible apply blockUp_kept

theorem orderlyOff_kept (s : State) (h : Kept s0 s) : Kept s0 (orderlyOff s) := by
  unfold orderlyOff
  repeat' first
    | with_reducible assumption
    | (intro x; beta_reduce)
    | with_reducible apply Kept.ite
    | split
    | with_reducible apply setb_kept
    | with_reducible apply saveLedgers_kept
    | (with_reducible apply Kept.upd; first | with_reducible assumption | with_reducible apply setb_kept | with_reducible apply saveLedgers_kept)

theorem offReady_kept (s : State) (h : Kept s0 s) : Kept s0 (offReady s) := by
  unfold offReady
  repeat' first
    | with_reducible assumption
    | (intro x; beta_reduce)
    | with_reducible apply Kept.ite
    | split
    | with_reducible apply setb_kept
    | (with_reducible apply Kept.upd; first | with_reducible assumption | with_reducible apply setb_kept)

theorem powerSample_kept (input : Nat) (feeds domains : List Nat) (s : State)
    (h : Kept s0 s) : Kept s0 (powerSample input feeds domains s) := by
  unfold powerSample
  repeat' first
    | with_reducible assumption
    | (intro x; beta_reduce)
    | (extract_lets +onlyGivenNames x; refine (fun (hx : Kept s0 x) => ?_) (?_ : Kept s0 x) <;> [clear_value x; subst x])
    | (extract_lets +onlyGivenNames x; refine (fun (hx : Kept s0 x.2) => ?_) (?_ : Kept s0 x.2) <;> [clear_value x; subst x])
    | (extract_lets +onlyGivenNames x; clear_value x)
    | with_reducible apply Kept.ite
    | split
    | with_reducible apply wr_kept
    | with_reducible apply Kept.foldl
    | with_reducible apply Kept.foldl_snd
    | with_reducible apply Kept.foldl_fst
    | (with_reducible apply Kept.upd; first | with_reducible assumption | with_reducible apply wr_kept | with_reducible apply Kept.foldl | with_reducible apply Kept.foldl_snd | with_reducible apply Kept.foldl_fst)

theorem throttleDie_kept (b e : Nat) (s : State) (h : Kept s0 s) : Kept s0 (throttleDie b e s) := by
  unfold throttleDie
  repeat' first
    | with_reducible assumption
    | (intro x; beta_reduce)
    | (extract_lets +onlyGivenNames x; refine (fun (hx : Kept s0 x) => ?_) (?_ : Kept s0 x) <;> [clear_value x; subst x])
    | (extract_lets +onlyGivenNames x; refine (fun (hx : Kept s0 x.2) => ?_) (?_ : Kept s0 x.2) <;> [clear_value x; subst x])
    | (extract_lets +onlyGivenNames x; clear_value x)
    | with_reducible apply setSeqX_kept
    | with_reducible apply Kept.foldl
    | with_reducible apply Kept.foldl_snd
    | with_reducible apply Kept.foldl_fst
    | (with_reducible apply Kept.upd; first | with_reducible assumption | with_reducible apply setSeqX_kept | with_reducible apply Kept.foldl | with_reducible apply Kept.foldl_snd | with_reducible apply Kept.foldl_fst)

theorem startFrame_kept (n : Nat) (s : State) (b : Nat) (h : Kept s0 s) : Kept s0 (startFrame n s b) := by
  unfold startFrame
  repeat' first
    | with_reducible assumption
    | (intro x; beta_reduce)
    | (extract_lets +onlyGivenNames x; refine (fun (hx : Kept s0 x) => ?_) (?_ : Kept s0 x) <;> [clear_value x; subst x])
    | (extract_lets +onlyGivenNames x; clear_value x)
    | with_reducible apply Kept.ite
    | split
    | with_reducible apply addW_kept
    | with_reducible apply throttleDie_kept
    | with_reducible apply sat_kept

theorem capEval_kept (s : State) (h : Kept s0 s) : Kept s0 (capEval s) := by
  unfold capEval
  repeat' first
    | with_reducible assumption
    | (intro x; beta_reduce)
    | (extract_lets +onlyGivenNames x; refine (fun (hx : Kept s0 x) => ?_) (?_ : Kept s0 x) <;> [clear_value x; subst x])
    | (extract_lets +onlyGivenNames x; refine (fun (hx : Kept s0 x.2) => ?_) (?_ : Kept s0 x.2) <;> [clear_value x; subst x])
    | (extract_lets +onlyGivenNames x; clear_value x)
    | with_reducible apply Kept.ite
    | split
    | with_reducible apply advanceTo_kept
    | with_reducible apply startFrame_kept
    | with_reducible apply Kept.foldl
    | with_reducible apply Kept.foldl_snd
    | with_reducible apply Kept.foldl_fst
    | (with_reducible apply Kept.upd; first | with_reducible assumption | with_reducible apply advanceTo_kept | with_reducible apply startFrame_kept | with_reducible apply Kept.foldl | with_reducible apply Kept.foldl_snd | with_reducible apply Kept.foldl_fst)

theorem capUnmet_kept (s : State) (h : Kept s0 s) : Kept s0 (capUnmet s) := by
  unfold capUnmet
  repeat' first
    | with_reducible assumption
    | (intro x; beta_reduce)
    | with_reducible apply Kept.ite
    | split
    | with_reducible apply setb_kept
    | with_reducible apply advanceTo_kept

theorem noteTemp_kept (k : Nat) (t : Int) (s : State) (h : Kept s0 s) : Kept s0 (noteTemp k t s) := by
  unfold noteTemp
  repeat' first
    | with_reducible assumption
    | (intro x; beta_reduce)
    | (extract_lets +onlyGivenNames x; refine (fun (hx : Kept s0 x) => ?_) (?_ : Kept s0 x) <;> [clear_value x; subst x])
    | (extract_lets +onlyGivenNames x; clear_value x)
    | with_reducible apply Kept.ite
    | split
    | with_reducible apply wr_kept
    | (with_reducible apply Kept.upd; first | with_reducible assumption | with_reducible apply wr_kept)

theorem countHot_kept (s : State) (h : Kept s0 s) : Kept s0 (countHot s) := by
  unfold countHot
  repeat' first
    | with_reducible assumption
    | (intro x; beta_reduce)
    | (extract_lets +onlyGivenNames x; refine (fun (hx : Kept s0 x) => ?_) (?_ : Kept s0 x) <;> [clear_value x; subst x])
    | (extract_lets +onlyGivenNames x; clear_value x)
    | with_reducible apply Kept.ite
    | split
    | with_reducible apply sat_kept
    | (with_reducible apply Kept.upd; first | with_reducible assumption | with_reducible apply sat_kept)

theorem thermTrip_kept (k : Nat) (s : State) (h : Kept s0 s) : Kept s0 (thermTrip k s) := by
  unfold thermTrip
  repeat' first
    | with_reducible assumption
    | (intro x; beta_reduce)
    | (extract_lets +onlyGivenNames x; refine (fun (hx : Kept s0 x) => ?_) (?_ : Kept s0 x) <;> [clear_value x; subst x])
    | (extract_lets +onlyGivenNames x; clear_value x)
    | with_reducible apply railsOff_kept
    | with_reducible apply deviceFatal_kept
    | with_reducible apply emit_kept
    | (with_reducible apply Kept.upd; first | with_reducible assumption | with_reducible apply railsOff_kept | with_reducible apply deviceFatal_kept | with_reducible apply emit_kept)

theorem tempSample_kept (temps : List Int) (s : State) (h : Kept s0 s) : Kept s0 (tempSample temps s) := by
  unfold tempSample
  repeat' first
    | with_reducible assumption
    | (intro x; beta_reduce)
    | (extract_lets +onlyGivenNames x; refine (fun (hx : Kept s0 x) => ?_) (?_ : Kept s0 x) <;> [clear_value x; subst x])
    | (extract_lets +onlyGivenNames x; refine (fun (hx : Kept s0 x.2) => ?_) (?_ : Kept s0 x.2) <;> [clear_value x; subst x])
    | (extract_lets +onlyGivenNames x; clear_value x)
    | with_reducible apply Kept.ite
    | split
    | with_reducible apply noteTemp_kept
    | with_reducible apply setb_kept
    | with_reducible apply countHot_kept
    | with_reducible apply thermTrip_kept
    | with_reducible apply Kept.foldl
    | with_reducible apply Kept.foldl_snd
    | with_reducible apply Kept.foldl_fst

theorem smbusAnswer_kept (always : Bool) (bs : State → List Byte) (s : State)
    (h : Kept s0 s) : Kept s0 (smbusAnswer always bs s) := by
  unfold smbusAnswer
  repeat' first
    | with_reducible assumption
    | (intro x; beta_reduce)
    | with_reducible apply Kept.ite
    | split
    | with_reducible apply emit_kept

theorem powerLimit_kept (access : SmbusAccess) (pecOk : Bool) (s : State)
    (h : Kept s0 s) : Kept s0 (powerLimit access pecOk s) := by
  unfold powerLimit
  repeat' first
    | with_reducible assumption
    | (intro x; beta_reduce)
    | with_reducible apply Kept.ite
    | split
    | with_reducible apply smbusAnswer_kept
    | with_reducible apply emit_kept
    | (with_reducible apply Kept.upd; first | with_reducible assumption | with_reducible apply smbusAnswer_kept | with_reducible apply emit_kept)

end Sys2Proof.Machine
end

