-- ==== Sys2Proof/Laws/KeptHost.lean ====
section
/-! SUPPORT. What the operations of Machine/Host.lean keep of the queue, the variant and soundness: one lemma for each, cited instead of its unfolding. -/

set_option linter.unusedTactic false
set_option linter.unreachableTactic false
set_option linter.unusedVariables false

namespace Sys2Proof.Machine

open Sys2Proof

variable {s0 : State}

theorem hostBlockReset_kept (s : State) (h : Kept s0 s) : Kept s0 (hostBlockReset s) := by
  unfold hostBlockReset
  repeat' first
    | with_reducible assumption
    | (intro x; beta_reduce)
    | (extract_lets +onlyGivenNames x; refine (fun (hx : Kept s0 x) => ?_) (?_ : Kept s0 x) <;> [clear_value x; subst x])
    | (extract_lets +onlyGivenNames x; refine (fun (hx : Kept s0 x.2) => ?_) (?_ : Kept s0 x.2) <;> [clear_value x; subst x])
    | (extract_lets +onlyGivenNames x; clear_value x)
    | with_reducible apply setb_kept
    | with_reducible apply wr_kept
    | with_reducible apply Kept.foldl
    | with_reducible apply Kept.foldl_snd
    | with_reducible apply Kept.foldl_fst

theorem perstAssert_kept (s : State) (h : Kept s0 s) : Kept s0 (perstAssert s) := by
  unfold perstAssert
  repeat' first
    | with_reducible assumption
    | (intro x; beta_reduce)
    | with_reducible apply setb_kept
    | with_reducible apply hostBlockReset_kept
    | (with_reducible apply Kept.upd; first | with_reducible assumption | with_reducible apply setb_kept | with_reducible apply hostBlockReset_kept)

theorem perstRelease_kept (s : State) (h : Kept s0 s) : Kept s0 (perstRelease s) := by
  unfold perstRelease
  repeat' first
    | with_reducible assumption
    | (intro x; beta_reduce)
    | with_reducible apply Kept.ite
    | split
    | with_reducible apply emit_kept
    | (with_reducible apply Kept.upd; first | with_reducible assumption | with_reducible apply emit_kept)

theorem ringEnable_kept (r : Nat) (v : Bool) (s : State) (h : Kept s0 s) : Kept s0 (ringEnable r v s) := by
  unfold ringEnable
  repeat' first
    | with_reducible assumption
    | (intro x; beta_reduce)
    | (extract_lets +onlyGivenNames x; refine (fun (hx : Kept s0 x) => ?_) (?_ : Kept s0 x) <;> [clear_value x; subst x])
    | (extract_lets +onlyGivenNames x; clear_value x)
    | with_reducible apply Kept.ite
    | split
    | with_reducible apply setb_kept
    | with_reducible apply wr_kept

theorem doorbell_kept (r v : Nat) (s : State) (h : Kept s0 s) : Kept s0 (doorbell r v s) := by
  unfold doorbell
  repeat' first
    | with_reducible assumption
    | (intro x; beta_reduce)
    | (extract_lets +onlyGivenNames x; refine (fun (hx : Kept s0 x) => ?_) (?_ : Kept s0 x) <;> [clear_value x; subst x])
    | (extract_lets +onlyGivenNames x; clear_value x)
    | with_reducible apply Kept.ite
    | split
    | with_reducible apply wr_kept
    | with_reducible apply setb_kept
    | with_reducible apply sat_kept

theorem dropDrive_kept (c : Nat) (s : State) (h : Kept s0 s) : Kept s0 (dropDrive c s) := by
  unfold dropDrive
  repeat' first
    | with_reducible assumption
    | (intro x; beta_reduce)
    | (extract_lets +onlyGivenNames x; refine (fun (hx : Kept s0 x) => ?_) (?_ : Kept s0 x) <;> [clear_value x; subst x])
    | (extract_lets +onlyGivenNames x; clear_value x)
    | with_reducible apply Kept.ite
    | split
    | with_reducible apply setb_kept
    | with_reducible apply setReady_kept
    | with_reducible apply driveStop_kept
    | with_reducible apply shelfFail_kept
    | with_reducible apply showSlots_kept

theorem failDrive_kept (c reason : Nat) (s : State) (h : Kept s0 s) : Kept s0 (failDrive c reason s) := by
  unfold failDrive
  repeat' first
    | with_reducible assumption
    | (intro x; beta_reduce)
    | (extract_lets +onlyGivenNames x; refine (fun (hx : Kept s0 x) => ?_) (?_ : Kept s0 x) <;> [clear_value x; subst x])
    | (extract_lets +onlyGivenNames x; clear_value x)
    | with_reducible apply setb_kept
    | with_reducible apply wr_kept
    | with_reducible apply dropDrive_kept

theorem rescan_kept (c : Nat) (s : State) (h : Kept s0 s) : Kept s0 (rescan c s) := by
  unfold rescan
  repeat' first
    | with_reducible assumption
    | (intro x; beta_reduce)
    | with_reducible apply setb_kept
    | with_reducible apply wr_kept
    | with_reducible apply dropDrive_kept

theorem nvmeCompletion_kept (c : Nat) (ok : Bool) (k crit used : Nat) (s : State)
    (h : Kept s0 s) : Kept s0 (nvmeCompletion c ok k crit used s) := by
  unfold nvmeCompletion
  repeat' first
    | with_reducible assumption
    | (intro x; beta_reduce)
    | (extract_lets +onlyGivenNames x; refine (fun (hx : Kept s0 x) => ?_) (?_ : Kept s0 x) <;> [clear_value x; subst x])
    | (extract_lets +onlyGivenNames x; refine (fun (hx : Kept s0 x.2) => ?_) (?_ : Kept s0 x.2) <;> [clear_value x; subst x])
    | (extract_lets +onlyGivenNames x; clear_value x)
    | with_reducible apply Kept.ite
    | split
    | with_reducible apply failDrive_kept
    | with_reducible apply sat_kept
    | with_reducible apply driveDone_kept
    | with_reducible apply driveCount_kept
    | with_reducible apply wr_kept

theorem nvmeTimeout_kept (c : Nat) (s : State) (h : Kept s0 s) : Kept s0 (nvmeTimeout c s) := by
  unfold nvmeTimeout
  repeat' first
    | with_reducible assumption
    | (intro x; beta_reduce)
    | (extract_lets +onlyGivenNames x; refine (fun (hx : Kept s0 x) => ?_) (?_ : Kept s0 x) <;> [clear_value x; subst x])
    | (extract_lets +onlyGivenNames x; refine (fun (hx : Kept s0 x.2) => ?_) (?_ : Kept s0 x.2) <;> [clear_value x; subst x])
    | (extract_lets +onlyGivenNames x; clear_value x)
    | with_reducible apply Kept.ite
    | split
    | with_reducible apply failDrive_kept
    | with_reducible apply sat_kept
    | with_reducible apply advanceTo_kept

end Sys2Proof.Machine
end

