-- ==== Sys2Proof/Laws/KeptMessages.lean ====
section
/-! SUPPORT. What the operations of Machine/Messages.lean keep of the queue, the variant and soundness: one lemma for each, cited instead of its unfolding. -/

set_option linter.unusedTactic false
set_option linter.unreachableTactic false
set_option linter.unusedVariables false

namespace Sys2Proof.Machine

open Sys2Proof

variable {s0 : State}

theorem ordResume_kept (serial : Nat) (s : State) (h : Kept s0 s) : Kept s0 (ordResume serial s) := by
  unfold ordResume
  repeat' first
    | with_reducible assumption
    | (intro x; beta_reduce)
    | with_reducible apply Kept.ite
    | split
    | with_reducible apply ordGo_kept
    | with_reducible apply Kept.foldl
    | with_reducible apply Kept.foldl_snd
    | with_reducible apply Kept.foldl_fst

theorem afterMessage_kept (f : Frame) (s : State) (h : Kept s0 s) : Kept s0 (afterMessage f s) := by
  unfold afterMessage
  repeat' first
    | with_reducible assumption
    | (intro x; beta_reduce)
    | with_reducible apply settle_kept
    | with_reducible apply ordResume_kept

theorem opMessage_kept (f : Frame) (type op : Nat) (x : XOp) (act : State → State) (s : State)
    (hact : ∀ s, Kept s0 s → Kept s0 (act s)) (h : Kept s0 s) : Kept s0 (opMessage f type op x act s) := by
  unfold opMessage
  repeat' first
    | with_reducible assumption
    | (intro x; beta_reduce)
    | with_reducible apply hact
    | with_reducible apply receive_kept
    | with_reducible apply takeOp_kept
    | with_reducible apply afterMessage_kept

theorem contribution_kept (f : Frame) (x : XOp) (s : State) (h : Kept s0 s) : Kept s0 (contribution f x s) := by
  unfold contribution
  repeat' first
    | with_reducible assumption
    | (intro x; beta_reduce)
    | with_reducible apply ownerTake_kept

theorem takeReply_kept (x : XOp) (s : State) (h : Kept s0 s) : Kept s0 (takeReply x s) := by
  unfold takeReply
  repeat' first
    | with_reducible assumption
    | (intro x; beta_reduce)
    | with_reducible apply Kept.ite
    | split
    | with_reducible apply resendMoved_kept
    | with_reducible apply onReply_kept

theorem memberMessage_kept (f : Frame) (m : Member) (act : State → State) (s : State)
    (hact : ∀ s, Kept s0 s → Kept s0 (act s)) (h : Kept s0 s) : Kept s0 (memberMessage f m act s) := by
  unfold memberMessage
  repeat' first
    | with_reducible assumption
    | (intro x; beta_reduce)
    | with_reducible apply hact
    | with_reducible apply receive_kept
    | with_reducible apply afterMessage_kept

theorem takeVote_kept (f : Frame) (m : Member) (s : State) (h : Kept s0 s) : Kept s0 (takeVote f m s) := by
  unfold takeVote
  repeat' first
    | with_reducible assumption
    | (intro x; beta_reduce)
    | with_reducible apply Kept.ite
    | split
    | with_reducible apply onVote_kept

theorem takeDecision_kept (m : Member) (s : State) (h : Kept s0 s) : Kept s0 (takeDecision m s) := by
  unfold takeDecision
  repeat' first
    | with_reducible assumption
    | (intro x; beta_reduce)
    | (extract_lets +onlyGivenNames x; refine (fun (hx : Kept s0 x) => ?_) (?_ : Kept s0 x) <;> [clear_value x; subst x])
    | (extract_lets +onlyGivenNames x; clear_value x)
    | with_reducible apply Kept.ite
    | split
    | with_reducible apply lateCommit_kept
    | with_reducible apply onDecision_kept

theorem takeCrc_kept (m : Member) (s : State) (h : Kept s0 s) : Kept s0 (takeCrc m s) := by
  unfold takeCrc
  repeat' first
    | with_reducible assumption
    | (intro x; beta_reduce)
    | with_reducible apply Kept.ite
    | split
    | with_reducible apply crcCompare_kept
    | with_reducible apply modBx_kept
    | with_reducible apply Kept.foldl
    | with_reducible apply Kept.foldl_snd
    | with_reducible apply Kept.foldl_fst
    | (with_reducible apply Kept.upd; first | with_reducible assumption | with_reducible apply crcCompare_kept | with_reducible apply modBx_kept | with_reducible apply Kept.foldl | with_reducible apply Kept.foldl_snd | with_reducible apply Kept.foldl_fst)

theorem takeCellar_kept (m : Member) (s : State) (h : Kept s0 s) : Kept s0 (takeCellar m s) := by
  unfold takeCellar
  repeat' first
    | with_reducible assumption
    | (intro x; beta_reduce)
    | (extract_lets +onlyGivenNames x; refine (fun (hx : Kept s0 x) => ?_) (?_ : Kept s0 x) <;> [clear_value x; subst x])
    | (extract_lets +onlyGivenNames x; clear_value x)
    | with_reducible apply Kept.ite
    | split
    | with_reducible apply modBx_kept
    | with_reducible apply reducedToken_kept
    | (with_reducible apply Kept.upd; first | with_reducible assumption | with_reducible apply modBx_kept | with_reducible apply reducedToken_kept)

theorem takeAck_kept (f : Frame) (s : State) (h : Kept s0 s) : Kept s0 (takeAck f s) := by
  unfold takeAck
  repeat' first
    | with_reducible assumption
    | (intro x; beta_reduce)
    | with_reducible apply settle_kept
    | exact Kept.snd (by with_reducible assumption) (arrive_kept _ _ _ _ (by with_reducible assumption)).1
    | exact (arrive_kept _ _ _ _ (by with_reducible assumption)).1
    | exact (arrive_kept _ _ _ _ (by with_reducible assumption)).2 _ _ (by with_reducible assumption)
    | refine Kept.snd (by with_reducible assumption) ?_

end Sys2Proof.Machine
end

