-- ==== Sys2Proof/Laws/KeptAccess.lean ====
section
/-! SUPPORT. What the operations of Machine/Access.lean keep of the queue, the variant and soundness: one lemma for each, cited instead of its unfolding. -/

set_option linter.unusedTactic false
set_option linter.unreachableTactic false
set_option linter.unusedVariables false

namespace Sys2Proof.Machine

open Sys2Proof

variable {s0 : State}

theorem setLatch_kept (addr : Nat) (l : Latch) (s : State) (h : Kept s0 s) : Kept s0 (setLatch addr l s) := by
  unfold setLatch
  repeat' first
    | with_reducible assumption
    | (intro x; beta_reduce)
    | (with_reducible apply Kept.upd; first | with_reducible assumption)

theorem badAccess_kept (s : State) (h : Kept s0 s) : Kept s0 (badAccess s) := by
  unfold badAccess
  repeat' first
    | with_reducible assumption
    | (intro x; beta_reduce)
    | with_reducible apply sat_kept

theorem readEffect_kept (u off : Nat) (s : State) (h : Kept s0 s) : Kept s0 (readEffect u off s) := by
  unfold readEffect
  repeat' first
    | with_reducible assumption
    | (intro x; beta_reduce)
    | with_reducible apply Kept.ite
    | split
    | with_reducible apply latchTime_kept

theorem takeWord_kept (addr : Nat) (s : State) (h : Kept s0 s) : Kept s0 (takeWord addr s).2 := by
  unfold takeWord
  repeat' first
    | with_reducible assumption
    | (intro x; beta_reduce)
    | (extract_lets +onlyGivenNames x; refine (fun (hx : Kept s0 x) => ?_) (?_ : Kept s0 x) <;> [clear_value x; subst x])
    | (extract_lets +onlyGivenNames x; refine (fun (hx : Kept s0 x.2) => ?_) (?_ : Kept s0 x.2) <;> [clear_value x; subst x])
    | (extract_lets +onlyGivenNames x; clear_value x)
    | with_reducible apply Kept.ite
    | split
    | with_reducible apply readEffect_kept

theorem bar0Read_kept (addr width : Nat) (s : State) (h : Kept s0 s) : Kept s0 (bar0Read addr width s) := by
  unfold bar0Read
  repeat' first
    | with_reducible assumption
    | (intro x; beta_reduce)
    | (extract_lets +onlyGivenNames x; refine (fun (hx : Kept s0 x) => ?_) (?_ : Kept s0 x) <;> [clear_value x; subst x])
    | (extract_lets +onlyGivenNames x; refine (fun (hx : Kept s0 x.2) => ?_) (?_ : Kept s0 x.2) <;> [clear_value x; subst x])
    | (extract_lets +onlyGivenNames x; clear_value x)
    | with_reducible apply Kept.ite
    | split
    | with_reducible apply emit_kept
    | with_reducible apply badAccess_kept
    | with_reducible apply setLatch_kept
    | with_reducible apply takeWord_kept
    | refine Kept.snd (by with_reducible assumption) ?_

theorem clearPage_kept (u : Nat) (s : State) (h : Kept s0 s) : Kept s0 (clearPage u s) := by
  unfold clearPage
  repeat' first
    | with_reducible assumption
    | (intro x; beta_reduce)
    | (extract_lets +onlyGivenNames x; refine (fun (hx : Kept s0 x) => ?_) (?_ : Kept s0 x) <;> [clear_value x; subst x])
    | (extract_lets +onlyGivenNames x; clear_value x)
    | with_reducible apply Kept.ite
    | split
    | with_reducible apply cntClear_kept
    | with_reducible apply clearFields_kept
    | (with_reducible apply Kept.upd; first | with_reducible assumption | with_reducible apply cntClear_kept | with_reducible apply clearFields_kept)

theorem restorePage_kept (u : Nat) (s : State) (h : Kept s0 s) : Kept s0 (restorePage u s) := by
  unfold restorePage
  repeat' first
    | with_reducible assumption
    | (intro x; beta_reduce)
    | (extract_lets +onlyGivenNames x; refine (fun (hx : Kept s0 x) => ?_) (?_ : Kept s0 x) <;> [clear_value x; subst x])
    | (extract_lets +onlyGivenNames x; clear_value x)
    | with_reducible apply Kept.ite
    | split
    | with_reducible apply expertRestore_kept
    | with_reducible apply lifeAll_kept

theorem stageField_kept (x : Slot) (v : Nat) (s : State) (h : Kept s0 s) : Kept s0 (stageField x v s) := by
  unfold stageField
  repeat' first
    | with_reducible assumption
    | (intro x; beta_reduce)
    | (extract_lets +onlyGivenNames x; refine (fun (hx : Kept s0 x) => ?_) (?_ : Kept s0 x) <;> [clear_value x; subst x])
    | (extract_lets +onlyGivenNames x; clear_value x)
    | with_reducible apply Kept.ite
    | split
    | with_reducible apply stagedGainWrite_kept
    | (with_reducible apply Kept.upd; first | with_reducible assumption | with_reducible apply stagedGainWrite_kept)

theorem portEnable_kept (p : Nat) (v : Bool) (s : State) (h : Kept s0 s) : Kept s0 (portEnable p v s) := by
  unfold portEnable
  repeat' first
    | with_reducible assumption
    | (intro x; beta_reduce)
    | (extract_lets +onlyGivenNames x; refine (fun (hx : Kept s0 x) => ?_) (?_ : Kept s0 x) <;> [clear_value x; subst x])
    | (extract_lets +onlyGivenNames x; clear_value x)
    | with_reducible apply Kept.ite
    | split
    | with_reducible apply linkDown_kept
    | with_reducible apply portReady_kept
    | with_reducible apply setb_kept

theorem liveWrite_kept (u : Nat) (x : Slot) (v : Nat) (s : State) (h : Kept s0 s) : Kept s0 (liveWrite u x v s) := by
  unfold liveWrite
  repeat' first
    | with_reducible assumption
    | (intro x; beta_reduce)
    | (extract_lets +onlyGivenNames x; refine (fun (hx : Kept s0 x) => ?_) (?_ : Kept s0 x) <;> [clear_value x; subst x])
    | (extract_lets +onlyGivenNames x; clear_value x)
    | with_reducible apply Kept.ite
    | split
    | with_reducible apply wrU_kept
    | with_reducible apply ringEnable_kept
    | with_reducible apply doorbell_kept
    | with_reducible apply showPtpPort_kept
    | with_reducible apply showMaster_kept
    | with_reducible apply portEnable_kept
    | with_reducible apply loadHold_kept
    | with_reducible apply sleep_kept
    | with_reducible apply lifeCheck_kept
    | with_reducible apply lifeAll_kept
    | with_reducible apply failDie_kept

theorem w1cWrite_kept (x : Slot) (v : Nat) (s : State) (h : Kept s0 s) : Kept s0 (w1cWrite x v s) := by
  unfold w1cWrite
  repeat' first
    | with_reducible assumption
    | (intro x; beta_reduce)
    | with_reducible apply Kept.ite
    | split
    | with_reducible apply wrU_kept

theorem colCmd_kept (i op w : Nat) (s : State) (h : Kept s0 s) : Kept s0 (colCmd i op w s) := by
  unfold colCmd
  repeat' first
    | with_reducible assumption
    | (intro x; beta_reduce)
    | with_reducible apply Kept.ite
    | split
    | with_reducible apply loadPantry_kept
    | with_reducible apply evict_kept
    | with_reducible apply programCol_kept

theorem woAction_kept (a : Agent) (u : Nat) (x : Slot) (v w : Nat) (s : State)
    (h : Kept s0 s) : Kept s0 (woAction a u x v w s) := by
  unfold woAction
  repeat' first
    | with_reducible assumption
    | (intro x; beta_reduce)
    | (extract_lets +onlyGivenNames x; refine (fun (hx : Kept s0 x) => ?_) (?_ : Kept s0 x) <;> [clear_value x; subst x])
    | (extract_lets +onlyGivenNames x; clear_value x)
    | with_reducible apply Kept.ite
    | split
    | with_reducible apply stepNs_kept
    | with_reducible apply restorePage_kept
    | with_reducible apply clearPage_kept
    | with_reducible apply commitGo_kept
    | with_reducible apply discard_kept
    | with_reducible apply claim_kept
    | with_reducible apply releaseClaim_kept
    | with_reducible apply binLoad_kept
    | with_reducible apply colCmd_kept
    | with_reducible apply verifyReq_kept
    | with_reducible apply clearSel_kept
    | with_reducible apply auditClear_kept
    | with_reducible apply larderFlush_kept
    | with_reducible apply mixerTest_kept
    | with_reducible apply runClear_kept
    | with_reducible apply detectorReset_kept
    | with_reducible apply storeAck_kept
    | with_reducible apply stagingLoaded_kept
    | with_reducible apply rescan_kept
    | with_reducible apply dumpAck_kept
    | with_reducible apply dumpRestore_kept
    | with_reducible apply orderlyOff_kept
    | with_reducible apply resetKey_kept

theorem writeWord_kept (a : Agent) (u off w : Nat) (s : State) (h : Kept s0 s) : Kept s0 (writeWord a u off w s) := by
  unfold writeWord
  repeat' first
    | with_reducible assumption
    | (intro x; beta_reduce)
    | (extract_lets +onlyGivenNames x; refine (fun (hx : Kept s0 x) => ?_) (?_ : Kept s0 x) <;> [clear_value x; subst x])
    | (extract_lets +onlyGivenNames x; refine (fun (hx : Kept s0 x.2) => ?_) (?_ : Kept s0 x.2) <;> [clear_value x; subst x])
    | (extract_lets +onlyGivenNames x; clear_value x)
    | with_reducible apply Kept.ite
    | split
    | with_reducible apply wrU_kept
    | with_reducible apply sat_kept
    | with_reducible apply stageField_kept
    | with_reducible apply liveWrite_kept
    | with_reducible apply w1cWrite_kept
    | with_reducible apply woAction_kept
    | with_reducible apply Kept.foldl
    | with_reducible apply Kept.foldl_snd
    | with_reducible apply Kept.foldl_fst

theorem writeAt_kept (a : Agent) (addr w : Nat) (s : State) (h : Kept s0 s) : Kept s0 (writeAt a addr w s) := by
  unfold writeAt
  repeat' first
    | with_reducible assumption
    | (intro x; beta_reduce)
    | with_reducible apply Kept.ite
    | split
    | with_reducible apply writeWord_kept

theorem registerWrite_kept (a : Agent) (addr width value : Nat) (s : State)
    (h : Kept s0 s) : Kept s0 (registerWrite a addr width value s) := by
  unfold registerWrite
  repeat' first
    | with_reducible assumption
    | (intro x; beta_reduce)
    | (extract_lets +onlyGivenNames x; refine (fun (hx : Kept s0 x) => ?_) (?_ : Kept s0 x) <;> [clear_value x; subst x])
    | (extract_lets +onlyGivenNames x; clear_value x)
    | with_reducible apply Kept.ite
    | split
    | with_reducible apply setLatch_kept
    | with_reducible apply badAccess_kept
    | with_reducible apply writeAt_kept

theorem bar2Beyond_kept (a n : Nat) (s : State) (h : Kept s0 s) : Kept s0 (bar2Beyond a n s) := by
  unfold bar2Beyond
  repeat' first
    | with_reducible assumption
    | (intro x; beta_reduce)
    | with_reducible apply viewReport_kept

theorem bar2Read_kept (a n : Nat) (s : State) (h : Kept s0 s) : Kept s0 (bar2Read a n s) := by
  unfold bar2Read
  repeat' first
    | with_reducible assumption
    | (intro x; beta_reduce)
    | with_reducible apply Kept.ite
    | split
    | with_reducible apply emit_kept
    | with_reducible apply bar2Beyond_kept
    | with_reducible apply uncorrectable_kept

theorem poisonWrite_kept (a : Nat) (s : State) (h : Kept s0 s) : Kept s0 (poisonWrite a s) := by
  unfold poisonWrite
  repeat' first
    | with_reducible assumption
    | (intro x; beta_reduce)
    | (extract_lets +onlyGivenNames x; refine (fun (hx : Kept s0 x) => ?_) (?_ : Kept s0 x) <;> [clear_value x; subst x])
    | (extract_lets +onlyGivenNames x; clear_value x)
    | with_reducible apply satU_kept

theorem bar2Write_kept (a : Nat) (bs : List Byte) (s : State) (h : Kept s0 s) : Kept s0 (bar2Write a bs s) := by
  unfold bar2Write
  repeat' first
    | with_reducible assumption
    | (intro x; beta_reduce)
    | (extract_lets +onlyGivenNames x; refine (fun (hx : Kept s0 x) => ?_) (?_ : Kept s0 x) <;> [clear_value x; subst x])
    | (extract_lets +onlyGivenNames x; refine (fun (hx : Kept s0 x.2) => ?_) (?_ : Kept s0 x.2) <;> [clear_value x; subst x])
    | (extract_lets +onlyGivenNames x; clear_value x)
    | with_reducible apply Kept.ite
    | split
    | with_reducible apply poisonWrite_kept
    | with_reducible apply storeMem_kept
    | with_reducible apply bar2Beyond_kept
    | with_reducible apply Kept.foldl
    | with_reducible apply Kept.foldl_snd
    | with_reducible apply Kept.foldl_fst

theorem bar2Access_kept (offset width : Nat) (data : Option Nat) (s : State)
    (h : Kept s0 s) : Kept s0 (bar2Access offset width data s) := by
  unfold bar2Access
  repeat' first
    | with_reducible assumption
    | (intro x; beta_reduce)
    | (extract_lets +onlyGivenNames x; refine (fun (hx : Kept s0 x) => ?_) (?_ : Kept s0 x) <;> [clear_value x; subst x])
    | (extract_lets +onlyGivenNames x; refine (fun (hx : Kept s0 x.2) => ?_) (?_ : Kept s0 x.2) <;> [clear_value x; subst x])
    | (extract_lets +onlyGivenNames x; clear_value x)
    | with_reducible apply Kept.ite
    | split
    | with_reducible apply emit_kept
    | with_reducible apply sat_kept
    | with_reducible apply bar2Read_kept
    | with_reducible apply bar2Write_kept

end Sys2Proof.Machine
end

