-- ==== Sys2Proof/Laws/KeptCopy.lean ====
section
/-! SUPPORT. What the operations of Machine/Copy.lean keep of the queue, the variant and soundness: one lemma for each, cited instead of its unfolding. -/

set_option linter.unusedTactic false
set_option linter.unreachableTactic false
set_option linter.unusedVariables false

namespace Sys2Proof.Machine

open Sys2Proof

variable {s0 : State}

theorem copyCmd_kept (q : SeqId) (cmd : Cmd) (t : Nat) (s : State) (h : Kept s0 s) : Kept s0 (copyCmd q cmd t s) := by
  unfold copyCmd
  repeat' first
    | with_reducible assumption
    | (intro x; beta_reduce)
    | (extract_lets +onlyGivenNames x; refine (fun (hx : Kept s0 x) => ?_) (?_ : Kept s0 x) <;> [clear_value x; subst x])
    | (extract_lets +onlyGivenNames x; clear_value x)
    | with_reducible apply Kept.ite
    | split
    | with_reducible apply guardFault_kept
    | with_reducible apply track_kept
    | with_reducible apply CopyJob.report_kept
    | with_reducible apply setPc_kept
    | with_reducible apply noteIssue_kept

end Sys2Proof.Machine
end

