-- ==== Sys2Proof/Laws/KeptDelayed.lean ====
section
/-! SUPPORT. What the operations of Machine/Delayed.lean keep of the queue, the variant and soundness: one lemma for each, cited instead of its unfolding. -/

set_option linter.unusedTactic false
set_option linter.unreachableTactic false
set_option linter.unusedVariables false

namespace Sys2Proof.Machine

open Sys2Proof

variable {s0 : State}

theorem startHeld_kept (q : SeqId) (codes : List (Nat × Int)) (c : Cmd) (t : Nat) (s : State)
    (h : Kept s0 s) : Kept s0 (startHeld q codes c t s) := by
  unfold startHeld
  repeat' first
    | with_reducible assumption
    | (intro x; beta_reduce)
    | with_reducible apply Kept.ite
    | split
    | with_reducible apply engineCmd_kept
    | with_reducible apply productCmd_kept

theorem delayedStart_kept (q : SeqId) (codes : List (Nat × Int)) (s : State)
    (h : Kept s0 s) : Kept s0 (delayedStart q codes s) := by
  unfold delayedStart
  repeat' first
    | with_reducible assumption
    | (intro x; beta_reduce)
    | (extract_lets +onlyGivenNames x; refine (fun (hx : Kept s0 x) => ?_) (?_ : Kept s0 x) <;> [clear_value x; subst x])
    | (extract_lets +onlyGivenNames x; refine (fun (hx : Kept s0 x.2) => ?_) (?_ : Kept s0 x.2) <;> [clear_value x; subst x])
    | (extract_lets +onlyGivenNames x; clear_value x)
    | with_reducible apply Kept.ite
    | split
    | with_reducible apply startHeld_kept
    | with_reducible apply setSeqX_kept
    | with_reducible apply advanceTo_kept
    | (with_reducible apply Kept.upd; first | with_reducible assumption | with_reducible apply startHeld_kept | with_reducible apply setSeqX_kept | with_reducible apply advanceTo_kept)

end Sys2Proof.Machine
end

