-- ==== Sys2Proof/Laws/MemKept.lean ====
section
/-! SUPPORT. What leaves memory alone. -/

namespace Sys2Proof

open Sys2Proof.Machine

variable {s0 s t : State}

theorem MemKept.refl (s : State) : MemKept s s := ⟨fun _ => rfl⟩

theorem MemKept.trans {a b c : State} (h : MemKept a b) (k : MemKept b c) : MemKept a c :=
  ⟨fun x => (k.same x).trans (h.same x)⟩

theorem MemKept.of_eq (h : MemKept s0 s) (hm : t.mem = s.mem) : MemKept s0 t :=
  ⟨fun k => by rw [hm, h.same]⟩

/-- A change that leaves memory, said of the constructor. -/
theorem MemKept.upd (h : MemKept s0 s)
    (pending_ : List Instr) (variant_ : Variant) (stage_ : Stage) (d3hot_ : Bool) (perst_ : Bool) (core_ : Nat)
    (time_ : Nat) (flds_ : SMap FKey Nat) (stg_ : SMap FKey Nat) (tblWritten_ : List FKey) (commit_ : CommitCtl)
    (latches_ : NMap Latch) (poison_ : List Nat) (lineBusy_ : NMap Nat) (lastRing_ : Nat) (newPoison_ : List Nat)
    (unmet_ : List Nat) (segTags_ : NMap SegTag) (recent_ : List OldBytes) (lines_ : NMap LineMark)
    (overs_ : NMap OverRec) (opCount_ : Nat) (arrs_ : NMap ArrX) (dark_ : List Nat) (ledger_ : List (FKey × Nat))
    (progBase_ : NMap Nat) (ledgerBase_ : NMap Nat) (drives_ : NMap DriveX) (chains_ : NMap Chain)
    (queries_ : List Query) (job_ : JobX) (ptp_ : PtpX) (refreshed_ : NMap Nat) (refreshDue_ : List Nat)
    (drift_ : Option (Nat × Nat)) (frames_ : NMap FrameX) (selMaster_ : List Nat) (selState_ : List Nat)
    (bins_ : NMap Bin) (loads_ : NMap BinLoad) (loadCount_ : Nat) (seqx_ : NMap SeqX) (queues_ : NMap (List QTok))
    (tracker_ : List PendingOp) (aux_ : AuxX) (fault_ : FaultX) (power_ : PowerX) (shelf_ : ShelfX)
    (mergedC_ : NMap (Nat × Nat)) (oldLarder_ : List OldLarder) (busy_ : NMap Nat) (stopAt_ : Option Nat)
    (programDied_ : Bool) (out_ : List Output) (lossSampled_ : Bool) (freeCtr_ : Nat) :
    MemKept s0 (State.mk
      pending_ variant_ stage_ d3hot_ perst_ core_ time_ flds_ stg_ tblWritten_ commit_ latches_ s.mem poison_
      lineBusy_ lastRing_ newPoison_ unmet_ segTags_ recent_ lines_ overs_ opCount_ arrs_ dark_ ledger_ progBase_
      ledgerBase_ drives_ chains_ queries_ job_ ptp_ refreshed_ refreshDue_ drift_ frames_ selMaster_ selState_ bins_
      loads_ loadCount_ seqx_ queues_ tracker_ aux_ fault_ power_ shelf_ mergedC_ oldLarder_ busy_ stopAt_
      programDied_ out_ lossSampled_ freeCtr_) :=
  ⟨h.same⟩

theorem MemKept.ite {c : Prop} [Decidable c] {a b : State} (ha : MemKept s0 a) (hb : MemKept s0 b) :
    MemKept s0 (if c then a else b) := by
  split
  · exact ha
  · exact hb

theorem MemKept.foldl {α : Type} {f : State → α → State} (l : List α)
    (hf : ∀ s x, MemKept s0 s → MemKept s0 (f s x)) (h : MemKept s0 s) : MemKept s0 (l.foldl f s) := by
  induction l generalizing s with
  | nil => exact h
  | cons a l ih => exact ih (hf s a h)

theorem MemKept.foldl_mem {α : Type} {f : State → α → State} (l : List α)
    (hf : ∀ s x, x ∈ l → MemKept s0 s → MemKept s0 (f s x)) (h : MemKept s0 s) :
    MemKept s0 (l.foldl f s) := by
  induction l generalizing s with
  | nil => exact h
  | cons a l ih => exact ih (fun s x hx => hf s x (List.mem_cons_of_mem _ hx)) (hf s a List.mem_cons_self h)

theorem MemKept.foldr {α : Type} {f : α → State → State} (l : List α)
    (hf : ∀ x s, MemKept s0 s → MemKept s0 (f x s)) (h : MemKept s0 s) : MemKept s0 (l.foldr f s) := by
  induction l with
  | nil => exact h
  | cons a l ih => exact hf a _ ih

theorem MemKept.foldl_snd {α β : Type} {f : β × State → α → β × State} (l : List α) (b : β × State)
    (hf : ∀ b x, MemKept s0 b.2 → MemKept s0 (f b x).2) (h : MemKept s0 b.2) :
    MemKept s0 (l.foldl f b).2 := by
  induction l generalizing b with
  | nil => exact h
  | cons a l ih => exact ih (f b a) (hf b a h)

theorem MemKept.foldl_fst {α β : Type} {f : State × β → α → State × β} (l : List α) (b : State × β)
    (hf : ∀ b x, MemKept s0 b.1 → MemKept s0 (f b x).1) (h : MemKept s0 b.1) :
    MemKept s0 (l.foldl f b).1 := by
  induction l generalizing b with
  | nil => exact h
  | cons a l ih => exact ih (f b a) (hf b a h)

/-- The state of a pair that a function answered. -/
theorem MemKept.snd {β : Type} {p : β × State} {b : β} (e : p = (b, t)) (h : MemKept s0 p.2) : MemKept s0 t := by
  rw [e] at h
  exact h

end Sys2Proof
end

