-- ==== Sys2Proof/Laws/MemOps.lean ====
section
/-! SUPPORT. Which operations of Machine/Ops.lean leave every byte of memory: one lemma for each. -/

set_option linter.unusedTactic false
set_option linter.unreachableTactic false
set_option linter.unusedVariables false

namespace Sys2Proof.Machine

open Sys2Proof

variable {s0 : State}

theorem wrU_mem (f : Field) (u idx v : Nat) (s : State) (h : MemKept s0 s) : MemKept s0 (wrU f u idx v s) :=
  ⟨h.same⟩

theorem wr_mem (f : Field) (inst idx v : Nat) (s : State) (h : MemKept s0 s) : MemKept s0 (wr f inst idx v s) :=
  ⟨h.same⟩

theorem setb_mem (f : Field) (inst idx : Nat) (b : Bool) (s : State) (h : MemKept s0 s) : MemKept s0 (setb f inst idx b s) :=
  ⟨h.same⟩

theorem addW_mem (f : Field) (inst idx k : Nat) (s : State) (h : MemKept s0 s) : MemKept s0 (addW f inst idx k s) :=
  ⟨h.same⟩

theorem setSat_mem (f : Field) (pu : Nat) (s : State) (h : MemKept s0 s) : MemKept s0 (setSat f pu s) := by
  unfold setSat
  split <;> exact ⟨h.same⟩

theorem clearSatBit_mem (f : Field) (pu : Nat) (s : State) (h : MemKept s0 s) : MemKept s0 (clearSatBit f pu s) := by
  unfold clearSatBit
  repeat' first
    | with_reducible assumption
    | (intro x; beta_reduce)
    | (extract_lets +onlyGivenNames x; refine (fun (hx : MemKept s0 x) => ?_) (?_ : MemKept s0 x) <;> [clear_value x; subst x])
    | (extract_lets +onlyGivenNames x; clear_value x)
    | with_reducible apply MemKept.ite
    | split
    | with_reducible apply wrU_mem

theorem satU_mem (f : Field) (u idx k pu : Nat) (s : State) (h : MemKept s0 s) : MemKept s0 (satU f u idx k pu s) := by
  unfold satU
  extract_lets v s'
  split
  · exact setSat_mem _ _ _ ⟨h.same⟩
  · exact ⟨h.same⟩

theorem sat_mem (f : Field) (inst idx k : Nat) (s : State) (h : MemKept s0 s) : MemKept s0 (sat f inst idx k s) :=
  satU_mem _ _ _ _ _ _ h

theorem advanceTo_mem (t : Nat) (s : State) (h : MemKept s0 s) : MemKept s0 (advanceTo t s) :=
  ⟨h.same⟩

theorem free_mem (s : State) (h : MemKept s0 s) : MemKept s0 (free s).2 := by
  unfold free
  repeat' first
    | with_reducible assumption
    | (intro x; beta_reduce)
    | (with_reducible apply MemKept.upd; first | with_reducible assumption)

theorem emit_mem (o : Output) (s : State) (h : MemKept s0 s) : MemKept s0 (emit o s) := by
  unfold emit
  repeat' first
    | with_reducible assumption
    | (intro x; beta_reduce)
    | (with_reducible apply MemKept.upd; first | with_reducible assumption)

theorem clearPoison_mem (space a n : Nat) (s : State) (h : MemKept s0 s) : MemKept s0 (clearPoison space a n s) := by
  unfold clearPoison
  repeat' first
    | with_reducible assumption
    | (intro x; beta_reduce)
    | (extract_lets +onlyGivenNames x; refine (fun (hx : MemKept s0 x) => ?_) (?_ : MemKept s0 x) <;> [clear_value x; subst x])
    | (extract_lets +onlyGivenNames x; clear_value x)
    | (with_reducible apply MemKept.upd; first | with_reducible assumption)

theorem keepOld_mem (space a n : Nat) (land : Option Nat) (s : State)
    (h : MemKept s0 s) : MemKept s0 (keepOld space a n land s) := by
  unfold keepOld
  repeat' first
    | with_reducible assumption
    | (intro x; beta_reduce)
    | with_reducible apply MemKept.ite
    | split
    | (with_reducible apply MemKept.upd; first | with_reducible assumption)

theorem dropTags_mem (space a n : Nat) (s : State) (h : MemKept s0 s) : MemKept s0 (dropTags space a n s) := by
  unfold dropTags
  repeat' first
    | with_reducible assumption
    | (intro x; beta_reduce)
    | (with_reducible apply MemKept.upd; first | with_reducible assumption)

theorem larderAsOf_mem (c : Nat) (s : State) (h : MemKept s0 s) : MemKept s0 (larderAsOf c s) := by
  unfold larderAsOf
  repeat' first
    | with_reducible assumption
    | (intro x; beta_reduce)
    | with_reducible apply MemKept.ite
    | split
    | with_reducible apply MemKept.foldl
    | with_reducible apply MemKept.foldl_snd
    | with_reducible apply MemKept.foldl_fst
    | with_reducible apply MemKept.foldr
    | (with_reducible apply MemKept.upd; first | with_reducible assumption | with_reducible apply MemKept.foldl | with_reducible apply MemKept.foldl_snd | with_reducible apply MemKept.foldl_fst | with_reducible apply MemKept.foldr)

theorem poisonWord_mem (space a : Nat) (s : State) (h : MemKept s0 s) : MemKept s0 (poisonWord space a s) := by
  unfold poisonWord
  repeat' first
    | with_reducible assumption
    | (intro x; beta_reduce)
    | with_reducible apply MemKept.ite
    | split
    | (with_reducible apply MemKept.upd; first | with_reducible assumption)

theorem breakWord_mem (space a : Nat) (s : State) (h : MemKept s0 s) : MemKept s0 (breakWord space a s) := by
  unfold breakWord
  repeat' first
    | with_reducible assumption
    | (intro x; beta_reduce)
    | with_reducible apply MemKept.ite
    | split
    | (with_reducible apply MemKept.upd; first | with_reducible assumption)

theorem dueDump_mem (die : Nat) (s : State) (h : MemKept s0 s) : MemKept s0 (dueDump die s) := by
  unfold dueDump
  repeat' first
    | with_reducible assumption
    | (intro x; beta_reduce)
    | with_reducible apply MemKept.ite
    | split
    | with_reducible apply sat_mem
    | (with_reducible apply MemKept.upd; first | with_reducible assumption | with_reducible apply sat_mem)

theorem programFatal_mem (die kind tag : Nat) (s : State)
    (h : MemKept s0 s) : MemKept s0 (programFatal die kind tag s) := by
  unfold programFatal
  repeat' first
    | with_reducible assumption
    | (intro x; beta_reduce)
    | (extract_lets +onlyGivenNames x; refine (fun (hx : MemKept s0 x) => ?_) (?_ : MemKept s0 x) <;> [clear_value x; subst x])
    | (extract_lets +onlyGivenNames x; refine (fun (hx : MemKept s0 x.2) => ?_) (?_ : MemKept s0 x.2) <;> [clear_value x; subst x])
    | (extract_lets +onlyGivenNames x; clear_value x)
    | with_reducible apply MemKept.ite
    | split
    | with_reducible apply sat_mem
    | with_reducible apply wr_mem
    | with_reducible apply setb_mem
    | with_reducible apply dueDump_mem
    | (with_reducible apply MemKept.upd; first | with_reducible assumption | with_reducible apply sat_mem | with_reducible apply wr_mem | with_reducible apply setb_mem | with_reducible apply dueDump_mem)

theorem countUncorr_mem (space : Nat) (ws : List Nat) (s : State)
    (h : MemKept s0 s) : MemKept s0 (countUncorr space ws s) := by
  unfold countUncorr
  repeat' first
    | with_reducible assumption
    | (intro x; beta_reduce)
    | (extract_lets +onlyGivenNames x; refine (fun (hx : MemKept s0 x) => ?_) (?_ : MemKept s0 x) <;> [clear_value x; subst x])
    | (extract_lets +onlyGivenNames x; refine (fun (hx : MemKept s0 x.2) => ?_) (?_ : MemKept s0 x.2) <;> [clear_value x; subst x])
    | (extract_lets +onlyGivenNames x; clear_value x)
    | with_reducible apply satU_mem
    | with_reducible apply wrU_mem
    | with_reducible apply MemKept.foldl
    | with_reducible apply MemKept.foldl_snd
    | with_reducible apply MemKept.foldl_fst

theorem meetWords_mem (space : Nat) (ws : List Nat) (s : State)
    (h : MemKept s0 s) : MemKept s0 (meetWords space ws s) := by
  unfold meetWords
  repeat' first
    | with_reducible assumption
    | (intro x; beta_reduce)
    | (extract_lets +onlyGivenNames x; refine (fun (hx : MemKept s0 x) => ?_) (?_ : MemKept s0 x) <;> [clear_value x; subst x])
    | (extract_lets +onlyGivenNames x; clear_value x)
    | (with_reducible apply MemKept.upd; first | with_reducible assumption)

theorem setQueue_mem (d q : Nat) (ts : List QTok) (s : State) (h : MemKept s0 s) : MemKept s0 (setQueue d q ts s) :=
  ⟨h.same⟩

theorem settleHead_mem (dieCode n : Nat) (s : State) (h : MemKept s0 s) : MemKept s0 (settleHead dieCode n s) := by
  unfold settleHead
  split
  · exact h
  · extract_lets r
    split
    · exact h
    · exact sat_mem _ _ _ _ _ (setQueue_mem _ _ _ _ h)

theorem hostRingWrite_mem (r n : Nat) (bs : List Byte) (s : State)
    (h : MemKept s0 s) : MemKept s0 (hostRingWrite r n bs s) := by
  unfold hostRingWrite
  repeat' first
    | with_reducible assumption
    | (intro x; beta_reduce)
    | (extract_lets +onlyGivenNames x; refine (fun (hx : MemKept s0 x) => ?_) (?_ : MemKept s0 x) <;> [clear_value x; subst x])
    | (extract_lets +onlyGivenNames x; clear_value x)
    | with_reducible apply emit_mem
    | with_reducible apply wr_mem

theorem hostRecord_mem (d token ns : Nat) (s : State) (h : MemKept s0 s) : MemKept s0 (hostRecord d token ns s) := by
  unfold hostRecord
  repeat' first
    | with_reducible assumption
    | (intro x; beta_reduce)
    | (extract_lets +onlyGivenNames x; refine (fun (hx : MemKept s0 x) => ?_) (?_ : MemKept s0 x) <;> [clear_value x; subst x])
    | (extract_lets +onlyGivenNames x; clear_value x)
    | with_reducible apply MemKept.ite
    | split
    | with_reducible apply setb_mem
    | with_reducible apply sat_mem
    | with_reducible apply hostRingWrite_mem

end Sys2Proof.Machine
end

