-- ==== Sys2Proof/Laws/MemFlags.lean ====
section
/-! SUPPORT. Which operations of Machine/Flags.lean leave every byte of memory: one lemma for each. -/

set_option linter.unusedTactic false
set_option linter.unreachableTactic false
set_option linter.unusedVariables false

namespace Sys2Proof.Machine

open Sys2Proof

variable {s0 : State}

theorem setPred_mem (q : SeqId) (i : Nat) (b : Bool) (s : State) (h : MemKept s0 s) : MemKept s0 (setPred q i b s) := by
  unfold setPred
  repeat' first
    | with_reducible assumption
    | (intro x; beta_reduce)
    | with_reducible apply wr_mem

theorem foldStatus_mem (q : SeqId) (tok : Nat) (s : State) (h : MemKept s0 s) : MemKept s0 (foldStatus q tok s) := by
  unfold foldStatus
  repeat' first
    | with_reducible assumption
    | (intro x; beta_reduce)
    | with_reducible apply wr_mem

theorem setLast_mem (q : SeqId) (tok : Nat) (s : State) (h : MemKept s0 s) : MemKept s0 (setLast q tok s) := by
  unfold setLast
  repeat' first
    | with_reducible assumption
    | (intro x; beta_reduce)
    | with_reducible apply wr_mem
    | with_reducible apply setb_mem

theorem statusLoad_mem (q : SeqId) (toks : List Nat) (s : State)
    (h : MemKept s0 s) : MemKept s0 (statusLoad q toks s) := by
  unfold statusLoad
  repeat' first
    | with_reducible assumption
    | (intro x; beta_reduce)
    | with_reducible apply setLast_mem
    | with_reducible apply foldStatus_mem
    | with_reducible apply MemKept.foldl
    | with_reducible apply MemKept.foldl_snd
    | with_reducible apply MemKept.foldl_fst

theorem wrA_mem (f : Field) (die p sub v : Nat) (s : State) (h : MemKept s0 s) : MemKept s0 (wrA f die p sub v s) :=
  ⟨h.same⟩

end Sys2Proof.Machine
end

