-- ==== Sys2Proof/Laws/MemSequencer.lean ====
section
/-! SUPPORT. Which operations of Machine/Sequencer.lean leave every byte of memory: one lemma for each. -/

set_option linter.unusedTactic false
set_option linter.unreachableTactic false
set_option linter.unusedVariables false

namespace Sys2Proof.Machine

open Sys2Proof

variable {s0 : State}

theorem setSeqX_mem (q : SeqId) (x : SeqX) (s : State) (h : MemKept s0 s) : MemKept s0 (setSeqX q x s) := by
  unfold setSeqX
  repeat' first
    | with_reducible assumption
    | (intro x; beta_reduce)
    | (with_reducible apply MemKept.upd; first | with_reducible assumption)

theorem setSeqState_mem (q : SeqId) (v : Nat) (s : State) (h : MemKept s0 s) : MemKept s0 (setSeqState q v s) := by
  unfold setSeqState
  repeat' first
    | with_reducible assumption
    | (intro x; beta_reduce)
    | with_reducible apply wr_mem

theorem toIdle_mem (q : SeqId) (s : State) (h : MemKept s0 s) : MemKept s0 (toIdle q s) := by
  unfold toIdle
  repeat' first
    | with_reducible assumption
    | (intro x; beta_reduce)
    | with_reducible apply setSeqState_mem

theorem setPc_mem (q : SeqId) (n : Nat) (s : State) (h : MemKept s0 s) : MemKept s0 (setPc q n s) := by
  unfold setPc
  repeat' first
    | with_reducible assumption
    | (intro x; beta_reduce)
    | (extract_lets +onlyGivenNames x; refine (fun (hx : MemKept s0 x) => ?_) (?_ : MemKept s0 x) <;> [clear_value x; subst x])
    | (extract_lets +onlyGivenNames x; clear_value x)
    | with_reducible apply MemKept.ite
    | split
    | with_reducible apply wr_mem
    | with_reducible apply toIdle_mem

theorem popQueue_mem (q : SeqId) (n from' : Nat) (s : State) (h : MemKept s0 s) : MemKept s0 (popQueue q n from' s).2 := by
  unfold popQueue
  extract_lets s'
  have h' : MemKept s0 s' := settleHead_mem _ _ _ h
  clear_value s'
  split
  · exact h'
  · exact settleHead_mem _ _ _ (setQueue_mem _ _ _ _ h')

theorem enterWait_mem (q : SeqId) (n from' : Nat) (s : State) (h : MemKept s0 s) : MemKept s0 (enterWait q n from' s) := by
  unfold enterWait
  repeat' first
    | with_reducible assumption
    | (intro x; beta_reduce)
    | (extract_lets +onlyGivenNames x; refine (fun (hx : MemKept s0 x) => ?_) (?_ : MemKept s0 x) <;> [clear_value x; subst x])
    | (extract_lets +onlyGivenNames x; clear_value x)
    | with_reducible apply setSeqX_mem
    | with_reducible apply setb_mem
    | with_reducible apply wr_mem
    | with_reducible apply setSeqState_mem
    | (with_reducible apply MemKept.upd; first | with_reducible assumption | with_reducible apply setSeqX_mem | with_reducible apply setb_mem | with_reducible apply wr_mem | with_reducible apply setSeqState_mem)

theorem leaveWait_mem (q : SeqId) (s : State) (h : MemKept s0 s) : MemKept s0 (leaveWait q s) := by
  unfold leaveWait
  repeat' first
    | with_reducible assumption
    | (intro x; beta_reduce)
    | with_reducible apply MemKept.ite
    | split
    | with_reducible apply setb_mem
    | with_reducible apply setSeqState_mem
    | with_reducible apply setSeqX_mem
    | (with_reducible apply MemKept.upd; first | with_reducible assumption | with_reducible apply setb_mem | with_reducible apply setSeqState_mem | with_reducible apply setSeqX_mem)

theorem doWaits_mem (q : SeqId) (c : Cmd) (s : State) (h : MemKept s0 s) : MemKept s0 (doWaits q c s).2 := by
  unfold doWaits
  extract_lets x start ra
  have hra : MemKept s0 ra.2 := by
    show MemKept s0 (ite _ _ _ : Option (List Nat × Option Nat) × State).2
    repeat' first
      | with_reducible assumption
      | split
      | with_reducible apply setSeqX_mem
      | with_reducible apply enterWait_mem
      | (refine MemKept.snd (by with_reducible assumption) ?_; apply popQueue_mem)
  clear_value ra
  obtain ⟨o, s'⟩ := ra
  cases o with
  | none => exact hra
  | some o =>
    obtain ⟨o1, o2⟩ := o
    show MemKept s0 (ite _ _ _ : Option (List Nat × Option Nat) × State).2
    replace hra : MemKept s0 s' := hra
    repeat' first
      | with_reducible assumption
      | split
      | with_reducible apply setSeqX_mem
      | with_reducible apply enterWait_mem
      | (refine MemKept.snd (by with_reducible assumption) ?_; apply popQueue_mem)

theorem loadStatus_mem (q : SeqId) (toks : List Nat) (s : State)
    (h : MemKept s0 s) : MemKept s0 (loadStatus q toks s) := by
  unfold loadStatus
  repeat' first
    | with_reducible assumption
    | (intro x; beta_reduce)
    | (extract_lets +onlyGivenNames x; refine (fun (hx : MemKept s0 x) => ?_) (?_ : MemKept s0 x) <;> [clear_value x; subst x])
    | (extract_lets +onlyGivenNames x; refine (fun (hx : MemKept s0 x.2) => ?_) (?_ : MemKept s0 x.2) <;> [clear_value x; subst x])
    | (extract_lets +onlyGivenNames x; clear_value x)
    | with_reducible apply MemKept.ite
    | split
    | with_reducible apply statusLoad_mem
    | with_reducible apply setSeqX_mem
    | (with_reducible apply MemKept.upd; first | with_reducible assumption | with_reducible apply statusLoad_mem | with_reducible apply setSeqX_mem)

theorem noteIssue_mem (q : SeqId) (t : Nat) (s : State) (h : MemKept s0 s) : MemKept s0 (noteIssue q t s) := by
  unfold noteIssue
  repeat' first
    | with_reducible assumption
    | (intro x; beta_reduce)
    | (extract_lets +onlyGivenNames x; refine (fun (hx : MemKept s0 x) => ?_) (?_ : MemKept s0 x) <;> [clear_value x; subst x])
    | (extract_lets +onlyGivenNames x; clear_value x)
    | with_reducible apply addW_mem
    | with_reducible apply wr_mem
    | with_reducible apply setSeqX_mem
    | (with_reducible apply MemKept.upd; first | with_reducible assumption | with_reducible apply addW_mem | with_reducible apply wr_mem | with_reducible apply setSeqX_mem)

/-- The state in which a command that issues runs. -/
theorem prepare_mem (q : SeqId) (cls op : Nat) (s : State) (h : MemKept s0 s) :
    (∀ t, prepare q cls op s = .hold t → MemKept s0 t) ∧
      ∀ t c n ts b, prepare q cls op s = .go t c n ts b → MemKept s0 t := by
  have hw := fun c s (h : MemKept s0 s) => doWaits_mem q c s h
  unfold prepare
  split
  · simp [h]
  · rename_i c _
    split
    · simp [h]
    · split
      · rename_i e
        have := MemKept.snd e (hw c s h)
        simp [this]
      · rename_i toks pop s' e
        have hs := MemKept.snd e (hw c s h)
        extract_lets t1 stopped s1 s2
        split
        · simp [h]
        · refine ⟨by simp, fun t c' n ts b e => ?_⟩
          have : t = s2 := by
            injection e with e
            exact e.symm
          subst this
          have h1 : MemKept s0 s1 := advanceTo_mem _ _ (leaveWait_mem _ _ hs)
          show MemKept s0 (if c.statusLoad then loadStatus q toks s1 else s1)
          split
          · exact loadStatus_mem _ _ _ h1
          · exact h1


theorem markLines_mem (p : PendingOp) (s : State) (h : MemKept s0 s) : MemKept s0 (markLines p s) := by
  unfold markLines
  repeat' first
    | with_reducible assumption
    | (intro x; beta_reduce)
    | (extract_lets +onlyGivenNames x; refine (fun (hx : MemKept s0 x) => ?_) (?_ : MemKept s0 x) <;> [clear_value x; subst x])
    | (extract_lets +onlyGivenNames x; refine (fun (hx : MemKept s0 x.2) => ?_) (?_ : MemKept s0 x.2) <;> [clear_value x; subst x])
    | (extract_lets +onlyGivenNames x; clear_value x)
    | with_reducible apply MemKept.foldl
    | with_reducible apply MemKept.foldl_snd
    | with_reducible apply MemKept.foldl_fst
    | (with_reducible apply MemKept.upd; first | with_reducible assumption | with_reducible apply MemKept.foldl | with_reducible apply MemKept.foldl_snd | with_reducible apply MemKept.foldl_fst)

theorem remarkLines_mem (p : PendingOp) (land : Option Nat) (s : State)
    (h : MemKept s0 s) : MemKept s0 (remarkLines p land s) := by
  unfold remarkLines
  repeat' first
    | with_reducible assumption
    | (intro x; beta_reduce)
    | with_reducible apply MemKept.ite
    | split
    | (with_reducible apply MemKept.upd; first | with_reducible assumption)

theorem addOp_mem (p : PendingOp) (s : State) (h : MemKept s0 s) : MemKept s0 (addOp p s) := by
  unfold addOp
  repeat' first
    | with_reducible assumption
    | (intro x; beta_reduce)
    | (extract_lets +onlyGivenNames x; refine (fun (hx : MemKept s0 x) => ?_) (?_ : MemKept s0 x) <;> [clear_value x; subst x])
    | (extract_lets +onlyGivenNames x; clear_value x)
    | with_reducible apply markLines_mem
    | (with_reducible apply MemKept.upd; first | with_reducible assumption | with_reducible apply markLines_mem)

theorem track_mem (p : PendingOp) (s : State) (h : MemKept s0 s) : MemKept s0 (track p s) := by
  unfold track
  repeat' first
    | with_reducible assumption
    | (intro x; beta_reduce)
    | (extract_lets +onlyGivenNames x; refine (fun (hx : MemKept s0 x) => ?_) (?_ : MemKept s0 x) <;> [clear_value x; subst x])
    | (extract_lets +onlyGivenNames x; clear_value x)
    | with_reducible apply MemKept.ite
    | split
    | with_reducible apply addOp_mem
    | with_reducible apply wr_mem

theorem setOverFlag_mem (q : SeqId) (f : Nat) (o : OverflowFlag) (s : State)
    (h : MemKept s0 s) : MemKept s0 (setOverFlag q f o s) := by
  unfold setOverFlag
  repeat' first
    | with_reducible assumption
    | (intro x; beta_reduce)
    | (extract_lets +onlyGivenNames x; refine (fun (hx : MemKept s0 x) => ?_) (?_ : MemKept s0 x) <;> [clear_value x; subst x])
    | (extract_lets +onlyGivenNames x; clear_value x)
    | with_reducible apply setSeqX_mem
    | (with_reducible apply MemKept.upd; first | with_reducible assumption | with_reducible apply setSeqX_mem)

theorem noteOver_mem (p : PendingOp) (s : State) (h : MemKept s0 s) : MemKept s0 (noteOver p s) := by
  unfold noteOver
  repeat' first
    | with_reducible assumption
    | (intro x; beta_reduce)
    | (extract_lets +onlyGivenNames x; refine (fun (hx : MemKept s0 x) => ?_) (?_ : MemKept s0 x) <;> [clear_value x; subst x])
    | (extract_lets +onlyGivenNames x; refine (fun (hx : MemKept s0 x.2) => ?_) (?_ : MemKept s0 x.2) <;> [clear_value x; subst x])
    | (extract_lets +onlyGivenNames x; clear_value x)
    | with_reducible apply MemKept.ite
    | split
    | (with_reducible apply MemKept.upd; first | with_reducible assumption)

theorem setBusy_mem (k c : Nat) (s : State) (h : MemKept s0 s) : MemKept s0 (setBusy k c s) := by
  unfold setBusy
  repeat' first
    | with_reducible assumption
    | (intro x; beta_reduce)
    | (with_reducible apply MemKept.upd; first | with_reducible assumption)

theorem applyCount_mem (k : Count) (s : State) (h : MemKept s0 s) : MemKept s0 (applyCount k s) := by
  unfold applyCount
  repeat' first
    | with_reducible assumption
    | (intro x; beta_reduce)
    | with_reducible apply MemKept.ite
    | split
    | with_reducible apply sat_mem
    | with_reducible apply satU_mem
    | with_reducible apply wrU_mem

theorem keepLarder_mem (l : Nat) (w : LarderWrite) (s : State) (h : MemKept s0 s) : MemKept s0 (keepLarder l w s) := by
  unfold keepLarder
  repeat' first
    | with_reducible assumption
    | (intro x; beta_reduce)
    | (extract_lets +onlyGivenNames x; refine (fun (hx : MemKept s0 x) => ?_) (?_ : MemKept s0 x) <;> [clear_value x; subst x])
    | (extract_lets +onlyGivenNames x; clear_value x)
    | (with_reducible apply MemKept.upd; first | with_reducible assumption)

theorem applyLarder_mem (l : Nat) (w : LarderWrite) (s : State) (h : MemKept s0 s) : MemKept s0 (applyLarder l w s) := by
  unfold applyLarder
  repeat' first
    | with_reducible assumption
    | (intro x; beta_reduce)
    | (extract_lets +onlyGivenNames x; refine (fun (hx : MemKept s0 x) => ?_) (?_ : MemKept s0 x) <;> [clear_value x; subst x])
    | (extract_lets +onlyGivenNames x; refine (fun (hx : MemKept s0 x.2) => ?_) (?_ : MemKept s0 x.2) <;> [clear_value x; subst x])
    | (extract_lets +onlyGivenNames x; clear_value x)
    | with_reducible apply MemKept.ite
    | split
    | with_reducible apply keepLarder_mem
    | with_reducible apply wrU_mem
    | (with_reducible apply MemKept.upd; first | with_reducible assumption | with_reducible apply keepLarder_mem | with_reducible apply wrU_mem)

theorem applyAudit_mem (a : AuditSample) (s : State) (h : MemKept s0 s) : MemKept s0 (applyAudit a s) := by
  unfold applyAudit
  repeat' first
    | with_reducible assumption
    | (intro x; beta_reduce)
    | (extract_lets +onlyGivenNames x; refine (fun (hx : MemKept s0 x) => ?_) (?_ : MemKept s0 x) <;> [clear_value x; subst x])
    | (extract_lets +onlyGivenNames x; clear_value x)
    | with_reducible apply MemKept.ite
    | split
    | with_reducible apply sat_mem
    | with_reducible apply wr_mem

theorem sampleLoss_mem (ws : List WriteBack) (s : State) (h : MemKept s0 s) : MemKept s0 (sampleLoss ws s) := by
  unfold sampleLoss
  repeat' first
    | with_reducible assumption
    | (intro x; beta_reduce)
    | (extract_lets +onlyGivenNames x; refine (fun (hx : MemKept s0 x) => ?_) (?_ : MemKept s0 x) <;> [clear_value x; subst x])
    | (extract_lets +onlyGivenNames x; clear_value x)
    | with_reducible apply MemKept.ite
    | split
    | with_reducible apply wr_mem
    | (with_reducible apply MemKept.upd; first | with_reducible assumption | with_reducible apply wr_mem)

theorem settleAudits_mem (ap : Nat) (s : State) (h : MemKept s0 s) : MemKept s0 (settleAudits ap s) := by
  unfold settleAudits
  repeat' first
    | with_reducible assumption
    | (intro x; beta_reduce)
    | (extract_lets +onlyGivenNames x; refine (fun (hx : MemKept s0 x) => ?_) (?_ : MemKept s0 x) <;> [clear_value x; subst x])
    | (extract_lets +onlyGivenNames x; refine (fun (hx : MemKept s0 x.2) => ?_) (?_ : MemKept s0 x.2) <;> [clear_value x; subst x])
    | (extract_lets +onlyGivenNames x; clear_value x)
    | with_reducible apply applyAudit_mem
    | with_reducible apply MemKept.foldl
    | with_reducible apply MemKept.foldl_snd
    | with_reducible apply MemKept.foldl_fst
    | with_reducible apply MemKept.foldr
    | (with_reducible apply MemKept.upd; first | with_reducible assumption | with_reducible apply applyAudit_mem | with_reducible apply MemKept.foldl | with_reducible apply MemKept.foldl_snd | with_reducible apply MemKept.foldl_fst | with_reducible apply MemKept.foldr)

theorem refreshTracker_mem (s : State) (h : MemKept s0 s) : MemKept s0 (refreshTracker s) := by
  unfold refreshTracker
  repeat' first
    | with_reducible assumption
    | (intro x; beta_reduce)
    | with_reducible apply wr_mem
    | with_reducible apply MemKept.foldl
    | with_reducible apply MemKept.foldl_snd
    | with_reducible apply MemKept.foldl_fst

end Sys2Proof.Machine
end

