-- ==== Sys2Proof/Laws/MemControl.lean ====
section
/-! SUPPORT. Which operations of Machine/Control.lean leave every byte of memory: one lemma for each. -/

set_option linter.unusedTactic false
set_option linter.unreachableTactic false
set_option linter.unusedVariables false

namespace Sys2Proof.Machine

open Sys2Proof

variable {s0 : State}

theorem setReg_mem (q : SeqId) (r v : Nat) (s : State) (h : MemKept s0 s) : MemKept s0 (setReg q r v s) := by
  unfold setReg
  repeat' first
    | with_reducible assumption
    | (intro x; beta_reduce)
    | with_reducible apply wr_mem

theorem setDreg_mem (q : SeqId) (f : Cmd → State → Nat) (c : Cmd) (s : State)
    (h : MemKept s0 s) : MemKept s0 (setDreg q f c s) := by
  unfold setDreg
  repeat' first
    | with_reducible assumption
    | (intro x; beta_reduce)
    | with_reducible apply setReg_mem

theorem jumpTo_mem (q : SeqId) (c : Cmd) (s : State) (h : MemKept s0 s) : MemKept s0 (jumpTo q c s) := by
  unfold jumpTo
  repeat' first
    | with_reducible assumption
    | (intro x; beta_reduce)
    | with_reducible apply setPc_mem
    | with_reducible apply setSeqState_mem

theorem setFlag_mem (q : SeqId) (f : Nat) (b : Bool) (o : Option OverflowFlag) (s : State)
    (h : MemKept s0 s) : MemKept s0 (setFlag q f b o s) := by
  unfold setFlag
  repeat' first
    | with_reducible assumption
    | (intro x; beta_reduce)
    | (extract_lets +onlyGivenNames x; refine (fun (hx : MemKept s0 x) => ?_) (?_ : MemKept s0 x) <;> [clear_value x; subst x])
    | (extract_lets +onlyGivenNames x; refine (fun (hx : MemKept s0 x.2) => ?_) (?_ : MemKept s0 x.2) <;> [clear_value x; subst x])
    | (extract_lets +onlyGivenNames x; clear_value x)
    | with_reducible apply MemKept.ite
    | split
    | with_reducible apply setSeqX_mem
    | with_reducible apply setPred_mem
    | (with_reducible apply MemKept.upd; first | with_reducible assumption | with_reducible apply setSeqX_mem | with_reducible apply setPred_mem)

theorem clearSticky_mem (q : SeqId) (s : State) (h : MemKept s0 s) : MemKept s0 (clearSticky q s) := by
  unfold clearSticky
  repeat' first
    | with_reducible assumption
    | (intro x; beta_reduce)
    | with_reducible apply wr_mem
    | with_reducible apply setSeqX_mem
    | (with_reducible apply MemKept.upd; first | with_reducible assumption | with_reducible apply wr_mem | with_reducible apply setSeqX_mem)

theorem stopSeq_mem (q : SeqId) (s : State) (h : MemKept s0 s) : MemKept s0 (stopSeq q s) := by
  unfold stopSeq
  repeat' first
    | with_reducible assumption
    | (intro x; beta_reduce)
    | with_reducible apply MemKept.ite
    | split
    | with_reducible apply setb_mem
    | with_reducible apply setSeqState_mem
    | with_reducible apply setSeqX_mem
    | (with_reducible apply MemKept.upd; first | with_reducible assumption | with_reducible apply setb_mem | with_reducible apply setSeqState_mem | with_reducible apply setSeqX_mem)

theorem programStop_mem (s : State) (h : MemKept s0 s) : MemKept s0 (programStop s) := by
  unfold programStop
  repeat' first
    | with_reducible assumption
    | (intro x; beta_reduce)
    | with_reducible apply MemKept.ite
    | split
    | with_reducible apply stopSeq_mem
    | with_reducible apply advanceTo_mem
    | with_reducible apply MemKept.foldl
    | with_reducible apply MemKept.foldl_snd
    | with_reducible apply MemKept.foldl_fst
    | (with_reducible apply MemKept.upd; first | with_reducible assumption | with_reducible apply stopSeq_mem | with_reducible apply advanceTo_mem | with_reducible apply MemKept.foldl | with_reducible apply MemKept.foldl_snd | with_reducible apply MemKept.foldl_fst)

end Sys2Proof.Machine
end

