-- ==== Sys2Proof/Laws/MemArrays.lean ====
section
/-! SUPPORT. Which operations of Machine/Arrays.lean leave every byte of memory: one lemma for each. -/

set_option linter.unusedTactic false
set_option linter.unreachableTactic false
set_option linter.unusedVariables false

namespace Sys2Proof.Machine

open Sys2Proof

variable {s0 : State}

theorem setArrX_mem (die p : Nat) (x : ArrX) (s : State) (h : MemKept s0 s) : MemKept s0 (setArrX die p x s) := by
  unfold setArrX
  repeat' first
    | with_reducible assumption
    | (intro x; beta_reduce)
    | (with_reducible apply MemKept.upd; first | with_reducible assumption)

theorem markUnready_mem (inst : Nat) (s : State) (h : MemKept s0 s) : MemKept s0 (markUnready inst s) := by
  unfold markUnready
  repeat' first
    | with_reducible assumption
    | (intro x; beta_reduce)
    | with_reducible apply MemKept.ite
    | split
    | (with_reducible apply MemKept.upd; first | with_reducible assumption)

theorem settleWrites_mem (s : State) (h : MemKept s0 s) : MemKept s0 (settleWrites s) := by
  unfold settleWrites
  repeat' first
    | with_reducible assumption
    | (intro x; beta_reduce)
    | (with_reducible apply MemKept.upd; first | with_reducible assumption)

theorem setReady_mem (u : Nat) (ready : Bool) (reason detail : Nat) (s : State)
    (h : MemKept s0 s) : MemKept s0 (setReady u ready reason detail s) := by
  unfold setReady
  repeat' first
    | with_reducible assumption
    | (intro x; beta_reduce)
    | (extract_lets +onlyGivenNames x; refine (fun (hx : MemKept s0 x) => ?_) (?_ : MemKept s0 x) <;> [clear_value x; subst x])
    | (extract_lets +onlyGivenNames x; clear_value x)
    | with_reducible apply MemKept.ite
    | split
    | with_reducible apply settleWrites_mem
    | with_reducible apply wrU_mem
    | with_reducible apply markUnready_mem

theorem advanceAudit_mem (inst die p l : Nat) (s : State)
    (h : MemKept s0 s) : MemKept s0 (advanceAudit inst die p l s) := by
  unfold advanceAudit
  repeat' first
    | with_reducible assumption
    | (intro x; beta_reduce)
    | (extract_lets +onlyGivenNames x; refine (fun (hx : MemKept s0 x) => ?_) (?_ : MemKept s0 x) <;> [clear_value x; subst x])
    | (extract_lets +onlyGivenNames x; refine (fun (hx : MemKept s0 x.2) => ?_) (?_ : MemKept s0 x.2) <;> [clear_value x; subst x])
    | (extract_lets +onlyGivenNames x; clear_value x)
    | with_reducible apply MemKept.ite
    | split
    | with_reducible apply setArrX_mem
    | (with_reducible apply MemKept.upd; first | with_reducible assumption | with_reducible apply setArrX_mem)

theorem abortSweep_mem (inst die p t : Nat) (s : State) (h : MemKept s0 s) : MemKept s0 (abortSweep inst die p t s) := by
  unfold abortSweep
  repeat' first
    | with_reducible assumption
    | (intro x; beta_reduce)
    | (extract_lets +onlyGivenNames x; refine (fun (hx : MemKept s0 x) => ?_) (?_ : MemKept s0 x) <;> [clear_value x; subst x])
    | (extract_lets +onlyGivenNames x; refine (fun (hx : MemKept s0 x.2) => ?_) (?_ : MemKept s0 x.2) <;> [clear_value x; subst x])
    | (extract_lets +onlyGivenNames x; clear_value x)
    | with_reducible apply MemKept.ite
    | split
    | with_reducible apply setArrX_mem
    | with_reducible apply sat_mem
    | (with_reducible apply MemKept.upd; first | with_reducible assumption | with_reducible apply setArrX_mem | with_reducible apply sat_mem)

theorem occupyArrays_mem (inst die t : Nat) (sparse : Bool) (arrs : List (Nat × Nat × ArrRes × SegIn)) (s : State)
    (h : MemKept s0 s) : MemKept s0 (occupyArrays inst die t sparse arrs s) := by
  unfold occupyArrays
  repeat' first
    | with_reducible assumption
    | (intro x; beta_reduce)
    | (extract_lets +onlyGivenNames x; refine (fun (hx : MemKept s0 x) => ?_) (?_ : MemKept s0 x) <;> [clear_value x; subst x])
    | (extract_lets +onlyGivenNames x; refine (fun (hx : MemKept s0 x.2) => ?_) (?_ : MemKept s0 x.2) <;> [clear_value x; subst x])
    | (extract_lets +onlyGivenNames x; clear_value x)
    | with_reducible apply MemKept.ite
    | split
    | with_reducible apply abortSweep_mem
    | with_reducible apply setArrX_mem
    | with_reducible apply setBusy_mem
    | with_reducible apply advanceAudit_mem
    | with_reducible apply MemKept.foldl
    | with_reducible apply MemKept.foldl_snd
    | with_reducible apply MemKept.foldl_fst
    | (with_reducible apply MemKept.upd; first | with_reducible assumption | with_reducible apply abortSweep_mem | with_reducible apply setArrX_mem | with_reducible apply setBusy_mem | with_reducible apply advanceAudit_mem | with_reducible apply MemKept.foldl | with_reducible apply MemKept.foldl_snd | with_reducible apply MemKept.foldl_fst)

end Sys2Proof.Machine
end

