-- ==== Sys2Proof/Laws/MemPages.lean ====
section
/-! SUPPORT. Which operations of Machine/Pages.lean leave every byte of memory: one lemma for each. -/

set_option linter.unusedTactic false
set_option linter.unreachableTactic false
set_option linter.unusedVariables false

namespace Sys2Proof.Machine

open Sys2Proof

variable {s0 : State}

theorem pageAccess_mem (u : Nat) (s : State) (h : MemKept s0 s) : MemKept s0 (pageAccess u s) := by
  unfold pageAccess
  repeat' first
    | with_reducible assumption
    | (intro x; beta_reduce)
    | (with_reducible apply MemKept.upd; first | with_reducible assumption)

theorem clearFields_mem (u : Nat) (p : Field → FKey → Bool) (s : State)
    (h : MemKept s0 s) : MemKept s0 (clearFields u p s) := by
  unfold clearFields
  repeat' first
    | with_reducible assumption
    | (intro x; beta_reduce)
    | with_reducible apply MemKept.ite
    | split
    | (with_reducible apply MemKept.upd; first | with_reducible assumption)

theorem keepSat_mem (u : Nat) (s : State) (h : MemKept s0 s) : MemKept s0 (keepSat u s) := by
  unfold keepSat
  repeat' first
    | with_reducible assumption
    | (intro x; beta_reduce)
    | with_reducible apply MemKept.ite
    | split
    | with_reducible apply sat_mem
    | with_reducible apply setSat_mem
    | with_reducible apply MemKept.foldl
    | with_reducible apply MemKept.foldl_snd
    | with_reducible apply MemKept.foldl_fst

theorem cntClear_mem (u : Nat) (s : State) (h : MemKept s0 s) : MemKept s0 (cntClear u s) := by
  unfold cntClear
  repeat' first
    | with_reducible assumption
    | (intro x; beta_reduce)
    | (extract_lets +onlyGivenNames x; refine (fun (hx : MemKept s0 x) => ?_) (?_ : MemKept s0 x) <;> [clear_value x; subst x])
    | (extract_lets +onlyGivenNames x; clear_value x)
    | with_reducible apply MemKept.ite
    | split
    | with_reducible apply clearFields_mem
    | with_reducible apply sat_mem
    | with_reducible apply keepSat_mem
    | with_reducible apply wrU_mem
    | with_reducible apply wr_mem

theorem expertRestore_mem (u : Nat) (s : State) (h : MemKept s0 s) : MemKept s0 (expertRestore u s) := by
  unfold expertRestore
  repeat' first
    | with_reducible assumption
    | (intro x; beta_reduce)
    | with_reducible apply MemKept.ite
    | split
    | (with_reducible apply MemKept.upd; first | with_reducible assumption)

end Sys2Proof.Machine
end

