-- ==== Sys2Proof/Laws/MemRow.lean ====
section
/-! SUPPORT. Which operations of Machine/Row.lean leave every byte of memory: one lemma for each. -/

set_option linter.unusedTactic false
set_option linter.unreachableTactic false
set_option linter.unusedVariables false

namespace Sys2Proof.Machine

open Sys2Proof

variable {s0 : State}

theorem larderFlush_mem (unit : Nat) (s : State) (h : MemKept s0 s) : MemKept s0 (larderFlush unit s) :=
  ⟨h.same⟩

theorem larderFlushAll_mem (s : State) (h : MemKept s0 s) : MemKept s0 (larderFlushAll s) :=
  ⟨h.same⟩

end Sys2Proof.Machine
end

