-- ==== Sys2Proof/Laws/MemBins.lean ====
section
/-! SUPPORT. Which operations of Machine/Bins.lean leave every byte of memory: one lemma for each. -/

set_option linter.unusedTactic false
set_option linter.unreachableTactic false
set_option linter.unusedVariables false

namespace Sys2Proof.Machine

open Sys2Proof

variable {s0 : State}

theorem binResult_mem (die code index : Nat) (s : State) (h : MemKept s0 s) : MemKept s0 (binResult die code index s) := by
  unfold binResult
  repeat' first
    | with_reducible assumption
    | (intro x; beta_reduce)
    | with_reducible apply wr_mem

theorem setValid_mem (q : SeqId) (b : Nat) (v : Bool) (s : State) (h : MemKept s0 s) : MemKept s0 (setValid q b v s) := by
  unfold setValid
  repeat' first
    | with_reducible assumption
    | (intro x; beta_reduce)
    | with_reducible apply MemKept.ite
    | split
    | with_reducible apply setb_mem

theorem binLoad_mem (die seq bin : Nat) (s : State) (h : MemKept s0 s) : MemKept s0 (binLoad die seq bin s) := by
  unfold binLoad
  repeat' first
    | with_reducible assumption
    | (intro x; beta_reduce)
    | (extract_lets +onlyGivenNames x; refine (fun (hx : MemKept s0 x) => ?_) (?_ : MemKept s0 x) <;> [clear_value x; subst x])
    | (extract_lets +onlyGivenNames x; clear_value x)
    | with_reducible apply MemKept.ite
    | split
    | with_reducible apply wr_mem
    | with_reducible apply binResult_mem
    | with_reducible apply sat_mem
    | with_reducible apply setb_mem
    | with_reducible apply setValid_mem
    | (with_reducible apply MemKept.upd; first | with_reducible assumption | with_reducible apply wr_mem | with_reducible apply binResult_mem | with_reducible apply sat_mem | with_reducible apply setb_mem | with_reducible apply setValid_mem)

end Sys2Proof.Machine
end

