-- ==== Sys2Proof/Laws/MemFaults.lean ====
section
/-! SUPPORT. Which operations of Machine/Faults.lean leave every byte of memory: one lemma for each. -/

set_option linter.unusedTactic false
set_option linter.unreachableTactic false
set_option linter.unusedVariables false

namespace Sys2Proof.Machine

open Sys2Proof

variable {s0 : State}

theorem stopIssue_mem (s : State) (h : MemKept s0 s) : MemKept s0 (stopIssue s) := by
  unfold stopIssue
  repeat' first
    | with_reducible assumption
    | (intro x; beta_reduce)
    | with_reducible apply MemKept.ite
    | split
    | (with_reducible apply MemKept.upd; first | with_reducible assumption)

theorem withdraw_mem (s : State) (h : MemKept s0 s) : MemKept s0 (withdraw s) := by
  unfold withdraw
  repeat' first
    | with_reducible assumption
    | (intro x; beta_reduce)
    | (extract_lets +onlyGivenNames x; refine (fun (hx : MemKept s0 x) => ?_) (?_ : MemKept s0 x) <;> [clear_value x; subst x])
    | (extract_lets +onlyGivenNames x; clear_value x)
    | with_reducible apply setb_mem
    | with_reducible apply stopIssue_mem
    | (with_reducible apply MemKept.upd; first | with_reducible assumption | with_reducible apply setb_mem | with_reducible apply stopIssue_mem)

theorem discardCommits_mem (s : State) (h : MemKept s0 s) : MemKept s0 (discardCommits s) := by
  unfold discardCommits
  repeat' first
    | with_reducible assumption
    | (intro x; beta_reduce)
    | (extract_lets +onlyGivenNames x; refine (fun (hx : MemKept s0 x) => ?_) (?_ : MemKept s0 x) <;> [clear_value x; subst x])
    | (extract_lets +onlyGivenNames x; clear_value x)
    | with_reducible apply MemKept.ite
    | split
    | with_reducible apply setb_mem
    | with_reducible apply wr_mem
    | (with_reducible apply MemKept.upd; first | with_reducible assumption | with_reducible apply setb_mem | with_reducible apply wr_mem)

theorem latchFatal_mem (code type inst : Nat) (s : State)
    (h : MemKept s0 s) : MemKept s0 (latchFatal code type inst s) := by
  unfold latchFatal
  repeat' first
    | with_reducible assumption
    | (intro x; beta_reduce)
    | (extract_lets +onlyGivenNames x; refine (fun (hx : MemKept s0 x) => ?_) (?_ : MemKept s0 x) <;> [clear_value x; subst x])
    | (extract_lets +onlyGivenNames x; clear_value x)
    | with_reducible apply MemKept.ite
    | split
    | with_reducible apply sat_mem
    | with_reducible apply setb_mem
    | with_reducible apply wr_mem
    | with_reducible apply wrU_mem
    | (with_reducible apply MemKept.upd; first | with_reducible assumption | with_reducible apply sat_mem | with_reducible apply setb_mem | with_reducible apply wr_mem | with_reducible apply wrU_mem)

theorem corrAlarm_mem (u : Nat) (s : State) (h : MemKept s0 s) : MemKept s0 (corrAlarm u s) := by
  unfold corrAlarm
  repeat' first
    | with_reducible assumption
    | (intro x; beta_reduce)
    | with_reducible apply setb_mem
    | with_reducible apply wr_mem

theorem addCorrected_mem (u singles doubles : Nat) (s : State)
    (h : MemKept s0 s) : MemKept s0 (addCorrected u singles doubles s) := by
  unfold addCorrected
  repeat' first
    | with_reducible assumption
    | (intro x; beta_reduce)
    | (extract_lets +onlyGivenNames x; refine (fun (hx : MemKept s0 x) => ?_) (?_ : MemKept s0 x) <;> [clear_value x; subst x])
    | (extract_lets +onlyGivenNames x; clear_value x)
    | with_reducible apply MemKept.ite
    | split
    | with_reducible apply wrU_mem

theorem noteCorrected_mem (u singles doubles : Nat) (s : State)
    (h : MemKept s0 s) : MemKept s0 (noteCorrected u singles doubles s) := by
  unfold noteCorrected
  repeat' first
    | with_reducible assumption
    | (intro x; beta_reduce)
    | (extract_lets +onlyGivenNames x; refine (fun (hx : MemKept s0 x) => ?_) (?_ : MemKept s0 x) <;> [clear_value x; subst x])
    | (extract_lets +onlyGivenNames x; clear_value x)
    | with_reducible apply MemKept.ite
    | split
    | with_reducible apply addCorrected_mem
    | with_reducible apply corrAlarm_mem
    | (with_reducible apply MemKept.upd; first | with_reducible assumption | with_reducible apply addCorrected_mem | with_reducible apply corrAlarm_mem)

theorem noteScrubbed_mem (u singles doubles : Nat) (s : State)
    (h : MemKept s0 s) : MemKept s0 (noteScrubbed u singles doubles s) := by
  unfold noteScrubbed
  repeat' first
    | with_reducible assumption
    | (intro x; beta_reduce)
    | (extract_lets +onlyGivenNames x; refine (fun (hx : MemKept s0 x) => ?_) (?_ : MemKept s0 x) <;> [clear_value x; subst x])
    | (extract_lets +onlyGivenNames x; refine (fun (hx : MemKept s0 x.2) => ?_) (?_ : MemKept s0 x.2) <;> [clear_value x; subst x])
    | (extract_lets +onlyGivenNames x; clear_value x)
    | with_reducible apply MemKept.ite
    | split
    | with_reducible apply addCorrected_mem
    | with_reducible apply free_mem
    | with_reducible apply corrAlarm_mem
    | refine MemKept.snd (by with_reducible assumption) ?_

theorem noteMet_mem (m : Met) (s : State) (h : MemKept s0 s) : MemKept s0 (noteMet m s) := by
  unfold noteMet
  repeat' first
    | with_reducible assumption
    | (intro x; beta_reduce)
    | (extract_lets +onlyGivenNames x; refine (fun (hx : MemKept s0 x) => ?_) (?_ : MemKept s0 x) <;> [clear_value x; subst x])
    | (extract_lets +onlyGivenNames x; refine (fun (hx : MemKept s0 x.2) => ?_) (?_ : MemKept s0 x.2) <;> [clear_value x; subst x])
    | (extract_lets +onlyGivenNames x; clear_value x)
    | with_reducible apply MemKept.ite
    | split
    | with_reducible apply sat_mem
    | with_reducible apply noteCorrected_mem
    | with_reducible apply breakWord_mem
    | with_reducible apply MemKept.foldl
    | with_reducible apply MemKept.foldl_snd
    | with_reducible apply MemKept.foldl_fst

theorem retryOp_mem (die tag late : Nat) (s : State) (h : MemKept s0 s) : MemKept s0 (retryOp die tag late s) := by
  unfold retryOp
  repeat' first
    | with_reducible assumption
    | (intro x; beta_reduce)
    | (extract_lets +onlyGivenNames x; refine (fun (hx : MemKept s0 x) => ?_) (?_ : MemKept s0 x) <;> [clear_value x; subst x])
    | (extract_lets +onlyGivenNames x; refine (fun (hx : MemKept s0 x.2) => ?_) (?_ : MemKept s0 x.2) <;> [clear_value x; subst x])
    | (extract_lets +onlyGivenNames x; clear_value x)
    | with_reducible apply MemKept.ite
    | split
    | with_reducible apply remarkLines_mem
    | (with_reducible apply MemKept.upd; first | with_reducible assumption | with_reducible apply remarkLines_mem)

end Sys2Proof.Machine
end

