-- ==== Sys2Proof/Laws/MemDrives.lean ====
section
/-! SUPPORT. Which operations of Machine/Drives.lean leave every byte of memory: one lemma for each. -/

set_option linter.unusedTactic false
set_option linter.unreachableTactic false
set_option linter.unusedVariables false

namespace Sys2Proof.Machine

open Sys2Proof

variable {s0 : State}

theorem setDrive_mem (c : Nat) (d : DriveX) (s : State) (h : MemKept s0 s) : MemKept s0 (setDrive c d s) := by
  unfold setDrive
  repeat' first
    | with_reducible assumption
    | (intro x; beta_reduce)
    | (with_reducible apply MemKept.upd; first | with_reducible assumption)

theorem drivePump_mem (c : Nat) (s : State) (h : MemKept s0 s) : MemKept s0 (drivePump c s) := by
  unfold drivePump
  repeat' first
    | with_reducible assumption
    | (intro x; beta_reduce)
    | (extract_lets +onlyGivenNames x; refine (fun (hx : MemKept s0 x) => ?_) (?_ : MemKept s0 x) <;> [clear_value x; subst x])
    | (extract_lets +onlyGivenNames x; refine (fun (hx : MemKept s0 x.2) => ?_) (?_ : MemKept s0 x.2) <;> [clear_value x; subst x])
    | (extract_lets +onlyGivenNames x; clear_value x)
    | with_reducible apply emit_mem
    | with_reducible apply setDrive_mem
    | with_reducible apply MemKept.foldl
    | with_reducible apply MemKept.foldl_snd
    | with_reducible apply MemKept.foldl_fst

theorem driveIssue_mem (c : Nat) (os : List DriveCmd) (s : State) (h : MemKept s0 s) : MemKept s0 (driveIssue c os s) := by
  unfold driveIssue
  repeat' first
    | with_reducible assumption
    | (intro x; beta_reduce)
    | with_reducible apply MemKept.ite
    | split
    | with_reducible apply drivePump_mem
    | with_reducible apply setDrive_mem
    | (with_reducible apply MemKept.upd; first | with_reducible assumption | with_reducible apply drivePump_mem | with_reducible apply setDrive_mem)

theorem driveAll_mem (os : List DriveCmd) (s : State) (h : MemKept s0 s) : MemKept s0 (driveAll os s) := by
  unfold driveAll
  repeat' first
    | with_reducible assumption
    | (intro x; beta_reduce)
    | with_reducible apply driveIssue_mem
    | with_reducible apply MemKept.foldl
    | with_reducible apply MemKept.foldl_snd
    | with_reducible apply MemKept.foldl_fst

theorem noteSound_mem (c : Nat) (s : State) (h : MemKept s0 s) : MemKept s0 (noteSound c s) := by
  unfold noteSound
  repeat' first
    | with_reducible assumption
    | (intro x; beta_reduce)
    | (extract_lets +onlyGivenNames x; refine (fun (hx : MemKept s0 x) => ?_) (?_ : MemKept s0 x) <;> [clear_value x; subst x])
    | (extract_lets +onlyGivenNames x; clear_value x)
    | with_reducible apply MemKept.ite
    | split
    | (with_reducible apply MemKept.upd; first | with_reducible assumption)

theorem driveDone_mem (c k : Nat) (s : State) (h : MemKept s0 s) : MemKept s0 (driveDone c k s) := by
  unfold driveDone
  repeat' first
    | with_reducible assumption
    | (intro x; beta_reduce)
    | with_reducible apply noteSound_mem
    | with_reducible apply drivePump_mem
    | with_reducible apply setDrive_mem
    | (with_reducible apply MemKept.upd; first | with_reducible assumption | with_reducible apply noteSound_mem | with_reducible apply drivePump_mem | with_reducible apply setDrive_mem)

theorem dropTorn_mem (p : Nat → Bool) (s : State) (h : MemKept s0 s) : MemKept s0 (dropTorn p s) := by
  unfold dropTorn
  repeat' first
    | with_reducible assumption
    | (intro x; beta_reduce)
    | (extract_lets +onlyGivenNames x; refine (fun (hx : MemKept s0 x) => ?_) (?_ : MemKept s0 x) <;> [clear_value x; subst x])
    | (extract_lets +onlyGivenNames x; clear_value x)
    | (with_reducible apply MemKept.upd; first | with_reducible assumption)

theorem driveStop_mem (c : Nat) (s : State) (h : MemKept s0 s) : MemKept s0 (driveStop c s) := by
  unfold driveStop
  repeat' first
    | with_reducible assumption
    | (intro x; beta_reduce)
    | with_reducible apply dropTorn_mem
    | with_reducible apply setDrive_mem

theorem driveCount_mem (c : Nat) (o : DriveCmd) (s : State) (h : MemKept s0 s) : MemKept s0 (driveCount c o s) := by
  unfold driveCount
  repeat' first
    | with_reducible assumption
    | (intro x; beta_reduce)
    | with_reducible apply MemKept.ite
    | split
    | with_reducible apply addW_mem

theorem driveLedgers_mem (s : State) (h : MemKept s0 s) : MemKept s0 (driveLedgers s) := by
  unfold driveLedgers
  repeat' first
    | with_reducible assumption
    | (intro x; beta_reduce)
    | (extract_lets +onlyGivenNames x; refine (fun (hx : MemKept s0 x) => ?_) (?_ : MemKept s0 x) <;> [clear_value x; subst x])
    | (extract_lets +onlyGivenNames x; clear_value x)
    | with_reducible apply driveAll_mem
    | (with_reducible apply MemKept.upd; first | with_reducible assumption | with_reducible apply driveAll_mem)

theorem driveSession_mem (c : Nat) (s : State) (h : MemKept s0 s) : MemKept s0 (driveSession c s) := by
  unfold driveSession
  repeat' first
    | with_reducible assumption
    | (intro x; beta_reduce)
    | (extract_lets +onlyGivenNames x; refine (fun (hx : MemKept s0 x) => ?_) (?_ : MemKept s0 x) <;> [clear_value x; subst x])
    | (extract_lets +onlyGivenNames x; clear_value x)
    | with_reducible apply driveIssue_mem
    | (with_reducible apply MemKept.upd; first | with_reducible assumption | with_reducible apply driveIssue_mem)

theorem writeLabel_mem (c : Nat) (s : State) (h : MemKept s0 s) : MemKept s0 (writeLabel c s) := by
  unfold writeLabel
  repeat' first
    | with_reducible assumption
    | (intro x; beta_reduce)
    | with_reducible apply MemKept.ite
    | split
    | with_reducible apply driveIssue_mem
    | (with_reducible apply MemKept.upd; first | with_reducible assumption | with_reducible apply driveIssue_mem)

theorem driveReadLedger_mem (die : Nat) (s : State) (h : MemKept s0 s) : MemKept s0 (driveReadLedger die s) := by
  unfold driveReadLedger
  repeat' first
    | with_reducible assumption
    | (intro x; beta_reduce)
    | with_reducible apply MemKept.ite
    | split
    | with_reducible apply driveIssue_mem

theorem driveImage_mem (k n : Nat) (s : State) (h : MemKept s0 s) : MemKept s0 (driveImage k n s) := by
  unfold driveImage
  repeat' first
    | with_reducible assumption
    | (intro x; beta_reduce)
    | (extract_lets +onlyGivenNames x; refine (fun (hx : MemKept s0 x) => ?_) (?_ : MemKept s0 x) <;> [clear_value x; subst x])
    | (extract_lets +onlyGivenNames x; refine (fun (hx : MemKept s0 x.2) => ?_) (?_ : MemKept s0 x.2) <;> [clear_value x; subst x])
    | (extract_lets +onlyGivenNames x; clear_value x)
    | with_reducible apply driveIssue_mem
    | with_reducible apply MemKept.foldl
    | with_reducible apply MemKept.foldl_snd
    | with_reducible apply MemKept.foldl_fst

theorem driveReadImage_mem (k n : Nat) (ds : List Nat) (s : State)
    (h : MemKept s0 s) : MemKept s0 (driveReadImage k n ds s) := by
  unfold driveReadImage
  repeat' first
    | with_reducible assumption
    | (intro x; beta_reduce)
    | with_reducible apply driveIssue_mem
    | with_reducible apply MemKept.foldl
    | with_reducible apply MemKept.foldl_snd
    | with_reducible apply MemKept.foldl_fst

end Sys2Proof.Machine
end

