-- ==== Sys2Proof/Laws/MemSweep.lean ====
section
/-! SUPPORT. Which operations of Machine/Sweep.lean leave every byte of memory: one lemma for each. -/

set_option linter.unusedTactic false
set_option linter.unreachableTactic false
set_option linter.unusedVariables false

namespace Sys2Proof.Machine

open Sys2Proof

variable {s0 : State}

theorem modSweep_mem (die p : Nat) (f : SweepX → SweepX) (s : State)
    (h : MemKept s0 s) : MemKept s0 (modSweep die p f s) := by
  unfold modSweep
  repeat' first
    | with_reducible assumption
    | (intro x; beta_reduce)
    | (extract_lets +onlyGivenNames x; refine (fun (hx : MemKept s0 x) => ?_) (?_ : MemKept s0 x) <;> [clear_value x; subst x])
    | (extract_lets +onlyGivenNames x; clear_value x)
    | with_reducible apply setArrX_mem
    | (with_reducible apply MemKept.upd; first | with_reducible assumption | with_reducible apply setArrX_mem)

theorem orFree_mem (v : Option Nat) (s : State) (h : MemKept s0 s) : MemKept s0 (orFree v s).2 := by
  unfold orFree
  repeat' first
    | with_reducible assumption
    | (intro x; beta_reduce)
    | with_reducible apply MemKept.ite
    | split
    | with_reducible apply free_mem
    | refine MemKept.snd (by with_reducible assumption) ?_

theorem showQueue_mem (die p : Nat) (s : State) (h : MemKept s0 s) : MemKept s0 (showQueue die p s) := by
  unfold showQueue
  repeat' first
    | with_reducible assumption
    | (intro x; beta_reduce)
    | (extract_lets +onlyGivenNames x; refine (fun (hx : MemKept s0 x) => ?_) (?_ : MemKept s0 x) <;> [clear_value x; subst x])
    | (extract_lets +onlyGivenNames x; refine (fun (hx : MemKept s0 x.2) => ?_) (?_ : MemKept s0 x.2) <;> [clear_value x; subst x])
    | (extract_lets +onlyGivenNames x; clear_value x)
    | with_reducible apply wrA_mem
    | with_reducible apply MemKept.foldl
    | with_reducible apply MemKept.foldl_snd
    | with_reducible apply MemKept.foldl_fst

theorem queueColumn_mem (die p j key : Nat) (event : Bool) (s : State)
    (h : MemKept s0 s) : MemKept s0 (queueColumn die p j key event s) := by
  unfold queueColumn
  repeat' first
    | with_reducible assumption
    | (intro x; beta_reduce)
    | (extract_lets +onlyGivenNames x; refine (fun (hx : MemKept s0 x) => ?_) (?_ : MemKept s0 x) <;> [clear_value x; subst x])
    | (extract_lets +onlyGivenNames x; clear_value x)
    | with_reducible apply MemKept.ite
    | split
    | with_reducible apply showQueue_mem
    | with_reducible apply setArrX_mem
    | (with_reducible apply MemKept.upd; first | with_reducible assumption | with_reducible apply showQueue_mem | with_reducible apply setArrX_mem)

theorem dequeueColumn_mem (die p j : Nat) (s : State) (h : MemKept s0 s) : MemKept s0 (dequeueColumn die p j s) := by
  unfold dequeueColumn
  repeat' first
    | with_reducible assumption
    | (intro x; beta_reduce)
    | (extract_lets +onlyGivenNames x; refine (fun (hx : MemKept s0 x) => ?_) (?_ : MemKept s0 x) <;> [clear_value x; subst x])
    | (extract_lets +onlyGivenNames x; clear_value x)
    | with_reducible apply MemKept.ite
    | split
    | with_reducible apply showQueue_mem
    | with_reducible apply setArrX_mem
    | (with_reducible apply MemKept.upd; first | with_reducible assumption | with_reducible apply showQueue_mem | with_reducible apply setArrX_mem)

theorem queueEvent_mem (die p : Nat) (e : BandEvent) (s : State)
    (h : MemKept s0 s) : MemKept s0 (queueEvent die p e s) := by
  unfold queueEvent
  repeat' first
    | with_reducible assumption
    | (intro x; beta_reduce)
    | with_reducible apply MemKept.ite
    | split
    | with_reducible apply queueColumn_mem

theorem raiseEvent_mem (die p : Nat) (e : BandEvent) (s : State)
    (h : MemKept s0 s) : MemKept s0 (raiseEvent die p e s) := by
  unfold raiseEvent
  repeat' first
    | with_reducible assumption
    | (intro x; beta_reduce)
    | (extract_lets +onlyGivenNames x; refine (fun (hx : MemKept s0 x) => ?_) (?_ : MemKept s0 x) <;> [clear_value x; subst x])
    | (extract_lets +onlyGivenNames x; refine (fun (hx : MemKept s0 x.2) => ?_) (?_ : MemKept s0 x.2) <;> [clear_value x; subst x])
    | (extract_lets +onlyGivenNames x; clear_value x)
    | with_reducible apply MemKept.ite
    | split
    | with_reducible apply orFree_mem
    | with_reducible apply emit_mem
    | with_reducible apply addW_mem
    | with_reducible apply sat_mem
    | with_reducible apply queueEvent_mem
    | with_reducible apply setb_mem
    | refine MemKept.snd (by with_reducible assumption) ?_

theorem raiseEvents_mem (die p : Nat) (es : List BandEvent) (s : State)
    (h : MemKept s0 s) : MemKept s0 (raiseEvents die p es s) := by
  unfold raiseEvents
  repeat' first
    | with_reducible assumption
    | (intro x; beta_reduce)
    | with_reducible apply raiseEvent_mem
    | with_reducible apply MemKept.foldl
    | with_reducible apply MemKept.foldl_snd
    | with_reducible apply MemKept.foldl_fst

theorem standbySet_mem (die p : Nat) (s : State) (h : MemKept s0 s) : MemKept s0 (standbySet die p s) := by
  unfold standbySet
  repeat' first
    | with_reducible assumption
    | (intro x; beta_reduce)
    | (extract_lets +onlyGivenNames x; refine (fun (hx : MemKept s0 x) => ?_) (?_ : MemKept s0 x) <;> [clear_value x; subst x])
    | (extract_lets +onlyGivenNames x; refine (fun (hx : MemKept s0 x.2) => ?_) (?_ : MemKept s0 x.2) <;> [clear_value x; subst x])
    | (extract_lets +onlyGivenNames x; clear_value x)
    | with_reducible apply MemKept.ite
    | split
    | with_reducible apply modSweep_mem
    | with_reducible apply wrA_mem
    | with_reducible apply MemKept.foldl
    | with_reducible apply MemKept.foldl_snd
    | with_reducible apply MemKept.foldl_fst
    | (with_reducible apply MemKept.upd; first | with_reducible assumption | with_reducible apply modSweep_mem | with_reducible apply wrA_mem | with_reducible apply MemKept.foldl | with_reducible apply MemKept.foldl_snd | with_reducible apply MemKept.foldl_fst)

theorem stagedGainWrite_mem (die p : Nat) (s : State) (h : MemKept s0 s) : MemKept s0 (stagedGainWrite die p s) := by
  unfold stagedGainWrite
  repeat' first
    | with_reducible assumption
    | (intro x; beta_reduce)
    | with_reducible apply wrA_mem
    | with_reducible apply modSweep_mem
    | (with_reducible apply MemKept.upd; first | with_reducible assumption | with_reducible apply wrA_mem | with_reducible apply modSweep_mem)

theorem buildTable_mem (die p : Nat) (s : State) (h : MemKept s0 s) : MemKept s0 (buildTable die p s) := by
  unfold buildTable
  repeat' first
    | with_reducible assumption
    | (intro x; beta_reduce)
    | (extract_lets +onlyGivenNames x; refine (fun (hx : MemKept s0 x) => ?_) (?_ : MemKept s0 x) <;> [clear_value x; subst x])
    | (extract_lets +onlyGivenNames x; refine (fun (hx : MemKept s0 x.2) => ?_) (?_ : MemKept s0 x.2) <;> [clear_value x; subst x])
    | (extract_lets +onlyGivenNames x; clear_value x)
    | with_reducible apply MemKept.ite
    | split
    | with_reducible apply wrA_mem
    | with_reducible apply raiseEvents_mem
    | with_reducible apply MemKept.foldl
    | with_reducible apply MemKept.foldl_snd
    | with_reducible apply MemKept.foldl_fst

theorem confirmColumns_mem (die p : Nat) (s : State) (h : MemKept s0 s) : MemKept s0 (confirmColumns die p s) := by
  unfold confirmColumns
  repeat' first
    | with_reducible assumption
    | (intro x; beta_reduce)
    | (extract_lets +onlyGivenNames x; refine (fun (hx : MemKept s0 x) => ?_) (?_ : MemKept s0 x) <;> [clear_value x; subst x])
    | (extract_lets +onlyGivenNames x; refine (fun (hx : MemKept s0 x.2) => ?_) (?_ : MemKept s0 x.2) <;> [clear_value x; subst x])
    | (extract_lets +onlyGivenNames x; clear_value x)
    | with_reducible apply MemKept.ite
    | split
    | with_reducible apply wrA_mem
    | with_reducible apply MemKept.foldl
    | with_reducible apply MemKept.foldl_snd
    | with_reducible apply MemKept.foldl_fst

theorem installTable_mem (die p : Nat) (s : State) (h : MemKept s0 s) : MemKept s0 (installTable die p s) := by
  unfold installTable
  repeat' first
    | with_reducible assumption
    | (intro x; beta_reduce)
    | (extract_lets +onlyGivenNames x; refine (fun (hx : MemKept s0 x) => ?_) (?_ : MemKept s0 x) <;> [clear_value x; subst x])
    | (extract_lets +onlyGivenNames x; refine (fun (hx : MemKept s0 x.2) => ?_) (?_ : MemKept s0 x.2) <;> [clear_value x; subst x])
    | (extract_lets +onlyGivenNames x; clear_value x)
    | with_reducible apply MemKept.ite
    | split
    | with_reducible apply wrA_mem
    | with_reducible apply confirmColumns_mem
    | with_reducible apply sat_mem
    | with_reducible apply MemKept.foldl
    | with_reducible apply MemKept.foldl_snd
    | with_reducible apply MemKept.foldl_fst

theorem countGroup_mem (f : Field) (die p : Nat) (s : State) (h : MemKept s0 s) : MemKept s0 (countGroup f die p s) := by
  unfold countGroup
  repeat' first
    | with_reducible assumption
    | (intro x; beta_reduce)
    | with_reducible apply MemKept.ite
    | split
    | with_reducible apply sat_mem
    | with_reducible apply addW_mem

theorem showOutstanding_mem (inst : Nat) (s : State) (h : MemKept s0 s) : MemKept s0 (showOutstanding inst s) := by
  unfold showOutstanding
  repeat' first
    | with_reducible assumption
    | (intro x; beta_reduce)
    | with_reducible apply MemKept.ite
    | split
    | with_reducible apply wrU_mem

theorem showOutstandingOf_mem (die p : Nat) (s : State) (h : MemKept s0 s) : MemKept s0 (showOutstandingOf die p s) := by
  unfold showOutstandingOf
  repeat' first
    | with_reducible assumption
    | (intro x; beta_reduce)
    | with_reducible apply MemKept.ite
    | split
    | with_reducible apply showOutstanding_mem

theorem endCycle_mem (die p n : Nat) (s : State) (h : MemKept s0 s) : MemKept s0 (endCycle die p n s) := by
  unfold endCycle
  repeat' first
    | with_reducible assumption
    | (intro x; beta_reduce)
    | (extract_lets +onlyGivenNames x; refine (fun (hx : MemKept s0 x) => ?_) (?_ : MemKept s0 x) <;> [clear_value x; subst x])
    | (extract_lets +onlyGivenNames x; clear_value x)
    | with_reducible apply MemKept.ite
    | split
    | with_reducible apply countGroup_mem
    | with_reducible apply buildTable_mem
    | with_reducible apply setArrX_mem
    | with_reducible apply modSweep_mem
    | with_reducible apply wrA_mem
    | with_reducible apply installTable_mem
    | with_reducible apply showOutstandingOf_mem
    | with_reducible apply raiseEvent_mem
    | (with_reducible apply MemKept.upd; first | with_reducible assumption | with_reducible apply countGroup_mem | with_reducible apply buildTable_mem | with_reducible apply setArrX_mem | with_reducible apply modSweep_mem | with_reducible apply wrA_mem | with_reducible apply installTable_mem | with_reducible apply showOutstandingOf_mem | with_reducible apply raiseEvent_mem)

theorem finishConversion_mem (die p n : Nat) (codes : List (Nat × Int)) (tripped : List Nat) (s : State)
    (h : MemKept s0 s) : MemKept s0 (finishConversion die p n codes tripped s) := by
  unfold finishConversion
  repeat' first
    | with_reducible assumption
    | (intro x; beta_reduce)
    | (extract_lets +onlyGivenNames x; refine (fun (hx : MemKept s0 x) => ?_) (?_ : MemKept s0 x) <;> [clear_value x; subst x])
    | (extract_lets +onlyGivenNames x; refine (fun (hx : MemKept s0 x.2) => ?_) (?_ : MemKept s0 x.2) <;> [clear_value x; subst x])
    | (extract_lets +onlyGivenNames x; clear_value x)
    | with_reducible apply MemKept.ite
    | split
    | with_reducible apply modSweep_mem
    | with_reducible apply setArrX_mem
    | with_reducible apply raiseEvents_mem
    | with_reducible apply standbySet_mem
    | with_reducible apply countGroup_mem
    | with_reducible apply wrA_mem
    | with_reducible apply endCycle_mem
    | with_reducible apply MemKept.foldl
    | with_reducible apply MemKept.foldl_snd
    | with_reducible apply MemKept.foldl_fst
    | (with_reducible apply MemKept.upd; first | with_reducible assumption | with_reducible apply modSweep_mem | with_reducible apply setArrX_mem | with_reducible apply raiseEvents_mem | with_reducible apply standbySet_mem | with_reducible apply countGroup_mem | with_reducible apply wrA_mem | with_reducible apply endCycle_mem | with_reducible apply MemKept.foldl | with_reducible apply MemKept.foldl_snd | with_reducible apply MemKept.foldl_fst)

theorem beginVerify_mem (die p : Nat) (wake : Bool) (s : State)
    (h : MemKept s0 s) : MemKept s0 (beginVerify die p wake s) := by
  unfold beginVerify
  repeat' first
    | with_reducible assumption
    | (intro x; beta_reduce)
    | with_reducible apply wrA_mem
    | with_reducible apply modSweep_mem
    | (with_reducible apply MemKept.upd; first | with_reducible assumption | with_reducible apply wrA_mem | with_reducible apply modSweep_mem)

theorem dueVerify_mem (die p : Nat) (wake : Bool) (s : State)
    (h : MemKept s0 s) : MemKept s0 (dueVerify die p wake s) := by
  unfold dueVerify
  repeat' first
    | with_reducible assumption
    | (intro x; beta_reduce)
    | with_reducible apply MemKept.ite
    | split
    | with_reducible apply modSweep_mem
    | with_reducible apply beginVerify_mem
    | (with_reducible apply MemKept.upd; first | with_reducible assumption | with_reducible apply modSweep_mem | with_reducible apply beginVerify_mem)

theorem startVerify_mem (inst : Nat) (wake : Bool) (s : State)
    (h : MemKept s0 s) : MemKept s0 (startVerify inst wake s) := by
  unfold startVerify
  repeat' first
    | with_reducible assumption
    | (intro x; beta_reduce)
    | (extract_lets +onlyGivenNames x; refine (fun (hx : MemKept s0 x) => ?_) (?_ : MemKept s0 x) <;> [clear_value x; subst x])
    | (extract_lets +onlyGivenNames x; refine (fun (hx : MemKept s0 x.2) => ?_) (?_ : MemKept s0 x.2) <;> [clear_value x; subst x])
    | (extract_lets +onlyGivenNames x; clear_value x)
    | with_reducible apply dueVerify_mem
    | with_reducible apply setb_mem
    | with_reducible apply setReady_mem
    | with_reducible apply MemKept.foldl
    | with_reducible apply MemKept.foldl_snd
    | with_reducible apply MemKept.foldl_fst

theorem verifyReq_mem (inst : Nat) (s : State) (h : MemKept s0 s) : MemKept s0 (verifyReq inst s) := by
  unfold verifyReq
  repeat' first
    | with_reducible assumption
    | (intro x; beta_reduce)
    | with_reducible apply MemKept.ite
    | split
    | with_reducible apply setb_mem
    | with_reducible apply startVerify_mem

theorem loadHold_mem (inst : Nat) (v : Bool) (s : State) (h : MemKept s0 s) : MemKept s0 (loadHold inst v s) := by
  unfold loadHold
  repeat' first
    | with_reducible assumption
    | (intro x; beta_reduce)
    | (extract_lets +onlyGivenNames x; refine (fun (hx : MemKept s0 x) => ?_) (?_ : MemKept s0 x) <;> [clear_value x; subst x])
    | (extract_lets +onlyGivenNames x; clear_value x)
    | with_reducible apply MemKept.ite
    | split
    | with_reducible apply setb_mem
    | with_reducible apply setReady_mem
    | with_reducible apply startVerify_mem

theorem sleep_mem (die : Nat) (v : Bool) (s : State) (h : MemKept s0 s) : MemKept s0 (sleep die v s) := by
  unfold sleep
  repeat' first
    | with_reducible assumption
    | (intro x; beta_reduce)
    | with_reducible apply MemKept.ite
    | split
    | with_reducible apply setb_mem

theorem saveLedgers_mem (p : Nat → Bool) (s : State) (h : MemKept s0 s) : MemKept s0 (saveLedgers p s) := by
  unfold saveLedgers
  repeat' first
    | with_reducible assumption
    | (intro x; beta_reduce)
    | (extract_lets +onlyGivenNames x; refine (fun (hx : MemKept s0 x) => ?_) (?_ : MemKept s0 x) <;> [clear_value x; subst x])
    | (extract_lets +onlyGivenNames x; clear_value x)
    | with_reducible apply driveLedgers_mem
    | (with_reducible apply MemKept.upd; first | with_reducible assumption | with_reducible apply driveLedgers_mem)

theorem restoreLedgers_mem (p : Nat → Bool) (s : State) (h : MemKept s0 s) : MemKept s0 (restoreLedgers p s) := by
  unfold restoreLedgers
  repeat' first
    | with_reducible assumption
    | (intro x; beta_reduce)
    | (extract_lets +onlyGivenNames x; refine (fun (hx : MemKept s0 x) => ?_) (?_ : MemKept s0 x) <;> [clear_value x; subst x])
    | (extract_lets +onlyGivenNames x; refine (fun (hx : MemKept s0 x.2) => ?_) (?_ : MemKept s0 x.2) <;> [clear_value x; subst x])
    | (extract_lets +onlyGivenNames x; clear_value x)
    | with_reducible apply MemKept.foldl
    | with_reducible apply MemKept.foldl_snd
    | with_reducible apply MemKept.foldl_fst
    | (with_reducible apply MemKept.upd; first | with_reducible assumption | with_reducible apply MemKept.foldl | with_reducible apply MemKept.foldl_snd | with_reducible apply MemKept.foldl_fst)

theorem diePoweredDown_mem (die : Nat) (s : State) (h : MemKept s0 s) : MemKept s0 (diePoweredDown die s) := by
  unfold diePoweredDown
  repeat' first
    | with_reducible assumption
    | (intro x; beta_reduce)
    | (extract_lets +onlyGivenNames x; refine (fun (hx : MemKept s0 x) => ?_) (?_ : MemKept s0 x) <;> [clear_value x; subst x])
    | (extract_lets +onlyGivenNames x; refine (fun (hx : MemKept s0 x.2) => ?_) (?_ : MemKept s0 x.2) <;> [clear_value x; subst x])
    | (extract_lets +onlyGivenNames x; clear_value x)
    | with_reducible apply MemKept.ite
    | split
    | with_reducible apply saveLedgers_mem
    | with_reducible apply wrA_mem
    | with_reducible apply setb_mem
    | with_reducible apply setReady_mem
    | with_reducible apply MemKept.foldl
    | with_reducible apply MemKept.foldl_snd
    | with_reducible apply MemKept.foldl_fst
    | (with_reducible apply MemKept.upd; first | with_reducible assumption | with_reducible apply saveLedgers_mem | with_reducible apply wrA_mem | with_reducible apply setb_mem | with_reducible apply setReady_mem | with_reducible apply MemKept.foldl | with_reducible apply MemKept.foldl_snd | with_reducible apply MemKept.foldl_fst)

end Sys2Proof.Machine
end

