-- ==== Sys2Proof/Laws/MemWrites.lean ====
section
/-! SUPPORT. Which operations of Machine/Writes.lean leave every byte of memory: one lemma for each. -/

set_option linter.unusedTactic false
set_option linter.unreachableTactic false
set_option linter.unusedVariables false

namespace Sys2Proof.Machine

open Sys2Proof

variable {s0 : State}

theorem setColState_mem (die p j v : Nat) (s : State) (h : MemKept s0 s) : MemKept s0 (setColState die p j v s) := by
  unfold setColState
  repeat' first
    | with_reducible assumption
    | (intro x; beta_reduce)
    | with_reducible apply wrA_mem

theorem freePantry_mem (die p j : Nat) (s : State) (h : MemKept s0 s) : MemKept s0 (freePantry die p j s) := by
  unfold freePantry
  repeat' first
    | with_reducible assumption
    | (intro x; beta_reduce)
    | (extract_lets +onlyGivenNames x; refine (fun (hx : MemKept s0 x) => ?_) (?_ : MemKept s0 x) <;> [clear_value x; subst x])
    | (extract_lets +onlyGivenNames x; refine (fun (hx : MemKept s0 x.2) => ?_) (?_ : MemKept s0 x.2) <;> [clear_value x; subst x])
    | (extract_lets +onlyGivenNames x; clear_value x)
    | with_reducible apply MemKept.ite
    | split
    | with_reducible apply setArrX_mem
    | (with_reducible apply MemKept.upd; first | with_reducible assumption | with_reducible apply setArrX_mem)

theorem failCheck_mem (die p : Nat) (s : State) (h : MemKept s0 s) : MemKept s0 (failCheck die p s) := by
  unfold failCheck
  repeat' first
    | with_reducible assumption
    | (intro x; beta_reduce)
    | (extract_lets +onlyGivenNames x; refine (fun (hx : MemKept s0 x) => ?_) (?_ : MemKept s0 x) <;> [clear_value x; subst x])
    | (extract_lets +onlyGivenNames x; refine (fun (hx : MemKept s0 x.2) => ?_) (?_ : MemKept s0 x.2) <;> [clear_value x; subst x])
    | (extract_lets +onlyGivenNames x; clear_value x)
    | with_reducible apply MemKept.ite
    | split
    | with_reducible apply setArrX_mem
    | with_reducible apply setReady_mem
    | (with_reducible apply MemKept.upd; first | with_reducible assumption | with_reducible apply setArrX_mem | with_reducible apply setReady_mem)

theorem failDie_mem (die : Nat) (s : State) (h : MemKept s0 s) : MemKept s0 (failDie die s) := by
  unfold failDie
  repeat' first
    | with_reducible assumption
    | (intro x; beta_reduce)
    | with_reducible apply MemKept.ite
    | split
    | with_reducible apply failCheck_mem
    | with_reducible apply MemKept.foldl
    | with_reducible apply MemKept.foldl_snd
    | with_reducible apply MemKept.foldl_fst

theorem bypassLoaded_mem (die p j : Nat) (s : State) (h : MemKept s0 s) : MemKept s0 (bypassLoaded die p j s) := by
  unfold bypassLoaded
  repeat' first
    | with_reducible assumption
    | (intro x; beta_reduce)
    | (extract_lets +onlyGivenNames x; refine (fun (hx : MemKept s0 x) => ?_) (?_ : MemKept s0 x) <;> [clear_value x; subst x])
    | (extract_lets +onlyGivenNames x; clear_value x)
    | with_reducible apply MemKept.ite
    | split
    | with_reducible apply wrA_mem
    | with_reducible apply setColState_mem
    | with_reducible apply setArrX_mem
    | (with_reducible apply MemKept.upd; first | with_reducible assumption | with_reducible apply wrA_mem | with_reducible apply setColState_mem | with_reducible apply setArrX_mem)

theorem makePermanent_mem (die p j : Nat) (s : State) (h : MemKept s0 s) : MemKept s0 (makePermanent die p j s) := by
  unfold makePermanent
  repeat' first
    | with_reducible assumption
    | (intro x; beta_reduce)
    | with_reducible apply failCheck_mem
    | with_reducible apply bypassLoaded_mem
    | with_reducible apply dequeueColumn_mem
    | with_reducible apply wrA_mem

theorem setRefused_mem (inst code : Nat) (s : State) (h : MemKept s0 s) : MemKept s0 (setRefused inst code s) := by
  unfold setRefused
  repeat' first
    | with_reducible assumption
    | (intro x; beta_reduce)
    | with_reducible apply setb_mem
    | with_reducible apply wr_mem

theorem loadPantry_mem (inst : Nat) (s : State) (h : MemKept s0 s) : MemKept s0 (loadPantry inst s) := by
  unfold loadPantry
  repeat' first
    | with_reducible assumption
    | (intro x; beta_reduce)
    | (extract_lets +onlyGivenNames x; refine (fun (hx : MemKept s0 x) => ?_) (?_ : MemKept s0 x) <;> [clear_value x; subst x])
    | (extract_lets +onlyGivenNames x; refine (fun (hx : MemKept s0 x.2) => ?_) (?_ : MemKept s0 x.2) <;> [clear_value x; subst x])
    | (extract_lets +onlyGivenNames x; clear_value x)
    | with_reducible apply MemKept.ite
    | split
    | with_reducible apply setRefused_mem
    | with_reducible apply dequeueColumn_mem
    | with_reducible apply setArrX_mem
    | (with_reducible apply MemKept.upd; first | with_reducible assumption | with_reducible apply setRefused_mem | with_reducible apply dequeueColumn_mem | with_reducible apply setArrX_mem)

theorem evict_mem (inst : Nat) (s : State) (h : MemKept s0 s) : MemKept s0 (evict inst s) := by
  unfold evict
  repeat' first
    | with_reducible assumption
    | (intro x; beta_reduce)
    | (extract_lets +onlyGivenNames x; refine (fun (hx : MemKept s0 x) => ?_) (?_ : MemKept s0 x) <;> [clear_value x; subst x])
    | (extract_lets +onlyGivenNames x; clear_value x)
    | with_reducible apply MemKept.ite
    | split
    | with_reducible apply setRefused_mem
    | with_reducible apply setArrX_mem
    | with_reducible apply sat_mem
    | (with_reducible apply MemKept.upd; first | with_reducible assumption | with_reducible apply setRefused_mem | with_reducible apply setArrX_mem | with_reducible apply sat_mem)

theorem startWrite_mem (die p : Nat) (w : ColWrite) (s : State)
    (h : MemKept s0 s) : MemKept s0 (startWrite die p w s) := by
  unfold startWrite
  repeat' first
    | with_reducible assumption
    | (intro x; beta_reduce)
    | (extract_lets +onlyGivenNames x; refine (fun (hx : MemKept s0 x) => ?_) (?_ : MemKept s0 x) <;> [clear_value x; subst x])
    | (extract_lets +onlyGivenNames x; clear_value x)
    | with_reducible apply MemKept.ite
    | split
    | with_reducible apply wrA_mem
    | with_reducible apply sat_mem
    | with_reducible apply setColState_mem
    | with_reducible apply setArrX_mem
    | (with_reducible apply MemKept.upd; first | with_reducible assumption | with_reducible apply wrA_mem | with_reducible apply sat_mem | with_reducible apply setColState_mem | with_reducible apply setArrX_mem)

theorem voidColumn_mem (die p j : Nat) (s : State) (h : MemKept s0 s) : MemKept s0 (voidColumn die p j s) := by
  unfold voidColumn
  repeat' first
    | with_reducible assumption
    | (intro x; beta_reduce)
    | (extract_lets +onlyGivenNames x; refine (fun (hx : MemKept s0 x) => ?_) (?_ : MemKept s0 x) <;> [clear_value x; subst x])
    | (extract_lets +onlyGivenNames x; clear_value x)
    | with_reducible apply MemKept.ite
    | split
    | with_reducible apply setArrX_mem
    | with_reducible apply wrA_mem
    | (with_reducible apply MemKept.upd; first | with_reducible assumption | with_reducible apply setArrX_mem | with_reducible apply wrA_mem)

theorem settleColumn_mem (die p : Nat) (w : ColWrite) (held : List Int) (failed : Option Nat) (s : State)
    (h : MemKept s0 s) : MemKept s0 (settleColumn die p w held failed s) := by
  unfold settleColumn
  repeat' first
    | with_reducible assumption
    | (intro x; beta_reduce)
    | (extract_lets +onlyGivenNames x; refine (fun (hx : MemKept s0 x) => ?_) (?_ : MemKept s0 x) <;> [clear_value x; subst x])
    | (extract_lets +onlyGivenNames x; refine (fun (hx : MemKept s0 x.2) => ?_) (?_ : MemKept s0 x.2) <;> [clear_value x; subst x])
    | (extract_lets +onlyGivenNames x; clear_value x)
    | with_reducible apply MemKept.ite
    | split
    | with_reducible apply setArrX_mem
    | with_reducible apply makePermanent_mem
    | with_reducible apply setColState_mem
    | with_reducible apply freePantry_mem
    | with_reducible apply wrA_mem
    | with_reducible apply sat_mem
    | (with_reducible apply MemKept.upd; first | with_reducible assumption | with_reducible apply setArrX_mem | with_reducible apply makePermanent_mem | with_reducible apply setColState_mem | with_reducible apply freePantry_mem | with_reducible apply wrA_mem | with_reducible apply sat_mem)

theorem clearSel_mem (inst : Nat) (s : State) (h : MemKept s0 s) : MemKept s0 (clearSel inst s) := by
  unfold clearSel
  repeat' first
    | with_reducible assumption
    | (intro x; beta_reduce)
    | (extract_lets +onlyGivenNames x; refine (fun (hx : MemKept s0 x) => ?_) (?_ : MemKept s0 x) <;> [clear_value x; subst x])
    | (extract_lets +onlyGivenNames x; clear_value x)
    | with_reducible apply MemKept.ite
    | split
    | with_reducible apply wrA_mem
    | with_reducible apply clearSatBit_mem

theorem auditClear_mem (inst : Nat) (s : State) (h : MemKept s0 s) : MemKept s0 (auditClear inst s) := by
  unfold auditClear
  repeat' first
    | with_reducible assumption
    | (intro x; beta_reduce)
    | with_reducible apply wr_mem
    | with_reducible apply clearSatBit_mem

end Sys2Proof.Machine
end

