-- ==== Sys2Proof/Laws/MemBuckets.lean ====
section
/-! SUPPORT. Which operations of Machine/Buckets.lean leave every byte of memory: one lemma for each. -/

set_option linter.unusedTactic false
set_option linter.unreachableTactic false
set_option linter.unusedVariables false

namespace Sys2Proof.Machine

open Sys2Proof

variable {s0 : State}

theorem setBx_mem (b : Nat) (x : BucketX) (s : State) (h : MemKept s0 s) : MemKept s0 (setBx b x s) := by
  unfold setBx
  repeat' first
    | with_reducible assumption
    | (intro x; beta_reduce)
    | (with_reducible apply MemKept.upd; first | with_reducible assumption)

theorem modBx_mem (b : Nat) (f : BucketX → BucketX) (s : State) (h : MemKept s0 s) : MemKept s0 (modBx b f s) := by
  unfold modBx
  repeat' first
    | with_reducible assumption
    | (intro x; beta_reduce)
    | with_reducible apply setBx_mem

theorem modJob_mem (f : JobX → JobX) (s : State) (h : MemKept s0 s) : MemKept s0 (modJob f s) := by
  unfold modJob
  repeat' first
    | with_reducible assumption
    | (intro x; beta_reduce)
    | (with_reducible apply MemKept.upd; first | with_reducible assumption)

theorem setWaitExtra_mem (s : State) (h : MemKept s0 s) : MemKept s0 (setWaitExtra s) := by
  unfold setWaitExtra
  repeat' first
    | with_reducible assumption
    | (intro x; beta_reduce)
    | (extract_lets +onlyGivenNames x; refine (fun (hx : MemKept s0 x) => ?_) (?_ : MemKept s0 x) <;> [clear_value x; subst x])
    | (extract_lets +onlyGivenNames x; refine (fun (hx : MemKept s0 x.2) => ?_) (?_ : MemKept s0 x.2) <;> [clear_value x; subst x])
    | (extract_lets +onlyGivenNames x; clear_value x)
    | with_reducible apply wr_mem
    | with_reducible apply MemKept.foldl
    | with_reducible apply MemKept.foldl_snd
    | with_reducible apply MemKept.foldl_fst

theorem refreshPending_mem (s : State) (h : MemKept s0 s) : MemKept s0 (refreshPending s) := by
  unfold refreshPending
  repeat' first
    | with_reducible assumption
    | (intro x; beta_reduce)
    | (extract_lets +onlyGivenNames x; refine (fun (hx : MemKept s0 x) => ?_) (?_ : MemKept s0 x) <;> [clear_value x; subst x])
    | (extract_lets +onlyGivenNames x; refine (fun (hx : MemKept s0 x.2) => ?_) (?_ : MemKept s0 x.2) <;> [clear_value x; subst x])
    | (extract_lets +onlyGivenNames x; clear_value x)
    | with_reducible apply wr_mem
    | with_reducible apply MemKept.foldl
    | with_reducible apply MemKept.foldl_snd
    | with_reducible apply MemKept.foldl_fst

theorem refreshVeto_mem (s : State) (h : MemKept s0 s) : MemKept s0 (refreshVeto s) := by
  unfold refreshVeto
  repeat' first
    | with_reducible assumption
    | (intro x; beta_reduce)
    | (extract_lets +onlyGivenNames x; refine (fun (hx : MemKept s0 x) => ?_) (?_ : MemKept s0 x) <;> [clear_value x; subst x])
    | (extract_lets +onlyGivenNames x; refine (fun (hx : MemKept s0 x.2) => ?_) (?_ : MemKept s0 x.2) <;> [clear_value x; subst x])
    | (extract_lets +onlyGivenNames x; clear_value x)
    | with_reducible apply MemKept.ite
    | split
    | with_reducible apply setb_mem
    | with_reducible apply MemKept.foldl
    | with_reducible apply MemKept.foldl_snd
    | with_reducible apply MemKept.foldl_fst

theorem loadUpdates_mem (s : State) (h : MemKept s0 s) : MemKept s0 (loadUpdates s) := by
  unfold loadUpdates
  repeat' first
    | with_reducible assumption
    | (intro x; beta_reduce)
    | (extract_lets +onlyGivenNames x; refine (fun (hx : MemKept s0 x) => ?_) (?_ : MemKept s0 x) <;> [clear_value x; subst x])
    | (extract_lets +onlyGivenNames x; clear_value x)
    | with_reducible apply modJob_mem
    | (with_reducible apply MemKept.upd; first | with_reducible assumption | with_reducible apply modJob_mem)

theorem loadRoutes_mem (s : State) (h : MemKept s0 s) : MemKept s0 (loadRoutes s) := by
  unfold loadRoutes
  repeat' first
    | with_reducible assumption
    | (intro x; beta_reduce)
    | (extract_lets +onlyGivenNames x; refine (fun (hx : MemKept s0 x) => ?_) (?_ : MemKept s0 x) <;> [clear_value x; subst x])
    | (extract_lets +onlyGivenNames x; clear_value x)
    | with_reducible apply MemKept.ite
    | split
    | with_reducible apply modJob_mem
    | (with_reducible apply MemKept.upd; first | with_reducible assumption | with_reducible apply modJob_mem)

end Sys2Proof.Machine
end

