-- ==== Sys2Proof/Laws/MemNetwork.lean ====
section
/-! SUPPORT. Which operations of Machine/Network.lean leave every byte of memory: one lemma for each. -/

set_option linter.unusedTactic false
set_option linter.unreachableTactic false
set_option linter.unusedVariables false

namespace Sys2Proof.Machine

open Sys2Proof

variable {s0 : State}

theorem countRx_mem (p size : Nat) (s : State) (h : MemKept s0 s) : MemKept s0 (countRx p size s) := by
  unfold countRx
  repeat' first
    | with_reducible assumption
    | (intro x; beta_reduce)
    | with_reducible apply addW_mem

theorem occupyLine_mem (p n : Nat) (s : State) (h : MemKept s0 s) : MemKept s0 (occupyLine p n s) := by
  unfold occupyLine
  repeat' first
    | with_reducible assumption
    | (intro x; beta_reduce)
    | (with_reducible apply MemKept.upd; first | with_reducible assumption)

theorem transmit_mem (p dst : Nat) (tag : Option Nat) (etype cls : Nat) (bytes : List Byte) (bad : List Nat)
    (s : State) (h : MemKept s0 s) : MemKept s0 (transmit p dst tag etype cls bytes bad s) := by
  unfold transmit
  repeat' first
    | with_reducible assumption
    | (intro x; beta_reduce)
    | (extract_lets +onlyGivenNames x; refine (fun (hx : MemKept s0 x) => ?_) (?_ : MemKept s0 x) <;> [clear_value x; subst x])
    | (extract_lets +onlyGivenNames x; clear_value x)
    | with_reducible apply MemKept.ite
    | split
    | with_reducible apply occupyLine_mem
    | with_reducible apply addW_mem
    | with_reducible apply countRx_mem
    | with_reducible apply emit_mem

theorem countFrame_mem (f : Frame) (s : State) (h : MemKept s0 s) : MemKept s0 (countFrame f s) := by
  unfold countFrame
  repeat' first
    | with_reducible assumption
    | (intro x; beta_reduce)
    | with_reducible apply setb_mem
    | with_reducible apply sat_mem
    | with_reducible apply addW_mem
    | with_reducible apply countRx_mem

theorem setRx_mem (serial : Nat) (r : RxPeer) (s : State) (h : MemKept s0 s) : MemKept s0 (setRx serial r s) := by
  unfold setRx
  repeat' first
    | with_reducible assumption
    | (intro x; beta_reduce)
    | with_reducible apply modJob_mem
    | (with_reducible apply MemKept.upd; first | with_reducible assumption | with_reducible apply modJob_mem)

theorem setTx_mem (serial : Nat) (t : TxPeer) (s : State) (h : MemKept s0 s) : MemKept s0 (setTx serial t s) := by
  unfold setTx
  repeat' first
    | with_reducible assumption
    | (intro x; beta_reduce)
    | with_reducible apply modJob_mem
    | (with_reducible apply MemKept.upd; first | with_reducible assumption | with_reducible apply modJob_mem)

theorem sendRhazo_mem (p mac type rank serial id : Nat) (payload : List Byte) (bad : List Nat) (s : State)
    (h : MemKept s0 s) : MemKept s0 (sendRhazo p mac type rank serial id payload bad s) := by
  unfold sendRhazo
  repeat' first
    | with_reducible assumption
    | (intro x; beta_reduce)
    | (extract_lets +onlyGivenNames x; refine (fun (hx : MemKept s0 x) => ?_) (?_ : MemKept s0 x) <;> [clear_value x; subst x])
    | (extract_lets +onlyGivenNames x; refine (fun (hx : MemKept s0 x.2) => ?_) (?_ : MemKept s0 x.2) <;> [clear_value x; subst x])
    | (extract_lets +onlyGivenNames x; clear_value x)
    | with_reducible apply MemKept.ite
    | split
    | with_reducible apply transmit_mem
    | with_reducible apply setRx_mem
    | (with_reducible apply MemKept.upd; first | with_reducible assumption | with_reducible apply transmit_mem | with_reducible apply setRx_mem)

theorem trySend_mem (serial : Nat) (m : TxMsg) (s : State) (h : MemKept s0 s) : MemKept s0 (trySend serial m s).2 := by
  unfold trySend
  repeat' first
    | with_reducible assumption
    | (intro x; beta_reduce)
    | (extract_lets +onlyGivenNames x; refine (fun (hx : MemKept s0 x) => ?_) (?_ : MemKept s0 x) <;> [clear_value x; subst x])
    | (extract_lets +onlyGivenNames x; refine (fun (hx : MemKept s0 x.2) => ?_) (?_ : MemKept s0 x.2) <;> [clear_value x; subst x])
    | (extract_lets +onlyGivenNames x; clear_value x)
    | with_reducible apply MemKept.ite
    | split
    | with_reducible apply sendRhazo_mem
    | with_reducible apply sat_mem
    | (with_reducible apply MemKept.upd; first | with_reducible assumption | with_reducible apply sendRhazo_mem | with_reducible apply sat_mem)

theorem windowSend_mem (serial : Nat) (m : TxMsg) (s : State) (h : MemKept s0 s) : MemKept s0 (windowSend serial m s) := by
  unfold windowSend
  repeat' first
    | with_reducible assumption
    | (intro x; beta_reduce)
    | (extract_lets +onlyGivenNames x; refine (fun (hx : MemKept s0 x) => ?_) (?_ : MemKept s0 x) <;> [clear_value x; subst x])
    | (extract_lets +onlyGivenNames x; refine (fun (hx : MemKept s0 x.2) => ?_) (?_ : MemKept s0 x.2) <;> [clear_value x; subst x])
    | (extract_lets +onlyGivenNames x; clear_value x)
    | with_reducible apply MemKept.ite
    | split
    | with_reducible apply trySend_mem
    | with_reducible apply setTx_mem
    | with_reducible apply sat_mem
    | refine MemKept.snd (by with_reducible assumption) ?_
    | (with_reducible apply MemKept.upd; first | with_reducible assumption | with_reducible apply trySend_mem | with_reducible apply setTx_mem | with_reducible apply sat_mem | refine MemKept.snd (by with_reducible assumption) ?_)

theorem sendMsg_mem (rank type : Nat) (payload : List Byte) (bad : List Nat) (source : Option (Nat × Nat × Nat))
    (s : State) (h : MemKept s0 s) : MemKept s0 (sendMsg rank type payload bad source s).2 := by
  unfold sendMsg
  repeat' first
    | with_reducible assumption
    | (intro x; beta_reduce)
    | (extract_lets +onlyGivenNames x; refine (fun (hx : MemKept s0 x) => ?_) (?_ : MemKept s0 x) <;> [clear_value x; subst x])
    | (extract_lets +onlyGivenNames x; refine (fun (hx : MemKept s0 x.2) => ?_) (?_ : MemKept s0 x.2) <;> [clear_value x; subst x])
    | (extract_lets +onlyGivenNames x; clear_value x)
    | with_reducible apply MemKept.ite
    | split
    | with_reducible apply setTx_mem
    | with_reducible apply windowSend_mem
    | (with_reducible apply MemKept.upd; first | with_reducible assumption | with_reducible apply setTx_mem | with_reducible apply windowSend_mem)

theorem sendReliable_mem (rank type : Nat) (payload : List Byte) (bad : List Nat) (s : State)
    (h : MemKept s0 s) : MemKept s0 (sendReliable rank type payload bad s).2 := by
  unfold sendReliable
  repeat' first
    | with_reducible assumption
    | (intro x; beta_reduce)
    | with_reducible apply sendMsg_mem
    | refine MemKept.snd (by with_reducible assumption) ?_

theorem sendWrite_mem (rank addr step space base n : Nat) (s : State)
    (h : MemKept s0 s) : MemKept s0 (sendWrite rank addr step space base n s).2 := by
  unfold sendWrite
  repeat' first
    | with_reducible assumption
    | (intro x; beta_reduce)
    | with_reducible apply sendMsg_mem
    | refine MemKept.snd (by with_reducible assumption) ?_

theorem releaseHeld_mem (serial : Nat) (s : State) (h : MemKept s0 s) : MemKept s0 (releaseHeld serial s) := by
  unfold releaseHeld
  repeat' first
    | with_reducible assumption
    | (intro x; beta_reduce)
    | (extract_lets +onlyGivenNames x; refine (fun (hx : MemKept s0 x) => ?_) (?_ : MemKept s0 x) <;> [clear_value x; subst x])
    | (extract_lets +onlyGivenNames x; refine (fun (hx : MemKept s0 x.2) => ?_) (?_ : MemKept s0 x.2) <;> [clear_value x; subst x])
    | (extract_lets +onlyGivenNames x; clear_value x)
    | with_reducible apply setTx_mem
    | with_reducible apply windowSend_mem
    | with_reducible apply MemKept.foldl
    | with_reducible apply MemKept.foldl_snd
    | with_reducible apply MemKept.foldl_fst
    | (with_reducible apply MemKept.upd; first | with_reducible assumption | with_reducible apply setTx_mem | with_reducible apply windowSend_mem | with_reducible apply MemKept.foldl | with_reducible apply MemKept.foldl_snd | with_reducible apply MemKept.foldl_fst)

theorem dropAwaits_mem (gone : Nat × Nat → Bool) (s : State) (h : MemKept s0 s) : MemKept s0 (dropAwaits gone s) := by
  unfold dropAwaits
  repeat' first
    | with_reducible assumption
    | (intro x; beta_reduce)
    | (with_reducible apply MemKept.upd; first | with_reducible assumption)

theorem ackFrom_mem (serial mark map : Nat) (s : State) (h : MemKept s0 s) : MemKept s0 (ackFrom serial mark map s) := by
  unfold ackFrom
  repeat' first
    | with_reducible assumption
    | (intro x; beta_reduce)
    | (extract_lets +onlyGivenNames x; refine (fun (hx : MemKept s0 x) => ?_) (?_ : MemKept s0 x) <;> [clear_value x; subst x])
    | (extract_lets +onlyGivenNames x; clear_value x)
    | with_reducible apply MemKept.ite
    | split
    | with_reducible apply setTx_mem
    | with_reducible apply releaseHeld_mem
    | with_reducible apply dropAwaits_mem
    | (with_reducible apply MemKept.upd; first | with_reducible assumption | with_reducible apply setTx_mem | with_reducible apply releaseHeld_mem | with_reducible apply dropAwaits_mem)

theorem retransmit_mem (serial id : Nat) (s : State) (h : MemKept s0 s) : MemKept s0 (retransmit serial id s) := by
  unfold retransmit
  repeat' first
    | with_reducible assumption
    | (intro x; beta_reduce)
    | (extract_lets +onlyGivenNames x; refine (fun (hx : MemKept s0 x) => ?_) (?_ : MemKept s0 x) <;> [clear_value x; subst x])
    | (extract_lets +onlyGivenNames x; refine (fun (hx : MemKept s0 x.2) => ?_) (?_ : MemKept s0 x.2) <;> [clear_value x; subst x])
    | (extract_lets +onlyGivenNames x; clear_value x)
    | with_reducible apply MemKept.ite
    | split
    | with_reducible apply advanceTo_mem
    | with_reducible apply trySend_mem
    | with_reducible apply setTx_mem
    | refine MemKept.snd (by with_reducible assumption) ?_
    | (with_reducible apply MemKept.upd; first | with_reducible assumption | with_reducible apply advanceTo_mem | with_reducible apply trySend_mem | with_reducible apply setTx_mem | refine MemKept.snd (by with_reducible assumption) ?_)

theorem ackDelay_mem (serial : Nat) (s : State) (h : MemKept s0 s) : MemKept s0 (ackDelay serial s) := by
  unfold ackDelay
  repeat' first
    | with_reducible assumption
    | (intro x; beta_reduce)
    | (extract_lets +onlyGivenNames x; refine (fun (hx : MemKept s0 x) => ?_) (?_ : MemKept s0 x) <;> [clear_value x; subst x])
    | (extract_lets +onlyGivenNames x; refine (fun (hx : MemKept s0 x.2) => ?_) (?_ : MemKept s0 x.2) <;> [clear_value x; subst x])
    | (extract_lets +onlyGivenNames x; clear_value x)
    | with_reducible apply MemKept.ite
    | split
    | with_reducible apply advanceTo_mem
    | with_reducible apply sendRhazo_mem

theorem dropSession_mem (f : Frame) (s : State) (h : MemKept s0 s) : MemKept s0 (dropSession f s) := by
  unfold dropSession
  repeat' first
    | with_reducible assumption
    | (intro x; beta_reduce)
    | with_reducible apply MemKept.ite
    | split
    | with_reducible apply setRx_mem

theorem arrive_mem (f : Frame) (n : Nat) (always : Bool) (s : State) (h : MemKept s0 s) :
    MemKept s0 (arrive f n always s).2 ∧ ∀ t u, arrive f n always s = (some t, u) → MemKept s0 t := by
  unfold arrive
  split
  · simp [h]
  · extract_lets s1 s2 s3
    have h1 : MemKept s0 s1 := countFrame_mem _ _ h
    split
    · simp [sat_mem _ _ _ _ _ h1]
    · split
      · simp [sat_mem _ _ _ _ _ h1]
      · split
        · simp [sat_mem _ _ _ _ _ h1]
        · have h2 : MemKept s0 s2 := dropSession_mem _ _ h1
          have h3 : MemKept s0 s3 := by
            show MemKept s0 (if f.ackValid then ackFrom f.serial f.ackMark f.ackMap s2 else s2)
            split
            · exact ackFrom_mem _ _ _ _ h2
            · exact h2
          simp [h3]

theorem noteLanded_mem (addr n : Nat) (s : State) (h : MemKept s0 s) : MemKept s0 (noteLanded addr n s) := by
  unfold noteLanded
  repeat' first
    | with_reducible assumption
    | (intro x; beta_reduce)
    | (extract_lets +onlyGivenNames x; refine (fun (hx : MemKept s0 x) => ?_) (?_ : MemKept s0 x) <;> [clear_value x; subst x])
    | (extract_lets +onlyGivenNames x; refine (fun (hx : MemKept s0 x.2) => ?_) (?_ : MemKept s0 x.2) <;> [clear_value x; subst x])
    | (extract_lets +onlyGivenNames x; clear_value x)
    | with_reducible apply MemKept.ite
    | split
    | with_reducible apply modBx_mem
    | (with_reducible apply MemKept.upd; first | with_reducible assumption | with_reducible apply modBx_mem)

theorem sendWaiting_mem (s : State) (h : MemKept s0 s) : MemKept s0 (sendWaiting s) := by
  unfold sendWaiting
  repeat' first
    | with_reducible assumption
    | (intro x; beta_reduce)
    | (extract_lets +onlyGivenNames x; refine (fun (hx : MemKept s0 x) => ?_) (?_ : MemKept s0 x) <;> [clear_value x; subst x])
    | (extract_lets +onlyGivenNames x; refine (fun (hx : MemKept s0 x.2) => ?_) (?_ : MemKept s0 x.2) <;> [clear_value x; subst x])
    | (extract_lets +onlyGivenNames x; clear_value x)
    | with_reducible apply MemKept.ite
    | split
    | with_reducible apply trySend_mem
    | with_reducible apply setTx_mem
    | with_reducible apply MemKept.foldl
    | with_reducible apply MemKept.foldl_snd
    | with_reducible apply MemKept.foldl_fst
    | refine MemKept.snd (by with_reducible assumption) ?_
    | (with_reducible apply MemKept.upd; first | with_reducible assumption | with_reducible apply trySend_mem | with_reducible apply setTx_mem | with_reducible apply MemKept.foldl | with_reducible apply MemKept.foldl_snd | with_reducible apply MemKept.foldl_fst | refine MemKept.snd (by with_reducible assumption) ?_)

theorem showPtpPort_mem (s : State) (h : MemKept s0 s) : MemKept s0 (showPtpPort s) := by
  unfold showPtpPort
  repeat' first
    | with_reducible assumption
    | (intro x; beta_reduce)
    | (extract_lets +onlyGivenNames x; refine (fun (hx : MemKept s0 x) => ?_) (?_ : MemKept s0 x) <;> [clear_value x; subst x])
    | (extract_lets +onlyGivenNames x; refine (fun (hx : MemKept s0 x.2) => ?_) (?_ : MemKept s0 x.2) <;> [clear_value x; subst x])
    | (extract_lets +onlyGivenNames x; clear_value x)
    | with_reducible apply MemKept.ite
    | split
    | with_reducible apply setb_mem
    | with_reducible apply wr_mem
    | with_reducible apply MemKept.foldl
    | with_reducible apply MemKept.foldl_snd
    | with_reducible apply MemKept.foldl_fst

theorem portReady_mem (p : Nat) (s : State) (h : MemKept s0 s) : MemKept s0 (portReady p s) := by
  unfold portReady
  repeat' first
    | with_reducible assumption
    | (intro x; beta_reduce)
    | (extract_lets +onlyGivenNames x; refine (fun (hx : MemKept s0 x) => ?_) (?_ : MemKept s0 x) <;> [clear_value x; subst x])
    | (extract_lets +onlyGivenNames x; clear_value x)
    | with_reducible apply MemKept.ite
    | split
    | with_reducible apply setReady_mem

theorem linkRises_mem (p : Nat) (s : State) (h : MemKept s0 s) : MemKept s0 (linkRises p s) := by
  unfold linkRises
  repeat' first
    | with_reducible assumption
    | (intro x; beta_reduce)
    | (extract_lets +onlyGivenNames x; refine (fun (hx : MemKept s0 x) => ?_) (?_ : MemKept s0 x) <;> [clear_value x; subst x])
    | (extract_lets +onlyGivenNames x; clear_value x)
    | with_reducible apply setb_mem
    | with_reducible apply showPtpPort_mem
    | with_reducible apply portReady_mem

theorem linkDown_mem (p : Nat) (s : State) (h : MemKept s0 s) : MemKept s0 (linkDown p s) := by
  unfold linkDown
  repeat' first
    | with_reducible assumption
    | (intro x; beta_reduce)
    | (extract_lets +onlyGivenNames x; refine (fun (hx : MemKept s0 x) => ?_) (?_ : MemKept s0 x) <;> [clear_value x; subst x])
    | (extract_lets +onlyGivenNames x; clear_value x)
    | with_reducible apply MemKept.ite
    | split
    | with_reducible apply setb_mem
    | with_reducible apply sat_mem
    | with_reducible apply showPtpPort_mem
    | with_reducible apply portReady_mem

theorem heartbeatSend_mem (s : State) (h : MemKept s0 s) : MemKept s0 (heartbeatSend s) := by
  unfold heartbeatSend
  repeat' first
    | with_reducible assumption
    | (intro x; beta_reduce)
    | (extract_lets +onlyGivenNames x; refine (fun (hx : MemKept s0 x) => ?_) (?_ : MemKept s0 x) <;> [clear_value x; subst x])
    | (extract_lets +onlyGivenNames x; refine (fun (hx : MemKept s0 x.2) => ?_) (?_ : MemKept s0 x.2) <;> [clear_value x; subst x])
    | (extract_lets +onlyGivenNames x; clear_value x)
    | with_reducible apply MemKept.ite
    | split
    | with_reducible apply advanceTo_mem
    | with_reducible apply modJob_mem
    | with_reducible apply sendRhazo_mem
    | with_reducible apply MemKept.foldl
    | with_reducible apply MemKept.foldl_snd
    | with_reducible apply MemKept.foldl_fst
    | (with_reducible apply MemKept.upd; first | with_reducible assumption | with_reducible apply advanceTo_mem | with_reducible apply modJob_mem | with_reducible apply sendRhazo_mem | with_reducible apply MemKept.foldl | with_reducible apply MemKept.foldl_snd | with_reducible apply MemKept.foldl_fst)

theorem learnStep_mem (f : Frame) (e : ViewEntry) (s : State) (h : MemKept s0 s) : MemKept s0 (learnStep f e s) := by
  unfold learnStep
  repeat' first
    | with_reducible assumption
    | (intro x; beta_reduce)
    | (extract_lets +onlyGivenNames x; refine (fun (hx : MemKept s0 x) => ?_) (?_ : MemKept s0 x) <;> [clear_value x; subst x])
    | (extract_lets +onlyGivenNames x; clear_value x)
    | with_reducible apply MemKept.ite
    | split
    | with_reducible apply wr_mem
    | with_reducible apply modJob_mem
    | (with_reducible apply MemKept.upd; first | with_reducible assumption | with_reducible apply wr_mem | with_reducible apply modJob_mem)

theorem heartbeat_mem (f : Frame) (s : State) (h : MemKept s0 s) : MemKept s0 (heartbeat f s) := by
  unfold heartbeat
  repeat' first
    | with_reducible assumption
    | (intro x; beta_reduce)
    | (extract_lets +onlyGivenNames x; refine (fun (hx : MemKept s0 x) => ?_) (?_ : MemKept s0 x) <;> [clear_value x; subst x])
    | (extract_lets +onlyGivenNames x; refine (fun (hx : MemKept s0 x.2) => ?_) (?_ : MemKept s0 x.2) <;> [clear_value x; subst x])
    | (extract_lets +onlyGivenNames x; clear_value x)
    | with_reducible apply MemKept.ite
    | split
    | exact MemKept.snd (by with_reducible assumption) (arrive_mem _ _ _ _ (by with_reducible assumption)).1
    | exact (arrive_mem _ _ _ _ (by with_reducible assumption)).1
    | exact (arrive_mem _ _ _ _ (by with_reducible assumption)).2 _ _ (by with_reducible assumption)
    | with_reducible apply learnStep_mem
    | with_reducible apply wr_mem
    | with_reducible apply modJob_mem
    | with_reducible apply withdraw_mem
    | refine MemKept.snd (by with_reducible assumption) ?_
    | (with_reducible apply MemKept.upd; first | with_reducible assumption | exact MemKept.snd (by with_reducible assumption) (arrive_mem _ _ _ _ (by with_reducible assumption)).1 | exact (arrive_mem _ _ _ _ (by with_reducible assumption)).1 | exact (arrive_mem _ _ _ _ (by with_reducible assumption)).2 _ _ (by with_reducible assumption) | with_reducible apply learnStep_mem | with_reducible apply wr_mem | with_reducible apply modJob_mem | with_reducible apply withdraw_mem | refine MemKept.snd (by with_reducible assumption) ?_)

theorem suspect_mem (rank : Nat) (s : State) (h : MemKept s0 s) : MemKept s0 (suspect rank s) := by
  unfold suspect
  repeat' first
    | with_reducible assumption
    | (intro x; beta_reduce)
    | (extract_lets +onlyGivenNames x; refine (fun (hx : MemKept s0 x) => ?_) (?_ : MemKept s0 x) <;> [clear_value x; subst x])
    | (extract_lets +onlyGivenNames x; clear_value x)
    | with_reducible apply MemKept.ite
    | split
    | with_reducible apply advanceTo_mem
    | with_reducible apply sat_mem
    | with_reducible apply setb_mem
    | with_reducible apply wr_mem

end Sys2Proof.Machine
end

