-- ==== Sys2Proof/Laws/MemExchange.lean ====
section
/-! SUPPORT. Which operations of Machine/Exchange.lean leave every byte of memory: one lemma for each. -/

set_option linter.unusedTactic false
set_option linter.unreachableTactic false
set_option linter.unusedVariables false

namespace Sys2Proof.Machine

open Sys2Proof

variable {s0 : State}

theorem takeOp_mem (op : Nat) (x : XOp) (act : State → State) (s : State) (hact : ∀ s, MemKept s0 s → MemKept s0 (act s))
    (h : MemKept s0 s) : MemKept s0 (takeOp op x act s) := by
  unfold takeOp
  repeat' first
    | with_reducible assumption
    | (intro x; beta_reduce)
    | (extract_lets +onlyGivenNames x; refine (fun (hx : MemKept s0 x) => ?_) (?_ : MemKept s0 x) <;> [clear_value x; subst x])
    | (extract_lets +onlyGivenNames x; clear_value x)
    | with_reducible apply MemKept.ite
    | split
    | with_reducible apply hact
    | with_reducible apply addW_mem
    | with_reducible apply sat_mem

theorem sendOp_mem (rank type : Nat) (x : XOp) (s : State) (h : MemKept s0 s) : MemKept s0 (sendOp rank type x s).2 := by
  unfold sendOp
  repeat' first
    | with_reducible assumption
    | (intro x; beta_reduce)
    | with_reducible apply sendReliable_mem
    | refine MemKept.snd (by with_reducible assumption) ?_

theorem sendAll_mem (type : Nat) (x : XOp) (s : State) (h : MemKept s0 s) : MemKept s0 (sendAll type x s).2 := by
  unfold sendAll
  repeat' first
    | with_reducible assumption
    | (intro x; beta_reduce)
    | (extract_lets +onlyGivenNames x; refine (fun (hx : MemKept s0 x) => ?_) (?_ : MemKept s0 x) <;> [clear_value x; subst x])
    | (extract_lets +onlyGivenNames x; refine (fun (hx : MemKept s0 x.2) => ?_) (?_ : MemKept s0 x.2) <;> [clear_value x; subst x])
    | (extract_lets +onlyGivenNames x; clear_value x)
    | with_reducible apply MemKept.ite
    | split
    | with_reducible apply sendOp_mem
    | with_reducible apply MemKept.foldl
    | with_reducible apply MemKept.foldl_snd
    | with_reducible apply MemKept.foldl_fst
    | refine MemKept.snd (by with_reducible assumption) ?_

theorem modSends_mem (p : SendRec → Bool) (f : SendRec → SendRec) (s : State)
    (h : MemKept s0 s) : MemKept s0 (modSends p f s) := by
  unfold modSends
  repeat' first
    | with_reducible assumption
    | (intro x; beta_reduce)
    | with_reducible apply MemKept.ite
    | split
    | with_reducible apply modJob_mem
    | (with_reducible apply MemKept.upd; first | with_reducible assumption | with_reducible apply modJob_mem)

theorem modOp_mem (id : Nat) (f : PendingOp → PendingOp) (s : State) (h : MemKept s0 s) : MemKept s0 (modOp id f s) := by
  unfold modOp
  repeat' first
    | with_reducible assumption
    | (intro x; beta_reduce)
    | with_reducible apply MemKept.ite
    | split
    | (with_reducible apply MemKept.upd; first | with_reducible assumption)

theorem onReply_mem (b code first count : Nat) (s : State)
    (h : MemKept s0 s) : MemKept s0 (onReply b code first count s) := by
  unfold onReply
  repeat' first
    | with_reducible assumption
    | (intro x; beta_reduce)
    | (extract_lets +onlyGivenNames x; refine (fun (hx : MemKept s0 x) => ?_) (?_ : MemKept s0 x) <;> [clear_value x; subst x])
    | (extract_lets +onlyGivenNames x; refine (fun (hx : MemKept s0 x.2) => ?_) (?_ : MemKept s0 x.2) <;> [clear_value x; subst x])
    | (extract_lets +onlyGivenNames x; clear_value x)
    | with_reducible apply MemKept.ite
    | split
    | with_reducible apply modSends_mem
    | with_reducible apply modOp_mem
    | with_reducible apply MemKept.foldl
    | with_reducible apply MemKept.foldl_snd
    | with_reducible apply MemKept.foldl_fst
    | (with_reducible apply MemKept.upd; first | with_reducible assumption | with_reducible apply modSends_mem | with_reducible apply modOp_mem | with_reducible apply MemKept.foldl | with_reducible apply MemKept.foldl_snd | with_reducible apply MemKept.foldl_fst)

theorem noticeGates_mem (b : Nat) (s : State) (h : MemKept s0 s) : MemKept s0 (noticeGates b s) := by
  unfold noticeGates
  repeat' first
    | with_reducible assumption
    | (intro x; beta_reduce)
    | (extract_lets +onlyGivenNames x; refine (fun (hx : MemKept s0 x) => ?_) (?_ : MemKept s0 x) <;> [clear_value x; subst x])
    | (extract_lets +onlyGivenNames x; refine (fun (hx : MemKept s0 x.2) => ?_) (?_ : MemKept s0 x.2) <;> [clear_value x; subst x])
    | (extract_lets +onlyGivenNames x; clear_value x)
    | with_reducible apply MemKept.ite
    | split
    | (with_reducible apply MemKept.upd; first | with_reducible assumption)

end Sys2Proof.Machine
end

