-- ==== Sys2Proof/Laws/MemOwner.lean ====
section
/-! SUPPORT. Which operations of Machine/Owner.lean leave every byte of memory: one lemma for each. -/

set_option linter.unusedTactic false
set_option linter.unreachableTactic false
set_option linter.unusedVariables false

namespace Sys2Proof.Machine

open Sys2Proof

variable {s0 : State}

theorem accCount_mem (b rank added markers : Nat) (s : State)
    (h : MemKept s0 s) : MemKept s0 (accCount b rank added markers s) := by
  unfold accCount
  repeat' first
    | with_reducible assumption
    | (intro x; beta_reduce)
    | (extract_lets +onlyGivenNames x; refine (fun (hx : MemKept s0 x) => ?_) (?_ : MemKept s0 x) <;> [clear_value x; subst x])
    | (extract_lets +onlyGivenNames x; clear_value x)
    | with_reducible apply MemKept.ite
    | split
    | with_reducible apply addW_mem
    | with_reducible apply sat_mem
    | with_reducible apply modBx_mem
    | (with_reducible apply MemKept.upd; first | with_reducible assumption | with_reducible apply addW_mem | with_reducible apply sat_mem | with_reducible apply modBx_mem)

theorem countElems_mem (x : XOp) (sub : Bool) (skip : Nat → Bool) (ms : List (Nat × Byte)) (s : State)
    (h : MemKept s0 s) : MemKept s0 (countElems x sub skip ms s) := by
  unfold countElems
  repeat' first
    | with_reducible assumption
    | (intro x; beta_reduce)
    | (extract_lets +onlyGivenNames x; refine (fun (hx : MemKept s0 x) => ?_) (?_ : MemKept s0 x) <;> [clear_value x; subst x])
    | (extract_lets +onlyGivenNames x; clear_value x)
    | with_reducible apply MemKept.ite
    | split
    | with_reducible apply accCount_mem

theorem noteTaken_mem (x : XOp) (s : State) (h : MemKept s0 s) : MemKept s0 (noteTaken x s) := by
  unfold noteTaken
  repeat' first
    | with_reducible assumption
    | (intro x; beta_reduce)
    | (extract_lets +onlyGivenNames x; refine (fun (hx : MemKept s0 x) => ?_) (?_ : MemKept s0 x) <;> [clear_value x; subst x])
    | (extract_lets +onlyGivenNames x; clear_value x)
    | with_reducible apply MemKept.ite
    | split
    | with_reducible apply modBx_mem
    | (with_reducible apply MemKept.upd; first | with_reducible assumption | with_reducible apply modBx_mem)

theorem sendShard_mem (b rank : Nat) (data : Bool) (s : State)
    (h : MemKept s0 s) : MemKept s0 (sendShard b rank data s) := by
  unfold sendShard
  repeat' first
    | with_reducible assumption
    | (intro x; beta_reduce)
    | (extract_lets +onlyGivenNames x; refine (fun (hx : MemKept s0 x) => ?_) (?_ : MemKept s0 x) <;> [clear_value x; subst x])
    | (extract_lets +onlyGivenNames x; refine (fun (hx : MemKept s0 x.2) => ?_) (?_ : MemKept s0 x.2) <;> [clear_value x; subst x])
    | (extract_lets +onlyGivenNames x; clear_value x)
    | with_reducible apply MemKept.ite
    | split
    | with_reducible apply sendWrite_mem
    | with_reducible apply modBx_mem
    | with_reducible apply MemKept.foldl
    | with_reducible apply MemKept.foldl_snd
    | with_reducible apply MemKept.foldl_fst
    | refine MemKept.snd (by with_reducible assumption) ?_
    | (with_reducible apply MemKept.upd; first | with_reducible assumption | with_reducible apply sendWrite_mem | with_reducible apply modBx_mem | with_reducible apply MemKept.foldl | with_reducible apply MemKept.foldl_snd | with_reducible apply MemKept.foldl_fst | refine MemKept.snd (by with_reducible assumption) ?_)

theorem shardOut_mem (b : Nat) (data : Bool) (s : State) (h : MemKept s0 s) : MemKept s0 (shardOut b data s) := by
  unfold shardOut
  repeat' first
    | with_reducible assumption
    | (intro x; beta_reduce)
    | with_reducible apply MemKept.ite
    | split
    | with_reducible apply sendShard_mem

theorem settleShards_mem (b : Nat) (s : State) (h : MemKept s0 s) : MemKept s0 (settleShards b s) := by
  unfold settleShards
  repeat' first
    | with_reducible assumption
    | (intro x; beta_reduce)
    | (extract_lets +onlyGivenNames x; refine (fun (hx : MemKept s0 x) => ?_) (?_ : MemKept s0 x) <;> [clear_value x; subst x])
    | (extract_lets +onlyGivenNames x; refine (fun (hx : MemKept s0 x.2) => ?_) (?_ : MemKept s0 x.2) <;> [clear_value x; subst x])
    | (extract_lets +onlyGivenNames x; clear_value x)
    | with_reducible apply MemKept.ite
    | split
    | with_reducible apply sendReliable_mem
    | with_reducible apply modBx_mem
    | with_reducible apply sendShard_mem
    | with_reducible apply MemKept.foldl
    | with_reducible apply MemKept.foldl_snd
    | with_reducible apply MemKept.foldl_fst
    | refine MemKept.snd (by with_reducible assumption) ?_
    | (with_reducible apply MemKept.upd; first | with_reducible assumption | with_reducible apply sendReliable_mem | with_reducible apply modBx_mem | with_reducible apply sendShard_mem | with_reducible apply MemKept.foldl | with_reducible apply MemKept.foldl_snd | with_reducible apply MemKept.foldl_fst | refine MemKept.snd (by with_reducible assumption) ?_)

theorem pullFirst_mem (b rank : Nat) (s : State) (h : MemKept s0 s) : MemKept s0 (pullFirst b rank s) := by
  unfold pullFirst
  repeat' first
    | with_reducible assumption
    | (intro x; beta_reduce)
    | with_reducible apply sendOp_mem
    | with_reducible apply MemKept.foldl
    | with_reducible apply MemKept.foldl_snd
    | with_reducible apply MemKept.foldl_fst
    | refine MemKept.snd (by with_reducible assumption) ?_

theorem noteEnd_mem (x : XOp) (s : State) (h : MemKept s0 s) : MemKept s0 (noteEnd x s) := by
  unfold noteEnd
  repeat' first
    | with_reducible assumption
    | (intro x; beta_reduce)
    | with_reducible apply MemKept.ite
    | split
    | with_reducible apply modBx_mem
    | (with_reducible apply MemKept.upd; first | with_reducible assumption | with_reducible apply modBx_mem)

theorem sendReply_mem (rank code : Nat) (x : XOp) (s : State)
    (h : MemKept s0 s) : MemKept s0 (sendReply rank code x s) := by
  unfold sendReply
  repeat' first
    | with_reducible assumption
    | (intro x; beta_reduce)
    | with_reducible apply MemKept.ite
    | split
    | with_reducible apply onReply_mem
    | with_reducible apply sendOp_mem
    | refine MemKept.snd (by with_reducible assumption) ?_

theorem lateOp_mem (x : XOp) (s : State) (h : MemKept s0 s) : MemKept s0 (lateOp x s) := by
  unfold lateOp
  repeat' first
    | with_reducible assumption
    | (intro x; beta_reduce)
    | with_reducible apply sendReply_mem
    | with_reducible apply sat_mem

theorem beginBucket_mem (b stamp rank : Nat) (s : State) (h : MemKept s0 s) : MemKept s0 (beginBucket b stamp rank s) := by
  unfold beginBucket
  repeat' first
    | with_reducible assumption
    | (intro x; beta_reduce)
    | (extract_lets +onlyGivenNames x; refine (fun (hx : MemKept s0 x) => ?_) (?_ : MemKept s0 x) <;> [clear_value x; subst x])
    | (extract_lets +onlyGivenNames x; clear_value x)
    | with_reducible apply MemKept.ite
    | split
    | with_reducible apply setBx_mem
    | (with_reducible apply MemKept.upd; first | with_reducible assumption | with_reducible apply setBx_mem)

theorem bucketTid_mem (b : Nat) (s : State) (h : MemKept s0 s) : MemKept s0 (bucketTid b s).2 := by
  unfold bucketTid
  repeat' first
    | with_reducible assumption
    | (intro x; beta_reduce)
    | with_reducible apply MemKept.ite
    | split
    | with_reducible apply free_mem
    | refine MemKept.snd (by with_reducible assumption) ?_

theorem refreshCellar_mem (s : State) (h : MemKept s0 s) : MemKept s0 (refreshCellar s) := by
  unfold refreshCellar
  repeat' first
    | with_reducible assumption
    | (intro x; beta_reduce)
    | with_reducible apply wr_mem

theorem startWalk_mem (b rank : Nat) (master : Bool) (s : State)
    (h : MemKept s0 s) : MemKept s0 (startWalk b rank master s) := by
  unfold startWalk
  repeat' first
    | with_reducible assumption
    | (intro x; beta_reduce)
    | (extract_lets +onlyGivenNames x; refine (fun (hx : MemKept s0 x) => ?_) (?_ : MemKept s0 x) <;> [clear_value x; subst x])
    | (extract_lets +onlyGivenNames x; clear_value x)
    | with_reducible apply refreshCellar_mem
    | with_reducible apply modJob_mem
    | (with_reducible apply MemKept.upd; first | with_reducible assumption | with_reducible apply refreshCellar_mem | with_reducible apply modJob_mem)

theorem recellar_mem (b : Nat) (s : State) (h : MemKept s0 s) : MemKept s0 (recellar b s) := by
  unfold recellar
  repeat' first
    | with_reducible assumption
    | (intro x; beta_reduce)
    | (extract_lets +onlyGivenNames x; refine (fun (hx : MemKept s0 x) => ?_) (?_ : MemKept s0 x) <;> [clear_value x; subst x])
    | (extract_lets +onlyGivenNames x; refine (fun (hx : MemKept s0 x.2) => ?_) (?_ : MemKept s0 x.2) <;> [clear_value x; subst x])
    | (extract_lets +onlyGivenNames x; clear_value x)
    | with_reducible apply MemKept.ite
    | split
    | with_reducible apply modBx_mem
    | with_reducible apply startWalk_mem
    | with_reducible apply refreshCellar_mem
    | (with_reducible apply MemKept.upd; first | with_reducible assumption | with_reducible apply modBx_mem | with_reducible apply startWalk_mem | with_reducible apply refreshCellar_mem)

end Sys2Proof.Machine
end

