-- ==== Sys2Proof/Laws/MemCommit.lean ====
section
/-! SUPPORT. Which operations of Machine/Commit.lean leave every byte of memory: one lemma for each. -/

set_option linter.unusedTactic false
set_option linter.unreachableTactic false
set_option linter.unusedVariables false

namespace Sys2Proof.Machine

open Sys2Proof

variable {s0 : State}

theorem makeCurrent_mem (s : State) (kv : FKey × Nat) (h : MemKept s0 s) : MemKept s0 (makeCurrent s kv) := by
  unfold makeCurrent
  repeat' first
    | with_reducible assumption
    | (intro x; beta_reduce)
    | (extract_lets +onlyGivenNames x; refine (fun (hx : MemKept s0 x) => ?_) (?_ : MemKept s0 x) <;> [clear_value x; subst x])
    | (extract_lets +onlyGivenNames x; refine (fun (hx : MemKept s0 x.2) => ?_) (?_ : MemKept s0 x.2) <;> [clear_value x; subst x])
    | (extract_lets +onlyGivenNames x; clear_value x)
    | with_reducible apply MemKept.ite
    | split
    | with_reducible apply wrU_mem

theorem afterFields_mem (fs : List (FKey × Nat)) (s : State) (h : MemKept s0 s) : MemKept s0 (afterFields fs s) := by
  unfold afterFields
  repeat' first
    | with_reducible assumption
    | (intro x; beta_reduce)
    | with_reducible apply takeChains_mem
    | with_reducible apply makeCurrent_mem
    | with_reducible apply MemKept.foldl
    | with_reducible apply MemKept.foldl_snd
    | with_reducible apply MemKept.foldl_fst

theorem advanceFold_mem (old : State) (i : Nat) (s : State) (h : MemKept s0 s) : MemKept s0 (advanceFold old i s) := by
  unfold advanceFold
  repeat' first
    | with_reducible assumption
    | (intro x; beta_reduce)
    | (extract_lets +onlyGivenNames x; refine (fun (hx : MemKept s0 x) => ?_) (?_ : MemKept s0 x) <;> [clear_value x; subst x])
    | (extract_lets +onlyGivenNames x; refine (fun (hx : MemKept s0 x.2) => ?_) (?_ : MemKept s0 x.2) <;> [clear_value x; subst x])
    | (extract_lets +onlyGivenNames x; clear_value x)
    | with_reducible apply MemKept.ite
    | split
    | with_reducible apply wrA_mem
    | with_reducible apply setArrX_mem
    | with_reducible apply MemKept.foldl
    | with_reducible apply MemKept.foldl_snd
    | with_reducible apply MemKept.foldl_fst
    | (with_reducible apply MemKept.upd; first | with_reducible assumption | with_reducible apply wrA_mem | with_reducible apply setArrX_mem | with_reducible apply MemKept.foldl | with_reducible apply MemKept.foldl_snd | with_reducible apply MemKept.foldl_fst)

theorem installGains_mem (dp : Nat × Nat) (s : State) (h : MemKept s0 s) : MemKept s0 (installGains dp s) := by
  unfold installGains
  repeat' first
    | with_reducible assumption
    | (intro x; beta_reduce)
    | (extract_lets +onlyGivenNames x; refine (fun (hx : MemKept s0 x) => ?_) (?_ : MemKept s0 x) <;> [clear_value x; subst x])
    | (extract_lets +onlyGivenNames x; refine (fun (hx : MemKept s0 x.2) => ?_) (?_ : MemKept s0 x.2) <;> [clear_value x; subst x])
    | (extract_lets +onlyGivenNames x; clear_value x)
    | with_reducible apply MemKept.ite
    | split
    | with_reducible apply wrA_mem
    | with_reducible apply modSweep_mem
    | with_reducible apply MemKept.foldl
    | with_reducible apply MemKept.foldl_snd
    | with_reducible apply MemKept.foldl_fst
    | (with_reducible apply MemKept.upd; first | with_reducible assumption | with_reducible apply wrA_mem | with_reducible apply modSweep_mem | with_reducible apply MemKept.foldl | with_reducible apply MemKept.foldl_snd | with_reducible apply MemKept.foldl_fst)

theorem retireArrays_mem (die : Nat) (old : State) (s : State)
    (h : MemKept s0 s) : MemKept s0 (retireArrays die old s) := by
  unfold retireArrays
  repeat' first
    | with_reducible assumption
    | (intro x; beta_reduce)
    | (extract_lets +onlyGivenNames x; refine (fun (hx : MemKept s0 x) => ?_) (?_ : MemKept s0 x) <;> [clear_value x; subst x])
    | (extract_lets +onlyGivenNames x; refine (fun (hx : MemKept s0 x.2) => ?_) (?_ : MemKept s0 x.2) <;> [clear_value x; subst x])
    | (extract_lets +onlyGivenNames x; clear_value x)
    | with_reducible apply MemKept.ite
    | split
    | with_reducible apply setArrX_mem
    | with_reducible apply MemKept.foldl
    | with_reducible apply MemKept.foldl_snd
    | with_reducible apply MemKept.foldl_fst
    | (with_reducible apply MemKept.upd; first | with_reducible assumption | with_reducible apply setArrX_mem | with_reducible apply MemKept.foldl | with_reducible apply MemKept.foldl_snd | with_reducible apply MemKept.foldl_fst)

theorem changeFrame_mem (inst ap : Nat) (old s : State) (h : MemKept s0 s) : MemKept s0 (changeFrame inst ap old s) := by
  unfold changeFrame
  repeat' first
    | with_reducible assumption
    | (intro x; beta_reduce)
    | (extract_lets +onlyGivenNames x; refine (fun (hx : MemKept s0 x) => ?_) (?_ : MemKept s0 x) <;> [clear_value x; subst x])
    | (extract_lets +onlyGivenNames x; clear_value x)
    | with_reducible apply MemKept.ite
    | split
    | (with_reducible apply MemKept.upd; first | with_reducible assumption)

theorem detectorReset_mem (s : State) (h : MemKept s0 s) : MemKept s0 (detectorReset s) := by
  unfold detectorReset
  repeat' first
    | with_reducible assumption
    | (intro x; beta_reduce)
    | with_reducible apply wr_mem
    | with_reducible apply clearSatBit_mem

theorem clearRegs_mem (q : SeqId) (s : State) (h : MemKept s0 s) : MemKept s0 (clearRegs q s) := by
  unfold clearRegs
  repeat' first
    | with_reducible assumption
    | (intro x; beta_reduce)
    | (extract_lets +onlyGivenNames x; refine (fun (hx : MemKept s0 x) => ?_) (?_ : MemKept s0 x) <;> [clear_value x; subst x])
    | (extract_lets +onlyGivenNames x; refine (fun (hx : MemKept s0 x.2) => ?_) (?_ : MemKept s0 x.2) <;> [clear_value x; subst x])
    | (extract_lets +onlyGivenNames x; clear_value x)
    | with_reducible apply setReg_mem
    | with_reducible apply wr_mem
    | with_reducible apply setb_mem
    | with_reducible apply MemKept.foldl
    | with_reducible apply MemKept.foldl_snd
    | with_reducible apply MemKept.foldl_fst

theorem programStart_mem (qs : List SeqId) (s : State) (h : MemKept s0 s) : MemKept s0 (programStart qs s) := by
  unfold programStart
  repeat' first
    | with_reducible assumption
    | (intro; show List.length [] ≤ 64; decide)
    | (intro x; beta_reduce)
    | (extract_lets +onlyGivenNames x; refine (fun (hx : MemKept s0 x) => ?_) (?_ : MemKept s0 x) <;> [clear_value x; subst x])
    | (extract_lets +onlyGivenNames x; refine (fun (hx : MemKept s0 x.2) => ?_) (?_ : MemKept s0 x.2) <;> [clear_value x; subst x])
    | (extract_lets +onlyGivenNames x; clear_value x)
    | with_reducible apply setQueue_mem
    | (intro; simp; done)
    | with_reducible apply detectorReset_mem
    | with_reducible apply MemKept.foldl
    | with_reducible apply MemKept.foldl_snd
    | with_reducible apply MemKept.foldl_fst
    | (with_reducible apply MemKept.upd; first | with_reducible assumption | with_reducible apply setQueue_mem | with_reducible apply detectorReset_mem | with_reducible apply MemKept.foldl | with_reducible apply MemKept.foldl_snd | with_reducible apply MemKept.foldl_fst)

theorem unstage_mem (fs : List (FKey × Nat)) (s : State) (h : MemKept s0 s) : MemKept s0 (unstage fs s) := by
  unfold unstage
  repeat' first
    | with_reducible assumption
    | (intro x; beta_reduce)
    | (with_reducible apply MemKept.upd; first | with_reducible assumption)

theorem setCommit_mem (st res : Nat) (s : State) (h : MemKept s0 s) : MemKept s0 (setCommit st res s) := by
  unfold setCommit
  repeat' first
    | with_reducible assumption
    | (intro x; beta_reduce)
    | with_reducible apply wr_mem

theorem claim_mem (a : Agent) (s : State) (h : MemKept s0 s) : MemKept s0 (claim a s) := by
  unfold claim
  repeat' first
    | with_reducible assumption
    | (intro x; beta_reduce)
    | (extract_lets +onlyGivenNames x; refine (fun (hx : MemKept s0 x) => ?_) (?_ : MemKept s0 x) <;> [clear_value x; subst x])
    | (extract_lets +onlyGivenNames x; clear_value x)
    | with_reducible apply MemKept.ite
    | split
    | with_reducible apply wr_mem
    | (with_reducible apply MemKept.upd; first | with_reducible assumption | with_reducible apply wr_mem)

theorem releaseClaim_mem (a : Agent) (s : State) (h : MemKept s0 s) : MemKept s0 (releaseClaim a s) := by
  unfold releaseClaim
  repeat' first
    | with_reducible assumption
    | (intro x; beta_reduce)
    | with_reducible apply MemKept.ite
    | split
    | with_reducible apply wr_mem

theorem expireClaim_mem (s : State) (h : MemKept s0 s) : MemKept s0 (expireClaim s) := by
  unfold expireClaim
  repeat' first
    | with_reducible assumption
    | (intro x; beta_reduce)
    | (extract_lets +onlyGivenNames x; refine (fun (hx : MemKept s0 x) => ?_) (?_ : MemKept s0 x) <;> [clear_value x; subst x])
    | (extract_lets +onlyGivenNames x; clear_value x)
    | with_reducible apply advanceTo_mem
    | with_reducible apply sat_mem
    | with_reducible apply wr_mem

theorem commitGo_mem (a : Agent) (when' : Nat) (s : State) (h : MemKept s0 s) : MemKept s0 (commitGo a when' s) := by
  unfold commitGo
  repeat' first
    | with_reducible assumption
    | (intro x; beta_reduce)
    | (extract_lets +onlyGivenNames x; refine (fun (hx : MemKept s0 x) => ?_) (?_ : MemKept s0 x) <;> [clear_value x; subst x])
    | (extract_lets +onlyGivenNames x; clear_value x)
    | with_reducible apply MemKept.ite
    | split
    | with_reducible apply sat_mem
    | with_reducible apply wr_mem
    | with_reducible apply setCommit_mem
    | (with_reducible apply MemKept.upd; first | with_reducible assumption | with_reducible apply sat_mem | with_reducible apply wr_mem | with_reducible apply setCommit_mem)

theorem discard_mem (s : State) (h : MemKept s0 s) : MemKept s0 (discard s) := by
  unfold discard
  repeat' first
    | with_reducible assumption
    | (intro x; beta_reduce)
    | (extract_lets +onlyGivenNames x; refine (fun (hx : MemKept s0 x) => ?_) (?_ : MemKept s0 x) <;> [clear_value x; subst x])
    | (extract_lets +onlyGivenNames x; refine (fun (hx : MemKept s0 x.2) => ?_) (?_ : MemKept s0 x.2) <;> [clear_value x; subst x])
    | (extract_lets +onlyGivenNames x; clear_value x)
    | with_reducible apply MemKept.ite
    | split
    | with_reducible apply stagedGainWrite_mem
    | with_reducible apply wr_mem
    | with_reducible apply setb_mem
    | with_reducible apply MemKept.foldl
    | with_reducible apply MemKept.foldl_snd
    | with_reducible apply MemKept.foldl_fst
    | (with_reducible apply MemKept.upd; first | with_reducible assumption | with_reducible apply stagedGainWrite_mem | with_reducible apply wr_mem | with_reducible apply setb_mem | with_reducible apply MemKept.foldl | with_reducible apply MemKept.foldl_snd | with_reducible apply MemKept.foldl_fst)

theorem failCommit_mem (r : Reject) (res : Nat) (s : State) (h : MemKept s0 s) : MemKept s0 (failCommit r res s) := by
  unfold failCommit
  repeat' first
    | with_reducible assumption
    | (intro x; beta_reduce)
    | (extract_lets +onlyGivenNames x; refine (fun (hx : MemKept s0 x) => ?_) (?_ : MemKept s0 x) <;> [clear_value x; subst x])
    | (extract_lets +onlyGivenNames x; clear_value x)
    | with_reducible apply setCommit_mem
    | with_reducible apply wr_mem
    | with_reducible apply sat_mem
    | with_reducible apply setb_mem
    | (with_reducible apply MemKept.upd; first | with_reducible assumption | with_reducible apply setCommit_mem | with_reducible apply wr_mem | with_reducible apply sat_mem | with_reducible apply setb_mem)

theorem rejectView_mem (r : Reject) (s : State) (h : MemKept s0 s) : MemKept s0 (rejectView r s) := by
  unfold rejectView
  repeat' first
    | with_reducible assumption
    | (intro x; beta_reduce)
    | with_reducible apply MemKept.ite
    | split
    | with_reducible apply withdraw_mem
    | with_reducible apply setb_mem

theorem joinSet_mem (fs : List (FKey × Nat)) (s : State) (h : MemKept s0 s) : MemKept s0 (joinSet fs s) := by
  unfold joinSet
  repeat' first
    | with_reducible assumption
    | (intro x; beta_reduce)
    | (extract_lets +onlyGivenNames x; refine (fun (hx : MemKept s0 x) => ?_) (?_ : MemKept s0 x) <;> [clear_value x; subst x])
    | (extract_lets +onlyGivenNames x; clear_value x)
    | with_reducible apply setb_mem
    | (with_reducible apply MemKept.upd; first | with_reducible assumption | with_reducible apply setb_mem)

theorem checkDone_mem (s : State) (h : MemKept s0 s) : MemKept s0 (checkDone s) := by
  unfold checkDone
  repeat' first
    | with_reducible assumption
    | (intro x; beta_reduce)
    | (extract_lets +onlyGivenNames x; refine (fun (hx : MemKept s0 x) => ?_) (?_ : MemKept s0 x) <;> [clear_value x; subst x])
    | (extract_lets +onlyGivenNames x; refine (fun (hx : MemKept s0 x.2) => ?_) (?_ : MemKept s0 x.2) <;> [clear_value x; subst x])
    | (extract_lets +onlyGivenNames x; clear_value x)
    | with_reducible apply MemKept.ite
    | split
    | with_reducible apply wr_mem
    | with_reducible apply rejectView_mem
    | with_reducible apply failCommit_mem
    | with_reducible apply setCommit_mem
    | with_reducible apply joinSet_mem
    | with_reducible apply setb_mem
    | with_reducible apply afterFields_mem
    | with_reducible apply modJob_mem
    | (with_reducible apply MemKept.upd; first | with_reducible assumption | with_reducible apply wr_mem | with_reducible apply rejectView_mem | with_reducible apply failCommit_mem | with_reducible apply setCommit_mem | with_reducible apply joinSet_mem | with_reducible apply setb_mem | with_reducible apply afterFields_mem | with_reducible apply modJob_mem)

theorem noteApplied_mem (s : State) (h : MemKept s0 s) : MemKept s0 (noteApplied s) := by
  unfold noteApplied
  repeat' first
    | with_reducible assumption
    | (intro x; beta_reduce)
    | with_reducible apply sat_mem
    | with_reducible apply wr_mem

theorem endSet_mem (st res : Nat) (s : State) (h : MemKept s0 s) : MemKept s0 (endSet st res s) := by
  unfold endSet
  repeat' first
    | with_reducible assumption
    | (intro x; beta_reduce)
    | (extract_lets +onlyGivenNames x; refine (fun (hx : MemKept s0 x) => ?_) (?_ : MemKept s0 x) <;> [clear_value x; subst x])
    | (extract_lets +onlyGivenNames x; clear_value x)
    | with_reducible apply MemKept.ite
    | split
    | with_reducible apply setCommit_mem
    | with_reducible apply setb_mem
    | (with_reducible apply MemKept.upd; first | with_reducible assumption | with_reducible apply setCommit_mem | with_reducible apply setb_mem)

theorem failSet_mem (r : Reject) (s : State) (h : MemKept s0 s) : MemKept s0 (failSet r s) := by
  unfold failSet
  repeat' first
    | with_reducible assumption
    | (intro x; beta_reduce)
    | with_reducible apply endSet_mem
    | with_reducible apply setb_mem
    | with_reducible apply wr_mem
    | with_reducible apply sat_mem

end Sys2Proof.Machine
end

