-- ==== Sys2Proof/Laws/MemSend.lean ====
section
/-! SUPPORT. Which operations of Machine/Send.lean leave every byte of memory: one lemma for each. -/

set_option linter.unusedTactic false
set_option linter.unreachableTactic false
set_option linter.unusedVariables false

namespace Sys2Proof.Machine

open Sys2Proof

variable {s0 : State}

theorem noteLayer_mem (r : SendRec) (s : State) (h : MemKept s0 s) : MemKept s0 (noteLayer r s) := by
  unfold noteLayer
  repeat' first
    | with_reducible assumption
    | (intro x; beta_reduce)
    | (extract_lets +onlyGivenNames x; refine (fun (hx : MemKept s0 x) => ?_) (?_ : MemKept s0 x) <;> [clear_value x; subst x])
    | (extract_lets +onlyGivenNames x; clear_value x)
    | with_reducible apply MemKept.ite
    | split
    | with_reducible apply modJob_mem
    | (with_reducible apply MemKept.upd; first | with_reducible assumption | with_reducible apply modJob_mem)

theorem startWait_mem (cmd : Cmd) (x : Ctx) (s : State) (h : MemKept s0 s) : MemKept s0 (startWait cmd x s) := by
  unfold startWait
  repeat' first
    | with_reducible assumption
    | (intro x; beta_reduce)
    | (extract_lets +onlyGivenNames x; refine (fun (hx : MemKept s0 x) => ?_) (?_ : MemKept s0 x) <;> [clear_value x; subst x])
    | (extract_lets +onlyGivenNames x; clear_value x)
    | with_reducible apply MemKept.ite
    | split
    | with_reducible apply track_mem
    | with_reducible apply noticeGates_mem
    | (with_reducible apply MemKept.upd; first | with_reducible assumption | with_reducible apply track_mem | with_reducible apply noticeGates_mem)

end Sys2Proof.Machine
end

