-- ==== Sys2Proof/Laws/MemUpdate.lean ====
section
/-! SUPPORT. Which operations of Machine/Update.lean leave every byte of memory: one lemma for each. -/

set_option linter.unusedTactic false
set_option linter.unreachableTactic false
set_option linter.unusedVariables false

namespace Sys2Proof.Machine

open Sys2Proof

variable {s0 : State}

theorem checkUpdated_mem (b : Nat) (s : State) (h : MemKept s0 s) : MemKept s0 (checkUpdated b s) := by
  unfold checkUpdated
  repeat' first
    | with_reducible assumption
    | (intro x; beta_reduce)
    | (extract_lets +onlyGivenNames x; refine (fun (hx : MemKept s0 x) => ?_) (?_ : MemKept s0 x) <;> [clear_value x; subst x])
    | (extract_lets +onlyGivenNames x; clear_value x)
    | with_reducible apply MemKept.ite
    | split
    | with_reducible apply refreshPending_mem
    | with_reducible apply sat_mem
    | with_reducible apply modBx_mem
    | (with_reducible apply MemKept.upd; first | with_reducible assumption | with_reducible apply refreshPending_mem | with_reducible apply sat_mem | with_reducible apply modBx_mem)

theorem markLast_mem (b : Nat) (o : XOp) (s : State) (h : MemKept s0 s) : MemKept s0 (markLast b o s).2 := by
  unfold markLast
  repeat' first
    | with_reducible assumption
    | (intro x; beta_reduce)
    | (extract_lets +onlyGivenNames x; refine (fun (hx : MemKept s0 x) => ?_) (?_ : MemKept s0 x) <;> [clear_value x; subst x])
    | (extract_lets +onlyGivenNames x; clear_value x)
    | with_reducible apply MemKept.ite
    | split
    | with_reducible apply modBx_mem
    | (with_reducible apply MemKept.upd; first | with_reducible assumption | with_reducible apply modBx_mem)

theorem noteSpike_mem (c : Nat) (s : State) (h : MemKept s0 s) : MemKept s0 (noteSpike c s) := by
  unfold noteSpike
  repeat' first
    | with_reducible assumption
    | (intro x; beta_reduce)
    | (extract_lets +onlyGivenNames x; refine (fun (hx : MemKept s0 x) => ?_) (?_ : MemKept s0 x) <;> [clear_value x; subst x])
    | (extract_lets +onlyGivenNames x; clear_value x)
    | with_reducible apply sat_mem
    | with_reducible apply setb_mem
    | with_reducible apply wr_mem
    | with_reducible apply modJob_mem
    | (with_reducible apply MemKept.upd; first | with_reducible assumption | with_reducible apply sat_mem | with_reducible apply setb_mem | with_reducible apply wr_mem | with_reducible apply modJob_mem)

theorem spikeTest_mem (s : State) (h : MemKept s0 s) : MemKept s0 (spikeTest s) := by
  unfold spikeTest
  repeat' first
    | with_reducible assumption
    | (intro x; beta_reduce)
    | (extract_lets +onlyGivenNames x; refine (fun (hx : MemKept s0 x) => ?_) (?_ : MemKept s0 x) <;> [clear_value x; subst x])
    | (extract_lets +onlyGivenNames x; clear_value x)
    | with_reducible apply MemKept.ite
    | split
    | with_reducible apply sat_mem
    | with_reducible apply setb_mem
    | with_reducible apply noteSpike_mem

theorem refreshStarved_mem (s : State) (h : MemKept s0 s) : MemKept s0 (refreshStarved s) := by
  unfold refreshStarved
  repeat' first
    | with_reducible assumption
    | (intro x; beta_reduce)
    | (extract_lets +onlyGivenNames x; refine (fun (hx : MemKept s0 x) => ?_) (?_ : MemKept s0 x) <;> [clear_value x; subst x])
    | (extract_lets +onlyGivenNames x; clear_value x)
    | with_reducible apply wr_mem

theorem starveTest_mem (s : State) (h : MemKept s0 s) : MemKept s0 (starveTest s) := by
  unfold starveTest
  repeat' first
    | with_reducible assumption
    | (intro x; beta_reduce)
    | (extract_lets +onlyGivenNames x; refine (fun (hx : MemKept s0 x) => ?_) (?_ : MemKept s0 x) <;> [clear_value x; subst x])
    | (extract_lets +onlyGivenNames x; refine (fun (hx : MemKept s0 x.2) => ?_) (?_ : MemKept s0 x.2) <;> [clear_value x; subst x])
    | (extract_lets +onlyGivenNames x; clear_value x)
    | with_reducible apply MemKept.ite
    | split
    | with_reducible apply wr_mem
    | with_reducible apply modJob_mem
    | with_reducible apply refreshStarved_mem
    | with_reducible apply setb_mem
    | with_reducible apply MemKept.foldl
    | with_reducible apply MemKept.foldl_snd
    | with_reducible apply MemKept.foldl_fst
    | (with_reducible apply MemKept.upd; first | with_reducible assumption | with_reducible apply wr_mem | with_reducible apply modJob_mem | with_reducible apply refreshStarved_mem | with_reducible apply setb_mem | with_reducible apply MemKept.foldl | with_reducible apply MemKept.foldl_snd | with_reducible apply MemKept.foldl_fst)

theorem setVoteSent_mem (v : Bool) (s : State) (h : MemKept s0 s) : MemKept s0 (setVoteSent v s) := by
  unfold setVoteSent
  repeat' first
    | with_reducible assumption
    | (intro x; beta_reduce)
    | with_reducible apply setb_mem
    | with_reducible apply MemKept.foldl
    | with_reducible apply MemKept.foldl_snd
    | with_reducible apply MemKept.foldl_fst

theorem onDecision_mem (step at' : Nat) (vetoed : Bool) (s : State)
    (h : MemKept s0 s) : MemKept s0 (onDecision step at' vetoed s) := by
  unfold onDecision
  repeat' first
    | with_reducible assumption
    | (intro x; beta_reduce)
    | with_reducible apply MemKept.ite
    | split
    | with_reducible apply modJob_mem
    | (with_reducible apply MemKept.upd; first | with_reducible assumption | with_reducible apply modJob_mem)

theorem tryDecide_mem (s : State) (h : MemKept s0 s) : MemKept s0 (tryDecide s) := by
  unfold tryDecide
  repeat' first
    | with_reducible assumption
    | (intro x; beta_reduce)
    | (extract_lets +onlyGivenNames x; refine (fun (hx : MemKept s0 x) => ?_) (?_ : MemKept s0 x) <;> [clear_value x; subst x])
    | (extract_lets +onlyGivenNames x; refine (fun (hx : MemKept s0 x.2) => ?_) (?_ : MemKept s0 x.2) <;> [clear_value x; subst x])
    | (extract_lets +onlyGivenNames x; clear_value x)
    | with_reducible apply MemKept.ite
    | split
    | with_reducible apply sendReliable_mem
    | with_reducible apply onDecision_mem
    | with_reducible apply MemKept.foldl
    | with_reducible apply MemKept.foldl_snd
    | with_reducible apply MemKept.foldl_fst
    | refine MemKept.snd (by with_reducible assumption) ?_

theorem onVote_mem (rank step flags : Nat) (s : State) (h : MemKept s0 s) : MemKept s0 (onVote rank step flags s) := by
  unfold onVote
  repeat' first
    | with_reducible assumption
    | (intro x; beta_reduce)
    | (extract_lets +onlyGivenNames x; refine (fun (hx : MemKept s0 x) => ?_) (?_ : MemKept s0 x) <;> [clear_value x; subst x])
    | (extract_lets +onlyGivenNames x; clear_value x)
    | with_reducible apply MemKept.ite
    | split
    | with_reducible apply tryDecide_mem
    | with_reducible apply modJob_mem
    | (with_reducible apply MemKept.upd; first | with_reducible assumption | with_reducible apply tryDecide_mem | with_reducible apply modJob_mem)

theorem sendVote_mem (s : State) (h : MemKept s0 s) : MemKept s0 (sendVote s) := by
  unfold sendVote
  repeat' first
    | with_reducible assumption
    | (intro x; beta_reduce)
    | with_reducible apply MemKept.ite
    | split
    | with_reducible apply onVote_mem
    | with_reducible apply sendReliable_mem
    | refine MemKept.snd (by with_reducible assumption) ?_

theorem castVote_mem (s : State) (h : MemKept s0 s) : MemKept s0 (castVote s) := by
  unfold castVote
  repeat' first
    | with_reducible assumption
    | (intro x; beta_reduce)
    | (extract_lets +onlyGivenNames x; refine (fun (hx : MemKept s0 x) => ?_) (?_ : MemKept s0 x) <;> [clear_value x; subst x])
    | (extract_lets +onlyGivenNames x; clear_value x)
    | with_reducible apply MemKept.ite
    | split
    | with_reducible apply sat_mem
    | with_reducible apply modJob_mem
    | with_reducible apply starveTest_mem
    | with_reducible apply spikeTest_mem
    | with_reducible apply setb_mem
    | with_reducible apply sendVote_mem
    | with_reducible apply setVoteSent_mem
    | (with_reducible apply MemKept.upd; first | with_reducible assumption | with_reducible apply sat_mem | with_reducible apply modJob_mem | with_reducible apply starveTest_mem | with_reducible apply spikeTest_mem | with_reducible apply setb_mem | with_reducible apply sendVote_mem | with_reducible apply setVoteSent_mem)

theorem mixerTest_mem (s : State) (h : MemKept s0 s) : MemKept s0 (mixerTest s) := by
  unfold mixerTest
  repeat' first
    | with_reducible assumption
    | (intro x; beta_reduce)
    | (extract_lets +onlyGivenNames x; refine (fun (hx : MemKept s0 x) => ?_) (?_ : MemKept s0 x) <;> [clear_value x; subst x])
    | (extract_lets +onlyGivenNames x; clear_value x)
    | with_reducible apply MemKept.ite
    | split
    | with_reducible apply setb_mem
    | with_reducible apply wrU_mem

theorem runClear_mem (s : State) (h : MemKept s0 s) : MemKept s0 (runClear s) := by
  unfold runClear
  repeat' first
    | with_reducible assumption
    | (intro x; beta_reduce)
    | with_reducible apply refreshStarved_mem
    | (with_reducible apply MemKept.upd; first | with_reducible assumption | with_reducible apply refreshStarved_mem)

theorem bypassPermanent_mem (die p : Nat) (s : State) (h : MemKept s0 s) : MemKept s0 (bypassPermanent die p s) := by
  unfold bypassPermanent
  repeat' first
    | with_reducible assumption
    | (intro x; beta_reduce)
    | with_reducible apply MemKept.ite
    | split
    | with_reducible apply bypassLoaded_mem
    | with_reducible apply MemKept.foldl
    | with_reducible apply MemKept.foldl_snd
    | with_reducible apply MemKept.foldl_fst

end Sys2Proof.Machine
end

