-- ==== Sys2Proof/Laws/MemEpoch.lean ====
section
/-! SUPPORT. Which operations of Machine/Epoch.lean leave every byte of memory: one lemma for each. -/

set_option linter.unusedTactic false
set_option linter.unreachableTactic false
set_option linter.unusedVariables false

namespace Sys2Proof.Machine

open Sys2Proof

variable {s0 : State}

theorem finishWalks_mem (s : State) (h : MemKept s0 s) : MemKept s0 (finishWalks s) := by
  unfold finishWalks
  repeat' first
    | with_reducible assumption
    | (intro x; beta_reduce)
    | (extract_lets +onlyGivenNames x; refine (fun (hx : MemKept s0 x) => ?_) (?_ : MemKept s0 x) <;> [clear_value x; subst x])
    | (extract_lets +onlyGivenNames x; refine (fun (hx : MemKept s0 x.2) => ?_) (?_ : MemKept s0 x.2) <;> [clear_value x; subst x])
    | (extract_lets +onlyGivenNames x; clear_value x)
    | with_reducible apply MemKept.ite
    | split
    | with_reducible apply modJob_mem
    | with_reducible apply sat_mem
    | with_reducible apply modBx_mem
    | with_reducible apply refreshCellar_mem
    | with_reducible apply MemKept.foldl
    | with_reducible apply MemKept.foldl_snd
    | with_reducible apply MemKept.foldl_fst
    | (with_reducible apply MemKept.upd; first | with_reducible assumption | with_reducible apply modJob_mem | with_reducible apply sat_mem | with_reducible apply modBx_mem | with_reducible apply refreshCellar_mem | with_reducible apply MemKept.foldl | with_reducible apply MemKept.foldl_snd | with_reducible apply MemKept.foldl_fst)

theorem loseBuckets_mem (lost : List Nat) (s : State) (h : MemKept s0 s) : MemKept s0 (loseBuckets lost s) := by
  unfold loseBuckets
  repeat' first
    | with_reducible assumption
    | (intro x; beta_reduce)
    | (extract_lets +onlyGivenNames x; refine (fun (hx : MemKept s0 x) => ?_) (?_ : MemKept s0 x) <;> [clear_value x; subst x])
    | (extract_lets +onlyGivenNames x; refine (fun (hx : MemKept s0 x.2) => ?_) (?_ : MemKept s0 x.2) <;> [clear_value x; subst x])
    | (extract_lets +onlyGivenNames x; clear_value x)
    | with_reducible apply MemKept.ite
    | split
    | with_reducible apply modBx_mem
    | with_reducible apply wr_mem
    | with_reducible apply setb_mem
    | with_reducible apply stopIssue_mem
    | with_reducible apply MemKept.foldl
    | with_reducible apply MemKept.foldl_snd
    | with_reducible apply MemKept.foldl_fst
    | (with_reducible apply MemKept.upd; first | with_reducible assumption | with_reducible apply modBx_mem | with_reducible apply wr_mem | with_reducible apply setb_mem | with_reducible apply stopIssue_mem | with_reducible apply MemKept.foldl | with_reducible apply MemKept.foldl_snd | with_reducible apply MemKept.foldl_fst)

theorem stateScan_mem (s : State) (h : MemKept s0 s) : MemKept s0 (stateScan s) := by
  unfold stateScan
  repeat' first
    | with_reducible assumption
    | (intro x; beta_reduce)
    | (extract_lets +onlyGivenNames x; refine (fun (hx : MemKept s0 x) => ?_) (?_ : MemKept s0 x) <;> [clear_value x; subst x])
    | (extract_lets +onlyGivenNames x; clear_value x)
    | with_reducible apply MemKept.ite
    | split
    | with_reducible apply loseBuckets_mem

theorem crcCommit_mem (e : Nat) (s : State) (h : MemKept s0 s) : MemKept s0 (crcCommit e s) := by
  unfold crcCommit
  repeat' first
    | with_reducible assumption
    | (intro x; beta_reduce)
    | (extract_lets +onlyGivenNames x; refine (fun (hx : MemKept s0 x) => ?_) (?_ : MemKept s0 x) <;> [clear_value x; subst x])
    | (extract_lets +onlyGivenNames x; refine (fun (hx : MemKept s0 x.2) => ?_) (?_ : MemKept s0 x.2) <;> [clear_value x; subst x])
    | (extract_lets +onlyGivenNames x; clear_value x)
    | with_reducible apply MemKept.ite
    | split
    | with_reducible apply sat_mem
    | with_reducible apply modBx_mem
    | with_reducible apply MemKept.foldl
    | with_reducible apply MemKept.foldl_snd
    | with_reducible apply MemKept.foldl_fst
    | (with_reducible apply MemKept.upd; first | with_reducible assumption | with_reducible apply sat_mem | with_reducible apply modBx_mem | with_reducible apply MemKept.foldl | with_reducible apply MemKept.foldl_snd | with_reducible apply MemKept.foldl_fst)

theorem refreshStaging_mem (s : State) (h : MemKept s0 s) : MemKept s0 (refreshStaging s) := by
  unfold refreshStaging
  repeat' first
    | with_reducible assumption
    | (intro x; beta_reduce)
    | with_reducible apply setb_mem

theorem shelfCommit_mem (e : Nat) (s : State) (h : MemKept s0 s) : MemKept s0 (shelfCommit e s) := by
  unfold shelfCommit
  repeat' first
    | with_reducible assumption
    | (intro x; beta_reduce)
    | (extract_lets +onlyGivenNames x; refine (fun (hx : MemKept s0 x) => ?_) (?_ : MemKept s0 x) <;> [clear_value x; subst x])
    | (extract_lets +onlyGivenNames x; clear_value x)
    | with_reducible apply MemKept.ite
    | split
    | with_reducible apply sat_mem
    | with_reducible apply refreshStaging_mem
    | with_reducible apply modJob_mem
    | (with_reducible apply MemKept.upd; first | with_reducible assumption | with_reducible apply sat_mem | with_reducible apply refreshStaging_mem | with_reducible apply modJob_mem)

theorem setShelfEpoch_mem (k e : Nat) (s : State) (h : MemKept s0 s) : MemKept s0 (setShelfEpoch k e s) := by
  unfold setShelfEpoch
  repeat' first
    | with_reducible assumption
    | (intro x; beta_reduce)
    | with_reducible apply MemKept.ite
    | split
    | with_reducible apply wr_mem

theorem showSlots_mem (s : State) (h : MemKept s0 s) : MemKept s0 (showSlots s) := by
  unfold showSlots
  repeat' first
    | with_reducible assumption
    | (intro x; beta_reduce)
    | with_reducible apply setShelfEpoch_mem
    | with_reducible apply MemKept.foldl
    | with_reducible apply MemKept.foldl_snd
    | with_reducible apply MemKept.foldl_fst

theorem shelfFail_mem (s : State) (h : MemKept s0 s) : MemKept s0 (shelfFail s) := by
  unfold shelfFail
  repeat' first
    | with_reducible assumption
    | (intro x; beta_reduce)
    | with_reducible apply refreshStaging_mem
    | with_reducible apply setb_mem
    | with_reducible apply modJob_mem
    | (with_reducible apply MemKept.upd; first | with_reducible assumption | with_reducible apply refreshStaging_mem | with_reducible apply setb_mem | with_reducible apply modJob_mem)

theorem shelfWriteDone_mem (ok : Bool) (s : State) (h : MemKept s0 s) : MemKept s0 (shelfWriteDone ok s) := by
  unfold shelfWriteDone
  repeat' first
    | with_reducible assumption
    | (intro x; beta_reduce)
    | (extract_lets +onlyGivenNames x; refine (fun (hx : MemKept s0 x) => ?_) (?_ : MemKept s0 x) <;> [clear_value x; subst x])
    | (extract_lets +onlyGivenNames x; refine (fun (hx : MemKept s0 x.2) => ?_) (?_ : MemKept s0 x.2) <;> [clear_value x; subst x])
    | (extract_lets +onlyGivenNames x; clear_value x)
    | with_reducible apply MemKept.ite
    | split
    | with_reducible apply modJob_mem
    | with_reducible apply refreshStaging_mem
    | with_reducible apply sat_mem
    | with_reducible apply showSlots_mem
    | with_reducible apply shelfFail_mem
    | with_reducible apply MemKept.foldl
    | with_reducible apply MemKept.foldl_snd
    | with_reducible apply MemKept.foldl_fst
    | (with_reducible apply MemKept.upd; first | with_reducible assumption | with_reducible apply modJob_mem | with_reducible apply refreshStaging_mem | with_reducible apply sat_mem | with_reducible apply showSlots_mem | with_reducible apply shelfFail_mem | with_reducible apply MemKept.foldl | with_reducible apply MemKept.foldl_snd | with_reducible apply MemKept.foldl_fst)

theorem storeAck_mem (s : State) (h : MemKept s0 s) : MemKept s0 (storeAck s) := by
  unfold storeAck
  repeat' first
    | with_reducible assumption
    | (intro x; beta_reduce)
    | with_reducible apply refreshStaging_mem
    | with_reducible apply setb_mem

theorem flipUpdated_mem (s : State) (h : MemKept s0 s) : MemKept s0 (flipUpdated s) := by
  unfold flipUpdated
  repeat' first
    | with_reducible assumption
    | (intro x; beta_reduce)
    | (extract_lets +onlyGivenNames x; refine (fun (hx : MemKept s0 x) => ?_) (?_ : MemKept s0 x) <;> [clear_value x; subst x])
    | (extract_lets +onlyGivenNames x; refine (fun (hx : MemKept s0 x.2) => ?_) (?_ : MemKept s0 x.2) <;> [clear_value x; subst x])
    | (extract_lets +onlyGivenNames x; clear_value x)
    | with_reducible apply MemKept.ite
    | split
    | with_reducible apply MemKept.foldl
    | with_reducible apply MemKept.foldl_snd
    | with_reducible apply MemKept.foldl_fst
    | (with_reducible apply MemKept.upd; first | with_reducible assumption | with_reducible apply MemKept.foldl | with_reducible apply MemKept.foldl_snd | with_reducible apply MemKept.foldl_fst)

theorem stopDrift_mem (s : State) (h : MemKept s0 s) : MemKept s0 (stopDrift s) := by
  unfold stopDrift
  repeat' first
    | with_reducible assumption
    | (intro x; beta_reduce)
    | (with_reducible apply MemKept.upd; first | with_reducible assumption)

theorem freshStep_mem (s : State) (h : MemKept s0 s) : MemKept s0 (freshStep s) := by
  unfold freshStep
  repeat' first
    | with_reducible assumption
    | (intro x; beta_reduce)
    | (extract_lets +onlyGivenNames x; refine (fun (hx : MemKept s0 x) => ?_) (?_ : MemKept s0 x) <;> [clear_value x; subst x])
    | (extract_lets +onlyGivenNames x; clear_value x)
    | with_reducible apply modJob_mem
    | with_reducible apply setb_mem
    | with_reducible apply setVoteSent_mem
    | (with_reducible apply MemKept.upd; first | with_reducible assumption | with_reducible apply modJob_mem | with_reducible apply setb_mem | with_reducible apply setVoteSent_mem)

theorem lossCommit_mem (vetoed : Bool) (s : State) (h : MemKept s0 s) : MemKept s0 (lossCommit vetoed s) := by
  unfold lossCommit
  repeat' first
    | with_reducible assumption
    | (intro x; beta_reduce)
    | (extract_lets +onlyGivenNames x; refine (fun (hx : MemKept s0 x) => ?_) (?_ : MemKept s0 x) <;> [clear_value x; subst x])
    | (extract_lets +onlyGivenNames x; refine (fun (hx : MemKept s0 x.2) => ?_) (?_ : MemKept s0 x.2) <;> [clear_value x; subst x])
    | (extract_lets +onlyGivenNames x; clear_value x)
    | with_reducible apply MemKept.ite
    | split
    | with_reducible apply sat_mem
    | with_reducible apply wr_mem

theorem runCommit_mem (vetoed : Bool) (s : State) (h : MemKept s0 s) : MemKept s0 (runCommit vetoed s) := by
  unfold runCommit
  repeat' first
    | with_reducible assumption
    | (intro x; beta_reduce)
    | with_reducible apply MemKept.ite
    | split
    | with_reducible apply refreshStarved_mem
    | with_reducible apply wr_mem
    | with_reducible apply MemKept.foldl
    | with_reducible apply MemKept.foldl_snd
    | with_reducible apply MemKept.foldl_fst

theorem noteRebalance_mem (s : State) (h : MemKept s0 s) : MemKept s0 (noteRebalance s) := by
  unfold noteRebalance
  repeat' first
    | with_reducible assumption
    | (intro x; beta_reduce)
    | with_reducible apply MemKept.ite
    | split
    | with_reducible apply modJob_mem
    | (with_reducible apply MemKept.upd; first | with_reducible assumption | with_reducible apply modJob_mem)

theorem sendStage_mem (p : PendingOp) (s : State) (h : MemKept s0 s) : MemKept s0 (sendStage p s) := by
  unfold sendStage
  repeat' first
    | with_reducible assumption
    | (intro x; beta_reduce)
    | with_reducible apply sendReliable_mem
    | with_reducible apply MemKept.foldl
    | with_reducible apply MemKept.foldl_snd
    | with_reducible apply MemKept.foldl_fst
    | refine MemKept.snd (by with_reducible assumption) ?_

end Sys2Proof.Machine
end

