-- ==== Sys2Proof/Laws/MemMember.lean ====
section
/-! SUPPORT. Which operations of Machine/Member.lean leave every byte of memory: one lemma for each. -/

set_option linter.unusedTactic false
set_option linter.unreachableTactic false
set_option linter.unusedVariables false

namespace Sys2Proof.Machine

open Sys2Proof

variable {s0 : State}

theorem sendPage_mem (rank dst src : Nat) (s : State) (h : MemKept s0 s) : MemKept s0 (sendPage rank dst src s).2 := by
  unfold sendPage
  repeat' first
    | with_reducible assumption
    | (intro x; beta_reduce)
    | (extract_lets +onlyGivenNames x; refine (fun (hx : MemKept s0 x) => ?_) (?_ : MemKept s0 x) <;> [clear_value x; subst x])
    | (extract_lets +onlyGivenNames x; refine (fun (hx : MemKept s0 x.2) => ?_) (?_ : MemKept s0 x.2) <;> [clear_value x; subst x])
    | (extract_lets +onlyGivenNames x; clear_value x)
    | with_reducible apply MemKept.ite
    | split
    | with_reducible apply sendWrite_mem
    | with_reducible apply MemKept.foldl
    | with_reducible apply MemKept.foldl_snd
    | with_reducible apply MemKept.foldl_fst
    | refine MemKept.snd (by with_reducible assumption) ?_

theorem pageWalkSend_mem (b rank : Nat) (master : Bool) (first : Nat) (s : State)
    (h : MemKept s0 s) : MemKept s0 (pageWalkSend b rank master first s) := by
  unfold pageWalkSend
  repeat' first
    | with_reducible assumption
    | (intro x; beta_reduce)
    | (extract_lets +onlyGivenNames x; refine (fun (hx : MemKept s0 x) => ?_) (?_ : MemKept s0 x) <;> [clear_value x; subst x])
    | (extract_lets +onlyGivenNames x; refine (fun (hx : MemKept s0 x.2) => ?_) (?_ : MemKept s0 x.2) <;> [clear_value x; subst x])
    | (extract_lets +onlyGivenNames x; clear_value x)
    | with_reducible apply MemKept.ite
    | split
    | with_reducible apply recellar_mem
    | with_reducible apply advanceTo_mem
    | with_reducible apply sendPage_mem
    | with_reducible apply modJob_mem
    | with_reducible apply refreshCellar_mem
    | with_reducible apply addW_mem
    | refine MemKept.snd (by with_reducible assumption) ?_
    | (with_reducible apply MemKept.upd; first | with_reducible assumption | with_reducible apply recellar_mem | with_reducible apply advanceTo_mem | with_reducible apply sendPage_mem | with_reducible apply modJob_mem | with_reducible apply refreshCellar_mem | with_reducible apply addW_mem | refine MemKept.snd (by with_reducible assumption) ?_)

theorem pageStale_mem (serial id : Nat) (s : State) (h : MemKept s0 s) : MemKept s0 (pageStale serial id s) := by
  unfold pageStale
  repeat' first
    | with_reducible assumption
    | (intro x; beta_reduce)
    | (extract_lets +onlyGivenNames x; refine (fun (hx : MemKept s0 x) => ?_) (?_ : MemKept s0 x) <;> [clear_value x; subst x])
    | (extract_lets +onlyGivenNames x; refine (fun (hx : MemKept s0 x.2) => ?_) (?_ : MemKept s0 x.2) <;> [clear_value x; subst x])
    | (extract_lets +onlyGivenNames x; clear_value x)
    | with_reducible apply MemKept.ite
    | split
    | with_reducible apply refreshCellar_mem
    | with_reducible apply modJob_mem
    | (with_reducible apply MemKept.upd; first | with_reducible assumption | with_reducible apply refreshCellar_mem | with_reducible apply modJob_mem)

theorem viewFields_mem (v : PendingView) (me : ViewEntry) (s : State)
    (h : MemKept s0 s) : MemKept s0 (viewFields v me s) := by
  unfold viewFields
  repeat' first
    | with_reducible assumption
    | (intro x; beta_reduce)
    | (extract_lets +onlyGivenNames x; refine (fun (hx : MemKept s0 x) => ?_) (?_ : MemKept s0 x) <;> [clear_value x; subst x])
    | (extract_lets +onlyGivenNames x; refine (fun (hx : MemKept s0 x.2) => ?_) (?_ : MemKept s0 x.2) <;> [clear_value x; subst x])
    | (extract_lets +onlyGivenNames x; clear_value x)
    | with_reducible apply MemKept.ite
    | split
    | with_reducible apply modJob_mem
    | with_reducible apply wr_mem
    | with_reducible apply setb_mem
    | with_reducible apply MemKept.foldl
    | with_reducible apply MemKept.foldl_snd
    | with_reducible apply MemKept.foldl_fst
    | (with_reducible apply MemKept.upd; first | with_reducible assumption | with_reducible apply modJob_mem | with_reducible apply wr_mem | with_reducible apply setb_mem | with_reducible apply MemKept.foldl | with_reducible apply MemKept.foldl_snd | with_reducible apply MemKept.foldl_fst)

theorem dropSerials_mem (s : State) (h : MemKept s0 s) : MemKept s0 (dropSerials s) := by
  unfold dropSerials
  repeat' first
    | with_reducible assumption
    | (intro x; beta_reduce)
    | (extract_lets +onlyGivenNames x; refine (fun (hx : MemKept s0 x) => ?_) (?_ : MemKept s0 x) <;> [clear_value x; subst x])
    | (extract_lets +onlyGivenNames x; clear_value x)
    | with_reducible apply MemKept.ite
    | split
    | with_reducible apply dropAwaits_mem
    | with_reducible apply modJob_mem
    | (with_reducible apply MemKept.upd; first | with_reducible assumption | with_reducible apply dropAwaits_mem | with_reducible apply modJob_mem)

theorem moveVotes_mem (leader : Nat) (s : State) (h : MemKept s0 s) : MemKept s0 (moveVotes leader s) := by
  unfold moveVotes
  repeat' first
    | with_reducible assumption
    | (intro x; beta_reduce)
    | (extract_lets +onlyGivenNames x; refine (fun (hx : MemKept s0 x) => ?_) (?_ : MemKept s0 x) <;> [clear_value x; subst x])
    | (extract_lets +onlyGivenNames x; clear_value x)
    | with_reducible apply MemKept.ite
    | split
    | with_reducible apply modJob_mem
    | with_reducible apply tryDecide_mem
    | with_reducible apply sendVote_mem
    | (with_reducible apply MemKept.upd; first | with_reducible assumption | with_reducible apply modJob_mem | with_reducible apply tryDecide_mem | with_reducible apply sendVote_mem)

theorem dropWalks_mem (s : State) (h : MemKept s0 s) : MemKept s0 (dropWalks s) := by
  unfold dropWalks
  repeat' first
    | with_reducible assumption
    | (intro x; beta_reduce)
    | (extract_lets +onlyGivenNames x; refine (fun (hx : MemKept s0 x) => ?_) (?_ : MemKept s0 x) <;> [clear_value x; subst x])
    | (extract_lets +onlyGivenNames x; clear_value x)
    | with_reducible apply refreshCellar_mem
    | with_reducible apply modJob_mem
    | (with_reducible apply MemKept.upd; first | with_reducible assumption | with_reducible apply refreshCellar_mem | with_reducible apply modJob_mem)

theorem noteLost_mem (s : State) (h : MemKept s0 s) : MemKept s0 (noteLost s) := by
  unfold noteLost
  repeat' first
    | with_reducible assumption
    | (intro x; beta_reduce)
    | with_reducible apply loseBuckets_mem

theorem noJoin_mem (s : State) (h : MemKept s0 s) : MemKept s0 (noJoin s) := by
  unfold noJoin
  repeat' first
    | with_reducible assumption
    | (intro x; beta_reduce)
    | with_reducible apply withdraw_mem
    | with_reducible apply setb_mem

theorem readRecords_mem (e : Nat) (s : State) (h : MemKept s0 s) : MemKept s0 (readRecords e s) := by
  unfold readRecords
  repeat' first
    | with_reducible assumption
    | (intro x; beta_reduce)
    | with_reducible apply MemKept.ite
    | split
    | with_reducible apply driveReadImage_mem

theorem sendBytes_mem (rank addr : Nat) (bytes : List Byte) (s : State)
    (h : MemKept s0 s) : MemKept s0 (sendBytes rank addr bytes s) := by
  unfold sendBytes
  repeat' first
    | with_reducible assumption
    | (intro x; beta_reduce)
    | with_reducible apply sendReliable_mem
    | with_reducible apply MemKept.foldl
    | with_reducible apply MemKept.foldl_snd
    | with_reducible apply MemKept.foldl_fst
    | refine MemKept.snd (by with_reducible assumption) ?_

theorem sendRecord_mem (b : Nat) (planes : List Byte) (s : State)
    (h : MemKept s0 s) : MemKept s0 (sendRecord b planes s) := by
  unfold sendRecord
  repeat' first
    | with_reducible assumption
    | (intro x; beta_reduce)
    | (extract_lets +onlyGivenNames x; refine (fun (hx : MemKept s0 x) => ?_) (?_ : MemKept s0 x) <;> [clear_value x; subst x])
    | (extract_lets +onlyGivenNames x; refine (fun (hx : MemKept s0 x.2) => ?_) (?_ : MemKept s0 x.2) <;> [clear_value x; subst x])
    | (extract_lets +onlyGivenNames x; clear_value x)
    | with_reducible apply MemKept.ite
    | split
    | with_reducible apply free_mem
    | with_reducible apply sendBytes_mem
    | with_reducible apply MemKept.foldl
    | with_reducible apply MemKept.foldl_snd
    | with_reducible apply MemKept.foldl_fst
    | refine MemKept.snd (by with_reducible assumption) ?_

theorem shelfSend_mem (e : Nat) (s : State) (h : MemKept s0 s) : MemKept s0 (shelfSend e s) := by
  unfold shelfSend
  repeat' first
    | with_reducible assumption
    | (intro x; beta_reduce)
    | with_reducible apply MemKept.ite
    | split
    | with_reducible apply sendRecord_mem
    | with_reducible apply readRecords_mem
    | with_reducible apply MemKept.foldl
    | with_reducible apply MemKept.foldl_snd
    | with_reducible apply MemKept.foldl_fst

theorem sendMasters_mem (b : Nat) (s : State) (h : MemKept s0 s) : MemKept s0 (sendMasters b s) := by
  unfold sendMasters
  repeat' first
    | with_reducible assumption
    | (intro x; beta_reduce)
    | (extract_lets +onlyGivenNames x; refine (fun (hx : MemKept s0 x) => ?_) (?_ : MemKept s0 x) <;> [clear_value x; subst x])
    | (extract_lets +onlyGivenNames x; refine (fun (hx : MemKept s0 x.2) => ?_) (?_ : MemKept s0 x.2) <;> [clear_value x; subst x])
    | (extract_lets +onlyGivenNames x; clear_value x)
    | with_reducible apply sendWrite_mem
    | with_reducible apply MemKept.foldl
    | with_reducible apply MemKept.foldl_snd
    | with_reducible apply MemKept.foldl_fst
    | refine MemKept.snd (by with_reducible assumption) ?_

end Sys2Proof.Machine
end

