-- ==== Sys2Proof/Laws/MemPtp.lean ====
section
/-! SUPPORT. Which operations of Machine/Ptp.lean leave every byte of memory: one lemma for each. -/

set_option linter.unusedTactic false
set_option linter.unreachableTactic false
set_option linter.unusedVariables false

namespace Sys2Proof.Machine

open Sys2Proof

variable {s0 : State}

theorem stepTime_mem (units : Int) (s : State) (h : MemKept s0 s) : MemKept s0 (stepTime units s) :=
  ⟨h.same⟩

theorem stepNs_mem (amount : Int) (s : State) (h : MemKept s0 s) : MemKept s0 (stepNs amount s) := by
  unfold stepNs
  repeat' first
    | with_reducible assumption
    | (intro x; beta_reduce)
    | with_reducible apply MemKept.ite
    | split
    | with_reducible apply stepTime_mem

theorem latchTime_mem (s : State) (h : MemKept s0 s) : MemKept s0 (latchTime s) := by
  unfold latchTime
  repeat' first
    | with_reducible assumption
    | (intro x; beta_reduce)
    | with_reducible apply wr_mem

theorem timeNsRead_mem (s : State) (h : MemKept s0 s) : MemKept s0 (timeNsRead s) := by
  unfold timeNsRead
  repeat' first
    | with_reducible assumption
    | (intro x; beta_reduce)
    | with_reducible apply MemKept.ite
    | split
    | with_reducible apply emit_mem
    | with_reducible apply latchTime_mem

theorem portsReady_mem (s : State) (h : MemKept s0 s) : MemKept s0 (portsReady s) := by
  unfold portsReady
  repeat' first
    | with_reducible assumption
    | (intro x; beta_reduce)
    | with_reducible apply portReady_mem
    | with_reducible apply MemKept.foldl
    | with_reducible apply MemKept.foldl_snd
    | with_reducible apply MemKept.foldl_fst

theorem lockLost_mem (s : State) (h : MemKept s0 s) : MemKept s0 (lockLost s) := by
  unfold lockLost
  repeat' first
    | with_reducible assumption
    | (intro x; beta_reduce)
    | (extract_lets +onlyGivenNames x; refine (fun (hx : MemKept s0 x) => ?_) (?_ : MemKept s0 x) <;> [clear_value x; subst x])
    | (extract_lets +onlyGivenNames x; clear_value x)
    | with_reducible apply MemKept.ite
    | split
    | with_reducible apply setb_mem
    | with_reducible apply sat_mem
    | with_reducible apply wr_mem

theorem lockWon_mem (s : State) (h : MemKept s0 s) : MemKept s0 (lockWon s) := by
  unfold lockWon
  repeat' first
    | with_reducible assumption
    | (intro x; beta_reduce)
    | (extract_lets +onlyGivenNames x; refine (fun (hx : MemKept s0 x) => ?_) (?_ : MemKept s0 x) <;> [clear_value x; subst x])
    | (extract_lets +onlyGivenNames x; clear_value x)
    | with_reducible apply MemKept.ite
    | split
    | with_reducible apply setb_mem
    | with_reducible apply portsReady_mem
    | with_reducible apply wr_mem
    | (with_reducible apply MemKept.upd; first | with_reducible assumption | with_reducible apply setb_mem | with_reducible apply portsReady_mem | with_reducible apply wr_mem)

theorem judgeOffset_mem (off : Rat) (s : State) (h : MemKept s0 s) : MemKept s0 (judgeOffset off s).2 := by
  unfold judgeOffset
  repeat' first
    | with_reducible assumption
    | (intro x; beta_reduce)
    | (extract_lets +onlyGivenNames x; refine (fun (hx : MemKept s0 x) => ?_) (?_ : MemKept s0 x) <;> [clear_value x; subst x])
    | (extract_lets +onlyGivenNames x; clear_value x)
    | with_reducible apply MemKept.ite
    | split
    | with_reducible apply lockWon_mem
    | with_reducible apply lockLost_mem
    | (with_reducible apply MemKept.upd; first | with_reducible assumption | with_reducible apply lockWon_mem | with_reducible apply lockLost_mem)

theorem servoStep_mem (e : Rat) (hold : Bool) (s : State) (h : MemKept s0 s) : MemKept s0 (servoStep e hold s) := by
  unfold servoStep
  repeat' first
    | with_reducible assumption
    | (intro x; beta_reduce)
    | (extract_lets +onlyGivenNames x; refine (fun (hx : MemKept s0 x) => ?_) (?_ : MemKept s0 x) <;> [clear_value x; subst x])
    | (extract_lets +onlyGivenNames x; clear_value x)
    | with_reducible apply MemKept.ite
    | split
    | with_reducible apply wr_mem
    | (with_reducible apply MemKept.upd; first | with_reducible assumption | with_reducible apply wr_mem)

theorem servo_mem (t1 t2 : Int) (s : State) (h : MemKept s0 s) : MemKept s0 (servo t1 t2 s) := by
  unfold servo
  repeat' first
    | with_reducible assumption
    | (intro x; beta_reduce)
    | (extract_lets +onlyGivenNames x; refine (fun (hx : MemKept s0 x) => ?_) (?_ : MemKept s0 x) <;> [clear_value x; subst x])
    | (extract_lets +onlyGivenNames x; refine (fun (hx : MemKept s0 x.2) => ?_) (?_ : MemKept s0 x.2) <;> [clear_value x; subst x])
    | (extract_lets +onlyGivenNames x; clear_value x)
    | with_reducible apply MemKept.ite
    | split
    | with_reducible apply sat_mem
    | with_reducible apply wr_mem
    | with_reducible apply judgeOffset_mem
    | with_reducible apply stepTime_mem
    | with_reducible apply servoStep_mem
    | refine MemKept.snd (by with_reducible assumption) ?_
    | (with_reducible apply MemKept.upd; first | with_reducible assumption | with_reducible apply sat_mem | with_reducible apply wr_mem | with_reducible apply judgeOffset_mem | with_reducible apply stepTime_mem | with_reducible apply servoStep_mem | refine MemKept.snd (by with_reducible assumption) ?_)

theorem showMaster_mem (s : State) (h : MemKept s0 s) : MemKept s0 (showMaster s) := by
  unfold showMaster
  repeat' first
    | with_reducible assumption
    | (intro x; beta_reduce)
    | with_reducible apply MemKept.ite
    | split
    | with_reducible apply wr_mem

theorem ptpTake_mem (m : PtpMsg) (act : State → State) (s : State) (hact : ∀ s, MemKept s0 s → MemKept s0 (act s))
    (h : MemKept s0 s) : MemKept s0 (ptpTake m act s) := by
  unfold ptpTake
  repeat' first
    | with_reducible assumption
    | (intro x; beta_reduce)
    | (extract_lets +onlyGivenNames x; refine (fun (hx : MemKept s0 x) => ?_) (?_ : MemKept s0 x) <;> [clear_value x; subst x])
    | (extract_lets +onlyGivenNames x; clear_value x)
    | with_reducible apply MemKept.ite
    | split
    | with_reducible apply hact
    | with_reducible apply countRx_mem
    | with_reducible apply sat_mem

theorem onSync_mem (m : PtpMsg) (s : State) (h : MemKept s0 s) : MemKept s0 (onSync m s) := by
  unfold onSync
  repeat' first
    | with_reducible assumption
    | (intro x; beta_reduce)
    | (extract_lets +onlyGivenNames x; refine (fun (hx : MemKept s0 x) => ?_) (?_ : MemKept s0 x) <;> [clear_value x; subst x])
    | (extract_lets +onlyGivenNames x; clear_value x)
    | with_reducible apply MemKept.ite
    | split
    | with_reducible apply servo_mem
    | (with_reducible apply MemKept.upd; first | with_reducible assumption | with_reducible apply servo_mem)

theorem onFollowUp_mem (m : PtpMsg) (s : State) (h : MemKept s0 s) : MemKept s0 (onFollowUp m s) := by
  unfold onFollowUp
  repeat' first
    | with_reducible assumption
    | (intro x; beta_reduce)
    | with_reducible apply MemKept.ite
    | split
    | with_reducible apply servo_mem
    | (with_reducible apply MemKept.upd; first | with_reducible assumption | with_reducible apply servo_mem)

theorem onDelayResp_mem (m : PtpMsg) (s : State) (h : MemKept s0 s) : MemKept s0 (onDelayResp m s) := by
  unfold onDelayResp
  repeat' first
    | with_reducible assumption
    | (intro x; beta_reduce)
    | (extract_lets +onlyGivenNames x; refine (fun (hx : MemKept s0 x) => ?_) (?_ : MemKept s0 x) <;> [clear_value x; subst x])
    | (extract_lets +onlyGivenNames x; refine (fun (hx : MemKept s0 x.2) => ?_) (?_ : MemKept s0 x.2) <;> [clear_value x; subst x])
    | (extract_lets +onlyGivenNames x; clear_value x)
    | with_reducible apply MemKept.ite
    | split
    | with_reducible apply wr_mem
    | (with_reducible apply MemKept.upd; first | with_reducible assumption | with_reducible apply wr_mem)

theorem onAnnounce_mem (m : PtpMsg) (gm : Gm) (s : State) (h : MemKept s0 s) : MemKept s0 (onAnnounce m gm s) := by
  unfold onAnnounce
  repeat' first
    | with_reducible assumption
    | (intro x; beta_reduce)
    | (extract_lets +onlyGivenNames x; refine (fun (hx : MemKept s0 x) => ?_) (?_ : MemKept s0 x) <;> [clear_value x; subst x])
    | (extract_lets +onlyGivenNames x; refine (fun (hx : MemKept s0 x.2) => ?_) (?_ : MemKept s0 x.2) <;> [clear_value x; subst x])
    | (extract_lets +onlyGivenNames x; clear_value x)
    | with_reducible apply MemKept.ite
    | split
    | with_reducible apply sat_mem
    | with_reducible apply showMaster_mem
    | (with_reducible apply MemKept.upd; first | with_reducible assumption | with_reducible apply sat_mem | with_reducible apply showMaster_mem)

theorem syncLoss_mem (s : State) (h : MemKept s0 s) : MemKept s0 (syncLoss s) := by
  unfold syncLoss
  repeat' first
    | with_reducible assumption
    | (intro x; beta_reduce)
    | (extract_lets +onlyGivenNames x; refine (fun (hx : MemKept s0 x) => ?_) (?_ : MemKept s0 x) <;> [clear_value x; subst x])
    | (extract_lets +onlyGivenNames x; clear_value x)
    | with_reducible apply MemKept.ite
    | split
    | with_reducible apply advanceTo_mem
    | with_reducible apply lockLost_mem
    | with_reducible apply showMaster_mem
    | (with_reducible apply MemKept.upd; first | with_reducible assumption | with_reducible apply advanceTo_mem | with_reducible apply lockLost_mem | with_reducible apply showMaster_mem)

theorem sendPtp_mem (p : Nat) (bytes : List Byte) (s : State) (h : MemKept s0 s) : MemKept s0 (sendPtp p bytes s) := by
  unfold sendPtp
  repeat' first
    | with_reducible assumption
    | (intro x; beta_reduce)
    | with_reducible apply transmit_mem

theorem syncTx_mem (stamp : Nat) (s : State) (h : MemKept s0 s) : MemKept s0 (syncTx stamp s) := by
  unfold syncTx
  repeat' first
    | with_reducible assumption
    | (intro x; beta_reduce)
    | (extract_lets +onlyGivenNames x; refine (fun (hx : MemKept s0 x) => ?_) (?_ : MemKept s0 x) <;> [clear_value x; subst x])
    | (extract_lets +onlyGivenNames x; refine (fun (hx : MemKept s0 x.2) => ?_) (?_ : MemKept s0 x.2) <;> [clear_value x; subst x])
    | (extract_lets +onlyGivenNames x; clear_value x)
    | with_reducible apply MemKept.ite
    | split
    | with_reducible apply wr_mem
    | with_reducible apply sendPtp_mem
    | (with_reducible apply MemKept.upd; first | with_reducible assumption | with_reducible apply wr_mem | with_reducible apply sendPtp_mem)

theorem announceTx_mem (s : State) (h : MemKept s0 s) : MemKept s0 (announceTx s) := by
  unfold announceTx
  repeat' first
    | with_reducible assumption
    | (intro x; beta_reduce)
    | (extract_lets +onlyGivenNames x; refine (fun (hx : MemKept s0 x) => ?_) (?_ : MemKept s0 x) <;> [clear_value x; subst x])
    | (extract_lets +onlyGivenNames x; refine (fun (hx : MemKept s0 x.2) => ?_) (?_ : MemKept s0 x.2) <;> [clear_value x; subst x])
    | (extract_lets +onlyGivenNames x; clear_value x)
    | with_reducible apply MemKept.ite
    | split
    | with_reducible apply wr_mem
    | with_reducible apply sendPtp_mem
    | (with_reducible apply MemKept.upd; first | with_reducible assumption | with_reducible apply wr_mem | with_reducible apply sendPtp_mem)

theorem delayReqTx_mem (stamp : Nat) (s : State) (h : MemKept s0 s) : MemKept s0 (delayReqTx stamp s) := by
  unfold delayReqTx
  repeat' first
    | with_reducible assumption
    | (intro x; beta_reduce)
    | (extract_lets +onlyGivenNames x; refine (fun (hx : MemKept s0 x) => ?_) (?_ : MemKept s0 x) <;> [clear_value x; subst x])
    | (extract_lets +onlyGivenNames x; refine (fun (hx : MemKept s0 x.2) => ?_) (?_ : MemKept s0 x.2) <;> [clear_value x; subst x])
    | (extract_lets +onlyGivenNames x; clear_value x)
    | with_reducible apply MemKept.ite
    | split
    | with_reducible apply sat_mem
    | with_reducible apply sendPtp_mem
    | (with_reducible apply MemKept.upd; first | with_reducible assumption | with_reducible apply sat_mem | with_reducible apply sendPtp_mem)

theorem onDelayReq_mem (m : PtpMsg) (s : State) (h : MemKept s0 s) : MemKept s0 (onDelayReq m s) := by
  unfold onDelayReq
  repeat' first
    | with_reducible assumption
    | (intro x; beta_reduce)
    | (extract_lets +onlyGivenNames x; refine (fun (hx : MemKept s0 x) => ?_) (?_ : MemKept s0 x) <;> [clear_value x; subst x])
    | (extract_lets +onlyGivenNames x; clear_value x)
    | with_reducible apply MemKept.ite
    | split
    | with_reducible apply sendPtp_mem

end Sys2Proof.Machine
end

