-- ==== Sys2Proof/Laws/MemQuery.lean ====
section
/-! SUPPORT. Which operations of Machine/Query.lean leave every byte of memory: one lemma for each. -/

set_option linter.unusedTactic false
set_option linter.unreachableTactic false
set_option linter.unusedVariables false

namespace Sys2Proof.Machine

open Sys2Proof

variable {s0 : State}

theorem setQueries_mem (e : Nat) (qs : List Query) (s : State) (h : MemKept s0 s) : MemKept s0 (setQueries e qs s) := by
  unfold setQueries
  repeat' first
    | with_reducible assumption
    | (intro x; beta_reduce)
    | with_reducible apply wr_mem
    | (with_reducible apply MemKept.upd; first | with_reducible assumption | with_reducible apply wr_mem)

theorem putQuery_mem (q : Query) (s : State) (h : MemKept s0 s) : MemKept s0 (putQuery q s) := by
  unfold putQuery
  repeat' first
    | with_reducible assumption
    | (intro x; beta_reduce)
    | with_reducible apply MemKept.ite
    | split
    | with_reducible apply setQueries_mem

theorem admitQuery_mem (e clientTag arrival : Nat) (src : QuerySrc) (input : List Nat) (s : State)
    (h : MemKept s0 s) : MemKept s0 (admitQuery e clientTag arrival src input s) := by
  unfold admitQuery
  repeat' first
    | with_reducible assumption
    | (intro x; beta_reduce)
    | (extract_lets +onlyGivenNames x; refine (fun (hx : MemKept s0 x) => ?_) (?_ : MemKept s0 x) <;> [clear_value x; subst x])
    | (extract_lets +onlyGivenNames x; clear_value x)
    | with_reducible apply setQueries_mem
    | with_reducible apply sat_mem

theorem respFrame_mem (p mac : Nat) (tag : Option Nat)
    (serial src dst e status clientTag arrival promised step : Nat) (out : List Byte) (s : State)
    (h : MemKept s0 s) : MemKept s0 (respFrame p mac tag serial src dst e status clientTag arrival promised step out s) := by
  unfold respFrame
  repeat' first
    | with_reducible assumption
    | (intro x; beta_reduce)
    | (extract_lets +onlyGivenNames x; refine (fun (hx : MemKept s0 x) => ?_) (?_ : MemKept s0 x) <;> [clear_value x; subst x])
    | (extract_lets +onlyGivenNames x; clear_value x)
    | with_reducible apply transmit_mem

theorem respRing_mem (q index out e status clientTag arrival promised step : Nat) (data : List Byte) (s : State)
    (h : MemKept s0 s) : MemKept s0 (respRing q index out e status clientTag arrival promised step data s) := by
  unfold respRing
  repeat' first
    | with_reducible assumption
    | (intro x; beta_reduce)
    | (extract_lets +onlyGivenNames x; refine (fun (hx : MemKept s0 x) => ?_) (?_ : MemKept s0 x) <;> [clear_value x; subst x])
    | (extract_lets +onlyGivenNames x; clear_value x)
    | with_reducible apply MemKept.ite
    | split
    | with_reducible apply emit_mem
    | with_reducible apply hostRingWrite_mem
    | with_reducible apply sat_mem

theorem countQuery_mem (q : Query) (status done : Nat) (s : State)
    (h : MemKept s0 s) : MemKept s0 (countQuery q status done s) := by
  unfold countQuery
  repeat' first
    | with_reducible assumption
    | (intro x; beta_reduce)
    | (extract_lets +onlyGivenNames x; refine (fun (hx : MemKept s0 x) => ?_) (?_ : MemKept s0 x) <;> [clear_value x; subst x])
    | (extract_lets +onlyGivenNames x; clear_value x)
    | with_reducible apply MemKept.ite
    | split
    | with_reducible apply setQueries_mem
    | with_reducible apply sat_mem
    | with_reducible apply wr_mem
    | with_reducible apply setb_mem

theorem sendResp_mem (q : Query) (st : Nat) (out : List Byte) (s : State)
    (h : MemKept s0 s) : MemKept s0 (sendResp q st out s) := by
  unfold sendResp
  repeat' first
    | with_reducible assumption
    | (intro x; beta_reduce)
    | with_reducible apply MemKept.ite
    | split
    | with_reducible apply countQuery_mem
    | with_reducible apply respFrame_mem
    | with_reducible apply putQuery_mem
    | with_reducible apply respRing_mem
    | (with_reducible apply MemKept.upd; first | with_reducible assumption | with_reducible apply countQuery_mem | with_reducible apply respFrame_mem | with_reducible apply putQuery_mem | with_reducible apply respRing_mem)

theorem queryResp_mem (e k : Nat) (s : State) (h : MemKept s0 s) : MemKept s0 (queryResp e k s) := by
  unfold queryResp
  repeat' first
    | with_reducible assumption
    | (intro x; beta_reduce)
    | with_reducible apply MemKept.ite
    | split
    | with_reducible apply sendResp_mem

theorem linkUp_mem (p : Nat) (s : State) (h : MemKept s0 s) : MemKept s0 (linkUp p s) := by
  unfold linkUp
  repeat' first
    | with_reducible assumption
    | (intro x; beta_reduce)
    | (extract_lets +onlyGivenNames x; refine (fun (hx : MemKept s0 x) => ?_) (?_ : MemKept s0 x) <;> [clear_value x; subst x])
    | (extract_lets +onlyGivenNames x; refine (fun (hx : MemKept s0 x.2) => ?_) (?_ : MemKept s0 x.2) <;> [clear_value x; subst x])
    | (extract_lets +onlyGivenNames x; clear_value x)
    | with_reducible apply MemKept.ite
    | split
    | with_reducible apply linkRises_mem
    | with_reducible apply sendWaiting_mem
    | with_reducible apply countQuery_mem
    | with_reducible apply sendResp_mem
    | with_reducible apply MemKept.foldl
    | with_reducible apply MemKept.foldl_snd
    | with_reducible apply MemKept.foldl_fst

theorem queryUndelivered_mem (e k : Nat) (s : State) (h : MemKept s0 s) : MemKept s0 (queryUndelivered e k s) := by
  unfold queryUndelivered
  repeat' first
    | with_reducible assumption
    | (intro x; beta_reduce)
    | (extract_lets +onlyGivenNames x; refine (fun (hx : MemKept s0 x) => ?_) (?_ : MemKept s0 x) <;> [clear_value x; subst x])
    | (extract_lets +onlyGivenNames x; refine (fun (hx : MemKept s0 x.2) => ?_) (?_ : MemKept s0 x.2) <;> [clear_value x; subst x])
    | (extract_lets +onlyGivenNames x; clear_value x)
    | with_reducible apply MemKept.ite
    | split
    | with_reducible apply advanceTo_mem
    | with_reducible apply countQuery_mem

theorem queryReq_mem (f : Frame) (e count clientTag : Nat) (input : List Nat) (s : State)
    (h : MemKept s0 s) : MemKept s0 (queryReq f e count clientTag input s) := by
  unfold queryReq
  repeat' first
    | with_reducible assumption
    | (intro x; beta_reduce)
    | with_reducible apply MemKept.ite
    | split
    | exact MemKept.snd (by with_reducible assumption) (arrive_mem _ _ _ _ (by with_reducible assumption)).1
    | exact (arrive_mem _ _ _ _ (by with_reducible assumption)).1
    | exact (arrive_mem _ _ _ _ (by with_reducible assumption)).2 _ _ (by with_reducible assumption)
    | with_reducible apply respFrame_mem
    | with_reducible apply sat_mem
    | with_reducible apply admitQuery_mem
    | refine MemKept.snd (by with_reducible assumption) ?_

theorem queryDescriptor_mem (q : Nat) (w input : List Nat) (bad : Bool) (s : State)
    (h : MemKept s0 s) : MemKept s0 (queryDescriptor q w input bad s) := by
  unfold queryDescriptor
  repeat' first
    | with_reducible assumption
    | (intro x; beta_reduce)
    | (extract_lets +onlyGivenNames x; refine (fun (hx : MemKept s0 x) => ?_) (?_ : MemKept s0 x) <;> [clear_value x; subst x])
    | (extract_lets +onlyGivenNames x; refine (fun (hx : MemKept s0 x.2) => ?_) (?_ : MemKept s0 x.2) <;> [clear_value x; subst x])
    | (extract_lets +onlyGivenNames x; clear_value x)
    | with_reducible apply MemKept.ite
    | split
    | with_reducible apply setb_mem
    | with_reducible apply sat_mem
    | with_reducible apply wr_mem
    | with_reducible apply respRing_mem
    | with_reducible apply admitQuery_mem
    | (with_reducible apply MemKept.upd; first | with_reducible assumption | with_reducible apply setb_mem | with_reducible apply sat_mem | with_reducible apply wr_mem | with_reducible apply respRing_mem | with_reducible apply admitQuery_mem)

end Sys2Proof.Machine
end

