-- ==== Sys2Proof/Laws/MemPower.lean ====
section
/-! SUPPORT. Which operations of Machine/Power.lean leave every byte of memory: one lemma for each. -/

set_option linter.unusedTactic false
set_option linter.unreachableTactic false
set_option linter.unusedVariables false

namespace Sys2Proof.Machine

open Sys2Proof

variable {s0 : State}

theorem leaveReset_mem (s : State) (h : MemKept s0 s) : MemKept s0 (leaveReset s) := by
  unfold leaveReset
  repeat' first
    | with_reducible assumption
    | (intro x; beta_reduce)
    | with_reducible apply MemKept.ite
    | split
    | (with_reducible apply MemKept.upd; first | with_reducible assumption)

theorem sysResetRelease_mem (early : Bool) (s : State) (h : MemKept s0 s) : MemKept s0 (sysResetRelease early s) := by
  unfold sysResetRelease
  repeat' first
    | with_reducible assumption
    | (intro x; beta_reduce)
    | with_reducible apply MemKept.ite
    | split
    | with_reducible apply leaveReset_mem
    | (with_reducible apply MemKept.upd; first | with_reducible assumption | with_reducible apply leaveReset_mem)

theorem resetKeyRelease_mem (s : State) (h : MemKept s0 s) : MemKept s0 (resetKeyRelease s) := by
  unfold resetKeyRelease
  repeat' first
    | with_reducible assumption
    | (intro x; beta_reduce)
    | with_reducible apply leaveReset_mem
    | (with_reducible apply MemKept.upd; first | with_reducible assumption | with_reducible apply leaveReset_mem)

theorem feedGood_mem (feed : Nat) (s : State) (h : MemKept s0 s) : MemKept s0 (feedGood feed s) := by
  unfold feedGood
  repeat' first
    | with_reducible assumption
    | (intro x; beta_reduce)
    | (extract_lets +onlyGivenNames x; refine (fun (hx : MemKept s0 x) => ?_) (?_ : MemKept s0 x) <;> [clear_value x; subst x])
    | (extract_lets +onlyGivenNames x; clear_value x)
    | with_reducible apply MemKept.ite
    | split
    | with_reducible apply setb_mem
    | (with_reducible apply MemKept.upd; first | with_reducible assumption | with_reducible apply setb_mem)

theorem pwrOk_mem (s : State) (h : MemKept s0 s) : MemKept s0 (pwrOk s) := by
  unfold pwrOk
  repeat' first
    | with_reducible assumption
    | (intro x; beta_reduce)
    | with_reducible apply MemKept.ite
    | split
    | with_reducible apply emit_mem
    | (with_reducible apply MemKept.upd; first | with_reducible assumption | with_reducible apply emit_mem)

theorem raiseReady_mem (u : Nat) (s : State) (h : MemKept s0 s) : MemKept s0 (raiseReady u s) := by
  unfold raiseReady
  repeat' first
    | with_reducible assumption
    | (intro x; beta_reduce)
    | with_reducible apply setReady_mem

theorem pllLock_mem (s : State) (h : MemKept s0 s) : MemKept s0 (pllLock s) := by
  unfold pllLock
  split
  · exact mixerTest_mem _ (MemKept.foldl _ (fun s u h => raiseReady_mem _ _ h) ⟨h.same⟩)
  · exact h

theorem pllLockTimeout_mem (s : State) (h : MemKept s0 s) : MemKept s0 (pllLockTimeout s) := by
  unfold pllLockTimeout
  repeat' first
    | with_reducible assumption
    | (intro x; beta_reduce)
    | with_reducible apply MemKept.ite
    | split
    | with_reducible apply wrU_mem
    | (with_reducible apply MemKept.upd; first | with_reducible assumption | with_reducible apply wrU_mem)

theorem lifeCheck_mem (k : FKey) (s : State) (h : MemKept s0 s) : MemKept s0 (lifeCheck k s) := by
  unfold lifeCheck
  repeat' first
    | with_reducible assumption
    | (intro x; beta_reduce)
    | with_reducible apply MemKept.ite
    | split
    | with_reducible apply makePermanent_mem

theorem lifeAll_mem (die : Nat) (s : State) (h : MemKept s0 s) : MemKept s0 (lifeAll die s) := by
  unfold lifeAll
  repeat' first
    | with_reducible assumption
    | (intro x; beta_reduce)
    | (extract_lets +onlyGivenNames x; refine (fun (hx : MemKept s0 x) => ?_) (?_ : MemKept s0 x) <;> [clear_value x; subst x])
    | (extract_lets +onlyGivenNames x; refine (fun (hx : MemKept s0 x.2) => ?_) (?_ : MemKept s0 x.2) <;> [clear_value x; subst x])
    | (extract_lets +onlyGivenNames x; clear_value x)
    | with_reducible apply MemKept.ite
    | split
    | with_reducible apply lifeCheck_mem
    | with_reducible apply MemKept.foldl
    | with_reducible apply MemKept.foldl_snd
    | with_reducible apply MemKept.foldl_fst

theorem addCounts_mem (die n : Nat) (s : State) (h : MemKept s0 s) : MemKept s0 (addCounts die n s) := by
  unfold addCounts
  repeat' first
    | with_reducible assumption
    | (intro x; beta_reduce)
    | (extract_lets +onlyGivenNames x; refine (fun (hx : MemKept s0 x) => ?_) (?_ : MemKept s0 x) <;> [clear_value x; subst x])
    | (extract_lets +onlyGivenNames x; clear_value x)
    | with_reducible apply MemKept.ite
    | split
    | (with_reducible apply MemKept.upd; first | with_reducible assumption)

theorem loadLedger_mem (die : Nat) (l : ShelfCopy) (s : State) (h : MemKept s0 s) : MemKept s0 (loadLedger die l s) := by
  unfold loadLedger
  repeat' first
    | with_reducible assumption
    | (intro x; beta_reduce)
    | (extract_lets +onlyGivenNames x; refine (fun (hx : MemKept s0 x) => ?_) (?_ : MemKept s0 x) <;> [clear_value x; subst x])
    | (extract_lets +onlyGivenNames x; clear_value x)
    | (with_reducible apply MemKept.upd; first | with_reducible assumption)

theorem bootLedgers_mem (die : Nat) (s : State) (h : MemKept s0 s) : MemKept s0 (bootLedgers die s) := by
  unfold bootLedgers
  repeat' first
    | with_reducible assumption
    | (intro x; beta_reduce)
    | (extract_lets +onlyGivenNames x; refine (fun (hx : MemKept s0 x) => ?_) (?_ : MemKept s0 x) <;> [clear_value x; subst x])
    | (extract_lets +onlyGivenNames x; refine (fun (hx : MemKept s0 x.2) => ?_) (?_ : MemKept s0 x.2) <;> [clear_value x; subst x])
    | (extract_lets +onlyGivenNames x; clear_value x)
    | with_reducible apply MemKept.ite
    | split
    | with_reducible apply setb_mem
    | with_reducible apply restoreLedgers_mem
    | with_reducible apply loadLedger_mem
    | with_reducible apply driveReadLedger_mem
    | with_reducible apply addCounts_mem
    | with_reducible apply raiseReady_mem
    | with_reducible apply lifeCheck_mem
    | with_reducible apply MemKept.foldl
    | with_reducible apply MemKept.foldl_snd
    | with_reducible apply MemKept.foldl_fst
    | (with_reducible apply MemKept.upd; first | with_reducible assumption | with_reducible apply setb_mem | with_reducible apply restoreLedgers_mem | with_reducible apply loadLedger_mem | with_reducible apply driveReadLedger_mem | with_reducible apply addCounts_mem | with_reducible apply raiseReady_mem | with_reducible apply lifeCheck_mem | with_reducible apply MemKept.foldl | with_reducible apply MemKept.foldl_snd | with_reducible apply MemKept.foldl_fst)

theorem showShelfDump_mem (s : State) (h : MemKept s0 s) : MemKept s0 (showShelfDump s) := by
  unfold showShelfDump
  repeat' first
    | with_reducible assumption
    | (intro x; beta_reduce)
    | with_reducible apply MemKept.ite
    | split
    | with_reducible apply setb_mem

theorem driveRefused_mem (c reason : Nat) (s : State) (h : MemKept s0 s) : MemKept s0 (driveRefused c reason s) := by
  unfold driveRefused
  repeat' first
    | with_reducible assumption
    | (intro x; beta_reduce)
    | with_reducible apply wr_mem
    | with_reducible apply setb_mem

theorem bringUpDrive_mem (c : Nat) (info : List Nat) (s : State)
    (h : MemKept s0 s) : MemKept s0 (bringUpDrive c info s) := by
  unfold bringUpDrive
  repeat' first
    | with_reducible assumption
    | (intro x; beta_reduce)
    | (extract_lets +onlyGivenNames x; refine (fun (hx : MemKept s0 x) => ?_) (?_ : MemKept s0 x) <;> [clear_value x; subst x])
    | (extract_lets +onlyGivenNames x; clear_value x)
    | with_reducible apply MemKept.ite
    | split
    | with_reducible apply wr_mem
    | with_reducible apply driveRefused_mem
    | with_reducible apply driveIssue_mem
    | with_reducible apply setb_mem
    | with_reducible apply driveSession_mem
    | with_reducible apply writeLabel_mem
    | with_reducible apply showShelfDump_mem
    | with_reducible apply showSlots_mem
    | with_reducible apply raiseReady_mem

theorem bringUpFirmware_mem (c : Nat) (info : List Nat) (s : State)
    (h : MemKept s0 s) : MemKept s0 (bringUpFirmware c info s) := by
  unfold bringUpFirmware
  repeat' first
    | with_reducible assumption
    | (intro x; beta_reduce)
    | (extract_lets +onlyGivenNames x; refine (fun (hx : MemKept s0 x) => ?_) (?_ : MemKept s0 x) <;> [clear_value x; subst x])
    | (extract_lets +onlyGivenNames x; clear_value x)
    | with_reducible apply MemKept.ite
    | split
    | with_reducible apply raiseReady_mem
    | with_reducible apply wr_mem
    | (with_reducible apply MemKept.upd; first | with_reducible assumption | with_reducible apply raiseReady_mem | with_reducible apply wr_mem)

theorem bringUpFaults_mem (info : List Nat) (s : State) (h : MemKept s0 s) : MemKept s0 (bringUpFaults info s) := by
  unfold bringUpFaults
  repeat' first
    | with_reducible assumption
    | (intro x; beta_reduce)
    | (extract_lets +onlyGivenNames x; refine (fun (hx : MemKept s0 x) => ?_) (?_ : MemKept s0 x) <;> [clear_value x; subst x])
    | (extract_lets +onlyGivenNames x; refine (fun (hx : MemKept s0 x.2) => ?_) (?_ : MemKept s0 x.2) <;> [clear_value x; subst x])
    | (extract_lets +onlyGivenNames x; clear_value x)
    | with_reducible apply wr_mem
    | with_reducible apply setb_mem
    | with_reducible apply showShelfDump_mem
    | with_reducible apply raiseReady_mem
    | with_reducible apply MemKept.foldl
    | with_reducible apply MemKept.foldl_snd
    | with_reducible apply MemKept.foldl_fst

theorem orderlyOff_mem (s : State) (h : MemKept s0 s) : MemKept s0 (orderlyOff s) := by
  unfold orderlyOff
  repeat' first
    | with_reducible assumption
    | (intro x; beta_reduce)
    | with_reducible apply MemKept.ite
    | split
    | with_reducible apply setb_mem
    | with_reducible apply saveLedgers_mem
    | (with_reducible apply MemKept.upd; first | with_reducible assumption | with_reducible apply setb_mem | with_reducible apply saveLedgers_mem)

theorem offReady_mem (s : State) (h : MemKept s0 s) : MemKept s0 (offReady s) := by
  unfold offReady
  repeat' first
    | with_reducible assumption
    | (intro x; beta_reduce)
    | with_reducible apply MemKept.ite
    | split
    | with_reducible apply setb_mem
    | (with_reducible apply MemKept.upd; first | with_reducible assumption | with_reducible apply setb_mem)

theorem powerSample_mem (input : Nat) (feeds domains : List Nat) (s : State)
    (h : MemKept s0 s) : MemKept s0 (powerSample input feeds domains s) := by
  unfold powerSample
  repeat' first
    | with_reducible assumption
    | (intro x; beta_reduce)
    | (extract_lets +onlyGivenNames x; refine (fun (hx : MemKept s0 x) => ?_) (?_ : MemKept s0 x) <;> [clear_value x; subst x])
    | (extract_lets +onlyGivenNames x; refine (fun (hx : MemKept s0 x.2) => ?_) (?_ : MemKept s0 x.2) <;> [clear_value x; subst x])
    | (extract_lets +onlyGivenNames x; clear_value x)
    | with_reducible apply MemKept.ite
    | split
    | with_reducible apply wr_mem
    | with_reducible apply MemKept.foldl
    | with_reducible apply MemKept.foldl_snd
    | with_reducible apply MemKept.foldl_fst
    | (with_reducible apply MemKept.upd; first | with_reducible assumption | with_reducible apply wr_mem | with_reducible apply MemKept.foldl | with_reducible apply MemKept.foldl_snd | with_reducible apply MemKept.foldl_fst)

theorem throttleDie_mem (b e : Nat) (s : State) (h : MemKept s0 s) : MemKept s0 (throttleDie b e s) := by
  unfold throttleDie
  repeat' first
    | with_reducible assumption
    | (intro x; beta_reduce)
    | (extract_lets +onlyGivenNames x; refine (fun (hx : MemKept s0 x) => ?_) (?_ : MemKept s0 x) <;> [clear_value x; subst x])
    | (extract_lets +onlyGivenNames x; refine (fun (hx : MemKept s0 x.2) => ?_) (?_ : MemKept s0 x.2) <;> [clear_value x; subst x])
    | (extract_lets +onlyGivenNames x; clear_value x)
    | with_reducible apply setSeqX_mem
    | with_reducible apply MemKept.foldl
    | with_reducible apply MemKept.foldl_snd
    | with_reducible apply MemKept.foldl_fst
    | (with_reducible apply MemKept.upd; first | with_reducible assumption | with_reducible apply setSeqX_mem | with_reducible apply MemKept.foldl | with_reducible apply MemKept.foldl_snd | with_reducible apply MemKept.foldl_fst)

theorem startFrame_mem (n : Nat) (s : State) (b : Nat) (h : MemKept s0 s) : MemKept s0 (startFrame n s b) := by
  unfold startFrame
  repeat' first
    | with_reducible assumption
    | (intro x; beta_reduce)
    | (extract_lets +onlyGivenNames x; refine (fun (hx : MemKept s0 x) => ?_) (?_ : MemKept s0 x) <;> [clear_value x; subst x])
    | (extract_lets +onlyGivenNames x; clear_value x)
    | with_reducible apply MemKept.ite
    | split
    | with_reducible apply addW_mem
    | with_reducible apply throttleDie_mem
    | with_reducible apply sat_mem

theorem capEval_mem (s : State) (h : MemKept s0 s) : MemKept s0 (capEval s) := by
  unfold capEval
  repeat' first
    | with_reducible assumption
    | (intro x; beta_reduce)
    | (extract_lets +onlyGivenNames x; refine (fun (hx : MemKept s0 x) => ?_) (?_ : MemKept s0 x) <;> [clear_value x; subst x])
    | (extract_lets +onlyGivenNames x; refine (fun (hx : MemKept s0 x.2) => ?_) (?_ : MemKept s0 x.2) <;> [clear_value x; subst x])
    | (extract_lets +onlyGivenNames x; clear_value x)
    | with_reducible apply MemKept.ite
    | split
    | with_reducible apply advanceTo_mem
    | with_reducible apply startFrame_mem
    | with_reducible apply MemKept.foldl
    | with_reducible apply MemKept.foldl_snd
    | with_reducible apply MemKept.foldl_fst
    | (with_reducible apply MemKept.upd; first | with_reducible assumption | with_reducible apply advanceTo_mem | with_reducible apply startFrame_mem | with_reducible apply MemKept.foldl | with_reducible apply MemKept.foldl_snd | with_reducible apply MemKept.foldl_fst)

theorem capUnmet_mem (s : State) (h : MemKept s0 s) : MemKept s0 (capUnmet s) := by
  unfold capUnmet
  repeat' first
    | with_reducible assumption
    | (intro x; beta_reduce)
    | with_reducible apply MemKept.ite
    | split
    | with_reducible apply setb_mem
    | with_reducible apply advanceTo_mem

theorem noteTemp_mem (k : Nat) (t : Int) (s : State) (h : MemKept s0 s) : MemKept s0 (noteTemp k t s) := by
  unfold noteTemp
  repeat' first
    | with_reducible assumption
    | (intro x; beta_reduce)
    | (extract_lets +onlyGivenNames x; refine (fun (hx : MemKept s0 x) => ?_) (?_ : MemKept s0 x) <;> [clear_value x; subst x])
    | (extract_lets +onlyGivenNames x; clear_value x)
    | with_reducible apply MemKept.ite
    | split
    | with_reducible apply wr_mem
    | (with_reducible apply MemKept.upd; first | with_reducible assumption | with_reducible apply wr_mem)

theorem countHot_mem (s : State) (h : MemKept s0 s) : MemKept s0 (countHot s) := by
  unfold countHot
  repeat' first
    | with_reducible assumption
    | (intro x; beta_reduce)
    | (extract_lets +onlyGivenNames x; refine (fun (hx : MemKept s0 x) => ?_) (?_ : MemKept s0 x) <;> [clear_value x; subst x])
    | (extract_lets +onlyGivenNames x; clear_value x)
    | with_reducible apply MemKept.ite
    | split
    | with_reducible apply sat_mem
    | (with_reducible apply MemKept.upd; first | with_reducible assumption | with_reducible apply sat_mem)

theorem smbusAnswer_mem (always : Bool) (bs : State → List Byte) (s : State)
    (h : MemKept s0 s) : MemKept s0 (smbusAnswer always bs s) := by
  unfold smbusAnswer
  repeat' first
    | with_reducible assumption
    | (intro x; beta_reduce)
    | with_reducible apply MemKept.ite
    | split
    | with_reducible apply emit_mem

theorem powerLimit_mem (access : SmbusAccess) (pecOk : Bool) (s : State)
    (h : MemKept s0 s) : MemKept s0 (powerLimit access pecOk s) := by
  unfold powerLimit
  repeat' first
    | with_reducible assumption
    | (intro x; beta_reduce)
    | with_reducible apply MemKept.ite
    | split
    | with_reducible apply smbusAnswer_mem
    | with_reducible apply emit_mem
    | (with_reducible apply MemKept.upd; first | with_reducible assumption | with_reducible apply smbusAnswer_mem | with_reducible apply emit_mem)

end Sys2Proof.Machine
end

