-- ==== Sys2Proof/Laws/MemHost.lean ====
section
/-! SUPPORT. Which operations of Machine/Host.lean leave every byte of memory: one lemma for each. -/

set_option linter.unusedTactic false
set_option linter.unreachableTactic false
set_option linter.unusedVariables false

namespace Sys2Proof.Machine

open Sys2Proof

variable {s0 : State}

theorem hostBlockReset_mem (s : State) (h : MemKept s0 s) : MemKept s0 (hostBlockReset s) := by
  unfold hostBlockReset
  repeat' first
    | with_reducible assumption
    | (intro x; beta_reduce)
    | (extract_lets +onlyGivenNames x; refine (fun (hx : MemKept s0 x) => ?_) (?_ : MemKept s0 x) <;> [clear_value x; subst x])
    | (extract_lets +onlyGivenNames x; refine (fun (hx : MemKept s0 x.2) => ?_) (?_ : MemKept s0 x.2) <;> [clear_value x; subst x])
    | (extract_lets +onlyGivenNames x; clear_value x)
    | with_reducible apply setb_mem
    | with_reducible apply wr_mem
    | with_reducible apply MemKept.foldl
    | with_reducible apply MemKept.foldl_snd
    | with_reducible apply MemKept.foldl_fst

theorem perstAssert_mem (s : State) (h : MemKept s0 s) : MemKept s0 (perstAssert s) := by
  unfold perstAssert
  repeat' first
    | with_reducible assumption
    | (intro x; beta_reduce)
    | with_reducible apply setb_mem
    | with_reducible apply hostBlockReset_mem
    | (with_reducible apply MemKept.upd; first | with_reducible assumption | with_reducible apply setb_mem | with_reducible apply hostBlockReset_mem)

theorem perstRelease_mem (s : State) (h : MemKept s0 s) : MemKept s0 (perstRelease s) := by
  unfold perstRelease
  repeat' first
    | with_reducible assumption
    | (intro x; beta_reduce)
    | with_reducible apply MemKept.ite
    | split
    | with_reducible apply emit_mem
    | (with_reducible apply MemKept.upd; first | with_reducible assumption | with_reducible apply emit_mem)

theorem ringEnable_mem (r : Nat) (v : Bool) (s : State) (h : MemKept s0 s) : MemKept s0 (ringEnable r v s) := by
  unfold ringEnable
  repeat' first
    | with_reducible assumption
    | (intro x; beta_reduce)
    | (extract_lets +onlyGivenNames x; refine (fun (hx : MemKept s0 x) => ?_) (?_ : MemKept s0 x) <;> [clear_value x; subst x])
    | (extract_lets +onlyGivenNames x; clear_value x)
    | with_reducible apply MemKept.ite
    | split
    | with_reducible apply setb_mem
    | with_reducible apply wr_mem

theorem doorbell_mem (r v : Nat) (s : State) (h : MemKept s0 s) : MemKept s0 (doorbell r v s) := by
  unfold doorbell
  repeat' first
    | with_reducible assumption
    | (intro x; beta_reduce)
    | (extract_lets +onlyGivenNames x; refine (fun (hx : MemKept s0 x) => ?_) (?_ : MemKept s0 x) <;> [clear_value x; subst x])
    | (extract_lets +onlyGivenNames x; clear_value x)
    | with_reducible apply MemKept.ite
    | split
    | with_reducible apply wr_mem
    | with_reducible apply setb_mem
    | with_reducible apply sat_mem

theorem dropDrive_mem (c : Nat) (s : State) (h : MemKept s0 s) : MemKept s0 (dropDrive c s) := by
  unfold dropDrive
  repeat' first
    | with_reducible assumption
    | (intro x; beta_reduce)
    | (extract_lets +onlyGivenNames x; refine (fun (hx : MemKept s0 x) => ?_) (?_ : MemKept s0 x) <;> [clear_value x; subst x])
    | (extract_lets +onlyGivenNames x; clear_value x)
    | with_reducible apply MemKept.ite
    | split
    | with_reducible apply setb_mem
    | with_reducible apply setReady_mem
    | with_reducible apply driveStop_mem
    | with_reducible apply shelfFail_mem
    | with_reducible apply showSlots_mem

theorem failDrive_mem (c reason : Nat) (s : State) (h : MemKept s0 s) : MemKept s0 (failDrive c reason s) := by
  unfold failDrive
  repeat' first
    | with_reducible assumption
    | (intro x; beta_reduce)
    | (extract_lets +onlyGivenNames x; refine (fun (hx : MemKept s0 x) => ?_) (?_ : MemKept s0 x) <;> [clear_value x; subst x])
    | (extract_lets +onlyGivenNames x; clear_value x)
    | with_reducible apply setb_mem
    | with_reducible apply wr_mem
    | with_reducible apply dropDrive_mem

theorem rescan_mem (c : Nat) (s : State) (h : MemKept s0 s) : MemKept s0 (rescan c s) := by
  unfold rescan
  repeat' first
    | with_reducible assumption
    | (intro x; beta_reduce)
    | with_reducible apply setb_mem
    | with_reducible apply wr_mem
    | with_reducible apply dropDrive_mem

theorem nvmeCompletion_mem (c : Nat) (ok : Bool) (k crit used : Nat) (s : State)
    (h : MemKept s0 s) : MemKept s0 (nvmeCompletion c ok k crit used s) := by
  unfold nvmeCompletion
  repeat' first
    | with_reducible assumption
    | (intro x; beta_reduce)
    | (extract_lets +onlyGivenNames x; refine (fun (hx : MemKept s0 x) => ?_) (?_ : MemKept s0 x) <;> [clear_value x; subst x])
    | (extract_lets +onlyGivenNames x; refine (fun (hx : MemKept s0 x.2) => ?_) (?_ : MemKept s0 x.2) <;> [clear_value x; subst x])
    | (extract_lets +onlyGivenNames x; clear_value x)
    | with_reducible apply MemKept.ite
    | split
    | with_reducible apply failDrive_mem
    | with_reducible apply sat_mem
    | with_reducible apply driveDone_mem
    | with_reducible apply driveCount_mem
    | with_reducible apply wr_mem

theorem nvmeTimeout_mem (c : Nat) (s : State) (h : MemKept s0 s) : MemKept s0 (nvmeTimeout c s) := by
  unfold nvmeTimeout
  repeat' first
    | with_reducible assumption
    | (intro x; beta_reduce)
    | (extract_lets +onlyGivenNames x; refine (fun (hx : MemKept s0 x) => ?_) (?_ : MemKept s0 x) <;> [clear_value x; subst x])
    | (extract_lets +onlyGivenNames x; refine (fun (hx : MemKept s0 x.2) => ?_) (?_ : MemKept s0 x.2) <;> [clear_value x; subst x])
    | (extract_lets +onlyGivenNames x; clear_value x)
    | with_reducible apply MemKept.ite
    | split
    | with_reducible apply failDrive_mem
    | with_reducible apply sat_mem
    | with_reducible apply advanceTo_mem

end Sys2Proof.Machine
end

