-- ==== Sys2Proof/Laws/MemMessages.lean ====
section
/-! SUPPORT. Which operations of Machine/Messages.lean leave every byte of memory: one lemma for each. -/

set_option linter.unusedTactic false
set_option linter.unreachableTactic false
set_option linter.unusedVariables false

namespace Sys2Proof.Machine

open Sys2Proof

variable {s0 : State}

theorem takeVote_mem (f : Frame) (m : Member) (s : State) (h : MemKept s0 s) : MemKept s0 (takeVote f m s) := by
  unfold takeVote
  repeat' first
    | with_reducible assumption
    | (intro x; beta_reduce)
    | with_reducible apply MemKept.ite
    | split
    | with_reducible apply onVote_mem

end Sys2Proof.Machine
end

