-- ==== Sys2Proof/Laws/MemAccess.lean ====
section
/-! SUPPORT. Which operations of Machine/Access.lean leave every byte of memory: one lemma for each. -/

set_option linter.unusedTactic false
set_option linter.unreachableTactic false
set_option linter.unusedVariables false

namespace Sys2Proof.Machine

open Sys2Proof

variable {s0 : State}

theorem setLatch_mem (addr : Nat) (l : Latch) (s : State) (h : MemKept s0 s) : MemKept s0 (setLatch addr l s) := by
  unfold setLatch
  repeat' first
    | with_reducible assumption
    | (intro x; beta_reduce)
    | (with_reducible apply MemKept.upd; first | with_reducible assumption)

theorem badAccess_mem (s : State) (h : MemKept s0 s) : MemKept s0 (badAccess s) := by
  unfold badAccess
  repeat' first
    | with_reducible assumption
    | (intro x; beta_reduce)
    | with_reducible apply sat_mem

theorem readEffect_mem (u off : Nat) (s : State) (h : MemKept s0 s) : MemKept s0 (readEffect u off s) := by
  unfold readEffect
  repeat' first
    | with_reducible assumption
    | (intro x; beta_reduce)
    | with_reducible apply MemKept.ite
    | split
    | with_reducible apply latchTime_mem

theorem takeWord_mem (addr : Nat) (s : State) (h : MemKept s0 s) : MemKept s0 (takeWord addr s).2 := by
  unfold takeWord
  repeat' first
    | with_reducible assumption
    | (intro x; beta_reduce)
    | (extract_lets +onlyGivenNames x; refine (fun (hx : MemKept s0 x) => ?_) (?_ : MemKept s0 x) <;> [clear_value x; subst x])
    | (extract_lets +onlyGivenNames x; refine (fun (hx : MemKept s0 x.2) => ?_) (?_ : MemKept s0 x.2) <;> [clear_value x; subst x])
    | (extract_lets +onlyGivenNames x; clear_value x)
    | with_reducible apply MemKept.ite
    | split
    | with_reducible apply readEffect_mem

theorem bar0Read_mem (addr width : Nat) (s : State) (h : MemKept s0 s) : MemKept s0 (bar0Read addr width s) := by
  unfold bar0Read
  repeat' first
    | with_reducible assumption
    | (intro x; beta_reduce)
    | (extract_lets +onlyGivenNames x; refine (fun (hx : MemKept s0 x) => ?_) (?_ : MemKept s0 x) <;> [clear_value x; subst x])
    | (extract_lets +onlyGivenNames x; refine (fun (hx : MemKept s0 x.2) => ?_) (?_ : MemKept s0 x.2) <;> [clear_value x; subst x])
    | (extract_lets +onlyGivenNames x; clear_value x)
    | with_reducible apply MemKept.ite
    | split
    | with_reducible apply emit_mem
    | with_reducible apply badAccess_mem
    | with_reducible apply setLatch_mem
    | with_reducible apply takeWord_mem
    | refine MemKept.snd (by with_reducible assumption) ?_

theorem clearPage_mem (u : Nat) (s : State) (h : MemKept s0 s) : MemKept s0 (clearPage u s) := by
  unfold clearPage
  repeat' first
    | with_reducible assumption
    | (intro x; beta_reduce)
    | (extract_lets +onlyGivenNames x; refine (fun (hx : MemKept s0 x) => ?_) (?_ : MemKept s0 x) <;> [clear_value x; subst x])
    | (extract_lets +onlyGivenNames x; clear_value x)
    | with_reducible apply MemKept.ite
    | split
    | with_reducible apply cntClear_mem
    | with_reducible apply clearFields_mem
    | (with_reducible apply MemKept.upd; first | with_reducible assumption | with_reducible apply cntClear_mem | with_reducible apply clearFields_mem)

theorem restorePage_mem (u : Nat) (s : State) (h : MemKept s0 s) : MemKept s0 (restorePage u s) := by
  unfold restorePage
  repeat' first
    | with_reducible assumption
    | (intro x; beta_reduce)
    | (extract_lets +onlyGivenNames x; refine (fun (hx : MemKept s0 x) => ?_) (?_ : MemKept s0 x) <;> [clear_value x; subst x])
    | (extract_lets +onlyGivenNames x; clear_value x)
    | with_reducible apply MemKept.ite
    | split
    | with_reducible apply expertRestore_mem
    | with_reducible apply lifeAll_mem

theorem stageField_mem (x : Slot) (v : Nat) (s : State) (h : MemKept s0 s) : MemKept s0 (stageField x v s) := by
  unfold stageField
  repeat' first
    | with_reducible assumption
    | (intro x; beta_reduce)
    | (extract_lets +onlyGivenNames x; refine (fun (hx : MemKept s0 x) => ?_) (?_ : MemKept s0 x) <;> [clear_value x; subst x])
    | (extract_lets +onlyGivenNames x; clear_value x)
    | with_reducible apply MemKept.ite
    | split
    | with_reducible apply stagedGainWrite_mem
    | (with_reducible apply MemKept.upd; first | with_reducible assumption | with_reducible apply stagedGainWrite_mem)

theorem portEnable_mem (p : Nat) (v : Bool) (s : State) (h : MemKept s0 s) : MemKept s0 (portEnable p v s) := by
  unfold portEnable
  repeat' first
    | with_reducible assumption
    | (intro x; beta_reduce)
    | (extract_lets +onlyGivenNames x; refine (fun (hx : MemKept s0 x) => ?_) (?_ : MemKept s0 x) <;> [clear_value x; subst x])
    | (extract_lets +onlyGivenNames x; clear_value x)
    | with_reducible apply MemKept.ite
    | split
    | with_reducible apply linkDown_mem
    | with_reducible apply portReady_mem
    | with_reducible apply setb_mem

theorem liveWrite_mem (u : Nat) (x : Slot) (v : Nat) (s : State) (h : MemKept s0 s) : MemKept s0 (liveWrite u x v s) := by
  unfold liveWrite
  repeat' first
    | with_reducible assumption
    | (intro x; beta_reduce)
    | (extract_lets +onlyGivenNames x; refine (fun (hx : MemKept s0 x) => ?_) (?_ : MemKept s0 x) <;> [clear_value x; subst x])
    | (extract_lets +onlyGivenNames x; clear_value x)
    | with_reducible apply MemKept.ite
    | split
    | with_reducible apply wrU_mem
    | with_reducible apply ringEnable_mem
    | with_reducible apply doorbell_mem
    | with_reducible apply showPtpPort_mem
    | with_reducible apply showMaster_mem
    | with_reducible apply portEnable_mem
    | with_reducible apply loadHold_mem
    | with_reducible apply sleep_mem
    | with_reducible apply lifeCheck_mem
    | with_reducible apply lifeAll_mem
    | with_reducible apply failDie_mem

theorem w1cWrite_mem (x : Slot) (v : Nat) (s : State) (h : MemKept s0 s) : MemKept s0 (w1cWrite x v s) := by
  unfold w1cWrite
  repeat' first
    | with_reducible assumption
    | (intro x; beta_reduce)
    | with_reducible apply MemKept.ite
    | split
    | with_reducible apply wrU_mem

theorem poisonWrite_mem (a : Nat) (s : State) (h : MemKept s0 s) : MemKept s0 (poisonWrite a s) := by
  unfold poisonWrite
  repeat' first
    | with_reducible assumption
    | (intro x; beta_reduce)
    | (extract_lets +onlyGivenNames x; refine (fun (hx : MemKept s0 x) => ?_) (?_ : MemKept s0 x) <;> [clear_value x; subst x])
    | (extract_lets +onlyGivenNames x; clear_value x)
    | with_reducible apply satU_mem

end Sys2Proof.Machine
end

