-- ==== Sys2Proof/Laws/State.lean ====
section
/-! SUPPORT. What each named update of the state leaves alone: one lemma for each field of the state and each update. -/

namespace Sys2Proof.Machine

open Sys2Proof

@[simp] theorem wrU_same_pending (f : Field) (u i v : Nat) (s : State) : (wrU f u i v s).pending = s.pending := rfl
@[simp] theorem wrU_same_variant (f : Field) (u i v : Nat) (s : State) : (wrU f u i v s).variant = s.variant := rfl
@[simp] theorem wrU_same_stage (f : Field) (u i v : Nat) (s : State) : (wrU f u i v s).stage = s.stage := rfl
@[simp] theorem wrU_same_d3hot (f : Field) (u i v : Nat) (s : State) : (wrU f u i v s).d3hot = s.d3hot := rfl
@[simp] theorem wrU_same_perst (f : Field) (u i v : Nat) (s : State) : (wrU f u i v s).perst = s.perst := rfl
@[simp] theorem wrU_same_core (f : Field) (u i v : Nat) (s : State) : (wrU f u i v s).core = s.core := rfl
@[simp] theorem wrU_same_time (f : Field) (u i v : Nat) (s : State) : (wrU f u i v s).time = s.time := rfl
@[simp] theorem wrU_same_stg (f : Field) (u i v : Nat) (s : State) : (wrU f u i v s).stg = s.stg := rfl
@[simp] theorem wrU_same_tblWritten (f : Field) (u i v : Nat) (s : State) : (wrU f u i v s).tblWritten = s.tblWritten := rfl
@[simp] theorem wrU_same_commit (f : Field) (u i v : Nat) (s : State) : (wrU f u i v s).commit = s.commit := rfl
@[simp] theorem wrU_same_latches (f : Field) (u i v : Nat) (s : State) : (wrU f u i v s).latches = s.latches := rfl
@[simp] theorem wrU_same_mem (f : Field) (u i v : Nat) (s : State) : (wrU f u i v s).mem = s.mem := rfl
@[simp] theorem wrU_same_poison (f : Field) (u i v : Nat) (s : State) : (wrU f u i v s).poison = s.poison := rfl
@[simp] theorem wrU_same_lineBusy (f : Field) (u i v : Nat) (s : State) : (wrU f u i v s).lineBusy = s.lineBusy := rfl
@[simp] theorem wrU_same_lastRing (f : Field) (u i v : Nat) (s : State) : (wrU f u i v s).lastRing = s.lastRing := rfl
@[simp] theorem wrU_same_newPoison (f : Field) (u i v : Nat) (s : State) : (wrU f u i v s).newPoison = s.newPoison := rfl
@[simp] theorem wrU_same_unmet (f : Field) (u i v : Nat) (s : State) : (wrU f u i v s).unmet = s.unmet := rfl
@[simp] theorem wrU_same_segTags (f : Field) (u i v : Nat) (s : State) : (wrU f u i v s).segTags = s.segTags := rfl
@[simp] theorem wrU_same_recent (f : Field) (u i v : Nat) (s : State) : (wrU f u i v s).recent = s.recent := rfl
@[simp] theorem wrU_same_lines (f : Field) (u i v : Nat) (s : State) : (wrU f u i v s).lines = s.lines := rfl
@[simp] theorem wrU_same_overs (f : Field) (u i v : Nat) (s : State) : (wrU f u i v s).overs = s.overs := rfl
@[simp] theorem wrU_same_opCount (f : Field) (u i v : Nat) (s : State) : (wrU f u i v s).opCount = s.opCount := rfl
@[simp] theorem wrU_same_arrs (f : Field) (u i v : Nat) (s : State) : (wrU f u i v s).arrs = s.arrs := rfl
@[simp] theorem wrU_same_dark (f : Field) (u i v : Nat) (s : State) : (wrU f u i v s).dark = s.dark := rfl
@[simp] theorem wrU_same_ledger (f : Field) (u i v : Nat) (s : State) : (wrU f u i v s).ledger = s.ledger := rfl
@[simp] theorem wrU_same_progBase (f : Field) (u i v : Nat) (s : State) : (wrU f u i v s).progBase = s.progBase := rfl
@[simp] theorem wrU_same_ledgerBase (f : Field) (u i v : Nat) (s : State) : (wrU f u i v s).ledgerBase = s.ledgerBase := rfl
@[simp] theorem wrU_same_drives (f : Field) (u i v : Nat) (s : State) : (wrU f u i v s).drives = s.drives := rfl
@[simp] theorem wrU_same_chains (f : Field) (u i v : Nat) (s : State) : (wrU f u i v s).chains = s.chains := rfl
@[simp] theorem wrU_same_queries (f : Field) (u i v : Nat) (s : State) : (wrU f u i v s).queries = s.queries := rfl
@[simp] theorem wrU_same_job (f : Field) (u i v : Nat) (s : State) : (wrU f u i v s).job = s.job := rfl
@[simp] theorem wrU_same_ptp (f : Field) (u i v : Nat) (s : State) : (wrU f u i v s).ptp = s.ptp := rfl
@[simp] theorem wrU_same_refreshed (f : Field) (u i v : Nat) (s : State) : (wrU f u i v s).refreshed = s.refreshed := rfl
@[simp] theorem wrU_same_refreshDue (f : Field) (u i v : Nat) (s : State) : (wrU f u i v s).refreshDue = s.refreshDue := rfl
@[simp] theorem wrU_same_drift (f : Field) (u i v : Nat) (s : State) : (wrU f u i v s).drift = s.drift := rfl
@[simp] theorem wrU_same_frames (f : Field) (u i v : Nat) (s : State) : (wrU f u i v s).frames = s.frames := rfl
@[simp] theorem wrU_same_selMaster (f : Field) (u i v : Nat) (s : State) : (wrU f u i v s).selMaster = s.selMaster := rfl
@[simp] theorem wrU_same_selState (f : Field) (u i v : Nat) (s : State) : (wrU f u i v s).selState = s.selState := rfl
@[simp] theorem wrU_same_bins (f : Field) (u i v : Nat) (s : State) : (wrU f u i v s).bins = s.bins := rfl
@[simp] theorem wrU_same_loads (f : Field) (u i v : Nat) (s : State) : (wrU f u i v s).loads = s.loads := rfl
@[simp] theorem wrU_same_loadCount (f : Field) (u i v : Nat) (s : State) : (wrU f u i v s).loadCount = s.loadCount := rfl
@[simp] theorem wrU_same_seqx (f : Field) (u i v : Nat) (s : State) : (wrU f u i v s).seqx = s.seqx := rfl
@[simp] theorem wrU_same_queues (f : Field) (u i v : Nat) (s : State) : (wrU f u i v s).queues = s.queues := rfl
@[simp] theorem wrU_same_tracker (f : Field) (u i v : Nat) (s : State) : (wrU f u i v s).tracker = s.tracker := rfl
@[simp] theorem wrU_same_aux (f : Field) (u i v : Nat) (s : State) : (wrU f u i v s).aux = s.aux := rfl
@[simp] theorem wrU_same_fault (f : Field) (u i v : Nat) (s : State) : (wrU f u i v s).fault = s.fault := rfl
@[simp] theorem wrU_same_power (f : Field) (u i v : Nat) (s : State) : (wrU f u i v s).power = s.power := rfl
@[simp] theorem wrU_same_shelf (f : Field) (u i v : Nat) (s : State) : (wrU f u i v s).shelf = s.shelf := rfl
@[simp] theorem wrU_same_mergedC (f : Field) (u i v : Nat) (s : State) : (wrU f u i v s).mergedC = s.mergedC := rfl
@[simp] theorem wrU_same_oldLarder (f : Field) (u i v : Nat) (s : State) : (wrU f u i v s).oldLarder = s.oldLarder := rfl
@[simp] theorem wrU_same_busy (f : Field) (u i v : Nat) (s : State) : (wrU f u i v s).busy = s.busy := rfl
@[simp] theorem wrU_same_stopAt (f : Field) (u i v : Nat) (s : State) : (wrU f u i v s).stopAt = s.stopAt := rfl
@[simp] theorem wrU_same_programDied (f : Field) (u i v : Nat) (s : State) : (wrU f u i v s).programDied = s.programDied := rfl
@[simp] theorem wrU_same_out (f : Field) (u i v : Nat) (s : State) : (wrU f u i v s).out = s.out := rfl
@[simp] theorem wrU_same_lossSampled (f : Field) (u i v : Nat) (s : State) : (wrU f u i v s).lossSampled = s.lossSampled := rfl
@[simp] theorem wrU_same_freeCtr (f : Field) (u i v : Nat) (s : State) : (wrU f u i v s).freeCtr = s.freeCtr := rfl

@[simp] theorem wr_same_pending (f : Field) (inst i v : Nat) (s : State) : (wr f inst i v s).pending = s.pending := rfl
@[simp] theorem wr_same_variant (f : Field) (inst i v : Nat) (s : State) : (wr f inst i v s).variant = s.variant := rfl
@[simp] theorem wr_same_stage (f : Field) (inst i v : Nat) (s : State) : (wr f inst i v s).stage = s.stage := rfl
@[simp] theorem wr_same_d3hot (f : Field) (inst i v : Nat) (s : State) : (wr f inst i v s).d3hot = s.d3hot := rfl
@[simp] theorem wr_same_perst (f : Field) (inst i v : Nat) (s : State) : (wr f inst i v s).perst = s.perst := rfl
@[simp] theorem wr_same_core (f : Field) (inst i v : Nat) (s : State) : (wr f inst i v s).core = s.core := rfl
@[simp] theorem wr_same_time (f : Field) (inst i v : Nat) (s : State) : (wr f inst i v s).time = s.time := rfl
@[simp] theorem wr_same_stg (f : Field) (inst i v : Nat) (s : State) : (wr f inst i v s).stg = s.stg := rfl
@[simp] theorem wr_same_tblWritten (f : Field) (inst i v : Nat) (s : State) : (wr f inst i v s).tblWritten = s.tblWritten := rfl
@[simp] theorem wr_same_commit (f : Field) (inst i v : Nat) (s : State) : (wr f inst i v s).commit = s.commit := rfl
@[simp] theorem wr_same_latches (f : Field) (inst i v : Nat) (s : State) : (wr f inst i v s).latches = s.latches := rfl
@[simp] theorem wr_same_mem (f : Field) (inst i v : Nat) (s : State) : (wr f inst i v s).mem = s.mem := rfl
@[simp] theorem wr_same_poison (f : Field) (inst i v : Nat) (s : State) : (wr f inst i v s).poison = s.poison := rfl
@[simp] theorem wr_same_lineBusy (f : Field) (inst i v : Nat) (s : State) : (wr f inst i v s).lineBusy = s.lineBusy := rfl
@[simp] theorem wr_same_lastRing (f : Field) (inst i v : Nat) (s : State) : (wr f inst i v s).lastRing = s.lastRing := rfl
@[simp] theorem wr_same_newPoison (f : Field) (inst i v : Nat) (s : State) : (wr f inst i v s).newPoison = s.newPoison := rfl
@[simp] theorem wr_same_unmet (f : Field) (inst i v : Nat) (s : State) : (wr f inst i v s).unmet = s.unmet := rfl
@[simp] theorem wr_same_segTags (f : Field) (inst i v : Nat) (s : State) : (wr f inst i v s).segTags = s.segTags := rfl
@[simp] theorem wr_same_recent (f : Field) (inst i v : Nat) (s : State) : (wr f inst i v s).recent = s.recent := rfl
@[simp] theorem wr_same_lines (f : Field) (inst i v : Nat) (s : State) : (wr f inst i v s).lines = s.lines := rfl
@[simp] theorem wr_same_overs (f : Field) (inst i v : Nat) (s : State) : (wr f inst i v s).overs = s.overs := rfl
@[simp] theorem wr_same_opCount (f : Field) (inst i v : Nat) (s : State) : (wr f inst i v s).opCount = s.opCount := rfl
@[simp] theorem wr_same_arrs (f : Field) (inst i v : Nat) (s : State) : (wr f inst i v s).arrs = s.arrs := rfl
@[simp] theorem wr_same_dark (f : Field) (inst i v : Nat) (s : State) : (wr f inst i v s).dark = s.dark := rfl
@[simp] theorem wr_same_ledger (f : Field) (inst i v : Nat) (s : State) : (wr f inst i v s).ledger = s.ledger := rfl
@[simp] theorem wr_same_progBase (f : Field) (inst i v : Nat) (s : State) : (wr f inst i v s).progBase = s.progBase := rfl
@[simp] theorem wr_same_ledgerBase (f : Field) (inst i v : Nat) (s : State) : (wr f inst i v s).ledgerBase = s.ledgerBase := rfl
@[simp] theorem wr_same_drives (f : Field) (inst i v : Nat) (s : State) : (wr f inst i v s).drives = s.drives := rfl
@[simp] theorem wr_same_chains (f : Field) (inst i v : Nat) (s : State) : (wr f inst i v s).chains = s.chains := rfl
@[simp] theorem wr_same_queries (f : Field) (inst i v : Nat) (s : State) : (wr f inst i v s).queries = s.queries := rfl
@[simp] theorem wr_same_job (f : Field) (inst i v : Nat) (s : State) : (wr f inst i v s).job = s.job := rfl
@[simp] theorem wr_same_ptp (f : Field) (inst i v : Nat) (s : State) : (wr f inst i v s).ptp = s.ptp := rfl
@[simp] theorem wr_same_refreshed (f : Field) (inst i v : Nat) (s : State) : (wr f inst i v s).refreshed = s.refreshed := rfl
@[simp] theorem wr_same_refreshDue (f : Field) (inst i v : Nat) (s : State) : (wr f inst i v s).refreshDue = s.refreshDue := rfl
@[simp] theorem wr_same_drift (f : Field) (inst i v : Nat) (s : State) : (wr f inst i v s).drift = s.drift := rfl
@[simp] theorem wr_same_frames (f : Field) (inst i v : Nat) (s : State) : (wr f inst i v s).frames = s.frames := rfl
@[simp] theorem wr_same_selMaster (f : Field) (inst i v : Nat) (s : State) : (wr f inst i v s).selMaster = s.selMaster := rfl
@[simp] theorem wr_same_selState (f : Field) (inst i v : Nat) (s : State) : (wr f inst i v s).selState = s.selState := rfl
@[simp] theorem wr_same_bins (f : Field) (inst i v : Nat) (s : State) : (wr f inst i v s).bins = s.bins := rfl
@[simp] theorem wr_same_loads (f : Field) (inst i v : Nat) (s : State) : (wr f inst i v s).loads = s.loads := rfl
@[simp] theorem wr_same_loadCount (f : Field) (inst i v : Nat) (s : State) : (wr f inst i v s).loadCount = s.loadCount := rfl
@[simp] theorem wr_same_seqx (f : Field) (inst i v : Nat) (s : State) : (wr f inst i v s).seqx = s.seqx := rfl
@[simp] theorem wr_same_queues (f : Field) (inst i v : Nat) (s : State) : (wr f inst i v s).queues = s.queues := rfl
@[simp] theorem wr_same_tracker (f : Field) (inst i v : Nat) (s : State) : (wr f inst i v s).tracker = s.tracker := rfl
@[simp] theorem wr_same_aux (f : Field) (inst i v : Nat) (s : State) : (wr f inst i v s).aux = s.aux := rfl
@[simp] theorem wr_same_fault (f : Field) (inst i v : Nat) (s : State) : (wr f inst i v s).fault = s.fault := rfl
@[simp] theorem wr_same_power (f : Field) (inst i v : Nat) (s : State) : (wr f inst i v s).power = s.power := rfl
@[simp] theorem wr_same_shelf (f : Field) (inst i v : Nat) (s : State) : (wr f inst i v s).shelf = s.shelf := rfl
@[simp] theorem wr_same_mergedC (f : Field) (inst i v : Nat) (s : State) : (wr f inst i v s).mergedC = s.mergedC := rfl
@[simp] theorem wr_same_oldLarder (f : Field) (inst i v : Nat) (s : State) : (wr f inst i v s).oldLarder = s.oldLarder := rfl
@[simp] theorem wr_same_busy (f : Field) (inst i v : Nat) (s : State) : (wr f inst i v s).busy = s.busy := rfl
@[simp] theorem wr_same_stopAt (f : Field) (inst i v : Nat) (s : State) : (wr f inst i v s).stopAt = s.stopAt := rfl
@[simp] theorem wr_same_programDied (f : Field) (inst i v : Nat) (s : State) : (wr f inst i v s).programDied = s.programDied := rfl
@[simp] theorem wr_same_out (f : Field) (inst i v : Nat) (s : State) : (wr f inst i v s).out = s.out := rfl
@[simp] theorem wr_same_lossSampled (f : Field) (inst i v : Nat) (s : State) : (wr f inst i v s).lossSampled = s.lossSampled := rfl
@[simp] theorem wr_same_freeCtr (f : Field) (inst i v : Nat) (s : State) : (wr f inst i v s).freeCtr = s.freeCtr := rfl

@[simp] theorem setb_same_pending (f : Field) (inst i : Nat) (b : Bool) (s : State) : (setb f inst i b s).pending = s.pending := rfl
@[simp] theorem setb_same_variant (f : Field) (inst i : Nat) (b : Bool) (s : State) : (setb f inst i b s).variant = s.variant := rfl
@[simp] theorem setb_same_stage (f : Field) (inst i : Nat) (b : Bool) (s : State) : (setb f inst i b s).stage = s.stage := rfl
@[simp] theorem setb_same_d3hot (f : Field) (inst i : Nat) (b : Bool) (s : State) : (setb f inst i b s).d3hot = s.d3hot := rfl
@[simp] theorem setb_same_perst (f : Field) (inst i : Nat) (b : Bool) (s : State) : (setb f inst i b s).perst = s.perst := rfl
@[simp] theorem setb_same_core (f : Field) (inst i : Nat) (b : Bool) (s : State) : (setb f inst i b s).core = s.core := rfl
@[simp] theorem setb_same_time (f : Field) (inst i : Nat) (b : Bool) (s : State) : (setb f inst i b s).time = s.time := rfl
@[simp] theorem setb_same_stg (f : Field) (inst i : Nat) (b : Bool) (s : State) : (setb f inst i b s).stg = s.stg := rfl
@[simp] theorem setb_same_tblWritten (f : Field) (inst i : Nat) (b : Bool) (s : State) : (setb f inst i b s).tblWritten = s.tblWritten := rfl
@[simp] theorem setb_same_commit (f : Field) (inst i : Nat) (b : Bool) (s : State) : (setb f inst i b s).commit = s.commit := rfl
@[simp] theorem setb_same_latches (f : Field) (inst i : Nat) (b : Bool) (s : State) : (setb f inst i b s).latches = s.latches := rfl
@[simp] theorem setb_same_mem (f : Field) (inst i : Nat) (b : Bool) (s : State) : (setb f inst i b s).mem = s.mem := rfl
@[simp] theorem setb_same_poison (f : Field) (inst i : Nat) (b : Bool) (s : State) : (setb f inst i b s).poison = s.poison := rfl
@[simp] theorem setb_same_lineBusy (f : Field) (inst i : Nat) (b : Bool) (s : State) : (setb f inst i b s).lineBusy = s.lineBusy := rfl
@[simp] theorem setb_same_lastRing (f : Field) (inst i : Nat) (b : Bool) (s : State) : (setb f inst i b s).lastRing = s.lastRing := rfl
@[simp] theorem setb_same_newPoison (f : Field) (inst i : Nat) (b : Bool) (s : State) : (setb f inst i b s).newPoison = s.newPoison := rfl
@[simp] theorem setb_same_unmet (f : Field) (inst i : Nat) (b : Bool) (s : State) : (setb f inst i b s).unmet = s.unmet := rfl
@[simp] theorem setb_same_segTags (f : Field) (inst i : Nat) (b : Bool) (s : State) : (setb f inst i b s).segTags = s.segTags := rfl
@[simp] theorem setb_same_recent (f : Field) (inst i : Nat) (b : Bool) (s : State) : (setb f inst i b s).recent = s.recent := rfl
@[simp] theorem setb_same_lines (f : Field) (inst i : Nat) (b : Bool) (s : State) : (setb f inst i b s).lines = s.lines := rfl
@[simp] theorem setb_same_overs (f : Field) (inst i : Nat) (b : Bool) (s : State) : (setb f inst i b s).overs = s.overs := rfl
@[simp] theorem setb_same_opCount (f : Field) (inst i : Nat) (b : Bool) (s : State) : (setb f inst i b s).opCount = s.opCount := rfl
@[simp] theorem setb_same_arrs (f : Field) (inst i : Nat) (b : Bool) (s : State) : (setb f inst i b s).arrs = s.arrs := rfl
@[simp] theorem setb_same_dark (f : Field) (inst i : Nat) (b : Bool) (s : State) : (setb f inst i b s).dark = s.dark := rfl
@[simp] theorem setb_same_ledger (f : Field) (inst i : Nat) (b : Bool) (s : State) : (setb f inst i b s).ledger = s.ledger := rfl
@[simp] theorem setb_same_progBase (f : Field) (inst i : Nat) (b : Bool) (s : State) : (setb f inst i b s).progBase = s.progBase := rfl
@[simp] theorem setb_same_ledgerBase (f : Field) (inst i : Nat) (b : Bool) (s : State) : (setb f inst i b s).ledgerBase = s.ledgerBase := rfl
@[simp] theorem setb_same_drives (f : Field) (inst i : Nat) (b : Bool) (s : State) : (setb f inst i b s).drives = s.drives := rfl
@[simp] theorem setb_same_chains (f : Field) (inst i : Nat) (b : Bool) (s : State) : (setb f inst i b s).chains = s.chains := rfl
@[simp] theorem setb_same_queries (f : Field) (inst i : Nat) (b : Bool) (s : State) : (setb f inst i b s).queries = s.queries := rfl
@[simp] theorem setb_same_job (f : Field) (inst i : Nat) (b : Bool) (s : State) : (setb f inst i b s).job = s.job := rfl
@[simp] theorem setb_same_ptp (f : Field) (inst i : Nat) (b : Bool) (s : State) : (setb f inst i b s).ptp = s.ptp := rfl
@[simp] theorem setb_same_refreshed (f : Field) (inst i : Nat) (b : Bool) (s : State) : (setb f inst i b s).refreshed = s.refreshed := rfl
@[simp] theorem setb_same_refreshDue (f : Field) (inst i : Nat) (b : Bool) (s : State) : (setb f inst i b s).refreshDue = s.refreshDue := rfl
@[simp] theorem setb_same_drift (f : Field) (inst i : Nat) (b : Bool) (s : State) : (setb f inst i b s).drift = s.drift := rfl
@[simp] theorem setb_same_frames (f : Field) (inst i : Nat) (b : Bool) (s : State) : (setb f inst i b s).frames = s.frames := rfl
@[simp] theorem setb_same_selMaster (f : Field) (inst i : Nat) (b : Bool) (s : State) : (setb f inst i b s).selMaster = s.selMaster := rfl
@[simp] theorem setb_same_selState (f : Field) (inst i : Nat) (b : Bool) (s : State) : (setb f inst i b s).selState = s.selState := rfl
@[simp] theorem setb_same_bins (f : Field) (inst i : Nat) (b : Bool) (s : State) : (setb f inst i b s).bins = s.bins := rfl
@[simp] theorem setb_same_loads (f : Field) (inst i : Nat) (b : Bool) (s : State) : (setb f inst i b s).loads = s.loads := rfl
@[simp] theorem setb_same_loadCount (f : Field) (inst i : Nat) (b : Bool) (s : State) : (setb f inst i b s).loadCount = s.loadCount := rfl
@[simp] theorem setb_same_seqx (f : Field) (inst i : Nat) (b : Bool) (s : State) : (setb f inst i b s).seqx = s.seqx := rfl
@[simp] theorem setb_same_queues (f : Field) (inst i : Nat) (b : Bool) (s : State) : (setb f inst i b s).queues = s.queues := rfl
@[simp] theorem setb_same_tracker (f : Field) (inst i : Nat) (b : Bool) (s : State) : (setb f inst i b s).tracker = s.tracker := rfl
@[simp] theorem setb_same_aux (f : Field) (inst i : Nat) (b : Bool) (s : State) : (setb f inst i b s).aux = s.aux := rfl
@[simp] theorem setb_same_fault (f : Field) (inst i : Nat) (b : Bool) (s : State) : (setb f inst i b s).fault = s.fault := rfl
@[simp] theorem setb_same_power (f : Field) (inst i : Nat) (b : Bool) (s : State) : (setb f inst i b s).power = s.power := rfl
@[simp] theorem setb_same_shelf (f : Field) (inst i : Nat) (b : Bool) (s : State) : (setb f inst i b s).shelf = s.shelf := rfl
@[simp] theorem setb_same_mergedC (f : Field) (inst i : Nat) (b : Bool) (s : State) : (setb f inst i b s).mergedC = s.mergedC := rfl
@[simp] theorem setb_same_oldLarder (f : Field) (inst i : Nat) (b : Bool) (s : State) : (setb f inst i b s).oldLarder = s.oldLarder := rfl
@[simp] theorem setb_same_busy (f : Field) (inst i : Nat) (b : Bool) (s : State) : (setb f inst i b s).busy = s.busy := rfl
@[simp] theorem setb_same_stopAt (f : Field) (inst i : Nat) (b : Bool) (s : State) : (setb f inst i b s).stopAt = s.stopAt := rfl
@[simp] theorem setb_same_programDied (f : Field) (inst i : Nat) (b : Bool) (s : State) : (setb f inst i b s).programDied = s.programDied := rfl
@[simp] theorem setb_same_out (f : Field) (inst i : Nat) (b : Bool) (s : State) : (setb f inst i b s).out = s.out := rfl
@[simp] theorem setb_same_lossSampled (f : Field) (inst i : Nat) (b : Bool) (s : State) : (setb f inst i b s).lossSampled = s.lossSampled := rfl
@[simp] theorem setb_same_freeCtr (f : Field) (inst i : Nat) (b : Bool) (s : State) : (setb f inst i b s).freeCtr = s.freeCtr := rfl

@[simp] theorem addW_same_pending (f : Field) (inst i n : Nat) (s : State) : (addW f inst i n s).pending = s.pending := rfl
@[simp] theorem addW_same_variant (f : Field) (inst i n : Nat) (s : State) : (addW f inst i n s).variant = s.variant := rfl
@[simp] theorem addW_same_stage (f : Field) (inst i n : Nat) (s : State) : (addW f inst i n s).stage = s.stage := rfl
@[simp] theorem addW_same_d3hot (f : Field) (inst i n : Nat) (s : State) : (addW f inst i n s).d3hot = s.d3hot := rfl
@[simp] theorem addW_same_perst (f : Field) (inst i n : Nat) (s : State) : (addW f inst i n s).perst = s.perst := rfl
@[simp] theorem addW_same_core (f : Field) (inst i n : Nat) (s : State) : (addW f inst i n s).core = s.core := rfl
@[simp] theorem addW_same_time (f : Field) (inst i n : Nat) (s : State) : (addW f inst i n s).time = s.time := rfl
@[simp] theorem addW_same_stg (f : Field) (inst i n : Nat) (s : State) : (addW f inst i n s).stg = s.stg := rfl
@[simp] theorem addW_same_tblWritten (f : Field) (inst i n : Nat) (s : State) : (addW f inst i n s).tblWritten = s.tblWritten := rfl
@[simp] theorem addW_same_commit (f : Field) (inst i n : Nat) (s : State) : (addW f inst i n s).commit = s.commit := rfl
@[simp] theorem addW_same_latches (f : Field) (inst i n : Nat) (s : State) : (addW f inst i n s).latches = s.latches := rfl
@[simp] theorem addW_same_mem (f : Field) (inst i n : Nat) (s : State) : (addW f inst i n s).mem = s.mem := rfl
@[simp] theorem addW_same_poison (f : Field) (inst i n : Nat) (s : State) : (addW f inst i n s).poison = s.poison := rfl
@[simp] theorem addW_same_lineBusy (f : Field) (inst i n : Nat) (s : State) : (addW f inst i n s).lineBusy = s.lineBusy := rfl
@[simp] theorem addW_same_lastRing (f : Field) (inst i n : Nat) (s : State) : (addW f inst i n s).lastRing = s.lastRing := rfl
@[simp] theorem addW_same_newPoison (f : Field) (inst i n : Nat) (s : State) : (addW f inst i n s).newPoison = s.newPoison := rfl
@[simp] theorem addW_same_unmet (f : Field) (inst i n : Nat) (s : State) : (addW f inst i n s).unmet = s.unmet := rfl
@[simp] theorem addW_same_segTags (f : Field) (inst i n : Nat) (s : State) : (addW f inst i n s).segTags = s.segTags := rfl
@[simp] theorem addW_same_recent (f : Field) (inst i n : Nat) (s : State) : (addW f inst i n s).recent = s.recent := rfl
@[simp] theorem addW_same_lines (f : Field) (inst i n : Nat) (s : State) : (addW f inst i n s).lines = s.lines := rfl
@[simp] theorem addW_same_overs (f : Field) (inst i n : Nat) (s : State) : (addW f inst i n s).overs = s.overs := rfl
@[simp] theorem addW_same_opCount (f : Field) (inst i n : Nat) (s : State) : (addW f inst i n s).opCount = s.opCount := rfl
@[simp] theorem addW_same_arrs (f : Field) (inst i n : Nat) (s : State) : (addW f inst i n s).arrs = s.arrs := rfl
@[simp] theorem addW_same_dark (f : Field) (inst i n : Nat) (s : State) : (addW f inst i n s).dark = s.dark := rfl
@[simp] theorem addW_same_ledger (f : Field) (inst i n : Nat) (s : State) : (addW f inst i n s).ledger = s.ledger := rfl
@[simp] theorem addW_same_progBase (f : Field) (inst i n : Nat) (s : State) : (addW f inst i n s).progBase = s.progBase := rfl
@[simp] theorem addW_same_ledgerBase (f : Field) (inst i n : Nat) (s : State) : (addW f inst i n s).ledgerBase = s.ledgerBase := rfl
@[simp] theorem addW_same_drives (f : Field) (inst i n : Nat) (s : State) : (addW f inst i n s).drives = s.drives := rfl
@[simp] theorem addW_same_chains (f : Field) (inst i n : Nat) (s : State) : (addW f inst i n s).chains = s.chains := rfl
@[simp] theorem addW_same_queries (f : Field) (inst i n : Nat) (s : State) : (addW f inst i n s).queries = s.queries := rfl
@[simp] theorem addW_same_job (f : Field) (inst i n : Nat) (s : State) : (addW f inst i n s).job = s.job := rfl
@[simp] theorem addW_same_ptp (f : Field) (inst i n : Nat) (s : State) : (addW f inst i n s).ptp = s.ptp := rfl
@[simp] theorem addW_same_refreshed (f : Field) (inst i n : Nat) (s : State) : (addW f inst i n s).refreshed = s.refreshed := rfl
@[simp] theorem addW_same_refreshDue (f : Field) (inst i n : Nat) (s : State) : (addW f inst i n s).refreshDue = s.refreshDue := rfl
@[simp] theorem addW_same_drift (f : Field) (inst i n : Nat) (s : State) : (addW f inst i n s).drift = s.drift := rfl
@[simp] theorem addW_same_frames (f : Field) (inst i n : Nat) (s : State) : (addW f inst i n s).frames = s.frames := rfl
@[simp] theorem addW_same_selMaster (f : Field) (inst i n : Nat) (s : State) : (addW f inst i n s).selMaster = s.selMaster := rfl
@[simp] theorem addW_same_selState (f : Field) (inst i n : Nat) (s : State) : (addW f inst i n s).selState = s.selState := rfl
@[simp] theorem addW_same_bins (f : Field) (inst i n : Nat) (s : State) : (addW f inst i n s).bins = s.bins := rfl
@[simp] theorem addW_same_loads (f : Field) (inst i n : Nat) (s : State) : (addW f inst i n s).loads = s.loads := rfl
@[simp] theorem addW_same_loadCount (f : Field) (inst i n : Nat) (s : State) : (addW f inst i n s).loadCount = s.loadCount := rfl
@[simp] theorem addW_same_seqx (f : Field) (inst i n : Nat) (s : State) : (addW f inst i n s).seqx = s.seqx := rfl
@[simp] theorem addW_same_queues (f : Field) (inst i n : Nat) (s : State) : (addW f inst i n s).queues = s.queues := rfl
@[simp] theorem addW_same_tracker (f : Field) (inst i n : Nat) (s : State) : (addW f inst i n s).tracker = s.tracker := rfl
@[simp] theorem addW_same_aux (f : Field) (inst i n : Nat) (s : State) : (addW f inst i n s).aux = s.aux := rfl
@[simp] theorem addW_same_fault (f : Field) (inst i n : Nat) (s : State) : (addW f inst i n s).fault = s.fault := rfl
@[simp] theorem addW_same_power (f : Field) (inst i n : Nat) (s : State) : (addW f inst i n s).power = s.power := rfl
@[simp] theorem addW_same_shelf (f : Field) (inst i n : Nat) (s : State) : (addW f inst i n s).shelf = s.shelf := rfl
@[simp] theorem addW_same_mergedC (f : Field) (inst i n : Nat) (s : State) : (addW f inst i n s).mergedC = s.mergedC := rfl
@[simp] theorem addW_same_oldLarder (f : Field) (inst i n : Nat) (s : State) : (addW f inst i n s).oldLarder = s.oldLarder := rfl
@[simp] theorem addW_same_busy (f : Field) (inst i n : Nat) (s : State) : (addW f inst i n s).busy = s.busy := rfl
@[simp] theorem addW_same_stopAt (f : Field) (inst i n : Nat) (s : State) : (addW f inst i n s).stopAt = s.stopAt := rfl
@[simp] theorem addW_same_programDied (f : Field) (inst i n : Nat) (s : State) : (addW f inst i n s).programDied = s.programDied := rfl
@[simp] theorem addW_same_out (f : Field) (inst i n : Nat) (s : State) : (addW f inst i n s).out = s.out := rfl
@[simp] theorem addW_same_lossSampled (f : Field) (inst i n : Nat) (s : State) : (addW f inst i n s).lossSampled = s.lossSampled := rfl
@[simp] theorem addW_same_freeCtr (f : Field) (inst i n : Nat) (s : State) : (addW f inst i n s).freeCtr = s.freeCtr := rfl

@[simp] theorem setSat_same_pending (f : Field) (pu : Nat) (s : State) : (setSat f pu s).pending = s.pending := by unfold setSat; split <;> rfl
@[simp] theorem setSat_same_variant (f : Field) (pu : Nat) (s : State) : (setSat f pu s).variant = s.variant := by unfold setSat; split <;> rfl
@[simp] theorem setSat_same_stage (f : Field) (pu : Nat) (s : State) : (setSat f pu s).stage = s.stage := by unfold setSat; split <;> rfl
@[simp] theorem setSat_same_d3hot (f : Field) (pu : Nat) (s : State) : (setSat f pu s).d3hot = s.d3hot := by unfold setSat; split <;> rfl
@[simp] theorem setSat_same_perst (f : Field) (pu : Nat) (s : State) : (setSat f pu s).perst = s.perst := by unfold setSat; split <;> rfl
@[simp] theorem setSat_same_core (f : Field) (pu : Nat) (s : State) : (setSat f pu s).core = s.core := by unfold setSat; split <;> rfl
@[simp] theorem setSat_same_time (f : Field) (pu : Nat) (s : State) : (setSat f pu s).time = s.time := by unfold setSat; split <;> rfl
@[simp] theorem setSat_same_stg (f : Field) (pu : Nat) (s : State) : (setSat f pu s).stg = s.stg := by unfold setSat; split <;> rfl
@[simp] theorem setSat_same_tblWritten (f : Field) (pu : Nat) (s : State) : (setSat f pu s).tblWritten = s.tblWritten := by unfold setSat; split <;> rfl
@[simp] theorem setSat_same_commit (f : Field) (pu : Nat) (s : State) : (setSat f pu s).commit = s.commit := by unfold setSat; split <;> rfl
@[simp] theorem setSat_same_latches (f : Field) (pu : Nat) (s : State) : (setSat f pu s).latches = s.latches := by unfold setSat; split <;> rfl
@[simp] theorem setSat_same_mem (f : Field) (pu : Nat) (s : State) : (setSat f pu s).mem = s.mem := by unfold setSat; split <;> rfl
@[simp] theorem setSat_same_poison (f : Field) (pu : Nat) (s : State) : (setSat f pu s).poison = s.poison := by unfold setSat; split <;> rfl
@[simp] theorem setSat_same_lineBusy (f : Field) (pu : Nat) (s : State) : (setSat f pu s).lineBusy = s.lineBusy := by unfold setSat; split <;> rfl
@[simp] theorem setSat_same_lastRing (f : Field) (pu : Nat) (s : State) : (setSat f pu s).lastRing = s.lastRing := by unfold setSat; split <;> rfl
@[simp] theorem setSat_same_newPoison (f : Field) (pu : Nat) (s : State) : (setSat f pu s).newPoison = s.newPoison := by unfold setSat; split <;> rfl
@[simp] theorem setSat_same_unmet (f : Field) (pu : Nat) (s : State) : (setSat f pu s).unmet = s.unmet := by unfold setSat; split <;> rfl
@[simp] theorem setSat_same_segTags (f : Field) (pu : Nat) (s : State) : (setSat f pu s).segTags = s.segTags := by unfold setSat; split <;> rfl
@[simp] theorem setSat_same_recent (f : Field) (pu : Nat) (s : State) : (setSat f pu s).recent = s.recent := by unfold setSat; split <;> rfl
@[simp] theorem setSat_same_lines (f : Field) (pu : Nat) (s : State) : (setSat f pu s).lines = s.lines := by unfold setSat; split <;> rfl
@[simp] theorem setSat_same_overs (f : Field) (pu : Nat) (s : State) : (setSat f pu s).overs = s.overs := by unfold setSat; split <;> rfl
@[simp] theorem setSat_same_opCount (f : Field) (pu : Nat) (s : State) : (setSat f pu s).opCount = s.opCount := by unfold setSat; split <;> rfl
@[simp] theorem setSat_same_arrs (f : Field) (pu : Nat) (s : State) : (setSat f pu s).arrs = s.arrs := by unfold setSat; split <;> rfl
@[simp] theorem setSat_same_dark (f : Field) (pu : Nat) (s : State) : (setSat f pu s).dark = s.dark := by unfold setSat; split <;> rfl
@[simp] theorem setSat_same_ledger (f : Field) (pu : Nat) (s : State) : (setSat f pu s).ledger = s.ledger := by unfold setSat; split <;> rfl
@[simp] theorem setSat_same_progBase (f : Field) (pu : Nat) (s : State) : (setSat f pu s).progBase = s.progBase := by unfold setSat; split <;> rfl
@[simp] theorem setSat_same_ledgerBase (f : Field) (pu : Nat) (s : State) : (setSat f pu s).ledgerBase = s.ledgerBase := by unfold setSat; split <;> rfl
@[simp] theorem setSat_same_drives (f : Field) (pu : Nat) (s : State) : (setSat f pu s).drives = s.drives := by unfold setSat; split <;> rfl
@[simp] theorem setSat_same_chains (f : Field) (pu : Nat) (s : State) : (setSat f pu s).chains = s.chains := by unfold setSat; split <;> rfl
@[simp] theorem setSat_same_queries (f : Field) (pu : Nat) (s : State) : (setSat f pu s).queries = s.queries := by unfold setSat; split <;> rfl
@[simp] theorem setSat_same_job (f : Field) (pu : Nat) (s : State) : (setSat f pu s).job = s.job := by unfold setSat; split <;> rfl
@[simp] theorem setSat_same_ptp (f : Field) (pu : Nat) (s : State) : (setSat f pu s).ptp = s.ptp := by unfold setSat; split <;> rfl
@[simp] theorem setSat_same_refreshed (f : Field) (pu : Nat) (s : State) : (setSat f pu s).refreshed = s.refreshed := by unfold setSat; split <;> rfl
@[simp] theorem setSat_same_refreshDue (f : Field) (pu : Nat) (s : State) : (setSat f pu s).refreshDue = s.refreshDue := by unfold setSat; split <;> rfl
@[simp] theorem setSat_same_drift (f : Field) (pu : Nat) (s : State) : (setSat f pu s).drift = s.drift := by unfold setSat; split <;> rfl
@[simp] theorem setSat_same_frames (f : Field) (pu : Nat) (s : State) : (setSat f pu s).frames = s.frames := by unfold setSat; split <;> rfl
@[simp] theorem setSat_same_selMaster (f : Field) (pu : Nat) (s : State) : (setSat f pu s).selMaster = s.selMaster := by unfold setSat; split <;> rfl
@[simp] theorem setSat_same_selState (f : Field) (pu : Nat) (s : State) : (setSat f pu s).selState = s.selState := by unfold setSat; split <;> rfl
@[simp] theorem setSat_same_bins (f : Field) (pu : Nat) (s : State) : (setSat f pu s).bins = s.bins := by unfold setSat; split <;> rfl
@[simp] theorem setSat_same_loads (f : Field) (pu : Nat) (s : State) : (setSat f pu s).loads = s.loads := by unfold setSat; split <;> rfl
@[simp] theorem setSat_same_loadCount (f : Field) (pu : Nat) (s : State) : (setSat f pu s).loadCount = s.loadCount := by unfold setSat; split <;> rfl
@[simp] theorem setSat_same_seqx (f : Field) (pu : Nat) (s : State) : (setSat f pu s).seqx = s.seqx := by unfold setSat; split <;> rfl
@[simp] theorem setSat_same_queues (f : Field) (pu : Nat) (s : State) : (setSat f pu s).queues = s.queues := by unfold setSat; split <;> rfl
@[simp] theorem setSat_same_tracker (f : Field) (pu : Nat) (s : State) : (setSat f pu s).tracker = s.tracker := by unfold setSat; split <;> rfl
@[simp] theorem setSat_same_aux (f : Field) (pu : Nat) (s : State) : (setSat f pu s).aux = s.aux := by unfold setSat; split <;> rfl
@[simp] theorem setSat_same_fault (f : Field) (pu : Nat) (s : State) : (setSat f pu s).fault = s.fault := by unfold setSat; split <;> rfl
@[simp] theorem setSat_same_power (f : Field) (pu : Nat) (s : State) : (setSat f pu s).power = s.power := by unfold setSat; split <;> rfl
@[simp] theorem setSat_same_shelf (f : Field) (pu : Nat) (s : State) : (setSat f pu s).shelf = s.shelf := by unfold setSat; split <;> rfl
@[simp] theorem setSat_same_mergedC (f : Field) (pu : Nat) (s : State) : (setSat f pu s).mergedC = s.mergedC := by unfold setSat; split <;> rfl
@[simp] theorem setSat_same_oldLarder (f : Field) (pu : Nat) (s : State) : (setSat f pu s).oldLarder = s.oldLarder := by unfold setSat; split <;> rfl
@[simp] theorem setSat_same_busy (f : Field) (pu : Nat) (s : State) : (setSat f pu s).busy = s.busy := by unfold setSat; split <;> rfl
@[simp] theorem setSat_same_stopAt (f : Field) (pu : Nat) (s : State) : (setSat f pu s).stopAt = s.stopAt := by unfold setSat; split <;> rfl
@[simp] theorem setSat_same_programDied (f : Field) (pu : Nat) (s : State) : (setSat f pu s).programDied = s.programDied := by unfold setSat; split <;> rfl
@[simp] theorem setSat_same_out (f : Field) (pu : Nat) (s : State) : (setSat f pu s).out = s.out := by unfold setSat; split <;> rfl
@[simp] theorem setSat_same_lossSampled (f : Field) (pu : Nat) (s : State) : (setSat f pu s).lossSampled = s.lossSampled := by unfold setSat; split <;> rfl
@[simp] theorem setSat_same_freeCtr (f : Field) (pu : Nat) (s : State) : (setSat f pu s).freeCtr = s.freeCtr := by unfold setSat; split <;> rfl

@[simp] theorem satU_same_pending (f : Field) (u i n pu : Nat) (s : State) : (satU f u i n pu s).pending = s.pending := by unfold satU; dsimp only; split <;> simp
@[simp] theorem satU_same_variant (f : Field) (u i n pu : Nat) (s : State) : (satU f u i n pu s).variant = s.variant := by unfold satU; dsimp only; split <;> simp
@[simp] theorem satU_same_stage (f : Field) (u i n pu : Nat) (s : State) : (satU f u i n pu s).stage = s.stage := by unfold satU; dsimp only; split <;> simp
@[simp] theorem satU_same_d3hot (f : Field) (u i n pu : Nat) (s : State) : (satU f u i n pu s).d3hot = s.d3hot := by unfold satU; dsimp only; split <;> simp
@[simp] theorem satU_same_perst (f : Field) (u i n pu : Nat) (s : State) : (satU f u i n pu s).perst = s.perst := by unfold satU; dsimp only; split <;> simp
@[simp] theorem satU_same_core (f : Field) (u i n pu : Nat) (s : State) : (satU f u i n pu s).core = s.core := by unfold satU; dsimp only; split <;> simp
@[simp] theorem satU_same_time (f : Field) (u i n pu : Nat) (s : State) : (satU f u i n pu s).time = s.time := by unfold satU; dsimp only; split <;> simp
@[simp] theorem satU_same_stg (f : Field) (u i n pu : Nat) (s : State) : (satU f u i n pu s).stg = s.stg := by unfold satU; dsimp only; split <;> simp
@[simp] theorem satU_same_tblWritten (f : Field) (u i n pu : Nat) (s : State) : (satU f u i n pu s).tblWritten = s.tblWritten := by unfold satU; dsimp only; split <;> simp
@[simp] theorem satU_same_commit (f : Field) (u i n pu : Nat) (s : State) : (satU f u i n pu s).commit = s.commit := by unfold satU; dsimp only; split <;> simp
@[simp] theorem satU_same_latches (f : Field) (u i n pu : Nat) (s : State) : (satU f u i n pu s).latches = s.latches := by unfold satU; dsimp only; split <;> simp
@[simp] theorem satU_same_mem (f : Field) (u i n pu : Nat) (s : State) : (satU f u i n pu s).mem = s.mem := by unfold satU; dsimp only; split <;> simp
@[simp] theorem satU_same_poison (f : Field) (u i n pu : Nat) (s : State) : (satU f u i n pu s).poison = s.poison := by unfold satU; dsimp only; split <;> simp
@[simp] theorem satU_same_lineBusy (f : Field) (u i n pu : Nat) (s : State) : (satU f u i n pu s).lineBusy = s.lineBusy := by unfold satU; dsimp only; split <;> simp
@[simp] theorem satU_same_lastRing (f : Field) (u i n pu : Nat) (s : State) : (satU f u i n pu s).lastRing = s.lastRing := by unfold satU; dsimp only; split <;> simp
@[simp] theorem satU_same_newPoison (f : Field) (u i n pu : Nat) (s : State) : (satU f u i n pu s).newPoison = s.newPoison := by unfold satU; dsimp only; split <;> simp
@[simp] theorem satU_same_unmet (f : Field) (u i n pu : Nat) (s : State) : (satU f u i n pu s).unmet = s.unmet := by unfold satU; dsimp only; split <;> simp
@[simp] theorem satU_same_segTags (f : Field) (u i n pu : Nat) (s : State) : (satU f u i n pu s).segTags = s.segTags := by unfold satU; dsimp only; split <;> simp
@[simp] theorem satU_same_recent (f : Field) (u i n pu : Nat) (s : State) : (satU f u i n pu s).recent = s.recent := by unfold satU; dsimp only; split <;> simp
@[simp] theorem satU_same_lines (f : Field) (u i n pu : Nat) (s : State) : (satU f u i n pu s).lines = s.lines := by unfold satU; dsimp only; split <;> simp
@[simp] theorem satU_same_overs (f : Field) (u i n pu : Nat) (s : State) : (satU f u i n pu s).overs = s.overs := by unfold satU; dsimp only; split <;> simp
@[simp] theorem satU_same_opCount (f : Field) (u i n pu : Nat) (s : State) : (satU f u i n pu s).opCount = s.opCount := by unfold satU; dsimp only; split <;> simp
@[simp] theorem satU_same_arrs (f : Field) (u i n pu : Nat) (s : State) : (satU f u i n pu s).arrs = s.arrs := by unfold satU; dsimp only; split <;> simp
@[simp] theorem satU_same_dark (f : Field) (u i n pu : Nat) (s : State) : (satU f u i n pu s).dark = s.dark := by unfold satU; dsimp only; split <;> simp
@[simp] theorem satU_same_ledger (f : Field) (u i n pu : Nat) (s : State) : (satU f u i n pu s).ledger = s.ledger := by unfold satU; dsimp only; split <;> simp
@[simp] theorem satU_same_progBase (f : Field) (u i n pu : Nat) (s : State) : (satU f u i n pu s).progBase = s.progBase := by unfold satU; dsimp only; split <;> simp
@[simp] theorem satU_same_ledgerBase (f : Field) (u i n pu : Nat) (s : State) : (satU f u i n pu s).ledgerBase = s.ledgerBase := by unfold satU; dsimp only; split <;> simp
@[simp] theorem satU_same_drives (f : Field) (u i n pu : Nat) (s : State) : (satU f u i n pu s).drives = s.drives := by unfold satU; dsimp only; split <;> simp
@[simp] theorem satU_same_chains (f : Field) (u i n pu : Nat) (s : State) : (satU f u i n pu s).chains = s.chains := by unfold satU; dsimp only; split <;> simp
@[simp] theorem satU_same_queries (f : Field) (u i n pu : Nat) (s : State) : (satU f u i n pu s).queries = s.queries := by unfold satU; dsimp only; split <;> simp
@[simp] theorem satU_same_job (f : Field) (u i n pu : Nat) (s : State) : (satU f u i n pu s).job = s.job := by unfold satU; dsimp only; split <;> simp
@[simp] theorem satU_same_ptp (f : Field) (u i n pu : Nat) (s : State) : (satU f u i n pu s).ptp = s.ptp := by unfold satU; dsimp only; split <;> simp
@[simp] theorem satU_same_refreshed (f : Field) (u i n pu : Nat) (s : State) : (satU f u i n pu s).refreshed = s.refreshed := by unfold satU; dsimp only; split <;> simp
@[simp] theorem satU_same_refreshDue (f : Field) (u i n pu : Nat) (s : State) : (satU f u i n pu s).refreshDue = s.refreshDue := by unfold satU; dsimp only; split <;> simp
@[simp] theorem satU_same_drift (f : Field) (u i n pu : Nat) (s : State) : (satU f u i n pu s).drift = s.drift := by unfold satU; dsimp only; split <;> simp
@[simp] theorem satU_same_frames (f : Field) (u i n pu : Nat) (s : State) : (satU f u i n pu s).frames = s.frames := by unfold satU; dsimp only; split <;> simp
@[simp] theorem satU_same_selMaster (f : Field) (u i n pu : Nat) (s : State) : (satU f u i n pu s).selMaster = s.selMaster := by unfold satU; dsimp only; split <;> simp
@[simp] theorem satU_same_selState (f : Field) (u i n pu : Nat) (s : State) : (satU f u i n pu s).selState = s.selState := by unfold satU; dsimp only; split <;> simp
@[simp] theorem satU_same_bins (f : Field) (u i n pu : Nat) (s : State) : (satU f u i n pu s).bins = s.bins := by unfold satU; dsimp only; split <;> simp
@[simp] theorem satU_same_loads (f : Field) (u i n pu : Nat) (s : State) : (satU f u i n pu s).loads = s.loads := by unfold satU; dsimp only; split <;> simp
@[simp] theorem satU_same_loadCount (f : Field) (u i n pu : Nat) (s : State) : (satU f u i n pu s).loadCount = s.loadCount := by unfold satU; dsimp only; split <;> simp
@[simp] theorem satU_same_seqx (f : Field) (u i n pu : Nat) (s : State) : (satU f u i n pu s).seqx = s.seqx := by unfold satU; dsimp only; split <;> simp
@[simp] theorem satU_same_queues (f : Field) (u i n pu : Nat) (s : State) : (satU f u i n pu s).queues = s.queues := by unfold satU; dsimp only; split <;> simp
@[simp] theorem satU_same_tracker (f : Field) (u i n pu : Nat) (s : State) : (satU f u i n pu s).tracker = s.tracker := by unfold satU; dsimp only; split <;> simp
@[simp] theorem satU_same_aux (f : Field) (u i n pu : Nat) (s : State) : (satU f u i n pu s).aux = s.aux := by unfold satU; dsimp only; split <;> simp
@[simp] theorem satU_same_fault (f : Field) (u i n pu : Nat) (s : State) : (satU f u i n pu s).fault = s.fault := by unfold satU; dsimp only; split <;> simp
@[simp] theorem satU_same_power (f : Field) (u i n pu : Nat) (s : State) : (satU f u i n pu s).power = s.power := by unfold satU; dsimp only; split <;> simp
@[simp] theorem satU_same_shelf (f : Field) (u i n pu : Nat) (s : State) : (satU f u i n pu s).shelf = s.shelf := by unfold satU; dsimp only; split <;> simp
@[simp] theorem satU_same_mergedC (f : Field) (u i n pu : Nat) (s : State) : (satU f u i n pu s).mergedC = s.mergedC := by unfold satU; dsimp only; split <;> simp
@[simp] theorem satU_same_oldLarder (f : Field) (u i n pu : Nat) (s : State) : (satU f u i n pu s).oldLarder = s.oldLarder := by unfold satU; dsimp only; split <;> simp
@[simp] theorem satU_same_busy (f : Field) (u i n pu : Nat) (s : State) : (satU f u i n pu s).busy = s.busy := by unfold satU; dsimp only; split <;> simp
@[simp] theorem satU_same_stopAt (f : Field) (u i n pu : Nat) (s : State) : (satU f u i n pu s).stopAt = s.stopAt := by unfold satU; dsimp only; split <;> simp
@[simp] theorem satU_same_programDied (f : Field) (u i n pu : Nat) (s : State) : (satU f u i n pu s).programDied = s.programDied := by unfold satU; dsimp only; split <;> simp
@[simp] theorem satU_same_out (f : Field) (u i n pu : Nat) (s : State) : (satU f u i n pu s).out = s.out := by unfold satU; dsimp only; split <;> simp
@[simp] theorem satU_same_lossSampled (f : Field) (u i n pu : Nat) (s : State) : (satU f u i n pu s).lossSampled = s.lossSampled := by unfold satU; dsimp only; split <;> simp
@[simp] theorem satU_same_freeCtr (f : Field) (u i n pu : Nat) (s : State) : (satU f u i n pu s).freeCtr = s.freeCtr := by unfold satU; dsimp only; split <;> simp

@[simp] theorem sat_same_pending (f : Field) (inst i n : Nat) (s : State) : (sat f inst i n s).pending = s.pending := by unfold sat; simp
@[simp] theorem sat_same_variant (f : Field) (inst i n : Nat) (s : State) : (sat f inst i n s).variant = s.variant := by unfold sat; simp
@[simp] theorem sat_same_stage (f : Field) (inst i n : Nat) (s : State) : (sat f inst i n s).stage = s.stage := by unfold sat; simp
@[simp] theorem sat_same_d3hot (f : Field) (inst i n : Nat) (s : State) : (sat f inst i n s).d3hot = s.d3hot := by unfold sat; simp
@[simp] theorem sat_same_perst (f : Field) (inst i n : Nat) (s : State) : (sat f inst i n s).perst = s.perst := by unfold sat; simp
@[simp] theorem sat_same_core (f : Field) (inst i n : Nat) (s : State) : (sat f inst i n s).core = s.core := by unfold sat; simp
@[simp] theorem sat_same_time (f : Field) (inst i n : Nat) (s : State) : (sat f inst i n s).time = s.time := by unfold sat; simp
@[simp] theorem sat_same_stg (f : Field) (inst i n : Nat) (s : State) : (sat f inst i n s).stg = s.stg := by unfold sat; simp
@[simp] theorem sat_same_tblWritten (f : Field) (inst i n : Nat) (s : State) : (sat f inst i n s).tblWritten = s.tblWritten := by unfold sat; simp
@[simp] theorem sat_same_commit (f : Field) (inst i n : Nat) (s : State) : (sat f inst i n s).commit = s.commit := by unfold sat; simp
@[simp] theorem sat_same_latches (f : Field) (inst i n : Nat) (s : State) : (sat f inst i n s).latches = s.latches := by unfold sat; simp
@[simp] theorem sat_same_mem (f : Field) (inst i n : Nat) (s : State) : (sat f inst i n s).mem = s.mem := by unfold sat; simp
@[simp] theorem sat_same_poison (f : Field) (inst i n : Nat) (s : State) : (sat f inst i n s).poison = s.poison := by unfold sat; simp
@[simp] theorem sat_same_lineBusy (f : Field) (inst i n : Nat) (s : State) : (sat f inst i n s).lineBusy = s.lineBusy := by unfold sat; simp
@[simp] theorem sat_same_lastRing (f : Field) (inst i n : Nat) (s : State) : (sat f inst i n s).lastRing = s.lastRing := by unfold sat; simp
@[simp] theorem sat_same_newPoison (f : Field) (inst i n : Nat) (s : State) : (sat f inst i n s).newPoison = s.newPoison := by unfold sat; simp
@[simp] theorem sat_same_unmet (f : Field) (inst i n : Nat) (s : State) : (sat f inst i n s).unmet = s.unmet := by unfold sat; simp
@[simp] theorem sat_same_segTags (f : Field) (inst i n : Nat) (s : State) : (sat f inst i n s).segTags = s.segTags := by unfold sat; simp
@[simp] theorem sat_same_recent (f : Field) (inst i n : Nat) (s : State) : (sat f inst i n s).recent = s.recent := by unfold sat; simp
@[simp] theorem sat_same_lines (f : Field) (inst i n : Nat) (s : State) : (sat f inst i n s).lines = s.lines := by unfold sat; simp
@[simp] theorem sat_same_overs (f : Field) (inst i n : Nat) (s : State) : (sat f inst i n s).overs = s.overs := by unfold sat; simp
@[simp] theorem sat_same_opCount (f : Field) (inst i n : Nat) (s : State) : (sat f inst i n s).opCount = s.opCount := by unfold sat; simp
@[simp] theorem sat_same_arrs (f : Field) (inst i n : Nat) (s : State) : (sat f inst i n s).arrs = s.arrs := by unfold sat; simp
@[simp] theorem sat_same_dark (f : Field) (inst i n : Nat) (s : State) : (sat f inst i n s).dark = s.dark := by unfold sat; simp
@[simp] theorem sat_same_ledger (f : Field) (inst i n : Nat) (s : State) : (sat f inst i n s).ledger = s.ledger := by unfold sat; simp
@[simp] theorem sat_same_progBase (f : Field) (inst i n : Nat) (s : State) : (sat f inst i n s).progBase = s.progBase := by unfold sat; simp
@[simp] theorem sat_same_ledgerBase (f : Field) (inst i n : Nat) (s : State) : (sat f inst i n s).ledgerBase = s.ledgerBase := by unfold sat; simp
@[simp] theorem sat_same_drives (f : Field) (inst i n : Nat) (s : State) : (sat f inst i n s).drives = s.drives := by unfold sat; simp
@[simp] theorem sat_same_chains (f : Field) (inst i n : Nat) (s : State) : (sat f inst i n s).chains = s.chains := by unfold sat; simp
@[simp] theorem sat_same_queries (f : Field) (inst i n : Nat) (s : State) : (sat f inst i n s).queries = s.queries := by unfold sat; simp
@[simp] theorem sat_same_job (f : Field) (inst i n : Nat) (s : State) : (sat f inst i n s).job = s.job := by unfold sat; simp
@[simp] theorem sat_same_ptp (f : Field) (inst i n : Nat) (s : State) : (sat f inst i n s).ptp = s.ptp := by unfold sat; simp
@[simp] theorem sat_same_refreshed (f : Field) (inst i n : Nat) (s : State) : (sat f inst i n s).refreshed = s.refreshed := by unfold sat; simp
@[simp] theorem sat_same_refreshDue (f : Field) (inst i n : Nat) (s : State) : (sat f inst i n s).refreshDue = s.refreshDue := by unfold sat; simp
@[simp] theorem sat_same_drift (f : Field) (inst i n : Nat) (s : State) : (sat f inst i n s).drift = s.drift := by unfold sat; simp
@[simp] theorem sat_same_frames (f : Field) (inst i n : Nat) (s : State) : (sat f inst i n s).frames = s.frames := by unfold sat; simp
@[simp] theorem sat_same_selMaster (f : Field) (inst i n : Nat) (s : State) : (sat f inst i n s).selMaster = s.selMaster := by unfold sat; simp
@[simp] theorem sat_same_selState (f : Field) (inst i n : Nat) (s : State) : (sat f inst i n s).selState = s.selState := by unfold sat; simp
@[simp] theorem sat_same_bins (f : Field) (inst i n : Nat) (s : State) : (sat f inst i n s).bins = s.bins := by unfold sat; simp
@[simp] theorem sat_same_loads (f : Field) (inst i n : Nat) (s : State) : (sat f inst i n s).loads = s.loads := by unfold sat; simp
@[simp] theorem sat_same_loadCount (f : Field) (inst i n : Nat) (s : State) : (sat f inst i n s).loadCount = s.loadCount := by unfold sat; simp
@[simp] theorem sat_same_seqx (f : Field) (inst i n : Nat) (s : State) : (sat f inst i n s).seqx = s.seqx := by unfold sat; simp
@[simp] theorem sat_same_queues (f : Field) (inst i n : Nat) (s : State) : (sat f inst i n s).queues = s.queues := by unfold sat; simp
@[simp] theorem sat_same_tracker (f : Field) (inst i n : Nat) (s : State) : (sat f inst i n s).tracker = s.tracker := by unfold sat; simp
@[simp] theorem sat_same_aux (f : Field) (inst i n : Nat) (s : State) : (sat f inst i n s).aux = s.aux := by unfold sat; simp
@[simp] theorem sat_same_fault (f : Field) (inst i n : Nat) (s : State) : (sat f inst i n s).fault = s.fault := by unfold sat; simp
@[simp] theorem sat_same_power (f : Field) (inst i n : Nat) (s : State) : (sat f inst i n s).power = s.power := by unfold sat; simp
@[simp] theorem sat_same_shelf (f : Field) (inst i n : Nat) (s : State) : (sat f inst i n s).shelf = s.shelf := by unfold sat; simp
@[simp] theorem sat_same_mergedC (f : Field) (inst i n : Nat) (s : State) : (sat f inst i n s).mergedC = s.mergedC := by unfold sat; simp
@[simp] theorem sat_same_oldLarder (f : Field) (inst i n : Nat) (s : State) : (sat f inst i n s).oldLarder = s.oldLarder := by unfold sat; simp
@[simp] theorem sat_same_busy (f : Field) (inst i n : Nat) (s : State) : (sat f inst i n s).busy = s.busy := by unfold sat; simp
@[simp] theorem sat_same_stopAt (f : Field) (inst i n : Nat) (s : State) : (sat f inst i n s).stopAt = s.stopAt := by unfold sat; simp
@[simp] theorem sat_same_programDied (f : Field) (inst i n : Nat) (s : State) : (sat f inst i n s).programDied = s.programDied := by unfold sat; simp
@[simp] theorem sat_same_out (f : Field) (inst i n : Nat) (s : State) : (sat f inst i n s).out = s.out := by unfold sat; simp
@[simp] theorem sat_same_lossSampled (f : Field) (inst i n : Nat) (s : State) : (sat f inst i n s).lossSampled = s.lossSampled := by unfold sat; simp
@[simp] theorem sat_same_freeCtr (f : Field) (inst i n : Nat) (s : State) : (sat f inst i n s).freeCtr = s.freeCtr := by unfold sat; simp

@[simp] theorem emit_same_pending (o : Output) (s : State) : (emit o s).pending = s.pending := rfl
@[simp] theorem emit_same_variant (o : Output) (s : State) : (emit o s).variant = s.variant := rfl
@[simp] theorem emit_same_stage (o : Output) (s : State) : (emit o s).stage = s.stage := rfl
@[simp] theorem emit_same_d3hot (o : Output) (s : State) : (emit o s).d3hot = s.d3hot := rfl
@[simp] theorem emit_same_perst (o : Output) (s : State) : (emit o s).perst = s.perst := rfl
@[simp] theorem emit_same_core (o : Output) (s : State) : (emit o s).core = s.core := rfl
@[simp] theorem emit_same_time (o : Output) (s : State) : (emit o s).time = s.time := rfl
@[simp] theorem emit_same_flds (o : Output) (s : State) : (emit o s).flds = s.flds := rfl
@[simp] theorem emit_same_stg (o : Output) (s : State) : (emit o s).stg = s.stg := rfl
@[simp] theorem emit_same_tblWritten (o : Output) (s : State) : (emit o s).tblWritten = s.tblWritten := rfl
@[simp] theorem emit_same_commit (o : Output) (s : State) : (emit o s).commit = s.commit := rfl
@[simp] theorem emit_same_latches (o : Output) (s : State) : (emit o s).latches = s.latches := rfl
@[simp] theorem emit_same_mem (o : Output) (s : State) : (emit o s).mem = s.mem := rfl
@[simp] theorem emit_same_poison (o : Output) (s : State) : (emit o s).poison = s.poison := rfl
@[simp] theorem emit_same_lineBusy (o : Output) (s : State) : (emit o s).lineBusy = s.lineBusy := rfl
@[simp] theorem emit_same_lastRing (o : Output) (s : State) : (emit o s).lastRing = s.lastRing := rfl
@[simp] theorem emit_same_newPoison (o : Output) (s : State) : (emit o s).newPoison = s.newPoison := rfl
@[simp] theorem emit_same_unmet (o : Output) (s : State) : (emit o s).unmet = s.unmet := rfl
@[simp] theorem emit_same_segTags (o : Output) (s : State) : (emit o s).segTags = s.segTags := rfl
@[simp] theorem emit_same_recent (o : Output) (s : State) : (emit o s).recent = s.recent := rfl
@[simp] theorem emit_same_lines (o : Output) (s : State) : (emit o s).lines = s.lines := rfl
@[simp] theorem emit_same_overs (o : Output) (s : State) : (emit o s).overs = s.overs := rfl
@[simp] theorem emit_same_opCount (o : Output) (s : State) : (emit o s).opCount = s.opCount := rfl
@[simp] theorem emit_same_arrs (o : Output) (s : State) : (emit o s).arrs = s.arrs := rfl
@[simp] theorem emit_same_dark (o : Output) (s : State) : (emit o s).dark = s.dark := rfl
@[simp] theorem emit_same_ledger (o : Output) (s : State) : (emit o s).ledger = s.ledger := rfl
@[simp] theorem emit_same_progBase (o : Output) (s : State) : (emit o s).progBase = s.progBase := rfl
@[simp] theorem emit_same_ledgerBase (o : Output) (s : State) : (emit o s).ledgerBase = s.ledgerBase := rfl
@[simp] theorem emit_same_drives (o : Output) (s : State) : (emit o s).drives = s.drives := rfl
@[simp] theorem emit_same_chains (o : Output) (s : State) : (emit o s).chains = s.chains := rfl
@[simp] theorem emit_same_queries (o : Output) (s : State) : (emit o s).queries = s.queries := rfl
@[simp] theorem emit_same_job (o : Output) (s : State) : (emit o s).job = s.job := rfl
@[simp] theorem emit_same_ptp (o : Output) (s : State) : (emit o s).ptp = s.ptp := rfl
@[simp] theorem emit_same_refreshed (o : Output) (s : State) : (emit o s).refreshed = s.refreshed := rfl
@[simp] theorem emit_same_refreshDue (o : Output) (s : State) : (emit o s).refreshDue = s.refreshDue := rfl
@[simp] theorem emit_same_drift (o : Output) (s : State) : (emit o s).drift = s.drift := rfl
@[simp] theorem emit_same_frames (o : Output) (s : State) : (emit o s).frames = s.frames := rfl
@[simp] theorem emit_same_selMaster (o : Output) (s : State) : (emit o s).selMaster = s.selMaster := rfl
@[simp] theorem emit_same_selState (o : Output) (s : State) : (emit o s).selState = s.selState := rfl
@[simp] theorem emit_same_bins (o : Output) (s : State) : (emit o s).bins = s.bins := rfl
@[simp] theorem emit_same_loads (o : Output) (s : State) : (emit o s).loads = s.loads := rfl
@[simp] theorem emit_same_loadCount (o : Output) (s : State) : (emit o s).loadCount = s.loadCount := rfl
@[simp] theorem emit_same_seqx (o : Output) (s : State) : (emit o s).seqx = s.seqx := rfl
@[simp] theorem emit_same_queues (o : Output) (s : State) : (emit o s).queues = s.queues := rfl
@[simp] theorem emit_same_tracker (o : Output) (s : State) : (emit o s).tracker = s.tracker := rfl
@[simp] theorem emit_same_aux (o : Output) (s : State) : (emit o s).aux = s.aux := rfl
@[simp] theorem emit_same_fault (o : Output) (s : State) : (emit o s).fault = s.fault := rfl
@[simp] theorem emit_same_power (o : Output) (s : State) : (emit o s).power = s.power := rfl
@[simp] theorem emit_same_shelf (o : Output) (s : State) : (emit o s).shelf = s.shelf := rfl
@[simp] theorem emit_same_mergedC (o : Output) (s : State) : (emit o s).mergedC = s.mergedC := rfl
@[simp] theorem emit_same_oldLarder (o : Output) (s : State) : (emit o s).oldLarder = s.oldLarder := rfl
@[simp] theorem emit_same_busy (o : Output) (s : State) : (emit o s).busy = s.busy := rfl
@[simp] theorem emit_same_stopAt (o : Output) (s : State) : (emit o s).stopAt = s.stopAt := rfl
@[simp] theorem emit_same_programDied (o : Output) (s : State) : (emit o s).programDied = s.programDied := rfl
@[simp] theorem emit_same_lossSampled (o : Output) (s : State) : (emit o s).lossSampled = s.lossSampled := rfl
@[simp] theorem emit_same_freeCtr (o : Output) (s : State) : (emit o s).freeCtr = s.freeCtr := rfl

@[simp] theorem advanceTo_same_pending (c : Nat) (s : State) : (advanceTo c s).pending = s.pending := rfl
@[simp] theorem advanceTo_same_variant (c : Nat) (s : State) : (advanceTo c s).variant = s.variant := rfl
@[simp] theorem advanceTo_same_stage (c : Nat) (s : State) : (advanceTo c s).stage = s.stage := rfl
@[simp] theorem advanceTo_same_d3hot (c : Nat) (s : State) : (advanceTo c s).d3hot = s.d3hot := rfl
@[simp] theorem advanceTo_same_perst (c : Nat) (s : State) : (advanceTo c s).perst = s.perst := rfl
@[simp] theorem advanceTo_same_flds (c : Nat) (s : State) : (advanceTo c s).flds = s.flds := rfl
@[simp] theorem advanceTo_same_stg (c : Nat) (s : State) : (advanceTo c s).stg = s.stg := rfl
@[simp] theorem advanceTo_same_tblWritten (c : Nat) (s : State) : (advanceTo c s).tblWritten = s.tblWritten := rfl
@[simp] theorem advanceTo_same_commit (c : Nat) (s : State) : (advanceTo c s).commit = s.commit := rfl
@[simp] theorem advanceTo_same_latches (c : Nat) (s : State) : (advanceTo c s).latches = s.latches := rfl
@[simp] theorem advanceTo_same_mem (c : Nat) (s : State) : (advanceTo c s).mem = s.mem := rfl
@[simp] theorem advanceTo_same_poison (c : Nat) (s : State) : (advanceTo c s).poison = s.poison := rfl
@[simp] theorem advanceTo_same_lineBusy (c : Nat) (s : State) : (advanceTo c s).lineBusy = s.lineBusy := rfl
@[simp] theorem advanceTo_same_lastRing (c : Nat) (s : State) : (advanceTo c s).lastRing = s.lastRing := rfl
@[simp] theorem advanceTo_same_newPoison (c : Nat) (s : State) : (advanceTo c s).newPoison = s.newPoison := rfl
@[simp] theorem advanceTo_same_unmet (c : Nat) (s : State) : (advanceTo c s).unmet = s.unmet := rfl
@[simp] theorem advanceTo_same_segTags (c : Nat) (s : State) : (advanceTo c s).segTags = s.segTags := rfl
@[simp] theorem advanceTo_same_recent (c : Nat) (s : State) : (advanceTo c s).recent = s.recent := rfl
@[simp] theorem advanceTo_same_lines (c : Nat) (s : State) : (advanceTo c s).lines = s.lines := rfl
@[simp] theorem advanceTo_same_overs (c : Nat) (s : State) : (advanceTo c s).overs = s.overs := rfl
@[simp] theorem advanceTo_same_opCount (c : Nat) (s : State) : (advanceTo c s).opCount = s.opCount := rfl
@[simp] theorem advanceTo_same_arrs (c : Nat) (s : State) : (advanceTo c s).arrs = s.arrs := rfl
@[simp] theorem advanceTo_same_dark (c : Nat) (s : State) : (advanceTo c s).dark = s.dark := rfl
@[simp] theorem advanceTo_same_ledger (c : Nat) (s : State) : (advanceTo c s).ledger = s.ledger := rfl
@[simp] theorem advanceTo_same_progBase (c : Nat) (s : State) : (advanceTo c s).progBase = s.progBase := rfl
@[simp] theorem advanceTo_same_ledgerBase (c : Nat) (s : State) : (advanceTo c s).ledgerBase = s.ledgerBase := rfl
@[simp] theorem advanceTo_same_drives (c : Nat) (s : State) : (advanceTo c s).drives = s.drives := rfl
@[simp] theorem advanceTo_same_chains (c : Nat) (s : State) : (advanceTo c s).chains = s.chains := rfl
@[simp] theorem advanceTo_same_queries (c : Nat) (s : State) : (advanceTo c s).queries = s.queries := rfl
@[simp] theorem advanceTo_same_job (c : Nat) (s : State) : (advanceTo c s).job = s.job := rfl
@[simp] theorem advanceTo_same_ptp (c : Nat) (s : State) : (advanceTo c s).ptp = s.ptp := rfl
@[simp] theorem advanceTo_same_refreshed (c : Nat) (s : State) : (advanceTo c s).refreshed = s.refreshed := rfl
@[simp] theorem advanceTo_same_refreshDue (c : Nat) (s : State) : (advanceTo c s).refreshDue = s.refreshDue := rfl
@[simp] theorem advanceTo_same_drift (c : Nat) (s : State) : (advanceTo c s).drift = s.drift := rfl
@[simp] theorem advanceTo_same_frames (c : Nat) (s : State) : (advanceTo c s).frames = s.frames := rfl
@[simp] theorem advanceTo_same_selMaster (c : Nat) (s : State) : (advanceTo c s).selMaster = s.selMaster := rfl
@[simp] theorem advanceTo_same_selState (c : Nat) (s : State) : (advanceTo c s).selState = s.selState := rfl
@[simp] theorem advanceTo_same_bins (c : Nat) (s : State) : (advanceTo c s).bins = s.bins := rfl
@[simp] theorem advanceTo_same_loads (c : Nat) (s : State) : (advanceTo c s).loads = s.loads := rfl
@[simp] theorem advanceTo_same_loadCount (c : Nat) (s : State) : (advanceTo c s).loadCount = s.loadCount := rfl
@[simp] theorem advanceTo_same_seqx (c : Nat) (s : State) : (advanceTo c s).seqx = s.seqx := rfl
@[simp] theorem advanceTo_same_queues (c : Nat) (s : State) : (advanceTo c s).queues = s.queues := rfl
@[simp] theorem advanceTo_same_tracker (c : Nat) (s : State) : (advanceTo c s).tracker = s.tracker := rfl
@[simp] theorem advanceTo_same_aux (c : Nat) (s : State) : (advanceTo c s).aux = s.aux := rfl
@[simp] theorem advanceTo_same_fault (c : Nat) (s : State) : (advanceTo c s).fault = s.fault := rfl
@[simp] theorem advanceTo_same_power (c : Nat) (s : State) : (advanceTo c s).power = s.power := rfl
@[simp] theorem advanceTo_same_shelf (c : Nat) (s : State) : (advanceTo c s).shelf = s.shelf := rfl
@[simp] theorem advanceTo_same_mergedC (c : Nat) (s : State) : (advanceTo c s).mergedC = s.mergedC := rfl
@[simp] theorem advanceTo_same_oldLarder (c : Nat) (s : State) : (advanceTo c s).oldLarder = s.oldLarder := rfl
@[simp] theorem advanceTo_same_busy (c : Nat) (s : State) : (advanceTo c s).busy = s.busy := rfl
@[simp] theorem advanceTo_same_stopAt (c : Nat) (s : State) : (advanceTo c s).stopAt = s.stopAt := rfl
@[simp] theorem advanceTo_same_programDied (c : Nat) (s : State) : (advanceTo c s).programDied = s.programDied := rfl
@[simp] theorem advanceTo_same_out (c : Nat) (s : State) : (advanceTo c s).out = s.out := rfl
@[simp] theorem advanceTo_same_lossSampled (c : Nat) (s : State) : (advanceTo c s).lossSampled = s.lossSampled := rfl
@[simp] theorem advanceTo_same_freeCtr (c : Nat) (s : State) : (advanceTo c s).freeCtr = s.freeCtr := rfl

@[simp] theorem clearSatBit_same_pending (f : Field) (pu : Nat) (s : State) : (clearSatBit f pu s).pending = s.pending := rfl
@[simp] theorem clearSatBit_same_variant (f : Field) (pu : Nat) (s : State) : (clearSatBit f pu s).variant = s.variant := rfl
@[simp] theorem clearSatBit_same_stage (f : Field) (pu : Nat) (s : State) : (clearSatBit f pu s).stage = s.stage := rfl
@[simp] theorem clearSatBit_same_d3hot (f : Field) (pu : Nat) (s : State) : (clearSatBit f pu s).d3hot = s.d3hot := rfl
@[simp] theorem clearSatBit_same_perst (f : Field) (pu : Nat) (s : State) : (clearSatBit f pu s).perst = s.perst := rfl
@[simp] theorem clearSatBit_same_core (f : Field) (pu : Nat) (s : State) : (clearSatBit f pu s).core = s.core := rfl
@[simp] theorem clearSatBit_same_time (f : Field) (pu : Nat) (s : State) : (clearSatBit f pu s).time = s.time := rfl
@[simp] theorem clearSatBit_same_stg (f : Field) (pu : Nat) (s : State) : (clearSatBit f pu s).stg = s.stg := rfl
@[simp] theorem clearSatBit_same_tblWritten (f : Field) (pu : Nat) (s : State) : (clearSatBit f pu s).tblWritten = s.tblWritten := rfl
@[simp] theorem clearSatBit_same_commit (f : Field) (pu : Nat) (s : State) : (clearSatBit f pu s).commit = s.commit := rfl
@[simp] theorem clearSatBit_same_latches (f : Field) (pu : Nat) (s : State) : (clearSatBit f pu s).latches = s.latches := rfl
@[simp] theorem clearSatBit_same_mem (f : Field) (pu : Nat) (s : State) : (clearSatBit f pu s).mem = s.mem := rfl
@[simp] theorem clearSatBit_same_poison (f : Field) (pu : Nat) (s : State) : (clearSatBit f pu s).poison = s.poison := rfl
@[simp] theorem clearSatBit_same_lineBusy (f : Field) (pu : Nat) (s : State) : (clearSatBit f pu s).lineBusy = s.lineBusy := rfl
@[simp] theorem clearSatBit_same_lastRing (f : Field) (pu : Nat) (s : State) : (clearSatBit f pu s).lastRing = s.lastRing := rfl
@[simp] theorem clearSatBit_same_newPoison (f : Field) (pu : Nat) (s : State) : (clearSatBit f pu s).newPoison = s.newPoison := rfl
@[simp] theorem clearSatBit_same_unmet (f : Field) (pu : Nat) (s : State) : (clearSatBit f pu s).unmet = s.unmet := rfl
@[simp] theorem clearSatBit_same_segTags (f : Field) (pu : Nat) (s : State) : (clearSatBit f pu s).segTags = s.segTags := rfl
@[simp] theorem clearSatBit_same_recent (f : Field) (pu : Nat) (s : State) : (clearSatBit f pu s).recent = s.recent := rfl
@[simp] theorem clearSatBit_same_lines (f : Field) (pu : Nat) (s : State) : (clearSatBit f pu s).lines = s.lines := rfl
@[simp] theorem clearSatBit_same_overs (f : Field) (pu : Nat) (s : State) : (clearSatBit f pu s).overs = s.overs := rfl
@[simp] theorem clearSatBit_same_opCount (f : Field) (pu : Nat) (s : State) : (clearSatBit f pu s).opCount = s.opCount := rfl
@[simp] theorem clearSatBit_same_arrs (f : Field) (pu : Nat) (s : State) : (clearSatBit f pu s).arrs = s.arrs := rfl
@[simp] theorem clearSatBit_same_dark (f : Field) (pu : Nat) (s : State) : (clearSatBit f pu s).dark = s.dark := rfl
@[simp] theorem clearSatBit_same_ledger (f : Field) (pu : Nat) (s : State) : (clearSatBit f pu s).ledger = s.ledger := rfl
@[simp] theorem clearSatBit_same_progBase (f : Field) (pu : Nat) (s : State) : (clearSatBit f pu s).progBase = s.progBase := rfl
@[simp] theorem clearSatBit_same_ledgerBase (f : Field) (pu : Nat) (s : State) : (clearSatBit f pu s).ledgerBase = s.ledgerBase := rfl
@[simp] theorem clearSatBit_same_drives (f : Field) (pu : Nat) (s : State) : (clearSatBit f pu s).drives = s.drives := rfl
@[simp] theorem clearSatBit_same_chains (f : Field) (pu : Nat) (s : State) : (clearSatBit f pu s).chains = s.chains := rfl
@[simp] theorem clearSatBit_same_queries (f : Field) (pu : Nat) (s : State) : (clearSatBit f pu s).queries = s.queries := rfl
@[simp] theorem clearSatBit_same_job (f : Field) (pu : Nat) (s : State) : (clearSatBit f pu s).job = s.job := rfl
@[simp] theorem clearSatBit_same_ptp (f : Field) (pu : Nat) (s : State) : (clearSatBit f pu s).ptp = s.ptp := rfl
@[simp] theorem clearSatBit_same_refreshed (f : Field) (pu : Nat) (s : State) : (clearSatBit f pu s).refreshed = s.refreshed := rfl
@[simp] theorem clearSatBit_same_refreshDue (f : Field) (pu : Nat) (s : State) : (clearSatBit f pu s).refreshDue = s.refreshDue := rfl
@[simp] theorem clearSatBit_same_drift (f : Field) (pu : Nat) (s : State) : (clearSatBit f pu s).drift = s.drift := rfl
@[simp] theorem clearSatBit_same_frames (f : Field) (pu : Nat) (s : State) : (clearSatBit f pu s).frames = s.frames := rfl
@[simp] theorem clearSatBit_same_selMaster (f : Field) (pu : Nat) (s : State) : (clearSatBit f pu s).selMaster = s.selMaster := rfl
@[simp] theorem clearSatBit_same_selState (f : Field) (pu : Nat) (s : State) : (clearSatBit f pu s).selState = s.selState := rfl
@[simp] theorem clearSatBit_same_bins (f : Field) (pu : Nat) (s : State) : (clearSatBit f pu s).bins = s.bins := rfl
@[simp] theorem clearSatBit_same_loads (f : Field) (pu : Nat) (s : State) : (clearSatBit f pu s).loads = s.loads := rfl
@[simp] theorem clearSatBit_same_loadCount (f : Field) (pu : Nat) (s : State) : (clearSatBit f pu s).loadCount = s.loadCount := rfl
@[simp] theorem clearSatBit_same_seqx (f : Field) (pu : Nat) (s : State) : (clearSatBit f pu s).seqx = s.seqx := rfl
@[simp] theorem clearSatBit_same_queues (f : Field) (pu : Nat) (s : State) : (clearSatBit f pu s).queues = s.queues := rfl
@[simp] theorem clearSatBit_same_tracker (f : Field) (pu : Nat) (s : State) : (clearSatBit f pu s).tracker = s.tracker := rfl
@[simp] theorem clearSatBit_same_aux (f : Field) (pu : Nat) (s : State) : (clearSatBit f pu s).aux = s.aux := rfl
@[simp] theorem clearSatBit_same_fault (f : Field) (pu : Nat) (s : State) : (clearSatBit f pu s).fault = s.fault := rfl
@[simp] theorem clearSatBit_same_power (f : Field) (pu : Nat) (s : State) : (clearSatBit f pu s).power = s.power := rfl
@[simp] theorem clearSatBit_same_shelf (f : Field) (pu : Nat) (s : State) : (clearSatBit f pu s).shelf = s.shelf := rfl
@[simp] theorem clearSatBit_same_mergedC (f : Field) (pu : Nat) (s : State) : (clearSatBit f pu s).mergedC = s.mergedC := rfl
@[simp] theorem clearSatBit_same_oldLarder (f : Field) (pu : Nat) (s : State) : (clearSatBit f pu s).oldLarder = s.oldLarder := rfl
@[simp] theorem clearSatBit_same_busy (f : Field) (pu : Nat) (s : State) : (clearSatBit f pu s).busy = s.busy := rfl
@[simp] theorem clearSatBit_same_stopAt (f : Field) (pu : Nat) (s : State) : (clearSatBit f pu s).stopAt = s.stopAt := rfl
@[simp] theorem clearSatBit_same_programDied (f : Field) (pu : Nat) (s : State) : (clearSatBit f pu s).programDied = s.programDied := rfl
@[simp] theorem clearSatBit_same_out (f : Field) (pu : Nat) (s : State) : (clearSatBit f pu s).out = s.out := rfl
@[simp] theorem clearSatBit_same_lossSampled (f : Field) (pu : Nat) (s : State) : (clearSatBit f pu s).lossSampled = s.lossSampled := rfl
@[simp] theorem clearSatBit_same_freeCtr (f : Field) (pu : Nat) (s : State) : (clearSatBit f pu s).freeCtr = s.freeCtr := rfl

@[simp] theorem setQueue_same_pending (d q : Nat) (ts : List QTok) (s : State) : (setQueue d q ts s).pending = s.pending := rfl
@[simp] theorem setQueue_same_variant (d q : Nat) (ts : List QTok) (s : State) : (setQueue d q ts s).variant = s.variant := rfl
@[simp] theorem setQueue_same_stage (d q : Nat) (ts : List QTok) (s : State) : (setQueue d q ts s).stage = s.stage := rfl
@[simp] theorem setQueue_same_d3hot (d q : Nat) (ts : List QTok) (s : State) : (setQueue d q ts s).d3hot = s.d3hot := rfl
@[simp] theorem setQueue_same_perst (d q : Nat) (ts : List QTok) (s : State) : (setQueue d q ts s).perst = s.perst := rfl
@[simp] theorem setQueue_same_core (d q : Nat) (ts : List QTok) (s : State) : (setQueue d q ts s).core = s.core := rfl
@[simp] theorem setQueue_same_time (d q : Nat) (ts : List QTok) (s : State) : (setQueue d q ts s).time = s.time := rfl
@[simp] theorem setQueue_same_flds (d q : Nat) (ts : List QTok) (s : State) : (setQueue d q ts s).flds = s.flds := rfl
@[simp] theorem setQueue_same_stg (d q : Nat) (ts : List QTok) (s : State) : (setQueue d q ts s).stg = s.stg := rfl
@[simp] theorem setQueue_same_tblWritten (d q : Nat) (ts : List QTok) (s : State) : (setQueue d q ts s).tblWritten = s.tblWritten := rfl
@[simp] theorem setQueue_same_commit (d q : Nat) (ts : List QTok) (s : State) : (setQueue d q ts s).commit = s.commit := rfl
@[simp] theorem setQueue_same_latches (d q : Nat) (ts : List QTok) (s : State) : (setQueue d q ts s).latches = s.latches := rfl
@[simp] theorem setQueue_same_mem (d q : Nat) (ts : List QTok) (s : State) : (setQueue d q ts s).mem = s.mem := rfl
@[simp] theorem setQueue_same_poison (d q : Nat) (ts : List QTok) (s : State) : (setQueue d q ts s).poison = s.poison := rfl
@[simp] theorem setQueue_same_lineBusy (d q : Nat) (ts : List QTok) (s : State) : (setQueue d q ts s).lineBusy = s.lineBusy := rfl
@[simp] theorem setQueue_same_lastRing (d q : Nat) (ts : List QTok) (s : State) : (setQueue d q ts s).lastRing = s.lastRing := rfl
@[simp] theorem setQueue_same_newPoison (d q : Nat) (ts : List QTok) (s : State) : (setQueue d q ts s).newPoison = s.newPoison := rfl
@[simp] theorem setQueue_same_unmet (d q : Nat) (ts : List QTok) (s : State) : (setQueue d q ts s).unmet = s.unmet := rfl
@[simp] theorem setQueue_same_segTags (d q : Nat) (ts : List QTok) (s : State) : (setQueue d q ts s).segTags = s.segTags := rfl
@[simp] theorem setQueue_same_recent (d q : Nat) (ts : List QTok) (s : State) : (setQueue d q ts s).recent = s.recent := rfl
@[simp] theorem setQueue_same_lines (d q : Nat) (ts : List QTok) (s : State) : (setQueue d q ts s).lines = s.lines := rfl
@[simp] theorem setQueue_same_overs (d q : Nat) (ts : List QTok) (s : State) : (setQueue d q ts s).overs = s.overs := rfl
@[simp] theorem setQueue_same_opCount (d q : Nat) (ts : List QTok) (s : State) : (setQueue d q ts s).opCount = s.opCount := rfl
@[simp] theorem setQueue_same_arrs (d q : Nat) (ts : List QTok) (s : State) : (setQueue d q ts s).arrs = s.arrs := rfl
@[simp] theorem setQueue_same_dark (d q : Nat) (ts : List QTok) (s : State) : (setQueue d q ts s).dark = s.dark := rfl
@[simp] theorem setQueue_same_ledger (d q : Nat) (ts : List QTok) (s : State) : (setQueue d q ts s).ledger = s.ledger := rfl
@[simp] theorem setQueue_same_progBase (d q : Nat) (ts : List QTok) (s : State) : (setQueue d q ts s).progBase = s.progBase := rfl
@[simp] theorem setQueue_same_ledgerBase (d q : Nat) (ts : List QTok) (s : State) : (setQueue d q ts s).ledgerBase = s.ledgerBase := rfl
@[simp] theorem setQueue_same_drives (d q : Nat) (ts : List QTok) (s : State) : (setQueue d q ts s).drives = s.drives := rfl
@[simp] theorem setQueue_same_chains (d q : Nat) (ts : List QTok) (s : State) : (setQueue d q ts s).chains = s.chains := rfl
@[simp] theorem setQueue_same_queries (d q : Nat) (ts : List QTok) (s : State) : (setQueue d q ts s).queries = s.queries := rfl
@[simp] theorem setQueue_same_job (d q : Nat) (ts : List QTok) (s : State) : (setQueue d q ts s).job = s.job := rfl
@[simp] theorem setQueue_same_ptp (d q : Nat) (ts : List QTok) (s : State) : (setQueue d q ts s).ptp = s.ptp := rfl
@[simp] theorem setQueue_same_refreshed (d q : Nat) (ts : List QTok) (s : State) : (setQueue d q ts s).refreshed = s.refreshed := rfl
@[simp] theorem setQueue_same_refreshDue (d q : Nat) (ts : List QTok) (s : State) : (setQueue d q ts s).refreshDue = s.refreshDue := rfl
@[simp] theorem setQueue_same_drift (d q : Nat) (ts : List QTok) (s : State) : (setQueue d q ts s).drift = s.drift := rfl
@[simp] theorem setQueue_same_frames (d q : Nat) (ts : List QTok) (s : State) : (setQueue d q ts s).frames = s.frames := rfl
@[simp] theorem setQueue_same_selMaster (d q : Nat) (ts : List QTok) (s : State) : (setQueue d q ts s).selMaster = s.selMaster := rfl
@[simp] theorem setQueue_same_selState (d q : Nat) (ts : List QTok) (s : State) : (setQueue d q ts s).selState = s.selState := rfl
@[simp] theorem setQueue_same_bins (d q : Nat) (ts : List QTok) (s : State) : (setQueue d q ts s).bins = s.bins := rfl
@[simp] theorem setQueue_same_loads (d q : Nat) (ts : List QTok) (s : State) : (setQueue d q ts s).loads = s.loads := rfl
@[simp] theorem setQueue_same_loadCount (d q : Nat) (ts : List QTok) (s : State) : (setQueue d q ts s).loadCount = s.loadCount := rfl
@[simp] theorem setQueue_same_seqx (d q : Nat) (ts : List QTok) (s : State) : (setQueue d q ts s).seqx = s.seqx := rfl
@[simp] theorem setQueue_same_tracker (d q : Nat) (ts : List QTok) (s : State) : (setQueue d q ts s).tracker = s.tracker := rfl
@[simp] theorem setQueue_same_aux (d q : Nat) (ts : List QTok) (s : State) : (setQueue d q ts s).aux = s.aux := rfl
@[simp] theorem setQueue_same_fault (d q : Nat) (ts : List QTok) (s : State) : (setQueue d q ts s).fault = s.fault := rfl
@[simp] theorem setQueue_same_power (d q : Nat) (ts : List QTok) (s : State) : (setQueue d q ts s).power = s.power := rfl
@[simp] theorem setQueue_same_shelf (d q : Nat) (ts : List QTok) (s : State) : (setQueue d q ts s).shelf = s.shelf := rfl
@[simp] theorem setQueue_same_mergedC (d q : Nat) (ts : List QTok) (s : State) : (setQueue d q ts s).mergedC = s.mergedC := rfl
@[simp] theorem setQueue_same_oldLarder (d q : Nat) (ts : List QTok) (s : State) : (setQueue d q ts s).oldLarder = s.oldLarder := rfl
@[simp] theorem setQueue_same_busy (d q : Nat) (ts : List QTok) (s : State) : (setQueue d q ts s).busy = s.busy := rfl
@[simp] theorem setQueue_same_stopAt (d q : Nat) (ts : List QTok) (s : State) : (setQueue d q ts s).stopAt = s.stopAt := rfl
@[simp] theorem setQueue_same_programDied (d q : Nat) (ts : List QTok) (s : State) : (setQueue d q ts s).programDied = s.programDied := rfl
@[simp] theorem setQueue_same_out (d q : Nat) (ts : List QTok) (s : State) : (setQueue d q ts s).out = s.out := rfl
@[simp] theorem setQueue_same_lossSampled (d q : Nat) (ts : List QTok) (s : State) : (setQueue d q ts s).lossSampled = s.lossSampled := rfl
@[simp] theorem setQueue_same_freeCtr (d q : Nat) (ts : List QTok) (s : State) : (setQueue d q ts s).freeCtr = s.freeCtr := rfl

end Sys2Proof.Machine
end

