-- ==== Sys2Proof/WellFormed.lean ====
section
/-! DEFINITION. Well-formed commands: every operand within the width that the spec gives the field or signal it stands
for. The meanings are total and do not ask for it; a sender of commands keeps to it. Generic instance and unit numbers
are bounded by the 16 and 24 bits of their place in the register map (R343, R344). -/

namespace Sys2Proof

/-- `x` fits in `w` bits. -/
def u (x w : Nat) : Bool := decide (x < 2 ^ w)

/-- A sequencer of one of the four digital dies (R169). -/
def seqWf (q : SeqId) : Bool := decide (q.die < 4) && decide (q.num < 153)

/-- Every number of a list fits in `w` bits. -/
def natsWf (xs : List Nat) (w : Nat) : Bool := xs.all fun x => u x w

/-- Every value of a list of pairs fits in `w` bits. -/
def pairsWf (xs : List (Nat × Nat)) (w : Nat) : Bool := xs.all fun x => u x.2 w

/-- A value, where there is one, fits in `w` bits. -/
def optWf (x : Option Nat) (w : Nat) : Bool :=
  match x with
  | some v => u v w
  | none => true

/-- A raw or fine code departs from its nominal value by less than the range of fine codes, 4,096 (R70, R75). -/
def codesWf (xs : List (Nat × Int)) : Bool := xs.all fun x => decide (-4096 ≤ x.2 ∧ x.2 < 4096)

/-- The fields of a received frame (R301, R303). -/
def frameWf (f : Frame) : Bool :=
  decide (f.port < 12) && u f.mac 48 && optWf f.tag 16 && u f.size 14 && u f.stamp 80 && u f.srcRank 12 && u f.dstRank 12 &&
  u f.gen 32 && u f.session 16 && u f.msgId 32 && u f.ackMark 32 && u f.ackMap 32 && u f.serial 64 && u f.fecFixed 64 &&
  u f.fecLost 32 && u f.beat 64

/-- The header words of an exchange operation (R235), whose payload with its header fits in a frame (R303). -/
def xopWf (x : XOp) : Bool := u x.w0 64 && u x.w1 64 && decide (x.data.length + 16 ≤ 8256)

/-- What an operation met. -/
def metWf (m : Met) : Bool :=
  m.retries.all (fun r => decide (r.1 < 4) && u r.2 32) &&
    m.corrected.all (fun c => [0x20, 0x24, 0x30].contains c.page && u c.inst 16 && u c.singles 64 && u c.doubles 64) &&
    m.broken.all fun b => decide (b.1 < 24) && u b.2 48

/-- The words of a MEMBERSHIP message (R313). -/
def memberWf (m : Member) : Bool := natsWf m.words 64 && decide (8 * m.words.length + m.data.length + 8 ≤ 8256)

/-- A PTP message (R314). -/
def ptpWf (m : PtpMsg) : Bool :=
  decide (m.port < 12) && u m.size 14 && u m.domain 8 && u m.source 80 && u m.seq 16 && u m.stamp 80 && u m.requester 80

/-- A message of an unlisted SUBTYPE, whose payload fits in a frame (R303, R313). -/
def discardWf : Discard → Bool
  | .subtype n => decide (n ≤ 8256)
  | _ => true

/-- An SMBus transaction. -/
def smbusWf : SmbusAccess → Bool
  | .read => true
  | .write v => u v 16
  | .unlisted code => u code 8

/-- The fields of an Announce (R314). -/
def gmWf (g : Gm) : Bool :=
  u g.priority1 8 && u g.clockClass 8 && u g.accuracy 8 && u g.variance 16 && u g.priority2 8 && u g.identity 64 &&
  u g.steps 16

/-- The operands of a command are within their ranges. -/
def wellFormed : Instr → Bool
  | .nop q => seqWf q
  | .loadi q => seqWf q
  | .add q => seqWf q
  | .sub q => seqWf q
  | .addi q => seqWf q
  | .muli q => seqWf q
  | .shl q => seqWf q
  | .shr q => seqWf q
  | .cmp q => seqWf q
  | .cmpi q => seqWf q
  | .loop q => seqWf q
  | .jump q => seqWf q
  | .pstat q => seqWf q
  | .xload q => seqWf q
  | .token q => seqWf q
  | .switchBin q => seqWf q
  | .halt q => seqWf q
  | .redcfg q => seqWf q
  | .rowcfg q => seqWf q
  | .matrixProduct q => seqWf q
  | .vecCopy q => seqWf q
  | .convert q => seqWf q
  | .vecAdd q => seqWf q
  | .vecSub q => seqWf q
  | .mul q => seqWf q
  | .axpy q => seqWf q
  | .vecAddi q => seqWf q
  | .vecMuli q => seqWf q
  | .div q => seqWf q
  | .recip q => seqWf q
  | .sqrt q => seqWf q
  | .rsqrt q => seqWf q
  | .max q => seqWf q
  | .min q => seqWf q
  | .clamp q => seqWf q
  | .abs q => seqWf q
  | .neg q => seqWf q
  | .relu q => seqWf q
  | .exp q => seqWf q
  | .vecCmp q => seqWf q
  | .vecCmpi q => seqWf q
  | .select q => seqWf q
  | .perm q => seqWf q
  | .quant q => seqWf q
  | .levelScale q => seqWf q
  | .drift q => seqWf q
  | .histThresh q => seqWf q
  | .compact q => seqWf q
  | .normFwd q => seqWf q
  | .normBwd q => seqWf q
  | .softmaxFwd q => seqWf q
  | .softmaxBwd q => seqWf q
  | .merge q => seqWf q
  | .mergeC q => seqWf q
  | .arrayProduct q codes => seqWf q && codesWf codes
  | .copy q => seqWf q
  | .sendDense q => seqWf q
  | .sendTopk q => seqWf q
  | .sendSign q => seqWf q
  | .sendOrdered q => seqWf q
  | .deltaBcast q => seqWf q
  | .remoteWrite q => seqWf q
  | .bucketWait q => seqWf q
  | .longOpComplete die tag met late _ => decide (die < 4 ∨ 16 ≤ die ∧ die < 272) && u tag 20 && metWf met && u late 32
  | .tokenTimeout q => seqWf q
  | .delayedStart q codes => seqWf q && codesWf codes
  | .programStop => true
  | .programDump fw => decide (fw.length ≤ 2 ^ 28)
  | .binLoad die seq bin => u die 2 && decide (seq < 153) && u bin 1
  | .binLoadDone die => u die 2
  | .binSwitchAtBoundary q => seqWf q
  | .claim _ => true
  | .release _ => true
  | .claimExpired => true
  | .go _ when' => u when' 2
  | .discard => true
  | .commitCheckDone => true
  | .commitApply => true
  | .stepSetApply => true
  | .membershipCommit => true
  | .vote f m => frameWf f && memberWf m
  | .decision f m => frameWf f && memberWf m
  | .stepCommit => true
  | .pantryRefresh inst ap rows => decide (inst < 1088) && u ap 59 && pairsWf rows 48
  | .driftCheck => true
  | .mixerTest => true
  | .runClear => true
  | .detectorReset => true
  | .denseAcc f x => frameWf f && xopWf x
  | .scatterAcc f x => frameWf f && xopWf x
  | .signAcc f x => frameWf f && xopWf x
  | .orderedAcc f x => frameWf f && xopWf x
  | .contribEnd f x => frameWf f && xopWf x
  | .bucketDeadline bucket => u bucket 16
  | .bucketReduced bucket addr => u bucket 16 && u addr 48
  | .pull f x => frameWf f && xopWf x
  | .reply f x => frameWf f && xopWf x
  | .notice f x => frameWf f && xopWf x
  | .table f x => frameWf f && xopWf x
  | .delta f x => frameWf f && xopWf x
  | .cellarDone f m => frameWf f && memberWf m
  | .crc f m => frameWf f && memberWf m
  | .crcComputeDone => true
  | .writeStale f m => frameWf f && memberWf m
  | .remoteWriteMsg f addr _ step _ bad => frameWf f && u addr 48 && u step 32 && natsWf bad 13
  | .tokenFrame f token queue die => frameWf f && u token 64 && u queue 10 && u die 8
  | .ack f => frameWf f
  | .ackDelay serial => u serial 64
  | .retransmit serial id => u serial 64 && u id 32
  | .pageWalkSend bucket rank _ first => u bucket 16 && u rank 12 && u first 32
  | .heartbeatSend => true
  | .heartbeat f => frameWf f
  | .suspect rank => u rank 12
  | .queryReq f endpoint count clientTag input => frameWf f && u endpoint 8 && u count 16 && u clientTag 32 && natsWf input 32
  | .queryDescriptor q words input _ => decide (q < 4) && natsWf words 64 && natsWf input 32
  | .chainStart ep => u ep 8
  | .chainEntry ep k codes => u ep 8 && u k 64 && codesWf codes
  | .queryResp ep k => u ep 8 && u k 64
  | .queryUndelivered ep k => u ep 8 && u k 64
  | .sync m => ptpWf m
  | .followUp m => ptpWf m
  | .delayReq m => ptpWf m
  | .delayResp m => ptpWf m
  | .announce m gm => ptpWf m && gmWf gm
  | .syncLoss => true
  | .stepNs amount => decide (-(2 ^ 63 : Int) ≤ amount ∧ amount < 2 ^ 63)
  | .timeNsRead => true
  | .linkUp p => decide (p < 12)
  | .linkDown p => decide (p < 12)
  | .hostIndex ring value => u ring 4 && u value 32
  | .ringEnable ring _ => u ring 4
  | .functionLevelReset => true
  | .d3hot => true
  | .perstNAssert => true
  | .perstNRelease => true
  | .bar0HalfRead addr width => u addr 48 && decide (1 ≤ width ∧ width ≤ 8)
  | .registerWrite _ addr width value => u addr 48 && decide (1 ≤ width ∧ width ≤ 8) && u value 64
  | .cntClear unit => u unit 24
  | .expertRestore unit => u unit 24
  | .ident => true
  | .status => true
  | .temps => true
  | .power => true
  | .powerLimit access _ => smbusWf access
  | .fatalSummary => true
  | .aux3v3Up => true
  | .aux3v3Removed => true
  | .feedGood feed => decide (feed < 2)
  | .pwrOk => true
  | .feedLost feed => decide (feed < 2)
  | .railFault page inst => u page 8 && u inst 16
  | .sysResetNAssert => true
  | .sysResetNRelease _ => true
  | .resetKey _ key => u key 8
  | .pllLock => true
  | .pllLockTimeout => true
  | .refclkFault => true
  | .blockReady unit info => u unit 24 && natsWf info 64
  | .orderlyOff => true
  | .offReady => true
  | .powerSample input feeds domains => u input 32 && natsWf feeds 32 && natsWf domains 32
  | .capEval => true
  | .capUnmet => true
  | .tempSample temps => temps.all fun t => decide (-(2 ^ 31 : Int) ≤ t ∧ t < 2 ^ 31)
  | .memoryStackLost mc => u mc 5
  | .watchdogExpiry c => decide (c < 4)
  | .dumpStart => true
  | .dumpReady fw => decide (fw.length ≤ 2 ^ 28)
  | .dumpOnShelf => true
  | .dumpAck => true
  | .dumpRestore => true
  | .scrub mc singles doubles bad => u mc 5 && u singles 32 && u doubles 32 && natsWf bad 48
  | .rescan c => u c 2
  | .nvmeCompletion c _ k crit used => u c 2 && u k 6 && u crit 8 && u used 8
  | .nvmeTimeout c => u c 2
  | .sweepConversionStart die p ap => decide (die < 16) && u p 11 && u ap 59
  | .sweepConversionDone die p codes tripped => decide (die < 16) && u p 11 && codesWf codes && (tripped.all fun j => decide (j < 512))
  | .tableSwap die p ap => decide (die < 16) && u p 11 && u ap 59
  | .sweepStale die p => decide (die < 16) && u p 11
  | .verifyReq inst => u inst 16
  | .verifyComplete inst loads => u inst 16 && pairsWf loads 48
  | .loadHold inst _ => u inst 16
  | .clearSel inst => u inst 16
  | .auditClear inst => u inst 16
  | .loadPantry inst => u inst 16
  | .pantryLoadDone die p col => decide (die < 16) && u p 11 && decide (col < 512)
  | .evict inst => u inst 16
  | .evictApply die p => decide (die < 16) && u p 11
  | .program inst source scale _ => u inst 16 && u source 48 && u scale 16
  | .columnWriteStart die p => decide (die < 16) && u p 11
  | .columnWriteDone die p iters held ap =>
    decide (die < 16) && u p 11 && (iters.all fun n => u n 32) && (held.all fun l => decide (-15 ≤ l ∧ l ≤ 15)) && u ap 59
  | .sleep die _ => decide (die < 16)
  | .ledgerSave => true
  | .larderFlush inst => u inst 16
  | .storeAck => true
  | .stagingLoaded => true
  | .shelfStagingDone => true
  | .shelfWriteDone _ => true
  | .restoreDone loads => loads.all fun x => u x.1 48
  | .syncTx stamp => u stamp 64
  | .announceTx => true
  | .delayReqTx stamp => u stamp 64
  | .discardedFrame f why => frameWf f && discardWf why
  | .rootPllLostLock => true
  | .resetKeyRelease => true
  | .bar2Access offset width data => u offset 48 && decide (1 ≤ width ∧ width ≤ 8) && optWf data 64
  | .arrayDiePoweredDown die => decide (die < 16)
  | .arrayDiePoweredUp die => decide (die < 16)
  | .busMasterEnable _ => true
  | .d0Entry => true

end Sys2Proof
end

