-- ==== Sys2Proof/Tests/Slice0.lean ====
section
/-! SUPPORT. Tests: ill-formed commands are refused, the statements' hypotheses can be met (`witness_<statement>`), and worked
examples of the spec. -/

namespace Sys2Proof.Tests

-- One theorem after the other: the threads of many at once would fill the memory.
set_option Elab.async false

open Sys2Proof Sys2Proof.Machine

/-! ### Ill-formed commands are refused -/

theorem test_wf_seq : wellFormed (.nop ⟨3, 152⟩) = true ∧ wellFormed (.nop ⟨4, 0⟩) = false ∧
    wellFormed (.copy ⟨0, 153⟩) = false := by decide

theorem test_wf_operands : wellFormed (.binLoad 0 153 0) = false ∧ wellFormed (.binLoad 0 0 2) = false ∧
    wellFormed (.go .host 4) = false ∧ wellFormed (.hostIndex 0 (2 ^ 32)) = false ∧
    wellFormed (.bar0HalfRead 0 9) = false ∧ wellFormed (.powerLimit (.write 65536) true) = false ∧
    wellFormed (.stepNs (2 ^ 63)) = false ∧ wellFormed (.feedGood 2) = false ∧
    wellFormed (.program 0 0 65536 false) = false ∧ wellFormed (.pantryLoadDone 0 0 512) = false := by decide

theorem test_wf_lists : wellFormed (.arrayProduct ⟨0, 89⟩ [(0, 4096)]) = false ∧
    wellFormed (.restoreDone [(2 ^ 48, [])]) = false ∧ wellFormed (.scrub 0 0 0 [2 ^ 48]) = false ∧
    wellFormed (.pantryRefresh 0 0 [(0, 2 ^ 48)]) = false ∧
    wellFormed (.nvmeCompletion 4 true 0 0 0) = false ∧
    wellFormed (.longOpComplete 0 0 { retries := [(4, 1)] } 0 false) = false ∧
    wellFormed (.longOpComplete 0 0 { broken := [(24, 0)] } 0 false) = false ∧ wellFormed (.longOpComplete 4 0 {} 0 false) = false ∧
    wellFormed (.powerLimit (.unlisted 256) true) = false := by decide

/-- A frame from serial 7, rank 0, on port 0. -/
def frame (id : Nat) : Frame :=
  { port := 0, mac := 7, tag := none, size := 128, stamp := 0, serial := 7, session := 1, srcRank := 0, dstRank := 1, gen := 0,
    msgId := id, ackValid := false, ackMark := 0, ackMap := 0, fecFixed := 0, fecLost := 0, highBer := false }

/-- A PTP message from master 9. -/
def ptpMsg : PtpMsg := { port := 0, size := 64, domain := 0, source := 9, seq := 3, stamp := 65536, time := 0, twoStep := false, interval := 0 }

theorem test_wf_messages : wellFormed (.heartbeat (frame 0)) = true ∧
    wellFormed (.heartbeat { frame 0 with port := 12 }) = false ∧ wellFormed (.heartbeat { frame 0 with tag := some 65536 }) = false ∧
    wellFormed (.vote (frame 0) ⟨[2 ^ 64], []⟩) = false ∧ wellFormed (.pull (frame 0) ⟨2 ^ 64, 0, []⟩) = false ∧
    wellFormed (.sync ptpMsg) = true ∧ wellFormed (.sync { ptpMsg with seq := 65536 }) = false ∧
    wellFormed (.delayResp { ptpMsg with requester := 2 ^ 80 }) = false ∧ wellFormed (.discardedFrame (frame 0) (.subtype 8257)) = false ∧
    wellFormed (.remoteWriteMsg (frame 0) 0 true 0 [] [2 ^ 13]) = false ∧
    wellFormed (.announce ptpMsg { priority1 := 256, clockClass := 0, accuracy := 0, variance := 0, priority2 := 0, identity := 0, steps := 0 }) = false := by
  decide

/-! ### States that the witnesses are taken from -/

/-- The clocks run, and nothing else has happened. -/
def up : State := State.blank .t64b .clocked

/-- The same with the host's endpoint out of reset. -/
def hosted : State := { up with perst := false }

/-- Bits `v` at place `lo` of a word. -/
def at' (lo v : Nat) : Nat := v * 2 ^ lo

/-- A sequencer that runs the commands `cs` from index 0. -/
def running (q : SeqId) (cs : List Cmd) (s : State) : State :=
  setSeqState q 1 { s with bins := nmSet (seqKey q * 2) ⟨0, 0, cs.length + 1, false, 1, cs, []⟩ s.bins }

/-- A command of class `cls` and operation `op` with nothing else set. -/
def plain (cls op : Nat) : Cmd := ⟨cls + at' 4 op, 0, 0, 0⟩

/-- The next command issues and runs in `s`. -/
def issues (q : SeqId) (cls op : Nat) (s : State) : Bool :=
  match prepare q cls op s with
  | .go _ _ _ _ run => run
  | .hold _ => false

theorem issues_spec {q : SeqId} {cls op : Nat} {s : State} (h : issues q cls op s = true) :
    ∃ s1 c n toks, Issues q cls op s s1 c n toks := by
  unfold issues at h
  split at h
  · rename_i s1 c n toks run hp
    subst h
    exact ⟨s1, c, n, toks, hp⟩
  · exact absurd h (by decide)

/-- Sequencer 0 of die 0, a vector sequencer, and array-group sequencer 89. -/
def q0 : SeqId := ⟨0, 0⟩
def q89 : SeqId := ⟨0, 89⟩

/-! ### Witnesses: the machine -/

theorem witness_StepRunsFrontCommand : { up with pending := [.discard, .ident] }.pending = .discard :: [.ident] := rfl

theorem witness_EmptyQueueIdles : up.pending = [] ∧ up.stage = .clocked ∧ State.reset.pending = [] ∧ State.reset.stage ≠ .clocked := by
  decide

theorem witness_StepKeepsSound : Sound up ∧ ∃ t, step { up with pending := [.ident] } = .next t :=
  ⟨⟨by decide, fun e he => absurd he (by simp [up, State.blank]), by decide⟩, _, rfl⟩

theorem witness_StepConsumesQueue : ∃ t, step { up with pending := [.ident, .status] } = .next t := ⟨_, rfl⟩

theorem witness_BoundsKept : (∀ die < 4, trackerCount up die ≤ 32768) ∧ (∀ serial, (txPeer up serial).unacked.length ≤ 1024) ∧
    (∃ t, step up = .next t) ∧ (∃ t, exec (.evict 0) up = .next t) ∧
    (rd up F.ag_COLUMN 0 0 < 512 ∧ (arraySel up 0).1 < 16 ∧ (arraySel up 0).2 < 1040 ∧ limitCount up 0 0 ≤ bypassLimit up 0 0) ∧
    ∀ d a, (∀ j ∈ (arrX up d a).evicting, j < 512) ∧ ∀ w, (arrX up d a).write = some w → w.col < 512 := by
  have h : ∀ d a, arrX up d a = {} := fun d a => rfl
  refine ⟨fun die _ => Nat.zero_le _, fun serial => Nat.zero_le _, ⟨_, rfl⟩, ⟨_, rfl⟩, by decide +kernel, fun d a => ?_⟩
  rw [h]
  exact ⟨fun j hj => absurd hj (by simp), fun w hw => absurd hw (by simp)⟩

theorem witness_MemoryReadBack : ([1#8, 2#8] : List Byte).length = 2 ∧ (∀ i < 2, ∃ k, cellAt up 0 (5 + i) = some k) ∧
    ∀ i j, i < 2 → j < 2 → cellAt up 0 (5 + i) = cellAt up 0 (5 + j) → i = j := by
  refine ⟨rfl, fun i hi => ?_, fun i j hi hj => ?_⟩
  · have : i = 0 ∨ i = 1 := by omega
    rcases this with rfl | rfl <;> exact Option.isSome_iff_exists.mp (by decide +kernel)
  · have h1 : i = 0 ∨ i = 1 := by omega
    have h2 : j = 0 ∨ j = 1 := by omega
    rcases h1 with rfl | rfl <;> rcases h2 with rfl | rfl <;> decide +kernel

/-! ### Witnesses: sequencers -/

theorem witness_AddressCommands : ([0x01, 0x02, 0x03, 0x04, 0x05, 0x06, 0x07, 0x0D].all fun op =>
    issues q0 0 op (running q0 [plain 0 op] up)) = true ∧ Quiet q0 (plain 0 1) (running q0 [plain 0 1] up) := by
  unfold Quiet; decide +kernel

/-- A command that waits for a token: `w` 1 names queue 0 through WAIT_A, 2 queue 1 through WAIT_B, 3 both. -/
def waitingOn (w cls op : Nat) : Cmd := ⟨cls + at' 4 op + at' 42 (w % 2) + at' 43 1 + at' 53 (w / 2), 0, 0, 0⟩
def waiting (cls op : Nat) : Cmd := waitingOn 1 cls op

/-- Queue 0 of die 0 holds a token with the ready time 3, and queue 1 one with the ready time 9. -/
def withTokens (s : State) : State := { s with queues := [(0, [⟨0, 3⟩]), (1, [⟨0, 9⟩])] }

/-- The next command `c` of sequencer 0 has not begun to wait, and nothing holds the sequencer. -/
def fresh (c : Cmd) (s : State) : Bool :=
  decide (nextCmd s q0 = some c ∧ (seqX s q0).popA = none ∧ (seqX s q0).heldTill = none ∧ (seqX s q0).switchAt = none ∧
    (seqX s q0).floor = 0 ∧ s.stopAt = none)

theorem witness_IssueOfCommands :
    (let s := running q0 [plain 0 0] up
     fresh (plain 0 0) s = true ∧ (plain 0 0).waitAEn = false ∧ (plain 0 0).waitBEn = false ∧ landedBy s 0 = true) ∧
    ([1, 2].all fun w =>
      let c := waitingOn w 0 0
      let s := withTokens (running q0 [c] up)
      fresh c s && (c.waitAEn == (w == 1)) && (c.waitBEn == (w == 2)) && c.waitA == 0 && c.waitB == 1 &&
        (settled s (queueDie q0) 0 (queueOf s (queueDie q0) 0) == [⟨0, 3⟩]) &&
        (settled s (queueDie q0) 1 (queueOf s (queueDie q0) 1) == [⟨0, 9⟩]) && landedBy s 4 && landedBy s 10) = true ∧
    (let c := waitingOn 3 0 0
     let s := withTokens (running q0 [c] up)
     fresh c s = true ∧ c.waitAEn = true ∧ c.waitBEn = true ∧ c.waitA ≠ c.waitB ∧ landedBy s 10 = true) := by
  decide +kernel

theorem witness_WaitForToken : ([1, 2].all fun w => (streamCommands q0 []).all fun x =>
    let c := waitingOn w x.2.1 x.2.2
    let s := running q0 [c] up
    fresh c s && decide (c.cls = x.2.1 ∧ c.op = x.2.2 ∧ c.waitAEn = (w == 1) ∧ c.waitBEn = (w == 2)) &&
      (queueOf s (queueDie q0) c.waitA).isEmpty && (queueOf s (queueDie q0) c.waitB).isEmpty) = true := by
  decide +kernel

/-- A command predicated on flag 0 being 1, which it is not. -/
def predicated (cls op : Nat) : Cmd := ⟨cls + at' 4 op + at' 30 3, 0, 0, 0⟩

/-- The next command issues and is skipped in `s`. -/
def skips (q : SeqId) (cls op : Nat) (s : State) : Bool :=
  match prepare q cls op s with
  | .go _ _ _ _ run => !run
  | .hold _ => false

theorem witness_SkippedCommand : ((streamCommands q0 []).all fun x =>
    skips q0 x.2.1 x.2.2 (running q0 [predicated x.2.1 x.2.2] up)) = true := by decide +kernel

theorem witness_PredicateCommands : ([0x08, 0x09, 0x0C].all fun op => issues q0 0 op (running q0 [plain 0 op] up)) = true := by
  decide +kernel

/-- A state in which the other bin of sequencer 0 is valid and of the same generation. -/
def otherBin (s : State) : State :=
  setb F.sq_VALID_1 0 0 true { s with bins := nmSet 1 ⟨0, 3, 4, false, 2, [plain 0 0], []⟩ s.bins }

theorem witness_FlowCommands : ([0x00, 0x0A, 0x0B, 0x0F, 0x10, 0x11, 0x12].all fun op =>
    issues q0 0 op (running q0 [plain 0 op] up)) = true ∧
    (let s := otherBin (running q0 [plain 0 0x0F] up)
     issues q0 0 0x0F s = true ∧ (binOf s q0 (1 - activeBin s q0)).map (·.gen) = some (seqX s q0).gen ∧
       binValid s q0 (1 - activeBin s q0) = true) := by
  decide +kernel

theorem witness_TokenCommand : (let c : Cmd := ⟨at' 4 0x0E + at' 56 1, 0, 0, 0⟩
     issues q0 0 0x0E (running q0 [c] up) = true ∧ c.produceEn = true ∧ (queueOf up c.produceDie c.produceQueue).length < 64) ∧
    ((plain 0 0x0E).cls = 0 ∧ (plain 0 0x0E).op = 0x0E ∧ (plain 0 0x0E).produceEn = false ∧ (plain 0 0x0E).streamKind < 8) := by
  decide +kernel

/-! ### Witnesses: long operations -/

/-- A vector command on sequencer 64 (whose engine is a vector engine), which reads F32 from scratchpad 0. -/
def q64 : SeqId := ⟨0, 64⟩
def addF32 : Cmd := ⟨3 + at' 4 2, 0, 0, at' 5 1 + at' 15 2⟩

/-- A vector command with its first source in format `a` and its destination in format `d`, with a preset exponent or not. -/
def lanes (a d : Nat) : Cmd := ⟨3, 0, at' 15 a, at' 15 d⟩

theorem witness_VectorArithmetic : ([(fmtF32, fmtF32), (fmtF32, fmtS16), (fmtF32, fmtB8), (fmtS16, fmtS16)].all fun ad =>
    let x := ctxOf up q64
    let c := lanes ad.1 ad.2
    decide ((vA x c).fmt = ad.1 ∧ (vD x c).fmt = ad.2 ∧ c.vRedEn = false ∧ c.vHistEn = false ∧ (vLen x c).1 = 1)) = true ∧
    f32IsNan f32Nan = true := by decide +kernel

/-- Nothing of an engine's work on the command is early, overlaps or is poisoned. -/
def startable (q : SeqId) (cls op : Nat) (s : State) : Bool :=
  match prepare q cls op s with
  | .go s1 c n _ run =>
    let r := engineWork cls op (ctxOf s1 q) c (asOf n s1)
    run && decide (busyUntil s1 (engineKey q.die q.num) ≤ n) && decide (trackerCount s1 q.die < 32768) && !r.overlap &&
      (earlySummary s1 n r.reads).isNone &&
      r.reads.all fun g => (poisonedWords s1 g.space g.base g.len).isEmpty && !beyondView s1 g.space g.base g.len
  | .hold _ => false

theorem witness_EngineCommands : startable q64 3 2 (running q64 [addF32] up) = true ∧
    startable ⟨0, 0⟩ 2 0 (running ⟨0, 0⟩ [⟨2, 0, 0, 0⟩] up) = true ∧
    startable ⟨0, 80⟩ 4 0 (running ⟨0, 80⟩ [⟨4, 0, 0, 0⟩] up) = true ∧
    (let s := running q64 [addF32] { up with busy := [(engineKey 0 64, 9)] }
     issues q64 3 2 s = true ∧ 0 < busyUntil s (engineKey 0 64) ∧ rdb s F.sq_GUARD_POLICY 0 0 = false ∧
       issues q64 3 2 (setb F.sq_GUARD_POLICY 0 0 true s) = true) := by decide +kernel

/-- A dense product of one array on array-group sequencer 89, at the alignment period before a slot. -/
def product : Cmd := ⟨5 + at' 10 112, 0, 0, 0⟩
def productState : State := running q89 [product] (setReady (groupUnit 0) true 0 0 up)

/-- A copy of one line from the die's scratchpad to memory, and one within the scratchpad. -/
def moveLine : Cmd := ⟨6, 0, at' 44 1, 1⟩
def moveOwn : Cmd := ⟨6, 0, at' 44 1, at' 12 1⟩

/-- A copy of the operation `tag` within scratchpad 0, which is under way or waits. -/
def copying (tag : Nat) (land : Option Nat) : PendingOp :=
  { die := 0, tag := tag, gen := 0, land := land, landed := false, token := 0, produce := none, notify := false, writes := [],
    larder := [], tags := [], counts := [], copy := some (copyJob (ctxOf up q0) moveOwn 0) }

/-- The state in which the next command of `q` runs, and its issue cycle. -/
def issued (q : SeqId) (cls op : Nat) (s : State) : State × Nat :=
  match prepare q cls op s with
  | .go s1 _ n _ _ => (s1, n)
  | .hold s1 => (s1, 0)

/-- Reading `rs` meets no poisoned word and no page beyond a view. -/
def cleanReads (rs : List Range) (s : State) : Bool :=
  rs.all fun g => (poisonedWords s g.space g.base g.len).isEmpty && !beyondView s g.space g.base g.len

theorem cleanReads_spec {rs : List Range} {s : State} (h : cleanReads rs s = true) : CleanReads rs s := by
  intro g hg
  have := List.all_eq_true.mp h g hg
  simpa using this

theorem witness_ArrayAndCopyCommands :
    (let s1 := (issued q89 5 0 productState).1
     let n := (issued q89 5 0 productState).2
     let c := product
     let ap := n / 16
     let rc := readCycle 0 (ctxOf s1 q89) c ap
     let o := productWork (ctxOf s1 q89) c 0 0 (ap + 1) [] (asOf rc s1) s1
     issues q89 5 0 productState = true ∧ groupOf q89 = (0, 0) ∧ n = 112 ∧ productHeld s1 0 (ctxOf s1 q89) c ap = false ∧
       groupReady s1 0 = true ∧ arraysFreeAp s1 0 0 c ≤ ap + 1 ∧ slotStarts s1 0 (ap + 1) 1 0 = true ∧
       trackerCount s1 0 < 32768 ∧ o.res.overlap = false ∧ earlySummary s1 rc o.res.reads = none ∧
       cleanReads o.res.reads s1 = true ∧ 2 * n ≤ 32 * (ap + 1 + o.land)) ∧
    (let s1 := (issued q0 6 0 (running q0 [moveLine] up)).1
     let j := copyJob (ctxOf s1 q0) moveLine 0
     issues q0 6 0 (running q0 [moveLine] up) = true ∧ trackerCount s1 0 < 32768 ∧ copyGoing s1 j.srcSpace = false ∧
       earlySummary s1 0 j.reads = none ∧ cleanReads j.reads s1 = true ∧ (copyJob (ctxOf up q0) moveOwn 0).own = true) ∧
    (let t := { (running q0 [moveOwn] up) with tracker := [copying 4 (some 6)] }
     let s1 := (issued q0 6 0 t).1
     let j := copyJob (ctxOf s1 q0) moveOwn 0
     issues q0 6 0 t = true ∧ trackerCount s1 0 < 32768 ∧ copyGoing s1 j.srcSpace = true ∧ j.own = true) ∧
    (let s := { up with tracker := [copying 4 (some 6), copying 8 none] }
     s.core ≤ 6 ∧ (copying 4 (some 6)).gate = true ∧ (copying 4 (some 6)).awaits = [] ∧ (copying 4 (some 6)).audits = [] ∧
       (copying 4 (some 6)).failed = none ∧ s.newPoison = []) := by decide +kernel

/-- A long operation that writes two bytes of scratchpad 0 and produces a token on queue 5. -/
def longOp : PendingOp :=
  { die := 0, tag := 4, gen := 0, land := some 6, landed := false, token := 0, produce := some (0, 5), notify := false,
    writes := [⟨cell 1 64, [1#8, 2#8]⟩], larder := [], tags := [], counts := [] }

/-- One that writes device memory and records its completion, and one of another sequencer that lands later. -/
def noted : PendingOp := { longOp with tag := 4100, land := some 5, notify := true, writes := [⟨cell memSpace 640, [3#8]⟩] }

/-- The two under way, in a state with a completion ring at address 4096. -/
def twoOps : State := wr F.sq_CREC_BASE 0 0 4096 { up with tracker := [longOp, noted] }

theorem witness_LongOpLands : twoOps.tracker = [longOp] ++ noted :: [] ∧
    { up with tracker := [longOp] }.tracker = [] ++ longOp :: [] ∧
    ([({ up with tracker := [longOp] }, longOp, 6, []), (twoOps, noted, 5, [longOp])].all fun x =>
      let s := x.1
      let p := x.2.1
      decide (p.die < 4 ∧ p.landed = false ∧ p.land = some x.2.2.1 ∧ s.core ≤ x.2.2.1 ∧ p.gate = true ∧ p.awaits = [] ∧
        p.copy = none ∧ p.poisons = [] ∧ p.audits = [] ∧ p.failed = none ∧ p.stage = [] ∧ trackerCount s p.die ≤ 32768 ∧
        s.newPoison = [] ∧ p.counts = [] ∧ (queueOf s 0 5).length < 64) &&
      p.writes.all (fun w => decide ((w.key % 64 = memSpace → w.key / 64 + w.bytes.length ≤ s.variant.memBytes) ∧
        (w.key % 64 ≠ memSpace → w.key % 64 < 8 → w.key / 64 + w.bytes.length ≤ scratchBytes))) &&
      x.2.2.2.all fun r => decide (r.landed = false ∧ r.audits = [] ∧ r.tag ≠ p.tag ∧ r.land = some 6) &&
        (p.route.isNone || decide (r.route ≠ p.route))) = true ∧
    (let s := twoOps
     longOp.notify = false ∧ noted.notify = true ∧ rdb s F.sq_TRACE_ALL 0 0 = false ∧
       (rd s F.sq_CREC_HEAD 0 0 + 2 ^ 64 - rd s F.sq_CREC_TAIL 0 0) % 2 ^ 64 ≠ 2 ^ ringLog (rd s F.sq_CREC_SIZE 0 0) ∧
       rd s F.sq_CREC_BASE 0 0 + 16 * (rd s F.sq_CREC_HEAD 0 0 % 2 ^ ringLog (rd s F.sq_CREC_SIZE 0 0)) + 16 ≤ s.variant.memBytes) := by
  refine ⟨rfl, rfl, ?_, ?_⟩ <;> decide +kernel

theorem witness_DelayedStart : (let s := setSeqX q64 { seqX up q64 with heldTill := some 9 } (running q64 [addF32] up)
     let s1 := setSeqX q64 { seqX s q64 with heldTill := none } (advanceTo 9 s)
     let r := engineWork 3 2 (ctxOf s1 q64) addF32 (asOf 9 s1)
     nextCmd s q64 = some addF32 ∧ addF32.cls = 3 ∧ addF32.op = 2 ∧ (seqX s q64).floor ≤ 9 ∧ s.stopAt = none ∧ landedBy s 9 = true ∧
       busyUntil s (engineKey 0 64) ≤ 9 ∧ trackerCount s 0 < 32768 ∧ r.overlap = false ∧ earlySummary s1 9 r.reads = none ∧
       cleanReads r.reads s1 = true) ∧
    (let s := setSeqX q89 { seqX up q89 with heldTill := some 112 } (running q89 [product] (setReady (groupUnit 0) true 0 0 up))
     let s1 := setSeqX q89 { seqX s q89 with heldTill := none } (advanceTo 224 s)
     let rc := readCycle 0 (ctxOf s1 q89) product 7
     let o := productWork (ctxOf s1 q89) product 0 0 8 [] (asOf rc s1) s1
     nextCmd s q89 = some product ∧ product.cls = 5 ∧ (seqX s q89).floor ≤ 224 ∧ s.stopAt = none ∧ landedBy s 224 = true ∧
       groupOf q89 = (0, 0) ∧ productHeld s 0 (ctxOf s q89) product 7 = false ∧ groupReady s1 0 = true ∧
       arraysFreeAp s1 0 0 product ≤ 8 ∧ slotStarts s1 0 8 1 0 = true ∧ trackerCount s1 0 < 32768 ∧ o.res.overlap = false ∧
       earlySummary s1 rc o.res.reads = none ∧ cleanReads o.res.reads s1 = true ∧ 2 * 112 ≤ 32 * (8 + o.land)) := by
  decide +kernel

/-! ### Witnesses: sequencer events, bin loads and dumps -/

theorem witness_BinLoads :
    livePage up (unitOf 0x25 0) = true ∧ (rdb up F.sq_LOAD_BUSY 0 0 || (seqBusy up q0 && activeBin up q0 == 0)) = false ∧
    (rdb up F.sq_LOAD_BUSY 0 0 || (decide (153 < 153) && seqBusy up ⟨0, 153⟩ && activeBin up ⟨0, 153⟩ == 0)) = false ∧
    (let s := running q0 [plain 0 0] up
     livePage s (unitOf 0x25 0) = true ∧ (rdb s F.sq_LOAD_BUSY 0 0 || (seqBusy s q0 && activeBin s q0 == 0)) = true) ∧
    (let s := { up with loads := [(0, ⟨152, 1, 0⟩)] }
     smFind 0 s.loads = some ⟨152, 1, 0⟩ ∧ poisonedWords s memSpace 0 64 = [] ∧ beyondView s memSpace 0 64 = false) := by decide +kernel

/-- Firmware runs on control die 0. -/
def firmware (s : State) : State := setReady (unitOf 0x50 0) true 0 0 s

/-- The first 88 bytes of a dump of no section, and the dump, whose header's CRC matches. -/
def dumpHead : List Byte := natLe 8 0x504D5544 ++ List.replicate 80 0
def emptyDump : List Byte := dumpHead ++ natLe 8 (crc64 dumpHead).toNat

theorem leNat_natLe (x : Nat) (h : x < 2 ^ 64) : leNat (natLe 8 x) = x := by
  simp [leNat, natLe]; omega

theorem emptyDump_sound : dumpSound emptyDump = true := by
  have hl : dumpHead.length = 88 := by decide
  have hw : ∀ i < 11, wordAt emptyDump i = wordAt dumpHead i := by
    intro i hi
    unfold wordAt emptyDump
    rw [List.drop_append_of_le_length (by omega), List.take_append_of_le_length (by rw [List.length_drop]; omega)]
  have h11 : wordAt emptyDump 11 = (crc64 dumpHead).toNat := by
    unfold wordAt emptyDump
    rw [List.drop_append, hl, List.drop_eq_nil_of_le (by omega)]
    exact leNat_natLe _ (crc64 dumpHead).isLt
  have ht : emptyDump.take 88 = dumpHead := by unfold emptyDump; rw [List.take_append_of_le_length (by omega), List.take_of_length_le (by omega)]
  have h8 : wordAt dumpHead 8 % 2 ^ 16 = 0 := by decide
  have h0 : wordAt dumpHead 0 % 2 ^ 32 = 0x504D5544 := by decide
  unfold dumpSound
  rw [hw 8 (by omega), hw 0 (by omega), h8, h0, h11, ht]
  change ((1347245380 : Nat) == 1347245380 && (crc64 dumpHead).toNat == (crc64 (dumpHead ++ [])).toNat && true) = true
  rw [List.append_nil, beq_self_eq_true, beq_self_eq_true]
  rfl

/-- The dump is on the drive of control die 3. -/
def onDrive : State := firmware (setb F.sh_DRIVE_READY 3 0 true { up with fault := { up.fault with shelf := [(3, emptyDump)] } })

theorem onDrive_dump : shelfDump onDrive = some (3, emptyDump) := by
  have h1 : readyDrives onDrive = [3] := by decide +kernel
  have h2 : smFind 3 onDrive.fault.shelf = some emptyDump := rfl
  simp [shelfDump, shelfDumps, h1, h2, Option.filter, emptyDump_sound]

theorem witness_Dumps :
    (let s := firmware { up with fault := { up.fault with programDue := true, fatalDue := true } }
     s.fault.programDue = true ∧ s.fault.fatalDue = true ∧ s.stopAt = none ∧ s.tracker = [] ∧ firmwareRuns s = true ∧
       rdb s F.fa_DUMP_READY 0 0 = false ∧ rdb (setb F.fa_DUMP_READY 0 0 true s) F.fa_DUMP_READY 0 0 = true ∧
       livePage s (unitOf 0x70 0) = true ∧ rd s F.fa_DUMP_BASE 0 0 + 2 ^ 30 ≤ s.variant.memBytes) ∧
    (let s := firmware (setb F.sh_DRIVE_READY 3 0 true { up with fault := { up.fault with started := true } })
     s.fault.started = true ∧ readyDrives s = [3]) ∧
    (let s := setb F.sh_DRIVE_READY 3 0 true { up with fault := { up.fault with copyDue := true, copying := [2, 3], copy := [1#8] } }
     s.fault.copyDue = true ∧ copyDrives s = [3] ∧ driveIdle s 3 = true) ∧
    shelfDump onDrive = some (3, emptyDump) ∧
    (let s := onDrive
     livePage s (unitOf 0x70 0) = true ∧ rdb s F.fa_DUMP_READY 0 0 = false ∧ s.fault.started = false ∧ firmwareRuns s = true ∧
       rd s F.fa_DUMP_BASE 0 0 + emptyDump.length ≤ s.variant.memBytes) := by
  refine ⟨?_, ?_, ?_, onDrive_dump, ?_⟩ <;> decide +kernel

/-! ### Witnesses: the commit controller -/

/-- A field of a plain staged kind with its value, and one that a rule of consistency refuses. -/
def plainField : List (FKey × Nat) := [(⟨F.rs_FEED.fid, unitOf 0x61 0, 0⟩, 3)]
def badField : List (FKey × Nat) := [(⟨F.ag_RANGE_GAIN.fid, unitOf 0x11 0, 0⟩, 3)]

/-- Every field of `fs` is a staged one. -/
def stagedOnly (fs : List (FKey × Nat)) : Bool := fs.all fun kv => (fieldOf kv.1.fid).any fun f => decide (f.acc = .st)

theorem stagedOnly_spec {fs : List (FKey × Nat)} (h : stagedOnly fs = true) : StagedOnly fs := by
  intro kv hk
  have := List.all_eq_true.mp h kv hk
  rw [Option.any_eq_true] at this
  obtain ⟨f, hf, ha⟩ := this
  exact ⟨f, hf, of_decide_eq_true ha⟩

/-- A commit of `fs` whose check goes on (1) or that is pending (2). -/
def commitOf (fs : List (FKey × Nat)) (state : Nat) : State :=
  wr F.cm_STATE 0 0 state { up with commit := { up.commit with snapshot := fs } }

theorem witness_ClaimAndGo : agentReaches up .firmware commitUnit = true ∧ rd up F.cm_OWNER 0 0 = 0 ∧
    (let s := wr F.cm_OWNER 0 0 2 up
     agentReaches s .firmware commitUnit = true ∧ rd s F.cm_OWNER 0 0 = agentCode .firmware ∧ rd s F.cm_STATE 0 0 ≠ 1 ∧
       rd s F.cm_OWNER 0 0 ≠ agentCode .host) ∧
    (let s := wr F.cm_OWNER 0 0 1 (commitOf [] 1)
     rd s F.cm_STATE 0 0 = 1 ∧ rd s F.cm_OWNER 0 0 = goHolder s) ∧
    agentReaches hosted .host commitUnit = true ∧ claimOther hosted .host = false ∧
    claimOther (wr F.cm_OWNER 0 0 (agentCode .firmware) hosted) .host = true ∧
    rd (commitOf [] 2) F.cm_STATE 0 0 = 2 ∧ agentReaches (commitOf [] 2) .firmware commitUnit = true ∧
    livePage up commitUnit = true := by decide +kernel

theorem witness_CommitCheck :
    (let s := commitOf plainField 1
     rd s F.cm_STATE 0 0 = 1 ∧ rd s F.cm_OWNER 0 0 ≠ goHolder s ∧ checkCommit plainField 0 s = none ∧
       checkCommit plainField 2 s = none ∧ hasField plainField F.rs_VIEW_ADDR = false ∧ rdb s F.cm_MEMBERSHIP 0 0 = false ∧
       s.commit.setPending = false ∧ rd (wr F.cm_OWNER 0 0 1 s) F.cm_OWNER 0 0 = goHolder s) ∧
    (checkCommit badField 0 (commitOf badField 1)).isSome = true := by decide +kernel

/-- A step-boundary set that applies by itself. -/
def setOf (fs : List (FKey × Nat)) : State := { up with commit := { up.commit with stepSet := fs, setPending := true } }

theorem witness_CommitsApply : StagedOnly plainField ∧ StagedOnly badField ∧
    (let s := commitOf plainField 2
     rd s F.cm_STATE 0 0 = 2 ∧ s.commit.setPending = false ∧ rdb s F.cm_MEMBERSHIP 0 0 = false ∧ stepFirst s (commitAp s plainField 0) = false ∧
       checkCommit plainField 0 (advanceTo (32 * commitAp s plainField 0) s) = none ∧
       (plainField.all fun kv => decide (unitPage kv.1.unit ≠ 0x62 ∧ kv.1.fid ∉ specialFields.map (·.fid))) = true) ∧
    (let s := commitOf badField 2
     stepFirst s (commitAp s badField 0) = false ∧
       (checkCommit badField 0 (advanceTo (32 * commitAp s badField 0) s)).isSome = true) ∧
    setAp (setOf plainField) = some 1 ∧ checkCommit plainField 2 (advanceTo 32 (setOf plainField)) = none ∧
    setAp (setOf badField) = some 1 ∧ (checkCommit badField 2 (advanceTo 32 (setOf badField))).isSome = true :=
  ⟨stagedOnly_spec (by decide +kernel), stagedOnly_spec (by decide +kernel), by decide +kernel⟩

/-! ### Witnesses: sequencer events -/

/-- The state once the wait of sequencer 0's next command has begun. -/
def inWait : State :=
  match prepare q0 0 0 (running q0 [waiting 0 0] up) with
  | .hold s => s
  | .go s _ _ _ _ => s

theorem witness_SequencerEvents :
    (let s := inWait
     let n := rd s F.sq_WAIT_QUEUE 0 0
     let c := coreAfterNs s (waitLimitUs s 0 * 1000)
     (seqX s q0).waitNs = some 0 ∧ rdb s F.sq_WAITING 0 0 = true ∧ landedBy s c = true ∧ s.stopAt = none ∧
       settled s (queueDie q0) n (queueOf s (queueDie q0) n) = [] ∧ rdb s F.sq_FATAL 0 0 = false) ∧
    (let s := otherBin (running q0 [plain 0 0] up)
     let s := setSeqX q0 { seqX s q0 with switchAt := some 0 } s
     let c := plain 0 0
     (seqX s q0).switchAt = some 0 ∧ nextCmd s q0 = some c ∧ (seqX s q0).popA = none ∧ (seqX s q0).heldTill = none ∧
       (doWaits q0 c s).1 = some ([], none) ∧ 0 ≤ issueAt q0 c none s * domCycles q0 ∧
       (binOf s q0 (1 - activeBin s q0)).map (·.gen) = some (seqX s q0).gen ∧ binValid s q0 (1 - activeBin s q0) = true) ∧
    { up with stopAt := some 16 }.stopAt = some 16 := by decide +kernel

/-! ### Witnesses: supplies, resets, clocks and errors -/

/-- The part without supply, with AUX_3V3 alone, and held in reset. -/
def standby : State := State.blank .t64b .standby
def inReset : State := State.blank .t64b .inReset
def locking : State := State.blank .t64b .locking

theorem witness_SupplyAndReset : State.reset.stage = .noAux ∧ standby.stage ≠ .noAux ∧
    { standby with power := { standby.power with ramping := true } }.power.ramping = true ∧
    (let s := setb (feedOk 0) 0 0 true standby
     rdb s (feedOk 0) 0 0 = true ∧ rdb s (feedOk 1) 0 0 = false ∧ rdb (setb (feedOk 1) 0 0 true s) (feedOk 1) 0 0 = true) ∧
    railsUp up = true ∧ mainRuns up = true ∧ mainRuns standby = false ∧ inReset.stage = .inReset ∧ agentReaches hosted .host (unitOf 0x04 0) = true ∧
    agentReaches inReset .firmware (unitOf 0x04 0) = false := by decide +kernel

/-- `u` is a page of the part that is not up. -/
def notUp (u : Nat) (s : State) : Bool := (allPages s.variant).contains u && !pageReady s u

theorem witness_LockAndBringUp : locking.stage = .locking ∧ up.stage = .clocked ∧
    ([unitOf 0x20 0, unitOf 0x50 0, unitOf 0x70 0, unitOf 0x52 1].all fun u => notUp u up) = true ∧
    bringUpReason 0x20 ≠ 9 ∧ notUp (unitOf 0x60 0) (firmware up) = true ∧ firmwareRuns (firmware up) = true ∧
    notUp (unitOf 0x70 0) (firmware up) = true ∧
    (let s := setReady (unitOf 0x50 1) true 0 0 up
     notUp (unitOf 0x52 1) s = true ∧ pageReady s (unitOf 0x50 1) = true ∧ rdb s F.sh_DRIVE_FAILED 1 0 = false ∧
       4 * 2 ^ 30 + 2 * rd s F.sh_SLOT_BYTES 0 0 ≤ 2 ^ 42 ∧ driveX s 1 = {}) := by decide +kernel

theorem witness_FatalErrors : up.stage = .clocked ∧ mainRuns up = true ∧ mainRuns locking = true ∧ (0 : Nat) < up.variant.stacks ∧ rdb up F.fa_DEVICE_FATAL 0 0 = false ∧
    railsUp inReset = true ∧ rdb inReset F.fa_DEVICE_FATAL 0 0 = false := by decide +kernel

theorem witness_OrderlyOff : readyDrives up = [] ∧ readyDrives (setb F.sh_DRIVE_READY 3 0 true up) ≠ [] ∧
    livePage up (unitOf 0x04 0) = true ∧ livePage (setb F.sh_DRIVE_READY 3 0 true up) (unitOf 0x04 0) = true ∧
    (let s := { up with power := { up.power with offAsked := true } }
     s.power.offAsked = true ∧ drivesIdle s = true ∧
       drivesIdle { (setb F.sh_DRIVE_READY 3 0 true s) with drives := [(3, { todo := [.flush] })] } = false) := by decide +kernel

theorem witness_PowerAndTemperature : up.stage = .clocked ∧
    { up with power := { up.power with unmet := some 5 } }.power.unmet = some 5 ∧ railsUp up = true ∧
    (List.replicate 48 (200 : Int)).length = 48 ∧ (∀ x ∈ List.replicate 48 (200 : Int), -32768 ≤ x ∧ x < 32768) ∧
    (∀ k < 48, (200 : Int) < 8 * (thermLimits up k).2.2) ∧ (∀ x ∈ List.replicate 48 (32767 : Int), -32768 ≤ x ∧ x < 32768) ∧
    8 * (thermLimits up 0).2.2 ≤ 32767 := by decide +kernel

theorem witness_SmbusCommands : State.reset.stage = .noAux ∧ standby.stage = .standby ∧ railsUp up = true ∧
    (1500 : Nat) ≤ 1500 ∧ (1499 : Nat) < 1500 ∧ (4200 : Nat) < 4201 ∧ (0x02 : Nat) ∉ [0x00, 0x01, 0x10, 0x11, 0x20, 0x30] := by decide +kernel

/-! ### Witnesses: the host interface -/

theorem witness_HostEndpointAndRings : endpointUp hosted = true ∧ hostRegs hosted = true ∧ railsUp up = true ∧ up.perst = true ∧
    railsUp standby = false ∧
    (let s := setb F.hi_RING_ENABLE 0 4 true (setb F.hi_RING_ENABLE 0 0 true hosted)
     rdb s F.hi_RING_ENABLE 0 4 = true ∧ (5 + 2 ^ 32 - rd s F.hi_HOST_INDEX 0 4) % 2 ^ 32 < 2 ^ 31 ∧
       (5 + 2 ^ 32 - rd s F.hi_PART_INDEX 0 4) % 2 ^ 32 ≤ hostRingSize s 4 ∧
       ¬(1 + 2 ^ 32 - rd s F.hi_HOST_INDEX 0 0) % 2 ^ 32 ≤ (rd s F.hi_PART_INDEX 0 0 + 2 ^ 32 - rd s F.hi_HOST_INDEX 0 0) % 2 ^ 32 ∧
       rdb s F.hi_RING_ENABLE 0 35 = false) := by decide +kernel

/-- The drive of control die 1 is in use, with the commands `os` outstanding. -/
def withDrive (os : List DriveCmd) : State :=
  let s := setb F.sh_DRIVE_READY 1 0 true up
  { s with drives := [(1, { waiting := os.map fun o => (o, 0) })] }

theorem witness_DriveCommands :
    (let s := withDrive [.write 0 4096, .read 0 8192, .getLog 2]
     rdb s F.sh_DRIVE_READY 1 0 = true ∧ (driveX s 1).waiting[0]? = some (.write 0 4096, 0) ∧
       (driveX s 1).waiting[1]? = some (.read 0 8192, 0) ∧ (driveX s 1).waiting[2]? = some (.getLog 2, 0)) ∧
    (transfer .write 0 5000).length = 1 ∧ (transfer .read 0 (2 ^ 20 + 1)).length = 2 ∧
    livePage up (unitOf 0x52 1) = true := by decide +kernel

theorem witness_DriveFails :
    (let s := { (withDrive [.flush]) with job := { up.job with flashBusy := true, slotMask := [1, 2] } }
     0 < (driveX s 1).waiting.length ∧ rdb s F.sh_DRIVE_READY 1 0 = true ∧ (driveX s 1).waiting ≠ [] ∧ s.job.flashBusy = true ∧
       1 ∈ s.job.slotMask ∧ 1 ∉ (withDrive [.flush]).job.slotMask) ∧
    (let s := setb F.sh_DRIVE_FAILED 1 0 true up
     rdb s F.sh_DRIVE_FAILED 1 0 = true ∧ rdb s F.sh_DRIVE_READY 1 0 = false ∧
       livePage s (unitOf 0x52 1) = true) := by decide +kernel

/-- The slots of the register at BAR0 address `addr`. -/
def slotsOf (s : State) (addr : Nat) : List Slot :=
  match pageAt s.variant addr with
  | some u => slotsAt s u (addr % 4096 / 8 * 8)
  | none => []

/-- The register at `addr` has one field of access `acc`, and the conditions on its field are met. -/
def oneField (s : State) (addr : Nat) (acc : Acc) (ok : Field → Bool) : Bool :=
  match slotsOf s addr with
  | [x] => decide (x.f.acc = acc) && ok x.f && goodAccess s addr 8 && !elsewhere x.f 0
  | _ => false

theorem witness_RegisterWrites : hostUp hosted = true ∧ hosted.stage = .clocked ∧
    oneField hosted (2 * 4096 + 80) .ro (fun _ => true) = true ∧
    oneField hosted (2 * 4096 + 136) .rw (fun f => !expertField f && !conditional f && !expertCode f 3 && valueAllowed f 3 &&
      decide (f.fid ∉ [F.hi_RING_BASE, F.hi_RING_SIZE, F.hi_RING_ENABLE, F.hi_HOST_INDEX, F.ck_STEP_EN, F.ck_PTP_PORT,
        F.ck_PTP_ROLE, F.pt_ENABLE, F.ag_LOAD_HOLD, F.ad_SLEEP, F.ag_PROG_COUNT, F.ag_LAST_STEP, F.ad_PRESET,
        F.ad_LIFE_BUDGET, F.ad_RETIRE_LEVEL, F.sq_QUEUE_SEL].map (·.fid))) = true ∧
    (let s := wrU F.com_EXPERT_EN (unitOf 4 0) 0 1 hosted
     pageAt s.variant 16544 = some (unitOf 4 0) ∧ oneField s 16544 .rw (fun f => !valueAllowed f 48) = true ∧
       rdU s F.com_EXPERT_EN (unitOf 4 0) 0 = 1) ∧
    oneField hosted 1773832 .st (fun f => stageAllowed f 8192 && !stageAllowed f 8193) = true ∧
    oneField hosted (2 * 4096 + 2048) .rw expertField = true ∧ rdU hosted F.com_EXPERT_EN (unitOf 2 0) 0 = 0 ∧
    oneField hosted (21 * 4096 + 368) .st (fun f =>
      decide (f.fid ∉ [F.ag_ROW_GAIN_STG, F.ag_OUTLIER_ROW, F.ag_OUTLIER_VALID].map (·.fid))) = true ∧
    claimOther hosted .host = false ∧ claimOther (wr F.cm_OWNER 0 0 2 hosted) .host = true ∧
    (let xs := slotsOf hosted (2 * 4096 + 64)
     (xs.any fun x => decide (x.f.acc = .w1c) && !elsewhere x.f 0) = true ∧
       (xs.all fun y => decide (y.f.acc = .ro ∨ y.f.acc = .sat ∨ y.f.acc = .w1c)) = true ∧ (xs.map (·.f.fid)).Nodup) := by
  decide +kernel

theorem witness_PageClears : ([unitOf 0x20 0, unitOf 0x62 0, unitOf 0x10 0, unitOf 0x23 0].all fun u => livePage up u) = true ∧
    (let s := wrU F.com_EXPERT_EN (unitOf 0x23 0) 0 1 up
     livePage s (unitOf 0x23 0) = true ∧ rdU s F.com_EXPERT_EN (unitOf 0x23 0) 0 = 1) := by decide +kernel

theorem witness_HostAccesses : hostUp hosted = true ∧ pageReadable hosted 4096 = true ∧ goodAccess hosted 4096 8 = true ∧
    goodAccess hosted 4100 4 = true ∧ goodAccess hosted 4097 8 = false ∧
    (let s : State := { inReset with perst := false }
     hostUp s = true ∧ pageReadable s 8192 = false) ∧
    (let s := hosted
     let a := bar2Addr s 24
     bar2Miss s a 8 = false ∧ poisonedWords s memSpace a 8 = [] ∧ poisonedWords s memSpace (a / 8 * 8) 16 = [] ∧
       beyondView s memSpace a 8 = false ∧ a + 8 ≤ s.variant.memBytes) ∧
    (let s := wr F.hi_WIN_BASE 0 0 2000 hosted
     bar2Miss s (bar2Addr s 0) 8 = true) := by decide +kernel

/-! ### Witnesses: device time and PTP -/

/-- Port 0 carries frames, and it is the PTP port. -/
def linked (s : State) : State := setb F.pt_LINK_UP 0 0 true (setb F.pt_ENABLE 0 0 true (wr F.ck_PTP_PORT 0 0 0 s))

/-- A data set and the clock that follows master 9, which announced it. -/
def gm0 : Gm := { priority1 := 0, clockClass := 6, accuracy := 0, variance := 0, priority2 := 0, identity := 9, steps := 0 }
def follower : State := linked { up with ptp := { up.ptp with best := some (gm0, 9), interval := 10 ^ 9 } }

/-- The clock that is itself the master. -/
def master : State := linked (setb F.ck_PTP_ROLE 0 0 true up)

theorem ptpTaken_follower : PtpTaken ptpMsg follower := by unfold PtpTaken; decide +kernel

theorem witness_DeviceTime : livePage up (unitOf 0x03 0) = true ∧ rdb up F.ck_STEP_EN 0 0 = true ∧
    rdb (setb F.ck_STEP_EN 0 0 false up) F.ck_STEP_EN 0 0 = false ∧ follower.ptp.best = some (gm0, 9) ∧ follower.ptp.interval ≠ 0 ∧ isMaster follower = false ∧
    rdb (setb F.ck_LOCKED 0 0 true follower) F.ck_LOCKED 0 0 = true := by decide +kernel

theorem witness_PtpSync : PtpTaken ptpMsg follower ∧ PtpTaken { ptpMsg with twoStep := true } follower ∧
    parent follower = some ptpMsg.source ∧ ptpMsg.twoStep = false ∧
    (let s := setb F.ck_STEP_EN 0 0 false { follower with ptp := { follower.ptp with waiting := some (3, 7, 10), delay := some 2, last := some (5, 6) } }
     parent s = some ptpMsg.source ∧ s.ptp.waiting = some (ptpMsg.seq, 7, 10) ∧ s.ptp.delay = some 2 ∧ s.ptp.last = some (5, 6) ∧
       ptpMsg.time ≠ 5 ∧ rdb s F.ck_STEP_EN 0 0 = false ∧ rdb (setb F.ck_SERVO_EN 0 0 true s) F.ck_SERVO_EN 0 0 = true ∧
       rdb (setb F.ck_STEP_EN 0 0 true s) F.ck_STEP_EN 0 0 = true) :=
  ⟨ptpTaken_follower, by unfold PtpTaken; decide +kernel, by decide +kernel⟩

theorem witness_PtpMessages : ptpPort follower = some 0 ∧ portCarries follower 0 = true ∧ parent follower = some 9 ∧
    (let s : State := { follower with ptp := { follower.ptp with asked := some (3, 4), last := some (1, 2) } }
     parent s = some ptpMsg.source ∧ s.ptp.asked = some (ptpMsg.seq, 4) ∧ s.ptp.last = some (1, 2)) ∧
    liveBest (linked up) = none ∧ liveBest follower = some (gm0, 9) ∧ (9 : Nat) ≠ 8 ∧ rdb follower F.pt_LOOPBACK 0 0 = false ∧
    ptpMsg.requester ≠ clockIdentity follower * 2 ^ 16 + 1 ∧ clockIdentity follower * 2 ^ 16 + 1 < 2 ^ 80 ∧ lexLt (gmKey gm0 8) (gmKey gm0 9) = true ∧ lexLt (gmKey gm0 10) (gmKey gm0 9) = false ∧
    isMaster master = true ∧ PtpTaken ptpMsg master ∧ ptpPort master = some 0 ∧ portCarries master 0 = true ∧
    (let s := setb F.pt_LINK_UP 1 0 true (setb F.pt_ENABLE 1 0 true follower)
     portHears s 1 = true ∧ ptpPort s ≠ some 1 ∧ sizeAllowed ptpMsg.size = true ∧ sizeAllowed 63 = false) := by
  unfold PtpTaken; decide +kernel

/-! ### Witnesses: the exchange and the transport -/

/-- A step of a membership of two: this device, rank 0 with serial 5, and rank 1 with serial 7. Bucket 0 of four elements
belongs to rank `own`, its accumulators lie at 4096. Port 0 carries frames. -/
def team (own : Nat) : State :=
  let s := wr F.ex_MEMBERS 0 0 2 (wr F.ex_BUCKET_COUNT 0 0 1 (setb F.rs_MEMBER 0 0 true (linked up)))
  { s with job := { s.job with
      view := [⟨5, 0, 1, false, 0, 0, 0⟩, ⟨7, 1, 0, false, 0, 0, 0⟩]
      table := [(0, [4 + at' 36 own + at' 48 (1 - own), 4096, 8192, 12288, 1000])]
      buckets := [(0, { state := 1 })] } }

/-- An operation of rank 1 on bucket 0 in step 0. -/
def rankOp (op first count flags : Nat) (data : List Byte) : XOp :=
  ⟨op + at' 24 1, first + at' 32 count + at' 48 flags, data⟩

/-- What sequencer 0 runs as its next command of class 7 in `s`, with the cycle of its issue. -/
def exchanges (op : Nat) (c : Cmd) (s : State) : State × Nat := issued q0 7 op (running q0 [c] s)

/-- Reading `rs` at cycle `n` meets no write that is still to land and no poisoned word. -/
def cleanAt (rs : List Range) (n : Nat) (s : State) : Bool := cleanReads rs s && (earlySummary s n rs).isNone

theorem witness_SendCommands : ([0, 1, 2, 3].all fun op =>
    [team 0, team 1].all fun t =>
      let c := plain 7 op
      let r := exchanges op c t
      let s1 := r.1
      let x := ctxOf s1 q0
      let r0 := sendRec x c op s1
      let reads := (xSrc x c).ranges r0.count ++
        (if r0.compacted s1 then [⟨(xAux x c).space, (xAux x c).base, 4 * r0.count⟩] else [])
      issues q0 7 op (running q0 [c] t) && decide (trackerCount s1 0 < 32768) && cleanAt reads r.2 s1) = true ∧
    (let s1 := (exchanges 0 (plain 7 0) (team 1)).1
     bOwner s1 0 ≠ ownRank s1 ∧ s1.job.pulls = [] ∧ (bx s1 0).pulling = [] ∧ (bx s1 0).final = false ∧ isMember s1 = true ∧
       bucketDefined s1 0 = true ∧ exchangeStopped s1 = false ∧ serialOf s1 (bOwner s1 0) = some 7 ∧ s1.job.sends = []) ∧
    isMember (exchanges 0 (plain 7 0) up).1 = false ∧ issues q0 7 0 (running q0 [plain 7 0] up) = true := by decide +kernel

/-- A REMOTE_WRITE of one element to rank `r`, and a DELTA_BCAST on bucket `b`. -/
def remoteTo (r : Nat) : Cmd := ⟨7 + at' 4 5, 0, 0, r⟩
def deltaOn (b : Nat) : Cmd := ⟨7 + at' 4 4, at' 43 b, 0, 0⟩

/-- The membership in which this device is the partner of bucket 0's owner, with one moment to keep. -/
def partnered : State :=
  let s := wr F.ex_STATE_PAGES 0 0 4 (team 1)
  { s with job := { s.job with upd := [(0, [at' 40 1])] } }

theorem witness_ExchangeCommands :
    (let s1 := (exchanges 6 (plain 7 6) (team 1)).1
     issues q0 7 6 (running q0 [plain 7 6] (team 1)) = true ∧ trackerCount s1 0 < 32768 ∧ (bx s1 0).noticed = false) ∧
    (let t := setBx 0 { state := 4, noticed := true } (team 1)
     issues q0 7 6 (running q0 [plain 7 6] t) = true ∧ (bx (exchanges 6 (plain 7 6) t).1 0).noticed = true) ∧
    ([0, 1].all fun peer =>
      let c := remoteTo peer
      let r := exchanges 5 c (team 0)
      let d := xSrc (ctxOf r.1 q0) c
      let len := xCount (ctxOf r.1 q0) c * elemBytes d.fmt
      issues q0 7 5 (running q0 [c] (team 0)) && cleanAt [⟨d.space, d.base, len⟩] r.2 r.1 && decide (0 < len) &&
        decide (len ≤ 8192)) = true ∧
    serialOf (team 0) 1 = some 7 ∧ isMember (team 0) = true ∧ ownRank (team 0) = 0 ∧
    ([(deltaOn 0, team 0), (deltaOn 0, partnered), (deltaOn 1, team 0)].all fun ct =>
      let c := ct.1
      let r := exchanges 4 c ct.2
      let x := ctxOf r.1 q0
      let reads : List Range := [⟨(xSrc x c).space, (xSrc x c).base, 4 * xCount x c⟩,
        ⟨(xAux x c).space, (xAux x c).base, ceilDiv (4 * xCount x c) 64 * 64 * uMoments r.1 c.xBucket⟩]
      issues q0 7 4 (running q0 [c] ct.2) && cleanAt reads r.2 r.1) = true ∧
    ownerHere (team 0) 0 = true ∧ ownerHere (team 0) 1 = false ∧ partnerHere (team 0) 1 = false ∧
    (let s1 := (exchanges 4 (deltaOn 0) partnered).1
     let ms := ((momentWrites (ctxOf s1 q0) (deltaOn 0) s1).run {}).1
     partnerHere s1 0 = true ∧ ownerHere s1 0 = false ∧ rdb s1 F.rs_MIRROR 0 0 = false ∧ (bx s1 0).heldDeltas = [] ∧
       ms.length = 1 ∧ (ms.all fun w => !beyondView s1 memSpace w.1 w.2.length) = true ∧
       (ms.all fun w => decide (w.2.length = 2) && decide (cellAt s1 memSpace w.1 ≠ cellAt s1 memSpace (w.1 + 1)) &&
         (cellAt s1 memSpace w.1).isSome && (cellAt s1 memSpace (w.1 + 1)).isSome) = true) ∧
    ([team 0, setBx 0 { (bx (team 0) 0) with cellarValid := true } (team 0)].all fun s =>
      let s1 := (exchanges 4 (deltaOn 0) s).1
      ownerHere s1 0 && !rdb s1 F.rs_MIRROR 0 0 && (bx s1 0).heldDeltas.isEmpty &&
        (((momentWrites (ctxOf s1 q0) (deltaOn 0) s1).run {}).1.all fun w => !beyondView s1 memSpace w.1 w.2.length) &&
        (mayDelta s1 0 == !(bx s 0).cellarValid) && otherRanks s1 == [1] && serialOf s1 1 == some 7) = true := by
  decide +kernel

/-! ### Witnesses: messages -/

/-- The frame of rank 1 with `n` bytes of payload, and that of an operation and of a membership message. -/
def fr (n : Nat) : Frame := { frame 0 with size := frameBytes none (32 + n) }
def fx (x : XOp) : Frame := fr (16 + x.data.length)
def fm (m : Member) : Frame := fr (memberLen m)

/-- The conditions of `Delivers` and of `QuietFrame` as checks. -/
def deliversB (f : Frame) (n type : Nat) (s : State) : Bool :=
  portHears s f.port && sizeAllowed f.size && sizeFits f n && (type == 8 || fromMember s f) && rxCase (rxOf s f) f.msgId == 1 &&
    !barred s type

theorem delivers_spec {f : Frame} {n type : Nat} {s : State} (h : deliversB f n type s = true) : Delivers f n type s := by
  simp only [deliversB, Bool.and_eq_true, Bool.or_eq_true, beq_iff_eq, Bool.not_eq_true'] at h
  obtain ⟨⟨⟨⟨⟨h1, h2⟩, h3⟩, h4⟩, h5⟩, h6⟩ := h
  exact ⟨h1, ⟨h2, h3⟩, h4, h5, h6⟩

def quietB (f : Frame) (s : State) : Bool :=
  s.job.pulls.isEmpty && !voteDue s && !f.ackValid && (rxOf s f).tokens.isEmpty &&
    (List.range (bucketCount s)).all fun b => (bx s b).shards.isEmpty && (bx s b).heldDeltas.isEmpty &&
      ((bx s b).pulling ++ (bx s b).toPull).all fun p => p.last.isNone

theorem quiet_spec {f : Frame} {s : State} (h : quietB f s = true) : QuietFrame f s ∧ QuietWrite f s := by
  simp only [quietB, Bool.and_eq_true, List.isEmpty_iff, Bool.not_eq_true', List.all_eq_true, List.mem_range,
    Option.isNone_iff_eq_none] at h
  obtain ⟨⟨⟨⟨h1, h2⟩, h3⟩, h4⟩, h5⟩ := h
  have hp : PullsSettled s := fun b hb p hp => (h5 b hb).2 p hp
  exact ⟨⟨⟨h1, fun b hb => (h5 b hb).1, hp, h2⟩, h3, h4⟩, hp, h3, h4⟩

theorem witness_MessageReceipt : ((reliableMessages (frame 0) ⟨0, 0, []⟩ ⟨[], []⟩ 0 0 0 0 0 false [] []).all fun x =>
      let n := x.2.1
      decide (sizeAllowed (fr n).size = true ∧ sizeFits (fr n) n = true ∧ sizeFits { frame 0 with size := 9216 } n = false)) = true ∧
    sizeAllowed 63 = false ∧ portHears up 0 = false ∧ portHears (team 0) 0 = true ∧ fromMember (team 0) (fr 16) = true ∧
    fromMember (linked up) (fr 16) = false ∧ (fr 16).ackValid = false ∧
    rxCase (rxOf (team 0) (frame (2 ^ 32 - 1))) (2 ^ 32 - 1) = 0 ∧ rxCase (rxOf (team 0) (frame 1024)) 1024 = 2 ∧
    rxCase (rxOf (team 0) (frame 1023)) 1023 = 1 := by decide +kernel

/-- A landing zone at address 65536 of 64 bytes' expectation. -/
def zoned (expect : Nat) : State :=
  wr F.pt_ZONE_BYTES 0 0 64 (wr F.pt_ZONE_BASE 0 0 65536 (wr F.pt_ZONE_EXPECT 0 0 expect (setb F.pt_ZONE_EN 0 0 true (team 0))))

theorem witness_DeliveredWrites : Delivers (fr 24) 24 3 (team 0) ∧ QuietWrite (fr 24) (team 0) ∧ Delivers (fr 24) 24 3 (zoned 8) ∧
    QuietWrite (fr 24) (zoned 8) ∧ QuietWrite (fr 16) (team 0) ∧
    (let s := team 0
     let f := fr 16
     let g : Frame := { f with msgId := 4 }
     portHears s f.port = true ∧ sizeAllowed f.size = true ∧ sizeFits f 16 = true ∧ fromMember s f = true ∧
       rxCase (rxOf s f) f.msgId = 1 ∧ f.msgId = ((rxOf s f).mark + 1) % 2 ^ 32 ∧ (rxOf s f).seen = [] ∧
       (queueOf s 3 9).length < 64 ∧ g.msgId ≠ ((rxOf s g).mark + 1) % 2 ^ 32 ∧ rxCase (rxOf s g) 4 = 1 ∧
       (65536 : Nat) < 2 ^ 48 ∧ stepNo s = 0 ∧ stepNo s ≠ 1 ∧ serialOf s f.srcRank = some 5 ∧ 65536 + 8 ≤ s.variant.memBytes ∧
       s.newPoison = []) ∧
    (let s := zoned 16
     (∀ z < 64, rdb s F.pt_ZONE_EN 0 z = true → rd s F.pt_ZONE_COUNT 0 z + zoneShare s z 65536 8 < max 1 (rd s F.pt_ZONE_EXPECT 0 z)) ∧
       zoneShare s 0 65536 8 = 8) ∧
    (let s := zoned 8
     let e := max 1 (rd s F.pt_ZONE_EXPECT 0 0)
     let n := rd s F.pt_ZONE_COUNT 0 0 + zoneShare s 0 65536 8
     (∀ y < 64, rdb s F.pt_ZONE_EN 0 y = true → y = 0) ∧ rdb s F.pt_ZONE_EN 0 0 = true ∧ e ≤ n ∧ n < 2 * e ∧
       (queueOf s (rd s F.pt_ZONE_DIE 0 0) (rd s F.pt_ZONE_QUEUE 0 0)).length < 64) :=
  ⟨delivers_spec (by decide +kernel), (quiet_spec (by decide +kernel)).2, delivers_spec (by decide +kernel),
   (quiet_spec (by decide +kernel)).2, (quiet_spec (by decide +kernel)).2, by decide +kernel⟩

/-- An operation that is taken as one of opcode `op`. -/
def goodOp (s : State) (op : Nat) (x : XOp) : Bool := x.opcode == op && x.stepLo == stepNo s % 2 ^ 24 && !badOp s x

theorem goodOp_spec {s : State} {op : Nat} {x : XOp} (h : goodOp s op x = true) : GoodOp s op x := by
  simpa [goodOp, GoodOp, and_assoc] using h

/-- The owner's state in which its own end operations are in, and one in which it awaits an ordered answer of rank 1. -/
def ownDone : State := setBx 0 { state := 2, ended := [(0, 4)] } (team 0)
def pulling : State := setBx 0 { state := 2, closed := true, pulling := [{ rank := 1, first := 0, count := 4 }] } (team 0)

def op1 : XOp := rankOp 1 0 4 0 [1#8, 2#8, 0x80#8, 255#8]
def op5 : XOp := rankOp 5 0 4 0 [3#8]

/-- The closed bucket, and one of which a resend of rank 1 is awaited whose last element is now to come. -/
def shut : State := setBx 0 { state := 3, closed := true } (team 0)
def resending : State := setBx 0 { state := 2, closed := true, included := [0, 1], redo := [(1, 0)], redoSub := true } (team 0)
def op4 : XOp := rankOp 4 0 4 0 [0#8, 1#8, 2#8, 3#8, 4#8, 5#8, 6#8, 7#8]

/-- A send of rank 0 on bucket 0 that is kept, on a device that does not own it. -/
def sender : State :=
  let s := team 1
  let c := plain 7 0
  { s with job := { s.job with sends := [(sendRec (ctxOf s q0) c 0 s)] } }

/-- A send in the ordered form that is kept, on the owner's device. -/
def orderedSender : State :=
  let s := team 0
  { s with job := { s.job with sends := [sendRec (ctxOf s q0) (plain 7 3) 3 s] } }

theorem witness_OwnerMessages : ([(op1, team 0), (op1, team 1), (op5, team 0), (op5, ownDone), (op4, pulling), (op1, shut), (op5, shut),
      (op1, resending), (op5, resending), (rankOp 6 0 4 1 [], team 0), (rankOp 6 0 4 2 [], team 0), (rankOp 6 0 1 1 [], orderedSender)].all fun xs =>
      deliversB (fx xs.1) (16 + xs.1.data.length) 1 xs.2 && quietB (fx xs.1) xs.2) = true ∧
    (∀ x s, deliversB (fx x) (16 + x.data.length) 1 s = true ∧ quietB (fx x) s = true →
      Delivers (fx x) (16 + x.data.length) 1 s ∧ QuietFrame (fx x) s) ∧
    GoodOp (team 0) 1 op1 ∧ GoodOp (team 0) 2 (rankOp 2 0 1 0 [5#8, 3#8, 0#8, 0#8]) ∧ GoodOp (team 0) 3 (rankOp 3 0 4 0 [5#8]) ∧
    Collects (team 0) (fx op1) op1 ∧ GoodOp (team 0) 5 op5 ∧ Collects (team 0) (fx op5) op5 ∧ Collects ownDone (fx op5) op5 ∧
    GoodOp pulling 4 op4 ∧ GoodOp (team 1) 1 op1 ∧ GoodOp (team 0) 6 (rankOp 6 0 4 1 []) ∧
    GoodOp (team 0) 6 (rankOp 6 0 4 2 []) ∧ GoodOp shut 1 op1 ∧ GoodOp shut 5 op5 ∧ GoodOp resending 1 op1 ∧ GoodOp resending 5 op5 ∧
    (let s := team 0
     let f := fx op5
     op5.rank ≠ ownRank s ∧ deadlinePassed s 0 = false ∧ nowNs s ≤ rxNs s f + deadlineLen s 0 ∧ (memberRanks s).contains 0 = true ∧
       ¬bElems s 0 ≤ nmGet 0 0 (bx s 0).ended ∧ bAcc s 0 + 4 * bElems s 0 ≤ s.variant.memBytes ∧ (bx s 0).state = 1 ∧
       serialOf s 1 = some 7 ∧ ordReady s 0 0 4 = false) ∧
    ((memberRanks ownDone).all fun r => decide (bElems ownDone 0 ≤ nmGet 0 r (bx ownDone 0).ended +
      if r = 1 then freshCount ownDone op5 else 0)) = true ∧
    ownerHere pulling 0 = true ∧ ((bx pulling 0).pulling.any fun p => p.rank == op4.rank && !p.done) = true ∧
    ownerHere (team 1) 0 = false ∧ ownerHere shut 0 = true ∧ smFind 1 (bx shut 0).redo = none ∧ (bx shut 0).closed = true ∧
    bitOf op5.flags 2 = false ∧ smFind 1 (bx resending 0).redo = some 0 ∧ bElems resending 0 ≤ 0 + freshCount resending op5 ∧
    goodOp orderedSender 6 (rankOp 6 0 1 1 []) = true ∧ ordReady orderedSender 0 0 1 = true ∧ orderedSender.job.pulls = [] :=
  ⟨by decide +kernel, fun x s h => ⟨delivers_spec h.1, (quiet_spec h.2).1⟩, goodOp_spec (by decide +kernel),
   goodOp_spec (by decide +kernel), goodOp_spec (by decide +kernel), by unfold Collects; decide +kernel, goodOp_spec (by decide +kernel),
   by unfold Collects; decide +kernel, by unfold Collects; decide +kernel, goodOp_spec (by decide +kernel),
   goodOp_spec (by decide +kernel), goodOp_spec (by decide +kernel), goodOp_spec (by decide +kernel), goodOp_spec (by decide +kernel),
   goodOp_spec (by decide +kernel), goodOp_spec (by decide +kernel), goodOp_spec (by decide +kernel), by decide +kernel⟩

/-- Bucket 0 has a deadline 5 ns after the start, and is closed and reduces with both ranks included. -/
def dueAt : State := setBx 0 { state := 2, deadline := some 5 } (team 0)
def begunOne : State := setBx 0 { state := 2, deadline := some 5, begun := [1] } (team 0)
def reducing : State :=
  let s := setBx 0 { state := 2, closed := true, reducing := true, included := [0, 1] } (team 0)
  { s with job := { s.job with table := [(0, [4 + at' 48 0xFFF, 4096, 8192, 12288, 1000])] } }

theorem sound_dueAt : Sound dueAt := ⟨by decide +kernel, fun e he => absurd (show e ∈ ([] : NMap (List QTok)) from he) (by simp), by decide +kernel⟩

/-- Bucket 0 with the contributions of `x`, and the conditions on which its deadline closes it. -/
def closing (x : BucketX) : State := setBx 0 { x with state := 2, deadline := some 5 } (team 0)
def closes (s : State) : Bool :=
  let x := bx s 0
  let s1 := advanceTo (coreAfterNs s 5) s
  decide (x.deadline = some 5 ∧ ownerHere s 0 = true ∧ x.closed = false ∧ x.state ∈ [1, 2, 6] ∧ x.redo = [] ∧ x.toPull = [] ∧
    x.pulling = []) &&
    ((memberRanks s).all (rankDone s 0) || (deadlinePassed s1 0 && x.begun.all (rankDone s 0))) &&
    x.ended.all fun e => (memberRanks s).contains e.1 || !rankDone s 0 e.1

/-- The same where the policy of every instance drops non-finite contributors. -/
def dropping (s : State) : State := (List.range 64).foldl (fun s i => setb F.ex_NF_POLICY i 0 true s) s

theorem serveInst_lt (s : State) (h : 0 < s.variant.stacks ∧ s.variant.stacks ≤ 64) : serveInst s 0 < 64 := by
  unfold serveInst
  have h1 := Nat.mod_lt (Config.memController (bAcc s 0)) h.1
  have h2 := Nat.div_le_self (Config.memController (bAcc s 0) % s.variant.stacks) s.variant.mcUsed
  omega

theorem dropping_policy : let s := dropping (closing { ended := [(0, 4), (1, 4)], nonfin := [1] })
    rdb s F.ex_NF_POLICY (serveInst s 0) 0 = true :=
  (show ∀ i < 64, rdb (dropping (closing { ended := [(0, 4), (1, 4)], nonfin := [1] })) F.ex_NF_POLICY i 0 = true by decide +kernel) _
    (serveInst_lt _ (by decide +kernel))

theorem witness_OwnerEvents : Sound dueAt ∧ QuietFrame (fr 16) reducing ∧
    (let s := dueAt
     (bx s 0).deadline = some 5 ∧ ownerHere s 0 = true ∧ (bx s 0).closed = false ∧ (bx s 0).state ∈ [1, 2, 6] ∧
       deadlinePassed (advanceTo (coreAfterNs s 5) s) 0 = true ∧ (∀ r ∈ (bx s 0).begun, rankDone s 0 r = true) ∧
       (memberRanks s).all (rankDone s 0) = false ∧ s.stage = .clocked ∧ nowNs s < 2 ^ 62 ∧ 0 < rd s F.ck_INCR 0 0 ∧
       rd s F.ck_INCR 0 0 < 2 ^ 64) ∧
    (let s := begunOne
     (bx s 0).deadline = some 5 ∧ ownerHere s 0 = true ∧ (bx s 0).closed = false ∧ (memberRanks s).all (rankDone s 0) = false ∧
       ∃ r ∈ (bx s 0).begun, rankDone s 0 r = false) ∧
    (let s := reducing
     ownerHere s 0 = true ∧ (bx s 0).reducing = true ∧ poisonedWords s memSpace (bAcc s 0) (4 * bElems s 0) = [] ∧
       (bx s 0).repeated = false ∧ partnerOfBucket s 0 = none ∧ bAcc s 0 + 4 * bElems s 0 ≤ s.variant.memBytes ∧
       (∀ pos < bElems s 0, f32Finite (meanAt s 0 pos (bx s 0).included.length ((bx s 0).ordered || false)) = true) ∧
       (queueOf s (bQueueDie s 0) (bQueue s 0)).length < 64) ∧
    ([closing {}, closing { unbuilt := false, ended := [(0, 4), (1, 4)] }, closing { ended := [(0, 4), (1, 4)] },
      closing { unbuilt := false, ended := [(0, 4), (1, 4)], ovf := [1] }, closing { ended := [(0, 4), (1, 4)], nonfin := [1] },
      closing { unbuilt := false, ended := [(0, 4), (1, 4)], nonfin := [0, 1] }].all fun s => closes s && closes (dropping s)) = true ∧
    ((memberRanks (closing {})).filter (rankDone (closing {}) 0)).length < bMinRanks (closing {}) 0 ∧
    (let s := closing { unbuilt := false, ended := [(0, 4), (1, 4)] }
     bMinRanks s 0 ≤ ((memberRanks s).filter (rankDone s 0)).length ∧ bMode s 0 ≠ 3 ∧ rdb s F.ex_NF_POLICY (serveInst s 0) 0 = false ∧
       otherRanks s = [1] ∧
       serialOf s 1 = some 7) :=
  ⟨sound_dueAt, (quiet_spec (by decide +kernel)).1, by decide +kernel⟩

def notice (flags : Nat) : XOp := rankOp 8 0 2 flags (List.replicate 512 3#8)
def delta : XOp := rankOp 0xA 0 4 0 [127#8, 0#8, 0#8, 0#8, 0#8, 0#8, 0#8, 0#8, 1#8, 2#8, 3#8, 4#8]

/-- The same device with pages in its view, and a second bucket that is not updated. -/
def paged : State :=
  wr F.ex_BUCKET_COUNT 0 0 2 (wr F.ex_MASTER_HALF1 0 0 1048576 (wr F.ex_MASTER_PAGES 0 0 4 (team 1)))

/-- The words of a completion message of bucket 0 in step 0, of two ranks. -/
def cellarMsg : Member := ⟨[0, at' 16 2], List.replicate 512 3#8⟩

/-- A send of rank 0 that went to rank 1, which answers an end operation of it with code 2. -/
def resent : State :=
  let s := sender
  { s with job := { s.job with sends := s.job.sends.map fun r => { r with sentTo := 1 } } }
def refusal2 : XOp := rankOp 7 0 1 2 []

theorem witness_MemberMessages : ([(rankOp 7 0 1 0 [], 1, sender), (refusal2, 1, resent), (notice 0, 1, paged), (notice 6, 1, paged),
      (rankOp 9 0 1 0 [0#8, 0#8, 0#8, 130#8], 1, paged), (delta, 2, paged)].all fun xs =>
      deliversB (fx xs.1) (16 + xs.1.data.length) xs.2.1 xs.2.2 && quietB (fx xs.1) xs.2.2) = true ∧
    Delivers (fm cellarMsg) (memberLen cellarMsg) 8 paged ∧ QuietFrame (fm cellarMsg) paged ∧
    GoodOp sender 7 (rankOp 7 0 1 0 []) ∧ GoodOp resent 7 refusal2 ∧ GoodOp paged 8 (notice 0) ∧
    GoodOp paged 8 (notice 6) ∧ GoodOp paged 9 (rankOp 9 0 1 0 [0#8, 0#8, 0#8, 130#8]) ∧ GoodOp paged 0xA delta ∧
    (let s := sender
     (s.job.sends.filter fun r => r.bucket == 0 && r.op != 3).length = 1 ∧ (rankOp 7 0 1 0 []).flags ≠ 2) ∧
    (let s := resent
     let again := s.job.sends.filter fun r => r.bucket == 0 && r.op != 3 && r.sentTo == refusal2.rank
     refusal2.flags = 2 ∧ bOwner s 0 ≠ ownRank s ∧ serialOf s (bOwner s 0) = some 7 ∧ again.length = 1 ∧ s.job.sends.length = 1 ∧
       (again.all fun r =>
         let os := (r.all s).filter fun o => o.first == refusal2.first && o.count == refusal2.count
         (os[(r.refused.filter fun p => p == (refusal2.first, refusal2.count)).length % os.length]?).isSome) = true) ∧
    (let s := paged
     (∃ b' < bucketCount s, b' ≠ 0 ∧ (bx s b').updated = false) ∧ ownerHere s 0 = false ∧
       agreeNext s 0 + bBlocks s 0 ≤ s.variant.memBytes ∧
       poisonedWords s memSpace (masterAddr s curMaster 0 0) 8 = [] ∧ beyondView s memSpace (masterAddr s curMaster 0 0) 8 = false ∧
       beyondView s memSpace (masterAddr s altMaster 0 0) 8 = false ∧
       ((List.range 8).all fun i => (cellAt s memSpace (masterAddr s altMaster 0 0 + i)).isSome) = true ∧
       ((List.range 8).map fun i => cellAt s memSpace (masterAddr s altMaster 0 0 + i)).Nodup ∧
       Member.at' cellarMsg 1 = stepNo s ∧ isMember s = true ∧ bucketDefined s (bits (Member.at' cellarMsg 2) 0 16) = true ∧
       (queueOf s (bQueueDie s 0) (bQueue s 0)).length < 64) :=
  ⟨by decide +kernel, delivers_spec (by decide +kernel), (quiet_spec (by decide +kernel)).1, goodOp_spec (by decide +kernel),
   goodOp_spec (by decide +kernel), goodOp_spec (by decide +kernel), goodOp_spec (by decide +kernel), goodOp_spec (by decide +kernel),
   goodOp_spec (by decide +kernel), by decide +kernel⟩

/-- The leader has rank 1's vote of the step. -/
def oneVote : State :=
  let s := team 0
  { s with job := { s.job with votes := [⟨1, false, false, false⟩] } }

/-- Bucket 0's check is due, on its partner with the value 55 and on its owner. -/
def checkDue : State := setBx 0 { crcDue := true, crcOwn := some 55, cellarValid := true } (team 1)
def checkOwner : State := setBx 0 { crcDue := true, cellarValid := true } (team 0)
def crcMsg (v : Nat) : Member := ⟨crcWords 0 [(0, v)], []⟩

/-- A vote of rank 0, a decision, and a device whose time is past the decision's. -/
def voteMsg : Member := ⟨[0, 2], []⟩
def decisionMsg : Member := ⟨[0, 1000, 1], []⟩
def lateTeam : State := { (team 0) with time := 5000 * 2 ^ 32 }

theorem witness_VotesAndChecks : ([(voteMsg, oneVote), (voteMsg, team 0), (decisionMsg, team 0), (decisionMsg, lateTeam),
      (crcMsg 55, checkDue), (crcMsg 56, checkDue)].all fun ms =>
      deliversB (fm ms.1) (memberLen ms.1) 8 ms.2 && quietB (fm ms.1) ms.2) = true ∧ Sound oneVote ∧
    (let s := oneVote
     (memberRanks s).contains (fm voteMsg).srcRank = true ∧ Member.at' voteMsg 1 = stepNo s ∧ leaderRank s = ownRank s ∧
       isMember s = true ∧ s.job.decision = none ∧ exchangeStopped s = false ∧ (memberRanks s) = [0, 1] ∧
       s.job.votes.map (·.rank) = [1] ∧ otherRanks s = [1] ∧ serialOf s 1 = some 7 ∧ (team 0).job.votes = [] ∧ s.stage = .clocked ∧
       nowNs s < 2 ^ 62 ∧ 0 < rd s F.ck_INCR 0 0 ∧ rd s F.ck_INCR 0 0 < 2 ^ 64) ∧
    ([team 0, lateTeam].all fun s => decide (Member.at' decisionMsg 1 = stepNo s ∧ inView s = true ∧ exchangeStopped s = false)) = true ∧
    nowNs (team 0) ≤ Member.at' decisionMsg 2 ∧ Member.at' decisionMsg 2 < nowNs lateTeam ∧ programLost lateTeam = false ∧
    lateTeam.commit.stepSet = [] ∧
    (let s := checkDue
     (crcMsg 55).words = crcWords (rd s F.cm_EPOCH 0 0) [(0, 55)] ∧ (crcMsg 56).words = crcWords (rd s F.cm_EPOCH 0 0) [(0, 56)] ∧
       partnerHere s 0 = true ∧ (bx s 0).crcDue = true ∧ (bx s 0).crcOwn = some 55) ∧
    (let s := checkOwner
     (bx s 0).crcDue = true ∧ (bx s 0).crcOwn.isNone = true ∧ ownerHere s 0 = true ∧ bPartner s 0 = 1 ∧ serialOf s 1 = some 7 ∧
       (bx s 0).crcPeer = none ∧ s.newPoison = [] ∧ bucketCount s = 1 ∧ uMoments s 0 = 0) :=
  ⟨by decide +kernel, ⟨by decide +kernel, fun e he => absurd (show e ∈ ([] : NMap (List QTok)) from he) (by simp), by decide +kernel⟩,
   by decide +kernel⟩

/-- Rank 1 is reached by port 0; a message to it is not acknowledged, one from it is to be acknowledged, and a page is to go to it. -/
def linkedTeam : State :=
  let s := team 0
  { s with job := { s.job with
      routes := [(7, 77, 1)]
      tx := [(7, { nextId := 4, unacked := [{ id := 3, type := 1, payload := [1#8], bad := [], again := true, sentNs := some 0, intervalUs := 10 }] })]
      rx := [(7, { session := 1, mark := 5, ackDue := some 9 })]
      walks := [⟨0, 1, false, [0], []⟩] } }

/-- A message of a stale write, and one for each other shape of frame. -/
def staleMsg : Member := ⟨[5, 1, 0], []⟩

/-- Rank 1 has found a write to it stale whose page was sent. -/
def staleTeam : State :=
  let s := team 0
  { s with job := { s.job with walks := [⟨0, 1, false, [], [(0, 7, 1)]⟩] } }

/-- A device that joins and does not know the job's step yet. -/
def joiner : State :=
  let s := setb F.rs_JOINING 0 0 true (setb F.rs_MEMBER 0 0 false (team 0))
  { s with job := { s.job with needStep := true } }

theorem witness_TransportTimers : ExchangeQuiet linkedTeam ∧ Delivers (fm staleMsg) (memberLen staleMsg) 8 staleTeam ∧
    QuietFrame (fm staleMsg) staleTeam ∧ Delivers (fr 8) 8 8 (team 0) ∧ QuietWrite (fr 8) (team 0) ∧
    (let s := linkedTeam
     let f : Frame := { fr 0 with ackValid := true, ackMark := 3 }
     let t1 := advanceTo (coreAfterNs s (9 + rd s F.pt_ACK_DELAY 0 0 - 1)) s
     let t2 := advanceTo (coreAfterNs s (0 + 1000 * 10 - 1)) s
     portHears s f.port = true ∧ sizeAllowed f.size = true ∧ sizeFits f 0 = true ∧ fromMember s f = true ∧ f.ackValid = true ∧
       (txPeer s 7).held = [] ∧ (txPeer s 7).unacked.length ≤ 1024 ∧ (rxPeer s 7).isSome = true ∧
       (rxPeer s 7).bind (·.ackDue) = some 9 ∧ reach t1 7 = some (0, 77) ∧ reach t2 7 = some (0, 77) ∧
       rdb s F.pt_LOOPBACK 0 0 = false ∧
       ((txPeer s 7).unacked.filter (fun m => m.id == 3)).map (fun m => (m.sentNs, m.again, m.intervalUs)) = [(some 0, true, 10)] ∧
       mute s 1 = false ∧ walkOpen s 0 = true ∧ windowFull s 1 = false ∧ (findWalk s 0 1 false).map (·.left) = some [0] ∧
       serialOf s 1 = some 7) ∧
    (let s := setb F.pt_ENABLE 0 0 true up
     s.stage = .clocked ∧ 0 < s.variant.ports ∧ rdb s F.pt_ENABLE 0 0 = true ∧ rdb s F.pt_LINK_UP 0 0 = false) ∧
    (let s := team 0
     rdb s F.pt_LINK_UP 0 0 = true ∧ ptpPort s = some (fr 0).port ∧
       ptpPort (setb F.pt_LINK_UP 1 0 true (setb F.pt_ENABLE 1 0 true s)) ≠ some 1 ∧
       portHears (setb F.pt_LINK_UP 1 0 true (setb F.pt_ENABLE 1 0 true s)) 1 = true ∧ s.job.silent = false ∧ s.stage = .clocked ∧
       sizeFits (fr 16) 16 = true ∧ entryOfSerial s (fr 16).serial = some ⟨7, 1, 0, false, 0, 0, 0⟩ ∧ s.job.needStep = false ∧
       rdb s F.rs_MEMBER 0 0 = true ∧ rdb s F.rs_WITHDRAWN 0 0 = false ∧ rd s F.rs_GENERATION 0 0 < 3 ∧
       (fr 16).gen ≤ rd s F.rs_GENERATION 0 0 ∧ isMember s = true ∧ (memberRanks s).contains 1 = true ∧ 1 ≠ ownRank s ∧
       rd s F.rs_SUSPECT_MAP 0 1 = 0) ∧
    (let s := joiner
     portHears s 0 = true ∧ entryOfSerial s (fr 16).serial = some ⟨7, 1, 0, false, 0, 0, 0⟩ ∧ s.job.needStep = true ∧
       rdb s F.rs_JOINING 0 0 = true ∧ (fr 16).gen = rd s F.rs_GENERATION 0 0 ∧ (fr 16).ackValid = false) :=
  ⟨(quiet_spec (f := fr 16) (by decide +kernel)).1.1, delivers_spec (by decide +kernel), (quiet_spec (by decide +kernel)).1,
   delivers_spec (by decide +kernel), (quiet_spec (by decide +kernel)).2, by decide +kernel⟩

/-! ### Witnesses: steps and membership -/

/-- A state after the step commit of alignment period 3, with a drift check at column 511 of array 0, or past the last array. -/
def checking (k : Nat) : State :=
  let s := team 0
  { s with drift := some (0, k), job := { s.job with stepAp := some 3 } }

/-- A group whose pantries are due. -/
def refreshDueState : State := { productState with refreshDue := [0] }

theorem witness_TrainingEvents : livePage up (unitOf 0x60 0) = true ∧ (checking 511).job.stepAp = some 3 ∧ rd (checking 511) F.cm_EPOCH 0 0 = 0 ∧
    ¬(16 ≤ 511 / 524288) ∧ 16 ≤ 16 * 524288 / 524288 ∧ (checking (16 * 524288)).drift = some (0, 16 * 524288) ∧
    up.job.stepAp = none ∧
    (let s := refreshDueState
     s.refreshDue.contains 0 = true ∧ nextAp s ≤ 8 ∧ (slotAt s 0 8).map (·.1) = some 8 ∧ rowsGiven s 0 [] = true ∧
       productBegun s 0 8 = false ∧ afterCommit s 8 = true ∧ changeDue s 8 = false ∧ seqBusy s q89 = true ∧
       (queueOf s 8 15).length < 64 ∧ ((groupArrays s 0).all fun p => (arrX s 0 p).cols.isEmpty) = true ∧
       seqBusy { up with refreshDue := [0] } q89 = false) := by decide +kernel

/-- A decision of step 0. -/
def decided (vetoed : Bool) : State :=
  let s := setBx 0 { state := 4, updated := true } (team 0)
  { s with job := { s.job with decision := some ⟨0, 1000, vetoed⟩ } }

theorem witness_StepCommit : ([true, false].all fun v => (let s := decided v
     decide (s.job.decision = some ⟨0, 1000, v⟩ ∧ stepNo s = 0 ∧ exchangeStopped s = false ∧ programLost s = false ∧
       s.commit.stepSet = []) && (stepAp s).isSome)) = true := by decide +kernel

/-- A membership commit of generation 1 with this device and one other. -/
def pendingJoin (gen : Nat) : State :=
  let s := setb F.cm_MEMBERSHIP 0 0 true (wr F.cm_STATE 0 0 2 up)
  { s with job := { s.job with pendingView := some ⟨gen, 0, false, 0, 0, 0, 0, 0, [],
      [⟨0, 0, 1, false, 0, 0, 0⟩, ⟨7, 1, 0, false, 1, 1, 1⟩]⟩ } }

/-- The same with a staged field that the check refuses. -/
def pendingBad : State := { (pendingJoin 1) with commit := { (pendingJoin 1).commit with snapshot := badField } }

theorem witness_MembershipCommit : StagedOnly (pendingJoin 1).commit.snapshot ∧ StagedOnly pendingBad.commit.snapshot ∧
    ([pendingJoin 1, pendingBad].all fun s => decide (rd s F.cm_STATE 0 0 = 2) && rdb s F.cm_MEMBERSHIP 0 0 &&
      (s.job.pendingView.bind (memberAp s) == some 1) && !stepFirst s 1 &&
      (s.job.pendingView.any fun v => (v.entries.find? (fun e => e.serial == rd s F.id_SERIAL 0 0)).isSome)) = true ∧
    checkCommit (pendingJoin 1).commit.snapshot 0 (advanceTo 32 (pendingJoin 1)) = none ∧
    checkCommit pendingBad.commit.snapshot 0 (advanceTo 32 pendingBad) ≠ none :=
  ⟨stagedOnly_spec (by decide +kernel), stagedOnly_spec (by decide +kernel), by decide +kernel⟩

/-! ### Witnesses: queries -/

/-- A vector addition, one whose result lies in another format over its source, and an array product of a chain, with operands through register 2, at offset `off` from the chain's origin. -/
def chainAdd : Cmd := ⟨3 + at' 4 2 + at' 10 1, 0, 2 + at' 21 2, 2 + at' 5 1 + at' 15 2⟩
def chainClash : Cmd := ⟨3 + at' 4 2 + at' 10 1, 0, 2 + at' 21 2, 2 + at' 15 1⟩
def chainProduct : Cmd := ⟨5 + at' 10 8, 0, 2 + at' 21 2, 2 + at' 21 2⟩

/-- Endpoint 0 on die 0, defined, with the chain `cs` and the queries `qs`. -/
def served (cs : List Cmd) (qs : List Query) : State :=
  let s := setb F.qe_ADMIT_EN 0 0 true (wr F.qe_SPACING 0 0 1 (wr F.qe_QUEUE_BOUND 0 0 4 (setReady (groupUnit 0) true 0 0 (linked up))))
  { s with chains := [(0, ⟨cs, List.replicate 32 0, 0, 0⟩)], queries := qs }

/-- A query of endpoint 0 with origin 16. -/
def query0 (started : Bool) (next : Nat) : Query :=
  { ep := 0, k := 3, src := .frame 0 7 none 7 0 0, clientTag := 9, arrival := 1, promised := 100, step := 0, input := [5], origin := 16
    started := started, next := next }

theorem witness_QueryRequests :
    (let f := fr (8 + 2 * 1)
     portHears (served [chainAdd] []) f.port = true ∧ sizeAllowed f.size = true ∧ sizeFits f (8 + 2 * 1) = true) ∧
    refusal (served [chainAdd] []) 0 1 false = none ∧ refusal (linked up) 0 1 false = some 1 ∧
    refusal (served [chainAdd] []) 0 2 false = some 5 ∧
    (let s := setb F.hi_BUS_MASTER 0 0 true (setb F.hi_RING_ENABLE 0 4 true (setb F.hi_RING_ENABLE 0 20 true
       (wr F.hi_HOST_INDEX 0 4 1 { (served [chainAdd] []) with perst := false })))
     ringReads s 0 = true ∧ refusal s 0 1 (badDescriptor s [at' 16 1, 0, 0]) = none ∧
       (refusal s 0 2 (badDescriptor s [at' 16 2, 0, 0])).isSome = true) := by decide +kernel

theorem witness_ChainCommands :
    (let s := served [chainAdd] [query0 false 0]
     nextStart s 0 = some (query0 false 0) ∧ landedBy s (32 * 16) = true ∧ epDie s 0 < 4) ∧
    (let s := served [chainAdd] [query0 true 0]
     let t := 32 * (16 + chainAdd.issueOffset)
     let r := vectorWork chainAdd.op { chainCtx s 0 3 (chainOf s 0) with tag := epTag 0 } chainAdd (asOf t (advanceTo t s))
     findQuery s 0 3 = some (query0 true 0) ∧ (chainOf s 0).entries[0]? = some chainAdd ∧ chainAdd.cls ≠ 5 ∧ landedBy s t = true ∧
       earlySummary (advanceTo t s) t r.reads = none ∧ cleanReads r.reads (advanceTo t s) = true ∧
       r.overlap = false) ∧
    (let s := served [chainClash] [query0 true 0]
     let t := 32 * (16 + chainClash.issueOffset)
     let r := vectorWork chainClash.op { chainCtx s 0 3 (chainOf s 0) with tag := epTag 0 } chainClash (asOf t (advanceTo t s))
     chainClash.cls ≠ 5 ∧ landedBy s t = true ∧ earlySummary (advanceTo t s) t r.reads = none ∧
       cleanReads r.reads (advanceTo t s) = true ∧ r.overlap = true) ∧
    (let s := served [chainProduct] [query0 true 0]
     let ap := 16 + chainProduct.issueOffset - 1
     let x := { chainCtx s 0 3 (chainOf s 0) with tag := epTag 0 }
     (chainOf s 0).entries[0]? = some chainProduct ∧ chainProduct.cls = 5 ∧ landedBy s (32 * ap) = true ∧
       productHeld s (chainProduct.waitA / 16) x chainProduct ap = false ∧ groupReady s chainProduct.waitA = true ∧
       groupReady (setReady (groupUnit 0) false 7 0 s) chainProduct.waitA = false) := by decide +kernel

theorem witness_QueryCompletion :
    (let q := { (query0 true 1) with ready := some (3, 0, [1#8, 2#8]) }
     let s := setb F.pt_LINK_UP 0 0 false (served [chainAdd] [q])
     findQuery s 0 3 = some q ∧ q.ready = some (3, 0, [1#8, 2#8]) ∧ readyOn s 0 = [q] ∧ nowNs s ≤ q.promised ∧ s.stage = .clocked ∧
       0 < s.variant.ports ∧ rdb s F.pt_ENABLE 0 0 = true ∧ rdb s F.pt_LINK_UP 0 0 = false ∧ rdb s F.pt_LOOPBACK 0 0 = false) ∧
    (let s := served [chainAdd] [query0 true 1]
     findQuery s 0 3 = some (query0 true 1) ∧ (query0 true 1).ready = none ∧ queryStatus s (query0 true 1) = some 0 ∧
       portCarries s 0 = true ∧ rdb s F.pt_LOOPBACK 0 0 = false ∧ portCarries (setb F.pt_LINK_UP 0 0 false s) 0 = false ∧
       queryStatus (setb F.pt_LINK_UP 0 0 false s) (query0 true 1) = some 0) ∧
    (let q := { (query0 true 1) with src := .ring 0 4 4096, stale := true }
     let s := setb F.hi_BUS_MASTER 0 0 true (setb F.hi_RING_ENABLE 0 20 true { (served [chainAdd] [q]) with perst := false })
     findQuery s 0 3 = some q ∧ q.ready = none ∧ queryStatus s q = some 9 ∧ ringWritable s 0 = true) := by decide +kernel

/-! ### Witnesses: the arrays, memory and the shelf -/

/-- What array 0 of array die 0 holds. -/
def withArray (x : ArrX) (s : State) : State := setArrX 0 0 x s

/-- A ready group 0. -/
def groupUp : State := setReady (groupUnit 0) true 0 0 up

/-- A column write that runs in a group that is not ready, from alignment period 0. -/
def write3 : ColWrite :=
  { col := 3, source := 0, scale := 0, exempt := false, fromZero := false, running := true
    levels := some (List.replicate 512 1), limited := false }

theorem witness_SweepConversions :
    (let s := up
     arrayLive s 0 0 = true ∧ s.core ≤ 32 * 3 ∧ (sweepOf s 0 0).run = none ∧ sweepAllowed s 0 0 = true ∧
       foregroundFree s 0 0 3 = true ∧ writeTakes s 0 0 3 = false) ∧
    (let s := withArray { sweep := { run := some 3 } } up
     (sweepOf s 0 0).run = some 3 ∧ ((List.range 5).any fun k => writeSlotStart s 0 0 (3 + k + 1)) = false ∧ groupFor s 0 0 = some 0) ∧
    (let s := setArrX 0 1030 { sweep := { run := some 3 } } up
     (sweepOf s 0 1030).run = some 3 ∧ groupFor s 0 1030 = none) ∧
    (let s := withArray { write := some write3, sweep := { run := some 3 } } up
     ((List.range 5).any fun k => writeSlotStart s 0 0 (3 + k + 1)) = true) ∧
    (let s := wrA F.ag_STANDBY_READY 0 0 0 1 groupUp
     groupFor s 0 0 = some 0 ∧ rdA s F.ag_STANDBY_READY 0 0 0 = 1 ∧ (sweepOf s 0 0).readyAt ≤ 512 ∧
       (slotAt s 0 512).map (·.1) = some 512 ∧ (slotIn (rd s F.ag_FRAME_PHASE 0 0) 512).1 % 64 = 0 ∧ s.core ≤ 32 * 512 ∧
       changeDue s 512 = false ∧ (arrX s 0 0).fgUntil ≤ 512) ∧
    (let s := advanceTo 2000000000 up
     arrayLive s 0 0 = true ∧ (sweepOf s 0 0).staleSaid = false ∧
       rd s F.ag_STALE_LIMIT (pageInst s 0 0) 0 ≤ usSince s (sweepOf s 0 0).lastNs) := by decide +kernel

/-- Array-group sequencer 89 runs, so that group 0 is in use. -/
def inUse : State := running q89 [plain 0 0] groupUp

theorem witness_VerifyAndSleep : rdb groupUp F.ag_LOAD_HOLD 0 0 = false ∧ livePage up (groupUnit 0) = true ∧ livePage up (unitOf 0x10 0) = true ∧ groupInUse inUse 0 = true ∧ groupInUse groupUp 0 = false ∧ groupUp.dark.contains 0 = false ∧
    (let s := setb F.ag_VERIFY_RUNNING 0 0 true up
     verifyLeft s 0 = 0 ∧ rdb s F.ag_VERIFY_RUNNING 0 0 = true ∧ (∀ p ∈ groupArrays s 0, (sweepOf s 0 p).wakeCols = [] ∧
       (arrX s 0 p).failed = false) ∧ rdb s F.fa_DEVICE_FATAL 0 0 = false ∧ rdb s F.ag_LOAD_HOLD 0 0 = false ∧
       s.dark.contains 0 = false ∧ epochsMixed s 0 = false) ∧
    rdb (setb F.ag_LOAD_HOLD 0 0 true up) F.ag_LOAD_HOLD 0 0 = true ∧ (dieGroups 0).any (groupInUse inUse) = true ∧
    (dieGroups 0).any (groupInUse groupUp) = false ∧
    (let s := setb F.ad_SLEEP 0 0 true up
     rdb s F.ad_SLEEP 0 0 = true ∧ s.dark.contains 0 = false) ∧
    rdb { up with dark := [0] } F.ad_SLEEP 0 0 = false ∧ { up with dark := [0] }.dark.contains 0 = true := by decide +kernel

/-- Column 0 of array 0 in WRITE_STATE `v`, in bypass for states 2 to 6. -/
def colAt (v : Nat) (x : ArrX) : State :=
  wrA F.ag_IN_BYPASS 0 0 0 (b2n (decide (2 ≤ v))) (wrA F.ag_WRITE_STATE 0 0 0 v (withArray x up))

/-- The pantry slot of column `j`, and 24 slots in use. -/
def slot (j : Nat) (loaded : Bool) : PantryCol := ⟨j, 4096, [], loaded, 0⟩
def fullPantry : NMap PantryCol := (List.range 24).map fun k => (k + 8, slot (k + 1) true)

/-- A bypass limit that is reached: 24 columns in bypass. -/
def limited : State := (List.range 24).foldl (fun s k => wrA F.ag_IN_BYPASS 0 0 (k + 1) 1 s) (colAt 1 {})

theorem witness_ColumnCommands : livePage up (groupUnit 0) = true ∧ arraySel up 0 = (0, 0) ∧ rd up F.ag_COLUMN 0 0 = 0 ∧
    colState (colAt 1 {}) 0 0 0 ≠ 0 ∧ colState up 0 0 0 = 0 ∧ slotOfCol (arrX up 0 0) 0 = none ∧
    (let s := withArray { cols := fullPantry } up
     colState s 0 0 0 = 0 ∧ slotOfCol (arrX s 0 0) 0 = none ∧ freeSlot (arrX s 0 0) = none) ∧
    freeSlot (arrX up 0 0) = some 8 ∧ colState up 0 0 0 ≠ 1 ∧ (arrX (colAt 1 {}) 0 0).evicting.contains 0 = false ∧
    entersBypass (arrX (colAt 1 {}) 0 0) 0 = false ∧
    entersBypass (arrX (colAt 1 { write := some { write3 with col := 0, running := false } }) 0 0) 0 = true ∧
    limitCount (colAt 1 {}) 0 0 + 1 ≤ bypassLimit (colAt 1 {}) 0 0 ∧ bypassLimit limited 0 0 < limitCount limited 0 0 + 1 ∧
    colState limited 0 0 0 = 1 ∧
    (let s := colAt 2 {}
     (arrX s 0 0).write = none ∧ mayStartWrite s 0 0 = true ∧ colState s 0 0 0 ∈ [2, 4, 6] ∧ inBypass s 0 0 0 = true ∧
       rdA s F.ag_PROG_COUNT 0 0 0 < (writeLimits s 0).2 ∧ arrayIdle s 0 0 = true) ∧
    (let s := colAt 2 { write := some write3 }
     (arrX s 0 0).write.isSome = true ∧ colState s 0 0 0 ∈ [2, 4, 6] ∧ inBypass s 0 0 0 = true) ∧
    (let s := withArray { cols := [(8, slot 5 false)], evicting := [0, 7] } (colAt 1 {})
     slotOfCol (arrX s 0 0) 5 = some 8 ∧ bypassCol (arrX s 0 0) 5 = some (slot 5 false) ∧ (slot 5 false).loaded = false ∧
       (∀ e ∈ (arrX s 0 0).cols, e.2.col = 5 → e.1 = 8) ∧ rdA (wrA F.ag_PERMANENT 0 0 5 1 s) F.ag_PERMANENT 0 0 5 = 1 ∧
       inBypass s 0 0 5 = false ∧ limitCount s 0 0 + 1 ≤ bypassLimit s 0 0 ∧ (∀ j ∈ (arrX s 0 0).evicting, j < 512) ∧ pantryOwed s 0 0 = false ∧
       colState s 0 0 0 = 1 ∧ colState s 0 0 7 ≠ 1) ∧
    (let s := withArray { write := some { write3 with running := false } } up
     (arrX s 0 0).write = some { write3 with running := false } ∧ write3.col < 512 ∧ mayStartWrite s 0 0 = true) ∧
    (let s := withArray { write := some write3 } up
     let n := (writeRun s 0 write3 []).1
     (arrX s 0 0).write = some write3 ∧ write3.running = true ∧ s.dark.contains 0 = false ∧ n = 16 ∧
       writeEnds s 0 0 write3 n (8 * n - 1) = true ∧ (writeRun s 0 write3 [255]).2 = some 0 ∧
       (writeLimits s 0).2 = 80000 ∧ progCount s 0 0 3 = 0 ∧ rdA (wrA F.ag_PROG_COUNT 0 0 3 80000 s) F.ag_PROG_COUNT 0 0 3 = 80000) := by
  decide +kernel

/-- A restore whose staging region holds one record, of bucket 0 with its four masters. -/
def restoringState : State :=
  let s := wr F.ex_MASTER_PAGES 0 0 4 (team 0)
  let s := storeMem (rd s F.rs_STAGING_ADDR 0 0) (natLe 8 0 ++ natLe 8 (at' 44 1) ++ natLe 16 0 ++ natLe 32 0 ++ natLe 8 0 ++ natLe 8 4) s
  { s with job := { s.job with restoring := true } }

theorem witness_ScrubAndShelf : livePage up (unitOf 0x61 0) = true ∧ shelfBad up = [] ∧ up.job.stagingRoles = [] ∧
    livePage restoringState (unitOf 0x61 0) = true ∧ (readyDrives (setb F.sh_DRIVE_READY 2 0 true up)).contains 2 = true ∧
    0 < up.variant.stacks ∧ rd up F.mc_SCRUB_INTERVAL 0 0 ≠ 0 ∧ bucketCount up = 0 ∧
    (let s := up
     let a := shelfImage s 4 true
     (4 : Nat) ≠ 0 ∧ voteDue s = false ∧ rd s F.rs_STAGING_ADDR 0 0 + a.length ≤ s.variant.memBytes ∧ imageFits s (a.length - 64) = false) ∧
    (let s := setb F.sh_DRIVE_READY 2 0 true (wr F.sh_SLOT_BYTES 0 0 (2 ^ 22) up)
     let a := shelfImage s 4 true
     imageFits s (a.length - 64) = true ∧ s.job.flashBusy = false) ∧
    { up.job with flashBusy := true, stagingEpoch := some 4, slotMask := [2] }.slot < 2 ∧
    (let s := partnered
     let s := setBx 0 { cellarValid := true } { s with poison := (cellAt s memSpace (momentAddr s curState 0 0 0)).toList }
     partnerHere s 0 = true ∧ (bx s 0).cellarValid = true ∧ cellarPoisoned s 0 = true ∧ (∀ b' < bucketCount s, b' ≠ 0 → partnerHere s b' = false)) ∧
    (let s := restoringState
     let a := rd s F.rs_STAGING_ADDR 0 0
     restoring s = true ∧ bits (readNat s memSpace (a + 8) 8) 44 17 = 1 ∧
       (imageRecords s 1 (a + 64)).map (fun r => (r.1, r.2.length)) = [(0, 64)] ∧ 2 * bElems s 0 ≤ 64 ∧ ownerHere s 0 = true ∧
       uMoments s 0 = 0 ∧ ((List.range 8).all fun i => (cellAt s memSpace (masterAddr s curMaster 0 0 + i)).isSome) = true ∧
       ((List.range 8).map fun i => cellAt s memSpace (masterAddr s curMaster 0 0 + i)).Nodup) := by decide +kernel

/-! ### Worked examples of the spec -/

/-- 02_number_formats.md, "one block of 16". -/
theorem test_block_of_16 : b8Exponent (s16ToF32 0x4040#16) = 0x80 ∧ (f32ToB8 .ne false 0x80 (s16ToF32 0xC040#16)).val = 0xA0#8 ∧
    (f32ToB8 (.st 0x6A77) false 0x80 (s16ToF32 0x3DCD#16)).val = 3#8 ∧ (f32ToB8 (.st 0xD000) false 0x80 (s16ToF32 0x3DCD#16)).val = 4#8 := by
  decide +kernel

/-- 05_array_writing.md, "targeting a column": σ = 205 × 2⁻¹⁶ and the three levels. -/
theorem test_column_target : leastScale 15 3 (-6) = 0x3B4D#16 ∧ levelOf 0x3D40#16 0x3B4D#16 = some 15 ∧
    levelOf 0x3CA0#16 0x3B4D#16 = some 6 ∧ levelOf 0xBCF8#16 0x3B4D#16 = some (-10) := by decide +kernel

/-- 06_forward_composition.md, "a segment with one outlier row": scale, zero point and codes of 2.5, −0.8125 and 0.1. -/
theorem test_segment : chooseScale [0x40200000#32, 0xBF500000#32] = (0x3C56#16, 62) ∧
    (f32ToA8 0x3C56#16 62 0x40200000#32).val = 253#8 ∧ (f32ToA8 0x3C56#16 62 0xBF500000#32).val = 0#8 ∧
    (f32ToA8 0x3C56#16 62 0x3DCCCCCD#32).val = 70#8 := by decide +kernel

/-- 12_update_and_health.md, "one element from optimizer to master". -/
theorem test_delta_element : b8Exponent 0x3A400000#32 = 0x74 ∧ (f32ToB8 (.st 0x2A00) false 0x74 0xB8D1B717#32).val = 0xF3#8 := by
  decide +kernel

theorem test_master_update : (let x := (fadd (s16ToF32 0x3D40#16) (b8ToF32 0xF3#8 0x74).val).val
    (f32ToS16 (.st 0x3000) x).val = 0x3D3F#16 ∧ (f32ToS16 (.st 0x6800) x).val = 0x3D40#16) := by decide +kernel

/-- 12_update_and_health.md, "the threshold": E = 2.0 gives 3.0. -/
theorem test_spike_limit : spikeLimit (wr F.he_EWMA 0 0 0x40000000 up) = 0x40400000#32 := by decide +kernel

/-- 02_number_formats.md, R42: the test vectors of the mixer. -/
theorem test_mixer : mixer 0 0 0 0 = (0x7F9019DC#32, 0x80308352#32) ∧ mixer 1 0 0 0 = (0x6A774A4D#32, 0xFD3F986F#32) := by
  decide +kernel

end Sys2Proof.Tests
end

/-! The statements of 00_scope.md: what memory reads after a store, the step that finds no command, and the state after
reset. The rules of a store are said of `storeAs`, which a landing long operation uses too. -/

namespace Sys2Proof.Machine

open Sys2Proof

/-! ### The cell of an address does not depend on what memory holds -/

@[simp] theorem cellAt_writeByte (sp x space a : Nat) (b : Byte) (s : State) :
    cellAt (writeByte space a b s) sp x = cellAt s sp x := by
  unfold writeByte
  split <;> rfl

@[simp] theorem cellAt_writeBytes (sp x space a : Nat) (bs : List Byte) (s : State) :
    cellAt (writeBytes space a bs s) sp x = cellAt s sp x := by
  induction bs generalizing a s with
  | nil => rfl
  | cons b bs ih => rw [writeBytes, ih, cellAt_writeByte]

@[simp] theorem cellAt_clearPoison (sp x space a n : Nat) (s : State) :
    cellAt (clearPoison space a n s) sp x = cellAt s sp x := rfl

@[simp] theorem cellAt_dropTags (sp x space a n : Nat) (s : State) :
    cellAt (dropTags space a n s) sp x = cellAt s sp x := rfl

@[simp] theorem cellAt_keepOld (sp x space a n : Nat) (land : Option Nat) (s : State) :
    cellAt (keepOld space a n land s) sp x = cellAt s sp x := by
  unfold keepOld
  split <;> rfl

@[simp] theorem cellAt_storeAs (sp x space a : Nat) (bs : List Byte) (land : Option Nat) (s : State) :
    cellAt (storeAs land space a bs s) sp x = cellAt s sp x := by
  simp [storeAs]

/-! ### What a store does to the listed bytes -/

@[simp] theorem dropTags_same_mem (space a n : Nat) (s : State) : (dropTags space a n s).mem = s.mem := rfl

@[simp] theorem clearPoison_same_mem (space a n : Nat) (s : State) : (clearPoison space a n s).mem = s.mem := rfl

@[simp] theorem keepOld_same_mem (space a n : Nat) (land : Option Nat) (s : State) :
    (keepOld space a n land s).mem = s.mem := by
  unfold keepOld
  split <;> rfl

theorem writeByte_mem_of_cellAt {space a k : Nat} (b : Byte) {s : State} (h : cellAt s space a = some k) :
    (writeByte space a b s).mem = cellSet k b s.mem := by
  simp [writeByte, h]

theorem cellGet_writeByte_other {space a k : Nat} (b : Byte) {s : State} (h : cellAt s space a ≠ some k) :
    cellGet k (writeByte space a b s).mem = cellGet k s.mem := by
  unfold writeByte
  split
  next c hc => exact cellGet_set_other c k b s.mem fun e => h (e ▸ hc)
  next => rfl

theorem cellsWf_writeByte (space a : Nat) (b : Byte) {s : State} (h : cellsWf s.mem = true) :
    cellsWf (writeByte space a b s).mem = true := by
  unfold writeByte
  split
  next c _ => exact cellsWf_set c b s.mem h
  next => exact h

/-- A cell that none of the addresses written has keeps its byte. -/
theorem cellGet_writeBytes_other {space a k : Nat} {bs : List Byte} {s : State}
    (h : ∀ i < bs.length, cellAt s space (a + i) ≠ some k) :
    cellGet k (writeBytes space a bs s).mem = cellGet k s.mem := by
  induction bs generalizing a s with
  | nil => rfl
  | cons b bs ih =>
    have hhead : cellAt s space a ≠ some k := h 0 (by simp)
    have htail : ∀ i < bs.length, cellAt (writeByte space a b s) space (a + 1 + i) ≠ some k := fun i hi => by
      rw [cellAt_writeByte, Nat.add_right_comm]
      exact h (i + 1) (by simpa using hi)
    rw [writeBytes, ih htail, cellGet_writeByte_other b hhead]

/-- The cell of the `i`-th address written, where no later address has it too, holds the `i`-th byte. -/
theorem cellGet_writeBytes_at {space a k i : Nat} {bs : List Byte} {s : State} (hi : i < bs.length)
    (hk : cellAt s space (a + i) = some k)
    (hlast : ∀ j < bs.length, i < j → cellAt s space (a + j) ≠ some k) :
    cellGet k (writeBytes space a bs s).mem = bs[i] := by
  induction bs generalizing a i s with
  | nil => simp at hi
  | cons b bs ih =>
    rw [writeBytes]
    cases i with
    | zero =>
      have hrest : ∀ j < bs.length, cellAt (writeByte space a b s) space (a + 1 + j) ≠ some k := fun j hj => by
        rw [cellAt_writeByte, Nat.add_right_comm]
        exact hlast (j + 1) (by simpa using hj) j.succ_pos
      have hfirst : (writeByte space a b s).mem = cellSet k b s.mem := writeByte_mem_of_cellAt b hk
      rw [cellGet_writeBytes_other hrest, hfirst, cellGet_set_self, List.getElem_cons_zero]
    | succ i =>
      refine ih (by simpa using hi) (by rwa [cellAt_writeByte, Nat.add_right_comm]) fun j hj hij => ?_
      rw [cellAt_writeByte, Nat.add_right_comm]
      exact hlast (j + 1) (by simpa using hj) (by omega)

theorem cellsWf_writeBytes (space a : Nat) (bs : List Byte) {s : State} (h : cellsWf s.mem = true) :
    cellsWf (writeBytes space a bs s).mem = true := by
  induction bs generalizing a s with
  | nil => exact h
  | cons b bs ih => exact ih (a + 1) (cellsWf_writeByte space a b h)

/-! ### Reads after a store -/

theorem readByte_of_cellAt {s : State} {space a k : Nat} (h : cellAt s space a = some k) :
    readByte s space a = cellGet k s.mem := by
  simp [readByte, h]

/-- Bytes stored at addresses with cells of their own are read back. -/
theorem readBytes_storeAs {space a : Nat} {bs : List Byte} (land : Option Nat) {s : State}
    (hcell : ∀ i < bs.length, ∃ k, cellAt s space (a + i) = some k)
    (hown : ∀ i j, i < bs.length → j < bs.length → cellAt s space (a + i) = cellAt s space (a + j) → i = j) :
    readBytes (storeAs land space a bs s) space a bs.length = bs := by
  refine List.ext_getElem (by simp [readBytes]) fun i _ hi => ?_
  obtain ⟨k, hk⟩ := hcell i hi
  have hlast : ∀ j < bs.length, i < j → cellAt s space (a + j) ≠ some k := fun j hj hij he =>
    absurd (hown i j hi hj (hk.trans he.symm)) (Nat.ne_of_lt hij)
  have hread : readByte (storeAs land space a bs s) space (a + i) = cellGet k (storeAs land space a bs s).mem :=
    readByte_of_cellAt (by rw [cellAt_storeAs, hk])
  have hbyte : cellGet k (storeAs land space a bs s).mem = bs[i] :=
    cellGet_writeBytes_at hi (by simpa using hk) (by simpa using hlast)
  simp [readBytes, hread, hbyte]

/-- A store leaves every cell alone that none of its addresses has. -/
theorem cellGet_storeAs_other {space a k : Nat} {bs : List Byte} (land : Option Nat) {s : State}
    (h : ∀ i < bs.length, cellAt s space (a + i) ≠ some k) :
    cellGet k (storeAs land space a bs s).mem = cellGet k s.mem := by
  rw [storeAs, clearPoison_same_mem, cellGet_writeBytes_other (by simpa using h), keepOld_same_mem, dropTags_same_mem]

/-- A store keeps the canonical form of memory, in a state that need not be sound. -/
theorem cellsWf_storeAs (land : Option Nat) (space a : Nat) (bs : List Byte) {s : State} (h : cellsWf s.mem = true) :
    cellsWf (storeAs land space a bs s).mem = true := by
  rw [storeAs, clearPoison_same_mem]
  exact cellsWf_writeBytes space a bs (by simpa using h)

/-- Settles O8: a store is `storeAs` with no landing cycle. -/
theorem memoryReadBack : Obligations.MemoryReadBack := by
  unfold Obligations.MemoryReadBack
  rintro s space a _ bs rfl hcell hown
  exact ⟨readBytes_storeAs none hcell hown, fun _ => cellGet_storeAs_other none, cellsWf_storeAs none space a bs⟩

/-! ### The step that finds no command -/

theorem step_of_empty {s : State} (h : s.pending = []) : step s = .next (idle s) := by
  simp [step, h]

theorem idle_of_not_clocked {s : State} (h : s.stage ≠ .clocked) : idle s = s := if_neg h

/-- Four core cycles are one register tick, wherever within a tick they begin. -/
theorem advanceTo_four (s : State) :
    advanceTo (s.core + 4) s = { s with
      core := s.core + 4, time := (s.time + rd s F.ck_INCR 0 0) % 2 ^ 96 } := by
  have hcore : max (s.core + 4) s.core = s.core + 4 := by omega
  have htick : (s.core + 4) / 4 - s.core / 4 = 1 := by omega
  simp only [advanceTo, hcore, htick, Nat.one_mul]

theorem idle_of_clocked {s : State} (h : s.stage = .clocked) :
    idle s = { s with core := s.core + 4, time := (s.time + rd s F.ck_INCR 0 0) % 2 ^ 96 } := by
  rw [idle, if_pos h, advanceTo_four]

/-- Settles O2: the step is `idle`, in the two cases of the stage. -/
theorem emptyQueueIdles : Obligations.EmptyQueueIdles := by
  unfold Obligations.EmptyQueueIdles
  intro s hempty
  rw [step_of_empty hempty]
  exact ⟨fun h => by rw [idle_of_not_clocked h], fun h => by rw [idle_of_clocked h]⟩

/-! ### The state after reset -/

/-- A part whose fields nothing has written reads every field at its reset value. PROG_COUNT is left out: it reads what
firmware set at bring-up (R96). -/
theorem rdU_blank (v : Variant) (g : Stage) {f : Field} (hf : f.fid ≠ F.ag_PROG_COUNT.fid) (u i : Nat) :
    rdU (State.blank v g) f u i = resetVal v f u i := if_neg hf

theorem rd_blank (v : Variant) (g : Stage) {f : Field} (hf : f.fid ≠ F.ag_PROG_COUNT.fid) (inst i : Nat) :
    rd (State.blank v g) f inst i = resetVal v f (unitOf f.page inst) i := rdU_blank v g hf _ i

theorem stgU_blank (v : Variant) (g : Stage) (f : Field) (u i : Nat) :
    stgU (State.blank v g) f u i = rdU (State.blank v g) f u i := rfl

theorem queueOf_blank (v : Variant) (g : Stage) (die k : Nat) : queueOf (State.blank v g) die k = [] := rfl

theorem regOf_blank (v : Variant) (g : Stage) (q : SeqId) (r : Nat) : regOf (State.blank v g) q r = 0 :=
  rd_blank v g (f := F.sq_ADDR_VAL) (by decide) q.die (q.num * 32 + r)

theorem predOf_blank (v : Variant) (g : Stage) (q : SeqId) (k : Nat) : predOf (State.blank v g) q k = false := by
  have hflags : rd (State.blank v g) F.sq_PRED q.die q.num = 0 :=
    rd_blank v g (f := F.sq_PRED) (by decide) q.die q.num
  simp [predOf, hflags, bitOf]

theorem sound_blank (v : Variant) (g : Stage) : Sound (State.blank v g) :=
  ⟨rfl, List.forall_mem_nil _, by simp [State.blank]⟩

/-- Settles O3: the state after reset is the blank one of the variant that log 1 names. -/
theorem resetIsSound : Obligations.ResetIsSound := by
  unfold Obligations.ResetIsSound State.reset
  exact ⟨rfl, rfl, queueOf_blank _ _, rfl, rfl, regOf_blank _ _, predOf_blank _ _,
    fun _ _ hf => rdU_blank _ _ hf, fun f _ => stgU_blank _ _ f, sound_blank _ _⟩

end Sys2Proof.Machine

namespace Sys2Proof.Machine

open Sys2Proof

/-! ### What a report, a store and a register write leave alone -/

/-- What a state holds beside its register fields, its memory with the marks kept of it, and the fault logic with the stop
it brings about. -/
def bare (s : State) : State :=
  { s with
    flds := [], mem := [], poison := [], newPoison := [], unmet := [], segTags := [], recent := [], fault := {}, stopAt := none
    freeCtr := 0 }

/-- What every step of a fold leaves alone, the fold leaves alone. -/
theorem foldl_same {σ α β : Type} (v : σ → β) {f : σ → α → σ} (hf : ∀ s x, v (f s x) = v s) (l : List α) (s : σ) :
    v (l.foldl f s) = v s := by
  rw [← List.foldl_hom v (g₂ := fun b _ => b) (fun s x => (hf s x).symm), List.foldl_fixed]

@[simp] theorem bare_foldl {α : Type} {f : State → α → State} (l : List α) (s : State)
    (hf : ∀ s x, bare (f s x) = bare s) : bare (l.foldl f s) = bare s := foldl_same bare hf l s

@[simp] theorem bare_ite {c : Prop} [Decidable c] (s t : State) : bare (if c then s else t) = if c then bare s else bare t :=
  apply_ite bare c s t

@[simp] theorem bare_wrU (f : Field) (u i v : Nat) (s : State) : bare (wrU f u i v s) = bare s := rfl

@[simp] theorem bare_wr (f : Field) (inst i v : Nat) (s : State) : bare (wr f inst i v s) = bare s := rfl

@[simp] theorem bare_wrA (f : Field) (die p j v : Nat) (s : State) : bare (wrA f die p j v s) = bare s := rfl

@[simp] theorem bare_setb (f : Field) (inst i : Nat) (b : Bool) (s : State) : bare (setb f inst i b s) = bare s := rfl

@[simp] theorem bare_satU (f : Field) (u i n pu : Nat) (s : State) : bare (satU f u i n pu s) = bare s := by
  simp [satU, setSat]

@[simp] theorem bare_sat (f : Field) (inst i n : Nat) (s : State) : bare (sat f inst i n s) = bare s := bare_satU _ _ _ _ _ _

@[simp] theorem bare_writeByte (space a : Nat) (b : Byte) (s : State) : bare (writeByte space a b s) = bare s := by
  unfold writeByte
  split <;> rfl

@[simp] theorem bare_writeBytes (space a : Nat) (bs : List Byte) (s : State) : bare (writeBytes space a bs s) = bare s := by
  induction bs generalizing a s with
  | nil => rfl
  | cons b bs ih => rw [writeBytes, ih, bare_writeByte]

@[simp] theorem bare_keepOld (space a n : Nat) (land : Option Nat) (s : State) : bare (keepOld space a n land s) = bare s := by
  unfold keepOld
  split <;> rfl

@[simp] theorem bare_storeMem (a : Nat) (bs : List Byte) (s : State) : bare (storeMem a bs s) = bare s :=
  (bare_writeBytes _ _ _ _).trans (bare_keepOld _ _ _ _ _)

@[simp] theorem bare_logEntry (l key : Nat) (bs : List Byte) (s : State) : bare (logEntry l key bs s) = bare s := by
  have hfault (x : FaultX) (s : State) : bare { s with fault := x } = bare s := rfl
  simp [logEntry, hfault]

@[simp] theorem bare_errorLog (ut ui cls cause tag : Nat) (tv : Bool) (a d : Nat) (s : State) :
    bare (errorLog ut ui cls cause tag tv a d s) = bare s := bare_logEntry _ _ _ _

@[simp] theorem bare_uncorrectable (space : Nat) (ws : List Nat) (cause tag : Nat) (tv : Bool) (s : State) :
    bare (uncorrectable space ws cause tag tv s) = bare s := by
  have hmet (s : State) : bare (meetWords space ws s) = bare s := rfl
  unfold uncorrectable countUncorr
  dsimp only
  rw [bare_errorLog, bare_setb, bare_sat, bare_foldl _ _ fun _ _ => bare_wrU _ _ _ _ _,
    bare_foldl _ _ fun _ _ => bare_satU _ _ _ _ _ _, hmet]

@[simp] theorem bare_partReport (a n : Nat) (s : State) : bare (partReport a n s) = bare s := by
  unfold partReport readReportOf viewReport
  split <;> simp

@[simp] theorem bare_dueDump (die : Nat) (s : State) : bare (dueDump die s) = bare s := by
  have hfault (x : FaultX) : bare { s with fault := x } = bare s := rfl
  simp [dueDump, hfault]

@[simp] theorem bare_programFatal (die kind tag : Nat) (s : State) : bare (programFatal die kind tag s) = bare s := by
  have hstop (x : Option Nat) (s : State) : bare { s with stopAt := x } = bare s := rfl
  unfold programFatal
  dsimp only
  split <;> simp [hstop]

@[simp] theorem bare_guardFault (die tag gen kind lines dieCode addr cycles : Nat) (s : State) :
    bare (guardFault die tag gen kind lines dieCode addr cycles s) = bare s := by
  unfold guardFault guardEntry
  dsimp only
  rw [bare_ite]
  simp

end Sys2Proof.Machine

namespace Sys2Proof.Machine

open Sys2Proof

/-! ### What a step commit leaves alone beside registers and memory -/

/-- What the commit of a step moves of a bucket only where it opens it: all but the plane of its agreed table, the standing
of its cellar copy and its check. -/
def stepBx (x : BucketX) : BucketX :=
  { x with
    flip := 0, agreeValid := false, unbuilt := true, cellarValid := false, landed := [], crcDue := false, crcOwn := none
    crcPeer := none, lost := false }

/-- What the commit of a step moves of what a member holds only where it names it: neither the buckets, which `bxs` holds, nor
the page walks, the image in staging and what waits for the next step. -/
def stepJob (j : JobX) : JobX :=
  { j with
    buckets := [], walks := [], stepAp := none, rebalance := false, stagingEpoch := none, stagingStore := false
    voteHeld := false, stagingGen := 0, stagingRank := 0, stagingRoles := [] }

/-- The same of a state, registers and memory apart. -/
def stepRest (s : State) : State :=
  { bare s with
    programDied := false, lossSampled := false, drift := none, mergedC := [], oldLarder := [], job := stepJob s.job }

/-- Every bucket, as `stepBx` has it. -/
def bxs (s : State) (b : Nat) : BucketX := stepBx (bx s b)

/-- Both: what the parts of a step commit leave alone that neither open a bucket nor drop what the step held. -/
def stepView (s : State) : State × (Nat → BucketX) := (stepRest s, bxs s)

theorem stepView_of_bare {s t : State} (h : bare t = bare s) : stepView t = stepView s := by
  change stepView (bare t) = stepView (bare s)
  rw [h]

@[simp] theorem stepView_ite {c : Prop} [Decidable c] (s t : State) :
    stepView (if c then s else t) = if c then stepView s else stepView t := apply_ite stepView c s t

theorem stepView_foldl {α : Type} {f : State → α → State} (l : List α) (s : State)
    (hf : ∀ s x, stepView (f s x) = stepView s) : stepView (l.foldl f s) = stepView s := foldl_same stepView hf l s

@[simp] theorem stepView_wr (f : Field) (inst i v : Nat) (s : State) : stepView (wr f inst i v s) = stepView s := rfl

@[simp] theorem stepView_setb (f : Field) (inst i : Nat) (b : Bool) (s : State) :
    stepView (setb f inst i b s) = stepView s := rfl

@[simp] theorem stepView_sat (f : Field) (inst i n : Nat) (s : State) : stepView (sat f inst i n s) = stepView s :=
  stepView_of_bare (bare_sat _ _ _ _ _)

@[simp] theorem stepView_storeMem (a : Nat) (bs : List Byte) (s : State) : stepView (storeMem a bs s) = stepView s :=
  stepView_of_bare (bare_storeMem _ _ _)

theorem bx_setBx (b c : Nat) (x : BucketX) (s : State) : bx (setBx b x s) c = if c = b then x else bx s c :=
  nmGet_set _ _ _ _ _

theorem bxs_setBx (b : Nat) (x : BucketX) (s : State) : bxs (setBx b x s) = Function.update (bxs s) b (stepBx x) := by
  funext c
  by_cases h : c = b <;> simp [bxs, bx_setBx, h]

theorem stepRest_setBx (b : Nat) (x : BucketX) (s : State) : stepRest (setBx b x s) = stepRest s := rfl

theorem stepView_modBx (b : Nat) {f : BucketX → BucketX} (s : State) (hf : ∀ x, stepBx (f x) = stepBx x) :
    stepView (modBx b f s) = stepView s := by
  refine Prod.ext (stepRest_setBx _ _ _) ?_
  change bxs (setBx b (f (bx s b)) s) = bxs s
  rw [bxs_setBx, hf]
  exact Function.update_eq_self b (bxs s)

theorem stepView_modJob {f : JobX → JobX} (s : State) (hf : stepJob (f s.job) = stepJob s.job)
    (hb : (f s.job).buckets = s.job.buckets) : stepView (modJob f s) = stepView s := by
  refine Prod.ext ?_ (funext fun b => ?_)
  · change { stepRest s with job := stepJob (f s.job) } = stepRest s
    rw [hf]
    rfl
  · change stepBx (nmGet {} b (f s.job).buckets) = bxs s b
    rw [hb]
    rfl

/-! ### Cellar copies -/

@[simp] theorem stepView_freshCellar (b : Nat) (s : State) : stepView (freshCellar b s) = stepView s := by
  unfold freshCellar zeroPages
  dsimp only
  rw [stepView_storeMem, stepView_storeMem]
  exact stepView_modBx b s fun _ => rfl

@[simp] theorem stepView_cellarStruck (s : State) : stepView (cellarStruck s) = stepView s := by
  unfold cellarStruck cellarScan
  split
  · rfl
  · exact stepView_foldl _ _ fun t b => by simp

@[simp] theorem stepView_refreshCellar (s : State) : stepView (refreshCellar s) = stepView s := rfl

@[simp] theorem stepView_startWalk (b rank : Nat) (master : Bool) (s : State) :
    stepView (startWalk b rank master s) = stepView s := by
  unfold startWalk
  rw [stepView_refreshCellar]
  exact stepView_modJob _ rfl rfl

@[simp] theorem stepView_recellar (b : Nat) (s : State) : stepView (recellar b s) = stepView s := by
  unfold recellar
  dsimp only
  have hmod : stepView (modBx b (fun x => { x with cellarValid := false }) s) = stepView s :=
    stepView_modBx b s fun _ => rfl
  split <;> simp [hmod]

@[simp] theorem stepView_cellarCommit (vetoed : Bool) (old s : State) : stepView (cellarCommit vetoed old s) = stepView s := by
  unfold cellarCommit
  refine (stepView_foldl _ _ fun s b => ?_).trans (stepView_cellarStruck s)
  dsimp only
  split <;> simp

@[simp] theorem stepView_finishWalks (s : State) : stepView (finishWalks s) = stepView s := by
  unfold finishWalks
  dsimp only
  rw [stepView_refreshCellar, stepView_foldl, stepView_foldl]
  · exact stepView_modJob _ rfl rfl
  · intro s w
    split
    · rfl
    · exact (stepView_sat _ _ _ _ _).trans (stepView_modBx _ _ fun _ => rfl)
  · intro s b
    split
    · exact stepView_modBx _ _ fun _ => rfl
    · rfl

/-! ### Lost buckets, checks and images -/

@[simp] theorem stepView_loseBuckets (lost : List Nat) (s : State) : stepView (loseBuckets lost s) = stepView s := by
  have hstop (s : State) : stepView (stopIssue { s with programDied := true }) = stepView s := by
    unfold stopIssue
    split <;> rfl
  have hlost : stepView (lost.foldl (fun s b => modBx b (fun x => { x with lost := true }) s) s) = stepView s :=
    stepView_foldl _ _ fun s b => stepView_modBx b s fun x => rfl
  unfold loseBuckets
  dsimp only
  generalize lost.foldl (fun s b => modBx b (fun x => { x with lost := true }) s) s = s1 at hlost ⊢
  split
  · exact hlost
  · exact (hstop _).trans hlost

@[simp] theorem stepView_stateScan (s : State) : stepView (stateScan s) = stepView s := by
  simp [stateScan]

/-- A check still open at the next commit is skipped. -/
theorem stepView_skipCheck (b : Nat) (s : State) :
    stepView (sat F.rs_CRC_SKIPPED 0 0 1
      (modBx b (fun x => { x with crcDue := false, crcOwn := none, crcPeer := none }) s)) = stepView s :=
  (stepView_sat _ _ _ _ _).trans (stepView_modBx _ _ fun _ => rfl)

@[simp] theorem stepView_crcCommit (e : Nat) (s : State) : stepView (crcCommit e s) = stepView s := by
  refine stepView_foldl _ _ fun s b => ?_
  dsimp only
  split
  · rw [stepView_modBx, stepView_ite, stepView_skipCheck, ite_self]
    exact fun _ => rfl
  · rw [stepView_ite, stepView_skipCheck, ite_self]

@[simp] theorem stepView_shelfCommit (e : Nat) (s : State) : stepView (shelfCommit e s) = stepView s := by
  unfold shelfCommit refreshStaging
  dsimp only
  split
  · rfl
  split
  · simp
  · rw [stepView_setb]
    exact stepView_modJob _ rfl rfl

@[simp] theorem stepView_noteRebalance (s : State) : stepView (noteRebalance s) = stepView s := by
  unfold noteRebalance
  split
  · split
    · exact stepView_modJob _ rfl rfl
    · rfl
  · rfl

/-! ### The detectors, and the planes of the agreed tables -/

@[simp] theorem stepView_lossCommit (vetoed : Bool) (s : State) : stepView (lossCommit vetoed s) = stepView s := by
  unfold lossCommit
  split <;> simp

@[simp] theorem stepView_refreshStarved (s : State) : stepView (refreshStarved s) = stepView s := rfl

@[simp] theorem stepView_runCommit (vetoed : Bool) (s : State) : stepView (runCommit vetoed s) = stepView s := by
  unfold runCommit
  split
  · rfl
  · exact (stepView_refreshStarved _).trans (stepView_foldl _ _ fun s kv => by simp)

@[simp] theorem stepView_swapPlanes (b : Nat) (s : State) : stepView (swapPlanes b s) = stepView s := by
  unfold swapPlanes copyPlane
  rw [stepView_storeMem]
  exact stepView_modBx b s fun _ => rfl

end Sys2Proof.Machine

namespace Sys2Proof.Machine

open Sys2Proof

/-! ### A bit set on all four pages -/

theorem rdb_setAll_self {f : Field} (b : Bool) (s : State) (hf : 1 ≤ f.width) :
    rdb ((List.range 4).foldl (fun s d => setb f d 0 b s) s) f 0 0 = b := by
  have hother (d : Nat) (s : State) (hd : d ≠ 0) : rdb (setb f d 0 b s) f 0 0 = rdb s f 0 0 := by
    unfold rdb setb wr rd
    rw [rdU_wrU_other _ _ _ _ _ _ _ _ (.inr (.inl (by unfold unitOf; omega)))]
  change rdb (setb f 3 0 b (setb f 2 0 b (setb f 1 0 b (setb f 0 0 b s)))) f 0 0 = b
  rw [hother 3 _ (by decide), hother 2 _ (by decide), hother 1 _ (by decide), rdb_setb_self _ _ _ _ _ hf]

theorem setAll_fld {n : Nat} {f : Field} (b : Bool) (s : State) (hf : f.fid ≠ n) :
    FieldKept n s ((List.range 4).foldl (fun s d => setb f d 0 b s) s) :=
  FieldKept.foldl _ (fun _ _ h => setb_fld _ _ _ _ _ hf h) (FieldKept.refl n s)

theorem setAll_variant (f : Field) (b : Bool) (s : State) :
    ((List.range 4).foldl (fun s d => setb f d 0 b s) s).variant = s.variant :=
  foldl_same State.variant (f := fun s d => setb f d 0 b s) (fun _ _ => rfl) _ _

theorem rdb_of_fieldKept {f : Field} {s t : State} (h : FieldKept f.fid s t) (hv : t.variant = s.variant)
    (hf : f.fid ≠ F.ag_PROG_COUNT.fid) (inst i : Nat) : rdb t f inst i = rdb s f inst i :=
  congrArg (· == 1) (h.rdU' hv hf _ _)

theorem sequencersKept_of_fields {s t : State} (hv : t.variant = s.variant) (hr : FieldKept F.sq_ADDR_VAL.fid s t)
    (hp : FieldKept F.sq_PRED.fid s t) : SequencersKept s t where
  regs _ _ := hr.rdU' hv (by decide) _ _
  preds q k := congrArg (bitOf · k) (hp.rdU' hv (by decide) _ _)

/-! ### Which view pages flip (R255, R263) -/

theorem contains_flipSel (p n q : Nat) (sel : List Nat) :
    (flipSel p n sel).contains q = (sel.contains q ^^ decide (p ≤ q ∧ q < p + n)) := by
  induction n with
  | zero =>
    have hnone : ¬(p ≤ q ∧ q < p + 0) := by omega
    simp only [flipSel, List.range_zero, List.foldl_nil, hnone, decide_false, Bool.xor_false]
  | succ n ih =>
    have hlast : flipSel p (n + 1) sel =
        if (flipSel p n sel).contains (p + n) then (flipSel p n sel).filter (· != p + n) else flipSel p n sel ++ [p + n] := by
      rw [flipSel, List.range_succ, List.foldl_append]
      rfl
    by_cases hq : q = p + n
    · subst hq
      have hbefore : ¬(p ≤ p + n ∧ p + n < p + n) := by omega
      have hnow : p ≤ p + n ∧ p + n < p + (n + 1) := by omega
      simp only [hbefore, decide_false, Bool.xor_false] at ih
      simp only [hnow, and_self, decide_true, Bool.xor_true, ← ih]
      rw [hlast]
      cases h : (flipSel p n sel).contains (p + n) <;> simp [List.contains_eq_mem]
    · have hsame : (p ≤ q ∧ q < p + (n + 1)) ↔ (p ≤ q ∧ q < p + n) := by omega
      simp only [hsame, ← ih]
      rw [hlast]
      split <;> simp [List.contains_eq_mem, hq]

/-- What the commit makes of the master selectors for bucket `b`, and of the state selectors. -/
def flipMaster (s : State) (sel : List Nat) (b : Nat) : List Nat :=
  if (bx s b).updated && !(bx s b).nVeto then flipSel (uMPage s b) (bPages s b) sel else sel

def flipState (s : State) (sel : List Nat) (b : Nat) : List Nat :=
  if (bx s b).updated && !(bx s b).nVeto && (bx s b).momentsHere then
    flipSel (uSPage s b) (uMoments s b * bPages s b) sel else sel

/-- The updated buckets whose master pages hold page `p`. -/
def flipCount (s : State) (p : Nat) : Nat :=
  ((List.range (bucketCount s)).filter fun b => (bx s b).updated && !(bx s b).nVeto &&
    decide (uMPage s b ≤ p ∧ p < uMPage s b + bPages s b)).length

theorem flipUpdated_eq (s : State) : flipUpdated s =
    { s with
      selMaster := (List.range (bucketCount s)).foldl (flipMaster s) s.selMaster
      selState := (List.range (bucketCount s)).foldl (flipState s) s.selState } := by
  have hlist (l : List Nat) (m m' : List Nat) :
      l.foldl (fun s b =>
        let x := bx s b
        if x.updated && !x.nVeto then
          let s := { s with selMaster := flipSel (uMPage s b) (bPages s b) s.selMaster }
          if x.momentsHere then { s with selState := flipSel (uSPage s b) (uMoments s b * bPages s b) s.selState } else s
        else s) { s with selMaster := m, selState := m' } =
      { s with selMaster := l.foldl (flipMaster s) m, selState := l.foldl (flipState s) m' } := by
    induction l generalizing m m' with
    | nil => rfl
    | cons b l ih =>
      rw [List.foldl_cons, List.foldl_cons, List.foldl_cons, ← ih]
      congr 1
      change (if (bx s b).updated && !(bx s b).nVeto then if (bx s b).momentsHere then _ else _ else _) = _
      simp only [flipMaster, flipState]
      cases (bx s b).updated && !(bx s b).nVeto <;> cases (bx s b).momentsHere <;> rfl
  exact hlist _ _ _

/-- A page flips as often as updated buckets have it. -/
theorem contains_flipUpdated (s : State) (p : Nat) :
    (flipUpdated s).selMaster.contains p = (s.selMaster.contains p ^^ decide (flipCount s p % 2 = 1)) := by
  have hlist (l : List Nat) (m : List Nat) : (l.foldl (flipMaster s) m).contains p = (m.contains p ^^
      decide ((l.filter fun b => (bx s b).updated && !(bx s b).nVeto &&
        decide (uMPage s b ≤ p ∧ p < uMPage s b + bPages s b)).length % 2 = 1)) := by
    induction l generalizing m with
    | nil => simp
    | cons b l ih =>
      rw [List.foldl_cons, ih, flipMaster, List.filter_cons]
      cases hu : (bx s b).updated && !(bx s b).nVeto
      · simp
      · rw [if_pos rfl, contains_flipSel, Bool.true_and, Bool.xor_assoc]
        congr 1
        by_cases hp : uMPage s b ≤ p ∧ p < uMPage s b + bPages s b
        · simp only [hp, and_self, decide_true, Bool.true_xor, if_true, List.length_cons]
          rw [← decide_not]
          exact decide_eq_decide.2 (by omega)
        · simp only [hp, decide_false, Bool.false_xor, Bool.false_eq_true, if_false]
  rw [flipUpdated_eq]
  exact hlist _ _

end Sys2Proof.Machine

namespace Sys2Proof.Machine

open Sys2Proof

/-! ### The three parts of a step commit (R263) -/

/-- The updated pages flip, or the veto is counted. -/
def flipOrVeto (vetoed : Bool) (s : State) : State :=
  if vetoed then (List.range 4).foldl (fun s d => setb F.ex_VETO_SEEN d 0 true s) (sat F.ex_COMMITS_VETOED 0 0 1 s)
  else flipUpdated s

/-- The step becomes the epoch, and the detectors and the planes of the agreed tables follow. -/
def turnStep (vetoed : Bool) (n : Nat) (s : State) : State :=
  let s := wr F.cm_STEP 0 0 (n + 1) (wr F.cm_EPOCH 0 0 n s)
  runCommit vetoed (lossCommit vetoed ((List.range (bucketCount s)).foldl (fun s b => swapPlanes b s) s))

/-- The commit's alignment period is noted. -/
def noteAp (s : State) : State := modJob (fun j => { j with stepAp := some (nowAp s) }) s

/-- What follows once the next step is open; `old` is the state before the commit. -/
def followStep (vetoed : Bool) (n : Nat) (old s : State) : State :=
  let s := crcCommit n (stateScan (cellarCommit vetoed old (stopDrift (larderFlushAll s))))
  noteRebalance (noteAp (shelfCommit n (finishWalks s)))

theorem bxs_eq_of_view {s t : State} (h : stepView t = stepView s) : bxs t = bxs s := congrArg Prod.snd h

theorem stepRest_eq_of_view {s t : State} (h : stepView t = stepView s) : stepRest t = stepRest s := congrArg Prod.fst h

theorem bucketCount_of_kept {s t : State} (h : FieldKept F.ex_BUCKET_COUNT.fid s t) (hv : t.variant = s.variant) :
    bucketCount t = bucketCount s := h.rdU' hv (by decide) _ _

@[simp] theorem stepRest_core (s : State) : (stepRest s).core = s.core := rfl

@[simp] theorem stepRest_variant (s : State) : (stepRest s).variant = s.variant := rfl

@[simp] theorem stepRest_commit (s : State) : (stepRest s).commit = s.commit := rfl

@[simp] theorem stepRest_selMaster (s : State) : (stepRest s).selMaster = s.selMaster := rfl

@[simp] theorem stepRest_selState (s : State) : (stepRest s).selState = s.selState := rfl

@[simp] theorem stepRest_job (s : State) : (stepRest s).job = stepJob s.job := rfl

/-! #### The pages -/

theorem flipOrVeto_true (s : State) : flipOrVeto true s =
    (List.range 4).foldl (fun s d => setb F.ex_VETO_SEEN d 0 true s) (sat F.ex_COMMITS_VETOED 0 0 1 s) := if_pos rfl

theorem flipOrVeto_true_seen (s : State) : rdb (flipOrVeto true s) F.ex_VETO_SEEN 0 0 = true := by
  rw [flipOrVeto_true, rdb_setAll_self true _ (by decide)]

theorem flipOrVeto_true_view (s : State) : stepView (flipOrVeto true s) = stepView s :=
  (flipOrVeto_true s ▸ stepView_foldl _ _ fun _ _ => stepView_setb _ _ _ _ _).trans (stepView_sat _ _ _ _ _)

theorem flipOrVeto_true_selMaster (s : State) : (flipOrVeto true s).selMaster = s.selMaster := by
  rw [← stepRest_selMaster, stepRest_eq_of_view (flipOrVeto_true_view s), stepRest_selMaster]

theorem flipOrVeto_true_selState (s : State) : (flipOrVeto true s).selState = s.selState := by
  rw [← stepRest_selState, stepRest_eq_of_view (flipOrVeto_true_view s), stepRest_selState]

theorem flipOrVeto_rest (vetoed : Bool) (s : State) : stepRest (flipOrVeto vetoed s) =
    { stepRest s with selMaster := (flipOrVeto vetoed s).selMaster, selState := (flipOrVeto vetoed s).selState } := by
  cases vetoed
  · change stepRest (flipUpdated s) = { stepRest s with selMaster := (flipUpdated s).selMaster, selState := (flipUpdated s).selState }
    rw [flipUpdated_eq]
    rfl
  · rw [flipOrVeto_true_selMaster, flipOrVeto_true_selState, stepRest_eq_of_view (flipOrVeto_true_view s)]
    rfl

theorem flipOrVeto_variant (vetoed : Bool) (s : State) : (flipOrVeto vetoed s).variant = s.variant := by
  rw [← stepRest_variant, flipOrVeto_rest]
  rfl

theorem flipOrVeto_fld {n : Nat} (vetoed : Bool) (s : State) (hn : [9, 10, 11, 266, 318].contains n = false) :
    FieldKept n s (flipOrVeto vetoed s) := by
  have hne (f : Field) (hf : [9, 10, 11, 266, 318].contains f.fid = true) : f.fid ≠ n := by
    rintro rfl
    rw [hf] at hn
    exact absurd hn (by decide)
  cases vetoed
  · exact flipUpdated_fld _ _ (FieldKept.refl n s)
  · rw [flipOrVeto_true]
    exact (sat_fld F.ex_COMMITS_VETOED 0 0 1 s (hne _ (by decide)) (sub_ne _ _ (by decide) hn) (FieldKept.refl n s)).trans
        (setAll_fld _ _ (hne _ (by decide)))

/-! #### The numbers -/

theorem stepView_turnStep (vetoed : Bool) (n : Nat) (s : State) : stepView (turnStep vetoed n s) = stepView s := by
  unfold turnStep
  dsimp only
  rw [stepView_runCommit, stepView_lossCommit, stepView_foldl _ _ fun s b => stepView_swapPlanes b s, stepView_wr, stepView_wr]

/-- What turns with the step leaves every field but the numbers and the detectors. -/
theorem turnStep_fld_numbered {n : Nat} (vetoed : Bool) (m : Nat) (s : State)
    (hn : [9, 10, 11, 339, 349, 350, 351, 353, 354].contains n = false) :
    FieldKept n (wr F.cm_STEP 0 0 (m + 1) (wr F.cm_EPOCH 0 0 m s)) (turnStep vetoed m s) :=
  runCommit_fld _ _ (sub_ne _ _ (by decide) hn) (lossCommit_fld _ _ (sub_ne _ _ (by decide) hn)
    (FieldKept.foldl _ (fun _ _ h => swapPlanes_fld _ _ _ h) (FieldKept.refl _ _)))

theorem turnStep_fld {n : Nat} (vetoed : Bool) (m : Nat) (s : State) (hstep : n ≠ F.cm_STEP.fid) (hepoch : n ≠ F.cm_EPOCH.fid)
    (hn : [9, 10, 11, 339, 349, 350, 351, 353, 354].contains n = false) : FieldKept n s (turnStep vetoed m s) :=
  (wr_fld _ _ _ _ _ hstep.symm (wr_fld _ _ _ _ _ hepoch.symm (FieldKept.refl n s))).trans (turnStep_fld_numbered vetoed m s hn)

/-! #### The next step opens -/

/-- What a member drops of the step that ends. -/
def dropStep (j : JobX) : JobX :=
  { j with
    sends := [], deltas := [], pulls := [], votes := [], decision := none, updNonfinite := false, voteLoss := none
    spiked := false, starvedNow := false, layers := [], voteWaiting := false }

theorem freshStep_view (s : State) : stepView (freshStep s) = stepView { modJob dropStep s with lossSampled := false } :=
  (stepView_setb _ _ _ _ _).trans (stepView_foldl _ _ fun _ _ => stepView_setb _ _ _ _ _)

theorem stepRest_freshStep (s : State) : stepRest (freshStep s) = { stepRest s with job := stepJob (dropStep s.job) } :=
  stepRest_eq_of_view (freshStep_view s)

theorem turned_variant (vetoed : Bool) (n : Nat) (s : State) : (freshStep (turnStep vetoed n s)).variant = s.variant := by
  rw [← stepRest_variant, stepRest_freshStep, stepRest_eq_of_view (stepView_turnStep _ _ _)]
  rfl

theorem rdb_freshStep_voteSent (s : State) : rdb (freshStep s) F.ex_VOTE_SENT 0 0 = false := by
  have hveto (s : State) : rdb (setb F.he_HEALTH_VETO_NOW 0 0 false s) F.ex_VOTE_SENT 0 0 = rdb s F.ex_VOTE_SENT 0 0 :=
    congrArg (· == 1) (rd_wr_other _ _ _ _ _ _ _ _ (by decide))
  unfold freshStep setVoteSent
  rw [hveto, rdb_setAll_self false _ (by decide)]

theorem stepView_writeRecord (b : Nat) (s : State) : stepView (writeRecord b s) = stepView s := stepView_storeMem _ _ _

theorem stepView_zeroAcc (b : Nat) (s : State) : stepView (zeroAcc b s) = stepView s := by
  unfold zeroAcc
  split
  · exact stepView_storeMem _ _ _
  · rfl

theorem openBucket_view (b : Nat) (s : State) :
    stepView (openBucket b s) = (stepRest s, Function.update (bxs s) b { state := 1 }) := by
  unfold openBucket setIncluded modBx
  dsimp only
  rw [stepView_zeroAcc, stepView_writeRecord]
  refine Prod.ext (stepRest_setBx _ _ _) ?_
  change bxs _ = _
  rw [bxs_setBx, bxs_setBx, Function.update_idem, bx_setBx, if_pos rfl]
  rfl

theorem stepRest_openBucket (b : Nat) (s : State) : stepRest (openBucket b s) = stepRest s :=
  (Prod.mk.inj (openBucket_view b s)).1

theorem bxs_openBucket (b : Nat) (s : State) : bxs (openBucket b s) = Function.update (bxs s) b { state := 1 } :=
  (Prod.mk.inj (openBucket_view b s)).2

theorem bxs_openBuckets {n b : Nat} (s : State) (hb : b < n) :
    bxs ((List.range n).foldl (fun s b => openBucket b s) s) b = { state := 1 } := by
  induction n with
  | zero => omega
  | succ n ih =>
    rw [List.range_succ, List.foldl_append, List.foldl_cons, List.foldl_nil, bxs_openBucket]
    by_cases h : b = n
    · rw [h, Function.update_self]
    · rw [Function.update_of_ne h, ih (by omega)]

theorem stepView_refreshPending (s : State) : stepView (refreshPending s) = stepView s :=
  stepView_foldl _ _ fun _ _ => stepView_wr _ _ _ _ _

theorem stepView_refreshVeto (s : State) : stepView (refreshVeto s) = stepView s := by
  unfold refreshVeto
  dsimp only
  rw [stepView_foldl _ _ fun _ _ => stepView_setb _ _ _ _ _]
  split
  · exact stepView_foldl _ _ fun _ _ => stepView_setb _ _ _ _ _
  · rfl

theorem stepRest_openAll (s : State) : stepRest (openAll s) = stepRest s :=
  (stepRest_eq_of_view ((stepView_refreshVeto _).trans (stepView_refreshPending _))).trans
    (foldl_same stepRest (fun s b => stepRest_openBucket b s) _ _)

theorem bxs_openAll {b : Nat} (s : State) (hb : b < bucketCount s) : bxs (openAll s) b = { state := 1 } :=
  (congrFun (bxs_eq_of_view ((stepView_refreshVeto _).trans (stepView_refreshPending _))) b).trans (bxs_openBuckets s hb)

/-- A veto that was seen stays seen. -/
theorem rdb_refreshVeto_seen {s : State} (h : rdb s F.ex_VETO_SEEN 0 0 = true) :
    rdb (refreshVeto s) F.ex_VETO_SEEN 0 0 = true := by
  unfold refreshVeto
  dsimp only
  rw [rdb_of_fieldKept (setAll_fld _ _ (by decide)) (setAll_variant _ _ _) (by decide)]
  split
  · exact rdb_setAll_self true _ (by decide)
  · exact h

theorem rdb_openAll_vetoSeen {s : State} (h : rdb s F.ex_VETO_SEEN 0 0 = true) :
    rdb (openAll s) F.ex_VETO_SEEN 0 0 = true := by
  unfold openAll
  refine rdb_refreshVeto_seen ((rdb_of_fieldKept (s := s) ?_ ?_ (by decide) 0 0).trans h)
  · exact refreshPending_fld _ (by decide) (FieldKept.foldl _ (fun _ _ h => openBucket_fld _ _ _ h) (FieldKept.refl _ _))
  · rw [← stepRest_variant, stepRest_eq_of_view (stepView_refreshPending _),
      foldl_same stepRest (fun s b => stepRest_openBucket b s), stepRest_variant]

/-! #### What follows -/

theorem stepView_noteAp (s : State) : stepView (noteAp s) = stepView s := stepView_modJob s rfl rfl

theorem stepView_followStep (vetoed : Bool) (n : Nat) (old s : State) : stepView (followStep vetoed n old s) = stepView s := by
  unfold followStep
  dsimp only
  rw [stepView_noteRebalance, stepView_noteAp, stepView_shelfCommit, stepView_finishWalks, stepView_crcCommit,
    stepView_stateScan, stepView_cellarCommit]
  rfl

theorem noteAp_fld {n : Nat} {s0 : State} (s : State) (h : FieldKept n s0 s) : FieldKept n s0 (noteAp s) := modJob_fld _ _ _ h

theorem followStep_fld {n : Nat} (vetoed : Bool) (m : Nat) (old s : State)
    (hn : [9, 10, 11, 159, 370, 373, 376, 387, 389, 401, 402, 404].contains n = false) :
    FieldKept n s (followStep vetoed m old s) := by
  have h1 := larderFlushAll_fld s (sub_ne [159] _ (by decide) hn) (FieldKept.refl n s)
  have h2 := stateScan_fld _ (sub_ne [370, 376, 389] _ (by decide) hn)
    (cellarCommit_fld vetoed old _ (sub_ne [387] _ (by decide) hn) (stopDrift_fld _ _ h1))
  have h3 := finishWalks_fld _ (sub_ne [9, 10, 11, 387, 402] _ (by decide) hn)
    (crcCommit_fld m _ (sub_ne [9, 10, 11, 401] _ (by decide) hn) h2)
  unfold followStep
  exact noteRebalance_fld _ _ (noteAp_fld _ (shelfCommit_fld m _ (sub_ne [9, 10, 11, 373, 404] _ (by decide) hn) h3))

theorem noteRebalance_stepAp (s : State) : (noteRebalance s).job.stepAp = s.job.stepAp := by
  unfold noteRebalance
  split
  · split <;> rfl
  · rfl

theorem noteAp_stepAp (s : State) : (noteAp s).job.stepAp = some (nowAp s) := rfl

theorem nowAp_of_view {s t : State} (h : stepView t = stepView s) : nowAp t = nowAp s := by
  unfold nowAp
  rw [← stepRest_core, stepRest_eq_of_view h, stepRest_core]

theorem followStep_stepAp (vetoed : Bool) (n : Nat) (old s : State) :
    (followStep vetoed n old s).job.stepAp = some (nowAp s) := by
  unfold followStep
  dsimp only
  rw [noteRebalance_stepAp, noteAp_stepAp, nowAp_of_view]
  rw [stepView_shelfCommit, stepView_finishWalks, stepView_crcCommit, stepView_stateScan, stepView_cellarCommit]
  rfl

/-- The parts make up the commit, where no step-boundary set is held. -/
theorem applyStep_eq (vetoed : Bool) {s : State} (hset : s.commit.stepSet = []) :
    applyStep vetoed s =
      followStep vetoed (stepNo s) s (openAll (freshStep (turnStep vetoed (stepNo s) (flipOrVeto vetoed s)))) := by
  have hrest : (openAll (freshStep (turnStep vetoed (stepNo s) (flipOrVeto vetoed s)))).commit = s.commit := by
    rw [← stepRest_commit, stepRest_openAll, stepRest_freshStep, stepRest_eq_of_view (stepView_turnStep _ _ _), flipOrVeto_rest]
    rfl
  have hnone (t : State) (ht : t.commit = s.commit) :
      setCommitStep (stopDrift (larderFlushAll t)) = stopDrift (larderFlushAll t) := by
    have hempty : (stopDrift (larderFlushAll t)).commit.stepSet.isEmpty = true := by
      change t.commit.stepSet.isEmpty = true
      rw [ht, hset]
      rfl
    rw [setCommitStep, if_pos hempty]
  unfold followStep
  rw [← hnone _ hrest]
  rfl

/-! ### Nothing is left for the exchange to settle -/

theorem settle_of_opened {s : State} (hpulls : s.job.pulls = [])
    (hopen : ∀ b < bucketCount s, bxs s b = { state := 1 }) : settle s = s := by
  have hserve : servePulls s = s := by rw [servePulls, hpulls, List.foldl_nil]
  have hbucket (b : Nat) (hb : b < bucketCount s) : flushDeltas b (settleShards b s) = s := by
    have hshards : (bx s b).shards = [] := congrArg BucketX.shards (hopen b hb)
    have hheld : (bx s b).heldDeltas = [] := congrArg BucketX.heldDeltas (hopen b hb)
    have hsettle : settleShards b s = s := by simp [settleShards, hshards]
    rw [hsettle]
    simp [flushDeltas, hheld]
  have hfold : (List.range (bucketCount s)).foldl (fun s b => flushDeltas b (settleShards b s)) s = s :=
    List.foldlRecOn (motive := (· = s)) _ _ rfl fun t ht b hb => by
      rw [ht]
      exact hbucket b (List.mem_range.1 hb)
  have hvote : voteDue s = false := by
    unfold voteDue
    by_cases h0 : bucketCount s = 0
    · simp [h0]
    · have hnot : ¬(bx s 0).updated = true := by
        have h1 : (bx s 0).updated = false := congrArg BucketX.updated (hopen 0 (by omega))
        simp [h1]
      have hall : ((List.range (bucketCount s)).all fun b => (bx s b).updated) = false := by
        rw [Bool.eq_false_iff]
        exact fun h => hnot (List.all_eq_true.1 h 0 (List.mem_range.2 (by omega)))
      rw [hall, Bool.and_false]
  unfold settle
  dsimp only
  rw [hserve, hfold, castVote, hvote]
  rfl

end Sys2Proof.Machine

namespace Sys2Proof.Machine

open Sys2Proof

/-! ### What the step commit of a member does -/

section Apply

variable {s : State} (vetoed : Bool) (hset : s.commit.stepSet = [])

include hset

theorem applyStep_rest : stepRest (applyStep vetoed s) =
    { stepRest s with
      job := stepJob (dropStep s.job), selMaster := (flipOrVeto vetoed s).selMaster, selState := (flipOrVeto vetoed s).selState } := by
  have hjob : stepJob (dropStep (turnStep vetoed (stepNo s) (flipOrVeto vetoed s)).job) = stepJob (dropStep s.job) := by
    have h : stepJob (turnStep vetoed (stepNo s) (flipOrVeto vetoed s)).job = stepJob s.job := by
      rw [← stepRest_job, stepRest_eq_of_view (stepView_turnStep _ _ _), flipOrVeto_rest]
      rfl
    exact congrArg dropStep h
  rw [applyStep_eq vetoed hset, stepRest_eq_of_view (stepView_followStep _ _ _ _), stepRest_openAll, stepRest_freshStep, hjob,
    stepRest_eq_of_view (stepView_turnStep _ _ _), flipOrVeto_rest]

theorem applyStep_core : (applyStep vetoed s).core = s.core := by
  rw [← stepRest_core, applyStep_rest vetoed hset]
  rfl

theorem applyStep_variant : (applyStep vetoed s).variant = s.variant := by
  rw [← stepRest_variant, applyStep_rest vetoed hset]
  rfl

theorem applyStep_selMaster : (applyStep vetoed s).selMaster = (flipOrVeto vetoed s).selMaster := by
  rw [← stepRest_selMaster, applyStep_rest vetoed hset]

theorem applyStep_selState : (applyStep vetoed s).selState = (flipOrVeto vetoed s).selState := by
  rw [← stepRest_selState, applyStep_rest vetoed hset]

theorem applyStep_job : stepJob (applyStep vetoed s).job = stepJob (dropStep s.job) := by
  rw [← stepRest_job, applyStep_rest vetoed hset]

/-- From the opening of the next step on no field changes but those listed. -/
theorem applyStep_fld_turned {n : Nat} (hn : [9, 10, 11, 159, 265, 266, 304, 307, 337, 370, 373, 376, 387, 389, 401, 402,
    404].contains n = false) :
    FieldKept n (turnStep vetoed (stepNo s) (flipOrVeto vetoed s)) (applyStep vetoed s) := by
  rw [applyStep_eq vetoed hset]
  exact (openAll_fld _ (sub_ne _ _ (by decide) hn) (freshStep_fld _ (sub_ne _ _ (by decide) hn) (FieldKept.refl n _))).trans
    (followStep_fld _ _ _ _ (sub_ne _ _ (by decide) hn))

/-- The fields that the commit leaves alone, vetoed or not. -/
theorem applyStep_fld {n : Nat} (hn : [9, 10, 11, 159, 265, 266, 304, 307, 318, 337, 339, 349, 350, 351, 353, 354, 370, 373,
    376, 387, 389, 401, 402, 404, 603, 604].contains n = false) : FieldKept n s (applyStep vetoed s) := by
  have hne (k : Nat) (hk : [9, 10, 11, 159, 265, 266, 304, 307, 318, 337, 339, 349, 350, 351, 353, 354, 370, 373,
      376, 387, 389, 401, 402, 404, 603, 604].contains k = true) : n ≠ k := by
    rintro rfl
    rw [hk] at hn
    exact absurd hn (by decide)
  exact ((flipOrVeto_fld vetoed s (sub_ne _ _ (by decide) hn)).trans (turnStep_fld vetoed _ _ (hne _ (by decide))
    (hne _ (by decide)) (sub_ne _ _ (by decide) hn))).trans (applyStep_fld_turned vetoed hset (sub_ne _ _ (by decide) hn))

theorem applyStep_bxs {b : Nat} (hb : b < bucketCount s) : bxs (applyStep vetoed s) b = { state := 1 } := by
  have hcount : bucketCount (freshStep (turnStep vetoed (stepNo s) (flipOrVeto vetoed s))) = bucketCount s := by
    refine bucketCount_of_kept ?_ ?_
    · exact ((flipOrVeto_fld vetoed s (by decide)).trans (turnStep_fld vetoed _ _ (by decide) (by decide) (by decide))).trans
        (freshStep_fld _ (by decide) (FieldKept.refl _ _))
    · rw [turned_variant, flipOrVeto_variant]
  rw [applyStep_eq vetoed hset, bxs_eq_of_view (stepView_followStep _ _ _ _)]
  exact bxs_openAll _ (hcount.symm ▸ hb)

/-- The fields that the numbers and the veto's count stand in are the last that the commit writes before the next step
opens. -/
theorem applyStep_rd_numbered {f : Field} (hn : [9, 10, 11, 159, 265, 266, 304, 307, 337, 339, 349, 350, 351, 353, 354, 370,
    373, 376, 387, 389, 401, 402, 404].contains f.fid = false) (hf : f.fid ≠ F.ag_PROG_COUNT.fid) :
    rd (applyStep vetoed s) f 0 0 =
      rd (wr F.cm_STEP 0 0 (stepNo s + 1) (wr F.cm_EPOCH 0 0 (stepNo s) (flipOrVeto vetoed s))) f 0 0 := by
  have hkept := (turnStep_fld_numbered vetoed (stepNo s) (flipOrVeto vetoed s) (sub_ne _ _ (by decide) hn)).trans
    (applyStep_fld_turned vetoed hset (sub_ne _ _ (by decide) hn))
  refine hkept.rdU' ?_ hf _ _
  rw [applyStep_variant vetoed hset, wr_same_variant, wr_same_variant, flipOrVeto_variant]

theorem applyStep_step : rd (applyStep vetoed s) F.cm_STEP 0 0 = (stepNo s + 1) % 2 ^ F.cm_STEP.width := by
  rw [applyStep_rd_numbered vetoed hset (by decide) (by decide), rd_wr_self]

theorem applyStep_epoch : rd (applyStep vetoed s) F.cm_EPOCH 0 0 = stepNo s % 2 ^ F.cm_EPOCH.width := by
  rw [applyStep_rd_numbered vetoed hset (by decide) (by decide), rd_wr_other _ _ _ _ _ _ _ _ (by decide), rd_wr_self]

theorem applyStep_vetoCount : rd (applyStep vetoed s) F.ex_COMMITS_VETOED 0 0 =
    rd (flipOrVeto vetoed s) F.ex_COMMITS_VETOED 0 0 := by
  rw [applyStep_rd_numbered vetoed hset (by decide) (by decide), rd_wr_other _ _ _ _ _ _ _ _ (by decide),
    rd_wr_other _ _ _ _ _ _ _ _ (by decide)]

theorem applyStep_voteSent : rdb (applyStep vetoed s) F.ex_VOTE_SENT 0 0 = false := by
  rw [applyStep_eq vetoed hset, rdb_of_fieldKept (s := freshStep (turnStep vetoed (stepNo s) (flipOrVeto vetoed s)))
    ((openAll_fld _ (by decide) (FieldKept.refl _ _)).trans (followStep_fld _ _ _ _ (by decide))) ?_ (by decide)]
  · exact rdb_freshStep_voteSent _
  · rw [← stepRest_variant, stepRest_eq_of_view (stepView_followStep _ _ _ _), stepRest_openAll, stepRest_variant]

theorem applyStep_vetoSeen : rdb (applyStep true s) F.ex_VETO_SEEN 0 0 = true := by
  have hkept : FieldKept F.ex_VETO_SEEN.fid (flipOrVeto true s) (freshStep (turnStep true (stepNo s) (flipOrVeto true s))) :=
    (turnStep_fld true _ _ (by decide) (by decide) (by decide)).trans (freshStep_fld _ (by decide) (FieldKept.refl _ _))
  have hopen := rdb_openAll_vetoSeen ((rdb_of_fieldKept hkept (turned_variant _ _ _) (by decide) 0 0).trans (flipOrVeto_true_seen s))
  rw [applyStep_eq true hset, rdb_of_fieldKept (followStep_fld _ _ _ _ (by decide)) ?_ (by decide), hopen]
  rw [← stepRest_variant, stepRest_eq_of_view (stepView_followStep _ _ _ _), stepRest_variant]

theorem applyStep_stepAp : (applyStep vetoed s).job.stepAp = some (nowAp s) := by
  have hcore : (openAll (freshStep (turnStep vetoed (stepNo s) (flipOrVeto vetoed s)))).core = s.core := by
    rw [← stepRest_core, stepRest_openAll, stepRest_freshStep, stepRest_eq_of_view (stepView_turnStep _ _ _), flipOrVeto_rest]
    rfl
  rw [applyStep_eq vetoed hset, followStep_stepAp, nowAp, hcore, nowAp]

end Apply

theorem dropped_of_job {j k : JobX} (h : stepJob j = stepJob (dropStep k)) :
    j.pulls = [] ∧ j.decision = none ∧ j.votes = [] ∧ j.sends = [] :=
  ⟨congrArg JobX.pulls h, congrArg JobX.decision h, congrArg JobX.votes h, congrArg JobX.sends h⟩

/-- After a commit nothing is left to settle. -/
theorem settle_applyStep (vetoed : Bool) {s : State} (hset : s.commit.stepSet = []) :
    settle (applyStep vetoed s) = applyStep vetoed s := by
  have hcount : bucketCount (applyStep vetoed s) = bucketCount s :=
    bucketCount_of_kept (applyStep_fld vetoed hset (by decide)) (applyStep_variant vetoed hset)
  refine settle_of_opened ?_ fun b hb => applyStep_bxs vetoed hset (hcount ▸ hb)
  exact (dropped_of_job (applyStep_job vetoed hset)).1

/-! ### The veto's count -/

theorem rdU_satU (f : Field) (u i k pu : Nat) (s : State) (hf : [9, 10, 11].contains f.fid = false) :
    rdU (satU f u i k pu s) f u i = min (rdU s f u i + k) (fieldMax f) := by
  have hmod : min (rdU s f u i + k) (fieldMax f) % 2 ^ f.width = min (rdU s f u i + k) (fieldMax f) :=
    Nat.mod_eq_of_lt (lt_of_le_of_lt (Nat.min_le_right _ _) (Nat.sub_lt (Nat.two_pow_pos _) one_pos))
  have hother (g : Field) (hg : [9, 10, 11].contains g.fid = true) : f.fid ≠ g.fid := by
    intro h
    rw [h, hg] at hf
    exact absurd hf (by decide)
  unfold satU
  dsimp only
  split
  · unfold setSat
    dsimp only
    split
    · rw [rdU_wrU_other _ _ _ _ _ _ _ _ (.inl (hother _ (by decide))), rdU_wrU_self, hmod]
    · rw [rdU_wrU_other _ _ _ _ _ _ _ _ (.inl (hother _ (by split <;> decide))), rdU_wrU_self, hmod]
  · rw [rdU_wrU_self, hmod]

theorem rd_sat (f : Field) (inst i k : Nat) (s : State) (hf : [9, 10, 11].contains f.fid = false) :
    rd (sat f inst i k s) f inst i = min (rd s f inst i + k) (fieldMax f) := rdU_satU _ _ _ _ _ _ hf

theorem flipOrVeto_true_count (s : State) : rd (flipOrVeto true s) F.ex_COMMITS_VETOED 0 0 =
    min (rd s F.ex_COMMITS_VETOED 0 0 + 1) (fieldMax F.ex_COMMITS_VETOED) := by
  rw [flipOrVeto_true, ← rd_sat F.ex_COMMITS_VETOED 0 0 1 s (by decide)]
  exact (setAll_fld true _ (by decide)).rdU' (setAll_variant _ _ _) (by decide) _ _

theorem flipOrVeto_false_count (s : State) : rd (flipOrVeto false s) F.ex_COMMITS_VETOED 0 0 = rd s F.ex_COMMITS_VETOED 0 0 :=
  (flipUpdated_fld s _ (FieldKept.refl F.ex_COMMITS_VETOED.fid s)).rdU' (flipOrVeto_variant false s) (by decide) _ _

/-! ### The alignment period of the commit -/

theorem le_stepAp {s : State} {n : Nat} (h : stepAp s = some n) : nextAp s ≤ n := by
  unfold stepAp at h
  obtain ⟨d, -, hn⟩ := Option.map_eq_some_iff.1 h
  have hap : nextAp s ≤ apAtNs s d.at' (nextAp s) := Nat.le_max_left _ _
  dsimp only at hn
  split at hn <;> omega

theorem core_le_nextAp (s : State) : s.core ≤ 32 * nextAp s := by
  unfold nextAp ceilDiv
  omega

theorem advanceTo_core {c : Nat} {s : State} (h : s.core ≤ c) : (advanceTo c s).core = c := Nat.max_eq_left h

end Sys2Proof.Machine

namespace Sys2Proof.Machine

open Sys2Proof

/-- The state in which a decision applies: its alignment period begins, and words found uncorrectable since the last scan
have ended the validity of the cellar copies they lie in. -/
def commitStart (n : Nat) (s : State) : State := cellarStruck (advanceTo (32 * n) s)

theorem stepView_commitStart (n : Nat) (s : State) : stepView (commitStart n s) = stepView (advanceTo (32 * n) s) :=
  stepView_cellarStruck _

theorem stepRest_commitStart (n : Nat) (s : State) : stepRest (commitStart n s) = stepRest (advanceTo (32 * n) s) :=
  stepRest_eq_of_view (stepView_commitStart n s)

theorem bxs_commitStart (n : Nat) (s : State) : bxs (commitStart n s) = bxs s :=
  (bxs_eq_of_view (stepView_commitStart n s)).trans rfl

theorem commitStart_fld (n m : Nat) (s : State) : FieldKept m s (commitStart n s) :=
  cellarStruck_fld _ _ (advanceTo_fld _ _ _ (FieldKept.refl m s))

section Start

variable (n : Nat) (s : State)

theorem commitStart_core : (commitStart n s).core = (advanceTo (32 * n) s).core := by
  rw [← stepRest_core, stepRest_commitStart, stepRest_core]

theorem commitStart_variant : (commitStart n s).variant = s.variant := by
  rw [← stepRest_variant, stepRest_commitStart]
  rfl

theorem commitStart_commit : (commitStart n s).commit = s.commit := by
  rw [← stepRest_commit, stepRest_commitStart]
  rfl

theorem commitStart_selMaster : (commitStart n s).selMaster = s.selMaster := by
  rw [← stepRest_selMaster, stepRest_commitStart]
  rfl

theorem commitStart_selState : (commitStart n s).selState = s.selState := by
  rw [← stepRest_selState, stepRest_commitStart]
  rfl

theorem commitStart_job : stepJob (commitStart n s).job = stepJob s.job := by
  rw [← stepRest_job, stepRest_commitStart]
  rfl

theorem rd_commitStart {f : Field} (hf : f.fid ≠ F.ag_PROG_COUNT.fid) (inst i : Nat) :
    rd (commitStart n s) f inst i = rd s f inst i :=
  (commitStart_fld n _ s).rdU' (commitStart_variant n s) hf _ _

theorem stepNo_commitStart : stepNo (commitStart n s) = stepNo s := rd_commitStart n s (by decide) 0 0

theorem bucketCount_commitStart : bucketCount (commitStart n s) = bucketCount s := rd_commitStart n s (by decide) 0 0

end Start

theorem stepBx_parts {x y : BucketX} (h : stepBx x = stepBx y) :
    x.state = y.state ∧ x.updated = y.updated ∧ x.included = y.included ∧ x.nVeto = y.nVeto :=
  ⟨(congrArg BucketX.state h :), (congrArg BucketX.updated h :), (congrArg BucketX.included h :), (congrArg BucketX.nVeto h :)⟩

theorem stepJob_parts {j k : JobX} (h : stepJob j = stepJob k) : j.upd = k.upd ∧ j.table = k.table :=
  ⟨(congrArg JobX.upd h :), (congrArg JobX.table h :)⟩

/-- The updated buckets that have page `p` are a matter of the buckets and their entries only. -/
theorem flipCount_of_view {s t : State} (hbx : bxs t = bxs s) (hjob : stepJob t.job = stepJob s.job)
    (hcount : bucketCount t = bucketCount s) (p : Nat) : flipCount t p = flipCount s p := by
  obtain ⟨hupd, htable⟩ := stepJob_parts hjob
  have hpage (b : Nat) : uMPage t b = uMPage s b := by rw [uMPage, uMPage, uWord, uWord, hupd]
  have hpages (b : Nat) : bPages t b = bPages s b := by
    rw [bPages, bPages, bElems, bElems, descWord, descWord, htable]
  have hbucket (b : Nat) : (bx t b).updated = (bx s b).updated ∧ (bx t b).nVeto = (bx s b).nVeto := by
    obtain ⟨-, hu, -, hv⟩ := stepBx_parts (congrFun hbx b)
    exact ⟨hu, hv⟩
  simp only [flipCount, hcount, hpage, hpages, hbucket]

theorem liveDecision_of {s : State} {d : Decision} (hd : s.job.decision = some d) (hstep : d.step = stepNo s)
    (hexch : exchangeStopped s = false) (hprog : programLost s = false) : liveDecision s = some d := by
  simp [liveDecision, hd, hstep, hexch, hprog]

theorem stepCommit_eq {s : State} {d : Decision} {n : Nat} (hd : liveDecision s = some d) (hn : stepAp s = some n)
    (hset : s.commit.stepSet = []) : stepCommit s = applyStep d.vetoed (commitStart n s) := by
  have happly : settle (applyStep d.vetoed (commitStart n s)) = applyStep d.vetoed (commitStart n s) :=
    settle_applyStep _ ((congrArg (·.stepSet) (commitStart_commit n s)).trans hset)
  unfold stepCommit
  rw [hd, hn]
  exact happly

/-! ### The step commit -/

section Commit

variable {s : State} {n : Nat} (hset : s.commit.stepSet = [])

include hset

theorem stepSet_commitStart : (commitStart n s).commit.stepSet = [] :=
  (congrArg (·.stepSet) (commitStart_commit n s)).trans hset

theorem rd_vetoed (vetoed : Bool) : rd (applyStep vetoed (commitStart n s)) F.ex_COMMITS_VETOED 0 0 =
    rd (flipOrVeto vetoed (commitStart n s)) F.ex_COMMITS_VETOED 0 0 := applyStep_vetoCount vetoed (stepSet_commitStart hset)

theorem applied_fld {m : Nat} (vetoed : Bool) (hm : [9, 10, 11, 159, 265, 266, 304, 307, 318, 337, 339, 349, 350, 351, 353,
    354, 370, 373, 376, 387, 389, 401, 402, 404, 603, 604].contains m = false) :
    FieldKept m s (applyStep vetoed (commitStart n s)) :=
  (commitStart_fld n m s).trans (applyStep_fld vetoed (stepSet_commitStart hset) hm)

theorem applied_sequencers (vetoed : Bool) : SequencersKept s (applyStep vetoed (commitStart n s)) :=
  sequencersKept_of_fields
    ((applyStep_variant vetoed (stepSet_commitStart hset)).trans (commitStart_variant n s))
    (applied_fld hset vetoed (by decide)) (applied_fld hset vetoed (by decide))

/-- A vetoed step changes no page's half, and is counted. -/
theorem applied_vetoed : (applyStep true (commitStart n s)).selMaster = s.selMaster ∧
    (applyStep true (commitStart n s)).selState = s.selState ∧
    rd (applyStep true (commitStart n s)) F.ex_COMMITS_VETOED 0 0 =
      min (rd s F.ex_COMMITS_VETOED 0 0 + 1) (fieldMax F.ex_COMMITS_VETOED) ∧
    rdb (applyStep true (commitStart n s)) F.ex_VETO_SEEN 0 0 = true := by
  refine ⟨?_, ?_, ?_, applyStep_vetoSeen (stepSet_commitStart hset)⟩
  · rw [applyStep_selMaster true (stepSet_commitStart hset), flipOrVeto_true_selMaster, commitStart_selMaster]
  · rw [applyStep_selState true (stepSet_commitStart hset), flipOrVeto_true_selState, commitStart_selState]
  · rw [rd_vetoed hset, flipOrVeto_true_count, rd_commitStart n s (by decide)]

theorem applied_count : rd (applyStep false (commitStart n s)) F.ex_COMMITS_VETOED 0 0 = rd s F.ex_COMMITS_VETOED 0 0 := by
  rw [rd_vetoed hset, flipOrVeto_false_count, rd_commitStart n s (by decide)]

/-- Where it is not vetoed a master page changes halves as often as updated buckets have it. -/
theorem applied_flips (p : Nat) : (applyStep false (commitStart n s)).selMaster.contains p =
    (s.selMaster.contains p ^^ decide (flipCount s p % 2 = 1)) := by
  have hflip : (flipOrVeto false (commitStart n s)).selMaster.contains p = _ := contains_flipUpdated _ p
  rw [applyStep_selMaster false (stepSet_commitStart hset), hflip, commitStart_selMaster,
    flipCount_of_view (bxs_commitStart n s) (commitStart_job n s) (bucketCount_commitStart n s)]

theorem applied_opened (vetoed : Bool) {b : Nat} (hb : b < bucketCount s) :
    (bx (applyStep vetoed (commitStart n s)) b).state = 1 ∧ (bx (applyStep vetoed (commitStart n s)) b).updated = false ∧
      (bx (applyStep vetoed (commitStart n s)) b).included = [] := by
  have hopen := applyStep_bxs vetoed (stepSet_commitStart hset) ((bucketCount_commitStart n s).symm ▸ hb)
  obtain ⟨hstate, hupdated, hincluded, -⟩ := stepBx_parts (y := { state := 1 }) hopen
  exact ⟨hstate, hupdated, hincluded⟩

theorem applied_dropped (vetoed : Bool) : (applyStep vetoed (commitStart n s)).job.decision = none ∧
    (applyStep vetoed (commitStart n s)).job.votes = [] ∧ (applyStep vetoed (commitStart n s)).job.sends = [] :=
  (dropped_of_job (applyStep_job vetoed (stepSet_commitStart hset))).2

end Commit

/-- A decision in hand applies at the start of an alignment period that is yet to begin. -/
theorem commitStart_core_of_stepAp {s : State} {n : Nat} (hn : stepAp s = some n) :
    (commitStart n s).core = 32 * n ∧ s.core ≤ 32 * n := by
  have hle : s.core ≤ 32 * n := (core_le_nextAp s).trans (Nat.mul_le_mul_left 32 (le_stepAp hn))
  exact ⟨(commitStart_core n s).trans (advanceTo_core hle), hle⟩

theorem exec_stepCommit (s : State) : exec .stepCommit s = .next (stepCommit s) := rfl

/-- Settles O52: the decision in hand applies at the start of its alignment period; the three parts of the commit
(`applyStep_eq`) then give each clause. -/
theorem stepCommit_applies : Obligations.StepCommit := by
  unfold Obligations.StepCommit
  intro s d n hd hstep hexch hprog hn hset
  obtain ⟨hstart, hle⟩ := commitStart_core_of_stepAp hn
  have hset' : (commitStart n s).commit.stepSet = [] := stepSet_commitStart hset
  have hcore : (applyStep d.vetoed (commitStart n s)).core = 32 * n := (applyStep_core _ hset').trans hstart
  have hap : nowAp (commitStart n s) = n := by rw [nowAp, hstart, Nat.mul_div_cancel_left n (by decide)]
  have hflips (p : Nat) := applied_flips (n := n) hset p
  obtain ⟨hdecision, hvotes, hsends⟩ := applied_dropped (n := n) hset d.vetoed
  refine ⟨applyStep d.vetoed (commitStart n s), ?_, ?_⟩
  · rw [exec_stepCommit, stepCommit_eq (liveDecision_of hd hstep hexch hprog) hn hset]
  dsimp only
  refine ⟨?_, hcore, ?_, ?_, ?_, ?_, ?_, ?_, hdecision, hvotes, hsends,
    applyStep_voteSent _ hset', applied_sequencers hset _⟩
  · rw [hcore]
    exact hle
  · rw [applyStep_stepAp _ hset', hap]
  · rw [applyStep_step _ hset', stepNo_commitStart]
  · rw [applyStep_epoch _ hset', stepNo_commitStart]
  · intro hveto
    rw [hveto]
    exact applied_vetoed hset
  · intro hveto
    rw [hveto]
    refine ⟨applied_count hset, fun p => ⟨fun hnone => ?_, fun hone => ?_⟩⟩
    · have hcount : flipCount s p = 0 := hnone
      rw [hflips, hcount]
      exact Bool.xor_false _
    · have hcount : flipCount s p = 1 := hone
      rw [hflips, hcount]
      exact Bool.xor_true _
  · exact fun b hb => applied_opened hset _ hb

end Sys2Proof.Machine

namespace Sys2Proof.Machine

open Sys2Proof

/-! ### The health commands (R42, R265, R267) -/

/-- What writes only the fields numbered `ns` keeps every other than those listed. -/
theorem fieldsKept_of_numbers {s t : State} {except : List Field} (ns : List Nat)
    (hsub : ns.all (fun n => (except.map (·.fid)).contains n) = true)
    (h : ∀ n, ns.contains n = false → FieldKept n s t) : FieldsKept except s t := fun n hn =>
  h n (sub_ne ns _ hsub (by simpa [List.contains_eq_mem] using hn))

/-- Both vectors of the mixer test agree (R42). -/
theorem mixer_vectors : mixer 0 0 0 0 = (0x7F9019DC#32, 0x80308352#32) ∧ mixer 1 0 0 0 = (0x6A774A4D#32, 0xFD3F986F#32) := by
  decide

theorem mixerTest_eq (s : State) : mixerTest s = setb F.he_MIXER_OK 0 0 true (setb F.he_MIXER_FAIL 0 0 false s) := by
  simp only [mixerTest, mixer_vectors, decide_true, Bool.and_self, Bool.not_true, if_true]

theorem exec_mixerTest {s : State} (h : livePage s (unitOf 0x60 0) = true) :
    exec .mixerTest s = .next (mixerTest (pageAccess (unitOf 0x60 0) s)) := by
  rw [exec, execMixerTest, if_pos h]

theorem exec_runClear {s : State} (h : livePage s (unitOf 0x60 0) = true) :
    exec .runClear s = .next (runClear (pageAccess (unitOf 0x60 0) s)) := by
  rw [exec, execRunClear, if_pos h]

theorem exec_detectorReset {s : State} (h : livePage s (unitOf 0x60 0) = true) :
    exec .detectorReset s = .next (detectorReset (pageAccess (unitOf 0x60 0) s)) := by
  rw [exec, execDetectorReset, if_pos h]

theorem pageAccess_kept_of (u : Nat) (s : State) : MemKept s (pageAccess u s) ∧ ∀ n, FieldKept n s (pageAccess u s) :=
  ⟨pageAccess_mem u s ⟨fun _ => rfl⟩, fun n => pageAccess_fld u s n (FieldKept.refl n s)⟩

theorem mixerTest_shows (s : State) : rdb (mixerTest s) F.he_MIXER_OK 0 0 = true ∧ rdb (mixerTest s) F.he_MIXER_FAIL 0 0 = false := by
  rw [mixerTest_eq]
  refine ⟨rdb_setb_self _ _ _ _ _ (by decide), ?_⟩
  rw [rdb, setb, rd_wr_other _ _ _ _ _ _ _ _ (by decide)]
  exact rdb_setb_self _ _ _ _ _ (by decide)

theorem mixerTest_fields (s : State) {n : Nat} (hn : [334, 335].contains n = false) : FieldKept n s (mixerTest s) := by
  rw [mixerTest_eq]
  exact setb_fld _ _ _ _ _ (fun e => by rw [← e] at hn; exact absurd hn (by decide))
    (setb_fld _ _ _ _ _ (fun e => by rw [← e] at hn; exact absurd hn (by decide)) (FieldKept.refl n s))

/-- MIXER_TEST, on a live page. -/
theorem mixerTest_completes {s : State} (h : livePage s (unitOf 0x60 0) = true) :
    Completes .mixerTest s fun t => rdb t F.he_MIXER_OK 0 0 = true ∧ rdb t F.he_MIXER_FAIL 0 0 = false ∧
      MemKept s t ∧ FieldsKept [F.he_MIXER_OK, F.he_MIXER_FAIL] s t := by
  obtain ⟨hmem, hfld⟩ := pageAccess_kept_of (unitOf 0x60 0) s
  obtain ⟨hok, hfail⟩ := mixerTest_shows (pageAccess (unitOf 0x60 0) s)
  exact ⟨_, exec_mixerTest h, hok, hfail, mixerTest_mem _ hmem,
    fieldsKept_of_numbers [334, 335] (by decide) fun n hn => (hfld n).trans (mixerTest_fields _ hn)⟩

/-! #### RUN_CLEAR -/

theorem smFind_filter_none {κ α : Type} [DecidableEq κ] (p : κ × α → Bool) (k : κ) (m : SMap κ α) (hp : ∀ v, p (k, v) = false) :
    smFind k (m.filter p) = none := by
  induction m with
  | nil => rfl
  | cons e m ih =>
    obtain ⟨a, b⟩ := e
    rw [List.filter_cons]
    split
    · next hkeep =>
      have hne : ¬a = k := by
        rintro rfl
        rw [hp] at hkeep
        cases hkeep
      simp [smFind, hne, ih]
    · exact ih

/-- A counter of a layer. -/
def runField (n : Nat) : Bool := n == F.he_ZERO_RUN.fid || n == F.he_STARVED.fid

/-- RUN_CLEAR before it shows what is left. -/
def dropRuns (s : State) : State := { s with flds := s.flds.filter fun kv => !runField kv.1.fid }

theorem runClear_eq (s : State) : runClear s = refreshStarved (dropRuns s) := rfl

theorem dropRuns_fld {n : Nat} (s : State) (hn : runField n = false) : FieldKept n s (dropRuns s) :=
  ⟨fun k hk => smFind_filter _ k s.flds fun _ => by simp [hk, hn]⟩

theorem smFind_dropRuns {k : FKey} (s : State) (hk : runField k.fid = true) : smFind k (dropRuns s).flds = none :=
  smFind_filter_none _ k s.flds fun _ => by simp [hk]

theorem rd_dropRuns {f : Field} (s : State) (inst i : Nat) (hf : runField f.fid = true)
    (hreset : unwritten (dropRuns s) f (unitOf f.page inst) i = 0) : rd (dropRuns s) f inst i = 0 := by
  rw [rd, rdU, smGet_eq_find, smFind_dropRuns s hf, hreset]
  rfl

theorem rd_dropRuns_zeroRun (s : State) (l : Nat) : rd (dropRuns s) F.he_ZERO_RUN 0 l = 0 :=
  rd_dropRuns s 0 l (by decide) rfl

theorem rd_dropRuns_starved (s : State) (l : Nat) : rd (dropRuns s) F.he_STARVED 0 l = 0 :=
  rd_dropRuns s 0 l (by decide) rfl

theorem refreshStarved_none {s : State} (h : ∀ l, rd s F.he_STARVED 0 l = 0) :
    rd (refreshStarved s) F.he_STARVED_LAYERS 0 0 = 0 ∧ rd (refreshStarved s) F.he_FIRST_STARVED 0 0 = 0 := by
  have hls : ((List.range 1024).filter fun l => rd s F.he_STARVED 0 l == 1) = [] := by
    simp [h]
  unfold refreshStarved
  rw [hls]
  refine ⟨rd_wr_self _ _ _ _ _, ?_⟩
  rw [rd_wr_other _ _ _ _ _ _ _ _ (by decide), rd_wr_self]
  rfl

theorem rd_refreshStarved {f : Field} (s : State) (inst i : Nat) (hf : [350, 351].contains f.fid = false)
    (hcount : f.fid ≠ F.ag_PROG_COUNT.fid) : rd (refreshStarved s) f inst i = rd s f inst i :=
  (refreshStarved_fld s hf (FieldKept.refl _ s)).rdU' rfl hcount _ _

/-- RUN_CLEAR, on a live page. -/
theorem runClear_completes {s : State} (h : livePage s (unitOf 0x60 0) = true) :
    Completes .runClear s fun t => (∀ l, rd t F.he_ZERO_RUN 0 l = 0 ∧ rd t F.he_STARVED 0 l = 0) ∧
      rd t F.he_STARVED_LAYERS 0 0 = 0 ∧ rd t F.he_FIRST_STARVED 0 0 = 0 ∧ MemKept s t ∧
      FieldsKept [F.he_ZERO_RUN, F.he_STARVED, F.he_STARVED_LAYERS, F.he_FIRST_STARVED] s t := by
  obtain ⟨hmem, hfld⟩ := pageAccess_kept_of (unitOf 0x60 0) s
  obtain ⟨hlayers, hfirst⟩ := refreshStarved_none (rd_dropRuns_starved (pageAccess (unitOf 0x60 0) s))
  refine ⟨_, exec_runClear h, fun l => ⟨?_, ?_⟩, hlayers, hfirst, runClear_mem _ hmem,
    fieldsKept_of_numbers [353, 354, 350, 351] (by decide) fun n hn => ?_⟩
  · rw [runClear_eq, rd_refreshStarved _ _ _ (by decide) (by decide), rd_dropRuns_zeroRun]
  · rw [runClear_eq, rd_refreshStarved _ _ _ (by decide) (by decide), rd_dropRuns_starved]
  · have hrun : runField n = false := by
      simp only [List.contains_cons, Bool.or_eq_false_iff] at hn
      simp [runField, F.he_ZERO_RUN, F.he_STARVED, hn]
    exact (hfld n).trans (refreshStarved_fld _ (sub_ne _ _ (by decide) hn) (dropRuns_fld _ hrun))

/-! #### DETECTOR_RESET -/

theorem detectorReset_rd (s : State) : rd (detectorReset s) F.he_SAMPLES 0 0 = 0 ∧ rd (detectorReset s) F.he_EWMA 0 0 = 0 := by
  unfold detectorReset
  refine ⟨?_, rd_wr_self _ _ _ _ _⟩
  rw [rd_wr_other _ _ _ _ _ _ _ _ (by decide), rd_wr_self]
  rfl

theorem derivedField_warm (s : State) (x : Slot) (hx : x.f = F.he_WARM) : derivedField s (unitOf 0x60 0) x =
    some (b2n (decide (rd s F.he_WARMUP 0 0 ≤ rd s F.he_SAMPLES 0 0))) := by
  unfold derivedField
  rw [hx]
  rfl

/-- DETECTOR_RESET, on a live page. -/
theorem detectorReset_completes {s : State} (h : livePage s (unitOf 0x60 0) = true) :
    Completes .detectorReset s fun t => rd t F.he_SAMPLES 0 0 = 0 ∧ rd t F.he_EWMA 0 0 = 0 ∧
      (∀ x : Slot, x.f = F.he_WARM → derivedField t (unitOf 0x60 0) x = some (b2n (decide (rd s F.he_WARMUP 0 0 = 0)))) ∧
      MemKept s t ∧ FieldsKept [F.he_SAMPLES, F.he_EWMA, F.com_SAT_LO, F.com_SAT_HI] s t := by
  obtain ⟨hmem, hfld⟩ := pageAccess_kept_of (unitOf 0x60 0) s
  obtain ⟨hsamples, hmean⟩ := detectorReset_rd (pageAccess (unitOf 0x60 0) s)
  have hkept (n : Nat) (hn : [9, 10, 339, 349].contains n = false) :
      FieldKept n s (detectorReset (pageAccess (unitOf 0x60 0) s)) := detectorReset_fld _ hn (hfld n)
  have hwarmup : rd (detectorReset (pageAccess (unitOf 0x60 0) s)) F.he_WARMUP 0 0 = rd s F.he_WARMUP 0 0 :=
    (hkept _ (by decide)).rdU' rfl (by decide) _ _
  refine ⟨_, exec_detectorReset h, hsamples, hmean, fun x hx => ?_, detectorReset_mem _ hmem,
    fieldsKept_of_numbers [9, 10, 339, 349] (by decide) hkept⟩
  rw [derivedField_warm _ x hx, hwarmup, hsamples]
  simp only [Nat.le_zero]

end Sys2Proof.Machine

namespace Sys2Proof.Machine

open Sys2Proof

/-! ### Reads that meet nothing -/

/-- A read by the part that meets no poisoned word and no page beyond a view reports nothing. -/
theorem partReport_clean {a n : Nat} {s : State} (h : CleanReads [⟨memSpace, a, n⟩] s) : partReport a n s = s := by
  obtain ⟨hpoison, hview⟩ := h _ (List.mem_singleton.2 rfl)
  dsimp only at hpoison hview
  simp only [partReport, readReportOf, viewReport, hpoison, hview, Bool.false_eq_true, if_false]

theorem arrX_of_arrs {s t : State} (h : t.arrs = s.arrs) (die p : Nat) : arrX t die p = arrX s die p :=
  congrArg (nmGet ({} : ArrX) (arrKey die p)) h

/-! ### The rewrite queue of an array (R99) -/

/-- The queue with column `j` in it under a key of at least `key`. -/
def withRewrite (j key : Nat) (event : Bool) (q : List Rewrite) : List Rewrite :=
  if q.any (·.col == j) then q.map fun e => if e.col = j then { e with key := max e.key key } else e
  else q ++ [⟨j, key, event⟩]

theorem exists_mem_withRewrite (j key : Nat) (event : Bool) (q : List Rewrite) :
    ∃ r ∈ withRewrite j key event q, r.col = j ∧ key ≤ r.key := by
  unfold withRewrite
  split
  · next hany =>
    obtain ⟨e, he, hcol⟩ := List.any_eq_true.1 hany
    rw [beq_iff_eq] at hcol
    exact ⟨_, List.mem_map_of_mem he, by rw [if_pos hcol]; exact ⟨hcol, le_max_right _ _⟩⟩
  · exact ⟨⟨j, key, event⟩, by simp, rfl, le_rfl⟩

/-- No other column's place changes. -/
theorem filter_withRewrite {c j : Nat} (key : Nat) (event : Bool) (q : List Rewrite) (hc : c ≠ j) :
    (withRewrite j key event q).filter (·.col == c) = q.filter (·.col == c) := by
  unfold withRewrite
  split
  · next hany =>
    clear hany
    induction q with
    | nil => rfl
    | cons e q ih =>
      rw [List.map_cons, List.filter_cons, List.filter_cons, ih]
      by_cases he : e.col = j
      · simp [he, Ne.symm hc]
      · rw [if_neg he]
  · simp [Ne.symm hc]

theorem arrX_setArrX (die p : Nat) (x : ArrX) (s : State) : arrX (setArrX die p x s) die p = x := nmGet_set_self _ _ _ _

theorem arrX_showQueue (die p die' p' : Nat) (s : State) : arrX (showQueue die p s) die' p' = arrX s die' p' := rfl

theorem queueColumn_queue (die p j key : Nat) (event : Bool) (s : State) :
    (arrX (queueColumn die p j key event s) die p).queue = withRewrite j key event (arrX s die p).queue := by
  unfold queueColumn
  dsimp only
  rw [arrX_showQueue, arrX_setArrX]
  rfl

/-! ### One column of the drift check (R98) -/

/-- The state once the column's masters are read: one that is passed over reads none. -/
def driftRead (found : DriftOf) (a n : Nat) (s : State) : State := if found = .passed then s else partReport a n s

theorem driftRead_bare (found : DriftOf) (a n : Nat) (s : State) : bare (driftRead found a n s) = bare s := by
  unfold driftRead
  split
  · rfl
  · exact bare_partReport a n s

theorem driftRead_clean (found : DriftOf) {a n : Nat} {s : State} (h : CleanReads [⟨memSpace, a, n⟩] s) :
    driftRead found a n s = s := by
  rw [driftRead, partReport_clean h, ite_self]

/-- What the check does with what it has found. -/
def driftMark (die p l j : Nat) (found : DriftOf) (s : State) : State :=
  match found with
  | .queued key => queueColumn die p j key false s
  | .nonfinite => sat F.ag_NONFINITE_COLS (16 * die + l / 64) 0 1 s
  | _ => s

theorem driftStep_eq (die p l pad j a : Nat) (s : State) : driftStep die p l pad s (j, a) =
    driftMark die p l j (driftOf s die p l pad j a) (driftRead (driftOf s die p l pad j a) a (2 * (512 - pad)) s) := rfl

theorem driftMark_core (die p l j : Nat) (found : DriftOf) (s : State) : (driftMark die p l j found s).core = s.core := by
  cases found with
  | queued key => rfl
  | nonfinite => exact (congrArg State.core (bare_sat _ _ _ _ s) :)
  | passed => rfl
  | inBounds => rfl

theorem driftMark_mem (die p l j : Nat) (found : DriftOf) {s0 s : State} (h : MemKept s0 s) :
    MemKept s0 (driftMark die p l j found s) := by
  cases found with
  | queued key => exact queueColumn_mem _ _ _ _ _ _ h
  | nonfinite => exact sat_mem _ _ _ _ _ h
  | passed => exact h
  | inBounds => exact h

theorem driftMark_fld (die p l j : Nat) (found : DriftOf) {s0 s : State} {n : Nat} (hn : [9, 10, 11, 85, 97, 98].contains n = false)
    (h : FieldKept n s0 s) : FieldKept n s0 (driftMark die p l j found s) := by
  cases found with
  | queued key => exact queueColumn_fld _ _ _ _ _ _ (sub_ne _ _ (by decide) hn) h
  | nonfinite =>
    exact sat_fld _ _ _ _ _ (fun e => by rw [← e] at hn; exact absurd hn (by decide)) (sub_ne _ _ (by decide) hn) h
  | passed => exact h
  | inBounds => exact h

/-- Only a column found past its threshold is queued. -/
theorem driftMark_arrX_other (die p l j : Nat) {found : DriftOf} (s : State) (h : ∀ key, found ≠ .queued key) :
    arrX (driftMark die p l j found s) die p = arrX s die p := by
  cases found with
  | queued key => exact absurd rfl (h key)
  | nonfinite => exact arrX_of_arrs (congrArg State.arrs (bare_sat _ _ _ _ s) :) die p
  | passed => rfl
  | inBounds => rfl

theorem driftMark_queue_filter (die p l j : Nat) (found : DriftOf) (s : State) {c : Nat}
    (h : c ≠ j ∨ ∀ key, found ≠ .queued key) :
    (arrX (driftMark die p l j found s) die p).queue.filter (·.col == c) = (arrX s die p).queue.filter (·.col == c) := by
  obtain hc | hnot := h
  · by_cases hq : ∃ key, found = .queued key
    · obtain ⟨key, rfl⟩ := hq
      have hqueue : (arrX (driftMark die p l j (.queued key) s) die p).queue = _ := queueColumn_queue die p j key false s
      rw [hqueue, filter_withRewrite _ _ _ hc]
    · rw [driftMark_arrX_other _ _ _ _ _ fun key hkey => hq ⟨key, hkey⟩]
  · rw [driftMark_arrX_other _ _ _ _ _ hnot]

/-! ### The drift check (R16) -/

/-- The place the check has reached in epoch `e`, an array whose last column is compared reporting the epoch. -/
def driftNext (e k die p : Nat) (s : State) : State :=
  let s := { s with drift := some (e, k + 1) }
  if k % 512 = 511 then wrA F.ag_DRIFT_EPOCH die p 0 e s else s

/-- Which column of which array is next: columns compared so far in epoch `e`. -/
def driftPlace (s : State) (e : Nat) : Nat :=
  match s.drift with
  | some (e', k) => if e' = e then k else 0
  | none => 0

theorem driftCheck_none {s : State} (h : s.job.stepAp = none) : driftCheck s = s := by
  unfold driftCheck
  rw [h]

theorem driftCheck_some {s : State} {n : Nat} (h : s.job.stepAp = some n) : driftCheck s =
    let s1 := advanceTo (32 * (n + 1)) s
    let e := rd s F.cm_EPOCH 0 0
    let k := driftPlace s e
    let die := k / 524288
    let l := k / 512 % 1024
    let p := physOf s die l
    if 16 ≤ die then s1
    else driftNext e k die p
      (driftStep die p l (Config.paddingRows die l) s1 (k % 512, Config.columnMasters die l (k % 512))) := by
  unfold driftCheck
  rw [h]
  rfl

theorem driftNext_core (e k die p : Nat) (s : State) : (driftNext e k die p s).core = s.core := by
  unfold driftNext
  split <;> rfl

theorem driftNext_drift (e k die p : Nat) (s : State) : (driftNext e k die p s).drift = some (e, k + 1) := by
  unfold driftNext
  split <;> rfl

theorem driftNext_arrX (e k die p die' p' : Nat) (s : State) : arrX (driftNext e k die p s) die' p' = arrX s die' p' := by
  unfold driftNext
  split <;> rfl

theorem driftNext_variant (e k die p : Nat) (s : State) : (driftNext e k die p s).variant = s.variant := by
  unfold driftNext
  split <;> rfl

theorem driftNext_mem (e k die p : Nat) {s0 s : State} (h : MemKept s0 s) : MemKept s0 (driftNext e k die p s) := by
  unfold driftNext
  split <;> exact ⟨h.same⟩

theorem driftNext_fld (e k die p : Nat) {s0 s : State} {n : Nat} (hn : F.ag_DRIFT_EPOCH.fid ≠ n) (h : FieldKept n s0 s) :
    FieldKept n s0 (driftNext e k die p s) := by
  unfold driftNext
  split
  · exact wrA_fld _ _ _ _ _ _ hn (h.of_eq rfl)
  · exact h.of_eq rfl

theorem driftNext_epoch (e die p : Nat) {k : Nat} (hk : k % 512 = 511) (s : State) :
    rdA (driftNext e k die p s) F.ag_DRIFT_EPOCH die p 0 = e % 2 ^ F.ag_DRIFT_EPOCH.width := by
  unfold driftNext
  rw [if_pos hk]
  exact rdU_wrU_self _ _ _ _ _

section Column

variable (die p l j e k a pad : Nat) (found : DriftOf) (s : State)

/-- One column: its masters are read, what is found of it is noted, and the check moves on. -/
def driftColumnDone : State := driftNext e k die p (driftMark die p l j found (driftRead found a (2 * (512 - pad)) s))

theorem driftColumnDone_core : (driftColumnDone die p l j e k a pad found s).core = s.core := by
  rw [driftColumnDone, driftNext_core, driftMark_core]
  exact (congrArg State.core (driftRead_bare found a _ s) :)

theorem driftRead_arrX (n : Nat) : arrX (driftRead found a n s) die p = arrX s die p :=
  arrX_of_arrs (congrArg State.arrs (driftRead_bare found a n s) :) die p

theorem driftColumnDone_queue_filter {c : Nat} (h : c ≠ j ∨ ∀ key, found ≠ .queued key) :
    (arrX (driftColumnDone die p l j e k a pad found s) die p).queue.filter (·.col == c) =
      (arrX s die p).queue.filter (·.col == c) := by
  rw [driftColumnDone, driftNext_arrX, driftMark_queue_filter _ _ _ _ _ _ h, driftRead_arrX]

theorem driftColumnDone_queued (key : Nat) : ∃ r ∈ (arrX (driftColumnDone die p l j e k a pad (.queued key) s) die p).queue,
    r.col = j ∧ key ≤ r.key := by
  have hqueue (s : State) : (arrX (driftMark die p l j (.queued key) s) die p).queue = _ := queueColumn_queue die p j key false s
  rw [driftColumnDone, driftNext_arrX, hqueue]
  exact exists_mem_withRewrite _ _ _ _

theorem driftColumnDone_nonfinite (hf : FieldKept F.ag_NONFINITE_COLS.fid s (driftRead found a (2 * (512 - pad)) s))
    (h : found = .nonfinite) : rd (driftColumnDone die p l j e k a pad found s) F.ag_NONFINITE_COLS (16 * die + l / 64) 0 =
      min (rd s F.ag_NONFINITE_COLS (16 * die + l / 64) 0 + 1) (fieldMax F.ag_NONFINITE_COLS) := by
  subst h
  have hread : rd (driftRead .nonfinite a (2 * (512 - pad)) s) F.ag_NONFINITE_COLS (16 * die + l / 64) 0 =
      rd s F.ag_NONFINITE_COLS (16 * die + l / 64) 0 :=
    hf.rdU' (congrArg State.variant (driftRead_bare _ _ _ s) :) (by decide) _ _
  have hmark (s : State) : driftMark die p l j .nonfinite s = sat F.ag_NONFINITE_COLS (16 * die + l / 64) 0 1 s := rfl
  have hnext (s : State) : rd (driftNext e k die p s) F.ag_NONFINITE_COLS (16 * die + l / 64) 0 =
      rd s F.ag_NONFINITE_COLS (16 * die + l / 64) 0 :=
    (driftNext_fld e k die p (by decide) (FieldKept.refl _ s)).rdU' (driftNext_variant _ _ _ _ _) (by decide) _ _
  rw [driftColumnDone, hnext, hmark, rd_sat _ _ _ _ _ (by decide), hread]

theorem driftColumnDone_clean (h : CleanReads [⟨memSpace, a, 2 * (512 - pad)⟩] s) :
    MemKept s (driftColumnDone die p l j e k a pad found s) ∧
      ∀ n, [9, 10, 11, 85, 97, 98, 128].contains n = false → FieldKept n s (driftColumnDone die p l j e k a pad found s) := by
  rw [driftColumnDone, driftRead_clean found h]
  refine ⟨driftNext_mem _ _ _ _ (driftMark_mem _ _ _ _ _ (MemKept.refl s)), fun n hn => ?_⟩
  exact driftNext_fld _ _ _ _ (fun e => by rw [← e] at hn; exact absurd hn (by decide))
    (driftMark_fld _ _ _ _ _ (sub_ne _ _ (by decide) hn) (FieldKept.refl n s))

end Column

theorem driftRead_fld (found : DriftOf) (a n : Nat) {m : Nat} (s : State)
    (hm : [9, 10, 11, 670, 682, 685, 689, 697, 698, 699, 703, 704, 705].contains m = false) :
    FieldKept m s (driftRead found a n s) := by
  unfold driftRead
  split
  · exact FieldKept.refl m s
  · exact partReport_fld _ _ _ hm (FieldKept.refl m s)

/-- DRIFT_CHECK with no step commit before it. -/
theorem exec_driftCheck_none {s : State} (h : s.job.stepAp = none) : exec .driftCheck s = .next s := by
  rw [exec, execDriftCheck, driftCheck_none h]

/-- DRIFT_CHECK once every array is through. -/
theorem exec_driftCheck_done {s : State} {n : Nat} (h : s.job.stepAp = some n)
    (hdie : 16 ≤ driftPlace s (rd s F.cm_EPOCH 0 0) / 524288) : exec .driftCheck s = .next (advanceTo (32 * (n + 1)) s) := by
  rw [exec, execDriftCheck, driftCheck_some h]
  dsimp only
  rw [if_pos hdie]

theorem exec_driftCheck_column {s : State} {n : Nat} (h : s.job.stepAp = some n) :
    let s1 := advanceTo (32 * (n + 1)) s
    let e := rd s F.cm_EPOCH 0 0
    let k := driftPlace s e
    let die := k / 524288
    let l := k / 512 % 1024
    let p := physOf s die l
    let a := Config.columnMasters die l (k % 512)
    let pad := Config.paddingRows die l
    die < 16 → exec .driftCheck s = .next
      (driftColumnDone die p l (k % 512) e k a pad (driftOf s1 die p l pad (k % 512) a) s1) := by
  intro s1 e k die l p a pad hlt
  rw [exec, execDriftCheck, driftCheck_some h]
  dsimp only
  rw [if_neg (Nat.not_le.2 hlt), driftStep_eq]
  rfl

/-- The clock's move leaves registers and memory. -/
theorem cleanReads_advanceTo {rs : List Range} {s : State} (c : Nat) (h : CleanReads rs s) :
    CleanReads rs (advanceTo c s) := h

/-- What the check of column `k % 512` leaves, of an array whose masters it reads at `a` from core cycle `c` on
(R98, R99). -/
def ColumnChecked (die p l e k a pad c : Nat) (found : DriftOf) (s t : State) : Prop :=
  t.core = (advanceTo c s).core ∧ t.drift = some (e, k + 1) ∧
  (∀ key, found = .queued key → ∃ r ∈ (arrX t die p).queue, r.col = k % 512 ∧ key ≤ r.key) ∧
  (∀ i, i ≠ k % 512 ∨ (∀ key, found ≠ .queued key) →
    (arrX t die p).queue.filter (·.col == i) = (arrX s die p).queue.filter (·.col == i)) ∧
  (found = .nonfinite → rd t F.ag_NONFINITE_COLS (16 * die + l / 64) 0 =
    min (rd s F.ag_NONFINITE_COLS (16 * die + l / 64) 0 + 1) (fieldMax F.ag_NONFINITE_COLS)) ∧
  (k % 512 = 511 → rdA t F.ag_DRIFT_EPOCH die p 0 = e % 2 ^ F.ag_DRIFT_EPOCH.width) ∧
  (CleanReads [⟨memSpace, a, 2 * (512 - pad)⟩] s → MemKept s t ∧
    FieldsKept [F.ag_QUEUE_DEPTH, F.ag_DRIFT_MAX, F.ag_NONFINITE_COLS, F.ag_DRIFT_EPOCH, F.com_SAT_LO, F.com_SAT_HI,
      F.com_SAT_TBL] s t)

theorem driftColumnDone_checked (die p l e k a pad c : Nat) (found : DriftOf) (s : State) :
    ColumnChecked die p l e k a pad c found s
      (driftColumnDone die p l (k % 512) e k a pad found (advanceTo c s)) := by
  refine ⟨driftColumnDone_core _ _ _ _ _ _ _ _ _ _, driftNext_drift _ _ _ _ _, ?_, fun i hi => ?_, fun hnf => ?_,
    fun hlast => driftNext_epoch _ _ _ hlast _, fun hclean => ?_⟩
  · rintro key rfl
    exact driftColumnDone_queued _ _ _ _ _ _ _ _ _ _
  · exact driftColumnDone_queue_filter _ _ _ _ _ _ _ _ _ _ hi
  · exact driftColumnDone_nonfinite _ _ _ _ _ _ _ _ _ _ (driftRead_fld _ _ _ _ (by decide)) hnf
  · obtain ⟨hmem, hfld⟩ := driftColumnDone_clean die p l (k % 512) e k _ _ found _ (cleanReads_advanceTo c hclean)
    exact ⟨(advanceTo_mem _ _ (MemKept.refl s)).trans hmem, fieldsKept_of_numbers [9, 10, 11, 85, 97, 98, 128] (by decide)
      fun m hm => (advanceTo_fld _ _ m (FieldKept.refl m s)).trans (hfld m hm)⟩

end Sys2Proof.Machine

namespace Sys2Proof.Machine

open Sys2Proof

/-! ### The refresh of one array (R15, R51) -/

/-- The masters that `rows` gives for an outlier row take their slot. -/
def noteOut (s : State) (l : Nat) (rows : List (Nat × Nat)) (m : NMap (List Nat)) (om : Option Nat × Nat) : NMap (List Nat) :=
  match om.1, smFind (l * 8 + om.2) rows with
  | some _, some a => nmSet om.2 (mastersAt s a) m
  | _, _ => m

def readOut (l : Nat) (rows : List (Nat × Nat)) (s : State) (om : Option Nat × Nat) : State :=
  match om.1, smFind (l * 8 + om.2) rows with
  | some _, some a => partReport a 1024 s
  | _, _ => s

def readCol (s : State) (kc : Nat × PantryCol) : State := if kc.2.loaded then partReport kc.2.addr 1024 s else s

/-- A loaded column of the pantry, from where it was loaded. -/
def freshCol (s : State) (die p : Nat) (kc : Nat × PantryCol) : Nat × PantryCol :=
  if kc.2.loaded then (kc.1, pantryEntry s die p kc.2.col kc.2.addr) else kc

/-- What an array holds once its pantry is refreshed. -/
def freshArr (s : State) (die l p : Nat) (rows : List (Nat × Nat)) (x : ArrX) : ArrX :=
  { x with outRows := (marks s die p).zipIdx.foldl (noteOut s l rows) [], cols := x.cols.map (freshCol s die p) }

theorem refreshArray_eq (die l p : Nat) (rows : List (Nat × Nat)) (s : State) : refreshArray die l p rows s =
    setArrX die p (freshArr s die l p rows (arrX s die p))
      ((freshArr s die l p rows (arrX s die p)).cols.foldl readCol ((marks s die p).zipIdx.foldl (readOut l rows) s)) := rfl

theorem freshCol_addr (s : State) (die p : Nat) (kc : Nat × PantryCol) : (freshCol s die p kc).2.addr = kc.2.addr := by
  unfold freshCol
  split
  · dsimp only [pantryEntry]
  · rfl

theorem mem_of_smFind {κ α : Type} [DecidableEq κ] {k : κ} {v : α} {m : SMap κ α} (h : smFind k m = some v) : (k, v) ∈ m := by
  induction m with
  | nil => cases h
  | cons e m ih =>
    obtain ⟨a, b⟩ := e
    unfold smFind at h
    split at h
    · next hk =>
      cases h
      simp [hk]
    · exact List.mem_cons_of_mem _ (ih h)

theorem foldl_stays {α : Type} {f : State → α → State} {s : State} (l : List α) (h : ∀ x ∈ l, f s x = s) : l.foldl f s = s :=
  List.foldlRecOn (motive := (· = s)) l f rfl fun t ht x hx => by rw [ht]; exact h x hx

/-- An array whose masters are read clean. -/
theorem refreshArray_clean {die l p : Nat} {rows : List (Nat × Nat)} {s : State}
    (hrows : ∀ e ∈ rows, CleanReads [⟨memSpace, e.2, 1024⟩] s)
    (hcols : ∀ e ∈ (arrX s die p).cols, CleanReads [⟨memSpace, e.2.addr, 1024⟩] s) :
    refreshArray die l p rows s = setArrX die p (freshArr s die l p rows (arrX s die p)) s := by
  have hout (om : Option Nat × Nat) : readOut l rows s om = s := by
    unfold readOut
    split
    · next hfind => exact partReport_clean (hrows _ (mem_of_smFind hfind))
    · rfl
  have hcol (kc : Nat × PantryCol) (hkc : kc ∈ (freshArr s die l p rows (arrX s die p)).cols) : readCol s kc = s := by
    obtain ⟨kc', hmem, rfl⟩ := List.mem_map.1 hkc
    rw [readCol, freshCol_addr, partReport_clean (hcols _ hmem), ite_self]
  rw [refreshArray_eq, foldl_stays _ fun om _ => hout om, foldl_stays _ hcol]

/-- An outlier slot that `rows` gives masters for holds them. -/
theorem nmGet_foldl_noteOut {s : State} {l : Nat} {rows : List (Nat × Nat)} {ms : List (Option Nat)} {k r a : Nat}
    (hmark : ms[k]? = some (some r)) (hrow : smFind (l * 8 + k) rows = some a) (m : NMap (List Nat)) :
    nmGet [] k (ms.zipIdx.foldl (noteOut s l rows) m) = mastersAt s a := by
  induction ms using List.reverseRecOn with
  | nil => simp at hmark
  | append_singleton ms o ih =>
    rw [List.zipIdx_append, List.foldl_append]
    simp only [List.zipIdx_cons, List.zipIdx_nil, List.foldl_cons, List.foldl_nil, Nat.zero_add]
    by_cases hk : k = ms.length
    · subst hk
      have ho : o = some r := by simpa using hmark
      subst ho
      unfold noteOut
      simp only [hrow]
      exact nmGet_set_self _ _ _ _
    · have hlt : k < ms.length := by
        have := (List.getElem?_eq_some_iff.1 hmark).1
        simp at this
        omega
      rw [List.getElem?_append_left hlt] at hmark
      have hother (m : NMap (List Nat)) : nmGet [] k (noteOut s l rows m (o, ms.length)) = nmGet [] k m := by
        unfold noteOut
        split
        · rw [nmGet_set, if_neg hk]
        · rfl
      rw [hother]
      exact ih hmark

/-! ### The refresh of a group's arrays -/

/-- The state with other array holdings: what the refresh of an array reads does not change. -/
def withArrs (a : NMap ArrX) (s : State) : State := { s with arrs := a }

/-- What the arrays of a die hold once those that serve its logical arrays `first` to `first + n - 1` are refreshed. -/
def freshArrs (s : State) (die first : Nat) (rows : List (Nat × Nat)) (n : Nat) (a : NMap ArrX) : NMap ArrX :=
  (List.range n).foldl (fun a l =>
    nmSet (arrKey die (physOf s die (first + l)))
      (freshArr s die l (physOf s die (first + l)) rows (nmGet {} (arrKey die (physOf s die (first + l))) a)) a) a

theorem freshArrs_succ (s : State) (die first : Nat) (rows : List (Nat × Nat)) (n : Nat) (a : NMap ArrX) :
    freshArrs s die first rows (n + 1) a =
      nmSet (arrKey die (physOf s die (first + n)))
        (freshArr s die n (physOf s die (first + n)) rows
          (nmGet {} (arrKey die (physOf s die (first + n))) (freshArrs s die first rows n a)))
        (freshArrs s die first rows n a) := by
  rw [freshArrs, List.range_succ, List.foldl_append]
  rfl

theorem groupArrays_zipIdx (s : State) (inst : Nat) : (groupArrays s inst).zipIdx =
    (List.range 64).map fun l => (physOf s (inst / 16) (64 * (inst % 16) + l), l) := by
  apply List.ext_getElem
  · simp [groupArrays]
  · intro i h1 h2
    simp [groupArrays]

/-- Every column of the array is loaded from where it was. -/
theorem freshArrs_cols_addr (s : State) (die first : Nat) (rows : List (Nat × Nat)) (n p : Nat) (a : NMap ArrX) :
    ∀ e ∈ (nmGet {} (arrKey die p) (freshArrs s die first rows n a)).cols,
      ∃ e' ∈ (nmGet ({} : ArrX) (arrKey die p) a).cols, e.2.addr = e'.2.addr := by
  induction n with
  | zero => exact fun e he => ⟨e, he, rfl⟩
  | succ n ih =>
    intro e he
    rw [freshArrs_succ, nmGet_set] at he
    split at he
    · next hkey =>
      rw [← hkey] at he
      obtain ⟨e1, he1, rfl⟩ := List.mem_map.1 he
      obtain ⟨e', he', haddr⟩ := ih e1 he1
      exact ⟨e', he', (freshCol_addr _ _ _ _).trans haddr⟩
    · exact ih e he

/-- The refresh of a group whose masters are read clean. -/
theorem refreshArrays_clean {s : State} {die first : Nat} {rows : List (Nat × Nat)} (n : Nat)
    (hrows : ∀ e ∈ rows, CleanReads [⟨memSpace, e.2, 1024⟩] s)
    (hcols : ∀ l < n, ∀ e ∈ (arrX s die (physOf s die (first + l))).cols, CleanReads [⟨memSpace, e.2.addr, 1024⟩] s) :
    (List.range n).foldl (fun t l => refreshArray die l (physOf s die (first + l)) rows t) s =
      withArrs (freshArrs s die first rows n s.arrs) s := by
  induction n with
  | zero => rfl
  | succ n ih =>
    have hclean : ∀ e ∈ (arrX (withArrs (freshArrs s die first rows n s.arrs) s) die (physOf s die (first + n))).cols,
        CleanReads [⟨memSpace, e.2.addr, 1024⟩] s := by
      intro e he
      obtain ⟨e', he', haddr⟩ := freshArrs_cols_addr s die first rows n _ s.arrs e he
      rw [haddr]
      exact hcols n (Nat.lt_succ_self n) e' he'
    rw [List.range_succ, List.foldl_append, ih fun l hl => hcols l (Nat.lt_succ_of_lt hl), freshArrs_succ, List.foldl_cons,
      List.foldl_nil, refreshArray_clean (s := withArrs (freshArrs s die first rows n s.arrs) s) hrows hclean]
    rfl

theorem freshArrs_other {s : State} {die first n p : Nat} (rows : List (Nat × Nat)) (a : NMap ArrX)
    (h : ∀ l < n, physOf s die (first + l) ≠ p) :
    nmGet {} (arrKey die p) (freshArrs s die first rows n a) = nmGet ({} : ArrX) (arrKey die p) a := by
  induction n with
  | zero => rfl
  | succ n ih =>
    have hkey : arrKey die p ≠ arrKey die (physOf s die (first + n)) := by
      have := h n (Nat.lt_succ_self n)
      unfold arrKey
      omega
    rw [freshArrs_succ, nmGet_set, if_neg hkey, ih fun l hl => h l (Nat.lt_succ_of_lt hl)]

/-- An array that serves one logical array of the group is refreshed once. -/
theorem freshArrs_once {s : State} {die first n l : Nat} (rows : List (Nat × Nat)) (a : NMap ArrX) (hl : l < n)
    (honce : ∀ l' < n, physOf s die (first + l') = physOf s die (first + l) → l' = l) :
    nmGet {} (arrKey die (physOf s die (first + l))) (freshArrs s die first rows n a) =
      freshArr s die l (physOf s die (first + l)) rows (nmGet {} (arrKey die (physOf s die (first + l))) a) := by
  induction n with
  | zero => omega
  | succ n ih =>
    rw [freshArrs_succ, nmGet_set]
    by_cases hn : l = n
    · subst hn
      rw [if_pos rfl, freshArrs_other rows a fun l' hl' heq => absurd (honce l' (Nat.lt_succ_of_lt hl') heq) (Nat.ne_of_lt hl')]
    · have hkey : arrKey die (physOf s die (first + l)) ≠ arrKey die (physOf s die (first + n)) := by
        have hne : physOf s die (first + n) ≠ physOf s die (first + l) := fun heq =>
          hn (honce n (Nat.lt_succ_self n) heq).symm
        unfold arrKey
        omega
      rw [if_neg hkey, ih (by omega) fun l' hl' => honce l' (Nat.lt_succ_of_lt hl')]

end Sys2Proof.Machine

namespace Sys2Proof.Machine

open Sys2Proof

/-! ### Columns that enter bypass, and the token: what they leave alone -/

/-- The masters that the pantry of every array holds, and what a state holds beside its arrays, its token queues, its register
fields, its memory and its faults. -/
def pantryView (s : State) : State × (Nat → Nat → NMap (List Nat) × NMap PantryCol) :=
  ({ bare s with arrs := [], queues := [] }, fun die p => ((arrX s die p).outRows, (arrX s die p).cols))

theorem pantryView_of_bare {s t : State} (h : bare t = bare s) : pantryView t = pantryView s := by
  change pantryView (bare t) = pantryView (bare s)
  rw [h]

theorem pantryView_setQueue (dieCode q : Nat) (ts : List QTok) (s : State) :
    pantryView (setQueue dieCode q ts s) = pantryView s := rfl

theorem arrX_setArrX_ite (die p die' p' : Nat) (x : ArrX) (s : State) :
    arrX (setArrX die p x s) die' p' = if arrKey die' p' = arrKey die p then x else arrX s die' p' := nmGet_set _ _ _ _ _

theorem arrX_of_key {die p die' p' : Nat} (s : State) (h : arrKey die' p' = arrKey die p) : arrX s die' p' = arrX s die p := by
  rw [arrX, h, arrX]

theorem pantryView_setArrX {die p : Nat} {x : ArrX} (s : State) (hrows : x.outRows = (arrX s die p).outRows)
    (hcols : x.cols = (arrX s die p).cols) : pantryView (setArrX die p x s) = pantryView s := by
  refine Prod.ext rfl (funext fun die' => funext fun p' => ?_)
  change ((arrX (setArrX die p x s) die' p').outRows, (arrX (setArrX die p x s) die' p').cols) = _
  rw [arrX_setArrX_ite]
  split
  · next hkey =>
    rw [hrows, hcols, ← arrX_of_key s hkey]
    rfl
  · rfl

theorem pantryView_bypassLoaded (die p j : Nat) (s : State) : pantryView (bypassLoaded die p j s) = pantryView s := by
  unfold bypassLoaded
  dsimp only
  split
  · exact (pantryView_of_bare (bare_wrA _ _ _ _ _ _)).trans
      ((pantryView_of_bare (bare_wrA _ _ _ _ _ _)).trans (pantryView_setArrX s rfl rfl))
  · rfl

theorem queues_bypassLoaded (die p j : Nat) (s : State) : (bypassLoaded die p j s).queues = s.queues := by
  unfold bypassLoaded
  dsimp only
  split <;> rfl

theorem pantryView_bypassPermanent (die p : Nat) (s : State) : pantryView (bypassPermanent die p s) = pantryView s :=
  foldl_same pantryView (fun s kc => by
    split
    · exact pantryView_bypassLoaded _ _ _ s
    · rfl) _ _

theorem queues_bypassPermanent (die p : Nat) (s : State) : (bypassPermanent die p s).queues = s.queues :=
  foldl_same State.queues (fun s kc => by
    split
    · exact queues_bypassLoaded _ _ _ s
    · rfl) _ _

theorem pantryView_settleHead (dieCode q : Nat) (s : State) : pantryView (settleHead dieCode q s) = pantryView s := by
  unfold settleHead
  split
  · rfl
  · dsimp only
    split
    · rfl
    · exact (pantryView_of_bare (bare_sat _ _ _ _ _)).trans (pantryView_setQueue _ _ _ s)

theorem pantryView_portToken (die queue word : Nat) (s : State) : pantryView (portToken die queue word s) = pantryView s := by
  unfold portToken enqueue
  dsimp only
  split
  · exact (pantryView_settleHead _ _ _).trans (pantryView_setQueue _ _ _ s)
  · exact pantryView_of_bare (bare_guardFault _ _ _ _ _ _ _ _ s)

/-! ### A token of the port logic -/

theorem dropStale_none {gen : Nat} {ts : List QTok} (h : (dropStale gen ts).2 = 0) : (dropStale gen ts).1 = ts := by
  cases ts with
  | nil => rfl
  | cons t ts =>
    unfold dropStale at h ⊢
    split at h
    · next hgen => rw [if_pos hgen]
    · cases h

theorem queueOf_setQueue (dieCode q : Nat) (ts : List QTok) (s : State) : queueOf (setQueue dieCode q ts s) dieCode q = ts :=
  nmGet_set_self _ _ _ _

theorem queueOf_settleHead (dieCode q : Nat) (s : State) :
    queueOf (settleHead dieCode q s) dieCode q = settled s dieCode q (queueOf s dieCode q) := by
  have hsat (f : Field) (inst i n : Nat) (s : State) : queueOf (sat f inst i n s) dieCode q = queueOf s dieCode q :=
    congrArg (nmGet [] (queueKey dieCode q)) (congrArg State.queues (bare_sat f inst i n s) :)
  unfold settleHead settled
  cases consumerOf dieCode q with
  | none => rfl
  | some k =>
    change queueOf (if (dropStale (seqX s ⟨k.1, k.2⟩).gen (queueOf s dieCode q)).2 = 0 then _ else _) dieCode q =
      (dropStale (seqX s ⟨k.1, k.2⟩).gen (queueOf s dieCode q)).1
    split
    · next hnone => exact (dropStale_none hnone).symm
    · rw [hsat]
      exact queueOf_setQueue _ _ _ _

theorem settled_setQueue (dieCode q : Nat) (ts us : List QTok) (s : State) :
    settled (setQueue dieCode q ts s) dieCode q us = settled s dieCode q us := rfl

/-- A token of the port logic that the queue has room for. -/
theorem queueOf_portToken {die queue : Nat} (word : Nat) {s : State} (h : (queueOf s die queue).length < 64) :
    queueOf (portToken die queue word s) die queue = settled s die queue (insertTok
      ⟨splice word 20 8 (rd s F.sq_PROG_GEN (homeDie die) 0), s.core⟩ (queueOf s die queue)) := by
  unfold portToken enqueue
  dsimp only
  rw [if_pos h, queueOf_settleHead, queueOf_setQueue, settled_setQueue]
  rfl

theorem portToken_mem {die queue : Nat} (word : Nat) {s0 s : State} (h : (queueOf s die queue).length < 64)
    (hmem : MemKept s0 s) : MemKept s0 (portToken die queue word s) := by
  unfold portToken enqueue
  dsimp only
  rw [if_pos h]
  exact settleHead_mem _ _ _ (hmem.of_eq rfl)

/-! ### The pantry refresh of a group -/

/-- The group's sequencer. -/
def groupSeq (inst : Nat) : SeqId := ⟨inst / 16 / 4, 89 + 16 * (inst / 16 % 4) + inst % 16⟩

/-- The group's pantries are refreshed, and noted so. -/
def pantriesFresh (inst ap : Nat) (rows : List (Nat × Nat)) (s : State) : State :=
  { withArrs (freshArrs s (inst / 16) (64 * (inst % 16)) rows 64 s.arrs) (advanceTo (32 * ap) s) with
    refreshed := nmSet inst (stepNo s) s.refreshed, refreshDue := s.refreshDue.filter (· != inst) }

/-- The permanent columns enter bypass. -/
def pantriesReady (inst ap : Nat) (rows : List (Nat × Nat)) (s : State) : State :=
  (groupArrays s inst).foldl (fun s p => bypassPermanent (inst / 16) p s) (pantriesFresh inst ap rows s)

/-- The completion token is sent while the group's sequencer runs. -/
def pantryToken (inst : Nat) (s : State) : State :=
  if seqBusy s (groupSeq inst) then
    portToken (8 + inst / 16) (16 * (inst % 16) + 15) (tokenWord (0xFD * 2 ^ 12) 0 false false false false 0xF 0) s
  else s

theorem groupRefresh_clean {inst ap : Nat} {rows : List (Nat × Nat)} {s : State}
    (hrows : ∀ e ∈ rows, CleanReads [⟨memSpace, e.2, 1024⟩] s)
    (hcols : ∀ p ∈ groupArrays s inst, ∀ e ∈ (arrX s (inst / 16) p).cols, CleanReads [⟨memSpace, e.2.addr, 1024⟩] s) :
    ((groupArrays s inst).zipIdx).foldl (fun t pl => refreshArray (inst / 16) pl.2 pl.1 rows t) (advanceTo (32 * ap) s) =
      withArrs (freshArrs s (inst / 16) (64 * (inst % 16)) rows 64 s.arrs) (advanceTo (32 * ap) s) := by
  rw [groupArrays_zipIdx, List.foldl_map]
  exact refreshArrays_clean (s := advanceTo (32 * ap) s) 64 hrows fun l hl =>
    hcols _ (List.mem_map.2 ⟨l, List.mem_range.2 hl, rfl⟩)

theorem pantryRefresh_eq {inst ap : Nat} {rows : List (Nat × Nat)} {s : State} (hinst : inst < 256)
    (howed : nmGet 0 inst s.refreshed ≠ stepNo s ∨ s.refreshDue.contains inst = true) (hap : nextAp s ≤ ap)
    (hslot : (slotAt s inst ap).map (·.1) = some ap) (hgiven : rowsGiven s inst rows = true)
    (hbegun : productBegun s inst ap = false) (hafter : afterCommit s ap = true) (hchange : changeDue s ap = false)
    (hrows : ∀ e ∈ rows, CleanReads [⟨memSpace, e.2, 1024⟩] s)
    (hcols : ∀ p ∈ groupArrays s inst, ∀ e ∈ (arrX s (inst / 16) p).cols, CleanReads [⟨memSpace, e.2.addr, 1024⟩] s) :
    pantryRefresh inst ap rows s = pantryToken inst (pantriesReady inst ap rows s) := by
  have howed' : refreshOwed s inst = true := by simpa [refreshOwed] using howed
  have hguard : inst < 256 ∧ refreshOwed s inst = true ∧ nextAp s ≤ ap ∧ ((slotAt s inst ap).map (·.1) == some ap) = true ∧
      rowsGiven s inst rows = true ∧ (!productBegun s inst ap) = true ∧ afterCommit s ap = true ∧ (!changeDue s ap) = true :=
    ⟨hinst, howed', hap, by rw [hslot]; exact beq_self_eq_true _, hgiven, by rw [hbegun]; rfl, hafter, by rw [hchange]; rfl⟩
  have harrays : groupArrays (advanceTo (32 * ap) s) inst = groupArrays s inst := rfl
  unfold pantryRefresh
  rw [if_pos hguard]
  dsimp only
  rw [harrays, groupRefresh_clean hrows hcols]
  rfl

end Sys2Proof.Machine

namespace Sys2Proof.Machine

open Sys2Proof

section View

variable {s t : State} (h : pantryView t = pantryView s)

include h

theorem core_of_pantryView : t.core = s.core := (congrArg (fun v => v.1.core) h :)

theorem refreshed_of_pantryView : t.refreshed = s.refreshed := (congrArg (fun v => v.1.refreshed) h :)

theorem refreshDue_of_pantryView : t.refreshDue = s.refreshDue := (congrArg (fun v => v.1.refreshDue) h :)

theorem variant_of_pantryView : t.variant = s.variant := (congrArg (fun v => v.1.variant) h :)

theorem seqX_of_pantryView (q : SeqId) : seqX t q = seqX s q :=
  (congrArg (fun v => nmGet ({} : SeqX) (seqKey q) v.1.seqx) h :)

theorem pantry_of_pantryView (die p : Nat) :
    (arrX t die p).outRows = (arrX s die p).outRows ∧ (arrX t die p).cols = (arrX s die p).cols :=
  Prod.mk.inj (congrFun (congrFun (congrArg Prod.snd h) die) p)

end View

section Refresh

variable (inst ap : Nat) (rows : List (Nat × Nat)) (s : State)

theorem pantryView_pantriesReady : pantryView (pantriesReady inst ap rows s) = pantryView (pantriesFresh inst ap rows s) :=
  foldl_same pantryView (fun s p => pantryView_bypassPermanent (inst / 16) p s) _ _

theorem pantryView_pantryToken : pantryView (pantryToken inst s) = pantryView s := by
  unfold pantryToken
  split
  · exact pantryView_portToken _ _ _ s
  · rfl

theorem queues_pantriesReady : (pantriesReady inst ap rows s).queues = s.queues :=
  foldl_same State.queues (fun s p => queues_bypassPermanent (inst / 16) p s) _ _

theorem pantriesReady_mem : MemKept s (pantriesReady inst ap rows s) :=
  MemKept.foldl _ (fun t p h => bypassPermanent_mem (inst / 16) p t h) ⟨fun _ => rfl⟩

theorem pantriesReady_fld {n : Nat} (hn : [89, 91].contains n = false) : FieldKept n s (pantriesReady inst ap rows s) :=
  FieldKept.foldl _ (fun t p h => bypassPermanent_fld (inst / 16) p t hn h) ⟨fun _ _ => rfl⟩

theorem pantriesReady_variant : (pantriesReady inst ap rows s).variant = s.variant :=
  (variant_of_pantryView (pantryView_pantriesReady inst ap rows s)).trans rfl

theorem rd_pantriesReady {f : Field} (hn : [89, 91].contains f.fid = false) (hf : f.fid ≠ F.ag_PROG_COUNT.fid) (i j : Nat) :
    rd (pantriesReady inst ap rows s) f i j = rd s f i j :=
  (pantriesReady_fld inst ap rows s hn).rdU' (pantriesReady_variant inst ap rows s) hf _ _

theorem seqBusy_pantriesReady (q : SeqId) : seqBusy (pantriesReady inst ap rows s) q = seqBusy s q := by
  rw [seqBusy, seqBusy, seqState, seqState, rd_pantriesReady _ _ _ _ (by decide) (by decide)]

theorem queueOf_pantriesReady (die q : Nat) : queueOf (pantriesReady inst ap rows s) die q = queueOf s die q :=
  congrArg (nmGet [] (queueKey die q)) (queues_pantriesReady inst ap rows s)

theorem settled_pantriesReady (die q : Nat) (ts : List QTok) :
    settled (pantriesReady inst ap rows s) die q ts = settled s die q ts := by
  have hgen (k : SeqId) : seqX (pantriesReady inst ap rows s) k = seqX s k :=
    (seqX_of_pantryView (pantryView_pantriesReady inst ap rows s) k).trans rfl
  simp only [settled, hgen]

/-- What the command leaves, sent token or not. -/
theorem pantryView_refreshed : pantryView (pantryToken inst (pantriesReady inst ap rows s)) =
    pantryView (pantriesFresh inst ap rows s) :=
  (pantryView_pantryToken inst _).trans (pantryView_pantriesReady inst ap rows s)

theorem pantriesFresh_core (hap : nextAp s ≤ ap) : (pantriesFresh inst ap rows s).core = 32 * ap :=
  advanceTo_core ((core_le_nextAp s).trans (Nat.mul_le_mul_left 32 hap))

theorem pantriesFresh_arrX (die p : Nat) : arrX (pantriesFresh inst ap rows s) die p =
    nmGet {} (arrKey die p) (freshArrs s (inst / 16) (64 * (inst % 16)) rows 64 s.arrs) := by
  unfold pantriesFresh
  generalize freshArrs s (inst / 16) (64 * (inst % 16)) rows 64 s.arrs = a
  rfl

/-- The pantry of an array that serves one logical array of the group. -/
theorem pantriesFresh_array {l : Nat} (hl : l < 64)
    (honce : ∀ l' < 64, physOf s (inst / 16) (64 * (inst % 16) + l') = physOf s (inst / 16) (64 * (inst % 16) + l) → l' = l) :
    arrX (pantriesFresh inst ap rows s) (inst / 16) (physOf s (inst / 16) (64 * (inst % 16) + l)) =
      freshArr s (inst / 16) l (physOf s (inst / 16) (64 * (inst % 16) + l)) rows
        (arrX s (inst / 16) (physOf s (inst / 16) (64 * (inst % 16) + l))) := by
  rw [pantriesFresh_arrX, freshArrs_once rows _ hl honce]
  rfl

theorem pantryToken_idle (h : seqBusy s (groupSeq inst) = false) : pantryToken inst s = s := by
  rw [pantryToken, h]
  rfl

theorem pantryToken_busy (h : seqBusy s (groupSeq inst) = true) : pantryToken inst s =
    portToken (8 + inst / 16) (16 * (inst % 16) + 15) (tokenWord (0xFD * 2 ^ 12) 0 false false false false 0xF 0) s := by
  rw [pantryToken, if_pos h]

/-- Without a sequencer that runs, no queue, byte or further field changes. -/
theorem pantryRefresh_idle (h : seqBusy s (groupSeq inst) = false) :
    (pantryToken inst (pantriesReady inst ap rows s)).queues = s.queues ∧
      MemKept s (pantryToken inst (pantriesReady inst ap rows s)) ∧
      FieldsKept [F.ag_IN_BYPASS, F.ag_WRITE_STATE] s (pantryToken inst (pantriesReady inst ap rows s)) := by
  rw [pantryToken_idle inst _ ((seqBusy_pantriesReady inst ap rows s _).trans h)]
  exact ⟨queues_pantriesReady inst ap rows s, pantriesReady_mem inst ap rows s,
    fieldsKept_of_numbers [89, 91] (by decide) fun n hn => pantriesReady_fld inst ap rows s hn⟩

/-- With one, the token is in its queue where there is room. -/
theorem pantryRefresh_busy (hap : nextAp s ≤ ap) (h : seqBusy s (groupSeq inst) = true)
    (hroom : (queueOf s (8 + inst / 16) (16 * (inst % 16) + 15)).length < 64) :
    queueOf (pantryToken inst (pantriesReady inst ap rows s)) (8 + inst / 16) (16 * (inst % 16) + 15) =
      settled s (8 + inst / 16) (16 * (inst % 16) + 15) (insertTok
        ⟨splice (tokenWord (0xFD * 2 ^ 12) 0 false false false false 0xF 0) 20 8
          (rd s F.sq_PROG_GEN (homeDie (8 + inst / 16)) 0), 32 * ap⟩ (queueOf s (8 + inst / 16) (16 * (inst % 16) + 15))) ∧
      MemKept s (pantryToken inst (pantriesReady inst ap rows s)) := by
  have hroom' : (queueOf (pantriesReady inst ap rows s) (8 + inst / 16) (16 * (inst % 16) + 15)).length < 64 := by
    rw [queueOf_pantriesReady]
    exact hroom
  have hcore : (pantriesReady inst ap rows s).core = 32 * ap :=
    (core_of_pantryView (pantryView_pantriesReady inst ap rows s)).trans (pantriesFresh_core inst ap rows s hap)
  rw [pantryToken_busy inst _ ((seqBusy_pantriesReady inst ap rows s _).trans h)]
  refine ⟨?_, portToken_mem _ hroom' (pantriesReady_mem inst ap rows s)⟩
  rw [queueOf_portToken _ hroom', settled_pantriesReady, queueOf_pantriesReady,
    rd_pantriesReady _ _ _ _ (by decide) (by decide), hcore]

theorem pantryRefresh_sequencers : SequencersKept s (pantryRefresh inst ap rows s) :=
  sequencersKept_of_fields (pantryRefresh_kept inst ap rows s ⟨rfl, rfl, id⟩).variant
    (pantryRefresh_fld _ _ _ _ (by decide) (FieldKept.refl _ s)) (pantryRefresh_fld _ _ _ _ (by decide) (FieldKept.refl _ s))

end Refresh

theorem exec_pantryRefresh (inst ap : Nat) (rows : List (Nat × Nat)) (s : State) :
    exec (.pantryRefresh inst ap rows) s = .next (pantryRefresh inst ap rows s) := rfl

/-- Settles O51: the health commands, the drift check of a column and the refresh of a group's pantries, each by what its
function does. -/
theorem trainingEvents : Obligations.TrainingEvents := by
  unfold Obligations.TrainingEvents
  refine ⟨fun s h => mixerTest_completes h, fun s h => runClear_completes h, fun s h => detectorReset_completes h,
    fun s n h => ⟨fun hdie => exec_driftCheck_done h hdie, fun hlt =>
      ⟨_, exec_driftCheck_column h hlt, driftColumnDone_checked _ _ _ _ _ _ _ _ _ s⟩⟩,
    fun s h => exec_driftCheck_none h, ?_⟩
  intro inst ap rows s hinst howed hap hslot hgiven hbegun hafter hchange hrows hcols
  have heq := pantryRefresh_eq hinst howed hap hslot hgiven hbegun hafter hchange hrows hcols
  have hseqs := pantryRefresh_sequencers inst ap rows s
  rw [heq] at hseqs
  have hview := pantryView_refreshed inst ap rows s
  refine ⟨pantryToken inst (pantriesReady inst ap rows s), (exec_pantryRefresh inst ap rows s).trans (by rw [heq]), ?_⟩
  refine ⟨(core_of_pantryView hview).trans (pantriesFresh_core inst ap rows s hap), ?_, ?_, fun l hl honce => ?_,
    pantryRefresh_idle inst ap rows s, pantryRefresh_busy inst ap rows s hap, hseqs⟩
  · rw [refreshed_of_pantryView hview]
    exact nmGet_set_self _ _ _ _
  · rw [refreshDue_of_pantryView hview]
    simp [pantriesFresh]
  · obtain ⟨hout, hcol⟩ := pantry_of_pantryView hview (inst / 16) (physOf s (inst / 16) (64 * (inst % 16) + l))
    have harray := pantriesFresh_array inst ap rows s hl honce
    rw [harray] at hout hcol
    refine ⟨fun k r a hmark hrow => ?_, hcol⟩
    rw [hout]
    exact nmGet_foldl_noteOut hmark hrow []

end Sys2Proof.Machine

namespace Sys2Proof.Machine

open Sys2Proof

/-! ### A page that becomes ready (R350, R351) -/

theorem unitOf_page_inst (u : Nat) : unitOf (unitPage u) (unitInst u) = u := Nat.div_add_mod' u 65536

/-- The page of anything but an array group becomes ready at once, whatever error has come before. -/
theorem raiseReady_eq {u : Nat} (s : State) (h : unitPage u ≠ 0x11) :
    raiseReady u s = wrU F.com_DETAIL u 0 0 (wrU F.com_REASON u 0 0 (wrU F.com_READY u 0 1 s)) := by
  simp [raiseReady, setReady, heldUnready, h, b2n]

section Ready

variable {u : Nat} (s : State) (h : unitPage u ≠ 0x11)

include h

theorem rdU_raiseReady_ready : rdU (raiseReady u s) F.com_READY u 0 = 1 := by
  rw [raiseReady_eq s h, rdU_wrU_other _ _ _ _ _ _ _ _ (.inl (by decide)), rdU_wrU_other _ _ _ _ _ _ _ _ (.inl (by decide)),
    rdU_wrU_self]
  rfl

theorem pageReady_raiseReady : pageReady (raiseReady u s) u = true := beq_iff_eq.2 (rdU_raiseReady_ready s h)

theorem rdU_raiseReady_reason : rdU (raiseReady u s) F.com_REASON u 0 = 0 := by
  rw [raiseReady_eq s h, rdU_wrU_other _ _ _ _ _ _ _ _ (.inl (by decide)), rdU_wrU_self, Nat.zero_mod]

theorem rdU_raiseReady_other {u' : Nat} (f : Field) (i : Nat) (hu : u' ≠ u) :
    rdU (raiseReady u s) f u' i = rdU s f u' i := by
  rw [raiseReady_eq s h]
  iterate 3 rw [rdU_wrU_other _ _ _ _ _ _ _ _ (.inr (.inl hu))]

theorem bare_raiseReady : bare (raiseReady u s) = bare s := by simp [raiseReady_eq s h]

end Ready

theorem raiseReady_kept_numbers (u : Nat) (s : State) {n : Nat} (hn : [3, 7, 8].contains n = false) :
    FieldKept n s (raiseReady u s) := raiseReady_fld u s hn (FieldKept.refl n s)

theorem rd_of_fieldKept {f : Field} {s t : State} (h : FieldKept f.fid s t) (hv : t.variant = s.variant)
    (hf : f.fid ≠ F.ag_PROG_COUNT.fid) (inst i : Nat) : rd t f inst i = rd s f inst i := h.rdU' hv hf _ _

theorem pageReady_of_fieldKept {s t : State} (h : FieldKept F.com_READY.fid s t) (hv : t.variant = s.variant) (u : Nat) :
    pageReady t u = pageReady s u := congrArg (· == 1) (h.rdU' hv (by decide) u 0)

theorem rd_raiseReady {f : Field} (u : Nat) (s : State) (hn : [3, 7, 8].contains f.fid = false)
    (hf : f.fid ≠ F.ag_PROG_COUNT.fid) (inst i : Nat) : rd (raiseReady u s) f inst i = rd s f inst i :=
  rd_of_fieldKept (raiseReady_kept_numbers u s hn) (raiseReady_kept u s (Kept.refl s)).variant hf inst i

/-! ### The lock of the root PLL (R372) -/

/-- The clocks start, with ALIGN_COUNT and device time at 0. -/
def clocksStart (s : State) : State := { s with stage := .clocked, core := 0, time := 0 }

/-- The clock pages ready: the commit, the clock and the power-and-thermal page. -/
def clockPagesReady (s : State) : State := raiseReady (unitOf 0x04 0) (raiseReady (unitOf 0x03 0) (raiseReady (unitOf 0x02 0) s))

theorem exec_pllLock {s : State} (h : s.stage = .locking) :
    exec .pllLock s = .next (mixerTest (clockPagesReady (clocksStart s))) := by
  rw [exec, execPllLock, pllLock, if_pos h]
  rfl

theorem exec_pllLockTimeout {s : State} (h : s.stage = .locking) :
    exec .pllLockTimeout s = .next (wrU F.com_FAULT (unitOf 0x04 0) 0 1 { s with stage := .unlocked }) := by
  rw [exec, execPllLockTimeout, pllLockTimeout, if_pos h]

theorem bare_clockPagesReady (s : State) : bare (clockPagesReady s) = bare s := by
  rw [clockPagesReady, bare_raiseReady _ (by decide), bare_raiseReady _ (by decide), bare_raiseReady _ (by decide)]

theorem bare_mixerTest (s : State) : bare (mixerTest s) = bare s := by simp [mixerTest_eq]

theorem clockPagesReady_ready (s : State) : ∀ u ∈ [unitOf 0x02 0, unitOf 0x03 0, unitOf 0x04 0],
    rdU (clockPagesReady s) F.com_READY u 0 = 1 := by
  intro u hu
  simp only [List.mem_cons, List.not_mem_nil, or_false] at hu
  unfold clockPagesReady
  obtain rfl | rfl | rfl := hu
  · rw [rdU_raiseReady_other _ (by decide) _ _ (by decide), rdU_raiseReady_other _ (by decide) _ _ (by decide),
      rdU_raiseReady_ready _ (by decide)]
  · rw [rdU_raiseReady_other _ (by decide) _ _ (by decide), rdU_raiseReady_ready _ (by decide)]
  · exact rdU_raiseReady_ready _ (by decide)

theorem clockPagesReady_fld {n : Nat} (s : State) (hn : [3, 7, 8].contains n = false) : FieldKept n s (clockPagesReady s) :=
  raiseReady_fld _ _ hn (raiseReady_fld _ _ hn (raiseReady_fld _ _ hn (FieldKept.refl n s)))

theorem pllLock_completes {s : State} (h : s.stage = .locking) : Completes .pllLock s fun t =>
    t.stage = .clocked ∧ t.core = 0 ∧ nowNs t = 0 ∧
    (∀ u ∈ [unitOf 0x02 0, unitOf 0x03 0, unitOf 0x04 0], rdU t F.com_READY u 0 = 1) ∧
    rdb t F.he_MIXER_OK 0 0 = true ∧ rdb t F.he_MIXER_FAIL 0 0 = false ∧ MemKept s t ∧
    FieldsKept [F.com_READY, F.com_REASON, F.com_DETAIL, F.he_MIXER_OK, F.he_MIXER_FAIL] s t := by
  have hbare : bare (mixerTest (clockPagesReady (clocksStart s))) = bare (clocksStart s) :=
    (bare_mixerTest _).trans (bare_clockPagesReady _)
  have hstart (n : Nat) : FieldKept n s (clocksStart s) := (FieldKept.refl n s).of_eq rfl
  have htest {n : Nat} := mixerTest_fields (clockPagesReady (clocksStart s)) (n := n)
  obtain ⟨hok, hfail⟩ := mixerTest_shows (clockPagesReady (clocksStart s))
  refine ⟨_, exec_pllLock h, (congrArg State.stage hbare :), (congrArg State.core hbare :), ?_, fun u hu => ?_, hok, hfail, ?_,
    fieldsKept_of_numbers [3, 7, 8, 334, 335] (by decide) fun n hn => ?_⟩
  · have htime : (mixerTest (clockPagesReady (clocksStart s))).time = 0 := (congrArg State.time hbare :)
    rw [nowNs, htime]
    rfl
  · have hvariant := (congrArg State.variant (bare_mixerTest (clockPagesReady (clocksStart s))) :)
    rw [(htest (by decide)).rdU' hvariant (by decide), clockPagesReady_ready _ u hu]
  · exact mixerTest_mem _ (raiseReady_mem _ _ (raiseReady_mem _ _ (raiseReady_mem _ _ ⟨fun _ => rfl⟩)))
  · exact ((hstart n).trans (clockPagesReady_fld _ (sub_ne [3, 7, 8] _ (by decide) hn))).trans
      (htest (sub_ne [334, 335] _ (by decide) hn))

theorem pllLockTimeout_completes {s : State} (h : s.stage = .locking) : Completes .pllLockTimeout s fun t =>
    t.stage = .unlocked ∧ rdU t F.com_FAULT (unitOf 0x04 0) 0 = 1 ∧ (∀ u, blockReady t u = false) ∧ MemKept s t ∧
    FieldsKept [F.com_FAULT] s t := by
  refine ⟨_, exec_pllLockTimeout h, rfl, by rw [rdU_wrU_self]; rfl, fun u => rfl, ⟨fun _ => rfl⟩,
    fieldsKept_of_numbers [4] (by decide) fun n hn => ?_⟩
  have hfld := pllLockTimeout_fld s hn (FieldKept.refl n s)
  rwa [pllLockTimeout, if_pos h] at hfld

/-! ### Blocks that become ready (R373) -/

theorem exec_blockReady {u : Nat} {s : State} (info : List Nat) (hstage : s.stage = .clocked)
    (hpage : (allPages s.variant).contains u = true) (hdown : pageReady s u = false) :
    exec (.blockReady u info) s = .next (blockUp u info s) := by
  rw [exec, execBlockReady, blockReadyEvent, if_pos ⟨hstage, hpage, by rw [hdown]; rfl⟩]

theorem blockUp_plain {u : Nat} (info : List Nat) {s : State} (hlow : 0x04 < unitPage u)
    (hpage : unitPage u ∉ [0x10, 0x11, 0x40, 0x50, 0x52, 0x70]) (hfw : bringUpReason (unitPage u) ≠ 9 ∨ firmwareRuns s = true) :
    blockUp u info s = raiseReady u s := by
  simp only [List.mem_cons, List.not_mem_nil, or_false, not_or] at hpage
  obtain ⟨h10, h11, h40, h50, h52, h70⟩ := hpage
  have hup : ¬(unitPage u ≤ 0x04 ∨ bringUpReason (unitPage u) = 9 ∧ firmwareRuns s = false) := by
    rintro (hle | ⟨h9, hoff⟩)
    · omega
    · rcases hfw with hne | hon
      · exact hne h9
      · simp [hon] at hoff
  simp [blockUp, hup]

theorem blockUp_firmware {u : Nat} (info : List Nat) (s : State) (h : unitPage u = 0x50) :
    blockUp u info s = bringUpFirmware (unitInst u) info s := by
  simp [blockUp, h]

theorem blockUp_drive {u : Nat} (info : List Nat) {s : State} (h : unitPage u = 0x52)
    (hfw : pageReady s (unitOf 0x50 (unitInst u)) = true) : blockUp u info s = bringUpDrive (unitInst u) info s := by
  simp [blockUp, h, hfw]

theorem blockUp_faults (info : List Nat) {s : State} (hfw : firmwareRuns s = true) :
    blockUp (unitOf 0x70 0) info s = bringUpFaults info s := if_pos hfw

/-! #### Firmware (R303, R373) -/

/-- The session that the first firmware to start counts, over from its newest sound copy (R303, R338). -/
def countSession (s : State) : State :=
  let n := ((newestCopy s.shelf.sessions).map (·.session)).getD 0 + 1
  { s with shelf := { s.shelf with session := n }, job := { s.job with session := n % 65536 } }

/-- The session stands, or is counted by the first firmware to start. -/
def sessionStands (s : State) : State := if firmwareRuns s then s else countSession s

theorem bringUpFirmware_eq (c : Nat) (info : List Nat) (s : State) : bringUpFirmware c info s =
    raiseReady (unitOf 0x50 c) (wr F.cd_FW_VERSION c 0 (info.getD 0 0) 
      (wr F.id_FW_VERSION 0 0 (info.getD 0 0) (sessionStands s))) := rfl

theorem sessionStands_session (s : State) : (sessionStands s).shelf.session =
    if firmwareRuns s then s.shelf.session else ((newestCopy s.shelf.sessions).map (·.session)).getD 0 + 1 := by
  unfold sessionStands
  split <;> rfl

theorem unitPage_unitOf {page inst : Nat} (h : inst < 65536) : unitPage (unitOf page inst) = page := by
  unfold unitPage unitOf
  omega

theorem unitInst_lt (u : Nat) : unitInst u < 65536 := Nat.mod_lt _ (by decide)

theorem bringUpFirmware_completes {u : Nat} (info : List Nat) {s : State} (hpage : unitPage u = 0x50)
    (hexec : exec (.blockReady u info) s = .next (blockUp u info s)) : Completes (.blockReady u info) s fun t =>
      pageReady t u = true ∧ rd t F.cd_FW_VERSION (unitInst u) 0 = info.getD 0 0 % 2 ^ 32 ∧
      rd t F.id_FW_VERSION 0 0 = info.getD 0 0 % 2 ^ 32 ∧
      t.shelf.session = (if firmwareRuns s then s.shelf.session
        else ((newestCopy s.shelf.sessions).map (·.session)).getD 0 + 1) ∧ MemKept s t ∧
      FieldsKept [F.com_READY, F.com_REASON, F.com_DETAIL, F.id_FW_VERSION, F.cd_FW_VERSION] s t := by
  have hu : unitOf 0x50 (unitInst u) = u := by rw [← hpage, unitOf_page_inst]
  have h11 : unitPage u ≠ 0x11 := by rw [hpage]; decide
  rw [blockUp_firmware info s hpage] at hexec
  have hmem := bringUpFirmware_mem (unitInst u) info s ⟨fun _ => rfl⟩
  have hfld {n : Nat} (hn : [3, 7, 8, 582, 617].contains n = false) :=
    bringUpFirmware_fld (unitInst u) info s hn (FieldKept.refl n s)
  refine ⟨_, hexec, ?_, ?_, ?_, ?_, hmem, fieldsKept_of_numbers [3, 7, 8, 582, 617] (by decide) fun n hn => hfld hn⟩
  all_goals rw [bringUpFirmware_eq, hu]
  · exact pageReady_raiseReady _ h11
  · rw [rd_raiseReady _ _ (by decide) (by decide), rd_wr_self]
    rfl
  · rw [rd_raiseReady _ _ (by decide) (by decide),
      rd_wr_other _ _ _ _ _ _ _ _ (by decide), rd_wr_self]
    rfl
  · have hshelf := (congrArg State.shelf (bare_raiseReady (wr F.cd_FW_VERSION (unitInst u) 0 (info.getD 0 0)
      (wr F.id_FW_VERSION 0 0 (info.getD 0 0) (sessionStands s))) h11) :)
    exact (congrArg ShelfX.session hshelf).trans (sessionStands_session s)

/-! #### The fault page (R385) -/

/-- Log ring `l` is enabled at the place that `info` holds for it (R385). -/
def enableLog (info : List Nat) (s : State) (l : Nat) : State :=
  setb F.fa_LOG_EN 0 l true (wr F.fa_LOG_SIZE 0 l 14 (wr F.fa_LOG_BASE 0 l (info.getD (l + 1) 0) s))

theorem bringUpFaults_eq (info : List Nat) (s : State) : bringUpFaults info s = showShelfDump (raiseReady (unitOf 0x70 0)
    ((List.range 4).foldl (enableLog info) (wr F.fa_DUMP_BASE 0 0 (info.getD 0 0) s))) := rfl

theorem enableLog_fld (info : List Nat) (l : Nat) {s0 s : State} {n : Nat} (hn : [679, 680, 681].contains n = false)
    (h : FieldKept n s0 s) : FieldKept n s0 (enableLog info s l) := by
  have hne {m : Nat} (hm : [679, 680, 681].contains m = true) : m ≠ n := fun e => by rw [e, hn] at hm; cases hm
  exact setb_fld _ _ _ _ _ (hne rfl) (wr_fld _ _ _ _ _ (hne rfl) (wr_fld _ _ _ _ _ (hne rfl) h))

theorem enableLogs_fld (info : List Nat) (k : Nat) {s : State} {n : Nat} (hn : [679, 680, 681].contains n = false) :
    FieldKept n s ((List.range k).foldl (enableLog info) s) :=
  FieldKept.foldl _ (fun _ l h => enableLog_fld info l hn h) (FieldKept.refl n s)

theorem enableLogs_variant (info : List Nat) (k : Nat) (s : State) :
    ((List.range k).foldl (enableLog info) s).variant = s.variant :=
  foldl_same State.variant (f := enableLog info) (fun _ _ => rfl) _ s

/-- Log ring `l` is enabled at the place that `info` holds for it. -/
def LogEnabled (info : List Nat) (t : State) (l : Nat) : Prop :=
  rdb t F.fa_LOG_EN 0 l = true ∧ rd t F.fa_LOG_BASE 0 l = info.getD (l + 1) 0 % 2 ^ F.fa_LOG_BASE.width

theorem logEnabled_enableLog (info : List Nat) (s : State) (l : Nat) : LogEnabled info (enableLog info s l) l := by
  refine ⟨rdb_setb_self _ _ _ _ _ (by decide), ?_⟩
  rw [enableLog, setb, rd_wr_other _ _ _ _ _ _ _ _ (by decide), rd_wr_other _ _ _ _ _ _ _ _ (by decide), rd_wr_self]

theorem LogEnabled.enableLog_other {info : List Nat} {s : State} {l m : Nat} (h : LogEnabled info s l) (hlm : l ≠ m) :
    LogEnabled info (enableLog info s m) l := by
  obtain ⟨hen, hbase⟩ := h
  constructor
  · rw [← hen, rdb, rdb, rd, enableLog, setb, wr, wr, wr]
    iterate 3 rw [rdU_wrU_other _ _ _ _ _ _ _ _ (.inr (.inr hlm))]
    rfl
  · rw [← hbase, rd, enableLog, setb, wr, wr, wr]
    iterate 3 rw [rdU_wrU_other _ _ _ _ _ _ _ _ (.inr (.inr hlm))]
    rfl

theorem logsEnabled (info : List Nat) (n : Nat) (s : State) {l : Nat} (hl : l < n) :
    LogEnabled info ((List.range n).foldl (enableLog info) s) l := by
  induction n with
  | zero => omega
  | succ n ih =>
    rw [List.range_succ, List.foldl_append]
    obtain rfl | hne := eq_or_ne l n
    · exact logEnabled_enableLog info _ l
    · exact (ih (by omega)).enableLog_other hne

theorem pageReady_showShelfDump (s : State) (u : Nat) : pageReady (showShelfDump s) u = pageReady s u :=
  pageReady_of_fieldKept (showShelfDump_fld s (by decide) (FieldKept.refl _ s)) (showShelfDump_kept s (Kept.refl s)).variant u

/-- What becomes of the registers that the bring-up of the fault page sets, after it sets them. -/
theorem faultsReady_fld (s : State) {n : Nat} (hn : [3, 7, 8, 668].contains n = false) :
    FieldKept n s (showShelfDump (raiseReady (unitOf 0x70 0) s)) :=
  showShelfDump_fld _ (sub_ne [668] _ (by decide) hn) (raiseReady_kept_numbers _ s (sub_ne [3, 7, 8] _ (by decide) hn))

theorem faultsReady_variant (s : State) : (showShelfDump (raiseReady (unitOf 0x70 0) s)).variant = s.variant :=
  (showShelfDump_kept _ (raiseReady_kept _ s (Kept.refl s))).variant

theorem bringUpFaults_completes (info : List Nat) {s : State} (hfw : firmwareRuns s = true)
    (hexec : exec (.blockReady (unitOf 0x70 0) info) s = .next (blockUp (unitOf 0x70 0) info s)) :
    Completes (.blockReady (unitOf 0x70 0) info) s fun t =>
      pageReady t (unitOf 0x70 0) = true ∧ rd t F.fa_DUMP_BASE 0 0 = info.getD 0 0 % 2 ^ F.fa_DUMP_BASE.width ∧
      (∀ l < 4, LogEnabled info t l) ∧ MemKept s t := by
  rw [blockUp_faults info hfw] at hexec
  refine ⟨_, hexec, ?_, ?_, fun l hl => ?_, bringUpFaults_mem info s ⟨fun _ => rfl⟩⟩
  all_goals rw [bringUpFaults_eq]
  · rw [pageReady_showShelfDump]
    exact pageReady_raiseReady _ (by decide)
  · rw [rd_of_fieldKept (faultsReady_fld _ (by decide)) (faultsReady_variant _) (by decide),
      rd_of_fieldKept (enableLogs_fld info 4 (by decide)) (enableLogs_variant info 4 _) (by decide), rd_wr_self]
  · obtain ⟨hen, hbase⟩ := logsEnabled info 4 (wr F.fa_DUMP_BASE 0 0 (info.getD 0 0) s) hl
    constructor
    · rw [rdb_of_fieldKept (faultsReady_fld _ (by decide)) (faultsReady_variant _) (by decide), hen]
    · rw [rd_of_fieldKept (faultsReady_fld _ (by decide)) (faultsReady_variant _) (by decide), hbase]

/-! #### Commands to a drive (R336) -/

/-- Command `o` has left for drive `c` and is outstanding there (R336). -/
def Outstanding (c : Nat) (o : DriveCmd) (s : State) : Prop := .drive c o ∈ s.out ∧ ∃ ns, (o, ns) ∈ (driveX s c).waiting

theorem outstanding_of_bare {s t : State} (h : bare t = bare s) (c : Nat) (o : DriveCmd) :
    Outstanding c o t ↔ Outstanding c o s := by
  have hout : t.out = s.out := (congrArg State.out h :)
  have hdrives : t.drives = s.drives := (congrArg State.drives h :)
  rw [Outstanding, Outstanding, driveX, driveX, hout, hdrives]

theorem foldl_emit (f : DriveCmd → Output) (os : List DriveCmd) (s : State) :
    os.foldl (fun s o => emit (f o) s) s = { s with out := s.out ++ os.map f } := by
  induction os generalizing s with
  | nil => simp
  | cons o os ih =>
    rw [List.foldl_cons, ih]
    simp [emit]

theorem drivePump_out (c : Nat) (s : State) :
    (drivePump c s).out = s.out ++ (issuable (driveX s c)).map (.drive c) := by
  rw [drivePump, foldl_emit]
  rfl

theorem drivePump_waiting (c : Nat) (s : State) : (driveX (drivePump c s) c).waiting =
    (driveX s c).waiting ++ (issuable (driveX s c)).map fun o => (o, nowNs s) := by
  rw [drivePump, foldl_emit, driveX, setDrive, nmGet_set_self]

/-- What can be issued leaves, and is outstanding. -/
theorem outstanding_drivePump {c : Nat} {o : DriveCmd} {s : State} (h : Outstanding c o s ∨ o ∈ issuable (driveX s c)) :
    Outstanding c o (drivePump c s) := by
  rw [Outstanding, drivePump_out, drivePump_waiting]
  rcases h with ⟨hout, ns, hwait⟩ | hgo
  · exact ⟨List.mem_append_left _ hout, ns, List.mem_append_left _ hwait⟩
  · exact ⟨List.mem_append_right _ (List.mem_map_of_mem hgo), nowNs s, List.mem_append_right _ (List.mem_map.2 ⟨o, hgo, rfl⟩)⟩

/-- What is outstanding stays so while more is asked of the drive. -/
theorem Outstanding.driveIssue {c : Nat} {o : DriveCmd} {s : State} (h : Outstanding c o s) (os : List DriveCmd) :
    Outstanding c o (driveIssue c os s) := by
  obtain ⟨hout, ns, hwait⟩ := h
  unfold Machine.driveIssue
  split
  · refine outstanding_drivePump (.inl ⟨hout, ns, ?_⟩)
    rwa [driveX, setDrive, nmGet_set_self]
  · exact ⟨hout, ns, hwait⟩

/-- A drive in use of which nothing has been asked takes at once what can be issued together. -/
theorem driveIssue_idle {c : Nat} {os : List DriveCmd} {s : State} (hready : rdb s F.sh_DRIVE_READY c 0 = true)
    (hidle : driveX s c = {}) (hgo : issuable { todo := os } = os) :
    ∀ o ∈ os, Outstanding c o (driveIssue c os s) := by
  intro o ho
  rw [driveIssue, if_pos hready]
  refine outstanding_drivePump (.inr ?_)
  rw [driveX, setDrive, nmGet_set_self, hidle]
  exact hgo.symm ▸ ho

/-! #### A drive (R335) -/

/-- What identification found of a drive's space, on its page. -/
def driveSized (c : Nat) (info : List Nat) (s : State) : State :=
  wr F.sh_LBA_SHIFT c 0 (info.getD 5 0) (wr F.sh_CAPACITY c 0 (info.getD 8 0) s)

/-- A drive in use, with its size. -/
def driveAccepted (c : Nat) (info : List Nat) (s : State) : State :=
  setb F.sh_DRIVE_READY c 0 true (driveRefused c 0 (driveSized c info s))

/-- The commands for a drive when it comes into use (R336, R338). -/
def driveGreeting : List DriveCmd := driveStart ++ [.getLog 2, .read 0 4096, .read sessionPlace 4096]

/-- A drive in use has been sent its first commands, its label and the session count. -/
def driveGreeted (c : Nat) (s : State) : State := driveSession c (writeLabel c (driveIssue c driveGreeting s))

/-- A drive's page is ready, with what the drive holds shown. -/
def driveShown (c : Nat) (s : State) : State := showShelfDump (showSlots (raiseReady (unitOf 0x52 c) s))

section Drive

variable {c : Nat} {info : List Nat} {s : State} (hworks : rdb s F.sh_DRIVE_FAILED c 0 = false)

include hworks

theorem bringUpDrive_accepted (hcode : driveFault (rd s F.sh_SLOT_BYTES 0 0) info = 0) :
    bringUpDrive c info s = driveShown c (driveGreeted c (driveAccepted c info s)) := by
  simp [bringUpDrive, hworks, hcode, driveShown, driveGreeted, driveAccepted, driveSized, driveGreeting]

theorem bringUpDrive_refused {code : Nat} (hcode : driveFault (rd s F.sh_SLOT_BYTES 0 0) info = code) (hne : code ≠ 0) :
    bringUpDrive c info s = driveRefused c code (if code = 5 then driveSized c info s else s) := by
  simp [bringUpDrive, hworks, hcode, hne, driveSized]

end Drive

section Refused

variable (c code : Nat) (info : List Nat) (s : State)

theorem refused_fld {n : Nat} (hn : [528, 532, 533, 536].contains n = false) :
    FieldKept n s (driveRefused c code (if code = 5 then driveSized c info s else s)) := by
  have hne {m : Nat} (hm : [528, 532, 533, 536].contains m = true) : m ≠ n := fun e => by rw [e, hn] at hm; cases hm
  refine driveRefused_fld _ _ _ (sub_ne [528, 532] _ (by decide) hn) (FieldKept.ite ?_ (FieldKept.refl n s))
  exact wr_fld _ _ _ _ _ (hne rfl) (wr_fld _ _ _ _ _ (hne rfl) (FieldKept.refl n s))

theorem refused_variant : (driveRefused c code (if code = 5 then driveSized c info s else s)).variant = s.variant := by
  split <;> rfl

theorem rd_driveRefused (hcode : code < 16) : rd (driveRefused c code s) F.sh_FAIL_REASON c 0 = code := by
  rw [driveRefused, rd_wr_self]
  exact Nat.mod_eq_of_lt hcode

end Refused

section Accepted

variable (c : Nat) (info : List Nat) (s : State)

theorem driveGreeted_fld (n : Nat) : FieldKept n s (driveGreeted c s) :=
  driveSession_fld _ _ _ (writeLabel_fld _ _ _ (driveIssue_fld _ _ _ _ (FieldKept.refl n s)))

theorem driveGreeted_kept : Kept s (driveGreeted c s) :=
  driveSession_kept _ _ (writeLabel_kept _ _ (driveIssue_kept _ _ _ (Kept.refl s)))

theorem driveShown_fld {n : Nat} (hn : [3, 7, 8, 383, 384, 668].contains n = false) : FieldKept n s (driveShown c s) :=
  showShelfDump_fld _ (sub_ne [668] _ (by decide) hn) (showSlots_fld _ (sub_ne [383, 384] _ (by decide) hn)
    (raiseReady_kept_numbers _ s (sub_ne [3, 7, 8] _ (by decide) hn)))

theorem driveShown_kept : Kept s (driveShown c s) := showShelfDump_kept _ (showSlots_kept _ (raiseReady_kept _ s (Kept.refl s)))

theorem bare_driveShown (hc : c < 65536) : bare (driveShown c s) = bare s := by
  have hepoch (k e : Nat) (s : State) : bare (setShelfEpoch k e s) = bare s := by simp [setShelfEpoch]
  have hslots (s : State) : bare (showSlots s) = bare s := bare_foldl _ _ fun _ _ => hepoch _ _ _
  have hdump (s : State) : bare (showShelfDump s) = bare s := by simp [showShelfDump]
  rw [driveShown, hdump, hslots, bare_raiseReady _ (by rw [unitPage_unitOf hc]; decide)]

theorem pageReady_driveShown (hc : c < 65536) : pageReady (driveShown c s) (unitOf 0x52 c) = true := by
  have hslots (s : State) : pageReady (showSlots s) (unitOf 0x52 c) = pageReady s (unitOf 0x52 c) :=
    pageReady_of_fieldKept (showSlots_fld s (by decide) (FieldKept.refl _ s)) (showSlots_kept s (Kept.refl s)).variant _
  rw [driveShown, pageReady_showShelfDump, hslots, pageReady_raiseReady _ (by rw [unitPage_unitOf hc]; decide)]

/-- What a drive that is accepted shows on its page stays there. -/
theorem rd_driveShown {f : Field} (hn : [3, 7, 8, 383, 384, 668].contains f.fid = false) (hf : f.fid ≠ F.ag_PROG_COUNT.fid)
    (i : Nat) : rd (driveShown c (driveGreeted c s)) f c i = rd s f c i :=
  rd_of_fieldKept ((driveGreeted_fld c s _).trans (driveShown_fld c _ hn))
    ((driveShown_kept c _).variant.trans (driveGreeted_kept c s).variant) hf c i

theorem Outstanding.writeLabel {c : Nat} {o : DriveCmd} {s : State} (h : Outstanding c o s) :
    Outstanding c o (Machine.writeLabel c s) := by
  unfold Machine.writeLabel
  split
  · exact h
  · exact Outstanding.driveIssue (by exact h) _

theorem Outstanding.driveSession {c : Nat} {o : DriveCmd} {s : State} (h : Outstanding c o s) :
    Outstanding c o (Machine.driveSession c s) := by
  unfold Machine.driveSession
  exact Outstanding.driveIssue (by exact h) _

theorem drives_driveAccepted : (driveAccepted c info s).drives = s.drives := by
  simp [driveAccepted, driveRefused, driveSized]

theorem outstanding_driveGreeted (hready : rdb s F.sh_DRIVE_READY c 0 = true) (hidle : driveX s c = {}) :
    ∀ o ∈ driveStart, Outstanding c o (driveGreeted c s) := fun o ho =>
  have hsent : Outstanding c o (driveIssue c driveGreeting s) :=
    driveIssue_idle hready hidle rfl o (List.mem_append_left _ ho)
  hsent.writeLabel.driveSession

end Accepted

/-! #### The conditions on a drive (R335) -/

/-- The drive's link is up (R335). -/
def driveLinked (info : List Nat) : Prop := info.getD 0 0 ≠ 0

/-- No switch stands below the port (R335). -/
def driveDirect (info : List Nat) : Prop := info.getD 1 0 = 0

/-- The controller is of NVMe version 2 and has the NVM command set (R335). -/
def driveNvme (info : List Nat) : Prop := info.getD 2 0 / 65536 = 2 ∧ info.getD 3 0 ≠ 0

/-- Namespace 1 is present, in blocks of 512 or 4,096 bytes without metadata or protection (R335). -/
def driveSpaced (info : List Nat) : Prop :=
  info.getD 4 0 ≠ 0 ∧ (info.getD 5 0 = 9 ∨ info.getD 5 0 = 12) ∧ info.getD 6 0 = 0 ∧ info.getD 7 0 = 0

/-- The drive holds the fixed places and two slots of the shelf (R335, R338). -/
def driveRoomy (slotBytes : Nat) (info : List Nat) : Prop := 4 * 2 ^ 30 + 2 * slotBytes ≤ info.getD 8 0

/-- `reason` is that of the first condition that a drive fails (R335). -/
def DriveFails (slotBytes : Nat) (info : List Nat) (reason : Nat) : Prop :=
  (reason = 1 ∧ ¬driveLinked info) ∨ (reason = 2 ∧ driveLinked info ∧ ¬driveDirect info) ∨
  (reason = 3 ∧ driveLinked info ∧ driveDirect info ∧ ¬driveNvme info) ∨
  (reason = 4 ∧ driveLinked info ∧ driveDirect info ∧ driveNvme info ∧ ¬driveSpaced info) ∨
  (reason = 5 ∧ driveLinked info ∧ driveDirect info ∧ driveNvme info ∧ driveSpaced info ∧ ¬driveRoomy slotBytes info)

section Conditions

variable {slotBytes : Nat} {info : List Nat}

/-- The faults as `driveFault` tests them are the conditions' negations. -/
theorem not_driveNvme_iff : (info.getD 2 0 / 65536 ≠ 2 ∨ info.getD 3 0 = 0) ↔ ¬driveNvme info := by
  rw [driveNvme, not_and_or, not_not]

theorem not_driveSpaced_iff : (info.getD 4 0 = 0 ∨ !([9, 12].contains (info.getD 5 0)) ∨ info.getD 6 0 ≠ 0 ∨ info.getD 7 0 ≠ 0) ↔
    ¬driveSpaced info := by
  simp [driveSpaced]
  tauto

/-- The faults are tested in the order of the conditions. -/
theorem driveFault_eq [Decidable (driveLinked info)] [Decidable (driveDirect info)] [Decidable (driveNvme info)]
    [Decidable (driveSpaced info)] [Decidable (driveRoomy slotBytes info)] : driveFault slotBytes info =
      if ¬driveLinked info then 1 else if ¬driveDirect info then 2 else if ¬driveNvme info then 3
      else if ¬driveSpaced info then 4 else if ¬driveRoomy slotBytes info then 5 else 0 := by
  simp only [driveFault, not_driveNvme_iff, not_driveSpaced_iff, driveLinked, driveDirect, driveRoomy, not_not, not_le]

theorem driveFault_of_fails {reason : Nat} (h : DriveFails slotBytes info reason) : driveFault slotBytes info = reason := by
  classical
  rw [driveFault_eq]
  rcases h with ⟨rfl, hup⟩ | ⟨rfl, hup, hdirect⟩ | ⟨rfl, hup, hdirect, hnvme⟩ | ⟨rfl, hup, hdirect, hnvme, hspace⟩ |
    ⟨rfl, hup, hdirect, hnvme, hspace, hroom⟩ <;> simp [*]

theorem driveFault_of_meets (hup : driveLinked info) (hdirect : driveDirect info) (hnvme : driveNvme info)
    (hspace : driveSpaced info) (hroom : driveRoomy slotBytes info) : driveFault slotBytes info = 0 := by
  classical
  simp [driveFault_eq, *]

theorem DriveFails.reason_mem {reason : Nat} (h : DriveFails slotBytes info reason) : 1 ≤ reason ∧ reason ≤ 5 := by
  rw [DriveFails] at h
  omega

end Conditions

section Drive

variable {u : Nat} {info : List Nat} {s : State} (hworks : rdb s F.sh_DRIVE_FAILED (unitInst u) 0 = false)

include hworks

/-- A drive that fails a condition is not used. -/
theorem bringUpDrive_fails (hdown : pageReady s u = false) {reason : Nat}
    (h : DriveFails (rd s F.sh_SLOT_BYTES 0 0) info reason) :
    pageReady (bringUpDrive (unitInst u) info s) u = false ∧
      rdb (bringUpDrive (unitInst u) info s) F.sh_DRIVE_READY (unitInst u) 0 = rdb s F.sh_DRIVE_READY (unitInst u) 0 ∧
      rd (bringUpDrive (unitInst u) info s) F.sh_FAIL_REASON (unitInst u) 0 = reason := by
  obtain ⟨hlow, hhigh⟩ := h.reason_mem
  have hfld {n : Nat} := refused_fld (unitInst u) reason info s (n := n)
  have hvariant := refused_variant (unitInst u) reason info s
  rw [bringUpDrive_refused hworks (driveFault_of_fails h) (by omega)]
  exact ⟨(pageReady_of_fieldKept (hfld (by decide)) hvariant u).trans hdown,
    rdb_of_fieldKept (hfld (by decide)) hvariant (by decide) _ _, rd_driveRefused _ _ _ (by omega)⟩

/-- A drive that meets every condition is used. -/
theorem bringUpDrive_meets (hpage : unitPage u = 0x52) (hup : driveLinked info) (hdirect : driveDirect info)
    (hnvme : driveNvme info) (hspace : driveSpaced info) (hroom : driveRoomy (rd s F.sh_SLOT_BYTES 0 0) info) :
    let c := unitInst u
    let t := bringUpDrive c info s
    pageReady t u = true ∧ rdb t F.sh_DRIVE_READY c 0 = true ∧ rd t F.sh_FAIL_REASON c 0 = 0 ∧
    rd t F.sh_CAPACITY c 0 = info.getD 8 0 % 2 ^ F.sh_CAPACITY.width ∧ rd t F.sh_LBA_SHIFT c 0 = info.getD 5 0 ∧
    (driveX s c = {} → ∀ o ∈ driveStart, Outstanding c o t) := by
  intro c t
  have hc : c < 65536 := unitInst_lt u
  have hu : unitOf 0x52 c = u := by rw [← hpage, unitOf_page_inst]
  have ht : t = driveShown c (driveGreeted c (driveAccepted c info s)) :=
    bringUpDrive_accepted hworks (driveFault_of_meets hup hdirect hnvme hspace hroom)
  obtain ⟨-, hshift, -, -⟩ := hspace
  have hready : rdb (driveAccepted c info s) F.sh_DRIVE_READY c 0 = true := rdb_setb_self _ _ _ _ _ (by decide)
  rw [ht]
  refine ⟨?_, ?_, ?_, ?_, ?_, fun hidle o ho => ?_⟩
  · rw [← hu]
    exact pageReady_driveShown c _ hc
  · rw [rdb, rd_driveShown _ _ (by decide) (by decide)]
    exact hready
  · rw [rd_driveShown _ _ (by decide) (by decide), driveAccepted, setb, rd_wr_other _ _ _ _ _ _ _ _ (by decide),
      rd_driveRefused _ _ _ (by decide)]
  · rw [rd_driveShown _ _ (by decide) (by decide), driveAccepted, setb, driveRefused, setb, driveSized]
    iterate 4 rw [rd_wr_other _ _ _ _ _ _ _ _ (by decide)]
    rw [rd_wr_self]
  · rw [rd_driveShown _ _ (by decide) (by decide), driveAccepted, setb, driveRefused, setb, driveSized]
    iterate 3 rw [rd_wr_other _ _ _ _ _ _ _ _ (by decide)]
    rw [rd_wr_self]
    exact Nat.mod_eq_of_lt (by rcases hshift with h | h <;> rw [h] <;> decide)
  · rw [outstanding_of_bare (bare_driveShown c _ hc)]
    exact outstanding_driveGreeted c _ hready (by rw [driveX, drives_driveAccepted, ← driveX, hidle]) o ho

end Drive

/-- Settles O28: the lock of the PLL and its timeout, and the bring-up of each kind of block. -/
theorem lockAndBringUp : Obligations.LockAndBringUp := by
  unfold Obligations.LockAndBringUp
  refine ⟨⟨fun s => pllLock_completes, fun s => pllLockTimeout_completes⟩, fun u info s hstage hlisted hdown => ?_⟩
  have hexec := exec_blockReady info hstage hlisted hdown
  refine ⟨fun hlow hpage hfw => ?_, fun hpage => bringUpFirmware_completes info hpage hexec, ?_, fun hpage hfw hworks => ?_⟩
  · have h11 : unitPage u ≠ 0x11 := fun h => hpage (by rw [h]; decide)
    rw [blockUp_plain info hlow hpage hfw] at hexec
    exact ⟨_, hexec, pageReady_raiseReady s h11, rdU_raiseReady_reason s h11, raiseReady_mem u s ⟨fun _ => rfl⟩,
      fieldsKept_of_numbers [3, 7, 8] (by decide) fun n => raiseReady_kept_numbers u s,
      fun u' i hu => rdU_raiseReady_other s h11 _ i hu⟩
  · rintro rfl hfw
    exact bringUpFaults_completes info hfw hexec
  · rw [blockUp_drive info hpage hfw] at hexec
    exact ⟨_, hexec, bringUpDrive_mem _ _ _ ⟨fun _ => rfl⟩, fun reason => bringUpDrive_fails hworks hdown,
      bringUpDrive_meets hworks hpage⟩

end Sys2Proof.Machine

namespace Sys2Proof.Machine

open Sys2Proof

/-! ### Computations whose value what they met before does not change -/

section Steady

variable {α β : Type}

/-- A computation only notes what it meets: whatever was noted before, it gives the same value. -/
def Calc.Steady (m : Calc α) : Prop := ∀ fl, (m.run fl).1 = m.val

@[simp] theorem val_pure (a : α) : (pure a : Calc α).val = a := rfl

@[simp] theorem steady_pure (a : α) : (pure a : Calc α).Steady := fun _ => rfl

/-- What a bind gives is what its second part gives for the value of the first. -/
theorem val_bind (m : Calc α) {f : α → Calc β} (hf : ∀ a, (f a).Steady) : (m >>= f).val = (f m.val).val :=
  hf m.val (m.run {}).2

@[simp] theorem Calc.Steady.bind {m : Calc α} {f : α → Calc β} (hm : m.Steady) (hf : ∀ a, (f a).Steady) :
    (m >>= f).Steady := fun fl => by
  rw [val_bind m hf, ← hf m.val (m.run fl).2, ← hm fl]
  rfl

@[simp] theorem steady_ite {p : Prop} [Decidable p] (a b : Calc α) :
    (if p then a else b).Steady ↔ if p then a.Steady else b.Steady := by
  split <;> rfl

theorem Calc.Steady.ite {p : Prop} [Decidable p] {a b : Calc α} (ha : a.Steady) (hb : b.Steady) :
    (if p then a else b).Steady := by
  simp [ha, hb]

@[simp] theorem steady_modify (g : Fl → Fl) : (modify g : Calc Unit).Steady := fun _ => rfl

@[simp] theorem val_map (f : α → β) (m : Calc α) : (f <$> m).val = f m.val := rfl

@[simp] theorem steady_map (f : α → β) {m : Calc α} (hm : m.Steady) : (f <$> m).Steady := fun fl => congrArg f (hm fl)

/-- A list of steady computations is steady, and gives what each of them gives. -/
theorem steady_val_mapM {f : α → Calc β} (hf : ∀ a, (f a).Steady) (xs : List α) :
    (xs.mapM f).Steady ∧ (xs.mapM f).val = xs.map fun a => (f a).val := by
  induction xs with
  | nil => exact ⟨steady_pure _, rfl⟩
  | cons x xs ih =>
    obtain ⟨hsteady, hval⟩ := ih
    have hrest (b : β) : (xs.mapM f >>= fun bs => pure (b :: bs) : Calc (List β)).Steady := hsteady.bind fun _ => steady_pure _
    rw [List.mapM_cons]
    exact ⟨(hf x).bind hrest, by rw [val_bind _ hrest, val_bind _ fun _ => steady_pure _, hval]; rfl⟩

@[simp] theorem steady_mapM {f : α → Calc β} (hf : ∀ a, (f a).Steady) (xs : List α) : (xs.mapM f).Steady :=
  (steady_val_mapM hf xs).1

@[simp] theorem val_mapM {f : α → Calc β} (hf : ∀ a, (f a).Steady) (xs : List α) :
    (xs.mapM f).val = xs.map fun a => (f a).val := (steady_val_mapM hf xs).2

@[simp] theorem steady_foldlM {f : β → α → Calc β} (hf : ∀ b a, (f b a).Steady) (xs : List α) (b : β) :
    (xs.foldlM f b).Steady := by
  induction xs generalizing b with
  | nil => exact steady_pure _
  | cons x xs ih =>
    rw [List.foldlM_cons]
    exact (hf b x).bind ih

@[simp] theorem steady_forM {f : α → Calc PUnit} (hf : ∀ a, (f a).Steady) (xs : List α) : (xs.forM f).Steady := by
  induction xs with
  | nil => exact steady_pure _
  | cons x xs ih =>
    exact (hf x).bind fun _ => ih

end Steady

/-! ### The arithmetic is steady (R26, R50, R142) -/

@[simp] theorem steady_noteNonfinite (b : Bool) : (noteNonfinite b).Steady := steady_modify _

@[simp] theorem steady_noteOverflow (b : Bool) : (noteOverflow b).Steady := steady_modify _

@[simp] theorem steady_noteUnder (b : Bool) : (noteUnder b).Steady := steady_modify _

@[simp] theorem steady_noteClip (b : Bool) : (noteClip b).Steady := steady_modify _

@[simp] theorem steady_noteMarker : noteMarker.Steady := steady_modify _

@[simp] theorem steady_noteStray : noteStray.Steady := steady_modify _

@[simp] theorem steady_mkF32 (neg : Bool) (num den : Nat) (e : Int) : (mkF32 neg num den e).Steady := fun _ => rfl

@[simp] theorem steady_extToF32 (v : Ext) : (extToF32 v).Steady := by
  cases v <;> exact fun _ => rfl

@[simp] theorem steady_extToS16 (r : Rnd) (v : Ext) : (extToS16 r v).Steady := by
  cases v <;> exact fun _ => rfl

@[simp] theorem steady_f32ToS16 (r : Rnd) (a : F32) : (f32ToS16 r a).Steady := steady_extToS16 r _

@[simp] theorem steady_extAdd (v w : Ext) : (extAdd v w).Steady := by
  unfold extAdd
  split <;> simp

@[simp] theorem steady_fadd (a b : F32) : (fadd a b).Steady := steady_extAdd _ _

@[simp] theorem steady_fsub (a b : F32) : (fsub a b).Steady := by
  unfold fsub
  split <;> simp

@[simp] theorem steady_fmul (a b : F32) : (fmul a b).Steady := by
  unfold fmul extMul
  split <;> simp

@[simp] theorem steady_fdiv (a b : F32) : (fdiv a b).Steady := by
  unfold fdiv
  split <;> simp

@[simp] theorem steady_frecip (a : F32) : (frecip a).Steady := by simp [frecip]

@[simp] theorem steady_fsqrt (a : F32) : (fsqrt a).Steady := by
  unfold fsqrt
  split <;> simp

@[simp] theorem steady_frsqrt (a : F32) : (frsqrt a).Steady := by simp [frsqrt]

@[simp] theorem steady_fmax (a b : F32) : (fmax a b).Steady := by simp [fmax]

@[simp] theorem steady_fmin (a b : F32) : (fmin a b).Steady := by simp [fmin]

@[simp] theorem steady_fabs (a : F32) : (fabs a).Steady := by simp [fabs]

@[simp] theorem steady_scaleF32 (n : Int) (v : Ext) : (scaleF32 n v).Steady := by
  unfold scaleF32
  split <;> simp

@[simp] theorem steady_exp32 (a : F32) : (exp32 a).Steady := by
  unfold exp32
  split <;> simp

/-! ### Reading and writing a stream is steady (R157) -/

@[simp] theorem steady_b8ToF32 (m : Byte) (ex : Nat) : (b8ToF32 m ex).Steady := by simp [b8ToF32]

@[simp] theorem steady_f32ToB8 (r : Rnd) (preset : Bool) (ex : Nat) (a : F32) : (f32ToB8 r preset ex a).Steady := by
  unfold f32ToB8
  split <;> simp

@[simp] theorem steady_f32ToA8 (sc : S16) (z : Nat) (a : F32) : (f32ToA8 sc z a).Steady := by
  unfold f32ToA8
  split
  · simp
  · split <;> simp

@[simp] theorem steady_a8ToF32 (sc : S16) (z : Nat) (q : Byte) : (a8ToF32 sc z q).Steady := steady_fmul _ _

@[simp] theorem steady_levelToF32 (b : Byte) : (levelToF32 b).Steady := by simp [levelToF32]

@[simp] theorem steady_elem (d : Stream) (s : State) (p : Nat) : (d.elem s p).Steady := by simp [Stream.elem]

@[simp] theorem steady_movedElem (d : Stream) (s : State) (p : Nat) : (movedElem d s p).Steady := by simp [movedElem]

@[simp] theorem steady_encodeBlock (rnd : Nat → Rnd) (preset : Option Nat) (xs : List F32) (i : Nat) :
    (encodeBlock rnd preset xs i).Steady := by
  simp [encodeBlock]

/-- The values of the first `n` elements of a stream. -/
def Stream.vals (d : Stream) (s : State) (n : Nat) : List F32 := (List.range n).map fun p => (d.elem s p).val

theorem elems_val (d : Stream) (s : State) (n : Nat) : (d.elems s n).val = d.vals s n := val_mapM (steady_elem d s) _

@[simp] theorem steady_elems (d : Stream) (s : State) (n : Nat) : (d.elems s n).Steady := steady_mapM (steady_elem d s) _

@[simp] theorem steady_write (d : Stream) (s : State) (rnd : Nat → Rnd) (preset : Bool) (xs : List F32) :
    (d.write s rnd preset xs).Steady := by
  simp [Stream.write]

/-- To an F32 stream values go as F32. -/
theorem write_val_f32 {d : Stream} (hd : d.fmt = fmtF32) (s : State) (rnd : Nat → Rnd) (preset : Bool) (xs : List F32) :
    (d.write s rnd preset xs).val.writes = [⟨cell d.space d.base, xs.flatMap fun x => f32Le (extToF32 (f32Val x)).val⟩] := by
  simp [Stream.write, hd, fmtF32, fmtS16, List.flatMap_map]

theorem write_val_s16 {d : Stream} (hd : d.fmt = fmtS16) (s : State) (rnd : Nat → Rnd) (preset : Bool) (xs : List F32) :
    (d.write s rnd preset xs).val.writes =
      [⟨cell d.space d.base, xs.zipIdx.flatMap fun xi => s16Le (f32ToS16 (rnd xi.2) xi.1).val⟩] := by
  simp [Stream.write, hd, List.flatMap_map]

/-- The blocks of values written to a B8 stream: the exponent and the elements of each (R32, R33). -/
def Stream.blocks (d : Stream) (s : State) (rnd : Nat → Rnd) (preset : Bool) (xs : List F32) : List (Nat × List Byte) :=
  (blocksOf (blockSize d.blk) xs.length xs).zipIdx.map fun xj => (encodeBlock rnd
    (if preset then some (readExp s d.space (d.aux + xj.2)) else none) xj.1 (blockSize d.blk * xj.2)).val

theorem write_val_b8 {d : Stream} (hd : d.fmt = fmtB8) (s : State) (rnd : Nat → Rnd) (preset : Bool) (xs : List F32) :
    (d.write s rnd preset xs).val.writes = ⟨cell d.space d.base, (d.blocks s rnd preset xs).flatMap (·.2)⟩ ::
      (if preset then [] else [⟨cell d.space d.aux, (d.blocks s rnd preset xs).map fun e => BitVec.ofNat 8 e.1⟩]) := by
  simp [Stream.write, hd, fmtB8, fmtS16, fmtF32, Stream.blocks]

/-! ### A command without the reduction and the histogram (R164 to R166) -/

theorem reductionUnit_off {c : Cmd} (hred : c.vRedEn = false) (hhist : c.vHistEn = false) (x : Ctx) (s : State) (o : VOut) :
    reductionUnit x c s o = pure o := by
  simp [reductionUnit, hred, hhist]

/-- What the command answers is what its operation computes over its length. -/
theorem vecOp_run {c : Cmd} (hred : c.vRedEn = false) (hhist : c.vHistEn = false) (op : Nat)
    (f : Ctx → Cmd → State → Nat → Calc VOut) (x : Ctx) (s : State) :
    (vecOp op f x c s).writes = (f x c s (opLen op x c).1).val.writes.map (·.2) ∧
    (vecOp op f x c s).extent = (f x c s (opLen op x c).1).val.extent := by
  simp only [vecOp, reductionUnit_off hred hhist, bind_pure, ite_self]
  exact ⟨rfl, rfl⟩

section Work

variable {x : Ctx} {c : Cmd} {s : State} {n : Nat} (hred : c.vRedEn = false) (hhist : c.vHistEn = false)
  (hlen : (vLen x c).1 = n)

include hred hhist hlen

theorem vectorWork_run {op : Nat} (hop : op ≠ 0x1A) :
    (vectorWork op x c s).writes = (vecFn op x c s n).val.writes.map (·.2) ∧
    (vectorWork op x c s).extent = (vecFn op x c s n).val.extent := by
  have hn : (opLen op x c).1 = n := by rw [opLen, if_neg hop, hlen]
  exact hn ▸ vecOp_run hred hhist op (vecFn op) x s

theorem vectorWork_writes {op : Nat} (hop : op ≠ 0x1A) :
    (vectorWork op x c s).writes = (vecFn op x c s n).val.writes.map (·.2) := (vectorWork_run hred hhist hlen hop).1

end Work

/-! ### Lane by lane (R157, R159) -/

theorem map_snd_labelled (l : Nat) (ws : List WriteBack) : (labelled l ws).map (·.2) = ws := by
  simp [labelled, Function.comp_def]

theorem storeLanes_val {n : Nat} (hn : 0 < n) (x : Ctx) (c : Cmd) (s : State) (reads : List (Nat × Range)) (tap0 ys : List F32) :
    (storeLanes x c s n reads tap0 ys).val.writes.map (·.2) = ((vD x c).write s (vRound x c) c.vPreset ys).val.writes ∧
    (storeLanes x c s n reads tap0 ys).val.extent = n := by
  simp [storeLanes, hn.ne', map_snd_labelled]

@[simp] theorem steady_storeLanes (x : Ctx) (c : Cmd) (s : State) (n : Nat) (reads : List (Nat × Range)) (tap0 ys : List F32) :
    (storeLanes x c s n reads tap0 ys).Steady := by
  simp [storeLanes]

/-- The lanes that a function of the sources' lanes and of the command gives. -/
def laneVals (f : Cmd → F32 → F32 → Calc F32) (x : Ctx) (c : Cmd) (s : State) (n : Nat) : List F32 :=
  (List.range n).map fun p => (f c ((vA x c).elem s p).val ((vB x c).elem s p).val).val

/-- Operation `op` works lane by lane: it stores the lanes that `f` gives. -/
def Lanewise (op : Nat) (f : Cmd → F32 → F32 → Calc F32) : Prop :=
  op ≠ 0x1A ∧ ∀ (x : Ctx) (c : Cmd) (s : State) (n : Nat), ∃ reads tap0,
    (vecFn op x c s n).val = (storeLanes x c s n reads tap0 (laneVals f x c s n)).val

theorem lane1_val {g : F32 → Calc F32} (hg : ∀ a, (g a).Steady) (x : Ctx) (c : Cmd) (s : State) (n : Nat) :
    (lane1 g x c s n).val = (storeLanes x c s n (planes 0 (vA x c) n) ((vA x c).vals s n)
      (((vA x c).vals s n).map fun a => (g a).val)).val := by
  rw [lane1, val_bind _ fun _ => (steady_mapM hg _).bind fun _ => steady_storeLanes _ _ _ _ _ _ _,
    val_bind _ fun _ => steady_storeLanes _ _ _ _ _ _ _, elems_val, val_mapM hg]

theorem lane2_val {f : F32 → F32 → Calc F32} (hf : ∀ a b, (f a b).Steady) (x : Ctx) (c : Cmd) (s : State) (n : Nat) :
    (lane2 f x c s n).val = (storeLanes x c s n (planes 0 (vA x c) n ++ planes 2 (vB x c) n) ((vA x c).vals s n)
      ((((vA x c).vals s n).zip ((vB x c).vals s n)).map fun ab => (f ab.1 ab.2).val)).val := by
  have hpair (ab : F32 × F32) : (f ab.1 ab.2).Steady := hf _ _
  rw [lane2, val_bind _ fun _ => (steady_elems _ _ _).bind fun _ => (steady_mapM hpair _).bind fun _ =>
      steady_storeLanes _ _ _ _ _ _ _,
    val_bind _ fun _ => (steady_mapM hpair _).bind fun _ => steady_storeLanes _ _ _ _ _ _ _,
    val_bind _ fun _ => steady_storeLanes _ _ _ _ _ _ _, elems_val, elems_val, val_mapM hpair]

theorem lanewise_of_lane1 {op : Nat} {g : Cmd → F32 → Calc F32} (hop : op ≠ 0x1A) (hg : ∀ c a, (g c a).Steady)
    (hfn : vecFn op = fun x c s n => lane1 (g c) x c s n) : Lanewise op fun c a _ => g c a := by
  refine ⟨hop, fun x c s n => ?_⟩
  rw [hfn, lane1_val (hg c), Stream.vals, List.map_map]
  exact ⟨_, _, rfl⟩

theorem lanewise_of_lane2 {op : Nat} {f : Cmd → F32 → F32 → Calc F32} (hop : op ≠ 0x1A) (hf : ∀ c a b, (f c a b).Steady)
    (hfn : vecFn op = fun x c s n => lane2 (f c) x c s n) : Lanewise op f := by
  refine ⟨hop, fun x c s n => ?_⟩
  rw [hfn, lane2_val (hf c), Stream.vals, Stream.vals, List.zip_map', List.map_map]
  exact ⟨_, _, rfl⟩

/-- What a lane-by-lane operation writes, in each format of D. -/
theorem Lanewise.writes {op : Nat} {f : Cmd → F32 → F32 → Calc F32} (h : Lanewise op f) {x : Ctx} {c : Cmd} (s : State) {n : Nat}
    (hred : c.vRedEn = false) (hhist : c.vHistEn = false) (hlen : (vLen x c).1 = n) (hn : 0 < n) :
    let d := vD x c
    let ys := laneVals f x c s n
    let r := vectorWork op x c s
    r.extent = n ∧ r.fmt = d.fmt ∧
    (d.fmt = fmtF32 → r.writes = [⟨cell d.space d.base, ys.flatMap fun y => f32Le (extToF32 (f32Val y)).val⟩]) ∧
    (d.fmt = fmtS16 → r.writes =
      [⟨cell d.space d.base, ys.zipIdx.flatMap fun yp => s16Le (f32ToS16 (vRound x c yp.2) yp.1).val⟩]) ∧
    (d.fmt = fmtB8 → r.writes = ⟨cell d.space d.base, (d.blocks s (vRound x c) c.vPreset ys).flatMap (·.2)⟩ ::
      (if c.vPreset then [] else
        [⟨cell d.space d.aux, (d.blocks s (vRound x c) c.vPreset ys).map fun e => BitVec.ofNat 8 e.1⟩])) := by
  obtain ⟨hop, hval⟩ := h
  obtain ⟨reads, tap0, hlanes⟩ := hval x c s n
  obtain ⟨hwrites, hextent⟩ := storeLanes_val hn x c s reads tap0 (laneVals f x c s n)
  obtain ⟨hws, hext⟩ := vectorWork_run (s := s) hred hhist hlen hop
  rw [hlanes, hwrites] at hws
  rw [hlanes, hextent] at hext
  intro d ys r
  exact ⟨hext, rfl, fun hd => hws.trans (write_val_f32 hd s _ _ _), fun hd => hws.trans (write_val_s16 hd s _ _ _),
    fun hd => hws.trans (write_val_b8 hd s _ _ _)⟩

/-! ### A NaN operand (R50) -/

theorem f32Val_of_isNan {a : F32} (h : f32IsNan a = true) : f32Val a = .nan := by
  simp only [f32IsNan, Bool.and_eq_true, beq_iff_eq, bne_iff_ne] at h
  obtain ⟨hexp, hfrac⟩ := h
  rw [f32Val, valueOf, if_pos hexp, if_neg hfrac]

/-- A computation gives the canonical NaN and sets non-finite status, whatever was noted before. -/
def GivesNan (m : Calc F32) : Prop := ∀ fl : Fl, (m.run fl).1 = f32Nan ∧ (m.run fl).2.nonfinite = true

theorem givesNan_extToF32_nan : GivesNan (extToF32 .nan) := fun fl => ⟨rfl, Bool.or_true fl.nonfinite⟩

theorem extAdd_nan {v w : Ext} (h : v = .nan ∨ w = .nan) : extAdd v w = extToF32 .nan := by
  rcases h with rfl | rfl
  · rfl
  · cases v <;> rfl

theorem extMul_nan {v w : Ext} (h : v = .nan ∨ w = .nan) : extMul v w = extToF32 .nan := by
  rcases h with rfl | rfl
  · rfl
  · cases v <;> rfl

theorem fsub_nan {a b : F32} (h : f32Val a = .nan ∨ f32Val b = .nan) : fsub a b = extToF32 .nan := by
  rcases h with h | h
  · unfold fsub
    split
    · rfl
    · exact extAdd_nan (.inl h)
    · exact extAdd_nan (.inl h)
  · simp [fsub, h]

theorem fdiv_nan {a b : F32} (h : f32Val a = .nan ∨ f32Val b = .nan) : fdiv a b = extToF32 .nan := by
  rcases h with h | h
  · simp [fdiv, h]
  · cases ha : f32Val a <;> simp [fdiv, ha, h]

theorem arithmetic_nan {a b : F32} (h : f32IsNan a = true ∨ f32IsNan b = true) :
    ∀ f ∈ ([fadd, fsub, fmul, fdiv] : List (F32 → F32 → Calc F32)), GivesNan (f a b) := by
  have hval : f32Val a = .nan ∨ f32Val b = .nan := h.imp f32Val_of_isNan f32Val_of_isNan
  have hadd : fadd a b = extToF32 .nan := extAdd_nan hval
  have hmul : fmul a b = extToF32 .nan := extMul_nan hval
  intro f hf
  simp only [List.mem_cons, List.not_mem_nil, or_false] at hf
  obtain rfl | rfl | rfl | rfl := hf
  · exact hadd ▸ givesNan_extToF32_nan
  · exact fsub_nan hval ▸ givesNan_extToF32_nan
  · exact hmul ▸ givesNan_extToF32_nan
  · exact fdiv_nan hval ▸ givesNan_extToF32_nan

/-! ### SELECT and PERM (R159, R163) -/

theorem vals_getD (d : Stream) (s : State) {n p : Nat} (hp : p < n) : (d.vals s n).getD p 0 = (d.elem s p).val := by
  simp [Stream.vals, hp]

section Operation

variable {x : Ctx} {c : Cmd} (s : State) {n : Nat} (hn : 0 < n)

include hn

theorem vSelect_writes (hd : (vD x c).fmt = fmtF32) : (vSelect x c s n).val.writes.map (·.2) =
    [⟨cell (vD x c).space (vD x c).base, (List.range n).flatMap fun p =>
      let v := if f32IsZero (((vA x c).vals s n).getD p 0) then c.vImmF else ((vB x c).elem s p).val
      f32Le (if f32IsNan v then f32Nan else v)⟩] := by
  have hlanes : ((vA x c).vals s n).zip ((vB x c).vals s n) = (List.range n).map fun p =>
      (((vA x c).vals s n).getD p 0, ((vB x c).elem s p).val) := by
    rw [Stream.vals, Stream.vals, List.zip_map']
    exact List.map_congr_left fun p hp => by rw [← Stream.vals, vals_getD _ _ (List.mem_range.1 hp)]
  simp only [vSelect, hd, if_true]
  rw [val_bind _ fun _ => (steady_elems _ _ _).bind fun _ => steady_pure _, val_bind _ fun _ => steady_pure _, elems_val,
    elems_val, hlanes]
  simp [List.flatMap_map, hn.ne']

/-- A lane of PERM between streams of one format: the element picked as it is, or the immediate in D's format (R163). -/
def permRow (x : Ctx) (c : Cmd) (s : State) (p : Option Nat) : Calc (List Byte) :=
  match p with
  | some i => movedElem (vA x c) s i
  | none => if (vD x c).fmt = fmtS16 then do return s16Le (← f32ToS16 .ne c.vImmF)
    else do return f32Le (← extToF32 (f32Val c.vImmF))

omit hn in
theorem steady_permRow (p : Option Nat) : (permRow x c s p).Steady := by
  cases p <;> simp [permRow]

theorem vPerm_writes (hfmt : (vA x c).fmt = (vD x c).fmt) (hd : (vA x c).fmt = fmtS16 ∨ (vA x c).fmt = fmtF32) :
    (vPerm x c s n).val.writes.map (·.2) = [⟨cell (vD x c).space (vD x c).base,
      (List.range n).flatMap fun p => (permRow x c s (permSource s (vB x c) n p)).val⟩] := by
  have hsame : (vA x c).fmt = (vD x c).fmt ∧ ((vA x c).fmt = fmtS16 ∨ (vA x c).fmt = fmtF32) := ⟨hfmt, hd⟩
  have hrows (picks : List (Option Nat)) : (picks.mapM (permRow x c s)).Steady := steady_mapM (steady_permRow s) picks
  simp only [vPerm, if_pos hsame]
  change (_ >>= fun as => _ >>= fun _ => List.mapM (permRow x c s) _ >>= fun rows => pure _ : Calc VOut).val.writes.map _ = _
  rw [val_bind _ fun _ => (steady_forM (fun _ => by simp) _).bind fun _ => (hrows _).bind fun _ => steady_pure _,
    val_bind _ fun _ => (hrows _).bind fun _ => steady_pure _, val_bind _ fun _ => steady_pure _,
    val_mapM (steady_permRow s)]
  simp [hn.ne', List.flatMap_def, Function.comp_def]

theorem vPerm_writes_s16 (ha : (vA x c).fmt = fmtS16) (hd : (vD x c).fmt = fmtS16) : (vPerm x c s n).val.writes.map (·.2) =
    [⟨cell (vD x c).space (vD x c).base, (List.range n).flatMap fun p => match permSource s (vB x c) n p with
      | some i => (movedElem (vA x c) s i).val
      | none => s16Le ((f32ToS16 .ne c.vImmF).val)⟩] := by
  have hrow (p : Option Nat) : (permRow x c s p).val = match p with
      | some i => (movedElem (vA x c) s i).val
      | none => s16Le ((f32ToS16 .ne c.vImmF).val) := by
    cases p <;> simp [permRow, hd]
  rw [vPerm_writes s hn (ha.trans hd.symm) (.inl ha)]
  simp only [hrow]

theorem vPerm_writes_f32 (ha : (vA x c).fmt = fmtF32) (hd : (vD x c).fmt = fmtF32) : (vPerm x c s n).val.writes.map (·.2) =
    [⟨cell (vD x c).space (vD x c).base, (List.range n).flatMap fun p => match permSource s (vB x c) n p with
      | some i => (movedElem (vA x c) s i).val
      | none => f32Le (extToF32 (f32Val c.vImmF)).val⟩] := by
  have hrow (p : Option Nat) : (permRow x c s p).val = match p with
      | some i => (movedElem (vA x c) s i).val
      | none => f32Le (extToF32 (f32Val c.vImmF)).val := by
    cases p <;> simp [permRow, hd, fmtF32, fmtS16]
  rw [vPerm_writes s hn (ha.trans hd.symm) (.inr ha)]
  simp only [hrow]

end Operation

/-! ### QUANT, LEVEL_SCALE and DRIFT (R160 to R162) -/

@[simp] theorem steady_quantSegment (preset : Option (S16 × Nat)) (slots : List Nat) (xs : List F32) :
    (quantSegment preset slots xs).Steady := by
  have hout (ys : List F32) (r : Option Nat) : (match r with
      | some i => if i < ys.length then f32ToS16 .ne (ys.getD i 0) else pure 0#16
      | none => pure 0#16 : Calc S16).Steady := by
    cases r <;> simp
  unfold quantSegment
  refine (steady_noteNonfinite _).bind fun _ => (steady_mapM (fun _ => by simp) _).bind fun _ => ?_
  exact (steady_mapM (fun r => hout xs r) _).bind fun _ => steady_pure _

/-- What QUANT makes of the segments of A: the scale and zero point of each, its codes and its outlier values (R160). -/
def quantSegments (x : Ctx) (c : Cmd) (s : State) (n : Nat) : List ((S16 × Nat) × List Byte × List S16) :=
  (blocksOf 512 n ((vA x c).vals s n)).zipIdx.map fun sk => (quantSegment
    (if c.vMod % 2 = 1 then some (BitVec.ofNat 16 (bits c.vImm 16 16), c.vImm % 256) else none)
    (readSlots s (vB x c).space ((vB x c).base + 16 * sk.2)) sk.1).val

@[simp] theorem steady_levelWeight (code : Byte) (sc : Ext) : (levelWeight code sc).Steady := by
  unfold levelWeight
  split
  · simp
  · split <;> simp

@[simp] theorem steady_driftColumn (sc : Ext) (rows : List (S16 × Byte)) : (driftColumn sc rows).Steady := by
  have hstep (sf acc : F32) (r : S16 × Byte) : (do
      let v ← fsub (← fdiv (s16ToF32 r.1) sf) (intToF32 r.2.toInt)
      return (fmax acc ((fabs v).val)).val : Calc F32).Steady :=
    (steady_fdiv _ _).bind fun _ => (steady_fsub _ _).bind fun _ => steady_pure _
  have hmax (sf : F32) : (rows.foldlM (fun acc r => do
      let v ← fsub (← fdiv (s16ToF32 r.1) sf) (intToF32 r.2.toInt)
      return (fmax acc ((fabs v).val)).val) (0 : F32) : Calc F32).Steady := steady_foldlM (hstep sf) rows 0
  unfold driftColumn
  refine Calc.Steady.ite (steady_pure _) ((steady_extToF32 sc).bind fun sf => Calc.Steady.ite (steady_pure _) ?_)
  exact (hmax sf).bind fun _ => steady_pure _

/-- D_j and m_j of column `j`, or canonical NaNs with non-finite status (R162). -/
def driftLane (x : Ctx) (c : Cmd) (s : State) (n j : Nat) : Calc (F32 × F32) := do
  let r ← driftColumn (columnScale s c (vC x c) j) ((List.range (min (512 - min c.vImm 512) (n - 512 * j))).map fun i =>
    (readS16 s (vA x c).space ((vA x c).base + 2 * (512 * j + i)), readLevel s (vB x c).space ((vB x c).base + 512 * j + i)))
  match r with
  | some v => return v
  | none => do noteNonfinite true; return (f32Nan, f32Nan)

section DriftLane

variable (x : Ctx) (c : Cmd) (s : State) (n j : Nat)

theorem steady_driftWords (r : Option (F32 × F32)) : (match r with
    | some v => return v
    | none => do noteNonfinite true; return (f32Nan, f32Nan) : Calc (F32 × F32)).Steady := by
  cases r <;> simp

theorem steady_driftLane : (driftLane x c s n j).Steady := (steady_driftColumn _ _).bind steady_driftWords

/-- The masters and level codes of a column's live rows (R90, R162). -/
def driftRows (x : Ctx) (c : Cmd) (s : State) (n j : Nat) : List (S16 × Byte) :=
  (List.range (min (512 - min c.vImm 512) (n - 512 * j))).map fun i =>
    (readS16 s (vA x c).space ((vA x c).base + 2 * (512 * j + i)), readLevel s (vB x c).space ((vB x c).base + 512 * j + i))

theorem driftLane_bytes : f32Le (driftLane x c s n j).val.1 ++ f32Le (driftLane x c s n j).val.2 =
    match (driftColumn (columnScale s c (vC x c) j) (driftRows x c s n j)).val with
    | some v => f32Le v.1 ++ f32Le v.2
    | none => f32Le f32Nan ++ f32Le f32Nan := by
  rw [driftLane, val_bind _ steady_driftWords, ← driftRows]
  cases (driftColumn (columnScale s c (vC x c) j) (driftRows x c s n j)).val <;> rfl

end DriftLane

section Segments

variable {x : Ctx} {c : Cmd} (s : State) {n : Nat} (hn : 0 < n)

include hn

theorem vQuant_writes : (vQuant x c s n).val.writes.map (·.2) =
    [⟨cell (vD x c).space (vD x c).base, (quantSegments x c s n).flatMap fun r => r.2.1⟩,
      ⟨cell (vD x c).space (vD x c).aux, (quantSegments x c s n).flatMap fun r => paramBytes r.1⟩,
      ⟨cell (vC x c).space (vC x c).base, (quantSegments x c s n).flatMap fun r => r.2.2.flatMap s16Le⟩] := by
  have hseg (preset : Option (S16 × Nat)) (slots : Nat → List Nat) (ss : List (List F32 × Nat)) :
      (ss.mapM fun xk => quantSegment preset (slots xk.2) xk.1).Steady := steady_mapM (fun _ => steady_quantSegment _ _ _) ss
  simp only [vQuant, pure_bind]
  rw [val_bind _ fun _ => (hseg _ (fun k => readSlots s (vB x c).space ((vB x c).base + 16 * k)) _).bind fun _ => steady_pure _,
    val_bind _ fun _ => steady_pure _]
  simp [hn.ne', elems_val, quantSegments]

theorem vLevelScale_writes : (vLevelScale x c s n).val.writes.map (·.2) =
    [⟨cell (vD x c).space (vD x c).base, (List.range n).flatMap fun p =>
      s16Le (levelWeight (readLevel s (vA x c).space ((vA x c).base + p)) (columnScale s c (vC x c) (p / 512))).val⟩] := by
  simp [vLevelScale, hn.ne', List.flatMap_map]

theorem vDrift_writes : (vDrift x c s n).val.writes.map (·.2) =
    [⟨cell (vD x c).space (vD x c).base, (List.range (ceilDiv n 512)).flatMap fun j =>
      match (driftColumn (columnScale s c (vC x c) j) (driftRows x c s n j)).val with
      | some v => f32Le v.1 ++ f32Le v.2
      | none => f32Le f32Nan ++ f32Le f32Nan⟩] := by
  simp only [vDrift]
  change ((List.range (ceilDiv n 512)).mapM (driftLane x c s n) >>= fun rs => pure _ : Calc VOut).val.writes.map _ = _
  rw [val_bind _ fun _ => steady_pure _, val_mapM (steady_driftLane x c s n)]
  simp [hn.ne', List.flatMap_map, driftLane_bytes]

end Segments

/-! ### HIST_THRESH and COMPACT (R167) -/

theorem vHistThresh_writes (x : Ctx) (c : Cmd) (s : State) : (vHistThresh x c s).val.writes.map (·.2) =
    [⟨cell (vD x c).space (vD x c).base, quad (threshold x.histBase c.vImm (readHist s (vA x c).space (vA x c).base)).1.toNat
      (threshold x.histBase c.vImm (readHist s (vA x c).space (vA x c).base)).2 0 0⟩] := rfl

/-- The elements of A at or above the threshold that the histogram in B gives, with their places (R167). -/
def compactSel (x : Ctx) (c : Cmd) (s : State) (n : Nat) : List (F32 × Nat) :=
  ((vA x c).vals s n).zipIdx.filter fun xi => f32Finite xi.1 &&
    decide (0 ≤ fcompare ((fabs xi.1).val) (threshold x.histBase c.vImm (readHist s (vB x c).space (vB x c).base)).1)

theorem vCompact_writes (x : Ctx) (c : Cmd) (s : State) (n : Nat) (hd : (vD x c).fmt = fmtF32) :
    (vCompact x c s n).val.writes.map (·.2) =
      ⟨cell (dieSpace x.die) (x.addr x.red2 0),
        quad (threshold x.histBase c.vImm (readHist s (vB x c).space (vB x c).base)).1.toNat
        (threshold x.histBase c.vImm (readHist s (vB x c).space (vB x c).base)).2 (compactSel x c s n).length 0⟩ ::
      (if (compactSel x c s n).length = 0 then [] else
        [⟨cell (vD x c).space (vD x c).base, (compactSel x c s n).flatMap fun xi => f32Le (extToF32 (f32Val xi.1)).val⟩,
          ⟨cell (vC x c).space (vC x c).base, (compactSel x c s n).flatMap fun xi => natLe 4 (x.elemBase c + xi.2)⟩]) := by
  rw [vCompact, val_bind _ fun _ => (steady_write _ _ _ _ _).bind fun _ => steady_pure _, elems_val,
    val_bind _ fun _ => steady_pure _, val_pure]
  dsimp only
  rw [write_val_f32 hd]
  rw [← compactSel]
  by_cases hnone : (compactSel x c s n).length = 0 <;> simp [hnone, labelled, List.flatMap_map]

/-! ### Every operation of the statement -/

/-- Settles O16: the lane-by-lane operations are `lane1` or `lane2` of the function that the statement names, and each of the
others writes what its own lemma says; a NaN operand makes each of the four operations the one that gives NaN. -/
theorem vectorArithmetic : Obligations.VectorArithmetic := by
  unfold Obligations.VectorArithmetic
  refine ⟨fun op f hmem x c s n hred hhist hlen hn => ?_, fun x c s n hred hhist hlen hn => ?_,
    fun f hf a b fl hnan => arithmetic_nan hnan f hf fl⟩
  · have hlane : Lanewise op f := by
      simp only [List.mem_cons, Prod.mk.injEq, List.not_mem_nil, or_false] at hmem
      rcases hmem with ⟨rfl, rfl⟩ | ⟨rfl, rfl⟩ | ⟨rfl, rfl⟩ | ⟨rfl, rfl⟩ | ⟨rfl, rfl⟩ | ⟨rfl, rfl⟩ | ⟨rfl, rfl⟩ | ⟨rfl, rfl⟩ |
        ⟨rfl, rfl⟩ | ⟨rfl, rfl⟩ | ⟨rfl, rfl⟩ | ⟨rfl, rfl⟩ | ⟨rfl, rfl⟩ | ⟨rfl, rfl⟩ | ⟨rfl, rfl⟩ | ⟨rfl, rfl⟩ | ⟨rfl, rfl⟩ |
        ⟨rfl, rfl⟩ | ⟨rfl, rfl⟩ | ⟨rfl, rfl⟩
      · exact lanewise_of_lane1 (by decide) (fun _ _ => steady_pure _) rfl
      · exact lanewise_of_lane2 (by decide) (fun _ => steady_fadd) rfl
      · exact lanewise_of_lane2 (by decide) (fun _ => steady_fsub) rfl
      · exact lanewise_of_lane2 (by decide) (fun _ => steady_fmul) rfl
      · exact lanewise_of_lane2 (by decide) (fun _ _ _ => (steady_fmul _ _).bind fun _ => steady_fadd _ _) rfl
      · exact lanewise_of_lane1 (by decide) (fun _ _ => steady_fadd _ _) rfl
      · exact lanewise_of_lane1 (by decide) (fun _ _ => steady_fmul _ _) rfl
      · exact lanewise_of_lane2 (by decide) (fun _ => steady_fdiv) rfl
      · exact lanewise_of_lane1 (by decide) (fun _ => steady_frecip) rfl
      · exact lanewise_of_lane1 (by decide) (fun _ => steady_fsqrt) rfl
      · exact lanewise_of_lane1 (by decide) (fun _ => steady_frsqrt) rfl
      · exact lanewise_of_lane2 (by decide) (fun _ => steady_fmax) rfl
      · exact lanewise_of_lane2 (by decide) (fun _ => steady_fmin) rfl
      · exact lanewise_of_lane1 (by decide) (fun _ _ => steady_fmin _ _) rfl
      · exact lanewise_of_lane1 (by decide) (fun _ => steady_fabs) rfl
      · exact lanewise_of_lane1 (by decide) (fun _ _ => steady_extToF32 _) rfl
      · exact lanewise_of_lane1 (by decide) (fun _ _ => steady_fmax _ _) rfl
      · exact lanewise_of_lane1 (by decide) (fun _ => steady_exp32) rfl
      · exact lanewise_of_lane2 (by decide) (fun _ _ _ => steady_pure _) rfl
      · exact lanewise_of_lane1 (by decide) (fun _ _ => steady_pure _) rfl
    have hlength : (laneVals f x c s n).length = n := by simp [laneVals]
    have hwrites := hlane.writes s hred hhist hlen hn
    simp only [Stream.blocks, hlength] at hwrites
    exact hwrites
  · have hws {op : Nat} (hop : op ≠ 0x1A) := vectorWork_writes (s := s) hred hhist hlen hop
    refine ⟨fun hd => (hws (by decide)).trans (vSelect_writes s hn hd),
      fun ha hd => (hws (by decide)).trans (vPerm_writes_s16 s hn ha hd),
      fun ha hd => (hws (by decide)).trans (vPerm_writes_f32 s hn ha hd),
      (hws (by decide)).trans (vQuant_writes s hn), (hws (by decide)).trans (vLevelScale_writes s hn),
      (hws (by decide)).trans (vDrift_writes s hn), (vecOp_run hred hhist 0x1A _ x s).1.trans (vHistThresh_writes x c s),
      fun hd => (hws (by decide)).trans (vCompact_writes x c s n hd)⟩

end Sys2Proof.Machine

namespace Sys2Proof.Machine

open Sys2Proof

/-! ### A copy that counts on an address register -/

/-- A copy of nothing within scratchpad 0 of digital die 0. -/
def emptyCopy : CopyJob :=
  { srcSpace := 1, src := 0, srcPitch := 0, dstSpace := 1, dst := 0, dstPitch := 0, rowBytes := 0, rows := 0, lat := 16, issued := 0 }

/-- The tracker entry of that copy, with the counts `cs` to add when it ends (R184). -/
def copyEntry (tag : Nat) (land : Option Nat) (cs : List Count) : PendingOp :=
  { die := 0, tag := tag, gen := 0, land := land, landed := false, token := 0, produce := none, notify := false, writes := []
    larder := [], tags := [], counts := cs, copy := some emptyCopy }

/-- One count on address register 0 of sequencer 0. -/
def registerCount : Count := ⟨F.sq_ADDR_VAL, unitOf F.sq_ADDR_VAL.page 0, 0, 1⟩

/-- Two copies of one scratchpad on a part whose clocks run: the first counts on an address register as it ends, the second
waits for it. -/
def countingCopies : State :=
  { State.blank .t64b .clocked with tracker := [copyEntry 4 (some 6) [registerCount], copyEntry 8 none []] }

/-- Refutes O18: its last clause puts no condition on the counts of the copy that ends. They are added as it lands, to whatever
field they name, and a count on an address register changes a register that the clause says stays. -/
theorem not_arrayAndCopyCommands : ¬ Obligations.ArrayAndCopyCommands := by
  unfold Obligations.ArrayAndCopyCommands
  rintro ⟨-, -, hends⟩
  obtain ⟨t, ht, -, -, -, -, -, -, hkept⟩ := hends countingCopies (copyEntry 4 (some 6) [registerCount]) (copyEntry 8 none [])
    emptyCopy emptyCopy 6 rfl (by decide) rfl rfl (by decide) rfl rfl rfl rfl rfl rfl rfl rfl rfl rfl rfl
  have hstays : regOf t ⟨0, 0⟩ 0 = regOf countingCopies ⟨0, 0⟩ 0 := hkept.regs _ _
  obtain rfl : _ = t := Host.Outcome.next.inj ht
  exact absurd hstays (by decide +kernel)

end Sys2Proof.Machine

namespace Sys2Proof.Machine

open Sys2Proof

/-! ### A column accepted for bypass more than once -/

/-- A column write of column 0 that runs and has taken the sixteen slots its batches need, with every target reached. -/
def doneWrite : ColWrite :=
  { col := 0, source := 1, scale := 0, exempt := true, fromZero := false, running := true
    slots := List.replicate writeBatches 0, levels := some [], limited := false }

/-- An array under that write whose evictions still to take effect list column 0 twenty-five times. -/
def crowdedArray : ArrX := { write := some doneWrite, evicting := List.replicate 25 0 }

/-- Spare 0 of array die 0 is that array, and its column 0 is in bypass. -/
def crowdedSpare : State := wrA F.ag_IN_BYPASS 0 1024 0 1 (setArrX 0 1024 crowdedArray (State.blank .t64b .clocked))

theorem arrX_crowdedSpare (die p : Nat) : arrX crowdedSpare die p = crowdedArray ∨ arrX crowdedSpare die p = {} := by
  have harr : arrX crowdedSpare die p = if arrKey die p = arrKey 0 1024 then crowdedArray else {} :=
    arrX_setArrX_ite 0 1024 die p crowdedArray (State.blank .t64b .clocked)
  rw [harr]
  exact ite_eq_or_eq _ _ _

theorem crowdedSpare_columns (die p : Nat) : (∀ j ∈ (arrX crowdedSpare die p).evicting, j < 512) ∧
    ∀ w, (arrX crowdedSpare die p).write = some w → w.col < 512 := by
  obtain h | h := arrX_crowdedSpare die p
  · rw [h]
    exact ⟨by decide, by rintro _ ⟨⟩; decide⟩
  · rw [h]
    exact ⟨by decide, by rintro _ ⟨⟩⟩

/-- While column 0 is in bypass its evictions count for nothing. -/
theorem limitCount_crowdedSpare : limitCount crowdedSpare 0 1024 = 1 := by decide +kernel

/-- The state once the write of column 0 is done. -/
def crowdedSpareDone : State :=
  match exec (.columnWriteDone 0 1024 [] [] 7) crowdedSpare with
  | .next t => t
  | _ => crowdedSpare

theorem exec_crowdedSpare : exec (.columnWriteDone 0 1024 [] [] 7) crowdedSpare = .next crowdedSpareDone := rfl

/-- The write takes column 0 out of bypass, and each of its evictions counts. -/
theorem limitCount_crowdedSpareDone : limitCount crowdedSpareDone 0 1024 = 25 := by decide +kernel

theorem limitCount_crowdedSpare_le : limitCount crowdedSpare 0 1024 ≤ bypassLimit crowdedSpare 0 1024 := by
  rw [limitCount_crowdedSpare]
  decide +kernel

theorem bypassLimit_lt_limitCount_crowdedSpareDone :
    bypassLimit crowdedSpareDone 0 1024 < limitCount crowdedSpareDone 0 1024 := by
  rw [limitCount_crowdedSpareDone]
  exact Nat.lt_succ_of_le (Nat.min_le_left _ _)

/-- Refutes O7: its clause on column commands admits an array whose evictions still to take effect name one column more than
once. A column in bypass counts once, whatever its evictions; a successful write of it on an idle array takes it out of bypass
and leaves those evictions, and from then on each of them counts. EVICT itself never lists a column twice. -/
theorem not_boundsKept : ¬ Obligations.BoundsKept := by
  unfold Obligations.BoundsKept
  rintro ⟨-, -, hcolumns⟩
  have hkept := hcolumns 0 0 1024 0 0 0 7 false [] [] (.columnWriteDone 0 1024 [] [] 7) (by simp)
    (by decide) (by decide) (by decide) (by decide) crowdedSpare crowdedSpareDone (by decide) (by decide) (by decide)
    crowdedSpare_columns exec_crowdedSpare 0 (by decide) 1024 (by decide) limitCount_crowdedSpare_le
  exact absurd hkept (Nat.not_le.2 bypassLimit_lt_limitCount_crowdedSpareDone)

end Sys2Proof.Machine

namespace Sys2Proof.Machine

open Sys2Proof

/-! ### What an access to a page and a saturating count leave alone -/

theorem pageAccess_fields (u : Nat) (s : State) : FieldsKept [] s (pageAccess u s) := fun n _ => (pageAccess_kept_of u s).2 n

/-- A write that reaches its page or not, and does nothing there. -/
theorem access_idle (c : Bool) (u : Nat) (s : State) : (if c then pageAccess u s else s).commit = s.commit ∧
    MemKept s (if c then pageAccess u s else s) ∧ FieldsKept [] s (if c then pageAccess u s else s) := by
  cases c
  · exact ⟨rfl, MemKept.refl s, fun n _ => FieldKept.refl n s⟩
  · exact ⟨rfl, (pageAccess_kept_of u s).1, pageAccess_fields u s⟩

/-- What follows an access to a page writes only the fields numbered `ns`. -/
theorem fieldsKept_of_access {except : List Field} {u : Nat} {s t : State} (ns : List Nat)
    (hsub : ns.all (fun n => (except.map (·.fid)).contains n) = true)
    (h : ∀ n, ns.contains n = false → FieldKept n (pageAccess u s) t) : FieldsKept except s t :=
  fieldsKept_of_numbers ns hsub fun n hn => ((pageAccess_kept_of u s).2 n).trans (h n hn)

theorem rd_sat_other {f g : Field} (inst i k inst' i' : Nat) (s : State) (h : [f.fid, 9, 10, 11].contains g.fid = false)
    (hg : g.fid ≠ F.ag_PROG_COUNT.fid) : rd (sat f inst i k s) g inst' i' = rd s g inst' i' := by
  have hne : f.fid ≠ g.fid := by
    rintro he
    simp [he] at h
  exact rd_of_fieldKept (sat_fld f inst i k s hne (sub_ne [9, 10, 11] [f.fid, 9, 10, 11] (by simp) h) (FieldKept.refl _ s))
    (sat_same_variant f inst i k s) hg inst' i'

/-! ### The claim of the staging area (R358) -/

theorem exec_claim {a : Agent} {s : State} (h : agentReaches s a commitUnit = true) :
    exec (.claim a) s = .next (claim a (pageAccess commitUnit s)) := by
  rw [exec, execClaim, if_pos h]

theorem exec_release {a : Agent} {s : State} (h : agentReaches s a commitUnit = true) :
    exec (.release a) s = .next (releaseClaim a (pageAccess commitUnit s)) := by
  rw [exec, execRelease, if_pos h]

theorem claim_held {a : Agent} {s : State} (h : rd s F.cm_OWNER 0 0 ≠ 0) : claim a s = s := if_neg h

theorem releaseClaim_other {a : Agent} {s : State} (h : rd s F.cm_OWNER 0 0 ≠ agentCode a) : releaseClaim a s = s := if_neg h

theorem claim_taken {a : Agent} {s : State} (h : rd s F.cm_OWNER 0 0 = 0) :
    rd (claim a s) F.cm_OWNER 0 0 = agentCode a ∧ (claim a s).commit.claimNs = nowNs s ∧ (claim a s).stg = s.stg := by
  have heq : claim a s = { wr F.cm_OWNER 0 0 (agentCode a) s with
      commit := { s.commit with claimNs := nowNs s } } := if_pos h
  rw [heq]
  refine ⟨(rd_wr_self F.cm_OWNER 0 0 (agentCode a) s).trans ?_, rfl, rfl⟩
  cases a <;> rfl

theorem releaseClaim_holder {a : Agent} {s : State} (h : rd s F.cm_OWNER 0 0 = agentCode a) :
    releaseClaim a s = wr F.cm_OWNER 0 0 0 s := if_pos h

theorem claim_completes {a : Agent} {s : State} (hreach : agentReaches s a commitUnit = true) (h : rd s F.cm_OWNER 0 0 = 0) :
    Completes (.claim a) s fun t => rd t F.cm_OWNER 0 0 = agentCode a ∧ t.commit.claimNs = nowNs s ∧ t.stg = s.stg ∧
      MemKept s t ∧ FieldsKept [F.cm_OWNER] s t := by
  obtain ⟨howner, hns, hstg⟩ := claim_taken (a := a) (s := pageAccess commitUnit s) h
  exact ⟨_, exec_claim hreach, howner, hns, hstg, claim_mem a _ (pageAccess_kept_of _ s).1,
    fieldsKept_of_access [596] (by decide) fun n hn => claim_fld a _ hn (FieldKept.refl n _)⟩

theorem release_completes {a : Agent} {s : State} (hreach : agentReaches s a commitUnit = true)
    (h : rd s F.cm_OWNER 0 0 = agentCode a) : Completes (.release a) s fun t =>
      rd t F.cm_OWNER 0 0 = 0 ∧ t.stg = s.stg ∧ t.commit = s.commit ∧ MemKept s t ∧ FieldsKept [F.cm_OWNER] s t := by
  have heq := releaseClaim_holder (a := a) (s := pageAccess commitUnit s) h
  refine ⟨_, exec_release hreach, ?_, ?_, ?_, releaseClaim_mem a _ (pageAccess_kept_of _ s).1,
    fieldsKept_of_access [596] (by decide) fun n hn => releaseClaim_fld a _ hn (FieldKept.refl n _)⟩
  · rw [heq, rd_wr_self, Nat.zero_mod]
  · rw [heq]
    rfl
  · rw [heq]
    rfl

/-- A claim while one is held does nothing. -/
theorem claim_ignored {a : Agent} {s : State} (h : rd s F.cm_OWNER 0 0 ≠ 0) :
    Completes (.claim a) s fun t => t.commit = s.commit ∧ MemKept s t ∧ FieldsKept [] s t := by
  have hheld : claim a (pageAccess commitUnit s) = pageAccess commitUnit s := claim_held h
  refine ⟨_, ?_, access_idle (agentReaches s a commitUnit) commitUnit s⟩
  rw [exec, execClaim, hheld]

/-- A release by another than the holder does nothing. -/
theorem release_ignored {a : Agent} {s : State} (h : rd s F.cm_OWNER 0 0 ≠ agentCode a) :
    Completes (.release a) s fun t => t.commit = s.commit ∧ MemKept s t ∧ FieldsKept [] s t := by
  have hother : releaseClaim a (pageAccess commitUnit s) = pageAccess commitUnit s := releaseClaim_other h
  refine ⟨_, ?_, access_idle (agentReaches s a commitUnit) commitUnit s⟩
  rw [exec, execRelease, hother]

theorem claimExpired_completes {s : State} (hheld : rd s F.cm_OWNER 0 0 ≠ 0)
    (hidle : rd s F.cm_STATE 0 0 = 1 → rd s F.cm_OWNER 0 0 ≠ goHolder s) : Completes .claimExpired s fun t =>
      rd t F.cm_OWNER 0 0 = 0 ∧ s.core ≤ t.core ∧ t.stg = s.stg ∧
      rd t F.cm_CLAIM_EXPIRED 0 0 = min (rd s F.cm_CLAIM_EXPIRED 0 0 + 1) (fieldMax F.cm_CLAIM_EXPIRED) ∧
      MemKept s t ∧ FieldsKept [F.cm_OWNER, F.cm_CLAIM_EXPIRED, F.com_SAT_LO, F.com_SAT_HI, F.com_SAT_TBL] s t := by
  have hidle' : claimIdle s = true := by
    simp only [claimIdle, holderChecks, Bool.and_eq_true, Bool.not_eq_true', Bool.and_eq_false_iff, bne_iff_ne, beq_eq_false_iff_ne]
    exact ⟨hheld, imp_iff_not_or.1 hidle⟩
  refine ⟨expireClaim s, ?_, ?_, ?_, ?_, ?_, expireClaim_mem s (MemKept.refl s),
    fieldsKept_of_numbers [9, 10, 11, 596, 610] (by decide) fun n hn => expireClaim_fld s hn (FieldKept.refl n s)⟩
  · rw [exec, execClaimExpired, if_pos hidle']
  · rw [expireClaim, rd_sat_other _ _ _ _ _ _ (by decide) (by decide), rd_wr_self, Nat.zero_mod]
  · rw [expireClaim, sat_same_core, wr_same_core]
    exact Nat.le_max_right _ _
  · rw [expireClaim, sat_same_stg]
    rfl
  · rw [expireClaim, rd_sat _ _ _ _ _ (by decide), rd_wr_other _ _ _ _ _ _ _ _ (by decide)]
    rfl

/-- While a GO of the holder is checked its claim does not expire. -/
theorem exec_claimExpired_checked {s : State} (hstate : rd s F.cm_STATE 0 0 = 1) (hown : rd s F.cm_OWNER 0 0 = goHolder s) :
    exec .claimExpired s = .next s := by
  have hchecks : holderChecks s = true := by simp [holderChecks, hstate, hown]
  have hbusy : ¬claimIdle s = true := by simp [claimIdle, hchecks]
  rw [exec, execClaimExpired, if_neg hbusy]

/-! ### GO (R359, R360) -/

theorem exec_go {a : Agent} {w : Nat} {s : State} (hw : w < 4) (h : agentReaches s a commitUnit = true) :
    exec (.go a w) s = .next (commitGo a w (pageAccess commitUnit s)) := by
  rw [exec, execGo, if_pos h, Nat.mod_eq_of_lt hw]

section Go

variable {a : Agent} {w : Nat} {s : State}

theorem commitGo_busy (h : rd s F.cm_STATE 0 0 = 1 ∨ rd s F.cm_STATE 0 0 = 2) :
    commitGo a w s = sat F.cm_COMMITS_BUSY 0 0 1 (wr F.cm_RESULT 0 0 2 s) := if_pos h

variable (hfree : ¬(rd s F.cm_STATE 0 0 = 1 ∨ rd s F.cm_STATE 0 0 = 2))

include hfree

theorem commitGo_claimed (h : claimOther s a = true) :
    commitGo a w s = sat F.cm_COMMITS_BUSY 0 0 1 (wr F.cm_RESULT 0 0 3 s) := by
  rw [commitGo, if_neg hfree, if_pos h]

variable (hclaim : claimOther s a = false)

include hclaim

theorem commitGo_reserved : commitGo a 3 s = sat F.cm_COMMITS_BUSY 0 0 1 (setCommit 4 6 s) := by
  rw [commitGo, if_neg hfree, hclaim, if_neg Bool.false_ne_true, if_pos rfl]

/-- The snapshot: what the commit includes counts as taken in. -/
def goTaken (a : Agent) (w : Nat) (s : State) : State :=
  { setCommit 1 (rd s F.cm_RESULT 0 0) s with
    tblWritten := s.tblWritten.filter fun k => !((included s).any fun kv => kv.1 == k)
    commit := { s.commit with
      snapshot := included s, when' := w, byFirmware := a == .firmware
      rewritten := s.commit.rewritten.filter fun k => !((included s).any fun kv => kv.1 == k) } }

theorem commitGo_taken (hw : w ≠ 3) : commitGo a w s = goTaken a w s := by
  rw [commitGo, if_neg hfree, hclaim, if_neg Bool.false_ne_true, if_neg hw]
  rfl

end Go

theorem rd_setCommit_state (st res : Nat) (s : State) : rd (setCommit st res s) F.cm_STATE 0 0 = st % 2 ^ F.cm_STATE.width :=
  rd_wr_self _ _ _ _ _

theorem rd_setCommit_result (st res : Nat) (s : State) :
    rd (setCommit st res s) F.cm_RESULT 0 0 = res % 2 ^ F.cm_RESULT.width := by
  rw [setCommit, rd_wr_other _ _ _ _ _ _ _ _ (by decide), rd_wr_self]

/-- A refused GO is counted over RESULT, and STATE where that shows it, and leaves the commit in hand. -/
theorem go_refused {a : Agent} {w result state : Nat} {s r : State} (hw : w < 4) (hreach : agentReaches s a commitUnit = true)
    (heq : commitGo a w (pageAccess commitUnit s) = sat F.cm_COMMITS_BUSY 0 0 1 r) (hbare : bare r = bare (pageAccess commitUnit s))
    (hresult : rd r F.cm_RESULT 0 0 = result) (hstate : rd r F.cm_STATE 0 0 = state)
    (hbusy : rd r F.cm_COMMITS_BUSY 0 0 = rd s F.cm_COMMITS_BUSY 0 0) : Completes (.go a w) s fun t =>
      rd t F.cm_RESULT 0 0 = result ∧ rd t F.cm_STATE 0 0 = state ∧ t.commit = s.commit ∧ t.stg = s.stg ∧
      rd t F.cm_COMMITS_BUSY 0 0 = min (rd s F.cm_COMMITS_BUSY 0 0 + 1) (fieldMax F.cm_COMMITS_BUSY) ∧ MemKept s t ∧
      FieldsKept [F.cm_STATE, F.cm_RESULT, F.cm_COMMITS_BUSY, F.com_SAT_LO, F.com_SAT_HI, F.com_SAT_TBL] s t := by
  have hmem := commitGo_mem a w (pageAccess commitUnit s) (pageAccess_kept_of _ s).1
  have hfld (n : Nat) (hn : [9, 10, 11, 591, 592, 608].contains n = false) :=
    commitGo_fld a w (pageAccess commitUnit s) hn (FieldKept.refl n _)
  rw [heq] at hmem hfld
  refine ⟨_, (exec_go hw hreach).trans (by rw [heq]), ?_, ?_, ?_, ?_, ?_, hmem,
    fieldsKept_of_access [9, 10, 11, 591, 592, 608] (by decide) hfld⟩
  · rw [rd_sat_other _ _ _ _ _ _ (by decide) (by decide), hresult]
  · rw [rd_sat_other _ _ _ _ _ _ (by decide) (by decide), hstate]
  · rw [sat_same_commit]
    exact (congrArg State.commit hbare :)
  · rw [sat_same_stg]
    exact (congrArg State.stg hbare :)
  · rw [rd_sat _ _ _ _ _ (by decide), hbusy]

theorem go_taken {a : Agent} {w : Nat} {s : State} (hw : w < 4) (hreach : agentReaches s a commitUnit = true)
    (hfree : ¬(rd s F.cm_STATE 0 0 = 1 ∨ rd s F.cm_STATE 0 0 = 2)) (hclaim : claimOther s a = false) (hw3 : w ≠ 3) :
    Completes (.go a w) s fun t =>
      rd t F.cm_STATE 0 0 = 1 ∧ t.commit.snapshot = included s ∧ t.commit.when' = w ∧ t.commit.byFirmware = (a == .firmware) ∧
      rd t F.cm_RESULT 0 0 = rd s F.cm_RESULT 0 0 % 2 ^ F.cm_RESULT.width ∧ t.commit.stepSet = s.commit.stepSet ∧
      t.stg = s.stg ∧ MemKept s t ∧ FieldsKept [F.cm_STATE, F.cm_RESULT] s t := by
  have heq : commitGo a w (pageAccess commitUnit s) = goTaken a w (pageAccess commitUnit s) := commitGo_taken hfree hclaim hw3
  have hmem := commitGo_mem a w (pageAccess commitUnit s) (pageAccess_kept_of _ s).1
  rw [heq] at hmem
  exact ⟨goTaken a w (pageAccess commitUnit s), (exec_go hw hreach).trans (by rw [heq]), rd_setCommit_state 1 _ s, rfl, rfl, rfl,
    rd_setCommit_result 1 _ s, rfl, rfl, hmem, fieldsKept_of_access [591, 592] (by decide) fun n hn =>
      (setCommit_fld _ _ _ hn (FieldKept.refl n _)).of_eq rfl⟩

/-- GO, in R360's order of refusals. -/
theorem go_completes {a : Agent} {w : Nat} {s : State} (hw : w < 4) (hreach : agentReaches s a commitUnit = true) :
    let st := rd s F.cm_STATE 0 0
    let busy : Prop := st = 1 ∨ st = 2
    let refused (result state : Nat) : Prop := Completes (.go a w) s fun t =>
      rd t F.cm_RESULT 0 0 = result ∧ rd t F.cm_STATE 0 0 = state ∧ t.commit = s.commit ∧ t.stg = s.stg ∧
      rd t F.cm_COMMITS_BUSY 0 0 = min (rd s F.cm_COMMITS_BUSY 0 0 + 1) (fieldMax F.cm_COMMITS_BUSY) ∧ MemKept s t ∧
      FieldsKept [F.cm_STATE, F.cm_RESULT, F.cm_COMMITS_BUSY, F.com_SAT_LO, F.com_SAT_HI, F.com_SAT_TBL] s t
    (busy → refused 2 st) ∧ (¬busy → claimOther s a = true → refused 3 st) ∧
    (¬busy → claimOther s a = false → w = 3 → refused 6 4) := by
  have hother {g : Field} (v : Nat) (hg : g.fid ≠ F.cm_RESULT.fid) :
      rd (wr F.cm_RESULT 0 0 v (pageAccess commitUnit s)) g 0 0 = rd s g 0 0 := rd_wr_other _ _ _ _ _ _ _ _ hg
  refine ⟨fun h => ?_, fun hfree hclaim => ?_, fun hfree hclaim hw3 => ?_⟩
  · exact go_refused hw hreach (commitGo_busy h) rfl (rd_wr_self _ _ _ _ _) (hother 2 (by decide)) (hother 2 (by decide))
  · exact go_refused hw hreach (commitGo_claimed hfree hclaim) rfl (rd_wr_self _ _ _ _ _) (hother 3 (by decide))
      (hother 3 (by decide))
  · subst hw3
    exact go_refused hw hreach (commitGo_reserved hfree hclaim) rfl (rd_setCommit_result _ _ _) (rd_setCommit_state _ _ _)
      (rd_of_fieldKept (setCommit_fld _ _ _ (by decide) (FieldKept.refl _ _)) rfl (by decide) 0 0)

/-! ### DISCARD (R359) -/

/-- The standby sums of the arrays whose staged gains or marks differ from the current ones start anew (R81). -/
def standbyRestarted (s : State) : State :=
  (gainArrays (s.stg.filter fun kv => kv.2 != curOf s kv.1)).foldl (fun s dp => stagedGainWrite dp.1 dp.2 s) s

/-- Nothing is staged or held. -/
def dropStaged (s : State) : State :=
  let t := if s.commit.setPending then wr F.cm_STATE 0 0 0 s else s
  { t with stg := [], tblWritten := [], commit := { t.commit with
      stepSet := [], setPending := false, setAtFrame := false, rewritten := [] } }

theorem standbyRestarted_commit (s : State) : (standbyRestarted s).commit = s.commit :=
  foldl_same State.commit (f := fun s (dp : Nat × Nat) => stagedGainWrite dp.1 dp.2 s) (fun _ _ => rfl) _ _

theorem standbyRestarted_variant (s : State) : (standbyRestarted s).variant = s.variant :=
  foldl_same State.variant (f := fun s (dp : Nat × Nat) => stagedGainWrite dp.1 dp.2 s) (fun _ _ => rfl) _ _

theorem standbyRestarted_fld (s : State) {n : Nat} (hn : [57].contains n = false) : FieldKept n s (standbyRestarted s) :=
  FieldKept.foldl _ (fun _ _ h => stagedGainWrite_fld _ _ _ hn h) (FieldKept.refl n s)

theorem discard_eq (s : State) : discard s = setb F.cm_STEP_SET_HELD 0 0 false (dropStaged (standbyRestarted s)) := rfl

theorem rd_dropStaged_state (s : State) :
    rd (dropStaged s) F.cm_STATE 0 0 = if s.commit.setPending then 0 else rd s F.cm_STATE 0 0 := by
  change rd (if s.commit.setPending then wr F.cm_STATE 0 0 0 s else s) F.cm_STATE 0 0 = _
  split
  · exact rd_wr_self F.cm_STATE 0 0 0 s
  · rfl

theorem dropStaged_snapshot (s : State) : (dropStaged s).commit.snapshot = s.commit.snapshot := by
  change (if s.commit.setPending then wr F.cm_STATE 0 0 0 s else s).commit.snapshot = _
  split <;> rfl

theorem discard_variant (s : State) : (discard s).variant = s.variant := (discard_kept s (Kept.refl s)).variant

theorem rdU_discard {f : Field} (s : State) (u i : Nat)
    (hf : f.fid ∉ [F.cm_STEP_SET_HELD, F.cm_STATE, F.ag_STG_VALID, F.ag_PROG_COUNT].map (·.fid)) :
    rdU (discard s) f u i = rdU s f u i := by
  have hn : [57, 591, 594].contains f.fid = false :=
    sub_ne [57, 591, 594] ([F.cm_STEP_SET_HELD, F.cm_STATE, F.ag_STG_VALID, F.ag_PROG_COUNT].map (·.fid)) (by decide)
      (by simpa [List.contains_eq_mem] using hf)
  exact (discard_fld s hn (FieldKept.refl _ s)).rdU' (discard_variant s) (fun h => hf (by rw [h]; decide)) u i

theorem discard_completes {s : State} (h : livePage s commitUnit = true) : Completes .discard s fun t =>
    t.stg = [] ∧ t.tblWritten = [] ∧ t.commit.stepSet = [] ∧ t.commit.setPending = false ∧
    rdb t F.cm_STEP_SET_HELD 0 0 = false ∧ t.commit.snapshot = s.commit.snapshot ∧
    rd t F.cm_STATE 0 0 = (if s.commit.setPending then 0 else rd s F.cm_STATE 0 0) ∧
    (∀ (f : Field) (u i : Nat), f.fid ∉ [F.cm_STEP_SET_HELD, F.cm_STATE, F.ag_STG_VALID, F.ag_PROG_COUNT].map (·.fid) →
      stgU t f u i = rdU s f u i) ∧
    MemKept s t ∧ FieldsKept [F.cm_STEP_SET_HELD, F.cm_STATE, F.ag_STG_VALID] s t := by
  have hcommit := standbyRestarted_commit (pageAccess commitUnit s)
  have heq := discard_eq (pageAccess commitUnit s)
  have hexec : exec .discard s = .next (discard (pageAccess commitUnit s)) := by rw [exec, execDiscard, if_pos h]
  refine ⟨_, hexec, ?_, ?_, ?_, ?_, ?_, ?_, ?_, fun f u i hf => ?_, discard_mem _ (pageAccess_kept_of _ s).1,
    fieldsKept_of_access [57, 591, 594] (by decide) fun n hn => discard_fld _ hn (FieldKept.refl n _)⟩
  · rw [heq]; rfl
  · rw [heq]; rfl
  · rw [heq]; rfl
  · rw [heq]; rfl
  · rw [heq]
    exact rdb_setb_self _ _ _ _ _ (by decide)
  · rw [heq]
    exact (dropStaged_snapshot _).trans (congrArg (·.snapshot) hcommit :)
  · have hother (s : State) : rd (setb F.cm_STEP_SET_HELD 0 0 false s) F.cm_STATE 0 0 = rd s F.cm_STATE 0 0 :=
      rd_wr_other _ _ _ _ _ _ _ _ (by decide)
    rw [heq, hother, rd_dropStaged_state, hcommit,
      rd_of_fieldKept (standbyRestarted_fld _ (by decide)) (standbyRestarted_variant _) (by decide)]
    rfl
  · have hstg : (discard (pageAccess commitUnit s)).stg = [] := by rw [heq]; rfl
    rw [stgU, hstg]
    exact rdU_discard (pageAccess commitUnit s) u i hf

/-- Settles O24: the claim, GO with its refusals, and DISCARD, each by what its function does. -/
theorem claimAndGo : Obligations.ClaimAndGo := by
  unfold Obligations.ClaimAndGo
  refine ⟨⟨fun a s => claim_completes, fun a s => release_completes, fun s => claimExpired_completes,
    fun s => exec_claimExpired_checked, fun a s => ⟨claim_ignored, release_ignored⟩⟩, ?_, fun s => discard_completes⟩
  intro a w s hw hreach
  obtain ⟨hbusy, hclaimed, hreserved⟩ := go_completes hw hreach
  exact ⟨go_taken hw hreach, hbusy, hclaimed, hreserved⟩

end Sys2Proof.Machine

namespace Sys2Proof.Machine

open Sys2Proof

/-! ### What is neither a register, memory nor a fault -/

section Bare

variable {s t : State} (h : bare t = bare s)

include h

theorem variant_of_bare : t.variant = s.variant := (congrArg State.variant h :)

theorem core_of_bare : t.core = s.core := (congrArg State.core h :)

theorem arrs_of_bare : t.arrs = s.arrs := (congrArg State.arrs h :)

end Bare

/-! ### Which array serves whom, where the remap is kept -/

section Remap

variable {s t : State} (h : FieldKept F.ad_REMAP_CUR.fid s t) (hv : t.variant = s.variant)

include h hv

theorem physOf_of_fieldKept (die : Nat) : physOf t die = physOf s die := funext fun _ => rd_of_fieldKept h hv (by decide) _ _

theorem logicalOf_of_fieldKept (die p : Nat) : logicalOf t die p = logicalOf s die p := by
  rw [logicalOf, logicalOf, physOf_of_fieldKept h hv]

theorem groupFor_of_fieldKept (die p : Nat) : groupFor t die p = groupFor s die p := by
  rw [groupFor, groupFor, logicalOf_of_fieldKept h hv]

theorem groupArrays_of_fieldKept (inst : Nat) : groupArrays t inst = groupArrays s inst := by
  rw [groupArrays, groupArrays, physOf_of_fieldKept h hv]

theorem pageInst_of_fieldKept (hg : FieldKept F.ad_GROUP.fid s t) (die p : Nat) : pageInst t die p = pageInst s die p := by
  rw [pageInst, pageInst, groupFor_of_fieldKept h hv, rd_of_fieldKept hg hv (by decide)]

end Remap

theorem rdA_of_fieldKept {f : Field} {s t : State} (h : FieldKept f.fid s t) (hv : t.variant = s.variant)
    (hf : f.fid ≠ F.ag_PROG_COUNT.fid) (die p j : Nat) : rdA t f die p j = rdA s f die p j := h.rdU' hv hf _ _

theorem rdA_wrA_self (f : Field) (die p j v : Nat) (s : State) : rdA (wrA f die p j v s) f die p j = v % 2 ^ f.width :=
  rdU_wrU_self _ _ _ _ _

theorem rdA_wrA_other {f g : Field} {j j' : Nat} (die p v : Nat) (s : State) (h : g.fid ≠ f.fid ∨ j' ≠ j) :
    rdA (wrA f die p j v s) g die p j' = rdA s g die p j' :=
  rdU_wrU_other _ _ _ _ _ _ _ _ (h.imp id fun hj => .inr fun he => hj (Nat.add_left_cancel he))

theorem rdA_sat_other {f g : Field} (inst i k die p j : Nat) (s : State) (h : [f.fid, 9, 10, 11].contains g.fid = false)
    (hg : g.fid ≠ F.ag_PROG_COUNT.fid) : rdA (sat f inst i k s) g die p j = rdA s g die p j := by
  have hne : f.fid ≠ g.fid := by
    intro he
    simp [he] at h
  exact rdA_of_fieldKept (sat_fld f inst i k s hne (sub_ne [9, 10, 11] [f.fid, 9, 10, 11] (by simp) h) (FieldKept.refl _ s))
    (sat_same_variant f inst i k s) hg die p j

theorem rd_wrA_other {f g : Field} (die p j v : Nat) {inst i : Nat} {s : State} (h : g.fid ≠ f.fid) :
    rd (wrA f die p j v s) g inst i = rd s g inst i := rdU_wrU_other _ _ _ _ _ _ _ _ (.inl h)

/-! ### Core time and the conversion in progress of an array -/

/-- Core time, and the alignment period in which the conversion in progress on an array started. -/
def runView (die p : Nat) (s : State) : Nat × Option Nat := (s.core, (sweepOf s die p).run)

section RunView

variable (die p : Nat)

theorem runView_of_bare {s t : State} (h : bare t = bare s) : runView die p t = runView die p s :=
  (congrArg (runView die p) h :)

theorem runView_setArrX {x : ArrX} (s : State) (h : x.sweep.run = (sweepOf s die p).run) :
    runView die p (setArrX die p x s) = runView die p s := by
  refine Prod.ext rfl ?_
  change (arrX (setArrX die p x s) die p).sweep.run = _
  rw [arrX_setArrX, h]
  rfl

theorem runView_modSweep {f : SweepX → SweepX} (s : State) (h : ∀ x, (f x).run = x.run) :
    runView die p (modSweep die p f s) = runView die p s := runView_setArrX die p s (h _)

theorem runView_showQueue (s : State) : runView die p (showQueue die p s) = runView die p s := rfl

theorem runView_queueColumn (j key : Nat) (event : Bool) (s : State) :
    runView die p (queueColumn die p j key event s) = runView die p s :=
  (runView_showQueue die p _).trans (runView_setArrX die p s rfl)

theorem runView_queueEvent (e : BandEvent) (s : State) : runView die p (queueEvent die p e s) = runView die p s := by
  unfold queueEvent
  split
  · exact runView_queueColumn die p _ _ _ s
  · rfl

end RunView

/-! ### An event of an array (R84) -/

/-- An event is counted, queues its column and sets its latch. -/
def eventNoted (die p inst : Nat) (e : BandEvent) (s : State) : State :=
  let s := addW F.cd_EVENTS (die / 4) 0 1 s
  let s := if e.kind ≤ 6 then sat F.ag_BAND_EVENTS inst 0 1 s else s
  let s := queueEvent die p e s
  match eventLatch e.kind with
  | some f => setb f inst 0 true s
  | none => s

/-- Word 1 of an event, from its array, converter, slice and reading. -/
def eventWord (e : BandEvent) (arr conv slice reading : Nat) : Nat :=
  arr % 64 + (conv % 128) * 2 ^ 6 + (slice % 4) * 2 ^ 13 + e.col * 2 ^ 15 + e.kind * 2 ^ 24 + e.rg * 2 ^ 28 +
    (reading % 2 ^ 32) * 2 ^ 32

/-- The state with another place in the stream of free values. -/
def withFree (c : Nat) (s : State) : State := { s with freeCtr := c }

theorem orFree_state (v : Option Nat) (s : State) : ∃ c, (orFree v s).2 = withFree c s := by
  cases v with
  | some n => exact ⟨s.freeCtr, rfl⟩
  | none => exact ⟨s.freeCtr + 1, rfl⟩

/-- The state once an event has taken free values for what the spec gives no value of. -/
def eventDrawn (die p : Nat) (e : BandEvent) (s : State) : State :=
  [(logicalOf s die p).map (· % 64), e.conv, e.slice, e.reading.map (·.toNat), e.expected.map (·.toNat)].foldl
    (fun s v => (orFree v s).2) s

theorem foldl_orFree_state (vs : List (Option Nat)) (s : State) :
    ∃ c, vs.foldl (fun s v => (orFree v s).2) s = withFree c s := by
  induction vs generalizing s with
  | nil => exact ⟨s.freeCtr, rfl⟩
  | cons v vs ih =>
    obtain ⟨c1, h1⟩ := orFree_state v s
    obtain ⟨c2, h2⟩ := ih (withFree c1 s)
    exact ⟨c2, by rw [List.foldl_cons, h1, h2]; rfl⟩

theorem raiseEvent_eq_drawn (die p : Nat) (e : BandEvent) (s : State) : ∃ arr conv slice reading w2, raiseEvent die p e s =
    eventNoted die p (pageInst s die p) e (emit (.event (die / 4) (nowNs (eventDrawn die p e s))
      (eventWord e arr conv slice reading) w2) (eventDrawn die p e s)) := ⟨_, _, _, _, _, rfl⟩

/-- The event is sent, and noted. -/
theorem raiseEvent_eq (die p : Nat) (e : BandEvent) (s : State) : ∃ arr conv slice reading w2 c, raiseEvent die p e s =
    eventNoted die p (pageInst s die p) e
      (emit (.event (die / 4) (nowNs s) (eventWord e arr conv slice reading) w2) (withFree c s)) := by
  obtain ⟨arr, conv, slice, reading, w2, heq⟩ := raiseEvent_eq_drawn die p e s
  obtain ⟨c, hc⟩ := foldl_orFree_state _ s
  rw [eventDrawn, hc] at heq
  exact ⟨arr, conv, slice, reading, w2, c, heq⟩

theorem runView_eventNoted (die p inst : Nat) (e : BandEvent) (s : State) :
    runView die p (eventNoted die p inst e s) = runView die p s := by
  have hcount : runView die p (if e.kind ≤ 6 then sat F.ag_BAND_EVENTS inst 0 1 (addW F.cd_EVENTS (die / 4) 0 1 s)
      else addW F.cd_EVENTS (die / 4) 0 1 s) = runView die p s := by
    split
    · exact runView_of_bare die p (bare_sat _ _ _ _ _)
    · rfl
  unfold eventNoted
  dsimp only
  split
  · exact (runView_queueEvent die p e _).trans hcount
  · exact (runView_queueEvent die p e _).trans hcount

theorem runView_raiseEvent (die p : Nat) (e : BandEvent) (s : State) :
    runView die p (raiseEvent die p e s) = runView die p s := by
  obtain ⟨_, _, _, _, _, _, heq⟩ := raiseEvent_eq die p e s
  rw [heq, runView_eventNoted]
  rfl

theorem runView_raiseEvents (die p : Nat) (es : List BandEvent) (s : State) :
    runView die p (raiseEvents die p es s) = runView die p s := foldl_same _ (fun s e => runView_raiseEvent die p e s) _ _

/-! ### Tables and cycles: what they leave of the conversion in progress -/

theorem bare_confirmColumns (die p : Nat) (s : State) : bare (confirmColumns die p s) = bare s := by
  unfold confirmColumns
  exact bare_foldl _ _ fun s j => by split <;> rfl

theorem bare_installTable (die p : Nat) (s : State) : bare (installTable die p s) = bare s := by
  unfold installTable
  dsimp only
  rw [bare_sat, bare_wrA, bare_confirmColumns]
  exact bare_foldl _ _ fun s j => by split <;> rfl

theorem bare_countGroup (f : Field) (die p : Nat) (s : State) : bare (countGroup f die p s) = bare s := by
  unfold countGroup
  split
  · split
    · exact bare_sat _ _ _ _ _
    · rfl
  · rfl

theorem bare_showOutstandingOf (die p : Nat) (s : State) : bare (showOutstandingOf die p s) = bare s := by
  unfold showOutstandingOf showOutstanding
  split
  · split <;> rfl
  · rfl

section RunView

variable (die p : Nat)

theorem runView_standbySet (s : State) : runView die p (standbySet die p s) = runView die p s := by
  unfold standbySet
  dsimp only
  split
  · rfl
  · rw [runView_of_bare die p (bare_wrA _ _ _ _ _ _), runView_of_bare die p (bare_foldl _ _ fun s j => bare_wrA _ _ _ _ _ _)]
    exact runView_modSweep die p s fun _ => rfl

theorem runView_buildTable (s : State) : runView die p (buildTable die p s) = runView die p s := by
  unfold buildTable
  dsimp only
  rw [runView_raiseEvents]
  apply runView_of_bare
  rw [bare_foldl, bare_foldl]
  · exact fun s j => bare_wrA _ _ _ _ _ _
  · intro s j
    split <;> rfl

theorem runView_endCycle (n : Nat) (s : State) : runView die p (endCycle die p n s) = runView die p s := by
  have hbuilt : runView die p (countGroup F.ag_CYCLES_DONE die p (buildTable die p s)) = runView die p s :=
    (runView_of_bare die p (bare_countGroup _ _ _ _)).trans (runView_buildTable die p s)
  unfold endCycle
  dsimp only
  split
  · rw [runView_of_bare die p (bare_showOutstandingOf _ _ _), runView_raiseEvent, runView_of_bare die p (bare_wrA _ _ _ _ _ _),
      runView_of_bare die p (bare_installTable _ _ _), runView_modSweep, runView_setArrX, hbuilt]
    · rfl
    · exact fun x => rfl
  · split
    · rw [runView_of_bare die p (bare_installTable _ _ _), runView_modSweep, runView_setArrX, hbuilt]
      · rfl
      · exact fun x => rfl
    · rw [runView_of_bare die p (bare_wrA _ _ _ _ _ _), runView_modSweep, runView_setArrX, hbuilt]
      · rfl
      · exact fun x => rfl

end RunView

/-! ### A conversion that ends (R75, R76) -/

/-- What the conversion at the array's sweep position measures, with its events. -/
def measured (die p : Nat) (codes : List (Nat × Int)) (tripped : List Nat) (s : State) : SweepX × List BandEvent :=
  let pos := sweepPos s die p
  if pos % 200 < 192 then
    referenceConversion s die p (192 * (pos / 200) + pos % 200) codes tripped (sweepOf s die p)
  else columnConversion s die p ((pos % 200 - 192) % 4) (decide (196 ≤ pos % 200)) codes tripped (sweepOf s die p)

/-- The conversion is over and its readings are kept. -/
def conversionOver (die p : Nat) (x : SweepX) (s : State) : State := modSweep die p (fun _ => { x with run := none }) s

/-- A reference conversion leaves its row gain in the drivers of the reference rows (R74). -/
def referenceLeft (die p pos : Nat) (s : State) : State :=
  if pos % 200 < 192 then
    setArrX die p { arrX s die p with
      refCur := List.replicate 4 (refGainCode ((192 * (pos / 200) + pos % 200) / 512)) } s
  else s

/-- The columns that a verify of a return from power-down found out of band are noted (R109). -/
def wakeNoted (die p : Nat) (es : List BandEvent) (s : State) : State :=
  modSweep die p (fun x => { x with
    wakeCols := es.foldl (fun ws e => finishConversion.insertNew e.col ws) x.wakeCols }) s

/-- What a conversion leaves with its array. -/
def readingsKept (die p : Nat) (r : SweepX × List BandEvent) (s : State) : State :=
  wakeNoted die p (if r.1.verifyWake && sweepPos s die p % 200 == 195 then r.2.filter (·.kind == 4) else [])
    (referenceLeft die p (sweepPos s die p) (conversionOver die p r.1 s))

/-- Its events are raised, and a complete set of standby readings is taken in. -/
def readingsJudged (die p : Nat) (r : SweepX × List BandEvent) (s : State) : State :=
  let t := raiseEvents die p r.2 (readingsKept die p r s)
  if sweepPos s die p % 200 = 199 then standbySet die p t else t

/-- The position moves on, and a group's array counts the conversion. -/
def conversionCounted (die p : Nat) (r : SweepX × List BandEvent) (s : State) : State :=
  countGroup F.ag_SWEEP_DONE die p
    (wrA F.ag_SWEEP_POS die p 0 ((sweepPos s die p + 1) % 1600) (readingsJudged die p r s))

theorem finishConversion_eq (die p n : Nat) (codes : List (Nat × Int)) (tripped : List Nat) (s : State) :
    finishConversion die p n codes tripped s =
      if sweepPos s die p = 1599 then endCycle die p n (conversionCounted die p (measured die p codes tripped s) s)
      else conversionCounted die p (measured die p codes tripped s) s := rfl

section Conversion

variable (die p : Nat) (r : SweepX × List BandEvent) (s : State)

theorem runView_conversionOver (x : SweepX) : runView die p (conversionOver die p x s) = (s.core, none) := by
  refine Prod.ext rfl ?_
  change (arrX (setArrX die p _ s) die p).sweep.run = none
  rw [arrX_setArrX]

theorem runView_referenceLeft (pos : Nat) : runView die p (referenceLeft die p pos s) = runView die p s := by
  unfold referenceLeft
  split
  · exact runView_setArrX die p s rfl
  · rfl

theorem runView_wakeNoted (es : List BandEvent) : runView die p (wakeNoted die p es s) = runView die p s := by
  unfold wakeNoted
  exact runView_modSweep die p s fun _ => rfl

theorem runView_readingsKept : runView die p (readingsKept die p r s) = (s.core, none) :=
  (runView_wakeNoted die p _ _).trans ((runView_referenceLeft die p _ _).trans (runView_conversionOver die p s r.1))

theorem runView_readingsJudged : runView die p (readingsJudged die p r s) = (s.core, none) := by
  have hraised : runView die p (raiseEvents die p r.2 (readingsKept die p r s)) = (s.core, none) :=
    (runView_raiseEvents die p _ _).trans (runView_readingsKept die p r s)
  unfold readingsJudged
  dsimp only
  split
  · exact (runView_standbySet die p _).trans hraised
  · exact hraised

theorem runView_conversionCounted : runView die p (conversionCounted die p r s) = (s.core, none) :=
  (runView_of_bare die p (bare_countGroup _ _ _ _)).trans
    ((runView_of_bare die p (bare_wrA _ _ _ _ _ _)).trans (runView_readingsJudged die p r s))

theorem referenceLeft_flds (pos : Nat) :
    (referenceLeft die p pos s).flds = s.flds ∧ (referenceLeft die p pos s).variant = s.variant := by
  unfold referenceLeft
  split <;> exact ⟨rfl, rfl⟩

theorem readingsKept_flds : (readingsKept die p r s).flds = s.flds ∧ (readingsKept die p r s).variant = s.variant :=
  referenceLeft_flds die p (conversionOver die p r.1 s) _

theorem readingsJudged_variant : (readingsJudged die p r s).variant = s.variant := by
  have hraised : (raiseEvents die p r.2 (readingsKept die p r s)).variant = s.variant :=
    (raiseEvents_kept die p r.2 _ (Kept.refl _)).variant.trans (readingsKept_flds die p r s).2
  unfold readingsJudged
  dsimp only
  split
  · exact (standbySet_kept die p _ (Kept.refl _)).variant.trans hraised
  · exact hraised

theorem readingsJudged_fld {n : Nat} (hn : [9, 10, 11, 32, 33, 34, 35, 44, 56, 57, 97, 98, 619].contains n = false) :
    FieldKept n s (readingsJudged die p r s) := by
  have hraised : FieldKept n s (raiseEvents die p r.2 (readingsKept die p r s)) :=
    raiseEvents_fld die p r.2 _ (sub_ne _ _ (by decide) hn) ((FieldKept.refl n s).of_eq (readingsKept_flds die p r s).1)
  unfold readingsJudged
  dsimp only
  split
  · exact standbySet_fld die p _ (sub_ne _ _ (by decide) hn) hraised
  · exact hraised

theorem groupFor_readingsJudged : groupFor (readingsJudged die p r s) die p = groupFor s die p :=
  groupFor_of_fieldKept (readingsJudged_fld die p r s (by decide)) (readingsJudged_variant die p r s) die p

theorem conversionCounted_pos : sweepPos (conversionCounted die p r s) die p = (sweepPos s die p + 1) % 1600 := by
  have hfit : (sweepPos s die p + 1) % 1600 < 2 ^ F.ag_SWEEP_POS.width :=
    (Nat.mod_lt _ (by decide)).trans (by decide)
  unfold conversionCounted
  rw [sweepPos, rdA_of_fieldKept (countGroup_fld _ _ _ _ (by decide) (by decide) (FieldKept.refl _ _))
    (variant_of_bare (bare_countGroup _ _ _ _)) (by decide), rdA_wrA_self, Nat.mod_eq_of_lt hfit]

theorem conversionCounted_done {g : Nat} (h : groupFor s die p = some g) : rd (conversionCounted die p r s) F.ag_SWEEP_DONE g 0 =
    (rd s F.ag_SWEEP_DONE g 0 + 1) % 2 ^ F.ag_SWEEP_DONE.width := by
  have hgroup : groupFor (wrA F.ag_SWEEP_POS die p 0 ((sweepPos s die p + 1) % 1600) (readingsJudged die p r s)) die p = some g :=
    (groupFor_of_fieldKept (wrA_fld _ _ _ _ _ _ (by decide) (FieldKept.refl _ _)) rfl die p).trans
      ((groupFor_readingsJudged die p r s).trans h)
  have hcount (u : State) (hu : groupFor u die p = some g) :
      countGroup F.ag_SWEEP_DONE die p u = addW F.ag_SWEEP_DONE g 0 1 u := by
    unfold countGroup
    rw [hu]
    rfl
  rw [conversionCounted, hcount _ hgroup, addW, rd_wr_self, rd_of_fieldKept (wrA_fld _ _ _ _ _ _ (by decide)
    (readingsJudged_fld die p r s (by decide))) (readingsJudged_variant die p r s) (by decide)]

/-- No group counts the conversion of a spare. -/
theorem conversionCounted_spare (h : groupFor s die p = none) :
    FieldKept F.ag_SWEEP_DONE.fid s (conversionCounted die p r s) := by
  have hgroup : groupFor (wrA F.ag_SWEEP_POS die p 0 ((sweepPos s die p + 1) % 1600) (readingsJudged die p r s)) die p = none :=
    (groupFor_of_fieldKept (wrA_fld _ _ _ _ _ _ (by decide) (FieldKept.refl _ _)) rfl die p).trans
      ((groupFor_readingsJudged die p r s).trans h)
  unfold conversionCounted countGroup
  rw [hgroup]
  exact wrA_fld _ _ _ _ _ _ (by decide) (readingsJudged_fld die p r s (by decide))

end Conversion

section Finish

variable (die p n : Nat) (codes : List (Nat × Int)) (tripped : List Nat) (s : State)

theorem runView_finishConversion : runView die p (finishConversion die p n codes tripped s) = (s.core, none) := by
  rw [finishConversion_eq]
  split
  · exact (runView_endCycle die p n _).trans (runView_conversionCounted die p _ s)
  · exact runView_conversionCounted die p _ s

/-- The end of a cycle leaves the position and the count of conversions. -/
theorem finishConversion_counted {m : Nat} (hm : m = F.ag_SWEEP_POS.fid ∨ m = F.ag_SWEEP_DONE.fid) :
    FieldKept m (conversionCounted die p (measured die p codes tripped s) s) (finishConversion die p n codes tripped s) := by
  rw [finishConversion_eq]
  split
  · exact endCycle_fld die p n _ (by obtain rfl | rfl := hm <;> decide) (FieldKept.refl m _)
  · exact FieldKept.refl m _

theorem finishConversion_variant : (finishConversion die p n codes tripped s).variant =
    (conversionCounted die p (measured die p codes tripped s) s).variant := by
  rw [finishConversion_eq]
  split
  · exact (endCycle_kept die p n _ (Kept.refl _)).variant
  · rfl

theorem finishConversion_pos : sweepPos (finishConversion die p n codes tripped s) die p = (sweepPos s die p + 1) % 1600 :=
  (rdA_of_fieldKept (finishConversion_counted die p n codes tripped s (.inl rfl)) (finishConversion_variant die p n codes tripped s)
    (by decide) die p 0).trans (conversionCounted_pos die p _ s)

theorem finishConversion_done {g : Nat} (h : groupFor s die p = some g) :
    rd (finishConversion die p n codes tripped s) F.ag_SWEEP_DONE g 0 =
      (rd s F.ag_SWEEP_DONE g 0 + 1) % 2 ^ F.ag_SWEEP_DONE.width :=
  (rd_of_fieldKept (finishConversion_counted die p n codes tripped s (.inr rfl)) (finishConversion_variant die p n codes tripped s)
    (by decide) g 0).trans (conversionCounted_done die p _ s h)

theorem finishConversion_spare (h : groupFor s die p = none) :
    FieldKept F.ag_SWEEP_DONE.fid s (finishConversion die p n codes tripped s) :=
  (conversionCounted_spare die p _ s h).trans (finishConversion_counted die p n codes tripped s (.inr rfl))

theorem finishConversion_sequencers : SequencersKept s (finishConversion die p n codes tripped s) :=
  sequencersKept_of_fields (finishConversion_kept die p n codes tripped s (Kept.refl s)).variant
    (finishConversion_fld die p n codes tripped s (by decide) (FieldKept.refl _ s))
    (finishConversion_fld die p n codes tripped s (by decide) (FieldKept.refl _ s))

end Finish

/-! ### The sweep's commands -/

theorem sweepOf_modSweep (die p : Nat) (f : SweepX → SweepX) (s : State) : sweepOf (modSweep die p f s) die p = f (sweepOf s die p) := by
  rw [sweepOf, modSweep, arrX_setArrX]
  rfl

theorem sweepOf_advanceTo (c die p : Nat) (s : State) : sweepOf (advanceTo c s) die p = sweepOf s die p := rfl

theorem sweepConversionStart_completes {die p ap : Nat} {s : State} (hlive : arrayLive s die p = true) (hcore : s.core ≤ 32 * ap)
    (hrun : (sweepOf s die p).run = none) (hallowed : sweepAllowed s die p = true)
    (hfree : foregroundFree s die p ap = true) (htakes : writeTakes s die p ap = false) :
    Completes (.sweepConversionStart die p ap) s fun t =>
      t.core = 32 * ap ∧ (sweepOf t die p).run = some ap ∧ MemKept s t ∧ FieldsKept [] s t := by
  have hstarts : (arrayLive s die p && decide (s.core ≤ 32 * ap) && (sweepOf s die p).run.isNone && sweepAllowed s die p &&
      foregroundFree s die p ap && !writeTakes s die p ap) = true := by
    simp [hlive, hcore, hrun, hallowed, hfree, htakes]
  refine ⟨_, by rw [exec, execSweepConversionStart, if_pos hstarts], ?_, ?_, ?_, fun n _ => ?_⟩
  · exact advanceTo_core hcore
  · rw [sweepOf_advanceTo, sweepOf_modSweep]
  · exact advanceTo_mem _ _ (modSweep_mem _ _ _ _ (MemKept.refl s))
  · exact advanceTo_fld _ _ _ (modSweep_fld _ _ _ _ _ (FieldKept.refl n s))

/-- A write slot of the array began during the five alignment periods of a conversion. -/
def sweepAborted (s : State) (die p n : Nat) : Bool := (List.range 5).any fun k => writeSlotStart s die p (n + k + 1)

/-- The conversion is dropped, and counted as aborted. -/
def abortConversion (die p : Nat) (s : State) : State :=
  sat F.ag_SWEEP_ABORTS (pageInst s die p) 0 1 (modSweep die p (fun x => { x with run := none }) s)

theorem exec_sweepConversionDone {die p n : Nat} {s : State} (codes : List (Nat × Int)) (tripped : List Nat)
    (h : (sweepOf s die p).run = some n) : exec (.sweepConversionDone die p codes tripped) s =
      .next (if sweepAborted s die p n then abortConversion die p (advanceTo (32 * (n + 5)) s)
        else finishConversion die p n codes tripped (advanceTo (32 * (n + 5)) s)) := by
  rw [exec, execSweepConversionDone, h]
  rfl

theorem abortConversion_spec (die p : Nat) (s : State) :
    let t := abortConversion die p s
    runView die p t = (s.core, none) ∧ rd t F.ag_SWEEP_ABORTS (pageInst s die p) 0 =
      min (rd s F.ag_SWEEP_ABORTS (pageInst s die p) 0 + 1) (fieldMax F.ag_SWEEP_ABORTS) ∧
      sweepPos t die p = sweepPos s die p ∧ MemKept s t ∧ SequencersKept s t := by
  have hfld (m : Nat) (hm : [9, 10, 11, 43].contains m = false) : FieldKept m s (abortConversion die p s) :=
    sat_fld _ _ _ _ _ (by rintro rfl; exact absurd hm (by decide)) (sub_ne _ _ (by decide) hm)
      (modSweep_fld _ _ _ _ _ (FieldKept.refl m s))
  have hv : (abortConversion die p s).variant = s.variant := sat_same_variant _ _ _ _ _
  refine ⟨?_, rd_sat _ _ _ _ _ (by decide), rdA_of_fieldKept (hfld _ (by decide)) hv (by decide) die p 0,
    sat_mem _ _ _ _ _ (modSweep_mem _ _ _ _ (MemKept.refl s)), sequencersKept_of_fields hv (hfld _ (by decide)) (hfld _ (by decide))⟩
  rw [abortConversion, runView_of_bare die p (bare_sat _ _ _ _ _)]
  exact Prod.ext rfl (congrArg SweepX.run (sweepOf_modSweep die p _ s))

theorem sweepConversionDone_completes {die p n : Nat} {s : State} (codes : List (Nat × Int)) (tripped : List Nat)
    (h : (sweepOf s die p).run = some n) : Completes (.sweepConversionDone die p codes tripped) s fun t =>
      t.core = max s.core (32 * (n + 5)) ∧ (sweepOf t die p).run = none ∧
      (sweepAborted s die p n = true → rd t F.ag_SWEEP_ABORTS (pageInst s die p) 0 =
          min (rd s F.ag_SWEEP_ABORTS (pageInst s die p) 0 + 1) (fieldMax F.ag_SWEEP_ABORTS) ∧
        sweepPos t die p = sweepPos s die p) ∧
      (sweepAborted s die p n = false → sweepPos t die p = (sweepPos s die p + 1) % 1600 ∧
        (∀ g, groupFor s die p = some g →
          rd t F.ag_SWEEP_DONE g 0 = (rd s F.ag_SWEEP_DONE g 0 + 1) % 2 ^ F.ag_SWEEP_DONE.width) ∧
        (groupFor s die p = none → FieldKept F.ag_SWEEP_DONE.fid s t)) ∧ MemKept s t ∧ SequencersKept s t := by
  have hexec := exec_sweepConversionDone codes tripped h
  have hcore : (advanceTo (32 * (n + 5)) s).core = max s.core (32 * (n + 5)) := Nat.max_comm _ _
  have hmem : MemKept s (advanceTo (32 * (n + 5)) s) := advanceTo_mem _ _ (MemKept.refl s)
  cases hab : sweepAborted s die p n with
  | true =>
    rw [hab, if_pos rfl] at hexec
    obtain ⟨hview, hcount, hpos, hm, hseq⟩ := abortConversion_spec die p (advanceTo (32 * (n + 5)) s)
    obtain ⟨hc, hr⟩ := Prod.mk.inj hview
    exact ⟨_, hexec, hc.trans hcore, hr, fun _ => ⟨hcount, hpos⟩, fun hno => absurd hno (by simp), hmem.trans hm,
      ⟨hseq.regs, hseq.preds⟩⟩
  | false =>
    rw [hab, if_neg Bool.false_ne_true] at hexec
    obtain ⟨hc, hr⟩ := Prod.mk.inj (runView_finishConversion die p n codes tripped (advanceTo (32 * (n + 5)) s))
    have hseq := finishConversion_sequencers die p n codes tripped (advanceTo (32 * (n + 5)) s)
    refine ⟨_, hexec, hc.trans hcore, hr, fun hyes => absurd hyes (by simp), fun _ => ⟨finishConversion_pos die p n codes tripped _,
      fun g hg => finishConversion_done die p n codes tripped _ hg, fun hg => ?_⟩,
      finishConversion_mem die p n codes tripped _ hmem, ⟨hseq.regs, hseq.preds⟩⟩
    exact (advanceTo_fld _ _ _ (FieldKept.refl _ s)).trans (finishConversion_spare die p n codes tripped _ hg)

/-! ### The swap of a table (R82) -/

/-- One column of the standby table becomes current. -/
def installColumn (die p : Nat) (s : State) (j : Nat) : State :=
  let s := wrA F.ag_TRIM_CUR die p j (rdA s F.ag_TRIM_STBY die p j) s
  if rdA s F.ag_STBY_MEASURED die p j = 1 then wrA F.ag_COLSUM_CUR die p j (rdA s F.ag_COLSUM_STBY die p j) s else s

/-- The columns before `n` do. -/
def installColumns (die p n : Nat) (s : State) : State := (List.range n).foldl (installColumn die p) s

theorem installTable_eq (die p : Nat) (s : State) :
    installTable die p s = sat F.ag_TABLE_SWAPS (pageInst (confirmColumns die p (installColumns die p 512 s)) die p) 0 1
      (wrA F.ag_STANDBY_READY die p 0 0 (confirmColumns die p (installColumns die p 512 s))) := rfl

section Install

variable (die p : Nat) (s : State)

theorem installColumn_fld (j : Nat) {n : Nat} {s0 : State} (hn : [52, 54].contains n = false) (h : FieldKept n s0 s) :
    FieldKept n s0 (installColumn die p s j) := by
  have hne {f : Field} (hf : [52, 54].contains f.fid = true) : f.fid ≠ n := by
    rintro rfl
    rw [hf] at hn
    cases hn
  unfold installColumn
  dsimp only
  split
  · exact wrA_fld _ _ _ _ _ _ (hne (by decide)) (wrA_fld _ _ _ _ _ _ (hne (by decide)) h)
  · exact wrA_fld _ _ _ _ _ _ (hne (by decide)) h

theorem installColumn_variant (j : Nat) : (installColumn die p s j).variant = s.variant := by
  unfold installColumn
  dsimp only
  split <;> rfl

theorem installColumn_trim (j : Nat) :
    rdA (installColumn die p s j) F.ag_TRIM_CUR die p j = rdA s F.ag_TRIM_STBY die p j % 2 ^ F.ag_TRIM_CUR.width := by
  unfold installColumn
  dsimp only
  split
  · rw [rdA_wrA_other _ _ _ _ (.inl (by decide)), rdA_wrA_self]
  · exact rdA_wrA_self _ _ _ _ _ _

theorem installColumn_sum (j : Nat) : rdA (installColumn die p s j) F.ag_COLSUM_CUR die p j =
    if rdA s F.ag_STBY_MEASURED die p j = 1 then rdA s F.ag_COLSUM_STBY die p j % 2 ^ F.ag_COLSUM_CUR.width
    else rdA s F.ag_COLSUM_CUR die p j := by
  have hother {g : Field} (hg : g.fid ≠ F.ag_TRIM_CUR.fid) (v : Nat) : rdA (wrA F.ag_TRIM_CUR die p j v s) g die p j =
      rdA s g die p j := rdA_wrA_other _ _ _ _ (.inl hg)
  unfold installColumn
  dsimp only
  rw [hother (by decide), hother (by decide)]
  split
  · exact rdA_wrA_self _ _ _ _ _ _
  · exact hother (by decide) _

theorem installColumn_other {f : Field} {j j' : Nat} (h : j' ≠ j) : rdA (installColumn die p s j) f die p j' = rdA s f die p j' := by
  unfold installColumn
  dsimp only
  split
  · rw [rdA_wrA_other _ _ _ _ (.inr h), rdA_wrA_other _ _ _ _ (.inr h)]
  · exact rdA_wrA_other _ _ _ _ (.inr h)

theorem installColumns_fld (n : Nat) {m : Nat} (hm : [52, 54].contains m = false) : FieldKept m s (installColumns die p n s) :=
  FieldKept.foldl _ (fun t j h => installColumn_fld die p t j hm h) (FieldKept.refl m s)

theorem installColumns_variant (n : Nat) : (installColumns die p n s).variant = s.variant :=
  foldl_same State.variant (fun t j => installColumn_variant die p t j) _ _

theorem installColumns_succ (n : Nat) : installColumns die p (n + 1) s = installColumn die p (installColumns die p n s) n := by
  rw [installColumns, List.range_succ, List.foldl_append]
  rfl

/-- What the table that awaits its swap holds stays as it is, and so does every column still to come. -/
theorem rdA_installColumns {f : Field} {n j : Nat} (hf : f.fid ≠ F.ag_PROG_COUNT.fid)
    (h : [52, 54].contains f.fid = false ∨ n ≤ j) : rdA (installColumns die p n s) f die p j = rdA s f die p j := by
  obtain hfld | hj := h
  · exact rdA_of_fieldKept (installColumns_fld die p s n hfld) (installColumns_variant die p s n) hf die p j
  · induction n with
    | zero => rfl
    | succ n ih => rw [installColumns_succ, installColumn_other _ _ _ (by omega), ih (by omega)]

theorem installColumns_column {n j : Nat} (h : j < n) :
    rdA (installColumns die p n s) F.ag_TRIM_CUR die p j = rdA s F.ag_TRIM_STBY die p j % 2 ^ F.ag_TRIM_CUR.width ∧
    rdA (installColumns die p n s) F.ag_COLSUM_CUR die p j =
      if rdA s F.ag_STBY_MEASURED die p j = 1 then rdA s F.ag_COLSUM_STBY die p j % 2 ^ F.ag_COLSUM_CUR.width
      else rdA s F.ag_COLSUM_CUR die p j := by
  induction n with
  | zero => omega
  | succ n ih =>
    rw [installColumns_succ]
    by_cases hj : j = n
    · subst hj
      rw [installColumn_trim, installColumn_sum, rdA_installColumns die p s (by decide) (.inl (by decide)),
        rdA_installColumns die p s (by decide) (.inl (by decide)), rdA_installColumns die p s (by decide) (.inl (by decide)),
        rdA_installColumns die p s (by decide) (.inr le_rfl)]
      exact ⟨rfl, rfl⟩
    · rw [installColumn_other _ _ _ hj, installColumn_other _ _ _ hj]
      exact ih (by omega)

theorem installed_fld {n : Nat} (hn : [52, 54, 91].contains n = false) :
    FieldKept n s (confirmColumns die p (installColumns die p 512 s)) :=
  confirmColumns_fld _ _ _ (sub_ne _ _ (by decide) hn) (installColumns_fld die p s 512 (sub_ne _ _ (by decide) hn))

theorem installed_variant : (confirmColumns die p (installColumns die p 512 s)).variant = s.variant :=
  (variant_of_bare (bare_confirmColumns die p _)).trans (installColumns_variant die p s 512)

theorem installTable_shown : rdA (installTable die p s) F.ag_STANDBY_READY die p 0 = 0 ∧
    rd (installTable die p s) F.ag_TABLE_SWAPS (pageInst s die p) 0 =
      min (rd s F.ag_TABLE_SWAPS (pageInst s die p) 0 + 1) (fieldMax F.ag_TABLE_SWAPS) := by
  have hpage : pageInst (confirmColumns die p (installColumns die p 512 s)) die p = pageInst s die p :=
    pageInst_of_fieldKept (installed_fld die p s (by decide)) (installed_variant die p s) (installed_fld die p s (by decide)) die p
  rw [installTable_eq, hpage]
  refine ⟨?_, ?_⟩
  · rw [rdA_sat_other _ _ _ _ _ _ _ (by decide) (by decide), rdA_wrA_self, Nat.zero_mod]
  · rw [rd_sat _ _ _ _ _ (by decide), rd_wrA_other _ _ _ _ (by decide),
      rd_of_fieldKept (installed_fld die p s (by decide)) (installed_variant die p s) (by decide)]

theorem installTable_column {j : Nat} (h : j < 512) :
    rdA (installTable die p s) F.ag_TRIM_CUR die p j = rdA s F.ag_TRIM_STBY die p j % 2 ^ F.ag_TRIM_CUR.width ∧
    rdA (installTable die p s) F.ag_COLSUM_CUR die p j =
      if rdA s F.ag_STBY_MEASURED die p j = 1 then rdA s F.ag_COLSUM_STBY die p j % 2 ^ F.ag_COLSUM_CUR.width
      else rdA s F.ag_COLSUM_CUR die p j := by
  have hlater {f : Field} (hsat : [45, 9, 10, 11].contains f.fid = false) (hready : f.fid ≠ F.ag_STANDBY_READY.fid)
      (hstate : [91].contains f.fid = false) (hf : f.fid ≠ F.ag_PROG_COUNT.fid) :
      rdA (installTable die p s) f die p j = rdA (installColumns die p 512 s) f die p j := by
    rw [installTable_eq, rdA_sat_other _ _ _ _ _ _ _ hsat hf, rdA_wrA_other _ _ _ _ (.inl hready),
      rdA_of_fieldKept (confirmColumns_fld _ _ _ hstate (FieldKept.refl _ _)) (variant_of_bare (bare_confirmColumns die p _)) hf]
  rw [hlater (by decide) (by decide) (by decide) (by decide), hlater (by decide) (by decide) (by decide) (by decide)]
  exact installColumns_column die p s h

end Install

theorem exec_tableSwap {die p g ap e : Nat} {s : State} (hgroup : groupFor s die p = some g)
    (hready : rdA s F.ag_STANDBY_READY die p 0 = 1) (hat : (sweepOf s die p).readyAt ≤ ap) (hslot : slotAt s g ap = some (ap, e))
    (hframe : (slotIn (rd s F.ag_FRAME_PHASE g 0) ap).1 % 64 = 0) (hcore : s.core ≤ 32 * ap) (hdue : changeDue s ap = false)
    (hbegun : (arrX s die p).fgFrom = ap → (arrX s die p).fgUntil ≤ ap) :
    exec (.tableSwap die p ap) s = .next (installTable die p (advanceTo (32 * ap) s)) := by
  have hidle : ((arrX s die p).fgFrom == ap && decide (ap < (arrX s die p).fgUntil)) = false := by
    by_cases hfrom : (arrX s die p).fgFrom = ap
    · simp [hfrom, hbegun hfrom]
    · simp [hfrom]
  rw [exec, execTableSwap, hgroup]
  dsimp only
  rw [hslot, if_pos ⟨hready, hat, by simp [hframe], hcore, by rw [hidle]; rfl, by rw [hdue]; rfl⟩]

theorem tableSwap_completes {die p g ap e : Nat} {s : State} (hgroup : groupFor s die p = some g)
    (hready : rdA s F.ag_STANDBY_READY die p 0 = 1) (hat : (sweepOf s die p).readyAt ≤ ap) (hslot : slotAt s g ap = some (ap, e))
    (hframe : (slotIn (rd s F.ag_FRAME_PHASE g 0) ap).1 % 64 = 0) (hcore : s.core ≤ 32 * ap) (hdue : changeDue s ap = false)
    (hbegun : (arrX s die p).fgFrom = ap → (arrX s die p).fgUntil ≤ ap) : Completes (.tableSwap die p ap) s fun t =>
      t.core = 32 * ap ∧ rdA t F.ag_STANDBY_READY die p 0 = 0 ∧
      (∀ j < 512, rdA t F.ag_TRIM_CUR die p j = rdA s F.ag_TRIM_STBY die p j % 2 ^ F.ag_TRIM_CUR.width ∧
        rdA t F.ag_COLSUM_CUR die p j = if rdA s F.ag_STBY_MEASURED die p j = 1 then
          rdA s F.ag_COLSUM_STBY die p j % 2 ^ F.ag_COLSUM_CUR.width else rdA s F.ag_COLSUM_CUR die p j) ∧
      rd t F.ag_TABLE_SWAPS (pageInst s die p) 0 =
        min (rd s F.ag_TABLE_SWAPS (pageInst s die p) 0 + 1) (fieldMax F.ag_TABLE_SWAPS) ∧ MemKept s t ∧
      FieldsKept [F.ag_TRIM_CUR, F.ag_COLSUM_CUR, F.ag_WRITE_STATE, F.ag_STANDBY_READY, F.ag_TABLE_SWAPS, F.com_SAT_LO,
        F.com_SAT_HI, F.com_SAT_TBL] s t := by
  obtain ⟨hstandby, hswaps⟩ := installTable_shown die p (advanceTo (32 * ap) s)
  refine ⟨_, exec_tableSwap hgroup hready hat hslot hframe hcore hdue hbegun, ?_, hstandby,
    fun j hj => installTable_column die p (advanceTo (32 * ap) s) hj, hswaps, installTable_mem _ _ _ (advanceTo_mem _ _ (MemKept.refl s)),
    fieldsKept_of_numbers [9, 10, 11, 38, 45, 52, 54, 91] (by decide) fun n hn =>
      installTable_fld _ _ _ hn (advanceTo_fld _ _ n (FieldKept.refl n s))⟩
  exact (core_of_bare (bare_installTable die p _)).trans (advanceTo_core hcore)

/-! ### An array that was not swept in time (R85) -/

/-- The array's staleness has been reported. -/
def staleReported (die p : Nat) (s : State) : State := modSweep die p (fun x => { x with staleSaid := true }) s

theorem eventNoted_stale (die p inst : Nat) (s : State) : eventNoted die p inst { kind := 8 } s =
    setb F.ag_SWEEP_STALE inst 0 true (addW F.cd_EVENTS (die / 4) 0 1 s) := rfl

theorem eventWord_kind {e : BandEvent} (arr conv slice reading : Nat) (hcol : e.col < 512) (hkind : e.kind < 16) :
    eventWord e arr conv slice reading / 2 ^ 24 % 16 = e.kind := by
  unfold eventWord
  omega

theorem sweepStale_completes {die p : Nat} {s : State} (hlive : arrayLive s die p = true)
    (hsaid : (sweepOf s die p).staleSaid = false)
    (hstale : rd s F.ag_STALE_LIMIT (pageInst s die p) 0 ≤ usSince s (sweepOf s die p).lastNs) :
    Completes (.sweepStale die p) s fun t =>
      rdb t F.ag_SWEEP_STALE (pageInst s die p) 0 = true ∧ (sweepOf t die p).staleSaid = true ∧
      rd t F.cd_EVENTS (die / 4) 0 = (rd s F.cd_EVENTS (die / 4) 0 + 1) % 2 ^ F.cd_EVENTS.width ∧
      (∃ w1 w2, t.out = s.out ++ [.event (die / 4) (nowNs s) w1 w2] ∧ w1 / 2 ^ 24 % 16 = 8) ∧ MemKept s t ∧
      FieldsKept [F.ag_SWEEP_STALE, F.cd_EVENTS] s t := by
  have hraise : (arrayLive s die p && !(sweepOf s die p).staleSaid &&
      decide (rd s F.ag_STALE_LIMIT (pageInst s die p) 0 ≤ usSince s (sweepOf s die p).lastNs)) = true := by
    simp [hlive, hsaid, hstale]
  obtain ⟨arr, conv, slice, reading, w2, c, heq⟩ := raiseEvent_eq die p { kind := 8 } (staleReported die p s)
  rw [eventNoted_stale] at heq
  have hexec : exec (.sweepStale die p) s = .next (raiseEvent die p { kind := 8 } (staleReported die p s)) := by
    rw [exec, execSweepStale]
    dsimp only
    rw [if_pos hraise, staleReported]
  have hmem := raiseEvent_mem die p { kind := 8 } _ (modSweep_mem die p (fun x => { x with staleSaid := true }) s (MemKept.refl s))
  refine ⟨_, hexec, ?_, ?_, ?_, ⟨_, w2, ?_, eventWord_kind (e := { kind := 8 }) arr conv slice reading (by decide) (by decide)⟩, hmem,
    fieldsKept_of_numbers [35, 619] (by decide) fun n hn => ?_⟩
  · rw [heq]
    exact rdb_setb_self _ _ _ _ _ (by decide)
  · have hsweep (inst d : Nat) (o : Output) (u : State) : sweepOf (setb F.ag_SWEEP_STALE inst 0 true
        (addW F.cd_EVENTS d 0 1 (emit o (withFree c u)))) die p = sweepOf u die p := rfl
    rw [heq, hsweep, staleReported, sweepOf_modSweep]
  · rw [heq, setb, rd_wr_other _ _ _ _ _ _ _ _ (by decide), addW, rd_wr_self]
    rfl
  · rw [heq]
    rfl
  · rw [heq]
    exact setb_fld _ _ _ _ _ (by rintro rfl; exact absurd hn (by decide))
      (addW_fld _ _ _ _ _ (by rintro rfl; exact absurd hn (by decide)) ((FieldKept.refl n s).of_eq rfl))

/-- Settles O57: the start and the end of a sweep conversion, the swap of a table and the report of a stale array, each by
what its function does. -/
theorem sweepConversions : Obligations.SweepConversions := by
  unfold Obligations.SweepConversions
  exact ⟨fun die p ap s => sweepConversionStart_completes, fun die p n codes tripped s hrun _ _ =>
      sweepConversionDone_completes codes tripped hrun,
    fun die p g ap e s hgroup hready hat hslot hframe hcore hdue hbegun _ _ =>
      tableSwap_completes hgroup hready hat hslot hframe hcore hdue hbegun,
    fun die p s => sweepStale_completes⟩

end Sys2Proof.Machine

namespace Sys2Proof.Machine

open Sys2Proof

/-! ### What a state holds beside its arrays, its queries and what goes to the drives -/

/-- A state without its arrays, its queries, its drives, the counts its ledgers start from and what has left the part, and
without registers, memory and faults. -/
def armRest (s : State) : State :=
  { bare s with arrs := [], queries := [], drives := [], shelf := {}, progBase := [], out := [] }

theorem armRest_of_bare {s t : State} (h : bare t = bare s) : armRest t = armRest s := by
  change armRest (bare t) = armRest (bare s)
  rw [h]

section ArmRest

variable {s t : State} (h : armRest t = armRest s)

include h

theorem dark_of_armRest : t.dark = s.dark := (congrArg State.dark h :)

theorem ledger_of_armRest : t.ledger = s.ledger := (congrArg State.ledger h :)

theorem core_of_armRest : t.core = s.core := (congrArg State.core h :)

theorem variant_of_armRest : t.variant = s.variant := (congrArg State.variant h :)

end ArmRest

/-! ### Slots settled before READY changes (R95), and READY itself (R350) -/

theorem nmGet_map {α : Type} {d : α} {g : Nat → α → α} (k : Nat) (m : NMap α) (h : g k d = d) :
    nmGet d k (m.map fun a => (a.1, g a.1 a.2)) = g k (nmGet d k m) := by
  induction m with
  | nil => exact h.symm
  | cons e m ih =>
    unfold nmGet at ih ⊢
    rw [List.map_cons, smGet, smGet]
    split
    · next hk =>
      subst hk
      rfl
    · exact ih

theorem arrX_settleWrites (die p : Nat) (s : State) : arrX (settleWrites s) die p =
    settleWrite s (arrKey die p / 2048) (arrKey die p % 2048) (arrX s die p) :=
  nmGet_map (g := fun k x => settleWrite s (k / 2048) (k % 2048) x) (arrKey die p) s.arrs rfl

/-- Settling touches the column write that runs, and nothing else of an array. -/
theorem settleWrite_eq (s : State) (die p : Nat) (x : ArrX) :
    ∃ w, settleWrite s die p x = { x with write := w } ∧ (x.write = none → w = none) := by
  unfold settleWrite
  split
  · next w hw =>
    split
    · exact ⟨_, rfl, fun h => absurd (hw.symm.trans h) (by simp)⟩
    · exact ⟨x.write, rfl, id⟩
  · exact ⟨x.write, rfl, id⟩

section SetReady

variable (u : Nat) (ready : Bool) (reason detail : Nat) (s : State)

/-- The state in which READY of a page is about to become `now`: running writes are settled if it changes. -/
def readySettled (u : Nat) (now : Bool) (s : State) : State :=
  if unitPage u = 0x11 ∧ pageReady s u ≠ now then settleWrites s else s

/-- The same, with the queries of a group that is not ready marked so. -/
def readyMarked (u : Nat) (now : Bool) (s : State) : State :=
  if unitPage u = 0x11 ∧ now = false then markUnready (unitInst u) (readySettled u now s) else readySettled u now s

/-- READY, REASON and DETAIL of a page. -/
def readyShown (u : Nat) (now : Bool) (reason detail : Nat) (s : State) : State :=
  wrU F.com_DETAIL u 0 detail (wrU F.com_REASON u 0 reason (wrU F.com_READY u 0 (b2n now) s))

theorem setReady_eq : setReady u ready reason detail s =
    readyShown u (ready && !(ready && heldUnready s u)) (if ready && heldUnready s u then 0x0B else reason) detail
      (readyMarked u (ready && !(ready && heldUnready s u)) s) := rfl

theorem readyMarked_same (now : Bool) : (readyMarked u now s).flds = s.flds ∧ (readyMarked u now s).variant = s.variant ∧
    (readyMarked u now s).progBase = s.progBase ∧ armRest (readyMarked u now s) = armRest s := by
  have hsettled : (readySettled u now s).flds = s.flds ∧ (readySettled u now s).variant = s.variant ∧
      (readySettled u now s).progBase = s.progBase ∧ armRest (readySettled u now s) = armRest s := by
    unfold readySettled
    split <;> exact ⟨rfl, rfl, rfl, rfl⟩
  unfold readyMarked
  split
  · exact hsettled
  · exact hsettled

theorem arrX_readyMarked (now : Bool) (die p : Nat) : ∃ w, arrX (readyMarked u now s) die p = { arrX s die p with write := w } ∧
    ((arrX s die p).write = none → w = none) := by
  have hmarked : arrX (readyMarked u now s) die p = arrX (readySettled u now s) die p := by
    unfold readyMarked
    split <;> rfl
  rw [hmarked]
  unfold readySettled
  split
  · rw [arrX_settleWrites]
    exact settleWrite_eq _ _ _ _
  · exact ⟨(arrX s die p).write, rfl, id⟩

theorem arrX_setReady (die p : Nat) : ∃ w, arrX (setReady u ready reason detail s) die p = { arrX s die p with write := w } ∧
    ((arrX s die p).write = none → w = none) := arrX_readyMarked u s _ die p

theorem sweepOf_setReady (die p : Nat) : sweepOf (setReady u ready reason detail s) die p = sweepOf s die p := by
  obtain ⟨w, heq, -⟩ := arrX_setReady u ready reason detail s die p
  rw [sweepOf, heq]
  rfl

theorem armRest_readyShown (now : Bool) : armRest (readyShown u now reason detail s) = armRest s := rfl

theorem armRest_setReady : armRest (setReady u ready reason detail s) = armRest s := by
  obtain ⟨-, -, -, hrest⟩ := readyMarked_same u s (ready && !(ready && heldUnready s u))
  rw [setReady_eq, armRest_readyShown, hrest]

theorem rdU_setReady_other {f : Field} {u' : Nat} (i : Nat) (h : [3, 7, 8].contains f.fid = false ∨ u' ≠ u) :
    rdU (setReady u ready reason detail s) f u' i = rdU s f u' i := by
  have hne (g : Field) (hg : [3, 7, 8].contains g.fid = true) : f.fid ≠ g.fid ∨ u' ≠ u ∨ i ≠ 0 :=
    h.elim (fun hf => .inl fun e => by rw [e, hg] at hf; cases hf) fun hu => .inr (.inl hu)
  obtain ⟨hflds, hvariant, hbase, -⟩ := readyMarked_same u s (ready && !(ready && heldUnready s u))
  rw [setReady_eq, readyShown, rdU_wrU_other _ _ _ _ _ _ _ _ (hne _ (by decide)), rdU_wrU_other _ _ _ _ _ _ _ _ (hne _ (by decide)),
    rdU_wrU_other _ _ _ _ _ _ _ _ (hne _ (by decide)), rdU, rdU, unwritten, unwritten, hflds, hvariant, hbase]

theorem rdU_readyShown_ready (now : Bool) : rdU (readyShown u now reason detail s) F.com_READY u 0 = b2n now := by
  rw [readyShown, rdU_wrU_other _ _ _ _ _ _ _ _ (.inl (by decide)), rdU_wrU_other _ _ _ _ _ _ _ _ (.inl (by decide)), rdU_wrU_self]
  cases now <;> rfl

theorem setReady_down : rdU (setReady u false reason detail s) F.com_READY u 0 = 0 ∧
    rdU (setReady u false reason detail s) F.com_REASON u 0 = reason % 2 ^ F.com_REASON.width := by
  refine ⟨rdU_readyShown_ready _ _ _ _ _, ?_⟩
  rw [setReady_eq, readyShown, rdU_wrU_other _ _ _ _ _ _ _ _ (.inl (by decide)), rdU_wrU_self]
  rfl

theorem setReady_up (h : heldUnready s u = false) : rdU (setReady u true reason detail s) F.com_READY u 0 = 1 := by
  rw [setReady_eq, rdU_readyShown_ready, h]
  rfl

end SetReady

theorem rdU_setb_other {f g : Field} (inst i u k : Nat) (b : Bool) (s : State) (h : g.fid ≠ f.fid) :
    rdU (setb f inst i b s) g u k = rdU s g u k := rdU_wrU_other _ _ _ _ _ _ _ _ (.inl h)

theorem groupReady_of_rdU {s t : State} {inst : Nat} (h : rdU t F.com_READY (groupUnit inst) 0 = rdU s F.com_READY (groupUnit inst) 0) :
    groupReady t inst = groupReady s inst := by
  rw [groupReady, groupReady, pageReady, pageReady, h]

theorem groupUnit_ne {g g' : Nat} (h : g ≠ g') : groupUnit g ≠ groupUnit g' := fun he => h (Nat.add_left_cancel he)

/-! ### A verify on one array (R86) -/

/-- A verify runs on the array, or is due there. -/
def verifying (x : SweepX) : Bool := x.verify || x.verifyDue

theorem sweepOf_modSweep_ite (die p die' p' : Nat) (f : SweepX → SweepX) (s : State) : sweepOf (modSweep die p f s) die' p' =
    if arrKey die' p' = arrKey die p then f (sweepOf s die p) else sweepOf s die' p' := by
  rw [sweepOf, modSweep, arrX_setArrX_ite]
  split <;> rfl

/-- The sweep of an array on which a verify begins. -/
def verifyBegun (wake : Bool) (x : SweepX) : SweepX :=
  { x.freshCycle with
    run := none, verify := true, verifyDue := false, verifyWake := wake, wakeCols := [], oob := [], skip := [] }

theorem sweepOf_beginVerify (die p die' p' : Nat) (wake : Bool) (s : State) : ∃ x, verifying x = true ∧
    sweepOf (beginVerify die p wake s) die' p' = if arrKey die' p' = arrKey die p then x else sweepOf s die' p' :=
  ⟨verifyBegun wake (sweepOf s die p), rfl, sweepOf_modSweep_ite die p die' p' (verifyBegun wake) s⟩

theorem sweepOf_dueVerify (die p die' p' : Nat) (wake : Bool) (s : State) : ∃ x, verifying x = true ∧
    sweepOf (dueVerify die p wake s) die' p' = if arrKey die' p' = arrKey die p then x else sweepOf s die' p' := by
  unfold dueVerify
  split
  · split
    · exact ⟨_, by simp [verifying], sweepOf_modSweep_ite die p die' p' _ s⟩
    · exact sweepOf_beginVerify die p die' p' wake s
  · exact sweepOf_beginVerify die p die' p' wake s

theorem verifying_dueVerify {die p die' p' : Nat} (wake : Bool) {s : State}
    (h : arrKey die' p' = arrKey die p ∨ verifying (sweepOf s die' p') = true) :
    verifying (sweepOf (dueVerify die p wake s) die' p') = true := by
  obtain ⟨x, hx, heq⟩ := sweepOf_dueVerify die p die' p' wake s
  rw [heq]
  split
  · exact hx
  · next hne => exact h.resolve_left hne

theorem armRest_dueVerify (die p : Nat) (wake : Bool) (s : State) : armRest (dueVerify die p wake s) = armRest s := by
  unfold dueVerify
  split
  · split <;> rfl
  · rfl

theorem dueVerify_variant (die p : Nat) (wake : Bool) (s : State) : (dueVerify die p wake s).variant = s.variant :=
  (dueVerify_kept die p wake s (Kept.refl s)).variant

/-! ### A verify of a group -/

/-- The verify starts, or is due, on each of some arrays of a die. -/
def verifiesDue (die : Nat) (wake : Bool) (ps : List Nat) (s : State) : State := ps.foldl (fun s p => dueVerify die p wake s) s

theorem startVerify_eq (inst : Nat) (wake : Bool) (s : State) : startVerify inst wake s = setb F.ag_VERIFY_RUNNING inst 0 true
    (setReady (groupUnit inst) false 0x05 64 (verifiesDue (inst / 16) wake (groupArrays s inst) s)) := rfl

/-- What each step keeps, and the step of one item of a list establishes, holds once the list is folded. -/
theorem foldl_reaches {α : Type} {f : State → α → State} {P : State → Prop} {b : α} (hb : ∀ s, P (f s b))
    (hkeep : ∀ s a, P s → P (f s a)) {l : List α} {s : State} (h : b ∈ l ∨ P s) : P (l.foldl f s) := by
  induction l generalizing s with
  | nil => exact h.resolve_left (by simp)
  | cons a l ih =>
    apply ih
    obtain hmem | hs := h
    · obtain rfl | hmem := List.mem_cons.1 hmem
      · exact .inr (hb s)
      · exact .inl hmem
    · exact .inr (hkeep s a hs)

theorem verifying_verifiesDue {die die' p : Nat} {wake : Bool} {ps : List Nat} {s : State}
    (h : (die' = die ∧ p ∈ ps) ∨ verifying (sweepOf s die' p) = true) :
    verifying (sweepOf (verifiesDue die wake ps s) die' p) = true := by
  obtain ⟨rfl, hmem⟩ | hver := h
  · exact foldl_reaches (f := fun s q => dueVerify die' q wake s) (P := fun s => verifying (sweepOf s die' p) = true)
      (fun s => verifying_dueVerify wake (.inl rfl)) (fun s q hs => verifying_dueVerify wake (.inr hs)) (.inl hmem)
  · exact List.foldlRecOn (motive := fun s => verifying (sweepOf s die' p) = true) ps _ hver
      fun s hs q _ => verifying_dueVerify wake (.inr hs)

section Start

variable (die : Nat) (wake : Bool) (ps : List Nat) (s : State)

theorem verifiesDue_fld {n : Nat} (hn : [38, 41].contains n = false) : FieldKept n s (verifiesDue die wake ps s) :=
  FieldKept.foldl _ (fun _ _ h => dueVerify_fld _ _ _ _ hn h) (FieldKept.refl n s)

theorem verifiesDue_variant : (verifiesDue die wake ps s).variant = s.variant :=
  foldl_same State.variant (fun s p => dueVerify_variant die p wake s) _ _

theorem armRest_verifiesDue : armRest (verifiesDue die wake ps s) = armRest s :=
  foldl_same armRest (fun s p => armRest_dueVerify die p wake s) _ _

end Start

section Group

variable (inst : Nat) (wake : Bool) (s : State)

theorem armRest_setb (f : Field) (k : Nat) (b : Bool) : armRest (setb f inst k b s) = armRest s := armRest_of_bare (bare_setb _ _ _ _ _)

theorem arrX_setb (f : Field) (k : Nat) (b : Bool) (die p : Nat) : arrX (setb f inst k b s) die p = arrX s die p :=
  arrX_of_arrs (arrs_of_bare (bare_setb _ _ _ _ _)) die p

theorem sweepOf_setb (f : Field) (k : Nat) (b : Bool) (die p : Nat) : sweepOf (setb f inst k b s) die p = sweepOf s die p :=
  congrArg ArrX.sweep (arrX_setb inst s f k b die p)

theorem armRest_startVerify : armRest (startVerify inst wake s) = armRest s := by
  rw [startVerify_eq, armRest_setb, armRest_setReady, armRest_verifiesDue]

theorem sweepOf_startVerify (die p : Nat) :
    sweepOf (startVerify inst wake s) die p = sweepOf (verifiesDue (inst / 16) wake (groupArrays s inst) s) die p := by
  rw [startVerify_eq, sweepOf_setb, sweepOf_setReady]

theorem startVerify_variant : (startVerify inst wake s).variant = s.variant :=
  (startVerify_kept inst wake s (Kept.refl s)).variant

theorem groupArrays_startVerify (g : Nat) : groupArrays (startVerify inst wake s) g = groupArrays s g :=
  groupArrays_of_fieldKept (startVerify_fld inst wake s (by decide) (FieldKept.refl _ s)) (startVerify_variant inst wake s) g

/-- Where an array is verified, or a verify is due, it stays so. -/
theorem verifying_startVerify {die p : Nat} (h : verifying (sweepOf s die p) = true) :
    verifying (sweepOf (startVerify inst wake s) die p) = true := by
  rw [sweepOf_startVerify]
  exact verifying_verifiesDue (.inr h)

/-- The pages of other groups stay as they are. -/
theorem rdU_startVerify_other {g : Nat} {f : Field} (hg : g ≠ inst) (hf : [38, 41, 92].contains f.fid = false) :
    rdU (startVerify inst wake s) f (groupUnit g) 0 = rdU s f (groupUnit g) 0 := by
  have hprog : f.fid ≠ F.ag_PROG_COUNT.fid := by
    intro he
    rw [he] at hf
    cases hf
  have hrun (t : State) : rdU (setb F.ag_VERIFY_RUNNING inst 0 true t) f (groupUnit g) 0 = rdU t f (groupUnit g) 0 :=
    rdU_wrU_other _ _ _ _ _ _ _ _ (.inr (.inl (groupUnit_ne hg)))
  rw [startVerify_eq, hrun, rdU_setReady_other _ _ _ _ _ _ (.inr (groupUnit_ne hg)),
    (verifiesDue_fld _ _ _ _ (sub_ne _ _ (by decide) hf)).rdU' (verifiesDue_variant _ _ _ _) hprog]

theorem startVerify_started : VerifyStarted inst (startVerify inst wake s) := by
  obtain ⟨hready, hreason⟩ := setReady_down (groupUnit inst) 0x05 64 (verifiesDue (inst / 16) wake (groupArrays s inst) s)
  refine ⟨rdb_setb_self _ _ _ _ _ (by decide), ?_, ?_, fun p hp => ?_⟩
  · rw [startVerify_eq, groupReady, pageReady, rdU_setb_other _ _ _ _ _ _ (by decide), hready]
    rfl
  · rw [startVerify_eq, rdU_setb_other _ _ _ _ _ _ (by decide), hreason]
    rfl
  · rw [groupArrays_startVerify] at hp
    rw [sweepOf_startVerify, ← Bool.or_eq_true]
    exact verifying_verifiesDue (.inl ⟨rfl, hp⟩)

/-- A verify that has started stays so when one of another group starts. -/
theorem VerifyStarted.startVerify {g : Nat} (h : VerifyStarted g s) : VerifyStarted g (Machine.startVerify inst wake s) := by
  by_cases hg : g = inst
  · rw [hg]
    exact startVerify_started inst wake s
  obtain ⟨hrun, hready, hreason, harrays⟩ := h
  refine ⟨?_, ?_, ?_, fun p hp => ?_⟩
  · rw [← hrun]
    exact congrArg (· == 1) (rdU_startVerify_other inst wake s (f := F.ag_VERIFY_RUNNING) hg (by decide))
  · rw [← hready]
    exact groupReady_of_rdU (rdU_startVerify_other inst wake s hg (by decide))
  · rw [← hreason]
    exact rdU_startVerify_other inst wake s hg (by decide)
  · rw [groupArrays_startVerify] at hp
    rw [← Bool.or_eq_true]
    exact verifying_startVerify inst wake s ((Bool.or_eq_true _ _).mpr (harrays p hp))

theorem startVerify_sequencers : SequencersKept s (startVerify inst wake s) :=
  sequencersKept_of_fields (startVerify_variant inst wake s) (startVerify_fld _ _ _ (by decide) (FieldKept.refl _ s))
    (startVerify_fld _ _ _ (by decide) (FieldKept.refl _ s))

end Group

/-! ### VERIFY_REQ (R86) -/

theorem exec_verifyReq {inst : Nat} {s : State} (h : livePage s (groupUnit inst) = true) :
    exec (.verifyReq inst) s = .next (verifyReq inst (pageAccess (groupUnit inst) s)) := by
  rw [exec, execVerifyReq, if_pos h]

theorem verifyReq_refused {inst : Nat} {s : State} (h : groupInUse s inst = true ∨ s.dark.contains (inst / 16) = true) :
    verifyReq inst s = setb F.ag_VERIFY_REFUSED inst 0 true s := if_pos (Bool.or_eq_true_iff.2 h)

theorem verifyReq_starts {inst : Nat} {s : State} (huse : groupInUse s inst = false) (hdark : s.dark.contains (inst / 16) = false) :
    verifyReq inst s = startVerify inst false s := if_neg (by rw [huse, hdark]; exact Bool.false_ne_true)

theorem verifyReq_refuses {inst : Nat} {s : State} (hlive : livePage s (groupUnit inst) = true)
    (h : groupInUse s inst = true ∨ s.dark.contains (inst / 16) = true) : Completes (.verifyReq inst) s fun t =>
      rdb t F.ag_VERIFY_REFUSED inst 0 = true ∧ t.arrs = s.arrs ∧ MemKept s t ∧ FieldsKept [F.ag_VERIFY_REFUSED] s t := by
  have heq : verifyReq inst (pageAccess (groupUnit inst) s) = setb F.ag_VERIFY_REFUSED inst 0 true (pageAccess (groupUnit inst) s) :=
    verifyReq_refused h
  refine ⟨setb F.ag_VERIFY_REFUSED inst 0 true (pageAccess (groupUnit inst) s), (exec_verifyReq hlive).trans (by rw [heq]),
    rdb_setb_self _ _ _ _ _ (by decide), rfl,
    setb_mem _ _ _ _ _ (pageAccess_kept_of _ s).1, fieldsKept_of_access (u := groupUnit inst) [36] (by decide) fun n hn => ?_⟩
  exact setb_fld _ _ _ _ _ (by rintro rfl; exact absurd hn (by decide)) (FieldKept.refl n _)

theorem verifyReq_verifies {inst : Nat} {s : State} (hlive : livePage s (groupUnit inst) = true)
    (huse : groupInUse s inst = false) (hdark : s.dark.contains (inst / 16) = false) :
    Completes (.verifyReq inst) s fun t => VerifyStarted inst t ∧ MemKept s t ∧ SequencersKept s t := by
  have heq : verifyReq inst (pageAccess (groupUnit inst) s) = startVerify inst false (pageAccess (groupUnit inst) s) :=
    verifyReq_starts huse hdark
  have hseq := startVerify_sequencers inst false (pageAccess (groupUnit inst) s)
  exact ⟨_, (exec_verifyReq hlive).trans (by rw [heq]), startVerify_started _ _ _,
    startVerify_mem _ _ _ (pageAccess_kept_of _ s).1, ⟨hseq.regs, hseq.preds⟩⟩

/-! ### The end of a verify (R86) -/

/-- The arrays that a wake left with nothing to write take that in, and hold no more for it (R109). -/
def wakesEnded (inst : Nat) (loads : List (Nat × Nat)) (ps : List Nat) (s : State) : State :=
  ps.foldl (fun s p => wakeArray (inst / 16) p loads s) s

/-- No column of an array is still to be written for its wake, and the array has not failed. -/
def ArraySettled (s : State) (die p : Nat) : Prop := (sweepOf s die p).wakeCols = [] ∧ (arrX s die p).failed = false

theorem wakeArray_settled {die p : Nat} (loads : List (Nat × Nat)) {s : State} (h : (sweepOf s die p).wakeCols = []) :
    wakeArray die p loads s = s ∨
      wakeArray die p loads s = modSweep die p (fun x => { x with wakeCols := [], verifyWake := false }) s := by
  unfold wakeArray
  rw [h]
  by_cases hfits : limitCount s die p + ([] : List Nat).length ≤ bypassLimit s die p ∧ ([] : List Nat).length ≤ slotsFree (arrX s die p)
  · exact .inr (if_pos hfits)
  · exact .inl (if_neg hfits)

theorem ArraySettled.wakeArray {die p p' : Nat} (loads : List (Nat × Nat)) {s : State} (hp : (sweepOf s die p).wakeCols = [])
    (h : ArraySettled s die p') : ArraySettled (Machine.wakeArray die p loads s) die p' := by
  obtain heq | heq := wakeArray_settled loads hp
  · rw [heq]
    exact h
  · obtain ⟨hcols, hfailed⟩ := h
    rw [heq]
    refine ⟨?_, ?_⟩
    · rw [sweepOf_modSweep_ite]
      split
      · rfl
      · exact hcols
    · rw [modSweep, arrX_setArrX_ite]
      split
      · next hkey => rwa [← arrX_of_key s hkey]
      · exact hfailed

section Ended

variable {inst : Nat} (loads : List (Nat × Nat)) {ps qs : List Nat} {s : State}

theorem wakesEnded_settled (hps : ∀ p ∈ ps, ArraySettled s (inst / 16) p) (hsub : qs ⊆ ps) :
    ∀ p ∈ ps, ArraySettled (wakesEnded inst loads qs s) (inst / 16) p := by
  induction qs generalizing s with
  | nil => exact hps
  | cons q qs ih =>
    obtain ⟨hq, hqs⟩ := List.cons_subset.1 hsub
    exact ih (fun p hp => (hps p hp).wakeArray loads (hps q hq).1) hqs

/-- Registers and what is beside the arrays stay as they are. -/
theorem wakesEnded_flds (hps : ∀ p ∈ ps, ArraySettled s (inst / 16) p) (hsub : qs ⊆ ps) :
    (wakesEnded inst loads qs s).flds = s.flds ∧ armRest (wakesEnded inst loads qs s) = armRest s ∧
      (wakesEnded inst loads qs s).mem = s.mem := by
  induction qs generalizing s with
  | nil => exact ⟨rfl, rfl, rfl⟩
  | cons q qs ih =>
    obtain ⟨hq, hqs⟩ := List.cons_subset.1 hsub
    have hone : (wakeArray (inst / 16) q loads s).flds = s.flds ∧ armRest (wakeArray (inst / 16) q loads s) = armRest s ∧
        (wakeArray (inst / 16) q loads s).mem = s.mem := by
      obtain heq | heq := wakeArray_settled loads (hps q hq).1
      · rw [heq]
        exact ⟨rfl, rfl, rfl⟩
      · rw [heq]
        exact ⟨rfl, rfl, rfl⟩
    obtain ⟨hflds, hrest, hmem⟩ := ih (s := wakeArray (inst / 16) q loads s)
      (fun p hp => (hps p hp).wakeArray loads (hps q hq).1) hqs
    exact ⟨hflds.trans hone.1, hrest.trans hone.2.1, hmem.trans hone.2.2⟩

end Ended

/-- The group's verify is over on every array. -/
def verifyOver (inst : Nat) (loads : List (Nat × Nat)) (s : State) : State :=
  setb F.ag_VERIFY_RUNNING inst 0 false (wakesEnded inst loads (groupArrays s inst) s)

/-- READY of a group whose verify is over, with the reason why it is not ready (R86, R351). -/
def verifyShown (inst : Nat) (ps : List Nat) (s : State) : State :=
  if rdb s F.fa_DEVICE_FATAL 0 0 then s
  else if s.dark.contains (inst / 16) then setReady (groupUnit inst) false 0x0C 0 s
  else if rdb s F.ag_LOAD_HOLD inst 0 then setReady (groupUnit inst) false 0x07 64 s
  else if wakeLeft s inst ≠ 0 then setReady (groupUnit inst) false 0x07 (wakeLeft s inst) s
  else match ps.zipIdx.find? fun pl => (arrX s (inst / 16) pl.1).failed with
  | some pl => setReady (groupUnit inst) false 0x06 (64 * inst + pl.2) s
  | none => setReady (groupUnit inst) true 0 0 s

theorem verifyComplete_over {inst : Nat} (loads : List (Nat × Nat)) {s : State} (hleft : verifyLeft s inst = 0)
    (hrun : rdb s F.ag_VERIFY_RUNNING inst 0 = true) (hmixed : epochsMixed s inst = false) :
    verifyComplete inst loads s = verifyShown inst (groupArrays s inst) (verifyOver inst loads s) := by
  have hgo : ¬(verifyLeft s inst ≠ 0 ∨ (!(rdb s F.ag_VERIFY_RUNNING inst 0 || wakeLeft s inst != 0)) = true ∨
      epochsMixed s inst = true) := by
    simp [hleft, hrun, hmixed]
  unfold verifyComplete
  rw [if_neg hgo]
  unfold verifyOver wakesEnded
  generalize setb F.ag_VERIFY_RUNNING inst 0 false _ = t
  rfl

theorem verifyShown_ready {inst : Nat} {ps : List Nat} {s : State} (hfatal : rdb s F.fa_DEVICE_FATAL 0 0 = false)
    (hdark : s.dark.contains (inst / 16) = false) (hhold : rdb s F.ag_LOAD_HOLD inst 0 = false) (hwake : wakeLeft s inst = 0)
    (hps : ∀ p ∈ ps, ArraySettled s (inst / 16) p) : verifyShown inst ps s = setReady (groupUnit inst) true 0 0 s := by
  have hfailed : (ps.zipIdx.find? fun pl => (arrX s (inst / 16) pl.1).failed) = none := by
    rw [List.find?_eq_none]
    intro pl hpl
    obtain ⟨-, hok⟩ := hps pl.1 (List.fst_mem_of_mem_zipIdx hpl)
    rw [hok]
    exact Bool.false_ne_true
  rw [verifyShown, if_neg (ne_true_of_eq_false hfatal), if_neg (ne_true_of_eq_false hdark),
    if_neg (ne_true_of_eq_false hhold), if_neg (not_not.2 hwake), hfailed]

section Complete

variable {inst : Nat} (loads : List (Nat × Nat)) {s : State} (hps : ∀ p ∈ groupArrays s inst, ArraySettled s (inst / 16) p)

include hps

theorem verifyOver_fld {n : Nat} (hn : [40].contains n = false) : FieldKept n s (verifyOver inst loads s) :=
  setb_fld _ _ _ _ _ (by rintro rfl; exact absurd hn (by decide))
    ((FieldKept.refl n s).of_eq (wakesEnded_flds loads hps (List.Subset.refl _)).1)

theorem verifyOver_rest : armRest (verifyOver inst loads s) = armRest s := by
  obtain ⟨-, hrest, -⟩ := wakesEnded_flds loads hps (List.Subset.refl _)
  rw [verifyOver, armRest_setb, hrest]

theorem verifyOver_variant : (verifyOver inst loads s).variant = s.variant := variant_of_armRest (verifyOver_rest loads hps)

theorem verifyOver_mem : MemKept s (verifyOver inst loads s) := by
  obtain ⟨-, -, hmem⟩ := wakesEnded_flds loads hps (List.Subset.refl _)
  exact setb_mem _ _ _ _ _ ((MemKept.refl s).of_eq hmem)

theorem groupArrays_verifyOver : groupArrays (verifyOver inst loads s) inst = groupArrays s inst :=
  groupArrays_of_fieldKept (verifyOver_fld loads hps (by decide)) (verifyOver_variant loads hps) inst

theorem verifyOver_settled : ∀ p ∈ groupArrays s inst, ArraySettled (verifyOver inst loads s) (inst / 16) p := by
  intro p hp
  obtain ⟨hcols, hfailed⟩ := wakesEnded_settled loads hps (List.Subset.refl _) p hp
  rw [verifyOver]
  exact ⟨by rw [sweepOf_setb, hcols], by rw [arrX_setb, hfailed]⟩

theorem wakeLeft_verifyOver : wakeLeft (verifyOver inst loads s) inst = 0 := by
  rw [wakeLeft, groupArrays_verifyOver loads hps, List.length_eq_zero_iff, List.filter_eq_nil_iff]
  intro p hp
  rw [(verifyOver_settled loads hps p hp).1]
  decide

/-- A group with nothing left over becomes ready. -/
theorem verifyComplete_eq (hleft : verifyLeft s inst = 0) (hrun : rdb s F.ag_VERIFY_RUNNING inst 0 = true)
    (hfatal : rdb s F.fa_DEVICE_FATAL 0 0 = false) (hdark : s.dark.contains (inst / 16) = false)
    (hhold : rdb s F.ag_LOAD_HOLD inst 0 = false) (hmixed : epochsMixed s inst = false) :
    verifyComplete inst loads s = setReady (groupUnit inst) true 0 0 (verifyOver inst loads s) := by
  rw [verifyComplete_over loads hleft hrun hmixed]
  apply verifyShown_ready _ _ _ (wakeLeft_verifyOver loads hps) (verifyOver_settled loads hps)
  · rw [rdb_of_fieldKept (verifyOver_fld loads hps (by decide)) (verifyOver_variant loads hps) (by decide), hfatal]
  · rw [dark_of_armRest (verifyOver_rest loads hps), hdark]
  · rw [rdb_of_fieldKept (verifyOver_fld loads hps (by decide)) (verifyOver_variant loads hps) (by decide), hhold]

theorem verifyComplete_completes (hinst : inst < 256) (hleft : verifyLeft s inst = 0)
    (hrun : rdb s F.ag_VERIFY_RUNNING inst 0 = true) (hfatal : rdb s F.fa_DEVICE_FATAL 0 0 = false)
    (hdark : s.dark.contains (inst / 16) = false) (hhold : rdb s F.ag_LOAD_HOLD inst 0 = false)
    (hmixed : epochsMixed s inst = false) : Completes (.verifyComplete inst loads) s fun t =>
      groupReady t inst = true ∧ rdb t F.ag_VERIFY_RUNNING inst 0 = false ∧ MemKept s t ∧
      FieldsKept [F.ag_VERIFY_RUNNING, F.com_READY, F.com_REASON, F.com_DETAIL] s t := by
  have hfree : heldUnready (verifyOver inst loads s) (groupUnit inst) = false := by
    rw [heldUnready, rdb_of_fieldKept (verifyOver_fld loads hps (by decide)) (verifyOver_variant loads hps) (by decide), hfatal,
      Bool.and_false]
  refine ⟨setReady (groupUnit inst) true 0 0 (verifyOver inst loads s), ?_, beq_iff_eq.2 (setReady_up _ _ _ _ hfree), ?_, ?_,
    fieldsKept_of_numbers [3, 7, 8, 40] (by decide) fun n hn => ?_⟩
  · rw [exec, execVerifyComplete, if_pos hinst, verifyComplete_eq loads hps hleft hrun hfatal hdark hhold hmixed]
  · rw [rdb, rd, rdU_setReady_other _ _ _ _ _ _ (.inl (by decide))]
    exact rdb_setb_self F.ag_VERIFY_RUNNING inst 0 false _ (by decide)
  · exact setReady_mem _ _ _ _ _ (verifyOver_mem loads hps)
  · exact setReady_fld _ _ _ _ _ (sub_ne _ _ (by decide) hn) (verifyOver_fld loads hps (sub_ne _ _ (by decide) hn))

end Complete

/-! ### LOAD_HOLD and SLEEP (R112, R113) -/

theorem exec_loadHold {inst : Nat} (v : Bool) {s : State} (h : livePage s (groupUnit inst) = true) :
    exec (.loadHold inst v) s = .next (loadHold inst v (pageAccess (groupUnit inst) s)) := by
  rw [exec, execLoadHold, if_pos h]

/-- The group is held: not ready, unless its die has no supply. -/
def groupHeld (inst : Nat) (s : State) : State :=
  if s.dark.contains (inst / 16) then s else setReady (groupUnit inst) false 0x07 64 s

theorem loadHold_holds {inst : Nat} {s : State} (huse : groupInUse s inst = false) (hhold : rdb s F.ag_LOAD_HOLD inst 0 = false) :
    loadHold inst true s = setb F.ag_LOAD_HOLD inst 0 true (groupHeld inst s) := by
  rw [loadHold, if_pos rfl, if_neg (ne_true_of_eq_false huse), hhold, Bool.false_or]
  rfl

theorem loadHold_ends {inst : Nat} {s : State} (hhold : rdb s F.ag_LOAD_HOLD inst 0 = true) :
    loadHold inst false s = if s.dark.contains (inst / 16) then setb F.ag_LOAD_HOLD inst 0 false s
      else startVerify inst false (setb F.ag_LOAD_HOLD inst 0 false s) := by
  rw [loadHold, if_neg Bool.false_ne_true, if_pos hhold]
  rfl

theorem groupHeld_fld {inst n : Nat} {s : State} (hn : s.dark.contains (inst / 16) = true ∨ [3, 7, 8].contains n = false) :
    FieldKept n s (groupHeld inst s) := by
  unfold groupHeld
  split
  · exact FieldKept.refl n s
  · next hdark => exact setReady_fld _ _ _ _ _ (hn.resolve_left hdark) (FieldKept.refl n s)

theorem groupHeld_mem (inst : Nat) (s : State) : MemKept s (groupHeld inst s) := by
  unfold groupHeld
  split
  · exact MemKept.refl s
  · exact setReady_mem _ _ _ _ _ (MemKept.refl s)

theorem loadHold_refuses {inst : Nat} {s : State} (hlive : livePage s (groupUnit inst) = true) (huse : groupInUse s inst = true) :
    Completes (.loadHold inst true) s fun t =>
      rdb t F.ag_LOAD_REFUSED inst 0 = true ∧ MemKept s t ∧ FieldsKept [F.ag_LOAD_REFUSED] s t := by
  have heq : loadHold inst true (pageAccess (groupUnit inst) s) = setb F.ag_LOAD_REFUSED inst 0 true (pageAccess (groupUnit inst) s) := by
    rw [loadHold, if_pos rfl]
    exact if_pos huse
  refine ⟨setb F.ag_LOAD_REFUSED inst 0 true (pageAccess (groupUnit inst) s), (exec_loadHold true hlive).trans (by rw [heq]),
    rdb_setb_self _ _ _ _ _ (by decide), setb_mem _ _ _ _ _ (pageAccess_kept_of _ s).1,
    fieldsKept_of_access (u := groupUnit inst) [37] (by decide) fun n hn => ?_⟩
  exact setb_fld _ _ _ _ _ (by rintro rfl; exact absurd hn (by decide)) (FieldKept.refl n _)

theorem loadHold_takes {inst : Nat} {s : State} (hlive : livePage s (groupUnit inst) = true) (huse : groupInUse s inst = false)
    (hhold : rdb s F.ag_LOAD_HOLD inst 0 = false) : Completes (.loadHold inst true) s fun t =>
      rdb t F.ag_LOAD_HOLD inst 0 = true ∧
      (s.dark.contains (inst / 16) = false → groupReady t inst = false ∧ rdU t F.com_REASON (groupUnit inst) 0 = 7) ∧
      MemKept s t ∧ FieldsKept (F.ag_LOAD_HOLD :: if s.dark.contains (inst / 16) then [] else
        [F.com_READY, F.com_REASON, F.com_DETAIL]) s t := by
  have heq : loadHold inst true (pageAccess (groupUnit inst) s) =
      setb F.ag_LOAD_HOLD inst 0 true (groupHeld inst (pageAccess (groupUnit inst) s)) := loadHold_holds huse hhold
  have hmem : MemKept s (groupHeld inst (pageAccess (groupUnit inst) s)) :=
    (pageAccess_kept_of _ s).1.trans (groupHeld_mem inst _)
  refine ⟨setb F.ag_LOAD_HOLD inst 0 true (groupHeld inst (pageAccess (groupUnit inst) s)),
    (exec_loadHold true hlive).trans (by rw [heq]), rdb_setb_self _ _ _ _ _ (by decide), fun hdark => ?_,
    setb_mem _ _ _ _ _ hmem, ?_⟩
  · have hheld : groupHeld inst (pageAccess (groupUnit inst) s) =
        setReady (groupUnit inst) false 0x07 64 (pageAccess (groupUnit inst) s) := if_neg (ne_true_of_eq_false hdark)
    obtain ⟨hready, hreason⟩ := setReady_down (groupUnit inst) 0x07 64 (pageAccess (groupUnit inst) s)
    rw [hheld, groupReady, pageReady, rdU_setb_other _ _ _ _ _ _ (by decide), rdU_setb_other _ _ _ _ _ _ (by decide), hready, hreason]
    exact ⟨rfl, rfl⟩
  · have hkept {n : Nat} (hne : F.ag_LOAD_HOLD.fid ≠ n) (hn : s.dark.contains (inst / 16) = true ∨ [3, 7, 8].contains n = false) :
        FieldKept n (pageAccess (groupUnit inst) s) (setb F.ag_LOAD_HOLD inst 0 true (groupHeld inst (pageAccess (groupUnit inst) s))) :=
      setb_fld _ _ _ _ _ hne (groupHeld_fld hn)
    cases hdark : s.dark.contains (inst / 16)
    · exact fieldsKept_of_access (u := groupUnit inst) [3, 7, 8, 31] (by decide) fun n hn =>
        hkept (by rintro rfl; exact absurd hn (by decide)) (.inr (sub_ne _ _ (by decide) hn))
    · exact fieldsKept_of_access (u := groupUnit inst) [31] (by decide) fun n hn =>
        hkept (by rintro rfl; exact absurd hn (by decide)) (.inl hdark)

theorem loadHold_verifies {inst : Nat} {s : State} (hlive : livePage s (groupUnit inst) = true)
    (hhold : rdb s F.ag_LOAD_HOLD inst 0 = true) : Completes (.loadHold inst false) s fun t =>
      rdb t F.ag_LOAD_HOLD inst 0 = false ∧ (s.dark.contains (inst / 16) = false → VerifyStarted inst t) ∧ MemKept s t ∧
      SequencersKept s t := by
  let s1 := setb F.ag_LOAD_HOLD inst 0 false (pageAccess (groupUnit inst) s)
  have heq : loadHold inst false (pageAccess (groupUnit inst) s) =
      if s.dark.contains (inst / 16) then s1 else startVerify inst false s1 := loadHold_ends hhold
  have hmem : MemKept s s1 := setb_mem _ _ _ _ _ (pageAccess_kept_of _ s).1
  have hended : rdb s1 F.ag_LOAD_HOLD inst 0 = false := rdb_setb_self _ _ _ _ _ (by decide)
  have hvariant : s1.variant = (pageAccess (groupUnit inst) s).variant := variant_of_bare (bare_setb _ _ _ _ _)
  have hfld {n : Nat} (hn : F.ag_LOAD_HOLD.fid ≠ n) : FieldKept n s s1 :=
    ((pageAccess_kept_of _ s).2 n).trans (setb_fld _ _ _ _ _ hn (FieldKept.refl n _))
  have hseq : SequencersKept s s1 := sequencersKept_of_fields hvariant (hfld (by decide)) (hfld (by decide))
  have hexec := (exec_loadHold false hlive).trans (congrArg Host.Outcome.next heq)
  cases hdark : s.dark.contains (inst / 16) with
  | true =>
    rw [hdark] at hexec
    exact ⟨s1, hexec, hended, fun h => absurd h (by decide), hmem, hseq⟩
  | false =>
    rw [hdark] at hexec
    have hverify := startVerify_sequencers inst false s1
    refine ⟨startVerify inst false s1, hexec, ?_, fun _ => startVerify_started inst false s1, startVerify_mem _ _ _ hmem,
      ⟨fun q r => (hverify.regs q r).trans (hseq.regs q r), fun q k => (hverify.preds q k).trans (hseq.preds q k)⟩⟩
    rw [rdb_of_fieldKept (startVerify_fld _ _ _ (by decide) (FieldKept.refl _ s1)) (startVerify_variant _ _ _) (by decide), hended]

theorem exec_sleep {die : Nat} (v : Bool) {s : State} (h : livePage s (unitOf 0x10 die) = true) :
    exec (.sleep die v) s = .next (sleep die v (pageAccess (unitOf 0x10 die) s)) := by
  rw [exec, execSleep, if_pos h]

theorem sleep_refuses {die : Nat} {s : State} (hlive : livePage s (unitOf 0x10 die) = true)
    (huse : (dieGroups die).any (groupInUse s) = true) : Completes (.sleep die true) s fun t =>
      rdb t F.ad_SLEEP_REFUSED die 0 = true ∧ MemKept s t ∧ FieldsKept [F.ad_SLEEP_REFUSED] s t := by
  have heq : sleep die true (pageAccess (unitOf 0x10 die) s) =
      setb F.ad_SLEEP_REFUSED die 0 true (pageAccess (unitOf 0x10 die) s) := if_pos huse
  refine ⟨setb F.ad_SLEEP_REFUSED die 0 true (pageAccess (unitOf 0x10 die) s), (exec_sleep true hlive).trans (by rw [heq]),
    rdb_setb_self _ _ _ _ _ (by decide), setb_mem _ _ _ _ _ (pageAccess_kept_of _ s).1,
    fieldsKept_of_access (u := unitOf 0x10 die) [104] (by decide) fun n hn => ?_⟩
  exact setb_fld _ _ _ _ _ (by rintro rfl; exact absurd hn (by decide)) (FieldKept.refl n _)

theorem sleep_takes {die : Nat} {v : Bool} {s : State} (hlive : livePage s (unitOf 0x10 die) = true)
    (h : v = false ∨ (dieGroups die).any (groupInUse s) = false) : Completes (.sleep die v) s fun t =>
      rdb t F.ad_SLEEP die 0 = v ∧ MemKept s t ∧ FieldsKept [F.ad_SLEEP] s t := by
  have heq : sleep die v (pageAccess (unitOf 0x10 die) s) = setb F.ad_SLEEP die 0 v (pageAccess (unitOf 0x10 die) s) :=
    if_neg (ne_true_of_eq_false (Bool.and_eq_false_iff.2 h))
  refine ⟨setb F.ad_SLEEP die 0 v (pageAccess (unitOf 0x10 die) s), (exec_sleep v hlive).trans (by rw [heq]),
    rdb_setb_self _ _ _ _ _ (by decide), setb_mem _ _ _ _ _ (pageAccess_kept_of _ s).1,
    fieldsKept_of_access (u := unitOf 0x10 die) [103] (by decide) fun n hn => ?_⟩
  exact setb_fld _ _ _ _ _ (by rintro rfl; exact absurd hn (by decide)) (FieldKept.refl n _)

/-! ### The ledgers on the shelf (R96) -/

/-- A state without its drives, what they hold and what has left the part. -/
def offDrives (s : State) : State := { s with drives := [], shelf := {}, out := [] }

theorem offDrives_drivePump (c : Nat) (s : State) : offDrives (drivePump c s) = offDrives s := by
  rw [drivePump, foldl_emit]
  rfl

theorem offDrives_driveIssue (c : Nat) (os : List DriveCmd) (s : State) : offDrives (driveIssue c os s) = offDrives s := by
  unfold driveIssue
  split
  · rw [offDrives_drivePump]
    rfl
  · rfl

theorem offDrives_driveLedgers (s : State) : offDrives (driveLedgers s) = offDrives s :=
  foldl_same offDrives (fun s c => offDrives_driveIssue c _ s) _ _

theorem smFind_append {κ α : Type} [DecidableEq κ] (k : κ) (m m' : SMap κ α) :
    smFind k (m ++ m') = (smFind k m).or (smFind k m') := by
  induction m with
  | nil => rfl
  | cons e m ih =>
    rw [List.cons_append, smFind, smFind]
    split
    · rfl
    · exact ih

/-- The entry of a ledger that is saved. -/
def ledgerMine (p : Nat → Bool) (k : FKey) : Bool := ledgerField k && p (unitInst k.unit)

theorem ledger_saveLedgers (p : Nat → Bool) (s : State) : (saveLedgers p s).ledger =
    s.ledger.filter (fun kv => !ledgerMine p kv.1) ++ s.flds.filter fun kv => ledgerMine p kv.1 :=
  (congrArg State.ledger (offDrives_driveLedgers _) :)

theorem arrs_saveLedgers (p : Nat → Bool) (s : State) : (saveLedgers p s).arrs = s.arrs :=
  (congrArg State.arrs (offDrives_driveLedgers _) :)

theorem dark_saveLedgers (p : Nat → Bool) (s : State) : (saveLedgers p s).dark = s.dark :=
  (congrArg State.dark (offDrives_driveLedgers _) :)

theorem saveLedgers_saved (p : Nat → Bool) (s : State) : LedgersSaved p s (saveLedgers p s) := by
  intro k hk
  have hmine : ledgerMine p k = p (unitInst k.unit) := by
    have hfield : ledgerField k = true := by
      rw [ledgerField, Bool.or_eq_true, beq_iff_eq, beq_iff_eq]
      exact hk
    rw [ledgerMine, hfield, Bool.true_and]
  rw [ledger_saveLedgers, smFind_append]
  split
  · next hp =>
    rw [smFind_filter_none _ _ _ (fun _ => by rw [hmine, hp]; rfl), smFind_filter _ _ _ (fun _ => hmine.trans hp), Option.none_or]
  · next hp =>
    have hp := eq_false_of_ne_true hp
    rw [smFind_filter _ _ _ (fun _ => by rw [hmine, hp]; rfl), smFind_filter_none _ _ _ (fun _ => hmine.trans hp), Option.or_none]

/-! ### An array die loses its supply (R112) -/

/-- The columns whose writes stop on an array die are shown failed. -/
def stopsShown (die : Nat) (s : State) : State :=
  s.arrs.foldl (fun s a => match a.2.write with
    | some w => if a.1 / 2048 = die && w.running then wrA F.ag_WRITE_STATE die (a.1 % 2048) w.col 6 s else s
    | none => s) s

/-- An array whose die has lost its supply. -/
def ArrX.poweredOff (x : ArrX) : ArrX :=
  { x with
    write := none, swept := x.swept && !x.write.any (·.running)
    sweep := { x.sweep.freshCycle with run := none, verify := false, verifyDue := false } }

/-- The die is dark, and its arrays stand still. -/
def dieDark (die : Nat) (s : State) : State :=
  { s with
    dark := s.dark ++ [die]
    arrs := s.arrs.map fun a => if a.1 / 2048 = die then (a.1, a.2.poweredOff) else a }

/-- A group of a die without supply is not ready. -/
def groupDown (s : State) (g : Nat) : State :=
  setb F.ag_VERIFY_RUNNING g 0 false (setReady (groupUnit g) false 0x0C 0 s)

theorem diePoweredDown_eq (die : Nat) (s : State) : diePoweredDown die s =
    (dieGroups die).foldl groupDown (dieDark die (stopsShown die (saveLedgers (· == die) s))) := rfl

theorem bare_stopsShown (die : Nat) (s : State) : bare (stopsShown die s) = bare s := by
  refine foldl_same bare (fun s a => ?_) _ _
  split
  · split
    · exact bare_wrA _ _ _ _ _ _
    · rfl
  · rfl

theorem arrX_dieDark {die p : Nat} (hp : p < 2048) (s : State) : arrX (dieDark die s) die p = (arrX s die p).poweredOff := by
  have hdie : arrKey die p / 2048 = die := by
    rw [arrKey]
    omega
  have hmap : (fun a : Nat × ArrX => if a.1 / 2048 = die then (a.1, a.2.poweredOff) else a) =
      fun a => (a.1, if a.1 / 2048 = die then a.2.poweredOff else a.2) := by
    funext a
    split <;> rfl
  have hdefault (k : Nat) : (if k / 2048 = die then ({} : ArrX).poweredOff else {}) = {} := by
    split <;> rfl
  rw [arrX, dieDark, hmap]
  exact (nmGet_map (g := fun k x => if k / 2048 = die then ArrX.poweredOff x else x) _ _ (hdefault _)).trans (if_pos hdie)

theorem armRest_groupDown (s : State) (g : Nat) : armRest (groupDown s g) = armRest s := by
  rw [groupDown, armRest_setb, armRest_setReady]

theorem groupReady_groupDown_self (s : State) (g : Nat) : groupReady (groupDown s g) g = false := by
  obtain ⟨hready, -⟩ := setReady_down (groupUnit g) 0x0C 0 s
  rw [groupReady, pageReady, groupDown, rdU_setb_other _ _ _ _ _ _ (by decide), hready]
  rfl

theorem groupReady_groupDown {g' : Nat} (s : State) (g : Nat) (h : groupReady s g' = false) :
    groupReady (groupDown s g) g' = false := by
  by_cases hg : g' = g
  · rw [hg]
    exact groupReady_groupDown_self s g
  · rw [← h]
    apply groupReady_of_rdU
    rw [groupDown, rdU_setb_other _ _ _ _ _ _ (by decide), rdU_setReady_other _ _ _ _ _ _ (.inr (groupUnit_ne hg))]

/-- No write and no conversion is in progress on the array, whose cells hold these levels. -/
def StandsStill (cells : NMap (List Int)) (die p : Nat) (s : State) : Prop :=
  (arrX s die p).write = none ∧ (sweepOf s die p).run = none ∧ (arrX s die p).cells = cells

theorem StandsStill.groupDown {cells : NMap (List Int)} {die p : Nat} {s : State} (h : StandsStill cells die p s) (g : Nat) :
    StandsStill cells die p (Machine.groupDown s g) := by
  obtain ⟨hwrite, hrun, hcells⟩ := h
  obtain ⟨w, heq, hnone⟩ := arrX_setReady (groupUnit g) false 0x0C 0 s die p
  rw [Machine.groupDown, StandsStill, sweepOf_setb, sweepOf_setReady, arrX_setb, heq]
  exact ⟨hnone hwrite, hrun, hcells⟩

theorem dieDark_standsStill {die p : Nat} (hp : p < 2048) (s : State) :
    StandsStill (arrX s die p).cells die p (dieDark die s) := by
  rw [StandsStill, sweepOf, arrX_dieDark hp]
  exact ⟨rfl, rfl, rfl⟩

theorem armRest_groupsDown (gs : List Nat) (s : State) : armRest (gs.foldl groupDown s) = armRest s :=
  foldl_same armRest armRest_groupDown gs s

theorem dark_diePoweredDown (die : Nat) (s : State) : (diePoweredDown die s).dark = s.dark ++ [die] := by
  have hstops : (stopsShown die (saveLedgers (· == die) s)).dark = s.dark :=
    (congrArg State.dark (bare_stopsShown die (saveLedgers (· == die) s)) :).trans (dark_saveLedgers _ s)
  rw [diePoweredDown_eq, dark_of_armRest (armRest_groupsDown _ _), dieDark, hstops]

theorem ledger_diePoweredDown (die : Nat) (s : State) : (diePoweredDown die s).ledger = (saveLedgers (· == die) s).ledger := by
  rw [diePoweredDown_eq, ledger_of_armRest (armRest_groupsDown _ _)]
  exact (congrArg State.ledger (bare_stopsShown die (saveLedgers (· == die) s)) :)

theorem diePoweredDown_standsStill {die p : Nat} (hp : p < 2048) (s : State) :
    StandsStill (arrX s die p).cells die p (diePoweredDown die s) := by
  have hcells : (arrX (stopsShown die (saveLedgers (· == die) s)) die p).cells = (arrX s die p).cells := by
    rw [arrX_of_arrs (arrs_of_bare (bare_stopsShown _ _)), arrX_of_arrs (arrs_saveLedgers _ s)]
  rw [diePoweredDown_eq, ← hcells]
  exact List.foldlRecOn (motive := StandsStill _ die p) _ _ (dieDark_standsStill hp _) fun s hs g _ => hs.groupDown g

theorem diePoweredDown_completes {die : Nat} {s : State} (hdie : die < 16) (hsleep : rdb s F.ad_SLEEP die 0 = true)
    (hdark : s.dark.contains die = false) : Completes (.arrayDiePoweredDown die) s fun t =>
      t.dark = s.dark ++ [die] ∧ LedgersSaved (· == die) s t ∧ (∀ g ∈ dieGroups die, groupReady t g = false) ∧
      (∀ p < 2048, (arrX t die p).write = none ∧ (sweepOf t die p).run = none ∧ (arrX t die p).cells = (arrX s die p).cells) ∧
      MemKept s t ∧ SequencersKept s t := by
  have hgo : die < 16 ∧ rdb s F.ad_SLEEP die 0 = true ∧ (!s.dark.contains die) = true := ⟨hdie, hsleep, by rw [hdark]; rfl⟩
  refine ⟨diePoweredDown die s, ?_, dark_diePoweredDown die s, fun k hk => ?_, fun g hg => ?_,
    fun p hp => diePoweredDown_standsStill hp s, diePoweredDown_mem _ _ (MemKept.refl s), ?_⟩
  · rw [exec, execArrayDiePoweredDown, if_pos hgo]
  · rw [ledger_diePoweredDown]
    exact saveLedgers_saved _ s k hk
  · rw [diePoweredDown_eq]
    exact foldl_reaches (P := fun t => groupReady t g = false) (fun s => groupReady_groupDown_self s g)
      (fun s g' h => groupReady_groupDown s g' h) (.inl hg)
  · exact sequencersKept_of_fields (diePoweredDown_kept die s (Kept.refl s)).variant
      (diePoweredDown_fld _ _ (by decide) (FieldKept.refl _ s)) (diePoweredDown_fld _ _ (by decide) (FieldKept.refl _ s))

/-! ### An array die has its supply back (R109, R112) -/

/-- The ledgers of some dies, before they are read from the shelf. -/
def ledgersDropped (p : Nat → Bool) (s : State) : State :=
  { s with
    flds := s.flds.filter fun kv => !ledgerMine p kv.1
    progBase := s.progBase.filter (fun kv => !p kv.1) ++ s.ledgerBase.filter fun kv => p kv.1 }

/-- One ledger entry, as read from the shelf. -/
def ledgerRead (s : State) (kv : FKey × Nat) : State := { s with flds := smSet FKey.lt kv.1 kv.2 s.flds }

theorem restoreLedgers_eq (p : Nat → Bool) (s : State) :
    restoreLedgers p s = (s.ledger.filter fun kv => ledgerMine p kv.1).foldl ledgerRead (ledgersDropped p s) := rfl

/-- Ledgers aside, no register changes when the ledgers are restored. -/
theorem restoreLedgers_fld {n : Nat} (p : Nat → Bool) (s : State) (hn : [92, 93].contains n = false) :
    FieldKept n s (restoreLedgers p s) := by
  have hmine {k : FKey} (hk : k.fid = n) : ledgerMine p k = false := by
    have hfield : ledgerField k = false := by
      rw [ledgerField, hk, Bool.or_eq_false_iff, beq_eq_false_iff_ne, beq_eq_false_iff_ne]
      exact ⟨by rintro rfl; exact absurd hn (by decide), by rintro rfl; exact absurd hn (by decide)⟩
    rw [ledgerMine, hfield, Bool.false_and]
  have hdropped : FieldKept n s (ledgersDropped p s) :=
    ⟨fun k hk => smFind_filter _ _ _ fun _ => congrArg (!·) (hmine hk)⟩
  rw [restoreLedgers_eq]
  refine FieldKept.foldl_mem _ (fun t kv hkv ht => ⟨fun k hk => ?_⟩) hdropped
  have hne : k ≠ kv.1 := by
    rintro rfl
    exact absurd (List.mem_filter.1 hkv).2 (ne_true_of_eq_false (hmine hk))
  exact (smFind_set_other _ _ _ _ _ hne).trans (ht.same k hk)

theorem armRest_restoreLedgers (p : Nat → Bool) (s : State) : armRest (restoreLedgers p s) = armRest s := by
  rw [restoreLedgers_eq, foldl_same armRest (f := ledgerRead) fun _ _ => rfl]
  rfl

/-- The die has its supply back. -/
def supplied (die : Nat) (s : State) : State := { s with dark := s.dark.filter (· != die) }

/-- The verify of a wake starts on a group (R109). -/
def wakeVerify (s : State) (g : Nat) : State := startVerify g true s

/-- A die with its supply back: its ledgers are restored, and its groups start the verify. -/
def diePoweredUp (die : Nat) (s : State) : State := (dieGroups die).foldl wakeVerify (restoreLedgers (· == die) (supplied die s))

theorem diePoweredUp_fld {n : Nat} (die : Nat) (s : State) (hn : [3, 7, 8, 38, 40, 41, 92, 93].contains n = false) :
    FieldKept n s (diePoweredUp die s) :=
  FieldKept.foldl _ (fun _ _ h => startVerify_fld _ _ _ (sub_ne _ _ (by decide) hn) h)
    (((FieldKept.refl n s).of_eq (t := supplied die s) rfl).trans (restoreLedgers_fld _ _ (sub_ne _ _ (by decide) hn)))

theorem armRest_diePoweredUp (die : Nat) (s : State) : armRest (diePoweredUp die s) = armRest (supplied die s) := by
  rw [diePoweredUp, foldl_same armRest (f := wakeVerify) fun t g => armRest_startVerify g true t, armRest_restoreLedgers]

theorem diePoweredUp_mem (die : Nat) (s : State) : MemKept s (diePoweredUp die s) :=
  List.foldlRecOn (motive := MemKept s) _ _ (restoreLedgers_mem _ _ ((MemKept.refl s).of_eq rfl))
    fun _ ht _ _ => startVerify_mem _ _ _ ht

theorem diePoweredUp_completes {die : Nat} {s : State} (hsleep : rdb s F.ad_SLEEP die 0 = false)
    (hdark : s.dark.contains die = true) : Completes (.arrayDiePoweredUp die) s fun t =>
      t.dark.contains die = false ∧ (∀ g ∈ dieGroups die, VerifyStarted g t) ∧ MemKept s t ∧ SequencersKept s t := by
  have hgo : (s.dark.contains die && !rdb s F.ad_SLEEP die 0) = true := by
    rw [hdark, hsleep]
    rfl
  refine ⟨diePoweredUp die s, ?_, ?_, fun g hg => ?_, diePoweredUp_mem die s, ?_⟩
  · rw [exec, execArrayDiePoweredUp, if_pos hgo]
    rfl
  · rw [dark_of_armRest (armRest_diePoweredUp die s), supplied]
    simp
  · exact foldl_reaches (f := wakeVerify) (P := VerifyStarted g) (fun t => startVerify_started g true t)
      (fun t g' h => VerifyStarted.startVerify g' true t h) (.inl hg)
  · have hvariant : (diePoweredUp die s).variant = (supplied die s).variant := variant_of_armRest (armRest_diePoweredUp die s)
    exact sequencersKept_of_fields hvariant (diePoweredUp_fld die s (by decide)) (diePoweredUp_fld die s (by decide))

/-- Settles O58: a verify of a group and its end, LOAD_HOLD, SLEEP, and an array die that loses its supply and has it back,
each by what its function leaves on the group's arrays and pages. -/
theorem verifyAndSleep : Obligations.VerifyAndSleep := by
  unfold Obligations.VerifyAndSleep
  refine ⟨fun inst s _ hlive => ⟨verifyReq_refuses hlive, verifyReq_verifies hlive⟩,
    fun inst loads s hinst hleft hrun hps hfatal hdark hhold hmixed =>
      verifyComplete_completes loads hps hinst hleft hrun hfatal hdark hhold hmixed,
    fun inst s _ hlive => ⟨loadHold_refuses hlive, loadHold_takes hlive, loadHold_verifies hlive⟩,
    fun die v s _ hlive => ⟨fun hv huse => ?_, sleep_takes hlive⟩,
    fun die s hdie => ⟨diePoweredDown_completes hdie, diePoweredUp_completes⟩⟩
  subst hv
  exact sleep_refuses hlive huse

end Sys2Proof.Machine

namespace Sys2Proof.Machine

open Sys2Proof

/-! ### Maps: what an entry that was set leaves in them -/

section Maps

variable {κ α : Type} [DecidableEq κ] (lt : κ → κ → Bool) (k : κ) (v : α)

theorem smFind_insert_self {m : SMap κ α} (h : ∀ e ∈ m, e.1 ≠ k) : smFind k (smInsert lt k v m) = some v := by
  induction m with
  | nil => exact if_pos rfl
  | cons x m ih =>
    rw [smInsert]
    split
    · exact if_pos rfl
    · rw [smFind, if_neg (h x List.mem_cons_self)]
      exact ih fun e he => h e (List.mem_cons_of_mem _ he)

theorem smFind_set_self (m : SMap κ α) : smFind k (smSet lt k v m) = some v :=
  smFind_insert_self lt k v fun e he => ((mem_smErase k m e).1 he).2

end Maps

/-! ### The pantry slot of a column (R101) -/

/-- Where a column has no other slot, the entry put in its slot is its entry. -/
theorem bypassCol_nmSet {x : ArrX} {j k : Nat} {c : PantryCol} (hj : c.col = j) (honly : ∀ e ∈ x.cols, e.2.col = j → e.1 = k) :
    bypassCol { x with cols := nmSet k c x.cols } j = some c := by
  have hin : (k, c) ∈ nmSet k c x.cols := (mem_smSet natLt k c x.cols _).2 (.inl rfl)
  obtain ⟨e, he⟩ : ∃ e, (nmSet k c x.cols).find? (fun e => e.2.col == j) = some e :=
    Option.isSome_iff_exists.1 (List.find?_isSome.2 ⟨(k, c), hin, beq_iff_eq.2 hj⟩)
  have hcol : (e.2.col == j) = true := List.find?_some (p := fun e : Nat × PantryCol => e.2.col == j) he
  have hentry : e = (k, c) := by
    obtain hentry | ⟨hmem, hne⟩ := (mem_smSet natLt k c x.cols e).1 (List.mem_of_find?_eq_some he)
    · exact hentry
    · exact absurd (honly e hmem (beq_iff_eq.1 hcol)) hne
  have hfound : bypassCol { x with cols := nmSet k c x.cols } j = (some e).map Prod.snd := congrArg (Option.map Prod.snd) he
  rw [hfound, hentry]
  rfl

/-! ### Fields that tell of column commands and writes, and what is decided by the others -/

/-- The counts, latches and shown states of column commands and column writes: SAT bits, REFUSED, REFUSE_CODE, REWRITES,
WRITE_FAILS, EVICT_REFUSED, SCALE_LIMITED, WRITE_SLOTS, WRITE_STATE, QUEUE_DEPTH and DRIFT_MAX. No operation of a column is
decided by them, but that WRITE_STATE is a column's own state. -/
def tellingFields : List Nat := [9, 10, 11, 73, 74, 81, 82, 83, 84, 86, 91, 97, 98]

/-- Every other field reads the same. -/
def ReadsKept (s t : State) : Prop :=
  ∀ (f : Field) (u i : Nat), tellingFields.contains f.fid = false → rdU t f u i = rdU s f u i

theorem number_ne {ns : List Nat} {f : Field} {n : Nat} (hf : ns.contains f.fid = true) (hn : ns.contains n = false) : f.fid ≠ n := by
  rintro rfl
  rw [hf] at hn
  cases hn

theorem ReadsKept.refl (s : State) : ReadsKept s s := fun _ _ _ _ => rfl

theorem ReadsKept.trans {s t v : State} (h : ReadsKept s t) (h' : ReadsKept t v) : ReadsKept s v :=
  fun f u i hf => (h' f u i hf).trans (h f u i hf)

section Kept

variable (s : State)

theorem readsKept_wrU {f : Field} (hf : tellingFields.contains f.fid = true) (u i v : Nat) : ReadsKept s (wrU f u i v s) :=
  fun _ _ _ hg => rdU_wrU_other _ _ _ _ _ _ _ _ (.inl (number_ne hf hg).symm)

theorem readsKept_pageAccess (u : Nat) : ReadsKept s (pageAccess u s) := fun _ _ _ _ => rfl

theorem readsKept_setRefused (inst code : Nat) : ReadsKept s (setRefused inst code s) :=
  (readsKept_wrU s (by decide) _ _ _).trans (readsKept_wrU _ (by decide) _ _ _)

theorem readsKept_setArrX (die p : Nat) (x : ArrX) : ReadsKept s (setArrX die p x s) := fun _ _ _ _ => rfl

theorem readsKept_dequeueColumn (die p j : Nat) : ReadsKept s (dequeueColumn die p j s) := by
  unfold dequeueColumn
  dsimp only
  split
  · exact (readsKept_setArrX s die p _).trans ((readsKept_wrU _ (by decide) _ _ _).trans (readsKept_wrU _ (by decide) _ _ _))
  · exact ReadsKept.refl s

end Kept

section Decided

variable {s t : State} (h : ReadsKept s t)

include h

theorem ReadsKept.rd {f : Field} (hf : tellingFields.contains f.fid = false) (inst i : Nat) :
    Machine.rd t f inst i = Machine.rd s f inst i := h f _ _ hf

theorem ReadsKept.rdb {f : Field} (hf : tellingFields.contains f.fid = false) (inst i : Nat) :
    Machine.rdb t f inst i = Machine.rdb s f inst i := congrArg (· == 1) (h.rd hf inst i)

theorem ReadsKept.rdA {f : Field} (hf : tellingFields.contains f.fid = false) (die p j : Nat) :
    Machine.rdA t f die p j = Machine.rdA s f die p j := h f _ _ hf

theorem ReadsKept.inBypass (die p j : Nat) : Machine.inBypass t die p j = Machine.inBypass s die p j :=
  congrArg (· == 1) (h.rdA (by decide) die p j)

theorem ReadsKept.bypassLimit (die p : Nat) : Machine.bypassLimit t die p = Machine.bypassLimit s die p := by
  have hmarks : marks t die p = marks s die p := by
    unfold marks outlierSlots
    simp only [Bool.false_eq_true, if_false, h.rdA (f := F.ag_OUTLIER_VALID) (by decide), h.rdA (f := F.ag_OUTLIER_ROW) (by decide)]
  rw [Machine.bypassLimit, Machine.bypassLimit, hmarks]

theorem ReadsKept.physOf (die : Nat) : Machine.physOf t die = Machine.physOf s die := funext fun l => h.rd (by decide) die l

theorem ReadsKept.logicalOf (die p : Nat) : Machine.logicalOf t die p = Machine.logicalOf s die p := by
  rw [Machine.logicalOf, Machine.logicalOf, h.physOf]

theorem ReadsKept.groupFor (die p : Nat) : Machine.groupFor t die p = Machine.groupFor s die p := by
  rw [Machine.groupFor, Machine.groupFor, h.logicalOf]

theorem ReadsKept.pageInst (die p : Nat) : Machine.pageInst t die p = Machine.pageInst s die p := by
  rw [Machine.pageInst, Machine.pageInst, h.groupFor, h.rd (by decide)]

theorem ReadsKept.arrayIdle (die p : Nat) : Machine.arrayIdle t die p = Machine.arrayIdle s die p := by
  have hready (g : Nat) : groupReady t g = groupReady s g := groupReady_of_rdU (h _ _ _ (by decide))
  unfold Machine.arrayIdle
  simp only [h.groupFor, hready]

theorem ReadsKept.writeLimits (die : Nat) : Machine.writeLimits t die = Machine.writeLimits s die := by
  unfold Machine.writeLimits
  rw [h.rd (f := F.ad_PRESET) (by decide), h.rd (f := F.ad_RATE_STEPS) (by decide), h.rd (f := F.ad_LIFE_BUDGET) (by decide)]

theorem ReadsKept.progCount (die p j : Nat) : Machine.progCount t die p j = Machine.progCount s die p j := h.rdA (by decide) die p j

theorem ReadsKept.stepNo : Machine.stepNo t = Machine.stepNo s := h.rd (by decide) 0 0

theorem ReadsKept.rateCapped (die p j : Nat) : Machine.rateCapped t die p j = Machine.rateCapped s die p j := by
  rw [Machine.rateCapped, Machine.rateCapped, h.progCount, h.stepNo, h.rdA (by decide), h.writeLimits]

theorem ReadsKept.pantryOwed (hrest : armRest t = armRest s) (die p : Nat) :
    Machine.pantryOwed t die p = Machine.pantryOwed s die p := by
  have hrefreshed : t.refreshed = s.refreshed := (congrArg State.refreshed hrest :)
  have hdue : t.refreshDue = s.refreshDue := (congrArg State.refreshDue hrest :)
  have howed (g : Nat) : refreshOwed t g = refreshOwed s g := by rw [refreshOwed, refreshOwed, hrefreshed, hdue, h.stepNo]
  unfold Machine.pantryOwed
  simp only [h.groupFor, howed]

/-- The columns that count against the limit depend on the fields and on what evictions and writes the array holds. -/
theorem ReadsKept.limitCount {die p : Nat} (hevicting : (arrX t die p).evicting = (arrX s die p).evicting)
    (hwrite : (arrX t die p).write = (arrX s die p).write) : Machine.limitCount t die p = Machine.limitCount s die p := by
  have hbypass : Machine.inBypass t die p = Machine.inBypass s die p := funext (h.inBypass die p)
  rw [Machine.limitCount, Machine.limitCount, limitCols, limitCols, bypassed, bypassed, hbypass, hevicting, hwrite]

theorem ReadsKept.nextRewrite {die p : Nat} (hx : arrX t die p = arrX s die p) :
    Machine.nextRewrite t die p = Machine.nextRewrite s die p := by
  have hallowed (e : Rewrite) : rewriteAllowed t die p e = rewriteAllowed s die p e := by
    have hcount := h.limitCount (congrArg ArrX.evicting hx) (congrArg ArrX.write hx)
    rw [rewriteAllowed, rewriteAllowed, rewriteExempt, rewriteExempt, hx, h.inBypass, hcount, h.bypassLimit, h.progCount,
      h.writeLimits, h.arrayIdle, h.rateCapped, h.rdb (by decide)]
  rw [Machine.nextRewrite, Machine.nextRewrite, hx, funext hallowed]

end Decided

/-! ### The rewrite queue without a column (R99) -/

theorem arrX_dequeueColumn (die p j : Nat) (s : State) : arrX (dequeueColumn die p j s) die p =
    { arrX s die p with queue := (arrX s die p).queue.filter (·.col != j) } := by
  unfold dequeueColumn
  dsimp only
  split
  · rw [arrX_showQueue, arrX_setArrX]
  · next hany =>
    have hsame : (arrX s die p).queue.filter (·.col != j) = (arrX s die p).queue := by
      rw [List.filter_eq_self]
      intro e he
      rw [bne_iff_ne]
      intro hcol
      exact hany (List.any_eq_true.2 ⟨e, he, beq_iff_eq.2 hcol⟩)
    rw [hsame]

theorem rdb_setArrX (die p : Nat) (x : ArrX) (s : State) (f : Field) (inst i : Nat) :
    rdb (setArrX die p x s) f inst i = rdb s f inst i := rfl

theorem rdA_setArrX (die p : Nat) (x : ArrX) (s : State) (f : Field) (die' p' j : Nat) :
    rdA (setArrX die p x s) f die' p' j = rdA s f die' p' j := rfl

theorem armRest_setArrX (die p : Nat) (x : ArrX) (s : State) : armRest (setArrX die p x s) = armRest s := rfl

theorem armRest_dequeueColumn (die p j : Nat) (s : State) : armRest (dequeueColumn die p j s) = armRest s := by
  unfold dequeueColumn
  dsimp only
  split <;> rfl

/-! ### Refused column commands (R102) -/

theorem firstReason_of_head {c : Nat} {b : Bool} {rs : List (Nat × Bool)} (h : b = true) : firstReason ((c, b) :: rs) = c := by
  rw [h]
  rfl

theorem firstReason_of_tail {c : Nat} {b : Bool} {rs : List (Nat × Bool)} (h : b = false) :
    firstReason ((c, b) :: rs) = firstReason rs := by
  rw [h]
  rfl

/-- A command of a group page is refused with a code, and nothing else changes. -/
def RefusedAs (inst code : Nat) (s t : State) : Prop :=
  rdb t F.ag_REFUSED inst 0 = true ∧ rd t F.ag_REFUSE_CODE inst 0 = code ∧ t.arrs = s.arrs ∧ MemKept s t ∧
  FieldsKept [F.ag_REFUSED, F.ag_REFUSE_CODE, F.ag_EVICT_REFUSED, F.com_SAT_LO, F.com_SAT_HI, F.com_SAT_TBL] s t

theorem rdb_setRefused (inst code : Nat) (s : State) : rdb (setRefused inst code s) F.ag_REFUSED inst 0 = (code != 0) :=
  rdb_setb_self _ _ _ _ _ (by decide)

theorem rd_setRefused_code {code : Nat} (inst : Nat) (h : code < 16) (s : State) :
    rd (setRefused inst code s) F.ag_REFUSE_CODE inst 0 = code := by
  have hcode : rd (setRefused inst code s) F.ag_REFUSE_CODE inst 0 = rd (wr F.ag_REFUSE_CODE inst 0 code s) F.ag_REFUSE_CODE inst 0 :=
    rdU_setb_other _ _ _ _ _ _ (by decide)
  rw [hcode, rd_wr_self]
  exact Nat.mod_eq_of_lt h

theorem bare_setRefused (inst code : Nat) (s : State) : bare (setRefused inst code s) = bare s := by
  rw [setRefused, bare_setb, bare_wr]

theorem arrX_setRefused (inst code die p : Nat) (s : State) : arrX (setRefused inst code s) die p = arrX s die p :=
  arrX_of_arrs (arrs_of_bare (bare_setRefused inst code s)) die p

theorem setRefused_refusedAs {inst code : Nat} (h0 : code ≠ 0) (h : code < 16) (s : State) :
    RefusedAs inst code s (setRefused inst code (pageAccess (groupUnit inst) s)) :=
  ⟨(rdb_setRefused _ _ _).trans (bne_iff_ne.2 h0), rd_setRefused_code inst h _, rfl,
    setRefused_mem _ _ _ (pageAccess_kept_of _ s).1, fieldsKept_of_access (u := groupUnit inst) [73, 74] (by decide) fun n hn =>
      setRefused_fld _ _ _ hn (FieldKept.refl n _)⟩

/-! ### Pantry load (R101) -/

theorem exec_loadPantry {inst : Nat} {s : State} (h : livePage s (groupUnit inst) = true) :
    exec (.loadPantry inst) s = .next (loadPantry inst (pageAccess (groupUnit inst) s)) := by
  rw [exec, execLoadPantry, if_pos h]

/-- REFUSE_CODE of a pantry load. -/
def loadCode (inst : Nat) (s : State) : Nat :=
  firstReason [(3, colState s (arraySel s inst).1 (arraySel s inst).2 (rd s F.ag_COLUMN inst 0) != 0 ||
    (slotOfCol (arrX s (arraySel s inst).1 (arraySel s inst).2) (rd s F.ag_COLUMN inst 0)).isSome),
    (1, (freeSlot (arrX s (arraySel s inst).1 (arraySel s inst).2)).isNone)]

theorem loadCode_wrongState {inst : Nat} {s : State}
    (h : colState s (arraySel s inst).1 (arraySel s inst).2 (rd s F.ag_COLUMN inst 0) ≠ 0 ∨
      (slotOfCol (arrX s (arraySel s inst).1 (arraySel s inst).2) (rd s F.ag_COLUMN inst 0)).isSome = true) : loadCode inst s = 3 :=
  firstReason_of_head (Bool.or_eq_true_iff.2 (h.imp_left bne_iff_ne.2))

theorem loadCode_of_free {inst : Nat} {s : State}
    (h : colState s (arraySel s inst).1 (arraySel s inst).2 (rd s F.ag_COLUMN inst 0) = 0)
    (hslot : slotOfCol (arrX s (arraySel s inst).1 (arraySel s inst).2) (rd s F.ag_COLUMN inst 0) = none) :
    loadCode inst s = firstReason [(1, (freeSlot (arrX s (arraySel s inst).1 (arraySel s inst).2)).isNone)] :=
  firstReason_of_tail (by rw [h, hslot]; rfl)

/-- A slot is taken for a column of an array; its masters lie at the DATA_ADDR of a group page. -/
def slotTaken (die p j k inst : Nat) (s : State) : State :=
  setArrX die p { arrX s die p with cols := nmSet k ⟨j, rd s F.ag_DATA_ADDR inst 0, [], false, 0⟩ (arrX s die p).cols } s

/-- The column leaves the rewrite queue if it is the one that firmware takes next. -/
def nextDequeued (die p j : Nat) (s : State) : State := if nextRewrite s die p = some j then dequeueColumn die p j s else s

/-- The load, by its code and the free slot. -/
theorem loadPantry_eq (inst : Nat) (s : State) : loadPantry inst s =
    match loadCode inst s, freeSlot (arrX s (arraySel s inst).1 (arraySel s inst).2) with
    | 0, some k => slotTaken (arraySel s inst).1 (arraySel s inst).2 (rd s F.ag_COLUMN inst 0) k inst
        (nextDequeued (arraySel s inst).1 (arraySel s inst).2 (rd s F.ag_COLUMN inst 0) (setRefused inst (loadCode inst s) s))
    | _, _ => setRefused inst (loadCode inst s) s := rfl

theorem loadPantry_refused {inst code : Nat} {s : State} (h : loadCode inst s = code) (h0 : code ≠ 0) :
    loadPantry inst s = setRefused inst code s := by
  rw [loadPantry_eq, h]
  split
  · exact absurd rfl h0
  · rfl

theorem loadPantry_taken {inst k : Nat} {s : State} (h : loadCode inst s = 0)
    (hk : freeSlot (arrX s (arraySel s inst).1 (arraySel s inst).2) = some k) : loadPantry inst s =
      slotTaken (arraySel s inst).1 (arraySel s inst).2 (rd s F.ag_COLUMN inst 0) k inst
        (nextDequeued (arraySel s inst).1 (arraySel s inst).2 (rd s F.ag_COLUMN inst 0) (setRefused inst 0 s)) := by
  rw [loadPantry_eq, h, hk]
  rfl

section NextDequeued

variable (die p j : Nat) (s : State)

theorem nextDequeued_fld {n : Nat} (hn : [97, 98].contains n = false) : FieldKept n s (nextDequeued die p j s) := by
  unfold nextDequeued
  split
  · exact dequeueColumn_fld _ _ _ _ hn (FieldKept.refl n s)
  · exact FieldKept.refl n s

theorem nextDequeued_mem : MemKept s (nextDequeued die p j s) := by
  unfold nextDequeued
  split
  · exact dequeueColumn_mem _ _ _ _ (MemKept.refl s)
  · exact MemKept.refl s

theorem nextDequeued_variant : (nextDequeued die p j s).variant = s.variant := by
  unfold nextDequeued
  split
  · exact variant_of_armRest (armRest_dequeueColumn die p j s)
  · rfl

end NextDequeued

/-- A slot that is free is taken, and the column is no longer queued where firmware takes it next. -/
theorem loadPantry_takes {inst k : Nat} {s : State} (hlive : livePage s (groupUnit inst) = true) (hcode : loadCode inst s = 0)
    (hk : freeSlot (arrX s (arraySel s inst).1 (arraySel s inst).2) = some k) : Completes (.loadPantry inst) s fun t =>
      smFind k (arrX t (arraySel s inst).1 (arraySel s inst).2).cols =
        some ⟨rd s F.ag_COLUMN inst 0, rd s F.ag_DATA_ADDR inst 0, [], false, 0⟩ ∧ rdb t F.ag_REFUSED inst 0 = false ∧
      (nextRewrite s (arraySel s inst).1 (arraySel s inst).2 = some (rd s F.ag_COLUMN inst 0) →
        ∀ e ∈ (arrX t (arraySel s inst).1 (arraySel s inst).2).queue, e.col ≠ rd s F.ag_COLUMN inst 0) ∧
      MemKept s t ∧ FieldsKept [F.ag_REFUSED, F.ag_REFUSE_CODE, F.ag_QUEUE_DEPTH, F.ag_DRIFT_MAX] s t := by
  let die := (arraySel s inst).1
  let p := (arraySel s inst).2
  let j := rd s F.ag_COLUMN inst 0
  let s1 := setRefused inst 0 (pageAccess (groupUnit inst) s)
  have hreads : ReadsKept s s1 := (readsKept_pageAccess s _).trans (readsKept_setRefused _ inst 0)
  have hx : arrX s1 die p = arrX s die p := arrX_setRefused inst 0 die p _
  have hmem : MemKept s s1 := setRefused_mem _ _ _ (pageAccess_kept_of _ s).1
  have hrun : loadPantry inst (pageAccess (groupUnit inst) s) = slotTaken die p j k inst (nextDequeued die p j s1) :=
    loadPantry_taken hcode hk
  have hslot : arrX (slotTaken die p j k inst (nextDequeued die p j s1)) die p = { arrX (nextDequeued die p j s1) die p with
      cols := nmSet k ⟨j, rd (nextDequeued die p j s1) F.ag_DATA_ADDR inst 0, [], false, 0⟩ (arrX (nextDequeued die p j s1) die p).cols } :=
    arrX_setArrX _ _ _ _
  have haddr : rd (nextDequeued die p j s1) F.ag_DATA_ADDR inst 0 = rd s F.ag_DATA_ADDR inst 0 := by
    rw [rd_of_fieldKept (nextDequeued_fld die p j s1 (by decide)) (nextDequeued_variant die p j s1) (by decide), hreads.rd (by decide)]
  refine ⟨slotTaken die p j k inst (nextDequeued die p j s1), (exec_loadPantry hlive).trans (by rw [hrun]), ?_, ?_, fun hnext e he => ?_,
    setArrX_mem _ _ _ _ (hmem.trans (nextDequeued_mem die p j s1)),
    fieldsKept_of_access (u := groupUnit inst) [73, 74, 97, 98] (by decide) fun n hn => ?_⟩
  · rw [hslot, haddr]
    exact smFind_set_self _ _ _ _
  · have hkept : rdb (nextDequeued die p j s1) F.ag_REFUSED inst 0 = rdb s1 F.ag_REFUSED inst 0 :=
      rdb_of_fieldKept (nextDequeued_fld die p j s1 (by decide)) (nextDequeued_variant die p j s1) (by decide) inst 0
    exact hkept.trans (rdb_setRefused inst 0 _)
  · have hdequeued : nextDequeued die p j s1 = dequeueColumn die p j s1 := if_pos ((hreads.nextRewrite hx).trans hnext)
    rw [hslot, hdequeued, arrX_dequeueColumn] at he
    obtain ⟨-, hne⟩ := List.mem_filter.1 he
    exact bne_iff_ne.1 hne
  · exact setArrX_fld _ _ _ _ _ ((setRefused_fld _ _ _ (sub_ne _ _ (by decide) hn) (FieldKept.refl n _)).trans
      (nextDequeued_fld die p j s1 (sub_ne _ _ (by decide) hn)))

/-! ### Eviction (R101) -/

theorem exec_evict {inst : Nat} {s : State} (h : livePage s (groupUnit inst) = true) :
    exec (.evict inst) s = .next (evict inst (pageAccess (groupUnit inst) s)) := by
  rw [exec, execEvict, if_pos h]

/-- REFUSE_CODE of an eviction. -/
def evictCode (inst : Nat) (s : State) : Nat :=
  firstReason [(3, colState s (arraySel s inst).1 (arraySel s inst).2 (rd s F.ag_COLUMN inst 0) != 1 ||
      (arrX s (arraySel s inst).1 (arraySel s inst).2).evicting.contains (rd s F.ag_COLUMN inst 0)),
    (2, !entersBypass (arrX s (arraySel s inst).1 (arraySel s inst).2) (rd s F.ag_COLUMN inst 0) &&
      decide (bypassLimit s (arraySel s inst).1 (arraySel s inst).2 < limitCount s (arraySel s inst).1 (arraySel s inst).2 + 1))]

theorem evictCode_wrongState {inst : Nat} {s : State}
    (h : colState s (arraySel s inst).1 (arraySel s inst).2 (rd s F.ag_COLUMN inst 0) ≠ 1 ∨
      (arrX s (arraySel s inst).1 (arraySel s inst).2).evicting.contains (rd s F.ag_COLUMN inst 0) = true) : evictCode inst s = 3 :=
  firstReason_of_head (Bool.or_eq_true_iff.2 (h.imp_left bne_iff_ne.2))

theorem evictCode_of_state {inst : Nat} {s : State}
    (h : colState s (arraySel s inst).1 (arraySel s inst).2 (rd s F.ag_COLUMN inst 0) = 1)
    (hnew : (arrX s (arraySel s inst).1 (arraySel s inst).2).evicting.contains (rd s F.ag_COLUMN inst 0) = false) :
    evictCode inst s = firstReason
      [(2, !entersBypass (arrX s (arraySel s inst).1 (arraySel s inst).2) (rd s F.ag_COLUMN inst 0) &&
        decide (bypassLimit s (arraySel s inst).1 (arraySel s inst).2 < limitCount s (arraySel s inst).1 (arraySel s inst).2 + 1))] :=
  firstReason_of_tail (by rw [h, hnew]; rfl)

theorem evict_eq (inst : Nat) (s : State) : evict inst s =
    if evictCode inst s = 0 then setArrX (arraySel s inst).1 (arraySel s inst).2
      { arrX s (arraySel s inst).1 (arraySel s inst).2 with
        evicting := (arrX s (arraySel s inst).1 (arraySel s inst).2).evicting ++ [rd s F.ag_COLUMN inst 0] }
      (setRefused inst (evictCode inst s) s)
    else if evictCode inst s = 2 then sat F.ag_EVICT_REFUSED inst 0 1 (setRefused inst (evictCode inst s) s)
    else setRefused inst (evictCode inst s) s := rfl

theorem evict_wrongState {inst : Nat} {s : State} (h : evictCode inst s = 3) : evict inst s = setRefused inst 3 s := by
  rw [evict_eq, h]
  rfl

theorem evict_overLimit {inst : Nat} {s : State} (h : evictCode inst s = 2) :
    evict inst s = sat F.ag_EVICT_REFUSED inst 0 1 (setRefused inst 2 s) := by
  rw [evict_eq, h]
  rfl

theorem evict_accepted {inst : Nat} {s : State} (h : evictCode inst s = 0) : evict inst s =
    setArrX (arraySel s inst).1 (arraySel s inst).2
      { arrX s (arraySel s inst).1 (arraySel s inst).2 with
        evicting := (arrX s (arraySel s inst).1 (arraySel s inst).2).evicting ++ [rd s F.ag_COLUMN inst 0] }
      (setRefused inst 0 s) := by
  rw [evict_eq, h]
  rfl

/-- A refusal that is counted as well is a refusal. -/
theorem RefusedAs.counted {inst code : Nat} {s t : State} (h : RefusedAs inst code s t) :
    RefusedAs inst code s (sat F.ag_EVICT_REFUSED inst 0 1 t) := by
  obtain ⟨hrefused, hcode, harrs, hmem, hflds⟩ := h
  refine ⟨?_, ?_, (sat_same_arrs _ _ _ _ t).trans harrs, sat_mem _ _ _ _ _ hmem, fun n hn => ?_⟩
  · rw [rdb, rd_sat_other _ _ _ _ _ _ (by decide) (by decide)]
    exact hrefused
  · rw [rd_sat_other _ _ _ _ _ _ (by decide) (by decide)]
    exact hcode
  · have hn' : [83, 9, 10, 11].contains n = false := by
      refine sub_ne _ (List.map (·.fid) [F.ag_REFUSED, F.ag_REFUSE_CODE, F.ag_EVICT_REFUSED, F.com_SAT_LO, F.com_SAT_HI, F.com_SAT_TBL])
        (by decide) ?_
      simpa [List.contains_eq_mem] using hn
    exact sat_fld _ _ _ _ _ (number_ne (by decide) hn') (sub_ne _ _ (by decide) hn') (hflds n hn)

theorem evict_accepts {inst : Nat} {s : State} (hlive : livePage s (groupUnit inst) = true) (h : evictCode inst s = 0) :
    Completes (.evict inst) s fun t =>
      (arrX t (arraySel s inst).1 (arraySel s inst).2).evicting =
        (arrX s (arraySel s inst).1 (arraySel s inst).2).evicting ++ [rd s F.ag_COLUMN inst 0] ∧
      rdb t F.ag_REFUSED inst 0 = false ∧ MemKept s t ∧ FieldsKept [F.ag_REFUSED, F.ag_REFUSE_CODE] s t := by
  let x := arrX s (arraySel s inst).1 (arraySel s inst).2
  let s1 := setRefused inst 0 (pageAccess (groupUnit inst) s)
  have hrun : evict inst (pageAccess (groupUnit inst) s) = setArrX (arraySel s inst).1 (arraySel s inst).2
      { x with evicting := x.evicting ++ [rd s F.ag_COLUMN inst 0] } s1 := evict_accepted h
  refine ⟨setArrX (arraySel s inst).1 (arraySel s inst).2 { x with evicting := x.evicting ++ [rd s F.ag_COLUMN inst 0] } s1,
    (exec_evict hlive).trans (by rw [hrun]), ?_, ?_, setArrX_mem _ _ _ _ (setRefused_mem _ _ _ (pageAccess_kept_of _ s).1),
    fieldsKept_of_access (u := groupUnit inst) [73, 74] (by decide) fun n hn => ?_⟩
  · rw [arrX_setArrX]
  · rw [rdb_setArrX]
    exact rdb_setRefused inst 0 _
  · exact setArrX_fld _ _ _ _ _ (setRefused_fld _ _ _ hn (FieldKept.refl n _))

/-! ### The start of a column write (R94, R96, R101) -/

theorem rdU_sat_other {f g : Field} (inst i k u i' : Nat) (s : State) (h : [f.fid, 9, 10, 11].contains g.fid = false) :
    rdU (sat f inst i k s) g u i' = rdU s g u i' := by
  have hf : g.fid ≠ f.fid := (number_ne (by simp) h).symm
  have hsat (t : State) (pu : Nat) : rdU (setSat f pu t) g u i' = rdU t g u i' := by
    unfold setSat
    split
    · exact rdU_wrU_other _ _ _ _ _ _ _ _ (.inl (number_ne (by simp [F.com_SAT_TBL]) h).symm)
    · dsimp only
      split
      · exact rdU_wrU_other _ _ _ _ _ _ _ _ (.inl (number_ne (by simp [F.com_SAT_LO]) h).symm)
      · exact rdU_wrU_other _ _ _ _ _ _ _ _ (.inl (number_ne (by simp [F.com_SAT_HI]) h).symm)
  unfold sat satU
  dsimp only
  split
  · rw [hsat, rdU_wrU_other _ _ _ _ _ _ _ _ (.inl hf)]
  · exact rdU_wrU_other _ _ _ _ _ _ _ _ (.inl hf)

/-- The ledger of a column, with one more write, in this step. -/
def ledgerWritten (die p j : Nat) (s : State) : State :=
  wrA F.ag_LAST_STEP die p j (stepNo s % 2 ^ 32) (wrA F.ag_PROG_COUNT die p j (rdA s F.ag_PROG_COUNT die p j + 1) s)

/-- A write is counted, and so is one whose levels the clamp cut. -/
def writeCounted (inst : Nat) (limited : Bool) (s : State) : State :=
  let s := sat F.ag_REWRITES inst 0 1 s
  if limited then sat F.ag_SCALE_LIMITED inst 0 1 s else s

/-- The column is in state 3 and in bypass. -/
def writeShown (die p j : Nat) (s : State) : State := wrA F.ag_IN_BYPASS die p j 1 (setColState die p j 3 s)

/-- The fields of a column write that starts. -/
def writeBegun (die p j : Nat) (limited : Bool) (s : State) : State :=
  writeShown die p j (writeCounted (pageInst s die p) limited (ledgerWritten die p j s))

theorem rdU_writeCounted {g : Field} (inst : Nat) (limited : Bool) (u i : Nat) (s : State)
    (h : [81, 84, 9, 10, 11].contains g.fid = false) : rdU (writeCounted inst limited s) g u i = rdU s g u i := by
  have hone : rdU (sat F.ag_REWRITES inst 0 1 s) g u i = rdU s g u i := rdU_sat_other _ _ _ _ _ _ (sub_ne _ _ (by decide) h)
  unfold writeCounted
  dsimp only
  split
  · rw [rdU_sat_other _ _ _ _ _ _ (sub_ne _ _ (by decide) h), hone]
  · exact hone

theorem bare_writeBegun (die p j : Nat) (limited : Bool) (s : State) : bare (writeBegun die p j limited s) = bare s := by
  unfold writeBegun writeShown setColState writeCounted ledgerWritten
  dsimp only
  split <;> simp only [bare_wrA, bare_sat]

/-- The target levels of a write that starts, and whether the clamp acts on any (R91). -/
def writeTargets (die p : Nat) (w : ColWrite) (s : State) : Option (List Int × Bool) :=
  if w.source = 0 then
    targetLevels (Config.paddingRows die ((logicalOf s die p).getD p)) (((bypassCol (arrX s die p) w.col).map (·.vals)).getD [])
      (BitVec.ofNat 16 w.scale)
  else w.levels.map fun l => (l, false)

/-- The clamp acts on a target of a write that starts. -/
def clampActs (die p : Nat) (w : ColWrite) (s : State) : Bool := ((writeTargets die p w s).map (·.2)).getD false

/-- The write that starts, the fields that say so, and what the array keeps. -/
theorem startWrite_eq (die p : Nat) (w : ColWrite) (s : State) : ∃ (limited : Bool) (evicting scaleLimited : List Nat) (w' : ColWrite),
    w'.col = w.col ∧ w'.running = true ∧ startWrite die p w s = setArrX die p { arrX s die p with
      evicting := evicting, swept := false, scaleLimited := scaleLimited, write := some w' } (writeBegun die p w.col limited s) := by
  have hx (limited : Bool) : arrX (writeBegun die p w.col limited s) die p = arrX s die p :=
    arrX_of_arrs (arrs_of_bare (bare_writeBegun die p w.col limited s)) die p
  have hstart : ∃ (limited : Bool) (w' : ColWrite), w'.col = w.col ∧ w'.running = true ∧ startWrite die p w s =
      setArrX die p { arrX (writeBegun die p w.col limited s) die p with
        evicting := (arrX (writeBegun die p w.col limited s) die p).evicting.filter (· != w.col), swept := false
        scaleLimited := (arrX (writeBegun die p w.col limited s) die p).scaleLimited.filter (· != w.col) ++
          (if limited then [w.col] else [])
        write := some w' } (writeBegun die p w.col limited s) :=
    ⟨clampActs die p w s, { w with
      running := true, upTo := nextAp s, levels := (writeTargets die p w s).map (·.1), limited := clampActs die p w s }, rfl, rfl, rfl⟩
  obtain ⟨limited, w', hcol, hrun, heq⟩ := hstart
  rw [hx] at heq
  exact ⟨limited, _, _, w', hcol, hrun, heq⟩

section Started

variable (die p : Nat) (w : ColWrite) (s : State)

theorem colState_startWrite : colState (startWrite die p w s) die p w.col = 3 := by
  obtain ⟨limited, _, _, w', -, -, heq⟩ := startWrite_eq die p w s
  rw [heq, colState, rdA_setArrX, writeBegun, writeShown, rdA_wrA_other _ _ _ _ (.inl (by decide)), setColState, rdA_wrA_self]
  rfl

theorem inBypass_startWrite : inBypass (startWrite die p w s) die p w.col = true := by
  obtain ⟨limited, _, _, w', -, -, heq⟩ := startWrite_eq die p w s
  rw [heq, inBypass, rdA_setArrX, writeBegun, writeShown, rdA_wrA_self]
  rfl

theorem rdA_startWrite {g : Field} (h : [81, 84, 9, 10, 11, 89, 91].contains g.fid = false) (j : Nat) :
    rdA (startWrite die p w s) g die p j = rdA (ledgerWritten die p w.col s) g die p j := by
  obtain ⟨limited, _, _, w', -, -, heq⟩ := startWrite_eq die p w s
  rw [heq, rdA_setArrX, writeBegun, writeShown, rdA_wrA_other _ _ _ _ (.inl (number_ne (by decide) h).symm), setColState,
    rdA_wrA_other _ _ _ _ (.inl (number_ne (by decide) h).symm)]
  exact rdU_writeCounted _ _ _ _ _ (sub_ne _ _ (by decide) h)

theorem progCount_startWrite : rdA (startWrite die p w s) F.ag_PROG_COUNT die p w.col =
    (rdA s F.ag_PROG_COUNT die p w.col + 1) % 2 ^ F.ag_PROG_COUNT.width := by
  rw [rdA_startWrite die p w s (by decide), ledgerWritten, rdA_wrA_other _ _ _ _ (.inl (by decide)), rdA_wrA_self]

theorem lastStep_startWrite : rdA (startWrite die p w s) F.ag_LAST_STEP die p w.col = stepNo s % 2 ^ 32 := by
  rw [rdA_startWrite die p w s (by decide), ledgerWritten, rdA_wrA_self]
  exact Nat.mod_mod _ _

theorem write_startWrite : ∃ w', (arrX (startWrite die p w s) die p).write = some w' ∧ w'.col = w.col ∧ w'.running = true := by
  obtain ⟨limited, _, _, w', hcol, hrun, heq⟩ := startWrite_eq die p w s
  refine ⟨w', ?_, hcol, hrun⟩
  rw [heq, arrX_setArrX]

theorem cells_startWrite : (arrX (startWrite die p w s) die p).cells = (arrX s die p).cells := by
  obtain ⟨limited, _, _, w', -, -, heq⟩ := startWrite_eq die p w s
  rw [heq, arrX_setArrX]

theorem startWrite_sequencers : SequencersKept s (startWrite die p w s) :=
  sequencersKept_of_fields (startWrite_kept die p w s (Kept.refl s)).variant
    (startWrite_fld _ _ _ _ (by decide) (FieldKept.refl _ s)) (startWrite_fld _ _ _ _ (by decide) (FieldKept.refl _ s))

end Started

/-! ### Program (R94, R101) -/

theorem exec_program {inst : Nat} (scale : Nat) (exempt : Bool) {s : State} (h : livePage s (groupUnit inst) = true) :
    exec (.program inst 0 scale exempt) s = .next (programCol inst 0 scale exempt (pageAccess (groupUnit inst) s)) := by
  rw [exec, execProgram, if_pos h]

/-- REFUSE_CODE of a program operation whose targets come from the pantry. -/
def programCode (inst : Nat) (exempt : Bool) (s : State) : Nat :=
  let die := (arraySel s inst).1
  let p := (arraySel s inst).2
  let j := rd s F.ag_COLUMN inst 0
  let x := arrX s die p
  let st := colState s die p j
  firstReason
    [(7, (0 : Nat) == 1 && rdU s F.com_EXPERT_EN (groupUnit inst) 0 == 0),
     (3, !([2, 4, 6].contains st || (arrayIdle s die p && (st == 1 || (st == 0 && (0 : Nat) == 0))))),
     (1, st == 0 && (slotOfCol x j).isNone && (freeSlot x).isNone),
     (2, !inBypass s die p j && !entersBypass x j && decide (bypassLimit s die p < limitCount s die p + 1)),
     (6, x.write.isSome),
     (5, decide ((writeLimits s die).2 ≤ progCount s die p j)),
     (4, !(exempt || arrayIdle s die p) && rateCapped s die p j)]

/-- The write that a program operation asks for. -/
def programWrite (j scale : Nat) (exempt fromZero : Bool) : ColWrite :=
  { col := j, source := 0, scale := scale % 2 ^ 16, exempt := exempt, fromZero := fromZero, running := false, levels := none,
    limited := false }

/-- A write starts if it may. -/
def startedIfMay (die p : Nat) (w : ColWrite) (s : State) : State := if mayStartWrite s die p then startWrite die p w s else s

/-- A program operation that is not refused: the column's masters are read where it has none in the pantry. -/
def programAccepted (die p j addr scale : Nat) (exempt fromZero : Bool) (s : State) : State :=
  let s := if fromZero then partReport addr 1024 s else s
  let x := arrX s die p
  let x := if fromZero then
      match slotFor x j with
      | some k => { x with cols := nmSet k (pantryEntry s die p j addr) x.cols }
      | none => x
    else x
  startedIfMay die p (programWrite j scale exempt fromZero)
    (setArrX die p { x with write := some (programWrite j scale exempt fromZero) } s)

theorem programCol_eq (inst scale : Nat) (exempt : Bool) (s : State) : programCol inst 0 scale exempt s =
    if programCode inst exempt s ≠ 0 then setRefused inst (programCode inst exempt s) s
    else programAccepted (arraySel s inst).1 (arraySel s inst).2 (rd s F.ag_COLUMN inst 0)
      (rd (setRefused inst (programCode inst exempt s) s) F.ag_DATA_ADDR inst 0) scale exempt
      (colState s (arraySel s inst).1 (arraySel s inst).2 (rd s F.ag_COLUMN inst 0) == 0)
      (dequeueColumn (arraySel s inst).1 (arraySel s inst).2 (rd s F.ag_COLUMN inst 0)
        (setRefused inst (programCode inst exempt s) s)) := rfl

theorem programCol_refused {inst scale code : Nat} {exempt : Bool} {s : State} (h : programCode inst exempt s = code)
    (h0 : code ≠ 0) : programCol inst 0 scale exempt s = setRefused inst code s := by
  rw [programCol_eq, h, if_pos h0]

/-- The array has taken a write. -/
def writeTaken (die p : Nat) (w : ColWrite) (s : State) : State := setArrX die p { arrX s die p with write := some w } s

/-- Where the column has masters in the pantry, the write is taken, and starts if it may. -/
theorem programCol_accepted {inst : Nat} (scale : Nat) {exempt : Bool} {s : State} (h : programCode inst exempt s = 0)
    (hst : (colState s (arraySel s inst).1 (arraySel s inst).2 (rd s F.ag_COLUMN inst 0) == 0) = false) :
    programCol inst 0 scale exempt s = startedIfMay (arraySel s inst).1 (arraySel s inst).2
      (programWrite (rd s F.ag_COLUMN inst 0) scale exempt false) (writeTaken (arraySel s inst).1 (arraySel s inst).2
        (programWrite (rd s F.ag_COLUMN inst 0) scale exempt false) (dequeueColumn (arraySel s inst).1 (arraySel s inst).2
          (rd s F.ag_COLUMN inst 0) (setRefused inst 0 s))) := by
  rw [programCol_eq, h, if_neg (not_not.2 rfl), hst]
  rfl

section ProgramCode

variable {inst : Nat} {exempt : Bool} {s : State}
  (hst : colState s (arraySel s inst).1 (arraySel s inst).2 (rd s F.ag_COLUMN inst 0) ∈ [2, 4, 6])

include hst

theorem state_ne_zero : (colState s (arraySel s inst).1 (arraySel s inst).2 (rd s F.ag_COLUMN inst 0) == 0) = false := by
  rw [beq_eq_false_iff_ne]
  intro h
  rw [h] at hst
  exact absurd hst (by decide)

/-- A column that is in bypass or may enter it, in a state in which it may be written, leaves the last three reasons. -/
theorem programCode_of_room
    (hroom : inBypass s (arraySel s inst).1 (arraySel s inst).2 (rd s F.ag_COLUMN inst 0) = true ∨
      entersBypass (arrX s (arraySel s inst).1 (arraySel s inst).2) (rd s F.ag_COLUMN inst 0) = true ∨
      limitCount s (arraySel s inst).1 (arraySel s inst).2 + 1 ≤ bypassLimit s (arraySel s inst).1 (arraySel s inst).2) :
    programCode inst exempt s = firstReason
      [(6, (arrX s (arraySel s inst).1 (arraySel s inst).2).write.isSome),
       (5, decide ((writeLimits s (arraySel s inst).1).2 ≤
          progCount s (arraySel s inst).1 (arraySel s inst).2 (rd s F.ag_COLUMN inst 0))),
       (4, !(exempt || arrayIdle s (arraySel s inst).1 (arraySel s inst).2) &&
          rateCapped s (arraySel s inst).1 (arraySel s inst).2 (rd s F.ag_COLUMN inst 0))] := by
  have hstate : [2, 4, 6].contains (colState s (arraySel s inst).1 (arraySel s inst).2 (rd s F.ag_COLUMN inst 0)) = true :=
    List.contains_iff_mem.2 hst
  have hlimit : (!inBypass s (arraySel s inst).1 (arraySel s inst).2 (rd s F.ag_COLUMN inst 0) &&
      !entersBypass (arrX s (arraySel s inst).1 (arraySel s inst).2) (rd s F.ag_COLUMN inst 0) &&
      decide (bypassLimit s (arraySel s inst).1 (arraySel s inst).2 <
        limitCount s (arraySel s inst).1 (arraySel s inst).2 + 1)) = false := by
    obtain h | h | h := hroom
    · rw [h]
      rfl
    · rw [h, Bool.not_true, Bool.and_false, Bool.false_and]
    · rw [decide_eq_false (Nat.not_lt.2 h), Bool.and_false]
  exact (firstReason_of_tail rfl).trans ((firstReason_of_tail (by rw [hstate]; rfl)).trans
    ((firstReason_of_tail (by rw [state_ne_zero hst]; rfl)).trans (firstReason_of_tail hlimit)))

end ProgramCode

theorem rateCapped_false {s : State} {die p j : Nat} (h : rdA s F.ag_PROG_COUNT die p j = 0 ∨
    (writeLimits s die).1 ≤ (stepNo s + 2 ^ 32 - rdA s F.ag_LAST_STEP die p j) % 2 ^ 32) : rateCapped s die p j = false := by
  rw [rateCapped, progCount]
  obtain h | h := h
  · rw [h]
    rfl
  · rw [decide_eq_false (Nat.not_lt.2 h), Bool.and_false]

/-- The state in which an accepted program operation starts its write. -/
def programReady (die p j inst scale : Nat) (exempt : Bool) (s : State) : State :=
  writeTaken die p (programWrite j scale exempt false) (dequeueColumn die p j (setRefused inst 0 s))

section ProgramReady

variable (die p j inst scale : Nat) (exempt : Bool) (s : State)

theorem readsKept_programReady : ReadsKept s (programReady die p j inst scale exempt s) :=
  ((readsKept_setRefused s inst 0).trans (readsKept_dequeueColumn _ die p j)).trans (readsKept_setArrX _ die p _)

theorem arrX_programReady : arrX (programReady die p j inst scale exempt s) die p = { arrX s die p with
    queue := (arrX s die p).queue.filter (·.col != j), write := some (programWrite j scale exempt false) } := by
  rw [programReady, writeTaken, arrX_setArrX, arrX_dequeueColumn, arrX_setRefused]

theorem mayStartWrite_programReady : mayStartWrite (programReady die p j inst scale exempt s) die p = mayStartWrite s die p := by
  have hdark : (programReady die p j inst scale exempt s).dark = s.dark := by
    rw [programReady, writeTaken, dark_of_armRest (armRest_setArrX _ _ _ _), dark_of_armRest (armRest_dequeueColumn _ _ _ _),
      dark_of_armRest (armRest_of_bare (bare_setRefused _ _ _))]
  rw [mayStartWrite, mayStartWrite, arrX_programReady, hdark]

theorem programReady_mem : MemKept s (programReady die p j inst scale exempt s) :=
  setArrX_mem _ _ _ _ (dequeueColumn_mem _ _ _ _ (setRefused_mem _ _ _ (MemKept.refl s)))

theorem programReady_fld {n : Nat} (hn : [73, 74, 97, 98].contains n = false) :
    FieldKept n s (programReady die p j inst scale exempt s) :=
  setArrX_fld _ _ _ _ _ (dequeueColumn_fld _ _ _ _ (sub_ne _ _ (by decide) hn)
    (setRefused_fld _ _ _ (sub_ne _ _ (by decide) hn) (FieldKept.refl n s)))

theorem programReady_variant : (programReady die p j inst scale exempt s).variant = s.variant :=
  (variant_of_armRest (armRest_dequeueColumn die p j _)).trans (variant_of_bare (bare_setRefused inst 0 s))

theorem rdb_programReady : rdb (programReady die p j inst scale exempt s) F.ag_REFUSED inst 0 = false := by
  rw [programReady, writeTaken, rdb_setArrX, rdb_of_fieldKept (dequeueColumn_fld _ _ _ _ (by decide) (FieldKept.refl _ _))
    (variant_of_armRest (armRest_dequeueColumn _ _ _ _)) (by decide), rdb_setRefused]
  rfl

end ProgramReady

theorem program_starts {inst scale : Nat} {exempt : Bool} {s : State} (hlive : livePage s (groupUnit inst) = true)
    (hmay : mayStartWrite s (arraySel s inst).1 (arraySel s inst).2 = true)
    (hst : colState s (arraySel s inst).1 (arraySel s inst).2 (rd s F.ag_COLUMN inst 0) ∈ [2, 4, 6])
    (hcode : programCode inst exempt s = 0) : Completes (.program inst 0 scale exempt) s fun t =>
      colState t (arraySel s inst).1 (arraySel s inst).2 (rd s F.ag_COLUMN inst 0) = 3 ∧
      inBypass t (arraySel s inst).1 (arraySel s inst).2 (rd s F.ag_COLUMN inst 0) = true ∧
      rdA t F.ag_PROG_COUNT (arraySel s inst).1 (arraySel s inst).2 (rd s F.ag_COLUMN inst 0) =
        (rdA s F.ag_PROG_COUNT (arraySel s inst).1 (arraySel s inst).2 (rd s F.ag_COLUMN inst 0) + 1) % 2 ^ F.ag_PROG_COUNT.width ∧
      rdA t F.ag_LAST_STEP (arraySel s inst).1 (arraySel s inst).2 (rd s F.ag_COLUMN inst 0) = stepNo s % 2 ^ 32 ∧
      rdb t F.ag_REFUSED inst 0 = false ∧
      (∃ w, (arrX t (arraySel s inst).1 (arraySel s inst).2).write = some w ∧ w.col = rd s F.ag_COLUMN inst 0 ∧ w.running = true) ∧
      (arrX t (arraySel s inst).1 (arraySel s inst).2).cells = (arrX s (arraySel s inst).1 (arraySel s inst).2).cells ∧
      MemKept s t ∧ SequencersKept s t := by
  let die := (arraySel s inst).1
  let p := (arraySel s inst).2
  let j := rd s F.ag_COLUMN inst 0
  let w := programWrite j scale exempt false
  let s1 := pageAccess (groupUnit inst) s
  let s2 := programReady die p j inst scale exempt s1
  have hreads : ReadsKept s s2 := (readsKept_pageAccess s _).trans (readsKept_programReady die p j inst scale exempt s1)
  have hstart : startedIfMay die p w s2 = startWrite die p w s2 :=
    if_pos ((mayStartWrite_programReady die p j inst scale exempt s1).trans hmay)
  have hrun : programCol inst 0 scale exempt s1 = startWrite die p w s2 :=
    (programCol_accepted (s := s1) scale hcode (state_ne_zero hst)).trans hstart
  have hseq := startWrite_sequencers die p w s2
  have hkept {n : Nat} (hn : [73, 74, 97, 98].contains n = false) : FieldKept n s s2 :=
    ((pageAccess_kept_of _ s).2 n).trans (programReady_fld die p j inst scale exempt s1 hn)
  have hseq2 : SequencersKept s s2 :=
    sequencersKept_of_fields (programReady_variant die p j inst scale exempt s1) (hkept (by decide)) (hkept (by decide))
  refine ⟨startWrite die p w s2, (exec_program scale exempt hlive).trans (by rw [hrun]), colState_startWrite die p w s2,
    inBypass_startWrite die p w s2, ?_, ?_, ?_, write_startWrite die p w s2, ?_,
    startWrite_mem _ _ _ _ ((pageAccess_kept_of _ s).1.trans (programReady_mem die p j inst scale exempt s1)),
    ⟨fun q r => (hseq.regs q r).trans (hseq2.regs q r), fun q k => (hseq.preds q k).trans (hseq2.preds q k)⟩⟩
  · exact (progCount_startWrite die p w s2).trans (by rw [hreads.rdA (by decide)]; rfl)
  · exact (lastStep_startWrite die p w s2).trans (by rw [hreads.stepNo])
  · rw [rdb_of_fieldKept (startWrite_fld _ _ _ _ (by decide) (FieldKept.refl _ s2)) (startWrite_kept _ _ _ _ (Kept.refl s2)).variant
      (by decide)]
    exact rdb_programReady die p j inst scale exempt s1
  · rw [cells_startWrite]
    exact (congrArg ArrX.cells (arrX_programReady die p j inst scale exempt s1) :)

/-! ### The selection clears (R89, R123) -/

theorem exec_clearSel {inst : Nat} {s : State} (h : livePage s (groupUnit inst) = true) :
    exec (.clearSel inst) s = .next (clearSel inst (pageAccess (groupUnit inst) s)) := by
  rw [exec, execClearSel, if_pos h]

/-- The counts of one converter of an array, cleared. -/
def countsCleared (die p c : Nat) (s : State) : State := wrA F.ag_CONVERSIONS die p c 0 (wrA F.ag_CLIPPED die p c 0 s)

theorem clearSel_eq (inst : Nat) (s : State) : clearSel inst s =
    clearSatBit F.ag_CONVERSIONS (groupUnit inst) (clearSatBit F.ag_CLIPPED (groupUnit inst)
      (countsCleared (arraySel s inst).1 (arraySel s inst).2 (rd s F.ag_CONVERTER inst 0) s)) := rfl

theorem rdA_clearSel {g : Field} (inst die p j : Nat) (s : State) (hg : [9, 10].contains g.fid = false) : rdA (clearSel inst s) g die p j =
    rdA (countsCleared (arraySel s inst).1 (arraySel s inst).2 (rd s F.ag_CONVERTER inst 0) s) g die p j := by
  have hclear (f : Field) (pu : Nat) (t : State) : rdA (clearSatBit f pu t) g die p j = rdA t g die p j := by
    unfold clearSatBit
    dsimp only
    split
    · exact rdU_wrU_other _ _ _ _ _ _ _ _ (.inl (number_ne (by decide) hg).symm)
    · exact rdU_wrU_other _ _ _ _ _ _ _ _ (.inl (number_ne (by decide) hg).symm)
  rw [clearSel_eq, hclear, hclear]

theorem clearSel_completes {inst : Nat} {s : State} (hlive : livePage s (groupUnit inst) = true) :
    Completes (.clearSel inst) s fun t =>
      rdA t F.ag_CONVERSIONS (arraySel s inst).1 (arraySel s inst).2 (rd s F.ag_CONVERTER inst 0) = 0 ∧
      rdA t F.ag_CLIPPED (arraySel s inst).1 (arraySel s inst).2 (rd s F.ag_CONVERTER inst 0) = 0 ∧
      MemKept s t ∧ FieldsKept [F.ag_CONVERSIONS, F.ag_CLIPPED, F.com_SAT_LO, F.com_SAT_HI] s t := by
  let s1 := pageAccess (groupUnit inst) s
  refine ⟨clearSel inst s1, exec_clearSel hlive, (rdA_clearSel inst _ _ _ s1 (by decide)).trans ?_,
    (rdA_clearSel inst _ _ _ s1 (by decide)).trans ?_, clearSel_mem inst s1 (pageAccess_kept_of _ s).1,
    fieldsKept_of_access (u := groupUnit inst) [9, 10, 47, 48] (by decide) fun n hn =>
      clearSel_fld inst s1 hn (FieldKept.refl n s1)⟩
  · exact (rdA_wrA_self _ _ _ _ _ _).trans (Nat.zero_mod _)
  · exact (rdA_wrA_other _ _ _ _ (.inl (by decide))).trans ((rdA_wrA_self _ _ _ _ _ _).trans (Nat.zero_mod _))

theorem exec_auditClear {inst : Nat} {s : State} (h : livePage s (groupUnit inst) = true) :
    exec (.auditClear inst) s = .next (auditClear inst (pageAccess (groupUnit inst) s)) := by
  rw [exec, execAuditClear, if_pos h]

/-- The SAT bit of a count in the upper half of its register is one of SAT_HI. -/
theorem clearSatBit_hi_fld {f : Field} {n : Nat} (pu : Nat) (s : State) (hf : f.lo ≠ 0) (hn : F.com_SAT_HI.fid ≠ n) :
    FieldKept n s (clearSatBit f pu s) := by
  rw [clearSatBit, if_neg hf]
  exact wrU_fld _ _ _ _ _ hn (FieldKept.refl n s)

theorem auditClear_completes {inst : Nat} {s : State} (hlive : livePage s (groupUnit inst) = true) :
    Completes (.auditClear inst) s fun t =>
      rd t F.ag_AUDIT_SSE inst 0 = 0 ∧ rd t F.ag_AUDIT_SAMPLES inst 0 = 0 ∧ MemKept s t ∧
      FieldsKept [F.ag_AUDIT_SSE, F.ag_AUDIT_SAMPLES, F.com_SAT_HI] s t := by
  refine ⟨auditClear inst (pageAccess (groupUnit inst) s), exec_auditClear hlive, ?_, ?_,
    wr_mem _ _ _ _ _ (wr_mem _ _ _ _ _ (clearSatBit_mem _ _ _ (pageAccess_kept_of _ s).1)),
    fieldsKept_of_access (u := groupUnit inst) [10, 50, 51] (by decide) fun n hn => ?_⟩
  · rw [auditClear, rd_wr_self]
    rfl
  · rw [auditClear, rd_wr_other _ _ _ _ _ _ _ _ (by decide), rd_wr_self]
    rfl
  · exact wr_fld _ _ _ _ _ (number_ne (by decide) hn) (wr_fld _ _ _ _ _ (number_ne (by decide) hn)
      (clearSatBit_hi_fld _ _ (by decide) (number_ne (by decide) hn)))

/-! ### A column whose masters have been loaded (R101, R105) -/

/-- The condition on which a loaded column enters bypass. -/
def mayBypass (s : State) (die p j : Nat) : Prop :=
  pantryOwed s die p = false ∧ inBypass s die p j = false ∧ (bypassCol (arrX s die p) j).any (·.loaded) = true ∧
  limitCount s die p + b2n (!entersBypass (arrX s die p) j) ≤ bypassLimit s die p

/-- A column enters bypass from the pantry: state 2. -/
def bypassEntered (die p j : Nat) (s : State) : State :=
  wrA F.ag_IN_BYPASS die p j 1 (setColState die p j 2
    (setArrX die p { arrX s die p with evicting := (arrX s die p).evicting.filter (· != j) } s))

theorem bypassLoaded_entered {die p j : Nat} {s : State} (h : mayBypass s die p j) :
    bypassLoaded die p j s = bypassEntered die p j s := by
  obtain ⟨howed, hbypass, hloaded, hlimit⟩ := h
  refine if_pos ?_
  rw [howed, hbypass, hloaded, decide_eq_true hlimit]
  rfl

theorem bypassLoaded_stays {die p j : Nat} {s : State} (h : ¬mayBypass s die p j) : bypassLoaded die p j s = s := by
  refine if_neg fun hcond => h ?_
  simp only [Bool.and_eq_true, Bool.not_eq_true', decide_eq_true_eq] at hcond
  obtain ⟨⟨⟨howed, hbypass⟩, hloaded⟩, hlimit⟩ := hcond
  exact ⟨howed, hbypass, hloaded, hlimit⟩

/-- A column's masters are in its slot: state 1. -/
def mastersLoaded (die p j k addr : Nat) (s : State) : State :=
  setColState die p j 1 (setArrX die p { arrX s die p with cols := nmSet k (pantryEntry s die p j addr) (arrX s die p).cols } s)

section MastersLoaded

variable (die p j k addr : Nat) (s : State)

theorem arrX_mastersLoaded : arrX (mastersLoaded die p j k addr s) die p =
    { arrX s die p with cols := nmSet k (pantryEntry s die p j addr) (arrX s die p).cols } := arrX_setArrX die p _ s

theorem readsKept_mastersLoaded : ReadsKept s (mastersLoaded die p j k addr s) :=
  (readsKept_setArrX s die p _).trans (readsKept_wrU _ (by decide) _ _ _)

theorem armRest_mastersLoaded : armRest (mastersLoaded die p j k addr s) = armRest s := rfl

theorem colState_mastersLoaded : colState (mastersLoaded die p j k addr s) die p j = 1 := rdA_wrA_self _ _ _ _ _ _

theorem mastersLoaded_mem : MemKept s (mastersLoaded die p j k addr s) := wrA_mem _ _ _ _ _ _ (setArrX_mem _ _ _ _ (MemKept.refl s))

theorem mastersLoaded_fld {n : Nat} (hn : [91].contains n = false) : FieldKept n s (mastersLoaded die p j k addr s) :=
  wrA_fld _ _ _ _ _ _ (number_ne (by decide) hn) (setArrX_fld _ _ _ _ _ (FieldKept.refl n s))

theorem mayBypass_mastersLoaded (honly : ∀ e ∈ (arrX s die p).cols, e.2.col = j → e.1 = k) :
    mayBypass (mastersLoaded die p j k addr s) die p j ↔ inBypass s die p j = false ∧ pantryOwed s die p = false ∧
      limitCount s die p + b2n (!entersBypass (arrX s die p) j) ≤ bypassLimit s die p := by
  have hreads := readsKept_mastersLoaded die p j k addr s
  have hx := arrX_mastersLoaded die p j k addr s
  have hentry : bypassCol (arrX (mastersLoaded die p j k addr s) die p) j = some (pantryEntry s die p j addr) := by
    rw [hx]
    exact bypassCol_nmSet rfl honly
  have hcount : limitCount (mastersLoaded die p j k addr s) die p = limitCount s die p :=
    hreads.limitCount (by rw [hx]) (by rw [hx])
  have henters : entersBypass (arrX (mastersLoaded die p j k addr s) die p) j = entersBypass (arrX s die p) j := by
    rw [hx]
    rfl
  rw [mayBypass, hreads.pantryOwed (armRest_mastersLoaded die p j k addr s), hreads.inBypass, hentry, hcount, henters,
    hreads.bypassLimit]
  exact ⟨fun ⟨howed, hout, _, hlimit⟩ => ⟨hout, howed, hlimit⟩, fun ⟨hout, howed, hlimit⟩ => ⟨howed, hout, rfl, hlimit⟩⟩

end MastersLoaded

section BypassEntered

variable (die p j : Nat) (s : State)

theorem colState_bypassEntered : colState (bypassEntered die p j s) die p j = 2 := by
  rw [bypassEntered, colState, rdA_wrA_other _ _ _ _ (.inl (by decide)), setColState, rdA_wrA_self]
  rfl

theorem inBypass_bypassEntered : inBypass (bypassEntered die p j s) die p j = true := by
  rw [bypassEntered, inBypass, rdA_wrA_self]
  rfl

theorem cols_bypassEntered : (arrX (bypassEntered die p j s) die p).cols = (arrX s die p).cols :=
  (congrArg ArrX.cols (arrX_setArrX die p { arrX s die p with evicting := (arrX s die p).evicting.filter (· != j) } s) :)

end BypassEntered

/-- A column whose masters are there; a permanent one enters bypass if it may. -/
def loadSettled (die p j : Nat) (s : State) : State := if rdA s F.ag_PERMANENT die p j = 1 then bypassLoaded die p j s else s

theorem loadSettled_fld {n : Nat} (die p j : Nat) (s : State) (hn : [89, 91].contains n = false) :
    FieldKept n s (loadSettled die p j s) := by
  unfold loadSettled
  split
  · exact bypassLoaded_fld _ _ _ _ hn (FieldKept.refl n s)
  · exact FieldKept.refl n s

theorem loadSettled_mem (die p j : Nat) (s : State) : MemKept s (loadSettled die p j s) := by
  unfold loadSettled
  split
  · exact bypassLoaded_mem _ _ _ _ (MemKept.refl s)
  · exact MemKept.refl s

theorem loadSettled_entered {die p j : Nat} {s : State} (hperm : rdA s F.ag_PERMANENT die p j = 1) (h : mayBypass s die p j) :
    loadSettled die p j s = bypassEntered die p j s := by
  rw [loadSettled, if_pos hperm, bypassLoaded_entered h]

theorem loadSettled_stays {die p j : Nat} {s : State} (h : ¬(rdA s F.ag_PERMANENT die p j = 1 ∧ mayBypass s die p j)) :
    loadSettled die p j s = s := by
  unfold loadSettled
  split
  · next hperm => exact bypassLoaded_stays fun hmay => h ⟨hperm, hmay⟩
  · rfl

theorem cols_loadSettled (die p j : Nat) (s : State) : (arrX (loadSettled die p j s) die p).cols = (arrX s die p).cols := by
  by_cases h : rdA s F.ag_PERMANENT die p j = 1 ∧ mayBypass s die p j
  · obtain ⟨hperm, hmay⟩ := h
    rw [loadSettled_entered hperm hmay, cols_bypassEntered]
  · rw [loadSettled_stays h]

theorem exec_pantryLoadDone {die p col k : Nat} {c : PantryCol} {s : State} (hslot : slotOfCol (arrX s die p) col = some k)
    (hc : bypassCol (arrX s die p) col = some c) (hnew : c.loaded = false) (hclean : CleanReads [⟨memSpace, c.addr, 1024⟩] s) :
    exec (.pantryLoadDone die p col) s = .next (loadSettled die p col (mastersLoaded die p col k c.addr s)) := by
  rw [exec, execPantryLoadDone]
  dsimp only
  rw [hslot, hc]
  dsimp only
  rw [hnew, if_neg Bool.false_ne_true, partReport_clean hclean]
  rfl

theorem pantryLoadDone_completes {die p col k : Nat} {c : PantryCol} {s : State} (hslot : slotOfCol (arrX s die p) col = some k)
    (hc : bypassCol (arrX s die p) col = some c) (hnew : c.loaded = false) (honly : ∀ e ∈ (arrX s die p).cols, e.2.col = col → e.1 = k)
    (hclean : CleanReads [⟨memSpace, c.addr, 1024⟩] s) : Completes (.pantryLoadDone die p col) s fun t =>
      smFind k (arrX t die p).cols = some (pantryEntry s die p col c.addr) ∧
      ((rdA s F.ag_PERMANENT die p col = 1 ∧ inBypass s die p col = false ∧ pantryOwed s die p = false ∧
          limitCount s die p + b2n (!entersBypass (arrX s die p) col) ≤ bypassLimit s die p) →
        colState t die p col = 2 ∧ inBypass t die p col = true) ∧
      (¬(rdA s F.ag_PERMANENT die p col = 1 ∧ inBypass s die p col = false ∧ pantryOwed s die p = false ∧
          limitCount s die p + b2n (!entersBypass (arrX s die p) col) ≤ bypassLimit s die p) →
        colState t die p col = 1 ∧ FieldKept F.ag_IN_BYPASS.fid s t) ∧ MemKept s t ∧
      FieldsKept [F.ag_WRITE_STATE, F.ag_IN_BYPASS] s t := by
  let s1 := mastersLoaded die p col k c.addr s
  have hperm : rdA s1 F.ag_PERMANENT die p col = rdA s F.ag_PERMANENT die p col :=
    (readsKept_mastersLoaded die p col k c.addr s).rdA (by decide) die p col
  have hmay := mayBypass_mastersLoaded die p col k c.addr s honly
  refine ⟨loadSettled die p col s1, exec_pantryLoadDone hslot hc hnew hclean, ?_, fun henters => ?_, fun hstays => ?_,
    (mastersLoaded_mem die p col k c.addr s).trans (loadSettled_mem die p col s1),
    fieldsKept_of_numbers [89, 91] (by decide) fun n hn =>
      (mastersLoaded_fld die p col k c.addr s (sub_ne _ _ (by decide) hn)).trans (loadSettled_fld die p col s1 hn)⟩
  · rw [cols_loadSettled, arrX_mastersLoaded]
    exact smFind_set_self _ _ _ _
  · obtain ⟨hpermanent, henters⟩ := henters
    rw [loadSettled_entered (hperm.trans hpermanent) (hmay.2 henters)]
    exact ⟨colState_bypassEntered die p col s1, inBypass_bypassEntered die p col s1⟩
  · rw [loadSettled_stays (by rw [hperm, hmay]; exact hstays)]
    exact ⟨colState_mastersLoaded die p col k c.addr s, mastersLoaded_fld die p col k c.addr s (by decide)⟩

/-! ### Evictions take effect (R101) -/

/-- An eviction takes effect: state 2, in bypass. -/
def evictShown (die p : Nat) (s : State) (j : Nat) : State := wrA F.ag_IN_BYPASS die p j 1 (setColState die p j 2 s)

/-- The evictions of an array that take effect, on the columns still in state 1. -/
def evictedNow (die p : Nat) (s : State) : List Nat := (arrX s die p).evicting.filter fun j => colState s die p j == 1

/-- An array whose evictions have taken effect. -/
def evictsApplied (die p : Nat) (s : State) : State :=
  (evictedNow die p s).foldl (evictShown die p) (setArrX die p { arrX s die p with evicting := [] } s)

section Evicted

variable (die p : Nat) (s : State)

theorem evictShown_self (j : Nat) : colState (evictShown die p s j) die p j = 2 ∧ inBypass (evictShown die p s j) die p j = true := by
  rw [evictShown, colState, rdA_wrA_other _ _ _ _ (.inl (by decide)), setColState, rdA_wrA_self, inBypass, rdA_wrA_self]
  exact ⟨rfl, rfl⟩

theorem evictShown_other {j j' : Nat} (h : j' ≠ j) : colState (evictShown die p s j) die p j' = colState s die p j' ∧
    inBypass (evictShown die p s j) die p j' = inBypass s die p j' := by
  rw [evictShown, colState, inBypass, rdA_wrA_other _ _ _ _ (.inr h), setColState, rdA_wrA_other _ _ _ _ (.inr h),
    rdA_wrA_other _ _ _ _ (.inr h), rdA_wrA_other _ _ _ _ (.inr h)]
  exact ⟨rfl, rfl⟩

theorem evictsApplied_evicted {j : Nat} (h : j ∈ evictedNow die p s) :
    colState (evictsApplied die p s) die p j = 2 ∧ inBypass (evictsApplied die p s) die p j = true := by
  refine foldl_reaches (f := evictShown die p) (P := fun t => colState t die p j = 2 ∧ inBypass t die p j = true)
    (fun t => evictShown_self die p t j) (fun t j' ht => ?_) (.inl h)
  by_cases hj : j = j'
  · rw [← hj]
    exact evictShown_self die p t j
  · obtain ⟨hstate, hbypass⟩ := evictShown_other die p t hj
    rw [hstate, hbypass]
    exact ht

theorem evictsApplied_other {j : Nat} (h : j ∉ evictedNow die p s) :
    colState (evictsApplied die p s) die p j = colState s die p j ∧ inBypass (evictsApplied die p s) die p j = inBypass s die p j := by
  refine List.foldlRecOn (motive := fun t => colState t die p j = colState s die p j ∧ inBypass t die p j = inBypass s die p j)
    _ _ ⟨rfl, rfl⟩ fun t ht j' hj' => ?_
  obtain ⟨hstate, hbypass⟩ := evictShown_other die p t (show j ≠ j' by rintro rfl; exact h hj')
  rw [hstate, hbypass]
  exact ht

theorem bare_evictsApplied : bare (evictsApplied die p s) = bare (setArrX die p { arrX s die p with evicting := [] } s) :=
  bare_foldl _ _ fun _ _ => rfl

theorem evictsApplied_fld {n : Nat} (hn : [89, 91].contains n = false) : FieldKept n s (evictsApplied die p s) :=
  FieldKept.foldl _ (fun _ _ h => wrA_fld _ _ _ _ _ _ (number_ne (by decide) hn) (wrA_fld _ _ _ _ _ _ (number_ne (by decide) hn) h))
    (setArrX_fld _ _ _ _ _ (FieldKept.refl n s))

theorem evictsApplied_mem : MemKept s (evictsApplied die p s) :=
  List.foldlRecOn (motive := MemKept s) _ _ (setArrX_mem _ _ _ _ (MemKept.refl s))
    fun _ ht _ _ => wrA_mem _ _ _ _ _ _ (wrA_mem _ _ _ _ _ _ ht)

end Evicted

theorem evictApply_completes {die p : Nat} {s : State} (howed : pantryOwed s die p = false) : Completes (.evictApply die p) s fun t =>
      (∀ j ∈ (arrX s die p).evicting, colState s die p j = 1 → colState t die p j = 2 ∧ inBypass t die p j = true) ∧
      (∀ j < 512, j ∉ (arrX s die p).evicting ∨ colState s die p j ≠ 1 →
        colState t die p j = colState s die p j ∧ inBypass t die p j = inBypass s die p j) ∧ (arrX t die p).evicting = [] ∧
      MemKept s t ∧ FieldsKept [F.ag_WRITE_STATE, F.ag_IN_BYPASS] s t := by
  refine ⟨evictsApplied die p s, ?_, fun j hj hstate => evictsApplied_evicted die p s (List.mem_filter.2 ⟨hj, beq_iff_eq.2 hstate⟩),
    fun j _ hj => evictsApplied_other die p s fun hmem => ?_, ?_, evictsApplied_mem die p s,
    fieldsKept_of_numbers [89, 91] (by decide) fun n hn => evictsApplied_fld die p s hn⟩
  · rw [exec, execEvictApply, if_neg (ne_true_of_eq_false howed)]
    rfl
  · obtain ⟨hevicting, hstate⟩ := List.mem_filter.1 hmem
    exact hj.elim (fun h => h hevicting) fun h => h (beq_iff_eq.1 hstate)
  · rw [arrX_of_arrs (arrs_of_bare (bare_evictsApplied die p s)), arrX_setArrX]

/-! ### A write that waited starts (R95) -/

theorem columnWriteStart_completes {die p : Nat} {w : ColWrite} {s : State} (hw : (arrX s die p).write = some w)
    (hrun : w.running = false) (hmay : mayStartWrite s die p = true) : Completes (.columnWriteStart die p) s fun t =>
      colState t die p w.col = 3 ∧ (∃ w', (arrX t die p).write = some w' ∧ w'.col = w.col ∧ w'.running = true) ∧
      rdA t F.ag_PROG_COUNT die p w.col = (rdA s F.ag_PROG_COUNT die p w.col + 1) % 2 ^ F.ag_PROG_COUNT.width ∧ MemKept s t ∧
      SequencersKept s t := by
  refine ⟨startWrite die p w s, ?_, colState_startWrite die p w s, write_startWrite die p w s, progCount_startWrite die p w s,
    startWrite_mem _ _ _ _ (MemKept.refl s), startWrite_sequencers die p w s⟩
  rw [exec, execColumnWriteStart, hw]
  dsimp only
  rw [hrun, hmay]
  rfl

/-! ### The array of a write that is over -/

/-- No write is on the array, whose cells hold these levels. -/
def WriteOver (cells : NMap (List Int)) (die p : Nat) (s : State) : Prop :=
  (arrX s die p).write = none ∧ (arrX s die p).cells = cells

section WriteOver

variable {cells : NMap (List Int)} {die p : Nat} {s : State}

theorem WriteOver.of_arrs {t : State} (h : WriteOver cells die p s) (harrs : t.arrs = s.arrs) : WriteOver cells die p t := by
  rw [WriteOver, arrX_of_arrs harrs]
  exact h

theorem writeOver_setArrX {x : ArrX} (hwrite : x.write = none) (hcells : x.cells = cells) : WriteOver cells die p (setArrX die p x s) := by
  rw [WriteOver, arrX_setArrX]
  exact ⟨hwrite, hcells⟩

theorem WriteOver.setReady (h : WriteOver cells die p s) (u : Nat) (ready : Bool) (reason detail : Nat) :
    WriteOver cells die p (Machine.setReady u ready reason detail s) := by
  obtain ⟨hwrite, hcells⟩ := h
  obtain ⟨w, heq, hnone⟩ := arrX_setReady u ready reason detail s die p
  rw [WriteOver, heq]
  exact ⟨hnone hwrite, hcells⟩

theorem WriteOver.failCheck (h : WriteOver cells die p s) : WriteOver cells die p (Machine.failCheck die p s) := by
  unfold Machine.failCheck
  split
  · exact h
  · split
    · exact h
    · have hfailed : WriteOver cells die p (setArrX die p { arrX s die p with failed := true } s) := writeOver_setArrX h.1 h.2
      dsimp only
      split
      · exact hfailed.setReady _ _ _ _
      · exact hfailed

theorem WriteOver.bypassLoaded (h : WriteOver cells die p s) (j : Nat) : WriteOver cells die p (Machine.bypassLoaded die p j s) := by
  by_cases hmay : mayBypass s die p j
  · rw [bypassLoaded_entered hmay]
    exact WriteOver.of_arrs (s := setArrX die p { arrX s die p with evicting := (arrX s die p).evicting.filter (· != j) } s)
      (writeOver_setArrX h.1 h.2) rfl
  · rw [bypassLoaded_stays hmay]
    exact h

theorem WriteOver.dequeueColumn (h : WriteOver cells die p s) (j : Nat) : WriteOver cells die p (Machine.dequeueColumn die p j s) := by
  rw [WriteOver, arrX_dequeueColumn]
  exact h

theorem WriteOver.makePermanent (h : WriteOver cells die p s) (j : Nat) : WriteOver cells die p (Machine.makePermanent die p j s) :=
  (((h.of_arrs (t := wrA F.ag_PERMANENT die p j 1 s) rfl).dequeueColumn j).bypassLoaded j).failCheck

theorem WriteOver.freePantry (h : WriteOver cells die p s) (j : Nat) : WriteOver cells die p (Machine.freePantry die p j s) := by
  unfold Machine.freePantry
  dsimp only
  split
  · exact writeOver_setArrX h.1 h.2
  · exact h

end WriteOver

/-! ### What is beside the arrays, when a column is settled -/

section ArmRest

variable (die p j : Nat) (s : State)

theorem armRest_failCheck : armRest (failCheck die p s) = armRest s := by
  unfold failCheck
  split
  · rfl
  · split
    · rfl
    · dsimp only
      split
      · rw [armRest_setReady, armRest_setArrX]
      · rfl

theorem armRest_bypassLoaded : armRest (bypassLoaded die p j s) = armRest s := by
  by_cases hmay : mayBypass s die p j
  · rw [bypassLoaded_entered hmay]
    rfl
  · rw [bypassLoaded_stays hmay]

theorem armRest_makePermanent : armRest (makePermanent die p j s) = armRest s := by
  rw [makePermanent, armRest_failCheck, armRest_bypassLoaded, armRest_dequeueColumn]
  rfl

theorem armRest_freePantry : armRest (freePantry die p j s) = armRest s := by
  unfold freePantry
  dsimp only
  split <;> rfl

end ArmRest

/-! ### A column becomes permanent (R97, R105) -/

section Permanent

variable (die p j : Nat) (s : State)

/-- The column is marked, and no longer queued. -/
def permanentMarked (die p j : Nat) (s : State) : State := dequeueColumn die p j (wrA F.ag_PERMANENT die p j 1 s)

theorem makePermanent_eq : makePermanent die p j s = failCheck die p (bypassLoaded die p j (permanentMarked die p j s)) := rfl

theorem permanentMarked_variant : (permanentMarked die p j s).variant = s.variant :=
  (variant_of_armRest (armRest_dequeueColumn die p j _)).trans (variant_of_bare (bare_wrA _ _ _ _ _ _))

theorem permanentMarked_fld {n : Nat} (hn : [90, 97, 98].contains n = false) : FieldKept n s (permanentMarked die p j s) :=
  dequeueColumn_fld _ _ _ _ (sub_ne _ _ (by decide) hn) (wrA_fld _ _ _ _ _ _ (number_ne (by decide) hn) (FieldKept.refl n s))

theorem permanent_makePermanent : rdA (makePermanent die p j s) F.ag_PERMANENT die p j = 1 := by
  have hkept : FieldKept F.ag_PERMANENT.fid (wrA F.ag_PERMANENT die p j 1 s) (makePermanent die p j s) :=
    failCheck_fld _ _ _ (by decide) (bypassLoaded_fld _ _ _ _ (by decide) (dequeueColumn_fld _ _ _ _ (by decide) (FieldKept.refl _ _)))
  have hvariant : (makePermanent die p j s).variant = (wrA F.ag_PERMANENT die p j 1 s).variant :=
    variant_of_armRest (armRest_makePermanent die p j s)
  rw [rdA_of_fieldKept hkept hvariant (by decide), rdA_wrA_self]
  rfl

/-- A column that is in bypass stays there, in its state. -/
theorem makePermanent_bypassed (h : inBypass s die p j = true) :
    colState (makePermanent die p j s) die p j = colState s die p j ∧ inBypass (makePermanent die p j s) die p j = true := by
  have hmarked : inBypass (permanentMarked die p j s) die p j = true :=
    (congrArg (· == 1) (rdA_of_fieldKept (permanentMarked_fld die p j s (by decide)) (permanentMarked_variant die p j s)
      (by decide) die p j)).trans h
  have hstays : bypassLoaded die p j (permanentMarked die p j s) = permanentMarked die p j s :=
    bypassLoaded_stays fun ⟨_, hout, _⟩ => by
      rw [hmarked] at hout
      cases hout
  have hkept {n : Nat} (hn : [3, 7, 8, 90, 97, 98].contains n = false) : FieldKept n s (makePermanent die p j s) := by
    rw [makePermanent_eq, hstays]
    exact failCheck_fld _ _ _ (sub_ne _ _ (by decide) hn) (permanentMarked_fld die p j s (sub_ne _ _ (by decide) hn))
  have hvariant : (makePermanent die p j s).variant = s.variant := variant_of_armRest (armRest_makePermanent die p j s)
  exact ⟨rdA_of_fieldKept (hkept (by decide)) hvariant (by decide) die p j,
    (congrArg (· == 1) (rdA_of_fieldKept (hkept (by decide)) hvariant (by decide) die p j)).trans h⟩

end Permanent

/-! ### Where a write leaves its column (R94, R101, R105) -/

/-- The levels of an array's cells, by column, after a write. -/
def cellsWritten (w : ColWrite) (held : List Int) (failed : Option Nat) (cells : NMap (List Int)) : NMap (List Int) :=
  match w.levels with
  | some t => nmSet w.col (cellsAfter (nmGet [] w.col cells) t held failed) cells
  | none => cells

theorem cellsWritten_self {w : ColWrite} {levels : List Int} (held : List Int) (failed : Option Nat) (cells : NMap (List Int))
    (h : w.levels = some levels) :
    nmGet [] w.col (cellsWritten w held failed cells) = cellsAfter (nmGet [] w.col cells) levels held failed := by
  rw [cellsWritten, h]
  exact nmGet_set_self _ _ _ _

theorem cellsWritten_other {w : ColWrite} {j : Nat} (held : List Int) (failed : Option Nat) (cells : NMap (List Int))
    (h : j ≠ w.col ∨ w.levels = none) : nmGet [] j (cellsWritten w held failed cells) = nmGet [] j cells := by
  unfold cellsWritten
  split
  · next levels hlevels =>
    have hj : j ≠ w.col := h.resolve_right (by rw [hlevels]; exact Option.some_ne_none _)
    rw [nmGet_set, if_neg hj]
  · rfl

/-- The array after a write, with the tries of its columns that have failed. -/
def arrayWritten (die p : Nat) (w : ColWrite) (held : List Int) (failed : Option Nat) (fails : NMap Nat) (s : State) : State :=
  setArrX die p { arrX s die p with cells := cellsWritten w held failed (arrX s die p).cells, fails := fails } s

/-- A column whose write has succeeded: permanent, released at once, or in state 4. -/
def columnGood (die p j : Nat) (spent : Bool) (s : State) : State :=
  if spent || rdA s F.ag_PERMANENT die p j == 1 then makePermanent die p j (setColState die p j 4 s)
  else if arrayIdle s die p then freePantry die p j (wrA F.ag_IN_BYPASS die p j 0 (setColState die p j 0 s))
  else setColState die p j 4 s

/-- A column whose write has failed: state 6, counted. -/
def failShown (die p j : Nat) (s : State) : State := sat F.ag_WRITE_FAILS (pageInst s die p) 0 1 (setColState die p j 6 s)

/-- It becomes permanent once its ledger or its tries are spent. -/
def columnBad (die p j : Nat) (spent : Bool) (fails : Nat) (s : State) : State :=
  if spent || decide (rd (failShown die p j s) F.ad_RETRY_MAX die 0 < fails) then makePermanent die p j (failShown die p j s)
  else failShown die p j s

/-- The ledger of a column is spent (R97). -/
def ledgerSpent (s : State) (die p j : Nat) : Bool := decide ((writeLimits s die).2 ≤ progCount s die p j)

/-- Its write has succeeded. -/
def writeGood (w : ColWrite) (failed : Option Nat) : Bool := w.levels.isSome && failed.isNone

section Settle

variable {die p : Nat} {w : ColWrite} (held : List Int) {failed : Option Nat} (s : State)

theorem settleColumn_good (h : writeGood w failed = true) : settleColumn die p w held failed s =
    columnGood die p w.col (ledgerSpent s die p w.col)
      (arrayWritten die p w held failed (smErase w.col (arrX s die p).fails) s) := by
  refine (if_pos h).trans ?_
  unfold arrayWritten cellsWritten
  cases w.levels <;> rfl

theorem settleColumn_bad (h : writeGood w failed = false) : settleColumn die p w held failed s =
    columnBad die p w.col (ledgerSpent s die p w.col) (nmGet 0 w.col (arrX s die p).fails + 1)
      (arrayWritten die p w held failed (nmSet w.col (nmGet 0 w.col (arrX s die p).fails + 1) (arrX s die p).fails) s) := by
  refine (if_neg (ne_true_of_eq_false h)).trans ?_
  unfold arrayWritten cellsWritten
  cases w.levels <;> rfl

end Settle

section Column

variable {cells : NMap (List Int)} {die p j : Nat} {s : State}

theorem WriteOver.columnGood (h : WriteOver cells die p s) (spent : Bool) : WriteOver cells die p (Machine.columnGood die p j spent s) := by
  unfold Machine.columnGood
  split
  · exact (h.of_arrs (t := setColState die p j 4 s) rfl).makePermanent j
  · split
    · exact (h.of_arrs (t := wrA F.ag_IN_BYPASS die p j 0 (setColState die p j 0 s)) rfl).freePantry j
    · exact h.of_arrs rfl

theorem arrs_failShown : (failShown die p j s).arrs = s.arrs := arrs_of_bare (bare_sat _ _ _ _ _)

theorem WriteOver.columnBad (h : WriteOver cells die p s) (spent : Bool) (fails : Nat) :
    WriteOver cells die p (Machine.columnBad die p j spent fails s) := by
  have hshown : WriteOver cells die p (failShown die p j s) := h.of_arrs arrs_failShown
  unfold Machine.columnBad
  split
  · exact hshown.makePermanent j
  · exact hshown

theorem armRest_columnGood (spent : Bool) : armRest (Machine.columnGood die p j spent s) = armRest s := by
  unfold Machine.columnGood
  split
  · rw [armRest_makePermanent]
    rfl
  · split
    · rw [armRest_freePantry]
      rfl
    · rfl

theorem armRest_failShown : armRest (failShown die p j s) = armRest s :=
  (armRest_of_bare (bare_sat _ _ _ _ _)).trans (armRest_of_bare (bare_wrA _ _ _ _ _ _))

theorem armRest_columnBad (spent : Bool) (fails : Nat) : armRest (Machine.columnBad die p j spent fails s) = armRest s := by
  unfold Machine.columnBad
  split
  · rw [armRest_makePermanent, armRest_failShown]
  · exact armRest_failShown

/-- A column that is not permanent leaves bypass at once where no product runs on the array. -/
theorem columnGood_idle (hperm : rdA s F.ag_PERMANENT die p j ≠ 1) (hidle : arrayIdle s die p = true) :
    colState (columnGood die p j false s) die p j = 0 ∧ inBypass (columnGood die p j false s) die p j = false := by
  have heq : columnGood die p j false s = freePantry die p j (wrA F.ag_IN_BYPASS die p j 0 (setColState die p j 0 s)) := by
    rw [columnGood, beq_eq_false_iff_ne.2 hperm, if_neg (by decide), if_pos hidle]
  have hkept (n : Nat) : FieldKept n (wrA F.ag_IN_BYPASS die p j 0 (setColState die p j 0 s)) (columnGood die p j false s) := by
    rw [heq]
    exact freePantry_fld _ _ _ _ _ (FieldKept.refl n _)
  have hvariant : (columnGood die p j false s).variant = (wrA F.ag_IN_BYPASS die p j 0 (setColState die p j 0 s)).variant :=
    variant_of_armRest (armRest_columnGood false)
  rw [colState, inBypass, rdA_of_fieldKept (hkept _) hvariant (by decide), rdA_of_fieldKept (hkept _) hvariant (by decide),
    rdA_wrA_other _ _ _ _ (.inl (by decide)), setColState, rdA_wrA_self, rdA_wrA_self]
  exact ⟨rfl, rfl⟩

theorem colState_columnGood_busy (hperm : rdA s F.ag_PERMANENT die p j ≠ 1) (hidle : arrayIdle s die p ≠ true) :
    colState (columnGood die p j false s) die p j = 4 := by
  rw [columnGood, beq_eq_false_iff_ne.2 hperm, if_neg (by decide), if_neg hidle, colState, setColState, rdA_wrA_self]
  rfl

theorem columnGood_permanent {spent : Bool} (h : spent = true ∨ rdA s F.ag_PERMANENT die p j = 1) :
    columnGood die p j spent s = makePermanent die p j (setColState die p j 4 s) :=
  if_pos (Bool.or_eq_true_iff.2 (h.imp_right beq_iff_eq.2))

/-- A permanent column that is in bypass stays there, in state 4. -/
theorem columnGood_bypassed {spent : Bool} (h : spent = true ∨ rdA s F.ag_PERMANENT die p j = 1) (hbypass : inBypass s die p j = true) :
    colState (columnGood die p j spent s) die p j = 4 ∧ inBypass (columnGood die p j spent s) die p j = true := by
  have hset : inBypass (setColState die p j 4 s) die p j = true := by
    rw [inBypass, setColState, rdA_wrA_other _ _ _ _ (.inl (by decide))]
    exact hbypass
  obtain ⟨hstate, hstays⟩ := makePermanent_bypassed die p j _ hset
  rw [columnGood_permanent h]
  refine ⟨?_, hstays⟩
  rw [hstate, colState, setColState, rdA_wrA_self]
  rfl

theorem colState_failShown : colState (failShown die p j s) die p j = 6 := by
  rw [failShown, colState, rdA_sat_other _ _ _ _ _ _ _ (by decide) (by decide), setColState, rdA_wrA_self]
  rfl

theorem readsKept_failShown : ReadsKept s (failShown die p j s) := by
  intro g u i hg
  rw [failShown, rdU_sat_other _ _ _ _ _ _ (sub_ne _ _ (by decide) hg)]
  exact readsKept_wrU s (f := F.ag_WRITE_STATE) (by decide) _ _ _ g u i hg

theorem rd_failShown : rd (failShown die p j s) F.ag_WRITE_FAILS (pageInst s die p) 0 =
    min (rd s F.ag_WRITE_FAILS (pageInst s die p) 0 + 1) (fieldMax F.ag_WRITE_FAILS) := by
  rw [failShown, rd_sat _ _ _ _ _ (by decide), setColState, rd_wrA_other _ _ _ _ (by decide)]

theorem columnBad_permanent {spent : Bool} {fails : Nat} (h : spent = true ∨ rd s F.ad_RETRY_MAX die 0 < fails) :
    columnBad die p j spent fails s = makePermanent die p j (failShown die p j s) := by
  rw [columnBad, readsKept_failShown.rd (by decide)]
  exact if_pos (Bool.or_eq_true_iff.2 (h.imp_right decide_eq_true))

/-- A column in bypass is in state 6 after a write that failed. -/
theorem colState_columnBad {spent : Bool} {fails : Nat} (h : inBypass s die p j = true) :
    colState (columnBad die p j spent fails s) die p j = 6 := by
  unfold columnBad
  split
  · obtain ⟨hstate, -⟩ := makePermanent_bypassed die p j (failShown die p j s) ((readsKept_failShown.inBypass die p j).trans h)
    rw [hstate, colState_failShown]
  · exact colState_failShown

theorem rd_columnBad {spent : Bool} {fails : Nat} : rd (columnBad die p j spent fails s) F.ag_WRITE_FAILS (pageInst s die p) 0 =
    min (rd s F.ag_WRITE_FAILS (pageInst s die p) 0 + 1) (fieldMax F.ag_WRITE_FAILS) := by
  unfold columnBad
  split
  · rw [rd_of_fieldKept (makePermanent_fld _ _ _ _ (by decide) (FieldKept.refl _ _)) (variant_of_armRest (armRest_makePermanent _ _ _ _))
      (by decide), rd_failShown]
  · exact rd_failShown

end Column

section Settled

variable {die p : Nat} {w : ColWrite} (held : List Int) {failed : Option Nat} {s : State}

theorem readsKept_arrayWritten (fails : NMap Nat) : ReadsKept s (arrayWritten die p w held failed fails s) :=
  readsKept_setArrX s die p _

theorem writeOver_arrayWritten (fails : NMap Nat) (h : (arrX s die p).write = none) :
    WriteOver (cellsWritten w held failed (arrX s die p).cells) die p (arrayWritten die p w held failed fails s) :=
  writeOver_setArrX h rfl

theorem writeOver_settleColumn (h : (arrX s die p).write = none) :
    WriteOver (cellsWritten w held failed (arrX s die p).cells) die p (settleColumn die p w held failed s) := by
  cases hgood : writeGood w failed with
  | true =>
    rw [settleColumn_good held s hgood]
    exact (writeOver_arrayWritten held _ h).columnGood _
  | false =>
    rw [settleColumn_bad held s hgood]
    exact (writeOver_arrayWritten held _ h).columnBad _ _

theorem armRest_settleColumn : armRest (settleColumn die p w held failed s) = armRest s := by
  cases hgood : writeGood w failed with
  | true =>
    rw [settleColumn_good held s hgood, armRest_columnGood]
    rfl
  | false =>
    rw [settleColumn_bad held s hgood, armRest_columnBad]
    rfl

theorem settleColumn_released (hgood : writeGood w failed = true) (hspent : ledgerSpent s die p w.col = false)
    (hperm : rdA s F.ag_PERMANENT die p w.col ≠ 1) (hidle : arrayIdle s die p = true) :
    colState (settleColumn die p w held failed s) die p w.col = 0 ∧
    inBypass (settleColumn die p w held failed s) die p w.col = false := by
  rw [settleColumn_good held s hgood, hspent]
  exact columnGood_idle hperm (((readsKept_arrayWritten held _).arrayIdle die p).trans hidle)

theorem colState_settleColumn_busy (hgood : writeGood w failed = true) (hspent : ledgerSpent s die p w.col = false)
    (hperm : rdA s F.ag_PERMANENT die p w.col ≠ 1) (hidle : arrayIdle s die p ≠ true) :
    colState (settleColumn die p w held failed s) die p w.col = 4 := by
  rw [settleColumn_good held s hgood, hspent]
  exact colState_columnGood_busy hperm (((readsKept_arrayWritten held _).arrayIdle die p).trans_ne hidle)

theorem settleColumn_bypassed (hgood : writeGood w failed = true)
    (h : ledgerSpent s die p w.col = true ∨ rdA s F.ag_PERMANENT die p w.col = 1) (hbypass : inBypass s die p w.col = true) :
    colState (settleColumn die p w held failed s) die p w.col = 4 ∧
    inBypass (settleColumn die p w held failed s) die p w.col = true := by
  rw [settleColumn_good held s hgood]
  exact columnGood_bypassed h hbypass

theorem colState_settleColumn_failed (hbad : writeGood w failed = false) (hbypass : inBypass s die p w.col = true) :
    colState (settleColumn die p w held failed s) die p w.col = 6 := by
  rw [settleColumn_bad held s hbad]
  exact colState_columnBad hbypass

theorem rd_settleColumn_fails (hbad : writeGood w failed = false) :
    rd (settleColumn die p w held failed s) F.ag_WRITE_FAILS (pageInst s die p) 0 =
      min (rd s F.ag_WRITE_FAILS (pageInst s die p) 0 + 1) (fieldMax F.ag_WRITE_FAILS) := by
  rw [settleColumn_bad held s hbad]
  exact rd_columnBad

theorem permanent_settleColumn (h : ledgerSpent s die p w.col = true ∨
    (writeGood w failed = false ∧ rd s F.ad_RETRY_MAX die 0 < nmGet 0 w.col (arrX s die p).fails + 1)) :
    rdA (settleColumn die p w held failed s) F.ag_PERMANENT die p w.col = 1 := by
  cases hgood : writeGood w failed with
  | true =>
    have hspent := h.resolve_right fun ⟨hbad, _⟩ => by
      rw [hgood] at hbad
      cases hbad
    rw [settleColumn_good held s hgood, columnGood_permanent (.inl hspent), permanent_makePermanent]
  | false =>
    have hagain : ledgerSpent s die p w.col = true ∨ rd (arrayWritten die p w held failed
        (nmSet w.col (nmGet 0 w.col (arrX s die p).fails + 1) (arrX s die p).fails) s) F.ad_RETRY_MAX die 0 <
          nmGet 0 w.col (arrX s die p).fails + 1 := h.imp_right fun ⟨_, htries⟩ => htries
    rw [settleColumn_bad held s hgood, columnBad_permanent hagain, permanent_makePermanent]

end Settled

/-! ### The end of a column write (R94, R95) -/

/-- The write running on an array ends with alignment period `ap` after `n` slots. -/
def writeEnded (die p n ap : Nat) (s : State) : State :=
  addW F.ag_WRITE_SLOTS (pageInst s die p) 0 n
    (setArrX die p { arrX s die p with write := none } (advanceTo (32 * (ap + 1)) s))

section WriteEnded

variable (die p n ap : Nat) (s : State)

theorem readsKept_writeEnded : ReadsKept s (writeEnded die p n ap s) :=
  ReadsKept.trans (t := setArrX die p { arrX s die p with write := none } (advanceTo (32 * (ap + 1)) s)) (fun _ _ _ _ => rfl)
    (readsKept_wrU _ (by decide) _ _ _)

theorem arrX_writeEnded : arrX (writeEnded die p n ap s) die p = { arrX s die p with write := none } :=
  arrX_setArrX die p _ (advanceTo (32 * (ap + 1)) s)

theorem core_writeEnded : (writeEnded die p n ap s).core = max s.core (32 * (ap + 1)) := Nat.max_comm _ _

theorem rd_writeEnded : rd (writeEnded die p n ap s) F.ag_WRITE_SLOTS (pageInst s die p) 0 =
    (rd s F.ag_WRITE_SLOTS (pageInst s die p) 0 + n) % 2 ^ F.ag_WRITE_SLOTS.width := rd_wr_self _ _ _ _ _

theorem writeEnded_fld {m : Nat} (hm : [86].contains m = false) : FieldKept m s (writeEnded die p n ap s) :=
  addW_fld _ _ _ _ _ (number_ne (by decide) hm) (setArrX_fld _ _ _ _ _ (advanceTo_fld _ _ _ (FieldKept.refl m s)))

theorem writeEnded_mem : MemKept s (writeEnded die p n ap s) :=
  addW_mem _ _ _ _ _ (setArrX_mem _ _ _ _ (advanceTo_mem _ _ (MemKept.refl s)))

theorem writeEnded_variant : (writeEnded die p n ap s).variant = s.variant := rfl

end WriteEnded

/-- A column whose write has succeeded is no longer to be written for a wake (R109). -/
def wakeWritten (die p j : Nat) (good : Bool) (s : State) : State :=
  modSweep die p (fun x => { x with wakeCols := x.wakeCols.filter fun j' => !(j' == j && good) }) s

/-- A verify that waited for the write begins (R86). -/
def waitedVerify (die p : Nat) (s : State) : State :=
  if (sweepOf s die p).verifyDue then beginVerify die p (sweepOf s die p).verifyWake s else s

/-- What the end of a write leaves to the sweep of its array. -/
def writeLeft (die p j : Nat) (good : Bool) (s : State) : State :=
  showOutstandingOf die p (waitedVerify die p (wakeWritten die p j good (voidColumn die p j s)))

/-- The sweep of an array without the measurements that a program operation on column `j` makes void. -/
def sweepVoided (die p j : Nat) (s : State) : SweepX :=
  { sweepOf s die p with
    blocks := smErase j (sweepOf s die p).blocks
    skip := if (sweepPos s die p % 200 != 0 || (sweepOf s die p).run.isSome) && !(sweepOf s die p).skip.contains j then
        (sweepOf s die p).skip ++ [j]
      else (sweepOf s die p).skip }

/-- A complete standby table no longer holds a measurement of the column. -/
def tableVoided (die p j : Nat) (s : State) : State :=
  if rdA s F.ag_STANDBY_READY die p 0 = 1 then wrA F.ag_STBY_MEASURED die p j 0 s else s

theorem voidColumn_eq (die p j : Nat) (s : State) : voidColumn die p j s =
    tableVoided die p j (setArrX die p { arrX s die p with swept := false, sweep := sweepVoided die p j s } s) := rfl

theorem bare_tableVoided (die p j : Nat) (s : State) : bare (tableVoided die p j s) = bare s := by
  unfold tableVoided
  split <;> rfl

section WriteLeft

variable (die p j : Nat) (good : Bool) (s : State)

theorem arrX_voidColumn : arrX (voidColumn die p j s) die p =
    { arrX s die p with swept := false, sweep := sweepVoided die p j s } := by
  rw [voidColumn_eq, arrX_of_arrs (arrs_of_bare (bare_tableVoided _ _ _ _)), arrX_setArrX]

theorem arrX_modSweep (f : SweepX → SweepX) : arrX (modSweep die p f s) die p =
    { arrX s die p with sweep := f (sweepOf s die p) } := arrX_setArrX _ _ _ _

theorem arrX_waitedVerify : ∃ sweep, arrX (waitedVerify die p s) die p = { arrX s die p with sweep := sweep } := by
  unfold waitedVerify
  split
  · exact ⟨verifyBegun (sweepOf s die p).verifyWake (sweepOf s die p), arrX_modSweep die p s (verifyBegun (sweepOf s die p).verifyWake)⟩
  · exact ⟨(arrX s die p).sweep, rfl⟩

/-- The array's sweep alone may change, and the array is as not swept since. -/
theorem arrX_writeLeft : ∃ sweep, arrX (writeLeft die p j good s) die p = { arrX s die p with swept := false, sweep := sweep } := by
  obtain ⟨sweep, hverify⟩ := arrX_waitedVerify die p (wakeWritten die p j good (voidColumn die p j s))
  refine ⟨sweep, ?_⟩
  rw [writeLeft, arrX_of_arrs (arrs_of_bare (bare_showOutstandingOf _ _ _)), hverify, wakeWritten, arrX_modSweep, arrX_voidColumn]

theorem armRest_voidColumn : armRest (voidColumn die p j s) = armRest s := by
  rw [voidColumn_eq, armRest_of_bare (bare_tableVoided _ _ _ _), armRest_setArrX]

theorem armRest_waitedVerify : armRest (waitedVerify die p s) = armRest s := by
  unfold waitedVerify
  split <;> rfl

theorem armRest_writeLeft : armRest (writeLeft die p j good s) = armRest s := by
  rw [writeLeft, armRest_of_bare (bare_showOutstandingOf _ _ _), armRest_waitedVerify, wakeWritten, modSweep, armRest_setArrX,
    armRest_voidColumn]

theorem writeLeft_fld {m : Nat} (hm : [8, 38, 41, 58].contains m = false) : FieldKept m s (writeLeft die p j good s) := by
  have hwake : FieldKept m s (wakeWritten die p j good (voidColumn die p j s)) :=
    modSweep_fld _ _ _ _ _ (voidColumn_fld _ _ _ _ (sub_ne _ _ (by decide) hm) (FieldKept.refl m s))
  refine showOutstandingOf_fld _ _ _ (sub_ne _ _ (by decide) hm) ?_
  unfold waitedVerify
  split
  · exact beginVerify_fld _ _ _ _ (sub_ne _ _ (by decide) hm) hwake
  · exact hwake

theorem writeLeft_mem : MemKept s (writeLeft die p j good s) := by
  have hwake : MemKept s (wakeWritten die p j good (voidColumn die p j s)) :=
    modSweep_mem _ _ _ _ (voidColumn_mem _ _ _ _ (MemKept.refl s))
  refine showOutstandingOf_mem _ _ _ ?_
  unfold waitedVerify
  split
  · exact beginVerify_mem _ _ _ _ hwake
  · exact hwake

theorem writeLeft_variant : (writeLeft die p j good s).variant = s.variant := variant_of_armRest (armRest_writeLeft die p j good s)

end WriteLeft

/-- The state in which a write that ran to its end leaves the part. -/
def writeDone (die p : Nat) (w : ColWrite) (iters : List Nat) (held : List Int) (ap : Nat) (s : State) : State :=
  writeLeft die p w.col (writeGood w (writeRun s die w iters).2)
    (settleColumn die p w held (writeRun s die w iters).2 (writeEnded die p (writeRun s die w iters).1 ap s))

theorem exec_columnWriteDone {die p ap : Nat} {w : ColWrite} {iters : List Nat} (held : List Int) {s : State}
    (hw : (arrX s die p).write = some w) (hrun : w.running = true) (hdark : s.dark.contains die = false)
    (hends : writeEnds s die p w (writeRun s die w iters).1 ap = true) :
    exec (.columnWriteDone die p iters held ap) s = .next (writeDone die p w iters held ap s) := by
  rw [exec, execColumnWriteDone, hw]
  dsimp only
  rw [hrun, hdark, hends]
  rfl

section Done

variable {die p : Nat} {w : ColWrite} {iters : List Nat} {held : List Int} {ap : Nat} {s : State}

/-- The end of a write changes only the fields that settle its column and those of the array's sweep. -/
theorem writeDone_fld {m : Nat} (hm : [3, 7, 8, 9, 10, 11, 38, 41, 58, 82, 86, 89, 90, 91, 97, 98].contains m = false) :
    FieldKept m s (writeDone die p w iters held ap s) :=
  ((writeEnded_fld die p _ ap s (sub_ne _ _ (by decide) hm)).trans
    (settleColumn_fld _ _ _ _ _ _ (sub_ne _ _ (by decide) hm) (FieldKept.refl m _))).trans
      (writeLeft_fld die p _ _ _ (sub_ne _ _ (by decide) hm))

theorem armRest_writeDone : armRest (writeDone die p w iters held ap s) = armRest (writeEnded die p (writeRun s die w iters).1 ap s) := by
  rw [writeDone, armRest_writeLeft, armRest_settleColumn]

theorem core_writeDone : (writeDone die p w iters held ap s).core = max s.core (32 * (ap + 1)) :=
  (core_of_armRest armRest_writeDone).trans (core_writeEnded die p _ ap s)

theorem writeDone_mem : MemKept s (writeDone die p w iters held ap s) :=
  ((writeEnded_mem die p _ ap s).trans (settleColumn_mem _ _ _ _ _ _ (MemKept.refl _))).trans (writeLeft_mem die p _ _ _)

theorem writeDone_sequencers : SequencersKept s (writeDone die p w iters held ap s) :=
  sequencersKept_of_fields ((variant_of_armRest armRest_writeDone).trans (writeEnded_variant die p _ ap s))
    (writeDone_fld (by decide)) (writeDone_fld (by decide))

theorem arrX_writeDone : (arrX (writeDone die p w iters held ap s) die p).write = none ∧
    (arrX (writeDone die p w iters held ap s) die p).swept = false ∧
    (arrX (writeDone die p w iters held ap s) die p).cells = cellsWritten w held (writeRun s die w iters).2 (arrX s die p).cells := by
  have hended := arrX_writeEnded die p (writeRun s die w iters).1 ap s
  obtain ⟨hwrite, hcells⟩ := writeOver_settleColumn (w := w) held (failed := (writeRun s die w iters).2)
    (s := writeEnded die p (writeRun s die w iters).1 ap s) (by rw [hended])
  obtain ⟨sweep, hleft⟩ := arrX_writeLeft die p w.col (writeGood w (writeRun s die w iters).2)
    (settleColumn die p w held (writeRun s die w iters).2 (writeEnded die p (writeRun s die w iters).1 ap s))
  rw [writeDone, hleft]
  refine ⟨hwrite, rfl, hcells.trans ?_⟩
  rw [hended]

/-- Where the sweep of the array has no part in it, a field of the array is as the column was left. -/
theorem rdA_writeDone {f : Field} (hf : [8, 38, 41, 58].contains f.fid = false) (hprog : f.fid ≠ F.ag_PROG_COUNT.fid) (j : Nat) :
    rdA (writeDone die p w iters held ap s) f die p j = rdA (settleColumn die p w held (writeRun s die w iters).2
      (writeEnded die p (writeRun s die w iters).1 ap s)) f die p j :=
  rdA_of_fieldKept (writeLeft_fld die p _ _ _ hf) (writeLeft_variant die p _ _ _) hprog die p j

theorem colState_writeDone (j : Nat) : colState (writeDone die p w iters held ap s) die p j =
    colState (settleColumn die p w held (writeRun s die w iters).2 (writeEnded die p (writeRun s die w iters).1 ap s)) die p j :=
  rdA_writeDone (by decide) (by decide) j

theorem inBypass_writeDone (j : Nat) : inBypass (writeDone die p w iters held ap s) die p j =
    inBypass (settleColumn die p w held (writeRun s die w iters).2 (writeEnded die p (writeRun s die w iters).1 ap s)) die p j :=
  congrArg (· == 1) (rdA_writeDone (by decide) (by decide) j)

theorem slots_writeDone : rd (writeDone die p w iters held ap s) F.ag_WRITE_SLOTS (pageInst s die p) 0 =
    (rd s F.ag_WRITE_SLOTS (pageInst s die p) 0 + (writeRun s die w iters).1) % 2 ^ F.ag_WRITE_SLOTS.width := by
  have hkept : FieldKept F.ag_WRITE_SLOTS.fid (writeEnded die p (writeRun s die w iters).1 ap s) (writeDone die p w iters held ap s) :=
    (settleColumn_fld _ _ _ _ _ _ (by decide) (FieldKept.refl _ _)).trans (writeLeft_fld die p _ _ _ (by decide))
  rw [rd_of_fieldKept hkept (variant_of_armRest armRest_writeDone) (by decide), rd_writeEnded]

theorem ledgerSpent_writeEnded (n : Nat) : ledgerSpent (writeEnded die p n ap s) die p w.col = ledgerSpent s die p w.col := by
  have hreads := readsKept_writeEnded die p n ap s
  rw [ledgerSpent, ledgerSpent, hreads.writeLimits, hreads.progCount]

theorem writeDone_released (hgood : writeGood w (writeRun s die w iters).2 = true) (hspent : ledgerSpent s die p w.col = false)
    (hperm : rdA s F.ag_PERMANENT die p w.col ≠ 1) (hidle : arrayIdle s die p = true) :
    colState (writeDone die p w iters held ap s) die p w.col = 0 ∧ inBypass (writeDone die p w iters held ap s) die p w.col = false := by
  have hreads := readsKept_writeEnded die p (writeRun s die w iters).1 ap s
  rw [colState_writeDone, inBypass_writeDone]
  exact settleColumn_released held hgood ((ledgerSpent_writeEnded _).trans hspent) ((hreads.rdA (by decide) die p w.col).trans_ne hperm)
    ((hreads.arrayIdle die p).trans hidle)

theorem writeDone_busy (hgood : writeGood w (writeRun s die w iters).2 = true) (hspent : ledgerSpent s die p w.col = false)
    (hperm : rdA s F.ag_PERMANENT die p w.col ≠ 1) (hidle : arrayIdle s die p ≠ true) :
    colState (writeDone die p w iters held ap s) die p w.col = 4 := by
  have hreads := readsKept_writeEnded die p (writeRun s die w iters).1 ap s
  rw [colState_writeDone]
  exact colState_settleColumn_busy held hgood ((ledgerSpent_writeEnded _).trans hspent)
    ((hreads.rdA (by decide) die p w.col).trans_ne hperm) ((hreads.arrayIdle die p).trans_ne hidle)

theorem writeDone_bypassed (hgood : writeGood w (writeRun s die w iters).2 = true) (hbypass : inBypass s die p w.col = true)
    (h : ledgerSpent s die p w.col = true ∨ rdA s F.ag_PERMANENT die p w.col = 1) :
    colState (writeDone die p w iters held ap s) die p w.col = 4 ∧ inBypass (writeDone die p w iters held ap s) die p w.col = true := by
  have hreads := readsKept_writeEnded die p (writeRun s die w iters).1 ap s
  rw [colState_writeDone, inBypass_writeDone]
  exact settleColumn_bypassed held hgood (h.imp (ledgerSpent_writeEnded _).trans (hreads.rdA (by decide) die p w.col).trans)
    ((hreads.inBypass die p w.col).trans hbypass)

theorem writeDone_failed (hbad : writeGood w (writeRun s die w iters).2 = false) (hbypass : inBypass s die p w.col = true) :
    colState (writeDone die p w iters held ap s) die p w.col = 6 := by
  rw [colState_writeDone]
  exact colState_settleColumn_failed held hbad (((readsKept_writeEnded die p _ ap s).inBypass die p w.col).trans hbypass)

theorem fails_writeDone (hbad : writeGood w (writeRun s die w iters).2 = false) :
    rd (writeDone die p w iters held ap s) F.ag_WRITE_FAILS (pageInst s die p) 0 =
      min (rd s F.ag_WRITE_FAILS (pageInst s die p) 0 + 1) (fieldMax F.ag_WRITE_FAILS) := by
  have hreads := readsKept_writeEnded die p (writeRun s die w iters).1 ap s
  have hcount : rd (writeEnded die p (writeRun s die w iters).1 ap s) F.ag_WRITE_FAILS (pageInst s die p) 0 =
      rd s F.ag_WRITE_FAILS (pageInst s die p) 0 :=
    rd_of_fieldKept (writeEnded_fld die p _ ap s (by decide)) (writeEnded_variant die p _ ap s) (by decide) _ _
  have hsettled := rd_settleColumn_fails (die := die) (p := p) held (s := writeEnded die p (writeRun s die w iters).1 ap s) hbad
  rw [hreads.pageInst, hcount] at hsettled
  rw [← hsettled]
  exact rd_of_fieldKept (writeLeft_fld die p _ _ _ (by decide)) (writeLeft_variant die p _ _ _) (by decide) _ _

theorem permanent_writeDone (h : ledgerSpent s die p w.col = true ∨ (writeGood w (writeRun s die w iters).2 = false ∧
      rd s F.ad_RETRY_MAX die 0 < nmGet 0 w.col (arrX s die p).fails + 1)) :
    rdA (writeDone die p w iters held ap s) F.ag_PERMANENT die p w.col = 1 := by
  have hreads := readsKept_writeEnded die p (writeRun s die w iters).1 ap s
  rw [rdA_writeDone (by decide) (by decide)]
  refine permanent_settleColumn held (h.imp (ledgerSpent_writeEnded _).trans fun ⟨hbad, htries⟩ => ⟨hbad, ?_⟩)
  rw [hreads.rd (by decide), arrX_writeEnded]
  exact htries

end Done

/-! ### The refusals -/

theorem refuses_loadPantry {inst code : Nat} {s : State} (hlive : livePage s (groupUnit inst) = true) (hcode : loadCode inst s = code)
    (h0 : code ≠ 0) (h : code < 16) : Completes (.loadPantry inst) s (RefusedAs inst code s) :=
  ⟨setRefused inst code (pageAccess (groupUnit inst) s),
    (exec_loadPantry hlive).trans (congrArg Host.Outcome.next (loadPantry_refused (s := pageAccess (groupUnit inst) s) hcode h0)),
    setRefused_refusedAs h0 h s⟩

theorem refuses_evict_wrongState {inst : Nat} {s : State} (hlive : livePage s (groupUnit inst) = true) (hcode : evictCode inst s = 3) :
    Completes (.evict inst) s (RefusedAs inst 3 s) :=
  ⟨setRefused inst 3 (pageAccess (groupUnit inst) s),
    (exec_evict hlive).trans (congrArg Host.Outcome.next (evict_wrongState (s := pageAccess (groupUnit inst) s) hcode)),
    setRefused_refusedAs (by decide) (by decide) s⟩

theorem refuses_evict_overLimit {inst : Nat} {s : State} (hlive : livePage s (groupUnit inst) = true) (hcode : evictCode inst s = 2) :
    Completes (.evict inst) s (RefusedAs inst 2 s) :=
  ⟨sat F.ag_EVICT_REFUSED inst 0 1 (setRefused inst 2 (pageAccess (groupUnit inst) s)),
    (exec_evict hlive).trans (congrArg Host.Outcome.next (evict_overLimit (s := pageAccess (groupUnit inst) s) hcode)),
    (setRefused_refusedAs (by decide) (by decide) s).counted⟩

theorem refuses_program {inst scale code : Nat} {exempt : Bool} {s : State} (hlive : livePage s (groupUnit inst) = true)
    (hcode : programCode inst exempt s = code) (h0 : code ≠ 0) (h : code < 16) :
    Completes (.program inst 0 scale exempt) s (RefusedAs inst code s) :=
  ⟨setRefused inst code (pageAccess (groupUnit inst) s), (exec_program scale exempt hlive).trans
    (congrArg Host.Outcome.next (programCol_refused (s := pageAccess (groupUnit inst) s) hcode h0)), setRefused_refusedAs h0 h s⟩

/-- An eviction of a column in state 1 whose eviction does not wait is refused where the limit leaves no room for it. -/
theorem evictCode_overLimit {inst : Nat} {s : State}
    (hst : colState s (arraySel s inst).1 (arraySel s inst).2 (rd s F.ag_COLUMN inst 0) = 1)
    (hnew : (arrX s (arraySel s inst).1 (arraySel s inst).2).evicting.contains (rd s F.ag_COLUMN inst 0) = false)
    (henters : entersBypass (arrX s (arraySel s inst).1 (arraySel s inst).2) (rd s F.ag_COLUMN inst 0) = false)
    (hlimit : bypassLimit s (arraySel s inst).1 (arraySel s inst).2 < limitCount s (arraySel s inst).1 (arraySel s inst).2 + 1) :
    evictCode inst s = 2 :=
  (evictCode_of_state hst hnew).trans (firstReason_of_head (by rw [henters, decide_eq_true hlimit]; rfl))

theorem evictCode_room {inst : Nat} {s : State}
    (hst : colState s (arraySel s inst).1 (arraySel s inst).2 (rd s F.ag_COLUMN inst 0) = 1)
    (hnew : (arrX s (arraySel s inst).1 (arraySel s inst).2).evicting.contains (rd s F.ag_COLUMN inst 0) = false)
    (hroom : entersBypass (arrX s (arraySel s inst).1 (arraySel s inst).2) (rd s F.ag_COLUMN inst 0) = true ∨
      limitCount s (arraySel s inst).1 (arraySel s inst).2 + 1 ≤ bypassLimit s (arraySel s inst).1 (arraySel s inst).2) :
    evictCode inst s = 0 := by
  refine (evictCode_of_state hst hnew).trans (firstReason_of_tail ?_)
  obtain henters | hlimit := hroom
  · rw [henters]
    rfl
  · rw [decide_eq_false (Nat.not_lt.2 hlimit), Bool.and_false]

/-- A program operation finds no reason against it where no write runs and the ledger allows one. -/
theorem programCode_accepted {inst : Nat} {exempt : Bool} {s : State}
    (hwrite : (arrX s (arraySel s inst).1 (arraySel s inst).2).write = none)
    (hst : colState s (arraySel s inst).1 (arraySel s inst).2 (rd s F.ag_COLUMN inst 0) ∈ [2, 4, 6])
    (hroom : inBypass s (arraySel s inst).1 (arraySel s inst).2 (rd s F.ag_COLUMN inst 0) = true ∨
      (arrX s (arraySel s inst).1 (arraySel s inst).2).evicting.contains (rd s F.ag_COLUMN inst 0) = true ∨
      limitCount s (arraySel s inst).1 (arraySel s inst).2 + 1 ≤ bypassLimit s (arraySel s inst).1 (arraySel s inst).2)
    (hlife : rdA s F.ag_PROG_COUNT (arraySel s inst).1 (arraySel s inst).2 (rd s F.ag_COLUMN inst 0) <
      (writeLimits s (arraySel s inst).1).2)
    (hrate : exempt = true ∨ arrayIdle s (arraySel s inst).1 (arraySel s inst).2 = true ∨
      rdA s F.ag_PROG_COUNT (arraySel s inst).1 (arraySel s inst).2 (rd s F.ag_COLUMN inst 0) = 0 ∨
      (writeLimits s (arraySel s inst).1).1 ≤ (stepNo s + 2 ^ 32 -
        rdA s F.ag_LAST_STEP (arraySel s inst).1 (arraySel s inst).2 (rd s F.ag_COLUMN inst 0)) % 2 ^ 32) :
    programCode inst exempt s = 0 := by
  have hrated : (!(exempt || arrayIdle s (arraySel s inst).1 (arraySel s inst).2) &&
      rateCapped s (arraySel s inst).1 (arraySel s inst).2 (rd s F.ag_COLUMN inst 0)) = false := by
    obtain h | h | h := hrate
    · rw [h]
      rfl
    · rw [h, Bool.or_true]
      rfl
    · rw [rateCapped_false h, Bool.and_false]
  refine (programCode_of_room hst (hroom.imp_right (Or.imp_left fun h => Bool.or_eq_true_iff.2 (.inl h)))).trans ?_
  exact (firstReason_of_tail (by rw [hwrite]; rfl)).trans
    ((firstReason_of_tail (decide_eq_false (Nat.not_le.2 hlife))).trans (firstReason_of_tail hrated))

theorem programCode_writing {inst : Nat} {exempt : Bool} {s : State}
    (hwrite : (arrX s (arraySel s inst).1 (arraySel s inst).2).write.isSome = true)
    (hst : colState s (arraySel s inst).1 (arraySel s inst).2 (rd s F.ag_COLUMN inst 0) ∈ [2, 4, 6])
    (hbypass : inBypass s (arraySel s inst).1 (arraySel s inst).2 (rd s F.ag_COLUMN inst 0) = true) : programCode inst exempt s = 6 :=
  (programCode_of_room hst (.inl hbypass)).trans (firstReason_of_head hwrite)

/-- Settles O59: the column commands by their REFUSE_CODE, what an accepted one leaves on its array and its column's fields, and
the end of a write by the stages in which it ends, settles its column and returns the array to its sweep. -/
theorem columnCommands : Obligations.ColumnCommands := by
  unfold Obligations.ColumnCommands
  refine ⟨fun inst s _ hlive => ⟨fun h => ?_, fun hst hslot hfull => ?_, fun k hst hslot hk => ?_, fun h => ?_,
    fun hst hnew => ⟨fun henters hlimit => ?_, fun hroom => ?_⟩,
    fun scale exempt hwrite hmay hst _ _ _ hroom hlife hrate => ?_, fun hwrite hst hbypass scale exempt => ?_,
    clearSel_completes hlive, auditClear_completes hlive⟩, fun die p s _ _ => ⟨?_, ?_, ?_, ?_⟩⟩
  · exact refuses_loadPantry hlive (loadCode_wrongState h) (by decide) (by decide)
  · exact refuses_loadPantry hlive ((loadCode_of_free hst hslot).trans (firstReason_of_head (by rw [hfull]; rfl))) (by decide) (by decide)
  · exact loadPantry_takes hlive ((loadCode_of_free hst hslot).trans (firstReason_of_tail (by rw [hk]; rfl))) hk
  · exact refuses_evict_wrongState hlive (evictCode_wrongState h)
  · exact refuses_evict_overLimit hlive (evictCode_overLimit hst hnew henters hlimit)
  · exact evict_accepts hlive (evictCode_room hst hnew hroom)
  · exact program_starts hlive hmay hst (programCode_accepted hwrite hst hroom hlife hrate)
  · exact refuses_program hlive (programCode_writing hwrite hst hbypass) (by decide) (by decide)
  · intro col k c _ hslot hc hnew honly _ hclean
    exact pantryLoadDone_completes hslot hc hnew honly hclean
  · exact fun _ howed => evictApply_completes howed
  · exact fun w hw _ hrun hmay => columnWriteStart_completes hw hrun hmay
  · intro w iters held ap hw hrun _ hdark run good spent fails hends
    obtain ⟨hwrite, hswept, hcells⟩ := arrX_writeDone (die := die) (p := p) (w := w) (iters := iters) (held := held) (ap := ap) (s := s)
    refine ⟨writeDone die p w iters held ap s, exec_columnWriteDone held hw hrun hdark hends, core_writeDone, hwrite, hswept,
      slots_writeDone, fun ls hls => ?_, fun j hj => ?_, fun hgood hleft hperm => ?_, fun hgood hbypass h => ?_,
      fun hbad => ⟨writeDone_failed hbad, fails_writeDone hbad⟩, fun h => permanent_writeDone (h.imp_left decide_eq_true),
      writeDone_mem, writeDone_sequencers⟩
    · rw [hcells]
      exact cellsWritten_self held _ _ hls
    · rw [hcells]
      exact cellsWritten_other held _ _ hj
    · split
      · next hidle => exact writeDone_released hgood (decide_eq_false hleft) hperm hidle
      · next hidle => exact writeDone_busy hgood (decide_eq_false hleft) hperm hidle
    · exact writeDone_bypassed hgood hbypass (h.imp_left decide_eq_true)

end Sys2Proof.Machine

namespace Sys2Proof.Machine

open Sys2Proof

/-! ### The copies of the ledgers on the drives (R338) -/

theorem shelf_drivePump (c : Nat) (s : State) : (drivePump c s).shelf = s.shelf := by
  rw [drivePump, foldl_emit]
  rfl

/-- What is asked of a drive leaves what firmware knows of the shelf alone. -/
theorem shelf_driveIssue (c : Nat) (os : List DriveCmd) (s : State) : (driveIssue c os s).shelf = s.shelf := by
  unfold driveIssue
  split
  · exact shelf_drivePump _ _
  · rfl

theorem shelf_driveAll (os : List DriveCmd) (s : State) : (driveAll os s).shelf = s.shelf :=
  foldl_same State.shelf (fun s c => shelf_driveIssue c os s) _ s

theorem copy_driveLedgers (s : State) : (driveLedgers s).shelf.copy = 1 - s.shelf.copy :=
  (congrArg ShelfX.copy (shelf_driveAll _ _) :)

theorem copy_saveLedgers (p : Nat → Bool) (s : State) : (saveLedgers p s).shelf.copy = 1 - s.shelf.copy :=
  copy_driveLedgers _

/-- Each drive in use is given a copy of the ledgers, in the place whose turn it is, that is not sound before its writes are. -/
theorem driveLedgers_copies {c : Nat} {s : State} (hc : c ∈ readyDrives s) : ∃ x ∈ (driveLedgers s).shelf.ledgers,
    x.drive = c ∧ x.copy = s.shelf.copy ∧ x.ledger = s.ledger ∧ x.sound = false := by
  refine ⟨{ drive := c, copy := s.shelf.copy, order := s.shelf.order, ledger := s.ledger, base := s.ledgerBase }, ?_,
    rfl, rfl, rfl, rfl⟩
  rw [driveLedgers, shelf_driveAll]
  exact List.mem_append_right _ (List.mem_map_of_mem hc)

theorem saveLedgers_copies (p : Nat → Bool) {c : Nat} {s : State} (hc : c ∈ readyDrives s) :
    ∃ x ∈ (saveLedgers p s).shelf.ledgers,
      x.drive = c ∧ x.copy = s.shelf.copy ∧ x.ledger = (saveLedgers p s).ledger ∧ x.sound = false := by
  rw [ledger_saveLedgers]
  exact driveLedgers_copies hc

theorem power_saveLedgers (p : Nat → Bool) (s : State) : (saveLedgers p s).power = s.power :=
  (congrArg State.power (offDrives_driveLedgers _) :)

/-! ### LEDGER_SAVE (R96) -/

/-- The array dies that have their supply and whose ledgers firmware has restored (R96). -/
def ledgerHeld (s : State) (die : Nat) : Bool := !s.dark.contains die && pageReady s (unitOf 0x10 die)

theorem exec_ledgerSave {s : State} (h : readyDrives s ≠ []) : exec .ledgerSave s = .next (saveLedgers (ledgerHeld s) s) := by
  rw [exec, execLedgerSave, if_neg (mt List.isEmpty_iff.1 h)]
  rfl

theorem ledgerSave_completes {s : State} (h : readyDrives s ≠ []) : Completes .ledgerSave s fun t =>
    LedgersSaved (ledgerHeld s) s t ∧
    (∀ c ∈ readyDrives s, ∃ x ∈ t.shelf.ledgers, x.drive = c ∧ x.copy = s.shelf.copy ∧ x.ledger = t.ledger ∧ x.sound = false) ∧
    t.shelf.copy = 1 - s.shelf.copy ∧ MemKept s t ∧ FieldsKept [] s t :=
  ⟨_, exec_ledgerSave h, saveLedgers_saved _ s, fun _ hc => saveLedgers_copies _ hc, copy_saveLedgers _ s,
    saveLedgers_mem _ s (MemKept.refl s), fun n _ => saveLedgers_fld _ s n (FieldKept.refl n s)⟩

/-! ### ORDERLY_OFF and OFF_READY (R369) -/

/-- OFF_READY raised on a state that has the registers and the memory of another. -/
theorem offReady_raised {s s' : State} (hmem : MemKept s s') (hfields : ∀ n, FieldKept n s s') :
    rdb (setb F.pw_OFF_READY 0 0 true s') F.pw_OFF_READY 0 0 = true ∧ MemKept s (setb F.pw_OFF_READY 0 0 true s') ∧
      FieldsKept [F.pw_OFF_READY] s (setb F.pw_OFF_READY 0 0 true s') :=
  ⟨rdb_setb_self _ _ _ _ _ (by decide), setb_mem _ _ _ _ _ hmem,
    fun n hn => setb_fld _ _ _ _ _ (fun h => hn (List.mem_singleton.2 h.symm)) (hfields n)⟩

theorem exec_orderlyOff {s : State} (h : livePage s (unitOf 0x04 0) = true) :
    exec .orderlyOff s = .next (orderlyOff (pageAccess (unitOf 0x04 0) s)) := by
  rw [exec, execOrderlyOff, if_pos h]

theorem orderlyOff_driveless {s : State} (h : readyDrives s = []) : orderlyOff s = setb F.pw_OFF_READY 0 0 true s :=
  if_pos (List.isEmpty_iff.2 h)

/-- Firmware is asked for an orderly power-down (`ask`), or no longer. -/
def offAsk (ask : Bool) (s : State) : State := { s with power := { s.power with offAsked := ask } }

theorem orderlyOff_asks {s : State} (h : readyDrives s ≠ []) :
    orderlyOff s = saveLedgers (ledgerHeld s) (offAsk true s) := if_neg (mt List.isEmpty_iff.1 h)

theorem orderlyOff_completes_driveless {s : State} (hlive : livePage s (unitOf 0x04 0) = true) (h : readyDrives s = []) :
    Completes .orderlyOff s fun t => rdb t F.pw_OFF_READY 0 0 = true ∧ t.ledger = s.ledger ∧ MemKept s t ∧
      FieldsKept [F.pw_OFF_READY] s t := by
  obtain ⟨hmem, hfields⟩ := pageAccess_kept_of (unitOf 0x04 0) s
  obtain ⟨hraised, hkept⟩ := offReady_raised hmem hfields
  exact ⟨_, (exec_orderlyOff hlive).trans (congrArg _ (orderlyOff_driveless h)), hraised, rfl, hkept⟩

theorem orderlyOff_completes_asked {s : State} (hlive : livePage s (unitOf 0x04 0) = true) (h : readyDrives s ≠ []) :
    Completes .orderlyOff s fun t => t.power.offAsked = true ∧ LedgersSaved (ledgerHeld s) s t ∧ MemKept s t ∧
      FieldsKept [] s t := by
  refine ⟨_, (exec_orderlyOff hlive).trans (congrArg _ (orderlyOff_asks h)), ?_, saveLedgers_saved (ledgerHeld s) (offAsk true _),
    saveLedgers_mem _ _ ⟨fun _ => rfl⟩, fun n _ => saveLedgers_fld _ _ n ⟨fun _ _ => rfl⟩⟩
  rw [power_saveLedgers]
  rfl

theorem offReady_rises {s : State} (hasked : s.power.offAsked = true) (hidle : drivesIdle s = true) :
    offReady s = setb F.pw_OFF_READY 0 0 true (offAsk false s) := if_pos ⟨hasked, hidle⟩

theorem offReady_waits {s : State} (hbusy : drivesIdle s = false) : offReady s = s :=
  if_neg fun ⟨_, hidle⟩ => Bool.false_ne_true (hbusy.symm.trans hidle)

theorem exec_offReady (s : State) : exec .offReady s = .next (offReady s) := rfl

theorem offReady_completes {s : State} (hasked : s.power.offAsked = true) (hidle : drivesIdle s = true) :
    Completes .offReady s fun t => rdb t F.pw_OFF_READY 0 0 = true ∧ t.power.offAsked = false ∧ t.ledger = s.ledger ∧
      t.shelf = s.shelf ∧ MemKept s t ∧ FieldsKept [F.pw_OFF_READY] s t := by
  obtain ⟨hraised, hkept⟩ := offReady_raised (s := s) (s' := offAsk false s) ⟨fun _ => rfl⟩ fun n => ⟨fun _ _ => rfl⟩
  exact ⟨_, (exec_offReady s).trans (congrArg _ (offReady_rises hasked hidle)), hraised, rfl, rfl, rfl, hkept⟩

/-- Settles O30: ORDERLY_OFF without a drive in use and with one, OFF_READY once the drives have done everything and before,
and LEDGER_SAVE. -/
theorem orderlyOff_effects : Obligations.OrderlyOff := by
  unfold Obligations.OrderlyOff
  exact ⟨fun s => orderlyOff_completes_driveless, fun s => orderlyOff_completes_asked, fun s => offReady_completes,
    fun s _ hbusy => (exec_offReady s).trans (congrArg _ (offReady_waits hbusy)), fun s => ledgerSave_completes⟩

end Sys2Proof.Machine

namespace Sys2Proof.Machine

open Sys2Proof

/-! ### A register map from which entries are dropped -/

/-- The register map lists each place at most once. -/
def ListsOnce (s : State) : Prop := (s.flds.map (·.1)).Nodup

theorem listsOnce_blank (v : Variant) (g : Stage) : ListsOnce (State.blank v g) := List.nodup_nil

theorem smInsert_perm {κ α : Type} (lt : κ → κ → Bool) (k : κ) (v : α) (m : SMap κ α) : (smInsert lt k v m).Perm ((k, v) :: m) := by
  induction m with
  | nil => exact List.Perm.refl _
  | cons e m ih =>
    unfold smInsert
    split
    · exact List.Perm.refl _
    · exact (ih.cons e).trans (List.Perm.swap _ _ _)

theorem smErase_sublist {κ α : Type} [DecidableEq κ] (k : κ) (m : SMap κ α) : (smErase k m).Sublist m := by
  induction m with
  | nil => exact List.Sublist.refl _
  | cons e m ih =>
    unfold smErase
    split
    · exact ih.cons e
    · exact ih.cons_cons e

/-- A register write leaves one entry for its place. -/
theorem ListsOnce.wrU {s : State} (h : ListsOnce s) (f : Field) (u i v : Nat) : ListsOnce (wrU f u i v s) := by
  refine (((smInsert_perm FKey.lt _ _ _).map _).nodup_iff).2 (List.nodup_cons.2 ⟨fun hk => ?_, h.sublist ((smErase_sublist _ _).map _)⟩)
  obtain ⟨e, he, hek⟩ := List.mem_map.1 hk
  exact ((mem_smErase _ _ _).1 he).2 hek

theorem smFind_of_not_mem {κ α : Type} [DecidableEq κ] {k : κ} {m : SMap κ α} (h : k ∉ m.map (·.1)) : smFind k m = none := by
  induction m with
  | nil => rfl
  | cons e m ih =>
    rw [List.map_cons, List.mem_cons, not_or] at h
    rw [smFind, if_neg (Ne.symm h.1), ih h.2]

/-- Of a map that lists each key once, dropping entries drops the value of a key or leaves it. -/
theorem smFind_filter_nodup {κ α : Type} [DecidableEq κ] (p : κ × α → Bool) (k : κ) (m : SMap κ α) (hm : (m.map (·.1)).Nodup) :
    smFind k (m.filter p) = (smFind k m).filter fun v => p (k, v) := by
  induction m with
  | nil => rfl
  | cons e m ih =>
    obtain ⟨a, b⟩ := e
    obtain ⟨ha, hm⟩ := List.nodup_cons.1 hm
    by_cases hak : a = k
    · subst hak
      by_cases hp : p (a, b) = true
      · simp [hp, smFind, Option.filter]
      · simp [hp, smFind, ih hm, smFind_of_not_mem ha, Option.filter]
    · by_cases hp : p (a, b) = true <;> simp [hp, smFind, hak, ih hm]

/-- The numbers of a list differ from each other and from those whose bits are set in `seen`. -/
def distinctFrom (seen : Nat) : List Nat → Bool
  | [] => true
  | k :: l => !seen.testBit k && distinctFrom (seen ||| 2 ^ k) l

theorem nodup_of_distinctFrom {l : List Nat} {seen : Nat} (h : distinctFrom seen l = true) :
    l.Nodup ∧ ∀ k ∈ l, seen.testBit k = false := by
  induction l generalizing seen with
  | nil => simp
  | cons a l ih =>
    rw [distinctFrom, Bool.and_eq_true, Bool.not_eq_true'] at h
    obtain ⟨hl, hseen⟩ := ih h.2
    simp only [Nat.testBit_or, Bool.or_eq_false_iff, Nat.testBit_two_pow, decide_eq_false_iff_not] at hseen
    exact ⟨List.nodup_cons.2 ⟨fun ha => (hseen a ha).2 rfl, hl⟩, List.forall_mem_cons.2 ⟨h.1, fun k hk => (hseen k hk).1⟩⟩

theorem fid_of_fieldOf {n : Nat} {f : Field} (h : fieldOf n = some f) : f.fid = n := by
  simpa using List.find?_some h

/-- No two fields of the register map have one number. -/
theorem fieldOf_fid {f : Field} (hf : f ∈ allFields) : fieldOf f.fid = some f := by
  have hnodup : (allFields.map (·.fid)).Nodup := (nodup_of_distinctFrom (seen := 0) (by decide +kernel)).1
  obtain ⟨g, hg⟩ : ∃ g, fieldOf f.fid = some g := Option.isSome_iff_exists.1 (List.find?_isSome.2 ⟨f, hf, beq_self_eq_true _⟩)
  rw [hg, List.inj_on_of_nodup_map hnodup (List.mem_of_find?_eq_some hg) hf (fid_of_fieldOf hg)]

theorem rdU_of_find_none {f : Field} {u i : Nat} {s : State} (h : smFind ⟨f.fid, u, i⟩ s.flds = none)
    (hf : f.fid ≠ F.ag_PROG_COUNT.fid) : rdU s f u i = resetVal s.variant f u i := by
  rw [rdU, smGet_eq_find, h, unwritten, if_neg hf]
  rfl

theorem rdU_of_find {f : Field} {u i : Nat} {s t : State} (h : smFind ⟨f.fid, u, i⟩ t.flds = smFind ⟨f.fid, u, i⟩ s.flds)
    (hv : t.variant = s.variant) (hp : t.progBase = s.progBase) : rdU t f u i = rdU s f u i := by
  rw [rdU, rdU, smGet_eq_find, smGet_eq_find, h, unwritten, unwritten, hv, hp]

end Sys2Proof.Machine

namespace Sys2Proof.Machine

open Sys2Proof

/-! ### CNT_CLEAR (R346, R352, R353) -/

theorem rdU_clearFields {p : Field → FKey → Bool} {f : Field} (hf : fieldOf f.fid = some f) (hpc : f.fid ≠ F.ag_PROG_COUNT.fid)
    (u u' i : Nat) (s : State) : rdU (clearFields u p s) f u' i =
      if p f ⟨f.fid, u', i⟩ && onPage s u ⟨f.fid, u', i⟩ then resetVal s.variant f u' i else rdU s f u' i := by
  split
  case isTrue h => exact rdU_of_find_none (s := clearFields u p s) (smFind_filter_none _ _ _ fun _ => by simp [hf, h]) hpc
  case isFalse h => exact rdU_of_find (smFind_filter _ _ _ fun _ => by simp [hf, h]) rfl rfl

/-- A clear of the fields that `p` picks keeps every field that it does not pick. -/
theorem clearFields_fld {n : Nat} {s0 s : State} {p : Field → FKey → Bool} (hp : ∀ f, fieldOf n = some f → ∀ k, p f k = false) (u : Nat)
    (h : FieldKept n s0 s) : FieldKept n s0 (clearFields u p s) := by
  refine h.trans ⟨fun k hk => smFind_filter _ _ _ fun v => ?_⟩
  subst hk
  dsimp only
  split
  case h_1 f hf => simp [hp f hf k]
  case h_2 => rfl

/-- No saturating count of page `u` itself is listed. -/
def CountsClear (u : Nat) (s : State) : Prop :=
  ∀ kv ∈ s.flds, kv.1.unit = u → ∀ f, fieldOf kv.1.fid = some f → f.acc ≠ .sat

theorem countsClear_clearFields (u : Nat) (s : State) : CountsClear u (clearFields u (fun f _ => f.acc == .sat) s) := by
  intro kv hkv hu f hf hsat
  have hkept := (List.mem_filter.1 hkv).2
  simp [hf, hsat, onPage, hu] at hkept

theorem CountsClear.wrU {u : Nat} {s : State} (h : CountsClear u s) {f : Field} (hf : ∀ g, fieldOf f.fid = some g → g.acc ≠ .sat)
    (u' i v : Nat) : CountsClear u (wrU f u' i v s) := by
  intro kv hkv hu
  obtain rfl | ⟨hkv, -⟩ := (mem_smSet _ _ _ _ _).1 hkv
  · exact hf
  · exact h kv hkv hu

/-- With no count left at its maximum, no SAT bit is raised again. -/
theorem keepSat_countsClear {u : Nat} {s : State} (h : CountsClear u s) : keepSat u s = s := by
  refine foldl_stays _ fun kv hkv => ?_
  split
  case h_1 f hf => exact if_neg fun ⟨hu, hsat, _⟩ => h kv hkv hu f hf hsat
  case h_2 => rfl

/-- The state with the saturating counts of page `u` dropped and its SAT bits at 0. -/
def pageCountsCleared (u : Nat) (s : State) : State :=
  wrU F.com_SAT_LO u 0 0 (wrU F.com_SAT_HI u 0 0 (wrU F.com_SAT_TBL u 0 0 (clearFields u (fun f _ => f.acc == .sat) s)))

theorem cntClear_eq (u : Nat) (s : State) : cntClear u s = if unitPage u = 0x25 then
    wr F.sq_TRACKER_HIGH (unitInst u) 0 (rd (pageCountsCleared u s) F.sq_TRACKER_OUT (unitInst u) 0) (pageCountsCleared u s)
    else pageCountsCleared u s := by
  have hkeep : keepSat u (pageCountsCleared u s) = pageCountsCleared u s := keepSat_countsClear <|
    (((countsClear_clearFields u s).wrU (f := F.com_SAT_TBL) (by decide +kernel) u 0 0).wrU
      (f := F.com_SAT_HI) (by decide +kernel) u 0 0).wrU (f := F.com_SAT_LO) (by decide +kernel) u 0 0
  have hcut : cntClear u s = if unitPage u = 0x25 then wr F.sq_TRACKER_HIGH (unitInst u) 0
      (rd (keepSat u (pageCountsCleared u s)) F.sq_TRACKER_OUT (unitInst u) 0) (keepSat u (pageCountsCleared u s))
      else keepSat u (pageCountsCleared u s) := rfl
  rw [hcut, hkeep]

/-- The fields, no saturating counts, that CNT_CLEAR of some page changes. -/
def clearedBeside : List Field :=
  [F.com_SAT_LO, F.com_SAT_HI, F.com_SAT_TBL, F.sq_TRACKER_HIGH, F.pw_TEMP_MAX, F.qe_WORST_NS]

/-- After the counts and the SAT bits, CNT_CLEAR of a page changes at most one of three further fields. -/
theorem clearPage_fld {n : Nat} (hhigh : F.sq_TRACKER_HIGH.fid ≠ n) (htemp : F.pw_TEMP_MAX.fid ≠ n) (hworst : F.qe_WORST_NS.fid ≠ n)
    (u : Nat) (s : State) : FieldKept n (pageCountsCleared u s) (clearPage u s) := by
  have hcnt : FieldKept n (pageCountsCleared u s) (cntClear u s) := by
    rw [cntClear_eq]
    exact FieldKept.ite (wr_fld _ _ _ _ _ hhigh (FieldKept.refl _ _)) (FieldKept.refl _ _)
  have hother {m : Nat} (hm : m ≠ n) (f : Field) (hf : fieldOf n = some f) (_ : FKey) : (f.fid == m) = false :=
    beq_false_of_ne (fid_of_fieldOf hf ▸ hm.symm)
  unfold clearPage
  exact FieldKept.ite (clearFields_fld (hother htemp) u (hcnt.of_eq rfl)) (FieldKept.ite (clearFields_fld (hother hworst) u hcnt) hcnt)

/-- Beside the counts, CNT_CLEAR keeps every field but the few that `clearedBeside` lists. -/
theorem clearPage_counts_fld {n : Nat} (hn : ∀ f ∈ clearedBeside, f.fid ≠ n) (u : Nat) (s : State) :
    FieldKept n (clearFields u (fun f _ => f.acc == .sat) s) (clearPage u s) := by
  refine FieldKept.trans ?_ (clearPage_fld (hn _ (by decide)) (hn _ (by decide)) (hn _ (by decide)) u s)
  unfold pageCountsCleared
  exact wrU_fld _ _ _ _ _ (hn _ (by decide)) (wrU_fld _ _ _ _ _ (hn _ (by decide))
    (wrU_fld _ _ _ _ _ (hn _ (by decide)) (FieldKept.refl _ _)))

/-- What the clears leave of a state beside its register map: the variant, the ledger base and the staged area. -/
def besideMap (s : State) : Variant × NMap Nat × SMap FKey Nat := (s.variant, s.progBase, s.stg)

theorem besideMap_cntClear (u : Nat) (s : State) : besideMap (cntClear u s) = besideMap s := by
  rw [cntClear_eq]
  split
  · exact (rfl : besideMap (pageCountsCleared u s) = _)
  · rfl

theorem besideMap_clearPage (u : Nat) (s : State) : besideMap (clearPage u s) = besideMap s := by
  rw [← besideMap_cntClear u s]
  unfold clearPage
  dsimp only
  split
  · rfl
  · split
    · rfl
    · rfl

theorem clearedBeside_acc : ∀ f ∈ allFields, f.acc = .sat ∨ f.acc = .rw ∨ f.acc = .st → ∀ g ∈ clearedBeside, g.fid ≠ f.fid := by
  decide +kernel

theorem counts_ne_progCount : ∀ f ∈ allFields, f.acc = .sat → f.fid ≠ F.ag_PROG_COUNT.fid := by decide +kernel

/-- A field of the map that is no saturating count is kept, but the few that `clearedBeside` lists. -/
theorem clearPage_kept_fld {f : Field} (hf : f ∈ allFields) (hacc : f.acc ≠ .sat) (hn : ∀ g ∈ clearedBeside, g.fid ≠ f.fid)
    (u : Nat) (s : State) : FieldKept f.fid s (clearPage u s) := by
  refine (clearFields_fld (fun g hg _ => ?_) u (FieldKept.refl _ s)).trans (clearPage_counts_fld hn u s)
  obtain rfl : f = g := Option.some.inj ((fieldOf_fid hf).symm.trans hg)
  exact beq_false_of_ne hacc

theorem variant_clearPage (u : Nat) (s : State) : (clearPage u s).variant = s.variant :=
  congrArg (·.1) (besideMap_clearPage u s)

theorem rdU_clearPage_count {f : Field} (hf : f ∈ allFields) (hsat : f.acc = .sat) (u u' i : Nat) (s : State) :
    rdU (clearPage u s) f u' i = if onPage s u ⟨f.fid, u', i⟩ then resetVal s.variant f u' i else rdU s f u' i := by
  have hpc := counts_ne_progCount f hf hsat
  rw [(clearPage_counts_fld (clearedBeside_acc f hf (.inl hsat)) u s).rdU' (variant_clearPage u s) hpc,
    rdU_clearFields (fieldOf_fid hf) hpc, hsat]
  rfl

theorem rdU_clearPage_satBits (u : Nat) (s : State) :
    ∀ f ∈ [F.com_SAT_LO, F.com_SAT_HI, F.com_SAT_TBL], rdU (clearPage u s) f u 0 = 0 := by
  intro f hf
  have hne : F.sq_TRACKER_HIGH.fid ≠ f.fid ∧ F.pw_TEMP_MAX.fid ≠ f.fid ∧ F.qe_WORST_NS.fid ≠ f.fid ∧
      f.fid ≠ F.ag_PROG_COUNT.fid := by revert f; decide
  obtain ⟨hhigh, htemp, hworst, hpc⟩ := hne
  rw [(clearPage_fld hhigh htemp hworst u s).rdU' (variant_clearPage u s) hpc, pageCountsCleared]
  simp only [List.mem_cons, List.not_mem_nil, or_false] at hf
  obtain rfl | rfl | rfl := hf
  · exact rdU_wrU_self _ _ _ _ _
  · rw [rdU_wrU_other _ _ _ _ _ _ _ _ (.inl (by decide)), rdU_wrU_self]
    rfl
  · rw [rdU_wrU_other _ _ _ _ _ _ _ _ (.inl (by decide)), rdU_wrU_other _ _ _ _ _ _ _ _ (.inl (by decide)), rdU_wrU_self]
    rfl

theorem exec_cntClear {u : Nat} {s : State} (h : livePage s u = true) :
    exec (.cntClear u) s = .next (clearPage u (pageAccess u s)) := by
  rw [exec, execCntClear, if_pos h]

/-- CNT_CLEAR on a live page. -/
theorem cntClear_completes {u : Nat} {s : State} (h : livePage s u = true) :
    Completes (.cntClear u) s fun t =>
      (∀ f ∈ allFields, f.acc = .sat → ∀ u' i, rdU t f u' i =
        if onPage s u ⟨f.fid, u', i⟩ then resetVal s.variant f u' i else rdU s f u' i) ∧
      (∀ f ∈ [F.com_SAT_LO, F.com_SAT_HI, F.com_SAT_TBL], rdU t f u 0 = 0) ∧
      (∀ f ∈ allFields, f.acc = .rw ∨ f.acc = .st → ∀ u' i, rdU t f u' i = rdU s f u' i) ∧
      t.stg = s.stg ∧ MemKept s t ∧ SequencersKept s t := by
  have hbeside : besideMap (clearPage u (pageAccess u s)) = besideMap s := besideMap_clearPage u (pageAccess u s)
  have hfld {f : Field} (hf : f ∈ allFields) (hacc : f.acc ≠ .sat) (hn : ∀ g ∈ clearedBeside, g.fid ≠ f.fid) :
      FieldKept f.fid s (clearPage u (pageAccess u s)) :=
    ((pageAccess_kept_of u s).2 _).trans (clearPage_kept_fld hf hacc hn u _)
  refine ⟨_, exec_cntClear h, fun f hf hsat u' i => rdU_clearPage_count hf hsat u u' i _, rdU_clearPage_satBits u _,
    fun f hf hacc u' i => ?_, congrArg (·.2.2) hbeside, clearPage_mem u _ (pageAccess_kept_of u s).1,
    sequencersKept_of_fields (congrArg (·.1) hbeside) (hfld (by decide +kernel) (by decide) (by decide))
      (hfld (by decide +kernel) (by decide) (by decide))⟩
  have hnot : f.acc ≠ .sat := by rintro hsat; simp [hsat] at hacc
  exact (hfld hf hnot (clearedBeside_acc f hf (.inr hacc))).rdU (congrArg (·.1) hbeside) (congrArg (·.2.1) hbeside) u' i

end Sys2Proof.Machine

namespace Sys2Proof.Machine

open Sys2Proof

/-! ### EXPERT_RESTORE (R355) -/

/-- EXPERT_RESTORE keeps every entry that it does not pick. -/
theorem find_expertRestore {u : Nat} {k : FKey} (s : State)
    (h : ∀ f v, fieldOf k.fid = some f → (k.unit == u && f.acc == .rw && (expertField f || conditional f || expertCode f v)) = false) :
    smFind k (expertRestore u s).flds = smFind k s.flds := by
  refine smFind_filter _ _ _ fun v => ?_
  dsimp only
  split
  case h_1 f hf => simp [h f v hf]
  case h_2 => rfl

theorem expertRestore_fld {f : Field} (hf : f ∈ allFields) (hacc : f.acc ≠ .rw) (u : Nat) (s : State) :
    FieldKept f.fid s (expertRestore u s) := by
  refine ⟨fun k hk => find_expertRestore s fun g v hg => ?_⟩
  obtain rfl : f = g := Option.some.inj ((fieldOf_fid hf).symm.trans (hk ▸ hg))
  simp [hacc]

theorem rdU_expertRestore_other {u u' : Nat} (hu : u' ≠ u) (f : Field) (i : Nat) (s : State) :
    rdU (expertRestore u s) f u' i = rdU s f u' i :=
  rdU_of_find (find_expertRestore s fun _ _ _ => by simp [hu]) rfl rfl

/-- Where the map lists each place once, an entry that EXPERT_RESTORE drops leaves the reset value. -/
theorem rdU_expertRestore {f : Field} (hf : f ∈ allFields) (hacc : f.acc = .rw) (hpc : f.fid ≠ F.ag_PROG_COUNT.fid) {s : State}
    (hs : ListsOnce s) (u i : Nat) : rdU (expertRestore u s) f u i =
      if expertField f || conditional f || expertCode f (rdU s f u i) then resetVal s.variant f u i else rdU s f u i := by
  have hfind : smFind ⟨f.fid, u, i⟩ (expertRestore u s).flds =
      (smFind ⟨f.fid, u, i⟩ s.flds).filter fun v => !(expertField f || conditional f || expertCode f v) := by
    refine (smFind_filter_nodup _ _ _ hs).trans ?_
    simp [fieldOf_fid hf, hacc]
  cases hv : smFind ⟨f.fid, u, i⟩ s.flds with
  | none =>
    rw [rdU_of_find_none (s := expertRestore u s) (hfind.trans (by rw [hv]; rfl)) hpc, rdU_of_find_none hv hpc]
    exact (ite_self _).symm
  | some v =>
    have hread : rdU s f u i = v := by rw [rdU, smGet_eq_find, hv]; rfl
    rw [hread]
    split
    case isTrue h => exact rdU_of_find_none (s := expertRestore u s) (hfind.trans (by rw [hv]; simp [Option.filter, h])) hpc
    case isFalse h => rw [rdU, smGet_eq_find, hfind, hv]; simp [Option.filter, h]

/-- The fields that change when a write budget has come down to the counts of some columns (R97). -/
def budgetFields : List Field :=
  [F.ag_PERMANENT, F.ag_IN_BYPASS, F.ag_WRITE_STATE, F.ag_PROG_COUNT, F.ag_QUEUE_DEPTH, F.ag_DRIFT_MAX, F.com_READY,
   F.com_REASON, F.com_DETAIL]

theorem restorePage_eq {u : Nat} (h : unitPage u ≠ 0x10) (s : State) : restorePage u s = expertRestore u s := if_neg h

theorem restorePage_fld {n : Nat} (hn : n ∉ budgetFields.map (·.fid)) (u : Nat) (s : State) :
    FieldKept n (expertRestore u s) (restorePage u s) :=
  FieldKept.ite (lifeAll_fld _ _ (sub_ne _ (budgetFields.map (·.fid)) (by decide) (by simpa using hn)) (FieldKept.refl _ _))
    (FieldKept.refl _ _)

theorem variant_restorePage (u : Nat) (s : State) : (restorePage u s).variant = s.variant :=
  (restorePage_kept u s (Kept.refl s)).variant

theorem stg_lifeAll (die : Nat) (s : State) : (lifeAll die s).stg = s.stg := by
  refine foldl_same State.stg (fun s k => ?_) _ s
  unfold lifeCheck
  split
  · exact (congrArg State.stg (armRest_makePermanent _ _ _ s) :)
  · rfl

theorem stg_restorePage (u : Nat) (s : State) : (restorePage u s).stg = s.stg := by
  unfold restorePage
  dsimp only
  split
  · exact stg_lifeAll _ _
  · rfl

theorem budgetFields_acc : ∀ f ∈ allFields, f.acc = .rw → f.fid ≠ F.ag_PROG_COUNT.fid → f.fid ∉ budgetFields.map (·.fid) := by
  decide +kernel

theorem exec_expertRestore {u : Nat} {s : State} (h : livePage s u = true) :
    exec (.expertRestore u) s = .next (restorePage u (pageAccess u s)) := by
  rw [exec, execExpertRestore, if_pos h]

/-- EXPERT_RESTORE on a live page, of a register map that lists each place once. -/
theorem expertRestore_completes {u : Nat} {s : State} (h : livePage s u = true) (hs : ListsOnce s) :
    Completes (.expertRestore u) s fun t =>
      (∀ f ∈ allFields, f.acc = .rw → f.fid ≠ F.ag_PROG_COUNT.fid → ∀ i,
        rdU t f u i = if expertField f || conditional f || expertCode f (rdU s f u i) then resetVal s.variant f u i else rdU s f u i) ∧
      (unitPage u ≠ 0x10 → (∀ f ∈ allFields, f.acc ≠ .rw → ∀ i, rdU t f u i = rdU s f u i) ∧
        ∀ (f : Field) (u' i : Nat), u' ≠ u → rdU t f u' i = rdU s f u' i) ∧
      (unitPage u = 0x10 → ∀ f ∈ allFields, f.fid ∉ budgetFields.map (·.fid) →
        ∀ u' i, f.acc ≠ .rw ∨ u' ≠ u → rdU t f u' i = rdU s f u' i) ∧
      t.stg = s.stg ∧ MemKept s t ∧ SequencersKept s t := by
  have hv : (restorePage u (pageAccess u s)).variant = s.variant := variant_restorePage u (pageAccess u s)
  have hrestored {f : Field} (hf : f.fid ∉ budgetFields.map (·.fid)) (u' i : Nat) :
      rdU (restorePage u (pageAccess u s)) f u' i = rdU (expertRestore u (pageAccess u s)) f u' i :=
    (restorePage_fld hf u _).rdU' hv (fun hpc => hf (hpc ▸ (by decide))) u' i
  have hstays {f : Field} (hf : f ∈ allFields) (hacc : f.acc ≠ .rw) : FieldKept f.fid s (expertRestore u (pageAccess u s)) :=
    ((pageAccess_kept_of u s).2 _).trans (expertRestore_fld hf hacc u _)
  refine ⟨_, exec_expertRestore h, fun f hf hacc hpc i => ?_, fun hu => ⟨fun f hf hacc i => ?_, fun f u' i hne => ?_⟩,
    fun _ f hf hn u' i hor => ?_, stg_restorePage u _, restorePage_mem u _ (pageAccess_kept_of u s).1,
    sequencersKept_of_fields hv ((hstays (by decide +kernel) (by decide)).trans (restorePage_fld (by decide) u _))
      ((hstays (by decide +kernel) (by decide)).trans (restorePage_fld (by decide) u _))⟩
  · exact (hrestored (budgetFields_acc f hf hacc hpc) u i).trans (rdU_expertRestore (s := pageAccess u s) hf hacc hpc hs u i)
  · rw [restorePage_eq hu]
    exact (hstays hf hacc).rdU rfl rfl u i
  · rw [restorePage_eq hu]
    exact rdU_expertRestore_other hne f i _
  · rw [hrestored hn]
    exact hor.elim (fun hacc => (hstays hf hacc).rdU rfl rfl u' i) fun hne => rdU_expertRestore_other hne f i _

end Sys2Proof.Machine

namespace Sys2Proof.Machine

open Sys2Proof

/-! ### LARDER_FLUSH (R147) -/

theorem rdU_larderFlush_self (u i : Nat) (s : State) : rdU (larderFlush u s) F.re_TAG_VALID u i = 0 :=
  rdU_of_find_none (s := larderFlush u s) (smFind_filter_none _ _ _ fun _ => by simp) (by decide)

theorem rdU_larderFlush_other {u u' : Nat} (hu : u' ≠ u) (i : Nat) (s : State) :
    rdU (larderFlush u s) F.re_TAG_VALID u' i = rdU s F.re_TAG_VALID u' i :=
  rdU_of_find (smFind_filter _ _ _ fun _ => by simp [hu]) rfl rfl

theorem exec_larderFlush {inst : Nat} {s : State} (h : livePage s (unitOf 0x23 inst) = true)
    (hen : rdU s F.com_EXPERT_EN (unitOf 0x23 inst) 0 = 1) :
    exec (.larderFlush inst) s = .next (larderFlush (unitOf 0x23 inst) (pageAccess (unitOf 0x23 inst) s)) := by
  rw [exec, execLarderFlush]
  simp [h, hen]

/-- LARDER_FLUSH of a row engine whose page enables expert writes. -/
theorem larderFlush_completes {inst : Nat} {s : State} (h : livePage s (unitOf 0x23 inst) = true)
    (hen : rdU s F.com_EXPERT_EN (unitOf 0x23 inst) 0 = 1) : Completes (.larderFlush inst) s fun t =>
      (∀ i, rdU t F.re_TAG_VALID (unitOf 0x23 inst) i = 0) ∧
      (∀ u' i, u' ≠ unitOf 0x23 inst → rdU t F.re_TAG_VALID u' i = rdU s F.re_TAG_VALID u' i) ∧
      MemKept s t ∧ FieldsKept [F.re_TAG_VALID] s t :=
  ⟨_, exec_larderFlush h hen, fun i => rdU_larderFlush_self _ i _, fun _ i hu => rdU_larderFlush_other hu i _,
    larderFlush_mem _ _ (pageAccess_kept_of _ s).1,
    fieldsKept_of_access [159] (by decide) fun _ hn => larderFlush_fld _ _ hn (FieldKept.refl _ _)⟩

end Sys2Proof.Machine

namespace Sys2Proof.Machine

open Sys2Proof

/-! ### EXPERT_RESTORE of a field that the register map lists twice (R355) -/

/-- The place of BAND_PRESET on the page of array group 0. -/
def bandKey : FKey := ⟨F.ag_BAND_PRESET.fid, unitOf 0x11 0, 0⟩

/-- A part whose clocks run and whose register map lists BAND_PRESET of array group 0 twice: the expert encoding 3 in front,
which reads show, and behind it the basic encoding 2. -/
def doubledBand : State := { State.blank .t64b .clocked with flds := [(bandKey, 3), (bandKey, 2)] }

/-- The same part with BAND_PRESET written once, as 3: a state that `expertRestore_completes` speaks of. -/
theorem witness_expertRestore_completes :
    let s := wrU F.ag_BAND_PRESET (unitOf 0x11 0) 0 3 (State.blank .t64b .clocked)
    livePage s (unitOf 0x11 0) = true ∧ ListsOnce s ∧ expertCode F.ag_BAND_PRESET (rdU s F.ag_BAND_PRESET (unitOf 0x11 0) 0) = true :=
  ⟨by decide +kernel, (listsOnce_blank _ _).wrU _ _ _ _, by decide +kernel⟩

theorem not_listsOnce_doubledBand : ¬ ListsOnce doubledBand := by
  unfold ListsOnce
  decide

/-- EXPERT_RESTORE drops the entry that holds the expert encoding, and reads then show the other one. -/
theorem rdU_expertRestore_doubledBand :
    rdU (restorePage (unitOf 0x11 0) (pageAccess (unitOf 0x11 0) doubledBand)) F.ag_BAND_PRESET (unitOf 0x11 0) 0 = 2 := by
  decide +kernel

/-- Refutes O37: nothing in it says that the register map lists a place once. EXPERT_RESTORE drops an entry of a basic field by
the encoding that the entry holds, so that of two entries for one place it can drop the one in front, whose encoding is the
expert one, and leave the other, which is not the reset value. A register write leaves one entry for its place
(`ListsOnce.wrU`), and where the map lists each place once the clauses of O37 hold: `cntClear_completes`,
`expertRestore_completes` and `larderFlush_completes`. -/
theorem not_pageClears : ¬ Obligations.PageClears := by
  unfold Obligations.PageClears
  intro h
  have hlive : livePage doubledBand (unitOf 0x11 0) = true := by decide +kernel
  obtain ⟨-, ⟨t, ht, hrw, -⟩, -⟩ := h (unitOf 0x11 0) doubledBand hlive
  have hreset : rdU t F.ag_BAND_PRESET (unitOf 0x11 0) 0 = resetVal .t64b F.ag_BAND_PRESET (unitOf 0x11 0) 0 :=
    (hrw F.ag_BAND_PRESET (by decide +kernel) rfl (by decide) 0).trans (if_pos (by decide +kernel))
  obtain rfl : _ = t := Host.Outcome.next.inj ((exec_expertRestore hlive).symm.trans ht)
  exact absurd (rdU_expertRestore_doubledBand.symm.trans hreset) (by decide)

end Sys2Proof.Machine

namespace Sys2Proof.Machine

open Sys2Proof

/-! ### What reports and the start of an operation leave alone -/

theorem bare_guardEntry (die tag gen kind lines dieCode addr cycles : Nat) (s : State) :
    bare (guardEntry die tag gen kind lines dieCode addr cycles s) = bare s := by simp [guardEntry]

theorem bare_readReport (space a n tag : Nat) (s : State) : bare (readReport space a n tag s) = bare s := by
  unfold readReport readReportOf viewReport
  split <;> simp

theorem bare_reportReads (tag : Nat) (rs : List Range) (s : State) : bare (reportReads tag rs s) = bare s :=
  bare_foldl _ _ fun s r => bare_readReport r.space r.base r.len tag s

theorem bare_guardEntryOf (e c : Nat) (rs : List Range) (s : State) : bare (guardEntryOf e c rs s) = bare s := by
  unfold guardEntryOf
  split
  · exact bare_guardEntry _ _ _ _ _ _ _ _ _
  · rfl

theorem bare_chainOverlap (e : Nat) (r : OpResult) (s : State) : bare (chainOverlap e r s) = bare s := by
  unfold chainOverlap
  split
  · rw [bare_programFatal, bare_errorLog]
  · rfl

theorem bare_store (space a : Nat) (bs : List Byte) (s : State) : bare (store space a bs s) = bare s :=
  (bare_writeBytes _ _ _ _).trans (bare_keepOld _ _ _ _ _)

/-- Reads that meet no poisoned word and no page beyond a view report nothing. -/
theorem reportReads_clean (tag : Nat) {rs : List Range} {s : State} (h : CleanReads rs s) : reportReads tag rs s = s := by
  induction rs with
  | nil => rfl
  | cons r rs ih =>
    obtain ⟨⟨hpoison, hview⟩, hrest⟩ := List.forall_mem_cons.1 h
    have hread : readReport r.space r.base r.len tag s = s := by
      simp only [readReport, readReportOf, viewReport, hpoison, hview, Bool.false_eq_true, if_false]
    calc reportReads tag (r :: rs) s = reportReads tag rs (readReport r.space r.base r.len tag s) := rfl
      _ = s := by rw [hread, ih hrest]

theorem guardEntryOf_none {e c : Nat} {rs : List Range} {s : State} (h : earlySummary s c rs = none) :
    guardEntryOf e c rs s = s := by
  unfold guardEntryOf
  rw [h]

/-- An entry that reads nothing early and nothing poisoned starts its operation and no more. -/
theorem chainIssue_clean {q : Query} {i rc land : Nat} {r : OpResult} {s : State} (hearly : earlySummary s rc r.reads = none)
    (hclean : CleanReads r.reads s) : chainIssue q i rc land r s = addOp (chainOp q.ep q.k i land r) s := by
  rw [chainIssue, guardEntryOf_none hearly, reportReads_clean _ hclean]

theorem addOp_tracker (p : PendingOp) (s : State) :
    (addOp p s).tracker = s.tracker ++ [{ p with start := nowNs s, id := s.opCount }] := rfl

/-- A program-fatal error stops issue, now or where an earlier one did (R173). -/
theorem programFatal_stops (die kind tag : Nat) (s : State) : (programFatal die kind tag s).stopAt.isSome = true := by
  unfold programFatal
  dsimp only
  split
  · next b hb => rw [hb]; rfl
  · rfl

theorem chainOverlap_stops (e : Nat) {r : OpResult} (h : r.overlap = true) (s : State) :
    (chainOverlap e r s).stopAt.isSome = true := by
  rw [chainOverlap, if_pos h]
  exact programFatal_stops _ _ _ _

theorem chainOverlap_none (e : Nat) {r : OpResult} (h : r.overlap = false) (s : State) : chainOverlap e r s = s :=
  if_neg (ne_true_of_eq_false h)

theorem unlessOverlap_none {r : OpResult} (h : r.overlap = false) : r.unlessOverlap = r := if_neg (ne_true_of_eq_false h)

theorem unlessOverlap_writes {r : OpResult} (h : r.overlap = true) : r.unlessOverlap.writes = [] := by
  rw [OpResult.unlessOverlap, if_pos h]

theorem unlessOverlap_reads (r : OpResult) : r.unlessOverlap.reads = r.reads := by
  unfold OpResult.unlessOverlap
  split <;> rfl

/-! ### The arrays that a product occupies -/

/-- The core cycle, the long operations in flight and the queries: what the occupation of arrays leaves alone. -/
def flightView (s : State) : Nat × List PendingOp × List Query := (s.core, s.tracker, s.queries)

theorem flightView_of_bare {s t : State} (h : bare t = bare s) : flightView t = flightView s := by
  change flightView (bare t) = flightView (bare s)
  rw [h]

theorem flightView_abortSweep (inst die p t : Nat) (s : State) : flightView (abortSweep inst die p t s) = flightView s := by
  unfold abortSweep
  dsimp only
  split
  · split
    · rfl
    · split
      · exact (flightView_of_bare (bare_sat _ _ _ _ _)).trans rfl
      · rfl
  · rfl

theorem flightView_advanceAudit (inst die p l : Nat) (s : State) : flightView (advanceAudit inst die p l s) = flightView s := by
  unfold advanceAudit
  dsimp only
  split
  · rfl
  · split <;> rfl

theorem flightView_occupyArrays (inst die t : Nat) (sparse : Bool) (arrs : List (Nat × Nat × ArrRes × SegIn)) (s : State) :
    flightView (occupyArrays inst die t sparse arrs s) = flightView s := by
  refine foldl_same flightView (fun s a => ?_) _ _
  have hfree := flightView_abortSweep inst die a.2.1 t s
  dsimp only
  split
  · exact hfree
  · exact (flightView_advanceAudit _ _ _ _ _).trans hfree

theorem flightView_eq_iff {s : State} {c : Nat} {ps : List PendingOp} {qs : List Query} :
    flightView s = (c, ps, qs) ↔ s.core = c ∧ s.tracker = ps ∧ s.queries = qs := by simp [flightView]

/-- What a chain entry's issue adds to what is in flight: its own operation. -/
theorem flightView_chainIssue (q : Query) (i rc land : Nat) (r : OpResult) (s : State) : ∃ p,
    flightView (chainIssue q i rc land r s) = (s.core, s.tracker ++ [p], s.queries) ∧
    p.die = 16 + q.ep ∧ p.tag = q.k * 64 + i ∧ p.landed = false ∧ p.land = some land ∧ p.writes = r.writes := by
  let u := reportReads (epTag q.ep) r.reads (guardEntryOf q.ep rc r.reads s)
  have hbare : bare u = bare s := (bare_reportReads _ _ _).trans (bare_guardEntryOf _ _ _ _)
  obtain ⟨hcore, htracker, hqueries⟩ := flightView_eq_iff.1 (flightView_of_bare hbare)
  refine ⟨{ chainOp q.ep q.k i land r with start := nowNs u, id := u.opCount }, ?_, rfl, rfl, rfl, rfl, rfl⟩
  exact flightView_eq_iff.2 ⟨hcore, congrArg (· ++ _) htracker, hqueries⟩

/-! ### A query found and changed -/

theorem findQuery_spec {s : State} {e k : Nat} {q : Query} (h : findQuery s e k = some q) :
    q ∈ s.queries ∧ q.ep = e ∧ q.k = k := by
  obtain ⟨hep, hk⟩ := Bool.and_eq_true_iff.1 (List.find?_some (p := fun q : Query => q.ep == e && q.k == k) h)
  exact ⟨List.mem_of_find?_eq_some h, eq_of_beq hep, eq_of_beq hk⟩

theorem nextStart_spec {s : State} {e : Nat} {q : Query} (h : nextStart s e = some q) : q ∈ s.queries ∧ q.ep = e := by
  obtain ⟨hq, hep⟩ := List.mem_filter.1 (List.mem_filter.1 (List.mem_of_find?_eq_some h)).1
  exact ⟨hq, eq_of_beq hep⟩

theorem mem_queries_putQuery {q r : Query} {s : State} (hr : r ∈ s.queries) (hep : r.ep = q.ep) (hk : r.k = q.k) :
    q ∈ (putQuery q s).queries := List.mem_map.2 ⟨r, hr, if_pos ⟨hep, hk⟩⟩

@[simp] theorem putQuery_same_core (q : Query) (s : State) : (putQuery q s).core = s.core := rfl
@[simp] theorem putQuery_same_mem (q : Query) (s : State) : (putQuery q s).mem = s.mem := rfl
@[simp] theorem putQuery_same_tracker (q : Query) (s : State) : (putQuery q s).tracker = s.tracker := rfl
@[simp] theorem putQuery_same_busy (q : Query) (s : State) : (putQuery q s).busy = s.busy := rfl
@[simp] theorem putQuery_same_stopAt (q : Query) (s : State) : (putQuery q s).stopAt = s.stopAt := rfl

@[simp] theorem setBusy_same_tracker (n c : Nat) (s : State) : (setBusy n c s).tracker = s.tracker := rfl
@[simp] theorem setBusy_same_queries (n c : Nat) (s : State) : (setBusy n c s).queries = s.queries := rfl
@[simp] theorem setBusy_same_stopAt (n c : Nat) (s : State) : (setBusy n c s).stopAt = s.stopAt := rfl

/-! ### CHAIN_START (R215, R218) -/

theorem cellAt_scratch {space a : Nat} (h0 : space ≠ memSpace) (h8 : space < 8) (ha : a < scratchBytes) (s : State) :
    cellAt s space a = some (cell space a) := by
  rw [cellAt, if_neg h0, if_pos h8, if_pos ha]

/-- Beside device memory, what a read finds is memory's alone. -/
theorem readBytes_of_mem {space : Nat} {s t : State} (h0 : space ≠ memSpace) (hmem : t.mem = s.mem) (a n : Nat) :
    readBytes t space a n = readBytes s space a n := by
  have hbyte (x : Nat) : readByte t space x = readByte s space x := by simp [readByte, cellAt, h0, hmem]
  simp only [readBytes, hbyte]

theorem cell_inj {space a b : Nat} (h : cell space a = cell space b) : a = b :=
  Nat.eq_of_mul_eq_mul_right (by decide : 0 < 64) (Nat.add_right_cancel h)

/-- Bytes stored within a scratchpad are read back, and no other cell changes. -/
theorem store_scratch {space a : Nat} {bs : List Byte} (h0 : space ≠ memSpace) (h8 : space < 8)
    (hfit : a + bs.length ≤ scratchBytes) (s : State) :
    readBytes (store space a bs s) space a bs.length = bs ∧
    ∀ c, ¬(c % 64 = space ∧ a ≤ c / 64 ∧ c / 64 < a + bs.length) →
      cellGet c (store space a bs s).mem = cellGet c s.mem := by
  have hcell (i : Nat) (hi : i < bs.length) : cellAt s space (a + i) = some (cell space (a + i)) :=
    cellAt_scratch h0 h8 (by omega) s
  refine ⟨readBytes_storeAs none (fun i hi => ⟨_, hcell i hi⟩) fun i j hi hj h => ?_, fun c hc =>
    cellGet_storeAs_other none fun i hi h => hc ?_⟩
  · rw [hcell i hi, hcell j hj] at h
    exact Nat.add_left_cancel (cell_inj (Option.some.inj h))
  · rw [hcell i hi, Option.some_inj, cell] at h
    omega

/-- The input of query `q` as bytes: as many words as the chain of endpoint `e` takes. -/
def inputBytes (s : State) (e : Nat) (q : Query) : List Byte :=
  (List.range (epInput s e)).flatMap fun i => natLe 2 (q.input.getD i 0)

theorem chainStart_eq {e : Nat} {q : Query} {s : State} (hq : nextStart s e = some q) (hland : landedBy s (32 * q.origin) = true) :
    chainStart e s = putQuery { q with started := true } (store (dieSpace (epDie s e))
      (Config.queryBuffer (e + 256 * q.k) % 2 ^ 48) (inputBytes s e q) (advanceTo (32 * q.origin) s)) := by
  unfold chainStart
  rw [hq]
  dsimp only
  rw [hland]
  rfl

/-- The origin of the query of endpoint `e` that starts next. -/
theorem chainStart_completes {e : Nat} {q : Query} {s : State} (hq : nextStart s e = some q)
    (hland : landedBy s (32 * q.origin) = true) :
    let a := Config.queryBuffer (e + 256 * q.k) % 2 ^ 48
    let bytes := inputBytes s e q
    let space := dieSpace (epDie s e)
    Completes (.chainStart e) s fun t =>
      t.core = max s.core (32 * q.origin) ∧
      (epDie s e < 4 → a + bytes.length ≤ scratchBytes → readBytes t space a bytes.length = bytes ∧
        ∀ k, ¬(k % 64 = space ∧ a ≤ k / 64 ∧ k / 64 < a + bytes.length) → cellGet k t.mem = cellGet k s.mem) ∧
      (∃ q' ∈ t.queries, q'.ep = e ∧ q'.k = q.k ∧ q'.started = true ∧ q'.input = q.input) ∧
      FieldsKept [F.qe_OUTSTANDING] s t := by
  intro a bytes space
  obtain ⟨hmem, hep⟩ := nextStart_spec hq
  have hfields : FieldsKept [F.qe_OUTSTANDING] s (chainStart e s) :=
    fieldsKept_of_numbers [241] (by decide) fun n hn => chainStart_fld e s hn (FieldKept.refl n s)
  refine ⟨chainStart e s, rfl, ?_, fun hdie hfit => ?_, ⟨{ q with started := true }, ?_, hep, rfl, rfl, rfl⟩, hfields⟩
  · rw [chainStart_eq hq hland]
    exact (congrArg State.core (bare_store _ _ _ _) :).trans (Nat.max_comm _ _)
  · have hspace : space = epDie s e + 1 := if_pos (by omega)
    have h0 : space ≠ memSpace := by rw [hspace]; exact Nat.succ_ne_zero _
    obtain ⟨hread, hother⟩ := store_scratch h0 (by omega) hfit (advanceTo (32 * q.origin) s)
    rw [chainStart_eq hq hland, readBytes_of_mem h0 (putQuery_same_mem _ _), putQuery_same_mem]
    exact ⟨hread, hother⟩
  · rw [chainStart_eq hq hland]
    have hqueries (t : State) : (store (dieSpace (epDie s e)) a bytes t).queries = t.queries :=
      (congrArg State.queries (bare_store _ _ _ t) :)
    exact mem_queries_putQuery (r := q) ((hqueries _).symm ▸ hmem) rfl rfl

/-! ### CHAIN_ENTRY: the next entry of a query's chain (R215) -/

/-- Query `k` of endpoint `e` is `q`, whose chain has started, and `c` is the entry that issues next. -/
structure NextEntry (s : State) (e k : Nat) (q : Query) (c : Cmd) : Prop where
  found : findQuery s e k = some q
  started : q.started = true
  entry : (chainOf s e).entries[q.next]? = some c

/-- What an entry is run with: the chain's registers, and the tag of its endpoint (R195, R215). -/
def entryCtx (s : State) (e k : Nat) : Ctx := { chainCtx s e k (chainOf s e) with tag := epTag e }

/-- The work of a vector entry that issues at core cycle `n`. -/
def vectorEntry (s : State) (e k : Nat) (c : Cmd) (n : Nat) : OpResult :=
  vectorWork c.op (entryCtx s e k) c (asOf n (advanceTo n s))

/-- The work of a product entry whose first integration period is `off`. -/
def productEntry (s : State) (e k : Nat) (c : Cmd) (off : Nat) (codes : List (Nat × Int)) : ProdOut :=
  let s1 := advanceTo (32 * (off - 1)) s
  productWork (entryCtx s e k) c (c.waitA / 16) c.waitA off codes
    (asOf (readCycle (c.waitA / 16) (entryCtx s e k) c (off - 1)) s1) s1

/-- CHAIN_ENTRY leaves the assembly variant, so that it leaves the sequencers where it leaves their fields. -/
theorem chainEntry_sequencers {e k : Nat} {codes : List (Nat × Int)} {s : State}
    (hf : ∀ n ∈ [F.sq_ADDR_VAL.fid, F.sq_PRED.fid], FieldKept n s (chainEntry e k codes s)) :
    SequencersKept s (chainEntry e k codes s) :=
  sequencersKept_of_fields (chainEntry_kept e k codes s (Kept.refl s)).variant (hf _ (by simp)) (hf _ (by simp))

section Entry

variable {e k : Nat} {codes : List (Nat × Int)} {q : Query} {c : Cmd} {s : State} (h : NextEntry s e k q c)

include h

/-- A change of the query that issues stands among the queries. -/
theorem NextEntry.putQuery_lists {t : State} (ht : t.queries = s.queries) {q' : Query} (hep : q'.ep = q.ep) (hk : q'.k = q.k)
    {P : Query → Prop} (hP : P q') : ∃ r ∈ (putQuery q' t).queries, r.ep = e ∧ r.k = k ∧ P r := by
  obtain ⟨hmem, hqe, hqk⟩ := findQuery_spec h.found
  exact ⟨q', mem_queries_putQuery (ht ▸ hmem) hep.symm hk.symm, hep.trans hqe, hk.trans hqk, hP⟩

/-! ### A vector entry (R156, R205) -/

/-- A vector entry starts its operation, reports an overlap, occupies its engine and brings its query to the next entry. -/
theorem chainEntry_vector (hcls : c.cls ≠ 5) :
    let n := 32 * (q.origin + c.issueOffset)
    let w := vectorEntry s e k c n
    let r := w.unlessOverlap
    let u := chainOverlap e w (chainIssue q q.next n (n + r.lat.getD 0) r (advanceTo n s))
    landedBy s n = true → ∃ q', chainEntry e k codes s = putQuery q' (setBusy (engineKey (epDie u e) 79) (n + r.occ) u) ∧
      q'.ep = q.ep ∧ q'.k = q.k ∧ q'.next = q.next + 1 := by
  intro n w r u hland
  unfold chainEntry
  simp only [h.found, h.entry, h.started, hcls, if_false, false_and]
  rw [if_neg (by simpa [hcls] using hland)]
  exact ⟨_, rfl, rfl, rfl, rfl⟩

/-- One that reads nothing early and nothing poisoned reports neither. -/
theorem chainEntry_vector_clean (hcls : c.cls ≠ 5) :
    let n := 32 * (q.origin + c.issueOffset)
    let w := vectorEntry s e k c n
    let r := w.unlessOverlap
    let u := chainOverlap e w (addOp (chainOp e k q.next (n + r.lat.getD 0) r) (advanceTo n s))
    landedBy s n = true → earlySummary (advanceTo n s) n w.reads = none → CleanReads w.reads (advanceTo n s) →
    ∃ q', chainEntry e k codes s = putQuery q' (setBusy (engineKey (epDie u e) 79) (n + r.occ) u) ∧
      q'.ep = q.ep ∧ q'.k = q.k ∧ q'.next = q.next + 1 := by
  intro n w r u hland hearly hclean
  have hissue : chainIssue q q.next n (n + r.lat.getD 0) r (advanceTo n s) =
      addOp (chainOp e k q.next (n + r.lat.getD 0) r) (advanceTo n s) := by
    obtain ⟨-, rfl, rfl⟩ := findQuery_spec h.found
    exact chainIssue_clean (by rwa [unlessOverlap_reads]) (by rwa [unlessOverlap_reads])
  have heq := chainEntry_vector (codes := codes) h hcls hland
  rwa [hissue] at heq

/-- An entry whose writes overlap its reads: it writes nothing and is a program-fatal error (R156, R173). -/
theorem vectorEntry_overlaps (hcls : c.cls ≠ 5) :
    let n := 32 * (q.origin + c.issueOffset)
    let w := vectorEntry s e k c n
    landedBy s n = true → earlySummary (advanceTo n s) n w.reads = none → CleanReads w.reads (advanceTo n s) →
    w.overlap = true → Completes (.chainEntry e k codes) s fun t =>
      (∃ p, t.tracker = s.tracker ++ [p] ∧ p.die = 16 + e ∧ p.tag = k * 64 + q.next ∧ p.writes = []) ∧
      t.stopAt.isSome ∧ (∃ q' ∈ t.queries, q'.ep = e ∧ q'.k = k ∧ q'.next = q.next + 1) := by
  intro n w hland hearly hclean hoverlap
  obtain ⟨q', heq, hep, hk, hnext⟩ := chainEntry_vector_clean (codes := codes) h hcls hland hearly hclean
  have hbare := bare_chainOverlap e w (addOp (chainOp e k q.next (n + w.unlessOverlap.lat.getD 0) w.unlessOverlap) (advanceTo n s))
  refine ⟨chainEntry e k codes s, rfl, ?_, ?_, ?_⟩
  · rw [heq, putQuery_same_tracker, setBusy_same_tracker]
    exact ⟨_, (congrArg State.tracker hbare :), rfl, rfl, unlessOverlap_writes hoverlap⟩
  · rw [heq, putQuery_same_stopAt, setBusy_same_stopAt]
    exact chainOverlap_stops e hoverlap _
  · rw [heq]
    exact h.putQuery_lists (congrArg State.queries hbare :) hep hk hnext

/-- An entry whose writes do not overlap its reads: they are to land, and the engine is occupied (R205). -/
theorem vectorEntry_completes (hcls : c.cls ≠ 5) :
    let n := 32 * (q.origin + c.issueOffset)
    let w := vectorEntry s e k c n
    landedBy s n = true → earlySummary (advanceTo n s) n w.reads = none → CleanReads w.reads (advanceTo n s) →
    w.overlap = false → Completes (.chainEntry e k codes) s fun t =>
      (∃ p, t.tracker = s.tracker ++ [p] ∧ p.die = 16 + e ∧ p.tag = k * 64 + q.next ∧ p.writes = w.writes ∧
        p.land = some (n + w.lat.getD 0) ∧ p.landed = false) ∧
      busyUntil t (engineKey (epDie s e) 79) = n + w.occ ∧
      (∃ q' ∈ t.queries, q'.ep = e ∧ q'.k = k ∧ q'.next = q.next + 1) ∧ MemKept s t ∧ SequencersKept s t := by
  intro n w hland hearly hclean hoverlap
  obtain ⟨q', heq, hep, hk, hnext⟩ := chainEntry_vector_clean (codes := codes) h hcls hland hearly hclean
  rw [unlessOverlap_none hoverlap, chainOverlap_none e hoverlap] at heq
  have hsequencers : SequencersKept s (chainEntry e k codes s) := chainEntry_sequencers fun m hm => by
    rw [heq]
    exact putQuery_fld _ _ (by revert m; decide) (setBusy_fld _ _ _ _ (addOp_fld _ _ _ (advanceTo_fld _ _ _ (FieldKept.refl m s))))
  have hmemory : MemKept s (chainEntry e k codes s) := by
    rw [heq]
    exact putQuery_mem _ _ (setBusy_mem _ _ _ (addOp_mem _ _ (advanceTo_mem _ _ (MemKept.refl s))))
  refine ⟨chainEntry e k codes s, rfl, ?_, ?_, ?_, hmemory, hsequencers⟩
  · rw [heq, putQuery_same_tracker, setBusy_same_tracker]
    exact ⟨_, addOp_tracker _ _, rfl, rfl, rfl, rfl, rfl⟩
  · rw [heq, busyUntil, putQuery_same_busy]
    exact nmGet_set_self _ _ _ _
  · rw [heq]
    exact h.putQuery_lists rfl hep hk hnext

/-! ### A product entry (R207, R216) -/

/-- A product entry whose group is not ready does not run. -/
theorem chainEntry_unready (hcls : c.cls = 5) (hland : landedBy s (32 * (q.origin + c.issueOffset - 1)) = true)
    (hheld : productHeld s (c.waitA / 16) (entryCtx s e k) c (q.origin + c.issueOffset - 1) = false)
    (hready : groupReady s c.waitA = false) :
    chainEntry e k codes s = putQuery { q with unready := true } (advanceTo (32 * (q.origin + c.issueOffset - 1)) s) := by
  unfold chainEntry
  simp only [h.found, h.entry, h.started, hcls, if_true]
  rw [if_neg (by rw [hland]; exact ne_true_of_eq_false hheld), if_pos ⟨trivial, by rw [hready]; rfl⟩]

/-- One whose group is ready starts its operation, occupies its arrays, brings its query to the next entry and time to its first
integration period. -/
theorem chainEntry_product (hcls : c.cls = 5) :
    let off := q.origin + c.issueOffset
    let o := productEntry s e k c off codes
    landedBy s (32 * (off - 1)) = true → productHeld s (c.waitA / 16) (entryCtx s e k) c (off - 1) = false →
    groupReady s c.waitA = true → ∃ q', chainEntry e k codes s =
      advanceTo (32 * off) (putQuery q'
        (occupyArrays c.waitA (c.waitA / 16) (off - 1) c.aSparse o.arrays
          (chainIssue q q.next (readCycle (c.waitA / 16) (entryCtx s e k) c (off - 1)) (32 * (off + o.land)) o.res
            (advanceTo (32 * (off - 1)) s)))) ∧
      q'.ep = q.ep ∧ q'.k = q.k ∧ q'.next = q.next + 1 := by
  intro off o hland hheld hready
  unfold chainEntry
  simp only [h.found, h.entry, h.started, hcls, if_true]
  rw [if_neg (by rw [hland]; exact ne_true_of_eq_false hheld), if_neg (by rw [hready]; exact fun hn => absurd hn.2 (by decide))]
  exact ⟨_, rfl, rfl, rfl, rfl⟩

/-- Its query notes that, and nothing is in flight for it. -/
theorem productEntry_unready (hcls : c.cls = 5) (hland : landedBy s (32 * (q.origin + c.issueOffset - 1)) = true)
    (hheld : productHeld s (c.waitA / 16) (entryCtx s e k) c (q.origin + c.issueOffset - 1) = false)
    (hready : groupReady s c.waitA = false) : Completes (.chainEntry e k codes) s fun t =>
      (∃ q' ∈ t.queries, q'.ep = e ∧ q'.k = k ∧ q'.next = q.next ∧ q'.unready = true) ∧ t.tracker = s.tracker ∧
      MemKept s t ∧ SequencersKept s t := by
  have heq := chainEntry_unready (codes := codes) h hcls hland hheld hready
  have hsequencers : SequencersKept s (chainEntry e k codes s) := chainEntry_sequencers fun m hm => by
    rw [heq]
    exact putQuery_fld _ _ (by revert m; decide) (advanceTo_fld _ _ _ (FieldKept.refl m s))
  have hmemory : MemKept s (chainEntry e k codes s) := by
    rw [heq]
    exact putQuery_mem _ _ (advanceTo_mem _ _ (MemKept.refl s))
  refine ⟨chainEntry e k codes s, rfl, ?_, ?_, hmemory, hsequencers⟩
  · rw [heq]
    exact h.putQuery_lists (q' := { q with unready := true }) rfl rfl rfl ⟨rfl, rfl⟩
  · rw [heq]
    rfl

/-- A product entry whose group is ready: time comes to its first integration period, and its writes are to land in the period
that R207 gives. -/
theorem productEntry_completes (hcls : c.cls = 5) :
    let off := q.origin + c.issueOffset
    let o := productEntry s e k c off codes
    landedBy s (32 * (off - 1)) = true → productHeld s (c.waitA / 16) (entryCtx s e k) c (off - 1) = false →
    groupReady s c.waitA = true → Completes (.chainEntry e k codes) s fun t =>
      t.core = max s.core (32 * off) ∧ t.tracker.length = s.tracker.length + 1 ∧
      (∃ p ∈ t.tracker, p.die = 16 + e ∧ p.tag = k * 64 + q.next ∧ p.landed = false ∧
        p.land = some (32 * (off + o.land)) ∧ p.writes = o.res.writes) ∧
      (∃ q' ∈ t.queries, q'.ep = e ∧ q'.k = k ∧ q'.next = q.next + 1) ∧ SequencersKept s t := by
  intro off o hland hheld hready
  obtain ⟨q', heq, hep, hk, hnext⟩ := chainEntry_product (codes := codes) h hcls hland hheld hready
  obtain ⟨-, rfl, rfl⟩ := findQuery_spec h.found
  have hsequencers : SequencersKept s (chainEntry q.ep q.k codes s) := chainEntry_sequencers fun m hm => by
    rw [heq]
    exact advanceTo_fld _ _ _ (putQuery_fld _ _ (by revert m; decide) (occupyArrays_fld _ _ _ _ _ _ (by revert m; decide)
      (chainIssue_fld _ _ _ _ _ _ (by revert m; decide) (advanceTo_fld _ _ _ (FieldKept.refl m s)))))
  obtain ⟨p, hissue, hdie, htag, hlanded, hlands, hwrites⟩ := flightView_chainIssue q q.next
    (readCycle (c.waitA / 16) (entryCtx s q.ep q.k) c (off - 1)) (32 * (off + o.land)) o.res (advanceTo (32 * (off - 1)) s)
  obtain ⟨hcore, htracker, hqueries⟩ := flightView_eq_iff.1 ((flightView_occupyArrays c.waitA (c.waitA / 16) (off - 1) c.aSparse
    o.arrays _).trans hissue)
  have hflight : (chainEntry q.ep q.k codes s).tracker = s.tracker ++ [p] := by
    rw [heq, advanceTo_same_tracker, putQuery_same_tracker]
    exact htracker
  refine ⟨chainEntry q.ep q.k codes s, rfl, ?_, ?_, ⟨p, ?_, hdie, htag, hlanded, hlands, hwrites⟩, ?_, hsequencers⟩
  · have htime : max (32 * off) (max (32 * (off - 1)) s.core) = max s.core (32 * off) := by omega
    rw [heq]
    exact (congrArg (max (32 * off)) hcore).trans htime
  · simp [hflight]
  · simp [hflight]
  · rw [heq]
    exact h.putQuery_lists hqueries hep hk hnext

end Entry

/-- Settles O55: the origin of a chain, a vector entry with and without an overlap, and a product entry whose group is ready
and one whose group is not, each by what its function does. That a product entry waits for what its read cycle and its first
integration period see, and brings time to that period, is the model's choice (log 125). -/
theorem chainCommands : Obligations.ChainCommands := by
  unfold Obligations.ChainCommands
  refine ⟨fun e q s => chainStart_completes, fun e k codes q c s hfound hstarted hentry => ?_⟩
  have h : NextEntry s e k q c := ⟨hfound, hstarted, hentry⟩
  exact ⟨fun hcls hland hearly hclean => ⟨vectorEntry_overlaps h hcls hland hearly hclean,
      vectorEntry_completes h hcls hland hearly hclean⟩,
    fun hcls hland hheld => ⟨productEntry_unready h hcls hland hheld, productEntry_completes h hcls hland hheld⟩⟩

end Sys2Proof.Machine

namespace Sys2Proof.Machine

open Sys2Proof

/-! ### What every meaning keeps: the queue, the variant and soundness -/

/-- The outcome is a next state that keeps the queue, the variant and the soundness of `s0`. -/
def Keeps (s0 : State) (o : Host.Outcome State Fault Refusal) : Prop := ∃ t, o = .next t ∧ Kept s0 t

section Keeps

variable {s0 s : State}

theorem Keeps.next {t : State} (h : Kept s0 t) : Keeps s0 (.next t) := ⟨t, rfl, h⟩

/-- A write to a page takes effect where the page is live. -/
theorem kept_access {f : State → State} {c : Prop} [Decidable c] (u : Nat) (hf : ∀ s, Kept s0 s → Kept s0 (f s))
    (h : Kept s0 s) :
    Kept s0 (if c then f (pageAccess u s) else s) :=
  Kept.ite (hf _ (pageAccess_kept u s h)) h

/-- A state and what `f` makes of it, whichever is taken. -/
theorem kept_either {f : State → State} {c : Prop} [Decidable c] (hf : ∀ s, Kept s0 s → Kept s0 (f s)) (h : Kept s0 s) :
    Kept s0 (if c then f s else s) :=
  Kept.ite (hf s h) h

/-! ### Meanings that are written out in their own arm -/

theorem execSweepConversionStart_keeps (die p ap : Nat) (h : Kept s0 s) : Keeps s0 (execSweepConversionStart die p ap s) :=
  .next (Kept.ite (advanceTo_kept _ _ (modSweep_kept _ _ _ _ h)) h)

theorem execSweepConversionDone_keeps (die p : Nat) (codes : List (Nat × Int)) (tripped : List Nat) (h : Kept s0 s) :
    Keeps s0 (execSweepConversionDone die p codes tripped s) := by
  refine .next ?_
  split
  · exact h
  · have hnow := advanceTo_kept (32 * (‹Nat› + 5)) s h
    exact Kept.ite (sat_kept _ _ _ _ _ (modSweep_kept _ _ _ _ hnow)) (finishConversion_kept _ _ _ _ _ _ hnow)

theorem execTableSwap_keeps (die p ap : Nat) (h : Kept s0 s) : Keeps s0 (execTableSwap die p ap s) := by
  refine .next ?_
  split
  · exact h
  · exact Kept.ite (installTable_kept _ _ _ (advanceTo_kept _ _ h)) h

theorem execSweepStale_keeps (die p : Nat) (h : Kept s0 s) : Keeps s0 (execSweepStale die p s) :=
  .next (Kept.ite (raiseEvent_kept _ _ _ _ (modSweep_kept _ _ _ _ h)) h)

theorem execArrayDiePoweredUp_keeps (die : Nat) (h : Kept s0 s) : Keeps s0 (execArrayDiePoweredUp die s) :=
  .next (Kept.ite (Kept.foldl _ (fun _ _ h => startVerify_kept _ _ _ h)
    (restoreLedgers_kept _ _ (h.of_eq rfl rfl rfl rfl rfl))) h)

theorem execPantryLoadDone_keeps (die p col : Nat) (h : Kept s0 s) : Keeps s0 (execPantryLoadDone die p col s) := by
  refine .next ?_
  extract_lets x
  split
  · exact Kept.ite h (kept_either (f := bypassLoaded die p col) (fun _ => bypassLoaded_kept _ _ _ _)
      (setColState_kept _ _ _ _ _ (setArrX_kept _ _ _ _ (partReport_kept _ _ _ h))))
  · exact h

theorem execEvictApply_keeps (die p : Nat) (h : Kept s0 s) : Keeps s0 (execEvictApply die p s) :=
  .next (Kept.ite h (Kept.foldl _ (fun _ _ h => wrA_kept _ _ _ _ _ _ (setColState_kept _ _ _ _ _ h)) (setArrX_kept _ _ _ _ h)))

theorem execColumnWriteStart_keeps (die p : Nat) (h : Kept s0 s) : Keeps s0 (execColumnWriteStart die p s) := by
  refine .next ?_
  split
  · exact Kept.ite h (startWrite_kept _ _ _ _ h)
  · exact h

theorem execColumnWriteDone_keeps (die p : Nat) (iters : List Nat) (held : List Int) (ap : Nat) (h : Kept s0 s) :
    Keeps s0 (execColumnWriteDone die p iters held ap s) := by
  refine .next ?_
  split
  · exact h
  · next w _ =>
    exact Kept.ite h (showOutstandingOf_kept _ _ _ (kept_either (f := beginVerify die p _) (fun _ => beginVerify_kept _ _ _ _)
      (modSweep_kept _ _ _ _ (voidColumn_kept _ _ _ _ (settleColumn_kept _ _ _ _ _ _ (addW_kept _ _ _ _ _
        (setArrX_kept _ _ _ _ (advanceTo_kept _ _ h))))))))

theorem execLongOpComplete_keeps (die tag : Nat) (met : Met) (late : Nat) (lost : Bool) (h : Kept s0 s) :
    Keeps s0 (execLongOpComplete die tag met late lost s) := by
  refine .next ?_
  split
  · exact h
  · have hmet := noteMet_kept met s h
    exact Kept.ite (deviceFatal_kept _ _ _ _ hmet) (Kept.ite (deviceFatal_kept _ _ _ _ (errorLog_kept _ _ _ _ _ _ _ _ _ hmet))
      (Kept.ite (retryOp_kept _ _ _ _ hmet) (cellarStruck_kept _ (endOp_kept _ _ hmet))))

/-- No instruction breaks what a step keeps: each one's meaning is made of operations that keep it. -/
theorem exec_keeps (h : Kept s0 s) : ∀ i, Keeps s0 (exec i s)
  | .nop q => .next (controlCmd_kept q _ _ s (fun _ _ h => h) h)
  | .loadi q | .add q | .sub q | .addi q | .muli q | .shl q | .shr q =>
    .next (controlCmd_kept q _ _ s (fun c _ => setDreg_kept q _ c _) h)
  | .cmp q | .cmpi q => .next (controlCmd_kept q _ _ s (fun _ _ => setFlag_kept q _ _ _ _) h)
  | .loop q => .next (controlCmd_kept q _ _ s (fun c s h => kept_either (jumpTo_kept q c) (setReg_kept q _ _ s h)) h)
  | .jump q => .next (controlCmd_kept q _ _ s (fun c _ => jumpTo_kept q c _) h)
  | .pstat q => .next (controlCmd_kept q _ _ s (fun _ s h => kept_either (clearSticky_kept q) (setFlag_kept q _ _ _ s h)) h)
  | .xload q => .next (controlCmd_kept q _ _ s (fun c _ => setDreg_kept q _ c _) h)
  | .token q => .next (streamCmd_kept q _ _ _ s (fun c t _ s => controlIssue_kept q c t _ _ s fun _ h => h) h)
  | .switchBin q => .next (streamCmd_kept q _ _ _ s (fun c t _ s => controlIssue_kept q c t _ _ s fun s h =>
      enterOther_kept q _ _ _ (setSeqState_kept q _ s h)) h)
  | .halt q => .next (controlCmd_kept q _ _ s (fun _ _ => toIdle_kept q _) h)
  | .redcfg q | .rowcfg q => .next (controlCmd_kept q _ _ s (fun _ _ => setSeqX_kept q _ _) h)
  | .matrixProduct q => .next (streamCmd_kept q _ _ _ s (fun c t _ => engineCmd_kept q _ c t) h)
  | .vecCopy _ | .convert _ | .vecAdd _ | .vecSub _ | .mul _ | .axpy _ | .vecAddi _ | .vecMuli _ | .div _ | .recip _
    | .sqrt _ | .rsqrt _ | .max _ | .min _ | .clamp _ | .abs _ | .neg _ | .relu _ | .exp _ | .vecCmp _ | .vecCmpi _
    | .select _ | .perm _ | .quant _ | .levelScale _ | .drift _ | .histThresh _ | .compact _ =>
    .next (vectorCmd_kept _ _ s h)
  | .normFwd _ | .normBwd _ | .softmaxFwd _ | .softmaxBwd _ | .merge _ | .mergeC _ => .next (rowCmd_kept _ _ s h)
  | .arrayProduct q codes => .next (.ite h (streamCmd_kept q _ _ _ s (fun c t _ => productCmd_kept q codes c t) h))
  | .copy q => .next (streamCmd_kept q _ _ _ s (fun c t _ => copyCmd_kept q c t) h)
  | .sendDense _ | .sendTopk _ | .sendSign _ | .sendOrdered _ => .next (sendCmd_kept _ _ s h)
  | .deltaBcast q => .next (streamCmd_kept q _ _ _ s (fun c t _ s => xIssue_kept q t _ s (startDelta_kept q c t)) h)
  | .remoteWrite q => .next (streamCmd_kept q _ _ _ s (fun c t _ s => xIssue_kept q t _ s (startRemoteWrite_kept q c t)) h)
  | .bucketWait q => .next (streamCmd_kept q _ _ _ s (fun c t _ s => xIssue_kept q t _ s (startWait_kept c)) h)
  | .longOpComplete _ _ _ _ _ => execLongOpComplete_keeps _ _ _ _ _ h
  | .tokenTimeout _ => .next (tokenTimeout_kept _ s h)
  | .delayedStart _ _ => .next (delayedStart_kept _ _ s h)
  | .programStop => .next (programStop_kept s h)
  | .programDump _ => .next (programDump_kept _ s h)
  | .binLoad _ _ _ => .next (kept_access _ (binLoad_kept _ _ _) h)
  | .binLoadDone _ => .next (binLoadDone_kept _ s h)
  | .binSwitchAtBoundary _ => .next (switchAtBoundary_kept _ s h)
  | .claim _ => .next (kept_access _ (claim_kept _) h)
  | .release _ => .next (kept_access _ (releaseClaim_kept _) h)
  | .claimExpired => .next (kept_either expireClaim_kept h)
  | .go _ _ => .next (kept_access _ (commitGo_kept _ _) h)
  | .discard => .next (kept_access _ discard_kept h)
  | .commitCheckDone => .next (checkDone_kept s h)
  | .commitApply => .next (commitApply_kept s h)
  | .stepSetApply => .next (stepSetApply_kept s h)
  | .membershipCommit => .next (membershipCommit_kept s h)
  | .vote f m => .next (memberMessage_kept f m _ s (takeVote_kept _ _) h)
  | .decision f m => .next (memberMessage_kept f m _ s (takeDecision_kept _) h)
  | .stepCommit => .next (stepCommit_kept s h)
  | .pantryRefresh _ _ _ => .next (pantryRefresh_kept _ _ _ s h)
  | .driftCheck => .next (driftCheck_kept s h)
  | .mixerTest => .next (kept_access _ mixerTest_kept h)
  | .runClear => .next (kept_access _ runClear_kept h)
  | .detectorReset => .next (kept_access _ detectorReset_kept h)
  | .denseAcc f x | .scatterAcc f x | .signAcc f x => .next (opMessage_kept f _ _ x _ s (contribution_kept _ _) h)
  | .orderedAcc f x => .next (opMessage_kept f _ _ x _ s (ordArrive_kept _ _) h)
  | .contribEnd f x => .next (opMessage_kept f _ _ x _ s (contribution_kept _ _) h)
  | .bucketDeadline _ => .next (settle_kept _ (bucketDeadline_kept _ s h))
  | .bucketReduced _ _ => .next (settle_kept _ (bucketReduced_kept _ _ s h))
  | .pull f x => .next (opMessage_kept f _ _ x _ s (onPull_kept _) h)
  | .reply f x => .next (opMessage_kept f _ _ x _ s (takeReply_kept _) h)
  | .notice f x => .next (opMessage_kept f _ _ x _ s (onNotice_kept _ _ _ _ _ _ _) h)
  | .table f x => .next (opMessage_kept f _ _ x _ s (onTable_kept _ _) h)
  | .delta f x => .next (opMessage_kept f _ _ x _ s (applyDelta_kept _) h)
  | .cellarDone f m => .next (memberMessage_kept f m _ s (takeCellar_kept _) h)
  | .crc f m => .next (memberMessage_kept f m _ s (takeCrc_kept _) h)
  | .crcComputeDone => .next (crcComputeDone_kept s h)
  | .writeStale f m => .next (memberMessage_kept f m _ s (pageStale_kept _ _) h)
  | .remoteWriteMsg f _ _ _ _ _ => .next (receive_kept f _ _ _ _ s
      (fun _ h => cellarStruck_kept _ (takeWrite_kept f _ _ _ _ _ _ h)) (ordResume_kept _) h)
  | .tokenFrame f _ _ _ => .next (receiveToken_kept f _ _ _ _ s (ordResume_kept _) h)
  | .ack _ => .next (takeAck_kept _ s h)
  | .ackDelay _ => .next (ackDelay_kept _ s h)
  | .retransmit _ _ => .next (retransmit_kept _ _ s h)
  | .pageWalkSend _ _ _ _ => .next (pageWalkSend_kept _ _ _ _ s h)
  | .heartbeatSend => .next (heartbeatSend_kept s h)
  | .heartbeat _ => .next (heartbeat_kept _ s h)
  | .suspect _ => .next (suspect_kept _ s h)
  | .queryReq _ _ _ _ _ => .next (queryReq_kept _ _ _ _ _ s h)
  | .queryDescriptor _ _ _ _ => .next (queryDescriptor_kept _ _ _ _ s h)
  | .chainStart _ => .next (chainStart_kept _ s h)
  | .chainEntry _ _ _ => .next (chainEntry_kept _ _ _ s h)
  | .queryResp _ _ => .next (queryResp_kept _ _ s h)
  | .queryUndelivered _ _ => .next (queryUndelivered_kept _ _ s h)
  | .sync m => .next (ptpTake_kept m _ s (onSync_kept _) h)
  | .followUp m => .next (ptpTake_kept m _ s (onFollowUp_kept _) h)
  | .delayReq m => .next (ptpTake_kept m _ s (onDelayReq_kept _) h)
  | .delayResp m => .next (ptpTake_kept m _ s (onDelayResp_kept _) h)
  | .announce m _ => .next (ptpTake_kept m _ s (onAnnounce_kept _ _) h)
  | .syncLoss => .next (syncLoss_kept s h)
  | .stepNs _ => .next (kept_access _ (stepNs_kept _) h)
  | .timeNsRead => .next (kept_access _ timeNsRead_kept h)
  | .linkUp _ => .next (linkUp_kept _ s h)
  | .linkDown _ => .next (linkDown_kept _ s h)
  | .hostIndex _ _ => .next (kept_access _ (doorbell_kept _ _) h)
  | .ringEnable _ _ => .next (kept_access _ (ringEnable_kept _ _) h)
  | .functionLevelReset => .next (kept_either hostBlockReset_kept h)
  | .d3hot => .next (.ite (hostBlockReset_kept _ (h.of_eq rfl rfl rfl rfl rfl)) h)
  | .perstNAssert => .next (perstAssert_kept s h)
  | .perstNRelease => .next (perstRelease_kept s h)
  | .bar0HalfRead _ _ => .next (bar0Read_kept _ _ s h)
  | .registerWrite _ _ _ _ => .next (registerWrite_kept _ _ _ _ s h)
  | .cntClear _ => .next (kept_access _ (clearPage_kept _) h)
  | .expertRestore _ => .next (kept_access _ (restorePage_kept _) h)
  | .ident | .status | .temps | .power => .next (smbusAnswer_kept _ _ s h)
  | .powerLimit _ _ => .next (powerLimit_kept _ _ s h)
  | .fatalSummary => .next (smbusAnswer_kept _ _ s h)
  | .aux3v3Up => .next (.ite (h.of_eq rfl rfl rfl rfl rfl) h)
  | .aux3v3Removed => .next (aux3v3Removed_kept s h)
  | .feedGood _ => .next (feedGood_kept _ s h)
  | .pwrOk => .next (pwrOk_kept s h)
  | .feedLost _ => .next (feedLost_kept _ s h)
  | .railFault _ _ => .next (railFault_kept _ _ s h)
  | .sysResetNAssert => .next (sysResetAssert_kept s h)
  | .sysResetNRelease _ => .next (sysResetRelease_kept _ s h)
  | .resetKey _ _ => .next (kept_access _ (resetKey_kept _) h)
  | .pllLock => .next (pllLock_kept s h)
  | .pllLockTimeout => .next (pllLockTimeout_kept s h)
  | .refclkFault => .next (kept_either (deviceFatal_kept _ _ _) h)
  | .blockReady _ _ => .next (blockReadyEvent_kept _ _ s h)
  | .orderlyOff => .next (kept_access _ orderlyOff_kept h)
  | .offReady => .next (offReady_kept s h)
  | .powerSample _ _ _ => .next (powerSample_kept _ _ _ s h)
  | .capEval => .next (capEval_kept s h)
  | .capUnmet => .next (capUnmet_kept s h)
  | .tempSample _ => .next (tempSample_kept _ s h)
  | .memoryStackLost _ => .next (kept_either (deviceFatal_kept _ _ _) h)
  | .watchdogExpiry _ => .next (.ite (deviceFatal_kept _ _ _ _ (setReady_kept _ _ _ _ s h)) h)
  | .dumpStart => .next (dumpStart_kept s h)
  | .dumpReady _ => .next (dumpReady_kept _ s h)
  | .dumpOnShelf => .next (dumpOnShelf_kept s h)
  | .dumpAck => .next (kept_access _ dumpAck_kept h)
  | .dumpRestore => .next (kept_access _ dumpRestore_kept h)
  | .scrub _ _ _ _ => .next (cellarStruck_kept _ (scrub_kept _ _ _ _ s h))
  | .rescan _ => .next (kept_access _ (rescan_kept _) h)
  | .nvmeCompletion _ _ _ _ _ => .next (kept_either (nvmeCompletion_kept _ _ _ _ _) h)
  | .nvmeTimeout _ => .next (kept_either (nvmeTimeout_kept _) h)
  | .sweepConversionStart _ _ _ => execSweepConversionStart_keeps _ _ _ h
  | .sweepConversionDone _ _ _ _ => execSweepConversionDone_keeps _ _ _ _ h
  | .tableSwap _ _ _ => execTableSwap_keeps _ _ _ h
  | .sweepStale _ _ => execSweepStale_keeps _ _ h
  | .verifyReq _ => .next (kept_access _ (verifyReq_kept _) h)
  | .verifyComplete _ _ => .next (kept_either (verifyComplete_kept _ _) h)
  | .loadHold _ _ => .next (kept_access _ (loadHold_kept _ _) h)
  | .clearSel _ => .next (kept_access _ (clearSel_kept _) h)
  | .auditClear _ => .next (kept_access _ (auditClear_kept _) h)
  | .loadPantry _ => .next (kept_access _ (loadPantry_kept _) h)
  | .pantryLoadDone _ _ _ => execPantryLoadDone_keeps _ _ _ h
  | .evict _ => .next (kept_access _ (evict_kept _) h)
  | .evictApply _ _ => execEvictApply_keeps _ _ h
  | .program _ _ _ _ => .next (kept_access _ (programCol_kept _ _ _ _) h)
  | .columnWriteStart _ _ => execColumnWriteStart_keeps _ _ h
  | .columnWriteDone _ _ _ _ _ => execColumnWriteDone_keeps _ _ _ _ _ h
  | .sleep _ _ => .next (kept_access _ (sleep_kept _ _) h)
  | .ledgerSave => .next (.ite h (saveLedgers_kept _ s h))
  | .larderFlush _ =>
    .next (.ite h (.ite (wrU_kept _ _ _ _ _ (pageAccess_kept _ s h)) (larderFlush_kept _ _ (pageAccess_kept _ s h))))
  | .storeAck => .next (kept_access _ storeAck_kept h)
  | .stagingLoaded => .next (kept_access _ stagingLoaded_kept h)
  | .shelfStagingDone => .next (shelfStagingDone_kept s h)
  | .shelfWriteDone _ => .next (shelfWriteDone_kept _ s h)
  | .restoreDone _ => .next (restoreDone_kept _ s h)
  | .syncTx _ => .next (syncTx_kept _ s h)
  | .announceTx => .next (announceTx_kept s h)
  | .delayReqTx _ => .next (delayReqTx_kept _ s h)
  | .discardedFrame f why => .next (discardFrame_kept f why _ s (ordResume_kept _) h)
  | .rootPllLostLock => .next (kept_either (deviceFatal_kept _ _ _) h)
  | .resetKeyRelease => .next (resetKeyRelease_kept s h)
  | .bar2Access _ _ _ => .next (bar2Access_kept _ _ _ s h)
  | .arrayDiePoweredDown _ => .next (kept_either (diePoweredDown_kept _) h)
  | .arrayDiePoweredUp _ => execArrayDiePoweredUp_keeps _ h
  | .busMasterEnable _ => .next (kept_either (setb_kept _ _ _ _) h)
  | .d0Entry => .next (.ite (h.of_eq rfl rfl rfl rfl rfl) h)

end Keeps

/-- Settles O4: the front command, run on the queue's rest, and the idle step keep what every operation keeps. -/
theorem stepKeepsSound : Obligations.StepKeepsSound := by
  intro s t hs hstep
  cases hq : s.pending with
  | nil =>
    obtain rfl : idle s = t := by simpa [step, hq] using hstep
    have h : Kept s (idle s) := kept_either (advanceTo_kept _) (Kept.refl s)
    exact ⟨h.sound hs, h.variant⟩
  | cons c rest =>
    obtain ⟨t', ht, h⟩ := exec_keeps (Kept.refl { s with pending := rest }) c
    obtain rfl : t' = t := by simpa [step, hq, ht] using hstep
    exact ⟨h.sound hs, h.variant⟩

end Sys2Proof.Machine

namespace Sys2Proof.Machine

open Sys2Proof

/-! ### Three statements that the model does not keep -/

/-- A long operation of sequencer 1 of digital die 0 that counts on an address register as it ends, alone in the tracker. -/
def countingOp : PendingOp := { copyEntry 4 (some 6) [registerCount] with copy := none }

/-- Refutes O19: the counts of the operation may name any field but those of the completion ring. They are added as it lands,
and a count on an address register changes a register that the statement says stays. -/
theorem not_longOpLands : ¬ Obligations.LongOpLands := by
  unfold Obligations.LongOpLands
  intro h
  obtain ⟨t, ht, -, -, hkept, -⟩ := h { State.blank .t64b .clocked with tracker := [countingOp] } countingOp [] [] 6 rfl
    (by decide) rfl rfl (by decide) rfl rfl rfl rfl rfl rfl rfl (by simp) (by decide) rfl (by simp [countingOp, copyEntry])
    (by decide)
  have hstays := hkept.regs ⟨0, 0⟩ 0
  obtain rfl : _ = t := Host.Outcome.next.inj ht
  exact absurd hstays (by decide +kernel)

/-- Sequencer 0 of digital die 0 runs a NOP under a switch committed for alignment period 0 to its other bin; it issues nothing
before core cycle 64. -/
def flooredSwitch : State :=
  let q : SeqId := ⟨0, 0⟩
  let nop : Cmd := ⟨0, 0, 0, 0⟩
  setSeqX q { seqX (State.blank .t64b .clocked) q with switchAt := some 0, floor := 64 }
    (setb F.sq_VALID_1 0 0 true (setSeqState q 1 { State.blank .t64b .clocked with
      bins := [(seqKey q * 2, ⟨0, 0, 2, false, 1, [nop], []⟩), (seqKey q * 2 + 1, ⟨0, 3, 4, false, 2, [nop], []⟩)] }))

/-- Refutes O21: its second clause leaves out the cycle before which a sequencer issues nothing. Where that cycle lies beyond
the commit's period, the next command's offset counts from it. -/
theorem not_sequencerEvents : ¬ Obligations.SequencerEvents := by
  unfold Obligations.SequencerEvents
  rintro ⟨-, hswitch, -⟩
  obtain ⟨t, ht, -, -, -, hbase, -⟩ := hswitch ⟨0, 0⟩ flooredSwitch 0 ⟨0, 0, 0, 0⟩ ⟨0, 3, 4, false, 2, [⟨0, 0, 0, 0⟩], []⟩ []
    none (by decide +kernel) (by decide +kernel) (by decide +kernel) (by decide +kernel) (by decide +kernel) (by simp) (Nat.zero_le _)
    (by decide +kernel) (by decide +kernel) (by decide +kernel)
  obtain rfl : _ = t := Host.Outcome.next.inj ht
  exact absurd hbase (by decide +kernel)

/-- SEND_ORDERED with nothing else set. -/
def orderedSend : Cmd := ⟨0x37, 0, 0, 0⟩

/-- What a send keeps that has the number of the next operation and has gone to no owner. -/
def unsentRec : SendRec :=
  { die := 0, tag := 0, op := 3, cmd := orderedSend, ctx := ctxOf (State.blank .t64b .clocked) ⟨0, 0⟩, bucket := 0, first := 0, count := 0
    ordered := true, nonfinite := false, overflow := false, span := 0 }

/-- A member of rank 1, whose bucket 0 belongs to rank 0, about to run SEND_ORDERED; it keeps a send with the next operation's
number. -/
def sameNumber : State :=
  setSeqState ⟨0, 0⟩ 1 (wr F.ex_BUCKET_COUNT 0 0 1 (wr F.ex_RANK 0 0 1 (setb F.rs_MEMBER 0 0 true { State.blank .t64b .clocked with
    bins := [(seqKey ⟨0, 0⟩ * 2, ⟨0, 0, 2, false, 1, [orderedSend], []⟩)]
    job := { (State.blank .t64b .clocked).job with sends := [unsentRec] } })))

/-- The state in which that send runs. -/
def sameNumberIssued : State :=
  match prepare ⟨0, 0⟩ 7 3 sameNumber with
  | .go s1 _ _ _ _ => s1
  | .hold s1 => s1

theorem sameNumber_issues : Issues ⟨0, 0⟩ 7 3 sameNumber sameNumberIssued orderedSend 0 [] := rfl

/-- Refutes O42: a kept send is known by its number, which nothing in the state keeps apart from the next operation's. The
send that goes to the owner marks every kept one of its number as gone there, so the list does not grow by one record alone. -/
theorem not_sendCommands : ¬ Obligations.SendCommands := by
  unfold Obligations.SendCommands
  intro h
  obtain ⟨t, ht, -, -, -, -, -, -, helse⟩ := h ⟨0, 0⟩ (.sendOrdered ⟨0, 0⟩) 3 (by simp) sameNumber sameNumberIssued orderedSend 0 []
    sameNumber_issues (by decide +kernel) (by unfold CleanReads; decide +kernel) (by decide +kernel)
  obtain ⟨-, ⟨r, hsends, -⟩, -⟩ := helse (.inr (.inr (.inr
    ⟨by decide +kernel, by decide +kernel, by decide +kernel, by decide +kernel⟩)))
  have hgone : t.job.sends.head?.map (·.sentTo) = some 0xFFF := by rw [hsends]; rfl
  obtain rfl : _ = t := Host.Outcome.next.inj ht
  exact absurd hgone (by decide +kernel)

end Sys2Proof.Machine

namespace Sys2Proof.Machine

open Sys2Proof

/-! ### What bringing a command to its issue leaves alone (R171) -/

/-- What a state holds beside its register fields, what the sequencers hold, the token queues and the clock. -/
def unissued (s : State) : State := { s with flds := [], seqx := [], queues := [], core := 0, time := 0 }

@[simp] theorem unissued_wrU (f : Field) (u i v : Nat) (s : State) : unissued (wrU f u i v s) = unissued s := rfl

@[simp] theorem unissued_wr (f : Field) (inst i v : Nat) (s : State) : unissued (wr f inst i v s) = unissued s := rfl

@[simp] theorem unissued_setb (f : Field) (inst i : Nat) (b : Bool) (s : State) : unissued (setb f inst i b s) = unissued s := rfl

@[simp] theorem unissued_addW (f : Field) (inst i n : Nat) (s : State) : unissued (addW f inst i n s) = unissued s := rfl

@[simp] theorem unissued_setSeqX (q : SeqId) (x : SeqX) (s : State) : unissued (setSeqX q x s) = unissued s := rfl

@[simp] theorem unissued_setSeqState (q : SeqId) (v : Nat) (s : State) : unissued (setSeqState q v s) = unissued s := rfl

@[simp] theorem unissued_setQueue (die k : Nat) (ts : List QTok) (s : State) : unissued (setQueue die k ts s) = unissued s := rfl

@[simp] theorem unissued_advanceTo (c : Nat) (s : State) : unissued (advanceTo c s) = unissued s := rfl

@[simp] theorem unissued_ite {c : Prop} [Decidable c] (s t : State) :
    unissued (if c then s else t) = if c then unissued s else unissued t := apply_ite unissued c s t

@[simp] theorem unissued_sat (f : Field) (inst i n : Nat) (s : State) : unissued (sat f inst i n s) = unissued s := by
  simp [sat, satU, setSat]

@[simp] theorem unissued_settleHead (die k : Nat) (s : State) : unissued (settleHead die k s) = unissued s := by
  unfold settleHead
  split <;> simp

@[simp] theorem unissued_popQueue (q : SeqId) (k c : Nat) (s : State) : unissued (popQueue q k c s).2 = unissued s := by
  unfold popQueue
  dsimp only
  split <;> simp

@[simp] theorem unissued_enterWait (q : SeqId) (k c : Nat) (s : State) : unissued (enterWait q k c s) = unissued s := by
  simp [enterWait]

@[simp] theorem unissued_leaveWait (q : SeqId) (s : State) : unissued (leaveWait q s) = unissued s := by
  unfold leaveWait
  split
  · rfl
  · rfl

@[simp] theorem unissued_noteIssue (q : SeqId) (n : Nat) (s : State) : unissued (noteIssue q n s) = unissued s := by
  simp [noteIssue]

@[simp] theorem unissued_setPc (q : SeqId) (n : Nat) (s : State) : unissued (setPc q n s) = unissued s := by
  simp [setPc, toIdle]

@[simp] theorem unissued_loadStatus (q : SeqId) (toks : List Nat) (s : State) : unissued (loadStatus q toks s) = unissued s := by
  have hfold (s : State) : unissued (statusLoad q toks s) = unissued s := 
    foldl_same unissued (f := fun s t => setLast q t (foldStatus q t s)) (fun _ _ => by simp [setLast, foldStatus]) _ _
  unfold loadStatus
  dsimp only
  split <;> simp [hfold]

/-! ### What a sequencer holds -/

theorem seqX_setSeqX (q q' : SeqId) (x : SeqX) (s : State) :
    seqX (setSeqX q x s) q' = if seqKey q' = seqKey q then x else seqX s q' := nmGet_set _ _ _ _ _

@[simp] theorem seqX_setSeqX_self (q : SeqId) (x : SeqX) (s : State) : seqX (setSeqX q x s) q = x := nmGet_set_self _ _ _ _

theorem seqX_of_seqx {s t : State} (h : t.seqx = s.seqx) (q : SeqId) : seqX t q = seqX s q := by
  unfold seqX
  rw [h]

@[simp] theorem seqX_wr (f : Field) (inst i v : Nat) (s : State) (q : SeqId) : seqX (wr f inst i v s) q = seqX s q := rfl

@[simp] theorem seqX_setb (f : Field) (inst i : Nat) (b : Bool) (s : State) (q : SeqId) : seqX (setb f inst i b s) q = seqX s q := rfl

@[simp] theorem seqX_addW (f : Field) (inst i n : Nat) (s : State) (q : SeqId) : seqX (addW f inst i n s) q = seqX s q := rfl

@[simp] theorem seqX_setSeqState (q' : SeqId) (v : Nat) (s : State) (q : SeqId) : seqX (setSeqState q' v s) q = seqX s q := rfl

@[simp] theorem seqX_setQueue (die k : Nat) (ts : List QTok) (s : State) (q : SeqId) : seqX (setQueue die k ts s) q = seqX s q := rfl

@[simp] theorem seqX_advanceTo (c : Nat) (s : State) (q : SeqId) : seqX (advanceTo c s) q = seqX s q := rfl

/-- What a sequencer holds beside the token wait of the command in hand and the last token with overflow status. -/
def steady (x : SeqX) : SeqX := { x with popA := none, popAt := none, waitNs := none, overTok := none }

theorem steady_setSeqX {q : SeqId} {x : SeqX} {s : State} (h : steady x = steady (seqX s q)) (q' : SeqId) :
    steady (seqX (setSeqX q x s) q') = steady (seqX s q') := by
  rw [seqX_setSeqX]
  split
  · next hk => rw [h, seqX, seqX, hk]
  · rfl

@[simp] theorem settleHead_same_seqx (die k : Nat) (s : State) : (settleHead die k s).seqx = s.seqx := by
  unfold settleHead
  split
  · rfl
  · dsimp only
    split <;> simp

@[simp] theorem popQueue_same_seqx (q : SeqId) (k c : Nat) (s : State) : (popQueue q k c s).2.seqx = s.seqx := by
  unfold popQueue
  dsimp only
  split <;> simp

theorem steady_enterWait (q q' : SeqId) (k c : Nat) (s : State) :
    steady (seqX (enterWait q k c s) q') = steady (seqX s q') := by
  simpa [enterWait] using steady_setSeqX (by rfl) q'

theorem steady_leaveWait (q q' : SeqId) (s : State) : steady (seqX (leaveWait q s) q') = steady (seqX s q') := by
  unfold leaveWait
  split
  · simpa using steady_setSeqX (by rfl) q'
  · rfl

theorem steady_loadStatus (q q' : SeqId) (toks : List Nat) (s : State) :
    steady (seqX (loadStatus q toks s) q') = steady (seqX s q') := by
  have hfold : (statusLoad q toks s).seqx = s.seqx :=
    foldl_same State.seqx (f := fun s t => setLast q t (foldStatus q t s)) (fun _ _ => rfl) _ _
  have hseq := seqX_of_seqx hfold
  unfold loadStatus
  dsimp only
  split
  · exact (steady_setSeqX (by rfl) q').trans (congrArg steady (hseq q'))
  · rw [hseq]

/-! ### The issue of a command -/

/-- The token of WAIT_A, where a command waits for one. -/
def waitA (q : SeqId) (c : Cmd) (s : State) : Option (List Nat × Option Nat) × State :=
  if !c.waitAEn then (some ([], none), s)
  else match (seqX s q).popA with
    | some w => (some ([w], (seqX s q).popAt), s)
    | none =>
      match popQueue q c.waitA ((seqX s q).base * domCycles q) s with
      | (some (w, p), s) => (some ([w], some p), setSeqX q { seqX s q with popA := some w, popAt := some p, waitNs := none } s)
      | (none, s') => (none, enterWait q c.waitA ((seqX s q).base * domCycles q) s')

/-- The token of WAIT_B, after `ta` and the pop at `pa`, for offsets that count from core cycle `start`. -/
def waitB (q : SeqId) (c : Cmd) (start : Nat) (ta : List Nat) (pa : Option Nat) (s : State) :
    Option (List Nat × Option Nat) × State :=
  if !c.waitBEn then (some (ta, pa), setSeqX q { seqX s q with popA := none, popAt := none } s)
  else
    match popQueue q c.waitB (max start (pa.getD start)) s with
    | (some (w, p), s) => (some (ta ++ [w], some p), setSeqX q { seqX s q with popA := none, popAt := none } s)
    | (none, s) => (none, enterWait q c.waitB (max start (pa.getD start)) s)

theorem doWaits_of_waitA_none {q : SeqId} {c : Cmd} {s s' : State} (h : waitA q c s = (none, s')) :
    doWaits q c s = (none, s') := by
  change (match waitA q c s with
    | (none, s) => (none, s)
    | (some (ta, pa), s') => waitB q c ((seqX s q).base * domCycles q) ta pa s') = _
  rw [h]

theorem doWaits_of_waitA_some {q : SeqId} {c : Cmd} {s s' : State} {ta : List Nat} {pa : Option Nat}
    (h : waitA q c s = (some (ta, pa), s')) : doWaits q c s = waitB q c ((seqX s q).base * domCycles q) ta pa s' := by
  change (match waitA q c s with
    | (none, s) => (none, s)
    | (some (ta, pa), s') => waitB q c ((seqX s q).base * domCycles q) ta pa s') = _
  rw [h]

section Waits

variable {β : Type} (v : State → β) {q : SeqId} (hpop : ∀ k c s, v (popQueue q k c s).2 = v s)
  (henter : ∀ k c s, v (enterWait q k c s) = v s) (hseq : ∀ x s, steady x = steady (seqX s q) → v (setSeqX q x s) = v s)

include hpop henter hseq

theorem waitA_view (c : Cmd) (s : State) : v (waitA q c s).2 = v s := by
  unfold waitA
  split
  · rfl
  · split
    · rfl
    · have hpopped := hpop c.waitA ((seqX s q).base * domCycles q) s
      split
      · next h =>
        rw [h] at hpopped
        exact (hseq _ _ (by rfl)).trans hpopped
      · next h =>
        rw [h] at hpopped
        exact (henter _ _ _).trans hpopped

theorem waitB_view (c : Cmd) (start : Nat) (ta : List Nat) (pa : Option Nat) (s : State) : v (waitB q c start ta pa s).2 = v s := by
  unfold waitB
  split
  · exact hseq _ _ (by rfl)
  · have hpopped := hpop c.waitB (max start (pa.getD start)) s
    split
    · next h =>
      rw [h] at hpopped
      exact (hseq _ _ (by rfl)).trans hpopped
    · next h =>
      rw [h] at hpopped
      exact (henter _ _ _).trans hpopped

/-- The waits of a command keep whatever a pop, a token wait and the note of a pop keep. -/
theorem doWaits_view (c : Cmd) (s : State) : v (doWaits q c s).2 = v s := by
  have hA := waitA_view v hpop henter hseq c s
  cases hw : waitA q c s with
  | mk o s' =>
    rw [hw] at hA
    cases o with
    | none => rw [doWaits_of_waitA_none hw, hA]
    | some p => rw [doWaits_of_waitA_some hw, waitB_view v hpop henter hseq, hA]

end Waits

theorem unissued_doWaits (q : SeqId) (c : Cmd) (s : State) : unissued (doWaits q c s).2 = unissued s :=
  doWaits_view unissued (unissued_popQueue q) (unissued_enterWait q) (fun _ _ _ => rfl) c s

theorem steady_doWaits (q q' : SeqId) (c : Cmd) (s : State) : steady (seqX (doWaits q c s).2 q') = steady (seqX s q') :=
  doWaits_view (fun s => steady (seqX s q')) (fun _ _ _ => by rw [seqX_of_seqx (popQueue_same_seqx _ _ _ _)])
    (fun _ _ _ => steady_enterWait _ _ _ _ _) (fun _ _ h => steady_setSeqX h q') c s

/-- The state in which a command whose waits have left `s'` runs at domain cycle `n`. -/
def issueState (q : SeqId) (c : Cmd) (toks : List Nat) (n : Nat) (s' : State) : State :=
  let u := advanceTo (n * domCycles q) (leaveWait q s')
  if c.statusLoad then loadStatus q toks u else u

@[simp] theorem unissued_issueState (q : SeqId) (c : Cmd) (toks : List Nat) (n : Nat) (s : State) :
    unissued (issueState q c toks n s) = unissued s := by
  simp [issueState]

theorem steady_issueState (q q' : SeqId) (c : Cmd) (toks : List Nat) (n : Nat) (s : State) :
    steady (seqX (issueState q c toks n s) q') = steady (seqX s q') := by
  unfold issueState
  dsimp only
  split
  · rw [steady_loadStatus, seqX_advanceTo, steady_leaveWait]
  · rw [seqX_advanceTo, steady_leaveWait]

theorem loadStatus_core (q : SeqId) (toks : List Nat) (s : State) : (loadStatus q toks s).core = s.core := by
  have hfold : (statusLoad q toks s).core = s.core :=
    foldl_same State.core (f := fun s t => setLast q t (foldStatus q t s)) (fun _ _ => by simp [setLast, foldStatus]) _ _
  unfold loadStatus
  dsimp only
  split
  · exact hfold
  · exact hfold

theorem leaveWait_core (q : SeqId) (s : State) : (leaveWait q s).core = s.core := by
  unfold leaveWait
  split
  · rfl
  · rfl

theorem issueState_core (q : SeqId) (c : Cmd) (toks : List Nat) (n : Nat) (s : State) :
    (issueState q c toks n s).core = max (n * domCycles q) s.core := by
  have hnow : (advanceTo (n * domCycles q) (leaveWait q s)).core = max (n * domCycles q) s.core :=
    congrArg (max (n * domCycles q)) (leaveWait_core q s)
  unfold issueState
  dsimp only
  split
  · rw [loadStatus_core, hnow]
  · exact hnow

/-- Whether a command runs whose tokens are `toks`: its predicate lets it, and no token skips it (R171, R188). -/
def issueRuns (q : SeqId) (cls op : Nat) (c : Cmd) (toks : List Nat) (s : State) : Bool :=
  (!c.predEn || predOf s q c.predFlag == c.predSense) && !(c.skipFollow && !(cls == 0 && op == 0x0E) && toks.any tokSkip)

/-- A stop or a committed switch comes before the command in hand, or a write that is due before it has not landed (R171, R173,
R194). -/
def issueBarred (q : SeqId) (c : Cmd) (pop : Option Nat) (s : State) : Bool :=
  (match s.stopAt with
    | some b => decide (b ≤ issueAt q c pop s * domCycles q)
    | none => false) || switchFirst q c pop s || !landedBy s (issueAt q c pop s * domCycles q)

/-- The command in hand is `c`, of class `cls` and operation `op`, and neither the expert policy nor a switch holds it back. -/
structure Ready (q : SeqId) (cls op : Nat) (s : State) (c : Cmd) : Prop where
  next : nextCmd s q = some c
  cls_eq : c.cls = cls
  op_eq : c.op = op
  unheld : (seqX s q).heldTill = none
  unswitched : switchNow s q = false

section Prepare

variable {q : SeqId} {cls op : Nat} {s : State} {c : Cmd}

theorem prepare_of_ready (h : Ready q cls op s c) : prepare q cls op s = (match doWaits q c s with
    | (none, s) => .hold s
    | (some (toks, pop), s') =>
      let n := issueAt q c pop s
      if issueBarred q c pop s then .hold s
      else .go (issueState q c toks n s') c n toks (issueRuns q cls op c toks (issueState q c toks n s'))) := by
  unfold prepare
  rw [h.next]
  dsimp only
  rw [if_neg (by simp [h.cls_eq, h.op_eq, h.unheld, h.unswitched])]
  rfl

/-- A command whose waits are over issues where nothing bars it. -/
theorem prepare_go {toks : List Nat} {pop : Option Nat} {s' : State} (h : Ready q cls op s c)
    (hw : doWaits q c s = (some (toks, pop), s')) (hfree : issueBarred q c pop s = false) :
    prepare q cls op s = .go (issueState q c toks (issueAt q c pop s) s') c (issueAt q c pop s) toks
      (issueRuns q cls op c toks (issueState q c toks (issueAt q c pop s) s')) := by
  rw [prepare_of_ready h, hw]
  simp [hfree]

/-- A command one of whose waits is not over is held in the wait. -/
theorem prepare_hold {s' : State} (h : Ready q cls op s c) (hw : doWaits q c s = (none, s')) :
    prepare q cls op s = .hold s' := by
  rw [prepare_of_ready h, hw]

/-- What it takes for a command to issue (R171). -/
theorem of_prepare_go {s1 : State} {n : Nat} {toks : List Nat} {run : Bool} (h : prepare q cls op s = .go s1 c n toks run) :
    Ready q cls op s c ∧ ∃ pop s', doWaits q c s = (some (toks, pop), s') ∧ s1 = issueState q c toks n s' ∧
      n = issueAt q c pop s ∧ run = issueRuns q cls op c toks s1 := by
  have hready : ∃ c', Ready q cls op s c' := by
    unfold prepare at h
    split at h
    · cases h
    · next c' hnext =>
      split at h
      · cases h
      · next hcode =>
        simp only [not_or, not_not, Bool.not_eq_true, Option.isSome_eq_false_iff, Option.isNone_iff_eq_none] at hcode
        obtain ⟨hcls, hop, hheld, hswitch⟩ := hcode
        exact ⟨c', hnext, hcls, hop, hheld, hswitch⟩
  obtain ⟨c', hready⟩ := hready
  rw [prepare_of_ready hready] at h
  split at h
  · cases h
  · next toks' pop s' hw =>
    dsimp only at h
    split at h
    · cases h
    · cases h
      exact ⟨hready, pop, s', hw, rfl, rfl, rfl⟩

/-- The issue of a command leaves all but register fields, the sequencers' own state, the queues and the clock. -/
theorem prepare_unissued {s1 : State} {n : Nat} {toks : List Nat} {run : Bool} (h : prepare q cls op s = .go s1 c n toks run) :
    unissued s1 = unissued s := by
  obtain ⟨-, pop, s', hw, rfl, -⟩ := of_prepare_go h
  rw [unissued_issueState, ← unissued_doWaits q c s, hw]

theorem prepare_steady {s1 : State} {n : Nat} {toks : List Nat} {run : Bool} (h : prepare q cls op s = .go s1 c n toks run)
    (q' : SeqId) : steady (seqX s1 q') = steady (seqX s q') := by
  obtain ⟨-, pop, s', hw, rfl, -⟩ := of_prepare_go h
  rw [steady_issueState, ← steady_doWaits q q' c s, hw]

end Prepare

/-! ### The token and the record of a command -/

/-- What a state holds beside its register fields, its memory, the fault logic, the token queues, the tracker and what it
sends. -/
def tokenView (s : State) : State := { bare s with queues := [], tracker := [], out := [] }

theorem tokenView_of_bare {s t : State} (h : bare t = bare s) : tokenView t = tokenView s := by
  unfold tokenView
  rw [h]

/-- What a state holds beside its register fields, its memory, the fault logic and the token queues. -/
def queueView (s : State) : State := { bare s with queues := [] }

theorem queueView_of_bare {s t : State} (h : bare t = bare s) : queueView t = queueView s := by
  unfold queueView
  rw [h]

theorem queueView_setQueue (die k : Nat) (ts : List QTok) (s : State) : queueView (setQueue die k ts s) = queueView s := rfl

theorem queueView_settleHead (die k : Nat) (s : State) : queueView (settleHead die k s) = queueView s := by
  unfold settleHead
  split
  · rfl
  · dsimp only
    split
    · rfl
    · rw [queueView_of_bare (bare_sat _ _ _ _ _), queueView_setQueue]

theorem queueView_enqueue (src : Option Nat) (die dieCode k word e : Nat) (s : State) :
    queueView (enqueue src die dieCode k word e s) = queueView s := by
  unfold enqueue
  dsimp only
  split
  · rw [queueView_settleHead, queueView_setQueue]
  · exact queueView_of_bare (bare_guardFault _ _ _ _ _ _ _ _ _)

theorem tokenView_enqueue (src : Option Nat) (die dieCode k word e : Nat) (s : State) :
    tokenView (enqueue src die dieCode k word e s) = tokenView s :=
  (congrArg (fun u : State => { u with tracker := [], out := [] }) (queueView_enqueue src die dieCode k word e s) :)

theorem tokenView_produceAt (q : SeqId) (c : Cmd) (word e : Nat) (s : State) :
    tokenView (produceAt q c word e s) = tokenView s := by
  unfold produceAt
  split
  · rfl
  · dsimp only
    split
    · rfl
    · exact tokenView_enqueue _ _ _ _ _ _ _

/-- What a state holds beside its register fields, its memory, the fault logic and what it sends. -/
def recordView (s : State) : State := { bare s with out := [] }

theorem recordView_of_bare {s t : State} (h : bare t = bare s) : recordView t = recordView s := by
  unfold recordView
  rw [h]

theorem recordView_dieRecord (d token ns : Nat) (s : State) : recordView (dieRecord d token ns s) = recordView s := by
  refine recordView_of_bare ?_
  unfold dieRecord
  simp

theorem recordView_hostRecord (d token ns : Nat) (s : State) : recordView (hostRecord d token ns s) = recordView s := by
  unfold hostRecord
  dsimp only
  split
  · exact recordView_of_bare (by simp)
  · rfl

theorem recordView_completionRecord (d token : Nat) (notify : Bool) (e : Nat) (s : State) :
    recordView (completionRecord d token notify e s) = recordView s := by
  have hdie (c : Prop) [Decidable c] (ns : Nat) : recordView (if c then dieRecord d token ns s else s) = recordView s := by
    split
    · exact recordView_dieRecord _ _ _ _
    · rfl
  unfold completionRecord
  dsimp only
  split
  · rw [recordView_hostRecord, hdie]
  · exact hdie _ _

theorem tokenView_completionRecord (d token : Nat) (notify : Bool) (e : Nat) (s : State) :
    tokenView (completionRecord d token notify e s) = tokenView s :=
  (congrArg (fun u : State => { u with queues := [], tracker := [] }) (recordView_completionRecord d token notify e s) :)

theorem produceAt_of_not {q : SeqId} {c : Cmd} {word e : Nat} {s : State} (h : c.produceEn = false) :
    produceAt q c word e s = s := by
  unfold produceAt
  rw [h]
  rfl

theorem completionRecord_of_not {d token e : Nat} {s : State} (h : rdb s F.sq_TRACE_ALL d 0 = false) :
    completionRecord d token false e s = s := by
  simp [completionRecord, h]

/-! ### The issue of a control command -/

theorem pcIndex_setPc (q : SeqId) (n : Nat) (s : State) : pcIndex (setPc q n s) q = n % 2 ^ 11 := by
  unfold setPc pcIndex
  dsimp only
  split
  · exact (rd_wr_other _ _ _ _ _ _ _ _ (by decide)).trans (rd_wr_self _ _ _ _ _)
  · exact rd_wr_self _ _ _ _ _

@[simp] theorem setPc_same_seqx (q : SeqId) (n : Nat) (s : State) : (setPc q n s).seqx = s.seqx := by
  unfold setPc
  dsimp only
  split
  · rfl
  · rfl

theorem seqX_noteIssue_self (q : SeqId) (n : Nat) (s : State) : seqX (noteIssue q n s) q = { seqX s q with base := n } := by
  simp [noteIssue]

/-- The state in which a control command with token `tok` has its effect. -/
def controlIssued (q : SeqId) (c : Cmd) (n tok : Nat) (s : State) : State :=
  setPc q (pcIndex s q + 1) (noteIssue q n
    (completionRecord q.die tok c.notify (n * domCycles q) (produceAt q c tok (n * domCycles q) s)))

theorem controlIssue_eq (q : SeqId) (c : Cmd) (n tok : Nat) (effect : State → State) (s : State) :
    controlIssue q c n tok effect s = effect (controlIssued q c n tok s) := rfl

section ControlIssued

variable (q : SeqId) (c : Cmd) (n tok : Nat) (s : State)

theorem controlIssued_fld {m : Nat} (hm : [9, 10, 11, 196, 197, 198, 201, 204, 205, 206, 209, 213, 219, 229, 515, 517, 524, 682, 686,
    688, 689].contains m = false) : FieldKept m s (controlIssued q c n tok s) :=
  setPc_fld _ _ _ (sub_ne _ _ (by decide) hm) (noteIssue_fld _ _ _ (sub_ne _ _ (by decide) hm)
    (completionRecord_fld _ _ _ _ _ (sub_ne _ _ (by decide) hm) (produceAt_fld _ _ _ _ _ (sub_ne _ _ (by decide) hm)
      (FieldKept.refl _ _))))

theorem controlIssued_pcIndex : pcIndex (controlIssued q c n tok s) q = (pcIndex s q + 1) % 2 ^ 11 := pcIndex_setPc _ _ _

theorem tokenView_ended (e : Nat) : tokenView (completionRecord q.die tok c.notify e (produceAt q c tok e s)) = tokenView s := by
  rw [tokenView_completionRecord, tokenView_produceAt]

/-- The token and the record done, which is all of the machine that a control command's issue touches beside its sequencer. -/
theorem controlIssued_unissued : unissued (controlIssued q c n tok s) =
    unissued (completionRecord q.die tok c.notify (n * domCycles q) (produceAt q c tok (n * domCycles q) s)) := by
  simp [controlIssued]

theorem controlIssued_variant : (controlIssued q c n tok s).variant = s.variant := by
  have hissue := congrArg State.variant (controlIssued_unissued q c n tok s)
  exact hissue.trans (congrArg State.variant (tokenView_ended q c tok s _) :)

theorem controlIssued_bins : (controlIssued q c n tok s).bins = s.bins := by
  have hissue := congrArg State.bins (controlIssued_unissued q c n tok s)
  exact hissue.trans (congrArg State.bins (tokenView_ended q c tok s _) :)

theorem controlIssued_seqX : seqX (controlIssued q c n tok s) q = { seqX s q with base := n } := by
  have hended : seqX (completionRecord q.die tok c.notify (n * domCycles q) (produceAt q c tok (n * domCycles q) s)) q = seqX s q :=
    seqX_of_seqx (congrArg State.seqx (tokenView_ended q c tok s _) :) q
  rw [controlIssued, seqX_of_seqx (setPc_same_seqx _ _ _), seqX_noteIssue_self, hended]

theorem controlIssued_rdU {f : Field} (hf : [9, 10, 11, 196, 197, 198, 201, 204, 205, 206, 209, 213, 219, 229, 515, 517, 524, 682,
    686, 688, 689].contains f.fid = false) (hp : f.fid ≠ F.ag_PROG_COUNT.fid) (u i : Nat) :
    rdU (controlIssued q c n tok s) f u i = rdU s f u i :=
  (controlIssued_fld q c n tok s hf).rdU' (controlIssued_variant q c n tok s) hp u i

theorem controlIssued_sequencers : SequencersKept s (controlIssued q c n tok s) :=
  sequencersKept_of_fields (controlIssued_variant q c n tok s) (controlIssued_fld q c n tok s (by decide))
    (controlIssued_fld q c n tok s (by decide))

variable {q c n tok s}

theorem controlIssued_quiet (h : Quiet q c s) : controlIssued q c n tok s = setPc q (pcIndex s q + 1) (noteIssue q n s) := by
  obtain ⟨hproduce, hnotify, htrace⟩ := h
  rw [controlIssued, produceAt_of_not hproduce, hnotify, completionRecord_of_not htrace]

theorem controlIssued_quiet_fld {m : Nat} (h : Quiet q c s) (hm : [201, 209, 213, 219].contains m = false) :
    FieldKept m s (controlIssued q c n tok s) := by
  rw [controlIssued_quiet h]
  exact setPc_fld _ _ _ (sub_ne _ _ (by decide) hm) (noteIssue_fld _ _ _ (sub_ne _ _ (by decide) hm) (FieldKept.refl _ _))

theorem controlIssued_quiet_mem (h : Quiet q c s) : MemKept s (controlIssued q c n tok s) := by
  rw [controlIssued_quiet h]
  exact setPc_mem _ _ _ (noteIssue_mem _ _ _ (MemKept.refl s))

end ControlIssued

/-! ### From the state before to the state in which a command runs -/

section Prepared

variable {q : SeqId} {cls op : Nat} {s s1 : State} {c : Cmd} {n : Nat} {toks : List Nat} {run : Bool}
  (h : prepare q cls op s = .go s1 c n toks run)

include h

theorem prepared_fld {m : Nat} (hm : [9, 10, 11, 204, 213, 215, 216, 217, 218, 220, 221].contains m = false) : FieldKept m s s1 :=
  (prepare_fld q cls op s hm (FieldKept.refl m s)).2 _ _ _ _ _ h

theorem prepared_mem : MemKept s s1 := (prepare_mem q cls op s (MemKept.refl s)).2 _ _ _ _ _ h

theorem prepared_variant : s1.variant = s.variant := (congrArg State.variant (prepare_unissued h) :)

theorem prepared_rdU {f : Field} (hf : [9, 10, 11, 204, 213, 215, 216, 217, 218, 220, 221].contains f.fid = false)
    (hp : f.fid ≠ F.ag_PROG_COUNT.fid) (u i : Nat) : rdU s1 f u i = rdU s f u i :=
  (prepared_fld h hf).rdU' (prepared_variant h) hp u i

theorem prepared_sequencers : SequencersKept s s1 :=
  sequencersKept_of_fields (prepared_variant h) (prepared_fld h (by decide)) (prepared_fld h (by decide))

theorem prepared_pcIndex : pcIndex s1 q = pcIndex s q := prepared_rdU h (f := F.sq_PC_INDEX) (by decide) (by decide) _ _

theorem prepared_quiet (hq : Quiet q c s) : Quiet q c s1 := by
  obtain ⟨hproduce, hnotify, htrace⟩ := hq
  exact ⟨hproduce, hnotify, (congrArg (· == 1) (prepared_rdU h (f := F.sq_TRACE_ALL) (by decide) (by decide) _ _)).trans htrace⟩

theorem prepared_gen (q' : SeqId) : (seqX s1 q').gen = (seqX s q').gen := (congrArg SeqX.gen (prepare_steady h q') :)

end Prepared

end Sys2Proof.Machine

namespace Sys2Proof.Machine

open Sys2Proof

/-! ### The commands that compute an address register (R181) -/

section Stream

variable {q : SeqId} {cls op : Nat} {body : Cmd → Nat → List Nat → State → State} {s s1 : State} {c : Cmd} {n : Nat} {toks : List Nat}

theorem streamCmd_of_issues (h : Issues q cls op s s1 c n toks) : streamCmd q cls op body s = body c n toks s1 := by
  unfold Issues at h
  simp [streamCmd, h]

theorem streamCmd_of_skipped (h : prepare q cls op s = .go s1 c n toks false) :
    streamCmd q cls op body s = skipCmd q c n s1 := by
  simp [streamCmd, h]

theorem streamCmd_of_held (h : prepare q cls op s = .hold s1) : streamCmd q cls op body s = s1 := by
  simp [streamCmd, h]

theorem controlCmd_of_issues {effect : Cmd → State → State} (h : Issues q 0 op s s1 c n toks) :
    controlCmd q op effect s = effect c (controlIssued q c n (controlToken s1 q) s1) := by
  rw [controlCmd, streamCmd_of_issues h, controlIssue_eq]

end Stream

theorem regOf_setReg_self (q : SeqId) (r v : Nat) (s : State) : regOf (setReg q r v s) q r = v % 2 ^ 48 := rd_wr_self _ _ _ _ _

theorem regOf_setReg_other {q q' : SeqId} {r r' : Nat} (v : Nat) (s : State)
    (h : ¬(q'.die = q.die ∧ q'.num * 32 + r' = q.num * 32 + r)) : regOf (setReg q r v s) q' r' = regOf s q' r' := by
  refine rdU_wrU_other _ _ _ _ _ _ _ _ ?_
  unfold unitOf
  omega

theorem predOf_setReg (q q' : SeqId) (r v k : Nat) (s : State) : predOf (setReg q r v s) q' k = predOf s q' k :=
  congrArg (bitOf · k) (rd_wr_other _ _ _ _ _ _ _ _ (by decide))

theorem pcIndex_setReg (q q' : SeqId) (r v : Nat) (s : State) : pcIndex (setReg q r v s) q' = pcIndex s q' :=
  rd_wr_other _ _ _ _ _ _ _ _ (by decide)

/-- Instruction `i` is a control command of operation `op` that sets DREG to a function `f` of its operands and its sequencer's
registers and LAST_EXTENT alone. -/
structure ComputesAddress (q : SeqId) (op : Nat) (i : Instr) (f : Cmd → State → Nat) : Prop where
  meaning : ∀ s, exec i s = .next (controlCmd q op (setDreg q f) s)
  ofRegisters : ∀ c s t, SequencersKept s t → rd t F.sq_LAST_EXTENT q.die q.num = rd s F.sq_LAST_EXTENT q.die q.num → f c t = f c s

/-- What a command does whose effect is to set DREG from the register file, as its issue leaves it. -/
theorem addressCommand_completes {q : SeqId} {op : Nat} {i : Instr} {f : Cmd → State → Nat}
    (hi : ComputesAddress q op i f) {s s1 : State} {c : Cmd} {n : Nat} {toks : List Nat} (h : Issues q 0 op s s1 c n toks) :
    Completes i s fun t =>
      regOf t q c.dreg = f c s1 % 2 ^ 48 ∧
      (∀ q' r, ¬(q'.die = q.die ∧ q'.num * 32 + r = q.num * 32 + c.dreg) → regOf t q' r = regOf s q' r) ∧
      (∀ q' k, predOf t q' k = predOf s q' k) ∧
      pcIndex t q = (pcIndex s q + 1) % 2 ^ 11 ∧
      (Quiet q c s → MemKept s t ∧
        ∀ g ∈ allFields, g.fid ≠ F.sq_ADDR_VAL.fid → g.fid ∉ issueFields.map (·.fid) → FieldKept g.fid s t) := by
  have hprep := prepared_sequencers h
  have hissue := controlIssued_sequencers q c n (controlToken s1 q) s1
  have hvalue : f c (controlIssued q c n (controlToken s1 q) s1) = f c s1 :=
    hi.ofRegisters c _ _ hissue (controlIssued_rdU q c n _ s1 (by decide) (by decide) _ _)
  refine ⟨_, (hi.meaning s).trans (congrArg _ (controlCmd_of_issues h)), ?_, fun q' r hr => ?_, fun q' k => ?_, ?_, fun hquiet => ?_⟩
  · rw [setDreg, regOf_setReg_self, hvalue]
  · rw [setDreg, regOf_setReg_other _ _ hr, hissue.regs, hprep.regs]
  · rw [setDreg, predOf_setReg, hissue.preds, hprep.preds]
  · rw [setDreg, pcIndex_setReg, controlIssued_pcIndex, prepared_pcIndex h]
  · have hquiet1 := prepared_quiet h hquiet
    refine ⟨(prepared_mem h).trans ((controlIssued_quiet_mem hquiet1).trans (setReg_mem _ _ _ _ (MemKept.refl _))),
      fun g _ hg hfids => ?_⟩
    have hsub (l : List Nat) (hl : l.all (fun x => (issueFields.map (·.fid)).contains x) = true) : l.contains g.fid = false :=
      sub_ne l _ hl (by simpa [List.contains_eq_mem] using hfids)
    exact (prepared_fld h (hsub _ (by decide))).trans ((controlIssued_quiet_fld hquiet1 (hsub _ (by decide))).trans
      (setReg_fld _ _ _ _ (by simpa [F.sq_ADDR_VAL, eq_comm] using hg) (FieldKept.refl _ _)))

/-- Settles O9: the eight commands differ only in the function of the register file that they compute. -/
theorem addressCommands : Obligations.AddressCommands := by
  unfold Obligations.AddressCommands
  intro q op i f hmem s s1 c n toks h
  refine addressCommand_completes ?_ h
  simp only [List.mem_cons, List.not_mem_nil, or_false, Prod.mk.injEq] at hmem
  rcases hmem with ⟨rfl, rfl, rfl⟩ | ⟨rfl, rfl, rfl⟩ | ⟨rfl, rfl, rfl⟩ | ⟨rfl, rfl, rfl⟩ | ⟨rfl, rfl, rfl⟩ | ⟨rfl, rfl, rfl⟩ |
    ⟨rfl, rfl, rfl⟩ | ⟨rfl, rfl, rfl⟩ <;> refine ⟨fun _ => rfl, fun c s t hkept hext => ?_⟩
  case inl => rfl
  case inr.inl | inr.inr.inl => rw [hkept.regs, hkept.regs]
  case inr.inr.inr.inr.inr.inr.inr => exact hext
  all_goals rw [hkept.regs]

end Sys2Proof.Machine

namespace Sys2Proof.Machine

open Sys2Proof

/-! ### Bits of a spliced word -/

theorem bitOf_eq_testBit (x i : Nat) : bitOf x i = x.testBit i := by
  rw [bitOf, Nat.testBit_eq_decide_div_mod_eq, Nat.shiftRight_eq_div_pow]
  rfl

theorem splice_eq (x lo w v : Nat) : splice x lo w v = 2 ^ lo * (2 ^ w * (x / 2 ^ (lo + w)) + v % 2 ^ w) + x % 2 ^ lo := by
  have hlo := Nat.div_add_mod x (2 ^ lo)
  have hw := Nat.div_add_mod (x / 2 ^ lo) (2 ^ w)
  rw [Nat.div_div_eq_div_mul, ← pow_add] at hw
  have hx : x = 2 ^ lo * (2 ^ w * (x / 2 ^ (lo + w))) + x / 2 ^ lo % 2 ^ w * 2 ^ lo + x % 2 ^ lo := by
    calc x = 2 ^ lo * (2 ^ w * (x / 2 ^ (lo + w)) + x / 2 ^ lo % 2 ^ w) + x % 2 ^ lo := by rw [hw, hlo]
      _ = _ := by ring
  rw [splice, bits, Nat.shiftRight_eq_div_pow, Nat.mul_add, Nat.mul_comm (2 ^ lo) (v % 2 ^ w)]
  omega

theorem bitOf_splice (x lo w v k : Nat) :
    bitOf (splice x lo w v) k = if lo ≤ k ∧ k < lo + w then bitOf v (k - lo) else bitOf x k := by
  simp only [bitOf_eq_testBit]
  rw [splice_eq, Nat.testBit_two_pow_mul_add _ (Nat.mod_lt _ (Nat.two_pow_pos lo)),
    Nat.testBit_two_pow_mul_add _ (Nat.mod_lt _ (Nat.two_pow_pos w)), Nat.testBit_mod_two_pow, Nat.testBit_mod_two_pow,
    Nat.testBit_div_two_pow]
  rcases lt_or_ge k lo with hk | hk
  · simp [hk, Nat.not_le.2 hk]
  · rcases lt_or_ge (k - lo) w with hw | hw
    · have : k < lo + w := by omega
      simp [hk, hw, this, Nat.not_lt.2 hk]
    · have : ¬k < lo + w := by omega
      have hsum : k - lo - w + (lo + w) = k := by omega
      simp [this, hsum, Nat.not_lt.2 hk, Nat.not_lt.2 hw]

theorem bitOf_b2n_zero (b : Bool) : bitOf (b2n b) 0 = b := by cases b <;> rfl

theorem bitOf_splice_one (x i k : Nat) (b : Bool) : bitOf (splice x i 1 (b2n b)) k = if k = i then b else bitOf x k := by
  rw [bitOf_splice]
  rcases eq_or_ne k i with rfl | hk
  · simp [bitOf_b2n_zero]
  · have : ¬(i ≤ k ∧ k < i + 1) := by omega
    rw [if_neg this, if_neg hk]

theorem bitOf_mod_two_pow {x w k : Nat} (hk : k < w) : bitOf (x % 2 ^ w) k = bitOf x k := by
  simp [bitOf_eq_testBit, Nat.testBit_mod_two_pow, hk]

/-! ### The predicate flags -/

theorem predOf_setPred (q : SeqId) (f k : Nat) (b : Bool) (s : State) (hk : k < 16) :
    predOf (setPred q f b s) q k = if k = f then b else predOf s q k := by
  rw [predOf, setPred, rd_wr_self, bitOf_mod_two_pow (w := F.sq_PRED.width) hk, bitOf_splice_one]
  rfl

theorem predOf_setPred_other {q q' : SeqId} (f k : Nat) (b : Bool) (s : State) (h : q' ≠ q) :
    predOf (setPred q f b s) q' k = predOf s q' k := by
  refine congrArg (bitOf · k) (rdU_wrU_other _ _ _ _ _ _ _ _ (.inr ?_))
  simp only [unitOf, ne_eq, ← not_and_or]
  rintro ⟨hunit, hnum⟩
  obtain ⟨die, num⟩ := q
  obtain ⟨die', num'⟩ := q'
  obtain rfl : num' = num := hnum
  obtain rfl : die' = die := by simpa using hunit
  exact h rfl

theorem predOf_setFlag (q : SeqId) (f : Nat) (b : Bool) (o : Option OverflowFlag) (s : State) (q' : SeqId) (k : Nat) :
    predOf (setFlag q f b o s) q' k = predOf (setPred q f b s) q' k := rfl

theorem rd_setFlag (q : SeqId) (f : Nat) (b : Bool) (o : Option OverflowFlag) (s : State) (g : Field) (inst i : Nat)
    (hg : g.fid ≠ F.sq_PRED.fid) : rd (setFlag q f b o s) g inst i = rd s g inst i := by
  change rd (setPred q f b s) g inst i = _
  exact rd_wr_other _ _ _ _ _ _ _ _ hg

/-! ### CMP, CMPI and PSTAT (R181) -/

/-- The flag set, and the sticky bits cleared where `clr` says so. -/
def flagSet (q : SeqId) (f : Nat) (b : Bool) (o : Option OverflowFlag) (clr : Bool) (s : State) : State :=
  let s := setFlag q f b o s
  if clr then clearSticky q s else s

section FlagSet

variable (q : SeqId) (f : Nat) (b : Bool) (o : Option OverflowFlag) (clr : Bool) (s : State)

theorem flagSet_rd_other (g : Field) (inst i : Nat) (hg : g.fid ≠ F.sq_PRED.fid) (hs : g.fid ≠ F.sq_STICKY.fid) :
    rd (flagSet q f b o clr s) g inst i = rd s g inst i := by
  have hflag := rd_setFlag q f b o s g inst i hg
  unfold flagSet
  dsimp only
  split
  · exact (rd_wr_other F.sq_STICKY g _ _ _ _ _ _ hs).trans hflag
  · exact hflag

theorem flagSet_predOf (q' : SeqId) (k : Nat) : predOf (flagSet q f b o clr s) q' k = predOf (setPred q f b s) q' k := by
  unfold flagSet
  dsimp only
  split
  · exact congrArg (bitOf · k) (rd_wr_other F.sq_STICKY F.sq_PRED _ _ _ _ _ _ (by decide))
  · rfl

theorem flagSet_sticky : rd (flagSet q f b o clr s) F.sq_STICKY q.die q.num =
    if clr then 0 else rd s F.sq_STICKY q.die q.num := by
  unfold flagSet
  dsimp only
  split
  · exact rd_wr_self _ _ _ _ _
  · exact rd_setFlag _ _ _ _ _ _ _ _ (by decide)

theorem flagSet_mem : MemKept s (flagSet q f b o clr s) := by
  have hflag := setFlag_mem q f b o s (MemKept.refl s)
  unfold flagSet
  dsimp only
  split
  · exact clearSticky_mem q _ hflag
  · exact hflag

theorem flagSet_fld {m : Nat} (hm : [214, 215].contains m = false) : FieldKept m s (flagSet q f b o clr s) := by
  have hflag := setFlag_fld q f b o s (sub_ne _ _ (by decide) hm) (FieldKept.refl m s)
  unfold flagSet
  dsimp only
  split
  · exact clearSticky_fld q _ (sub_ne _ _ (by decide) hm) hflag
  · exact hflag

end FlagSet

/-- Instruction `i` is a control command of operation `op` that sets FLAG to a function `f` of its operands and of fields that
no issue writes, and clears the sticky bits where `clr` says so. -/
structure SetsFlag (q : SeqId) (op : Nat) (i : Instr) (f : Cmd → State → Bool) (clr : Cmd → Bool) : Prop where
  meaning : ∃ o : Cmd → State → Option OverflowFlag, ∀ s,
    exec i s = .next (controlCmd q op (fun c s => flagSet q c.flag (f c s) (o c s) (clr c) s) s)
  ofFields : ∀ c s t, (∀ g : Field, g.fid ∈ [F.sq_STICKY, F.sq_LAST_SKIP, F.sq_LAST_FMT, F.ex_STEP_VETOED, F.ad_REMAP_CUR,
    F.ag_IN_BYPASS, F.sq_ADDR_VAL].map (·.fid) → ∀ u i, rdU t g u i = rdU s g u i) → f c t = f c s

theorem flagCommand_completes {q : SeqId} {op : Nat} {i : Instr} {f : Cmd → State → Bool} {clr : Cmd → Bool}
    (hi : SetsFlag q op i f clr) {s s1 : State} {c : Cmd} {n : Nat} {toks : List Nat} (h : Issues q 0 op s s1 c n toks) :
    Completes i s fun t =>
      predOf t q c.flag = f c s1 ∧
      (∀ q' k, k < 16 → ¬(q' = q ∧ k = c.flag) → predOf t q' k = predOf s q' k) ∧
      (∀ q' r, regOf t q' r = regOf s q' r) ∧
      rd t F.sq_STICKY q.die q.num = (if clr c = true then 0 else rd s1 F.sq_STICKY q.die q.num) ∧
      pcIndex t q = (pcIndex s q + 1) % 2 ^ 11 ∧
      (Quiet q c s → MemKept s t ∧ FieldsKept (F.sq_PRED :: issueFields) s t) := by
  obtain ⟨o, hmeaning⟩ := hi.meaning
  have hprep := prepared_sequencers h
  have hissue := controlIssued_sequencers q c n (controlToken s1 q) s1
  have hfields (g : Field) (hg : g.fid ∈ [F.sq_STICKY, F.sq_LAST_SKIP, F.sq_LAST_FMT, F.ex_STEP_VETOED, F.ad_REMAP_CUR,
      F.ag_IN_BYPASS, F.sq_ADDR_VAL].map (·.fid)) (u i : Nat) :
      rdU (controlIssued q c n (controlToken s1 q) s1) g u i = rdU s1 g u i := by
    have hnot : [9, 10, 11, 196, 197, 198, 201, 204, 205, 206, 209, 213, 219, 229, 515, 517, 524, 682, 686, 688,
        689].contains g.fid = false ∧ g.fid ≠ F.ag_PROG_COUNT.fid := by
      revert hg
      generalize g.fid = m
      revert m
      decide
    exact controlIssued_rdU q c n _ s1 hnot.1 hnot.2 u i
  have hflag : c.flag < 16 := Nat.mod_lt _ (by decide)
  refine ⟨_, (hmeaning s).trans (congrArg _ (controlCmd_of_issues h)), ?_, fun q' k hk hne => ?_, fun q' r => ?_, ?_, ?_, fun hquiet => ?_⟩
  · rw [flagSet_predOf, predOf_setPred _ _ _ _ _ hflag, if_pos rfl, hi.ofFields c _ _ hfields]
  · rw [flagSet_predOf]
    by_cases hq : q' = q
    · subst hq
      rw [predOf_setPred _ _ _ _ _ hk, if_neg fun hc => hne ⟨rfl, hc⟩, hissue.preds, hprep.preds]
    · rw [predOf_setPred_other _ _ _ _ hq, hissue.preds, hprep.preds]
  · exact (flagSet_rd_other _ _ _ _ _ _ _ _ _ (by decide) (by decide)).trans ((hissue.regs q' r).trans (hprep.regs q' r))
  · rw [flagSet_sticky]
    exact congrArg (ite _ _) (hfields _ (by decide) _ _)
  · exact (flagSet_rd_other _ _ _ _ _ _ _ _ _ (by decide) (by decide)).trans
      ((controlIssued_pcIndex _ _ _ _ _).trans (by rw [prepared_pcIndex h]))
  · have hquiet1 := prepared_quiet h hquiet
    refine ⟨(prepared_mem h).trans ((controlIssued_quiet_mem hquiet1).trans (flagSet_mem _ _ _ _ _ _)),
      fieldsKept_of_numbers [9, 10, 11, 201, 204, 209, 213, 214, 215, 216, 217, 218, 219, 220, 221] (by decide) fun m hm => ?_⟩
    exact (prepared_fld h (sub_ne _ _ (by decide) hm)).trans ((controlIssued_quiet_fld hquiet1 (sub_ne _ _ (by decide) hm)).trans
      (flagSet_fld _ _ _ _ _ _ (sub_ne _ _ (by decide) hm)))

/-- The conditions 6 and 7 compare as two's complement numbers. -/
theorem signedOf_toNat (a : BitVec 48) : signedOf a.toNat 48 = a.toInt := by
  have hlt := a.isLt
  unfold signedOf
  dsimp only
  rw [BitVec.toInt_eq_toNat_cond, Nat.mod_eq_of_lt hlt]
  split <;> split <;> omega

theorem cmp_setsFlag (q : SeqId) : SetsFlag q 0x08 (.cmp q)
    (fun c s => cmpCond c.cond (regOf s q c.sreg) (regOf s q c.treg)) fun _ => false where
  meaning := ⟨fun _ _ => none, fun _ => rfl⟩
  ofFields _ _ _ h := by simp only [regOf, rd, h F.sq_ADDR_VAL (by decide)]

theorem cmpi_setsFlag (q : SeqId) : SetsFlag q 0x09 (.cmpi q) (fun c s => cmpCond c.cond (regOf s q c.sreg) c.imm)
    fun _ => false where
  meaning := ⟨fun _ _ => none, fun _ => rfl⟩
  ofFields _ _ _ h := by simp only [regOf, rd, h F.sq_ADDR_VAL (by decide)]

theorem pstat_setsFlag (q : SeqId) : SetsFlag q 0x0C (.pstat q) (fun c s => pstatCond s q c.cond c.imm) Cmd.clr where
  meaning := ⟨fun c s => overflowTested s q c, fun _ => rfl⟩
  ofFields _ _ _ h := by
    simp only [pstatCond, stepVeto, anyBypass, physOf, rdA, rdb, rd, h F.sq_STICKY (by decide), h F.sq_LAST_SKIP (by decide),
      h F.sq_LAST_FMT (by decide), h F.ex_STEP_VETOED (by decide), h F.ad_REMAP_CUR (by decide), h F.ag_IN_BYPASS (by decide)]

/-- Settles O13: CMP and CMPI never clear the sticky bits, PSTAT does so with CLR. -/
theorem predicateCommands : Obligations.PredicateCommands := by
  unfold Obligations.PredicateCommands
  refine ⟨fun q op i f hmem s s1 c n toks h => ?_, fun a b => ?_⟩
  · simp only [List.mem_cons, List.not_mem_nil, or_false, Prod.mk.injEq] at hmem
    rcases hmem with ⟨rfl, rfl, rfl⟩ | ⟨rfl, rfl, rfl⟩ | ⟨rfl, rfl, rfl⟩
    · simpa using flagCommand_completes (cmp_setsFlag q) h
    · simpa using flagCommand_completes (cmpi_setsFlag q) h
    · simpa using flagCommand_completes (pstat_setsFlag q) h
  · simp only [cmpCond, decide_eq_true_eq, signedOf_toNat, BitVec.lt_def, BitVec.le_def, BitVec.toNat_inj, ne_eq, and_self]

end Sys2Proof.Machine

namespace Sys2Proof.Machine

open Sys2Proof

/-! ### The commands that say where the stream goes on (R181, R194) -/

theorem pcIndex_jumpTo (q : SeqId) (c : Cmd) (s : State) : pcIndex (jumpTo q c s) q = c.imm % 2048 := by
  rw [jumpTo, pcIndex_setPc]
  exact Nat.mod_mod _ _

theorem jumpTo_other_fld {m : Nat} (q : SeqId) (c : Cmd) (s : State) (hm : [209, 213].contains m = false) :
    FieldKept m s (jumpTo q c s) :=
  jumpTo_fld q c s hm (FieldKept.refl m s)

theorem jumpTo_variant (q : SeqId) (c : Cmd) (s : State) : (jumpTo q c s).variant = s.variant := (jumpTo_kept q c s (Kept.refl s)).variant

theorem rd_setSeqX (q : SeqId) (x : SeqX) (s : State) (f : Field) (inst i : Nat) : rd (setSeqX q x s) f inst i = rd s f inst i := rfl

theorem activeBin_of_fld {s t : State} (h : FieldKept F.sq_PC_BIN.fid s t) (hv : t.variant = s.variant) (q : SeqId) :
    activeBin t q = activeBin s q := h.rdU' hv (by decide) _ _

theorem binOf_of_bins {s t : State} (h : t.bins = s.bins) (q : SeqId) (b : Nat) : binOf t q b = binOf s q b := by
  rw [binOf, binOf, h]

theorem binValid_of_fld {s t : State} (h0 : FieldKept F.sq_VALID_0.fid s t) (h1 : FieldKept F.sq_VALID_1.fid s t)
    (hv : t.variant = s.variant) (q : SeqId) (b : Nat) : binValid t q b = binValid s q b := by
  unfold binValid
  rw [rdb_of_fieldKept h0 hv (by decide), rdb_of_fieldKept h1 hv (by decide)]

/-- The other bin is entered where it is valid and of the sequencer's generation. -/
theorem enterOther_of_valid {q : SeqId} {s : State} {b : Bin} (tag base : Nat) (hb : binOf s q (1 - activeBin s q) = some b)
    (hv : binValid s q (1 - activeBin s q) = true) (hg : b.gen = (seqX s q).gen) :
    enterOther q tag base s = setSeqX q { seqX s q with base := base }
      (wr F.sq_PC_INDEX q.die q.num b.entry (wr F.sq_PC_BIN q.die q.num (1 - activeBin s q) s)) := by
  unfold enterOther
  dsimp only
  rw [hb]
  simp only [hv, hg, and_self, if_true]

theorem enterOther_entered {q : SeqId} {s : State} {b : Bin} (tag base : Nat) (hb : binOf s q (1 - activeBin s q) = some b)
    (hv : binValid s q (1 - activeBin s q) = true) (hg : b.gen = (seqX s q).gen) :
    let t := enterOther q tag base s
    activeBin t q = 1 - activeBin s q ∧ pcIndex t q = b.entry % 2 ^ 11 ∧ seqState t q = seqState s q ∧ (seqX t q).base = base := by
  have hone : (1 - activeBin s q) % 2 ^ F.sq_PC_BIN.width = 1 - activeBin s q :=
    Nat.mod_eq_of_lt (Nat.lt_of_le_of_lt (Nat.sub_le 1 _) (by decide))
  dsimp only
  rw [enterOther_of_valid tag base hb hv hg]
  refine ⟨?_, ?_, ?_, by rw [seqX_setSeqX_self]⟩
  · rw [activeBin, rd_setSeqX, rd_wr_other F.sq_PC_INDEX F.sq_PC_BIN _ _ _ _ _ _ (by decide), rd_wr_self, hone]
  · rw [pcIndex, rd_setSeqX, rd_wr_self]
    rfl
  · rw [seqState, rd_setSeqX, rd_wr_other F.sq_PC_INDEX F.sq_STATE _ _ _ _ _ _ (by decide),
      rd_wr_other F.sq_PC_BIN F.sq_STATE _ _ _ _ _ _ (by decide), seqState]

section Flow

variable {q : SeqId} {op : Nat} {s s1 : State} {c : Cmd} {n : Nat} {toks : List Nat} (h : Issues q 0 op s s1 c n toks)
  {e : State → State} (hvar : ∀ s, (e s).variant = s.variant)

include h hvar

/-- The effect `e` of a control command that writes neither registers nor flags leaves them as they were. -/
theorem flow_sequencers (hregs : ∀ s, FieldKept F.sq_ADDR_VAL.fid s (e s)) (hpreds : ∀ s, FieldKept F.sq_PRED.fid s (e s)) :
    SequencersKept s (e (controlIssued q c n (controlToken s1 q) s1)) := by
  have hprep := prepared_sequencers h
  have hissue := controlIssued_sequencers q c n (controlToken s1 q) s1
  have he := sequencersKept_of_fields (hvar _) (hregs (controlIssued q c n (controlToken s1 q) s1)) (hpreds _)
  exact ⟨fun q' r => (he.regs q' r).trans ((hissue.regs q' r).trans (hprep.regs q' r)),
    fun q' k => (he.preds q' k).trans ((hissue.preds q' k).trans (hprep.preds q' k))⟩

omit hvar in
/-- A control command without token and record whose effect is on the place of its sequencer changes no other field and no
byte. -/
theorem flow_quiet (hfld : ∀ m s, [209, 213].contains m = false → FieldKept m s (e s)) (hmem : ∀ s, MemKept s (e s))
    (hquiet : Quiet q c s) : MemKept s (e (controlIssued q c n (controlToken s1 q) s1)) ∧
      FieldsKept issueFields s (e (controlIssued q c n (controlToken s1 q) s1)) := by
  have hquiet1 := prepared_quiet h hquiet
  refine ⟨(prepared_mem h).trans ((controlIssued_quiet_mem hquiet1).trans (hmem _)),
    fieldsKept_of_numbers [9, 10, 11, 201, 204, 209, 213, 215, 216, 217, 218, 219, 220, 221] (by decide) fun m hm => ?_⟩
  exact (prepared_fld h (sub_ne _ _ (by decide) hm)).trans ((controlIssued_quiet_fld hquiet1 (sub_ne _ _ (by decide) hm)).trans
    (hfld m _ (sub_ne _ _ (by decide) hm)))

end Flow

/-- What R181 says of the control commands that change no data: where `i` goes on, and what it leaves. -/
def FlowsOn (q : SeqId) (i : Instr) (s : State) (c : Cmd) (n : Nat) (t : State) : Prop :=
  let next := (pcIndex s q + 1) % 2 ^ 11
  let left := (regOf s q c.dreg + 2 ^ 48 - 1) % 2 ^ 48
  (∀ q' k, predOf t q' k = predOf s q' k) ∧
  (∀ q' r, ¬(i = .loop q ∧ q'.die = q.die ∧ q'.num * 32 + r = q.num * 32 + c.dreg) → regOf t q' r = regOf s q' r) ∧
  (i = .nop q → pcIndex t q = next) ∧
  (i = .jump q → pcIndex t q = c.imm % 2048) ∧
  (i = .loop q → regOf t q c.dreg = left ∧ pcIndex t q = if left = 0 then next else c.imm % 2048) ∧
  (i = .halt q → seqState t q = 0) ∧
  (i = .redcfg q → pcIndex t q = next ∧ (seqX t q).red2 = c.w2 ∧ (seqX t q).red3 = c.w3 ∧
    (seqX t q).row2 = (seqX s q).row2 ∧ (seqX t q).row3 = (seqX s q).row3) ∧
  (i = .rowcfg q → pcIndex t q = next ∧ (seqX t q).row2 = c.w2 ∧ (seqX t q).row3 = c.w3 ∧
    (seqX t q).red2 = (seqX s q).red2 ∧ (seqX t q).red3 = (seqX s q).red3) ∧
  (i = .switchBin q → ∀ b, binOf s q (1 - activeBin s q) = some b →
    binValid s q (1 - activeBin s q) = true → b.gen = (seqX s q).gen →
    activeBin t q = (1 - activeBin s q) ∧ pcIndex t q = b.entry % 2 ^ 11 ∧ seqState t q = 1 ∧ (seqX t q).base = n) ∧
  (Quiet q c s → (i = .nop q ∨ i = .jump q ∨ i = .halt q ∨ i = .redcfg q ∨ i = .rowcfg q) →
    MemKept s t ∧ FieldsKept issueFields s t)

section Flows

variable {q : SeqId} {op : Nat} {s s1 : State} {c : Cmd} {n : Nat} {toks : List Nat}

theorem controlCmd_completes {i : Instr} {effect : Cmd → State → State} (hexec : ∀ s, exec i s = .next (controlCmd q op effect s))
    (h : Issues q 0 op s s1 c n toks) {P : State → Prop} (hP : P (effect c (controlIssued q c n (controlToken s1 q) s1))) :
    Completes i s P :=
  ⟨_, (hexec s).trans (congrArg _ (controlCmd_of_issues h)), hP⟩

theorem streamCmd_completes {cls : Nat} {i : Instr} {body : Cmd → Nat → List Nat → State → State}
    (hexec : ∀ s, exec i s = .next (streamCmd q cls op body s)) (h : Issues q cls op s s1 c n toks) {P : State → Prop}
    (hP : P (body c n toks s1)) : Completes i s P :=
  ⟨_, (hexec s).trans (congrArg _ (streamCmd_of_issues h)), hP⟩

theorem issued_pcIndex (h : Issues q 0 op s s1 c n toks) (tok : Nat) :
    pcIndex (controlIssued q c n tok s1) q = (pcIndex s q + 1) % 2 ^ 11 := by
  rw [controlIssued_pcIndex, prepared_pcIndex h]

theorem nop_flows (h : Issues q 0 0x00 s s1 c n toks) : Completes (.nop q) s (FlowsOn q (.nop q) s c n) := by
  have hseq := flow_sequencers h (e := id) (fun _ => rfl) (fun s => FieldKept.refl _ s) (fun s => FieldKept.refl _ s)
  refine controlCmd_completes (effect := fun _ s => s) (fun _ => rfl) h ⟨hseq.preds, fun q' r _ => hseq.regs q' r, ?_⟩
  simp only [reduceCtorEq, false_imp_iff, true_and, true_imp_iff]
  exact ⟨issued_pcIndex h _, fun hquiet _ => flow_quiet h (e := id) (fun m s _ => FieldKept.refl m s) MemKept.refl hquiet⟩

theorem jump_flows (h : Issues q 0 0x0B s s1 c n toks) : Completes (.jump q) s (FlowsOn q (.jump q) s c n) := by
  have hfld (m : Nat) (s : State) (hm : [209, 213].contains m = false) := jumpTo_other_fld q c s hm
  have hseq := flow_sequencers h (jumpTo_variant q c) (fun s => hfld _ s (by decide)) (fun s => hfld _ s (by decide))
  refine controlCmd_completes (effect := fun c s => jumpTo q c s) (fun _ => rfl) h ⟨hseq.preds, fun q' r _ => hseq.regs q' r, ?_⟩
  simp only [reduceCtorEq, false_imp_iff, true_and, true_imp_iff]
  exact ⟨pcIndex_jumpTo _ _ _, fun hquiet _ => flow_quiet h hfld (fun s => jumpTo_mem q c s (MemKept.refl s)) hquiet⟩

theorem halt_flows (h : Issues q 0 0x10 s s1 c n toks) : Completes (.halt q) s (FlowsOn q (.halt q) s c n) := by
  have hfld (m : Nat) (s : State) (hm : [209, 213].contains m = false) : FieldKept m s (toIdle q s) :=
    toIdle_fld q s (sub_ne _ _ (by decide) hm) (FieldKept.refl m s)
  have hseq := flow_sequencers h (e := toIdle q) (fun _ => rfl) (fun s => hfld _ s (by decide)) (fun s => hfld _ s (by decide))
  refine controlCmd_completes (effect := fun _ s => toIdle q s) (fun _ => rfl) h ⟨hseq.preds, fun q' r _ => hseq.regs q' r, ?_⟩
  simp only [reduceCtorEq, false_imp_iff, true_and, true_imp_iff]
  exact ⟨rd_wr_self _ _ _ _ _, fun hquiet _ => flow_quiet h hfld (fun s => (MemKept.refl s).of_eq rfl) hquiet⟩

/-- A configuration command loads two words of its sequencer's own state, and moves on. -/
theorem config_flows (h : Issues q 0 op s s1 c n toks) (x : State → SeqX) :
    let t := setSeqX q (x (controlIssued q c n (controlToken s1 q) s1)) (controlIssued q c n (controlToken s1 q) s1)
    SequencersKept s t ∧ pcIndex t q = (pcIndex s q + 1) % 2 ^ 11 ∧
      (Quiet q c s → MemKept s t ∧ FieldsKept issueFields s t) := by
  have hfld (m : Nat) (s : State) : FieldKept m s (setSeqX q (x s) s) := (FieldKept.refl m s).of_eq rfl
  exact ⟨flow_sequencers h (e := fun s => setSeqX q (x s) s) (fun _ => rfl) (hfld _) (hfld _), issued_pcIndex h _,
    flow_quiet h (e := fun s => setSeqX q (x s) s) (fun m s _ => hfld m s) fun s => (MemKept.refl s).of_eq rfl⟩

/-- The configuration words that the state of issue holds. -/
theorem issued_config (h : Issues q 0 op s s1 c n toks) (tok : Nat) :
    let x := seqX (controlIssued q c n tok s1) q
    x.red2 = (seqX s q).red2 ∧ x.red3 = (seqX s q).red3 ∧ x.row2 = (seqX s q).row2 ∧ x.row3 = (seqX s q).row3 := by
  have hsteady := prepare_steady h q
  dsimp only
  rw [controlIssued_seqX]
  exact ⟨(congrArg SeqX.red2 hsteady :), (congrArg SeqX.red3 hsteady :), (congrArg SeqX.row2 hsteady :),
    (congrArg SeqX.row3 hsteady :)⟩

theorem redcfg_flows (h : Issues q 0 0x11 s s1 c n toks) : Completes (.redcfg q) s (FlowsOn q (.redcfg q) s c n) := by
  obtain ⟨hseq, hpc, hquiet⟩ := config_flows h fun s => { seqX s q with red2 := c.w2, red3 := c.w3 }
  obtain ⟨-, -, hrow2, hrow3⟩ := issued_config h (controlToken s1 q)
  refine controlCmd_completes (effect := fun c s => setSeqX q { seqX s q with red2 := c.w2, red3 := c.w3 } s) (fun _ => rfl) h
    ⟨hseq.preds, fun q' r _ => hseq.regs q' r, ?_⟩
  simp only [reduceCtorEq, false_imp_iff, true_and, true_imp_iff, seqX_setSeqX_self]
  exact ⟨⟨hpc, hrow2, hrow3⟩, fun hq _ => hquiet hq⟩

theorem rowcfg_flows (h : Issues q 0 0x12 s s1 c n toks) : Completes (.rowcfg q) s (FlowsOn q (.rowcfg q) s c n) := by
  obtain ⟨hseq, hpc, hquiet⟩ := config_flows h fun s => { seqX s q with row2 := c.w2, row3 := c.w3 }
  obtain ⟨hred2, hred3, -, -⟩ := issued_config h (controlToken s1 q)
  refine controlCmd_completes (effect := fun c s => setSeqX q { seqX s q with row2 := c.w2, row3 := c.w3 } s) (fun _ => rfl) h
    ⟨hseq.preds, fun q' r _ => hseq.regs q' r, ?_⟩
  simp only [reduceCtorEq, false_imp_iff, true_and, true_imp_iff, seqX_setSeqX_self]
  exact ⟨⟨hpc, hred2, hred3⟩, fun hq _ => hquiet hq⟩

theorem loop_flows (h : Issues q 0 0x0A s s1 c n toks) : Completes (.loop q) s (FlowsOn q (.loop q) s c n) := by
  have hprep := prepared_sequencers h
  have hissue := controlIssued_sequencers q c n (controlToken s1 q) s1
  have hleft : regOf (controlIssued q c n (controlToken s1 q) s1) q c.dreg = regOf s q c.dreg := by
    rw [hissue.regs, hprep.regs]
  refine controlCmd_completes (effect := fun c s =>
    let v := (regOf s q c.dreg + 2 ^ 48 - 1) % 2 ^ 48
    let s := setReg q c.dreg v s
    if v ≠ 0 then jumpTo q c s else s) (fun _ => rfl) h ?_
  dsimp only
  rw [hleft]
  generalize hv : (regOf s q c.dreg + 2 ^ 48 - 1) % 2 ^ 48 = v
  generalize hw : setReg q c.dreg v (controlIssued q c n (controlToken s1 q) s1) = w
  have hkept : SequencersKept w (if v ≠ 0 then jumpTo q c w else w) := by
    split
    · exact sequencersKept_of_fields (jumpTo_variant q c w) (jumpTo_other_fld q c w (by decide)) (jumpTo_other_fld q c w (by decide))
    · exact ⟨fun _ _ => rfl, fun _ _ => rfl⟩
  have hself : regOf w q c.dreg = v := by
    rw [← hw, regOf_setReg_self, ← hv, Nat.mod_mod]
  have hpc : pcIndex (if v ≠ 0 then jumpTo q c w else w) q = if v = 0 then (pcIndex s q + 1) % 2 ^ 11 else c.imm % 2048 := by
    rw [← issued_pcIndex h (controlToken s1 q), ← pcIndex_setReg q q c.dreg v (controlIssued q c n (controlToken s1 q) s1), hw,
      ite_not, apply_ite (pcIndex · q), pcIndex_jumpTo]
  refine ⟨fun q' k => ?_, fun q' r hr => ?_, ?_⟩
  · rw [hkept.preds, ← hw, predOf_setReg, hissue.preds, hprep.preds]
  · rw [hkept.regs, ← hw, regOf_setReg_other _ _ fun hc => hr ⟨rfl, hc⟩, hissue.regs, hprep.regs]
  · simp only [reduceCtorEq, false_imp_iff, true_and, true_imp_iff, or_false, implies_true, and_true]
    exact ⟨by rw [hkept.regs, hself, hv], by rw [hpc, hv]⟩

theorem switchBin_flows (h : Issues q 0 0x0F s s1 c n toks) : Completes (.switchBin q) s (FlowsOn q (.switchBin q) s c n) := by
  have hvar (s : State) : (enterOther q (seqTag s1 q) n (setSeqState q 1 s)).variant = s.variant :=
    (enterOther_kept _ _ _ _ (setSeqState_kept q 1 s (Kept.refl s))).variant
  have hfld (m : Nat) (s : State) (hm : [9, 10, 11, 196, 197, 198, 205, 209, 210, 213, 682, 686, 688, 689].contains m = false) :
      FieldKept m s (enterOther q (seqTag s1 q) n (setSeqState q 1 s)) :=
    enterOther_fld _ _ _ _ hm (setSeqState_fld _ _ _ (sub_ne _ _ (by decide) hm) (FieldKept.refl m s))
  have hseq := flow_sequencers h hvar (fun s => hfld _ s (by decide)) fun s => hfld _ s (by decide)
  refine streamCmd_completes (body := fun c t _ s => controlIssue q c t (controlToken s q)
    (fun u => enterOther q (seqTag s q) t (setSeqState q 1 u)) s) (fun _ => rfl) h ⟨hseq.preds, fun q' r _ => hseq.regs q' r, ?_⟩
  simp only [reduceCtorEq, false_imp_iff, true_and, true_imp_iff, or_false, implies_true, and_true]
  intro b hb hvalid hgen
  generalize hu : setSeqState q 1 (controlIssued q c n (controlToken s1 q) s1) = u
  have hto (m : Nat) (hm : [9, 10, 11, 196, 197, 198, 201, 204, 205, 206, 209, 213, 215, 216, 217, 218, 219, 220, 221, 229, 515, 517,
      524, 682, 686, 688, 689].contains m = false) : FieldKept m s u := by
    rw [← hu]
    exact (prepared_fld h (sub_ne _ _ (by decide) hm)).trans (setSeqState_fld _ _ _ (sub_ne _ _ (by decide) hm)
      (controlIssued_fld _ _ _ _ _ (sub_ne _ _ (by decide) hm)))
  have huvar : u.variant = s.variant := by
    rw [← hu]
    exact (controlIssued_variant _ _ _ _ _).trans (prepared_variant h)
  have hactive := activeBin_of_fld (hto _ (by decide)) huvar q
  have hbins : u.bins = s.bins := by
    rw [← hu]
    exact (controlIssued_bins _ _ _ _ _).trans (congrArg State.bins (prepare_unissued h) :)
  have hgenu : (seqX u q).gen = (seqX s q).gen := by
    rw [← hu, seqX_setSeqState, controlIssued_seqX]
    exact prepared_gen h q
  have hstate : seqState u q = 1 := by
    rw [← hu]
    exact rd_wr_self _ _ _ _ _
  rw [← hactive] at hb hvalid ⊢
  have hentered := enterOther_entered (seqTag s1 q) n ((binOf_of_bins hbins _ _).trans hb)
    ((binValid_of_fld (hto _ (by decide)) (hto _ (by decide)) huvar _ _).trans hvalid) (hgen.trans hgenu.symm)
  obtain ⟨hbin, hpc, hst, hbase⟩ := hentered
  change _ ∧ _ ∧ _ ∧ _
  rw [controlIssue_eq, hu]
  exact ⟨hbin, hpc, hst.trans hstate, hbase⟩

end Flows

/-- Settles O14, command by command. -/
theorem flowCommands : Obligations.FlowCommands := by
  unfold Obligations.FlowCommands
  intro q op i hmem s s1 c n toks h
  change Completes i s (FlowsOn q i s c n)
  simp only [List.mem_cons, List.not_mem_nil, or_false, Prod.mk.injEq] at hmem
  rcases hmem with ⟨rfl, rfl⟩ | ⟨rfl, rfl⟩ | ⟨rfl, rfl⟩ | ⟨rfl, rfl⟩ | ⟨rfl, rfl⟩ | ⟨rfl, rfl⟩ | ⟨rfl, rfl⟩
  · exact nop_flows h
  · exact loop_flows h
  · exact jump_flows h
  · exact switchBin_flows h
  · exact halt_flows h
  · exact redcfg_flows h
  · exact rowcfg_flows h

end Sys2Proof.Machine

namespace Sys2Proof.Machine

open Sys2Proof

/-! ### TOKEN (R185) -/

theorem bitOf_or (a b k : Nat) : bitOf (a ||| b) k = (bitOf a k || bitOf b k) := by
  simp [bitOf_eq_testBit]

theorem bitOf_zero (k : Nat) : bitOf 0 k = false := by
  simp [bitOf_eq_testBit]

theorem bitOf_bits {x lo w k : Nat} (hk : k < w) : bitOf (bits x lo w) k = bitOf x (lo + k) := by
  rw [bits, Nat.shiftRight_eq_div_pow, bitOf_mod_two_pow hk, bitOf_eq_testBit, bitOf_eq_testBit, Nat.testBit_div_two_pow,
    Nat.add_comm]

/-- A status bit of the OR of tokens is one of them having it. -/
theorem bitOf_status (toks : List Nat) (a : Nat) {k : Nat} (hk : k < 3) :
    bitOf (toks.foldl (fun a t => a ||| tokStatus t) a) k = (bitOf a k || toks.any fun w => bitOf w (29 + k)) := by
  induction toks generalizing a with
  | nil => simp
  | cons t ts ih => rw [List.foldl_cons, ih, bitOf_or, tokStatus, bitOf_bits hk, List.any_cons, Bool.or_assoc]

theorem bitOf_status_zero (toks : List Nat) {k : Nat} (hk : k < 3) :
    bitOf (toks.foldl (fun a t => a ||| tokStatus t) 0) k = toks.any fun w => bitOf w (29 + k) := by
  rw [bitOf_status toks 0 hk, bitOf_zero, Bool.false_or]

/-- No earlier operation of the sequencer for the same queue is under way. -/
def Unrouted (q : SeqId) (c : Cmd) (s : State) : Prop :=
  ∀ r ∈ s.tracker, r.route ≠ some (q.die, bits (seqTag s q) 12 8, c.produceDie, c.produceQueue)

theorem produceAt_of_unrouted {q : SeqId} {c : Cmd} {s : State} (word e : Nat) (hen : c.produceEn = true) (h : Unrouted q c s) :
    produceAt q c word e s = enqueue (some (seqDieCode q)) q.die c.produceDie c.produceQueue word e s := by
  unfold produceAt
  rw [hen]
  dsimp only [Bool.not_true]
  rw [if_neg (by decide), if_neg]
  simp only [List.any_eq_true, beq_iff_eq, not_exists, not_and]
  exact h

theorem enqueue_of_room {src : Option Nat} {die dieCode k word e : Nat} {s : State} (h : (queueOf s dieCode k).length < 64) :
    enqueue src die dieCode k word e s =
      settleHead dieCode k (setQueue dieCode k (insertTok ⟨word, poppableAt src dieCode e⟩ (queueOf s dieCode k)) s) := if_pos h

theorem queueOf_of_queues {s t : State} (h : t.queues = s.queues) (die k : Nat) : queueOf t die k = queueOf s die k := by
  rw [queueOf, queueOf, h]

theorem setPc_same_queues (q : SeqId) (n : Nat) (s : State) : (setPc q n s).queues = s.queues := by
  unfold setPc
  dsimp only
  split
  · rfl
  · rfl

theorem queueOf_controlIssued (q : SeqId) (c : Cmd) (n tok : Nat) (s : State) (die k : Nat) :
    queueOf (controlIssued q c n tok s) die k = queueOf (produceAt q c tok (n * domCycles q) s) die k := by
  refine queueOf_of_queues ?_ die k
  rw [controlIssued, setPc_same_queues]
  exact (congrArg State.queues (recordView_completionRecord q.die tok c.notify (n * domCycles q) _) :)

theorem token_issues {q : SeqId} {s s1 : State} {c : Cmd} {n : Nat} {toks : List Nat} (h : Issues q 0 0x0E s s1 c n toks)
    {P : State → Prop} (hP : P (controlIssued q c n (tokenProduced s1 q c toks) s1)) : Completes (.token q) s P :=
  streamCmd_completes (body := fun c t toks s => controlIssue q c t (tokenProduced s q c toks) (fun s => s) s) (fun _ => rfl) h hP

/-- The word that TOKEN enqueues. -/
theorem tokenProduced_eq (s : State) (q : SeqId) (c : Cmd) (toks : List Nat) : tokenProduced s q c toks =
    tokenWord (seqTag s q) (seqX s q).gen false (toks.any fun w => bitOf w 29) (toks.any fun w => bitOf w 30)
      (toks.any fun w => bitOf w 31) (if predOf s q c.flag then bits c.imm 4 4 else bits c.imm 0 4)
      (if c.waitAEn then tokExtent (toks.headD 0) else 0) := by
  unfold tokenProduced
  dsimp only
  rw [bitOf_status_zero toks (by decide), bitOf_status_zero toks (by decide), bitOf_status_zero toks (by decide)]

theorem cmdCode_token {n count : Nat} {c : Cmd} (hcls : c.cls = 0) (hop : c.op = 0x0E) (hen : c.produceEn = false)
    (hkind : c.streamKind < 8) : cmdCode n count c = 7 := by
  have hbad : badFields c = true := by simp [badFields, hcls, hop, hen]
  simp [cmdCode, hcls, hop, hbad, classAllowed, classOps, Nat.not_le.2 hkind]

/-- Settles O15: TOKEN is a control command whose token says what the popped tokens said. -/
theorem tokenCommand : Obligations.TokenCommand := by
  unfold Obligations.TokenCommand
  refine ⟨fun q s s1 c n toks h hen hroom hroute => ?_, fun n count c => cmdCode_token, fun q s s1 c n toks run h => ?_⟩
  · have hprep := prepared_sequencers h
    have hissue := controlIssued_sequencers q c n (tokenProduced s1 q c toks) s1
    have hqueued := (produceAt_of_unrouted (tokenProduced s1 q c toks) (n * domCycles q) hen hroute).trans (enqueue_of_room hroom)
    refine token_issues h ⟨?_, issued_pcIndex h _, ⟨fun q' r => ?_, fun q' k => ?_⟩, fun hnotify htrace => ?_⟩
    · rw [queueOf_controlIssued, hqueued, queueOf_settleHead, queueOf_setQueue, settled_setQueue, tokenProduced_eq]
    · rw [hissue.regs, hprep.regs]
    · rw [hissue.preds, hprep.preds]
    · have htrace1 : rdb (produceAt q c (tokenProduced s1 q c toks) (n * domCycles q) s1) F.sq_TRACE_ALL q.die 0 = false :=
        (rdb_of_fieldKept (produceAt_fld q c _ _ s1 (by decide) (FieldKept.refl _ s1))
          (congrArg State.variant (tokenView_produceAt q c _ _ s1) :) (by decide) _ _).trans
          ((rdb_of_fieldKept (prepared_fld h (by decide)) (prepared_variant h) (by decide) _ _).trans htrace)
      have hmem : MemKept s1 (controlIssued q c n (tokenProduced s1 q c toks) s1) := by
        rw [controlIssued, hnotify, completionRecord_of_not htrace1, hqueued]
        exact setPc_mem _ _ _ (noteIssue_mem _ _ _ (settleHead_mem _ _ _ ((MemKept.refl s1).of_eq rfl)))
      refine ⟨(prepared_mem h).trans hmem, fieldsKept_of_numbers
        [9, 10, 11, 201, 204, 209, 213, 215, 216, 217, 218, 219, 220, 221] (by decide) fun m hm => ?_⟩
      refine (prepared_fld h (sub_ne _ _ (by decide) hm)).trans ?_
      rw [controlIssued, hnotify, completionRecord_of_not htrace1, hqueued]
      exact setPc_fld _ _ _ (sub_ne _ _ (by decide) hm) (noteIssue_fld _ _ _ (sub_ne _ _ (by decide) hm)
        (settleHead_fld _ _ _ (sub_ne _ _ (by decide) hm) ((FieldKept.refl m s1).of_eq rfl)))
  · obtain ⟨-, pop, s', hw, hs1, -, hrun⟩ := of_prepare_go h
    have hpred : predOf s1 q c.predFlag = predOf s q c.predFlag := (prepared_sequencers h).preds q _
    rw [hrun, issueRuns, hpred]
    cases c.predEn <;> simp

end Sys2Proof.Machine

namespace Sys2Proof.Machine

open Sys2Proof

/-! ### Every command of the stream goes through the issue rule -/

/-- Instruction `i` of class `cls` and operation `op` does what its body says where its command issues and runs; where a
product cannot be taken yet it stays (R171, log 125). -/
def IsStream (q : SeqId) (x : Instr × Nat × Nat) : Prop :=
  ∃ (held : State → Bool) (body : Cmd → Nat → List Nat → State → State),
    (∀ s, exec x.1 s = .next (if held s then s else streamCmd q x.2.1 x.2.2 body s)) ∧
    ∀ s, held s = true → ∃ s1 c n toks, prepare q x.2.1 x.2.2 s = .go s1 c n toks true

theorem isStream_of_body {q : SeqId} {i : Instr} {cls op : Nat} (body : Cmd → Nat → List Nat → State → State)
    (h : ∀ s, exec i s = .next (streamCmd q cls op body s)) : IsStream q (i, cls, op) :=
  ⟨fun _ => false, body, h, fun _ h => absurd h Bool.false_ne_true⟩

theorem arrayHeld_runs {q : SeqId} {s : State} (h : arrayHeld q s = true) :
    ∃ s1 c n toks, prepare q 5 0 s = .go s1 c n toks true := by
  unfold arrayHeld at h
  split at h
  · next hp => exact ⟨_, _, _, _, hp⟩
  · cases h

theorem streamCommands_isStream (q : SeqId) (codes : List (Nat × Int)) : ∀ x ∈ streamCommands q codes, IsStream q x := by
  simp only [streamCommands, List.cons_append, List.nil_append, List.forall_mem_cons, List.not_mem_nil, false_imp_iff, implies_true, and_true]
  refine ⟨?_, ?_, ?_, ?_, ?_, ?_, ?_, ?_, ?_, ?_, ?_, ?_, ?_, ?_, ?_, ?_, ?_, ?_, ?_, ?_, ?product, ?_⟩
  case product => exact ⟨arrayHeld q, _, fun _ => rfl, fun _ => arrayHeld_runs⟩
  all_goals repeat' apply And.intro
  all_goals exact isStream_of_body _ fun _ => rfl

section Streamed

variable {q : SeqId} {codes : List (Nat × Int)} {i : Instr} {cls op : Nat} (hi : (i, cls, op) ∈ streamCommands q codes)
  {s s1 : State}

include hi

theorem exec_of_skipped {c : Cmd} {n : Nat} {toks : List Nat} (h : prepare q cls op s = .go s1 c n toks false) :
    exec i s = .next (skipCmd q c n s1) := by
  obtain ⟨held, body, hexec, hruns⟩ := streamCommands_isStream q codes _ hi
  have hheld : held s = false := by
    by_contra hc
    obtain ⟨_, _, _, _, hp⟩ := hruns s (Bool.not_eq_false _ ▸ hc)
    simp [h] at hp
  rw [hexec, hheld]
  exact congrArg _ (streamCmd_of_skipped h)

theorem exec_of_held (h : prepare q cls op s = .hold s1) : exec i s = .next s1 := by
  obtain ⟨held, body, hexec, hruns⟩ := streamCommands_isStream q codes _ hi
  have hheld : held s = false := by
    by_contra hc
    obtain ⟨_, _, _, _, hp⟩ := hruns s (Bool.not_eq_false _ ▸ hc)
    simp [h] at hp
  rw [hexec, hheld]
  exact congrArg _ (streamCmd_of_held h)

end Streamed

/-! ### A skipped command (R188) -/

section Skipped

variable (q : SeqId) (c : Cmd) (n : Nat) (s : State)

/-- The state in which a skipped command has issued and is counted. -/
def skipCounted : State := addW F.sq_SKIPPED q.die 0 1 (noteIssue q n s)

/-- The state in which its token and record are done too. -/
def skipEnded : State :=
  let tok := emptyToken (seqTag s q) (seqX s q).gen
  completionRecord q.die tok c.notify (n * domCycles q)
    (produceAt q c tok (n * domCycles q) (skipCounted q n s))

theorem skipCmd_eq : skipCmd q c n s = setPc q (pcIndex s q + 1) (skipEnded q c n s) := rfl

theorem skipCounted_fld {m : Nat} (hm : [201, 202, 219].contains m = false) : FieldKept m s (skipCounted q n s) :=
  addW_fld _ _ _ _ _ (fun e => by subst e; exact absurd hm (by decide))
    (noteIssue_fld _ _ _ (sub_ne _ _ (by decide) hm) (FieldKept.refl m s))

theorem skipCounted_tracker : (skipCounted q n s).tracker = s.tracker := by
  simp [skipCounted, noteIssue, setSeqX]

theorem skipCounted_seqTag : seqTag (skipCounted q n s) q = seqTag s q := by
  have hpc := (skipCounted_fld q n s (m := F.sq_PC_INDEX.fid) (by decide)).rdU' rfl (by decide)
  have hbin := (skipCounted_fld q n s (m := F.sq_PC_BIN.fid) (by decide)).rdU' rfl (by decide)
  simp only [seqTag, pcIndex, activeBin, rd, hpc, hbin]

theorem skipCmd_pcIndex : pcIndex (skipCmd q c n s) q = (pcIndex s q + 1) % 2 ^ 11 := pcIndex_setPc _ _ _

theorem skipCmd_variant : (skipCmd q c n s).variant = s.variant := (skipCmd_kept q c n s (Kept.refl s)).variant

theorem skipCmd_skipped : rd (skipCmd q c n s) F.sq_SKIPPED q.die 0 = (rd s F.sq_SKIPPED q.die 0 + 1) % 2 ^ F.sq_SKIPPED.width := by
  have hvar : (skipCmd q c n s).variant = (skipCounted q n s).variant := skipCmd_variant q c n s
  have hfld : FieldKept F.sq_SKIPPED.fid (skipCounted q n s) (skipCmd q c n s) :=
    setPc_fld _ _ _ (by decide) (completionRecord_fld _ _ _ _ _ (by decide) (produceAt_fld _ _ _ _ _ (by decide)
      (FieldKept.refl _ _)))
  have hbefore : rd (noteIssue q n s) F.sq_SKIPPED q.die 0 = rd s F.sq_SKIPPED q.die 0 :=
    (noteIssue_fld (n := F.sq_SKIPPED.fid) q n s (by decide) (FieldKept.refl _ s)).rdU' rfl (by decide) _ _
  rw [rd, hfld.rdU' hvar (by decide)]
  exact (rd_wr_self _ _ _ _ _).trans (by rw [hbefore])

theorem skipCmd_sequencers : SequencersKept s (skipCmd q c n s) :=
  sequencersKept_of_fields (skipCmd_variant q c n s) (skipCmd_fld _ _ _ _ (by decide) (FieldKept.refl _ s))
    (skipCmd_fld _ _ _ _ (by decide) (FieldKept.refl _ s))

theorem skipCmd_busy : (skipCmd q c n s).busy = s.busy := by
  have hpc : (skipCmd q c n s).busy = (skipEnded q c n s).busy := (congrArg State.busy (unissued_setPc q _ _) :)
  have hended : (skipEnded q c n s).busy = (skipCounted q n s).busy := (congrArg State.busy (tokenView_ended q c _ _ _) :)
  exact hpc.trans hended

variable {q c n s}

theorem skipCmd_tracker (h : c.produceEn = true → Unrouted q c s) : (skipCmd q c n s).tracker = s.tracker := by
  have hproduced (tok e : Nat) : (produceAt q c tok e (skipCounted q n s)).tracker = (skipCounted q n s).tracker := by
    cases hen : c.produceEn with
    | false => rw [produceAt_of_not hen]
    | true =>
      have hroute : Unrouted q c (skipCounted q n s) := by
        unfold Unrouted
        rw [skipCounted_seqTag]
        exact h hen
      rw [produceAt_of_unrouted _ _ hen hroute]
      exact (congrArg State.tracker (queueView_enqueue _ _ _ _ _ _ (skipCounted q n s)) :)
  have hpc : (skipCmd q c n s).tracker = (skipEnded q c n s).tracker := (congrArg State.tracker (unissued_setPc q _ _) :)
  have hended : (skipEnded q c n s).tracker = (produceAt q c (emptyToken (seqTag s q) (seqX s q).gen) (n * domCycles q)
      (skipCounted q n s)).tracker := (congrArg State.tracker (recordView_completionRecord _ _ _ _ _) :)
  rw [hpc, hended, hproduced, skipCounted_tracker]

theorem skipCmd_quiet (h : Quiet q c s) : skipCmd q c n s = setPc q (pcIndex s q + 1) (skipCounted q n s) := by
  obtain ⟨hproduce, hnotify, htrace⟩ := h
  have htrace' : rdb (skipCounted q n s) F.sq_TRACE_ALL q.die 0 = false :=
    (rdb_of_fieldKept (skipCounted_fld q n s (by decide)) rfl (by decide) _ _).trans htrace
  rw [skipCmd_eq, skipEnded, produceAt_of_not hproduce, hnotify, completionRecord_of_not htrace']

end Skipped

/-- Settles O12: whatever its class, a skipped command ends at its issue. -/
theorem skippedCommand : Obligations.SkippedCommand := by
  unfold Obligations.SkippedCommand
  intro q codes i cls op hi s s1 c n toks h
  have hprep := prepared_sequencers h
  have hskip := skipCmd_sequencers q c n s1
  refine ⟨_, exec_of_skipped hi h, ?_, ?_, ⟨fun q' r => ?_, fun q' k => ?_⟩, ?_, fun hroute => ?_, fun hquiet => ?_⟩
  · rw [skipCmd_pcIndex, prepared_pcIndex h]
  · rw [skipCmd_skipped]
    exact congrArg (fun v => (v + 1) % _) (prepared_rdU h (f := F.sq_SKIPPED) (by decide) (by decide) _ _)
  · rw [hskip.regs, hprep.regs]
  · rw [hskip.preds, hprep.preds]
  · rw [skipCmd_busy]
    exact (congrArg State.busy (prepare_unissued h) :)
  · rw [skipCmd_tracker hroute]
    exact (congrArg State.tracker (prepare_unissued h) :)
  · rw [skipCmd_quiet (prepared_quiet h hquiet)]
    have hcounted : MemKept s1 (skipCounted q n s1) := (MemKept.refl s1).of_eq rfl
    refine ⟨(prepared_mem h).trans (setPc_mem _ _ _ hcounted),
      fieldsKept_of_numbers [9, 10, 11, 201, 202, 204, 209, 213, 215, 216, 217, 218, 219, 220, 221] (by decide) fun m hm => ?_⟩
    exact (prepared_fld h (sub_ne _ _ (by decide) hm)).trans (setPc_fld _ _ _ (sub_ne _ _ (by decide) hm)
      (skipCounted_fld q n s1 (sub_ne _ _ (by decide) hm)))

end Sys2Proof.Machine

namespace Sys2Proof.Machine

open Sys2Proof

/-! ### A wait on an empty queue (R170, R171) -/

section Waiting

variable {q : SeqId} {k : Nat} {s : State}

theorem settleHead_of_empty {die : Nat} (h : queueOf s die k = []) : settleHead die k s = s := by
  unfold settleHead
  rw [h]
  split
  · rfl
  · rfl

theorem popQueue_of_empty (h : queueOf s (queueDie q) k = []) (from' : Nat) : popQueue q k from' s = (none, s) := by
  rw [popQueue, settleHead_of_empty h, h]

theorem switchNow_of_none (h : (seqX s q).switchAt = none) : switchNow s q = false := by
  rw [switchNow, h]

/-- A command that waits for a token of an empty queue enters the wait. -/
theorem doWaits_of_empty {c : Cmd} (hwait : (c.waitAEn = true ∧ k = c.waitA) ∨ (c.waitAEn = false ∧ c.waitBEn = true ∧ k = c.waitB))
    (hpop : (seqX s q).popA = none) (h : queueOf s (queueDie q) k = []) :
    ∃ from', doWaits q c s = (none, enterWait q k from' s) := by
  rcases hwait with ⟨hA, rfl⟩ | ⟨hA, hB, rfl⟩
  · have hw : waitA q c s = (none, enterWait q c.waitA ((seqX s q).base * domCycles q) s) := by
      rw [waitA, hA, hpop, popQueue_of_empty h]
      rfl
    exact ⟨_, doWaits_of_waitA_none hw⟩
  · have hw : waitA q c s = (some ([], none), s) := by
      rw [waitA, hA]
      rfl
    let start := (seqX s q).base * domCycles q
    have hB' : waitB q c start [] none s = (none, enterWait q c.waitB (max start start) s) := by
      rw [waitB, hB, popQueue_of_empty h]
      rfl
    exact ⟨_, (doWaits_of_waitA_some hw).trans hB'⟩

variable (q k s)

theorem enterWait_fld' (from' : Nat) {m : Nat} (hm : [213, 220, 221].contains m = false) : FieldKept m s (enterWait q k from' s) :=
  enterWait_fld q k from' s hm (FieldKept.refl m s)

theorem enterWait_waits (from' : Nat) (hk : k < 1024) :
    seqState (enterWait q k from' s) q = 2 ∧ rdb (enterWait q k from' s) F.sq_WAITING q.die q.num = true ∧
      rd (enterWait q k from' s) F.sq_WAIT_QUEUE q.die q.num = k := by
  unfold enterWait
  dsimp only
  refine ⟨?_, rdb_setb_self _ _ _ _ _ (by decide), ?_⟩
  · exact (rd_wr_other F.sq_WAITING F.sq_STATE _ _ _ _ _ _ (by decide)).trans
      ((rd_wr_other F.sq_WAIT_QUEUE F.sq_STATE _ _ _ _ _ _ (by decide)).trans (rd_wr_self _ _ _ _ _))
  · exact (rd_wr_other F.sq_WAITING F.sq_WAIT_QUEUE _ _ _ _ _ _ (by decide)).trans
      ((rd_wr_self _ _ _ _ _).trans (Nat.mod_eq_of_lt hk))

end Waiting

/-- Settles O11: the wait is entered before anything of the command's class is looked at. -/
theorem waitForToken : Obligations.WaitForToken := by
  unfold Obligations.WaitForToken
  intro q codes i cls op hi s c k hnext hcls hop hwait hpop hheld hswitch hempty
  have hk : k < 1024 := by
    rcases hwait with ⟨-, rfl⟩ | ⟨-, -, rfl⟩ <;> exact Nat.mod_lt _ (by decide)
  obtain ⟨from', hw⟩ := doWaits_of_empty hwait hpop hempty
  have hfld {m : Nat} (hm : [213, 220, 221].contains m = false) := enterWait_fld' q k s from' hm
  have hvar : (enterWait q k from' s).variant = s.variant := (congrArg State.variant (unissued_enterWait q k from' s) :)
  obtain ⟨hstate, hwaiting, hqueue⟩ := enterWait_waits q k s from' hk
  refine ⟨_, exec_of_held hi (prepare_hold ⟨hnext, hcls, hop, hheld, switchNow_of_none hswitch⟩ hw), hstate, hwaiting, hqueue,
    (hfld (m := F.sq_PC_INDEX.fid) (by decide)).rdU' hvar (by decide) _ _,
    sequencersKept_of_fields hvar (hfld (by decide)) (hfld (by decide)), (MemKept.refl s).of_eq ?_,
    fieldsKept_of_numbers [213, 220, 221] (by decide) fun m hm => hfld hm⟩
  exact (congrArg State.mem (unissued_enterWait q k from' s) :)

end Sys2Proof.Machine

namespace Sys2Proof.Machine

open Sys2Proof

/-! ### The cycle at which a command issues, and the tokens it pops (R171, R186, R207) -/

theorem ceilDiv_le_of_le_mul {a d n : Nat} (hd : 0 < d) (h : a ≤ n * d) : ceilDiv a d ≤ n := by
  unfold ceilDiv
  rw [Nat.le_iff_lt_add_one, Nat.div_lt_iff_lt_mul hd, Nat.add_mul]
  omega

theorem domCycles_pos (q : SeqId) : 0 < domCycles q := by
  unfold domCycles
  split <;> decide

/-- The cycle of the issue after the last pop, where no throttled frame delays it. -/
def issueAfter (q : SeqId) (c : Cmd) (own : Nat) (pop : Option Nat) : Nat :=
  let n := match pop with
    | some p => max own (cycleAfter q p)
    | none => own
  if c.cls = 5 ∧ own < n then n + 16 * planeDelay (4 * q.die + (q.num - 89) / 16) (bits c.w2 0 5) else n

theorem issueAt_of_floor {q : SeqId} {c : Cmd} {pop : Option Nat} {s : State}
    (h : (seqX s q).floor ≤ ((seqX s q).base + c.issueOffset) * domCycles q) :
    issueAt q c pop s = issueAfter q c ((seqX s q).base + c.issueOffset) pop := by
  have hfloor := ceilDiv_le_of_le_mul (domCycles_pos q) h
  unfold issueAt issueAfter
  dsimp only
  cases pop with
  | none => rw [Nat.max_eq_left hfloor]
  | some p => rw [Nat.max_eq_left (hfloor.trans (Nat.le_max_left _ _))]

theorem issueBarred_of_free {q : SeqId} {c : Cmd} {pop : Option Nat} {s : State} (hstop : s.stopAt = none)
    (hswitch : (seqX s q).switchAt = none) (hland : landedBy s (issueAt q c pop s * domCycles q) = true) :
    issueBarred q c pop s = false := by
  simp [issueBarred, hstop, switchFirst, hswitch, hland]

theorem settled_of_gen {s t : State} (h : ∀ q, (seqX t q).gen = (seqX s q).gen) (die k : Nat) (ts : List QTok) :
    settled t die k ts = settled s die k ts := by
  unfold settled
  split
  · rfl
  · rw [h]

theorem queueOf_setQueue_other {die k k' : Nat} (h : k' ≠ k) (ts : List QTok) (s : State) :
    queueOf (setQueue die k ts s) die k' = queueOf s die k' := by
  refine (nmGet_set _ _ _ _ _).trans (if_neg ?_)
  unfold queueKey
  omega

theorem queueOf_sat (f : Field) (inst i n : Nat) (s : State) (die k : Nat) : queueOf (sat f inst i n s) die k = queueOf s die k :=
  queueOf_of_queues (congrArg State.queues (bare_sat f inst i n s) :) die k

theorem queueOf_settleHead_other {die k k' : Nat} (h : k' ≠ k) (s : State) :
    queueOf (settleHead die k s) die k' = queueOf s die k' := by
  unfold settleHead
  split
  · rfl
  · dsimp only
    split
    · rfl
    · rw [queueOf_sat, queueOf_setQueue_other h]

section Pop

variable {q : SeqId} {k : Nat} {s : State}

/-- The state after a pop that leaves `rest` in queue `k`. -/
def popped (q : SeqId) (k : Nat) (rest : List QTok) (s : State) : State :=
  settleHead (queueDie q) k (setQueue (queueDie q) k rest (settleHead (queueDie q) k s))

theorem queueView_popped (rest : List QTok) : queueView (popped q k rest s) = queueView s := by
  rw [popped, queueView_settleHead, queueView_setQueue, queueView_settleHead]

theorem seqX_popped (rest : List QTok) (q' : SeqId) : seqX (popped q k rest s) q' = seqX s q' :=
  seqX_of_seqx (congrArg State.seqx (queueView_popped rest) :) q'

theorem popQueue_of_token {tok : QTok} {rest : List QTok} (h : settled s (queueDie q) k (queueOf s (queueDie q) k) = tok :: rest)
    (from' : Nat) : popQueue q k from' s = (some (tok.word, max tok.ready from'), popped q k rest s) := by
  rw [popQueue, queueOf_settleHead, h]
  rfl

theorem queueOf_popped (rest : List QTok) : queueOf (popped q k rest s) (queueDie q) k = settled s (queueDie q) k rest := by
  rw [popped, queueOf_settleHead, queueOf_setQueue]
  exact settled_of_gen (fun q' => by rw [seqX_setQueue, seqX_of_seqx (settleHead_same_seqx _ _ s)]) _ _ _

theorem queueOf_popped_other {k' : Nat} (h : k' ≠ k) (rest : List QTok) :
    queueOf (popped q k rest s) (queueDie q) k' = queueOf s (queueDie q) k' := by
  rw [popped, queueOf_settleHead_other h, queueOf_setQueue_other h, queueOf_settleHead_other h]

end Pop

theorem issueState_queueOf (q : SeqId) (c : Cmd) (toks : List Nat) (n : Nat) (s : State) (die k : Nat) :
    queueOf (issueState q c toks n s) die k = queueOf s die k := by
  have hleave : (leaveWait q s).queues = s.queues := by
    unfold leaveWait
    split
    · rfl
    · rfl
  have hload (s : State) : (loadStatus q toks s).queues = s.queues := by
    have hfold : (statusLoad q toks s).queues = s.queues :=
      foldl_same State.queues (f := fun s t => setLast q t (foldStatus q t s)) (fun _ _ => by simp [setLast, foldStatus]) _ _
    unfold loadStatus
    dsimp only
    split
    · exact hfold
    · exact hfold
  refine queueOf_of_queues ?_ die k
  unfold issueState
  dsimp only
  split
  · rw [hload]
    exact hleave
  · exact hleave

section Waits

variable {q : SeqId} {c : Cmd} {s : State}

/-- The waits of the command in hand are over. -/
def waitsOver (q : SeqId) (s : State) : State := setSeqX q { seqX s q with popA := none, popAt := none } s

/-- The token `w` of WAIT_A was popped at core cycle `p`. -/
def notedA (q : SeqId) (w p : Nat) (s : State) : State :=
  setSeqX q { seqX s q with popA := some w, popAt := some p, waitNs := none } s

theorem waitsOver_queues (q : SeqId) (s : State) : (waitsOver q s).queues = s.queues := rfl

theorem waitsOver_core (q : SeqId) (s : State) : (waitsOver q s).core = s.core := rfl

theorem notedA_queues (q : SeqId) (w p : Nat) (s : State) : (notedA q w p s).queues = s.queues := rfl

theorem notedA_core (q : SeqId) (w p : Nat) (s : State) : (notedA q w p s).core = s.core := rfl

theorem notedA_gen (q : SeqId) (w p : Nat) (s : State) (q' : SeqId) : (seqX (notedA q w p s) q').gen = (seqX s q').gen := by
  have hsteady : steady (seqX (notedA q w p s) q') = steady (seqX s q') := steady_setSeqX (by rfl) q'
  exact (congrArg SeqX.gen hsteady :)

theorem waitA_of_not (h : c.waitAEn = false) : waitA q c s = (some ([], none), s) := by
  rw [waitA, h]
  rfl

theorem waitA_of_token {tok : QTok} {rest : List QTok} (hA : c.waitAEn = true) (hpop : (seqX s q).popA = none)
    (h : settled s (queueDie q) c.waitA (queueOf s (queueDie q) c.waitA) = tok :: rest) :
    waitA q c s = (some ([tok.word], some (max tok.ready ((seqX s q).base * domCycles q))),
      notedA q tok.word (max tok.ready ((seqX s q).base * domCycles q)) (popped q c.waitA rest s)) := by
  rw [waitA, hA, hpop, popQueue_of_token h]
  rfl

theorem waitB_of_not {start : Nat} {ta : List Nat} {pa : Option Nat} (h : c.waitBEn = false) :
    waitB q c start ta pa s = (some (ta, pa), waitsOver q s) := by
  rw [waitB, h]
  rfl

theorem waitB_of_token {start : Nat} {ta : List Nat} {pa : Option Nat} {tok : QTok} {rest : List QTok} (hB : c.waitBEn = true)
    (h : settled s (queueDie q) c.waitB (queueOf s (queueDie q) c.waitB) = tok :: rest) :
    waitB q c start ta pa s = (some (ta ++ [tok.word], some (max tok.ready (max start (pa.getD start)))),
      waitsOver q (popped q c.waitB rest s)) := by
  rw [waitB, hB, popQueue_of_token h]
  rfl

theorem doWaits_of_neither (hA : c.waitAEn = false) (hB : c.waitBEn = false) :
    doWaits q c s = (some ([], none), waitsOver q s) := by
  rw [doWaits_of_waitA_some (waitA_of_not hA), waitB_of_not hB]

/-- A command that waits for a token of one queue pops the one at its settled head. -/
theorem doWaits_of_one {k : Nat} {tok : QTok} {rest : List QTok}
    (hwait : (c.waitAEn = true ∧ c.waitBEn = false ∧ k = c.waitA) ∨ (c.waitAEn = false ∧ c.waitBEn = true ∧ k = c.waitB))
    (hpop : (seqX s q).popA = none) (h : settled s (queueDie q) k (queueOf s (queueDie q) k) = tok :: rest) :
    ∃ s', doWaits q c s = (some ([tok.word], some (max tok.ready ((seqX s q).base * domCycles q))), s') ∧
      s'.queues = (popped q k rest s).queues ∧ s'.core = (popped q k rest s).core := by
  rcases hwait with ⟨hA, hB, rfl⟩ | ⟨hA, hB, rfl⟩
  · exact ⟨_, (doWaits_of_waitA_some (waitA_of_token hA hpop h)).trans (waitB_of_not hB),
      (waitsOver_queues _ _).trans (notedA_queues _ _ _ _), (waitsOver_core _ _).trans (notedA_core _ _ _ _)⟩
  · have hw := (doWaits_of_waitA_some (waitA_of_not (q := q) (s := s) hA)).trans (waitB_of_token hB h)
    rw [Option.getD_none, Nat.max_self] at hw
    exact ⟨_, hw, waitsOver_queues _ _, waitsOver_core _ _⟩

/-- A command that waits for tokens of two queues pops the one at either settled head. -/
theorem doWaits_of_both {ta tb : QTok} {ra rb : List QTok} (hA : c.waitAEn = true) (hB : c.waitBEn = true) (hne : c.waitA ≠ c.waitB)
    (hpop : (seqX s q).popA = none) (ha : settled s (queueDie q) c.waitA (queueOf s (queueDie q) c.waitA) = ta :: ra)
    (hb : settled s (queueDie q) c.waitB (queueOf s (queueDie q) c.waitB) = tb :: rb) :
    ∃ s', doWaits q c s = (some ([ta.word, tb.word], some (max tb.ready (max ta.ready ((seqX s q).base * domCycles q)))), s') ∧
      queueOf s' (queueDie q) c.waitA = settled s (queueDie q) c.waitA ra ∧
      queueOf s' (queueDie q) c.waitB = settled s (queueDie q) c.waitB rb ∧ s'.core = s.core := by
  generalize hp : max ta.ready ((seqX s q).base * domCycles q) = p
  generalize hu : notedA q ta.word p (popped q c.waitA ra s) = u
  have hgen (q' : SeqId) : (seqX u q').gen = (seqX s q').gen := by
    rw [← hu, notedA_gen, seqX_popped]
  have hother : queueOf u (queueDie q) c.waitB = queueOf s (queueDie q) c.waitB := by
    rw [← hu, queueOf_of_queues (notedA_queues _ _ _ _), queueOf_popped_other (Ne.symm hne)]
  have hbu : settled u (queueDie q) c.waitB (queueOf u (queueDie q) c.waitB) = tb :: rb := by
    rw [hother, settled_of_gen hgen, hb]
  have hwA := waitA_of_token hA hpop ha
  rw [hp, hu] at hwA
  have hw := (doWaits_of_waitA_some hwA).trans (waitB_of_token hB hbu)
  have hstart : max ((seqX s q).base * domCycles q) p = p := by
    rw [← hp]
    exact Nat.max_eq_right (Nat.le_max_right _ _)
  rw [Option.getD_some, hstart] at hw
  refine ⟨_, hw, ?_, ?_, ?_⟩
  · rw [queueOf_of_queues (waitsOver_queues _ _), queueOf_popped_other hne, ← hu, queueOf_of_queues (notedA_queues _ _ _ _),
      queueOf_popped]
  · rw [queueOf_of_queues (waitsOver_queues _ _), queueOf_popped, settled_of_gen hgen]
  · have hcoreB : (popped q c.waitB rb u).core = u.core := (congrArg State.core (queueView_popped rb) :)
    have hcoreA : (popped q c.waitA ra s).core = s.core := (congrArg State.core (queueView_popped ra) :)
    rw [waitsOver_core, hcoreB, ← hu, notedA_core, hcoreA]

end Waits

/-- Settles O10: what the waits leave is what the issue takes up. -/
theorem issueOfCommands : Obligations.IssueOfCommands := by
  unfold Obligations.IssueOfCommands
  constructor
  · intro q cls op s c hnext hcls hop hA hB hheld hswitch hstop n hfloor hland
    have hready : Ready q cls op s c := ⟨hnext, hcls, hop, hheld, switchNow_of_none hswitch⟩
    have hissue : issueAt q c none s = n := by
      rw [issueAt_of_floor hfloor, issueAfter, if_neg fun h => absurd h.2 (lt_irrefl _)]
    have hgo := prepare_go hready (doWaits_of_neither hA hB) (issueBarred_of_free hstop hswitch (by rw [hissue]; exact hland))
    rw [hissue] at hgo
    refine ⟨_, _, hgo, ?_, ?_, prepared_mem hgo, fieldsKept_of_numbers [9, 10, 11, 204, 213, 215, 216, 217, 218, 220, 221] (by decide)
      fun m hm => prepared_fld hgo hm⟩
    · rw [issueRuns, (prepared_sequencers hgo).preds]
      cases c.predEn <;> simp
    · rw [issueState_core, Nat.max_comm]
      rfl
  · intro q cls op s c hnext hcls hop hpop hheld hswitch hfloor hstop start own queue issue
    have hready : Ready q cls op s c := ⟨hnext, hcls, hop, hheld, switchNow_of_none hswitch⟩
    have hissue (pop : Nat) : issueAt q c (some pop) s = issue pop := by
      rw [issueAt_of_floor (by rw [hfloor]; exact Nat.zero_le _), issueAfter, hcls]
      rfl
    constructor
    · intro k tok rest hk hwait n hland
      obtain ⟨s', hw, hqueues, hcore⟩ := doWaits_of_one hwait hpop hk
      have hn : issueAt q c (some (max tok.ready start)) s = n := hissue _
      have hgo := prepare_go hready hw (issueBarred_of_free hstop hswitch (by rw [hn]; exact hland))
      rw [hn] at hgo
      refine ⟨_, _, hgo, ?_, ?_, prepared_mem hgo⟩
      · rw [issueState_queueOf, queueOf_of_queues hqueues, queueOf_popped]
      · have hcore' : s'.core = s.core := hcore.trans (congrArg State.core (queueView_popped rest) :)
        rw [issueState_core, Nat.max_comm, hcore']
    · intro ta tb ra rb hA hB hne ha hb n hland
      obtain ⟨s', hw, hqueueA, hqueueB, hcore⟩ := doWaits_of_both hA hB hne hpop ha hb
      have hn : issueAt q c (some (max tb.ready (max ta.ready start))) s = n := hissue _
      have hgo := prepare_go hready hw (issueBarred_of_free hstop hswitch (by rw [hn]; exact hland))
      rw [hn] at hgo
      refine ⟨_, _, hgo, ?_, ?_, ?_, prepared_mem hgo⟩
      · rw [issueState_queueOf, hqueueA]
      · rw [issueState_queueOf, hqueueB]
      · rw [issueState_core, Nat.max_comm, hcore]

end Sys2Proof.Machine

namespace Sys2Proof.Machine

open Sys2Proof

/-! ### What states that agree in a view agree in -/

section Views

variable {s t : State}

theorem tracker_of_unissued (h : unissued t = unissued s) : t.tracker = s.tracker := (congrArg State.tracker h :)

theorem busy_of_unissued (h : unissued t = unissued s) : t.busy = s.busy := (congrArg State.busy h :)

theorem stopAt_of_unissued (h : unissued t = unissued s) : t.stopAt = s.stopAt := (congrArg State.stopAt h :)

theorem variant_of_unissued (h : unissued t = unissued s) : t.variant = s.variant := (congrArg State.variant h :)

theorem mem_of_unissued (h : unissued t = unissued s) : t.mem = s.mem := (congrArg State.mem h :)

theorem tracker_of_bare (h : bare t = bare s) : t.tracker = s.tracker := (congrArg State.tracker h :)

theorem busy_of_bare (h : bare t = bare s) : t.busy = s.busy := (congrArg State.busy h :)

end Views

/-- The matrix, vector and row commands run on their engine. -/
theorem engineCommand_meaning {q : SeqId} {codes : List (Nat × Int)} : ∀ x ∈ streamCommands q codes, x.2.1 = 2 ∨ x.2.1 = 3 ∨ x.2.1 = 4 →
    ∀ s, exec x.1 s = .next (streamCmd q x.2.1 x.2.2 (fun c n _ s => engineCmd q (engineWork x.2.1 x.2.2) c n s) s) := by
  simp only [streamCommands, List.cons_append, List.nil_append, List.forall_mem_cons, List.not_mem_nil, false_imp_iff, implies_true,
    and_true, true_and, true_imp_iff, Nat.reduceEqDiff, or_false, or_true]
  repeat' apply And.intro
  all_goals exact fun _ => rfl

/-! ### The start of a long operation (R171, R172, R198) -/

theorem guardReads_of_none {q : SeqId} {tag gen c : Nat} {rs : List Range} {s : State} (h : earlySummary s c rs = none) :
    guardReads q tag gen c rs s = s := by
  unfold guardReads
  rw [h]

theorem trackerFull_of_lt {s : State} {die : Nat} (h : trackerCount s die < 32768) : trackerFull s die = false :=
  decide_eq_false (Nat.not_le.2 h)

/-- The tracker entry of an operation whose result is `r`, started at core cycle `c` in state `s`. -/
def startedOp (q : SeqId) (cmd : Cmd) (c : Nat) (r : OpResult) (x : Ctx) (s : State) : PendingOp :=
  { die := q.die, tag := x.tag, gen := x.gen, land := r.lat.map (c + ·), landed := false
    token := resultToken x.tag x.gen r.fl r.fmt r.extent
    produce := if cmd.produceEn then some (cmd.produceDie, cmd.produceQueue) else none
    notify := cmd.notify, writes := r.writes, larder := r.larder, tags := r.tags
    counts := r.counts ++ layerCounts x cmd r.fl, audits := r.audits, overs := r.fl.overs, tid := x.tid cmd
    stage := r.stage
    failed := if r.fmt = fmtF32 ∧ r.fl.nonfinite then (lastTier s q cmd).map fun f => (f, x.tid cmd) else none }

/-- An operation that finds a tracker entry, reads nothing early and nothing bad, and does not overlap its own reads, starts. -/
theorem startOp_clean {q : SeqId} {cmd : Cmd} {rc c : Nat} {r : OpResult} {s : State} (hroom : trackerCount s q.die < 32768)
    (hearly : earlySummary s rc r.reads = none) (hclean : CleanReads r.reads s) (hover : r.overlap = false) :
    startOp q cmd rc c r s = track (startedOp q cmd c r (ctxOf s q) (noteRepeat q cmd s)) (noteRepeat q cmd s) := by
  unfold startOp
  dsimp only
  rw [trackerFull_of_lt hroom, guardReads_of_none hearly, reportReads_clean _ hclean, hover]
  rfl

theorem track_tracker (p : PendingOp) (s : State) :
    (track p s).tracker = s.tracker ++ [{ p with start := nowNs s, id := s.opCount }] := by
  unfold track
  dsimp only
  split <;> exact addOp_tracker p s

/-- What a state holds beside its register fields, its memory, the fault logic, what the sequencers hold and the overflows
noted. -/
def repeatView (s : State) : State := { bare s with seqx := [], overs := [] }

theorem repeatView_layerOverflow (die tid wide cause frm : Nat) (o : OverflowFlag) (s : State) :
    repeatView (layerOverflow die tid wide cause frm o s) = repeatView s := by
  unfold repeatView layerOverflow
  rw [bare_logEntry]
  rfl

theorem repeatView_noteRepeat (q : SeqId) (c : Cmd) (s : State) : repeatView (noteRepeat q c s) = repeatView s := by
  unfold noteRepeat
  split
  · dsimp only
    split
    · rfl
    · split
      · exact repeatView_layerOverflow _ _ _ _ _ _ _
      · exact repeatView_layerOverflow _ _ _ _ _ _ _
  · rfl

theorem noteRepeat_of_none {q : SeqId} {c : Cmd} {s : State} (h : repeatFlag s q c = none) : noteRepeat q c s = s := by
  unfold noteRepeat
  rw [h]
  rfl

theorem noteRepeat_held (q : SeqId) (c : Cmd) (s : State) : (seqX (noteRepeat q c s) q).heldTill = (seqX s q).heldTill := by
  have hlayer (die tid wide cause frm : Nat) (o : OverflowFlag) (s : State) :
      seqX (layerOverflow die tid wide cause frm o s) q = seqX s q := by
    refine seqX_of_seqx ?_ q
    unfold layerOverflow
    exact (congrArg State.seqx (bare_logEntry _ _ _ _) :)
  unfold noteRepeat
  split
  · dsimp only
    split
    · rfl
    · split
      · rw [setOverFlag, seqX_setSeqX_self, hlayer]
      · rw [setOverFlag, seqX_setSeqX_self, hlayer]
        rfl
  · rfl

/-- What a state holds beside its register fields and the tracker with its marks. -/
def startView (s : State) : State := { s with flds := [], tracker := [], lines := [], opCount := 0 }

theorem startView_wr (f : Field) (inst i v : Nat) (s : State) : startView (wr f inst i v s) = startView s := rfl

theorem startView_addOp (p : PendingOp) (s : State) : startView (addOp p s) = startView s := rfl

theorem startView_track (p : PendingOp) (s : State) : startView (track p s) = startView s := by
  unfold track
  dsimp only
  split
  · rw [startView_wr, startView_wr, startView_addOp]
  · rw [startView_wr, startView_addOp]

theorem busyUntil_setBusy (k c : Nat) (s : State) : busyUntil (setBusy k c s) k = c := nmGet_set_self _ _ _ _

/-- The tracker entry `p` holds what the command `c` of `q` computes, to land from core cycle `n` on. -/
def StartsAs (q : SeqId) (c : Cmd) (n : Nat) (r : OpResult) (s : State) (p : PendingOp) : Prop :=
  p.die = q.die ∧ p.tag = seqTag s q ∧ p.gen = (seqX s q).gen ∧ p.landed = false ∧ p.land = r.lat.map (n + ·) ∧
    p.writes = r.writes ∧ p.token = resultToken (seqTag s q) (seqX s q).gen r.fl r.fmt r.extent ∧
    p.produce = (if c.produceEn then some (c.produceDie, c.produceQueue) else none) ∧ p.notify = c.notify

theorem startedOp_startsAs (q : SeqId) (c : Cmd) (n : Nat) (r : OpResult) (s s' : State) (ns id : Nat) :
    StartsAs q c n r s { startedOp q c n r (ctxOf s q) s' with start := ns, id := id } :=
  ⟨rfl, rfl, rfl, rfl, rfl, rfl, rfl, rfl, rfl⟩

section Start

variable {q : SeqId} {c : Cmd} {rc n : Nat} {r : OpResult} {s : State}

/-- The state in which the operation of command `c` has started. -/
def started (q : SeqId) (c : Cmd) (n : Nat) (r : OpResult) (s : State) : State :=
  track (startedOp q c n r (ctxOf s q) (noteRepeat q c s)) (noteRepeat q c s)

theorem started_tracker : ∃ p, (started q c n r s).tracker = s.tracker ++ [p] ∧ StartsAs q c n r s p := by
  have htracker : (noteRepeat q c s).tracker = s.tracker := (congrArg State.tracker (repeatView_noteRepeat q c s) :)
  have happ := track_tracker (startedOp q c n r (ctxOf s q) (noteRepeat q c s)) (noteRepeat q c s)
  rw [htracker] at happ
  exact ⟨_, happ, startedOp_startsAs q c n r s _ _ _⟩

theorem started_fld {m : Nat} (hm : [9, 10, 11, 207, 208, 682, 689].contains m = false) : FieldKept m s (started q c n r s) :=
  track_fld _ _ (sub_ne _ _ (by decide) hm) (noteRepeat_fld _ _ _ (sub_ne _ _ (by decide) hm) (FieldKept.refl m s))

theorem started_variant : (started q c n r s).variant = s.variant :=
  (track_kept _ _ (noteRepeat_kept q c s (Kept.refl s))).variant

theorem started_seqX : seqX (started q c n r s) q = seqX (noteRepeat q c s) q :=
  seqX_of_seqx (congrArg State.seqx (startView_track _ _) :) q

theorem started_quiet (h : repeatFlag s q c = none) : MemKept s (started q c n r s) ∧
    ∀ m, [207, 208].contains m = false → FieldKept m s (started q c n r s) := by
  rw [started, noteRepeat_of_none h]
  exact ⟨track_mem _ _ (MemKept.refl s), fun m hm => track_fld _ _ hm (FieldKept.refl m s)⟩

/-- A started command moves its sequencer on. -/
def movedOn (q : SeqId) (n pc : Nat) (s : State) : State := setPc q (pc + 1) (noteIssue q n s)

theorem movedOn_unissued (pc : Nat) : unissued (movedOn q n pc s) = unissued s := by
  rw [movedOn, unissued_setPc, unissued_noteIssue]

theorem movedOn_pcIndex (pc : Nat) : pcIndex (movedOn q n pc s) q = (pc + 1) % 2 ^ 11 := pcIndex_setPc _ _ _

theorem movedOn_seqX (pc : Nat) : seqX (movedOn q n pc s) q = { seqX s q with base := n } := by
  rw [movedOn, seqX_of_seqx (setPc_same_seqx _ _ _), seqX_noteIssue_self]

theorem movedOn_fld {pc m : Nat} (hm : [201, 209, 213, 219].contains m = false) : FieldKept m s (movedOn q n pc s) :=
  setPc_fld _ _ _ (sub_ne _ _ (by decide) hm) (noteIssue_fld _ _ _ (sub_ne _ _ (by decide) hm) (FieldKept.refl m s))

theorem movedOn_mem (pc : Nat) : MemKept s (movedOn q n pc s) :=
  (MemKept.refl s).of_eq (mem_of_unissued (movedOn_unissued (q := q) (n := n) (s := s) pc))

end Start

section Engine

variable {q : SeqId} {c : Cmd} {n : Nat} {s : State} {eng : Ctx → Cmd → State → OpResult}

/-- A command whose engine is free starts, and its engine is occupied. -/
theorem engineCmd_of_free (hfree : busyUntil s (engineKey q.die q.num) ≤ n) (hroom : trackerCount s q.die < 32768)
    (hover : (eng (ctxOf s q) c (asOf n s)).overlap = false)
    (hearly : earlySummary s n (eng (ctxOf s q) c (asOf n s)).reads = none)
    (hclean : CleanReads (eng (ctxOf s q) c (asOf n s)).reads s) :
    engineCmd q eng c n s = movedOn q n (pcIndex s q)
      (setBusy (engineKey q.die q.num) (n + (eng (ctxOf s q) c (asOf n s)).occ)
        (started q c n (eng (ctxOf s q) c (asOf n s)) s)) := by
  unfold engineCmd
  dsimp only
  rw [if_neg (Nat.not_lt.2 hfree), trackerFull_of_lt hroom, startOp_clean hroom hearly hclean hover]
  rfl

theorem setBusy_same_variant (k v : Nat) (s : State) : (setBusy k v s).variant = s.variant := rfl

theorem setBusy_same_mem (k v : Nat) (s : State) : (setBusy k v s).mem = s.mem := rfl

theorem seqX_setBusy (k v : Nat) (s : State) (q : SeqId) : seqX (setBusy k v s) q = seqX s q := rfl

variable (r : OpResult)

/-- What stands once an operation has started and its sequencer has moved on: the tracker, the engine, the sequencers. -/
theorem movedOn_started (k v : Nat) :
    let t := movedOn q n (pcIndex s q) (setBusy k v (started q c n r s))
    (∃ p, t.tracker = s.tracker ++ [p] ∧ StartsAs q c n r s p) ∧ busyUntil t k = v ∧
      pcIndex t q = (pcIndex s q + 1) % 2 ^ 11 ∧ SequencersKept s t ∧ (seqX t q).base = n ∧
      (seqX t q).heldTill = (seqX s q).heldTill ∧
      (repeatFlag s q c = none → MemKept s t ∧ ∀ m, [201, 207, 208, 209, 213, 219].contains m = false → FieldKept m s t) := by
  obtain ⟨p, hp, hstart⟩ := started_tracker (q := q) (c := c) (n := n) (r := r) (s := s)
  have htracker := (setBusy_same_tracker k v (started q c n r s)).trans hp
  have hvar : (setBusy k v (started q c n r s)).variant = s.variant :=
    (setBusy_same_variant k v _).trans started_variant
  have hbusy := busyUntil_setBusy k v (started q c n r s)
  have hheld : (seqX (setBusy k v (started q c n r s)) q).heldTill = (seqX s q).heldTill := by
    rw [seqX_setBusy, started_seqX, noteRepeat_held]
  have hfld {m : Nat} (hm : [9, 10, 11, 207, 208, 682, 689].contains m = false) :
      FieldKept m s (setBusy k v (started q c n r s)) := setBusy_fld k v _ _ (started_fld hm)
  have hquiet (hrep : repeatFlag s q c = none) : MemKept s (setBusy k v (started q c n r s)) ∧
      ∀ m, [207, 208].contains m = false → FieldKept m s (setBusy k v (started q c n r s)) :=
    ⟨(started_quiet hrep).1.of_eq (setBusy_same_mem k v _), fun m hm => setBusy_fld k v _ _ ((started_quiet hrep).2 m hm)⟩
  revert htracker hvar hbusy hheld hfld hquiet
  generalize setBusy k v (started q c n r s) = u
  intro htracker hvar hbusy hheld hfld hquiet t
  have hview : unissued t = unissued u := movedOn_unissued _
  have hseq : seqX t q = { seqX u q with base := n } := movedOn_seqX _
  have hpc : pcIndex t q = (pcIndex s q + 1) % 2 ^ 11 := movedOn_pcIndex _
  have hbase : (seqX t q).base = n := congrArg SeqX.base hseq
  have hheld' : (seqX t q).heldTill = (seqX s q).heldTill := (congrArg SeqX.heldTill hseq).trans hheld
  have hmem : MemKept u t := movedOn_mem _
  have hmoved {m : Nat} (hm : [201, 209, 213, 219].contains m = false) : FieldKept m u t := movedOn_fld hm
  clear_value t
  have hvar' : t.variant = u.variant :=
    variant_of_unissued hview
  have htracker' : t.tracker = u.tracker :=
    tracker_of_unissued hview
  have hbusy' : t.busy = u.busy :=
    busy_of_unissued hview
  have hto {m : Nat} (hm : [9, 10, 11, 201, 207, 208, 209, 213, 219, 682, 689].contains m = false) : FieldKept m s t :=
    (hfld (sub_ne _ _ (by decide) hm)).trans (hmoved (sub_ne _ _ (by decide) hm))
  have hseqs : SequencersKept s t := sequencersKept_of_fields (hvar'.trans hvar) (hto (by decide)) (hto (by decide))
  have hbusyT : busyUntil t k = v := by
    rw [busyUntil, hbusy']
    exact hbusy
  refine ⟨⟨p, htracker'.trans htracker, hstart⟩, hbusyT, hpc, hseqs, hbase, hheld', fun hrep => ?_⟩
  exact ⟨(hquiet hrep).1.trans hmem, fun m hm =>
    ((hquiet hrep).2 m (sub_ne _ _ (by decide) hm)).trans (hmoved (sub_ne _ _ (by decide) hm))⟩

end Engine

/-! ### A command whose engine is occupied (R172) -/

/-- A program-fatal error latches FATAL (R173). -/
theorem programFatal_fatal (die kind tag : Nat) (s : State) : rdb (programFatal die kind tag s) F.sq_FATAL die 0 = true := by
  unfold programFatal
  extract_lets s1 s2 s3
  clear_value s1
  have hlatched : rdb s2 F.sq_FATAL die 0 = true := by
    unfold s2
    split
    · assumption
    · rw [rdb, rd_wr_other F.sq_FATAL_TAG F.sq_FATAL _ _ _ _ _ _ (by decide),
        rd_wr_other F.sq_FATAL_KIND F.sq_FATAL _ _ _ _ _ _ (by decide)]
      exact rdb_setb_self _ _ _ _ _ (by decide)
  have hdue : rdb s3 F.sq_FATAL die 0 = rdb s2 F.sq_FATAL die 0 :=
    rdb_of_fieldKept (dueDump_fld die s2 (by decide) (FieldKept.refl _ s2)) (dueDump_kept die s2 (Kept.refl s2)).variant (by decide) _ _
  rw [hlatched] at hdue
  clear_value s3
  split
  · exact hdue
  · exact hdue

section Collide

variable (q : SeqId) (n free : Nat) (s : State)

/-- The state after the guard entry of a collision. -/
def collided : State :=
  guardFault q.die (seqTag s q) (seqX s q).gen 2 0 (seqDieCode q) 0 (ceilDiv free (domCycles q) - n) s

theorem collided_fld {m : Nat} (hm : [9, 10, 11, 196, 197, 198, 205, 682, 686, 688, 689].contains m = false) :
    FieldKept m s (collided q n free s) := guardFault_fld _ _ _ _ _ _ _ _ _ hm (FieldKept.refl m s)

theorem bare_collided : bare (collided q n free s) = bare s := bare_guardFault _ _ _ _ _ _ _ _ _

theorem collided_policy : rdb (collided q n free s) F.sq_GUARD_POLICY q.die 0 = rdb s F.sq_GUARD_POLICY q.die 0 :=
  rdb_of_fieldKept (collided_fld q n free s (by decide)) (variant_of_bare (bare_collided q n free s)) (by decide) _ _

theorem collided_pcIndex : pcIndex (collided q n free s) q = pcIndex s q :=
  (collided_fld q n free s (m := F.sq_PC_INDEX.fid) (by decide)).rdU' (variant_of_bare (bare_collided q n free s))
    (by decide) _ _

theorem collide_eq : collide q n free s = if rdb s F.sq_GUARD_POLICY q.die 0 then
      setSeqX q { seqX (collided q n free s) q with heldTill := some (ceilDiv free (domCycles q)) } (collided q n free s)
    else movedOn q n (pcIndex s q) (collided q n free s) := by
  rw [← collided_policy q n free s, ← collided_pcIndex q n free s]
  rfl

/-- Under the basic policy a collision is program-fatal. -/
theorem collided_stops (h : rdb s F.sq_GUARD_POLICY q.die 0 = false) :
    (collided q n free s).stopAt.isSome = true ∧ rdb (collided q n free s) F.sq_FATAL q.die 0 = true := by
  unfold collided guardFault
  extract_lets s1
  have hpolicy : rdb s1 F.sq_GUARD_POLICY q.die 0 = false :=
    (rdb_of_fieldKept (guardEntry_fld _ _ _ _ _ _ _ _ _ (by decide) (FieldKept.refl _ s))
      (variant_of_bare (bare_guardEntry _ _ _ _ _ _ _ _ s)) (by decide) _ _).trans h
  rw [if_neg (by simp [hpolicy])]
  exact ⟨programFatal_stops _ _ _ _, programFatal_fatal _ _ _ _⟩

theorem collide_expert (h : rdb s F.sq_GUARD_POLICY q.die 0 = true) : pcIndex (collide q n free s) q = pcIndex s q ∧
    (seqX (collide q n free s) q).heldTill = some (ceilDiv free (domCycles q)) := by
  have hpc := collided_pcIndex q n free s
  rw [collide_eq, h, if_pos rfl]
  revert hpc
  generalize collided q n free s = u
  exact fun hpc => ⟨hpc, by rw [seqX_setSeqX_self]⟩

theorem collide_basic (h : rdb s F.sq_GUARD_POLICY q.die 0 = false) :
    (collide q n free s).stopAt.isSome = true ∧ rdb (collide q n free s) F.sq_FATAL q.die 0 = true := by
  obtain ⟨hstop, hfatal⟩ := collided_stops q n free s h
  have hview := movedOn_unissued (q := q) (n := n) (s := collided q n free s) (pcIndex s q)
  rw [collide_eq, h, if_neg Bool.false_ne_true]
  have hsame : (movedOn q n (pcIndex s q) (collided q n free s)).stopAt = (collided q n free s).stopAt :=
    stopAt_of_unissued hview
  have hvar : (movedOn q n (pcIndex s q) (collided q n free s)).variant = (collided q n free s).variant :=
    variant_of_unissued hview
  exact ⟨hsame ▸ hstop, (rdb_of_fieldKept (movedOn_fld (by decide)) hvar (by decide) _ _).trans hfatal⟩

theorem collide_flight : (collide q n free s).tracker = s.tracker ∧ (collide q n free s).busy = s.busy := by
  have htracker : (collided q n free s).tracker = s.tracker :=
    tracker_of_bare (bare_collided q n free s)
  have hbusy : (collided q n free s).busy = s.busy :=
    busy_of_bare (bare_collided q n free s)
  rw [collide_eq]
  revert htracker hbusy
  generalize collided q n free s = u
  intro htracker hbusy
  split
  · exact ⟨htracker, hbusy⟩
  · have hview := movedOn_unissued (q := q) (n := n) (s := u) (pcIndex s q)
    exact ⟨(tracker_of_unissued hview).trans htracker, (busy_of_unissued hview).trans hbusy⟩

theorem collide_sequencers : SequencersKept s (collide q n free s) :=
  sequencersKept_of_fields (collide_kept q n free s (Kept.refl s)).variant
    (collide_fld q n free s (by decide) (FieldKept.refl _ s)) (collide_fld q n free s (by decide) (FieldKept.refl _ s))

end Collide

theorem engineCmd_of_busy {q : SeqId} {eng : Ctx → Cmd → State → OpResult} {c : Cmd} {n : Nat} {s : State}
    (h : n < busyUntil s (engineKey q.die q.num)) :
    engineCmd q eng c n s = collide q n (busyUntil s (engineKey q.die q.num)) s := if_pos h

/-- Settles O17: a free engine takes the operation up, an occupied one is a collision. -/
theorem engineCommands : Obligations.EngineCommands := by
  unfold Obligations.EngineCommands
  constructor
  · intro q i cls op hi hcls s s1 c n toks h hfree hroom r hover hearly hclean
    have hprep := prepared_sequencers h
    obtain ⟨⟨p, hp, hstart⟩, hbusy, hpc, hseq, -, -, hquiet⟩ :=
      movedOn_started (q := q) (c := c) (n := n) (s := s1) r (engineKey q.die q.num) (n + r.occ)
    have hrun := engineCmd_of_free (eng := engineWork cls op) hfree hroom hover hearly hclean
    refine streamCmd_completes (engineCommand_meaning _ hi hcls) h ?_
    dsimp only
    rw [hrun]
    refine ⟨⟨p, hp.trans ?_, hstart⟩, hbusy, hpc.trans ?_, ⟨fun q' k => ?_, fun q' k => ?_⟩, fun hrep => ?_⟩
    · exact congrArg (· ++ [p]) (tracker_of_unissued (prepare_unissued h))
    · rw [prepared_pcIndex h]
    · rw [hseq.regs, hprep.regs]
    · rw [hseq.preds, hprep.preds]
    · obtain ⟨hmem, hfld⟩ := hquiet hrep
      refine ⟨(prepared_mem h).trans hmem, fieldsKept_of_numbers
        [9, 10, 11, 201, 204, 207, 208, 209, 213, 215, 216, 217, 218, 219, 220, 221] (by decide) fun m hm => ?_⟩
      exact (prepared_fld h (sub_ne _ _ (by decide) hm)).trans (hfld m (sub_ne _ _ (by decide) hm))
  · intro q i cls op hi hcls s s1 c n toks h hbusy
    have hprep := prepared_sequencers h
    obtain ⟨htracker, hengines⟩ := collide_flight q n (busyUntil s1 (engineKey q.die q.num)) s1
    have hseq := collide_sequencers q n (busyUntil s1 (engineKey q.die q.num)) s1
    have hpolicy : rdb s1 F.sq_GUARD_POLICY q.die 0 = rdb s F.sq_GUARD_POLICY q.die 0 :=
      rdb_of_fieldKept (prepared_fld h (by decide)) (prepared_variant h) (by decide) _ _
    refine streamCmd_completes (engineCommand_meaning _ hi hcls) h ?_
    dsimp only
    rw [engineCmd_of_busy hbusy]
    refine ⟨?_, ?_, ⟨fun q' k => ?_, fun q' k => ?_⟩, fun hexpert => ?_, fun hbasic => ?_⟩
    · exact htracker.trans (tracker_of_unissued (prepare_unissued h))
    · exact hengines.trans (busy_of_unissued (prepare_unissued h))
    · rw [hseq.regs, hprep.regs]
    · rw [hseq.preds, hprep.preds]
    · obtain ⟨hpc, hheld⟩ := collide_expert q n (busyUntil s1 (engineKey q.die q.num)) s1 (hpolicy.trans hexpert)
      exact ⟨hpc.trans (prepared_pcIndex h), hheld⟩
    · exact collide_basic q n (busyUntil s1 (engineKey q.die q.num)) s1 (hpolicy.trans hbasic)

end Sys2Proof.Machine

namespace Sys2Proof.Machine

open Sys2Proof

/-! ### The start of a held command (R172) -/

/-- What a state holds beside its register fields, its memory, the fault logic, the arrays and the engines. -/
def arrayView (s : State) : State := { bare s with arrs := [], busy := [] }

theorem arrayView_of_bare {s t : State} (h : bare t = bare s) : arrayView t = arrayView s := by
  unfold arrayView
  rw [h]

theorem arrayView_setArrX (die p : Nat) (x : ArrX) (s : State) : arrayView (setArrX die p x s) = arrayView s := rfl

theorem arrayView_setBusy (k v : Nat) (s : State) : arrayView (setBusy k v s) = arrayView s := rfl

theorem arrayView_abortSweep (inst die p t : Nat) (s : State) : arrayView (abortSweep inst die p t s) = arrayView s := by
  unfold abortSweep
  dsimp only
  split
  · split
    · rfl
    · split
      · rw [arrayView_of_bare (bare_sat _ _ _ _ _), arrayView_setArrX]
      · rfl
  · rfl

theorem arrayView_advanceAudit (inst die p l : Nat) (s : State) : arrayView (advanceAudit inst die p l s) = arrayView s := by
  unfold advanceAudit
  dsimp only
  split
  · rfl
  · split <;> rfl

theorem arrayView_occupyArrays (inst die t : Nat) (sparse : Bool) (arrs : List (Nat × Nat × ArrRes × SegIn)) (s : State) :
    arrayView (occupyArrays inst die t sparse arrs s) = arrayView s := by
  refine foldl_same arrayView (fun s a => ?_) _ _
  have hfree := arrayView_abortSweep inst die a.2.1 t s
  dsimp only
  split
  · rw [arrayView_setArrX, arrayView_setBusy, hfree]
  · rw [arrayView_advanceAudit, arrayView_setArrX, arrayView_setBusy, hfree]

section ArrayView

variable {s t : State} (h : arrayView t = arrayView s)

include h

theorem tracker_of_arrayView : t.tracker = s.tracker := (congrArg State.tracker h :)

theorem core_of_arrayView : t.core = s.core := (congrArg State.core h :)

theorem variant_of_arrayView : t.variant = s.variant := (congrArg State.variant h :)

theorem seqx_of_arrayView : t.seqx = s.seqx := (congrArg State.seqx h :)

end ArrayView

/-- The state in which a held command starts at core cycle `n`. -/
def released (q : SeqId) (n : Nat) (s : State) : State := setSeqX q { seqX s q with heldTill := none } (advanceTo n s)

section Released

variable {q : SeqId} {n : Nat} {s : State}

theorem released_held : (seqX (released q n s) q).heldTill = none := by
  rw [released, seqX_setSeqX_self]

theorem released_fld (m : Nat) : FieldKept m s (released q n s) := (FieldKept.refl m s).of_eq rfl

theorem released_variant : (released q n s).variant = s.variant := rfl

theorem released_tracker : (released q n s).tracker = s.tracker := rfl

theorem released_busy : (released q n s).busy = s.busy := rfl

theorem released_pcIndex : pcIndex (released q n s) q = pcIndex s q := rfl

theorem released_seqTag : seqTag (released q n s) q = seqTag s q := rfl

theorem released_sequencers : SequencersKept s (released q n s) := ⟨fun _ _ => rfl, fun _ _ => rfl⟩

end Released

/-- A held command whose engine is free starts, where no stop and no landing comes before it. -/
theorem delayedStart_eq {q : SeqId} {codes : List (Nat × Int)} {s : State} {c : Cmd} {h : Nat}
    (hheld : (seqX s q).heldTill = some h) (hnext : nextCmd s q = some c) (hfloor : (seqX s q).floor ≤ h * domCycles q) (hstop : s.stopAt = none)
    (hland : landedBy s (h * domCycles q) = true)
    (hproduct : c.cls = 5 → productHeld s (groupOf q).1 (ctxOf s q) c (h / 16) = false) :
    delayedStart q codes s = startHeld q codes c h (released q (h * domCycles q) s) := by
  have hcycle : max h (ceilDiv (seqX s q).floor (domCycles q)) = h :=
    Nat.max_eq_left (ceilDiv_le_of_le_mul (domCycles_pos q) hfloor)
  have hfree : (c.cls == 5 && productHeld s (groupOf q).1 (ctxOf s q) c (h / 16)) = false := by
    by_cases hcls : c.cls = 5
    · rw [hproduct hcls, Bool.and_false]
    · simp [hcls]
  unfold delayedStart
  dsimp only
  rw [hheld, hnext]
  dsimp only
  rw [hcycle, hstop, hland, hfree]
  rfl

theorem startHeld_engine {q : SeqId} {codes : List (Nat × Int)} {c : Cmd} {n : Nat} {s : State}
    (hcls : (c.cls = 2 ∧ c.op = 0) ∨ c.cls = 3 ∨ c.cls = 4) :
    startHeld q codes c n s = engineCmd q (engineWork c.cls c.op) c n s := by
  rcases hcls with ⟨hcls, -⟩ | hcls | hcls <;> rw [startHeld, hcls] <;> rfl

theorem startHeld_product {q : SeqId} {codes : List (Nat × Int)} {c : Cmd} {n : Nat} {s : State} (hcls : c.cls = 5) :
    startHeld q codes c n s = productCmd q codes c n s := by
  rw [startHeld, hcls]
  rfl

/-- What a product of array tick `n` makes of the planes that it reads. -/
def productOut (q : SeqId) (codes : List (Nat × Int)) (c : Cmd) (n : Nat) (s : State) : ProdOut :=
  productWork (ctxOf s q) c (groupOf q).1 (groupOf q).2 (n / 16 + 1) codes
    (asOf (readCycle (groupOf q).1 (ctxOf s q) c (n / 16)) s) s

/-- The same to land in a fixed cycle. -/
def productResult (q : SeqId) (codes : List (Nat × Int)) (c : Cmd) (n : Nat) (s : State) : OpResult :=
  { (productOut q codes c n s).res with lat := some (32 * (n / 16 + 1 + (productOut q codes c n s).land) - 2 * n) }

/-- A product whose group is ready and whose arrays are free in a training slot starts on them. -/
theorem productCmd_of_free {q : SeqId} {codes : List (Nat × Int)} {c : Cmd} {n : Nat} {s : State}
    (hready : groupReady s (groupOf q).2 = true) (hfree : arraysFreeAp s (groupOf q).1 (groupOf q).2 c ≤ n / 16 + 1)
    (hslot : slotStarts s (groupOf q).2 (n / 16 + 1) 1 0 = true) (hroom : trackerCount s q.die < 32768)
    (hover : (productOut q codes c n s).res.overlap = false)
    (hearly : earlySummary s (readCycle (groupOf q).1 (ctxOf s q) c (n / 16)) (productOut q codes c n s).res.reads = none)
    (hclean : CleanReads (productOut q codes c n s).res.reads s) :
    productCmd q codes c n s = advanceTo (32 * (n / 16 + 1)) (movedOn q n (pcIndex s q)
      (occupyArrays (groupOf q).2 (groupOf q).1 (n / 16) c.aSparse (productOut q codes c n s).arrays
        (started q c (2 * n) (productResult q codes c n s) s))) := by
  have hstart : startOp q c (readCycle (groupOf q).1 (ctxOf s q) c (n / 16)) (2 * n) (productResult q codes c n s) s =
      started q c (2 * n) (productResult q codes c n s) s := startOp_clean hroom hearly hclean hover
  unfold productCmd
  dsimp only
  rw [hready, if_neg (by decide), if_neg (by simp [Nat.not_lt.2 hfree, hslot]), trackerFull_of_lt hroom, if_neg (by decide)]
  exact congrArg (fun u => advanceTo (32 * (n / 16 + 1)) (setPc q (pcIndex s q + 1) (noteIssue q n
    (occupyArrays (groupOf q).2 (groupOf q).1 (n / 16) c.aSparse (productOut q codes c n s).arrays u)))) hstart

theorem movedOn_core {q : SeqId} {n : Nat} {s : State} (pc : Nat) : (movedOn q n pc s).core = s.core := by
  unfold movedOn setPc
  dsimp only
  split <;> rfl

/-- What stands once a product has started: the tracker, the sequencers and the time. -/
theorem movedOn_product (inst die ap n : Nat) {q : SeqId} {c : Cmd} {r : OpResult} {s : State}
    (arrs : List (Nat × Nat × ArrRes × SegIn)) :
    let t := advanceTo (32 * (ap + 1)) (movedOn q n (pcIndex s q)
      (occupyArrays inst die ap c.aSparse arrs (started q c (2 * n) r s)))
    (∃ p, t.tracker = s.tracker ++ [p] ∧ StartsAs q c (2 * n) r s p) ∧ (seqX t q).base = n ∧
      (seqX t q).heldTill = (seqX s q).heldTill ∧ t.core = max s.core (32 * (ap + 1)) ∧
      pcIndex t q = (pcIndex s q + 1) % 2 ^ 11 ∧ SequencersKept s t := by
  obtain ⟨p, hp, hstart⟩ := started_tracker (q := q) (c := c) (n := 2 * n) (r := r) (s := s)
  have hview := arrayView_occupyArrays inst die ap c.aSparse arrs (started q c (2 * n) r s)
  have hheld : (seqX (started q c (2 * n) r s) q).heldTill = (seqX s q).heldTill := by
    rw [started_seqX, noteRepeat_held]
  have hcore : (started q c (2 * n) r s).core = s.core :=
    (congrArg State.core (startView_track _ _) :).trans (congrArg State.core (repeatView_noteRepeat q c s) :)
  have hvar := (variant_of_arrayView hview).trans started_variant
  have hfld {m : Nat} (hm : [9, 10, 11, 43, 207, 208, 682, 689].contains m = false) :
      FieldKept m s (occupyArrays inst die ap c.aSparse arrs (started q c (2 * n) r s)) :=
    occupyArrays_fld _ _ _ _ _ _ (sub_ne _ _ (by decide) hm) (started_fld (sub_ne _ _ (by decide) hm))
  replace hp := (tracker_of_arrayView hview).trans hp
  replace hcore := (core_of_arrayView hview).trans hcore
  have hseqx := seqX_of_seqx (seqx_of_arrayView hview) q
  replace hheld := (congrArg SeqX.heldTill hseqx).trans hheld
  clear hview hseqx
  revert hp hheld hcore hvar hfld
  generalize occupyArrays inst die ap c.aSparse arrs (started q c (2 * n) r s) = u
  intro hvar hfld hp hcore hheld t
  have hmove : unissued (movedOn q n (pcIndex s q) u) = unissued u := movedOn_unissued _
  have hseq : seqX (movedOn q n (pcIndex s q) u) q = { seqX u q with base := n } := movedOn_seqX _
  have hpc : pcIndex (movedOn q n (pcIndex s q) u) q = (pcIndex s q + 1) % 2 ^ 11 := movedOn_pcIndex _
  have hmoved {m : Nat} (hm : [201, 209, 213, 219].contains m = false) : FieldKept m u (movedOn q n (pcIndex s q) u) :=
    movedOn_fld hm
  have hsame : (movedOn q n (pcIndex s q) u).core = u.core := movedOn_core _
  revert hmove hseq hpc hmoved hsame
  subst t
  generalize movedOn q n (pcIndex s q) u = v
  intro hmove hseq hpc hmoved hsame
  have hto {m : Nat} (hm : [9, 10, 11, 43, 201, 207, 208, 209, 213, 219, 682, 689].contains m = false) :
      FieldKept m s (advanceTo (32 * (ap + 1)) v) :=
    advanceTo_fld _ _ _ ((hfld (sub_ne _ _ (by decide) hm)).trans (hmoved (sub_ne _ _ (by decide) hm)))
  refine ⟨⟨p, (tracker_of_unissued hmove).trans hp, hstart⟩, congrArg SeqX.base hseq,
    (congrArg SeqX.heldTill hseq).trans hheld, ?_, hpc, ?_⟩
  · rw [← hcore, ← hsame, max_comm]
    rfl
  · exact sequencersKept_of_fields ((variant_of_unissued hmove).trans hvar) (hto (by decide)) (hto (by decide))

end Sys2Proof.Machine

namespace Sys2Proof

open Sys2Proof.Machine

/-- Settles O20: a held command runs in the state in which it is released as one that issues there does. -/
theorem delayedStart : Obligations.DelayedStart := by
  unfold Obligations.DelayedStart
  constructor
  · intro q codes s c h hnext hcls hq hheld hfloor hstop hland hfree hroom s1 r hover hearly hclean
    have hdom : domCycles q = 1 := if_pos hq
    have hs1 : s1 = released q h s := rfl
    clear_value s1
    subst hs1
    obtain ⟨⟨p, hp, hstart⟩, hbusy, hpc, hseq, hbase, hfreed, -⟩ := movedOn_started (q := q) (c := c) (n := h)
      (s := released q h s) r (engineKey q.die q.num) (h + r.occ)
    have hrun : Machine.delayedStart q codes s = movedOn q h (pcIndex (released q h s) q)
        (setBusy (engineKey q.die q.num) (h + r.occ) (started q c h r (released q h s))) := by
      rw [delayedStart_eq hheld hnext (by simpa [hdom] using hfloor) hstop (by simpa [hdom] using hland)
        (fun h5 => by omega), startHeld_engine hcls, hdom, Nat.mul_one]
      exact engineCmd_of_free hfree hroom hover hearly hclean
    obtain ⟨hdie, htag, -, -, hlands, hwrites, -⟩ := hstart
    refine ⟨_, congrArg Host.Outcome.next hrun, ⟨p, hp, hdie, htag, hlands, hwrites⟩, hbusy, hbase, ?_, hpc, ?_⟩
    · exact hfreed.trans released_held
    · exact ⟨fun q' k => hseq.regs q' k, fun q' k => hseq.preds q' k⟩
  · intro q codes s c h hnext hcls hq hheld hfloor hstop hland s1 die inst ap rc o hproduct hready harrs hslot hroom hover hearly
      hclean hlate
    have hdom : domCycles q = 2 := if_neg (by omega)
    have hs1 : s1 = released q (2 * h) s := rfl
    have ho : o = productOut q codes c h (released q (2 * h) s) := rfl
    have hcycles : 2 * h = h * domCycles q := by rw [hdom, Nat.mul_comm]
    obtain ⟨⟨p, hp, hstart⟩, hbase, hfreed, hcore, hpc, hseq⟩ := movedOn_product inst die ap h (q := q) (c := c)
      (r := productResult q codes c h (released q (2 * h) s)) (s := released q (2 * h) s) o.arrays
    have hrun : Machine.delayedStart q codes s = advanceTo (32 * (ap + 1)) (movedOn q h (pcIndex (released q (2 * h) s) q)
        (occupyArrays inst die ap c.aSparse o.arrays
          (started q c (2 * h) (productResult q codes c h (released q (2 * h) s)) (released q (2 * h) s)))) := by
      rw [delayedStart_eq hheld hnext (hcycles ▸ hfloor) hstop (hcycles ▸ hland) (fun _ => hproduct), startHeld_product hcls,
        ← hcycles]
      exact productCmd_of_free hready harrs hslot hroom hover hearly hclean
    obtain ⟨hdie, htag, -, -, hlands, hwrites, -⟩ := hstart
    refine ⟨_, congrArg Host.Outcome.next hrun, ⟨p, hp, hdie, htag, hlands.trans ?_, hwrites⟩, hbase, ?_, hcore, hpc, ?_⟩
    · exact congrArg some (Nat.add_sub_cancel' hlate)
    · exact hfreed.trans released_held
    · exact ⟨fun q' k => hseq.regs q' k, fun q' k => hseq.preds q' k⟩

end Sys2Proof

namespace Sys2Proof.Machine

open Sys2Proof

/-! ### What the reads of memory depend on (R255) -/

section Reads

variable {s t : State}

/-- A device address resolves as before where the view registers and the halves chosen stay. -/
theorem memRef_congr (hvar : t.variant = s.variant) (hmaster : t.selMaster = s.selMaster) (hstate : t.selState = s.selState)
    (hfld : ∀ f ∈ [F.ex_STATE_PAGES, F.ex_MASTER_PAGES, F.ex_MASTER_HALF0, F.ex_MASTER_HALF1, F.ex_STATE_HALF0, F.ex_STATE_HALF1],
      FieldKept f.fid s t) (a : Nat) : memRef t a = memRef s a := by
  have hrd (f : Field) (hf : f ∈ [F.ex_STATE_PAGES, F.ex_MASTER_PAGES, F.ex_MASTER_HALF0, F.ex_MASTER_HALF1, F.ex_STATE_HALF0,
      F.ex_STATE_HALF1]) (hp : f.fid ≠ F.ag_PROG_COUNT.fid) : rd t f 0 0 = rd s f 0 0 := (hfld f hf).rdU' hvar hp _ _
  unfold memRef
  rw [hvar, hmaster, hstate, hrd F.ex_STATE_PAGES (by simp) (by decide), hrd F.ex_MASTER_PAGES (by simp) (by decide),
    hrd F.ex_MASTER_HALF0 (by simp) (by decide), hrd F.ex_MASTER_HALF1 (by simp) (by decide),
    hrd F.ex_STATE_HALF0 (by simp) (by decide), hrd F.ex_STATE_HALF1 (by simp) (by decide)]

variable (href : ∀ a, memRef t a = memRef s a)

include href

theorem cellAt_of_memRef (space a : Nat) : cellAt t space a = cellAt s space a := by
  rw [cellAt, cellAt, href]

theorem readBytes_of_memRef (hmem : t.mem = s.mem) (space a n : Nat) : readBytes t space a n = readBytes s space a n := by
  have hbyte (x : Nat) : readByte t space x = readByte s space x := by
    rw [readByte, readByte, cellAt_of_memRef href, href, hmem]
  simp only [readBytes, hbyte]

theorem poisonedWords_of_memRef (hpoison : t.poison = s.poison) (space a n : Nat) :
    poisonedWords t space a n = poisonedWords s space a n := by
  have hat (x : Nat) : poisonedAt t space x = poisonedAt s space x := by
    rw [poisonedAt, poisonedAt, cellAt_of_memRef href, hpoison]
  simp only [poisonedWords, hat, hpoison]

theorem beyondView_of_memRef (space a n : Nat) : beyondView t space a n = beyondView s space a n := by
  simp only [beyondView, href]

end Reads

/-! ### The shape signature (R191) -/

/-- No page shows LOAD_BUSY in the words that the shape signature covers. -/
theorem loadBusy_not_shape : ∀ (p : Nat), ∀ f ∈ pageFields p, f.off ≤ 0x20 → f.fid ≠ F.sq_LOAD_BUSY.fid := by
  intro p
  have hcommon : ∀ f ∈ fieldsCommon, f.off ≤ 0x20 → f.fid ≠ F.sq_LOAD_BUSY.fid := by decide +kernel
  unfold pageFields
  simp only [List.mem_append, or_imp, forall_and]
  refine ⟨hcommon, ?_⟩
  split <;> decide +kernel

section Signature

variable {s t : State} (hvar : t.variant = s.variant)
  (hrd : ∀ f : Field, f.fid ≠ F.sq_LOAD_BUSY.fid → ∀ u i, rdU t f u i = rdU s f u i)

include hrd

theorem rd_of_rdU {f : Field} (hf : f.fid ≠ F.sq_LOAD_BUSY.fid) (inst i : Nat) : rd t f inst i = rd s f inst i := hrd f hf _ _

theorem arraySel_of_rdU (inst : Nat) : arraySel t inst = arraySel s inst := by
  unfold arraySel physOf rdb
  dsimp only
  rw [rd_of_rdU hrd (by decide), rd_of_rdU hrd (by decide), rd_of_rdU hrd (by decide), rd_of_rdU hrd (by decide),
    rd_of_rdU hrd (by decide)]

theorem place_of_rdU (f : Field) (u r e : Nat) : place t f u r e = place s f u r e := by
  unfold place
  dsimp only
  rw [arraySel_of_rdU hrd]
  cases f.win <;> simp (disch := decide) only [rd_of_rdU hrd]

theorem storedWord_of_rdU (u : Nat) {off : Nat} (hoff : off ≤ 0x20) : storedWord t u off = storedWord s u off := by
  have hslots : slotsAt t u off = slotsAt s u off := by simp only [slotsAt, place_of_rdU hrd]
  have hshown : ∀ x ∈ slotsAt s u off, x.f.fid ≠ F.sq_LOAD_BUSY.fid := by
    intro x hx
    obtain ⟨f, hf, hx⟩ := List.mem_flatMap.1 hx
    split at hx
    next hin =>
      obtain ⟨e, -, he⟩ := List.mem_filterMap.1 hx
      dsimp only at he
      split at he
      · cases he
      · cases he
        exact loadBusy_not_shape _ f hf (hin.1.trans hoff)
    · cases hx
  rw [storedWord, storedWord, hslots]
  exact List.foldl_ext _ _ _ fun w x hx => by rw [hrd x.f (hshown x hx)]

include hvar

theorem signature_of_rdU : signature t = signature s := by
  have hword (u : Nat) : ([0x08, 0x10, 0x18, 0x20].flatMap fun off => natLe 8 (storedWord t u off)) =
      [0x08, 0x10, 0x18, 0x20].flatMap fun off => natLe 8 (storedWord s u off) := by
    simp only [List.flatMap_cons, List.flatMap_nil, storedWord_of_rdU hrd u (by decide : 0x08 ≤ 0x20),
      storedWord_of_rdU hrd u (by decide : 0x10 ≤ 0x20), storedWord_of_rdU hrd u (by decide : 0x18 ≤ 0x20),
      storedWord_of_rdU hrd u (by decide : 0x20 ≤ 0x20)]
  simp only [signature, hvar, hword]

end Signature

/-! ### A bin's VALID bit and the result of a load (R192) -/

theorem binValid_setValid_self (q : SeqId) (b : Nat) (v : Bool) (s : State) : binValid (setValid q b v s) q b = v := by
  unfold binValid setValid
  split
  · exact rdb_setb_self _ _ _ _ _ (by decide)
  · exact rdb_setb_self _ _ _ _ _ (by decide)

theorem binValid_setValid_other (q : SeqId) {b b' : Nat} (v : Bool) (s : State) (h : b % 2 ≠ b' % 2) :
    binValid (setValid q b v s) q b' = binValid s q b' := by
  unfold binValid setValid
  by_cases hb : b % 2 = 0
  · rw [if_pos hb, if_neg (by omega), if_neg (by omega)]
    exact congrArg (· == 1) (rd_wr_other F.sq_VALID_0 F.sq_VALID_1 _ _ _ _ _ _ (by decide))
  · rw [if_neg hb, if_pos (by omega), if_pos (by omega)]
    exact congrArg (· == 1) (rd_wr_other F.sq_VALID_1 F.sq_VALID_0 _ _ _ _ _ _ (by decide))

theorem rd_binResult_code (die code index : Nat) (s : State) :
    rd (binResult die code index s) F.sq_CODE die 0 = code % 2 ^ F.sq_CODE.width := rd_wr_self _ _ _ _ _

theorem rd_binResult_index (die code index : Nat) (s : State) :
    rd (binResult die code index s) F.sq_INDEX die 0 = index % 2 ^ F.sq_INDEX.width := by
  rw [binResult, rd_wr_other F.sq_CODE F.sq_INDEX _ _ _ _ _ _ (by decide), rd_wr_self]

/-! ### The write of BIN_LOAD.GO -/

/-- The state after SEQ and BIN are written with GO. -/
def loadNamed (die seq bin : Nat) (s : State) : State := wr F.sq_LOAD_SEQ die 0 seq (wr F.sq_LOAD_BIN die 0 bin s)

/-- A load runs on the die, or the bin is active. -/
def loadRefused (die seq bin : Nat) (s : State) : Bool :=
  rdb s F.sq_LOAD_BUSY die 0 || (decide (seq < 153) && seqBusy s ⟨die, seq⟩ && activeBin s ⟨die, seq⟩ == bin)

/-- A load that starts: its bin is invalid while LOAD_BUSY stands. -/
def loadStarted (die seq bin : Nat) (s : State) : State :=
  let t := setb F.sq_LOAD_BUSY die 0 true (setValid ⟨die, seq⟩ bin false (loadNamed die seq bin s))
  { t with loads := nmSet die ⟨seq, bin, rd t F.sq_BIN_ADDR die 0⟩ t.loads }

section Write

variable {die seq bin : Nat} {s : State}

theorem loadNamed_fld {m : Nat} (hm : [185, 186].contains m = false) : FieldKept m s (loadNamed die seq bin s) :=
  wr_fld _ _ _ _ _ (by rintro rfl; exact absurd hm (by decide))
    (wr_fld _ _ _ _ _ (by rintro rfl; exact absurd hm (by decide)) (FieldKept.refl m s))

theorem loadNamed_variant : (loadNamed die seq bin s).variant = s.variant := rfl

theorem loadRefused_loadNamed (hseq : seq < 256) (hbin : bin < 2) :
    (rdb (loadNamed die seq bin s) F.sq_LOAD_BUSY die 0 || (decide (seq % 256 < 153) &&
      seqBusy (loadNamed die seq bin s) ⟨die, seq % 256⟩ && activeBin (loadNamed die seq bin s) ⟨die, seq % 256⟩ == bin % 2)) =
      loadRefused die seq bin s := by
  have hrd {f : Field} (hf : [185, 186].contains f.fid = false) (hp : f.fid ≠ F.ag_PROG_COUNT.fid) (i k : Nat) :
      rd (loadNamed die seq bin s) f i k = rd s f i k := (loadNamed_fld hf).rdU' loadNamed_variant hp _ _
  rw [Nat.mod_eq_of_lt hseq, Nat.mod_eq_of_lt hbin]
  simp (disch := decide) only [loadRefused, rdb, seqBusy, seqState, activeBin, hrd]

theorem binLoad_eq (hseq : seq < 256) (hbin : bin < 2) : binLoad die seq bin s =
    if loadRefused die seq bin s then binResult die 1 0x7FF (sat F.sq_BIN_WRITE_REFUSED die 0 1 (loadNamed die seq bin s))
    else if 153 ≤ seq then binResult die 3 0x7FF (loadNamed die seq bin s)
    else loadStarted die seq bin s := by
  rw [← loadRefused_loadNamed hseq hbin, loadStarted]
  unfold binLoad
  rw [Nat.mod_eq_of_lt hseq, Nat.mod_eq_of_lt hbin]
  rfl

/-- Everything but the loads stands in a load that starts as it does in its own writes of fields. -/
theorem loadStarted_fld {m : Nat} (hm : [185, 186, 188, 211, 212].contains m = false) : FieldKept m s (loadStarted die seq bin s) := by
  have hvalid : FieldKept m s (setValid ⟨die, seq⟩ bin false (loadNamed die seq bin s)) :=
    setValid_fld _ _ _ _ (sub_ne _ _ (by decide) hm) (loadNamed_fld (sub_ne _ _ (by decide) hm))
  exact (setb_fld _ _ _ _ _ (by rintro rfl; exact absurd hm (by decide)) hvalid).of_eq rfl

theorem setValid_same_loads (q : SeqId) (b : Nat) (v : Bool) (s : State) : (setValid q b v s).loads = s.loads := by
  unfold setValid
  split <;> rfl

theorem setValid_same_bins (q : SeqId) (b : Nat) (v : Bool) (s : State) : (setValid q b v s).bins = s.bins := by
  unfold setValid
  split <;> rfl

theorem setValid_same_variant (q : SeqId) (b : Nat) (v : Bool) (s : State) : (setValid q b v s).variant = s.variant := by
  unfold setValid
  split <;> rfl

theorem loadStarted_bins : (loadStarted die seq bin s).bins = s.bins := setValid_same_bins _ _ _ _

theorem loadStarted_busy : rdb (loadStarted die seq bin s) F.sq_LOAD_BUSY die 0 = true :=
  rdb_setb_self F.sq_LOAD_BUSY die 0 true (setValid ⟨die, seq⟩ bin false (loadNamed die seq bin s)) (by decide)

/-- LOAD_BUSY and the loads tell nothing of the bins. -/
theorem loadStarted_valid (q : SeqId) (b : Nat) : binValid (loadStarted die seq bin s) q b =
    binValid (setValid ⟨die, seq⟩ bin false (loadNamed die seq bin s)) q b := by
  have hfld {m : Nat} (hm : F.sq_LOAD_BUSY.fid ≠ m) :
      FieldKept m (setValid ⟨die, seq⟩ bin false (loadNamed die seq bin s)) (loadStarted die seq bin s) :=
    (setb_fld _ die 0 true _ hm (FieldKept.refl m _)).of_eq rfl
  exact binValid_of_fld (hfld (by decide)) (hfld (by decide)) rfl q b

theorem loadStarted_loads : smFind die (loadStarted die seq bin s).loads = some ⟨seq, bin, rd s F.sq_BIN_ADDR die 0⟩ := by
  have haddr : rd (setb F.sq_LOAD_BUSY die 0 true (setValid ⟨die, seq⟩ bin false (loadNamed die seq bin s))) F.sq_BIN_ADDR die 0 =
      rd s F.sq_BIN_ADDR die 0 := by
    rw [setb, rd_wr_other F.sq_LOAD_BUSY F.sq_BIN_ADDR _ _ _ _ _ _ (by decide)]
    exact (setValid_fld _ _ _ _ (by decide) (loadNamed_fld (by decide))).rdU' (setValid_same_variant _ _ _ _) (by decide) _ _
  unfold loadStarted
  dsimp only
  rw [haddr]
  exact smFind_set_self _ _ _ _

theorem binLoad_started (hseq : seq < 153) (hbin : bin < 2) (href : loadRefused die seq bin s = false) :
    let t := binLoad die seq bin s
    rdb t F.sq_LOAD_BUSY die 0 = true ∧ binValid t ⟨die, seq⟩ bin = false ∧
      binValid t ⟨die, seq⟩ (1 - bin) = binValid s ⟨die, seq⟩ (1 - bin) ∧
      smFind die t.loads = some ⟨seq, bin, rd s F.sq_BIN_ADDR die 0⟩ ∧
      ∀ m, [185, 186, 188, 211, 212].contains m = false → FieldKept m s t := by
  have hrun : binLoad die seq bin s = loadStarted die seq bin s := by
    rw [binLoad_eq (by omega) hbin, href, if_neg Bool.false_ne_true, if_neg (by omega)]
  dsimp only
  rw [hrun]
  refine ⟨loadStarted_busy, ?_, ?_, loadStarted_loads, fun m hm => loadStarted_fld hm⟩
  · rw [loadStarted_valid, binValid_setValid_self]
  · rw [loadStarted_valid, binValid_setValid_other _ _ _ (by omega)]
    exact binValid_of_fld (loadNamed_fld (by decide)) (loadNamed_fld (by decide)) rfl _ _

theorem binLoad_refused (hseq : seq < 256) (hbin : bin < 2) (href : loadRefused die seq bin s = true) :
    let t := binLoad die seq bin s
    rd t F.sq_CODE die 0 = 1 ∧ rd t F.sq_INDEX die 0 = 0x7FF ∧ t.loads = s.loads ∧
      rd t F.sq_BIN_WRITE_REFUSED die 0 = min (rd s F.sq_BIN_WRITE_REFUSED die 0 + 1) (fieldMax F.sq_BIN_WRITE_REFUSED) ∧
      ∀ q b, binValid t q b = binValid s q b := by
  have hrun : binLoad die seq bin s = binResult die 1 0x7FF (sat F.sq_BIN_WRITE_REFUSED die 0 1 (loadNamed die seq bin s)) := by
    rw [binLoad_eq hseq hbin, href, if_pos rfl]
  have hfld {m : Nat} (hm : [9, 10, 11, 185, 186, 190, 191, 203].contains m = false) :
      FieldKept m s (binLoad die seq bin s) := by
    rw [hrun]
    exact binResult_fld _ _ _ _ (sub_ne _ _ (by decide) hm) (sat_fld _ _ _ _ _ (by rintro rfl; exact absurd hm (by decide))
      (sub_ne _ _ (by decide) hm) (loadNamed_fld (sub_ne _ _ (by decide) hm)))
  have hvar : (binLoad die seq bin s).variant = s.variant := (binLoad_kept die seq bin s (Kept.refl s)).variant
  refine ⟨?_, ?_, ?_, ?_, binValid_of_fld (hfld (by decide)) (hfld (by decide)) hvar⟩
  · rw [hrun, rd_binResult_code]
    rfl
  · rw [hrun, rd_binResult_index]
    rfl
  · rw [hrun]
    exact sat_same_loads _ _ _ _ _
  · rw [hrun, binResult, rd_wr_other F.sq_CODE F.sq_BIN_WRITE_REFUSED _ _ _ _ _ _ (by decide),
      rd_wr_other F.sq_INDEX F.sq_BIN_WRITE_REFUSED _ _ _ _ _ _ (by decide), rd_sat _ _ _ _ _ (by decide)]
    have hcount : rd (loadNamed die seq bin s) F.sq_BIN_WRITE_REFUSED die 0 = rd s F.sq_BIN_WRITE_REFUSED die 0 :=
      (loadNamed_fld (by decide)).rdU' loadNamed_variant (by decide) _ _
    rw [hcount]

theorem binLoad_unknown (hseq : seq < 256) (hbin : bin < 2) (href : loadRefused die seq bin s = false) (hhigh : 153 ≤ seq) :
    let t := binLoad die seq bin s
    rd t F.sq_CODE die 0 = 3 ∧ rd t F.sq_INDEX die 0 = 0x7FF ∧ t.loads = s.loads ∧
      ∀ m, [185, 186, 190, 191].contains m = false → FieldKept m s t := by
  have hrun : binLoad die seq bin s = binResult die 3 0x7FF (loadNamed die seq bin s) := by
    rw [binLoad_eq hseq hbin, href, if_neg Bool.false_ne_true, if_pos hhigh]
  dsimp only
  rw [hrun]
  refine ⟨rd_binResult_code _ _ _ _, rd_binResult_index _ _ _ _, rfl, fun m hm => ?_⟩
  exact binResult_fld _ _ _ _ (sub_ne _ _ (by decide) hm) (loadNamed_fld (sub_ne _ _ (by decide) hm))

theorem binLoad_bins (hseq : seq < 256) (hbin : bin < 2) : (binLoad die seq bin s).bins = s.bins := by
  rw [binLoad_eq hseq hbin]
  split
  · exact sat_same_bins _ _ _ _ _
  · split
    · rfl
    · exact loadStarted_bins

end Write

/-! ### The end of a load -/

/-- The state after the load of a die is over. -/
def loadEnded (die : Nat) (s : State) : State := setb F.sq_LOAD_BUSY die 0 false { s with loads := smErase die s.loads }

/-- The bytes of the commands that a header counts, where it counts some and not too many (R190). -/
def imageBytes (hdr : List Nat) : Nat :=
  let count := bits (hdr.getD 1 0) 27 12
  if count = 0 ∨ 2048 < count then 0 else 32 * count

/-- The bin that a header and the bytes after it make, the load numbered `order`. -/
def binOfImage (hdr : List Nat) (body : List Byte) (order : Nat) : Bin :=
  { gen := bits (hdr.getD 1 0) 8 8, entry := bits (hdr.getD 1 0) 16 11, count := bits (hdr.getD 1 0) 27 12
    piBackward := bitOf (hdr.getD 1 0) 39, order := order, header := hdr
    cmds := (List.range (bits (hdr.getD 1 0) 27 12)).map fun i => cmdOf ((body.drop (32 * i)).take 32) }

/-- The state after a load whose image passes, the check's answer being `r`. -/
def loadPassed (die : Nat) (l : BinLoad) (r : Nat × Nat) (hdr : List Nat) (body : List Byte) (s : State) : State :=
  let t := binResult die r.1 r.2 (loadEnded die s)
  setValid ⟨die, l.seq⟩ l.bin true
    { t with bins := nmSet (seqKey ⟨die, l.seq⟩ * 2 + l.bin) (binOfImage hdr body (t.loadCount + 1)) t.bins, loadCount := t.loadCount + 1 }

section Done

variable {die : Nat} {s : State}

theorem loadEnded_fld {m : Nat} (hm : F.sq_LOAD_BUSY.fid ≠ m) : FieldKept m s (loadEnded die s) :=
  setb_fld _ die 0 false _ hm ((FieldKept.refl m s).of_eq rfl)

theorem loadEnded_rdU (f : Field) (hf : f.fid ≠ F.sq_LOAD_BUSY.fid) (u i : Nat) : rdU (loadEnded die s) f u i = rdU s f u i :=
  (loadEnded_fld (Ne.symm hf)).rdU rfl rfl u i

theorem loadEnded_memRef (a : Nat) : memRef (loadEnded die s) a = memRef s a := by
  refine memRef_congr (s := s) (t := loadEnded die s) rfl rfl rfl (fun f hf => loadEnded_fld ?_) a
  simp only [List.mem_cons, List.not_mem_nil, or_false] at hf
  rcases hf with rfl | rfl | rfl | rfl | rfl | rfl <;> decide

theorem loadEnded_readBytes (space a n : Nat) : readBytes (loadEnded die s) space a n = readBytes s space a n :=
  readBytes_of_memRef loadEnded_memRef rfl space a n

/-- The end of a load that meets no poisoned word and no page beyond a view. -/
theorem binLoadDone_eq {l : BinLoad} (hl : smFind die s.loads = some l) (hdr : List Nat)
    (hhdr : hdr = headerOf (readBytes s memSpace l.addr 64)) (body : List Byte)
    (hbody : body = readBytes s memSpace (l.addr + 64) (imageBytes hdr))
    (r : Nat × Nat) (hr : r = imageCode (signature s) (rdU s F.com_EXPERT_EN (unitOf 0x20 die) 0 == 1) l.seq hdr body)
    (hclean : poisonedWords s memSpace l.addr (64 + imageBytes hdr) = [])
    (hview : beyondView s memSpace l.addr (64 + imageBytes hdr) = false) :
    binLoadDone die s = if r.1 ≠ 0 then binResult die r.1 r.2 (loadEnded die s) else loadPassed die l r hdr body s := by
  have hsig : signature (loadEnded die s) = signature s := signature_of_rdU rfl loadEnded_rdU
  have hclean' : poisonedWords (loadEnded die s) memSpace l.addr (64 + imageBytes hdr) = [] := by
    rw [poisonedWords_of_memRef loadEnded_memRef rfl, hclean]
  have hreport : viewReport memSpace l.addr (64 + imageBytes hdr) none (loadEnded die s) = loadEnded die s := by
    rw [viewReport, beyondView_of_memRef loadEnded_memRef, hview, if_neg Bool.false_ne_true]
  unfold binLoadDone
  split
  case h_1 hnone => cases hnone.symm.trans hl
  rename_i l' hl'
  obtain rfl : l' = l := Option.some.inj (hl'.symm.trans hl)
  extract_lets q s1 hdr1 count n body1 s2 expert r1 s3 w1 bin
  obtain rfl : hdr1 = hdr := (congrArg headerOf (loadEnded_readBytes _ _ _)).trans hhdr.symm
  obtain rfl : body1 = body := (loadEnded_readBytes _ _ _).trans hbody.symm
  have hs2 : s2 = loadEnded die s := hreport
  have hr1 : r1 = r := by
    rw [hr, ← hsig, ← loadEnded_rdU (die := die) F.com_EXPERT_EN (by decide), ← hs2]
  rw [hs2, show poisonedWords (loadEnded die s) memSpace l'.addr (64 + n) = [] from hclean']
  dsimp only
  rw [← hr1, loadPassed, ← hs2]
  rfl

/-- The load is over and its result stands in every end of it, whatever the bins become. -/
theorem loadEnded_result (die : Nat) (r : Nat × Nat) (s : State) :
    let t := binResult die r.1 r.2 (loadEnded die s)
    rdb t F.sq_LOAD_BUSY die 0 = false ∧ smFind die t.loads = none ∧ rd t F.sq_CODE die 0 = r.1 % 2 ^ F.sq_CODE.width ∧
      rd t F.sq_INDEX die 0 = r.2 % 2 ^ F.sq_INDEX.width ∧ (∀ q b, binValid t q b = binValid s q b) ∧
      ∀ m, [188, 190, 191].contains m = false → FieldKept m s t := by
  have hfld {m : Nat} (hm : [188, 190, 191].contains m = false) : FieldKept m s (binResult die r.1 r.2 (loadEnded die s)) :=
    binResult_fld _ _ _ _ (sub_ne _ _ (by decide) hm) (loadEnded_fld (by rintro rfl; exact absurd hm (by decide)))
  refine ⟨?_, ?_, rd_binResult_code _ _ _ _, rd_binResult_index _ _ _ _,
    binValid_of_fld (hfld (by decide)) (hfld (by decide)) rfl, fun m hm => hfld hm⟩
  · rw [rdb, binResult, rd_wr_other F.sq_CODE F.sq_LOAD_BUSY _ _ _ _ _ _ (by decide),
      rd_wr_other F.sq_INDEX F.sq_LOAD_BUSY _ _ _ _ _ _ (by decide)]
    exact rdb_setb_self F.sq_LOAD_BUSY die 0 false { s with loads := smErase die s.loads } (by decide)
  · refine smFind_of_not_mem fun hmem => ?_
    obtain ⟨e, he, hkey⟩ := List.mem_map.1 hmem
    exact ((mem_smErase die s.loads e).1 he).2 hkey

theorem loadPassed_bin {l : BinLoad} (hbin : l.bin < 2) (r : Nat × Nat) (hdr : List Nat) (body : List Byte) :
    binOf (loadPassed die l r hdr body s) ⟨die, l.seq⟩ l.bin = some (binOfImage hdr body (s.loadCount + 1)) := by
  unfold loadPassed
  dsimp only
  rw [binOf, setValid_same_bins, Nat.mod_eq_of_lt hbin]
  exact smFind_set_self _ _ _ _

/-- A load that passes says what its end says, and makes its bin valid. -/
theorem loadPassed_result (l : BinLoad) (r : Nat × Nat) (hdr : List Nat) (body : List Byte) :
    let t := loadPassed die l r hdr body s
    rdb t F.sq_LOAD_BUSY die 0 = false ∧ smFind die t.loads = none ∧ rd t F.sq_CODE die 0 = r.1 % 2 ^ F.sq_CODE.width ∧
      rd t F.sq_INDEX die 0 = r.2 % 2 ^ F.sq_INDEX.width ∧ binValid t ⟨die, l.seq⟩ l.bin = true ∧
      ∀ m, [188, 190, 191, 211, 212].contains m = false → FieldKept m s t := by
  obtain ⟨hbusy, hloads, hcode, hindex, -, hfld⟩ := loadEnded_result die r s
  have hto {m : Nat} (hm : [211, 212].contains m = false) :
      FieldKept m (binResult die r.1 r.2 (loadEnded die s)) (loadPassed die l r hdr body s) :=
    setValid_fld _ _ _ _ hm ((FieldKept.refl m _).of_eq rfl)
  have hvar : (loadPassed die l r hdr body s).variant = (binResult die r.1 r.2 (loadEnded die s)).variant :=
    setValid_same_variant _ _ _ _
  refine ⟨(rdb_of_fieldKept (hto (by decide)) hvar (by decide) _ _).trans hbusy,
    (congrArg (smFind die) (setValid_same_loads _ _ _ _)).trans hloads,
    ((hto (by decide)).rdU' hvar (by decide) _ _).trans hcode, ((hto (by decide)).rdU' hvar (by decide) _ _).trans hindex,
    binValid_setValid_self _ _ _ _, fun m hm => (hfld m (sub_ne _ _ (by decide) hm)).trans (hto (sub_ne _ _ (by decide) hm))⟩

end Done

/-- Settles O22: by whether the write is refused, and by the first check of the image that fails. -/
theorem binLoads : Obligations.BinLoads := by
  unfold Obligations.BinLoads
  constructor
  · intro die seq bin s _ hseq hbin hlive q refused
    have hrun : exec (.binLoad die seq bin) s = .next (binLoad die seq bin (pageAccess (unitOf 0x25 die) s)) :=
      congrArg Host.Outcome.next (if_pos hlive)
    have hsame : loadRefused die seq bin (pageAccess (unitOf 0x25 die) s) = refused := rfl
    have hkept := binLoad_kept die seq bin (pageAccess (unitOf 0x25 die) s) (pageAccess_kept _ s (Kept.refl s))
    have hfld {m : Nat} (hm : [9, 10, 11, 185, 186, 188, 190, 191, 203, 211, 212].contains m = false) :=
      binLoad_fld die seq bin (pageAccess (unitOf 0x25 die) s) hm (pageAccess_fld _ s m (FieldKept.refl m s))
    have hsequencers := sequencersKept_of_fields hkept.variant (hfld (by decide)) (hfld (by decide))
    have hmem := binLoad_mem die seq bin _ (pageAccess_mem (unitOf 0x25 die) s (MemKept.refl s))
    refine ⟨_, hrun, fun href hlow => ?_, fun href => ?_, fun href hhigh => ?_, binLoad_bins hseq hbin, hmem, hsequencers⟩
    · obtain ⟨hbusy, hinvalid, hother, hloads, hkeeps⟩ := binLoad_started hlow hbin (hsame.trans href)
      exact ⟨hbusy, hinvalid, hother, hloads, fieldsKept_of_access [185, 186, 188, 211, 212] (by decide) hkeeps⟩
    · exact binLoad_refused hseq hbin (hsame.trans href)
    · obtain ⟨hcode, hindex, hloads, hkeeps⟩ := binLoad_unknown hseq hbin (hsame.trans href) hhigh
      exact ⟨hcode, hindex, hloads, fieldsKept_of_access [185, 186, 190, 191] (by decide) hkeeps⟩
  · intro die s l hl hbin hdr count n body r q hclean hview
    have hrun := binLoadDone_eq hl hdr rfl body rfl r rfl hclean hview
    refine ⟨_, congrArg Host.Outcome.next hrun, ?_⟩
    by_cases hpass : r.1 = 0
    · rw [if_neg (not_not.2 hpass)]
      obtain ⟨hbusy, hloads, hcode, hindex, hvalid, hfld⟩ := loadPassed_result (die := die) (s := s) l r hdr body
      have hmem : MemKept s (loadPassed die l r hdr body s) := setValid_mem _ _ _ _ ((MemKept.refl s).of_eq rfl)
      refine ⟨hbusy, hloads, hcode, hindex, fun hfail => absurd hpass hfail, fun _ => ⟨hvalid, _, loadPassed_bin hbin r hdr body,
        rfl, rfl, rfl, rfl, rfl⟩, hmem, ?_, fieldsKept_of_numbers [188, 190, 191, 211, 212] (by decide) hfld⟩
      exact sequencersKept_of_fields (setValid_same_variant _ _ _ _) (hfld _ (by decide)) (hfld _ (by decide))
    · rw [if_pos hpass]
      obtain ⟨hbusy, hloads, hcode, hindex, hvalid, hfld⟩ := loadEnded_result die r s
      refine ⟨hbusy, hloads, hcode, hindex, fun _ => ⟨rfl, hvalid⟩, fun hfail => absurd hfail hpass,
        (MemKept.refl s).of_eq rfl, ?_, fieldsKept_of_numbers [188, 190, 191] (by decide) hfld⟩
      exact sequencersKept_of_fields rfl (hfld _ (by decide)) (hfld _ (by decide))

end Sys2Proof.Machine

namespace Sys2Proof.Machine

open Sys2Proof

/-! ### What the sending of a message leaves alone (R306, R307) -/

/-- What a state holds beside its register fields, the lines, what leaves the part, and the messages of its peers. -/
def sentView (s : State) : State := { s with flds := [], lineBusy := [], out := [], job := { s.job with tx := [], rx := [] } }

theorem sentView_wr (f : Field) (inst i v : Nat) (s : State) : sentView (wr f inst i v s) = sentView s := rfl

theorem sentView_sat (f : Field) (inst i k : Nat) (s : State) : sentView (sat f inst i k s) = sentView s := by
  unfold sat satU setSat
  dsimp only
  split
  · split <;> rfl
  · rfl

theorem sentView_addW (f : Field) (inst i k : Nat) (s : State) : sentView (addW f inst i k s) = sentView s := rfl

theorem sentView_occupyLine (p n : Nat) (s : State) : sentView (occupyLine p n s) = sentView s := rfl

theorem sentView_emit (o : Output) (s : State) : sentView (emit o s) = sentView s := rfl

theorem occupyLine_same_job (p n : Nat) (s : State) : (occupyLine p n s).job = s.job := rfl

theorem sentView_transmit (p dst : Nat) (tag : Option Nat) (etype cls : Nat) (bytes : List Byte) (bad : List Nat) (s : State) :
    sentView (transmit p dst tag etype cls bytes bad s) = sentView s := by
  unfold transmit countRx
  dsimp only
  split
  · simp only [sentView_addW, sentView_occupyLine]
  · simp only [sentView_emit, sentView_addW, sentView_occupyLine]

theorem transmit_same_job (p dst : Nat) (tag : Option Nat) (etype cls : Nat) (bytes : List Byte) (bad : List Nat) (s : State) :
    (transmit p dst tag etype cls bytes bad s).job = s.job := by
  unfold transmit countRx
  dsimp only
  split
  · simp only [addW_same_job, occupyLine_same_job]
  · simp only [emit_same_job, addW_same_job, occupyLine_same_job]

theorem sendRhazo_kept_of (p mac type rank serial id : Nat) (payload : List Byte) (bad : List Nat) (s : State) :
    sentView (sendRhazo p mac type rank serial id payload bad s) = sentView s ∧
      (sendRhazo p mac type rank serial id payload bad s).job.tx = s.job.tx := by
  unfold sendRhazo
  extract_lets ack bytes cls u
  have hview : sentView u = sentView s := sentView_transmit _ _ _ _ _ _ _ _
  have htx : u.job.tx = s.job.tx := congrArg JobX.tx (transmit_same_job _ _ _ _ _ _ _ _)
  clear_value u
  cases ack with
  | some r => exact ⟨hview, htx⟩
  | none => exact ⟨hview, htx⟩

theorem trySend_kept_of (serial : Nat) (m : TxMsg) (s : State) :
    sentView (trySend serial m s).2 = sentView s ∧ (trySend serial m s).2.job.tx = s.job.tx ∧
      (trySend serial m s).1.type = m.type ∧ (trySend serial m s).1.payload = m.payload ∧
      (trySend serial m s).1.source = m.source := by
  unfold trySend
  split
  next pm _ _ =>
    obtain ⟨hview, htx⟩ := sendRhazo_kept_of pm.1 pm.2 m.type (rankOf s serial) serial m.id m.payload m.bad s
    dsimp only
    refine ⟨?_, ?_, rfl, rfl, rfl⟩
    · split
      · exact (sentView_sat _ _ _ _ _).trans hview
      · exact hview
    · split
      · rw [sat_same_job, htx]
      · exact htx
  · exact ⟨rfl, rfl, rfl, rfl, rfl⟩

theorem sentView_setTx (serial : Nat) (x : TxPeer) (s : State) : sentView (setTx serial x s) = sentView s := rfl

theorem txPeer_setTx (serial other : Nat) (x : TxPeer) (s : State) :
    txPeer (setTx serial x s) other = if other = serial then x else txPeer s other := nmGet_set _ _ _ _ _

theorem txPeer_of_tx {s t : State} (h : t.job.tx = s.job.tx) (serial : Nat) : txPeer t serial = txPeer s serial := by
  rw [txPeer, txPeer, h]

/-- A message put into the window of its destination. -/
theorem windowSend_kept_of (serial : Nat) (m : TxMsg) (s : State) :
    sentView (windowSend serial m s) = sentView s ∧
      ∃ m', (∀ other, txPeer (windowSend serial m s) other = if other = serial then
          { txPeer s serial with unacked := (txPeer s serial).unacked ++ [m'] } else txPeer s other) ∧
        m'.type = (m.produced s).type ∧ m'.payload = (m.produced s).payload ∧ m'.source = (m.produced s).source := by
  obtain ⟨hview, htx, htype, hpayload, hsource⟩ := trySend_kept_of serial (m.produced s) s
  unfold windowSend
  revert hview htx htype hpayload hsource
  rcases trySend serial (m.produced s) s with ⟨m', u⟩
  dsimp only
  intro hview htx htype hpayload hsource
  have hpeer := txPeer_of_tx htx
  refine ⟨?_, m', fun other => ?_, htype, hpayload, hsource⟩
  · split
    · rw [sentView_sat, sentView_setTx, hview]
    · rw [sentView_setTx, hview]
  · have hset : txPeer (setTx serial { txPeer u serial with unacked := (txPeer u serial).unacked ++ [m'] } u) other =
        if other = serial then { txPeer s serial with unacked := (txPeer s serial).unacked ++ [m'] } else txPeer s other := by
      rw [txPeer_setTx, hpeer, hpeer]
    split
    · rw [txPeer_of_tx (congrArg JobX.tx (sat_same_job _ _ _ _ _)), hset]
    · exact hset

theorem produced_type (s : State) (m : TxMsg) : (m.produced s).type = m.type := by
  unfold TxMsg.produced
  split <;> rfl

theorem produced_source (s : State) (m : TxMsg) : (m.produced s).source = none := by
  unfold TxMsg.produced
  split
  · assumption
  · rfl

/-- The bytes of a payload whose end is still to be read. -/
def fullPayload (s : State) (payload : List Byte) : Option (Nat × Nat × Nat) → List Byte
  | none => payload
  | some r => payload ++ readBytes s r.1 r.2.1 r.2.2

theorem produced_payload (s : State) (m : TxMsg) : (m.produced s).payload = fullPayload s m.payload m.source := by
  unfold TxMsg.produced
  split
  next h => rw [h]; rfl
  next r h => rw [h]; rfl

/-- All the messages of a peer that are not acknowledged yet. -/
def TxPeer.all (x : TxPeer) : List TxMsg := x.unacked ++ x.held

/-- A message to a listed rank stands behind the others for its serial, as it is or with the bytes read that it ends with. -/
theorem sendMsg_listed {rank serial : Nat} {s : State} (h : serialOf s rank = some serial) (type : Nat) (payload : List Byte)
    (bad : List Nat) (source : Option (Nat × Nat × Nat)) :
    let t := (sendMsg rank type payload bad source s).2
    sentView t = sentView s ∧ (∀ other, other ≠ serial → txPeer t other = txPeer s other) ∧
      ∃ m, (txPeer t serial).all = (txPeer s serial).all ++ [m] ∧ m.type = type ∧
        ((m.payload = payload ∧ m.source = source) ∨ (m.payload = fullPayload s payload source ∧ m.source = none)) := by
  unfold sendMsg
  split
  case h_1 hnone => cases hnone.symm.trans h
  rename_i serial' hserial
  obtain rfl : serial' = serial := Option.some.inj (hserial.symm.trans h)
  extract_lets x m u y t
  have hbytes : fullPayload u payload source = fullPayload s payload source := by cases source <;> rfl
  have hpeer (other : Nat) : txPeer u other = if other = serial' then { x with nextId := (x.nextId + 1) % 2 ^ 32 } else txPeer s other :=
    txPeer_setTx _ _ _ _
  have hview : sentView u = sentView s := rfl
  have hm : m.type = type ∧ m.payload = payload ∧ m.source = source := ⟨rfl, rfl, rfl⟩
  clear_value m u
  obtain ⟨htype, hpayload, hsource⟩ := hm
  unfold t
  split
  next hroom =>
    obtain ⟨hsent, m', hall, htype', hpayload', hsource'⟩ := windowSend_kept_of serial' m u
    refine ⟨hsent.trans hview, fun other hne => ?_, m', ?_, ?_, .inr ⟨?_, ?_⟩⟩
    · rw [hall, if_neg hne, hpeer, if_neg hne]
    · rw [hall, if_pos rfl, hpeer, if_pos rfl]
      simp [TxPeer.all, List.isEmpty_iff.1 hroom.2, x]
    · rw [htype', produced_type, htype]
    · rw [hpayload', produced_payload, hpayload, hsource, hbytes]
    · rw [hsource', produced_source]
  · refine ⟨(sentView_setTx _ _ _).trans hview, fun other hne => ?_, m, ?_, htype, .inl ⟨hpayload, hsource⟩⟩
    · rw [txPeer_setTx, if_neg hne, hpeer, if_neg hne]
    · rw [txPeer_setTx, if_pos rfl, show y = txPeer u serial' from rfl, hpeer, if_pos rfl]
      simp [TxPeer.all, x]

/-! ### What is read through the view windows -/

/-- The fields that say where the view windows lie (R255). -/
def windowFields : List Nat :=
  [F.ex_STATE_PAGES, F.ex_MASTER_PAGES, F.ex_MASTER_HALF0, F.ex_MASTER_HALF1, F.ex_STATE_HALF0, F.ex_STATE_HALF1].map (·.fid)

theorem not_contains_windowField {m : Nat} (hm : m ∈ windowFields) (ns : List Nat)
    (hns : windowFields.all (fun k => !ns.contains k) = true) : ns.contains m = false := by
  simpa using List.all_eq_true.1 hns m hm

theorem memRef_of_windows {s t : State} (hvar : t.variant = s.variant) (hmaster : t.selMaster = s.selMaster)
    (hstate : t.selState = s.selState) (hfld : ∀ m ∈ windowFields, FieldKept m s t) (a : Nat) : memRef t a = memRef s a :=
  memRef_congr hvar hmaster hstate (fun f hf => hfld f.fid (List.mem_map_of_mem hf)) a

/-- Messages have been sent from `s` to `t`, and nothing else has happened. -/
structure Sent (s t : State) : Prop where
  view : sentView t = sentView s
  flds : ∀ m, [9, 10, 11, 446, 447, 448, 449, 456, 461].contains m = false → FieldKept m s t

section Sent

variable {s t u : State}

theorem Sent.refl (s : State) : Sent s s := ⟨rfl, fun m _ => FieldKept.refl m s⟩

theorem Sent.trans (h : Sent s t) (k : Sent t u) : Sent s u :=
  ⟨k.view.trans h.view, fun m hm => (h.flds m hm).trans (k.flds m hm)⟩

theorem Sent.variant (h : Sent s t) : t.variant = s.variant := (congrArg State.variant h.view :)

theorem Sent.mem (h : Sent s t) : t.mem = s.mem := (congrArg State.mem h.view :)

theorem Sent.tracker (h : Sent s t) : t.tracker = s.tracker := (congrArg State.tracker h.view :)

theorem Sent.rdU (h : Sent s t) {f : Field} (hf : [9, 10, 11, 446, 447, 448, 449, 456, 461].contains f.fid = false)
    (hp : f.fid ≠ F.ag_PROG_COUNT.fid) (v i : Nat) : rdU t f v i = rdU s f v i := (h.flds _ hf).rdU' h.variant hp v i

theorem Sent.memRef (h : Sent s t) (a : Nat) : memRef t a = memRef s a :=
  memRef_of_windows h.variant (congrArg State.selMaster h.view :) (congrArg State.selState h.view :)
    (fun m hm => h.flds m (not_contains_windowField hm _ (by decide))) a

theorem Sent.readBytes (h : Sent s t) (space a n : Nat) : readBytes t space a n = readBytes s space a n :=
  readBytes_of_memRef h.memRef h.mem space a n

theorem serialOf_of_view (h : t.job.view = s.job.view) (rank : Nat) : serialOf t rank = serialOf s rank := by
  rw [serialOf, serialOf, entryOf, entryOf, h]

theorem Sent.serialOf (h : Sent s t) (rank : Nat) : serialOf t rank = serialOf s rank :=
  serialOf_of_view (congrArg (fun u : State => u.job.view) h.view :) rank

theorem Sent.stepNo (h : Sent s t) : stepNo t = stepNo s := h.rdU (by decide) (by decide) _ _

theorem Sent.otherRanks (h : Sent s t) : otherRanks t = otherRanks s := by
  have hview : t.job.view = s.job.view := (congrArg (fun u : State => u.job.view) h.view :)
  have hrank : ownRank t = ownRank s := h.rdU (by decide) (by decide) _ _
  rw [Machine.otherRanks, Machine.otherRanks, hview, hrank]

end Sent

theorem sent_sendMsg (rank type : Nat) (payload : List Byte) (bad : List Nat) (source : Option (Nat × Nat × Nat)) (s : State) :
    Sent s (sendMsg rank type payload bad source s).2 := by
  refine ⟨?_, fun m hm => sendMsg_fld _ _ _ _ _ s hm (FieldKept.refl m s)⟩
  cases h : serialOf s rank with
  | none => rw [sendMsg, h]
  | some serial => exact (sendMsg_listed h type payload bad source).1

theorem linedUp_eq (s : State) (serial : Nat) :
    linedUp s serial = (txPeer s serial).all.map fun m => (m.type, m.payload, m.source) := rfl

theorem queuedTo_eq (s : State) (serial : Nat) :
    queuedTo s serial = (txPeer s serial).all.map fun m => (m.type, fullPayload s m.payload m.source) := by
  simp only [queuedTo, TxPeer.all, produced_payload]

theorem fullPayload_congr {s t : State} (h : ∀ space a n, readBytes t space a n = readBytes s space a n) (payload : List Byte)
    (source : Option (Nat × Nat × Nat)) : fullPayload t payload source = fullPayload s payload source := by
  cases source with
  | none => rfl
  | some r => rw [fullPayload, fullPayload, h]

theorem queuedTo_congr {s t : State} (htx : t.job.tx = s.job.tx) (h : ∀ space a n, readBytes t space a n = readBytes s space a n)
    (serial : Nat) : queuedTo t serial = queuedTo s serial := by
  simp only [queuedTo_eq, txPeer_of_tx htx, fullPayload_congr h]

/-- A message to a listed rank is the last one queued for its serial. -/
theorem queuedTo_sendMsg {rank serial : Nat} {s : State} (h : serialOf s rank = some serial) (type : Nat) (payload : List Byte)
    (bad : List Nat) (source : Option (Nat × Nat × Nat)) : queuedTo (sendMsg rank type payload bad source s).2 serial =
      queuedTo s serial ++ [(type, fullPayload s payload source)] := by
  have hread := fullPayload_congr (sent_sendMsg rank type payload bad source s).readBytes
  obtain ⟨-, -, m, hall, rfl, hm⟩ := sendMsg_listed h type payload bad source
  have hbytes : fullPayload s m.payload m.source = fullPayload s payload source := by
    rcases hm with ⟨hp, hs⟩ | ⟨hp, hs⟩
    · rw [hp, hs]
    · rw [hp, hs]
      rfl
  rw [queuedTo_eq, queuedTo_eq, hall]
  simp only [hread, List.map_append, List.map_cons, List.map_nil, hbytes]

/-- A message with all its bytes at hand is the last one lined up for its serial, and changes no other's messages. -/
theorem linedUp_sendMsg {rank serial : Nat} {s : State} (h : serialOf s rank = some serial) (type : Nat) (payload : List Byte)
    (bad : List Nat) (other : Nat) : linedUp (sendMsg rank type payload bad none s).2 other =
      linedUp s other ++ if other = serial then [(type, payload, none)] else [] := by
  obtain ⟨-, hother, m, hall, rfl, hm⟩ := sendMsg_listed h type payload bad none
  by_cases hserial : other = serial
  · subst hserial
    have hparts : m.payload = payload ∧ m.source = none := hm.elim id id
    rw [linedUp_eq, linedUp_eq, hall, if_pos rfl, ← hparts.1, ← hparts.2]
    simp
  · rw [linedUp_eq, linedUp_eq, hother other hserial, if_neg hserial, List.append_nil]

end Sys2Proof.Machine

namespace Sys2Proof.Machine

open Sys2Proof

/-! ### Operations and remote writes that are sent in turn -/

/-- One piece of a remote write leaves, the messages sent so far before it. -/
def sendPiece (peer raddr space base : Nat) (acc : List (Nat × Nat) × State) (o : Nat × Nat) : List (Nat × Nat) × State :=
  let r := sendWrite peer (raddr + o.1) (stepNo acc.2) space (base + o.1) o.2 acc.2
  (acc.1 ++ r.1.toList, r.2)

theorem sent_sendPieces (peer raddr space base : Nat) (l : List (Nat × Nat)) (acc : List (Nat × Nat) × State) :
    Sent acc.2 (l.foldl (sendPiece peer raddr space base) acc).2 := by
  induction l generalizing acc with
  | nil => exact Sent.refl _
  | cons o l ih =>
    have hone : Sent acc.2 (sendPiece peer raddr space base acc o).2 := sent_sendMsg _ _ _ _ _ _
    exact hone.trans (ih _)

/-- The pieces of a remote write are queued in order for the serial of its rank. -/
theorem queuedTo_sendPieces {peer serial : Nat} (raddr space base : Nat) (l : List (Nat × Nat)) (acc : List (Nat × Nat) × State)
    (h : serialOf acc.2 peer = some serial) : queuedTo (l.foldl (sendPiece peer raddr space base) acc).2 serial =
      queuedTo acc.2 serial ++ l.map fun o => (3, natLe 8 (raddr + o.1) ++ natLe 8 (stepNo acc.2) ++
        readBytes acc.2 space (base + o.1) o.2) := by
  induction l generalizing acc with
  | nil => simp
  | cons o l ih =>
    have hsent : Sent acc.2 (sendPiece peer raddr space base acc o).2 := sent_sendMsg _ _ _ _ _ _
    have hfirst : queuedTo (sendPiece peer raddr space base acc o).2 serial = queuedTo acc.2 serial ++
        [(3, natLe 8 (raddr + o.1) ++ natLe 8 (stepNo acc.2) ++ readBytes acc.2 space (base + o.1) o.2)] :=
      queuedTo_sendMsg h _ _ _ _
    rw [List.foldl_cons, ih _ ((hsent.serialOf peer).trans h), hfirst, List.map_cons, List.append_assoc, List.singleton_append]
    simp only [hsent.stepNo, hsent.readBytes]

/-- An operation goes to the ranks named, the messages sent so far before it. -/
def sendEach (type : Nat) (x : XOp) (acc : List (Nat × Nat) × State) (r : Nat) : List (Nat × Nat) × State :=
  let w := sendOp r type x acc.2
  (acc.1 ++ w.1.toList, w.2)

theorem sent_sendEach (type : Nat) (x : XOp) (ranks : List Nat) (acc : List (Nat × Nat) × State) :
    Sent acc.2 (ranks.foldl (sendEach type x) acc).2 := by
  induction ranks generalizing acc with
  | nil => exact Sent.refl _
  | cons r ranks ih =>
    have hone : Sent acc.2 (sendEach type x acc r).2 := sent_sendMsg _ _ _ _ _ _
    exact hone.trans (ih _)

theorem sendAll_eq (type : Nat) (x : XOp) (s : State) : sendAll type x s = (otherRanks s).foldl (sendEach type x) ([], s) := rfl

theorem sent_sendAll (type : Nat) (x : XOp) (s : State) : Sent s (sendAll type x s).2 :=
  sent_sendEach type x (otherRanks s) ([], s)

theorem linedUp_sendOp (rank type : Nat) (x : XOp) (s : State) (serial : Nat) : linedUp (sendOp rank type x s).2 serial =
    linedUp s serial ++ if serialOf s rank = some serial then [(type, x.bytes, none)] else [] := by
  cases h : serialOf s rank with
  | none =>
    have hnone : (sendOp rank type x s).2 = s := by
      rw [sendOp, sendReliable, sendMsg, h]
    rw [hnone]
    simp
  | some other =>
    rw [sendOp, sendReliable, linedUp_sendMsg h]
    simp only [Option.some.injEq, eq_comm]

/-- Ranks that the serial is not of bring it nothing. -/
theorem linedUp_sendEach_none {type serial : Nat} {x : XOp} {ranks : List Nat} (acc : List (Nat × Nat) × State)
    (h : ∀ r ∈ ranks, serialOf acc.2 r ≠ some serial) :
    linedUp (ranks.foldl (sendEach type x) acc).2 serial = linedUp acc.2 serial := by
  induction ranks generalizing acc with
  | nil => rfl
  | cons r ranks ih =>
    obtain ⟨hr, hrest⟩ := List.forall_mem_cons.1 h
    have hsent : Sent acc.2 (sendEach type x acc r).2 := sent_sendMsg _ _ _ _ _ _
    have hone : linedUp (sendEach type x acc r).2 serial = linedUp acc.2 serial := by
      rw [sendEach, linedUp_sendOp, if_neg hr, List.append_nil]
    rw [List.foldl_cons, ih _ fun r' hr' => by rw [hsent.serialOf]; exact hrest r' hr', hone]

/-- The one rank that the serial is of brings it the operation once. -/
theorem linedUp_sendEach_one {type serial rank : Nat} {x : XOp} {ranks : List Nat} (acc : List (Nat × Nat) × State)
    (hnodup : ranks.Nodup) (hmem : rank ∈ ranks) (hserial : serialOf acc.2 rank = some serial)
    (honly : ∀ r ∈ ranks, serialOf acc.2 r = some serial → r = rank) :
    linedUp (ranks.foldl (sendEach type x) acc).2 serial = linedUp acc.2 serial ++ [(type, x.bytes, none)] := by
  induction ranks generalizing acc with
  | nil => cases hmem
  | cons r ranks ih =>
    obtain ⟨hfresh, hnodup'⟩ := List.nodup_cons.1 hnodup
    obtain ⟨hr, honly'⟩ := List.forall_mem_cons.1 honly
    have hsent : Sent acc.2 (sendEach type x acc r).2 := sent_sendMsg _ _ _ _ _ _
    have hone : linedUp (sendEach type x acc r).2 serial = linedUp acc.2 serial ++
        if serialOf acc.2 r = some serial then [(type, x.bytes, none)] else [] := linedUp_sendOp _ _ _ _ _
    rw [List.foldl_cons]
    by_cases hrank : r = rank
    · subst hrank
      rw [linedUp_sendEach_none, hone, if_pos hserial]
      intro r' hr' hs
      rw [hsent.serialOf] at hs
      exact hfresh (honly' r' hr' hs ▸ hr')
    · have hrest : rank ∈ ranks := (List.mem_cons.1 hmem).resolve_left (Ne.symm hrank)
      rw [ih _ hnodup' hrest ((hsent.serialOf _).trans hserial) fun r' hr' hs => honly' r' hr' ((hsent.serialOf _).symm.trans hs),
        hone, if_neg fun hs => hrank (hr hs), List.append_nil]

theorem linedUp_sendAll {type serial rank : Nat} {x : XOp} {s : State} (h : ReachedAs s (otherRanks s) rank serial) :
    linedUp (sendAll type x s).2 serial = linedUp s serial ++ [(type, x.bytes, none)] := by
  obtain ⟨hnodup, hmem, hserial, honly⟩ := h
  exact linedUp_sendEach_one ([], s) hnodup hmem hserial honly

/-! ### An exchange command that issues (R171, R182) -/

/-- An exchange command starts and its sequencer moves on, where the tracker has room. -/
theorem xIssue_of_room {q : SeqId} {n : Nat} {act : Ctx → State → State} {s : State} (hroom : trackerCount s q.die < 32768) :
    xIssue q n act s = movedOn q n (pcIndex s q) (act (ctxOf s q) s) := by
  unfold xIssue
  dsimp only
  rw [if_neg (Nat.not_le.2 hroom)]
  rfl

section Exchange

variable {q : SeqId} {op : Nat} {s s1 u : State} {c : Cmd} {n : Nat} {toks : List Nat} (h : Issues q 7 op s s1 c n toks)

include h

/-- What its issue adds to the start of an exchange command, which leaves the state `u`. -/
theorem exchange_issued (hvar : u.variant = s1.variant) (hregs : FieldKept F.sq_ADDR_VAL.fid s1 u)
    (hpreds : FieldKept F.sq_PRED.fid s1 u) :
    pcIndex (movedOn q n (pcIndex s1 q) u) q = (pcIndex s q + 1) % 2 ^ 11 ∧
      SequencersKept s (movedOn q n (pcIndex s1 q) u) := by
  have hview : (movedOn q n (pcIndex s1 q) u).variant = u.variant := variant_of_unissued (movedOn_unissued _)
  refine ⟨by rw [movedOn_pcIndex, prepared_pcIndex h], ?_⟩
  exact sequencersKept_of_fields ((hview.trans hvar).trans (prepared_variant h))
    (((prepared_fld h (by decide)).trans hregs).trans (movedOn_fld (by decide)))
    (((prepared_fld h (by decide)).trans hpreds).trans (movedOn_fld (by decide)))

end Exchange

section Moved

variable (q : SeqId) (n pc : Nat) (u : State)

theorem movedOn_tracker : (movedOn q n pc u).tracker = u.tracker := tracker_of_unissued (movedOn_unissued pc)

theorem movedOn_job : (movedOn q n pc u).job = u.job := (congrArg State.job (movedOn_unissued (q := q) (n := n) (s := u) pc) :)

theorem movedOn_same_mem : (movedOn q n pc u).mem = u.mem := mem_of_unissued (movedOn_unissued pc)

theorem movedOn_memRef (a : Nat) : memRef (movedOn q n pc u) a = memRef u a := by
  have hview := movedOn_unissued (q := q) (n := n) (s := u) pc
  exact memRef_of_windows (variant_of_unissued hview) (congrArg State.selMaster hview :) (congrArg State.selState hview :)
    (fun m hm => movedOn_fld (not_contains_windowField hm _ (by decide))) a

theorem movedOn_readBytes (space a k : Nat) : readBytes (movedOn q n pc u) space a k = readBytes u space a k :=
  readBytes_of_memRef (movedOn_memRef q n pc u) (movedOn_same_mem q n pc u) space a k

end Moved

end Sys2Proof.Machine

namespace Sys2Proof.Machine

open Sys2Proof

/-! ### An entry added to the tracker -/

section Track

variable (p : PendingOp) (s : State)

theorem track_same_job : (track p s).job = s.job := (congrArg State.job (startView_track p s) :)

theorem track_same_mem : (track p s).mem = s.mem := (congrArg State.mem (startView_track p s) :)

theorem track_same_variant : (track p s).variant = s.variant := (congrArg State.variant (startView_track p s) :)

theorem track_memRef (a : Nat) : memRef (track p s) a = memRef s a :=
  memRef_of_windows (track_same_variant p s) (congrArg State.selMaster (startView_track p s) :)
    (congrArg State.selState (startView_track p s) :)
    (fun m hm => track_fld p s (not_contains_windowField hm _ (by decide)) (FieldKept.refl m s)) a

theorem track_readBytes (space a n : Nat) : readBytes (track p s) space a n = readBytes s space a n :=
  readBytes_of_memRef (track_memRef p s) (track_same_mem p s) space a n

theorem bx_track (b : Nat) : bx (track p s) b = bx s b := by
  rw [bx, bx, track_same_job]

end Track

/-! ### BUCKET_WAIT (R251) -/

/-- The entry of a BUCKET_WAIT as it waits. -/
def waitEntry (cmd : Cmd) (x : Ctx) : PendingOp :=
  { xOpEntry x cmd {} 0xF 0 with gate := false, bucket := some cmd.xBucket, layer := some (x.layer cmd), tid := x.tid cmd }

theorem startWait_eq (cmd : Cmd) (x : Ctx) (s : State) : startWait cmd x s =
    if (bx s cmd.xBucket).noticed then noticeGates cmd.xBucket (track (waitEntry cmd x) s) else track (waitEntry cmd x) s := by
  rw [← bx_track (waitEntry cmd x)]
  rfl

/-- A bucket's notice ends the newest wait for it. -/
theorem noticeGates_last {b l : Nat} {s : State} {before : List PendingOp} {p : PendingOp} (hs : s.tracker = before ++ [p])
    (hbucket : p.bucket = some b) (hlanded : p.landed = false) (hgate : p.gate = false) (hlayer : p.layer = some l) :
    (noticeGates b s).tracker.length = before.length + 1 ∧ ∃ p', (noticeGates b s).tracker.getLast? = some p' ∧ p'.tag = p.tag ∧
      p'.gate = true ∧ p'.token = waitToken s b p.tag p.gen := by
  unfold noticeGates
  dsimp only
  rw [hs, List.map_append, List.map_singleton]
  refine ⟨by simp, _, List.getLast?_concat, ?_⟩
  simp [hbucket, hlanded, hgate, hlayer]

theorem startWait_waits {cmd : Cmd} {x : Ctx} {s : State} (h : (bx s cmd.xBucket).noticed = false) :
    ∃ p, (startWait cmd x s).tracker = s.tracker ++ [p] ∧ p.tag = x.tag ∧ p.gate = false ∧ p.bucket = some cmd.xBucket ∧
      p.land = none := by
  rw [startWait_eq, h, if_neg Bool.false_ne_true]
  exact ⟨_, track_tracker _ _, rfl, rfl, rfl, rfl⟩

theorem startWait_ends {cmd : Cmd} {x : Ctx} {s : State} (h : (bx s cmd.xBucket).noticed = true) :
    (startWait cmd x s).tracker.length = s.tracker.length + 1 ∧ ∃ p, (startWait cmd x s).tracker.getLast? = some p ∧
      p.tag = x.tag ∧ p.gate = true ∧ p.token = waitToken s cmd.xBucket x.tag x.gen := by
  obtain ⟨hlen, p, hlast, htag, hgate, htoken⟩ :=
    noticeGates_last (b := cmd.xBucket) (l := x.layer cmd) (track_tracker (waitEntry cmd x) s) rfl rfl rfl rfl
  rw [startWait_eq, h, if_pos rfl]
  refine ⟨hlen, p, hlast, htag, hgate, htoken.trans ?_⟩
  rw [waitToken, waitToken, bx_track]
  rfl

/-! ### REMOTE_WRITE (R251, R308) -/

/-- The bytes that a REMOTE_WRITE moves. -/
def writeLen (cmd : Cmd) (x : Ctx) : Nat := xCount x cmd * elemBytes (xSrc x cmd).fmt

/-- The entry of a REMOTE_WRITE. -/
def writeEntry (cmd : Cmd) (x : Ctx) (s : State) : PendingOp :=
  let f : Fl := { nonfinite := !(poisonedWords s (xSrc x cmd).space (xSrc x cmd).base (writeLen cmd x)).isEmpty }
  { xOpEntry x cmd f 0xF (ceilDiv (writeLen cmd x) 64) with counts := layerCounts x cmd f }

/-- The pieces of a REMOTE_WRITE go to another rank. -/
def writeSent (cmd : Cmd) (x : Ctx) (s : State) : List (Nat × Nat) × State :=
  (pieces 8192 0 (writeLen cmd x)).foldl
    (sendPiece (bits cmd.w3 0 16) (bits cmd.w3 16 48) (xSrc x cmd).space (xSrc x cmd).base) ([], s)

/-- The pieces of a REMOTE_WRITE are stored in the device's own memory. -/
def writeStored (cmd : Cmd) (x : Ctx) (s : State) : State :=
  (pieces 8192 0 (writeLen cmd x)).foldl (fun s o => remoteStore (bits cmd.w3 16 48 + o.1)
    (readBytes s (xSrc x cmd).space ((xSrc x cmd).base + o.1) o.2)
    (badOffsets s (xSrc x cmd).space ((xSrc x cmd).base + o.1) o.2) s) s

section RemoteWrite

variable {q : SeqId} {cmd : Cmd} {n : Nat} {x : Ctx} {s : State}

theorem startRemoteWrite_eq (hclean : CleanReads [⟨(xSrc x cmd).space, (xSrc x cmd).base, writeLen cmd x⟩] s)
    (hearly : earlySummary s n [⟨(xSrc x cmd).space, (xSrc x cmd).base, writeLen cmd x⟩] = none) :
    startRemoteWrite q cmd n x s =
      if bits cmd.w3 0 16 = ownRank s && isMember s then track (writeEntry cmd x s) (cellarStruck (writeStored cmd x s))
      else track { writeEntry cmd x s with
          gate := (serialOf (writeSent cmd x s).2 (bits cmd.w3 0 16)).isSome, awaits := (writeSent cmd x s).1 }
        (writeSent cmd x s).2 := by
  unfold startRemoteWrite
  extract_lets d len peer raddr r u f p
  have hu : u = s := (congrArg (reportReads x.tag [r]) (guardReads_of_none hearly)).trans (reportReads_clean _ hclean)
  clear_value u
  subst hu
  rfl

theorem writeSent_sent : Sent s (writeSent cmd x s).2 := sent_sendPieces _ _ _ _ _ ([], s)

theorem bare_viewReport (space a n : Nat) (tag : Option Nat) (s : State) : bare (viewReport space a n tag s) = bare s := by
  unfold viewReport
  split <;> simp

theorem bare_poisonWord (space a : Nat) (s : State) : bare (poisonWord space a s) = bare s := by
  unfold poisonWord
  split <;> rfl

theorem bare_remoteStore (a : Nat) (bytes : List Byte) (bad : List Nat) (s : State) :
    bare (remoteStore a bytes bad s) = bare s := by
  unfold remoteStore storePoisoned
  rw [bare_viewReport, bare_foldl _ _ fun s o => (bare_satU _ _ _ _ _ _).trans (bare_poisonWord _ _ s), bare_storeMem]

theorem bare_writeStored : bare (writeStored cmd x s) = bare s := bare_foldl _ _ fun _ _ => bare_remoteStore _ _ _ _

theorem cellarStruck_same_tracker (s : State) : (cellarStruck s).tracker = s.tracker :=
  congrArg (fun v : State × (Nat → BucketX) => v.1.tracker) (stepView_cellarStruck s)

/-- Whichever rank a REMOTE_WRITE names, its entry is the tracker's last one. -/
theorem startRemoteWrite_tracker (hclean : CleanReads [⟨(xSrc x cmd).space, (xSrc x cmd).base, writeLen cmd x⟩] s)
    (hearly : earlySummary s n [⟨(xSrc x cmd).space, (xSrc x cmd).base, writeLen cmd x⟩] = none) :
    ∃ p, (startRemoteWrite q cmd n x s).tracker = s.tracker ++ [p] ∧ p.tag = x.tag ∧ p.land = none ∧
      p.gate = ((bits cmd.w3 0 16 = ownRank s ∧ isMember s = true) ∨ (serialOf s (bits cmd.w3 0 16)).isSome : Bool) := by
  rw [startRemoteWrite_eq hclean hearly]
  by_cases hown : bits cmd.w3 0 16 = ownRank s ∧ isMember s = true
  · have hstruck : (cellarStruck (writeStored cmd x s)).tracker = s.tracker :=
      (cellarStruck_same_tracker _).trans (tracker_of_bare bare_writeStored)
    rw [if_pos (by simpa using hown)]
    refine ⟨_, (track_tracker _ _).trans (congrArg (· ++ _) hstruck), rfl, rfl, ?_⟩
    simp [hown, writeEntry, xOpEntry]
  · rw [if_neg (by simpa using hown)]
    refine ⟨_, (track_tracker _ _).trans (congrArg (· ++ _) writeSent_sent.tracker), rfl, rfl, ?_⟩
    simp only [hown, false_or, Bool.decide_eq_true, writeSent_sent.serialOf]

/-- A REMOTE_WRITE to another rank queues its pieces for that rank's serial and leaves memory alone. -/
theorem startRemoteWrite_far (hclean : CleanReads [⟨(xSrc x cmd).space, (xSrc x cmd).base, writeLen cmd x⟩] s)
    (hearly : earlySummary s n [⟨(xSrc x cmd).space, (xSrc x cmd).base, writeLen cmd x⟩] = none)
    (hfar : bits cmd.w3 0 16 ≠ ownRank s ∨ isMember s = false) :
    MemKept s (startRemoteWrite q cmd n x s) ∧ ∀ serial, serialOf s (bits cmd.w3 0 16) = some serial →
      queuedTo (startRemoteWrite q cmd n x s) serial = queuedTo s serial ++ (pieces 8192 0 (writeLen cmd x)).map fun o =>
        (3, natLe 8 (bits cmd.w3 16 48 + o.1) ++ natLe 8 (stepNo s) ++
          readBytes s (xSrc x cmd).space ((xSrc x cmd).base + o.1) o.2) := by
  rw [startRemoteWrite_eq hclean hearly, if_neg (by
    rcases hfar with hfar | hfar <;> simp [hfar])]
  refine ⟨((MemKept.refl s).of_eq writeSent_sent.mem).of_eq (track_same_mem _ _), fun serial hserial => ?_⟩
  rw [queuedTo_congr (congrArg JobX.tx (track_same_job _ _)) (track_readBytes _ _)]
  exact queuedTo_sendPieces _ _ _ _ ([], s) hserial

end RemoteWrite

/-! ### A REMOTE_WRITE to the device itself -/

theorem memBytes_lt (v : Variant) : v.memBytes < 2 ^ 47 := by cases v <;> decide

/-- An address below the memory's end is no view window's. -/
theorem memRef_of_lt {s : State} {a : Nat} (h : a < s.variant.memBytes) : memRef s a = .at a := by
  have hlow : a < 2 ^ 47 := h.trans (memBytes_lt _)
  unfold memRef
  dsimp only
  rw [if_neg (by omega), if_pos h]

theorem beyondView_of_lt {s : State} {space a : Nat} (h : a < 2 ^ 47) (n : Nat) : beyondView s space a n = false := by
  rw [beyondView, decide_eq_false (by omega), Bool.false_and]

theorem newPoison_writeBytes (space a : Nat) (bs : List Byte) (s : State) : (writeBytes space a bs s).newPoison = s.newPoison := by
  induction bs generalizing a s with
  | nil => rfl
  | cons b bs ih =>
    rw [writeBytes, ih]
    unfold writeByte
    split <;> rfl

theorem newPoison_storeMem (a : Nat) (bs : List Byte) (s : State) : (storeMem a bs s).newPoison = s.newPoison := by
  have hkeep (u : State) : (keepOld memSpace a bs.length none u).newPoison = u.newPoison := by
    unfold keepOld
    split <;> rfl
  exact (newPoison_writeBytes _ _ _ _).trans (hkeep _)

/-- A range of at most `n` bytes is one piece. -/
theorem pieces_single {n len : Nat} (hpos : 0 < len) (hle : len ≤ n) : pieces n 0 len = [(0, len)] := by
  have hone : ceilDiv (len - 0) n = 1 := by
    rw [ceilDiv]
    exact Nat.div_eq_of_lt_le (by omega) (by omega)
  rw [pieces, hone]
  simp [hle]

section Near

variable {cmd : Cmd} {x : Ctx} {s : State} (hpoison : poisonedWords s (xSrc x cmd).space (xSrc x cmd).base (writeLen cmd x) = [])
  (hmem : bits cmd.w3 16 48 + writeLen cmd x ≤ s.variant.memBytes) (hlen : writeLen cmd x ≤ 8192)

include hpoison hmem hlen

/-- A short REMOTE_WRITE within memory is one store. -/
theorem writeStored_eq (hpos : 0 < writeLen cmd x) : writeStored cmd x s =
    storeMem (bits cmd.w3 16 48) (readBytes s (xSrc x cmd).space (xSrc x cmd).base (writeLen cmd x)) s := by
  have hlow : bits cmd.w3 16 48 < 2 ^ 47 := Nat.lt_of_lt_of_le (by omega) (memBytes_lt s.variant).le
  have hbad : badOffsets s (xSrc x cmd).space (xSrc x cmd).base (writeLen cmd x) = [] := by
    rw [badOffsets, hpoison, List.map_nil]
  rw [writeStored, pieces_single hpos hlen, List.foldl_cons, List.foldl_nil, Nat.add_zero, Nat.add_zero, hbad, remoteStore,
    viewReport, beyondView_of_lt hlow, if_neg Bool.false_ne_true]
  rfl

/-- What a short REMOTE_WRITE within memory leaves there. -/
theorem writeStored_reads (hnew : s.newPoison = []) : (writeStored cmd x s).newPoison = [] ∧
    readBytes (writeStored cmd x s) memSpace (bits cmd.w3 16 48) (writeLen cmd x) =
      readBytes s (xSrc x cmd).space (xSrc x cmd).base (writeLen cmd x) ∧
    ∀ k, ¬(k % 64 = memSpace ∧ bits cmd.w3 16 48 ≤ k / 64 ∧ k / 64 < bits cmd.w3 16 48 + writeLen cmd x) →
      cellGet k (writeStored cmd x s).mem = cellGet k s.mem := by
  rcases Nat.eq_zero_or_pos (writeLen cmd x) with hzero | hpos
  · have hsame : writeStored cmd x s = s := by
      rw [writeStored, hzero]
      rfl
    rw [hsame, hzero]
    exact ⟨hnew, rfl, fun _ _ => rfl⟩
  have hlength : (readBytes s (xSrc x cmd).space (xSrc x cmd).base (writeLen cmd x)).length = writeLen cmd x := by
    simp [readBytes]
  have hcell : ∀ i < writeLen cmd x, cellAt s memSpace (bits cmd.w3 16 48 + i) = some (cell memSpace (bits cmd.w3 16 48 + i)) := by
    intro i hi
    rw [cellAt, if_pos rfl, memRef_of_lt (by omega)]
  rw [writeStored_eq hpoison hmem hlen hpos]
  generalize readBytes s (xSrc x cmd).space (xSrc x cmd).base (writeLen cmd x) = bytes at hlength
  rw [← hlength] at hcell ⊢
  refine ⟨(newPoison_storeMem _ _ _).trans hnew, readBytes_storeAs none (fun i hi => ⟨_, hcell i hi⟩) ?_, fun k hk => ?_⟩
  · intro i j hi hj heq
    rw [hcell i hi, hcell j hj] at heq
    have hcells := Option.some.inj heq
    unfold cell at hcells
    omega
  · refine cellGet_storeAs_other none fun i hi heq => hk ?_
    rw [hcell i hi] at heq
    have hk' := Option.some.inj heq
    unfold cell memSpace at hk'
    unfold memSpace
    omega

end Near

theorem startRemoteWrite_near {q : SeqId} {cmd : Cmd} {n : Nat} {x : Ctx} {s : State}
    (hclean : CleanReads [⟨(xSrc x cmd).space, (xSrc x cmd).base, writeLen cmd x⟩] s)
    (hearly : earlySummary s n [⟨(xSrc x cmd).space, (xSrc x cmd).base, writeLen cmd x⟩] = none)
    (hown : bits cmd.w3 0 16 = ownRank s) (hmember : isMember s = true)
    (hmem : bits cmd.w3 16 48 + writeLen cmd x ≤ s.variant.memBytes) (hlen : writeLen cmd x ≤ 8192) (hnew : s.newPoison = []) :
    readBytes (startRemoteWrite q cmd n x s) memSpace (bits cmd.w3 16 48) (writeLen cmd x) =
        readBytes s (xSrc x cmd).space (xSrc x cmd).base (writeLen cmd x) ∧
      ∀ k, ¬(k % 64 = memSpace ∧ bits cmd.w3 16 48 ≤ k / 64 ∧ k / 64 < bits cmd.w3 16 48 + writeLen cmd x) →
        cellGet k (startRemoteWrite q cmd n x s).mem = cellGet k s.mem := by
  obtain ⟨hkept, hread, hframe⟩ := writeStored_reads (hclean _ List.mem_cons_self).1 hmem hlen hnew
  have hstruck : cellarStruck (writeStored cmd x s) = writeStored cmd x s := by
    rw [cellarStruck, hkept, List.isEmpty_nil, if_pos rfl]
  rw [startRemoteWrite_eq hclean hearly, if_pos (by simp [hown, hmember]), hstruck, track_readBytes, track_same_mem]
  exact ⟨hread, hframe⟩


/-! ### BUCKET_WAIT and REMOTE_WRITE as they issue -/

section Issued

variable {q : SeqId} {s s1 : State} {c : Cmd} {n : Nat} {toks : List Nat} (hroom : trackerCount s1 q.die < 32768)

include hroom

theorem bucketWait_issued (h : Issues q 7 6 s s1 c n toks) : Completes (.bucketWait q) s fun t =>
    ((bx s1 c.xBucket).noticed = false → ∃ p, t.tracker = s.tracker ++ [p] ∧ p.tag = seqTag s1 q ∧ p.gate = false ∧
      p.bucket = some c.xBucket ∧ p.land = none) ∧
    ((bx s1 c.xBucket).noticed = true → ∃ p, t.tracker.getLast? = some p ∧ t.tracker.length = s.tracker.length + 1 ∧
      p.tag = seqTag s1 q ∧ p.gate = true ∧ p.token = waitToken s1 c.xBucket (seqTag s1 q) (seqX s1 q).gen) ∧
    pcIndex t q = (pcIndex s q + 1) % 2 ^ 11 ∧ SequencersKept s t ∧ MemKept s t := by
  have htracker : s1.tracker = s.tracker := tracker_of_unissued (prepare_unissued h)
  obtain ⟨hpc, hseq⟩ := exchange_issued h (u := startWait c (ctxOf s1 q) s1) (startWait_kept _ _ _ (Kept.refl s1)).variant
    (startWait_fld _ _ _ (by decide) (FieldKept.refl _ s1)) (startWait_fld _ _ _ (by decide) (FieldKept.refl _ s1))
  refine streamCmd_completes (body := fun c t _ s => xIssue q t (startWait c) s) (fun _ => rfl) h ?_
  rw [xIssue_of_room hroom, movedOn_tracker]
  refine ⟨fun hopen => ?_, fun hnoticed => ?_, hpc, hseq, ?_⟩
  · obtain ⟨p, hp, htag, hgate, hbucket, hland⟩ := startWait_waits (cmd := c) (x := ctxOf s1 q) hopen
    exact ⟨p, by rw [hp, htracker], htag, hgate, hbucket, hland⟩
  · obtain ⟨hlen, p, hlast, htag, hgate, htoken⟩ := startWait_ends (cmd := c) (x := ctxOf s1 q) hnoticed
    exact ⟨p, hlast, by rw [hlen, htracker], htag, hgate, htoken⟩
  · exact ((prepared_mem h).trans (startWait_mem _ _ _ (MemKept.refl s1))).trans (movedOn_mem _)

theorem remoteWrite_issued (h : Issues q 7 5 s s1 c n toks)
    (hclean : CleanReads [⟨(xSrc (ctxOf s1 q) c).space, (xSrc (ctxOf s1 q) c).base, writeLen c (ctxOf s1 q)⟩] s1)
    (hearly : earlySummary s1 n [⟨(xSrc (ctxOf s1 q) c).space, (xSrc (ctxOf s1 q) c).base, writeLen c (ctxOf s1 q)⟩] = none) :
    let x := ctxOf s1 q
    let d := xSrc x c
    let peer := bits c.w3 0 16
    let raddr := bits c.w3 16 48
    Completes (.remoteWrite q) s fun t =>
      (∃ p, t.tracker = s.tracker ++ [p] ∧ p.tag = seqTag s1 q ∧ p.land = none ∧
        p.gate = ((peer = ownRank s1 ∧ isMember s1 = true) ∨ (serialOf s1 peer).isSome : Bool)) ∧
      (peer ≠ ownRank s1 ∨ isMember s1 = false → MemKept s t ∧ ∀ serial, serialOf s1 peer = some serial →
        queuedTo t serial = queuedTo s1 serial ++ (pieces 8192 0 (writeLen c x)).map fun o =>
          (3, natLe 8 (raddr + o.1) ++ natLe 8 (stepNo s1) ++ readBytes s1 d.space (d.base + o.1) o.2)) ∧
      (peer = ownRank s1 → isMember s1 = true → raddr + writeLen c x ≤ s1.variant.memBytes → writeLen c x ≤ 8192 →
        s1.newPoison = [] → readBytes t memSpace raddr (writeLen c x) = readBytes s1 d.space d.base (writeLen c x) ∧
        ∀ k, ¬(k % 64 = memSpace ∧ raddr ≤ k / 64 ∧ k / 64 < raddr + writeLen c x) → cellGet k t.mem = cellGet k s.mem) ∧
      pcIndex t q = (pcIndex s q + 1) % 2 ^ 11 ∧ SequencersKept s t := by
  intro x d peer raddr
  have htracker : s1.tracker = s.tracker := tracker_of_unissued (prepare_unissued h)
  obtain ⟨hpc, hseq⟩ := exchange_issued h (u := startRemoteWrite q c n x s1)
    (startRemoteWrite_kept _ _ _ _ _ (Kept.refl s1)).variant
    (startRemoteWrite_fld _ _ _ _ _ (by decide) (FieldKept.refl _ s1))
    (startRemoteWrite_fld _ _ _ _ _ (by decide) (FieldKept.refl _ s1))
  refine streamCmd_completes (body := fun c t _ s => xIssue q t (startRemoteWrite q c t) s) (fun _ => rfl) h ?_
  rw [xIssue_of_room hroom, movedOn_tracker]
  refine ⟨?_, fun hfar => ?_, fun hown hmember hmem hlen hnew => ?_, hpc, hseq⟩
  · obtain ⟨p, hp, htag, hland, hgate⟩ := startRemoteWrite_tracker (q := q) hclean hearly
    exact ⟨p, by rw [hp, htracker], htag, hland, hgate⟩
  · obtain ⟨hmem, hqueued⟩ := startRemoteWrite_far (q := q) hclean hearly hfar
    refine ⟨((prepared_mem h).trans hmem).trans (movedOn_mem _), fun serial hserial => ?_⟩
    rw [queuedTo_congr (congrArg JobX.tx (movedOn_job _ _ _ _)) (movedOn_readBytes _ _ _ _)]
    exact hqueued serial hserial
  · obtain ⟨hread, hframe⟩ := startRemoteWrite_near (q := q) hclean hearly hown hmember hmem hlen hnew
    rw [movedOn_readBytes, movedOn_same_mem]
    exact ⟨hread, fun k hk => (hframe k hk).trans ((prepared_mem h).same k)⟩

end Issued

end Sys2Proof.Machine

namespace Sys2Proof.Machine

open Sys2Proof

/-! ### What the start of a DELTA_BCAST adds (R258) -/

/-- Every member applies its own deltas of the bucket (R297). -/
def mirrors (s : State) (b : Nat) : Bool := rdb s F.rs_MIRROR 0 0 && isMember s && bucketDefined s b

/-- A DELTA_BCAST of the bucket does something on this device. -/
def deltaActs (s : State) (b : Nat) : Bool := ownerHere s b || partnerHere s b || mirrors s b

/-- What a DELTA_BCAST reads where it does something: the weight changes and the moments. -/
def deltaReads (cmd : Cmd) (x : Ctx) (s : State) : List Range :=
  [⟨(xSrc x cmd).space, (xSrc x cmd).base, 4 * xCount x cmd⟩,
   ⟨(xAux x cmd).space, (xAux x cmd).base, ceilDiv (4 * xCount x cmd) 64 * 64 * uMoments s cmd.xBucket⟩]

/-- The DELTA operations of a DELTA_BCAST by the role of the device, and what their conversions meet. -/
def deltaRun (cmd : Cmd) (x : Ctx) (s : State) : List XOp × Fl :=
  if ownerHere s cmd.xBucket || mirrors s cmd.xBucket then (deltaOps x cmd s).run {} else ([], {})

/-- The writes of its moments, and what their conversions meet. -/
def momentRun (cmd : Cmd) (x : Ctx) (s : State) : List (Nat × List Byte) × Fl :=
  if deltaActs s cmd.xBucket then (momentWrites x cmd s).run {} else ([], {})

/-- What the conversions of a DELTA_BCAST meet. -/
def deltaFlags (cmd : Cmd) (x : Ctx) (s : State) : Fl :=
  let f := (deltaRun cmd x s).2
  let g := (momentRun cmd x s).2
  { nonfinite := f.nonfinite || g.nonfinite, overflow := g.overflow, overs := g.overs, unders := f.unders + g.unders }

/-- The entry of a DELTA_BCAST. -/
def deltaEntry (q : SeqId) (cmd : Cmd) (x : Ctx) (s : State) : PendingOp :=
  let b := cmd.xBucket
  let f := deltaFlags cmd x s
  { xOpEntry x cmd f 0 (if ownerHere s b && !mirrors s b then xCount x cmd else 0) with
    gate := (deltaRun cmd x s).1.isEmpty || mirrors s b || exchangeStopped s, bucket := some b, overs := f.overs, tid := x.tid cmd
    counts := [⟨F.ex_OVERFLOW_ELEMS, unitOf 0x41 q.die, 0, f.overs⟩, ⟨F.ex_UNDERFLOWS, unitOf 0x41 q.die, 0, f.unders⟩] ++
      layerCounts x cmd f }

/-- What is kept of a DELTA_BCAST until the commit (R273, R290). -/
def deltaRec (cmd : Cmd) (x : Ctx) (s : State) : SendRec :=
  { id := s.opCount, die := x.die, tag := x.tag, op := 4, cmd := cmd, ctx := x, bucket := cmd.xBucket, first := x.elemBase cmd
    count := xCount x cmd, ordered := ownerHere s cmd.xBucket, nonfinite := false, overflow := false, span := xCount x cmd }

/-- The moments are written. -/
def momentsStored (tag : Nat) (ms : List (Nat × List Byte)) (s : State) : State :=
  ms.foldl (fun s w => viewReport memSpace w.1 w.2.length (some tag) (storeMem w.1 w.2 s)) s

/-- The state with the command kept and its moments written. -/
def deltaKept (q : SeqId) (cmd : Cmd) (x : Ctx) (s : State) : State :=
  modBx cmd.xBucket (fun y => { y with momentsHere := true }) (momentsStored x.tag (momentRun cmd x s).1
    (modJob (fun j => { j with deltas := j.deltas ++ [deltaRec cmd x s] }) (track (deltaEntry q cmd x s) s)))

section Start

variable {q : SeqId} {cmd : Cmd} {n : Nat} {x : Ctx} {s : State}

/-- A DELTA_BCAST whose reads change nothing. -/
theorem startDelta_of_reads {reads : List Range} (hreads : reads = if deltaActs s cmd.xBucket then deltaReads cmd x s else [])
    (hsame : reportReads x.tag reads (guardReads q x.tag x.gen n reads s) = s) : startDelta q cmd n x s =
      if deltaActs s cmd.xBucket then flushDeltas cmd.xBucket
        (ownDeltas s.opCount cmd.xBucket (deltaRun cmd x s).1 (!mirrors s cmd.xBucket) (deltaKept q cmd x s))
      else track (deltaEntry q cmd x s) s := by
  unfold startDelta
  extract_lets b k mirror owner acts d a reads' u
  have hu : u = s := by
    rw [← hsame, hreads]
    rfl
  clear_value u
  subst hu
  rfl

theorem startDelta_idle (h : deltaActs s cmd.xBucket = false) : startDelta q cmd n x s = track (deltaEntry q cmd x s) s := by
  rw [startDelta_of_reads (reads := []) (by simp [h]) rfl, h, if_neg Bool.false_ne_true]

theorem startDelta_eq (h : deltaActs s cmd.xBucket = true) (hclean : CleanReads (deltaReads cmd x s) s)
    (hearly : earlySummary s n (deltaReads cmd x s) = none) :
    startDelta q cmd n x s = flushDeltas cmd.xBucket
      (ownDeltas s.opCount cmd.xBucket (deltaRun cmd x s).1 (!mirrors s cmd.xBucket) (deltaKept q cmd x s)) := by
  have hsame : reportReads x.tag (deltaReads cmd x s) (guardReads q x.tag x.gen n (deltaReads cmd x s) s) = s := by
    rw [guardReads_of_none hearly, reportReads_clean _ hclean]
  rw [startDelta_of_reads (by simp [h]) hsame, h, if_pos rfl]

end Start

/-! ### What the device's own deltas leave alone (R260) -/

/-- What an applied delta moves of no bucket. -/
def quietBx (x : BucketX) : BucketX := { x with applied := [], lastSeen := false, updated := false }

/-- What an applied delta moves nothing of, registers, memory and the buckets apart. -/
def quietRest (s : State) : State := { bare s with job := { s.job with buckets := [], updNonfinite := false } }

/-- Both. -/
def quietView (s : State) : State × (Nat → BucketX) := (quietRest s, fun b => quietBx (bx s b))

theorem quietView_of_bare {s t : State} (h : bare t = bare s) : quietView t = quietView s := by
  change quietView (bare t) = quietView (bare s)
  rw [h]

theorem quietView_modBx (b : Nat) {f : BucketX → BucketX} (s : State) (hf : ∀ x, quietBx (f x) = quietBx x) :
    quietView (modBx b f s) = quietView s := by
  refine Prod.ext rfl (funext fun c => ?_)
  change quietBx (bx (setBx b (f (bx s b)) s) c) = quietBx (bx s c)
  rw [bx_setBx]
  split
  next hc => rw [hc, hf]
  · rfl

theorem quietView_refreshPending (s : State) : quietView (refreshPending s) = quietView s :=
  quietView_of_bare (bare_foldl _ _ fun _ _ => rfl)

theorem quietView_checkUpdated (b : Nat) (s : State) : quietView (checkUpdated b s) = quietView s := by
  unfold checkUpdated
  dsimp only
  split
  · rw [quietView_refreshPending, quietView_of_bare (bare_sat _ _ _ _ _)]
    exact quietView_modBx b s fun _ => rfl
  · rfl

theorem quietView_updNonfinite (s : State) : quietView (modJob (fun j => { j with updNonfinite := true }) s) = quietView s := rfl

theorem quietView_applyDelta (x : XOp) (s : State) : quietView (applyDelta x s) = quietView s := by
  unfold applyDelta
  extract_lets b bs ys cur alt s1 s2 bad i counted s3 y seen
  have hs2 : quietView s2 = quietView s :=
    quietView_of_bare (((bare_viewReport _ _ _ _ _).trans (bare_storeMem _ _ _)).trans (bare_partReport _ _ _))
  have hs3 : quietView s3 = quietView s := by
    rw [← hs2]
    have hcount : quietView counted = quietView s2 := quietView_of_bare ((bare_sat _ _ _ _ _).trans (bare_setb _ _ _ _ _))
    unfold s3
    clear_value counted s2
    split
    · rfl
    · exact (quietView_updNonfinite counted).trans hcount
  rw [quietView_checkUpdated, ← hs3]
  clear_value s3
  exact quietView_modBx b (f := fun y => { y with
    applied := if y.applied.contains (x.first, x.count) then y.applied else y.applied ++ [(x.first, x.count)]
    lastSeen := y.lastSeen || bitOf x.flags 0 }) s3 fun _ => rfl

theorem quietView_ownDelta (o : XOp) (s : State) : quietView (ownDelta o s) = quietView s := by
  unfold ownDelta
  split
  · exact quietView_of_bare (bare_sat _ _ _ _ _)
  · exact quietView_applyDelta o s

/-! ### What a DELTA_BCAST counts as sent (R259) -/

/-- What every run of a calculation maps to, a list of runs maps to. -/
theorem map_mapM_run {α β γ : Type} {f : α → Calc β} {g : β → γ} {e : α → γ} (h : ∀ a w, g ((f a).run w).1 = e a) (l : List α) (w : Fl) :
    (((l.mapM f).run w).1).map g = l.map e := by
  induction l generalizing w with
  | nil => rfl
  | cons a l ih =>
    rw [List.mapM_cons]
    change g ((f a).run w).1 :: (((l.mapM f).run ((f a).run w).2).1).map g = _
    rw [h, ih, List.map_cons]

theorem sum_filter_ne_zero {α : Type} (f : α → Nat) (l : List α) : ((l.filter fun a => f a != 0).map f).sum = (l.map f).sum := by
  induction l with
  | nil => rfl
  | cons a l ih =>
    by_cases ha : f a = 0
    · simp [ha, ih]
    · simp [ha, ih]

/-- The first `m` pieces from `a` on, cut off below `lo`, cover what lies from `lo` to their end. -/
theorem sum_cutPieces_take {n a lo z : Nat} (ha : a ≤ lo) (m : Nat) (hm : ∀ k < m, a + n * k < z) :
    ((List.range m).map fun k => a + n * k + min n (z - (a + n * k)) - max (a + n * k) lo).sum = min (a + n * m) z - lo := by
  induction m with
  | zero =>
    simp only [List.range_zero, List.map_nil, List.sum_nil]
    omega
  | succ m ih =>
    have hlast := hm m m.lt_succ_self
    rw [List.range_succ, List.map_append, List.sum_append, ih fun k hk => hm k (Nat.lt_succ_of_lt hk), Nat.mul_succ]
    simp only [List.map_cons, List.map_nil, List.sum_cons, List.sum_nil]
    omega

/-- Pieces from `a` on, cut off below `lo`, cover `[lo, z)`. -/
theorem sum_cutPieces {n a lo z : Nat} (hn : 0 < n) (ha : a ≤ lo) :
    (((pieces n a z).map fun p => (max p.1 lo, p.1 + p.2 - max p.1 lo)).map (·.2)).sum = z - lo := by
  have hinside : ∀ k < ceilDiv (z - a) n, a + n * k < z := fun k hk => by
    rw [ceilDiv, Nat.lt_div_iff_mul_lt hn, Nat.mul_comm] at hk
    omega
  have hend : z - a ≤ n * ceilDiv (z - a) n := by
    have hdiv := Nat.div_add_mod (z - a + n - 1) n
    have hmod := Nat.mod_lt (z - a + n - 1) hn
    rw [ceilDiv]
    omega
  have hsum := sum_cutPieces_take ha (ceilDiv (z - a) n) hinside
  rw [pieces, List.map_map, List.map_map]
  refine hsum.trans ?_
  omega

theorem mkOp_count (s : State) (op b first count flags : Nat) (data : List Byte) :
    (mkOp s op b first count flags data).count = count % 2 ^ 16 := by
  unfold mkOp XOp.count bits
  dsimp only
  omega

theorem pieces_le {n a z : Nat} {p : Nat × Nat} (h : p ∈ pieces n a z) : p.2 ≤ n := by
  obtain ⟨k, -, rfl⟩ := List.mem_map.1 h
  exact Nat.min_le_left _ _

theorem sum_deltaOps (x : Ctx) (cmd : Cmd) (s : State) (w : Fl) :
    ((((deltaOps x cmd s).run w).1).map (·.count)).sum = xCount x cmd := by
  unfold deltaOps
  extract_lets b first blk bs rnd cuts
  have hsum : (cuts.map (·.2)).sum = xCount x cmd := by
    rw [sum_cutPieces (by decide) (Nat.div_mul_le_self _ _)]
    omega
  have hshort : ∀ p ∈ cuts, p.2 < 2 ^ 16 := by
    intro p hp
    obtain ⟨p', hp', rfl⟩ := List.mem_map.1 hp
    have hle := pieces_le hp'
    dsimp only
    omega
  have hkept : (cuts.filter (·.2 != 0)).map (fun p => p.2 % 2 ^ 16) = (cuts.filter (·.2 != 0)).map (·.2) :=
    List.map_congr_left fun p hp => Nat.mod_eq_of_lt (hshort p (List.mem_of_mem_filter hp))
  rw [map_mapM_run (e := fun p => p.2 % 2 ^ 16), hkept, sum_filter_ne_zero, hsum]
  exact fun p w => mkOp_count _ _ _ _ _ _ _

end Sys2Proof.Machine

namespace Sys2Proof.Machine

open Sys2Proof

/-! ### The owner's DELTA operations, one after another (R258, R259) -/

section Quiet

variable {s t : State} (h : quietView t = quietView s)

include h

theorem quiet_tracker : t.tracker = s.tracker := congrArg (fun v : State × (Nat → BucketX) => v.1.tracker) h

theorem quiet_tx : t.job.tx = s.job.tx := congrArg (fun v : State × (Nat → BucketX) => v.1.job.tx) h

theorem quiet_deltas : t.job.deltas = s.job.deltas := congrArg (fun v : State × (Nat → BucketX) => v.1.job.deltas) h

theorem quiet_view : t.job.view = s.job.view := congrArg (fun v : State × (Nat → BucketX) => v.1.job.view) h

theorem quiet_bx (b : Nat) : quietBx (bx t b) = quietBx (bx s b) := congrArg (fun v : State × (Nat → BucketX) => v.2 b) h

end Quiet

/-- A bucket's sent elements and kept deltas apart, what its own deltas move nothing of. -/
def ownView (b : Nat) (s : State) : State × (Nat → BucketX) :=
  (quietRest s, fun c => if c = b then { quietBx (bx s c) with deltaSent := 0, heldDeltas := [] } else quietBx (bx s c))

theorem ownView_of_quiet {b : Nat} {s t : State} (h : quietView t = quietView s) : ownView b t = ownView b s := by
  have hrest : quietRest t = quietRest s := congrArg Prod.fst h
  unfold ownView
  simp only [hrest, quiet_bx h]

theorem ownView_modBx {b : Nat} {f : BucketX → BucketX} (s : State)
    (hf : ∀ x, { quietBx (f x) with deltaSent := 0, heldDeltas := [] } = { quietBx x with deltaSent := 0, heldDeltas := [] }) :
    ownView b (modBx b f s) = ownView b s := by
  refine Prod.ext rfl (funext fun c => ?_)
  change (if c = b then { quietBx (bx (setBx b (f (bx s b)) s) c) with deltaSent := 0, heldDeltas := [] }
    else quietBx (bx (setBx b (f (bx s b)) s) c)) = if c = b then _ else _
  rw [bx_setBx]
  split
  next hc => rw [hc, hf]
  · rfl

theorem bx_modBx (b : Nat) (f : BucketX → BucketX) (s : State) : bx (modBx b f s) b = f (bx s b) := by
  rw [modBx, bx_setBx, if_pos rfl]

/-- One of an owner's DELTA operations as it is marked. -/
def marked (limit sent : Nat) (o : XOp) : XOp := if limit ≤ sent + o.count then { o with w1 := splice o.w1 48 1 1 } else o

theorem markLast_eq (b : Nat) (o : XOp) (s : State) : markLast b o s =
    (marked (bElems s b) (bx s b).deltaSent o, modBx b (fun x => { x with deltaSent := (bx s b).deltaSent + o.count }) s) := rfl

/-- One of an owner's DELTA operations is kept to be sent, or taken here. -/
def ownStep (id b : Nat) (send : Bool) (s : State) (o : XOp) : State :=
  let m := markLast b o s
  if send then modBx b (fun x => { x with heldDeltas := x.heldDeltas ++ [(id, m.1)] }) m.2 else ownDelta m.1 m.2

theorem ownDeltas_eq (id b : Nat) (os : List XOp) (send : Bool) (s : State) :
    ownDeltas id b os send s = os.foldl (ownStep id b send) s := rfl

theorem ownStep_view (id b : Nat) (send : Bool) (s : State) (o : XOp) : ownView b (ownStep id b send s o) = ownView b s ∧
    (bx (ownStep id b send s o) b).deltaSent = (bx s b).deltaSent + o.count := by
  have hmark : ownView b (markLast b o s).2 = ownView b s := ownView_modBx s fun _ => rfl
  have hsent : (bx (markLast b o s).2 b).deltaSent = (bx s b).deltaSent + o.count := by
    rw [markLast_eq, bx_modBx]
  unfold ownStep
  generalize markLast b o s = m at hmark hsent
  cases send
  · have hquiet := quietView_ownDelta m.1 m.2
    exact ⟨(ownView_of_quiet hquiet).trans hmark, (congrArg BucketX.deltaSent (quiet_bx hquiet b)).trans hsent⟩
  · have hheld := ownView_modBx (b := b) (f := fun x => { x with heldDeltas := x.heldDeltas ++ [(id, m.1)] }) m.2 fun _ => rfl
    refine ⟨hheld.trans hmark, ?_⟩
    rw [← hsent]
    dsimp only
    rw [if_pos rfl, bx_modBx]

theorem ownDeltas_view (id b : Nat) (os : List XOp) (send : Bool) (s : State) :
    ownView b (ownDeltas id b os send s) = ownView b s ∧
      (bx (ownDeltas id b os send s) b).deltaSent = (bx s b).deltaSent + (os.map (·.count)).sum := by
  rw [ownDeltas_eq]
  induction os generalizing s with
  | nil => exact ⟨rfl, rfl⟩
  | cons o os ih =>
    obtain ⟨hview, hsent⟩ := ownStep_view id b send s o
    obtain ⟨hviews, hsum⟩ := ih (ownStep id b send s o)
    refine ⟨hviews.trans hview, ?_⟩
    rw [List.foldl_cons, hsum, hsent, List.map_cons, List.sum_cons, Nat.add_assoc]

/-- The operations as they are marked, `sent` elements having been sent before. -/
def markedAll (limit : Nat) : Nat → List XOp → List XOp
  | _, [] => []
  | sent, o :: os => marked limit sent o :: markedAll limit (sent + o.count) os

theorem bElems_of_view {b c : Nat} {s t : State} (h : ownView b t = ownView b s) : bElems t c = bElems s c := by
  have htable : t.job.table = s.job.table := congrArg (fun v : State × (Nat → BucketX) => v.1.job.table) h
  rw [bElems, bElems, descWord, descWord, htable]

/-- Deltas that wait to be sent are kept in order as they are marked. -/
theorem ownDeltas_held (id b : Nat) (os : List XOp) (s : State) : (bx (ownDeltas id b os true s) b).heldDeltas =
    (bx s b).heldDeltas ++ (markedAll (bElems s b) (bx s b).deltaSent os).map fun o => (id, o) := by
  rw [ownDeltas_eq]
  induction os generalizing s with
  | nil => simp [markedAll]
  | cons o os ih =>
    obtain ⟨hview, hsent⟩ := ownStep_view id b true s o
    have hone : (bx (ownStep id b true s o) b).heldDeltas =
        (bx s b).heldDeltas ++ [(id, marked (bElems s b) (bx s b).deltaSent o)] := by
      unfold ownStep
      rw [markLast_eq]
      dsimp only
      rw [if_pos rfl, bx_modBx, bx_modBx]
    rw [List.foldl_cons, ih, hone, hsent, bElems_of_view hview, markedAll, List.map_cons, List.append_assoc, List.singleton_append]

/-- Marked by what has been sent before each of them. -/
theorem markedAll_eq (limit sent : Nat) (os : List XOp) : markedAll limit sent os = os.zipIdx.map fun oi =>
    if limit ≤ sent + ((os.take (oi.2 + 1)).map (·.count)).sum then { oi.1 with w1 := splice oi.1.w1 48 1 1 } else oi.1 := by
  induction os generalizing sent with
  | nil => rfl
  | cons o os ih =>
    rw [markedAll, ih, List.zipIdx_cons', List.map_cons, List.map_map]
    refine congrArg₂ List.cons (by simp [marked]) (List.map_congr_left fun oi _ => ?_)
    simp only [Function.comp_apply, List.take_succ_cons, List.map_cons, List.sum_cons, Nat.add_assoc]
    rfl

/-! ### Held deltas leave (R258, R273) -/

/-- What the deltas of a bucket leave alone as they go to the members, this device among them: neither the messages nor the
tracker nor what a bucket has taken. -/
def calmRest (s : State) : State :=
  { quietRest s with tracker := [], lineBusy := [], out := [], job := { (quietRest s).job with tx := [], rx := [] } }

def calmBx (x : BucketX) : BucketX := { quietBx x with heldDeltas := [] }

/-- The same with every bucket, and each entry of the tracker by its tag and its landing. -/
def calmView (s : State) : (State × (Nat → BucketX)) × List (Nat × Option Nat) :=
  ((calmRest s, fun b => calmBx (bx s b)), s.tracker.map fun p => (p.tag, p.land))

theorem calmView_of_quiet {s t : State} (h : quietView t = quietView s) : calmView t = calmView s := by
  have hrest : quietRest t = quietRest s := congrArg Prod.fst h
  have hbx (b : Nat) : calmBx (bx t b) = calmBx (bx s b) := congrArg (fun x : BucketX => { x with heldDeltas := [] }) (quiet_bx h b)
  unfold calmView calmRest
  simp only [hrest, hbx, quiet_tracker h]

theorem calmView_of_sent {s t : State} (h : Sent s t) : calmView t = calmView s := by
  change calmView (sentView t) = calmView (sentView s)
  rw [h.view]

theorem calmView_modOp (id : Nat) {f : PendingOp → PendingOp} (hf : ∀ p, (f p).tag = p.tag ∧ (f p).land = p.land) (s : State) :
    calmView (modOp id f s) = calmView s := by
  have htags : (modOp id f s).tracker.map (fun p => (p.tag, p.land)) = s.tracker.map fun p => (p.tag, p.land) := by
    unfold modOp
    dsimp only
    rw [List.map_map]
    refine List.map_congr_left fun p _ => ?_
    dsimp only [Function.comp_apply]
    split
    · rw [(hf p).1, (hf p).2]
    · rfl
  exact Prod.ext rfl htags

/-- A command may end when its messages are acknowledged. -/
def gateOp (id : Nat) (s : State) : State := modOp id (fun p => { p with gate := true }) s

/-- A command waits for the messages `ws` too. -/
def awaitOp (id : Nat) (ws : List (Nat × Nat)) (s : State) : State := modOp id (fun p => { p with awaits := p.awaits ++ ws }) s

theorem calmView_gateOp (id : Nat) (s : State) : calmView (gateOp id s) = calmView s :=
  calmView_modOp id (f := fun p => { p with gate := true }) (fun _ => ⟨rfl, rfl⟩) s

theorem calmView_awaitOp (id : Nat) (ws : List (Nat × Nat)) (s : State) : calmView (awaitOp id ws s) = calmView s :=
  calmView_modOp id (f := fun p => { p with awaits := p.awaits ++ ws }) (fun _ => ⟨rfl, rfl⟩) s

/-- A held operation leaves, its command waiting for the acknowledgements. -/
def flushOne (s : State) (h : Nat × XOp) : State :=
  let r := sendAll typeDelta h.2 (ownDelta h.2 s)
  awaitOp h.1 r.1 r.2

theorem calmView_flushOne (s : State) (h : Nat × XOp) : calmView (flushOne s h) = calmView s := by
  unfold flushOne
  dsimp only
  rw [calmView_awaitOp, calmView_of_sent (sent_sendAll _ _ _), calmView_of_quiet (quietView_ownDelta _ _)]

/-- Deltas of the bucket leave. -/
def flushed (b : Nat) (s : State) : State :=
  (bx s b).heldDeltas.foldl (fun s h => gateOp h.1 s)
    (modBx b (fun x => { x with heldDeltas := [] }) ((bx s b).heldDeltas.foldl flushOne s))

theorem flushDeltas_eq (b : Nat) (s : State) :
    flushDeltas b s = if (bx s b).heldDeltas.isEmpty || !mayDelta s b then s else flushed b s := rfl

theorem calmView_modBx (b : Nat) {f : BucketX → BucketX} (hf : ∀ x, calmBx (f x) = calmBx x) (s : State) :
    calmView (modBx b f s) = calmView s := by
  refine Prod.ext (Prod.ext rfl (funext fun c => ?_)) rfl
  change calmBx (bx (setBx b (f (bx s b)) s) c) = calmBx (bx s c)
  rw [bx_setBx]
  split
  next hc => rw [hc, hf]
  · rfl

theorem calmView_flushDeltas (b : Nat) (s : State) : calmView (flushDeltas b s) = calmView s := by
  rw [flushDeltas_eq]
  split
  · rfl
  · have hgates (hs : List (Nat × XOp)) (s : State) : calmView (hs.foldl (fun s h => gateOp h.1 s) s) = calmView s :=
      foldl_same calmView (f := fun s (h : Nat × XOp) => gateOp h.1 s) (fun s h => calmView_gateOp h.1 s) hs s
    have hdrop (s : State) : calmView (modBx b (fun x => { x with heldDeltas := [] }) s) = calmView s :=
      calmView_modBx b (f := fun x => { x with heldDeltas := [] }) (fun _ => rfl) s
    rw [flushed, hgates, hdrop, foldl_same calmView calmView_flushOne]

theorem foldl_gateOp_same_job (hs : List (Nat × XOp)) (s : State) : (hs.foldl (fun s h => gateOp h.1 s) s).job = s.job :=
  foldl_same State.job (f := fun s (h : Nat × XOp) => gateOp h.1 s) (fun _ _ => rfl) hs s

theorem flushed_held (b : Nat) (s : State) : (bx (flushed b s) b).heldDeltas = [] := by
  rw [bx, flushed, foldl_gateOp_same_job]
  exact congrArg BucketX.heldDeltas (bx_modBx b _ _)

/-- What decides to which serial the ranks' messages go. -/
def reachView (s : State) : List ViewEntry × Nat := (s.job.view, ownRank s)

theorem otherRanks_of_reach {s t : State} (h : reachView t = reachView s) : otherRanks t = otherRanks s := by
  have hview : t.job.view = s.job.view := congrArg Prod.fst h
  have hrank : ownRank t = ownRank s := congrArg Prod.snd h
  rw [otherRanks, otherRanks, hview, hrank]

theorem reachedAs_of_reach {s t : State} (h : reachView t = reachView s) {rank serial : Nat}
    (hr : ReachedAs s (otherRanks s) rank serial) : ReachedAs t (otherRanks t) rank serial := by
  have hview : t.job.view = s.job.view := congrArg Prod.fst h
  obtain ⟨hnodup, hmem, hserial, honly⟩ := hr
  rw [otherRanks_of_reach h]
  exact ⟨hnodup, hmem, (serialOf_of_view hview rank).trans hserial,
    fun r hr hs => honly r hr ((serialOf_of_view hview r).symm.trans hs)⟩

theorem reachView_ownDelta (o : XOp) (s : State) : reachView (ownDelta o s) = reachView s := by
  have hvar : (ownDelta o s).variant = s.variant := (ownDelta_kept o s (Kept.refl s)).variant
  exact Prod.ext (quiet_view (quietView_ownDelta o s))
    ((ownDelta_fld o s (by decide) (FieldKept.refl F.ex_RANK.fid s)).rdU' hvar (by decide) _ _)

theorem reachView_of_sent {s t : State} (h : Sent s t) : reachView t = reachView s :=
  Prod.ext (congrArg (fun u : State => u.job.view) h.view :) (h.rdU (by decide) (by decide) _ _)

theorem linedUp_of_tx {s t : State} (h : t.job.tx = s.job.tx) (serial : Nat) : linedUp t serial = linedUp s serial := by
  rw [linedUp_eq, linedUp_eq, txPeer_of_tx h]

/-- Each held operation follows what was lined up for a serial that one rank alone has. -/
theorem linedUp_flushOnes {rank serial : Nat} (hs : List (Nat × XOp)) (s : State) (h : ReachedAs s (otherRanks s) rank serial) :
    linedUp (hs.foldl flushOne s) serial = linedUp s serial ++ hs.map fun o => (2, o.2.bytes, none) := by
  induction hs generalizing s with
  | nil => simp
  | cons o hs ih =>
    have hreach := reachedAs_of_reach (reachView_ownDelta o.2 s) h
    have hsent := sent_sendAll typeDelta o.2 (ownDelta o.2 s)
    have hone : linedUp (flushOne s o) serial = linedUp s serial ++ [(2, o.2.bytes, none)] := by
      have hall := linedUp_sendAll (type := typeDelta) (x := o.2) hreach
      rw [linedUp_of_tx (quiet_tx (quietView_ownDelta o.2 s))] at hall
      exact hall
    have hnext : ReachedAs (flushOne s o) (otherRanks (flushOne s o)) rank serial :=
      reachedAs_of_reach (s := (sendAll typeDelta o.2 (ownDelta o.2 s)).2) rfl (reachedAs_of_reach (reachView_of_sent hsent) hreach)
    rw [List.foldl_cons, ih _ hnext, hone, List.map_cons, List.append_assoc, List.singleton_append]

theorem linedUp_flushed {rank serial : Nat} (b : Nat) (s : State) (h : ReachedAs s (otherRanks s) rank serial) :
    linedUp (flushed b s) serial = linedUp s serial ++ (bx s b).heldDeltas.map fun o => (2, o.2.bytes, none) := by
  have htx : (flushed b s).job.tx = ((bx s b).heldDeltas.foldl flushOne s).job.tx := by
    rw [flushed, foldl_gateOp_same_job]
    rfl
  rw [← linedUp_flushOnes _ s h, linedUp_of_tx htx]

end Sys2Proof.Machine

namespace Sys2Proof.Machine

open Sys2Proof

/-! ### The state in which a DELTA_BCAST is kept -/

section Stored

variable (tag : Nat) (ms : List (Nat × List Byte))

theorem bare_momentsStored (s : State) : bare (momentsStored tag ms s) = bare s :=
  bare_foldl _ _ fun s _ => (bare_viewReport _ _ _ _ _).trans (bare_storeMem _ _ s)

theorem momentsStored_fld {m : Nat} (hm : [9, 10, 11, 670, 682, 685, 689, 697, 698, 699, 703, 704, 705].contains m = false)
    (s : State) : FieldKept m s (momentsStored tag ms s) :=
  FieldKept.foldl _ (fun _ _ h => viewReport_fld _ _ _ _ _ hm (storeMem_fld _ _ _ _ h)) (FieldKept.refl m s)

theorem storeMem_memRef (a : Nat) (bs : List Byte) (s : State) (c : Nat) : memRef (storeMem a bs s) c = memRef s c := by
  have hbare := bare_storeMem a bs s
  exact memRef_of_windows (variant_of_bare hbare) (congrArg State.selMaster hbare :) (congrArg State.selState hbare :)
    (fun m _ => storeMem_fld a bs s m (FieldKept.refl m s)) c

variable {ms} {s0 u : State} (href : ∀ a, memRef u a = memRef s0 a)

include href

/-- A store that meets no page beyond a view is not reported. -/
theorem momentStored_clean {w : Nat × List Byte} (hview : beyondView s0 memSpace w.1 w.2.length = false) :
    viewReport memSpace w.1 w.2.length (some tag) (storeMem w.1 w.2 u) = storeMem w.1 w.2 u := by
  have hsame : beyondView (storeMem w.1 w.2 u) memSpace w.1 w.2.length = false :=
    (beyondView_of_memRef (fun a => (storeMem_memRef _ _ u a).trans (href a)) _ _ _).trans hview
  rw [viewReport, hsame, if_neg Bool.false_ne_true]

/-- A byte of none of the moments stays. -/
theorem momentsStored_frame (hview : ∀ w ∈ ms, beyondView s0 memSpace w.1 w.2.length = false) {k : Nat}
    (hk : ∀ w ∈ ms, ∀ i < w.2.length, cellAt s0 memSpace (w.1 + i) ≠ some k) :
    cellGet k (momentsStored tag ms u).mem = cellGet k u.mem := by
  unfold momentsStored
  induction ms generalizing u with
  | nil => rfl
  | cons w ms ih =>
    obtain ⟨hw, hrest⟩ := List.forall_mem_cons.1 hview
    obtain ⟨hkw, hkrest⟩ := List.forall_mem_cons.1 hk
    rw [List.foldl_cons, momentStored_clean tag href hw, ih (fun a => (storeMem_memRef _ _ u a).trans (href a)) hrest hkrest]
    exact cellGet_storeAs_other none fun i hi => by rw [cellAt_of_memRef href]; exact hkw i hi

/-- One plane of moments at cells of its own is read back. -/
theorem momentsStored_reads {w : Nat × List Byte} (hview : beyondView s0 memSpace w.1 w.2.length = false)
    (hcell : ∀ i < w.2.length, ∃ k, cellAt s0 memSpace (w.1 + i) = some k)
    (hown : ∀ i j, i < w.2.length → j < w.2.length → cellAt s0 memSpace (w.1 + i) = cellAt s0 memSpace (w.1 + j) → i = j) :
    readBytes (momentsStored tag [w] u) memSpace w.1 w.2.length = w.2 := by
  have hsame := cellAt_of_memRef href memSpace
  rw [momentsStored, List.foldl_cons, List.foldl_nil, momentStored_clean tag href hview]
  refine readBytes_storeAs none (fun i hi => ?_) fun i j hi hj he => hown i j hi hj ?_
  · rw [hsame]
    exact hcell i hi
  · rwa [hsame, hsame] at he

end Stored

section Kept

variable (q : SeqId) (cmd : Cmd) (x : Ctx) (s : State)

/-- The state with the command kept, its moments still to be written. -/
def deltaNoted : State := modJob (fun j => { j with deltas := j.deltas ++ [deltaRec cmd x s] }) (track (deltaEntry q cmd x s) s)

theorem deltaKept_eq : deltaKept q cmd x s = modBx cmd.xBucket (fun y => { y with momentsHere := true })
    (momentsStored x.tag (momentRun cmd x s).1 (deltaNoted q cmd x s)) := rfl

theorem deltaNoted_job : (deltaNoted q cmd x s).job = { s.job with deltas := s.job.deltas ++ [deltaRec cmd x s] } := by
  rw [deltaNoted, modJob]
  dsimp only
  rw [track_same_job]

theorem deltaNoted_memRef (a : Nat) : memRef (deltaNoted q cmd x s) a = memRef s a := track_memRef _ s a

theorem deltaStored_job : (momentsStored x.tag (momentRun cmd x s).1 (deltaNoted q cmd x s)).job =
    { s.job with deltas := s.job.deltas ++ [deltaRec cmd x s] } :=
  (congrArg State.job (bare_momentsStored x.tag (momentRun cmd x s).1 (deltaNoted q cmd x s)) :).trans (deltaNoted_job q cmd x s)

/-- What the command leaves of the job beside the buckets. -/
theorem deltaKept_job : (deltaKept q cmd x s).job =
    { s.job with deltas := s.job.deltas ++ [deltaRec cmd x s], buckets := (deltaKept q cmd x s).job.buckets } := by
  have hjob := deltaStored_job q cmd x s
  rw [deltaKept_eq]
  revert hjob
  generalize momentsStored x.tag (momentRun cmd x s).1 (deltaNoted q cmd x s) = u
  intro hjob
  rw [modBx, setBx]
  dsimp only
  rw [hjob]

theorem deltaKept_bx : bx (deltaKept q cmd x s) cmd.xBucket = { bx s cmd.xBucket with momentsHere := true } := by
  have hsame : bx (momentsStored x.tag (momentRun cmd x s).1 (deltaNoted q cmd x s)) cmd.xBucket = bx s cmd.xBucket := by
    rw [bx, deltaStored_job, bx]
  rw [deltaKept_eq, bx_modBx, hsame]

theorem deltaKept_tracker : (deltaKept q cmd x s).tracker =
    s.tracker ++ [{ deltaEntry q cmd x s with start := nowNs s, id := s.opCount }] :=
  (tracker_of_bare (bare_momentsStored x.tag (momentRun cmd x s).1 (deltaNoted q cmd x s))).trans (track_tracker _ s)

theorem deltaKept_variant : (deltaKept q cmd x s).variant = s.variant :=
  (variant_of_bare (bare_momentsStored x.tag (momentRun cmd x s).1 (deltaNoted q cmd x s))).trans (track_same_variant _ s)

theorem deltaKept_fld {m : Nat} (hm : [9, 10, 11, 207, 208, 670, 682, 685, 689, 697, 698, 699, 703, 704, 705].contains m = false) :
    FieldKept m s (deltaKept q cmd x s) := by
  have hnoted : FieldKept m s (deltaNoted q cmd x s) := (track_fld _ s (sub_ne _ _ (by decide) hm) (FieldKept.refl m s)).of_eq rfl
  exact (hnoted.trans (momentsStored_fld _ _ (sub_ne _ _ (by decide) hm) _)).of_eq rfl

theorem reachView_deltaKept : reachView (deltaKept q cmd x s) = reachView s :=
  Prod.ext (congrArg JobX.view (deltaKept_job q cmd x s) :)
    ((deltaKept_fld q cmd x s (by decide)).rdU' (deltaKept_variant q cmd x s) (by decide) _ _)

end Kept

/-! ### When deltas may leave (R273, R295) -/

/-- What decides whether the owner may send the deltas of a bucket. -/
theorem mayDelta_congr {s t : State} {b : Nat} (hreach : reachView t = reachView s) (htable : t.job.table = s.job.table)
    (htx : t.job.tx = s.job.tx) (hwalks : t.job.walks = s.job.walks) (hvalid : (bx t b).cellarValid = (bx s b).cellarValid)
    (hshards : (bx t b).shards = (bx s b).shards) : mayDelta t b = mayDelta s b := by
  have hview : t.job.view = s.job.view := congrArg Prod.fst hreach
  have hrank : ownRank t = ownRank s := congrArg Prod.snd hreach
  have hout (w : Nat × Nat) : outstanding t w = outstanding s w := by
    rw [outstanding, outstanding, txPeer_of_tx htx]
  have hpair : bPartner t b = bPartner s b := by
    rw [bPartner, bPartner, descWord, descWord, htable]
  have hpartner : partnerOfBucket t b = partnerOfBucket s b := by
    unfold partnerOfBucket
    rw [hpair, hrank]
    dsimp only
    rw [serialOf_of_view hview]
  have hbusy : walkBusy t b (·.master) = walkBusy s b (·.master) := by
    simp only [walkBusy, hwalks, hout]
  simp only [mayDelta, hpartner, hvalid, hshards, hout, hbusy]

section Calm

variable {s t : State} (h : calmView t = calmView s)

include h

theorem calm_tags : t.tracker.map (fun p => (p.tag, p.land)) = s.tracker.map fun p => (p.tag, p.land) := congrArg Prod.snd h

theorem calm_bx (b : Nat) : calmBx (bx t b) = calmBx (bx s b) := congrFun (congrArg Prod.snd (congrArg Prod.fst h)) b

theorem calm_momentsHere (b : Nat) : (bx t b).momentsHere = (bx s b).momentsHere := (congrArg BucketX.momentsHere (calm_bx h b) :)

theorem calm_deltaSent (b : Nat) : (bx t b).deltaSent = (bx s b).deltaSent := (congrArg BucketX.deltaSent (calm_bx h b) :)

theorem calm_deltas : t.job.deltas = s.job.deltas :=
  (congrArg (fun u : State => u.job.deltas) (congrArg Prod.fst (congrArg Prod.fst h)) :)

end Calm

section Begun

variable (q : SeqId) (cmd : Cmd) (x : Ctx) (s : State)

/-- The state in which the deltas of the command stand ready to leave. -/
def deltaReady : State := ownDeltas s.opCount cmd.xBucket (deltaRun cmd x s).1 (!mirrors s cmd.xBucket) (deltaKept q cmd x s)

theorem deltaReady_view : ownView cmd.xBucket (deltaReady q cmd x s) = ownView cmd.xBucket (deltaKept q cmd x s) :=
  (ownDeltas_view _ _ _ _ _).1

theorem deltaReady_rest : quietRest (deltaReady q cmd x s) = quietRest (deltaKept q cmd x s) :=
  congrArg Prod.fst (deltaReady_view q cmd x s)

/-- The moments of the bucket stand, and the elements of the command are counted. -/
theorem deltaReady_bx : (bx (deltaReady q cmd x s) cmd.xBucket).momentsHere = true ∧
    (bx (deltaReady q cmd x s) cmd.xBucket).deltaSent = (bx s cmd.xBucket).deltaSent +
      (if ownerHere s cmd.xBucket || mirrors s cmd.xBucket then xCount x cmd else 0) := by
  obtain ⟨hview, hsent⟩ := ownDeltas_view s.opCount cmd.xBucket (deltaRun cmd x s).1 (!mirrors s cmd.xBucket) (deltaKept q cmd x s)
  have hcount : ((deltaRun cmd x s).1.map (·.count)).sum =
      if ownerHere s cmd.xBucket || mirrors s cmd.xBucket then xCount x cmd else 0 := by
    rw [deltaRun]
    split
    · exact sum_deltaOps x cmd s {}
    · rfl
  have hmoments := congrArg (fun v : State × (Nat → BucketX) => (v.2 cmd.xBucket).momentsHere) hview
  simp only [ownView, if_true] at hmoments
  refine ⟨hmoments.trans ?_, hsent.trans ?_⟩
  · rw [deltaKept_bx]
    rfl
  · rw [deltaKept_bx, hcount]

theorem deltaReady_tracker : (deltaReady q cmd x s).tracker =
    s.tracker ++ [{ deltaEntry q cmd x s with start := nowNs s, id := s.opCount }] :=
  (congrArg State.tracker (deltaReady_rest q cmd x s) :).trans (deltaKept_tracker q cmd x s)

theorem deltaReady_deltas : (deltaReady q cmd x s).job.deltas = s.job.deltas ++ [deltaRec cmd x s] :=
  (congrArg (fun u : State => u.job.deltas) (deltaReady_rest q cmd x s) :).trans (congrArg JobX.deltas (deltaKept_job q cmd x s) :)

theorem deltaReady_tx : (deltaReady q cmd x s).job.tx = s.job.tx :=
  (congrArg (fun u : State => u.job.tx) (deltaReady_rest q cmd x s) :).trans (congrArg JobX.tx (deltaKept_job q cmd x s) :)

theorem deltaReady_walks : (deltaReady q cmd x s).job.walks = s.job.walks :=
  (congrArg (fun u : State => u.job.walks) (deltaReady_rest q cmd x s) :).trans (congrArg JobX.walks (deltaKept_job q cmd x s) :)

theorem deltaKept_table : (deltaKept q cmd x s).job.table = s.job.table := (congrArg JobX.table (deltaKept_job q cmd x s) :)

theorem deltaReady_table : (deltaReady q cmd x s).job.table = s.job.table :=
  (congrArg (fun u : State => u.job.table) (deltaReady_rest q cmd x s) :).trans (deltaKept_table q cmd x s)

theorem reachView_deltaReady : reachView (deltaReady q cmd x s) = reachView s := by
  have hvar : (deltaReady q cmd x s).variant = (deltaKept q cmd x s).variant :=
    (congrArg State.variant (deltaReady_rest q cmd x s) :)
  have hrank : FieldKept F.ex_RANK.fid (deltaKept q cmd x s) (deltaReady q cmd x s) :=
    ownDeltas_fld _ _ _ _ _ (by decide) (FieldKept.refl _ _)
  rw [← reachView_deltaKept q cmd x s]
  exact Prod.ext (congrArg (fun u : State => u.job.view) (deltaReady_rest q cmd x s) :) (hrank.rdU' hvar (by decide) _ _)

theorem mayDelta_deltaReady : mayDelta (deltaReady q cmd x s) cmd.xBucket = mayDelta s cmd.xBucket := by
  have hbx := congrArg (fun v : State × (Nat → BucketX) => v.2 cmd.xBucket) (deltaReady_view q cmd x s)
  simp only [ownView, if_true, deltaKept_bx] at hbx
  exact mayDelta_congr (reachView_deltaReady q cmd x s) (deltaReady_table q cmd x s) (deltaReady_tx q cmd x s)
    (deltaReady_walks q cmd x s) (congrArg BucketX.cellarValid hbx :) (congrArg BucketX.shards hbx :)

/-- The command is kept, and its entry is the tracker's last one, whatever leaves then. -/
theorem deltaFlushed_keeps : let u := flushDeltas cmd.xBucket (deltaReady q cmd x s)
    u.tracker.length = s.tracker.length + 1 ∧ (∃ p, u.tracker.getLast? = some p ∧ p.tag = x.tag ∧ p.land = none) ∧
      u.job.deltas = s.job.deltas ++ [deltaRec cmd x s] ∧ (bx u cmd.xBucket).momentsHere = true ∧
      (bx u cmd.xBucket).deltaSent = (bx s cmd.xBucket).deltaSent +
        (if ownerHere s cmd.xBucket || mirrors s cmd.xBucket then xCount x cmd else 0) := by
  intro u
  have hcalm : calmView u = calmView (deltaReady q cmd x s) := calmView_flushDeltas _ _
  clear_value u
  have htags : u.tracker.map (fun p => (p.tag, p.land)) = s.tracker.map (fun p => (p.tag, p.land)) ++ [(x.tag, none)] := by
    rw [calm_tags hcalm, deltaReady_tracker, List.map_append]
    rfl
  obtain ⟨hmoments, hsent⟩ := deltaReady_bx q cmd x s
  refine ⟨?_, ?_, (calm_deltas hcalm).trans (deltaReady_deltas q cmd x s), (calm_momentsHere hcalm _).trans hmoments,
    (calm_deltaSent hcalm _).trans hsent⟩
  · simpa using congrArg List.length htags
  · have hlast := congrArg List.getLast? htags
    rw [List.getLast?_concat, List.getLast?_map] at hlast
    obtain ⟨p, hp, hpair⟩ := Option.map_eq_some_iff.1 hlast
    exact ⟨p, hp, congrArg Prod.fst hpair, congrArg Prod.snd hpair⟩

end Begun

end Sys2Proof.Machine

namespace Sys2Proof.Machine

open Sys2Proof

/-! ### DELTA_BCAST by the role of the device (R258, R259) -/

section Roles

variable {q : SeqId} {cmd : Cmd} {n : Nat} {x : Ctx} {s : State}

/-- Where neither the owner's operations nor mirrored ones are made, the entry may end at once. -/
theorem deltaEntry_gate (hown : ownerHere s cmd.xBucket = false) (hmirror : mirrors s cmd.xBucket = false) :
    (deltaEntry q cmd x s).gate = true := by
  simp [deltaEntry, deltaRun, hown, hmirror]

/-- A command that does something starts in the state in which its deltas stand ready. -/
theorem startDelta_ready (h : deltaActs s cmd.xBucket = true) (hclean : CleanReads (deltaReads cmd x s) s)
    (hearly : earlySummary s n (deltaReads cmd x s) = none) :
    startDelta q cmd n x s = flushDeltas cmd.xBucket (deltaReady q cmd x s) := startDelta_eq h hclean hearly

/-- What a DELTA_BCAST leaves, whatever it does. -/
theorem startDelta_entry (hreads : deltaActs s cmd.xBucket = true → CleanReads (deltaReads cmd x s) s ∧
    earlySummary s n (deltaReads cmd x s) = none) : (startDelta q cmd n x s).tracker.length = s.tracker.length + 1 ∧
      ∃ p, (startDelta q cmd n x s).tracker.getLast? = some p ∧ p.tag = x.tag ∧ p.land = none := by
  cases h : deltaActs s cmd.xBucket with
  | false =>
    rw [startDelta_idle h, track_tracker]
    exact ⟨by simp, _, List.getLast?_concat, rfl, rfl⟩
  | true =>
    obtain ⟨hclean, hearly⟩ := hreads h
    obtain ⟨hlen, hlast, -⟩ := deltaFlushed_keeps q cmd x s
    rw [startDelta_ready h hclean hearly]
    exact ⟨hlen, hlast⟩

theorem startDelta_none (h : deltaActs s cmd.xBucket = false) :
    (∃ p, (startDelta q cmd n x s).tracker = s.tracker ++ [p] ∧ p.gate = true) ∧
      (startDelta q cmd n x s).job.deltas = s.job.deltas ∧ MemKept s (startDelta q cmd n x s) := by
  obtain ⟨⟨hown, -⟩, hmirror⟩ : (ownerHere s cmd.xBucket = false ∧ partnerHere s cmd.xBucket = false) ∧
      mirrors s cmd.xBucket = false := by
    simpa [deltaActs] using h
  rw [startDelta_idle h, track_same_job]
  exact ⟨⟨_, track_tracker _ _, deltaEntry_gate (q := q) hown hmirror⟩, rfl, (MemKept.refl s).of_eq (track_same_mem _ _)⟩

section Partner

variable (hpartner : partnerHere s cmd.xBucket = true) (hown : ownerHere s cmd.xBucket = false)
  (hmirror : mirrors s cmd.xBucket = false) (hheld : (bx s cmd.xBucket).heldDeltas = [])

include hpartner hown hmirror hheld

/-- A partner keeps the command and writes its moments, and sends nothing. -/
theorem startDelta_partner (hclean : CleanReads (deltaReads cmd x s) s)
    (hearly : earlySummary s n (deltaReads cmd x s) = none) : startDelta q cmd n x s = deltaKept q cmd x s := by
  have hacts : deltaActs s cmd.xBucket = true := by simp [deltaActs, hpartner]
  have hready : deltaReady q cmd x s = deltaKept q cmd x s := by
    simp [deltaReady, deltaRun, hown, hmirror, ownDeltas_eq]
  have hnone : (bx (deltaKept q cmd x s) cmd.xBucket).heldDeltas = [] := by
    rw [deltaKept_bx]
    exact hheld
  rw [startDelta_ready hacts hclean hearly, hready, flushDeltas_eq, hnone]
  rfl

end Partner

theorem momentRun_of_acts (h : deltaActs s cmd.xBucket = true) : momentRun cmd x s = (momentWrites x cmd s).run {} := by
  rw [momentRun, h, if_pos rfl]

/-- What a partner's moments are written to, and nothing else. -/
theorem deltaKept_moments (h : deltaActs s cmd.xBucket = true)
    (hview : ∀ w ∈ ((momentWrites x cmd s).run {}).1, beyondView s memSpace w.1 w.2.length = false) :
    (∀ k, (∀ w ∈ ((momentWrites x cmd s).run {}).1, ∀ i < w.2.length, cellAt s memSpace (w.1 + i) ≠ some k) →
      cellGet k (deltaKept q cmd x s).mem = cellGet k s.mem) ∧
    ∀ w, ((momentWrites x cmd s).run {}).1 = [w] → (∀ i < w.2.length, ∃ k, cellAt s memSpace (w.1 + i) = some k) →
      (∀ i j, i < w.2.length → j < w.2.length → cellAt s memSpace (w.1 + i) = cellAt s memSpace (w.1 + j) → i = j) →
      readBytes (deltaKept q cmd x s) memSpace w.1 w.2.length = w.2 := by
  have href := deltaNoted_memRef q cmd x s
  rw [← momentRun_of_acts h] at hview ⊢
  have hmem : (deltaNoted q cmd x s).mem = s.mem := track_same_mem _ s
  refine ⟨fun k hk => ?_, fun w hw hcell hsole => ?_⟩
  · exact (momentsStored_frame x.tag href hview hk).trans (by rw [hmem])
  · have hread := momentsStored_reads x.tag href (hview w (by simp [hw])) hcell hsole
    rw [deltaKept_eq, hw]
    exact hread

section Owner

variable (hown : ownerHere s cmd.xBucket = true) (hmirror : mirrors s cmd.xBucket = false)
  (hheld : (bx s cmd.xBucket).heldDeltas = [])

include hown hmirror hheld

/-- An owner's deltas stand ready with its marks. -/
theorem deltaReady_held : (bx (deltaReady q cmd x s) cmd.xBucket).heldDeltas =
    (markedAll (bElems s cmd.xBucket) (bx s cmd.xBucket).deltaSent ((deltaOps x cmd s).run {}).1).map
      fun o => (s.opCount, o) := by
  have hlimit : bElems (deltaKept q cmd x s) cmd.xBucket = bElems s cmd.xBucket := by
    rw [bElems, bElems, descWord, descWord, deltaKept_table]
  have hrun : deltaRun cmd x s = (deltaOps x cmd s).run {} := by simp [deltaRun, hown]
  rw [deltaReady, hmirror, hrun]
  refine (ownDeltas_held _ _ _ _).trans ?_
  rw [hlimit, deltaKept_bx]
  dsimp only
  rw [hheld, List.nil_append]

/-- An owner's deltas wait, or go to every other rank. -/
theorem startDelta_owner (hclean : CleanReads (deltaReads cmd x s) s) (hearly : earlySummary s n (deltaReads cmd x s) = none) :
    let u := startDelta q cmd n x s
    let os := markedAll (bElems s cmd.xBucket) (bx s cmd.xBucket).deltaSent ((deltaOps x cmd s).run {}).1
    (mayDelta s cmd.xBucket = false →
      (bx u cmd.xBucket).heldDeltas = os.map (fun o => (s.opCount, o)) ∧ u.job.tx = s.job.tx) ∧
    (mayDelta s cmd.xBucket = true → (bx u cmd.xBucket).heldDeltas = [] ∧
      ∀ rank serial, ReachedAs s (otherRanks s) rank serial →
        linedUp u serial = linedUp s serial ++ os.map fun o => (2, o.bytes, none)) := by
  have hacts : deltaActs s cmd.xBucket = true := by simp [deltaActs, hown]
  have hready := deltaReady_held (q := q) (x := x) hown hmirror hheld
  have hmay := mayDelta_deltaReady q cmd x s
  have htx := deltaReady_tx q cmd x s
  have hreach := reachView_deltaReady q cmd x s
  intro u os
  have hu : u = flushDeltas cmd.xBucket (deltaReady q cmd x s) := startDelta_ready hacts hclean hearly
  clear_value u
  subst hu
  rw [flushDeltas_eq, hmay]
  revert hready htx hreach
  generalize deltaReady q cmd x s = v
  intro hready htx hreach
  refine ⟨fun hwait => ?_, fun hgo => ?_⟩
  · rw [hwait, Bool.not_false, Bool.or_true, if_pos rfl]
    exact ⟨hready, htx⟩
  · rw [hgo, Bool.not_true, Bool.or_false]
    split
    next hnone =>
      have hos : os = [] := by simpa [hready] using hnone
      refine ⟨by rw [hready, show markedAll _ _ _ = [] from hos]; rfl, fun rank serial _ => ?_⟩
      rw [hos, linedUp_of_tx htx, List.map_nil, List.append_nil]
    · refine ⟨flushed_held _ _, fun rank serial hr => ?_⟩
      rw [linedUp_flushed _ _ (reachedAs_of_reach hreach hr), linedUp_of_tx htx, hready, List.map_map]
      rfl

end Owner

end Roles

/-! ### DELTA_BCAST as it issues -/

section Issued

variable {q : SeqId} {s s1 : State} {c : Cmd} {n : Nat} {toks : List Nat} (h : Issues q 7 4 s s1 c n toks)

include h

theorem deltaBcast_moves : let t := movedOn q n (pcIndex s1 q) (startDelta q c n (ctxOf s1 q) s1)
    pcIndex t q = (pcIndex s q + 1) % 2 ^ 11 ∧ SequencersKept s t :=
  exchange_issued h (startDelta_kept _ _ _ _ _ (Kept.refl s1)).variant
    (startDelta_fld _ _ _ _ _ (by decide) (FieldKept.refl _ s1)) (startDelta_fld _ _ _ _ _ (by decide) (FieldKept.refl _ s1))

/-- A DELTA_BCAST that issues starts, and its sequencer moves on. -/
theorem deltaBcast_runs (hroom : trackerCount s1 q.die < 32768) {P : State → Prop}
    (hP : P (movedOn q n (pcIndex s1 q) (startDelta q c n (ctxOf s1 q) s1))) : Completes (.deltaBcast q) s P := by
  refine streamCmd_completes (body := fun c t _ s => xIssue q t (startDelta q c t) s) (fun _ => rfl) h ?_
  rw [xIssue_of_room hroom]
  exact hP

end Issued

theorem bx_movedOn (q : SeqId) (n pc : Nat) (u : State) (b : Nat) : bx (movedOn q n pc u) b = bx u b := by
  rw [bx, bx, movedOn_job]

/-- Settles O43: each command by its own start, and a DELTA_BCAST by the role of the device. -/
theorem exchangeCommands : Obligations.ExchangeCommands := by
  unfold Obligations.ExchangeCommands
  refine ⟨fun q s s1 c n toks hroom => ⟨bucketWait_issued hroom, remoteWrite_issued hroom, ?_⟩, ?_⟩
  · intro a count reads ms mirror acts h hreads
    have htracker : s1.tracker = s.tracker := tracker_of_unissued (prepare_unissued h)
    have hjob : s1.job = s.job := (congrArg State.job (prepare_unissued h) :)
    obtain ⟨hpc, hseq⟩ := deltaBcast_moves h
    obtain ⟨hlen, hlast⟩ := startDelta_entry (q := q) (cmd := c) (x := ctxOf s1 q) hreads
    refine deltaBcast_runs h hroom ?_
    rw [movedOn_tracker, movedOn_job, bx_movedOn, movedOn_same_mem, ← htracker, ← hjob]
    refine ⟨hlen, hlast, fun hidle => ?_, fun hacts => ?_, fun hpartner hown hmirror hheld hview => ?_, hpc, hseq⟩
    · obtain ⟨hp, hdeltas, hmem⟩ := startDelta_none (q := q) (n := n) (x := ctxOf s1 q) hidle
      exact ⟨hp, hdeltas, ((prepared_mem h).trans hmem).trans (movedOn_mem _)⟩
    · obtain ⟨hclean, hearly⟩ := hreads hacts
      obtain ⟨-, -, hdeltas, hmoments, hsent⟩ := deltaFlushed_keeps q c (ctxOf s1 q) s1
      rw [startDelta_ready hacts hclean hearly]
      exact ⟨⟨_, hdeltas, rfl, rfl, rfl⟩, hmoments, hsent⟩
    · have hacts : deltaActs s1 c.xBucket = true := by simp [deltaActs, hpartner]
      obtain ⟨hclean, hearly⟩ := hreads hacts
      obtain ⟨hframe, hread⟩ := deltaKept_moments (q := q) (x := ctxOf s1 q) hacts hview
      rw [startDelta_partner hpartner hown hmirror hheld hclean hearly]
      refine ⟨⟨_, deltaKept_tracker _ _ _ _, deltaEntry_gate (q := q) hown hmirror⟩,
        fun k hk => (hframe k hk).trans ((prepared_mem h).same k), fun w hw hcell hsole => ?_⟩
      rw [movedOn_readBytes]
      exact hread w hw hcell hsole
  · intro q s s1 c n toks hroom h x b d a count reads ops sentBy marked ms hclean hearly hown hmirror hheld _
    obtain ⟨-, hseq⟩ := deltaBcast_moves h
    have hnone : mirrors s1 c.xBucket = false := by simp [mirrors, hmirror]
    obtain ⟨hwait, hgo⟩ := startDelta_owner (q := q) (x := x) hown hnone hheld hclean hearly
    have hmarked : markedAll (bElems s1 b) (bx s1 b).deltaSent ops = marked := markedAll_eq _ _ _
    rw [hmarked] at hwait hgo
    clear_value marked
    refine deltaBcast_runs h hroom ?_
    rw [bx_movedOn, movedOn_job]
    refine ⟨hwait, fun hmay => ⟨(hgo hmay).1, fun rank serial hr => ⟨[], ?_, by simp⟩⟩, hseq⟩
    rw [linedUp_of_tx (congrArg JobX.tx (movedOn_job _ _ _ _)), (hgo hmay).2 rank serial hr, List.append_nil, List.map_map]
    rfl

end Sys2Proof.Machine
